-- ==== Sys2Proof/Word.lean ====
section
/-!
DEFINITION. The words of the machine: a control-space register (R5: 64 bits, little-endian) and a coherent line.
-/
namespace Sys2Proof

/-- A control-space register, or one 64-bit word of memory (R5). -/
abbrev Word := BitVec 64

/-- A 64-byte line of memory: bits 7:0 are the byte at the lowest address. -/
abbrev Line := BitVec 512

end Sys2Proof
end

