-- ==== Sys2Proof/Message.lean ====
section
/-!
DEFINITION. What commands carry: messages between ports and internal clients, the paths of control writes, and the
other operand records. Plain data.
-/
namespace Sys2Proof

/-- The messages of Table 4.2 by what they ask or answer. Reads, ownership reads, upgrades and writes are the requests
of Table 5.2; the internal messages are those of R108, R150-R154 and the twin mirror traffic. -/
inductive Op where
  -- CXL.mem requests: MemRd with MetaValue S, A, I; MemInv; MemWr and MemWrPtl with No-Op; writebacks I and S
  | rdS | rdA | rdI | memInv | memWr | memWrPtl | wbI | wbS
  -- CXL.mem responses: Cmp, Cmp-S, Cmp-E, MemData
  | cmp | cmpS | cmpE | memData
  -- back-invalidate snoops and answers; conflict handshake
  | bisnpData | bisnpInv | birspI | birspS | birspE | biConflict | biConflictAck
  -- CXL.cache
  | d2hReq | d2hRsp | d2hData | h2dReq | h2dRsp | h2dData
  -- CXL.io: memory read, memory write, configuration read and write, message, completion, MSI-X
  | ioRd | ioWr | cfgRd | cfgWr | ioMsg | ioCpl | ioUr | msix
  -- packet writes into the Plaza, egress data
  | plazaWr | egress
  -- delegation and internal messages
  | fwd | ack | handover | ret | waiter | credit | flushed | steered | mirror | mirrorCommit | dirCopy | internal
  -- Loom requests and responses over the Spindle, port-state reports, control writes of the partner (Table 12.4)
  | loomReq | loomRsp | portState | ctlWrite
  deriving DecidableEq, Repr

/-- One message in the Crossing: who sends it (`inp`) and who gets it (`out`) by endpoint number (Table 4.1), its
class, the agent it concerns (0xFF none), its address, tag and byte length, its data words, and what its kind adds
(`x`, as the sender's definition states). -/
structure Msg where
  op : Op
  cls : Nat
  inp : Nat
  out : Nat
  agent : Nat := 0xFF
  addr : Nat := 0
  tag : Nat := 0
  len : Nat := 64
  data : List Word := []
  poison : Bool := false
  slice : Nat := 0xFF
  x : List Nat := []
  deriving DecidableEq, Repr

/-- No message: what an empty place for one holds. -/
def Msg.blank : Msg := ⟨.internal, 0, 0, 0, 0xFF, 0, 0, 64, [], false, 0xFF, []⟩

/-- The path of a control-space access (R459, Table 19.2). A firmware access names its management core; a loader
write carries the source code of the source that issued the load (R43). -/
inductive Path where
  | bmc
  | debug
  | firmware (core : Nat)
  | loader (code : Nat)
  | partner
  | fmVdm (vcs : Nat)
  | bar0 (vcs : Nat)
  | tenantPage (vcs slice : Nat)
  deriving DecidableEq, Repr

/-- One control-space write at the arbitration point: its path, byte address, width in bytes, data and the bits it
covers (all ones for a plain write; the mask of a CTL_WRITE). -/
structure CtlWrite where
  path : Path
  addr : Nat
  width : Nat := 8
  data : Word
  mask : Word
  deriving DecidableEq, Repr

/-- What a port's training or Recovery settles at (R50-R59): the rate that both sides reach, the lanes that train and
those that detect a receiver, what the partner negotiates, and the time from Detect in units of 100 us. -/
structure LinkUp where
  rate : Nat
  lanes : Nat
  detect : Nat
  cxl : Bool
  lopt : Bool
  reversed : Bool
  xratePartner : Bool
  eqBypass : Bool
  time : Nat
  deriving DecidableEq, Repr

/-- The configuration registers of a vPPB whose values the spec states (R53, R72, R170, Table 9.1, R64): its identity (Vendor
and Device ID), class code, MSI-X, PASID, TPH Requester and Device Capabilities, Slot Capabilities, and the capacity
that a logical device reports. -/
inductive CfgReg where
  | ident | classCode | msixCap | pasidCap | tphCap | devCap | slotCap | capacity
  deriving DecidableEq, Repr

/-- A CXL.io request or another CXL.io act of a host or device (R67, R75): a message; a host's programming of a vPPB's
memory window, of an HDM decoder, or of a word of the Service Function's MSI-X table; a host's read of a decoder's
registers, or of a configuration register of a vPPB by name. -/
inductive IoReq where
  | msg (q : Msg)
  | decoderRead (n : Nat)
  | config (vppb : Nat) (reg : CfgReg)
  | window (vppb base limit : Nat)
  | decoder (n base size ways gran : Nat) (targets : List Nat) (commit lock : Bool)
  | msix (vec word : Nat) (data : Word)
  deriving DecidableEq, Repr

/-- An IDE_KM message that acts on a port's stream (R76): keys are programmed, or the key set is switched. -/
inductive IdeKm where
  | keyProg
  | keySet (k : Bool)
  deriving DecidableEq, Repr

/-- What starts a cold reset: PORST_N, a hard brown-out, or both in one cycle (R412). -/
inductive ColdCause where
  | porst
  | brownout
  | both
  deriving DecidableEq, Repr

/-- An image as its source holds it: its bytes. -/
structure Image where
  bytes : List Nat
  deriving DecidableEq, Repr

/-- One Spindle data packet (R310): kind, sequence number, virtual channel, its length in blocks, whether its CRC
holds, its message, whether a reserved bit of its header is set, and the endpoints SRC and DEST (Table 12.3): DEST 0xFF
routes by the address. -/
structure Packet where
  kind : Nat
  seq : Nat
  vc : Nat
  blocks : Nat
  crcOk : Bool
  msg : Msg
  rsv : Bool := false
  src : Nat := 0
  dest : Nat := 0xFF
  deriving DecidableEq, Repr

/-- One valid Whorl heartbeat (Table 12.7). -/
structure Heartbeat where
  seq : Nat
  echo : Nat
  flags : Nat
  claim : Nat
  digest8 : Nat
  txTime : Nat
  rxTime : Nat
  deriving DecidableEq, Repr

/-- What a code word reads as (R356): good, a poison mark, corrected (its row, and whether its macro has an unused
spare), or uncorrectable (cause 1 MULTI, 2 ADDRESS, and for a context word the object: sort and index). -/
inductive WordClass where
  | good
  | poison
  | corrected (row : Nat) (spare : Bool)
  | bad (cause sort obj : Nat)
  deriving DecidableEq, Repr

end Sys2Proof

namespace Sys2Proof.Machine

/-- A sample of a slot channel's converter (R396): VIN and VOUT in mV, VSENSE in units of 10 µV, VGS in mV. -/
structure Meas where
  vin : Nat
  vout : Nat
  vsense : Nat
  vgs : Nat
  deriving DecidableEq, Repr

/-- A directory entry (R120, R121): tag, sharers (one bit an agent 0-63), Kiosk bit, state (0 DI, 1 DS, 2 DX),
delegation, domain, the poison mark PM of its code word (R356), and the way's not-recently-used bit (R133). The check
bits are a function of the rest (Config.dirCheck). -/
structure DirEnt where
  tag : Nat := 0
  sharers : Nat := 0
  kiosk : Bool := false
  state : Nat := 0
  deleg : Bool := false
  cd : Nat := 0
  pm : Bool := false
  nru : Bool := false
  deriving DecidableEq, Repr

/-- A waiting request: its stamp (R144) and message; in a retry queue also why it waits (0 refused, 1 Corner credit,
2 its agent is being purged, 3 the role is not decided, 4 its line moves, 5 the settle walk, 6 the ledger is full),
whether it has been woken or aged, the way reserved for it (16 none), and whether a Corner has returned it (R157). -/
structure Waiting where
  stamp : Nat
  msg : Msg
  why : Nat := 0
  woken : Bool := false
  aged : Bool := false
  way : Nat := 16
  back : Bool := false
  deriving DecidableEq, Repr

/-- The reasons of a RETURN (Table 6.4). -/
inductive Ret where
  | done | ownerGone | self | moved | lost | portDown
  deriving DecidableEq, Repr


end Sys2Proof.Machine
end

