-- ==== Sys2Proof/Syntax.lean ====
section
/-!
DEFINITION. The commands: one constructor for each row of spec/opcode_table.json, in its order, with the row's operands.
-/
namespace Sys2Proof

/-- The commands of the block. -/
inductive Instr where
  /-- COLD_RESET (R412): PORST_N assertion or a hard brown-out returns every register to its reset value and restarts
the part from the start-up sequence. -/
  | coldReset (cause : ColdCause) (pin command : Bool)
  /-- WARM_RESET (R412): SYS_RESET_N, an accepted warm reset command, REFCLK return or a thermal trip release resets
registers, switches off every domain but AO, MGMT and CORE, and restarts the ROM. -/
  | warmReset (pin command : Bool)
  /-- PERST_ASSERT (R75): Deglitched assertion of PERST_N[v] resets VCS v, its vPPBs and decoders, propagates hot and
LD resets, and stops the rings of its slices. -/
  | perstAssert (v : Fin 64)
  /-- PERST_DEASSERT (R75): Deassertion of PERST_N[v] moves the upstream port out of RESET, and Detect starts within
20 us. -/
  | perstDeassert (v : Fin 64)
  /-- PRESENCE_DEBOUNCED (R20): A new PRSNT_N level that has held through its 5 ms debounce is taken by the port and
the slot channel. -/
  | presenceDebounced (n : Fin 32) (present : Bool)
  /-- TWIN_ID_CHANGE (R20): A change of the TWIN_ID pin after its sampling has no effect on the part. -/
  | twinIdChange (level : Bool)
  /-- PARTNER_ALIVE_CHANGE (R340): A deglitched change of PARTNER_ALIVE_IN updates the ALIVE witness and may complete
a takeover. -/
  | partnerAliveChange (level : Bool)
  /-- PPS_EDGE (R210): A deglitched rising edge of PPS_IN is captured, accepted or rejected, and disciplines the time
base. -/
  | ppsEdge (short : Bool := false)
  /-- PPS_LOST (R210): No accepted PPS edge within 1,500 ms sets HOLDOVER, holds FREQ and raises the event. -/
  | ppsLost
  /-- REGISTER_WRITE (R7): A control-space write to a register with no row of its own is arbitrated, checked and
applied or refused under its access type. -/
  | registerWrite (writes : List CtlWrite)
  /-- LOAD_FLASH_A (R32): The loader command that starts a load of Meldel copy A from SPI flash. -/
  | loadFlashA (path : Path)
  /-- LOAD_FLASH_B (R32): The loader command that starts a load of Meldel copy B from SPI flash. -/
  | loadFlashB (path : Path)
  /-- LOAD_STAGE (R32): The loader command that starts a load of the image in the staging memory. -/
  | loadStage (path : Path)
  /-- ABORT (R33): The loader ABORT command stops a running load before its write pass or ends a check as refused. -/
  | abort (path : Path)
  /-- IMAGE_LOAD_DONE (R31): A load ends its verification pass and, if accepted, its write pass, and MLD_STATUS
reports ACCEPTED or REFUSED. -/
  | imageLoadDone (flash : Image)
  /-- STAGE_DATA_ACCESS (R45): An access to MLD_STAGE_DATA transfers one staging word and advances MLD_STAGE_ADDR. -/
  | stageDataAccess (path : Path) (data : Option Word)
  /-- STRUCT_ENABLE (R34): GLB_STRUCT_CTL.ENABLE written 1 starts the consistency check or is refused with
IMG_NOT_LOADED. -/
  | structEnable (path : Path)
  /-- STRUCT_DISABLE (R34): GLB_STRUCT_CTL.ENABLE written 0 enters DISABLING when every port and ring is disabled, or
is refused. -/
  | structDisable (path : Path)
  /-- STRUCT_CHECK (R40): GLB_STRUCT_CTL.CHECK runs phases 1 to 11 without applying them. -/
  | structCheck (path : Path)
  /-- STRUCT_CHECK_DONE (R35): The check phases finish, moving structure to APPLYING or refusing with the first
reason code. -/
  | structCheckDone
  /-- PHASE11_LISTEN_END (R37): No valid partner heartbeat within 100 us lets phase 11 pass. -/
  | phase11ListenEnd
  /-- APPLYING_DONE (R34): Every defaulted domain has reached its default or failed, blocks are released and
structure becomes ENABLED. -/
  | applyingDone
  /-- DISABLING_DONE (R34): Every domain other than AO, MGMT and CORE has drained and is OFF, and structure returns
to DISABLED. -/
  | disablingDone
  /-- PORT_ENABLE_WRITE (R59): OCT_PORT_CTL.ENABLE written 1 or 0 starts training or disables the port through
FLUSHING. -/
  | portEnableWrite (path : Path) (p : Fin 128) (on : Bool)
  /-- RETRAIN (R60): The RETRAIN command retrains an UP or HELD port at TARGET_RATE. -/
  | retrain (path : Path) (p : Fin 128)
  /-- REDO_EQ (R60): The REDO_EQ command retrains a port with full equalisation. -/
  | redoEq (path : Path) (p : Fin 128)
  /-- PORT_CLR_CNT (R80): OCT_PORT_CTL.CLR_CNT clears OCT_PORT_CNT0 and OCT_PORT_CNT1. -/
  | portClrCnt (path : Path) (p : Fin 128)
  /-- TRAINING_L0 (R59): A training port reaches L0 at its final rate and enters UP or HELD with a reason. -/
  | trainingL0 (p : Fin 128) (link : LinkUp)
  /-- TRAIN_TIMEOUT (R57): TRAIN_TMO expires, restarting training from Detect or, with retries exhausted, holding the
port with TRAIN_FAIL. -/
  | trainTimeout (p : Fin 128)
  /-- XRATE_EQ_TIMEOUT (R54): Equalisation at 128 GT/s not completing within 24 ms falls the link back to 64 GT/s. -/
  | xrateEqTimeout (p : Fin 128)
  /-- PORT_RECOVERY_DONE (R59): A Recovery of an UP port settles and the port returns to UP or enters HELD. -/
  | portRecoveryDone (p : Fin 128) (link : LinkUp)
  /-- LINK_DOWN (R74): An UP port loses its link, enters FLUSHING and may make its agent lost. -/
  | linkDown (p : Fin 128)
  /-- IDE_SECURE (R77): The IDE stream becomes secure in both directions and a port held IDE_PENDING enters UP. -/
  | ideSecure (p : Fin 128) (mode : Fin 4) (kset : Bool)
  /-- IDE_TIMEOUT (R77): IDE_TMO expires while the port waits for keys, raising the event while the port stays HELD. -/
  | ideTimeout (p : Fin 128)
  /-- IDE_FAIL (R78): An IDE integrity-check failure discards flits, takes the link down and sends the port to
FLUSHING. -/
  | ideFail (p : Fin 128)
  /-- FLUSH_COMPLETE (R108): A FLUSHING port's queues, references and planes are empty and the port leaves FLUSHING. -/
  | flushComplete (p : Fin 128)
  /-- FLUSH_TIMEOUT (R59): FLUSHING lasts 10 ms without completing and the port is disabled. -/
  | flushTimeout (p : Fin 128)
  /-- SLOT_PERST_RELEASE (R73): PERST_DELAY after power-good rises, SLOT_PERST_N is deasserted. -/
  | slotPerstRelease (n : Fin 32)
  /-- POWER_CONTROLLER_WRITE (R72): A host write to Power Controller Control of a slot vPPB sets POWER_REQ or is
ignored. -/
  | powerControllerWrite (v : Fin 64) (p : Fin 128) (on : Bool)
  /-- HOST_MEM_REQUEST (R288): A CXL.mem request from a host is validated, routed, decoded and Kerb-checked at the
octet. -/
  | hostMemRequest (p : Fin 128) (q : Msg)
  /-- HOST_IO_REQUEST (R67): A CXL.io request from a port is routed or completed with Unsupported Request. -/
  | hostIoRequest (p : Fin 128) (r : IoReq)
  /-- EDGE_MESSAGE (R71): A message from a port-based routing fabric is checked against DPID and SPID and accepted or
discarded. -/
  | edgeMessage (p : Fin 128) (dpid spid : Fin 4096) (q : Msg)
  /-- CXL_CACHE_MESSAGE (R165): A CXL.cache message of a Type 1/2 device is routed between the device and its host. -/
  | cxlCacheMessage (p : Fin 128) (q : Msg)
  /-- BICONFLICT (R160): A BIConflict from an agent is answered with BIConflictAck after the agent's own grant, or at
once. -/
  | biconflict (p : Fin 128) (addr tag : Nat)
  /-- MESSAGE_DISPATCH (R92): A message at an input head is classed, admitted, given a plane and dispatched, or cut
through. -/
  | messageDispatch (e : Fin 168) (c : Fin 8) (q : Option Msg)
  /-- HEAD_ADMIT (R85): A message waiting at its input-class head for buffer or a draining flowlet entry is admitted
when room appears. -/
  | headAdmit (e : Fin 168) (c : Fin 8)
  /-- CELL_LINKED (R90): The link stage links a cell into its queue and acknowledges it to the input. -/
  | cellLinked (e : Fin 168) (plane : Fin 4)
  /-- OUTPUT_SEND (R88): An output stage chooses a class queue by priority and DRR and sends its head message. -/
  | outputSend (ep : Fin 168)
  /-- PLANE_PATH_CHECK_DONE (R95): A STARTING plane passes its path check and enters SERVICE. -/
  | planePathCheckDone (plane : Fin 4)
  /-- PLANE_PATH_CHECK_TIMEOUT (R95): A plane whose path check fails or exceeds 20 us becomes LOST with cause
TEST_FAIL. -/
  | planePathCheckTimeout (plane : Fin 4)
  /-- PLANE_ERROR (R96): An uncorrectable check or parity error on a plane makes it LOST and resends its
unacknowledged cells. -/
  | planeError (plane : Fin 4) (parity : Bool)
  /-- PLANE_WATCHDOG (R96): A dispatched cell not acknowledged within 1 us makes its plane LOST with cause WATCHDOG. -/
  | planeWatchdog (plane : Fin 4)
  /-- PLANE_DRAINED (R95): A DRAINING plane carries no cell and enters TEST or OFF. -/
  | planeDrained (plane : Fin 4)
  /-- PLANE_DRAIN_TIMEOUT (R95): A DRAINING plane not empty within 10 us becomes LOST with cause WATCHDOG. -/
  | planeDrainTimeout (plane : Fin 4)
  /-- PLANE_OUT (R97): Setting XB_PLANE_CTL.OUT takes a plane out of service for test, or is refused. -/
  | planeOut (path : Path) (planes : Fin 16)
  /-- PLANE_RETURN (R95): XB_PLANE_CTL.RETURN returns a TEST or LOST plane through STARTING. -/
  | planeReturn (path : Path) (planes : Fin 16)
  /-- XB_CLR_CNT (R112): XB_CTL.CLR_CNT clears the XB counters and mirror counters. -/
  | xbClrCnt (path : Path)
  /-- AGE_EXPIRY (R107): The head of an output queue exceeds its class AGE_LIMIT at the 1 us age check. -/
  | ageExpiry (ep : Fin 168) (c : Fin 8)
  /-- FLUSHED_NOTICE (R108): A FLUSHED notice reaches the internal endpoint that originated a discarded message,
which closes its transaction. -/
  | flushedNotice (was : Op) (q : Msg)
  /-- SQUARE_LOOKUP (R122): A request, writeback or wakened retry takes a Square lookup slot, allocates a tracker and
issues its speculative read. -/
  | squareLookup (sq : Fin 32) (tie : Nat) (bad : Option (Fin 16) := none)
  /-- LOOKUP_RESULT (R123): The directory lookup returns 6 ns after it starts and the tracker acts on the state per
Table 5.2. -/
  | lookupResult (sq : Fin 32) (t : Fin 8192) (bad : Option (Fin 16))
  /-- SPEC_DATA_ARRIVAL (R127): Speculative read data arrives and is used or discarded by the lookup's decision. -/
  | specDataArrival (sq : Fin 32) (tag : Nat) (data : List Word) (poison : Bool)
  /-- MEMORY_READ_DATA (R131): Demand read data arrives at a tracker from a fabric memory port. -/
  | memoryReadData (sq : Fin 32) (tag : Nat) (data : List Word) (poison : Bool)
  /-- MEMORY_WRITE_COMPLETE (R131): A tracker's memory write completes. -/
  | memoryWriteComplete (sq : Fin 32) (tag : Nat)
  /-- WRITEBACK (R124): A writeback arrives at the Square and is joined, looked up, chained or discarded. -/
  | writeback (sq : Fin 32) (q : Msg) (bad : Option (Fin 16) := none)
  /-- BIRSP (R128): A snoop answer arrives at a tracker, eviction or settle tracker and may close its snoop set. -/
  | birsp (sq : Fin 32) (agent : Fin 65) (line : Nat) (shared : Bool)
  /-- SNOOP_TIMEOUT (R129): SNP_TMO expires for a snoop destination, which is treated as lost for the line. -/
  | snoopTimeout (sq : Fin 32) (t : Fin 8192) (agent : Fin 65)
  /-- MEM_TIMEOUT (R132): MEM_TMO expires for a tracker's memory read or write. -/
  | memTimeout (sq : Fin 32) (what : Fin 3) (tag : Nat)
  /-- MIRROR_COMMIT (R338): A MIRROR_COMMIT packet arrives and releases the grants whose FINAL records it covers. -/
  | mirrorCommit (commits : List (Nat × Nat))
  /-- COMMIT_SEND (R338): A mirror Square returns a MIRROR_COMMIT within 20 ns of the first uncommitted record
applied. -/
  | commitSend (sq : Fin 32)
  /-- RELEASE_SEND (R337): A Square sends a packed RELEASE record within 100 ns of the first tracker free after a
record. -/
  | releaseSend (sq : Fin 32)
  /-- RETRY_INTERVAL (R136): SQ_RETRY_CTL.INTERVAL after its last attempt, a retry-queue entry is retried. -/
  | retryInterval (sq : Fin 32) (n : Nat)
  /-- RETRY_AGE_LIMIT (R136): A retry-queue entry reaches SQ_RETRY_CTL.AGE_LIMIT. -/
  | retryAgeLimit (sq : Fin 32) (n : Nat)
  /-- EVICT_WINDOW_END (R138): A 1 ms eviction window ends and its count is compared with THRESH. -/
  | evictWindowEnd (sq : Fin 32)
  /-- PROBE_START (R142): A write of SQ_PROBE_ADDR starts a read of the entry for that line. -/
  | probeStart (path : Path) (sq : Fin 32) (addr : Nat)
  /-- PROBE_DONE (R142): The probe completes and SQ_PROBE_RESULT reports the entry with DONE set. -/
  | probeDone (sq : Fin 32)
  /-- FMD_COMMIT (R116): Setting SQ_FMD_CTL.COMMIT commits a fabric memory decoder or is refused. -/
  | fmdCommit (path : Path) (n : Fin 32)
  /-- FMD_DECOMMIT (R116): Clearing COMMIT releases a decoder or is refused while a target port is UP. -/
  | fmdDecommit (path : Path) (n : Fin 32)
  /-- SQ_CLR_CNT (R141): SQ_CTL.CLR_CNT clears the Square counters. -/
  | sqClrCnt (path : Path) (sq : Fin 32)
  /-- CORNER_FWD (R155): A FWD reaches the owner's Corner and opens a record, appends a waiter or is returned MOVED. -/
  | cornerFwd (p : Fin 128) (sq : Fin 32) (w : Machine.Waiting) (opened : Bool)
  /-- CORNER_WRITEBACK (R155): An owner writeback for a line with a Corner record is taken by the Corner. -/
  | cornerWriteback (p : Fin 128) (q : Msg)
  /-- CORNER_BIRSP (R155): An owner BIRsp for a line with a Corner record advances or returns the head waiter. -/
  | cornerBirsp (p : Fin 128) (line : Nat) (shared : Bool)
  /-- CORNER_SNOOP_TIMEOUT (R155): The home Square's SNP_TMO expires for a Corner record, which returns LOST or is
freed. -/
  | cornerSnoopTimeout (p : Fin 128) (line : Nat)
  /-- CORNER_MEMORY_WRITE_DONE (R156): A Corner's memory write completes, allowing HANDOVER or RETURN DONE. -/
  | cornerMemoryWriteDone (p : Fin 128) (line : Nat)
  /-- CORNER_MEM_TIMEOUT (R156): MEM_TMO expires on a Corner's memory write, which is taken as complete. -/
  | cornerMemTimeout (p : Fin 128) (line : Nat)
  /-- CORNER_ACK (R155): An ACK from the home Square reaches a HANDED Corner record. -/
  | cornerAck (p : Fin 128) (line : Nat)
  /-- HANDOVER (R157): The home Square takes a HANDOVER, writes DX new owner with DELEG 1 and forwards the waiters. -/
  | handover (sq : Fin 32) (p : Fin 128) (line : Nat) (agent : Fin 64) (settled recs waits : Nat)
  /-- RETURN (R157): The home Square takes a Corner RETURN with its reason and writes the entry per Table 6.4. -/
  | ret (sq : Fin 32) (p : Fin 128) (line : Nat) (why : Machine.Ret) (final : Option Machine.DirEnt) (kept : Bool) (head : Option Machine.Waiting) (settled recs waits : Nat)
  /-- WAITER (R153): A WAITER message following a HANDOVER or RETURN re-enters its request at the Square in stamp
order. -/
  | waiter (sq : Fin 32) (w : Machine.Waiting)
  /-- CREDIT (R151): A CREDIT message returns Corner record and waiter credits to a Square. -/
  | credit (sq octet : Fin 32) (recs waits : Nat)
  /-- PURGE_WALK_DONE (R163): A Square's purge walk completes a full pass for every agent in its mask. -/
  | purgeWalkDone (sq : Fin 32)
  /-- SLOT_LINE_WRITE (R175): A write into a Plaza slot allocates a bobbin, fills the slot and may commit it. -/
  | slotLineWrite (v : Fin 64) (dpa tag : Nat) (mask : Word) (data : List Word) (poison : Bool)
  /-- PLAZA_LD_READ (R171): A read of the Plaza logical device, or a write in its rounding gap, completes without
effect. -/
  | plazaLdRead (v : Fin 64) (dpa tag : Nat) (read : Bool)
  /-- ENQUEUE (R184): The enqueue takes the committed head slot and checks, polices, admits, spills or drops its
packet. -/
  | enqueue (sl : Fin 256)
  /-- SLOT_FILL_TIMEOUT (R175): SLOT_TMO after its first write, a FILLING slot becomes DONE and frees its bobbins. -/
  | slotFillTimeout (sl : Fin 256) (slot : Fin 4096)
  /-- SLOT_HEAD_TIMEOUT (R175): A FREE head slot with a later slot in use for SLOT_TMO is skipped as DONE. -/
  | slotHeadTimeout (sl : Fin 256)
  /-- SLOT_RETURN (R178): A DONE head slot becomes FREE, RETURNED advances and a return record may be written. -/
  | slotReturn (sl : Fin 256)
  /-- RETURN_RECORD_TIMEOUT (R178): RET_TMO after the first unreported return, a return record is written. -/
  | returnRecordTimeout (sl : Fin 256)
  /-- SLOT_RING_ENABLE (R177): TM_SRING_CTL.ENABLE written sets or stops a slot ring. -/
  | slotRingEnable (path : Path) (sl : Fin 256) (on : Bool)
  /-- FLUSH_QUEUE (R187): The TM_CMD FLUSH_QUEUE command drops every packet linked to a queue before it. -/
  | flushQueue (path : Path) (q : Fin 32768)
  /-- FLUSH_QUEUE_DONE (R187): A FLUSH_QUEUE command finishes and TM_CMD_STATUS.BUSY clears. -/
  | flushQueueDone
  /-- TM_CLR_CNT (R195): TM_CTL.CLR_CNT clears the traffic-manager counters. -/
  | tmClrCnt (path : Path)
  /-- METER_SWEEP (R181): The background sweep visits a VALID flow context so that its time difference never wraps. -/
  | meterSweep (flow : Fin 1048576)
  /-- EGRESS_PUSH (R192): A selected packet is pushed into its receive ring once the ring has room, and its entry is
written. -/
  | egressPush (c : Fin 512) (fixed : List Nat) (bad : List (Nat × Nat × Nat))
  /-- SELECT (R199): A selection lane decides the next packet of an egress port through the scheduling tree. -/
  | select (lane : Fin 4)
  /-- SHAPER_REFILL (R205): The refill engine of a level visits one element and credits its buckets. -/
  | shaperRefill (level : Fin 4) (n : Fin 32768)
  /-- DRR_SWEEP (R203): The background sweep visits an idle queue and clamps its LAST_ROUND. -/
  | drrSweep (q : Fin 32768)
  /-- GATE_ENTRY_BOUNDARY (R214): The gate position crosses an entry boundary and the open mask and NOFIT flags
change. -/
  | gateEntryBoundary (c : Fin 512)
  /-- GATE_START (R213): Once the time base is set and at or after BASE, the active gate list starts. -/
  | gateStart (c : Fin 512)
  /-- GATE_CHANGE (R216): TM_GATE_CTL.CHANGE requests a switch to the shadow bank, or is refused. -/
  | gateChange (path : Path) (c : Fin 512)
  /-- GATE_SWITCH (R216): At the switch time the gate banks exchange roles and the event is raised. -/
  | gateSwitch (c : Fin 512)
  /-- TOD_SET (R212): TB_TOD_CTL.SET sets the time base at once. -/
  | todSet (path : Path) (ns : Nat)
  /-- TOD_ARM (R212): TB_TOD_CTL.ARM arms the ToD to be applied at the next accepted PPS edge. -/
  | todArm (path : Path) (ns : Nat)
  /-- TIME_STEP_OFFSET (R212): A write of TB_STEP.OFFSET steps the time base by a signed offset. -/
  | timeStepOffset (path : Path) (offset : BitVec 32)
  /-- TB_CLR_CNT (R220): TB_CTL.CLR_CNT clears TB_CNT. -/
  | tbClrCnt (path : Path)
  /-- TB_TIME_NS_READ (R208): A read of TB_TIME_NS latches the seconds of the same instant into TB_TIME_SEC. -/
  | tbTimeNsRead (path : Path)
  /-- GCL_DATA_ACCESS (R216): An access to TM_GCL_DATA reads or writes a gate-list entry and advances INDEX. -/
  | gclDataAccess (path : Path) (data : Option Word)
  /-- DOORBELL_PRODUCER (R234): A producer doorbell write is checked and advances a submission ring's PROD or puts
the ring in ERROR. -/
  | doorbellProducer (v : Fin 64) (sl : Fin 256) (whole : Bool) (data : Word)
  /-- DOORBELL_CONSUMER (R234): A consumer doorbell write is checked and advances a device-produced ring's CONS,
freeing room. -/
  | doorbellConsumer (v : Fin 64) (sl : Fin 256) (whole : Bool) (data : Word)
  /-- FETCH_ISSUE (R236): The ring engine issues a CXL.io read of submission slots up to the doorbell. -/
  | fetchIssue (r : Fin 32768)
  /-- FETCH_COMPLETION (R236): A fetch read completion arrives and FETCHED advances, or the ring enters ERROR. -/
  | fetchCompletion (r : Fin 32768) (start : Nat) (ok poison : Bool) (data : List Word)
  /-- FETCH_TIMEOUT (R237): FETCH_TMO expires on a fetch read and the ring enters ERROR. -/
  | fetchTimeout (r : Fin 32768) (start : Nat)
  /-- RING_DISPATCH (R238): The ring engine hands one entry to a Loom cluster by weighted round robin under the
completion gate. -/
  | ringDispatch
  /-- JOB_COMPLETE (R241): A finished job's result is written to its completion ring or held for room. -/
  | jobComplete (t : Fin 4096)
  /-- IRQ_MODERATION_TIMEOUT (R246): MOD_US after the first uninterrupted entry, the ring sends its MSI-X vector. -/
  | irqModerationTimeout (r : Fin 32768)
  /-- RING_ENABLE (R249): RNG_CTL.ENABLE written 1 starts a ring or is refused. -/
  | ringEnable (path : Path) (r : Fin 32768)
  /-- RING_DISABLE (R247): RNG_CTL.ENABLE written 0 sends a ring to STOPPING. -/
  | ringDisable (path : Path) (r : Fin 32768)
  /-- RING_CLR_CNT (R251): RNG_CTL.CLR_CNT clears the ring's counters. -/
  | ringClrCnt (path : Path) (r : Fin 32768)
  /-- RING_STOPPED (R247): A STOPPING ring has no job outstanding and no write in flight and becomes DISABLED. -/
  | ringStopped (r : Fin 32768)
  /-- RING_STOP_TIMEOUT (R247): A ring 100 ms in STOPPING becomes DISABLED with cause STOP_TIMEOUT. -/
  | ringStopTimeout (r : Fin 32768)
  /-- SF_CONFIG_WRITE (R247): Clearing Bus Master Enable or PASID Enable of the Service Function puts its running
rings in ERROR. -/
  | sfConfigWrite (v : Fin 64) (master pasid tph : Bool)
  /-- FUNCTION_LEVEL_RESET (R221): A Function Level Reset of the Service Function stops its rings as PERST_N does. -/
  | functionLevelReset (v : Fin 64)
  /-- LOOM_ACCESS_RESPONSE (R263): Data or an update acknowledgement returns to a Loom thread and the job advances or
completes. -/
  | loomAccessResponse (id : Nat) (bad : Bool)
  /-- LOOM_ACCESS_TIMEOUT (R263): ACC_TMO expires on a table access and marks its item ERROR with status TIMEOUT. -/
  | loomAccessTimeout (id : Nat)
  /-- CLUSTER_OUT (R253): Setting LM_CL_CTL.OUT stops dispatch to a cluster, or is refused. -/
  | clusterOut (path : Path) (clusters : Fin 256)
  /-- CLUSTER_DRAINED (R253): An out cluster's jobs finish and their results drain, and the cluster enters TEST. -/
  | clusterDrained (c : Fin 8)
  /-- CLUSTER_RETURN (R253): LM_CL_CTL.RETURN brings a TEST or LOST cluster back to SERVICE. -/
  | clusterReturn (path : Path) (clusters : Fin 256)
  /-- TABLE_ENABLE (R254): LM_TBLn_CFG.ENABLE written enables or disables a Loom table for later jobs. -/
  | tableEnable (path : Path) (n : Fin 1024) (on : Bool)
  /-- LM_CLR_CNT (R279): LM_CTL.CLR_CNT clears the Loom counters. -/
  | lmClrCnt (path : Path)
  /-- PRED_CLR (R268): LM_CTL.PRED_CLR invalidates every run-ahead predictor entry. -/
  | predClr (path : Path)
  /-- KIOSK_FILL_DATA (R271): Fill data for a Kiosk miss arrives from the home Square and the line enters S or E. -/
  | kioskFillData (bank : Fin 4) (q : Msg)
  /-- KIOSK_SNOOP (R271): A BISnp to a Kiosk bank is answered after any update in progress, with a writeback where
the line is M. -/
  | kioskSnoop (bank : Fin 4) (q : Msg) (bad : Bool)
  /-- KIOSK_STEERED_FILL (R273): Steered write data from a Square is placed in the Kiosk or dropped. -/
  | kioskSteeredFill (bank : Fin 4) (q : Msg)
  /-- KSK_BANK_OUT (R275): Setting KSK_BANK_CTL.OUT puts a bank in DRAINING, or is refused. -/
  | kskBankOut (path : Path) (banks : Fin 16)
  /-- KSK_BANK_DRAINED (R275): A draining bank has written back its M lines and enters TEST. -/
  | kskBankDrained (bank : Fin 4)
  /-- KSK_BANK_RETURN (R275): KSK_BANK_CTL.RETURN returns a TEST or LOST bank to SERVICE after the hosting bank gives
back its share. -/
  | kskBankReturn (path : Path) (banks : Fin 16)
  /-- KIOSK_FLUSH (R275): KSK_CTL.FLUSH writes back or drops every line present, or is refused while busy. -/
  | kioskFlush (path : Path)
  /-- KIOSK_FLUSH_DONE (R275): The flush completes and FLUSH_BUSY clears. -/
  | kioskFlushDone
  /-- KSK_CLR_CNT (R279): KSK_CTL.CLR_CNT clears the Kiosk counters. -/
  | kskClrCnt (path : Path)
  /-- KERB_WINDOW_WRITE (R291): A write to a staged Kerb window is accepted or refused for LOCK or a running fence. -/
  | kerbWindowWrite (path : Path) (n : Fin 16384) (word : Fin 4) (data : Word)
  /-- KERB_FENCE_GO (R292): KRB_FENCE_CTL.GO starts a Kerb fence, which checks the staged windows. -/
  | kerbFenceGo (path : Path)
  /-- KERB_FENCE_CHECK_DONE (R292): The fence check finishes and either refuses or switches every check stage to the
new rules. -/
  | kerbFenceCheckDone
  /-- KERB_FENCE_DRAINED (R292): Every old-epoch access has completed and the fence ends. -/
  | kerbFenceDrained
  /-- KERB_FENCE_TIMEOUT (R295): The fence drain exceeds TMO, RESULT becomes TIMEOUT and FENCE_TIMEOUT is raised. -/
  | kerbFenceTimeout
  /-- SLICE_ENABLE (R284): TEN_CTL.ENABLE written 1 enables a slice or makes a stopping slice PENDING_ENABLE. -/
  | sliceEnable (path : Path) (sl : Fin 256)
  /-- SLICE_DISABLE (R284): TEN_CTL.ENABLE written 0 sends a slice to STOPPING and disables its rings. -/
  | sliceDisable (path : Path) (sl : Fin 256)
  /-- SLICE_DRAINED (R284): A stopping slice's rings, slot ring, jobs and old accesses are done and it becomes
DISABLED or ENABLED. -/
  | sliceDrained (sl : Fin 256)
  /-- SLICE_STOP_TIMEOUT (R284): 200 ms after leaving ENABLED without drain, the slice is forced to DISABLED or
ENABLED. -/
  | sliceStopTimeout (sl : Fin 256)
  /-- VIOLATION_CLEAR (R297): Writing 1 to TEN_VIOL.VALID clears the capture record and count. -/
  | violationClear (path : Path) (sl : Fin 256)
  /-- APERTURE_ACCESS (R300): An access to TEN_OBJ_DATA reaches an owned object's context or is refused. -/
  | apertureAccess (path : Path) (sl : Fin 256) (word : Fin 8) (data : Option Word)
  /-- DEBUG_FABRIC_ACCESS (R299): A debug-master access to a fabric address is checked against DEBUG_DENY and locked
windows. -/
  | debugFabricAccess (addr : Nat) (write : Bool) (data : List Word)
  /-- KRB_CLR_CNT (R302): KRB_CTL.CLR_CNT clears every KRB counter. -/
  | krbClrCnt (path : Path)
  /-- SPINDLE_ENABLE (R307): TWN_SPN_CTL.ENABLE written starts or stops the Spindle link. -/
  | spindleEnable (path : Path) (on : Bool)
  /-- SPINDLE_RETRAIN (R306): TWN_SPN_CTL.RETRAIN sends an UP link into RECOVERY at the widest width available. -/
  | spindleRetrain (path : Path)
  /-- SPINDLE_CLR_CNT (R329): TWN_SPN_CTL.CLR_CNT clears the Spindle counters. -/
  | spindleClrCnt (path : Path)
  /-- SPINDLE_TRAINED (R306): Eight agreeing LINKINFO blocks with enough good lanes bring the link UP and reset
sequence and credits. -/
  | spindleTrained
  /-- SPINDLE_TRAIN_TIMEOUT (R306): TRAIN_TMO without reaching UP restarts training from receiver detect. -/
  | spindleTrainTimeout
  /-- SPINDLE_RECOVERY_DONE (R306): Lanes realign with agreeing LINKINFO and the link returns to UP with replays
started. -/
  | spindleRecoveryDone
  /-- SPINDLE_RECOVERY_TIMEOUT (R306): RECOVERY_TMO expires and the link is declared lost. -/
  | spindleRecoveryTimeout
  /-- SPINDLE_SILENCE (R306): No valid block for 1 us sends an UP link into RECOVERY. -/
  | spindleSilence
  /-- ALIGNMENT_LOST (R305): An alignment marker outside the skew window or with a disagreeing count fails its lane. -/
  | alignmentLost (lane : Fin 34)
  /-- LANE_WINDOW_END (R320): A 1 ms lane error window ends and a lane over its thresholds fails. -/
  | laneWindowEnd (lane : Fin 34) (corrected uncorrectable : Nat)
  /-- STATUS_BLOCK (R316): A STATUS control block updates ACKED and credit limits and may start a replay on NAK. -/
  | statusBlock (ok nak : Bool) (ack : Fin 65536) (limits : List Nat)
  /-- REPLAY_BLOCK (R314): A REPLAY control block ends NAK_PENDING or is a protocol error. -/
  | replayBlock (ok : Bool) (first : Fin 65536)
  /-- SPARE_BLOCK (R320): A SPARE control block moves a logical lane onto a spare or reports a failed spare. -/
  | spareBlock (ok : Bool) (lane : Fin 32) (spare : Fin 2) (failedOnly : Bool)
  /-- LINKINFO_BLOCK (R306): A LINKINFO block advances training, reports an ID conflict, or brings an UP link into
RECOVERY. -/
  | linkinfoBlock (ok twin : Bool) (failed : Nat) (spares : Nat := 0)
  /-- DATA_PACKET (R313): A Spindle data packet is CRC-checked and accepted in sequence, discarded as duplicate, or
treated as an error. -/
  | dataPacket (pk : Packet)
  /-- FEC_UNCORRECTABLE (R314): An uncorrectable codeword puts the receiver in NAK_PENDING. -/
  | fecUncorrectable
  /-- REPLAY_TIMEOUT (R316): The replay timer expires with the Reel not empty and a replay starts or the link enters
RECOVERY. -/
  | replayTimeout
  /-- STATUS_PERIOD (R315): 2 us after its last STATUS block a twin sends another. -/
  | statusPeriod
  /-- PARTNER_SILENT (R321): No lane signal from the partner for SILENT_TMO sets the Spindle witness PARTNER_GONE. -/
  | partnerSilent
  /-- MIRROR_RECORD (R337): A MIRROR packet is applied by the mirror Square as an ENTRY, RELEASE or MOVE record. -/
  | mirrorRecord (sq : Fin 32) (data : List Word)
  /-- FWD_REQ (R334): A misdirected request forwarded by the partner is served at its home Square as a request of the
same agent. -/
  | fwdReq (q : Msg)
  /-- FWD_RSP (R334): The response to a forwarded request returns and is delivered on the original port. -/
  | fwdRsp (q : Msg)
  /-- SNOOP (R162): A BISnp relayed by the partner is delivered to an agent's port UP only here. -/
  | snoop (q : Msg)
  /-- SNOOP_RSP (R310): A relayed BIRsp returns over the Spindle to the snooping twin. -/
  | snoopRsp (sq : Fin 32) (agent : Fin 65) (line : Nat) (shared : Bool)
  /-- LOOM_REQ (R256): A Loom read, update or write from the partner is served by this twin's Kiosk. -/
  | loomReq (q : Msg)
  /-- LOOM_RSP (R256): Data or acknowledgement of a remote Loom access returns to the requesting thread. -/
  | loomRsp (q : Msg)
  /-- PORT_STATE (R310): A PORT_STATE packet updates the map of agents with a port UP at the partner. -/
  | portState (map : Word)
  /-- PORT_STATE_PERIOD (R310): Every 1 ms, or on change, a twin sends its PORT_STATE packet. -/
  | portStatePeriod
  /-- SPINDLE_CTL_WRITE (R310): A CTL_WRITE packet from the partner enters command arbitration as a partner-twin
write. -/
  | spindleCtlWrite (addr : Nat) (data mask : Word)
  /-- DIR_COPY (R347): A DIR_COPY packet fills the receiving twin's mirror or primary array with copy records. -/
  | dirCopy (sq : Fin 32) (data : List Word)
  /-- COPY_COMPLETE (R347): Every Square has sent LAST for every array and COPY_DONE is set. -/
  | copyComplete
  /-- HEARTBEAT (R324): A valid Whorl heartbeat resets MISSED, updates partner state, claims and time offset, and
drives role transitions. -/
  | heartbeat (fault : Nat) (h : Heartbeat) (k27 : Nat := 0)
  /-- HEARTBEAT_SEND (R324): Twin 0 at each 10 us mark, or twin 1 after its trigger or fallback, sends a heartbeat. -/
  | heartbeatSend
  /-- HEARTBEAT_MISS (R325): 10 us without a valid heartbeat increments MISSED and may set the Whorl witness. -/
  | heartbeatMiss
  /-- WHORL_SYNC_LOSS (R322): Code or disparity errors lose Whorl character alignment and discard the frame in
progress. -/
  | whorlSyncLoss (inFrame : Bool)
  /-- FW_FRAME (R327): A valid FW frame fills TWN_WHL_FW_RX or is discarded as an overrun. -/
  | fwFrame (fault : Nat) (d0 d1 : Word)
  /-- FW_SEND (R327): TWN_WHL_FW_CTL.SEND queues a FW frame after the next heartbeat. -/
  | fwSend (path : Path)
  /-- WHORL_CLR_CNT (R329): TWN_WHL_CTL.CLR_CNT clears the Whorl counters. -/
  | whorlClrCnt (path : Path)
  /-- FORM_TIMEOUT (R332): All witnesses gone for FORM_TMO move a FORMING twin to ALONE. -/
  | formTimeout
  /-- SETTLE_WALK_DONE (R341): A Square's mirror-array walk after takeover ends and remaining table entries are
taken. -/
  | settleWalkDone (sq : Fin 32) (bad : List Nat)
  /-- GRACE_END (R344): GRACE after a takeover ends the silent discard of non-owner writebacks. -/
  | graceEnd
  /-- FENCE (R339): TWN_CTL.FENCE fences this twin. -/
  | fence (path : Path)
  /-- UNFENCE (R339): TWN_CTL.UNFENCE clears the fence while structure is DISABLED. -/
  | unfence (path : Path)
  /-- YIELD (R348): TWN_CTL.YIELD starts a yield of this twin's half to a SPLIT partner. -/
  | yield (path : Path)
  /-- HANDBACK (R348): TWN_CTL.HANDBACK makes a RECEIVING twin claim HANDBACK. -/
  | handback (path : Path)
  /-- TWN_CLR_CNT (R354): TWN_CTL.CLR_CNT clears the pair counters. -/
  | twnClrCnt (path : Path)
  /-- MOVE_DRAINED (R349): All 32 Squares report no tracker or ledger on moving lines and send the MOVE records. -/
  | moveDrained
  /-- MOVE_TIMEOUT (R349): MOVE_TMO expires before every Square drains and nothing moves. -/
  | moveTimeout
  /-- SCRUB_GO (R363): INT_SCRUB_CTL.GO starts a scrub of a memory range, or is refused. -/
  | scrubGo (path : Path) (mem : Fin 16) (inst : Fin 256)
  /-- SCRUB_ABORT (R363): INT_SCRUB_CTL.ABORT stops a scrub at the next word. -/
  | scrubAbort (path : Path)
  /-- SCRUB_WORD (R363): The scrub reads one code word and writes it back corrected or poisoned. -/
  | scrubWord (w : WordClass)
  /-- SCRUB_END (R364): A scrub ends, writes its summary record and raises SCRUB_DONE. -/
  | scrubEnd
  /-- MERGE_DRAIN (R359): A merge-buffer entry drains when full, needed, or 32 ns after its first write. -/
  | mergeDrain (mem inst n : Nat) (complete : Bool) (w : WordClass)
  /-- RETIRE_ADD (R366): A write to INT_RETIRE_ADD retires a Plaza bobbin. -/
  | retireAdd (path : Path) (bobbin : Nat)
  /-- WRITE_RAW (R367): The WRITE_RAW command stores a code word with its data and check bits as given. -/
  | writeRaw (path : Path)
  /-- READ_RAW (R367): The READ_RAW command loads a code word with its check bits into the test registers. -/
  | readRaw (path : Path)
  /-- RAW_ACCESS_DONE (R367): A raw test access completes and DONE is set. -/
  | rawAccessDone
  /-- EVQ_ENABLE (R370): Setting INT_EVQ_BASE.EN writes the held records to the firmware event queue. -/
  | evqEnable (path : Path)
  /-- EVQ_IRQ_TIMEOUT (R370): IRQ_US after the first waiting CE or DE record the management cores are interrupted. -/
  | evqIrqTimeout
  /-- INT_CLR_CNT (R374): INT_CTL.CLR_CNT clears the INT counters. -/
  | intClrCnt (path : Path)
  /-- POISON_COMMAND (R372): Get Poison List, Inject Poison and Clear Poison complete as unsupported. -/
  | poisonCommand (v : Fin 64) (op : Nat)
  /-- POWER_REQUEST (R377): A PWR_DOMd_CTL.REQ write starts a wake, a drain or a state change, or is refused. -/
  | powerRequest (path : Path) (d : Fin 87) (req : Fin 4)
  /-- WAKE_STEP_READY (R380): A wake step reports ready and the next step starts, or the domain becomes ON. -/
  | wakeStepReady (d : Fin 87)
  /-- WAKE_STEP_TIMEOUT (R381): A wake step's timer expires and the step is undone and retried, or the domain fails. -/
  | wakeStepTimeout (d : Fin 87)
  /-- WAKE_RETRY_WAIT_END (R381): The 10 us wait after an undone step ends and the step runs again. -/
  | wakeRetryWaitEnd (d : Fin 87)
  /-- SEQUENCER_WATCHDOG (R381): A domain stuck in WAKING beyond its bound is made FAILED with cause SEQUENCER. -/
  | sequencerWatchdog (d : Fin 87)
  /-- DRAIN_COMPLETE (R385): A DRAINING domain's drain count reaches 0 and it enters STOPPING. -/
  | drainComplete (d : Fin 87)
  /-- STOPPING_DONE (R385): STOPPING ends and the domain reaches OFF or RET, starting any pending wake. -/
  | stoppingDone (d : Fin 87)
  /-- DRAIN_TIMEOUT (R386): PWR_DRAIN_TMO expires and the domain returns to ON. -/
  | drainTimeout (d : Fin 87)
  /-- LOST_READY (R383): A rail below 90 % or a PLL unlocked for over 200 ns fails the domain and its dependants. -/
  | lostReady (d : Fin 87)
  /-- REFCLK_LOSS (R379): No REFCLK edge for 2 us switches AO to the oscillator and fails every PLL-clocked domain. -/
  | refclkLoss
  /-- REFCLK_RETURN (R379): REFCLK counted present again switches AO back and starts a warm reset. -/
  | refclkReturn (pin command : Bool)
  /-- THERMAL_SAMPLE (R391): The sensors are sampled every 10 us, updating TEMP and detecting trip or trip release. -/
  | thermalSample (temps : List Int) (sensor : Fin 32)
  /-- THROTTLE_STEP (R391): Every 100 us above or 1 ms below the throttle point, the throttle level rises or falls by
1. -/
  | throttleStep
  /-- LDO_SOFT_BROWNOUT (R390): A soft brown-out in low-power mode returns the AO LDO to normal mode. -/
  | ldoSoftBrownout
  /-- HARD_BROWNOUT (R390): The AO LDO output below 0.65 V for 50 ns cold-resets the whole part. -/
  | hardBrownout
  /-- PWR_CLR_CNT (R394): PWR_CTL.CLR_CNT clears WAKES. -/
  | pwrClrCnt (path : Path)
  /-- AVS_MARGIN_WRITE (R439): A PWR_AVS.MARGIN write starts an AVSBus write of the new VDD_CORE target, or is
refused. -/
  | avsMarginWrite (path : Path) (margin : BitVec 8)
  /-- AVS_WRITE_ACK (R439): The regulator acknowledges an AVSBus write and TARGET takes the new value. -/
  | avsWriteAck
  /-- AVS_WRITE_TIMEOUT (R439): An AVSBus write unanswered in 100 us is retried, or after three retries sets FAULT. -/
  | avsWriteTimeout
  /-- SLOT_POWER_REQ (R407): A write of SLP_CTL.POWER_REQ turns a slot channel on or starts its switch-off. -/
  | slotPowerReq (path : Path) (n : Fin 32) (on : Bool)
  /-- UNLATCH (R406): SLP_CTL.UNLATCH moves a LATCHED channel to RETRY_WAIT, or is refused. -/
  | unlatch (path : Path) (n : Fin 32)
  /-- SLOT_CLR_CNT (R411): SLP_CTL.CLR_CNT clears the channel counters. -/
  | slotClrCnt (path : Path) (n : Fin 32)
  /-- INSERT_DELAY_END (R398): The insertion delay runs out and, with no retry timer running, the channel enters
RAMP. -/
  | insertDelayEnd (n : Fin 32)
  /-- VIN_WINDOW_CROSSING (R398): VIN enters the window, or a crossing out of it persists 20 us, and the channel
changes state. -/
  | vinWindowCrossing (n : Fin 32) (vin : Nat)
  /-- FAST_TRIP (R402): VSENSE above 2.5 times ILIM pulls the gate down within 1 us and records a fault. -/
  | fastTrip (n : Fin 32) (x : Machine.Meas)
  /-- FAULT_TIMER_EXPIRY (R401): The fault timer reaches FAULT and the slow breaker switches the gate off. -/
  | faultTimerExpiry (n : Fin 32) (x : Machine.Meas)
  /-- RAMP_TIMEOUT (R403): A channel not ON within RAMP_TMO switches its gate off with cause RAMP. -/
  | rampTimeout (n : Fin 32) (x : Machine.Meas)
  /-- GATE_FULLY_ON (R404): VGS and VOUT reach the fully-on conditions and the channel enters ON. -/
  | gateFullyOn (n : Fin 32) (x : Machine.Meas)
  /-- PG_DEGLITCH_END (R404): The fully-on conditions held 10 ms assert power-good. -/
  | pgDeglitchEnd (n : Fin 32)
  /-- PG_CONDITIONS_LOST (R404): Fully-on conditions lost for 20 us deassert power-good while the channel stays ON. -/
  | pgConditionsLost (n : Fin 32) (x : Machine.Meas)
  /-- RETRY_TIMER_EXPIRY (R406): The slot retry timer runs out and a RETRY_WAIT channel ramps or waits for VIN. -/
  | retryTimerExpiry (n : Fin 32)
  /-- GATE_OFF_DELAY_END (R407): 100 us after power-good dropped for a power-off request, the gate is switched off. -/
  | gateOffDelayEnd (n : Fin 32)
  /-- GLB_RESET_WARM (R413): GLB_RESET_CTL.WARM with KEY 0xA5 from an allowed source starts a warm reset 10 us later. -/
  | glbResetWarm (path : Path) (key : BitVec 8)
  /-- FIRMWARE_COPY_DONE (R416): The ROM finishes reading and verifying a Fichesyn copy and accepts it or tries the
other. -/
  | firmwareCopyDone (image : Image)
  /-- RECOVERY_WRITE (R417): The ROM mailbox command that writes 240 B of an image into SRAM. -/
  | recoveryWrite
  /-- RECOVERY_BOOT (R417): The ROM mailbox command that verifies the SRAM image and jumps to it. -/
  | recoveryBoot
  /-- KICK (R419): FWM_WDOG.KICK from the owning core restarts its watchdog. -/
  | kick (path : Path) (c : Fin 4)
  /-- WATCHDOG_EXPIRY (R419): A core watchdog expires, raising an NMI the first time and resetting the management
complex the second. -/
  | watchdogExpiry (c : Fin 4)
  /-- CORE_RESET (R412): FWM_CORE_CTL.RESET written by another core restarts one management core at the firmware
entry point. -/
  | coreReset (path : Path) (c : Fin 4)
  /-- GET_VERSION (R420): Mailbox command returning firmware and image build IDs and SVN. -/
  | getVersion (x : Fin 2)
  /-- GET_STATE (R420): Mailbox command returning structure, role and domain summary. -/
  | getState (x : Fin 2)
  /-- SET_LINK_POLICY (R420): Mailbox command carrying target rates, L1 use and retrain policy. -/
  | setLinkPolicy (x : Fin 2) (status : Nat)
  /-- SET_POWER_POLICY (R420): Mailbox command carrying domain sleep rules and AO LDO mode. -/
  | setPowerPolicy (x : Fin 2) (status : Nat)
  /-- SET_SCRUB_SCHEDULE (R420): Mailbox command carrying periodic scrub memory, range and rate. -/
  | setScrubSchedule (x : Fin 2) (status : Nat)
  /-- TM_PROGRAM (R420): Mailbox command carrying queue, shaper and gate settings in bulk. -/
  | tmProgram (x : Fin 2) (status : Nat) (writes : List (Nat × Word × Word))
  /-- SET_FAILOVER_POLICY (R420): Mailbox command carrying port moves and handback after a takeover. -/
  | setFailoverPolicy (x : Fin 2) (status : Nat)
  /-- FLASH_UPDATE (R420): Mailbox command writing a staged image to a flash copy. -/
  | flashUpdate (x : Fin 2) (status : Nat)
  /-- MB_WARM_RESET (R420): Mailbox WARM_RESET command requesting GLB_RESET_CTL.WARM under R413. -/
  | mbWarmReset (x : Fin 2)
  /-- MAILBOX_UNKNOWN_OPCODE (R420): A mailbox command with an undefined opcode completes with IMG_LIMIT. -/
  | mailboxUnknownOpcode (x : Fin 2)
  /-- MAILBOX_TIMEOUT (R420): Firmware not answering within FWM_MB_TMO completes the command with IMG_BUSY. -/
  | mailboxTimeout (x : Fin 2)
  /-- IDENTIFY_SWITCH_DEVICE (R422): FM API command identifying the switch device. -/
  | identifySwitchDevice (path : Path)
  /-- GET_PHYSICAL_PORT_STATE (R422): FM API command returning the state of ports 0-127 mapped to CXL link states. -/
  | getPhysicalPortState (path : Path) (ports : List Nat)
  /-- ASSERT_PERST (R422): Physical Port Control assert PERST sets OCT_SLOT_CTL.PERST_FORCE. -/
  | assertPerst (path : Path) (p : Fin 128)
  /-- DEASSERT_PERST (R422): Physical Port Control deassert PERST clears OCT_SLOT_CTL.PERST_FORCE. -/
  | deassertPerst (path : Path) (p : Fin 128)
  /-- RESET_PPB (R422): Physical Port Control Reset PPB writes RETRAIN. -/
  | resetPpb (path : Path) (p : Fin 128)
  /-- SEND_PPB_CXL_IO_CONFIG_REQUEST (R422): FM API command sending a CXL.io configuration request to a PPB. -/
  | sendPpbCxlIoConfigRequest (path : Path) (p : Fin 128) (write : Bool)
  /-- GET_VIRTUAL_CXL_SWITCH_INFO (R422): FM API command returning VCS information as built by the image. -/
  | getVirtualCxlSwitchInfo (path : Path) (v : Fin 64)
  /-- BIND_VPPB (R62): FM API Bind vPPB is refused because binding is structural. -/
  | bindVppb (path : Path)
  /-- UNBIND_VPPB (R62): FM API Unbind vPPB is refused because binding is structural. -/
  | unbindVppb (path : Path)
  /-- TUNNEL_MANAGEMENT_COMMAND (R422): FM API command tunnelled to a fabric memory port or unbound LD. -/
  | tunnelManagementCommand (path : Path) (p : Fin 128) (ld : Nat) (data : List Word)
  /-- SEND_LD_CXL_IO_CONFIG_REQUEST (R422): FM API command sending a configuration request to an LD. -/
  | sendLdCxlIoConfigRequest (path : Path) (p : Fin 128) (ld addr : Nat) (data : Option Word)
  /-- SEND_LD_CXL_IO_MEMORY_REQUEST (R422): FM API command sending a memory request to an LD. -/
  | sendLdCxlIoMemoryRequest (path : Path) (p : Fin 128) (ld addr : Nat) (write : Bool) (data : List Word)
  /-- GET_LD_INFO (R422): FM API command returning LD information. -/
  | getLdInfo (path : Path) (p : Fin 128)
  /-- GET_LD_ALLOCATIONS (R422): FM API command returning LD allocations. -/
  | getLdAllocations (path : Path) (p : Fin 128)
  /-- SET_LD_ALLOCATIONS (R422): FM API Set LD Allocations is refused because binding is structural. -/
  | setLdAllocations (path : Path)
  /-- QOS_CONTROL (R422): FM API QoS control commands are refused. -/
  | qosControl (path : Path)
  /-- GET_MULTI_HEADED_INFO (R422): FM API command returning multi-headed device information. -/
  | getMultiHeadedInfo (path : Path) (p : Fin 128)
  /-- GET_HEAD_INFO (R422): FM API command returning head information. -/
  | getHeadInfo (path : Path) (p : Fin 128)
  /-- INITIATE_DYNAMIC_CAPACITY_ADD (R70): FM API dynamic capacity add passed unchanged, refused for fabric memory
ports. -/
  | initiateDynamicCapacityAdd (path : Path) (p : Fin 128) (ld : Nat) (data : List Word)
  /-- INITIATE_DYNAMIC_CAPACITY_RELEASE (R70): FM API dynamic capacity release passed unchanged, refused for fabric
memory ports. -/
  | initiateDynamicCapacityRelease (path : Path) (p : Fin 128) (ld : Nat) (data : List Word)
  /-- GET_EVENT_RECORDS (R422): FM API command returning event records as vendor-defined records. -/
  | getEventRecords (path : Path) (log : Option (Nat × Nat))
  /-- CLEAR_EVENT_RECORDS (R422): FM API command clearing event records. -/
  | clearEventRecords (path : Path) (log : Option (Nat × Nat)) (n : Nat)
  /-- SET_EVENT_INTERRUPT_POLICY (R422): FM API command setting the event interrupt policy. -/
  | setEventInterruptPolicy (path : Path) (policy : Nat)
  /-- CTL_READ (R422): FM API vendor command reading up to 32 consecutive control-space registers. -/
  | ctlRead (path : Path) (addr n : Nat)
  /-- CTL_WRITE (R422): FM API vendor command writing one register under a 64-bit mask through arbitration. -/
  | ctlWrite (path : Path) (addr : Nat) (data mask : Word)
  /-- STAGE_WRITE (R422): FM API vendor command writing up to 1 KiB into the staging memory. -/
  | stageWrite (path : Path) (addr : Nat) (data : List Word)
  /-- FM_UNSUPPORTED_COMMAND (R422): Any other FM API command is refused with the Unsupported return code. -/
  | fmUnsupportedCommand (path : Path)
  /-- MCTP_CONTROL (R421): An MCTP control command, including EID assignment, is served by the management endpoint. -/
  | mctpControl (command arg : Nat)
  /-- SPDM_GET_VERSION (R423): SPDM GET_VERSION request answered by the responder. -/
  | spdmGetVersion (c : Fin 193)
  /-- SPDM_GET_CAPABILITIES (R423): SPDM GET_CAPABILITIES request answered by the responder. -/
  | spdmGetCapabilities (c : Fin 193)
  /-- SPDM_NEGOTIATE_ALGORITHMS (R423): SPDM NEGOTIATE_ALGORITHMS request answered by the responder. -/
  | spdmNegotiateAlgorithms (c : Fin 193)
  /-- SPDM_GET_DIGESTS (R423): SPDM GET_DIGESTS request answered by the responder. -/
  | spdmGetDigests (c : Fin 193)
  /-- SPDM_GET_CERTIFICATE (R423): SPDM GET_CERTIFICATE request returning a certificate slot. -/
  | spdmGetCertificate (c : Fin 193) (slot offset n : Nat)
  /-- SPDM_CHALLENGE (R423): SPDM CHALLENGE request answered with a signed response. -/
  | spdmChallenge (c : Fin 193) (slot : Nat)
  /-- SPDM_GET_MEASUREMENTS (R423): SPDM GET_MEASUREMENTS request returning measurement indices 1-5. -/
  | spdmGetMeasurements (c : Fin 193) (index : Nat) (sign : Bool)
  /-- SPDM_KEY_EXCHANGE (R423): SPDM KEY_EXCHANGE request starting a secured session. -/
  | spdmKeyExchange (c : Fin 193) (request : Fin 65536)
  /-- SPDM_FINISH (R423): SPDM FINISH request completing a session handshake. -/
  | spdmFinish (c : Fin 193) (session : Nat) (ok : Bool)
  /-- SPDM_HEARTBEAT (R423): SPDM HEARTBEAT request keeping a session alive. -/
  | spdmHeartbeat (c : Fin 193) (session : Nat)
  /-- SPDM_KEY_UPDATE (R423): SPDM KEY_UPDATE request updating session keys. -/
  | spdmKeyUpdate (c : Fin 193) (session op tag : Nat)
  /-- SPDM_END_SESSION (R423): SPDM END_SESSION request ending a session. -/
  | spdmEndSession (c : Fin 193) (session : Nat)
  /-- PMU_CLR_ALL (R435): PMU_CTL.CLR_ALL clears every counter and overflow bit. -/
  | pmuClrAll (path : Path)
  /-- CENSUS_TICK (R430): At each Census tick the selected banks are latched and their records written, or the tick
is skipped. -/
  | censusTick
  /-- COUNTER_PAGE_READ (R429): A read of a slice's counter page returns an owned bank counter or 0. -/
  | counterPageRead (v : Fin 64) (sl : Fin 256) (offset : Fin 4096)
  /-- TEST_GO (R431): TST_CMD.GO starts an LBIST or MBIST run on a domain, or is refused. -/
  | testGo (path : Path) (kind : Bool) (domain : Fin 128) (patterns : BitVec 16)
  /-- TEST_ABORT (R431): TST_CMD.ABORT ends a running test as ABORTED. -/
  | testAbort (path : Path)
  /-- TEST_COMPLETE (R431): A self-test finishes and RESULT is PASS or FAIL. -/
  | testComplete (misr : Word) (failing : Nat)
  /-- TEST_TIMEOUT (R431): A test running over 1 s ends as ABORTED. -/
  | testTimeout
  /-- CHAL_REQ (R432): DBG_UNLOCK.CHAL_REQ loads a fresh random challenge into DBG_CHAL. -/
  | chalReq (path : Path)
  /-- GRANT (R432): DBG_UNLOCK.GRANT from firmware unlocks the debug master. -/
  | grant (path : Path)
  /-- RELOCK (R432): DBG_UNLOCK.RELOCK clears the debug unlock. -/
  | relock (path : Path)
  /-- TRACE_DATA_READ (R433): A read of DBG_TRACE_DATA3 returns the last word of a trace record and advances IDX. -/
  | traceDataRead (path : Path)
  /-- CMD_CONFLICT_CLEAR (R425): Writing 1 to GLB_CMD_CONFLICT.VALID clears the record and COUNT. -/
  | cmdConflictClear (path : Path)
  /-- PATH_CNT_CLR (R460): GLB_PATH_CNT.CLR clears COUNT and re-arms PATH_REFUSED. -/
  | pathCntClr (path : Path)
  /-- PORST_RELEASE (R414): Release of PORST_N samples TWIN_ID, starts the time base from 0 and starts the start-up
sequence and the heartbeats. -/
  | porstRelease (twinId refclk : Bool)
  /-- WHORL_CHARACTER_ALIGNMENT (R322): The Whorl receiver takes character alignment after 3 consecutive K28.5 at one
alignment, moving STATE from NO_SYNC to SYNC. -/
  | whorlCharacterAlignment
  /-- LANE_SIGNAL_LOST (R320): A Spindle receive lane that loses signal or codeword lock fails, which leads to a
spare swap, width 16 or RECOVERY. -/
  | laneSignalLost (lane : Fin 34) (signal : Bool)
  /-- LANE_SIGNAL_DETECTED (R321): Signal from the partner detected again on a Spindle lane clears PARTNER_GONE and
the Spindle witness. -/
  | laneSignalDetected (lane : Fin 34)
  /-- LINK_CREDIT_RETURN (R88): A CXL link-layer credit returned by a port's link partner lets an output stage serve
a class that was skipped for lack of credit. -/
  | linkCreditReturn (p : Fin 128) (c : Fin 8) (n : Nat)
  /-- IDE_KM_MESSAGE (R76): An IDE_KM message over the SPDM session on a port's DOE mailbox programs keys or switches
the key set, moving IDE state to keys pending or starting a refresh. -/
  | ideKmMessage (p : Fin 128) (k : IdeKm)
  deriving DecidableEq, Repr

end Sys2Proof
end

