-- ==== Sys2Proof/Config.lean ====
section
/-!
DEFINITION. What the spec leaves open: values without a body, so that nothing can evaluate them or prove a value of
them. Each is named in the assumption log (notes/assumptions/2.md, 3.md).
-/
namespace Sys2Proof

/-- The n-th value the spec leaves open: a step that needs one reads the counter `freeCtr` of the state, applies this
to it and advances the counter (notes/assumptions/2.md). -/
opaque Config.freeValue : Nat → Nat

/-- SHA-384 of a sequence of bytes (FIPS 180, named by Table 0.2 and not restated by the spec). -/
opaque Config.sha384 : List Nat → Nat

/-- Whether an ECDSA P-384 signature (r, s) over a SHA-384 hash verifies under a public key given as its bytes
(FIPS 186-5, named by Table 0.2). -/
opaque Config.ecdsaVerify (key : List Nat) (r s hash : Nat) : Bool

/-- The golden MISR value that the ROM holds for a domain, a kind and a pattern count (R431). -/
opaque Config.golden (domain kind patterns : Nat) : Nat

/-- Where a run-ahead prediction lies in the predictor (R268): index in bits 11:0 and tag in bits 31:12, for a table, a
level and the key bits that the levels before it consume. The spec names what they are computed from and no function. -/
opaque Config.predictorHash (table level key : Nat) : Nat

/-- The CXL link state that Get Physical Port State reports for a state of Table 3.3: R422 says that the states are
mapped and gives no map. -/
opaque Config.linkState : Nat → Nat

/-- The bytes of a certificate chain by slot and minimum firmware SVN (R423): its content is the device's own. -/
opaque Config.certChain (slot svn : Nat) : List Nat

/-- The measurement of the ROM (R423). -/
opaque Config.romMeasurement : Nat

/-- Kotuom's vendor ID (R53, Table 9.1), whose value the spec does not give. -/
opaque Config.vendorId : Nat

/-- The maximum payload size of a port (R106), as a power of two above 128 bytes, modulo 6: the six sizes of the PCIe base
specification. -/
opaque Config.maxPayload (port : Nat) : Nat

/-- The check bits of a directory entry's code word (R120, R356): the spec states the properties of the code and not its
columns. -/
opaque Config.dirCheck (bits : Nat) (pm : Bool) (square set way : Nat) : Nat

/-- The requests that a Square's input holds per class, less one (R14, R130). -/
opaque Config.sqSlots : Nat

/-- Word `i` of a message's header as a flit carries it (R106): the layout is CXL's and PCIe's. -/
opaque Config.msgHeader (op addr tag agent i : Nat) : Nat

end Sys2Proof
end

