-- ==== Sys2Proof/Machine/RegKinds.lean ====
section
/-!
DEFINITION. The registers of the 64 MiB control space (19_control_space_map.md, Table 19.3): one name per register,
or per array of like registers. An instance is a name and a linear index.
-/
namespace Sys2Proof.Machine

/-- The blocks of Table 19.1. -/
inductive Blk where
  | GLB | MLD | PWR | SLP | TWN | PMU | TST | DBG | FWM | OCT | XB | SQ | KSK | KRB | TM | RNG | LM | FLW | INT | TEN
  deriving DecidableEq, Repr

/-- Every register of Table 19.3, arrays counted once. -/
inductive RegKind where
  -- GLB: 01 R23, 02 R45, 17 R435, 19 R460
  | GLB_ID | GLB_CAP0 | GLB_CAP1 | GLB_LIFECYCLE | GLB_STRUCT_CTL | GLB_STRUCT_STATUS | GLB_STRUCT_DETAIL 
  | GLB_STRUCT_ADDR | GLB_RESET_CTL | GLB_ARB_CFG | GLB_CMD_CONFLICT | GLB_CMD_CONFLICT_ADDR 
  | GLB_CMD_CONFLICT_DATA | GLB_CMD_CONFLICT_MASK | GLB_CMD_CONFLICT_TIME | GLB_PATH_CNT 
  -- MLD: 02 R45
  | MLD_CTL | MLD_STATUS | MLD_SVN | MLD_BUILD_ID | MLD_SVN_MIN | MLD_STAGE_ADDR | MLD_STAGE_DATA | MLD_DIGEST 
  -- PWR: 15 R394, 18 R439
  | PWR_CTL | PWR_WAKE_TMO | PWR_WAKE_TMO2 | PWR_DRAIN_TMO | PWR_THERM_CTL | PWR_THERM_STATUS | PWR_AO_LDO 
  | PWR_CLK_STATUS | PWR_RESET_CAUSE | PWR_AVS | PWR_DOM_CTL | PWR_DOM_STATUS 
  -- SLP: 16 R411
  | SLP_CFG | SLP_CTL | SLP_VWIN | SLP_LIM | SLP_TMR | SLP_STATUS | SLP_MEAS | SLP_CNT | SLP_FAULT_TIME 
  -- TWN: 12 R329, 13 R354
  | TWN_ROLE | TWN_CTL | TWN_SETTLE | TWN_COPY | TWN_TAKEOVER_TIME | TWN_BLIND | TWN_MIRROR | TWN_CNT | TWN_CFG 
  | TWN_SPN_CTL | TWN_SPN_STATUS | TWN_SPN_FAIL | TWN_SPN_TXSEQ | TWN_SPN_RXSEQ | TWN_SPN_SPARE_THRESH 
  | TWN_SPN_VCBUF | TWN_SPN_CRED | TWN_SPN_RCRED | TWN_SPN_CNT | TWN_SPN_LANE | TWN_WHL_STATUS | TWN_WHL_CTL 
  | TWN_WHL_PARTNER | TWN_WHL_DIGEST | TWN_WHL_TOFF | TWN_WHL_FW_TX | TWN_WHL_FW_CTL | TWN_WHL_FW_RX 
  | TWN_WHL_CNT 
  -- PMU: 17 R435
  | PMU_CTL | PMU_CENSUS_CTL | PMU_CENSUS_MASK | PMU_CENSUS_BASE | PMU_CENSUS_SIZE | PMU_CENSUS_STATUS 
  | PMU_BANK_CFG | PMU_BANK_OVF | PMU_FLT | PMU_FLT_BASE | PMU_FLT_LIMIT | PMU_CFG | PMU_CNT 
  -- TST: 17 R435
  | TST_CMD | TST_STATUS | TST_MISR | TST_EXPECT 
  -- DBG: 17 R435
  | DBG_UNLOCK | DBG_CHAL | DBG_TRACE_CTL | DBG_TRACE_LO | DBG_TRACE_HI | DBG_TRACE_STATUS | DBG_TRACE_IDX 
  | DBG_TRACE_DATA 
  -- FWM: 17 R435
  | FWM_BOOT_STATUS | FWM_BOOT_CTL | FWM_SVN | FWM_VERSION | FWM_WDOG | FWM_CORE_CTL | FWM_MB_TMO | FWM_SPI_ADDR 
  | FWM_SPI_DATA | FWM_SPI_CMD | FWM_MB_CTL | FWM_MB_REQ | FWM_MB_RSP 
  -- OCT: 03 R80, 06 R168
  | OCT_STATUS | OCT_SLOT_CTL | OCT_PORT_CFG | OCT_PORT_CTL | OCT_PORT_STATUS | OCT_PORT_TRAIN | OCT_PORT_IDE 
  | OCT_PORT_CNT0 | OCT_PORT_CNT1 | OCT_PBR_ID | OCT_EDGE_MAP | OCT_CRN_STATUS | OCT_CRN_CTL | OCT_CRN_CNT_FWD 
  | OCT_CRN_CNT_XFER | OCT_CRN_CNT_RETURN | OCT_CRN_CNT_BOUNCE | OCT_CRN_CNT_ABSORBED 
  -- XB: 04 R112
  | XB_STATUS | XB_PLANE_STATUS | XB_PLANE_CTL | XB_CTL | XB_BUF_STATUS | XB_CLASS_CFG | XB_EXPRESS | XB_QSEL 
  | XB_QSTAT | XB_MIR_CFG | XB_MIR_WIN_BASE | XB_MIR_WIN_LIMIT | XB_MIR_DEST | XB_MIR_LIMIT | XB_MIR_CNT 
  | XB_CNT 
  -- SQ: 05 R141-R142, 06 R168
  | SQ_STATUS | SQ_CTL | SQ_TMO | SQ_RETRY_CTL | SQ_EVICT_CTL | SQ_OCC | SQ_EVICT_STAT | SQ_CNT | SQ_PROBE_ADDR 
  | SQ_PROBE_RESULT | SQ_PROBE_SHARERS | SQ_ORD_STATUS | SQ_PURGE_MASK | SQ_PURGE_STATUS | SQ_HOME_SEL 
  | SQ_CD_CFG | SQ_CD_AGENTS | SQ_FMD_BASE | SQ_FMD_SIZE | SQ_FMD_CTL | SQ_FMD_TGT0 | SQ_FMD_TGT1 
  | SQ_RANGE_BASE | SQ_RANGE_CFG 
  -- KSK: 10 R279
  | KSK_CTL | KSK_STATUS | KSK_BANK_STATUS | KSK_BANK_CTL | KSK_OCC | KSK_CNT 
  -- KRB: 11 R302
  | KRB_WIN | KRB_CWIN | KRB_FENCE_CTL | KRB_FENCE_STATUS | KRB_FENCE_ADDR | KRB_FENCE_PROG | KRB_FENCE_CNT 
  | KRB_CTL | KRB_HOST_SLICE | KRB_CNT 
  -- TM: 07 R195, 08 R220
  | TM_CTL | TM_STATUS | TM_CARVE | TM_SPILL_BASE | TM_SPILL_CTL | TM_SPILL_STATUS | TM_QSEL | TM_QPROBE 
  | TM_CMD | TM_CMD_STATUS | TM_CNT | TM_SRING_CTL | TM_SRING_RET | TM_SRING_STATUS | TM_SRING_BOBBINS 
  | TM_SRING_CNT | TM_CHAN_EGR | TM_CHAN_EGR1 | TM_WRED | TM_WRED1 | TM_MPROF | TM_MPROF1 | TM_MPROF2 | TM_RXB 
  | TM_RXB1 | TM_QCFG | TM_QPOL | TM_QOCC | TM_QSTAT | TM_GRP | TM_GRP_MEM | TM_QSCH | TM_QSCH_ST | TM_BND_CFG 
  | TM_BND_SHA | TM_BND_SHB | TM_BND_ST | TM_CH_CFG | TM_CH_SHA | TM_CH_SHB | TM_CH_LINE | TM_CH_ST | TM_CH_PKTS 
  | TM_CH_BYTES | TM_PORT_CFG | TM_PORT_SHA | TM_PORT_SHB | TM_PORT_ST | TM_SPROF_A | TM_SPROF_B | TM_GATE_CTL 
  | TM_GATE_A | TM_GATE_B | TM_GATE_ST | TM_GATE_CNT | TM_GATE_SWT | TM_GCL_SEL | TM_GCL_DATA | TB_TIME_NS 
  | TB_TIME_SEC | TB_TIME64 | TB_CTL | TB_ADDEND | TB_PPS_CFG | TB_PPS_CAP | TB_STATUS | TB_TOD | TB_TOD_CTL 
  | TB_STEP | TB_CNT 
  -- RNG: 09 R251
  | RNG_CFG | RNG_IOVA | RNG_CTL | RNG_IRQ | RNG_IDX | RNG_STATUS | RNG_PROG | RNG_CNT 
  -- LM: 10 R279
  | LM_CTL | LM_STATUS | LM_TMO | LM_CL_CTL | LM_CL_STATUS | LM_CNT | LM_TBL_CFG | LM_TBL_BASE | LM_TBL_SIZE 
  | LM_TBL_PARAM 
  -- FLW: 07 Table 7.4
  | FLW_W0 | FLW_W1 
  -- INT: 14 R374
  | INT_CTL | INT_EVQ_BASE | INT_EVQ_IDX | INT_EVQ_IRQ | INT_EVQ_CNT | INT_FE_LOG | INT_SCRUB_CTL 
  | INT_SCRUB_START | INT_SCRUB_END | INT_SCRUB_STATUS | INT_SCRUB_SUM | INT_TEST_SEL | INT_TEST_CTL 
  | INT_TEST_META | INT_TEST_CHECK | INT_TEST_DATA | INT_RETIRE_STATUS | INT_RETIRE_ADD | INT_REPAIR_STATUS 
  | INT_FAULTY | INT_LEAKED | INT_CNT_CE | INT_CNT_POISON | INT_CNT_UE | INT_CNT_PIN | INT_SLICE_EVR 
  -- TEN: 11 R302
  | TEN_STATUS | TEN_CTL | TEN_VIOL | TEN_VIOL_ADDR | TEN_VIOL_TIME | TEN_VIOL_COUNT | TEN_OBJ_SEL 
  | TEN_OBJ_STATUS | TEN_OBJ_DATA 
  deriving DecidableEq, Repr

/-- The access types of Table 0.3 (R7). -/
inductive Acc where
  | RW | RO | RW1C | RW1S | WO | RWS | RWL
  deriving DecidableEq, Repr

/-- One field of a register: its place, its access type, its reset value, and where the spec gives one the range a
write must keep to (signed when the lower bound is negative). -/
structure FieldDesc where
  lo : Nat
  width : Nat
  acc : Acc
  reset : Nat
  range : Option (Int × Int)
  deriving DecidableEq, Repr

/-- One register or register array: its block, the byte address of instance 0 in the control space, its index levels
as (count, stride) with the outermost first, and its fields. -/
structure RegDesc where
  blk : Blk
  addr : Nat
  levels : List (Nat × Nat)
  fields : List FieldDesc
  deriving DecidableEq, Repr

end Sys2Proof.Machine
end

