-- ==== Sys2Proof/Machine/RegFields.lean ====
section
/-!
DEFINITION. The fields of the registers by the spec's names, REGISTER_FIELD. An array's field takes its linear index:
the port for OCT_PORT registers, the outer index times the inner count plus the inner index for arrays of arrays.
-/
namespace Sys2Proof.Machine

/-- A field of one register instance: the register, its index, the lowest bit and the width. -/
structure RF where
  k : RegKind
  i : Nat
  lo : Nat
  w : Nat
  deriving DecidableEq, Repr

abbrev GLB_ID_PART : RF := ⟨.GLB_ID, 0, 0, 16⟩
abbrev GLB_ID_STEPPING : RF := ⟨.GLB_ID, 0, 16, 8⟩
abbrev GLB_ID_GRADE : RF := ⟨.GLB_ID, 0, 24, 8⟩
abbrev GLB_ID_TWIN_ID : RF := ⟨.GLB_ID, 0, 32, 1⟩
abbrev GLB_CAP0_CAP : RF := ⟨.GLB_CAP0, 0, 0, 64⟩
abbrev GLB_CAP1_CAP : RF := ⟨.GLB_CAP1, 0, 0, 64⟩
abbrev GLB_LIFECYCLE_STATE : RF := ⟨.GLB_LIFECYCLE, 0, 0, 1⟩
abbrev GLB_LIFECYCLE_DEBUG_UNLOCKED : RF := ⟨.GLB_LIFECYCLE, 0, 1, 1⟩
abbrev GLB_STRUCT_CTL_ENABLE : RF := ⟨.GLB_STRUCT_CTL, 0, 0, 1⟩
abbrev GLB_STRUCT_CTL_CHECK : RF := ⟨.GLB_STRUCT_CTL, 0, 1, 1⟩
abbrev GLB_STRUCT_STATUS_STATE : RF := ⟨.GLB_STRUCT_STATUS, 0, 0, 3⟩
abbrev GLB_STRUCT_STATUS_MODIFIED : RF := ⟨.GLB_STRUCT_STATUS, 0, 3, 1⟩
abbrev GLB_STRUCT_STATUS_DRY_OK : RF := ⟨.GLB_STRUCT_STATUS, 0, 4, 1⟩
abbrev GLB_STRUCT_STATUS_REFUSALS : RF := ⟨.GLB_STRUCT_STATUS, 0, 8, 8⟩
abbrev GLB_STRUCT_STATUS_REASON : RF := ⟨.GLB_STRUCT_STATUS, 0, 16, 16⟩
abbrev GLB_STRUCT_STATUS_SECTION : RF := ⟨.GLB_STRUCT_STATUS, 0, 32, 8⟩
abbrev GLB_STRUCT_STATUS_ITEM : RF := ⟨.GLB_STRUCT_STATUS, 0, 40, 16⟩
abbrev GLB_STRUCT_STATUS_PHASE : RF := ⟨.GLB_STRUCT_STATUS, 0, 56, 8⟩
abbrev GLB_STRUCT_DETAIL_VALUE : RF := ⟨.GLB_STRUCT_DETAIL, 0, 0, 16⟩
abbrev GLB_STRUCT_DETAIL_OTHER_ITEM : RF := ⟨.GLB_STRUCT_DETAIL, 0, 16, 16⟩
abbrev GLB_STRUCT_ADDR_ADDR : RF := ⟨.GLB_STRUCT_ADDR, 0, 0, 52⟩
abbrev GLB_RESET_CTL_WARM : RF := ⟨.GLB_RESET_CTL, 0, 0, 1⟩
abbrev GLB_RESET_CTL_KEY : RF := ⟨.GLB_RESET_CTL, 0, 8, 8⟩
abbrev GLB_ARB_CFG_FM_VCS : RF := ⟨.GLB_ARB_CFG, 0, 0, 64⟩
abbrev GLB_CMD_CONFLICT_VALID : RF := ⟨.GLB_CMD_CONFLICT, 0, 0, 1⟩
abbrev GLB_CMD_CONFLICT_WINNER : RF := ⟨.GLB_CMD_CONFLICT, 0, 1, 3⟩
abbrev GLB_CMD_CONFLICT_LOSER : RF := ⟨.GLB_CMD_CONFLICT, 0, 4, 3⟩
abbrev GLB_CMD_CONFLICT_LOSER_VCS : RF := ⟨.GLB_CMD_CONFLICT, 0, 8, 8⟩
abbrev GLB_CMD_CONFLICT_COUNT : RF := ⟨.GLB_CMD_CONFLICT, 0, 16, 16⟩
abbrev GLB_CMD_CONFLICT_ADDR_ADDR : RF := ⟨.GLB_CMD_CONFLICT_ADDR, 0, 0, 26⟩
abbrev GLB_CMD_CONFLICT_DATA_DATA : RF := ⟨.GLB_CMD_CONFLICT_DATA, 0, 0, 64⟩
abbrev GLB_CMD_CONFLICT_MASK_MASK : RF := ⟨.GLB_CMD_CONFLICT_MASK, 0, 0, 64⟩
abbrev GLB_CMD_CONFLICT_TIME_TIME64 : RF := ⟨.GLB_CMD_CONFLICT_TIME, 0, 0, 64⟩
abbrev GLB_PATH_CNT_COUNT : RF := ⟨.GLB_PATH_CNT, 0, 0, 32⟩
abbrev GLB_PATH_CNT_SOURCE : RF := ⟨.GLB_PATH_CNT, 0, 32, 3⟩
abbrev GLB_PATH_CNT_CAUSE : RF := ⟨.GLB_PATH_CNT, 0, 35, 2⟩
abbrev GLB_PATH_CNT_CLR : RF := ⟨.GLB_PATH_CNT, 0, 37, 1⟩
abbrev GLB_PATH_CNT_ADDR : RF := ⟨.GLB_PATH_CNT, 0, 38, 26⟩
abbrev MLD_CTL_CMD : RF := ⟨.MLD_CTL, 0, 0, 4⟩
abbrev MLD_CTL_AUTO_REAPPLY : RF := ⟨.MLD_CTL, 0, 8, 1⟩
abbrev MLD_CTL_PREFER_B : RF := ⟨.MLD_CTL, 0, 9, 1⟩
abbrev MLD_STATUS_STATE : RF := ⟨.MLD_STATUS, 0, 0, 2⟩
abbrev MLD_STATUS_POLICY_ONLY : RF := ⟨.MLD_STATUS, 0, 2, 1⟩
abbrev MLD_STATUS_PARTIAL : RF := ⟨.MLD_STATUS, 0, 3, 1⟩
abbrev MLD_STATUS_SECTION : RF := ⟨.MLD_STATUS, 0, 8, 8⟩
abbrev MLD_STATUS_REASON : RF := ⟨.MLD_STATUS, 0, 16, 16⟩
abbrev MLD_STATUS_ITEM : RF := ⟨.MLD_STATUS, 0, 32, 16⟩
abbrev MLD_SVN_SVN : RF := ⟨.MLD_SVN, 0, 0, 32⟩
abbrev MLD_BUILD_ID_BUILD_ID : RF := ⟨.MLD_BUILD_ID, 0, 0, 64⟩
abbrev MLD_SVN_MIN_SVN_MIN : RF := ⟨.MLD_SVN_MIN, 0, 0, 32⟩
abbrev MLD_STAGE_ADDR_ADDR : RF := ⟨.MLD_STAGE_ADDR, 0, 3, 19⟩
abbrev MLD_STAGE_DATA_DATA : RF := ⟨.MLD_STAGE_DATA, 0, 0, 64⟩
abbrev MLD_DIGEST_DIGEST (i : Nat) : RF := ⟨.MLD_DIGEST, i, 0, 64⟩
abbrev PWR_CTL_CLR_CNT : RF := ⟨.PWR_CTL, 0, 0, 1⟩
abbrev PWR_WAKE_TMO_REG_TMO : RF := ⟨.PWR_WAKE_TMO, 0, 0, 10⟩
abbrev PWR_WAKE_TMO_PLL_TMO : RF := ⟨.PWR_WAKE_TMO, 0, 16, 10⟩
abbrev PWR_WAKE_TMO_MEM_TMO : RF := ⟨.PWR_WAKE_TMO, 0, 32, 9⟩
abbrev PWR_WAKE_TMO_ISO_TMO : RF := ⟨.PWR_WAKE_TMO, 0, 48, 4⟩
abbrev PWR_WAKE_TMO2_PLZ_TMO : RF := ⟨.PWR_WAKE_TMO2, 0, 0, 10⟩
abbrev PWR_DRAIN_TMO_TMO : RF := ⟨.PWR_DRAIN_TMO, 0, 0, 17⟩
abbrev PWR_THERM_CTL_SOFT_C : RF := ⟨.PWR_THERM_CTL, 0, 0, 8⟩
abbrev PWR_THERM_STATUS_TEMP : RF := ⟨.PWR_THERM_STATUS, 0, 0, 8⟩
abbrev PWR_THERM_STATUS_LEVEL : RF := ⟨.PWR_THERM_STATUS, 0, 8, 4⟩
abbrev PWR_THERM_STATUS_SENSOR : RF := ⟨.PWR_THERM_STATUS, 0, 12, 5⟩
abbrev PWR_THERM_STATUS_TRIP : RF := ⟨.PWR_THERM_STATUS, 0, 17, 1⟩
abbrev PWR_THERM_STATUS_TRIP_TEMP : RF := ⟨.PWR_THERM_STATUS, 0, 18, 8⟩
abbrev PWR_AO_LDO_MODE : RF := ⟨.PWR_AO_LDO, 0, 0, 1⟩
abbrev PWR_AO_LDO_LP_FORCED : RF := ⟨.PWR_AO_LDO, 0, 1, 1⟩
abbrev PWR_CLK_STATUS_REFCLK_OK : RF := ⟨.PWR_CLK_STATUS, 0, 0, 1⟩
abbrev PWR_CLK_STATUS_LFO_ACTIVE : RF := ⟨.PWR_CLK_STATUS, 0, 1, 1⟩
abbrev PWR_CLK_STATUS_CORE_PLL_LOCK : RF := ⟨.PWR_CLK_STATUS, 0, 2, 1⟩
abbrev PWR_CLK_STATUS_MGMT_PLL_LOCK : RF := ⟨.PWR_CLK_STATUS, 0, 3, 1⟩
abbrev PWR_RESET_CAUSE_PORST : RF := ⟨.PWR_RESET_CAUSE, 0, 0, 1⟩
abbrev PWR_RESET_CAUSE_BROWNOUT : RF := ⟨.PWR_RESET_CAUSE, 0, 1, 1⟩
abbrev PWR_RESET_CAUSE_WARM_PIN : RF := ⟨.PWR_RESET_CAUSE, 0, 2, 1⟩
abbrev PWR_RESET_CAUSE_WARM_CMD : RF := ⟨.PWR_RESET_CAUSE, 0, 3, 1⟩
abbrev PWR_RESET_CAUSE_REFCLK : RF := ⟨.PWR_RESET_CAUSE, 0, 4, 1⟩
abbrev PWR_RESET_CAUSE_THERMAL : RF := ⟨.PWR_RESET_CAUSE, 0, 5, 1⟩
abbrev PWR_AVS_FUSED : RF := ⟨.PWR_AVS, 0, 0, 10⟩
abbrev PWR_AVS_TARGET : RF := ⟨.PWR_AVS, 0, 16, 10⟩
abbrev PWR_AVS_MARGIN : RF := ⟨.PWR_AVS, 0, 32, 8⟩
abbrev PWR_AVS_FAULT : RF := ⟨.PWR_AVS, 0, 40, 1⟩
abbrev PWR_DOM_CTL_REQ (i : Nat) : RF := ⟨.PWR_DOM_CTL, i, 0, 2⟩
abbrev PWR_DOM_CTL_ALLOW_RET (i : Nat) : RF := ⟨.PWR_DOM_CTL, i, 2, 1⟩
abbrev PWR_DOM_STATUS_STATE (i : Nat) : RF := ⟨.PWR_DOM_STATUS, i, 0, 3⟩
abbrev PWR_DOM_STATUS_STEP (i : Nat) : RF := ⟨.PWR_DOM_STATUS, i, 3, 3⟩
abbrev PWR_DOM_STATUS_PENDING_ENABLE (i : Nat) : RF := ⟨.PWR_DOM_STATUS, i, 6, 1⟩
abbrev PWR_DOM_STATUS_CAUSE (i : Nat) : RF := ⟨.PWR_DOM_STATUS, i, 8, 4⟩
abbrev PWR_DOM_STATUS_RETRIES (i : Nat) : RF := ⟨.PWR_DOM_STATUS, i, 12, 4⟩
abbrev PWR_DOM_STATUS_DRAIN_COUNT (i : Nat) : RF := ⟨.PWR_DOM_STATUS, i, 16, 20⟩
abbrev PWR_DOM_STATUS_WAKES (i : Nat) : RF := ⟨.PWR_DOM_STATUS, i, 48, 16⟩
abbrev SLP_CFG_ENABLE (i : Nat) : RF := ⟨.SLP_CFG, i, 0, 1⟩
abbrev SLP_CFG_SHUNT (i : Nat) : RF := ⟨.SLP_CFG, i, 16, 16⟩
abbrev SLP_CFG_SOA_W (i : Nat) : RF := ⟨.SLP_CFG, i, 32, 16⟩
abbrev SLP_CFG_FAULT_MAX (i : Nat) : RF := ⟨.SLP_CFG, i, 48, 10⟩
abbrev SLP_CTL_POWER_REQ (i : Nat) : RF := ⟨.SLP_CTL, i, 0, 1⟩
abbrev SLP_CTL_LATCH_OFF (i : Nat) : RF := ⟨.SLP_CTL, i, 1, 1⟩
abbrev SLP_CTL_UNLATCH (i : Nat) : RF := ⟨.SLP_CTL, i, 2, 1⟩
abbrev SLP_CTL_CLR_CNT (i : Nat) : RF := ⟨.SLP_CTL, i, 3, 1⟩
abbrev SLP_VWIN_UV_RISE (i : Nat) : RF := ⟨.SLP_VWIN, i, 0, 16⟩
abbrev SLP_VWIN_UV_FALL (i : Nat) : RF := ⟨.SLP_VWIN, i, 16, 16⟩
abbrev SLP_VWIN_OV_RISE (i : Nat) : RF := ⟨.SLP_VWIN, i, 32, 16⟩
abbrev SLP_VWIN_OV_FALL (i : Nat) : RF := ⟨.SLP_VWIN, i, 48, 16⟩
abbrev SLP_LIM_ILIM (i : Nat) : RF := ⟨.SLP_LIM, i, 0, 6⟩
abbrev SLP_LIM_PUMP (i : Nat) : RF := ⟨.SLP_LIM, i, 8, 6⟩
abbrev SLP_LIM_PLIM (i : Nat) : RF := ⟨.SLP_LIM, i, 16, 16⟩
abbrev SLP_TMR_INSERT (i : Nat) : RF := ⟨.SLP_TMR, i, 0, 10⟩
abbrev SLP_TMR_FAULT (i : Nat) : RF := ⟨.SLP_TMR, i, 16, 10⟩
abbrev SLP_TMR_RETRY (i : Nat) : RF := ⟨.SLP_TMR, i, 32, 10⟩
abbrev SLP_TMR_RAMP_TMO (i : Nat) : RF := ⟨.SLP_TMR, i, 48, 10⟩
abbrev SLP_STATUS_STATE (i : Nat) : RF := ⟨.SLP_STATUS, i, 0, 4⟩
abbrev SLP_STATUS_PRESENT (i : Nat) : RF := ⟨.SLP_STATUS, i, 4, 1⟩
abbrev SLP_STATUS_PG (i : Nat) : RF := ⟨.SLP_STATUS, i, 5, 1⟩
abbrev SLP_STATUS_REGULATING (i : Nat) : RF := ⟨.SLP_STATUS, i, 6, 1⟩
abbrev SLP_STATUS_FOLDBACK (i : Nat) : RF := ⟨.SLP_STATUS, i, 7, 1⟩
abbrev SLP_STATUS_CAUSE (i : Nat) : RF := ⟨.SLP_STATUS, i, 8, 3⟩
abbrev SLP_STATUS_REQ_ACTIVE (i : Nat) : RF := ⟨.SLP_STATUS, i, 11, 1⟩
abbrev SLP_STATUS_FAULT_TIMER (i : Nat) : RF := ⟨.SLP_STATUS, i, 16, 10⟩
abbrev SLP_STATUS_RETRY_LEFT (i : Nat) : RF := ⟨.SLP_STATUS, i, 32, 10⟩
abbrev SLP_STATUS_INSERT_LEFT (i : Nat) : RF := ⟨.SLP_STATUS, i, 48, 10⟩
abbrev SLP_MEAS_VIN (i : Nat) : RF := ⟨.SLP_MEAS, i, 0, 16⟩
abbrev SLP_MEAS_VOUT (i : Nat) : RF := ⟨.SLP_MEAS, i, 16, 16⟩
abbrev SLP_MEAS_VSENSE (i : Nat) : RF := ⟨.SLP_MEAS, i, 32, 16⟩
abbrev SLP_MEAS_VGS (i : Nat) : RF := ⟨.SLP_MEAS, i, 48, 16⟩
abbrev SLP_CNT_FAULTS (i : Nat) : RF := ⟨.SLP_CNT, i, 0, 16⟩
abbrev SLP_CNT_FAST_TRIPS (i : Nat) : RF := ⟨.SLP_CNT, i, 16, 16⟩
abbrev SLP_CNT_RAMPS (i : Nat) : RF := ⟨.SLP_CNT, i, 32, 16⟩
abbrev SLP_CNT_VIN_EXITS (i : Nat) : RF := ⟨.SLP_CNT, i, 48, 16⟩
abbrev SLP_FAULT_TIME_TIME64 (i : Nat) : RF := ⟨.SLP_FAULT_TIME, i, 0, 64⟩
abbrev TWN_ROLE_STATE : RF := ⟨.TWN_ROLE, 0, 0, 4⟩
abbrev TWN_ROLE_HOMES : RF := ⟨.TWN_ROLE, 0, 4, 2⟩
abbrev TWN_ROLE_MIRRORED : RF := ⟨.TWN_ROLE, 0, 6, 1⟩
abbrev TWN_ROLE_COPY_DONE : RF := ⟨.TWN_ROLE, 0, 7, 1⟩
abbrev TWN_ROLE_SETTLING : RF := ⟨.TWN_ROLE, 0, 8, 1⟩
abbrev TWN_ROLE_MOVING : RF := ⟨.TWN_ROLE, 0, 9, 1⟩
abbrev TWN_ROLE_BLIND : RF := ⟨.TWN_ROLE, 0, 10, 1⟩
abbrev TWN_ROLE_W_SPINDLE : RF := ⟨.TWN_ROLE, 0, 11, 1⟩
abbrev TWN_ROLE_W_WHORL : RF := ⟨.TWN_ROLE, 0, 12, 1⟩
abbrev TWN_ROLE_W_ALIVE : RF := ⟨.TWN_ROLE, 0, 13, 1⟩
abbrev TWN_ROLE_FENCE_CAUSE : RF := ⟨.TWN_ROLE, 0, 16, 4⟩
abbrev TWN_CTL_FENCE : RF := ⟨.TWN_CTL, 0, 0, 1⟩
abbrev TWN_CTL_UNFENCE : RF := ⟨.TWN_CTL, 0, 1, 1⟩
abbrev TWN_CTL_YIELD : RF := ⟨.TWN_CTL, 0, 2, 1⟩
abbrev TWN_CTL_HANDBACK : RF := ⟨.TWN_CTL, 0, 3, 1⟩
abbrev TWN_CTL_AUTO_HANDBACK : RF := ⟨.TWN_CTL, 0, 4, 1⟩
abbrev TWN_CTL_CLR_CNT : RF := ⟨.TWN_CTL, 0, 5, 1⟩
abbrev TWN_CTL_MOVE_TMO : RF := ⟨.TWN_CTL, 0, 16, 10⟩
abbrev TWN_CTL_GRACE : RF := ⟨.TWN_CTL, 0, 32, 10⟩
abbrev TWN_CTL_FORM_TMO : RF := ⟨.TWN_CTL, 0, 48, 10⟩
abbrev TWN_SETTLE_OPEN : RF := ⟨.TWN_SETTLE, 0, 0, 18⟩
abbrev TWN_SETTLE_TOTAL : RF := ⟨.TWN_SETTLE, 0, 18, 18⟩
abbrev TWN_COPY_RECORDS : RF := ⟨.TWN_COPY, 0, 0, 32⟩
abbrev TWN_COPY_ACTIVE : RF := ⟨.TWN_COPY, 0, 32, 1⟩
abbrev TWN_TAKEOVER_TIME_TIME64 : RF := ⟨.TWN_TAKEOVER_TIME, 0, 0, 64⟩
abbrev TWN_BLIND_SQUARES : RF := ⟨.TWN_BLIND, 0, 0, 32⟩
abbrev TWN_MIRROR_COMMIT_WAIT : RF := ⟨.TWN_MIRROR, 0, 0, 18⟩
abbrev TWN_CNT_COUNT (i : Nat) : RF := ⟨.TWN_CNT, i, 0, 64⟩
abbrev TWN_CFG_PAIRED : RF := ⟨.TWN_CFG, 0, 0, 1⟩
abbrev TWN_CFG_SPARES_ENABLE : RF := ⟨.TWN_CFG, 0, 1, 1⟩
abbrev TWN_CFG_WHORL_MISS : RF := ⟨.TWN_CFG, 0, 8, 6⟩
abbrev TWN_SPN_CTL_ENABLE : RF := ⟨.TWN_SPN_CTL, 0, 0, 1⟩
abbrev TWN_SPN_CTL_RETRAIN : RF := ⟨.TWN_SPN_CTL, 0, 1, 1⟩
abbrev TWN_SPN_CTL_CLR_CNT : RF := ⟨.TWN_SPN_CTL, 0, 2, 1⟩
abbrev TWN_SPN_CTL_REPLAY_TMO : RF := ⟨.TWN_SPN_CTL, 0, 8, 10⟩
abbrev TWN_SPN_CTL_REPLAY_MAX : RF := ⟨.TWN_SPN_CTL, 0, 20, 4⟩
abbrev TWN_SPN_CTL_TRAIN_TMO : RF := ⟨.TWN_SPN_CTL, 0, 24, 10⟩
abbrev TWN_SPN_CTL_RECOVERY_TMO : RF := ⟨.TWN_SPN_CTL, 0, 40, 10⟩
abbrev TWN_SPN_CTL_SILENT_TMO : RF := ⟨.TWN_SPN_CTL, 0, 52, 10⟩
abbrev TWN_SPN_STATUS_STATE : RF := ⟨.TWN_SPN_STATUS, 0, 0, 3⟩
abbrev TWN_SPN_STATUS_WIDTH : RF := ⟨.TWN_SPN_STATUS, 0, 4, 6⟩
abbrev TWN_SPN_STATUS_SPARES_USED : RF := ⟨.TWN_SPN_STATUS, 0, 10, 2⟩
abbrev TWN_SPN_STATUS_NAK_PENDING : RF := ⟨.TWN_SPN_STATUS, 0, 12, 1⟩
abbrev TWN_SPN_STATUS_REEL_FULL : RF := ⟨.TWN_SPN_STATUS, 0, 13, 1⟩
abbrev TWN_SPN_STATUS_PARTNER_GONE : RF := ⟨.TWN_SPN_STATUS, 0, 14, 1⟩
abbrev TWN_SPN_STATUS_ID_CONFLICT : RF := ⟨.TWN_SPN_STATUS, 0, 15, 1⟩
abbrev TWN_SPN_STATUS_SPARE0_FOR : RF := ⟨.TWN_SPN_STATUS, 0, 16, 5⟩
abbrev TWN_SPN_STATUS_SPARE0_USED : RF := ⟨.TWN_SPN_STATUS, 0, 21, 1⟩
abbrev TWN_SPN_STATUS_SPARE1_FOR : RF := ⟨.TWN_SPN_STATUS, 0, 22, 5⟩
abbrev TWN_SPN_STATUS_SPARE1_USED : RF := ⟨.TWN_SPN_STATUS, 0, 27, 1⟩
abbrev TWN_SPN_STATUS_REPLAY_RUN : RF := ⟨.TWN_SPN_STATUS, 0, 28, 4⟩
abbrev TWN_SPN_FAIL_FAILED : RF := ⟨.TWN_SPN_FAIL, 0, 0, 34⟩
abbrev TWN_SPN_TXSEQ_TX_NEXT : RF := ⟨.TWN_SPN_TXSEQ, 0, 0, 16⟩
abbrev TWN_SPN_TXSEQ_ACKED : RF := ⟨.TWN_SPN_TXSEQ, 0, 16, 16⟩
abbrev TWN_SPN_TXSEQ_REEL_PKTS : RF := ⟨.TWN_SPN_TXSEQ, 0, 32, 15⟩
abbrev TWN_SPN_TXSEQ_REEL_BLOCKS : RF := ⟨.TWN_SPN_TXSEQ, 0, 48, 16⟩
abbrev TWN_SPN_RXSEQ_RX_NEXT : RF := ⟨.TWN_SPN_RXSEQ, 0, 0, 16⟩
abbrev TWN_SPN_SPARE_THRESH_THRESH : RF := ⟨.TWN_SPN_SPARE_THRESH, 0, 0, 20⟩
abbrev TWN_SPN_VCBUF_SIZE (i : Nat) : RF := ⟨.TWN_SPN_VCBUF, i, 0, 15⟩
abbrev TWN_SPN_CRED_LIMIT (i : Nat) : RF := ⟨.TWN_SPN_CRED, i, 0, 16⟩
abbrev TWN_SPN_CRED_CONSUMED (i : Nat) : RF := ⟨.TWN_SPN_CRED, i, 16, 16⟩
abbrev TWN_SPN_RCRED_FREED (i : Nat) : RF := ⟨.TWN_SPN_RCRED, i, 0, 16⟩
abbrev TWN_SPN_RCRED_USED (i : Nat) : RF := ⟨.TWN_SPN_RCRED, i, 16, 16⟩
abbrev TWN_SPN_CNT_COUNT (i : Nat) : RF := ⟨.TWN_SPN_CNT, i, 0, 64⟩
abbrev TWN_SPN_LANE_CORR (i : Nat) : RF := ⟨.TWN_SPN_LANE, i, 0, 20⟩
abbrev TWN_SPN_LANE_UNCORR (i : Nat) : RF := ⟨.TWN_SPN_LANE, i, 20, 12⟩
abbrev TWN_SPN_LANE_SIGNAL (i : Nat) : RF := ⟨.TWN_SPN_LANE, i, 32, 1⟩
abbrev TWN_SPN_LANE_LOCK (i : Nat) : RF := ⟨.TWN_SPN_LANE, i, 33, 1⟩
abbrev TWN_SPN_LANE_FAILED (i : Nat) : RF := ⟨.TWN_SPN_LANE, i, 34, 1⟩
abbrev TWN_WHL_STATUS_STATE : RF := ⟨.TWN_WHL_STATUS, 0, 0, 2⟩
abbrev TWN_WHL_STATUS_PARTNER_GONE : RF := ⟨.TWN_WHL_STATUS, 0, 2, 1⟩
abbrev TWN_WHL_STATUS_MISSED : RF := ⟨.TWN_WHL_STATUS, 0, 8, 6⟩
abbrev TWN_WHL_STATUS_RX_SEQ : RF := ⟨.TWN_WHL_STATUS, 0, 16, 16⟩
abbrev TWN_WHL_STATUS_TX_SEQ : RF := ⟨.TWN_WHL_STATUS, 0, 32, 16⟩
abbrev TWN_WHL_CTL_CLR_CNT : RF := ⟨.TWN_WHL_CTL, 0, 0, 1⟩
abbrev TWN_WHL_PARTNER_FLAGS : RF := ⟨.TWN_WHL_PARTNER, 0, 0, 8⟩
abbrev TWN_WHL_PARTNER_CLAIM : RF := ⟨.TWN_WHL_PARTNER, 0, 8, 8⟩
abbrev TWN_WHL_PARTNER_ECHO : RF := ⟨.TWN_WHL_PARTNER, 0, 16, 16⟩
abbrev TWN_WHL_DIGEST_DIGEST8 : RF := ⟨.TWN_WHL_DIGEST, 0, 0, 64⟩
abbrev TWN_WHL_TOFF_OFFSET : RF := ⟨.TWN_WHL_TOFF, 0, 0, 32⟩
abbrev TWN_WHL_TOFF_DELAY : RF := ⟨.TWN_WHL_TOFF, 0, 32, 32⟩
abbrev TWN_WHL_FW_TX_DATA (i : Nat) : RF := ⟨.TWN_WHL_FW_TX, i, 0, 64⟩
abbrev TWN_WHL_FW_CTL_SEND : RF := ⟨.TWN_WHL_FW_CTL, 0, 0, 1⟩
abbrev TWN_WHL_FW_CTL_BUSY : RF := ⟨.TWN_WHL_FW_CTL, 0, 1, 1⟩
abbrev TWN_WHL_FW_CTL_RX_VALID : RF := ⟨.TWN_WHL_FW_CTL, 0, 2, 1⟩
abbrev TWN_WHL_FW_RX_DATA (i : Nat) : RF := ⟨.TWN_WHL_FW_RX, i, 0, 64⟩
abbrev TWN_WHL_CNT_COUNT (i : Nat) : RF := ⟨.TWN_WHL_CNT, i, 0, 64⟩
abbrev PMU_CTL_CLR_ALL : RF := ⟨.PMU_CTL, 0, 0, 1⟩
abbrev PMU_CTL_FREEZE : RF := ⟨.PMU_CTL, 0, 1, 1⟩
abbrev PMU_CENSUS_CTL_EN : RF := ⟨.PMU_CENSUS_CTL, 0, 0, 1⟩
abbrev PMU_CENSUS_CTL_DEST : RF := ⟨.PMU_CENSUS_CTL, 0, 1, 1⟩
abbrev PMU_CENSUS_CTL_CLEAR_ON_DUMP : RF := ⟨.PMU_CENSUS_CTL, 0, 2, 1⟩
abbrev PMU_CENSUS_CTL_INTERVAL : RF := ⟨.PMU_CENSUS_CTL, 0, 8, 24⟩
abbrev PMU_CENSUS_CTL_VCS : RF := ⟨.PMU_CENSUS_CTL, 0, 32, 6⟩
abbrev PMU_CENSUS_MASK_BANKS : RF := ⟨.PMU_CENSUS_MASK, 0, 0, 64⟩
abbrev PMU_CENSUS_BASE_BASE : RF := ⟨.PMU_CENSUS_BASE, 0, 6, 58⟩
abbrev PMU_CENSUS_SIZE_SIZE_LOG2 : RF := ⟨.PMU_CENSUS_SIZE, 0, 0, 5⟩
abbrev PMU_CENSUS_SIZE_PASID : RF := ⟨.PMU_CENSUS_SIZE, 0, 20, 20⟩
abbrev PMU_CENSUS_STATUS_SEQ : RF := ⟨.PMU_CENSUS_STATUS, 0, 0, 32⟩
abbrev PMU_CENSUS_STATUS_SKIPPED : RF := ⟨.PMU_CENSUS_STATUS, 0, 32, 16⟩
abbrev PMU_BANK_CFG_OWNER (i : Nat) : RF := ⟨.PMU_BANK_CFG, i, 0, 8⟩
abbrev PMU_BANK_CFG_OWNED (i : Nat) : RF := ⟨.PMU_BANK_CFG, i, 8, 1⟩
abbrev PMU_BANK_OVF_OVF (i : Nat) : RF := ⟨.PMU_BANK_OVF, i, 0, 64⟩
abbrev PMU_FLT_PRIV_KIND (i : Nat) : RF := ⟨.PMU_FLT, i, 0, 2⟩
abbrev PMU_FLT_PRIV_ID (i : Nat) : RF := ⟨.PMU_FLT, i, 8, 8⟩
abbrev PMU_FLT_MASTER_KIND (i : Nat) : RF := ⟨.PMU_FLT, i, 16, 2⟩
abbrev PMU_FLT_MASTER_ID (i : Nat) : RF := ⟨.PMU_FLT, i, 24, 8⟩
abbrev PMU_FLT_CLASS_MASK (i : Nat) : RF := ⟨.PMU_FLT, i, 32, 8⟩
abbrev PMU_FLT_WIN_EN (i : Nat) : RF := ⟨.PMU_FLT, i, 40, 1⟩
abbrev PMU_FLT_BASE_WIN (i : Nat) : RF := ⟨.PMU_FLT_BASE, i, 0, 52⟩
abbrev PMU_FLT_LIMIT_WIN (i : Nat) : RF := ⟨.PMU_FLT_LIMIT, i, 0, 52⟩
abbrev PMU_CFG_EVENT0 (i : Nat) : RF := ⟨.PMU_CFG, i, 0, 8⟩
abbrev PMU_CFG_FILTER0 (i : Nat) : RF := ⟨.PMU_CFG, i, 8, 6⟩
abbrev PMU_CFG_EN0 (i : Nat) : RF := ⟨.PMU_CFG, i, 15, 1⟩
abbrev PMU_CFG_EVENT1 (i : Nat) : RF := ⟨.PMU_CFG, i, 16, 8⟩
abbrev PMU_CFG_FILTER1 (i : Nat) : RF := ⟨.PMU_CFG, i, 24, 6⟩
abbrev PMU_CFG_EN1 (i : Nat) : RF := ⟨.PMU_CFG, i, 31, 1⟩
abbrev PMU_CFG_EVENT2 (i : Nat) : RF := ⟨.PMU_CFG, i, 32, 8⟩
abbrev PMU_CFG_FILTER2 (i : Nat) : RF := ⟨.PMU_CFG, i, 40, 6⟩
abbrev PMU_CFG_EN2 (i : Nat) : RF := ⟨.PMU_CFG, i, 47, 1⟩
abbrev PMU_CFG_EVENT3 (i : Nat) : RF := ⟨.PMU_CFG, i, 48, 8⟩
abbrev PMU_CFG_FILTER3 (i : Nat) : RF := ⟨.PMU_CFG, i, 56, 6⟩
abbrev PMU_CFG_EN3 (i : Nat) : RF := ⟨.PMU_CFG, i, 63, 1⟩
abbrev PMU_CNT_COUNT (i : Nat) : RF := ⟨.PMU_CNT, i, 0, 64⟩
abbrev TST_CMD_GO : RF := ⟨.TST_CMD, 0, 0, 1⟩
abbrev TST_CMD_ABORT : RF := ⟨.TST_CMD, 0, 1, 1⟩
abbrev TST_CMD_KIND : RF := ⟨.TST_CMD, 0, 2, 1⟩
abbrev TST_CMD_DOMAIN : RF := ⟨.TST_CMD, 0, 4, 7⟩
abbrev TST_CMD_PATTERNS : RF := ⟨.TST_CMD, 0, 16, 16⟩
abbrev TST_STATUS_STATE : RF := ⟨.TST_STATUS, 0, 0, 2⟩
abbrev TST_STATUS_RESULT : RF := ⟨.TST_STATUS, 0, 2, 2⟩
abbrev TST_STATUS_FAIL_WORDS : RF := ⟨.TST_STATUS, 0, 16, 16⟩
abbrev TST_MISR_SIGNATURE : RF := ⟨.TST_MISR, 0, 0, 64⟩
abbrev TST_EXPECT_GOLDEN : RF := ⟨.TST_EXPECT, 0, 0, 64⟩
abbrev DBG_UNLOCK_CHAL_REQ : RF := ⟨.DBG_UNLOCK, 0, 0, 1⟩
abbrev DBG_UNLOCK_GRANT : RF := ⟨.DBG_UNLOCK, 0, 1, 1⟩
abbrev DBG_UNLOCK_RELOCK : RF := ⟨.DBG_UNLOCK, 0, 2, 1⟩
abbrev DBG_CHAL_NONCE : RF := ⟨.DBG_CHAL, 0, 0, 64⟩
abbrev DBG_TRACE_CTL_EN : RF := ⟨.DBG_TRACE_CTL, 0, 0, 1⟩
abbrev DBG_TRACE_CTL_WRAP : RF := ⟨.DBG_TRACE_CTL, 0, 1, 1⟩
abbrev DBG_TRACE_CTL_SRC_MASK : RF := ⟨.DBG_TRACE_CTL, 0, 8, 7⟩
abbrev DBG_TRACE_LO_ADDR : RF := ⟨.DBG_TRACE_LO, 0, 0, 26⟩
abbrev DBG_TRACE_HI_ADDR : RF := ⟨.DBG_TRACE_HI, 0, 0, 26⟩
abbrev DBG_TRACE_STATUS_COUNT : RF := ⟨.DBG_TRACE_STATUS, 0, 0, 16⟩
abbrev DBG_TRACE_STATUS_FULL : RF := ⟨.DBG_TRACE_STATUS, 0, 16, 1⟩
abbrev DBG_TRACE_IDX_IDX : RF := ⟨.DBG_TRACE_IDX, 0, 0, 15⟩
abbrev DBG_TRACE_DATA_DATA (i : Nat) : RF := ⟨.DBG_TRACE_DATA, i, 0, 64⟩
abbrev FWM_BOOT_STATUS_STAGE : RF := ⟨.FWM_BOOT_STATUS, 0, 0, 3⟩
abbrev FWM_BOOT_STATUS_FROM_B : RF := ⟨.FWM_BOOT_STATUS, 0, 3, 1⟩
abbrev FWM_BOOT_STATUS_A_REFUSED : RF := ⟨.FWM_BOOT_STATUS, 0, 4, 1⟩
abbrev FWM_BOOT_STATUS_B_REFUSED : RF := ⟨.FWM_BOOT_STATUS, 0, 5, 1⟩
abbrev FWM_BOOT_STATUS_REASON_A : RF := ⟨.FWM_BOOT_STATUS, 0, 16, 16⟩
abbrev FWM_BOOT_STATUS_REASON_B : RF := ⟨.FWM_BOOT_STATUS, 0, 32, 16⟩
abbrev FWM_BOOT_STATUS_WDOG_RESETS : RF := ⟨.FWM_BOOT_STATUS, 0, 48, 8⟩
abbrev FWM_BOOT_CTL_PREFER_B : RF := ⟨.FWM_BOOT_CTL, 0, 0, 1⟩
abbrev FWM_SVN_SVN : RF := ⟨.FWM_SVN, 0, 0, 32⟩
abbrev FWM_SVN_SVN_MIN : RF := ⟨.FWM_SVN, 0, 32, 32⟩
abbrev FWM_VERSION_BUILD_ID : RF := ⟨.FWM_VERSION, 0, 0, 64⟩
abbrev FWM_WDOG_PERIOD (i : Nat) : RF := ⟨.FWM_WDOG, i, 0, 14⟩
abbrev FWM_WDOG_KICK (i : Nat) : RF := ⟨.FWM_WDOG, i, 16, 1⟩
abbrev FWM_WDOG_EXPIRED (i : Nat) : RF := ⟨.FWM_WDOG, i, 17, 1⟩
abbrev FWM_CORE_CTL_RESET : RF := ⟨.FWM_CORE_CTL, 0, 0, 4⟩
abbrev FWM_MB_TMO_TMO : RF := ⟨.FWM_MB_TMO, 0, 0, 13⟩
abbrev FWM_SPI_ADDR_ADDR : RF := ⟨.FWM_SPI_ADDR, 0, 0, 64⟩
abbrev FWM_SPI_DATA_DATA : RF := ⟨.FWM_SPI_DATA, 0, 0, 64⟩
abbrev FWM_SPI_CMD_CMD : RF := ⟨.FWM_SPI_CMD, 0, 0, 64⟩
abbrev FWM_MB_CTL_GO (i : Nat) : RF := ⟨.FWM_MB_CTL, i, 0, 1⟩
abbrev FWM_MB_CTL_BUSY (i : Nat) : RF := ⟨.FWM_MB_CTL, i, 1, 1⟩
abbrev FWM_MB_CTL_DONE (i : Nat) : RF := ⟨.FWM_MB_CTL, i, 2, 1⟩
abbrev FWM_MB_REQ_DATA (i : Nat) : RF := ⟨.FWM_MB_REQ, i, 0, 64⟩
abbrev FWM_MB_RSP_DATA (i : Nat) : RF := ⟨.FWM_MB_RSP, i, 0, 64⟩
abbrev OCT_STATUS_LANE_DETECT (i : Nat) : RF := ⟨.OCT_STATUS, i, 0, 8⟩
abbrev OCT_STATUS_LANE_ACTIVE (i : Nat) : RF := ⟨.OCT_STATUS, i, 8, 8⟩
abbrev OCT_STATUS_PLL_LOCK (i : Nat) : RF := ⟨.OCT_STATUS, i, 16, 1⟩
abbrev OCT_STATUS_SLOT_PERST (i : Nat) : RF := ⟨.OCT_STATUS, i, 17, 1⟩
abbrev OCT_SLOT_CTL_PERST_DELAY (i : Nat) : RF := ⟨.OCT_SLOT_CTL, i, 0, 10⟩
abbrev OCT_SLOT_CTL_PERST_FORCE (i : Nat) : RF := ⟨.OCT_SLOT_CTL, i, 10, 1⟩
abbrev OCT_PORT_CFG_VALID (i : Nat) : RF := ⟨.OCT_PORT_CFG, i, 0, 1⟩
abbrev OCT_PORT_CFG_WIDTH (i : Nat) : RF := ⟨.OCT_PORT_CFG, i, 1, 3⟩
abbrev OCT_PORT_CFG_RATE_MAX (i : Nat) : RF := ⟨.OCT_PORT_CFG, i, 4, 3⟩
abbrev OCT_PORT_CFG_ROLE (i : Nat) : RF := ⟨.OCT_PORT_CFG, i, 7, 3⟩
abbrev OCT_PORT_CFG_LANE_REVERSE (i : Nat) : RF := ⟨.OCT_PORT_CFG, i, 10, 1⟩
abbrev OCT_PORT_CFG_IDE_REQUIRED (i : Nat) : RF := ⟨.OCT_PORT_CFG, i, 11, 1⟩
abbrev OCT_PORT_CFG_SRIS (i : Nat) : RF := ⟨.OCT_PORT_CFG, i, 12, 1⟩
abbrev OCT_PORT_CFG_VCS (i : Nat) : RF := ⟨.OCT_PORT_CFG, i, 13, 8⟩
abbrev OCT_PORT_CFG_EQ_PRESET (i : Nat) : RF := ⟨.OCT_PORT_CFG, i, 24, 4⟩
abbrev OCT_PORT_CTL_ENABLE (i : Nat) : RF := ⟨.OCT_PORT_CTL, i, 0, 1⟩
abbrev OCT_PORT_CTL_RETRAIN (i : Nat) : RF := ⟨.OCT_PORT_CTL, i, 1, 1⟩
abbrev OCT_PORT_CTL_REDO_EQ (i : Nat) : RF := ⟨.OCT_PORT_CTL, i, 2, 1⟩
abbrev OCT_PORT_CTL_EQ_BYPASS (i : Nat) : RF := ⟨.OCT_PORT_CTL, i, 3, 1⟩
abbrev OCT_PORT_CTL_TARGET_RATE (i : Nat) : RF := ⟨.OCT_PORT_CTL, i, 4, 3⟩
abbrev OCT_PORT_CTL_XRATE_OFFER (i : Nat) : RF := ⟨.OCT_PORT_CTL, i, 7, 1⟩
abbrev OCT_PORT_CTL_L0P_EN (i : Nat) : RF := ⟨.OCT_PORT_CTL, i, 8, 1⟩
abbrev OCT_PORT_CTL_L1_EN (i : Nat) : RF := ⟨.OCT_PORT_CTL, i, 9, 1⟩
abbrev OCT_PORT_CTL_TRAIN_TMO (i : Nat) : RF := ⟨.OCT_PORT_CTL, i, 10, 11⟩
abbrev OCT_PORT_CTL_TRAIN_RETRIES (i : Nat) : RF := ⟨.OCT_PORT_CTL, i, 21, 3⟩
abbrev OCT_PORT_CTL_CLR_CNT (i : Nat) : RF := ⟨.OCT_PORT_CTL, i, 24, 1⟩
abbrev OCT_PORT_STATUS_STATE (i : Nat) : RF := ⟨.OCT_PORT_STATUS, i, 0, 3⟩
abbrev OCT_PORT_STATUS_HELD_REASON (i : Nat) : RF := ⟨.OCT_PORT_STATUS, i, 4, 4⟩
abbrev OCT_PORT_STATUS_RATE (i : Nat) : RF := ⟨.OCT_PORT_STATUS, i, 8, 3⟩
abbrev OCT_PORT_STATUS_LANES (i : Nat) : RF := ⟨.OCT_PORT_STATUS, i, 12, 5⟩
abbrev OCT_PORT_STATUS_FLIT256 (i : Nat) : RF := ⟨.OCT_PORT_STATUS, i, 17, 1⟩
abbrev OCT_PORT_STATUS_XRATE (i : Nat) : RF := ⟨.OCT_PORT_STATUS, i, 18, 1⟩
abbrev OCT_PORT_STATUS_LOPT (i : Nat) : RF := ⟨.OCT_PORT_STATUS, i, 19, 1⟩
abbrev OCT_PORT_STATUS_REVERSED (i : Nat) : RF := ⟨.OCT_PORT_STATUS, i, 20, 1⟩
abbrev OCT_PORT_STATUS_CXL (i : Nat) : RF := ⟨.OCT_PORT_STATUS, i, 21, 1⟩
abbrev OCT_PORT_STATUS_IDE_ACTIVE (i : Nat) : RF := ⟨.OCT_PORT_STATUS, i, 22, 1⟩
abbrev OCT_PORT_STATUS_SRIS (i : Nat) : RF := ⟨.OCT_PORT_STATUS, i, 23, 1⟩
abbrev OCT_PORT_TRAIN_ATTEMPTS (i : Nat) : RF := ⟨.OCT_PORT_TRAIN, i, 0, 8⟩
abbrev OCT_PORT_TRAIN_XRATE_OFFERED (i : Nat) : RF := ⟨.OCT_PORT_TRAIN, i, 8, 1⟩
abbrev OCT_PORT_TRAIN_XRATE_PARTNER (i : Nat) : RF := ⟨.OCT_PORT_TRAIN, i, 9, 1⟩
abbrev OCT_PORT_TRAIN_EQ_BYPASS_USED (i : Nat) : RF := ⟨.OCT_PORT_TRAIN, i, 10, 1⟩
abbrev OCT_PORT_TRAIN_TIME_TO_L0 (i : Nat) : RF := ⟨.OCT_PORT_TRAIN, i, 16, 16⟩
abbrev OCT_PORT_IDE_MODE (i : Nat) : RF := ⟨.OCT_PORT_IDE, i, 0, 2⟩
abbrev OCT_PORT_IDE_STATE (i : Nat) : RF := ⟨.OCT_PORT_IDE, i, 2, 2⟩
abbrev OCT_PORT_IDE_K_SET (i : Nat) : RF := ⟨.OCT_PORT_IDE, i, 4, 1⟩
abbrev OCT_PORT_IDE_REFRESHES (i : Nat) : RF := ⟨.OCT_PORT_IDE, i, 16, 16⟩
abbrev OCT_PORT_IDE_IDE_TMO (i : Nat) : RF := ⟨.OCT_PORT_IDE, i, 32, 8⟩
abbrev OCT_PORT_CNT0_LINK_DOWNS (i : Nat) : RF := ⟨.OCT_PORT_CNT0, i, 0, 16⟩
abbrev OCT_PORT_CNT0_TRAIN_FAILS (i : Nat) : RF := ⟨.OCT_PORT_CNT0, i, 16, 16⟩
abbrev OCT_PORT_CNT0_XRATE_FAILS (i : Nat) : RF := ⟨.OCT_PORT_CNT0, i, 32, 16⟩
abbrev OCT_PORT_CNT0_IDE_FAILS (i : Nat) : RF := ⟨.OCT_PORT_CNT0, i, 48, 16⟩
abbrev OCT_PORT_CNT1_DECODE_MISS (i : Nat) : RF := ⟨.OCT_PORT_CNT1, i, 0, 32⟩
abbrev OCT_PORT_CNT1_MSG_INVALID (i : Nat) : RF := ⟨.OCT_PORT_CNT1, i, 32, 32⟩
abbrev OCT_PBR_ID_ID (i : Nat) : RF := ⟨.OCT_PBR_ID, i, 0, 12⟩
abbrev OCT_EDGE_MAP_DPID (i : Nat) : RF := ⟨.OCT_EDGE_MAP, i, 0, 12⟩
abbrev OCT_EDGE_MAP_VALID (i : Nat) : RF := ⟨.OCT_EDGE_MAP, i, 12, 1⟩
abbrev OCT_CRN_STATUS_WAITERS (i : Nat) : RF := ⟨.OCT_CRN_STATUS, i, 0, 14⟩
abbrev OCT_CRN_STATUS_RECORDS (i : Nat) : RF := ⟨.OCT_CRN_STATUS, i, 16, 12⟩
abbrev OCT_CRN_CTL_CLR_CNT (i : Nat) : RF := ⟨.OCT_CRN_CTL, i, 0, 1⟩
abbrev OCT_CRN_CNT_FWD_COUNT (i : Nat) : RF := ⟨.OCT_CRN_CNT_FWD, i, 0, 64⟩
abbrev OCT_CRN_CNT_XFER_COUNT (i : Nat) : RF := ⟨.OCT_CRN_CNT_XFER, i, 0, 64⟩
abbrev OCT_CRN_CNT_RETURN_COUNT (i : Nat) : RF := ⟨.OCT_CRN_CNT_RETURN, i, 0, 64⟩
abbrev OCT_CRN_CNT_BOUNCE_COUNT (i : Nat) : RF := ⟨.OCT_CRN_CNT_BOUNCE, i, 0, 64⟩
abbrev OCT_CRN_CNT_ABSORBED_COUNT (i : Nat) : RF := ⟨.OCT_CRN_CNT_ABSORBED, i, 0, 64⟩
abbrev XB_STATUS_MODE : RF := ⟨.XB_STATUS, 0, 0, 1⟩
abbrev XB_STATUS_IN_SERVICE : RF := ⟨.XB_STATUS, 0, 1, 4⟩
abbrev XB_PLANE_STATUS_STATE_0 : RF := ⟨.XB_PLANE_STATUS, 0, 0, 4⟩
abbrev XB_PLANE_STATUS_CAUSE_0 : RF := ⟨.XB_PLANE_STATUS, 0, 4, 4⟩
abbrev XB_PLANE_STATUS_STATE_1 : RF := ⟨.XB_PLANE_STATUS, 0, 8, 4⟩
abbrev XB_PLANE_STATUS_CAUSE_1 : RF := ⟨.XB_PLANE_STATUS, 0, 12, 4⟩
abbrev XB_PLANE_STATUS_STATE_2 : RF := ⟨.XB_PLANE_STATUS, 0, 16, 4⟩
abbrev XB_PLANE_STATUS_CAUSE_2 : RF := ⟨.XB_PLANE_STATUS, 0, 20, 4⟩
abbrev XB_PLANE_STATUS_STATE_3 : RF := ⟨.XB_PLANE_STATUS, 0, 24, 4⟩
abbrev XB_PLANE_STATUS_CAUSE_3 : RF := ⟨.XB_PLANE_STATUS, 0, 28, 4⟩
abbrev XB_PLANE_CTL_OUT : RF := ⟨.XB_PLANE_CTL, 0, 0, 4⟩
abbrev XB_PLANE_CTL_RETURN : RF := ⟨.XB_PLANE_CTL, 0, 4, 4⟩
abbrev XB_CTL_CLR_CNT : RF := ⟨.XB_CTL, 0, 0, 1⟩
abbrev XB_CTL_CUT_EN : RF := ⟨.XB_CTL, 0, 1, 1⟩
abbrev XB_BUF_STATUS_FREE : RF := ⟨.XB_BUF_STATUS, 0, 0, 19⟩
abbrev XB_BUF_STATUS_SHARED_FREE : RF := ⟨.XB_BUF_STATUS, 0, 19, 19⟩
abbrev XB_BUF_STATUS_RESERVED : RF := ⟨.XB_BUF_STATUS, 0, 38, 19⟩
abbrev XB_CLASS_CFG_WEIGHT (i : Nat) : RF := ⟨.XB_CLASS_CFG, i, 0, 8⟩
abbrev XB_CLASS_CFG_MIN_RES (i : Nat) : RF := ⟨.XB_CLASS_CFG, i, 8, 16⟩
abbrev XB_CLASS_CFG_DT_ALPHA (i : Nat) : RF := ⟨.XB_CLASS_CFG, i, 24, 3⟩
abbrev XB_CLASS_CFG_AGE_LIMIT (i : Nat) : RF := ⟨.XB_CLASS_CFG, i, 32, 17⟩
abbrev XB_EXPRESS_VCS_MASK : RF := ⟨.XB_EXPRESS, 0, 0, 64⟩
abbrev XB_QSEL_ENDPOINT : RF := ⟨.XB_QSEL, 0, 0, 8⟩
abbrev XB_QSEL_CLASS : RF := ⟨.XB_QSEL, 0, 8, 3⟩
abbrev XB_QSTAT_OCCUPANCY : RF := ⟨.XB_QSTAT, 0, 0, 19⟩
abbrev XB_QSTAT_HEAD_AGE : RF := ⟨.XB_QSTAT, 0, 19, 17⟩
abbrev XB_QSTAT_AGED : RF := ⟨.XB_QSTAT, 0, 36, 1⟩
abbrev XB_MIR_CFG_ANALYSIS_PORT (i : Nat) : RF := ⟨.XB_MIR_CFG, i, 0, 8⟩
abbrev XB_MIR_CFG_SOURCE_PORT (i : Nat) : RF := ⟨.XB_MIR_CFG, i, 8, 8⟩
abbrev XB_MIR_CFG_INGRESS (i : Nat) : RF := ⟨.XB_MIR_CFG, i, 16, 1⟩
abbrev XB_MIR_CFG_EGRESS (i : Nat) : RF := ⟨.XB_MIR_CFG, i, 17, 1⟩
abbrev XB_MIR_CFG_TRUNC64 (i : Nat) : RF := ⟨.XB_MIR_CFG, i, 18, 1⟩
abbrev XB_MIR_CFG_VALID (i : Nat) : RF := ⟨.XB_MIR_CFG, i, 19, 1⟩
abbrev XB_MIR_CFG_CLASS_MASK (i : Nat) : RF := ⟨.XB_MIR_CFG, i, 24, 8⟩
abbrev XB_MIR_CFG_AGENT (i : Nat) : RF := ⟨.XB_MIR_CFG, i, 32, 8⟩
abbrev XB_MIR_CFG_OPCODE (i : Nat) : RF := ⟨.XB_MIR_CFG, i, 40, 8⟩
abbrev XB_MIR_WIN_BASE_BASE (i : Nat) : RF := ⟨.XB_MIR_WIN_BASE, i, 0, 52⟩
abbrev XB_MIR_WIN_LIMIT_LIMIT (i : Nat) : RF := ⟨.XB_MIR_WIN_LIMIT, i, 0, 52⟩
abbrev XB_MIR_DEST_BASE (i : Nat) : RF := ⟨.XB_MIR_DEST, i, 12, 40⟩
abbrev XB_MIR_DEST_SIZE_LOG2 (i : Nat) : RF := ⟨.XB_MIR_DEST, i, 52, 6⟩
abbrev XB_MIR_LIMIT_QLIMIT (i : Nat) : RF := ⟨.XB_MIR_LIMIT, i, 0, 16⟩
abbrev XB_MIR_CNT_COPIES (i : Nat) : RF := ⟨.XB_MIR_CNT, i, 0, 32⟩
abbrev XB_MIR_CNT_DROPS (i : Nat) : RF := ⟨.XB_MIR_CNT, i, 32, 32⟩
abbrev XB_CNT_COUNT (i : Nat) : RF := ⟨.XB_CNT, i, 0, 64⟩
abbrev SQ_STATUS_TRK_USED (i : Nat) : RF := ⟨.SQ_STATUS, i, 0, 14⟩
abbrev SQ_STATUS_WB_USED (i : Nat) : RF := ⟨.SQ_STATUS, i, 14, 8⟩
abbrev SQ_STATUS_EVICT_USED (i : Nat) : RF := ⟨.SQ_STATUS, i, 22, 9⟩
abbrev SQ_STATUS_RETRY_OCC (i : Nat) : RF := ⟨.SQ_STATUS, i, 31, 11⟩
abbrev SQ_STATUS_SPEC_OUT (i : Nat) : RF := ⟨.SQ_STATUS, i, 42, 12⟩
abbrev SQ_CTL_SPEC_EN (i : Nat) : RF := ⟨.SQ_CTL, i, 0, 1⟩
abbrev SQ_CTL_SPEC_MAX (i : Nat) : RF := ⟨.SQ_CTL, i, 1, 12⟩
abbrev SQ_CTL_CLR_CNT (i : Nat) : RF := ⟨.SQ_CTL, i, 13, 1⟩
abbrev SQ_TMO_MEM_TMO (i : Nat) : RF := ⟨.SQ_TMO, i, 0, 10⟩
abbrev SQ_TMO_SNP_TMO (i : Nat) : RF := ⟨.SQ_TMO, i, 16, 14⟩
abbrev SQ_RETRY_CTL_INTERVAL (i : Nat) : RF := ⟨.SQ_RETRY_CTL, i, 0, 14⟩
abbrev SQ_RETRY_CTL_AGE_LIMIT (i : Nat) : RF := ⟨.SQ_RETRY_CTL, i, 16, 14⟩
abbrev SQ_EVICT_CTL_THRESH (i : Nat) : RF := ⟨.SQ_EVICT_CTL, i, 0, 20⟩
abbrev SQ_OCC_VALID (i : Nat) : RF := ⟨.SQ_OCC, i, 0, 19⟩
abbrev SQ_OCC_DX (i : Nat) : RF := ⟨.SQ_OCC, i, 19, 19⟩
abbrev SQ_OCC_DELEG (i : Nat) : RF := ⟨.SQ_OCC, i, 38, 19⟩
abbrev SQ_EVICT_STAT_WINDOW_EVICTS (i : Nat) : RF := ⟨.SQ_EVICT_STAT, i, 0, 32⟩
abbrev SQ_EVICT_STAT_PRESSURE (i : Nat) : RF := ⟨.SQ_EVICT_STAT, i, 32, 1⟩
abbrev SQ_CNT_COUNT (i : Nat) : RF := ⟨.SQ_CNT, i, 0, 64⟩
abbrev SQ_PROBE_ADDR_ADDR (i : Nat) : RF := ⟨.SQ_PROBE_ADDR, i, 6, 46⟩
abbrev SQ_PROBE_RESULT_DONE (i : Nat) : RF := ⟨.SQ_PROBE_RESULT, i, 0, 1⟩
abbrev SQ_PROBE_RESULT_FOUND (i : Nat) : RF := ⟨.SQ_PROBE_RESULT, i, 1, 1⟩
abbrev SQ_PROBE_RESULT_NOT_HOME (i : Nat) : RF := ⟨.SQ_PROBE_RESULT, i, 2, 1⟩
abbrev SQ_PROBE_RESULT_OPEN (i : Nat) : RF := ⟨.SQ_PROBE_RESULT, i, 3, 1⟩
abbrev SQ_PROBE_RESULT_WAY (i : Nat) : RF := ⟨.SQ_PROBE_RESULT, i, 4, 4⟩
abbrev SQ_PROBE_RESULT_STATE (i : Nat) : RF := ⟨.SQ_PROBE_RESULT, i, 8, 2⟩
abbrev SQ_PROBE_RESULT_KIOSK (i : Nat) : RF := ⟨.SQ_PROBE_RESULT, i, 10, 1⟩
abbrev SQ_PROBE_RESULT_DELEG (i : Nat) : RF := ⟨.SQ_PROBE_RESULT, i, 11, 1⟩
abbrev SQ_PROBE_RESULT_CD (i : Nat) : RF := ⟨.SQ_PROBE_RESULT, i, 12, 4⟩
abbrev SQ_PROBE_RESULT_SET (i : Nat) : RF := ⟨.SQ_PROBE_RESULT, i, 16, 14⟩
abbrev SQ_PROBE_RESULT_MIRROR (i : Nat) : RF := ⟨.SQ_PROBE_RESULT, i, 30, 1⟩
abbrev SQ_PROBE_SHARERS_SHARERS (i : Nat) : RF := ⟨.SQ_PROBE_SHARERS, i, 0, 64⟩
abbrev SQ_ORD_STATUS_RR_PTR (i : Nat) : RF := ⟨.SQ_ORD_STATUS, i, 0, 6⟩
abbrev SQ_ORD_STATUS_CHAIN_OCC (i : Nat) : RF := ⟨.SQ_ORD_STATUS, i, 8, 12⟩
abbrev SQ_ORD_STATUS_LEDGER_OCC (i : Nat) : RF := ⟨.SQ_ORD_STATUS, i, 20, 12⟩
abbrev SQ_PURGE_MASK_AGENTS (i : Nat) : RF := ⟨.SQ_PURGE_MASK, i, 0, 64⟩
abbrev SQ_PURGE_STATUS_SET (i : Nat) : RF := ⟨.SQ_PURGE_STATUS, i, 0, 14⟩
abbrev SQ_PURGE_STATUS_ACTIVE (i : Nat) : RF := ⟨.SQ_PURGE_STATUS, i, 14, 1⟩
abbrev SQ_HOME_SEL_BIT : RF := ⟨.SQ_HOME_SEL, 0, 0, 4⟩
abbrev SQ_CD_CFG_VALID (i : Nat) : RF := ⟨.SQ_CD_CFG, i, 0, 1⟩
abbrev SQ_CD_CFG_MODE (i : Nat) : RF := ⟨.SQ_CD_CFG, i, 1, 1⟩
abbrev SQ_CD_CFG_KIOSK (i : Nat) : RF := ⟨.SQ_CD_CFG, i, 2, 1⟩
abbrev SQ_CD_AGENTS_AGENT_MASK (i : Nat) : RF := ⟨.SQ_CD_AGENTS, i, 0, 64⟩
abbrev SQ_FMD_BASE_BASE (i : Nat) : RF := ⟨.SQ_FMD_BASE, i, 28, 24⟩
abbrev SQ_FMD_SIZE_SIZE (i : Nat) : RF := ⟨.SQ_FMD_SIZE, i, 28, 24⟩
abbrev SQ_FMD_CTL_WAYS_LOG2 (i : Nat) : RF := ⟨.SQ_FMD_CTL, i, 0, 3⟩
abbrev SQ_FMD_CTL_GRAN (i : Nat) : RF := ⟨.SQ_FMD_CTL, i, 3, 4⟩
abbrev SQ_FMD_CTL_COMMIT (i : Nat) : RF := ⟨.SQ_FMD_CTL, i, 7, 1⟩
abbrev SQ_FMD_CTL_COMMITTED (i : Nat) : RF := ⟨.SQ_FMD_CTL, i, 8, 1⟩
abbrev SQ_FMD_TGT0_TARGET (i : Nat) : RF := ⟨.SQ_FMD_TGT0, i, 0, 64⟩
abbrev SQ_FMD_TGT1_TARGET (i : Nat) : RF := ⟨.SQ_FMD_TGT1, i, 0, 64⟩
abbrev SQ_RANGE_BASE_BASE (i : Nat) : RF := ⟨.SQ_RANGE_BASE, i, 21, 31⟩
abbrev SQ_RANGE_CFG_SIZE (i : Nat) : RF := ⟨.SQ_RANGE_CFG, i, 0, 31⟩
abbrev SQ_RANGE_CFG_CD (i : Nat) : RF := ⟨.SQ_RANGE_CFG, i, 32, 4⟩
abbrev SQ_RANGE_CFG_PRIVATE (i : Nat) : RF := ⟨.SQ_RANGE_CFG, i, 36, 1⟩
abbrev SQ_RANGE_CFG_PRIVATE_AGENT (i : Nat) : RF := ⟨.SQ_RANGE_CFG, i, 40, 8⟩
abbrev SQ_RANGE_CFG_VALID (i : Nat) : RF := ⟨.SQ_RANGE_CFG, i, 48, 1⟩
abbrev KSK_CTL_CLR_CNT : RF := ⟨.KSK_CTL, 0, 0, 1⟩
abbrev KSK_CTL_FLUSH : RF := ⟨.KSK_CTL, 0, 1, 1⟩
abbrev KSK_CTL_STEER_EN : RF := ⟨.KSK_CTL, 0, 2, 1⟩
abbrev KSK_STATUS_FLUSH_BUSY : RF := ⟨.KSK_STATUS, 0, 0, 1⟩
abbrev KSK_BANK_STATUS_STATE_0 : RF := ⟨.KSK_BANK_STATUS, 0, 0, 3⟩
abbrev KSK_BANK_STATUS_STATE_1 : RF := ⟨.KSK_BANK_STATUS, 0, 4, 3⟩
abbrev KSK_BANK_STATUS_STATE_2 : RF := ⟨.KSK_BANK_STATUS, 0, 8, 3⟩
abbrev KSK_BANK_STATUS_STATE_3 : RF := ⟨.KSK_BANK_STATUS, 0, 12, 3⟩
abbrev KSK_BANK_CTL_OUT : RF := ⟨.KSK_BANK_CTL, 0, 0, 4⟩
abbrev KSK_BANK_CTL_RETURN : RF := ⟨.KSK_BANK_CTL, 0, 4, 4⟩
abbrev KSK_OCC_VALID : RF := ⟨.KSK_OCC, 0, 0, 21⟩
abbrev KSK_OCC_DIRTY : RF := ⟨.KSK_OCC, 0, 21, 21⟩
abbrev KSK_CNT_COUNT (i : Nat) : RF := ⟨.KSK_CNT, i, 0, 64⟩
abbrev KRB_WIN_WORD (i : Nat) : RF := ⟨.KRB_WIN, i, 0, 64⟩
abbrev KRB_CWIN_WORD (i : Nat) : RF := ⟨.KRB_CWIN, i, 0, 64⟩
abbrev KRB_FENCE_CTL_GO : RF := ⟨.KRB_FENCE_CTL, 0, 0, 1⟩
abbrev KRB_FENCE_CTL_TMO : RF := ⟨.KRB_FENCE_CTL, 0, 16, 10⟩
abbrev KRB_FENCE_STATUS_STATE : RF := ⟨.KRB_FENCE_STATUS, 0, 0, 2⟩
abbrev KRB_FENCE_STATUS_RESULT : RF := ⟨.KRB_FENCE_STATUS, 0, 2, 2⟩
abbrev KRB_FENCE_STATUS_EPOCH : RF := ⟨.KRB_FENCE_STATUS, 0, 4, 1⟩
abbrev KRB_FENCE_STATUS_REASON : RF := ⟨.KRB_FENCE_STATUS, 0, 16, 16⟩
abbrev KRB_FENCE_STATUS_WINDOW : RF := ⟨.KRB_FENCE_STATUS, 0, 32, 14⟩
abbrev KRB_FENCE_STATUS_OTHER : RF := ⟨.KRB_FENCE_STATUS, 0, 48, 14⟩
abbrev KRB_FENCE_ADDR_ADDR : RF := ⟨.KRB_FENCE_ADDR, 0, 0, 52⟩
abbrev KRB_FENCE_PROG_OLD_OUT : RF := ⟨.KRB_FENCE_PROG, 0, 0, 20⟩
abbrev KRB_FENCE_CNT_FENCES : RF := ⟨.KRB_FENCE_CNT, 0, 0, 32⟩
abbrev KRB_FENCE_CNT_REFUSED : RF := ⟨.KRB_FENCE_CNT, 0, 32, 16⟩
abbrev KRB_FENCE_CNT_TIMEOUTS : RF := ⟨.KRB_FENCE_CNT, 0, 48, 16⟩
abbrev KRB_CTL_CLR_CNT : RF := ⟨.KRB_CTL, 0, 0, 1⟩
abbrev KRB_HOST_SLICE_SLICE (i : Nat) : RF := ⟨.KRB_HOST_SLICE, i, 0, 8⟩
abbrev KRB_HOST_SLICE_VALID (i : Nat) : RF := ⟨.KRB_HOST_SLICE, i, 8, 1⟩
abbrev KRB_CNT_COUNT (i : Nat) : RF := ⟨.KRB_CNT, i, 0, 64⟩
abbrev TM_CTL_CLR_CNT : RF := ⟨.TM_CTL, 0, 0, 1⟩
abbrev TM_CTL_SLOT_TMO : RF := ⟨.TM_CTL, 0, 1, 14⟩
abbrev TM_STATUS_SHARED_FREE : RF := ⟨.TM_STATUS, 0, 0, 29⟩
abbrev TM_CARVE_SLOT_RINGS : RF := ⟨.TM_CARVE, 0, 0, 9⟩
abbrev TM_CARVE_RESERVE : RF := ⟨.TM_CARVE, 0, 9, 29⟩
abbrev TM_SPILL_BASE_BASE : RF := ⟨.TM_SPILL_BASE, 0, 30, 22⟩
abbrev TM_SPILL_BASE_GIB : RF := ⟨.TM_SPILL_BASE, 0, 52, 11⟩
abbrev TM_SPILL_CTL_ON_FREE : RF := ⟨.TM_SPILL_CTL, 0, 0, 29⟩
abbrev TM_SPILL_CTL_WR_RATE : RF := ⟨.TM_SPILL_CTL, 0, 32, 10⟩
abbrev TM_SPILL_CTL_RD_RATE : RF := ⟨.TM_SPILL_CTL, 0, 42, 10⟩
abbrev TM_SPILL_STATUS_PAGES : RF := ⟨.TM_SPILL_STATUS, 0, 0, 20⟩
abbrev TM_SPILL_STATUS_QUEUES : RF := ⟨.TM_SPILL_STATUS, 0, 20, 16⟩
abbrev TM_QSEL_QUEUE : RF := ⟨.TM_QSEL, 0, 0, 15⟩
abbrev TM_QPROBE_HEAD : RF := ⟨.TM_QPROBE, 0, 0, 29⟩
abbrev TM_QPROBE_TAIL : RF := ⟨.TM_QPROBE, 0, 32, 29⟩
abbrev TM_QPROBE_SPILLING : RF := ⟨.TM_QPROBE, 0, 61, 1⟩
abbrev TM_CMD_QUEUE : RF := ⟨.TM_CMD, 0, 0, 15⟩
abbrev TM_CMD_OP : RF := ⟨.TM_CMD, 0, 16, 2⟩
abbrev TM_CMD_STATUS_BUSY : RF := ⟨.TM_CMD_STATUS, 0, 0, 1⟩
abbrev TM_CMD_STATUS_FLUSHED : RF := ⟨.TM_CMD_STATUS, 0, 32, 32⟩
abbrev TM_CNT_COUNT (i : Nat) : RF := ⟨.TM_CNT, i, 0, 64⟩
abbrev TM_SRING_CTL_ENABLE (i : Nat) : RF := ⟨.TM_SRING_CTL, i, 0, 1⟩
abbrev TM_SRING_CTL_HIGH (i : Nat) : RF := ⟨.TM_SRING_CTL, i, 1, 1⟩
abbrev TM_SRING_CTL_RET_EVERY (i : Nat) : RF := ⟨.TM_SRING_CTL, i, 2, 13⟩
abbrev TM_SRING_CTL_RET_TMO (i : Nat) : RF := ⟨.TM_SRING_CTL, i, 16, 10⟩
abbrev TM_SRING_RET_ADDR (i : Nat) : RF := ⟨.TM_SRING_RET, i, 6, 58⟩
abbrev TM_SRING_STATUS_RETURNED (i : Nat) : RF := ⟨.TM_SRING_STATUS, i, 0, 32⟩
abbrev TM_SRING_STATUS_FILLING (i : Nat) : RF := ⟨.TM_SRING_STATUS, i, 32, 13⟩
abbrev TM_SRING_STATUS_IDLE (i : Nat) : RF := ⟨.TM_SRING_STATUS, i, 45, 1⟩
abbrev TM_SRING_BOBBINS_HELD (i : Nat) : RF := ⟨.TM_SRING_BOBBINS, i, 0, 19⟩
abbrev TM_SRING_CNT_TIMEOUTS (i : Nat) : RF := ⟨.TM_SRING_CNT, i, 0, 16⟩
abbrev TM_SRING_CNT_SKIPPED (i : Nat) : RF := ⟨.TM_SRING_CNT, i, 16, 16⟩
abbrev TM_SRING_CNT_EXCESS (i : Nat) : RF := ⟨.TM_SRING_CNT, i, 32, 16⟩
abbrev TM_SRING_CNT_DISCARD_WR (i : Nat) : RF := ⟨.TM_SRING_CNT, i, 48, 16⟩
abbrev TM_CHAN_EGR_RING (i : Nat) : RF := ⟨.TM_CHAN_EGR, i, 0, 15⟩
abbrev TM_CHAN_EGR_VALID (i : Nat) : RF := ⟨.TM_CHAN_EGR, i, 15, 1⟩
abbrev TM_CHAN_EGR_HIGH (i : Nat) : RF := ⟨.TM_CHAN_EGR, i, 16, 1⟩
abbrev TM_CHAN_EGR_STEER (i : Nat) : RF := ⟨.TM_CHAN_EGR, i, 24, 8⟩
abbrev TM_CHAN_EGR1_RX_WAIT (i : Nat) : RF := ⟨.TM_CHAN_EGR1, i, 0, 1⟩
abbrev TM_CHAN_EGR1_RING_WAIT (i : Nat) : RF := ⟨.TM_CHAN_EGR1, i, 1, 1⟩
abbrev TM_CHAN_EGR1_PORT_WAIT (i : Nat) : RF := ⟨.TM_CHAN_EGR1, i, 2, 1⟩
abbrev TM_WRED_MIN_TH (i : Nat) : RF := ⟨.TM_WRED, i, 0, 29⟩
abbrev TM_WRED_MAX_TH (i : Nat) : RF := ⟨.TM_WRED, i, 32, 29⟩
abbrev TM_WRED1_MAX_P (i : Nat) : RF := ⟨.TM_WRED1, i, 0, 8⟩
abbrev TM_WRED1_W (i : Nat) : RF := ⟨.TM_WRED1, i, 8, 4⟩
abbrev TM_MPROF_TYPE (i : Nat) : RF := ⟨.TM_MPROF, i, 0, 1⟩
abbrev TM_MPROF_AWARE (i : Nat) : RF := ⟨.TM_MPROF, i, 1, 1⟩
abbrev TM_MPROF_DROP_Y (i : Nat) : RF := ⟨.TM_MPROF, i, 2, 1⟩
abbrev TM_MPROF_DROP_R (i : Nat) : RF := ⟨.TM_MPROF, i, 3, 1⟩
abbrev TM_MPROF_ADJ (i : Nat) : RF := ⟨.TM_MPROF, i, 8, 8⟩
abbrev TM_MPROF1_CIR (i : Nat) : RF := ⟨.TM_MPROF1, i, 0, 32⟩
abbrev TM_MPROF1_PIR (i : Nat) : RF := ⟨.TM_MPROF1, i, 32, 32⟩
abbrev TM_MPROF2_CBS (i : Nat) : RF := ⟨.TM_MPROF2, i, 0, 28⟩
abbrev TM_MPROF2_PBS (i : Nat) : RF := ⟨.TM_MPROF2, i, 32, 28⟩
abbrev TM_RXB_VALID (i : Nat) : RF := ⟨.TM_RXB, i, 0, 1⟩
abbrev TM_RXB_BUF (i : Nat) : RF := ⟨.TM_RXB, i, 2, 2⟩
abbrev TM_RXB_DATA_IOVA (i : Nat) : RF := ⟨.TM_RXB, i, 12, 52⟩
abbrev TM_RXB1_PUSHED (i : Nat) : RF := ⟨.TM_RXB1, i, 0, 32⟩
abbrev TM_QCFG_LIMIT (i : Nat) : RF := ⟨.TM_QCFG, i, 0, 29⟩
abbrev TM_QCFG_MIN (i : Nat) : RF := ⟨.TM_QCFG, i, 32, 29⟩
abbrev TM_QPOL_WRED_G (i : Nat) : RF := ⟨.TM_QPOL, i, 0, 5⟩
abbrev TM_QPOL_WRED_Y (i : Nat) : RF := ⟨.TM_QPOL, i, 8, 5⟩
abbrev TM_QPOL_WRED_R (i : Nat) : RF := ⟨.TM_QPOL, i, 16, 5⟩
abbrev TM_QPOL_SPILL_EN (i : Nat) : RF := ⟨.TM_QPOL, i, 24, 1⟩
abbrev TM_QPOL_OWNER (i : Nat) : RF := ⟨.TM_QPOL, i, 40, 8⟩
abbrev TM_QPOL_OPEN (i : Nat) : RF := ⟨.TM_QPOL, i, 48, 1⟩
abbrev TM_QPOL_VALID (i : Nat) : RF := ⟨.TM_QPOL, i, 49, 1⟩
abbrev TM_QOCC_OCC (i : Nat) : RF := ⟨.TM_QOCC, i, 0, 29⟩
abbrev TM_QOCC_PKTS (i : Nat) : RF := ⟨.TM_QOCC, i, 32, 29⟩
abbrev TM_QSTAT_AVG (i : Nat) : RF := ⟨.TM_QSTAT, i, 0, 37⟩
abbrev TM_QSTAT_DROPS (i : Nat) : RF := ⟨.TM_QSTAT, i, 37, 27⟩
abbrev TM_GRP_QUEUE (i : Nat) : RF := ⟨.TM_GRP, i, 0, 15⟩
abbrev TM_GRP_COUNT (i : Nat) : RF := ⟨.TM_GRP, i, 16, 7⟩
abbrev TM_GRP_VALID (i : Nat) : RF := ⟨.TM_GRP, i, 23, 1⟩
abbrev TM_GRP_MEM_MEMBER0 (i : Nat) : RF := ⟨.TM_GRP_MEM, i, 0, 16⟩
abbrev TM_GRP_MEM_MEMBER1 (i : Nat) : RF := ⟨.TM_GRP_MEM, i, 16, 16⟩
abbrev TM_GRP_MEM_MEMBER2 (i : Nat) : RF := ⟨.TM_GRP_MEM, i, 32, 16⟩
abbrev TM_GRP_MEM_MEMBER3 (i : Nat) : RF := ⟨.TM_GRP_MEM, i, 48, 16⟩
abbrev TM_QSCH_QUANTUM (i : Nat) : RF := ⟨.TM_QSCH, i, 0, 21⟩
abbrev TM_QSCH_PAUSE (i : Nat) : RF := ⟨.TM_QSCH, i, 21, 1⟩
abbrev TM_QSCH_BUNDLE (i : Nat) : RF := ⟨.TM_QSCH, i, 22, 12⟩
abbrev TM_QSCH_SPROF (i : Nat) : RF := ⟨.TM_QSCH, i, 34, 12⟩
abbrev TM_QSCH_BURST (i : Nat) : RF := ⟨.TM_QSCH, i, 46, 18⟩
abbrev TM_QSCH_ST_DEFICIT (i : Nat) : RF := ⟨.TM_QSCH_ST, i, 0, 25⟩
abbrev TM_QSCH_ST_ACTIVE (i : Nat) : RF := ⟨.TM_QSCH_ST, i, 25, 1⟩
abbrev TM_QSCH_ST_NOFIT (i : Nat) : RF := ⟨.TM_QSCH_ST, i, 26, 1⟩
abbrev TM_QSCH_ST_STATE (i : Nat) : RF := ⟨.TM_QSCH_ST, i, 27, 2⟩
abbrev TM_QSCH_ST_LAST_ROUND (i : Nat) : RF := ⟨.TM_QSCH_ST, i, 32, 32⟩
abbrev TM_BND_CFG_QUANTUM (i : Nat) : RF := ⟨.TM_BND_CFG, i, 0, 21⟩
abbrev TM_BND_CFG_PAUSE (i : Nat) : RF := ⟨.TM_BND_CFG, i, 21, 1⟩
abbrev TM_BND_CFG_CHANNEL (i : Nat) : RF := ⟨.TM_BND_CFG, i, 32, 9⟩
abbrev TM_BND_CFG_PRIORITY (i : Nat) : RF := ⟨.TM_BND_CFG, i, 41, 3⟩
abbrev TM_BND_CFG_VALID (i : Nat) : RF := ⟨.TM_BND_CFG, i, 44, 1⟩
abbrev TM_BND_SHA_CIR (i : Nat) : RF := ⟨.TM_BND_SHA, i, 0, 32⟩
abbrev TM_BND_SHA_PIR (i : Nat) : RF := ⟨.TM_BND_SHA, i, 32, 32⟩
abbrev TM_BND_SHB_CBS (i : Nat) : RF := ⟨.TM_BND_SHB, i, 0, 28⟩
abbrev TM_BND_SHB_PBS (i : Nat) : RF := ⟨.TM_BND_SHB, i, 32, 28⟩
abbrev TM_BND_ST_DEFICIT (i : Nat) : RF := ⟨.TM_BND_ST, i, 0, 25⟩
abbrev TM_BND_ST_ACTIVE (i : Nat) : RF := ⟨.TM_BND_ST, i, 25, 1⟩
abbrev TM_BND_ST_STATE (i : Nat) : RF := ⟨.TM_BND_ST, i, 27, 2⟩
abbrev TM_BND_ST_ROUND (i : Nat) : RF := ⟨.TM_BND_ST, i, 32, 32⟩
abbrev TM_CH_CFG_PORT (i : Nat) : RF := ⟨.TM_CH_CFG, i, 0, 7⟩
abbrev TM_CH_CFG_START (i : Nat) : RF := ⟨.TM_CH_CFG, i, 7, 1⟩
abbrev TM_CH_CFG_GATED (i : Nat) : RF := ⟨.TM_CH_CFG, i, 8, 1⟩
abbrev TM_CH_CFG_VALID (i : Nat) : RF := ⟨.TM_CH_CFG, i, 9, 1⟩
abbrev TM_CH_CFG_PAUSE (i : Nat) : RF := ⟨.TM_CH_CFG, i, 10, 1⟩
abbrev TM_CH_CFG_OVERHEAD (i : Nat) : RF := ⟨.TM_CH_CFG, i, 16, 8⟩
abbrev TM_CH_CFG_QUANTUM (i : Nat) : RF := ⟨.TM_CH_CFG, i, 24, 21⟩
abbrev TM_CH_SHA_CIR (i : Nat) : RF := ⟨.TM_CH_SHA, i, 0, 32⟩
abbrev TM_CH_SHA_PIR (i : Nat) : RF := ⟨.TM_CH_SHA, i, 32, 32⟩
abbrev TM_CH_SHB_CBS (i : Nat) : RF := ⟨.TM_CH_SHB, i, 0, 28⟩
abbrev TM_CH_SHB_PBS (i : Nat) : RF := ⟨.TM_CH_SHB, i, 32, 28⟩
abbrev TM_CH_LINE_LINE_RATE (i : Nat) : RF := ⟨.TM_CH_LINE, i, 0, 24⟩
abbrev TM_CH_ST_DEFICIT (i : Nat) : RF := ⟨.TM_CH_ST, i, 0, 25⟩
abbrev TM_CH_ST_ACTIVE (i : Nat) : RF := ⟨.TM_CH_ST, i, 25, 1⟩
abbrev TM_CH_ST_STATE (i : Nat) : RF := ⟨.TM_CH_ST, i, 27, 2⟩
abbrev TM_CH_ST_PUSH_WAIT (i : Nat) : RF := ⟨.TM_CH_ST, i, 29, 1⟩
abbrev TM_CH_PKTS_COUNT (i : Nat) : RF := ⟨.TM_CH_PKTS, i, 0, 64⟩
abbrev TM_CH_BYTES_COUNT (i : Nat) : RF := ⟨.TM_CH_BYTES, i, 0, 64⟩
abbrev TM_PORT_CFG_PAUSE (i : Nat) : RF := ⟨.TM_PORT_CFG, i, 0, 1⟩
abbrev TM_PORT_SHA_CIR (i : Nat) : RF := ⟨.TM_PORT_SHA, i, 0, 32⟩
abbrev TM_PORT_SHA_PIR (i : Nat) : RF := ⟨.TM_PORT_SHA, i, 32, 32⟩
abbrev TM_PORT_SHB_CBS (i : Nat) : RF := ⟨.TM_PORT_SHB, i, 0, 28⟩
abbrev TM_PORT_SHB_PBS (i : Nat) : RF := ⟨.TM_PORT_SHB, i, 32, 28⟩
abbrev TM_PORT_ST_ACTIVE (i : Nat) : RF := ⟨.TM_PORT_ST, i, 25, 1⟩
abbrev TM_PORT_ST_STATE (i : Nat) : RF := ⟨.TM_PORT_ST, i, 27, 2⟩
abbrev TM_PORT_ST_LANE (i : Nat) : RF := ⟨.TM_PORT_ST, i, 30, 2⟩
abbrev TM_SPROF_A_CIR (i : Nat) : RF := ⟨.TM_SPROF_A, i, 0, 32⟩
abbrev TM_SPROF_A_PIR (i : Nat) : RF := ⟨.TM_SPROF_A, i, 32, 32⟩
abbrev TM_SPROF_B_CBS (i : Nat) : RF := ⟨.TM_SPROF_B, i, 0, 28⟩
abbrev TM_SPROF_B_PBS (i : Nat) : RF := ⟨.TM_SPROF_B, i, 32, 28⟩
abbrev TM_GATE_CTL_IDLE_MASK (i : Nat) : RF := ⟨.TM_GATE_CTL, i, 0, 8⟩
abbrev TM_GATE_CTL_BANK (i : Nat) : RF := ⟨.TM_GATE_CTL, i, 8, 1⟩
abbrev TM_GATE_CTL_CHANGE (i : Nat) : RF := ⟨.TM_GATE_CTL, i, 9, 1⟩
abbrev TM_GATE_CTL_PENDING (i : Nat) : RF := ⟨.TM_GATE_CTL, i, 10, 1⟩
abbrev TM_GATE_CTL_STARTED (i : Nat) : RF := ⟨.TM_GATE_CTL, i, 11, 1⟩
abbrev TM_GATE_A_BASE_NS (i : Nat) : RF := ⟨.TM_GATE_A, i, 0, 30⟩
abbrev TM_GATE_A_CYCLE_NS (i : Nat) : RF := ⟨.TM_GATE_A, i, 32, 30⟩
abbrev TM_GATE_B_BASE_SEC (i : Nat) : RF := ⟨.TM_GATE_B, i, 0, 48⟩
abbrev TM_GATE_B_ENTRIES (i : Nat) : RF := ⟨.TM_GATE_B, i, 48, 11⟩
abbrev TM_GATE_ST_ENTRY (i : Nat) : RF := ⟨.TM_GATE_ST, i, 0, 10⟩
abbrev TM_GATE_ST_OPEN (i : Nat) : RF := ⟨.TM_GATE_ST, i, 16, 8⟩
abbrev TM_GATE_ST_CYCLES (i : Nat) : RF := ⟨.TM_GATE_ST, i, 32, 32⟩
abbrev TM_GATE_CNT_NOFIT (i : Nat) : RF := ⟨.TM_GATE_CNT, i, 0, 32⟩
abbrev TM_GATE_CNT_OVERSIZE (i : Nat) : RF := ⟨.TM_GATE_CNT, i, 32, 16⟩
abbrev TM_GATE_CNT_SWITCHES (i : Nat) : RF := ⟨.TM_GATE_CNT, i, 48, 16⟩
abbrev TM_GATE_SWT_TIME64 (i : Nat) : RF := ⟨.TM_GATE_SWT, i, 0, 64⟩
abbrev TM_GCL_SEL_CHANNEL : RF := ⟨.TM_GCL_SEL, 0, 0, 9⟩
abbrev TM_GCL_SEL_BANK : RF := ⟨.TM_GCL_SEL, 0, 9, 1⟩
abbrev TM_GCL_SEL_INDEX : RF := ⟨.TM_GCL_SEL, 0, 16, 10⟩
abbrev TM_GCL_DATA_MASK : RF := ⟨.TM_GCL_DATA, 0, 0, 8⟩
abbrev TM_GCL_DATA_INTERVAL : RF := ⟨.TM_GCL_DATA, 0, 8, 32⟩
abbrev TB_TIME_NS_NS : RF := ⟨.TB_TIME_NS, 0, 0, 30⟩
abbrev TB_TIME_SEC_SEC : RF := ⟨.TB_TIME_SEC, 0, 0, 48⟩
abbrev TB_TIME64_TIME64 : RF := ⟨.TB_TIME64, 0, 0, 64⟩
abbrev TB_CTL_PPS_EN : RF := ⟨.TB_CTL, 0, 0, 1⟩
abbrev TB_CTL_SSC_COMP : RF := ⟨.TB_CTL, 0, 1, 1⟩
abbrev TB_CTL_CLR_CNT : RF := ⟨.TB_CTL, 0, 2, 1⟩
abbrev TB_ADDEND_ADDEND : RF := ⟨.TB_ADDEND, 0, 0, 44⟩
abbrev TB_PPS_CFG_LOCK_THRESH : RF := ⟨.TB_PPS_CFG, 0, 0, 16⟩
abbrev TB_PPS_CFG_STEP_THRESH : RF := ⟨.TB_PPS_CFG, 0, 16, 20⟩
abbrev TB_PPS_CFG_KI : RF := ⟨.TB_PPS_CFG, 0, 36, 4⟩
abbrev TB_PPS_CFG_KP : RF := ⟨.TB_PPS_CFG, 0, 40, 4⟩
abbrev TB_PPS_CFG_MAX_PPM : RF := ⟨.TB_PPS_CFG, 0, 44, 8⟩
abbrev TB_PPS_CAP_NS : RF := ⟨.TB_PPS_CAP, 0, 0, 30⟩
abbrev TB_PPS_CAP_ERR : RF := ⟨.TB_PPS_CAP, 0, 32, 32⟩
abbrev TB_STATUS_SET : RF := ⟨.TB_STATUS, 0, 0, 1⟩
abbrev TB_STATUS_LOCKED : RF := ⟨.TB_STATUS, 0, 1, 1⟩
abbrev TB_STATUS_HOLDOVER : RF := ⟨.TB_STATUS, 0, 2, 1⟩
abbrev TB_STATUS_LFO : RF := ⟨.TB_STATUS, 0, 3, 1⟩
abbrev TB_STATUS_FREQ : RF := ⟨.TB_STATUS, 0, 32, 32⟩
abbrev TB_TOD_SEC : RF := ⟨.TB_TOD, 0, 0, 48⟩
abbrev TB_TOD_CTL_NS : RF := ⟨.TB_TOD_CTL, 0, 0, 30⟩
abbrev TB_TOD_CTL_ARM : RF := ⟨.TB_TOD_CTL, 0, 32, 1⟩
abbrev TB_TOD_CTL_SET : RF := ⟨.TB_TOD_CTL, 0, 33, 1⟩
abbrev TB_STEP_OFFSET : RF := ⟨.TB_STEP, 0, 0, 32⟩
abbrev TB_CNT_PPS_ACCEPT : RF := ⟨.TB_CNT, 0, 0, 32⟩
abbrev TB_CNT_PPS_REJECT : RF := ⟨.TB_CNT, 0, 32, 16⟩
abbrev TB_CNT_PPS_MISSED : RF := ⟨.TB_CNT, 0, 48, 16⟩
abbrev RNG_CFG_VALID (i : Nat) : RF := ⟨.RNG_CFG, i, 0, 1⟩
abbrev RNG_CFG_TYPE (i : Nat) : RF := ⟨.RNG_CFG, i, 1, 2⟩
abbrev RNG_CFG_SIZE_LOG2 (i : Nat) : RF := ⟨.RNG_CFG, i, 3, 5⟩
abbrev RNG_CFG_SLICE (i : Nat) : RF := ⟨.RNG_CFG, i, 8, 8⟩
abbrev RNG_CFG_COMPLETION_RING (i : Nat) : RF := ⟨.RNG_CFG, i, 16, 15⟩
abbrev RNG_CFG_WEIGHT (i : Nat) : RF := ⟨.RNG_CFG, i, 32, 8⟩
abbrev RNG_CFG_BURST (i : Nat) : RF := ⟨.RNG_CFG, i, 40, 7⟩
abbrev RNG_CFG_ESLOTS_LOG2 (i : Nat) : RF := ⟨.RNG_CFG, i, 48, 2⟩
abbrev RNG_CFG_HOLD (i : Nat) : RF := ⟨.RNG_CFG, i, 56, 7⟩
abbrev RNG_IOVA_IOVA (i : Nat) : RF := ⟨.RNG_IOVA, i, 6, 58⟩
abbrev RNG_CTL_ENABLE (i : Nat) : RF := ⟨.RNG_CTL, i, 0, 1⟩
abbrev RNG_CTL_CLR_CNT (i : Nat) : RF := ⟨.RNG_CTL, i, 1, 1⟩
abbrev RNG_CTL_STEER (i : Nat) : RF := ⟨.RNG_CTL, i, 8, 8⟩
abbrev RNG_CTL_EVENT_RING (i : Nat) : RF := ⟨.RNG_CTL, i, 16, 15⟩
abbrev RNG_CTL_EVENT_EN (i : Nat) : RF := ⟨.RNG_CTL, i, 31, 1⟩
abbrev RNG_CTL_FETCH_TMO (i : Nat) : RF := ⟨.RNG_CTL, i, 32, 10⟩
abbrev RNG_CTL_IRQ_EN (i : Nat) : RF := ⟨.RNG_CTL, i, 48, 1⟩
abbrev RNG_CTL_VECTOR (i : Nat) : RF := ⟨.RNG_CTL, i, 49, 11⟩
abbrev RNG_IRQ_MOD_COUNT (i : Nat) : RF := ⟨.RNG_IRQ, i, 0, 8⟩
abbrev RNG_IRQ_MOD_US (i : Nat) : RF := ⟨.RNG_IRQ, i, 16, 10⟩
abbrev RNG_IDX_PROD (i : Nat) : RF := ⟨.RNG_IDX, i, 0, 32⟩
abbrev RNG_IDX_CONS (i : Nat) : RF := ⟨.RNG_IDX, i, 32, 32⟩
abbrev RNG_STATUS_STATE (i : Nat) : RF := ⟨.RNG_STATUS, i, 0, 3⟩
abbrev RNG_STATUS_ERR_CAUSE (i : Nat) : RF := ⟨.RNG_STATUS, i, 3, 5⟩
abbrev RNG_STATUS_GATED (i : Nat) : RF := ⟨.RNG_STATUS, i, 8, 1⟩
abbrev RNG_STATUS_NOTICE_SENT (i : Nat) : RF := ⟨.RNG_STATUS, i, 9, 1⟩
abbrev RNG_STATUS_HELD (i : Nat) : RF := ⟨.RNG_STATUS, i, 16, 7⟩
abbrev RNG_STATUS_ERR_INDEX (i : Nat) : RF := ⟨.RNG_STATUS, i, 32, 32⟩
abbrev RNG_PROG_FETCHED (i : Nat) : RF := ⟨.RNG_PROG, i, 0, 32⟩
abbrev RNG_PROG_OWED (i : Nat) : RF := ⟨.RNG_PROG, i, 32, 32⟩
abbrev RNG_CNT_ENTRIES (i : Nat) : RF := ⟨.RNG_CNT, i, 0, 32⟩
abbrev RNG_CNT_STALLS (i : Nat) : RF := ⟨.RNG_CNT, i, 32, 16⟩
abbrev RNG_CNT_DB_REFUSED (i : Nat) : RF := ⟨.RNG_CNT, i, 48, 8⟩
abbrev RNG_CNT_DISCARDS (i : Nat) : RF := ⟨.RNG_CNT, i, 56, 8⟩
abbrev LM_CTL_CLR_CNT : RF := ⟨.LM_CTL, 0, 0, 1⟩
abbrev LM_CTL_RA_EN : RF := ⟨.LM_CTL, 0, 1, 1⟩
abbrev LM_CTL_PRED_CLR : RF := ⟨.LM_CTL, 0, 2, 1⟩
abbrev LM_STATUS_THREADS_BUSY : RF := ⟨.LM_STATUS, 0, 0, 13⟩
abbrev LM_STATUS_IN_SERVICE : RF := ⟨.LM_STATUS, 0, 16, 8⟩
abbrev LM_TMO_ACC_TMO : RF := ⟨.LM_TMO, 0, 0, 14⟩
abbrev LM_CL_CTL_OUT : RF := ⟨.LM_CL_CTL, 0, 0, 8⟩
abbrev LM_CL_CTL_RETURN : RF := ⟨.LM_CL_CTL, 0, 8, 8⟩
abbrev LM_CL_STATUS_STATE_0 : RF := ⟨.LM_CL_STATUS, 0, 0, 3⟩
abbrev LM_CL_STATUS_STATE_1 : RF := ⟨.LM_CL_STATUS, 0, 4, 3⟩
abbrev LM_CL_STATUS_STATE_2 : RF := ⟨.LM_CL_STATUS, 0, 8, 3⟩
abbrev LM_CL_STATUS_STATE_3 : RF := ⟨.LM_CL_STATUS, 0, 12, 3⟩
abbrev LM_CL_STATUS_STATE_4 : RF := ⟨.LM_CL_STATUS, 0, 16, 3⟩
abbrev LM_CL_STATUS_STATE_5 : RF := ⟨.LM_CL_STATUS, 0, 20, 3⟩
abbrev LM_CL_STATUS_STATE_6 : RF := ⟨.LM_CL_STATUS, 0, 24, 3⟩
abbrev LM_CL_STATUS_STATE_7 : RF := ⟨.LM_CL_STATUS, 0, 28, 3⟩
abbrev LM_CNT_COUNT (i : Nat) : RF := ⟨.LM_CNT, i, 0, 64⟩
abbrev LM_TBL_CFG_VALID (i : Nat) : RF := ⟨.LM_TBL_CFG, i, 0, 1⟩
abbrev LM_TBL_CFG_KIND (i : Nat) : RF := ⟨.LM_TBL_CFG, i, 1, 3⟩
abbrev LM_TBL_CFG_SLICE (i : Nat) : RF := ⟨.LM_TBL_CFG, i, 8, 8⟩
abbrev LM_TBL_CFG_ENABLE (i : Nat) : RF := ⟨.LM_TBL_CFG, i, 16, 1⟩
abbrev LM_TBL_CFG_IDLE (i : Nat) : RF := ⟨.LM_TBL_CFG, i, 17, 1⟩
abbrev LM_TBL_BASE_BASE (i : Nat) : RF := ⟨.LM_TBL_BASE, i, 6, 46⟩
abbrev LM_TBL_SIZE_SIZE (i : Nat) : RF := ⟨.LM_TBL_SIZE, i, 6, 46⟩
abbrev LM_TBL_PARAM_PARAM (i : Nat) : RF := ⟨.LM_TBL_PARAM, i, 0, 64⟩
abbrev FLW_W0_TC (i : Nat) : RF := ⟨.FLW_W0, i, 0, 28⟩
abbrev FLW_W0_TP (i : Nat) : RF := ⟨.FLW_W0, i, 32, 28⟩
abbrev FLW_W1_LAST (i : Nat) : RF := ⟨.FLW_W1, i, 0, 32⟩
abbrev FLW_W1_PROFILE (i : Nat) : RF := ⟨.FLW_W1, i, 32, 10⟩
abbrev FLW_W1_VALID (i : Nat) : RF := ⟨.FLW_W1, i, 42, 1⟩
abbrev FLW_W1_SLICE (i : Nat) : RF := ⟨.FLW_W1, i, 48, 8⟩
abbrev INT_CTL_CLR_CNT : RF := ⟨.INT_CTL, 0, 0, 1⟩
abbrev INT_CTL_RETIRE_EN : RF := ⟨.INT_CTL, 0, 1, 1⟩
abbrev INT_CTL_CE_THRESH : RF := ⟨.INT_CTL, 0, 4, 16⟩
abbrev INT_CTL_ROW_CE : RF := ⟨.INT_CTL, 0, 24, 8⟩
abbrev INT_EVQ_BASE_BASE : RF := ⟨.INT_EVQ_BASE, 0, 5, 18⟩
abbrev INT_EVQ_BASE_SIZE_LOG2 : RF := ⟨.INT_EVQ_BASE, 0, 24, 4⟩
abbrev INT_EVQ_BASE_EN : RF := ⟨.INT_EVQ_BASE, 0, 63, 1⟩
abbrev INT_EVQ_IDX_PROD : RF := ⟨.INT_EVQ_IDX, 0, 0, 32⟩
abbrev INT_EVQ_IDX_CONS : RF := ⟨.INT_EVQ_IDX, 0, 32, 32⟩
abbrev INT_EVQ_IRQ_IRQ_COUNT : RF := ⟨.INT_EVQ_IRQ, 0, 0, 12⟩
abbrev INT_EVQ_IRQ_IRQ_US : RF := ⟨.INT_EVQ_IRQ, 0, 16, 10⟩
abbrev INT_EVQ_CNT_LOST : RF := ⟨.INT_EVQ_CNT, 0, 0, 32⟩
abbrev INT_EVQ_CNT_HOLD_LOST : RF := ⟨.INT_EVQ_CNT, 0, 32, 16⟩
abbrev INT_FE_LOG_RECORD (i : Nat) : RF := ⟨.INT_FE_LOG, i, 0, 64⟩
abbrev INT_SCRUB_CTL_GO : RF := ⟨.INT_SCRUB_CTL, 0, 0, 1⟩
abbrev INT_SCRUB_CTL_ABORT : RF := ⟨.INT_SCRUB_CTL, 0, 1, 1⟩
abbrev INT_SCRUB_CTL_MEM : RF := ⟨.INT_SCRUB_CTL, 0, 2, 4⟩
abbrev INT_SCRUB_CTL_INSTANCE : RF := ⟨.INT_SCRUB_CTL, 0, 8, 8⟩
abbrev INT_SCRUB_CTL_RATE : RF := ⟨.INT_SCRUB_CTL, 0, 16, 13⟩
abbrev INT_SCRUB_START_INDEX : RF := ⟨.INT_SCRUB_START, 0, 0, 48⟩
abbrev INT_SCRUB_END_INDEX : RF := ⟨.INT_SCRUB_END, 0, 0, 48⟩
abbrev INT_SCRUB_STATUS_BUSY : RF := ⟨.INT_SCRUB_STATUS, 0, 0, 1⟩
abbrev INT_SCRUB_STATUS_RESULT : RF := ⟨.INT_SCRUB_STATUS, 0, 1, 2⟩
abbrev INT_SCRUB_STATUS_NEXT : RF := ⟨.INT_SCRUB_STATUS, 0, 16, 48⟩
abbrev INT_SCRUB_SUM_SUMMARY (i : Nat) : RF := ⟨.INT_SCRUB_SUM, i, 0, 64⟩
abbrev INT_TEST_SEL_MEM : RF := ⟨.INT_TEST_SEL, 0, 0, 4⟩
abbrev INT_TEST_SEL_INSTANCE : RF := ⟨.INT_TEST_SEL, 0, 8, 8⟩
abbrev INT_TEST_SEL_INDEX : RF := ⟨.INT_TEST_SEL, 0, 16, 48⟩
abbrev INT_TEST_CTL_WRITE_RAW : RF := ⟨.INT_TEST_CTL, 0, 0, 1⟩
abbrev INT_TEST_CTL_READ_RAW : RF := ⟨.INT_TEST_CTL, 0, 1, 1⟩
abbrev INT_TEST_CTL_DONE : RF := ⟨.INT_TEST_CTL, 0, 2, 1⟩
abbrev INT_TEST_META_META : RF := ⟨.INT_TEST_META, 0, 0, 32⟩
abbrev INT_TEST_CHECK_CHECK : RF := ⟨.INT_TEST_CHECK, 0, 0, 32⟩
abbrev INT_TEST_DATA_DATA (i : Nat) : RF := ⟨.INT_TEST_DATA, i, 0, 64⟩
abbrev INT_RETIRE_STATUS_COUNT : RF := ⟨.INT_RETIRE_STATUS, 0, 0, 14⟩
abbrev INT_RETIRE_STATUS_FULL : RF := ⟨.INT_RETIRE_STATUS, 0, 16, 1⟩
abbrev INT_RETIRE_ADD_BOBBIN : RF := ⟨.INT_RETIRE_ADD, 0, 0, 29⟩
abbrev INT_REPAIR_STATUS_SOFT : RF := ⟨.INT_REPAIR_STATUS, 0, 0, 16⟩
abbrev INT_FAULTY_SOURCE : RF := ⟨.INT_FAULTY, 0, 0, 8⟩
abbrev INT_FAULTY_INDEX : RF := ⟨.INT_FAULTY, 0, 8, 24⟩
abbrev INT_LEAKED_BOBBINS : RF := ⟨.INT_LEAKED, 0, 0, 32⟩
abbrev INT_CNT_CE_COUNT (i : Nat) : RF := ⟨.INT_CNT_CE, i, 0, 64⟩
abbrev INT_CNT_POISON_COUNT (i : Nat) : RF := ⟨.INT_CNT_POISON, i, 0, 64⟩
abbrev INT_CNT_UE_COUNT (i : Nat) : RF := ⟨.INT_CNT_UE, i, 0, 64⟩
abbrev INT_CNT_PIN_COUNT (i : Nat) : RF := ⟨.INT_CNT_PIN, i, 0, 64⟩
abbrev INT_SLICE_EVR_RING (i : Nat) : RF := ⟨.INT_SLICE_EVR, i, 0, 15⟩
abbrev INT_SLICE_EVR_EN (i : Nat) : RF := ⟨.INT_SLICE_EVR, i, 15, 1⟩
abbrev TEN_STATUS_STATE (i : Nat) : RF := ⟨.TEN_STATUS, i, 0, 3⟩
abbrev TEN_STATUS_VALID (i : Nat) : RF := ⟨.TEN_STATUS, i, 3, 1⟩
abbrev TEN_STATUS_HOST (i : Nat) : RF := ⟨.TEN_STATUS, i, 4, 1⟩
abbrev TEN_STATUS_VCS (i : Nat) : RF := ⟨.TEN_STATUS, i, 8, 8⟩
abbrev TEN_STATUS_PASID (i : Nat) : RF := ⟨.TEN_STATUS, i, 16, 20⟩
abbrev TEN_CTL_ENABLE (i : Nat) : RF := ⟨.TEN_CTL, i, 0, 1⟩
abbrev TEN_CTL_COUNTER_PAGE (i : Nat) : RF := ⟨.TEN_CTL, i, 1, 1⟩
abbrev TEN_VIOL_VALID (i : Nat) : RF := ⟨.TEN_VIOL, i, 0, 1⟩
abbrev TEN_VIOL_CAUSE (i : Nat) : RF := ⟨.TEN_VIOL, i, 1, 3⟩
abbrev TEN_VIOL_ACCESS (i : Nat) : RF := ⟨.TEN_VIOL, i, 4, 4⟩
abbrev TEN_VIOL_SRC_KIND (i : Nat) : RF := ⟨.TEN_VIOL, i, 8, 3⟩
abbrev TEN_VIOL_SRC_ID (i : Nat) : RF := ⟨.TEN_VIOL, i, 16, 8⟩
abbrev TEN_VIOL_WINDOW (i : Nat) : RF := ⟨.TEN_VIOL, i, 32, 14⟩
abbrev TEN_VIOL_ADDR_ADDR (i : Nat) : RF := ⟨.TEN_VIOL_ADDR, i, 0, 52⟩
abbrev TEN_VIOL_TIME_TIME64 (i : Nat) : RF := ⟨.TEN_VIOL_TIME, i, 0, 64⟩
abbrev TEN_VIOL_COUNT_COUNT (i : Nat) : RF := ⟨.TEN_VIOL_COUNT, i, 0, 32⟩
abbrev TEN_OBJ_SEL_KIND (i : Nat) : RF := ⟨.TEN_OBJ_SEL, i, 0, 2⟩
abbrev TEN_OBJ_SEL_INDEX (i : Nat) : RF := ⟨.TEN_OBJ_SEL, i, 16, 20⟩
abbrev TEN_OBJ_STATUS_OWNED (i : Nat) : RF := ⟨.TEN_OBJ_STATUS, i, 0, 1⟩
abbrev TEN_OBJ_STATUS_REFUSED (i : Nat) : RF := ⟨.TEN_OBJ_STATUS, i, 1, 1⟩
abbrev TEN_OBJ_DATA_DATA (i : Nat) : RF := ⟨.TEN_OBJ_DATA, i, 0, 64⟩

end Sys2Proof.Machine
end

