-- ==== Sys2Proof/Machine/RegTable.lean ====
section
/-!
DEFINITION. The register table: what each register description of the spec's chapters and Table 19.3 say of its place,
its fields, their access types, reset values and ranges. Reset values that depend on the index stand in RegFile.lean.
-/
namespace Sys2Proof.Machine

/-- A field without a range. -/
def fd (lo width : Nat) (acc : Acc) (reset : Nat) : FieldDesc := ⟨lo, width, acc, reset, none⟩

/-- A field whose writes must keep to a range. -/
def fr (lo width : Nat) (acc : Acc) (reset : Nat) (a b : Int) : FieldDesc := ⟨lo, width, acc, reset, some (a, b)⟩

/-- The description of every register. -/
def RegKind.desc : RegKind → RegDesc
  | .GLB_ID => ⟨.GLB, 0, [], [fd 0 16 .RO 0x9600, fd 16 8 .RO 0xb0, fd 24 8 .RO 0x58, fd 32 1 .RO 0]⟩
  | .GLB_CAP0 => ⟨.GLB, 8, [], [fd 0 64 .RO 0x5720402040800100]⟩
  | .GLB_CAP1 => ⟨.GLB, 0x10, [], [fd 0 64 .RO 0x40600e0f140f1217]⟩
  | .GLB_LIFECYCLE => ⟨.GLB, 0x18, [], [fd 0 1 .RO 0, fd 1 1 .RO 0]⟩
  | .GLB_STRUCT_CTL => ⟨.GLB, 0x40, [], [fd 0 1 .RW 0, fd 1 1 .WO 0]⟩
  | .GLB_STRUCT_STATUS => ⟨.GLB, 0x48, [], [fd 0 3 .RO 0, fd 3 1 .RO 0, fd 4 1 .RO 0, fd 8 8 .RO 0, fd 16 16 .RO 0,
      fd 32 8 .RO 0, fd 40 16 .RO 0, fd 56 8 .RO 0]⟩
  | .GLB_STRUCT_DETAIL => ⟨.GLB, 0x50, [], [fd 0 16 .RO 0, fd 16 16 .RO 0xffff]⟩
  | .GLB_STRUCT_ADDR => ⟨.GLB, 0x58, [], [fd 0 52 .RO 0]⟩
  | .GLB_RESET_CTL => ⟨.GLB, 0x60, [], [fd 0 1 .WO 0, fd 8 8 .WO 0]⟩
  | .GLB_ARB_CFG => ⟨.GLB, 0x80, [], [fd 0 64 .RWS 0]⟩
  | .GLB_CMD_CONFLICT => ⟨.GLB, 0x88, [], [fd 0 1 .RW1C 0, fd 1 3 .RO 0, fd 4 3 .RO 0, fd 8 8 .RO 0, fd 16 16 .RO 0]⟩
  | .GLB_CMD_CONFLICT_ADDR => ⟨.GLB, 0x90, [], [fd 0 26 .RO 0]⟩
  | .GLB_CMD_CONFLICT_DATA => ⟨.GLB, 0x98, [], [fd 0 64 .RO 0]⟩
  | .GLB_CMD_CONFLICT_MASK => ⟨.GLB, 0xa0, [], [fd 0 64 .RO 0]⟩
  | .GLB_CMD_CONFLICT_TIME => ⟨.GLB, 0xa8, [], [fd 0 64 .RO 0]⟩
  | .GLB_PATH_CNT => ⟨.GLB, 0xb0, [], [fd 0 32 .RO 0, fd 32 3 .RO 0, fd 35 2 .RO 0, fd 37 1 .WO 0, fd 38 26 .RO 0]⟩
  | .MLD_CTL => ⟨.MLD, 0x10000, [], [fr 0 4 .WO 0 0 4, fd 8 1 .RWS 0, fd 9 1 .RWS 0]⟩
  | .MLD_STATUS => ⟨.MLD, 0x10008, [], [fd 0 2 .RO 0, fd 2 1 .RO 0, fd 3 1 .RO 0, fd 8 8 .RO 0, fd 16 16 .RO 0,
      fd 32 16 .RO 0]⟩
  | .MLD_SVN => ⟨.MLD, 0x10010, [], [fd 0 32 .RO 0]⟩
  | .MLD_BUILD_ID => ⟨.MLD, 0x10018, [], [fd 0 64 .RO 0]⟩
  | .MLD_SVN_MIN => ⟨.MLD, 0x10020, [], [fd 0 32 .RO 0]⟩
  | .MLD_STAGE_ADDR => ⟨.MLD, 0x10030, [], [fd 3 19 .RW 0]⟩
  | .MLD_STAGE_DATA => ⟨.MLD, 0x10038, [], [fd 0 64 .RW 0]⟩
  | .MLD_DIGEST => ⟨.MLD, 0x10040, [(6, 8)], [fd 0 64 .RO 0]⟩
  | .PWR_CTL => ⟨.PWR, 0x20000, [], [fd 0 1 .WO 0]⟩
  | .PWR_WAKE_TMO => ⟨.PWR, 0x20010, [], [fr 0 10 .RW 0x32 10 1000, fr 16 10 .RW 0x64 10 1000,
      fr 32 9 .RW 0x14 5 500, fr 48 4 .RW 2 1 15]⟩
  | .PWR_WAKE_TMO2 => ⟨.PWR, 0x20018, [], [fr 0 10 .RW 0xc8 10 1000]⟩
  | .PWR_DRAIN_TMO => ⟨.PWR, 0x20020, [], [fr 0 17 .RW 0x3e8 10 100000]⟩
  | .PWR_THERM_CTL => ⟨.PWR, 0x20028, [], [fr 0 8 .RW 0x6e 60 110]⟩
  | .PWR_THERM_STATUS => ⟨.PWR, 0x20030, [], [fd 0 8 .RO 0, fd 8 4 .RO 0, fd 12 5 .RO 0, fd 17 1 .RO 0,
      fd 18 8 .RWS 0]⟩
  | .PWR_AO_LDO => ⟨.PWR, 0x20038, [], [fd 0 1 .RW 0, fd 1 1 .RW1C 0]⟩
  | .PWR_CLK_STATUS => ⟨.PWR, 0x20040, [], [fd 0 1 .RO 0, fd 1 1 .RO 1, fd 2 1 .RO 0, fd 3 1 .RO 0]⟩
  | .PWR_RESET_CAUSE => ⟨.PWR, 0x20048, [], [fd 0 1 .RO 1, fd 1 1 .RO 0, fd 2 1 .RO 0, fd 3 1 .RO 0, fd 4 1 .RO 0,
      fd 5 1 .RO 0]⟩
  | .PWR_AVS => ⟨.PWR, 0x20050, [], [fd 0 10 .RO 0x334, fd 16 10 .RO 0x334, fd 32 8 .RW 0, fd 40 1 .RW1C 0]⟩
  | .PWR_DOM_CTL => ⟨.PWR, 0x21000, [(87, 0x10)], [fr 0 2 .RW 0 0 2, fd 2 1 .RW 0]⟩
  | .PWR_DOM_STATUS => ⟨.PWR, 0x21008, [(87, 0x10)], [fd 0 3 .RO 0, fd 3 3 .RO 0, fd 6 1 .RO 0, fd 8 4 .RO 0,
      fd 12 4 .RO 0, fd 16 20 .RO 0, fd 48 16 .RO 0]⟩
  | .SLP_CFG => ⟨.SLP, 0x30000, [(32, 0x100)], [fd 0 1 .RWL 0, fr 16 16 .RWL 0 1 65535, fr 32 16 .RWL 0 1 2000,
      fd 48 10 .RWL 0x64]⟩
  | .SLP_CTL => ⟨.SLP, 0x30008, [(32, 0x100)], [fd 0 1 .RW 0, fd 1 1 .RW 0, fd 2 1 .WO 0, fd 3 1 .WO 0]⟩
  | .SLP_VWIN => ⟨.SLP, 0x30010, [(32, 0x100)], [fr 0 16 .RW 0x2a30 9000 15000, fr 16 16 .RW 0x27d8 9000 15000,
      fr 32 16 .RW 0x36b0 9000 15000, fr 48 16 .RW 0x3520 9000 15000]⟩
  | .SLP_LIM => ⟨.SLP, 0x30018, [(32, 0x100)], [fr 0 6 .RW 0x19 5 50, fr 8 6 .RW 0xa 2 40, fr 16 16 .RW 0x64 1 2000]⟩
  | .SLP_TMR => ⟨.SLP, 0x30020, [(32, 0x100)], [fr 0 10 .RW 0x64 10 1000, fr 16 10 .RW 0x64 10 500,
      fr 32 10 .RW 0x32 1 600, fr 48 10 .RW 0xc8 10 1000]⟩
  | .SLP_STATUS => ⟨.SLP, 0x30028, [(32, 0x100)], [fd 0 4 .RO 0, fd 4 1 .RO 0, fd 5 1 .RO 0, fd 6 1 .RO 0,
      fd 7 1 .RO 0, fd 8 3 .RO 0, fd 11 1 .RO 0, fd 16 10 .RO 0, fd 32 10 .RO 0, fd 48 10 .RO 0]⟩
  | .SLP_MEAS => ⟨.SLP, 0x30030, [(32, 0x100)], [fd 0 16 .RO 0, fd 16 16 .RO 0, fd 32 16 .RO 0, fd 48 16 .RO 0]⟩
  | .SLP_CNT => ⟨.SLP, 0x30038, [(32, 0x100)], [fd 0 16 .RO 0, fd 16 16 .RO 0, fd 32 16 .RO 0, fd 48 16 .RO 0]⟩
  | .SLP_FAULT_TIME => ⟨.SLP, 0x30040, [(32, 0x100)], [fd 0 64 .RO 0]⟩
  | .TWN_ROLE => ⟨.TWN, 0x40000, [], [fd 0 4 .RO 0, fd 4 2 .RO 0, fd 6 1 .RO 0, fd 7 1 .RO 0, fd 8 1 .RO 0,
      fd 9 1 .RO 0, fd 10 1 .RO 0, fd 11 1 .RO 0, fd 12 1 .RO 0, fd 13 1 .RO 0, fd 16 4 .RO 0]⟩
  | .TWN_CTL => ⟨.TWN, 0x40008, [], [fd 0 1 .WO 0, fd 1 1 .WO 0, fd 2 1 .WO 0, fd 3 1 .WO 0, fd 4 1 .RW 0,
      fd 5 1 .WO 0, fr 16 10 .RW 0xa 1 1000, fr 32 10 .RW 0x64 1 1000, fr 48 10 .RW 0x64 10 1000]⟩
  | .TWN_SETTLE => ⟨.TWN, 0x40010, [], [fd 0 18 .RO 0, fd 18 18 .RO 0]⟩
  | .TWN_COPY => ⟨.TWN, 0x40018, [], [fd 0 32 .RO 0, fd 32 1 .RO 0]⟩
  | .TWN_TAKEOVER_TIME => ⟨.TWN, 0x40020, [], [fd 0 64 .RO 0]⟩
  | .TWN_BLIND => ⟨.TWN, 0x40028, [], [fd 0 32 .RO 0]⟩
  | .TWN_MIRROR => ⟨.TWN, 0x40030, [], [fd 0 18 .RO 0]⟩
  | .TWN_CNT => ⟨.TWN, 0x40100, [(12, 8)], [fd 0 64 .RO 0]⟩
  | .TWN_CFG => ⟨.TWN, 0x41000, [], [fd 0 1 .RWL 0, fd 1 1 .RWL 0, fr 8 6 .RWL 5 3 32]⟩
  | .TWN_SPN_CTL => ⟨.TWN, 0x41008, [], [fd 0 1 .RW 0, fd 1 1 .WO 0, fd 2 1 .WO 0, fr 8 10 .RW 0xa 2 1000,
      fr 20 4 .RW 4 1 15, fr 24 10 .RW 0x32 1 1000, fr 40 10 .RW 0x14 10 1000, fr 52 10 .RW 0x14 2 1000]⟩
  | .TWN_SPN_STATUS => ⟨.TWN, 0x41010, [], [fd 0 3 .RO 0, fd 4 6 .RO 0, fd 10 2 .RO 0, fd 12 1 .RO 0, fd 13 1 .RO 0,
      fd 14 1 .RO 0, fd 15 1 .RO 0, fd 16 5 .RO 0, fd 21 1 .RO 0, fd 22 5 .RO 0, fd 27 1 .RO 0, fd 28 4 .RO 0]⟩
  | .TWN_SPN_FAIL => ⟨.TWN, 0x41018, [], [fd 0 34 .RO 0]⟩
  | .TWN_SPN_TXSEQ => ⟨.TWN, 0x41020, [], [fd 0 16 .RO 0, fd 16 16 .RO 0xffff, fd 32 15 .RO 0, fd 48 16 .RO 0]⟩
  | .TWN_SPN_RXSEQ => ⟨.TWN, 0x41028, [], [fd 0 16 .RO 0]⟩
  | .TWN_SPN_SPARE_THRESH => ⟨.TWN, 0x41030, [], [fd 0 20 .RW 0x10000]⟩
  | .TWN_SPN_VCBUF => ⟨.TWN, 0x41040, [(8, 8)], [fd 0 15 .RW 0]⟩
  | .TWN_SPN_CRED => ⟨.TWN, 0x41080, [(8, 8)], [fd 0 16 .RO 0, fd 16 16 .RO 0]⟩
  | .TWN_SPN_RCRED => ⟨.TWN, 0x410c0, [(8, 8)], [fd 0 16 .RO 0, fd 16 16 .RO 0]⟩
  | .TWN_SPN_CNT => ⟨.TWN, 0x41100, [(16, 8)], [fd 0 64 .RO 0]⟩
  | .TWN_SPN_LANE => ⟨.TWN, 0x41200, [(34, 8)], [fd 0 20 .RO 0, fd 20 12 .RO 0, fd 32 1 .RO 0, fd 33 1 .RO 0,
      fd 34 1 .RO 0]⟩
  | .TWN_WHL_STATUS => ⟨.TWN, 0x42000, [], [fd 0 2 .RO 0, fd 2 1 .RO 0, fd 8 6 .RO 0, fd 16 16 .RO 0, fd 32 16 .RO 0]⟩
  | .TWN_WHL_CTL => ⟨.TWN, 0x42008, [], [fd 0 1 .WO 0]⟩
  | .TWN_WHL_PARTNER => ⟨.TWN, 0x42010, [], [fd 0 8 .RO 0, fd 8 8 .RO 0, fd 16 16 .RO 0]⟩
  | .TWN_WHL_DIGEST => ⟨.TWN, 0x42018, [], [fd 0 64 .RO 0]⟩
  | .TWN_WHL_TOFF => ⟨.TWN, 0x42020, [], [fd 0 32 .RO 0, fd 32 32 .RO 0]⟩
  | .TWN_WHL_FW_TX => ⟨.TWN, 0x42028, [(2, 8)], [fd 0 64 .RW 0]⟩
  | .TWN_WHL_FW_CTL => ⟨.TWN, 0x42038, [], [fd 0 1 .WO 0, fd 1 1 .RO 0, fd 2 1 .RW1C 0]⟩
  | .TWN_WHL_FW_RX => ⟨.TWN, 0x42040, [(2, 8)], [fd 0 64 .RO 0]⟩
  | .TWN_WHL_CNT => ⟨.TWN, 0x42100, [(7, 8)], [fd 0 64 .RO 0]⟩
  | .PMU_CTL => ⟨.PMU, 0x50000, [], [fd 0 1 .WO 0, fd 1 1 .RW 0]⟩
  | .PMU_CENSUS_CTL => ⟨.PMU, 0x50010, [], [fd 0 1 .RW 0, fd 1 1 .RW 0, fd 2 1 .RW 0, fr 8 24 .RW 0xf4240 1 10000000,
      fd 32 6 .RW 0]⟩
  | .PMU_CENSUS_MASK => ⟨.PMU, 0x50018, [], [fd 0 64 .RW 0]⟩
  | .PMU_CENSUS_BASE => ⟨.PMU, 0x50020, [], [fd 6 58 .RW 0]⟩
  | .PMU_CENSUS_SIZE => ⟨.PMU, 0x50028, [], [fr 0 5 .RW 0xc 12 30, fd 20 20 .RW 0]⟩
  | .PMU_CENSUS_STATUS => ⟨.PMU, 0x50030, [], [fd 0 32 .RO 0, fd 32 16 .RO 0]⟩
  | .PMU_BANK_CFG => ⟨.PMU, 0x50800, [(64, 8)], [fd 0 8 .RW 0, fd 8 1 .RW 0]⟩
  | .PMU_BANK_OVF => ⟨.PMU, 0x50a00, [(64, 8)], [fd 0 64 .RW1C 0]⟩
  | .PMU_FLT => ⟨.PMU, 0x51000, [(64, 0x40)], [fd 0 2 .RW 0, fd 8 8 .RW 0, fd 16 2 .RW 0, fd 24 8 .RW 0,
      fd 32 8 .RW 0xff, fd 40 1 .RW 0]⟩
  | .PMU_FLT_BASE => ⟨.PMU, 0x51008, [(64, 0x40)], [fd 0 52 .RW 0]⟩
  | .PMU_FLT_LIMIT => ⟨.PMU, 0x51010, [(64, 0x40)], [fd 0 52 .RW 0]⟩
  | .PMU_CFG => ⟨.PMU, 0x52000, [(1024, 8)], [fd 0 8 .RW 0, fd 8 6 .RW 0, fd 15 1 .RW 0, fd 16 8 .RW 0,
      fd 24 6 .RW 0, fd 31 1 .RW 0, fd 32 8 .RW 0, fd 40 6 .RW 0, fd 47 1 .RW 0, fd 48 8 .RW 0, fd 56 6 .RW 0,
      fd 63 1 .RW 0]⟩
  | .PMU_CNT => ⟨.PMU, 0x58000, [(4096, 8)], [fd 0 64 .RW 0]⟩
  | .TST_CMD => ⟨.TST, 0x60000, [], [fd 0 1 .WO 0, fd 1 1 .WO 0, fd 2 1 .RW 0, fr 4 7 .RW 0 0 86,
      fr 16 16 .RW 0x10 1 65535]⟩
  | .TST_STATUS => ⟨.TST, 0x60008, [], [fd 0 2 .RO 0, fd 2 2 .RO 0, fd 16 16 .RO 0]⟩
  | .TST_MISR => ⟨.TST, 0x60010, [], [fd 0 64 .RO 0]⟩
  | .TST_EXPECT => ⟨.TST, 0x60018, [], [fd 0 64 .RO 0]⟩
  | .DBG_UNLOCK => ⟨.DBG, 0x70000, [], [fd 0 1 .WO 0, fd 1 1 .WO 0, fd 2 1 .WO 0]⟩
  | .DBG_CHAL => ⟨.DBG, 0x70008, [], [fd 0 64 .RO 0]⟩
  | .DBG_TRACE_CTL => ⟨.DBG, 0x70100, [], [fd 0 1 .RW 0, fd 1 1 .RW 1, fd 8 7 .RW 0x7f]⟩
  | .DBG_TRACE_LO => ⟨.DBG, 0x70108, [], [fd 0 26 .RW 0]⟩
  | .DBG_TRACE_HI => ⟨.DBG, 0x70110, [], [fd 0 26 .RW 0x3ffffff]⟩
  | .DBG_TRACE_STATUS => ⟨.DBG, 0x70118, [], [fd 0 16 .RO 0, fd 16 1 .RO 0]⟩
  | .DBG_TRACE_IDX => ⟨.DBG, 0x70120, [], [fd 0 15 .RW 0]⟩
  | .DBG_TRACE_DATA => ⟨.DBG, 0x70128, [(4, 8)], [fd 0 64 .RO 0]⟩
  | .FWM_BOOT_STATUS => ⟨.FWM, 0x80000, [], [fd 0 3 .RO 0, fd 3 1 .RO 0, fd 4 1 .RO 0, fd 5 1 .RO 0, fd 16 16 .RO 0,
      fd 32 16 .RO 0, fd 48 8 .RWS 0]⟩
  | .FWM_BOOT_CTL => ⟨.FWM, 0x80008, [], [fd 0 1 .RWS 0]⟩
  | .FWM_SVN => ⟨.FWM, 0x80010, [], [fd 0 32 .RO 0, fd 32 32 .RO 0]⟩
  | .FWM_VERSION => ⟨.FWM, 0x80018, [], [fd 0 64 .RO 0]⟩
  | .FWM_WDOG => ⟨.FWM, 0x80020, [(4, 8)], [fr 0 14 .RW 0 0 10000, fd 16 1 .WO 0, fd 17 1 .RW1C 0]⟩
  | .FWM_CORE_CTL => ⟨.FWM, 0x80040, [], [fd 0 4 .WO 0]⟩
  | .FWM_MB_TMO => ⟨.FWM, 0x80048, [], [fr 0 13 .RW 0x64 1 6000]⟩
  | .FWM_SPI_ADDR => ⟨.FWM, 0x80080, [], [fd 0 64 .RW 0]⟩
  | .FWM_SPI_DATA => ⟨.FWM, 0x80088, [], [fd 0 64 .RW 0]⟩
  | .FWM_SPI_CMD => ⟨.FWM, 0x80090, [], [fd 0 64 .RW 0]⟩
  | .FWM_MB_CTL => ⟨.FWM, 0x81000, [(2, 0x400)], [fd 0 1 .WO 0, fd 1 1 .RO 0, fd 2 1 .RW1C 0]⟩
  | .FWM_MB_REQ => ⟨.FWM, 0x81100, [(2, 0x400), (32, 8)], [fd 0 64 .RW 0]⟩
  | .FWM_MB_RSP => ⟨.FWM, 0x81200, [(2, 0x400), (32, 8)], [fd 0 64 .RW 0]⟩
  | .OCT_STATUS => ⟨.OCT, 0x100000, [(32, 0x4000)], [fd 0 8 .RO 0, fd 8 8 .RO 0, fd 16 1 .RO 0, fd 17 1 .RO 1]⟩
  | .OCT_SLOT_CTL => ⟨.OCT, 0x100008, [(32, 0x4000)], [fr 0 10 .RW 0x64 100 1000, fd 10 1 .RW 0]⟩
  | .OCT_PORT_CFG => ⟨.OCT, 0x101000, [(32, 0x4000), (4, 0x400)], [fd 0 1 .RWL 0, fd 1 3 .RWL 0, fd 4 3 .RWL 0,
      fd 7 3 .RWL 0, fd 10 1 .RWL 0, fd 11 1 .RWL 0, fd 12 1 .RWL 0, fd 13 8 .RWL 0xff, fd 24 4 .RW 0]⟩
  | .OCT_PORT_CTL => ⟨.OCT, 0x101008, [(32, 0x4000), (4, 0x400)], [fd 0 1 .RW 0, fd 1 1 .WO 0, fd 2 1 .WO 0,
      fd 3 1 .RW 1, fd 4 3 .RW 0, fd 7 1 .RW 1, fd 8 1 .RW 0, fd 9 1 .RW 0, fr 10 11 .RW 0x1f4 10 2000,
      fd 21 3 .RW 3, fd 24 1 .WO 0]⟩
  | .OCT_PORT_STATUS => ⟨.OCT, 0x101010, [(32, 0x4000), (4, 0x400)], [fd 0 3 .RO 0, fd 4 4 .RO 0, fd 8 3 .RO 0,
      fd 12 5 .RO 0, fd 17 1 .RO 0, fd 18 1 .RO 0, fd 19 1 .RO 0, fd 20 1 .RO 0, fd 21 1 .RO 0, fd 22 1 .RO 0,
      fd 23 1 .RO 0]⟩
  | .OCT_PORT_TRAIN => ⟨.OCT, 0x101018, [(32, 0x4000), (4, 0x400)], [fd 0 8 .RO 0, fd 8 1 .RO 0, fd 9 1 .RO 0,
      fd 10 1 .RO 0, fd 16 16 .RO 0]⟩
  | .OCT_PORT_IDE => ⟨.OCT, 0x101020, [(32, 0x4000), (4, 0x400)], [fd 0 2 .RO 0, fd 2 2 .RO 0, fd 4 1 .RO 0,
      fd 16 16 .RO 0, fr 32 8 .RW 0xa 1 60]⟩
  | .OCT_PORT_CNT0 => ⟨.OCT, 0x101028, [(32, 0x4000), (4, 0x400)], [fd 0 16 .RO 0, fd 16 16 .RO 0, fd 32 16 .RO 0,
      fd 48 16 .RO 0]⟩
  | .OCT_PORT_CNT1 => ⟨.OCT, 0x101030, [(32, 0x4000), (4, 0x400)], [fd 0 32 .RO 0, fd 32 32 .RO 0]⟩
  | .OCT_PBR_ID => ⟨.OCT, 0x101038, [(32, 0x4000), (4, 0x400)], [fd 0 12 .RW 0]⟩
  | .OCT_EDGE_MAP => ⟨.OCT, 0x101100, [(32, 0x4000), (4, 0x400), (16, 8)], [fd 0 12 .RW 0, fd 12 1 .RW 0]⟩
  | .OCT_CRN_STATUS => ⟨.OCT, 0x102000, [(32, 0x4000)], [fd 0 14 .RO 0, fd 16 12 .RO 0]⟩
  | .OCT_CRN_CTL => ⟨.OCT, 0x102008, [(32, 0x4000)], [fd 0 1 .WO 0]⟩
  | .OCT_CRN_CNT_FWD => ⟨.OCT, 0x102010, [(32, 0x4000)], [fd 0 64 .RO 0]⟩
  | .OCT_CRN_CNT_XFER => ⟨.OCT, 0x102018, [(32, 0x4000)], [fd 0 64 .RO 0]⟩
  | .OCT_CRN_CNT_RETURN => ⟨.OCT, 0x102020, [(32, 0x4000)], [fd 0 64 .RO 0]⟩
  | .OCT_CRN_CNT_BOUNCE => ⟨.OCT, 0x102028, [(32, 0x4000)], [fd 0 64 .RO 0]⟩
  | .OCT_CRN_CNT_ABSORBED => ⟨.OCT, 0x102038, [(32, 0x4000)], [fd 0 64 .RO 0]⟩
  | .XB_STATUS => ⟨.XB, 0x200000, [], [fd 0 1 .RO 0, fd 1 4 .RO 0]⟩
  | .XB_PLANE_STATUS => ⟨.XB, 0x200008, [], [fd 0 4 .RO 0, fd 4 4 .RO 0, fd 8 4 .RO 0, fd 12 4 .RO 0, fd 16 4 .RO 0,
      fd 20 4 .RO 0, fd 24 4 .RO 0, fd 28 4 .RO 0]⟩
  | .XB_PLANE_CTL => ⟨.XB, 0x200010, [], [fd 0 4 .RW 0, fd 4 4 .WO 0]⟩
  | .XB_CTL => ⟨.XB, 0x200018, [], [fd 0 1 .WO 0, fd 1 1 .RW 1]⟩
  | .XB_BUF_STATUS => ⟨.XB, 0x200020, [], [fd 0 19 .RO 0x40000, fd 19 19 .RO 0, fd 38 19 .RO 0x2000]⟩
  | .XB_CLASS_CFG => ⟨.XB, 0x200100, [(8, 8)], [fr 0 8 .RW 1 1 255, fd 8 16 .RWL 0, fd 24 3 .RW 6,
      fr 32 17 .RW 0x3e8 10 100000]⟩
  | .XB_EXPRESS => ⟨.XB, 0x200140, [], [fd 0 64 .RWL 0]⟩
  | .XB_QSEL => ⟨.XB, 0x200180, [], [fr 0 8 .RW 0 0 167, fd 8 3 .RW 0]⟩
  | .XB_QSTAT => ⟨.XB, 0x200188, [], [fd 0 19 .RO 0, fd 19 17 .RO 0, fd 36 1 .RO 0]⟩
  | .XB_MIR_CFG => ⟨.XB, 0x200200, [(2, 0x40)], [fr 0 8 .RWL 0 0 127, fr 8 8 .RWL 0 0 127, fd 16 1 .RW 0,
      fd 17 1 .RW 0, fd 18 1 .RW 0, fd 19 1 .RWL 0, fd 24 8 .RW 0, fd 32 8 .RW 0xff, fd 40 8 .RW 0xff]⟩
  | .XB_MIR_WIN_BASE => ⟨.XB, 0x200208, [(2, 0x40)], [fd 0 52 .RW 0]⟩
  | .XB_MIR_WIN_LIMIT => ⟨.XB, 0x200210, [(2, 0x40)], [fd 0 52 .RW 0xfffffffffffff]⟩
  | .XB_MIR_DEST => ⟨.XB, 0x200218, [(2, 0x40)], [fd 12 40 .RW 0, fr 52 6 .RW 0xc 12 30]⟩
  | .XB_MIR_LIMIT => ⟨.XB, 0x200220, [(2, 0x40)], [fd 0 16 .RW 0x400]⟩
  | .XB_MIR_CNT => ⟨.XB, 0x200228, [(2, 0x40)], [fd 0 32 .RO 0, fd 32 32 .RO 0]⟩
  | .XB_CNT => ⟨.XB, 0x200300, [(9, 8)], [fd 0 64 .RO 0]⟩
  | .SQ_STATUS => ⟨.SQ, 0x300000, [(32, 0x4000)], [fd 0 14 .RO 0, fd 14 8 .RO 0, fd 22 9 .RO 0, fd 31 11 .RO 0,
      fd 42 12 .RO 0]⟩
  | .SQ_CTL => ⟨.SQ, 0x300008, [(32, 0x4000)], [fd 0 1 .RW 1, fr 1 12 .RW 0x400 1 2048, fd 13 1 .WO 0]⟩
  | .SQ_TMO => ⟨.SQ, 0x300010, [(32, 0x4000)], [fr 0 10 .RW 0x14 1 1000, fr 16 14 .RW 0x64 1 10000]⟩
  | .SQ_RETRY_CTL => ⟨.SQ, 0x300018, [(32, 0x4000)], [fr 0 14 .RW 0xc8 50 10000, fr 16 14 .RW 0x64 10 10000]⟩
  | .SQ_EVICT_CTL => ⟨.SQ, 0x300020, [(32, 0x4000)], [fr 0 20 .RW 0x4000 1 1048575]⟩
  | .SQ_OCC => ⟨.SQ, 0x300028, [(32, 0x4000)], [fd 0 19 .RO 0, fd 19 19 .RO 0, fd 38 19 .RO 0]⟩
  | .SQ_EVICT_STAT => ⟨.SQ, 0x300030, [(32, 0x4000)], [fd 0 32 .RO 0, fd 32 1 .RO 0]⟩
  | .SQ_CNT => ⟨.SQ, 0x300100, [(32, 0x4000), (32, 8)], [fd 0 64 .RO 0]⟩
  | .SQ_PROBE_ADDR => ⟨.SQ, 0x300200, [(32, 0x4000)], [fd 6 46 .RW 0]⟩
  | .SQ_PROBE_RESULT => ⟨.SQ, 0x300208, [(32, 0x4000)], [fd 0 1 .RO 0, fd 1 1 .RO 0, fd 2 1 .RO 0, fd 3 1 .RO 0,
      fd 4 4 .RO 0, fd 8 2 .RO 0, fd 10 1 .RO 0, fd 11 1 .RO 0, fd 12 4 .RO 0, fd 16 14 .RO 0, fd 30 1 .RO 0]⟩
  | .SQ_PROBE_SHARERS => ⟨.SQ, 0x300210, [(32, 0x4000)], [fd 0 64 .RO 0]⟩
  | .SQ_ORD_STATUS => ⟨.SQ, 0x300220, [(32, 0x4000)], [fd 0 6 .RO 0, fd 8 12 .RO 0, fd 20 12 .RO 0]⟩
  | .SQ_PURGE_MASK => ⟨.SQ, 0x300228, [(32, 0x4000)], [fd 0 64 .RO 0]⟩
  | .SQ_PURGE_STATUS => ⟨.SQ, 0x300230, [(32, 0x4000)], [fd 0 14 .RO 0, fd 14 1 .RO 0]⟩
  | .SQ_HOME_SEL => ⟨.SQ, 0x303000, [], [fd 0 4 .RWL 0]⟩
  | .SQ_CD_CFG => ⟨.SQ, 0x303100, [(16, 0x10)], [fd 0 1 .RWL 0, fd 1 1 .RWL 0, fd 2 1 .RWL 0]⟩
  | .SQ_CD_AGENTS => ⟨.SQ, 0x303108, [(16, 0x10)], [fd 0 64 .RWL 0]⟩
  | .SQ_FMD_BASE => ⟨.SQ, 0x303200, [(32, 0x40)], [fd 28 24 .RW 0]⟩
  | .SQ_FMD_SIZE => ⟨.SQ, 0x303208, [(32, 0x40)], [fd 28 24 .RW 0]⟩
  | .SQ_FMD_CTL => ⟨.SQ, 0x303210, [(32, 0x40)], [fr 0 3 .RW 0 0 4, fr 3 4 .RW 8 8 14, fd 7 1 .RW 0, fd 8 1 .RO 0]⟩
  | .SQ_FMD_TGT0 => ⟨.SQ, 0x303218, [(32, 0x40)], [fd 0 64 .RW 0]⟩
  | .SQ_FMD_TGT1 => ⟨.SQ, 0x303220, [(32, 0x40)], [fd 0 64 .RW 0]⟩
  | .SQ_RANGE_BASE => ⟨.SQ, 0x303a00, [(64, 0x10)], [fd 21 31 .RWL 0]⟩
  | .SQ_RANGE_CFG => ⟨.SQ, 0x303a08, [(64, 0x10)], [fd 0 31 .RWL 0, fd 32 4 .RWL 0, fd 36 1 .RWL 0,
      fd 40 8 .RWL 0xff, fd 48 1 .RWL 0]⟩
  | .KSK_CTL => ⟨.KSK, 0x380000, [], [fd 0 1 .WO 0, fd 1 1 .WO 0, fd 2 1 .RW 1]⟩
  | .KSK_STATUS => ⟨.KSK, 0x380008, [], [fd 0 1 .RO 0]⟩
  | .KSK_BANK_STATUS => ⟨.KSK, 0x380010, [], [fd 0 3 .RO 0, fd 4 3 .RO 0, fd 8 3 .RO 0, fd 12 3 .RO 0]⟩
  | .KSK_BANK_CTL => ⟨.KSK, 0x380018, [], [fd 0 4 .RW 0, fd 4 4 .WO 0]⟩
  | .KSK_OCC => ⟨.KSK, 0x380020, [], [fd 0 21 .RO 0, fd 21 21 .RO 0]⟩
  | .KSK_CNT => ⟨.KSK, 0x380100, [(9, 8)], [fd 0 64 .RO 0]⟩
  | .KRB_WIN => ⟨.KRB, 0x400000, [(16384, 0x20), (4, 8)], [fd 0 64 .RW 0]⟩
  | .KRB_CWIN => ⟨.KRB, 0x480000, [(16384, 0x20), (4, 8)], [fd 0 64 .RO 0]⟩
  | .KRB_FENCE_CTL => ⟨.KRB, 0x500000, [], [fd 0 1 .WO 0, fr 16 10 .RW 0xa 1 1000]⟩
  | .KRB_FENCE_STATUS => ⟨.KRB, 0x500008, [], [fd 0 2 .RO 0, fd 2 2 .RO 0, fd 4 1 .RO 0, fd 16 16 .RO 0,
      fd 32 14 .RO 0, fd 48 14 .RO 0x3fff]⟩
  | .KRB_FENCE_ADDR => ⟨.KRB, 0x500010, [], [fd 0 52 .RO 0]⟩
  | .KRB_FENCE_PROG => ⟨.KRB, 0x500018, [], [fd 0 20 .RO 0]⟩
  | .KRB_FENCE_CNT => ⟨.KRB, 0x500020, [], [fd 0 32 .RO 0, fd 32 16 .RO 0, fd 48 16 .RO 0]⟩
  | .KRB_CTL => ⟨.KRB, 0x500028, [], [fd 0 1 .WO 0]⟩
  | .KRB_HOST_SLICE => ⟨.KRB, 0x500100, [(64, 8)], [fd 0 8 .RO 0, fd 8 1 .RO 0]⟩
  | .KRB_CNT => ⟨.KRB, 0x500300, [(3, 8)], [fd 0 64 .RO 0]⟩
  | .TM_CTL => ⟨.TM, 0x800000, [], [fd 0 1 .WO 0, fr 1 14 .RW 0x64 1 10000]⟩
  | .TM_STATUS => ⟨.TM, 0x800008, [], [fd 0 29 .RO 0]⟩
  | .TM_CARVE => ⟨.TM, 0x800010, [], [fr 0 9 .RWL 0 0 256, fd 9 29 .RWL 0]⟩
  | .TM_SPILL_BASE => ⟨.TM, 0x800018, [], [fd 30 22 .RWL 0, fr 52 11 .RWL 0 0 1024]⟩
  | .TM_SPILL_CTL => ⟨.TM, 0x800028, [], [fd 0 29 .RW 0x1000000, fd 32 10 .RW 0x190, fd 42 10 .RW 0x190]⟩
  | .TM_SPILL_STATUS => ⟨.TM, 0x800030, [], [fd 0 20 .RO 0, fd 20 16 .RO 0]⟩
  | .TM_QSEL => ⟨.TM, 0x800040, [], [fd 0 15 .RW 0]⟩
  | .TM_QPROBE => ⟨.TM, 0x800048, [], [fd 0 29 .RO 0, fd 32 29 .RO 0, fd 61 1 .RO 0]⟩
  | .TM_CMD => ⟨.TM, 0x800060, [], [fd 0 15 .WO 0, fr 16 2 .WO 0 1 1]⟩
  | .TM_CMD_STATUS => ⟨.TM, 0x800068, [], [fd 0 1 .RO 0, fd 32 32 .RO 0]⟩
  | .TM_CNT => ⟨.TM, 0x800100, [(21, 8)], [fd 0 64 .RO 0]⟩
  | .TM_SRING_CTL => ⟨.TM, 0x804000, [(256, 0x40)], [fd 0 1 .RW 0, fd 1 1 .RW 0, fr 2 13 .RW 0x40 1 4096,
      fr 16 10 .RW 0xa 1 1000]⟩
  | .TM_SRING_RET => ⟨.TM, 0x804008, [(256, 0x40)], [fd 6 58 .RW 0]⟩
  | .TM_SRING_STATUS => ⟨.TM, 0x804010, [(256, 0x40)], [fd 0 32 .RO 0, fd 32 13 .RO 0, fd 45 1 .RO 1]⟩
  | .TM_SRING_BOBBINS => ⟨.TM, 0x804018, [(256, 0x40)], [fd 0 19 .RO 0]⟩
  | .TM_SRING_CNT => ⟨.TM, 0x804020, [(256, 0x40)], [fd 0 16 .RO 0, fd 16 16 .RO 0, fd 32 16 .RO 0, fd 48 16 .RO 0]⟩
  | .TM_CHAN_EGR => ⟨.TM, 0x808000, [(512, 0x10)], [fd 0 15 .RW 0, fd 15 1 .RW 0, fd 16 1 .RW 0, fd 24 8 .RW 0]⟩
  | .TM_CHAN_EGR1 => ⟨.TM, 0x808008, [(512, 0x10)], [fd 0 1 .RO 0, fd 1 1 .RO 0, fd 2 1 .RO 0]⟩
  | .TM_WRED => ⟨.TM, 0x80a000, [(32, 0x10)], [fd 0 29 .RW 0, fd 32 29 .RW 0]⟩
  | .TM_WRED1 => ⟨.TM, 0x80a008, [(32, 0x10)], [fd 0 8 .RW 0, fd 8 4 .RW 9]⟩
  | .TM_MPROF => ⟨.TM, 0x80c000, [(1024, 0x20)], [fd 0 1 .RW 0, fd 1 1 .RW 0, fd 2 1 .RW 0, fd 3 1 .RW 1,
      fr 8 8 .RW 0 (-32) 63]⟩
  | .TM_MPROF1 => ⟨.TM, 0x80c008, [(1024, 0x20)], [fd 0 32 .RW 1, fd 32 32 .RW 1]⟩
  | .TM_MPROF2 => ⟨.TM, 0x80c010, [(1024, 0x20)], [fr 0 28 .RW 1 1 268435455, fr 32 28 .RW 1 1 268435455]⟩
  | .TM_RXB => ⟨.TM, 0x880000, [(32768, 0x10)], [fd 0 1 .RW 0, fd 2 2 .RW 0, fd 12 52 .RW 0]⟩
  | .TM_RXB1 => ⟨.TM, 0x880008, [(32768, 0x10)], [fd 0 32 .RO 0]⟩
  | .TM_QCFG => ⟨.TM, 0x900000, [(32768, 0x20)], [fd 0 29 .RW 0x10000, fd 32 29 .RW 0]⟩
  | .TM_QPOL => ⟨.TM, 0x900008, [(32768, 0x20)], [fd 0 5 .RW 0, fd 8 5 .RW 0, fd 16 5 .RW 0, fd 24 1 .RW 0,
      fd 40 8 .RW 0, fd 48 1 .RW 1, fd 49 1 .RWL 0]⟩
  | .TM_QOCC => ⟨.TM, 0x900010, [(32768, 0x20)], [fd 0 29 .RO 0, fd 32 29 .RO 0]⟩
  | .TM_QSTAT => ⟨.TM, 0x900018, [(32768, 0x20)], [fd 0 37 .RO 0, fd 37 27 .RO 0]⟩
  | .TM_GRP => ⟨.TM, 0xa00000, [(4096, 0x100)], [fd 0 15 .RW 0, fr 16 7 .RW 0 0 64, fd 23 1 .RW 0]⟩
  | .TM_GRP_MEM => ⟨.TM, 0xa00010, [(4096, 0x100), (16, 8)], [fd 0 16 .RW 0, fd 16 16 .RW 0, fd 32 16 .RW 0,
      fd 48 16 .RW 0]⟩
  | .TM_QSCH => ⟨.TM, 0xb00000, [(32768, 0x10)], [fr 0 21 .RW 0x4000 64 1048576, fd 21 1 .RW 0, fd 22 12 .RWL 0,
      fd 34 12 .RW 0, fd 46 18 .RW 0]⟩
  | .TM_QSCH_ST => ⟨.TM, 0xb00008, [(32768, 0x10)], [fd 0 25 .RO 0, fd 25 1 .RO 0, fd 26 1 .RO 0, fd 27 2 .RO 1,
      fd 32 32 .RO 0]⟩
  | .TM_BND_CFG => ⟨.TM, 0xb80000, [(4096, 0x20)], [fr 0 21 .RW 0x4000 64 1048576, fd 21 1 .RW 0, fd 32 9 .RWL 0,
      fd 41 3 .RW 0, fd 44 1 .RWL 0]⟩
  | .TM_BND_SHA => ⟨.TM, 0xb80008, [(4096, 0x20)], [fd 0 32 .RW 0, fd 32 32 .RW 0]⟩
  | .TM_BND_SHB => ⟨.TM, 0xb80010, [(4096, 0x20)], [fd 0 28 .RW 0, fd 32 28 .RW 0]⟩
  | .TM_BND_ST => ⟨.TM, 0xb80018, [(4096, 0x20)], [fd 0 25 .RO 0, fd 25 1 .RO 0, fd 27 2 .RO 1, fd 32 32 .RO 0]⟩
  | .TM_CH_CFG => ⟨.TM, 0xba0000, [(512, 0x40)], [fd 0 7 .RWL 0, fd 7 1 .RWL 0, fd 8 1 .RWL 0, fd 9 1 .RWL 0,
      fd 10 1 .RW 0, fr 16 8 .RW 0 (-32) 63, fr 24 21 .RW 0x4000 64 1048576]⟩
  | .TM_CH_SHA => ⟨.TM, 0xba0008, [(512, 0x40)], [fd 0 32 .RW 0, fd 32 32 .RW 0]⟩
  | .TM_CH_SHB => ⟨.TM, 0xba0010, [(512, 0x40)], [fd 0 28 .RW 0, fd 32 28 .RW 0]⟩
  | .TM_CH_LINE => ⟨.TM, 0xba0018, [(512, 0x40)], [fr 0 24 .RW 0 0 1600000]⟩
  | .TM_CH_ST => ⟨.TM, 0xba0020, [(512, 0x40)], [fd 0 25 .RO 0, fd 25 1 .RO 0, fd 27 2 .RO 1, fd 29 1 .RO 0]⟩
  | .TM_CH_PKTS => ⟨.TM, 0xba0028, [(512, 0x40)], [fd 0 64 .RO 0]⟩
  | .TM_CH_BYTES => ⟨.TM, 0xba0030, [(512, 0x40)], [fd 0 64 .RO 0]⟩
  | .TM_PORT_CFG => ⟨.TM, 0xbb0000, [(64, 0x20)], [fd 0 1 .RW 0]⟩
  | .TM_PORT_SHA => ⟨.TM, 0xbb0008, [(64, 0x20)], [fd 0 32 .RW 0, fd 32 32 .RW 0]⟩
  | .TM_PORT_SHB => ⟨.TM, 0xbb0010, [(64, 0x20)], [fd 0 28 .RW 0, fd 32 28 .RW 0]⟩
  | .TM_PORT_ST => ⟨.TM, 0xbb0018, [(64, 0x20)], [fd 25 1 .RO 0, fd 27 2 .RO 1, fd 30 2 .RO 0]⟩
  | .TM_SPROF_A => ⟨.TM, 0xbc0000, [(4096, 0x10)], [fd 0 32 .RW 0, fd 32 32 .RW 0]⟩
  | .TM_SPROF_B => ⟨.TM, 0xbc0008, [(4096, 0x10)], [fd 0 28 .RW 0, fd 32 28 .RW 0]⟩
  | .TM_GATE_CTL => ⟨.TM, 0xbe0000, [(512, 0x40)], [fd 0 8 .RW 0xff, fd 8 1 .RO 0, fd 9 1 .WO 0, fd 10 1 .RO 0,
      fd 11 1 .RO 0]⟩
  | .TM_GATE_A => ⟨.TM, 0xbe0008, [(512, 0x40), (2, 0x10)], [fr 0 30 .RW 0 0 999999999,
      fr 32 30 .RW 0 1000 1000000000]⟩
  | .TM_GATE_B => ⟨.TM, 0xbe0010, [(512, 0x40), (2, 0x10)], [fd 0 48 .RW 0, fr 48 11 .RW 0 1 1024]⟩
  | .TM_GATE_ST => ⟨.TM, 0xbe0028, [(512, 0x40)], [fd 0 10 .RO 0, fd 16 8 .RO 0xff, fd 32 32 .RO 0]⟩
  | .TM_GATE_CNT => ⟨.TM, 0xbe0030, [(512, 0x40)], [fd 0 32 .RO 0, fd 32 16 .RO 0, fd 48 16 .RO 0]⟩
  | .TM_GATE_SWT => ⟨.TM, 0xbe0038, [(512, 0x40)], [fd 0 64 .RO 0]⟩
  | .TM_GCL_SEL => ⟨.TM, 0xbe8000, [], [fd 0 9 .RW 0, fd 9 1 .RW 0, fd 16 10 .RW 0]⟩
  | .TM_GCL_DATA => ⟨.TM, 0xbe8008, [], [fd 0 8 .RW 0, fd 8 32 .RW 0]⟩
  | .TB_TIME_NS => ⟨.TM, 0xbf8000, [], [fd 0 30 .RO 0]⟩
  | .TB_TIME_SEC => ⟨.TM, 0xbf8008, [], [fd 0 48 .RO 0]⟩
  | .TB_TIME64 => ⟨.TM, 0xbf8010, [], [fd 0 64 .RO 0]⟩
  | .TB_CTL => ⟨.TM, 0xbf8018, [], [fd 0 1 .RWS 0, fd 1 1 .RWS 1, fd 2 1 .WO 0]⟩
  | .TB_ADDEND => ⟨.TM, 0xbf8020, [], [fd 0 44 .RO 0]⟩
  | .TB_PPS_CFG => ⟨.TM, 0xbf8028, [], [fr 0 16 .RWS 0x64 1 65535, fr 16 20 .RWS 0x64 1 1000000, fd 36 4 .RWS 2,
      fd 40 4 .RWS 1, fr 44 8 .RWS 0x64 1 255]⟩
  | .TB_PPS_CAP => ⟨.TM, 0xbf8030, [], [fd 0 30 .RO 0, fd 32 32 .RO 0]⟩
  | .TB_STATUS => ⟨.TM, 0xbf8038, [], [fd 0 1 .RO 0, fd 1 1 .RO 0, fd 2 1 .RO 0, fd 3 1 .RO 0, fd 32 32 .RO 0]⟩
  | .TB_TOD => ⟨.TM, 0xbf8040, [], [fd 0 48 .RWS 0]⟩
  | .TB_TOD_CTL => ⟨.TM, 0xbf8048, [], [fr 0 30 .RW 0 0 999999999, fd 32 1 .RW 0, fd 33 1 .WO 0]⟩
  | .TB_STEP => ⟨.TM, 0xbf8050, [], [fd 0 32 .WO 0]⟩
  | .TB_CNT => ⟨.TM, 0xbf8058, [], [fd 0 32 .RO 0, fd 32 16 .RO 0, fd 48 16 .RO 0]⟩
  | .RNG_CFG => ⟨.RNG, 0xc00000, [(32768, 0x40)], [fd 0 1 .RWL 0, fd 1 2 .RWL 0, fr 3 5 .RWL 0 4 16, fd 8 8 .RWL 0,
      fd 16 15 .RWL 0, fr 32 8 .RW 1 1 255, fr 40 7 .RW 1 1 64, fd 48 2 .RW 0, fr 56 7 .RW 0 0 64]⟩
  | .RNG_IOVA => ⟨.RNG, 0xc00008, [(32768, 0x40)], [fd 6 58 .RWL 0]⟩
  | .RNG_CTL => ⟨.RNG, 0xc00010, [(32768, 0x40)], [fd 0 1 .RW 0, fd 1 1 .WO 0, fd 8 8 .RW 0, fd 16 15 .RW 0,
      fd 31 1 .RW 0, fr 32 10 .RW 0x64 1 1000, fd 48 1 .RW 0, fd 49 11 .RW 0]⟩
  | .RNG_IRQ => ⟨.RNG, 0xc00018, [(32768, 0x40)], [fd 0 8 .RW 0, fr 16 10 .RW 0 0 1000]⟩
  | .RNG_IDX => ⟨.RNG, 0xc00020, [(32768, 0x40)], [fd 0 32 .RO 0, fd 32 32 .RO 0]⟩
  | .RNG_STATUS => ⟨.RNG, 0xc00028, [(32768, 0x40)], [fd 0 3 .RO 0, fd 3 5 .RO 0, fd 8 1 .RO 0, fd 9 1 .RO 0,
      fd 16 7 .RO 0, fd 32 32 .RO 0]⟩
  | .RNG_PROG => ⟨.RNG, 0xc00030, [(32768, 0x40)], [fd 0 32 .RO 0, fd 32 32 .RO 0]⟩
  | .RNG_CNT => ⟨.RNG, 0xc00038, [(32768, 0x40)], [fd 0 32 .RO 0, fd 32 16 .RO 0, fd 48 8 .RO 0, fd 56 8 .RO 0]⟩
  | .LM_CTL => ⟨.LM, 0xe00000, [], [fd 0 1 .WO 0, fd 1 1 .RW 1, fd 2 1 .WO 0]⟩
  | .LM_STATUS => ⟨.LM, 0xe00008, [], [fd 0 13 .RO 0, fd 16 8 .RO 0]⟩
  | .LM_TMO => ⟨.LM, 0xe00010, [], [fr 0 14 .RW 0x64 1 10000]⟩
  | .LM_CL_CTL => ⟨.LM, 0xe00018, [], [fd 0 8 .RW 0, fd 8 8 .WO 0]⟩
  | .LM_CL_STATUS => ⟨.LM, 0xe00020, [], [fd 0 3 .RO 0, fd 4 3 .RO 0, fd 8 3 .RO 0, fd 12 3 .RO 0, fd 16 3 .RO 0,
      fd 20 3 .RO 0, fd 24 3 .RO 0, fd 28 3 .RO 0]⟩
  | .LM_CNT => ⟨.LM, 0xe00100, [(10, 8)], [fd 0 64 .RO 0]⟩
  | .LM_TBL_CFG => ⟨.LM, 0xe01000, [(1024, 0x20)], [fd 0 1 .RWL 0, fr 1 3 .RWL 0 0 4, fd 8 8 .RWL 0, fd 16 1 .RW 0,
      fd 17 1 .RO 1]⟩
  | .LM_TBL_BASE => ⟨.LM, 0xe01008, [(1024, 0x20)], [fd 6 46 .RWL 0]⟩
  | .LM_TBL_SIZE => ⟨.LM, 0xe01010, [(1024, 0x20)], [fd 6 46 .RWL 0]⟩
  | .LM_TBL_PARAM => ⟨.LM, 0xe01018, [(1024, 0x20)], [fd 0 64 .RW 0]⟩
  | .FLW_W0 => ⟨.FLW, 0x1000000, [(1048576, 0x10)], [fd 0 28 .RW 0, fd 32 28 .RW 0]⟩
  | .FLW_W1 => ⟨.FLW, 0x1000008, [(1048576, 0x10)], [fd 0 32 .RW 0, fd 32 10 .RW 0, fd 42 1 .RW 0, fd 48 8 .RW 0]⟩
  | .INT_CTL => ⟨.INT, 0x2000000, [], [fd 0 1 .WO 0, fd 1 1 .RW 1, fr 4 16 .RW 0x400 1 65535, fr 24 8 .RW 0x10 1 255]⟩
  | .INT_EVQ_BASE => ⟨.INT, 0x2000010, [], [fd 5 18 .RW 0, fr 24 4 .RW 0xc 6 16, fd 63 1 .RW 0]⟩
  | .INT_EVQ_IDX => ⟨.INT, 0x2000018, [], [fd 0 32 .RO 0, fd 32 32 .RW 0]⟩
  | .INT_EVQ_IRQ => ⟨.INT, 0x2000020, [], [fr 0 12 .RW 0x10 1 4095, fr 16 10 .RW 0x64 1 1000]⟩
  | .INT_EVQ_CNT => ⟨.INT, 0x2000028, [], [fd 0 32 .RO 0, fd 32 16 .RO 0]⟩
  | .INT_FE_LOG => ⟨.INT, 0x2000030, [(4, 8)], [fd 0 64 .RWS 0]⟩
  | .INT_SCRUB_CTL => ⟨.INT, 0x2000100, [], [fd 0 1 .WO 0, fd 1 1 .WO 0, fd 2 4 .RW 0, fd 8 8 .RW 0,
      fr 16 13 .RW 0x40 1 4096]⟩
  | .INT_SCRUB_START => ⟨.INT, 0x2000108, [], [fd 0 48 .RW 0]⟩
  | .INT_SCRUB_END => ⟨.INT, 0x2000110, [], [fd 0 48 .RW 0]⟩
  | .INT_SCRUB_STATUS => ⟨.INT, 0x2000118, [], [fd 0 1 .RO 0, fd 1 2 .RO 0, fd 16 48 .RO 0]⟩
  | .INT_SCRUB_SUM => ⟨.INT, 0x2000120, [(4, 8)], [fd 0 64 .RO 0]⟩
  | .INT_TEST_SEL => ⟨.INT, 0x2000200, [], [fd 0 4 .RW 0, fd 8 8 .RW 0, fd 16 48 .RW 0]⟩
  | .INT_TEST_CTL => ⟨.INT, 0x2000208, [], [fd 0 1 .WO 0, fd 1 1 .WO 0, fd 2 1 .RO 1]⟩
  | .INT_TEST_META => ⟨.INT, 0x2000210, [], [fd 0 32 .RW 0]⟩
  | .INT_TEST_CHECK => ⟨.INT, 0x2000218, [], [fd 0 32 .RW 0]⟩
  | .INT_TEST_DATA => ⟨.INT, 0x2000220, [(8, 8)], [fd 0 64 .RW 0]⟩
  | .INT_RETIRE_STATUS => ⟨.INT, 0x2000300, [], [fd 0 14 .RO 0, fd 16 1 .RO 0]⟩
  | .INT_RETIRE_ADD => ⟨.INT, 0x2000308, [], [fd 0 29 .WO 0]⟩
  | .INT_REPAIR_STATUS => ⟨.INT, 0x2000310, [], [fd 0 16 .RO 0]⟩
  | .INT_FAULTY => ⟨.INT, 0x2000318, [], [fd 0 8 .RO 0, fd 8 24 .RO 0]⟩
  | .INT_LEAKED => ⟨.INT, 0x2000320, [], [fd 0 32 .RO 0]⟩
  | .INT_CNT_CE => ⟨.INT, 0x2000400, [(16, 0x20)], [fd 0 64 .RO 0]⟩
  | .INT_CNT_POISON => ⟨.INT, 0x2000408, [(16, 0x20)], [fd 0 64 .RO 0]⟩
  | .INT_CNT_UE => ⟨.INT, 0x2000410, [(16, 0x20)], [fd 0 64 .RO 0]⟩
  | .INT_CNT_PIN => ⟨.INT, 0x2000418, [(16, 0x20)], [fd 0 64 .RO 0]⟩
  | .INT_SLICE_EVR => ⟨.INT, 0x2001000, [(256, 8)], [fd 0 15 .RW 0, fd 15 1 .RW 0]⟩
  | .TEN_STATUS => ⟨.TEN, 0x2100000, [(256, 0x1000)], [fd 0 3 .RO 0, fd 3 1 .RO 0, fd 4 1 .RO 0, fd 8 8 .RWL 0,
      fd 16 20 .RWL 0]⟩
  | .TEN_CTL => ⟨.TEN, 0x2100008, [(256, 0x1000)], [fd 0 1 .RW 0, fd 1 1 .RW 0]⟩
  | .TEN_VIOL => ⟨.TEN, 0x2100010, [(256, 0x1000)], [fd 0 1 .RW1C 0, fd 1 3 .RO 0, fd 4 4 .RO 0, fd 8 3 .RO 0,
      fd 16 8 .RO 0, fd 32 14 .RO 0]⟩
  | .TEN_VIOL_ADDR => ⟨.TEN, 0x2100018, [(256, 0x1000)], [fd 0 52 .RO 0]⟩
  | .TEN_VIOL_TIME => ⟨.TEN, 0x2100020, [(256, 0x1000)], [fd 0 64 .RO 0]⟩
  | .TEN_VIOL_COUNT => ⟨.TEN, 0x2100028, [(256, 0x1000)], [fd 0 32 .RO 0]⟩
  | .TEN_OBJ_SEL => ⟨.TEN, 0x2100100, [(256, 0x1000)], [fd 0 2 .RW 0, fd 16 20 .RW 0]⟩
  | .TEN_OBJ_STATUS => ⟨.TEN, 0x2100108, [(256, 0x1000)], [fd 0 1 .RO 0, fd 1 1 .RO 0]⟩
  | .TEN_OBJ_DATA => ⟨.TEN, 0x2100200, [(256, 0x1000), (8, 8)], [fd 0 64 .RW 0]⟩

/-- The registers of block GLB. -/
def kindsGLB : List RegKind := [
  .GLB_ID, .GLB_CAP0, .GLB_CAP1, .GLB_LIFECYCLE, .GLB_STRUCT_CTL, .GLB_STRUCT_STATUS, .GLB_STRUCT_DETAIL,
  .GLB_STRUCT_ADDR, .GLB_RESET_CTL, .GLB_ARB_CFG, .GLB_CMD_CONFLICT, .GLB_CMD_CONFLICT_ADDR,
  .GLB_CMD_CONFLICT_DATA, .GLB_CMD_CONFLICT_MASK, .GLB_CMD_CONFLICT_TIME, .GLB_PATH_CNT]

/-- The registers of block MLD. -/
def kindsMLD : List RegKind := [
  .MLD_CTL, .MLD_STATUS, .MLD_SVN, .MLD_BUILD_ID, .MLD_SVN_MIN, .MLD_STAGE_ADDR, .MLD_STAGE_DATA, .MLD_DIGEST]

/-- The registers of block PWR. -/
def kindsPWR : List RegKind := [
  .PWR_CTL, .PWR_WAKE_TMO, .PWR_WAKE_TMO2, .PWR_DRAIN_TMO, .PWR_THERM_CTL, .PWR_THERM_STATUS, .PWR_AO_LDO,
  .PWR_CLK_STATUS, .PWR_RESET_CAUSE, .PWR_AVS, .PWR_DOM_CTL, .PWR_DOM_STATUS]

/-- The registers of block SLP. -/
def kindsSLP : List RegKind := [
  .SLP_CFG, .SLP_CTL, .SLP_VWIN, .SLP_LIM, .SLP_TMR, .SLP_STATUS, .SLP_MEAS, .SLP_CNT, .SLP_FAULT_TIME]

/-- The registers of block TWN. -/
def kindsTWN : List RegKind := [
  .TWN_ROLE, .TWN_CTL, .TWN_SETTLE, .TWN_COPY, .TWN_TAKEOVER_TIME, .TWN_BLIND, .TWN_MIRROR, .TWN_CNT, .TWN_CFG,
  .TWN_SPN_CTL, .TWN_SPN_STATUS, .TWN_SPN_FAIL, .TWN_SPN_TXSEQ, .TWN_SPN_RXSEQ, .TWN_SPN_SPARE_THRESH,
  .TWN_SPN_VCBUF, .TWN_SPN_CRED, .TWN_SPN_RCRED, .TWN_SPN_CNT, .TWN_SPN_LANE, .TWN_WHL_STATUS, .TWN_WHL_CTL,
  .TWN_WHL_PARTNER, .TWN_WHL_DIGEST, .TWN_WHL_TOFF, .TWN_WHL_FW_TX, .TWN_WHL_FW_CTL, .TWN_WHL_FW_RX, .TWN_WHL_CNT]

/-- The registers of block PMU. -/
def kindsPMU : List RegKind := [
  .PMU_CTL, .PMU_CENSUS_CTL, .PMU_CENSUS_MASK, .PMU_CENSUS_BASE, .PMU_CENSUS_SIZE, .PMU_CENSUS_STATUS,
  .PMU_BANK_CFG, .PMU_BANK_OVF, .PMU_FLT, .PMU_FLT_BASE, .PMU_FLT_LIMIT, .PMU_CFG, .PMU_CNT]

/-- The registers of block TST. -/
def kindsTST : List RegKind := [
  .TST_CMD, .TST_STATUS, .TST_MISR, .TST_EXPECT]

/-- The registers of block DBG. -/
def kindsDBG : List RegKind := [
  .DBG_UNLOCK, .DBG_CHAL, .DBG_TRACE_CTL, .DBG_TRACE_LO, .DBG_TRACE_HI, .DBG_TRACE_STATUS, .DBG_TRACE_IDX,
  .DBG_TRACE_DATA]

/-- The registers of block FWM. -/
def kindsFWM : List RegKind := [
  .FWM_BOOT_STATUS, .FWM_BOOT_CTL, .FWM_SVN, .FWM_VERSION, .FWM_WDOG, .FWM_CORE_CTL, .FWM_MB_TMO, .FWM_SPI_ADDR,
  .FWM_SPI_DATA, .FWM_SPI_CMD, .FWM_MB_CTL, .FWM_MB_REQ, .FWM_MB_RSP]

/-- The registers of block OCT. -/
def kindsOCT : List RegKind := [
  .OCT_STATUS, .OCT_SLOT_CTL, .OCT_PORT_CFG, .OCT_PORT_CTL, .OCT_PORT_STATUS, .OCT_PORT_TRAIN, .OCT_PORT_IDE,
  .OCT_PORT_CNT0, .OCT_PORT_CNT1, .OCT_PBR_ID, .OCT_EDGE_MAP, .OCT_CRN_STATUS, .OCT_CRN_CTL, .OCT_CRN_CNT_FWD,
  .OCT_CRN_CNT_XFER, .OCT_CRN_CNT_RETURN, .OCT_CRN_CNT_BOUNCE, .OCT_CRN_CNT_ABSORBED]

/-- The registers of block XB. -/
def kindsXB : List RegKind := [
  .XB_STATUS, .XB_PLANE_STATUS, .XB_PLANE_CTL, .XB_CTL, .XB_BUF_STATUS, .XB_CLASS_CFG, .XB_EXPRESS, .XB_QSEL,
  .XB_QSTAT, .XB_MIR_CFG, .XB_MIR_WIN_BASE, .XB_MIR_WIN_LIMIT, .XB_MIR_DEST, .XB_MIR_LIMIT, .XB_MIR_CNT, .XB_CNT]

/-- The registers of block SQ. -/
def kindsSQ : List RegKind := [
  .SQ_STATUS, .SQ_CTL, .SQ_TMO, .SQ_RETRY_CTL, .SQ_EVICT_CTL, .SQ_OCC, .SQ_EVICT_STAT, .SQ_CNT, .SQ_PROBE_ADDR,
  .SQ_PROBE_RESULT, .SQ_PROBE_SHARERS, .SQ_ORD_STATUS, .SQ_PURGE_MASK, .SQ_PURGE_STATUS, .SQ_HOME_SEL, .SQ_CD_CFG,
  .SQ_CD_AGENTS, .SQ_FMD_BASE, .SQ_FMD_SIZE, .SQ_FMD_CTL, .SQ_FMD_TGT0, .SQ_FMD_TGT1, .SQ_RANGE_BASE, .SQ_RANGE_CFG]

/-- The registers of block KSK. -/
def kindsKSK : List RegKind := [
  .KSK_CTL, .KSK_STATUS, .KSK_BANK_STATUS, .KSK_BANK_CTL, .KSK_OCC, .KSK_CNT]

/-- The registers of block KRB. -/
def kindsKRB : List RegKind := [
  .KRB_WIN, .KRB_CWIN, .KRB_FENCE_CTL, .KRB_FENCE_STATUS, .KRB_FENCE_ADDR, .KRB_FENCE_PROG, .KRB_FENCE_CNT,
  .KRB_CTL, .KRB_HOST_SLICE, .KRB_CNT]

/-- The registers of block TM. -/
def kindsTM : List RegKind := [
  .TM_CTL, .TM_STATUS, .TM_CARVE, .TM_SPILL_BASE, .TM_SPILL_CTL, .TM_SPILL_STATUS, .TM_QSEL, .TM_QPROBE, .TM_CMD,
  .TM_CMD_STATUS, .TM_CNT, .TM_SRING_CTL, .TM_SRING_RET, .TM_SRING_STATUS, .TM_SRING_BOBBINS, .TM_SRING_CNT,
  .TM_CHAN_EGR, .TM_CHAN_EGR1, .TM_WRED, .TM_WRED1, .TM_MPROF, .TM_MPROF1, .TM_MPROF2, .TM_RXB, .TM_RXB1, .TM_QCFG,
  .TM_QPOL, .TM_QOCC, .TM_QSTAT, .TM_GRP, .TM_GRP_MEM, .TM_QSCH, .TM_QSCH_ST, .TM_BND_CFG, .TM_BND_SHA,
  .TM_BND_SHB, .TM_BND_ST, .TM_CH_CFG, .TM_CH_SHA, .TM_CH_SHB, .TM_CH_LINE, .TM_CH_ST, .TM_CH_PKTS, .TM_CH_BYTES,
  .TM_PORT_CFG, .TM_PORT_SHA, .TM_PORT_SHB, .TM_PORT_ST, .TM_SPROF_A, .TM_SPROF_B, .TM_GATE_CTL, .TM_GATE_A,
  .TM_GATE_B, .TM_GATE_ST, .TM_GATE_CNT, .TM_GATE_SWT, .TM_GCL_SEL, .TM_GCL_DATA, .TB_TIME_NS, .TB_TIME_SEC,
  .TB_TIME64, .TB_CTL, .TB_ADDEND, .TB_PPS_CFG, .TB_PPS_CAP, .TB_STATUS, .TB_TOD, .TB_TOD_CTL, .TB_STEP, .TB_CNT]

/-- The registers of block RNG. -/
def kindsRNG : List RegKind := [
  .RNG_CFG, .RNG_IOVA, .RNG_CTL, .RNG_IRQ, .RNG_IDX, .RNG_STATUS, .RNG_PROG, .RNG_CNT]

/-- The registers of block LM. -/
def kindsLM : List RegKind := [
  .LM_CTL, .LM_STATUS, .LM_TMO, .LM_CL_CTL, .LM_CL_STATUS, .LM_CNT, .LM_TBL_CFG, .LM_TBL_BASE, .LM_TBL_SIZE,
  .LM_TBL_PARAM]

/-- The registers of block FLW. -/
def kindsFLW : List RegKind := [
  .FLW_W0, .FLW_W1]

/-- The registers of block INT. -/
def kindsINT : List RegKind := [
  .INT_CTL, .INT_EVQ_BASE, .INT_EVQ_IDX, .INT_EVQ_IRQ, .INT_EVQ_CNT, .INT_FE_LOG, .INT_SCRUB_CTL, .INT_SCRUB_START,
  .INT_SCRUB_END, .INT_SCRUB_STATUS, .INT_SCRUB_SUM, .INT_TEST_SEL, .INT_TEST_CTL, .INT_TEST_META, .INT_TEST_CHECK,
  .INT_TEST_DATA, .INT_RETIRE_STATUS, .INT_RETIRE_ADD, .INT_REPAIR_STATUS, .INT_FAULTY, .INT_LEAKED, .INT_CNT_CE,
  .INT_CNT_POISON, .INT_CNT_UE, .INT_CNT_PIN, .INT_SLICE_EVR]

/-- The registers of block TEN. -/
def kindsTEN : List RegKind := [
  .TEN_STATUS, .TEN_CTL, .TEN_VIOL, .TEN_VIOL_ADDR, .TEN_VIOL_TIME, .TEN_VIOL_COUNT, .TEN_OBJ_SEL, .TEN_OBJ_STATUS,
  .TEN_OBJ_DATA]

/-- The registers of a block. -/
def Blk.kinds : Blk → List RegKind
  | .GLB => kindsGLB
  | .MLD => kindsMLD
  | .PWR => kindsPWR
  | .SLP => kindsSLP
  | .TWN => kindsTWN
  | .PMU => kindsPMU
  | .TST => kindsTST
  | .DBG => kindsDBG
  | .FWM => kindsFWM
  | .OCT => kindsOCT
  | .XB => kindsXB
  | .SQ => kindsSQ
  | .KSK => kindsKSK
  | .KRB => kindsKRB
  | .TM => kindsTM
  | .RNG => kindsRNG
  | .LM => kindsLM
  | .FLW => kindsFLW
  | .INT => kindsINT
  | .TEN => kindsTEN

/-- The base addresses of Table 19.1, highest first: the block of an address is the first whose base it reaches. -/
def blkBases : List (Blk × Nat) := [
  (.TEN, 0x2100000), (.INT, 0x2000000), (.FLW, 0x1000000), (.LM, 0xe00000), (.RNG, 0xc00000), (.TM, 0x800000), (.KRB, 0x400000), (.KSK, 0x380000), (.SQ, 0x300000), (.XB, 0x200000), (.OCT, 0x100000), (.FWM, 0x80000), (.DBG, 0x70000), (.TST, 0x60000), (.PMU, 0x50000), (.TWN, 0x40000), (.SLP, 0x30000), (.PWR, 0x20000), (.MLD, 0x10000), (.GLB, 0)]

end Sys2Proof.Machine
end

