-- ==== Sys2Proof/Machine/Tbl.lean ====
section
/-!
DEFINITION. Sparse tables as plain data in one canonical form: keys strictly rising, and no entry equal to what an
unlisted key reads as.
-/
namespace Sys2Proof.Machine

/-- Entry `k` of a table whose unlisted entries read as `d`. -/
def tget {α : Type} (d : α) : List (Nat × α) → Nat → α
  | [], _ => d
  | (a, v) :: r, k => if a = k then v else if k < a then d else tget d r k

/-- The table with entry `k` set to `v`; setting the default removes the entry. -/
def tput {α : Type} [DecidableEq α] (d : α) : List (Nat × α) → Nat → α → List (Nat × α)
  | [], k, v => if v = d then [] else [(k, v)]
  | (a, w) :: r, k, v =>
    if k < a then (if v = d then (a, w) :: r else (k, v) :: (a, w) :: r)
    else if a = k then (if v = d then r else (k, v) :: r)
    else (a, w) :: tput d r k v

/-- Every listed key lies above `b`, keys rise strictly, and no listed entry is the default. -/
def twfFrom {α : Type} [DecidableEq α] (d : α) : Option Nat → List (Nat × α) → Bool
  | _, [] => true
  | b, (a, v) :: r =>
    (match b with | none => true | some x => decide (x < a)) && decide (v ≠ d) && twfFrom d (some a) r

/-- The canonical form of a table. -/
def twf {α : Type} [DecidableEq α] (d : α) (t : List (Nat × α)) : Bool := twfFrom d none t

end Sys2Proof.Machine
end

