-- ==== Sys2Proof/Machine/RegFile.lean ====
section
/-!
DEFINITION. The register file of the control space: a canonical sparse list of (register, value) pairs, the reset
values that depend on the index, and the place of every register in the address map (R456, Tables 19.1 and 19.3).
-/
namespace Sys2Proof.Machine

/-- One register instance: its name and its linear index (0 for a single register). -/
structure Reg where
  k : RegKind
  i : Nat
  deriving DecidableEq, Repr

/-- `w` bits of `v` from bit `lo`. -/
def bitsAt (v lo w : Nat) : Nat := v / 2 ^ lo % 2 ^ w

/-- `v` with `w` bits from bit `lo` replaced by the low bits of `x`. -/
def putBits (v lo w x : Nat) : Nat := v % 2 ^ lo + (x % 2 ^ w) * 2 ^ lo + v / 2 ^ (lo + w) * 2 ^ (lo + w)

/-- A `w`-bit value read as two's complement. -/
def toSigned (w v : Nat) : Int := if v < 2 ^ (w - 1) then (v : Int) else (v : Int) - (2 : Int) ^ w

/-- The low `w` bits of an integer in two's complement. -/
def ofSigned (w : Nat) (x : Int) : Nat := (x % ((2 : Int) ^ w)).toNat

/-- How many instances a register has. -/
def RegKind.count (k : RegKind) : Nat := k.desc.levels.foldl (fun a l => a * l.1) 1

/-- The byte offset of linear index `i` over the index levels (outermost first). -/
def levelOff : List (Nat × Nat) → Nat → Nat
  | [], _ => 0
  | (_, s) :: r, i => let n := r.foldl (fun a l => a * l.1) 1; i / n * s + levelOff r (i % n)

/-- The linear index at byte offset `o`, when the offset names one. -/
def levelIdx : List (Nat × Nat) → Nat → Option Nat
  | [], o => if o = 0 then some 0 else none
  | (c, s) :: r, o =>
    if o / s < c then (levelIdx r (o % s)).map (fun j => o / s * r.foldl (fun a l => a * l.1) 1 + j) else none

/-- The control-space byte address of a register (R456). -/
def Reg.addr (r : Reg) : Nat := r.k.desc.addr + levelOff r.k.desc.levels r.i

/-- The block that a control-space address lies in, by the bases of Table 19.1. -/
def blkOf (a : Nat) : Blk := ((blkBases.find? (fun p => p.2 ≤ a)).map (·.1)).getD .GLB

/-- The base address of a block (Table 19.1). -/
def Blk.base (b : Blk) : Nat := ((blkBases.find? (fun p => p.1 = b)).map (·.2)).getD 0

/-- The register at an aligned control-space address, or none where nothing is mapped (R456). -/
def regAt (a : Nat) : Option Reg :=
  (blkOf a).kinds.findSome? fun k =>
    if a < k.desc.addr then none else (levelIdx k.desc.levels (a - k.desc.addr)).map (fun i => ⟨k, i⟩)

/-- The reset values that depend on the index (Tables 12.5 and 15.x, TM_PORTv_ST.LANE) or that the spec gives in its
text (TB_ADDEND: the nominal value of R209 with SSC_COMP 1, rounded down). -/
def resetExtra (r : Reg) : Nat :=
  match r.k with
  | .PWR_DOM_CTL => if r.i < 3 then 2 else 0
  | .PWR_DOM_STATUS => if r.i = 0 then 2 else 0
  | .TM_PORT_ST => r.i % 4 * 2 ^ 30
  | .TWN_SPN_VCBUF => ([2048, 8192, 8192, 16384, 4096, 2048, 2048, 16384] : List Nat).getD r.i 0
  | .TB_ADDEND => 40 * 2 ^ 32 * 10000 / 9975
  | _ => 0

/-- The value of a register at cold reset. -/
def resetNat (r : Reg) : Nat := r.k.desc.fields.foldl (fun a f => a + f.reset * 2 ^ f.lo) 0 + resetExtra r

/-- The value of a register at cold reset. -/
def resetVal (r : Reg) : Word := BitVec.ofNat 64 (resetNat r)

/-- The bits of a register that the silicon implements: the named fields that store a value. Reserved bits read 0
(R6) and WO fields store nothing (Table 0.3). -/
def implMask (k : RegKind) : Nat :=
  k.desc.fields.foldl (fun a f => if f.acc = .WO then a else a + (2 ^ f.width - 1) * 2 ^ f.lo) 0

/-- The order of the register file: by register name within index. -/
def Reg.key (r : Reg) : Nat := r.i * 512 + r.k.ctorIdx

/-- The register file. -/
abbrev RegFile := List (Reg × Word)

/-- The value of a register: its entry, or its reset value. -/
def regGet : RegFile → Reg → Word
  | [], r => resetVal r
  | (a, v) :: t, r => if a = r then v else regGet t r

/-- The register file with one register set; a register at its reset value is not listed. -/
def regPut : RegFile → Reg → Word → RegFile
  | [], r, v => if v = resetVal r then [] else [(r, v)]
  | (a, w) :: t, r, v =>
    if a = r then (if v = resetVal r then t else (r, v) :: t)
    else if r.key < a.key then (if v = resetVal r then (a, w) :: t else (r, v) :: (a, w) :: t)
    else (a, w) :: regPut t r v

/-- The registers that the silicon fixes and nothing changes (R23). -/
def hardwired (r : Reg) : Bool := decide (r.k = .GLB_CAP0) || decide (r.k = .GLB_CAP1)

/-- A write by the machine's own hardware: outside the array, or to a fixed register, nothing changes; bits that the
register does not implement are not stored. -/
def regStore (t : RegFile) (r : Reg) (v : Word) : RegFile :=
  if r.i < r.k.count ∧ hardwired r = false then regPut t r (BitVec.ofNat 64 (v.toNat &&& implMask r.k)) else t

/-- One entry of a well-formed register file: mapped, not fixed, not at its reset value, reserved bits 0. -/
def entryOk (e : Reg × Word) : Bool :=
  decide (e.1.i < e.1.k.count) && !hardwired e.1 && decide (e.2 ≠ resetVal e.1) &&
    decide (e.2.toNat &&& implMask e.1.k = e.2.toNat)

/-- The canonical form of the register file: registers strictly rising, every entry well formed. -/
def regsWfFrom : Option Nat → RegFile → Bool
  | _, [] => true
  | b, e :: t =>
    (match b with | none => true | some x => decide (x < e.1.key)) && entryOk e && regsWfFrom (some e.1.key) t

/-- The canonical form of the register file. -/
def regsWf (t : RegFile) : Bool := regsWfFrom none t

end Sys2Proof.Machine
end

