-- ==== Sys2Proof/Machine/State.lean ====
section
/-!
DEFINITION. The state of the block as plain data: the queue of waiting commands, the register file, and under a name of
its own every queue, buffer, table, timer and pin that the spec gives the part and that no register shows. Tables are
canonical sparse lists (Tbl.lean). INVENTORY.md lists every piece with the rule that names it and its reset value.
-/
namespace Sys2Proof.Machine

/-- An event record (R368, Table 14.5). -/
structure EvRec where
  time : Nat
  src : Nat
  sev : Nat
  code : Nat
  slice : Nat := 0xFF
  port : Nat := 0xFF
  flags : Nat := 0
  addr : Nat := 0
  detail : Nat := 0
  deriving DecidableEq, Repr

/-- What leaves the part during a command: link messages, Spindle and Whorl traffic, answers to accesses, interrupts
to the management cores, AVSBus writes, and the management endpoint's responses. The model's own observation. -/
inductive Out where
  /-- A message sent on port `p`. -/
  | port (p : Nat) (msg : Msg)
  /-- A message handed to an internal endpoint, whose arrival is a command of its own. -/
  | deliver (ep : Nat) (msg : Msg)
  /-- A Spindle data packet. -/
  | packet (pk : Packet)
  /-- A Spindle control block: its kind and fields (Table 12.3). -/
  | block (kind : Nat) (fields : List Nat)
  /-- A Whorl heartbeat. -/
  | heartbeat (h : Heartbeat)
  /-- A Whorl FW frame. -/
  | fwFrame (d0 d1 : Nat)
  /-- The answer to a control-space or page read. -/
  | read (addr : Nat) (v : Nat)
  /-- The answer to the debug master's access to a fabric address (R289, R299, R432). -/
  | debug (addr : Nat) (data : List Word) (poison : Bool)
  /-- The Service Function of VCS `vcs` reports a poisoned TLP that it received: an AER error, non-fatal (R372). -/
  | aer (vcs : Nat)
  /-- An interrupt of the management cores (R370). -/
  | mgmtIrq
  /-- A non-maskable interrupt of core `c` (R419). -/
  | nmi (c : Nat)
  /-- Core `c` restarts, at the ROM or at the firmware entry point (Table 17.1). -/
  | coreStart (c : Nat) (atRom : Bool)
  /-- An AVSBus write of a VDD_CORE target in mV (R439). -/
  | avs (mv : Nat)
  /-- Firmware writes an image to a flash copy: 0 Fichesyn A, 1 Fichesyn B, 2 Meldel A, 3 Meldel B (R415, R420). -/
  | flash (copy : Nat) (bytes : List Nat)
  /-- A response of the management endpoint: FM API, MCTP control, SPDM or mailbox; code and payload. -/
  | mgmt (kind code : Nat) (payload : List Nat)
  /-- A hot reset or an LD reset toward port `p` (R75); `x` names the LD, or 0xFF. -/
  | reset (p x : Nat)
  /-- The vPPB of port `p` reports to the host of VCS `vcs`: kind 0 Presence Detect Changed, 1 Data Link Layer State
  Changed, 2 Power Fault Detected (R74, R402). -/
  | hotplug (vcs p kind : Nat)
  /-- Port `p` returns `n` credits of class `c` to its link partner (R86). -/
  | rxCredit (p c n : Nat)
  /-- Port `p` offers a vendor-defined entry in alternate protocol negotiation: vendor ID and capability word (R53). -/
  | apnEntry (p vendor word : Nat)
  deriving DecidableEq, Repr

/-- The fuses (R416, R418, R26, R365, R431): life-cycle state, minimum SVNs, the four key hashes and their revocation,
the AVS point, and for each domain whether its fuse-map defects exceed its spares. -/
structure Fuses where
  production : Bool
  mldSvnMin : Nat
  fwSvnMin : Nat
  keyHash : List Nat
  revoked : List Bool
  avs : Nat
  defective : List Bool
  deriving DecidableEq, Repr

/-- The input pins as taken after their deglitch (R20, Table 1.6), and the straps. `true` means asserted. -/
structure Pins where
  twinId : Bool
  strapReported : Bool
  porst : Bool
  perst : List Bool
  present : List Bool
  aliveIn : Bool
  slotPerst : List Bool
  thermTrip : Bool
  aliveOut : Bool
  deriving DecidableEq, Repr

/-- The time base (R208-R212): seconds, nanoseconds, the fraction of a nanosecond in units of 2^-32, the discipline
rate in ppb, the run of good edges, and the device time of the last accepted edge. -/
structure TimeBase where
  sec : Nat
  ns : Nat
  frac : Nat
  rate : Int
  good : Nat
  lastEdge : Option Nat
  deriving DecidableEq, Repr

/-- One item of a loaded image: section, index in its section, type, the number it is known by (Table 2.2; a RANGE
item's place in SQ_RANGE), its LENGTH in words, and its bytes as one little-endian number (R24, R27). -/
structure Item where
  sect : Nat
  idx : Nat
  typ : Nat
  key : Nat
  len : Nat
  num : Nat
  deriving DecidableEq, Repr

/-- The loader and the structure check (R31-R44): the load that runs (its command and the SOURCE code of the path that
issued it), which copy the boot load tries (0 no boot load, 1 the first, 2 the second), whether a load accepted since
the last reset counts, the items of that load, the check that runs (whether it is dry), whether phase 11 listens and
whether a heartbeat has come since; and of a policy-only load (R43): 1 it waits for a fence to end before its windows, 2
its own fence runs, with its items, SVN and BUILD_ID. -/
structure Loader where
  running : Option (Nat × Nat) := none
  boot : Nat := 0
  accepted : Bool := false
  items : List Item := []
  checking : Option Bool := none
  listening : Bool := false
  heard : Bool := false
  fence : Nat := 0
  next : List Item := []
  svn : Nat := 0
  build : Nat := 0
  deriving DecidableEq, Repr

/-- A virtual CXL switch as its VCS item defines it (Table 2.2). -/
structure VcsCfg where
  valid : Bool
  up : Nat
  agent : Nat
  ig : Nat
  down : Nat
  deriving DecidableEq, Repr

/-- One HDM decoder (R66): its range, its interleave ways and granularity in bytes, the vPPB numbers of its targets in
order, and whether its last commit failed (Error Not Committed). -/
structure Decoder where
  committed : Bool := false
  locked : Bool := false
  base : Nat := 0
  size : Nat := 0
  ways : Nat := 1
  gran : Nat := 256
  targets : List Nat := []
  failed : Bool := false
  deriving DecidableEq, Repr

/-- What a port holds beside its registers (R54, R57, R59, R60, R88): the bar on the extended rate after a fallback, the
times of the Recoveries of the last second at 128 GT/s, whether it is in a Recovery with its traffic paused, whether
the next training equalises in full, the attempts made since the last fresh start, the TARGET_RATE, the offer of the
extended rate and the EQ_BYPASS that the training or Recovery under way took up, the link credits that its
partner has granted by class, and, for a slot's port, whether PERST_DELAY has passed since power-good rose (R73). -/
structure PortX where
  target : Nat := 0
  offer : Bool := false
  bypass : Bool := false
  xrateBar : Bool := false
  recov : List Nat := []
  recovery : Bool := false
  fullEq : Bool := false
  tries : Nat := 0
  credits : List Nat := []
  perstDone : Bool := false
  deriving DecidableEq, Repr

/-- The Service Function of a VCS (R221, R246): Bus Master Enable, PASID Enable, TPH, the
MSI-X vectors whose mask bit is clear, and those pending. -/
structure SfCfg where
  bme : Bool
  pasid : Bool
  tph : Bool
  unmasked : List Nat
  pending : List Nat
  deriving DecidableEq, Repr

/-- A job's result that waits for room in its completion ring, or the job's identity (R231, R241). -/
structure JobRes where
  sub : Nat
  comp : Nat
  subGen : Nat
  compGen : Nat
  tag : Nat
  irq : Bool
  status : Nat
  poison : Bool
  slots : Nat
  result : List Word
  cluster : Nat
  deriving DecidableEq, Repr

/-- What a ring holds beside its registers: records lost since the last event entry, its generation, entries since
the last interrupt and whether the moderation timer runs, held results, the submission slots fetched and not yet
taken (index and words), the fetch reads outstanding (first index, slots), its credit and its BURST in the round that runs
(R238), the writes in flight, whether its host is lost, and the fetch completions that came late (R19). -/
structure RingX where
  lost : Nat := 0
  gen : Nat := 0
  sinceIrq : Nat := 0
  modRuns : Bool := false
  held : List JobRes := []
  slots : List (Nat × List Word) := []
  fetches : List (Nat × Nat) := []
  issued : Nat := 0
  credit : Nat := 0
  burst : Nat := 1
  inFlight : Nat := 0
  hostLost : Bool := false
  late : Nat := 0
  deriving DecidableEq, Repr

/-- One destination of a fabric-replicated message (R102): its message, and the bobbins that its reference counts as on
the reserve and on the shared share of its queue. -/
structure XRef where
  msg : Msg
  reserve : Nat
  shared : Nat
  deriving DecidableEq, Repr

/-- A fabric-replicated message as it is stored once (R101-R103): its reference count, the message, its bobbins, and how
many of them came from the multicast queue's reserve and from the shared pool. -/
structure McMsg where
  refs : Nat := 0
  msg : Msg := Msg.blank
  bobs : List Nat := []
  reserve : Nat := 0
  shared : Nat := 0
  deriving DecidableEq, Repr

/-- A free list of numbers: bobbins of the buffer (R81) and of the Plaza (R175), pages of the spill region (R189): the
numbers from `next` on, then those that have come back, oldest first. -/
structure XFree where
  next : Nat := 0
  back : List Nat := []
  deriving DecidableEq, Repr

/-- A message dispatched on a plane and not yet wholly acknowledged (R89, R90): its plane, the cells it has and the
cells the link stage has linked; the flowlet entry it counts in; the bobbins it has taken, in order; for a
fabric-replicated message its destinations. -/
structure Staged where
  msg : Msg
  plane : Nat
  cells : Nat
  linked : Nat
  entry : Nat
  reserve : Nat
  shared : Nat
  bobs : List Nat
  dests : List XRef
  deriving DecidableEq, Repr

/-- A flowlet-table entry (R89). `used` says that it has carried traffic. -/
structure Flowlet where
  plane : Nat
  count : Nat
  draining : Bool
  used : Bool
  deriving DecidableEq, Repr

/-- A message in an output queue (R82-R84): the cells linked of its cells, the bobbins it took from the reserve and
from the shared pool, its bobbins in order, when it was linked, and whether it is a multicast reference (the number of
its stored copy, which holds the bobbins). -/
structure QMsg where
  msg : Msg
  cells : Nat
  linked : Nat
  reserve : Nat
  shared : Nat
  bobs : List Nat
  time : Nat
  mc : Option Nat
  deriving DecidableEq, Repr

/-- A mirror session (R104-R106): its sequence number, the drops since the last record, the offset of the next
record, and the records that wait (bobbins, header words and captured length). -/
structure MirX where
  seq : Nat
  drops : Nat
  off : Nat
  queue : List (List Nat × Msg)
  deriving DecidableEq, Repr


/-- A tracker (R130, R131). `st`: 0 FREE, 1 LOOKUP, 2 COLLECT, 3 COMMIT. `kind`: 0 request, 1 writeback, 2 eviction,
3 settle, 4 an S writeback left without a way (R124). `way` 16 is none. `spec`: 0 none, 1 outstanding, 2 its data is
here. `mseq`: 0, or one more than the MSEQ of its FINAL record. `wait` holds the agents whose snoop answer is awaited
(64 the Kiosk), `answers` those that answered and how (true: BIRspS). `decided` says that the final state is known and
its record sent; `vway` is the way that an eviction's records name; `back` that a Corner returned the request. -/
structure Trk where
  st : Nat := 0
  kind : Nat := 0
  stamp : Nat := 0
  req : Msg := Msg.blank
  line : Nat := 0
  way : Nat := 16
  spec : Nat := 0
  demand : Bool := false
  needData : Bool := false
  haveData : Bool := false
  data : List Word := []
  poison : Bool := false
  wait : List Nat := []
  snooped : List Nat := []
  forData : Bool := false
  answers : List (Nat × Bool) := []
  writer : Nat := 0xFF
  wbs : List Msg := []
  writes : Nat := 0
  ownWrite : Bool := false
  closed : Bool := false
  old : DirEnt := {}
  fin : DirEnt := {}
  recorded : Bool := false
  mseq : Nat := 0
  committed : Bool := false
  decided : Bool := false
  vway : Nat := 16
  aged : Bool := false
  back : Bool := false
  steer : Bool := false
  lostReq : Bool := false
  deriving DecidableEq, Repr

/-- A Square beside its registers: the next MSEQ (R336), the tags of memory accesses handed out (R132), conflict chain,
retry queue and waiting writebacks in stamp order (R144, R146, R130), the returned waiters that found no chain slot, by
line the WAITER messages still to come (R157), the requests whose wait for the full retry queue has been counted, with
whether they have aged (R137), ledger (line, count, owner's port; R152), evictions of the
running window (R138), the lines whose RELEASE waits (R337), whether the probe runs (R142), the MSEQ last applied and
whether its commit is due (R338), lines that wait for a settle tracker and whether the settle walk still runs (R341),
whether the partner's Square has handed its moving lines over and one more than the MSEQ of this Square's own MOVE
record (R349), the positions of the copy received for the primary and the mirror array, with their LAST (R343,
R347), and the Kiosk banks, one bit each, whose lost share is being purged (R384). -/
structure SqX where
  mseq : Nat := 0
  memTag : Nat := 0
  chain : List Waiting := []
  retry : List Waiting := []
  wbq : List (Nat × Msg) := []
  rein : List Waiting := []
  due : List (Nat × Nat) := []
  full : List (Nat × Bool) := []
  ledger : List (Nat × Nat × Nat) := []
  evicts : Nat := 0
  releases : List Nat := []
  probing : Bool := false
  applied : Nat := 0
  commitDue : Bool := false
  settleQ : List Nat := []
  walking : Bool := false
  moveGot : Bool := false
  moveSeq : Nat := 0
  pos0 : Nat := 0
  pos1 : Nat := 0
  last0 : Bool := false
  last1 : Bool := false
  kpurge : Nat := 0
  deriving DecidableEq, Repr

/-- A Corner's line record (R154, R155). `st`: 0 none, 1 WAIT, 2 GRANTING, 3 HANDED. `sq` is the home Square. `held`:
0 no data, 1 a MetaValue S writeback, 2 a MetaValue I writeback. `answer`: 0 none yet, 1 BIRspI, 2 BIRspS. `self` says
that it was handed by RETURN SELF, `gone` that the agent of the head waiter was lost before its grant, `dropped` counts
the waiters of lost agents that no message has settled yet (R152, R162). -/
structure Crn where
  st : Nat := 0
  sq : Nat := 0
  owner : Nat := 0xFF
  waiters : List Waiting := []
  held : Nat := 0
  data : List Word := []
  poison : Bool := false
  writes : Nat := 0
  answer : Nat := 0
  expect : Bool := false
  ack : Bool := false
  mseq : Nat := 0
  committed : Bool := false
  granted : Bool := false
  fin : DirEnt := {}
  down : Bool := false
  self : Bool := false
  gone : Bool := false
  dropped : Nat := 0
  deriving DecidableEq, Repr

/-- An entry of the mirror tracker table (R335-R337): the last ENTRY record of an open line. -/
structure MirTrk where
  opened : Bool := false
  phase : Nat := 0
  data : Bool := false
  way : Nat := 0
  set : Nat := 0
  ent : DirEnt := {}
  req : Nat := 0xFF
  writer : Nat := 0xFF
  snooped : Nat := 0
  kiosk : Bool := false
  deriving DecidableEq, Repr

/-- The pair beside its registers (R330-R349): whether FORM_TMO has run out while forming, whether PAIRED was 1 when
the fence was set and whether UNFENCE has cleared it, whether a HANDBACK has been requested, whether this twin yields,
whether the partner does, whether this twin's MOVE records have been sent, the time until which GRACE runs, the lines
poisoned by the settle, the CLAIM of the last heartbeat sent, whether a DUAL_HOME stands, and the reason of the last
REJOIN_REFUSED. -/
structure TwinX where
  formOver : Bool := false
  pairedFence : Bool := false
  unfenced : Bool := false
  handback : Bool := false
  yielding : Bool := false
  partnerYield : Bool := false
  giveDone : Bool := false
  graceEnd : Nat := 0
  settlePoison : Nat := 0
  sentClaim : Nat := 0
  dual : Bool := false
  refused : Nat := 0
  deriving DecidableEq, Repr

/-- A slot of a slot ring (R175): `st` 0 FREE, 1 FILLING, 2 COMMITTED, 3 DONE; the lines that have arrived with their
data, the positions that hold a bobbin with the bobbin's number, the lines that came poisoned, and when it committed. -/
structure Slot where
  st : Nat := 0
  lines : List (Nat × List Word) := []
  bobs : List (Nat × Nat) := []
  bad : List Nat := []
  time : Nat := 0
  deriving DecidableEq, Repr

/-- A slot ring beside its registers (R178): the free-running counts of its return record, slots returned since the
last record, and whether SLOT_OVERRUN has been raised since the counters were cleared. -/
structure SRingX where
  admitted : Nat := 0
  dropped : Nat := 0
  lost : Nat := 0
  since : Nat := 0
  overrun : Bool := false
  deriving DecidableEq, Repr

/-- An admitted packet (R186, R192): its Docket fields, the producer's slice, its bobbins and those of them taken from
the shared pool, its data, first and last bobbin, its bobbins in order, whether it is spilled, and its poisoned lines
(codewords: line n holds packet bytes 64 n - 16 on). Of a spilled packet: its Docket, its first bobbin in the spill
region, whether its reads are issued, and the lines that they still await (R189, R190). `rings` holds the member rings
sampled at the start of its push (R188). -/
structure Pkt where
  len : Nat
  colour : Nat
  queue : Nat
  mcast : Bool
  flow : Nat
  group : Nat
  user : Nat
  slice : Nat
  bobbins : Nat
  shared : Nat
  data : List Word
  first : Nat
  last : Nat
  bobs : List Nat
  spilled : Bool
  bad : List Nat
  time : Nat
  docket : Nat := 0
  place : Nat := 0
  asked : Bool := false
  reads : List Nat := []
  rings : Option (List Nat) := none
  deriving DecidableEq, Repr

/-- A queue beside its registers (R186, R189): the Plaza part and the spill part of its skein, oldest first, whether it
is spilling, and its chain of pages: number, the bobbins written to it, and those of them not read back yet. -/
structure TQueue where
  pkts : List Pkt := []
  spill : List Pkt := []
  spilling : Bool := false
  pages : List (Nat × Nat × Nat) := []
  deriving DecidableEq, Repr

/-- An active list of the scheduling tree (R199): its children in order, the child that holds the turn, and, where that
child has left, the place in the list at which it stood. -/
structure ActList where
  l : List Nat := []
  turn : Option Nat := none
  place : Nat := 0
  deriving DecidableEq, Repr

/-- One item of a Loom job, or one step of a chain (R252, R257-R267). `st` 0 waits, 1 runs, 2 done. `phase` counts the
reads it has made; `node`, `off` and `level` are the trie walk's place, `lo`, `hi`, `ans` and `n` the range search's,
`buf` the bucket words read. `res` is its result, `hit` and `err` what it reports, `stat` its status. `pass` is 0, or one
more than the epoch at which the copy's line under way was checked (Table 11.5). -/
structure LItem where
  st : Nat := 0
  phase : Nat := 0
  level : Nat := 0
  off : Nat := 0
  node : Nat := 0
  lo : Nat := 0
  hi : Nat := 0
  ans : Nat := 0
  n : Nat := 0
  buf : List Word := []
  res : Nat := 0
  hit : Bool := false
  err : Bool := false
  stat : Nat := 0
  pass : Nat := 0
  deriving DecidableEq, Repr

/-- A thread and its job (R252, R261). `st` 0 free, 1 runs, 2 finished. `words` holds the submission entry. `stat` is
the status found so far, `done` the bytes of a copy, `result` the result of a finished job. -/
structure Job where
  st : Nat := 0
  sub : Nat := 0
  comp : Nat := 0
  subGen : Nat := 0
  compGen : Nat := 0
  tag : Nat := 0
  irq : Bool := false
  kind : Nat := 0
  op : Nat := 0
  slice : Nat := 0
  table : Nat := 0
  count : Nat := 0
  words : List Word := []
  items : List LItem := []
  stat : Nat := 0
  poison : Bool := false
  done : Nat := 0
  buf : List Word := []
  result : List Word := []
  slots : Nat := 1
  deriving DecidableEq, Repr

/-- An outstanding table access (R255, R256, R263). `st` 0 none, 1 waits for the Kiosk, the partner or a write's
completion, 2 served. `thread` 4,096 is the partner's. `sort`: 0 a read, 1 a run-ahead read, 2 a counter update, 3 a
write of a whole line, 4 a merge into a line. `line` is the line, `addr` the first byte, `len` the bytes. `bank` is the
Kiosk bank that serves it, 4 the partner. `epoch` and `slice` are the Kerb's. -/
structure LAcc where
  st : Nat := 0
  thread : Nat := 0
  item : Nat := 0
  sort : Nat := 0
  addr : Nat := 0
  len : Nat := 8
  level : Nat := 0
  node : Nat := 0
  op : Nat := 0
  pkts : Nat := 0
  bytes : Nat := 0
  wide : Bool := false
  hint : Nat := 0
  data : List Word := []
  poison : Bool := false
  stale : Bool := false
  bank : Nat := 0
  epoch : Nat := 0
  slice : Nat := 0xFF
  tag : Nat := 0
  deriving DecidableEq, Repr

/-- A way of a Kiosk bank (R270, R271). `st` 0 I, 1 S, 2 E, 3 M. -/
structure KLine where
  st : Nat := 0
  line : Nat := 0
  data : List Word := []
  poison : Bool := false
  nru : Bool := false
  deriving DecidableEq, Repr

/-- A miss entry of a Kiosk bank (R270): the line, whether ownership is asked for, whether an upgrade was sent, its way
(16: no request has gone out yet), what has come of the response, a snoop that waits for it, and the accesses that wait,
in order. -/
structure KMiss where
  line : Nat := 0
  own : Bool := false
  way : Nat := 16
  data : Option (List Word × Bool) := none
  grant : Nat := 0
  snoop : Option Msg := none
  wait : List Nat := []
  deriving DecidableEq, Repr

/-- The Spindle link beside its registers (R310-R319): relayed snoops that wait for their answer (agent and line),
misdirected requests that this twin forwarded and that are not answered, the packets accepted whose message's
arrival is a command that has not come yet (VC and blocks), the lanes that the partner's LINKINFO reports failed, and
whether the RECOVERY that runs may return to width 32 (R307). -/
structure SpnX where
  relay : List (Nat × Nat) := []
  fwd : List Msg := []
  held : List (Nat × Nat) := []
  pfail : Nat := 0
  wide : Bool := false
  deriving DecidableEq, Repr

/-- The Whorl lane beside its registers (R322-R327): when this twin last sent a heartbeat, when the last valid one came,
since when MISSED counts, whether the next heartbeat echoes one, whether the receiver has character alignment,
whether a FW frame waits, the number of heartbeat slots so far, and the slots in which this twin's and the partner's
CHECKING first travelled (R324, R37). -/
structure WhlX where
  sent : Option Nat := none
  heard : Option Nat := none
  since : Nat := 0
  echo : Bool := false
  align : Bool := false
  fw : Bool := false
  slot : Nat := 0
  myChk : Option Nat := none
  pChk : Option Nat := none
  deriving DecidableEq, Repr

/-- A scrub beside its registers (R363-R366): the memory, instance and last index that GO named, what the summary counts so far, whether ABORT was written, and the
corrected errors of each row in this pass. -/
structure ScrubX where
  mem : Nat := 0
  inst : Nat := 0
  last : Nat := 0
  read : Nat := 0
  corrected : Nat := 0
  bad : Nat := 0
  seen : Nat := 0
  spared : Nat := 0
  retired : Nat := 0
  abort : Bool := false
  rows : List (Nat × Nat) := []
  deriving DecidableEq, Repr

/-- A context object that is FAULTY (R358): its sort and index, its registers that firmware has still to rewrite, and
the VALID that it had. -/
structure Faulty where
  sort : Nat
  idx : Nat
  left : List Reg
  valid : Bool
  deriving DecidableEq, Repr

/-- The thermal monitor beside its registers (R391, R392): the sensors that read 120 °C or more last, the run of
samples below 105 °C during a trip, and the reset causes that the trip has absorbed (bits of PWR_RESET_CAUSE). -/
structure ThermX where
  hot : List Nat := []
  cool : Nat := 0
  absorbed : Nat := 0
  deriving DecidableEq, Repr

/-- The AVSBus master (R439): the mV of the write that runs and its retries, and whether a newer MARGIN waits. -/
structure AvsX where
  mv : Option Nat := none
  tries : Nat := 0
  again : Bool := false
  deriving DecidableEq, Repr

/-- A slot power channel beside its registers: the active copy (R397), its window comparator, whether the gate is
driven, whether a power-off waits for its gate (R407), whether the gate is fully on (R404), whether the insertion delay
has run out, whether the retry timer runs, and the ends of both timers and the fault timer in AO cycles. -/
structure SlotCh where
  en : Bool := false
  req : Bool := false
  latch : Bool := false
  uvRise : Nat := 10800
  uvFall : Nat := 10200
  ovRise : Nat := 14000
  ovFall : Nat := 13600
  ilim : Nat := 25
  pump : Nat := 10
  plim : Nat := 100
  shunt : Nat := 0
  insert : Nat := 100
  fault : Nat := 100
  retry : Nat := 50
  rampTmo : Nat := 200
  vin : Nat := 0
  inWin : Bool := false
  gate : Bool := false
  offWait : Bool := false
  full : Bool := false
  insDone : Bool := false
  insEnd : Nat := 0
  retryRun : Bool := false
  retryEnd : Nat := 0
  ft : Nat := 0
  ftAt : Nat := 0
  deriving DecidableEq, Repr

/-- The management complex beside its registers (R416-R421): which Fichesyn copy the ROM tries (0 none, 1 the first, 2 the
other), the cores whose watchdog has expired since its last KICK, whether an accepted warm reset waits its 10 us, the
hash of the running Fichesyn image, the endpoint's EID, the policies that firmware holds by opcode, and the event
interrupt policy by binding. -/
structure MgmtX where
  attempt : Nat := 0
  hit : List Bool := [false, false, false, false]
  warmDue : Bool := false
  hash : Nat := 0
  eid : Nat := 0
  policy : List (Nat × List Nat) := []
  evPolicy : List (Nat × Nat) := []
  deriving DecidableEq, Repr

/-- The self-test that runs (R431): its domain, kind and units of 1,024 patterns. -/
structure TstX where
  dom : Nat := 0
  kind : Nat := 0
  pats : Nat := 0
  deriving DecidableEq, Repr

/-- The Census beside its registers (R430): ticks since EN was set, the offset of the next record, ticks skipped. -/
structure CenX where
  ticks : Nat := 0
  off : Nat := 0
  skips : Nat := 0
  deriving DecidableEq, Repr

/-- An SPDM connection (R423): how far its negotiation is (0 none, 1 VERSION, 2 CAPABILITIES, 3 ALGORITHMS), and its
sessions: number, whether FINISH has completed, and key generation. -/
structure SpdmC where
  stage : Nat := 0
  sessions : List (Nat × Bool × Nat) := []
  deriving DecidableEq, Repr

/-- Part 0 of the block: regs, out, freeCtr, fuse, pins, tb, hold, evPend, evLost. -/
structure Part0 where
  /-- The registers of the control space. -/
  regs : RegFile
  /-- What left the part during the last command. -/
  out : List Out
  /-- The next free value of Config.freeValue (the model's own). -/
  freeCtr : Nat
  /-- The fuses. -/
  fuse : Fuses
  /-- The pins. -/
  pins : Pins
  /-- The time base (R208). -/
  tb : TimeBase
  /-- The 256-record holding queue (R370). -/
  hold : List EvRec
  /-- The records of the step, each with the event ring it also goes to (R370): delivered in ascending SOURCE and CODE at its end. -/
  evPend : List (EvRec × Option Nat)
  /-- Records were dropped since the last record written (R368, LOST_BEFORE). -/
  evLost : Bool
  deriving DecidableEq, Repr

/-- Part 1 of the block: aoLatch, sram, hlog, stage, ldr, vcs, ldb, homeSel, domDef. -/
structure Part1 where
  /-- REFCLK_LOST and THERMAL_TRIP as AO latched them (R370). -/
  aoLatch : List EvRec
  /-- The management SRAM by 64-bit word, 8 MiB (Table 1.1). -/
  sram : List (Nat × Word)
  /-- The host event logs, at VCS x 4 + severity (R372). -/
  hlog : List (Nat × List EvRec)
  /-- The staging memory by 64-bit word, 4 MiB (R24, R32). -/
  stage : List (Nat × Word)
  /-- The loader and the check (R31-R44). -/
  ldr : Loader
  /-- The virtual switches (R63). -/
  vcs : List (Nat × VcsCfg)
  /-- The LD bindings: port, LD, VCS, dynamic capacity (R68, R70). -/
  ldb : List (Nat × Nat × Nat × Bool)
  /-- A HOME_SEL item defines SQ_HOME_SEL (Table 2.7). -/
  homeSel : Bool
  /-- The domain defaults: domain, state, ALLOW_RET (R38). -/
  domDef : List (Nat × Nat × Bool)
  deriving DecidableEq, Repr

/-- Part 2 of the block: dec, port, sf, msix, ring, xin, stg, flowt, xq. -/
structure Part2 where
  /-- HDM decoders, at VCS x 24 + n: 0-15 upstream port, 16-23 domain device (R66). -/
  dec : List (Nat × Decoder)
  /-- Ports, beside their registers. -/
  port : List (Nat × PortX)
  /-- Service Functions by VCS (R221). -/
  sf : List (Nat × SfCfg)
  /-- MSI-X tables, at (VCS x 2,048 + vector) x 2 + word (Table 9.2). -/
  msix : List (Nat × Word)
  /-- Rings, beside their registers. -/
  ring : List (Nat × RingX)
  /-- Input FIFOs, at endpoint x 8 + class; one entry is a message, or a message for several destinations (R85, R101). -/
  xin : List (Nat × List (List Msg))
  /-- Staging memory by input endpoint (R90). -/
  stg : List (Nat × List Staged)
  /-- Flowlet tables, at endpoint x 1,024 + entry (R89). -/
  flowt : List (Nat × Flowlet)
  /-- Output queues, at endpoint x 8 + class (R82). -/
  xq : List (Nat × List QMsg)
  deriving DecidableEq, Repr

/-- Part 3 of the block: xdef, xturn, xaged, mcs, mcq, xfree, owed, mcNext, mir. -/
structure Part3 where
  /-- Output-stage deficits in bytes, at endpoint x 8 + class (R88). -/
  xdef : List (Nat × Nat)
  /-- The class an output stage serves, plus 8 once this visit has credited it (R88). -/
  xturn : List (Nat × Nat)
  /-- Queues whose age expired since they were last empty (R107). -/
  xaged : List (Nat × Bool)
  /-- Fabric-replicated messages as they are stored once (R101). -/
  mcs : List (Nat × McMsg)
  /-- The multicast queues, by class: the numbers of their stored messages in order (R82, R101). -/
  mcq : List (Nat × List Nat)
  /-- The free list of the bobbin buffer (R81). -/
  xfree : XFree
  /-- Responses that the partner or device behind a port owes: response, tag, requester's endpoint (R18). -/
  owed : List (Nat × List (Op × Nat × Nat))
  /-- The number of the next replicated message (the model's own). -/
  mcNext : Nat
  /-- The mirror sessions (R104). -/
  mir : List (Nat × MirX)
  deriving DecidableEq, Repr

/-- Part 4 of the block: xwait, xacct, feSeen, feDue, xdown, xret, sqin, rrLast, rrBurst. -/
structure Part4 where
  /-- The head of an input FIFO has been counted as waiting for buffer (R85). -/
  xwait : List (Nat × Bool)
  /-- Bobbins held by an output queue, reserve and shared, at endpoint x 8 + class (R84). -/
  xacct : List (Nat × Nat × Nat)
  /-- INT_FE_LOG holds the first FE record since cold reset (R370). -/
  feSeen : Bool
  /-- An FE record was raised and this twin's fence follows in the same step (R369). -/
  feDue : Bool
  /-- Planes whose domain has a power-down request (R95). -/
  xdown : List (Nat × Bool)
  /-- Planes on their way back from TEST or LOST (R111, PLANE_SERVICE). -/
  xret : List (Nat × Bool)
  /-- Square input queues of coherent requests with their stamps, by Square (R14, R122, R144). -/
  sqin : List (Nat × List (Nat × Msg))
  /-- The submission ring last served by the weighted round robin (R238). -/
  rrLast : Nat
  /-- Entries the ring last served may still take in this visit (R238). -/
  rrBurst : Nat
  deriving DecidableEq, Repr

/-- Part 5 of the block: dbfNext, stampCtr, dir, trk, specT, memT, mru, bic, sqx. -/
structure Part5 where
  /-- By slice, the time before which no DB_FOREIGN is raised again (R223). -/
  dbfNext : List (Nat × Nat)
  /-- The next age stamp: the order of arrival stands for the core-clock count (R144). -/
  stampCtr : Nat
  /-- Directory entries, at ((Square x 2 + array) x 16,384 + set) x 16 + way; array 1 is the mirror array (R120, R335). -/
  dir : List (Nat × DirEnt)
  /-- Trackers, at Square x 8,192 + tracker (R130). -/
  trk : List (Nat × Trk)
  /-- Speculative reads outstanding, at Square x 2^32 + tag: 1 discarded, t + 2 for tracker t (R126, R127). -/
  specT : List (Nat × Nat)
  /-- Demand reads and writes outstanding, at Square x 2^32 + tag: 2 t + 1 a read of tracker t, 2 t + 2 a write of tracker t, t 8,192 a purge write (R132, R163). -/
  memT : List (Nat × Nat)
  /-- The way of a set used last, at (Square x 2 + array) x 16,384 + set (R133). -/
  mru : List (Nat × Nat)
  /-- BIConflicts whose ack follows the completion of the agent's own request (R160). -/
  bic : List Msg
  /-- Squares, beside their registers. -/
  sqx : List (Nat × SqX)
  deriving DecidableEq, Repr

/-- Part 6 of the block: crec, cwait, crn, mtt, blind, pagent, alost, twx, slot. -/
structure Part6 where
  /-- Corner record credits, at Square x 32 + octet (R151). -/
  crec : List (Nat × Nat)
  /-- Corner waiter credits, at Square x 32 + octet (R151). -/
  cwait : List (Nat × Nat)
  /-- Corner records, at port x 2^46 + line number (R154). -/
  crn : List (Nat × Crn)
  /-- Mirror tracker tables, at Square x 2^46 + line number (R335, R337). -/
  mtt : List (Nat × MirTrk)
  /-- First blind set, at Square x 2 + array; 0x4000 is none (R343). -/
  blind : List (Nat × Nat)
  /-- Agents with a port UP at the partner, as its last PORT_STATE reports (R162). -/
  pagent : List (Nat × Bool)
  /-- Agents lost at this twin (R162). -/
  alost : List (Nat × Bool)
  /-- The twin pair, beside its registers. -/
  twx : TwinX
  /-- Slots, at ring x 4,096 + slot (R175). -/
  slot : List (Nat × Slot)
  deriving DecidableEq, Repr

/-- Part 7 of the block: srx, slotTmo, pfree, sfree, tq, push, act, buck, shp. -/
structure Part7 where
  /-- Slot rings, beside their registers. -/
  srx : List (Nat × SRingX)
  /-- SLOT_TIMEOUT has been raised since the counters were cleared (Table 7.7). -/
  slotTmo : Bool
  /-- The free list of the Plaza's bobbins (R175, R366). -/
  pfree : XFree
  /-- The list of free spill pages (R189). -/
  sfree : XFree
  /-- Queues, beside their registers. -/
  tq : List (Nat × TQueue)
  /-- The packet that a channel has selected and not yet pushed (R192, R199). -/
  push : List (Nat × List Pkt)
  /-- Active lists: bundle b at b, priority p of channel c at 4,096 + 8 c + p, port v at 8,192 + v (R199). -/
  act : List (Nat × ActList)
  /-- Committed and peak buckets with 16 fractional bits, at level x 65,536 + element; levels queue, bundle, channel, port (R204, R205). -/
  buck : List (Nat × Int × Int)
  /-- The CIR, PIR, CBS and PBS that an element's last refill took up, at level x 65,536 + element (R205). -/
  shp : List (Nat × Nat × Nat × Nat × Nat)
  deriving DecidableEq, Repr

/-- Part 8 of the block: bmove, tmSub, lane, gcl, gopen, wire, kacc, job, acc. -/
structure Part8 where
  /-- Bundles whose PRIORITY was changed and that the next selection in their channel moves: bundle and the priority it is listed at (R207). -/
  bmove : List (Nat × Nat)
  /-- Cycles of the 2.0 GHz core clock since the last AO tick or step: the traffic manager's copy of the time base leads the counter by half as many ns (R209). -/
  tmSub : Nat
  /-- The port last served, by selection lane (R198). -/
  lane : List (Nat × Nat)
  /-- Gate lists: mask and interval, at (channel x 2 + bank) x 1,024 + entry (R213). -/
  gcl : List (Nat × Nat × Nat)
  /-- An opening of a priority whose oversize packet has not been tried, at channel x 8 + priority (R215). -/
  gopen : List (Nat × Bool)
  /-- WIRE_FREE of a channel in half nanoseconds of device time (R214). -/
  wire : List (Nat × Nat)
  /-- Host accesses that the Kerb has permitted and that are not complete: port, tag, epoch, slice (R292, R294). -/
  kacc : List (Nat × Nat × Nat × Nat)
  /-- Loom threads, at cluster x 512 + engine of the cluster x 64 + thread (R252). -/
  job : List (Nat × Job)
  /-- Outstanding table accesses by number (R255, R263). -/
  acc : List (Nat × LAcc)
  deriving DecidableEq, Repr

/-- Part 9 of the block: accNext, pred, kline, kmiss, lmLate, lmTmo, lmRem, vwin, reel. -/
structure Part9 where
  /-- The number of the next table access (the model's own). -/
  accNext : Nat
  /-- Predictor entries, at engine x 4,096 + index: tag plus 1 and NODE (R268). -/
  pred : List (Nat × Nat × Nat)
  /-- Kiosk ways, at (bank x 16,384 + set) x 16 + way (R270). -/
  kline : List (Nat × KLine)
  /-- Miss entries by Kiosk bank (R270). -/
  kmiss : List (Nat × List KMiss)
  /-- Responses to table accesses that came after their timeout (R19). -/
  lmLate : Nat
  /-- JOB_TIMEOUT has been raised since the Loom counters were cleared (R263). -/
  lmTmo : Bool
  /-- REMOTE_LOST has been raised since the Loom counters were cleared (R256). -/
  lmRem : Bool
  /-- Memory windows of the vPPBs as the hosts program them, base and limit, at VCS x 256 + vPPB (R63, R75). -/
  vwin : List (Nat × Nat × Nat)
  /-- The Reel: packets sent and not acknowledged, oldest first (R312). -/
  reel : List Packet
  deriving DecidableEq, Repr

/-- Part 10 of the block: spnBuf, spnWait, spn, hbTx, whl, cout, repairs, scrub, raw. -/
structure Part10 where
  /-- By VC, the blocks of each accepted packet that waits to leave for the Crossing (R318). -/
  spnBuf : List (Nat × List Nat)
  /-- By VC, whether its head has been counted as waiting for credit; at 8, for the Reel (R312, R318). -/
  spnWait : List (Nat × Bool)
  /-- The Spindle link, beside its registers. -/
  spn : SpnX
  /-- TX_TIME of this twin's heartbeats by SEQ (R326). -/
  hbTx : List (Nat × Nat)
  /-- The Whorl lane, beside its registers. -/
  whl : WhlX
  /-- CXL.cache requests routed and not answered: the opcode awaited, the requester as inp, the responder as out (R164, R165). -/
  cout : List Msg
  /-- The run-time row repairs in force, each by the domain of its memory (R365). -/
  repairs : List Nat
  /-- The scrub, beside its registers. -/
  scrub : ScrubX
  /-- Code words stored by WRITE_RAW (data, META, CHECK), at (MEM x 256 + INSTANCE) x 2^48 + index (R367). -/
  raw : List (Nat × List Word × Nat × Nat)
  deriving DecidableEq, Repr

/-- Part 11 of the block: retire, retFull, faulty, dtgt, dwait, therm, avs, ao, slp. -/
structure Part11 where
  /-- Plaza bobbins: 1 to be retired when next freed, 2 retired (R366). -/
  retire : List (Nat × Nat)
  /-- REPAIR_EXHAUSTED has been raised for the full retire list (R366). -/
  retFull : Bool
  /-- The FAULTY context objects (R358). -/
  faulty : List Faulty
  /-- The state that a DRAINING or STOPPING domain goes to: 0 OFF, 1 RET (R385, R387). -/
  dtgt : List (Nat × Nat)
  /-- Domains in the 10 us wait before a wake step runs again (R381). -/
  dwait : List (Nat × Bool)
  /-- The thermal monitor, beside its registers. -/
  therm : ThermX
  /-- The AVSBus master. -/
  avs : AvsX
  /-- Time since cold reset in cycles of the 25 MHz AO clock, which slot timers run from (R405). -/
  ao : Nat
  /-- Slot power channels, beside their registers. -/
  slp : List (Nat × SlotCh)
  deriving DecidableEq, Repr

/-- Part 12 of the block: arrT, mgx, tst, cen, cskip, trc, trcNext, spdm. -/
structure Part12 where
  /-- By stamp, when a coherent request reached its Square: device time plus 1 (Table 17.8). -/
  arrT : List (Nat × Nat)
  /-- The management complex, beside its registers. -/
  mgx : MgmtX
  /-- The self-test that runs (R431). -/
  tst : TstX
  /-- The Census, beside its registers. -/
  cen : CenX
  /-- The value of cen.skips at the last Census record, by bank (Table 17.9). -/
  cskip : List (Nat × Nat)
  /-- The trace buffer: four words by record number (R433). -/
  trc : List (Nat × List Nat)
  /-- The trace record written next (R433). -/
  trcNext : Nat
  /-- SPDM connections: 0 I3C, 1 + v the PCIe VDM of VCS v, 65 + p the DOE mailbox of port p (R423). -/
  spdm : List (Nat × SpdmC)
  deriving DecidableEq, Repr

/-- The block itself: everything but the queue of waiting commands. -/
structure Mach extends Part0, Part1, Part2, Part3, Part4, Part5, Part6, Part7, Part8, Part9, Part10, Part11, Part12
  deriving DecidableEq, Repr

/-- The block right after reset: every field as INVENTORY.md lists it. -/
def Mach.reset : Mach where
  regs := []
  out := []
  freeCtr := 0
  fuse := ⟨false, 0, 0, [0, 0, 0, 0], [false, false, false, false], 820, []⟩
  pins := ⟨false, false, true, List.replicate 64 true, List.replicate 32 false, false, List.replicate 32 true, false, false⟩
  tb := ⟨0, 0, 0, 0, 0, none⟩
  hold := []
  evPend := []
  evLost := false
  aoLatch := []
  sram := []
  hlog := []
  stage := []
  ldr := ({} : Loader)
  vcs := []
  ldb := []
  homeSel := false
  domDef := []
  dec := []
  port := []
  sf := []
  msix := []
  ring := []
  xin := []
  stg := []
  flowt := []
  xq := []
  xdef := []
  xturn := []
  xaged := []
  mcs := []
  mcq := []
  xfree := ({} : XFree)
  owed := []
  mcNext := 0
  mir := []
  xwait := []
  xacct := []
  feSeen := false
  feDue := false
  xdown := []
  xret := []
  sqin := []
  rrLast := 0
  rrBurst := 0
  dbfNext := []
  stampCtr := 0
  dir := []
  trk := []
  specT := []
  memT := []
  mru := []
  bic := []
  sqx := []
  crec := []
  cwait := []
  crn := []
  mtt := []
  blind := []
  pagent := []
  alost := []
  twx := ({} : TwinX)
  slot := []
  srx := []
  slotTmo := false
  pfree := ({} : XFree)
  sfree := ({} : XFree)
  tq := []
  push := []
  act := []
  buck := []
  shp := []
  bmove := []
  tmSub := 0
  lane := []
  gcl := []
  gopen := []
  wire := []
  kacc := []
  job := []
  acc := []
  accNext := 0
  pred := []
  kline := []
  kmiss := []
  lmLate := 0
  lmTmo := false
  lmRem := false
  vwin := []
  reel := []
  spnBuf := []
  spnWait := []
  spn := ({} : SpnX)
  hbTx := []
  whl := ({} : WhlX)
  cout := []
  repairs := []
  scrub := ({} : ScrubX)
  raw := []
  retire := []
  retFull := false
  faulty := []
  dtgt := []
  dwait := []
  therm := ({} : ThermX)
  avs := ({} : AvsX)
  ao := 0
  slp := []
  arrT := []
  mgx := ({} : MgmtX)
  tst := ({} : TstX)
  cen := ({} : CenX)
  cskip := []
  trc := []
  trcNext := 0
  spdm := []

/-- The whole state: the commands that wait, first in first out, and the block. -/
structure State where
  pending : List Instr
  m : Mach
  deriving DecidableEq, Repr

/-- The state right after reset: no command waits. -/
def State.reset : State := ⟨[], Mach.reset⟩

/-- The reasons a step can stop with a fault. No command of this block faults: every refusal of the spec is an effect
(a record, a counter, an event) and the machine goes on. The one constructor keeps the type closed and nobody raises
it (safe). -/
inductive Fault where
  /-- Raised by nothing (safe). -/
  | none
  deriving DecidableEq, Repr

/-- The reasons a command has no meaning. -/
inductive Refusal where
  /-- Raised by exec's arm for a command the model has not reached (safe: the machine stops). -/
  | notModelled (mnemonic : String)
  deriving DecidableEq, Repr

end Sys2Proof.Machine
end

