-- ==== Sys2Proof/Machine/Prog.lean ====
section
/-!
DEFINITION. What a step can do, said once: the primitive updates of the block (Upd), the programs built from them
(Prog: an update, or a look at the block, and what follows), and their run. Every command's meaning is such a program,
so a property that every primitive update keeps is kept by every step. P is the continuation monad over Prog, which
gives the meanings do-notation.
-/
namespace Sys2Proof.Machine

/-- The primitive updates of the block. A register is stored as regStore says; a table entry at its canonical place. No
update writes a fuse. -/
inductive Upd where
  | reg (r : Reg) (v : Word)
  | out (v : List Out)
  | freeCtr (v : Nat)
  | pins (v : Pins)
  | tb (v : TimeBase)
  | hold (v : List EvRec)
  | evPend (v : List (EvRec × Option Nat))
  | evLost (v : Bool)
  | aoLatch (v : List EvRec)
  | sram (k : Nat) (v : Word)
  | sramAll
  | hlog (k : Nat) (v : List EvRec)
  | hlogAll
  | stage (k : Nat) (v : Word)
  | stageAll
  | ldr (v : Loader)
  | vcs (k : Nat) (v : VcsCfg)
  | vcsAll
  | ldb (v : List (Nat × Nat × Nat × Bool))
  | homeSel (v : Bool)
  | domDef (v : List (Nat × Nat × Bool))
  | dec (k : Nat) (v : Decoder)
  | decAll
  | port (k : Nat) (v : PortX)
  | portAll
  | sf (k : Nat) (v : SfCfg)
  | sfAll
  | msix (k : Nat) (v : Word)
  | msixAll
  | ring (k : Nat) (v : RingX)
  | ringAll
  | xin (k : Nat) (v : List (List Msg))
  | xinAll
  | stg (k : Nat) (v : List Staged)
  | stgAll
  | flowt (k : Nat) (v : Flowlet)
  | flowtAll
  | xq (k : Nat) (v : List QMsg)
  | xqAll
  | xdef (k : Nat) (v : Nat)
  | xdefAll
  | xturn (k : Nat) (v : Nat)
  | xturnAll
  | xaged (k : Nat) (v : Bool)
  | xagedAll
  | mcs (k : Nat) (v : McMsg)
  | mcsAll
  | mcq (k : Nat) (v : List Nat)
  | mcqAll
  | xfree (v : XFree)
  | owed (k : Nat) (v : List (Op × Nat × Nat))
  | owedAll
  | mcNext (v : Nat)
  | mir (k : Nat) (v : MirX)
  | mirAll
  | xwait (k : Nat) (v : Bool)
  | xwaitAll
  | xacct (k : Nat) (v : Nat × Nat)
  | xacctAll
  | feSeen (v : Bool)
  | feDue (v : Bool)
  | xdown (k : Nat) (v : Bool)
  | xdownAll
  | xret (k : Nat) (v : Bool)
  | xretAll
  | sqin (k : Nat) (v : List (Nat × Msg))
  | sqinAll
  | rrLast (v : Nat)
  | rrBurst (v : Nat)
  | dbfNext (k : Nat) (v : Nat)
  | dbfNextAll
  | stampCtr (v : Nat)
  | dir (k : Nat) (v : DirEnt)
  | dirAll
  | trk (k : Nat) (v : Trk)
  | trkAll
  | specT (k : Nat) (v : Nat)
  | specTAll
  | memT (k : Nat) (v : Nat)
  | memTAll
  | mru (k : Nat) (v : Nat)
  | mruAll
  | bic (v : List Msg)
  | sqx (k : Nat) (v : SqX)
  | sqxAll
  | crec (k : Nat) (v : Nat)
  | crecAll
  | cwait (k : Nat) (v : Nat)
  | cwaitAll
  | crn (k : Nat) (v : Crn)
  | crnAll
  | mtt (k : Nat) (v : MirTrk)
  | mttAll
  | blind (k : Nat) (v : Nat)
  | blindAll
  | pagent (k : Nat) (v : Bool)
  | pagentAll
  | alost (k : Nat) (v : Bool)
  | alostAll
  | twx (v : TwinX)
  | slot (k : Nat) (v : Slot)
  | slotAll
  | srx (k : Nat) (v : SRingX)
  | srxAll
  | slotTmo (v : Bool)
  | pfree (v : XFree)
  | sfree (v : XFree)
  | tq (k : Nat) (v : TQueue)
  | tqAll
  | push (k : Nat) (v : List Pkt)
  | pushAll
  | act (k : Nat) (v : ActList)
  | actAll
  | buck (k : Nat) (v : Int × Int)
  | buckAll
  | shp (k : Nat) (v : Nat × Nat × Nat × Nat)
  | shpAll
  | bmove (v : List (Nat × Nat))
  | tmSub (v : Nat)
  | lane (k : Nat) (v : Nat)
  | laneAll
  | gcl (k : Nat) (v : Nat × Nat)
  | gclAll
  | gopen (k : Nat) (v : Bool)
  | gopenAll
  | wire (k : Nat) (v : Nat)
  | wireAll
  | kacc (v : List (Nat × Nat × Nat × Nat))
  | job (k : Nat) (v : Job)
  | jobAll
  | acc (k : Nat) (v : LAcc)
  | accAll
  | accNext (v : Nat)
  | pred (k : Nat) (v : Nat × Nat)
  | predAll
  | kline (k : Nat) (v : KLine)
  | klineAll
  | kmiss (k : Nat) (v : List KMiss)
  | kmissAll
  | lmLate (v : Nat)
  | lmTmo (v : Bool)
  | lmRem (v : Bool)
  | vwin (k : Nat) (v : Nat × Nat)
  | vwinAll
  | reel (v : List Packet)
  | spnBuf (k : Nat) (v : List Nat)
  | spnBufAll
  | spnWait (k : Nat) (v : Bool)
  | spnWaitAll
  | spn (v : SpnX)
  | hbTx (k : Nat) (v : Nat)
  | hbTxAll
  | whl (v : WhlX)
  | cout (v : List Msg)
  | repairs (v : List Nat)
  | scrub (v : ScrubX)
  | raw (k : Nat) (v : List Word × Nat × Nat)
  | rawAll
  | retire (k : Nat) (v : Nat)
  | retireAll
  | retFull (v : Bool)
  | faulty (v : List Faulty)
  | dtgt (k : Nat) (v : Nat)
  | dtgtAll
  | dwait (k : Nat) (v : Bool)
  | dwaitAll
  | therm (v : ThermX)
  | avs (v : AvsX)
  | ao (v : Nat)
  | slp (k : Nat) (v : SlotCh)
  | slpAll
  | arrT (k : Nat) (v : Nat)
  | arrTAll
  | mgx (v : MgmtX)
  | tst (v : TstX)
  | cen (v : CenX)
  | cskip (k : Nat) (v : Nat)
  | cskipAll
  | trc (k : Nat) (v : List Nat)
  | trcAll
  | trcNext (v : Nat)
  | spdm (k : Nat) (v : SpdmC)
  | spdmAll

/-- The effect of one primitive update. -/
def Upd.apply : Upd → Mach → Mach
  | .reg r v, m => { m with regs := regStore m.regs r v }
  | .out v, m => { m with out := v }
  | .freeCtr v, m => { m with freeCtr := v }
  | .pins v, m => { m with pins := v }
  | .tb v, m => { m with tb := v }
  | .hold v, m => { m with hold := v }
  | .evPend v, m => { m with evPend := v }
  | .evLost v, m => { m with evLost := v }
  | .aoLatch v, m => { m with aoLatch := v }
  | .sram k v, m => { m with sram := tput 0#64 m.sram k v }
  | .sramAll, m => { m with sram := [] }
  | .hlog k v, m => { m with hlog := tput [] m.hlog k v }
  | .hlogAll, m => { m with hlog := [] }
  | .stage k v, m => { m with stage := tput 0#64 m.stage k v }
  | .stageAll, m => { m with stage := [] }
  | .ldr v, m => { m with ldr := v }
  | .vcs k v, m => { m with vcs := tput ⟨false, 0xFF, 0xFF, 0, 0⟩ m.vcs k v }
  | .vcsAll, m => { m with vcs := [] }
  | .ldb v, m => { m with ldb := v }
  | .homeSel v, m => { m with homeSel := v }
  | .domDef v, m => { m with domDef := v }
  | .dec k v, m => { m with dec := tput ({} : Decoder) m.dec k v }
  | .decAll, m => { m with dec := [] }
  | .port k v, m => { m with port := tput ({} : PortX) m.port k v }
  | .portAll, m => { m with port := [] }
  | .sf k v, m => { m with sf := tput ⟨false, false, false, [], []⟩ m.sf k v }
  | .sfAll, m => { m with sf := [] }
  | .msix k v, m => { m with msix := tput 0#64 m.msix k v }
  | .msixAll, m => { m with msix := [] }
  | .ring k v, m => { m with ring := tput ({} : RingX) m.ring k v }
  | .ringAll, m => { m with ring := [] }
  | .xin k v, m => { m with xin := tput [] m.xin k v }
  | .xinAll, m => { m with xin := [] }
  | .stg k v, m => { m with stg := tput [] m.stg k v }
  | .stgAll, m => { m with stg := [] }
  | .flowt k v, m => { m with flowt := tput ⟨0, 0, false, false⟩ m.flowt k v }
  | .flowtAll, m => { m with flowt := [] }
  | .xq k v, m => { m with xq := tput [] m.xq k v }
  | .xqAll, m => { m with xq := [] }
  | .xdef k v, m => { m with xdef := tput 0 m.xdef k v }
  | .xdefAll, m => { m with xdef := [] }
  | .xturn k v, m => { m with xturn := tput 1 m.xturn k v }
  | .xturnAll, m => { m with xturn := [] }
  | .xaged k v, m => { m with xaged := tput false m.xaged k v }
  | .xagedAll, m => { m with xaged := [] }
  | .mcs k v, m => { m with mcs := tput ({} : McMsg) m.mcs k v }
  | .mcsAll, m => { m with mcs := [] }
  | .mcq k v, m => { m with mcq := tput [] m.mcq k v }
  | .mcqAll, m => { m with mcq := [] }
  | .xfree v, m => { m with xfree := v }
  | .owed k v, m => { m with owed := tput [] m.owed k v }
  | .owedAll, m => { m with owed := [] }
  | .mcNext v, m => { m with mcNext := v }
  | .mir k v, m => { m with mir := tput ⟨0, 0, 0, []⟩ m.mir k v }
  | .mirAll, m => { m with mir := [] }
  | .xwait k v, m => { m with xwait := tput false m.xwait k v }
  | .xwaitAll, m => { m with xwait := [] }
  | .xacct k v, m => { m with xacct := tput (0, 0) m.xacct k v }
  | .xacctAll, m => { m with xacct := [] }
  | .feSeen v, m => { m with feSeen := v }
  | .feDue v, m => { m with feDue := v }
  | .xdown k v, m => { m with xdown := tput false m.xdown k v }
  | .xdownAll, m => { m with xdown := [] }
  | .xret k v, m => { m with xret := tput false m.xret k v }
  | .xretAll, m => { m with xret := [] }
  | .sqin k v, m => { m with sqin := tput [] m.sqin k v }
  | .sqinAll, m => { m with sqin := [] }
  | .rrLast v, m => { m with rrLast := v }
  | .rrBurst v, m => { m with rrBurst := v }
  | .dbfNext k v, m => { m with dbfNext := tput 0 m.dbfNext k v }
  | .dbfNextAll, m => { m with dbfNext := [] }
  | .stampCtr v, m => { m with stampCtr := v }
  | .dir k v, m => { m with dir := tput ({} : DirEnt) m.dir k v }
  | .dirAll, m => { m with dir := [] }
  | .trk k v, m => { m with trk := tput ({} : Trk) m.trk k v }
  | .trkAll, m => { m with trk := [] }
  | .specT k v, m => { m with specT := tput 0 m.specT k v }
  | .specTAll, m => { m with specT := [] }
  | .memT k v, m => { m with memT := tput 0 m.memT k v }
  | .memTAll, m => { m with memT := [] }
  | .mru k v, m => { m with mru := tput 16 m.mru k v }
  | .mruAll, m => { m with mru := [] }
  | .bic v, m => { m with bic := v }
  | .sqx k v, m => { m with sqx := tput ({} : SqX) m.sqx k v }
  | .sqxAll, m => { m with sqx := [] }
  | .crec k v, m => { m with crec := tput 64 m.crec k v }
  | .crecAll, m => { m with crec := [] }
  | .cwait k v, m => { m with cwait := tput 256 m.cwait k v }
  | .cwaitAll, m => { m with cwait := [] }
  | .crn k v, m => { m with crn := tput ({} : Crn) m.crn k v }
  | .crnAll, m => { m with crn := [] }
  | .mtt k v, m => { m with mtt := tput ({} : MirTrk) m.mtt k v }
  | .mttAll, m => { m with mtt := [] }
  | .blind k v, m => { m with blind := tput 0x4000 m.blind k v }
  | .blindAll, m => { m with blind := [] }
  | .pagent k v, m => { m with pagent := tput false m.pagent k v }
  | .pagentAll, m => { m with pagent := [] }
  | .alost k v, m => { m with alost := tput false m.alost k v }
  | .alostAll, m => { m with alost := [] }
  | .twx v, m => { m with twx := v }
  | .slot k v, m => { m with slot := tput ({} : Slot) m.slot k v }
  | .slotAll, m => { m with slot := [] }
  | .srx k v, m => { m with srx := tput ({} : SRingX) m.srx k v }
  | .srxAll, m => { m with srx := [] }
  | .slotTmo v, m => { m with slotTmo := v }
  | .pfree v, m => { m with pfree := v }
  | .sfree v, m => { m with sfree := v }
  | .tq k v, m => { m with tq := tput ({} : TQueue) m.tq k v }
  | .tqAll, m => { m with tq := [] }
  | .push k v, m => { m with push := tput [] m.push k v }
  | .pushAll, m => { m with push := [] }
  | .act k v, m => { m with act := tput ({} : ActList) m.act k v }
  | .actAll, m => { m with act := [] }
  | .buck k v, m => { m with buck := tput (0, 0) m.buck k v }
  | .buckAll, m => { m with buck := [] }
  | .shp k v, m => { m with shp := tput (0, 0, 0, 0) m.shp k v }
  | .shpAll, m => { m with shp := [] }
  | .bmove v, m => { m with bmove := v }
  | .tmSub v, m => { m with tmSub := v }
  | .lane k v, m => { m with lane := tput 63 m.lane k v }
  | .laneAll, m => { m with lane := [] }
  | .gcl k v, m => { m with gcl := tput (0, 0) m.gcl k v }
  | .gclAll, m => { m with gcl := [] }
  | .gopen k v, m => { m with gopen := tput false m.gopen k v }
  | .gopenAll, m => { m with gopen := [] }
  | .wire k v, m => { m with wire := tput 0 m.wire k v }
  | .wireAll, m => { m with wire := [] }
  | .kacc v, m => { m with kacc := v }
  | .job k v, m => { m with job := tput ({} : Job) m.job k v }
  | .jobAll, m => { m with job := [] }
  | .acc k v, m => { m with acc := tput ({} : LAcc) m.acc k v }
  | .accAll, m => { m with acc := [] }
  | .accNext v, m => { m with accNext := v }
  | .pred k v, m => { m with pred := tput (0, 0) m.pred k v }
  | .predAll, m => { m with pred := [] }
  | .kline k v, m => { m with kline := tput ({} : KLine) m.kline k v }
  | .klineAll, m => { m with kline := [] }
  | .kmiss k v, m => { m with kmiss := tput [] m.kmiss k v }
  | .kmissAll, m => { m with kmiss := [] }
  | .lmLate v, m => { m with lmLate := v }
  | .lmTmo v, m => { m with lmTmo := v }
  | .lmRem v, m => { m with lmRem := v }
  | .vwin k v, m => { m with vwin := tput (1, 0) m.vwin k v }
  | .vwinAll, m => { m with vwin := [] }
  | .reel v, m => { m with reel := v }
  | .spnBuf k v, m => { m with spnBuf := tput [] m.spnBuf k v }
  | .spnBufAll, m => { m with spnBuf := [] }
  | .spnWait k v, m => { m with spnWait := tput false m.spnWait k v }
  | .spnWaitAll, m => { m with spnWait := [] }
  | .spn v, m => { m with spn := v }
  | .hbTx k v, m => { m with hbTx := tput 0 m.hbTx k v }
  | .hbTxAll, m => { m with hbTx := [] }
  | .whl v, m => { m with whl := v }
  | .cout v, m => { m with cout := v }
  | .repairs v, m => { m with repairs := v }
  | .scrub v, m => { m with scrub := v }
  | .raw k v, m => { m with raw := tput ([], 0, 0) m.raw k v }
  | .rawAll, m => { m with raw := [] }
  | .retire k v, m => { m with retire := tput 0 m.retire k v }
  | .retireAll, m => { m with retire := [] }
  | .retFull v, m => { m with retFull := v }
  | .faulty v, m => { m with faulty := v }
  | .dtgt k v, m => { m with dtgt := tput 0 m.dtgt k v }
  | .dtgtAll, m => { m with dtgt := [] }
  | .dwait k v, m => { m with dwait := tput false m.dwait k v }
  | .dwaitAll, m => { m with dwait := [] }
  | .therm v, m => { m with therm := v }
  | .avs v, m => { m with avs := v }
  | .ao v, m => { m with ao := v }
  | .slp k v, m => { m with slp := tput ({} : SlotCh) m.slp k v }
  | .slpAll, m => { m with slp := [] }
  | .arrT k v, m => { m with arrT := tput 0 m.arrT k v }
  | .arrTAll, m => { m with arrT := [] }
  | .mgx v, m => { m with mgx := v }
  | .tst v, m => { m with tst := v }
  | .cen v, m => { m with cen := v }
  | .cskip k v, m => { m with cskip := tput 0 m.cskip k v }
  | .cskipAll, m => { m with cskip := [] }
  | .trc k v, m => { m with trc := tput [] m.trc k v }
  | .trcAll, m => { m with trc := [] }
  | .trcNext v, m => { m with trcNext := v }
  | .spdm k v, m => { m with spdm := tput ({} : SpdmC) m.spdm k v }
  | .spdmAll, m => { m with spdm := [] }

/-- A program over the block: nothing more; an update and the rest; a look at the block that chooses the rest. -/
inductive Prog where
  | done
  | upd (u : Upd) (k : Prog)
  | look (k : Mach → Prog)

/-- The run of a program. -/
def Prog.run : Prog → Mach → Mach
  | .done, m => m
  | .upd u k, m => k.run (u.apply m)
  | .look k, m => (k m).run m

/-- A program that answers a value to what follows it. -/
abbrev P (α : Type) := Cont Prog α

/-- The program of a `P Unit` with nothing after it. -/
def toProg (x : P Unit) : Prog := x fun _ => Prog.done

/-- One primitive update. -/
def doU (u : Upd) : P Unit := fun k => Prog.upd u (k ())

/-- The block as it stands. -/
def getM : P Mach := fun k => Prog.look fun m => k m

/-- The effect of a meaning on the state: the block runs the program, the queue stands as it is, and the step goes
on. -/
def runCmd (x : P Unit) (s : State) : Host.Outcome State Fault Refusal :=
  .next { s with m := (toProg x).run s.m }

/-- The value of a register. -/
def Mach.rd (m : Mach) (r : Reg) : Word := regGet m.regs r

/-- The value of a field. -/
def Mach.g (m : Mach) (f : RF) : Nat := bitsAt (m.rd ⟨f.k, f.i⟩).toNat f.lo f.w

/-- The value of a field. -/
def rd (f : RF) : P Nat := do return (← getM).g f

/-- The value of a register. -/
def rdReg (k : RegKind) (i : Nat) : P Nat := do return ((← getM).rd ⟨k, i⟩).toNat

/-- The hardware stores a register. -/
def wrReg (k : RegKind) (i : Nat) (v : Nat) : P Unit := doU (.reg ⟨k, i⟩ (BitVec.ofNat 64 v))

/-- The hardware stores a field. -/
def wr (f : RF) (v : Nat) : P Unit := do
  let m ← getM
  doU (.reg ⟨f.k, f.i⟩ (BitVec.ofNat 64 (putBits (m.rd ⟨f.k, f.i⟩).toNat f.lo f.w v)))

/-- A register returns to its reset value. -/
def rstReg (k : RegKind) (i : Nat) : P Unit := doU (.reg ⟨k, i⟩ (resetVal ⟨k, i⟩))

/-- A saturating counter counts `n` more. -/
def addSat (f : RF) (n : Nat) : P Unit := do
  let v ← rd f
  wr f (Nat.min (v + n) (2 ^ f.w - 1))

/-- A saturating counter counts one more. -/
def inc (f : RF) : P Unit := addSat f 1

/-- A count of what is held falls, never below 0. -/
def sub (f : RF) (n : Nat) : P Unit := do
  let v ← rd f
  wr f (v - n)

/-- A wrapping index or sequence number advances. -/
def addWrap (f : RF) (n : Nat) : P Unit := do
  let v ← rd f
  wr f ((v + n) % 2 ^ f.w)

/-- out as it stands. -/
def getOut : P (List Out) := do return (← getM).out
/-- out is set. -/
def putOut (v : List Out) : P Unit := doU (.out v)
/-- out is changed by `f`. -/
def modOut (f : List Out → List Out) : P Unit := do putOut (f (← getOut))

/-- freeCtr as it stands. -/
def getFreeCtr : P Nat := do return (← getM).freeCtr
/-- freeCtr is set. -/
def putFreeCtr (v : Nat) : P Unit := doU (.freeCtr v)
/-- freeCtr is changed by `f`. -/
def modFreeCtr (f : Nat → Nat) : P Unit := do putFreeCtr (f (← getFreeCtr))

/-- fuse as it stands. -/
def getFuse : P Fuses := do return (← getM).fuse

/-- pins as it stands. -/
def getPins : P Pins := do return (← getM).pins
/-- pins is set. -/
def putPins (v : Pins) : P Unit := doU (.pins v)
/-- pins is changed by `f`. -/
def modPins (f : Pins → Pins) : P Unit := do putPins (f (← getPins))

/-- tb as it stands. -/
def getTb : P TimeBase := do return (← getM).tb
/-- tb is set. -/
def putTb (v : TimeBase) : P Unit := doU (.tb v)
/-- tb is changed by `f`. -/
def modTb (f : TimeBase → TimeBase) : P Unit := do putTb (f (← getTb))

/-- hold as it stands. -/
def getHold : P (List EvRec) := do return (← getM).hold
/-- hold is set. -/
def putHold (v : List EvRec) : P Unit := doU (.hold v)
/-- hold is changed by `f`. -/
def modHold (f : List EvRec → List EvRec) : P Unit := do putHold (f (← getHold))

/-- evPend as it stands. -/
def getEvPend : P (List (EvRec × Option Nat)) := do return (← getM).evPend
/-- evPend is set. -/
def putEvPend (v : List (EvRec × Option Nat)) : P Unit := doU (.evPend v)
/-- evPend is changed by `f`. -/
def modEvPend (f : List (EvRec × Option Nat) → List (EvRec × Option Nat)) : P Unit := do putEvPend (f (← getEvPend))

/-- evLost as it stands. -/
def getEvLost : P Bool := do return (← getM).evLost
/-- evLost is set. -/
def putEvLost (v : Bool) : P Unit := doU (.evLost v)
/-- evLost is changed by `f`. -/
def modEvLost (f : Bool → Bool) : P Unit := do putEvLost (f (← getEvLost))

/-- aoLatch as it stands. -/
def getAoLatch : P (List EvRec) := do return (← getM).aoLatch
/-- aoLatch is set. -/
def putAoLatch (v : List EvRec) : P Unit := doU (.aoLatch v)
/-- aoLatch is changed by `f`. -/
def modAoLatch (f : List EvRec → List EvRec) : P Unit := do putAoLatch (f (← getAoLatch))

/-- Entry `k` of sram. -/
def Mach.getSram (m : Mach) (k : Nat) : Word := tget 0#64 m.sram k
/-- Entry `k` of sram. -/
def getSram (k : Nat) : P Word := do return (← getM).getSram k
/-- Entry `k` of sram is set. -/
def putSram (k : Nat) (v : Word) : P Unit := doU (.sram k v)
/-- Every entry of sram returns to its default. -/
def clearSram : P Unit := doU .sramAll
/-- Entry `k` of sram is changed by `f`. -/
def modSram (k : Nat) (f : Word → Word) : P Unit := do putSram k (f (← getSram k))

/-- Entry `k` of hlog. -/
def Mach.getHlog (m : Mach) (k : Nat) : List EvRec := tget [] m.hlog k
/-- Entry `k` of hlog. -/
def getHlog (k : Nat) : P (List EvRec) := do return (← getM).getHlog k
/-- Entry `k` of hlog is set. -/
def putHlog (k : Nat) (v : List EvRec) : P Unit := doU (.hlog k v)
/-- Every entry of hlog returns to its default. -/
def clearHlog : P Unit := doU .hlogAll
/-- Entry `k` of hlog is changed by `f`. -/
def modHlog (k : Nat) (f : List EvRec → List EvRec) : P Unit := do putHlog k (f (← getHlog k))

/-- Entry `k` of stage. -/
def Mach.getStage (m : Mach) (k : Nat) : Word := tget 0#64 m.stage k
/-- Entry `k` of stage. -/
def getStage (k : Nat) : P Word := do return (← getM).getStage k
/-- Entry `k` of stage is set. -/
def putStage (k : Nat) (v : Word) : P Unit := doU (.stage k v)
/-- Every entry of stage returns to its default. -/
def clearStage : P Unit := doU .stageAll
/-- Entry `k` of stage is changed by `f`. -/
def modStage (k : Nat) (f : Word → Word) : P Unit := do putStage k (f (← getStage k))

/-- ldr as it stands. -/
def getLdr : P Loader := do return (← getM).ldr
/-- ldr is set. -/
def putLdr (v : Loader) : P Unit := doU (.ldr v)
/-- ldr is changed by `f`. -/
def modLdr (f : Loader → Loader) : P Unit := do putLdr (f (← getLdr))

/-- Entry `k` of vcs. -/
def Mach.getVcs (m : Mach) (k : Nat) : VcsCfg := tget ⟨false, 0xFF, 0xFF, 0, 0⟩ m.vcs k
/-- Entry `k` of vcs. -/
def getVcs (k : Nat) : P VcsCfg := do return (← getM).getVcs k
/-- Entry `k` of vcs is set. -/
def putVcs (k : Nat) (v : VcsCfg) : P Unit := doU (.vcs k v)
/-- Every entry of vcs returns to its default. -/
def clearVcs : P Unit := doU .vcsAll
/-- Entry `k` of vcs is changed by `f`. -/
def modVcs (k : Nat) (f : VcsCfg → VcsCfg) : P Unit := do putVcs k (f (← getVcs k))

/-- ldb as it stands. -/
def getLdb : P (List (Nat × Nat × Nat × Bool)) := do return (← getM).ldb
/-- ldb is set. -/
def putLdb (v : List (Nat × Nat × Nat × Bool)) : P Unit := doU (.ldb v)
/-- ldb is changed by `f`. -/
def modLdb (f : List (Nat × Nat × Nat × Bool) → List (Nat × Nat × Nat × Bool)) : P Unit := do putLdb (f (← getLdb))

/-- homeSel as it stands. -/
def getHomeSel : P Bool := do return (← getM).homeSel
/-- homeSel is set. -/
def putHomeSel (v : Bool) : P Unit := doU (.homeSel v)
/-- homeSel is changed by `f`. -/
def modHomeSel (f : Bool → Bool) : P Unit := do putHomeSel (f (← getHomeSel))

/-- domDef as it stands. -/
def getDomDef : P (List (Nat × Nat × Bool)) := do return (← getM).domDef
/-- domDef is set. -/
def putDomDef (v : List (Nat × Nat × Bool)) : P Unit := doU (.domDef v)
/-- domDef is changed by `f`. -/
def modDomDef (f : List (Nat × Nat × Bool) → List (Nat × Nat × Bool)) : P Unit := do putDomDef (f (← getDomDef))

/-- Entry `k` of dec. -/
def Mach.getDec (m : Mach) (k : Nat) : Decoder := tget ({} : Decoder) m.dec k
/-- Entry `k` of dec. -/
def getDec (k : Nat) : P Decoder := do return (← getM).getDec k
/-- Entry `k` of dec is set. -/
def putDec (k : Nat) (v : Decoder) : P Unit := doU (.dec k v)
/-- Every entry of dec returns to its default. -/
def clearDec : P Unit := doU .decAll
/-- Entry `k` of dec is changed by `f`. -/
def modDec (k : Nat) (f : Decoder → Decoder) : P Unit := do putDec k (f (← getDec k))

/-- Entry `k` of port. -/
def Mach.getPort (m : Mach) (k : Nat) : PortX := tget ({} : PortX) m.port k
/-- Entry `k` of port. -/
def getPort (k : Nat) : P PortX := do return (← getM).getPort k
/-- Entry `k` of port is set. -/
def putPort (k : Nat) (v : PortX) : P Unit := doU (.port k v)
/-- Every entry of port returns to its default. -/
def clearPort : P Unit := doU .portAll
/-- Entry `k` of port is changed by `f`. -/
def modPort (k : Nat) (f : PortX → PortX) : P Unit := do putPort k (f (← getPort k))

/-- Entry `k` of sf. -/
def Mach.getSf (m : Mach) (k : Nat) : SfCfg := tget ⟨false, false, false, [], []⟩ m.sf k
/-- Entry `k` of sf. -/
def getSf (k : Nat) : P SfCfg := do return (← getM).getSf k
/-- Entry `k` of sf is set. -/
def putSf (k : Nat) (v : SfCfg) : P Unit := doU (.sf k v)
/-- Every entry of sf returns to its default. -/
def clearSf : P Unit := doU .sfAll
/-- Entry `k` of sf is changed by `f`. -/
def modSf (k : Nat) (f : SfCfg → SfCfg) : P Unit := do putSf k (f (← getSf k))

/-- Entry `k` of msix. -/
def Mach.getMsix (m : Mach) (k : Nat) : Word := tget 0#64 m.msix k
/-- Entry `k` of msix. -/
def getMsix (k : Nat) : P Word := do return (← getM).getMsix k
/-- Entry `k` of msix is set. -/
def putMsix (k : Nat) (v : Word) : P Unit := doU (.msix k v)
/-- Every entry of msix returns to its default. -/
def clearMsix : P Unit := doU .msixAll
/-- Entry `k` of msix is changed by `f`. -/
def modMsix (k : Nat) (f : Word → Word) : P Unit := do putMsix k (f (← getMsix k))

/-- Entry `k` of ring. -/
def Mach.getRing (m : Mach) (k : Nat) : RingX := tget ({} : RingX) m.ring k
/-- Entry `k` of ring. -/
def getRing (k : Nat) : P RingX := do return (← getM).getRing k
/-- Entry `k` of ring is set. -/
def putRing (k : Nat) (v : RingX) : P Unit := doU (.ring k v)
/-- Every entry of ring returns to its default. -/
def clearRing : P Unit := doU .ringAll
/-- Entry `k` of ring is changed by `f`. -/
def modRing (k : Nat) (f : RingX → RingX) : P Unit := do putRing k (f (← getRing k))

/-- Entry `k` of xin. -/
def Mach.getXin (m : Mach) (k : Nat) : List (List Msg) := tget [] m.xin k
/-- Entry `k` of xin. -/
def getXin (k : Nat) : P (List (List Msg)) := do return (← getM).getXin k
/-- Entry `k` of xin is set. -/
def putXin (k : Nat) (v : List (List Msg)) : P Unit := doU (.xin k v)
/-- Every entry of xin returns to its default. -/
def clearXin : P Unit := doU .xinAll
/-- Entry `k` of xin is changed by `f`. -/
def modXin (k : Nat) (f : List (List Msg) → List (List Msg)) : P Unit := do putXin k (f (← getXin k))

/-- Entry `k` of stg. -/
def Mach.getStg (m : Mach) (k : Nat) : List Staged := tget [] m.stg k
/-- Entry `k` of stg. -/
def getStg (k : Nat) : P (List Staged) := do return (← getM).getStg k
/-- Entry `k` of stg is set. -/
def putStg (k : Nat) (v : List Staged) : P Unit := doU (.stg k v)
/-- Every entry of stg returns to its default. -/
def clearStg : P Unit := doU .stgAll
/-- Entry `k` of stg is changed by `f`. -/
def modStg (k : Nat) (f : List Staged → List Staged) : P Unit := do putStg k (f (← getStg k))

/-- Entry `k` of flowt. -/
def Mach.getFlowt (m : Mach) (k : Nat) : Flowlet := tget ⟨0, 0, false, false⟩ m.flowt k
/-- Entry `k` of flowt. -/
def getFlowt (k : Nat) : P Flowlet := do return (← getM).getFlowt k
/-- Entry `k` of flowt is set. -/
def putFlowt (k : Nat) (v : Flowlet) : P Unit := doU (.flowt k v)
/-- Every entry of flowt returns to its default. -/
def clearFlowt : P Unit := doU .flowtAll
/-- Entry `k` of flowt is changed by `f`. -/
def modFlowt (k : Nat) (f : Flowlet → Flowlet) : P Unit := do putFlowt k (f (← getFlowt k))

/-- Entry `k` of xq. -/
def Mach.getXq (m : Mach) (k : Nat) : List QMsg := tget [] m.xq k
/-- Entry `k` of xq. -/
def getXq (k : Nat) : P (List QMsg) := do return (← getM).getXq k
/-- Entry `k` of xq is set. -/
def putXq (k : Nat) (v : List QMsg) : P Unit := doU (.xq k v)
/-- Every entry of xq returns to its default. -/
def clearXq : P Unit := doU .xqAll
/-- Entry `k` of xq is changed by `f`. -/
def modXq (k : Nat) (f : List QMsg → List QMsg) : P Unit := do putXq k (f (← getXq k))

/-- Entry `k` of xdef. -/
def Mach.getXdef (m : Mach) (k : Nat) : Nat := tget 0 m.xdef k
/-- Entry `k` of xdef. -/
def getXdef (k : Nat) : P Nat := do return (← getM).getXdef k
/-- Entry `k` of xdef is set. -/
def putXdef (k : Nat) (v : Nat) : P Unit := doU (.xdef k v)
/-- Every entry of xdef returns to its default. -/
def clearXdef : P Unit := doU .xdefAll
/-- Entry `k` of xdef is changed by `f`. -/
def modXdef (k : Nat) (f : Nat → Nat) : P Unit := do putXdef k (f (← getXdef k))

/-- Entry `k` of xturn. -/
def Mach.getXturn (m : Mach) (k : Nat) : Nat := tget 1 m.xturn k
/-- Entry `k` of xturn. -/
def getXturn (k : Nat) : P Nat := do return (← getM).getXturn k
/-- Entry `k` of xturn is set. -/
def putXturn (k : Nat) (v : Nat) : P Unit := doU (.xturn k v)
/-- Every entry of xturn returns to its default. -/
def clearXturn : P Unit := doU .xturnAll
/-- Entry `k` of xturn is changed by `f`. -/
def modXturn (k : Nat) (f : Nat → Nat) : P Unit := do putXturn k (f (← getXturn k))

/-- Entry `k` of xaged. -/
def Mach.getXaged (m : Mach) (k : Nat) : Bool := tget false m.xaged k
/-- Entry `k` of xaged. -/
def getXaged (k : Nat) : P Bool := do return (← getM).getXaged k
/-- Entry `k` of xaged is set. -/
def putXaged (k : Nat) (v : Bool) : P Unit := doU (.xaged k v)
/-- Every entry of xaged returns to its default. -/
def clearXaged : P Unit := doU .xagedAll
/-- Entry `k` of xaged is changed by `f`. -/
def modXaged (k : Nat) (f : Bool → Bool) : P Unit := do putXaged k (f (← getXaged k))

/-- Entry `k` of mcs. -/
def Mach.getMcs (m : Mach) (k : Nat) : McMsg := tget ({} : McMsg) m.mcs k
/-- Entry `k` of mcs. -/
def getMcs (k : Nat) : P McMsg := do return (← getM).getMcs k
/-- Entry `k` of mcs is set. -/
def putMcs (k : Nat) (v : McMsg) : P Unit := doU (.mcs k v)
/-- Every entry of mcs returns to its default. -/
def clearMcs : P Unit := doU .mcsAll
/-- Entry `k` of mcs is changed by `f`. -/
def modMcs (k : Nat) (f : McMsg → McMsg) : P Unit := do putMcs k (f (← getMcs k))

/-- Entry `k` of mcq. -/
def Mach.getMcq (m : Mach) (k : Nat) : List Nat := tget [] m.mcq k
/-- Entry `k` of mcq. -/
def getMcq (k : Nat) : P (List Nat) := do return (← getM).getMcq k
/-- Entry `k` of mcq is set. -/
def putMcq (k : Nat) (v : List Nat) : P Unit := doU (.mcq k v)
/-- Every entry of mcq returns to its default. -/
def clearMcq : P Unit := doU .mcqAll
/-- Entry `k` of mcq is changed by `f`. -/
def modMcq (k : Nat) (f : List Nat → List Nat) : P Unit := do putMcq k (f (← getMcq k))

/-- xfree as it stands. -/
def getXfree : P XFree := do return (← getM).xfree
/-- xfree is set. -/
def putXfree (v : XFree) : P Unit := doU (.xfree v)
/-- xfree is changed by `f`. -/
def modXfree (f : XFree → XFree) : P Unit := do putXfree (f (← getXfree))

/-- Entry `k` of owed. -/
def Mach.getOwed (m : Mach) (k : Nat) : List (Op × Nat × Nat) := tget [] m.owed k
/-- Entry `k` of owed. -/
def getOwed (k : Nat) : P (List (Op × Nat × Nat)) := do return (← getM).getOwed k
/-- Entry `k` of owed is set. -/
def putOwed (k : Nat) (v : List (Op × Nat × Nat)) : P Unit := doU (.owed k v)
/-- Every entry of owed returns to its default. -/
def clearOwed : P Unit := doU .owedAll
/-- Entry `k` of owed is changed by `f`. -/
def modOwed (k : Nat) (f : List (Op × Nat × Nat) → List (Op × Nat × Nat)) : P Unit := do putOwed k (f (← getOwed k))

/-- mcNext as it stands. -/
def getMcNext : P Nat := do return (← getM).mcNext
/-- mcNext is set. -/
def putMcNext (v : Nat) : P Unit := doU (.mcNext v)
/-- mcNext is changed by `f`. -/
def modMcNext (f : Nat → Nat) : P Unit := do putMcNext (f (← getMcNext))

/-- Entry `k` of mir. -/
def Mach.getMir (m : Mach) (k : Nat) : MirX := tget ⟨0, 0, 0, []⟩ m.mir k
/-- Entry `k` of mir. -/
def getMir (k : Nat) : P MirX := do return (← getM).getMir k
/-- Entry `k` of mir is set. -/
def putMir (k : Nat) (v : MirX) : P Unit := doU (.mir k v)
/-- Every entry of mir returns to its default. -/
def clearMir : P Unit := doU .mirAll
/-- Entry `k` of mir is changed by `f`. -/
def modMir (k : Nat) (f : MirX → MirX) : P Unit := do putMir k (f (← getMir k))

/-- Entry `k` of xwait. -/
def Mach.getXwait (m : Mach) (k : Nat) : Bool := tget false m.xwait k
/-- Entry `k` of xwait. -/
def getXwait (k : Nat) : P Bool := do return (← getM).getXwait k
/-- Entry `k` of xwait is set. -/
def putXwait (k : Nat) (v : Bool) : P Unit := doU (.xwait k v)
/-- Every entry of xwait returns to its default. -/
def clearXwait : P Unit := doU .xwaitAll
/-- Entry `k` of xwait is changed by `f`. -/
def modXwait (k : Nat) (f : Bool → Bool) : P Unit := do putXwait k (f (← getXwait k))

/-- Entry `k` of xacct. -/
def Mach.getXacct (m : Mach) (k : Nat) : Nat × Nat := tget (0, 0) m.xacct k
/-- Entry `k` of xacct. -/
def getXacct (k : Nat) : P (Nat × Nat) := do return (← getM).getXacct k
/-- Entry `k` of xacct is set. -/
def putXacct (k : Nat) (v : Nat × Nat) : P Unit := doU (.xacct k v)
/-- Every entry of xacct returns to its default. -/
def clearXacct : P Unit := doU .xacctAll
/-- Entry `k` of xacct is changed by `f`. -/
def modXacct (k : Nat) (f : Nat × Nat → Nat × Nat) : P Unit := do putXacct k (f (← getXacct k))

/-- feSeen as it stands. -/
def getFeSeen : P Bool := do return (← getM).feSeen
/-- feSeen is set. -/
def putFeSeen (v : Bool) : P Unit := doU (.feSeen v)
/-- feSeen is changed by `f`. -/
def modFeSeen (f : Bool → Bool) : P Unit := do putFeSeen (f (← getFeSeen))

/-- feDue as it stands. -/
def getFeDue : P Bool := do return (← getM).feDue
/-- feDue is set. -/
def putFeDue (v : Bool) : P Unit := doU (.feDue v)
/-- feDue is changed by `f`. -/
def modFeDue (f : Bool → Bool) : P Unit := do putFeDue (f (← getFeDue))

/-- Entry `k` of xdown. -/
def Mach.getXdown (m : Mach) (k : Nat) : Bool := tget false m.xdown k
/-- Entry `k` of xdown. -/
def getXdown (k : Nat) : P Bool := do return (← getM).getXdown k
/-- Entry `k` of xdown is set. -/
def putXdown (k : Nat) (v : Bool) : P Unit := doU (.xdown k v)
/-- Every entry of xdown returns to its default. -/
def clearXdown : P Unit := doU .xdownAll
/-- Entry `k` of xdown is changed by `f`. -/
def modXdown (k : Nat) (f : Bool → Bool) : P Unit := do putXdown k (f (← getXdown k))

/-- Entry `k` of xret. -/
def Mach.getXret (m : Mach) (k : Nat) : Bool := tget false m.xret k
/-- Entry `k` of xret. -/
def getXret (k : Nat) : P Bool := do return (← getM).getXret k
/-- Entry `k` of xret is set. -/
def putXret (k : Nat) (v : Bool) : P Unit := doU (.xret k v)
/-- Every entry of xret returns to its default. -/
def clearXret : P Unit := doU .xretAll
/-- Entry `k` of xret is changed by `f`. -/
def modXret (k : Nat) (f : Bool → Bool) : P Unit := do putXret k (f (← getXret k))

/-- Entry `k` of sqin. -/
def Mach.getSqin (m : Mach) (k : Nat) : List (Nat × Msg) := tget [] m.sqin k
/-- Entry `k` of sqin. -/
def getSqin (k : Nat) : P (List (Nat × Msg)) := do return (← getM).getSqin k
/-- Entry `k` of sqin is set. -/
def putSqin (k : Nat) (v : List (Nat × Msg)) : P Unit := doU (.sqin k v)
/-- Every entry of sqin returns to its default. -/
def clearSqin : P Unit := doU .sqinAll
/-- Entry `k` of sqin is changed by `f`. -/
def modSqin (k : Nat) (f : List (Nat × Msg) → List (Nat × Msg)) : P Unit := do putSqin k (f (← getSqin k))

/-- rrLast as it stands. -/
def getRrLast : P Nat := do return (← getM).rrLast
/-- rrLast is set. -/
def putRrLast (v : Nat) : P Unit := doU (.rrLast v)
/-- rrLast is changed by `f`. -/
def modRrLast (f : Nat → Nat) : P Unit := do putRrLast (f (← getRrLast))

/-- rrBurst as it stands. -/
def getRrBurst : P Nat := do return (← getM).rrBurst
/-- rrBurst is set. -/
def putRrBurst (v : Nat) : P Unit := doU (.rrBurst v)
/-- rrBurst is changed by `f`. -/
def modRrBurst (f : Nat → Nat) : P Unit := do putRrBurst (f (← getRrBurst))

/-- Entry `k` of dbfNext. -/
def Mach.getDbfNext (m : Mach) (k : Nat) : Nat := tget 0 m.dbfNext k
/-- Entry `k` of dbfNext. -/
def getDbfNext (k : Nat) : P Nat := do return (← getM).getDbfNext k
/-- Entry `k` of dbfNext is set. -/
def putDbfNext (k : Nat) (v : Nat) : P Unit := doU (.dbfNext k v)
/-- Every entry of dbfNext returns to its default. -/
def clearDbfNext : P Unit := doU .dbfNextAll
/-- Entry `k` of dbfNext is changed by `f`. -/
def modDbfNext (k : Nat) (f : Nat → Nat) : P Unit := do putDbfNext k (f (← getDbfNext k))

/-- stampCtr as it stands. -/
def getStampCtr : P Nat := do return (← getM).stampCtr
/-- stampCtr is set. -/
def putStampCtr (v : Nat) : P Unit := doU (.stampCtr v)
/-- stampCtr is changed by `f`. -/
def modStampCtr (f : Nat → Nat) : P Unit := do putStampCtr (f (← getStampCtr))

/-- Entry `k` of dir. -/
def Mach.getDir (m : Mach) (k : Nat) : DirEnt := tget ({} : DirEnt) m.dir k
/-- Entry `k` of dir. -/
def getDir (k : Nat) : P DirEnt := do return (← getM).getDir k
/-- Entry `k` of dir is set. -/
def putDir (k : Nat) (v : DirEnt) : P Unit := doU (.dir k v)
/-- Every entry of dir returns to its default. -/
def clearDir : P Unit := doU .dirAll
/-- Entry `k` of dir is changed by `f`. -/
def modDir (k : Nat) (f : DirEnt → DirEnt) : P Unit := do putDir k (f (← getDir k))

/-- Entry `k` of trk. -/
def Mach.getTrk (m : Mach) (k : Nat) : Trk := tget ({} : Trk) m.trk k
/-- Entry `k` of trk. -/
def getTrk (k : Nat) : P Trk := do return (← getM).getTrk k
/-- Entry `k` of trk is set. -/
def putTrk (k : Nat) (v : Trk) : P Unit := doU (.trk k v)
/-- Every entry of trk returns to its default. -/
def clearTrk : P Unit := doU .trkAll
/-- Entry `k` of trk is changed by `f`. -/
def modTrk (k : Nat) (f : Trk → Trk) : P Unit := do putTrk k (f (← getTrk k))

/-- Entry `k` of specT. -/
def Mach.getSpecT (m : Mach) (k : Nat) : Nat := tget 0 m.specT k
/-- Entry `k` of specT. -/
def getSpecT (k : Nat) : P Nat := do return (← getM).getSpecT k
/-- Entry `k` of specT is set. -/
def putSpecT (k : Nat) (v : Nat) : P Unit := doU (.specT k v)
/-- Every entry of specT returns to its default. -/
def clearSpecT : P Unit := doU .specTAll
/-- Entry `k` of specT is changed by `f`. -/
def modSpecT (k : Nat) (f : Nat → Nat) : P Unit := do putSpecT k (f (← getSpecT k))

/-- Entry `k` of memT. -/
def Mach.getMemT (m : Mach) (k : Nat) : Nat := tget 0 m.memT k
/-- Entry `k` of memT. -/
def getMemT (k : Nat) : P Nat := do return (← getM).getMemT k
/-- Entry `k` of memT is set. -/
def putMemT (k : Nat) (v : Nat) : P Unit := doU (.memT k v)
/-- Every entry of memT returns to its default. -/
def clearMemT : P Unit := doU .memTAll
/-- Entry `k` of memT is changed by `f`. -/
def modMemT (k : Nat) (f : Nat → Nat) : P Unit := do putMemT k (f (← getMemT k))

/-- Entry `k` of mru. -/
def Mach.getMru (m : Mach) (k : Nat) : Nat := tget 16 m.mru k
/-- Entry `k` of mru. -/
def getMru (k : Nat) : P Nat := do return (← getM).getMru k
/-- Entry `k` of mru is set. -/
def putMru (k : Nat) (v : Nat) : P Unit := doU (.mru k v)
/-- Every entry of mru returns to its default. -/
def clearMru : P Unit := doU .mruAll
/-- Entry `k` of mru is changed by `f`. -/
def modMru (k : Nat) (f : Nat → Nat) : P Unit := do putMru k (f (← getMru k))

/-- bic as it stands. -/
def getBic : P (List Msg) := do return (← getM).bic
/-- bic is set. -/
def putBic (v : List Msg) : P Unit := doU (.bic v)
/-- bic is changed by `f`. -/
def modBic (f : List Msg → List Msg) : P Unit := do putBic (f (← getBic))

/-- Entry `k` of sqx. -/
def Mach.getSqx (m : Mach) (k : Nat) : SqX := tget ({} : SqX) m.sqx k
/-- Entry `k` of sqx. -/
def getSqx (k : Nat) : P SqX := do return (← getM).getSqx k
/-- Entry `k` of sqx is set. -/
def putSqx (k : Nat) (v : SqX) : P Unit := doU (.sqx k v)
/-- Every entry of sqx returns to its default. -/
def clearSqx : P Unit := doU .sqxAll
/-- Entry `k` of sqx is changed by `f`. -/
def modSqx (k : Nat) (f : SqX → SqX) : P Unit := do putSqx k (f (← getSqx k))

/-- Entry `k` of crec. -/
def Mach.getCrec (m : Mach) (k : Nat) : Nat := tget 64 m.crec k
/-- Entry `k` of crec. -/
def getCrec (k : Nat) : P Nat := do return (← getM).getCrec k
/-- Entry `k` of crec is set. -/
def putCrec (k : Nat) (v : Nat) : P Unit := doU (.crec k v)
/-- Every entry of crec returns to its default. -/
def clearCrec : P Unit := doU .crecAll
/-- Entry `k` of crec is changed by `f`. -/
def modCrec (k : Nat) (f : Nat → Nat) : P Unit := do putCrec k (f (← getCrec k))

/-- Entry `k` of cwait. -/
def Mach.getCwait (m : Mach) (k : Nat) : Nat := tget 256 m.cwait k
/-- Entry `k` of cwait. -/
def getCwait (k : Nat) : P Nat := do return (← getM).getCwait k
/-- Entry `k` of cwait is set. -/
def putCwait (k : Nat) (v : Nat) : P Unit := doU (.cwait k v)
/-- Every entry of cwait returns to its default. -/
def clearCwait : P Unit := doU .cwaitAll
/-- Entry `k` of cwait is changed by `f`. -/
def modCwait (k : Nat) (f : Nat → Nat) : P Unit := do putCwait k (f (← getCwait k))

/-- Entry `k` of crn. -/
def Mach.getCrn (m : Mach) (k : Nat) : Crn := tget ({} : Crn) m.crn k
/-- Entry `k` of crn. -/
def getCrn (k : Nat) : P Crn := do return (← getM).getCrn k
/-- Entry `k` of crn is set. -/
def putCrn (k : Nat) (v : Crn) : P Unit := doU (.crn k v)
/-- Every entry of crn returns to its default. -/
def clearCrn : P Unit := doU .crnAll
/-- Entry `k` of crn is changed by `f`. -/
def modCrn (k : Nat) (f : Crn → Crn) : P Unit := do putCrn k (f (← getCrn k))

/-- Entry `k` of mtt. -/
def Mach.getMtt (m : Mach) (k : Nat) : MirTrk := tget ({} : MirTrk) m.mtt k
/-- Entry `k` of mtt. -/
def getMtt (k : Nat) : P MirTrk := do return (← getM).getMtt k
/-- Entry `k` of mtt is set. -/
def putMtt (k : Nat) (v : MirTrk) : P Unit := doU (.mtt k v)
/-- Every entry of mtt returns to its default. -/
def clearMtt : P Unit := doU .mttAll
/-- Entry `k` of mtt is changed by `f`. -/
def modMtt (k : Nat) (f : MirTrk → MirTrk) : P Unit := do putMtt k (f (← getMtt k))

/-- Entry `k` of blind. -/
def Mach.getBlind (m : Mach) (k : Nat) : Nat := tget 0x4000 m.blind k
/-- Entry `k` of blind. -/
def getBlind (k : Nat) : P Nat := do return (← getM).getBlind k
/-- Entry `k` of blind is set. -/
def putBlind (k : Nat) (v : Nat) : P Unit := doU (.blind k v)
/-- Every entry of blind returns to its default. -/
def clearBlind : P Unit := doU .blindAll
/-- Entry `k` of blind is changed by `f`. -/
def modBlind (k : Nat) (f : Nat → Nat) : P Unit := do putBlind k (f (← getBlind k))

/-- Entry `k` of pagent. -/
def Mach.getPagent (m : Mach) (k : Nat) : Bool := tget false m.pagent k
/-- Entry `k` of pagent. -/
def getPagent (k : Nat) : P Bool := do return (← getM).getPagent k
/-- Entry `k` of pagent is set. -/
def putPagent (k : Nat) (v : Bool) : P Unit := doU (.pagent k v)
/-- Every entry of pagent returns to its default. -/
def clearPagent : P Unit := doU .pagentAll
/-- Entry `k` of pagent is changed by `f`. -/
def modPagent (k : Nat) (f : Bool → Bool) : P Unit := do putPagent k (f (← getPagent k))

/-- Entry `k` of alost. -/
def Mach.getAlost (m : Mach) (k : Nat) : Bool := tget false m.alost k
/-- Entry `k` of alost. -/
def getAlost (k : Nat) : P Bool := do return (← getM).getAlost k
/-- Entry `k` of alost is set. -/
def putAlost (k : Nat) (v : Bool) : P Unit := doU (.alost k v)
/-- Every entry of alost returns to its default. -/
def clearAlost : P Unit := doU .alostAll
/-- Entry `k` of alost is changed by `f`. -/
def modAlost (k : Nat) (f : Bool → Bool) : P Unit := do putAlost k (f (← getAlost k))

/-- twx as it stands. -/
def getTwx : P TwinX := do return (← getM).twx
/-- twx is set. -/
def putTwx (v : TwinX) : P Unit := doU (.twx v)
/-- twx is changed by `f`. -/
def modTwx (f : TwinX → TwinX) : P Unit := do putTwx (f (← getTwx))

/-- Entry `k` of slot. -/
def Mach.getSlot (m : Mach) (k : Nat) : Slot := tget ({} : Slot) m.slot k
/-- Entry `k` of slot. -/
def getSlot (k : Nat) : P Slot := do return (← getM).getSlot k
/-- Entry `k` of slot is set. -/
def putSlot (k : Nat) (v : Slot) : P Unit := doU (.slot k v)
/-- Every entry of slot returns to its default. -/
def clearSlot : P Unit := doU .slotAll
/-- Entry `k` of slot is changed by `f`. -/
def modSlot (k : Nat) (f : Slot → Slot) : P Unit := do putSlot k (f (← getSlot k))

/-- Entry `k` of srx. -/
def Mach.getSrx (m : Mach) (k : Nat) : SRingX := tget ({} : SRingX) m.srx k
/-- Entry `k` of srx. -/
def getSrx (k : Nat) : P SRingX := do return (← getM).getSrx k
/-- Entry `k` of srx is set. -/
def putSrx (k : Nat) (v : SRingX) : P Unit := doU (.srx k v)
/-- Every entry of srx returns to its default. -/
def clearSrx : P Unit := doU .srxAll
/-- Entry `k` of srx is changed by `f`. -/
def modSrx (k : Nat) (f : SRingX → SRingX) : P Unit := do putSrx k (f (← getSrx k))

/-- slotTmo as it stands. -/
def getSlotTmo : P Bool := do return (← getM).slotTmo
/-- slotTmo is set. -/
def putSlotTmo (v : Bool) : P Unit := doU (.slotTmo v)
/-- slotTmo is changed by `f`. -/
def modSlotTmo (f : Bool → Bool) : P Unit := do putSlotTmo (f (← getSlotTmo))

/-- pfree as it stands. -/
def getPfree : P XFree := do return (← getM).pfree
/-- pfree is set. -/
def putPfree (v : XFree) : P Unit := doU (.pfree v)
/-- pfree is changed by `f`. -/
def modPfree (f : XFree → XFree) : P Unit := do putPfree (f (← getPfree))

/-- sfree as it stands. -/
def getSfree : P XFree := do return (← getM).sfree
/-- sfree is set. -/
def putSfree (v : XFree) : P Unit := doU (.sfree v)
/-- sfree is changed by `f`. -/
def modSfree (f : XFree → XFree) : P Unit := do putSfree (f (← getSfree))

/-- Entry `k` of tq. -/
def Mach.getTq (m : Mach) (k : Nat) : TQueue := tget ({} : TQueue) m.tq k
/-- Entry `k` of tq. -/
def getTq (k : Nat) : P TQueue := do return (← getM).getTq k
/-- Entry `k` of tq is set. -/
def putTq (k : Nat) (v : TQueue) : P Unit := doU (.tq k v)
/-- Every entry of tq returns to its default. -/
def clearTq : P Unit := doU .tqAll
/-- Entry `k` of tq is changed by `f`. -/
def modTq (k : Nat) (f : TQueue → TQueue) : P Unit := do putTq k (f (← getTq k))

/-- Entry `k` of push. -/
def Mach.getPush (m : Mach) (k : Nat) : List Pkt := tget [] m.push k
/-- Entry `k` of push. -/
def getPush (k : Nat) : P (List Pkt) := do return (← getM).getPush k
/-- Entry `k` of push is set. -/
def putPush (k : Nat) (v : List Pkt) : P Unit := doU (.push k v)
/-- Every entry of push returns to its default. -/
def clearPush : P Unit := doU .pushAll
/-- Entry `k` of push is changed by `f`. -/
def modPush (k : Nat) (f : List Pkt → List Pkt) : P Unit := do putPush k (f (← getPush k))

/-- Entry `k` of act. -/
def Mach.getAct (m : Mach) (k : Nat) : ActList := tget ({} : ActList) m.act k
/-- Entry `k` of act. -/
def getAct (k : Nat) : P ActList := do return (← getM).getAct k
/-- Entry `k` of act is set. -/
def putAct (k : Nat) (v : ActList) : P Unit := doU (.act k v)
/-- Every entry of act returns to its default. -/
def clearAct : P Unit := doU .actAll
/-- Entry `k` of act is changed by `f`. -/
def modAct (k : Nat) (f : ActList → ActList) : P Unit := do putAct k (f (← getAct k))

/-- Entry `k` of buck. -/
def Mach.getBuck (m : Mach) (k : Nat) : Int × Int := tget (0, 0) m.buck k
/-- Entry `k` of buck. -/
def getBuck (k : Nat) : P (Int × Int) := do return (← getM).getBuck k
/-- Entry `k` of buck is set. -/
def putBuck (k : Nat) (v : Int × Int) : P Unit := doU (.buck k v)
/-- Every entry of buck returns to its default. -/
def clearBuck : P Unit := doU .buckAll
/-- Entry `k` of buck is changed by `f`. -/
def modBuck (k : Nat) (f : Int × Int → Int × Int) : P Unit := do putBuck k (f (← getBuck k))

/-- Entry `k` of shp. -/
def Mach.getShp (m : Mach) (k : Nat) : Nat × Nat × Nat × Nat := tget (0, 0, 0, 0) m.shp k
/-- Entry `k` of shp. -/
def getShp (k : Nat) : P (Nat × Nat × Nat × Nat) := do return (← getM).getShp k
/-- Entry `k` of shp is set. -/
def putShp (k : Nat) (v : Nat × Nat × Nat × Nat) : P Unit := doU (.shp k v)
/-- Every entry of shp returns to its default. -/
def clearShp : P Unit := doU .shpAll
/-- Entry `k` of shp is changed by `f`. -/
def modShp (k : Nat) (f : Nat × Nat × Nat × Nat → Nat × Nat × Nat × Nat) : P Unit := do putShp k (f (← getShp k))

/-- bmove as it stands. -/
def getBmove : P (List (Nat × Nat)) := do return (← getM).bmove
/-- bmove is set. -/
def putBmove (v : List (Nat × Nat)) : P Unit := doU (.bmove v)
/-- bmove is changed by `f`. -/
def modBmove (f : List (Nat × Nat) → List (Nat × Nat)) : P Unit := do putBmove (f (← getBmove))

/-- tmSub as it stands. -/
def getTmSub : P Nat := do return (← getM).tmSub
/-- tmSub is set. -/
def putTmSub (v : Nat) : P Unit := doU (.tmSub v)
/-- tmSub is changed by `f`. -/
def modTmSub (f : Nat → Nat) : P Unit := do putTmSub (f (← getTmSub))

/-- Entry `k` of lane. -/
def Mach.getLane (m : Mach) (k : Nat) : Nat := tget 63 m.lane k
/-- Entry `k` of lane. -/
def getLane (k : Nat) : P Nat := do return (← getM).getLane k
/-- Entry `k` of lane is set. -/
def putLane (k : Nat) (v : Nat) : P Unit := doU (.lane k v)
/-- Every entry of lane returns to its default. -/
def clearLane : P Unit := doU .laneAll
/-- Entry `k` of lane is changed by `f`. -/
def modLane (k : Nat) (f : Nat → Nat) : P Unit := do putLane k (f (← getLane k))

/-- Entry `k` of gcl. -/
def Mach.getGcl (m : Mach) (k : Nat) : Nat × Nat := tget (0, 0) m.gcl k
/-- Entry `k` of gcl. -/
def getGcl (k : Nat) : P (Nat × Nat) := do return (← getM).getGcl k
/-- Entry `k` of gcl is set. -/
def putGcl (k : Nat) (v : Nat × Nat) : P Unit := doU (.gcl k v)
/-- Every entry of gcl returns to its default. -/
def clearGcl : P Unit := doU .gclAll
/-- Entry `k` of gcl is changed by `f`. -/
def modGcl (k : Nat) (f : Nat × Nat → Nat × Nat) : P Unit := do putGcl k (f (← getGcl k))

/-- Entry `k` of gopen. -/
def Mach.getGopen (m : Mach) (k : Nat) : Bool := tget false m.gopen k
/-- Entry `k` of gopen. -/
def getGopen (k : Nat) : P Bool := do return (← getM).getGopen k
/-- Entry `k` of gopen is set. -/
def putGopen (k : Nat) (v : Bool) : P Unit := doU (.gopen k v)
/-- Every entry of gopen returns to its default. -/
def clearGopen : P Unit := doU .gopenAll
/-- Entry `k` of gopen is changed by `f`. -/
def modGopen (k : Nat) (f : Bool → Bool) : P Unit := do putGopen k (f (← getGopen k))

/-- Entry `k` of wire. -/
def Mach.getWire (m : Mach) (k : Nat) : Nat := tget 0 m.wire k
/-- Entry `k` of wire. -/
def getWire (k : Nat) : P Nat := do return (← getM).getWire k
/-- Entry `k` of wire is set. -/
def putWire (k : Nat) (v : Nat) : P Unit := doU (.wire k v)
/-- Every entry of wire returns to its default. -/
def clearWire : P Unit := doU .wireAll
/-- Entry `k` of wire is changed by `f`. -/
def modWire (k : Nat) (f : Nat → Nat) : P Unit := do putWire k (f (← getWire k))

/-- kacc as it stands. -/
def getKacc : P (List (Nat × Nat × Nat × Nat)) := do return (← getM).kacc
/-- kacc is set. -/
def putKacc (v : List (Nat × Nat × Nat × Nat)) : P Unit := doU (.kacc v)
/-- kacc is changed by `f`. -/
def modKacc (f : List (Nat × Nat × Nat × Nat) → List (Nat × Nat × Nat × Nat)) : P Unit := do putKacc (f (← getKacc))

/-- Entry `k` of job. -/
def Mach.getJob (m : Mach) (k : Nat) : Job := tget ({} : Job) m.job k
/-- Entry `k` of job. -/
def getJob (k : Nat) : P Job := do return (← getM).getJob k
/-- Entry `k` of job is set. -/
def putJob (k : Nat) (v : Job) : P Unit := doU (.job k v)
/-- Every entry of job returns to its default. -/
def clearJob : P Unit := doU .jobAll
/-- Entry `k` of job is changed by `f`. -/
def modJob (k : Nat) (f : Job → Job) : P Unit := do putJob k (f (← getJob k))

/-- Entry `k` of acc. -/
def Mach.getAcc (m : Mach) (k : Nat) : LAcc := tget ({} : LAcc) m.acc k
/-- Entry `k` of acc. -/
def getAcc (k : Nat) : P LAcc := do return (← getM).getAcc k
/-- Entry `k` of acc is set. -/
def putAcc (k : Nat) (v : LAcc) : P Unit := doU (.acc k v)
/-- Every entry of acc returns to its default. -/
def clearAcc : P Unit := doU .accAll
/-- Entry `k` of acc is changed by `f`. -/
def modAcc (k : Nat) (f : LAcc → LAcc) : P Unit := do putAcc k (f (← getAcc k))

/-- accNext as it stands. -/
def getAccNext : P Nat := do return (← getM).accNext
/-- accNext is set. -/
def putAccNext (v : Nat) : P Unit := doU (.accNext v)
/-- accNext is changed by `f`. -/
def modAccNext (f : Nat → Nat) : P Unit := do putAccNext (f (← getAccNext))

/-- Entry `k` of pred. -/
def Mach.getPred (m : Mach) (k : Nat) : Nat × Nat := tget (0, 0) m.pred k
/-- Entry `k` of pred. -/
def getPred (k : Nat) : P (Nat × Nat) := do return (← getM).getPred k
/-- Entry `k` of pred is set. -/
def putPred (k : Nat) (v : Nat × Nat) : P Unit := doU (.pred k v)
/-- Every entry of pred returns to its default. -/
def clearPred : P Unit := doU .predAll
/-- Entry `k` of pred is changed by `f`. -/
def modPred (k : Nat) (f : Nat × Nat → Nat × Nat) : P Unit := do putPred k (f (← getPred k))

/-- Entry `k` of kline. -/
def Mach.getKline (m : Mach) (k : Nat) : KLine := tget ({} : KLine) m.kline k
/-- Entry `k` of kline. -/
def getKline (k : Nat) : P KLine := do return (← getM).getKline k
/-- Entry `k` of kline is set. -/
def putKline (k : Nat) (v : KLine) : P Unit := doU (.kline k v)
/-- Every entry of kline returns to its default. -/
def clearKline : P Unit := doU .klineAll
/-- Entry `k` of kline is changed by `f`. -/
def modKline (k : Nat) (f : KLine → KLine) : P Unit := do putKline k (f (← getKline k))

/-- Entry `k` of kmiss. -/
def Mach.getKmiss (m : Mach) (k : Nat) : List KMiss := tget [] m.kmiss k
/-- Entry `k` of kmiss. -/
def getKmiss (k : Nat) : P (List KMiss) := do return (← getM).getKmiss k
/-- Entry `k` of kmiss is set. -/
def putKmiss (k : Nat) (v : List KMiss) : P Unit := doU (.kmiss k v)
/-- Every entry of kmiss returns to its default. -/
def clearKmiss : P Unit := doU .kmissAll
/-- Entry `k` of kmiss is changed by `f`. -/
def modKmiss (k : Nat) (f : List KMiss → List KMiss) : P Unit := do putKmiss k (f (← getKmiss k))

/-- lmLate as it stands. -/
def getLmLate : P Nat := do return (← getM).lmLate
/-- lmLate is set. -/
def putLmLate (v : Nat) : P Unit := doU (.lmLate v)
/-- lmLate is changed by `f`. -/
def modLmLate (f : Nat → Nat) : P Unit := do putLmLate (f (← getLmLate))

/-- lmTmo as it stands. -/
def getLmTmo : P Bool := do return (← getM).lmTmo
/-- lmTmo is set. -/
def putLmTmo (v : Bool) : P Unit := doU (.lmTmo v)
/-- lmTmo is changed by `f`. -/
def modLmTmo (f : Bool → Bool) : P Unit := do putLmTmo (f (← getLmTmo))

/-- lmRem as it stands. -/
def getLmRem : P Bool := do return (← getM).lmRem
/-- lmRem is set. -/
def putLmRem (v : Bool) : P Unit := doU (.lmRem v)
/-- lmRem is changed by `f`. -/
def modLmRem (f : Bool → Bool) : P Unit := do putLmRem (f (← getLmRem))

/-- Entry `k` of vwin. -/
def Mach.getVwin (m : Mach) (k : Nat) : Nat × Nat := tget (1, 0) m.vwin k
/-- Entry `k` of vwin. -/
def getVwin (k : Nat) : P (Nat × Nat) := do return (← getM).getVwin k
/-- Entry `k` of vwin is set. -/
def putVwin (k : Nat) (v : Nat × Nat) : P Unit := doU (.vwin k v)
/-- Every entry of vwin returns to its default. -/
def clearVwin : P Unit := doU .vwinAll
/-- Entry `k` of vwin is changed by `f`. -/
def modVwin (k : Nat) (f : Nat × Nat → Nat × Nat) : P Unit := do putVwin k (f (← getVwin k))

/-- reel as it stands. -/
def getReel : P (List Packet) := do return (← getM).reel
/-- reel is set. -/
def putReel (v : List Packet) : P Unit := doU (.reel v)
/-- reel is changed by `f`. -/
def modReel (f : List Packet → List Packet) : P Unit := do putReel (f (← getReel))

/-- Entry `k` of spnBuf. -/
def Mach.getSpnBuf (m : Mach) (k : Nat) : List Nat := tget [] m.spnBuf k
/-- Entry `k` of spnBuf. -/
def getSpnBuf (k : Nat) : P (List Nat) := do return (← getM).getSpnBuf k
/-- Entry `k` of spnBuf is set. -/
def putSpnBuf (k : Nat) (v : List Nat) : P Unit := doU (.spnBuf k v)
/-- Every entry of spnBuf returns to its default. -/
def clearSpnBuf : P Unit := doU .spnBufAll
/-- Entry `k` of spnBuf is changed by `f`. -/
def modSpnBuf (k : Nat) (f : List Nat → List Nat) : P Unit := do putSpnBuf k (f (← getSpnBuf k))

/-- Entry `k` of spnWait. -/
def Mach.getSpnWait (m : Mach) (k : Nat) : Bool := tget false m.spnWait k
/-- Entry `k` of spnWait. -/
def getSpnWait (k : Nat) : P Bool := do return (← getM).getSpnWait k
/-- Entry `k` of spnWait is set. -/
def putSpnWait (k : Nat) (v : Bool) : P Unit := doU (.spnWait k v)
/-- Every entry of spnWait returns to its default. -/
def clearSpnWait : P Unit := doU .spnWaitAll
/-- Entry `k` of spnWait is changed by `f`. -/
def modSpnWait (k : Nat) (f : Bool → Bool) : P Unit := do putSpnWait k (f (← getSpnWait k))

/-- spn as it stands. -/
def getSpn : P SpnX := do return (← getM).spn
/-- spn is set. -/
def putSpn (v : SpnX) : P Unit := doU (.spn v)
/-- spn is changed by `f`. -/
def modSpn (f : SpnX → SpnX) : P Unit := do putSpn (f (← getSpn))

/-- Entry `k` of hbTx. -/
def Mach.getHbTx (m : Mach) (k : Nat) : Nat := tget 0 m.hbTx k
/-- Entry `k` of hbTx. -/
def getHbTx (k : Nat) : P Nat := do return (← getM).getHbTx k
/-- Entry `k` of hbTx is set. -/
def putHbTx (k : Nat) (v : Nat) : P Unit := doU (.hbTx k v)
/-- Every entry of hbTx returns to its default. -/
def clearHbTx : P Unit := doU .hbTxAll
/-- Entry `k` of hbTx is changed by `f`. -/
def modHbTx (k : Nat) (f : Nat → Nat) : P Unit := do putHbTx k (f (← getHbTx k))

/-- whl as it stands. -/
def getWhl : P WhlX := do return (← getM).whl
/-- whl is set. -/
def putWhl (v : WhlX) : P Unit := doU (.whl v)
/-- whl is changed by `f`. -/
def modWhl (f : WhlX → WhlX) : P Unit := do putWhl (f (← getWhl))

/-- cout as it stands. -/
def getCout : P (List Msg) := do return (← getM).cout
/-- cout is set. -/
def putCout (v : List Msg) : P Unit := doU (.cout v)
/-- cout is changed by `f`. -/
def modCout (f : List Msg → List Msg) : P Unit := do putCout (f (← getCout))

/-- repairs as it stands. -/
def getRepairs : P (List Nat) := do return (← getM).repairs
/-- repairs is set. -/
def putRepairs (v : List Nat) : P Unit := doU (.repairs v)
/-- repairs is changed by `f`. -/
def modRepairs (f : List Nat → List Nat) : P Unit := do putRepairs (f (← getRepairs))

/-- scrub as it stands. -/
def getScrub : P ScrubX := do return (← getM).scrub
/-- scrub is set. -/
def putScrub (v : ScrubX) : P Unit := doU (.scrub v)
/-- scrub is changed by `f`. -/
def modScrub (f : ScrubX → ScrubX) : P Unit := do putScrub (f (← getScrub))

/-- Entry `k` of raw. -/
def Mach.getRaw (m : Mach) (k : Nat) : List Word × Nat × Nat := tget ([], 0, 0) m.raw k
/-- Entry `k` of raw. -/
def getRaw (k : Nat) : P (List Word × Nat × Nat) := do return (← getM).getRaw k
/-- Entry `k` of raw is set. -/
def putRaw (k : Nat) (v : List Word × Nat × Nat) : P Unit := doU (.raw k v)
/-- Every entry of raw returns to its default. -/
def clearRaw : P Unit := doU .rawAll
/-- Entry `k` of raw is changed by `f`. -/
def modRaw (k : Nat) (f : List Word × Nat × Nat → List Word × Nat × Nat) : P Unit := do putRaw k (f (← getRaw k))

/-- Entry `k` of retire. -/
def Mach.getRetire (m : Mach) (k : Nat) : Nat := tget 0 m.retire k
/-- Entry `k` of retire. -/
def getRetire (k : Nat) : P Nat := do return (← getM).getRetire k
/-- Entry `k` of retire is set. -/
def putRetire (k : Nat) (v : Nat) : P Unit := doU (.retire k v)
/-- Every entry of retire returns to its default. -/
def clearRetire : P Unit := doU .retireAll
/-- Entry `k` of retire is changed by `f`. -/
def modRetire (k : Nat) (f : Nat → Nat) : P Unit := do putRetire k (f (← getRetire k))

/-- retFull as it stands. -/
def getRetFull : P Bool := do return (← getM).retFull
/-- retFull is set. -/
def putRetFull (v : Bool) : P Unit := doU (.retFull v)
/-- retFull is changed by `f`. -/
def modRetFull (f : Bool → Bool) : P Unit := do putRetFull (f (← getRetFull))

/-- faulty as it stands. -/
def getFaulty : P (List Faulty) := do return (← getM).faulty
/-- faulty is set. -/
def putFaulty (v : List Faulty) : P Unit := doU (.faulty v)
/-- faulty is changed by `f`. -/
def modFaulty (f : List Faulty → List Faulty) : P Unit := do putFaulty (f (← getFaulty))

/-- Entry `k` of dtgt. -/
def Mach.getDtgt (m : Mach) (k : Nat) : Nat := tget 0 m.dtgt k
/-- Entry `k` of dtgt. -/
def getDtgt (k : Nat) : P Nat := do return (← getM).getDtgt k
/-- Entry `k` of dtgt is set. -/
def putDtgt (k : Nat) (v : Nat) : P Unit := doU (.dtgt k v)
/-- Every entry of dtgt returns to its default. -/
def clearDtgt : P Unit := doU .dtgtAll
/-- Entry `k` of dtgt is changed by `f`. -/
def modDtgt (k : Nat) (f : Nat → Nat) : P Unit := do putDtgt k (f (← getDtgt k))

/-- Entry `k` of dwait. -/
def Mach.getDwait (m : Mach) (k : Nat) : Bool := tget false m.dwait k
/-- Entry `k` of dwait. -/
def getDwait (k : Nat) : P Bool := do return (← getM).getDwait k
/-- Entry `k` of dwait is set. -/
def putDwait (k : Nat) (v : Bool) : P Unit := doU (.dwait k v)
/-- Every entry of dwait returns to its default. -/
def clearDwait : P Unit := doU .dwaitAll
/-- Entry `k` of dwait is changed by `f`. -/
def modDwait (k : Nat) (f : Bool → Bool) : P Unit := do putDwait k (f (← getDwait k))

/-- therm as it stands. -/
def getTherm : P ThermX := do return (← getM).therm
/-- therm is set. -/
def putTherm (v : ThermX) : P Unit := doU (.therm v)
/-- therm is changed by `f`. -/
def modTherm (f : ThermX → ThermX) : P Unit := do putTherm (f (← getTherm))

/-- avs as it stands. -/
def getAvs : P AvsX := do return (← getM).avs
/-- avs is set. -/
def putAvs (v : AvsX) : P Unit := doU (.avs v)
/-- avs is changed by `f`. -/
def modAvs (f : AvsX → AvsX) : P Unit := do putAvs (f (← getAvs))

/-- ao as it stands. -/
def getAo : P Nat := do return (← getM).ao
/-- ao is set. -/
def putAo (v : Nat) : P Unit := doU (.ao v)
/-- ao is changed by `f`. -/
def modAo (f : Nat → Nat) : P Unit := do putAo (f (← getAo))

/-- Entry `k` of slp. -/
def Mach.getSlp (m : Mach) (k : Nat) : SlotCh := tget ({} : SlotCh) m.slp k
/-- Entry `k` of slp. -/
def getSlp (k : Nat) : P SlotCh := do return (← getM).getSlp k
/-- Entry `k` of slp is set. -/
def putSlp (k : Nat) (v : SlotCh) : P Unit := doU (.slp k v)
/-- Every entry of slp returns to its default. -/
def clearSlp : P Unit := doU .slpAll
/-- Entry `k` of slp is changed by `f`. -/
def modSlp (k : Nat) (f : SlotCh → SlotCh) : P Unit := do putSlp k (f (← getSlp k))

/-- Entry `k` of arrT. -/
def Mach.getArrT (m : Mach) (k : Nat) : Nat := tget 0 m.arrT k
/-- Entry `k` of arrT. -/
def getArrT (k : Nat) : P Nat := do return (← getM).getArrT k
/-- Entry `k` of arrT is set. -/
def putArrT (k : Nat) (v : Nat) : P Unit := doU (.arrT k v)
/-- Every entry of arrT returns to its default. -/
def clearArrT : P Unit := doU .arrTAll
/-- Entry `k` of arrT is changed by `f`. -/
def modArrT (k : Nat) (f : Nat → Nat) : P Unit := do putArrT k (f (← getArrT k))

/-- mgx as it stands. -/
def getMgx : P MgmtX := do return (← getM).mgx
/-- mgx is set. -/
def putMgx (v : MgmtX) : P Unit := doU (.mgx v)
/-- mgx is changed by `f`. -/
def modMgx (f : MgmtX → MgmtX) : P Unit := do putMgx (f (← getMgx))

/-- tst as it stands. -/
def getTst : P TstX := do return (← getM).tst
/-- tst is set. -/
def putTst (v : TstX) : P Unit := doU (.tst v)
/-- tst is changed by `f`. -/
def modTst (f : TstX → TstX) : P Unit := do putTst (f (← getTst))

/-- cen as it stands. -/
def getCen : P CenX := do return (← getM).cen
/-- cen is set. -/
def putCen (v : CenX) : P Unit := doU (.cen v)
/-- cen is changed by `f`. -/
def modCen (f : CenX → CenX) : P Unit := do putCen (f (← getCen))

/-- Entry `k` of cskip. -/
def Mach.getCskip (m : Mach) (k : Nat) : Nat := tget 0 m.cskip k
/-- Entry `k` of cskip. -/
def getCskip (k : Nat) : P Nat := do return (← getM).getCskip k
/-- Entry `k` of cskip is set. -/
def putCskip (k : Nat) (v : Nat) : P Unit := doU (.cskip k v)
/-- Every entry of cskip returns to its default. -/
def clearCskip : P Unit := doU .cskipAll
/-- Entry `k` of cskip is changed by `f`. -/
def modCskip (k : Nat) (f : Nat → Nat) : P Unit := do putCskip k (f (← getCskip k))

/-- Entry `k` of trc. -/
def Mach.getTrc (m : Mach) (k : Nat) : List Nat := tget [] m.trc k
/-- Entry `k` of trc. -/
def getTrc (k : Nat) : P (List Nat) := do return (← getM).getTrc k
/-- Entry `k` of trc is set. -/
def putTrc (k : Nat) (v : List Nat) : P Unit := doU (.trc k v)
/-- Every entry of trc returns to its default. -/
def clearTrc : P Unit := doU .trcAll
/-- Entry `k` of trc is changed by `f`. -/
def modTrc (k : Nat) (f : List Nat → List Nat) : P Unit := do putTrc k (f (← getTrc k))

/-- trcNext as it stands. -/
def getTrcNext : P Nat := do return (← getM).trcNext
/-- trcNext is set. -/
def putTrcNext (v : Nat) : P Unit := doU (.trcNext v)
/-- trcNext is changed by `f`. -/
def modTrcNext (f : Nat → Nat) : P Unit := do putTrcNext (f (← getTrcNext))

/-- Entry `k` of spdm. -/
def Mach.getSpdm (m : Mach) (k : Nat) : SpdmC := tget ({} : SpdmC) m.spdm k
/-- Entry `k` of spdm. -/
def getSpdm (k : Nat) : P SpdmC := do return (← getM).getSpdm k
/-- Entry `k` of spdm is set. -/
def putSpdm (k : Nat) (v : SpdmC) : P Unit := doU (.spdm k v)
/-- Every entry of spdm returns to its default. -/
def clearSpdm : P Unit := doU .spdmAll
/-- Entry `k` of spdm is changed by `f`. -/
def modSpdm (k : Nat) (f : SpdmC → SpdmC) : P Unit := do putSpdm k (f (← getSpdm k))

end Sys2Proof.Machine
end

