-- ==== Sys2Proof/Machine/Operands.lean ====
section
/-!
DEFINITION. Addresses and identifiers: home Square, set and tag of a line (R118, R119), range table (R113), fabric
memory decoders (R115), what a host's domain device covers (R64), endpoint numbers (Table 4.1), classes of reason codes
and source numbers of events.
-/
namespace Sys2Proof.Machine

/-- The endpoint numbers of Table 4.1. -/
def epSq (n : Nat) : Nat := 128 + n
/-- The endpoint of a Kiosk bank. -/
def epKsk (k : Nat) : Nat := 160 + k
/-- The traffic manager's endpoint. -/
def epTM : Nat := 164
/-- The ring engine's and Service Functions' endpoint. -/
def epRNG : Nat := 165
/-- The Spindle link's endpoint. -/
def epSPN : Nat := 166
/-- The management complex's endpoint. -/
def epMG : Nat := 167

/-- The exclusive OR of the ten groups of R119. -/
def homeSq (a : Nat) : Nat :=
  (List.range 10).foldl (fun s k => s ^^^ bitsAt a (6 + 5 * k) (if k = 9 then 1 else 5)) 0

/-- The tag of a line (R119): address bits [51:20]. -/
def tagOf (a : Nat) : Nat := bitsAt a 20 32

/-- The set of a line within its Square (R119). -/
def setOf (a : Nat) : Nat :=
  let tag := tagOf a
  bitsAt a 6 14 ^^^ bitsAt tag 0 14 ^^^ bitsAt tag 14 14 ^^^ bitsAt tag 28 4

/-- The line address that holds byte `a`. -/
def lineOf (a : Nat) : Nat := a / 64 * 64

/-- Whether twin 1's home bit is set for a line: with BIT 0 this twin homes every line (R118). -/
def homeHere (m : Mach) (a : Nat) : Bool :=
  let b := m.g SQ_HOME_SEL_BIT
  b = 0 || (bitsAt a b 1 == (if m.pins.twinId then 1 else 0))

/-- Whether entry `n` of the range table is in use and holds address `a` (R113). -/
def rangeHas (m : Mach) (n a : Nat) : Bool :=
  m.g (SQ_RANGE_CFG_VALID n) = 1 && m.g (SQ_RANGE_BASE_BASE n) * 2 ^ 21 ≤ a &&
    a < m.g (SQ_RANGE_BASE_BASE n) * 2 ^ 21 + m.g (SQ_RANGE_CFG_SIZE n) * 2 ^ 21

/-- The entry of the range table that holds an address (R113). -/
def rangeOf (m : Mach) (a : Nat) : Option Nat := (List.range 64).find? (fun n => rangeHas m n a)

/-- The coherence domain of a shared address. -/
def cdOf (m : Mach) (a : Nat) : Option Nat :=
  match rangeOf m a with
  | some n => if m.g (SQ_RANGE_CFG_PRIVATE n) = 1 then none else some (m.g (SQ_RANGE_CFG_CD n))
  | none => none

/-- The private agent of an address, for an address of a private range. -/
def privateOf (m : Mach) (a : Nat) : Option Nat :=
  match rangeOf m a with
  | some n => if m.g (SQ_RANGE_CFG_PRIVATE n) = 1 then some (m.g (SQ_RANGE_CFG_PRIVATE_AGENT n)) else none
  | none => none

/-- Whether committed decoder `n` claims an address (R115). -/
def fmdHas (m : Mach) (n a : Nat) : Bool :=
  m.g (SQ_FMD_CTL_COMMITTED n) = 1 && m.g (SQ_FMD_BASE_BASE n) * 2 ^ 28 ≤ a &&
    a < m.g (SQ_FMD_BASE_BASE n) * 2 ^ 28 + m.g (SQ_FMD_SIZE_SIZE n) * 2 ^ 28

/-- Target `i` of decoder `n`: eight bits per target, eight targets to a register. -/
def fmdTgt (m : Mach) (n i : Nat) : Nat :=
  if i < 8 then bitsAt (m.g (SQ_FMD_TGT0_TARGET n)) (8 * i) 8 else bitsAt (m.g (SQ_FMD_TGT1_TARGET n)) (8 * (i - 8)) 8

/-- The fabric memory port that an address maps to (R115), or none where no committed decoder claims it (R117). -/
def fmdPort (m : Mach) (a : Nat) : Option Nat :=
  match (List.range 32).find? (fun n => fmdHas m n a) with
  | some n => some (fmdTgt m n (a / 2 ^ m.g (SQ_FMD_CTL_GRAN n) % 2 ^ m.g (SQ_FMD_CTL_WAYS_LOG2 n)))
  | none => none

/-- Whether domain `cd` admits agent `a` (agent 64: its KIOSK bit). -/
def cdAdmits (m : Mach) (cd a : Nat) : Bool :=
  m.g (SQ_CD_CFG_VALID cd) = 1 &&
    (if a = 64 then m.g (SQ_CD_CFG_KIOSK cd) = 1 else bitsAt (m.g (SQ_CD_AGENTS_AGENT_MASK cd)) a 1 = 1)

/-- Whether the domain device of a VCS covers range-table entry `n` (R64). -/
def devCoversRange (m : Mach) (v n : Nat) : Bool :=
  let c := m.getVcs v
  m.g (SQ_RANGE_CFG_VALID n) = 1 &&
    (if m.g (SQ_RANGE_CFG_PRIVATE n) = 1 then c.agent ≤ 63 && m.g (SQ_RANGE_CFG_PRIVATE_AGENT n) = c.agent
     else if c.agent ≤ 63 then cdAdmits m (m.g (SQ_RANGE_CFG_CD n)) c.agent else true)

/-- Whether an address lies in a range that R64 gives the host of VCS `v`. -/
def hostReaches (m : Mach) (v a : Nat) : Bool :=
  (m.getVcs v).valid && (List.range 64).any (fun n => rangeHas m n a && devCoversRange m v n)

/-- The VCS whose caching host is agent `a`. -/
def agentVcs (m : Mach) (a : Nat) : Option Nat :=
  (List.range 64).find? (fun v => (m.getVcs v).valid && (m.getVcs v).agent = a)

/-- The upstream port of a VCS, or 0xFF. -/
def vcsPort (m : Mach) (v : Nat) : Nat := if (m.getVcs v).valid then (m.getVcs v).up else 0xFF

/-- The VCS that port `p` is the upstream port of. -/
def upVcs (m : Mach) (p : Nat) : Option Nat :=
  (List.range 64).find? (fun v => (m.getVcs v).valid && (m.getVcs v).up = p)

/-- Whether port `p` is the upstream port of a VCS that an EXPRESS item names (Table 4.2). -/
def expressUp (m : Mach) (p : Nat) : Bool := (upVcs m p).any fun v => bitsAt (m.g XB_EXPRESS_VCS_MASK) v 1 = 1

/-- The class of an S2M response toward port `p`, with data or without (R87). -/
def s2mCls (m : Mach) (p : Nat) (data : Bool) : Nat := if expressUp m p then 0 else if data then 3 else 2

/-- The caching agent behind port `p`: its host's agent, or none. -/
def portAgent (m : Mach) (p : Nat) : Option Nat :=
  match upVcs m p with
  | some v => if (m.getVcs v).agent ≤ 63 then some (m.getVcs v).agent else none
  | none => none

/-- The port that agent `a` (0-63) lies behind. -/
def agentPort (m : Mach) (a : Nat) : Option Nat := (agentVcs m a).map (fun v => (m.getVcs v).up)

/-- The states of Table 3.3. -/
abbrev psOFF : Nat := 0
abbrev psDISABLED : Nat := 1
abbrev psTRAINING : Nat := 2
abbrev psUP : Nat := 3
abbrev psHELD : Nat := 4
abbrev psFLUSHING : Nat := 5
abbrev psRESET : Nat := 6

/-- Whether port `p` is UP. -/
def portUp (m : Mach) (p : Nat) : Bool := p < 128 && m.g (OCT_PORT_STATUS_STATE p) = psUP

/-- The numbering of the domains (Table 2.4). -/
def dXB (n : Nat) : Nat := 3 + n
def dOCT (n : Nat) : Nat := 7 + n
def dSQ (n : Nat) : Nat := 39 + n
def dKSK (n : Nat) : Nat := 71 + n
def dPLZ (n : Nat) : Nat := 75 + n
def dTM : Nat := 77
def dLM (n : Nat) : Nat := 78 + n
def dSPN : Nat := 86

/-- Whether domain `d` is ON. -/
def domOn (m : Mach) (d : Nat) : Bool := m.g (PWR_DOM_STATUS_STATE d) = 2

/-- The class CC of a block's reason codes (R41, Table 2.7). -/
def Blk.cls : Blk → Nat
  | .GLB | .MLD | .PMU | .TST | .DBG | .FWM => 0x01
  | .OCT => 0x02
  | .XB => 0x03
  | .SQ => 0x04
  | .TM | .FLW => 0x05
  | .RNG => 0x06
  | .LM | .KSK => 0x07
  | .KRB | .TEN => 0x08
  | .TWN => 0x09
  | .PWR => 0x0A
  | .SLP => 0x0B
  | .INT => 0x0C

/-- The source number of a block's events (Table 14.6). -/
def Blk.src : Blk → Nat
  | .GLB => 0x01
  | .OCT => 0x02
  | .XB => 0x03
  | .SQ => 0x04
  | .TM | .FLW => 0x05
  | .RNG => 0x06
  | .LM => 0x07
  | .KRB | .TEN => 0x08
  | .TWN => 0x09
  | .PWR => 0x0A
  | .SLP => 0x0B
  | .INT => 0x0C
  | .KSK => 0x0D
  | .MLD => 0x0E
  | .PMU => 0x0F
  | .TST => 0x10
  | .DBG => 0x11
  | .FWM => 0x12

/-- The (class)_LIMIT code of a block. -/
def Blk.limit (b : Blk) : Nat := b.cls * 256 + 0xFF
/-- The (class)_BUSY code of a block. -/
def Blk.busy (b : Blk) : Nat := b.cls * 256 + 0xFE

/-- The reason codes of Table 2.7 that live operations name. -/
abbrev rcOK : Nat := 0
abbrev rcNOT_LOADED : Nat := 0x0108
abbrev rcSTRUCT_BUSY : Nat := 0x0109
abbrev rcIN_USE : Nat := 0x010A
abbrev rcLIFECYCLE : Nat := 0x010B
abbrev rcIMG_BUSY : Nat := 0x01FE
abbrev rcIMG_LIMIT : Nat := 0x01FF
abbrev rcLNK_BUSY : Nat := 0x02FE
abbrev rcLNK_LIMIT : Nat := 0x02FF
abbrev rcXB_BUSY : Nat := 0x03FE
abbrev rcXB_LIMIT : Nat := 0x03FF
abbrev rcCOH_BUSY : Nat := 0x04FE
abbrev rcCOH_LIMIT : Nat := 0x04FF
abbrev rcTM_BUSY : Nat := 0x05FE
abbrev rcTM_LIMIT : Nat := 0x05FF
abbrev rcRNG_BUSY : Nat := 0x06FE
abbrev rcRNG_LIMIT : Nat := 0x06FF
abbrev rcLM_BUSY : Nat := 0x07FE
abbrev rcLM_LIMIT : Nat := 0x07FF
abbrev rcKRB_BUSY : Nat := 0x08FE
abbrev rcKRB_LIMIT : Nat := 0x08FF
abbrev rcTWN_BUSY : Nat := 0x09FE
abbrev rcTWN_LIMIT : Nat := 0x09FF
abbrev rcPWR_BUSY : Nat := 0x0AFE
abbrev rcPWR_LIMIT : Nat := 0x0AFF
abbrev rcSLP_BUSY : Nat := 0x0BFE
abbrev rcSLP_LIMIT : Nat := 0x0BFF
abbrev rcINT_BUSY : Nat := 0x0CFE
abbrev rcINT_LIMIT : Nat := 0x0CFF

/-- The states of GLB_STRUCT_STATUS.STATE (Table 2.5). -/
abbrev stDISABLED : Nat := 0
abbrev stCHECKING : Nat := 1
abbrev stAPPLYING : Nat := 2
abbrev stENABLED : Nat := 3
abbrev stDISABLING : Nat := 4

/-- The cells that a message of `len` bytes takes: one bobbin of 256 bytes each, at least one. -/
def cellsOf (len : Nat) : Nat := Nat.max 1 ((len + 255) / 256)

/-- The ring's number of slots (R225). -/
def ringSize (m : Mach) (r : Nat) : Nat := 2 ^ m.g (RNG_CFG_SIZE_LOG2 r)

/-- The difference of two ring indices modulo 2^32 (R225). -/
def idxDiff (a b : Nat) : Nat := (a + 2 ^ 32 - b % 2 ^ 32) % 2 ^ 32

/-- The free slots of a ring (R225). -/
def ringFree (m : Mach) (r : Nat) : Nat := ringSize m r - idxDiff (m.g (RNG_IDX_PROD r)) (m.g (RNG_IDX_CONS r))

/-- The states of Table 9.10. -/
abbrev rsDISABLED : Nat := 0
abbrev rsRUNNING : Nat := 1
abbrev rsSTOPPING : Nat := 2
abbrev rsERROR : Nat := 3

/-- A list's element, or 0. -/
def nth (l : List Nat) (i : Nat) : Nat := l.getD i 0

/-- A list of Booleans with one place set. -/
def setB (l : List Bool) (i : Nat) (v : Bool) : List Bool := l.set i v

end Sys2Proof.Machine
end

