-- ==== Sys2Proof/Machine/Ops.lean ====
section
/-!
DEFINITION. The shared operations: time, free values, sending a message into the Crossing, and the ring engine's writes
into host memory (R225-R232, R245, R246).
-/
namespace Sys2Proof.Machine

/-- Something leaves the part. -/
def emit (o : Out) : P Unit := modOut (· ++ [o])

/-- The next free value (Config.freeValue), cut to `w` bits. -/
def freeBits (w : Nat) : P Nat := do
  let n ← getFreeCtr
  putFreeCtr (n + 1)
  return Config.freeValue n % 2 ^ w

/-- `old` with the bits of `mask` taken from `v`. -/
def maskIn (old v mask : Nat) : Nat := old - (old &&& mask) + (v &&& mask)

/-- TIME64 of the time base (R208). -/
def Mach.time64 (m : Mach) : Nat := (m.tb.sec * 1000000000 + m.tb.ns) % 2 ^ 64

/-- TIME64 now. -/
def now : P Nat := do return (← getM).time64

/-- Program `x` where the condition holds. -/
def onlyIf (c : Prop) [Decidable c] (x : P Unit) : P Unit := if c then x else pure ()

/-- `f` for each element of a list, in order. -/
def each {α : Type} : List α → (α → P Unit) → P Unit
  | [], _ => pure ()
  | a :: t, f => do f a; each t f

/-! Performance counters (R426-R428). -/

/-- The attributes that an event carries (Table 17.8). -/
structure PmuAt where
  slice : Option Nat := none
  vcs : Option Nat := none
  fw : Bool := false
  port : Option Nat := none
  agent : Option Nat := none
  engine : Option Nat := none
  addr : Option Nat := none
  cls : Option Nat := none

/-- Whether filter `f` matches an event (R427); filter 0 matches every event. -/
def fltMatch (m : Mach) (f : Nat) (a : PmuAt) : Bool :=
  f = 0 ||
    ((match m.g (PMU_FLT_PRIV_KIND f) with
      | 0 => true
      | 1 => a.slice = some (m.g (PMU_FLT_PRIV_ID f))
      | 2 => a.vcs = some (m.g (PMU_FLT_PRIV_ID f))
      | _ => a.fw) &&
     (match m.g (PMU_FLT_MASTER_KIND f) with
      | 0 => true
      | 1 => a.port = some (m.g (PMU_FLT_MASTER_ID f))
      | 2 => a.agent = some (m.g (PMU_FLT_MASTER_ID f))
      | _ => a.engine = some (m.g (PMU_FLT_MASTER_ID f))) &&
     (m.g (PMU_FLT_WIN_EN f) = 0 || a.addr.any fun x =>
        m.g (PMU_FLT_BASE_WIN f) ≤ x && x ≤ m.g (PMU_FLT_LIMIT_WIN f)) &&
     (m.g (PMU_FLT_CLASS_MASK f) = 0xFF || a.cls.any fun c => bitsAt (m.g (PMU_FLT_CLASS_MASK f)) c 1 = 1))

/-- Counter `c` of the PMU counts `n` more, modulo 2^64; a wrap sets its overflow bit (R426). -/
def pmuAdd (c n : Nat) : P Unit := do
  let m ← getM
  let v := m.g (PMU_CNT_COUNT c) + n
  wr (PMU_CNT_COUNT c) (v % 2 ^ 64)
  onlyIf (2 ^ 64 ≤ v) (wr ⟨.PMU_BANK_OVF, c / 64, c % 64, 1⟩ 1)

/-- Event `e` happens `n` times: every enabled counter that counts it and whose filter and bank allow it counts (R426,
R428). -/
def pmuCount (e n : Nat) (a : PmuAt) : P Unit := do
  let m ← getM
  each m.regs fun r => onlyIf (r.1.k = .PMU_CFG ∧ m.g PMU_CTL_FREEZE = 0) (each (List.range 4) fun k =>
    let v := bitsAt r.2.toNat (16 * k) 16
    let b := r.1.i / 16
    onlyIf (bitsAt v 15 1 = 1 ∧ bitsAt v 0 8 = e ∧ fltMatch m (bitsAt v 8 6) a = true ∧
        (m.g (PMU_BANK_CFG_OWNED b) = 0 ∨ a.slice = some (m.g (PMU_BANK_CFG_OWNER b)))) (pmuAdd (4 * r.1.i + k) n))

/-- The attributes of a Kiosk access at address `x`: the slice of the job, its VCS and the engine, where a thread of this
twin issued it. -/
def accAt (m : Mach) (id x : Nat) : PmuAt :=
  let a := m.getAcc id
  if a.st ≠ 0 ∧ a.thread < 4096 then
    { slice := some a.slice, vcs := some (m.g (TEN_STATUS_VCS a.slice)), engine := some (a.thread / 64), addr := some x }
  else { addr := some x }

/-- The access for which a Kiosk bank sends a message: the one that it carries, or the first that waits for the line. -/
def msgAcc (m : Mach) (msg : Msg) : Option Nat :=
  if 160 ≤ msg.inp ∧ msg.inp < 164 then
    match msg.op with
    | .loomReq | .memWr => some msg.tag
    | .rdS | .rdA | .memInv => ((m.getKmiss (msg.inp - 160)).find? (fun e => e.line = msg.addr)).bind (·.wait.head?)
    | _ => none
  else none

/-- The attributes of a message (Table 17.8). -/
def msgAt (m : Mach) (msg : Msg) : PmuAt :=
  let e := match msgAcc m msg with
    | some id => accAt m id msg.addr
    | none => {}
  { slice := if msg.slice ≤ 255 ∧ msg.slice ≠ 0xFF then some msg.slice else e.slice
    vcs := if msg.inp < 128 then upVcs m msg.inp else if msg.agent < 64 then agentVcs m msg.agent else e.vcs
    fw := msg.inp = epMG
    port := if msg.inp < 128 then some msg.inp else none
    agent := if msg.agent ≤ 64 then some msg.agent else none
    engine := e.engine
    addr := some msg.addr
    cls := some msg.cls }

/-- The debug master, as the port of an access that the Kerb permitted (Table 11.5). -/
abbrev kaDEBUG : Nat := 255

/-- A host's or the debug master's access that the Kerb permitted is complete (R294). -/
def kerbDone (port tag : Nat) : P Unit :=
  modKacc fun l => l.eraseP (fun e => e.1 = port && e.2.1 = tag)

/-- Whether an opcode answers a CXL.mem request. -/
def isResponse : Op → Bool
  | .cmp | .cmpS | .cmpE | .memData => true
  | _ => false

/-- A message enters the input FIFO of its endpoint and class (R85). A response toward a host's port completes that
host's access (R294). -/
def xsend (msg : Msg) : P Unit := do
  onlyIf (msg.out < 128 ∧ isResponse msg.op = true) (kerbDone msg.out msg.tag)
  let m ← getM
  pmuCount 0x02 1 (msgAt m msg)
  pmuCount 0x03 msg.len (msgAt m msg)
  modXin (msg.inp * 8 + msg.cls) (· ++ [[msg]])

/-- A message for several destinations enters the input FIFO of its endpoint and class (R101). -/
def xsendAll (ms : List Msg) : P Unit :=
  match ms with
  | [] => pure ()
  | a :: _ => do
    let m ← getM
    pmuCount 0x02 1 (msgAt m a)
    pmuCount 0x03 a.len (msgAt m a)
    modXin (a.inp * 8 + a.cls) (· ++ [ms])

/-- The steering tag as the host may see it: host-cache tags pass when the host has enabled TPH (R166). -/
def steerFor (m : Mach) (v tag : Nat) : Nat := if 1 ≤ tag ∧ tag ≤ 0x3F ∧ (m.getSf v).tph then tag else 0

/-- The ring engine or the traffic manager writes host memory: a CXL.io write with the slice's PASID, on the triple of
the ring (R229). `x` carries the ring, the PASID and the steering tag. -/
def ringMsg (m : Mach) (inp r addr : Nat) (ws : List Word) (cls : Nat) (poison : Bool) : Msg :=
  let s := m.g (RNG_CFG_SLICE r)
  let v := m.g (TEN_STATUS_VCS s)
  { op := .ioWr, cls := cls, inp := inp, out := vcsPort m v, addr := addr, len := 16 + 8 * ws.length, data := ws,
    poison := poison, slice := s,
    x := [r, m.g (TEN_STATUS_PASID s), steerFor m v (m.g (RNG_CTL_STEER r)), v] }

/-- An MSI-X interrupt of a VCS's Service Function: a masked vector becomes pending (R246). -/
def msixSend (inp v vec cls : Nat) : P Unit := do
  let m ← getM
  let c := m.getSf v
  if vec ∉ c.unmasked then
    putSf v { c with pending := if vec ∈ c.pending then c.pending else c.pending ++ [vec] }
  else
    xsend { op := .msix, cls := cls, inp := inp, out := vcsPort m v, addr := (m.getMsix ((v * 2048 + vec) * 2)).toNat,
            tag := vec, len := 16, data := [m.getMsix ((v * 2048 + vec) * 2 + 1)], x := [0xFFFF, 0, 0, v] }

/-- The class in which the Stagon writes a ring (Table 9.3); a receive ring's class is its channel's. -/
def ringCls (m : Mach) (r : Nat) : Nat := if m.g (RNG_CFG_TYPE r) = 1 then 4 else 7

/-- One entry has been written to a device-produced ring: the interrupt is sent at the count of R246, or at once where
the entry's job asked for it, and otherwise the moderation timer runs. -/
def ringIrq (inp r cls : Nat) (atOnce : Bool) : P Unit := do
  let m ← getM
  let x := m.getRing r
  let n := x.sinceIrq + 1
  if m.g (RNG_CTL_IRQ_EN r) = 1 then
    if atOnce ∨ Nat.max 1 (m.g (RNG_IRQ_MOD_COUNT r)) ≤ n then
      putRing r { x with sinceIrq := 0, modRuns := false }
      msixSend inp (m.g (TEN_STATUS_VCS (m.g (RNG_CFG_SLICE r)))) (m.g (RNG_CTL_VECTOR r)) cls
    else
      putRing r { x with sinceIrq := n, modRuns := x.modRuns || decide (m.g (RNG_IRQ_MOD_US r) ≠ 0) }

/-- The PHASE bit of an entry at index `i` (Table 9.4). -/
def phaseOf (m : Mach) (r i : Nat) : Nat := 1 - i / ringSize m r % 2

/-- The header of an entry: SLOTS, PHASE and KIND (Table 9.4). -/
def entryHdr (m : Mach) (r i slots kind : Nat) : Nat := slots + phaseOf m r i * 16 + kind * 256

/-- The address of index `i` of ring `r` (R225). -/
def slotAddr (m : Mach) (r i : Nat) : Nat := m.g (RNG_IOVA_IOVA r) * 64 + 64 * (i % ringSize m r)

/-- Words written to host memory from address `a`, cut into writes of at most 256 bytes that do not cross a multiple of 256
(Table 14.2). The first number bounds the pieces. -/
def pieces : Nat → Nat → List Word → List (Nat × List Word)
  | 0, _, _ => []
  | _, _, [] => []
  | f + 1, a, ws => (a, ws.take (32 - a % 256 / 8)) :: pieces f (a + 8 * (32 - a % 256 / 8)) (ws.drop (32 - a % 256 / 8))

/-- The ring engine writes one entry of 8 words a slot at PROD: slots 1 onward first, the first slot last (R229), and
PROD advances; PAD entries do not count in ENTRIES. -/
def ringPut (inp r cls : Nat) (ws : List Word) (pad poison : Bool) : P Unit := do
  let m ← getM
  let i := m.g (RNG_IDX_PROD r)
  let n := Nat.max 1 (ws.length / 8)
  each (pieces 8 (slotAddr m r (i + 1)) (ws.drop 8)) fun e => do
    xsend (ringMsg m inp r e.1 e.2 cls poison)
    modRing r fun x => { x with inFlight := x.inFlight + 1 }
  xsend (ringMsg m inp r (slotAddr m r i) (ws.take 8) cls poison)
  modRing r fun x => { x with inFlight := x.inFlight + 1 }
  addWrap (RNG_IDX_PROD r) n
  onlyIf (pad = false) (inc (RNG_CNT_ENTRIES r))

/-- The 32 bytes of an event record (Table 14.5) as four words. -/
def EvRec.words (e : EvRec) : List Nat :=
  [e.time % 2 ^ 64,
   e.src + e.sev * 2 ^ 8 + e.code * 2 ^ 16 + e.slice * 2 ^ 32 + e.port * 2 ^ 40 + e.flags * 2 ^ 48,
   e.addr % 2 ^ 64, e.detail % 2 ^ 64]

/-- A number as a word. -/
def w64 (n : Nat) : Word := BitVec.ofNat 64 n

/-- An event record is written to event ring `r`, or discarded and counted (R232, R245). -/
def evRingPut (r : Nat) (e : EvRec) : P Unit := do
  let m ← getM
  let x := m.getRing r
  if m.g (RNG_STATUS_STATE r) = rsRUNNING ∧ m.g (RNG_CFG_TYPE r) = 3 ∧ 1 ≤ ringFree m r then
    let h := entryHdr m r (m.g (RNG_IDX_PROD r)) 1 0x42 + Nat.min x.lost (2 ^ 32 - 1) * 2 ^ 32
    ringPut epRNG r 7 ([w64 h, 0#64, 0#64, 0#64] ++ e.words.map w64) false false
    modRing r fun y => { y with lost := 0 }
    ringIrq epRNG r 7 false
  else
    inc (RNG_CNT_STALLS r)
    modRing r fun y => { y with lost := y.lost + 1 }

end Sys2Proof.Machine
end

