-- ==== Sys2Proof/Machine/Flags.lean ====
section
/-!
DEFINITION. Events and refusals: the delivery of an event record (R370, R372), the record of a refused write (R41) and
the record of a refused access (R459).
-/
namespace Sys2Proof.Machine

/-- A record is written to the firmware event queue, or dropped and counted (R370 steps 3 and 4). -/
def evqPut (e : EvRec) : P Unit := do
  let m ← getM
  let n := 2 ^ m.g INT_EVQ_BASE_SIZE_LOG2
  let free := n - idxDiff (m.g INT_EVQ_IDX_PROD) (m.g INT_EVQ_IDX_CONS)
  if free = 0 ∨ (free < 16 ∧ e.sev ≤ 1) then
    inc INT_EVQ_CNT_LOST
    putEvLost true
  else
    let e' := if m.evLost then { e with flags := e.flags ||| 0x8000 } else e
    let base := m.g INT_EVQ_BASE_BASE * 4 + m.g INT_EVQ_IDX_PROD % n * 4
    each (e'.words.zipIdx) fun p => putSram (base + p.2) (w64 p.1)
    addWrap INT_EVQ_IDX_PROD 1
    putEvLost false
    let k ← getM
    let waiting := idxDiff (k.g INT_EVQ_IDX_PROD) (k.g INT_EVQ_IDX_CONS)
    onlyIf (e.sev ≤ 1 ∧ k.g INT_EVQ_IRQ_IRQ_COUNT ≤ waiting) (emit .mgmtIrq)

/-- A record goes to the firmware event queue, or waits in the holding queue while the queue is off (R370 steps 1 to 4).
Both are in CORE: a record that is raised while CORE is not ON is lost with it. A UE or FE record interrupts the
management cores at once, queued or held. -/
def evFirmware (e : EvRec) : P Unit := do
  let m ← getM
  onlyIf (2 ≤ e.sev) (emit .mgmtIrq)
  if domOn m 2 = false then putEvLost true
  else if m.g INT_EVQ_BASE_EN = 1 then evqPut e
  else if m.hold.length < 256 then modHold (· ++ [e])
  else do
    inc INT_EVQ_CNT_HOLD_LOST
    putEvLost true

/-- The VCSs whose domain device logs a record: ADDR_VALID is set and R64 gives the host the address (R372). -/
def logVcs (m : Mach) (e : EvRec) : List Nat :=
  if e.flags % 2 = 1 then (List.range 64).filter (fun v => hostReaches m v e.addr) else []

/-- A record is logged by the domain devices it concerns, 64 records a log; it then carries HOST_LOGGED (R372). -/
def evHost (e : EvRec) : P EvRec := do
  let vs := logVcs (← getM) e
  if vs = [] then return e
  let e' := { e with flags := e.flags ||| 4 }
  each vs fun v => modHlog (v * 4 + e.sev) fun l => if l.length < 64 then l ++ [e'] else l
  return e'

/-- The first FE record since cold reset is latched in INT_FE_LOG (R370 step 6), and every FE record fences this twin
(R369): the fence follows at the end of the step. -/
def evFeLog (e : EvRec) : P Unit := do
  let m ← getM
  if e.sev = 3 ∧ m.feSeen = false then
    putFeSeen true
    each (e.words.zipIdx) fun p => wr (INT_FE_LOG_RECORD p.2) p.1
  onlyIf (e.sev = 3) (putFeDue true)

/-- The event ring a record goes to: its ring's for a record of source RNG about ring `r`, its slice's for another
(R370 step 5, R250). -/
def evRingOf (m : Mach) (e : EvRec) (ring : Option Nat) : Option Nat :=
  match ring with
  | some r => if m.g (RNG_CTL_EVENT_EN r) = 1 then some (m.g (RNG_CTL_EVENT_RING r)) else none
  | none =>
    if e.src ≠ 6 ∧ e.slice ≤ 255 ∧ m.g (INT_SLICE_EVR_EN e.slice) = 1 then some (m.g (INT_SLICE_EVR_RING e.slice))
    else none

/-- A record goes to the firmware event queue and to its event ring, if any (R370 steps 1 to 5). -/
def evOut (x : EvRec × Option Nat) : P Unit := do
  evFirmware x.1
  match x.2 with
  | some r => evRingPut r x.1
  | none => pure ()

/-- The place of a record among those of one cycle: its SOURCE, then its CODE (R370). -/
def EvRec.place (e : EvRec) : Nat := e.src * 65536 + e.code

/-- A record takes its place among the step's: behind those whose SOURCE and CODE are not above its own. -/
def evInsert (x : EvRec × Option Nat) : List (EvRec × Option Nat) → List (EvRec × Option Nat)
  | [] => [x]
  | y :: l => if x.1.place < y.1.place then x :: y :: l else y :: evInsert x l

/-- A record waits for the end of the step, which stands for the end of the cycle (R370; notes/assumptions/170.md). -/
def evWait (ring : Option Nat) (e : EvRec) : P Unit := do
  let m ← getM
  modEvPend (evInsert (e, evRingOf m e ring))

/-- The records of the step are delivered in ascending SOURCE, then in ascending CODE (R370). -/
def evFlush : P Unit := do
  let m ← getM
  putEvPend []
  each m.evPend evOut

/-- An event record of severity CE, DE or UE about ring `ring` (or none) is raised (R370). -/
def raiseOn (ring : Option Nat) (e0 : EvRec) : P Unit := do
  let t ← now
  let e ← evHost { e0 with time := t }
  evWait ring e

/-- An event record of severity CE, DE or UE is raised (R370). -/
def raise (e : EvRec) : P Unit := raiseOn none e

/-- An event record of severity FE is raised, latched where it is the first, and fences this twin (R369, R370). -/
def raiseFe (e0 : EvRec) : P Unit := do
  let t ← now
  let e ← evHost { e0 with time := t }
  evFeLog e
  evWait none e

/-- An event: source, severity, code. -/
def ev (src sev code : Nat) : EvRec := { time := 0, src := src, sev := sev, code := code }

/-- An event with its ADDR field valid. -/
def EvRec.at (e : EvRec) (a : Nat) : EvRec := { e with addr := a, flags := e.flags ||| 1 }

/-- DETAIL byte 24. -/
def EvRec.b24 (e : EvRec) (v : Nat) : EvRec := { e with detail := e.detail + v % 256 }
/-- DETAIL byte 25. -/
def EvRec.b25 (e : EvRec) (v : Nat) : EvRec := { e with detail := e.detail + v % 256 * 2 ^ 8 }
/-- DETAIL bytes 24-25. -/
def EvRec.h24 (e : EvRec) (v : Nat) : EvRec := { e with detail := e.detail + v % 2 ^ 16 }
/-- DETAIL byte 26. -/
def EvRec.b26 (e : EvRec) (v : Nat) : EvRec := { e with detail := e.detail + v % 256 * 2 ^ 16 }
/-- DETAIL byte 27. -/
def EvRec.b27 (e : EvRec) (v : Nat) : EvRec := { e with detail := e.detail + v % 256 * 2 ^ 24 }
/-- DETAIL bytes 26-27. -/
def EvRec.h26 (e : EvRec) (v : Nat) : EvRec := { e with detail := e.detail + v % 2 ^ 16 * 2 ^ 16 }
/-- DETAIL bytes 28-31. -/
def EvRec.w28 (e : EvRec) (v : Nat) : EvRec := { e with detail := e.detail + v % 2 ^ 32 * 2 ^ 32 }
/-- The port of a record. -/
def EvRec.onPort (e : EvRec) (p : Nat) : EvRec := { e with port := p }
/-- The slice of a record. -/
def EvRec.onSlice (e : EvRec) (s : Nat) : EvRec := { e with slice := s }

/-- The event is raised at the first count after the counter was last cleared: `f` is the counter. The counter counts
in either case. -/
def countFirst (f : RF) (e : EvRec) : P Unit := do
  let v ← rd f
  inc f
  onlyIf (v = 0) (raise e)

/-- The SOURCE code of a path (Table 17.7). -/
def pathCode (m : Mach) : Path → Nat
  | .bmc => 1
  | .debug => 2
  | .firmware _ => 3
  | .loader c => c
  | .partner => 4
  | .fmVdm _ => 5
  | .bar0 v => if bitsAt (m.g GLB_ARB_CFG_FM_VCS) v 1 = 1 then 5 else 6
  | .tenantPage _ _ => 6

/-- The VCS of a BAR0 or page access, or 0xFF (R41). -/
def pathVcs : Path → Nat
  | .bar0 v => v
  | .tenantPage v _ => v
  | _ => 0xFF

/-- The slice of WRITE_REFUSED (R41): that of a TEN page, of a ring context, or of the page whose aperture, at address
`addr`, stands for the register. -/
def regSlice (m : Mach) (r : Reg) (addr : Nat) : Nat :=
  match regAt addr with
  | some ⟨.TEN_OBJ_DATA, i⟩ => i / 8
  | _ =>
    match r.k.desc.blk with
    | .TEN => if r.k = .TEN_OBJ_DATA then r.i / 8 else r.i
    | .RNG => m.g (RNG_CFG_SLICE r.i)
    | _ => 0xFF

/-- The port a register belongs to, for WRITE_REFUSED (R41). -/
def regPort (r : Reg) : Nat :=
  match r.k with
  | .OCT_PORT_CFG | .OCT_PORT_CTL | .OCT_PORT_STATUS | .OCT_PORT_TRAIN | .OCT_PORT_IDE | .OCT_PORT_CNT0
  | .OCT_PORT_CNT1 | .OCT_PBR_ID => r.i
  | .OCT_EDGE_MAP => r.i / 16
  | _ => 0xFF

/-- A refused write of register `r`, made at `addr`, is recorded: WRITE_REFUSED, code 0xCC80 of the reason's class (R41).
A write through an aperture carries the address it was made at, its target's block and its page's slice (log entry
119). -/
def writeRefused (r : Reg) (addr reason : Nat) (path : Path) : P Unit := do
  let m ← getM
  let e := ev r.k.desc.blk.src 0 (reason / 256 * 256 + 0x80)
  raise ((((((e.at addr).h24 reason).b26 (pathCode m path)).b27 (pathVcs path)).onSlice (regSlice m r addr)).onPort
    (regPort r))

/-- A message that carries an identifier out of its range is refused (R8): block `b` records it with its reason and the
SOURCE code of its sender. It names no register, so its record has no address (log entry 119). -/
def opRefused (b : Blk) (reason port slice src : Nat) : P Unit :=
  raise ((((ev b.src 0 (reason / 256 * 256 + 0x80)).h24 reason |>.b26 src) |>.b27 0xFF).onPort port |>.onSlice slice)

/-- An access outside its path's reach, unmapped or of a wrong width is recorded in GLB_PATH_CNT; the first after a
clear raises PATH_REFUSED (R459, R460). -/
def pathRefused (path : Path) (addr cause : Nat) (isWrite : Bool) : P Unit := do
  let m ← getM
  let first := m.g GLB_PATH_CNT_COUNT = 0
  inc GLB_PATH_CNT_COUNT
  wr GLB_PATH_CNT_SOURCE (pathCode m path)
  wr GLB_PATH_CNT_CAUSE cause
  wr GLB_PATH_CNT_ADDR addr
  onlyIf (first = true)
    (raise ((((((ev 1 0 0x018B).at addr).b24 (pathCode m path)).b25 cause).b26
      (match path with | .bar0 v => v | _ => 0xFF)).b27 (if isWrite then 1 else 0) |>.onPort
      (match path with | .bar0 v => vcsPort m v | .tenantPage v _ => vcsPort m v | _ => 0xFF)))

/-! Memory errors (R355-R361, R371, R373). -/

/-- A record about memory type `mem`: cause, instance and object in its DETAIL (R373). -/
def memEv (sev code mem cause inst obj : Nat) : EvRec := ((((ev 0x0C sev code).b24 mem).b25 cause).h26 inst).w28 obj

/-- DETAIL names no object. -/
abbrev noObj : Nat := 0xFFFFFFFF

/-- The POISON flag of a record (Table 14.5). -/
def EvRec.poisoned (e : EvRec) : EvRec := { e with flags := e.flags ||| 2 }

/-- Poison is created at one point (R361): counted, and MEM_POISONED raised once; `f` adds what the point knows. -/
def memPoisoned (mem cause inst obj : Nat) (f : EvRec → EvRec) : P Unit := do
  inc (INT_CNT_POISON_COUNT mem)
  raise (f (memEv 1 0x0C82 mem cause inst obj).poisoned)

/-- Poison arrives from outside at port `p` (R361). It is stored in the octet's receive memory, type XBUF (DEDUCED,
notes/assumptions/45.md). -/
def poisonReceived (p : Nat) (addr : Option Nat) : P Unit := do
  inc (INT_CNT_PIN_COUNT 2)
  let e := (memEv 1 0x0C83 2 3 (p / 4) noObj).poisoned.onPort p
  raise (match addr with | some a => e.at a | none => e)

/-- State is lost and contained: MEM_UNCORRECTABLE (Table 14.7). -/
def memUncorrectable (mem cause inst obj : Nat) (f : EvRec → EvRec) : P Unit := do
  inc (INT_CNT_UE_COUNT mem)
  raise (f (memEv 2 0x0C84 mem cause inst obj))

/-- State is lost that cannot be contained: MEM_FATAL, which fences this twin (R369). -/
def memFatal (mem cause inst obj : Nat) : P Unit := do
  inc (INT_CNT_UE_COUNT mem)
  raiseFe (memEv 3 0x0C85 mem cause inst obj)

/-- A corrected error: the first since the counters were cleared and each multiple of CE_THRESH raise MEM_CORRECTED
(R371). -/
def memCorrected (mem inst obj : Nat) : P Unit := do
  let m ← getM
  let n := m.g (INT_CNT_CE_COUNT mem) + 1
  inc (INT_CNT_CE_COUNT mem)
  onlyIf (n = 1 ∨ n % m.g INT_CTL_CE_THRESH = 0) (raise (memEv 0 0x0C81 mem 0 inst obj))

end Sys2Proof.Machine
end

