-- ==== Sys2Proof/Machine/Spill.lean ====
section
/-!
DEFINITION. The spill region of the Plaza (R189, R190): its pages, the lines of a spilled packet, and the data that comes
back for them.
-/
namespace Sys2Proof.Machine

/-- `n` numbers of a free list over the numbers below `cap`, oldest first (R81, R189), and the list without them. That the
list is a FIFO is the model's choice (log entry 120). -/
def XFree.take (f : XFree) (cap n : Nat) : List Nat × XFree :=
  let k := Nat.min n (cap - f.next)
  ((List.range k).map (f.next + ·) ++ f.back.take (n - k), ⟨f.next + k, f.back.drop (n - k)⟩)

/-- Pages of the spill region, 512 a GiB. -/
def spillPages (m : Mach) : Nat := m.g TM_SPILL_BASE_GIB * 512

/-- The bobbins written to the tail page of a queue, where it has one. -/
def TQueue.tailFill (x : TQueue) : Option Nat := x.pages.getLast?.map (·.2.1)

/-- Whether the tail page of a queue holds a packet of `b` bobbins, which never straddles the end of a page (R189). -/
def TQueue.tailFits (x : TQueue) (b : Nat) : Bool :=
  match x.tailFill with
  | some n => decide (n + b ≤ 8192)
  | none => false

/-- Whether the spill region has room for a packet of `b` bobbins behind queue `q` (R184, R189). -/
def spillRoom (m : Mach) (q b : Nat) : Bool :=
  (m.getTq q).tailFits b || decide (m.g TM_SPILL_STATUS_PAGES < spillPages m)

/-- Room for `b` bobbins in the tail page of queue `q`, which is a page of the list where the old one has none left (R189):
the place of the first, in bobbins of the spill region. -/
def pageTake (q b : Nat) : P Nat := do
  let m ← getM
  let x := m.getTq q
  match x.tailFits b, x.pages.getLast? with
  | true, some (a, n, k) => do
    putTq q { x with pages := x.pages.dropLast ++ [(a, n + b, k + b)] }
    return a * 8192 + n
  | _, _ => do
    let (l, f) := m.sfree.take (spillPages m) 1
    let a := l.headD 0
    putSfree f
    inc TM_SPILL_STATUS_PAGES
    putTq q { x with pages := x.pages ++ [(a, b, b)] }
    return a * 8192

/-- `b` bobbins of a page of queue `q` are needed no more; a page that the dequeue has left returns to the list (R189). -/
def pageLeave (q place b : Nat) : P Unit := do
  let x ← getTq q
  let a := place / 8192
  match x.pages.find? (·.1 = a) with
  | some (_, n, k) =>
    if k ≤ b then
      putTq q { x with pages := x.pages.filter (·.1 ≠ a) }
      modSfree fun f => { f with back := f.back ++ [a] }
      sub TM_SPILL_STATUS_PAGES 1
    else putTq q { x with pages := x.pages.map fun e => if e.1 = a then (a, n, k - b) else e }
  | none => pure ()

/-- The lines of 64 B that a packet fills with its Docket (R174). -/
def Pkt.lines (p : Pkt) : Nat := (16 + p.len + 63) / 64

/-- A packet's words with its Docket in front, as its bobbins hold them (R189). -/
def Pkt.words (p : Pkt) : List Word := w64 p.docket :: w64 (p.docket / 2 ^ 64) :: p.data

/-- Line `i` of a packet has come back from the spill region. -/
def Pkt.landed (p : Pkt) (line i : Nat) (data : List Word) (poison : Bool) : Pkt :=
  let ws := p.words
  let l := (data ++ List.replicate 8 0#64).take 8
  { p with data := (ws.take (8 * i) ++ l ++ ws.drop (8 * i + 8)).drop 2,
           bad := if poison then p.bad ++ [i] else p.bad, reads := p.reads.filter (· ≠ line) }

/-- The line number, in the fabric address space, of the first line of a spilled packet. -/
def spillLine (m : Mach) (p : Pkt) : Nat := m.g TM_SPILL_BASE_BASE * 2 ^ 24 + p.place * 4

/-- The read of a line of a spilled packet ends, with the data or with poison (R190); the last one frees the packet's
bobbins of its page (R189). -/
def spillLanded (line : Nat) (data : List Word) (poison : Bool) : P Unit := do
  let m ← getM
  each m.push fun e =>
    match e.2 with
    | p :: _ => onlyIf (p.reads.contains line = true) (do
        let p' := p.landed line (line - spillLine m p) data poison
        putPush e.1 [p']
        onlyIf (p'.reads = []) (pageLeave p.queue p.place p.bobbins))
    | [] => pure ()

end Sys2Proof.Machine
end

