-- ==== Sys2Proof/Machine/Crossing.lean ====
section
/-!
DEFINITION. The Crossing (04_crossing.md): buffer accounting, plane choice, dispatch, linking, sending, plane states,
multicast, mirroring, ageing and the flush of a port.
-/
namespace Sys2Proof.Machine

/-- The XB counters in register order (R112). -/
abbrev xcCUT : Nat := 0
abbrev xcSTORE : Nat := 1
abbrev xcMOVES : Nat := 2
abbrev xcRESENT : Nat := 3
abbrev xcMC_INPUT : Nat := 4
abbrev xcMC_FABRIC : Nat := 5
abbrev xcAGED : Nat := 6
abbrev xcFLUSHED : Nat := 7
abbrev xcCREDIT_WAIT : Nat := 8

/-- STATE of plane `p`. -/
abbrev planeState (p : Nat) : RF := ⟨.XB_PLANE_STATUS, 0, 8 * p, 4⟩
/-- CAUSE of plane `p`. -/
abbrev planeCause (p : Nat) : RF := ⟨.XB_PLANE_STATUS, 0, 8 * p + 4, 4⟩

/-- The states of Table 4.3. -/
abbrev plOFF : Nat := 0
abbrev plSTARTING : Nat := 1
abbrev plSERVICE : Nat := 2
abbrev plDRAINING : Nat := 3
abbrev plTEST : Nat := 4
abbrev plLOST : Nat := 5

/-- The planes in SERVICE, ascending: the list S of R93. -/
def planesUp (m : Mach) : List Nat := (List.range 4).filter (fun p => m.g (planeState p) = plSERVICE)

/-- When MODE changes, every entry with COUNT above 0 is set DRAINING (R94). -/
def flowDrainAll : P Unit := do
  let m ← getM
  each m.flowt fun e => onlyIf (0 < e.2.count) (putFlowt e.1 { e.2 with draining := true })

/-- XB_STATUS follows the planes (R91): MODE is FLOWLET while all four are in SERVICE. -/
def planeModeUpdate : P Unit := do
  let m ← getM
  let s := planesUp m
  let mode := if s.length = 4 then 1 else 0
  wr XB_STATUS_IN_SERVICE (s.foldl (fun a p => a + 2 ^ p) 0)
  if m.g XB_STATUS_MODE ≠ mode then
    wr XB_STATUS_MODE mode
    flowDrainAll
  onlyIf (m.g XB_STATUS_IN_SERVICE ≠ 0 ∧ s = []) (raiseFe (ev 3 3 0x0384))

/-- Plane `p` enters a state; a cause is kept until the next loss or RETURN. -/
def planeTo (p st : Nat) : P Unit := do
  wr (planeState p) st
  planeModeUpdate

/-- Whether a message's plane key is over its line (R93): CXL.mem, Plaza packet writes and the delegation messages. -/
def lineKeyed : Op → Bool
  | .rdS | .rdA | .rdI | .memInv | .memWr | .memWrPtl | .wbI | .wbS | .cmp | .cmpS | .cmpE | .memData
  | .bisnpData | .bisnpInv | .birspI | .birspS | .birspE | .biConflict | .biConflictAck | .plazaWr
  | .fwd | .ack | .handover | .ret | .waiter | .steered => true
  | _ => false

/-- L of R93: the exclusive OR of the six bytes of address bits [51:6]. -/
def lineHash (a : Nat) : Nat :=
  let v := bitsAt a 6 46
  (List.range 6).foldl (fun s i => s ^^^ bitsAt v (8 * i) 8) 0

/-- h of R93. -/
def planeHash (msg : Msg) : Nat :=
  (msg.inp ^^^ msg.out ^^^ (msg.cls * 32 % 256) ^^^ (if lineKeyed msg.op then lineHash msg.addr else 0)) % 256

/-- The plane that R93 gives a message, while any plane is in SERVICE. -/
def pinnedPlane (m : Mach) (msg : Msg) : Option Nat :=
  let s := planesUp m
  s[planeHash msg % s.length]?

/-- The flowlet entry of a triple (R89), as a key of the table. -/
def flowKey (inp out cls : Nat) : Nat := inp * 1024 + (out * 8 + cls) % 1024

/-- The load of plane `p` as input `i` sees it (R90). -/
def planeLoad (m : Mach) (i p : Nat) : Nat :=
  (m.getStg i).foldl (fun a s => if s.plane = p then a + (s.cells - s.linked) else a) 0

/-- The least loaded of some planes, the lower number on a tie (R92). -/
def leastLoaded (m : Mach) (i : Nat) : List Nat → Option Nat
  | [] => none
  | p :: t =>
    match leastLoaded m i t with
    | none => some p
    | some q => if planeLoad m i p ≤ planeLoad m i q then some p else some q

/-- The reserve of an output queue (R83): floor and MIN_RES of a port; an internal endpoint's 96. -/
def queueReserve (m : Mach) (ep cls : Nat) : Nat :=
  if ep < 128 then 4 + (if m.g (OCT_PORT_CFG_VALID ep) = 1 then m.g (XB_CLASS_CFG_MIN_RES cls) else 0) else 96

/-- The part of the 32 bobbins reserved for the multicast queue of a class that no stored message holds (R83). -/
def mcRoom (m : Mach) (cls : Nat) : Nat := 32 - (m.getXacct (168 * 8 + cls)).1

/-- The part of its reserve that a queue holds; an internal endpoint's classes share one reserve. -/
def reserveHeld (m : Mach) (ep cls : Nat) : Nat :=
  if ep < 128 then (m.getXacct (ep * 8 + cls)).1
  else (List.range 8).foldl (fun a c => a + (m.getXacct (ep * 8 + c)).1) 0

/-- What references already counted for one message hold of the reserve of queue (ep, cls), and of its shared share
(R102). -/
def refsHeld (l : List XRef) (ep cls : Nat) : Nat × Nat :=
  (((l.filter fun r => r.msg.out = ep && (128 ≤ ep || r.msg.cls = cls)).map (·.reserve)).sum,
   ((l.filter fun r => r.msg.out = ep && r.msg.cls = cls).map (·.shared)).sum)

/-- Whether a queue admits `n` bobbins beside the references `l` (R84), and how many come from its reserve and from the
shared pool: its own reserve first. α is 2^(DT_ALPHA − 6), so the test is multiplied by 64. -/
def queueAdmitsWith (m : Mach) (l : List XRef) (ep cls n : Nat) : Option (Nat × Nat) :=
  let room := queueReserve m ep cls - reserveHeld m ep cls - (refsHeld l ep cls).1
  if n ≤ room then some (n, 0)
  else if ((m.getXacct (ep * 8 + cls)).2 + (refsHeld l ep cls).2 + n) * 64 ≤
      2 ^ m.g (XB_CLASS_CFG_DT_ALPHA cls) * m.g XB_BUF_STATUS_SHARED_FREE ∧ n - room ≤ m.g XB_BUF_STATUS_SHARED_FREE
  then some (room, n - room)
  else none

/-- Whether a queue admits `n` bobbins (R84). -/
def queueAdmits (m : Mach) (ep cls n : Nat) : Option (Nat × Nat) := queueAdmitsWith m [] ep cls n

/-- Whether every destination queue of a fabric-replicated message admits its reference of `n` cells, each counted beside
the ones before it (R102); the answer holds what each counts. -/
def admitAll (m : Mach) (n : Nat) : List XRef → List Msg → Option (List XRef)
  | l, [] => some l
  | l, d :: t =>
    match queueAdmitsWith m l d.out d.cls n with
    | some (res, sh) => admitAll m n (l ++ [⟨d, res, sh⟩]) t
    | none => none

/-- `res` bobbins of a reserve and `sh` of the shared pool leave the free list (R81, R83). -/
def bobTake (res sh : Nat) : P (List Nat) := do
  let f ← getXfree
  putXfree (f.take 262144 (res + sh)).2
  sub XB_BUF_STATUS_FREE (res + sh)
  sub XB_BUF_STATUS_SHARED_FREE sh
  return (f.take 262144 (res + sh)).1

/-- Bobbins come back to the free list: `sh` of them to the shared pool, the others to a reserve (R81, R84). -/
def bobReturn (l : List Nat) (sh : Nat) : P Unit := do
  modXfree fun f => { f with back := f.back ++ l }
  addSat XB_BUF_STATUS_FREE l.length
  addSat XB_BUF_STATUS_SHARED_FREE sh

/-- The queue (ep, cls) counts bobbins. -/
def acctAdd (ep cls res sh : Nat) : P Unit := modXacct (ep * 8 + cls) fun a => (a.1 + res, a.2 + sh)

/-- The queue (ep, cls) counts bobbins no more. -/
def acctSub (ep cls res sh : Nat) : P Unit := modXacct (ep * 8 + cls) fun a => (a.1 - res, a.2 - sh)

/-- Bobbins are taken for a queue. -/
def bufTake (ep cls res sh : Nat) : P (List Nat) := do
  acctAdd ep cls res sh
  bobTake res sh

/-- Bobbins return to the part they came from (R84). -/
def bufGive (ep cls res sh : Nat) (l : List Nat) : P Unit := do
  acctSub ep cls res sh
  bobReturn l sh

/-- The chain of bobbins of an output queue, in link order (R82): the skein. -/
def skein (m : Mach) (ep cls : Nat) : List Nat := (m.getXq (ep * 8 + cls)).flatMap (·.bobs)

/-- The next-pointer that the pointer RAM holds for a bobbin (R81): the bobbin after it in the skein that holds it, or the
multicast queue that does. -/
def nextPointer (m : Mach) (b : Nat) : Option Nat :=
  ((m.xq.map fun e => e.2.flatMap (·.bobs)) ++ (m.mcq.map fun e => e.2.flatMap fun n => (m.getMcs n).bobs)).findSome? fun l =>
    match l.findIdx? (· = b) with
    | some k => l[k + 1]?
    | none => none

/-- Whether an opcode is a CXL.mem request, and of what sort: 1 a read, 2 a MemInv, 3 a write; 0 otherwise. -/
def reqSort : Op → Nat
  | .rdS | .rdA | .rdI => 1
  | .memInv => 2
  | .memWr | .memWrPtl | .wbI | .wbS => 3
  | _ => 0

/-- The answer to a CXL.mem request that goes no further (R463, R67, R117): a read gets poisoned data and no grant, a
MemInv and a write get Cmp with no grant. `x` is [1], which no granting answer carries. -/
def noGrant (msg : Msg) (c0 : Bool) : Msg :=
  let cls := if c0 then 0 else if reqSort msg.op = 1 then 3 else 2
  { msg with op := if reqSort msg.op = 1 then .memData else .cmp, cls := cls, out := msg.inp,
             poison := reqSort msg.op = 1, data := [], x := [1] }

/-- A ring's write is no longer in flight once it has left the Crossing (R247). -/
def ringLanded (msg : Msg) : P Unit :=
  onlyIf (msg.op = .ioWr ∧ (msg.inp = epRNG ∨ msg.inp = epTM) ∧ nth msg.x 0 < 32768)
    (modRing (nth msg.x 0) fun r => { r with inFlight := r.inFlight - 1 })

/-- A message for the Corner of a port's octet: it goes to the octet and not onto the link (R153). -/
def forCorner : Op → Bool
  | .fwd | .ack => true
  | _ => false

/-- A message that a Corner itself sent through its port's input: its memory writes carry this mark (R156). -/
def fromCorner (msg : Msg) : Bool := msg.x.head? = some 0xC0DE

/-- The state of the domain that an internal endpoint lies in (Table 4.1, Table 1.7). -/
def epDomState (m : Mach) (ep : Nat) : Nat :=
  m.g (PWR_DOM_STATUS_STATE (if ep < 160 then dSQ (ep - 128) else if ep < 164 then dKSK (ep - 160) else if ep = epTM then dTM
    else if ep = epMG then 1 else 2))

/-- Whether a message may go toward its output: an ACK reaches its Corner whatever the port's state is (DEDUCED,
notes/assumptions/6.md); every other message for a port needs it UP (R108), one for an internal endpoint its domain ON
or DRAINING (R388). -/
def mayReach (m : Mach) (msg : Msg) : Bool :=
  if msg.out = epSPN then m.g TWN_SPN_STATUS_STATE = 2 || m.g TWN_SPN_STATUS_STATE = 3
  else if 128 ≤ msg.out then epDomState m msg.out = 2 || epDomState m msg.out = 4
  else msg.op = .ack || portUp m msg.out

/-- A message for an endpoint whose domain is DRAINING is held at its source (R388). -/
def heldBack (m : Mach) (msg : Msg) : Bool := 128 ≤ msg.out && msg.out ≠ epSPN && epDomState m msg.out = 4

/-! The Spindle's transmitter is the output stage of endpoint 166 (R311). -/

/-- The KIND of the packet that carries a message (Table 12.4). -/
def spnKind (msg : Msg) : Nat :=
  match msg.op with
  | .mirror => 1
  | .mirrorCommit => 2
  | .bisnpData | .bisnpInv => 5
  | .birspI | .birspS | .birspE => 6
  | .loomReq => 7
  | .loomRsp => 8
  | .portState => 9
  | .ctlWrite => 0xA
  | .dirCopy => 0xB
  | _ => if isResponse msg.op || msg.x.head? = some 0xFE then 4 else 3

/-- LEN of the packet that carries a message (R309, R310): header, payload and CRC in blocks of 32 bytes. A CXL message
has an 8-byte route word before it; the length of the others counts their header. -/
def spnBlocks (msg : Msg) : Nat :=
  match spnKind msg with
  | 3 | 4 | 5 | 6 => (28 + msg.len + 31) / 32
  | _ => (msg.len + 4 + 31) / 32

/-- Whether a new packet has VC credit (R318). -/
def spnCredit (m : Mach) (msg : Msg) : Bool :=
  spnBlocks msg ≤ (m.g (TWN_SPN_CRED_LIMIT msg.cls) + 65536 - m.g (TWN_SPN_CRED_CONSUMED msg.cls)) % 65536

/-- The blocks in the Reel. -/
def reelBlocks (m : Mach) : Nat := m.reel.foldl (fun a p => a + p.blocks) 0

/-- Whether the Reel has room for a new packet (R312). -/
def reelRoom (m : Mach) (msg : Msg) : Bool := m.reel.length < 16384 && reelBlocks m + spnBlocks msg ≤ 32768

/-- Whether a packet that has VC credit waits for room in the Reel (R312). -/
def reelShort (m : Mach) : Bool :=
  (List.range 8).any fun c => match m.getXq (epSPN * 8 + c) with
    | q :: _ => spnCredit m q.msg && !reelRoom m q.msg
    | [] => false

/-- TWN_SPN_TXSEQ shows what the Reel holds. -/
def reelShow : P Unit := do
  let m ← getM
  wr TWN_SPN_TXSEQ_REEL_PKTS (Nat.min m.reel.length 32767)
  wr TWN_SPN_TXSEQ_REEL_BLOCKS (reelBlocks m)

/-- A new packet is sent: it takes its sequence number and credit and stands in the Reel until it is acknowledged
(R312, R318). A misdirected request that is forwarded waits for its response; its tag carries its port. -/
def spnTx (msg : Msg) : P Unit := do
  let m ← getM
  let k := spnKind msg
  let n := spnBlocks msg
  let sent := if k = 3 then { msg with tag := msg.tag % 65536 + nth msg.x 1 * 65536, x := [] } else msg
  let pk : Packet := { kind := k, seq := m.g TWN_SPN_TXSEQ_TX_NEXT, vc := msg.cls, blocks := n, crcOk := true, msg := sent,
                       src := msg.inp, dest := if k = 1 ∨ k = 2 ∨ k = 0xB then msg.tag else 0xFF }
  addWrap TWN_SPN_TXSEQ_TX_NEXT 1
  addWrap (TWN_SPN_CRED_CONSUMED msg.cls) n
  modReel (· ++ [pk])
  reelShow
  inc (TWN_SPN_CNT_COUNT 0)
  putSpnWait msg.cls false
  onlyIf (k = 3) (modSpn fun x => { x with fwd := x.fwd ++ [msg] })
  emit (.packet pk)

/-- The head of an output queue of the Spindle waits: counted once a message and cause (R312, R318). -/
def spnWaits : P Unit := do
  let m ← getM
  if m.g TWN_SPN_STATUS_STATE = 2 then
    each (List.range 8) fun c => do
      let m ← getM
      match m.getXq (epSPN * 8 + c) with
      | q :: _ => do
        onlyIf (spnCredit m q.msg = false ∧ m.getSpnWait c = false) (do
          putSpnWait c true
          inc (TWN_SPN_CNT_COUNT 12))
        onlyIf (spnCredit m q.msg = true ∧ reelRoom m q.msg = false ∧ m.getSpnWait 8 = false) (do
          putSpnWait 8 true
          wr TWN_SPN_STATUS_REEL_FULL 1
          inc (TWN_SPN_CNT_COUNT 11))
      | [] => pure ()

/-- A STATUS block leaves: NAK, ACK_SEQ and the eight credit limits (Table 12.2, R315, R318). -/
def statusSend (nak : Bool) : P Unit := do
  let m ← getM
  onlyIf (m.g TWN_SPN_STATUS_STATE = 2)
    (emit (.block 1 ((if nak then 1 else 0) :: (m.g TWN_SPN_RXSEQ_RX_NEXT + 65535) % 65536 ::
      (List.range 8).map fun v => (m.g (TWN_SPN_VCBUF_SIZE v) + m.g (TWN_SPN_RCRED_FREED v)) % 65536)))

/-- A packet's message leaves the VC buffers for the Crossing: its blocks are freed, and a STATUS block says so (R315,
R318, R319). -/
def spnFree (vc : Nat) : P Unit := do
  let m ← getM
  match m.getSpnBuf vc with
  | n :: r => do
    putSpnBuf vc r
    addWrap (TWN_SPN_RCRED_FREED vc) n
    sub (TWN_SPN_RCRED_USED vc) n
    onlyIf (n ≠ 0) (statusSend false)
  | [] => pure ()

/-- A misdirected request that this twin forwarded is lost with the link (R164): a read completes with poison; a write
completes, and SPINDLE_FWD_LOST is raised. -/
def fwdLost (msg : Msg) : P Unit := do
  let p := nth msg.x 1
  onlyIf (reqSort msg.op = 3) (raise (((ev 2 2 0x028D).at msg.addr).b24 1 |>.onPort p))
  let m ← getM
  let a := noGrant { msg with inp := p } (msg.cls = 0 || expressUp m p)
  xsend { a with inp := epSPN, out := p, len := if a.op = .memData then 80 else 16 }

/-- A message for a port that is not UP is discarded (R108, R109, R463): an internal sender gets a FLUSHED notice with
the message's tag, a port's CXL.mem request is completed without a grant, its non-posted CXL.io request with
Unsupported Request; an access to the Plaza completes as R171 states while TM is not ON (R384). A ring's write in flight
ends. -/
def discard (msg : Msg) : P Unit := do
  inc (XB_CNT_COUNT xcFLUSHED)
  if msg.out = epSPN then onlyIf (spnKind msg = 3) (fwdLost msg)
  else if 128 ≤ msg.inp ∨ fromCorner msg = true then
    emit (.deliver msg.inp { msg with op := .flushed, inp := msg.out, out := msg.inp, x := msg.op.ctorIdx :: msg.x })
    ringLanded msg
  else if reqSort msg.op ≠ 0 then
    kerbDone msg.inp msg.tag
    let m ← getM
    let a := noGrant msg (msg.cls = 0 || expressUp m msg.inp)
    emit (.port msg.inp (if msg.out = epTM ∧ a.op = .memData then { a with poison := false, data := List.replicate 8 0#64 } else a))
  else if msg.op = .ioRd ∨ msg.op = .cfgRd ∨ msg.op = .cfgWr then
    emit (.port msg.inp { msg with op := .ioUr, out := msg.inp, data := [] })

/-- The protocol of a message for the mirror record (Table 4.5). -/
def protoOf : Op → Nat
  | .ioRd | .ioWr | .cfgRd | .cfgWr | .ioMsg | .ioCpl | .ioUr | .msix | .egress => 0
  | .d2hReq | .d2hRsp | .d2hData | .h2dReq | .h2dRsp | .h2dData => 2
  | .fwd | .ack | .handover | .ret | .waiter | .credit | .flushed | .steered | .mirror | .mirrorCommit | .dirCopy
  | .loomReq | .loomRsp | .portState | .ctlWrite | .internal => 3
  | _ => 1

/-- The protocol opcode of a message: the number CXL 3.1 gives a CXL.mem opcode; the spec does not restate it
(PRESUMED, notes/assumptions/4.md). Other messages read as their place in this model's list. -/
def opcodeOf : Op → Nat
  | .memInv => 0
  | .rdS | .rdA | .rdI => 1
  | .memWr | .wbI | .wbS => 1
  | .memWrPtl => 2
  | .cmp => 0
  | .cmpS => 1
  | .cmpE => 2
  | .memData => 0
  | .bisnpData => 1
  | .bisnpInv => 2
  | .birspI => 0
  | .birspS => 1
  | .birspE => 2
  | o => o.ctorIdx

/-- Whether a message carries an address. -/
def hasAddr (msg : Msg) : Bool :=
  match msg.op with
  | .cmp | .cmpS | .cmpE | .memData | .h2dRsp | .d2hRsp | .d2hData | .h2dData | .ioCpl | .ioUr | .ioMsg | .credit
  | .flushed | .portState | .mirrorCommit | .internal => false
  | _ => true

/-- Whether session `s` copies a message of its source port (R104). -/
def mirrorMatch (m : Mach) (s dir p : Nat) (msg : Msg) : Bool :=
  let lo := m.g (XB_MIR_WIN_BASE_BASE s)
  let hi := m.g (XB_MIR_WIN_LIMIT_LIMIT s)
  m.g (XB_MIR_CFG_VALID s) = 1 && m.g (XB_MIR_CFG_SOURCE_PORT s) = p &&
    (if dir = 0 then m.g (XB_MIR_CFG_INGRESS s) = 1 else m.g (XB_MIR_CFG_EGRESS s) = 1) &&
    bitsAt (m.g (XB_MIR_CFG_CLASS_MASK s)) msg.cls 1 = 1 &&
    (m.g (XB_MIR_CFG_AGENT s) = 0xFF || m.g (XB_MIR_CFG_AGENT s) = msg.agent) &&
    (m.g (XB_MIR_CFG_OPCODE s) = 0xFF || m.g (XB_MIR_CFG_OPCODE s) = opcodeOf msg.op) &&
    (if hasAddr msg then lo ≤ msg.addr && msg.addr ≤ hi else lo = 0 && hi = 2 ^ 52 - 1)

/-- The bytes a copy captures (R106). -/
def mirrorCap (m : Mach) (s : Nat) (msg : Msg) : Nat :=
  if m.g (XB_MIR_CFG_TRUNC64 s) = 1 then Nat.min 64 msg.len else msg.len

/-- The bytes of a mirror record: header and captured bytes, padded to 32 (R106). -/
def mirrorBytes (m : Mach) (s : Nat) (msg : Msg) : Nat := 32 + (mirrorCap m s msg + 31) / 32 * 32

/-- A session's copy of a message: queued while it fits under QLIMIT and 16,384 shared bobbins are free, otherwise
dropped and counted (R105). `x` keeps the direction, whether ingress refused it, and the time. -/
def mirrorCopy (s dir p : Nat) (refused : Bool) (msg : Msg) : P Unit := do
  let m ← getM
  if mirrorMatch m s dir p msg then
    let x := m.getMir s
    let n := cellsOf (mirrorBytes m s msg)
    let used := x.queue.foldl (fun a q => a + q.1.length) 0
    if used + n ≤ m.g (XB_MIR_LIMIT_QLIMIT s) ∧ 16384 ≤ m.g XB_BUF_STATUS_SHARED_FREE then
      let l ← bobTake 0 n
      putMir s { x with queue := x.queue ++
        [(l, { msg with x := [dir, if refused then 1 else 0, m.time64, p] })] }
    else
      putMir s { x with drops := x.drops + 1 }
      countFirst (XB_MIR_CNT_DROPS s) ((ev 3 0 0x0385).b24 s)

/-- Both sessions look at a message. -/
def mirrorBoth (dir p : Nat) (refused : Bool) (msg : Msg) : P Unit := do
  mirrorCopy 0 dir p refused msg
  mirrorCopy 1 dir p refused msg

/-- The responses that a message sent on a port's link makes its receiver owe (R18). -/
def owedBy : Op → List Op
  | .rdS | .rdI => [.memData]
  | .rdA => [.memData, .cmp]
  | .memInv | .memWr | .memWrPtl | .wbI | .wbS => [.cmp]
  | .bisnpData | .bisnpInv => [.birspI]
  | .ioRd | .cfgRd | .cfgWr => [.ioCpl]
  | _ => []

/-- A request leaves on a port's link: its receiver owes what answers it. -/
def owe (msg : Msg) : P Unit :=
  onlyIf (owedBy msg.op ≠ []) (modOwed msg.out (· ++ (owedBy msg.op).map fun o => (o, msg.tag, msg.inp)))

/-- The kind of response that answers a request: any Cmp, any BIRsp, and a completion with or without data. -/
def answerKind : Op → Op
  | .cmp | .cmpS | .cmpE => .cmp
  | .birspI | .birspS | .birspE => .birspI
  | .ioCpl | .ioUr => .ioCpl
  | o => o

/-- Whether a port's partner owes the response `op` to a request with tag `tag` of endpoint `req`. -/
def isOwed (m : Mach) (p : Nat) (op : Op) (tag req : Nat) : Bool := (m.getOwed p).contains (answerKind op, tag, req)

/-- The response has come. -/
def owedDone (p : Nat) (op : Op) (tag req : Nat) : P Unit := modOwed p (·.erase (answerKind op, tag, req))

/-- Whether a message that leaves for a Square joins its input queue: a coherent request that did not come over the Spindle. -/
def toSqin (msg : Msg) : Bool := msg.inp ≠ epSPN && reqSort msg.op ≠ 0 && msg.op ≠ .wbI && msg.op ≠ .wbS

/-- A message leaves the Crossing: on its port, with its link credit and its egress copy; or to an internal endpoint.
A coherent request for a Square joins the Square's input queue; what a device answers or reports to the fabric manager is
passed to it unchanged (R70, R422); a response to the debug master's access returns to it, and the access is complete
(R294); the data of a spill read reaches its packet, and the completion of a spill write has no
effect (R190); every other internal arrival is a command of its own (notes/assumptions/5.md). A ring's write in flight
ends. -/
def deliver (msg : Msg) : P Unit := do
  ringLanded msg
  if msg.out < 128 ∧ forCorner msg.op = false then
    mirrorBoth 1 msg.out false msg
    modPort msg.out fun x => { x with credits := x.credits.set msg.cls (nth x.credits msg.cls - 1) }
    let m ← getM
    pmuCount 0x04 1 { msgAt m msg with port := some msg.out }
    pmuCount 0x05 msg.len { msgAt m msg with port := some msg.out }
    owe msg
    emit (.port msg.out msg)
  else if msg.out = epSPN then spnTx msg
  else if 128 ≤ msg.out ∧ msg.out < 160 ∧ toSqin msg = true then
    let t ← getStampCtr
    putStampCtr (t + 1)
    let now' ← now
    putArrT t (now' + 1)
    modSqin (msg.out - 128) (· ++ [(t, msg)])
  else if msg.out = epMG ∧ (msg.op = .ioMsg ∨ msg.op = .ioCpl ∨ msg.op = .ioUr) then
    emit (.mgmt 0 (if msg.op = .ioUr then 3 else 0) (msg.inp :: msg.data.map (·.toNat)))
  else if msg.out = epMG ∧ (msg.op = .memData ∨ msg.op = .cmp) then
    kerbDone kaDEBUG msg.tag
    emit (.debug msg.addr msg.data msg.poison)
  else if msg.out = epTM ∧ (msg.op = .memData ∨ msg.op = .cmp) then
    onlyIf (msg.op = .memData) (spillLanded msg.tag msg.data msg.poison)
  else emit (.deliver msg.out msg)

/-- The bandwidth of a port's trained link, rate times lanes in tenths of GT/s. -/
def linkBw (m : Mach) (p : Nat) : Nat :=
  nth [25, 50, 80, 160, 320, 640, 1280] (m.g (OCT_PORT_STATUS_RATE p)) * m.g (OCT_PORT_STATUS_LANES p)

/-- Whether a message cuts through (R99). -/
def cutsThrough (m : Mach) (msg : Msg) : Bool :=
  msg.inp < 128 && msg.out < 128 && !forCorner msg.op && m.g XB_CTL_CUT_EN = 1 && (m.getXq (msg.out * 8 + msg.cls)).isEmpty &&
    !(m.getPort msg.out).recovery && (m.getFlowt (flowKey msg.inp msg.out msg.cls)).count = 0 &&
    linkBw m msg.out ≤ linkBw m msg.inp && 1 ≤ nth (m.getPort msg.out).credits msg.cls

/-- The plane of a unicast message (R92, R93). -/
def choosePlane (m : Mach) (msg : Msg) : Option Nat :=
  let f := m.getFlowt (flowKey msg.inp msg.out msg.cls)
  if m.g XB_STATUS_MODE = 1 then
    if 0 < f.count then some f.plane else leastLoaded m msg.inp (planesUp m)
  else pinnedPlane m msg

/-- The cells an input has in its staging memory: those that the link stage has not acknowledged (R90). -/
def stagedCells (m : Mach) (i : Nat) : Nat := (m.getStg i).foldl (fun a s => a + (s.cells - s.linked)) 0

/-- The flowlet entry of a triple counts `n` cells dispatched on plane `p`; a change of plane in FLOWLET mode of an
entry that had carried traffic counts in MOVES (R92). -/
def flowDispatch (key p n : Nat) : P Unit := do
  let m ← getM
  let f := m.getFlowt key
  onlyIf (m.g XB_STATUS_MODE = 1 ∧ f.used ∧ f.plane ≠ p) (inc (XB_CNT_COUNT xcMOVES))
  putFlowt key { plane := p, count := f.count + n, draining := f.draining, used := true }

/-! The receive memory of the octets (R13, R85, R86). -/

/-- The lanes of a port. -/
def portWidth (m : Mach) (p : Nat) : Nat := 2 ^ m.g (OCT_PORT_CFG_WIDTH p)

/-- The bytes of receive memory that are a port's own (R86): its share of its octet's 128 KiB by width, or both octets' of a
×16 port. -/
def rxShare (m : Mach) (p : Nat) : Nat :=
  if m.g (OCT_PORT_CFG_WIDTH p) = 4 then 262144
  else
    let sum := ((List.range 4).filter fun s => m.g (OCT_PORT_CFG_VALID (p / 4 * 4 + s)) = 1).foldl
      (fun a s => a + portWidth m (p / 4 * 4 + s)) 0
    131072 * portWidth m p / Nat.max 1 sum

/-- The floor of a class in cells (R86): one largest message. -/
def rxFloor (c : Nat) : Nat := if c = 4 ∨ c = 7 then 17 else 1

/-- The cells of receive memory that class `c` of a port has (R86): its floor, and its part by WEIGHT of what the floors leave
(DEDUCED, notes/assumptions/122.md). -/
def rxCap (m : Mach) (p c : Nat) : Nat :=
  let sum := (List.range 8).foldl (fun a k => a + m.g (XB_CLASS_CFG_WEIGHT k)) 0
  rxFloor c + (rxShare m p - 10240) * m.g (XB_CLASS_CFG_WEIGHT c) / Nat.max 1 sum / 256

/-- Whether a message in a port's input came over its link, and not from the Corner of its octet. -/
def fromLink (m : Mach) (msg : Msg) : Bool :=
  msg.inp < 128 && !fromCorner msg &&
    (match msg.op with
     | .birspI | .birspS | .birspE | .d2hReq | .d2hRsp | .d2hData | .h2dReq | .h2dRsp | .h2dData
     | .ioRd | .ioWr | .cfgRd | .cfgWr | .ioMsg | .ioCpl | .ioUr | .plazaWr => true
     | o => reqSort o ≠ 0 || (isResponse o && (portAgent m msg.inp).isNone))

/-- The cells of receive memory that class `c` of port `p` holds. -/
def rxUsed (m : Mach) (p c : Nat) : Nat :=
  (m.getXin (p * 8 + c)).foldl (fun a ms =>
    match ms with
    | msg :: _ => if fromLink m msg then a + cellsOf msg.len else a
    | [] => a) 0

/-- Whether a message of `len` bytes has room in the receive memory of its port and class: the credits that its link partner
holds (R85, R86). -/
def linkRoom (m : Mach) (p c len : Nat) : Bool := rxUsed m p c + cellsOf len ≤ rxCap m p c

/-- The head of an input FIFO is taken: a port returns the credits of a message that leaves its receive memory (R86). -/
def popIn (i c : Nat) : P Unit := do
  let m ← getM
  match m.getXin (i * 8 + c) with
  | (msg :: _) :: _ => onlyIf (i < 128 ∧ fromLink m msg = true) (emit (.rxCredit i c (cellsOf msg.len)))
  | _ => pure ()
  modXin (i * 8 + c) (·.drop 1)
  putXwait (i * 8 + c) false
  onlyIf (i = epSPN) (spnFree c)

/-- The head waits for buffer: counted once a message (R85). -/
def headWaits (i c : Nat) : P Unit := do
  let m ← getM
  onlyIf (m.getXwait (i * 8 + c) = false) (do
    putXwait (i * 8 + c) true
    inc (XB_CNT_COUNT xcCREDIT_WAIT))

/-- One message at an input head is dispatched, cut through, discarded, or left waiting (R84, R85, R92-R94, R99,
R108). -/
def dispatchOne (i c : Nat) (msg : Msg) : P Unit := do
  let m ← getM
  let key := flowKey msg.inp msg.out msg.cls
  let n := cellsOf msg.len
  if mayReach m msg = false then
    popIn i c
    discard msg
  else if (m.getFlowt key).draining = true ∨ heldBack m msg = true then pure ()
  else match choosePlane m msg with
    | none => pure ()
    | some p =>
      if cutsThrough m msg then
        popIn i c
        inc (XB_CNT_COUNT xcCUT)
        flowDispatch key p 0
        deliver msg
      else if 256 < stagedCells m i + n then pure ()
      else match queueAdmits m msg.out msg.cls n with
        | none => headWaits i c
        | some (res, sh) =>
          popIn i c
          let l ← bufTake msg.out msg.cls res sh
          flowDispatch key p n
          modStg i (· ++ [⟨msg, p, n, 0, key, res, sh, l, []⟩])

/-- The planes on which a fabric-replicated message may go: every destination's entry has COUNT 0 or that plane
(R102). -/
def mcPlanes (m : Mach) (ms : List Msg) : List Nat :=
  (planesUp m).filter fun p => ms.all fun d =>
    let f := m.getFlowt (flowKey d.inp d.out d.cls)
    f.count = 0 || f.plane = p

/-- A message for three or more destinations in FLOWLET mode is stored once, on the bobbins of its class's multicast queue and
then of the shared pool, and dispatched on one plane when every destination queue admits it (R83, R101, R102). -/
def dispatchFabric (i c : Nat) (a : Msg) (ms : List Msg) : P Unit := do
  let m ← getM
  let n := cellsOf a.len
  if ms.any (fun d => (m.getFlowt (flowKey d.inp d.out d.cls)).draining || heldBack m d) ∨ 256 < stagedCells m i + n then pure ()
  else match leastLoaded m i (mcPlanes m ms) with
    | none => pure ()
    | some p =>
      let res := Nat.min n (mcRoom m a.cls)
      match admitAll m n [] ms with
      | some l =>
        if n - res ≤ m.g XB_BUF_STATUS_SHARED_FREE then do
          popIn i c
          each l fun r => do
            acctAdd r.msg.out r.msg.cls r.reserve r.shared
            flowDispatch (flowKey r.msg.inp r.msg.out r.msg.cls) p n
          acctAdd 168 a.cls res (n - res)
          let bobs ← bobTake res (n - res)
          inc (XB_CNT_COUNT xcMC_FABRIC)
          modStg i (· ++ [⟨a, p, n, 0, flowKey a.inp a.out a.cls, res, n - res, bobs, l⟩])
        else headWaits i c
      | none => headWaits i c

/-- MESSAGE_DISPATCH and HEAD_ADMIT: the head of an (input, class) FIFO is tried. A message for several destinations
is copied at the input, or goes as one in FLOWLET mode with three or more (R101); a destination that cannot be reached is
discarded from it once (R108). -/
def dispatchHead (i c : Nat) : P Unit := do
  let m ← getM
  match m.getXin (i * 8 + c) with
  | [] => pure ()
  | [msg] :: _ => dispatchOne i c msg
  | ms :: _ => do
    let live := ms.filter fun d => mayReach m d
    modXin (i * 8 + c) fun q => live :: q.drop 1
    each (ms.filter fun d => !mayReach m d) discard
    match live with
    | [] => popIn i c
    | a :: _ =>
      if 2 < live.length ∧ m.g XB_STATUS_MODE = 1 then dispatchFabric i c a live
      else do
        inc (XB_CNT_COUNT xcMC_INPUT)
        modXin (i * 8 + c) fun q => live.map (fun d => [d]) ++ q.drop 1
        dispatchOne i c a

/-- A flowlet entry's count falls by one cell; at 0 it stops draining (R94). -/
def flowAck (key : Nat) : P Unit :=
  modFlowt key fun f => { f with count := f.count - 1, draining := f.draining && decide (1 < f.count) }

/-- One reference of the stored message `id` is gone; its bobbins return with the last (R103). -/
def mcUnref (id : Nat) : P Unit := do
  let m ← getM
  let c := m.getMcs id
  if c.refs ≤ 1 then do
    putMcs id {}
    modMcq c.msg.cls (·.filter (· ≠ id))
    bufGive 168 c.msg.cls c.reserve c.shared c.bobs
  else putMcs id { c with refs := c.refs - 1 }

/-- A reference of a stored message is linked into its destination's queue, or discarded when its port has left UP (R102,
R108 step 3). -/
def linkRef (id t : Nat) (s : Staged) (r : XRef) : P Unit := do
  let m ← getM
  if mayReach m r.msg = false then do
    acctSub r.msg.out r.msg.cls r.reserve r.shared
    mcUnref id
    discard r.msg
  else modXq (r.msg.out * 8 + r.msg.cls) (· ++ [⟨r.msg, s.cells, s.cells, r.reserve, r.shared, [], t, some id⟩])

/-- A whole message is linked into its output queue, or discarded when its port has left UP (R90, R108 step 3). A stored
message stands in the multicast queue of its class, with a reference in every destination's queue (R101). -/
def linkMsg (s : Staged) : P Unit := do
  let m ← getM
  let t := m.time64
  inc (XB_CNT_COUNT xcSTORE)
  if s.dests = [] then
    if mayReach m s.msg = false then
      bufGive s.msg.out s.msg.cls s.reserve s.shared s.bobs
      discard s.msg
    else modXq (s.msg.out * 8 + s.msg.cls) (· ++ [⟨s.msg, s.cells, s.cells, s.reserve, s.shared, s.bobs, t, none⟩])
  else
    let id := m.mcNext
    putMcNext (id + 1)
    putMcs id ⟨s.dests.length, s.msg, s.bobs, s.reserve, s.shared⟩
    modMcq s.msg.cls (· ++ [id])
    each s.dests (linkRef id t s)

/-- The flowlet entries that a dispatched message counts in (R89, R102). -/
def Staged.entries (s : Staged) : List Nat :=
  if s.dests = [] then [s.entry] else s.dests.map fun r => flowKey r.msg.inp r.msg.out r.msg.cls

/-- CELL_LINKED: the link stage links the next cell that input `i` dispatched on plane `p` (R90). -/
def cellLinked (i p : Nat) : P Unit := do
  let m ← getM
  let l := m.getStg i
  match l.findIdx? (fun s => s.plane = p) with
  | none => pure ()
  | some k =>
    match l[k]? with
    | none => pure ()
    | some s =>
      let s' := { s with linked := s.linked + 1 }
      each s.entries flowAck
      if s'.cells ≤ s'.linked then
        putStg i (l.eraseIdx k)
        linkMsg s'
      else putStg i (l.set k s')

/-- The head of queue (ep, cls) leaves the queue and its bobbins return; a reference counts down its stored copy
(R103). -/
def popQueue (ep cls : Nat) (q : QMsg) : P Unit := do
  modXq (ep * 8 + cls) (·.drop 1)
  let m ← getM
  onlyIf ((m.getXq (ep * 8 + cls)).isEmpty = true) (putXaged (ep * 8 + cls) false)
  match q.mc with
  | none => bufGive ep cls q.reserve q.shared q.bobs
  | some id => do
    acctSub ep cls q.reserve q.shared
    mcUnref id

/-- Whether a Square's input has room for one more request of a class (R14, R130). A writeback, a snoop answer and any other
message is taken at once. -/
def sqRoom (m : Mach) (msg : Msg) : Bool :=
  !(decide (128 ≤ msg.out) && decide (msg.out < 160) && toSqin msg) ||
    decide (((m.getSqin (msg.out - 128)).filter fun e => e.2.cls = msg.cls).length ≤ Config.sqSlots)

/-- Whether the head of a class queue may be sent: there is one, and the output holds a link credit for its class
(R88); a port in a Recovery sends nothing (Table 3.3); the Spindle needs VC credit and Reel room, and every class waits
while a packet waits for room in the Reel (R311, R312, R318); a
Square takes a request while its input has room (R14). -/
def sendable (m : Mach) (ep cls : Nat) : Option QMsg :=
  match m.getXq (ep * 8 + cls) with
  | q :: _ =>
    if ep = epSPN then
      if m.g TWN_SPN_STATUS_STATE = 2 ∧ m.g TWN_SPN_STATUS_REEL_FULL = 0 ∧ spnCredit m q.msg = true ∧
          reelRoom m q.msg = true then some q
      else none
    else if 128 ≤ ep then (if sqRoom m q.msg then some q else none)
    else if forCorner q.msg.op = true ∨
        ((m.getPort ep).recovery = false ∧ 1 ≤ nth (m.getPort ep).credits cls) then some q
    else none
  | [] => none

/-- The deficit of a class as its turn finds it: WEIGHT x 256 bytes more, once in a visit (R88). -/
def drrCredit (m : Mach) (t : Nat) (credited : Bool) (d : List Nat) : List Nat :=
  if credited then d else d.set t (nth d t + m.g (XB_CLASS_CFG_WEIGHT t) * 256)

/-- Deficit round robin over C1-C7 (R88): class `t` has the turn, credited in this visit or not. It sends while its deficit
covers its head, and then the turn passes on; an empty class loses its deficit, and one without credit at the output is
skipped. The fuel covers the largest message at weight 1. -/
def drrPick (m : Mach) (ep : Nat) : Nat → Nat → Bool → List Nat → Option (Nat × QMsg × List Nat)
  | 0, _, _, _ => none
  | f + 1, t, credited, d =>
    let nx := if t = 7 then 1 else t + 1
    match sendable m ep t with
    | none => drrPick m ep f nx false (if (m.getXq (ep * 8 + t)).isEmpty then d.set t 0 else d)
    | some q =>
      let d' := drrCredit m t credited d
      if q.msg.len ≤ nth d' t then some (t, q, d'.set t (nth d' t - q.msg.len)) else drrPick m ep f nx false d'

/-- The deficits of an output stage, by class. -/
def deficits (m : Mach) (ep : Nat) : List Nat := (List.range 8).map (fun c => m.getXdef (ep * 8 + c))

/-- The bytes that one posted write of a port may carry (R106): 128 to 4,096. -/
def mps (p : Nat) : Nat := 128 * 2 ^ (Config.maxPayload p % 6)

/-- Words written from address `a`, cut into writes that do not cross a multiple of `n` bytes. The second number bounds the
pieces. -/
def payloads (n : Nat) : Nat → Nat → List Word → List (Nat × List Word)
  | 0, _, _ => []
  | _, _, [] => []
  | f + 1, a, ws => (a, ws.take ((n - a % n) / 8)) :: payloads n f (a + 8 * ((n - a % n) / 8)) (ws.drop ((n - a % n) / 8))

/-- The captured bytes of a message, header and data, zero-padded to a multiple of 32 bytes (R106). -/
def mirrorWords (msg : Msg) (cap : Nat) : List Word :=
  let hdr := (List.range ((msg.len - 8 * msg.data.length + 7) / 8)).map fun i =>
    w64 (Config.msgHeader msg.op.ctorIdx msg.addr msg.tag msg.agent i)
  let ws := (hdr ++ msg.data).take (cap / 8)
  ws ++ List.replicate ((cap + 31) / 32 * 4 - ws.length) 0#64

/-- One mirror record is written by its analysis port, in writes of its maximum payload size (R106): a PAD record, whose
bytes are zero, first when it would cross the end. That the PAD record carries the sequence number of the record after it,
and no drops, is the model's choice (log entry 121). -/
def mirrorSend (s : Nat) : P Unit := do
  let m ← getM
  let x := m.getMir s
  match x.queue with
  | [] => pure ()
  | (bobs, msg) :: rest =>
    let size := 2 ^ m.g (XB_MIR_DEST_SIZE_LOG2 s)
    let len := mirrorBytes m s msg
    let port := m.g (XB_MIR_CFG_ANALYSIS_PORT s)
    let base := m.g (XB_MIR_DEST_BASE s) * 4096
    let off := if size < x.off + len then 0 else x.off
    let cap := mirrorCap m s msg
    let head (orig cap' op proto drops a flags : Nat) : List Word :=
      [w64 (nth msg.x 2),
       w64 (x.seq % 2 ^ 32 + flags * 2 ^ 32 + nth msg.x 3 * 2 ^ 40 + msg.cls * 2 ^ 48 + msg.agent % 256 * 2 ^ 56),
       w64 (orig + cap' * 2 ^ 16 + op % 256 * 2 ^ 32 + proto * 2 ^ 40 + drops * 2 ^ 48), w64 a]
    let flags := s + nth msg.x 0 * 2 + (if cap < msg.len then 4 else 0) + nth msg.x 1 * 8
    let put (a : Nat) (ws : List Word) : P Unit :=
      each (payloads (mps port) 2048 (base + a) ws) fun e =>
        emit (.port port { op := .ioWr, cls := 4, inp := port, out := port, addr := e.1, len := 16 + 8 * e.2.length, data := e.2 })
    let pad := size - x.off - 32
    onlyIf (size < x.off + len) (put x.off (head 0 pad 0 0xFF 0 0 s ++ List.replicate (pad / 8) 0#64))
    put off (head msg.len cap (opcodeOf msg.op) (protoOf msg.op) (Nat.min x.drops 0xFFFF) (if hasAddr msg then msg.addr else 0)
      flags ++ mirrorWords msg cap)
    bobReturn bobs bobs.length
    addSat (XB_MIR_CNT_COPIES s) 1
    putMir s { seq := x.seq + 1, drops := 0, off := if off + len = size then 0 else off + len, queue := rest }

/-- OUTPUT_SEND: the output stage of an endpoint sends one head (R88), C0 first by strict priority; an analysis port
with nothing else to send writes a mirror record. With no plane in SERVICE the cells stay where they are (R98). -/
def outputSend (ep : Nat) : P Unit := do
  onlyIf (ep = epSPN) spnWaits
  let m ← getM
  if planesUp m = [] then pure ()
  else match sendable m ep 0 with
    | some q => do
      popQueue ep 0 q
      deliver q.msg
    | none =>
      match drrPick m ep 140 (m.getXturn ep % 8) (decide (8 ≤ m.getXturn ep)) (deficits m ep) with
      | some (t, q, d) => do
        each (d.zipIdx) fun e => putXdef (ep * 8 + e.2) e.1
        putXturn ep (t + 8)
        popQueue ep t q
        deliver q.msg
      | none =>
        each [0, 1] fun s => onlyIf (m.g (XB_MIR_CFG_VALID s) = 1 ∧ m.g (XB_MIR_CFG_ANALYSIS_PORT s) = ep) (mirrorSend s)

/-- A plane is lost (R95, R96): its cells are resent in dispatch order on the planes that R93 gives, and its cause and
event are recorded. -/
def planeLoss (p cause : Nat) : P Unit := do
  wr (planeCause p) cause
  planeTo p plLOST
  raise (((ev 3 2 0x0381).b24 p).b25 cause)
  let m ← getM
  each m.stg fun e => do
    let mine := e.2.filter (fun s => s.plane = p)
    addSat (XB_CNT_COUNT xcRESENT) (mine.foldl (fun a s => a + (s.cells - s.linked)) 0)
    putStg e.1 (e.2.map fun s => if s.plane = p then { s with plane := (pinnedPlane m s.msg).getD 0xFF } else s)
    each (mine.flatMap (·.entries)) fun k => modFlowt k fun f => { f with draining := true }

/-- The cells that found no plane when theirs was lost go to the planes R93 gives once a plane is in SERVICE
(R98). -/
def resendStranded : P Unit := do
  let m ← getM
  each m.stg fun e =>
    onlyIf (e.2.any (fun s => s.plane = 0xFF) = true)
      (putStg e.1 (e.2.map fun s => if s.plane = 0xFF then { s with plane := (pinnedPlane m s.msg).getD 0xFF } else s))

/-- A STARTING plane passes its path check (R95). A plane that returns from TEST or LOST raises PLANE_SERVICE; one whose
power-down has been requested drains at once. -/
def planeCheckPass (p : Nat) : P Unit := do
  let m ← getM
  if m.g (planeState p) = plSTARTING then
    planeTo p plSERVICE
    onlyIf (m.getXret p = true) (do
      putXret p false
      raise ((ev 3 0 0x0382).b24 p))
    resendStranded
    onlyIf (m.getXdown p = true) (planeTo p plDRAINING)

/-- A STARTING plane fails its path check or exceeds 20 us (R95). -/
def planeCheckFail (p : Nat) : P Unit := do
  let m ← getM
  onlyIf (m.g (planeState p) = plSTARTING) (planeLoss p 5)

/-- A loss cause reaches a plane that is STARTING, in SERVICE or DRAINING (R96). -/
def planeError (p cause : Nat) : P Unit := do
  let m ← getM
  onlyIf (m.g (planeState p) ∈ [plSTARTING, plSERVICE, plDRAINING]) (planeLoss p cause)

/-- Whether a plane carries a cell. -/
def planeBusy (m : Mach) (p : Nat) : Bool := m.stg.any (fun e => e.2.any (fun s => s.plane = p))

/-- A DRAINING plane carries no cell: to TEST where OUT is set, to OFF for a power-down (R95). -/
def planeDrained (p : Nat) : P Unit := do
  let m ← getM
  if m.g (planeState p) = plDRAINING ∧ planeBusy m p = false then
    planeTo p (if m.getXdown p then plOFF else plTEST)

/-- A DRAINING plane is not empty within 10 us (R95). -/
def planeDrainTimeout (p : Nat) : P Unit := do
  let m ← getM
  onlyIf (m.g (planeState p) = plDRAINING ∧ planeBusy m p = true) (planeLoss p 3)

/-- Domain XBn reaches ON (R95). -/
def planeDomainOn (p : Nat) : P Unit := do
  let m ← getM
  putXdown p false
  onlyIf (m.g (planeState p) = plOFF) (planeTo p plSTARTING)

/-- A power-down of XBn is requested (R95): from SERVICE the plane drains; from TEST or LOST it goes OFF. -/
def planePowerDown (p : Nat) : P Unit := do
  let m ← getM
  putXdown p true
  if m.g (planeState p) = plSERVICE then planeTo p plDRAINING
  else onlyIf (m.g (planeState p) = plTEST ∨ m.g (planeState p) = plLOST) (planeTo p plOFF)

/-- Domain XBn leaves ON or becomes FAILED (R95): a plane in any state but OFF is lost. -/
def planeDomainLost (p : Nat) : P Unit := do
  let m ← getM
  onlyIf (m.g (planeState p) ≠ plOFF) (planeLoss p 4)

/-- Domain XBn is OFF: its plane is. -/
def planeOff (p : Nat) : P Unit := do
  putXdown p false
  putXret p false
  planeTo p plOFF

/-- Domain XBn stops after its drain (R95, R385): a DRAINING plane carries no cell any more, one in TEST or LOST was to go OFF
at the request, and one in another state is lost first. -/
def planeStop (p : Nat) : P Unit := do
  let m ← getM
  onlyIf (m.g (planeState p) = plSTARTING ∨ m.g (planeState p) = plSERVICE) (planeLoss p 4)
  planeOff p

/-- The block rules of a live write to an XB register (R8, R97, R110): the reason of a refusal, or 0. -/
def xbRule (m : Mach) (k : RegKind) (i old new _mask : Nat) : Nat :=
  match k with
  | .XB_PLANE_CTL =>
    let setOut := (List.range 4).filter (fun p => bitsAt new p 1 = 1 && bitsAt old p 1 = 0)
    if setOut = [] then rcOK
    else if ((planesUp m).filter (fun p => p ∉ setOut)).length < 3 then rcXB_LIMIT
    else if (List.range 4).any (fun p => m.g (planeState p) = plSTARTING || m.g (planeState p) = plDRAINING) then
      rcXB_BUSY
    else rcOK
  | .XB_MIR_CFG | .XB_MIR_WIN_BASE | .XB_MIR_WIN_LIMIT | .XB_MIR_DEST | .XB_MIR_LIMIT =>
    if m.g GLB_STRUCT_CTL_ENABLE = 1 ∧ m.g (XB_MIR_CFG_VALID i) = 0 ∧ old ≠ new then rcXB_BUSY
    else if k = .XB_MIR_CFG ∧ 64 < bitsAt new 32 8 ∧ bitsAt new 32 8 ≠ 0xFF then rcXB_LIMIT
    else if k = .XB_MIR_LIMIT ∧ (new < 16 ∨ 16384 < new) then rcXB_LIMIT else rcOK
  | _ => rcOK

/-- The effect of an accepted write to an XB register beyond the value it stores: `cmd` holds the bits written. That a
RETURN clears CAUSE is the model's choice (R95; log entry 123). -/
def xbEffect (k : RegKind) (old cmd : Nat) : P Unit := do
  match k with
  | .XB_PLANE_CTL =>
    each (List.range 4) fun p => do
      let m ← getM
      onlyIf (bitsAt cmd p 1 = 1 ∧ bitsAt old p 1 = 0 ∧ m.g (planeState p) = plSERVICE) (planeTo p plDRAINING)
      let k ← getM
      onlyIf (bitsAt cmd (4 + p) 1 = 1 ∧ (k.g (planeState p) = plTEST ∨
          (k.g (planeState p) = plLOST ∧ domOn k (dXB p) = true))) (do
        wr (planeCause p) 0
        putXret p true
        planeTo p plSTARTING)
  | .XB_CTL =>
    onlyIf (bitsAt cmd 0 1 = 1) (do
      each (List.range 9) fun c => rstReg .XB_CNT c
      rstReg .XB_MIR_CNT 0
      rstReg .XB_MIR_CNT 1)
  | _ => pure ()

/-- The age check finds the head of a queue older than its class's AGE_LIMIT (R107). -/
def ageExpiry (ep c : Nat) : P Unit := do
  let m ← getM
  match m.getXq (ep * 8 + c) with
  | [] => pure ()
  | q :: _ =>
    if (128 ≤ ep ∨ portUp m ep = true) ∧ m.g (XB_CLASS_CFG_AGE_LIMIT c) * 1000 ≤ m.time64 - q.time then
      inc (XB_CNT_COUNT xcAGED)
      onlyIf (m.getXaged (ep * 8 + c) = false) (do
        putXaged (ep * 8 + c) true
        raise ((((ev 3 0 0x0383).b24 ep).b25 c).onPort (if ep < 128 then ep else 0xFF)))

/-- XB_QSTAT of the queue that XB_QSEL names. -/
def qstat (m : Mach) : Nat :=
  let k := m.g XB_QSEL_ENDPOINT * 8 + m.g XB_QSEL_CLASS
  let occ := (m.getXacct k).1 + (m.getXacct k).2
  let age := match m.getXq k with
    | [] => 0
    | q :: _ => Nat.min ((m.time64 - q.time) / 1000) 131071
  occ % 2 ^ 19 + age * 2 ^ 19 + (if m.getXaged k then 2 ^ 36 else 0)

/-- A port enters FLUSHING: its eight queues are flushed and the senders told (R108 steps 1, 2 and 4). -/
def xbFlushPort (p : Nat) : P Unit := do
  modPort p fun x => { x with credits := [], recovery := false }
  putOwed p []
  each (List.range 8) fun c => do
    let m ← getM
    each (m.getXq (p * 8 + c)) fun q => do
      popQueue p c q
      discard q.msg

/-- Nothing for the port is left in the Crossing (R108): queues empty, no reference, no unacknowledged cell. -/
def xbFlushed (m : Mach) (p : Nat) : Bool :=
  (List.range 8).all (fun c => (m.getXq (p * 8 + c)).isEmpty) &&
    !(m.stg.any fun e => e.2.any fun s => (s.dests = [] && s.msg.out = p) || s.dests.any (fun d => d.msg.out = p))

/-- The link partner returns credits of a class (R88). -/
def creditReturn (p c n : Nat) : P Unit :=
  modPort p fun x =>
    let l := if x.credits.length = 8 then x.credits else List.replicate 8 0
    { x with credits := l.set c (nth l c + n) }

/-- At APPLYING the buffer is divided (R83): the reserved parts, and the shared pool as the remainder. The mirror sessions are
enabled, their sequence numbers from 0 (R106). -/
def xbApply : P Unit := do
  let m ← getM
  let ports := ((List.range 128).filter (fun p => m.g (OCT_PORT_CFG_VALID p) = 1)).length
  let res := 8192 + (List.range 8).foldl (fun a c => a + m.g (XB_CLASS_CFG_MIN_RES c) * ports) 0
  wr XB_BUF_STATUS_RESERVED res
  wr XB_BUF_STATUS_FREE 262144
  wr XB_BUF_STATUS_SHARED_FREE (262144 - res)
  putXfree {}
  each [0, 1] fun s => putMir s ⟨0, 0, 0, []⟩

end Sys2Proof.Machine
end

