-- ==== Sys2Proof/Machine/Rings.lean ====
section
/-!
DEFINITION. Rings (09_rings.md): doorbells, fetch, the completion gate, results and their hold, ring states and the
Service Function.
-/
namespace Sys2Proof.Machine

/-- The causes of RNG_STATUS.ERR_CAUSE. -/
abbrev rcDB_BACKWARD : Nat := 1
abbrev rcDB_AHEAD : Nat := 2
abbrev rcENTRY_SLOTS : Nat := 3
abbrev rcENTRY_STRADDLE : Nat := 4
abbrev rcENTRY_KIND : Nat := 5
abbrev rcFETCH_TIMEOUT : Nat := 6
abbrev rcFETCH_ERROR : Nat := 7
abbrev rcBME_OFF : Nat := 8
abbrev rcSTOP_TIMEOUT : Nat := 9
abbrev rcCOMPLETION_ERROR : Nat := 10

/-- The rings that a RING item defines, ascending. -/
def validRings (m : Mach) : List Nat :=
  m.regs.filterMap fun e => if e.1.k = .RNG_CFG ∧ e.2.toNat % 2 = 1 then some e.1.i else none

/-- The rings of a slice. -/
def sliceRings (m : Mach) (s : Nat) : List Nat := (validRings m).filter (fun r => m.g (RNG_CFG_SLICE r) = s)

/-- The submission rings bound to completion ring `c`. -/
def boundRings (m : Mach) (c : Nat) : List Nat :=
  (validRings m).filter (fun r => m.g (RNG_CFG_TYPE r) = 0 && m.g (RNG_CFG_COMPLETION_RING r) = c)

/-- The slices that a VCS's SLICE items name. -/
def vcsSlices (m : Mach) (v : Nat) : List Nat :=
  (List.range 256).filter (fun s => m.g (TEN_STATUS_VALID s) = 1 && m.g (TEN_STATUS_VCS s) = v)

/-- The gate of completion ring `c` is open (R240). -/
def gateOpen (m : Mach) (c : Nat) : Bool :=
  m.g (RNG_PROG_OWED c) < ringFree m c / 2 ^ m.g (RNG_CFG_ESLOTS_LOG2 c) + m.g (RNG_CFG_HOLD c)

/-- GATED follows the gate; each closure counts once in STALLS (R240). -/
def gateUpdate (c : Nat) : P Unit := do
  let m ← getM
  let shut := if gateOpen m c then 0 else 1
  onlyIf (m.g (RNG_STATUS_GATED c) = 0 ∧ shut = 1) (inc (RNG_CNT_STALLS c))
  wr (RNG_STATUS_GATED c) shut

/-- A ring event, about ring `r` (R250). -/
def ringEvent (sev code r b26 w28 : Nat) : P Unit := do
  let m ← getM
  raiseOn (some r) ((((ev 6 sev code).h24 r).b26 b26).w28 w28 |>.onSlice (m.g (RNG_CFG_SLICE r)))

/-- A result of ring `c` is discarded: counted, and no longer owed, which may open the gate (R239, R240, R247, R248). -/
def resultDiscard (c : Nat) : P Unit := do
  inc (RNG_CNT_DISCARDS c)
  sub (RNG_PROG_OWED c) 1
  gateUpdate c

/-- A job of submission ring `r` is no longer outstanding. -/
def jobDone (r : Nat) : P Unit := sub (RNG_PROG_OWED r) 1

/-- One ring enters ERROR with a cause (R247). -/
def ringErrorOne (r cause idx : Nat) : P Unit := do
  wr (RNG_STATUS_STATE r) rsERROR
  wr (RNG_STATUS_ERR_CAUSE r) cause
  wr (RNG_STATUS_ERR_INDEX r) idx
  ringEvent 2 0x0681 r cause idx

/-- A RUNNING ring enters ERROR (R247). A completion ring's held results are discarded and its bound submission rings
enter ERROR in the same cycle. -/
def ringError (r cause idx : Nat) : P Unit := do
  let m ← getM
  if m.g (RNG_STATUS_STATE r) = rsRUNNING then
    ringErrorOne r cause idx
    if m.g (RNG_CFG_TYPE r) = 1 then
      each (m.getRing r).held fun _ => resultDiscard r
      modRing r fun x => { x with held := [] }
      wr (RNG_STATUS_HELD r) 0
      each (boundRings m r) fun q =>
        onlyIf (m.g (RNG_STATUS_STATE q) = rsRUNNING) (ringErrorOne q rcCOMPLETION_ERROR 0)

/-- A RUNNING or ERROR ring enters STOPPING (R247). When its host is lost, ENABLE is cleared and its writes to host
memory are discarded. -/
def ringStop (r : Nat) (hostLost : Bool) : P Unit := do
  let m ← getM
  if m.g (RNG_STATUS_STATE r) = rsRUNNING ∨ m.g (RNG_STATUS_STATE r) = rsERROR then
    wr (RNG_STATUS_STATE r) rsSTOPPING
    if hostLost then
      wr (RNG_CTL_ENABLE r) 0
      each (m.getRing r).held fun _ => resultDiscard r
      modRing r fun x => { x with hostLost := true, held := [], fetches := [], inFlight := 0 }
      wr (RNG_STATUS_HELD r) 0

/-- The rings of a VCS's slices stop (PERST_N, Function Level Reset, or the upstream port leaves UP). -/
def vcsRingsStop (v : Nat) : P Unit := do
  let m ← getM
  each (vcsSlices m v) fun s => each (sliceRings m s) fun r => ringStop r true

/-- A completion entry (Table 9.6) of ring `c`. -/
def completionWords (m : Mach) (c : Nat) (j : JobRes) : List Word :=
  let n := 2 ^ m.g (RNG_CFG_ESLOTS_LOG2 c)
  let big := n < j.slots
  let st := if big then 5 else j.status
  let res := if big then [] else j.result
  let w0 := entryHdr m c (m.g (RNG_IDX_PROD c)) n 0x40 + st * 2 ^ 16 + (if j.poison then 2 ^ 24 else 0) +
    j.tag % 2 ^ 32 * 2 ^ 32
  let w1 := j.sub + m.g (RNG_IDX_CONS j.sub) * 2 ^ 32
  let body := [w64 w0, w64 w1] ++ res
  (body ++ List.replicate (8 * n - body.length) 0#64).take (8 * n)

/-- Whether completion ring `c` has a free entry. -/
def compRoom (m : Mach) (c : Nat) : Bool := 2 ^ m.g (RNG_CFG_ESLOTS_LOG2 c) ≤ ringFree m c

/-- A result is written to completion ring `c` (R231, R241). -/
def resultWrite (c : Nat) (j : JobRes) : P Unit := do
  let m ← getM
  ringPut epRNG c 4 (completionWords m c j) false j.poison
  sub (RNG_PROG_OWED c) 1
  ringIrq epRNG c 4 j.irq
  gateUpdate c

/-- Held results are written while there is room, in the order in which they finished (R241). -/
def resultDrain (c : Nat) : Nat → P Unit
  | 0 => pure ()
  | f + 1 => do
    let m ← getM
    match (m.getRing c).held with
    | j :: rest =>
      if compRoom m c then do
        modRing c fun x => { x with held := rest }
        sub (RNG_STATUS_HELD c) 1
        resultWrite c j
        resultDrain c f
      else pure ()
    | [] => pure ()

/-- A finished job's result: discarded where R247 and R248 say so, otherwise written to its completion ring or held for
room; the first wait raises COMPLETION_FULL (R241, R242). -/
def resultPut (j : JobRes) : P Unit := do
  let m ← getM
  let c := j.comp
  if j.subGen = (m.getRing j.sub).gen then jobDone j.sub
  if m.g (RNG_STATUS_STATE c) = rsERROR ∨ (m.getRing c).hostLost ∨ j.compGen ≠ (m.getRing c).gen ∨
      j.subGen ≠ (m.getRing j.sub).gen ∨ m.g (RNG_STATUS_ERR_CAUSE j.sub) = rcCOMPLETION_ERROR ∨
      m.g (RNG_STATUS_STATE c) = rsDISABLED then
    if j.compGen = (m.getRing c).gen then resultDiscard c else inc (RNG_CNT_DISCARDS c)
  else if (m.getRing c).held = [] ∧ compRoom m c = true then resultWrite c j
  else
    modRing c fun x => { x with held := x.held ++ [j] }
    addSat (RNG_STATUS_HELD c) 1
    if m.g (RNG_STATUS_NOTICE_SENT c) = 0 then
      wr (RNG_STATUS_NOTICE_SENT c) 1
      ringEvent 0 0x0682 c 0 0

/-- DB_FOREIGN for a page, at most once a slice in 1 ms (R223, R233). -/
def dbForeign (s ring : Nat) : P Unit := do
  let m ← getM
  if m.getDbfNext s ≤ m.time64 then
    putDbfNext s (m.time64 + 1000000)
    raise ((ev 6 0 0x0683).h24 ring |>.onSlice s)

/-- A doorbell write to the page of slice `s` through VCS `v` (R223, R233, Table 9.9). `prod` is the producer
doorbell; `ok` says that it is a single aligned 8-byte write at offset 0x000 or 0x008. -/
def doorbell (v s : Nat) (prod ok : Bool) (data : Nat) : P Unit := do
  let m ← getM
  let r := bitsAt data 0 15
  let idx := bitsAt data 32 32
  if m.g (TEN_STATUS_VALID s) = 0 ∨ m.g (TEN_STATUS_VCS s) ≠ v then dbForeign s r
  else if ok = false then dbForeign s 0xFFFF
  else if bitsAt data 15 17 ≠ 0 ∨ m.g (RNG_CFG_VALID r) = 0 ∨ m.g (RNG_CFG_SLICE r) ≠ s then dbForeign s r
  else
    let sub' := m.g (RNG_CFG_TYPE r) = 0
    let x := if prod then m.g (RNG_IDX_PROD r) else m.g (RNG_IDX_CONS r)
    let lim := if prod then ringSize m r else idxDiff (m.g (RNG_IDX_PROD r)) (m.g (RNG_IDX_CONS r))
    if (prod = true) ≠ sub' ∨ m.g (RNG_STATUS_STATE r) ≠ rsRUNNING then inc (RNG_CNT_DB_REFUSED r)
    else if 2 ^ 31 ≤ idxDiff idx x then do
      inc (RNG_CNT_DB_REFUSED r)
      ringError r rcDB_BACKWARD idx
    else if lim < idxDiff idx (m.g (RNG_IDX_CONS r)) then do
      inc (RNG_CNT_DB_REFUSED r)
      ringError r rcDB_AHEAD idx
    else if idx = x then pure ()
    else if prod then wr (RNG_IDX_PROD r) idx
    else do
      wr (RNG_IDX_CONS r) idx
      onlyIf (m.g (RNG_CFG_TYPE r) = 1) (do
        onlyIf (idx = m.g (RNG_IDX_PROD r)) (wr (RNG_STATUS_NOTICE_SENT r) 0)
        resultDrain r 65
        gateUpdate r)

/-- FETCH_ISSUE: one CXL.io read of submission slots with the slice's PASID, at most 8 slots, not past PROD, 64 ahead of CONS
or the end of the ring (R221, R236). -/
def fetchIssue (r : Nat) : P Unit := do
  let m ← getM
  let x := m.getRing r
  let st := x.issued
  let ahead := idxDiff st (m.g (RNG_IDX_CONS r))
  let n := Nat.min (Nat.min 8 (idxDiff (m.g (RNG_IDX_PROD r)) st))
    (Nat.min (64 - ahead) (ringSize m r - st % ringSize m r))
  if m.g (RNG_CFG_VALID r) = 1 ∧ m.g (RNG_CFG_TYPE r) = 0 ∧ m.g (RNG_STATUS_STATE r) = rsRUNNING ∧ 0 < n then
    putRing r { x with issued := (st + n) % 2 ^ 32, fetches := x.fetches ++ [(st, n)] }
    let q := ringMsg m epRNG r (slotAddr m r st) [] 4 false
    xsend { q with op := .ioRd, len := 16, tag := st, x := q.x ++ [n] }

/-- The entry header at CONS of a submission ring, where its first slot has been fetched. -/
def headSlot (m : Mach) (r : Nat) : Option (List Word) :=
  ((m.getRing r).slots.find? (fun s => s.1 = m.g (RNG_IDX_CONS r))).map (·.2)

/-- Taking `n` slots at CONS (R226). -/
def takeSlots (r n : Nat) : P Unit := do
  let m ← getM
  let c := m.g (RNG_IDX_CONS r)
  modRing r fun x => { x with slots := x.slots.filter (fun s => n ≤ idxDiff s.1 c) }
  addWrap (RNG_IDX_CONS r) n

/-- The entry at CONS is checked (R228): PAD entries are passed over, a bad header puts the ring in ERROR. -/
def checkHead (r : Nat) : Nat → P Unit
  | 0 => pure ()
  | f + 1 => do
    let m ← getM
    match headSlot m r with
    | none => pure ()
    | some ws =>
      let h := (ws.headD 0#64).toNat
      let n := bitsAt h 0 4
      let kind := bitsAt h 8 8
      let c := m.g (RNG_IDX_CONS r)
      if m.g (RNG_STATUS_STATE r) ≠ rsRUNNING then pure ()
      else if n = 0 ∨ 8 < n then ringError r rcENTRY_SLOTS c
      else if 0x40 ≤ kind then ringError r rcENTRY_KIND c
      else if ringSize m r < c % ringSize m r + n then ringError r rcENTRY_STRADDLE c
      else if kind = 0 ∧ n ≤ idxDiff (m.g (RNG_PROG_FETCHED r)) c then do
        takeSlots r n
        checkHead r f
      else pure ()

/-- A fetch read fails: the ring enters ERROR, ERR_INDEX the first index of the read (R237). -/
def fetchFail (r st cause : Nat) : P Unit := do
  modRing r fun x => { x with fetches := x.fetches.filter (fun f => f.1 ≠ st) }
  ringError r cause st

/-- FETCH_COMPLETION: the slots of an outstanding read arrive (`ok` false: Unsupported Request or Completer Abort), and
FETCHED advances up to the first read still outstanding (R236, R237). A late one is discarded and counted; no register of
the block shows that count (R19, R251). Its poison is noted where it enters, and the Service Function that receives it
reports it through AER as non-fatal (R361, R372). -/
def fetchCompletion (r st : Nat) (ok poison : Bool) (ws : List Word) : P Unit := do
  let m ← getM
  let x := m.getRing r
  onlyIf (poison = true) (do
    let v := m.g (TEN_STATUS_VCS (m.g (RNG_CFG_SLICE r)))
    poisonReceived (vcsPort m v) none
    emit (.aer v))
  match x.fetches.find? (fun f => f.1 = st) with
  | none => modRing r fun x => { x with late := x.late + 1 }
  | some (_, n) =>
    if ok = false ∨ poison then fetchFail r st rcFETCH_ERROR
    else
      let fresh := (List.range n).map fun j => ((st + j) % 2 ^ 32, (ws.drop (8 * j)).take 8)
      let left := x.fetches.filter (fun f => f.1 ≠ st)
      putRing r { x with slots := x.slots ++ fresh, fetches := left }
      wr (RNG_PROG_FETCHED r) (match left with | f :: _ => f.1 | [] => x.issued)
      checkHead r 8

/-- FETCH_TIMEOUT: FETCH_TMO expires on a read (R237). -/
def fetchTimeout (r st : Nat) : P Unit := do
  let m ← getM
  onlyIf (((m.getRing r).fetches.any (fun f => f.1 = st)) = true) (fetchFail r st rcFETCH_TIMEOUT)

/-- MOD_US after the first uninterrupted entry, the ring sends its vector (R246). -/
def irqModeration (r : Nat) : P Unit := do
  let m ← getM
  let x := m.getRing r
  if x.modRuns ∧ m.g (RNG_CTL_IRQ_EN r) = 1 then
    putRing r { x with sinceIrq := 0, modRuns := false }
    msixSend epRNG (m.g (TEN_STATUS_VCS (m.g (RNG_CFG_SLICE r)))) (m.g (RNG_CTL_VECTOR r)) (ringCls m r)

/-- A ring becomes DISABLED; its generation advances (R248). -/
def ringDisabled (r : Nat) : P Unit := do
  wr (RNG_STATUS_STATE r) rsDISABLED
  wr (RNG_CTL_ENABLE r) 0
  wr (RNG_PROG_OWED r) 0
  modRing r fun x => { x with lost := 0, gen := x.gen + 1, sinceIrq := 0, modRuns := false, held := [], slots := [],
                              fetches := [], issued := 0, inFlight := 0, hostLost := false }
  wr (RNG_STATUS_HELD r) 0
  onlyIf ((← getM).g (RNG_CFG_TYPE r) = 1) (gateUpdate r)

/-- RING_STOPPED: a STOPPING ring has no job outstanding and no write in flight (R247). -/
def ringStopped (r : Nat) : P Unit := do
  let m ← getM
  onlyIf (m.g (RNG_STATUS_STATE r) = rsSTOPPING ∧ m.g (RNG_PROG_OWED r) = 0 ∧ (m.getRing r).inFlight = 0)
    (ringDisabled r)

/-- 100 ms in STOPPING (R247): results of earlier jobs are discarded on arrival. -/
def ringStopTimeout (r : Nat) : P Unit := do
  let m ← getM
  if m.g (RNG_STATUS_STATE r) = rsSTOPPING then
    each (m.getRing r).held fun _ => resultDiscard r
    ringDisabled r
    wr (RNG_STATUS_ERR_CAUSE r) rcSTOP_TIMEOUT
    ringEvent 2 0x0681 r rcSTOP_TIMEOUT (m.g (RNG_STATUS_ERR_INDEX r))

/-- A configuration write to the Service Function of VCS `v` (R247): clearing Bus Master Enable or PASID Enable puts
its running rings in ERROR. -/
def sfConfig (v : Nat) (bme pasid tph : Bool) : P Unit := do
  let m ← getM
  modSf v fun c => { c with bme := bme, pasid := pasid, tph := tph }
  if ((m.getSf v).bme ∧ bme = false) ∨ ((m.getSf v).pasid ∧ pasid = false) then
    each (vcsSlices m v) fun s => each (sliceRings m s) fun r => ringError r rcBME_OFF 0

/-- A Function Level Reset of the Service Function stops its rings as PERST_N does (R221). -/
def flr (v : Nat) : P Unit := do
  vcsRingsStop v
  putSf v ⟨false, false, false, [], []⟩

/-- The sum of HOLD over valid completion rings, with ring `i` holding `h` (R243). -/
def holdSum (m : Mach) (i h : Nat) : Nat :=
  ((validRings m).filter (fun r => m.g (RNG_CFG_TYPE r) = 1)).foldl
    (fun a r => a + (if r = i then h else m.g (RNG_CFG_HOLD r))) 0

/-- The rules of a live write to a ring context (R249, R285). -/
def rngRule (m : Mach) (k : RegKind) (i old new mask : Nat) : Nat :=
  if m.g (RNG_CFG_VALID i) = 0 ∧ ¬(k = .RNG_CFG ∨ k = .RNG_IOVA) then rcRNG_LIMIT
  else match k with
  | .RNG_CTL =>
    let c := m.g (RNG_CFG_COMPLETION_RING i)
    let s := m.g (RNG_CFG_SLICE i)
    let v := m.g (TEN_STATUS_VCS s)
    let en := bitsAt new 0 1
    let er := bitsAt new 16 15
    if bitsAt mask 0 1 = 1 ∧ en = 1 ∧
        (m.g (RNG_STATUS_STATE i) = rsSTOPPING ∨ m.g (RNG_STATUS_STATE i) = rsERROR ∨
         (bitsAt old 0 1 = 0 ∧ ((m.getSf v).bme = false ∨ (m.getSf v).pasid = false ∨ m.g (TEN_STATUS_STATE s) ≠ 1 ∨
           (m.g (RNG_CFG_TYPE i) = 0 ∧ m.g (RNG_STATUS_STATE c) ≠ rsRUNNING)))) then rcRNG_BUSY
    else if bitsAt mask 0 1 = 1 ∧ en = 0 ∧ m.g (RNG_CFG_TYPE i) = 1 ∧
        (boundRings m i).any (fun r => m.g (RNG_STATUS_STATE r) ≠ rsDISABLED) then rcRNG_BUSY
    else if bitsAt mask 16 15 ≠ 0 ∧ (m.g (RNG_CFG_VALID er) = 0 ∨ m.g (RNG_CFG_TYPE er) ≠ 3 ∨
        m.g (RNG_CFG_SLICE er) ≠ s) then rcRNG_LIMIT
    else rcOK
  | .RNG_CFG =>
    if m.g GLB_STRUCT_CTL_ENABLE = 1 ∧ m.g (RNG_CFG_VALID i) = 0 then rcRNG_LIMIT
    else if bitsAt mask 48 2 ≠ 0 ∧ m.g (RNG_STATUS_STATE i) ≠ rsDISABLED then rcRNG_BUSY
    else if bitsAt new 56 7 ≠ bitsAt old 56 7 ∧ 1024 < holdSum m i (bitsAt new 56 7) then rcRNG_LIMIT
    else rcOK
  | _ => rcOK

/-- The effect of an accepted write to RNG_CTL or RNG_CFG. -/
def rngEffect (k : RegKind) (i old cmd : Nat) : P Unit := do
  let m ← getM
  match k with
  | .RNG_CTL =>
    onlyIf (bitsAt cmd 1 1 = 1) (rstReg .RNG_CNT i)
    if bitsAt old 0 1 = 0 ∧ m.g (RNG_CTL_ENABLE i) = 1 ∧ m.g (RNG_STATUS_STATE i) = rsDISABLED then
      wrReg .RNG_IDX i 0
      wrReg .RNG_PROG i 0
      wrReg .RNG_STATUS i rsRUNNING
      modRing i fun x => { x with lost := 0, sinceIrq := 0, modRuns := false, held := [], slots := [], fetches := [],
                                  issued := 0, inFlight := 0, hostLost := false }
    else if bitsAt old 0 1 = 1 ∧ m.g (RNG_CTL_ENABLE i) = 0 then ringStop i false
  | .RNG_CFG => onlyIf (m.g (RNG_CFG_TYPE i) = 1) (gateUpdate i)
  | _ => pure ()

end Sys2Proof.Machine
end

