-- ==== Sys2Proof/Machine/Squares.lean ====
section
/-!
DEFINITION. Squares and the directory (05_squares_directory.md) and the Square's part of ordering
(06_ordering_and_races.md): lookups, Table 5.2, trackers, snoops, eviction, retry, mirror records, delegation from the
Square's side, and the loss of an agent.
-/
namespace Sys2Proof.Machine

/-- The SQ counters in register order. -/
abbrev scLOOKUP : Nat := 0
abbrev scMISS : Nat := 1
abbrev scHIT_DS : Nat := 2
abbrev scHIT_DX : Nat := 3
abbrev scSPEC_ISSUED : Nat := 4
abbrev scSPEC_USED : Nat := 5
abbrev scSPEC_DISCARD : Nat := 6
abbrev scSPEC_SKIP : Nat := 7
abbrev scDEMAND_RD : Nat := 8
abbrev scBISNP : Nat := 9
abbrev scEVICT : Nat := 10
abbrev scEVICT_DX : Nat := 11
abbrev scNACK : Nat := 12
abbrev scRETRY_FULL : Nat := 13
abbrev scMEM_TMO : Nat := 14
abbrev scSNP_TMO : Nat := 15
abbrev scLATE : Nat := 16
abbrev scDIR_UE : Nat := 17
abbrev scWB_NOT_OWNER : Nat := 18
abbrev scFMD_MISS : Nat := 19
abbrev scDELEG_FWD : Nat := 20
abbrev scHANDOVER : Nat := 21
abbrev scRETURN : Nat := 22
abbrev scTIE : Nat := 23
abbrev scCHAIN : Nat := 24
abbrev scPURGE_DX : Nat := 25
abbrev scPURGE_DS : Nat := 26
abbrev scREQ_LOST : Nat := 27
abbrev scWRITE_LOST : Nat := 28
abbrev scSTEER_KIOSK : Nat := 29
abbrev scSTEER_IGNORED : Nat := 30
abbrev scCORNER_WAIT : Nat := 31

/-- A counter of Square `sq` counts. -/
def sqInc (sq c : Nat) : P Unit := inc (SQ_CNT_COUNT (sq * 32 + c))

/-- The TWN counters in register order (R354). -/
abbrev tcMIRROR_TX : Nat := 0
abbrev tcMIRROR_APPLIED : Nat := 1
abbrev tcCOMMIT_LOST : Nat := 2
abbrev tcMISDIRECT_FWD : Nat := 3
abbrev tcMISDIRECT_SERVED : Nat := 4
abbrev tcMISDIRECT_REFUSED : Nat := 5
abbrev tcTAKEOVERS : Nat := 6
abbrev tcSETTLED : Nat := 7
abbrev tcSETTLE_POISON : Nat := 8
abbrev tcCOPY_RECORDS : Nat := 9
abbrev tcMOVES : Nat := 10
abbrev tcLATE_WB : Nat := 11

/-- The role states of Table 13.1. -/
abbrev roSOLO : Nat := 0
abbrev roFORMING : Nat := 1
abbrev roALONE : Nat := 2
abbrev roSENDING : Nat := 3
abbrev roRECEIVING : Nat := 4
abbrev roSPLIT : Nat := 5
abbrev roUNMIRRORED : Nat := 6
abbrev roRESYNC : Nat := 7
abbrev roFENCED : Nat := 8

/-- The state of the Spindle link. -/
abbrev spDOWN : Nat := 0
abbrev spTRAINING : Nat := 1
abbrev spUP : Nat := 2
abbrev spRECOVERY : Nat := 3

/-- Whether this twin homes a line now (R118, R330): its role's half, and, of the half that moves to it, the lines of the
Squares whose MOVE record has come (R349). -/
def homesLine (m : Mach) (a : Nat) : Bool :=
  m.g TWN_ROLE_HOMES = 2 || (m.g TWN_ROLE_HOMES = 1 && homeHere m a) ||
    ((m.getSqx (homeSq a)).moveGot &&
      ((m.g TWN_ROLE_STATE = roRECEIVING && homeHere m a) || (m.g TWN_ROLE_STATE = roSPLIT && !homeHere m a)))

/-- Whether a home move is taking a line away from this twin (R348, R349). -/
def movingLine (m : Mach) (a : Nat) : Bool :=
  m.g TWN_ROLE_MOVING = 1 &&
    ((m.g TWN_ROLE_STATE = roSENDING && !homeHere m a) ||
     (m.g TWN_ROLE_STATE = roSPLIT && m.twx.yielding && homeHere m a))

/-- The agents that hold a line: 0-63, and 64 for the Kiosk. -/
def DirEnt.agents (e : DirEnt) : List Nat :=
  (List.range 64).filter (fun a => bitsAt e.sharers a 1 = 1) ++ (if e.kiosk then [64] else [])

/-- One bit for each agent 0-63 of a list. -/
def agentBits (l : List Nat) : Nat := l.foldl (fun s a => if a < 64 then s ||| 2 ^ a else s) 0

/-- An entry of line `line` in state `st` with holders `l`; with no holder the entry is DI (R121). -/
def mkEnt (line cd st : Nat) (l : List Nat) : DirEnt :=
  if st = 0 ∨ l = [] then {}
  else { tag := tagOf line, sharers := agentBits l, kiosk := l.contains 64, state := st, cd := cd, nru := true }

/-- Entry bits [103:32] (Table 5.1). -/
def DirEnt.bits (e : DirEnt) : Nat :=
  e.sharers + (if e.kiosk then 2 ^ 64 else 0) + e.state * 2 ^ 65 + (if e.deleg then 2 ^ 67 else 0) + e.cd * 2 ^ 68

/-- The entry with a tag and bits [103:32]. -/
def DirEnt.ofBits (tag b : Nat) : DirEnt :=
  { tag := tag, sharers := bitsAt b 0 64, kiosk := bitsAt b 64 1 = 1, state := bitsAt b 65 2, deleg := bitsAt b 67 1 = 1,
    cd := bitsAt b 68 4, nru := true }

/-- The array of a Square that a line lies in (R335): 0 the primary array, 1 the mirror array. -/
def arrOf (m : Mach) (line : Nat) : Nat := if homeHere m line then 0 else 1

/-- The place of a way in the directory table. -/
def dirKey (sq arr set way : Nat) : Nat := ((sq * 2 + arr) * 16384 + set) * 16 + way

/-- The line that a tag and a set name (R119). -/
def lineAt (tag set : Nat) : Nat :=
  tag * 2 ^ 20 + (set ^^^ bitsAt tag 0 14 ^^^ bitsAt tag 14 14 ^^^ bitsAt tag 28 4) % 2 ^ 14 * 64

/-- The way of an array that holds a line, with its entry. -/
def dirFindIn (m : Mach) (sq arr line : Nat) : Option (Nat × DirEnt) :=
  (List.range 16).findSome? fun w =>
    let e := m.getDir (dirKey sq arr (setOf line) w)
    if e.state ≠ 0 ∧ e.tag = tagOf line ∧ e.pm = false then some (w, e) else none

/-- A way of a line's set whose entry reads as a poison mark (R356). -/
def dirMarked (m : Mach) (sq line : Nat) : Option Nat :=
  (List.range 16).find? fun w => (m.getDir (dirKey sq (arrOf m line) (setOf line) w)).pm

/-- The way of a line's home Square that holds it, with its entry. -/
def dirFind (m : Mach) (sq line : Nat) : Option (Nat × DirEnt) := dirFindIn m sq (arrOf m line) line

/-- The entry of a line; with no matching tag it reads as DI (R121). -/
def entryOf (m : Mach) (sq line : Nat) : DirEnt := ((dirFind m sq line).map (·.2)).getD {}

/-- The place of a set in the table of ways used last. -/
def setKey (sq arr set : Nat) : Nat := (sq * 2 + arr) * 16384 + set

/-- A hit or an allocation sets the way's bit and makes it the way just used (R133). -/
def wayUsed (sq arr set way : Nat) : P Unit := do
  modDir (dirKey sq arr set way) fun e => { e with nru := true }
  putMru (setKey sq arr set) way

/-- The open trackers of a Square: number and record. -/
def openTrks (m : Mach) (sq : Nat) : List (Nat × Trk) :=
  m.trk.filterMap fun e => if e.1 / 8192 = sq ∧ e.2.st ≠ 0 then some (e.1 % 8192, e.2) else none

/-- The open tracker of a line. -/
def trkOn (m : Mach) (sq line : Nat) : Option (Nat × Trk) := (openTrks m sq).find? (fun e => e.2.line = line)

/-- The ledger entry of a line: its count and its Corner's port (R152). -/
def ledgerOf (m : Mach) (sq line : Nat) : Option (Nat × Nat) :=
  ((m.getSqx sq).ledger.find? (fun e => e.1 = line)).map (·.2)

/-- The first number from `i` on, of `f` numbers, that is not in use. -/
def firstFree (used : Nat → Bool) : Nat → Nat → Option Nat
  | 0, _ => none
  | f + 1, i => if used i then firstFree used f (i + 1) else some i

/-- A free tracker of the pool that starts at `lo` with `n` trackers (R130). -/
def poolFree (m : Mach) (sq lo n : Nat) : Option Nat := firstFree (fun t => (m.getTrk (sq * 8192 + t)).st ≠ 0) n lo

/-- A free tracker of the general pool. -/
def trkGeneral (m : Mach) (sq : Nat) : Option Nat := poolFree m sq 0 7808
/-- A free tracker for a writeback: the general pool, then the writeback reserve. -/
def trkWriteback (m : Mach) (sq : Nat) : Option Nat := (trkGeneral m sq).or (poolFree m sq 7808 128)
/-- A free tracker for an eviction or a settled line: the eviction reserve, then the general pool. -/
def trkEvict (m : Mach) (sq : Nat) : Option Nat := (poolFree m sq 7936 256).or (trkGeneral m sq)

/-- SQ_STATUS.SPEC_OUT: speculative reads outstanding. -/
def specOut (m : Mach) (sq : Nat) : Nat := (m.specT.filter (fun e => e.1 / 2 ^ 32 = sq)).length

/-- A waiting request joins a list in stamp order (R144). -/
def byStamp (w : Waiting) : List Waiting → List Waiting
  | [] => [w]
  | a :: t => if w.stamp < a.stamp then w :: a :: t else a :: byStamp w t

/-- A stamped message joins a list in stamp order. -/
def byStampMsg (w : Nat × Msg) : List (Nat × Msg) → List (Nat × Msg)
  | [] => [w]
  | a :: t => if w.1 < a.1 then w :: a :: t else a :: byStampMsg w t

/-- A Square event; its Square in byte 24 (R140). -/
def sqEv (sq sev code : Nat) : EvRec := (ev 4 sev code).b24 sq

/-- The port of an agent for an event record, or 0xFF. -/
def evPort (m : Mach) (a : Nat) : Nat := if a < 64 then (agentPort m a).getD 0xFF else 0xFF

/-- The sorts of coherent request (Table 5.2). A MemInv by a host without an agent invalidates the holders and is
completed without a grant (DESIGN CHOICE, notes/assumptions/7.md). -/
inductive Rq where
  | S | A | U | N | W | X
  deriving DecidableEq, Repr

/-- The sort of a request: any read by a non-caching host is a non-caching read. -/
def rqOf (q : Msg) : Rq :=
  let caching := q.agent ≤ 64
  match q.op with
  | .rdS => if caching then .S else .N
  | .rdA => if caching then .A else .N
  | .memInv => if caching then .U else .X
  | .memWr | .memWrPtl => .W
  | _ => .N

/-- Whether a sort of request can make a DI line DS or DX and so needs a way (R133). -/
def Rq.allocates : Rq → Bool
  | .S | .A | .U => true
  | _ => false

/-- The steering tag that a plain write carries (R166): a partial write carries it after its byte mask. -/
def steerTag (q : Msg) : Nat := if q.op = .memWr then nth q.x 0 else if q.op = .memWrPtl then nth q.x 1 else 0

/-- Whether a write's hint to the Kiosk is served: a full-line write in a domain with KIOSK (R166). -/
def steerServed (m : Mach) (q : Msg) : Bool :=
  steerTag q = 0x40 && q.op = .memWr && (match cdOf m q.addr with | some d => cdAdmits m d 64 | none => false)

/-- Whether a request needs a way where its line has none (R133): a grant to a caching agent, or a write whose line ends
with the Kiosk (R166). -/
def needsWay (m : Mach) (q : Msg) : Bool := (rqOf q).allocates || (rqOf q = .W && steerServed m q)

/-- The agents that Table 5.2 snoops for a request that finds entry `e`, and whether for data. -/
def snoopPlan (q : Rq) (r : Nat) (e : DirEnt) : List Nat × Bool :=
  if e.state = 1 then
    match q with
    | .A | .U => (e.agents.filter (· ≠ r), false)
    | .W | .X => (e.agents, false)
    | _ => ([], false)
  else if e.state = 2 then
    if r ∈ e.agents then (match q with | .W | .X => (e.agents, false) | _ => ([], false))
    else match q with
      | .S | .N => (e.agents, true)
      | _ => (e.agents, false)
  else ([], false)

/-- Whether the response carries data (Table 5.2). -/
def wantsData (q : Rq) (r : Nat) (e : DirEnt) : Bool :=
  match q with
  | .S | .A | .N => true
  | .U => !decide (r ∈ e.agents)
  | _ => false

/-- The final state of the line (Table 5.2): `kept` says that a snooped owner answered BIRspS. -/
def finalEnt (q : Rq) (r line cd : Nat) (e : DirEnt) (kept steer : Bool) : DirEnt :=
  match q with
  | .W => if steer then mkEnt line cd 1 [64] else {}
  | .X => {}
  | .A | .U => if e.state = 2 ∧ r ∈ e.agents then e else mkEnt line cd 2 [r]
  | .S =>
    if e.state = 1 then mkEnt line cd 1 (e.agents.filter (· ≠ r) ++ [r])
    else if e.state = 2 ∧ r ∉ e.agents ∧ kept = true then mkEnt line cd 1 (e.agents ++ [r])
    else mkEnt line cd 1 [r]
  | .N =>
    if e.state = 2 then (if r ∉ e.agents ∧ kept = true then mkEnt line cd 1 e.agents else {})
    else e

/-- Whether a plain write that meets a DI line leaves it as it is; every other outcome of `finalEnt` stands. -/
def finalFor (q : Rq) (r line cd : Nat) (e : DirEnt) (kept steer : Bool) : DirEnt :=
  if e.state = 0 ∧ (q = .N ∨ (q = .W ∧ steer = false) ∨ q = .X) then e else finalEnt q r line cd e kept steer

/-- Ordering is delegated when the Square writes DX o in an O-order domain and o's port here is UP (R149). -/
def delegates (m : Mach) (e : DirEnt) : Bool :=
  e.state = 2 && m.g (SQ_CD_CFG_MODE e.cd) = 1 && !e.kiosk &&
    (match e.agents with | a :: _ => (match agentPort m a with | some p => portUp m p | none => false) | [] => false)

/-- The class of an answer to a request: C0 stays C0; data travels in C3 and a completion in C2 (R87). -/
def ansCls (q : Msg) (dataCls : Bool) : Nat := if q.cls = 0 then 0 else if dataCls then 3 else 2

/-- A Square answers a request. -/
def sqAnswer (sq : Nat) (q : Msg) (op : Op) (dataCls : Bool) (data : List Word) (poison : Bool) : P Unit :=
  xsend { op := op, cls := ansCls q dataCls, inp := epSq sq, out := q.inp, agent := q.agent, addr := q.addr, tag := q.tag,
          len := if dataCls then 80 else 16, data := data, poison := poison }

/-- The next tag of a Square's memory accesses: what it reads or writes is told apart by it, so that an answer that comes
late meets no other access (R19, R132). -/
def memTag (sq : Nat) : P Nat := do
  let x ← getSqx sq
  putSqx sq { x with memTag := (x.memTag + 1) % 2 ^ 32 }
  return x.memTag

/-- The place of a Square's memory access of a tag. -/
def memKey (sq n : Nat) : Nat := sq * 2 ^ 32 + n

/-- A shared access that no committed decoder claims is counted (R117), with the port of the agent it is for (R140). -/
def sqMiss (sq line port : Nat) : P Unit :=
  countFirst (SQ_CNT_COUNT (sq * 32 + scFMD_MISS)) (((sqEv sq 2 0x0484).at line).onPort port)

/-- A Square reads memory under a tag (`what` 0 a demand read, 1 a speculative read). -/
def sqMemRead (sq line what n p : Nat) : P Unit :=
  xsend { op := .rdI, cls := 2, inp := epSq sq, out := p, addr := line, tag := n, len := 16, x := [what, n] }

/-- A Square writes memory for tracker `t` (8,192: a purge write, which no tracker awaits). `mask` is none for a whole
line; a partial write goes on as one, with its byte mask (Table 5.2). The answer says whether a decoder claims the
line; where none does the write is discarded and counted (R117). -/
def sqMemWrite (sq line t : Nat) (mask : Option Nat) (data : List Word) (poison : Bool) (port : Nat) : P Bool := do
  match fmdPort (← getM) line with
  | some p => do
    let n ← memTag sq
    putMemT (memKey sq n) (2 * t + 2)
    xsend { op := if mask.isSome then .memWrPtl else .memWr, cls := 3, inp := epSq sq, out := p, addr := line, tag := n,
            len := 80, data := data, poison := poison, x := 2 :: n :: mask.toList }
    return true
  | none => do
    sqMiss sq line port
    return false

/-- The data of a line that the Stagon writes poisoned (R360). -/
abbrev zeroLine : List Word := List.replicate 8 0#64

/-- A line is written poisoned by a purge, or for a lost owner that no tracker serves (R157, R163). -/
def purgeWrite (sq line port : Nat) : P Unit := do
  let _ ← sqMemWrite sq line 8192 none zeroLine true port

/-- Tracker `t` writes memory and awaits the completion; where no committed decoder claims the line, nothing is awaited
(R117). -/
def trkWriteAs (sq t line : Nat) (mask : Option Nat) (data : List Word) (poison : Bool) : P Unit := do
  let m ← getM
  let ok ← sqMemWrite sq line t mask data poison (evPort m (m.getTrk (sq * 8192 + t)).req.agent)
  onlyIf (ok = true) (modTrk (sq * 8192 + t) fun k => { k with writes := k.writes + 1 })

/-- Tracker `t` writes a whole line. -/
def trkWrite (sq t line : Nat) (data : List Word) (poison : Bool) : P Unit := trkWriteAs sq t line none data poison

/-- Tracker `t` issues its demand read (R127); where no committed decoder claims the line, the data is poisoned at once
and the miss counted (R117). -/
def trkDemand (sq t line : Nat) : P Unit := do
  let m ← getM
  match fmdPort m line with
  | some p => do
    let n ← memTag sq
    sqInc sq scDEMAND_RD
    modTrk (sq * 8192 + t) fun k => { k with demand := true }
    putMemT (memKey sq n) (2 * t + 1)
    sqMemRead sq line 0 n p
  | none => do
    sqMiss sq line (evPort m (m.getTrk (sq * 8192 + t)).req.agent)
    modTrk (sq * 8192 + t) fun k => { k with haveData := true, poison := true }

/-- The words of a mirror record of 320 bits (R336). -/
def recWords (r : Nat) : List Word := (List.range 5).map (fun i => w64 (bitsAt r (64 * i) 64))

/-- A record leaves for the mirror Square of the same number, with the Square's next MSEQ, and is counted (R336, R337).
`inp` is the endpoint that sends it. The answer is its MSEQ. -/
def recSend (inp sq rec : Nat) : P Nat := do
  let x ← getSqx sq
  putSqx sq { x with mseq := (x.mseq + 1) % 2 ^ 16 }
  inc (TWN_CNT_COUNT tcMIRROR_TX)
  xsend { op := .mirror, cls := 7, inp := inp, out := epSPN, tag := 128 + sq, len := 56,
          data := recWords (rec + x.mseq * 2 ^ 304) }
  return x.mseq

/-- The ENTRY layout of Table 13.4 without its MSEQ. -/
def entryRec (phase way : Nat) (data corner : Bool) (sq line : Nat) (e : DirEnt) (req writer : Nat) (snooped : List Nat) :
    Nat :=
  phase * 2 ^ 8 + (way % 16 + (if data then 16 else 0) + (if corner then 32 else 0)) * 2 ^ 16 + sq * 2 ^ 24 +
    setOf line * 2 ^ 32 + line * 2 ^ 64 + e.bits * 2 ^ 128 + req * 2 ^ 200 + writer * 2 ^ 208 +
    agentBits snooped * 2 ^ 224 + (if snooped.contains 64 then 2 ^ 288 else 0)

/-- REQ of a record: the requester 0-64, 0xFE for a non-caching one. -/
def reqField (q : Msg) : Nat := if q.agent ≤ 64 then q.agent else 0xFE

/-- Whether a change of state counts as one: the not-recently-used bit is no part of it. -/
def sameState (a b : DirEnt) : Bool := decide ({ a with nru := false } = { b with nru := false })

/-- The way that the records of a tracker name: its own, or the way that its victim had (R134). -/
def Trk.recWay (k : Trk) : Nat := if k.way < 16 then k.way else k.vway

/-- A Square's FINAL record of tracker `t` while the pair is mirrored and the state changes (R125); the tracker then
waits for its commit. -/
def trkFinal (sq t : Nat) : P Unit := do
  let m ← getM
  let k := m.getTrk (sq * 8192 + t)
  if m.g TWN_ROLE_MIRRORED = 1 ∧ sameState k.old k.fin = false then
    let req := if k.kind = 0 then reqField k.req else 0xFF
    let n ← recSend (epSq sq) sq
      (entryRec 1 k.recWay (k.writer ≠ 0xFF) false sq k.line k.fin req k.writer k.snooped)
    modTrk (sq * 8192 + t) fun k => { k with mseq := n + 1, committed := false, recorded := true }

/-- A Square's OPEN record of tracker `t`, which will wait on a snoop (R125). -/
def trkOpen (sq t : Nat) : P Unit := do
  let m ← getM
  let k := m.getTrk (sq * 8192 + t)
  if m.g TWN_ROLE_MIRRORED = 1 ∧ k.wait ≠ [] then
    let req := if k.kind = 0 then reqField k.req else 0xFF
    let _ ← recSend (epSq sq) sq (entryRec 0 k.recWay false false sq k.line k.old req 0xFF k.snooped)
    modTrk (sq * 8192 + t) fun k => { k with recorded := true }

/-- The entry of a line changes by no tracker's doing: by a Corner's message, a purge, or as delegation ends. The change
is mirrored (R125), and the line takes part in the next RELEASE, or in that of the tracker or ledger entry that stands on
it (R337). -/
def entryChange (sq line : Nat) (e : DirEnt) : P Unit := do
  let m ← getM
  let arr := arrOf m line
  match dirFind m sq line with
  | some (w, old) => do
    putDir (dirKey sq arr (setOf line) w) e
    if m.g TWN_ROLE_MIRRORED = 1 ∧ sameState old e = false then
      let _ ← recSend (epSq sq) sq (entryRec 1 w false false sq line e 0xFF 0xFF [])
      match trkOn m sq line, ledgerOf m sq line with
      | some (t, _), _ => modTrk (sq * 8192 + t) fun k => { k with recorded := true }
      | none, some _ => pure ()
      | none, none => modSqx sq fun x => { x with releases := x.releases ++ [line] }
  | none => pure ()

/-- The Kiosk bank that serves a line: a bank out of service leaves its share to the next in SERVICE (R270, R275). -/
def kskBank (m : Mach) (a : Nat) : Nat :=
  let b := bitsAt a 6 2 ^^^ bitsAt a 12 2
  (((List.range 4).map (fun i => (b + i) % 4)).find? (fun k => m.g ⟨.KSK_BANK_STATUS, 0, 4 * k, 3⟩ = 0)).getD b

/-- Where a snoop to an agent goes: the Kiosk's bank, the agent's port while it is UP, the Spindle while the agent is
UP only at the partner, or nowhere, for a lost agent (R128, R162). -/
def snoopDest (m : Mach) (a line : Nat) : Option Nat :=
  if a = 64 then some (epKsk (kskBank m line))
  else match agentPort m a with
    | some p => if portUp m p then some p
                else if m.getPagent a && (m.g TWN_SPN_STATUS_STATE = spUP || m.g TWN_SPN_STATUS_STATE = spRECOVERY) then
                  some epSPN
                else none
    | none => none

/-- A snooped agent of tracker `t` is lost for this line (R129, R164): it counts as having answered BIRspI, and the line
of a DX owner is written poisoned, whatever it wrote back before. `purge` says that the loss of its link is the cause. -/
def snoopLost (sq t a : Nat) (purge : Bool) : P Unit := do
  let m ← getM
  let k := m.getTrk (sq * 8192 + t)
  modTrk (sq * 8192 + t) fun k => { k with wait := k.wait.filter (· ≠ a), answers := k.answers ++ [(a, false)] }
  if k.old.state = 2 ∧ a ∈ k.old.agents then
    onlyIf (purge = true) (sqInc sq scPURGE_DX)
    trkWrite sq t k.line zeroLine true
    modTrk (sq * 8192 + t) fun k => { k with haveData := true, data := [], poison := true }

/-- Tracker `t` sends its snoop set, one message for every destination (R128); agents that no port reaches are lost at
once (R164). -/
def trkSnoop (sq t : Nat) (l : List Nat) (forData : Bool) : P Unit := do
  let m ← getM
  let k := m.getTrk (sq * 8192 + t)
  if l ≠ [] then
    sqInc sq scBISNP
    pmuCount 0x08 1 { addr := some k.line, agent := if k.req.agent ≤ 64 then some k.req.agent else none }
    modTrk (sq * 8192 + t) fun k => { k with wait := l, snooped := l, forData := forData }
    trkOpen sq t
    xsendAll (l.filterMap fun a => (snoopDest m a k.line).map fun d =>
      { op := if forData then .bisnpData else .bisnpInv, cls := 1, inp := epSq sq, out := d, agent := a, addr := k.line,
        tag := t, len := 16 })
    each (l.filter (fun a => (snoopDest m a k.line).isNone)) fun a => snoopLost sq t a true

/-- Whether agent `a` is lost at this twin. -/
def isLost (m : Mach) (a : Nat) : Bool := a < 64 && m.getAlost a

/-- An entry without agent `a` (R162, R163). -/
def DirEnt.without (e : DirEnt) (line a : Nat) : DirEnt :=
  if a ∈ e.agents then (if e.state = 2 then {} else mkEnt line e.cd 1 (e.agents.filter (· ≠ a))) else e



/-- Whether a request lies in a set of an array. -/
def inSet (m : Mach) (arr set : Nat) (q : Msg) : Bool := setOf q.addr = set && arrOf m q.addr = arr

/-- A way is not eligible as a victim, or not free, while it is held: a tracker was given it, or a retry entry other
than `stamp`, or a lookup of another request, has it reserved (R133, R134, R136). -/
def wayHeld (m : Mach) (sq arr set way stamp : Nat) : Bool :=
  (openTrks m sq).any (fun e => e.2.way = way && (e.2.st ≠ 1 || e.2.stamp ≠ stamp) && setOf e.2.line = set &&
      arrOf m e.2.line = arr) ||
    (m.getSqx sq).retry.any (fun w => w.way = way && w.stamp ≠ stamp && inSet m arr set w.msg)

/-- The cost class of a victim (R133). -/
def victimCost (e : DirEnt) : Nat := if e.state = 2 then 2 else if e.agents = [64] then 0 else 1

/-- The best of some ways by a measure, the lowest way on a tie. -/
def bestWay (f : Nat → Nat) : List Nat → Option Nat
  | [] => none
  | a :: t => match bestWay f t with | none => some a | some b => if f a ≤ f b then some a else some b

/-- The eligible victims of a set (R133). -/
def victims (m : Mach) (sq arr set stamp : Nat) : List Nat :=
  (List.range 16).filter fun w =>
    let e := m.getDir (dirKey sq arr set w)
    let line := lineAt e.tag set
    e.state ≠ 0 && !e.pm && !wayHeld m sq arr set w stamp && (trkOn m sq line).isNone && (ledgerOf m sq line).isNone

/-- The DI ways of a set that nothing holds (R133). -/
def freeWays (m : Mach) (sq arr set stamp : Nat) : List Nat :=
  (List.range 16).filter fun w =>
    let e := m.getDir (dirKey sq arr set w)
    e.state = 0 && !e.pm && !wayHeld m sq arr set w stamp

/-- The way of a new entry (R133): a DI way, or a victim: lowest cost, then not recently used, then lowest number. -/
def chooseWay (m : Mach) (sq arr set stamp : Nat) : Option (Nat × Bool) :=
  match freeWays m sq arr set stamp with
  | w :: _ => some (w, false)
  | [] =>
    let f := fun w => let e := m.getDir (dirKey sq arr set w); victimCost e * 2 + (if e.nru then 1 else 0)
    (bestWay f (victims m sq arr set stamp)).map (·, true)

/-- Whether a retry entry waits for its own timer only: its agent is being purged (R163). -/
def Waiting.parked (w : Waiting) : Bool := decide (w.why = 2)

/-- Set `set` of an array of Square `sq` wakes (R136): its retry entries are retried, oldest first, and a way that is
eligible is reserved for the oldest that needs one. -/
def setWake (sq arr set : Nat) : P Unit := do
  let m ← getM
  let x := m.getSqx sq
  let needs (w : Waiting) : Bool := !w.parked && inSet m arr set w.msg && needsWay m w.msg && (dirFind m sq (lineOf w.msg.addr)).isNone
  let first := x.retry.find? needs
  putSqx sq { x with retry := x.retry.map fun v =>
    let way := if (first.map (·.stamp)) = some v.stamp ∧ v.way = 16 then
      ((chooseWay m sq arr set v.stamp).map (·.1)).getD 16 else v.way
    if v.parked = false ∧ inSet m arr set v.msg = true then { v with woken := true, way := way } else v }

/-- A request enters the retry queue in stamp order (R136). -/
def retryPut (sq : Nat) (w : Waiting) : P Unit := do
  let x ← getSqx sq
  let aged := w.aged || x.full.any (fun e => e.1 = w.stamp && e.2)
  putSqx sq { x with retry := byStamp { w with woken := false, aged := aged } x.retry,
                     full := x.full.filter (fun e => e.1 ≠ w.stamp) }

/-- A request finds the retry queue full: its wait is counted once, at its start (R137). -/
def fullWait (sq : Nat) (w : Waiting) : P Unit := do
  let x ← getSqx sq
  if x.full.any (fun e => e.1 = w.stamp) then pure ()
  else
    sqInc sq scRETRY_FULL
    modSqx sq fun x => { x with full := x.full ++ [(w.stamp, w.aged)] }

/-- A request enters the retry queue, or, when that is full, stays at the head of its input queue (R136, R137). -/
def toRetry (sq : Nat) (w : Waiting) : P Unit := do
  let x ← getSqx sq
  if x.retry.length < 1024 then retryPut sq w
  else
    fullWait sq w
    modSqin sq fun q => byStampMsg (w.stamp, w.msg) q

/-- A request is refused inside the Square (R135, R152): `why` 0 for want of a way or an eviction tracker, 6 of a ledger
entry. -/
def sqNack (sq why : Nat) (w : Waiting) : P Unit := do
  sqInc sq scNACK
  toRetry sq { w with why := why }

/-- A line's ledger count changes by FWD messages sent or waiters settled; the entry goes at 0, and the line then takes
part in the next RELEASE (R152, R337). -/
def ledgerAdd (sq line port : Nat) : P Unit := do
  let x ← getSqx sq
  match x.ledger.find? (fun e => e.1 = line) with
  | some (_, n, _) => putSqx sq { x with ledger := x.ledger.map fun e => if e.1 = line then (line, n + 1, port) else e }
  | none => putSqx sq { x with ledger := x.ledger ++ [(line, 1, port)] }

/-- See ledgerAdd. -/
def ledgerSub (sq line n : Nat) : P Unit := do
  let m ← getM
  let x := m.getSqx sq
  match x.ledger.find? (fun e => e.1 = line) with
  | some (_, c, p) =>
    if c ≤ n then
      putSqx sq { x with ledger := x.ledger.filter (fun e => e.1 ≠ line),
                         releases := if m.g TWN_ROLE_MIRRORED = 1 then x.releases ++ [line] else x.releases }
      setWake sq (arrOf m line) (setOf line)
    else putSqx sq { x with ledger := x.ledger.map fun e => if e.1 = line then (line, c - n, p) else e }
  | none => pure ()

/-- A request is sent as FWD to the Corner of the owner's port (R150-R152), or waits in the retry queue for credit or
for a ledger entry. -/
def sqForward (sq : Nat) (w : Waiting) (port : Nat) : P Unit := do
  let m ← getM
  let line := lineOf w.msg.addr
  let c := sq * 32 + port / 4
  let led := ledgerOf m sq line
  let opens := match led with | some (_, p) => decide (p ≠ port) | none => true
  if led = none ∧ 2048 ≤ (m.getSqx sq).ledger.length then sqNack sq 6 w
  else if m.getCwait c = 0 ∨ (opens = true ∧ m.getCrec c = 0) then
    sqInc sq scCORNER_WAIT
    toRetry sq { w with why := 1 }
  else
    putCwait c (m.getCwait c - 1)
    onlyIf (opens = true) (putCrec c (m.getCrec c - 1))
    ledgerAdd sq line port
    sqInc sq scDELEG_FWD
    xsend { w.msg with op := .fwd, cls := 1, inp := epSq sq, out := port,
                       x := [w.stamp, if opens then 1 else 0, w.msg.op.ctorIdx, w.msg.cls, w.msg.inp] ++ w.msg.x }

/-- The port of a delegated line's owner, while it is UP (R150). -/
def delegPort (m : Mach) (e : DirEnt) : Option Nat :=
  match e.agents with
  | a :: _ => (agentPort m a).filter (fun p => portUp m p)
  | [] => none

/-- Every request chained on a line is forwarded to the new Corner in stamp order (R149, R157). -/
def chainForward (sq line port : Nat) : P Unit := do
  let x ← getSqx sq
  let mine := x.chain.filter (fun w => lineOf w.msg.addr = line && reqSort w.msg.op ≠ 0 &&
    w.msg.op ≠ .wbI && w.msg.op ≠ .wbS)
  putSqx sq { x with chain := x.chain.filter (fun w => !mine.any (fun v => v.stamp = w.stamp)) }
  each mine fun w => sqForward sq w port

/-- Settle trackers open, and the end of settling (R341). -/
def settleFreed (poisoned : Bool) : P Unit := do
  sub TWN_SETTLE_OPEN 1
  if poisoned then
    inc (TWN_CNT_COUNT tcSETTLE_POISON)
    modTwx fun x => { x with settlePoison := x.settlePoison + 1 }
  else inc (TWN_CNT_COUNT tcSETTLED)

/-- SETTLING clears once the walk is over and no settle tracker is open (R341). -/
def settleCheck : P Unit := do
  let m ← getM
  if m.g TWN_ROLE_SETTLING = 1 ∧ m.g TWN_SETTLE_OPEN = 0 ∧ m.sqx.all (fun e => e.2.settleQ.isEmpty && !e.2.walking) = true then
    wr TWN_ROLE_SETTLING 0
    raise ((ev 9 0 0x098A).w28 m.twx.settlePoison)

/-- A BIConflict held for a tracker or a Corner is answered on the same port (R160). -/
def conflictAck (q : Msg) : P Unit := do
  let m ← getM
  xsend { q with op := .biConflictAck, cls := s2mCls m q.inp false, inp := q.out, out := q.inp, len := 16 }

/-- The request of agent `a` for a line is complete, or has left this twin: its BIConflicts are answered from `ep`
(R160). -/
def conflictsAck (ep a line : Nat) : P Unit := do
  let m ← getM
  let hit (q : Msg) : Bool := q.agent = a && q.addr = line
  putBic (m.bic.filter (fun q => !hit q))
  each (m.bic.filter hit) fun q => conflictAck { q with out := ep }

/-- A line's WAITER messages still to come change by as many as a message announces, or by the one that has come. -/
def dueAdd (sq line n : Nat) : P Unit := do
  if n = 0 then pure ()
  else
    let x ← getSqx sq
    let old := ((x.due.find? (fun e => e.1 = line)).map (·.2)).getD 0
    putSqx sq { x with due := x.due.filter (fun e => e.1 ≠ line) ++ [(line, old + n)] }

/-- See dueAdd. -/
def dueSub (sq line : Nat) : P Unit := do
  let x ← getSqx sq
  let old := ((x.due.find? (fun e => e.1 = line)).map (·.2)).getD 0
  putSqx sq { x with due := x.due.filter (fun e => e.1 ≠ line) ++ (if 1 < old then [(line, old - 1)] else []) }

/-- A tracker's record is cleared; a demand read whose data was not needed after all comes late (R19). -/
def trkClear (sq t : Nat) : P Unit := do
  let m ← getM
  let k := m.getTrk (sq * 8192 + t)
  onlyIf (k.demand = true) (each (m.memT.filter (fun e => e.1 / 2 ^ 32 = sq && e.2 = 2 * t + 1)) fun e => putMemT e.1 0)
  putTrk (sq * 8192 + t) {}

/-- The tracker frees: its entry is written, writers get Cmp, conflicts their ack, the line takes part in the next
RELEASE, and the set wakes (R131, R337). -/
def trkFree (sq t : Nat) (settleNext : Nat → P Unit) : P Unit := do
  let m ← getM
  let k := m.getTrk (sq * 8192 + t)
  let arr := arrOf m k.line
  onlyIf (k.way < 16) (putDir (dirKey sq arr (setOf k.line) k.way) k.fin)
  each k.wbs fun q => sqAnswer sq q .cmp false [] false
  trkClear sq t
  onlyIf (k.recorded = true) (modSqx sq fun x => { x with releases := x.releases ++ [k.line] })
  setWake sq arr (setOf k.line)
  match k.fin.deleg, delegPort (← getM) k.fin with
  | true, some p => chainForward sq k.line p
  | _, _ => pure ()
  if k.kind = 3 then
    settleFreed (k.poison && k.writer = 0xFE)
    match (← getSqx sq).settleQ with
    | l :: rest => do
      modSqx sq fun x => { x with settleQ := rest }
      settleNext l
    | [] => settleCheck

/-- The responses of a request's tracker (Table 5.2). -/
def trkRespond (sq : Nat) (k : Trk) : P Unit := do
  let q := k.req
  match rqOf q with
  | .S => do
    sqAnswer sq q .memData true k.data k.poison
    sqAnswer sq q .cmpS false [] false
  | .A => do
    sqAnswer sq q .memData true k.data k.poison
    sqAnswer sq q .cmpE false [] false
  | .U => do
    onlyIf (k.needData = true) (sqAnswer sq q .memData true k.data k.poison)
    sqAnswer sq q .cmpE false [] false
  | .N => sqAnswer sq q .memData true k.data k.poison
  | .W => do
    sqAnswer sq q .cmp false [] false
    onlyIf (steerTag q ≠ 0 ∧ k.steer = false) (sqInc sq scSTEER_IGNORED)
    if k.steer then
      let m ← getM
      sqInc sq scSTEER_KIOSK
      xsend { op := .steered, cls := 3, inp := epSq sq, out := epKsk (kskBank m k.line), agent := 64, addr := k.line,
              len := 80, data := q.data, poison := q.poison }
  | .X => sqAnswer sq q .cmp false [] false

/-- A request is complete: its latency from arrival ends (Table 17.8). -/
def latencyEnd (k : Trk) : P Unit := do
  let m ← getM
  let t := m.getArrT k.stamp
  putArrT k.stamp 0
  pmuCount 0x11 1 (msgAt m k.req)
  onlyIf (t ≠ 0) (pmuCount 0x12 (m.time64 + 1 - t) (msgAt m k.req))

/-- The last response of tracker `t` is handed over and the tracker frees (R131). A requester that has been lost gets no
grant and is not recorded (R162). -/
def trkFinish (sq t : Nat) (settleNext : Nat → P Unit) : P Unit := do
  let m ← getM
  let k := m.getTrk (sq * 8192 + t)
  if k.kind = 0 then
    if k.lostReq ∨ isLost m k.req.agent = true then
      sqInc sq scREQ_LOST
      let fin := k.fin.without k.line k.req.agent
      modTrk (sq * 8192 + t) fun k => { k with fin := fin }
      if m.g TWN_ROLE_MIRRORED = 1 ∧ sameState fin k.fin = false then
        let _ ← recSend (epSq sq) sq (entryRec 1 k.way false false sq k.line fin 0xFF 0xFF [])
        modTrk (sq * 8192 + t) fun k => { k with recorded := true }
    else do
      trkRespond sq k
      latencyEnd k
      conflictsAck (epSq sq) k.req.agent k.line
  trkFree sq t settleNext

/-- The final state of a request's line is known: it is kept, and its record goes out (R125). -/
def trkDecide (sq t : Nat) : P Unit := do
  let m ← getM
  let key := sq * 8192 + t
  let k := m.getTrk key
  let cd := (cdOf m k.line).getD 0
  let f := finalFor (rqOf k.req) k.req.agent k.line cd k.old (k.answers.any (·.2)) k.steer
  let f := { f with deleg := if sameState k.old f then k.old.deleg else delegates m f }
  modTrk key fun k => { k with fin := f, decided := true }
  trkFinal sq t

/-- Tracker `t` has its last snoop answer, or needed none. Where an answer decides, the final state is known now, and its
record goes out (R125); the request's own write follows the owner's (Table 5.2), and data that nobody sent is read
from memory (R127). -/
def trkClose (sq t : Nat) : P Unit := do
  let m ← getM
  let key := sq * 8192 + t
  let k := m.getTrk key
  modTrk key fun k => { k with closed := true }
  match k.kind with
  | 0 => do
    onlyIf (k.decided = false) (trkDecide sq t)
    if rqOf k.req = .W then
      modTrk key fun k => { k with ownWrite := true }
      trkWriteAs sq t k.line (if k.req.op = .memWrPtl then some (nth k.req.x 0) else none) k.req.data k.req.poison
    onlyIf (k.needData = true ∧ k.haveData = false ∧ k.spec = 0 ∧ k.demand = false) (trkDemand sq t k.line)
  | 1 => trkFinal sq t
  | 3 => do
    let late := k.req.agent ≠ 0xFF && k.writer = 0xFF
    if late then
      modTrk key fun k => { k with poison := true, writer := 0xFE, fin := {} }
      trkWrite sq t k.line zeroLine true
      raise ((ev 9 2 0x098B).at k.line)
    else modTrk key fun k => { k with fin := {} }
    trkFinal sq t
  | _ => do
    modTrk key fun k => { k with fin := {} }
    trkFinal sq t

/-- A tracker moves on after an event (Table 5.3): it closes when nothing is awaited from a snoop, it waits in COMMIT
for its record, and it finishes once data and writes are in and the record is committed. -/
def trkStep (sq t : Nat) (settleNext : Nat → P Unit) : P Unit := do
  let key := sq * 8192 + t
  let k ← getTrk key
  if k.st = 2 then
    onlyIf (k.wait = [] ∧ k.closed = false) (trkClose sq t)
    let k ← getTrk key
    if k.closed ∧ (k.needData = false ∨ k.haveData = true) ∧ k.writes = 0 then
      if k.mseq ≠ 0 ∧ k.committed = false then putTrk key { k with st := 3 }
      else trkFinish sq t settleNext
  else if k.st = 3 ∧ k.committed then trkFinish sq t settleNext

/-- A settled line takes a settle tracker, or waits for one (R341, R342). -/
def settleTake (sq line : Nat) : P Unit := do
  let m ← getM
  match trkEvict m sq with
  | none => modSqx sq fun x => { x with settleQ := x.settleQ ++ [line] }
  | some t =>
    let r := m.getMtt (sq * 2 ^ 46 + line / 64)
    let found := dirFindIn m sq (arrOf m line) line
    let e := (found.map (·.2)).getD {}
    let who := (e.agents ++ (if r.opened ∧ r.req ≤ 64 then [r.req] else []) ++
      (if r.opened then (DirEnt.agents { sharers := r.snooped, kiosk := r.kiosk }) else [])).eraseDups
    let w := if r.opened ∧ r.data then r.writer else 0xFF
    putTrk (sq * 8192 + t)
      { st := 2, kind := 3, line := line, way := (found.map (·.1)).getD 16, old := e,
        req := { Msg.blank with agent := w } }
    modMtt (sq * 2 ^ 46 + line / 64) fun _ => {}
    trkSnoop sq t who false

/-- The same, followed by the tracker's first step. Depth bounds how many lines with nobody to snoop settle at once. -/
def settleGo (sq : Nat) : Nat → Nat → P Unit
  | 0, line => modSqx sq fun x => { x with settleQ := x.settleQ ++ [line] }
  | d + 1, line => do
    settleTake sq line
    match trkOn (← getM) sq line with
    | some (t, _) => trkStep sq t (settleGo sq d)
    | none => pure ()

/-- A tracker moves on. -/
def trkGo (sq t : Nat) : P Unit := trkStep sq t (settleGo sq 64)

/-- Where a victim must be chosen and every eligible way has its bit set, the bits of the set are cleared, except for the
way just used (R133). -/
def nruClear (sq arr set stamp : Nat) : P Unit := do
  let m ← getM
  let v := victims m sq arr set stamp
  if freeWays m sq arr set stamp = [] ∧ v ≠ [] ∧ v.all (fun w => (m.getDir (dirKey sq arr set w)).nru) = true then
    each ((List.range 16).filter (fun w => w ≠ m.getMru (setKey sq arr set))) fun w =>
      let e := m.getDir (dirKey sq arr set w)
      onlyIf (e.state ≠ 0) (putDir (dirKey sq arr set w) { e with nru := false })

/-- A victim moves into an eviction tracker and its way is given up at once (R134). The answer says whether a tracker was
to be had. -/
def evictWay (sq arr set way : Nat) : P Bool := do
  let m ← getM
  match trkEvict m sq with
  | none => return false
  | some t =>
    let e := m.getDir (dirKey sq arr set way)
    sqInc sq scEVICT
    onlyIf (e.state = 2) (sqInc sq scEVICT_DX)
    modSqx sq fun x => { x with evicts := x.evicts + 1 }
    putDir (dirKey sq arr set way) {}
    putTrk (sq * 8192 + t) { st := 2, kind := 2, line := lineAt e.tag set, vway := way, old := { e with deleg := false } }
    trkSnoop sq t e.agents false
    trkGo sq t
    return true

/-- A new entry of a set takes a way (R133-R135): its reserved way while that is to be had, or the way that is chosen; an
occupied one is evicted. None where no way is eligible, or no eviction tracker is to be had. -/
def takeWay (sq arr set stamp reserved : Nat) : P (Option Nat) := do
  nruClear sq arr set stamp
  let m ← getM
  let pick :=
    if freeWays m sq arr set stamp |>.contains reserved then some (reserved, false)
    else if victims m sq arr set stamp |>.contains reserved then some (reserved, true)
    else chooseWay m sq arr set stamp
  match pick with
  | none => return none
  | some (w, false) => do
    putMru (setKey sq arr set) w
    return some w
  | some (w, true) => do
    let ok ← evictWay sq arr set w
    if ok then do
      putMru (setKey sq arr set) w
      return some w
    else return none

/-- A request is answered at once where no committed decoder claims its line (R117). -/
def fmdMiss (sq : Nat) (q : Msg) : P Unit := do
  let m ← getM
  countFirst (SQ_CNT_COUNT (sq * 32 + scFMD_MISS)) (((sqEv sq 2 0x0484).at (lineOf q.addr)).onPort (evPort m q.agent))
  let a := noGrant q (q.cls = 0 || expressUp m q.inp)
  xsend { a with inp := epSq sq, out := q.inp, len := if a.op = .memData then 80 else 16 }
  conflictsAck (epSq sq) q.agent (lineOf q.addr)

/-- A request that this twin does not home is misdirected (R334, Table 13.3): it goes to the partner, or is refused. The
FORMING row is the caller's. -/
def misdirect (inp : Nat) (q : Msg) : P Unit := do
  let m ← getM
  let st := m.g TWN_ROLE_STATE
  if m.g TWN_SPN_STATUS_STATE = spUP ∧ (st = roSPLIT ∨ st = roRESYNC ∨ st = roRECEIVING) then
    inc (TWN_CNT_COUNT tcMISDIRECT_FWD)
    xsend { q with inp := inp, out := epSPN, x := 0xFF :: q.inp :: q.x }
  else
    let wb := q.op = .wbI ∨ q.op = .wbS
    countFirst (TWN_CNT_COUNT tcMISDIRECT_REFUSED)
      (((ev 9 2 0x098E).at q.addr).b24 (if wb then 1 else 0))
    let a := noGrant q (q.cls = 0 || expressUp m q.inp)
    xsend { a with inp := inp, out := q.inp, len := if a.op = .memData then 80 else 16 }
  conflictsAck inp q.agent (lineOf q.addr)

/-- A speculative memory read is issued at the start of the lookup, or skipped and counted (R126). `user` is t + 2 for
tracker `t`, or 1 where the lookup needs no tracker and the data is not used. The answer says that it was issued. -/
def specIssue (sq user : Nat) (q : Msg) : P Bool := do
  let m ← getM
  let line := lineOf q.addr
  match fmdPort m line with
  | some p =>
    if m.g (SQ_CTL_SPEC_EN sq) = 0 ∨ m.g (SQ_CTL_SPEC_MAX sq) ≤ specOut m sq then do
      sqInc sq scSPEC_SKIP
      return false
    else do
      let n ← memTag sq
      putSpecT (memKey sq n) user
      sqInc sq scSPEC_ISSUED
      sqMemRead sq line 1 n p
      return true
  | none => do
    sqInc sq scSPEC_SKIP
    return false

/-- Whether a request of Square `sq` waits in the conflict chain of its line (R146): behind a tracker, a line on its way
to be settled, a ledger entry with DELEG 0, an older request that waits for Corner credit or a ledger entry (R151, R161),
or waiters that a Corner has announced and that have not come (R157). -/
def mustChain (m : Mach) (sq line stamp : Nat) : Bool :=
  (trkOn m sq line).isSome || (m.getSqx sq).settleQ.contains line ||
    ((ledgerOf m sq line).isSome && !(entryOf m sq line).deleg) ||
    (m.getSqx sq).due.any (fun e => e.1 = line) ||
    (m.getSqx sq).retry.any (fun w => (w.why = 1 || w.why = 6) && lineOf w.msg.addr = line && w.stamp < stamp)

/-- The Kiosk bank whose share holds a line while every bank serves (R270). -/
def kskShare (line : Nat) : Nat := bitsAt line 6 2 ^^^ bitsAt line 12 2

/-- Whether a request waits because its agent is being purged at Square `sq` (R163, R384). -/
def purging (m : Mach) (sq : Nat) (q : Msg) : Bool :=
  (q.agent < 64 && bitsAt (m.g (SQ_PURGE_MASK_AGENTS sq)) q.agent 1 = 1) ||
    (q.agent = 64 && bitsAt (m.getSqx sq).kpurge (kskShare (lineOf q.addr)) 1 = 1)

/-- A request enters the retry queue, where it has room; where it has none its wait is counted and it stays (R137). The
answer says that it left the place it waited in. -/
def retryOr (sq : Nat) (w : Waiting) (nack : Bool) : P Bool := do
  let x ← getSqx sq
  if x.retry.length < 1024 then do
    onlyIf (nack = true) (sqInc sq scNACK)
    retryPut sq w
    return true
  else do
    fullWait sq w
    return false

/-- The entry of a line that is delegated, with its way and the port of its Corner, while that is UP (R150). -/
def delegatedTo (m : Mach) (sq line : Nat) : Option (Nat × Nat) :=
  match dirFind m sq line with
  | some (way, e) => if e.deleg then (delegPort m e).map (fun p => (way, p)) else none
  | none => none

/-- A request that an earlier lookup could not place, and whose wait for the full retry queue has been counted, is
offered again when an entry has left (R137). -/
def stillFull (m : Mach) (sq stamp : Nat) : Bool :=
  decide (1024 ≤ (m.getSqx sq).retry.length) && (m.getSqx sq).full.any (fun e => e.1 = stamp)

/-- A request takes the lookup slot (R122): `fresh` says that it comes from an input queue, `bad` that the lookup will
read an uncorrectable entry. The answer says that it left the place it waited in. A request for a delegated line takes
no tracker and is forwarded as its lookup starts (R150). -/
def serveReq (sq : Nat) (w : Waiting) (fresh bad : Bool) : P Bool := do
  let m ← getM
  let x := m.getSqx sq
  let q := w.msg
  let line := lineOf q.addr
  if stillFull m sq w.stamp = true then return false
  else if purging m sq q = true then retryOr sq { w with why := 2 } false
  else if homesLine m line = false ∧ m.g TWN_ROLE_STATE = roFORMING ∧ m.twx.formOver = false then
    retryOr sq { w with why := 3 } true
  else if homesLine m line = false then do
    misdirect (epSq sq) q
    return true
  else if movingLine m line = true ∨ (m.g TWN_ROLE_SETTLING = 1 ∧ homeHere m line = false ∧ x.walking = true) then
    retryOr sq { w with why := if movingLine m line then 4 else 5 } false
  else if mustChain m sq line w.stamp then
    if x.chain.length < 2048 then do
      sqInc sq scCHAIN
      modSqx sq fun y => { y with chain := byStamp w y.chain }
      return true
    else return false
  else if fresh = true ∧ needsWay m q = true ∧ x.retry.any (fun v => inSet m (arrOf m line) (setOf line) v.msg) = true then
    retryOr sq { w with why := 0 } false
  else if fmdPort m line = none then do
    sqInc sq scLOOKUP
    onlyIf (reqSort q.op = 1) (sqInc sq scSPEC_SKIP)
    fmdMiss sq q
    return true
  else match (if bad then none else delegatedTo m sq line) with
    | some (way, p) => do
      sqInc sq scLOOKUP
      sqInc sq scHIT_DX
      pmuCount 0x06 1 (msgAt m q)
      pmuCount 0x07 1 (msgAt m q)
      if reqSort q.op = 1 ∧ w.back = false then
        let ok ← specIssue sq 1 q
        onlyIf (ok = true) (sqInc sq scSPEC_DISCARD)
      wayUsed sq (arrOf m line) (setOf line) way
      sqForward sq w p
      return true
    | none => match trkGeneral m sq with
      | none => return false
      | some t => do
        sqInc sq scLOOKUP
        pmuCount 0x06 1 (msgAt m q)
        putTrk (sq * 8192 + t) { st := 1, kind := 0, stamp := w.stamp, req := q, line := line, way := w.way, aged := w.aged,
                                 back := w.back, steer := steerServed m q }
        if reqSort q.op = 1 ∧ w.back = false then
          let ok ← specIssue sq (t + 2) q
          onlyIf (ok = true) (modTrk (sq * 8192 + t) fun k => { k with spec := 1 })
        return true

/-- A speculative read of a tracker will not be used: its data is discarded when it comes, or now (R127). -/
def specDrop (sq t : Nat) : P Unit := do
  let m ← getM
  let k := m.getTrk (sq * 8192 + t)
  if k.spec ≠ 0 then
    sqInc sq scSPEC_DISCARD
    each m.specT fun e => onlyIf (e.1 / 2 ^ 32 = sq ∧ e.2 = t + 2) (putSpecT e.1 1)
    modTrk (sq * 8192 + t) fun k => { k with spec := 0, haveData := false, data := [], poison := false }

/-- The tracker gives way: its request leaves it and the tracker frees with nothing done. -/
def trkAbandon (sq t : Nat) : P Waiting := do
  specDrop sq t
  let k ← getTrk (sq * 8192 + t)
  putTrk (sq * 8192 + t) {}
  return { stamp := k.stamp, msg := k.req, way := k.way, aged := k.aged, back := k.back }

/-- The agents that R139 and R343 snoop: everyone the line's domain admits. -/
def domainAgents (m : Mach) (line : Nat) : List Nat :=
  match cdOf m line with
  | some d => (List.range 65).filter (fun a => cdAdmits m d a)
  | none => []

/-- Whether a set is blind (R343). -/
def blindSet (m : Mach) (sq line : Nat) : Bool := m.getBlind (sq * 2 + arrOf m line) ≤ setOf line

/-- A tracker acts on the entry its lookup found (Table 5.2): it takes the way, decides on the speculative data, sends
the snoops `l` with their record, then, where no answer decides the state, the final record (R125), and, for a line
held shared or by the requester itself, the demand read of data that no speculative read brings (Table 5.3). -/
def trkServe (sq t way : Nat) (e : DirEnt) (l : List Nat) (forData : Bool) : P Unit := do
  let key := sq * 8192 + t
  let k ← getTrk key
  let q := rqOf k.req
  let r := k.req.agent
  let want := wantsData q r e
  let other := decide (e.state = 2) && !decide (r ∈ e.agents)
  if other = true then specDrop sq t
  else onlyIf (k.spec ≠ 0) (sqInc sq scSPEC_USED)
  modTrk key fun k => { k with st := 2, way := way, old := e, needData := want }
  trkSnoop sq t l forData
  onlyIf (other = false) (do
    trkDecide sq t
    let k ← getTrk key
    onlyIf (e.state ≠ 0 ∧ want = true ∧ k.spec = 0 ∧ k.haveData = false) (trkDemand sq t k.line))
  trkGo sq t

/-- LOOKUP_RESULT: the lookup of tracker `t` returns (R123); `ue` names a way whose entry has an uncorrectable error, and
a way of the set that carries a poison mark counts as one where no other way holds the line (R139, R362). -/
def lookupResult (sq t : Nat) (ue : Option Nat) : P Unit := do
  let m ← getM
  let key := sq * 8192 + t
  let k := m.getTrk key
  if k.st = 1 then
    let arr := arrOf m k.line
    let set := setOf k.line
    let q := rqOf k.req
    let found := dirFind m sq k.line
    let marked := if found.isNone then dirMarked m sq k.line else none
    match ue.or marked, found with
    | some w, _ => do
      sqInc sq scDIR_UE
      raise ((((ev 4 2 0x0486).b24 sq).b25 (set % 256)).b26 (set / 256) |>.b27 w)
      trkServe sq t w {} (domainAgents m k.line) false
    | none, some (w, e) => do
      sqInc sq (if e.state = 2 then scHIT_DX else scHIT_DS)
      onlyIf (e.state = 2) (pmuCount 0x07 1 (msgAt m k.req))
      wayUsed sq arr set w
      if e.deleg = true ∧ (delegPort m e).isSome = true then
        let v ← trkAbandon sq t
        match delegPort m e with
        | some p => sqForward sq v p
        | none => pure ()
      else
        let e' := { e with deleg := false }
        onlyIf (e.deleg = true) (entryChange sq k.line { e' with nru := true })
        let (l, d) := snoopPlan q k.req.agent e'
        trkServe sq t w e' l d
    | none, none => do
      sqInc sq scMISS
      let need := q.allocates || (q = .W && k.steer)
      let blind := if blindSet m sq k.line then domainAgents m k.line else []
      if need = false then trkServe sq t 16 {} blind false
      else match ← takeWay sq arr set k.stamp k.way with
        | none => do
          let v ← trkAbandon sq t
          sqNack sq 0 v
        | some w => trkServe sq t w {} blind false

/-- A writeback that breaks protocol state: its data is discarded and Cmp returned (R124), or, within GRACE after a
takeover, completed and counted (R344). -/
def wbStray (sq : Nat) (q : Msg) : P Unit := do
  let m ← getM
  let line := lineOf q.addr
  if m.time64 < m.twx.graceEnd ∧ homeHere m line = false then inc (TWN_CNT_COUNT tcLATE_WB)
  else
    sqInc sq scWB_NOT_OWNER
    raise (((sqEv sq 2 0x0487).at line).onPort (evPort m q.agent))
  sqAnswer sq q .cmp false [] false

/-- A writeback's lookup reads an uncorrectable entry (R139), in way `w`: every agent of the domain is snooped, the
writeback counts as the owner's, and the line is left DI. -/
def wbUe (sq t stamp w : Nat) (q : Msg) : P Unit := do
  let m ← getM
  let line := lineOf q.addr
  let set := setOf line
  sqInc sq scDIR_UE
  raise ((((ev 4 2 0x0486).b24 sq).b25 (set % 256)).b26 (set / 256) |>.b27 w)
  putTrk (sq * 8192 + t)
    { st := 2, kind := 4, stamp := stamp, req := q, line := line, wbs := [q], writer := q.agent, way := w }
  trkWrite sq t line q.data q.poison
  trkSnoop sq t (domainAgents m line) false
  trkGo sq t

/-- A writeback takes the lookup slot (R124): the owner's data goes to memory and the line becomes DI or DS. `bad` names
the way of an uncorrectable entry. The answer says that it was taken. -/
def serveWb (sq stamp : Nat) (q : Msg) (bad : Option Nat) : P Bool := do
  let m ← getM
  let line := lineOf q.addr
  match trkWriteback m sq, bad.or (if (dirFind m sq line).isNone then dirMarked m sq line else none) with
  | none, _ => return false
  | some t, some w => do
    sqInc sq scLOOKUP
    wbUe sq t stamp w q
    return true
  | some t, none => do
    sqInc sq scLOOKUP
    let found := dirFind m sq line
    let e := (found.map (·.2)).getD {}
    let cd := (cdOf m line).getD 0
    sqInc sq (if e.state = 2 then scHIT_DX else if e.state = 1 then scHIT_DS else scMISS)
    let owner := decide (e.state = 2) && decide (q.agent ∈ e.agents)
    let adopt := found.isNone && blindSet m sq line
    let k : Trk := { st := 2, kind := 1, stamp := stamp, req := q, line := line, wbs := [q], writer := q.agent, old := e }
    if owner = false ∧ adopt = false then do
      wbStray sq q
      return true
    else if fmdPort m line = none then do
      fmdMiss sq q
      return true
    else if owner then do
      let fin := if q.op = .wbS then mkEnt line cd 1 [q.agent] else {}
      putTrk (sq * 8192 + t) { k with way := (found.map (·.1)).getD 16, fin := fin }
      trkWrite sq t line q.data q.poison
      trkGo sq t
      return true
    else if q.op = .wbI then do
      putTrk (sq * 8192 + t) k
      trkWrite sq t line q.data q.poison
      trkGo sq t
      return true
    else do
      putTrk (sq * 8192 + t) k
      match ← takeWay sq (arrOf m line) (setOf line) stamp 16 with
      | some w => do
        modTrk (sq * 8192 + t) fun k => { k with way := w, fin := mkEnt line cd 1 [q.agent] }
        trkWrite sq t line q.data q.poison
      | none => do
        modTrk (sq * 8192 + t) fun k => { k with kind := 4 }
        trkWrite sq t line q.data q.poison
        trkSnoop sq t [q.agent] false
      trkGo sq t
      return true

/-- A writeback joins the open tracker that waits on a snoop to its writer (R124, R159): its data goes to memory and on
to the requester; MetaValue I is the answer itself. -/
def wbJoin (sq t : Nat) (q : Msg) : P Unit := do
  let key := sq * 8192 + t
  let line := lineOf q.addr
  modTrk key fun k =>
    { k with haveData := true, data := q.data, poison := q.poison, writer := q.agent, wbs := k.wbs ++ [q],
             wait := if q.op = .wbI then k.wait.filter (· ≠ q.agent) else k.wait,
             answers := if q.op = .wbI then k.answers ++ [(q.agent, false)] else k.answers }
  trkWrite sq t line q.data q.poison
  trkGo sq t

/-- WRITEBACK: a writeback arrives at its Square: joined, chained, looked up, or left in the C3 input queue (R124). `bad`
names the way of an uncorrectable entry that its lookup reads (R139). -/
def writeback (sq : Nat) (q : Msg) (bad : Option Nat) : P Unit := do
  let m ← getM
  let line := lineOf q.addr
  let s ← getStampCtr
  putStampCtr (s + 1)
  if homesLine m line = false then misdirect (epSq sq) q
  else match trkOn m sq line with
  | some (t, k) =>
    if q.agent ∈ k.wait then wbJoin sq t q
    else if (m.getSqx sq).chain.length < 2048 then do
      sqInc sq scCHAIN
      modSqx sq fun x => { x with chain := byStamp { stamp := s, msg := q } x.chain }
    else modSqx sq fun x => { x with wbq := byStampMsg (s, q) x.wbq }
  | none => do
    let ok ← serveWb sq s q bad
    onlyIf (ok = false) (modSqx sq fun x => { x with wbq := byStampMsg (s, q) x.wbq })

/-- Whether a message is a writeback. -/
def isWb (q : Msg) : Bool := q.op = .wbI || q.op = .wbS

/-- The place of an agent in the rotation of R145. -/
def tieRank (ptr : Nat) (q : Msg) : Nat := if q.agent < 64 then (q.agent + 64 - ptr) % 64 else 64 + q.inp

/-- A list in the order of the rotation. -/
def tieSort (ptr : Nat) (l : List (Nat × Msg)) : List (Nat × Msg) :=
  l.foldr (fun a s =>
    (s.takeWhile fun b => tieRank ptr b.2 < tieRank ptr a.2) ++ a ::
      (s.dropWhile fun b => tieRank ptr b.2 < tieRank ptr a.2)) []

/-- The first `n` new requests of a Square, for one line, arrived in the same cycle: they are put in the order of the
rotation, and RR_PTR moves past the first (R145). -/
def settleTie (sq n : Nat) : P Unit := do
  let m ← getM
  let l := m.getSqin sq
  let h := l.take n
  match h with
  | a :: _ :: _ =>
    if h.all (fun b => lineOf b.2.addr = lineOf a.2.addr && !isWb b.2) then
      let s := tieSort (m.g (SQ_ORD_STATUS_RR_PTR sq)) h
      sqInc sq scTIE
      putSqin sq ((s.zip h).map (fun e => (e.2.1, e.1.2)) ++ l.drop n)
      match s with
      | b :: _ => onlyIf (b.2.agent < 64) (wr (SQ_ORD_STATUS_RR_PTR sq) ((b.2.agent + 1) % 64))
      | [] => pure ()
  | _ => pure ()

/-- A new request is tried; taken, it leaves the input queue. -/
def tryNew (sq : Nat) (bad : Bool) (e : Nat × Msg) : P Bool := do
  let l ← getSqin sq
  putSqin sq (l.filter (fun a => a.1 ≠ e.1))
  let ok ← serveReq sq { stamp := e.1, msg := e.2 } true bad
  if ok then return true
  else do
    let l ← getSqin sq
    putSqin sq (byStampMsg e l)
    return false

/-- The heads of a Square's input queues in the order in which they are tried (R122): C0 before the others, and those in
arrival order. A head that has to wait holds back its own class only (R137). -/
def newHeads (l : List (Nat × Msg)) : List (Nat × Msg) :=
  let head (c : Nat) := (l.find? (fun e => Nat.min e.2.cls 3 = c)).toList
  head 0 ++ (head 1 ++ head 2 ++ head 3).foldr byStampMsg []

/-- The first of some new requests that can be taken leaves its input queue. -/
def tryHeads (sq : Nat) (bad : Bool) : List (Nat × Msg) → P Unit
  | [] => pure ()
  | e :: t => do
    let ok ← tryNew sq bad e
    if ok then pure () else tryHeads sq bad t

/-- The requests that wait in a Square's chain, with the returned waiters that found no slot in it, in stamp order
(R146). -/
def SqX.waiting (x : SqX) : List Waiting := x.rein.foldr byStamp x.chain

/-- A chained request leaves its place. -/
def SqX.unchain (x : SqX) (stamp : Nat) : SqX :=
  { x with chain := x.chain.filter (fun v => v.stamp ≠ stamp), rein := x.rein.filter (fun v => v.stamp ≠ stamp) }

/-- A returned waiter takes a chain slot, or waits beside the chain, with the rank of its stamp, until it is served. -/
def SqX.rechain (x : SqX) (w : Waiting) : SqX :=
  if x.chain.length < 2048 then { x with chain := byStamp w x.chain } else { x with rein := byStamp w x.rein }

/-- SQUARE_LOOKUP: the next request of R122 takes the lookup slot: writebacks, chained requests, woken retries, then new
requests, C0 before C2. `tie` new requests arrived in the same cycle; `bad` names the way of an uncorrectable entry that
the lookup reads (R139). -/
def squareLookup (sq tie : Nat) (bad : Option Nat) : P Unit := do
  settleTie sq tie
  let m ← getM
  let x := m.getSqx sq
  match x.chain.find? (fun w => isWb w.msg && (trkOn m sq (lineOf w.msg.addr)).isNone),
        x.wbq.find? (fun w => (trkOn m sq (lineOf w.2.addr)).isNone) with
  | some w, _ => do
    putSqx sq { x with chain := x.chain.filter (fun v => v.stamp ≠ w.stamp) }
    let ok ← serveWb sq w.stamp w.msg bad
    onlyIf (ok = false) (modSqx sq fun y => { y with chain := byStamp w y.chain })
  | none, some w => do
    putSqx sq { x with wbq := x.wbq.filter (fun v => v.1 ≠ w.1) }
    let ok ← serveWb sq w.1 w.2 bad
    onlyIf (ok = false) (modSqx sq fun y => { y with wbq := byStampMsg w y.wbq })
  | none, none =>
    match x.waiting.find? (fun w => !isWb w.msg && !mustChain m sq (lineOf w.msg.addr) w.stamp),
          x.retry.find? (fun w => w.woken) with
    | some w, _ => do
      putSqx sq (x.unchain w.stamp)
      let ok ← serveReq sq w false bad.isSome
      onlyIf (ok = false) (modSqx sq fun y => y.rechain w)
    | none, some w => do
      putSqx sq { x with retry := x.retry.filter (fun v => v.stamp ≠ w.stamp) }
      let ok ← serveReq sq w false bad.isSome
      onlyIf (ok = false) (modSqx sq fun y => { y with retry := byStamp { w with woken := false } y.retry })
    | none, none => tryHeads sq bad.isSome (newHeads (m.getSqin sq))

/-- SPEC_DATA_ARRIVAL: the data of speculative read `tag` arrives (R127). -/
def specArrival (sq tag : Nat) (data : List Word) (poison : Bool) : P Unit := do
  let m ← getM
  match m.getSpecT (sq * 2 ^ 32 + tag) with
  | 0 => sqInc sq scLATE
  | 1 => putSpecT (sq * 2 ^ 32 + tag) 0
  | n + 2 => do
    putSpecT (sq * 2 ^ 32 + tag) 0
    modTrk (sq * 8192 + n) fun k =>
      if k.haveData then { k with spec := 2 }
      else { k with spec := 2, haveData := true, data := data, poison := poison }
    trkGo sq n

/-- The tracker whose demand read a tag is, if it is one. -/
def readOf (m : Mach) (sq n : Nat) : Option Nat :=
  let v := m.getMemT (memKey sq n)
  if v % 2 = 1 then some (v / 2) else none

/-- The tracker whose write a tag is, if it is one; 8,192 for a purge write. -/
def writeOf (m : Mach) (sq n : Nat) : Option Nat :=
  let v := m.getMemT (memKey sq n)
  if v ≠ 0 ∧ v % 2 = 0 then some (v / 2 - 1) else none

/-- MEMORY_READ_DATA: the data of the demand read of tag `n` arrives at its tracker (R131); data that the tracker has from
a writeback stays. -/
def memReadData (sq n : Nat) (data : List Word) (poison : Bool) : P Unit := do
  match readOf (← getM) sq n with
  | some t => do
    putMemT (memKey sq n) 0
    modTrk (sq * 8192 + t) fun k =>
      if k.haveData then { k with demand := false }
      else { k with demand := false, haveData := true, data := data, poison := poison }
    trkGo sq t
  | none => sqInc sq scLATE

/-- One memory write of tracker `t` is done, timed out or lost; a purge write has no tracker. -/
def writeEnded (sq n t : Nat) : P Unit := do
  putMemT (memKey sq n) 0
  onlyIf (t < 8192) (do
    modTrk (sq * 8192 + t) fun k => { k with writes := k.writes - 1 }
    trkGo sq t)

/-- MEMORY_WRITE_COMPLETE: the memory write of tag `n` completes (R131). -/
def memWriteDone (sq n : Nat) : P Unit := do
  match writeOf (← getM) sq n with
  | some t => writeEnded sq n t
  | none => sqInc sq scLATE

/-- BIRSP: a snoop answer arrives (R128); `s` says BIRspS. -/
def birsp (sq a line : Nat) (s : Bool) : P Unit := do
  let m ← getM
  match trkOn m sq line with
  | some (t, k) =>
    if a ∈ k.wait then
      modTrk (sq * 8192 + t) fun k => { k with wait := k.wait.filter (· ≠ a), answers := k.answers ++ [(a, s)] }
      trkGo sq t
    else sqInc sq scLATE
  | none => sqInc sq scLATE

/-- SNOOP_TIMEOUT: SNP_TMO expires for agent `a` of tracker `t` (R129). -/
def snoopTimeout (sq t a : Nat) : P Unit := do
  let m ← getM
  let k := m.getTrk (sq * 8192 + t)
  if k.st = 2 ∧ a ∈ k.wait then
    sqInc sq scSNP_TMO
    raise (((sqEv sq 2 0x0482).b25 a).onPort (evPort m a))
    snoopLost sq t a false
    trkGo sq t

/-- The outcome of a memory read that does not come back: poisoned data, where a writeback has not brought data
(R132). -/
def readLost (sq t : Nat) : P Unit :=
  modTrk (sq * 8192 + t) fun k =>
    if k.haveData then { k with demand := false, spec := 0 }
    else { k with demand := false, spec := 0, haveData := true, data := [], poison := true }

/-- The read of tag `n` ends without data (R127, R132, R164): `what` 1 a speculative one, 0 a demand read. `seen` acts
on the tracker that it was for, before its data reads as poison. A discarded speculative read only leaves SPEC_OUT. -/
def readEnded (sq what n : Nat) (seen : Nat → P Unit) : P Unit := do
  let m ← getM
  let key := memKey sq n
  let user := if what = 1 then (if 2 ≤ m.getSpecT key then some (m.getSpecT key - 2) else none) else readOf m sq n
  if what = 1 then putSpecT key 0 else onlyIf (user ≠ none) (putMemT key 0)
  match user with
  | some t => do
    seen t
    readLost sq t
    trkGo sq t
  | none => pure ()

/-- MEM_TMO expires for tracker `t`: counted, with its event (R132, R140). -/
def memTmo (sq t : Nat) : P Unit := do
  let m ← getM
  let k := m.getTrk (sq * 8192 + t)
  sqInc sq scMEM_TMO
  raise (((sqEv sq 2 0x0481).at k.line).onPort (evPort m k.req.agent))

/-- MEM_TIMEOUT: MEM_TMO expires on the memory access of tag `n` (R132): `what` 0 a demand read, 1 a speculative read, 2 a
write. A purge write belongs to no tracker and is not guarded. -/
def memTimeout (sq what n : Nat) : P Unit := do
  let m ← getM
  if what < 2 then readEnded sq what n (memTmo sq)
  else match writeOf m sq n with
    | some t => do
      onlyIf (t < 8192) (memTmo sq t)
      writeEnded sq n t
    | none => pure ()

/-- A FLUSHED notice reaches a Square (R150, R164): `op` is what was discarded. A read ends as MEM_TMO ends it, a write
as written with its data lost, a snoop as one to a lost agent, a FWD as a RETURN MOVED (fwdFlushed). -/
def sqFlushed (sq : Nat) (q : Msg) (op : Op) : P Unit := do
  let m ← getM
  let what := nth (q.x.drop 1) 0
  let n := nth (q.x.drop 1) 1
  match op with
  | .rdI => readEnded sq what n fun _ => sqInc sq scMEM_TMO
  | .memWr | .memWrPtl => do
    sqInc sq scWRITE_LOST
    raise ((sqEv sq 2 0x048A).at q.addr)
    match writeOf m sq n with
    | some t => writeEnded sq n t
    | none => pure ()
  | .bisnpData | .bisnpInv => do
    match trkOn m sq (lineOf q.addr) with
    | some (n, k) =>
      if q.agent ∈ k.wait then
        snoopLost sq n q.agent true
        trkGo sq n
    | none => pure ()
  | _ => pure ()

/-- Whether a commit up to MSEQ `upto` covers record `n` (R338). -/
def covers (upto n : Nat) : Bool := (upto + 2 ^ 16 - n) % 2 ^ 16 < 2 ^ 15

/-- A commit for Square `sq` covers the FINAL records of its trackers up to an MSEQ (R338). -/
def sqCommit (sq upto : Nat) : P Unit := do
  let m ← getM
  each (openTrks m sq) fun e =>
    if e.2.mseq ≠ 0 ∧ covers upto (e.2.mseq - 1) = true then do
      modTrk (sq * 8192 + e.1) fun k => { k with committed := true }
      trkGo sq e.1
    else pure ()

/-- Commit waits of trackers end without their commits (R164, R338): each that waits counts. -/
def sqCommitsLost : P Unit := do
  let m ← getM
  each m.trk fun e =>
    if e.2.st ≠ 0 ∧ e.2.mseq ≠ 0 ∧ e.2.committed = false then do
      onlyIf (e.2.st = 3) (inc (TWN_CNT_COUNT tcCOMMIT_LOST))
      modTrk e.1 fun k => { k with committed := true }
      trkGo (e.1 / 8192) (e.1 % 8192)
    else pure ()

/-- RELEASE_SEND: the lines that wait leave in one RELEASE record, up to four (R337). -/
def releaseSend (sq : Nat) : P Unit := do
  let m ← getM
  let x := m.getSqx sq
  let l := x.releases.take 4
  if l ≠ [] then
    putSqx sq { x with releases := x.releases.drop 4 }
    if m.g TWN_ROLE_MIRRORED = 1 then
      let body := (l.zipIdx).foldl (fun a e => a + e.1 / 64 * 2 ^ (64 + 48 * e.2)) 0
      let _ ← recSend (epSq sq) sq (1 + l.length * 2 ^ 8 + sq * 2 ^ 24 + body)

/-- RETRY_INTERVAL: INTERVAL after its last attempt a retry entry is retried (R136). -/
def retryInterval (sq n : Nat) : P Unit := do
  let x ← getSqx sq
  putSqx sq { x with retry := x.retry.zipIdx.map fun e => if e.2 = n then { e.1 with woken := true } else e.1 }

/-- RETRY_AGE_LIMIT: a retry entry has waited AGE_LIMIT: RETRY_AGED, once (R136). -/
def retryAge (sq n : Nat) : P Unit := do
  let m ← getM
  let x := m.getSqx sq
  match x.retry[n]? with
  | some w =>
    if w.aged = false then
      putSqx sq { x with retry := x.retry.set n { w with aged := true } }
      raise (((sqEv sq 0 0x0483).at (lineOf w.msg.addr)).onPort (evPort m w.msg.agent))
  | none => pure ()

/-- EVICT_WINDOW_END: a 1 ms window ends (R138). -/
def evictWindow (sq : Nat) : P Unit := do
  let m ← getM
  let n := (m.getSqx sq).evicts
  let p := if m.g (SQ_EVICT_CTL_THRESH sq) < n then 1 else 0
  modSqx sq fun x => { x with evicts := 0 }
  wr (SQ_EVICT_STAT_WINDOW_EVICTS sq) (Nat.min n (2 ^ 32 - 1))
  onlyIf (p = 1 ∧ m.g (SQ_EVICT_STAT_PRESSURE sq) = 0) (raise ((sqEv sq 0 0x0485).w28 n))
  wr (SQ_EVICT_STAT_PRESSURE sq) p

/-- PROBE_DONE: the running probe of Square `sq` reports (R142). -/
def probeDone (sq : Nat) : P Unit := do
  let m ← getM
  if (m.getSqx sq).probing then
    modSqx sq fun x => { x with probing := false }
    let line := m.g (SQ_PROBE_ADDR_ADDR sq) * 64
    wrReg .SQ_PROBE_RESULT sq 0
    wrReg .SQ_PROBE_SHARERS sq 0
    wr (SQ_PROBE_RESULT_DONE sq) 1
    wr (SQ_PROBE_RESULT_SET sq) (setOf line)
    if homeSq line ≠ sq then wr (SQ_PROBE_RESULT_NOT_HOME sq) 1
    else
      wr (SQ_PROBE_RESULT_NOT_HOME sq) (if homesLine m line then 0 else 1)
      wr (SQ_PROBE_RESULT_MIRROR sq) (arrOf m line)
      wr (SQ_PROBE_RESULT_OPEN sq) (if (trkOn m sq line).isSome then 1 else 0)
      match dirFind m sq line with
      | some (w, e) => do
        wr (SQ_PROBE_RESULT_FOUND sq) 1
        wr (SQ_PROBE_RESULT_WAY sq) w
        wr (SQ_PROBE_RESULT_STATE sq) e.state
        wr (SQ_PROBE_RESULT_KIOSK sq) (if e.kiosk then 1 else 0)
        wr (SQ_PROBE_RESULT_DELEG sq) (if e.deleg then 1 else 0)
        wr (SQ_PROBE_RESULT_CD sq) e.cd
        wr (SQ_PROBE_SHARERS_SHARERS sq) e.sharers
      | none => pure ()

/-- Messages that a lost agent sent leave every place they wait in (R162). -/
def dropLost (a : Nat) (l : List Waiting) : List Waiting := l.filter (fun w => w.msg.agent ≠ a || isWb w.msg)

/-- Agent `a` is lost (R162, R163): every Square raises AGENT_LOST and starts a walk; the agent's requests leave chains
and retry queues; snoops to it complete at once. -/
def sqAgentLost (a : Nat) : P Unit := do
  putAlost a true
  let m ← getM
  each (List.range 32) fun sq => do
    raise (((sqEv sq 2 0x0488).b25 a).onPort (evPort m a))
    let mask ← rd (SQ_PURGE_MASK_AGENTS sq)
    wr (SQ_PURGE_MASK_AGENTS sq) (mask ||| 2 ^ a)
    wr (SQ_PURGE_STATUS_ACTIVE sq) 1
  each m.sqx fun e => modSqx e.1 fun x =>
    { x with chain := dropLost a x.chain, rein := dropLost a x.rein, retry := dropLost a x.retry }
  modBic (·.filter (fun q => q.agent ≠ a))
  each m.trk fun e =>
    if e.2.st ≠ 0 then do
      modTrk e.1 fun k => { k with lostReq := k.lostReq || (k.kind = 0 && k.req.agent = a) }
      if a ∈ e.2.wait then
        snoopLost (e.1 / 8192) (e.1 % 8192) a true
        trkGo (e.1 / 8192) (e.1 % 8192)
    else pure ()

/-- PURGE_WALK_DONE: the walk of Square `sq` has given every agent of its mask a full pass (R163): entries that no
tracker and no ledger entry holds lose the agent; a line it owned is written poisoned. -/
def purgeDone (sq : Nat) : P Unit := do
  let m ← getM
  let mask := m.g (SQ_PURGE_MASK_AGENTS sq)
  if m.g (SQ_PURGE_STATUS_ACTIVE sq) = 1 then
    let banks := (m.getSqx sq).kpurge
    each ((List.range 64).filter (fun a => bitsAt mask a 1 = 1) ++ (if banks = 0 then [] else [64])) fun a => do
      let m ← getM
      let mine := m.dir.filter fun e =>
        let set := e.1 / 16 % 16384
        let line := lineAt e.2.tag set
        e.1 / 16 / 16384 / 2 = sq && a ∈ e.2.agents && (a < 64 || bitsAt banks (kskShare line) 1 = 1) && (trkOn m sq line).isNone && (ledgerOf m sq line).isNone &&
          (m.g TWN_ROLE_HOMES = 2 || e.1 / 16 / 16384 % 2 = 0)
      each mine fun e => do
        let line := lineAt e.2.tag (e.1 / 16 % 16384)
        if e.2.state = 2 then
          sqInc sq scPURGE_DX
          purgeWrite sq line (evPort m a)
        else sqInc sq scPURGE_DS
        entryChange sq line (e.2.without line a)
      let dx := (mine.filter (fun e => e.2.state = 2)).length
      raise (((sqEv sq 0 0x0489).b25 a).w28 dx |>.onPort (evPort m a))
    wr (SQ_PURGE_MASK_AGENTS sq) 0
    modSqx sq fun x => { x with kpurge := 0 }
    wr (SQ_PURGE_STATUS_ACTIVE sq) 0
    wr (SQ_PURGE_STATUS_SET sq) 0

/-- Kiosk bank `k` is lost (R384): every Square purges agent 64 over the lost share, and snoops to the bank complete. -/
def kioskLost (k : Nat) : P Unit := do
  each (List.range 32) fun sq => do
    modSqx sq fun x => { x with kpurge := x.kpurge ||| 2 ^ k }
    wr (SQ_PURGE_STATUS_ACTIVE sq) 1
  let m ← getM
  each m.trk fun e =>
    onlyIf (e.2.st ≠ 0 ∧ 64 ∈ e.2.wait ∧ kskShare e.2.line = k) (do
      snoopLost (e.1 / 8192) (e.1 % 8192) 64 true
      trkGo (e.1 / 8192) (e.1 % 8192))

/-- What a waiter handed back by a Corner does at the Square (R157): forwarded again if the line is still delegated,
chained otherwise. A request of an agent that has been lost meanwhile is dropped (R162). -/
def reenterAs (sq : Nat) (w : Waiting) : P Unit := do
  let m ← getM
  let line := lineOf w.msg.addr
  let e := entryOf m sq line
  let w := { w with back := true }
  if isLost m w.msg.agent = true then pure ()
  else match e.deleg && (trkOn m sq line).isNone, delegPort m e with
  | true, some p => sqForward sq w p
  | _, _ => do
    onlyIf ((m.getSqx sq).chain.length < 2048) (sqInc sq scCHAIN)
    modSqx sq fun x => x.rechain w

/-- WAITER: one of the waiters that a HANDOVER or RETURN announced comes in (R153, R157). -/
def reenter (sq : Nat) (w : Waiting) : P Unit := do
  dueSub sq (lineOf w.msg.addr)
  reenterAs sq w

/-- An ACK goes to the Corner's port (R157). -/
def sqAck (sq port line : Nat) : P Unit :=
  xsend { op := .ack, cls := 1, inp := epSq sq, out := port, addr := line, len := 16 }

/-- Corner credits come back (R151). -/
def creditBack (sq oct recs waits : Nat) : P Unit := do
  modCrec (sq * 32 + oct) fun c => Nat.min 64 (c + recs)
  modCwait (sq * 32 + oct) fun c => Nat.min 256 (c + waits)

/-- The entry of a line is written by a Corner's message whose state the Corner has mirrored (R156). A line has an entry
while its ledger entry stands (R152). -/
def entryWrite (sq line : Nat) (e : DirEnt) : P Unit := do
  let m ← getM
  match dirFind m sq line with
  | some (w, _) => putDir (dirKey sq (arrOf m line) (setOf line) w) e
  | none => pure ()

/-- HANDOVER: the Square writes DX `a` with DELEG 1 (R157). `settled` waiters are settled by the message. Every waiter but
the one it grants follows in a WAITER message. -/
def handover (sq port line a settled recs waits : Nat) : P Unit := do
  let m ← getM
  sqInc sq scHANDOVER
  let cd := (cdOf m line).getD 0
  entryWrite sq line { mkEnt line cd 2 [a] with deleg := true }
  sqAck sq port line
  creditBack sq (port / 4) recs waits
  dueAdd sq line (waits - 1)
  ledgerSub sq line settled

/-- The waiters that a RETURN announces beside the head it carries: all of them, but for the head that its Corner has
granted (DONE, PORT_DOWN after a grant) or that the message itself carries (SELF, a FLUSHED notice). -/
def retDue (why : Ret) (fin : Option DirEnt) (head : Option Waiting) (waits : Nat) : Nat :=
  let less := match why with
    | .done | .self => true
    | .portDown => fin.isSome
    | .moved => head.isSome
    | .ownerGone | .lost => false
  if less then waits - 1 else waits

/-- RETURN: the Square acts on a Corner's message as Table 6.4 states. `fin` is the state it carries (DONE, PORT_DOWN
after a grant); `kept` the answer of OWNER_GONE; `head` the owner's own request of SELF, or the request of a FWD that
the Crossing discarded, whose notice (`flushed`) takes no ACK (R150). -/
def retTake (sq port line : Nat) (why : Ret) (fin : Option DirEnt) (kept : Bool) (head : Option Waiting)
    (settled recs waits : Nat) (flushed : Bool) : P Unit := do
  let m ← getM
  let e := entryOf m sq line
  let cd := (cdOf m line).getD 0
  let put (f : DirEnt) : DirEnt := if f.state = 0 then {} else { f with tag := tagOf line, deleg := false, cd := cd }
  match why with
  | .lost => do
    sqInc sq scSNP_TMO
    raise (((sqEv sq 2 0x0482).b25 (e.agents.headD 0xFF)).onPort port)
    purgeWrite sq line port
    entryChange sq line {}
  | .done => entryWrite sq line (put (fin.getD {}))
  | .ownerGone =>
    onlyIf (e.state = 2 ∧ e.deleg = true) (entryChange sq line (if kept then mkEnt line cd 1 e.agents else {}))
  | .portDown =>
    match fin with
    | some f => entryWrite sq line (put f)
    | none =>
      match e.agents with
      | a :: _ =>
        if e.state = 2 ∧ isLost m a = true then do
          sqInc sq scPURGE_DX
          purgeWrite sq line port
          entryChange sq line {}
        else entryChange sq line { e with deleg := false }
      | [] => pure ()
  | .self | .moved => pure ()
  sqInc sq scRETURN
  onlyIf (flushed = false) (sqAck sq port line)
  creditBack sq (port / 4) recs waits
  dueAdd sq line (retDue why fin head waits)
  ledgerSub sq line settled
  if why = .moved then
    let e' := entryOf (← getM) sq line
    onlyIf (e'.deleg = true ∧ (delegPort (← getM) e').isNone = true) (entryChange sq line { e' with deleg := false })
  match why, head with
  | .self, some w => do
    let m ← getM
    match trkGeneral m sq, dirFind m sq line with
    | some t, some (way, f) => do
      putTrk (sq * 8192 + t) { st := 1, kind := 0, stamp := w.stamp, req := w.msg, line := line, back := true,
                               steer := steerServed m w.msg }
      let (l, d) := snoopPlan (rqOf w.msg) w.msg.agent f
      trkServe sq t way f l d
    | _, _ => reenterAs sq w
  | _, some w => reenterAs sq w
  | _, none => pure ()

/-- The block rules of a live write to an SQ register (R116, R142). -/
def sqRule (m : Mach) (k : RegKind) (i _old new mask : Nat) : Nat :=
  let busy := m.g (SQ_FMD_CTL_COMMITTED i) = 1
  let tgts (w t0 t1 : Nat) : List Nat := (List.range (2 ^ w)).map fun j =>
    if j < 8 then bitsAt t0 (8 * j) 8 else bitsAt t1 (8 * (j - 8)) 8
  match k with
  | .SQ_PROBE_ADDR => if (m.getSqx i).probing then rcCOH_BUSY else rcOK
  | .SQ_FMD_BASE | .SQ_FMD_SIZE => if busy then rcCOH_BUSY else rcOK
  | .SQ_FMD_TGT0 | .SQ_FMD_TGT1 =>
    if busy then rcCOH_BUSY
    else if (List.range 8).any (fun j => 128 ≤ bitsAt new (8 * j) 8) then rcCOH_LIMIT else rcOK
  | .SQ_RANGE_CFG =>
    let a := bitsAt new 40 8
    if 64 ≤ a ∧ a ≠ 0xFE ∧ a ≠ 0xFF then rcCOH_LIMIT else rcOK
  | .SQ_FMD_CTL =>
    let t0 := m.g (SQ_FMD_TGT0_TARGET i)
    let t1 := m.g (SQ_FMD_TGT1_TARGET i)
    if busy then
      if bitsAt mask 7 1 = 1 ∧ bitsAt new 7 1 = 0 then
        if (tgts (m.g (SQ_FMD_CTL_WAYS_LOG2 i)) t0 t1).any (fun p => portUp m p) then rcCOH_BUSY else rcOK
      else rcCOH_BUSY
    else if bitsAt new 7 1 = 1 then
      let b := m.g (SQ_FMD_BASE_BASE i)
      let e := b + m.g (SQ_FMD_SIZE_SIZE i)
      if 4 < bitsAt new 0 3 ∨ bitsAt new 3 4 < 8 ∨ 14 < bitsAt new 3 4 ∨
          (List.range 32).any (fun j => j ≠ i && m.g (SQ_FMD_CTL_COMMITTED j) = 1 &&
            b < m.g (SQ_FMD_BASE_BASE j) + m.g (SQ_FMD_SIZE_SIZE j) && m.g (SQ_FMD_BASE_BASE j) < e) ∨
          (tgts (bitsAt new 0 3) t0 t1).any (fun p => p ≥ 128 || m.g (OCT_PORT_CFG_VALID p) = 0 ||
            m.g (OCT_PORT_CFG_ROLE p) ≠ 1 || m.g (OCT_PORT_CFG_VCS p) ≠ 0xFF) then rcCOH_LIMIT
      else rcOK
    else rcOK
  | _ => rcOK

/-- The effect of an accepted write to an SQ register. -/
def sqEffect (k : RegKind) (i cmd : Nat) : P Unit := do
  match k with
  | .SQ_CTL =>
    onlyIf (bitsAt cmd 13 1 = 1) (each (List.range 32) fun c => rstReg .SQ_CNT (i * 32 + c))
  | .SQ_PROBE_ADDR => do
    wrReg .SQ_PROBE_RESULT i 0
    modSqx i fun x => { x with probing := true }
  | .SQ_FMD_CTL => do
    let m ← getM
    wr (SQ_FMD_CTL_COMMITTED i) (m.g (SQ_FMD_CTL_COMMIT i))
  | _ => pure ()

/-- SQ_STATUS as it stands. -/
def sqStatus (m : Mach) (sq : Nat) : Nat :=
  let l := openTrks m sq
  l.length + (l.filter (fun e => 7808 ≤ e.1 && e.1 < 7936)).length * 2 ^ 14 +
    (l.filter (fun e => 7936 ≤ e.1)).length * 2 ^ 22 + (m.getSqx sq).retry.length * 2 ^ 31 + specOut m sq * 2 ^ 42

/-- SQ_ORD_STATUS as it stands. -/
def sqOrd (m : Mach) (sq : Nat) : Nat :=
  m.g (SQ_ORD_STATUS_RR_PTR sq) + (m.getSqx sq).chain.length * 2 ^ 8 + (m.getSqx sq).ledger.length * 2 ^ 20

/-- SQ_OCC: entries of the lines this twin homes (R141). -/
def sqOcc (m : Mach) (sq : Nat) : Nat :=
  let l := m.dir.filter fun e => e.1 / 16 / 16384 / 2 = sq && e.2.state ≠ 0 &&
    (m.g TWN_ROLE_HOMES = 2 || (m.g TWN_ROLE_HOMES = 1 && e.1 / 16 / 16384 % 2 = 0))
  l.length + (l.filter (fun e => e.2.state = 2)).length * 2 ^ 19 + (l.filter (fun e => e.2.deleg)).length * 2 ^ 38

end Sys2Proof.Machine
end

