-- ==== Sys2Proof/Machine/Corners.lean ====
section
/-!
DEFINITION. Corners (06_ordering_and_races.md): the records that order a delegated line at its owner's port, and the
handshake of BIConflict.
-/
namespace Sys2Proof.Machine

/-- The place of a Corner record: its port and line. -/
def crnKey (p line : Nat) : Nat := p * 2 ^ 46 + line / 64

/-- A Corner sends a message to the home Square on its port's triple (R153). -/
def crnSend (p sq line : Nat) (op : Op) (x : List Nat) : P Unit :=
  xsend { op := op, cls := 3, inp := p, out := epSq sq, addr := line, len := 32, x := x }

/-- A Corner returns one waiter: a WAITER message with its request (R153). -/
def crnWaiter (p sq : Nat) (w : Waiting) : P Unit :=
  xsend { w.msg with op := .waiter, cls := 3, inp := p, out := epSq sq,
                     x := [w.stamp, w.msg.op.ctorIdx, w.msg.cls, w.msg.inp] }

/-- The record of a Corner sends its HANDOVER or RETURN (Table 6.3, Table 6.4) with the waiters it settles and the waiter
credits it gives back, then one WAITER for each waiter left, oldest first; it is then HANDED. `x` says which message: the
new owner for HANDOVER; the reason and the state for RETURN. The head of OWNER_GONE and LOST stays a waiter. Waiters of
lost agents are settled with the rest; their credits went back when they were dropped (R152, R162). -/
def crnHand (p line : Nat) (op : Op) (x : List Nat) (settledHead : Bool) : P Unit := do
  let c ← getCrn (crnKey p line)
  let n := c.waiters.length
  onlyIf (op = .ret) (inc (OCT_CRN_CNT_RETURN_COUNT (p / 4)))
  crnSend p c.sq line op ([n + c.dropped, n] ++ x)
  each (if settledHead then c.waiters.drop 1 else c.waiters) fun w => crnWaiter p c.sq w
  putCrn (crnKey p line) { c with st := 3, waiters := [], dropped := 0 }

/-- The reason of a RETURN as its message carries it. -/
def Ret.code : Ret → Nat
  | .done => 0 | .ownerGone => 1 | .self => 2 | .moved => 3 | .lost => 4 | .portDown => 5

/-- RETURN SELF carries the owner's own request, then one WAITER for each other waiter (Table 6.4). -/
def crnSelf (p line : Nat) (w : Waiting) : P Unit :=
  crnHand p line .ret ([Ret.code .self, w.stamp, w.msg.op.ctorIdx, w.msg.cls, w.msg.inp, w.msg.agent, w.msg.tag] ++ w.msg.x) true

/-- A HANDED record is freed once the ACK is in and the owner's BIRsp is in or given up; its record credit goes back by
CREDIT (R151, R155). -/
def crnFree (p line : Nat) : P Unit := do
  let c ← getCrn (crnKey p line)
  if c.st = 3 ∧ c.ack ∧ c.expect = false then
    putCrn (crnKey p line) {}
    crnSend p c.sq line .credit [1, 0]

/-- The snoop of Table 6.3 goes to the owner for the head waiter (on the port itself, through the Crossing). -/
def crnSnoop (p line : Nat) (w : Waiting) (owner : Nat) : P Unit :=
  let data := match rqOf w.msg with | .S | .N => true | _ => false
  xsend { op := if data then .bisnpData else .bisnpInv, cls := 1, inp := p, out := p, agent := owner, addr := line,
          len := 16, x := [0xC0DE, 4] }

/-- A Corner writes memory in C3 and awaits the completion (Table 6.3); a partial write goes on as one, with its byte
mask. Where no committed decoder claims the line the write is discarded and counted at the home Square, and there is
nothing to await (R117). -/
def crnWrite (p line : Nat) (mask : Option Nat) (data : List Word) (poison : Bool) : P Unit := do
  match fmdPort (← getM) line with
  | some d => do
    xsend { op := if mask.isSome then .memWrPtl else .memWr, cls := 3, inp := p, out := d, addr := line, len := 80,
            data := data, poison := poison, x := 0xC0DE :: 2 :: mask.toList }
    modCrn (crnKey p line) fun c => { c with writes := c.writes + 1 }
  | none => do
    let c ← getCrn (crnKey p line)
    sqMiss c.sq line p

/-- What the head waiter's service ends in (Table 6.3): the final state of the line. -/
def crnFinal (w : Waiting) (owner line cd : Nat) (kept : Bool) : DirEnt :=
  match rqOf w.msg with
  | .A | .U => mkEnt line cd 2 [w.msg.agent]
  | .S => mkEnt line cd 1 ((if kept then [owner] else []) ++ [w.msg.agent])
  | .N => if kept then mkEnt line cd 1 [owner] else {}
  | .W | .X => {}

/-- Whether delegation moves to the requester's own Corner (Table 6.3, row 1): an ownership grant to an agent whose
port here is UP. -/
def crnMoves (m : Mach) (w : Waiting) : Bool :=
  (match rqOf w.msg with | .A | .U => true | _ => false) && w.msg.agent < 64 &&
    (match agentPort m w.msg.agent with | some q => portUp m q | none => false)

/-- Whether the head waiter of a record can no longer be granted: its agent has been lost while it waited, or its port here
has left UP (R161, R162). -/
def crnReqGone (m : Mach) (c : Crn) (w : Waiting) : Bool :=
  c.gone || isLost m w.msg.agent || (w.msg.inp < 128 && !portUp m w.msg.inp)

/-- The grant of the head waiter leaves, port to port (Table 6.3), counted in XFER. -/
def crnGrant (p : Nat) (w : Waiting) (c : Crn) : P Unit := do
  let q := w.msg
  let put (op : Op) (d : Bool) : P Unit :=
    xsend { op := op, cls := ansCls q d, inp := p, out := q.inp, agent := q.agent, addr := q.addr, tag := q.tag,
            len := if d then 80 else 16, data := if d then c.data else [], poison := if d then c.poison else false }
  inc (OCT_CRN_CNT_XFER_COUNT (p / 4))
  match rqOf q with
  | .A | .U => do put .memData true; put .cmpE false
  | .S => do put .memData true; put .cmpS false
  | .N => put .memData true
  | .W => do
    onlyIf (steerTag q ≠ 0) (sqInc c.sq scSTEER_IGNORED)
    put .cmp false
  | .X => put .cmp false

/-- A record in GRANTING moves on (Table 6.2): the grant leaves at the partner's commit, or at once; when it has left
and every memory write is done, HANDOVER or RETURN DONE goes to the Square. -/
def crnStep (p line : Nat) : P Unit := do
  let key := crnKey p line
  let m ← getM
  let c := m.getCrn key
  match c.waiters with
  | [] => pure ()
  | w :: _ =>
    if c.st = 2 ∧ c.granted = false ∧ (c.mseq = 0 ∨ c.committed = true) ∧
        (rqOf w.msg ≠ .W ∨ c.writes = 0 ∨ crnReqGone m c w = true) then
      if crnReqGone m c w then
        sqInc c.sq scREQ_LOST
        modCrn key fun c => { c with granted := true, fin := c.fin.without line w.msg.agent }
      else
        crnGrant p w c
        modCrn key fun c => { c with granted := true }
        conflictsAck p w.msg.agent line
    let m ← getM
    let c := m.getCrn key
    if c.st = 2 ∧ c.granted ∧ c.writes = 0 then
      if crnMoves m w = true ∧ c.fin.state = 2 then crnHand p line .handover [w.msg.agent] true
      else crnHand p line .ret ([Ret.code .done, c.fin.bits] : List Nat) true
      crnFree p line

/-- The owner's data is complete: the final state is known, the mirror record leaves (R156) and the record is
GRANTING. -/
def crnGranting (p line : Nat) (kept : Bool) : P Unit := do
  let key := crnKey p line
  let m ← getM
  let c := m.getCrn key
  match c.waiters with
  | [] => pure ()
  | w :: _ => do
    let f := crnFinal w c.owner line ((cdOf m line).getD 0) kept
    let f := if crnMoves m w then { f with deleg := true } else f
    let f := if crnReqGone m c w then f.without line w.msg.agent else f
    modCrn key fun c => { c with st := 2, fin := f, mseq := 0, committed := false, granted := false }
    if rqOf w.msg = .W then
      crnWrite p line (if w.msg.op = .memWrPtl then some (nth w.msg.x 0) else none) w.msg.data w.msg.poison
    if m.g TWN_ROLE_MIRRORED = 1 then
      let way := ((dirFind m c.sq line).map (·.1)).getD 0
      let n ← recSend p c.sq (entryRec 1 way true true c.sq line f (reqField w.msg) c.owner [c.owner])
      modCrn key fun c => { c with mseq := n + 1 }
    crnStep p line

/-- A RETURN of one request at once, with reason MOVED (R150, R155): it gives back the credits its FWD took. -/
def crnBounce (p sq line : Nat) (w : Waiting) (opened : Bool) : P Unit := do
  inc (OCT_CRN_CNT_BOUNCE_COUNT (p / 4))
  crnSend p sq line .ret [1, 1, Ret.code .moved, if opened then 1 else 0]
  crnWaiter p sq w

/-- CORNER_FWD: a FWD reaches the Corner of port `p` (Table 6.2). `opened` says that it took a record credit. -/
def cornerFwd (p sq : Nat) (w : Waiting) (opened : Bool) : P Unit := do
  let m ← getM
  let line := lineOf w.msg.addr
  let key := crnKey p line
  let c := m.getCrn key
  match c.st with
  | 0 =>
    if portUp m p = false then crnBounce p sq line w opened
    else do
      let owner := (portAgent m p).getD 0xFF
      inc (OCT_CRN_CNT_FWD_COUNT (p / 4))
      putCrn key { st := 1, sq := sq, owner := owner, waiters := [w] }
      if w.msg.agent = owner then
        modCrn key fun c => { c with self := true }
        crnSelf p line w
        crnFree p line
      else
        modCrn key fun c => { c with expect := true }
        crnSnoop p line w owner
  | 3 => crnBounce p sq line w opened
  | _ => do
    inc (OCT_CRN_CNT_FWD_COUNT (p / 4))
    putCrn key { c with waiters := match c.waiters with
                          | [] => [w]
                          | h :: t => h :: byStamp w t }

/-- CORNER_WRITEBACK: the owner's writeback for a line with a record (Table 6.2, R159). It is completed to the owner. One
that follows the owner's answer breaks R147: it is discarded, and counted and raised at the home Square (R161). A
record that was handed with RETURN SELF has asked the owner nothing: its writeback breaks no rule, and is written. -/
def cornerWriteback (p : Nat) (q : Msg) : P Unit := do
  let m ← getM
  let line := lineOf q.addr
  let key := crnKey p line
  let c := m.getCrn key
  if c.st ≠ 0 then
    xsend { op := .cmp, cls := ansCls q false, inp := p, out := p, agent := q.agent, addr := line, tag := q.tag, len := 16 }
    if c.st = 1 ∨ (c.st = 3 ∧ c.self = true) then crnWrite p line none q.data q.poison
    else
      sqInc c.sq scWB_NOT_OWNER
      raise (((sqEv c.sq 2 0x0487).at line).onPort p)
    if c.st = 1 then
      modCrn key fun c => { c with held := if q.op = .wbI then 2 else 1, data := q.data, poison := q.poison }
      onlyIf (q.op = .wbI) (crnGranting p line false)

/-- CORNER_BIRSP: the owner's BIRsp for a line with a record (Table 6.2). -/
def cornerBirsp (p line : Nat) (s : Bool) : P Unit := do
  let m ← getM
  let key := crnKey p line
  let c := m.getCrn key
  if c.st = 1 ∧ c.expect then
    putCrn key { c with expect := false, answer := if s then 2 else 1 }
    if c.held = 1 then crnGranting p line s
    else do
      crnHand p line .ret [Ret.code .ownerGone, if s then 1 else 0] false
      crnFree p line
  else if c.st ≠ 0 then
    inc (OCT_CRN_CNT_ABSORBED_COUNT (p / 4))
    putCrn key { c with expect := false, answer := if s then 2 else 1 }
    crnFree p line

/-- CORNER_SNOOP_TIMEOUT: SNP_TMO of the home Square expires (Table 6.2): a waiting record returns LOST; a HANDED one
no longer waits for its BIRsp. -/
def cornerSnoopTimeout (p line : Nat) : P Unit := do
  let m ← getM
  let key := crnKey p line
  let c := m.getCrn key
  if c.st = 1 ∧ c.expect then
    putCrn key { c with expect := false }
    crnHand p line .ret [Ret.code .lost] false
    crnFree p line
  else if c.st = 3 then
    putCrn key { c with expect := false }
    crnFree p line

/-- A record whose port has left UP returns PORT_DOWN once its memory writes are done (Table 6.2). -/
def crnDown (p line : Nat) : P Unit := do
  let key := crnKey p line
  let c ← getCrn key
  if c.down ∧ c.writes = 0 ∧ c.st ≠ 0 ∧ c.st ≠ 3 then
    let x := if c.granted then [Ret.code .portDown, 1, c.fin.bits] else [Ret.code .portDown, 0]
    crnHand p line .ret x c.granted
    modCrn key fun c => { c with expect := false, down := false }
    crnFree p line

/-- A memory write of a record is done, timed out or lost. -/
def crnWritten (p line : Nat) : P Unit := do
  let key := crnKey p line
  modCrn key fun c => { c with writes := c.writes - 1 }
  let c ← getCrn key
  if c.down then crnDown p line else crnStep p line

/-- CORNER_MEMORY_WRITE_DONE (R156). A late completion is discarded, and counted at the home Square (R19). -/
def cornerWriteDone (p line : Nat) : P Unit := do
  let c ← getCrn (crnKey p line)
  if 0 < c.writes then crnWritten p line else sqInc (homeSq line) scLATE

/-- CORNER_MEM_TIMEOUT: MEM_TMO expires on a Corner's memory write (R156). -/
def cornerMemTimeout (p line : Nat) : P Unit := do
  let c ← getCrn (crnKey p line)
  if 0 < c.writes then
    sqInc c.sq scMEM_TMO
    raise (((sqEv c.sq 2 0x0481).at line).onPort p)
    crnWritten p line

/-- A FLUSHED notice for a Corner's memory write (R164). -/
def crnFlushed (p line : Nat) : P Unit := do
  let c ← getCrn (crnKey p line)
  if 0 < c.writes then
    sqInc c.sq scWRITE_LOST
    raise (((sqEv c.sq 2 0x048A).at line).onPort p)
    crnWritten p line

/-- CORNER_ACK: the home Square has taken the record's message (Table 6.2). -/
def cornerAck (p line : Nat) : P Unit := do
  modCrn (crnKey p line) fun c => if c.st = 3 then { c with ack := true } else c
  crnFree p line

/-- The owner's port leaves UP: every record of the port that is not HANDED returns PORT_DOWN (Table 6.2). -/
def crnPortDown (p : Nat) : P Unit := do
  let m ← getM
  each m.crn fun e =>
    if e.1 / 2 ^ 46 = p ∧ e.2.st ≠ 0 then
      let line := e.1 % 2 ^ 46 * 64
      if e.2.st = 3 then do
        putCrn e.1 { e.2 with expect := false }
        crnFree p line
      else do
        putCrn e.1 { e.2 with down := true }
        crnDown p line
    else pure ()

/-- Requests of a lost agent leave the Corner queues, and their waiter credits go back at once (R151, R162); a head in
service stays for its record to end, and is not granted. -/
def crnAgentLost (a : Nat) : P Unit := do
  let m ← getM
  each (m.crn.filter (fun e => e.2.st ≠ 0)) fun e => do
    let c := e.2
    let rest := c.waiters.drop 1
    let n := (rest.filter (fun w => w.msg.agent = a)).length
    putCrn e.1 { c with waiters := c.waiters.take 1 ++ rest.filter (fun w => w.msg.agent ≠ a), dropped := c.dropped + n,
                        gone := c.gone || (!c.granted && (c.waiters.head?.map (·.msg.agent)) = some a) }
    onlyIf (0 < n) (crnSend (e.1 / 2 ^ 46) c.sq (e.1 % 2 ^ 46 * 64) .credit [0, n])

/-- A commit for Square `sq` covers the records of Corners (R338). -/
def crnCommit (sq upto : Nat) : P Unit := do
  let m ← getM
  each m.crn fun e =>
    if e.2.sq = sq ∧ e.2.st = 2 ∧ e.2.mseq ≠ 0 ∧ covers upto (e.2.mseq - 1) = true then do
      putCrn e.1 { e.2 with committed := true }
      crnStep (e.1 / 2 ^ 46) (e.1 % 2 ^ 46 * 64)
    else pure ()

/-- Commit waits of Corners end without their commits (R164, R338). -/
def crnCommitsLost : P Unit := do
  let m ← getM
  each m.crn fun e =>
    if e.2.st = 2 ∧ e.2.mseq ≠ 0 ∧ e.2.committed = false then do
      inc (TWN_CNT_COUNT tcCOMMIT_LOST)
      putCrn e.1 { e.2 with committed := true }
      crnStep (e.1 / 2 ^ 46) (e.1 % 2 ^ 46 * 64)
    else pure ()

/-- MIRROR_COMMIT: a commit packet releases the grants whose FINAL records it covers (R338). -/
def mirrorCommit (l : List (Nat × Nat)) : P Unit := each l fun e =>
  if e.1 < 32 then do
    sqCommit e.1 e.2
    crnCommit e.1 e.2
  else pure ()

/-- Every open commit wait ends (R338). -/
def commitsLost : P Unit := do
  sqCommitsLost
  crnCommitsLost

/-- TWN_MIRROR.COMMIT_WAIT: commit waits open. -/
def commitWait (m : Mach) : Nat :=
  (m.trk.filter (fun e => e.2.st = 3)).length +
    (m.crn.filter (fun e => e.2.st = 2 && e.2.mseq ≠ 0 && !e.2.committed)).length

/-- OCT_CRN_STATUS as it stands. -/
def crnStatus (m : Mach) (o : Nat) : Nat :=
  let l := m.crn.filter (fun e => e.1 / 2 ^ 46 / 4 = o && e.2.st ≠ 0)
  l.foldl (fun a e => a + e.2.waiters.length) 0 + l.length * 2 ^ 16

/-- BICONFLICT: agent `a` on port `p` finds its request for a line in conflict (R160). The tracker or Corner that holds
the request answers after its completion, wherever the request has to wait until then; otherwise the octet answers at
once. -/
def biConflict (p a : Nat) (addr tag : Nat) : P Unit := do
  let m ← getM
  let line := lineOf addr
  let q : Msg := { op := .biConflict, cls := 2, inp := p, out := epSq (homeSq line), agent := a, addr := line, tag := tag,
                   len := 16 }
  if m.trk.any (fun e => e.2.st ≠ 0 && e.2.kind = 0 && e.2.line = line && e.2.req.agent = a) = true ∨
      m.crn.any (fun e => e.2.st ≠ 0 && e.1 % 2 ^ 46 = line / 64 && e.2.waiters.any (fun w => w.msg.agent = a)) = true
  then modBic (· ++ [q])
  else emit (.port p { q with op := .biConflictAck, inp := p, out := p })

/-- The effect of a write to a Corner register: CLR_CNT (R168). -/
def crnEffect (k : RegKind) (o cmd : Nat) : P Unit :=
  if k = .OCT_CRN_CTL ∧ bitsAt cmd 0 1 = 1 then
    each [RegKind.OCT_CRN_CNT_FWD, .OCT_CRN_CNT_XFER, .OCT_CRN_CNT_RETURN, .OCT_CRN_CNT_BOUNCE, .OCT_CRN_CNT_ABSORBED]
      fun c => rstReg c o
  else pure ()

end Sys2Proof.Machine
end

