-- ==== Sys2Proof/Machine/Plaza.lean ====
section
/-!
DEFINITION. The Plaza (07_plaza_enqueue_policing.md): slots and commit, policing, admission, multicast, spill, egress
push and slot return; and the wake of a queue in the scheduling tree (R200-R202).
-/
namespace Sys2Proof.Machine

/-- The TM counters in register order (R195). -/
abbrev tmCOMMIT : Nat := 0
abbrev tmADMIT : Nat := 1
abbrev tmNOP : Nat := 2
abbrev tmGREEN : Nat := 3
abbrev tmYELLOW : Nat := 4
abbrev tmRED : Nat := 5
abbrev tmDROP_DOCKET : Nat := 6
abbrev tmDROP_NO_QUEUE : Nat := 7
abbrev tmDROP_FLOW : Nat := 8
abbrev tmDROP_POLICE : Nat := 9
abbrev tmDROP_WRED : Nat := 10
abbrev tmDROP_LIMIT : Nat := 11
abbrev tmDROP_SPILL : Nat := 12
abbrev tmDROP_BUF : Nat := 13
abbrev tmDROP_FLUSH : Nat := 14
abbrev tmSPILL_PKT : Nat := 15
abbrev tmRX_WAIT : Nat := 16
abbrev tmMC_SKIP : Nat := 17
abbrev tmMC_EMPTY : Nat := 18
abbrev tmEGRESS_LOST : Nat := 19
abbrev tmLD_MISS : Nat := 20

/-- A TM counter counts. -/
def tmInc (c : Nat) : P Unit := inc (TM_CNT_COUNT c)

/-- Device time in nanoseconds (R208). -/
def Mach.tns (m : Mach) : Nat := m.tb.sec * 1000000000 + m.tb.ns

/-- The traffic manager's copy of the time base, in half nanoseconds: it is stepped at each cycle of the 2.0 GHz core clock
(R209). -/
def Mach.tmT (m : Mach) : Nat := 2 * m.tns + m.tmSub

/-- TIME64 as the traffic manager reads it from its copy (R208, R209). -/
def Mach.tm64 (m : Mach) : Nat := m.tmT / 2 % 2 ^ 64

/-- A TM event (R194): its slice in byte 12. -/
def tmEv (sev code slice : Nat) : EvRec := (ev 5 sev code).onSlice slice

/-! Slots (R173-R178). -/

/-- The slot rings of a VCS's slices, ascending (R169, R170). -/
def vcsRings (m : Mach) (v : Nat) : List Nat := (vcsSlices m v).filter (fun s => s < m.g TM_CARVE_SLOT_RINGS)

/-- The slots of a ring that are not FREE. -/
def usedSlots (m : Mach) (s : Nat) : List (Nat × Slot) := m.slot.filter (fun e => e.1 / 4096 = s && e.2.st ≠ 0)

/-- Whether every slot of a ring is FREE (TM_SRING_STATUS.IDLE). -/
def sringIdle (m : Mach) (s : Nat) : Bool := (usedSlots m s).isEmpty

/-- TM_SRING_STATUS as it stands. -/
def sringStatus (m : Mach) (s : Nat) : Nat :=
  m.g (TM_SRING_STATUS_RETURNED s) +
    ((usedSlots m s).filter (fun e => e.2.st = 1 || e.2.st = 2)).length * 2 ^ 32 + (if sringIdle m s then 2 ^ 45 else 0)

/-- TM_SRING_BOBBINS as it stands. -/
def sringHeld (m : Mach) (s : Nat) : Nat := (usedSlots m s).foldl (fun a e => a + e.2.bobs.length) 0

/-- The index of a ring's head slot (R175). -/
def headIdx (m : Mach) (s : Nat) : Nat := m.g (TM_SRING_STATUS_RETURNED s) % 4096

/-- The line of a slot, zeros where it has not arrived. -/
def slotLine (x : Slot) (n : Nat) : List Word := ((x.lines.find? (fun e => e.1 = n)).map (·.2)).getD (List.replicate 8 0#64)

/-- The 16 bytes of a Docket as a number (Table 7.1). -/
def docketOf (x : Slot) : Nat :=
  let l := slotLine x 0
  (l.getD 0 0#64).toNat + (l.getD 1 0#64).toNat * 2 ^ 64

/-- Fields of a Docket (Table 7.1). -/
def dkLEN (d : Nat) : Nat := bitsAt d 0 14
def dkCOLOUR (d : Nat) : Nat := bitsAt d 14 2
def dkQUEUE (d : Nat) : Nat := bitsAt d 16 15
def dkMCAST (d : Nat) : Bool := bitsAt d 31 1 = 1
def dkFLOW (d : Nat) : Nat := bitsAt d 32 20
def dkGROUP (d : Nat) : Nat := bitsAt d 52 12
def dkMETER (d : Nat) : Bool := bitsAt d 64 1 = 1
def dkNOP (d : Nat) : Bool := bitsAt d 65 1 = 1
def dkUSER (d : Nat) : Nat := bitsAt d 96 32

/-- A Docket that R174 calls invalid: LENGTH 0 or above 16,368, or a reserved bit set. -/
def dkInvalid (d : Nat) : Bool := dkLEN d = 0 || 16368 < dkLEN d || bitsAt d 66 30 ≠ 0

/-- The lines and bobbins that a valid Docket's packet needs (R174). -/
def dkLines (d : Nat) : Nat := (16 + dkLEN d + 63) / 64
def dkBobbins (d : Nat) : Nat := (16 + dkLEN d + 255) / 256

/-- Whether a FILLING slot meets the commit condition (R174). -/
def slotCommits (x : Slot) : Bool :=
  x.lines.any (fun e => e.1 = 0) &&
    (let d := docketOf x
     dkNOP d || dkInvalid d || (List.range (dkLines d)).all (fun n => x.lines.any (fun e => e.1 = n)))

/-- SLOT_TIMEOUT, the first after the counters were cleared (Table 7.7). -/
def slotTimeoutEv (s : Nat) : P Unit := do
  let seen ← getSlotTmo
  onlyIf (seen = false) (do
    putSlotTmo true
    raise ((tmEv 0 0x0581 s).b24 s))

/-- The stack that holds a bobbin: the lower half of the numbers lies in PLZ0 (PRESUMED, notes/assumptions/46.md). -/
def bobStack (b : Nat) : Nat := if b < 201326592 then 0 else 1

/-- A bobbin is retired (R366): it leaves the shared pool, unless the list is full. -/
def bobRetire (b : Nat) : P Unit := do
  let m ← getM
  if m.g INT_RETIRE_STATUS_COUNT < 8192 then
    putRetire b 2
    modPfree fun f => { f with back := f.back.filter (· ≠ b) }
    inc INT_RETIRE_STATUS_COUNT
    sub TM_STATUS_SHARED_FREE 1
    let m ← getM
    onlyIf (m.g INT_RETIRE_STATUS_COUNT = 8192) (wr INT_RETIRE_STATUS_FULL 1)
  else
    putRetire b 0
    onlyIf (m.retFull = false) (do
      putRetFull true
      raise (memEv 2 0x0C88 9 0 (bobStack b) b))

/-- Bobbins return to the free list; those to be retired are, and stay off it (R366). -/
def bobFree (l : List Nat) : P Unit := each l fun b => do
  let m ← getM
  onlyIf (m.getRetire b = 1) (bobRetire b)
  let m ← getM
  onlyIf (m.getRetire b ≠ 2) (modPfree fun f => { f with back := f.back ++ [b] })

/-- The first bobbin from `b` on that is not retired, looking at `f` of them. -/
def notRetired (m : Mach) : Nat → Nat → Nat
  | 0, b => b
  | f + 1, b => if m.getRetire b = 2 then notRetired m f (b + 1) else b

/-- A bobbin of the free list (R175), which holds every bobbin of the two stacks that is neither in use nor retired. The
order is the model's choice (log entry 120). -/
def bobNext : P Nat := do
  let m ← getM
  let b := notRetired m m.retire.length m.pfree.next
  if b < 402653184 then
    putPfree { m.pfree with next := b + 1 }
    return b
  else
    putPfree { m.pfree with next := b, back := m.pfree.back.drop 1 }
    return m.pfree.back.headD 0

/-- Whether a bobbin is on the free list. -/
def bobIsFree (m : Mach) (b : Nat) : Bool :=
  decide (m.getRetire b ≠ 2) && (decide (m.pfree.next ≤ b) || m.pfree.back.contains b)

/-- A write to a slot is discarded and counted (Table 7.2). -/
def slotDiscard (s slot : Nat) (overrun : Bool) : P Unit := do
  inc (TM_SRING_CNT_DISCARD_WR s)
  let x ← getSrx s
  onlyIf (overrun = true ∧ x.overrun = false) (do
    putSrx s { x with overrun := true }
    raise ((tmEv 2 0x0582 s).h24 slot))

/-- A line with only the enabled bytes of a write, others 0 (R171). -/
def maskBytes (mask : Nat) (l : List Word) : List Word :=
  l.zipIdx.map fun e => w64 ((List.range 8).foldl (fun a b =>
    if bitsAt mask (8 * e.2 + b) 1 = 1 then a + bitsAt e.1.toNat (8 * b) 8 * 2 ^ (8 * b) else a) 0)

/-- A line arrives in slot `slot` of ring `s` (Table 7.2, R174, R175). -/
def slotWrite (s slot line mask : Nat) (data : List Word) (poison : Bool) : P Unit := do
  let m ← getM
  let key := s * 4096 + slot
  let x := m.getSlot key
  if x.st = 0 ∧ m.g (TM_SRING_CTL_ENABLE s) = 0 then slotDiscard s slot false
  else if 2 ≤ x.st then slotDiscard s slot true
  else
    let pos := line / 4
    let new := !x.bobs.any (fun b => b.1 = pos)
    let bob ← (if new then bobNext else return 0)
    let x' : Slot := { x with
      st := 1, lines := x.lines.filter (fun e => e.1 ≠ line) ++ [(line, maskBytes mask data)],
      bobs := if new then x.bobs ++ [(pos, bob)] else x.bobs,
      bad := x.bad.filter (· ≠ line) ++ (if poison then [line] else []) }
    if slotCommits x' then
      let d := docketOf x'
      let n := if dkNOP d || dkInvalid d then 0 else dkBobbins d
      let extra := (x'.bobs.filter (fun b => n ≤ b.1)).length
      tmInc tmCOMMIT
      onlyIf (n ≠ 0) (do
        addSat (TM_SRING_CNT_EXCESS s) extra
        bobFree ((x'.bobs.filter (fun b => n ≤ b.1)).map (·.2)))
      putSlot key { x' with st := 2, bobs := if n = 0 then x'.bobs else x'.bobs.filter (fun b => b.1 < n),
                            time := m.tm64 }
    else putSlot key x'

/-- The completion of a CXL.mem access to the Plaza logical device of a VCS: zeros for a read (R171). -/
def ldAnswer (v tag addr : Nat) (read : Bool) : P Unit := do
  let m ← getM
  xsend { op := if read then .memData else .cmp, cls := s2mCls m (vcsPort m v) read, inp := epTM, out := vcsPort m v,
          agent := (m.getVcs v).agent, addr := addr, tag := tag, len := if read then 80 else 16,
          data := if read then List.replicate 8 0#64 else [] }

/-- A read of the Plaza logical device, or a write in its rounding gap (R171). -/
def ldMiss (v dpa tag : Nat) (read : Bool) : P Unit := do
  countFirst (TM_CNT_COUNT tmLD_MISS) ((ev 5 0 0x0588).at dpa)
  ldAnswer v tag dpa read

/-- SLOT_LINE_WRITE: a write to the Plaza logical device of VCS `v` at DPA `dpa` (R170, R171); `mask` holds its byte
enables. -/
def slotLineWrite (v dpa tag mask : Nat) (data : List Word) (poison : Bool) : P Unit := do
  match (vcsRings (← getM) v)[dpa / 2 ^ 26]? with
  | some s => do
    slotWrite s (bitsAt dpa 14 12) (bitsAt dpa 6 8) mask data poison
    ldAnswer v tag dpa false
  | none => ldMiss v dpa tag false

/-- A slot becomes DONE by timeout or skip: it counts as LOST and frees its bobbins (R175, R178). -/
def slotLost (s slot : Nat) : P Unit := do
  let x ← getSlot (s * 4096 + slot)
  bobFree (x.bobs.map (·.2))
  putSlot (s * 4096 + slot) { st := 3 }
  modSrx s fun x => { x with lost := x.lost + 1 }
  slotTimeoutEv s

/-- SLOT_FILL_TIMEOUT (R175). -/
def slotFillTimeout (s slot : Nat) : P Unit := do
  let m ← getM
  if (m.getSlot (s * 4096 + slot)).st = 1 then
    inc (TM_SRING_CNT_TIMEOUTS s)
    slotLost s slot

/-- SLOT_HEAD_TIMEOUT: the FREE head of a ring with a later slot in use (R175). -/
def slotHeadTimeout (s : Nat) : P Unit := do
  let m ← getM
  let h := headIdx m s
  if (m.getSlot (s * 4096 + h)).st = 0 ∧ sringIdle m s = false then
    inc (TM_SRING_CNT_SKIPPED s)
    slotLost s h

/-- A return record is written to the producer (R178, Table 7.3). -/
def returnRecord (s : Nat) : P Unit := do
  let m ← getM
  let x := m.getSrx s
  if m.g (TM_SRING_RET_ADDR s) ≠ 0 ∧ x.since ≠ 0 then
    putSrx s { x with since := 0 }
    let v := m.g (TEN_STATUS_VCS s)
    xsend { op := .ioWr, cls := 4, inp := epTM, out := vcsPort m v, addr := m.g (TM_SRING_RET_ADDR s) * 64, len := 80,
            slice := s, x := [0xFFFF, m.g (TEN_STATUS_PASID s), 0, v],
            data := [w64 (m.g (TM_SRING_STATUS_RETURNED s) + x.admitted % 2 ^ 32 * 2 ^ 32),
                     w64 (x.dropped % 2 ^ 32 + x.lost % 2 ^ 32 * 2 ^ 32), w64 m.tm64,
                     0#64, 0#64, 0#64, 0#64, 0#64] }

/-- SLOT_RETURN: the DONE head becomes FREE (R175, R178). -/
def slotReturn (s : Nat) : P Unit := do
  let m ← getM
  let h := headIdx m s
  if (m.getSlot (s * 4096 + h)).st = 3 then
    putSlot (s * 4096 + h) {}
    addWrap (TM_SRING_STATUS_RETURNED s) 1
    modSrx s fun x => { x with since := x.since + 1 }
    let x ← getSrx s
    onlyIf (m.g (TM_SRING_CTL_RET_EVERY s) ≤ x.since) (returnRecord s)

/-! Policing (R179-R182). -/

/-- The outcome of one meter update: the new buckets and time of last credit, and the colour. -/
structure MeterOut where
  tc : Nat
  tp : Nat
  last : Nat
  colour : Nat
  deriving DecidableEq, Repr

/-- The credit of a context at `now8` (R181): TC, TP, LAST. -/
def meterCredit (typ cir pir cbs pbs tc tp last now8 : Nat) : Nat × Nat × Nat :=
  let dt := (now8 + 2 ^ 32 - last % 2 ^ 32) % 2 ^ 32
  let addC := cir * dt * 8 / 1000000
  let tc' := Nat.min cbs (tc + addC)
  let tp' := if typ = 1 then Nat.min pbs (tp + pir * dt * 8 / 1000000) else Nat.min pbs (tp + (tc + addC - tc'))
  (tc', tp', if tc' = cbs ∧ tp' = pbs then now8 else (last + (addC * 125000 + cir - 1) / cir) % 2 ^ 32)

/-- One meter update with metered length `l` and incoming colour (R180; RFC 2697, RFC 2698). -/
def meterStep (typ : Nat) (aware : Bool) (cir pir cbs pbs tc tp last now8 l colour : Nat) : MeterOut :=
  let (c, p, t) := meterCredit typ cir pir cbs pbs tc tp last now8
  let pre := if aware = false ∨ colour = 3 then 0 else colour
  if typ = 1 then
    if pre = 2 ∨ p < l then ⟨c, p, t, 2⟩
    else if pre = 1 ∨ c < l then ⟨c, p - l, t, 1⟩
    else ⟨c - l, p - l, t, 0⟩
  else
    if pre = 0 ∧ l ≤ c then ⟨c - l, p, t, 0⟩
    else if pre ≤ 1 ∧ l ≤ p then ⟨c, p - l, t, 1⟩
    else ⟨c, p, t, 2⟩

/-- Fields of a flow context (Table 7.4). -/
def flSLICE (m : Mach) (f : Nat) : Nat := m.g (FLW_W1_SLICE f)
def flVALID (m : Mach) (f : Nat) : Bool := m.g (FLW_W1_VALID f) = 1
def flPROFILE (m : Mach) (f : Nat) : Nat := m.g (FLW_W1_PROFILE f)

/-- Device time in units of 8 ns, modulo 2^32 (R181). -/
def now8 (m : Mach) : Nat := m.tm64 / 8 % 2 ^ 32

/-- Context `f` with new buckets and LAST. -/
def flowPut (f tc tp last : Nat) : P Unit := do
  wr (FLW_W0_TC f) tc
  wr (FLW_W0_TP f) tp
  wr (FLW_W1_LAST f) last

/-- A packet or a POL item of `len` bytes and colour `colour` is metered against context `f`; the answer is its new
colour (R180-R182). -/
def meterFlow (f len colour : Nat) : P Nat := do
  let m ← getM
  let n := flPROFILE m f
  let l := ((len : Int) + toSigned 8 (m.g (TM_MPROF_ADJ n))).toNat
  let o := meterStep (m.g (TM_MPROF_TYPE n)) (m.g (TM_MPROF_AWARE n) = 1) (m.g (TM_MPROF1_CIR n)) (m.g (TM_MPROF1_PIR n))
    (m.g (TM_MPROF2_CBS n)) (m.g (TM_MPROF2_PBS n)) (m.g (FLW_W0_TC f)) (m.g (FLW_W0_TP f)) (m.g (FLW_W1_LAST f))
    (now8 m) l colour
  flowPut f o.tc o.tp o.last
  return o.colour

/-- METER_SWEEP: the background sweep credits a VALID context (R181). -/
def meterSweep (f : Nat) : P Unit := do
  let m ← getM
  if flVALID m f then
    let n := flPROFILE m f
    let (c, p, t) := meterCredit (m.g (TM_MPROF_TYPE n)) (m.g (TM_MPROF1_CIR n)) (m.g (TM_MPROF1_PIR n))
      (m.g (TM_MPROF2_CBS n)) (m.g (TM_MPROF2_PBS n)) (m.g (FLW_W0_TC f)) (m.g (FLW_W0_TP f)) (m.g (FLW_W1_LAST f))
      (now8 m)
    flowPut f c p t

/-! The tree's active lists (R200-R202). -/

/-- Keys of the active lists. -/
def actB (b : Nat) : Nat := b
def actC (c p : Nat) : Nat := 4096 + c * 8 + p
def actP (v : Nat) : Nat := 8192 + v

/-- The egress port's index: its VCS (R196). -/
def egressIdx (m : Mach) (c : Nat) : Option Nat := upVcs m (m.g (TM_CH_CFG_PORT c))

/-- The packets that a queue holds for the scheduler, the Plaza part before the spill part (R189). -/
def backlog (m : Mach) (q : Nat) : List Pkt := (m.getTq q).pkts ++ (m.getTq q).spill

/-- The place in a list at which the next selection begins (R199): that of the child that holds the turn, or the place
from which the last holder left. -/
def ActList.start (x : ActList) : Nat :=
  match x.turn with
  | some t => x.l.findIdx (· = t)
  | none => x.place

/-- Child `a` is inserted so that it is reached next, right after the child that holds the turn (R201). -/
def ActList.insertNext (x : ActList) (a : Nat) : ActList :=
  let i := if x.turn.isSome then x.start + 1 else x.start
  { x with l := x.l.take i ++ a :: x.l.drop i }

/-- Child `a` is inserted at the start of the list, behind the place that a selection has reached (R201). -/
def ActList.insertFirst (x : ActList) (a : Nat) : ActList :=
  { x with l := a :: x.l, place := if x.turn.isSome then x.place else x.place + 1 }

/-- Child `a` joins at the end of the list (R200, R202). -/
def ActList.append (x : ActList) (a : Nat) : ActList := if a ∈ x.l then x else { x with l := x.l ++ [a] }

/-- A child leaves an active list. Where it held the turn, the next selection goes on from its place (R199); that it does is
the model's reading (log entry 146). -/
def ActList.leave (x : ActList) (a : Nat) : ActList :=
  let i := x.l.findIdx (· = a)
  { l := x.l.filter (· ≠ a), turn := if x.turn = some a then none else x.turn,
    place := if x.turn = some a then i else if i < x.place then x.place - 1 else x.place }

/-- The priority at which bundle `b` is listed: the one it had until a selection in its channel has moved it (R207). -/
def listPrio (m : Mach) (b : Nat) : Nat :=
  ((m.bmove.find? (·.1 = b)).map (·.2)).getD (m.g (TM_BND_CFG_PRIORITY b))

/-- A queue that becomes backlogged joins its bundle's list by its channel's start rule, and the bundle and the channel
join theirs at the end (R200-R202). -/
def queueWake (q : Nat) : P Unit := do
  let m ← getM
  let b := m.g (TM_QSCH_BUNDLE q)
  let c := m.g (TM_BND_CFG_CHANNEL b)
  let round := m.g (TM_BND_ST_ROUND b)
  let last := m.g (TM_QSCH_ST_LAST_ROUND q)
  let a := m.getAct (actB b)
  if q ∈ a.l then pure ()
  else
    if m.g (TM_CH_CFG_START c) = 0 then
      putAct (actB b) (if last ≠ round then a.insertNext q else a.insertFirst q)
    else
      wr (TM_QSCH_ST_DEFICIT q)
        (Nat.min (m.g (TM_QSCH_BURST q) * 64) (m.g (TM_QSCH_QUANTUM q) * idxDiff round last))
      putAct (actB b) (a.append q)
    modAct (actC c (listPrio m b)) (·.append b)
    match egressIdx m c with
    | some v => modAct (actP v) (·.append c)
    | none => pure ()

/-- A queue that has become empty leaves its list, and with it every element that has no backlog below it; their
deficits become 0 (R200-R202). -/
def queueIdle (q : Nat) : P Unit := do
  let m ← getM
  let b := m.g (TM_QSCH_BUNDLE q)
  let c := m.g (TM_BND_CFG_CHANNEL b)
  if backlog m q = [] then
    wr (TM_QSCH_ST_DEFICIT q) 0
    wr (TM_QSCH_ST_NOFIT q) 0
    wr (TM_QSCH_ST_LAST_ROUND q) (m.g (TM_BND_ST_ROUND b))
    modAct (actB b) (·.leave q)
    if (← getAct (actB b)).l = [] then
      wr (TM_BND_ST_DEFICIT b) 0
      modAct (actC c (listPrio m b)) (·.leave b)
      modBmove (·.filter (·.1 ≠ b))
      let k ← getM
      if (List.range 8).all (fun i => (k.getAct (actC c i)).l.isEmpty) then
        wr (TM_CH_ST_DEFICIT c) 0
        match egressIdx k c with
        | some v => modAct (actP v) (·.leave c)
        | none => pure ()

/-! Enqueue (R184-R188) and spill (R189, R190). -/

/-- A spill access to a line (R190): by CXL.mem to the port that the fabric memory decoders give for its own address (R114,
R115). Where no committed decoder claims it, a write is discarded and a read ends with poison (R117). -/
def spillAccess (line : Nat) (write : Option (List Word × Bool)) : P Unit := do
  match fmdPort (← getM) (line * 64), write with
  | some d, some (ws, bad) =>
    xsend { op := .memWr, cls := 3, inp := epTM, out := d, addr := line * 64, tag := line, len := 80, data := ws, poison := bad,
            x := [0x5B] }
  | some d, none =>
    xsend { op := .rdI, cls := 2, inp := epTM, out := d, addr := line * 64, tag := line, len := 16, x := [0x5B] }
  | none, w => do
    sqMiss (homeSq (line * 64)) (line * 64) 0xFF
    onlyIf (w = none) (spillLanded line zeroLine true)

/-- A packet goes to the tail page of its queue's spill part, its bobbins back to back, Docket included; its Plaza bobbins are
freed (R189, R190). Only the lines that it fills are written (log entry 145). -/
def spillPut (q : Nat) (p : Pkt) : P Unit := do
  let m ← getM
  if (m.getTq q).spilling = false then
    onlyIf (m.g TM_SPILL_STATUS_QUEUES = 0) (raise ((tmEv 0 0x0584 p.slice).h24 q))
    inc TM_SPILL_STATUS_QUEUES
  let place ← pageTake q p.bobbins
  let p' : Pkt := { p with spilled := true, shared := 0, place := place }
  bobFree p.bobs
  modTq q fun x => { x with spill := x.spill ++ [p'], spilling := true }
  each (List.range p.lines) fun i =>
    spillAccess (spillLine m p' + i) (some ((p.words.drop (8 * i)).take 8, p.bad.contains i))

/-- The reads of the spilled packet that channel `c` has selected are issued once its tokens are there, which the spec lets
come at any time (R190, log entry 2). -/
def spillAsk (c : Nat) : P Unit := do
  let tokens ← freeBits 1
  let m ← getM
  match m.getPush c with
  | p :: _ => onlyIf (p.spilled = true ∧ p.asked = false ∧ tokens = 1) (do
      let l := (List.range p.lines).map (spillLine m p + ·)
      putPush c [{ p with asked := true, reads := l, bad := [] }]
      each l fun n => spillAccess n none)
  | [] => pure ()

/-- The attributes of a packet of slice `s` (Table 17.8): its host's port, and the class of its writes. -/
def packetAt (m : Mach) (s : Nat) : PmuAt where
  slice := some s
  vcs := some (m.g (TEN_STATUS_VCS s))
  port := some (vcsPort m (m.g (TEN_STATUS_VCS s)))
  cls := some (if m.g (TM_SRING_CTL_HIGH s) = 1 then 5 else 6)

/-- A drop at the enqueue: its bobbins are freed, and it is counted, also in the queue's own drops where it names one (Table 7.5). -/
def enqDrop (s c : Nat) (q : Option Nat) (bobs : List Nat) : P Unit := do
  tmInc c
  let m ← getM
  pmuCount 0x0C 1 (packetAt m s)
  bobFree bobs
  modSrx s fun x => { x with dropped := x.dropped + 1 }
  match q with
  | some q => inc (TM_QSTAT_DROPS q)
  | none => pure ()

/-- DOCKET_INVALID, the first after the counters were cleared: slot and reason (Table 7.7). The spec gives the reason no
codes: it is a free value. -/
def docketInvalid (s slot c : Nat) (bobs : List Nat) : P Unit := do
  let m ← getM
  onlyIf (m.g (TM_CNT_COUNT tmDROP_DOCKET) + m.g (TM_CNT_COUNT tmDROP_NO_QUEUE) = 0)
    (do
      let reason ← freeBits 8
      raise (((tmEv 0 0x0583 s).h24 slot).b26 reason))
  enqDrop s c none bobs

/-- WRED's drop test (R184); the LFSR's value is free. -/
def wredDrop (m : Mach) (p avg : Nat) : P Bool := do
  let lo := m.g (TM_WRED_MIN_TH p) * 256
  let hi := m.g (TM_WRED_MAX_TH p) * 256
  if p = 0 ∨ avg < lo then return false
  else if hi ≤ avg then return true
  else
    let r ← freeBits 16
    return decide (r < m.g (TM_WRED1_MAX_P p) * (avg - lo) * 256 / (hi - lo))

/-- The packet is linked behind its queue's tail (R186); a queue that had none wakes. -/
def enqLink (q : Nat) (p : Pkt) (spill : Bool) : P Unit := do
  let m ← getM
  let idle := decide (backlog m q = [])
  if spill then
    tmInc tmSPILL_PKT
    spillPut q p
  else
    sub TM_STATUS_SHARED_FREE p.shared
    modTq q fun x => { x with pkts := x.pkts ++ [p] }
  tmInc tmADMIT
  pmuCount 0x0B 1 (packetAt m p.slice)
  addSat (TM_QOCC_OCC q) p.bobbins
  inc (TM_QOCC_PKTS q)
  modSrx p.slice fun x => { x with admitted := x.admitted + 1 }
  onlyIf (idle = true) (queueWake q)

/-- Admission of a packet that has passed its checks and policing (R184). -/
def admitPkt (s : Nat) (p : Pkt) : P Unit := do
  let m ← getM
  let q := p.queue
  let prof := match p.colour with
    | 1 => m.g (TM_QPOL_WRED_Y q) | 2 => m.g (TM_QPOL_WRED_R q) | _ => m.g (TM_QPOL_WRED_G q)
  let occ := m.g (TM_QOCC_OCC q)
  let need := p.bobbins
  let old := m.g (TM_QSTAT_AVG q)
  let avg := ((old : Int) + ((occ * 256 : Int) - (old : Int)) / (2 ^ m.g (TM_WRED1_W prof) : Int)).toNat
  wr (TM_QSTAT_AVG q) avg
  let tokens ← freeBits 1
  let canSpill := spillRoom m q need && decide (tokens = 1)
  let shared := need - (m.g (TM_QCFG_MIN q) - occ)
  let free := m.g TM_STATUS_SHARED_FREE
  let drop ← wredDrop m prof avg
  if drop then enqDrop s tmDROP_WRED (some q) p.bobs
  else if m.g (TM_QCFG_LIMIT q) < occ + need then enqDrop s tmDROP_LIMIT (some q) p.bobs
  else if (m.getTq q).spilling then
    if canSpill then enqLink q p true
    else do
      onlyIf (m.g (TM_CNT_COUNT tmDROP_SPILL) = 0) (raise (tmEv 2 0x0585 s))
      enqDrop s tmDROP_SPILL (some q) p.bobs
  else if 0 < shared ∧ m.g (TM_QPOL_SPILL_EN q) = 1 ∧ (free : Int) - shared < m.g TM_SPILL_CTL_ON_FREE ∧ canSpill = true
  then enqLink q p true
  else if shared ≤ free then enqLink q { p with shared := shared } false
  else enqDrop s tmDROP_BUF (some q) p.bobs

/-- ENQUEUE: the enqueue takes the committed head slot of ring `s` (R176, R184, R185). -/
def enqueue (s : Nat) : P Unit := do
  let m ← getM
  let h := headIdx m s
  let key := s * 4096 + h
  let x := m.getSlot key
  if x.st = 2 then
    putSlot key { st := 3 }
    let d := docketOf x
    let bobs := x.bobs.map (·.2)
    if dkInvalid d = true ∧ dkNOP d = false then docketInvalid s h tmDROP_DOCKET bobs
    else if dkNOP d then do
      tmInc tmNOP
      bobFree bobs
    else
      let g := dkGROUP d
      let q := if dkMCAST d then m.g (TM_GRP_QUEUE g) else dkQUEUE d
      if (dkMCAST d = true ∧ m.g (TM_GRP_VALID g) = 0) ∨ m.g (TM_QPOL_VALID q) = 0 ∨
          (m.g (TM_QPOL_OPEN q) = 0 ∧ m.g (TM_QPOL_OWNER q) ≠ s) then docketInvalid s h tmDROP_NO_QUEUE bobs
      else if dkMETER d = true ∧ (flVALID m (dkFLOW d) = false ∨ flSLICE m (dkFLOW d) ≠ s) then
        enqDrop s tmDROP_FLOW none bobs
      else
        let n := flPROFILE m (dkFLOW d)
        let colour ← (if dkMETER d then do
            let c ← meterFlow (dkFLOW d) (dkLEN d) (dkCOLOUR d)
            tmInc (if c = 0 then tmGREEN else if c = 1 then tmYELLOW else tmRED)
            return c
          else return (if dkCOLOUR d = 3 then 0 else dkCOLOUR d))
        if dkMETER d = true ∧ ((colour = 2 ∧ m.g (TM_MPROF_DROP_R n) = 1) ∨ (colour = 1 ∧ m.g (TM_MPROF_DROP_Y n) = 1))
        then enqDrop s tmDROP_POLICE none bobs
        else
          let bob (pos : Nat) : Nat := ((x.bobs.find? (fun b => b.1 = pos)).map (·.2)).getD 0
          admitPkt s { len := dkLEN d, colour := colour, queue := q, mcast := dkMCAST d, flow := dkFLOW d, group := g,
                       user := dkUSER d, slice := s, bobbins := dkBobbins d, shared := 0,
                       data := ((List.range (dkLines d)).flatMap (slotLine x)).drop 2, first := bob 0,
                       last := bob (dkBobbins d - 1), bobs := (List.range (dkBobbins d)).map bob, spilled := false,
                       bad := x.bad.filter (· < dkLines d), time := x.time, docket := d }

/-- A packet's bobbins are freed, and its queue's occupancy falls (R186, R183). -/
def pktFree (p : Pkt) : P Unit := do
  sub (TM_QOCC_OCC p.queue) p.bobbins
  sub (TM_QOCC_PKTS p.queue) 1
  addSat TM_STATUS_SHARED_FREE p.shared
  onlyIf (p.spilled = false) (bobFree p.bobs)

/-- An empty spill part ends SPILLING (R189). -/
def spillEnds (q : Nat) : P Unit := do
  let x ← getTq q
  if x.spill = [] ∧ x.spilling then
    putTq q { x with spilling := false }
    sub TM_SPILL_STATUS_QUEUES 1

/-- Both parts of queue `q` are emptied; the pages of its spilled packets are freed (R187, R189). -/
def queueDrop (q : Nat) : P Unit := do
  let x ← getTq q
  each x.spill fun p => pageLeave q p.place p.bobbins
  modTq q fun y => { y with pkts := [], spill := [] }
  spillEnds q

/-- FLUSH_QUEUE: every packet linked to queue `q` is dropped (R187). -/
def flushQueue (q : Nat) : P Unit := do
  let m ← getM
  let l := backlog m q
  wr TM_CMD_STATUS_BUSY 1
  wr TM_CMD_STATUS_FLUSHED l.length
  addSat (TM_CNT_COUNT tmDROP_FLUSH) l.length
  queueDrop q
  each l pktFree
  onlyIf (l ≠ []) (queueIdle q)

/-! Egress push (R191-R193). -/

/-- Bytes of a receive buffer of ring `r`. -/
def rxBuf (m : Mach) (r : Nat) : Nat := 2 ^ (11 + m.g (TM_RXB_BUF r))

/-- The slots that a packet takes in receive ring `r` (R191). -/
def rxSlots (m : Mach) (r : Nat) (p : Pkt) : Nat := Nat.max 1 ((p.len + rxBuf m r - 1) / rxBuf m r)

/-- PAD slots before an entry of `n` slots (R228). -/
def padSlots (m : Mach) (r n : Nat) : Nat :=
  let i := m.g (RNG_IDX_PROD r) % ringSize m r
  if ringSize m r < i + n then ringSize m r - i else 0

/-- Whether receive ring `r` can take part in a push: RUNNING, of type receive, with a data area (R191, R244). -/
def rxValid (m : Mach) (r : Nat) : Bool :=
  m.g (RNG_CFG_VALID r) = 1 && m.g (RNG_CFG_TYPE r) = 2 && m.g (RNG_STATUS_STATE r) = rsRUNNING && m.g (TM_RXB_VALID r) = 1

/-- Whether a receive ring has room for a packet, PAD included. -/
def rxRoom (m : Mach) (r : Nat) (p : Pkt) : Bool :=
  let n := rxSlots m r p
  n + padSlots m r n ≤ ringFree m r

/-- The egress port of a receive ring: the upstream port of its slice's VCS. -/
def rxPort (m : Mach) (r : Nat) : Nat := vcsPort m (m.g (TEN_STATUS_VCS (m.g (RNG_CFG_SLICE r))))

/-- One packet is written to receive ring `r` in class `cls` with tag `steer`: PAD where the entry would cross the end,
the data in writes of at most 256 bytes, each with EP where a codeword in it is poisoned, then the first slot of the
entry (R192, Table 7.6, Table 14.2). -/
def rxPut (r cls steer : Nat) (p : Pkt) (mc : Bool) : P Unit := do
  let m0 ← getM
  let n := rxSlots m0 r p
  let pad := padSlots m0 r n
  let send (ws : List Word) (addr len : Nat) (kind : Nat) (ep : Bool) : P Unit := do
    let m ← getM
    let v := m.g (TEN_STATUS_VCS (m.g (RNG_CFG_SLICE r)))
    xsend { ringMsg m epTM r addr ws cls ep with
            len := len, x := [r, m.g (TEN_STATUS_PASID (m.g (RNG_CFG_SLICE r))), steerFor m v steer, v, kind] }
    modRing r fun x => { x with inFlight := x.inFlight + 1 }
  if 0 < pad then
    send ([w64 (entryHdr m0 r (m0.g (RNG_IDX_PROD r)) pad 0)] ++ List.replicate 7 0#64)
      (slotAddr m0 r (m0.g (RNG_IDX_PROD r))) 80 0 false
    addWrap (RNG_IDX_PROD r) pad
  let m ← getM
  let i := m.g (RNG_IDX_PROD r)
  each (List.range ((p.len + 255) / 256)) fun k => do
    let n := Nat.min 256 (p.len - 256 * k)
    send ((p.data.drop (32 * k)).take ((n + 7) / 8))
      (m.g (TM_RXB_DATA_IOVA r) * 4096 + i % ringSize m r * rxBuf m r + 256 * k) (16 + n) 1
      (p.bad.any (fun l => decide (256 * k ≤ 64 * l + 47 ∧ 64 * l ≤ 256 * k + 271)))
  let flags := p.colour + (if p.bad.isEmpty then 0 else 4) + (if p.spilled then 8 else 0) + (if mc then 16 else 0)
  send [w64 (entryHdr m r i n 0x41 + p.len * 2 ^ 16 + p.queue * 2 ^ 32 + flags * 2 ^ 48 + p.slice * 2 ^ 56),
        w64 (p.user + (p.flow + p.group * 2 ^ 20) * 2 ^ 32), w64 p.time, w64 m0.tm64, 0#64, 0#64, 0#64, 0#64]
    (slotAddr m r i) 80 2 false
  addWrap (RNG_IDX_PROD r) n
  inc (RNG_CNT_ENTRIES r)
  addWrap (TM_RXB1_PUSHED r) 1
  ringIrq epTM r cls false

/-- The receive rings of a multicast group's valid members among its first COUNT (R188): those whose valid bit is set. -/
def groupRings (m : Mach) (g : Nat) : List Nat :=
  (List.range (m.g (TM_GRP_COUNT g))).filterMap fun k =>
    let e := bitsAt (m.rd ⟨.TM_GRP_MEM, g * 16 + k / 4⟩).toNat (16 * (k % 4)) 16
    if bitsAt e 15 1 = 1 then some (bitsAt e 0 15) else none

/-- A queue is cut off after its head's lost next-pointer (R357): every later packet is dropped, and bobbins that can no
longer be reached are leaked. `extra` counts those of the head itself. -/
def queueCut (q extra : Nat) : P Unit := do
  let m ← getM
  let l := backlog m q
  addSat (TM_CNT_COUNT tmDROP_FLUSH) l.length
  addSat INT_LEAKED_BOBBINS (extra + l.foldl (fun a p => a + if p.spilled then 0 else p.bobbins) 0)
  queueDrop q
  wr (TM_QOCC_OCC q) 0
  wr (TM_QOCC_PKTS q) 0
  onlyIf (l ≠ []) (queueIdle q)

/-- The words of a packet with codeword 0 of the bobbin at position `n` and every bobbin behind it written as 0: the
bobbin at position `n` holds packet bytes 256 n - 16 on. -/
def pktReadable (p : Pkt) (n : Nat) : List Word :=
  p.data.zipIdx.map fun e =>
    let b := e.2 * 8 + 16
    if b < 256 * n ∨ (256 * n + 64 ≤ b ∧ b < 256 * n + 256) then e.1 else 0#64

/-- What a push finds in the codewords of its bobbins. Each that the decoder corrects (`fixed`: positions of bobbins) counts
(R371). The uncorrectable ones (position of the bobbin, codeword, cause) are recorded (R357, R366): codewords 1-3 create
poison; codeword 0 loses NEXT. The packet as it is pushed. -/
def pushErrors (c : Nat) (p : Pkt) (fixed : List Nat) (bad : List (Nat × Nat × Nat)) : P Pkt := do
  each (fixed.filter (fun i => i < p.bobs.length)) fun i => memCorrected 9 (bobStack (nth p.bobs i)) noObj
  let m ← getM
  let bad := bad.filter (fun e => e.1 < p.bobs.length)
  let port := m.g (TM_CH_CFG_PORT c)
  each (bad.filter (fun e => e.2.1 % 4 ≠ 0)) fun e => do
    let b := nth p.bobs e.1
    memPoisoned 9 e.2.2 (bobStack b) p.queue fun x => ((x.at (b * 256 + e.2.1 % 4 * 64)).onSlice p.slice).onPort port
  let cut := (bad.filter (fun e => e.2.1 % 4 = 0)).map (·.1)
  match cut with
  | i :: _ => do
    let b := nth p.bobs i
    memUncorrectable 9 ((bad.find? (fun e => e.1 = i)).map (·.2.2) |>.getD 1) (bobStack b) p.queue
      fun x => ((x.at (b * 256)).onSlice p.slice).onPort port
    queueCut p.queue (p.bobs.length - 1 - i)
  | [] => pure ()
  onlyIf (m.g INT_CTL_RETIRE_EN = 1) (each bad fun e => putRetire (nth p.bobs e.1) 1)
  let n := cut.head?
  return { p with bad := p.bad ++ bad.map (fun e => 4 * e.1 + e.2.1 % 4), data := match n with | some i => pktReadable p i | none => p.data,
                  bobs := match n with | some i => p.bobs.take (i + 1) | none => p.bobs,
                  bobbins := match n with | some i => i + 1 | none => p.bobbins,
                  shared := match n with | some i => Nat.min p.shared (i + 1) | none => p.shared }

/-- A push starts: the membership of a multicast packet's group is sampled (R188). -/
def pushStart (c : Nat) : P Unit := do
  let m ← getM
  match m.getPush c with
  | p :: _ => onlyIf (p.mcast = true ∧ p.rings = none) (putPush c [{ p with rings := some (groupRings m p.group) }])
  | [] => pure ()

/-- EGRESS_PUSH: the packet that channel `c` has selected is pushed once it is back from the spill region and its rings have
room (R188, R190, R192, R193). `fixed` and `bad` list the corrected and the uncorrectable codewords of its bobbins (R357).
A member whose ring is not running is skipped like one whose port is not UP (log entry 144). -/
def egressPush (c : Nat) (fixed : List Nat) (bad : List (Nat × Nat × Nat)) : P Unit := do
  pushStart c
  spillAsk c
  let m ← getM
  match m.getPush c with
  | [] => pure ()
  | p :: _ =>
    let cls := if m.g (TM_CHAN_EGR_HIGH c) = 1 then 5 else 6
    let steer := m.g (TM_CHAN_EGR_STEER c)
    let full (l : List Nat) : P Unit := onlyIf (m.g (TM_CHAN_EGR1_RX_WAIT c) = 0) (do
      tmInc tmRX_WAIT
      each l fun r => inc (RNG_CNT_STALLS r))
    let wait (rx ring port : Nat) : P Unit := do
      wr (TM_CHAN_EGR1_RX_WAIT c) rx
      wr (TM_CHAN_EGR1_RING_WAIT c) ring
      wr (TM_CHAN_EGR1_PORT_WAIT c) port
      wr (TM_CH_ST_PUSH_WAIT c) (if rx + ring + port = 0 then 0 else 1)
    let finish (p : Pkt) : P Unit := do
      wait 0 0 0
      putPush c []
      let m ← getM
      pmuCount 0x0D 1 { packetAt m p.slice with port := some (m.g (TM_CH_CFG_PORT c)), cls := some cls }
      pktFree p
    let errs : P Pkt := if p.spilled then pure p else pushErrors c p fixed bad
    if p.spilled = true ∧ (p.asked = false ∨ p.reads ≠ []) then do
      wait 0 0 0
      wr (TM_CH_ST_PUSH_WAIT c) 1
    else if p.mcast then
      let l := p.rings.getD []
      let up := l.filter (fun r => rxValid m r && portUp m (rxPort m r))
      if l = [] then do
        tmInc tmMC_EMPTY
        raise ((tmEv 0 0x0587 p.slice).h24 p.group)
        finish p
      else if up.any (fun r => !rxRoom m r p) then do
        full (up.filter (fun r => !rxRoom m r p))
        wait 1 0 0
      else do
        addSat (TM_CNT_COUNT tmMC_SKIP) (l.length - up.length)
        let p ← errs
        each up fun r => rxPut r cls steer p true
        finish p
    else
      let r := m.g (TM_CHAN_EGR_RING c)
      if m.g (TM_CHAN_EGR_VALID c) = 0 ∨ rxValid m r = false then wait 0 1 0
      else if portUp m (rxPort m r) = false then wait 0 0 1
      else if rxRoom m r p = false then do
        full [r]
        wait 1 0 0
      else do
        let p ← errs
        rxPut r cls steer p false
        finish p

/-- A message of the traffic manager was discarded in the Crossing because its port left UP (R108): a spill read ends with
poison, as a Square's read does (Table 6.6, log entry 145); the packet of a push write is lost, counted once, on its entry
(R193). -/
def tmFlushed (q : Msg) : P Unit := do
  let r := nth (q.x.drop 1) 0
  if q.x = [Op.rdI.ctorIdx, 0x5B] then spillLanded q.tag zeroLine true
  else if nth (q.x.drop 1) 4 = 2 ∧ r < 32768 then
    tmInc tmEGRESS_LOST
    raise ((tmEv 2 0x0586 q.slice).h24 r)

/-! Registers (R177, R180, R183, R187, R190, R191, R195). -/

/-- The sum of MIN over all queues, queue `i` counted as `v`. -/
def minSum (m : Mach) (i v : Nat) : Nat :=
  m.regs.foldl (fun a e => if e.1.k = .TM_QCFG ∧ e.1.i ≠ i then a + bitsAt e.2.toNat 32 29 else a) v

/-- The rules of a live write to a TM register of this chapter. -/
def tmRule (m : Mach) (k : RegKind) (i old new mask : Nat) : Nat :=
  match k with
  | .TM_SRING_CTL => if bitsAt old 0 1 = 0 ∧ bitsAt new 0 1 = 1 ∧ sringIdle m i = false then rcTM_BUSY else rcOK
  | .TM_QCFG =>
    if m.g (TM_QPOL_VALID i) = 0 ∨ bitsAt new 0 29 < bitsAt new 32 29 ∨
        (bitsAt mask 32 29 ≠ 0 ∧ m.g TM_CARVE_RESERVE < minSum m i (bitsAt new 32 29)) then rcTM_LIMIT
    else rcOK
  | .TM_QPOL => if m.g (TM_QPOL_VALID i) = 0 then rcTM_LIMIT else rcOK
  | .TM_MPROF => if bitsAt new 0 1 = 1 ∧ m.g (TM_MPROF1_PIR i) < m.g (TM_MPROF1_CIR i) then rcTM_LIMIT else rcOK
  | .TM_MPROF1 =>
    if bitsAt new 0 32 = 0 ∨ bitsAt new 32 32 = 0 ∨
        (m.g (TM_MPROF_TYPE i) = 1 ∧ bitsAt new 32 32 < bitsAt new 0 32) then rcTM_LIMIT else rcOK
  | .TM_MPROF2 => if bitsAt new 0 28 = 0 ∨ bitsAt new 32 28 = 0 then rcTM_LIMIT else rcOK
  | .TM_SPILL_CTL =>
    let w := bitsAt new 32 10
    let r := bitsAt new 42 10
    if w = 0 ∨ r = 0 ∨ 800 < w ∨ 800 < r ∨ 800 < w + r then rcTM_LIMIT else rcOK
  | .TM_WRED => if bitsAt new 32 29 ≤ bitsAt new 0 29 then rcTM_LIMIT else rcOK
  | .TM_CHAN_EGR =>
    let r := bitsAt new 0 15
    if (bitsAt mask 0 15 ≠ 0 ∨ bitsAt new 15 1 = 1) ∧ (m.g (RNG_CFG_VALID r) = 0 ∨ m.g (RNG_CFG_TYPE r) ≠ 2 ∨ m.g (TM_RXB_VALID r) = 0 ∨
        rxPort m r ≠ m.g (TM_CH_CFG_PORT i)) then rcTM_LIMIT else rcOK
  | .TM_GRP_MEM =>
    if (List.range 4).any (fun j => bitsAt new (16 * j + 15) 1 = 1 && m.g (TM_RXB_VALID (bitsAt new (16 * j) 15)) = 0)
    then rcTM_LIMIT else rcOK
  | .TM_CMD =>
    if bitsAt new 16 2 ≠ 1 then rcTM_LIMIT
    else if m.g TM_CMD_STATUS_BUSY = 1 then rcTM_BUSY else rcOK
  | _ => rcOK

/-- The effect of an accepted write to a TM register of this chapter; `old` is its value before. -/
def tmEffect (k : RegKind) (i old cmd : Nat) : P Unit := do
  let m ← getM
  match k with
  | .TM_CTL =>
    if bitsAt cmd 0 1 = 1 then
      each (List.range 21) fun c => rstReg .TM_CNT c
      each (List.range 256) fun s => rstReg .TM_SRING_CNT s
      each m.srx fun e => modSrx e.1 fun x => { x with overrun := false }
      putSlotTmo false
      each m.regs fun e =>
        onlyIf (e.1.k ∈ [RegKind.TM_GATE_CNT, .TM_CH_PKTS, .TM_CH_BYTES]) (rstReg e.1.k e.1.i)
  | .TM_SRING_CTL =>
    if bitsAt old 0 1 = 0 ∧ m.g (TM_SRING_CTL_ENABLE i) = 1 then
      wr (TM_SRING_STATUS_RETURNED i) 0
      modSrx i fun x => { x with admitted := 0, dropped := 0, lost := 0, since := 0 }
  | .TM_CMD => flushQueue (bitsAt cmd 0 15)
  | _ => pure ()

/-- TM_QPROBE of the queue that TM_QSEL names. -/
def qprobe (m : Mach) : Nat :=
  let x := m.getTq (m.g TM_QSEL_QUEUE)
  ((x.pkts.head?.map (·.first)).getD 0) + ((x.pkts.getLast?.map (·.last)).getD 0) * 2 ^ 32 +
    (if x.spilling then 2 ^ 61 else 0)

end Sys2Proof.Machine
end

