-- ==== Sys2Proof/Machine/Sched.lean ====
section
/-!
DEFINITION. Scheduling, shaping, time gates and the device time base (08_scheduling_and_gates.md).
-/
namespace Sys2Proof.Machine

/-! Time gates (R213-R217). -/

/-- Fields of gate bank `k` of channel `c`. -/
def gbBASE (m : Mach) (c k : Nat) : Nat :=
  bitsAt (m.rd ⟨.TM_GATE_B, c * 2 + k⟩).toNat 0 48 * 1000000000 + bitsAt (m.rd ⟨.TM_GATE_A, c * 2 + k⟩).toNat 0 30
def gbCYCLE (m : Mach) (c k : Nat) : Nat := bitsAt (m.rd ⟨.TM_GATE_A, c * 2 + k⟩).toNat 32 30
def gbENTRIES (m : Mach) (c k : Nat) : Nat := bitsAt (m.rd ⟨.TM_GATE_B, c * 2 + k⟩).toNat 48 11

/-- The entries of a bank: mask and interval. -/
def gateList (m : Mach) (c k : Nat) : List (Nat × Nat) :=
  (List.range (gbENTRIES m c k)).map (fun i => m.getGcl ((c * 2 + k) * 1024 + i))

/-- The entry that contains a position in half nanoseconds, with the time left in it. -/
def gateAt : List (Nat × Nat) → Nat → Nat → Option (Nat × Nat)
  | [], _, _ => none
  | (_, d) :: t, i, pos => if pos < 2 * d then some (i, 2 * d - pos) else gateAt t (i + 1) (pos - 2 * d)

/-- The gate position of a channel in its active bank, in half nanoseconds: (t - BASE) mod CYCLE_NS, also where a step has
taken the time base to before BASE (R214, R217). -/
def gatePos (m : Mach) (c : Nat) : Nat :=
  let k := m.g (TM_GATE_CTL_BANK c)
  (((m.tmT : Int) - (2 * gbBASE m c k : Nat)) % (2 * Nat.max 1 (gbCYCLE m c k) : Nat)).toNat

/-- The entry in force and the time left in it. -/
def gateNow (m : Mach) (c : Nat) : Option (Nat × Nat) :=
  gateAt (gateList m c (m.g (TM_GATE_CTL_BANK c))) 0 (gatePos m c)

/-- The gates that are open on a channel: all without GATED; IDLE_MASK until the list starts (R213). -/
def gatesOpen (m : Mach) (c : Nat) : Nat :=
  if m.g (TM_CH_CFG_GATED c) = 0 then 0xFF
  else if m.g (TM_GATE_CTL_STARTED c) = 0 then m.g (TM_GATE_CTL_IDLE_MASK c)
  else m.g (TM_GATE_ST_OPEN c)

/-- The run of consecutive intervals, from the front of a list, that keep priority `p` open. -/
def openRun (p : Nat) (l : List (Nat × Nat)) : Nat :=
  (l.takeWhile (fun e => bitsAt e.1 p 1 = 1)).foldl (fun a e => a + e.2) 0

/-- Every rotation of a list. -/
def rotations {α : Type} (l : List α) : List (List α) := (List.range l.length).map (fun i => l.drop i ++ l.take i)

/-- The time on the wire of a counted length (R214). -/
def wireTime (m : Mach) (c len : Nat) : Nat :=
  let r := m.g (TM_CH_LINE_LINE_RATE c)
  if r = 0 then 0 else (len * 8000 + r - 1) / r

/-- Whether a packet's time on the wire exceeds the longest open run of its priority (R215). -/
def gateOversize (m : Mach) (c p tx : Nat) : Bool :=
  let l := gateList m c (m.g (TM_GATE_CTL_BANK c))
  m.g (TM_CH_CFG_GATED c) = 1 && m.g (TM_GATE_CTL_STARTED c) = 1 && l.any (fun e => bitsAt e.1 p 1 = 0) &&
    (rotations l).all (fun r => openRun p r < tx)

/-- Whether a packet fits into the open window of its priority (R214); an oversize one fits at the first decision after
an opening (R215). -/
def gateFits (m : Mach) (c p len : Nat) : Bool :=
  if m.g (TM_CH_CFG_GATED c) = 0 ∨ m.g (TM_GATE_CTL_STARTED c) = 0 then true
  else
    let l := gateList m c (m.g (TM_GATE_CTL_BANK c))
    let tx := wireTime m c len
    if l.all (fun e => bitsAt e.1 p 1 = 1) then true
    else if gateOversize m c p tx then m.getGopen (c * 8 + p)
    else match gateNow m c with
      | some (i, left) =>
        if bitsAt ((l.getD i (0, 0)).1) p 1 = 1 then
          decide (2 * tx ≤ left + 2 * openRun p ((l.drop (i + 1) ++ l.take i)))
        else false
      | none => false

/-- The backlogged queues of a channel: those in its bundles' lists. -/
def channelQueues (m : Mach) (c : Nat) : List Nat :=
  (List.range 8).flatMap fun p => (m.getAct (actC c p)).l.flatMap fun b => (m.getAct (actB b)).l

/-- A queue's priority on its channel. -/
def queuePrio (m : Mach) (q : Nat) : Nat := m.g (TM_BND_CFG_PRIORITY (m.g (TM_QSCH_BUNDLE q)))

/-- The gates of a channel become `new`: queues whose priority opens lose NOFIT, and an opening may let in an oversize
packet (R214, R215). -/
def gateMask (c new : Nat) : P Unit := do
  let m ← getM
  let old := m.g (TM_GATE_ST_OPEN c)
  let opened := (List.range 8).filter (fun p => bitsAt old p 1 = 0 && bitsAt new p 1 = 1)
  wr (TM_GATE_ST_OPEN c) new
  each opened fun p => putGopen (c * 8 + p) true
  each (channelQueues m c) fun q => onlyIf (queuePrio m q ∈ opened) (wr (TM_QSCH_ST_NOFIT q) 0)

/-- The entry in force is taken over from the time base. `first` says that the list starts or switches. -/
def gateEnter (c : Nat) (first : Bool) : P Unit := do
  let m ← getM
  match gateNow m c with
  | some (i, _) => do
    let l := gateList m c (m.g (TM_GATE_CTL_BANK c))
    let was := m.g (TM_GATE_ST_ENTRY c)
    onlyIf (first = true) (wr (TM_GATE_ST_CYCLES c) 1)
    onlyIf (first = false ∧ i ≤ was ∧ (i ≠ was ∨ l.length = 1)) (addWrap (TM_GATE_ST_CYCLES c) 1)
    wr (TM_GATE_ST_ENTRY c) i
    gateMask c (l.getD i (0, 0)).1
  | none => pure ()

/-- GATE_ENTRY_BOUNDARY: the gate position crosses a boundary (R214). -/
def gateBoundary (c : Nat) : P Unit := do
  let m ← getM
  onlyIf (m.g (TM_CH_CFG_GATED c) = 1 ∧ m.g (TM_GATE_CTL_STARTED c) = 1) (gateEnter c false)

/-- GATE_START: the active list starts once the time base is set and at or after BASE (R213). Until then the gates were those
of IDLE_MASK. -/
def gateStart (c : Nat) : P Unit := do
  let m ← getM
  if m.g (TM_CH_CFG_GATED c) = 1 ∧ m.g (TM_GATE_CTL_STARTED c) = 0 ∧ m.g TB_STATUS_SET = 1 ∧
      2 * gbBASE m c (m.g (TM_GATE_CTL_BANK c)) ≤ m.tmT then
    wr (TM_GATE_ST_OPEN c) (m.g (TM_GATE_CTL_IDLE_MASK c))
    wr (TM_GATE_CTL_STARTED c) 1
    gateEnter c true

/-- GATE_SWITCH: at the switch time the banks exchange roles (R216). -/
def gateSwitch (c : Nat) : P Unit := do
  let m ← getM
  if m.g (TM_GATE_CTL_PENDING c) = 1 ∧ m.g (TM_GATE_SWT_TIME64 c) ≤ m.tm64 then
    wr (TM_GATE_CTL_BANK c) (1 - m.g (TM_GATE_CTL_BANK c))
    wr (TM_GATE_CTL_PENDING c) 0
    inc (TM_GATE_CNT_SWITCHES c)
    raise ((ev 5 0 0x058A).h24 c)
    gateEnter c true

/-! Shapers (R204, R205). -/

/-- The rates and bursts of an element: CIR, PIR, CBS, PBS. Levels: 0 queue, 1 bundle, 2 channel, 3 egress port. -/
def shaperCfg (m : Mach) (lv i : Nat) : Nat × Nat × Nat × Nat :=
  let w (ka kb : RegKind) (j : Nat) : Nat × Nat × Nat × Nat :=
    let a := (m.rd ⟨ka, j⟩).toNat
    let b := (m.rd ⟨kb, j⟩).toNat
    (bitsAt a 0 32, bitsAt a 32 32, bitsAt b 0 28, bitsAt b 32 28)
  match lv with
  | 0 => w .TM_SPROF_A .TM_SPROF_B (m.g (TM_QSCH_SPROF i))
  | 1 => w .TM_BND_SHA .TM_BND_SHB i
  | 2 => w .TM_CH_SHA .TM_CH_SHB i
  | _ => w .TM_PORT_SHA .TM_PORT_SHB i

/-- The state of a shaper: 0 COMMITTED, 1 EXCESS, 2 HELD (R204), by the rates that its last refill took up (R205). -/
def shaperState (m : Mach) (lv i : Nat) : Nat :=
  let (cir, pir, _, _) := m.getShp (lv * 65536 + i)
  let (c, p) := m.getBuck (lv * 65536 + i)
  if pir ≠ 0 ∧ p ≤ 0 then 2 else if cir ≠ 0 ∧ 0 < c then 0 else 1

/-- Whether a shaper's state suits a kind of selection (R199): `ex` false committed, true excess. -/
def shaperFor (m : Mach) (lv i : Nat) (ex : Bool) : Bool :=
  if ex then shaperState m lv i ≠ 2 else shaperState m lv i = 0

/-- The refill period of a level, ns (Table 8.1). -/
def shaperPeriod : Nat → Nat
  | 0 => 16384 | 1 => 2048 | 2 => 256 | _ => 32

/-- SHAPER_REFILL: the refill engine visits one element: changed rates, bursts and profiles take effect, and both buckets are
credited and clipped (R205). -/
def shaperRefill (lv i : Nat) : P Unit := do
  let m ← getM
  let k := shaperCfg m lv i
  let (cir, pir, cbs, pbs) := k
  let (c, p) := m.getBuck (lv * 65536 + i)
  let d (r : Nat) : Int := (r * shaperPeriod lv * 65536 / 1000000 : Nat)
  putShp (lv * 65536 + i) k
  putBuck (lv * 65536 + i) (min ((cbs * 65536 : Nat) : Int) (c + d cir), min ((pbs * 65536 : Nat) : Int) (p + d pir))

/-- At APPLYING the shapers take up the rates and bursts written while structure was disabled (R42). -/
def shapersApply : P Unit := do
  let m ← getM
  each m.regs fun e =>
    let take (lv : Nat) : P Unit := putShp (lv * 65536 + e.1.i) (shaperCfg m lv e.1.i)
    match e.1.k with
    | .TM_QSCH => take 0
    | .TM_BND_SHA | .TM_BND_SHB => take 1
    | .TM_CH_SHA | .TM_CH_SHB => take 2
    | .TM_PORT_SHA | .TM_PORT_SHB => take 3
    | _ => pure ()

/-- A selected packet of counted length `len` charges an element (R204). -/
def shaperCharge (lv i len : Nat) : P Unit := do
  let m ← getM
  let (_, pir, _, _) := m.getShp (lv * 65536 + i)
  let (c, p) := m.getBuck (lv * 65536 + i)
  let s := shaperState m lv i
  putBuck (lv * 65536 + i)
    (if s = 0 then c - ((len * 65536 : Nat) : Int) else c, if pir ≠ 0 then p - ((len * 65536 : Nat) : Int) else p)

/-! Selection (R197-R203). -/

/-- The counted length of a packet on channel `c` (R197). -/
def countedLen (m : Mach) (c : Nat) (p : Pkt) : Nat :=
  Nat.max 1 ((p.len : Int) + toSigned 8 (m.g (TM_CH_CFG_OVERHEAD c))).toNat

/-- The outcome of one deficit round robin (R199): the child, the deficits that changed (child and value, the chosen
child's before the packet is charged), and the rounds completed. -/
structure Drr where
  child : Nat
  defs : List (Nat × Nat)
  rounds : Nat
  deriving DecidableEq, Repr

/-- A changed deficit, or the one given. -/
def defOf (base : Nat → Nat) (d : List (Nat × Nat)) (c : Nat) : Nat := ((d.find? (fun e => e.1 = c)).map (·.2)).getD (base c)

/-- The loop of R199 over the children of one node, from place `i`. `len` answers the counted length that selection
below a child would deliver, or none for a child that is not eligible. A child is credited its quantum whenever the turn
comes to it; only the child that still holds the turn at the first look is not credited (DEDUCED,
notes/assumptions/12.md). -/
def drrLoop (l : List Nat) (len : Nat → Option Nat) (quantum base : Nat → Nat) :
    Nat → Nat → Bool → List (Nat × Nat) → Nat → Option Drr
  | 0, _, _, _, _ => none
  | f + 1, i, keep, d, rounds =>
    match l[i]? with
    | none => if l = [] then none else drrLoop l len quantum base f 0 false d (rounds + 1)
    | some c =>
      match len c with
      | none => drrLoop l len quantum base f (i + 1) false d rounds
      | some n =>
        let v := if keep then defOf base d c else defOf base d c + quantum c
        let d' := (c, v) :: d.filter (fun e => e.1 ≠ c)
        if n ≤ v then some ⟨c, d', rounds⟩ else drrLoop l len quantum base f (i + 1) false d' rounds

/-- Deficit round robin over a list (R199). -/
def drr (a : ActList) (len : Nat → Option Nat) (quantum base : Nat → Nat) : Option Drr :=
  if a.l.all (fun c => (len c).isNone) then none
  else drrLoop a.l len quantum base (600 * (a.l.length + 1)) a.start a.turn.isSome [] 0

/-- The head packet of a queue as an eligible child (Table 8.2): its counted length. -/
def queueLen (m : Mach) (c : Nat) (ex : Bool) (q : Nat) : Option Nat :=
  match backlog m q with
  | p :: _ =>
    let n := countedLen m c p
    if m.g (TM_QSCH_PAUSE q) = 0 ∧ m.g (TM_QSCH_ST_NOFIT q) = 0 ∧ shaperFor m 0 q ex = true ∧
        gateFits m c (queuePrio m q) n = true then some n else none
  | [] => none

/-- The choice below a bundle: its queue (R199). -/
def pickQueue (m : Mach) (c b : Nat) : Option Drr :=
  let go (ex : Bool) := drr (m.getAct (actB b)) (queueLen m c ex) (fun q => m.g (TM_QSCH_QUANTUM q))
    (fun q => m.g (TM_QSCH_ST_DEFICIT q))
  (go false).or (go true)

/-- The counted length that selection below a node delivers. -/
def headLen (m : Mach) (c q : Nat) : Nat := match backlog m q with | p :: _ => countedLen m c p | [] => 0

/-- A bundle as an eligible child (Table 8.2). -/
def bundleLen (m : Mach) (c : Nat) (ex : Bool) (b : Nat) : Option Nat :=
  if m.g (TM_BND_CFG_PAUSE b) = 0 ∧ shaperFor m 1 b ex = true ∧
      bitsAt (gatesOpen m c) (m.g (TM_BND_CFG_PRIORITY b)) 1 = 1 then (pickQueue m c b).map (fun d => headLen m c d.child)
  else none

/-- The bundles of channel `c` that wait to be moved to another priority, in the order of the writes (R207). -/
def movesOf (m : Mach) (c : Nat) : List (Nat × Nat) := m.bmove.filter fun e => m.g (TM_BND_CFG_CHANNEL e.1) = c

/-- The list of priority `p` of channel `c` as a selection in the channel finds it: bundles whose PRIORITY has changed stand
at the end of the list of their new one (R207). -/
def chanList (m : Mach) (c p : Nat) : ActList :=
  (movesOf m c).foldl (fun x e =>
    let y := if e.2 = p then x.leave e.1 else x
    if m.g (TM_BND_CFG_PRIORITY e.1) = p then y.append e.1 else y) (m.getAct (actC c p))

/-- A bundle's deficit as a selection finds it: 0 for one that it moves (R207). -/
def bndDeficit (m : Mach) (b : Nat) : Nat := if m.bmove.any (·.1 = b) then 0 else m.g (TM_BND_ST_DEFICIT b)

/-- A selection in channel `c` moves the bundles whose PRIORITY has changed (R207). -/
def bundlesMove (c : Nat) : P Unit := do
  let m ← getM
  onlyIf (movesOf m c ≠ []) (do
    each (List.range 8) fun p => putAct (actC c p) (chanList m c p)
    each (movesOf m c) fun e => wr (TM_BND_ST_DEFICIT e.1) 0
    modBmove (·.filter fun e => m.g (TM_BND_CFG_CHANNEL e.1) ≠ c))

/-- The choice below a channel: priority and bundle, 7 first (R199). -/
def pickBundle (m : Mach) (c : Nat) : Option (Nat × Drr) :=
  let go (ex : Bool) := ([7, 6, 5, 4, 3, 2, 1, 0] : List Nat).findSome? fun p =>
    (drr (chanList m c p) (bundleLen m c ex) (fun b => m.g (TM_BND_CFG_QUANTUM b)) (bndDeficit m)).map (fun d => (p, d))
  (go false).or (go true)

/-- A channel as an eligible child (Table 8.2). -/
def channelLen (m : Mach) (ex : Bool) (c : Nat) : Option Nat :=
  if m.g (TM_CH_CFG_PAUSE c) = 0 ∧ shaperFor m 2 c ex = true ∧ (m.getPush c).isEmpty = true ∧
      (m.g (TM_CH_CFG_GATED c) = 0 ∨ m.getWire c ≤ m.tmT) then
    match pickBundle m c with
    | some (_, d) => (pickQueue m c d.child).map (fun e => headLen m c e.child)
    | none => none
  else none

/-- The eligible channel of an egress port, whether or not the port itself may be served. -/
def portChannel (m : Mach) (v : Nat) : Option Drr :=
  let go (ex : Bool) := drr (m.getAct (actP v)) (channelLen m ex) (fun c => m.g (TM_CH_CFG_QUANTUM c))
    (fun c => m.g (TM_CH_ST_DEFICIT c))
  (go false).or (go true)

/-- The choice below an egress port: its channel. -/
def pickChannel (m : Mach) (v : Nat) : Option Drr :=
  if m.g (TM_PORT_CFG_PAUSE v) = 0 ∧ shaperState m 3 v ≠ 2 then portChannel m v else none

/-- Whether a decision considers the gates of channel `c`: its list runs, no push of it waits, and its wire is free. -/
def gateLooks (m : Mach) (c : Nat) : Bool :=
  m.g (TM_CH_CFG_GATED c) = 1 && m.g (TM_GATE_CTL_STARTED c) = 1 && (m.getPush c).isEmpty && decide (m.getWire c ≤ m.tmT)

/-- Head packets on port `v` that the decision considers and that do not fit set NOFIT, once (R214). -/
def markNoFit (v : Nat) : P Unit := do
  let m ← getM
  each (m.getAct (actP v)).l fun c =>
    onlyIf (gateLooks m c = true)
      (each (channelQueues m c) fun q =>
        match backlog m q with
        | p :: _ =>
          onlyIf (bitsAt (gatesOpen m c) (queuePrio m q) 1 = 1 ∧ m.g (TM_QSCH_ST_NOFIT q) = 0 ∧
              gateFits m c (queuePrio m q) (countedLen m c p) = false) (do
            wr (TM_QSCH_ST_NOFIT q) 1
            inc (TM_GATE_CNT_NOFIT c))
        | [] => pure ())

/-- The first decision after the openings of a port's channels is over: an oversize packet not chosen by it waits for the
next opening (R215). `m` is the block as the decision found it. -/
def gateLooked (m : Mach) (v : Nat) : P Unit :=
  each (m.getAct (actP v)).l fun c =>
    onlyIf (gateLooks m c = true) (each (List.range 8) fun p => putGopen (c * 8 + p) false)

/-- The packet that a decision chose leaves its queue for the channel's push (R197-R202, R204, R214); a spilled one is read
back (R189, R190). -/
def selectTake (v c p b q : Nat) (dc db dq : Drr) : P Unit := do
  let m ← getM
  match backlog m q with
  | [] => pure ()
  | pkt :: _ =>
    let n := countedLen m c pkt
    bundlesMove c
    each dc.defs fun e => wr (TM_CH_ST_DEFICIT e.1) (e.2 - if e.1 = c then n else 0)
    each db.defs fun e => wr (TM_BND_ST_DEFICIT e.1) (e.2 - if e.1 = b then n else 0)
    each dq.defs fun e => wr (TM_QSCH_ST_DEFICIT e.1) (e.2 - if e.1 = q then n else 0)
    modAct (actP v) fun a => { a with turn := some c }
    modAct (actC c p) fun a => { a with turn := some b }
    modAct (actB b) fun a => { a with turn := some q }
    addWrap (TM_BND_ST_ROUND b) dq.rounds
    shaperCharge 0 q n
    shaperCharge 1 b n
    shaperCharge 2 c n
    shaperCharge 3 v n
    inc (TM_CH_PKTS_COUNT c)
    addSat (TM_CH_BYTES_COUNT c) n
    if m.g (TM_CH_CFG_GATED c) = 1 then
      let tx := wireTime m c n
      putWire c (m.tmT + 2 * tx)
      onlyIf (gateOversize m c p tx = true)
        (countFirst (TM_GATE_CNT_OVERSIZE c) (((ev 5 0 0x0589).h24 c).h26 q))
    let x := m.getTq q
    putTq q (if x.pkts = [] then { x with spill := x.spill.drop 1 } else { x with pkts := x.pkts.drop 1 })
    wr (TM_QSCH_ST_NOFIT q) 0
    putPush c [pkt]
    spillEnds q
    spillAsk c
    queueIdle q

/-- The ports of a lane, in round robin after the port last served (R198). -/
def lanePorts (m : Mach) (lane : Nat) : List Nat :=
  let last := m.getLane lane
  ((List.range 64).map (fun i => (last + 1 + i) % 64)).filter (fun v => v % 4 = lane)

/-- The ports that a lane looks at before and with port `v`, which it chose; all of them where it chose none. -/
def portsSeen (m : Mach) (lane : Nat) (v : Option Nat) : List Nat :=
  match v with
  | some v => (lanePorts m lane).takeWhile (· ≠ v) ++ [v]
  | none => lanePorts m lane

/-- SELECT: one decision of a selection lane (R198, R199). -/
def select (lane : Nat) : P Unit := do
  let m ← getM
  let pick := (lanePorts m lane).findSome? (fun v => (pickChannel m v).map (fun d => (v, d)))
  let seen := portsSeen m lane (pick.map (·.1))
  each seen markNoFit
  match pick with
  | none => pure ()
  | some (v, dc) =>
    match pickBundle m dc.child with
    | none => pure ()
    | some (p, db) =>
      match pickQueue m dc.child db.child with
      | none => pure ()
      | some dq => do
        putLane lane v
        selectTake v dc.child p db.child dq.child dc db dq
  each seen (gateLooked m)

/-- DRR_SWEEP: the background sweep visits an idle queue (R203). -/
def drrSweep (q : Nat) : P Unit := do
  let m ← getM
  let b := m.g (TM_QSCH_BUNDLE q)
  let round := m.g (TM_BND_ST_ROUND b)
  let d := idxDiff round (m.g (TM_QSCH_ST_LAST_ROUND q))
  let qu := Nat.max 1 (m.g (TM_QSCH_QUANTUM q))
  onlyIf (backlog m q = [] ∧ 1 ≤ d) (wr (TM_QSCH_ST_LAST_ROUND q)
    (idxDiff round (Nat.min d (Nat.max 1 ((m.g (TM_QSCH_BURST q) * 64 + qu - 1) / qu)))))

/-! The device time base (R208-R212). -/

/-- The nominal addend in units of 2^-32 ns (R209). -/
def tbNominal (m : Mach) : Nat :=
  if m.g TB_STATUS_LFO = 1 then 1000 * 2 ^ 32
  else if m.g TB_CTL_SSC_COMP = 1 then 40 * 2 ^ 32 * 10000 / 9975
  else 40 * 2 ^ 32

/-- TB_ADDEND follows the nominal value and the discipline rate (R209). -/
def tbAddend : P Unit := do
  let m ← getM
  wr TB_ADDEND_ADDEND (((tbNominal m : Int) * (1000000000 + m.tb.rate) / 1000000000).toNat)

/-- Time set to a total of nanoseconds, modulo 2^48 seconds (R208). -/
def tbSet (t : Int) : P Unit := modTb fun b =>
  let n := (t % ((2 ^ 48 * 1000000000 : Nat) : Int)).toNat
  { b with sec := n / 1000000000, ns := n % 1000000000 }

/-- The time base steps by `d` ns (R211, R212, R217): TIME_STEP, WIRE_FREE moves with it, and NOFIT flags clear. -/
def tbStep (d : Int) : P Unit := do
  let m ← getM
  tbSet ((m.tns : Int) + d)
  let k ← getM
  raise { ev 5 0 0x058C with detail := ofSigned 64 d }
  putTmSub 0
  each m.wire fun e => putWire e.1 ((e.2 : Int) + ((2 * k.tns : Nat) : Int) - (m.tmT : Int)).toNat
  each m.tq fun e => wr (TM_QSCH_ST_NOFIT e.1) 0
  each (List.range 512) fun c =>
    onlyIf (m.g (TM_CH_CFG_GATED c) = 1 ∧ m.g (TM_GATE_CTL_STARTED c) = 1) (gateEnter c false)

/-- One cycle of the AO clock, 40 ns, or 1 us from the oscillator: the counter advances by TB_ADDEND (R209), and the traffic
manager's copy is realigned. -/
def tbTick : P Unit := do
  let m ← getM
  let t := m.tb.frac + m.g TB_ADDEND_ADDEND
  tbSet ((m.tns + t / 2 ^ 32 : Nat) : Int)
  modTb fun b => { b with frac := t % 2 ^ 32 }
  putTmSub 0
  modAo (· + if m.g TB_STATUS_LFO = 1 then 25 else 1)

/-- One cycle of the 2.0 GHz core clock: the traffic manager's copy of the time base steps by 0.5 ns (R209). -/
def coreCycle : P Unit := do
  let m ← getM
  modTmSub (· + 1)
  pmuCount 0x01 1 {}
  each m.xwait fun w => onlyIf (w.2 = true) (pmuCount 0x10 1
    { port := if w.1 / 8 < 128 then some (w.1 / 8) else none, cls := some (w.1 % 8) })

/-- What an idle step is: a cycle of the core clock, the 80th of which is a tick of the AO clock; without REFCLK there is no
core clock and each is a tick of the oscillator (R209, R379; log entry 1). -/
def idleCycle : P Unit := do
  let m ← getM
  if m.g TB_STATUS_LFO = 1 then tbTick
  else do
    coreCycle
    let k ← getM
    onlyIf (80 ≤ k.tmSub) tbTick

/-- A value held within ± a bound. -/
def clampI (b x : Int) : Int := max (-b) (min b x)

/-- An accepted PPS edge disciplines the counter (R211). -/
def ppsDiscipline : P Unit := do
  let m ← getM
  let ns := m.tb.ns
  let e : Int := if ns < 500000000 then ns else (ns : Int) - 1000000000
  let freq := toSigned 32 (m.g TB_STATUS_FREQ)
  let lim : Int := (m.g TB_PPS_CFG_MAX_PPM * 1000 : Nat)
  wr TB_PPS_CAP_ERR (ofSigned 32 e)
  if m.g TB_TOD_CTL_ARM = 1 then
    wr TB_TOD_CTL_ARM 0
    tbStep (((m.g TB_TOD_SEC * 1000000000 : Nat) : Int) - (m.tns : Int))
    modTb fun b => { b with frac := 0 }
    wr TB_STATUS_SET 1
    modTb fun b => { b with good := 0, rate := freq }
  else if ((m.g TB_PPS_CFG_STEP_THRESH * 1000 : Nat) : Int) < |e| then
    tbStep (-e)
    modTb fun b => { b with good := 0, rate := freq }
  else
    let f := clampI lim (freq - e / (2 ^ m.g TB_PPS_CFG_KI : Int))
    wr TB_STATUS_FREQ (ofSigned 32 f)
    modTb fun b => { b with rate := clampI lim (f - e / (2 ^ m.g TB_PPS_CFG_KP : Int)),
                            good := if |e| ≤ (m.g TB_PPS_CFG_LOCK_THRESH : Int) then b.good + 1 else 0 }
  let k ← getM
  wr TB_STATUS_LOCKED (if 4 ≤ k.tb.good then 1 else 0)
  modTb fun b => { b with lastEdge := some k.tns }
  tbAddend

/-- PPS_EDGE: a rising edge of PPS_IN (R210). `short` says that its pulse was shorter than the deglitch: it is ignored and
counted (Table 1.6). -/
def ppsEdge (short : Bool) : P Unit := do
  let m ← getM
  if short then inc TB_CNT_PPS_REJECT
  else if m.g TB_CTL_PPS_EN = 1 then
    wr TB_PPS_CAP_NS m.tb.ns
    let ok := match m.tb.lastEdge with
      | none => true
      | some t => decide (t + 999000000 ≤ m.tns) && decide (m.tns ≤ t + 1001000000)
    if ok then
      inc TB_CNT_PPS_ACCEPT
      wr TB_STATUS_HOLDOVER 0
      ppsDiscipline
    else inc TB_CNT_PPS_REJECT

/-- PPS_LOST: no edge accepted within 1,500 ms of the last (R210). -/
def ppsLost : P Unit := do
  let m ← getM
  if m.g TB_CTL_PPS_EN = 1 ∧ m.tb.lastEdge.isSome then
    wr TB_STATUS_HOLDOVER 1
    wr TB_STATUS_LOCKED 0
    modTb fun b => { b with rate := toSigned 32 (m.g TB_STATUS_FREQ), lastEdge := none }
    inc TB_CNT_PPS_MISSED
    tbAddend
    raise (ev 5 0 0x058B)

/-- REFCLK goes or comes back: without it the counter runs from the oscillator, in holdover (R209). -/
def tbClock (lfo : Bool) : P Unit := do
  wr TB_STATUS_LFO (if lfo then 1 else 0)
  onlyIf (lfo = true) (do
    wr TB_STATUS_HOLDOVER 1
    modTb fun b => { b with lastEdge := none })
  tbAddend

/-- A read of TB_TIME_NS: it latches the seconds of the same instant (R208). -/
def tbTimeNs : P Nat := do
  let m ← getM
  wr TB_TIME_SEC_SEC m.tb.sec
  return m.tb.ns

/-! Registers (R205, R207, R213, R216, R220). -/

/-- The shaper words of a level after a write of one of them (R205): whether they are refused. -/
def shaperBad (period cir pir cbs pbs : Nat) : Bool :=
  (cir ≠ 0 && pir ≠ 0 && pir < cir) || (cir ≠ 0 && (cbs = 0 || cbs * 1000000 < cir * period)) ||
    (pir ≠ 0 && (pbs = 0 || pbs * 1000000 < pir * period))

/-- The refusal of a write to a SHA or SHB word: `a`, `b` are the words as they would stand. -/
def shaperRule (period a b : Nat) : Nat :=
  if shaperBad period (bitsAt a 0 32) (bitsAt a 32 32) (bitsAt b 0 28) (bitsAt b 32 28) then rcTM_LIMIT else rcOK

/-- The refusal of a write that turns on a rate before its burst stands, or the reverse, is per word: the other word is
taken as it stands. -/
def schedRule (m : Mach) (k : RegKind) (i _old new mask : Nat) : Nat :=
  let v (r : RegKind) : Nat := (m.rd ⟨r, i⟩).toNat
  let c := i / 2
  let gated := m.g (TM_CH_CFG_GATED (if k = .TM_GATE_A ∨ k = .TM_GATE_B then c else i)) = 1
  match k with
  | .TM_BND_SHA => if m.g (TM_BND_CFG_VALID i) = 0 then rcTM_LIMIT else shaperRule 2048 new (v .TM_BND_SHB)
  | .TM_BND_SHB => if m.g (TM_BND_CFG_VALID i) = 0 then rcTM_LIMIT else shaperRule 2048 (v .TM_BND_SHA) new
  | .TM_CH_SHA => if m.g (TM_CH_CFG_VALID i) = 0 then rcTM_LIMIT else shaperRule 256 new (v .TM_CH_SHB)
  | .TM_CH_SHB => if m.g (TM_CH_CFG_VALID i) = 0 then rcTM_LIMIT else shaperRule 256 (v .TM_CH_SHA) new
  | .TM_PORT_SHA => shaperRule 32 new (v .TM_PORT_SHB)
  | .TM_PORT_SHB => shaperRule 32 (v .TM_PORT_SHA) new
  | .TM_SPROF_A => if i = 0 then rcTM_LIMIT else shaperRule 16384 new (v .TM_SPROF_B)
  | .TM_SPROF_B => if i = 0 then rcTM_LIMIT else shaperRule 16384 (v .TM_SPROF_A) new
  | .TM_QSCH => if m.g (TM_QPOL_VALID i) = 0 then rcTM_LIMIT else rcOK
  | .TM_BND_CFG => if m.g (TM_BND_CFG_VALID i) = 0 then rcTM_LIMIT else rcOK
  | .TM_CH_CFG | .TM_CH_LINE => if m.g (TM_CH_CFG_VALID i) = 0 then rcTM_LIMIT else rcOK
  | .TM_GATE_A | .TM_GATE_B =>
    if gated = false then rcTM_LIMIT
    else if i % 2 = m.g (TM_GATE_CTL_BANK c) then (if m.g (TM_GATE_CTL_STARTED c) = 1 then rcTM_BUSY else rcOK)
    else if m.g (TM_GATE_CTL_PENDING c) = 1 then rcTM_BUSY else rcOK
  | .TM_GATE_CTL =>
    if gated = false then rcTM_LIMIT
    else if bitsAt new 9 1 = 1 ∧ bitsAt mask 9 1 = 1 then
      let s := 1 - m.g (TM_GATE_CTL_BANK i)
      if m.g (TM_GATE_CTL_PENDING i) = 1 then rcTM_BUSY
      else if gbENTRIES m i s = 0 ∨ 1024 < gbENTRIES m i s ∨ gbCYCLE m i s < 1000 ∨ 1000000000 < gbCYCLE m i s ∨
          (gateList m i s).foldl (fun a e => a + e.2) 0 ≠ gbCYCLE m i s then rcTM_LIMIT
      else rcOK
    else rcOK
  | .TM_GCL_DATA =>
    let ch := m.g TM_GCL_SEL_CHANNEL
    let b := m.g TM_GCL_SEL_BANK
    if m.g (TM_CH_CFG_GATED ch) = 0 then rcTM_LIMIT
    else if b = m.g (TM_GATE_CTL_BANK ch) then (if m.g (TM_GATE_CTL_STARTED ch) = 1 then rcTM_BUSY else rcOK)
    else if m.g (TM_GATE_CTL_PENDING ch) = 1 then rcTM_BUSY else rcOK
  | .TB_STEP => if 999999999 < |toSigned 32 (bitsAt new 0 32)| then rcTM_LIMIT else rcOK
  | _ => rcOK

/-- The place of the gate-list entry that TM_GCL_SEL names. -/
def gclKey (m : Mach) : Nat := (m.g TM_GCL_SEL_CHANNEL * 2 + m.g TM_GCL_SEL_BANK) * 1024 + m.g TM_GCL_SEL_INDEX

/-- Each access to TM_GCL_DATA advances INDEX. -/
def gclNext : P Unit := addWrap TM_GCL_SEL_INDEX 1

/-- A read of TM_GCL_DATA. -/
def gclRead : P Nat := do
  let m ← getM
  let (k, d) := m.getGcl (gclKey m)
  gclNext
  return k + d * 256

/-- CHANGE is accepted: the switch time is the first cycle start of the new bank at or after the end of the old list's
cycle in progress (R216). -/
def gateChange (c : Nat) : P Unit := do
  let m ← getM
  let a := m.g (TM_GATE_CTL_BANK c)
  let t := m.tmT / 2
  let cyc := Nat.max 1 (gbCYCLE m c a)
  let ends := if m.g (TM_GATE_CTL_STARTED c) = 1 then
      gbBASE m c a + ((t - gbBASE m c a) / cyc + 1) * cyc else t
  let b := gbBASE m c (1 - a)
  let n := Nat.max 1 (gbCYCLE m c (1 - a))
  let k := (ends - b + n - 1) / n
  wr (TM_GATE_CTL_PENDING c) 1
  wr (TM_GATE_SWT_TIME64 c) ((b + k * n) % 2 ^ 64)

/-- The effect of an accepted write to a register of this chapter. -/
def schedEffect (k : RegKind) (i old cmd mask : Nat) : P Unit := do
  let m ← getM
  match k with
  | .TM_BND_CFG =>
    let at' := ((m.bmove.find? (·.1 = i)).map (·.2)).getD (bitsAt old 41 3)
    onlyIf (bitsAt old 41 3 ≠ m.g (TM_BND_CFG_PRIORITY i) ∧ i ∈ (m.getAct (actC (m.g (TM_BND_CFG_CHANNEL i)) at')).l)
      (modBmove fun l => l.filter (·.1 ≠ i) ++ [(i, at')])
  | .TM_GATE_CTL => onlyIf (bitsAt cmd 9 1 = 1) (gateChange i)
  | .TM_GCL_DATA => do
    let (k, d) := m.getGcl (gclKey m)
    let n := maskIn (k + d * 256) cmd mask
    putGcl (gclKey m) (bitsAt n 0 8, bitsAt n 8 32)
    rstReg .TM_GCL_DATA 0
    gclNext
  | .TB_CTL => do
    onlyIf (bitsAt old 0 1 = 0 ∧ m.g TB_CTL_PPS_EN = 1) (modTb fun b => { b with lastEdge := none })
    onlyIf (bitsAt cmd 2 1 = 1) (rstReg .TB_CNT 0)
    tbAddend
  | .TB_TOD_CTL =>
    onlyIf (bitsAt cmd 33 1 = 1) (do
      tbStep (((m.g TB_TOD_SEC * 1000000000 + m.g TB_TOD_CTL_NS : Nat) : Int) - (m.tns : Int))
      modTb fun b => { b with frac := 0 }
      wr TB_STATUS_SET 1)
  | .TB_STEP => tbStep (toSigned 32 (bitsAt cmd 0 32))
  | _ => pure ()

/-- The STATE and ACTIVE bits of the scheduling contexts, computed (R204, R199): the whole status word of a level. -/
def schedStatus (m : Mach) (k : RegKind) (i : Nat) : Nat :=
  let r := (m.rd ⟨k, i⟩).toNat
  let b := m.g (TM_QSCH_BUNDLE i)
  match k with
  | .TM_QSCH_ST =>
    putBits (putBits r 27 2 (shaperState m 0 i)) 25 1 (if i ∈ (m.getAct (actB b)).l then 1 else 0)
  | .TM_BND_ST =>
    putBits (putBits r 27 2 (shaperState m 1 i)) 25 1
      (if i ∈ (m.getAct (actC (m.g (TM_BND_CFG_CHANNEL i)) (listPrio m i))).l then 1 else 0)
  | .TM_CH_ST =>
    putBits (putBits r 27 2 (shaperState m 2 i)) 25 1
      (match egressIdx m i with | some v => if i ∈ (m.getAct (actP v)).l then 1 else 0 | none => 0)
  | .TM_PORT_ST =>
    putBits (putBits r 27 2 (shaperState m 3 i)) 25 1 (if (portChannel m i).isSome then 1 else 0)
  | _ => r

end Sys2Proof.Machine
end

