-- ==== Sys2Proof/Machine/Kerb.lean ====
section
/-!
DEFINITION. Tenant slices and the Kerb (11_tenants_and_kerb.md): the check, violations and their capture, the fence,
and slice states. The tenant control page's aperture is in Write.lean.
-/
namespace Sys2Proof.Machine

/-- The KRB counters in register order. -/
abbrev kcCHECKED : Nat := 0
abbrev kcREFUSED : Nat := 1
abbrev kcDEBUG_REFUSED : Nat := 2

/-- The rights of Table 11.3, as TEN_VIOL.ACCESS shows them. -/
abbrev rtRD : Nat := 1
abbrev rtWR : Nat := 2
abbrev rtAT : Nat := 4
abbrev rtLM : Nat := 8

/-- The causes of a violation (R297). -/
abbrev kvNO_WINDOW : Nat := 1
abbrev kvRIGHTS : Nat := 2
abbrev kvSLICE_OFF : Nat := 3
abbrev kvLOCKED_DEBUG : Nat := 4
abbrev kvDEBUG_DENY : Nat := 5

/-- A Kerb window (Table 2.3): its number, BASE, LIMIT and word 2. -/
structure Win where
  n : Nat
  base : Nat
  limit : Nat
  ctl : Nat
  deriving DecidableEq, Repr

/-- The tenant of a window. -/
def Win.tenant (w : Win) : Nat := bitsAt w.ctl 0 8
/-- The rights a window holds, as TEN_VIOL.ACCESS orders them. -/
def Win.rights (w : Win) : Nat := bitsAt w.ctl 8 4
/-- LOCK. -/
def Win.lock (w : Win) : Bool := bitsAt w.ctl 12 1 = 1
/-- DEBUG_DENY. -/
def Win.deny (w : Win) : Bool := bitsAt w.ctl 13 1 = 1
/-- VALID. -/
def Win.valid (w : Win) : Bool := bitsAt w.ctl 14 1 = 1
/-- Whether a window covers an address. -/
def Win.covers (w : Win) (a : Nat) : Bool := w.base ≤ a && a ≤ w.limit

/-- The VALID windows of a copy (KRB_WIN or KRB_CWIN), ascending (R290). -/
def windows (m : Mach) (k : RegKind) : List Win :=
  m.regs.filterMap fun e =>
    if e.1.k = k ∧ e.1.i % 4 = 2 ∧ bitsAt e.2.toNat 14 1 = 1 then
      let n := e.1.i / 4
      some ⟨n, bitsAt (m.rd ⟨k, n * 4⟩).toNat 0 52, bitsAt (m.rd ⟨k, n * 4 + 1⟩).toNat 0 52, e.2.toNat⟩
    else none

/-- The verdict on an access of tenant `t` that needs `need` (R287): none, or the cause and the window reported
(R297). -/
def kerbVerdict (m : Mach) (t need a : Nat) : Option (Nat × Nat) :=
  if m.g (TEN_STATUS_STATE t) ≠ 1 then some (kvSLICE_OFF, 0x3FFF)
  else match (windows m .KRB_CWIN).find? (fun w => w.tenant = t && w.covers a) with
    | none => some (kvNO_WINDOW, 0x3FFF)
    | some w => if w.rights &&& need = need then none else some (kvRIGHTS, w.n)

/-- A violation of slice `t` is captured or counted (R297): `kind` 0 a host port, 1 a Loom engine, 2 the debug
master. -/
def violation (t cause need kind id win a : Nat) : P Unit := do
  let m ← getM
  if m.g (TEN_VIOL_VALID t) = 0 then
    wrReg .TEN_VIOL t (1 + cause * 2 + need * 16 + kind * 2 ^ 8 + id % 256 * 2 ^ 16 + win * 2 ^ 32)
    wr (TEN_VIOL_ADDR_ADDR t) a
    wr (TEN_VIOL_TIME_TIME64 t) m.time64
    raise (((((((ev 8 2 0x0881).at a).b24 cause).b25 kind).b26 id).w28 win).onSlice t)
  else inc (TEN_VIOL_COUNT_COUNT t)

/-- The Kerb checks an access of tenant `t` (none: no tenant, R283); a refusal counts and is a violation of its tenant
(R289). The answer says whether it is permitted. `quiet` is a run-ahead read (R268). -/
def kerbCheck (t : Option Nat) (need kind id a : Nat) (quiet : Bool) : P Bool := do
  let m ← getM
  inc (KRB_CNT_COUNT kcCHECKED)
  match t with
  | none => do
    inc (KRB_CNT_COUNT kcREFUSED)
    pmuCount 0x0F 1 { vcs := if kind = 0 then upVcs m id else none, addr := some a, port := if kind = 0 then some id else none }
    return false
  | some s =>
    match kerbVerdict m s need a with
    | none => return true
    | some (cause, win) => do
      onlyIf (quiet = false) (do
        inc (KRB_CNT_COUNT kcREFUSED)
        pmuCount 0x0F 1 { slice := some s, vcs := some (m.g (TEN_STATUS_VCS s)), addr := some a,
                          port := if kind = 0 then some id else none, engine := if kind = 1 then some id else none }
        violation s cause need kind id win a)
      return false

/-- The host slice of a VCS (R283). -/
def hostSlice (m : Mach) (v : Nat) : Option Nat :=
  if m.g (KRB_HOST_SLICE_VALID v) = 1 then some (m.g (KRB_HOST_SLICE_SLICE v)) else none

/-- The rights that a host's request needs (Table 11.3); a writeback needs none. -/
def hostNeeds : Op → Nat
  | .rdS | .rdI => rtRD
  | .rdA | .memInv => rtRD + rtWR
  | .memWr | .memWrPtl => rtWR
  | _ => 0

/-- A host access that passed is outstanding until its response is handed over (R294). -/
def hostAccess (port tag slice : Nat) : P Unit := do
  let e ← rd KRB_FENCE_STATUS_EPOCH
  modKacc (· ++ [(port, tag, e, slice)])



/-- A debug access that passed is outstanding until its response returns to the debug master (R294). -/
def debugAccess (tag : Nat) : P Unit := do
  let e ← rd KRB_FENCE_STATUS_EPOCH
  modKacc (· ++ [(kaDEBUG, tag, e, 256)])

/-! The fence (R290-R296). -/

/-- The accesses of the old epoch that are not complete (Table 11.5). -/
def oldOut (m : Mach) : Nat :=
  let e := m.g KRB_FENCE_STATUS_EPOCH
  (m.kacc.filter (fun k => k.2.2.1 ≠ e)).length +
    (m.acc.filter (fun k => k.2.thread < 4096 && k.2.epoch ≠ e)).length

/-- KRB_FENCE_PROG as it stands. -/
def fenceProg (m : Mach) : Nat := if m.g KRB_FENCE_STATUS_STATE = 2 then Nat.min (oldOut m) (2 ^ 20 - 1) else 0

/-- Whether two windows of one tenant overlap, and where (R293). -/
def Win.overlap (a b : Win) : Option Nat :=
  if a.tenant = b.tenant ∧ a.base ≤ a.limit ∧ b.base ≤ b.limit ∧ a.base ≤ b.limit ∧ b.base ≤ a.limit then
    some (Nat.max a.base b.base) else none

/-- The rules of R293 on one window, after the earlier windows `l`: the reason, the earlier window and the address. -/
def winRule (bound : Nat → Bool) (l : List Win) (w : Win) : Option (Nat × Nat × Nat) :=
  match l.findSome? (fun e => (e.overlap w).map (fun a => (e.n, a))) with
  | some (n, a) => some (0x0801, n, a)
  | none =>
    if bound w.tenant = false then some (0x0802, 0x3FFF, 0)
    else if bitsAt w.base 0 12 ≠ 0 ∨ bitsAt w.limit 0 12 ≠ 0xFFF ∨ w.limit < w.base then some (0x0803, 0x3FFF, 0)
    else none

/-- The first refusal among VALID windows in ascending number (R293): reason, window, other window, address. -/
def winCheck (bound : Nat → Bool) : List Win → List Win → Option (Nat × Nat × Nat × Nat)
  | _, [] => none
  | l, w :: t =>
    match winRule bound l w with
    | some (r, o, a) => some (r, w.n, o, a)
    | none => winCheck bound (l ++ [w]) t

/-- The result of a fence's check is shown. -/
def fenceShow (reason win other addr : Nat) : P Unit := do
  wr KRB_FENCE_STATUS_REASON reason
  wr KRB_FENCE_STATUS_WINDOW win
  wr KRB_FENCE_STATUS_OTHER other
  wr KRB_FENCE_ADDR_ADDR addr

/-- GO starts a fence (R292); the block rule has refused one that may not start. -/
def fenceGo : P Unit := do
  wr KRB_FENCE_STATUS_STATE 1
  wr KRB_FENCE_STATUS_RESULT 0

/-- The committed copy of every unlocked window takes its staged value (R290). -/
def fenceSwitch : P Unit := do
  let m ← getM
  let ns := (m.regs.filterMap fun e => if e.1.k = .KRB_WIN ∨ e.1.k = .KRB_CWIN then some (e.1.i / 4) else none).eraseDups
  each ns fun n =>
    onlyIf (bitsAt (m.g (KRB_CWIN_WORD (n * 4 + 2))) 12 1 = 0)
      (each (List.range 4) fun w => wr (KRB_CWIN_WORD (n * 4 + w)) (m.g (KRB_WIN_WORD (n * 4 + w))))
  wr KRB_FENCE_STATUS_EPOCH (1 - m.g KRB_FENCE_STATUS_EPOCH)

/-- KERB_FENCE_CHECK_DONE: the staged windows are refused, or every check stage takes the new rules (R292, R293). -/
def fenceCheckDone : P Unit := do
  let m ← getM
  if m.g KRB_FENCE_STATUS_STATE = 1 then
    match winCheck (fun t => m.g (TEN_STATUS_VALID t) = 1) [] (windows m .KRB_WIN) with
    | some (r, w, o, a) => do
      fenceShow r w o a
      wr KRB_FENCE_STATUS_STATE 0
      wr KRB_FENCE_STATUS_RESULT 2
      inc KRB_FENCE_CNT_REFUSED
      raise ((ev 8 0 0x0882).h24 r)
    | none => do
      fenceShow 0 0 0x3FFF 0
      fenceSwitch
      wr KRB_FENCE_STATUS_STATE 2

/-- KERB_FENCE_DRAINED: every old-epoch access has completed and the fence ends (R292 step 4). The answer says so. -/
def fenceDrained : P Bool := do
  let m ← getM
  if m.g KRB_FENCE_STATUS_STATE = 2 ∧ oldOut m = 0 then
    wr KRB_FENCE_STATUS_STATE 0
    onlyIf (m.g KRB_FENCE_STATUS_RESULT ≠ 3) (wr KRB_FENCE_STATUS_RESULT 1)
    inc KRB_FENCE_CNT_FENCES
    return true
  else return false

/-- KERB_FENCE_TIMEOUT: the drain exceeds TMO (R295). -/
def fenceTimeout : P Unit := do
  let m ← getM
  if m.g KRB_FENCE_STATUS_STATE = 2 ∧ m.g KRB_FENCE_STATUS_RESULT ≠ 3 ∧ 0 < oldOut m then
    wr KRB_FENCE_STATUS_RESULT 3
    inc KRB_FENCE_CNT_TIMEOUTS
    raise ((ev 8 2 0x0883).w28 (fenceProg m))

/-! Slices (R284, R285). -/

/-- The states of Table 11.2. -/
abbrev slDISABLED : Nat := 0
abbrev slENABLED : Nat := 1
abbrev slSTOPPING : Nat := 2
abbrev slPENDING : Nat := 3

/-- A slice enters ENABLED: the ENABLE of its slot ring is set (Table 11.2). -/
def sliceOn (s : Nat) : P Unit := do
  let m ← getM
  wr (TEN_STATUS_STATE s) slENABLED
  if s < m.g TM_CARVE_SLOT_RINGS ∧ m.g (TM_SRING_CTL_ENABLE s) = 0 then
    wr (TM_SRING_CTL_ENABLE s) 1
    tmEffect .TM_SRING_CTL s 0 0

/-- A slice leaves ENABLED: its rings and its slot ring are disabled (Table 11.2). -/
def sliceOff (s : Nat) : P Unit := do
  let m ← getM
  wr (TEN_STATUS_STATE s) slSTOPPING
  each (sliceRings m s) fun r => do
    wr (RNG_CTL_ENABLE r) 0
    ringStop r false
  onlyIf (s < m.g TM_CARVE_SLOT_RINGS) (wr (TM_SRING_CTL_ENABLE s) 0)

/-- The drain of a slice is complete (R284). -/
def sliceDrainDone (m : Mach) (s : Nat) : Bool :=
  (sliceRings m s).all (fun r => m.g (RNG_STATUS_STATE r) = rsDISABLED) && sringIdle m s &&
    !m.job.any (fun e => e.2.st ≠ 0 && e.2.slice = s) && !m.kacc.any (fun k => k.2.2.2 = s) &&
    !m.acc.any (fun e => e.2.thread < 4096 && e.2.slice = s)

/-- SLICE_DRAINED: a stopping slice ends its stop: DISABLED, or ENABLED where an enable is pending (R284, Table 11.2). -/
def sliceDrained (s : Nat) : P Unit := do
  let m ← getM
  if sliceDrainDone m s then
    if m.g (TEN_STATUS_STATE s) = slSTOPPING then wr (TEN_STATUS_STATE s) slDISABLED
    else onlyIf (m.g (TEN_STATUS_STATE s) = slPENDING) (sliceOn s)

/-- SLICE_STOP_TIMEOUT: 200 ms since the slice left ENABLED (R284). Table 11.2 sets the slot ring's ENABLE where the drain
completes and not here: R177 refuses it while the ring is not IDLE. -/
def sliceTimeout (s : Nat) : P Unit := do
  let m ← getM
  if m.g (TEN_STATUS_STATE s) = slSTOPPING ∨ m.g (TEN_STATUS_STATE s) = slPENDING then
    wr (TEN_STATUS_STATE s) (if m.g (TEN_STATUS_STATE s) = slSTOPPING then slDISABLED else slENABLED)
    raise ((ev 8 2 0x0884).onSlice s)

/-- A debug-master access to a fabric address (R299): none where it is permitted, or the cause and the refusing
window. -/
def debugVerdict (m : Mach) (a : Nat) : Option (Nat × Win) :=
  let l := (windows m .KRB_CWIN).filter (·.covers a)
  match l.find? (·.deny) with
  | some w => some (kvDEBUG_DENY, w)
  | none => if m.g GLB_LIFECYCLE_STATE = 0 then none else (l.find? (·.lock)).map (fun w => (kvLOCKED_DEBUG, w))

/-- The rules of a live write to a KRB or TEN register (R284, R291, R292). -/
def krbRule (m : Mach) (k : RegKind) (i _old new mask : Nat) : Nat :=
  match k with
  | .KRB_WIN =>
    let w := i % 4
    let used := if w < 2 then 2 ^ 52 - 1 else if w = 2 then 2 ^ 15 - 1 else 0
    if m.g KRB_FENCE_STATUS_STATE = 1 then rcKRB_BUSY
    else if new &&& used ≠ new ∨ bitsAt (m.g (KRB_CWIN_WORD (i / 4 * 4 + 2))) 12 1 = 1 ∨
        (w = 2 ∧ bitsAt new 12 1 = 1 ∧ bitsAt mask 12 1 = 1 ∧ m.g GLB_STRUCT_CTL_ENABLE = 1) then rcKRB_LIMIT
    else rcOK
  | .KRB_FENCE_CTL => if bitsAt new 0 1 = 1 ∧ m.g KRB_FENCE_STATUS_STATE ≠ 0 then rcKRB_BUSY else rcOK
  | .TEN_CTL => if m.g (TEN_STATUS_VALID i) = 0 then rcKRB_LIMIT else rcOK
  | _ => rcOK

/-- The effect of an accepted write to a KRB or TEN register; `cmd` holds the bits written. -/
def krbEffect (k : RegKind) (i old cmd : Nat) : P Unit := do
  let m ← getM
  match k with
  | .KRB_FENCE_CTL => onlyIf (bitsAt cmd 0 1 = 1) fenceGo
  | .KRB_CTL => onlyIf (bitsAt cmd 0 1 = 1) (do
      rstReg .KRB_FENCE_CNT 0
      each (List.range 3) fun c => rstReg .KRB_CNT c)
  | .TEN_CTL =>
    let en := m.g (TEN_CTL_ENABLE i)
    let st := m.g (TEN_STATUS_STATE i)
    if bitsAt old 0 1 = 0 ∧ en = 1 then
      if st = slDISABLED then sliceOn i else onlyIf (st = slSTOPPING) (wr (TEN_STATUS_STATE i) slPENDING)
    else if bitsAt old 0 1 = 1 ∧ en = 0 then
      if st = slENABLED then sliceOff i else onlyIf (st = slPENDING) (wr (TEN_STATUS_STATE i) slSTOPPING)
  | .TEN_VIOL => onlyIf (bitsAt cmd 0 1 = 1) (do
      rstReg .TEN_VIOL i
      rstReg .TEN_VIOL_ADDR i
      rstReg .TEN_VIOL_TIME i
      rstReg .TEN_VIOL_COUNT i)
  | .TEN_OBJ_SEL => wr (TEN_OBJ_STATUS_REFUSED i) 0
  | _ => pure ()

end Sys2Proof.Machine
end

