-- ==== Sys2Proof/Machine/Kiosk.lean ====
section
/-!
DEFINITION. The Kiosk (10_loom_engines.md, R270-R276): lines and their states, fills, snoops, victims, steered fills,
banks and the flush; and the accesses that the Loom threads and the partner make through it.
-/
namespace Sys2Proof.Machine

/-- The KSK counters in register order (R279). -/
abbrev kkHIT : Nat := 0
abbrev kkMISS : Nat := 1
abbrev kkUPDATE : Nat := 2
abbrev kkSNOOP : Nat := 3
abbrev kkWB : Nat := 4
abbrev kkEVICT : Nat := 5
abbrev kkSTEER_FILL : Nat := 6
abbrev kkSTEER_DROP : Nat := 7
abbrev kkREMOTE : Nat := 8

/-- The states of a Kiosk bank (KSK_BANK_STATUS). -/
abbrev kbSERVICE : Nat := 0
abbrev kbDRAINING : Nat := 1
abbrev kbTEST : Nat := 2
abbrev kbOFF : Nat := 3
abbrev kbLOST : Nat := 4

/-- STATE of bank `k`. -/
abbrev kskState (k : Nat) : RF := ⟨.KSK_BANK_STATUS, 0, 4 * k, 3⟩

/-- A Kiosk counter counts. -/
def kskInc (c : Nat) : P Unit := inc (KSK_CNT_COUNT c)

/-! Bytes of a line. -/

/-- Byte `i` of a list of words, the least significant byte of each word first. -/
def byteAt (ws : List Word) (i : Nat) : Nat := bitsAt ((ws.getD (i / 8) 0#64).toNat) (8 * (i % 8)) 8

/-- `n` bytes from byte `i`. -/
def bytesAt (ws : List Word) (i n : Nat) : List Nat := (List.range n).map (fun j => byteAt ws (i + j))

/-- A number from its bytes, the least significant first. -/
def leNat (l : List Nat) : Nat := l.foldr (fun b a => b % 256 + 256 * a) 0

/-- A number from its bytes, the most significant first. -/
def beNat (l : List Nat) : Nat := l.foldl (fun a b => a * 256 + b % 256) 0

/-- Words from bytes, zero-padded. -/
def wordsOf : Nat → List Nat → List Word
  | 0, _ => []
  | n + 1, l => w64 (leNat (l.take 8)) :: wordsOf n (l.drop 8)

/-- The bytes of `n`, the least significant first. -/
def leBytes (n : Nat) : Nat → List Nat
  | 0 => []
  | k + 1 => n % 256 :: leBytes (n / 256) k

/-- A line with bytes replaced from byte `i` on. -/
def putBytes (ws : List Word) (i : Nat) (bs : List Nat) : List Word :=
  let l := bytesAt ws 0 64
  wordsOf 8 (l.take i ++ bs ++ l.drop (i + bs.length))

/-! Ways. -/

/-- The set of an address in its bank (R270). -/
def kskSet (a : Nat) : Nat := bitsAt a 8 14 ^^^ bitsAt a 22 14

/-- The place of a way. -/
def kKey (b a way : Nat) : Nat := (b * 16384 + kskSet a) * 16 + way

/-- The way of bank `b` that holds a line. -/
def kFind (m : Mach) (b line : Nat) : Option Nat :=
  (List.range 16).find? fun w => let k := m.getKline (kKey b line w); k.st ≠ 0 && k.line = line

/-- Run-ahead reads of a line that the Kiosk has answered become stale (R269). -/
def staleLine (line : Nat) : P Unit := do
  let m ← getM
  each m.acc fun e =>
    onlyIf (e.2.sort = 1 ∧ lineOf e.2.addr = line) (putAcc e.1 { e.2 with stale := true })

/-- The Kiosk writes a line back to its home Square: MetaValue I or S (Table 10.7). -/
def kskWb (b : Nat) (op : Op) (k : KLine) (poison : Bool) : P Unit := do
  kskInc kkWB
  xsend { op := op, cls := 3, inp := epKsk b, out := epSq (homeSq k.line), agent := 64, addr := k.line, len := 80,
          data := k.data, poison := k.poison || poison }

/-- A line leaves bank `b`: an M line is written back, any other dropped. -/
def kskDrop (b way line : Nat) (poison : Bool) : P Unit := do
  let m ← getM
  let k := m.getKline (kKey b line way)
  onlyIf (k.st = 3) (kskWb b .wbI k poison)
  putKline (kKey b line way) {}
  staleLine k.line

/-- A way is used: its bit is set, and when all 16 are set every other one is cleared (R272). -/
def kskTouch (b line way : Nat) : P Unit := do
  modKline (kKey b line way) fun k => { k with nru := true }
  let m ← getM
  if (List.range 16).all (fun w => (m.getKline (kKey b line w)).nru) then
    each ((List.range 16).filter (· ≠ way)) fun w => modKline (kKey b line w) fun k => { k with nru := false }

/-- A way is eligible as a victim when nothing is pending on it (R272). -/
def kskEligible (m : Mach) (b line way : Nat) : Bool :=
  !(m.getKmiss b).any (fun e => e.way = way && kskSet e.line = kskSet line)

/-- The order of R272: lower is chosen first. -/
def kskCost (k : KLine) : Nat :=
  if k.st = 0 then 0 else (if k.nru then 3 else 1) + (if k.st = 3 then 1 else 0)

/-- The victim of a set (R272). -/
def kskVictim (m : Mach) (b line : Nat) : Option Nat :=
  let l := (List.range 16).filter (kskEligible m b line)
  (List.range 5).findSome? fun c => l.find? (fun w => kskCost (m.getKline (kKey b line w)) = c)

/-- The victim's line leaves: counted as an eviction where a line was held. -/
def kskEvict (b line way : Nat) : P Unit := do
  let m ← getM
  let k := m.getKline (kKey b line way)
  if k.st ≠ 0 then
    kskInc kkEVICT
    kskDrop b way line false

/-! Fills. -/

/-- The entry of a miss list for a line. -/
def missOf (m : Mach) (b line : Nat) : Option KMiss := (m.getKmiss b).find? (fun e => e.line = line)

/-- The miss entry of a line is replaced. -/
def missPut (b : Nat) (e : KMiss) : P Unit :=
  modKmiss b fun l => l.map fun x => if x.line = e.line then e else x

/-- A miss entry sends its request: an upgrade of a line held S keeps its way; a fill takes a victim's (R271, R272). -/
def missSend (b : Nat) (e : KMiss) : P Unit := do
  let m ← getM
  let req (op : Op) : Msg :=
    { op := op, cls := 2, inp := epKsk b, out := epSq (homeSq e.line), agent := 64, addr := e.line, len := 16 }
  match kFind m b e.line with
  | some w => do
    missPut b { e with way := w }
    xsend (req .memInv)
  | none =>
    match kskVictim m b e.line with
    | none => pure ()
    | some w => do
      kskEvict b e.line w
      missPut b { e with way := w }
      kskInc kkMISS
      xsend (req (if e.own then .rdA else .rdS))

/-- Requests that waited for a way or for one of the 512 miss entries are tried again (R270, R272). -/
def kskKick (b : Nat) : P Unit := do
  let m ← getM
  each (((m.getKmiss b).take 512).filter (fun e => e.way = 16)) fun e => missSend b e

/-- An access waits for a fill of its line: it shares the one that runs, or asks for one (R270). -/
def missJoin (b line : Nat) (own : Bool) (id : Nat) : P Unit := do
  let m ← getM
  match missOf m b line with
  | some e => missPut b { e with own := e.own || (e.way = 16 && own), wait := e.wait ++ [id] }
  | none => do
    modKmiss b (· ++ [{ line := line, own := own, wait := [id] }])
    kskKick b

/-! Service of an access at a bank. -/

/-- An access has been served: its data is on its way back to the thread, or leaves for the partner as LOOM_RSP. -/
def accServed (id : Nat) (data : List Word) (poison : Bool) : P Unit := do
  let m ← getM
  let a := m.getAcc id
  if a.thread = 4096 then
    putAcc id {}
    xsend { op := .loomRsp, cls := 3, inp := epKsk a.bank, out := epSPN, addr := a.addr, tag := a.tag,
            len := 16 + 8 * data.length, data := data, poison := poison, x := [2 + a.sort] }
  else putAcc id { a with st := 2, data := data, poison := poison }

/-- The bytes of a counter half (R260). -/
def cntWidth (wide : Bool) : Nat := if wide then 16 else 8

/-- One atomic CNT operation on a pair at byte `o` of a line (Table 10.4): the line after it, and the pair that it
reports. -/
def cntApply (a : LAcc) (ws : List Word) (o : Nat) : List Word × List Word :=
  let w := cntWidth a.wide
  let p := leNat (bytesAt ws o w)
  let y := leNat (bytesAt ws (o + w) w)
  let pair (p y : Nat) : List Nat := leBytes p w ++ leBytes y w
  let add := pair ((p + a.pkts) % 2 ^ (8 * w)) ((y + a.bytes) % 2 ^ (8 * w))
  let rep (l : List Nat) : List Word := wordsOf (2 * w / 8) l
  match a.op with
  | 0 | 1 => (putBytes ws o add, rep add)
  | 2 => (ws, rep (pair p y))
  | _ => (putBytes ws o (pair 0 0), rep (pair p y))

/-- An access whose line the Kiosk holds in a state that serves it: a read takes the data of the way; an update or a
partial write changes it and leaves it M (R264, R266, Table 10.7). A poisoned line is not updated and stays poisoned. -/
def kskApply (b way id : Nat) : P Unit := do
  let m ← getM
  let a := m.getAcc id
  let line := lineOf a.addr
  let key := kKey b line way
  let k := m.getKline key
  if a.sort ≤ 1 then accServed id k.data k.poison
  else if k.poison then accServed id [] true
  else if a.sort = 2 then
    let (ws, rep) := cntApply a k.data (a.addr - line)
    if a.op ≠ 2 then
      putKline key { k with st := 3, data := ws }
      kskInc kkUPDATE
      staleLine line
    accServed id rep false
  else
    putKline key { k with st := 3, data := putBytes k.data (a.addr - line) (bytesAt a.data (a.addr - line) a.len),
                          poison := k.poison || a.poison }
    kskInc kkUPDATE
    staleLine line
    accServed id [] false

/-- An access reaches bank `b`: it is served, or waits for its line (Table 10.7). -/
def kskServe (b id : Nat) : P Unit := do
  let m ← getM
  let a := m.getAcc id
  let line := lineOf a.addr
  let own := decide (2 ≤ a.sort)
  putAcc id { a with bank := b }
  if (missOf m b line).isSome then missJoin b line own id
  else match kFind m b line with
    | some w =>
      if own = false ∨ 2 ≤ (m.getKline (kKey b line w)).st then do
        onlyIf (own = false) (do
          kskInc kkHIT
          pmuCount 0x09 1 (accAt m id a.addr))
        kskTouch b line w
        kskApply b w id
      else missJoin b line true id
    | none => missJoin b line own id

/-- An access reaches the Kiosk's bank for its line (R270, R275). -/
def kskAccess (id : Nat) : P Unit := do
  let m ← getM
  kskServe (kskBank m (lineOf (m.getAcc id).addr)) id

/-- A run-ahead read is served only by a hit in this twin's Kiosk, and leaves the way's bit as it is (R268). -/
def kskPeek (m : Mach) (line : Nat) : Option (List Word × Bool) :=
  let b := kskBank m line
  if (missOf m b line).isSome then none
  else (kFind m b line).map fun w => let k := m.getKline (kKey b line w); (k.data, k.poison)

/-- The Kiosk answers a snoop (Table 10.7). -/
def kskAnswer (b : Nat) (q : Msg) (op : Op) : P Unit := do
  kskInc kkSNOOP
  xsend { op := op, cls := 1, inp := epKsk b, out := q.inp, agent := 64, addr := q.addr, len := 16 }

/-- KIOSK_UE (R276); a dirty line is where poison is created (R361). -/
def kskUe (line : Nat) (dirty : Bool) : P Unit := do
  raise (((ev 0x0D 2 0x0783).at line).b24 (if dirty then 1 else 0))
  onlyIf (dirty = true) (do
    let m ← getM
    memPoisoned 4 1 (kskBank m line) noObj fun e => e.at line)

/-- A snoop is answered from the state of its line (Table 10.7); `ue` says that the line has an uncorrectable error
(R276). -/
def kskSnoopNow (b : Nat) (q : Msg) (ue : Bool) : P Unit := do
  let m ← getM
  let line := lineOf q.addr
  match kFind m b line with
  | none => kskAnswer b q .birspI
  | some w => do
    let k := m.getKline (kKey b line w)
    staleLine line
    if ue then
      kskUe line (k.st = 3)
      kskDrop b w line true
      kskAnswer b q .birspI
    else if q.op = .bisnpData then
      onlyIf (k.st = 3) (kskWb b .wbS k false)
      putKline (kKey b line w) { k with st := 1 }
      kskAnswer b q .birspS
    else
      kskDrop b w line false
      kskAnswer b q .birspI
    kskKick b

/-- KIOSK_SNOOP: a BISnp reaches bank `b`. It waits while part of a response that grants its line has come
(notes/assumptions/31.md); an update in progress is never seen half done, since each is one step (R264, R271). -/
def kioskSnoop (b : Nat) (q : Msg) (ue : Bool) : P Unit := do
  let m ← getM
  match missOf m b (lineOf q.addr) with
  | some e =>
    if e.data.isSome ∨ e.grant ≠ 0 then missPut b { e with snoop := some q }
    else kskSnoopNow b q ue
  | none => kskSnoopNow b q ue

/-- The accesses that waited are served in their order; one that needs more than the line's new state waits again. -/
def missServe (b : Nat) (l : List Nat) : P Unit :=
  each l fun id => do
    let a ← getAcc id
    onlyIf (a.st = 1) (kskServe b id)

/-- A miss ends: those that waited are served, then a snoop that waited; a line that another bank now serves leaves
(R275). -/
def missEnd (b : Nat) (e : KMiss) : P Unit := do
  modKmiss b fun l => l.filter (fun x => x.line ≠ e.line)
  missServe b e.wait
  match e.snoop with
  | some q => kskSnoopNow b q false
  | none => pure ()
  let m ← getM
  onlyIf (kskBank m e.line ≠ b) (match kFind m b e.line with
    | some w => kskDrop b w e.line false
    | none => pure ())
  kskKick b

/-- A response without a grant: the accesses that wait get poison, and the line is not held (R117). -/
def missLost (b : Nat) (e : KMiss) : P Unit := do
  modKmiss b fun l => l.filter (fun x => x.line ≠ e.line)
  match kFind (← getM) b e.line with
  | some w => kskDrop b w e.line false
  | none => pure ()
  each e.wait fun id => accServed id [] true
  kskKick b

/-- A miss whose response is complete puts its line in its way (R271, R272). -/
def missFill (b : Nat) (e : KMiss) : P Unit := do
  let m ← getM
  let key := kKey b e.line e.way
  let k := m.getKline key
  let held := k.st ≠ 0 ∧ k.line = e.line
  if e.grant ≠ 0 ∧ (e.data.isSome ∨ held) then
    let d := e.data.getD (k.data, k.poison)
    putKline key { st := e.grant, line := e.line, data := d.1, poison := d.2, nru := true }
    kskTouch b e.line e.way
    pmuCount 0x0A 1 (match e.wait with | id :: _ => accAt m id e.line | [] => { addr := some e.line })
    missEnd b e
  else missPut b e

/-- KIOSK_FILL_DATA: part of the response to a fill comes from the home Square: the data, or the grant S or E. -/
def kioskFill (b : Nat) (q : Msg) : P Unit := do
  let m ← getM
  match missOf m b (lineOf q.addr) with
  | none => pure ()
  | some e =>
    if e.way = 16 then pure ()
    else if q.x = [1] then missLost b e
    else match q.op with
      | .memData => missFill b { e with data := some (q.data, q.poison) }
      | .cmpS => missFill b { e with grant := 1 }
      | .cmpE => missFill b { e with grant := 2 }
      | .cmp => missLost b e
      | _ => pure ()

/-- KIOSK_STEERED_FILL: steered data takes a way and enters S, or is dropped (R273). -/
def steeredFill (b : Nat) (q : Msg) : P Unit := do
  let m ← getM
  let line := lineOf q.addr
  let way := match kFind m b line with
    | some w => some w
    | none => if (missOf m b line).isSome then none else kskVictim m b line
  match m.g KSK_CTL_STEER_EN, way with
  | 1, some w => do
    onlyIf (kFind m b line = none) (kskEvict b line w)
    putKline (kKey b line w) { st := 1, line := line, data := q.data, poison := q.poison, nru := true }
    kskTouch b line w
    staleLine line
    kskInc kkSTEER_FILL
    pmuCount 0x0A 1 { addr := some line }
  | _, _ => kskInc kkSTEER_DROP

/-! Banks and the flush (R275). -/

/-- Every line of bank `b` that satisfies `f` is written back or dropped. -/
def kskEmpty (b : Nat) (f : Nat → Bool) : P Unit := do
  let m ← getM
  each m.kline fun e =>
    onlyIf (e.1 / 262144 = b ∧ e.2.st ≠ 0 ∧ f e.2.line = true) (kskDrop b (e.1 % 16) e.2.line false)

/-- A bank is taken out: DRAINING; its share goes to the next bank and its lines leave (R275). -/
def kskOut (k : Nat) : P Unit := do
  wr (kskState k) kbDRAINING
  kskEmpty k (fun _ => true)

/-- KSK_BANK_DRAINED: nothing is pending in a DRAINING bank and it enters TEST. -/
def kskDrained (k : Nat) : P Unit := do
  let m ← getM
  onlyIf (m.g (kskState k) = kbDRAINING ∧ m.getKmiss k = []) (do
    kskEmpty k (fun _ => true)
    wr (kskState k) kbTEST)

/-- The banks that a mask bit names and that are in a state. -/
def kskMasked (m : Mach) (mask : Nat) (st : List Nat) : List Nat :=
  (List.range 4).filter (fun k => bitsAt mask k 1 = 1 && (m.g (kskState k)) ∈ st)

/-- RETURN brings a TEST or LOST bank back once the hosting banks have given up its share (R275). -/
def kskReturn (k : Nat) : P Unit := do
  let m ← getM
  if (m.g (kskState k) = kbTEST ∨ m.g (kskState k) = kbLOST) ∧ domOn m (dKSK k) = true then
    each ((List.range 4).filter (· ≠ k)) fun b =>
      kskEmpty b (fun line => (bitsAt line 6 2 ^^^ bitsAt line 12 2) = k)
    wr (kskState k) kbSERVICE

/-- A bank's domain leaves ON: what the bank holds, and the partner's accesses that wait in it, are lost (R384). -/
def kskGone (k st : Nat) : P Unit := do
  let m ← getM
  each m.kline fun e => onlyIf (e.1 / 262144 = k) (do
    staleLine e.2.line
    putKline e.1 {})
  each m.acc fun e => onlyIf (e.2.bank = k ∧ e.2.st = 1 ∧ e.2.thread = 4096) (putAcc e.1 {})
  putKmiss k []
  wr (kskState k) st

/-- A bank's domain reaches ON: an OFF bank serves again. -/
def kskOn (k : Nat) : P Unit := do
  let m ← getM
  onlyIf (m.g (kskState k) = kbOFF) (wr (kskState k) kbSERVICE)

/-- FLUSH: every line present leaves, and FLUSH_BUSY is set until KIOSK_FLUSH_DONE (R275, notes/assumptions/32.md). -/
def kskFlush : P Unit := do
  wr KSK_STATUS_FLUSH_BUSY 1
  each (List.range 4) fun b => kskEmpty b (fun _ => true)

/-- KSK_OCC as it stands. -/
def kskOcc (m : Mach) : Nat :=
  (m.kline.filter (fun e => e.2.st ≠ 0)).length % 2 ^ 21 + (m.kline.filter (fun e => e.2.st = 3)).length * 2 ^ 21

/-- The rules of a live write to a KSK register (R275, R279). -/
def kskRule (m : Mach) (k : RegKind) (_i old new _mask : Nat) : Nat :=
  match k with
  | .KSK_CTL => if bitsAt new 1 1 = 1 ∧ m.g KSK_STATUS_FLUSH_BUSY = 1 then rcLM_BUSY else rcOK
  | .KSK_BANK_CTL =>
    let out := (kskMasked m (bitsAt new 0 4 - (bitsAt new 0 4 &&& bitsAt old 0 4)) [kbSERVICE])
    let left := (List.range 4).filter (fun b => m.g (kskState b) = kbSERVICE && b ∉ out)
    if out ≠ [] ∧ (List.range 4).any (fun b => m.g (kskState b) = kbDRAINING) then rcLM_BUSY
    else if out ≠ [] ∧ left = [] then rcLM_LIMIT
    else rcOK
  | _ => rcOK

/-- The effect of an accepted write to a KSK register. -/
def kskEffect (k : RegKind) (_i old cmd : Nat) : P Unit := do
  let m ← getM
  match k with
  | .KSK_CTL => do
    onlyIf (bitsAt cmd 0 1 = 1) (each (List.range 9) fun c => rstReg .KSK_CNT c)
    onlyIf (bitsAt cmd 1 1 = 1) kskFlush
  | .KSK_BANK_CTL => do
    each (kskMasked m (m.g KSK_BANK_CTL_OUT - (m.g KSK_BANK_CTL_OUT &&& bitsAt old 0 4)) [kbSERVICE]) kskOut
    each ((List.range 4).filter (fun b => bitsAt cmd (4 + b) 1 = 1)) kskReturn
  | _ => pure ()

end Sys2Proof.Machine
end

