-- ==== Sys2Proof/Machine/Loom.lean ====
section
/-!
DEFINITION. The Loom engines (10_loom_engines.md, R252-R269): dispatch, checks of a job, lookups, counters, metering,
copies and chains, run-ahead, clusters and tables.
-/
namespace Sys2Proof.Machine

/-- The LM counters in register order (R279). -/
abbrev lcJOBS : Nat := 0
abbrev lcITEMS : Nat := 1
abbrev lcMALFORMED : Nat := 2
abbrev lcDENIED : Nat := 3
abbrev lcPOISON : Nat := 4
abbrev lcTIMEOUT : Nat := 5
abbrev lcREMOTE : Nat := 6
abbrev lcRA_ISSUED : Nat := 7
abbrev lcRA_USED : Nat := 8
abbrev lcRA_DISCARD : Nat := 9

/-- A Loom counter counts. -/
def lmInc (c : Nat) : P Unit := inc (LM_CNT_COUNT c)

/-- Job kinds (Table 10.2). -/
abbrev jkLPM4 : Nat := 1
abbrev jkLPM6 : Nat := 2
abbrev jkEXM : Nat := 3
abbrev jkRNG : Nat := 4
abbrev jkCNT : Nat := 5
abbrev jkPOL : Nat := 6
abbrev jkCPY : Nat := 7
abbrev jkCHN : Nat := 8

/-- Completion statuses (Tables 9.7 and 10.6). -/
abbrev jsMALFORMED : Nat := 1
abbrev jsDENIED : Nat := 2
abbrev jsPOISON : Nat := 3
abbrev jsTIMEOUT : Nat := 4
abbrev jsTABLE_OFF : Nat := 0x40
abbrev jsBOUNDS : Nat := 0x41
abbrev jsFLOW_DENIED : Nat := 0x42
abbrev jsREMOTE_LOST : Nat := 0x43
abbrev jsCHAIN_STOP : Nat := 0x44

/-- The status of a job that met two, the first of R262's order. -/
def statMerge (a b : Nat) : Nat :=
  (([jsTABLE_OFF, jsDENIED, jsREMOTE_LOST, jsTIMEOUT, jsPOISON, jsBOUNDS, jsFLOW_DENIED, jsCHAIN_STOP] : List Nat).find?
    (fun x => x = a || x = b)).getD 0

/-! Clusters (R252, R253). -/

/-- The states of a cluster. -/
abbrev clOFF : Nat := 0
abbrev clSERVICE : Nat := 1
abbrev clDRAINING : Nat := 2
abbrev clTEST : Nat := 3
abbrev clLOST : Nat := 4

/-- STATE of cluster `c`. -/
abbrev clState (c : Nat) : RF := ⟨.LM_CL_STATUS, 0, 4 * c, 3⟩

/-- The threads of a cluster that hold a job. -/
def clBusy (m : Mach) (c : Nat) : Nat := (m.job.filter (fun e => e.1 / 512 = c && e.2.st ≠ 0)).length

/-- The threads of an engine that hold a job. -/
def leBusy (m : Mach) (e : Nat) : Nat := (m.job.filter (fun x => x.1 / 64 = e && x.2.st ≠ 0)).length

/-- The first of a list for which `f` is least. -/
def leastBy (f : Nat → Nat) : List Nat → Option Nat
  | [] => none
  | a :: t =>
    match leastBy f t with
    | none => some a
    | some b => if f a ≤ f b then some a else some b

/-- The thread that takes the next job: the cluster in SERVICE with the most free threads, its engine with the most free
threads, the lower number on a tie, and there the lowest free thread (R252). -/
def freeThread (m : Mach) : Option Nat :=
  match leastBy (clBusy m) ((List.range 8).filter (fun c => m.g (clState c) = clSERVICE && clBusy m c < 512)) with
  | none => none
  | some c =>
    match leastBy (leBusy m) ((List.range 8).map (fun e => c * 8 + e)) with
    | none => none
    | some e => ((List.range 64).map (fun h => e * 64 + h)).find? (fun t => (m.getJob t).st = 0)

/-! Tables (R254, R257-R260). -/

/-- Fields of table `n`. -/
def tBase (m : Mach) (n : Nat) : Nat := m.g (LM_TBL_BASE_BASE n) * 64
def tSize (m : Mach) (n : Nat) : Nat := m.g (LM_TBL_SIZE_SIZE n) * 64

/-- A stride of an LPM table (R257). -/
def lpmStride (m : Mach) (n l : Nat) : Nat := if l < 8 then bitsAt (m.g (LM_TBL_PARAM_PARAM n)) (5 * l) 5 else 0

/-- The key width of an EXM table in bytes (R258). -/
def exmWidth (m : Mach) (n : Nat) : Nat := 8 * (bitsAt (m.g (LM_TBL_PARAM_PARAM n)) 0 2 + 1)

/-- The bytes of a bucket and the number of buckets (R258). -/
def exmBucket (m : Mach) (n : Nat) : Nat := 8 * (exmWidth m n + 8)
def exmBuckets (m : Mach) (n : Nat) : Nat := tSize m n / exmBucket m n

/-- Whether a CNT table holds pairs of 128-bit counters (R260). -/
def cntWide (m : Mach) (n : Nat) : Bool := bitsAt (m.g (LM_TBL_PARAM_PARAM n)) 0 1 = 1

/-- The table kind that serves a job kind (R254). -/
def tableKind (kind : Nat) : Nat := if kind ≤ 2 then 0 else kind - 2

/-- Whether a table serves a job kind for a slice (R254). -/
def tableServes (m : Mach) (n kind slice : Nat) : Bool :=
  n < 1024 && m.g (LM_TBL_CFG_VALID n) = 1 && m.g (LM_TBL_CFG_SLICE n) = slice &&
    m.g (LM_TBL_CFG_KIND n) = tableKind kind

/-- Whether a range lies within one table of a slice (R266). -/
def tableHolds (m : Mach) (slice a len n : Nat) : Bool :=
  m.g (LM_TBL_CFG_VALID n) = 1 && m.g (LM_TBL_CFG_SLICE n) = slice && tBase m n ≤ a && a + len ≤ tBase m n + tSize m n

/-- The tables that an item defines. -/
def validTables (m : Mach) : List Nat :=
  m.regs.filterMap fun e => if e.1.k = .LM_TBL_CFG ∧ e.2.toNat % 2 = 1 then some e.1.i else none

/-- The layout rules of a PARAM value by table kind (R257, R258, R260). -/
def paramOk (m : Mach) (n v : Nat) : Bool :=
  match m.g (LM_TBL_CFG_KIND n) with
  | 0 =>
    let s := (List.range 8).map (fun l => bitsAt v (5 * l) 5)
    bitsAt v 40 24 = 0 && 1 ≤ nth s 0 && s.all (· ≤ 24) &&
      (List.range 7).all (fun l => nth s l ≠ 0 || nth s (l + 1) = 0)
  | 1 =>
    let b := 64 * (bitsAt v 0 2 + 2)
    let nb := tSize m n / b
    bitsAt v 0 2 ≤ 2 && bitsAt v 2 30 = 0 && tSize m n % b = 0 && 2 ≤ nb && 2 ^ nb.log2 = nb
  | 3 => bitsAt v 1 63 = 0
  | _ => v = 0

/-! The fields of a job (R261, Table 10.2, Table 10.5). -/

/-- Byte `i` of a job's entry. -/
def Job.byte (j : Job) (i : Nat) : Nat := byteAt j.words i
/-- A little-endian number in a job's entry. -/
def Job.le (j : Job) (i n : Nat) : Nat := leNat (bytesAt j.words i n)

/-- KIND of item or step `i`. -/
def Job.kindAt (j : Job) (i : Nat) : Nat := if j.kind = jkCHN then j.byte (16 + 32 * i) else j.kind
/-- OP of item or step `i`: a CNT step of a chain runs as ADD. -/
def Job.opAt (j : Job) : Nat := if j.kind = jkCHN then 0 else j.op
/-- TABLE of item or step `i`. -/
def Job.tableAt (j : Job) (i : Nat) : Nat := if j.kind = jkCHN then j.le (18 + 32 * i) 2 % 1024 else j.table
/-- FROM_PREV of a step. -/
def Job.fromPrev (j : Job) (i : Nat) : Bool := j.kind = jkCHN && bitsAt (j.byte (17 + 32 * i)) 0 1 = 1
/-- STOP_ON_MISS of a step. -/
def Job.stopOnMiss (j : Job) (i : Nat) : Bool := j.kind = jkCHN && bitsAt (j.byte (17 + 32 * i)) 1 1 = 1

/-- The bytes of an item of a kind. -/
def itemSize (kind kw : Nat) : Nat :=
  match kind with
  | 1 => 4
  | 2 => 16
  | 3 => kw
  | 4 => 4
  | 5 => 8
  | 6 => 8
  | 8 => 32
  | _ => 0

/-- VALUE of a step's result by its kind (R267). -/
def stepValue (kind res : Nat) : Nat :=
  match kind with
  | 1 | 2 => res % 2 ^ 23
  | 3 => res % 2 ^ 32
  | 4 => res % 2 ^ 24
  | 6 => res % 4
  | _ => 0

/-- The key or item bytes of item `i`; FROM_PREV replaces the first four (R267). -/
def Job.key (m : Mach) (j : Job) (i : Nat) : List Nat :=
  let k := j.kindAt i
  let n := itemSize k (exmWidth m (j.tableAt i))
  let l := bytesAt j.words (if j.kind = jkCHN then 24 + 32 * i else 16 + n * i) n
  if j.fromPrev i then
    let p := leBytes (stepValue (j.kindAt (i - 1)) (j.items.getD (i - 1) {}).res) 4
    (if k ≤ 4 then p.reverse else p) ++ l.drop 4
  else l

/-- The largest COUNT of a job kind (Table 10.2). -/
def countMax (m : Mach) (j : Job) : Nat :=
  match j.kind with
  | 1 => 124
  | 2 => 30
  | 3 => Nat.min 48 (496 / exmWidth m j.table)
  | 4 => 124
  | 5 => if j.op = 0 then 62 else if cntWide m j.table then 15 else 30
  | 6 => 62
  | 8 => 8
  | _ => 0

/-- Whether OP lies in Table 10.2. -/
def opOk (kind op : Nat) : Bool :=
  match kind with
  | 5 => op ≤ 3
  | 7 => op ≤ 1
  | _ => op = 0

/-- Reserved bits and ranges of one POL item (Table 10.2); LENGTH 0 lies outside it (notes/assumptions/33.md). -/
def polOk (v : Nat) : Bool := bitsAt v 48 16 = 0 && 1 ≤ bitsAt v 32 14

/-- The checks of one step of a chain (R267). -/
def stepOk (m : Mach) (j : Job) (i : Nat) : Bool :=
  let o := 16 + 32 * i
  let k := j.byte o
  1 ≤ k && k ≤ 6 && bitsAt (j.byte (o + 1)) 2 6 = 0 && j.le (o + 2) 2 < 1024 && j.le (o + 4) 4 = 0 &&
    !(i = 0 && bitsAt (j.byte (o + 1)) 0 1 = 1) && tableServes m (j.le (o + 2) 2) k j.slice &&
    (k ≠ jkPOL || polOk (j.le (o + 8) 8))

/-- The source, destination and length of a copy (R266). -/
def Job.src (j : Job) : Nat := j.le 16 8
def Job.dst (j : Job) : Nat := j.le 24 8
def Job.cpyLen (j : Job) : Nat := j.le 32 4

/-- The checks of a copy (R266). -/
def cpyOk (m : Mach) (j : Job) : Bool :=
  let n := j.cpyLen
  let inTable (a : Nat) : Bool := (validTables m).any (tableHolds m j.slice a n)
  (j.byte 12 = 0 || j.byte 12 = 0x40) && j.le 13 3 = 0 && 1 ≤ n && n ≤ 1048576 && inTable j.dst &&
    (j.op = 1 || (inTable j.src && (j.src + n ≤ j.dst || j.dst + n ≤ j.src)))

/-- Whether a job is well formed (R262); `slots` is its entry's SLOTS. -/
def jobOk (m : Mach) (j : Job) (slots : Nat) : Bool :=
  let size := itemSize j.kind (exmWidth m j.table)
  1 ≤ j.kind && j.kind ≤ 8 && j.le 8 2 < 1024 && opOk j.kind j.op &&
    (if j.kind = jkCPY then j.count = 0 else 1 ≤ j.count && j.count ≤ countMax m j) &&
    (16 + j.count * size + 63) / 64 ≤ slots &&
    (if j.kind = jkCPY then cpyOk m j
     else j.le 12 4 = 0 &&
      (if j.kind = jkCHN then (List.range j.count).all (stepOk m j)
       else tableServes m j.table j.kind j.slice &&
        (j.kind ≠ jkPOL || (List.range j.count).all (fun i => polOk (j.le (16 + 8 * i) 8)))))

/-- The tables that a job names (R254): a copy's are those that hold its ranges. -/
def Job.tables (m : Mach) (j : Job) : List Nat :=
  if j.kind = jkCHN then (List.range j.count).map j.tableAt
  else if j.kind = jkCPY then
    (validTables m).filter fun n => tableHolds m j.slice j.dst j.cpyLen n || (j.op = 0 && tableHolds m j.slice j.src j.cpyLen n)
  else [j.table]

/-- Whether a job names a table whose ENABLE is 0; a copy names none in its TABLE field (R254). -/
def tableOff (m : Mach) (j : Job) : Bool :=
  j.kind ≠ jkCPY && (j.tables m).any (fun n => m.g (LM_TBL_CFG_ENABLE n) = 0)

/-- LM_TBLn_CFG.IDLE as it stands. -/
def tableIdle (m : Mach) (n : Nat) : Bool := !m.job.any (fun e => e.2.st ≠ 0 && n ∈ e.2.tables m)

/-! Items. -/

/-- Item `i` of thread `t` is replaced. -/
def itemPut (t i : Nat) (it : LItem) : P Unit := modJob t fun j => { j with items := j.items.set i it }

/-- Run-ahead reads of an item that nothing has used are discarded (R268). -/
def raDrop (t i : Nat) : P Unit := do
  let m ← getM
  each (m.acc.filter (fun e => e.2.thread = t && e.2.item = i && e.2.sort = 1)) fun e => do
    putAcc e.1 {}
    lmInc lcRA_DISCARD

/-- An item ends with an error and a status (R262). -/
def itemFail (t i st : Nat) : P Unit := do
  raDrop t i
  modJob t fun j => { j with
    stat := statMerge j.stat st,
    items := j.items.set i { j.items.getD i {} with st := 2, err := true, stat := st } }

/-- An item ends; a step that stops on a miss says so (R267). -/
def itemDone (t i : Nat) (it : LItem) : P Unit := do
  raDrop t i
  modJob t fun j =>
    let st := if j.stopOnMiss i ∧ j.kindAt i ≤ 4 ∧ it.hit = false then jsCHAIN_STOP else it.stat
    { j with stat := statMerge j.stat st, items := j.items.set i { it with st := 2, stat := st } }

/-- The right that an access needs beside LM (R255). -/
def accRight (a : LAcc) : Nat :=
  if a.sort ≤ 1 then rtRD else if a.sort = 2 then (if a.op = 2 then rtRD else rtAT) else rtWR

/-- A thread issues an access: the Kerb checks it, and it goes to this twin's Kiosk, to the home Square as a plain
write of a whole line, or over the Spindle (R255, R256, R266). The accesses of a copy's line were checked at the line's
issue and carry its epoch (Table 11.5). -/
def lmIssue (t i : Nat) (a : LAcc) : P Unit := do
  let m ← getM
  let s := (m.getJob t).slice
  let line := lineOf a.addr
  let pass := ((m.getJob t).items.getD i {}).pass
  let ok ← if pass = 0 then kerbCheck (some s) (rtLM + accRight a) 1 (t / 64) a.addr false else pure true
  if ok = false then
    lmInc lcDENIED
    itemFail t i jsDENIED
  else
    let id := m.accNext
    let e := if pass = 0 then m.g KRB_FENCE_STATUS_EPOCH else pass - 1
    let a := { a with st := 1, thread := t, item := i, epoch := e, slice := s, tag := id }
    let b := kskBank m line
    if homesLine m line then
      putAccNext (id + 1)
      if a.sort = 3 then
        putAcc id { a with bank := b }
        xsend { op := .memWr, cls := 3, inp := epKsk b, out := epSq (homeSq line), agent := 64, addr := line, tag := id,
                len := 80, data := a.data, poison := a.poison, x := [a.hint] }
      else
        putAcc id a
        kskAccess id
    else
      lmInc lcREMOTE
      if m.g TWN_ROLE_STATE = roUNMIRRORED then
        onlyIf (m.lmRem = false) (do
          putLmRem true
          raise (((ev 7 2 0x0782).at a.addr).onSlice s))
        itemFail t i jsREMOTE_LOST
      else
        putAccNext (id + 1)
        putAcc id { a with bank := 4 }
        xsend { op := .loomReq, cls := if a.sort = 0 then 2 else 3, inp := epKsk b, out := epSPN, agent := 64,
                addr := a.addr, tag := id, len := 32 + 8 * a.data.length, data := a.data, poison := a.poison,
                x := [a.sort, a.op, a.pkts, a.bytes, (if a.wide then 1 else 0), a.len, a.hint] }

/-! Run-ahead (R268). -/

/-- The key bits before level `m` of a walk and the bits of that level, where it exists. -/
def lpmLevel (m : Mach) (n bits key l : Nat) : Option (Nat × Nat × Nat) :=
  let off := ((List.range l).map (lpmStride m n)).foldl (· + ·) 0
  let s := lpmStride m n l
  if (List.range (l + 1)).all (fun k => lpmStride m n k ≠ 0) && off + s ≤ bits then
    some (key / 2 ^ (bits - off), key / 2 ^ (bits - off - s) % 2 ^ s, off)
  else none

/-- The prediction of an engine for a level, where an entry matches. -/
def predGet (m : Mach) (e n l pre : Nat) : Option Nat :=
  let h := Config.predictorHash n l pre
  let p := m.getPred (e * 4096 + h % 4096)
  if p.1 = h / 4096 % 2 ^ 20 + 1 then some p.2 else none

/-- Training from demand-path data: a child is written where it differs, a missing child invalidates. -/
def predTrain (e n l pre : Nat) (child : Option Nat) : P Unit := do
  let m ← getM
  let h := Config.predictorHash n l pre
  let key := e * 4096 + h % 4096
  match child with
  | some c => onlyIf (predGet m e n l pre ≠ some c) (putPred key (h / 4096 % 2 ^ 20 + 1, c))
  | none => onlyIf ((predGet m e n l pre).isSome = true) (putPred key (0, 0))

/-- The run-ahead read of one level: served by a Kiosk hit or not at all. -/
def raIssue (t i n bits key l : Nat) : P Unit := do
  let m ← getM
  let s := (m.getJob t).slice
  match lpmLevel m n bits key l with
  | none => pure ()
  | some (pre, idx, _) =>
    match predGet m (t / 64) n l pre with
    | none => pure ()
    | some c =>
      if m.acc.any (fun e => e.2.thread = t && e.2.item = i && e.2.sort = 1 && e.2.level = l) then pure ()
      else
        let node := tBase m n + 64 * c
        let addr := node + 8 * idx
        lmInc lcRA_ISSUED
        let ok ← kerbCheck (some s) (rtLM + rtRD) 1 (t / 64) addr true
        if ok = false then lmInc lcRA_DISCARD
        else
          let id := m.accNext
          putAccNext (id + 1)
          let a : LAcc := { st := 1, thread := t, item := i, sort := 1, addr := addr, level := l, node := node,
                            epoch := m.g KRB_FENCE_STATUS_EPOCH, slice := s, tag := id }
          match (if homesLine m (lineOf addr) then kskPeek m (lineOf addr) else none) with
          | some (d, p) => putAcc id { a with st := 2, data := d, poison := p }
          | none => putAcc id a

/-- The data of a confirmed run-ahead read of level `l`, which is then used; one that does not match, is stale or brought
nothing is discarded (R268, R269). -/
def raTake (t i l node : Nat) : P (Option (List Word)) := do
  let m ← getM
  match m.acc.find? (fun e => e.2.thread = t && e.2.item = i && e.2.sort = 1 && e.2.level = l) with
  | none => return none
  | some (id, a) => do
    putAcc id {}
    if a.st = 2 ∧ a.node = node ∧ a.stale = false ∧ a.poison = false then
      lmInc lcRA_USED
      return some a.data
    else
      lmInc lcRA_DISCARD
      return none

/-! The steps of an item. -/

/-- What an item does next. -/
inductive LAct where
  /-- A demand read of `len` bytes at an address. -/
  | read (addr len : Nat)
  /-- A counter update of the pair at an address. -/
  | update (addr pkts bytes : Nat)
  /-- A write of the copy's line. -/
  | write (addr len : Nat)
  /-- It ends. -/
  | done
  /-- It ends outside its table (BOUNDS). -/
  | bounds

/-- A read inside its table, or BOUNDS. -/
def readIn (m : Mach) (n addr len : Nat) : LAct :=
  if tBase m n ≤ addr && addr + len ≤ tBase m n + tSize m n then .read addr len else .bounds

/-- CRC-32C over bytes (R258): Castagnoli polynomial, reflected, no final inversion. -/
def crc32c (init : Nat) (l : List Nat) : Nat :=
  l.foldl (fun c b => (List.range 8).foldl (fun c _ => if c % 2 = 1 then c / 2 ^^^ 0x82F63B78 else c / 2) (c ^^^ b)) init

/-- The candidate buckets of a key (R258). -/
def exmCands (m : Mach) (n : Nat) (key : List Nat) : Nat × Nat :=
  let nb := Nat.max 1 (exmBuckets m n)
  let b1 := crc32c 0xFFFFFFFF key % nb
  let b2 := crc32c (bitsAt (m.g (LM_TBL_PARAM_PARAM n)) 32 32) key % nb
  (b1, if b2 = b1 then b1 ^^^ 1 else b2)

/-- The result word of the first VALID entry of a bucket whose key matches (R258). -/
def exmMatch (ws : List Word) (kw : Nat) (key : List Nat) : Option Nat :=
  (List.range 8).findSome? fun s =>
    let r := leNat (bytesAt ws (s * (kw + 8) + kw) 8)
    if bytesAt ws (s * (kw + 8)) kw = key ∧ bitsAt r 63 1 = 1 then some r else none

/-- The keybits of an LPM job. -/
def lpmBits (kind : Nat) : Nat := if kind = jkLPM4 then 32 else 128

/-- The length of the copy's piece in one destination line. -/
def cpyPiece (j : Job) (off : Nat) : Nat := Nat.min (j.cpyLen - off) (64 - (j.dst + off) % 64)

/-- What item `i` does next, from where it stands. -/
def itemNext (m : Mach) (j : Job) (i : Nat) (it : LItem) : LAct :=
  let n := j.tableAt i
  match j.kindAt i with
  | 1 | 2 =>
    let bits := lpmBits (j.kindAt i)
    let s := lpmStride m n it.level
    if it.phase = 1 ∨ s = 0 ∨ bits < it.off + s then .done
    else readIn m n (it.node + 8 * (beNat (j.key m i) / 2 ^ (bits - it.off - s) % 2 ^ s)) 8
  | 3 =>
    let lines := exmBucket m n / 64
    let (b1, b2) := exmCands m n (j.key m i)
    if it.hit ∨ 2 * lines ≤ it.phase then .done
    else
      let b := if it.phase < lines then b1 else b2
      readIn m n (tBase m n + b * exmBucket m n + 64 * (it.phase % lines)) 64
  | 4 =>
    if it.phase = 0 then readIn m n (tBase m n) 16
    else if it.lo ≤ it.hi then readIn m n (tBase m n + 16 * ((it.lo + it.hi) / 2)) 16
    else .done
  | 5 =>
    let v := leNat (j.key m i)
    let w := 2 * cntWidth (cntWide m n)
    let a := tBase m n + w * bitsAt v 0 32
    if it.phase = 1 then .done
    else if a + w ≤ tBase m n + tSize m n then .update a (bitsAt v 56 8) (bitsAt v 32 24) else .bounds
  | 6 => if it.phase = 1 then .done else readIn m n (tBase m n + 8 * bitsAt (leNat (j.key m i)) 0 32) 8
  | 7 =>
    if j.cpyLen ≤ it.off then .done
    else
      let p := cpyPiece j it.off
      let a := j.src + it.off + it.lo
      if j.op = 0 ∧ it.lo < p then .read a (Nat.min (p - it.lo) (64 - a % 64)) else .write (j.dst + it.off) p
  | _ => .done

/-- The image of the destination line that a copy writes: gathered bytes, or the pattern (R266). -/
def cpyData (j : Job) (it : LItem) (p : Nat) : List Word :=
  let o := (j.dst + it.off) % 64
  if j.op = 1 then putBytes [] o ((List.range p).map (fun k => j.byte (16 + (it.off + k) % 8))) else it.buf.take 8

/-- What item `i` takes from the data of its read (R257-R260, R265, R266): the item after it, or a status with which it
fails. -/
def itemTake (t i : Nat) (j : Job) (it : LItem) (a : LAcc) (ws : List Word) (poison : Bool) : P (LItem × Nat) := do
  let m ← getM
  let n := j.tableAt i
  let o := a.addr % 64
  match j.kindAt i with
  | 1 | 2 => do
    let bits := lpmBits (j.kindAt i)
    let e := leNat (bytesAt ws o 8)
    let best := if bitsAt e 31 1 = 1 then bitsAt e 0 32 else it.res
    let hit := it.hit || decide (bitsAt e 31 1 = 1)
    let off := it.off + lpmStride m n it.level
    let child := if bitsAt e 62 1 = 1 then some (bitsAt e 32 30) else none
    onlyIf ((lpmLevel m n bits (beNat (j.key m i)) (it.level + 1)).isSome = true)
      (predTrain (t / 64) n (it.level + 1) (beNat (j.key m i) / 2 ^ (bits - off)) child)
    match child with
    | some c => return ({ it with res := best, hit := hit, off := off, level := it.level + 1, node := tBase m n + 64 * c }, 0)
    | none => return ({ it with res := best, hit := hit, phase := 1 }, 0)
  | 3 => do
    let lines := exmBucket m n / 64
    let buf := it.buf ++ ws.take 8
    let ph := it.phase + 1
    if ph % lines = 0 then
      match exmMatch buf (exmWidth m n) (j.key m i) with
      | some r =>
        return ({ it with phase := ph, hit := true, buf := [],
                          res := bitsAt r 0 48 + 2 ^ 48 + (if lines < ph then 2 ^ 50 else 0) }, 0)
      | none => return ({ it with phase := ph, buf := [] }, 0)
    else return ({ it with phase := ph, buf := buf }, 0)
  | 4 => do
    let e := leNat (bytesAt ws o 16)
    let key := beNat (j.key m i)
    let it : LItem := if it.phase = 0 then { it with phase := 1, lo := 1, hi := bitsAt e 0 32 }
      else
        let mid := (it.lo + it.hi) / 2
        if key < bitsAt e 0 32 then { it with hi := mid - 1 }
        else { it with ans := mid, lo := mid + 1, n := bitsAt e 32 32, off := bitsAt e 64 24 }
    if it.lo ≤ it.hi then return (it, 0)
    else if 0 < it.ans ∧ key ≤ it.n then return ({ it with hit := true, res := it.off + 2 ^ 24 }, 0)
    else return (it, 0)
  | 6 => do
    let e := leNat (bytesAt ws o 8)
    let v := leNat (j.key m i)
    let f := bitsAt e 0 20
    if domOn m dTM = false then return (it, jsTIMEOUT)
    else if bitsAt e 31 1 = 0 ∨ flVALID m f = false ∨ flSLICE m f ≠ j.slice then return (it, jsFLOW_DENIED)
    else
      let c ← meterFlow f (bitsAt v 32 14) (bitsAt v 46 2)
      return ({ it with phase := 1, res := c }, 0)
  | 7 =>
    let d := (j.dst + it.off) % 64 + it.lo
    return ({ it with lo := it.lo + a.len, hit := it.hit || poison, buf := putBytes it.buf d (bytesAt ws o a.len) }, 0)
  | _ => return (it, 0)

/-- The addresses that a line of a copy accesses and the rights they need (R255): the source bytes' lines, then the
destination line. -/
def cpyLineAccesses (j : Job) (off : Nat) : List (Nat × Nat) :=
  let a := j.src + off
  let e := a + cpyPiece j off - 1
  (if j.op ≠ 0 then [] else if lineOf e = lineOf a then [(a, rtRD)] else [(a, rtRD), (lineOf e, rtRD)]) ++
    [(j.dst + off, rtWR)]

/-- A line of a copy is checked when it is issued, its source and its destination (R255, Table 11.5): the check stops at
the first refusal. -/
def cpyCheck (t s : Nat) : List (Nat × Nat) → P Bool
  | [] => return true
  | (a, need) :: l => do
    let ok ← kerbCheck (some s) (rtLM + need) 1 (t / 64) a false
    if ok then cpyCheck t s l else return false

/-- An item goes on until it waits for an access or ends: run-ahead data may carry a walk over several levels. -/
def itemDrive (t i : Nat) : Nat → P Unit
  | 0 => pure ()
  | f + 1 => do
    let m ← getM
    let j := m.getJob t
    let it := j.items.getD i {}
    if j.kind = jkCPY ∧ it.pass = 0 ∧ it.off < j.cpyLen then
      let ok ← cpyCheck t j.slice (cpyLineAccesses j it.off)
      if ok then
        itemPut t i { it with pass := m.g KRB_FENCE_STATUS_EPOCH + 1 }
        itemDrive t i f
      else
        lmInc lcDENIED
        itemFail t i jsDENIED
    else match itemNext m j i it with
    | .done => itemDone t i it
    | .bounds => itemFail t i jsBOUNDS
    | .update a p b =>
      lmIssue t i { sort := 2, addr := a, len := 2 * cntWidth (cntWide m (j.tableAt i)), op := j.opAt, pkts := p, bytes := b,
                    wide := cntWide m (j.tableAt i) }
    | .write a p =>
      lmIssue t i { sort := if p = 64 then 3 else 4, addr := a, len := p, data := cpyData j it p, poison := it.hit,
                    hint := j.byte 12 }
    | .read a len =>
      if j.kindAt i ≤ 2 then
        let used ← raTake t i it.level it.node
        match used with
        | some ws => do
          let r ← itemTake t i j it { addr := a } ws false
          itemPut t i r.1
          itemDrive t i f
        | none => do
          lmIssue t i { sort := 0, addr := a, len := len, level := it.level }
          let k ← getM
          if (k.getJob t).items.getD i {} = it ∧ m.g LM_CTL_RA_EN = 1 then
            let bits := lpmBits (j.kindAt i)
            let key := beNat (j.key m i)
            raIssue t i (j.tableAt i) bits key (it.level + 1)
            raIssue t i (j.tableAt i) bits key (it.level + 2)
      else lmIssue t i { sort := 0, addr := a, len := len }

/-! Jobs. -/

/-- The result bytes of one item (Tables 10.2 and 10.3). -/
def itemBytes (m : Mach) (j : Job) (it : LItem) : List Nat :=
  match j.kind with
  | 1 | 2 => leBytes (if it.err then 0xFF * 2 ^ 23 else it.res) 4
  | 3 => leBytes (if it.err then 2 ^ 49 else it.res) 8
  | 4 => leBytes (if it.err then 2 ^ 25 else it.res) 4
  | 5 =>
    let w := 2 * cntWidth (cntWide m j.table)
    if j.op = 0 then [] else if it.err then List.replicate w 0 else bytesAt it.buf 0 w
  | 6 => [if it.err then 4 else it.res % 4]
  | _ => []

/-- The result bytes of a step (R267); a step that did not run reads 0. -/
def stepBytes (j : Job) (i : Nat) : List Nat :=
  let it := j.items.getD i {}
  if it.st ≠ 2 then List.replicate 8 0
  else leBytes ((if it.err then 0 else stepValue (j.kindAt i) it.res) + it.stat * 2 ^ 32 +
    (if it.hit ∧ it.err = false then 2 ^ 40 else 0)) 8

/-- RESULT of a job (R261, Tables 10.2 and 10.4). -/
def jobResult (m : Mach) (j : Job) : List Nat :=
  match j.kind with
  | 5 => leBytes (j.items.foldr (fun it a => (if it.err then 1 else 0) + 2 * a) 0) 8 ++
      j.items.flatMap (itemBytes m j)
  | 7 => leBytes j.done 4
  | 8 => (List.range j.count).flatMap (stepBytes j)
  | _ => j.items.flatMap (itemBytes m j)

/-- A job finishes with its result. -/
def jobFinish (t : Nat) : P Unit := do
  let m ← getM
  let j := m.getJob t
  let r := jobResult m j
  putJob t { j with st := 2, result := wordsOf ((r.length + 7) / 8) r, slots := (16 + r.length + 63) / 64 }

/-- Items that a job runs at once (R252). -/
def jobWidth (j : Job) : Nat := if j.kind ≤ 4 then 4 else 1

/-- Whether a chain or a copy has stopped (R266, R267). -/
def jobStopped (j : Job) : Bool :=
  (j.kind = jkCHN && j.items.any (fun it => it.st = 2 && it.stat ≠ 0)) || (j.kind = jkCPY && j.items.any (·.err))

/-- A job starts what it may start, and finishes when nothing runs and nothing is left (R252). -/
def jobAdvance (t : Nat) : Nat → P Unit
  | 0 => pure ()
  | f + 1 => do
    let m ← getM
    let j := m.getJob t
    let running := (j.items.filter (fun it => it.st = 1)).length
    if j.st = 1 then
      match (if jobStopped j then none else j.items.findIdx? (fun it => it.st = 0)) with
      | some i =>
        if running < jobWidth j then do
          itemPut t i { st := 1, node := tBase m (j.tableAt i) }
          onlyIf (j.kind ≠ jkCPY) (lmInc lcITEMS)
          pmuCount 0x0E 1 { slice := some j.slice, vcs := some (m.g (TEN_STATUS_VCS j.slice)), engine := some (t / 64) }
          itemDrive t i 16
          jobAdvance t f
        else pure ()
      | none => onlyIf (running = 0) (jobFinish t)

/-- Whole entries that a submission ring has fetched (R238). -/
def wholeEntries (m : Mach) (r : Nat) : Nat → Nat → Nat
  | 0, _ => 0
  | f + 1, c =>
    match (m.getRing r).slots.find? (fun s => s.1 = c) with
    | none => 0
    | some s =>
      let h := (s.2.headD 0#64).toNat
      let n := bitsAt h 0 4
      if n = 0 ∨ idxDiff (m.g (RNG_PROG_FETCHED r)) c < n then 0
      else (if bitsAt h 8 8 = 0 then 0 else 1) + wholeEntries m r f ((c + n) % 2 ^ 32)

/-- A submission ring is eligible (R238). -/
def ringEligible (m : Mach) (r : Nat) : Bool :=
  m.g (RNG_CFG_VALID r) = 1 && m.g (RNG_CFG_TYPE r) = 0 && m.g (RNG_STATUS_STATE r) = rsRUNNING &&
    0 < wholeEntries m r 64 (m.g (RNG_IDX_CONS r)) && gateOpen m (m.g (RNG_CFG_COMPLETION_RING r)) &&
    (freeThread m).isSome

/-- One entry of ring `r` is handed to a thread (R226, R239, R252, R262). -/
def jobDispatch (r t : Nat) : P Unit := do
  let m ← getM
  let c := m.g (RNG_IDX_CONS r)
  match headSlot m r with
  | none => pure ()
  | some ws =>
    let h := (ws.headD 0#64).toNat
    let n := bitsAt h 0 4
    let words := (List.range n).flatMap fun i =>
      ((((m.getRing r).slots.find? (fun s => s.1 = (c + i) % 2 ^ 32)).map (·.2)).getD [])
    let comp := m.g (RNG_CFG_COMPLETION_RING r)
    let j0 : Job := { words := words }
    let j : Job :=
      { st := 1, sub := r, comp := comp, subGen := (m.getRing r).gen, compGen := (m.getRing comp).gen, tag := j0.le 4 4,
        irq := bitsAt (j0.byte 2) 0 1 = 1, kind := j0.byte 1, op := j0.byte 11, slice := m.g (RNG_CFG_SLICE r),
        table := j0.le 8 2 % 1024, count := j0.byte 10, words := words }
    addSat (RNG_PROG_OWED r) 1
    addSat (RNG_PROG_OWED comp) 1
    inc (RNG_CNT_ENTRIES r)
    takeSlots r n
    checkHead r 8
    gateUpdate comp
    if jobOk m j n = false then
      lmInc lcMALFORMED
      putJob t { j with st := 2, stat := jsMALFORMED }
    else if tableOff m j then putJob t { j with st := 2, stat := jsTABLE_OFF }
    else
      putJob t { j with items := List.replicate (if j.kind = jkCPY then 1 else j.count) {} }
      jobAdvance t 130

/-- The eligible rings with credit, from the ring after the last one served, wrapping (R238). -/
def rrOrder (m : Mach) (l : List Nat) : List Nat :=
  l.filter (fun r => m.rrLast < r) ++ l.filter (fun r => r ≤ m.rrLast)

/-- A round of R238 ends when no eligible ring has credit left; every valid submission ring starts the next with its WEIGHT as
credit and its BURST as it stands (R42). -/
def roundStart (el : List Nat) : P Unit := do
  let m ← getM
  onlyIf (el.all (fun r => (m.getRing r).credit = 0) = true)
    (each ((validRings m).filter (fun r => m.g (RNG_CFG_TYPE r) = 0)) fun r =>
      modRing r fun x => { x with credit := m.g (RNG_CFG_WEIGHT r), burst := m.g (RNG_CFG_BURST r) })

/-- RING_DISPATCH: one entry by weighted round robin (R238). -/
def ringDispatch : P Unit := do
  let m ← getM
  match freeThread m with
  | none => pure ()
  | some t =>
    if 0 < m.rrBurst ∧ ringEligible m m.rrLast = true then do
      putRrBurst (m.rrBurst - 1)
      jobDispatch m.rrLast t
    else
      let el := (validRings m).filter (ringEligible m)
      roundStart el
      let k ← getM
      match rrOrder k (el.filter (fun r => 0 < (k.getRing r).credit)) with
      | [] => putRrBurst 0
      | r :: _ => do
        putRrLast r
        putRrBurst (Nat.min (k.getRing r).burst (wholeEntries k r 64 (k.g (RNG_IDX_CONS r))) - 1)
        modRing r fun x => { x with credit := x.credit - 1 }
        jobDispatch r t

/-- The result of a thread's job as the ring engine takes it (R231, R241). -/
def jobRes (j : Job) (t : Nat) : JobRes :=
  { sub := j.sub, comp := j.comp, subGen := j.subGen, compGen := j.compGen, tag := j.tag, irq := j.irq, status := j.stat,
    poison := j.poison, slots := j.slots, result := j.result, cluster := t / 512 }

/-- JOB_COMPLETE: the finished job of thread `t` hands its result to the ring engine and the thread is free (R241,
R252). -/
def jobComplete (t : Nat) : P Unit := do
  let j ← getJob t
  if j.st = 2 then
    putJob t {}
    lmInc lcJOBS
    resultPut (jobRes j t)

/-- A poisoned read: its item fails (R263), but for a copy's source, which is written poisoned (R266). -/
def jobPoison (t : Nat) : P Unit := do
  lmInc lcPOISON
  modJob t fun j => { j with poison := true, stat := statMerge j.stat jsPOISON }

/-- The answer to an access has come to its thread. -/
def accTake (a : LAcc) : P Unit := do
  let t := a.thread
  let i := a.item
  onlyIf (a.poison = true) (jobPoison t)
  let m ← getM
  let j := m.getJob t
  let it := j.items.getD i {}
  if a.sort = 0 then
    if a.poison ∧ j.kind ≠ jkCPY then itemFail t i jsPOISON
    else do
      let r ← itemTake t i j it a a.data a.poison
      if r.2 ≠ 0 then itemFail t i r.2
      else do
        itemPut t i r.1
        itemDrive t i 16
  else if a.sort = 2 then
    if a.poison then itemFail t i jsPOISON
    else itemDone t i { it with buf := a.data }
  else do
    let off := it.off + a.len
    modJob t fun j => { j with done := off }
    itemPut t i { it with off := off, lo := 0, hit := false, buf := [], pass := 0 }
    itemDrive t i 16
  jobAdvance t 130

/-- LOOM_ACCESS_RESPONSE: data or an acknowledgement returns to a thread, and its job advances or completes. `ue` says
that the line was found with an uncorrectable error at this access (R276): a clean line is dropped and the access served
as a miss, a dirty one is written back poisoned and the access receives poison. A response whose access has ended is late:
it is discarded and counted (R19); no register of the block shows that count. -/
def accResponse (id : Nat) (ue : Bool) : P Unit := do
  let m ← getM
  let a := m.getAcc id
  let line := lineOf a.addr
  let ready := a.st = 2 ∨ (a.st = 1 ∧ a.sort = 3 ∧ a.bank < 4)
  if ready ∧ a.thread < 4096 ∧ a.sort ≠ 1 then
    match (if ue ∧ a.sort ≠ 3 ∧ a.bank < 4 then kFind m a.bank line else none) with
    | some w => do
      let dirty := (m.getKline (kKey a.bank line w)).st = 3
      kskUe line dirty
      kskDrop a.bank w line true
      if dirty then
        putAcc id {}
        accTake { a with poison := true }
      else do
        putAcc id { a with st := 1 }
        kskAccess id
    | none => do
      putAcc id {}
      accTake (if a.sort = 3 then { a with poison := false } else a)
  else onlyIf (a.st = 0 ∧ id < m.accNext) (modLmLate (· + 1))

/-- LOOM_ACCESS_TIMEOUT: ACC_TMO expires on an access: its item fails with TIMEOUT, and what comes later is discarded
(R263, R19). -/
def accTimeout (id : Nat) : P Unit := do
  let m ← getM
  let a := m.getAcc id
  if a.st ≠ 0 ∧ a.thread < 4096 ∧ a.sort ≠ 1 then
    putAcc id {}
    each (List.range 4) fun b => modKmiss b fun l =>
      (l.map fun e => { e with wait := e.wait.filter (· ≠ id) }).filter (fun e => e.wait ≠ [] || e.way ≠ 16)
    lmInc lcTIMEOUT
    onlyIf (m.lmTmo = false) (do
      putLmTmo true
      raise (((ev 7 0 0x0784).at a.addr).onSlice a.slice))
    itemFail a.thread a.item jsTIMEOUT
    jobAdvance a.thread 130

/-- The accesses that waited for a lost Kiosk bank complete their items with ERROR, and their jobs have status TIMEOUT
(R384). -/
def bankAccLost (k : Nat) : P Unit := do
  let m ← getM
  each (m.acc.filter fun e => e.2.bank = k && e.2.st = 1 && e.2.sort ≠ 1 && e.2.thread < 4096) fun e => do
    putAcc e.1 {}
    itemFail e.2.thread e.2.item jsTIMEOUT
    jobAdvance e.2.thread 130

/-! Clusters. -/

/-- The predictors of a cluster's engines are invalid (R268). -/
def predClear (c : Nat) : P Unit := do
  let m ← getM
  each (m.pred.filter (fun e => e.1 / 32768 = c)) fun e => putPred e.1 (0, 0)

/-- A cluster is lost: the ring engine completes its jobs and held results with TIMEOUT and no RESULT (R253). -/
def clusterLost (c : Nat) : P Unit := do
  let m ← getM
  if m.g (clState c) ≠ clOFF ∧ m.g (clState c) ≠ clLOST then
    wr (clState c) clLOST
    each m.acc fun e => onlyIf (e.2.thread / 512 = c) (putAcc e.1 {})
    each (List.range 4) fun b => modKmiss b fun l =>
      (l.map fun e => { e with wait := e.wait.filter (fun id => (m.getAcc id).thread / 512 ≠ c) }).filter
        (fun e => e.wait ≠ [] || e.way ≠ 16)
    each m.ring fun e => do
      addSat (LM_CNT_COUNT lcTIMEOUT) (e.2.held.filter (·.cluster = c)).length
      putRing e.1 { e.2 with held := e.2.held.map fun r =>
        if r.cluster = c then { r with status := jsTIMEOUT, result := [], slots := 1, poison := false } else r }
    each (m.job.filter (fun e => e.1 / 512 = c && e.2.st ≠ 0)) fun e => do
      putJob e.1 {}
      lmInc lcTIMEOUT
      lmInc lcJOBS
      resultPut { jobRes e.2 e.1 with status := jsTIMEOUT, result := [], slots := 1, poison := false }
    raise ((ev 7 2 0x0781).b24 c)

/-- Held results of a cluster's jobs. -/
def clHeld (m : Mach) (c : Nat) : Bool := m.ring.any (fun e => e.2.held.any (fun r => r.cluster = c))

/-- CLUSTER_DRAINED: a DRAINING cluster's jobs and results are gone, and it enters TEST (R253). -/
def clusterDrained (c : Nat) : P Unit := do
  let m ← getM
  onlyIf (m.g (clState c) = clDRAINING ∧ clBusy m c = 0 ∧ clHeld m c = false) (wr (clState c) clTEST)

/-- RETURN brings a TEST or LOST cluster back while its domain is ON (R253). -/
def clusterReturn (c : Nat) : P Unit := do
  let m ← getM
  onlyIf ((m.g (clState c) = clTEST ∨ m.g (clState c) = clLOST) ∧ domOn m (dLM c) = true) (wr (clState c) clSERVICE)

/-- A cluster's domain reaches ON. -/
def clusterOn (c : Nat) : P Unit := do
  let m ← getM
  onlyIf (m.g (clState c) = clOFF) (wr (clState c) clSERVICE)

/-- LM_STATUS as it stands. -/
def lmStatus (m : Mach) : Nat :=
  (m.job.filter (fun e => e.2.st ≠ 0)).length % 2 ^ 13 +
    ((List.range 8).foldl (fun a c => a + (if m.g (clState c) = clSERVICE then 2 ^ c else 0)) 0) * 2 ^ 16

/-- The rules of a live write to an LM register (R253, R254, R279). -/
def lmRule (m : Mach) (k : RegKind) (i old new _mask : Nat) : Nat :=
  match k with
  | .LM_CL_CTL =>
    let set := (List.range 8).filter (fun c => bitsAt new c 1 = 1 && bitsAt old c 1 = 0 && m.g (clState c) = clSERVICE)
    if set = [] then rcOK
    else if (List.range 8).any (fun c => m.g (clState c) = clDRAINING) then rcLM_BUSY
    else if (List.range 8).all (fun c => m.g (clState c) ≠ clSERVICE || c ∈ set) then rcLM_LIMIT
    else rcOK
  | .LM_TBL_PARAM =>
    if m.g (LM_TBL_CFG_ENABLE i) = 1 ∨ tableIdle m i = false then rcLM_BUSY
    else if paramOk m i new then rcOK else rcLM_LIMIT
  | _ => rcOK

/-- The effect of an accepted write to an LM register; `cmd` holds the bits written. -/
def lmEffect (k : RegKind) (old cmd : Nat) : P Unit := do
  match k with
  | .LM_CTL => do
    onlyIf (bitsAt cmd 0 1 = 1) (do
      each (List.range 10) fun c => rstReg .LM_CNT c
      putLmTmo false
      putLmRem false)
    onlyIf (bitsAt cmd 2 1 = 1) clearPred
  | .LM_CL_CTL => do
    let m ← getM
    each (List.range 8) fun c => do
      onlyIf (bitsAt (m.g LM_CL_CTL_OUT) c 1 = 1 ∧ bitsAt old c 1 = 0 ∧ m.g (clState c) = clSERVICE)
        (wr (clState c) clDRAINING)
      onlyIf (bitsAt cmd (8 + c) 1 = 1) (clusterReturn c)
  | _ => pure ()

end Sys2Proof.Machine
end

