-- ==== Sys2Proof/Machine/Ports.lean ====
section
/-!
DEFINITION. Ports and hierarchies (03_lanes_ports_hierarchies.md): training, the port states, flush, IDE, PERST_N,
decoders, and the messages that hosts and devices send.
-/
namespace Sys2Proof.Machine

/-- The octets whose domains a port needs (R47). -/
def portOcts (m : Mach) (p : Nat) : List Nat := if m.g (OCT_PORT_CFG_WIDTH p) = 4 then [p / 4, p / 4 + 1] else [p / 4]



/-- The lanes a link of `n` lanes uses: the lowest, or the highest when reversed (R48). -/
def linkLanes (m : Mach) (p n : Nat) (rev : Bool) : List Nat :=
  let first := p / 4 * 8 + p % 4 * 2 + (if rev then portWidth m p - n else 0)
  (List.range n).map (first + ·)

/-- Bits of OCT_STATUS follow a port's lanes: LANE_DETECT at 0, LANE_ACTIVE at 8. -/
def laneBits (lo : Nat) (l : List Nat) (b : Nat) : P Unit := each l fun n => wr ⟨.OCT_STATUS, n / 8, lo + n % 8, 1⟩ b

/-- The lanes of a port become inactive; its link fields read 0 (R80). -/
def linkClear (p : Nat) : P Unit := do
  let m ← getM
  laneBits 8 (linkLanes m p (portWidth m p) false) 0
  let st := m.g (OCT_PORT_STATUS_STATE p)
  wrReg .OCT_PORT_STATUS p st
  wr (OCT_PORT_IDE_STATE p) 0
  wr (OCT_PORT_IDE_MODE p) 0

/-- Whether PERST_N of a host port is asserted. -/
def portPerst (m : Mach) (p : Nat) : Bool := (upVcs m p).any (fun v => m.pins.perst.getD v false)

/-- A port takes a state. -/
def portTo (p st : Nat) : P Unit := wr (OCT_PORT_STATUS_STATE p) st

/-- An octet event (R79). -/
def octEv (sev code p : Nat) : EvRec := (ev 2 sev code).onPort p

/-- Whether the Stagon offers the extended rate (R53). -/
def xrateOffer (m : Mach) (p : Nat) : Bool :=
  m.g (OCT_PORT_CFG_RATE_MAX p) = 6 && m.g (OCT_PORT_CFG_SRIS p) = 0 && m.g (OCT_PORT_CTL_XRATE_OFFER p) = 1 &&
    m.g (OCT_PORT_CTL_TARGET_RATE p) = 6

/-- The training or Recovery that starts takes up TARGET_RATE, the offer of the extended rate and EQ_BYPASS as they stand
(R60). -/
def linkPolicy (p : Nat) : P Unit := do
  let m ← getM
  modPort p fun x => { x with target := m.g (OCT_PORT_CTL_TARGET_RATE p), offer := xrateOffer m p,
                              bypass := m.g (OCT_PORT_CTL_EQ_BYPASS p) = 1 }

/-- A training attempt starts at Detect (R57). `fresh` is one that is no retry. Where the extended rate is offered, the
vendor-defined entry goes out with the vendor ID and bit 0 of its capability word (R53). -/
def trainStart (p : Nat) (fresh : Bool) : P Unit := do
  let m ← getM
  linkClear p
  laneBits 0 (linkLanes m p (portWidth m p) false) 0
  portTo p psTRAINING
  inc (OCT_PORT_TRAIN_ATTEMPTS p)
  wr (OCT_PORT_TRAIN_XRATE_OFFERED p) (if xrateOffer m p then 1 else 0)
  wr (OCT_PORT_TRAIN_XRATE_PARTNER p) 0
  wr (OCT_PORT_TRAIN_EQ_BYPASS_USED p) 0
  modPort p fun x => { x with tries := if fresh then 0 else x.tries + 1, recovery := false }
  linkPolicy p
  onlyIf (xrateOffer m p = true) (emit (.apnEntry p (Config.vendorId % 65536) 1))

/-- A port in OFF leaves it once its octets are ON, structure is ENABLED and ENABLE is 1 (Table 3.3). -/
def portKick (p : Nat) : P Unit := do
  let m ← getM
  if m.g (OCT_PORT_STATUS_STATE p) = psOFF ∧ m.g (OCT_PORT_CFG_VALID p) = 1 ∧ m.g (OCT_PORT_CTL_ENABLE p) = 1 ∧
      m.g GLB_STRUCT_STATUS_STATE = stENABLED ∧ (portOcts m p).all (fun o => domOn m (dOCT o)) then
    if portPerst m p then portTo p psRESET else trainStart p true

/-- The agents with a port UP at this twin, one bit each (Table 12.4). -/
def agentMap (m : Mach) : Nat :=
  (List.range 64).foldl (fun s a => if (agentPort m a).any (fun p => portUp m p) then s + 2 ^ a else s) 0

/-- A PORT_STATE packet goes to the partner while the link is there (R310). -/
def portStateSend : P Unit := do
  let m ← getM
  onlyIf (m.g TWN_SPN_STATUS_STATE = spUP ∨ m.g TWN_SPN_STATUS_STATE = spRECOVERY)
    (xsend { op := .portState, cls := 7, inp := epMG, out := epSPN, len := 32, data := [w64 (agentMap m), w64 m.time64] })

/-- An agent is lost at this twin (R162, R163). -/
def agentLost (a : Nat) : P Unit := do
  let m ← getM
  onlyIf (m.getAlost a = false) (do
    sqAgentLost a
    crnAgentLost a)

/-- The agent behind a port has left UP here (R162). -/
def agentDown (p : Nat) : P Unit := do
  let m ← getM
  match portAgent m p with
  | some a => do
    onlyIf (¬(m.g TWN_ROLE_MIRRORED = 1 ∧ m.getPagent a = true)) (agentLost a)
    portStateSend
  | none => pure ()

/-- The CXL.cache requests that a port leaving UP leaves open are answered for it (Table 6.6): the devices' requests
with GO-Err and poisoned data, a host's snoops with RspIHitI. -/
def cacheDown (p : Nat) : P Unit := do
  let m ← getM
  each (m.cout.filter (fun c => c.out = p && c.inp ≠ p)) fun c =>
    emit (.port c.inp { c with inp := p, out := c.inp, poison := decide (c.op = .h2dData),
                               x := [c.x.headD 0, if c.op = .d2hRsp then 1 else 0xE] })
  modCout (·.filter (fun c => c.out ≠ p && c.inp ≠ p))

/-- The snoops that a Square has sent through a port and that its agent owes an answer to end at once, as those of a lost
agent (Table 6.6). -/
def snoopsDown (p : Nat) (owed : List (Op × Nat × Nat)) : P Unit := do
  let m ← getM
  match portAgent m p with
  | some a => each (owed.filter (fun e => e.1 = .birspI && 128 ≤ e.2.2 && e.2.2 < 160)) fun e => do
    let sq := e.2.2 - 128
    let k ← getTrk (sq * 8192 + e.2.1)
    if k.st = 2 ∧ a ∈ k.wait then
      snoopLost sq e.2.1 a true
      trkGo sq e.2.1
  | none => pure ()

/-- A port leaves UP (R108, R162, R164, R247): its queues are flushed, its transactions end, its host's rings stop. A spill
read that the port had sent ends with poison (log entry 145). -/
def portLeaveUp (p st : Nat) : P Unit := do
  let owed ← getOwed p
  portTo p st
  xbFlushPort p
  snoopsDown p owed
  each (owed.filter fun e => e.1 = .memData && e.2.2 = epTM) fun e => spillLanded e.2.1 zeroLine true
  modBic (·.filter (fun q => q.inp ≠ p))
  cacheDown p
  let m ← getM
  modKacc (·.filter (fun e => e.1 ≠ p))
  match upVcs m p with
  | some v => vcsRingsStop v
  | none => pure ()
  crnPortDown p
  agentDown p

/-- Whether logical device `d` of port `p` is bound to VCS `v` (R68). -/
def ldBound (m : Mach) (p d v : Nat) : Bool := m.ldb.any fun e => e.1 = p && e.2.1 = d && e.2.2.1 = v

/-- Whether a port's logical devices are bound one by one (R68). -/
def multiLd (m : Mach) (p : Nat) : Bool := m.ldb.any fun e => e.1 = p

/-- The VCSs that have a vPPB for port `p` or for a logical device on it (Table 3.5). -/
def portVcss (m : Mach) (p : Nat) : List Nat :=
  (List.range 64).filter fun v => (m.getVcs v).valid &&
    (if multiLd m p then m.ldb.any (fun e => e.1 = p && e.2.2.1 = v) else bitsAt (m.getVcs v).down p 1 = 1)

/-- The VCS that logical device `d` of port `p` is bound to, or the port's own where its logical devices are not bound one by
one (R68). -/
def ldVcs (m : Mach) (p d : Nat) : Nat :=
  if multiLd m p then
    match m.ldb.find? fun e => e.1 = p && e.2.1 = d with
    | some e => e.2.2.1
    | none => 0xFF
  else m.g (OCT_PORT_CFG_VCS p)

/-- The vPPBs of the bound hosts report a change of port `p`: kind 0 of presence, 1 of the link, 2 a power fault (R74). -/
def hotplug (p kind : Nat) : P Unit := do
  let m ← getM
  each (portVcss m p) fun v => emit (.hotplug v p kind)

/-- A port goes to FLUSHING (R74, R108). -/
def portFlush (p : Nat) : P Unit := do
  inc (OCT_PORT_CNT0_LINK_DOWNS p)
  portLeaveUp p psFLUSHING
  linkClear p
  hotplug p 1

/-- A port enters UP. -/
def portToUp (p : Nat) : P Unit := do
  portTo p psUP
  wr (OCT_PORT_STATUS_HELD_REASON p) 0
  let m ← getM
  modPort p fun x => { x with recovery := false, credits := [] }
  hotplug p 1
  match portAgent m p with
  | some a => do
    putAlost a false
    portStateSend
  | none => pure ()

/-- A port enters HELD with a reason (R57, R59). -/
def portHold (p reason : Nat) : P Unit := do
  portTo p psHELD
  wr (OCT_PORT_STATUS_HELD_REASON p) reason
  onlyIf (reason ≠ 3) (raise ((octEv 0 0x0283 p).b24 reason))

/-- The rate a link settles at (R50, R53-R55, R60): no higher than RATE_MAX, the TARGET_RATE that this training or Recovery
took up, and what the partner reaches; the extended rate only where it is offered, was returned and no fallback bars it. -/
def finalRate (m : Mach) (p : Nat) (l : LinkUp) : Nat :=
  let x := m.getPort p
  let r := Nat.min l.rate (Nat.min x.target (m.g (OCT_PORT_CFG_RATE_MAX p)))
  if r = 6 ∧ ¬(x.offer = true ∧ m.g (OCT_PORT_TRAIN_XRATE_OFFERED p) = 1 ∧ m.g (OCT_PORT_TRAIN_XRATE_PARTNER p) = 1 ∧
      x.xrateBar = false) then 5 else Nat.min r 6

/-- The width a link settles at (R48): ×1, ×2, ×4, ×8 or ×16, no more than the port's. -/
def finalLanes (m : Mach) (p : Nat) (l : LinkUp) : Nat :=
  ([16, 8, 4, 2, 1].find? (fun n => n ≤ l.lanes && n ≤ portWidth m p)).getD 1

/-- The link fields follow the settled link (R80). -/
def linkShow (p rate lanes : Nat) (lopt rev cxl : Bool) : P Unit := do
  let b (x : Bool) : Nat := if x then 1 else 0
  wr (OCT_PORT_STATUS_RATE p) rate
  wr (OCT_PORT_STATUS_LANES p) lanes
  wr (OCT_PORT_STATUS_FLIT256 p) (b (5 ≤ rate))
  wr (OCT_PORT_STATUS_XRATE p) (b (rate = 6))
  wr (OCT_PORT_STATUS_LOPT p) (b (rate = 6 || (rate = 5 && lopt)))
  wr (OCT_PORT_STATUS_REVERSED p) (b rev)
  wr (OCT_PORT_STATUS_CXL p) (b cxl)
  wr (OCT_PORT_STATUS_SRIS p) ((← getM).g (OCT_PORT_CFG_SRIS p))
  let m ← getM
  laneBits 8 (linkLanes m p (portWidth m p) false) 0
  laneBits 8 (linkLanes m p lanes rev) 1

/-- Whether a port carries a caching host (R52). -/
def cachingHost (m : Mach) (p : Nat) : Bool := m.g (OCT_PORT_CFG_ROLE p) = 0 && (portAgent m p).isSome

/-- The first reason of R59 that holds a port at L0, or 0; a Recovery tests the rate alone. -/
def holdReason (m : Mach) (p rate : Nat) (recovery : Bool) : Nat :=
  let role := m.g (OCT_PORT_CFG_ROLE p)
  if ¬recovery ∧ role ≠ 3 ∧ m.g (OCT_PORT_STATUS_CXL p) = 0 then 2
  else if rate < 2 then 1
  else if cachingHost m p ∧ rate < 5 then 6
  else if role = 4 ∧ rate < 5 then 4
  else if ¬recovery ∧ m.g (OCT_PORT_CFG_IDE_REQUIRED p) = 1 ∧ m.g (OCT_PORT_IDE_STATE p) ≠ 2 then 3
  else 0

/-- TRAINING_L0: a training port reaches L0 at its final rate (R48-R59, R77). -/
def trainingL0 (p : Nat) (l : LinkUp) : P Unit := do
  let m ← getM
  if m.g (OCT_PORT_STATUS_STATE p) = psTRAINING then
    let b (x : Bool) : Nat := if x then 1 else 0
    wr (OCT_PORT_TRAIN_XRATE_PARTNER p) (b (m.g (OCT_PORT_TRAIN_XRATE_OFFERED p) = 1 && l.xratePartner))
    wr (OCT_PORT_TRAIN_EQ_BYPASS_USED p) (b (l.eqBypass && (m.getPort p).bypass && !(m.getPort p).fullEq))
    wr (OCT_PORT_TRAIN_TIME_TO_L0 p) (Nat.min l.time 65535)
    wr (OCT_PORT_IDE_REFRESHES p) 0
    let m ← getM
    let rate := finalRate m p l
    let lanes := finalLanes m p l
    let rev := m.g (OCT_PORT_CFG_LANE_REVERSE p) = 1 || l.reversed
    modPort p fun x => { x with tries := 0, fullEq := false }
    each (linkLanes m p (portWidth m p) false).zipIdx fun e => laneBits 0 [e.1] (bitsAt l.detect e.2 1)
    linkShow p rate lanes l.lopt rev (l.cxl && m.g (OCT_PORT_CFG_ROLE p) ≠ 3)
    onlyIf (lanes < portWidth m p) (raise ((octEv 0 0x028C p).b24 lanes))
    let r := holdReason (← getM) p rate false
    if r = 0 then portToUp p else portHold p r

/-- TRAIN_TIMEOUT: TRAIN_TMO expires (R57). -/
def trainTimeout (p : Nat) : P Unit := do
  let m ← getM
  if m.g (OCT_PORT_STATUS_STATE p) = psTRAINING then
    if (m.getPort p).tries < m.g (OCT_PORT_CTL_TRAIN_RETRIES p) then trainStart p false
    else do
      inc (OCT_PORT_CNT0_TRAIN_FAILS p)
      raise (octEv 2 0x0282 p)
      portHold p 5

/-- The link falls back from 128 to 64 GT/s (R54). -/
def xrateFall (p : Nat) : P Unit := do
  modPort p fun x => { x with xrateBar := true }
  inc (OCT_PORT_CNT0_XRATE_FAILS p)
  raise (octEv 0 0x0284 p)

/-- XRATE_EQ_TIMEOUT: equalisation at 128 GT/s does not complete (R54). -/
def xrateTimeout (p : Nat) : P Unit := do
  let m ← getM
  onlyIf (m.g (OCT_PORT_TRAIN_XRATE_OFFERED p) = 1 ∧ (m.getPort p).xrateBar = false ∧
    (m.g (OCT_PORT_STATUS_STATE p) = psTRAINING ∨
     (m.g (OCT_PORT_STATUS_STATE p) = psUP ∧ (m.getPort p).recovery = true))) (xrateFall p)

/-- PORT_RECOVERY_DONE: a Recovery of an UP port settles (R54, R58-R60). One that the link entered by itself takes the port
controls up here; the bypass is judged anew where the link equalises again: in full, or for another rate. -/
def recoveryDone (p : Nat) (l : LinkUp) : P Unit := do
  let m ← getM
  if m.g (OCT_PORT_STATUS_STATE p) = psUP then
    onlyIf ((m.getPort p).recovery = false) (linkPolicy p)
    if m.g (OCT_PORT_STATUS_RATE p) = 6 then
      let t := m.time64
      let rs := (m.getPort p).recov.filter (fun x => t < x + 1000000000) ++ [t]
      modPort p fun x => { x with recov := rs }
      onlyIf (3 < rs.length) (xrateFall p)
    let m ← getM
    let rate := finalRate m p l
    onlyIf ((m.getPort p).fullEq = true ∨ rate ≠ m.g (OCT_PORT_STATUS_RATE p))
      (wr (OCT_PORT_TRAIN_EQ_BYPASS_USED p)
        (if l.eqBypass && (m.getPort p).bypass && !(m.getPort p).fullEq then 1 else 0))
    modPort p fun x => { x with recovery := false, fullEq := false }
    linkShow p rate (finalLanes m p l) l.lopt (m.g (OCT_PORT_STATUS_REVERSED p) = 1) (m.g (OCT_PORT_STATUS_CXL p) = 1)
    onlyIf (finalLanes m p l < m.g (OCT_PORT_STATUS_LANES p)) (raise ((octEv 0 0x028C p).b24 (finalLanes m p l)))
    let r := holdReason (← getM) p rate true
    onlyIf (r ≠ 0) (do
      portLeaveUp p psHELD
      portHold p r)

/-- LINK_DOWN: a port loses its link with presence kept (R74). -/
def linkDown (p : Nat) : P Unit := do
  let m ← getM
  if m.g (OCT_PORT_STATUS_STATE p) = psUP then
    raise (octEv 2 0x0281 p)
    portFlush p
  else onlyIf (m.g (OCT_PORT_STATUS_STATE p) = psHELD) (trainStart p true)

/-- IDE_SECURE: the stream is secure in both directions (R77). -/
def ideSecure (p mode : Nat) (kset : Bool) : P Unit := do
  let m ← getM
  let st := m.g (OCT_PORT_STATUS_STATE p)
  if m.g (OCT_PORT_IDE_STATE p) = 1 ∧ (st = psUP ∨ st = psHELD) then
    wr (OCT_PORT_IDE_STATE p) 2
    wr (OCT_PORT_IDE_MODE p) (if mode = 2 then 2 else 1)
    wr (OCT_PORT_IDE_K_SET p) (if kset then 1 else 0)
    wr (OCT_PORT_STATUS_IDE_ACTIVE p) 1
    onlyIf (st = psHELD ∧ m.g (OCT_PORT_STATUS_HELD_REASON p) = 3) (portToUp p)

/-- Whether a message that acts on port `p`'s stream came in an SPDM secured session of its DOE mailbox (R76): on a host
port, where the Stagon is the responder, a session of that mailbox must have been established. Elsewhere firmware is the
requester, and the message comes in the session it holds (log entry 124). -/
def kmSecured (m : Mach) (p : Nat) : Bool :=
  m.g (OCT_PORT_CFG_ROLE p) ≠ 0 || (m.getSpdm (65 + p)).sessions.any (·.2.1)

/-- IDE_KM_MESSAGE: keys are programmed, or the key set is switched (R76). An analysis port has no IDE (R61). -/
def ideKm (p : Nat) (k : IdeKm) : P Unit := do
  let m ← getM
  let st := m.g (OCT_PORT_STATUS_STATE p)
  if (st = psUP ∨ st = psHELD) ∧ m.g (OCT_PORT_CFG_ROLE p) ≠ 3 ∧ kmSecured m p = true then
    match k with
    | .keyProg => onlyIf (m.g (OCT_PORT_IDE_STATE p) = 0) (wr (OCT_PORT_IDE_STATE p) 1)
    | .keySet b =>
      onlyIf (m.g (OCT_PORT_IDE_STATE p) = 2) (do
        wr (OCT_PORT_IDE_K_SET p) (if b then 1 else 0)
        inc (OCT_PORT_IDE_REFRESHES p))

/-- IDE_TIMEOUT: IDE_TMO expires while the port waits for keys (R77). -/
def ideTimeout (p : Nat) : P Unit := do
  let m ← getM
  onlyIf (m.g (OCT_PORT_STATUS_STATE p) = psHELD ∧ m.g (OCT_PORT_STATUS_HELD_REASON p) = 3) (raise (octEv 0 0x0286 p))

/-- IDE_FAIL: an integrity check fails (R78). -/
def ideFail (p : Nat) : P Unit := do
  let m ← getM
  if m.g (OCT_PORT_STATUS_STATE p) = psUP ∧ m.g (OCT_PORT_IDE_STATE p) = 2 then
    inc (OCT_PORT_CNT0_IDE_FAILS p)
    raise (octEv 2 0x0285 p)
    portFlush p

/-- FLUSH_COMPLETE (R108, Table 3.3). -/
def flushComplete (p : Nat) : P Unit := do
  let m ← getM
  if m.g (OCT_PORT_STATUS_STATE p) = psFLUSHING ∧ xbFlushed m p = true then
    if portPerst m p then portTo p psRESET
    else if m.g (OCT_PORT_CTL_ENABLE p) = 0 then portTo p psDISABLED
    else trainStart p true

/-- FLUSH_TIMEOUT: 10 ms in FLUSHING (Table 3.3). -/
def flushTimeout (p : Nat) : P Unit := do
  let m ← getM
  if m.g (OCT_PORT_STATUS_STATE p) = psFLUSHING then
    wr (OCT_PORT_CTL_ENABLE p) 0
    portTo p psDISABLED
    raise (octEv 2 0x0287 p)

/-- A port enters OFF: an octet domain of it left ON (Table 3.3). -/
def portOff (p : Nat) : P Unit := do
  let m ← getM
  if m.g (OCT_PORT_STATUS_STATE p) = psUP then portLeaveUp p psOFF
  linkClear p
  portTo p psOFF
  laneBits 0 (linkLanes m p (portWidth m p) false) 0

/-- SLOT_PERST_N of a slot (R73): asserted until PERST_DELAY after power-good, and while PERST_FORCE is 1. -/
def slotPerstShow (n : Nat) : P Unit := do
  let m ← getM
  let low := (m.getPort (4 * n)).perstDone && m.g (OCT_SLOT_CTL_PERST_FORCE n) = 0
  wr (OCT_STATUS_SLOT_PERST n) (if low then 0 else 1)
  modPins fun x => { x with slotPerst := setB x.slotPerst n !low }

/-- SLOT_PERST_N is reasserted: power-good or presence is lost (R73). -/
def slotPerstAssert (n : Nat) : P Unit := do
  modPort (4 * n) fun x => { x with perstDone := false }
  slotPerstShow n

/-- SLOT_PERST_RELEASE: PERST_DELAY after power-good rises (R73). -/
def slotPerstRelease (n : Nat) : P Unit := do
  let m ← getM
  if m.g (SLP_STATUS_PG n) = 1 ∧ m.pins.present.getD n false = true then
    modPort (4 * n) fun x => { x with perstDone := true }
    slotPerstShow n

/-- The port that slot `n` serves, where it has slot control (R72, Table 3.4). -/
def slotPort (m : Mach) (n : Nat) : Option Nat :=
  if m.g (OCT_PORT_CFG_VALID (4 * n)) = 1 ∧ (m.g (OCT_PORT_CFG_ROLE (4 * n)) = 1 ∨ m.g (OCT_PORT_CFG_ROLE (4 * n)) = 2)
  then some (4 * n) else none

/-- Whether port `p`'s slot is controlled by its host: a slot port bound to exactly one VCS, and no LD is bound on it
(R72). -/
def hostSlot (m : Mach) (v p : Nat) : Bool :=
  p % 4 = 0 && slotPort m (p / 4) = some p && m.g (OCT_PORT_CFG_VCS p) = v && !multiLd m p

/-- Debounced presence of slot `n` changes, as its port takes it (R74). A port HELD with TRAIN_FAIL, whose next attempt R57
leaves to RETRAIN and ENABLE, returns to TRAINING as R74 says of HELD: the model's choice (log entry 125). -/
def portPresence (n : Nat) (present : Bool) : P Unit := do
  let m ← getM
  onlyIf (present = false) (slotPerstAssert n)
  match slotPort m n with
  | some p =>
    let st := m.g (OCT_PORT_STATUS_STATE p)
    if present = false ∧ st = psUP then do
      raise (octEv 2 0x028B p)
      portFlush p
    else onlyIf (present = false ∧ (st = psHELD ∨ st = psTRAINING)) (trainStart p true)
    hotplug p 0
  | none => pure ()

/-! PERST_N (R75). -/

/-- The vPPBs of a VCS from 4 on: its ports, or the LDs bound on them, as (port, LD); a port of its own has LD 16
(Table 3.5). -/
def vppbs (m : Mach) (v : Nat) : List (Nat × Nat) :=
  (List.range 128).flatMap fun p =>
    if multiLd m p then ((List.range 16).filter (fun d => ldBound m p d v)).map (fun d => (p, d))
    else if bitsAt (m.getVcs v).down p 1 = 1 then [(p, 16)] else []

/-- Every vPPB of a VCS returns to its reset state: decoders, windows and the Service Function (R75). -/
def vcsReset (v : Nat) : P Unit := do
  each (List.range 24) fun n => putDec (v * 24 + n) {}
  each (List.range 256) fun n => putVwin (v * 256 + n) (1, 0)
  let m ← getM
  each (m.msix.filter (fun e => e.1 / 4096 = v)) fun e => putMsix e.1 0#64
  putSf v ⟨false, false, false, [], []⟩

/-- PERST_ASSERT: PERST_N of VCS `v` is asserted (R75, R177, R247). PERST_UNBOUND names the VCS in byte 24, and no port: the
model's choice, as the spec gives that event no detail (log entry 126). -/
def perstAssert (v : Nat) : P Unit := do
  modPins fun p => { p with perst := setB p.perst v true }
  let m ← getM
  if (m.getVcs v).valid then
    let p := (m.getVcs v).up
    let st := m.g (OCT_PORT_STATUS_STATE p)
    if st = psUP then portFlush p
    else onlyIf (st = psTRAINING ∨ st = psHELD) (do
      linkClear p
      portTo p psRESET)
    vcsReset v
    each (vppbs m v) fun e => emit (.reset e.1 (if e.2 = 16 then 0xFF else e.2))
    vcsRingsStop v
    each (vcsSlices m v) fun s => onlyIf (s < m.g TM_CARVE_SLOT_RINGS) (wr (TM_SRING_CTL_ENABLE s) 0)
  else raise ((ev 2 0 0x0288).b24 v)

/-- PERST_DEASSERT: PERST_N of VCS `v` is deasserted (R75, Table 3.3). -/
def perstDeassert (v : Nat) : P Unit := do
  modPins fun p => { p with perst := setB p.perst v false }
  let m ← getM
  if (m.getVcs v).valid then
    let p := (m.getVcs v).up
    if m.g (OCT_PORT_STATUS_STATE p) = psRESET then
      if m.g (OCT_PORT_CTL_ENABLE p) = 1 then trainStart p true else portTo p psDISABLED

/-! Messages from ports (R18, R61-R71). -/

/-- A link message refused by its format or its port's protocol state (R18). -/
def msgInvalid (p : Nat) : P Unit := inc (OCT_PORT_CNT1_MSG_INVALID p)

/-- A request that no decoder of its VCS claims (R67). -/
def decodeMiss (p addr : Nat) : P Unit := countFirst (OCT_PORT_CNT1_DECODE_MISS p) ((octEv 2 0x0289 p).at addr)

/-- Poison arrives on a message from a port (R361). -/
def poisonIn (p : Nat) (q : Msg) : P Unit :=
  onlyIf (q.poison = true) (poisonReceived p (some q.addr))

/-- A valid message that port `p` received, `refused` by the Kerb or the decoders or not: its poison is noted and its mirror
copies are taken (R104, R361). -/
def received (p : Nat) (q : Msg) (refused : Bool) : P Unit := do
  poisonIn p q
  mirrorBoth 0 p refused q

/-- A message that the octet itself consumes leaves the receive memory at once (R86). -/
def rxDone (p : Nat) (q : Msg) : P Unit := emit (.rxCredit p q.cls (cellsOf q.len))

/-- The place of an address among the targets of an interleave set (R66). The 3-, 6- and 12-way rules are those of
CXL 3.1 (PRESUMED, notes/assumptions/35.md). -/
def ilvIdx (ways gran a : Nat) : Nat :=
  let h := a / gran
  match ways with
  | 3 => h % 3
  | 6 => h % 2 + 2 * (h / 2 % 3)
  | 12 => h % 4 + 4 * (h / 4 % 3)
  | _ => h % ways

/-- The committed decoder, among those of VCS `v` from `lo` to `lo + n - 1`, that claims an address. -/
def decOf (m : Mach) (v lo n a : Nat) : Option Decoder :=
  ((List.range n).map (fun k => m.getDec (v * 24 + lo + k))).find?
    (fun d => d.committed && d.base ≤ a && a < d.base + d.size)

/-- Whether the values of decoder `n` are among those of R66, in units of 256 MiB. -/
def decoderValid (n : Nat) (d : Decoder) : Bool :=
  d.ways ∈ [1, 2, 3, 4, 6, 8, 12, 16] && d.gran ∈ (List.range 7).map (fun k => 256 * 2 ^ k) &&
    d.base % 2 ^ 28 = 0 && d.size % 2 ^ 28 = 0 && d.size ≠ 0 && (16 ≤ n || d.targets.length = d.ways)

/-- Whether decoder `n` of VCS `v` stands in the order of the other committed decoders of its device: those of lower number
end at or below its base, those of higher number start at or above its end. R66 leaves the commit rules to CXL 3.1
(PRESUMED, notes/assumptions/35.md). -/
def decoderOrder (m : Mach) (v n : Nat) (d : Decoder) : Bool :=
  (if n < 16 then List.range 16 else (List.range 8).map (16 + ·)).all fun k =>
    let e := m.getDec (v * 24 + k)
    !e.committed || k = n || (if k < n then e.base + e.size ≤ d.base else d.base + d.size ≤ e.base)

/-- A host programs an HDM decoder (R66): a commit succeeds where its values are among those of R66 and its range stands in
order, and otherwise shows as Error Not Committed; a locked decoder keeps its values until reset (PRESUMED,
notes/assumptions/35.md). -/
def decoderSet (v n : Nat) (d : Decoder) : P Unit := do
  let m ← getM
  let o := m.getDec (v * 24 + n)
  let ok := decoderValid n d && decoderOrder m v n d
  onlyIf (n < 24 ∧ (o.committed && o.locked) = false)
    (putDec (v * 24 + n) { d with committed := d.committed && ok, locked := d.locked && d.committed && ok,
                                  failed := d.committed && !ok })

/-- The control word of an HDM decoder as CXL 3.1 lays it out: granularity, ways, lock, committed, Error Not Committed
(PRESUMED, notes/assumptions/35.md). -/
def decoderCtl (d : Decoder) : Nat :=
  let ig := ((List.range 7).find? fun k => 256 * 2 ^ k = d.gran).getD 0
  let iw := match d.ways with | 2 => 1 | 4 => 2 | 8 => 3 | 16 => 4 | 3 => 8 | 6 => 9 | 12 => 10 | _ => 0
  let b (x : Bool) (n : Nat) := if x then 2 ^ n else 0
  ig + iw * 2 ^ 4 + b d.locked 8 + b d.committed 10 + b d.failed 11

/-- The octet's own completion of a CXL.io request of port `p`, with its data. -/
def ioAnswer (p tag : Nat) (data : List Word) : P Unit :=
  emit (.port p { op := .ioCpl, cls := 4, inp := p, out := p, tag := tag, len := 16 + 8 * data.length, data := data })

/-- A host reads the registers of an HDM decoder (R66): base, size, control, and the vPPBs of its targets. -/
def decoderRead (p v n : Nat) : P Unit := do
  let d ← getDec (v * 24 + n)
  ioAnswer p 0 ([w64 d.base, w64 d.size, w64 (decoderCtl d)] ++ d.targets.map w64)

/-- The octet answers a host itself (R67, R289, Table 11.4): all-ones data where the Kerb refused. -/
def octetAnswer (p : Nat) (q : Msg) (ones : Bool) : P Unit := do
  let m ← getM
  let c0 := q.cls = 0 || expressUp m p
  let a := noGrant q c0
  rxDone p q
  emit (.port p { a with inp := p, out := p, len := if a.op = .memData then 80 else 16,
                         data := if ones ∧ reqSort q.op = 1 then List.replicate 8 (-1#64) else [] })
  onlyIf (ones = true ∧ q.op = .rdA)
    (emit (.port p { a with inp := p, out := p, op := .cmp, cls := if c0 then 0 else 2, len := 16, poison := false }))



/-- HIGH of the slot ring that an address of the Plaza logical device names. -/
def plazaHigh (m : Mach) (v a : Nat) : Nat :=
  match (vcsRings m v)[a / 2 ^ 26]? with
  | some s => m.g (TM_SRING_CTL_HIGH s)
  | none => 0

/-- The bytes of a CXL.mem message: 16, and 64 of data. -/
def memLen (q : Msg) : Nat := if reqSort q.op = 3 ∨ q.op = .memData then 80 else 16

/-- Whether the vPPB 2 or 3 of VCS `v` is present (Table 3.5): a RANGE that its host may reach; TM ON and a slot ring. -/
def vppbThere (m : Mach) (v n : Nat) : Bool :=
  if n = 2 then (List.range 64).any (fun k => devCoversRange m v k)
  else if n = 3 then domOn m dTM && !(vcsRings m v).isEmpty
  else true

/-- Where a host's memory request at address `a` leads (R63-R66, R170): 0 no decoder claims it, or its vPPB is not present
(the Plaza's stays claimed while TM is not ON, R384; log entry 178);
1 the domain device, with the fabric address; 2 the Plaza logical device, with the DPA; 3 a downstream vPPB, with its
port and LD. -/
def hostRoute (m : Mach) (v a : Nat) : Nat × Nat × Nat :=
  match decOf m v 0 16 a with
  | none => (0, 0, 0)
  | some d =>
    let n := nth d.targets (ilvIdx d.ways d.gran a)
    if (n ≠ 3 && !vppbThere m v n) ∨ (n = 3 ∧ vcsRings m v = []) ∨ n < 2 then (0, 0, 0)
    else if n = 2 then
      match decOf m v 16 8 a with
      | some e => (1, a - e.base, 0)
      | none => (0, 0, 0)
    else if n = 3 then (2, a - d.base, 0)
    else match (vppbs m v)[n - 4]? with
      | some (t, ld) => (3, t, ld)
      | none => (0, 0, 0)

/-- The class of a host's CXL.mem request (Table 4.2): packet writes in C5 or C6, an EXPRESS host's requests in C0. -/
def hostCls (m : Mach) (p v : Nat) (q : Msg) (route : Nat × Nat × Nat) : Nat :=
  if route.1 = 2 ∧ reqSort q.op = 3 then (if plazaHigh m v route.2.1 = 1 then 5 else 6)
  else if expressUp m p then 0 else if reqSort q.op = 3 then 3 else 2

/-- The Kerb check of a host's request at address `a` (R283-R288): a writeback needs none. -/
def hostCheck (p v : Nat) (q : Msg) (a : Nat) : P Bool := do
  let m ← getM
  if hostNeeds q.op = 0 then return true else kerbCheck (hostSlice m v) (hostNeeds q.op) 0 p a false

/-- A host's request that no decoder claims (R67): the Kerb check runs on it too, at the address it carries (DEDUCED,
notes/assumptions/28.md). -/
def missReq (p v : Nat) (q : Msg) : P Unit := do
  let ok ← hostCheck p v q q.addr
  received p q true
  decodeMiss p q.addr
  octetAnswer p q (!ok)

/-- A host's request to the domain device, at fabric address `a` (R64, R114, R283-R289). -/
def domainReq (p v : Nat) (q : Msg) (a : Nat) : P Unit := do
  let m ← getM
  let ok ← hostCheck p v q a
  received p q (!(ok && hostReaches m v a))
  if hostReaches m v a = false then
    decodeMiss p q.addr
    octetAnswer p q (!ok)
  else if ok = false then octetAnswer p q true
  else
    onlyIf (hostNeeds q.op ≠ 0) (hostAccess p q.tag ((hostSlice m v).getD 0xFF))
    let r := { q with addr := a }
    match cdOf m a with
    | some _ =>
      if (q.op = .wbI ∨ q.op = .wbS) ∧ (m.getCrn (crnKey p (lineOf a))).st ≠ 0 then do
        rxDone p q
        emit (.deliver p { r with out := p })
      else xsend { r with out := epSq (homeSq a), x := if q.op = .memWrPtl then [nth q.x 0] else [] }
    | none =>
      match fmdPort m a with
      | some d => xsend { r with out := d, agent := 0xFF }
      | none => do
        countFirst (SQ_CNT_COUNT (homeSq a * 32 + scFMD_MISS)) (((sqEv (homeSq a) 2 0x0484).at (lineOf a)).onPort p)
        kerbDone p q.tag
        octetAnswer p q false

/-- A host's request to the Plaza logical device, at DPA `a` (R170, Table 4.2). -/
def plazaReq (p : Nat) (q : Msg) (a : Nat) : P Unit := do
  received p q false
  if reqSort q.op = 3 then
    xsend { q with op := .plazaWr, out := epTM, addr := a, x := [if q.op = .memWrPtl then nth q.x 0 else 2 ^ 64 - 1] }
  else xsend { q with out := epTM, addr := a }

/-- What a request toward logical device `ld` of an edge port carries: DPID and SPID (R71). That they come from the map's
entry whether or not it is VALID is the model's choice (log entry 127). -/
def edgeIds (m : Mach) (t ld : Nat) : List Nat :=
  if m.g (OCT_PORT_CFG_ROLE t) = 4 then [m.g (OCT_EDGE_MAP_DPID (t * 16 + ld % 16)), m.g (OCT_PBR_ID_ID t)] else []

/-- HOST_MEM_REQUEST: a CXL.mem request from a host (R63-R67, R288). One for which the host holds no credit is refused
(R18, R85). `x` toward a device: the byte mask, the LD, and toward an edge port DPID and SPID. -/
def hostMem (p : Nat) (q0 : Msg) : P Unit := do
  let m ← getM
  match upVcs m p with
  | some v =>
    let r := hostRoute m v q0.addr
    let q := { q0 with inp := p, out := p, cls := hostCls m p v q0 r, len := memLen q0, agent := (portAgent m p).getD 0xFF }
    if portUp m p = false ∨ reqSort q.op = 0 ∨ linkRoom m p q.cls q.len = false then msgInvalid p
    else match r with
      | (1, a, _) => domainReq p v q a
      | (2, a, _) => plazaReq p q a
      | (3, t, ld) => do
        received p q false
        xsend { q with out := t, agent := 0xFF, x := nth q.x 0 :: ld :: edgeIds m t ld }
      | _ => missReq p v q
  | none => msgInvalid p

/-- A message from a port that has no row of its own: a memory device's response, or an agent's snoop answer, each to a
request that awaits it (R18). It enters the port's input; an answer for a line with a Corner record goes to the Corner
(R153, R159). -/
def portMessage (p : Nat) (q0 : Msg) : P Unit := do
  let m ← getM
  let q := { q0 with inp := p, len := memLen q0 }
  if portUp m p = false then msgInvalid p
  else match q.op with
    | .birspI | .birspS | .birspE =>
      match portAgent m p, (m.getOwed p).find? (fun e => e.1 = .birspI && e.2.1 = q.tag) with
      | some a, some e => do
        let r := { q with agent := a, cls := 1, out := epSq (homeSq q.addr) }
        if linkRoom m p 1 r.len = false then msgInvalid p
        else do
          owedDone p .birspI q.tag e.2.2
          received p r false
          if (m.getCrn (crnKey p (lineOf q.addr))).st ≠ 0 then do
            rxDone p r
            emit (.deliver p { r with out := p })
          else xsend r
      | _, _ => msgInvalid p
    | .cmp | .cmpS | .cmpE | .memData =>
      let r := { q with cls := if q.out < 128 then s2mCls m q.out (q.op = .memData) else if q.op = .memData then 3 else 2 }
      if m.g (OCT_PORT_CFG_ROLE p) = 0 ∨ m.g (OCT_PORT_CFG_ROLE p) = 3 ∨ isOwed m p q.op q.tag q.out = false ∨
          linkRoom m p r.cls r.len = false then msgInvalid p
      else do
        owedDone p q.op q.tag q.out
        received p r false
        xsend r
    | _ => msgInvalid p

/-- MESSAGE_DISPATCH: a message arrives at a port's input, where one is named, and the head of an (input, class) FIFO is
tried (R84, R92). What comes from an edge port carries DPID and SPID, and is EDGE_MESSAGE's (R71). -/
def messageDispatch (i c : Nat) (q : Option Msg) : P Unit := do
  let m ← getM
  match q with
  | some q => onlyIf (i < 128) (if m.g (OCT_PORT_CFG_ROLE i) = 4 then msgInvalid i else portMessage i q)
  | none => pure ()
  dispatchHead i c

/-! CXL.io (R67, R72, R166). -/

/-- Unsupported Request for a non-posted CXL.io request (R67). -/
def ioUr (p : Nat) (q : Msg) : P Unit :=
  onlyIf (q.op = .ioRd ∨ q.op = .cfgRd ∨ q.op = .cfgWr)
    (emit (.port p { q with op := .ioUr, inp := p, out := p, data := [], len := 16 }))

/-- A CXL.io request of port `p` that no decoder claims (R67). -/
def ioMiss (p : Nat) (q : Msg) : P Unit := do
  rxDone p q
  decodeMiss p q.addr
  ioUr p q

/-- The vPPB of VCS `v` whose memory window holds an address. -/
def windowOf (m : Mach) (v a : Nat) : Option Nat :=
  (List.range 256).find? (fun n => (m.getVwin (v * 256 + n)).1 ≤ a && a ≤ (m.getVwin (v * 256 + n)).2)

/-- A number rounded up to a multiple of 256 MiB. -/
def upTo256M (n : Nat) : Nat := (n + 2 ^ 28 - 1) / 2 ^ 28 * 2 ^ 28

/-- The capacity that the domain device of VCS `v` reports: the end of the highest range it covers, rounded up (R64). -/
def domainCapacity (m : Mach) (v : Nat) : Nat :=
  upTo256M (((List.range 64).filter (fun n => devCoversRange m v n)).foldl
    (fun a n => Nat.max a ((m.g (SQ_RANGE_BASE_BASE n) + m.g (SQ_RANGE_CFG_SIZE n)) * 2 ^ 21)) 0)

/-- The capacity that the Plaza logical device of VCS `v` reports (R170). -/
def plazaCapacity (m : Mach) (v : Nat) : Nat := upTo256M ((vcsRings m v).length * 2 ^ 26)

/-- What the spec states of a configuration register of vPPB `n`: the bits it states, and their value (R53, R64, R72, R170,
Table 9.1). The places of the fields in their registers are those of PCIe and CXL (PRESUMED,
notes/assumptions/128.md). -/
def cfgKnown (m : Mach) (v n : Nat) (r : CfgReg) : Nat × Nat :=
  let vendor := Config.vendorId % 65536
  match r, n with
  | .ident, 1 => (2 ^ 32 - 1, vendor + 0x9601 * 2 ^ 16)
  | .ident, _ => (0xFFFF, vendor)
  | .classCode, 1 => (0xFFFFFF00, 0x08800000)
  | .msixCap, 1 => (2 ^ 64 * (2 ^ 32 - 1) + 2 ^ 32 * (2 ^ 32 - 1) + 0x07FF0000,
      2 ^ 64 * (0x208000 + 4) + 2 ^ 32 * (0x200000 + 4) + 2047 * 2 ^ 16)
  | .pasidCap, 1 => (0x1F06, 20 * 2 ^ 8)
  | .tphCap, 1 => (0x600, 0)
  | .devCap, 1 => (2 ^ 28, 2 ^ 28)
  | .capacity, 2 => (2 ^ 64 - 1, domainCapacity m v)
  | .capacity, 3 => (2 ^ 64 - 1, plazaCapacity m v)
  | .slotCap, n =>
    match (if n < 4 then none else (vppbs m v)[n - 4]?) with
    | some (t, _) => if hostSlot m v t then (0x7F, 0x62) else (0, 0)
    | none => (0, 0)
  | _, _ => (0, 0)

/-- The value read from a configuration register: what the spec states, and free bits elsewhere. -/
def cfgRead (m : Mach) (v n : Nat) (r : CfgReg) : P Nat := do
  let f ← freeBits 96
  let k := cfgKnown m v n r
  return k.2 ||| (f &&& ((2 ^ 96 - 1) ^^^ k.1))

/-- Whether VCS `v` has vPPB `n` (Table 3.5). -/
def hasVppb (m : Mach) (v n : Nat) : Bool := if n < 4 then vppbThere m v n else n - 4 < (vppbs m v).length

/-- A host reads a named configuration register of a vPPB (R53, R64, R72, R170, Table 9.1). -/
def configRead (p v n : Nat) (r : CfgReg) : P Unit := do
  let m ← getM
  if hasVppb m v n then do
    let x ← cfgRead m v n r
    ioAnswer p 0 [w64 (x % 2 ^ 64), w64 (x / 2 ^ 64)]
  else do
    decodeMiss p 0
    ioUr p { op := .cfgRd, cls := 4, inp := p, out := p }

/-- A CXL.io message toward a vPPB (Table 3.5): a downstream port's goes through the Crossing, to an edge port with DPID and
SPID (R71); one for the Stagon's own functions is an access of their BARs, whose commands are rows of their own, or
reads a configuration register, whose value the spec leaves to CXL 3.1 (a free value; the registers whose values the
spec states are read by name). -/
def ioToVppb (p v n : Nat) (q : Msg) : P Unit := do
  let m ← getM
  if hasVppb m v n = false then ioMiss p q
  else match (if n < 4 then none else (vppbs m v)[n - 4]?) with
    | some (t, ld) => xsend { q with cls := 4, out := t, x := nth q.x 0 :: ld :: edgeIds m t ld }
    | none =>
      if q.op = .cfgRd ∨ q.op = .cfgWr then do
        let f ← freeBits 32
        rxDone p q
        emit (.port p { q with op := .ioCpl, inp := p, out := p, data := if q.op = .cfgRd then [w64 f] else [] })
      else if q.op = .ioMsg then do
        rxDone p q
        emit (.deliver epMG q)
      else if n = 1 then do
        rxDone p q
        emit (.deliver epRNG q)
      else ioMiss p q

/-- A completion that a request awaits goes back to its requester (R18). -/
def ioComplete (p : Nat) (q : Msg) : P Unit := do
  let m ← getM
  let r := nth q.x 0
  if isOwed m p q.op q.tag r then do
    owedDone p q.op q.tag r
    received p q false
    xsend { q with out := r }
  else msgInvalid p

/-- A CXL.io message from a port. `x` holds first the vPPB of a host's configuration request or message, the steering tag of
a device's write, or the endpoint that a completion or a device's message goes to; then the LD of a device. -/
def ioMessage (p : Nat) (q0 : Msg) : P Unit := do
  let m ← getM
  let mg := upVcs m p = none ∧ q0.op = .ioMsg ∧ nth q0.x 0 = epMG
  let q := { q0 with inp := p, out := p, cls := if mg then 7 else 4, len := 16 + 8 * q0.data.length }
  if linkRoom m p q.cls q.len = false then msgInvalid p
  else match q.op, upVcs m p with
    | .ioCpl, _ | .ioUr, _ => ioComplete p q
    | .cfgRd, some v | .cfgWr, some v | .ioMsg, some v => do
      received p q (!hasVppb m v (nth q.x 0))
      ioToVppb p v (nth q.x 0) q
    | _, some v =>
      match windowOf m v q.addr with
      | some n => do
        received p q (!hasVppb m v n)
        ioToVppb p v n q
      | none => do
        received p q true
        ioMiss p q
    | op, none =>
      let v := ldVcs m p (nth q.x 1)
      if mg then do
        received p q false
        xsend { q with out := epMG }
      else if 128 ≤ vcsPort m v then do
        received p q true
        ioMiss p q
      else do
        received p q false
        xsend { q with out := vcsPort m v, x := (if op = .ioWr then steerFor m v (nth q.x 0) else nth q.x 0) :: q.x.drop 1 }

/-- A host writes a word of its Service Function's MSI-X table (Table 9.2, R246): the vector control is bit 32 of the
second word. A pending vector whose mask clears is sent. -/
def msixWrite (v vec word : Nat) (d : Word) : P Unit := do
  putMsix ((v * 2048 + vec) * 2 + word) d
  onlyIf (word = 1) (do
    let c ← getSf v
    if bitsAt d.toNat 32 1 = 1 then putSf v { c with unmasked := c.unmasked.filter (· ≠ vec) }
    else do
      putSf v { c with unmasked := if vec ∈ c.unmasked then c.unmasked else c.unmasked ++ [vec],
                       pending := c.pending.filter (· ≠ vec) }
      onlyIf (vec ∈ c.pending) (msixSend epRNG v vec 7))

/-- Whether an opcode is one of CXL.io. -/
def isIo : Op → Bool
  | .ioRd | .ioWr | .cfgRd | .cfgWr | .ioMsg | .ioCpl | .ioUr => true
  | _ => false

/-- HOST_IO_REQUEST (R66, R67, R109). An analysis port takes no CXL.io (Table 3.4); what comes from an edge port carries DPID
and SPID, and is EDGE_MESSAGE's (R71). -/
def hostIo (p : Nat) (r : IoReq) : P Unit := do
  let m ← getM
  if portUp m p = false ∨ m.g (OCT_PORT_CFG_ROLE p) = 3 ∨ m.g (OCT_PORT_CFG_ROLE p) = 4 then msgInvalid p
  else match r, upVcs m p with
    | .msg q, _ => if isIo q.op then ioMessage p q else msgInvalid p
    | .window n b l, some v => onlyIf (n < 256) (putVwin (v * 256 + n) (b, l))
    | .decoder n b s w g t c k, some v =>
      decoderSet v n { committed := c, locked := k, base := b, size := s, ways := w, gran := g, targets := t }
    | .decoderRead n, some v => onlyIf (n < 24) (decoderRead p v n)
    | .config n reg, some v => configRead p v n reg
    | .msix vec word d, some v => onlyIf (vec < 2048 ∧ word < 2) (msixWrite v vec word d)
    | _, none => msgInvalid p

/-- The map entry that holds a remote target's PBR ID (R71). -/
def edgeEntry (m : Mach) (p spid : Nat) : Option Nat :=
  (List.range 16).find? fun n => m.g (OCT_EDGE_MAP_VALID (p * 16 + n)) = 1 && m.g (OCT_EDGE_MAP_DPID (p * 16 + n)) = spid

/-- EDGE_MESSAGE: a message from a port-based routing fabric (R71, Table 3.4). The LD is the number of its sender's map
entry. -/
def edgeMessage (p dpid spid : Nat) (q : Msg) : P Unit := do
  let m ← getM
  if m.g (OCT_PORT_CFG_ROLE p) = 4 ∧ portUp m p = true ∧ dpid = m.g (OCT_PBR_ID_ID p) then
    match edgeEntry m p spid with
    | some n => if isIo q.op then ioMessage p { q with x := nth q.x 0 :: n :: q.x.drop 2 } else portMessage p q
    | none => msgInvalid p
  else msgInvalid p

/-! CXL.cache (R165). -/

/-- The Type 1/2 ports of a VCS, ascending: the CacheID is the place. -/
def cacheIds (m : Mach) (v : Nat) : List Nat :=
  (List.range 128).filter (fun p => bitsAt (m.getVcs v).down p 1 = 1 && m.g (OCT_PORT_CFG_ROLE p) = 2)

/-- The class of a CXL.cache message (Table 4.2). -/
def cacheCls : Op → Nat
  | .h2dReq | .d2hRsp => 1
  | .d2hReq | .h2dRsp => 2
  | _ => 3

/-- Whether an open CXL.cache request awaits a message. -/
def cacheAwaited (m : Mach) (q : Msg) : Bool :=
  m.cout.any fun c => c.op = q.op && c.tag = q.tag && c.inp = q.out && c.out = q.inp

/-- The first open CXL.cache request that a message answers ends. -/
def cacheDone (q : Msg) : P Unit :=
  modCout fun l => l.eraseP (fun c => c.op = q.op && c.tag = q.tag && c.inp = q.out && c.out = q.inp)

/-- The answers that a routed request awaits: a D2H request its GO, and its data where `x` says it reads; an H2D request
its response. -/
def cacheOpen (q : Msg) : P Unit :=
  match q.op with
  | .d2hReq => modCout fun l => l ++ [{ q with op := .h2dRsp }] ++ (if nth q.x 1 = 1 then [{ q with op := .h2dData }] else [])
  | .h2dReq => modCout fun l => l ++ [{ q with op := .d2hRsp }]
  | _ => pure ()

/-- Whether a CXL.cache message is a response that some open request must await (R18): a GO, a device's response, and data
toward a device. Data from a device also follows a GO that pulls it, and is taken as it comes. -/
def cacheAnswer : Op → Bool
  | .h2dRsp | .h2dData | .d2hRsp => true
  | _ => false

/-- A CXL.cache message goes to its destination, or is answered for a destination whose port is not UP (Table 6.6); a
response that no request awaits is refused (R18). -/
def cacheRoute (p : Nat) (q : Msg) : P Unit := do
  let m ← getM
  if cacheAnswer q.op = true ∧ cacheAwaited m q = false then msgInvalid p
  else do
    received p q false
    cacheDone q
    cacheOpen q
    if portUp m q.out = true then xsend q
    else do
      rxDone p q
      cacheDown q.out

/-- CXL_CACHE_MESSAGE: a message between a Type 1/2 device and its host (R165). `x` starts with the CacheID. -/
def cacheMessage (p : Nat) (q0 : Msg) : P Unit := do
  let m ← getM
  let q : Msg := { q0 with inp := p, cls := cacheCls q0.op, len := if q0.op = .d2hData ∨ q0.op = .h2dData then 80 else 16 }
  if portUp m p = false ∨ linkRoom m p q.cls q.len = false then msgInvalid p
  else match q.op, upVcs m p with
    | .h2dReq, some v | .h2dRsp, some v | .h2dData, some v =>
      match (cacheIds m v)[nth q.x 0]? with
      | some d => cacheRoute p { q with out := d }
      | none => msgInvalid p
    | .d2hReq, none | .d2hRsp, none | .d2hData, none =>
      let v := m.g (OCT_PORT_CFG_VCS p)
      let id := (cacheIds m v).findIdx (· = p)
      if m.g (OCT_PORT_CFG_ROLE p) ≠ 2 ∨ 128 ≤ vcsPort m v then msgInvalid p
      else if q.op = .d2hReq ∧ decOf m v 0 16 q.addr = none then do
        received p q true
        rxDone p q
        decodeMiss p q.addr
        emit (.port p { q with op := .h2dRsp, cls := 2, inp := p, out := p, len := 16, x := [id, 0xE] })
      else cacheRoute p { q with out := vcsPort m v, x := id :: q.x.drop 1 }
    | _, _ => msgInvalid p

/-- BICONFLICT: a BIConflict arrives on a port (R160), in C1 with the snoops' answers. -/
def biConflictIn (p addr tag : Nat) : P Unit := do
  let m ← getM
  match portAgent m p with
  | some a =>
    let q : Msg := { op := .biConflict, cls := 1, inp := p, out := epSq (homeSq addr), agent := a, addr := addr, tag := tag, len := 16 }
    if portUp m p = true ∧ linkRoom m p 1 16 = true then do
      received p q false
      rxDone p q
      biConflict p a addr tag
    else msgInvalid p
  | none => msgInvalid p

/-! Registers (R60, R71, R80). -/

/-- The rules of a live write to an OCT register (R60, R71). -/
def octRule (m : Mach) (k : RegKind) (i old new _mask : Nat) : Nat :=
  let p := if k = .OCT_EDGE_MAP then i / 16 else i
  if k ∈ [RegKind.OCT_PORT_CTL, .OCT_PORT_IDE, .OCT_PBR_ID, .OCT_EDGE_MAP] ∧ m.g (OCT_PORT_CFG_VALID p) = 0 then rcLNK_LIMIT
  else if k = .OCT_PORT_CFG ∧ bitsAt new 0 1 = 0 ∧ m.g (OCT_PORT_CFG_VALID p) = 0 ∧ bitsAt new 24 4 ≠ bitsAt old 24 4 then
    rcLNK_LIMIT
  else match k with
    | .OCT_PORT_CTL =>
      let st := m.g (OCT_PORT_STATUS_STATE p)
      let role := m.g (OCT_PORT_CFG_ROLE p)
      if bitsAt new 1 2 ≠ 0 ∧ st ≠ psUP ∧ st ≠ psHELD then rcLNK_BUSY
      else if m.g (OCT_PORT_CFG_RATE_MAX p) < bitsAt new 4 3 ∨ (bitsAt new 9 1 = 1 ∧ role ≠ 1 ∧ role ≠ 2) then rcLNK_LIMIT
      else rcOK
    | .OCT_PORT_CFG => if 10 < bitsAt new 24 4 then rcLNK_LIMIT else rcOK
    | .OCT_EDGE_MAP => if bitsAt old 12 1 = 1 ∧ portUp m p = true then rcLNK_BUSY else rcOK
    | _ => rcOK

/-- ENABLE of a port changes (Table 3.3). -/
def portEnable (p : Nat) (on : Bool) : P Unit := do
  let m ← getM
  let st := m.g (OCT_PORT_STATUS_STATE p)
  if on then
    wr (OCT_PORT_TRAIN_ATTEMPTS p) 0
    if st = psOFF then portKick p
    else onlyIf (st = psDISABLED ∧ (portOcts m p).all (fun o => domOn m (dOCT o)) = true) (do
      trainStart p true
      onlyIf (portPerst m p = true) (portTo p psRESET))
  else if st = psUP then portFlush p
  else onlyIf (st = psTRAINING ∨ st = psHELD) (do
    linkClear p
    portTo p psDISABLED)

/-- RETRAIN and REDO_EQ (R54, R60, Table 3.3): the bar on the extended rate ends, and an UP port starts a Recovery with the
controls as they stand. -/
def portRetrain (p : Nat) (full : Bool) : P Unit := do
  let m ← getM
  let st := m.g (OCT_PORT_STATUS_STATE p)
  modPort p fun x => { x with xrateBar := false, fullEq := x.fullEq || full }
  if st = psUP then do
    linkPolicy p
    modPort p fun x => { x with recovery := true }
  else onlyIf (st = psHELD) (trainStart p true)

/-- The effect of an accepted write to an OCT register; `cmd` holds the bits written. -/
def octEffect (k : RegKind) (i old cmd : Nat) : P Unit := do
  let m ← getM
  match k with
  | .OCT_PORT_CTL =>
    onlyIf (bitsAt cmd 24 1 = 1) (do
      rstReg .OCT_PORT_CNT0 i
      rstReg .OCT_PORT_CNT1 i)
    onlyIf (bitsAt cmd 1 2 ≠ 0) (portRetrain i (bitsAt cmd 2 1 = 1))
    onlyIf (bitsAt old 0 1 ≠ m.g (OCT_PORT_CTL_ENABLE i)) (portEnable i (m.g (OCT_PORT_CTL_ENABLE i) = 1))
  | .OCT_SLOT_CTL => slotPerstShow i
  | .OCT_CRN_CTL => crnEffect k i cmd
  | _ => pure ()

end Sys2Proof.Machine
end

