-- ==== Sys2Proof/Machine/Twin.lean ====
section
/-!
DEFINITION. Running as a twin pair (13_twin_operation.md) and the loss of the Spindle link (R306): roles, witnesses,
takeover and settle, the fence, copies and home moves.
-/
namespace Sys2Proof.Machine

/-- The Squares. -/
def squares : List Nat := List.range 32

/-- A pair or link event (R328, R353). -/
def twnEv (sev code : Nat) : EvRec := ev 9 sev code

/-- HOMES of a role (Table 13.1): 0 none, 1 its own half, 2 every line. -/
def roleHomes (st : Nat) : Nat :=
  if st = roSOLO ∨ st = roALONE ∨ st = roSENDING then 2
  else if st = roSPLIT ∨ st = roUNMIRRORED ∨ st = roRESYNC then 1 else 0

/-- Whether a role's changes are mirrored (R331). -/
def roleMirrors (st : Nat) : Nat := if st = roSENDING ∨ st = roSPLIT ∨ st = roRESYNC then 1 else 0

/-- Entries of array `arr` of every Square are cleared. -/
def arrayClear (arr : Nat) : P Unit := do
  let m ← getM
  each (m.dir.filter (fun e => e.1 / 16 / 16384 % 2 = arr)) fun e => putDir e.1 {}

/-- TWN_BLIND and BLIND show the Squares with blind sets (R343). -/
def blindShow : P Unit := do
  let m ← getM
  let b := squares.foldl (fun s n => if m.getBlind (2 * n) < 0x4000 ∨ m.getBlind (2 * n + 1) < 0x4000 then s + 2 ^ n else s) 0
  wr TWN_BLIND_SQUARES b
  wr TWN_ROLE_BLIND (if b = 0 then 0 else 1)

/-- A copy starts (R347): its progress is cleared, and a receiver clears the arrays that it fills. -/
def copyStart (st : Nat) : P Unit := do
  wr TWN_COPY_RECORDS 0
  wr TWN_COPY_ACTIVE 1
  wr TWN_ROLE_COPY_DONE 0
  each squares fun n => modSqx n fun x => { x with pos0 := 0, pos1 := 0, last0 := false, last1 := false }
  onlyIf (st = roRECEIVING ∨ st = roRESYNC) (do
    arrayClear 1
    clearMtt)
  onlyIf (st = roRECEIVING) (arrayClear 0)

/-- A home move ends at the giver, done or not: its flags clear and the requests held for it may go (R349). -/
def moveClear : P Unit := do
  wr TWN_ROLE_MOVING 0
  modTwx fun x => { x with yielding := false, giveDone := false }
  each squares fun n => modSqx n fun x =>
    { x with moveSeq := 0, retry := x.retry.map fun w => if w.why = 4 then { w with woken := true } else w }

/-- The role changes (Tables 13.1, 13.2): homes and mirroring follow, a copy starts where the new role takes part in
one, entry to SPLIT is recorded, and requests that waited for the role may go. -/
def roleTo (st : Nat) : P Unit := do
  let old ← rd TWN_ROLE_STATE
  wr TWN_ROLE_STATE st
  wr TWN_ROLE_HOMES (roleHomes st)
  wr TWN_ROLE_MIRRORED (roleMirrors st)
  moveClear
  each squares fun n => modSqx n fun x =>
    { x with moveGot := false, retry := x.retry.map fun w => if w.why = 3 then { w with woken := true } else w }
  modTwx fun x => { x with handback := false, partnerYield := false, dual := false, formOver := false }
  if st = roSENDING ∨ st = roRECEIVING ∨ st = roRESYNC then copyStart st
  else do
    wr TWN_COPY_ACTIVE 0
    wr TWN_ROLE_COPY_DONE 0
  onlyIf (st = roSPLIT) (raise ((twnEv 0 0x098F).b25 old))

/-! The loss of the Spindle link (R164, R306). -/

/-- Whether the fence holds (R339): UNFENCE has not cleared it. -/
def fenced (m : Mach) : Bool := m.g TWN_ROLE_STATE = roFENCED && !m.twx.unfenced

/-- A LINKINFO block leaves (Table 12.2, R306): this twin's TWIN_ID, its failed lanes and its spare map. -/
def linkinfoSend : P Unit := do
  let m ← getM
  emit (.block 4 [if m.pins.twinId then 1 else 0, m.g TWN_SPN_FAIL_FAILED,
    m.g TWN_SPN_STATUS_SPARE0_FOR + m.g TWN_SPN_STATUS_SPARE0_USED * 2 ^ 5 +
      m.g TWN_SPN_STATUS_SPARE1_FOR * 2 ^ 6 + m.g TWN_SPN_STATUS_SPARE1_USED * 2 ^ 11])

/-- DOWN moves to TRAINING while ENABLE is 1 and SPN is ON; a fenced twin keeps its transmitters off (R306, R339). -/
def spnKick : P Unit := do
  let m ← getM
  if m.g TWN_SPN_STATUS_STATE = spDOWN ∧ m.g TWN_SPN_CTL_ENABLE = 1 ∧ domOn m dSPN = true ∧ fenced m = false then
    wr TWN_SPN_STATUS_STATE spTRAINING
    wr TWN_SPN_STATUS_ID_CONFLICT 0
    wr TWN_SPN_FAIL_FAILED 0
    modSpn fun x => { x with pfail := 0 }
    each (List.range 34) fun l => wr (TWN_SPN_LANE_FAILED l) 0
    linkinfoSend

/-- The link enters DOWN: width, spares and replay state clear. -/
def spnDown : P Unit := do
  let m ← getM
  let gone := m.g TWN_SPN_STATUS_PARTNER_GONE
  wrReg .TWN_SPN_STATUS 0 0
  wr TWN_SPN_STATUS_PARTNER_GONE gone

/-- Agents that were UP only at the partner become lost (R162). -/
def partnerAgentsLost : P Unit := do
  let m ← getM
  each m.pagent fun e => do
    putPagent e.1 false
    onlyIf ((agentPort m e.1).any (fun p => portUp m p) = false) (agentLost e.1)

/-- The link is declared lost (R164, R306): the Reel and everything that waits for the link are discarded, forwarded
requests end, and commit waits end without their commits. -/
def spnLoss : P Unit := do
  let m ← getM
  let n := m.reel.length
  spnDown
  putReel []
  reelShow
  raise ((twnEv 2 0x0982).w28 (n % 65536))
  each m.spn.fwd fwdLost
  modSpn fun x => { x with fwd := [], relay := [] }
  each (List.range 8) fun c => do
    let m ← getM
    each (m.getXq (epSPN * 8 + c)) fun q => do
      popQueue epSPN c q
      discard q.msg
  clearSpnWait
  commitsLost
  partnerAgentsLost

/-! Witnesses and takeover (R340-R343). -/

/-- All three witnesses show the partner gone. -/
def allGone (m : Mach) : Bool :=
  m.g TWN_ROLE_W_SPINDLE = 1 && m.g TWN_ROLE_W_WHORL = 1 && m.g TWN_ROLE_W_ALIVE = 1

/-- The lines that Square `sq` takes into the settle (R341): those with an open mirror tracker table entry, and those
with DELEG 1 in an array the partner kept. In RECEIVING the partner homed both halves. -/
def settleLines (m : Mach) (sq prev : Nat) : List Nat :=
  let tab := m.mtt.filterMap fun e => if e.1 / 2 ^ 46 = sq ∧ e.2.opened = true then some (e.1 % 2 ^ 46 * 64) else none
  let del := m.dir.filterMap fun e =>
    let arr := e.1 / 16 / 16384 % 2
    if e.1 / 16 / 16384 / 2 = sq ∧ e.2.deleg = true ∧ (arr = 1 ∨ prev = roRECEIVING) then
      some (lineAt e.2.tag (e.1 / 16 % 16384)) else none
  (tab ++ del).eraseDups

/-- Blind sets at a takeover (R343). What a set of an array left unmirrored held is discarded (DEDUCED,
notes/assumptions/39.md). -/
def blindTake (prev : Nat) : P Unit := do
  if prev = roUNMIRRORED then
    arrayClear 1
    clearMtt
    each squares fun n => putBlind (2 * n + 1) 0
  else onlyIf (prev = roRESYNC ∨ prev = roRECEIVING) (each squares fun n => do
    let m ← getM
    let x := m.getSqx n
    onlyIf (x.last1 = false) (putBlind (2 * n + 1) (Nat.min (m.getBlind (2 * n + 1)) x.pos1))
    onlyIf (prev = roRECEIVING ∧ x.last0 = false) (putBlind (2 * n) (Nat.min (m.getBlind (2 * n)) x.pos0)))
  blindShow

/-- Takeover (R340): the link is down, this twin homes every line, and the settle starts. -/
def takeover : P Unit := do
  let m ← getM
  let prev := m.g TWN_ROLE_STATE
  if m.g TWN_SPN_STATUS_STATE = spUP ∨ m.g TWN_SPN_STATUS_STATE = spRECOVERY then spnLoss
  else do
    onlyIf (m.g TWN_SPN_STATUS_STATE ≠ spDOWN) spnDown
    partnerAgentsLost
  roleTo roALONE
  blindTake prev
  let m ← getM
  let total := if prev = roUNMIRRORED then 0 else squares.foldl (fun a n => a + (settleLines m n prev).length) 0
  onlyIf (prev ≠ roUNMIRRORED) (each squares fun n => modSqx n fun x =>
    { x with walking := true, settleQ := settleLines m n prev })
  wr TWN_SETTLE_OPEN total
  wr TWN_SETTLE_TOTAL total
  wr TWN_ROLE_SETTLING (if prev = roUNMIRRORED then 0 else 1)
  wr TWN_TAKEOVER_TIME_TIME64 m.time64
  modTwx fun x => { x with settlePoison := 0, graceEnd := m.time64 + m.g TWN_CTL_GRACE * 1000000 }
  inc (TWN_CNT_COUNT tcTAKEOVERS)
  raise ((twnEv 2 0x0989).w28 total)
  onlyIf (m.g TWN_ROLE_BLIND = 1) (raise ((twnEv 2 0x0994).w28 (m.g TWN_BLIND_SQUARES)))
  spnKick

/-- What the role does when the link is declared lost with the partner alive (Table 13.2, R345). -/
def roleSpindleLost : P Unit := do
  let m ← getM
  let st := m.g TWN_ROLE_STATE
  if st = roSENDING then roleTo roALONE
  else if st = roRECEIVING then
    arrayClear 0
    arrayClear 1
    clearMtt
    roleTo roFORMING
  else onlyIf (st = roSPLIT ∨ st = roRESYNC) (do
    roleTo roUNMIRRORED
    raise (twnEv 2 0x098C))

/-- The partner shows gone by all three witnesses, or not: takeover and the other transitions that follow (Table
13.2). The answer says that one was made. -/
def witnessAct : P Bool := do
  let m ← getM
  let st := m.g TWN_ROLE_STATE
  if allGone m = false then return false
  else if st = roSPLIT ∨ st = roRESYNC ∨ st = roUNMIRRORED ∨ st = roRECEIVING then do
    takeover
    return true
  else if st = roSENDING then do
    roleTo roALONE
    return true
  else return false

/-- The witness bits follow their sources; a change while they disagree is recorded (R340). A part that is no twin
records none (DEDUCED, notes/assumptions/38.md). -/
def witness : P Unit := do
  let m ← getM
  let s := m.g TWN_SPN_STATUS_PARTNER_GONE
  let w := m.g TWN_WHL_STATUS_PARTNER_GONE
  let a := if m.pins.aliveIn then 0 else 1
  let old := m.g TWN_ROLE_W_SPINDLE + 2 * m.g TWN_ROLE_W_WHORL + 4 * m.g TWN_ROLE_W_ALIVE
  let new := s + 2 * w + 4 * a
  wr TWN_ROLE_W_SPINDLE s
  wr TWN_ROLE_W_WHORL w
  wr TWN_ROLE_W_ALIVE a
  onlyIf (old ≠ new ∧ new ≠ 0 ∧ new ≠ 7 ∧ m.g TWN_CFG_PAIRED = 1) (raise ((twnEv 0 0x098D).b24 new))
  let _ ← witnessAct

/-- The link is declared lost, and the role follows (R306, R340, R345). -/
def spnDeclareLost : P Unit := do
  spnLoss
  let done ← witnessAct
  onlyIf (done = false) roleSpindleLost
  spnKick

/-- ENABLE 0, or SPN leaves ON: the link goes DOWN from any state (Table 12.1). -/
def spnOff : P Unit := do
  let m ← getM
  let st := m.g TWN_SPN_STATUS_STATE
  if st = spUP ∨ st = spRECOVERY then spnDeclareLost
  else onlyIf (st = spTRAINING) spnDown

/-- SETTLE_WALK_DONE: the walk of Square `sq` ends, and its lines take settle trackers (R341). `ue` names the ways, as
set x 16 + way, that the walk found with an uncorrectable error: each counts, and its line is settled by a snoop of its
whole domain (Table 13.6, R139). -/
def settleWalkDone (sq : Nat) (ue : List Nat) : P Unit := do
  let m ← getM
  let x := m.getSqx sq
  if m.g TWN_ROLE_SETTLING = 1 ∧ x.walking then
    each ue fun w => do
      let m ← getM
      let key := ((sq * 2 + 1) * 16384 + w / 16 % 16384) * 16 + w % 16
      let e := m.getDir key
      let line := lineAt e.tag (w / 16 % 16384)
      sqInc sq scDIR_UE
      raise ((((sqEv sq 2 0x0486).b24 sq).b25 (w / 16 % 256)).b26 (w / 4096 % 64) |>.b27 (w % 16))
      onlyIf (e.state ≠ 0) (do
        let l := domainAgents m line
        putDir key { e with sharers := agentBits l, kiosk := l.contains 64 }
        onlyIf ((m.getSqx sq).settleQ.contains line = false) (do
          modSqx sq fun x => { x with settleQ := x.settleQ ++ [line] }
          inc TWN_SETTLE_OPEN
          inc TWN_SETTLE_TOTAL))
    let q := (← getSqx sq).settleQ
    modSqx sq fun x => { x with walking := false, settleQ := [],
                                retry := x.retry.map fun w => if w.why = 5 then { w with woken := true } else w }
    each q fun line => settleGo sq 64 line
    settleCheck

/-- GRACE_END: GRACE after a takeover has passed (R344). -/
def graceEnd : P Unit := modTwx fun x => { x with graceEnd := 0 }

/-- FORM_TIMEOUT: FORM_TMO has run out while forming (Table 13.2, Table 13.3). -/
def formTimeout : P Unit := do
  let m ← getM
  if m.g TWN_ROLE_STATE = roFORMING then
    if allGone m then roleTo roALONE
    else do
      modTwx fun x => { x with formOver := true }
      each squares fun n => modSqx n fun x =>
        { x with retry := x.retry.map fun w => if w.why = 3 then { w with woken := true } else w }

/-! The fence (R339). -/

/-- This twin fences itself; a fence already set keeps its cause. -/
def fence (cause : Nat) : P Unit := do
  let m ← getM
  if m.g TWN_ROLE_STATE ≠ roFENCED ∨ m.twx.unfenced = true then
    let st := m.g TWN_SPN_STATUS_STATE
    roleTo roFENCED
    wr TWN_ROLE_SETTLING 0
    wr TWN_ROLE_FENCE_CAUSE cause
    modTwx fun x => { x with pairedFence := decide (m.g TWN_CFG_PAIRED = 1), unfenced := false }
    if st = spUP ∨ st = spRECOVERY then spnLoss else onlyIf (st = spTRAINING) spnDown
    each (List.range 128) fun p => do
      let m ← getM
      onlyIf (m.g (OCT_PORT_CTL_ENABLE p) = 1) (do
        wr (OCT_PORT_CTL_ENABLE p) 0
        portEnable p false)
    raise ((twnEv 0 0x0995).b24 cause)

/-- UNFENCE while structure is DISABLED clears the latch; the role is left at the next ENABLED (Table 13.2). -/
def unfence : P Unit := do
  let m ← getM
  if m.g TWN_ROLE_STATE = roFENCED then
    wr TWN_ROLE_FENCE_CAUSE 0
    modTwx fun x => { x with unfenced := true, pairedFence := false }

/-- Structure reaches ENABLED: the role starts (R332, Table 13.2). -/
def roleEnable : P Unit := do
  let m ← getM
  onlyIf (fenced m = false) (roleTo (if m.g TWN_CFG_PAIRED = 1 then roFORMING else roSOLO))

/-- Structure is DISABLED: this twin homes nothing and its blind sets end (R330, R343). A fence stays. -/
def roleDisable : P Unit := do
  let m ← getM
  onlyIf (m.g TWN_ROLE_STATE ≠ roFENCED) (do
    roleTo roSOLO
    wr TWN_ROLE_HOMES 0)
  wr TWN_ROLE_SETTLING 0
  clearBlind
  blindShow

/-! Claims and formation (R330, R332, R346). -/

/-- What the partner's last heartbeat says: GLB_STRUCT_STATUS.STATE, PAIRED and TWIN_ID. -/
def partnerStruct (m : Mach) : Nat := bitsAt (m.g TWN_WHL_PARTNER_FLAGS) 2 3
def partnerPaired (m : Mach) : Bool := bitsAt (m.g TWN_WHL_PARTNER_FLAGS) 1 1 = 1
def partnerTwin (m : Mach) : Nat := bitsAt (m.g TWN_WHL_PARTNER_FLAGS) 0 1

/-- This twin's TWIN_ID as a number. -/
def twinNo (m : Mach) : Nat := if m.pins.twinId then 1 else 0

/-- DIGEST8 of this twin (Table 12.7). -/
def digest8 (m : Mach) : Nat := m.g (MLD_DIGEST_DIGEST 0)

/-- The claims of Table 12.7. -/
abbrev clmNONE : Nat := 0
abbrev clmHOME_SPLIT : Nat := 1
abbrev clmHOME_ALL : Nat := 2
abbrev clmREJOIN : Nat := 3
abbrev clmHANDBACK : Nat := 4

/-- CLAIM of the heartbeats this twin sends (Table 13.1, R332). -/
def claimOf (m : Mach) : Nat :=
  let st := m.g TWN_ROLE_STATE
  if st = roALONE ∨ st = roSENDING then clmHOME_ALL
  else if st = roSPLIT ∨ st = roUNMIRRORED ∨ st = roRESYNC then clmHOME_SPLIT
  else if st = roRECEIVING then (if m.twx.handback then clmHANDBACK else clmREJOIN)
  else if st = roFORMING ∧ partnerStruct m = stENABLED ∧ m.g TWN_WHL_PARTNER_CLAIM = clmHOME_ALL then clmREJOIN
  else clmNONE

/-- Why no pair forms with the partner seen (R37): 0x0901 its TWIN_ID is this twin's, 0x0902 its image differs. -/
def partnerBad (m : Mach) : Nat :=
  if partnerTwin m = twinNo m then 0x0901 else if m.g TWN_WHL_DIGEST_DIGEST8 ≠ digest8 m then 0x0902 else 0

/-- A home move ends without moving anything (R349, Table 13.7). -/
def moveAbort : P Unit := do
  let m ← getM
  onlyIf (m.twx.yielding = true) (do
    let _ ← recSend (epSq 0) 0 (2 + 3 * 2 ^ 8))
  moveClear
  raise (twnEv 2 0x0992)

/-- A home move starts (R348): kind 0 a handback, 1 a yield. A yield of twin 1 that meets its partner's is aborted, whichever
record came first (Table 13.7; DEDUCED, notes/assumptions/167.md). -/
def moveStart (kind : Nat) : P Unit := do
  wr TWN_ROLE_MOVING 1
  modTwx fun x => { x with yielding := decide (kind = 1), giveDone := false }
  onlyIf (kind = 1) (do
    let _ ← recSend (epSq 0) 0 (2 + 2 * 2 ^ 8)
    let m ← getM
    onlyIf (m.twx.partnerYield = true ∧ twinNo m = 1) moveAbort)

/-- Both twins claim every line, or this twin sees HOME_ALL while it claims its half (R346, Table 13.7): DUAL_HOME is
raised once, and this twin fences unless it is twin 0 and claims every line. -/
def dualHome (fences : Bool) : P Unit := do
  let m ← getM
  onlyIf (m.twx.dual = false) (do
    modTwx fun x => { x with dual := true }
    raise (twnEv 2 0x0993))
  onlyIf (fences = true) (fence 5)

/-- This twin's yield is complete (Table 13.2). -/
def yieldEnd : P Unit := do
  moveClear
  fence 6

/-- Whether a partner with which no pair forms meets this twin: it checks its structure while this twin's stands, or this
twin is forming (R37, Table 13.2). -/
def partnerTries (m : Mach) : Bool :=
  let here := m.g GLB_STRUCT_STATUS_STATE
  ((here = stAPPLYING || here = stENABLED) && partnerStruct m = stCHECKING) ||
    (here = stENABLED && m.g TWN_ROLE_STATE = roFORMING && partnerStruct m ≠ stDISABLED)

/-- A partner with which no pair forms is recorded once for each check of its structure, and once while this twin is forming
(R37, Table 13.2). -/
def rejoinWatch : P Unit := do
  let m ← getM
  let bad := partnerBad m
  if bad = 0 ∨ partnerTries m = false then modTwx fun x => { x with refused := 0 }
  else onlyIf (m.g TWN_CFG_PAIRED = 1 ∧ m.whl.heard ≠ none ∧ m.twx.refused ≠ bad) (do
    modTwx fun x => { x with refused := bad }
    raise ((twnEv 2 0x0996).h24 bad))

/-- Formation and moves follow what the partner's heartbeats and the Spindle show (Table 13.2). -/
def roleEval : P Unit := do
  rejoinWatch
  let m ← getM
  let st := m.g TWN_ROLE_STATE
  let claim := m.g TWN_WHL_PARTNER_CLAIM
  let up := m.g TWN_SPN_STATUS_STATE = spUP
  if m.g GLB_STRUCT_STATUS_STATE ≠ stENABLED ∨ m.whl.heard = none ∨ m.g TWN_WHL_STATUS_PARTNER_GONE = 1 ∨ fenced m = true
  then pure ()
  else
    if partnerBad m ≠ 0 then pure ()
    else if st = roFORMING ∧ up then
      if claim = clmHOME_ALL then roleTo roRECEIVING
      else if partnerStruct m = stENABLED ∧ partnerPaired m = true ∧ (claim = clmNONE ∨ claim = clmREJOIN) then
        roleTo (if twinNo m = 0 then roSENDING else roRECEIVING)
      else pure ()
    else if st = roALONE ∧ up ∧ claim = clmREJOIN then roleTo roSENDING
    else if st = roSENDING ∧ claim = clmHANDBACK ∧ m.g TWN_ROLE_COPY_DONE = 1 ∧ m.g TWN_ROLE_MOVING = 0 then moveStart 0
    else pure ()

/-! Copies (R347). -/

/-- One DIR_COPY packet of Square `sq`: array, LAST, and entries as (set, way, entry). -/
def copySend (sq arr : Nat) (last : Bool) (l : List (Nat × Nat × DirEnt)) : P Unit := do
  let m ← getM
  let pay := l.flatMap fun e => [w64 (bitsAt e.2.2.bits 0 64),
    w64 (bitsAt e.2.2.bits 64 8 + e.2.2.tag * 2 ^ 8 + e.2.1 * 2 ^ 40 + e.1 * 2 ^ 48)]
  xsend { op := .dirCopy, cls := 7, inp := epSq sq, out := epSPN, tag := 128 + sq, len := 32 + 16 * l.length,
          data := [w64 (sq + (arr + (if last then 2 else 0)) * 2 ^ 8 + l.length * 2 ^ 16 + m.getBlind (2 * sq + arr) * 2 ^ 32),
                   0#64] ++ pay }
  addSat TWN_COPY_RECORDS l.length
  addSat (TWN_CNT_COUNT tcCOPY_RECORDS) l.length

/-- Entries of an array leave in packets of up to 256 records; the last carries LAST. -/
def copyArray (sq arr : Nat) : Nat → List (Nat × Nat × DirEnt) → P Unit
  | 0, l => copySend sq arr true (l.take 256)
  | f + 1, l =>
    if l.length ≤ 256 then copySend sq arr true l
    else do
      copySend sq arr false (l.take 256)
      copyArray sq arr f (l.drop 256)

/-- A Square sends its copy (R347): an OPEN record for each open tracker and ledger entry, then its arrays. -/
def copySquare (sq : Nat) (both : Bool) : P Unit := do
  let m ← getM
  each (openTrks m sq) fun e => do
    let k := e.2
    let req := if k.kind = 0 then reqField k.req else 0xFF
    let _ ← recSend (epSq sq) sq (entryRec 0 k.way (k.writer ≠ 0xFF) false sq k.line k.old req k.writer k.snooped)
    modTrk (sq * 8192 + e.1) fun k => { k with recorded := true }
  each (m.getSqx sq).ledger fun e => do
    let way := ((dirFind m sq e.1).map (·.1)).getD 16
    let _ ← recSend (epSq sq) sq (entryRec 0 way false false sq e.1 (entryOf m sq e.1) 0xFF 0xFF [])
  each (if both then [0, 1] else [0]) fun arr => do
    let l := m.dir.filterMap fun e =>
      if e.1 / 16 / 16384 = sq * 2 + arr ∧ (e.2.state = 1 ∨ e.2.state = 2) then some (e.1 / 16 % 16384, e.1 % 16, e.2) else none
    copyArray sq arr 1024 l

/-- COPY_COMPLETE: every Square has sent its arrays (R347); the copy's packets leave in this step, each set as it now
stands (notes/assumptions/40.md). -/
def copyComplete : P Unit := do
  let m ← getM
  let st := m.g TWN_ROLE_STATE
  if (st = roSENDING ∨ st = roRESYNC) ∧ m.g TWN_COPY_ACTIVE = 1 ∧ m.g TWN_ROLE_COPY_DONE = 0 then
    each squares fun sq => copySquare sq (st = roSENDING)
    wr TWN_ROLE_COPY_DONE 1
    raise (twnEv 0 0x0990)
    let m ← getM
    if st = roSENDING then wr TWN_COPY_ACTIVE 0
    else onlyIf (squares.all (fun n => (m.getSqx n).last1) = true) (roleTo roSPLIT)

/-- Every array the partner copies has arrived (R347, Table 13.2). -/
def copyArrived : P Unit := do
  let m ← getM
  let st := m.g TWN_ROLE_STATE
  if st = roRECEIVING ∧ m.g TWN_ROLE_COPY_DONE = 0 ∧ squares.all (fun n => (m.getSqx n).last0 && (m.getSqx n).last1) = true then
    wr TWN_ROLE_COPY_DONE 1
    wr TWN_COPY_ACTIVE 0
    raise (twnEv 0 0x0990)
    onlyIf (m.g TWN_CTL_AUTO_HANDBACK = 1) (modTwx fun x => { x with handback := true })
  else if st = roRESYNC ∧ m.g TWN_ROLE_COPY_DONE = 1 ∧ squares.all (fun n => (m.getSqx n).last1) = true then
    roleTo roSPLIT
  else pure ()

/-- DIR_COPY: a packet's records fill the array of Square `sq` that the sender's array mirrors (Table 13.8). -/
def dirCopy (sq : Nat) (data : List Word) : P Unit := do
  let m ← getM
  let st := m.g TWN_ROLE_STATE
  if st = roRECEIVING ∨ st = roRESYNC then
    let h := (data.headD 0#64).toNat
    let arr := 1 - bitsAt h 8 1
    let n := Nat.min (bitsAt h 16 16) 256
    each (List.range n) fun i => do
      let a := (data.getD (2 + 2 * i) 0#64).toNat
      let b := (data.getD (3 + 2 * i) 0#64).toNat
      let set := bitsAt b 48 14
      putDir (dirKey sq arr set (bitsAt b 40 4)) (DirEnt.ofBits (bitsAt b 8 32) (a + bitsAt b 0 8 * 2 ^ 64))
      modSqx sq fun x => if arr = 0 then { x with pos0 := Nat.max x.pos0 (set + 1) } else { x with pos1 := Nat.max x.pos1 (set + 1) }
    addSat TWN_COPY_RECORDS n
    addSat (TWN_CNT_COUNT tcCOPY_RECORDS) n
    putBlind (2 * sq + arr) (Nat.min (bitsAt h 32 16) 0x4000)
    blindShow
    onlyIf (bitsAt h 9 1 = 1) (do
      modSqx sq fun x => if arr = 0 then { x with last0 := true } else { x with last1 := true }
      copyArrived)

/-! Home moves (R348, R349). -/

/-- Whether a tracker or a ledger entry stands on a moving line. -/
def moveBusy (m : Mach) : Bool :=
  m.trk.any (fun e => e.2.st ≠ 0 && movingLine m e.2.line) ||
    m.sqx.any (fun e => e.2.ledger.any (fun l => movingLine m l.1))

/-- A Square sends the RELEASE records that wait. -/
def releaseAll (sq : Nat) : Nat → P Unit
  | 0 => pure ()
  | n + 1 => do
    releaseSend sq
    releaseAll sq n

/-- MOVE_DRAINED: all 32 Squares are drained of the moving lines, and each sends its last RELEASE and its MOVE record
(R349). A yield is complete, and its twin fences, once the partner has committed every record (DEDUCED,
notes/assumptions/41.md). -/
def moveDrained : P Unit := do
  let m ← getM
  if m.g TWN_ROLE_MOVING = 1 ∧ m.twx.giveDone = false ∧ moveBusy m = false then
    let y := m.twx.yielding
    each squares fun sq => do
      releaseAll sq (((m.getSqx sq).releases.length + 3) / 4)
      let n ← recSend (epSq sq) sq (2 + (if y then 1 else 0) * 2 ^ 8 + sq * 2 ^ 24)
      modSqx sq fun x => { x with moveSeq := n + 1 }
    inc (TWN_CNT_COUNT tcMOVES)
    raise ((twnEv 0 0x0991).b24 (if y then 1 else 0))
    if y then
      wr TWN_ROLE_HOMES 0
      wr TWN_ROLE_MOVING 0
      modTwx fun x => { x with giveDone := true }
      each squares fun n => modSqx n fun x =>
        { x with retry := x.retry.map fun w => if w.why = 4 then { w with woken := true } else w }
    else roleTo roSPLIT

/-- MOVE_TIMEOUT: MOVE_TMO expires before every Square drains (R349). -/
def moveTimeout : P Unit := do
  let m ← getM
  onlyIf (m.g TWN_ROLE_MOVING = 1 ∧ m.twx.giveDone = false) moveAbort

/-- The partner has handed over the moving lines of every Square (Table 13.2). -/
def moveReceived : P Unit := do
  let m ← getM
  if squares.all (fun n => (m.getSqx n).moveGot) then
    let st := m.g TWN_ROLE_STATE
    inc (TWN_CNT_COUNT tcMOVES)
    roleTo (if st = roRECEIVING then roSPLIT else roALONE)
    raise ((twnEv 0 0x0991).b24 (if st = roRECEIVING then 0 else 1))

/-- A MOVE record arrives at Square `sq` (Table 13.4). -/
def moveRecord (sq code : Nat) : P Unit := do
  let m ← getM
  let st := m.g TWN_ROLE_STATE
  match code with
  | 0 => onlyIf (st = roRECEIVING) (do
      modSqx sq fun x => { x with moveGot := true }
      moveReceived)
  | 1 => onlyIf (st = roSPLIT) (do
      modSqx sq fun x => { x with moveGot := true }
      moveReceived)
  | 2 => do
    modTwx fun x => { x with partnerYield := true }
    onlyIf (m.twx.yielding = true ∧ m.twx.giveDone = false ∧ twinNo m = 1) moveAbort
  | _ => do
    modTwx fun x => { x with partnerYield := false }
    each squares fun n => modSqx n fun x => { x with moveGot := false }

/-! Mirror records (R335-R338). -/

/-- An ENTRY record: the way takes the entry, and the line's mirror tracker table entry opens or is updated. A DI entry
clears the way only where it holds the line. -/
def entryRecord (sq r : Nat) : P Unit := do
  let m ← getM
  let line := bitsAt r 64 52 / 64 * 64
  let way := bitsAt r 16 4
  let set := bitsAt r 32 14
  let e := DirEnt.ofBits (tagOf line) (bitsAt r 128 72)
  let key := dirKey sq (arrOf m line) set way
  if e.state = 0 then onlyIf ((m.getDir key).tag = tagOf line) (putDir key {}) else putDir key e
  putMtt (sq * 2 ^ 46 + line / 64)
    { opened := true, phase := bitsAt r 8 8, data := bitsAt r 20 1 = 1, way := way, set := set, ent := e,
      req := bitsAt r 200 8, writer := bitsAt r 208 8, snooped := bitsAt r 224 64, kiosk := bitsAt r 288 1 = 1 }

/-- A RELEASE record closes the table entries of its lines. -/
def releaseRecord (sq r : Nat) : P Unit :=
  each (List.range (Nat.min (bitsAt r 8 8) 4)) fun i => putMtt (sq * 2 ^ 46 + bitsAt r (64 + 48 * i) 46) {}

/-- MIRROR_RECORD: the mirror Square applies a record, and a commit is due (R336-R338). A twin that is no mirror of its
partner's lines applies none. -/
def mirrorRecord (sq : Nat) (data : List Word) : P Unit := do
  let m ← getM
  let st := m.g TWN_ROLE_STATE
  if st = roRECEIVING ∨ st = roSPLIT ∨ st = roRESYNC then
    let r := (data.take 5).zipIdx.foldl (fun a e => a + e.1.toNat * 2 ^ (64 * e.2)) 0
    inc (TWN_CNT_COUNT tcMIRROR_APPLIED)
    modSqx sq fun x => { x with applied := bitsAt r 304 16, commitDue := true }
    match bitsAt r 0 8 with
    | 0 => entryRecord sq r
    | 1 => releaseRecord sq r
    | _ => moveRecord sq (bitsAt r 8 8)

/-- COMMIT_SEND: a mirror Square returns what it has applied (R338). -/
def commitSend (sq : Nat) : P Unit := do
  let m ← getM
  let x := m.getSqx sq
  if x.commitDue then
    putSqx sq { x with commitDue := false }
    xsend { op := .mirrorCommit, cls := 7, inp := epSq sq, out := epSPN, tag := 128 + sq, len := 48,
            data := [w64 (sq + x.applied * 2 ^ 16 + 0xFF * 2 ^ 32), w64 (0xFF + 0xFF * 2 ^ 32), w64 (0xFF + 0xFF * 2 ^ 32),
                     w64 (0xFF + 0xFF * 2 ^ 32)] }

/-- MIRROR_COMMIT: a commit packet arrives (R338). The commits of a yield's MOVE records end the yield. -/
def commitRecord (l : List (Nat × Nat)) : P Unit := do
  mirrorCommit l
  each l fun e => onlyIf (e.1 < 32) (modSqx e.1 fun x =>
    if x.moveSeq ≠ 0 ∧ covers e.2 (x.moveSeq - 1) = true then { x with moveSeq := 0 } else x)
  let m ← getM
  onlyIf (m.twx.yielding = true ∧ m.twx.giveDone = true ∧ squares.all (fun n => (m.getSqx n).moveSeq = 0) = true) yieldEnd

/-! Registers (R354). -/

/-- The rules of a live write to a TWN pair register. FENCE with YIELD is taken, and the YIELD refused at the
arbitration point (R346). -/
def twnRule (m : Mach) (k : RegKind) (_i _old new _mask : Nat) : Nat :=
  match k with
  | .TWN_CTL =>
    if (bitsAt new 2 1 = 1 ∧ bitsAt new 0 1 = 0 ∧
        (m.g TWN_ROLE_STATE ≠ roSPLIT ∨ m.g TWN_BLIND_SQUARES ≠ 0 ∨ m.g TWN_ROLE_MOVING = 1 ∨ m.twx.giveDone = true)) ∨
      (bitsAt new 3 1 = 1 ∧ ¬(m.g TWN_ROLE_STATE = roRECEIVING ∧ m.g TWN_ROLE_COPY_DONE = 1)) ∨
      (bitsAt new 1 1 = 1 ∧ m.g GLB_STRUCT_STATUS_STATE ≠ stDISABLED) then rcTWN_BUSY else rcOK
  | _ => rcOK

/-- The effect of an accepted write to TWN_CTL; `cmd` holds the bits written. -/
def twnEffect (k : RegKind) (_i _old cmd : Nat) : P Unit :=
  match k with
  | .TWN_CTL => do
    onlyIf (bitsAt cmd 5 1 = 1) (each (List.range 12) fun c => rstReg .TWN_CNT c)
    onlyIf (bitsAt cmd 1 1 = 1) unfence
    onlyIf (bitsAt cmd 0 1 = 1) (fence 1)
    onlyIf (bitsAt cmd 2 1 = 1 ∧ bitsAt cmd 0 1 = 0) (moveStart 1)
    onlyIf (bitsAt cmd 3 1 = 1) (modTwx fun x => { x with handback := true })
  | _ => pure ()

end Sys2Proof.Machine
end

