-- ==== Sys2Proof/Machine/Links.lean ====
section
/-!
DEFINITION. The Spindle link and the Whorl lane (12_spindle_and_whorl.md): link states, lanes and spares, blocks,
packets, acknowledgement and replay, what arrives over the Spindle, heartbeats and firmware frames.
-/
namespace Sys2Proof.Machine

/-! Counters in register order (R329). -/

abbrev lkRX_PKTS : Nat := 1
abbrev lkCRC_ERR : Nat := 2
abbrev lkFEC_UNCORR : Nat := 3
abbrev lkNAK_TX : Nat := 4
abbrev lkNAK_RX : Nat := 5
abbrev lkREPLAY : Nat := 6
abbrev lkREPLAY_PKTS : Nat := 7
abbrev lkDUP_DISCARD : Nat := 8
abbrev lkOOS_DISCARD : Nat := 9
abbrev lkCTL_DISCARD : Nat := 10
abbrev lkRECOVERY : Nat := 13
abbrev lkSPARE_SWAP : Nat := 14
abbrev lkKIND_DISCARD : Nat := 15
abbrev wkHB_TX : Nat := 0
abbrev wkHB_RX : Nat := 1
abbrev wkCRC_ERR : Nat := 2
abbrev wkCODE_ERR : Nat := 3
abbrev wkSYNC_LOSS : Nat := 4
abbrev wkFRAME_DISCARD : Nat := 5
abbrev wkFW_OVERRUN : Nat := 6

def lkInc (c : Nat) : P Unit := inc (TWN_SPN_CNT_COUNT c)
def wkInc (c : Nat) : P Unit := inc (TWN_WHL_CNT_COUNT c)

/-- Causes of RECOVERY (Table 12.8). -/
abbrev rvREPLAY : Nat := 1
abbrev rvLANE : Nat := 2
abbrev rvALIGN : Nat := 3
abbrev rvSILENCE : Nat := 4
abbrev rvPROTOCOL : Nat := 5
abbrev rvRETRAIN : Nat := 6
abbrev rvPARTNER : Nat := 7

/-! Lanes (R305, R307, R320; notes/assumptions/42.md). -/

/-- A lane is good when neither twin has it failed. -/
def laneGood (m : Mach) (l : Nat) : Bool := bitsAt (m.g TWN_SPN_FAIL_FAILED) l 1 = 0 && bitsAt m.spn.pfail l 1 = 0

/-- The lane that carries logical lane `n`. -/
def laneOf (m : Mach) (n : Nat) : Nat :=
  if m.g TWN_SPN_STATUS_SPARE0_USED = 1 ∧ m.g TWN_SPN_STATUS_SPARE0_FOR = n then 32
  else if m.g TWN_SPN_STATUS_SPARE1_USED = 1 ∧ m.g TWN_SPN_STATUS_SPARE1_FOR = n then 33 else n

/-- The logical lanes whose lane is good. -/
def goodLogical (m : Mach) : List Nat := (List.range 32).filter (fun n => laneGood m (laneOf m n))

/-- The logical lane that lane `l` carries while it is active: at width 16 the 16 lowest-numbered good lanes are. -/
def activeFor (m : Mach) (l : Nat) : Option Nat :=
  let on := if m.g TWN_SPN_STATUS_WIDTH = 16 then (goodLogical m).take 16 else List.range 32
  on.find? (fun n => laneOf m n = l)

/-- The lower-numbered spare that is good and carries nothing. -/
def freeSpare (m : Mach) : Option Nat :=
  if m.g TWN_SPN_STATUS_SPARE0_USED = 0 ∧ laneGood m 32 = true then some 0
  else if m.g TWN_SPN_STATUS_SPARE1_USED = 0 ∧ laneGood m 33 = true then some 1 else none

/-- Logical lane `n` moves onto spare `s`; a spare that carried it is no longer in use (R320). -/
def spareTake (n s : Nat) : P Unit := do
  let m ← getM
  onlyIf (laneOf m n = 32) (wr TWN_SPN_STATUS_SPARE0_USED 0)
  onlyIf (laneOf m n = 33) (wr TWN_SPN_STATUS_SPARE1_USED 0)
  if s = 0 then
    wr TWN_SPN_STATUS_SPARE0_FOR n
    wr TWN_SPN_STATUS_SPARE0_USED 1
  else
    wr TWN_SPN_STATUS_SPARE1_FOR n
    wr TWN_SPN_STATUS_SPARE1_USED 1
  let m ← getM
  wr TWN_SPN_STATUS_SPARES_USED (m.g TWN_SPN_STATUS_SPARE0_USED + m.g TWN_SPN_STATUS_SPARE1_USED)
  lkInc lkSPARE_SWAP
  raise (((twnEv 0 0x0984).b24 n).b25 s)

/-- A failed active lane is moved onto a good spare where SPARES_ENABLE allows it. -/
def spareFor (n : Nat) : P Unit := do
  let m ← getM
  onlyIf (m.g TWN_CFG_SPARES_ENABLE = 1) (match freeSpare m with
    | some s => do
      emit (.block 3 [n, s, 0])
      spareTake n s
    | none => pure ())

/-- The width that the good lanes give; a link at width 16 returns to 32 only through RETRAIN (R307). -/
def widthSet (wide : Bool) : P Unit := do
  let m ← getM
  let w := if wide ∧ (goodLogical m).length = 32 then 32 else 16
  onlyIf (w = 16 ∧ m.g TWN_SPN_STATUS_WIDTH ≠ 16) (raise (twnEv 2 0x0985))
  wr TWN_SPN_STATUS_WIDTH w

/-! Link states (Table 12.1). -/

/-- The link enters RECOVERY from UP: sequence numbers, credits and Reel stay. The count of replays starts again
(notes/assumptions/43.md). Byte 24 of the event holds the lane where one is the cause (R328), and 0 otherwise. -/
def spnRecover (cause lane : Nat) : P Unit := do
  let m ← getM
  if m.g TWN_SPN_STATUS_STATE = spUP then
    wr TWN_SPN_STATUS_STATE spRECOVERY
    wr TWN_SPN_STATUS_REPLAY_RUN 0
    modSpn fun x => { x with wide := decide (cause = rvRETRAIN) || decide (m.g TWN_SPN_STATUS_WIDTH = 32) }
    lkInc lkRECOVERY
    raise (((twnEv 0 0x0983).b24 lane).b25 cause)
    linkinfoSend
    onlyIf ((goodLogical m).length < 16) spnDeclareLost
    witness

/-- Lane `l` fails (R320). -/
def laneFail (l cause : Nat) : P Unit := do
  let m ← getM
  let st := m.g TWN_SPN_STATUS_STATE
  if st ≠ spDOWN ∧ bitsAt (m.g TWN_SPN_FAIL_FAILED) l 1 = 0 then
    let act := activeFor m l
    wr TWN_SPN_FAIL_FAILED (m.g TWN_SPN_FAIL_FAILED + 2 ^ l)
    wr (TWN_SPN_LANE_FAILED l) 1
    if st = spTRAINING then linkinfoSend
    else
      match act with
      | some n => do
        spareFor n
        if st = spUP then spnRecover cause l
        else do
          linkinfoSend
          let m ← getM
          onlyIf ((goodLogical m).length < 16) spnDeclareLost
      | none => onlyIf (32 ≤ l) (emit (.block 3 [0, l - 32, 1]))

/-- ALIGNMENT_LOST: a marker of lane `l` misses the skew window or disagrees (R305). -/
def alignmentLost (l : Nat) : P Unit := laneFail l rvALIGN

/-- LANE_WINDOW_END: the window's counts of lane `l` are shown, and a lane over its thresholds fails (R320). -/
def laneWindowEnd (l corr uncorr : Nat) : P Unit := do
  let m ← getM
  onlyIf (m.g TWN_SPN_STATUS_STATE ≠ spDOWN) (do
    wr (TWN_SPN_LANE_CORR l) (Nat.min corr 0xFFFFF)
    wr (TWN_SPN_LANE_UNCORR l) (Nat.min uncorr 0xFFF)
    onlyIf (m.g TWN_SPN_SPARE_THRESH_THRESH < corr ∨ 4 ≤ uncorr) (laneFail l rvLANE))

/-- LANE_SIGNAL_LOST: lane `l` loses signal, or only its codeword lock (R320). -/
def laneSignalLost (l : Nat) (signal : Bool) : P Unit := do
  onlyIf (signal = true) (wr (TWN_SPN_LANE_SIGNAL l) 0)
  wr (TWN_SPN_LANE_LOCK l) 0
  laneFail l rvLANE

/-- LANE_SIGNAL_DETECTED: signal from the partner on lane `l` ends the Spindle witness (R321). -/
def laneSignalDetected (l : Nat) : P Unit := do
  let m ← getM
  if domOn m dSPN = true then
    wr (TWN_SPN_LANE_SIGNAL l) 1
    wr TWN_SPN_STATUS_PARTNER_GONE 0
    witness

/-- PARTNER_SILENT: SILENT_TMO has passed without signal on any lane (R321). -/
def partnerSilent : P Unit := do
  let m ← getM
  if m.g TWN_SPN_STATUS_STATE ≠ spUP ∧ domOn m dSPN = true ∧
      (List.range 34).all (fun l => m.g (TWN_SPN_LANE_SIGNAL l) = 0) = true then
    wr TWN_SPN_STATUS_PARTNER_GONE 1
    witness

/-- A replay leaves: REPLAY with FIRST, then every packet of the Reel in order (R316). -/
def replayEmit : P Unit := do
  let m ← getM
  lkInc lkREPLAY
  addSat (TWN_SPN_CNT_COUNT lkREPLAY_PKTS) m.reel.length
  emit (.block 2 [(m.reel.head?.map (·.seq)).getD (m.g TWN_SPN_TXSEQ_TX_NEXT)])
  each m.reel fun pk => emit (.packet pk)

/-- A replay starts, unless REPLAY_RUN passes its limit (R316). -/
def replayStart : P Unit := do
  let m ← getM
  let n := m.g TWN_SPN_STATUS_REPLAY_RUN + 1
  if m.g TWN_SPN_CTL_REPLAY_MAX < n then spnRecover rvREPLAY 0
  else do
    wr TWN_SPN_STATUS_REPLAY_RUN n
    replayEmit

/-- The link is UP, from TRAINING or RECOVERY. -/
def spnUpShow : P Unit := do
  let m ← getM
  wr TWN_SPN_STATUS_STATE spUP
  wr TWN_SPN_STATUS_PARTNER_GONE 0
  each ((goodLogical m).map (laneOf m)) fun l => do
    wr (TWN_SPN_LANE_SIGNAL l) 1
    wr (TWN_SPN_LANE_LOCK l) 1
  statusSend false
  witness

/-- SPINDLE_TRAINED: agreeing LINKINFO with enough good lanes brings the link UP; sequence numbers and credits are
reset (R306, R313, R318). What the buffers still held is no longer counted in credits. -/
def spnTrained : P Unit := do
  let m ← getM
  if m.g TWN_SPN_STATUS_STATE = spTRAINING ∧ m.g TWN_SPN_STATUS_ID_CONFLICT = 0 then
    each ((List.range 32).filter (fun n => laneGood m (laneOf m n) = false)) spareFor
    let m ← getM
    if 16 ≤ (goodLogical m).length then
      widthSet true
      rstReg .TWN_SPN_TXSEQ 0
      wr TWN_SPN_RXSEQ_RX_NEXT 0
      each (List.range 8) fun v => do
        rstReg .TWN_SPN_CRED v
        rstReg .TWN_SPN_RCRED v
      putReel []
      clearSpnBuf
      clearSpnWait
      modSpn fun x => { x with held := x.held.map fun e => (e.1, 0) }
      wr TWN_SPN_STATUS_NAK_PENDING 0
      wr TWN_SPN_STATUS_REEL_FULL 0
      wr TWN_SPN_STATUS_REPLAY_RUN 0
      spnUpShow
      let m ← getM
      raise ((twnEv 0 0x0981).b25 (m.g TWN_SPN_STATUS_WIDTH))
      onlyIf (m.g TWN_ROLE_STATE = roUNMIRRORED) (roleTo roRESYNC)
      roleEval
      portStateSend

/-- SPINDLE_TRAIN_TIMEOUT: training starts again from receiver detect (Table 12.1). -/
def spnTrainTimeout : P Unit := do
  let m ← getM
  onlyIf (m.g TWN_SPN_STATUS_STATE = spTRAINING) (do
    wr TWN_SPN_STATUS_ID_CONFLICT 0
    wr TWN_SPN_FAIL_FAILED 0
    modSpn fun x => { x with pfail := 0 }
    each (List.range 34) fun l => wr (TWN_SPN_LANE_FAILED l) 0
    linkinfoSend)

/-- SPINDLE_RECOVERY_DONE: the lanes are aligned again; each side replays and holds its receiver in NAK_PENDING. -/
def spnRecoveryDone : P Unit := do
  let m ← getM
  if m.g TWN_SPN_STATUS_STATE = spRECOVERY then
    if (goodLogical m).length < 16 then spnDeclareLost
    else do
      widthSet m.spn.wide
      wr TWN_SPN_STATUS_NAK_PENDING 1
      wr TWN_SPN_STATUS_REPLAY_RUN 1
      spnUpShow
      replayEmit

/-- SPINDLE_RECOVERY_TIMEOUT (Table 12.1). -/
def spnRecoveryTimeout : P Unit := do
  let m ← getM
  onlyIf (m.g TWN_SPN_STATUS_STATE = spRECOVERY) spnDeclareLost

/-! Blocks. -/

/-- A control block whose CRC fails is discarded and counted (R308). -/
def ctlBlock (ok : Bool) (x : P Unit) : P Unit := do
  let m ← getM
  if m.g TWN_SPN_STATUS_STATE = spDOWN then pure () else if ok then x else lkInc lkCTL_DISCARD

/-- Whether sequence number `a` covers `s` (R312). -/
def seqCovers (a s : Nat) : Bool := (a + 65536 - s % 65536) % 65536 < 32768

/-- STATUS_BLOCK: ACKED and the credit limits follow, and a NAK starts a replay (R316, R318). -/
def statusBlock (ok nak : Bool) (ack : Nat) (limits : List Nat) : P Unit := ctlBlock ok (do
  let m ← getM
  let st := m.g TWN_SPN_STATUS_STATE
  if st = spUP ∨ st = spRECOVERY then
    each (List.range 8) fun v => wr (TWN_SPN_CRED_LIMIT v) (nth limits v % 65536)
    let old := m.g TWN_SPN_TXSEQ_ACKED
    if ack % 65536 ≠ old ∧ seqCovers ack old = true then
      wr TWN_SPN_TXSEQ_ACKED (ack % 65536)
      modReel (·.filter (fun pk => !seqCovers ack pk.seq))
      reelShow
      wr TWN_SPN_STATUS_REPLAY_RUN 0
    let m ← getM
    onlyIf (reelShort m = false) (do
      wr TWN_SPN_STATUS_REEL_FULL 0
      putSpnWait 8 false)
    onlyIf (nak = true) (lkInc lkNAK_RX)
    onlyIf (nak = true ∧ st = spUP) replayStart)

/-- A protocol error on the link (R309, R314, R318). -/
def spnProtocol : P Unit := do
  raise (twnEv 2 0x0986)
  spnRecover rvPROTOCOL 0

/-- REPLAY_BLOCK: ends NAK_PENDING, or breaks the protocol where FIRST lies ahead of RX_NEXT (R314). -/
def replayBlock (ok : Bool) (first : Nat) : P Unit := ctlBlock ok (do
  let m ← getM
  let d := (first + 65536 - m.g TWN_SPN_RXSEQ_RX_NEXT) % 65536
  if m.g TWN_SPN_STATUS_STATE = spUP then
    if 1 ≤ d ∧ d ≤ 32767 then spnProtocol else wr TWN_SPN_STATUS_NAK_PENDING 0)

/-- SPARE_BLOCK: the partner's receiver moves a logical lane onto a spare, or reports a failed spare (R320). -/
def spareBlock (ok : Bool) (n s : Nat) (failedOnly : Bool) : P Unit := ctlBlock ok (do
  let m ← getM
  if failedOnly then modSpn fun x => { x with pfail := x.pfail ||| 2 ^ (32 + s) }
  else onlyIf (laneOf m n ≠ 32 + s) (do
    modSpn fun x => { x with pfail := x.pfail ||| 2 ^ laneOf m n }
    spareTake n s
    spnRecover rvLANE (laneOf m n)))

/-- A spare that the partner's map has in use and this twin's has not carries the partner's logical lane here too: the map
repeats what a lost SPARE block said (R308, R320). -/
def spareFollow (map s : Nat) : P Unit := do
  let m ← getM
  let used := if s = 0 then m.g TWN_SPN_STATUS_SPARE0_USED else m.g TWN_SPN_STATUS_SPARE1_USED
  onlyIf (bitsAt map (6 * s + 5) 1 = 1 ∧ used = 0) (spareTake (bitsAt map (6 * s) 5) s)

/-- LINKINFO_BLOCK: the partner's TWIN_ID, failed lanes and spare map; while UP it brings RECOVERY (R306). -/
def linkinfoBlock (ok : Bool) (twin : Bool) (failed spares : Nat) : P Unit := ctlBlock ok (do
  let m ← getM
  modSpn fun x => { x with pfail := failed % 2 ^ 34 }
  onlyIf (m.g TWN_SPN_STATUS_STATE = spTRAINING ∧ twin = m.pins.twinId) (wr TWN_SPN_STATUS_ID_CONFLICT 1)
  spnRecover rvPARTNER 0
  spareFollow spares 0
  spareFollow spares 1)

/-- The receiver enters NAK_PENDING and sends a NAK (R314). -/
def nakRaise : P Unit := do
  wr TWN_SPN_STATUS_NAK_PENDING 1
  lkInc lkNAK_TX
  statusSend true

/-- FEC_UNCORRECTABLE: an uncorrectable codeword counts, and is an error of a link that is UP (R314). -/
def fecUncorrectable : P Unit := do
  let m ← getM
  if m.g TWN_SPN_STATUS_STATE ≠ spDOWN then
    lkInc lkFEC_UNCORR
    onlyIf (m.g TWN_SPN_STATUS_STATE = spUP ∧ m.g TWN_SPN_STATUS_NAK_PENDING = 0) nakRaise

/-- REPLAY_TIMEOUT: the replay timer runs out with packets in the Reel (R316). -/
def replayTimeout : P Unit := do
  let m ← getM
  onlyIf (m.g TWN_SPN_STATUS_STATE = spUP ∧ m.reel ≠ []) replayStart

/-- SPINDLE_SILENCE: no valid block for 1 us (Table 12.1). -/
def spnSilence : P Unit := spnRecover rvSILENCE 0

/-- STATUS_PERIOD: 2 us after the last STATUS block (R315). -/
def statusPeriod : P Unit := statusSend false

/-! Data packets (R309-R319). -/

/-- Whether a kind travels in a virtual channel (Table 12.4). -/
def kindVc (k vc : Nat) : Bool :=
  match k with
  | 1 | 2 | 9 | 0xA | 0xB => vc = 7
  | 3 | 4 => vc = 0 || vc = 2 || vc = 3
  | 5 | 6 => vc = 1
  | 7 => vc = 2 || vc = 3
  | 8 => vc = 3
  | _ => false

/-- The endpoint that an address gives for a packet whose DEST is 0xFF: the home Square, or the Kiosk bank of the line
(R119, R256, R270). -/
def packetDest (m : Mach) (pk : Packet) : Nat :=
  if pk.dest ≠ 0xFF then pk.dest
  else match pk.kind with
    | 1 | 2 | 0xB | 3 | 4 | 6 => epSq (homeSq (lineOf pk.msg.addr))
    | 7 | 8 => epKsk (kskBank m (lineOf pk.msg.addr))
    | _ => epMG

/-- Whether DEST names an endpoint that takes packets of the kind, or 0xFF (R8, Table 12.3): a Square for what a Square
serves, a Kiosk bank for a Loom access, the management complex for the rest (DEDUCED, notes/assumptions/161.md). -/
def destOk (pk : Packet) : Bool :=
  pk.dest = 0xFF || (match pk.kind with
    | 1 | 2 | 0xB | 3 | 4 | 6 => 128 ≤ pk.dest && pk.dest < 160
    | 7 | 8 => 160 ≤ pk.dest && pk.dest < 164
    | 9 | 0xA => pk.dest = epMG
    | _ => false)

/-- An accepted packet's message enters the Crossing from endpoint 166 (R310). The response to a forwarded request and
a relayed snoop are commands of their own first. -/
def packetEnter (pk : Packet) : P Unit := do
  let m ← getM
  let q := { pk.msg with inp := epSPN, cls := pk.vc }
  if (pk.kind = 4 ∧ isWb q = false) ∨ pk.kind = 5 then
    modSpn fun x => { x with held := x.held ++ [(pk.vc, pk.blocks)] }
    emit (.deliver epSPN q)
  else
    modSpnBuf pk.vc (· ++ [pk.blocks])
    xsend { q with out := packetDest m pk }

/-- DATA_PACKET: a packet is checked, and accepted in sequence, discarded as a duplicate, or an error (R309, R313,
R314, R319). An accepted packet whose DEST is out of its range is refused and recorded, and its buffer is freed (R8). -/
def dataPacket (pk : Packet) : P Unit := do
  let m ← getM
  if m.g TWN_SPN_STATUS_STATE ≠ spUP then pure ()
  else if m.g TWN_SPN_STATUS_NAK_PENDING = 1 then lkInc lkOOS_DISCARD
  else if pk.crcOk = false then do
    lkInc lkCRC_ERR
    nakRaise
  else if pk.blocks < 1 ∨ 140 < pk.blocks ∨ pk.rsv = true then nakRaise
  else
    let d := (pk.seq + 65536 - m.g TWN_SPN_RXSEQ_RX_NEXT) % 65536
    if 32768 ≤ d then do
      lkInc lkDUP_DISCARD
      statusSend false
    else if d ≠ 0 then nakRaise
    else if m.g (TWN_SPN_VCBUF_SIZE pk.vc) < m.g (TWN_SPN_RCRED_USED pk.vc) + pk.blocks then spnProtocol
    else do
      addWrap TWN_SPN_RXSEQ_RX_NEXT 1
      lkInc lkRX_PKTS
      if kindVc pk.kind pk.vc = false ∨ pk.kind ≠ spnKind pk.msg then
        addWrap (TWN_SPN_RCRED_FREED pk.vc) pk.blocks
        countFirst (TWN_SPN_CNT_COUNT lkKIND_DISCARD) (twnEv 2 0x0986)
        statusSend false
      else if destOk pk = false then
        addWrap (TWN_SPN_RCRED_FREED pk.vc) pk.blocks
        opRefused .TWN rcTWN_LIMIT 0xFF 0xFF (pathCode m .partner)
        statusSend false
      else
        addSat (TWN_SPN_RCRED_USED pk.vc) pk.blocks
        statusSend false
        packetEnter pk

/-- The packet whose message the command carries leaves its buffer for the Crossing. -/
def heldTake (vc : Nat) : P Bool := do
  let m ← getM
  match m.spn.held.find? (fun e => e.1 = vc) with
  | some e => do
    modSpn fun x => { x with held := x.held.erase e }
    modSpnBuf vc (· ++ [e.2])
    return true
  | none => return false

/-! What arrives over the Spindle. -/

/-- FWD_REQ: a request that the partner forwards is served at its home Square as one of the same agent (R334). -/
def fwdReq (q : Msg) : P Unit := do
  inc (TWN_CNT_COUNT tcMISDIRECT_SERVED)
  let sq := homeSq (lineOf q.addr)
  if isWb q then writeback sq { q with inp := epSPN } none
  else do
    let t ← getStampCtr
    putStampCtr (t + 1)
    let now' ← now
    putArrT t (now' + 1)
    modSqin sq (· ++ [(t, { q with inp := epSPN, out := epSq sq })])

/-- FWD_RSP: the response to a request that this twin forwarded is delivered on the original port (R334). -/
def fwdRsp (q : Msg) : P Unit := do
  let ok ← heldTake q.cls
  if ok then
    let p := q.tag / 65536
    modSpn fun x => { x with fwd := x.fwd.eraseP (fun f => nth f.x 1 = p && f.tag = q.tag % 65536) }
    xsend { q with inp := epSPN, out := p, tag := q.tag % 65536 }

/-- SNOOP: a snoop that the partner relays goes to the agent's port here (R162). -/
def snoopIn (q : Msg) : P Unit := do
  let ok ← heldTake q.cls
  if ok then
    let m ← getM
    match agentPort m q.agent with
    | some p => do
      modSpn fun x => { x with relay := x.relay ++ [(q.agent, lineOf q.addr)] }
      xsend { q with inp := epSPN, out := p }
    | none => do
      xsend { q with inp := epSPN, out := epMG }

/-- Whether agent `a`'s answer for a line is the answer to a relayed snoop. -/
def relayed (m : Mach) (a line : Nat) : Bool := m.spn.relay.contains (a, line) && !homesLine m line

/-- BIRSP: an agent's answer reaches a Square; the answer to a relayed snoop goes back over the Spindle (R162, R310). -/
def birspIn (sq a line : Nat) (s : Bool) : P Unit := do
  let m ← getM
  if relayed m a line then
    modSpn fun x => { x with relay := x.relay.erase (a, line) }
    xsend { op := if s then .birspS else .birspI, cls := 1, inp := epSq sq, out := epSPN, agent := a, addr := line, len := 16 }
  else birsp sq a line s

/-- WRITEBACK: a writeback reaches a Square; one that precedes the answer to a relayed snoop goes before it, under
FWD_RSP in VC3 (Table 12.4), and the home Square completes it to the port that its tag carries. -/
def writebackIn (sq : Nat) (q : Msg) (bad : Option Nat) : P Unit := do
  let m ← getM
  if relayed m q.agent (lineOf q.addr) then
    xsend { q with inp := epSq sq, out := epSPN, cls := 3, tag := q.tag % 65536 + q.inp * 65536, x := [0xFE] }
  else writeback sq q bad

/-- LOOM_REQ: the partner's access is served by this twin's Kiosk, or written at its home Square (R256). -/
def loomReq (q : Msg) : P Unit := do
  let m ← getM
  let id := m.accNext
  let sort := nth q.x 0
  putAccNext (id + 1)
  kskInc kkREMOTE
  putAcc id { st := 1, thread := 4096, sort := sort, addr := q.addr, len := nth q.x 5, op := nth q.x 1, pkts := nth q.x 2,
              bytes := nth q.x 3, wide := decide (nth q.x 4 = 1), hint := nth q.x 6, data := q.data, poison := q.poison,
              bank := kskBank m (lineOf q.addr), tag := q.tag }
  if sort = 3 then
    xsend { op := .memWr, cls := 3, inp := epKsk (kskBank m (lineOf q.addr)), out := epSq (homeSq (lineOf q.addr)),
            agent := 64, addr := lineOf q.addr, tag := id, len := 80, data := q.data, poison := q.poison, x := [nth q.x 6] }
  else kskAccess id

/-- LOOM_RSP: data or an acknowledgement of a remote access is back; its delivery to the thread follows (R256). -/
def loomRsp (q : Msg) : P Unit := do
  let m ← getM
  let a := m.getAcc q.tag
  onlyIf (a.st = 1 ∧ a.bank = 4) (putAcc q.tag { a with st := 2, data := q.data, poison := q.poison })

/-- PORT_STATE: the partner's map of agents with a port UP (R162, R310). -/
def portState (map : Nat) : P Unit := do
  each (List.range 64) fun a => do
    let m ← getM
    let up := decide (bitsAt map a 1 = 1)
    if m.getPagent a ≠ up then
      putPagent a up
      onlyIf (up = false ∧ (agentPort m a).any (fun p => portUp m p) = false ∧ (agentPort m a).isSome = true) (agentLost a)

/-! Whorl (R322-R327). -/

/-- Whether REFCLK is there (R22). -/
def refclk (m : Mach) : Bool := m.g PWR_CLK_STATUS_REFCLK_OK = 1

/-- TWN_WHL_STATUS.STATE follows alignment and the witness (R325). -/
def whlShow : P Unit := do
  let m ← getM
  wr TWN_WHL_STATUS_STATE (if m.whl.align = false then 0 else if m.g TWN_WHL_STATUS_PARTNER_GONE = 0 then 2 else 1)

/-- The Whorl witness changes, with its event where the part was PAIRED before it (R325). -/
def whlGone (gone paired : Bool) : P Unit := do
  let m ← getM
  onlyIf (m.g TWN_WHL_STATUS_PARTNER_GONE ≠ (if gone then 1 else 0)) (do
    wr TWN_WHL_STATUS_PARTNER_GONE (if gone then 1 else 0)
    onlyIf (paired = true ∧ m.g TWN_CFG_PAIRED = 1) (raise (if gone then twnEv 2 0x0987 else twnEv 0 0x0988)))
  whlShow
  witness

/-- TWN_CFG has changed: PARTNER_GONE is 1 while MISSED is at least WHORL_MISS as it now stands, and the value that it holds
when PAIRED becomes 1 raises no event (R325). `paired` is PAIRED before the change. -/
def whlCfg (paired : Bool) : P Unit := do
  let m ← getM
  let gone := decide (m.g TWN_CFG_WHORL_MISS ≤ m.g TWN_WHL_STATUS_MISSED)
  onlyIf (m.g TWN_WHL_STATUS_PARTNER_GONE ≠ (if gone then 1 else 0)) (whlGone gone paired)

/-- TWN_WHL_TOFF from the four times of an echoed heartbeat (R326). -/
def whlOffset (h : Heartbeat) (t4 : Nat) : P Unit := do
  let m ← getM
  let t1 : Int := m.getHbTx h.echo
  let t2 : Int := h.rxTime
  let t3 : Int := h.txTime
  wr TWN_WHL_TOFF_OFFSET (ofSigned 32 (((t2 - t1) + (t3 - (t4 : Int))) / 2))
  wr TWN_WHL_TOFF_DELAY (ofSigned 32 ((((t4 : Int) - t1) - (t3 - t2)) / 2))

/-- What a heartbeat's CLAIM contradicts (R346, Table 13.7). -/
def claimCheck (h : Heartbeat) : P Unit := do
  let m ← getM
  if h.claim = clmHOME_ALL ∧ m.twx.giveDone = true ∧ m.twx.yielding = true then yieldEnd
  else if h.claim = clmHOME_ALL ∧ claimOf m = clmHOME_SPLIT ∧ m.twx.sentClaim = clmHOME_SPLIT then dualHome true
  else if h.claim = clmHOME_ALL ∧ m.twx.sentClaim = clmHOME_ALL ∧ claimOf m = clmHOME_ALL ∧ twinNo m = 0 ∧
      bitsAt h.flags 7 1 = 1 ∧ h.echo = m.g TWN_WHL_STATUS_TX_SEQ then dualHome false
  else pure ()

/-- A frame that is not valid: 1 its CRC fails, otherwise it is discarded (R323). -/
def frameBad (fault : Nat) : P Unit := wkInc (if fault = 1 then wkCRC_ERR else wkFRAME_DISCARD)

/-- The heartbeat slot (R324) of a heartbeat that arrives: twin 0's own that it echoes, a new one otherwise. -/
def slotIn (m : Mach) (h : Heartbeat) : Nat :=
  if twinNo m = 0 ∧ bitsAt h.flags 7 1 = 1 then m.whl.slot - (m.g TWN_WHL_STATUS_TX_SEQ + 65536 - h.echo) % 65536
  else m.whl.slot + 1

/-- The heartbeat slot of the heartbeat that this twin sends. -/
def slotOut (m : Mach) : Nat := if twinNo m = 1 ∧ m.whl.echo = true then m.whl.slot else m.whl.slot + 1

/-- A capture of TIME64 at a frame's K27.7: it resolves 10 ns (R326). -/
def capture (t : Nat) : Nat := t / 10 * 10

/-- HEARTBEAT: a heartbeat arrives; `fault` 0 is a valid frame (R323-R326, R332, R346). `k27` is TIME64 at its K27.7; the
command stands at its K29.7. A heartbeat from a twin of TWIN_ID 1 triggers none of twin 1 (R324). -/
def heartbeatIn (fault : Nat) (h : Heartbeat) (k27 : Nat) : P Unit := do
  let m ← getM
  if refclk m = false ∨ m.whl.align = false then pure ()
  else if fault ≠ 0 ∨ 4 < h.claim then frameBad fault
  else do
    let t := m.time64
    wkInc wkHB_RX
    wr TWN_WHL_STATUS_MISSED 0
    wr TWN_WHL_STATUS_RX_SEQ h.seq
    wr TWN_WHL_PARTNER_FLAGS h.flags
    wr TWN_WHL_PARTNER_CLAIM h.claim
    wr TWN_WHL_PARTNER_ECHO h.echo
    wr TWN_WHL_DIGEST_DIGEST8 h.digest8
    onlyIf (bitsAt h.flags 7 1 = 1) (whlOffset h (capture k27))
    let s := slotIn m h
    modWhl fun x => { x with heard := some (capture k27), since := t,
                             echo := x.echo || decide (twinNo m = 0 ∨ bitsAt h.flags 0 1 = 0), slot := Nat.max x.slot s,
                             pChk := if bitsAt h.flags 2 3 = stCHECKING then x.pChk.or (some s) else none }
    modLdr fun x => { x with heard := true }
    whlGone false true
    claimCheck h
    roleEval

/-- HEARTBEAT_SEND: a heartbeat leaves, and a waiting FW frame after it (R324, R327). A fenced twin sends none (R339);
twin 1 sends none within 5 us of its last. -/
def heartbeatSend : P Unit := do
  let m ← getM
  let t := m.time64
  let soon := twinNo m = 1 ∧ m.whl.sent.any (fun s => t < s + 5000) = true
  if refclk m = false ∨ fenced m = true ∨ soon then pure ()
  else do
    let seq := (m.g TWN_WHL_STATUS_TX_SEQ + 1) % 65536
    let c := claimOf m
    let flags := twinNo m + m.g TWN_CFG_PAIRED * 2 + m.g GLB_STRUCT_STATUS_STATE * 4 +
      (if m.g TWN_SPN_STATUS_STATE = spUP then 32 else 0) + (if m.pins.aliveIn then 64 else 0) + (if m.whl.echo then 128 else 0)
    wkInc wkHB_TX
    wr TWN_WHL_STATUS_TX_SEQ seq
    putHbTx seq (capture t)
    emit (.heartbeat { seq := seq, echo := m.g TWN_WHL_STATUS_RX_SEQ, flags := flags, claim := c, digest8 := digest8 m,
                       txTime := capture t, rxTime := if m.whl.echo then m.whl.heard.getD 0 else 0 })
    onlyIf (m.whl.fw = true) (do
      emit (.fwFrame (m.rd ⟨.TWN_WHL_FW_TX, 0⟩).toNat (m.rd ⟨.TWN_WHL_FW_TX, 1⟩).toNat)
      wr TWN_WHL_FW_CTL_BUSY 0)
    modTwx fun x => { x with sentClaim := c }
    putWhl { m.whl with sent := some t, echo := false, fw := false, slot := Nat.max m.whl.slot (slotOut m),
                        myChk := if m.g GLB_STRUCT_STATUS_STATE = stCHECKING then m.whl.myChk.or (some (slotOut m)) else none }
    onlyIf (twinNo m = 1 ∧ m.whl.echo = true ∧ c = clmHOME_ALL ∧ m.g TWN_WHL_PARTNER_CLAIM = clmHOME_ALL) (dualHome true)

/-- HEARTBEAT_MISS: 10 us of device time without a valid heartbeat (R325). -/
def heartbeatMiss : P Unit := do
  let m ← getM
  if refclk m = true then
    inc TWN_WHL_STATUS_MISSED
    let m ← getM
    modWhl fun x => { x with since := m.time64 }
    onlyIf (m.g TWN_CFG_WHORL_MISS ≤ m.g TWN_WHL_STATUS_MISSED) (whlGone true true)

/-- WHORL_SYNC_LOSS: four code or disparity errors lose character alignment, and a frame in progress is discarded
(R322). -/
def whlSyncLoss (inFrame : Bool) : P Unit := do
  let m ← getM
  if m.whl.align = true ∧ refclk m = true then
    wkInc wkSYNC_LOSS
    addSat (TWN_WHL_CNT_COUNT wkCODE_ERR) 4
    onlyIf (inFrame = true) (wkInc wkFRAME_DISCARD)
    modWhl fun x => { x with align := false }
    whlShow

/-- WHORL_CHARACTER_ALIGNMENT (R322). -/
def whlAlign : P Unit := do
  let m ← getM
  onlyIf (refclk m = true) (do
    modWhl fun x => { x with align := true }
    whlShow)

/-- FW_FRAME: a FW frame fills TWN_WHL_FW_RX, or is an overrun (R327). -/
def fwFrame (fault d0 d1 : Nat) : P Unit := do
  let m ← getM
  if refclk m = false ∨ m.whl.align = false then pure ()
  else if fault ≠ 0 then frameBad fault
  else if m.g TWN_WHL_FW_CTL_RX_VALID = 1 then wkInc wkFW_OVERRUN
  else do
    wr (TWN_WHL_FW_RX_DATA 0) d0
    wr (TWN_WHL_FW_RX_DATA 1) d1
    wr TWN_WHL_FW_CTL_RX_VALID 1

/-- REFCLK has gone: the lane is still, and its witness is held at 0 (R322). -/
def whlNoClock : P Unit := do
  modWhl fun x => { x with align := false }
  wr TWN_WHL_STATUS_MISSED 0
  wr TWN_WHL_STATUS_PARTNER_GONE 0
  whlShow
  witness

/-- PARTNER_ALIVE_CHANGE: the deglitched level of PARTNER_ALIVE_IN (R340). -/
def partnerAlive (level : Bool) : P Unit := do
  modPins fun x => { x with aliveIn := level }
  witness

/-! Registers (R307, R317, R327, R329). -/

/-- The rules of a live write to a TWN link register. -/
def linkRule (m : Mach) (k : RegKind) (i old new mask : Nat) : Nat :=
  match k with
  | .TWN_SPN_CTL => if bitsAt new 0 1 = 1 ∧ m.g TWN_CFG_PAIRED = 0 then rcTWN_LIMIT else rcOK
  | .TWN_SPN_VCBUF =>
    let s := bitsAt new 0 15
    let sum := (List.range 8).foldl (fun a v => a + if v = i then s else m.g (TWN_SPN_VCBUF_SIZE v)) 0
    if m.g TWN_SPN_STATUS_STATE ≠ spDOWN then rcTWN_BUSY
    else if s < 140 ∨ 32767 < s ∨ 65536 < sum then rcTWN_LIMIT else rcOK
  | .TWN_SPN_SPARE_THRESH => if bitsAt new 0 20 = 0 then rcTWN_LIMIT else rcOK
  | .TWN_WHL_FW_CTL => if bitsAt new 0 1 = 1 ∧ m.g TWN_WHL_FW_CTL_BUSY = 1 then rcTWN_BUSY else rcOK
  | _ => twnRule m k i old new mask

/-- The effect of an accepted write to a TWN register; `cmd` holds the bits written. -/
def linkEffect (k : RegKind) (i old cmd : Nat) : P Unit := do
  let m ← getM
  match k with
  | .TWN_SPN_CTL => do
    onlyIf (bitsAt cmd 2 1 = 1) (each (List.range 16) fun c => rstReg .TWN_SPN_CNT c)
    onlyIf (bitsAt cmd 1 1 = 1) (if m.g TWN_SPN_STATUS_STATE = spRECOVERY then modSpn fun x => { x with wide := true }
      else spnRecover rvRETRAIN 0)
    if m.g TWN_SPN_CTL_ENABLE = 1 then spnKick else onlyIf (bitsAt old 0 1 = 1) spnOff
  | .TWN_CFG => whlCfg (bitsAt old 0 1 = 1)
  | .TWN_WHL_CTL => onlyIf (bitsAt cmd 0 1 = 1) (each (List.range 7) fun c => rstReg .TWN_WHL_CNT c)
  | .TWN_WHL_FW_CTL => onlyIf (bitsAt cmd 0 1 = 1) (do
      wr TWN_WHL_FW_CTL_BUSY 1
      modWhl fun x => { x with fw := true })
  | _ => twnEffect k i old cmd

end Sys2Proof.Machine
end

