-- ==== Sys2Proof/Machine/Integrity.lean ====
section
/-!
DEFINITION. Stored data integrity and event delivery (14_integrity_and_events.md): scrubs, merge buffers, FAULTY
objects, repair and retirement, raw test accesses, and the firmware event queue's own commands.
-/
namespace Sys2Proof.Machine

/-- The domain that holds a memory (Table 14.1): a Square, a Kiosk bank, a stack, a cluster; the management SRAM in
MGMT; the others in CORE. -/
def memDom (mem inst : Nat) : Nat :=
  match mem with
  | 0 => dSQ (inst % 32)
  | 4 | 5 => dKSK (inst % 4)
  | 8 => 1
  | 9 => dPLZ (inst % 2)
  | 10 => dLM (inst % 8)
  | _ => 2

/-- Whether a memory has the code word `i` and instance. The sizes of CTX, XBUF's receive part and LMT are not stated:
any index is taken (notes/assumptions/47.md). -/
def memHas (mem inst i : Nat) : Bool :=
  match mem with
  | 0 => inst < 32 && i < 2 * 16384 * 16
  | 4 => inst < 4 && i < 16384 * 16 * 8
  | 5 => inst < 4 && i < 16384 * 16
  | 8 => inst = 0 && i < 2 ^ 20
  | 9 => inst < 2 && i < 201326592 * 4
  | 10 => inst < 8
  | 2 | 6 => true
  | 1 | 3 | 7 => true
  | _ => false

/-! Context objects (R358). -/

/-- The registers of a context object that hold RW words, its VALID bit and its block (Table 14.6). Sorts: 0 queue,
1 flow, 2 ring, 3 window, 4 Loom table, 5 fabric memory decoder, 6 bundle, 7 channel, 8 group. -/
def ctxRegs (sort i : Nat) : List Reg :=
  match sort with
  | 0 => [⟨.TM_QCFG, i⟩, ⟨.TM_QPOL, i⟩, ⟨.TM_QSCH, i⟩]
  | 1 => [⟨.FLW_W0, i⟩, ⟨.FLW_W1, i⟩]
  | 2 => [⟨.RNG_CFG, i⟩, ⟨.RNG_CTL, i⟩, ⟨.RNG_IRQ, i⟩]
  | 3 => (List.range 4).map fun w => ⟨.KRB_WIN, i * 4 + w⟩
  | 4 => [⟨.LM_TBL_CFG, i⟩, ⟨.LM_TBL_PARAM, i⟩]
  | 5 => [⟨.SQ_FMD_BASE, i⟩, ⟨.SQ_FMD_SIZE, i⟩, ⟨.SQ_FMD_CTL, i⟩, ⟨.SQ_FMD_TGT0, i⟩, ⟨.SQ_FMD_TGT1, i⟩]
  | 6 => [⟨.TM_BND_CFG, i⟩, ⟨.TM_BND_SHA, i⟩, ⟨.TM_BND_SHB, i⟩]
  | 7 => [⟨.TM_CH_CFG, i⟩, ⟨.TM_CH_SHA, i⟩, ⟨.TM_CH_SHB, i⟩, ⟨.TM_CH_LINE, i⟩]
  | 8 => ⟨.TM_GRP, i⟩ :: (List.range 16).map fun k => ⟨.TM_GRP_MEM, i * 16 + k⟩
  | _ => []

def ctxValid (sort i : Nat) : RF :=
  match sort with
  | 0 => TM_QPOL_VALID i
  | 1 => FLW_W1_VALID i
  | 2 => RNG_CFG_VALID i
  | 3 => ⟨.KRB_WIN, i * 4 + 2, 14, 1⟩
  | 4 => LM_TBL_CFG_VALID i
  | 5 => SQ_FMD_CTL_COMMITTED i
  | 6 => TM_BND_CFG_VALID i
  | 7 => TM_CH_CFG_VALID i
  | _ => TM_GRP_VALID i

def ctxSrc (sort : Nat) : Nat :=
  match sort with
  | 2 => 6 | 3 => 8 | 4 => 7 | 5 => 4 | _ => 5

/-- The running state of an object starts again from its reset values. -/
def ctxRestart (sort i : Nat) : P Unit :=
  match sort with
  | 0 => do
    queueCut i 0
    rstReg .TM_QOCC i
    rstReg .TM_QSTAT i
    rstReg .TM_QSCH_ST i
  | 1 => do
    rstReg .FLW_W0 i
  | 2 => do
    rstReg .RNG_IDX i
    rstReg .RNG_STATUS i
    rstReg .RNG_PROG i
    putRing i {}
  | 6 => rstReg .TM_BND_ST i
  | 7 => rstReg .TM_CH_ST i
  | _ => pure ()

/-- An object becomes FAULTY: it stands as with VALID 0 until firmware has rewritten its RW words (R358). -/
def ctxFaulty (sort i : Nat) : P Unit := do
  let m ← getM
  if ctxRegs sort i ≠ [] ∧ m.faulty.any (fun f => f.sort = sort && f.idx = i) = false then
    wr INT_FAULTY_SOURCE (ctxSrc sort)
    wr INT_FAULTY_INDEX i
    modFaulty (· ++ [{ sort := sort, idx := i, left := ctxRegs sort i, valid := decide (m.g (ctxValid sort i) = 1) }])
    onlyIf (sort = 0) (queueCut i 0)
    wr (ctxValid sort i) 0
    onlyIf (sort = 3) (wr ⟨.KRB_CWIN, i * 4 + 2, 14, 1⟩ 0)

/-- Firmware has written a register: an object whose every word is rewritten is whole again (R358). -/
def ctxWritten (r : Reg) : P Unit := do
  let m ← getM
  each (m.faulty.filter (fun f => f.left.contains r)) fun f => do
    let left := f.left.filter (· ≠ r)
    modFaulty fun l => l.filter (fun g => ¬(g.sort = f.sort ∧ g.idx = f.idx))
    if left ≠ [] then modFaulty (· ++ [{ f with left := left }])
    else do
      onlyIf (f.valid = true ∧ f.sort ≠ 1 ∧ f.sort ≠ 3 ∧ f.sort ≠ 8) (wr (ctxValid f.sort f.idx) 1)
      ctxRestart f.sort f.idx

/-! Scrubs (R363-R366). -/

/-- The directory key of code word `i` of a Square: set and way of the primary array, then of the mirror array. -/
def rawDir (inst i : Nat) : Nat := dirKey inst (i / 262144 % 2) (i / 16 % 16384) (i % 16)

/-- A scrub marks a word: what the machine holds there is poisoned. A Kiosk data word poisons its
line, a Plaza codeword its place in the packet, a directory entry is replaced by the mark (R356, R362); a word of another
memory shows its mark when it is read. -/
def markPoison (mem inst i : Nat) : P Unit := do
  let m ← getM
  match mem with
  | 0 => putDir (rawDir inst i) { pm := true }
  | 4 => modKline ((inst * 16384 + i / 128) * 16 + i / 8 % 16) fun k => if k.st = 0 then k else { k with poison := true }
  | 9 => do
    let b := inst * 201326592 + i / 4
    let mark (p : Pkt) : Pkt :=
      if p.bobs.contains b then { p with bad := p.bad ++ [4 * p.bobs.findIdx (· = b) + i % 4] } else p
    each m.tq fun e => modTq e.1 fun x => { x with pkts := x.pkts.map mark }
    each m.push fun e => modPush e.1 (·.map mark)
    each m.slot fun e => modSlot e.1 fun x =>
      match x.bobs.find? (fun y => y.2 = b) with
      | some y => { x with bad := x.bad ++ [4 * y.1 + i % 4] }
      | none => x
  | _ => pure ()



/-- Of the run-time repairs, those of the domains that `f` names stand; those of a domain that goes OFF are lost (R365). -/
def repairsKeep (f : Nat → Bool) : P Unit := do
  modRepairs (·.filter f)
  let m ← getM
  wr INT_REPAIR_STATUS_SOFT m.repairs.length

/-- A bobbin is to be retired: at once where it is free, else when it is next freed (R366). -/
def retireAsk (b : Nat) : P Unit := do
  let m ← getM
  onlyIf (m.getRetire b ≠ 2) (if bobIsFree m b then bobRetire b else putRetire b 1)

/-- An uncorrectable word is read (Table 14.1, R357, R358, R361). -/
def wordBad (mem inst i cause sort obj : Nat) : P Unit :=
  match mem with
  | 5 => memFatal mem cause inst noObj
  | 6 => do
    memUncorrectable mem cause inst obj id
    ctxFaulty sort obj
  | 10 => if sort = 0 then do
      memUncorrectable mem cause inst noObj id
      clusterLost (inst % 8)
    else do
      let m ← getM
      each (m.pred.filter (fun e => e.1 / 4096 / 8 = inst)) fun e => onlyIf (e.1 % 4096 = obj % 4096) (putPred e.1 (0, 0))
  | 9 => do
    let b := inst * 201326592 + i / 4
    memPoisoned mem cause inst noObj fun e => e.at (b * 256 + i % 4 * 64)
    markPoison mem inst i
    let m ← getM
    onlyIf (m.g INT_CTL_RETIRE_EN = 1) (do
      retireAsk b
      modScrub fun s => { s with retired := s.retired + 1 })
  | _ => do
    memPoisoned mem cause inst noObj id
    markPoison mem inst i

/-- SCRUB_GO takes effect (R363). -/
def scrubStart : P Unit := do
  let m ← getM
  putScrub { mem := m.g INT_SCRUB_CTL_MEM, inst := m.g INT_SCRUB_CTL_INSTANCE, last := m.g INT_SCRUB_END_INDEX }
  wr INT_SCRUB_STATUS_BUSY 1
  wr INT_SCRUB_STATUS_RESULT 0
  wr INT_SCRUB_STATUS_NEXT (m.g INT_SCRUB_START_INDEX)

/-- A corrected word counts in its row; at ROW_CE the row is repaired, or its bobbin retired (R365, R366). -/
def scrubRow (mem inst i row : Nat) (spare : Bool) : P Unit := do
  let m ← getM
  let k := if mem = 9 then inst * 201326592 + i / 4 else row
  let n := ((m.scrub.rows.find? (fun e => e.1 = k)).map (·.2)).getD 0 + 1
  modScrub fun s => { s with rows := (k, n) :: s.rows.filter (fun e => e.1 ≠ k) }
  if n = m.g INT_CTL_ROW_CE then
    if mem = 9 then onlyIf (m.g INT_CTL_RETIRE_EN = 1) (do
      retireAsk k
      modScrub fun s => { s with retired := s.retired + 1 })
    else if spare then do
      modScrub fun s => { s with spared := s.spared + 1 }
      inc INT_REPAIR_STATUS_SOFT
      modRepairs (memDom mem inst :: ·)
      raise (memEv 0 0x0C87 mem 0 inst row)
    else raise (memEv 2 0x0C88 mem 0 inst row)

/-- SCRUB_WORD: the scrub reads its next code word and writes it back (R363). -/
def scrubWord (w : WordClass) : P Unit := do
  let m ← getM
  let mem := m.scrub.mem
  let inst := m.scrub.inst
  let i := m.g INT_SCRUB_STATUS_NEXT
  if m.g INT_SCRUB_STATUS_BUSY = 1 ∧ i ≤ m.scrub.last ∧ m.scrub.abort = false ∧ domOn m (memDom mem inst) = true
  then
    wr INT_SCRUB_STATUS_NEXT (i + 1)
    modScrub fun s => { s with read := s.read + 1 }
    match w with
    | .good => pure ()
    | .poison => modScrub fun s => { s with seen := s.seen + 1 }
    | .corrected row spare => do
      modScrub fun s => { s with corrected := s.corrected + 1 }
      memCorrected mem inst noObj
      scrubRow mem inst i row spare
    | .bad cause sort obj => do
      modScrub fun s => { s with bad := s.bad + 1 }
      wordBad mem inst i cause sort obj

/-- SCRUB_END: the scrub has covered its range, was aborted, or its domain has left ON (R363, R364). -/
def scrubEnd : P Unit := do
  let m ← getM
  let s := m.scrub
  let off := domOn m (memDom s.mem s.inst) = false
  if m.g INT_SCRUB_STATUS_BUSY = 1 ∧ (off ∨ s.abort = true ∨ s.last < m.g INT_SCRUB_STATUS_NEXT) then
    let c (n : Nat) : Nat := Nat.min n (2 ^ 32 - 1)
    wr INT_SCRUB_STATUS_BUSY 0
    wr INT_SCRUB_STATUS_RESULT (if off then 3 else if s.abort then 2 else 1)
    wrReg .INT_SCRUB_SUM 0 (c s.read + c s.corrected * 2 ^ 32)
    wrReg .INT_SCRUB_SUM 1 (c s.bad + c s.seen * 2 ^ 32)
    wrReg .INT_SCRUB_SUM 2 (c s.spared + c s.retired * 2 ^ 32)
    wrReg .INT_SCRUB_SUM 3 m.time64
    raise (memEv 0 0x0C86 s.mem 0 s.inst (c s.bad))

/-- MERGE_DRAIN: an entry of a merge buffer drains into word `i`; an incomplete one is merged with the word read, whose
class is `w` (R359). What was merged already reads from the merged image, so only errors show. -/
def mergeDrain (mem inst i : Nat) (complete : Bool) (w : WordClass) : P Unit :=
  if complete then pure ()
  else match w with
    | .good => pure ()
    | .corrected _ _ => memCorrected mem inst noObj
    | .poison => do
      memPoisoned mem 3 inst noObj id
      markPoison mem inst i
    | .bad cause _ _ => do
      memPoisoned mem cause inst noObj id
      markPoison mem inst i

/-! Raw test accesses (R367; notes/assumptions/48.md). -/

/-- The line of a Kiosk bank that data word `i` belongs to: words are numbered by set, way and word. -/
def rawLine (inst i : Nat) : Nat := (inst * 16384 + i / 128) * 16 + i / 8 % 16

/-- A raw word of Kiosk data is stored as it is given; PM marks its line (R356, R367). -/
def rawKline (inst i : Nat) (w : Word) (pm : Bool) : P Unit :=
  modKline (rawLine inst i) fun k =>
    if k.st = 0 then k
    else { k with data := k.data.take (i % 8) ++ List.replicate (i % 8 - k.data.length) 0#64 ++ w :: k.data.drop (i % 8 + 1),
                  poison := k.poison || pm }

/-- Where a raw word is kept. -/
def rawKey (m : Mach) : Nat := (m.g INT_TEST_SEL_MEM * 256 + m.g INT_TEST_SEL_INSTANCE) * 2 ^ 48 + m.g INT_TEST_SEL_INDEX

/-- WRITE_RAW. -/
def rawWrite : P Unit := do
  let m ← getM
  let i := m.g INT_TEST_SEL_INDEX
  let mem := m.g INT_TEST_SEL_MEM
  let inst := m.g INT_TEST_SEL_INSTANCE
  let data := (List.range 8).map fun k => m.rd ⟨.INT_TEST_DATA, k⟩
  let mt := if mem = 9 then m.g INT_TEST_META_META else m.g INT_TEST_META_META % 2
  wr INT_TEST_CTL_DONE 0
  putRaw (rawKey m) (data, mt, m.g INT_TEST_CHECK_CHECK)
  onlyIf (mem = 8) (putSram i (data.headD 0#64))
  onlyIf (mem = 4) (rawKline inst i (data.headD 0#64) (decide (mt = 1)))
  onlyIf (mem = 0) (
    let a := (data.getD 0 0#64).toNat
    let b := (data.getD 1 0#64).toNat
    putDir (rawDir inst i) { DirEnt.ofBits (a % 2 ^ 32) (a / 2 ^ 32 + b % 2 ^ 40 * 2 ^ 32) with pm := decide (mt = 1) })

/-- The directory entry that a raw write stored in a word. -/
def rawEntry (r : List Word × Nat × Nat) : DirEnt :=
  let a := (r.1.getD 0 0#64).toNat
  let b := (r.1.getD 1 0#64).toNat
  { DirEnt.ofBits (a % 2 ^ 32) (a / 2 ^ 32 + b % 2 ^ 40 * 2 ^ 32) with pm := decide (r.2.1 = 1) }

/-- The check bits of a directory entry as it stands: those that a raw write stored while the entry is still the one it
stored, and otherwise those of the code (R120, R356). -/
def dirCheckNow (m : Mach) (e : DirEnt) (inst i : Nat) : Nat :=
  let r := m.getRaw (rawKey m)
  if r.1 ≠ [] ∧ sameState (rawEntry r) e = true then r.2.2
  else Config.dirCheck (e.tag + e.bits * 2 ^ 32) e.pm inst (i / 16 % 16384) (i % 16) % 256

/-- READ_RAW. A word that nothing has stored raw, and whose layout the spec does not give, reads as free values; a
directory entry and a word of the SRAM read as they stand. -/
def rawRead : P Unit := do
  let m ← getM
  let i := m.g INT_TEST_SEL_INDEX
  let mem := m.g INT_TEST_SEL_MEM
  let inst := m.g INT_TEST_SEL_INSTANCE
  let r := m.getRaw (rawKey m)
  wr INT_TEST_CTL_DONE 0
  if r.1 ≠ [] then
    each (List.range 8) fun k => wrReg .INT_TEST_DATA k (r.1.getD k 0#64).toNat
    wr INT_TEST_META_META r.2.1
    wr INT_TEST_CHECK_CHECK r.2.2
  else
    each (List.range 8) fun k => do
      let v ← freeBits 64
      wrReg .INT_TEST_DATA k v
    let t ← freeBits (if mem = 9 then 32 else 1)
    wr INT_TEST_META_META t
    let c ← freeBits 32
    wr INT_TEST_CHECK_CHECK c
  onlyIf (mem = 8) (wrReg .INT_TEST_DATA 0 (m.getSram i).toNat)
  let k := m.getKline (rawLine inst i)
  onlyIf (mem = 4 ∧ k.st ≠ 0) (do
    wrReg .INT_TEST_DATA 0 (k.data.getD (i % 8) 0#64).toNat
    onlyIf (k.poison = false) (wr INT_TEST_META_META 0))
  onlyIf (mem = 0) (do
    let e := m.getDir (rawDir inst i)
    wrReg .INT_TEST_DATA 0 (e.tag % 2 ^ 32 + e.bits % 2 ^ 32 * 2 ^ 32)
    wrReg .INT_TEST_DATA 1 (e.bits / 2 ^ 32)
    wr INT_TEST_META_META (if e.pm then 1 else 0)
    wr INT_TEST_CHECK_CHECK (dirCheckNow m e inst i))

/-- RAW_ACCESS_DONE. -/
def rawDone : P Unit := wr INT_TEST_CTL_DONE 1

/-! The firmware event queue (R370). -/

/-- EN becomes 1: the held records are written, in order. -/
def evqEnable : P Unit := do
  let m ← getM
  putHold []
  each m.hold evqPut

/-- EVQ_IRQ_TIMEOUT: IRQ_US after the first waiting record. -/
def evqIrqTimeout : P Unit := do
  let m ← getM
  onlyIf (0 < idxDiff (m.g INT_EVQ_IDX_PROD) (m.g INT_EVQ_IDX_CONS)) (emit .mgmtIrq)

/-- POISON_COMMAND: Get Poison List, Inject Poison or Clear Poison completes as unsupported, CXL return code 3 (R372). -/
def poisonCommand (v op : Nat) : P Unit := emit (.mgmt 4 3 [v, op])

/-! Registers (R363, R366, R367, R370, R374). -/

/-- The rules of a live write to an INT register; `own` says that the write comes from firmware or the BMC. -/
def intRule (m : Mach) (k : RegKind) (_i _old new _mask : Nat) (own : Bool) : Nat :=
  match k with
  | .INT_SCRUB_CTL =>
    let mem := bitsAt new 2 4
    let inst := bitsAt new 8 8
    if 10 < mem then rcINT_LIMIT
    else if bitsAt new 0 1 = 1 then
      if m.g INT_SCRUB_STATUS_BUSY = 1 then rcINT_BUSY
      else if mem = 1 ∨ mem = 3 ∨ mem = 7 ∨ memHas mem inst (m.g INT_SCRUB_START_INDEX) = false ∨
          memHas mem inst (m.g INT_SCRUB_END_INDEX) = false then rcINT_LIMIT else rcOK
    else rcOK
  | .INT_EVQ_IDX =>
    if idxDiff (m.g INT_EVQ_IDX_PROD) (m.g INT_EVQ_IDX_CONS) < idxDiff (bitsAt new 32 32) (m.g INT_EVQ_IDX_CONS) then rcINT_LIMIT
    else rcOK
  | .INT_TEST_CTL | .INT_TEST_SEL | .INT_TEST_META | .INT_TEST_CHECK | .INT_TEST_DATA =>
    if own = false ∨ (k = .INT_TEST_SEL ∧ 10 < bitsAt new 0 4) then rcINT_LIMIT
    else if k = .INT_TEST_CTL ∧ bitsAt new 0 2 ≠ 0 ∧ m.g INT_TEST_CTL_DONE = 0 then rcINT_BUSY else rcOK
  | .INT_RETIRE_ADD => if 402653184 ≤ bitsAt new 0 29 then rcINT_LIMIT else rcOK
  | _ => rcOK

/-- The effect of an accepted write to an INT register; `cmd` holds the bits written. -/
def intEffect (k : RegKind) (_i old cmd : Nat) : P Unit := do
  let m ← getM
  match k with
  | .INT_CTL => onlyIf (bitsAt cmd 0 1 = 1) (do
      each (List.range 16) fun i => do
        rstReg .INT_CNT_CE i
        rstReg .INT_CNT_POISON i
        rstReg .INT_CNT_UE i
        rstReg .INT_CNT_PIN i
      rstReg .INT_EVQ_CNT 0)
  | .INT_SCRUB_CTL => do
    onlyIf (bitsAt cmd 0 1 = 1) scrubStart
    onlyIf (bitsAt cmd 1 1 = 1 ∧ m.g INT_SCRUB_STATUS_BUSY = 1) (modScrub fun s => { s with abort := true })
  | .INT_TEST_CTL => do
    onlyIf (bitsAt cmd 0 1 = 1) rawWrite
    onlyIf (bitsAt cmd 1 1 = 1 ∧ bitsAt cmd 0 1 = 0) rawRead
  | .INT_RETIRE_ADD => retireAsk (bitsAt cmd 0 29)
  | .INT_EVQ_BASE => onlyIf (bitsAt old 63 1 = 0 ∧ m.g INT_EVQ_BASE_EN = 1) evqEnable
  | _ => pure ()

end Sys2Proof.Machine
end

