-- ==== Sys2Proof/Machine/Power.lean ====
section
/-!
DEFINITION. Power domains and clocks (15_power_domains_clocks.md) and the AVS rail (R439): requests, wakes, drains,
losses, the sequencer's own orders at APPLYING and DISABLING (R34, R38), temperature and the AO regulator.
-/
namespace Sys2Proof.Machine

/-! Domain states (Table 15.1). -/

abbrev dsOFF : Nat := 0
abbrev dsRET : Nat := 1
abbrev dsON : Nat := 2
abbrev dsWAKING : Nat := 3
abbrev dsDRAINING : Nat := 4
abbrev dsSTOPPING : Nat := 5
abbrev dsFAILED : Nat := 6

/-- Causes of a failure beyond the wake steps 1-4 (R394). -/
abbrev dcDEPENDENCY : Nat := 5
abbrev dcLOST_READY : Nat := 6
abbrev dcREFCLK : Nat := 7
abbrev dcSEQUENCER : Nat := 8

/-- The state of a domain. -/
def domSt (m : Mach) (d : Nat) : Nat := m.g (PWR_DOM_STATUS_STATE d)

/-- Every domain but AO. -/
def domains : List Nat := (List.range 86).map (· + 1)

/-- The XB domains. -/
def xbDomains : List Nat := [3, 4, 5, 6]

/-- The domains that Table 1.7 requires, all of them. -/
def needsAll (d : Nat) : List Nat :=
  if d = 0 then [] else if d ≤ 2 then [0]
  else if d = 77 then [75, 76]
  else if 78 ≤ d ∧ d ≤ 85 then [71, 72, 73, 74]
  else [2]

/-- Whether Table 1.7 requires at least one XB domain. -/
def needsXb (d : Nat) : Bool := (7 ≤ d && d ≤ 74) || d = 77 || d = 86

/-- Whether the domains that a domain requires satisfy `p`. -/
def needsMet (p : Nat → Bool) (d : Nat) : Bool := (needsAll d).all p && (!needsXb d || xbDomains.any p)

/-- The requirements of a domain are ON; those of one that stays on while they drain are ON or DRAINING. -/
def reqMet (m : Mach) (d : Nat) : Bool := needsMet (fun e => domSt m e = dsON) d
def reqKept (m : Mach) (d : Nat) : Bool := needsMet (fun e => domSt m e = dsON || domSt m e = dsDRAINING) d

/-- The level of a domain's state in the order OFF < RET < ON (R377; notes/assumptions/49.md). -/
def domLevel (m : Mach) (d : Nat) : Nat :=
  match domSt m d with
  | 1 => 1
  | 2 | 3 | 4 => 2
  | 5 => m.getDtgt d
  | _ => 0

/-- Whether lowering domain `d` to `req` leaves a domain that requires it above (R377). -/
def lowerBlocked (m : Mach) (d req : Nat) : Bool :=
  domains.any fun e => req < domLevel m e &&
    ((needsAll e).contains d ||
      (needsXb e && xbDomains.contains d && !(xbDomains.any fun x => x ≠ d && domLevel m e ≤ domLevel m x)))

/-- The transfers that hold a domain's drain (Table 15.4). -/
def drainNow (m : Mach) (d : Nat) : Nat :=
  if d < 3 then 0
  else if d < 7 then
    m.stg.foldl (fun a e => a + (e.2.filter (fun s => s.plane = d - 3)).foldl (fun b s => b + (s.cells - s.linked)) 0) 0
  else if d < 39 then
    let o := d - 7
    m.xin.foldl (fun a e => a + if e.1 / 8 / 4 = o then e.2.length else 0) 0 +
      (m.crn.filter (fun e => e.1 / 2 ^ 46 / 4 = o && e.2.st ≠ 0)).length
  else if d < 71 then
    let n := d - 39
    (openTrks m n).length + (m.getSqx n).ledger.length + specOut m n
  else if d < 75 then (m.getKmiss (d - 71)).length
  else if d = 77 then
    (m.push.filter (fun e => e.2 ≠ [])).length + (m.slot.filter (fun e => e.2.st = 1 || e.2.st = 2)).length
  else if 78 ≤ d ∧ d < 86 then
    clBusy m (d - 78) + m.ring.foldl (fun a e => a + (e.2.held.filter (fun r => r.cluster = d - 78)).length) 0
  else 0

/-! What the contents of a domain become. -/

/-- The ports of an octet. -/
def octPorts (m : Mach) (o : Nat) : List Nat := (List.range 128).filter fun p => (portOcts m p).contains o

/-- Messages queued for an internal endpoint go back as R388 states. -/
def epFlush (ep : Nat) : P Unit := each (List.range 8) fun c => do
  let m ← getM
  each (m.getXq (ep * 8 + c)) fun q => do
    popQueue ep c q
    discard q.msg

/-- A Square loses its arrays and its work (R389). -/
def squareLost (n : Nat) : P Unit := do
  let m ← getM
  each (m.dir.filter (fun e => e.1 / 16 / 16384 / 2 = n)) fun e => putDir e.1 {}
  each (m.trk.filter (fun e => e.1 / 8192 = n)) fun e => putTrk e.1 {}
  each (m.specT.filter (fun e => e.1 / 2 ^ 32 = n)) fun e => putSpecT e.1 0
  each (m.memT.filter (fun e => e.1 / 2 ^ 32 = n)) fun e => putMemT e.1 0
  each (m.mru.filter (fun e => e.1 / 16384 / 2 = n)) fun e => putMru e.1 16
  modBic (·.filter (fun q => homeSq q.addr ≠ n))
  each (m.mtt.filter (fun e => e.1 / 2 ^ 46 = n)) fun e => putMtt e.1 {}
  putSqx n {}
  putSqin n []

/-- The traffic manager and the Plaza lose their work; the running state starts again from reset values (R384, R389). -/
def tmLost (count : Bool) : P Unit := do
  let m ← getM
  onlyIf (count = true) (addSat (TM_CNT_COUNT tmDROP_FLUSH)
    (m.tq.foldl (fun a e => a + e.2.pkts.length + e.2.spill.length) 0 + (m.push.filter (fun e => e.2 ≠ [])).length))
  clearTq
  clearPush
  clearSlot
  clearSrx
  clearAct
  clearBuck
  clearLane
  putBmove []
  putPfree {}
  putSfree {}
  clearWire
  clearGopen
  each (List.range 256) fun s => do
    wr (TM_SRING_STATUS_RETURNED s) 0
    onlyIf (count = false) (wr (TM_SRING_CTL_ENABLE s) 0)
  each m.regs fun e => onlyIf (e.1.k ∈ [RegKind.TM_QOCC, .TM_QSTAT, .TM_QSCH_ST, .TM_BND_ST, .TM_CH_ST, .TM_PORT_ST,
    .TM_CHAN_EGR1, .TM_RXB1]) (rstReg e.1.k e.1.i)
  rstReg .TM_SPILL_STATUS 0
  wr TM_STATUS_SHARED_FREE 0

/-- When TM wakes from OFF the free list holds every bobbin not retired, the leaked ones among them (R357, R384, R389), and
those that were to be retired once freed are retired (R366); the shared pool is what neither the slot rings nor the queues
reserve (R183). -/
def tmFree : P Unit := do
  let m ← getM
  wr TM_STATUS_SHARED_FREE
    (402653184 - m.g TM_CARVE_SLOT_RINGS * 262144 - m.g TM_CARVE_RESERVE - m.g INT_RETIRE_STATUS_COUNT)
  wr INT_LEAKED_BOBBINS 0
  each m.retire fun e => onlyIf (e.2 = 1) (bobRetire e.1)

/-- This twin fences where a domain of R339, or MGMT by R376, leaves ON while PAIRED is 1 (notes/assumptions/176.md). -/
def fenceFor (d : Nat) : P Unit := do
  let m ← getM
  onlyIf ((d = 1 ∨ d = 2 ∨ (39 ≤ d ∧ d < 71) ∨ d = dSPN) ∧ m.g TWN_CFG_PAIRED = 1) (fence 4)

/-- The lock shown of the PLL that a domain runs on: MGMT's, CORE's, an octet's (R378). -/
def pllShow (d v : Nat) : P Unit :=
  if d = 1 then wr PWR_CLK_STATUS_MGMT_PLL_LOCK v
  else if d = 2 then wr PWR_CLK_STATUS_CORE_PLL_LOCK v
  else onlyIf (7 ≤ d ∧ d < 39) (wr (OCT_STATUS_PLL_LOCK (d - 7)) v)

/-- A domain has left ON: by a loss, or into STOPPING (`lost` false). -/
def leaveOn (d : Nat) (lost : Bool) : P Unit := do
  fenceFor d
  pllShow d 0
  if d = 1 then pure ()
  else if d = 2 then do
    let m ← getM
    onlyIf (m.hold ≠ []) (putEvLost true)
    putHold []
  else if d < 7 then (if lost then planeDomainLost (d - 3) else planeStop (d - 3))
  else if d < 39 then do
    let m ← getM
    each (octPorts m (d - 7)) portOff
  else if d < 71 then do
    epFlush (epSq (d - 39))
    onlyIf (lost = true) (squareLost (d - 39))
  else if d < 75 then do
    epFlush (epKsk (d - 71))
    onlyIf (lost = true) (do
      kskGone (d - 71) kbLOST
      bankAccLost (d - 71)
      kioskLost (d - 71))
  else if d = 77 then do
    epFlush epTM
    onlyIf (lost = true) (tmLost false)
  else if 78 ≤ d ∧ d < 86 then do
    clusterLost (d - 78)
    onlyIf (lost = true) (predClear (d - 78))
  else onlyIf (d = dSPN) (do
    spnOff
    wr TWN_SPN_STATUS_PARTNER_GONE 0
    witness)

/-- A domain is OFF: what its memories held is lost. -/
def domOff (d : Nat) : P Unit := do
  repairsKeep (fun x => x != d)
  if 39 ≤ d ∧ d < 71 then squareLost (d - 39)
  else if 71 ≤ d ∧ d < 75 then kskGone (d - 71) kbOFF
  else if d = 77 then tmLost true
  else if 78 ≤ d ∧ d < 86 then do
    predClear (d - 78)
    wr (clState (d - 78)) clOFF
  else if 3 ≤ d ∧ d < 7 then planeOff (d - 3)
  else pure ()

/-- A domain has reached ON. -/
def domUp (d : Nat) (fromOff : Bool) : P Unit := do
  if d = 1 then onlyIf (fromOff = true) clearSram
  else if d = 2 then pure ()
  else if d < 7 then planeDomainOn (d - 3)
  else if d < 39 then do
    let m ← getM
    each (octPorts m (d - 7)) portKick
  else if 71 ≤ d ∧ d < 75 then kskOn (d - 71)
  else if d = 77 then onlyIf (fromOff = true) tmFree
  else if 78 ≤ d ∧ d < 86 then clusterOn (d - 78)
  else onlyIf (d = dSPN) spnKick

/-! Failures (R381, R383). -/

/-- A power event about a domain (R393). -/
def pwrEv (sev code d : Nat) : EvRec := (ev 0x0A sev code).b24 d

/-- A self-test on domain `d` runs (R431). -/
def testing (m : Mach) (d : Nat) : Bool := m.g TST_STATUS_STATE = 1 && m.tst.dom = d

/-- The self-test ends: 1 PASS, 2 FAIL, 3 ABORTED (R431). -/
def testEnd (result : Nat) : P Unit := do
  let m ← getM
  wr TST_STATUS_STATE 2
  wr TST_STATUS_RESULT result
  raise (((ev 0x10 0 0x0189).b24 m.tst.dom).b25 result)

/-- Domain `d` becomes FAILED. -/
def domFailOne (d cause : Nat) : P Unit := do
  let m ← getM
  let st := domSt m d
  wr (PWR_DOM_STATUS_STATE d) dsFAILED
  wr (PWR_DOM_STATUS_STEP d) 0
  wr (PWR_DOM_STATUS_PENDING_ENABLE d) 0
  wr (PWR_DOM_STATUS_DRAIN_COUNT d) 0
  wr (PWR_DOM_STATUS_CAUSE d) cause
  putDwait d false
  pllShow d 0
  onlyIf (st = dsON ∨ st = dsDRAINING) (leaveOn d true)
  raise ((pwrEv 2 0x0A81 d).b25 cause)
  onlyIf (testing m d = true) (testEnd 3)

/-- Domains whose requirement is no longer met fail with cause DEPENDENCY, until none is left. -/
def depFail : Nat → P Unit
  | 0 => pure ()
  | f + 1 => do
    let m ← getM
    let l := domains.filter fun d => domSt m d ∈ [dsON, dsDRAINING, dsWAKING] && !reqKept m d
    each l fun d => domFailOne d dcDEPENDENCY
    if l = [] then pure () else depFail f

/-- Domain `d` fails, and every domain that required it. -/
def domFail (d cause : Nat) : P Unit := do
  domFailOne d cause
  depFail 8

/-! Wakes (R380-R382). -/

/-- Wakes that wait for their first step start it, lowest number first, while fewer than 8 domains are in step 1. -/
def wakeNext : Nat → P Unit
  | 0 => pure ()
  | f + 1 => do
    let m ← getM
    let busy := (domains.filter fun d => domSt m d = dsWAKING && m.g (PWR_DOM_STATUS_STEP d) = 1 && !m.getDwait d).length
    match domains.find? (fun d => domSt m d = dsWAKING && m.g (PWR_DOM_STATUS_STEP d) = 0) with
    | some d =>
      if busy < 8 then do
        wr (PWR_DOM_STATUS_STEP d) 1
        wakeNext f
      else pure ()
    | none => pure ()

/-- A wake starts. DTGT keeps whether it starts from RET. -/
def wakeStart (d : Nat) : P Unit := do
  let m ← getM
  putDtgt d (if domSt m d = dsRET then 1 else 0)
  wr (PWR_DOM_STATUS_STATE d) dsWAKING
  wr (PWR_DOM_STATUS_STEP d) 0
  wr (PWR_DOM_STATUS_RETRIES d) 0
  wr (PWR_DOM_STATUS_PENDING_ENABLE d) 0
  putDwait d false
  wakeNext 8

/-! Drains (R385-R387). -/

/-- Domain `d` enters DRAINING toward `tgt`: it has left ON, so an octet's ports are OFF (R47, Table 3.3) and a plane
drains. -/
def drainStart (d tgt : Nat) : P Unit := do
  let m ← getM
  putDtgt d tgt
  wr (PWR_DOM_STATUS_STATE d) dsDRAINING
  wr (PWR_DOM_STATUS_DRAIN_COUNT d) (drainNow m d)
  onlyIf (3 ≤ d ∧ d < 7) (planePowerDown (d - 3))
  onlyIf (7 ≤ d ∧ d < 39) (each (octPorts m (d - 7)) portOff)

/-! The sequencer's own orders (R34, R38). -/

/-- The default state of a domain, and its ALLOW_RET, by its last DOMAIN_DEFAULT item. -/
def domDefault (m : Mach) (d : Nat) : Nat :=
  ((m.domDef.reverse.find? (fun e => e.1 = d)).map (fun e => e.2.1)).getD (if d < 3 then 2 else 0)

/-- Domains are raised in the order of Table 2.4: one whose requirement is met is woken, one whose requirement can still
be met waits with those after it, and one whose requirement cannot is FAILED. The answer says that the order is done. -/
def applyFrom : List Nat → P Bool
  | [] => return true
  | d :: r => do
    let m ← getM
    let st := domSt m d
    if domDefault m d = 0 ∨ d < 3 ∨ (st ≠ dsOFF ∧ st ≠ dsRET) ∨ (st = dsRET ∧ domDefault m d = 1) then applyFrom r
    else if reqMet m d then do
      wr (PWR_DOM_CTL_REQ d) 2
      wakeStart d
      applyFrom r
    else if needsMet (fun e => domSt m e = dsON || domSt m e = dsWAKING) d then return false
    else do
      domFail d dcDEPENDENCY
      applyFrom r

/-- The sequencer at APPLYING: once the whole order has been raised, domains defaulted RET are lowered through the
drain. -/
def applyAdvance : P Unit := do
  let ok ← applyFrom domains
  let m ← getM
  onlyIf (ok = true ∧ domains.all (fun d => domSt m d ≠ dsWAKING) = true)
    (each (domains.filter (fun d => domDefault m d = 1 && domSt m d = dsON && 3 ≤ d)) fun d => do
      wr (PWR_DOM_CTL_REQ d) 1
      drainStart d dsRET)

/-- Whether every defaulted domain has reached its default state or is FAILED. -/
def applyReached (m : Mach) : Bool := domains.all fun d =>
  d < 3 || domDefault m d = 0 || domSt m d = dsFAILED || domSt m d = domDefault m d

/-- The sequencer while DISABLING lowers every domain other than AO, MGMT and CORE to OFF, in the reverse of the order of
Table 2.4: a domain goes once no domain that requires it is left. -/
def disableFrom : List Nat → P Unit
  | [] => pure ()
  | d :: r => do
    let m ← getM
    let st := domSt m d
    if lowerBlocked m d 0 then pure ()
    else do
      onlyIf (st ≠ dsOFF) (wr (PWR_DOM_CTL_REQ d) 0)
      if st = dsON then drainStart d dsOFF
      else if st = dsRET then do
        putDtgt d dsOFF
        wr (PWR_DOM_STATUS_STATE d) dsSTOPPING
      else if st = dsFAILED then do
        wr (PWR_DOM_STATUS_STATE d) dsOFF
        domOff d
      else onlyIf (st = dsSTOPPING ∨ st = dsDRAINING) (putDtgt d dsOFF)
      disableFrom r

def disableAdvance : P Unit := disableFrom ((List.range 84).map (fun i => 86 - i))

/-- Whether every domain other than AO, MGMT and CORE is OFF. -/
def disableReached (m : Mach) : Bool := domains.all fun d => d < 3 || domSt m d = dsOFF

/-- A held ON request starts its wake once the domain is OFF or RET and its requirement is met (R21, R387): one whose
requirement has meanwhile been lowered keeps PENDING_ENABLE (DEDUCED, log entry 129). -/
def pendingWake : P Unit := do
  let m ← getM
  each (domains.filter fun d => m.g (PWR_DOM_STATUS_PENDING_ENABLE d) = 1 && (domSt m d = dsOFF || domSt m d = dsRET) && reqMet m d)
    wakeStart

/-- A domain has changed: the sequencer goes on with what it does. -/
def seqAdvance : P Unit := do
  pendingWake
  let m ← getM
  wakeNext 8
  if m.g GLB_STRUCT_STATUS_STATE = stAPPLYING then applyAdvance
  else onlyIf (m.g GLB_STRUCT_STATUS_STATE = stDISABLING) disableAdvance

/-! Sequencer events. -/

/-- WAKE_STEP_READY (R380, R381). -/
def wakeStepReady (d : Nat) : P Unit := do
  let m ← getM
  let s := m.g (PWR_DOM_STATUS_STEP d)
  if domSt m d = dsWAKING ∧ s ≠ 0 ∧ m.getDwait d = false then
    onlyIf (s = 2) (pllShow d 1)
    if s < 4 then wr (PWR_DOM_STATUS_STEP d) (s + 1)
    else if reqMet m d = false then domFail d dcDEPENDENCY
    else do
      wr (PWR_DOM_STATUS_STEP d) 0
      wr (PWR_DOM_STATUS_STATE d) dsON
      inc (PWR_DOM_STATUS_WAKES d)
      domUp d (m.getDtgt d = 0)
    seqAdvance

/-- WAKE_STEP_TIMEOUT (R381). -/
def wakeStepTimeout (d : Nat) : P Unit := do
  let m ← getM
  let s := m.g (PWR_DOM_STATUS_STEP d)
  if domSt m d = dsWAKING ∧ s ≠ 0 ∧ m.getDwait d = false then
    let n := m.g (PWR_DOM_STATUS_RETRIES d)
    if n < 3 then do
      wr (PWR_DOM_STATUS_RETRIES d) (n + 1)
      wr (PWR_DOM_STATUS_CAUSE d) s
      putDwait d true
      raise ((pwrEv 0 0x0A82 d).b25 s)
    else domFail d s
    seqAdvance

/-- WAKE_RETRY_WAIT_END (R381). A step 1 keeps to the limit of R382. -/
def wakeRetryWaitEnd (d : Nat) : P Unit := do
  let m ← getM
  if domSt m d = dsWAKING ∧ m.getDwait d = true then
    putDwait d false
    onlyIf (m.g (PWR_DOM_STATUS_STEP d) = 1) (wr (PWR_DOM_STATUS_STEP d) 0)
    seqAdvance

/-- SEQUENCER_WATCHDOG (R381). -/
def sequencerWatchdog (d : Nat) : P Unit := do
  let m ← getM
  onlyIf (domSt m d = dsWAKING) (do
    domFail d dcSEQUENCER
    seqAdvance)

/-- DRAIN_COMPLETE: the drain count is 0 and the domain enters STOPPING (R385). -/
def drainComplete (d : Nat) : P Unit := do
  let m ← getM
  if domSt m d = dsDRAINING ∧ drainNow m d = 0 then
    wr (PWR_DOM_STATUS_DRAIN_COUNT d) 0
    wr (PWR_DOM_STATUS_STATE d) dsSTOPPING
    leaveOn d false

/-- STOPPING_DONE: the domain is OFF or RET, and a pending wake starts (R385, R387). -/
def stoppingDone (d : Nat) : P Unit := do
  let m ← getM
  if domSt m d = dsSTOPPING then
    let t := m.getDtgt d
    wr (PWR_DOM_STATUS_STATE d) (if t = 1 then dsRET else dsOFF)
    onlyIf (t ≠ 1) (domOff d)
    seqAdvance

/-- DRAIN_TIMEOUT: the domain returns to ON (R386). -/
def drainTimeout (d : Nat) : P Unit := do
  let m ← getM
  let n := drainNow m d
  if domSt m d = dsDRAINING ∧ n ≠ 0 then
    wr (PWR_DOM_CTL_REQ d) 2
    wr (PWR_DOM_STATUS_STATE d) dsON
    wr (PWR_DOM_STATUS_DRAIN_COUNT d) 0
    wr (PWR_DOM_STATUS_PENDING_ENABLE d) 0
    onlyIf (3 ≤ d ∧ d < 7) (do
      putXdown (d - 3) false
      onlyIf (m.g (planeState (d - 3)) = plDRAINING) (planeTo (d - 3) plSERVICE))
    onlyIf (7 ≤ d ∧ d < 39) (each (octPorts m (d - 7)) portKick)
    raise ((pwrEv 0 0x0A83 d).w28 n)
    seqAdvance

/-- LOST_READY: a rail below 90 % or a PLL unlocked (R383). -/
def lostReady (d : Nat) : P Unit := do
  let m ← getM
  onlyIf (d ≠ 0 ∧ (domSt m d = dsON ∨ domSt m d = dsDRAINING)) (do
    domFail d dcLOST_READY
    seqAdvance)

/-! Clocks and temperature (R379, R391, R392). -/

/-- Every domain but AO is switched off without a drain, at once. -/
def allDown (st cause : Nat) : P Unit := do
  let m ← getM
  each domains.reverse fun d => do
    let s := domSt m d
    onlyIf (s ≠ dsOFF ∧ ¬(s = dsRET ∧ st = dsFAILED)) (do
      wr (PWR_DOM_STATUS_STATE d) st
      wr (PWR_DOM_STATUS_STEP d) 0
      wr (PWR_DOM_STATUS_PENDING_ENABLE d) 0
      wr (PWR_DOM_STATUS_DRAIN_COUNT d) 0
      onlyIf (cause ≠ 0) (wr (PWR_DOM_STATUS_CAUSE d) cause)
      putDwait d false
      pllShow d 0
      onlyIf (s = dsON ∨ s = dsDRAINING) (leaveOn d true)
      onlyIf (st = dsOFF) (domOff d)
      onlyIf (testing m d = true) (testEnd 3))

/-- REFCLK_LOSS: AO runs from the oscillator, every PLL-clocked domain fails, and the event waits in AO (R22, R379). -/
def refclkLoss : P Unit := do
  let m ← getM
  if m.g PWR_CLK_STATUS_REFCLK_OK = 1 then
    let e : EvRec := { pwrEv 3 0x0A87 0 with time := m.time64 }
    wr PWR_CLK_STATUS_REFCLK_OK 0
    wr PWR_CLK_STATUS_LFO_ACTIVE 1
    tbClock true
    whlNoClock
    allDown dsFAILED dcREFCLK
    fence 3
    modAoLatch (· ++ [e])

/-- The throttle point (R391). -/
def throttlePoint (m : Mach) : Int := Int.ofNat (Nat.min (m.g PWR_THERM_CTL_SOFT_C) 110)

/-- The temperature shown. -/
def tempNow (m : Mach) : Int := toSigned 8 (m.g PWR_THERM_STATUS_TEMP)

/-- A trip (R392): every domain except AO is off, and the event waits in AO. -/
def thermTrip : P Unit := do
  let m ← getM
  let t := m.g PWR_THERM_STATUS_TEMP
  let e : EvRec := { (pwrEv 3 0x0A86 0).b25 t with time := m.time64 }
  fence 3
  allDown dsOFF 0
  wr PWR_THERM_STATUS_TRIP 1
  wr PWR_THERM_STATUS_TRIP_TEMP t
  modTherm fun x => { x with cool := 0 }
  modAoLatch (· ++ [e])

/-- The hottest reading of a sample and the lowest-numbered sensor with it. -/
def hottest (temps : List Int) : Int × Nat :=
  temps.zipIdx.foldl (fun a x => if a.1 < x.1 then x else a) (temps.headD 0, 0)

/-- The sensor that a sample names (R391): `sensor`, where it is one of those with the hottest reading
(notes/assumptions/177.md). -/
def sensorOf (temps : List Int) (sensor : Nat) : Nat :=
  if temps[sensor]? = some (hottest temps).1 then sensor else (hottest temps).2

/-- The sensors of a sample that read 120 °C or more. -/
def hotSensors (temps : List Int) : List Nat := (temps.zipIdx.filter (fun x => 120 ≤ x.1)).map (·.2)

/-- A sample of the sensors, in sensor order: the hottest is shown, as `sensor` where several are; a sensor at 120 °C in two
samples in a row trips the part. The answer says that a trip ends: every sensor below 105 °C in 100 samples in a row (R391, R392). -/
def thermalSample (temps : List Int) (sensor : Nat) : P Bool := do
  let m ← getM
  wr PWR_THERM_STATUS_TEMP (ofSigned 8 (hottest temps).1)
  wr PWR_THERM_STATUS_SENSOR (sensorOf temps sensor)
  let hot := hotSensors temps
  if m.g PWR_THERM_STATUS_TRIP = 1 then do
    let n := if (hottest temps).1 < 105 then m.therm.cool + 1 else 0
    modTherm fun x => { x with hot := hot, cool := n }
    return decide (100 ≤ n)
  else do
    modTherm fun x => { x with hot := hot }
    onlyIf (hot.any (fun s => m.therm.hot.contains s) = true) thermTrip
    return false

/-- THROTTLE_STEP: 100 us at or above the throttle point, or 1 ms at least 3 °C below it (R391). -/
def throttleStep : P Unit := do
  let m ← getM
  let l := m.g PWR_THERM_STATUS_LEVEL
  if throttlePoint m ≤ tempNow m then do
    wr PWR_THERM_STATUS_LEVEL (Nat.min 15 (l + 1))
    onlyIf (l = 0) (raise ((pwrEv 0 0x0A85 0).b25 (m.g PWR_THERM_STATUS_TEMP)))
  else onlyIf (tempNow m ≤ throttlePoint m - 3) (wr PWR_THERM_STATUS_LEVEL (l - 1))

/-- LDO_SOFT_BROWNOUT (R390). -/
def ldoSoft : P Unit := do
  let m ← getM
  onlyIf (m.g PWR_AO_LDO_MODE = 1) (do
    wr PWR_AO_LDO_MODE 0
    wr PWR_AO_LDO_LP_FORCED 1
    raise (pwrEv 0 0x0A84 0))

/-! The AVS rail (R439). -/

/-- FUSED + MARGIN. -/
def avsTarget (m : Mach) : Nat := ((m.g PWR_AVS_FUSED : Int) + toSigned 8 (m.g PWR_AVS_MARGIN)).toNat

/-- An AVSBus write starts, or waits for the one that runs. -/
def avsStart : P Unit := do
  let m ← getM
  if m.avs.mv.isSome then modAvs fun a => { a with again := true }
  else do
    putAvs { mv := some (avsTarget m) }
    emit (.avs (avsTarget m))

/-- The write that ran has ended; one that waits starts. -/
def avsEnd : P Unit := do
  let m ← getM
  let again := m.avs.again
  putAvs {}
  onlyIf (again = true) avsStart

/-- AVS_WRITE_ACK. -/
def avsAck : P Unit := do
  let m ← getM
  match m.avs.mv with
  | some v => do
    wr PWR_AVS_TARGET v
    avsEnd
  | none => pure ()

/-- AVS_WRITE_TIMEOUT: 100 us without an answer. -/
def avsTimeout : P Unit := do
  let m ← getM
  match m.avs.mv with
  | some v =>
    if m.avs.tries < 3 then do
      modAvs fun a => { a with tries := a.tries + 1 }
      emit (.avs v)
    else do
      wr PWR_AVS_FAULT 1
      raise ((ev 0x0A 2 0x0A88).w28 (v % 65536))
      avsEnd
  | none => pure ()

/-! Registers (R377, R390, R394, R439). -/

/-- The condition of Table 15.4 that refuses lowering a domain. -/
def lowerRefused (m : Mach) (d : Nat) : Bool :=
  if d < 7 then false
  else if d < 39 then
    (octPorts m (d - 7)).any fun p =>
      let st := m.g (OCT_PORT_STATUS_STATE p)
      st ≠ psOFF && st ≠ psDISABLED
  else if d < 71 then (List.range 16).any fun c => m.g (SQ_CD_CFG_VALID c) = 1
  else if d < 75 then m.g (kskState (d - 71)) ≠ kbTEST && m.g (kskState (d - 71)) ≠ kbOFF
  else if d < 77 then domSt m dTM = dsON
  else if d = 77 then
    (List.range 256).any (fun s => m.g (TM_SRING_CTL_ENABLE s) = 1) ||
      (List.range 512).any (fun c => m.g (TM_CH_CFG_VALID c) = 1 && m.g (TM_CH_CFG_PAUSE c) = 0)
  else if d < 86 then m.g (clState (d - 78)) ≠ clTEST && m.g (clState (d - 78)) ≠ clLOST
  else m.g TWN_SPN_STATUS_STATE ≠ spDOWN

/-- R97 for a power-down of an XB domain. -/
def lastPlane (m : Mach) (d : Nat) : Bool :=
  xbDomains.contains d && (planesUp m).filter (· ≠ d - 3) = [] &&
    domains.any fun e => needsXb e && domSt m e = dsON

/-- The rules of a REQ write (R97, R377, R431). Where both a condition of R377 on the domains that require this one and R97
refuse it, PWR_LIMIT is the code: the spec gives no order, and this one is the model's choice (log entry 130). -/
def reqRule (m : Mach) (d req allow : Nat) : Nat :=
  let st := domSt m d
  if d < 3 then rcPWR_LIMIT
  else if testing m d ∧ req < 2 then rcPWR_BUSY
  else if req = st ∨ (req = dsON ∧ st = dsWAKING) then rcOK
  else if st = dsWAKING ∨ (st = dsFAILED ∧ req ≠ dsOFF) then rcPWR_BUSY
  else if st = dsFAILED then rcOK
  else if req = dsON then (if reqMet m d then rcOK else rcPWR_LIMIT)
  else if req = dsRET ∧ (allow = 0 ∨ st = dsOFF ∨ needsMet (fun e => domSt m e ≠ dsOFF) d = false) then rcPWR_LIMIT
  else if lowerBlocked m d req then rcPWR_LIMIT
  else if lastPlane m d then rcXB_LIMIT
  else if lowerRefused m d then rcPWR_LIMIT
  else rcOK

/-- The effect of an accepted REQ write (R385-R387). -/
def reqEffect (d req : Nat) : P Unit := do
  let m ← getM
  let st := domSt m d
  if st = dsON then onlyIf (req < 2) (drainStart d req)
  else if st = dsOFF ∨ st = dsRET then
    if req = dsON then wakeStart d
    else do
      wr (PWR_DOM_STATUS_PENDING_ENABLE d) 0
      onlyIf (req < st) (do
        putDtgt d req
        wr (PWR_DOM_STATUS_STATE d) dsSTOPPING)
  else if st = dsDRAINING ∨ st = dsSTOPPING then
    if req = dsON then wr (PWR_DOM_STATUS_PENDING_ENABLE d) 1
    else do
      wr (PWR_DOM_STATUS_PENDING_ENABLE d) 0
      putDtgt d req
  else onlyIf (st = dsFAILED ∧ req = dsOFF) (do
    wr (PWR_DOM_STATUS_STATE d) dsOFF
    domOff d)

/-- The rules of a live write to a PWR register. -/
def pwrRule (m : Mach) (k : RegKind) (i _old new mask : Nat) : Nat :=
  match k with
  | .PWR_DOM_CTL => if bitsAt mask 0 2 = 0 then rcOK else reqRule m i (bitsAt new 0 2) (bitsAt new 2 1)
  | .PWR_AO_LDO =>
    if bitsAt new 0 1 = 1 ∧ bitsAt mask 0 1 = 1 ∧
        (domains.any (fun d => domSt m d = dsWAKING) = true ∨
          (List.range 32).any (fun n => m.g (SLP_STATUS_STATE n) = 4) = true) then rcPWR_BUSY else rcOK
  | .PWR_AVS =>
    let v := toSigned 8 (bitsAt new 32 8)
    let t := (m.g PWR_AVS_FUSED : Int) + v
    if v < -20 ∨ 20 < v ∨ t < 680 ∨ 820 < t then rcPWR_LIMIT else rcOK
  | _ => rcOK

/-- The effect of an accepted write to a PWR register; `cmd` holds the bits written, `mask` the bits covered. -/
def pwrEffect (k : RegKind) (i _old cmd mask : Nat) : P Unit := do
  let m ← getM
  match k with
  | .PWR_CTL => onlyIf (bitsAt cmd 0 1 = 1) (each (List.range 87) fun d => wr (PWR_DOM_STATUS_WAKES d) 0)
  | .PWR_DOM_CTL => onlyIf (bitsAt mask 0 2 ≠ 0) (do
      reqEffect i (m.g (PWR_DOM_CTL_REQ i))
      seqAdvance)
  | .PWR_AVS => onlyIf (bitsAt mask 32 8 ≠ 0) avsStart
  | _ => pure ()

end Sys2Proof.Machine
end

