-- ==== Sys2Proof/Machine/Slots.lean ====
section
/-!
DEFINITION. Slot power channels (16_slot_power.md): the active copy, starting and stopping the rail, faults, retry and
latch-off, power-good, power requests of hosts and of the control space (R72, R407), and live writes (R408). The
analogue levels are inputs: the commands that end an analogue condition carry a sample of the converter (R396).
-/
namespace Sys2Proof.Machine

/-! STATE (Table 16.2). -/

abbrev scOFF : Nat := 0
abbrev scEMPTY : Nat := 1
abbrev scWAIT_VIN : Nat := 2
abbrev scINSERT : Nat := 3
abbrev scRAMP : Nat := 4
abbrev scON : Nat := 5
abbrev scRETRY_WAIT : Nat := 6
abbrev scLATCHED : Nat := 7

/-- The state of slot channel `n`. -/
def slpState (m : Mach) (n : Nat) : Nat := m.g (SLP_STATUS_STATE n)

/-- Debounced presence of slot `n`. -/
def slpPresent (m : Mach) (n : Nat) : Bool := m.pins.present.getD n false

/-- Cycles of the AO clock in a millisecond. -/
abbrev aoMs : Nat := 25000

/-- A slot event (R410). -/
def slpEv (m : Mach) (n sev code : Nat) : EvRec := ((ev 0x0B sev code).b24 n).onPort ((slotPort m n).getD 0xFF)

/-- A channel's fault timer at this time, in AO cycles: up while regulating, down at one sixteenth (R401). -/
def faultTimer (m : Mach) (n : Nat) : Nat :=
  let c := m.getSlp n
  if m.g (SLP_STATUS_REGULATING n) = 1 then Nat.min (c.ft + (m.ao - c.ftAt)) (c.fault * 2500)
  else c.ft - (m.ao - c.ftAt) / 16

/-- SLP_STATUSn as it reads: with the timers of this time. -/
def slpStatusNow (m : Mach) (n : Nat) : Nat :=
  let c := m.getSlp n
  let left := if slpState m n = scINSERT ∧ c.insDone = false then (c.insEnd - m.ao + aoMs - 1) / aoMs else 0
  let retry := if c.retryRun then (c.retryEnd - m.ao + 100 * aoMs - 1) / (100 * aoMs) else 0
  (m.rd ⟨.SLP_STATUS, n⟩).toNat % 2 ^ 16 + faultTimer m n / 2500 * 2 ^ 16 + retry * 2 ^ 32 + left * 2 ^ 48

/-- Power-good deasserts, and SLOT_PERST_N with it (R404, R73). -/
def pgDrop (n : Nat) : P Unit := do
  wr (SLP_STATUS_PG n) 0
  slotPerstAssert n

/-- The gate is switched off (R401, R404). -/
def gateOff (n : Nat) : P Unit := do
  pgDrop n
  wr (SLP_STATUS_REGULATING n) 0
  wr (SLP_STATUS_FOLDBACK n) 0
  modSlp n fun c => { c with gate := false, offWait := false, full := false, ft := 0 }

/-- A sample of the converter: SLP_MEASn, and whether the current stands at i_lim, and by which term (R400). -/
def slpSample (n : Nat) (x : Meas) : P Unit := do
  let m ← getM
  let ft := faultTimer m n
  let c := m.getSlp n
  wr (SLP_MEAS_VIN n) x.vin
  wr (SLP_MEAS_VOUT n) x.vout
  wr (SLP_MEAS_VSENSE n) x.vsense
  wr (SLP_MEAS_VGS n) x.vgs
  let vds := x.vin - x.vout
  let steady := 100 * c.ilim ≤ x.vsense
  let fold := 1000 * c.plim * c.shunt ≤ x.vsense * vds
  let on := slpState m n = scRAMP ∨ slpState m n = scON
  wr (SLP_STATUS_REGULATING n) (if on ∧ (steady ∨ fold) then 1 else 0)
  wr (SLP_STATUS_FOLDBACK n) (if on ∧ fold ∧ 1000 * c.plim * c.shunt < 100 * c.ilim * vds then 1 else 0)
  modSlp n fun d => { d with ft := ft, ftAt := m.ao }

/-- Entry to RAMP (R399, R403). -/
def rampEnter (n : Nat) : P Unit := do
  wr (SLP_STATUS_STATE n) scRAMP
  inc (SLP_CNT_RAMPS n)
  let m ← getM
  modSlp n fun c => { c with gate := true, offWait := false, full := false, ft := 0, ftAt := m.ao }

/-- Entry to INSERT: the insertion delay starts (R398). -/
def insertEnter (n : Nat) : P Unit := do
  wr (SLP_STATUS_STATE n) scINSERT
  let m ← getM
  modSlp n fun c => { c with insDone := false, insEnd := m.ao + c.insert * aoMs }

/-- A channel goes to OFF: power-good first, the gate 100 us later (Table 16.2, R407). -/
def slpToOff (n : Nat) : P Unit := do
  let m ← getM
  pgDrop n
  wr (SLP_STATUS_STATE n) scOFF
  let ft := faultTimer m n
  modSlp n fun c => { c with offWait := c.gate, ft := ft, ftAt := m.ao }
  onlyIf (slpState m n = scRAMP ∨ slpState m n = scON) (do
    wr (SLP_STATUS_REGULATING n) 0
    wr (SLP_STATUS_FOLDBACK n) 0)

/-- One transition that the levels of Table 16.2 call for: requests, presence, window, delay and retry timer. -/
def slpStep (n : Nat) : P Unit := do
  let m ← getM
  let c := m.getSlp n
  let on := c.en && c.req
  let pr := slpPresent m n
  match slpState m n with
  | 0 => onlyIf (on = true) (wr (SLP_STATUS_STATE n) scEMPTY)
  | 7 => pure ()
  | s =>
    if on = false then slpToOff n
    else match s with
      | 1 => onlyIf (pr = true) (if c.inWin then insertEnter n else wr (SLP_STATUS_STATE n) scWAIT_VIN)
      | 2 =>
        if pr = false then wr (SLP_STATUS_STATE n) scEMPTY
        else onlyIf (c.inWin = true) (insertEnter n)
      | 3 =>
        if pr = false then wr (SLP_STATUS_STATE n) scEMPTY
        else if c.inWin = false then wr (SLP_STATUS_STATE n) scWAIT_VIN
        else onlyIf (c.insDone = true ∧ c.retryRun = false) (rampEnter n)
      | 6 =>
        if pr = false then wr (SLP_STATUS_STATE n) scEMPTY
        else onlyIf (c.retryRun = false) (if c.inWin then rampEnter n else wr (SLP_STATUS_STATE n) scWAIT_VIN)
      | _ => pure ()

/-- The transitions that the levels call for, to their end: OFF, EMPTY, WAIT_VIN, INSERT and RAMP lie at most four
steps apart. -/
def slpAdvance (n : Nat) : P Unit := do
  slpStep n
  slpStep n
  slpStep n
  slpStep n

/-- The host that a slot is bound to sees Power Fault Detected (R404). -/
def slotFaultSeen (n : Nat) : P Unit := do
  let m ← getM
  match slotPort m n with
  | some p => hotplug p 2
  | none => pure ()

/-- A fault (R401-R405): cause 1 TIMER, 2 FAST, 3 RAMP; the sample gives the levels at the fault. -/
def slpFault (n cause : Nat) (x : Meas) : P Unit := do
  gateOff n
  if cause = 2 then inc (SLP_CNT_FAST_TRIPS n) else inc (SLP_CNT_FAULTS n)
  wr (SLP_STATUS_CAUSE n) cause
  let t ← now
  wr (SLP_FAULT_TIME_TIME64 n) t
  let m ← getM
  let c := m.getSlp n
  modSlp n fun d => { d with retryRun := true, retryEnd := m.ao + d.retry * 100 * aoMs }
  onlyIf (slpState m n ≠ scOFF) (wr (SLP_STATUS_STATE n) (if c.latch then scLATCHED else scRETRY_WAIT))
  raise (((slpEv m n 2 0x0B81).b25 cause).w28 (x.vsense % 2 ^ 16 + x.vout % 2 ^ 16 * 2 ^ 16))
  onlyIf (slpState m n ≠ scOFF ∧ c.latch = true) (raise (slpEv m n 2 0x0B82))
  slotFaultSeen n

/-- A window exit by `side` (1 UV, 2 OV) as it acts on a channel that drives its gate (Table 16.2). -/
def vinExit (n side : Nat) : P Unit := do
  let m ← getM
  onlyIf (slpState m n = scRAMP ∨ slpState m n = scON) (do
    gateOff n
    wr (SLP_STATUS_STATE n) scWAIT_VIN
    inc (SLP_CNT_VIN_EXITS n)
    raise ((slpEv m n 0 0x0B83).b25 side))

/-- The window comparator takes a level of VIN (R398). -/
def vinSee (n vin : Nat) : P Unit := do
  modSlp n fun c => { c with vin := vin }
  let m ← getM
  let c := m.getSlp n
  if c.inWin then
    if c.ovRise < vin then do
      modSlp n fun d => { d with inWin := false }
      vinExit n 2
    else onlyIf (vin < c.uvFall) (do
      modSlp n fun d => { d with inWin := false }
      vinExit n 1)
  else onlyIf (c.uvRise < vin ∧ vin < c.ovFall) (modSlp n fun d => { d with inWin := true })
  slpAdvance n

/-- VIN_WINDOW_CROSSING: a level of VIN that has persisted (R398). -/
def vinCrossing (n vin : Nat) : P Unit := do
  wr (SLP_MEAS_VIN n) vin
  vinSee n vin

/-- Debounced presence of slot `n` changes, as the channel takes it (R398, R405). -/
def slpPresence (n : Nat) (present : Bool) : P Unit := do
  let m ← getM
  wr (SLP_STATUS_PRESENT n) (if present then 1 else 0)
  onlyIf (present = false ∧ (slpState m n = scRAMP ∨ slpState m n = scON)) (do
    gateOff n
    wr (SLP_STATUS_STATE n) scEMPTY
    raise (slpEv m n 0 0x0B85))
  slpAdvance n

/-- PRESENCE_DEBOUNCED (R20): the port and the slot channel take the new level. -/
def presenceDebounced (n : Nat) (present : Bool) : P Unit := do
  let m ← getM
  onlyIf (slpPresent m n ≠ present) (do
    modPins fun p => { p with present := setB p.present n present }
    portPresence n present
    slpPresence n present)

/-- INSERT_DELAY_END (R398). -/
def insertDelayEnd (n : Nat) : P Unit := do
  let m ← getM
  onlyIf (slpState m n = scINSERT) (do
    modSlp n fun c => { c with insDone := true }
    slpAdvance n)

/-- FAST_TRIP: VSENSE above 2.5 x ILIM while the gate is driven (R402). -/
def fastTrip (n : Nat) (x : Meas) : P Unit := do
  let m ← getM
  let c := m.getSlp n
  onlyIf (c.gate = true ∧ 250 * c.ilim < x.vsense) (do
    slpSample n x
    slpFault n 2 x)

/-- FAULT_TIMER_EXPIRY: the slow breaker (R401). -/
def faultTimerExpiry (n : Nat) (x : Meas) : P Unit := do
  let m ← getM
  onlyIf (slpState m n = scRAMP ∨ slpState m n = scON) (do
    slpSample n x
    slpFault n 1 x)

/-- RAMP_TIMEOUT (R403). -/
def rampTimeout (n : Nat) (x : Meas) : P Unit := do
  let m ← getM
  onlyIf (slpState m n = scRAMP) (do
    slpSample n x
    slpFault n 3 x)

/-- The conditions of R404: VGS of at least 8 V and VOUT of at least 95 % of VIN. -/
def fullyOn (x : Meas) : Bool := 8000 ≤ x.vgs && 95 * x.vin ≤ 100 * x.vout

/-- GATE_FULLY_ON (R404). -/
def gateFullyOn (n : Nat) (x : Meas) : P Unit := do
  let m ← getM
  onlyIf (fullyOn x = true ∧ (slpState m n = scRAMP ∨ slpState m n = scON)) (do
    wr (SLP_STATUS_STATE n) scON
    modSlp n fun c => { c with full := true }
    slpSample n x)

/-- PG_DEGLITCH_END: the conditions have held 10 ms (R404). -/
def pgDeglitchEnd (n : Nat) : P Unit := do
  let m ← getM
  onlyIf (slpState m n = scON ∧ (m.getSlp n).full = true) (wr (SLP_STATUS_PG n) 1)

/-- PG_CONDITIONS_LOST: either condition fails for 20 us while the gate stays on (R404). -/
def pgConditionsLost (n : Nat) (x : Meas) : P Unit := do
  let m ← getM
  onlyIf (slpState m n = scON ∧ fullyOn x = false) (do
    slpSample n x
    modSlp n fun c => { c with full := false }
    onlyIf (m.g (SLP_STATUS_PG n) = 1) (do
      pgDrop n
      raise (slpEv m n 2 0x0B84)
      slotFaultSeen n))

/-- RETRY_TIMER_EXPIRY (R406). -/
def retryExpiry (n : Nat) : P Unit := do
  modSlp n fun c => { c with retryRun := false }
  slpAdvance n

/-- GATE_OFF_DELAY_END: 100 us after a power-off request (R407). -/
def gateOffDelayEnd (n : Nat) : P Unit := do
  let m ← getM
  onlyIf ((m.getSlp n).offWait = true) (gateOff n)

/-- The active copy of a channel is loaded from its registers (R397); `ctl` for POWER_REQ and LATCH_OFF. -/
def slpCopy (n : Nat) : P Unit := do
  let m ← getM
  modSlp n fun c => { c with
    en := m.g (SLP_CFG_ENABLE n) = 1, req := m.g (SLP_CTL_POWER_REQ n) = 1, latch := m.g (SLP_CTL_LATCH_OFF n) = 1,
    uvRise := m.g (SLP_VWIN_UV_RISE n), uvFall := m.g (SLP_VWIN_UV_FALL n), ovRise := m.g (SLP_VWIN_OV_RISE n),
    ovFall := m.g (SLP_VWIN_OV_FALL n), ilim := m.g (SLP_LIM_ILIM n), pump := m.g (SLP_LIM_PUMP n),
    plim := m.g (SLP_LIM_PLIM n), shunt := m.g (SLP_CFG_SHUNT n), insert := m.g (SLP_TMR_INSERT n),
    fault := m.g (SLP_TMR_FAULT n), retry := m.g (SLP_TMR_RETRY n), rampTmo := m.g (SLP_TMR_RAMP_TMO n) }
  wr (SLP_STATUS_REQ_ACTIVE n) (m.g (SLP_CTL_POWER_REQ n))

/-- A live write has reached the active copy: requests and the window act (Table 16.3, R407). -/
def slpLive (n : Nat) : P Unit := do
  slpCopy n
  let m ← getM
  vinSee n (m.getSlp n).vin

/-- APPLYING (R397): every enabled channel is requested on, and the copies are loaded; a channel with ENABLE 0 enters
OFF, LATCHED too. -/
def slpApply : P Unit := each (List.range 32) fun n => do
  let m ← getM
  onlyIf (m.g (SLP_CFG_ENABLE n) = 1) (wr (SLP_CTL_POWER_REQ n) 1)
  onlyIf (m.g (SLP_CFG_ENABLE n) = 0 ∧ slpState m n = scLATCHED) (wr (SLP_STATUS_STATE n) scOFF)
  slpLive n

/-- Cold reset of the channels: PORST_N holds every gate low and clears every retry timer (R397). -/
def slpCold : P Unit := clearSlp

/-- The rules of a write to a slot register (Table 16.3); `mask` holds the bits covered. -/
def slpRule (m : Mach) (k : RegKind) (i _old new mask : Nat) : Nat :=
  match k with
  | .SLP_CTL => if bitsAt new 2 1 = 1 ∧ slpState m i ≠ scLATCHED then rcSLP_BUSY else rcOK
  | .SLP_VWIN =>
    let uvr := bitsAt new 0 16
    let uvf := bitsAt new 16 16
    let ovr := bitsAt new 32 16
    let ovf := bitsAt new 48 16
    if uvf < uvr ∧ uvr < ovf ∧ ovf < ovr ∧ 9000 ≤ uvf ∧ ovr ≤ 15000 then rcOK else rcSLP_LIMIT
  | .SLP_LIM => if bitsAt mask 16 16 ≠ 0 ∧ m.g (SLP_CFG_SOA_W i) < bitsAt new 16 16 then rcSLP_LIMIT else rcOK
  | .SLP_TMR => if bitsAt mask 16 10 ≠ 0 ∧ m.g (SLP_CFG_FAULT_MAX i) < bitsAt new 16 10 then rcSLP_LIMIT else rcOK
  | _ => rcOK

/-- The effect of an accepted write to a slot register; the active copy follows while structure is ENABLED, and at
APPLYING otherwise (R397, R42). -/
def slpEffect (k : RegKind) (i cmd : Nat) : P Unit := do
  onlyIf (k = .SLP_CTL ∧ bitsAt cmd 3 1 = 1) (rstReg .SLP_CNT i)
  let m ← getM
  onlyIf (m.g GLB_STRUCT_STATUS_STATE = stENABLED) (slpLive i)
  onlyIf (k = .SLP_CTL ∧ bitsAt cmd 2 1 = 1) (do
    wr (SLP_STATUS_STATE i) scRETRY_WAIT
    slpAdvance i)

/-- POWER_CONTROLLER_WRITE: the host of VCS `v` writes Power Controller Control of port `p`'s vPPB (R72, R407).
HOTPLUG_WRITE_IGNORED names the VCS in byte 24: the model's choice, as the spec gives that event no detail (log entry
126). -/
def powerControllerWrite (v p : Nat) (on : Bool) : P Unit := do
  let m ← getM
  if hostSlot m v p then do
    wr (SLP_CTL_POWER_REQ (p / 4)) (if on then 1 else 0)
    onlyIf (m.g GLB_STRUCT_STATUS_STATE = stENABLED) (slpLive (p / 4))
  else raise ((octEv 0 0x028A p).b24 v)

end Sys2Proof.Machine
end

