-- ==== Sys2Proof/Machine/Image.lean ====
section
/-!
DEFINITION. The Meldel image (02_meldel_image.md): its layout and item types, the verification pass (R24-R31), the places
of its fields in the registers (R30), and phases 1 to 10 of the consistency check (R35, R36, Tables 2.6 and 2.7).
-/
namespace Sys2Proof.Machine

/-! Fields of items (Table 2.2). -/

/-- A field of an item type: its place (byte, bit within it, width), whether it is policy, its range and the values
allowed beside it, whether it is signed, its alignment, and the register field that holds it, as the item's number
gives it; the register holds the value without its low `shift` bits. -/
structure FSpec where
  byte : Nat
  bit : Nat := 0
  w : Nat := 8
  pol : Bool := false
  lo : Int := 0
  hi : Int := 2 ^ 64
  extra : List Nat := []
  sgn : Bool := false
  align : Nat := 1
  shift : Nat := 0
  tgt : Nat → Option RF := fun _ => none

/-- An item type: its section, its size in words, its fields, and the register bits that its presence sets. -/
structure ISpec where
  sect : Nat
  typ : Nat
  words : Nat
  fields : List FSpec
  marks : Nat → List RF := fun _ => []

/-- A field of the window image (Table 2.3): word, bit and width. -/
def winField (w bit n : Nat) : FSpec :=
  { byte := 8 + 8 * w, bit := bit, w := n, tgt := fun k => some ⟨.KRB_WIN, k * 4 + w, bit, n⟩ }

/-- The item types of Table 2.2. -/
def itemTypes : List ISpec := [
  { sect := 1, typ := 0x11, words := 2, marks := fun k => [OCT_PORT_CFG_VALID k], fields := [
      { byte := 4, hi := 127 }, { byte := 5, lo := 1, hi := 4, tgt := fun k => some (OCT_PORT_CFG_WIDTH k) },
      { byte := 6, hi := 6, tgt := fun k => some (OCT_PORT_CFG_RATE_MAX k) },
      { byte := 7, hi := 4, tgt := fun k => some (OCT_PORT_CFG_ROLE k) },
      { byte := 8, w := 1, tgt := fun k => some (OCT_PORT_CFG_LANE_REVERSE k) },
      { byte := 8, bit := 1, w := 1, tgt := fun k => some (OCT_PORT_CFG_IDE_REQUIRED k) },
      { byte := 8, bit := 2, w := 1, tgt := fun k => some (OCT_PORT_CFG_SRIS k) },
      { byte := 9, hi := 63, extra := [0xFF], tgt := fun k => some (OCT_PORT_CFG_VCS k) },
      { byte := 10, pol := true, hi := 10, tgt := fun k => some (OCT_PORT_CFG_EQ_PRESET k) }] },
  { sect := 2, typ := 0x21, words := 3, fields := [
      { byte := 4, hi := 63 }, { byte := 5, hi := 127 }, { byte := 6, hi := 63, extra := [0xFF] },
      { byte := 7, lo := 8, hi := 14, extra := [0] }, { byte := 8, w := 128, hi := 2 ^ 128 }] },
  { sect := 2, typ := 0x22, words := 1, fields := [
      { byte := 4, hi := 127 }, { byte := 5, hi := 15 }, { byte := 6, hi := 63 }, { byte := 7, w := 1 }] },
  { sect := 3, typ := 0x31, words := 2, fields := [
      { byte := 4, hi := 7 },
      { byte := 5, pol := true, lo := 1, hi := 255, tgt := fun k => some (XB_CLASS_CFG_WEIGHT k) },
      { byte := 6, w := 16, tgt := fun k => some (XB_CLASS_CFG_MIN_RES k) },
      { byte := 8, pol := true, hi := 7, tgt := fun k => some (XB_CLASS_CFG_DT_ALPHA k) },
      { byte := 12, w := 32, pol := true, lo := 10, hi := 100000, tgt := fun k => some (XB_CLASS_CFG_AGE_LIMIT k) }] },
  { sect := 3, typ := 0x32, words := 1, marks := fun k => [⟨.XB_EXPRESS, 0, k % 64, 1⟩], fields := [
      { byte := 4, hi := 63 }] },
  { sect := 3, typ := 0x33, words := 2, marks := fun k => [XB_MIR_CFG_VALID k], fields := [
      { byte := 4, hi := 1 }, { byte := 5, hi := 127, tgt := fun k => some (XB_MIR_CFG_ANALYSIS_PORT k) },
      { byte := 6, hi := 127, tgt := fun k => some (XB_MIR_CFG_SOURCE_PORT k) },
      { byte := 7, w := 1, pol := true, tgt := fun k => some (XB_MIR_CFG_INGRESS k) },
      { byte := 7, bit := 1, w := 1, pol := true, tgt := fun k => some (XB_MIR_CFG_EGRESS k) },
      { byte := 7, bit := 2, w := 1, pol := true, tgt := fun k => some (XB_MIR_CFG_TRUNC64 k) },
      { byte := 8, pol := true, tgt := fun k => some (XB_MIR_CFG_CLASS_MASK k) },
      { byte := 9, pol := true, hi := 64, extra := [0xFF], tgt := fun k => some (XB_MIR_CFG_AGENT k) },
      { byte := 10, pol := true, tgt := fun k => some (XB_MIR_CFG_OPCODE k) }] },
  { sect := 4, typ := 0x41, words := 1, fields := [
      { byte := 4, lo := 8, hi := 14, tgt := fun _ => some SQ_HOME_SEL_BIT }] },
  { sect := 4, typ := 0x42, words := 2, marks := fun k => [SQ_CD_CFG_VALID k], fields := [
      { byte := 4, hi := 15 }, { byte := 5, hi := 1, tgt := fun k => some (SQ_CD_CFG_MODE k) },
      { byte := 6, w := 1, tgt := fun k => some (SQ_CD_CFG_KIOSK k) },
      { byte := 8, w := 64, tgt := fun k => some (SQ_CD_AGENTS_AGENT_MASK k) }] },
  { sect := 4, typ := 0x43, words := 3, marks := fun k => [SQ_RANGE_CFG_VALID k], fields := [
      { byte := 4, hi := 15, extra := [0xFF] },
      { byte := 5, hi := 63, extra := [0xFE, 0xFF], tgt := fun k => some (SQ_RANGE_CFG_PRIVATE_AGENT k) },
      { byte := 8, w := 64, align := 2 ^ 21, shift := 21, tgt := fun k => some (SQ_RANGE_BASE_BASE k) },
      { byte := 16, w := 64, align := 2 ^ 21, shift := 21, tgt := fun k => some (SQ_RANGE_CFG_SIZE k) }] },
  { sect := 5, typ := 0x51, words := 4, fields := [
      { byte := 4, w := 32, hi := 256, tgt := fun _ => some TM_CARVE_SLOT_RINGS },
      { byte := 8, w := 32, tgt := fun _ => some TM_CARVE_RESERVE },
      { byte := 16, w := 64, align := 2 ^ 30, shift := 30, tgt := fun _ => some TM_SPILL_BASE_BASE },
      { byte := 24, w := 32, hi := 1024, tgt := fun _ => some TM_SPILL_BASE_GIB }] },
  { sect := 5, typ := 0x52, words := 2, marks := fun k => [TM_CH_CFG_VALID k], fields := [
      { byte := 4, w := 16, hi := 511 }, { byte := 6, hi := 127, tgt := fun k => some (TM_CH_CFG_PORT k) },
      { byte := 7, hi := 1, tgt := fun k => some (TM_CH_CFG_START k) },
      { byte := 8, pol := true, lo := -32, hi := 63, sgn := true, tgt := fun k => some (TM_CH_CFG_OVERHEAD k) },
      { byte := 9, w := 1, tgt := fun k => some (TM_CH_CFG_GATED k) }] },
  { sect := 5, typ := 0x53, words := 1, marks := fun k => [TM_BND_CFG_VALID k], fields := [
      { byte := 4, w := 16, hi := 4095 }, { byte := 6, w := 9, tgt := fun k => some (TM_BND_CFG_CHANNEL k) },
      { byte := 6, bit := 9, w := 3, pol := true, tgt := fun k => some (TM_BND_CFG_PRIORITY k) }] },
  { sect := 5, typ := 0x54, words := 2, marks := fun k => [TM_QPOL_VALID k], fields := [
      { byte := 4, w := 16, hi := 32767 }, { byte := 6, w := 16, hi := 4095, tgt := fun k => some (TM_QSCH_BUNDLE k) },
      { byte := 8, w := 32, pol := true, lo := 64, hi := 1048576, tgt := fun k => some (TM_QSCH_QUANTUM k) }] },
  { sect := 5, typ := 0x55, words := 2, fields := [
      { byte := 4, w := 16, pol := true, hi := 511 }, { byte := 6, w := 16, pol := true, lo := 1, hi := 1024 },
      { byte := 8, w := 32, pol := true, lo := 1000, hi := 1000000000 }] },
  { sect := 6, typ := 0x61, words := 2, marks := fun k => [TEN_STATUS_VALID k], fields := [
      { byte := 4 }, { byte := 5, hi := 63, tgt := fun k => some (TEN_STATUS_VCS k) },
      { byte := 6, w := 1, pol := true, tgt := fun k => some (TEN_CTL_COUNTER_PAGE k) },
      { byte := 8, w := 20, tgt := fun k => some (TEN_STATUS_PASID k) }] },
  { sect := 6, typ := 0x62, words := 3, marks := fun k => [RNG_CFG_VALID k], fields := [
      { byte := 4, w := 16, hi := 32767 }, { byte := 6, hi := 3, tgt := fun k => some (RNG_CFG_TYPE k) },
      { byte := 7, lo := 4, hi := 16, tgt := fun k => some (RNG_CFG_SIZE_LOG2 k) },
      { byte := 8, tgt := fun k => some (RNG_CFG_SLICE k) },
      { byte := 9, pol := true, lo := 1, hi := 255, tgt := fun k => some (RNG_CFG_WEIGHT k) },
      { byte := 10, pol := true, lo := 1, hi := 64, tgt := fun k => some (RNG_CFG_BURST k) },
      { byte := 12, w := 16, hi := 32767, tgt := fun k => some (RNG_CFG_COMPLETION_RING k) },
      { byte := 16, w := 64, shift := 6, tgt := fun k => some (RNG_IOVA_IOVA k) }] },
  { sect := 6, typ := 0x63, words := 3, marks := fun k => [LM_TBL_CFG_VALID k], fields := [
      { byte := 4, w := 16, hi := 1023 }, { byte := 6, tgt := fun k => some (LM_TBL_CFG_SLICE k) },
      { byte := 7, hi := 4, tgt := fun k => some (LM_TBL_CFG_KIND k) },
      { byte := 8, w := 64, shift := 6, tgt := fun k => some (LM_TBL_BASE_BASE k) },
      { byte := 16, w := 64, shift := 6, tgt := fun k => some (LM_TBL_SIZE_SIZE k) }] },
  { sect := 7, typ := 0x71, words := 5, fields := [
      { byte := 4, w := 16, hi := 16383 }, winField 0 0 52, winField 1 0 52, winField 2 0 8, winField 2 8 1,
      winField 2 9 1, winField 2 10 1, winField 2 11 1, winField 2 12 1, winField 2 13 1, winField 2 14 1] },
  { sect := 8, typ := 0x81, words := 1, fields := [
      { byte := 4, hi := 86 }, { byte := 5, hi := 2 },
      { byte := 6, w := 1, pol := true, tgt := fun k => some (PWR_DOM_CTL_ALLOW_RET k) }] },
  { sect := 9, typ := 0x91, words := 4, fields := [
      { byte := 4, hi := 31 }, { byte := 5, w := 1, tgt := fun k => some (SLP_CFG_ENABLE k) },
      { byte := 5, bit := 1, w := 1, pol := true, tgt := fun k => some (SLP_CTL_LATCH_OFF k) },
      { byte := 6, w := 16, lo := 1, hi := 65535, tgt := fun k => some (SLP_CFG_SHUNT k) },
      { byte := 8, w := 16, pol := true, tgt := fun k => some (SLP_VWIN_UV_RISE k) },
      { byte := 10, w := 16, pol := true, tgt := fun k => some (SLP_VWIN_UV_FALL k) },
      { byte := 12, w := 16, pol := true, tgt := fun k => some (SLP_VWIN_OV_RISE k) },
      { byte := 14, w := 16, pol := true, tgt := fun k => some (SLP_VWIN_OV_FALL k) },
      { byte := 16, w := 16, pol := true, lo := 10, hi := 1000, tgt := fun k => some (SLP_TMR_INSERT k) },
      { byte := 18, pol := true, lo := 2, hi := 40, tgt := fun k => some (SLP_LIM_PUMP k) },
      { byte := 19, pol := true, lo := 5, hi := 50, tgt := fun k => some (SLP_LIM_ILIM k) },
      { byte := 20, w := 16, pol := true, lo := 1, hi := 2000, tgt := fun k => some (SLP_LIM_PLIM k) },
      { byte := 22, w := 16, pol := true, lo := 10, hi := 500, tgt := fun k => some (SLP_TMR_FAULT k) },
      { byte := 24, w := 16, pol := true, lo := 1, hi := 600, tgt := fun k => some (SLP_TMR_RETRY k) },
      { byte := 26, w := 16, lo := 1, hi := 2000, tgt := fun k => some (SLP_CFG_SOA_W k) },
      { byte := 28, w := 16, pol := true, lo := 10, hi := 1000, tgt := fun k => some (SLP_TMR_RAMP_TMO k) }] },
  { sect := 10, typ := 0xA1, words := 2, fields := [
      { byte := 4, w := 1, tgt := fun _ => some TWN_CFG_PAIRED },
      { byte := 4, bit := 1, w := 1, tgt := fun _ => some TWN_CFG_SPARES_ENABLE },
      { byte := 5, lo := 3, hi := 32, tgt := fun _ => some TWN_CFG_WHORL_MISS }] }]

/-- The type of an item, or none where Table 2.2 does not list it for its section. -/
def itemSpec (sect typ : Nat) : Option ISpec := itemTypes.find? fun s => s.sect = sect && s.typ = typ

/-- `w` bits of an item from bit `bit` of byte `byte`. -/
def Item.at (it : Item) (byte bit w : Nat) : Nat := bitsAt it.num (8 * byte + bit) w
/-- A byte of an item. -/
def Item.b (it : Item) (byte : Nat) : Nat := it.at byte 0 8
/-- A 16-bit number of an item. -/
def Item.h (it : Item) (byte : Nat) : Nat := it.at byte 0 16
/-- A 32-bit number of an item. -/
def Item.w (it : Item) (byte : Nat) : Nat := it.at byte 0 32
/-- A 64-bit number of an item. -/
def Item.q (it : Item) (byte : Nat) : Nat := it.at byte 0 64

/-- The value of a field in an item. -/
def FSpec.val (f : FSpec) (it : Item) : Nat := it.at f.byte f.bit f.w

/-- Whether a field's value lies in its range (R28). -/
def FSpec.ok (f : FSpec) (it : Item) : Bool :=
  let v := f.val it
  let x : Int := if f.sgn then toSigned f.w v else v
  ((f.lo ≤ x && x ≤ f.hi) || f.extra.contains v) && v % f.align = 0

/-- Whether a field of an item is policy: a window is structural as a whole with LOCK 1, and policy otherwise (R29). -/
def FSpec.policy (f : FSpec) (it : Item) : Bool := if it.typ = 0x71 then it.at 24 12 1 = 0 else f.pol

/-- The fields of an item's type. -/
def Item.fields (it : Item) : List FSpec := ((itemSpec it.sect it.typ).map (·.fields)).getD []

/-- The number an item is known by: `ord` is its place among the RANGE items before it. -/
def itemKey (typ num ord : Nat) : Nat :=
  if typ ∈ [0x52, 0x53, 0x54, 0x55, 0x62, 0x63, 0x71] then bitsAt num 32 16
  else if typ = 0x43 then ord
  else if typ ∈ [0x41, 0x51, 0xA1] then 0
  else bitsAt num 32 8

/-- The structural fields of items in order, over which STRUCT_DIGEST is the SHA-384 (R25). -/
def structDigest (l : List Item) : Nat :=
  Config.sha384 (l.flatMap fun it => (it.fields.filter (fun f => !f.policy it)).map (·.val it)) % 2 ^ 384

/-! The image as bytes (R24-R27). -/

/-- `n` bytes from offset `o`, as a little-endian number. -/
def leAt (bs : List Nat) (o n : Nat) : Nat := ((bs.drop o).take n).foldr (fun b a => b % 256 + 256 * a) 0

/-- One bit of the CRC-32 of IEEE 802.3, least significant bit first. -/
def crcBit (c : Nat) : Nat := if c % 2 = 1 then (c / 2) ^^^ 0xEDB88320 else c / 2

/-- The CRC-32 of IEEE 802.3 over bytes. -/
def crc32 (bs : List Nat) : Nat :=
  bs.foldl (fun c b => crcBit (crcBit (crcBit (crcBit (crcBit (crcBit (crcBit (crcBit (c ^^^ (b % 256)))))))))) 0xFFFFFFFF
    ^^^ 0xFFFFFFFF

/-- A directory entry (R27). -/
structure DirEntry where
  id : Nat
  ver : Nat
  off : Nat
  len : Nat
  crc : Nat
  deriving DecidableEq, Repr

/-- The section directory. -/
def dirEntries (bs : List Nat) : List DirEntry :=
  (List.range (leAt bs 10 2)).map fun i =>
    let o := leAt bs 80 4 + 16 * i
    ⟨leAt bs o 1, leAt bs (o + 1) 1, leAt bs (o + 4) 4, leAt bs (o + 8) 4, leAt bs (o + 12) 4⟩

/-- The items of a section, `n` of them from offset `off` to `fin`, or the index of the first whose LENGTH is 0 or runs
past the end. -/
def walkItems (bs : List Nat) (sect fin : Nat) : Nat → Nat → Nat → Nat → Nat → List Item ⊕ Nat
  | 0, _, idx, n, _ => if n = 0 then .inl [] else .inr idx
  | fuel + 1, off, idx, n, ord =>
    if n = 0 then .inl []
    else
      let len := leAt bs (off + 2) 2
      if fin < off + 8 ∨ len = 0 ∨ fin < off + 8 * len then .inr idx
      else
        let typ := leAt bs off 1
        let num := leAt bs off (8 * len)
        match walkItems bs sect fin fuel (off + 8 * len) (idx + 1) (n - 1) (ord + if typ = 0x43 then 1 else 0) with
        | .inl l => .inl (⟨sect, idx, typ, itemKey typ num ord, len, num⟩ :: l)
        | .inr i => .inr i

/-- The items of one section. That the ID byte of the section's own header is not compared with the directory's is the
model's choice (R27; log entry 115). -/
def sectItems (bs : List Nat) (d : DirEntry) : List Item ⊕ Nat :=
  walkItems bs d.id (d.off + d.len) (d.len / 8 + 1) (d.off + 8) 0 (leAt bs (d.off + 4) 4) 0

/-- What verification finds: a refusal (reason, section, item), or what the image holds. -/
structure Verified where
  reason : Nat := 0
  sect : Nat := 0
  item : Nat := 0
  pol : Bool := false
  svn : Nat := 0
  build : Nat := 0
  digest : Nat := 0
  items : List Item := []
  deriving DecidableEq, Repr

/-- IMG_LENGTH (R31 check 1). That a DIR_OFFSET other than 128, gaps between the parts and sections off an 8-byte boundary
are accepted is the model's choice (R24; log entry 113). -/
def checkLength (bs : List Nat) : Option (Nat × Nat) :=
  let total := leAt bs 12 4
  let dir := leAt bs 80 4
  if 4194304 < total ∨ bs.length < total ∨ total < 336 ∨ total < dir + 16 * leAt bs 10 2 then some (0, 0)
  else (dirEntries bs).findSome? fun d =>
    if total < d.off + d.len ∨ d.len < 8 then some (0, 0)
    else match sectItems bs d with
      | .inl _ => none
      | .inr i => some (d.id, i)

/-- IMG_VERSION (R31 check 2). -/
def checkVersion (bs : List Nat) : Option Nat :=
  if leAt bs 0 4 ≠ 0x444C454D ∨ leAt bs 5 1 ≠ 1 then some 0
  else ((dirEntries bs).find? fun d => d.ver ≠ 1 || leAt bs (d.off + 1) 1 ≠ 1).map (·.id)

/-- The lowest of the ten sections that is absent or duplicated (R31 check 4). That a SECTION_COUNT other than 10 with a
further entry whose ID lies outside 1-10 is accepted, and that reserved bytes are not tested, is the model's choice
(R25; log entry 114). -/
def checkSections (l : List DirEntry) : Option Nat :=
  ((List.range 10).map (· + 1)).find? fun s => (l.filter (fun d => d.id = s)).length ≠ 1

/-- Whether the signature block at offset `e` is accepted (R26). -/
def sigOk (fz : Fuses) (bs : List Nat) (e : Nat) : Bool :=
  let key := (bs.drop (e + 8)).take 97
  let slot := leAt bs e 1
  slot < 4 && Config.sha384 key % 2 ^ 384 = nth fz.keyHash slot && !(fz.revoked.getD slot true) &&
    Config.ecdsaVerify key (leAt bs (e + 112) 48) (leAt bs (e + 160) 48) (Config.sha384 (bs.take e))

/-- The items in section order. -/
def allItems (bs : List Nat) : List Item :=
  ((List.range 10).map (· + 1)).flatMap fun s =>
    (((dirEntries bs).find? fun d => d.id = s).map fun d => match sectItems bs d with | .inl l => l | .inr _ => []).getD []

/-- IMG_ITEM_TYPE and IMG_ITEM_RANGE on one item (R28, R31 check 8). -/
def itemRefusal (it : Item) : Option Nat :=
  match itemSpec it.sect it.typ with
  | none => some 0x010D
  | some s =>
    if it.len ≠ s.words + (if it.typ = 0x55 then it.h 6 else 0) ∨ !(s.fields.all fun f => f.ok it) ∨
        (it.typ = 0x43 ∧ ((it.b 4 = 0xFF) ≠ (it.b 5 ≠ 0xFF) ∨ 64 ≤ it.key)) then some 0x010C
    else none

/-- The verification pass (R31). -/
def verify (fz : Fuses) (svnMin stepping : Nat) (bs : List Nat) : Verified :=
  let bad (r s i : Nat) : Verified := { reason := r, sect := s, item := i }
  match checkLength bs with
  | some (s, i) => bad 0x0107 s i
  | none =>
  match checkVersion bs with
  | some s => bad 0x0102 s 0
  | none =>
  if leAt bs 6 2 ≠ 0x9600 ∨ stepping < leAt bs 8 1 then bad 0x0105 0 0
  else
  match checkSections (dirEntries bs) with
  | some s => bad 0x0104 s 0
  | none =>
  match (dirEntries bs).find? (fun d => crc32 ((bs.drop d.off).take d.len) ≠ d.crc) with
  | some d => bad 0x0103 d.id 0
  | none =>
  if sigOk fz bs (leAt bs 12 4 - 208) = false then bad 0x0101 0 0
  else if leAt bs 16 4 < svnMin then bad 0x0106 0 0
  else
  let items := allItems bs
  match items.findSome? (fun it => (itemRefusal it).map (fun r => (r, it))) with
  | some (r, it) => bad r it.sect it.idx
  | none =>
  if structDigest items ≠ leAt bs 32 48 then bad 0x010E 0 0
  else { pol := leAt bs 9 1 % 2 = 1, svn := leAt bs 16 4, build := leAt bs 24 8, digest := leAt bs 32 48, items := items }

/-! Items and registers (R30). -/

/-- A field of a register written into an item's bytes. -/
def FSpec.overlay (m : Mach) (f : FSpec) (it : Item) : Item :=
  match f.tgt it.key with
  | some r =>
    let w := Nat.min r.w (f.w - f.shift)
    { it with num := putBits it.num (8 * f.byte + f.bit + f.shift) w (m.g r) }
  | none => it

/-- The numbers of the items of a type that the registers hold: their VALID marks, the bits of XB_EXPRESS, the VALID bits of
the windows and the ENABLE bits of the slot channels. A type without such a bit is held by the load alone. -/
def heldKeys (m : Mach) (s : ISpec) : List Nat :=
  match s.typ with
  | 0x32 => (List.range 64).filter fun v => m.g ⟨.XB_EXPRESS, 0, v, 1⟩ = 1
  | 0x41 => if m.g SQ_HOME_SEL_BIT ≠ 0 then [0] else []
  | 0x71 => (m.regs.filter fun e => e.1.k = .KRB_WIN && e.1.i % 4 = 2 && bitsAt e.2.toNat 14 1 = 1).map (·.1.i / 4)
  | 0x91 => (m.regs.filter fun e => e.1.k = .SLP_CFG && bitsAt e.2.toNat 0 1 = 1).map (·.1.i)
  | _ => (m.regs.filter fun e => (s.marks e.1.i).any fun r => r.k = e.1.k && bitsAt e.2.toNat r.lo 1 = 1).map (·.1.i)

/-- The bytes of an item that no load brought, but for its fields: its header and its number. -/
def newItem (s : ISpec) (idx key : Nat) : Item :=
  ⟨s.sect, idx, s.typ, key, s.words, s.typ + s.words * 2 ^ 16 + (if s.typ = 0x43 ∨ s.typ = 0x41 then 0 else key * 2 ^ 32)⟩

/-- An item with the contents of the registers. A RANGE item has CD 0xFF where PRIVATE is 1. -/
def itemNow (m : Mach) (it : Item) : Item :=
  let x := it.fields.foldl (fun a f => f.overlay m a) it
  if it.typ = 0x43 then
    { x with num := putBits x.num 32 8 (if m.g (SQ_RANGE_CFG_PRIVATE it.key) = 1 then 0xFF else m.g (SQ_RANGE_CFG_CD it.key)) }
  else x

/-- The items of one section as the registers hold them: those of the load whose marks still stand, and, after them, those
that direct writes have added, in the order of their types and numbers (R30; log entry 116). -/
def sectNow (m : Mach) (n : Nat) : List Item :=
  let old := m.ldr.items.filter fun it => it.sect = n
  let held (it : Item) : Bool := (itemSpec it.sect it.typ).all fun s =>
    (s.marks it.key = [] && it.typ ≠ 0x41) || (heldKeys m s).contains it.key
  let top := old.foldl (fun a it => Nat.max a (it.idx + 1)) 0
  let add := (itemTypes.filter fun s => s.sect = n).flatMap fun s =>
    ((heldKeys m s).filter fun k => !(old.any fun it => it.typ = s.typ && it.key = k)).map fun k => (s, k)
  ((old.filter held) ++ (add.zip (List.range add.length)).map fun e => newItem e.1.1 (top + e.2) e.1.2).map (itemNow m)

/-- The structure as the registers hold it: what the check runs over (R30). -/
def itemsNow (m : Mach) : List Item := (List.range 10).flatMap fun i => sectNow m (i + 1)

/-- The first 8 bytes of the structural digest that phase 11 compares: of a structure that was written directly, the
digest that the check computes (R30, R37). -/
def checkDigest8 (m : Mach) : Nat :=
  if m.g GLB_STRUCT_STATUS_MODIFIED = 1 then structDigest (itemsNow m) % 2 ^ 64 else m.g (MLD_DIGEST_DIGEST 0)

/-! The consistency check (R35, R36). -/

/-- A refusal of the check. -/
structure Chk where
  reason : Nat
  phase : Nat
  sect : Nat
  item : Nat
  value : Nat := 0
  other : Nat := 0xFFFF
  addr : Nat := 0
  deriving DecidableEq, Repr

/-- A refusal at one item. -/
def Item.chk (it : Item) (phase reason : Nat) (value : Nat := 0) : Chk :=
  { reason := reason, phase := phase, sect := it.sect, item := it.idx, value := value }

/-- A refusal that compares an item with the earlier item `e` (R36). -/
def Item.chk2 (it e : Item) (phase reason : Nat) (value addr : Nat := 0) : Chk :=
  { it.chk phase reason value with other := e.idx, addr := addr }

/-- The items taken in order, each with those before it, to the first refusal. -/
def scan (f : List Item → Item → Option Chk) : List Item → List Item → Option Chk
  | _, [] => none
  | l, it :: t => match f l it with | some c => some c | none => scan f (l ++ [it]) t

/-- The items of a type. -/
def ofType (l : List Item) (t : Nat) : List Item := l.filter (·.typ = t)

/-- The first item of a type with a number. -/
def byKey (l : List Item) (t k : Nat) : Option Item := l.find? fun i => i.typ = t && i.key = k

/-- The lanes of a PORT item: the first and how many (Table 3.1). -/
def itLanes (it : Item) : Nat × Nat := let n := 2 ^ it.b 5; (2 * it.b 4 / n * n, n)

/-- Whether a PORT item covers lane `x`. -/
def itLane (it : Item) (x : Nat) : Bool := (itLanes it).1 ≤ x && x < (itLanes it).1 + (itLanes it).2

/-- Whether two PORT items share an octet. -/
def itOctet (a b : Item) : Bool :=
  (itLanes a).1 / 8 ≤ ((itLanes b).1 + (itLanes b).2 - 1) / 8 && (itLanes b).1 / 8 ≤ ((itLanes a).1 + (itLanes a).2 - 1) / 8

/-- LNK rules of one PORT item (phase 1). -/
def portRule (l : List Item) (it : Item) : Option Chk :=
  let (a, n) := itLanes it
  match (List.range n).findSome? (fun i => (l.find? (fun e => itLane e (a + i))).map (fun e => (a + i, e))) with
  | some (x, e) => some (it.chk2 e 1 0x0201 x)
  | none =>
    if 2 * it.b 4 % n ≠ 0 then some (it.chk 1 0x0202)
    else match l.find? (fun e => e.b 5 ≠ it.b 5 && itOctet e it) with
      | some e => some (it.chk2 e 1 0x0202)
      | none =>
        if (it.at 8 2 1 = 1 ∧ it.b 6 = 6) ∨ (it.b 7 = 3 ∧ 5 < it.b 6) then some (it.chk 1 0x0203) else none

/-- The downstream ports of a VCS item. -/
def itDown (it : Item) : List Nat := (List.range 128).filter fun p => it.at 8 p 1 = 1

/-- Whether an LD_BIND item binds an LD of port `p` to VCS `v`. -/
def bound (all : List Item) (p v : Nat) : Bool := (ofType all 0x22).any fun b => b.b 4 = p && b.b 6 = v

/-- Whether a port may stand below a switch: a PORT item defines it, and it is no host or analysis port. -/
def downOk (all : List Item) (p : Nat) : Bool :=
  match byKey all 0x11 p with
  | some q => q.b 7 ≠ 0 && q.b 7 ≠ 3
  | none => false

/-- LNK rules of one item of section 0x02 (phase 1). -/
def vcsRule (all l : List Item) (it : Item) : Option Chk :=
  if it.typ = 0x21 then
    let v := it.b 4
    let down := itDown it
    let up := byKey all 0x11 (it.b 5)
    if (up.map (·.b 7)) ≠ some 0 ∨ !(down.all (downOk all)) then some (it.chk 1 0x0204)
    else match byKey l 0x21 v with
      | some e => some (it.chk2 e 1 0x0205)
      | none =>
        match (ofType all 0x11).find? (fun q =>
          if q.key = it.b 5 then q.b 9 ≠ v
          else if down.contains q.key then q.b 9 ≠ v && !((ofType all 0x22).any fun b => b.b 4 = q.key)
          else q.b 9 = v && !bound all q.key v) with
        | some q => some (it.chk2 q 1 0x0205)
        | none =>
          ((ofType l 0x21).find? fun e => down.any fun p =>
            (itDown e).contains p && !(bound all p v && bound all p (e.b 4))).map fun e => it.chk2 e 1 0x0205
  else
    if !downOk all (it.b 4) then some (it.chk 1 0x0204)
    else match (ofType l 0x22).find? (fun e => e.b 4 = it.b 4 && e.b 5 = it.b 5) with
      | some e => some (it.chk2 e 1 0x0205)
      | none => if (byKey all 0x21 (it.b 6)).isNone then some (it.chk 1 0x0205) else none

/-- The items of a section. -/
def sect (l : List Item) (s : Nat) : List Item := l.filter (·.sect = s)

/-- Phase 1: LNK codes. -/
def phase1 (all : List Item) : Option Chk :=
  (scan portRule [] (sect all 1)).or (scan (vcsRule all) [] (sect all 2))

/-- Phase 2: XB codes. -/
def phase2 (all : List Item) : Option Chk :=
  let cls := ofType all 0x31
  let need := cls.foldl (fun a c => a + c.h 6) 0 * (ofType all 0x11).length + 8192
  (scan (fun l it =>
    if it.typ = 0x31 then
      if (cls.getLast?.map (·.idx)) = some it.idx ∧ 196608 < need then
        some (it.chk 2 0x0301 (Nat.min 0xFFFF ((need - 196608) / 64)))
      else (byKey l 0x31 it.key).map fun e => it.chk2 e 2 0x0302
    else if it.typ = 0x32 then
      if 8 ≤ (ofType l 0x32).length ∨ (byKey all 0x21 (it.b 4)).isNone then some (it.chk 2 0x0302) else none
    else if ((byKey all 0x11 (it.b 5)).map (·.b 7)) ≠ some 3 ∨ it.b 5 = it.b 6 then some (it.chk 2 0x0303)
    else (byKey l 0x33 it.key).map fun e => it.chk2 e 2 0x0303) [] (sect all 3)).or
  (((List.range 8).find? fun c => (byKey all 0x31 c).isNone).map fun c =>
    { reason := 0x0302, phase := 2, sect := 3, item := 0xFFFF, value := c })

/-- The last address of a range item, whose size is not 0. -/
def rangeEnd (it : Item) : Nat := it.q 8 + it.q 16 - 1

/-- Whether two RANGE items overlap. -/
def rangesMeet (a b : Item) : Bool :=
  a.q 16 ≠ 0 && b.q 16 ≠ 0 && a.q 8 ≤ rangeEnd b && b.q 8 ≤ rangeEnd a

/-- Whether a TWIN item asks for a pair. -/
def pairedItem (all : List Item) : Bool := (ofType all 0xA1).any fun t => t.at 4 0 1 = 1

/-- COH rules of one VCS item (phase 3). -/
def agentRule (all l : List Item) (it : Item) : Option Chk :=
  if it.typ ≠ 0x21 then none
  else
    let n := ((itDown it).filter fun p => ((byKey all 0x11 p).map (·.b 7)) = some 2).length
    match (ofType l 0x21).find? (fun e => it.b 6 ≤ 63 && e.b 6 = it.b 6) with
    | some e => some (it.chk2 e 3 0x0401)
    | none =>
      if 16 < n then some (it.chk 3 0x0401 n)
      else if ofType all 0x41 = [] ∧ it.b 7 ≠ 0 then some (it.chk 3 0x0403)
      else none

/-- COH rules of one item of section 0x04 (phase 3). -/
def cohRule (all l : List Item) (it : Item) : Option Chk :=
  if it.typ = 0x41 then
    ((ofType all 0x21).find? fun v => v.b 7 ≠ 0 && v.b 7 ≠ it.b 4).map fun v => it.chk2 v 3 0x0403
  else if it.typ = 0x42 then
    if (List.range 64).any (fun a => it.at 8 a 1 = 1 && !((ofType all 0x21).any fun v => v.b 6 = a)) then
      some (it.chk 3 0x0401)
    else match byKey l 0x42 it.key with
      | some e => some (it.chk2 e 3 0x0402)
      | none => if (ofType all 0x43).any (fun r => r.b 4 = it.key) then none else some (it.chk 3 0x0402)
  else
    if it.b 4 ≠ 0xFF ∧ (byKey all 0x42 (it.b 4)).isNone then some (it.chk 3 0x0402)
    else
      let hit (p : Item → Bool) := (ofType l 0x43).find? fun e => rangesMeet e it && p e
      match hit (fun e => e.b 4 = 0xFF || it.b 4 = 0xFF) with
      | some e => some (it.chk2 e 3 0x0404 0 (Nat.max (e.q 8) (it.q 8)))
      | none => (hit fun _ => true).map fun e => it.chk2 e 3 0x0405 0 (Nat.max (e.q 8) (it.q 8))

/-- Phase 3: COH codes. -/
def phase3 (all : List Item) : Option Chk :=
  ((scan (agentRule all) [] (sect all 2)).or (scan (cohRule all) [] (sect all 4))).or
  (if ofType all 0x41 = [] ∧ pairedItem all then some { reason := 0x0403, phase := 3, sect := 4, item := 0xFFFF } else none)

/-- RNG_TENANT of one RING item: its slice, and its pairing with a completion ring, taken at the later of the two. -/
def ringTenant (all l : List Item) (it : Item) : Option Chk :=
  let ok (s c : Item) : Bool := c.b 6 = 1 && c.b 8 = s.b 8
  if (byKey all 0x61 (it.b 8)).isNone then some (it.chk 4 0x0602)
  else
    let own : Option Chk :=
      if it.b 6 ≠ 0 then none
      else match byKey all 0x62 (it.h 12) with
        | none => some (it.chk 4 0x0602)
        | some c =>
          if ok it c then none
          else if c.idx < it.idx then some (it.chk2 c 4 0x0602)
          else if c.idx = it.idx then some (it.chk 4 0x0602) else none
    own.or (((ofType l 0x62).find? fun s =>
      s.b 6 = 0 && (byKey all 0x62 (s.h 12)).map (·.idx) = some it.idx && !ok s it).map fun s => it.chk2 s 4 0x0602)

/-- Phase 4: RNG codes. -/
def phase4 (all : List Item) : Option Chk :=
  scan (fun l it =>
    if it.typ = 0x61 then
      if (byKey all 0x21 (it.b 5)).isNone then some (it.chk 4 0x0603)
      else ((ofType l 0x61).find? fun e => e.b 5 = it.b 5 && e.at 8 0 20 = it.at 8 0 20).map fun e => it.chk2 e 4 0x0603
    else if it.typ = 0x62 then
      if it.q 16 % (2 ^ it.b 7 * 64) ≠ 0 then some (it.chk 4 0x0601) else ringTenant all l it
    else none) [] (sect all 6)

/-- Phase 5: KRB codes, on VALID windows (R293). -/
def phase5 (all : List Item) : Option Chk :=
  scan (fun l it =>
    let t := it.b 24
    match l.find? (fun e => e.b 24 = t && e.q 8 ≤ e.q 16 && it.q 8 ≤ it.q 16 && e.q 8 ≤ it.q 16 && it.q 8 ≤ e.q 16) with
    | some e => some (it.chk2 e 5 0x0801 t (Nat.max (e.q 8) (it.q 8)))
    | none =>
      if (byKey all 0x61 t).isNone then some (it.chk 5 0x0802)
      else if it.at 8 0 12 ≠ 0 ∨ it.at 16 0 12 ≠ 0xFFF ∨ it.q 16 < it.q 8 then some (it.chk 5 0x0803)
      else none) [] ((sect all 7).filter fun it => it.at 24 14 1 = 1)

/-- How far spans (first, last) cover from `x` without a gap. -/
def coverTo (spans : List (Nat × Nat)) : Nat → Nat → Nat
  | 0, x => x
  | n + 1, x =>
    match spans.find? (fun s => s.1 ≤ x && x ≤ s.2) with
    | some s => coverTo spans n (s.2 + 1)
    | none => x

/-- Phase 6: LM codes. -/
def phase6 (all : List Item) : Option Chk :=
  scan (fun _ it =>
    let a := it.q 8
    let e := a + Nat.max 1 (it.q 16)
    let spans := ((ofType all 0x71).filter fun w =>
      w.at 24 14 1 = 1 && w.at 24 11 1 = 1 && w.b 24 = it.b 6).map fun w => (w.q 8, w.q 16)
    let home := (ofType all 0x43).any fun r =>
      r.b 4 ≠ 0xFF && r.q 8 ≤ a && e ≤ r.q 8 + r.q 16 && ((byKey all 0x42 (r.b 4)).map (·.at 6 0 1)) = some 1
    if home ∧ e ≤ coverTo spans spans.length a then none else some (it.chk 6 0x0701)) [] (ofType all 0x63)

/-- The intervals of a GATE_LIST item. -/
def gateSum (it : Item) : Nat := (List.range (it.h 6)).foldl (fun a i => a + it.at (16 + 8 * i) 8 32) 0

/-- TM rules of one item (phase 7). -/
def tmItemRule (all l : List Item) (it : Item) : Option Chk :=
  let dup := (byKey l it.typ it.key).map fun e => it.chk2 e 7 0x0501
  if it.typ = 0x51 then
    let a := it.q 16
    let e := a + it.w 24 * 2 ^ 30
    if 201326592 < it.w 4 * 262144 + it.w 8 then some (it.chk 7 0x0502)
    else if a ≠ 0 ∧ it.w 24 ≠ 0 ∧
        !((ofType all 0x43).any fun r => r.b 5 = 0xFE && r.q 8 ≤ a && e ≤ r.q 8 + r.q 16) then some (it.chk 7 0x0504)
    else none
  else if it.typ = 0x52 then
    let nq := ((ofType all 0x54).filter fun q => ((byKey all 0x53 (q.h 6)).map (·.at 6 0 9)) = some it.key).length
    dup.or (
      if ((byKey all 0x11 (it.b 6)).map (·.b 7)) ≠ some 0 then some (it.chk 7 0x0501)
      else if it.b 7 = 0 ∧ 256 < nq then some (it.chk 7 0x0505) else none)
  else if it.typ = 0x53 then
    dup.or (if (byKey all 0x52 (it.at 6 0 9)).isNone then some (it.chk 7 0x0501) else none)
  else if it.typ = 0x54 then
    dup.or (if (byKey all 0x53 (it.h 6)).isNone then some (it.chk 7 0x0501) else none)
  else dup.or (
    match byKey all 0x52 it.key with
    | none => some (it.chk 7 0x0501)
    | some c => if gateSum it ≠ it.w 8 ∨ c.at 9 0 1 = 0 then some (it.chk 7 0x0503) else none)

/-- Phase 7: TM codes. -/
def phase7 (all : List Item) : Option Chk := scan (tmItemRule all) [] (sect all 5)

/-- The default of a domain by the items, and the item that sets it (R38). -/
def itDefault (all : List Item) (d : Nat) : Nat × Option Nat :=
  match ((ofType all 0x81).reverse.find? fun i => i.key = d) with
  | some i => (i.b 5, some i.idx)
  | none => (if d < 3 then 2 else 0, none)

/-- Whether the default of a domain allows that of one that requires it (R21). -/
def defOk (s r : Nat) : Bool := s = 0 || (if s = 2 then r = 2 else r ≠ 0)

/-- The breaches of phase 8: the domain, and the items that set its default and that of the domain it requires. -/
def breaches (all : List Item) : List (Nat × Option Nat × Option Nat) :=
  let st := fun d => (itDefault all d).1
  let at' := fun d => (itDefault all d).2
  let octs := (ofType all 0x11).flatMap fun p =>
    (List.range ((itLanes p).2 / 8 + 1)).filterMap fun i =>
      if i * 8 < (itLanes p).2 then some ((itLanes p).1 / 8 + i) else none
  (List.range 87).flatMap fun d =>
    let own := (d < 3 && st d ≠ 2) || (7 ≤ d && d ≤ 38 && octs.contains (d - 7) && st d ≠ 2) ||
      (39 ≤ d && d ≤ 70 && ofType all 0x42 ≠ [] && st d ≠ 2) || (d = 77 && ofType all 0x52 ≠ [] && st d ≠ 2) ||
      (needsXb d && !xbDomains.any fun x => defOk (st d) (st x))
    (if own then [(d, at' d, none)] else []) ++
      ((needsAll d).filter fun r => !defOk (st d) (st r)).map fun r => (d, at' d, at' r)

/-- A breach as it is reported: at the later of its items, with the earlier one. -/
def breachChk (b : Nat × Option Nat × Option Nat) : Chk :=
  let c (i o : Nat) : Chk := { reason := 0x0A01, phase := 8, sect := 8, item := i, value := b.1, other := o }
  match b.2.1, b.2.2 with
  | some a, some r => c (Nat.max a r) (Nat.min a r)
  | some a, none => c a 0xFFFF
  | none, _ => c 0xFFFF 0xFFFF

/-- Phase 8: PWR codes; the lowest item comes first, and domains that no item names come last. -/
def phase8 (all : List Item) : Option Chk :=
  ((breaches all).map breachChk).foldl (fun a c =>
    match a with
    | none => some c
    | some x => if c.item < x.item then some c else some x) none

/-- Phase 9: SLP codes, on enabled channels. -/
def phase9 (all : List Item) : Option Chk :=
  scan (fun _ it =>
    let uvr := it.h 8
    let uvf := it.h 10
    let ovr := it.h 12
    let ovf := it.h 14
    if ¬(uvf < uvr ∧ uvr < ovf ∧ ovf < ovr ∧ 9000 ≤ uvf ∧ ovr ≤ 15000) then some (it.chk 9 0x0B01)
    else if it.h 26 < it.h 20 then some (it.chk 9 0x0B02) else none) [] ((sect all 9).filter fun it => it.at 5 0 1 = 1)

/-- Phase 10: INT codes, against the fuse map (R365). -/
def phase10 (fz : Fuses) (all : List Item) : Option Chk :=
  let bad := (List.range 87).filter fun d => (itDefault all d).1 ≠ 0 && fz.defective.getD d false
  let named := (ofType all 0x81).filter fun it => bad.contains it.key && (itDefault all it.key).2 = some it.idx
  match named with
  | it :: _ => some (it.chk 10 0x0C01 it.key)
  | [] => (bad.find? fun d => (itDefault all d).2.isNone).map fun d =>
      { reason := 0x0C01, phase := 10, sect := 8, item := 0xFFFF, value := d }

/-- Phases 1 to 10 in order (R35). -/
def phases (fz : Fuses) (all : List Item) : Option Chk :=
  (phase1 all).or ((phase2 all).or ((phase3 all).or ((phase4 all).or ((phase5 all).or ((phase6 all).or ((phase7 all).or
    ((phase8 all).or ((phase9 all).or (phase10 fz all)))))))))

end Sys2Proof.Machine
end

