-- ==== Sys2Proof/Machine/Structure.lean ====
section
/-!
DEFINITION. Structure enable (R34-R40): the states of Table 2.5, the end of the check and phase 11, what APPLYING writes,
DISABLING, the commands of the loader (R32, R33, R44), and the staging memory.
-/
namespace Sys2Proof.Machine

/-! Results (R36, R45). -/

/-- The result of an enable, a check or a disable is shown. -/
def structShow (c : Option Chk) : P Unit := do
  let x := c.getD { reason := 0, phase := 0, sect := 0, item := 0 }
  wr GLB_STRUCT_STATUS_REASON x.reason
  wr GLB_STRUCT_STATUS_PHASE x.phase
  wr GLB_STRUCT_STATUS_SECTION x.sect
  wr GLB_STRUCT_STATUS_ITEM x.item
  wr GLB_STRUCT_DETAIL_VALUE x.value
  wr GLB_STRUCT_DETAIL_OTHER_ITEM x.other
  wr GLB_STRUCT_ADDR_ADDR x.addr

/-- A phase-0 reason (Table 2.7). -/
def phase0 (reason : Nat) : Chk := { reason := reason, phase := 0, sect := 0, item := 0 }

/-! APPLYING. -/

/-- The completion rings of the image (R243). -/
def compRings (m : Mach) : Nat := ((ofType (itemsNow m) 0x62).filter fun r => m.g (RNG_CFG_TYPE r.key) = 1).length

/-- The lowest-numbered event ring of a slice. -/
def eventRing (m : Mach) (s : Nat) : Option Nat :=
  (((ofType (itemsNow m) 0x62).filter fun r =>
    m.g (RNG_CFG_TYPE r.key) = 3 && m.g (RNG_CFG_SLICE r.key) = s).map (·.key)).min?

/-- Rings at APPLYING: HOLD, and the event ring of their slice (R243, Table 9.11). -/
def ringsApply : P Unit := do
  let m ← getM
  each ((ofType (itemsNow m) 0x62).map (·.key)) fun r => do
    let e := eventRing m (m.g (RNG_CFG_SLICE r))
    wr (RNG_CFG_HOLD r) (if m.g (RNG_CFG_TYPE r) = 1 then Nat.min 64 (1024 / compRings m) else 0)
    wr (RNG_CTL_EVENT_RING r) (e.getD 0)
    wr (RNG_CTL_EVENT_EN r) (if e.isSome then 1 else 0)
    wr (RNG_CTL_ENABLE r) 0
  each (List.range 256) fun s => do
    let e := eventRing m s
    wr (INT_SLICE_EVR_RING s) (e.getD 0)
    wr (INT_SLICE_EVR_EN s) (if e.isSome then 1 else 0)

/-- The slices with a SLICE item, in ascending number. -/
def slicesOf (m : Mach) : List Nat := (List.range 256).filter fun s => m.g (TEN_STATUS_VALID s) = 1

/-- The host slice of each VCS is fixed (R283). -/
def hostSlicesApply : P Unit := do
  let m ← getM
  each (List.range 64) fun v => do
    let h := (slicesOf m).find? fun s => m.g (TEN_STATUS_VCS s) = v
    wr (KRB_HOST_SLICE_SLICE v) (h.getD 0)
    wr (KRB_HOST_SLICE_VALID v) (if h.isSome then 1 else 0)
  each (slicesOf m) fun s =>
    wr (TEN_STATUS_HOST s) (if ((slicesOf m).find? fun t => m.g (TEN_STATUS_VCS t) = m.g (TEN_STATUS_VCS s)) = some s
      then 1 else 0)

/-- The windows of the image are in force at once: the committed copy takes the staged one (R290). -/
def windowsApply : P Unit := do
  let m ← getM
  each m.regs fun e => onlyIf (e.1.k = .KRB_CWIN) (rstReg .KRB_CWIN e.1.i)
  each m.regs fun e => onlyIf (e.1.k = .KRB_WIN) (wrReg .KRB_CWIN e.1.i e.2.toNat)

/-- The gate lists of the image are written to bank 0, which becomes active with BASE 0 s 0 ns (R213). -/
def gatesApply : P Unit := do
  let m ← getM
  each (ofType m.ldr.items 0x55) fun g => do
    let b := g.key * 2
    wr (TM_GATE_A_BASE_NS b) 0
    wr (TM_GATE_A_CYCLE_NS b) (g.w 8)
    wr (TM_GATE_B_BASE_SEC b) 0
    wr (TM_GATE_B_ENTRIES b) (g.h 6)
    wr (TM_GATE_CTL_BANK g.key) 0
    wr (TM_GATE_CTL_PENDING g.key) 0
    wr (TM_GATE_CTL_STARTED g.key) 0
    each (List.range (g.h 6)) fun i =>
      putGcl (b * 1024 + i) (g.at (16 + 8 * i) 0 8, g.at (16 + 8 * i) 8 32)

/-- Entry to APPLYING. ALLOW_RET is written from the DOMAIN_DEFAULT items, the last of a domain counting, before the first
request (R38). -/
def applyStart : P Unit := do
  wr GLB_STRUCT_STATUS_STATE stAPPLYING
  each (← getM).domDef fun e => wr (PWR_DOM_CTL_ALLOW_RET e.1) (if e.2.2 then 1 else 0)
  xbApply
  ringsApply
  hostSlicesApply
  windowsApply
  gatesApply
  shapersApply
  slpApply
  let m ← getM
  wr TWN_SPN_CTL_ENABLE (if m.g TWN_CFG_PAIRED = 1 ∧ fenced m = false then 1 else 0)
  applyAdvance

/-- APPLYING_DONE: every defaulted domain has reached its default or failed; the blocks are released (R34, R38, R59). -/
def applyingDone : P Unit := do
  let m ← getM
  if m.g GLB_STRUCT_STATUS_STATE = stAPPLYING ∧ applyReached m = true then
    wr GLB_STRUCT_STATUS_STATE stENABLED
    structShow none
    each (slicesOf m) fun s => do
      wr (TEN_CTL_ENABLE s) 1
      sliceOn s
    each ((List.range 128).filter fun p => m.g (OCT_PORT_CFG_VALID p) = 1) fun p => do
      wr (OCT_PORT_CTL_TARGET_RATE p) (m.g (OCT_PORT_CFG_RATE_MAX p))
      onlyIf (fenced m = false) (do
        wr (OCT_PORT_CTL_ENABLE p) 1
        wr (OCT_PORT_TRAIN_ATTEMPTS p) 0)
    roleEnable
    roleEval
    spnKick
    each (List.range 128) portKick

/-! The check. -/

/-- The check ends: a dry run shows its result; an enable is refused or goes to APPLYING (Table 2.5, R40). -/
def checkFinish (dry : Bool) (c : Option Chk) : P Unit := do
  modLdr fun x => { x with checking := none, listening := false }
  if dry then do
    structShow c
    wr GLB_STRUCT_STATUS_DRY_OK (if c.isNone then 1 else 0)
  else match c with
    | some r => do
      structShow (some r)
      wr GLB_STRUCT_STATUS_STATE stDISABLED
      wr GLB_STRUCT_CTL_ENABLE 0
      inc GLB_STRUCT_STATUS_REFUSALS
    | none => applyStart

/-- A phase-11 refusal. -/
def phase11Chk (reason : Nat) : Chk := { reason := reason, phase := 11, sect := 10, item := 0 }

/-- What phase 11 finds with a valid heartbeat seen (R37): some answer, or none while the slot of this twin's CHECKING is
not known. `last` closes the question: this twin's CHECKING then lies in a later slot than any it has seen. -/
def phase11Verdict (m : Mach) (dry last : Bool) : Option (Option Chk) :=
  if partnerTwin m = twinNo m then some (some (phase11Chk 0x0901))
  else if m.g TWN_WHL_DIGEST_DIGEST8 = checkDigest8 m then some none
  else
    let st := partnerStruct m
    if st = stAPPLYING ∨ st = stENABLED then some (some (phase11Chk 0x0902))
    else if st = stCHECKING then
      match m.whl.myChk, m.whl.pChk with
      | some a, some p => some (if p ≤ a then some (phase11Chk 0x0902) else none)
      | _, _ => if dry ∨ last then some (some (phase11Chk 0x0902)) else none
    else some none

/-- Phase 11 looks at what has been heard. -/
def phase11Eval (last : Bool) : P Unit := do
  let m ← getM
  match m.ldr.checking with
  | some dry =>
    if m.ldr.listening then
      if m.ldr.heard then
        match phase11Verdict m dry last with
        | some c => checkFinish dry c
        | none => pure ()
      else onlyIf (last = true) (checkFinish dry none)
  | none => pure ()

/-- STRUCT_CHECK_DONE: phases 1 to 10 end; a paired image then listens for the partner (R35, R37). -/
def structCheckDone : P Unit := do
  let m ← getM
  match m.ldr.checking with
  | some dry =>
    if m.ldr.listening = false then
      match phases m.fuse (itemsNow m) with
      | some c => checkFinish dry (some c)
      | none =>
        if m.g TWN_CFG_PAIRED = 1 then modLdr fun x => { x with listening := true, heard := false }
        else checkFinish dry none
  | none => pure ()

/-- PHASE11_LISTEN_END: 100 us of listening end (R37). -/
def phase11ListenEnd : P Unit := phase11Eval true

/-- HEARTBEAT with phase 11 (R37). -/
def heartbeatRow (fault : Nat) (h : Heartbeat) (k27 : Nat) : P Unit := do
  heartbeatIn fault h k27
  phase11Eval false

/-- HEARTBEAT_SEND with phase 11: the slot of this twin's CHECKING may now be known (R37). -/
def heartbeatSendRow : P Unit := do
  heartbeatSend
  phase11Eval false

/-- A check starts: an enable goes to CHECKING, where a load counts for it; a dry run leaves STATE and runs its phases over
the registers whether a load counts or not (Table 2.5, R40). The digest of a structure that was written directly is
computed anew (R30). -/
def checkStart (dry : Bool) : P Unit := do
  let m ← getM
  if m.ldr.accepted = false ∧ dry = false then do
    structShow (some (phase0 rcNOT_LOADED))
    wr GLB_STRUCT_CTL_ENABLE 0
  else do
    onlyIf (dry = false) (do
      wr GLB_STRUCT_STATUS_STATE stCHECKING
      onlyIf (m.g GLB_STRUCT_STATUS_MODIFIED = 1) (do
        let d := structDigest (itemsNow m)
        each (List.range 6) fun i => wr (MLD_DIGEST_DIGEST i) (bitsAt d (64 * i) 64))
      modWhl fun x => { x with myChk := none })
    modLdr fun x => { x with checking := some dry, listening := false }

/-! DISABLING. -/

/-- Whether every port and every ring is disabled (Table 2.5). -/
def allDisabled (m : Mach) : Bool :=
  (List.range 128).all (fun p => m.g (OCT_PORT_STATUS_STATE p) = psOFF || m.g (OCT_PORT_STATUS_STATE p) = psDISABLED) &&
    m.regs.all (fun e => e.1.k ≠ .RNG_STATUS || m.g (RNG_STATUS_STATE e.1.i) = rsDISABLED)

/-- Entry to DISABLING (R34); ENABLE reads 1 until it ends. -/
def disableStart : P Unit := do
  wr GLB_STRUCT_STATUS_STATE stDISABLING
  wr GLB_STRUCT_CTL_ENABLE 1
  wr TWN_SPN_CTL_ENABLE 0
  spnOff
  each (List.range 256) fun s => wr (TM_SRING_CTL_ENABLE s) 0
  disableAdvance

/-- DISABLING_DONE: every domain other than AO, MGMT and CORE is drained and OFF (R34). -/
def disablingDone : P Unit := do
  let m ← getM
  if m.g GLB_STRUCT_STATUS_STATE = stDISABLING ∧ disableReached m = true then
    wr GLB_STRUCT_STATUS_STATE stDISABLED
    wr GLB_STRUCT_CTL_ENABLE 0
    structShow none
    roleDisable

/-! GLB_STRUCT_CTL (Table 2.5, R39, R40). -/

/-- Whether structure is CHECKING, APPLYING or DISABLING (R39). -/
def structBusy (m : Mach) : Bool :=
  let s := m.g GLB_STRUCT_STATUS_STATE
  s = stCHECKING || s = stAPPLYING || s = stDISABLING

/-- The rules of a write to GLB_STRUCT_CTL. -/
def structRule (m : Mach) (new : Nat) : Nat :=
  if structBusy m ∨ m.ldr.checking.isSome then rcSTRUCT_BUSY
  else if bitsAt new 1 1 = 1 ∧ (bitsAt new 0 1 = 1 ∨ m.g GLB_STRUCT_CTL_ENABLE = 1) then rcSTRUCT_BUSY
  else if m.g GLB_STRUCT_STATUS_STATE = stENABLED ∧ bitsAt new 0 1 = 0 ∧ allDisabled m = false then rcIN_USE
  else rcOK

/-- The effect of an accepted write to GLB_STRUCT_CTL; `cmd` holds the bits written. -/
def structEffect (cmd : Nat) : P Unit := do
  let m ← getM
  let en := m.g GLB_STRUCT_CTL_ENABLE
  if bitsAt cmd 1 1 = 1 then checkStart true
  else if m.g GLB_STRUCT_STATUS_STATE = stDISABLED ∧ en = 1 then checkStart false
  else onlyIf (m.g GLB_STRUCT_STATUS_STATE = stENABLED ∧ en = 0) disableStart

/-! The loader's commands (R32, R33, R39, Table 2.5). -/

/-- MLD_STATUS at the end of a load. -/
def loadShow (state reason sect item : Nat) (pol partial' : Bool) : P Unit := do
  wr MLD_STATUS_STATE state
  wr MLD_STATUS_REASON reason
  wr MLD_STATUS_SECTION sect
  wr MLD_STATUS_ITEM item
  wr MLD_STATUS_POLICY_ONLY (if pol then 1 else 0)
  wr MLD_STATUS_PARTIAL (if partial' then 1 else 0)

/-- A load starts: 1 flash copy A, 2 flash copy B, 3 the staging memory; `code` names the source that issued it. -/
def loadStart (cmd code : Nat) : P Unit := do
  modLdr fun x => { x with running := some (cmd, code) }
  wr MLD_STATUS_STATE 1

/-- The Meldel boot load: the copy that PREFER_B selects, then the other (R32). -/
def bootLoad : P Unit := do
  let m ← getM
  onlyIf (m.ldr.running.isNone = true ∧ structBusy m = false) (do
    modLdr fun x => { x with boot := 1 }
    loadStart (1 + m.g MLD_CTL_PREFER_B) 3)

/-- The rules of an MLD_CTL write. -/
def mldRule (m : Mach) (new : Nat) : Nat :=
  let c := bitsAt new 0 4
  if c = 0 then rcOK
  else if c = 4 then
    (if m.ldr.fence ≠ 0 ∨ m.g GLB_STRUCT_STATUS_STATE = stAPPLYING ∨ m.g GLB_STRUCT_STATUS_STATE = stDISABLING
     then rcSTRUCT_BUSY else rcOK)
  else if structBusy m ∨ m.ldr.running.isSome then rcSTRUCT_BUSY
  else rcOK

/-- ABORT: a load that runs stops before its write pass, and a check ends as a refusal (R33, R39). -/
def abortLoad : P Unit := do
  let m ← getM
  onlyIf (m.ldr.running.isSome = true) (do
    modLdr fun x => { x with running := none, boot := 0 }
    loadShow 3 rcSTRUCT_BUSY 0 0 false false)
  onlyIf (m.g GLB_STRUCT_STATUS_STATE = stCHECKING) (checkFinish false (some (phase0 rcSTRUCT_BUSY)))

/-- The effect of an accepted MLD_CTL write: `cmd` holds the bits written, `code` the source. -/
def mldEffect (cmd code : Nat) : P Unit :=
  let c := bitsAt cmd 0 4
  if c = 4 then abortLoad else if 1 ≤ c ∧ c ≤ 3 then loadStart c code else pure ()

/-! Staging memory (R24, R32, R45). -/

/-- MLD_STAGE_DATA is written: one word, and ADDR advances. -/
def stageWrite (v : Word) : P Unit := do
  let m ← getM
  putStage (m.g MLD_STAGE_ADDR_ADDR) v
  wr MLD_STAGE_DATA_DATA 0
  wr MLD_STAGE_ADDR_ADDR (m.g MLD_STAGE_ADDR_ADDR + 1)

/-- MLD_STAGE_DATA is read. -/
def stageRead : P Nat := do
  let m ← getM
  wr MLD_STAGE_ADDR_ADDR (m.g MLD_STAGE_ADDR_ADDR + 1)
  return (m.getStage (m.g MLD_STAGE_ADDR_ADDR)).toNat

/-- The bytes of a word. -/
def wordBytes (w : Word) : List Nat := (List.range 8).map fun i => bitsAt w.toNat (8 * i) 8

/-- The image in the staging memory: as many whole words as TOTAL_LENGTH takes. -/
def stageImage (m : Mach) : List Nat :=
  let total := bitsAt (m.getStage 1).toNat 32 32
  (List.range (Nat.min 524288 (Nat.max 16 ((total + 7) / 8)))).flatMap fun i => wordBytes (m.getStage i)

end Sys2Proof.Machine
end

