-- ==== Sys2Proof/Machine/Mgmt.lean ====
section
/-!
DEFINITION. The management complex (17_bringup_firmware_observability.md): the boot ROM and the Fichesyn copies (R414-R417),
the watchdogs and core resets (R412, R419), and the mailbox channels (R420).
-/
namespace Sys2Proof.Machine

/-- Management states of FWM_BOOT_STATUS.STAGE. -/
abbrev fsROM : Nat := 0
abbrev fsLOADING : Nat := 1
abbrev fsRUNNING : Nat := 2
abbrev fsNO_IMAGE : Nat := 3

/-! Bytes of the management SRAM. -/

/-- `n` bytes of SRAM from offset `o`. -/
def sramBytes (m : Mach) (o n : Nat) : List Nat :=
  (List.range n).map fun i => bitsAt (m.getSram ((o + i) / 8)).toNat (8 * ((o + i) % 8)) 8

/-- Bytes are stored into SRAM from offset `o`. -/
def sramPut (o : Nat) (bs : List Nat) : P Unit :=
  each bs.zipIdx fun b =>
    modSram ((o + b.2) / 8) fun w => w64 (putBits w.toNat (8 * ((o + b.2) % 8)) 8 b.1)

/-! Fichesyn images (R416). -/

/-- The reason for which the ROM refuses a Fichesyn image, or OK. -/
def fsynCheck (fz : Fuses) (bs : List Nat) : Nat :=
  let len := leAt bs 8 4
  let entry := leAt bs 24 4
  if 2097152 < len ∨ bs.length < len ∨ len < 272 ∨ len ≤ entry then 0x0107
  else if leAt bs 0 4 ≠ 0x4E595346 ∨ leAt bs 4 1 ≠ 1 then 0x0102
  else if leAt bs 6 2 ≠ 0x9600 then 0x0105
  else if sigOk fz bs (len - 208) = false then 0x0101
  else if leAt bs 12 4 < fz.fwSvnMin then 0x0106
  else rcOK

/-- Fichesyn runs: the ROM starts the Meldel boot load, or after a warm reset with AUTO_REAPPLY the reload of the staging
copy (R44), releases cores 1-3 and jumps to the entry point (R414 step 5). -/
def firmwareStart (fromB : Bool) (bs : List Nat) : P Unit := do
  let m ← getM
  wr FWM_BOOT_STATUS_STAGE fsRUNNING
  wr FWM_BOOT_STATUS_FROM_B (if fromB then 1 else 0)
  wr FWM_SVN_SVN (leAt bs 12 4)
  wr FWM_VERSION_BUILD_ID (leAt bs 16 8)
  modMgx fun x => { x with attempt := 0, hash := Config.sha384 (bs.take (leAt bs 8 4)) }
  if m.g MLD_CTL_AUTO_REAPPLY = 1 ∧ m.g PWR_RESET_CAUSE_PORST = 0 ∧ m.g PWR_RESET_CAUSE_BROWNOUT = 0 then
    onlyIf (m.ldr.running.isNone = true ∧ structBusy m = false) (loadStart 3 3)
  else bootLoad
  each (List.range 4) fun c => emit (.coreStart c false)

/-- The ROM starts on core 0 (R414 step 3) and tries the copy that PREFER_B selects (R416). -/
def romStart : P Unit := do
  wr FWM_BOOT_STATUS_STAGE fsLOADING
  modMgx fun x => { x with attempt := 1 }
  emit (.coreStart 0 true)

/-- FIRMWARE_COPY_DONE: the copy that the ROM reads is accepted, or refused and the other tried (R416, R417). -/
def firmwareCopyDone (bs : List Nat) : P Unit := do
  let m ← getM
  let t := m.mgx.attempt
  if m.g FWM_BOOT_STATUS_STAGE = fsLOADING ∧ t ≠ 0 then
    let b := (m.g FWM_BOOT_CTL_PREFER_B + t + 1) % 2
    let r := fsynCheck m.fuse bs
    if r = rcOK then do
      sramPut 0 (bs.take (leAt bs 8 4))
      firmwareStart (b = 1) bs
    else do
      wr (if b = 1 then FWM_BOOT_STATUS_B_REFUSED else FWM_BOOT_STATUS_A_REFUSED) 1
      wr (if b = 1 then FWM_BOOT_STATUS_REASON_B else FWM_BOOT_STATUS_REASON_A) r
      raise (((ev 0x12 2 0x0183).b24 b).h26 r)
      if t = 1 then modMgx fun x => { x with attempt := 2 }
      else do
        modMgx fun x => { x with attempt := 0 }
        wr FWM_BOOT_STATUS_STAGE fsNO_IMAGE
        raise (ev 0x12 2 0x0184)

/-! Mailboxes (R420). -/

/-- The opcode, the length in words and the tag of the request in channel `x`. -/
def mbOp (m : Mach) (x : Nat) : Nat := bitsAt (m.g (FWM_MB_REQ_DATA (x * 32))) 0 16
def mbLen (m : Mach) (x : Nat) : Nat := Nat.min 31 (bitsAt (m.g (FWM_MB_REQ_DATA (x * 32))) 16 8)
def mbTag (m : Mach) (x : Nat) : Nat := bitsAt (m.g (FWM_MB_REQ_DATA (x * 32))) 24 8

/-- The words of the request after word 0. -/
def mbWords (m : Mach) (x : Nat) : List Nat := (List.range (mbLen m x)).map fun w => m.g (FWM_MB_REQ_DATA (x * 32 + 1 + w))

/-- The command in channel `x` completes: its response is written, DONE is set and BUSY cleared. -/
def mbDone (x status : Nat) (payload : List Nat) : P Unit := do
  let m ← getM
  let p := payload.take 31
  wr (FWM_MB_RSP_DATA (x * 32)) (mbOp m x + p.length * 2 ^ 16 + mbTag m x * 2 ^ 24 + status % 2 ^ 16 * 2 ^ 32)
  each p.zipIdx fun e => wr (FWM_MB_RSP_DATA (x * 32 + 1 + e.2)) e.1
  wr (FWM_MB_CTL_DONE x) 1
  wr (FWM_MB_CTL_BUSY x) 0
  emit (.mgmt 3 status p)

/-- The opcodes that the ROM serves on channel 0 (R417). -/
def romOps : List Nat := [0x00F0, 0x00F1]

/-- Whether channel `x` waits on the opcode `op` with firmware, or for the ROM's opcodes with the ROM, to serve it. -/
def mbServes (m : Mach) (x op : Nat) : Bool :=
  m.g (FWM_MB_CTL_BUSY x) = 1 && mbOp m x = op &&
    (if romOps.contains op then x = 0 && m.g FWM_BOOT_STATUS_STAGE = fsNO_IMAGE
     else m.g FWM_BOOT_STATUS_STAGE = fsRUNNING)

/-- GO: BUSY is set. While no firmware runs, the command completes with IMG_STRUCT_BUSY, but for the ROM's two commands
on channel 0 (R417, R419). -/
def mbGo (x : Nat) : P Unit := do
  wr (FWM_MB_CTL_BUSY x) 1
  let m ← getM
  let st := m.g FWM_BOOT_STATUS_STAGE
  onlyIf (st ≠ fsRUNNING ∧ ¬(st = fsNO_IMAGE ∧ x = 0 ∧ mbOp m x ∈ romOps)) (mbDone x rcSTRUCT_BUSY [])

/-- RECOVERY_WRITE: 240 bytes (words 2-31) to the SRAM offset that word 1 gives (R417). -/
def recoveryWrite : P Unit := do
  let m ← getM
  if mbServes m 0 0x00F0 then
    let o := m.g (FWM_MB_REQ_DATA 1)
    if 8388608 < o + 240 then mbDone 0 rcIMG_LIMIT []
    else do
      sramPut o ((List.range 240).map fun i => bitsAt (m.g (FWM_MB_REQ_DATA (2 + i / 8))) (8 * (i % 8)) 8)
      mbDone 0 rcOK []

/-- The image that stands at SRAM offset 0, as long as its LENGTH says. -/
def sramImage (m : Mach) : List Nat := sramBytes m 0 (Nat.min 2097152 (Nat.max 64 (bitsAt (m.getSram 1).toNat 0 32)))

/-- RECOVERY_BOOT: the SRAM image is verified and started (R417). -/
def recoveryBoot : P Unit := do
  let m ← getM
  if mbServes m 0 0x00F1 then
    let bs := sramImage m
    let r := fsynCheck m.fuse bs
    mbDone 0 r []
    onlyIf (r = rcOK) (firmwareStart false bs)

/-- A mailbox command that firmware serves, with the status and payload of its answer. -/
def mbServe (x op status : Nat) (payload : List Nat) : P Unit := do
  let m ← getM
  onlyIf (mbServes m x op = true) (mbDone x status payload)

/-- GET_VERSION: firmware BUILD_ID and SVN, image BUILD_ID (Table 17.5). -/
def getVersion (x : Nat) : P Unit := do
  let m ← getM
  mbServe x 0x0001 rcOK [m.g FWM_VERSION_BUILD_ID, m.g FWM_SVN_SVN, m.g MLD_BUILD_ID_BUILD_ID]

/-- GET_STATE: structure, role and the state of every domain, 4 bits each, 16 a word (Table 17.5). -/
def getState (x : Nat) : P Unit := do
  let m ← getM
  mbServe x 0x0002 rcOK ([(m.rd ⟨.GLB_STRUCT_STATUS, 0⟩).toNat, (m.rd ⟨.TWN_ROLE, 0⟩).toNat] ++
    (List.range 6).map fun w => ((List.range 16).map fun j => domSt m (16 * w + j) * 2 ^ (4 * j)).sum)

/-- A SET command: firmware accepts the policy in the request and holds it, or answers with its refusal. -/
def setPolicy (x op status : Nat) : P Unit := do
  let m ← getM
  if mbServes m x op then
    onlyIf (status = rcOK) (modMgx fun g =>
      { g with policy := (op, mbWords m x) :: g.policy.filter (fun e => e.1 ≠ op) })
    mbDone x status []

/-- FLASH_UPDATE: firmware writes the staged image to the flash copy that word 1 names (R415, Table 17.5). -/
def flashUpdate (x status : Nat) : P Unit := do
  let m ← getM
  if mbServes m x 0x0050 then
    onlyIf (status = rcOK) (emit (.flash (bitsAt (m.g (FWM_MB_REQ_DATA (x * 32 + 1))) 0 2) (stageImage m)))
    mbDone x status []

/-- The opcodes of Table 17.5. -/
def mbOpcodes : List Nat := [0x0001, 0x0002, 0x0010, 0x0011, 0x0020, 0x0030, 0x0040, 0x0050, 0x0051]

/-- MAILBOX_UNKNOWN_OPCODE: an opcode outside Table 17.5, or a ROM command while firmware runs, completes with
IMG_LIMIT (R420). -/
def mbUnknown (x : Nat) : P Unit := do
  let m ← getM
  onlyIf (m.g (FWM_MB_CTL_BUSY x) = 1 ∧ m.g FWM_BOOT_STATUS_STAGE = fsRUNNING ∧ mbOp m x ∉ mbOpcodes)
    (mbDone x rcIMG_LIMIT [])

/-- MAILBOX_TIMEOUT: the hardware completes the command (R420). -/
def mbTimeout (x : Nat) : P Unit := do
  let m ← getM
  onlyIf (m.g (FWM_MB_CTL_BUSY x) = 1) (do
    let op := mbOp m x
    mbDone x rcIMG_BUSY []
    raise (((ev 0x12 0 0x0187).b24 x).h26 op))

/-! Watchdogs and core resets (R412, R419). -/

/-- The management complex is reset (Table 17.1, Table 19.4), and the ROM starts again. -/
def mgmtReset : P Unit := do
  let m ← getM
  let n := Nat.min 255 (m.g FWM_BOOT_STATUS_WDOG_RESETS + 1)
  rstReg .FWM_BOOT_STATUS 0
  wr FWM_BOOT_STATUS_WDOG_RESETS n
  wr FWM_SVN_SVN 0
  wr FWM_VERSION_BUILD_ID 0
  each (List.range 4) fun c => rstReg .FWM_WDOG c
  each (List.range 2) fun x => do
    rstReg .FWM_MB_CTL x
    each (List.range 32) fun w => do
      rstReg .FWM_MB_REQ (x * 32 + w)
      rstReg .FWM_MB_RSP (x * 32 + w)
  wr INT_EVQ_BASE_EN 0
  modMgx fun x => { x with attempt := 0, hit := [false, false, false, false], hash := 0, policy := [] }
  raise (ev 0x12 2 0x0186)
  romStart

/-- WATCHDOG_EXPIRY: the watchdog of core `c` expires (R419). -/
def watchdogExpiry (c : Nat) : P Unit := do
  let m ← getM
  if m.g (FWM_WDOG_PERIOD c) ≠ 0 then
    if m.mgx.hit.getD c false then mgmtReset
    else do
      modMgx fun x => { x with hit := setB x.hit c true }
      wr (FWM_WDOG_EXPIRED c) 1
      emit (.nmi c)
      raise ((ev 0x12 2 0x0185).b24 c)

/-! The FWM registers (R420, R435). -/

/-- Whether a path is the own source of mailbox channel `x`: the BMC of channel 0, the fabric manager of channel 1. -/
def mbOwn (m : Mach) (x : Nat) (p : Path) : Bool :=
  match p with
  | .bmc => x = 0
  | .fmVdm _ | .bar0 _ => x = 1 && pathCode m p = 5
  | _ => false

/-- The rules of a write to an FWM register; `mask` holds the bits covered. -/
def fwmRule (m : Mach) (k : RegKind) (i new mask : Nat) (p : Path) : Nat :=
  match k with
  | .FWM_WDOG =>
    if (bitsAt mask 0 14 ≠ 0 ∨ bitsAt (new &&& mask) 16 1 = 1) ∧ p ≠ .firmware i then rcIMG_LIMIT else rcOK
  | .FWM_CORE_CTL =>
    match p with
    | .firmware c => if bitsAt new c 1 = 1 then rcIMG_LIMIT else rcOK
    | _ => if bitsAt new 0 4 = 0 then rcOK else rcIMG_LIMIT
  | .FWM_SPI_ADDR | .FWM_SPI_DATA | .FWM_SPI_CMD => if pathCode m p = 3 then rcOK else rcIMG_LIMIT
  | .FWM_MB_CTL =>
    if mbOwn m i p = false then rcIMG_LIMIT
    else if bitsAt new 0 1 = 1 ∧ m.g (FWM_MB_CTL_BUSY i) = 1 then rcIMG_BUSY
    else rcOK
  | .FWM_MB_REQ =>
    if mbOwn m (i / 32) p = false then rcIMG_LIMIT
    else if m.g (FWM_MB_CTL_BUSY (i / 32)) = 1 then rcIMG_BUSY
    else rcOK
  | .FWM_MB_RSP => if pathCode m p = 3 then rcOK else rcIMG_LIMIT
  | _ => rcOK

/-- The effect of an accepted write to an FWM register; `cmd` holds the bits written. -/
def fwmEffect (k : RegKind) (i cmd : Nat) : P Unit :=
  match k with
  | .FWM_WDOG => onlyIf (bitsAt cmd 16 1 = 1) (modMgx fun x => { x with hit := setB x.hit i false })
  | .FWM_CORE_CTL => each (List.range 4) fun c => onlyIf (bitsAt cmd c 1 = 1) (emit (.coreStart c false))
  | .FWM_MB_CTL => onlyIf (bitsAt cmd 0 1 = 1) (mbGo i)
  | _ => pure ()

end Sys2Proof.Machine
end

