-- ==== Sys2Proof/Machine/Observe.lean ====
section
/-!
DEFINITION. Observation and test (17_bringup_firmware_observability.md): the configuration rules of the performance
counters (R426-R428), the counter pages (R429), the Census (R430), the built-in self-test (R431), the debug unlock
(R432) and the trace (R433).
-/
namespace Sys2Proof.Machine

/-! Performance counters. -/

/-- What an event carries (Table 17.8): privilege, port, agent, engine, address, class. -/
def pmuCarries : Nat → List Bool
  | 0x02 | 0x03 => [true, true, false, true, true, true]
  | 0x04 | 0x05 => [true, true, false, false, true, true]
  | 0x06 | 0x07 => [true, false, true, false, true, true]
  | 0x08 => [false, false, true, false, true, false]
  | 0x09 | 0x0A => [true, false, false, true, true, false]
  | 0x0B | 0x0C | 0x0D => [true, true, false, false, false, true]
  | 0x0E => [true, false, false, true, false, false]
  | 0x0F => [true, true, false, true, true, false]
  | 0x10 => [false, true, false, false, false, true]
  | 0x11 | 0x12 => [true, false, true, false, true, true]
  | _ => [false, false, false, false, false, false]

/-- Whether filter `f` asks only for what event `e` carries (R427). -/
def filterFits (m : Mach) (f e : Nat) : Bool :=
  let has (i : Nat) : Bool := (pmuCarries e).getD i false
  f = 0 ||
    ((m.g (PMU_FLT_PRIV_KIND f) = 0 || has 0) &&
     (m.g (PMU_FLT_MASTER_KIND f) = 0 || has (m.g (PMU_FLT_MASTER_KIND f))) &&
     (m.g (PMU_FLT_WIN_EN f) = 0 || has 4) &&
     (m.g (PMU_FLT_CLASS_MASK f) = 0xFF || has 5))

/-- Whether the identifiers of a filter lie in their ranges (R8): a VCS, a port, an agent or the Kiosk, an engine. -/
def filterIds (new : Nat) : Bool :=
  (bitsAt new 0 2 ≠ 2 || bitsAt new 8 8 < 64) &&
    (match bitsAt new 16 2 with
     | 1 => bitsAt new 24 8 < 128
     | 2 => bitsAt new 24 8 ≤ 64
     | 3 => bitsAt new 24 8 < 64
     | _ => true)

/-- The rules of a write to a PMU register (R427, R428, R435). -/
def pmuRule (m : Mach) (k : RegKind) (i new mask : Nat) : Nat :=
  match k with
  | .PMU_FLT => if i = 0 ∨ filterIds new = false then rcIMG_LIMIT else rcOK
  | .PMU_FLT_BASE | .PMU_FLT_LIMIT => if i = 0 then rcIMG_LIMIT else rcOK
  | .PMU_CFG =>
    if (List.range 4).all fun c =>
      let v := bitsAt new (16 * c) 16
      let e := bitsAt v 0 8
      bitsAt mask (16 * c) 16 = 0 ||
        (e ≤ 0x12 && filterFits m (bitsAt v 8 6) e &&
          (m.g (PMU_BANK_CFG_OWNED (i / 16)) = 0 || bitsAt v 15 1 = 0 || (pmuCarries e).getD 0 false))
    then rcOK else rcIMG_LIMIT
  | .PMU_BANK_CFG =>
    let s := bitsAt new 0 8
    let others := (List.range 64).filter fun b =>
      b ≠ i && m.g (PMU_BANK_CFG_OWNED b) = 1 && m.g (PMU_BANK_CFG_OWNER b) = s
    if bitsAt new 8 1 = 1 ∧ 8 ≤ others.length then rcIMG_LIMIT else rcOK
  | _ => rcOK

/-- PMU_CTL.CLR_ALL: every counter and overflow bit is cleared, and CENSUS_SKIP is re-armed (R426, R430, R435). -/
def pmuClear : P Unit := do
  let m ← getM
  each m.regs fun r => onlyIf (r.1.k ∈ [RegKind.PMU_CNT, .PMU_BANK_OVF]) (rstReg r.1.k r.1.i)
  wr PMU_CENSUS_STATUS_SKIPPED 0

/-- The effect of an accepted write to a PMU register: OWNED clears EN of counters that carry no privilege (R428), and
EN of the Census starts its ticks anew (R430). -/
def pmuEffect (k : RegKind) (i old cmd : Nat) : P Unit := do
  let m ← getM
  match k with
  | .PMU_CTL => onlyIf (bitsAt cmd 0 1 = 1) pmuClear
  | .PMU_BANK_CFG => onlyIf (m.g (PMU_BANK_CFG_OWNED i) = 1) (each (List.range 16) fun q => each (List.range 4) fun c =>
      let v := m.g ⟨.PMU_CFG, 16 * i + q, 16 * c, 16⟩
      onlyIf ((pmuCarries (bitsAt v 0 8)).getD 0 false = false) (wr ⟨.PMU_CFG, 16 * i + q, 16 * c + 15, 1⟩ 0))
  | .PMU_CENSUS_CTL => onlyIf (bitsAt old 0 1 = 0 ∧ m.g PMU_CENSUS_CTL_EN = 1) (do
      putCen {}
      clearCskip)
  | _ => pure ()

/-- The banks that slice `s` owns, in ascending number (R429). -/
def ownedBanks (m : Mach) (s : Nat) : List Nat :=
  (List.range 64).filter fun b => m.g (PMU_BANK_CFG_OWNED b) = 1 && m.g (PMU_BANK_CFG_OWNER b) = s

/-- A read of a counter page (R429). -/
def counterPage (m : Mach) (v s off : Nat) : Nat :=
  if m.g (TEN_STATUS_VALID s) = 1 ∧ m.g (TEN_CTL_COUNTER_PAGE s) = 1 ∧ m.g (TEN_STATUS_VCS s) = v ∧ off % 8 = 0 then
    match (ownedBanks m s)[off / 0x200]? with
    | some b => m.g (PMU_CNT_COUNT (64 * b + off % 0x200 / 8))
    | none => 0
  else 0

/-- COUNTER_PAGE_READ: VCS `v` reads offset `off` of the counter page of slice `s`. -/
def counterPageRead (v s off : Nat) : P Unit := do
  let m ← getM
  emit (.read (0x100000 + s * 0x1000 + off) (counterPage m v s off))

/-! The Census (R430). -/

/-- A Census record (Table 17.9) as 72 words, from the counters of `m`. -/
def censusRecord (m : Mach) (b t : Nat) : List Nat :=
  let owned := m.g (PMU_BANK_CFG_OWNED b)
  let en := ((List.range 64).map fun j => m.g ⟨.PMU_CFG, (64 * b + j) / 4, 16 * (j % 4) + 15, 1⟩ * 2 ^ j).sum
  [1 + b * 2 ^ 8 + (m.g PMU_CENSUS_CTL_CLEAR_ON_DUMP + owned * 2) * 2 ^ 16 +
      (if owned = 1 then m.g (PMU_BANK_CFG_OWNER b) else 0xFF) * 2 ^ 24 + t % 2 ^ 32 * 2 ^ 32,
   m.time64, en, (m.cen.skips - m.getCskip b) % 2 ^ 32 + m.g PMU_CENSUS_CTL_INTERVAL * 2 ^ 32, 0, 0, 0, 0] ++
    (List.range 64).map fun j => m.g (PMU_CNT_COUNT (64 * b + j))

/-- The marker of a Census write among the messages of the Service Function. -/
abbrev censusMark : Nat := 0xFFFE

/-- Whether a Census record is still on its way to host memory. -/
def censusBusy (m : Mach) : Bool :=
  let is (q : Msg) : Bool := q.inp = epRNG && q.x.headD 0 = censusMark
  m.xin.any (fun e => e.1 / 8 = epRNG && e.2.any (fun l => l.any is)) ||
    m.stg.any (fun e => e.1 = epRNG && e.2.any (fun s => is s.msg)) ||
    m.xq.any (fun e => e.2.any (fun q => is q.msg))

/-- One record is written at the next place of the circular buffer. -/
def censusPut (ws : List Nat) : P Unit := do
  let m ← getM
  let off := if 2 ^ m.g PMU_CENSUS_SIZE_SIZE_LOG2 < m.cen.off + 576 then 0 else m.cen.off
  let a := m.g PMU_CENSUS_BASE_BASE * 64 + off
  if m.g PMU_CENSUS_CTL_DEST = 0 then
    each ws.zipIdx fun w => onlyIf (a / 8 + w.2 < 1048576) (putSram (a / 8 + w.2) (w64 w.1))
  else
    let v := m.g PMU_CENSUS_CTL_VCS
    each (payloads (mps (vcsPort m v)) 16 a (ws.map w64)) fun e =>
      xsend { op := .ioWr, cls := 7, inp := epRNG, out := vcsPort m v, addr := e.1, len := 16 + 8 * e.2.length, data := e.2,
              x := [censusMark, m.g PMU_CENSUS_SIZE_PASID, 0, v] }
  modCen fun x => { x with off := off + 576 }

/-- CENSUS_TICK. -/
def censusTick : P Unit := do
  let m ← getM
  if m.g PMU_CENSUS_CTL_EN = 1 then
    let t := m.cen.ticks
    modCen fun x => { x with ticks := x.ticks + 1 }
    wr PMU_CENSUS_STATUS_SEQ (t % 2 ^ 32)
    if censusBusy m then do
      modCen fun x => { x with skips := x.skips + 1 }
      countFirst PMU_CENSUS_STATUS_SKIPPED (ev 0x0F 0 0x0188)
    else
      each ((List.range 64).filter fun b => bitsAt (m.g PMU_CENSUS_MASK_BANKS) b 1 = 1) fun b => do
        onlyIf (m.g PMU_CENSUS_CTL_CLEAR_ON_DUMP = 1) (each (List.range 64) fun j => wr (PMU_CNT_COUNT (64 * b + j)) 0)
        putCskip b m.cen.skips
        censusPut (censusRecord m b t)

/-! The built-in self-test (R431). -/

/-- Whether the condition of Table 17.10 holds for a test of kind `kind` on domain `d`, which must be ON. -/
def testAllowed (m : Mach) (d kind : Nat) : Bool :=
  domSt m d = dsON &&
    (if d < 3 then false
     else if d < 7 then m.g (planeState (d - 3)) = plTEST
     else if d < 39 then (octPorts m (d - 7)).all fun p =>
       m.g (OCT_PORT_STATUS_STATE p) = psOFF || m.g (OCT_PORT_STATUS_STATE p) = psDISABLED
     else if 71 ≤ d ∧ d < 75 then m.g (kskState (d - 71)) = kbTEST
     else if 78 ≤ d ∧ d < 86 then m.g (clState (d - 78)) = clTEST
     else m.g GLB_STRUCT_STATUS_STATE = stDISABLED && (d ≠ 75 && d ≠ 76 || kind = 0))

/-- The rules of a TST_CMD write. -/
def tstRule (m : Mach) (new : Nat) : Nat :=
  if bitsAt new 0 1 = 0 then rcOK
  else if m.g TST_STATUS_STATE = 1 then rcIMG_BUSY
  else if testAllowed m (bitsAt new 4 7) (bitsAt new 2 1) then rcOK
  else rcIMG_LIMIT

/-- After any test the logic is reset and the memories hold zeros with valid check bits. -/
def testClean (d : Nat) : P Unit :=
  if 78 ≤ d ∧ d < 86 then predClear (d - 78)
  else if 39 ≤ d ∧ d < 71 then squareLost (d - 39)
  else if 71 ≤ d ∧ d < 75 then kskEmpty (d - 71) (fun _ => true)
  else onlyIf (d = 77) (do tmLost false; tmFree)

/-- The test that runs ends (R431). -/
def testOver (result : Nat) : P Unit := do
  let m ← getM
  onlyIf (m.g TST_STATUS_STATE = 1) (do
    testEnd result
    testClean m.tst.dom)

/-- The effect of an accepted TST_CMD write. -/
def tstEffect (cmd : Nat) : P Unit := do
  let m ← getM
  onlyIf (bitsAt cmd 1 1 = 1) (testOver 3)
  onlyIf (bitsAt cmd 0 1 = 1) (do
    let d := m.g TST_CMD_DOMAIN
    let k := m.g TST_CMD_KIND
    let n := m.g TST_CMD_PATTERNS
    putTst { dom := d, kind := k, pats := n }
    wr TST_EXPECT_GOLDEN (Config.golden d k n % 2 ^ 64)
    wr TST_MISR_SIGNATURE 0
    wr TST_STATUS_STATE 1
    wr TST_STATUS_RESULT 0
    wr TST_STATUS_FAIL_WORDS 0)

/-- TEST_COMPLETE: the MISR and the failing words of an MBIST decide (R431). -/
def testComplete (misr failing : Nat) : P Unit := do
  let m ← getM
  onlyIf (m.g TST_STATUS_STATE = 1) (do
    wr TST_MISR_SIGNATURE (misr % 2 ^ 64)
    let n := if m.tst.kind = 1 then failing else 0
    wr TST_STATUS_FAIL_WORDS (Nat.min n 65535)
    testOver (if misr % 2 ^ 64 = m.g TST_EXPECT_GOLDEN ∧ n = 0 then 1 else 2))

/-- TEST_TIMEOUT: a test over 1 s ends ABORTED. -/
def testTimeout : P Unit := testOver 3

/-! The debug port and the trace (R432, R433). -/

/-- Whether the debug master is unlocked. -/
def debugOpen (m : Mach) : Bool := !m.fuse.production || m.g GLB_LIFECYCLE_DEBUG_UNLOCKED = 1

/-- The rules of a write to a DBG register: GRANT is accepted only from firmware. -/
def dbgRule (m : Mach) (k : RegKind) (new : Nat) (p : Path) : Nat :=
  if k = .DBG_UNLOCK ∧ bitsAt new 1 1 = 1 ∧ pathCode m p ≠ 3 then rcIMG_LIMIT else rcOK

/-- The unlock is cleared (R432). -/
def relock : P Unit := do
  let m ← getM
  onlyIf (m.g GLB_LIFECYCLE_DEBUG_UNLOCKED = 1) (do
    wr GLB_LIFECYCLE_DEBUG_UNLOCKED 0
    raise ((ev 0x11 0 0x018A).b24 0))

/-- The effect of an accepted write to a DBG register. -/
def dbgEffect (k : RegKind) (cmd : Nat) : P Unit :=
  onlyIf (k = .DBG_UNLOCK) (do
    onlyIf (bitsAt cmd 0 1 = 1) (do
      let n ← freeBits 64
      wr DBG_CHAL_NONCE n)
    onlyIf (bitsAt cmd 2 1 = 1) relock
    onlyIf (bitsAt cmd 1 1 = 1 ∧ bitsAt cmd 2 1 = 0) (do
      wr GLB_LIFECYCLE_DEBUG_UNLOCKED 1
      raise ((ev 0x11 0 0x018A).b24 1)))

/-- The trace buffer holds 32,768 records. -/
abbrev traceSize : Nat := 32768

/-- A control-space write is recorded (Table 17.11): outcome 0 applied, 1 refused, 2 discarded in part. -/
def trace (outcome code reason addr : Nat) (data mask : Word) : P Unit := do
  let m ← getM
  let n := m.g DBG_TRACE_STATUS_COUNT
  if m.g DBG_TRACE_CTL_EN = 1 ∧ m.g DBG_TRACE_LO_ADDR ≤ addr ∧ addr ≤ m.g DBG_TRACE_HI_ADDR ∧
      bitsAt (m.g DBG_TRACE_CTL_SRC_MASK) code 1 = 1 then
    if m.g DBG_TRACE_CTL_WRAP = 0 ∧ traceSize ≤ n then wr DBG_TRACE_STATUS_FULL 1
    else do
      putTrc (m.trcNext % traceSize)
        [m.time64, outcome + code * 2 ^ 8 + reason * 2 ^ 16 + addr * 2 ^ 32, data.toNat, mask.toNat]
      putTrcNext ((m.trcNext + 1) % traceSize)
      wr DBG_TRACE_STATUS_COUNT (Nat.min traceSize (n + 1))
      onlyIf (m.g DBG_TRACE_CTL_WRAP = 0 ∧ traceSize ≤ n + 1) (wr DBG_TRACE_STATUS_FULL 1)

/-- Word `w` of the trace record that IDX names. -/
def traceWord (m : Mach) (w : Nat) : Nat := (m.getTrc (m.g DBG_TRACE_IDX_IDX)).getD w 0

/-- IDX advances after a read of DATA3. -/
def traceNext : P Unit := do
  let m ← getM
  wr DBG_TRACE_IDX_IDX (m.g DBG_TRACE_IDX_IDX + 1)

end Sys2Proof.Machine
end

