-- ==== Sys2Proof/Machine/Write.lean ====
section
/-!
DEFINITION. The control space as it is accessed (R5-R8, R39, R41, R424, R425, R456-R460): reach, mapping and width of an
access, the tests of a write alone, the merge at the arbitration point, what an accepted write stores and does, what a
read returns, and the aperture of the tenant pages (R300).
-/
namespace Sys2Proof.Machine

/-! Domains behind registers (R458, Table 19.1). -/

/-- The domain that serves a register, or that holds its live state. -/
def regDom (r : Reg) : Nat :=
  match r.k with
  | .OCT_STATUS | .OCT_SLOT_CTL | .OCT_CRN_STATUS | .OCT_CRN_CTL | .OCT_CRN_CNT_FWD | .OCT_CRN_CNT_XFER
  | .OCT_CRN_CNT_RETURN | .OCT_CRN_CNT_BOUNCE | .OCT_CRN_CNT_ABSORBED => dOCT r.i
  | .OCT_PORT_CFG | .OCT_PORT_CTL | .OCT_PORT_STATUS | .OCT_PORT_TRAIN | .OCT_PORT_IDE | .OCT_PORT_CNT0
  | .OCT_PORT_CNT1 | .OCT_PBR_ID => dOCT (r.i / 4)
  | .OCT_EDGE_MAP => dOCT (r.i / 64)
  | .SQ_STATUS | .SQ_CTL | .SQ_TMO | .SQ_RETRY_CTL | .SQ_EVICT_CTL | .SQ_OCC | .SQ_EVICT_STAT | .SQ_PROBE_ADDR
  | .SQ_PROBE_RESULT | .SQ_PROBE_SHARERS | .SQ_ORD_STATUS | .SQ_PURGE_MASK | .SQ_PURGE_STATUS => dSQ r.i
  | .SQ_CNT => dSQ (r.i / 32)
  | k =>
    match k.desc.blk with
    | .PWR | .SLP => 0
    | .FWM => 1
    | .TWN => if 0x41000 ≤ k.desc.addr ∧ k.desc.addr < 0x42000 then dSPN else 0
    | .TM => if 0xBF8000 ≤ k.desc.addr ∧ k.desc.addr < 0xBF8060 then 0 else dTM
    | _ => 2

/-- Whether a register's block can be reached: the AO-served ones always, FWM while MGMT is ON, the others while CORE is
ON (R458, Table 19.1). -/
def regReachable (m : Mach) (r : Reg) : Bool :=
  if r.k.desc.blk = .FWM then domOn m 1 else domOn m 2 || regDom r = 0 || (r.k.desc.blk = .TWN && regDom r = dSPN)

/-- Whether a write is the loader's own. -/
def isLoader : Path → Bool
  | .loader _ => true
  | _ => false

/-- Whether an access comes through a tenant control page. -/
def isPage : Path → Bool
  | .tenantPage _ _ => true
  | _ => false

/-! Fields (Table 0.3). -/

/-- The bits of a field. -/
def FieldDesc.bits (f : FieldDesc) : Nat := (2 ^ f.width - 1) * 2 ^ f.lo

/-- The bits of a register field by name. -/
def RF.bits (f : RF) : Nat := (2 ^ f.w - 1) * 2 ^ f.lo

/-- The bits of the fields of a register that satisfy `p`. -/
def kindBits (k : RegKind) (p : Acc → Bool) : Nat := (k.desc.fields.filter fun f => p f.acc).foldl (fun a f => a + f.bits) 0

/-- The bits of a register that belong to named fields. -/
def namedBits (k : RegKind) : Nat := kindBits k fun _ => true

/-- What a write asks a register to hold: RO fields keep their value (Table 0.3). -/
def asked (k : RegKind) (old data mask : Nat) : Nat :=
  maskIn old data (mask &&& (namedBits k - kindBits k (· = .RO)))

/-- Whether a field's value lies in its range. -/
def FieldDesc.inRange (f : FieldDesc) (v : Nat) : Bool :=
  match f.range with
  | none => true
  | some (a, b) =>
    let x : Int := if a < 0 then toSigned f.width v else v
    a ≤ x && x ≤ b

/-- The bits of a register that hold policy fields of Table 2.2. -/
def policyBits (k : RegKind) : Nat :=
  match k with
  | .KRB_WIN | .TM_GCL_DATA | .TM_GATE_A | .TM_GATE_B => namedBits k
  | _ => (itemTypes.flatMap fun s => s.fields.filterMap fun f => if f.pol then f.tgt 0 else none).foldl
      (fun a f => if f.k = k then a + f.bits else a) 0

/-- A write of policy (R39): it changes a policy field, or covers nothing else. -/
def policyWrite (k : RegKind) (old new mask : Nat) : Bool :=
  let p := policyBits k
  mask &&& p ≠ 0 && (new &&& p ≠ old &&& p || mask &&& namedBits k &&& p = mask &&& namedBits k)

/-! The aperture (R300, Table 11.6). -/

/-- The register that word `w` of the object selected in the page of slice `s` maps to, where the slice owns it. -/
def apertureReg (m : Mach) (s w : Nat) : Option (Bool × Option Reg) :=
  let i := m.g (TEN_OBJ_SEL_INDEX s)
  let at' (l : List RegKind) : Option Reg := l[w]?.map fun k => ⟨k, i⟩
  match m.g (TEN_OBJ_SEL_KIND s) with
  | 0 => if i < 32768 ∧ m.g (RNG_CFG_VALID i) = 1 ∧ m.g (RNG_CFG_SLICE i) = s then
      some (true, at' [.RNG_CFG, .RNG_IOVA, .RNG_CTL, .RNG_IRQ, .RNG_IDX, .RNG_STATUS, .RNG_PROG, .RNG_CNT]) else none
  | 1 => if i < 1024 ∧ m.g (LM_TBL_CFG_VALID i) = 1 ∧ m.g (LM_TBL_CFG_SLICE i) = s then
      some (true, at' [.LM_TBL_CFG, .LM_TBL_BASE, .LM_TBL_SIZE, .LM_TBL_PARAM]) else none
  | 2 => if i < 32768 ∧ m.g (TM_QPOL_VALID i) = 1 ∧ m.g (TM_QPOL_OWNER i) = s then
      some (true, at' [.TM_QCFG, .TM_QPOL, .TM_QOCC, .TM_QSTAT]) else none
  | _ => if flVALID m i ∧ flSLICE m i = s then some (true, at' [.FLW_W0, .FLW_W1]) else none

/-- The bits of an object's register that the tenant may change. -/
def tenantBits (r : Reg) : Nat :=
  match r.k with
  | .RNG_CTL => (RNG_CTL_ENABLE 0).bits + (RNG_CTL_CLR_CNT 0).bits + (RNG_CTL_STEER 0).bits + (RNG_CTL_FETCH_TMO 0).bits +
      (RNG_CTL_IRQ_EN 0).bits + (RNG_CTL_VECTOR 0).bits
  | .RNG_IRQ => namedBits .RNG_IRQ
  | .LM_TBL_CFG => (LM_TBL_CFG_ENABLE 0).bits
  | .LM_TBL_PARAM => namedBits .LM_TBL_PARAM
  | _ => 0

/-! Reach (R432, R459, Table 19.2). -/

/-- Whether a path reaches an address for a read or a write; `bits` are the bits that a write covers and sets. -/
def reaches (m : Mach) (p : Path) (addr : Nat) (isWrite : Bool) (bits : Nat) : Bool :=
  let r := regAt (addr / 8 * 8)
  let k := r.map (·.k)
  let fm := blkOf addr ∉ [Blk.TST, .DBG] &&
    !(k.any fun k => k ∈ [RegKind.INT_TEST_SEL, .INT_TEST_CTL, .INT_TEST_META, .INT_TEST_CHECK, .INT_TEST_DATA,
      .INT_RETIRE_ADD, .GLB_RESET_CTL, .GLB_ARB_CFG]) &&
    (blkOf addr ≠ .FWM || 0x81400 ≤ addr && addr < 0x81800)
  let box := r.all fun r => isWrite || (r.k ≠ .FWM_MB_REQ && r.k ≠ .FWM_MB_RSP) || mbOwn m (r.i / 32) p || pathCode m p = 3
  match p with
  | .firmware _ | .loader _ => true
  | .bmc => box
  | .debug =>
    if debugOpen m then box
    else if isWrite then k = some .DBG_UNLOCK && bits / 2 = 0
    else blkOf addr = .DBG || k = some .GLB_ID || k = some .GLB_LIFECYCLE
  | .partner => isWrite && 0x40000 ≤ addr && addr < 0x41000
  | .fmVdm v => bitsAt (m.g GLB_ARB_CFG_FM_VCS) v 1 = 1 && fm && box
  | .bar0 v =>
    if bitsAt (m.g GLB_ARB_CFG_FM_VCS) v 1 = 1 then fm && box
    else !isWrite && k.any fun k => k ∈ [RegKind.GLB_ID, .GLB_CAP0, .GLB_CAP1, .GLB_LIFECYCLE, .TB_TIME_NS, .TB_TIME_SEC,
      .TB_TIME64]
  | .tenantPage v s =>
    m.g (TEN_STATUS_VALID s) = 1 && m.g (TEN_STATUS_VCS s) = v && 0x2100000 + s * 0x1000 ≤ addr &&
      addr < 0x2100000 + s * 0x1000 + 0x1000

/-! The rules of a write (R424). -/

/-- The rules of a register's block. -/
def blockRule (m : Mach) (r : Reg) (old new mask : Nat) (p : Path) : Nat :=
  let c := pathCode m p
  match r.k.desc.blk with
  | .GLB =>
    match r.k with
    | .GLB_STRUCT_CTL => structRule m new
    | .GLB_RESET_CTL =>
      if bitsAt new 0 1 = 1 ∧ (bitsAt new 8 8 ≠ 0xA5 ∨ c < 1 ∨ 3 < c) then rcIMG_LIMIT else rcOK
    | .GLB_ARB_CFG => if c = 1 ∨ c = 3 then rcOK else rcIMG_LIMIT
    | _ => rcOK
  | .MLD => if r.k = .MLD_CTL then mldRule m new else rcOK
  | .PWR => pwrRule m r.k r.i old new mask
  | .SLP => slpRule m r.k r.i old new mask
  | .TWN => linkRule m r.k r.i old new mask
  | .PMU => pmuRule m r.k r.i new mask
  | .TST => if r.k = .TST_CMD then tstRule m new else rcOK
  | .DBG => dbgRule m r.k new p
  | .FWM => fwmRule m r.k r.i new mask p
  | .OCT =>
    if r.k = .OCT_PORT_CTL ∧ bitsAt new 0 1 = 1 ∧ bitsAt old 0 1 = 0 ∧ (portOcts m r.i).any (fun o => testing m (dOCT o))
    then rcLNK_BUSY else octRule m r.k r.i old new mask
  | .XB =>
    if r.k = .XB_PLANE_CTL ∧ (List.range 4).any (fun x => bitsAt new (4 + x) 1 = 1 && testing m (dXB x)) then rcXB_BUSY
    else xbRule m r.k r.i old new mask
  | .SQ => sqRule m r.k r.i old new mask
  | .KSK =>
    if r.k = .KSK_BANK_CTL ∧ (List.range 4).any (fun x => bitsAt new (4 + x) 1 = 1 && testing m (dKSK x)) then rcLM_BUSY
    else kskRule m r.k r.i old new mask
  | .KRB | .TEN => krbRule m r.k r.i old new mask
  | .TM => let a := tmRule m r.k r.i old new mask
    if a ≠ rcOK then a else schedRule m r.k r.i old new mask
  | .RNG => rngRule m r.k r.i old new mask
  | .LM =>
    if r.k = .LM_CL_CTL ∧ (List.range 8).any (fun x => bitsAt new (8 + x) 1 = 1 && testing m (dLM x)) then rcLM_BUSY
    else lmRule m r.k r.i old new mask
  | .FLW => rcOK
  | .INT => intRule m r.k r.i old new mask (c = 1 || c = 3)

/-- Whether a register changes a field of access type RWL. -/
def changesRwl (k : RegKind) (old new : Nat) : Bool :=
  let b := kindBits k (· = .RWL)
  new &&& b ≠ old &&& b

/-- The test of a write alone against a register as it stands (R6-R8, R17, R30, R39, R458): its reason code, or OK. -/
def writeTest (m : Mach) (r : Reg) (data mask : Nat) (p : Path) : Nat :=
  let k := r.k
  let b := k.desc.blk
  let old := (m.rd r).toNat
  let new := asked k old data mask
  if data &&& mask &&& namedBits k ≠ data &&& mask then b.limit
  else if regReachable m r = false then b.busy
  else if kindBits k (· ≠ .RO) = 0 then b.limit
  else if changesRwl k old new = true ∧ m.g GLB_STRUCT_CTL_ENABLE = 1 then b.limit
  else if changesRwl k old new = true ∧ m.fuse.production = true ∧ isLoader p = false then rcLIFECYCLE
  else if (k.desc.fields.any fun f => f.acc ≠ .RO && mask &&& f.bits ≠ 0 &&
      (f.acc ≠ .RWL || bitsAt new f.lo f.width ≠ bitsAt old f.lo f.width) && !f.inRange (bitsAt new f.lo f.width)) then b.limit
  else if structBusy m ∧ policyWrite k old new mask then rcSTRUCT_BUSY
  else if data &&& mask &&& kindBits k (· = .WO) ≠ 0 ∧ regDom r ≠ 0 ∧ domOn m (regDom r) = false then b.busy
  else blockRule m r old new mask p

/-! What an accepted write does. -/

/-- The captured discard and its count are cleared (R425). -/
def conflictClear : P Unit := do
  rstReg .GLB_CMD_CONFLICT 0
  rstReg .GLB_CMD_CONFLICT_ADDR 0
  rstReg .GLB_CMD_CONFLICT_DATA 0
  rstReg .GLB_CMD_CONFLICT_MASK 0
  rstReg .GLB_CMD_CONFLICT_TIME 0

/-- The effect of an accepted write: `old` is the register before it, `cmd` the bits written, `mask` the bits covered. -/
def regEffect (r : Reg) (old cmd mask : Nat) (p : Path) : P Unit :=
  match r.k.desc.blk with
  | .GLB =>
    match r.k with
    | .GLB_STRUCT_CTL => structEffect cmd
    | .GLB_RESET_CTL => onlyIf (bitsAt cmd 0 1 = 1) (modMgx fun x => { x with warmDue := true })
    | .GLB_CMD_CONFLICT => onlyIf (bitsAt cmd 0 1 = 1) conflictClear
    | .GLB_PATH_CNT => onlyIf (bitsAt cmd 37 1 = 1) (wr GLB_PATH_CNT_COUNT 0)
    | _ => pure ()
  | .MLD => do
    let m ← getM
    if r.k = .MLD_CTL then mldEffect cmd (pathCode m p)
    else onlyIf (r.k = .MLD_STAGE_DATA) (stageWrite (w64 (maskIn (m.getStage (m.g MLD_STAGE_ADDR_ADDR)).toNat cmd mask)))
  | .PWR => pwrEffect r.k r.i old cmd mask
  | .SLP => slpEffect r.k r.i cmd
  | .TWN => linkEffect r.k r.i old cmd
  | .PMU => pmuEffect r.k r.i old cmd
  | .TST => onlyIf (r.k = .TST_CMD) (tstEffect cmd)
  | .DBG => dbgEffect r.k cmd
  | .FWM => fwmEffect r.k r.i cmd
  | .OCT => octEffect r.k r.i old cmd
  | .XB => xbEffect r.k old cmd
  | .SQ => sqEffect r.k r.i cmd
  | .KSK => kskEffect r.k r.i old cmd
  | .KRB | .TEN => krbEffect r.k r.i old cmd
  | .TM => do
    tmEffect r.k r.i old cmd
    schedEffect r.k r.i old cmd mask
  | .RNG => rngEffect r.k r.i old cmd
  | .LM => lmEffect r.k old cmd
  | .FLW => pure ()
  | .INT => intEffect r.k r.i old cmd

/-- What a register holds after an accepted write (Table 0.3): RW1C bits written 1 clear, RW1S bits set, WO bits act and
are not stored. -/
def stored (k : RegKind) (old data mask : Nat) : Nat :=
  k.desc.fields.foldl (fun a f =>
    let one := data &&& mask &&& f.bits
    match f.acc with
    | .RW | .RWS | .RWL => maskIn a data (mask &&& f.bits)
    | .RW1C => a - (a &&& one)
    | .RW1S => a - (a &&& one) + one
    | .RO | .WO => a) old

/-- An accepted write takes effect. A direct write of an RWL field sets MODIFIED (R30); a FAULTY object's register is
rewritten (R358). -/
def regApply (r : Reg) (data mask : Nat) (p : Path) : P Unit := do
  let m ← getM
  let old := (m.rd r).toNat
  wrReg r.k r.i (stored r.k old data mask)
  onlyIf (changesRwl r.k old (asked r.k old data mask) = true ∧ isLoader p = false)
    (wr GLB_STRUCT_STATUS_MODIFIED 1)
  regEffect r old (data &&& mask) mask p
  ctxWritten r

/-! The arbitration point (R424, R425). -/

/-- The precedence of a path (Table 17.7): its source code, and within one source its VCS, core or slice. -/
def rank (m : Mach) (p : Path) : Nat :=
  pathCode m p * 65536 +
    (match p with
     | .firmware c => c
     | .fmVdm v | .bar0 v => v
     | .tenantPage v s => v * 256 + s
     | _ => 0)

/-- The VCS of a discarded write, or 0xFF (R425). -/
def loserVcs : Path → Nat
  | .fmVdm v => v
  | p => pathVcs p

/-- A write that has passed its test alone, with the register it writes. -/
structure Pend where
  w : CtlWrite
  r : Reg
  deriving DecidableEq, Repr

/-- A value discarded: the write, its bits, and the path applied instead. -/
structure Discard where
  x : Pend
  mask : Nat
  winner : Path
  deriving DecidableEq, Repr

/-- A refused write is recorded. -/
def refuse (r : Reg) (w : CtlWrite) (reason : Nat) : P Unit := do
  let m ← getM
  writeRefused r w.addr reason w.path
  trace 1 (pathCode m w.path) reason w.addr w.data w.mask
  onlyIf (r.k = .GLB_STRUCT_CTL ∧ reason = rcIN_USE) (structShow (some (phase0 rcIN_USE)))

/-- An access outside reach, unmapped or of a wrong width is refused and recorded (R457, R459). -/
def accessRefused (w : CtlWrite) (cause : Nat) : P Unit := do
  let m ← getM
  pathRefused w.path w.addr cause true
  trace 1 (pathCode m w.path) rcIMG_LIMIT w.addr w.data w.mask

/-- An aperture write (R300): the write of the object's register that it stands for, or its refusal. A word that Table 11.6
gives an owned object no register for is no field that a tenant may write, and reads as 0 (DEDUCED,
notes/assumptions/155.md). -/
def apertureWrite (w : CtlWrite) (a : Reg) : P (List Pend) := do
  let m ← getM
  let s := a.i / 8
  match apertureReg m s (a.i % 8) with
  | some (_, some r) =>
    let old := (m.rd r).toNat
    let b := tenantBits r
    let new := asked r.k old w.data.toNat w.mask.toNat
    if isPage w.path = true ∧ new - (new &&& b) ≠ old - (old &&& b) then do
      wr (TEN_OBJ_STATUS_REFUSED s) 1
      refuse a w rcKRB_LIMIT
      return []
    else
      let reason := writeTest m r w.data.toNat w.mask.toNat w.path
      if reason = rcOK then return [⟨w, r⟩]
      else do
        wr (TEN_OBJ_STATUS_REFUSED s) 1
        refuse r w reason
        return []
  | some (_, none) => do
    wr (TEN_OBJ_STATUS_REFUSED s) 1
    refuse a w rcKRB_LIMIT
    return []
  | none => do
    wr (TEN_OBJ_STATUS_REFUSED s) 1
    trace 1 (pathCode m w.path) rcKRB_LIMIT w.addr w.data w.mask
    return []

/-- A write at the arbitration point up to its own test: what is left of it. -/
def admitWrite (w : CtlWrite) : P (List Pend) := do
  let m ← getM
  let foreign := match w.path with
    | .tenantPage _ s => if reaches m w.path w.addr true 0 then none else some s
    | _ => none
  match foreign with
  | some s => do
    dbForeign s 0xFFFF
    return []
  | none =>
    if reaches m w.path w.addr true (w.data.toNat &&& w.mask.toNat) = false then do
      accessRefused w 0
      return []
    else match regAt (w.addr / 8 * 8) with
      | none => do
        accessRefused w 1
        return []
      | some r =>
        if w.addr % 8 ≠ 0 ∨ w.width ≠ 8 then do
          accessRefused w 2
          return []
        else if r.k = .TEN_OBJ_DATA then apertureWrite w r
        else
          let reason := if isPage w.path = true ∧ r.k ≠ .TEN_VIOL ∧ r.k ≠ .TEN_OBJ_SEL then rcKRB_LIMIT
            else writeTest m r w.data.toNat w.mask.toNat w.path
          if reason = rcOK then return [⟨w, r⟩]
          else do
            refuse r w reason
            return []

/-- `f` for each element of a list, in order, with what the answers hold. -/
def gather {α β : Type} : List α → (α → P (List β)) → P (List β)
  | [], _ => return []
  | a :: t, f => do
    let l ← f a
    let r ← gather t f
    return l ++ r

/-- A write placed among others of its register, the one of highest precedence first. -/
def byRank (m : Mach) (x : Pend) : List Pend → List Pend
  | [] => [x]
  | y :: t => if rank m x.w.path < rank m y.w.path then x :: y :: t else y :: byRank m x t

/-- The bits of a field that a write covers. -/
def Pend.cov (x : Pend) (f : FieldDesc) : Nat := x.w.mask.toNat &&& f.bits

/-- The write whose value a field takes: the first that covers it. -/
def fieldWinner (l : List Pend) (f : FieldDesc) : Option Pend := l.find? fun x => x.cov f ≠ 0

/-- The merge of the writes of one register, field by field: data and mask. -/
def merged (k : RegKind) (l : List Pend) : Nat × Nat :=
  k.desc.fields.foldl (fun a f => match fieldWinner l f with
    | some x => (a.1 + (x.w.data.toNat &&& x.cov f), a.2 + x.cov f)
    | none => a) (0, 0)

/-- The discards of a merge: one for each write that loses the value of some field. -/
def discards (k : RegKind) (old : Nat) (l : List Pend) : List Discard :=
  l.filterMap fun x =>
    let lost := k.desc.fields.filter fun f => f.acc ≠ .RO && x.cov f ≠ 0 && (fieldWinner l f).any fun y =>
      y ≠ x && maskIn old y.w.data.toNat (y.cov f) &&& f.bits ≠ maskIn old x.w.data.toNat (x.cov f) &&& f.bits
    match lost with
    | [] => none
    | f :: _ => (fieldWinner l f).map fun y => ⟨x, lost.foldl (fun a g => a + x.cov g) 0, y.w.path⟩

/-- Writes are withdrawn, lowest precedence first, while the merged value fails a rule of the block. -/
def withdraw (r : Reg) : Nat → List Pend → P (List Pend)
  | 0, l => return l
  | n + 1, l => do
    let m ← getM
    let old := (m.rd r).toNat
    let d := merged r.k l
    let p := match l with | x :: _ => x.w.path | [] => .bmc
    let reason := if l.length < 2 then rcOK else blockRule m r old (asked r.k old d.1 d.2) d.2 p
    if reason = rcOK then return l
    else match l.getLast? with
      | some x => do
        refuse r x.w reason
        withdraw r n l.dropLast
      | none => return l

/-- The writes of one register in one cycle are merged and take effect; the answer holds the discards. A YIELD beside a
FENCE is refused (R346). -/
def mergeApply (l0 : List Pend) : P (List Discard) := do
  match l0 with
  | [] => return []
  | x :: _ => do
    let l ← withdraw x.r l0.length l0
    let m ← getM
    let ds := discards x.r.k (m.rd x.r).toNat l
    let d := merged x.r.k l
    each l fun y => trace (if ds.any (fun e => e.x = y) then 2 else 0) (pathCode m y.w.path) 0 y.w.addr y.w.data y.w.mask
    match l with
    | y :: _ => regApply x.r d.1 d.2 y.w.path
    | [] => pure ()
    onlyIf (x.r.k = .TWN_CTL ∧ bitsAt (d.1 &&& d.2) 0 1 = 1) (each (l.filter fun y =>
      bitsAt (y.w.data.toNat &&& y.w.mask.toNat) 2 1 = 1) fun y => refuse y.r y.w rcTWN_BUSY)
    return ds

/-- The discard that the record takes: the lowest address, and within it the loser of highest precedence. -/
def firstDiscard (m : Mach) : List Discard → Option Discard
  | [] => none
  | d :: t =>
    match firstDiscard m t with
    | none => some d
    | some e => if e.x.r.addr < d.x.r.addr ∨ (e.x.r.addr = d.x.r.addr ∧ rank m e.x.w.path < rank m d.x.w.path) then some e
      else some d

/-- Discards are captured and counted (R425). -/
def conflict (ds : List Discard) : P Unit := do
  let m ← getM
  match firstDiscard m ds with
  | none => pure ()
  | some d => do
    addSat GLB_CMD_CONFLICT_COUNT ds.length
    onlyIf (m.g GLB_CMD_CONFLICT_VALID = 0) (do
      wr GLB_CMD_CONFLICT_VALID 1
      wr GLB_CMD_CONFLICT_WINNER (pathCode m d.winner)
      wr GLB_CMD_CONFLICT_LOSER (pathCode m d.x.w.path)
      wr GLB_CMD_CONFLICT_LOSER_VCS (loserVcs d.x.w.path)
      wr GLB_CMD_CONFLICT_ADDR_ADDR d.x.r.addr
      wr GLB_CMD_CONFLICT_DATA_DATA (d.x.w.data.toNat &&& d.mask)
      wr GLB_CMD_CONFLICT_MASK_MASK d.mask
      wr GLB_CMD_CONFLICT_TIME_TIME64 m.time64
      raise ((((ev 1 0 0x0181).at d.x.r.addr).b24 (pathCode m d.winner)).b25 (pathCode m d.x.w.path)))

/-- The writes of one cycle of the core clock pass the arbitration point (R424). -/
def regWrite (ws : List CtlWrite) : P Unit := do
  let xs ← gather ws admitWrite
  let m ← getM
  let regs := (xs.map (·.r)).eraseDups
  let ds ← gather regs fun r => mergeApply ((xs.filter fun x => x.r = r).foldl (fun a x => byRank m x a) [])
  conflict ds

/-- One write that covers one field: what a row for one command field sends. -/
def fieldWrite (p : Path) (f : RF) (v : Nat) : P Unit :=
  regWrite [{ path := p, addr := (⟨f.k, f.i⟩ : Reg).addr, data := w64 (v % 2 ^ f.w * 2 ^ f.lo), mask := w64 f.bits }]

/-- One write that covers a whole register. -/
def wordWrite (p : Path) (k : RegKind) (i : Nat) (v : Word) : P Unit :=
  regWrite [{ path := p, addr := (⟨k, i⟩ : Reg).addr, data := v, mask := BitVec.allOnes 64 }]

/-! Reads (R457, R458). -/

/-- What a register reads as, but for the aperture. -/
def liveReg (m : Mach) (r : Reg) : Nat :=
  let v := (m.rd r).toNat
  match r.k with
  | .XB_QSTAT => qstat m
  | .SQ_STATUS => sqStatus m r.i
  | .SQ_ORD_STATUS => sqOrd m r.i
  | .SQ_OCC => sqOcc m r.i
  | .OCT_CRN_STATUS => crnStatus m r.i
  | .TWN_MIRROR => commitWait m
  | .TM_SRING_STATUS => sringStatus m r.i
  | .TM_SRING_BOBBINS => sringHeld m r.i
  | .TM_QPROBE => qprobe m
  | .TM_QSCH_ST | .TM_BND_ST | .TM_CH_ST | .TM_PORT_ST => schedStatus m r.k r.i
  | .TM_GATE_ST => putBits (m.rd r).toNat 16 8 (gatesOpen m r.i)
  | .TM_GCL_DATA => let e := m.getGcl (gclKey m); e.1 + e.2 * 2 ^ 8
  | .KSK_OCC => kskOcc m
  | .LM_STATUS => lmStatus m
  | .LM_TBL_CFG => putBits v 17 1 (if tableIdle m r.i then 1 else 0)
  | .KRB_FENCE_PROG => fenceProg m
  | .TB_TIME_NS => m.tb.ns
  | .TB_TIME64 => m.time64
  | .SLP_STATUS => slpStatusNow m r.i
  | .PWR_DOM_STATUS => if domSt m r.i = dsDRAINING then putBits v 16 20 (drainNow m r.i) else v
  | .MLD_STAGE_DATA => (m.getStage (m.g MLD_STAGE_ADDR_ADDR)).toNat
  | .DBG_TRACE_DATA => traceWord m r.i
  | .TEN_OBJ_STATUS => putBits v 0 1 (if (apertureReg m r.i 0).isSome then 1 else 0)
  | _ => v

/-- What a register reads as: RO state held in a domain that is not ON reads its reset value (R458). -/
def liveRead (m : Mach) (r : Reg) : Nat :=
  if regReachable m r = false then 0
  else
    let v := liveReg m r
    if regDom r = 0 ∨ domOn m (regDom r) then v else maskIn v (resetNat r) (kindBits r.k (· = .RO))

/-- What a read that includes byte 0 of a register does (R457). -/
def readEffect (r : Reg) : P Unit :=
  match r.k with
  | .TB_TIME_NS => do
    let _ ← tbTimeNs
    pure ()
  | .TM_GCL_DATA => gclNext
  | .MLD_STAGE_DATA => do
    let _ ← stageRead
    pure ()
  | .DBG_TRACE_DATA => onlyIf (r.i = 3) traceNext
  | _ => pure ()

/-- An access to TEN_OBJ_DATA that reads (R300). -/
def apertureRead (a : Reg) : P Nat := do
  let m ← getM
  match apertureReg m (a.i / 8) (a.i % 8) with
  | some (_, some r) => return liveRead m r
  | some (_, none) => return 0
  | none => do
    wr (TEN_OBJ_STATUS_REFUSED (a.i / 8)) 1
    return 0

/-- What a read of a register returns, free values included: the set that a running purge walk takes next is not held
(notes/assumptions/15.md). -/
def readNow (r : Reg) : P Nat := do
  let m ← getM
  let v := liveRead m r
  if r.k = .TEN_OBJ_DATA then apertureRead r
  else if r.k = .SQ_PURGE_STATUS ∧ bitsAt v 14 1 = 1 then do
    let n ← freeBits 14
    return putBits v 0 14 n
  else return v

/-- The value of a control-space read of `width` bytes (R457, R459). -/
def ctlRead (p : Path) (addr width : Nat) : P Nat := do
  let m ← getM
  if reaches m p addr false 0 = false then do
    onlyIf (isPage p = false) (pathRefused p addr 0 false)
    return 0
  else match regAt (addr / 8 * 8) with
    | none => do
      pathRefused p addr 1 false
      return 0
    | some r =>
      if ¬(width = 8 ∧ addr % 8 = 0) ∧ ¬(width = 4 ∧ addr % 4 = 0) then do
        pathRefused p addr 2 false
        return 0
      else do
        let v ← readNow r
        onlyIf (addr % 8 = 0) (readEffect r)
        return (if width = 8 then v else bitsAt v (addr % 8 * 8) 32)

/-- A control-space read, its answer sent to the source. -/
def regRead (p : Path) (addr width : Nat) : P Unit := do
  let v ← ctlRead p addr width
  emit (.read addr v)

/-! The debug master and fabric addresses (R299). -/

/-- DEBUG_FABRIC_ACCESS: the Kerb checks the access against the windows of every tenant (R299); a permitted one goes to the
line's home Square and is outstanding until its response returns (R294); a refused read returns all-ones with poison and
a refused write is dropped (R289). While the debug master is locked, the access is refused and returns 0 (R432). -/
def debugFabric (a : Nat) (write : Bool) (data : List Word) : P Unit := do
  let m ← getM
  if debugOpen m = false then
    pathRefused .debug a 0 write
    emit (.debug a [] false)
  else do
    inc (KRB_CNT_COUNT kcCHECKED)
    match debugVerdict m a with
    | some (cause, w) => do
      inc (KRB_CNT_COUNT kcREFUSED)
      inc (KRB_CNT_COUNT kcDEBUG_REFUSED)
      pmuCount 0x0F 1 { slice := some w.tenant, vcs := some (m.g (TEN_STATUS_VCS w.tenant)), addr := some a }
      violation w.tenant cause (if write then rtWR else rtRD) 2 0 w.n a
      onlyIf (write = false) (emit (.debug a (List.replicate 8 (BitVec.allOnes 64)) true))
    | none =>
      let id := m.accNext
      putAccNext (id + 1)
      debugAccess id
      let q : Msg := { op := if write then .memWr else .rdS, cls := if write then 3 else 2, inp := epMG,
                       out := epSq (homeSq a), addr := a, tag := id, data := data, len := if write then 80 else 16 }
      if homeHere m a then xsend q else misdirect epMG q

end Sys2Proof.Machine
end

