-- ==== Sys2Proof/Machine/Load.lean ====
section
/-!
DEFINITION. The end of a load (R31-R33, R43): the write pass of a full image, the two copies of the boot load, and a
policy-only image with its tests, its writes and its Kerb fence.
-/
namespace Sys2Proof.Machine

/-! The write pass of a full image (R30). -/

/-- What earlier loads and direct writes left in the fields that an image fills goes back to reset values. -/
def imageClear : P Unit := do
  let m ← getM
  each m.regs fun e => do
    let b := kindBits e.1.k (· = .RWL)
    onlyIf (b ≠ 0) (wrReg e.1.k e.1.i (maskIn e.2.toNat (resetNat e.1) b))
    onlyIf (e.1.k = .KRB_WIN) (rstReg .KRB_WIN e.1.i)
    onlyIf (e.1.k = .TEN_STATUS) (rstReg .TEN_STATUS e.1.i)
  clearVcs
  putLdb []
  putDomDef []
  putHomeSel false

/-- What an item holds beside the fields that registers show. -/
def itemExtra (it : Item) : P Unit := do
  let m ← getM
  let k := it.key
  match it.typ with
  | 0x21 => putVcs k { valid := true, up := it.b 5, agent := it.b 6, ig := it.b 7, down := it.at 8 0 128 }
  | 0x22 => putLdb (m.ldb ++ [(k, it.b 5, it.b 6, decide (it.at 7 0 1 = 1))])

  | 0x41 => putHomeSel true
  | 0x43 => do
    wr (SQ_RANGE_CFG_CD k) (if it.b 4 = 0xFF then 0 else it.b 4)
    wr (SQ_RANGE_CFG_PRIVATE k) (if it.b 4 = 0xFF then 1 else 0)
  | 0x81 => putDomDef (m.domDef ++ [(k, it.b 5, decide (it.at 6 0 1 = 1))])
  | 0x91 => wr (SLP_CFG_FAULT_MAX k) (it.h 22)
  | _ => pure ()

/-- An item is stored. -/
def itemStore (it : Item) : P Unit := do
  each it.fields fun f => match f.tgt it.key with
    | some r => wr r (f.val it / 2 ^ f.shift)
    | none => pure ()
  each (((itemSpec it.sect it.typ).map (·.marks it.key)).getD []) fun r => wr r 1
  itemExtra it

/-- What an accepted image names (R25, R45). -/
def imageShow (svn build : Nat) : P Unit := do
  wr MLD_SVN_SVN svn
  wr MLD_BUILD_ID_BUILD_ID build

/-- A full image is accepted: the write pass stores every field. -/
def imageAccept (v : Verified) : P Unit := do
  let paired ← rd TWN_CFG_PAIRED
  imageClear
  each v.items itemStore
  imageShow v.svn v.build
  each (List.range 6) fun i => wr (MLD_DIGEST_DIGEST i) (bitsAt v.digest (64 * i) 64)
  wr GLB_STRUCT_STATUS_MODIFIED 0
  whlCfg (paired = 1)
  modLdr fun x => { x with running := none, boot := 0, accepted := true, items := v.items }
  loadShow 2 0 0 0 false false

/-! Refusals (R31, R32). -/

/-- A load is refused; the boot load goes on with the other copy, each refusal an event (R32). -/
def loadRefuse (cmd reason sect item : Nat) (pol partial' : Bool) : P Unit := do
  let m ← getM
  let b := m.ldr.boot
  loadShow 3 reason sect item pol partial'
  modLdr fun x => { x with running := none, boot := 0, fence := 0, next := [] }
  onlyIf (b ≠ 0 ∧ cmd ≠ 3) (do
    raise (((ev 0x0E 2 0x0182).b24 (cmd - 1)).h26 reason)
    onlyIf (b = 1) (do
      modLdr fun x => { x with boot := 2 }
      loadStart (3 - cmd) 3))

/-! Policy-only images (R43). -/

/-- One register write of a policy-only load: the item it comes from, its register, data and mask. -/
structure PolWrite where
  sect : Nat
  item : Nat
  r : Reg
  data : Nat
  mask : Nat
  deriving DecidableEq, Repr

/-- The register writes of an item's policy fields, the fields of one register together. -/
def itemPolicy (it : Item) : List PolWrite :=
  let fs := (it.fields.filter fun f => f.policy it).filterMap fun f => (f.tgt it.key).map fun r => (r, f.val it / 2 ^ f.shift)
  (fs.map (fun e => (⟨e.1.k, e.1.i⟩ : Reg))).eraseDups.map fun r =>
    let l := fs.filter fun e => e.1.k = r.k && e.1.i = r.i
    ⟨it.sect, it.idx, r, l.foldl (fun a e => a + e.2 % 2 ^ e.1.w * 2 ^ e.1.lo) 0, l.foldl (fun a e => a + e.1.bits) 0⟩

/-- The writes of a GATE_LIST: the shadow bank's registers, its BASE that of the active bank, and the switch. -/
def gatePolicy (m : Mach) (it : Item) : List PolWrite :=
  let a := m.g (TM_GATE_CTL_BANK it.key)
  let b := it.key * 2 + (1 - a)
  let c := it.key * 2 + a
  let all := 2 ^ 64 - 1
  [⟨it.sect, it.idx, ⟨.TM_GATE_A, b⟩, m.g (TM_GATE_A_BASE_NS c) + it.w 8 * 2 ^ 32, all⟩,
   ⟨it.sect, it.idx, ⟨.TM_GATE_B, b⟩, m.g (TM_GATE_B_BASE_SEC c) + it.h 6 * 2 ^ 48, all⟩]

/-- The policy writes of an item, in order. -/
def polWrites (m : Mach) (it : Item) : List PolWrite := if it.typ = 0x55 then gatePolicy m it else itemPolicy it

/-- The first policy write that a rule refuses as the state stands. -/
def polTest (m : Mach) (p : Path) (l : List PolWrite) : Option (Nat × PolWrite) :=
  l.findSome? fun w =>
    let r := writeTest m w.r w.data w.mask p
    if r = rcOK then none else some (r, w)

/-- A loader write passes the arbitration point. -/
def polWrite (p : Path) (w : PolWrite) : P Nat := do
  let m ← getM
  let c : CtlWrite := { path := p, addr := w.r.addr, data := w64 w.data, mask := w64 w.mask }
  let reason := writeTest m w.r w.data w.mask p
  if reason = rcOK then do
    let ds ← mergeApply [⟨c, w.r⟩]
    conflict ds
  else refuse w.r c reason
  return reason

/-- Policy writes in order, up to the first that is refused. -/
def polRun (p : Path) : List PolWrite → P (Option (Nat × PolWrite))
  | [] => return none
  | w :: t => do
    let r ← polWrite p w
    if r = rcOK then polRun p t else return some (r, w)

/-- The entries of a GATE_LIST go to the shadow bank, and the channel switches to it (R216). -/
def gateLoad (p : Path) (it : Item) : P Unit := do
  let m ← getM
  let b := it.key * 2 + (1 - m.g (TM_GATE_CTL_BANK it.key))
  each (List.range (it.h 6)) fun i => putGcl (b * 1024 + i) (it.at (16 + 8 * i) 0 8, it.at (16 + 8 * i) 8 32)
  fieldWrite p (TM_GATE_CTL_CHANGE it.key) 1

/-- The policy of a list of items is written in order; the answer names the refusal. -/
def polItems (p : Path) : List Item → P (Option (Nat × PolWrite))
  | [] => return none
  | it :: t => do
    let m ← getM
    let x ← polRun p (polWrites m it)
    match x with
    | some e => return some e
    | none => do
      onlyIf (it.typ = 0x55 ∧ m.g GLB_STRUCT_STATUS_STATE = stENABLED) (gateLoad p it)
      polItems p t

/-- A policy-only load is accepted. -/
def polAccept : P Unit := do
  let m ← getM
  imageShow m.ldr.svn m.ldr.build
  modLdr fun x => { x with running := none, items := x.next, next := [], fence := 0 }
  loadShow 2 0 0 0 true false

/-- A policy-only load stops part-way. -/
def polStop (cmd reason sect item : Nat) : P Unit := loadRefuse cmd reason sect item true true

/-- The sections after the windows, and the end of the load. -/
def polFinish (cmd code : Nat) : P Unit := do
  let m ← getM
  let x ← polItems (.loader code) (m.ldr.next.filter fun it => 7 < it.sect)
  match x with
  | some (r, w) => polStop cmd r w.sect w.item
  | none => polAccept

/-- The unlocked windows are written as one batch, followed by a Kerb fence; while a fence runs, the load waits. That a
policy-only image without an unlocked window runs no fence is the model's choice (R43; log entry 117). -/
def polWindows (cmd code : Nat) : P Unit := do
  let m ← getM
  let ws := m.ldr.next.filter fun it => it.typ = 0x71 && it.at 24 12 1 = 0
  if ws = [] then polFinish cmd code
  else if m.g KRB_FENCE_STATUS_STATE ≠ 0 then modLdr fun x => { x with fence := 1 }
  else do
    let x ← polItems (.loader code) ws
    match x with
    | some (r, w) => polStop cmd r w.sect w.item
    | none =>
      if m.g GLB_STRUCT_STATUS_STATE = stENABLED then do
        modLdr fun y => { y with fence := 2 }
        fieldWrite (.loader code) KRB_FENCE_CTL_GO 1
      else polFinish cmd code

/-- A policy-only image that has passed verification (R43). -/
def policyLoad (cmd code : Nat) (v : Verified) : P Unit := do
  let m ← getM
  let p : Path := .loader code
  let all := v.items.filter fun it => it.typ ≠ 0x71 || it.at 24 12 1 = 0
  if (List.range 6).any (fun i => m.g (MLD_DIGEST_DIGEST i) ≠ bitsAt v.digest (64 * i) 64) then
    loadRefuse cmd 0x010E 0 0 true false
  else match (phase2 v.items).or ((phase4 v.items).or ((phase5 v.items).or ((phase7 v.items).or (phase9 v.items)))) with
    | some c => loadRefuse cmd c.reason c.sect c.item true false
    | none =>
      match polTest m p (all.flatMap (polWrites m)) with
      | some (r, w) => loadRefuse cmd r w.sect w.item true false
      | none => do
        modLdr fun x => { x with next := v.items, svn := v.svn, build := v.build }
        let x ← polItems p (v.items.filter fun it => it.sect < 7)
        match x with
        | some (r, w) => polStop cmd r w.sect w.item
        | none => polWindows cmd code

/-! IMAGE_LOAD_DONE and the fence of a load. -/

/-- IMAGE_LOAD_DONE: the load that runs ends its verification pass and, where accepted, its write pass (R31, R33).
`flash` holds the bytes of the flash copy; the staging memory is read where the load names it. -/
def imageLoadDone (flash : List Nat) : P Unit := do
  let m ← getM
  match m.ldr.running with
  | some (cmd, code) =>
    if m.ldr.fence = 0 then
      let bs := if cmd = 3 then stageImage m else flash
      if leAt bs 9 1 % 2 = 0 ∧ m.g GLB_STRUCT_STATUS_STATE ≠ stDISABLED then loadRefuse cmd rcSTRUCT_BUSY 0 0 false false
      else
        let v := verify m.fuse (m.g MLD_SVN_MIN_SVN_MIN) (m.g GLB_ID_STEPPING) bs
        if v.reason ≠ 0 then loadRefuse cmd v.reason v.sect v.item (leAt bs 9 1 % 2 = 1) false
        else if v.pol then policyLoad cmd code v
        else imageAccept v
  | none => pure ()

/-- The item of the image that holds window `n`. -/
def windowItem (m : Mach) (n : Nat) : Nat := ((m.ldr.next.find? fun it => it.typ = 0x71 && it.key = n).map (·.idx)).getD 0

/-- KERB_FENCE_CHECK_DONE, with the load whose fence it may be: a refused fence stops that load (R43). -/
def fenceCheckRow : P Unit := do
  fenceCheckDone
  let m ← getM
  match m.ldr.running with
  | some (cmd, code) =>
    onlyIf (m.g KRB_FENCE_STATUS_STATE = 0) (
      if m.ldr.fence = 2 then polStop cmd (m.g KRB_FENCE_STATUS_REASON) 7 (windowItem m (m.g KRB_FENCE_STATUS_WINDOW))
      else onlyIf (m.ldr.fence = 1) (polWindows cmd code))
  | none => pure ()

/-- KERB_FENCE_DRAINED, with the load that waits for it (R43). -/
def fenceDrainedRow : P Unit := do
  let done ← fenceDrained
  let m ← getM
  match m.ldr.running with
  | some (cmd, code) =>
    onlyIf (done = true) (
      if m.ldr.fence = 2 then polFinish cmd code
      else onlyIf (m.ldr.fence = 1) (do
        modLdr fun x => { x with fence := 0 }
        polWindows cmd code))
  | none => pure ()

end Sys2Proof.Machine
end

