-- ==== Sys2Proof/Machine/Fm.lean ====
section
/-!
DEFINITION. The management endpoint (R421-R423): the FM API of Table 17.6, MCTP control and the SPDM responder, and the
mailbox commands that write the control space (R420). Codes of CXL, MCTP and SPDM are PRESUMED from those standards.
-/
namespace Sys2Proof.Machine

/-! The FM API (R422, Table 17.6). -/

/-- Return codes: Success, Invalid Input, Unsupported. -/
abbrev fmOK : Nat := 0
abbrev fmINPUT : Nat := 2
abbrev fmUNSUPPORTED : Nat := 3

/-- An FM API response. -/
def fmAnswer (code : Nat) (payload : List Nat) : P Unit := emit (.mgmt 0 code payload)

/-- Whether a path carries the FM API (R421): I3C, the PCIe VDM of a VCS in FM_VCS. -/
def fmServes (m : Mach) (p : Path) : Bool :=
  match p with
  | .bmc => true
  | .fmVdm v => bitsAt (m.g GLB_ARB_CFG_FM_VCS) v 1 = 1
  | _ => false

/-- An FM API command on a path that carries it; another path's traffic does not reach it. -/
def fmCmd (p : Path) (x : P Unit) : P Unit := do
  let m ← getM
  onlyIf (fmServes m p = true) x

/-- Ports that the image defines. -/
def fmPorts (m : Mach) : List Nat := (List.range 128).filter fun p => m.g (OCT_PORT_CFG_VALID p) = 1

/-- VCSs that the image defines. -/
def fmVcss (m : Mach) : List Nat := (List.range 64).filter fun v => (m.getVcs v).valid

/-- IDENTIFY_SWITCH_DEVICE: ports, active ports, VCSs, active VCSs, vPPBs. -/
def identify (p : Path) : P Unit := fmCmd p do
  let m ← getM
  fmAnswer fmOK [128, ((fmPorts m).map (2 ^ ·)).sum, 64, ((fmVcss m).map (2 ^ ·)).sum,
    ((fmVcss m).map fun v => 4 + (vppbs m v).length).sum]

/-- GET_PHYSICAL_PORT_STATE for a list of ports: number, link state, lanes, rate of each. A port that does not exist is
refused (R8). -/
def portStates (p : Path) (l : List Nat) : P Unit := fmCmd p do
  let m ← getM
  if l.any (128 ≤ ·) then do
    opRefused .FWM rcIMG_LIMIT 0xFF 0xFF (pathCode m p)
    fmAnswer fmINPUT []
  else fmAnswer fmOK (l.flatMap fun q => [q, Config.linkState (m.g (OCT_PORT_STATUS_STATE q)), m.g (OCT_PORT_STATUS_LANES q),
    m.g (OCT_PORT_STATUS_RATE q)])

/-- Physical Port Control: PERST of the slot of port `q` (R72), through arbitration. -/
def slotPerst (p : Path) (q v : Nat) : P Unit := fmCmd p do
  if q % 4 = 0 then do
    fieldWrite p (OCT_SLOT_CTL_PERST_FORCE (q / 4)) v
    fmAnswer fmOK []
  else fmAnswer fmINPUT []

/-- RESET_PPB: RETRAIN is written. -/
def resetPpb (p : Path) (q : Nat) : P Unit := fmCmd p do
  fieldWrite p (OCT_PORT_CTL_RETRAIN q) 1
  fmAnswer fmOK []

/-- SEND_PPB_CXL_IO_CONFIG_REQUEST: a PPB's configuration registers are CXL 3.1's; a read's data is a free value. -/
def ppbConfig (p : Path) (q : Nat) (write : Bool) : P Unit := fmCmd p do
  let m ← getM
  if m.g (OCT_PORT_CFG_VALID q) = 0 then fmAnswer fmINPUT []
  else if write then fmAnswer fmOK []
  else do
    let v ← freeBits 32
    fmAnswer fmOK [v]

/-- GET_VIRTUAL_CXL_SWITCH_INFO: the VCS as the image builds it: upstream port, agent, vPPBs with port and LD. -/
def vcsInfo (p : Path) (v : Nat) : P Unit := fmCmd p do
  let m ← getM
  let c := m.getVcs v
  if c.valid then fmAnswer fmOK ([v, c.up, c.agent, (vppbs m v).length] ++ (vppbs m v).flatMap fun e => [e.1, e.2])
  else fmAnswer fmINPUT []

/-- A command that Table 17.6 refuses, or does not list. -/
def fmRefused (p : Path) : P Unit := fmCmd p (fmAnswer fmUNSUPPORTED [])

/-- Whether a port is a fabric memory port (R66, R116). -/
def fabricPort (m : Mach) (q : Nat) : Bool :=
  m.g (OCT_PORT_CFG_VALID q) = 1 && m.g (OCT_PORT_CFG_ROLE q) = 1 && m.g (OCT_PORT_CFG_VCS q) = 0xFF

/-- Whether a port leads to multi-logical and dynamic capacity devices: a memory port, or a fabric edge port for remote ones
(Table 3.4). -/
def ldPort (m : Mach) (q : Nat) : Bool :=
  m.g (OCT_PORT_CFG_VALID q) = 1 && (m.g (OCT_PORT_CFG_ROLE q) = 1 || m.g (OCT_PORT_CFG_ROLE q) = 4)

/-- Whether LD `ld` of a multi-logical device, or of a remote one, is unbound. -/
def ldUnbound (m : Mach) (q ld : Nat) : Bool :=
  ldPort m q && !(m.ldb.any fun e => e.1 = q && e.2.1 = ld) && (multiLd m q || m.g (OCT_PORT_CFG_ROLE q) = 4)

/-- Whether LD `ld` of port `q` is one that an LD_BIND item marks as a dynamic capacity device's (R70). -/
def ldDynamic (m : Mach) (q ld : Nat) : Bool := ldPort m q && m.ldb.any fun e => e.1 = q && e.2.1 = ld && e.2.2.2

/-- A command for the device at port `q` goes out of that port, toward an edge port with DPID and SPID; the answer is the
device's, and is passed on as it comes (R70, R422). -/
def fmTunnel (p : Path) (q : Nat) (op : Op) (code ld addr : Nat) (data : List Word) (allowed : Mach → Bool) : P Unit :=
  fmCmd p do
    let m ← getM
    if allowed m ∧ portUp m q = true then
      xsend { op := op, cls := 7, inp := epMG, out := q, addr := addr, len := 16 + 8 * data.length, data := data,
              x := code :: ld :: edgeIds m q ld }
    else fmAnswer fmINPUT []

/-- To fabric memory ports and unbound LDs (Table 17.6). -/
def ldCommand (p : Path) (q : Nat) (op : Op) (code ld addr : Nat) (data : List Word) : P Unit :=
  fmTunnel p q op code ld addr data fun m => fabricPort m q || ldUnbound m q ld

/-- Get LD Info and Get LD Allocations: to a fabric memory port, or to a device with an unbound LD (Table 17.6). -/
def ldQuery (p : Path) (q code : Nat) : P Unit :=
  fmTunnel p q .ioMsg code 0 0 [] fun m => fabricPort m q || (List.range 16).any (ldUnbound m q)

/-- Get Multi-Headed Info and Get Head Info: to the memory device at port `q`. -/
def headCommand (p : Path) (q code : Nat) : P Unit :=
  fmTunnel p q .ioMsg code 0 0 [] fun m => ldPort m q

/-- Dynamic capacity commands pass unchanged to a dynamic capacity device's LD (R70); a fabric memory port refuses them. -/
def dynCapacity (p : Path) (q code ld : Nat) (data : List Word) : P Unit := do
  let m ← getM
  if fabricPort m q then fmRefused p
  else fmTunnel p q .ioMsg code ld 0 data fun m => ldDynamic m q ld

/-! Event records (R368, R372, R422). -/

/-- The records that wait in the firmware event queue, as words of SRAM. -/
def queueWords (m : Mach) : List Nat :=
  let n := 2 ^ m.g INT_EVQ_BASE_SIZE_LOG2
  let w := idxDiff (m.g INT_EVQ_IDX_PROD) (m.g INT_EVQ_IDX_CONS)
  (List.range w).flatMap fun i => (List.range 4).map fun j =>
    (m.getSram (m.g INT_EVQ_BASE_BASE * 4 + (m.g INT_EVQ_IDX_CONS + i) % n * 4 + j)).toNat

/-- Whether a path is that of VCS `v`'s host, which reads its own domain device's logs (R372). -/
def logHost (p : Path) (v : Nat) : Bool :=
  match p with
  | .bar0 w | .fmVdm w => w = v
  | _ => false

/-- GET_EVENT_RECORDS: of the event queue over the FM API, or of one log of a VCS's domain device for its host. -/
def getEvents (p : Path) (log : Option (Nat × Nat)) : P Unit := do
  let m ← getM
  match log with
  | none => fmCmd p (fmAnswer fmOK (queueWords m))
  | some (v, s) => onlyIf (logHost p v = true ∧ s < 4) (emit (.mgmt 4 fmOK ((m.getHlog (v * 4 + s)).flatMap EvRec.words)))

/-- CLEAR_EVENT_RECORDS: `n` records, the oldest first. -/
def clearEvents (p : Path) (log : Option (Nat × Nat)) (n : Nat) : P Unit := do
  match log with
  | none => fmCmd p do
    let m ← getM
    let w := idxDiff (m.g INT_EVQ_IDX_PROD) (m.g INT_EVQ_IDX_CONS)
    if w < n then fmAnswer fmINPUT []
    else do
      wr INT_EVQ_IDX_CONS ((m.g INT_EVQ_IDX_CONS + n) % 2 ^ 32)
      fmAnswer fmOK []
  | some (v, s) => onlyIf (logHost p v = true ∧ s < 4) (do
    modHlog (v * 4 + s) (·.drop n)
    emit (.mgmt 4 fmOK []))

/-- SET_EVENT_INTERRUPT_POLICY: held by binding. -/
def eventPolicy (p : Path) (v : Nat) : P Unit := fmCmd p do
  let m ← getM
  let b := rank m p
  modMgx fun x => { x with evPolicy := (b, v) :: x.evPolicy.filter (fun e => e.1 ≠ b) }
  fmAnswer fmOK []

/-! The vendor commands (Table 17.6). -/

/-- Reads of consecutive registers. -/
def readRun (p : Path) : Nat → Nat → List Nat → P (List Nat)
  | 0, _, acc => return acc
  | n + 1, a, acc => do
    let v ← ctlRead p a 8
    readRun p n (a + 8) (acc ++ [v])

/-- CTL_READ: up to 32 consecutive registers. -/
def ctlReads (p : Path) (addr n : Nat) : P Unit := fmCmd p do
  if 1 ≤ n ∧ n ≤ 32 then do
    let l ← readRun p n addr []
    fmAnswer fmOK l
  else fmAnswer fmINPUT []

/-- CTL_WRITE: one register, with a 64-bit write mask, through arbitration. -/
def ctlWrite (p : Path) (addr : Nat) (data mask : Word) : P Unit := fmCmd p do
  regWrite [{ path := p, addr := addr, data := data, mask := mask }]
  fmAnswer fmOK []

/-- STAGE_WRITE: MLD_STAGE_ADDR, then up to 1 KiB through MLD_STAGE_DATA. -/
def stageBulk (p : Path) (addr : Nat) (ws : List Word) : P Unit := fmCmd p do
  if ws.length ≤ 128 then do
    wordWrite p .MLD_STAGE_ADDR 0 (w64 (addr % 2 ^ 19 * 8))
    each ws fun w => wordWrite p .MLD_STAGE_DATA 0 w
    fmAnswer fmOK []
  else fmAnswer fmINPUT []

/-! Mailbox commands that write the control space (R420). -/

/-- TM_PROGRAM: firmware writes the settings in bulk. -/
def tmProgram (x status : Nat) (ws : List (Nat × Word × Word)) : P Unit := do
  let m ← getM
  if mbServes m x 0x0030 then
    onlyIf (status = rcOK) (each ws fun w => regWrite [{ path := .firmware 0, addr := w.1, data := w.2.1, mask := w.2.2 }])
    mbDone x status []

/-- WARM_RESET: firmware writes GLB_RESET_CTL.WARM with its KEY (R413). -/
def mbWarmReset (x : Nat) : P Unit := do
  let m ← getM
  if mbServes m x 0x0051 then
    mbDone x rcOK []
    wordWrite (.firmware 0) .GLB_RESET_CTL 0 0xA501#64

/-! MCTP control (R421). -/

/-- MCTP_CONTROL: Set Endpoint ID, Get Endpoint ID, Get MCTP Version Support, Get Message Type Support; any other command
is unsupported. The message types are MCTP control, SPDM, FM API and CCI. -/
def mctpControl (cmd arg : Nat) : P Unit := do
  let m ← getM
  match cmd with
  | 1 => do
    modMgx fun x => { x with eid := arg % 256 }
    emit (.mgmt 1 0 [arg % 256])
  | 2 => emit (.mgmt 1 0 [m.mgx.eid])
  | 4 => emit (.mgmt 1 0 [0xF1F3F100])
  | 5 => emit (.mgmt 1 0 [0, 5, 7, 8])
  | _ => emit (.mgmt 1 5 [])

/-! SPDM (R423). -/

/-- An SPDM response. -/
def spdmSend (code : Nat) (payload : List Nat) : P Unit := emit (.mgmt 2 code payload)

/-- ERROR: unexpected request, or invalid request. -/
def spdmError (e : Nat) : P Unit := spdmSend 0x7F [e]

/-- A request that needs negotiation stage `n`. -/
def spdmAt (c n : Nat) (x : P Unit) : P Unit := do
  let s ← getSpdm c
  if n ≤ s.stage then x else spdmError 4

/-- Whether connection `c` exists: over I3C, the PCIe VDM of a VCS, the DOE mailbox of a host upstream port (R421, R423). -/
def spdmThere (m : Mach) (c : Nat) : Bool :=
  c = 0 || (if c ≤ 64 then (m.getVcs (c - 1)).valid else (upVcs m (c - 65)).isSome)

/-- A request on connection `c`, where it exists. -/
def onSpdm (c : Nat) (x : P Unit) : P Unit := do
  let m ← getM
  onlyIf (spdmThere m c = true) x

/-- GET_VERSION starts the connection afresh: version 1.3. -/
def spdmVersion (c : Nat) : P Unit := do
  putSpdm c { stage := 1 }
  spdmSend 0x04 [0x1300]

/-- GET_CAPABILITIES: certificates, challenge, measurements with signature, key exchange, heartbeat, key update,
encryption and authentication of sessions. -/
def spdmCaps (c : Nat) : P Unit := spdmAt c 1 do
  modSpdm c fun s => { s with stage := Nat.max s.stage 2 }
  spdmSend 0x61 [0x2 + 0x4 + 0x10 + 0x40 + 0x80 + 0x200 + 0x2000 + 0x4000]

/-- NEGOTIATE_ALGORITHMS: ECDSA P-384, SHA-384, secp384r1, AES-256-GCM. -/
def spdmAlgorithms (c : Nat) : P Unit := spdmAt c 2 do
  modSpdm c fun s => { s with stage := 3 }
  spdmSend 0x63 [0x80, 0x2, 0x10, 0x2]

/-- The chain of a certificate slot: slot 0 the device identity, slot 1 the alias for the running firmware's SVN. -/
def certChain (m : Mach) (slot : Nat) : List Nat := Config.certChain slot (if slot = 1 then m.g FWM_SVN_SVN else 0)

/-- GET_DIGESTS: of slots 0 and 1. -/
def spdmDigests (c : Nat) : P Unit := spdmAt c 3 do
  let m ← getM
  spdmSend 0x01 [0x3, Config.sha384 (certChain m 0), Config.sha384 (certChain m 1)]

/-- GET_CERTIFICATE: `n` bytes of a slot's chain from offset `o`. -/
def spdmCertificate (c slot o n : Nat) : P Unit := spdmAt c 3 do
  let m ← getM
  if slot < 2 then
    let l := certChain m slot
    spdmSend 0x02 ([slot, l.length - o - n] ++ (l.drop o).take n)
  else spdmError 1

/-- CHALLENGE: a nonce and a signature over the transcript. -/
def spdmChallenge (c slot : Nat) : P Unit := spdmAt c 3 do
  let m ← getM
  if slot < 2 then
    let n ← freeBits 256
    let s ← freeBits 768
    spdmSend 0x03 [slot, Config.sha384 (certChain m slot), n, s]
  else spdmError 1

/-- The measurements: 1 the ROM, 2 the running Fichesyn image, 3 STRUCT_DIGEST, 4 the life-cycle state and SVN fuses,
5 the partner's DIGEST8 or zeros when unpaired. -/
def measurement (m : Mach) (i : Nat) : Nat :=
  match i with
  | 1 => Config.romMeasurement
  | 2 => m.mgx.hash
  | 3 => ((List.range 6).map fun w => m.g (MLD_DIGEST_DIGEST w) * 2 ^ (64 * w)).sum
  | 4 => (if m.fuse.production then 1 else 0) + m.fuse.fwSvnMin * 2 ^ 32 + m.fuse.mldSvnMin * 2 ^ 64
  | _ => if m.g TWN_CFG_PAIRED = 1 then m.g TWN_WHL_DIGEST_DIGEST8 else 0

/-- GET_MEASUREMENTS: one index, all of them (0xFF), or their number (0), signed where asked. -/
def spdmMeasurements (c i : Nat) (sign : Bool) : P Unit := spdmAt c 3 do
  let m ← getM
  if i = 0 ∨ i = 0xFF ∨ i ≤ 5 then
    let l := if i = 0 then [] else if i = 0xFF then [1, 2, 3, 4, 5] else [i]
    let s ← if sign then freeBits 768 else pure 0
    spdmSend 0x60 ([if i = 0 then 5 else l.length] ++ (l.flatMap fun j => [j, measurement m j]) ++ if sign then [s] else [])
  else spdmError 1

/-- KEY_EXCHANGE: a session handshake starts, with the responder's key share and signature. -/
def spdmKeyExchange (c : Nat) (reqSession : Nat) : P Unit := spdmAt c 3 do
  let k ← freeBits 768
  let s ← freeBits 768
  let r ← freeBits 16
  modSpdm c fun x => { x with sessions := (reqSession % 65536 + r * 65536, false, 0) :: x.sessions }
  spdmSend 0x64 [r, k, s]

/-- The sessions of a connection with session `id` changed by `f`. -/
def sessionMod (c id : Nat) (f : Bool × Nat → Bool × Nat) : P Unit :=
  modSpdm c fun s => { s with sessions := s.sessions.map fun e => if e.1 = id then (id, f e.2) else e }

/-- A request inside session `id`, whose handshake has completed or not as `up` says. -/
def inSession (c id : Nat) (up : Bool) (x : P Unit) : P Unit := do
  let s ← getSpdm c
  if s.sessions.any (fun e => e.1 = id && e.2.1 = up) then x else spdmError 4

/-- FINISH: the requester's proof holds, and the session is established; else the handshake ends. -/
def spdmFinish (c id : Nat) (ok : Bool) : P Unit := inSession c id false do
  if ok then do
    sessionMod c id fun e => (true, e.2)
    spdmSend 0x65 []
  else do
    modSpdm c fun s => { s with sessions := s.sessions.filter fun e => e.1 ≠ id }
    spdmError 6

/-- HEARTBEAT keeps a session alive. -/
def spdmHeartbeat (c id : Nat) : P Unit := inSession c id true (spdmSend 0x68 [])

/-- KEY_UPDATE: operations 1 and 2 take the next generation of keys, 3 verifies the new key. -/
def spdmKeyUpdate (c id op tag : Nat) : P Unit := inSession c id true do
  if 1 ≤ op ∧ op ≤ 3 then do
    onlyIf (op ≠ 3) (sessionMod c id fun e => (e.1, e.2 + 1))
    spdmSend 0x69 [op, tag]
  else spdmError 1

/-- END_SESSION. -/
def spdmEndSession (c id : Nat) : P Unit := inSession c id true do
  modSpdm c fun s => { s with sessions := s.sessions.filter fun e => e.1 ≠ id }
  spdmSend 0x6C []

end Sys2Proof.Machine
end

