-- ==== Sys2Proof/Machine/Resets.lean ====
section
/-!
DEFINITION. Resets (R412, R413, R462), the start-up sequence (R414), the loss and return of REFCLK (R379), and the pins
of Table 1.6 that no other file takes.
-/
namespace Sys2Proof.Machine

/-! What a reset clears (Tables 17.1 and 19.4). -/

/-- The contents of every domain but AO, MGMT and CORE, and what the image defined. -/
def contentsClear : P Unit := do
  clearHlog
  putLdr ({} : Loader)
  clearVcs
  putLdb []
  putHomeSel false
  putDomDef []
  clearDec
  clearSf
  clearMsix
  clearRing
  clearXin
  clearStg
  clearFlowt
  clearXq
  clearXdef
  clearXturn
  clearXaged
  clearMcs
  clearMcq
  putXfree ({} : XFree)
  clearOwed
  clearMir
  clearXwait
  clearXacct
  clearXdown
  clearXret
  clearSqin
  putRrLast 0
  putRrBurst 0
  clearDbfNext
  clearDir
  clearTrk
  clearSpecT
  clearMemT
  clearMru
  putBic []
  clearSqx
  clearCrec
  clearCwait
  clearCrn
  clearMtt
  clearBlind
  clearPagent
  clearAlost
  clearSlot
  clearSrx
  putSlotTmo false
  putPfree ({} : XFree)
  putSfree ({} : XFree)
  clearTq
  clearPush
  clearAct
  clearBuck
  clearShp
  putBmove []
  putTmSub 0
  clearLane
  clearGcl
  clearGopen
  clearWire
  putKacc []
  clearJob
  clearAcc
  clearPred
  clearKline
  clearKmiss
  putLmLate 0
  putLmTmo false
  putLmRem false
  clearVwin
  putReel []
  clearSpnBuf
  clearSpnWait
  putSpn ({} : SpnX)
  putCout []
  putScrub ({} : ScrubX)
  clearRaw
  putFaulty []
  clearDtgt
  clearDwait
  clearArrT
  putTst ({} : TstX)
  putCen ({} : CenX)
  clearCskip
  clearTrc
  putTrcNext 0
  clearSpdm

/-- What a warm reset keeps and a cold reset does not: the time base, the holding queue, staging memory, the slot
channels, the fence, and what AO, MGMT and CORE hold beside their registers. -/
def keptClear : P Unit := do
  putTb ⟨0, 0, 0, 0, 0, none⟩
  putHold []
  putEvPend []
  putEvLost false
  putFeSeen false
  putRepairs []
  putAoLatch []
  clearSram
  clearStage
  clearPort
  putFeDue false
  putTwx ({} : TwinX)
  clearHbTx
  putWhl ({} : WhlX)
  clearRetire
  putRetFull false
  putTherm ({} : ThermX)
  putAvs ({} : AvsX)
  putAo 0
  clearSlp
  putMgx ({} : MgmtX)

/-- Every register returns to its reset value, but for the kinds that `keep` names. -/
def regsReset (keep : List RegKind) : P Unit := do
  let m ← getM
  each m.regs fun e => if keep.contains e.1.k then pure () else rstReg e.1.k e.1.i

/-- Registers that a warm reset keeps whole: RWS fields, live state and fuse fields (Table 19.4), and the retire list,
which only cold reset clears (R366). -/
def warmKept : List RegKind := [.GLB_ARB_CFG, .FWM_BOOT_CTL, .INT_FE_LOG, .TB_CTL, .TB_PPS_CFG, .TB_TOD, .TB_TIME_NS,
  .TB_TIME_SEC, .TB_TIME64, .TB_STATUS, .TB_PPS_CAP, .PWR_CLK_STATUS, .PWR_THERM_STATUS, .PWR_AVS, .SLP_STATUS,
  .SLP_MEAS, .TWN_ROLE, .TWN_WHL_STATUS, .GLB_ID, .GLB_CAP0, .GLB_CAP1, .GLB_LIFECYCLE, .MLD_SVN_MIN, .TST_EXPECT,
  .INT_RETIRE_STATUS]

/-! Start-up (R414). -/

/-- The bits of PWR_RESET_CAUSE. -/
abbrev rstPORST : Nat := 1
abbrev rstBROWNOUT : Nat := 2
abbrev rstPIN : Nat := 4
abbrev rstCMD : Nat := 8
abbrev rstREFCLK : Nat := 16
abbrev rstTHERMAL : Nat := 32

/-- PWR_RESET_CAUSE is rewritten. -/
def causeShow (c : Nat) : P Unit := wrReg .PWR_RESET_CAUSE 0 c

/-- MGMT and CORE are ON. -/
def mgmtUp (m : Mach) : Bool := domSt m 1 = dsON && domSt m 2 = dsON

/-- Records that AO latched are built once CORE is ON after a reset, and enter the holding queue ahead of every other
(R370 step 7). The fence of their FE is already set. -/
def aoFlush : P Unit := do
  let m ← getM
  if m.aoLatch ≠ [] then
    each m.aoLatch evFeLog
    onlyIf (m.aoLatch.any (fun e => decide (2 ≤ e.sev)) = true) (emit .mgmtIrq)
    if m.g INT_EVQ_BASE_EN = 1 then each m.aoLatch evqPut
    else do
      let l := m.aoLatch ++ m.hold
      putHold (l.take 256)
      onlyIf (256 < l.length) (do
        addSat INT_EVQ_CNT_HOLD_LOST (l.length - 256)
        putEvLost true)
    putAoLatch []
    putFeDue false

/-- MGMT and CORE run: the records of AO are built and the ROM starts (steps 2 and 3). -/
def mgmtReady : P Unit := do
  aoFlush
  wr FWM_BOOT_STATUS_STAGE fsROM
  romStart

/-- Step 2: with REFCLK present the AVS point is written (R439), and MGMT and CORE are woken. -/
def startUp : P Unit := do
  let m ← getM
  if m.g PWR_CLK_STATUS_REFCLK_OK = 1 then
    avsStart
    each [1, 2] fun d => do
      let k ← getM
      onlyIf (domSt k d ≠ dsON ∧ domSt k d ≠ dsWAKING) (wakeStart d)

/-- WAKE_STEP_READY, and the ROM where it brings MGMT and CORE up. -/
def wakeStepReadyRow (d : Nat) : P Unit := do
  let m ← getM
  wakeStepReady d
  let k ← getM
  onlyIf (mgmtUp m = false ∧ mgmtUp k = true) mgmtReady

/-! Warm reset. -/

/-- The fence at a warm reset (R339, R413): a paired part is fenced with cause 2; a fence set while PAIRED was 0 is
cleared, and its role is left at the next ENABLED (Table 13.2). What else the role shows ends with the registers. -/
def warmFence : P Unit := do
  let m ← getM
  let held := m.g TWN_ROLE_STATE = roFENCED
  let paired := m.g TWN_CFG_PAIRED = 1
  if paired ∧ (¬held ∨ m.twx.unfenced = true) then do
    wr TWN_ROLE_STATE roFENCED
    wr TWN_ROLE_FENCE_CAUSE 2
    putTwx { pairedFence := true }
    raise ((twnEv 0 0x0995).b24 2)
  else if held then do
    let clear := m.twx.unfenced || (!paired && !m.twx.pairedFence)
    onlyIf (clear = true) (wr TWN_ROLE_FENCE_CAUSE 0)
    putTwx { pairedFence := m.twx.pairedFence && !clear, unfenced := clear }
  else do
    wr TWN_ROLE_STATE roSOLO
    putTwx {}
  wr TWN_ROLE_HOMES 0
  wr TWN_ROLE_MIRRORED 0
  wr TWN_ROLE_COPY_DONE 0
  wr TWN_ROLE_SETTLING 0
  wr TWN_ROLE_MOVING 0
  wr TWN_ROLE_BLIND 0

/-- A warm reset is carried out (Table 17.1, R462): what it keeps stays, the domains but AO, MGMT and CORE are off at
once, and the ROM starts, once MGMT and CORE are woken where they are not ON. -/
def warmReset (cause : Nat) : P Unit := do
  relock
  warmFence
  let m ← getM
  regsReset warmKept
  wr MLD_CTL_AUTO_REAPPLY (m.g MLD_CTL_AUTO_REAPPLY)
  wr MLD_CTL_PREFER_B (m.g MLD_CTL_PREFER_B)
  wr FWM_BOOT_STATUS_WDOG_RESETS (m.g FWM_BOOT_STATUS_WDOG_RESETS)
  wr GLB_STRUCT_STATUS_REFUSALS (m.g GLB_STRUCT_STATUS_REFUSALS)
  wr FWM_SVN_SVN_MIN (m.g FWM_SVN_SVN_MIN)
  each [1, 2] fun d => onlyIf (domSt m d = dsON) (wr (PWR_DOM_STATUS_STATE d) dsON)
  tbAddend
  contentsClear
  repairsKeep (fun d => decide (d ≤ 2))
  each m.port fun e => putPort e.1 { perstDone := e.2.perstDone }
  each (List.range 32) slotPerstShow
  putMgx {}
  causeShow (cause ||| m.therm.absorbed)
  onlyIf (m.g PWR_THERM_STATUS_TRIP = 1) (wr PWR_THERM_STATUS_TRIP 0)
  modTherm fun x => { x with cool := 0, absorbed := 0 }
  if mgmtUp m then mgmtReady else startUp

/-- A warm reset is requested for `cause`: none while PORST_N is asserted; one requested during a thermal trip is held
and absorbed into the one that ends it (R392, R412). -/
def warmRequest (cause : Nat) : P Unit := do
  let m ← getM
  if m.pins.porst = true ∨ cause = 0 then pure ()
  else if m.g PWR_THERM_STATUS_TRIP = 1 then modTherm fun x => { x with absorbed := x.absorbed ||| cause }
  else warmReset cause

/-- The causes that WARM_RESET names: the pin, and a command that was accepted and whose 10 us have passed (R413). -/
def warmBits (m : Mach) (pin cmd : Bool) : Nat :=
  (if pin then rstPIN else 0) + (if cmd && m.mgx.warmDue then rstCMD else 0)

/-- WARM_RESET (R412). -/
def warmRow (pin cmd : Bool) : P Unit := do
  let m ← getM
  onlyIf (cmd = true) (modMgx fun x => { x with warmDue := false })
  warmRequest (warmBits m pin cmd)

/-- THERMAL_SAMPLE (R391, R392): the sample that ends a trip starts the warm reset. -/
def thermalRow (temps : List Int) (sensor : Nat) : P Unit := do
  let cool ← thermalSample temps sensor
  onlyIf (cool = true) (warmReset rstTHERMAL)

/-- REFCLK_RETURN (R379): the AO clock switches back, and the loss that AO latched ends in a warm reset. At a start-up that
waits for REFCLK, step 2 goes on (R414). -/
def refclkReturn (pin cmd : Bool) : P Unit := do
  let m ← getM
  if m.g PWR_CLK_STATUS_REFCLK_OK = 0 ∧ m.pins.porst = false then
    wr PWR_CLK_STATUS_REFCLK_OK 1
    wr PWR_CLK_STATUS_LFO_ACTIVE 0
    tbClock false
    if m.aoLatch.any (fun e => e.code = 0x0A87) then warmRequest (rstREFCLK + warmBits m pin cmd)
    else onlyIf (m.g PWR_THERM_STATUS_TRIP = 0) startUp

/-! Cold reset. -/

/-- Every field returns to its reset value. REFCLK is as it was. -/
def coldReset (cause : Nat) : P Unit := do
  let m ← getM
  regsReset [.PWR_CLK_STATUS]
  wr PWR_CLK_STATUS_CORE_PLL_LOCK 0
  wr PWR_CLK_STATUS_MGMT_PLL_LOCK 0
  contentsClear
  clearPort
  keptClear
  modPins fun x => { x with strapReported := false, present := List.replicate 32 false,
                            slotPerst := List.replicate 32 true }
  tbClock (m.g PWR_CLK_STATUS_LFO_ACTIVE = 1)
  causeShow cause

/-- The fuse fields are loaded (Table 19.4), and TWIN_ID as sampled. -/
def fuseLoad : P Unit := do
  let m ← getM
  wr GLB_ID_TWIN_ID (if m.pins.twinId then 1 else 0)
  wr GLB_LIFECYCLE_STATE (if m.fuse.production then 1 else 0)
  wr MLD_SVN_MIN_SVN_MIN m.fuse.mldSvnMin
  wr FWM_SVN_SVN_MIN m.fuse.fwSvnMin
  wr PWR_AVS_FUSED m.fuse.avs

/-- PORST_RELEASE: TWIN_ID is sampled, AO runs, and the sequence of Table 17.2 starts (R20, R414). `refclk` says whether
REFCLK is present. -/
def porstRelease (twinId refclk : Bool) : P Unit := do
  let m ← getM
  if m.pins.porst = true then
    modPins fun x => { x with porst := false, twinId := twinId }
    wr PWR_CLK_STATUS_REFCLK_OK (if refclk then 1 else 0)
    wr PWR_CLK_STATUS_LFO_ACTIVE (if refclk then 0 else 1)
    tbClock !refclk
    fuseLoad
    startUp

/-- A cold reset (R390, R412): PORST_N asserted holds the part in reset until it is released; after a hard brown-out alone
the sequence starts at once. Warm resets requested in the same cycle are absorbed. -/
def coldRow (c : ColdCause) (pin cmd : Bool) : P Unit := do
  let m ← getM
  let bits := (match c with | .porst => rstPORST | .brownout => rstBROWNOUT | .both => rstPORST + rstBROWNOUT)
  let held := m.pins.porst || c != .brownout
  coldReset (bits + warmBits m pin cmd + (if m.pins.porst = true ∧ c = .brownout then rstPORST else 0))
  modPins fun x => { x with porst := held }
  if held then pure () else do
    fuseLoad
    startUp

/-- TWIN_ID_CHANGE: the deglitched level of TWIN_ID differs from the value sampled; reported once per cold reset (R20). -/
def twinIdChange (level : Bool) : P Unit := do
  let m ← getM
  onlyIf (m.pins.porst = false ∧ level ≠ m.pins.twinId ∧ m.pins.strapReported = false) (do
    modPins fun x => { x with strapReported := true }
    raise (((ev 0x01 0 0x018C).b24 (if m.pins.twinId then 1 else 0)).b25 (if level then 1 else 0)))

/-! What every command ends with. -/

/-- The records of the step are delivered in their order (R370), the fence of an FE record among them follows with its
own (R369), and the output pins are set: PARTNER_ALIVE_OUT (R339) and THERMTRIP_N, low while TRIP is 1. -/
def settle : P Unit := do
  evFlush
  let m ← getM
  onlyIf (m.feDue = true) (do
    fence 3
    evFlush)
  putFeDue false
  let k ← getM
  modPins fun x => { x with
    aliveOut := k.g GLB_STRUCT_STATUS_STATE = stENABLED && k.g TWN_ROLE_STATE != roFENCED && domSt k 2 = dsON
    thermTrip := k.g PWR_THERM_STATUS_TRIP = 1 }

/-- A command: what left the part before is gone, its program runs, and what follows in the same step is settled. -/
def cmd (p : P Unit) (s : State) : Host.Outcome State Fault Refusal :=
  runCmd (do
    putOut []
    p
    settle) s

end Sys2Proof.Machine
end

