-- ==== Sys2Proof/Machine/Rows.lean ====
section
/-!
DEFINITION. What several commands share beside their families' files: domain conditions, a write of several fields of one
register, an access to a data register, FLUSHED notices (R108), and writes to a Plaza whose traffic manager is off (R384).
-/
namespace Sys2Proof.Machine

/-- Program `x` while domain `d` is ON: what a DRAINING domain starts no more (Table 15.4). -/
def whileOn (d : Nat) (x : P Unit) : P Unit := do
  let m ← getM
  onlyIf (domSt m d = dsON) x

/-- Program `x` while domain `d` is ON or DRAINING. -/
def whileUp (d : Nat) (x : P Unit) : P Unit := do
  let m ← getM
  onlyIf (domSt m d = dsON ∨ domSt m d = dsDRAINING) x

/-- A Boolean operand as a field's value. -/
def flag (b : Bool) : Nat := if b then 1 else 0

/-- One write that covers several fields of one register. -/
def fieldsWrite (p : Path) (l : List (RF × Nat)) : P Unit :=
  match l with
  | [] => pure ()
  | (f, _) :: _ => regWrite [{
      path := p
      addr := (⟨f.k, f.i⟩ : Reg).addr
      data := w64 (l.foldl (fun a e => a + e.2 % 2 ^ e.1.w * 2 ^ e.1.lo) 0)
      mask := w64 (l.foldl (fun a e => a + e.1.bits) 0) }]

/-- An access to a data register: a write of the whole register, or a read. -/
def dataAccess (p : Path) (k : RegKind) (i : Nat) (data : Option Word) : P Unit :=
  match data with
  | some v => wordWrite p k i v
  | none => regRead p (⟨k, i⟩ : Reg).addr 8

/-- A request's opcode by its place in the list of opcodes, as a FWD carries it (R150). -/
def requestAt (n : Nat) : Op := ([.rdS, .rdA, .rdI, .memInv, .memWr, .memWrPtl] : List Op).getD n .rdS

/-- The request that a discarded FWD carried comes back to its home Square as a RETURN MOVED of that one waiter (R150). -/
def fwdFlushed (sq : Nat) (q : Msg) : P Unit :=
  let x := q.x.drop 1
  retTake sq q.inp (lineOf q.addr) .moved none false
    (some { stamp := nth x 0, msg := { q with op := requestAt (nth x 2), cls := nth x 3, inp := nth x 4, x := x.drop 5 } })
    1 (nth x 1) 1 true

/-- FLUSHED_NOTICE: the notice reaches the endpoint that originated the message `was`, which closes its transaction
(R108, R388). -/
def flushedNotice (was : Op) (q : Msg) : P Unit := do
  let m ← getM
  if q.out < 128 then crnFlushed q.out (lineOf q.addr)
  else if q.out < 160 then (if was = .fwd then fwdFlushed (q.out - 128) q else sqFlushed (q.out - 128) q was)
  else if q.out < 164 then
    match missOf m (q.out - 160) (lineOf q.addr) with
    | some e => missLost (q.out - 160) e
    | none => pure ()
  else if q.out = epTM then tmFlushed q
  else onlyIf (q.out = epSPN) (modSpn fun x => { x with relay := x.relay.erase (q.agent, lineOf q.addr) })

/-- SLOT_LINE_WRITE: while TM is not powered the write completes to its host and is discarded (R384). -/
def plazaWrite (v dpa tag mask : Nat) (data : List Word) (poison : Bool) : P Unit := do
  let m ← getM
  if domSt m dTM = dsON ∨ domSt m dTM = dsDRAINING then slotLineWrite v dpa tag mask data poison
  else ldAnswer v tag dpa false

end Sys2Proof.Machine
end

