-- ==== Sys2Proof/Machine/ExecCrossing.lean ====
section
/-!
DEFINITION. The meanings of commands, one definition for each, over the operations of the families' files. The Crossing.
-/
namespace Sys2Proof.Machine

/-- MESSAGE_DISPATCH (R92): A message at an input head is classed, admitted, given a plane and dispatched, or cut
through. -/
def execMessageDispatch (e : Fin 168) (c : Fin 8) (q : Option Msg) (s : State) : Host.Outcome State Fault Refusal :=
  cmd (messageDispatch e c q) s

/-- HEAD_ADMIT (R85): A message waiting at its input-class head for buffer or a draining flowlet entry is admitted
when room appears. -/
def execHeadAdmit (e : Fin 168) (c : Fin 8) (s : State) : Host.Outcome State Fault Refusal :=
  cmd (dispatchHead e c) s

/-- CELL_LINKED (R90): The link stage links a cell into its queue and acknowledges it to the input. -/
def execCellLinked (e : Fin 168) (plane : Fin 4) (s : State) : Host.Outcome State Fault Refusal :=
  cmd (cellLinked e plane) s

/-- OUTPUT_SEND (R88): An output stage chooses a class queue by priority and DRR and sends its head message. -/
def execOutputSend (ep : Fin 168) (s : State) : Host.Outcome State Fault Refusal :=
  cmd (outputSend ep) s

/-- PLANE_PATH_CHECK_DONE (R95): A STARTING plane passes its path check and enters SERVICE. -/
def execPlanePathCheckDone (plane : Fin 4) (s : State) : Host.Outcome State Fault Refusal :=
  cmd (planeCheckPass plane) s

/-- PLANE_PATH_CHECK_TIMEOUT (R95): A plane whose path check fails or exceeds 20 us becomes LOST with cause
TEST_FAIL. -/
def execPlanePathCheckTimeout (plane : Fin 4) (s : State) : Host.Outcome State Fault Refusal :=
  cmd (planeCheckFail plane) s

/-- PLANE_ERROR (R96): An uncorrectable check or parity error on a plane makes it LOST and resends its unacknowledged
cells. -/
def execPlaneError (plane : Fin 4) (parity : Bool) (s : State) : Host.Outcome State Fault Refusal :=
  cmd (planeError plane (1 + flag parity)) s

/-- PLANE_WATCHDOG (R96): A dispatched cell not acknowledged within 1 us makes its plane LOST with cause WATCHDOG. -/
def execPlaneWatchdog (plane : Fin 4) (s : State) : Host.Outcome State Fault Refusal :=
  cmd (planeError plane 3) s

/-- PLANE_DRAINED (R95): A DRAINING plane carries no cell and enters TEST or OFF. -/
def execPlaneDrained (plane : Fin 4) (s : State) : Host.Outcome State Fault Refusal :=
  cmd (planeDrained plane) s

/-- PLANE_DRAIN_TIMEOUT (R95): A DRAINING plane not empty within 10 us becomes LOST with cause WATCHDOG. -/
def execPlaneDrainTimeout (plane : Fin 4) (s : State) : Host.Outcome State Fault Refusal :=
  cmd (planeDrainTimeout plane) s

/-- PLANE_OUT (R97): Setting XB_PLANE_CTL.OUT takes a plane out of service for test, or is refused. -/
def execPlaneOut (path : Path) (planes : Fin 16) (s : State) : Host.Outcome State Fault Refusal :=
  cmd (fieldWrite path XB_PLANE_CTL_OUT planes) s

/-- PLANE_RETURN (R95): XB_PLANE_CTL.RETURN returns a TEST or LOST plane through STARTING. -/
def execPlaneReturn (path : Path) (planes : Fin 16) (s : State) : Host.Outcome State Fault Refusal :=
  cmd (fieldWrite path XB_PLANE_CTL_RETURN planes) s

/-- XB_CLR_CNT (R112): XB_CTL.CLR_CNT clears the XB counters and mirror counters. -/
def execXbClrCnt (path : Path) (s : State) : Host.Outcome State Fault Refusal :=
  cmd (fieldWrite path XB_CTL_CLR_CNT 1) s

/-- AGE_EXPIRY (R107): The head of an output queue exceeds its class AGE_LIMIT at the 1 us age check. -/
def execAgeExpiry (ep : Fin 168) (c : Fin 8) (s : State) : Host.Outcome State Fault Refusal :=
  cmd (ageExpiry ep c) s

/-- FLUSHED_NOTICE (R108): A FLUSHED notice reaches the internal endpoint that originated a discarded message, which
closes its transaction. -/
def execFlushedNotice (was : Op) (q : Msg) (s : State) : Host.Outcome State Fault Refusal :=
  cmd (flushedNotice was q) s

end Sys2Proof.Machine
end

