-- ==== Sys2Proof/Machine/ExecFabric.lean ====
section
/-!
DEFINITION. The meanings of commands, one definition for each, over the operations of the families' files. The FM API, MCTP and SPDM.
-/
namespace Sys2Proof.Machine

/-- IDENTIFY_SWITCH_DEVICE (R422): FM API command identifying the switch device. -/
def execIdentifySwitchDevice (path : Path) (s : State) : Host.Outcome State Fault Refusal :=
  cmd (identify path) s

/-- GET_PHYSICAL_PORT_STATE (R422): FM API command returning the state of ports 0-127 mapped to CXL link states. -/
def execGetPhysicalPortState (path : Path) (ports : List Nat) (s : State) : Host.Outcome State Fault Refusal :=
  cmd (portStates path ports) s

/-- ASSERT_PERST (R422): Physical Port Control assert PERST sets OCT_SLOT_CTL.PERST_FORCE. -/
def execAssertPerst (path : Path) (p : Fin 128) (s : State) : Host.Outcome State Fault Refusal :=
  cmd (slotPerst path p 1) s

/-- DEASSERT_PERST (R422): Physical Port Control deassert PERST clears OCT_SLOT_CTL.PERST_FORCE. -/
def execDeassertPerst (path : Path) (p : Fin 128) (s : State) : Host.Outcome State Fault Refusal :=
  cmd (slotPerst path p 0) s

/-- RESET_PPB (R422): Physical Port Control Reset PPB writes RETRAIN. -/
def execResetPpb (path : Path) (p : Fin 128) (s : State) : Host.Outcome State Fault Refusal :=
  cmd (resetPpb path p) s

/-- SEND_PPB_CXL_IO_CONFIG_REQUEST (R422): FM API command sending a CXL.io configuration request to a PPB. -/
def execSendPpbCxlIoConfigRequest (path : Path) (p : Fin 128) (write : Bool) (s : State) : Host.Outcome State Fault
    Refusal :=
  cmd (ppbConfig path p write) s

/-- GET_VIRTUAL_CXL_SWITCH_INFO (R422): FM API command returning VCS information as built by the image. -/
def execGetVirtualCxlSwitchInfo (path : Path) (v : Fin 64) (s : State) : Host.Outcome State Fault Refusal :=
  cmd (vcsInfo path v) s

/-- BIND_VPPB (R62): FM API Bind vPPB is refused because binding is structural. -/
def execBindVppb (path : Path) (s : State) : Host.Outcome State Fault Refusal :=
  cmd (fmRefused path) s

/-- UNBIND_VPPB (R62): FM API Unbind vPPB is refused because binding is structural. -/
def execUnbindVppb (path : Path) (s : State) : Host.Outcome State Fault Refusal :=
  cmd (fmRefused path) s

/-- TUNNEL_MANAGEMENT_COMMAND (R422): FM API command tunnelled to a fabric memory port or unbound LD. -/
def execTunnelManagementCommand (path : Path) (p : Fin 128) (ld : Nat) (data : List Word) (s : State) : Host.Outcome
    State Fault Refusal :=
  cmd (ldCommand path p .ioMsg 0x5300 ld 0 data) s

/-- SEND_LD_CXL_IO_CONFIG_REQUEST (R422): FM API command sending a configuration request to an LD. -/
def execSendLdCxlIoConfigRequest (path : Path) (p : Fin 128) (ld addr : Nat) (data : Option Word) (s : State) :
    Host.Outcome State Fault Refusal :=
  cmd (ldCommand path p (if data.isSome then .cfgWr else .cfgRd) 0x5301 ld addr data.toList) s

/-- SEND_LD_CXL_IO_MEMORY_REQUEST (R422): FM API command sending a memory request to an LD. -/
def execSendLdCxlIoMemoryRequest (path : Path) (p : Fin 128) (ld addr : Nat) (write : Bool) (data : List Word) (s :
    State) : Host.Outcome State Fault Refusal :=
  cmd (ldCommand path p (if write then .ioWr else .ioRd) 0x5302 ld addr data) s

/-- GET_LD_INFO (R422): FM API command returning LD information. -/
def execGetLdInfo (path : Path) (p : Fin 128) (s : State) : Host.Outcome State Fault Refusal :=
  cmd (ldQuery path p 0x5400) s

/-- GET_LD_ALLOCATIONS (R422): FM API command returning LD allocations. -/
def execGetLdAllocations (path : Path) (p : Fin 128) (s : State) : Host.Outcome State Fault Refusal :=
  cmd (ldQuery path p 0x5401) s

/-- SET_LD_ALLOCATIONS (R422): FM API Set LD Allocations is refused because binding is structural. -/
def execSetLdAllocations (path : Path) (s : State) : Host.Outcome State Fault Refusal :=
  cmd (fmRefused path) s

/-- QOS_CONTROL (R422): FM API QoS control commands are refused. -/
def execQosControl (path : Path) (s : State) : Host.Outcome State Fault Refusal :=
  cmd (fmRefused path) s

/-- GET_MULTI_HEADED_INFO (R422): FM API command returning multi-headed device information. -/
def execGetMultiHeadedInfo (path : Path) (p : Fin 128) (s : State) : Host.Outcome State Fault Refusal :=
  cmd (headCommand path p 0x5500) s

/-- GET_HEAD_INFO (R422): FM API command returning head information. -/
def execGetHeadInfo (path : Path) (p : Fin 128) (s : State) : Host.Outcome State Fault Refusal :=
  cmd (headCommand path p 0x5501) s

/-- INITIATE_DYNAMIC_CAPACITY_ADD (R70): FM API dynamic capacity add passed unchanged, refused for fabric memory
ports. -/
def execInitiateDynamicCapacityAdd (path : Path) (p : Fin 128) (ld : Nat) (data : List Word) (s : State) :
    Host.Outcome State Fault Refusal :=
  cmd (dynCapacity path p 0x5604 ld data) s

/-- INITIATE_DYNAMIC_CAPACITY_RELEASE (R70): FM API dynamic capacity release passed unchanged, refused for fabric
memory ports. -/
def execInitiateDynamicCapacityRelease (path : Path) (p : Fin 128) (ld : Nat) (data : List Word) (s : State) :
    Host.Outcome State Fault Refusal :=
  cmd (dynCapacity path p 0x5605 ld data) s

/-- GET_EVENT_RECORDS (R422): FM API command returning event records as vendor-defined records. -/
def execGetEventRecords (path : Path) (log : Option (Nat × Nat)) (s : State) : Host.Outcome State Fault Refusal :=
  cmd (getEvents path log) s

/-- CLEAR_EVENT_RECORDS (R422): FM API command clearing event records. -/
def execClearEventRecords (path : Path) (log : Option (Nat × Nat)) (n : Nat) (s : State) : Host.Outcome State Fault
    Refusal :=
  cmd (clearEvents path log n) s

/-- SET_EVENT_INTERRUPT_POLICY (R422): FM API command setting the event interrupt policy. -/
def execSetEventInterruptPolicy (path : Path) (policy : Nat) (s : State) : Host.Outcome State Fault Refusal :=
  cmd (eventPolicy path policy) s

/-- CTL_READ (R422): FM API vendor command reading up to 32 consecutive control-space registers. -/
def execCtlRead (path : Path) (addr n : Nat) (s : State) : Host.Outcome State Fault Refusal :=
  cmd (ctlReads path addr n) s

/-- CTL_WRITE (R422): FM API vendor command writing one register under a 64-bit mask through arbitration. -/
def execCtlWrite (path : Path) (addr : Nat) (data mask : Word) (s : State) : Host.Outcome State Fault Refusal :=
  cmd (ctlWrite path addr data mask) s

/-- STAGE_WRITE (R422): FM API vendor command writing up to 1 KiB into the staging memory. -/
def execStageWrite (path : Path) (addr : Nat) (data : List Word) (s : State) : Host.Outcome State Fault Refusal :=
  cmd (stageBulk path addr data) s

/-- FM_UNSUPPORTED_COMMAND (R422): Any other FM API command is refused with the Unsupported return code. -/
def execFmUnsupportedCommand (path : Path) (s : State) : Host.Outcome State Fault Refusal :=
  cmd (fmRefused path) s

/-- MCTP_CONTROL (R421): An MCTP control command, including EID assignment, is served by the management endpoint. -/
def execMctpControl (command arg : Nat) (s : State) : Host.Outcome State Fault Refusal :=
  cmd (mctpControl command arg) s

/-- SPDM_GET_VERSION (R423): SPDM GET_VERSION request answered by the responder. -/
def execSpdmGetVersion (c : Fin 193) (s : State) : Host.Outcome State Fault Refusal :=
  cmd (onSpdm c (spdmVersion c)) s

/-- SPDM_GET_CAPABILITIES (R423): SPDM GET_CAPABILITIES request answered by the responder. -/
def execSpdmGetCapabilities (c : Fin 193) (s : State) : Host.Outcome State Fault Refusal :=
  cmd (onSpdm c (spdmCaps c)) s

/-- SPDM_NEGOTIATE_ALGORITHMS (R423): SPDM NEGOTIATE_ALGORITHMS request answered by the responder. -/
def execSpdmNegotiateAlgorithms (c : Fin 193) (s : State) : Host.Outcome State Fault Refusal :=
  cmd (onSpdm c (spdmAlgorithms c)) s

/-- SPDM_GET_DIGESTS (R423): SPDM GET_DIGESTS request answered by the responder. -/
def execSpdmGetDigests (c : Fin 193) (s : State) : Host.Outcome State Fault Refusal :=
  cmd (onSpdm c (spdmDigests c)) s

/-- SPDM_GET_CERTIFICATE (R423): SPDM GET_CERTIFICATE request returning a certificate slot. -/
def execSpdmGetCertificate (c : Fin 193) (slot offset n : Nat) (s : State) : Host.Outcome State Fault Refusal :=
  cmd (onSpdm c (spdmCertificate c slot offset n)) s

/-- SPDM_CHALLENGE (R423): SPDM CHALLENGE request answered with a signed response. -/
def execSpdmChallenge (c : Fin 193) (slot : Nat) (s : State) : Host.Outcome State Fault Refusal :=
  cmd (onSpdm c (spdmChallenge c slot)) s

/-- SPDM_GET_MEASUREMENTS (R423): SPDM GET_MEASUREMENTS request returning measurement indices 1-5. -/
def execSpdmGetMeasurements (c : Fin 193) (index : Nat) (sign : Bool) (s : State) : Host.Outcome State Fault Refusal
    :=
  cmd (onSpdm c (spdmMeasurements c index sign)) s

/-- SPDM_KEY_EXCHANGE (R423): SPDM KEY_EXCHANGE request starting a secured session. -/
def execSpdmKeyExchange (c : Fin 193) (request : Fin 65536) (s : State) : Host.Outcome State Fault Refusal :=
  cmd (onSpdm c (spdmKeyExchange c request)) s

/-- SPDM_FINISH (R423): SPDM FINISH request completing a session handshake. -/
def execSpdmFinish (c : Fin 193) (session : Nat) (ok : Bool) (s : State) : Host.Outcome State Fault Refusal :=
  cmd (onSpdm c (spdmFinish c session ok)) s

/-- SPDM_HEARTBEAT (R423): SPDM HEARTBEAT request keeping a session alive. -/
def execSpdmHeartbeat (c : Fin 193) (session : Nat) (s : State) : Host.Outcome State Fault Refusal :=
  cmd (onSpdm c (spdmHeartbeat c session)) s

/-- SPDM_KEY_UPDATE (R423): SPDM KEY_UPDATE request updating session keys. -/
def execSpdmKeyUpdate (c : Fin 193) (session op tag : Nat) (s : State) : Host.Outcome State Fault Refusal :=
  cmd (onSpdm c (spdmKeyUpdate c session op tag)) s

/-- SPDM_END_SESSION (R423): SPDM END_SESSION request ending a session. -/
def execSpdmEndSession (c : Fin 193) (session : Nat) (s : State) : Host.Outcome State Fault Refusal :=
  cmd (onSpdm c (spdmEndSession c session)) s

end Sys2Proof.Machine
end

