-- ==== Sys2Proof/Machine/ExecFirmware.lean ====
section
/-!
DEFINITION. The meanings of commands, one definition for each, over the operations of the families' files. Start-up, firmware and the mailboxes.
-/
namespace Sys2Proof.Machine

/-- GLB_RESET_WARM (R413): GLB_RESET_CTL.WARM with KEY 0xA5 from an allowed source starts a warm reset 10 us later. -/
def execGlbResetWarm (path : Path) (key : BitVec 8) (s : State) : Host.Outcome State Fault Refusal :=
  cmd (fieldsWrite path [(GLB_RESET_CTL_WARM, 1), (GLB_RESET_CTL_KEY, key.toNat)]) s

/-- FIRMWARE_COPY_DONE (R416): The ROM finishes reading and verifying a Fichesyn copy and accepts it or tries the
other. -/
def execFirmwareCopyDone (image : Image) (s : State) : Host.Outcome State Fault Refusal :=
  cmd (firmwareCopyDone image.bytes) s

/-- RECOVERY_WRITE (R417): The ROM mailbox command that writes 240 B of an image into SRAM. -/
def execRecoveryWrite (s : State) : Host.Outcome State Fault Refusal :=
  cmd (recoveryWrite) s

/-- RECOVERY_BOOT (R417): The ROM mailbox command that verifies the SRAM image and jumps to it. -/
def execRecoveryBoot (s : State) : Host.Outcome State Fault Refusal :=
  cmd (recoveryBoot) s

/-- KICK (R419): FWM_WDOG.KICK from the owning core restarts its watchdog. -/
def execKick (path : Path) (c : Fin 4) (s : State) : Host.Outcome State Fault Refusal :=
  cmd (fieldWrite path (FWM_WDOG_KICK c) 1) s

/-- WATCHDOG_EXPIRY (R419): A core watchdog expires, raising an NMI the first time and resetting the management
complex the second. -/
def execWatchdogExpiry (c : Fin 4) (s : State) : Host.Outcome State Fault Refusal :=
  cmd (watchdogExpiry c) s

/-- CORE_RESET (R412): FWM_CORE_CTL.RESET written by another core restarts one management core at the firmware entry
point. -/
def execCoreReset (path : Path) (c : Fin 4) (s : State) : Host.Outcome State Fault Refusal :=
  cmd (fieldWrite path FWM_CORE_CTL_RESET (2 ^ (c : Nat))) s

/-- GET_VERSION (R420): Mailbox command returning firmware and image build IDs and SVN. -/
def execGetVersion (x : Fin 2) (s : State) : Host.Outcome State Fault Refusal :=
  cmd (getVersion x) s

/-- GET_STATE (R420): Mailbox command returning structure, role and domain summary. -/
def execGetState (x : Fin 2) (s : State) : Host.Outcome State Fault Refusal :=
  cmd (getState x) s

/-- SET_LINK_POLICY (R420): Mailbox command carrying target rates, L1 use and retrain policy. -/
def execSetLinkPolicy (x : Fin 2) (status : Nat) (s : State) : Host.Outcome State Fault Refusal :=
  cmd (setPolicy x 0x0010 status) s

/-- SET_POWER_POLICY (R420): Mailbox command carrying domain sleep rules and AO LDO mode. -/
def execSetPowerPolicy (x : Fin 2) (status : Nat) (s : State) : Host.Outcome State Fault Refusal :=
  cmd (setPolicy x 0x0011 status) s

/-- SET_SCRUB_SCHEDULE (R420): Mailbox command carrying periodic scrub memory, range and rate. -/
def execSetScrubSchedule (x : Fin 2) (status : Nat) (s : State) : Host.Outcome State Fault Refusal :=
  cmd (setPolicy x 0x0020 status) s

/-- TM_PROGRAM (R420): Mailbox command carrying queue, shaper and gate settings in bulk. -/
def execTmProgram (x : Fin 2) (status : Nat) (writes : List (Nat × Word × Word)) (s : State) : Host.Outcome State
    Fault Refusal :=
  cmd (tmProgram x status writes) s

/-- SET_FAILOVER_POLICY (R420): Mailbox command carrying port moves and handback after a takeover. -/
def execSetFailoverPolicy (x : Fin 2) (status : Nat) (s : State) : Host.Outcome State Fault Refusal :=
  cmd (setPolicy x 0x0040 status) s

/-- FLASH_UPDATE (R420): Mailbox command writing a staged image to a flash copy. -/
def execFlashUpdate (x : Fin 2) (status : Nat) (s : State) : Host.Outcome State Fault Refusal :=
  cmd (flashUpdate x status) s

/-- MB_WARM_RESET (R420): Mailbox WARM_RESET command requesting GLB_RESET_CTL.WARM under R413. -/
def execMbWarmReset (x : Fin 2) (s : State) : Host.Outcome State Fault Refusal :=
  cmd (mbWarmReset x) s

/-- MAILBOX_UNKNOWN_OPCODE (R420): A mailbox command with an undefined opcode completes with IMG_LIMIT. -/
def execMailboxUnknownOpcode (x : Fin 2) (s : State) : Host.Outcome State Fault Refusal :=
  cmd (mbUnknown x) s

/-- MAILBOX_TIMEOUT (R420): Firmware not answering within FWM_MB_TMO completes the command with IMG_BUSY. -/
def execMailboxTimeout (x : Fin 2) (s : State) : Host.Outcome State Fault Refusal :=
  cmd (mbTimeout x) s

end Sys2Proof.Machine
end

