-- ==== Sys2Proof/Machine/ExecIntegrity.lean ====
section
/-!
DEFINITION. The meanings of commands, one definition for each, over the operations of the families' files. Scrubs, repair and events.
-/
namespace Sys2Proof.Machine

/-- SCRUB_GO (R363): INT_SCRUB_CTL.GO starts a scrub of a memory range, or is refused. -/
def execScrubGo (path : Path) (mem : Fin 16) (inst : Fin 256) (s : State) : Host.Outcome State Fault Refusal :=
  cmd (fieldsWrite path [(INT_SCRUB_CTL_GO, 1), (INT_SCRUB_CTL_MEM, mem), (INT_SCRUB_CTL_INSTANCE, inst)]) s

/-- SCRUB_ABORT (R363): INT_SCRUB_CTL.ABORT stops a scrub at the next word. -/
def execScrubAbort (path : Path) (s : State) : Host.Outcome State Fault Refusal :=
  cmd (fieldWrite path INT_SCRUB_CTL_ABORT 1) s

/-- SCRUB_WORD (R363): The scrub reads one code word and writes it back corrected or poisoned. -/
def execScrubWord (w : WordClass) (s : State) : Host.Outcome State Fault Refusal :=
  cmd (scrubWord w) s

/-- SCRUB_END (R364): A scrub ends, writes its summary record and raises SCRUB_DONE. -/
def execScrubEnd (s : State) : Host.Outcome State Fault Refusal :=
  cmd (scrubEnd) s

/-- MERGE_DRAIN (R359): A merge-buffer entry drains when full, needed, or 32 ns after its first write. -/
def execMergeDrain (mem inst n : Nat) (complete : Bool) (w : WordClass) (s : State) : Host.Outcome State Fault
    Refusal :=
  cmd (mergeDrain mem inst n complete w) s

/-- RETIRE_ADD (R366): A write to INT_RETIRE_ADD retires a Plaza bobbin. -/
def execRetireAdd (path : Path) (bobbin : Nat) (s : State) : Host.Outcome State Fault Refusal :=
  cmd (fieldWrite path INT_RETIRE_ADD_BOBBIN bobbin) s

/-- WRITE_RAW (R367): The WRITE_RAW command stores a code word with its data and check bits as given. -/
def execWriteRaw (path : Path) (s : State) : Host.Outcome State Fault Refusal :=
  cmd (fieldWrite path INT_TEST_CTL_WRITE_RAW 1) s

/-- READ_RAW (R367): The READ_RAW command loads a code word with its check bits into the test registers. -/
def execReadRaw (path : Path) (s : State) : Host.Outcome State Fault Refusal :=
  cmd (fieldWrite path INT_TEST_CTL_READ_RAW 1) s

/-- RAW_ACCESS_DONE (R367): A raw test access completes and DONE is set. -/
def execRawAccessDone (s : State) : Host.Outcome State Fault Refusal :=
  cmd (rawDone) s

/-- EVQ_ENABLE (R370): Setting INT_EVQ_BASE.EN writes the held records to the firmware event queue. -/
def execEvqEnable (path : Path) (s : State) : Host.Outcome State Fault Refusal :=
  cmd (fieldWrite path INT_EVQ_BASE_EN 1) s

/-- EVQ_IRQ_TIMEOUT (R370): IRQ_US after the first waiting CE or DE record the management cores are interrupted. -/
def execEvqIrqTimeout (s : State) : Host.Outcome State Fault Refusal :=
  cmd (evqIrqTimeout) s

/-- INT_CLR_CNT (R374): INT_CTL.CLR_CNT clears the INT counters. -/
def execIntClrCnt (path : Path) (s : State) : Host.Outcome State Fault Refusal :=
  cmd (fieldWrite path INT_CTL_CLR_CNT 1) s

/-- POISON_COMMAND (R372): Get Poison List, Inject Poison and Clear Poison complete as unsupported. -/
def execPoisonCommand (v : Fin 64) (op : Nat) (s : State) : Host.Outcome State Fault Refusal :=
  cmd (poisonCommand v op) s

end Sys2Proof.Machine
end

