-- ==== Sys2Proof/Machine/ExecLoom.lean ====
section
/-!
DEFINITION. The meanings of commands, one definition for each, over the operations of the families' files. Loom clusters and the Kiosk.
-/
namespace Sys2Proof.Machine

/-- LOOM_ACCESS_RESPONSE (R263): Data or an update acknowledgement returns to a Loom thread and the job advances or
completes. -/
def execLoomAccessResponse (id : Nat) (bad : Bool) (s : State) : Host.Outcome State Fault Refusal :=
  cmd (accResponse id bad) s

/-- LOOM_ACCESS_TIMEOUT (R263): ACC_TMO expires on a table access and marks its item ERROR with status TIMEOUT. -/
def execLoomAccessTimeout (id : Nat) (s : State) : Host.Outcome State Fault Refusal :=
  cmd (accTimeout id) s

/-- CLUSTER_OUT (R253): Setting LM_CL_CTL.OUT stops dispatch to a cluster, or is refused. -/
def execClusterOut (path : Path) (clusters : Fin 256) (s : State) : Host.Outcome State Fault Refusal :=
  cmd (fieldWrite path LM_CL_CTL_OUT clusters) s

/-- CLUSTER_DRAINED (R253): An out cluster's jobs finish and their results drain, and the cluster enters TEST. -/
def execClusterDrained (c : Fin 8) (s : State) : Host.Outcome State Fault Refusal :=
  cmd (clusterDrained c) s

/-- CLUSTER_RETURN (R253): LM_CL_CTL.RETURN brings a TEST or LOST cluster back to SERVICE. -/
def execClusterReturn (path : Path) (clusters : Fin 256) (s : State) : Host.Outcome State Fault Refusal :=
  cmd (fieldWrite path LM_CL_CTL_RETURN clusters) s

/-- TABLE_ENABLE (R254): LM_TBLn_CFG.ENABLE written enables or disables a Loom table for later jobs. -/
def execTableEnable (path : Path) (n : Fin 1024) (on : Bool) (s : State) : Host.Outcome State Fault Refusal :=
  cmd (fieldWrite path (LM_TBL_CFG_ENABLE n) (flag on)) s

/-- LM_CLR_CNT (R279): LM_CTL.CLR_CNT clears the Loom counters. -/
def execLmClrCnt (path : Path) (s : State) : Host.Outcome State Fault Refusal :=
  cmd (fieldWrite path LM_CTL_CLR_CNT 1) s

/-- PRED_CLR (R268): LM_CTL.PRED_CLR invalidates every run-ahead predictor entry. -/
def execPredClr (path : Path) (s : State) : Host.Outcome State Fault Refusal :=
  cmd (fieldWrite path LM_CTL_PRED_CLR 1) s

/-- KIOSK_FILL_DATA (R271): Fill data for a Kiosk miss arrives from the home Square and the line enters S or E. -/
def execKioskFillData (bank : Fin 4) (q : Msg) (s : State) : Host.Outcome State Fault Refusal :=
  cmd (kioskFill bank q) s

/-- KIOSK_SNOOP (R271): A BISnp to a Kiosk bank is answered after any update in progress, with a writeback where the
line is M. -/
def execKioskSnoop (bank : Fin 4) (q : Msg) (bad : Bool) (s : State) : Host.Outcome State Fault Refusal :=
  cmd (kioskSnoop bank q bad) s

/-- KIOSK_STEERED_FILL (R273): Steered write data from a Square is placed in the Kiosk or dropped. -/
def execKioskSteeredFill (bank : Fin 4) (q : Msg) (s : State) : Host.Outcome State Fault Refusal :=
  cmd (steeredFill bank q) s

/-- KSK_BANK_OUT (R275): Setting KSK_BANK_CTL.OUT puts a bank in DRAINING, or is refused. -/
def execKskBankOut (path : Path) (banks : Fin 16) (s : State) : Host.Outcome State Fault Refusal :=
  cmd (fieldWrite path KSK_BANK_CTL_OUT banks) s

/-- KSK_BANK_DRAINED (R275): A draining bank has written back its M lines and enters TEST. -/
def execKskBankDrained (bank : Fin 4) (s : State) : Host.Outcome State Fault Refusal :=
  cmd (kskDrained bank) s

/-- KSK_BANK_RETURN (R275): KSK_BANK_CTL.RETURN returns a TEST or LOST bank to SERVICE after the hosting bank gives
back its share. -/
def execKskBankReturn (path : Path) (banks : Fin 16) (s : State) : Host.Outcome State Fault Refusal :=
  cmd (fieldWrite path KSK_BANK_CTL_RETURN banks) s

/-- KIOSK_FLUSH (R275): KSK_CTL.FLUSH writes back or drops every line present, or is refused while busy. -/
def execKioskFlush (path : Path) (s : State) : Host.Outcome State Fault Refusal :=
  cmd (fieldWrite path KSK_CTL_FLUSH 1) s

/-- KIOSK_FLUSH_DONE (R275): The flush completes and FLUSH_BUSY clears. -/
def execKioskFlushDone (s : State) : Host.Outcome State Fault Refusal :=
  cmd (wr KSK_STATUS_FLUSH_BUSY 0) s

/-- KSK_CLR_CNT (R279): KSK_CTL.CLR_CNT clears the Kiosk counters. -/
def execKskClrCnt (path : Path) (s : State) : Host.Outcome State Fault Refusal :=
  cmd (fieldWrite path KSK_CTL_CLR_CNT 1) s

end Sys2Proof.Machine
end

