-- ==== Sys2Proof/Machine/ExecObserve.lean ====
section
/-!
DEFINITION. The meanings of commands, one definition for each, over the operations of the families' files. Observability, and the rows that end the table.
-/
namespace Sys2Proof.Machine

/-- PMU_CLR_ALL (R435): PMU_CTL.CLR_ALL clears every counter and overflow bit. -/
def execPmuClrAll (path : Path) (s : State) : Host.Outcome State Fault Refusal :=
  cmd (fieldWrite path PMU_CTL_CLR_ALL 1) s

/-- CENSUS_TICK (R430): At each Census tick the selected banks are latched and their records written, or the tick is
skipped. -/
def execCensusTick (s : State) : Host.Outcome State Fault Refusal :=
  cmd (censusTick) s

/-- COUNTER_PAGE_READ (R429): A read of a slice's counter page returns an owned bank counter or 0. -/
def execCounterPageRead (v : Fin 64) (sl : Fin 256) (offset : Fin 4096) (s : State) : Host.Outcome State Fault
    Refusal :=
  cmd (counterPageRead v sl offset) s

/-- TEST_GO (R431): TST_CMD.GO starts an LBIST or MBIST run on a domain, or is refused. -/
def execTestGo (path : Path) (kind : Bool) (domain : Fin 128) (patterns : BitVec 16) (s : State) : Host.Outcome State
    Fault Refusal :=
  cmd (fieldsWrite path [(TST_CMD_GO, 1), (TST_CMD_KIND, flag kind), (TST_CMD_DOMAIN, domain), (TST_CMD_PATTERNS,
    patterns.toNat)]) s

/-- TEST_ABORT (R431): TST_CMD.ABORT ends a running test as ABORTED. -/
def execTestAbort (path : Path) (s : State) : Host.Outcome State Fault Refusal :=
  cmd (fieldWrite path TST_CMD_ABORT 1) s

/-- TEST_COMPLETE (R431): A self-test finishes and RESULT is PASS or FAIL. -/
def execTestComplete (misr : Word) (failing : Nat) (s : State) : Host.Outcome State Fault Refusal :=
  cmd (testComplete misr.toNat failing) s

/-- TEST_TIMEOUT (R431): A test running over 1 s ends as ABORTED. -/
def execTestTimeout (s : State) : Host.Outcome State Fault Refusal :=
  cmd (testTimeout) s

/-- CHAL_REQ (R432): DBG_UNLOCK.CHAL_REQ loads a fresh random challenge into DBG_CHAL. -/
def execChalReq (path : Path) (s : State) : Host.Outcome State Fault Refusal :=
  cmd (fieldWrite path DBG_UNLOCK_CHAL_REQ 1) s

/-- GRANT (R432): DBG_UNLOCK.GRANT from firmware unlocks the debug master. -/
def execGrant (path : Path) (s : State) : Host.Outcome State Fault Refusal :=
  cmd (fieldWrite path DBG_UNLOCK_GRANT 1) s

/-- RELOCK (R432): DBG_UNLOCK.RELOCK clears the debug unlock. -/
def execRelock (path : Path) (s : State) : Host.Outcome State Fault Refusal :=
  cmd (fieldWrite path DBG_UNLOCK_RELOCK 1) s

/-- TRACE_DATA_READ (R433): A read of DBG_TRACE_DATA3 returns the last word of a trace record and advances IDX. -/
def execTraceDataRead (path : Path) (s : State) : Host.Outcome State Fault Refusal :=
  cmd (dataAccess path .DBG_TRACE_DATA 3 none) s

/-- CMD_CONFLICT_CLEAR (R425): Writing 1 to GLB_CMD_CONFLICT.VALID clears the record and COUNT. -/
def execCmdConflictClear (path : Path) (s : State) : Host.Outcome State Fault Refusal :=
  cmd (fieldWrite path GLB_CMD_CONFLICT_VALID 1) s

/-- PATH_CNT_CLR (R460): GLB_PATH_CNT.CLR clears COUNT and re-arms PATH_REFUSED. -/
def execPathCntClr (path : Path) (s : State) : Host.Outcome State Fault Refusal :=
  cmd (fieldWrite path GLB_PATH_CNT_CLR 1) s

/-- PORST_RELEASE (R414): Release of PORST_N samples TWIN_ID, starts the time base from 0 and starts the start-up
sequence and the heartbeats. -/
def execPorstRelease (twinId refclk : Bool) (s : State) : Host.Outcome State Fault Refusal :=
  cmd (porstRelease twinId refclk) s

/-- WHORL_CHARACTER_ALIGNMENT (R322): The Whorl receiver takes character alignment after 3 consecutive K28.5 at one
alignment, moving STATE from NO_SYNC to SYNC. -/
def execWhorlCharacterAlignment (s : State) : Host.Outcome State Fault Refusal :=
  cmd (whlAlign) s

/-- LANE_SIGNAL_LOST (R320): A Spindle receive lane that loses signal or codeword lock fails, which leads to a spare
swap, width 16 or RECOVERY. -/
def execLaneSignalLost (lane : Fin 34) (signal : Bool) (s : State) : Host.Outcome State Fault Refusal :=
  cmd (laneSignalLost lane signal) s

/-- LANE_SIGNAL_DETECTED (R321): Signal from the partner detected again on a Spindle lane clears PARTNER_GONE and the
Spindle witness. -/
def execLaneSignalDetected (lane : Fin 34) (s : State) : Host.Outcome State Fault Refusal :=
  cmd (laneSignalDetected lane) s

/-- LINK_CREDIT_RETURN (R88): A CXL link-layer credit returned by a port's link partner lets an output stage serve a
class that was skipped for lack of credit. -/
def execLinkCreditReturn (p : Fin 128) (c : Fin 8) (n : Nat) (s : State) : Host.Outcome State Fault Refusal :=
  cmd (creditReturn p c n) s

/-- IDE_KM_MESSAGE (R76): An IDE_KM message over the SPDM session on a port's DOE mailbox programs keys or switches
the key set, moving IDE state to keys pending or starting a refresh. -/
def execIdeKmMessage (p : Fin 128) (k : IdeKm) (s : State) : Host.Outcome State Fault Refusal :=
  cmd (ideKm p k) s

end Sys2Proof.Machine
end

