-- ==== Sys2Proof/Machine/ExecPorts.lean ====
section
/-!
DEFINITION. The meanings of commands, one definition for each, over the operations of the families' files. Ports, IDE and what arrives on ports.
-/
namespace Sys2Proof.Machine

/-- PORT_ENABLE_WRITE (R59): OCT_PORT_CTL.ENABLE written 1 or 0 starts training or disables the port through
FLUSHING. -/
def execPortEnableWrite (path : Path) (p : Fin 128) (on : Bool) (s : State) : Host.Outcome State Fault Refusal :=
  cmd (fieldWrite path (OCT_PORT_CTL_ENABLE p) (flag on)) s

/-- RETRAIN (R60): The RETRAIN command retrains an UP or HELD port at TARGET_RATE. -/
def execRetrain (path : Path) (p : Fin 128) (s : State) : Host.Outcome State Fault Refusal :=
  cmd (fieldWrite path (OCT_PORT_CTL_RETRAIN p) 1) s

/-- REDO_EQ (R60): The REDO_EQ command retrains a port with full equalisation. -/
def execRedoEq (path : Path) (p : Fin 128) (s : State) : Host.Outcome State Fault Refusal :=
  cmd (fieldWrite path (OCT_PORT_CTL_REDO_EQ p) 1) s

/-- PORT_CLR_CNT (R80): OCT_PORT_CTL.CLR_CNT clears OCT_PORT_CNT0 and OCT_PORT_CNT1. -/
def execPortClrCnt (path : Path) (p : Fin 128) (s : State) : Host.Outcome State Fault Refusal :=
  cmd (fieldWrite path (OCT_PORT_CTL_CLR_CNT p) 1) s

/-- TRAINING_L0 (R59): A training port reaches L0 at its final rate and enters UP or HELD with a reason. -/
def execTrainingL0 (p : Fin 128) (link : LinkUp) (s : State) : Host.Outcome State Fault Refusal :=
  cmd (trainingL0 p link) s

/-- TRAIN_TIMEOUT (R57): TRAIN_TMO expires, restarting training from Detect or, with retries exhausted, holding the
port with TRAIN_FAIL. -/
def execTrainTimeout (p : Fin 128) (s : State) : Host.Outcome State Fault Refusal :=
  cmd (trainTimeout p) s

/-- XRATE_EQ_TIMEOUT (R54): Equalisation at 128 GT/s not completing within 24 ms falls the link back to 64 GT/s. -/
def execXrateEqTimeout (p : Fin 128) (s : State) : Host.Outcome State Fault Refusal :=
  cmd (xrateTimeout p) s

/-- PORT_RECOVERY_DONE (R59): A Recovery of an UP port settles and the port returns to UP or enters HELD. -/
def execPortRecoveryDone (p : Fin 128) (link : LinkUp) (s : State) : Host.Outcome State Fault Refusal :=
  cmd (recoveryDone p link) s

/-- LINK_DOWN (R74): An UP port loses its link, enters FLUSHING and may make its agent lost. -/
def execLinkDown (p : Fin 128) (s : State) : Host.Outcome State Fault Refusal :=
  cmd (linkDown p) s

/-- IDE_SECURE (R77): The IDE stream becomes secure in both directions and a port held IDE_PENDING enters UP. -/
def execIdeSecure (p : Fin 128) (mode : Fin 4) (kset : Bool) (s : State) : Host.Outcome State Fault Refusal :=
  cmd (ideSecure p mode kset) s

/-- IDE_TIMEOUT (R77): IDE_TMO expires while the port waits for keys, raising the event while the port stays HELD. -/
def execIdeTimeout (p : Fin 128) (s : State) : Host.Outcome State Fault Refusal :=
  cmd (ideTimeout p) s

/-- IDE_FAIL (R78): An IDE integrity-check failure discards flits, takes the link down and sends the port to
FLUSHING. -/
def execIdeFail (p : Fin 128) (s : State) : Host.Outcome State Fault Refusal :=
  cmd (ideFail p) s

/-- FLUSH_COMPLETE (R108): A FLUSHING port's queues, references and planes are empty and the port leaves FLUSHING. -/
def execFlushComplete (p : Fin 128) (s : State) : Host.Outcome State Fault Refusal :=
  cmd (flushComplete p) s

/-- FLUSH_TIMEOUT (R59): FLUSHING lasts 10 ms without completing and the port is disabled. -/
def execFlushTimeout (p : Fin 128) (s : State) : Host.Outcome State Fault Refusal :=
  cmd (flushTimeout p) s

/-- SLOT_PERST_RELEASE (R73): PERST_DELAY after power-good rises, SLOT_PERST_N is deasserted. -/
def execSlotPerstRelease (n : Fin 32) (s : State) : Host.Outcome State Fault Refusal :=
  cmd (slotPerstRelease n) s

/-- POWER_CONTROLLER_WRITE (R72): A host write to Power Controller Control of a slot vPPB sets POWER_REQ or is
ignored. -/
def execPowerControllerWrite (v : Fin 64) (p : Fin 128) (on : Bool) (s : State) : Host.Outcome State Fault Refusal :=
  cmd (powerControllerWrite v p on) s

/-- HOST_MEM_REQUEST (R288): A CXL.mem request from a host is validated, routed, decoded and Kerb-checked at the
octet. -/
def execHostMemRequest (p : Fin 128) (q : Msg) (s : State) : Host.Outcome State Fault Refusal :=
  cmd (hostMem p q) s

/-- HOST_IO_REQUEST (R67): A CXL.io request from a port is routed or completed with Unsupported Request. -/
def execHostIoRequest (p : Fin 128) (r : IoReq) (s : State) : Host.Outcome State Fault Refusal :=
  cmd (hostIo p r) s

/-- EDGE_MESSAGE (R71): A message from a port-based routing fabric is checked against DPID and SPID and accepted or
discarded. -/
def execEdgeMessage (p : Fin 128) (dpid spid : Fin 4096) (q : Msg) (s : State) : Host.Outcome State Fault Refusal :=
  cmd (edgeMessage p dpid spid q) s

/-- CXL_CACHE_MESSAGE (R165): A CXL.cache message of a Type 1/2 device is routed between the device and its host. -/
def execCxlCacheMessage (p : Fin 128) (q : Msg) (s : State) : Host.Outcome State Fault Refusal :=
  cmd (cacheMessage p q) s

/-- BICONFLICT (R160): A BIConflict from an agent is answered with BIConflictAck after the agent's own grant, or at
once. -/
def execBiconflict (p : Fin 128) (addr tag : Nat) (s : State) : Host.Outcome State Fault Refusal :=
  cmd (biConflictIn p addr tag) s

end Sys2Proof.Machine
end

