-- ==== Sys2Proof/Machine/ExecPower.lean ====
section
/-!
DEFINITION. The meanings of commands, one definition for each, over the operations of the families' files. Power domains, clocks and the AVS rail.
-/
namespace Sys2Proof.Machine

/-- POWER_REQUEST (R377): A PWR_DOMd_CTL.REQ write starts a wake, a drain or a state change, or is refused. -/
def execPowerRequest (path : Path) (d : Fin 87) (req : Fin 4) (s : State) : Host.Outcome State Fault Refusal :=
  cmd (fieldWrite path (PWR_DOM_CTL_REQ d) req) s

/-- WAKE_STEP_READY (R380): A wake step reports ready and the next step starts, or the domain becomes ON. -/
def execWakeStepReady (d : Fin 87) (s : State) : Host.Outcome State Fault Refusal :=
  cmd (wakeStepReadyRow d) s

/-- WAKE_STEP_TIMEOUT (R381): A wake step's timer expires and the step is undone and retried, or the domain fails. -/
def execWakeStepTimeout (d : Fin 87) (s : State) : Host.Outcome State Fault Refusal :=
  cmd (wakeStepTimeout d) s

/-- WAKE_RETRY_WAIT_END (R381): The 10 us wait after an undone step ends and the step runs again. -/
def execWakeRetryWaitEnd (d : Fin 87) (s : State) : Host.Outcome State Fault Refusal :=
  cmd (wakeRetryWaitEnd d) s

/-- SEQUENCER_WATCHDOG (R381): A domain stuck in WAKING beyond its bound is made FAILED with cause SEQUENCER. -/
def execSequencerWatchdog (d : Fin 87) (s : State) : Host.Outcome State Fault Refusal :=
  cmd (sequencerWatchdog d) s

/-- DRAIN_COMPLETE (R385): A DRAINING domain's drain count reaches 0 and it enters STOPPING. -/
def execDrainComplete (d : Fin 87) (s : State) : Host.Outcome State Fault Refusal :=
  cmd (drainComplete d) s

/-- STOPPING_DONE (R385): STOPPING ends and the domain reaches OFF or RET, starting any pending wake. -/
def execStoppingDone (d : Fin 87) (s : State) : Host.Outcome State Fault Refusal :=
  cmd (stoppingDone d) s

/-- DRAIN_TIMEOUT (R386): PWR_DRAIN_TMO expires and the domain returns to ON. -/
def execDrainTimeout (d : Fin 87) (s : State) : Host.Outcome State Fault Refusal :=
  cmd (drainTimeout d) s

/-- LOST_READY (R383): A rail below 90 % or a PLL unlocked for over 200 ns fails the domain and its dependants. -/
def execLostReady (d : Fin 87) (s : State) : Host.Outcome State Fault Refusal :=
  cmd (lostReady d) s

/-- REFCLK_LOSS (R379): No REFCLK edge for 2 us switches AO to the oscillator and fails every PLL-clocked domain. -/
def execRefclkLoss (s : State) : Host.Outcome State Fault Refusal :=
  cmd (refclkLoss) s

/-- REFCLK_RETURN (R379): REFCLK counted present again switches AO back and starts a warm reset. -/
def execRefclkReturn (pin command : Bool) (s : State) : Host.Outcome State Fault Refusal :=
  cmd (refclkReturn pin command) s

/-- THERMAL_SAMPLE (R391): The sensors are sampled every 10 us, updating TEMP and detecting trip or trip release. -/
def execThermalSample (temps : List Int) (sensor : Fin 32) (s : State) : Host.Outcome State Fault Refusal :=
  cmd (thermalRow temps sensor) s

/-- THROTTLE_STEP (R391): Every 100 us above or 1 ms below the throttle point, the throttle level rises or falls by
1. -/
def execThrottleStep (s : State) : Host.Outcome State Fault Refusal :=
  cmd (throttleStep) s

/-- LDO_SOFT_BROWNOUT (R390): A soft brown-out in low-power mode returns the AO LDO to normal mode. -/
def execLdoSoftBrownout (s : State) : Host.Outcome State Fault Refusal :=
  cmd (ldoSoft) s

/-- HARD_BROWNOUT (R390): The AO LDO output below 0.65 V for 50 ns cold-resets the whole part. -/
def execHardBrownout (s : State) : Host.Outcome State Fault Refusal :=
  cmd (coldRow .brownout false false) s

/-- PWR_CLR_CNT (R394): PWR_CTL.CLR_CNT clears WAKES. -/
def execPwrClrCnt (path : Path) (s : State) : Host.Outcome State Fault Refusal :=
  cmd (fieldWrite path PWR_CTL_CLR_CNT 1) s

/-- AVS_MARGIN_WRITE (R439): A PWR_AVS.MARGIN write starts an AVSBus write of the new VDD_CORE target, or is refused. -/
def execAvsMarginWrite (path : Path) (margin : BitVec 8) (s : State) : Host.Outcome State Fault Refusal :=
  cmd (fieldWrite path PWR_AVS_MARGIN margin.toNat) s

/-- AVS_WRITE_ACK (R439): The regulator acknowledges an AVSBus write and TARGET takes the new value. -/
def execAvsWriteAck (s : State) : Host.Outcome State Fault Refusal :=
  cmd (avsAck) s

/-- AVS_WRITE_TIMEOUT (R439): An AVSBus write unanswered in 100 us is retried, or after three retries sets FAULT. -/
def execAvsWriteTimeout (s : State) : Host.Outcome State Fault Refusal :=
  cmd (avsTimeout) s

end Sys2Proof.Machine
end

