-- ==== Sys2Proof/Machine/ExecReset.lean ====
section
/-!
DEFINITION. The meanings of commands, one definition for each, over the operations of the families' files. Resets and pins, and control-space writes.
-/
namespace Sys2Proof.Machine

/-- COLD_RESET (R412): PORST_N assertion or a hard brown-out returns every register to its reset value and restarts
the part from the start-up sequence. -/
def execColdReset (cause : ColdCause) (pin command : Bool) (s : State) : Host.Outcome State Fault Refusal :=
  cmd (coldRow cause pin command) s

/-- WARM_RESET (R412): SYS_RESET_N, an accepted warm reset command, REFCLK return or a thermal trip release resets
registers, switches off every domain but AO, MGMT and CORE, and restarts the ROM. -/
def execWarmReset (pin command : Bool) (s : State) : Host.Outcome State Fault Refusal :=
  cmd (warmRow pin command) s

/-- PERST_ASSERT (R75): Deglitched assertion of PERST_N[v] resets VCS v, its vPPBs and decoders, propagates hot and
LD resets, and stops the rings of its slices. -/
def execPerstAssert (v : Fin 64) (s : State) : Host.Outcome State Fault Refusal :=
  cmd (perstAssert v) s

/-- PERST_DEASSERT (R75): Deassertion of PERST_N[v] moves the upstream port out of RESET, and Detect starts within 20
us. -/
def execPerstDeassert (v : Fin 64) (s : State) : Host.Outcome State Fault Refusal :=
  cmd (perstDeassert v) s

/-- PRESENCE_DEBOUNCED (R20): A new PRSNT_N level that has held through its 5 ms debounce is taken by the port and
the slot channel. -/
def execPresenceDebounced (n : Fin 32) (present : Bool) (s : State) : Host.Outcome State Fault Refusal :=
  cmd (presenceDebounced n present) s

/-- TWIN_ID_CHANGE (R20): A change of the TWIN_ID pin after its sampling has no effect on the part. -/
def execTwinIdChange (level : Bool) (s : State) : Host.Outcome State Fault Refusal :=
  cmd (twinIdChange level) s

/-- PARTNER_ALIVE_CHANGE (R340): A deglitched change of PARTNER_ALIVE_IN updates the ALIVE witness and may complete a
takeover. -/
def execPartnerAliveChange (level : Bool) (s : State) : Host.Outcome State Fault Refusal :=
  cmd (partnerAlive level) s

/-- PPS_EDGE (R210): A deglitched rising edge of PPS_IN is captured, accepted or rejected, and disciplines the time
base. -/
def execPpsEdge (s : State) (short : Bool := false) : Host.Outcome State Fault Refusal :=
  cmd (ppsEdge short) s

/-- PPS_LOST (R210): No accepted PPS edge within 1,500 ms sets HOLDOVER, holds FREQ and raises the event. -/
def execPpsLost (s : State) : Host.Outcome State Fault Refusal :=
  cmd (ppsLost) s

/-- REGISTER_WRITE (R7): A control-space write to a register with no row of its own is arbitrated, checked and
applied or refused under its access type. -/
def execRegisterWrite (writes : List CtlWrite) (s : State) : Host.Outcome State Fault Refusal :=
  cmd (regWrite writes) s

end Sys2Proof.Machine
end

