-- ==== Sys2Proof/Machine/ExecRings.lean ====
section
/-!
DEFINITION. The meanings of commands, one definition for each, over the operations of the families' files. Rings.
-/
namespace Sys2Proof.Machine

/-- DOORBELL_PRODUCER (R234): A producer doorbell write is checked and advances a submission ring's PROD or puts the
ring in ERROR. -/
def execDoorbellProducer (v : Fin 64) (sl : Fin 256) (whole : Bool) (data : Word) (s : State) : Host.Outcome State
    Fault Refusal :=
  cmd (doorbell v sl true whole data.toNat) s

/-- DOORBELL_CONSUMER (R234): A consumer doorbell write is checked and advances a device-produced ring's CONS,
freeing room. -/
def execDoorbellConsumer (v : Fin 64) (sl : Fin 256) (whole : Bool) (data : Word) (s : State) : Host.Outcome State
    Fault Refusal :=
  cmd (doorbell v sl false whole data.toNat) s

/-- FETCH_ISSUE (R236): The ring engine issues a CXL.io read of submission slots up to the doorbell. -/
def execFetchIssue (r : Fin 32768) (s : State) : Host.Outcome State Fault Refusal :=
  cmd (fetchIssue r) s

/-- FETCH_COMPLETION (R236): A fetch read completion arrives and FETCHED advances, or the ring enters ERROR. -/
def execFetchCompletion (r : Fin 32768) (start : Nat) (ok poison : Bool) (data : List Word) (s : State) :
    Host.Outcome State Fault Refusal :=
  cmd (fetchCompletion r start ok poison data) s

/-- FETCH_TIMEOUT (R237): FETCH_TMO expires on a fetch read and the ring enters ERROR. -/
def execFetchTimeout (r : Fin 32768) (start : Nat) (s : State) : Host.Outcome State Fault Refusal :=
  cmd (fetchTimeout r start) s

/-- RING_DISPATCH (R238): The ring engine hands one entry to a Loom cluster by weighted round robin under the
completion gate. -/
def execRingDispatch (s : State) : Host.Outcome State Fault Refusal :=
  cmd (ringDispatch) s

/-- JOB_COMPLETE (R241): A finished job's result is written to its completion ring or held for room. -/
def execJobComplete (t : Fin 4096) (s : State) : Host.Outcome State Fault Refusal :=
  cmd (jobComplete t) s

/-- IRQ_MODERATION_TIMEOUT (R246): MOD_US after the first uninterrupted entry, the ring sends its MSI-X vector. -/
def execIrqModerationTimeout (r : Fin 32768) (s : State) : Host.Outcome State Fault Refusal :=
  cmd (irqModeration r) s

/-- RING_ENABLE (R249): RNG_CTL.ENABLE written 1 starts a ring or is refused. -/
def execRingEnable (path : Path) (r : Fin 32768) (s : State) : Host.Outcome State Fault Refusal :=
  cmd (fieldWrite path (RNG_CTL_ENABLE r) 1) s

/-- RING_DISABLE (R247): RNG_CTL.ENABLE written 0 sends a ring to STOPPING. -/
def execRingDisable (path : Path) (r : Fin 32768) (s : State) : Host.Outcome State Fault Refusal :=
  cmd (fieldWrite path (RNG_CTL_ENABLE r) 0) s

/-- RING_CLR_CNT (R251): RNG_CTL.CLR_CNT clears the ring's counters. -/
def execRingClrCnt (path : Path) (r : Fin 32768) (s : State) : Host.Outcome State Fault Refusal :=
  cmd (fieldWrite path (RNG_CTL_CLR_CNT r) 1) s

/-- RING_STOPPED (R247): A STOPPING ring has no job outstanding and no write in flight and becomes DISABLED. -/
def execRingStopped (r : Fin 32768) (s : State) : Host.Outcome State Fault Refusal :=
  cmd (ringStopped r) s

/-- RING_STOP_TIMEOUT (R247): A ring 100 ms in STOPPING becomes DISABLED with cause STOP_TIMEOUT. -/
def execRingStopTimeout (r : Fin 32768) (s : State) : Host.Outcome State Fault Refusal :=
  cmd (ringStopTimeout r) s

/-- SF_CONFIG_WRITE (R247): Clearing Bus Master Enable or PASID Enable of the Service Function puts its running rings
in ERROR. -/
def execSfConfigWrite (v : Fin 64) (master pasid tph : Bool) (s : State) : Host.Outcome State Fault Refusal :=
  cmd (sfConfig v master pasid tph) s

/-- FUNCTION_LEVEL_RESET (R221): A Function Level Reset of the Service Function stops its rings as PERST_N does. -/
def execFunctionLevelReset (v : Fin 64) (s : State) : Host.Outcome State Fault Refusal :=
  cmd (flr v) s

end Sys2Proof.Machine
end

