-- ==== Sys2Proof/Machine/ExecSlots.lean ====
section
/-!
DEFINITION. The meanings of commands, one definition for each, over the operations of the families' files. Slot power channels.
-/
namespace Sys2Proof.Machine

/-- SLOT_POWER_REQ (R407): A write of SLP_CTL.POWER_REQ turns a slot channel on or starts its switch-off. -/
def execSlotPowerReq (path : Path) (n : Fin 32) (on : Bool) (s : State) : Host.Outcome State Fault Refusal :=
  cmd (fieldWrite path (SLP_CTL_POWER_REQ n) (flag on)) s

/-- UNLATCH (R406): SLP_CTL.UNLATCH moves a LATCHED channel to RETRY_WAIT, or is refused. -/
def execUnlatch (path : Path) (n : Fin 32) (s : State) : Host.Outcome State Fault Refusal :=
  cmd (fieldWrite path (SLP_CTL_UNLATCH n) 1) s

/-- SLOT_CLR_CNT (R411): SLP_CTL.CLR_CNT clears the channel counters. -/
def execSlotClrCnt (path : Path) (n : Fin 32) (s : State) : Host.Outcome State Fault Refusal :=
  cmd (fieldWrite path (SLP_CTL_CLR_CNT n) 1) s

/-- INSERT_DELAY_END (R398): The insertion delay runs out and, with no retry timer running, the channel enters RAMP. -/
def execInsertDelayEnd (n : Fin 32) (s : State) : Host.Outcome State Fault Refusal :=
  cmd (insertDelayEnd n) s

/-- VIN_WINDOW_CROSSING (R398): VIN enters the window, or a crossing out of it persists 20 us, and the channel
changes state. -/
def execVinWindowCrossing (n : Fin 32) (vin : Nat) (s : State) : Host.Outcome State Fault Refusal :=
  cmd (vinCrossing n vin) s

/-- FAST_TRIP (R402): VSENSE above 2.5 times ILIM pulls the gate down within 1 us and records a fault. -/
def execFastTrip (n : Fin 32) (x : Meas) (s : State) : Host.Outcome State Fault Refusal :=
  cmd (fastTrip n x) s

/-- FAULT_TIMER_EXPIRY (R401): The fault timer reaches FAULT and the slow breaker switches the gate off. -/
def execFaultTimerExpiry (n : Fin 32) (x : Meas) (s : State) : Host.Outcome State Fault Refusal :=
  cmd (faultTimerExpiry n x) s

/-- RAMP_TIMEOUT (R403): A channel not ON within RAMP_TMO switches its gate off with cause RAMP. -/
def execRampTimeout (n : Fin 32) (x : Meas) (s : State) : Host.Outcome State Fault Refusal :=
  cmd (rampTimeout n x) s

/-- GATE_FULLY_ON (R404): VGS and VOUT reach the fully-on conditions and the channel enters ON. -/
def execGateFullyOn (n : Fin 32) (x : Meas) (s : State) : Host.Outcome State Fault Refusal :=
  cmd (gateFullyOn n x) s

/-- PG_DEGLITCH_END (R404): The fully-on conditions held 10 ms assert power-good. -/
def execPgDeglitchEnd (n : Fin 32) (s : State) : Host.Outcome State Fault Refusal :=
  cmd (pgDeglitchEnd n) s

/-- PG_CONDITIONS_LOST (R404): Fully-on conditions lost for 20 us deassert power-good while the channel stays ON. -/
def execPgConditionsLost (n : Fin 32) (x : Meas) (s : State) : Host.Outcome State Fault Refusal :=
  cmd (pgConditionsLost n x) s

/-- RETRY_TIMER_EXPIRY (R406): The slot retry timer runs out and a RETRY_WAIT channel ramps or waits for VIN. -/
def execRetryTimerExpiry (n : Fin 32) (s : State) : Host.Outcome State Fault Refusal :=
  cmd (retryExpiry n) s

/-- GATE_OFF_DELAY_END (R407): 100 us after power-good dropped for a power-off request, the gate is switched off. -/
def execGateOffDelayEnd (n : Fin 32) (s : State) : Host.Outcome State Fault Refusal :=
  cmd (gateOffDelayEnd n) s

end Sys2Proof.Machine
end

