-- ==== Sys2Proof/Machine/ExecSquares.lean ====
section
/-!
DEFINITION. The meanings of commands, one definition for each, over the operations of the families' files. Squares and Corners.
-/
namespace Sys2Proof.Machine

/-- SQUARE_LOOKUP (R122): A request, writeback or wakened retry takes a Square lookup slot, allocates a tracker and
issues its speculative read. -/
def execSquareLookup (sq : Fin 32) (tie : Nat) (s : State) (bad : Option (Fin 16) := none) : Host.Outcome State Fault
    Refusal :=
  cmd (whileOn (dSQ sq) (squareLookup sq tie (bad.map Fin.val))) s

/-- LOOKUP_RESULT (R123): The directory lookup returns 6 ns after it starts and the tracker acts on the state per
Table 5.2. -/
def execLookupResult (sq : Fin 32) (t : Fin 8192) (bad : Option (Fin 16)) (s : State) : Host.Outcome State Fault
    Refusal :=
  cmd (lookupResult sq t (bad.map Fin.val)) s

/-- SPEC_DATA_ARRIVAL (R127): Speculative read data arrives and is used or discarded by the lookup's decision. -/
def execSpecDataArrival (sq : Fin 32) (tag : Nat) (data : List Word) (poison : Bool) (s : State) : Host.Outcome State
    Fault Refusal :=
  cmd (specArrival sq tag data poison) s

/-- MEMORY_READ_DATA (R131): Demand read data arrives at a tracker from a fabric memory port. -/
def execMemoryReadData (sq : Fin 32) (tag : Nat) (data : List Word) (poison : Bool) (s : State) : Host.Outcome State
    Fault Refusal :=
  cmd (memReadData sq tag data poison) s

/-- MEMORY_WRITE_COMPLETE (R131): A tracker's memory write completes. -/
def execMemoryWriteComplete (sq : Fin 32) (tag : Nat) (s : State) : Host.Outcome State Fault Refusal :=
  cmd (memWriteDone sq tag) s

/-- WRITEBACK (R124): A writeback arrives at the Square and is joined, looked up, chained or discarded. -/
def execWriteback (sq : Fin 32) (q : Msg) (s : State) (bad : Option (Fin 16) := none) : Host.Outcome State Fault
    Refusal :=
  cmd (whileUp (dSQ sq) (writebackIn sq q (bad.map Fin.val))) s

/-- BIRSP (R128): A snoop answer arrives at a tracker, eviction or settle tracker and may close its snoop set. -/
def execBirsp (sq : Fin 32) (agent : Fin 65) (line : Nat) (shared : Bool) (s : State) : Host.Outcome State Fault
    Refusal :=
  cmd (birspIn sq agent line shared) s

/-- SNOOP_TIMEOUT (R129): SNP_TMO expires for a snoop destination, which is treated as lost for the line. -/
def execSnoopTimeout (sq : Fin 32) (t : Fin 8192) (agent : Fin 65) (s : State) : Host.Outcome State Fault Refusal :=
  cmd (snoopTimeout sq t agent) s

/-- MEM_TIMEOUT (R132): MEM_TMO expires for a tracker's memory read or write. -/
def execMemTimeout (sq : Fin 32) (what : Fin 3) (tag : Nat) (s : State) : Host.Outcome State Fault Refusal :=
  cmd (memTimeout sq what tag) s

/-- MIRROR_COMMIT (R338): A MIRROR_COMMIT packet arrives and releases the grants whose FINAL records it covers. -/
def execMirrorCommit (commits : List (Nat × Nat)) (s : State) : Host.Outcome State Fault Refusal :=
  cmd (commitRecord commits) s

/-- COMMIT_SEND (R338): A mirror Square returns a MIRROR_COMMIT within 20 ns of the first uncommitted record applied. -/
def execCommitSend (sq : Fin 32) (s : State) : Host.Outcome State Fault Refusal :=
  cmd (commitSend sq) s

/-- RELEASE_SEND (R337): A Square sends a packed RELEASE record within 100 ns of the first tracker free after a
record. -/
def execReleaseSend (sq : Fin 32) (s : State) : Host.Outcome State Fault Refusal :=
  cmd (releaseSend sq) s

/-- RETRY_INTERVAL (R136): SQ_RETRY_CTL.INTERVAL after its last attempt, a retry-queue entry is retried. -/
def execRetryInterval (sq : Fin 32) (n : Nat) (s : State) : Host.Outcome State Fault Refusal :=
  cmd (whileUp (dSQ sq) (retryInterval sq n)) s

/-- RETRY_AGE_LIMIT (R136): A retry-queue entry reaches SQ_RETRY_CTL.AGE_LIMIT. -/
def execRetryAgeLimit (sq : Fin 32) (n : Nat) (s : State) : Host.Outcome State Fault Refusal :=
  cmd (whileUp (dSQ sq) (retryAge sq n)) s

/-- EVICT_WINDOW_END (R138): A 1 ms eviction window ends and its count is compared with THRESH. -/
def execEvictWindowEnd (sq : Fin 32) (s : State) : Host.Outcome State Fault Refusal :=
  cmd (whileUp (dSQ sq) (evictWindow sq)) s

/-- PROBE_START (R142): A write of SQ_PROBE_ADDR starts a read of the entry for that line. -/
def execProbeStart (path : Path) (sq : Fin 32) (addr : Nat) (s : State) : Host.Outcome State Fault Refusal :=
  cmd (fieldWrite path (SQ_PROBE_ADDR_ADDR sq) (addr / 64)) s

/-- PROBE_DONE (R142): The probe completes and SQ_PROBE_RESULT reports the entry with DONE set. -/
def execProbeDone (sq : Fin 32) (s : State) : Host.Outcome State Fault Refusal :=
  cmd (whileUp (dSQ sq) (probeDone sq)) s

/-- FMD_COMMIT (R116): Setting SQ_FMD_CTL.COMMIT commits a fabric memory decoder or is refused. -/
def execFmdCommit (path : Path) (n : Fin 32) (s : State) : Host.Outcome State Fault Refusal :=
  cmd (fieldWrite path (SQ_FMD_CTL_COMMIT n) 1) s

/-- FMD_DECOMMIT (R116): Clearing COMMIT releases a decoder or is refused while a target port is UP. -/
def execFmdDecommit (path : Path) (n : Fin 32) (s : State) : Host.Outcome State Fault Refusal :=
  cmd (fieldWrite path (SQ_FMD_CTL_COMMIT n) 0) s

/-- SQ_CLR_CNT (R141): SQ_CTL.CLR_CNT clears the Square counters. -/
def execSqClrCnt (path : Path) (sq : Fin 32) (s : State) : Host.Outcome State Fault Refusal :=
  cmd (fieldWrite path (SQ_CTL_CLR_CNT sq) 1) s

/-- CORNER_FWD (R155): A FWD reaches the owner's Corner and opens a record, appends a waiter or is returned MOVED. -/
def execCornerFwd (p : Fin 128) (sq : Fin 32) (w : Waiting) (opened : Bool) (s : State) : Host.Outcome State Fault
    Refusal :=
  cmd (cornerFwd p sq w opened) s

/-- CORNER_WRITEBACK (R155): An owner writeback for a line with a Corner record is taken by the Corner. -/
def execCornerWriteback (p : Fin 128) (q : Msg) (s : State) : Host.Outcome State Fault Refusal :=
  cmd (cornerWriteback p q) s

/-- CORNER_BIRSP (R155): An owner BIRsp for a line with a Corner record advances or returns the head waiter. -/
def execCornerBirsp (p : Fin 128) (line : Nat) (shared : Bool) (s : State) : Host.Outcome State Fault Refusal :=
  cmd (cornerBirsp p line shared) s

/-- CORNER_SNOOP_TIMEOUT (R155): The home Square's SNP_TMO expires for a Corner record, which returns LOST or is
freed. -/
def execCornerSnoopTimeout (p : Fin 128) (line : Nat) (s : State) : Host.Outcome State Fault Refusal :=
  cmd (cornerSnoopTimeout p line) s

/-- CORNER_MEMORY_WRITE_DONE (R156): A Corner's memory write completes, allowing HANDOVER or RETURN DONE. -/
def execCornerMemoryWriteDone (p : Fin 128) (line : Nat) (s : State) : Host.Outcome State Fault Refusal :=
  cmd (cornerWriteDone p line) s

/-- CORNER_MEM_TIMEOUT (R156): MEM_TMO expires on a Corner's memory write, which is taken as complete. -/
def execCornerMemTimeout (p : Fin 128) (line : Nat) (s : State) : Host.Outcome State Fault Refusal :=
  cmd (cornerMemTimeout p line) s

/-- CORNER_ACK (R155): An ACK from the home Square reaches a HANDED Corner record. -/
def execCornerAck (p : Fin 128) (line : Nat) (s : State) : Host.Outcome State Fault Refusal :=
  cmd (cornerAck p line) s

/-- HANDOVER (R157): The home Square takes a HANDOVER, writes DX new owner with DELEG 1 and forwards the waiters. -/
def execHandover (sq : Fin 32) (p : Fin 128) (line : Nat) (agent : Fin 64) (settled recs waits : Nat) (s : State) :
    Host.Outcome State Fault Refusal :=
  cmd (handover sq p line agent settled recs waits) s

/-- RETURN (R157): The home Square takes a Corner RETURN with its reason and writes the entry per Table 6.4. -/
def execRet (sq : Fin 32) (p : Fin 128) (line : Nat) (why : Ret) (final : Option DirEnt) (kept : Bool) (head : Option
    Waiting) (settled recs waits : Nat) (s : State) : Host.Outcome State Fault Refusal :=
  cmd (retTake sq p line why final kept head settled recs waits false) s

/-- WAITER (R153): A WAITER message following a HANDOVER or RETURN re-enters its request at the Square in stamp
order. -/
def execWaiter (sq : Fin 32) (w : Waiting) (s : State) : Host.Outcome State Fault Refusal :=
  cmd (reenter sq w) s

/-- CREDIT (R151): A CREDIT message returns Corner record and waiter credits to a Square. -/
def execCredit (sq octet : Fin 32) (recs waits : Nat) (s : State) : Host.Outcome State Fault Refusal :=
  cmd (creditBack sq octet recs waits) s

/-- PURGE_WALK_DONE (R163): A Square's purge walk completes a full pass for every agent in its mask. -/
def execPurgeWalkDone (sq : Fin 32) (s : State) : Host.Outcome State Fault Refusal :=
  cmd (purgeDone sq) s

end Sys2Proof.Machine
end

