-- ==== Sys2Proof/Machine/ExecStructure.lean ====
section
/-!
DEFINITION. The meanings of commands, one definition for each, over the operations of the families' files. The loader and structure.
-/
namespace Sys2Proof.Machine

/-- LOAD_FLASH_A (R32): The loader command that starts a load of Meldel copy A from SPI flash. -/
def execLoadFlashA (path : Path) (s : State) : Host.Outcome State Fault Refusal :=
  cmd (fieldWrite path MLD_CTL_CMD 1) s

/-- LOAD_FLASH_B (R32): The loader command that starts a load of Meldel copy B from SPI flash. -/
def execLoadFlashB (path : Path) (s : State) : Host.Outcome State Fault Refusal :=
  cmd (fieldWrite path MLD_CTL_CMD 2) s

/-- LOAD_STAGE (R32): The loader command that starts a load of the image in the staging memory. -/
def execLoadStage (path : Path) (s : State) : Host.Outcome State Fault Refusal :=
  cmd (fieldWrite path MLD_CTL_CMD 3) s

/-- ABORT (R33): The loader ABORT command stops a running load before its write pass or ends a check as refused. -/
def execAbort (path : Path) (s : State) : Host.Outcome State Fault Refusal :=
  cmd (fieldWrite path MLD_CTL_CMD 4) s

/-- IMAGE_LOAD_DONE (R31): A load ends its verification pass and, if accepted, its write pass, and MLD_STATUS reports
ACCEPTED or REFUSED. -/
def execImageLoadDone (flash : Image) (s : State) : Host.Outcome State Fault Refusal :=
  cmd (imageLoadDone flash.bytes) s

/-- STAGE_DATA_ACCESS (R45): An access to MLD_STAGE_DATA transfers one staging word and advances MLD_STAGE_ADDR. -/
def execStageDataAccess (path : Path) (data : Option Word) (s : State) : Host.Outcome State Fault Refusal :=
  cmd (dataAccess path .MLD_STAGE_DATA 0 data) s

/-- STRUCT_ENABLE (R34): GLB_STRUCT_CTL.ENABLE written 1 starts the consistency check or is refused with
IMG_NOT_LOADED. -/
def execStructEnable (path : Path) (s : State) : Host.Outcome State Fault Refusal :=
  cmd (fieldWrite path GLB_STRUCT_CTL_ENABLE 1) s

/-- STRUCT_DISABLE (R34): GLB_STRUCT_CTL.ENABLE written 0 enters DISABLING when every port and ring is disabled, or
is refused. -/
def execStructDisable (path : Path) (s : State) : Host.Outcome State Fault Refusal :=
  cmd (fieldWrite path GLB_STRUCT_CTL_ENABLE 0) s

/-- STRUCT_CHECK (R40): GLB_STRUCT_CTL.CHECK runs phases 1 to 11 without applying them. -/
def execStructCheck (path : Path) (s : State) : Host.Outcome State Fault Refusal :=
  cmd (fieldWrite path GLB_STRUCT_CTL_CHECK 1) s

/-- STRUCT_CHECK_DONE (R35): The check phases finish, moving structure to APPLYING or refusing with the first reason
code. -/
def execStructCheckDone (s : State) : Host.Outcome State Fault Refusal :=
  cmd (structCheckDone) s

/-- PHASE11_LISTEN_END (R37): No valid partner heartbeat within 100 us lets phase 11 pass. -/
def execPhase11ListenEnd (s : State) : Host.Outcome State Fault Refusal :=
  cmd (phase11ListenEnd) s

/-- APPLYING_DONE (R34): Every defaulted domain has reached its default or failed, blocks are released and structure
becomes ENABLED. -/
def execApplyingDone (s : State) : Host.Outcome State Fault Refusal :=
  cmd (applyingDone) s

/-- DISABLING_DONE (R34): Every domain other than AO, MGMT and CORE has drained and is OFF, and structure returns to
DISABLED. -/
def execDisablingDone (s : State) : Host.Outcome State Fault Refusal :=
  cmd (disablingDone) s

end Sys2Proof.Machine
end

