-- ==== Sys2Proof/Machine/ExecTenants.lean ====
section
/-!
DEFINITION. The meanings of commands, one definition for each, over the operations of the families' files. Tenants and the Kerb.
-/
namespace Sys2Proof.Machine

/-- KERB_WINDOW_WRITE (R291): A write to a staged Kerb window is accepted or refused for LOCK or a running fence. -/
def execKerbWindowWrite (path : Path) (n : Fin 16384) (word : Fin 4) (data : Word) (s : State) : Host.Outcome State
    Fault Refusal :=
  cmd (wordWrite path .KRB_WIN (n * 4 + word) data) s

/-- KERB_FENCE_GO (R292): KRB_FENCE_CTL.GO starts a Kerb fence, which checks the staged windows. -/
def execKerbFenceGo (path : Path) (s : State) : Host.Outcome State Fault Refusal :=
  cmd (fieldWrite path KRB_FENCE_CTL_GO 1) s

/-- KERB_FENCE_CHECK_DONE (R292): The fence check finishes and either refuses or switches every check stage to the
new rules. -/
def execKerbFenceCheckDone (s : State) : Host.Outcome State Fault Refusal :=
  cmd (fenceCheckRow) s

/-- KERB_FENCE_DRAINED (R292): Every old-epoch access has completed and the fence ends. -/
def execKerbFenceDrained (s : State) : Host.Outcome State Fault Refusal :=
  cmd (fenceDrainedRow) s

/-- KERB_FENCE_TIMEOUT (R295): The fence drain exceeds TMO, RESULT becomes TIMEOUT and FENCE_TIMEOUT is raised. -/
def execKerbFenceTimeout (s : State) : Host.Outcome State Fault Refusal :=
  cmd (fenceTimeout) s

/-- SLICE_ENABLE (R284): TEN_CTL.ENABLE written 1 enables a slice or makes a stopping slice PENDING_ENABLE. -/
def execSliceEnable (path : Path) (sl : Fin 256) (s : State) : Host.Outcome State Fault Refusal :=
  cmd (fieldWrite path (TEN_CTL_ENABLE sl) 1) s

/-- SLICE_DISABLE (R284): TEN_CTL.ENABLE written 0 sends a slice to STOPPING and disables its rings. -/
def execSliceDisable (path : Path) (sl : Fin 256) (s : State) : Host.Outcome State Fault Refusal :=
  cmd (fieldWrite path (TEN_CTL_ENABLE sl) 0) s

/-- SLICE_DRAINED (R284): A stopping slice's rings, slot ring, jobs and old accesses are done and it becomes DISABLED
or ENABLED. -/
def execSliceDrained (sl : Fin 256) (s : State) : Host.Outcome State Fault Refusal :=
  cmd (sliceDrained sl) s

/-- SLICE_STOP_TIMEOUT (R284): 200 ms after leaving ENABLED without drain, the slice is forced to DISABLED or
ENABLED. -/
def execSliceStopTimeout (sl : Fin 256) (s : State) : Host.Outcome State Fault Refusal :=
  cmd (sliceTimeout sl) s

/-- VIOLATION_CLEAR (R297): Writing 1 to TEN_VIOL.VALID clears the capture record and count. -/
def execViolationClear (path : Path) (sl : Fin 256) (s : State) : Host.Outcome State Fault Refusal :=
  cmd (fieldWrite path (TEN_VIOL_VALID sl) 1) s

/-- APERTURE_ACCESS (R300): An access to TEN_OBJ_DATA reaches an owned object's context or is refused. -/
def execApertureAccess (path : Path) (sl : Fin 256) (word : Fin 8) (data : Option Word) (s : State) : Host.Outcome
    State Fault Refusal :=
  cmd (dataAccess path .TEN_OBJ_DATA (sl * 8 + word) data) s

/-- DEBUG_FABRIC_ACCESS (R299): A debug-master access to a fabric address is checked against DEBUG_DENY and locked
windows. -/
def execDebugFabricAccess (addr : Nat) (write : Bool) (data : List Word) (s : State) : Host.Outcome State Fault
    Refusal :=
  cmd (debugFabric addr write data) s

/-- KRB_CLR_CNT (R302): KRB_CTL.CLR_CNT clears every KRB counter. -/
def execKrbClrCnt (path : Path) (s : State) : Host.Outcome State Fault Refusal :=
  cmd (fieldWrite path KRB_CTL_CLR_CNT 1) s

end Sys2Proof.Machine
end

