-- ==== Sys2Proof/Machine/ExecTraffic.lean ====
section
/-!
DEFINITION. The meanings of commands, one definition for each, over the operations of the families' files. The Plaza, scheduling, gates and the time base.
-/
namespace Sys2Proof.Machine

/-- SLOT_LINE_WRITE (R175): A write into a Plaza slot allocates a bobbin, fills the slot and may commit it. -/
def execSlotLineWrite (v : Fin 64) (dpa tag : Nat) (mask : Word) (data : List Word) (poison : Bool) (s : State) :
    Host.Outcome State Fault Refusal :=
  cmd (plazaWrite v dpa tag mask.toNat data poison) s

/-- PLAZA_LD_READ (R171): A read of the Plaza logical device, or a write in its rounding gap, completes without
effect. -/
def execPlazaLdRead (v : Fin 64) (dpa tag : Nat) (read : Bool) (s : State) : Host.Outcome State Fault Refusal :=
  cmd (ldMiss v dpa tag read) s

/-- ENQUEUE (R184): The enqueue takes the committed head slot and checks, polices, admits, spills or drops its
packet. -/
def execEnqueue (sl : Fin 256) (s : State) : Host.Outcome State Fault Refusal :=
  cmd (whileUp dTM (enqueue sl)) s

/-- SLOT_FILL_TIMEOUT (R175): SLOT_TMO after its first write, a FILLING slot becomes DONE and frees its bobbins. -/
def execSlotFillTimeout (sl : Fin 256) (slot : Fin 4096) (s : State) : Host.Outcome State Fault Refusal :=
  cmd (whileUp dTM (slotFillTimeout sl slot)) s

/-- SLOT_HEAD_TIMEOUT (R175): A FREE head slot with a later slot in use for SLOT_TMO is skipped as DONE. -/
def execSlotHeadTimeout (sl : Fin 256) (s : State) : Host.Outcome State Fault Refusal :=
  cmd (whileUp dTM (slotHeadTimeout sl)) s

/-- SLOT_RETURN (R178): A DONE head slot becomes FREE, RETURNED advances and a return record may be written. -/
def execSlotReturn (sl : Fin 256) (s : State) : Host.Outcome State Fault Refusal :=
  cmd (whileUp dTM (slotReturn sl)) s

/-- RETURN_RECORD_TIMEOUT (R178): RET_TMO after the first unreported return, a return record is written. -/
def execReturnRecordTimeout (sl : Fin 256) (s : State) : Host.Outcome State Fault Refusal :=
  cmd (whileUp dTM (returnRecord sl)) s

/-- SLOT_RING_ENABLE (R177): TM_SRING_CTL.ENABLE written sets or stops a slot ring. -/
def execSlotRingEnable (path : Path) (sl : Fin 256) (on : Bool) (s : State) : Host.Outcome State Fault Refusal :=
  cmd (fieldWrite path (TM_SRING_CTL_ENABLE sl) (flag on)) s

/-- FLUSH_QUEUE (R187): The TM_CMD FLUSH_QUEUE command drops every packet linked to a queue before it. -/
def execFlushQueue (path : Path) (q : Fin 32768) (s : State) : Host.Outcome State Fault Refusal :=
  cmd (fieldsWrite path [(TM_CMD_QUEUE, q), (TM_CMD_OP, 1)]) s

/-- FLUSH_QUEUE_DONE (R187): A FLUSH_QUEUE command finishes and TM_CMD_STATUS.BUSY clears. -/
def execFlushQueueDone (s : State) : Host.Outcome State Fault Refusal :=
  cmd (wr TM_CMD_STATUS_BUSY 0) s

/-- TM_CLR_CNT (R195): TM_CTL.CLR_CNT clears the traffic-manager counters. -/
def execTmClrCnt (path : Path) (s : State) : Host.Outcome State Fault Refusal :=
  cmd (fieldWrite path TM_CTL_CLR_CNT 1) s

/-- METER_SWEEP (R181): The background sweep visits a VALID flow context so that its time difference never wraps. -/
def execMeterSweep (flow : Fin 1048576) (s : State) : Host.Outcome State Fault Refusal :=
  cmd (whileUp dTM (meterSweep flow)) s

/-- EGRESS_PUSH (R192): A selected packet is pushed into its receive ring once the ring has room, and its entry is
written. -/
def execEgressPush (c : Fin 512) (fixed : List Nat) (bad : List (Nat × Nat × Nat)) (s : State) : Host.Outcome State
    Fault Refusal :=
  cmd (whileUp dTM (egressPush c fixed bad)) s

/-- SELECT (R199): A selection lane decides the next packet of an egress port through the scheduling tree. -/
def execSelect (lane : Fin 4) (s : State) : Host.Outcome State Fault Refusal :=
  cmd (whileOn dTM (select lane)) s

/-- SHAPER_REFILL (R205): The refill engine of a level visits one element and credits its buckets. -/
def execShaperRefill (level : Fin 4) (n : Fin 32768) (s : State) : Host.Outcome State Fault Refusal :=
  cmd (whileUp dTM (shaperRefill level n)) s

/-- DRR_SWEEP (R203): The background sweep visits an idle queue and clamps its LAST_ROUND. -/
def execDrrSweep (q : Fin 32768) (s : State) : Host.Outcome State Fault Refusal :=
  cmd (whileUp dTM (drrSweep q)) s

/-- GATE_ENTRY_BOUNDARY (R214): The gate position crosses an entry boundary and the open mask and NOFIT flags change. -/
def execGateEntryBoundary (c : Fin 512) (s : State) : Host.Outcome State Fault Refusal :=
  cmd (whileUp dTM (gateBoundary c)) s

/-- GATE_START (R213): Once the time base is set and at or after BASE, the active gate list starts. -/
def execGateStart (c : Fin 512) (s : State) : Host.Outcome State Fault Refusal :=
  cmd (whileUp dTM (gateStart c)) s

/-- GATE_CHANGE (R216): TM_GATE_CTL.CHANGE requests a switch to the shadow bank, or is refused. -/
def execGateChange (path : Path) (c : Fin 512) (s : State) : Host.Outcome State Fault Refusal :=
  cmd (fieldWrite path (TM_GATE_CTL_CHANGE c) 1) s

/-- GATE_SWITCH (R216): At the switch time the gate banks exchange roles and the event is raised. -/
def execGateSwitch (c : Fin 512) (s : State) : Host.Outcome State Fault Refusal :=
  cmd (whileUp dTM (gateSwitch c)) s

/-- TOD_SET (R212): TB_TOD_CTL.SET sets the time base at once. -/
def execTodSet (path : Path) (ns : Nat) (s : State) : Host.Outcome State Fault Refusal :=
  cmd (fieldsWrite path [(TB_TOD_CTL_NS, ns), (TB_TOD_CTL_SET, 1)]) s

/-- TOD_ARM (R212): TB_TOD_CTL.ARM arms the ToD to be applied at the next accepted PPS edge. -/
def execTodArm (path : Path) (ns : Nat) (s : State) : Host.Outcome State Fault Refusal :=
  cmd (fieldsWrite path [(TB_TOD_CTL_NS, ns), (TB_TOD_CTL_ARM, 1)]) s

/-- TIME_STEP_OFFSET (R212): A write of TB_STEP.OFFSET steps the time base by a signed offset. -/
def execTimeStepOffset (path : Path) (offset : BitVec 32) (s : State) : Host.Outcome State Fault Refusal :=
  cmd (fieldWrite path TB_STEP_OFFSET offset.toNat) s

/-- TB_CLR_CNT (R220): TB_CTL.CLR_CNT clears TB_CNT. -/
def execTbClrCnt (path : Path) (s : State) : Host.Outcome State Fault Refusal :=
  cmd (fieldWrite path TB_CTL_CLR_CNT 1) s

/-- TB_TIME_NS_READ (R208): A read of TB_TIME_NS latches the seconds of the same instant into TB_TIME_SEC. -/
def execTbTimeNsRead (path : Path) (s : State) : Host.Outcome State Fault Refusal :=
  cmd (dataAccess path .TB_TIME_NS 0 none) s

/-- GCL_DATA_ACCESS (R216): An access to TM_GCL_DATA reads or writes a gate-list entry and advances INDEX. -/
def execGclDataAccess (path : Path) (data : Option Word) (s : State) : Host.Outcome State Fault Refusal :=
  cmd (dataAccess path .TM_GCL_DATA 0 data) s

end Sys2Proof.Machine
end

