-- ==== Sys2Proof/Machine/ExecTwin.lean ====
section
/-!
DEFINITION. The meanings of commands, one definition for each, over the operations of the families' files. The Spindle link, the Whorl lane and the pair.
-/
namespace Sys2Proof.Machine

/-- SPINDLE_ENABLE (R307): TWN_SPN_CTL.ENABLE written starts or stops the Spindle link. -/
def execSpindleEnable (path : Path) (on : Bool) (s : State) : Host.Outcome State Fault Refusal :=
  cmd (fieldWrite path TWN_SPN_CTL_ENABLE (flag on)) s

/-- SPINDLE_RETRAIN (R306): TWN_SPN_CTL.RETRAIN sends an UP link into RECOVERY at the widest width available. -/
def execSpindleRetrain (path : Path) (s : State) : Host.Outcome State Fault Refusal :=
  cmd (fieldWrite path TWN_SPN_CTL_RETRAIN 1) s

/-- SPINDLE_CLR_CNT (R329): TWN_SPN_CTL.CLR_CNT clears the Spindle counters. -/
def execSpindleClrCnt (path : Path) (s : State) : Host.Outcome State Fault Refusal :=
  cmd (fieldWrite path TWN_SPN_CTL_CLR_CNT 1) s

/-- SPINDLE_TRAINED (R306): Eight agreeing LINKINFO blocks with enough good lanes bring the link UP and reset
sequence and credits. -/
def execSpindleTrained (s : State) : Host.Outcome State Fault Refusal :=
  cmd (spnTrained) s

/-- SPINDLE_TRAIN_TIMEOUT (R306): TRAIN_TMO without reaching UP restarts training from receiver detect. -/
def execSpindleTrainTimeout (s : State) : Host.Outcome State Fault Refusal :=
  cmd (spnTrainTimeout) s

/-- SPINDLE_RECOVERY_DONE (R306): Lanes realign with agreeing LINKINFO and the link returns to UP with replays
started. -/
def execSpindleRecoveryDone (s : State) : Host.Outcome State Fault Refusal :=
  cmd (spnRecoveryDone) s

/-- SPINDLE_RECOVERY_TIMEOUT (R306): RECOVERY_TMO expires and the link is declared lost. -/
def execSpindleRecoveryTimeout (s : State) : Host.Outcome State Fault Refusal :=
  cmd (spnRecoveryTimeout) s

/-- SPINDLE_SILENCE (R306): No valid block for 1 us sends an UP link into RECOVERY. -/
def execSpindleSilence (s : State) : Host.Outcome State Fault Refusal :=
  cmd (spnSilence) s

/-- ALIGNMENT_LOST (R305): An alignment marker outside the skew window or with a disagreeing count fails its lane. -/
def execAlignmentLost (lane : Fin 34) (s : State) : Host.Outcome State Fault Refusal :=
  cmd (alignmentLost lane) s

/-- LANE_WINDOW_END (R320): A 1 ms lane error window ends and a lane over its thresholds fails. -/
def execLaneWindowEnd (lane : Fin 34) (corrected uncorrectable : Nat) (s : State) : Host.Outcome State Fault Refusal
    :=
  cmd (laneWindowEnd lane corrected uncorrectable) s

/-- STATUS_BLOCK (R316): A STATUS control block updates ACKED and credit limits and may start a replay on NAK. -/
def execStatusBlock (ok nak : Bool) (ack : Fin 65536) (limits : List Nat) (s : State) : Host.Outcome State Fault
    Refusal :=
  cmd (statusBlock ok nak ack limits) s

/-- REPLAY_BLOCK (R314): A REPLAY control block ends NAK_PENDING or is a protocol error. -/
def execReplayBlock (ok : Bool) (first : Fin 65536) (s : State) : Host.Outcome State Fault Refusal :=
  cmd (replayBlock ok first) s

/-- SPARE_BLOCK (R320): A SPARE control block moves a logical lane onto a spare or reports a failed spare. -/
def execSpareBlock (ok : Bool) (lane : Fin 32) (spare : Fin 2) (failedOnly : Bool) (s : State) : Host.Outcome State
    Fault Refusal :=
  cmd (spareBlock ok lane spare failedOnly) s

/-- LINKINFO_BLOCK (R306): A LINKINFO block advances training, reports an ID conflict, or brings an UP link into
RECOVERY. -/
def execLinkinfoBlock (ok twin : Bool) (failed : Nat) (s : State) (spares : Nat := 0) : Host.Outcome State Fault
    Refusal :=
  cmd (linkinfoBlock ok twin failed spares) s

/-- DATA_PACKET (R313): A Spindle data packet is CRC-checked and accepted in sequence, discarded as duplicate, or
treated as an error. -/
def execDataPacket (pk : Packet) (s : State) : Host.Outcome State Fault Refusal :=
  cmd (dataPacket pk) s

/-- FEC_UNCORRECTABLE (R314): An uncorrectable codeword puts the receiver in NAK_PENDING. -/
def execFecUncorrectable (s : State) : Host.Outcome State Fault Refusal :=
  cmd (fecUncorrectable) s

/-- REPLAY_TIMEOUT (R316): The replay timer expires with the Reel not empty and a replay starts or the link enters
RECOVERY. -/
def execReplayTimeout (s : State) : Host.Outcome State Fault Refusal :=
  cmd (replayTimeout) s

/-- STATUS_PERIOD (R315): 2 us after its last STATUS block a twin sends another. -/
def execStatusPeriod (s : State) : Host.Outcome State Fault Refusal :=
  cmd (statusPeriod) s

/-- PARTNER_SILENT (R321): No lane signal from the partner for SILENT_TMO sets the Spindle witness PARTNER_GONE. -/
def execPartnerSilent (s : State) : Host.Outcome State Fault Refusal :=
  cmd (partnerSilent) s

/-- MIRROR_RECORD (R337): A MIRROR packet is applied by the mirror Square as an ENTRY, RELEASE or MOVE record. -/
def execMirrorRecord (sq : Fin 32) (data : List Word) (s : State) : Host.Outcome State Fault Refusal :=
  cmd (mirrorRecord sq data) s

/-- FWD_REQ (R334): A misdirected request forwarded by the partner is served at its home Square as a request of the
same agent. -/
def execFwdReq (q : Msg) (s : State) : Host.Outcome State Fault Refusal :=
  cmd (fwdReq q) s

/-- FWD_RSP (R334): The response to a forwarded request returns and is delivered on the original port. -/
def execFwdRsp (q : Msg) (s : State) : Host.Outcome State Fault Refusal :=
  cmd (fwdRsp q) s

/-- SNOOP (R162): A BISnp relayed by the partner is delivered to an agent's port UP only here. -/
def execSnoop (q : Msg) (s : State) : Host.Outcome State Fault Refusal :=
  cmd (snoopIn q) s

/-- SNOOP_RSP (R310): A relayed BIRsp returns over the Spindle to the snooping twin. -/
def execSnoopRsp (sq : Fin 32) (agent : Fin 65) (line : Nat) (shared : Bool) (s : State) : Host.Outcome State Fault
    Refusal :=
  cmd (birsp sq agent line shared) s

/-- LOOM_REQ (R256): A Loom read, update or write from the partner is served by this twin's Kiosk. -/
def execLoomReq (q : Msg) (s : State) : Host.Outcome State Fault Refusal :=
  cmd (loomReq q) s

/-- LOOM_RSP (R256): Data or acknowledgement of a remote Loom access returns to the requesting thread. -/
def execLoomRsp (q : Msg) (s : State) : Host.Outcome State Fault Refusal :=
  cmd (loomRsp q) s

/-- PORT_STATE (R310): A PORT_STATE packet updates the map of agents with a port UP at the partner. -/
def execPortState (map : Word) (s : State) : Host.Outcome State Fault Refusal :=
  cmd (portState map.toNat) s

/-- PORT_STATE_PERIOD (R310): Every 1 ms, or on change, a twin sends its PORT_STATE packet. -/
def execPortStatePeriod (s : State) : Host.Outcome State Fault Refusal :=
  cmd (portStateSend) s

/-- SPINDLE_CTL_WRITE (R310): A CTL_WRITE packet from the partner enters command arbitration as a partner-twin write. -/
def execSpindleCtlWrite (addr : Nat) (data mask : Word) (s : State) : Host.Outcome State Fault Refusal :=
  cmd (regWrite [⟨.partner, addr, 8, data, mask⟩]) s

/-- DIR_COPY (R347): A DIR_COPY packet fills the receiving twin's mirror or primary array with copy records. -/
def execDirCopy (sq : Fin 32) (data : List Word) (s : State) : Host.Outcome State Fault Refusal :=
  cmd (dirCopy sq data) s

/-- COPY_COMPLETE (R347): Every Square has sent LAST for every array and COPY_DONE is set. -/
def execCopyComplete (s : State) : Host.Outcome State Fault Refusal :=
  cmd (copyComplete) s

/-- HEARTBEAT (R324): A valid Whorl heartbeat resets MISSED, updates partner state, claims and time offset, and
drives role transitions. -/
def execHeartbeat (fault : Nat) (h : Heartbeat) (s : State) (k27 : Nat := 0) : Host.Outcome State Fault Refusal :=
  cmd (heartbeatRow fault h k27) s

/-- HEARTBEAT_SEND (R324): Twin 0 at each 10 us mark, or twin 1 after its trigger or fallback, sends a heartbeat. -/
def execHeartbeatSend (s : State) : Host.Outcome State Fault Refusal :=
  cmd (heartbeatSendRow) s

/-- HEARTBEAT_MISS (R325): 10 us without a valid heartbeat increments MISSED and may set the Whorl witness. -/
def execHeartbeatMiss (s : State) : Host.Outcome State Fault Refusal :=
  cmd (heartbeatMiss) s

/-- WHORL_SYNC_LOSS (R322): Code or disparity errors lose Whorl character alignment and discard the frame in
progress. -/
def execWhorlSyncLoss (inFrame : Bool) (s : State) : Host.Outcome State Fault Refusal :=
  cmd (whlSyncLoss inFrame) s

/-- FW_FRAME (R327): A valid FW frame fills TWN_WHL_FW_RX or is discarded as an overrun. -/
def execFwFrame (fault : Nat) (d0 d1 : Word) (s : State) : Host.Outcome State Fault Refusal :=
  cmd (fwFrame fault d0.toNat d1.toNat) s

/-- FW_SEND (R327): TWN_WHL_FW_CTL.SEND queues a FW frame after the next heartbeat. -/
def execFwSend (path : Path) (s : State) : Host.Outcome State Fault Refusal :=
  cmd (fieldWrite path TWN_WHL_FW_CTL_SEND 1) s

/-- WHORL_CLR_CNT (R329): TWN_WHL_CTL.CLR_CNT clears the Whorl counters. -/
def execWhorlClrCnt (path : Path) (s : State) : Host.Outcome State Fault Refusal :=
  cmd (fieldWrite path TWN_WHL_CTL_CLR_CNT 1) s

/-- FORM_TIMEOUT (R332): All witnesses gone for FORM_TMO move a FORMING twin to ALONE. -/
def execFormTimeout (s : State) : Host.Outcome State Fault Refusal :=
  cmd (formTimeout) s

/-- SETTLE_WALK_DONE (R341): A Square's mirror-array walk after takeover ends and remaining table entries are taken. -/
def execSettleWalkDone (sq : Fin 32) (bad : List Nat) (s : State) : Host.Outcome State Fault Refusal :=
  cmd (settleWalkDone sq bad) s

/-- GRACE_END (R344): GRACE after a takeover ends the silent discard of non-owner writebacks. -/
def execGraceEnd (s : State) : Host.Outcome State Fault Refusal :=
  cmd (graceEnd) s

/-- FENCE (R339): TWN_CTL.FENCE fences this twin. -/
def execFence (path : Path) (s : State) : Host.Outcome State Fault Refusal :=
  cmd (fieldWrite path TWN_CTL_FENCE 1) s

/-- UNFENCE (R339): TWN_CTL.UNFENCE clears the fence while structure is DISABLED. -/
def execUnfence (path : Path) (s : State) : Host.Outcome State Fault Refusal :=
  cmd (fieldWrite path TWN_CTL_UNFENCE 1) s

/-- YIELD (R348): TWN_CTL.YIELD starts a yield of this twin's half to a SPLIT partner. -/
def execYield (path : Path) (s : State) : Host.Outcome State Fault Refusal :=
  cmd (fieldWrite path TWN_CTL_YIELD 1) s

/-- HANDBACK (R348): TWN_CTL.HANDBACK makes a RECEIVING twin claim HANDBACK. -/
def execHandback (path : Path) (s : State) : Host.Outcome State Fault Refusal :=
  cmd (fieldWrite path TWN_CTL_HANDBACK 1) s

/-- TWN_CLR_CNT (R354): TWN_CTL.CLR_CNT clears the pair counters. -/
def execTwnClrCnt (path : Path) (s : State) : Host.Outcome State Fault Refusal :=
  cmd (fieldWrite path TWN_CTL_CLR_CNT 1) s

/-- MOVE_DRAINED (R349): All 32 Squares report no tracker or ledger on moving lines and send the MOVE records. -/
def execMoveDrained (s : State) : Host.Outcome State Fault Refusal :=
  cmd (moveDrained) s

/-- MOVE_TIMEOUT (R349): MOVE_TMO expires before every Square drains and nothing moves. -/
def execMoveTimeout (s : State) : Host.Outcome State Fault Refusal :=
  cmd (moveTimeout) s

end Sys2Proof.Machine
end

