-- ==== Sys2Proof/Machine/Dispatch.lean ====
section
/-! DEFINITION. The commands by constructor: each arm calls its meaning. -/
namespace Sys2Proof.Machine

def exec (i : Instr) (s : State) : Host.Outcome State Fault Refusal :=
  match i with
  | .coldReset cause pin command => Sys2Proof.Machine.execColdReset cause pin command s
  | .warmReset pin command => Sys2Proof.Machine.execWarmReset pin command s
  | .perstAssert v => Sys2Proof.Machine.execPerstAssert v s
  | .perstDeassert v => Sys2Proof.Machine.execPerstDeassert v s
  | .presenceDebounced n present => Sys2Proof.Machine.execPresenceDebounced n present s
  | .twinIdChange level => Sys2Proof.Machine.execTwinIdChange level s
  | .partnerAliveChange level => Sys2Proof.Machine.execPartnerAliveChange level s
  | .ppsEdge short => Sys2Proof.Machine.execPpsEdge s short
  | .ppsLost => Sys2Proof.Machine.execPpsLost s
  | .registerWrite writes => Sys2Proof.Machine.execRegisterWrite writes s
  | .loadFlashA path => Sys2Proof.Machine.execLoadFlashA path s
  | .loadFlashB path => Sys2Proof.Machine.execLoadFlashB path s
  | .loadStage path => Sys2Proof.Machine.execLoadStage path s
  | .abort path => Sys2Proof.Machine.execAbort path s
  | .imageLoadDone flash => Sys2Proof.Machine.execImageLoadDone flash s
  | .stageDataAccess path data => Sys2Proof.Machine.execStageDataAccess path data s
  | .structEnable path => Sys2Proof.Machine.execStructEnable path s
  | .structDisable path => Sys2Proof.Machine.execStructDisable path s
  | .structCheck path => Sys2Proof.Machine.execStructCheck path s
  | .structCheckDone => Sys2Proof.Machine.execStructCheckDone s
  | .phase11ListenEnd => Sys2Proof.Machine.execPhase11ListenEnd s
  | .applyingDone => Sys2Proof.Machine.execApplyingDone s
  | .disablingDone => Sys2Proof.Machine.execDisablingDone s
  | .portEnableWrite path p on => Sys2Proof.Machine.execPortEnableWrite path p on s
  | .retrain path p => Sys2Proof.Machine.execRetrain path p s
  | .redoEq path p => Sys2Proof.Machine.execRedoEq path p s
  | .portClrCnt path p => Sys2Proof.Machine.execPortClrCnt path p s
  | .trainingL0 p link => Sys2Proof.Machine.execTrainingL0 p link s
  | .trainTimeout p => Sys2Proof.Machine.execTrainTimeout p s
  | .xrateEqTimeout p => Sys2Proof.Machine.execXrateEqTimeout p s
  | .portRecoveryDone p link => Sys2Proof.Machine.execPortRecoveryDone p link s
  | .linkDown p => Sys2Proof.Machine.execLinkDown p s
  | .ideSecure p mode kset => Sys2Proof.Machine.execIdeSecure p mode kset s
  | .ideTimeout p => Sys2Proof.Machine.execIdeTimeout p s
  | .ideFail p => Sys2Proof.Machine.execIdeFail p s
  | .flushComplete p => Sys2Proof.Machine.execFlushComplete p s
  | .flushTimeout p => Sys2Proof.Machine.execFlushTimeout p s
  | .slotPerstRelease n => Sys2Proof.Machine.execSlotPerstRelease n s
  | .powerControllerWrite v p on => Sys2Proof.Machine.execPowerControllerWrite v p on s
  | .hostMemRequest p q => Sys2Proof.Machine.execHostMemRequest p q s
  | .hostIoRequest p r => Sys2Proof.Machine.execHostIoRequest p r s
  | .edgeMessage p dpid spid q => Sys2Proof.Machine.execEdgeMessage p dpid spid q s
  | .cxlCacheMessage p q => Sys2Proof.Machine.execCxlCacheMessage p q s
  | .biconflict p addr tag => Sys2Proof.Machine.execBiconflict p addr tag s
  | .messageDispatch e c q => Sys2Proof.Machine.execMessageDispatch e c q s
  | .headAdmit e c => Sys2Proof.Machine.execHeadAdmit e c s
  | .cellLinked e plane => Sys2Proof.Machine.execCellLinked e plane s
  | .outputSend ep => Sys2Proof.Machine.execOutputSend ep s
  | .planePathCheckDone plane => Sys2Proof.Machine.execPlanePathCheckDone plane s
  | .planePathCheckTimeout plane => Sys2Proof.Machine.execPlanePathCheckTimeout plane s
  | .planeError plane parity => Sys2Proof.Machine.execPlaneError plane parity s
  | .planeWatchdog plane => Sys2Proof.Machine.execPlaneWatchdog plane s
  | .planeDrained plane => Sys2Proof.Machine.execPlaneDrained plane s
  | .planeDrainTimeout plane => Sys2Proof.Machine.execPlaneDrainTimeout plane s
  | .planeOut path planes => Sys2Proof.Machine.execPlaneOut path planes s
  | .planeReturn path planes => Sys2Proof.Machine.execPlaneReturn path planes s
  | .xbClrCnt path => Sys2Proof.Machine.execXbClrCnt path s
  | .ageExpiry ep c => Sys2Proof.Machine.execAgeExpiry ep c s
  | .flushedNotice was q => Sys2Proof.Machine.execFlushedNotice was q s
  | .squareLookup sq tie bad => Sys2Proof.Machine.execSquareLookup sq tie s bad
  | .lookupResult sq t bad => Sys2Proof.Machine.execLookupResult sq t bad s
  | .specDataArrival sq tag data poison => Sys2Proof.Machine.execSpecDataArrival sq tag data poison s
  | .memoryReadData sq tag data poison => Sys2Proof.Machine.execMemoryReadData sq tag data poison s
  | .memoryWriteComplete sq tag => Sys2Proof.Machine.execMemoryWriteComplete sq tag s
  | .writeback sq q bad => Sys2Proof.Machine.execWriteback sq q s bad
  | .birsp sq agent line shared => Sys2Proof.Machine.execBirsp sq agent line shared s
  | .snoopTimeout sq t agent => Sys2Proof.Machine.execSnoopTimeout sq t agent s
  | .memTimeout sq what tag => Sys2Proof.Machine.execMemTimeout sq what tag s
  | .mirrorCommit commits => Sys2Proof.Machine.execMirrorCommit commits s
  | .commitSend sq => Sys2Proof.Machine.execCommitSend sq s
  | .releaseSend sq => Sys2Proof.Machine.execReleaseSend sq s
  | .retryInterval sq n => Sys2Proof.Machine.execRetryInterval sq n s
  | .retryAgeLimit sq n => Sys2Proof.Machine.execRetryAgeLimit sq n s
  | .evictWindowEnd sq => Sys2Proof.Machine.execEvictWindowEnd sq s
  | .probeStart path sq addr => Sys2Proof.Machine.execProbeStart path sq addr s
  | .probeDone sq => Sys2Proof.Machine.execProbeDone sq s
  | .fmdCommit path n => Sys2Proof.Machine.execFmdCommit path n s
  | .fmdDecommit path n => Sys2Proof.Machine.execFmdDecommit path n s
  | .sqClrCnt path sq => Sys2Proof.Machine.execSqClrCnt path sq s
  | .cornerFwd p sq w opened => Sys2Proof.Machine.execCornerFwd p sq w opened s
  | .cornerWriteback p q => Sys2Proof.Machine.execCornerWriteback p q s
  | .cornerBirsp p line shared => Sys2Proof.Machine.execCornerBirsp p line shared s
  | .cornerSnoopTimeout p line => Sys2Proof.Machine.execCornerSnoopTimeout p line s
  | .cornerMemoryWriteDone p line => Sys2Proof.Machine.execCornerMemoryWriteDone p line s
  | .cornerMemTimeout p line => Sys2Proof.Machine.execCornerMemTimeout p line s
  | .cornerAck p line => Sys2Proof.Machine.execCornerAck p line s
  | .handover sq p line agent settled recs waits => Sys2Proof.Machine.execHandover sq p line agent settled recs waits s
  | .ret sq p line why final kept head settled recs waits => Sys2Proof.Machine.execRet sq p line why final kept head settled recs waits s
  | .waiter sq w => Sys2Proof.Machine.execWaiter sq w s
  | .credit sq octet recs waits => Sys2Proof.Machine.execCredit sq octet recs waits s
  | .purgeWalkDone sq => Sys2Proof.Machine.execPurgeWalkDone sq s
  | .slotLineWrite v dpa tag mask data poison => Sys2Proof.Machine.execSlotLineWrite v dpa tag mask data poison s
  | .plazaLdRead v dpa tag read => Sys2Proof.Machine.execPlazaLdRead v dpa tag read s
  | .enqueue sl => Sys2Proof.Machine.execEnqueue sl s
  | .slotFillTimeout sl slot => Sys2Proof.Machine.execSlotFillTimeout sl slot s
  | .slotHeadTimeout sl => Sys2Proof.Machine.execSlotHeadTimeout sl s
  | .slotReturn sl => Sys2Proof.Machine.execSlotReturn sl s
  | .returnRecordTimeout sl => Sys2Proof.Machine.execReturnRecordTimeout sl s
  | .slotRingEnable path sl on => Sys2Proof.Machine.execSlotRingEnable path sl on s
  | .flushQueue path q => Sys2Proof.Machine.execFlushQueue path q s
  | .flushQueueDone => Sys2Proof.Machine.execFlushQueueDone s
  | .tmClrCnt path => Sys2Proof.Machine.execTmClrCnt path s
  | .meterSweep flow => Sys2Proof.Machine.execMeterSweep flow s
  | .egressPush c fixed bad => Sys2Proof.Machine.execEgressPush c fixed bad s
  | .select lane => Sys2Proof.Machine.execSelect lane s
  | .shaperRefill level n => Sys2Proof.Machine.execShaperRefill level n s
  | .drrSweep q => Sys2Proof.Machine.execDrrSweep q s
  | .gateEntryBoundary c => Sys2Proof.Machine.execGateEntryBoundary c s
  | .gateStart c => Sys2Proof.Machine.execGateStart c s
  | .gateChange path c => Sys2Proof.Machine.execGateChange path c s
  | .gateSwitch c => Sys2Proof.Machine.execGateSwitch c s
  | .todSet path ns => Sys2Proof.Machine.execTodSet path ns s
  | .todArm path ns => Sys2Proof.Machine.execTodArm path ns s
  | .timeStepOffset path offset => Sys2Proof.Machine.execTimeStepOffset path offset s
  | .tbClrCnt path => Sys2Proof.Machine.execTbClrCnt path s
  | .tbTimeNsRead path => Sys2Proof.Machine.execTbTimeNsRead path s
  | .gclDataAccess path data => Sys2Proof.Machine.execGclDataAccess path data s
  | .doorbellProducer v sl whole data => Sys2Proof.Machine.execDoorbellProducer v sl whole data s
  | .doorbellConsumer v sl whole data => Sys2Proof.Machine.execDoorbellConsumer v sl whole data s
  | .fetchIssue r => Sys2Proof.Machine.execFetchIssue r s
  | .fetchCompletion r start ok poison data => Sys2Proof.Machine.execFetchCompletion r start ok poison data s
  | .fetchTimeout r start => Sys2Proof.Machine.execFetchTimeout r start s
  | .ringDispatch => Sys2Proof.Machine.execRingDispatch s
  | .jobComplete t => Sys2Proof.Machine.execJobComplete t s
  | .irqModerationTimeout r => Sys2Proof.Machine.execIrqModerationTimeout r s
  | .ringEnable path r => Sys2Proof.Machine.execRingEnable path r s
  | .ringDisable path r => Sys2Proof.Machine.execRingDisable path r s
  | .ringClrCnt path r => Sys2Proof.Machine.execRingClrCnt path r s
  | .ringStopped r => Sys2Proof.Machine.execRingStopped r s
  | .ringStopTimeout r => Sys2Proof.Machine.execRingStopTimeout r s
  | .sfConfigWrite v master pasid tph => Sys2Proof.Machine.execSfConfigWrite v master pasid tph s
  | .functionLevelReset v => Sys2Proof.Machine.execFunctionLevelReset v s
  | .loomAccessResponse id bad => Sys2Proof.Machine.execLoomAccessResponse id bad s
  | .loomAccessTimeout id => Sys2Proof.Machine.execLoomAccessTimeout id s
  | .clusterOut path clusters => Sys2Proof.Machine.execClusterOut path clusters s
  | .clusterDrained c => Sys2Proof.Machine.execClusterDrained c s
  | .clusterReturn path clusters => Sys2Proof.Machine.execClusterReturn path clusters s
  | .tableEnable path n on => Sys2Proof.Machine.execTableEnable path n on s
  | .lmClrCnt path => Sys2Proof.Machine.execLmClrCnt path s
  | .predClr path => Sys2Proof.Machine.execPredClr path s
  | .kioskFillData bank q => Sys2Proof.Machine.execKioskFillData bank q s
  | .kioskSnoop bank q bad => Sys2Proof.Machine.execKioskSnoop bank q bad s
  | .kioskSteeredFill bank q => Sys2Proof.Machine.execKioskSteeredFill bank q s
  | .kskBankOut path banks => Sys2Proof.Machine.execKskBankOut path banks s
  | .kskBankDrained bank => Sys2Proof.Machine.execKskBankDrained bank s
  | .kskBankReturn path banks => Sys2Proof.Machine.execKskBankReturn path banks s
  | .kioskFlush path => Sys2Proof.Machine.execKioskFlush path s
  | .kioskFlushDone => Sys2Proof.Machine.execKioskFlushDone s
  | .kskClrCnt path => Sys2Proof.Machine.execKskClrCnt path s
  | .kerbWindowWrite path n word data => Sys2Proof.Machine.execKerbWindowWrite path n word data s
  | .kerbFenceGo path => Sys2Proof.Machine.execKerbFenceGo path s
  | .kerbFenceCheckDone => Sys2Proof.Machine.execKerbFenceCheckDone s
  | .kerbFenceDrained => Sys2Proof.Machine.execKerbFenceDrained s
  | .kerbFenceTimeout => Sys2Proof.Machine.execKerbFenceTimeout s
  | .sliceEnable path sl => Sys2Proof.Machine.execSliceEnable path sl s
  | .sliceDisable path sl => Sys2Proof.Machine.execSliceDisable path sl s
  | .sliceDrained sl => Sys2Proof.Machine.execSliceDrained sl s
  | .sliceStopTimeout sl => Sys2Proof.Machine.execSliceStopTimeout sl s
  | .violationClear path sl => Sys2Proof.Machine.execViolationClear path sl s
  | .apertureAccess path sl word data => Sys2Proof.Machine.execApertureAccess path sl word data s
  | .debugFabricAccess addr write data => Sys2Proof.Machine.execDebugFabricAccess addr write data s
  | .krbClrCnt path => Sys2Proof.Machine.execKrbClrCnt path s
  | .spindleEnable path on => Sys2Proof.Machine.execSpindleEnable path on s
  | .spindleRetrain path => Sys2Proof.Machine.execSpindleRetrain path s
  | .spindleClrCnt path => Sys2Proof.Machine.execSpindleClrCnt path s
  | .spindleTrained => Sys2Proof.Machine.execSpindleTrained s
  | .spindleTrainTimeout => Sys2Proof.Machine.execSpindleTrainTimeout s
  | .spindleRecoveryDone => Sys2Proof.Machine.execSpindleRecoveryDone s
  | .spindleRecoveryTimeout => Sys2Proof.Machine.execSpindleRecoveryTimeout s
  | .spindleSilence => Sys2Proof.Machine.execSpindleSilence s
  | .alignmentLost lane => Sys2Proof.Machine.execAlignmentLost lane s
  | .laneWindowEnd lane corrected uncorrectable => Sys2Proof.Machine.execLaneWindowEnd lane corrected uncorrectable s
  | .statusBlock ok nak ack limits => Sys2Proof.Machine.execStatusBlock ok nak ack limits s
  | .replayBlock ok first => Sys2Proof.Machine.execReplayBlock ok first s
  | .spareBlock ok lane spare failedOnly => Sys2Proof.Machine.execSpareBlock ok lane spare failedOnly s
  | .linkinfoBlock ok twin failed spares => Sys2Proof.Machine.execLinkinfoBlock ok twin failed s spares
  | .dataPacket pk => Sys2Proof.Machine.execDataPacket pk s
  | .fecUncorrectable => Sys2Proof.Machine.execFecUncorrectable s
  | .replayTimeout => Sys2Proof.Machine.execReplayTimeout s
  | .statusPeriod => Sys2Proof.Machine.execStatusPeriod s
  | .partnerSilent => Sys2Proof.Machine.execPartnerSilent s
  | .mirrorRecord sq data => Sys2Proof.Machine.execMirrorRecord sq data s
  | .fwdReq q => Sys2Proof.Machine.execFwdReq q s
  | .fwdRsp q => Sys2Proof.Machine.execFwdRsp q s
  | .snoop q => Sys2Proof.Machine.execSnoop q s
  | .snoopRsp sq agent line shared => Sys2Proof.Machine.execSnoopRsp sq agent line shared s
  | .loomReq q => Sys2Proof.Machine.execLoomReq q s
  | .loomRsp q => Sys2Proof.Machine.execLoomRsp q s
  | .portState map => Sys2Proof.Machine.execPortState map s
  | .portStatePeriod => Sys2Proof.Machine.execPortStatePeriod s
  | .spindleCtlWrite addr data mask => Sys2Proof.Machine.execSpindleCtlWrite addr data mask s
  | .dirCopy sq data => Sys2Proof.Machine.execDirCopy sq data s
  | .copyComplete => Sys2Proof.Machine.execCopyComplete s
  | .heartbeat fault h k27 => Sys2Proof.Machine.execHeartbeat fault h s k27
  | .heartbeatSend => Sys2Proof.Machine.execHeartbeatSend s
  | .heartbeatMiss => Sys2Proof.Machine.execHeartbeatMiss s
  | .whorlSyncLoss inFrame => Sys2Proof.Machine.execWhorlSyncLoss inFrame s
  | .fwFrame fault d0 d1 => Sys2Proof.Machine.execFwFrame fault d0 d1 s
  | .fwSend path => Sys2Proof.Machine.execFwSend path s
  | .whorlClrCnt path => Sys2Proof.Machine.execWhorlClrCnt path s
  | .formTimeout => Sys2Proof.Machine.execFormTimeout s
  | .settleWalkDone sq bad => Sys2Proof.Machine.execSettleWalkDone sq bad s
  | .graceEnd => Sys2Proof.Machine.execGraceEnd s
  | .fence path => Sys2Proof.Machine.execFence path s
  | .unfence path => Sys2Proof.Machine.execUnfence path s
  | .yield path => Sys2Proof.Machine.execYield path s
  | .handback path => Sys2Proof.Machine.execHandback path s
  | .twnClrCnt path => Sys2Proof.Machine.execTwnClrCnt path s
  | .moveDrained => Sys2Proof.Machine.execMoveDrained s
  | .moveTimeout => Sys2Proof.Machine.execMoveTimeout s
  | .scrubGo path mem inst => Sys2Proof.Machine.execScrubGo path mem inst s
  | .scrubAbort path => Sys2Proof.Machine.execScrubAbort path s
  | .scrubWord w => Sys2Proof.Machine.execScrubWord w s
  | .scrubEnd => Sys2Proof.Machine.execScrubEnd s
  | .mergeDrain mem inst n complete w => Sys2Proof.Machine.execMergeDrain mem inst n complete w s
  | .retireAdd path bobbin => Sys2Proof.Machine.execRetireAdd path bobbin s
  | .writeRaw path => Sys2Proof.Machine.execWriteRaw path s
  | .readRaw path => Sys2Proof.Machine.execReadRaw path s
  | .rawAccessDone => Sys2Proof.Machine.execRawAccessDone s
  | .evqEnable path => Sys2Proof.Machine.execEvqEnable path s
  | .evqIrqTimeout => Sys2Proof.Machine.execEvqIrqTimeout s
  | .intClrCnt path => Sys2Proof.Machine.execIntClrCnt path s
  | .poisonCommand v op => Sys2Proof.Machine.execPoisonCommand v op s
  | .powerRequest path d req => Sys2Proof.Machine.execPowerRequest path d req s
  | .wakeStepReady d => Sys2Proof.Machine.execWakeStepReady d s
  | .wakeStepTimeout d => Sys2Proof.Machine.execWakeStepTimeout d s
  | .wakeRetryWaitEnd d => Sys2Proof.Machine.execWakeRetryWaitEnd d s
  | .sequencerWatchdog d => Sys2Proof.Machine.execSequencerWatchdog d s
  | .drainComplete d => Sys2Proof.Machine.execDrainComplete d s
  | .stoppingDone d => Sys2Proof.Machine.execStoppingDone d s
  | .drainTimeout d => Sys2Proof.Machine.execDrainTimeout d s
  | .lostReady d => Sys2Proof.Machine.execLostReady d s
  | .refclkLoss => Sys2Proof.Machine.execRefclkLoss s
  | .refclkReturn pin command => Sys2Proof.Machine.execRefclkReturn pin command s
  | .thermalSample temps sensor => Sys2Proof.Machine.execThermalSample temps sensor s
  | .throttleStep => Sys2Proof.Machine.execThrottleStep s
  | .ldoSoftBrownout => Sys2Proof.Machine.execLdoSoftBrownout s
  | .hardBrownout => Sys2Proof.Machine.execHardBrownout s
  | .pwrClrCnt path => Sys2Proof.Machine.execPwrClrCnt path s
  | .avsMarginWrite path margin => Sys2Proof.Machine.execAvsMarginWrite path margin s
  | .avsWriteAck => Sys2Proof.Machine.execAvsWriteAck s
  | .avsWriteTimeout => Sys2Proof.Machine.execAvsWriteTimeout s
  | .slotPowerReq path n on => Sys2Proof.Machine.execSlotPowerReq path n on s
  | .unlatch path n => Sys2Proof.Machine.execUnlatch path n s
  | .slotClrCnt path n => Sys2Proof.Machine.execSlotClrCnt path n s
  | .insertDelayEnd n => Sys2Proof.Machine.execInsertDelayEnd n s
  | .vinWindowCrossing n vin => Sys2Proof.Machine.execVinWindowCrossing n vin s
  | .fastTrip n x => Sys2Proof.Machine.execFastTrip n x s
  | .faultTimerExpiry n x => Sys2Proof.Machine.execFaultTimerExpiry n x s
  | .rampTimeout n x => Sys2Proof.Machine.execRampTimeout n x s
  | .gateFullyOn n x => Sys2Proof.Machine.execGateFullyOn n x s
  | .pgDeglitchEnd n => Sys2Proof.Machine.execPgDeglitchEnd n s
  | .pgConditionsLost n x => Sys2Proof.Machine.execPgConditionsLost n x s
  | .retryTimerExpiry n => Sys2Proof.Machine.execRetryTimerExpiry n s
  | .gateOffDelayEnd n => Sys2Proof.Machine.execGateOffDelayEnd n s
  | .glbResetWarm path key => Sys2Proof.Machine.execGlbResetWarm path key s
  | .firmwareCopyDone image => Sys2Proof.Machine.execFirmwareCopyDone image s
  | .recoveryWrite => Sys2Proof.Machine.execRecoveryWrite s
  | .recoveryBoot => Sys2Proof.Machine.execRecoveryBoot s
  | .kick path c => Sys2Proof.Machine.execKick path c s
  | .watchdogExpiry c => Sys2Proof.Machine.execWatchdogExpiry c s
  | .coreReset path c => Sys2Proof.Machine.execCoreReset path c s
  | .getVersion x => Sys2Proof.Machine.execGetVersion x s
  | .getState x => Sys2Proof.Machine.execGetState x s
  | .setLinkPolicy x status => Sys2Proof.Machine.execSetLinkPolicy x status s
  | .setPowerPolicy x status => Sys2Proof.Machine.execSetPowerPolicy x status s
  | .setScrubSchedule x status => Sys2Proof.Machine.execSetScrubSchedule x status s
  | .tmProgram x status writes => Sys2Proof.Machine.execTmProgram x status writes s
  | .setFailoverPolicy x status => Sys2Proof.Machine.execSetFailoverPolicy x status s
  | .flashUpdate x status => Sys2Proof.Machine.execFlashUpdate x status s
  | .mbWarmReset x => Sys2Proof.Machine.execMbWarmReset x s
  | .mailboxUnknownOpcode x => Sys2Proof.Machine.execMailboxUnknownOpcode x s
  | .mailboxTimeout x => Sys2Proof.Machine.execMailboxTimeout x s
  | .identifySwitchDevice path => Sys2Proof.Machine.execIdentifySwitchDevice path s
  | .getPhysicalPortState path ports => Sys2Proof.Machine.execGetPhysicalPortState path ports s
  | .assertPerst path p => Sys2Proof.Machine.execAssertPerst path p s
  | .deassertPerst path p => Sys2Proof.Machine.execDeassertPerst path p s
  | .resetPpb path p => Sys2Proof.Machine.execResetPpb path p s
  | .sendPpbCxlIoConfigRequest path p write => Sys2Proof.Machine.execSendPpbCxlIoConfigRequest path p write s
  | .getVirtualCxlSwitchInfo path v => Sys2Proof.Machine.execGetVirtualCxlSwitchInfo path v s
  | .bindVppb path => Sys2Proof.Machine.execBindVppb path s
  | .unbindVppb path => Sys2Proof.Machine.execUnbindVppb path s
  | .tunnelManagementCommand path p ld data => Sys2Proof.Machine.execTunnelManagementCommand path p ld data s
  | .sendLdCxlIoConfigRequest path p ld addr data => Sys2Proof.Machine.execSendLdCxlIoConfigRequest path p ld addr data s
  | .sendLdCxlIoMemoryRequest path p ld addr write data => Sys2Proof.Machine.execSendLdCxlIoMemoryRequest path p ld addr write data s
  | .getLdInfo path p => Sys2Proof.Machine.execGetLdInfo path p s
  | .getLdAllocations path p => Sys2Proof.Machine.execGetLdAllocations path p s
  | .setLdAllocations path => Sys2Proof.Machine.execSetLdAllocations path s
  | .qosControl path => Sys2Proof.Machine.execQosControl path s
  | .getMultiHeadedInfo path p => Sys2Proof.Machine.execGetMultiHeadedInfo path p s
  | .getHeadInfo path p => Sys2Proof.Machine.execGetHeadInfo path p s
  | .initiateDynamicCapacityAdd path p ld data => Sys2Proof.Machine.execInitiateDynamicCapacityAdd path p ld data s
  | .initiateDynamicCapacityRelease path p ld data => Sys2Proof.Machine.execInitiateDynamicCapacityRelease path p ld data s
  | .getEventRecords path log => Sys2Proof.Machine.execGetEventRecords path log s
  | .clearEventRecords path log n => Sys2Proof.Machine.execClearEventRecords path log n s
  | .setEventInterruptPolicy path policy => Sys2Proof.Machine.execSetEventInterruptPolicy path policy s
  | .ctlRead path addr n => Sys2Proof.Machine.execCtlRead path addr n s
  | .ctlWrite path addr data mask => Sys2Proof.Machine.execCtlWrite path addr data mask s
  | .stageWrite path addr data => Sys2Proof.Machine.execStageWrite path addr data s
  | .fmUnsupportedCommand path => Sys2Proof.Machine.execFmUnsupportedCommand path s
  | .mctpControl command arg => Sys2Proof.Machine.execMctpControl command arg s
  | .spdmGetVersion c => Sys2Proof.Machine.execSpdmGetVersion c s
  | .spdmGetCapabilities c => Sys2Proof.Machine.execSpdmGetCapabilities c s
  | .spdmNegotiateAlgorithms c => Sys2Proof.Machine.execSpdmNegotiateAlgorithms c s
  | .spdmGetDigests c => Sys2Proof.Machine.execSpdmGetDigests c s
  | .spdmGetCertificate c slot offset n => Sys2Proof.Machine.execSpdmGetCertificate c slot offset n s
  | .spdmChallenge c slot => Sys2Proof.Machine.execSpdmChallenge c slot s
  | .spdmGetMeasurements c index sign => Sys2Proof.Machine.execSpdmGetMeasurements c index sign s
  | .spdmKeyExchange c request => Sys2Proof.Machine.execSpdmKeyExchange c request s
  | .spdmFinish c session ok => Sys2Proof.Machine.execSpdmFinish c session ok s
  | .spdmHeartbeat c session => Sys2Proof.Machine.execSpdmHeartbeat c session s
  | .spdmKeyUpdate c session op tag => Sys2Proof.Machine.execSpdmKeyUpdate c session op tag s
  | .spdmEndSession c session => Sys2Proof.Machine.execSpdmEndSession c session s
  | .pmuClrAll path => Sys2Proof.Machine.execPmuClrAll path s
  | .censusTick => Sys2Proof.Machine.execCensusTick s
  | .counterPageRead v sl offset => Sys2Proof.Machine.execCounterPageRead v sl offset s
  | .testGo path kind domain patterns => Sys2Proof.Machine.execTestGo path kind domain patterns s
  | .testAbort path => Sys2Proof.Machine.execTestAbort path s
  | .testComplete misr failing => Sys2Proof.Machine.execTestComplete misr failing s
  | .testTimeout => Sys2Proof.Machine.execTestTimeout s
  | .chalReq path => Sys2Proof.Machine.execChalReq path s
  | .grant path => Sys2Proof.Machine.execGrant path s
  | .relock path => Sys2Proof.Machine.execRelock path s
  | .traceDataRead path => Sys2Proof.Machine.execTraceDataRead path s
  | .cmdConflictClear path => Sys2Proof.Machine.execCmdConflictClear path s
  | .pathCntClr path => Sys2Proof.Machine.execPathCntClr path s
  | .porstRelease twinId refclk => Sys2Proof.Machine.execPorstRelease twinId refclk s
  | .whorlCharacterAlignment => Sys2Proof.Machine.execWhorlCharacterAlignment s
  | .laneSignalLost lane signal => Sys2Proof.Machine.execLaneSignalLost lane signal s
  | .laneSignalDetected lane => Sys2Proof.Machine.execLaneSignalDetected lane s
  | .linkCreditReturn p c n => Sys2Proof.Machine.execLinkCreditReturn p c n s
  | .ideKmMessage p k => Sys2Proof.Machine.execIdeKmMessage p k s

end Sys2Proof.Machine
end

