-- ==== Sys2Proof/Machine/Step.lean ====
section
/-!
DEFINITION. One step: the command at the front of the queue runs on the block with the queue's rest. On an empty queue one
cycle of the core clock passes (notes/assumptions/1.md).
-/
namespace Sys2Proof.Machine

/-- What an empty queue does: a cycle of the core clock, unless PORST_N holds the part in reset (R208, R209). -/
def idle : P Unit := do
  let m ← getM
  onlyIf (m.pins.porst = false) idleCycle

/-- One step of the block. -/
def step (s : State) : Host.Outcome State Fault Refusal :=
  match s.pending with
  | [] => cmd idle s
  | c :: r => exec c { s with pending := r }

/-- The state with the command that a word spells at the front of its queue (no row of the table gives bits). -/
def State.withFetchWord (s : State) (nbits w : Nat) : State :=
  match decodeTableWord nbits w with
  | some c => { s with pending := c :: s.pending }
  | none => s

end Sys2Proof.Machine
end

