-- ==== Sys2Proof/Frame.lean ====
section
/-!
DEFINITION. What a frame is said in: the names of what the block holds beside its registers, and what two states have in
common outside a footprint, which is a list of registers and of such names; and the footprint of every command.
-/
namespace Sys2Proof.Machine

/-- What the block holds beside its registers and its fuses, by the name of its field. -/
inductive Tab where
  | out | freeCtr | pins | tb | hold | evPend | evLost | aoLatch | sram | hlog | stage | ldr | vcs | ldb | homeSel |
  domDef | dec | port | sf | msix | ring | xin | stg | flowt | xq | xdef | xturn | xaged | mcs | mcq | xfree | owed |
  mcNext | mir | xwait | xacct | feSeen | feDue | xdown | xret | sqin | rrLast | rrBurst | dbfNext | stampCtr | dir |
  trk | specT | memT | mru | bic | sqx | crec | cwait | crn | mtt | blind | pagent | alost | twx | slot | srx |
  slotTmo | pfree | sfree | tq | push | act | buck | shp | bmove | tmSub | lane | gcl | gopen | wire | kacc | job |
  acc | accNext | pred | kline | kmiss | lmLate | lmTmo | lmRem | vwin | reel | spnBuf | spnWait | spn | hbTx | whl |
  cout | repairs | scrub | raw | retire | retFull | faulty | dtgt | dwait | therm | avs | ao | slp | arrT | mgx | tst
  | cen | cskip | trc | trcNext | spdm
  deriving DecidableEq, Repr

/-- What an update changes beside the registers. -/
@[reducible, simp] def Upd.tab : Upd → Option Tab
  | .reg _ _ => none
  | .out _ => some .out
  | .freeCtr _ => some .freeCtr
  | .pins _ => some .pins
  | .tb _ => some .tb
  | .hold _ => some .hold
  | .evPend _ => some .evPend
  | .evLost _ => some .evLost
  | .aoLatch _ => some .aoLatch
  | .sram _ _ | .sramAll => some .sram
  | .hlog _ _ | .hlogAll => some .hlog
  | .stage _ _ | .stageAll => some .stage
  | .ldr _ => some .ldr
  | .vcs _ _ | .vcsAll => some .vcs
  | .ldb _ => some .ldb
  | .homeSel _ => some .homeSel
  | .domDef _ => some .domDef
  | .dec _ _ | .decAll => some .dec
  | .port _ _ | .portAll => some .port
  | .sf _ _ | .sfAll => some .sf
  | .msix _ _ | .msixAll => some .msix
  | .ring _ _ | .ringAll => some .ring
  | .xin _ _ | .xinAll => some .xin
  | .stg _ _ | .stgAll => some .stg
  | .flowt _ _ | .flowtAll => some .flowt
  | .xq _ _ | .xqAll => some .xq
  | .xdef _ _ | .xdefAll => some .xdef
  | .xturn _ _ | .xturnAll => some .xturn
  | .xaged _ _ | .xagedAll => some .xaged
  | .mcs _ _ | .mcsAll => some .mcs
  | .mcq _ _ | .mcqAll => some .mcq
  | .xfree _ => some .xfree
  | .owed _ _ | .owedAll => some .owed
  | .mcNext _ => some .mcNext
  | .mir _ _ | .mirAll => some .mir
  | .xwait _ _ | .xwaitAll => some .xwait
  | .xacct _ _ | .xacctAll => some .xacct
  | .feSeen _ => some .feSeen
  | .feDue _ => some .feDue
  | .xdown _ _ | .xdownAll => some .xdown
  | .xret _ _ | .xretAll => some .xret
  | .sqin _ _ | .sqinAll => some .sqin
  | .rrLast _ => some .rrLast
  | .rrBurst _ => some .rrBurst
  | .dbfNext _ _ | .dbfNextAll => some .dbfNext
  | .stampCtr _ => some .stampCtr
  | .dir _ _ | .dirAll => some .dir
  | .trk _ _ | .trkAll => some .trk
  | .specT _ _ | .specTAll => some .specT
  | .memT _ _ | .memTAll => some .memT
  | .mru _ _ | .mruAll => some .mru
  | .bic _ => some .bic
  | .sqx _ _ | .sqxAll => some .sqx
  | .crec _ _ | .crecAll => some .crec
  | .cwait _ _ | .cwaitAll => some .cwait
  | .crn _ _ | .crnAll => some .crn
  | .mtt _ _ | .mttAll => some .mtt
  | .blind _ _ | .blindAll => some .blind
  | .pagent _ _ | .pagentAll => some .pagent
  | .alost _ _ | .alostAll => some .alost
  | .twx _ => some .twx
  | .slot _ _ | .slotAll => some .slot
  | .srx _ _ | .srxAll => some .srx
  | .slotTmo _ => some .slotTmo
  | .pfree _ => some .pfree
  | .sfree _ => some .sfree
  | .tq _ _ | .tqAll => some .tq
  | .push _ _ | .pushAll => some .push
  | .act _ _ | .actAll => some .act
  | .buck _ _ | .buckAll => some .buck
  | .shp _ _ | .shpAll => some .shp
  | .bmove _ => some .bmove
  | .tmSub _ => some .tmSub
  | .lane _ _ | .laneAll => some .lane
  | .gcl _ _ | .gclAll => some .gcl
  | .gopen _ _ | .gopenAll => some .gopen
  | .wire _ _ | .wireAll => some .wire
  | .kacc _ => some .kacc
  | .job _ _ | .jobAll => some .job
  | .acc _ _ | .accAll => some .acc
  | .accNext _ => some .accNext
  | .pred _ _ | .predAll => some .pred
  | .kline _ _ | .klineAll => some .kline
  | .kmiss _ _ | .kmissAll => some .kmiss
  | .lmLate _ => some .lmLate
  | .lmTmo _ => some .lmTmo
  | .lmRem _ => some .lmRem
  | .vwin _ _ | .vwinAll => some .vwin
  | .reel _ => some .reel
  | .spnBuf _ _ | .spnBufAll => some .spnBuf
  | .spnWait _ _ | .spnWaitAll => some .spnWait
  | .spn _ => some .spn
  | .hbTx _ _ | .hbTxAll => some .hbTx
  | .whl _ => some .whl
  | .cout _ => some .cout
  | .repairs _ => some .repairs
  | .scrub _ => some .scrub
  | .raw _ _ | .rawAll => some .raw
  | .retire _ _ | .retireAll => some .retire
  | .retFull _ => some .retFull
  | .faulty _ => some .faulty
  | .dtgt _ _ | .dtgtAll => some .dtgt
  | .dwait _ _ | .dwaitAll => some .dwait
  | .therm _ => some .therm
  | .avs _ => some .avs
  | .ao _ => some .ao
  | .slp _ _ | .slpAll => some .slp
  | .arrT _ _ | .arrTAll => some .arrT
  | .mgx _ => some .mgx
  | .tst _ => some .tst
  | .cen _ => some .cen
  | .cskip _ _ | .cskipAll => some .cskip
  | .trc _ _ | .trcAll => some .trc
  | .trcNext _ => some .trcNext
  | .spdm _ _ | .spdmAll => some .spdm

/-- Two states agree on one such thing. -/
def Tab.same (m m' : Mach) : Tab → Prop
  | .out => m'.out = m.out
  | .freeCtr => m'.freeCtr = m.freeCtr
  | .pins => m'.pins = m.pins
  | .tb => m'.tb = m.tb
  | .hold => m'.hold = m.hold
  | .evPend => m'.evPend = m.evPend
  | .evLost => m'.evLost = m.evLost
  | .aoLatch => m'.aoLatch = m.aoLatch
  | .sram => m'.sram = m.sram
  | .hlog => m'.hlog = m.hlog
  | .stage => m'.stage = m.stage
  | .ldr => m'.ldr = m.ldr
  | .vcs => m'.vcs = m.vcs
  | .ldb => m'.ldb = m.ldb
  | .homeSel => m'.homeSel = m.homeSel
  | .domDef => m'.domDef = m.domDef
  | .dec => m'.dec = m.dec
  | .port => m'.port = m.port
  | .sf => m'.sf = m.sf
  | .msix => m'.msix = m.msix
  | .ring => m'.ring = m.ring
  | .xin => m'.xin = m.xin
  | .stg => m'.stg = m.stg
  | .flowt => m'.flowt = m.flowt
  | .xq => m'.xq = m.xq
  | .xdef => m'.xdef = m.xdef
  | .xturn => m'.xturn = m.xturn
  | .xaged => m'.xaged = m.xaged
  | .mcs => m'.mcs = m.mcs
  | .mcq => m'.mcq = m.mcq
  | .xfree => m'.xfree = m.xfree
  | .owed => m'.owed = m.owed
  | .mcNext => m'.mcNext = m.mcNext
  | .mir => m'.mir = m.mir
  | .xwait => m'.xwait = m.xwait
  | .xacct => m'.xacct = m.xacct
  | .feSeen => m'.feSeen = m.feSeen
  | .feDue => m'.feDue = m.feDue
  | .xdown => m'.xdown = m.xdown
  | .xret => m'.xret = m.xret
  | .sqin => m'.sqin = m.sqin
  | .rrLast => m'.rrLast = m.rrLast
  | .rrBurst => m'.rrBurst = m.rrBurst
  | .dbfNext => m'.dbfNext = m.dbfNext
  | .stampCtr => m'.stampCtr = m.stampCtr
  | .dir => m'.dir = m.dir
  | .trk => m'.trk = m.trk
  | .specT => m'.specT = m.specT
  | .memT => m'.memT = m.memT
  | .mru => m'.mru = m.mru
  | .bic => m'.bic = m.bic
  | .sqx => m'.sqx = m.sqx
  | .crec => m'.crec = m.crec
  | .cwait => m'.cwait = m.cwait
  | .crn => m'.crn = m.crn
  | .mtt => m'.mtt = m.mtt
  | .blind => m'.blind = m.blind
  | .pagent => m'.pagent = m.pagent
  | .alost => m'.alost = m.alost
  | .twx => m'.twx = m.twx
  | .slot => m'.slot = m.slot
  | .srx => m'.srx = m.srx
  | .slotTmo => m'.slotTmo = m.slotTmo
  | .pfree => m'.pfree = m.pfree
  | .sfree => m'.sfree = m.sfree
  | .tq => m'.tq = m.tq
  | .push => m'.push = m.push
  | .act => m'.act = m.act
  | .buck => m'.buck = m.buck
  | .shp => m'.shp = m.shp
  | .bmove => m'.bmove = m.bmove
  | .tmSub => m'.tmSub = m.tmSub
  | .lane => m'.lane = m.lane
  | .gcl => m'.gcl = m.gcl
  | .gopen => m'.gopen = m.gopen
  | .wire => m'.wire = m.wire
  | .kacc => m'.kacc = m.kacc
  | .job => m'.job = m.job
  | .acc => m'.acc = m.acc
  | .accNext => m'.accNext = m.accNext
  | .pred => m'.pred = m.pred
  | .kline => m'.kline = m.kline
  | .kmiss => m'.kmiss = m.kmiss
  | .lmLate => m'.lmLate = m.lmLate
  | .lmTmo => m'.lmTmo = m.lmTmo
  | .lmRem => m'.lmRem = m.lmRem
  | .vwin => m'.vwin = m.vwin
  | .reel => m'.reel = m.reel
  | .spnBuf => m'.spnBuf = m.spnBuf
  | .spnWait => m'.spnWait = m.spnWait
  | .spn => m'.spn = m.spn
  | .hbTx => m'.hbTx = m.hbTx
  | .whl => m'.whl = m.whl
  | .cout => m'.cout = m.cout
  | .repairs => m'.repairs = m.repairs
  | .scrub => m'.scrub = m.scrub
  | .raw => m'.raw = m.raw
  | .retire => m'.retire = m.retire
  | .retFull => m'.retFull = m.retFull
  | .faulty => m'.faulty = m.faulty
  | .dtgt => m'.dtgt = m.dtgt
  | .dwait => m'.dwait = m.dwait
  | .therm => m'.therm = m.therm
  | .avs => m'.avs = m.avs
  | .ao => m'.ao = m.ao
  | .slp => m'.slp = m.slp
  | .arrT => m'.arrT = m.arrT
  | .mgx => m'.mgx = m.mgx
  | .tst => m'.tst = m.tst
  | .cen => m'.cen = m.cen
  | .cskip => m'.cskip = m.cskip
  | .trc => m'.trc = m.trc
  | .trcNext => m'.trcNext = m.trcNext
  | .spdm => m'.spdm = m.spdm

/-- A footprint: registers by kind (every instance of an array), things beside the registers, and single registers. -/
structure Foot where
  regs : List RegKind
  tabs : List Tab
  objs : List Reg
  deriving DecidableEq, Repr

/-- The two states agree outside the footprint: every register it does not name reads as before, everything else it does
not name stands, and so do the fuses. -/
def Foot.keeps (F : Foot) (m m' : Mach) : Prop :=
  (∀ r : Reg, r.k ∉ F.regs → r ∉ F.objs → m'.rd r = m.rd r) ∧ (∀ T : Tab, T ∉ F.tabs → T.same m m') ∧ m'.fuse = m.fuse

/-! What one kind of work can change, whatever it finds: registers by kind, things beside them, and single registers. -/

/-- A footprint and more. -/
def Foot.and (F : Foot) (ks : List RegKind) (ts : List Tab) (os : List Reg := []) : Foot :=
  ⟨F.regs ++ ks, F.tabs ++ ts, F.objs ++ os⟩

/-- A command that sends nothing into the block: what it answers and the pins it drives. -/
def Foot.quiet : Foot := ⟨[], [.out, .pins], []⟩

/-- A message sent into the Crossing: the queue at its input, the Kiosk accesses that wait for one, and the event
counters (R116, R430). -/
def Foot.xsend : Foot := Foot.quiet.and [.PMU_BANK_OVF, .PMU_CNT] [.xin, .kacc]

/-- An event raised (R369-R375): its record in SRAM, in the holding queue or on a ring, its host interrupt, and the
event counters. -/
def Foot.event : Foot := Foot.xsend.and [.RNG_IDX, .RNG_CNT, .INT_EVQ_IDX, .INT_EVQ_CNT] [.hold, .evPend, .evLost,
  .sram, .hlog, .sf, .ring]

/-- Work of a Square: its transactions, its directory, its messages, and what an error of a record is told by
(R124-R155). -/
def Foot.settleGo : Foot := Foot.event.and [.TWN_ROLE, .TWN_SETTLE, .TWN_CNT, .SQ_CNT] [.sqin, .dir, .trk, .memT,
  .bic, .sqx, .crec, .cwait, .mtt, .twx, .arrT]

/-- A loss of the partner and the role change that follows (R341-R350), with the agents it takes away. -/
def Foot.witness : Foot := Foot.settleGo.and [.TWN_COPY, .TWN_TAKEOVER_TIME, .TWN_BLIND, .TWN_SPN_STATUS,
  .TWN_SPN_FAIL, .TWN_SPN_TXSEQ, .TWN_SPN_LANE, .OCT_CRN_CNT_XFER, .OCT_CRN_CNT_RETURN, .XB_BUF_STATUS, .XB_CNT,
  .SQ_PURGE_MASK, .SQ_PURGE_STATUS] [.xq, .xaged, .mcs, .mcq, .xfree, .xacct, .crn, .blind, .pagent, .alost, .reel,
  .spnWait, .spn]

/-- An agent lost (R67): its lines, its rings, its requests in the Squares and the Corners. -/
def Foot.agentLost : Foot := Foot.settleGo.and [.SQ_PURGE_MASK, .SQ_PURGE_STATUS] [.crn, .alost]

/-- A message discarded, with the notice that its requester is owed (R108, R388). -/
def Foot.discard : Foot := Foot.event.and [.XB_CNT] []

/-- A Loom job that goes on (R264-R281): its accesses, its results, and the ring it came from. -/
def Foot.jobAdvance : Foot := Foot.event.and [.KSK_CNT, .KRB_CNT, .LM_CNT, .FLW_W0, .FLW_W1, .TEN_VIOL,
  .TEN_VIOL_ADDR, .TEN_VIOL_TIME, .TEN_VIOL_COUNT] [.job, .acc, .accNext, .pred, .kline, .kmiss, .lmRem]

/-- A result placed on a completion ring, or what stops the ring (R239-R250). -/
def Foot.resultPut : Foot := Foot.event.and [.RNG_STATUS, .RNG_PROG] []

/-- A port taken down (R64-R75): its lanes, and the agent lost behind it. -/
def Foot.portEnable : Foot := Foot.agentLost.and [.OCT_STATUS, .XB_BUF_STATUS, .XB_CNT, .TM_SPILL_STATUS, .RNG_CTL,
  .RNG_STATUS, .RNG_PROG] [.port, .xq, .xaged, .mcs, .mcq, .xfree, .owed, .xacct, .sfree, .tq, .push, .cout]

/-- A writeback at its home Square (R140): with what a Square does after it. -/
def Foot.writeback : Foot := Foot.settleGo.and [] [.stampCtr, .mru]

/-- Kiosk accesses that go on (R285-R293). -/
def Foot.kskKick : Foot := Foot.xsend.and [.KSK_CNT] [.acc, .kline, .kmiss]

/-- A domain that fails (R383-R390): what stood in it is lost, and the power sequencer goes on. -/
def Foot.domFail : Foot := Foot.witness.and [.PWR_CLK_STATUS, .PWR_DOM_STATUS, .TST_STATUS, .OCT_STATUS,
  .OCT_PORT_CTL, .OCT_PORT_STATUS, .OCT_PORT_TRAIN, .OCT_PORT_IDE, .OCT_PORT_CNT0, .XB_STATUS, .XB_PLANE_STATUS,
  .KSK_BANK_STATUS, .KSK_CNT, .KRB_CNT, .TM_STATUS, .TM_SPILL_STATUS, .TM_CNT, .TM_SRING_CTL, .TM_SRING_STATUS,
  .TM_CHAN_EGR1, .TM_RXB1, .TM_QOCC, .TM_QSTAT, .TM_QSCH_ST, .TM_BND_ST, .TM_CH_ST, .TM_PORT_ST, .RNG_CTL,
  .RNG_STATUS, .RNG_PROG, .LM_CL_STATUS, .LM_CNT, .FLW_W0, .FLW_W1, .INT_FE_LOG, .TEN_VIOL, .TEN_VIOL_ADDR,
  .TEN_VIOL_TIME, .TEN_VIOL_COUNT] [.port, .stg, .flowt, .owed, .feSeen, .feDue, .xdown, .xret, .specT, .mru, .slot,
  .srx, .pfree, .sfree, .tq, .push, .act, .buck, .bmove, .lane, .gopen, .wire, .job, .acc, .accNext, .pred, .kline,
  .kmiss, .lmRem, .cout, .dwait]

/-- A Bobbin given back (R181, R362), with the event of a retirement that could not be made. -/
def Foot.bobFree : Foot := Foot.event.and [.TM_STATUS, .INT_RETIRE_STATUS] [.pfree, .retire, .retFull]

/-- A Spindle that goes into recovery, and the loss of the partner where it cannot (R325-R330). -/
def Foot.spnRecover : Foot := Foot.witness.and [.TWN_SPN_CNT] []

/-- A role change (R341-R350). -/
def Foot.roleTo : Foot := Foot.event.and [.TWN_ROLE, .TWN_COPY] [.dir, .sqx, .mtt, .twx]

/-- A Corner whose transaction was flushed (R108): its line, and its RETURN. -/
def Foot.crnFlushed : Foot := Foot.event.and [.SQ_CNT] [.bic, .crn]

/-- What a command of the pins, structure and the ports can change. -/
def portTouches : Instr → Option Foot
  | .perstAssert _ => some (Foot.portEnable.and [.OCT_PORT_STATUS, .OCT_PORT_IDE, .OCT_PORT_CNT0, .OCT_CRN_CNT_RETURN,
      .TM_SRING_CTL] [.dec, .msix, .vwin])
  | .perstDeassert _ => some (Foot.quiet.and [.OCT_STATUS, .OCT_PORT_STATUS, .OCT_PORT_TRAIN, .OCT_PORT_IDE] [.port])
  | .presenceDebounced n _ => some (Foot.portEnable.and [.OCT_PORT_STATUS, .OCT_PORT_TRAIN, .OCT_PORT_IDE,
      .OCT_PORT_CNT0, .OCT_CRN_CNT_RETURN] [.slp] [⟨.SLP_CNT, n⟩, ⟨.SLP_STATUS, n⟩])
  | .twinIdChange _ => some Foot.event
  | .partnerAliveChange _ => some Foot.witness
  | .ppsEdge _ => some (Foot.event.and [.TM_QSCH_ST, .TM_GATE_ST, .TB_ADDEND, .TB_PPS_CAP, .TB_STATUS, .TB_TOD_CTL,
      .TB_CNT] [.tb, .tmSub, .gopen, .wire])
  | .ppsLost => some (Foot.event.and [.TB_ADDEND, .TB_STATUS, .TB_CNT] [.tb])
  | .structCheckDone => some (Foot.domFail.and [.GLB_STRUCT_CTL, .GLB_STRUCT_STATUS, .GLB_STRUCT_DETAIL,
      .GLB_STRUCT_ADDR, .PWR_DOM_CTL, .SLP_CTL, .SLP_STATUS, .SLP_CNT, .TWN_SPN_CTL, .KRB_CWIN, .KRB_HOST_SLICE,
      .TM_GATE_CTL, .TM_GATE_A, .TM_GATE_B, .RNG_CFG, .INT_SLICE_EVR, .TEN_STATUS] [.ldr, .mir, .shp, .gcl, .dtgt,
      .slp])
  | .phase11ListenEnd => some (Foot.domFail.and [.GLB_STRUCT_CTL, .GLB_STRUCT_STATUS, .GLB_STRUCT_DETAIL,
      .GLB_STRUCT_ADDR, .PWR_DOM_CTL, .SLP_CTL, .SLP_STATUS, .SLP_CNT, .TWN_SPN_CTL, .KRB_CWIN, .KRB_HOST_SLICE,
      .TM_GATE_CTL, .TM_GATE_A, .TM_GATE_B, .RNG_CFG, .INT_SLICE_EVR, .TEN_STATUS] [.ldr, .mir, .shp, .gcl, .dtgt,
      .slp])
  | .applyingDone => some (Foot.bobFree.and [.GLB_STRUCT_STATUS, .GLB_STRUCT_DETAIL, .GLB_STRUCT_ADDR, .TWN_ROLE,
      .TWN_COPY, .TWN_CNT, .TWN_SPN_STATUS, .TWN_SPN_FAIL, .TWN_SPN_LANE, .OCT_STATUS, .OCT_PORT_CTL,
      .OCT_PORT_STATUS, .OCT_PORT_TRAIN, .OCT_PORT_IDE, .TM_SPILL_STATUS, .TM_CMD_STATUS, .TM_CNT, .TM_SRING_CTL,
      .TM_SRING_STATUS, .TM_SRING_CNT, .TM_QOCC, .TM_QSCH_ST, .TM_BND_ST, .TM_CH_ST, .TM_CH_PKTS, .TM_CH_BYTES,
      .TM_GATE_CNT, .TEN_STATUS, .TEN_CTL] [.port, .dir, .sqx, .mtt, .twx, .srx, .slotTmo, .sfree, .tq, .act, .bmove,
      .spn])
  | .disablingDone => some (Foot.roleTo.and [.GLB_STRUCT_CTL, .GLB_STRUCT_STATUS, .GLB_STRUCT_DETAIL,
      .GLB_STRUCT_ADDR, .TWN_BLIND] [.blind])
  | .trainingL0 p _ => some (Foot.event.and [.OCT_STATUS] [.port, .alost] [⟨.OCT_PORT_IDE, p⟩, ⟨.OCT_PORT_STATUS, p⟩,
      ⟨.OCT_PORT_TRAIN, p⟩])
  | .trainTimeout p => some (Foot.event.and [.OCT_STATUS] [.port] [⟨.OCT_PORT_CNT0, p⟩, ⟨.OCT_PORT_IDE, p⟩,
      ⟨.OCT_PORT_STATUS, p⟩, ⟨.OCT_PORT_TRAIN, p⟩])
  | .xrateEqTimeout p => some (Foot.event.and [] [.port] [⟨.OCT_PORT_CNT0, p⟩])
  | .portRecoveryDone p _ => some (Foot.portEnable.and [] [] [⟨.OCT_CRN_CNT_RETURN, (p : Nat) / 4⟩, ⟨.OCT_PORT_CNT0,
      p⟩, ⟨.OCT_PORT_STATUS, p⟩, ⟨.OCT_PORT_TRAIN, p⟩])
  | .linkDown p => some (Foot.portEnable.and [] [] [⟨.OCT_CRN_CNT_RETURN, (p : Nat) / 4⟩, ⟨.OCT_PORT_CNT0, p⟩,
      ⟨.OCT_PORT_IDE, p⟩, ⟨.OCT_PORT_STATUS, p⟩, ⟨.OCT_PORT_TRAIN, p⟩])
  | .ideSecure p _ _ => some (Foot.xsend.and [] [.port, .alost] [⟨.OCT_PORT_IDE, p⟩, ⟨.OCT_PORT_STATUS, p⟩])
  | .ideTimeout _ => some Foot.event
  | .ideFail p => some (Foot.portEnable.and [] [] [⟨.OCT_CRN_CNT_RETURN, (p : Nat) / 4⟩, ⟨.OCT_PORT_CNT0, p⟩,
      ⟨.OCT_PORT_IDE, p⟩, ⟨.OCT_PORT_STATUS, p⟩])
  | .flushComplete p => some (Foot.quiet.and [.OCT_STATUS] [.port] [⟨.OCT_PORT_IDE, p⟩, ⟨.OCT_PORT_STATUS, p⟩,
      ⟨.OCT_PORT_TRAIN, p⟩])
  | .flushTimeout p => some (Foot.event.and [] [] [⟨.OCT_PORT_CTL, p⟩, ⟨.OCT_PORT_STATUS, p⟩])
  | .slotPerstRelease n => some (Foot.quiet.and [] [.port] [⟨.OCT_STATUS, n⟩])
  | .powerControllerWrite _ p _ => some (Foot.event.and [] [.port, .slp] [⟨.OCT_STATUS, (p : Nat) / 4⟩, ⟨.SLP_CNT, (p
      : Nat) / 4⟩, ⟨.SLP_CTL, (p : Nat) / 4⟩, ⟨.SLP_STATUS, (p : Nat) / 4⟩])
  | .hostMemRequest p _ => some (Foot.event.and [.XB_BUF_STATUS, .XB_MIR_CNT, .SQ_CNT, .KRB_CNT, .TEN_VIOL,
      .TEN_VIOL_ADDR, .TEN_VIOL_TIME, .TEN_VIOL_COUNT] [.xfree, .mir] [⟨.INT_CNT_PIN, 2⟩, ⟨.OCT_PORT_CNT1, p⟩])
  | .hostIoRequest p _ => some (Foot.event.and [.XB_BUF_STATUS, .XB_MIR_CNT] [.freeCtr, .dec, .msix, .xfree, .owed,
      .mir, .vwin] [⟨.INT_CNT_PIN, 2⟩, ⟨.OCT_PORT_CNT1, p⟩])
  | .edgeMessage p _ _ _ => some (Foot.event.and [.XB_BUF_STATUS, .XB_MIR_CNT] [.freeCtr, .xfree, .owed, .mir]
      [⟨.INT_CNT_PIN, 2⟩, ⟨.OCT_PORT_CNT1, p⟩])
  | .cxlCacheMessage p _ => some (Foot.event.and [.XB_BUF_STATUS, .XB_MIR_CNT] [.xfree, .mir, .cout] [⟨.INT_CNT_PIN,
      2⟩, ⟨.OCT_PORT_CNT1, p⟩])
  | .biconflict p _ _ => some (Foot.event.and [.XB_BUF_STATUS, .XB_MIR_CNT] [.xfree, .mir, .bic] [⟨.INT_CNT_PIN, 2⟩,
      ⟨.OCT_PORT_CNT1, p⟩])
  | _ => none

/-- What a command of the Crossing can change. -/
def crossingTouches : Instr → Option Foot
  | .messageDispatch e c _ => some (Foot.discard.and [.TWN_SPN_TXSEQ, .TWN_SPN_CRED, .XB_BUF_STATUS, .XB_MIR_CNT,
      .TM_SPILL_STATUS] [.port, .stg, .flowt, .xfree, .owed, .mir, .xwait, .xacct, .sqin, .stampCtr, .sfree, .tq,
      .push, .reel, .spnBuf, .spnWait, .spn, .arrT] [⟨.INT_CNT_PIN, 2⟩, ⟨.OCT_PORT_CNT1, e⟩, ⟨.TWN_SPN_CNT, 0⟩,
      ⟨.TWN_SPN_RCRED, c⟩])
  | .headAdmit _ c => some (Foot.discard.and [.TWN_SPN_TXSEQ, .TWN_SPN_CRED, .XB_BUF_STATUS, .XB_MIR_CNT,
      .TM_SPILL_STATUS] [.port, .stg, .flowt, .xfree, .owed, .mir, .xwait, .xacct, .sqin, .stampCtr, .sfree, .tq,
      .push, .reel, .spnBuf, .spnWait, .spn, .arrT] [⟨.TWN_SPN_CNT, 0⟩, ⟨.TWN_SPN_RCRED, c⟩])
  | .cellLinked _ _ => some (Foot.discard.and [.XB_BUF_STATUS] [.stg, .flowt, .xq, .mcs, .mcq, .xfree, .mcNext,
      .xacct])
  | .outputSend _ => some (Foot.event.and [.TWN_SPN_STATUS, .TWN_SPN_TXSEQ, .TWN_SPN_CRED, .XB_BUF_STATUS,
      .XB_MIR_CNT, .TM_SPILL_STATUS] [.port, .xq, .xdef, .xturn, .xaged, .mcs, .mcq, .xfree, .owed, .mir, .xacct,
      .sqin, .stampCtr, .sfree, .tq, .push, .reel, .spnWait, .spn, .arrT] [⟨.TWN_SPN_CNT, 0⟩, ⟨.TWN_SPN_CNT, 11⟩,
      ⟨.TWN_SPN_CNT, 12⟩])
  | .planePathCheckDone _ => some (Foot.portEnable.and [.TWN_COPY, .TWN_SPN_STATUS, .TWN_SPN_TXSEQ, .OCT_PORT_CTL,
      .OCT_PORT_STATUS, .OCT_PORT_TRAIN, .OCT_PORT_IDE, .OCT_PORT_CNT0, .OCT_CRN_CNT_XFER, .OCT_CRN_CNT_RETURN,
      .XB_STATUS, .XB_PLANE_STATUS, .INT_FE_LOG] [.stg, .flowt, .feSeen, .feDue, .xret, .pagent, .reel, .spnWait,
      .spn])
  | .planePathCheckTimeout _ => some (Foot.portEnable.and [.TWN_COPY, .TWN_SPN_STATUS, .TWN_SPN_TXSEQ, .OCT_PORT_CTL,
      .OCT_PORT_STATUS, .OCT_PORT_TRAIN, .OCT_PORT_IDE, .OCT_PORT_CNT0, .OCT_CRN_CNT_XFER, .OCT_CRN_CNT_RETURN,
      .XB_STATUS, .XB_PLANE_STATUS, .INT_FE_LOG] [.stg, .flowt, .feSeen, .feDue, .pagent, .reel, .spnWait, .spn])
  | .planeError _ _ => some (Foot.portEnable.and [.TWN_COPY, .TWN_SPN_STATUS, .TWN_SPN_TXSEQ, .OCT_PORT_CTL,
      .OCT_PORT_STATUS, .OCT_PORT_TRAIN, .OCT_PORT_IDE, .OCT_PORT_CNT0, .OCT_CRN_CNT_XFER, .OCT_CRN_CNT_RETURN,
      .XB_STATUS, .XB_PLANE_STATUS, .INT_FE_LOG] [.stg, .flowt, .feSeen, .feDue, .pagent, .reel, .spnWait, .spn])
  | .planeWatchdog _ => some (Foot.portEnable.and [.TWN_COPY, .TWN_SPN_STATUS, .TWN_SPN_TXSEQ, .OCT_PORT_CTL,
      .OCT_PORT_STATUS, .OCT_PORT_TRAIN, .OCT_PORT_IDE, .OCT_PORT_CNT0, .OCT_CRN_CNT_XFER, .OCT_CRN_CNT_RETURN,
      .XB_STATUS, .XB_PLANE_STATUS, .INT_FE_LOG] [.stg, .flowt, .feSeen, .feDue, .pagent, .reel, .spnWait, .spn])
  | .planeDrained _ => some (Foot.portEnable.and [.TWN_COPY, .TWN_SPN_STATUS, .TWN_SPN_TXSEQ, .OCT_PORT_CTL,
      .OCT_PORT_STATUS, .OCT_PORT_TRAIN, .OCT_PORT_IDE, .OCT_PORT_CNT0, .OCT_CRN_CNT_XFER, .OCT_CRN_CNT_RETURN,
      .XB_STATUS, .XB_PLANE_STATUS, .INT_FE_LOG] [.flowt, .feSeen, .feDue, .pagent, .reel, .spnWait, .spn])
  | .planeDrainTimeout _ => some (Foot.portEnable.and [.TWN_COPY, .TWN_SPN_STATUS, .TWN_SPN_TXSEQ, .OCT_PORT_CTL,
      .OCT_PORT_STATUS, .OCT_PORT_TRAIN, .OCT_PORT_IDE, .OCT_PORT_CNT0, .OCT_CRN_CNT_XFER, .OCT_CRN_CNT_RETURN,
      .XB_STATUS, .XB_PLANE_STATUS, .INT_FE_LOG] [.stg, .flowt, .feSeen, .feDue, .pagent, .reel, .spnWait, .spn])
  | .ageExpiry _ _ => some (Foot.discard.and [] [.xaged])
  | .flushedNotice _ _ => some (Foot.settleGo.and [.OCT_CRN_CNT_XFER, .OCT_CRN_CNT_RETURN, .KSK_CNT, .TM_SPILL_STATUS,
      .TM_CNT] [.specT, .crn, .sfree, .tq, .push, .acc, .kline, .kmiss, .spn])
  | _ => none

/-- What a command of the Squares and the Corners can change. -/
def squareTouches : Instr → Option Foot
  | .squareLookup sq _ _ => some (Foot.settleGo.and [] [.specT, .mru] [⟨.SQ_ORD_STATUS, sq⟩])
  | .lookupResult _ _ _ => some (Foot.settleGo.and [] [.specT, .mru])
  | .specDataArrival _ _ _ _ => some (Foot.settleGo.and [] [.specT])
  | .memoryReadData _ _ _ _ => some Foot.settleGo
  | .memoryWriteComplete _ _ => some Foot.settleGo
  | .writeback _ _ _ => some Foot.writeback
  | .birsp _ _ _ _ => some (Foot.settleGo.and [] [.spn])
  | .snoopTimeout _ _ _ => some Foot.settleGo
  | .memTimeout _ _ _ => some (Foot.settleGo.and [] [.specT])
  | .mirrorCommit _ => some (Foot.portEnable.and [.TWN_COPY, .TWN_SPN_STATUS, .TWN_SPN_TXSEQ, .OCT_PORT_CTL,
      .OCT_PORT_STATUS, .OCT_PORT_TRAIN, .OCT_PORT_IDE, .OCT_PORT_CNT0, .OCT_CRN_CNT_XFER, .OCT_CRN_CNT_RETURN]
      [.pagent, .reel, .spnWait, .spn])
  | .commitSend _ => some (Foot.xsend.and [] [.sqx])
  | .releaseSend _ => some (Foot.xsend.and [.TWN_CNT] [.sqx])
  | .retryInterval _ _ => some (Foot.quiet.and [] [.sqx])
  | .retryAgeLimit _ _ => some (Foot.event.and [] [.sqx])
  | .evictWindowEnd sq => some (Foot.event.and [] [.sqx] [⟨.SQ_EVICT_STAT, sq⟩])
  | .probeDone sq => some (Foot.quiet.and [] [.sqx] [⟨.SQ_PROBE_RESULT, sq⟩, ⟨.SQ_PROBE_SHARERS, sq⟩])
  | .cornerFwd p _ _ _ => some (Foot.xsend.and [] [.crn] [⟨.OCT_CRN_CNT_BOUNCE, (p : Nat) / 4⟩, ⟨.OCT_CRN_CNT_FWD, (p
      : Nat) / 4⟩, ⟨.OCT_CRN_CNT_RETURN, (p : Nat) / 4⟩])
  | .cornerWriteback p _ => some (Foot.crnFlushed.and [.TWN_CNT] [.sqx] [⟨.OCT_CRN_CNT_RETURN, (p : Nat) / 4⟩,
      ⟨.OCT_CRN_CNT_XFER, (p : Nat) / 4⟩])
  | .cornerBirsp p _ _ => some (Foot.crnFlushed.and [.TWN_CNT] [.sqx] [⟨.OCT_CRN_CNT_ABSORBED, (p : Nat) / 4⟩,
      ⟨.OCT_CRN_CNT_RETURN, (p : Nat) / 4⟩, ⟨.OCT_CRN_CNT_XFER, (p : Nat) / 4⟩])
  | .cornerSnoopTimeout p _ => some (Foot.xsend.and [] [.crn] [⟨.OCT_CRN_CNT_RETURN, (p : Nat) / 4⟩])
  | .cornerMemoryWriteDone p _ => some (Foot.xsend.and [.SQ_CNT] [.bic, .crn] [⟨.OCT_CRN_CNT_RETURN, (p : Nat) / 4⟩,
      ⟨.OCT_CRN_CNT_XFER, (p : Nat) / 4⟩])
  | .cornerMemTimeout p _ => some (Foot.crnFlushed.and [] [] [⟨.OCT_CRN_CNT_RETURN, (p : Nat) / 4⟩,
      ⟨.OCT_CRN_CNT_XFER, (p : Nat) / 4⟩])
  | .cornerAck _ _ => some (Foot.xsend.and [] [.crn])
  | .handover _ _ _ _ _ _ _ => some (Foot.xsend.and [.SQ_CNT] [.dir, .sqx, .crec, .cwait])
  | .ret _ _ _ _ _ _ _ _ _ _ => some (Foot.settleGo.and [] [.specT])
  | .waiter _ _ => some (Foot.xsend.and [.SQ_CNT] [.sqin, .sqx, .crec, .cwait])
  | .credit _ _ _ _ => some (Foot.quiet.and [] [.crec, .cwait])
  | .purgeWalkDone sq => some (Foot.event.and [.TWN_CNT, .SQ_CNT] [.dir, .trk, .memT, .sqx] [⟨.SQ_PURGE_MASK, sq⟩,
      ⟨.SQ_PURGE_STATUS, sq⟩])
  | _ => none

/-- What a command of the Plaza and its scheduler can change. -/
def plazaTouches : Instr → Option Foot
  | .slotLineWrite _ _ _ _ _ _ => some (Foot.bobFree.and [.TM_CNT, .TM_SRING_CNT] [.slot, .srx])
  | .plazaLdRead _ _ _ _ => some (Foot.event.and [.TM_CNT] [])
  | .enqueue _ => some (Foot.bobFree.and [.SQ_CNT, .TM_SPILL_STATUS, .TM_CNT, .TM_QOCC, .TM_QSTAT, .TM_QSCH_ST,
      .FLW_W0, .FLW_W1] [.freeCtr, .slot, .srx, .sfree, .tq, .push, .act])
  | .slotFillTimeout sl _ => some (Foot.bobFree.and [] [.slot, .srx, .slotTmo] [⟨.TM_SRING_CNT, sl⟩])
  | .slotHeadTimeout sl => some (Foot.bobFree.and [] [.slot, .srx, .slotTmo] [⟨.TM_SRING_CNT, sl⟩])
  | .slotReturn sl => some (Foot.xsend.and [] [.slot, .srx] [⟨.TM_SRING_STATUS, sl⟩])
  | .returnRecordTimeout _ => some (Foot.xsend.and [] [.srx])
  | .flushQueueDone => some (Foot.quiet.and [.TM_CMD_STATUS] [])
  | .meterSweep flow => some (Foot.quiet.and [] [] [⟨.FLW_W0, flow⟩, ⟨.FLW_W1, flow⟩])
  | .egressPush c _ _ => some (Foot.bobFree.and [.SQ_CNT, .TM_SPILL_STATUS, .TM_CNT, .TM_RXB1, .TM_QOCC, .TM_QSCH_ST,
      .TM_BND_ST, .TM_CH_ST, .INT_LEAKED] [.freeCtr, .sfree, .tq, .push, .act, .bmove] [⟨.INT_CNT_POISON, 9⟩,
      ⟨.INT_CNT_UE, 9⟩, ⟨.INT_CNT_CE, 9⟩, ⟨.TM_CHAN_EGR1, c⟩])
  | .select _ => some (Foot.event.and [.SQ_CNT, .TM_SPILL_STATUS, .TM_QSCH_ST, .TM_BND_ST, .TM_CH_ST, .TM_CH_PKTS,
      .TM_CH_BYTES, .TM_GATE_CNT] [.freeCtr, .sfree, .tq, .push, .act, .buck, .bmove, .lane, .gopen, .wire])
  | .shaperRefill _ _ => some (Foot.quiet.and [] [.buck, .shp])
  | .drrSweep q => some (Foot.quiet.and [] [] [⟨.TM_QSCH_ST, q⟩])
  | .gateEntryBoundary c => some (Foot.quiet.and [.TM_QSCH_ST] [.gopen] [⟨.TM_GATE_ST, c⟩])
  | .gateStart c => some (Foot.quiet.and [.TM_QSCH_ST] [.gopen] [⟨.TM_GATE_CTL, c⟩, ⟨.TM_GATE_ST, c⟩])
  | .gateSwitch c => some (Foot.event.and [.TM_QSCH_ST] [.gopen] [⟨.TM_GATE_CNT, c⟩, ⟨.TM_GATE_CTL, c⟩, ⟨.TM_GATE_ST,
      c⟩])
  | _ => none

/-- What a command of the rings, the Loom, the Kiosk, the Kerb and the slices can change. -/
def ringTouches : Instr → Option Foot
  | .doorbellProducer _ _ _ _ => some (Foot.resultPut.and [] [.dbfNext])
  | .doorbellConsumer _ _ _ _ => some (Foot.resultPut.and [] [.dbfNext])
  | .fetchIssue _ => some (Foot.xsend.and [] [.ring])
  | .fetchCompletion r _ _ _ _ => some (Foot.event.and [.RNG_STATUS] [] [⟨.INT_CNT_PIN, 2⟩, ⟨.RNG_PROG, r⟩])
  | .fetchTimeout r _ => some (Foot.event.and [.RNG_STATUS] [] [⟨.RNG_PROG, r⟩])
  | .ringDispatch => some (Foot.jobAdvance.and [.RNG_STATUS, .RNG_PROG] [.rrLast, .rrBurst])
  | .jobComplete _ => some (Foot.resultPut.and [.LM_CNT] [.job])
  | .irqModerationTimeout _ => some (Foot.xsend.and [] [.sf, .ring])
  | .ringStopped r => some (Foot.quiet.and [] [.ring] [⟨.RNG_CNT, r⟩, ⟨.RNG_CTL, r⟩, ⟨.RNG_PROG, r⟩, ⟨.RNG_STATUS,
      r⟩])
  | .ringStopTimeout r => some (Foot.event.and [] [] [⟨.RNG_CTL, r⟩, ⟨.RNG_PROG, r⟩, ⟨.RNG_STATUS, r⟩])
  | .sfConfigWrite _ _ _ _ => some Foot.resultPut
  | .functionLevelReset _ => some (Foot.quiet.and [.RNG_CTL, .RNG_STATUS, .RNG_PROG, .RNG_CNT] [.sf, .ring])
  | .loomAccessResponse _ _ => some (Foot.jobAdvance.and [] [.lmLate] [⟨.INT_CNT_POISON, 4⟩])
  | .loomAccessTimeout _ => some (Foot.jobAdvance.and [] [.lmTmo])
  | .clusterDrained _ => some (Foot.quiet.and [.LM_CL_STATUS] [])
  | .kioskFillData _ _ => some (Foot.event.and [.KSK_CNT] [.acc, .kline, .kmiss] [⟨.INT_CNT_POISON, 4⟩])
  | .kioskSnoop _ _ _ => some (Foot.event.and [.KSK_CNT] [.acc, .kline, .kmiss] [⟨.INT_CNT_POISON, 4⟩])
  | .kioskSteeredFill _ _ => some (Foot.xsend.and [.KSK_CNT] [.acc, .kline])
  | .kskBankDrained _ => some (Foot.xsend.and [.KSK_BANK_STATUS, .KSK_CNT] [.acc, .kline])
  | .kioskFlushDone => some (Foot.quiet.and [.KSK_STATUS] [])
  | .kerbFenceTimeout => some (Foot.event.and [.KRB_FENCE_STATUS, .KRB_FENCE_CNT] [])
  | .sliceDrained sl => some (Foot.bobFree.and [.TM_SPILL_STATUS, .TM_CMD_STATUS, .TM_CNT, .TM_SRING_CNT, .TM_QOCC,
      .TM_QSCH_ST, .TM_BND_ST, .TM_CH_ST, .TM_CH_PKTS, .TM_CH_BYTES, .TM_GATE_CNT] [.srx, .slotTmo, .sfree, .tq, .act,
      .bmove] [⟨.TEN_STATUS, sl⟩, ⟨.TM_SRING_CTL, sl⟩, ⟨.TM_SRING_STATUS, sl⟩])
  | .sliceStopTimeout sl => some (Foot.event.and [] [] [⟨.TEN_STATUS, sl⟩])
  | .debugFabricAccess _ _ _ => some (Foot.event.and [.GLB_PATH_CNT, .TWN_CNT, .KRB_CNT, .TEN_VIOL, .TEN_VIOL_ADDR,
      .TEN_VIOL_TIME, .TEN_VIOL_COUNT] [.bic, .accNext])
  | _ => none

/-- What a command of the Spindle, the Whorl and the pair can change. -/
def twinTouches : Instr → Option Foot
  | .spindleTrained => some (Foot.spnRecover.and [.TWN_SPN_RXSEQ, .TWN_SPN_CRED, .TWN_SPN_RCRED] [.spnBuf])
  | .spindleTrainTimeout => some (Foot.quiet.and [.TWN_SPN_STATUS, .TWN_SPN_FAIL, .TWN_SPN_LANE] [.spn])
  | .spindleRecoveryDone => some Foot.spnRecover
  | .spindleRecoveryTimeout => some Foot.witness
  | .spindleSilence => some Foot.spnRecover
  | .alignmentLost _ => some Foot.spnRecover
  | .laneWindowEnd _ _ _ => some Foot.spnRecover
  | .statusBlock _ _ _ _ => some (Foot.spnRecover.and [.TWN_SPN_CRED] [])
  | .replayBlock _ _ => some Foot.spnRecover
  | .spareBlock _ _ _ _ => some Foot.spnRecover
  | .linkinfoBlock _ _ _ _ => some Foot.spnRecover
  | .dataPacket _ => some (Foot.spnRecover.and [.TWN_SPN_RXSEQ, .TWN_SPN_RCRED] [.spnBuf])
  | .fecUncorrectable => some (Foot.quiet.and [.TWN_SPN_STATUS, .TWN_SPN_CNT] [])
  | .replayTimeout => some Foot.spnRecover
  | .statusPeriod => some Foot.quiet
  | .partnerSilent => some Foot.witness
  | .mirrorRecord _ _ => some (Foot.roleTo.and [.TWN_CNT] [])
  | .fwdReq _ => some Foot.writeback
  | .fwdRsp _ => some (Foot.xsend.and [] [.spnBuf, .spn])
  | .snoop _ => some (Foot.xsend.and [] [.spnBuf, .spn])
  | .snoopRsp _ _ _ _ => some Foot.settleGo
  | .loomReq _ => some (Foot.kskKick.and [] [.accNext])
  | .loomRsp _ => some (Foot.quiet.and [] [.acc])
  | .portState _ => some (Foot.agentLost.and [] [.pagent])
  | .portStatePeriod => some Foot.xsend
  | .dirCopy _ _ => some (Foot.roleTo.and [.TWN_BLIND, .TWN_CNT] [.blind])
  | .copyComplete => some (Foot.roleTo.and [.TWN_CNT] [.trk])
  | .heartbeat _ _ _ => some (Foot.domFail.and [.GLB_STRUCT_CTL, .GLB_STRUCT_STATUS, .GLB_STRUCT_DETAIL,
      .GLB_STRUCT_ADDR, .PWR_DOM_CTL, .SLP_CTL, .SLP_STATUS, .SLP_CNT, .TWN_SPN_CTL, .TWN_WHL_STATUS,
      .TWN_WHL_PARTNER, .TWN_WHL_DIGEST, .TWN_WHL_TOFF, .TWN_WHL_CNT, .KRB_CWIN, .KRB_HOST_SLICE, .TM_GATE_CTL,
      .TM_GATE_A, .TM_GATE_B, .RNG_CFG, .INT_SLICE_EVR, .TEN_STATUS] [.ldr, .mir, .shp, .gcl, .whl, .dtgt, .slp])
  | .heartbeatSend => some (Foot.domFail.and [.GLB_STRUCT_CTL, .GLB_STRUCT_STATUS, .GLB_STRUCT_DETAIL,
      .GLB_STRUCT_ADDR, .PWR_DOM_CTL, .SLP_CTL, .SLP_STATUS, .SLP_CNT, .TWN_SPN_CTL, .TWN_WHL_STATUS, .TWN_WHL_FW_CTL,
      .TWN_WHL_CNT, .KRB_CWIN, .KRB_HOST_SLICE, .TM_GATE_CTL, .TM_GATE_A, .TM_GATE_B, .RNG_CFG, .INT_SLICE_EVR,
      .TEN_STATUS] [.ldr, .mir, .shp, .gcl, .hbTx, .whl, .dtgt, .slp])
  | .heartbeatMiss => some (Foot.witness.and [.TWN_WHL_STATUS] [.whl])
  | .whorlSyncLoss _ => some (Foot.quiet.and [.TWN_WHL_STATUS, .TWN_WHL_CNT] [.whl])
  | .fwFrame _ _ _ => some (Foot.quiet.and [.TWN_WHL_FW_CTL, .TWN_WHL_FW_RX, .TWN_WHL_CNT] [])
  | .formTimeout => some Foot.roleTo
  | .settleWalkDone _ _ => some Foot.settleGo
  | .graceEnd => some (Foot.quiet.and [] [.twx])
  | .moveDrained => some (Foot.roleTo.and [.TWN_CNT] [])
  | .moveTimeout => some (Foot.event.and [.TWN_ROLE, .TWN_CNT] [.sqx, .twx])
  | _ => none

/-- What a command of integrity, power and the slot channels can change. -/
def powerTouches : Instr → Option Foot
  | .scrubWord _ => some (Foot.portEnable.and [.TWN_COPY, .TWN_SPN_STATUS, .TWN_SPN_TXSEQ, .OCT_PORT_CTL,
      .OCT_PORT_STATUS, .OCT_PORT_TRAIN, .OCT_PORT_IDE, .OCT_PORT_CNT0, .OCT_CRN_CNT_XFER, .OCT_CRN_CNT_RETURN,
      .SQ_FMD_CTL, .KRB_WIN, .KRB_CWIN, .TM_STATUS, .TM_CNT, .TM_QPOL, .TM_QOCC, .TM_GRP, .TM_QSCH_ST, .TM_BND_CFG,
      .TM_BND_ST, .TM_CH_CFG, .TM_CH_ST, .RNG_CFG, .LM_CL_STATUS, .LM_CNT, .LM_TBL_CFG, .FLW_W1, .INT_FE_LOG,
      .INT_SCRUB_STATUS, .INT_RETIRE_STATUS, .INT_REPAIR_STATUS, .INT_FAULTY, .INT_LEAKED, .INT_CNT_CE,
      .INT_CNT_POISON, .INT_CNT_UE] [.feSeen, .feDue, .pagent, .slot, .pfree, .act, .bmove, .job, .acc, .pred, .kline,
      .kmiss, .reel, .spnWait, .spn, .repairs, .scrub, .retire, .retFull, .faulty])
  | .scrubEnd => some (Foot.event.and [.INT_SCRUB_STATUS, .INT_SCRUB_SUM] [])
  | .mergeDrain mem _ _ _ _ => some (Foot.event.and [] [.dir, .slot, .tq, .push, .kline] [⟨.INT_CNT_CE, mem⟩,
      ⟨.INT_CNT_POISON, mem⟩])
  | .rawAccessDone => some (Foot.quiet.and [.INT_TEST_CTL] [])
  | .evqIrqTimeout => some Foot.quiet
  | .poisonCommand _ _ => some Foot.quiet
  | .wakeStepReady _ => some (Foot.domFail.and [.PWR_DOM_CTL, .FWM_BOOT_STATUS, .INT_RETIRE_STATUS,
      .INT_REPAIR_STATUS, .INT_LEAKED] [.aoLatch, .repairs, .retire, .retFull, .dtgt, .mgx])
  | .wakeStepTimeout _ => some (Foot.domFail.and [.PWR_DOM_CTL, .INT_REPAIR_STATUS] [.repairs, .dtgt])
  | .wakeRetryWaitEnd _ => some (Foot.domFail.and [.PWR_DOM_CTL, .INT_REPAIR_STATUS] [.repairs, .dtgt])
  | .sequencerWatchdog _ => some (Foot.domFail.and [.PWR_DOM_CTL, .INT_REPAIR_STATUS] [.repairs, .dtgt])
  | .drainComplete d => some (Foot.witness.and [.PWR_CLK_STATUS, .OCT_STATUS, .OCT_PORT_CTL, .OCT_PORT_STATUS,
      .OCT_PORT_TRAIN, .OCT_PORT_IDE, .OCT_PORT_CNT0, .XB_STATUS, .XB_PLANE_STATUS, .KSK_BANK_STATUS, .KSK_CNT,
      .KRB_CNT, .TM_STATUS, .TM_SPILL_STATUS, .TM_CNT, .TM_SRING_CTL, .TM_SRING_STATUS, .TM_CHAN_EGR1, .TM_RXB1,
      .TM_QOCC, .TM_QSTAT, .TM_QSCH_ST, .TM_BND_ST, .TM_CH_ST, .TM_PORT_ST, .RNG_CTL, .RNG_STATUS, .RNG_PROG,
      .LM_CL_STATUS, .LM_CNT, .FLW_W0, .FLW_W1, .INT_FE_LOG, .TEN_VIOL, .TEN_VIOL_ADDR, .TEN_VIOL_TIME,
      .TEN_VIOL_COUNT] [.port, .stg, .flowt, .owed, .feSeen, .feDue, .xdown, .xret, .specT, .mru, .slot, .srx, .pfree,
      .sfree, .tq, .push, .act, .buck, .bmove, .lane, .gopen, .wire, .job, .acc, .accNext, .pred, .kline, .kmiss,
      .lmRem, .cout] [⟨.PWR_DOM_STATUS, d⟩])
  | .stoppingDone _ => some (Foot.domFail.and [.PWR_DOM_CTL, .INT_REPAIR_STATUS] [.repairs, .dtgt])
  | .drainTimeout _ => some (Foot.domFail.and [.PWR_DOM_CTL, .INT_REPAIR_STATUS] [.repairs, .dtgt])
  | .lostReady _ => some (Foot.domFail.and [.PWR_DOM_CTL, .INT_REPAIR_STATUS] [.repairs, .dtgt])
  | .refclkLoss => some (Foot.domFail.and [.TWN_WHL_STATUS, .TB_ADDEND, .TB_STATUS, .INT_REPAIR_STATUS] [.tb,
      .aoLatch, .whl, .repairs])
  | .throttleStep => some (Foot.event.and [.PWR_THERM_STATUS] [])
  | .ldoSoftBrownout => some (Foot.event.and [.PWR_AO_LDO] [])
  | .avsWriteAck => some (Foot.quiet.and [.PWR_AVS] [.avs])
  | .avsWriteTimeout => some (Foot.event.and [.PWR_AVS] [.avs])
  | .insertDelayEnd n => some (Foot.quiet.and [] [.port, .slp] [⟨.OCT_STATUS, n⟩, ⟨.SLP_CNT, n⟩, ⟨.SLP_STATUS, n⟩])
  | .vinWindowCrossing n _ => some (Foot.event.and [] [.port, .slp] [⟨.OCT_STATUS, n⟩, ⟨.SLP_CNT, n⟩, ⟨.SLP_MEAS, n⟩,
      ⟨.SLP_STATUS, n⟩])
  | .fastTrip n _ => some (Foot.event.and [] [.port, .slp] [⟨.OCT_STATUS, n⟩, ⟨.SLP_CNT, n⟩, ⟨.SLP_FAULT_TIME, n⟩,
      ⟨.SLP_MEAS, n⟩, ⟨.SLP_STATUS, n⟩])
  | .faultTimerExpiry n _ => some (Foot.event.and [] [.port, .slp] [⟨.OCT_STATUS, n⟩, ⟨.SLP_CNT, n⟩, ⟨.SLP_FAULT_TIME,
      n⟩, ⟨.SLP_MEAS, n⟩, ⟨.SLP_STATUS, n⟩])
  | .rampTimeout n _ => some (Foot.event.and [] [.port, .slp] [⟨.OCT_STATUS, n⟩, ⟨.SLP_CNT, n⟩, ⟨.SLP_FAULT_TIME, n⟩,
      ⟨.SLP_MEAS, n⟩, ⟨.SLP_STATUS, n⟩])
  | .gateFullyOn n _ => some (Foot.quiet.and [] [.slp] [⟨.SLP_MEAS, n⟩, ⟨.SLP_STATUS, n⟩])
  | .pgDeglitchEnd n => some (Foot.quiet.and [] [] [⟨.SLP_STATUS, n⟩])
  | .pgConditionsLost n _ => some (Foot.event.and [] [.port, .slp] [⟨.OCT_STATUS, n⟩, ⟨.SLP_MEAS, n⟩, ⟨.SLP_STATUS,
      n⟩])
  | .retryTimerExpiry n => some (Foot.quiet.and [] [.port, .slp] [⟨.OCT_STATUS, n⟩, ⟨.SLP_CNT, n⟩, ⟨.SLP_STATUS, n⟩])
  | .gateOffDelayEnd n => some (Foot.quiet.and [] [.port, .slp] [⟨.OCT_STATUS, n⟩, ⟨.SLP_STATUS, n⟩])
  | _ => none

/-- What a command of firmware, management, observation and tests can change. -/
def manageTouches : Instr → Option Foot
  | .firmwareCopyDone _ => some (Foot.event.and [.MLD_STATUS, .FWM_BOOT_STATUS, .FWM_SVN, .FWM_VERSION] [.ldr, .mgx])
  | .recoveryWrite => some (Foot.quiet.and [.FWM_MB_RSP] [.sram] [⟨.FWM_MB_CTL, 0⟩])
  | .recoveryBoot => some (Foot.quiet.and [.MLD_STATUS, .FWM_BOOT_STATUS, .FWM_SVN, .FWM_VERSION, .FWM_MB_RSP] [.ldr,
      .mgx] [⟨.FWM_MB_CTL, 0⟩])
  | .watchdogExpiry _ => some (Foot.event.and [.FWM_BOOT_STATUS, .FWM_SVN, .FWM_VERSION, .FWM_WDOG, .FWM_MB_CTL,
      .FWM_MB_REQ, .FWM_MB_RSP, .INT_EVQ_BASE] [.mgx])
  | .getVersion x => some (Foot.quiet.and [.FWM_MB_RSP] [] [⟨.FWM_MB_CTL, x⟩])
  | .getState x => some (Foot.quiet.and [.FWM_MB_RSP] [] [⟨.FWM_MB_CTL, x⟩])
  | .setLinkPolicy x _ => some (Foot.quiet.and [.FWM_MB_RSP] [.mgx] [⟨.FWM_MB_CTL, x⟩])
  | .setPowerPolicy x _ => some (Foot.quiet.and [.FWM_MB_RSP] [.mgx] [⟨.FWM_MB_CTL, x⟩])
  | .setScrubSchedule x _ => some (Foot.quiet.and [.FWM_MB_RSP] [.mgx] [⟨.FWM_MB_CTL, x⟩])
  | .setFailoverPolicy x _ => some (Foot.quiet.and [.FWM_MB_RSP] [.mgx] [⟨.FWM_MB_CTL, x⟩])
  | .flashUpdate x _ => some (Foot.quiet.and [.FWM_MB_RSP] [] [⟨.FWM_MB_CTL, x⟩])
  | .mailboxUnknownOpcode x => some (Foot.quiet.and [.FWM_MB_RSP] [] [⟨.FWM_MB_CTL, x⟩])
  | .mailboxTimeout x => some (Foot.event.and [.FWM_MB_RSP] [] [⟨.FWM_MB_CTL, x⟩])
  | .identifySwitchDevice _ => some Foot.quiet
  | .getPhysicalPortState _ _ => some Foot.event
  | .sendPpbCxlIoConfigRequest _ _ _ => some (Foot.quiet.and [] [.freeCtr])
  | .getVirtualCxlSwitchInfo _ _ => some Foot.quiet
  | .bindVppb _ => some Foot.quiet
  | .unbindVppb _ => some Foot.quiet
  | .tunnelManagementCommand _ _ _ _ => some Foot.xsend
  | .sendLdCxlIoConfigRequest _ _ _ _ _ => some Foot.xsend
  | .sendLdCxlIoMemoryRequest _ _ _ _ _ _ => some Foot.xsend
  | .getLdInfo _ _ => some Foot.xsend
  | .getLdAllocations _ _ => some Foot.xsend
  | .setLdAllocations _ => some Foot.quiet
  | .qosControl _ => some Foot.quiet
  | .getMultiHeadedInfo _ _ => some Foot.xsend
  | .getHeadInfo _ _ => some Foot.xsend
  | .initiateDynamicCapacityAdd _ _ _ _ => some Foot.xsend
  | .initiateDynamicCapacityRelease _ _ _ _ => some Foot.xsend
  | .getEventRecords _ _ => some Foot.quiet
  | .clearEventRecords _ _ _ => some (Foot.quiet.and [.INT_EVQ_IDX] [.hlog])
  | .setEventInterruptPolicy _ _ => some (Foot.quiet.and [] [.mgx])
  | .ctlRead _ _ _ => some (Foot.event.and [.GLB_PATH_CNT, .MLD_STAGE_ADDR, .DBG_TRACE_IDX, .TM_GCL_SEL, .TB_TIME_SEC,
      .TEN_OBJ_STATUS] [.freeCtr])
  | .fmUnsupportedCommand _ => some Foot.quiet
  | .mctpControl _ _ => some (Foot.quiet.and [] [.mgx])
  | .spdmGetVersion _ => some (Foot.quiet.and [] [.spdm])
  | .spdmGetCapabilities _ => some (Foot.quiet.and [] [.spdm])
  | .spdmNegotiateAlgorithms _ => some (Foot.quiet.and [] [.spdm])
  | .spdmGetDigests _ => some Foot.quiet
  | .spdmGetCertificate _ _ _ _ => some Foot.quiet
  | .spdmChallenge _ _ => some (Foot.quiet.and [] [.freeCtr])
  | .spdmGetMeasurements _ _ _ => some (Foot.quiet.and [] [.freeCtr])
  | .spdmKeyExchange _ _ => some (Foot.quiet.and [] [.freeCtr, .spdm])
  | .spdmFinish _ _ _ => some (Foot.quiet.and [] [.spdm])
  | .spdmHeartbeat _ _ => some Foot.quiet
  | .spdmKeyUpdate _ _ _ _ => some (Foot.quiet.and [] [.spdm])
  | .spdmEndSession _ _ => some (Foot.quiet.and [] [.spdm])
  | .censusTick => some (Foot.event.and [.PMU_CENSUS_STATUS] [.cen, .cskip])
  | .counterPageRead _ _ _ => some Foot.quiet
  | .testComplete _ _ => some (Foot.bobFree.and [.TST_STATUS, .TST_MISR, .KSK_CNT, .TM_SPILL_STATUS, .TM_CNT,
      .TM_SRING_CTL, .TM_SRING_STATUS, .TM_CHAN_EGR1, .TM_RXB1, .TM_QOCC, .TM_QSTAT, .TM_QSCH_ST, .TM_BND_ST,
      .TM_CH_ST, .TM_PORT_ST, .INT_LEAKED] [.sqin, .dir, .trk, .specT, .memT, .mru, .bic, .sqx, .mtt, .slot, .srx,
      .sfree, .tq, .push, .act, .buck, .bmove, .lane, .gopen, .wire, .acc, .pred, .kline])
  | .testTimeout => some (Foot.bobFree.and [.TST_STATUS, .KSK_CNT, .TM_SPILL_STATUS, .TM_CNT, .TM_SRING_CTL,
      .TM_SRING_STATUS, .TM_CHAN_EGR1, .TM_RXB1, .TM_QOCC, .TM_QSTAT, .TM_QSCH_ST, .TM_BND_ST, .TM_CH_ST, .TM_PORT_ST,
      .INT_LEAKED] [.sqin, .dir, .trk, .specT, .memT, .mru, .bic, .sqx, .mtt, .slot, .srx, .sfree, .tq, .push, .act,
      .buck, .bmove, .lane, .gopen, .wire, .acc, .pred, .kline])
  | .porstRelease _ _ => some (Foot.quiet.and [.GLB_ID, .GLB_LIFECYCLE, .MLD_SVN_MIN, .PWR_CLK_STATUS, .PWR_AVS,
      .PWR_DOM_STATUS, .FWM_SVN, .TB_ADDEND, .TB_STATUS] [.tb, .dtgt, .dwait, .avs])
  | .whorlCharacterAlignment => some (Foot.quiet.and [.TWN_WHL_STATUS] [.whl])
  | .laneSignalLost _ _ => some Foot.spnRecover
  | .laneSignalDetected _ => some Foot.witness
  | .linkCreditReturn _ _ _ => some (Foot.quiet.and [] [.port])
  | .ideKmMessage p _ => some (Foot.quiet.and [] [] [⟨.OCT_PORT_IDE, p⟩])
  | _ => none

/-! Commands that write one register. -/

/-- A write of `v` to one field: path, register, data and mask. -/
def aimField (p : Path) (f : RF) (v : Nat) : Path × Reg × Nat × Nat := (p, ⟨f.k, f.i⟩, v % 2 ^ f.w * 2 ^ f.lo, f.bits)

/-- A write of several fields of one register. -/
def aimFields (p : Path) (l : List (RF × Nat)) : Path × Reg × Nat × Nat :=
  (p, ⟨(l.headD (GLB_STRUCT_CTL_ENABLE, 0)).1.k, (l.headD (GLB_STRUCT_CTL_ENABLE, 0)).1.i⟩,
    l.foldl (fun a e => a + e.2 % 2 ^ e.1.w * 2 ^ e.1.lo) 0, l.foldl (fun a e => a + e.1.bits) 0)

/-- The one write to the control space that a command is: its path, register, data and mask. -/
def aim : Instr → Option (Path × Reg × Nat × Nat)
  | .loadFlashA path => some (aimField path MLD_CTL_CMD 1)
  | .loadFlashB path => some (aimField path MLD_CTL_CMD 2)
  | .loadStage path => some (aimField path MLD_CTL_CMD 3)
  | .abort path => some (aimField path MLD_CTL_CMD 4)
  | .stageDataAccess path data => data.map fun v => (path, ⟨.MLD_STAGE_DATA, 0⟩, v.toNat, 2 ^ 64 - 1)
  | .structEnable path => some (aimField path GLB_STRUCT_CTL_ENABLE 1)
  | .structDisable path => some (aimField path GLB_STRUCT_CTL_ENABLE 0)
  | .structCheck path => some (aimField path GLB_STRUCT_CTL_CHECK 1)
  | .portEnableWrite path p on => some (aimField path (OCT_PORT_CTL_ENABLE p) (flag on))
  | .retrain path p => some (aimField path (OCT_PORT_CTL_RETRAIN p) 1)
  | .redoEq path p => some (aimField path (OCT_PORT_CTL_REDO_EQ p) 1)
  | .portClrCnt path p => some (aimField path (OCT_PORT_CTL_CLR_CNT p) 1)
  | .planeOut path planes => some (aimField path XB_PLANE_CTL_OUT planes)
  | .planeReturn path planes => some (aimField path XB_PLANE_CTL_RETURN planes)
  | .xbClrCnt path => some (aimField path XB_CTL_CLR_CNT 1)
  | .probeStart path sq addr => some (aimField path (SQ_PROBE_ADDR_ADDR sq) (addr / 64))
  | .fmdCommit path n => some (aimField path (SQ_FMD_CTL_COMMIT n) 1)
  | .fmdDecommit path n => some (aimField path (SQ_FMD_CTL_COMMIT n) 0)
  | .sqClrCnt path sq => some (aimField path (SQ_CTL_CLR_CNT sq) 1)
  | .slotRingEnable path sl on => some (aimField path (TM_SRING_CTL_ENABLE sl) (flag on))
  | .flushQueue path q => some (aimFields path [(TM_CMD_QUEUE, q), (TM_CMD_OP, 1)])
  | .tmClrCnt path => some (aimField path TM_CTL_CLR_CNT 1)
  | .gateChange path c => some (aimField path (TM_GATE_CTL_CHANGE c) 1)
  | .todSet path ns => some (aimFields path [(TB_TOD_CTL_NS, ns), (TB_TOD_CTL_SET, 1)])
  | .todArm path ns => some (aimFields path [(TB_TOD_CTL_NS, ns), (TB_TOD_CTL_ARM, 1)])
  | .timeStepOffset path offset => some (aimField path TB_STEP_OFFSET offset.toNat)
  | .tbClrCnt path => some (aimField path TB_CTL_CLR_CNT 1)
  | .gclDataAccess path data => data.map fun v => (path, ⟨.TM_GCL_DATA, 0⟩, v.toNat, 2 ^ 64 - 1)
  | .ringEnable path r => some (aimField path (RNG_CTL_ENABLE r) 1)
  | .ringDisable path r => some (aimField path (RNG_CTL_ENABLE r) 0)
  | .ringClrCnt path r => some (aimField path (RNG_CTL_CLR_CNT r) 1)
  | .clusterOut path clusters => some (aimField path LM_CL_CTL_OUT clusters)
  | .clusterReturn path clusters => some (aimField path LM_CL_CTL_RETURN clusters)
  | .tableEnable path n on => some (aimField path (LM_TBL_CFG_ENABLE n) (flag on))
  | .lmClrCnt path => some (aimField path LM_CTL_CLR_CNT 1)
  | .predClr path => some (aimField path LM_CTL_PRED_CLR 1)
  | .kskBankOut path banks => some (aimField path KSK_BANK_CTL_OUT banks)
  | .kskBankReturn path banks => some (aimField path KSK_BANK_CTL_RETURN banks)
  | .kioskFlush path => some (aimField path KSK_CTL_FLUSH 1)
  | .kskClrCnt path => some (aimField path KSK_CTL_CLR_CNT 1)
  | .kerbWindowWrite path n word data => some (path, ⟨.KRB_WIN, n * 4 + word⟩, data.toNat, 2 ^ 64 - 1)
  | .kerbFenceGo path => some (aimField path KRB_FENCE_CTL_GO 1)
  | .sliceEnable path sl => some (aimField path (TEN_CTL_ENABLE sl) 1)
  | .sliceDisable path sl => some (aimField path (TEN_CTL_ENABLE sl) 0)
  | .violationClear path sl => some (aimField path (TEN_VIOL_VALID sl) 1)
  | .krbClrCnt path => some (aimField path KRB_CTL_CLR_CNT 1)
  | .spindleEnable path on => some (aimField path TWN_SPN_CTL_ENABLE (flag on))
  | .spindleRetrain path => some (aimField path TWN_SPN_CTL_RETRAIN 1)
  | .spindleClrCnt path => some (aimField path TWN_SPN_CTL_CLR_CNT 1)
  | .fwSend path => some (aimField path TWN_WHL_FW_CTL_SEND 1)
  | .whorlClrCnt path => some (aimField path TWN_WHL_CTL_CLR_CNT 1)
  | .fence path => some (aimField path TWN_CTL_FENCE 1)
  | .unfence path => some (aimField path TWN_CTL_UNFENCE 1)
  | .yield path => some (aimField path TWN_CTL_YIELD 1)
  | .handback path => some (aimField path TWN_CTL_HANDBACK 1)
  | .twnClrCnt path => some (aimField path TWN_CTL_CLR_CNT 1)
  | .scrubGo path mem inst => some (aimFields path [(INT_SCRUB_CTL_GO, 1), (INT_SCRUB_CTL_MEM, mem),
      (INT_SCRUB_CTL_INSTANCE, inst)])
  | .scrubAbort path => some (aimField path INT_SCRUB_CTL_ABORT 1)
  | .retireAdd path bobbin => some (aimField path INT_RETIRE_ADD_BOBBIN bobbin)
  | .writeRaw path => some (aimField path INT_TEST_CTL_WRITE_RAW 1)
  | .readRaw path => some (aimField path INT_TEST_CTL_READ_RAW 1)
  | .evqEnable path => some (aimField path INT_EVQ_BASE_EN 1)
  | .intClrCnt path => some (aimField path INT_CTL_CLR_CNT 1)
  | .powerRequest path d req => some (aimField path (PWR_DOM_CTL_REQ d) req)
  | .pwrClrCnt path => some (aimField path PWR_CTL_CLR_CNT 1)
  | .avsMarginWrite path margin => some (aimField path PWR_AVS_MARGIN margin.toNat)
  | .slotPowerReq path n on => some (aimField path (SLP_CTL_POWER_REQ n) (flag on))
  | .unlatch path n => some (aimField path (SLP_CTL_UNLATCH n) 1)
  | .slotClrCnt path n => some (aimField path (SLP_CTL_CLR_CNT n) 1)
  | .glbResetWarm path key => some (aimFields path [(GLB_RESET_CTL_WARM, 1), (GLB_RESET_CTL_KEY, key.toNat)])
  | .kick path c => some (aimField path (FWM_WDOG_KICK c) 1)
  | .coreReset path c => some (aimField path FWM_CORE_CTL_RESET (2 ^ (c : Nat)))
  | .mbWarmReset _ => some (.firmware 0, ⟨.GLB_RESET_CTL, 0⟩, 0xA501, 2 ^ 64 - 1)
  | .assertPerst path p => some (aimField path (OCT_SLOT_CTL_PERST_FORCE (p / 4)) 1)
  | .deassertPerst path p => some (aimField path (OCT_SLOT_CTL_PERST_FORCE (p / 4)) 0)
  | .resetPpb path p => some (aimField path (OCT_PORT_CTL_RETRAIN p) 1)
  | .pmuClrAll path => some (aimField path PMU_CTL_CLR_ALL 1)
  | .testGo path kind domain patterns => some (aimFields path [(TST_CMD_GO, 1), (TST_CMD_KIND, flag kind),
      (TST_CMD_DOMAIN, domain), (TST_CMD_PATTERNS, patterns.toNat)])
  | .testAbort path => some (aimField path TST_CMD_ABORT 1)
  | .chalReq path => some (aimField path DBG_UNLOCK_CHAL_REQ 1)
  | .grant path => some (aimField path DBG_UNLOCK_GRANT 1)
  | .relock path => some (aimField path DBG_UNLOCK_RELOCK 1)
  | .cmdConflictClear path => some (aimField path GLB_CMD_CONFLICT_VALID 1)
  | .pathCntClr path => some (aimField path GLB_PATH_CNT_CLR 1)
  | _ => none

/-- What such a command changes beside its register where its write is accepted: the effect of the write (Table 0.3), and
nothing that the other fields of the register would do. -/
def landed : Instr → Foot
  | .loadFlashA _ => Foot.quiet.and [.MLD_STATUS] [.ldr]
  | .loadFlashB _ => Foot.quiet.and [.MLD_STATUS] [.ldr]
  | .loadStage _ => Foot.quiet.and [.MLD_STATUS] [.ldr]
  | .abort _ => Foot.domFail.and [.GLB_STRUCT_CTL, .GLB_STRUCT_STATUS, .GLB_STRUCT_DETAIL, .GLB_STRUCT_ADDR,
      .MLD_STATUS, .PWR_DOM_CTL, .SLP_CTL, .SLP_STATUS, .SLP_CNT, .TWN_SPN_CTL, .KRB_CWIN, .KRB_HOST_SLICE,
      .TM_GATE_CTL, .TM_GATE_A, .TM_GATE_B, .RNG_CFG, .INT_SLICE_EVR, .TEN_STATUS] [.ldr, .mir, .shp, .gcl, .dtgt,
      .slp]
  | .stageDataAccess _ _ => Foot.quiet.and [.MLD_STAGE_ADDR, .MLD_STAGE_DATA] [.stage]
  | .structEnable _ => Foot.quiet.and [.GLB_STRUCT_CTL, .GLB_STRUCT_STATUS, .GLB_STRUCT_DETAIL, .GLB_STRUCT_ADDR,
      .MLD_DIGEST] [.ldr, .whl]
  | .structDisable _ => Foot.witness.and [.GLB_STRUCT_CTL, .GLB_STRUCT_STATUS, .PWR_DOM_CTL, .PWR_DOM_STATUS,
      .TWN_SPN_CTL, .OCT_STATUS, .OCT_PORT_CTL, .OCT_PORT_STATUS, .OCT_PORT_TRAIN, .OCT_PORT_IDE, .OCT_PORT_CNT0,
      .XB_STATUS, .XB_PLANE_STATUS, .KSK_BANK_STATUS, .TM_STATUS, .TM_SPILL_STATUS, .TM_CNT, .TM_SRING_CTL,
      .TM_SRING_STATUS, .TM_CHAN_EGR1, .TM_RXB1, .TM_QOCC, .TM_QSTAT, .TM_QSCH_ST, .TM_BND_ST, .TM_CH_ST, .TM_PORT_ST,
      .RNG_CTL, .RNG_STATUS, .RNG_PROG, .LM_CL_STATUS, .INT_FE_LOG, .INT_REPAIR_STATUS] [.port, .flowt, .owed,
      .feSeen, .feDue, .xdown, .xret, .specT, .mru, .slot, .srx, .pfree, .sfree, .tq, .push, .act, .buck, .bmove,
      .lane, .gopen, .wire, .acc, .pred, .kline, .kmiss, .cout, .repairs, .dtgt]
  | .structCheck _ => Foot.quiet.and [.GLB_STRUCT_CTL, .GLB_STRUCT_STATUS, .GLB_STRUCT_DETAIL, .GLB_STRUCT_ADDR,
      .MLD_DIGEST] [.ldr, .whl]
  | .portEnableWrite _ p _ => Foot.portEnable.and [] [] [⟨.OCT_CRN_CNT_RETURN, (p : Nat) / 4⟩, ⟨.OCT_PORT_CNT0, p⟩,
      ⟨.OCT_PORT_IDE, p⟩, ⟨.OCT_PORT_STATUS, p⟩, ⟨.OCT_PORT_TRAIN, p⟩]
  | .retrain _ p => Foot.quiet.and [.OCT_STATUS] [.port] [⟨.OCT_PORT_IDE, p⟩, ⟨.OCT_PORT_STATUS, p⟩, ⟨.OCT_PORT_TRAIN,
      p⟩]
  | .redoEq _ p => Foot.quiet.and [.OCT_STATUS] [.port] [⟨.OCT_PORT_IDE, p⟩, ⟨.OCT_PORT_STATUS, p⟩, ⟨.OCT_PORT_TRAIN,
      p⟩]
  | .portClrCnt _ p => Foot.quiet.and [] [] [⟨.OCT_PORT_CNT0, p⟩, ⟨.OCT_PORT_CNT1, p⟩]
  | .planeOut _ _ => Foot.portEnable.and [.TWN_COPY, .TWN_SPN_STATUS, .TWN_SPN_TXSEQ, .OCT_PORT_CTL, .OCT_PORT_STATUS,
      .OCT_PORT_TRAIN, .OCT_PORT_IDE, .OCT_PORT_CNT0, .OCT_CRN_CNT_XFER, .OCT_CRN_CNT_RETURN, .XB_STATUS,
      .XB_PLANE_STATUS, .INT_FE_LOG] [.flowt, .feSeen, .feDue, .pagent, .reel, .spnWait, .spn]
  | .planeReturn _ _ => Foot.portEnable.and [.TWN_COPY, .TWN_SPN_STATUS, .TWN_SPN_TXSEQ, .OCT_PORT_CTL,
      .OCT_PORT_STATUS, .OCT_PORT_TRAIN, .OCT_PORT_IDE, .OCT_PORT_CNT0, .OCT_CRN_CNT_XFER, .OCT_CRN_CNT_RETURN,
      .XB_STATUS, .XB_PLANE_STATUS, .INT_FE_LOG] [.flowt, .feSeen, .feDue, .xret, .pagent, .reel, .spnWait, .spn]
  | .xbClrCnt _ => Foot.quiet.and [.XB_MIR_CNT, .XB_CNT] []
  | .probeStart _ sq _ => Foot.quiet.and [] [.sqx] [⟨.SQ_PROBE_RESULT, sq⟩]
  | .fmdCommit _ n => Foot.quiet.and [] [] [⟨.SQ_FMD_CTL, n⟩]
  | .fmdDecommit _ n => Foot.quiet.and [] [] [⟨.SQ_FMD_CTL, n⟩]
  | .sqClrCnt _ sq => Foot.quiet.and [] [] ((List.range 32).map fun c => ⟨.SQ_CNT, sq * 32 + c⟩)
  | .slotRingEnable _ sl _ => Foot.quiet.and [] [.srx] [⟨.TM_SRING_STATUS, sl⟩]
  | .flushQueue _ q => Foot.bobFree.and [.TM_SPILL_STATUS, .TM_CMD_STATUS, .TM_CNT, .TM_QOCC, .TM_BND_ST, .TM_CH_ST]
      [.sfree, .tq, .act, .bmove] [⟨.TM_QSCH_ST, q⟩]
  | .tmClrCnt _ => Foot.quiet.and [.TM_CNT, .TM_SRING_CNT, .TM_CH_PKTS, .TM_CH_BYTES, .TM_GATE_CNT] [.srx, .slotTmo]
  | .gateChange _ c => Foot.quiet.and [] [] [⟨.TM_GATE_CTL, c⟩, ⟨.TM_GATE_SWT, c⟩]
  | .todSet _ _ => Foot.event.and [.TM_QSCH_ST, .TM_GATE_ST, .TB_STATUS] [.tb, .tmSub, .gopen, .wire]
  | .todArm _ _ => Foot.quiet
  | .timeStepOffset _ _ => Foot.event.and [.TM_QSCH_ST, .TM_GATE_ST] [.tb, .tmSub, .gopen, .wire]
  | .tbClrCnt _ => Foot.quiet.and [.TB_ADDEND, .TB_CNT] []
  | .gclDataAccess _ _ => Foot.quiet.and [.TM_GCL_SEL] [.gcl]
  | .ringEnable _ r => Foot.quiet.and [] [.ring] [⟨.RNG_IDX, r⟩, ⟨.RNG_PROG, r⟩, ⟨.RNG_STATUS, r⟩]
  | .ringDisable _ r => Foot.quiet.and [] [.ring] [⟨.RNG_CNT, r⟩, ⟨.RNG_CTL, r⟩, ⟨.RNG_PROG, r⟩, ⟨.RNG_STATUS, r⟩]
  | .ringClrCnt _ r => Foot.quiet.and [] [] [⟨.RNG_CNT, r⟩]
  | .clusterOut _ _ => Foot.quiet.and [.LM_CL_STATUS] []
  | .clusterReturn _ _ => Foot.quiet.and [.LM_CL_STATUS] []
  | .tableEnable _ _ _ => Foot.quiet
  | .lmClrCnt _ => Foot.quiet.and [.LM_CNT] [.lmTmo, .lmRem]
  | .predClr _ => Foot.quiet.and [] [.pred]
  | .kskBankOut _ _ => Foot.xsend.and [.KSK_BANK_STATUS, .KSK_CNT] [.acc, .kline]
  | .kskBankReturn _ _ => Foot.xsend.and [.KSK_BANK_STATUS, .KSK_CNT] [.acc, .kline]
  | .kioskFlush _ => Foot.xsend.and [.KSK_STATUS, .KSK_CNT] [.acc, .kline]
  | .kskClrCnt _ => Foot.quiet.and [.KSK_CNT] []
  | .kerbWindowWrite _ _ _ _ => Foot.quiet
  | .kerbFenceGo _ => Foot.quiet.and [.KRB_FENCE_STATUS] []
  | .sliceEnable _ sl => Foot.bobFree.and [.TM_SPILL_STATUS, .TM_CMD_STATUS, .TM_CNT, .TM_SRING_CNT, .TM_QOCC,
      .TM_QSCH_ST, .TM_BND_ST, .TM_CH_ST, .TM_CH_PKTS, .TM_CH_BYTES, .TM_GATE_CNT] [.srx, .slotTmo, .sfree, .tq, .act,
      .bmove] [⟨.TEN_STATUS, sl⟩, ⟨.TM_SRING_CTL, sl⟩, ⟨.TM_SRING_STATUS, sl⟩]
  | .sliceDisable _ sl => Foot.quiet.and [.RNG_CTL, .RNG_STATUS, .RNG_PROG, .RNG_CNT] [.ring] [⟨.TEN_STATUS, sl⟩,
      ⟨.TM_SRING_CTL, sl⟩]
  | .violationClear _ sl => Foot.quiet.and [] [] [⟨.TEN_VIOL, sl⟩, ⟨.TEN_VIOL_ADDR, sl⟩, ⟨.TEN_VIOL_COUNT, sl⟩,
      ⟨.TEN_VIOL_TIME, sl⟩]
  | .krbClrCnt _ => Foot.quiet.and [.KRB_FENCE_CNT, .KRB_CNT] []
  | .spindleEnable _ _ => Foot.witness
  | .spindleRetrain _ => Foot.spnRecover
  | .spindleClrCnt _ => Foot.quiet.and [.TWN_SPN_STATUS, .TWN_SPN_FAIL, .TWN_SPN_CNT, .TWN_SPN_LANE] [.spn]
  | .fwSend _ => Foot.quiet.and [.TWN_WHL_FW_CTL] [.whl]
  | .whorlClrCnt _ => Foot.quiet.and [.TWN_WHL_CNT] []
  | .fence _ => Foot.portEnable.and [.TWN_COPY, .TWN_SPN_STATUS, .TWN_SPN_TXSEQ, .OCT_PORT_CTL, .OCT_PORT_STATUS,
      .OCT_PORT_TRAIN, .OCT_PORT_IDE, .OCT_PORT_CNT0, .OCT_CRN_CNT_XFER, .OCT_CRN_CNT_RETURN] [.pagent, .reel,
      .spnWait, .spn]
  | .unfence _ => Foot.quiet.and [.TWN_ROLE] [.twx]
  | .yield _ => Foot.event.and [.TWN_ROLE, .TWN_CNT] [.sqx, .twx]
  | .handback _ => Foot.quiet.and [] [.twx]
  | .twnClrCnt _ => Foot.quiet.and [.TWN_CNT] []
  | .scrubGo _ _ _ => Foot.quiet.and [.INT_SCRUB_STATUS] [.scrub]
  | .scrubAbort _ => Foot.quiet.and [] [.scrub]
  | .retireAdd _ _ => Foot.bobFree
  | .writeRaw _ => Foot.quiet.and [.INT_TEST_CTL] [.sram, .dir, .kline, .raw]
  | .readRaw _ => Foot.quiet.and [.INT_TEST_CTL, .INT_TEST_META, .INT_TEST_CHECK, .INT_TEST_DATA] [.freeCtr]
  | .evqEnable _ => Foot.quiet.and [.INT_EVQ_IDX, .INT_EVQ_CNT] [.hold, .evLost, .sram]
  | .intClrCnt _ => Foot.quiet.and [.INT_EVQ_CNT, .INT_CNT_CE, .INT_CNT_POISON, .INT_CNT_UE, .INT_CNT_PIN] []
  | .powerRequest _ _ _ => Foot.domFail.and [.PWR_DOM_CTL, .INT_REPAIR_STATUS] [.repairs, .dtgt]
  | .pwrClrCnt _ => Foot.quiet.and [.PWR_DOM_STATUS] []
  | .avsMarginWrite _ _ => Foot.quiet.and [] [.avs]
  | .slotPowerReq _ n _ => Foot.event.and [] [.port, .slp] [⟨.OCT_STATUS, n⟩, ⟨.SLP_CNT, n⟩, ⟨.SLP_STATUS, n⟩]
  | .unlatch _ n => Foot.event.and [] [.port, .slp] [⟨.OCT_STATUS, n⟩, ⟨.SLP_CNT, n⟩, ⟨.SLP_STATUS, n⟩]
  | .slotClrCnt _ n => Foot.event.and [] [.port, .slp] [⟨.OCT_STATUS, n⟩, ⟨.SLP_CNT, n⟩, ⟨.SLP_STATUS, n⟩]
  | .glbResetWarm _ _ => Foot.quiet.and [] [.mgx]
  | .kick _ _ => Foot.quiet.and [] [.mgx]
  | .coreReset _ _ => Foot.quiet
  | .mbWarmReset x => Foot.quiet.and [.FWM_MB_RSP] [.mgx] [⟨.FWM_MB_CTL, x⟩]
  | .assertPerst _ p => Foot.quiet.and [] [] [⟨.OCT_STATUS, (p : Nat) / 4⟩]
  | .deassertPerst _ p => Foot.quiet.and [] [] [⟨.OCT_STATUS, (p : Nat) / 4⟩]
  | .resetPpb _ p => Foot.quiet.and [.OCT_STATUS] [.port] [⟨.OCT_PORT_IDE, p⟩, ⟨.OCT_PORT_STATUS, p⟩,
      ⟨.OCT_PORT_TRAIN, p⟩]
  | .pmuClrAll _ => Foot.quiet.and [.PMU_CENSUS_STATUS, .PMU_BANK_OVF, .PMU_CNT] []
  | .testGo _ _ _ _ => Foot.quiet.and [.TST_STATUS, .TST_MISR, .TST_EXPECT] [.tst]
  | .testAbort _ => Foot.bobFree.and [.TST_STATUS, .KSK_CNT, .TM_SPILL_STATUS, .TM_CNT, .TM_SRING_CTL,
      .TM_SRING_STATUS, .TM_CHAN_EGR1, .TM_RXB1, .TM_QOCC, .TM_QSTAT, .TM_QSCH_ST, .TM_BND_ST, .TM_CH_ST, .TM_PORT_ST,
      .INT_LEAKED] [.sqin, .dir, .trk, .specT, .memT, .mru, .bic, .sqx, .mtt, .slot, .srx, .sfree, .tq, .push, .act,
      .buck, .bmove, .lane, .gopen, .wire, .acc, .pred, .kline]
  | .chalReq _ => Foot.quiet.and [.DBG_CHAL] [.freeCtr]
  | .grant _ => Foot.event.and [.GLB_LIFECYCLE] []
  | .relock _ => Foot.event.and [.GLB_LIFECYCLE] []
  | .cmdConflictClear _ => Foot.quiet.and [.GLB_CMD_CONFLICT, .GLB_CMD_CONFLICT_ADDR, .GLB_CMD_CONFLICT_DATA,
      .GLB_CMD_CONFLICT_MASK, .GLB_CMD_CONFLICT_TIME] []
  | .pathCntClr _ => Foot.quiet.and [.GLB_PATH_CNT] []
  | _ => Foot.quiet

/-- What an accepted write of a register can change beside it, whichever of its fields it covers. -/
def writeEffect (r : Reg) : Foot :=
  let i := r.i
  match r.k with
  | .GLB_STRUCT_CTL => Foot.witness.and [.GLB_STRUCT_STATUS, .GLB_STRUCT_DETAIL, .GLB_STRUCT_ADDR, .MLD_DIGEST,
      .PWR_DOM_CTL, .PWR_DOM_STATUS, .TWN_SPN_CTL, .OCT_STATUS, .OCT_PORT_CTL, .OCT_PORT_STATUS, .OCT_PORT_TRAIN,
      .OCT_PORT_IDE, .OCT_PORT_CNT0, .XB_STATUS, .XB_PLANE_STATUS, .KSK_BANK_STATUS, .TM_STATUS, .TM_SPILL_STATUS,
      .TM_CNT, .TM_SRING_CTL, .TM_SRING_STATUS, .TM_CHAN_EGR1, .TM_RXB1, .TM_QOCC, .TM_QSTAT, .TM_QSCH_ST, .TM_BND_ST,
      .TM_CH_ST, .TM_PORT_ST, .RNG_CTL, .RNG_STATUS, .RNG_PROG, .LM_CL_STATUS, .INT_FE_LOG, .INT_REPAIR_STATUS] [.ldr,
      .port, .flowt, .owed, .feSeen, .feDue, .xdown, .xret, .specT, .mru, .slot, .srx, .pfree, .sfree, .tq, .push,
      .act, .buck, .bmove, .lane, .gopen, .wire, .acc, .pred, .kline, .kmiss, .whl, .cout, .repairs, .dtgt]
  | .GLB_RESET_CTL => Foot.quiet.and [] [.mgx]
  | .GLB_CMD_CONFLICT => Foot.quiet.and [.GLB_CMD_CONFLICT_ADDR, .GLB_CMD_CONFLICT_DATA, .GLB_CMD_CONFLICT_MASK,
      .GLB_CMD_CONFLICT_TIME] []
  | .GLB_PATH_CNT => Foot.quiet
  | .MLD_CTL => Foot.domFail.and [.GLB_STRUCT_CTL, .GLB_STRUCT_STATUS, .GLB_STRUCT_DETAIL, .GLB_STRUCT_ADDR,
      .MLD_STATUS, .PWR_DOM_CTL, .SLP_CTL, .SLP_STATUS, .SLP_CNT, .TWN_SPN_CTL, .KRB_CWIN, .KRB_HOST_SLICE,
      .TM_GATE_CTL, .TM_GATE_A, .TM_GATE_B, .RNG_CFG, .INT_SLICE_EVR, .TEN_STATUS] [.ldr, .mir, .shp, .gcl, .dtgt,
      .slp]
  | .MLD_STAGE_DATA => Foot.quiet.and [.MLD_STAGE_ADDR] [.stage]
  | .PWR_CTL => Foot.quiet.and [.PWR_DOM_STATUS] []
  | .PWR_DOM_CTL => Foot.domFail.and [.PWR_DOM_CTL, .INT_REPAIR_STATUS] [.repairs, .dtgt]
  | .PWR_AVS => Foot.quiet.and [] [.avs]
  | .TWN_SPN_CTL => Foot.spnRecover
  | .TWN_WHL_CTL => Foot.quiet.and [.TWN_WHL_CNT] []
  | .TWN_WHL_FW_CTL => Foot.quiet.and [] [.whl]
  | .TWN_CFG => Foot.witness.and [.TWN_WHL_STATUS] []
  | .TWN_CTL => Foot.portEnable.and [.TWN_COPY, .TWN_SPN_STATUS, .TWN_SPN_TXSEQ, .OCT_PORT_CTL, .OCT_PORT_STATUS,
      .OCT_PORT_TRAIN, .OCT_PORT_IDE, .OCT_PORT_CNT0, .OCT_CRN_CNT_XFER, .OCT_CRN_CNT_RETURN] [.pagent, .reel,
      .spnWait, .spn]
  | .PMU_CTL => Foot.quiet.and [.PMU_CENSUS_STATUS, .PMU_BANK_OVF, .PMU_CNT] []
  | .PMU_BANK_CFG => Foot.quiet.and [.PMU_CFG] []
  | .PMU_CENSUS_CTL => Foot.quiet.and [] [.cen, .cskip]
  | .TST_CMD => Foot.bobFree.and [.TST_STATUS, .TST_MISR, .TST_EXPECT, .KSK_CNT, .TM_SPILL_STATUS, .TM_CNT,
      .TM_SRING_CTL, .TM_SRING_STATUS, .TM_CHAN_EGR1, .TM_RXB1, .TM_QOCC, .TM_QSTAT, .TM_QSCH_ST, .TM_BND_ST,
      .TM_CH_ST, .TM_PORT_ST, .INT_LEAKED] [.sqin, .dir, .trk, .specT, .memT, .mru, .bic, .sqx, .mtt, .slot, .srx,
      .sfree, .tq, .push, .act, .buck, .bmove, .lane, .gopen, .wire, .acc, .pred, .kline, .tst]
  | .DBG_UNLOCK => Foot.event.and [.GLB_LIFECYCLE, .DBG_CHAL] [.freeCtr]
  | .FWM_WDOG => Foot.quiet.and [] [.mgx]
  | .FWM_CORE_CTL => Foot.quiet
  | .FWM_MB_CTL => Foot.quiet.and [.FWM_MB_RSP] []
  | .OCT_PORT_CTL => Foot.portEnable.and [] [] [⟨.OCT_CRN_CNT_RETURN, i / 4⟩, ⟨.OCT_PORT_CNT0, i⟩,
      ⟨.OCT_PORT_CNT1, i⟩, ⟨.OCT_PORT_IDE, i⟩, ⟨.OCT_PORT_STATUS, i⟩, ⟨.OCT_PORT_TRAIN, i⟩]
  | .OCT_SLOT_CTL => Foot.quiet.and [] [] [⟨.OCT_STATUS, i⟩]
  | .OCT_CRN_CTL => Foot.quiet.and [] [] [⟨.OCT_CRN_CNT_ABSORBED, i⟩, ⟨.OCT_CRN_CNT_BOUNCE, i⟩, ⟨.OCT_CRN_CNT_FWD, i⟩,
      ⟨.OCT_CRN_CNT_RETURN, i⟩, ⟨.OCT_CRN_CNT_XFER, i⟩]
  | .XB_PLANE_CTL => Foot.portEnable.and [.TWN_COPY, .TWN_SPN_STATUS, .TWN_SPN_TXSEQ, .OCT_PORT_CTL, .OCT_PORT_STATUS,
      .OCT_PORT_TRAIN, .OCT_PORT_IDE, .OCT_PORT_CNT0, .OCT_CRN_CNT_XFER, .OCT_CRN_CNT_RETURN, .XB_STATUS,
      .XB_PLANE_STATUS, .INT_FE_LOG] [.flowt, .feSeen, .feDue, .xret, .pagent, .reel, .spnWait, .spn]
  | .XB_CTL => Foot.quiet.and [.XB_MIR_CNT, .XB_CNT] []
  | .SQ_CTL => Foot.quiet.and [.SQ_CNT] []
  | .SQ_PROBE_ADDR => Foot.quiet.and [] [.sqx] [⟨.SQ_PROBE_RESULT, i⟩]
  | .SQ_FMD_CTL => Foot.quiet
  | .KSK_CTL => Foot.xsend.and [.KSK_STATUS, .KSK_CNT] [.acc, .kline]
  | .KSK_BANK_CTL => Foot.xsend.and [.KSK_BANK_STATUS, .KSK_CNT] [.acc, .kline]
  | .KRB_FENCE_CTL => Foot.quiet.and [.KRB_FENCE_STATUS] []
  | .KRB_CTL => Foot.quiet.and [.KRB_FENCE_CNT, .KRB_CNT] []
  | .TEN_CTL => Foot.bobFree.and [.TM_SPILL_STATUS, .TM_CMD_STATUS, .TM_CNT, .TM_SRING_CNT, .TM_QOCC, .TM_QSCH_ST,
      .TM_BND_ST, .TM_CH_ST, .TM_CH_PKTS, .TM_CH_BYTES, .TM_GATE_CNT, .RNG_CTL, .RNG_STATUS, .RNG_PROG] [.srx,
      .slotTmo, .sfree, .tq, .act, .bmove] [⟨.TEN_STATUS, i⟩, ⟨.TM_SRING_CTL, i⟩, ⟨.TM_SRING_STATUS, i⟩]
  | .TEN_VIOL => Foot.quiet.and [] [] [⟨.TEN_VIOL_ADDR, i⟩, ⟨.TEN_VIOL_COUNT, i⟩, ⟨.TEN_VIOL_TIME, i⟩]
  | .TEN_OBJ_SEL => Foot.quiet.and [] [] [⟨.TEN_OBJ_STATUS, i⟩]
  | .TM_CTL => Foot.quiet.and [.TM_CNT, .TM_SRING_CNT, .TM_CH_PKTS, .TM_CH_BYTES, .TM_GATE_CNT] [.srx, .slotTmo]
  | .TM_SRING_CTL => Foot.quiet.and [] [.srx] [⟨.TM_SRING_STATUS, i⟩]
  | .TM_CMD => Foot.bobFree.and [.TM_SPILL_STATUS, .TM_CMD_STATUS, .TM_CNT, .TM_QOCC, .TM_QSCH_ST, .TM_BND_ST,
      .TM_CH_ST] [.sfree, .tq, .act, .bmove]
  | .TM_BND_CFG => Foot.quiet.and [] [.bmove]
  | .TM_GATE_CTL => Foot.quiet.and [] [] [⟨.TM_GATE_SWT, i⟩]
  | .TM_GCL_DATA => Foot.quiet.and [.TM_GCL_SEL] [.gcl]
  | .TB_CTL => Foot.quiet.and [.TB_ADDEND, .TB_CNT] [.tb]
  | .TB_TOD_CTL => Foot.event.and [.TM_QSCH_ST, .TM_GATE_ST, .TB_STATUS] [.tb, .tmSub, .gopen, .wire]
  | .TB_STEP => Foot.event.and [.TM_QSCH_ST, .TM_GATE_ST] [.tb, .tmSub, .gopen, .wire]
  | .RNG_CTL => Foot.quiet.and [] [.ring] [⟨.RNG_CNT, i⟩, ⟨.RNG_IDX, i⟩, ⟨.RNG_PROG, i⟩, ⟨.RNG_STATUS, i⟩]
  | .RNG_CFG => Foot.quiet.and [] [] [⟨.RNG_CNT, i⟩, ⟨.RNG_STATUS, i⟩]
  | .LM_CTL => Foot.quiet.and [.LM_CNT] [.pred, .lmTmo, .lmRem]
  | .LM_CL_CTL => Foot.quiet.and [.LM_CL_STATUS] []
  | .INT_CTL => Foot.quiet.and [.INT_EVQ_CNT, .INT_CNT_CE, .INT_CNT_POISON, .INT_CNT_UE, .INT_CNT_PIN] []
  | .INT_SCRUB_CTL => Foot.quiet.and [.INT_SCRUB_STATUS] [.scrub]
  | .INT_TEST_CTL => Foot.quiet.and [.INT_TEST_META, .INT_TEST_CHECK, .INT_TEST_DATA] [.freeCtr, .sram, .dir, .kline,
      .raw]
  | .INT_RETIRE_ADD => Foot.bobFree
  | .INT_EVQ_BASE => Foot.quiet.and [.INT_EVQ_IDX, .INT_EVQ_CNT] [.hold, .evLost, .sram]
  | k => if k.desc.blk = .SLP then Foot.event.and [] [.port, .slp] [⟨.OCT_STATUS, i⟩, ⟨.SLP_CNT, i⟩, ⟨.SLP_STATUS, i⟩]
      else Foot.quiet

/-- What a refused write changes (R424, R459): it is traced, counted and told; a refusal of the structural enable
shows its reason; a foreign ring is told to its tenant. -/
def Foot.refused : Foot := Foot.event.and [.GLB_STRUCT_STATUS, .GLB_STRUCT_DETAIL, .GLB_STRUCT_ADDR, .GLB_PATH_CNT,
  .DBG_TRACE_STATUS] [.dbfNext, .trc, .trcNext]

/-- What a read of a data register changes: the register it advances, and what a refused access leaves (R457). -/
def readTouches : Instr → Option Foot
  | .stageDataAccess _ none => some (Foot.event.and [.GLB_PATH_CNT, .MLD_STAGE_ADDR] [])
  | .gclDataAccess _ none => some (Foot.event.and [.GLB_PATH_CNT, .TM_GCL_SEL] [])
  | .tbTimeNsRead _ => some (Foot.event.and [.GLB_PATH_CNT, .TB_TIME_SEC] [])
  | .traceDataRead _ => some (Foot.event.and [.GLB_PATH_CNT, .DBG_TRACE_IDX] [])
  | .apertureAccess _ sl _ none => some (Foot.event.and [.GLB_PATH_CNT] [] [⟨.TEN_OBJ_STATUS, sl⟩])
  | _ => none

/-- The registers that hold fields of an image (Table 2.2), that name it (R25, R45), or that show the load. -/
def imageKinds : List RegKind := [.OCT_PORT_CFG, .XB_CLASS_CFG, .XB_MIR_CFG, .XB_EXPRESS, .SQ_HOME_SEL, .SQ_CD_CFG,
  .SQ_CD_AGENTS, .SQ_RANGE_CFG, .SQ_RANGE_BASE, .TM_CARVE, .TM_SPILL_BASE, .TM_CH_CFG, .TM_BND_CFG, .TM_QSCH, .TM_QPOL,
  .TEN_STATUS, .TEN_CTL, .RNG_CFG, .RNG_IOVA, .LM_TBL_CFG, .LM_TBL_BASE, .LM_TBL_SIZE, .KRB_WIN, .PWR_DOM_CTL, .SLP_CFG,
  .SLP_CTL, .SLP_VWIN, .SLP_TMR, .SLP_LIM, .TWN_CFG, .MLD_SVN, .MLD_BUILD_ID, .MLD_DIGEST, .MLD_STATUS,
  .GLB_STRUCT_STATUS]

end Sys2Proof.Machine
end

