-- ==== Sys2Proof/WellFormed.lean ====
section
/-!
DEFINITION. Well-formed commands: every operand lies within the width that the spec gives it. An operand of a Fin or BitVec
type needs no check.
-/
namespace Sys2Proof

/-- A fabric address, 52 bits (R119). -/
def addrWf (a : Nat) : Bool := a < 2 ^ 52

/-- A line address: 64-byte aligned. -/
def lineWf (a : Nat) : Bool := addrWf a && a % 64 = 0

/-- The data of one message: at most 4 KiB. -/
def dataWf (l : List Word) : Bool := l.length ≤ 512

/-- A path names a core, virtual switch, slice or source code that exists (Tables 17.7 and 19.2). -/
def Path.wf : Path → Bool
  | .firmware c => c < 4
  | .loader k => k < 8
  | .fmVdm v | .bar0 v => v < 64
  | .tenantPage v sl => v < 64 && sl < 256
  | .bmc | .debug | .partner => true

/-- A control-space write: a byte address of the 64 MiB control space and a width of 1, 2, 4 or 8 bytes (R5, R7). -/
def CtlWrite.wf (w : CtlWrite) : Bool :=
  w.path.wf && w.addr < 2 ^ 26 && (w.width = 1 || w.width = 2 || w.width = 4 || w.width = 8)

/-- A message: its class, endpoints, agent, address and data (Tables 4.1 and 4.2). -/
def Msg.wf (q : Msg) : Bool :=
  q.cls < 8 && q.inp < 168 && q.out < 168 && (q.agent ≤ 64 || q.agent = 0xFF) && addrWf q.addr && dataWf q.data

/-- A waiting request carries a message. -/
def waitingWf (w : Machine.Waiting) : Bool := w.msg.wf

/-- An image is a sequence of bytes. -/
def Image.wf (i : Image) : Bool := i.bytes.all (· < 256)

/-- A Spindle data packet: kind, sequence number, virtual channel and the two endpoints (R310, Table 12.3). -/
def Packet.wf (pk : Packet) : Bool :=
  pk.kind < 16 && pk.seq < 2 ^ 16 && pk.vc < 8 && pk.src < 2 ^ 8 && pk.dest < 2 ^ 8 && pk.msg.wf

/-- A heartbeat's fields within their widths (Table 12.7). -/
def Heartbeat.wf (h : Heartbeat) : Bool :=
  h.seq < 2 ^ 16 && h.echo < 2 ^ 16 && h.flags < 2 ^ 8 && h.claim < 2 ^ 8 && h.digest8 < 2 ^ 64 &&
    h.txTime < 2 ^ 64 && h.rxTime < 2 ^ 64

/-- A CXL.io act: its message, its vPPB number, its decoder, or its MSI-X vector (R63, R66, R67, Table 9.2). -/
def IoReq.wf : IoReq → Bool
  | .msg q => q.wf
  | .window n _ _ => n < 256
  | .decoder n _ _ _ _ l _ _ => n < 24 && l.length ≤ 16
  | .decoderRead n => n < 24
  | .config v _ => v < 256
  | .msix vec word _ => vec < 2048 && word < 2

/-- A command is well-formed. -/
def Instr.wf : Instr → Bool
  | .coldReset _ _ _ => true
  | .warmReset _ _ => true
  | .perstAssert _ => true
  | .perstDeassert _ => true
  | .presenceDebounced _ _ => true
  | .twinIdChange _ => true
  | .partnerAliveChange _ => true
  | .ppsEdge _ => true
  | .ppsLost => true
  | .registerWrite writes => writes.all CtlWrite.wf
  | .loadFlashA path => path.wf
  | .loadFlashB path => path.wf
  | .loadStage path => path.wf
  | .abort path => path.wf
  | .imageLoadDone flash => flash.wf
  | .stageDataAccess path _ => path.wf
  | .structEnable path => path.wf
  | .structDisable path => path.wf
  | .structCheck path => path.wf
  | .structCheckDone => true
  | .phase11ListenEnd => true
  | .applyingDone => true
  | .disablingDone => true
  | .portEnableWrite path _ _ => path.wf
  | .retrain path _ => path.wf
  | .redoEq path _ => path.wf
  | .portClrCnt path _ => path.wf
  | .trainingL0 _ _ => true
  | .trainTimeout _ => true
  | .xrateEqTimeout _ => true
  | .portRecoveryDone _ _ => true
  | .linkDown _ => true
  | .ideSecure _ _ _ => true
  | .ideTimeout _ => true
  | .ideFail _ => true
  | .flushComplete _ => true
  | .flushTimeout _ => true
  | .slotPerstRelease _ => true
  | .powerControllerWrite _ _ _ => true
  | .hostMemRequest _ q => q.wf
  | .hostIoRequest _ r => r.wf
  | .edgeMessage _ _ _ q => q.wf
  | .cxlCacheMessage _ q => q.wf
  | .biconflict _ addr _ => addrWf addr
  | .messageDispatch _ _ q => q.all Msg.wf
  | .headAdmit _ _ => true
  | .cellLinked _ _ => true
  | .outputSend _ => true
  | .planePathCheckDone _ => true
  | .planePathCheckTimeout _ => true
  | .planeError _ _ => true
  | .planeWatchdog _ => true
  | .planeDrained _ => true
  | .planeDrainTimeout _ => true
  | .planeOut path _ => path.wf
  | .planeReturn path _ => path.wf
  | .xbClrCnt path => path.wf
  | .ageExpiry _ _ => true
  | .flushedNotice _ q => q.wf
  | .squareLookup _ _ _ => true
  | .lookupResult _ _ _ => true
  | .specDataArrival _ _ data _ => dataWf data
  | .memoryReadData _ tag data _ => tag < 2 ^ 32 && dataWf data
  | .memoryWriteComplete _ tag => tag < 2 ^ 32
  | .writeback _ q _ => q.wf
  | .birsp _ _ line _ => lineWf line
  | .snoopTimeout _ _ _ => true
  | .memTimeout _ _ tag => tag < 2 ^ 32
  | .mirrorCommit _ => true
  | .commitSend _ => true
  | .releaseSend _ => true
  | .retryInterval _ _ => true
  | .retryAgeLimit _ _ => true
  | .evictWindowEnd _ => true
  | .probeStart path _ addr => path.wf && addrWf addr
  | .probeDone _ => true
  | .fmdCommit path _ => path.wf
  | .fmdDecommit path _ => path.wf
  | .sqClrCnt path _ => path.wf
  | .cornerFwd _ _ w _ => waitingWf w
  | .cornerWriteback _ q => q.wf
  | .cornerBirsp _ line _ => lineWf line
  | .cornerSnoopTimeout _ line => lineWf line
  | .cornerMemoryWriteDone _ line => lineWf line
  | .cornerMemTimeout _ line => lineWf line
  | .cornerAck _ line => lineWf line
  | .handover _ _ line _ _ _ _ => lineWf line
  | .ret _ _ line _ _ _ head _ _ _ => lineWf line && head.all waitingWf
  | .waiter _ w => waitingWf w
  | .credit _ _ _ _ => true
  | .purgeWalkDone _ => true
  | .slotLineWrite _ dpa _ _ data _ => addrWf dpa && dataWf data
  | .plazaLdRead _ dpa _ _ => addrWf dpa
  | .enqueue _ => true
  | .slotFillTimeout _ _ => true
  | .slotHeadTimeout _ => true
  | .slotReturn _ => true
  | .returnRecordTimeout _ => true
  | .slotRingEnable path _ _ => path.wf
  | .flushQueue path _ => path.wf
  | .flushQueueDone => true
  | .tmClrCnt path => path.wf
  | .meterSweep _ => true
  | .egressPush _ _ _ => true
  | .select _ => true
  | .shaperRefill _ _ => true
  | .drrSweep _ => true
  | .gateEntryBoundary _ => true
  | .gateStart _ => true
  | .gateChange path _ => path.wf
  | .gateSwitch _ => true
  | .todSet path _ => path.wf
  | .todArm path _ => path.wf
  | .timeStepOffset path _ => path.wf
  | .tbClrCnt path => path.wf
  | .tbTimeNsRead path => path.wf
  | .gclDataAccess path _ => path.wf
  | .doorbellProducer _ _ _ _ => true
  | .doorbellConsumer _ _ _ _ => true
  | .fetchIssue _ => true
  | .fetchCompletion _ _ _ _ data => dataWf data
  | .fetchTimeout _ _ => true
  | .ringDispatch => true
  | .jobComplete _ => true
  | .irqModerationTimeout _ => true
  | .ringEnable path _ => path.wf
  | .ringDisable path _ => path.wf
  | .ringClrCnt path _ => path.wf
  | .ringStopped _ => true
  | .ringStopTimeout _ => true
  | .sfConfigWrite _ _ _ _ => true
  | .functionLevelReset _ => true
  | .loomAccessResponse _ _ => true
  | .loomAccessTimeout _ => true
  | .clusterOut path _ => path.wf
  | .clusterDrained _ => true
  | .clusterReturn path _ => path.wf
  | .tableEnable path _ _ => path.wf
  | .lmClrCnt path => path.wf
  | .predClr path => path.wf
  | .kioskFillData _ q => q.wf
  | .kioskSnoop _ q _ => q.wf
  | .kioskSteeredFill _ q => q.wf
  | .kskBankOut path _ => path.wf
  | .kskBankDrained _ => true
  | .kskBankReturn path _ => path.wf
  | .kioskFlush path => path.wf
  | .kioskFlushDone => true
  | .kskClrCnt path => path.wf
  | .kerbWindowWrite path _ _ _ => path.wf
  | .kerbFenceGo path => path.wf
  | .kerbFenceCheckDone => true
  | .kerbFenceDrained => true
  | .kerbFenceTimeout => true
  | .sliceEnable path _ => path.wf
  | .sliceDisable path _ => path.wf
  | .sliceDrained _ => true
  | .sliceStopTimeout _ => true
  | .violationClear path _ => path.wf
  | .apertureAccess path _ _ _ => path.wf
  | .debugFabricAccess addr _ data => addrWf addr && dataWf data
  | .krbClrCnt path => path.wf
  | .spindleEnable path _ => path.wf
  | .spindleRetrain path => path.wf
  | .spindleClrCnt path => path.wf
  | .spindleTrained => true
  | .spindleTrainTimeout => true
  | .spindleRecoveryDone => true
  | .spindleRecoveryTimeout => true
  | .spindleSilence => true
  | .alignmentLost _ => true
  | .laneWindowEnd _ _ _ => true
  | .statusBlock _ _ _ _ => true
  | .replayBlock _ _ => true
  | .spareBlock _ _ _ _ => true
  | .linkinfoBlock _ _ _ _ => true
  | .dataPacket pk => pk.wf
  | .fecUncorrectable => true
  | .replayTimeout => true
  | .statusPeriod => true
  | .partnerSilent => true
  | .mirrorRecord _ data => dataWf data
  | .fwdReq q => q.wf
  | .fwdRsp q => q.wf
  | .snoop q => q.wf
  | .snoopRsp _ _ line _ => lineWf line
  | .loomReq q => q.wf
  | .loomRsp q => q.wf
  | .portState _ => true
  | .portStatePeriod => true
  | .spindleCtlWrite addr _ _ => addrWf addr
  | .dirCopy _ data => dataWf data
  | .copyComplete => true
  | .heartbeat _ h _ => h.wf
  | .heartbeatSend => true
  | .heartbeatMiss => true
  | .whorlSyncLoss _ => true
  | .fwFrame _ _ _ => true
  | .fwSend path => path.wf
  | .whorlClrCnt path => path.wf
  | .formTimeout => true
  | .settleWalkDone _ _ => true
  | .graceEnd => true
  | .fence path => path.wf
  | .unfence path => path.wf
  | .yield path => path.wf
  | .handback path => path.wf
  | .twnClrCnt path => path.wf
  | .moveDrained => true
  | .moveTimeout => true
  | .scrubGo path _ _ => path.wf
  | .scrubAbort path => path.wf
  | .scrubWord _ => true
  | .scrubEnd => true
  | .mergeDrain _ _ _ _ _ => true
  | .retireAdd path _ => path.wf
  | .writeRaw path => path.wf
  | .readRaw path => path.wf
  | .rawAccessDone => true
  | .evqEnable path => path.wf
  | .evqIrqTimeout => true
  | .intClrCnt path => path.wf
  | .poisonCommand _ _ => true
  | .powerRequest path _ _ => path.wf
  | .wakeStepReady _ => true
  | .wakeStepTimeout _ => true
  | .wakeRetryWaitEnd _ => true
  | .sequencerWatchdog _ => true
  | .drainComplete _ => true
  | .stoppingDone _ => true
  | .drainTimeout _ => true
  | .lostReady _ => true
  | .refclkLoss => true
  | .refclkReturn _ _ => true
  | .thermalSample temps _ => temps.length = 32
  | .throttleStep => true
  | .ldoSoftBrownout => true
  | .hardBrownout => true
  | .pwrClrCnt path => path.wf
  | .avsMarginWrite path _ => path.wf
  | .avsWriteAck => true
  | .avsWriteTimeout => true
  | .slotPowerReq path _ _ => path.wf
  | .unlatch path _ => path.wf
  | .slotClrCnt path _ => path.wf
  | .insertDelayEnd _ => true
  | .vinWindowCrossing _ _ => true
  | .fastTrip _ _ => true
  | .faultTimerExpiry _ _ => true
  | .rampTimeout _ _ => true
  | .gateFullyOn _ _ => true
  | .pgDeglitchEnd _ => true
  | .pgConditionsLost _ _ => true
  | .retryTimerExpiry _ => true
  | .gateOffDelayEnd _ => true
  | .glbResetWarm path _ => path.wf
  | .firmwareCopyDone image => image.wf
  | .recoveryWrite => true
  | .recoveryBoot => true
  | .kick path _ => path.wf
  | .watchdogExpiry _ => true
  | .coreReset path _ => path.wf
  | .getVersion _ => true
  | .getState _ => true
  | .setLinkPolicy _ _ => true
  | .setPowerPolicy _ _ => true
  | .setScrubSchedule _ _ => true
  | .tmProgram _ _ _ => true
  | .setFailoverPolicy _ _ => true
  | .flashUpdate _ _ => true
  | .mbWarmReset _ => true
  | .mailboxUnknownOpcode _ => true
  | .mailboxTimeout _ => true
  | .identifySwitchDevice path => path.wf
  | .getPhysicalPortState path _ => path.wf
  | .assertPerst path _ => path.wf
  | .deassertPerst path _ => path.wf
  | .resetPpb path _ => path.wf
  | .sendPpbCxlIoConfigRequest path _ _ => path.wf
  | .getVirtualCxlSwitchInfo path _ => path.wf
  | .bindVppb path => path.wf
  | .unbindVppb path => path.wf
  | .tunnelManagementCommand path _ _ data => path.wf && dataWf data
  | .sendLdCxlIoConfigRequest path _ _ addr _ => path.wf && addrWf addr
  | .sendLdCxlIoMemoryRequest path _ _ addr _ data => path.wf && addrWf addr && dataWf data
  | .getLdInfo path _ => path.wf
  | .getLdAllocations path _ => path.wf
  | .setLdAllocations path => path.wf
  | .qosControl path => path.wf
  | .getMultiHeadedInfo path _ => path.wf
  | .getHeadInfo path _ => path.wf
  | .initiateDynamicCapacityAdd path _ _ data => path.wf && dataWf data
  | .initiateDynamicCapacityRelease path _ _ data => path.wf && dataWf data
  | .getEventRecords path _ => path.wf
  | .clearEventRecords path _ _ => path.wf
  | .setEventInterruptPolicy path _ => path.wf
  | .ctlRead path addr _ => path.wf && addrWf addr
  | .ctlWrite path addr _ _ => path.wf && addrWf addr
  | .stageWrite path addr data => path.wf && addrWf addr && dataWf data
  | .fmUnsupportedCommand path => path.wf
  | .mctpControl _ _ => true
  | .spdmGetVersion _ => true
  | .spdmGetCapabilities _ => true
  | .spdmNegotiateAlgorithms _ => true
  | .spdmGetDigests _ => true
  | .spdmGetCertificate _ _ _ _ => true
  | .spdmChallenge _ _ => true
  | .spdmGetMeasurements _ _ _ => true
  | .spdmKeyExchange _ _ => true
  | .spdmFinish _ _ _ => true
  | .spdmHeartbeat _ _ => true
  | .spdmKeyUpdate _ _ _ _ => true
  | .spdmEndSession _ _ => true
  | .pmuClrAll path => path.wf
  | .censusTick => true
  | .counterPageRead _ _ _ => true
  | .testGo path _ _ _ => path.wf
  | .testAbort path => path.wf
  | .testComplete _ _ => true
  | .testTimeout => true
  | .chalReq path => path.wf
  | .grant path => path.wf
  | .relock path => path.wf
  | .traceDataRead path => path.wf
  | .cmdConflictClear path => path.wf
  | .pathCntClr path => path.wf
  | .porstRelease _ _ => true
  | .whorlCharacterAlignment => true
  | .laneSignalLost _ _ => true
  | .laneSignalDetected _ => true
  | .linkCreditReturn _ _ _ => true
  | .ideKmMessage _ _ => true

end Sys2Proof
end

