-- ==== Sys2Proof/Safety.lean ====
section
/-!
DEFINITION. What claims are stated in: the invariant that every step keeps, and runs of the block.
-/
namespace Sys2Proof.Machine

/-- The registers and the tables of the block are in their canonical forms: no register outside the control space, no
fixed register changed, no reserved bit set (R6, R23), and no table entry that equals what an unlisted key reads as. -/
structure Mach.Canon (m : Mach) : Prop where
  regs : regsWf m.regs = true
  sram : twf 0#64 m.sram = true
  hlog : twf [] m.hlog = true
  stage : twf 0#64 m.stage = true
  vcs : twf ⟨false, 0xFF, 0xFF, 0, 0⟩ m.vcs = true
  dec : twf ({} : Decoder) m.dec = true
  port : twf ({} : PortX) m.port = true
  sf : twf ⟨false, false, false, [], []⟩ m.sf = true
  msix : twf 0#64 m.msix = true
  ring : twf ({} : RingX) m.ring = true
  xin : twf [] m.xin = true
  stg : twf [] m.stg = true
  flowt : twf ⟨0, 0, false, false⟩ m.flowt = true
  xq : twf [] m.xq = true
  xdef : twf 0 m.xdef = true
  xturn : twf 1 m.xturn = true
  xaged : twf false m.xaged = true
  mcs : twf ({} : McMsg) m.mcs = true
  mcq : twf [] m.mcq = true
  owed : twf [] m.owed = true
  mir : twf ⟨0, 0, 0, []⟩ m.mir = true
  xwait : twf false m.xwait = true
  xacct : twf (0, 0) m.xacct = true
  xdown : twf false m.xdown = true
  xret : twf false m.xret = true
  sqin : twf [] m.sqin = true
  dbfNext : twf 0 m.dbfNext = true
  dir : twf ({} : DirEnt) m.dir = true
  trk : twf ({} : Trk) m.trk = true
  specT : twf 0 m.specT = true
  memT : twf 0 m.memT = true
  mru : twf 16 m.mru = true
  sqx : twf ({} : SqX) m.sqx = true
  crec : twf 64 m.crec = true
  cwait : twf 256 m.cwait = true
  crn : twf ({} : Crn) m.crn = true
  mtt : twf ({} : MirTrk) m.mtt = true
  blind : twf 0x4000 m.blind = true
  pagent : twf false m.pagent = true
  alost : twf false m.alost = true
  slot : twf ({} : Slot) m.slot = true
  srx : twf ({} : SRingX) m.srx = true
  tq : twf ({} : TQueue) m.tq = true
  push : twf [] m.push = true
  act : twf ({} : ActList) m.act = true
  buck : twf (0, 0) m.buck = true
  shp : twf (0, 0, 0, 0) m.shp = true
  lane : twf 63 m.lane = true
  gcl : twf (0, 0) m.gcl = true
  gopen : twf false m.gopen = true
  wire : twf 0 m.wire = true
  job : twf ({} : Job) m.job = true
  acc : twf ({} : LAcc) m.acc = true
  pred : twf (0, 0) m.pred = true
  kline : twf ({} : KLine) m.kline = true
  kmiss : twf [] m.kmiss = true
  vwin : twf (1, 0) m.vwin = true
  spnBuf : twf [] m.spnBuf = true
  spnWait : twf false m.spnWait = true
  hbTx : twf 0 m.hbTx = true
  raw : twf ([], 0, 0) m.raw = true
  retire : twf 0 m.retire = true
  dtgt : twf 0 m.dtgt = true
  dwait : twf false m.dwait = true
  slp : twf ({} : SlotCh) m.slp = true
  arrT : twf 0 m.arrT = true
  cskip : twf 0 m.cskip = true
  trc : twf [] m.trc = true
  spdm : twf ({} : SpdmC) m.spdm = true

/-- The invariant: the canonical forms; the fence of a record of severity FE is never left over to a later command (R369),
and no record of a command waits for its delivery beyond it (R370). -/
structure Mach.Inv (m : Mach) : Prop where
  canon : m.Canon
  calm : m.feDue = false
  told : m.evPend = []

/-- The invariant of a state. -/
def State.Inv (s : State) : Prop := s.m.Inv

/-! What completion is said in. -/

/-- Command `c` runs at `s` to a next state: the commands that wait stand, and `Q` holds of the block. -/
def Does (c : Instr) (s : State) (Q : Mach → Prop) : Prop :=
  ∃ t, exec c s = .next t ∧ t.pending = s.pending ∧ Q t.m

/-- A write of `data` under `mask` to register `r` over path `p` reaches the register: the register has its address in
the map (R456), the path reaches it (R459), the tests of the write alone accept it (R424), and no FAULTY object waits
for it to be rewritten (R358). A tenant control page writes registers of its own only, and TEN_OBJ_DATA stands for
another register (R300): a write to it is no such write. -/
structure Lands (m : Mach) (p : Path) (r : Reg) (data mask : Nat) : Prop where
  mapped : r.addr % 8 = 0 ∧ regAt r.addr = some r
  page : isPage p = true → r.k = .TEN_VIOL ∨ r.k = .TEN_OBJ_SEL
  aperture : r.k ≠ .TEN_OBJ_DATA
  reach : reaches m p r.addr true (data &&& mask) = true
  test : writeTest m r data mask p = rcOK
  whole : ∀ f ∈ m.faulty, r ∉ f.left

/-- A write of `v` to one field. -/
def LandsIn (m : Mach) (p : Path) (f : RF) (v : Nat) : Prop :=
  Lands m p ⟨f.k, f.i⟩ (v % 2 ^ f.w * 2 ^ f.lo) f.bits

/-- A write of several fields of one register: the fields and their values. -/
def LandsAll (m : Mach) (p : Path) (r : Reg) (l : List (RF × Nat)) : Prop :=
  Lands m p r (l.foldl (fun a e => a + e.2 % 2 ^ e.1.w * 2 ^ e.1.lo) 0) (l.foldl (fun a e => a + e.1.bits) 0)

/-- The control and status of structure are not in a phase of the power sequencer's own (R34, R38). -/
def SequencerAtRest (m : Mach) : Prop :=
  m.g GLB_STRUCT_STATUS_STATE ≠ stAPPLYING ∧ m.g GLB_STRUCT_STATUS_STATE ≠ stDISABLING

/-- Where the record of index `n` goes in the firmware event queue (R370, R371), as a word of the management SRAM. -/
def evqSlot (m : Mach) (n : Nat) : Nat :=
  m.g INT_EVQ_BASE_BASE * 4 + n % 2 ^ m.g INT_EVQ_BASE_SIZE_LOG2 * 4

/-- A record of `code` is among those that a command raised at `m`, and stands where the management cores find it (R370):
while CORE is ON and the event queue is off, in the holding queue behind what waited there, where that queue is not full
after the command; while the event queue is on, in one of the slots by which PROD advanced, where 16 entries are free after
the command. -/
def Told (code : Nat) (m t : Mach) : Prop :=
  domOn t 2 = true →
  (m.g INT_EVQ_BASE_EN = 0 → t.hold.length < 256 → ∃ l, t.hold = m.hold ++ l ∧ ∃ e ∈ l, e.code = code) ∧
  (m.g INT_EVQ_BASE_EN = 1 →
    16 ≤ 2 ^ m.g INT_EVQ_BASE_SIZE_LOG2 - idxDiff (t.g INT_EVQ_IDX_PROD) (m.g INT_EVQ_IDX_CONS) →
    ∃ i < idxDiff (t.g INT_EVQ_IDX_PROD) (m.g INT_EVQ_IDX_PROD),
      bitsAt (t.getSram (evqSlot m (m.g INT_EVQ_IDX_PROD + i) + 1)).toNat 16 16 = code)

/-- The commands that sample the TWIN_ID strap: PORST_N and its release, and a hard brown-out (R412, R414). -/
def samplesStrap : Instr → Bool
  | .coldReset _ _ _ | .hardBrownout | .porstRelease _ _ => true
  | _ => false

/-- A write of TWN_CTL that sets UNFENCE. -/
def setsUnfence (addr : Nat) (data mask : Word) : Bool :=
  addr = (⟨.TWN_CTL, 0⟩ : Reg).addr && bitsAt (data &&& mask).toNat 1 1 = 1

/-- The commands that can clear a fence (R339): a cold reset, and a write of UNFENCE. -/
def clearsFence : Instr → Bool
  | .coldReset _ _ _ | .hardBrownout | .unfence _ => true
  | .registerWrite l => l.any fun w => setsUnfence w.addr w.data w.mask
  | .ctlWrite _ a d m | .spindleCtlWrite a d m => setsUnfence a d m
  | .tmProgram _ _ l => l.any fun w => setsUnfence w.1 w.2.1 w.2.2
  | _ => false

/-- The commands that can be a warm reset (R392, R412). -/
def mayWarmReset : Instr → Bool
  | .warmReset _ _ | .thermalSample _ _ | .refclkReturn _ _ => true
  | _ => false

end Sys2Proof.Machine
end

