-- ==== Sys2Proof/Certificates/Slice0/Obligations.lean ====
section
/-!
DEFINITION. The statements for the provers: that every command completes and what it then holds, what each leaves as it was, the
invariants that every step keeps, and what the resets leave.
-/
open Sys2Proof Sys2Proof.Machine

/-- What the resets do (R379, R390, R412-R414, Table 17.1): PORST_N and a hard brown-out leave their bits in
PWR_RESET_CAUSE, the first holding the part until PORST_RELEASE, which samples TWIN_ID; the warm reset pin leaves its bit;
an accepted command of warm reset is kept for its 10 us. Where it rests on a choice of the model, the choice is logged
(notes/assumptions: 9, 11, 97, 99). -/
def Obligations.ResetsComplete : Prop :=
  ∀ s : State, s.Inv →
    (∀ (c : ColdCause) (pin command : Bool), c ≠ .brownout →
      Does (.coldReset c pin command) s fun t =>
        t.pins.porst = true ∧
        (t.rd ⟨.PWR_RESET_CAUSE, 0⟩).toNat = (if c = .both then 3 else 1) + warmBits s.m pin command) ∧
    (s.m.pins.porst = false →
      Does .hardBrownout s fun t => t.pins.porst = false ∧ (t.rd ⟨.PWR_RESET_CAUSE, 0⟩).toNat = 2) ∧
    (∀ twinId refclk : Bool, s.m.pins.porst = true →
      Does (.porstRelease twinId refclk) s fun t =>
        t.pins.porst = false ∧ t.pins.twinId = twinId ∧ t.g GLB_ID_TWIN_ID = (if twinId then 1 else 0) ∧
        t.g PWR_CLK_STATUS_REFCLK_OK = if refclk then 1 else 0) ∧
    (∀ command : Bool, s.m.pins.porst = false → s.m.g PWR_THERM_STATUS_TRIP = 0 → s.m.therm.absorbed = 0 →
      Does (.warmReset true command) s fun t =>
        (t.rd ⟨.PWR_RESET_CAUSE, 0⟩).toNat = (if command = true ∧ s.m.mgx.warmDue = true then 12 else 4)) ∧
    (∀ (p : Path) (key : BitVec 8),
      LandsAll s.m p ⟨.GLB_RESET_CTL, 0⟩ [(GLB_RESET_CTL_WARM, 1), (GLB_RESET_CTL_KEY, key.toNat)] →
      Does (.glbResetWarm p key) s fun t => t.mgx.warmDue = true) ∧
    (∀ level : Bool, s.m.pins.porst = false → level ≠ s.m.pins.twinId → s.m.pins.strapReported = false →
      Does (.twinIdChange level) s fun t => t.pins.strapReported = true ∧ Told 0x018C s.m t) ∧
    (∀ level : Bool, Does (.partnerAliveChange level) s fun t => t.pins.aliveIn = level) ∧
    (s.m.g TB_CTL_PPS_EN = 1 → Does (.ppsEdge false) s fun t => t.g TB_PPS_CAP_NS = s.m.tb.ns % 2 ^ 30) ∧
    (s.m.g TB_CNT_PPS_REJECT < 2 ^ 16 - 1 →
      Does (.ppsEdge true) s fun t => t.g TB_CNT_PPS_REJECT = s.m.g TB_CNT_PPS_REJECT + 1 ∧ t.tb = s.m.tb) ∧
    (s.m.g TB_CTL_PPS_EN = 1 → s.m.tb.lastEdge.isSome = true →
      Does .ppsLost s fun t => t.g TB_STATUS_HOLDOVER = 1 ∧ t.g TB_STATUS_LOCKED = 0 ∧ Told 0x058B s.m t)

/-- What loads and the structure control do (R30-R40, Table 2.5): a command names the load that runs, its end accepts or
refuses the image, or an abort stops it, the staging memory takes and gives words in order, and ENABLE and CHECK start their
checks, whose ends lead to APPLYING, ENABLED and DISABLED. Where it rests on a choice of the model, the choice is logged
(notes/assumptions: 37, 59, 60, 61). -/
def Obligations.LoadsAndStructureComplete : Prop :=
  ∀ s : State, s.Inv →
    (∀ p : Path, LandsIn s.m p MLD_CTL_CMD 1 →
      Does (.loadFlashA p) s fun t => t.ldr.running = some (1, pathCode s.m p) ∧ t.g MLD_STATUS_STATE = 1) ∧
    (∀ p : Path, LandsIn s.m p MLD_CTL_CMD 2 →
      Does (.loadFlashB p) s fun t => t.ldr.running = some (2, pathCode s.m p) ∧ t.g MLD_STATUS_STATE = 1) ∧
    (∀ p : Path, LandsIn s.m p MLD_CTL_CMD 3 →
      Does (.loadStage p) s fun t => t.ldr.running = some (3, pathCode s.m p) ∧ t.g MLD_STATUS_STATE = 1) ∧
    (∀ p : Path, LandsIn s.m p MLD_CTL_CMD 4 → s.m.ldr.running.isSome = true →
      Does (.abort p) s fun t => t.ldr.running = none ∧ t.g MLD_STATUS_STATE = 3) ∧
    (∀ (image : Image) (cmd code : Nat), s.m.ldr.running = some (cmd, code) → s.m.ldr.fence = 0 →
      s.m.g GLB_STRUCT_STATUS_STATE = stDISABLED →
      let v := verify s.m.fuse (s.m.g MLD_SVN_MIN_SVN_MIN) (s.m.g GLB_ID_STEPPING)
        (if cmd = 3 then stageImage s.m else image.bytes)
      Does (.imageLoadDone image) s fun t =>
        (v.reason = 0 → v.pol = false →
          t.ldr.accepted = true ∧ t.ldr.running = none ∧ t.g MLD_STATUS_STATE = 2 ∧ t.ldr.items = v.items) ∧
        (v.reason ≠ 0 → s.m.ldr.boot = 0 →
          t.ldr.accepted = s.m.ldr.accepted ∧ t.ldr.running = none ∧ t.g MLD_STATUS_STATE = 3 ∧
          t.g MLD_STATUS_REASON = v.reason % 2 ^ 16)) ∧
    (∀ (p : Path) (v : Word), Lands s.m p ⟨.MLD_STAGE_DATA, 0⟩ v.toNat (2 ^ 64 - 1) →
      Does (.stageDataAccess p (some v)) s fun t =>
        t.getStage (s.m.g MLD_STAGE_ADDR_ADDR) = v ∧
        t.g MLD_STAGE_ADDR_ADDR = (s.m.g MLD_STAGE_ADDR_ADDR + 1) % 2 ^ 19) ∧
    (∀ p : Path, reaches s.m p (⟨.MLD_STAGE_DATA, 0⟩ : Reg).addr false 0 = true → domOn s.m 2 = true →
      Does (.stageDataAccess p none) s fun t =>
        Out.read (⟨.MLD_STAGE_DATA, 0⟩ : Reg).addr (s.m.getStage (s.m.g MLD_STAGE_ADDR_ADDR)).toNat ∈ t.out ∧
        t.g MLD_STAGE_ADDR_ADDR = (s.m.g MLD_STAGE_ADDR_ADDR + 1) % 2 ^ 19) ∧
    (∀ p : Path, LandsIn s.m p GLB_STRUCT_CTL_ENABLE 1 → s.m.g GLB_STRUCT_STATUS_STATE = stDISABLED →
      s.m.ldr.accepted = true →
      Does (.structEnable p) s fun t =>
        t.g GLB_STRUCT_STATUS_STATE = stCHECKING ∧ t.ldr.checking = some false) ∧
    (∀ p : Path, LandsIn s.m p GLB_STRUCT_CTL_ENABLE 0 → s.m.g GLB_STRUCT_STATUS_STATE = stENABLED →
      Does (.structDisable p) s fun t => t.g GLB_STRUCT_STATUS_STATE = stDISABLING) ∧
    (∀ p : Path, LandsIn s.m p GLB_STRUCT_CTL_ENABLE 1 → s.m.g GLB_STRUCT_STATUS_STATE = stDISABLED →
      s.m.ldr.accepted = false →
      Does (.structEnable p) s fun t =>
        t.g GLB_STRUCT_STATUS_STATE = stDISABLED ∧ t.g GLB_STRUCT_CTL_ENABLE = 0 ∧
        t.g GLB_STRUCT_STATUS_REASON = rcNOT_LOADED) ∧
    (∀ p : Path, LandsIn s.m p GLB_STRUCT_CTL_CHECK 1 →
      Does (.structCheck p) s fun t => t.ldr.checking = some true ∧ t.ldr.listening = false) ∧
    (∀ dry : Bool, s.m.ldr.checking = some dry → s.m.ldr.listening = false →
      Does .structCheckDone s fun t =>
        if dry then
          (phases s.m.fuse (itemsNow s.m) ≠ none → t.g GLB_STRUCT_STATUS_DRY_OK = 0) ∧
          (phases s.m.fuse (itemsNow s.m) = none → s.m.g TWN_CFG_PAIRED = 0 → t.g GLB_STRUCT_STATUS_DRY_OK = 1)
        else
          (phases s.m.fuse (itemsNow s.m) ≠ none →
            t.g GLB_STRUCT_STATUS_STATE = stDISABLED ∧ t.g GLB_STRUCT_CTL_ENABLE = 0) ∧
          (phases s.m.fuse (itemsNow s.m) = none → s.m.g TWN_CFG_PAIRED = 0 →
            t.g GLB_STRUCT_STATUS_STATE = stAPPLYING)) ∧
    (s.m.ldr.checking = some true → s.m.ldr.listening = true → s.m.ldr.heard = false →
      Does .phase11ListenEnd s fun t => t.ldr.checking = none ∧ t.g GLB_STRUCT_STATUS_DRY_OK = 1) ∧
    (s.m.g GLB_STRUCT_STATUS_STATE = stAPPLYING → applyReached s.m = true →
      Does .applyingDone s fun t => t.g GLB_STRUCT_STATUS_STATE = stENABLED) ∧
    (s.m.g GLB_STRUCT_STATUS_STATE = stDISABLING → disableReached s.m = true →
      Does .disablingDone s fun t => t.g GLB_STRUCT_STATUS_STATE = stDISABLED ∧ t.g GLB_STRUCT_CTL_ENABLE = 0)

/-- What a register write stores, and the two captures of refused traffic that software clears (R424, R425, R459): a
register whose write does nothing else (`writeEffect` is quiet; SQ_FMD_CTL and GLB_PATH_CNT rewrite themselves) holds
what the access types of its fields make of the data under the mask. -/
def Obligations.RegisterWriteStores : Prop :=
  ∀ s : State, s.Inv →
    (∀ (p : Path) (r : Reg) (data mask : Word), writeEffect r = Foot.quiet → r.k ≠ .SQ_FMD_CTL → r.k ≠ .GLB_PATH_CNT →
      Lands s.m p r data.toNat mask.toNat →
      Does (.registerWrite [⟨p, r.addr, 8, data, mask⟩]) s fun t =>
        (t.rd r).toNat = stored r.k (s.m.rd r).toNat data.toNat mask.toNat) ∧
    (∀ p : Path, LandsIn s.m p GLB_CMD_CONFLICT_VALID 1 →
      Does (.cmdConflictClear p) s fun t =>
        t.g GLB_CMD_CONFLICT_VALID = 0 ∧ t.g GLB_CMD_CONFLICT_COUNT = 0) ∧
    (∀ p : Path, LandsIn s.m p GLB_PATH_CNT_CLR 1 →
      Does (.pathCntClr p) s fun t => t.g GLB_PATH_CNT_COUNT = 0)

/-- What the control and the training of a port do (R54, R57, R60, R74, R76, R77, R80, Table 3.3): ENABLE, RETRAIN, REDO_EQ
and CLR_CNT, a training that reaches L0 or times out, Recovery, the loss of the link, and the end of a flush. -/
def Obligations.PortTrainingCompletes : Prop :=
  ∀ s : State, s.Inv → ∀ p : Fin 128,
    (∀ (w : Path) (on : Bool), LandsIn s.m w (OCT_PORT_CTL_ENABLE p) (flag on) →
      Does (.portEnableWrite w p on) s fun t =>
        t.g (OCT_PORT_CTL_ENABLE p) = flag on ∧
        (on = false → s.m.g (OCT_PORT_CTL_ENABLE p) = 1 → s.m.g (OCT_PORT_STATUS_STATE p) = psUP →
          t.g (OCT_PORT_STATUS_STATE p) = psFLUSHING) ∧
        (on = true → s.m.g (OCT_PORT_CTL_ENABLE p) = 0 → s.m.g (OCT_PORT_STATUS_STATE p) = psDISABLED →
          t.g (OCT_PORT_STATUS_STATE p) =
            if (portOcts s.m p).all (fun o => domOn s.m (dOCT o)) = false then psDISABLED
            else if portPerst s.m p then psRESET else psTRAINING)) ∧
    (∀ w : Path, LandsIn s.m w (OCT_PORT_CTL_RETRAIN p) 1 → s.m.g (OCT_PORT_STATUS_STATE p) = psUP →
      Does (.retrain w p) s fun t => (t.getPort p).recovery = true ∧ (t.getPort p).xrateBar = false) ∧
    (∀ w : Path, LandsIn s.m w (OCT_PORT_CTL_REDO_EQ p) 1 → s.m.g (OCT_PORT_STATUS_STATE p) = psUP →
      Does (.redoEq w p) s fun t => (t.getPort p).recovery = true ∧ (t.getPort p).fullEq = true) ∧
    (∀ w : Path, LandsIn s.m w (OCT_PORT_CTL_CLR_CNT p) 1 →
      Does (.portClrCnt w p) s fun t => t.rd ⟨.OCT_PORT_CNT0, p⟩ = 0#64 ∧ t.rd ⟨.OCT_PORT_CNT1, p⟩ = 0#64) ∧
    (∀ link : LinkUp, s.m.g (OCT_PORT_STATUS_STATE p) = psTRAINING →
      Does (.trainingL0 p link) s fun t =>
        t.g (OCT_PORT_STATUS_LANES p) = finalLanes s.m p link ∧
        (t.g (OCT_PORT_STATUS_STATE p) = psUP ∨ t.g (OCT_PORT_STATUS_STATE p) = psHELD)) ∧
    (s.m.g (OCT_PORT_STATUS_STATE p) = psTRAINING →
      Does (.trainTimeout p) s fun t =>
        if (s.m.getPort p).tries < s.m.g (OCT_PORT_CTL_TRAIN_RETRIES p)
        then (t.getPort p).tries = (s.m.getPort p).tries + 1 ∧ t.g (OCT_PORT_STATUS_STATE p) = psTRAINING
        else t.g (OCT_PORT_STATUS_STATE p) = psHELD ∧ t.g (OCT_PORT_STATUS_HELD_REASON p) = 5) ∧
    (s.m.g (OCT_PORT_STATUS_STATE p) = psTRAINING → s.m.g (OCT_PORT_TRAIN_XRATE_OFFERED p) = 1 →
      (s.m.getPort p).xrateBar = false →
      Does (.xrateEqTimeout p) s fun t => (t.getPort p).xrateBar = true) ∧
    (∀ link : LinkUp, s.m.g (OCT_PORT_STATUS_STATE p) = psUP →
      Does (.portRecoveryDone p link) s fun t => t.g (OCT_PORT_STATUS_LANES p) = finalLanes s.m p link) ∧
    (s.m.g (OCT_PORT_STATUS_STATE p) = psUP →
      Does (.linkDown p) s fun t => t.g (OCT_PORT_STATUS_STATE p) = psFLUSHING) ∧
    (s.m.g (OCT_PORT_STATUS_STATE p) = psFLUSHING → xbFlushed s.m p = true →
      Does (.flushComplete p) s fun t => t.g (OCT_PORT_STATUS_STATE p) =
        if portPerst s.m p then psRESET else if s.m.g (OCT_PORT_CTL_ENABLE p) = 0 then psDISABLED else psTRAINING) ∧
    (s.m.g (OCT_PORT_STATUS_STATE p) = psFLUSHING →
      Does (.flushTimeout p) s fun t =>
        t.g (OCT_PORT_STATUS_STATE p) = psDISABLED ∧ t.g (OCT_PORT_CTL_ENABLE p) = 0)

/-- IDE, PERST_N, presence and link credits (R73, R75-R78, R88): the stream becomes secure, waits for its keys, fails or is
programmed; the pins take their levels; a partner's credits add to those it has granted. -/
def Obligations.PortPinsAndIdeComplete : Prop :=
  ∀ s : State, s.Inv →
    (∀ (p : Fin 128) (mode : Fin 4) (kset : Bool), s.m.g (OCT_PORT_IDE_STATE p) = 1 →
      (s.m.g (OCT_PORT_STATUS_STATE p) = psUP ∨ s.m.g (OCT_PORT_STATUS_STATE p) = psHELD) →
      Does (.ideSecure p mode kset) s fun t =>
        t.g (OCT_PORT_IDE_STATE p) = 2 ∧ t.g (OCT_PORT_STATUS_IDE_ACTIVE p) = 1 ∧
        t.g (OCT_PORT_IDE_K_SET p) = (if kset then 1 else 0) ∧
        (s.m.g (OCT_PORT_STATUS_HELD_REASON p) = 3 → t.g (OCT_PORT_STATUS_STATE p) = psUP)) ∧
    (∀ p : Fin 128, s.m.g (OCT_PORT_STATUS_STATE p) = psHELD → s.m.g (OCT_PORT_STATUS_HELD_REASON p) = 3 →
      Does (.ideTimeout p) s fun t => Told 0x0286 s.m t) ∧
    (∀ p : Fin 128, s.m.g (OCT_PORT_STATUS_STATE p) = psUP → s.m.g (OCT_PORT_IDE_STATE p) = 2 →
      Does (.ideFail p) s fun t =>
        t.g (OCT_PORT_STATUS_STATE p) = psFLUSHING ∧ t.g (OCT_PORT_IDE_STATE p) = 0) ∧
    (∀ (p : Fin 128) (b : Bool),
      (s.m.g (OCT_PORT_STATUS_STATE p) = psUP ∨ s.m.g (OCT_PORT_STATUS_STATE p) = psHELD) →
      s.m.g (OCT_PORT_CFG_ROLE p) ≠ 3 → kmSecured s.m p = true →
      Does (.ideKmMessage p (.keySet b)) s fun t =>
        s.m.g (OCT_PORT_IDE_STATE p) = 2 → t.g (OCT_PORT_IDE_K_SET p) = if b then 1 else 0) ∧
    (∀ p : Fin 128, (s.m.g (OCT_PORT_STATUS_STATE p) = psUP ∨ s.m.g (OCT_PORT_STATUS_STATE p) = psHELD) →
      s.m.g (OCT_PORT_CFG_ROLE p) ≠ 3 → kmSecured s.m p = true → s.m.g (OCT_PORT_IDE_STATE p) = 0 →
      Does (.ideKmMessage p .keyProg) s fun t => t.g (OCT_PORT_IDE_STATE p) = 1) ∧
    (∀ n : Fin 32, s.m.g (SLP_STATUS_PG n) = 1 → s.m.pins.present.getD n false = true →
      Does (.slotPerstRelease n) s fun t =>
        (t.getPort (4 * n)).perstDone = true ∧ t.g (OCT_STATUS_SLOT_PERST n) = s.m.g (OCT_SLOT_CTL_PERST_FORCE n)) ∧
    (∀ v : Fin 64, Does (.perstAssert v) s fun t =>
      t.pins.perst = setB s.m.pins.perst v true ∧
      ((s.m.getVcs v).valid = true →
        (∀ n < 24, t.getDec (v * 24 + n) = {}) ∧ (∀ n < 256, t.getVwin (v * 256 + n) = (1, 0)) ∧
        (t.getSf v).bme = false ∧ (t.getSf v).pasid = false ∧ (t.getSf v).tph = false ∧ (t.getSf v).unmasked = []) ∧
      ((s.m.getVcs v).valid = false → Told 0x0288 s.m t)) ∧
    (∀ v : Fin 64, Does (.perstDeassert v) s fun t =>
      t.pins.perst = setB s.m.pins.perst v false ∧
      ((s.m.getVcs v).valid = true → (s.m.getVcs v).up < 128 →
        s.m.g (OCT_PORT_STATUS_STATE (s.m.getVcs v).up) = psRESET →
        t.g (OCT_PORT_STATUS_STATE (s.m.getVcs v).up) =
          if s.m.g (OCT_PORT_CTL_ENABLE (s.m.getVcs v).up) = 1 then psTRAINING else psDISABLED)) ∧
    (∀ (n : Fin 32) (present : Bool), Does (.presenceDebounced n present) s fun t =>
      t.pins.present = setB s.m.pins.present n present) ∧
    (∀ (p : Fin 128) (c : Fin 8) (n : Nat), Does (.linkCreditReturn p c n) s fun t =>
      (t.getPort p).credits =
        let l := if (s.m.getPort p).credits.length = 8 then (s.m.getPort p).credits else List.replicate 8 0
        l.set c (nth l c + n))

/-- What arrives on a port that is UP, has room in its receive memory and has a place to go (R63-R67, R71, R86, R160, R165): a
memory request that a decoder claims for a device enters the port's input FIFO toward that device's port, a window that a
host programs is held, a message of a routed fabric with the part's DPID and a mapped SPID is taken, a CXL.cache request
is routed to its device, and a BIConflict for a line that is not busy is acknowledged; a memory request that finds no
room is refused and counted (R18). Where it rests on a choice of the model, the choice is logged (notes/assumptions: 28,
35, 122). -/
def Obligations.PortMessagesComplete : Prop :=
  ∀ s : State, s.Inv → ∀ p : Fin 128, portUp s.m p = true →
    (∀ (q : Msg) (v : Nat) (d : Decoder) (t ld : Nat), upVcs s.m p = some v → reqSort q.op ≠ 0 →
      decOf s.m v 0 16 q.addr = some d → 4 ≤ nth d.targets (ilvIdx d.ways d.gran q.addr) →
      (vppbs s.m v)[nth d.targets (ilvIdx d.ways d.gran q.addr) - 4]? = some (t, ld) →
      let c := hostCls s.m p v q (3, t, ld)
      if linkRoom s.m p c (memLen q) = true then
        Does (.hostMemRequest p q) s fun m' =>
          ∃ r : Msg, [r] ∈ m'.getXin (p * 8 + c) ∧ r.op = q.op ∧ r.addr = q.addr ∧ r.tag = q.tag ∧ r.out = t
      else s.m.g (OCT_PORT_CNT1_MSG_INVALID p) < 2 ^ 32 - 1 →
        Does (.hostMemRequest p q) s fun m' =>
          m'.xin = s.m.xin ∧ m'.g (OCT_PORT_CNT1_MSG_INVALID p) = s.m.g (OCT_PORT_CNT1_MSG_INVALID p) + 1) ∧
    (∀ (n b l v : Nat), upVcs s.m p = some v → s.m.g (OCT_PORT_CFG_ROLE p) ≠ 3 → s.m.g (OCT_PORT_CFG_ROLE p) ≠ 4 → n < 256 →
      Does (.hostIoRequest p (.window n b l)) s fun m' => m'.getVwin (v * 256 + n) = (b, l)) ∧
    (∀ (dpid spid : Fin 4096) (q : Msg), s.m.g (OCT_PORT_CFG_ROLE p) = 4 → (dpid : Nat) = s.m.g (OCT_PBR_ID_ID p) →
      (∃ n < 16, s.m.g (OCT_EDGE_MAP_VALID (p * 16 + n)) = 1 ∧ s.m.g (OCT_EDGE_MAP_DPID (p * 16 + n)) = spid) →
      q.op = .memData → isOwed s.m p .memData q.tag q.out = true →
      let c := if q.out < 128 then s2mCls s.m q.out true else 3
      linkRoom s.m p c 80 = true →
      Does (.edgeMessage p dpid spid q) s fun m' =>
        ∃ r : Msg, [r] ∈ m'.getXin (p * 8 + c) ∧ r.op = .memData ∧ r.out = q.out ∧ r.tag = q.tag) ∧
    (∀ (q : Msg) (v d : Nat), upVcs s.m p = some v → q.op = .h2dReq → (cacheIds s.m v)[nth q.x 0]? = some d →
      portUp s.m d = true → linkRoom s.m p 1 16 = true →
      Does (.cxlCacheMessage p q) s fun m' =>
        ∃ r : Msg, [r] ∈ m'.getXin (p * 8 + 1) ∧ r.op = .h2dReq ∧ r.addr = q.addr ∧ r.out = d) ∧
    (∀ (a addr tag : Nat), portAgent s.m p = some a → linkRoom s.m p 1 16 = true →
      (∀ e ∈ s.m.trk, ¬(e.2.st ≠ 0 ∧ e.2.kind = 0 ∧ e.2.line = lineOf addr ∧ e.2.req.agent = a)) →
      (∀ e ∈ s.m.crn, ¬(e.2.st ≠ 0 ∧ e.1 % 2 ^ 46 = lineOf addr / 64 ∧ ∃ w ∈ e.2.waiters, w.msg.agent = a)) →
      Does (.biconflict p addr tag) s fun m' =>
        ∃ r : Msg, Out.port p r ∈ m'.out ∧ r.op = .biConflictAck ∧ r.tag = tag)

/-- How messages move through the Crossing (R84, R89-R94, R88, R98, R99, R103, R107, R108): the head of an input FIFO whose
output queue admits it goes to the staging memory on the plane it is given, or cuts through; cells are linked one by one
and a whole message joins its output queue; while a plane is in SERVICE an output sends the head of C0, or of the class
that the round robin gives the turn; an aged head is marked; a FLUSHED notice ends the snoop that the Spindle relayed.
Where it rests on a choice of the model, the choice is logged (notes/assumptions: 5, 6). -/
def Obligations.CrossingMessagesComplete : Prop :=
  ∀ s : State, s.Inv →
    (∀ (e : Fin 168) (c : Fin 8) (msg : Msg) (rest : List (List Msg)) (p res sh : Nat),
      s.m.getXin (e * 8 + c) = [msg] :: rest → mayReach s.m msg = true → heldBack s.m msg = false →
      (s.m.getFlowt (flowKey msg.inp msg.out msg.cls)).draining = false → cutsThrough s.m msg = false →
      choosePlane s.m msg = some p → stagedCells s.m e + cellsOf msg.len ≤ 256 →
      queueAdmits s.m msg.out msg.cls (cellsOf msg.len) = some (res, sh) →
      Does (.headAdmit e c) s (fun t =>
        t.getXin (e * 8 + c) = rest ∧
        t.getStg e = s.m.getStg e ++ [⟨msg, p, cellsOf msg.len, 0, flowKey msg.inp msg.out msg.cls, res, sh,
          (s.m.xfree.take 262144 (res + sh)).1, []⟩]) ∧
      Does (.messageDispatch e c none) s (fun t =>
        t.getXin (e * 8 + c) = rest ∧
        t.getStg e = s.m.getStg e ++ [⟨msg, p, cellsOf msg.len, 0, flowKey msg.inp msg.out msg.cls, res, sh,
          (s.m.xfree.take 262144 (res + sh)).1, []⟩])) ∧
    (∀ (e : Fin 168) (c : Fin 8) (msg : Msg) (rest : List (List Msg)) (p : Nat),
      s.m.getXin (e * 8 + c) = [msg] :: rest → mayReach s.m msg = true → heldBack s.m msg = false →
      (s.m.getFlowt (flowKey msg.inp msg.out msg.cls)).draining = false → cutsThrough s.m msg = true →
      choosePlane s.m msg = some p →
      Does (.headAdmit e c) s fun t => t.getStg e = s.m.getStg e ∧ Out.port msg.out msg ∈ t.out) ∧
    (∀ (e : Fin 168) (plane : Fin 4) (x : Staged) (l : List Staged),
      s.m.getStg e = x :: l → x.plane = plane → x.dests = [] →
      Does (.cellLinked e plane) s fun t =>
        if x.linked + 1 < x.cells then t.getStg e = { x with linked := x.linked + 1 } :: l
        else t.getStg e = l ∧
          (mayReach s.m x.msg = true →
            t.getXq (x.msg.out * 8 + x.msg.cls) = s.m.getXq (x.msg.out * 8 + x.msg.cls) ++
              [⟨x.msg, x.cells, x.cells, x.reserve, x.shared, x.bobs, s.m.time64, none⟩])) ∧
    (∀ (ep : Fin 168) (q : QMsg), planesUp s.m ≠ [] → ((ep : Nat) = epSPN → reelShort s.m = false) →
      sendable s.m ep 0 = some q →
      Does (.outputSend ep) s fun t => t.getXq (ep * 8) = (s.m.getXq (ep * 8)).drop 1) ∧
    (∀ (ep : Fin 168) (c : Nat) (q : QMsg) (d : List Nat), planesUp s.m ≠ [] →
      ((ep : Nat) = epSPN → reelShort s.m = false) → sendable s.m ep 0 = none →
      drrPick s.m ep 140 (s.m.getXturn ep % 8) (decide (8 ≤ s.m.getXturn ep)) (deficits s.m ep) = some (c, q, d) →
      Does (.outputSend ep) s fun t =>
        t.getXq (ep * 8 + c) = (s.m.getXq (ep * 8 + c)).drop 1 ∧ t.getXturn ep = c + 8) ∧
    (∀ (ep : Fin 168) (c : Fin 8) (q : QMsg) (l : List QMsg), s.m.getXq (ep * 8 + c) = q :: l →
      (128 ≤ (ep : Nat) ∨ portUp s.m ep = true) → s.m.g (XB_CLASS_CFG_AGE_LIMIT c) * 1000 ≤ s.m.time64 - q.time →
      Does (.ageExpiry ep c) s fun t => t.getXaged (ep * 8 + c) = true) ∧
    (∀ (was : Op) (q : Msg), q.out = epSPN →
      Does (.flushedNotice was q) s fun t => t.spn.relay = s.m.spn.relay.erase (q.agent, lineOf q.addr))

/-- The states of a plane (R91, R95-R97, Table 4.3): a path check that passes or fails, the loss causes, the end of a drain,
OUT and RETURN, and CLR_CNT. -/
def Obligations.PlanesComplete : Prop :=
  ∀ s : State, s.Inv →
    (∀ p : Fin 4, s.m.g (planeState p) = plSTARTING →
      Does (.planePathCheckDone p) s fun t => t.g (planeState p) = if s.m.getXdown p then plDRAINING else plSERVICE) ∧
    (∀ p : Fin 4, s.m.g (planeState p) = plSTARTING →
      Does (.planePathCheckTimeout p) s fun t => t.g (planeState p) = plLOST ∧ t.g (planeCause p) = 5) ∧
    (∀ (p : Fin 4) (parity : Bool), s.m.g (planeState p) ∈ [plSTARTING, plSERVICE, plDRAINING] →
      Does (.planeError p parity) s fun t =>
        t.g (planeState p) = plLOST ∧ t.g (planeCause p) = if parity then 2 else 1) ∧
    (∀ p : Fin 4, s.m.g (planeState p) ∈ [plSTARTING, plSERVICE, plDRAINING] →
      Does (.planeWatchdog p) s fun t => t.g (planeState p) = plLOST ∧ t.g (planeCause p) = 3) ∧
    (∀ p : Fin 4, s.m.g (planeState p) = plDRAINING → planeBusy s.m p = false →
      Does (.planeDrained p) s fun t => t.g (planeState p) = if s.m.getXdown p then plOFF else plTEST) ∧
    (∀ p : Fin 4, s.m.g (planeState p) = plDRAINING → planeBusy s.m p = true →
      Does (.planeDrainTimeout p) s fun t => t.g (planeState p) = plLOST ∧ t.g (planeCause p) = 3) ∧
    (∀ (w : Path) (planes : Fin 16), LandsIn s.m w XB_PLANE_CTL_OUT planes →
      Does (.planeOut w planes) s fun t => t.g XB_PLANE_CTL_OUT = planes ∧
        ∀ p < 4, bitsAt planes p 1 = 1 → bitsAt (s.m.g XB_PLANE_CTL_OUT) p 1 = 0 → s.m.g (planeState p) = plSERVICE →
          t.g (planeState p) = plDRAINING) ∧
    (∀ (w : Path) (planes : Fin 16), LandsIn s.m w XB_PLANE_CTL_RETURN planes →
      Does (.planeReturn w planes) s fun t =>
        ∀ p < 4, bitsAt planes p 1 = 1 →
          (s.m.g (planeState p) = plTEST ∨ (s.m.g (planeState p) = plLOST ∧ domOn s.m (dXB p) = true)) →
          t.g (planeState p) = plSTARTING ∧ t.g (planeCause p) = 0 ∧ t.getXret p = true) ∧
    (∀ w : Path, LandsIn s.m w XB_CTL_CLR_CNT 1 →
      Does (.xbClrCnt w) s fun t => ∀ c < 9, t.g (XB_CNT_COUNT c) = 0)

/-- The path of a request through its Square (R122, R123, R126, R127, R130-R132, Tables 5.2 and 5.3): a new request takes
the lookup slot, and a tracker unless its line is delegated, when it is forwarded (R150); a miss leaves a read waiting for
its data; data and completions that arrive are taken by the tracker that waits for them, and an access that does not come
back poisons its line. Where it rests on a choice of the model, the choice is logged (notes/assumptions: 7, 14). -/
def Obligations.SquareRequestsComplete : Prop :=
  ∀ s : State, s.Inv → ∀ sq : Fin 32,
    (∀ (bad : Option (Fin 16)) (a : Nat × Msg), domSt s.m (dSQ sq) = dsON → (s.m.getSqx sq).chain = [] →
      (s.m.getSqx sq).rein = [] → (s.m.getSqx sq).due = [] → (s.m.getSqx sq).wbq = [] → (s.m.getSqx sq).retry = [] →
      (s.m.getSqx sq).settleQ = [] → (s.m.getSqx sq).walking = false → (s.m.getSqx sq).ledger = [] →
      (newHeads (s.m.getSqin sq)).head? = some a → purging s.m sq a.2 = false →
      homesLine s.m (lineOf a.2.addr) = true → movingLine s.m (lineOf a.2.addr) = false →
      trkOn s.m sq (lineOf a.2.addr) = none → fmdPort s.m (lineOf a.2.addr) ≠ none →
      (∀ t : Nat, trkGeneral s.m sq = some t → (bad = none → delegatedTo s.m sq (lineOf a.2.addr) = none) →
        Does (.squareLookup sq 0 bad) s fun m' =>
          (m'.getTrk (sq * 8192 + t)).st = 1 ∧ (m'.getTrk (sq * 8192 + t)).req = a.2 ∧
          m'.getSqin sq = (s.m.getSqin sq).filter (fun e => e.1 ≠ a.1)) ∧
      (∀ way p : Nat, bad = none → delegatedTo s.m sq (lineOf a.2.addr) = some (way, p) →
        0 < s.m.getCwait (sq * 32 + p / 4) → 0 < s.m.getCrec (sq * 32 + p / 4) →
        Does (.squareLookup sq 0 bad) s fun m' =>
          m'.trk = s.m.trk ∧ m'.getSqin sq = (s.m.getSqin sq).filter (fun e => e.1 ≠ a.1) ∧
          ∃ r : Msg, [r] ∈ m'.getXin (epSq sq * 8 + 1) ∧ r.op = .fwd ∧ r.out = p ∧ r.agent = a.2.agent ∧ r.addr = a.2.addr)) ∧
    (∀ t : Fin 8192, (s.m.getTrk (sq * 8192 + t)).st = 1 → (s.m.getTrk (sq * 8192 + t)).kind = 0 →
      rqOf (s.m.getTrk (sq * 8192 + t)).req = .N → (s.m.getTrk (sq * 8192 + t)).spec = 1 →
      (s.m.getTrk (sq * 8192 + t)).wait = [] → (s.m.getTrk (sq * 8192 + t)).haveData = false →
      (s.m.getTrk (sq * 8192 + t)).closed = false → (s.m.getTrk (sq * 8192 + t)).answers = [] →
      dirFind s.m sq (s.m.getTrk (sq * 8192 + t)).line = none → blindSet s.m sq (s.m.getTrk (sq * 8192 + t)).line = false →
      dirMarked s.m sq (s.m.getTrk (sq * 8192 + t)).line = none →
      Does (.lookupResult sq t none) s fun m' =>
        (m'.getTrk (sq * 8192 + t)).st = 2 ∧ (m'.getTrk (sq * 8192 + t)).needData = true ∧
        m'.g (SQ_CNT_COUNT (sq * 32 + scMISS)) = Nat.min (s.m.g (SQ_CNT_COUNT (sq * 32 + scMISS)) + 1) (2 ^ 64 - 1)) ∧
    (∀ (tag n : Nat) (data : List Word) (poison : Bool), s.m.getSpecT (memKey sq tag) = n + 2 →
      (s.m.getTrk (sq * 8192 + n)).st = 2 → (s.m.getTrk (sq * 8192 + n)).wait ≠ [] →
      (s.m.getTrk (sq * 8192 + n)).closed = false →
      let k := s.m.getTrk (sq * 8192 + n)
      Does (.specDataArrival sq tag data poison) s fun m' =>
        m'.getSpecT (memKey sq tag) = 0 ∧ (m'.getTrk (sq * 8192 + n)).haveData = true ∧
        (m'.getTrk (sq * 8192 + n)).data = (if k.haveData then k.data else data) ∧
        (m'.getTrk (sq * 8192 + n)).poison = (if k.haveData then k.poison else poison)) ∧
    (∀ (tag t : Nat) (data : List Word) (poison : Bool), readOf s.m sq tag = some t →
      (s.m.getTrk (sq * 8192 + t)).st = 2 → (s.m.getTrk (sq * 8192 + t)).wait ≠ [] →
      (s.m.getTrk (sq * 8192 + t)).closed = false →
      let k := s.m.getTrk (sq * 8192 + t)
      Does (.memoryReadData sq tag data poison) s (fun m' =>
        readOf m' sq tag = none ∧
        (m'.getTrk (sq * 8192 + t)).haveData = true ∧ (m'.getTrk (sq * 8192 + t)).demand = false ∧
        (m'.getTrk (sq * 8192 + t)).data = (if k.haveData then k.data else data) ∧
        (m'.getTrk (sq * 8192 + t)).poison = (if k.haveData then k.poison else poison)) ∧
      Does (.memTimeout sq 0 tag) s (fun m' =>
        readOf m' sq tag = none ∧
        (m'.getTrk (sq * 8192 + t)).haveData = true ∧ (m'.getTrk (sq * 8192 + t)).demand = false ∧
        (m'.getTrk (sq * 8192 + t)).poison = (if k.haveData then k.poison else true) ∧ Told 0x0481 s.m m')) ∧
    (∀ tag t : Nat, writeOf s.m sq tag = some t → t < 8192 → (s.m.getTrk (sq * 8192 + t)).st = 2 →
      (s.m.getTrk (sq * 8192 + t)).wait ≠ [] → (s.m.getTrk (sq * 8192 + t)).closed = false →
      Does (.memoryWriteComplete sq tag) s (fun m' =>
        writeOf m' sq tag = none ∧
        (m'.getTrk (sq * 8192 + t)).writes = (s.m.getTrk (sq * 8192 + t)).writes - 1) ∧
      Does (.memTimeout sq 2 tag) s (fun m' =>
        writeOf m' sq tag = none ∧
        (m'.getTrk (sq * 8192 + t)).writes = (s.m.getTrk (sq * 8192 + t)).writes - 1 ∧ Told 0x0481 s.m m'))

/-- What comes to a Square for a line whose tracker waits on snoops, and what its timers, its probe and its software do
(R116, R124, R128, R129, R136-R138, R142, R143): a writeback joins the tracker, an answer is taken, an agent that stays
silent is given up, retry entries are woken and marked, the eviction window ends, the probe runs, decoders are committed
and released, and the counters clear. -/
def Obligations.SquareAnswersComplete : Prop :=
  ∀ s : State, s.Inv → ∀ sq : Fin 32,
    (∀ (q : Msg) (bad : Option (Fin 16)) (n : Nat) (k : Trk),
      (domSt s.m (dSQ sq) = dsON ∨ domSt s.m (dSQ sq) = dsDRAINING) → relayed s.m q.agent (lineOf q.addr) = false →
      homesLine s.m (lineOf q.addr) = true → trkOn s.m sq (lineOf q.addr) = some (n, k) → k.st = 2 → k.closed = false →
      q.agent ∈ k.wait → q.op = .wbS →
      Does (.writeback sq q bad) s fun m' =>
        (m'.getTrk (sq * 8192 + n)).haveData = true ∧ (m'.getTrk (sq * 8192 + n)).data = q.data ∧
        (m'.getTrk (sq * 8192 + n)).writer = q.agent ∧ (m'.getTrk (sq * 8192 + n)).wbs = k.wbs ++ [q]) ∧
    (∀ (a : Fin 65) (line : Nat) (shared : Bool) (n : Nat) (k : Trk), relayed s.m a line = false →
      trkOn s.m sq line = some (n, k) → k.st = 2 → k.closed = false → (a : Nat) ∈ k.wait → (∃ b ∈ k.wait, b ≠ a) →
      Does (.birsp sq a line shared) s fun m' =>
        (m'.getTrk (sq * 8192 + n)).wait = k.wait.filter (· ≠ (a : Nat)) ∧
        (m'.getTrk (sq * 8192 + n)).answers = k.answers ++ [((a : Nat), shared)]) ∧
    (∀ (t : Fin 8192) (a : Fin 65), (s.m.getTrk (sq * 8192 + t)).st = 2 → (s.m.getTrk (sq * 8192 + t)).closed = false →
      (a : Nat) ∈ (s.m.getTrk (sq * 8192 + t)).wait → (∃ b ∈ (s.m.getTrk (sq * 8192 + t)).wait, b ≠ a) →
      Does (.snoopTimeout sq t a) s fun m' =>
        (m'.getTrk (sq * 8192 + t)).wait = (s.m.getTrk (sq * 8192 + t)).wait.filter (· ≠ (a : Nat)) ∧ Told 0x0482 s.m m') ∧
    (∀ n : Nat, (domSt s.m (dSQ sq) = dsON ∨ domSt s.m (dSQ sq) = dsDRAINING) →
      Does (.retryInterval sq n) s fun m' =>
        (m'.getSqx sq).retry[n]? = ((s.m.getSqx sq).retry[n]?).map fun w => { w with woken := true }) ∧
    (∀ (n : Nat) (w : Waiting), (domSt s.m (dSQ sq) = dsON ∨ domSt s.m (dSQ sq) = dsDRAINING) → (s.m.getSqx sq).retry[n]? = some w → w.aged = false →
      Does (.retryAgeLimit sq n) s fun m' =>
        (m'.getSqx sq).retry[n]? = some { w with aged := true } ∧ Told 0x0483 s.m m') ∧
    ((domSt s.m (dSQ sq) = dsON ∨ domSt s.m (dSQ sq) = dsDRAINING) →
      Does (.evictWindowEnd sq) s fun m' =>
        (m'.getSqx sq).evicts = 0 ∧
        m'.g (SQ_EVICT_STAT_WINDOW_EVICTS sq) = Nat.min (s.m.getSqx sq).evicts (2 ^ 32 - 1) ∧
        m'.g (SQ_EVICT_STAT_PRESSURE sq) = if s.m.g (SQ_EVICT_CTL_THRESH sq) < (s.m.getSqx sq).evicts then 1 else 0) ∧
    (∀ (p : Path) (addr : Nat), LandsIn s.m p (SQ_PROBE_ADDR_ADDR sq) (addr / 64) →
      Does (.probeStart p sq addr) s fun m' =>
        (m'.getSqx sq).probing = true ∧ m'.g (SQ_PROBE_RESULT_DONE sq) = 0 ∧
        m'.g (SQ_PROBE_ADDR_ADDR sq) = addr / 64 % 2 ^ 46) ∧
    ((domSt s.m (dSQ sq) = dsON ∨ domSt s.m (dSQ sq) = dsDRAINING) → (s.m.getSqx sq).probing = true →
      Does (.probeDone sq) s fun m' => (m'.getSqx sq).probing = false ∧ m'.g (SQ_PROBE_RESULT_DONE sq) = 1) ∧
    (∀ (p : Path), LandsIn s.m p (SQ_FMD_CTL_COMMIT sq) 1 →
      Does (.fmdCommit p sq) s fun m' => m'.g (SQ_FMD_CTL_COMMITTED sq) = 1) ∧
    (∀ (p : Path), LandsIn s.m p (SQ_FMD_CTL_COMMIT sq) 0 →
      Does (.fmdDecommit p sq) s fun m' => m'.g (SQ_FMD_CTL_COMMITTED sq) = 0) ∧
    (∀ (p : Path), LandsIn s.m p (SQ_CTL_CLR_CNT sq) 1 →
      Does (.sqClrCnt p sq) s fun m' => ∀ c < 32, m'.g (SQ_CNT_COUNT (sq * 32 + c)) = 0)

/-- Mirror records and the delegation of a line, from the Square's side (R149-R152, R157, R163, R337, R338, Table 6.4): a
commit frees the tracker that waits for it, commits and releases leave, a Corner's HANDOVER and RETURN write the entry,
a waiter that comes back is chained again, credits return, and a purge ends. -/
def Obligations.SquareDelegationCompletes : Prop :=
  ∀ s : State, s.Inv → ∀ sq : Fin 32,
    (∀ (n upto : Nat), s.m.twx.yielding = false → n < 8192 → (s.m.getTrk (sq * 8192 + n)).st = 3 →
      (s.m.getTrk (sq * 8192 + n)).kind = 1 → (s.m.getTrk (sq * 8192 + n)).mseq ≠ 0 →
      covers upto ((s.m.getTrk (sq * 8192 + n)).mseq - 1) = true →
      (∀ e ∈ openTrks s.m sq, e.2.mseq ≠ 0 → covers upto (e.2.mseq - 1) = true → e.1 = n) →
      (∀ e ∈ s.m.crn, ¬(e.2.sq = sq ∧ e.2.mseq ≠ 0)) →
      Does (.mirrorCommit [((sq : Nat), upto)]) s fun m' => m'.getTrk (sq * 8192 + n) = {}) ∧
    ((s.m.getSqx sq).commitDue = true →
      Does (.commitSend sq) s fun m' =>
        (m'.getSqx sq).commitDue = false ∧ ∃ r : Msg, [r] ∈ m'.getXin (epSq sq * 8 + 7) ∧ r.op = .mirrorCommit) ∧
    ((s.m.getSqx sq).releases ≠ [] →
      Does (.releaseSend sq) s fun m' =>
        (m'.getSqx sq).releases = (s.m.getSqx sq).releases.drop 4 ∧
        (s.m.g TWN_ROLE_MIRRORED = 1 → ∃ r : Msg, [r] ∈ m'.getXin (epSq sq * 8 + 7) ∧ r.op = .mirror)) ∧
    (∀ (p : Fin 128) (line : Nat) (agent : Fin 64) (settled recs waits w : Nat) (e : DirEnt),
      dirFind s.m sq line = some (w, e) →
      Does (.handover sq p line agent settled recs waits) s fun m' =>
        m'.getDir (dirKey sq (arrOf s.m line) (setOf line) w) =
          { mkEnt line ((cdOf s.m line).getD 0) 2 [(agent : Nat)] with deleg := true }) ∧
    (∀ (p : Fin 128) (line : Nat) (f : DirEnt) (settled recs waits w : Nat) (e : DirEnt),
      dirFind s.m sq line = some (w, e) → f.state ≠ 0 →
      Does (.ret sq p line .done (some f) false none settled recs waits) s fun m' =>
        m'.getDir (dirKey sq (arrOf s.m line) (setOf line) w) =
          { f with tag := tagOf line, deleg := false, cd := (cdOf s.m line).getD 0 }) ∧
    (∀ w : Waiting, (entryOf s.m sq (lineOf w.msg.addr)).deleg = false →
      let x := (s.m.getSqx sq).rechain { w with back := true }
      Does (.waiter sq w) s fun m' =>
        (isLost s.m w.msg.agent = false → (m'.getSqx sq).chain = x.chain ∧ (m'.getSqx sq).rein = x.rein) ∧
        (isLost s.m w.msg.agent = true → (m'.getSqx sq).chain = (s.m.getSqx sq).chain ∧
          (m'.getSqx sq).rein = (s.m.getSqx sq).rein)) ∧
    (∀ (o : Fin 32) (recs waits : Nat),
      Does (.credit sq o recs waits) s fun m' =>
        m'.getCrec (sq * 32 + o) = Nat.min 64 (s.m.getCrec (sq * 32 + o) + recs) ∧
        m'.getCwait (sq * 32 + o) = Nat.min 256 (s.m.getCwait (sq * 32 + o) + waits)) ∧
    (s.m.g (SQ_PURGE_STATUS_ACTIVE sq) = 1 →
      Does (.purgeWalkDone sq) s fun m' =>
        m'.g (SQ_PURGE_STATUS_ACTIVE sq) = 0 ∧ m'.g (SQ_PURGE_MASK_AGENTS sq) = 0)

/-- The Corner's record of a delegated line (R149, R155, R156, R159, Tables 6.2 and 6.3): a FWD opens a record or joins it,
the owner's writeback and answer are taken, a timer that runs out gives the line back, memory writes complete, and the
Square's ACK is kept. -/
def Obligations.CornersComplete : Prop :=
  ∀ s : State, s.Inv → ∀ (p : Fin 128) (line : Nat),
    (∀ (sq : Fin 32) (w : Waiting) (opened : Bool), lineOf w.msg.addr = line →
      ((s.m.getCrn (crnKey p line)).st = 1 ∨ (s.m.getCrn (crnKey p line)).st = 2) →
      Does (.cornerFwd p sq w opened) s fun m' =>
        m'.getCrn (crnKey p line) =
          { s.m.getCrn (crnKey p line) with
            waiters := match (s.m.getCrn (crnKey p line)).waiters with | [] => [w] | h :: l => h :: byStamp w l }) ∧
    (∀ (sq : Fin 32) (w : Waiting) (opened : Bool), lineOf w.msg.addr = line → (s.m.getCrn (crnKey p line)).st = 0 →
      portUp s.m p = true → w.msg.agent ≠ (portAgent s.m p).getD 0xFF →
      Does (.cornerFwd p sq w opened) s fun m' =>
        m'.getCrn (crnKey p line) =
          { st := 1, sq := sq, owner := (portAgent s.m p).getD 0xFF, waiters := [w], expect := true }) ∧
    (∀ q : Msg, lineOf q.addr = line → q.op = .wbS → (s.m.getCrn (crnKey p line)).st = 1 →
      Does (.cornerWriteback p q) s fun m' =>
        (m'.getCrn (crnKey p line)).held = 1 ∧ (m'.getCrn (crnKey p line)).data = q.data ∧
        (m'.getCrn (crnKey p line)).poison = q.poison) ∧
    (∀ shared : Bool, (s.m.getCrn (crnKey p line)).st = 1 → (s.m.getCrn (crnKey p line)).expect = true →
      (s.m.getCrn (crnKey p line)).held ≠ 1 → (s.m.getCrn (crnKey p line)).ack = false →
      Does (.cornerBirsp p line shared) s fun m' =>
        (m'.getCrn (crnKey p line)).st = 3 ∧ (m'.getCrn (crnKey p line)).expect = false ∧
        (m'.getCrn (crnKey p line)).waiters = []) ∧
    ((s.m.getCrn (crnKey p line)).st = 1 → (s.m.getCrn (crnKey p line)).expect = true →
      (s.m.getCrn (crnKey p line)).ack = false →
      Does (.cornerSnoopTimeout p line) s fun m' =>
        (m'.getCrn (crnKey p line)).st = 3 ∧ (m'.getCrn (crnKey p line)).expect = false) ∧
    (0 < (s.m.getCrn (crnKey p line)).writes → (s.m.getCrn (crnKey p line)).st = 1 →
      (s.m.getCrn (crnKey p line)).down = false →
      Does (.cornerMemoryWriteDone p line) s (fun m' =>
        (m'.getCrn (crnKey p line)).writes = (s.m.getCrn (crnKey p line)).writes - 1) ∧
      Does (.cornerMemTimeout p line) s (fun m' =>
        (m'.getCrn (crnKey p line)).writes = (s.m.getCrn (crnKey p line)).writes - 1 ∧ Told 0x0481 s.m m')) ∧
    ((s.m.getCrn (crnKey p line)).st = 3 → (s.m.getCrn (crnKey p line)).expect = true →
      Does (.cornerAck p line) s fun m' => (m'.getCrn (crnKey p line)).ack = true)

/-- The Plaza's slots (R170, R171, R174-R178, R184-R187): a line is kept in its slot, a read is answered, a committed head
is taken by the enqueue, which links an unmetered unicast packet that every test admits behind its queue, and the slots'
timers, returns, registers and flush do what they say. -/
def Obligations.PlazaCompletes : Prop :=
  ∀ s : State, s.Inv → (domSt s.m dTM = dsON ∨ domSt s.m dTM = dsDRAINING) →
    (∀ (v : Fin 64) (dpa tag : Nat) (mask : Word) (data : List Word) (poison : Bool) (sl : Nat),
      (vcsRings s.m v)[dpa / 2 ^ 26]? = some sl → ((s.m.getSlot (sl * 4096 + bitsAt dpa 14 12)).st = 1 ∨
        ((s.m.getSlot (sl * 4096 + bitsAt dpa 14 12)).st = 0 ∧ s.m.g (TM_SRING_CTL_ENABLE sl) = 1)) →
      Does (.slotLineWrite v dpa tag mask data poison) s fun t =>
        (t.getSlot (sl * 4096 + bitsAt dpa 14 12)).lines =
          (s.m.getSlot (sl * 4096 + bitsAt dpa 14 12)).lines.filter (fun e => e.1 ≠ bitsAt dpa 6 8) ++
            [(bitsAt dpa 6 8, maskBytes mask.toNat data)]) ∧
    (∀ (v : Fin 64) (dpa tag : Nat) (read : Bool),
      Does (.plazaLdRead v dpa tag read) s fun t =>
        ∃ r : Msg, [r] ∈ t.getXin (epTM * 8 + s2mCls s.m (vcsPort s.m v) read) ∧ r.tag = tag ∧ r.addr = dpa ∧
          r.out = vcsPort s.m v ∧ r.op = if read then .memData else .cmp) ∧
    (∀ sl : Fin 256, (s.m.getSlot (sl * 4096 + headIdx s.m sl)).st = 2 →
      Does (.enqueue sl) s fun t =>
        (t.getSlot (sl * 4096 + headIdx s.m sl)).st = 3 ∧
        (dkNOP (docketOf (s.m.getSlot (sl * 4096 + headIdx s.m sl))) = true →
          t.g (TM_CNT_COUNT tmNOP) = Nat.min (s.m.g (TM_CNT_COUNT tmNOP) + 1) (2 ^ 64 - 1))) ∧
    (∀ (sl : Fin 256) (d q : Nat), (s.m.getSlot (sl * 4096 + headIdx s.m sl)).st = 2 →
      docketOf (s.m.getSlot (sl * 4096 + headIdx s.m sl)) = d → dkQUEUE d = q →
      dkNOP d = false → dkInvalid d = false → dkMCAST d = false → dkMETER d = false →
      s.m.g (TM_QPOL_VALID q) = 1 → s.m.g (TM_QPOL_OPEN q) = 1 → s.m.g (TM_QPOL_SPILL_EN q) = 0 →
      s.m.g (TM_QPOL_WRED_G q) = 0 → s.m.g (TM_QPOL_WRED_Y q) = 0 → s.m.g (TM_QPOL_WRED_R q) = 0 →
      s.m.g (TM_QOCC_OCC q) + dkBobbins d ≤ s.m.g (TM_QCFG_LIMIT q) → (s.m.getTq q).spilling = false →
      dkBobbins d - (s.m.g (TM_QCFG_MIN q) - s.m.g (TM_QOCC_OCC q)) ≤ s.m.g TM_STATUS_SHARED_FREE →
      Does (.enqueue sl) s fun t =>
        ∃ p : Pkt, (t.getTq q).pkts = (s.m.getTq q).pkts ++ [p] ∧ p.len = dkLEN d ∧ p.slice = sl ∧ p.user = dkUSER d) ∧
    (∀ (sl : Fin 256) (slot : Fin 4096), (s.m.getSlot (sl * 4096 + slot)).st = 1 →
      Does (.slotFillTimeout sl slot) s fun t => (t.getSlot (sl * 4096 + slot)).st = 3) ∧
    (∀ sl : Fin 256, (s.m.getSlot (sl * 4096 + headIdx s.m sl)).st = 0 → sringIdle s.m sl = false →
      Does (.slotHeadTimeout sl) s fun t => (t.getSlot (sl * 4096 + headIdx s.m sl)).st = 3) ∧
    (∀ sl : Fin 256, (s.m.getSlot (sl * 4096 + headIdx s.m sl)).st = 3 →
      Does (.slotReturn sl) s fun t =>
        (t.getSlot (sl * 4096 + headIdx s.m sl)).st = 0 ∧
        t.g (TM_SRING_STATUS_RETURNED sl) = (s.m.g (TM_SRING_STATUS_RETURNED sl) + 1) % 2 ^ 32) ∧
    (∀ sl : Fin 256, s.m.g (TM_SRING_RET_ADDR sl) ≠ 0 → (s.m.getSrx sl).since ≠ 0 →
      Does (.returnRecordTimeout sl) s fun t =>
        (t.getSrx sl).since = 0 ∧
        ∃ r : Msg, [r] ∈ t.getXin (epTM * 8 + 4) ∧ r.op = .ioWr ∧ r.addr = s.m.g (TM_SRING_RET_ADDR sl) * 64) ∧
    (∀ (p : Path) (sl : Fin 256) (on : Bool), LandsIn s.m p (TM_SRING_CTL_ENABLE sl) (flag on) →
      Does (.slotRingEnable p sl on) s fun t => t.g (TM_SRING_CTL_ENABLE sl) = flag on) ∧
    (∀ (p : Path) (q : Fin 32768), LandsAll s.m p ⟨.TM_CMD, 0⟩ [(TM_CMD_QUEUE, q), (TM_CMD_OP, 1)] →
      Does (.flushQueue p q) s fun t => backlog t q = [] ∧ t.g TM_CMD_STATUS_BUSY = 1) ∧
    Does .flushQueueDone s (fun t => t.g TM_CMD_STATUS_BUSY = 0) ∧
    (∀ p : Path, LandsIn s.m p TM_CTL_CLR_CNT 1 →
      Does (.tmClrCnt p) s fun t => ∀ c < 21, t.g (TM_CNT_COUNT c) = 0)

/-- Metering, the push, the scheduler and its sweeps, and the gates (R181, R192, R198-R205, R213-R216): the buckets that a
visit credits, the packet that a decision selects and the push that takes it, and what the gates hold at each boundary.
Where it rests on a choice of the model, the choice is logged (notes/assumptions: 2, 12, 144-146). -/
def Obligations.SchedulingCompletes : Prop :=
  ∀ s : State, s.Inv → domSt s.m dTM = dsON →
    (∀ f : Fin 1048576, flVALID s.m f = true →
      Does (.meterSweep f) s fun t =>
        let o := meterCredit (s.m.g (TM_MPROF_TYPE (flPROFILE s.m f))) (s.m.g (TM_MPROF1_CIR (flPROFILE s.m f)))
          (s.m.g (TM_MPROF1_PIR (flPROFILE s.m f))) (s.m.g (TM_MPROF2_CBS (flPROFILE s.m f)))
          (s.m.g (TM_MPROF2_PBS (flPROFILE s.m f))) (s.m.g (FLW_W0_TC f)) (s.m.g (FLW_W0_TP f)) (s.m.g (FLW_W1_LAST f))
          (now8 s.m)
        t.g (FLW_W0_TC f) = o.1 % 2 ^ 28 ∧ t.g (FLW_W0_TP f) = o.2.1 % 2 ^ 28 ∧ t.g (FLW_W1_LAST f) = o.2.2 % 2 ^ 32) ∧
    (∀ (c : Fin 512) (p : Pkt) (l : List Pkt), s.m.getPush c = p :: l → p.mcast = false →
      (p.spilled = true → p.asked = true ∧ p.reads = []) →
      s.m.g (TM_CHAN_EGR_VALID c) = 1 → rxValid s.m (s.m.g (TM_CHAN_EGR_RING c)) = true →
      portUp s.m (rxPort s.m (s.m.g (TM_CHAN_EGR_RING c))) = true → rxRoom s.m (s.m.g (TM_CHAN_EGR_RING c)) p = true →
      ∀ (fixed : List Nat) (bad : List (Nat × Nat × Nat)), Does (.egressPush c fixed bad) s fun t =>
        t.getPush c = [] ∧ t.g (TM_CH_ST_PUSH_WAIT c) = 0) ∧
    (∀ (lane : Fin 4) (v p : Nat) (dc db dq : Drr) (pkt : Pkt) (l : List Pkt),
      (lanePorts s.m lane).findSome? (fun v => (pickChannel s.m v).map (fun d => (v, d))) = some (v, dc) →
      pickBundle s.m dc.child = some (p, db) → pickQueue s.m dc.child db.child = some dq →
      backlog s.m dq.child = pkt :: l →
      Does (.select lane) s fun t =>
        t.getLane lane = v ∧
        ∃ k : Pkt, t.getPush dc.child = [k] ∧ k.len = pkt.len ∧ k.user = pkt.user ∧ (pkt.spilled = false → k = pkt)) ∧
    (∀ (lv : Fin 4) (n : Fin 32768) (cir pir cbs pbs : Nat) (c p : Int), shaperCfg s.m lv n = (cir, pir, cbs, pbs) →
      s.m.getBuck (lv * 65536 + n) = (c, p) →
      Does (.shaperRefill lv n) s fun t =>
        t.getShp (lv * 65536 + n) = (cir, pir, cbs, pbs) ∧ t.getBuck (lv * 65536 + n) =
          (min ((cbs * 65536 : Nat) : Int) (c + ((cir * shaperPeriod lv * 65536 / 1000000 : Nat) : Int)),
           min ((pbs * 65536 : Nat) : Int) (p + ((pir * shaperPeriod lv * 65536 / 1000000 : Nat) : Int)))) ∧
    (∀ (q : Fin 32768) (round d : Nat), backlog s.m q = [] → s.m.g (TM_BND_ST_ROUND (s.m.g (TM_QSCH_BUNDLE q))) = round →
      idxDiff round (s.m.g (TM_QSCH_ST_LAST_ROUND q)) = d → 1 ≤ d → 0 < s.m.g (TM_QSCH_QUANTUM q) →
      Does (.drrSweep q) s fun t =>
        t.g (TM_QSCH_ST_LAST_ROUND q) = idxDiff round (Nat.min d (Nat.max 1
          ((s.m.g (TM_QSCH_BURST q) * 64 + s.m.g (TM_QSCH_QUANTUM q) - 1) / s.m.g (TM_QSCH_QUANTUM q))))) ∧
    (∀ (c : Fin 512) (i left : Nat), s.m.g (TM_CH_CFG_GATED c) = 1 → s.m.g (TM_GATE_CTL_STARTED c) = 1 →
      gateNow s.m c = some (i, left) →
      Does (.gateEntryBoundary c) s fun t =>
        t.g (TM_GATE_ST_ENTRY c) = i % 2 ^ 10 ∧
        t.g (TM_GATE_ST_OPEN c) = ((gateList s.m c (s.m.g (TM_GATE_CTL_BANK c))).getD i (0, 0)).1 % 2 ^ 8) ∧
    (∀ c : Fin 512, s.m.g (TM_CH_CFG_GATED c) = 1 → s.m.g (TM_GATE_CTL_STARTED c) = 0 → s.m.g TB_STATUS_SET = 1 →
      2 * gbBASE s.m c (s.m.g (TM_GATE_CTL_BANK c)) ≤ s.m.tmT →
      Does (.gateStart c) s fun t => t.g (TM_GATE_CTL_STARTED c) = 1) ∧
    (∀ (p : Path) (c : Fin 512), LandsIn s.m p (TM_GATE_CTL_CHANGE c) 1 →
      Does (.gateChange p c) s fun t => t.g (TM_GATE_CTL_PENDING c) = 1) ∧
    (∀ c : Fin 512, s.m.g (TM_GATE_CTL_PENDING c) = 1 → s.m.g (TM_GATE_SWT_TIME64 c) ≤ s.m.tm64 →
      Does (.gateSwitch c) s fun t =>
        t.g (TM_GATE_CTL_BANK c) = 1 - s.m.g (TM_GATE_CTL_BANK c) ∧ t.g (TM_GATE_CTL_PENDING c) = 0)

/-- The time base and the gate lists as software sees them (R208, R212, R217): SET, ARM and STEP, CLR_CNT, a read of the
nanoseconds, which latches the seconds, and the data register of the gate lists, whose index advances. -/
def Obligations.TimeBaseCompletes : Prop :=
  ∀ s : State, s.Inv →
    (∀ (p : Path) (ns : Nat), ns < 1000000000 →
      LandsAll s.m p ⟨.TB_TOD_CTL, 0⟩ [(TB_TOD_CTL_NS, ns), (TB_TOD_CTL_SET, 1)] →
      Does (.todSet p ns) s fun t =>
        t.tb.sec = s.m.g TB_TOD_SEC ∧ t.tb.ns = ns ∧ t.g TB_STATUS_SET = 1) ∧
    (∀ (p : Path) (ns : Nat), ns < 1000000000 →
      LandsAll s.m p ⟨.TB_TOD_CTL, 0⟩ [(TB_TOD_CTL_NS, ns), (TB_TOD_CTL_ARM, 1)] →
      Does (.todArm p ns) s fun t => t.g TB_TOD_CTL_ARM = 1 ∧ t.g TB_TOD_CTL_NS = ns) ∧
    (∀ (p : Path) (offset : BitVec 32), LandsIn s.m p TB_STEP_OFFSET offset.toNat →
      Does (.timeStepOffset p offset) s fun t =>
        (t.tns : Int) = ((s.m.tns : Int) + toSigned 32 offset.toNat) % ((2 ^ 48 * 1000000000 : Nat) : Int)) ∧
    (∀ p : Path, LandsIn s.m p TB_CTL_CLR_CNT 1 →
      Does (.tbClrCnt p) s fun t => t.rd ⟨.TB_CNT, 0⟩ = 0#64) ∧
    (∀ p : Path, reaches s.m p (⟨.TB_TIME_NS, 0⟩ : Reg).addr false 0 = true →
      Does (.tbTimeNsRead p) s fun t =>
        Out.read (⟨.TB_TIME_NS, 0⟩ : Reg).addr s.m.tb.ns ∈ t.out ∧ t.g TB_TIME_SEC_SEC = s.m.tb.sec % 2 ^ 48) ∧
    (∀ (p : Path) (data : Word), Lands s.m p ⟨.TM_GCL_DATA, 0⟩ data.toNat (2 ^ 64 - 1) →
      Does (.gclDataAccess p (some data)) s fun t =>
        t.getGcl (gclKey s.m) = (bitsAt data.toNat 0 8, bitsAt data.toNat 8 32) ∧
        t.g TM_GCL_SEL_INDEX = (s.m.g TM_GCL_SEL_INDEX + 1) % 2 ^ 10) ∧
    (∀ p : Path, reaches s.m p (⟨.TM_GCL_DATA, 0⟩ : Reg).addr false 0 = true →
      Does (.gclDataAccess p none) s fun t => t.g TM_GCL_SEL_INDEX = (s.m.g TM_GCL_SEL_INDEX + 1) % 2 ^ 10)

/-- The rings (R225, R226, R233, R234, R236-R238, R241, R246, R247, R249, R251): doorbells move the index that they
write, fetch reads go out and come back or put the ring in ERROR, an entry is handed to a Loom thread, a finished job's
result reaches its completion ring, and the states of a ring change as its enable and its stop say. -/
def Obligations.RingsComplete : Prop :=
  ∀ s : State, s.Inv →
    (∀ (v : Fin 64) (sl : Fin 256) (data : Word) (r idx : Nat), bitsAt data.toNat 0 15 = r → bitsAt data.toNat 32 32 = idx →
      bitsAt data.toNat 15 17 = 0 → s.m.g (TEN_STATUS_VALID sl) = 1 → s.m.g (TEN_STATUS_VCS sl) = v →
      s.m.g (RNG_CFG_VALID r) = 1 → s.m.g (RNG_CFG_SLICE r) = sl → s.m.g (RNG_STATUS_STATE r) = rsRUNNING →
      (s.m.g (RNG_CFG_TYPE r) = 0 → idxDiff idx (s.m.g (RNG_IDX_PROD r)) < 2 ^ 31 →
        idxDiff idx (s.m.g (RNG_IDX_CONS r)) ≤ ringSize s.m r →
        Does (.doorbellProducer v sl true data) s fun t => t.g (RNG_IDX_PROD r) = idx) ∧
      (s.m.g (RNG_CFG_TYPE r) ≠ 0 → idxDiff idx (s.m.g (RNG_IDX_CONS r)) < 2 ^ 31 →
        idxDiff idx (s.m.g (RNG_IDX_CONS r)) ≤ idxDiff (s.m.g (RNG_IDX_PROD r)) (s.m.g (RNG_IDX_CONS r)) →
        Does (.doorbellConsumer v sl true data) s fun t => t.g (RNG_IDX_CONS r) = idx)) ∧
    (∀ (r : Fin 32768) (st n : Nat), (s.m.getRing r).issued = st →
      Nat.min (Nat.min 8 (idxDiff (s.m.g (RNG_IDX_PROD r)) st))
        (Nat.min (64 - idxDiff st (s.m.g (RNG_IDX_CONS r))) (ringSize s.m r - st % ringSize s.m r)) = n →
      s.m.g (RNG_CFG_VALID r) = 1 → s.m.g (RNG_CFG_TYPE r) = 0 → s.m.g (RNG_STATUS_STATE r) = rsRUNNING → 0 < n →
      Does (.fetchIssue r) s fun t =>
        (t.getRing r).issued = (st + n) % 2 ^ 32 ∧ (t.getRing r).fetches = (s.m.getRing r).fetches ++ [(st, n)] ∧
        ∃ q : Msg, [q] ∈ t.getXin (epRNG * 8 + 4) ∧ q.op = .ioRd ∧ q.tag = st ∧ q.addr = slotAddr s.m r st) ∧
    (∀ (r : Fin 32768) (start n : Nat) (data : List Word),
      (s.m.getRing r).fetches.find? (fun f => f.1 = start) = some (start, n) →
      Does (.fetchCompletion r start true false data) s fun t =>
        (t.getRing r).fetches = (s.m.getRing r).fetches.filter (fun f => f.1 ≠ start) ∧
        t.g (RNG_PROG_FETCHED r) = (((((s.m.getRing r).fetches.filter (fun f => f.1 ≠ start)).head?).map (·.1)).getD
          (s.m.getRing r).issued) % 2 ^ 32) ∧
    (∀ (r : Fin 32768) (start : Nat), (∃ n, (start, n) ∈ (s.m.getRing r).fetches) →
      s.m.g (RNG_STATUS_STATE r) = rsRUNNING →
      (∀ (ok poison : Bool) (data : List Word), ok = false ∨ poison = true →
        Does (.fetchCompletion r start ok poison data) s fun t =>
          t.g (RNG_STATUS_STATE r) = rsERROR ∧ t.g (RNG_STATUS_ERR_CAUSE r) = rcFETCH_ERROR ∧
          t.g (RNG_STATUS_ERR_INDEX r) = start % 2 ^ 32) ∧
      Does (.fetchTimeout r start) s fun t =>
        t.g (RNG_STATUS_STATE r) = rsERROR ∧ t.g (RNG_STATUS_ERR_CAUSE r) = rcFETCH_TIMEOUT ∧
        t.g (RNG_STATUS_ERR_INDEX r) = start % 2 ^ 32) ∧
    (∀ (h r : Nat) (l el : List Nat), freeThread s.m = some h → (validRings s.m).filter (ringEligible s.m) = el →
      (0 < s.m.rrBurst ∧ ringEligible s.m r = true ∧ s.m.rrLast = r) ∨
        ((s.m.rrBurst = 0 ∨ ringEligible s.m s.m.rrLast = false) ∧
          rrOrder s.m (el.filter fun q => 0 < (if el.all (fun x => (s.m.getRing x).credit = 0) then
            s.m.g (RNG_CFG_WEIGHT q) else (s.m.getRing q).credit)) = r :: l) →
      Does .ringDispatch s fun t => t.rrLast = r ∧ (t.getJob h).sub = r ∧ (t.getJob h).st ≠ 0) ∧
    (∀ h : Fin 4096, (s.m.getJob h).st = 2 →
      Does (.jobComplete h) s fun t =>
        t.getJob h = {} ∧
        (s.m.g (RNG_STATUS_STATE (s.m.getJob h).comp) = rsRUNNING → (s.m.getRing (s.m.getJob h).comp).hostLost = false →
          (s.m.getJob h).compGen = (s.m.getRing (s.m.getJob h).comp).gen →
          (s.m.getJob h).subGen = (s.m.getRing (s.m.getJob h).sub).gen →
          s.m.g (RNG_STATUS_ERR_CAUSE (s.m.getJob h).sub) ≠ rcCOMPLETION_ERROR →
          (s.m.getRing (s.m.getJob h).comp).held = [] → compRoom s.m (s.m.getJob h).comp = true →
          t.g (RNG_IDX_PROD (s.m.getJob h).comp) = (s.m.g (RNG_IDX_PROD (s.m.getJob h).comp) +
            2 ^ s.m.g (RNG_CFG_ESLOTS_LOG2 (s.m.getJob h).comp)) % 2 ^ 32)) ∧
    (∀ r : Fin 32768, (s.m.getRing r).modRuns = true → s.m.g (RNG_CTL_IRQ_EN r) = 1 →
      Does (.irqModerationTimeout r) s fun t =>
        (t.getRing r).sinceIrq = 0 ∧ (t.getRing r).modRuns = false ∧
        (s.m.g (RNG_CTL_VECTOR r) ∈ (s.m.getSf (s.m.g (TEN_STATUS_VCS (s.m.g (RNG_CFG_SLICE r))))).unmasked →
          ∃ q : Msg, [q] ∈ t.getXin (epRNG * 8 + ringCls s.m r) ∧ q.op = .msix ∧ q.tag = s.m.g (RNG_CTL_VECTOR r))) ∧
    (∀ (p : Path) (r : Fin 32768), LandsIn s.m p (RNG_CTL_ENABLE r) 1 → s.m.g (RNG_CTL_ENABLE r) = 0 →
      s.m.g (RNG_STATUS_STATE r) = rsDISABLED →
      Does (.ringEnable p r) s fun t =>
        t.g (RNG_STATUS_STATE r) = rsRUNNING ∧ t.g (RNG_IDX_PROD r) = 0 ∧ t.g (RNG_IDX_CONS r) = 0) ∧
    (∀ (p : Path) (r : Fin 32768), LandsIn s.m p (RNG_CTL_ENABLE r) 0 → s.m.g (RNG_CTL_ENABLE r) = 1 →
      s.m.g (RNG_STATUS_STATE r) = rsRUNNING ∨ s.m.g (RNG_STATUS_STATE r) = rsERROR →
      Does (.ringDisable p r) s fun t => t.g (RNG_STATUS_STATE r) = rsSTOPPING) ∧
    (∀ (p : Path) (r : Fin 32768), LandsIn s.m p (RNG_CTL_CLR_CNT r) 1 →
      Does (.ringClrCnt p r) s fun t => t.rd ⟨.RNG_CNT, r⟩ = 0#64) ∧
    (∀ r : Fin 32768, s.m.g (RNG_STATUS_STATE r) = rsSTOPPING →
      (s.m.g (RNG_PROG_OWED r) = 0 → (s.m.getRing r).inFlight = 0 →
        Does (.ringStopped r) s fun t => t.g (RNG_STATUS_STATE r) = rsDISABLED ∧ t.g (RNG_CTL_ENABLE r) = 0) ∧
      Does (.ringStopTimeout r) s fun t =>
        t.g (RNG_STATUS_STATE r) = rsDISABLED ∧ t.g (RNG_STATUS_ERR_CAUSE r) = rcSTOP_TIMEOUT) ∧
    (∀ (v : Fin 64) (bme pasid tph : Bool), Does (.sfConfigWrite v bme pasid tph) s fun t =>
      (t.getSf v).bme = bme ∧ (t.getSf v).pasid = pasid ∧ (t.getSf v).tph = tph) ∧
    (∀ v : Fin 64, Does (.functionLevelReset v) s fun t =>
      t.getSf v = ⟨false, false, false, [], []⟩ ∧
      ∀ (sl r : Nat), sl < 256 → s.m.g (TEN_STATUS_VALID sl) = 1 → s.m.g (TEN_STATUS_VCS sl) = v →
        s.m.g (RNG_CFG_VALID r) = 1 → s.m.g (RNG_CFG_SLICE r) = sl →
        s.m.g (RNG_STATUS_STATE r) = rsRUNNING ∨ s.m.g (RNG_STATUS_STATE r) = rsERROR →
        t.g (RNG_STATUS_STATE r) = rsSTOPPING)

/-- The Loom engines (R252-R254, R263, R268, R276, R279): the answer to an access is taken by its thread, a timeout ends
its item, clusters leave and come back, tables are enabled, and the clears clear. -/
def Obligations.LoomCompletes : Prop :=
  ∀ s : State, s.Inv →
    (∀ (id h : Nat) (a : LAcc) (bad : Bool), s.m.getAcc id = a → a.thread = h → h < 4096 → a.sort ≠ 1 →
      id < s.m.accNext → a.st = 2 ∨ (a.st = 1 ∧ a.sort = 3 ∧ a.bank < 4) →
      bad = false ∨ a.sort = 3 ∨ 4 ≤ a.bank ∨ kFind s.m a.bank (lineOf a.addr) = none →
      Does (.loomAccessResponse id bad) s fun t =>
        t.getAcc id = {} ∧
        (a.sort = 2 → a.poison = false → a.item < (s.m.getJob h).items.length →
          ((t.getJob h).items.getD a.item {}).st = 2 ∧ ((t.getJob h).items.getD a.item {}).buf = a.data)) ∧
    (∀ (id w : Nat) (a : LAcc), s.m.getAcc id = a → a.thread < 4096 → a.sort ≠ 1 → a.sort ≠ 3 → a.bank < 4 → a.st = 2 →
      id < s.m.accNext → kFind s.m a.bank (lineOf a.addr) = some w →
      Does (.loomAccessResponse id true) s fun t =>
        (t.getKline (kKey a.bank (lineOf a.addr) w)).st = 0 ∧
        ((s.m.getKline (kKey a.bank (lineOf a.addr) w)).st = 3 → t.getAcc id = {})) ∧
    (∀ (id h : Nat) (a : LAcc), s.m.getAcc id = a → a.thread = h → h < 4096 → a.sort ≠ 1 → id < s.m.accNext → a.st ≠ 0 →
      Does (.loomAccessTimeout id) s fun t =>
        t.getAcc id = {} ∧
        (a.item < (s.m.getJob h).items.length →
          ((t.getJob h).items.getD a.item {}).st = 2 ∧ ((t.getJob h).items.getD a.item {}).err = true)) ∧
    (∀ (p : Path) (clusters : Fin 256) (c : Fin 8), LandsIn s.m p LM_CL_CTL_OUT clusters → bitsAt clusters c 1 = 1 →
      bitsAt (s.m.g LM_CL_CTL_OUT) c 1 = 0 → s.m.g (clState c) = clSERVICE →
      Does (.clusterOut p clusters) s fun t => t.g (clState c) = clDRAINING) ∧
    (∀ c : Fin 8, s.m.g (clState c) = clDRAINING → clBusy s.m c = 0 → clHeld s.m c = false →
      Does (.clusterDrained c) s fun t => t.g (clState c) = clTEST) ∧
    (∀ (p : Path) (clusters : Fin 256) (c : Fin 8), LandsIn s.m p LM_CL_CTL_RETURN clusters → bitsAt clusters c 1 = 1 →
      s.m.g (clState c) = clTEST ∨ s.m.g (clState c) = clLOST → domOn s.m (dLM c) = true →
      Does (.clusterReturn p clusters) s fun t => t.g (clState c) = clSERVICE) ∧
    (∀ (p : Path) (n : Fin 1024) (on : Bool), LandsIn s.m p (LM_TBL_CFG_ENABLE n) (flag on) →
      Does (.tableEnable p n on) s fun t => t.g (LM_TBL_CFG_ENABLE n) = flag on) ∧
    (∀ p : Path, LandsIn s.m p LM_CTL_CLR_CNT 1 →
      Does (.lmClrCnt p) s fun t => ∀ c < 10, t.g (LM_CNT_COUNT c) = 0) ∧
    (∀ p : Path, LandsIn s.m p LM_CTL_PRED_CLR 1 → Does (.predClr p) s fun t => t.pred = [])

/-- The Kiosk (R271-R276, R279, Table 10.7): a fill's response is gathered and serves the access that waits for it, a snoop
is answered with a writeback where the line is M, a steered fill takes its way, and banks and the flush do as they are
commanded. Where it rests on a choice of the model, the choice is logged (notes/assumptions: 31, 32). -/
def Obligations.KioskCompletes : Prop :=
  ∀ s : State, s.Inv → ∀ b : Fin 4,
    (∀ (q : Msg) (e : KMiss), missOf s.m b (lineOf q.addr) = some e → e.way < 16 → q.x ≠ [1] → q.op = .memData →
      e.grant = 0 →
      Does (.kioskFillData b q) s fun t =>
        missOf t b (lineOf q.addr) = some { e with data := some (q.data, q.poison) }) ∧
    (∀ (q : Msg) (e : KMiss) (g : Nat), missOf s.m b (lineOf q.addr) = some e → e.way < 16 → q.x ≠ [1] →
      (q.op = .cmpS ∧ g = 1) ∨ (q.op = .cmpE ∧ g = 2) → e.data = none →
      (s.m.getKline (kKey b e.line e.way)).st = 0 ∨ (s.m.getKline (kKey b e.line e.way)).line ≠ e.line →
      Does (.kioskFillData b q) s fun t => missOf t b (lineOf q.addr) = some { e with grant := g }) ∧
    (∀ (q : Msg) (e : KMiss) (id : Nat) (d : List Word), missOf s.m b (lineOf q.addr) = some e → e.way < 16 → q.x ≠ [1] →
      (q.op = .memData ∧ (e.grant = 1 ∨ e.grant = 2) ∧ d = q.data) ∨
        ((q.op = .cmpS ∨ q.op = .cmpE) ∧ (e.data.map (·.1) = some d ∨
          (e.data = none ∧ (s.m.getKline (kKey b e.line e.way)).st ≠ 0 ∧
            (s.m.getKline (kKey b e.line e.way)).line = e.line ∧ (s.m.getKline (kKey b e.line e.way)).data = d))) →
      e.snoop = none → e.wait = [id] →
      kFind s.m b (lineOf q.addr) = none ∨ kFind s.m b (lineOf q.addr) = some e.way →
      (s.m.getAcc id).st = 1 → (s.m.getAcc id).sort = 0 → (s.m.getAcc id).thread < 4096 →
      lineOf (s.m.getAcc id).addr = lineOf q.addr →
      Does (.kioskFillData b q) s fun t =>
        (t.getAcc id).st = 2 ∧ (t.getAcc id).data = d ∧ missOf t b (lineOf q.addr) = none) ∧
    (∀ (q : Msg) (e : KMiss), missOf s.m b (lineOf q.addr) = some e → e.way < 16 →
      q.x = [1] ∨ q.op = .cmp →
      Does (.kioskFillData b q) s fun t => missOf t b (lineOf q.addr) = none) ∧
    (∀ (q : Msg) (bad : Bool),
      (∀ e, missOf s.m b (lineOf q.addr) = some e → e.data.isSome ∨ e.grant ≠ 0 →
        Does (.kioskSnoop b q bad) s fun t => missOf t b (lineOf q.addr) = some { e with snoop := some q }) ∧
      ((∀ e, missOf s.m b (lineOf q.addr) = some e → e.data = none ∧ e.grant = 0) →
        Does (.kioskSnoop b q bad) s fun t =>
          (∃ a : Msg, [a] ∈ t.getXin (epKsk b * 8 + 1) ∧ a.out = q.inp ∧ a.addr = q.addr ∧
            a.op = (if bad = false ∧ q.op = .bisnpData ∧ (kFind s.m b (lineOf q.addr)).isSome then Op.birspS
              else Op.birspI)) ∧
          (∀ w, kFind s.m b (lineOf q.addr) = some w → (s.m.getKline (kKey b (lineOf q.addr) w)).st = 3 →
            ∃ a : Msg, [a] ∈ t.getXin (epKsk b * 8 + 3) ∧ a.addr = lineOf q.addr ∧
              a.data = (s.m.getKline (kKey b (lineOf q.addr) w)).data ∧
              (bad = true → a.poison = true)))) ∧
    (∀ (q : Msg) (w : Nat), s.m.g KSK_CTL_STEER_EN = 1 →
      kFind s.m b (lineOf q.addr) = some w ∨ (kFind s.m b (lineOf q.addr) = none ∧ missOf s.m b (lineOf q.addr) = none ∧
        kskVictim s.m b (lineOf q.addr) = some w) →
      Does (.kioskSteeredFill b q) s fun t =>
        (t.getKline (kKey b (lineOf q.addr) w)).st = 1 ∧ (t.getKline (kKey b (lineOf q.addr) w)).line = lineOf q.addr ∧
        (t.getKline (kKey b (lineOf q.addr) w)).data = q.data) ∧
    (∀ q : Msg, s.m.g KSK_CTL_STEER_EN = 0 →
      Does (.kioskSteeredFill b q) s fun t =>
        t.g (KSK_CNT_COUNT kkSTEER_DROP) = Nat.min (s.m.g (KSK_CNT_COUNT kkSTEER_DROP) + 1) (2 ^ 64 - 1)) ∧
    (∀ (p : Path) (banks : Fin 16), LandsIn s.m p KSK_BANK_CTL_OUT banks → bitsAt banks b 1 = 1 →
      bitsAt (s.m.g KSK_BANK_CTL_OUT) b 1 = 0 → s.m.g (kskState b) = kbSERVICE →
      Does (.kskBankOut p banks) s fun t => t.g (kskState b) = kbDRAINING) ∧
    (s.m.g (kskState b) = kbDRAINING → s.m.getKmiss b = [] →
      Does (.kskBankDrained b) s fun t => t.g (kskState b) = kbTEST) ∧
    (∀ (p : Path) (banks : Fin 16), LandsIn s.m p KSK_BANK_CTL_RETURN banks → bitsAt banks b 1 = 1 →
      s.m.g (kskState b) = kbTEST ∨ s.m.g (kskState b) = kbLOST → domOn s.m (dKSK b) = true →
      Does (.kskBankReturn p banks) s fun t => t.g (kskState b) = kbSERVICE) ∧
    (∀ p : Path, LandsIn s.m p KSK_CTL_FLUSH 1 →
      Does (.kioskFlush p) s fun t =>
        t.g KSK_STATUS_FLUSH_BUSY = 1 ∧
        ∀ line w : Nat, w < 16 → (s.m.getKline (kKey b line w)).line = line → (t.getKline (kKey b line w)).st = 0) ∧
    Does .kioskFlushDone s (fun t => t.g KSK_STATUS_FLUSH_BUSY = 0) ∧
    (∀ p : Path, LandsIn s.m p KSK_CTL_CLR_CNT 1 →
      Does (.kskClrCnt p) s fun t => ∀ c < 9, t.g (KSK_CNT_COUNT c) = 0)

/-- Tenants and the Kerb (R284, R290-R297, R299, R300, R302): a staged window takes its word, a fence checks, switches,
drains and times out, slices change state, a capture clears, the aperture writes an owned object's context, the debug
master's accesses are checked, and the counters clear. A fence that a policy-only load waits for is the load's (R43). Where
it rests on a choice of the model, the choice is logged (notes/assumptions: 86, 87, 88, 95). -/
def Obligations.KerbCompletes : Prop :=
  ∀ s : State, s.Inv →
    (∀ (p : Path) (n : Fin 16384) (w : Fin 4) (data : Word), Lands s.m p ⟨.KRB_WIN, n * 4 + w⟩ data.toNat (2 ^ 64 - 1) →
      Does (.kerbWindowWrite p n w data) s fun t => t.g (KRB_WIN_WORD (n * 4 + w)) = data.toNat) ∧
    (∀ p : Path, LandsIn s.m p KRB_FENCE_CTL_GO 1 →
      Does (.kerbFenceGo p) s fun t => t.g KRB_FENCE_STATUS_STATE = 1 ∧ t.g KRB_FENCE_STATUS_RESULT = 0) ∧
    (s.m.g KRB_FENCE_STATUS_STATE = 1 →
      winCheck (fun t => s.m.g (TEN_STATUS_VALID t) = 1) [] (windows s.m .KRB_WIN) = none →
      Does .kerbFenceCheckDone s fun t =>
        t.g KRB_FENCE_STATUS_STATE = 2 ∧ t.g KRB_FENCE_STATUS_EPOCH = 1 - s.m.g KRB_FENCE_STATUS_EPOCH) ∧
    (∀ reason w other a : Nat, s.m.g KRB_FENCE_STATUS_STATE = 1 → s.m.ldr.running = none ∨ s.m.ldr.fence = 0 →
      winCheck (fun t => s.m.g (TEN_STATUS_VALID t) = 1) [] (windows s.m .KRB_WIN) = some (reason, w, other, a) →
      Does .kerbFenceCheckDone s fun t =>
        t.g KRB_FENCE_STATUS_STATE = 0 ∧ t.g KRB_FENCE_STATUS_RESULT = 2 ∧ t.g KRB_FENCE_STATUS_REASON = reason % 2 ^ 16 ∧
        t.g KRB_FENCE_STATUS_WINDOW = w % 2 ^ 14 ∧ t.g KRB_FENCE_STATUS_OTHER = other % 2 ^ 14 ∧
        t.g KRB_FENCE_ADDR_ADDR = a % 2 ^ 52 ∧ t.g KRB_FENCE_STATUS_EPOCH = s.m.g KRB_FENCE_STATUS_EPOCH) ∧
    (s.m.g KRB_FENCE_STATUS_STATE = 2 → oldOut s.m = 0 → s.m.ldr.running = none ∨ s.m.ldr.fence = 0 →
      Does .kerbFenceDrained s fun t =>
        t.g KRB_FENCE_STATUS_STATE = 0 ∧
        t.g KRB_FENCE_STATUS_RESULT = (if s.m.g KRB_FENCE_STATUS_RESULT = 3 then 3 else 1)) ∧
    (s.m.g KRB_FENCE_STATUS_STATE = 2 → s.m.g KRB_FENCE_STATUS_RESULT ≠ 3 → 0 < oldOut s.m →
      Does .kerbFenceTimeout s fun t => t.g KRB_FENCE_STATUS_RESULT = 3 ∧ Told 0x0883 s.m t) ∧
    (∀ (p : Path) (sl : Fin 256), LandsIn s.m p (TEN_CTL_ENABLE sl) 1 → s.m.g (TEN_CTL_ENABLE sl) = 0 →
      s.m.g (TEN_STATUS_STATE sl) = slDISABLED ∨ s.m.g (TEN_STATUS_STATE sl) = slSTOPPING →
      Does (.sliceEnable p sl) s fun t => t.g (TEN_STATUS_STATE sl) =
        (if s.m.g (TEN_STATUS_STATE sl) = slDISABLED then slENABLED else slPENDING)) ∧
    (∀ (p : Path) (sl : Fin 256), LandsIn s.m p (TEN_CTL_ENABLE sl) 0 → s.m.g (TEN_CTL_ENABLE sl) = 1 →
      s.m.g (TEN_STATUS_STATE sl) = slENABLED ∨ s.m.g (TEN_STATUS_STATE sl) = slPENDING →
      Does (.sliceDisable p sl) s fun t => t.g (TEN_STATUS_STATE sl) = slSTOPPING) ∧
    (∀ sl : Fin 256, s.m.g (TEN_STATUS_STATE sl) = slSTOPPING ∨ s.m.g (TEN_STATUS_STATE sl) = slPENDING →
      (sliceDrainDone s.m sl = true → Does (.sliceDrained sl) s fun t => t.g (TEN_STATUS_STATE sl) =
        (if s.m.g (TEN_STATUS_STATE sl) = slPENDING then slENABLED else slDISABLED)) ∧
      Does (.sliceStopTimeout sl) s fun t => t.g (TEN_STATUS_STATE sl) =
        (if s.m.g (TEN_STATUS_STATE sl) = slPENDING then slENABLED else slDISABLED)) ∧
    (∀ (p : Path) (sl : Fin 256), LandsIn s.m p (TEN_VIOL_VALID sl) 1 →
      Does (.violationClear p sl) s fun t => t.rd ⟨.TEN_VIOL, sl⟩ = 0#64 ∧ t.g (TEN_VIOL_COUNT_COUNT sl) = 0) ∧
    (∀ (p : Path) (sl : Fin 256) (w : Fin 8) (data : Word),
      reaches s.m p (⟨.TEN_OBJ_DATA, sl * 8 + w⟩ : Reg).addr true data.toNat = true →
      (∀ n, apertureReg s.m sl w = some (true, some ⟨.LM_TBL_PARAM, n⟩) →
        writeTest s.m ⟨.LM_TBL_PARAM, n⟩ data.toNat (2 ^ 64 - 1) p = rcOK →
        (∀ f ∈ s.m.faulty, (⟨.LM_TBL_PARAM, n⟩ : Reg) ∉ f.left) →
        Does (.apertureAccess p sl w (some data)) s fun t => t.g (LM_TBL_PARAM_PARAM n) = data.toNat) ∧
      (apertureReg s.m sl w = none →
        Does (.apertureAccess p sl w (some data)) s fun t => t.g (TEN_OBJ_STATUS_REFUSED sl) = 1)) ∧
    (∀ (p : Path) (sl : Fin 256) (w : Fin 8) (r : Reg),
      reaches s.m p (⟨.TEN_OBJ_DATA, sl * 8 + w⟩ : Reg).addr false 0 = true →
      apertureReg s.m sl w = some (true, some r) →
      Does (.apertureAccess p sl w none) s fun t =>
        Out.read (⟨.TEN_OBJ_DATA, sl * 8 + w⟩ : Reg).addr (liveRead s.m r) ∈ t.out) ∧
    (∀ (a : Nat) (write : Bool) (data : List Word), debugOpen s.m = true → debugVerdict s.m a = none →
      homeHere s.m a = true →
      Does (.debugFabricAccess a write data) s fun t =>
        ∃ q : Msg, [q] ∈ t.getXin (epMG * 8 + if write then 3 else 2) ∧ q.addr = a ∧ q.out = epSq (homeSq a) ∧
          q.op = if write then .memWr else .rdS) ∧
    (∀ (a : Nat) (write : Bool) (data : List Word) (c : Nat) (w : Win), debugOpen s.m = true →
      debugVerdict s.m a = some (c, w) →
      Does (.debugFabricAccess a write data) s fun t =>
        t.g (KRB_CNT_COUNT kcDEBUG_REFUSED) = Nat.min (s.m.g (KRB_CNT_COUNT kcDEBUG_REFUSED) + 1) (2 ^ 64 - 1) ∧
        t.kacc = s.m.kacc ∧ (write = false → Out.debug a (List.replicate 8 (BitVec.allOnes 64)) true ∈ t.out)) ∧
    (∀ (a : Nat) (write : Bool) (data : List Word), debugOpen s.m = false →
      Does (.debugFabricAccess a write data) s fun t => Out.debug a [] false ∈ t.out ∧ t.kacc = s.m.kacc) ∧
    (∀ p : Path, LandsIn s.m p KRB_CTL_CLR_CNT 1 →
      Does (.krbClrCnt p) s fun t => (∀ c < 3, t.g (KRB_CNT_COUNT c) = 0) ∧ t.rd ⟨.KRB_FENCE_CNT, 0⟩ = 0#64)

/-- The Spindle link and its lanes (R305-R307, R313-R316, R318, R320, R321, Table 12.1): the link trains, recovers, falls
silent and is lost, lanes fail and move onto spares, control blocks act, and the link's registers take their writes. A link
in UP that has 16 good lanes goes to RECOVERY and stays there while the partner is not gone. Where it rests on a choice of
the model, the choice is logged (notes/assumptions: 42, 43). -/
def Obligations.SpindleLinkCompletes : Prop :=
  ∀ s : State, s.Inv →
    (∀ p : Path, LandsIn s.m p TWN_SPN_CTL_ENABLE 1 → s.m.g TWN_SPN_STATUS_STATE = spDOWN → domOn s.m dSPN = true →
      fenced s.m = false → Does (.spindleEnable p true) s fun t => t.g TWN_SPN_STATUS_STATE = spTRAINING) ∧
    (∀ p : Path, LandsIn s.m p TWN_SPN_CTL_ENABLE 0 → s.m.g TWN_SPN_CTL_ENABLE = 1 →
      s.m.g TWN_SPN_STATUS_STATE ≤ spRECOVERY →
      Does (.spindleEnable p false) s fun t => t.g TWN_SPN_STATUS_STATE = spDOWN) ∧
    (s.m.g TWN_SPN_STATUS_STATE = spUP → 16 ≤ (goodLogical s.m).length → s.m.g TWN_SPN_STATUS_PARTNER_GONE = 0 →
      (∀ p : Path, LandsIn s.m p TWN_SPN_CTL_RETRAIN 1 →
        Does (.spindleRetrain p) s fun t => t.g TWN_SPN_STATUS_STATE = spRECOVERY ∧ t.spn.wide = true) ∧
      Does .spindleSilence s fun t => t.g TWN_SPN_STATUS_STATE = spRECOVERY) ∧
    (∀ p : Path, LandsIn s.m p TWN_SPN_CTL_CLR_CNT 1 →
      Does (.spindleClrCnt p) s fun t => ∀ c < 16, t.g (TWN_SPN_CNT_COUNT c) = 0) ∧
    (s.m.g TWN_SPN_STATUS_STATE = spTRAINING → s.m.g TWN_SPN_STATUS_ID_CONFLICT = 0 → 16 ≤ (goodLogical s.m).length →
      Does .spindleTrained s fun t =>
        t.g TWN_SPN_STATUS_STATE = spUP ∧ t.g TWN_SPN_RXSEQ_RX_NEXT = 0 ∧ t.g TWN_SPN_TXSEQ_TX_NEXT = 0 ∧ t.reel = [] ∧
        ((goodLogical s.m).length = 32 → t.g TWN_SPN_STATUS_WIDTH = 32) ∧
        ((goodLogical s.m).length ≠ 32 → s.m.g TWN_CFG_SPARES_ENABLE = 0 → t.g TWN_SPN_STATUS_WIDTH = 16)) ∧
    (s.m.g TWN_SPN_STATUS_STATE = spTRAINING →
      Does .spindleTrainTimeout s fun t => t.g TWN_SPN_FAIL_FAILED = 0 ∧ t.g TWN_SPN_STATUS_ID_CONFLICT = 0) ∧
    (s.m.g TWN_SPN_STATUS_STATE = spRECOVERY →
      (16 ≤ (goodLogical s.m).length → Does .spindleRecoveryDone s fun t =>
        t.g TWN_SPN_STATUS_STATE = spUP ∧ t.g TWN_SPN_STATUS_NAK_PENDING = 1 ∧ ∀ pk ∈ s.m.reel, Out.packet pk ∈ t.out) ∧
      Does .spindleRecoveryTimeout s fun t =>
        t.reel = [] ∧ (t.g TWN_SPN_STATUS_STATE = spDOWN ∨ t.g TWN_SPN_STATUS_STATE = spTRAINING)) ∧
    (∀ l : Fin 34, bitsAt (s.m.g TWN_SPN_FAIL_FAILED) l 1 = 0 →
      s.m.g TWN_SPN_STATUS_STATE = spTRAINING ∨
        (s.m.g TWN_SPN_STATUS_STATE = spUP ∧ 17 ≤ (goodLogical s.m).length ∧ s.m.g TWN_SPN_STATUS_PARTNER_GONE = 0) →
      Does (.alignmentLost l) s fun t =>
        bitsAt (t.g TWN_SPN_FAIL_FAILED) l 1 = 1 ∧ t.g (TWN_SPN_LANE_FAILED l) = 1 ∧
        (s.m.g TWN_SPN_STATUS_STATE = spUP → (activeFor s.m l).isSome → t.g TWN_SPN_STATUS_STATE = spRECOVERY)) ∧
    (∀ (l : Fin 34) (corr uncorr : Nat), s.m.g TWN_SPN_STATUS_STATE ≠ spDOWN →
      Does (.laneWindowEnd l corr uncorr) s fun t =>
        t.g (TWN_SPN_LANE_CORR l) = Nat.min corr 0xFFFFF ∧ t.g (TWN_SPN_LANE_UNCORR l) = Nat.min uncorr 0xFFF) ∧
    (∀ (l : Fin 34) (signal : Bool), Does (.laneSignalLost l signal) s fun t =>
      t.g (TWN_SPN_LANE_LOCK l) = 0 ∧ (signal = true → t.g (TWN_SPN_LANE_SIGNAL l) = 0)) ∧
    (∀ l : Fin 34, domOn s.m dSPN = true →
      Does (.laneSignalDetected l) s fun t =>
        t.g (TWN_SPN_LANE_SIGNAL l) = 1 ∧ t.g TWN_SPN_STATUS_PARTNER_GONE = 0) ∧
    (s.m.g TWN_SPN_STATUS_STATE ≠ spUP → domOn s.m dSPN = true → (∀ l < 34, s.m.g (TWN_SPN_LANE_SIGNAL l) = 0) →
      Does .partnerSilent s fun t => t.g TWN_SPN_STATUS_PARTNER_GONE = 1)

/-- Control blocks and data packets on the Spindle (R308, R309, R313-R316, R318-R320, Tables 12.3, 12.5): acknowledgement,
credit limits, replay, spares, the partner's lanes, and a packet that is accepted, discarded or answered with a NAK. Where
it rests on a choice of the model, the choice is logged (notes/assumptions: 42, 161). -/
def Obligations.SpindleTrafficCompletes : Prop :=
  ∀ s : State, s.Inv →
    (∀ (nak : Bool) (ack : Fin 65536) (limits : List Nat),
      s.m.g TWN_SPN_STATUS_STATE = spUP ∨ s.m.g TWN_SPN_STATUS_STATE = spRECOVERY →
      Does (.statusBlock true nak ack limits) s fun t =>
        (∀ v < 8, t.g (TWN_SPN_CRED_LIMIT v) = nth limits v % 65536) ∧
        t.g TWN_SPN_TXSEQ_ACKED = (if seqCovers ack (s.m.g TWN_SPN_TXSEQ_ACKED) then (ack : Nat)
          else s.m.g TWN_SPN_TXSEQ_ACKED)) ∧
    (s.m.g TWN_SPN_STATUS_STATE ≠ spDOWN → ∀ (nak twin : Bool) (ack first : Fin 65536) (limits : List Nat) (n : Fin 32)
      (sp : Fin 2) (only : Bool) (failed spares : Nat), ∀ c ∈ ([.statusBlock false nak ack limits, .replayBlock false first,
        .spareBlock false n sp only, .linkinfoBlock false twin failed spares] : List Instr),
      Does c s fun t =>
        t.g (TWN_SPN_CNT_COUNT lkCTL_DISCARD) = Nat.min (s.m.g (TWN_SPN_CNT_COUNT lkCTL_DISCARD) + 1) (2 ^ 64 - 1)) ∧
    (∀ first : Fin 65536, s.m.g TWN_SPN_STATUS_STATE = spUP →
      if 1 ≤ (first + 65536 - s.m.g TWN_SPN_RXSEQ_RX_NEXT) % 65536 ∧
          (first + 65536 - s.m.g TWN_SPN_RXSEQ_RX_NEXT) % 65536 ≤ 32767 then
        Does (.replayBlock true first) s (Told 0x0986 s.m)
      else Does (.replayBlock true first) s fun t => t.g TWN_SPN_STATUS_NAK_PENDING = 0) ∧
    (s.m.g TWN_SPN_STATUS_STATE ≠ spDOWN → ∀ (n : Fin 32) (sp : Fin 2),
      Does (.spareBlock true n sp true) s (fun t => t.spn.pfail = s.m.spn.pfail ||| 2 ^ (32 + (sp : Nat))) ∧
      (laneOf s.m n ≠ 32 + sp → 18 ≤ (goodLogical s.m).length → s.m.g TWN_SPN_STATUS_PARTNER_GONE = 0 →
        Does (.spareBlock true n sp false) s fun t =>
          laneOf t n = 32 + sp ∧
          (s.m.g TWN_SPN_STATUS_STATE = spUP → t.g TWN_SPN_STATUS_STATE = spRECOVERY))) ∧
    (∀ (twin : Bool) (failed spares : Nat),
      (s.m.g TWN_SPN_STATUS_STATE = spTRAINING →
        Does (.linkinfoBlock true twin failed spares) s fun t =>
          t.spn.pfail = failed % 2 ^ 34 ∧ (twin = s.m.pins.twinId → t.g TWN_SPN_STATUS_ID_CONFLICT = 1)) ∧
      (s.m.g TWN_SPN_STATUS_STATE = spUP → s.m.g TWN_SPN_STATUS_PARTNER_GONE = 0 →
        16 ≤ (goodLogical { s.m with spn := { s.m.spn with pfail := failed % 2 ^ 34 } }).length →
        Does (.linkinfoBlock true twin failed spares) s fun t =>
          t.spn.pfail = failed % 2 ^ 34 ∧ t.g TWN_SPN_STATUS_STATE = spRECOVERY)) ∧
    (∀ pk : Packet, s.m.g TWN_SPN_STATUS_STATE = spUP → s.m.g TWN_SPN_STATUS_NAK_PENDING = 0 → pk.crcOk = true →
      1 ≤ pk.blocks → pk.blocks ≤ 140 → pk.rsv = false → pk.seq = s.m.g TWN_SPN_RXSEQ_RX_NEXT →
      s.m.g (TWN_SPN_RCRED_USED pk.vc) + pk.blocks ≤ s.m.g (TWN_SPN_VCBUF_SIZE pk.vc) → kindVc pk.kind pk.vc = true →
      pk.kind = spnKind pk.msg → destOk pk = true →
      Does (.dataPacket pk) s fun t =>
        t.g TWN_SPN_RXSEQ_RX_NEXT = (pk.seq + 1) % 65536 ∧
        if (pk.kind = 4 ∧ isWb pk.msg = false) ∨ pk.kind = 5 then t.spn.held = s.m.spn.held ++ [(pk.vc, pk.blocks)]
        else ∃ q : Msg, [q] ∈ t.getXin (epSPN * 8 + pk.vc) ∧ q.op = pk.msg.op ∧ q.addr = pk.msg.addr ∧ q.tag = pk.msg.tag ∧
          q.data = pk.msg.data ∧ q.poison = pk.msg.poison) ∧
    (∀ pk : Packet, s.m.g TWN_SPN_STATUS_STATE = spUP → s.m.g TWN_SPN_STATUS_NAK_PENDING = 0 →
      pk.crcOk = false ∨ pk.blocks < 1 ∨ 140 < pk.blocks ∨ pk.rsv = true →
      Does (.dataPacket pk) s fun t =>
        t.g TWN_SPN_STATUS_NAK_PENDING = 1 ∧ t.g TWN_SPN_RXSEQ_RX_NEXT = s.m.g TWN_SPN_RXSEQ_RX_NEXT ∧
        ∃ l, Out.block 1 (1 :: l) ∈ t.out) ∧
    (s.m.g TWN_SPN_STATUS_STATE = spUP →
      Does .fecUncorrectable s (fun t => t.g TWN_SPN_STATUS_NAK_PENDING = 1 ∧
        t.g (TWN_SPN_CNT_COUNT lkFEC_UNCORR) = Nat.min (s.m.g (TWN_SPN_CNT_COUNT lkFEC_UNCORR) + 1) (2 ^ 64 - 1)) ∧
      Does .statusPeriod s (fun t => ∃ l, Out.block 1 (0 :: l) ∈ t.out) ∧
      (s.m.reel ≠ [] → s.m.g TWN_SPN_STATUS_REPLAY_RUN + 1 ≤ s.m.g TWN_SPN_CTL_REPLAY_MAX →
        Does .replayTimeout s fun t =>
          (∀ pk ∈ s.m.reel, Out.packet pk ∈ t.out) ∧
          t.g (TWN_SPN_CNT_COUNT lkREPLAY) = Nat.min (s.m.g (TWN_SPN_CNT_COUNT lkREPLAY) + 1) (2 ^ 64 - 1))) ∧
    (∀ v : Nat, LandsIn s.m .partner TWN_CTL_GRACE v →
      Does (.spindleCtlWrite (⟨.TWN_CTL, 0⟩ : Reg).addr (w64 (v % 2 ^ 10 * 2 ^ 32)) (w64 TWN_CTL_GRACE.bits)) s fun t =>
        t.g TWN_CTL_GRACE = v % 2 ^ 10)

/-- What travels between the twins over the Spindle (R162, R256, R310, R334-R338, R347-R349): a mirror record is applied and
its commit falls due, forwarded requests and their responses, relayed snoops and their answers, the partner's accesses to
the Kiosk, the map of agents, the packets of a copy, and the ends of copies and home moves. Where it rests on a choice of
the model, the choice is logged (notes/assumptions: 40, 41, 52). -/
def Obligations.PartnerTrafficCompletes : Prop :=
  ∀ s : State, s.Inv →
    (∀ (sq : Fin 32) (data : List Word), s.m.g TWN_ROLE_STATE = roRECEIVING ∨ s.m.g TWN_ROLE_STATE = roSPLIT ∨
        s.m.g TWN_ROLE_STATE = roRESYNC →
      Does (.mirrorRecord sq data) s fun t =>
        (t.getSqx sq).applied = bitsAt (data.getD 4 0#64).toNat 48 16 ∧ (t.getSqx sq).commitDue = true ∧
        (bitsAt (data.getD 0 0#64).toNat 0 8 = 0 →
          (t.getMtt (sq * 2 ^ 46 + bitsAt (data.getD 1 0#64).toNat 0 52 / 64)).opened = true)) ∧
    (∀ q : Msg, isWb q = false →
      Does (.fwdReq q) s fun t =>
        t.getSqin (homeSq (lineOf q.addr)) = s.m.getSqin (homeSq (lineOf q.addr)) ++
          [(s.m.stampCtr, { q with inp := epSPN, out := epSq (homeSq (lineOf q.addr)) })] ∧
        t.g (TWN_CNT_COUNT tcMISDIRECT_SERVED) = Nat.min (s.m.g (TWN_CNT_COUNT tcMISDIRECT_SERVED) + 1) (2 ^ 64 - 1)) ∧
    (∀ q : Msg, isWb q = true →
      Does (.fwdReq q) s fun t =>
        t.g (TWN_CNT_COUNT tcMISDIRECT_SERVED) = Nat.min (s.m.g (TWN_CNT_COUNT tcMISDIRECT_SERVED) + 1) (2 ^ 64 - 1)) ∧
    (∀ q : Msg, (∃ e ∈ s.m.spn.held, e.1 = q.cls) →
      Does (.fwdRsp q) s (fun t => ∃ r : Msg, [r] ∈ t.getXin (epSPN * 8 + q.cls) ∧ r.out = q.tag / 65536 ∧
        r.tag = q.tag % 65536 ∧ r.op = q.op ∧ r.data = q.data) ∧
      Does (.snoop q) s (fun t => ∃ r : Msg, [r] ∈ t.getXin (epSPN * 8 + q.cls) ∧ r.op = q.op ∧ r.addr = q.addr ∧
        r.out = (agentPort s.m q.agent).getD epMG ∧
        ((agentPort s.m q.agent).isSome → (q.agent, lineOf q.addr) ∈ t.spn.relay))) ∧
    (∀ (sq : Fin 32) (a : Fin 65) (line : Nat) (shared : Bool) (n : Nat) (k : Trk),
      trkOn s.m sq line = some (n, k) → k.st = 2 → k.closed = false → (a : Nat) ∈ k.wait → (∃ b ∈ k.wait, b ≠ a) →
      Does (.snoopRsp sq a line shared) s fun t =>
        (t.getTrk (sq * 8192 + n)).wait = k.wait.filter (· ≠ (a : Nat)) ∧
        (t.getTrk (sq * 8192 + n)).answers = k.answers ++ [((a : Nat), shared)]) ∧
    (∀ (q : Msg) (b : Nat), kskBank s.m (lineOf q.addr) = b →
      (nth q.x 0 = 3 → Does (.loomReq q) s fun t =>
        ∃ r : Msg, [r] ∈ t.getXin (epKsk b * 8 + 3) ∧ r.op = .memWr ∧ r.addr = lineOf q.addr ∧ r.data = q.data ∧
          r.tag = s.m.accNext) ∧
      (∀ w, nth q.x 0 ≠ 3 → missOf s.m b (lineOf q.addr) = none → kFind s.m b (lineOf q.addr) = some w →
        nth q.x 0 ≤ 1 ∨ 2 ≤ (s.m.getKline (kKey b (lineOf q.addr) w)).st →
        Does (.loomReq q) s fun t =>
          ∃ r : Msg, [r] ∈ t.getXin (epKsk b * 8 + 3) ∧ r.op = .loomRsp ∧ r.tag = q.tag ∧
            (nth q.x 0 ≤ 1 → r.data = (s.m.getKline (kKey b (lineOf q.addr) w)).data)) ∧
      (nth q.x 0 ≠ 3 → (missOf s.m b (lineOf q.addr)).isSome ∨ kFind s.m b (lineOf q.addr) = none ∨
        (2 ≤ nth q.x 0 ∧ ∃ w, kFind s.m b (lineOf q.addr) = some w ∧
          (s.m.getKline (kKey b (lineOf q.addr) w)).st < 2) →
        Does (.loomReq q) s fun t => ∃ e, missOf t b (lineOf q.addr) = some e ∧ s.m.accNext ∈ e.wait)) ∧
    (∀ q : Msg, (s.m.getAcc q.tag).st = 1 → (s.m.getAcc q.tag).bank = 4 →
      Does (.loomRsp q) s fun t =>
        (t.getAcc q.tag).st = 2 ∧ (t.getAcc q.tag).data = q.data ∧ (t.getAcc q.tag).poison = q.poison) ∧
    (∀ map : Word, Does (.portState map) s fun t => ∀ a < 64, t.getPagent a = decide (bitsAt map.toNat a 1 = 1)) ∧
    (s.m.g TWN_SPN_STATUS_STATE = spUP ∨ s.m.g TWN_SPN_STATUS_STATE = spRECOVERY →
      Does .portStatePeriod s fun t =>
        ∃ r : Msg, [r] ∈ t.getXin (epMG * 8 + 7) ∧ r.op = .portState ∧ r.data = [w64 (agentMap s.m), w64 s.m.time64]) ∧
    (∀ (sq : Fin 32) (data : List Word) (h n : Nat), s.m.g TWN_ROLE_STATE = roRECEIVING ∨ s.m.g TWN_ROLE_STATE = roRESYNC →
      (data.headD 0#64).toNat = h → Nat.min (bitsAt h 16 16) 256 = n + 1 →
      Does (.dirCopy sq data) s fun t =>
        t.getBlind (2 * sq + (1 - bitsAt h 8 1)) = Nat.min (bitsAt h 32 16) 0x4000 ∧
        t.getDir (dirKey sq (1 - bitsAt h 8 1) (bitsAt (data.getD (3 + 2 * n) 0#64).toNat 48 14)
            (bitsAt (data.getD (3 + 2 * n) 0#64).toNat 40 4)) =
          DirEnt.ofBits (bitsAt (data.getD (3 + 2 * n) 0#64).toNat 8 32)
            ((data.getD (2 + 2 * n) 0#64).toNat + bitsAt (data.getD (3 + 2 * n) 0#64).toNat 0 8 * 2 ^ 64)) ∧
    (s.m.g TWN_COPY_ACTIVE = 1 → s.m.g TWN_ROLE_COPY_DONE = 0 →
      (s.m.g TWN_ROLE_STATE = roSENDING → Does .copyComplete s fun t =>
        t.g TWN_ROLE_COPY_DONE = 1 ∧ t.g TWN_COPY_ACTIVE = 0) ∧
      (s.m.g TWN_ROLE_STATE = roRESYNC → Does .copyComplete s fun t =>
        if squares.all (fun n => (s.m.getSqx n).last1) then t.g TWN_ROLE_STATE = roSPLIT else t.g TWN_ROLE_COPY_DONE = 1)) ∧
    (s.m.g TWN_ROLE_MOVING = 1 → s.m.twx.giveDone = false →
      (moveBusy s.m = false → Does .moveDrained s fun t =>
        if s.m.twx.yielding then t.g TWN_ROLE_HOMES = 0 ∧ t.twx.giveDone = true else t.g TWN_ROLE_STATE = roSPLIT) ∧
      Does .moveTimeout s fun t => t.g TWN_ROLE_MOVING = 0 ∧ t.twx.yielding = false)

/-- The Whorl and the pair's own commands (R322-R327, R329, R339-R349, R354, Tables 13.2, 13.3): heartbeats and frames,
alignment, the witnesses' timers, forming, the settle and GRACE, and FENCE, UNFENCE, YIELD, HANDBACK and the clears. Where
it rests on a choice of the model, the choice is logged (notes/assumptions: 51, 165, 167). -/
def Obligations.WhorlAndPairComplete : Prop :=
  ∀ s : State, s.Inv →
    (refclk s.m = true → s.m.whl.align = true →
      (∀ (h : Heartbeat) (k27 : Nat), h.claim ≤ 4 → Does (.heartbeat 0 h k27) s fun t =>
        t.g TWN_WHL_STATUS_RX_SEQ = h.seq % 65536 ∧ t.g TWN_WHL_PARTNER_CLAIM = h.claim ∧
        t.g TWN_WHL_PARTNER_FLAGS = h.flags % 256 ∧ t.g TWN_WHL_DIGEST_DIGEST8 = h.digest8 % 2 ^ 64 ∧
        t.g TWN_WHL_STATUS_PARTNER_GONE = 0) ∧
      (∀ (fault : Nat) (h : Heartbeat) (k27 : Nat) (x y : Word), fault ≠ 0 →
        ∀ c ∈ ([.heartbeat fault h k27, .fwFrame fault x y] : List Instr), Does c s fun t =>
          t.g (TWN_WHL_CNT_COUNT (if fault = 1 then wkCRC_ERR else wkFRAME_DISCARD)) =
            Nat.min (s.m.g (TWN_WHL_CNT_COUNT (if fault = 1 then wkCRC_ERR else wkFRAME_DISCARD)) + 1) (2 ^ 64 - 1)) ∧
      (∀ x y : Word, Does (.fwFrame 0 x y) s fun t =>
        if s.m.g TWN_WHL_FW_CTL_RX_VALID = 1 then
          t.g (TWN_WHL_CNT_COUNT wkFW_OVERRUN) = Nat.min (s.m.g (TWN_WHL_CNT_COUNT wkFW_OVERRUN) + 1) (2 ^ 64 - 1)
        else t.g TWN_WHL_FW_CTL_RX_VALID = 1 ∧ t.g (TWN_WHL_FW_RX_DATA 0) = x.toNat ∧
          t.g (TWN_WHL_FW_RX_DATA 1) = y.toNat) ∧
      (∀ inFrame : Bool, Does (.whorlSyncLoss inFrame) s fun t =>
        t.whl.align = false ∧ t.g TWN_WHL_STATUS_STATE = 0 ∧
        t.g (TWN_WHL_CNT_COUNT wkSYNC_LOSS) = Nat.min (s.m.g (TWN_WHL_CNT_COUNT wkSYNC_LOSS) + 1) (2 ^ 64 - 1))) ∧
    (refclk s.m = true → fenced s.m = false → ¬(twinNo s.m = 1 ∧ s.m.whl.sent.any (fun x => s.m.time64 < x + 5000) = true) →
      Does .heartbeatSend s fun t =>
        t.g TWN_WHL_STATUS_TX_SEQ = (s.m.g TWN_WHL_STATUS_TX_SEQ + 1) % 65536 ∧
        ∃ h : Heartbeat, Out.heartbeat h ∈ t.out ∧ h.seq = (s.m.g TWN_WHL_STATUS_TX_SEQ + 1) % 65536 ∧
          h.claim = claimOf s.m ∧ h.digest8 = digest8 s.m ∧ h.txTime = capture s.m.time64) ∧
    (refclk s.m = true →
      Does .heartbeatMiss s (fun t => t.g TWN_WHL_STATUS_MISSED = Nat.min (s.m.g TWN_WHL_STATUS_MISSED + 1) 63 ∧
        (s.m.g TWN_CFG_WHORL_MISS ≤ Nat.min (s.m.g TWN_WHL_STATUS_MISSED + 1) 63 →
          t.g TWN_WHL_STATUS_PARTNER_GONE = 1)) ∧
      Does .whorlCharacterAlignment s (fun t => t.whl.align = true)) ∧
    (∀ p : Path,
      (LandsIn s.m p TWN_WHL_FW_CTL_SEND 1 →
        Does (.fwSend p) s fun t => t.g TWN_WHL_FW_CTL_BUSY = 1 ∧ t.whl.fw = true) ∧
      (LandsIn s.m p TWN_WHL_CTL_CLR_CNT 1 →
        Does (.whorlClrCnt p) s fun t => ∀ c < 7, t.g (TWN_WHL_CNT_COUNT c) = 0) ∧
      (LandsIn s.m p TWN_CTL_FENCE 1 → s.m.g TWN_ROLE_STATE ≠ roFENCED ∨ s.m.twx.unfenced = true →
        Does (.fence p) s fun t => t.g TWN_ROLE_STATE = roFENCED ∧ t.g TWN_ROLE_FENCE_CAUSE = 1 ∧ t.g TWN_ROLE_HOMES = 0) ∧
      (LandsIn s.m p TWN_CTL_UNFENCE 1 → s.m.g TWN_ROLE_STATE = roFENCED →
        Does (.unfence p) s fun t => t.g TWN_ROLE_FENCE_CAUSE = 0 ∧ t.twx.unfenced = true) ∧
      (LandsIn s.m p TWN_CTL_YIELD 1 → Does (.yield p) s fun t =>
        if s.m.twx.partnerYield = true ∧ twinNo s.m = 1 then
          t.g TWN_ROLE_MOVING = 0 ∧ t.twx.yielding = false ∧ Told 0x0992 s.m t
        else t.g TWN_ROLE_MOVING = 1 ∧ t.twx.yielding = true) ∧
      (LandsIn s.m p TWN_CTL_HANDBACK 1 → Does (.handback p) s fun t => t.twx.handback = true) ∧
      (LandsIn s.m p TWN_CTL_CLR_CNT 1 → Does (.twnClrCnt p) s fun t => ∀ c < 12, t.g (TWN_CNT_COUNT c) = 0)) ∧
    (s.m.g TWN_ROLE_STATE = roFORMING →
      Does .formTimeout s fun t => if allGone s.m then t.g TWN_ROLE_STATE = roALONE else t.twx.formOver = true) ∧
    (∀ (sq : Fin 32) (ue : List Nat), s.m.g TWN_ROLE_SETTLING = 1 → (s.m.getSqx sq).walking = true →
      Does (.settleWalkDone sq ue) s fun t => (t.getSqx sq).walking = false) ∧
    Does .graceEnd s (fun t => t.twx.graceEnd = 0)

/-- Scrubs, merge buffers, retirement, raw test accesses and the event queue (R359, R363, R364, R366, R367, R370, R372,
R374): a scrub starts, reads word after word and leaves its summary, an incomplete drain counts the error it met, a bobbin
is retired, raw words are stored and shown, held records go to the queue, and the counters clear. Where it rests on a choice
of the model, the choice is logged (notes/assumptions: 19, 22, 48). -/
def Obligations.IntegrityCompletes : Prop :=
  ∀ s : State, s.Inv →
    (∀ (p : Path) (mem : Fin 16) (inst : Fin 256), LandsAll s.m p ⟨.INT_SCRUB_CTL, 0⟩
        [(INT_SCRUB_CTL_GO, 1), (INT_SCRUB_CTL_MEM, mem), (INT_SCRUB_CTL_INSTANCE, inst)] →
      Does (.scrubGo p mem inst) s fun t =>
        t.g INT_SCRUB_STATUS_BUSY = 1 ∧ t.g INT_SCRUB_STATUS_RESULT = 0 ∧
        t.g INT_SCRUB_STATUS_NEXT = s.m.g INT_SCRUB_START_INDEX ∧ t.scrub.mem = mem ∧ t.scrub.inst = inst ∧
        t.scrub.last = s.m.g INT_SCRUB_END_INDEX) ∧
    (∀ p : Path, LandsIn s.m p INT_SCRUB_CTL_ABORT 1 → s.m.g INT_SCRUB_STATUS_BUSY = 1 →
      Does (.scrubAbort p) s fun t => t.scrub.abort = true) ∧
    (∀ w : WordClass, s.m.g INT_SCRUB_STATUS_BUSY = 1 → s.m.g INT_SCRUB_STATUS_NEXT ≤ s.m.scrub.last →
      s.m.scrub.abort = false → domOn s.m (memDom s.m.scrub.mem s.m.scrub.inst) = true →
      Does (.scrubWord w) s fun t =>
        t.g INT_SCRUB_STATUS_NEXT = (s.m.g INT_SCRUB_STATUS_NEXT + 1) % 2 ^ 48 ∧ t.scrub.read = s.m.scrub.read + 1) ∧
    (s.m.g INT_SCRUB_STATUS_BUSY = 1 → domOn s.m (memDom s.m.scrub.mem s.m.scrub.inst) = false ∨ s.m.scrub.abort = true ∨
        s.m.scrub.last < s.m.g INT_SCRUB_STATUS_NEXT →
      Does .scrubEnd s fun t =>
        t.g INT_SCRUB_STATUS_BUSY = 0 ∧
        t.g INT_SCRUB_STATUS_RESULT = (if domOn s.m (memDom s.m.scrub.mem s.m.scrub.inst) = false then 3
          else if s.m.scrub.abort then 2 else 1) ∧
        t.g (INT_SCRUB_SUM_SUMMARY 3) = s.m.time64 ∧ Told 0x0C86 s.m t) ∧
    (∀ (mem : Fin 16) (inst n : Nat) (w : WordClass),
      Does (.mergeDrain mem inst n true w) s (fun t => t.regs = s.m.regs) ∧
      Does (.mergeDrain mem inst n false .good) s (fun t => t.regs = s.m.regs) ∧
      (∀ (row : Nat) (spare : Bool), Does (.mergeDrain mem inst n false (.corrected row spare)) s fun t =>
        t.g (INT_CNT_CE_COUNT mem) = Nat.min (s.m.g (INT_CNT_CE_COUNT mem) + 1) (2 ^ 64 - 1)) ∧
      (∀ cause sort obj : Nat, ∀ x ∈ ([.poison, .bad cause sort obj] : List WordClass),
        Does (.mergeDrain mem inst n false x) s fun t =>
          t.g (INT_CNT_POISON_COUNT mem) = Nat.min (s.m.g (INT_CNT_POISON_COUNT mem) + 1) (2 ^ 64 - 1) ∧
          Told 0x0C82 s.m t)) ∧
    (∀ (p : Path) (b : Nat), LandsIn s.m p INT_RETIRE_ADD_BOBBIN b → b < 2 ^ 29 → s.m.getRetire b ≠ 2 →
      s.m.g INT_RETIRE_STATUS_COUNT < 8192 →
      Does (.retireAdd p b) s fun t => t.getRetire b = if bobIsFree s.m b then 2 else 1) ∧
    (∀ p : Path, LandsIn s.m p INT_TEST_CTL_WRITE_RAW 1 →
      Does (.writeRaw p) s fun t =>
        t.g INT_TEST_CTL_DONE = 0 ∧
        t.getRaw (rawKey s.m) = ((List.range 8).map fun k => s.m.rd ⟨.INT_TEST_DATA, k⟩,
          (if s.m.g INT_TEST_SEL_MEM = 9 then s.m.g INT_TEST_META_META else s.m.g INT_TEST_META_META % 2),
          s.m.g INT_TEST_CHECK_CHECK)) ∧
    (∀ p : Path, LandsIn s.m p INT_TEST_CTL_READ_RAW 1 →
      Does (.readRaw p) s fun t =>
        t.g INT_TEST_CTL_DONE = 0 ∧
        ((s.m.getRaw (rawKey s.m)).1 ≠ [] → s.m.g INT_TEST_SEL_MEM ∉ [0, 4, 8] →
          (∀ k < 8, t.rd ⟨.INT_TEST_DATA, k⟩ = (s.m.getRaw (rawKey s.m)).1.getD k 0#64) ∧
          t.g INT_TEST_CHECK_CHECK = (s.m.getRaw (rawKey s.m)).2.2 % 2 ^ 32) ∧
        (s.m.g INT_TEST_SEL_MEM = 8 → t.rd ⟨.INT_TEST_DATA, 0⟩ = s.m.getSram (s.m.g INT_TEST_SEL_INDEX)) ∧
        (s.m.g INT_TEST_SEL_MEM = 4 →
          (s.m.getKline (rawLine (s.m.g INT_TEST_SEL_INSTANCE) (s.m.g INT_TEST_SEL_INDEX))).st ≠ 0 →
          t.rd ⟨.INT_TEST_DATA, 0⟩ = (s.m.getKline (rawLine (s.m.g INT_TEST_SEL_INSTANCE)
            (s.m.g INT_TEST_SEL_INDEX))).data.getD (s.m.g INT_TEST_SEL_INDEX % 8) 0#64) ∧
        (s.m.g INT_TEST_SEL_MEM = 0 →
          t.g INT_TEST_META_META = flag (s.m.getDir (rawDir (s.m.g INT_TEST_SEL_INSTANCE) (s.m.g INT_TEST_SEL_INDEX))).pm)) ∧
    Does .rawAccessDone s (fun t => t.g INT_TEST_CTL_DONE = 1) ∧
    (∀ p : Path, LandsIn s.m p INT_EVQ_BASE_EN 1 → s.m.g INT_EVQ_BASE_EN = 0 →
      Does (.evqEnable p) s fun t => t.g INT_EVQ_BASE_EN = 1 ∧ t.hold = []) ∧
    (0 < idxDiff (s.m.g INT_EVQ_IDX_PROD) (s.m.g INT_EVQ_IDX_CONS) →
      Does .evqIrqTimeout s fun t => Out.mgmtIrq ∈ t.out) ∧
    (∀ p : Path, LandsIn s.m p INT_CTL_CLR_CNT 1 →
      Does (.intClrCnt p) s fun t => ∀ i < 16, t.g (INT_CNT_CE_COUNT i) = 0 ∧ t.g (INT_CNT_POISON_COUNT i) = 0 ∧
        t.g (INT_CNT_UE_COUNT i) = 0 ∧ t.g (INT_CNT_PIN_COUNT i) = 0) ∧
    (∀ (v : Fin 64) (op : Nat), Does (.poisonCommand v op) s fun t => Out.mgmt 4 3 [(v : Nat), op] ∈ t.out)

/-- The management complex (R412, R414-R417, R419, R420, Table 17.5): the copy that the ROM reads is run or refused, the
recovery commands, the watchdogs and core resets, and the mailbox commands, each of which answers in its channel. Where it
rests on a choice of the model, the choice is logged (notes/assumptions: 73, 77, 78). -/
def Obligations.FirmwareCompletes : Prop :=
  ∀ s : State, s.Inv →
    (∀ (img : Image) (b : Nat), s.m.g FWM_BOOT_STATUS_STAGE = fsLOADING → s.m.mgx.attempt ≠ 0 →
      (s.m.g FWM_BOOT_CTL_PREFER_B + s.m.mgx.attempt + 1) % 2 = b →
      Does (.firmwareCopyDone img) s fun t =>
        if fsynCheck s.m.fuse img.bytes = rcOK then
          t.g FWM_BOOT_STATUS_STAGE = fsRUNNING ∧ t.g FWM_BOOT_STATUS_FROM_B = b ∧
          t.g FWM_SVN_SVN = leAt img.bytes 12 4 ∧ t.mgx.attempt = 0
        else
          t.g (if b = 1 then FWM_BOOT_STATUS_B_REFUSED else FWM_BOOT_STATUS_A_REFUSED) = 1 ∧
          t.g (if b = 1 then FWM_BOOT_STATUS_REASON_B else FWM_BOOT_STATUS_REASON_A) =
            fsynCheck s.m.fuse img.bytes % 2 ^ 16 ∧
          t.g FWM_BOOT_STATUS_STAGE = (if s.m.mgx.attempt = 1 then fsLOADING else fsNO_IMAGE) ∧ Told 0x0183 s.m t) ∧
    (mbServes s.m 0 0x00F0 = true → s.m.g (FWM_MB_REQ_DATA 1) + 240 ≤ 8388608 →
      Does .recoveryWrite s fun t =>
        (∀ i < 240, bitsAt (t.getSram ((s.m.g (FWM_MB_REQ_DATA 1) + i) / 8)).toNat
            (8 * ((s.m.g (FWM_MB_REQ_DATA 1) + i) % 8)) 8 = bitsAt (s.m.g (FWM_MB_REQ_DATA (2 + i / 8))) (8 * (i % 8)) 8) ∧
        t.g (FWM_MB_CTL_DONE 0) = 1 ∧ t.g (FWM_MB_CTL_BUSY 0) = 0) ∧
    (mbServes s.m 0 0x00F1 = true →
      Does .recoveryBoot s fun t =>
        t.g (FWM_MB_CTL_DONE 0) = 1 ∧ t.g (FWM_MB_CTL_BUSY 0) = 0 ∧
        t.g FWM_BOOT_STATUS_STAGE = (if fsynCheck s.m.fuse (sramImage s.m) = rcOK then fsRUNNING else fsNO_IMAGE)) ∧
    (∀ (p : Path) (c : Fin 4),
      (LandsIn s.m p (FWM_WDOG_KICK c) 1 → Does (.kick p c) s fun t => t.mgx.hit.getD c false = false) ∧
      (LandsIn s.m p FWM_CORE_CTL_RESET (2 ^ (c : Nat)) →
        Does (.coreReset p c) s fun t => Out.coreStart c false ∈ t.out) ∧
      (s.m.g (FWM_WDOG_PERIOD c) ≠ 0 → Does (.watchdogExpiry c) s fun t =>
        if s.m.mgx.hit.getD c false then
          t.g FWM_BOOT_STATUS_STAGE = fsLOADING ∧
          t.g FWM_BOOT_STATUS_WDOG_RESETS = Nat.min 255 (s.m.g FWM_BOOT_STATUS_WDOG_RESETS + 1) ∧
          Out.coreStart 0 true ∈ t.out
        else t.g (FWM_WDOG_EXPIRED c) = 1 ∧ Out.nmi c ∈ t.out ∧ Told 0x0185 s.m t)) ∧
    (∀ x : Fin 2,
      (mbServes s.m x 0x0001 = true → Does (.getVersion x) s fun t =>
        t.g (FWM_MB_CTL_DONE x) = 1 ∧ t.g (FWM_MB_CTL_BUSY x) = 0 ∧
        t.g (FWM_MB_RSP_DATA (x * 32 + 1)) = s.m.g FWM_VERSION_BUILD_ID ∧
        t.g (FWM_MB_RSP_DATA (x * 32 + 2)) = s.m.g FWM_SVN_SVN ∧
        t.g (FWM_MB_RSP_DATA (x * 32 + 3)) = s.m.g MLD_BUILD_ID_BUILD_ID) ∧
      (mbServes s.m x 0x0002 = true → Does (.getState x) s fun t =>
        t.g (FWM_MB_CTL_DONE x) = 1 ∧ t.g (FWM_MB_CTL_BUSY x) = 0 ∧
        t.g (FWM_MB_RSP_DATA (x * 32 + 1)) = (s.m.rd ⟨.GLB_STRUCT_STATUS, 0⟩).toNat ∧
        t.g (FWM_MB_RSP_DATA (x * 32 + 2)) = (s.m.rd ⟨.TWN_ROLE, 0⟩).toNat) ∧
      (∀ (st op : Nat) (c : Instr), (op, c) ∈ ([(0x0010, .setLinkPolicy x st), (0x0011, .setPowerPolicy x st),
          (0x0020, .setScrubSchedule x st), (0x0040, .setFailoverPolicy x st)] : List (Nat × Instr)) →
        mbServes s.m x op = true →
        Does c s fun t =>
          t.g (FWM_MB_CTL_DONE x) = 1 ∧ t.g (FWM_MB_CTL_BUSY x) = 0 ∧ Out.mgmt 3 st [] ∈ t.out ∧
          (st = rcOK → (op, mbWords s.m x) ∈ t.mgx.policy)) ∧
      (∀ (st : Nat) (ws : List (Nat × Word × Word)), mbServes s.m x 0x0030 = true →
        Does (.tmProgram x st ws) s fun t =>
          t.g (FWM_MB_CTL_DONE x) = 1 ∧ t.g (FWM_MB_CTL_BUSY x) = 0 ∧ Out.mgmt 3 st [] ∈ t.out ∧
          ∀ (r : Reg) (data mask : Word), st = rcOK → ws = [(r.addr, data, mask)] → r.k.desc.blk = .FLW →
            Lands s.m (.firmware 0) r data.toNat mask.toNat →
            (t.rd r).toNat = stored r.k (s.m.rd r).toNat data.toNat mask.toNat) ∧
      (∀ st : Nat, mbServes s.m x 0x0050 = true → Does (.flashUpdate x st) s fun t =>
        t.g (FWM_MB_CTL_DONE x) = 1 ∧ t.g (FWM_MB_CTL_BUSY x) = 0 ∧
        (st = rcOK → Out.flash (bitsAt (s.m.g (FWM_MB_REQ_DATA (x * 32 + 1))) 0 2) (stageImage s.m) ∈ t.out)) ∧
      (mbServes s.m x 0x0051 = true → Lands s.m (.firmware 0) ⟨.GLB_RESET_CTL, 0⟩ 0xA501 (2 ^ 64 - 1) →
        Does (.mbWarmReset x) s fun t =>
          t.g (FWM_MB_CTL_DONE x) = 1 ∧ t.g (FWM_MB_CTL_BUSY x) = 0 ∧ t.mgx.warmDue = true) ∧
      (s.m.g (FWM_MB_CTL_BUSY x) = 1 →
        (s.m.g FWM_BOOT_STATUS_STAGE = fsRUNNING → mbOp s.m x ∉ mbOpcodes → Does (.mailboxUnknownOpcode x) s fun t =>
          t.g (FWM_MB_CTL_DONE x) = 1 ∧ t.g (FWM_MB_CTL_BUSY x) = 0 ∧ Out.mgmt 3 rcIMG_LIMIT [] ∈ t.out) ∧
        Does (.mailboxTimeout x) s fun t =>
          t.g (FWM_MB_CTL_DONE x) = 1 ∧ t.g (FWM_MB_CTL_BUSY x) = 0 ∧ Out.mgmt 3 rcIMG_BUSY [] ∈ t.out ∧
          Told 0x0187 s.m t))

/-- The FM API on a path that carries it (R70, R72, R372, R421, R422, Table 17.6): what each command answers and does, what
goes out to a device, and what is refused. The return codes and the codes of the devices' commands are the model's
(notes/assumptions: 3, 22, 89, 92, 180). -/
def Obligations.FmApiCompletes : Prop :=
  ∀ s : State, s.Inv → ∀ p : Path, fmServes s.m p = true →
    Does (.identifySwitchDevice p) s (fun t =>
      Out.mgmt 0 fmOK [128, ((fmPorts s.m).map (2 ^ ·)).sum, 64, ((fmVcss s.m).map (2 ^ ·)).sum,
        ((fmVcss s.m).map fun v => 4 + (vppbs s.m v).length).sum] ∈ t.out) ∧
    (∀ l : List Nat, Does (.getPhysicalPortState p l) s fun t =>
      if ∀ q ∈ l, q < 128 then
        Out.mgmt 0 fmOK (l.flatMap fun q => [q, Config.linkState (s.m.g (OCT_PORT_STATUS_STATE q)),
          s.m.g (OCT_PORT_STATUS_LANES q), s.m.g (OCT_PORT_STATUS_RATE q)]) ∈ t.out
      else Out.mgmt 0 fmINPUT [] ∈ t.out) ∧
    (∀ q : Fin 128,
      (q.val % 4 = 0 → LandsIn s.m p (OCT_SLOT_CTL_PERST_FORCE (q / 4)) 1 → Does (.assertPerst p q) s fun t =>
        t.g (OCT_SLOT_CTL_PERST_FORCE (q / 4)) = 1 ∧ Out.mgmt 0 fmOK [] ∈ t.out) ∧
      (q.val % 4 = 0 → LandsIn s.m p (OCT_SLOT_CTL_PERST_FORCE (q / 4)) 0 → Does (.deassertPerst p q) s fun t =>
        t.g (OCT_SLOT_CTL_PERST_FORCE (q / 4)) = 0 ∧ Out.mgmt 0 fmOK [] ∈ t.out) ∧
      (q.val % 4 ≠ 0 → Does (.assertPerst p q) s (fun t => Out.mgmt 0 fmINPUT [] ∈ t.out) ∧
        Does (.deassertPerst p q) s (fun t => Out.mgmt 0 fmINPUT [] ∈ t.out)) ∧
      Does (.resetPpb p q) s (fun t => Out.mgmt 0 fmOK [] ∈ t.out ∧
        (LandsIn s.m p (OCT_PORT_CTL_RETRAIN q) 1 → s.m.g (OCT_PORT_STATUS_STATE q) = psUP →
          (t.getPort q).recovery = true)) ∧
      (∀ write : Bool, Does (.sendPpbCxlIoConfigRequest p q write) s fun t =>
        if s.m.g (OCT_PORT_CFG_VALID q) = 0 then Out.mgmt 0 fmINPUT [] ∈ t.out
        else if write then Out.mgmt 0 fmOK [] ∈ t.out
        else Out.mgmt 0 fmOK [Config.freeValue s.m.freeCtr % 2 ^ 32] ∈ t.out)) ∧
    (∀ v : Fin 64, Does (.getVirtualCxlSwitchInfo p v) s fun t =>
      if (s.m.getVcs v).valid then Out.mgmt 0 fmOK ([(v : Nat), (s.m.getVcs v).up, (s.m.getVcs v).agent,
        (vppbs s.m v).length] ++ (vppbs s.m v).flatMap fun e => [e.1, e.2]) ∈ t.out
      else Out.mgmt 0 fmINPUT [] ∈ t.out) ∧
    (∀ c ∈ ([.bindVppb p, .unbindVppb p, .setLdAllocations p, .qosControl p, .fmUnsupportedCommand p] : List Instr),
      Does c s fun t => Out.mgmt 0 fmUNSUPPORTED [] ∈ t.out) ∧
    (∀ (q : Fin 128) (ld a : Nat) (data : List Word) (d : Option Word) (write : Bool), portUp s.m q = true →
      (∀ (c : Instr) (op : Op) (code l addr : Nat) (x : List Word),
        (c, op, code, l, addr, x) ∈ ([(.tunnelManagementCommand p q ld data, .ioMsg, 0x5300, ld, 0, data),
          (.sendLdCxlIoConfigRequest p q ld a d, (if d.isSome then .cfgWr else .cfgRd), 0x5301, ld, a, d.toList),
          (.sendLdCxlIoMemoryRequest p q ld a write data, (if write then .ioWr else .ioRd), 0x5302, ld, a, data)] :
            List (Instr × Op × Nat × Nat × Nat × List Word)) →
        if fabricPort s.m q = true ∨ ldUnbound s.m q l = true then
          Does c s fun t => ∃ m : Msg, [m] ∈ t.getXin (epMG * 8 + 7) ∧ m.op = op ∧ m.out = q ∧ m.addr = addr ∧ m.data = x ∧
            m.x = code :: l :: edgeIds s.m q l
        else Does c s fun t => Out.mgmt 0 fmINPUT [] ∈ t.out) ∧
      (∀ (c : Instr) (code : Nat), (c, code) ∈ ([(.getLdInfo p q, 0x5400), (.getLdAllocations p q, 0x5401)] :
            List (Instr × Nat)) →
        if fabricPort s.m q = true ∨ ∃ l < 16, ldUnbound s.m q l = true then
          Does c s fun t => ∃ m : Msg, [m] ∈ t.getXin (epMG * 8 + 7) ∧ m.op = .ioMsg ∧ m.out = q ∧
            m.x = code :: 0 :: edgeIds s.m q 0
        else Does c s fun t => Out.mgmt 0 fmINPUT [] ∈ t.out) ∧
      (∀ (c : Instr) (code : Nat) (l : Nat) (x : List Word),
        (c, code, l, x) ∈ ([(.getMultiHeadedInfo p q, 0x5500, 0, []), (.getHeadInfo p q, 0x5501, 0, []),
          (.initiateDynamicCapacityAdd p q ld data, 0x5604, ld, data),
          (.initiateDynamicCapacityRelease p q ld data, 0x5605, ld, data)] : List (Instr × Nat × Nat × List Word)) →
        (code < 0x5600 → ldPort s.m q = true) → (0x5600 ≤ code → fabricPort s.m q = false ∧ ldDynamic s.m q ld = true) →
        Does c s fun t => ∃ m : Msg, [m] ∈ t.getXin (epMG * 8 + 7) ∧ m.op = .ioMsg ∧ m.out = q ∧ m.data = x ∧
          m.x = code :: l :: edgeIds s.m q l)) ∧
    (∀ (q : Fin 128) (ld : Nat) (data : List Word), fabricPort s.m q = true →
      ∀ c ∈ ([.initiateDynamicCapacityAdd p q ld data, .initiateDynamicCapacityRelease p q ld data] : List Instr),
        Does c s fun t => Out.mgmt 0 fmUNSUPPORTED [] ∈ t.out)

/-- Event records, control-space access and bulk staging through the FM API, and MCTP control (R368, R372, R421, R422, Table
17.6). The codes of MCTP and the return codes are the model's (notes/assumptions: 89, 90, 91, 93, 179). -/
def Obligations.FmAccessCompletes : Prop :=
  ∀ s : State, s.Inv → ∀ p : Path,
    (∀ v e n : Nat, logHost p v = true → e < 4 →
      Does (.getEventRecords p (some (v, e))) s (fun t =>
        Out.mgmt 4 fmOK ((s.m.getHlog (v * 4 + e)).flatMap EvRec.words) ∈ t.out) ∧
      Does (.clearEventRecords p (some (v, e)) n) s (fun t =>
        t.getHlog (v * 4 + e) = (s.m.getHlog (v * 4 + e)).drop n)) ∧
    (fmServes s.m p = true →
      Does (.getEventRecords p none) s (fun t => Out.mgmt 0 fmOK (queueWords s.m) ∈ t.out) ∧
      (∀ n, n ≤ idxDiff (s.m.g INT_EVQ_IDX_PROD) (s.m.g INT_EVQ_IDX_CONS) →
        Does (.clearEventRecords p none n) s fun t =>
          t.g INT_EVQ_IDX_CONS = (s.m.g INT_EVQ_IDX_CONS + n) % 2 ^ 32 ∧ Out.mgmt 0 fmOK [] ∈ t.out) ∧
      (∀ v : Nat, Does (.setEventInterruptPolicy p v) s fun t =>
        (rank s.m p, v) ∈ t.mgx.evPolicy ∧ Out.mgmt 0 fmOK [] ∈ t.out) ∧
      (∀ (a n : Nat), 1 ≤ n → n ≤ 32 → Does (.ctlRead p a n) s fun t =>
        ∃ l : List Nat, l.length = n ∧ Out.mgmt 0 fmOK l ∈ t.out ∧
          ∀ r : Reg, regAt a = some r → r.addr = a → a % 8 = 0 → r.k ≠ .TEN_OBJ_DATA →
            (r.k = .SQ_PURGE_STATUS → bitsAt (liveRead s.m r) 14 1 = 0) → reaches s.m p a false 0 = true →
            l.head? = some (liveRead s.m r)) ∧
      (∀ (r : Reg) (data mask : Word), r.k.desc.blk = .FLW → Lands s.m p r data.toNat mask.toNat →
        Does (.ctlWrite p r.addr data mask) s fun t =>
          (t.rd r).toNat = stored r.k (s.m.rd r).toNat data.toNat mask.toNat ∧ Out.mgmt 0 fmOK [] ∈ t.out) ∧
      (∀ (a : Nat) (ws : List Word), a + ws.length ≤ 2 ^ 19 → ws.length ≤ 128 →
        Lands s.m p ⟨.MLD_STAGE_ADDR, 0⟩ (a % 2 ^ 19 * 8) (2 ^ 64 - 1) →
        (∀ w ∈ ws, Lands s.m p ⟨.MLD_STAGE_DATA, 0⟩ w.toNat (2 ^ 64 - 1)) →
        Does (.stageWrite p a ws) s fun t =>
          (∀ i < ws.length, t.getStage (a + i) = ws.getD i 0#64) ∧ Out.mgmt 0 fmOK [] ∈ t.out)) ∧
    (∀ arg : Nat,
      Does (.mctpControl 1 arg) s (fun t => t.mgx.eid = arg % 256 ∧ Out.mgmt 1 0 [arg % 256] ∈ t.out) ∧
      Does (.mctpControl 2 arg) s (fun t => Out.mgmt 1 0 [s.m.mgx.eid] ∈ t.out) ∧
      ∀ c, c ∉ ([1, 2, 4, 5] : List Nat) → Does (.mctpControl c arg) s fun t => Out.mgmt 1 5 [] ∈ t.out)

/-- The SPDM responder (R423): the negotiation, certificates and measurements, and sessions. The codes of SPDM, the stage
that each request needs and the free values are the model's (notes/assumptions: 2, 3, 79, 93). -/
def Obligations.SpdmCompletes : Prop :=
  ∀ s : State, s.Inv → ∀ c : Fin 193, spdmThere s.m c = true →
    Does (.spdmGetVersion c) s (fun t => (t.getSpdm c).stage = 1 ∧ (t.getSpdm c).sessions = [] ∧
      Out.mgmt 2 0x04 [0x1300] ∈ t.out) ∧
    (1 ≤ (s.m.getSpdm c).stage → Does (.spdmGetCapabilities c) s fun t =>
      (t.getSpdm c).stage = Nat.max (s.m.getSpdm c).stage 2 ∧ ∃ l, Out.mgmt 2 0x61 l ∈ t.out) ∧
    (2 ≤ (s.m.getSpdm c).stage → Does (.spdmNegotiateAlgorithms c) s fun t =>
      (t.getSpdm c).stage = 3 ∧ ∃ l, Out.mgmt 2 0x63 l ∈ t.out) ∧
    (3 ≤ (s.m.getSpdm c).stage →
      Does (.spdmGetDigests c) s (fun t =>
        Out.mgmt 2 0x01 [0x3, Config.sha384 (certChain s.m 0), Config.sha384 (certChain s.m 1)] ∈ t.out) ∧
      (∀ slot o n : Nat, slot < 2 → Does (.spdmGetCertificate c slot o n) s fun t =>
        Out.mgmt 2 0x02 ([slot, (certChain s.m slot).length - o - n] ++ ((certChain s.m slot).drop o).take n) ∈ t.out) ∧
      (∀ slot : Nat, slot < 2 → Does (.spdmChallenge c slot) s fun t =>
        Out.mgmt 2 0x03 [slot, Config.sha384 (certChain s.m slot), Config.freeValue s.m.freeCtr % 2 ^ 256,
          Config.freeValue (s.m.freeCtr + 1) % 2 ^ 768] ∈ t.out) ∧
      (∀ (i : Nat) (sign : Bool) (l : List Nat), i ≤ 5 ∨ i = 0xFF →
        (if i = 0 then [] else if i = 0xFF then [1, 2, 3, 4, 5] else [i]) = l →
        Does (.spdmGetMeasurements c i sign) s fun t =>
          Out.mgmt 2 0x60 ([if i = 0 then 5 else l.length] ++ (l.flatMap fun j => [j, measurement s.m j]) ++
            if sign then [Config.freeValue s.m.freeCtr % 2 ^ 768] else []) ∈ t.out) ∧
      (∀ r : Fin 65536, Does (.spdmKeyExchange c r) s fun t =>
        (t.getSpdm c).sessions = (r + Config.freeValue (s.m.freeCtr + 2) % 2 ^ 16 * 65536, false, 0) ::
          (s.m.getSpdm c).sessions ∧ ∃ l, Out.mgmt 2 0x64 l ∈ t.out)) ∧
    (∀ id : Nat,
      ((∃ g, (id, false, g) ∈ (s.m.getSpdm c).sessions) →
        Does (.spdmFinish c id true) s (fun t => (∀ e ∈ (t.getSpdm c).sessions, e.1 = id → e.2.1 = true) ∧
          Out.mgmt 2 0x65 [] ∈ t.out) ∧
        Does (.spdmFinish c id false) s (fun t => ∀ e ∈ (t.getSpdm c).sessions, e.1 ≠ id)) ∧
      ((∃ g, (id, true, g) ∈ (s.m.getSpdm c).sessions) →
        Does (.spdmHeartbeat c id) s (fun t => Out.mgmt 2 0x68 [] ∈ t.out) ∧
        (∀ op tag : Nat, 1 ≤ op → op ≤ 3 → Does (.spdmKeyUpdate c id op tag) s fun t =>
          (t.getSpdm c).sessions = (s.m.getSpdm c).sessions.map (fun e =>
            if e.1 = id ∧ op ≠ 3 then (id, e.2.1, e.2.2 + 1) else e) ∧ Out.mgmt 2 0x69 [op, tag] ∈ t.out) ∧
        Does (.spdmEndSession c id) s (fun t =>
          (∀ e ∈ (t.getSpdm c).sessions, e.1 ≠ id) ∧ Out.mgmt 2 0x6C [] ∈ t.out)))

/-- Observation and test (R426, R429-R433): the clears of the counters, the Census tick, the counter page, the built-in
self-test, the debug unlock and the trace. Where it rests on a choice of the model, the choice is logged (notes/assumptions:
2, 3, 83). -/
def Obligations.ObservationCompletes : Prop :=
  ∀ s : State, s.Inv →
    (∀ p : Path, LandsIn s.m p PMU_CTL_CLR_ALL 1 →
      Does (.pmuClrAll p) s fun t => (∀ i, t.g (PMU_CNT_COUNT i) = 0) ∧ ∀ b, t.rd ⟨.PMU_BANK_OVF, b⟩ = 0#64) ∧
    (s.m.g PMU_CENSUS_CTL_EN = 1 →
      Does .censusTick s fun t =>
        t.cen.ticks = s.m.cen.ticks + 1 ∧ t.g PMU_CENSUS_STATUS_SEQ = s.m.cen.ticks % 2 ^ 32 ∧
        (censusBusy s.m = true → t.cen.skips = s.m.cen.skips + 1) ∧
        (censusBusy s.m = false → s.m.g PMU_CENSUS_CTL_CLEAR_ON_DUMP = 1 → ∀ b < 64,
          bitsAt (s.m.g PMU_CENSUS_MASK_BANKS) b 1 = 1 → s.m.g PMU_CENSUS_CTL_DEST = 0 →
          ∀ j < 64, t.g (PMU_CNT_COUNT (64 * b + j)) = 0)) ∧
    (∀ (v : Fin 64) (sl : Fin 256) (o : Fin 4096), Does (.counterPageRead v sl o) s fun t =>
      Out.read (0x100000 + sl * 0x1000 + o) (counterPage s.m v sl o) ∈ t.out) ∧
    (∀ (p : Path) (kind : Bool) (d : Fin 128) (n : BitVec 16), LandsAll s.m p ⟨.TST_CMD, 0⟩
        [(TST_CMD_GO, 1), (TST_CMD_KIND, flag kind), (TST_CMD_DOMAIN, d), (TST_CMD_PATTERNS, n.toNat)] →
      Does (.testGo p kind d n) s fun t =>
        t.g TST_STATUS_STATE = 1 ∧ t.g TST_STATUS_RESULT = 0 ∧ t.tst.dom = d ∧ t.tst.kind = flag kind ∧
        t.g TST_EXPECT_GOLDEN = Config.golden d (flag kind) n.toNat % 2 ^ 64) ∧
    (s.m.g TST_STATUS_STATE = 1 →
      (∀ p : Path, LandsIn s.m p TST_CMD_ABORT 1 →
        Does (.testAbort p) s fun t => t.g TST_STATUS_STATE = 2 ∧ t.g TST_STATUS_RESULT = 3) ∧
      Does .testTimeout s (fun t => t.g TST_STATUS_STATE = 2 ∧ t.g TST_STATUS_RESULT = 3 ∧ Told 0x0189 s.m t) ∧
      ∀ (misr : Word) (failing : Nat), Does (.testComplete misr failing) s fun t =>
        t.g TST_STATUS_STATE = 2 ∧ t.g TST_MISR_SIGNATURE = misr.toNat ∧
        t.g TST_STATUS_RESULT = (if misr.toNat = s.m.g TST_EXPECT_GOLDEN ∧ (s.m.tst.kind = 1 → failing = 0) then 1 else 2)) ∧
    (∀ p : Path,
      (LandsIn s.m p DBG_UNLOCK_CHAL_REQ 1 → Does (.chalReq p) s fun t =>
        t.g DBG_CHAL_NONCE = Config.freeValue s.m.freeCtr % 2 ^ 64 ∧ t.freeCtr = s.m.freeCtr + 1) ∧
      (LandsIn s.m p DBG_UNLOCK_GRANT 1 → Does (.grant p) s fun t =>
        t.g GLB_LIFECYCLE_DEBUG_UNLOCKED = 1 ∧ Told 0x018A s.m t) ∧
      (LandsIn s.m p DBG_UNLOCK_RELOCK 1 → s.m.g GLB_LIFECYCLE_DEBUG_UNLOCKED = 1 → Does (.relock p) s fun t =>
        t.g GLB_LIFECYCLE_DEBUG_UNLOCKED = 0) ∧
      (reaches s.m p (⟨.DBG_TRACE_DATA, 3⟩ : Reg).addr false 0 = true → Does (.traceDataRead p) s fun t =>
        t.g DBG_TRACE_IDX_IDX = (s.m.g DBG_TRACE_IDX_IDX + 1) % 2 ^ 15 ∧
        Out.read (⟨.DBG_TRACE_DATA, 3⟩ : Reg).addr (liveRead s.m ⟨.DBG_TRACE_DATA, 3⟩) ∈ t.out))

/-- What a request, the wake steps and their timers do to a power domain (R377, R380, R381, R385), while the sequencer has
no order of its own to carry out: a lowered domain drains toward the state asked, a raised one wakes, a ready step is
followed by the next and the last one brings the domain up where what it requires is still ON, and a step that times out is
retried after a wait. Where it rests on a choice of the model, the choice is logged (notes/assumptions: 23, 129). -/
def Obligations.PowerWakeCompletes : Prop :=
  ∀ s : State, s.Inv → SequencerAtRest s.m →
    (∀ (p : Path) (d : Fin 87) (req : Fin 4), LandsIn s.m p (PWR_DOM_CTL_REQ d) req → domSt s.m d = dsON →
      (req : Nat) < 2 →
      Does (.powerRequest p d req) s fun t => domSt t d = dsDRAINING ∧ t.getDtgt d = req) ∧
    (∀ (p : Path) (d : Fin 87), LandsIn s.m p (PWR_DOM_CTL_REQ d) 2 → (domSt s.m d = dsOFF ∨ domSt s.m d = dsRET) →
      Does (.powerRequest p d 2) s fun t => domSt t d = dsWAKING) ∧
    (∀ d : Fin 87, domSt s.m d = dsWAKING → s.m.getDwait d = false → s.m.g (PWR_DOM_STATUS_STEP d) ≠ 0 →
      Does (.wakeStepReady d) s fun t =>
        if s.m.g (PWR_DOM_STATUS_STEP d) < 4 then t.g (PWR_DOM_STATUS_STEP d) = s.m.g (PWR_DOM_STATUS_STEP d) + 1
        else if reqMet s.m d = true then domSt t d = dsON
        else domSt t d = dsFAILED ∧ t.g (PWR_DOM_STATUS_CAUSE d) = dcDEPENDENCY) ∧
    (∀ d : Fin 87, domSt s.m d = dsWAKING → s.m.getDwait d = false → s.m.g (PWR_DOM_STATUS_STEP d) ≠ 0 →
      s.m.g (PWR_DOM_STATUS_RETRIES d) < 3 →
      Does (.wakeStepTimeout d) s fun t =>
        t.g (PWR_DOM_STATUS_RETRIES d) = s.m.g (PWR_DOM_STATUS_RETRIES d) + 1 ∧
        t.g (PWR_DOM_STATUS_CAUSE d) = s.m.g (PWR_DOM_STATUS_STEP d) ∧ t.getDwait d = true) ∧
    (∀ d : Fin 87, domSt s.m d = dsWAKING → s.m.getDwait d = true →
      Does (.wakeRetryWaitEnd d) s fun t => t.getDwait d = false ∧ domSt t d = dsWAKING)

/-- How a power domain fails, drains and stops (R381, R383, R385, R386): the watchdog and a lost rail make it FAILED with
their causes, a drain that is complete enters STOPPING, one that times out returns to ON, and STOPPING ends in OFF. -/
def Obligations.PowerStopCompletes : Prop :=
  ∀ s : State, s.Inv → SequencerAtRest s.m →
    (∀ d : Fin 87, domSt s.m d = dsWAKING →
      Does (.sequencerWatchdog d) s fun t =>
        domSt t d = dsFAILED ∧ t.g (PWR_DOM_STATUS_CAUSE d) = dcSEQUENCER) ∧
    (∀ d : Fin 87, (d : Nat) ≠ 0 → domSt s.m d = dsON →
      Does (.lostReady d) s fun t => domSt t d = dsFAILED ∧ t.g (PWR_DOM_STATUS_CAUSE d) = dcLOST_READY) ∧
    (∀ d : Fin 87, domSt s.m d = dsDRAINING → drainNow s.m d = 0 →
      Does (.drainComplete d) s fun t => domSt t d = dsSTOPPING) ∧
    (∀ d : Fin 87, domSt s.m d = dsDRAINING → drainNow s.m d ≠ 0 →
      Does (.drainTimeout d) s fun t => domSt t d = dsON ∧ t.g (PWR_DOM_CTL_REQ d) = 2) ∧
    (∀ d : Fin 87, domSt s.m d = dsSTOPPING → s.m.getDtgt d = 0 → s.m.g (PWR_DOM_STATUS_PENDING_ENABLE d) = 0 →
      Does (.stoppingDone d) s fun t => domSt t d = dsOFF)

/-- Clocks, temperature, the AO regulator and the AVS rail (R379, R390, R391, R439), with the two counter and margin writes
of the PWR block. Which of several hottest sensors a sample names is an operand (notes/assumptions: 177). -/
def Obligations.PowerMonitorsComplete : Prop :=
  ∀ s : State, s.Inv →
    (s.m.g PWR_CLK_STATUS_REFCLK_OK = 1 →
      Does .refclkLoss s fun t => ∃ e, t.aoLatch = s.m.aoLatch ++ [e] ∧ e.sev = 3 ∧ e.code = 0x0A87) ∧
    (∀ pin command : Bool, s.m.g PWR_CLK_STATUS_REFCLK_OK = 0 → s.m.pins.porst = false →
      (∀ e ∈ s.m.aoLatch, e.code ≠ 0x0A87) →
      Does (.refclkReturn pin command) s fun t =>
        t.g PWR_CLK_STATUS_REFCLK_OK = 1 ∧ t.g PWR_CLK_STATUS_LFO_ACTIVE = 0) ∧
    (∀ (temps : List Int) (i : Fin 32) (x : Int), s.m.g PWR_THERM_STATUS_TRIP = 0 → temps.length ≤ 32 → x < 120 →
      temps[(i : Nat)]? = some x → (∀ (j : Nat) (y : Int), temps[j]? = some y → y ≤ x) →
      Does (.thermalSample temps i) s fun t =>
        t.g PWR_THERM_STATUS_TEMP = ofSigned 8 x ∧ t.g PWR_THERM_STATUS_SENSOR = i) ∧
    (throttlePoint s.m ≤ tempNow s.m →
      Does .throttleStep s fun t => t.g PWR_THERM_STATUS_LEVEL = Nat.min 15 (s.m.g PWR_THERM_STATUS_LEVEL + 1)) ∧
    (s.m.g PWR_AO_LDO_MODE = 1 →
      Does .ldoSoftBrownout s fun t => t.g PWR_AO_LDO_MODE = 0 ∧ t.g PWR_AO_LDO_LP_FORCED = 1) ∧
    (∀ v, s.m.avs.mv = some v → v < 1024 → Does .avsWriteAck s fun t => t.g PWR_AVS_TARGET = v) ∧
    (∀ v, s.m.avs.mv = some v →
      Does .avsWriteTimeout s fun t =>
        if s.m.avs.tries < 3 then t.avs.tries = s.m.avs.tries + 1 else t.g PWR_AVS_FAULT = 1) ∧
    (∀ (p : Path) (margin : BitVec 8), LandsIn s.m p PWR_AVS_MARGIN margin.toNat →
      Does (.avsMarginWrite p margin) s fun t => t.g PWR_AVS_MARGIN = margin.toNat) ∧
    (∀ p : Path, LandsIn s.m p PWR_CTL_CLR_CNT 1 →
      Does (.pwrClrCnt p) s fun t => ∀ d < 87, t.g (PWR_DOM_STATUS_WAKES d) = 0)

/-- The slot power channels (R398-R407): the window, the delays, the ramp, the three faults with their causes, power-good
and the requests. Where it rests on a choice of the model, the choice is logged (notes/assumptions: 66). -/
def Obligations.SlotChannelsComplete : Prop :=
  ∀ s : State, s.Inv →
    (∀ n : Fin 32, slpState s.m n = scINSERT → (s.m.getSlp n).en = true → (s.m.getSlp n).req = true →
      slpPresent s.m n = true → (s.m.getSlp n).inWin = true → (s.m.getSlp n).retryRun = false →
      Does (.insertDelayEnd n) s fun t => slpState t n = scRAMP ∧ (t.getSlp n).gate = true) ∧
    (∀ (n : Fin 32) (vin : Nat), vin < 2 ^ 16 →
      Does (.vinWindowCrossing n vin) s fun t => t.g (SLP_MEAS_VIN n) = vin) ∧
    (∀ (n : Fin 32) (x : Meas), (s.m.getSlp n).gate = true → 250 * (s.m.getSlp n).ilim < x.vsense →
      Does (.fastTrip n x) s fun t => t.g (SLP_STATUS_CAUSE n) = 2 ∧ (t.getSlp n).gate = false) ∧
    (∀ (n : Fin 32) (x : Meas), slpState s.m n = scON →
      Does (.faultTimerExpiry n x) s fun t => t.g (SLP_STATUS_CAUSE n) = 1 ∧ (t.getSlp n).gate = false) ∧
    (∀ (n : Fin 32) (x : Meas), slpState s.m n = scRAMP →
      Does (.rampTimeout n x) s fun t => t.g (SLP_STATUS_CAUSE n) = 3 ∧ (t.getSlp n).gate = false) ∧
    (∀ (n : Fin 32) (x : Meas), slpState s.m n = scRAMP → fullyOn x = true →
      Does (.gateFullyOn n x) s fun t => slpState t n = scON ∧ (t.getSlp n).full = true) ∧
    (∀ n : Fin 32, slpState s.m n = scON → (s.m.getSlp n).full = true →
      Does (.pgDeglitchEnd n) s fun t => t.g (SLP_STATUS_PG n) = 1) ∧
    (∀ (n : Fin 32) (x : Meas), slpState s.m n = scON → fullyOn x = false →
      Does (.pgConditionsLost n x) s fun t => (t.getSlp n).full = false) ∧
    (∀ n : Fin 32, slpState s.m n = scRETRY_WAIT → (s.m.getSlp n).en = true → (s.m.getSlp n).req = true →
      slpPresent s.m n = true → (s.m.getSlp n).inWin = true →
      Does (.retryTimerExpiry n) s fun t => slpState t n = scRAMP ∧ (t.getSlp n).retryRun = false) ∧
    (∀ n : Fin 32, (s.m.getSlp n).offWait = true → Does (.gateOffDelayEnd n) s fun t => (t.getSlp n).gate = false) ∧
    (∀ (v : Fin 64) (p : Fin 128) (on : Bool), hostSlot s.m v p = true →
      Does (.powerControllerWrite v p on) s fun t => t.g (SLP_CTL_POWER_REQ (p / 4)) = flag on) ∧
    (∀ (p : Path) (n : Fin 32) (on : Bool), LandsIn s.m p (SLP_CTL_POWER_REQ n) (flag on) →
      Does (.slotPowerReq p n on) s fun t => t.g (SLP_CTL_POWER_REQ n) = flag on) ∧
    (∀ (p : Path) (n : Fin 32), LandsIn s.m p (SLP_CTL_UNLATCH n) 1 → s.m.g GLB_STRUCT_STATUS_STATE ≠ stENABLED →
      (s.m.getSlp n).en = true → (s.m.getSlp n).req = true → slpPresent s.m n = true →
      (s.m.getSlp n).retryRun = true →
      Does (.unlatch p n) s fun t => slpState t n = scRETRY_WAIT) ∧
    (∀ (p : Path) (n : Fin 32), LandsIn s.m p (SLP_CTL_CLR_CNT n) 1 → s.m.g GLB_STRUCT_STATUS_STATE ≠ stENABLED →
      Does (.slotClrCnt p n) s fun t => t.rd ⟨.SLP_CNT, n⟩ = 0#64)

/-- What a command of the pins, of structure or of a port leaves as it was (R41-R80): every register, every thing beside the
registers and every fuse outside what `portTouches` gives it. -/
def Obligations.PortFrame : Prop :=
  ∀ (s t : State) (c : Instr) (F : Foot), s.Inv → portTouches c = some F → exec c s = .next t → F.keeps s.m t.m

/-- What a command of the Crossing and its planes leaves as it was (R81-R112): all but what `crossingTouches` gives it. -/
def Obligations.CrossingFrame : Prop :=
  ∀ (s t : State) (c : Instr) (F : Foot), s.Inv → crossingTouches c = some F → exec c s = .next t → F.keeps s.m t.m

/-- What a command of the Squares and the Corners leaves as it was (R113-R166): all but what `squareTouches` gives it. -/
def Obligations.SquareFrame : Prop :=
  ∀ (s t : State) (c : Instr) (F : Foot), s.Inv → squareTouches c = some F → exec c s = .next t → F.keeps s.m t.m

/-- What a command of the Plaza and its scheduler leaves as it was (R167-R221): all but what `plazaTouches` gives it. -/
def Obligations.PlazaFrame : Prop :=
  ∀ (s t : State) (c : Instr) (F : Foot), s.Inv → plazaTouches c = some F → exec c s = .next t → F.keeps s.m t.m

/-- What a command of the rings, the Loom, the Kiosk, the Kerb or the slices leaves as it was (R222-R300): all but what
`ringTouches` gives it. -/
def Obligations.RingFrame : Prop :=
  ∀ (s t : State) (c : Instr) (F : Foot), s.Inv → ringTouches c = some F → exec c s = .next t → F.keeps s.m t.m

/-- What a command of the Spindle, the Whorl or the pair leaves as it was (R301-R351): all but what `twinTouches` gives
it. -/
def Obligations.TwinFrame : Prop :=
  ∀ (s t : State) (c : Instr) (F : Foot), s.Inv → twinTouches c = some F → exec c s = .next t → F.keeps s.m t.m

/-- What a command of integrity, power or the slot channels leaves as it was (R352-R411): all but what `powerTouches` gives
it. -/
def Obligations.PowerFrame : Prop :=
  ∀ (s t : State) (c : Instr) (F : Foot), s.Inv → powerTouches c = some F → exec c s = .next t → F.keeps s.m t.m

/-- What a command of firmware, management, observation or tests leaves as it was (R412-R432): all but what `manageTouches`
gives it. -/
def Obligations.ManageFrame : Prop :=
  ∀ (s t : State) (c : Instr) (F : Foot), s.Inv → manageTouches c = some F → exec c s = .next t → F.keeps s.m t.m

/-- A command that is one register write, where the write is accepted: it changes its own register, what that field's effect
is (Table 0.3) and the trace of the write (R433), and nothing else. -/
def Obligations.CommandWriteFrame : Prop :=
  ∀ (s t : State) (c : Instr) (p : Path) (r : Reg) (data mask : Nat), s.Inv → aim c = some (p, r, data, mask) →
    Lands s.m p r data mask → exec c s = .next t →
    ((landed c).and [.DBG_TRACE_STATUS] [.trc, .trcNext] [r]).keeps s.m t.m

/-- A write of any register by its address, where it is accepted (R424): as REGISTER_WRITE, as CTL_WRITE, over the Spindle
from the partner, or from TM_PROGRAM. What it changes is the register, what a write of that register does, the trace, and
MODIFIED where it changes a locked field (R30). Where it rests on a choice of the model, the choice is logged
(notes/assumptions: 86). -/
def Obligations.RegisterWriteFrame : Prop :=
  ∀ (s t : State) (p : Path) (r : Reg) (data mask : Word) (c : Instr), s.Inv → Lands s.m p r data.toNat mask.toNat →
    (c = .registerWrite [⟨p, r.addr, 8, data, mask⟩] ∨ c = .ctlWrite p r.addr data mask ∨
      (p = .partner ∧ c = .spindleCtlWrite r.addr data mask) ∨
      (p = .firmware 0 ∧ ∃ (x : Fin 2) (st : Nat), c = .tmProgram x st [(r.addr, data, mask)])) →
    exec c s = .next t →
    ((writeEffect r).and ((if changesRwl r.k (s.m.rd r).toNat (asked r.k (s.m.rd r).toNat data.toNat mask.toNat)
        then [.GLB_STRUCT_STATUS] else []) ++ [.DBG_TRACE_STATUS] ++
        match c with | .tmProgram _ _ _ => [.FWM_MB_CTL, .FWM_MB_RSP] | _ => []) [.trc, .trcNext] [r]).keeps s.m t.m

/-- A refused write changes nothing but what records the refusal (R6, R424, R459): for every command that is one register
write, where its path does not reach the register or a test of the write fails. Where it rests on a choice of the model, the
choice is logged (notes/assumptions: 85, 86, 87). -/
def Obligations.RefusedWriteFrame : Prop :=
  ∀ (s t : State) (c : Instr) (p : Path) (r : Reg) (data mask : Nat), s.Inv → aim c = some (p, r, data, mask) →
    (∀ x, c ≠ .mbWarmReset x) → regAt r.addr = some r → r.addr % 8 = 0 → r.k ≠ .TEN_OBJ_DATA →
    (isPage p = true → r.k ≠ .TEN_VIOL ∧ r.k ≠ .TEN_OBJ_SEL) →
    (isPage p = true ∨ reaches s.m p r.addr true (data &&& mask) = false ∨ writeTest s.m r data mask p ≠ rcOK) →
    exec c s = .next t → Foot.refused.keeps s.m t.m

/-- What a read of a data register leaves as it was (R457): all but the register that the read advances and the record of a
refused access. -/
def Obligations.ReadFrame : Prop :=
  ∀ (s t : State) (c : Instr) (F : Foot), s.Inv → readTouches c = some F → exec c s = .next t → F.keeps s.m t.m

/-- What the rest of the accesses leave as it was: a burst into the staging memory (R31), and a tenant's write through its
aperture (R300), where it stands for a register of the tenant's own and where it does not. -/
def Obligations.AccessFrame : Prop :=
  ∀ (s t : State), s.Inv →
    (∀ (p : Path) (addr : Nat) (data : List Word),
      (∀ f ∈ s.m.faulty, (⟨.MLD_STAGE_ADDR, 0⟩ : Reg) ∉ f.left ∧ (⟨.MLD_STAGE_DATA, 0⟩ : Reg) ∉ f.left) →
      exec (.stageWrite p addr data) s = .next t →
      (Foot.refused.and [.MLD_STAGE_ADDR, .MLD_STAGE_DATA] [.stage]).keeps s.m t.m) ∧
    (∀ (p : Path) (sl : Fin 256) (word : Fin 8) (data : Word) (own : Bool) (r : Reg),
      apertureReg s.m sl word = some (own, some r) → (∀ f ∈ s.m.faulty, r ∉ f.left) →
      exec (.apertureAccess p sl word (some data)) s = .next t →
      ((writeEffect r).and (Foot.refused.regs ++ [.TEN_OBJ_STATUS]) Foot.refused.tabs [r]).keeps s.m t.m) ∧
    (∀ (p : Path) (sl : Fin 256) (word : Fin 8) (data : Word),
      (∀ own r, apertureReg s.m sl word ≠ some (own, some r)) →
      exec (.apertureAccess p sl word (some data)) s = .next t →
      (Foot.refused.and [] [] [⟨.TEN_OBJ_STATUS, sl⟩]).keeps s.m t.m)

/-- What a load leaves as it was (R31-R33): a refused full image changes nothing but the loader's status, with an event where
it was a boot load; an accepted one changes the registers that hold fields of the image, their identification, and what the
image says beside registers; where its WHORL_MISS makes the partner gone or heard, also what a change of that witness can
(R325). -/
def Obligations.LoadFrame : Prop :=
  ∀ (s t : State) (image : Image) (cmd code : Nat), s.Inv → s.m.ldr.running = some (cmd, code) →
    exec (.imageLoadDone image) s = .next t →
    let v := verify s.m.fuse (s.m.g MLD_SVN_MIN_SVN_MIN) (s.m.g GLB_ID_STEPPING)
      (if cmd = 3 then stageImage s.m else image.bytes)
    if v.reason ≠ 0 then (Foot.event.and [.MLD_STATUS] [.ldr]).keeps s.m t.m
    else v.pol = false →
      (Foot.witness.and (imageKinds ++ [.TWN_WHL_STATUS]) [.ldr, .vcs, .ldb, .homeSel, .domDef]).keeps s.m t.m ∧
      (t.m.g TWN_WHL_STATUS_PARTNER_GONE = s.m.g TWN_WHL_STATUS_PARTNER_GONE →
        (Foot.event.and imageKinds [.ldr, .vcs, .ldb, .homeSel, .domDef]).keeps s.m t.m)

/-- What reset leaves: the invariant holds, no command waits, nothing has left the part, every register reads its reset
value (Table 19.3), nothing is listed in any array, structure is DISABLED, the role is SOLO and the firmware event queue is
off. Where it rests on a choice of the model, the choice is logged (notes/assumptions: 13). -/
def Obligations.ResetState : Prop :=
  State.reset.Inv ∧ State.reset.pending = [] ∧ State.reset.m.out = [] ∧
  (∀ r : Reg, State.reset.m.rd r = resetVal r) ∧
  (∀ n, State.reset.m.getSram n = 0#64) ∧ (∀ n, State.reset.m.getStage n = 0#64) ∧
  (∀ n, State.reset.m.getDir n = ({} : DirEnt)) ∧
  State.reset.m.g GLB_STRUCT_STATUS_STATE = stDISABLED ∧ State.reset.m.g TWN_ROLE_STATE = roSOLO ∧
  State.reset.m.g TWN_ROLE_MIRRORED = 0 ∧ State.reset.m.g INT_EVQ_BASE_EN = 0

/-- Every step keeps the invariant: the register file and every table stay in their canonical forms, no register outside the
control space, no fixed register and no reserved bit is ever set (R6, R23, R456), the fence of an FE record is set in the
step that raises it (R369), and the records of a step are delivered in it (R370; the model's choice, notes/assumptions:
170). -/
def Obligations.StepKeepsInvariant : Prop :=
  ∀ s t : State, s.Inv → step s = .next t → t.Inv

/-- A step takes the command at the front of the queue and runs it on the block with the queue's rest. -/
def Obligations.StepRunsTheFront : Prop :=
  ∀ (s : State) (c : Instr) (r : List Instr), s.pending = c :: r → step s = exec c { s with pending := r }

/-- On an empty queue a step is one cycle of the 2.0 GHz core clock (the model's choice, notes/assumptions/1.md): while the part
is out of reset the traffic manager's copy of the time base steps by 0.5 ns, and every 80th such cycle is one of the AO
clock, as is each one without REFCLK. The time base then advances by TB_ADDEND, a 12.32 fixed-point number of nanoseconds,
and wraps with its 48 bits of seconds, and the copy takes its value again. While PORST_N holds the part both stand (R208,
R209). -/
def Obligations.IdleStep : Prop :=
  ∀ s : State, s.Inv → s.pending = [] →
    ∃ t, step s = .next t ∧ t.pending = [] ∧
      (s.m.pins.porst = true → t.m.tb = s.m.tb ∧ t.m.tmSub = s.m.tmSub) ∧
      (s.m.pins.porst = false → s.m.g TB_STATUS_LFO = 0 → s.m.tmSub + 1 < 80 →
        t.m.tb = s.m.tb ∧ t.m.tmSub = s.m.tmSub + 1) ∧
      (s.m.pins.porst = false → s.m.g TB_STATUS_LFO = 1 ∨ 80 ≤ s.m.tmSub + 1 →
        t.m.tmSub = 0 ∧ t.m.tns = (s.m.tns + (s.m.tb.frac + s.m.g TB_ADDEND_ADDEND) / 2 ^ 32) % (2 ^ 48 * 1000000000) ∧
        t.m.tb.frac = (s.m.tb.frac + s.m.g TB_ADDEND_ADDEND) % 2 ^ 32 ∧ t.m.tb.ns < 1000000000 ∧
        t.m.tb.sec < 2 ^ 48)

/-- Every command with every operand answers a next state in which the commands that wait still wait: what the spec refuses
is an effect (a record, a count, an event), and nothing stops the block. Where it rests on a choice of the model, the choice
is logged (notes/assumptions: 109). -/
def Obligations.EveryCommandRuns : Prop :=
  ∀ (c : Instr) (s : State), ∃ t, exec c s = .next t ∧ t.pending = s.pending

/-- The control space (R456): every register instance has an address of its own, a multiple of 8 within the 64 Mbyte, that names it
and nothing else, and every address that names a register is that register's. -/
def Obligations.AddressMap : Prop :=
  (∀ r : Reg, r.i < r.k.count → regAt r.addr = some r ∧ r.addr % 8 = 0 ∧ r.addr < 2 ^ 26) ∧
  (∀ (a : Nat) (r : Reg), regAt a = some r → r.addr = a ∧ r.i < r.k.count)

/-- The registers that identify the part (R23): GLB_CAP0 and GLB_CAP1 hold the capacities of Table 1.3 in every state of the
invariant, GLB_ID's PART, STEPPING and GRADE are what they are after every step, and GLB_ID as a whole, with the strap in it, is
changed by no command but those that sample the strap: by no image and no warm reset. -/
def Obligations.PartIdentity : Prop :=
  (∀ s : State, s.Inv →
    s.m.rd ⟨.GLB_CAP0, 0⟩ = 0x5720402040800100#64 ∧ s.m.rd ⟨.GLB_CAP1, 0⟩ = 0x40600E0F140F1217#64) ∧
  (∀ s t : State, s.Inv →
    s.m.g GLB_ID_PART = 0x9600 → s.m.g GLB_ID_STEPPING = 0xB0 → s.m.g GLB_ID_GRADE = 0x58 → step s = .next t →
    t.m.g GLB_ID_PART = 0x9600 ∧ t.m.g GLB_ID_STEPPING = 0xB0 ∧ t.m.g GLB_ID_GRADE = 0x58) ∧
  (∀ (s t : State) (c : Instr), s.Inv → samplesStrap c = false → exec c s = .next t →
    t.m.rd ⟨.GLB_ID, 0⟩ = s.m.rd ⟨.GLB_ID, 0⟩)

/-- Reserved bits (R6): in every state of the invariant every register holds 0 in them, and a write of a whole register that sets one,
over a path that reaches the register, changes nothing but the record of its refusal, a WRITE_REFUSED record (0xCC80 with
CC the class) that carries the block's LIMIT reason code. -/
def Obligations.ReservedBits : Prop :=
  (∀ (s : State) (r : Reg), s.Inv → (s.m.rd r).toNat &&& namedBits r.k = (s.m.rd r).toNat) ∧
  (∀ (s : State) (p : Path) (r : Reg) (data mask : Word), s.Inv →
    r.addr % 8 = 0 → regAt r.addr = some r →
    reaches s.m p r.addr true (data.toNat &&& mask.toNat) = true →
    data.toNat &&& mask.toNat &&& namedBits r.k ≠ data.toNat &&& mask.toNat →
    ∃ t, exec (.registerWrite [⟨p, r.addr, 8, data, mask⟩]) s = .next t ∧ Foot.refused.keeps s.m t.m ∧
      (domOn s.m 2 = true → s.m.g INT_EVQ_BASE_EN = 0 → s.m.hold.length < 256 →
        ∃ e, t.m.hold = s.m.hold ++ [e] ∧ e.code = r.k.desc.blk.limit / 256 * 256 + 0x80 ∧
          e.addr = r.addr ∧ bitsAt e.detail 0 16 = r.k.desc.blk.limit) ∧
      (domOn s.m 2 = true → s.m.g INT_EVQ_BASE_EN = 1 →
        16 ≤ 2 ^ s.m.g INT_EVQ_BASE_SIZE_LOG2 - idxDiff (s.m.g INT_EVQ_IDX_PROD) (s.m.g INT_EVQ_IDX_CONS) →
        bitsAt (t.m.getSram (evqSlot s.m (s.m.g INT_EVQ_IDX_PROD) + 1)).toNat 16 16 = r.k.desc.blk.limit / 256 * 256 + 0x80 ∧
        bitsAt (t.m.getSram (evqSlot s.m (s.m.g INT_EVQ_IDX_PROD) + 3)).toNat 0 16 = r.k.desc.blk.limit))

/-- MIRRORED follows the role (R331): 1 in SENDING, SPLIT and RESYNC and 0 otherwise. Every step keeps this, and it holds at
reset. -/
def Obligations.MirroredFollowsRole : Prop :=
  let ok (m : Mach) : Prop :=
    (m.g TWN_ROLE_STATE = roSENDING ∨ m.g TWN_ROLE_STATE = roSPLIT ∨ m.g TWN_ROLE_STATE = roRESYNC →
      m.g TWN_ROLE_MIRRORED = 1) ∧
    (m.g TWN_ROLE_STATE ≠ roSENDING → m.g TWN_ROLE_STATE ≠ roSPLIT → m.g TWN_ROLE_STATE ≠ roRESYNC →
      m.g TWN_ROLE_MIRRORED = 0)
  ok State.reset.m ∧ ∀ s t : State, s.Inv → ok s.m → step s = .next t → ok t.m

/-- Corrected errors (R371): a corrected word of memory type `mem`, found by a merge buffer that drains into it or by the scrub, counts
in the memory's count, and raises MEM_CORRECTED where the count is now 1 or a multiple of CE_THRESH. A merge that finds
it at another count raises nothing. -/
def Obligations.CorrectedErrors : Prop :=
  ∀ (s : State) (mem inst n row : Nat) (spare : Bool), s.Inv → mem < RegKind.INT_CNT_CE.count →
    let now := s.m.g (INT_CNT_CE_COUNT mem) + 1
    let due := now = 1 ∨ now % s.m.g INT_CTL_CE_THRESH = 0
    Does (.mergeDrain mem inst n false (.corrected row spare)) s (fun t =>
      t.g (INT_CNT_CE_COUNT mem) = Nat.min now (2 ^ 64 - 1) ∧
      (due → Told 0x0C81 s.m t) ∧ (¬due → t.hold = s.m.hold ∧ t.sram = s.m.sram)) ∧
    (s.m.scrub.mem = mem → s.m.g INT_SCRUB_STATUS_BUSY = 1 → s.m.g INT_SCRUB_STATUS_NEXT ≤ s.m.scrub.last →
      s.m.scrub.abort = false → domOn s.m (memDom s.m.scrub.mem s.m.scrub.inst) = true →
      Does (.scrubWord (.corrected row spare)) s (fun t =>
        t.g (INT_CNT_CE_COUNT mem) = Nat.min now (2 ^ 64 - 1) ∧ (due → Told 0x0C81 s.m t)))

/-- A fence holds (R339): no command but a cold reset and UNFENCE ends it, whatever the partner, the Spindle, the firmware or an
image do; a warm reset ends it only where PAIRED is 0 and was 0 when the fence was set. No home move is open while it
holds. -/
def Obligations.FenceHolds : Prop :=
  ∀ (s t : State) (c : Instr), s.Inv → fenced s.m = true → s.m.g TWN_ROLE_MOVING = 0 →
    clearsFence c = false →
    (mayWarmReset c = true → s.m.g TWN_CFG_PAIRED = 1 ∨ s.m.twx.pairedFence = true) →
    exec c s = .next t → fenced t.m = true ∧ t.m.g TWN_ROLE_MOVING = 0

/-- A cold reset (R412, R462, Table 19.4): PORST_N returns every register to its reset value but for the cause of the reset,
what shows REFCLK, and the addend of the time base, which follows it; every array, queue and buffer of the block is empty.
Where it rests on a choice of the model, the choice is logged (notes/assumptions: 13, 99). -/
def Obligations.ColdResetClears : Prop :=
  ∀ (s t : State) (cause : ColdCause) (pin command : Bool), s.Inv → cause ≠ .brownout →
    exec (.coldReset cause pin command) s = .next t →
    (∀ r : Reg, r.k ∉ [.PWR_CLK_STATUS, .TB_STATUS, .TB_ADDEND, .PWR_RESET_CAUSE] → t.m.rd r = resetVal r) ∧
    (∀ T : Tab, T ∉ [.out, .pins, .freeCtr, .mcNext, .stampCtr, .accNext] → T.same State.reset.m t.m)

/-- A warm reset (R412, R462, Table 19.4): SYS_RESET_N keeps the registers that hold RWS fields, live state and fuses, the
time base and the staging memory, and returns every other register to its reset value but for those that show the reset
itself and the start-up that follows. Where it rests on a choice of the model, the choice is logged (notes/assumptions: 97).
-/
def Obligations.WarmResetKeeps : Prop :=
  ∀ (s t : State) (command : Bool), s.Inv → s.m.pins.porst = false → s.m.g PWR_THERM_STATUS_TRIP = 0 →
    exec (.warmReset true command) s = .next t →
    (∀ r : Reg, r.k ∈ [.GLB_ARB_CFG, .FWM_BOOT_CTL, .TB_CTL, .TB_PPS_CFG, .TB_TOD, .TB_TIME_NS, .TB_TIME_SEC, .TB_TIME64,
        .TB_STATUS, .TB_PPS_CAP, .PWR_CLK_STATUS, .PWR_THERM_STATUS, .SLP_STATUS, .SLP_MEAS, .TWN_WHL_STATUS, .GLB_ID,
        .GLB_CAP0, .GLB_CAP1, .MLD_SVN_MIN, .TST_EXPECT, .INT_RETIRE_STATUS] → t.m.rd r = s.m.rd r) ∧
    t.m.tb = s.m.tb ∧ t.m.stage = s.m.stage ∧ t.m.g GLB_STRUCT_STATUS_STATE = stDISABLED ∧
    t.m.g GLB_STRUCT_STATUS_REFUSALS = s.m.g GLB_STRUCT_STATUS_REFUSALS ∧
    t.m.g FWM_BOOT_STATUS_WDOG_RESETS = s.m.g FWM_BOOT_STATUS_WDOG_RESETS ∧
    (∀ r : Reg, r.k ∉ warmKept → r.k ∉ [.MLD_CTL, .FWM_BOOT_STATUS, .FWM_SVN, .PWR_DOM_STATUS, .TB_ADDEND, .OCT_STATUS,
        .PWR_RESET_CAUSE, .INT_EVQ_CNT, .INT_EVQ_IDX, .GLB_STRUCT_STATUS, .INT_REPAIR_STATUS] → t.m.rd r = resetVal r)
end

