-- ==== Sys2Proof/Laws/RegFile.lean ====
section
/-!
SUPPORT. The laws of the register file: bits and fields, the order of registers, what a store leaves, and the canonical
form.
-/
namespace Sys2Proof.Machine

/-! Bits. -/

theorem testBit_bitsAt (v lo w n : Nat) : (bitsAt v lo w).testBit n = (decide (n < w) && v.testBit (lo + n)) := by
  simp [bitsAt, ← Nat.shiftRight_eq_div_pow, Nat.testBit_mod_two_pow, Nat.testBit_shiftRight]

theorem bitsAt_lt (v lo w : Nat) : bitsAt v lo w < 2 ^ w := Nat.mod_lt _ (by positivity)

theorem bitsAt_eq_iff {v v' lo w : Nat} :
    bitsAt v lo w = bitsAt v' lo w ↔ ∀ n < w, v.testBit (lo + n) = v'.testBit (lo + n) := by
  constructor
  · intro h n hn
    have := congrArg (fun x => x.testBit n) h
    simpa [testBit_bitsAt, hn] using this
  · intro h
    apply Nat.eq_of_testBit_eq
    intro n
    by_cases hn : n < w <;> simp [testBit_bitsAt, hn]
    exact h n hn

theorem testBit_putBits (v lo w x n : Nat) :
    (putBits v lo w x).testBit n =
      if n < lo then v.testBit n else if n < lo + w then x.testBit (n - lo) else v.testBit n := by
  have h1 : putBits v lo w x = 2 ^ lo * (2 ^ w * (v / 2 ^ (lo + w)) + x % 2 ^ w) + v % 2 ^ lo := by
    unfold putBits; rw [pow_add]; ring
  rw [h1, Nat.testBit_two_pow_mul_add _ (Nat.mod_lt _ (by positivity))]
  split
  · simp [Nat.testBit_mod_two_pow, *]
  next h =>
    rw [Nat.testBit_two_pow_mul_add _ (Nat.mod_lt _ (by positivity))]
    by_cases h2 : n < lo + w
    · simp [show n - lo < w by omega, h2, Nat.testBit_mod_two_pow]
    · simp [show ¬n - lo < w by omega, h2, ← Nat.shiftRight_eq_div_pow, Nat.testBit_shiftRight,
        show lo + w + (n - lo - w) = n by omega]

/-- A field holds what was put into it. -/
theorem bitsAt_putBits_same (v lo w x : Nat) : bitsAt (putBits v lo w x) lo w = x % 2 ^ w := by
  apply Nat.eq_of_testBit_eq
  intro n
  by_cases hn : n < w <;> simp [testBit_bitsAt, testBit_putBits, hn]

/-- Bits outside a field stand. -/
theorem bitsAt_putBits_other {v lo w x lo' w' : Nat} (h : lo' + w' ≤ lo ∨ lo + w ≤ lo') :
    bitsAt (putBits v lo w x) lo' w' = bitsAt v lo' w' := by
  rw [bitsAt_eq_iff]
  intro n hn
  rw [testBit_putBits]
  split_ifs <;> first | rfl | omega

/-! The order of registers. -/

theorem RegKind.ctorIdx_lt (k : RegKind) : k.ctorIdx < 512 := by cases k <;> decide

theorem RegKind.ctorIdx_inj {k j : RegKind} (h : k.ctorIdx = j.ctorIdx) : k = j := by
  rw [← RegKind.ofNat_ctorIdx k, ← RegKind.ofNat_ctorIdx j, h]

/-- Two registers of one key are one register. -/
theorem Reg.key_inj {r q : Reg} (h : r.key = q.key) : r = q := by
  obtain ⟨k, i⟩ := r
  obtain ⟨j, n⟩ := q
  have hk := k.ctorIdx_lt
  have hj := j.ctorIdx_lt
  simp only [Reg.key] at h
  have h1 : k.ctorIdx = j.ctorIdx := by omega
  have h2 : i = n := by omega
  rw [RegKind.ctorIdx_inj h1, h2]

/-! The register file. -/

/-- The key lies above the bound. -/
def KeyAbove (b : Option Nat) (r : Reg) : Prop := ∀ x ∈ b, x < r.key

theorem keyAbove_none {r : Reg} : KeyAbove none r := by simp [KeyAbove]

theorem keyAbove_some {x : Nat} {r : Reg} : KeyAbove (some x) r ↔ x < r.key := by simp [KeyAbove]

variable {t : RegFile} {b : Option Nat} {r q : Reg} {v : Word}

theorem regsWfFrom_cons {a : Reg} {w : Word} :
    regsWfFrom b ((a, w) :: t) = true ↔ KeyAbove b a ∧ entryOk (a, w) = true ∧ regsWfFrom (some a.key) t = true := by
  cases b <;> simp [regsWfFrom, KeyAbove, and_assoc]

theorem regsWfFrom_weaken {a : Reg} (h : regsWfFrom (some a.key) t = true) (hb : KeyAbove b a) :
    regsWfFrom b t = true := by
  cases t with
  | nil => rfl
  | cons e s =>
    obtain ⟨x, w⟩ := e
    rw [regsWfFrom_cons] at h ⊢
    exact ⟨fun y hy => (hb y hy).trans (keyAbove_some.1 h.1), h.2⟩

theorem regPut_wfFrom (h : regsWfFrom b t = true) (hb : KeyAbove b r)
    (hv : v ≠ resetVal r → entryOk (r, v) = true) : regsWfFrom b (regPut t r v) = true := by
  induction t generalizing b with
  | nil =>
    by_cases hr : v = resetVal r
    · simp [regPut, hr]; rfl
    · simp only [regPut, hr, if_false]
      exact regsWfFrom_cons.2 ⟨hb, hv hr, rfl⟩
  | cons e s ih =>
    obtain ⟨a, w⟩ := e
    have h' := regsWfFrom_cons.1 h
    simp only [regPut]
    split
    next heq =>
      subst heq
      split
      · exact regsWfFrom_weaken h'.2.2 h'.1
      next hr => exact regsWfFrom_cons.2 ⟨hb, hv hr, h'.2.2⟩
    next hne =>
      have hk : r.key ≠ a.key := fun e => hne (Reg.key_inj e).symm
      split
      next hlt =>
        split
        · exact h
        next hr => exact regsWfFrom_cons.2 ⟨hb, hv hr, regsWfFrom_cons.2 ⟨keyAbove_some.2 hlt, h'.2⟩⟩
      next hlt => exact regsWfFrom_cons.2 ⟨h'.1, h'.2.1, ih h'.2.2 (keyAbove_some.2 (by omega))⟩

/-- A store keeps the canonical form of the register file. -/
theorem regStore_wf (h : regsWf t = true) : regsWf (regStore t r v) = true := by
  unfold regStore
  split
  next hr =>
    refine regPut_wfFrom h keyAbove_none fun hv => ?_
    have hlt : v.toNat &&& implMask r.k < 2 ^ 64 := Nat.lt_of_le_of_lt Nat.and_le_left v.isLt
    have hn : (BitVec.ofNat 64 (v.toNat &&& implMask r.k)).toNat = v.toNat &&& implMask r.k := by
      rw [BitVec.toNat_ofNat, Nat.mod_eq_of_lt hlt]
    simp only [entryOk, hn, Nat.and_assoc, Nat.and_self]
    simp only [hr.1, hr.2, hv, decide_true, Bool.not_false, Bool.and_self, ne_eq, not_false_eq_true]
  · exact h

/-- Nothing is listed at or below the bound: such a register reads its reset value. -/
theorem regGet_below {a : Nat} (h : regsWfFrom (some a) t = true) (hr : r.key ≤ a) : regGet t r = resetVal r := by
  induction t generalizing a with
  | nil => rfl
  | cons e s ih =>
    obtain ⟨x, w⟩ := e
    have h' := regsWfFrom_cons.1 h
    have hx := keyAbove_some.1 h'.1
    have hne : x ≠ r := fun e => by subst e; omega
    simp only [regGet, hne, if_false]
    exact ih h'.2.2 (by omega)

theorem regGet_regPut_same_from (h : regsWfFrom b t = true) : regGet (regPut t r v) r = v := by
  induction t generalizing b with
  | nil => by_cases hr : v = resetVal r <;> simp [regPut, regGet, hr]
  | cons e s ih =>
    obtain ⟨a, w⟩ := e
    have h' := regsWfFrom_cons.1 h
    simp only [regPut]
    split
    next heq =>
      subst heq
      split
      next hr => rw [hr]; exact regGet_below h'.2.2 le_rfl
      · simp [regGet]
    next hne =>
      split
      next hlt =>
        split
        next hr =>
          have hs := regGet_below (r := r) h'.2.2 (by omega)
          simp [regGet, hne, hs, hr]
        · simp [regGet]
      · simp [regGet, hne, ih h'.2.2]

/-- What was put is read back. -/
theorem regGet_regPut_same (h : regsWf t = true) : regGet (regPut t r v) r = v := regGet_regPut_same_from h

/-- Every other register stands. -/
theorem regGet_regPut_other (hq : q ≠ r) : regGet (regPut t r v) q = regGet t q := by
  induction t with
  | nil => by_cases hr : v = resetVal r <;> simp [regPut, regGet, hr, Ne.symm hq]
  | cons e s ih =>
    obtain ⟨a, w⟩ := e
    simp only [regPut]
    split
    next heq =>
      subst heq
      split <;> simp [regGet, Ne.symm hq]
    · split
      · split <;> simp [regGet, Ne.symm hq]
      · simp [regGet, ih]

/-- What the hardware stores is read back, cut to the bits that the register implements (R6). -/
theorem regGet_regStore_same (h : regsWf t = true) (hi : r.i < r.k.count) (hw : hardwired r = false) :
    regGet (regStore t r v) r = BitVec.ofNat 64 (v.toNat &&& implMask r.k) := by
  simp [regStore, hi, hw, regGet_regPut_same h]

/-- A store of one register leaves every other as it was. -/
theorem regGet_regStore_other (hq : q ≠ r) : regGet (regStore t r v) q = regGet t q := by
  unfold regStore
  split
  · exact regGet_regPut_other hq
  · rfl

/-- A fixed register and a place outside an array are never stored (R23). -/
theorem regStore_hardwired (h : hardwired r = true) : regStore t r v = t := by simp [regStore, h]

/-- In a canonical file a register holds no bit that it does not implement, unless it is at its reset value (R6). -/
theorem regGet_masked (h : regsWfFrom b t = true) :
    regGet t r = resetVal r ∨ (regGet t r).toNat &&& implMask r.k = (regGet t r).toNat := by
  induction t generalizing b with
  | nil => exact .inl rfl
  | cons e s ih =>
    obtain ⟨a, w⟩ := e
    have h' := regsWfFrom_cons.1 h
    by_cases ha : a = r
    · subst ha
      have := h'.2.1
      simp only [entryOk, Bool.and_eq_true, decide_eq_true_eq] at this
      exact .inr (by simpa [regGet] using this.2)
    · simpa [regGet, ha] using ih h'.2.2

/-! Fields. -/

/-- A field of a stored register that the hardware can set: in its array, not fixed, and within what is implemented. -/
def RF.storable (f : RF) : Bool :=
  decide (f.i < f.k.count) && !hardwired ⟨f.k, f.i⟩ && decide (f.lo + f.w ≤ 64) &&
    decide ((2 ^ f.w - 1) * 2 ^ f.lo &&& implMask f.k = (2 ^ f.w - 1) * 2 ^ f.lo)

/-- The bits of a field survive the cut to the implemented bits. -/
theorem bitsAt_and_of_covers {v mask lo w : Nat} (h : (2 ^ w - 1) * 2 ^ lo &&& mask = (2 ^ w - 1) * 2 ^ lo) :
    bitsAt (v &&& mask) lo w = bitsAt v lo w := by
  rw [bitsAt_eq_iff]
  intro n hn
  have := congrArg (fun x => x.testBit (lo + n)) h
  simp [Nat.testBit_mul_two_pow, Nat.testBit_two_pow_sub_one, hn] at this
  simp [this]

theorem bitsAt_mod_64 {v lo w : Nat} (h : lo + w ≤ 64) : bitsAt (v % 2 ^ 64) lo w = bitsAt v lo w := by
  rw [bitsAt_eq_iff]
  intro n hn
  rw [Nat.testBit_mod_two_pow]
  simp only [show lo + n < 64 by omega, decide_true, Bool.true_and]

/-- The field of a register that has been stored. -/
theorem field_regStore_same {f : RF} {x : Nat} (h : regsWf t = true) (hi : f.i < f.k.count)
    (hw : hardwired ⟨f.k, f.i⟩ = false) (h64 : f.lo + f.w ≤ 64)
    (hm : (2 ^ f.w - 1) * 2 ^ f.lo &&& implMask f.k = (2 ^ f.w - 1) * 2 ^ f.lo) :
    bitsAt (regGet (regStore t ⟨f.k, f.i⟩ (BitVec.ofNat 64 x)) ⟨f.k, f.i⟩).toNat f.lo f.w = bitsAt x f.lo f.w := by
  rw [regGet_regStore_same h hi hw, BitVec.toNat_ofNat, bitsAt_mod_64 h64, bitsAt_and_of_covers hm, BitVec.toNat_ofNat,
    bitsAt_mod_64 h64]

end Sys2Proof.Machine
end

