-- ==== Sys2Proof/Laws/State.lean ====
section
/-!
SUPPORT. What every update leaves in every field of the block: the field it sets, and every other. Later proofs cite these
and unfold no record update.
-/
namespace Sys2Proof.Machine

variable (m : Mach) (u : Upd)

@[simp] theorem Upd.apply_regs :
    (u.apply m).regs = match u with | .reg r v => regStore m.regs r v | _ => m.regs := by cases u <;> rfl

@[simp] theorem Upd.apply_fuse : (u.apply m).fuse = m.fuse := by cases u <;> rfl

@[simp] theorem Upd.apply_out_self (v) : ((Upd.out v).apply m).out = v := rfl
@[simp] theorem Upd.apply_out (h : u.tab ≠ some .out) : (u.apply m).out = m.out := by
  cases u <;> first | rfl | exact absurd rfl h

@[simp] theorem Upd.apply_freeCtr_self (v) : ((Upd.freeCtr v).apply m).freeCtr = v := rfl
@[simp] theorem Upd.apply_freeCtr (h : u.tab ≠ some .freeCtr) : (u.apply m).freeCtr = m.freeCtr := by
  cases u <;> first | rfl | exact absurd rfl h

@[simp] theorem Upd.apply_pins_self (v) : ((Upd.pins v).apply m).pins = v := rfl
@[simp] theorem Upd.apply_pins (h : u.tab ≠ some .pins) : (u.apply m).pins = m.pins := by
  cases u <;> first | rfl | exact absurd rfl h

@[simp] theorem Upd.apply_tb_self (v) : ((Upd.tb v).apply m).tb = v := rfl
@[simp] theorem Upd.apply_tb (h : u.tab ≠ some .tb) : (u.apply m).tb = m.tb := by
  cases u <;> first | rfl | exact absurd rfl h

@[simp] theorem Upd.apply_hold_self (v) : ((Upd.hold v).apply m).hold = v := rfl
@[simp] theorem Upd.apply_hold (h : u.tab ≠ some .hold) : (u.apply m).hold = m.hold := by
  cases u <;> first | rfl | exact absurd rfl h

@[simp] theorem Upd.apply_evPend_self (v) : ((Upd.evPend v).apply m).evPend = v := rfl
@[simp] theorem Upd.apply_evPend (h : u.tab ≠ some .evPend) : (u.apply m).evPend = m.evPend := by
  cases u <;> first | rfl | exact absurd rfl h

@[simp] theorem Upd.apply_evLost_self (v) : ((Upd.evLost v).apply m).evLost = v := rfl
@[simp] theorem Upd.apply_evLost (h : u.tab ≠ some .evLost) : (u.apply m).evLost = m.evLost := by
  cases u <;> first | rfl | exact absurd rfl h

@[simp] theorem Upd.apply_aoLatch_self (v) : ((Upd.aoLatch v).apply m).aoLatch = v := rfl
@[simp] theorem Upd.apply_aoLatch (h : u.tab ≠ some .aoLatch) : (u.apply m).aoLatch = m.aoLatch := by
  cases u <;> first | rfl | exact absurd rfl h

@[simp] theorem Upd.apply_sram_self (k v) : ((Upd.sram k v).apply m).sram = tput 0#64 m.sram k v := rfl
@[simp] theorem Upd.apply_sram_all : (Upd.sramAll.apply m).sram = [] := rfl
@[simp] theorem Upd.apply_sram (h : u.tab ≠ some .sram) : (u.apply m).sram = m.sram := by
  cases u <;> first | rfl | exact absurd rfl h

@[simp] theorem Upd.apply_hlog_self (k v) : ((Upd.hlog k v).apply m).hlog = tput [] m.hlog k v := rfl
@[simp] theorem Upd.apply_hlog_all : (Upd.hlogAll.apply m).hlog = [] := rfl
@[simp] theorem Upd.apply_hlog (h : u.tab ≠ some .hlog) : (u.apply m).hlog = m.hlog := by
  cases u <;> first | rfl | exact absurd rfl h

@[simp] theorem Upd.apply_stage_self (k v) : ((Upd.stage k v).apply m).stage = tput 0#64 m.stage k v := rfl
@[simp] theorem Upd.apply_stage_all : (Upd.stageAll.apply m).stage = [] := rfl
@[simp] theorem Upd.apply_stage (h : u.tab ≠ some .stage) : (u.apply m).stage = m.stage := by
  cases u <;> first | rfl | exact absurd rfl h

@[simp] theorem Upd.apply_ldr_self (v) : ((Upd.ldr v).apply m).ldr = v := rfl
@[simp] theorem Upd.apply_ldr (h : u.tab ≠ some .ldr) : (u.apply m).ldr = m.ldr := by
  cases u <;> first | rfl | exact absurd rfl h

@[simp] theorem Upd.apply_vcs_self (k v) : ((Upd.vcs k v).apply m).vcs = tput ⟨false, 0xFF, 0xFF, 0, 0⟩ m.vcs k v := rfl
@[simp] theorem Upd.apply_vcs_all : (Upd.vcsAll.apply m).vcs = [] := rfl
@[simp] theorem Upd.apply_vcs (h : u.tab ≠ some .vcs) : (u.apply m).vcs = m.vcs := by
  cases u <;> first | rfl | exact absurd rfl h

@[simp] theorem Upd.apply_ldb_self (v) : ((Upd.ldb v).apply m).ldb = v := rfl
@[simp] theorem Upd.apply_ldb (h : u.tab ≠ some .ldb) : (u.apply m).ldb = m.ldb := by
  cases u <;> first | rfl | exact absurd rfl h

@[simp] theorem Upd.apply_homeSel_self (v) : ((Upd.homeSel v).apply m).homeSel = v := rfl
@[simp] theorem Upd.apply_homeSel (h : u.tab ≠ some .homeSel) : (u.apply m).homeSel = m.homeSel := by
  cases u <;> first | rfl | exact absurd rfl h

@[simp] theorem Upd.apply_domDef_self (v) : ((Upd.domDef v).apply m).domDef = v := rfl
@[simp] theorem Upd.apply_domDef (h : u.tab ≠ some .domDef) : (u.apply m).domDef = m.domDef := by
  cases u <;> first | rfl | exact absurd rfl h

@[simp] theorem Upd.apply_dec_self (k v) : ((Upd.dec k v).apply m).dec = tput ({} : Decoder) m.dec k v := rfl
@[simp] theorem Upd.apply_dec_all : (Upd.decAll.apply m).dec = [] := rfl
@[simp] theorem Upd.apply_dec (h : u.tab ≠ some .dec) : (u.apply m).dec = m.dec := by
  cases u <;> first | rfl | exact absurd rfl h

@[simp] theorem Upd.apply_port_self (k v) : ((Upd.port k v).apply m).port = tput ({} : PortX) m.port k v := rfl
@[simp] theorem Upd.apply_port_all : (Upd.portAll.apply m).port = [] := rfl
@[simp] theorem Upd.apply_port (h : u.tab ≠ some .port) : (u.apply m).port = m.port := by
  cases u <;> first | rfl | exact absurd rfl h

@[simp] theorem Upd.apply_sf_self (k v) : ((Upd.sf k v).apply m).sf = tput ⟨false, false, false, [], []⟩ m.sf k v := rfl
@[simp] theorem Upd.apply_sf_all : (Upd.sfAll.apply m).sf = [] := rfl
@[simp] theorem Upd.apply_sf (h : u.tab ≠ some .sf) : (u.apply m).sf = m.sf := by
  cases u <;> first | rfl | exact absurd rfl h

@[simp] theorem Upd.apply_msix_self (k v) : ((Upd.msix k v).apply m).msix = tput 0#64 m.msix k v := rfl
@[simp] theorem Upd.apply_msix_all : (Upd.msixAll.apply m).msix = [] := rfl
@[simp] theorem Upd.apply_msix (h : u.tab ≠ some .msix) : (u.apply m).msix = m.msix := by
  cases u <;> first | rfl | exact absurd rfl h

@[simp] theorem Upd.apply_ring_self (k v) : ((Upd.ring k v).apply m).ring = tput ({} : RingX) m.ring k v := rfl
@[simp] theorem Upd.apply_ring_all : (Upd.ringAll.apply m).ring = [] := rfl
@[simp] theorem Upd.apply_ring (h : u.tab ≠ some .ring) : (u.apply m).ring = m.ring := by
  cases u <;> first | rfl | exact absurd rfl h

@[simp] theorem Upd.apply_xin_self (k v) : ((Upd.xin k v).apply m).xin = tput [] m.xin k v := rfl
@[simp] theorem Upd.apply_xin_all : (Upd.xinAll.apply m).xin = [] := rfl
@[simp] theorem Upd.apply_xin (h : u.tab ≠ some .xin) : (u.apply m).xin = m.xin := by
  cases u <;> first | rfl | exact absurd rfl h

@[simp] theorem Upd.apply_stg_self (k v) : ((Upd.stg k v).apply m).stg = tput [] m.stg k v := rfl
@[simp] theorem Upd.apply_stg_all : (Upd.stgAll.apply m).stg = [] := rfl
@[simp] theorem Upd.apply_stg (h : u.tab ≠ some .stg) : (u.apply m).stg = m.stg := by
  cases u <;> first | rfl | exact absurd rfl h

@[simp] theorem Upd.apply_flowt_self (k v) : ((Upd.flowt k v).apply m).flowt = tput ⟨0, 0, false, false⟩ m.flowt k v := rfl
@[simp] theorem Upd.apply_flowt_all : (Upd.flowtAll.apply m).flowt = [] := rfl
@[simp] theorem Upd.apply_flowt (h : u.tab ≠ some .flowt) : (u.apply m).flowt = m.flowt := by
  cases u <;> first | rfl | exact absurd rfl h

@[simp] theorem Upd.apply_xq_self (k v) : ((Upd.xq k v).apply m).xq = tput [] m.xq k v := rfl
@[simp] theorem Upd.apply_xq_all : (Upd.xqAll.apply m).xq = [] := rfl
@[simp] theorem Upd.apply_xq (h : u.tab ≠ some .xq) : (u.apply m).xq = m.xq := by
  cases u <;> first | rfl | exact absurd rfl h

@[simp] theorem Upd.apply_xdef_self (k v) : ((Upd.xdef k v).apply m).xdef = tput 0 m.xdef k v := rfl
@[simp] theorem Upd.apply_xdef_all : (Upd.xdefAll.apply m).xdef = [] := rfl
@[simp] theorem Upd.apply_xdef (h : u.tab ≠ some .xdef) : (u.apply m).xdef = m.xdef := by
  cases u <;> first | rfl | exact absurd rfl h

@[simp] theorem Upd.apply_xturn_self (k v) : ((Upd.xturn k v).apply m).xturn = tput 1 m.xturn k v := rfl
@[simp] theorem Upd.apply_xturn_all : (Upd.xturnAll.apply m).xturn = [] := rfl
@[simp] theorem Upd.apply_xturn (h : u.tab ≠ some .xturn) : (u.apply m).xturn = m.xturn := by
  cases u <;> first | rfl | exact absurd rfl h

@[simp] theorem Upd.apply_xaged_self (k v) : ((Upd.xaged k v).apply m).xaged = tput false m.xaged k v := rfl
@[simp] theorem Upd.apply_xaged_all : (Upd.xagedAll.apply m).xaged = [] := rfl
@[simp] theorem Upd.apply_xaged (h : u.tab ≠ some .xaged) : (u.apply m).xaged = m.xaged := by
  cases u <;> first | rfl | exact absurd rfl h

@[simp] theorem Upd.apply_mcs_self (k v) : ((Upd.mcs k v).apply m).mcs = tput ({} : McMsg) m.mcs k v := rfl
@[simp] theorem Upd.apply_mcs_all : (Upd.mcsAll.apply m).mcs = [] := rfl
@[simp] theorem Upd.apply_mcs (h : u.tab ≠ some .mcs) : (u.apply m).mcs = m.mcs := by
  cases u <;> first | rfl | exact absurd rfl h

@[simp] theorem Upd.apply_mcq_self (k v) : ((Upd.mcq k v).apply m).mcq = tput [] m.mcq k v := rfl
@[simp] theorem Upd.apply_mcq_all : (Upd.mcqAll.apply m).mcq = [] := rfl
@[simp] theorem Upd.apply_mcq (h : u.tab ≠ some .mcq) : (u.apply m).mcq = m.mcq := by
  cases u <;> first | rfl | exact absurd rfl h

@[simp] theorem Upd.apply_xfree_self (v) : ((Upd.xfree v).apply m).xfree = v := rfl
@[simp] theorem Upd.apply_xfree (h : u.tab ≠ some .xfree) : (u.apply m).xfree = m.xfree := by
  cases u <;> first | rfl | exact absurd rfl h

@[simp] theorem Upd.apply_owed_self (k v) : ((Upd.owed k v).apply m).owed = tput [] m.owed k v := rfl
@[simp] theorem Upd.apply_owed_all : (Upd.owedAll.apply m).owed = [] := rfl
@[simp] theorem Upd.apply_owed (h : u.tab ≠ some .owed) : (u.apply m).owed = m.owed := by
  cases u <;> first | rfl | exact absurd rfl h

@[simp] theorem Upd.apply_mcNext_self (v) : ((Upd.mcNext v).apply m).mcNext = v := rfl
@[simp] theorem Upd.apply_mcNext (h : u.tab ≠ some .mcNext) : (u.apply m).mcNext = m.mcNext := by
  cases u <;> first | rfl | exact absurd rfl h

@[simp] theorem Upd.apply_mir_self (k v) : ((Upd.mir k v).apply m).mir = tput ⟨0, 0, 0, []⟩ m.mir k v := rfl
@[simp] theorem Upd.apply_mir_all : (Upd.mirAll.apply m).mir = [] := rfl
@[simp] theorem Upd.apply_mir (h : u.tab ≠ some .mir) : (u.apply m).mir = m.mir := by
  cases u <;> first | rfl | exact absurd rfl h

@[simp] theorem Upd.apply_xwait_self (k v) : ((Upd.xwait k v).apply m).xwait = tput false m.xwait k v := rfl
@[simp] theorem Upd.apply_xwait_all : (Upd.xwaitAll.apply m).xwait = [] := rfl
@[simp] theorem Upd.apply_xwait (h : u.tab ≠ some .xwait) : (u.apply m).xwait = m.xwait := by
  cases u <;> first | rfl | exact absurd rfl h

@[simp] theorem Upd.apply_xacct_self (k v) : ((Upd.xacct k v).apply m).xacct = tput (0, 0) m.xacct k v := rfl
@[simp] theorem Upd.apply_xacct_all : (Upd.xacctAll.apply m).xacct = [] := rfl
@[simp] theorem Upd.apply_xacct (h : u.tab ≠ some .xacct) : (u.apply m).xacct = m.xacct := by
  cases u <;> first | rfl | exact absurd rfl h

@[simp] theorem Upd.apply_feSeen_self (v) : ((Upd.feSeen v).apply m).feSeen = v := rfl
@[simp] theorem Upd.apply_feSeen (h : u.tab ≠ some .feSeen) : (u.apply m).feSeen = m.feSeen := by
  cases u <;> first | rfl | exact absurd rfl h

@[simp] theorem Upd.apply_feDue_self (v) : ((Upd.feDue v).apply m).feDue = v := rfl
@[simp] theorem Upd.apply_feDue (h : u.tab ≠ some .feDue) : (u.apply m).feDue = m.feDue := by
  cases u <;> first | rfl | exact absurd rfl h

@[simp] theorem Upd.apply_xdown_self (k v) : ((Upd.xdown k v).apply m).xdown = tput false m.xdown k v := rfl
@[simp] theorem Upd.apply_xdown_all : (Upd.xdownAll.apply m).xdown = [] := rfl
@[simp] theorem Upd.apply_xdown (h : u.tab ≠ some .xdown) : (u.apply m).xdown = m.xdown := by
  cases u <;> first | rfl | exact absurd rfl h

@[simp] theorem Upd.apply_xret_self (k v) : ((Upd.xret k v).apply m).xret = tput false m.xret k v := rfl
@[simp] theorem Upd.apply_xret_all : (Upd.xretAll.apply m).xret = [] := rfl
@[simp] theorem Upd.apply_xret (h : u.tab ≠ some .xret) : (u.apply m).xret = m.xret := by
  cases u <;> first | rfl | exact absurd rfl h

@[simp] theorem Upd.apply_sqin_self (k v) : ((Upd.sqin k v).apply m).sqin = tput [] m.sqin k v := rfl
@[simp] theorem Upd.apply_sqin_all : (Upd.sqinAll.apply m).sqin = [] := rfl
@[simp] theorem Upd.apply_sqin (h : u.tab ≠ some .sqin) : (u.apply m).sqin = m.sqin := by
  cases u <;> first | rfl | exact absurd rfl h

@[simp] theorem Upd.apply_rrLast_self (v) : ((Upd.rrLast v).apply m).rrLast = v := rfl
@[simp] theorem Upd.apply_rrLast (h : u.tab ≠ some .rrLast) : (u.apply m).rrLast = m.rrLast := by
  cases u <;> first | rfl | exact absurd rfl h

@[simp] theorem Upd.apply_rrBurst_self (v) : ((Upd.rrBurst v).apply m).rrBurst = v := rfl
@[simp] theorem Upd.apply_rrBurst (h : u.tab ≠ some .rrBurst) : (u.apply m).rrBurst = m.rrBurst := by
  cases u <;> first | rfl | exact absurd rfl h

@[simp] theorem Upd.apply_dbfNext_self (k v) : ((Upd.dbfNext k v).apply m).dbfNext = tput 0 m.dbfNext k v := rfl
@[simp] theorem Upd.apply_dbfNext_all : (Upd.dbfNextAll.apply m).dbfNext = [] := rfl
@[simp] theorem Upd.apply_dbfNext (h : u.tab ≠ some .dbfNext) : (u.apply m).dbfNext = m.dbfNext := by
  cases u <;> first | rfl | exact absurd rfl h

@[simp] theorem Upd.apply_stampCtr_self (v) : ((Upd.stampCtr v).apply m).stampCtr = v := rfl
@[simp] theorem Upd.apply_stampCtr (h : u.tab ≠ some .stampCtr) : (u.apply m).stampCtr = m.stampCtr := by
  cases u <;> first | rfl | exact absurd rfl h

@[simp] theorem Upd.apply_dir_self (k v) : ((Upd.dir k v).apply m).dir = tput ({} : DirEnt) m.dir k v := rfl
@[simp] theorem Upd.apply_dir_all : (Upd.dirAll.apply m).dir = [] := rfl
@[simp] theorem Upd.apply_dir (h : u.tab ≠ some .dir) : (u.apply m).dir = m.dir := by
  cases u <;> first | rfl | exact absurd rfl h

@[simp] theorem Upd.apply_trk_self (k v) : ((Upd.trk k v).apply m).trk = tput ({} : Trk) m.trk k v := rfl
@[simp] theorem Upd.apply_trk_all : (Upd.trkAll.apply m).trk = [] := rfl
@[simp] theorem Upd.apply_trk (h : u.tab ≠ some .trk) : (u.apply m).trk = m.trk := by
  cases u <;> first | rfl | exact absurd rfl h

@[simp] theorem Upd.apply_specT_self (k v) : ((Upd.specT k v).apply m).specT = tput 0 m.specT k v := rfl
@[simp] theorem Upd.apply_specT_all : (Upd.specTAll.apply m).specT = [] := rfl
@[simp] theorem Upd.apply_specT (h : u.tab ≠ some .specT) : (u.apply m).specT = m.specT := by
  cases u <;> first | rfl | exact absurd rfl h

@[simp] theorem Upd.apply_memT_self (k v) : ((Upd.memT k v).apply m).memT = tput 0 m.memT k v := rfl
@[simp] theorem Upd.apply_memT_all : (Upd.memTAll.apply m).memT = [] := rfl
@[simp] theorem Upd.apply_memT (h : u.tab ≠ some .memT) : (u.apply m).memT = m.memT := by
  cases u <;> first | rfl | exact absurd rfl h

@[simp] theorem Upd.apply_mru_self (k v) : ((Upd.mru k v).apply m).mru = tput 16 m.mru k v := rfl
@[simp] theorem Upd.apply_mru_all : (Upd.mruAll.apply m).mru = [] := rfl
@[simp] theorem Upd.apply_mru (h : u.tab ≠ some .mru) : (u.apply m).mru = m.mru := by
  cases u <;> first | rfl | exact absurd rfl h

@[simp] theorem Upd.apply_bic_self (v) : ((Upd.bic v).apply m).bic = v := rfl
@[simp] theorem Upd.apply_bic (h : u.tab ≠ some .bic) : (u.apply m).bic = m.bic := by
  cases u <;> first | rfl | exact absurd rfl h

@[simp] theorem Upd.apply_sqx_self (k v) : ((Upd.sqx k v).apply m).sqx = tput ({} : SqX) m.sqx k v := rfl
@[simp] theorem Upd.apply_sqx_all : (Upd.sqxAll.apply m).sqx = [] := rfl
@[simp] theorem Upd.apply_sqx (h : u.tab ≠ some .sqx) : (u.apply m).sqx = m.sqx := by
  cases u <;> first | rfl | exact absurd rfl h

@[simp] theorem Upd.apply_crec_self (k v) : ((Upd.crec k v).apply m).crec = tput 64 m.crec k v := rfl
@[simp] theorem Upd.apply_crec_all : (Upd.crecAll.apply m).crec = [] := rfl
@[simp] theorem Upd.apply_crec (h : u.tab ≠ some .crec) : (u.apply m).crec = m.crec := by
  cases u <;> first | rfl | exact absurd rfl h

@[simp] theorem Upd.apply_cwait_self (k v) : ((Upd.cwait k v).apply m).cwait = tput 256 m.cwait k v := rfl
@[simp] theorem Upd.apply_cwait_all : (Upd.cwaitAll.apply m).cwait = [] := rfl
@[simp] theorem Upd.apply_cwait (h : u.tab ≠ some .cwait) : (u.apply m).cwait = m.cwait := by
  cases u <;> first | rfl | exact absurd rfl h

@[simp] theorem Upd.apply_crn_self (k v) : ((Upd.crn k v).apply m).crn = tput ({} : Crn) m.crn k v := rfl
@[simp] theorem Upd.apply_crn_all : (Upd.crnAll.apply m).crn = [] := rfl
@[simp] theorem Upd.apply_crn (h : u.tab ≠ some .crn) : (u.apply m).crn = m.crn := by
  cases u <;> first | rfl | exact absurd rfl h

@[simp] theorem Upd.apply_mtt_self (k v) : ((Upd.mtt k v).apply m).mtt = tput ({} : MirTrk) m.mtt k v := rfl
@[simp] theorem Upd.apply_mtt_all : (Upd.mttAll.apply m).mtt = [] := rfl
@[simp] theorem Upd.apply_mtt (h : u.tab ≠ some .mtt) : (u.apply m).mtt = m.mtt := by
  cases u <;> first | rfl | exact absurd rfl h

@[simp] theorem Upd.apply_blind_self (k v) : ((Upd.blind k v).apply m).blind = tput 0x4000 m.blind k v := rfl
@[simp] theorem Upd.apply_blind_all : (Upd.blindAll.apply m).blind = [] := rfl
@[simp] theorem Upd.apply_blind (h : u.tab ≠ some .blind) : (u.apply m).blind = m.blind := by
  cases u <;> first | rfl | exact absurd rfl h

@[simp] theorem Upd.apply_pagent_self (k v) : ((Upd.pagent k v).apply m).pagent = tput false m.pagent k v := rfl
@[simp] theorem Upd.apply_pagent_all : (Upd.pagentAll.apply m).pagent = [] := rfl
@[simp] theorem Upd.apply_pagent (h : u.tab ≠ some .pagent) : (u.apply m).pagent = m.pagent := by
  cases u <;> first | rfl | exact absurd rfl h

@[simp] theorem Upd.apply_alost_self (k v) : ((Upd.alost k v).apply m).alost = tput false m.alost k v := rfl
@[simp] theorem Upd.apply_alost_all : (Upd.alostAll.apply m).alost = [] := rfl
@[simp] theorem Upd.apply_alost (h : u.tab ≠ some .alost) : (u.apply m).alost = m.alost := by
  cases u <;> first | rfl | exact absurd rfl h

@[simp] theorem Upd.apply_twx_self (v) : ((Upd.twx v).apply m).twx = v := rfl
@[simp] theorem Upd.apply_twx (h : u.tab ≠ some .twx) : (u.apply m).twx = m.twx := by
  cases u <;> first | rfl | exact absurd rfl h

@[simp] theorem Upd.apply_slot_self (k v) : ((Upd.slot k v).apply m).slot = tput ({} : Slot) m.slot k v := rfl
@[simp] theorem Upd.apply_slot_all : (Upd.slotAll.apply m).slot = [] := rfl
@[simp] theorem Upd.apply_slot (h : u.tab ≠ some .slot) : (u.apply m).slot = m.slot := by
  cases u <;> first | rfl | exact absurd rfl h

@[simp] theorem Upd.apply_srx_self (k v) : ((Upd.srx k v).apply m).srx = tput ({} : SRingX) m.srx k v := rfl
@[simp] theorem Upd.apply_srx_all : (Upd.srxAll.apply m).srx = [] := rfl
@[simp] theorem Upd.apply_srx (h : u.tab ≠ some .srx) : (u.apply m).srx = m.srx := by
  cases u <;> first | rfl | exact absurd rfl h

@[simp] theorem Upd.apply_slotTmo_self (v) : ((Upd.slotTmo v).apply m).slotTmo = v := rfl
@[simp] theorem Upd.apply_slotTmo (h : u.tab ≠ some .slotTmo) : (u.apply m).slotTmo = m.slotTmo := by
  cases u <;> first | rfl | exact absurd rfl h

@[simp] theorem Upd.apply_pfree_self (v) : ((Upd.pfree v).apply m).pfree = v := rfl
@[simp] theorem Upd.apply_pfree (h : u.tab ≠ some .pfree) : (u.apply m).pfree = m.pfree := by
  cases u <;> first | rfl | exact absurd rfl h

@[simp] theorem Upd.apply_sfree_self (v) : ((Upd.sfree v).apply m).sfree = v := rfl
@[simp] theorem Upd.apply_sfree (h : u.tab ≠ some .sfree) : (u.apply m).sfree = m.sfree := by
  cases u <;> first | rfl | exact absurd rfl h

@[simp] theorem Upd.apply_tq_self (k v) : ((Upd.tq k v).apply m).tq = tput ({} : TQueue) m.tq k v := rfl
@[simp] theorem Upd.apply_tq_all : (Upd.tqAll.apply m).tq = [] := rfl
@[simp] theorem Upd.apply_tq (h : u.tab ≠ some .tq) : (u.apply m).tq = m.tq := by
  cases u <;> first | rfl | exact absurd rfl h

@[simp] theorem Upd.apply_push_self (k v) : ((Upd.push k v).apply m).push = tput [] m.push k v := rfl
@[simp] theorem Upd.apply_push_all : (Upd.pushAll.apply m).push = [] := rfl
@[simp] theorem Upd.apply_push (h : u.tab ≠ some .push) : (u.apply m).push = m.push := by
  cases u <;> first | rfl | exact absurd rfl h

@[simp] theorem Upd.apply_act_self (k v) : ((Upd.act k v).apply m).act = tput ({} : ActList) m.act k v := rfl
@[simp] theorem Upd.apply_act_all : (Upd.actAll.apply m).act = [] := rfl
@[simp] theorem Upd.apply_act (h : u.tab ≠ some .act) : (u.apply m).act = m.act := by
  cases u <;> first | rfl | exact absurd rfl h

@[simp] theorem Upd.apply_buck_self (k v) : ((Upd.buck k v).apply m).buck = tput (0, 0) m.buck k v := rfl
@[simp] theorem Upd.apply_buck_all : (Upd.buckAll.apply m).buck = [] := rfl
@[simp] theorem Upd.apply_buck (h : u.tab ≠ some .buck) : (u.apply m).buck = m.buck := by
  cases u <;> first | rfl | exact absurd rfl h

@[simp] theorem Upd.apply_shp_self (k v) : ((Upd.shp k v).apply m).shp = tput (0, 0, 0, 0) m.shp k v := rfl
@[simp] theorem Upd.apply_shp_all : (Upd.shpAll.apply m).shp = [] := rfl
@[simp] theorem Upd.apply_shp (h : u.tab ≠ some .shp) : (u.apply m).shp = m.shp := by
  cases u <;> first | rfl | exact absurd rfl h

@[simp] theorem Upd.apply_bmove_self (v) : ((Upd.bmove v).apply m).bmove = v := rfl
@[simp] theorem Upd.apply_bmove (h : u.tab ≠ some .bmove) : (u.apply m).bmove = m.bmove := by
  cases u <;> first | rfl | exact absurd rfl h

@[simp] theorem Upd.apply_tmSub_self (v) : ((Upd.tmSub v).apply m).tmSub = v := rfl
@[simp] theorem Upd.apply_tmSub (h : u.tab ≠ some .tmSub) : (u.apply m).tmSub = m.tmSub := by
  cases u <;> first | rfl | exact absurd rfl h

@[simp] theorem Upd.apply_lane_self (k v) : ((Upd.lane k v).apply m).lane = tput 63 m.lane k v := rfl
@[simp] theorem Upd.apply_lane_all : (Upd.laneAll.apply m).lane = [] := rfl
@[simp] theorem Upd.apply_lane (h : u.tab ≠ some .lane) : (u.apply m).lane = m.lane := by
  cases u <;> first | rfl | exact absurd rfl h

@[simp] theorem Upd.apply_gcl_self (k v) : ((Upd.gcl k v).apply m).gcl = tput (0, 0) m.gcl k v := rfl
@[simp] theorem Upd.apply_gcl_all : (Upd.gclAll.apply m).gcl = [] := rfl
@[simp] theorem Upd.apply_gcl (h : u.tab ≠ some .gcl) : (u.apply m).gcl = m.gcl := by
  cases u <;> first | rfl | exact absurd rfl h

@[simp] theorem Upd.apply_gopen_self (k v) : ((Upd.gopen k v).apply m).gopen = tput false m.gopen k v := rfl
@[simp] theorem Upd.apply_gopen_all : (Upd.gopenAll.apply m).gopen = [] := rfl
@[simp] theorem Upd.apply_gopen (h : u.tab ≠ some .gopen) : (u.apply m).gopen = m.gopen := by
  cases u <;> first | rfl | exact absurd rfl h

@[simp] theorem Upd.apply_wire_self (k v) : ((Upd.wire k v).apply m).wire = tput 0 m.wire k v := rfl
@[simp] theorem Upd.apply_wire_all : (Upd.wireAll.apply m).wire = [] := rfl
@[simp] theorem Upd.apply_wire (h : u.tab ≠ some .wire) : (u.apply m).wire = m.wire := by
  cases u <;> first | rfl | exact absurd rfl h

@[simp] theorem Upd.apply_kacc_self (v) : ((Upd.kacc v).apply m).kacc = v := rfl
@[simp] theorem Upd.apply_kacc (h : u.tab ≠ some .kacc) : (u.apply m).kacc = m.kacc := by
  cases u <;> first | rfl | exact absurd rfl h

@[simp] theorem Upd.apply_job_self (k v) : ((Upd.job k v).apply m).job = tput ({} : Job) m.job k v := rfl
@[simp] theorem Upd.apply_job_all : (Upd.jobAll.apply m).job = [] := rfl
@[simp] theorem Upd.apply_job (h : u.tab ≠ some .job) : (u.apply m).job = m.job := by
  cases u <;> first | rfl | exact absurd rfl h

@[simp] theorem Upd.apply_acc_self (k v) : ((Upd.acc k v).apply m).acc = tput ({} : LAcc) m.acc k v := rfl
@[simp] theorem Upd.apply_acc_all : (Upd.accAll.apply m).acc = [] := rfl
@[simp] theorem Upd.apply_acc (h : u.tab ≠ some .acc) : (u.apply m).acc = m.acc := by
  cases u <;> first | rfl | exact absurd rfl h

@[simp] theorem Upd.apply_accNext_self (v) : ((Upd.accNext v).apply m).accNext = v := rfl
@[simp] theorem Upd.apply_accNext (h : u.tab ≠ some .accNext) : (u.apply m).accNext = m.accNext := by
  cases u <;> first | rfl | exact absurd rfl h

@[simp] theorem Upd.apply_pred_self (k v) : ((Upd.pred k v).apply m).pred = tput (0, 0) m.pred k v := rfl
@[simp] theorem Upd.apply_pred_all : (Upd.predAll.apply m).pred = [] := rfl
@[simp] theorem Upd.apply_pred (h : u.tab ≠ some .pred) : (u.apply m).pred = m.pred := by
  cases u <;> first | rfl | exact absurd rfl h

@[simp] theorem Upd.apply_kline_self (k v) : ((Upd.kline k v).apply m).kline = tput ({} : KLine) m.kline k v := rfl
@[simp] theorem Upd.apply_kline_all : (Upd.klineAll.apply m).kline = [] := rfl
@[simp] theorem Upd.apply_kline (h : u.tab ≠ some .kline) : (u.apply m).kline = m.kline := by
  cases u <;> first | rfl | exact absurd rfl h

@[simp] theorem Upd.apply_kmiss_self (k v) : ((Upd.kmiss k v).apply m).kmiss = tput [] m.kmiss k v := rfl
@[simp] theorem Upd.apply_kmiss_all : (Upd.kmissAll.apply m).kmiss = [] := rfl
@[simp] theorem Upd.apply_kmiss (h : u.tab ≠ some .kmiss) : (u.apply m).kmiss = m.kmiss := by
  cases u <;> first | rfl | exact absurd rfl h

@[simp] theorem Upd.apply_lmLate_self (v) : ((Upd.lmLate v).apply m).lmLate = v := rfl
@[simp] theorem Upd.apply_lmLate (h : u.tab ≠ some .lmLate) : (u.apply m).lmLate = m.lmLate := by
  cases u <;> first | rfl | exact absurd rfl h

@[simp] theorem Upd.apply_lmTmo_self (v) : ((Upd.lmTmo v).apply m).lmTmo = v := rfl
@[simp] theorem Upd.apply_lmTmo (h : u.tab ≠ some .lmTmo) : (u.apply m).lmTmo = m.lmTmo := by
  cases u <;> first | rfl | exact absurd rfl h

@[simp] theorem Upd.apply_lmRem_self (v) : ((Upd.lmRem v).apply m).lmRem = v := rfl
@[simp] theorem Upd.apply_lmRem (h : u.tab ≠ some .lmRem) : (u.apply m).lmRem = m.lmRem := by
  cases u <;> first | rfl | exact absurd rfl h

@[simp] theorem Upd.apply_vwin_self (k v) : ((Upd.vwin k v).apply m).vwin = tput (1, 0) m.vwin k v := rfl
@[simp] theorem Upd.apply_vwin_all : (Upd.vwinAll.apply m).vwin = [] := rfl
@[simp] theorem Upd.apply_vwin (h : u.tab ≠ some .vwin) : (u.apply m).vwin = m.vwin := by
  cases u <;> first | rfl | exact absurd rfl h

@[simp] theorem Upd.apply_reel_self (v) : ((Upd.reel v).apply m).reel = v := rfl
@[simp] theorem Upd.apply_reel (h : u.tab ≠ some .reel) : (u.apply m).reel = m.reel := by
  cases u <;> first | rfl | exact absurd rfl h

@[simp] theorem Upd.apply_spnBuf_self (k v) : ((Upd.spnBuf k v).apply m).spnBuf = tput [] m.spnBuf k v := rfl
@[simp] theorem Upd.apply_spnBuf_all : (Upd.spnBufAll.apply m).spnBuf = [] := rfl
@[simp] theorem Upd.apply_spnBuf (h : u.tab ≠ some .spnBuf) : (u.apply m).spnBuf = m.spnBuf := by
  cases u <;> first | rfl | exact absurd rfl h

@[simp] theorem Upd.apply_spnWait_self (k v) : ((Upd.spnWait k v).apply m).spnWait = tput false m.spnWait k v := rfl
@[simp] theorem Upd.apply_spnWait_all : (Upd.spnWaitAll.apply m).spnWait = [] := rfl
@[simp] theorem Upd.apply_spnWait (h : u.tab ≠ some .spnWait) : (u.apply m).spnWait = m.spnWait := by
  cases u <;> first | rfl | exact absurd rfl h

@[simp] theorem Upd.apply_spn_self (v) : ((Upd.spn v).apply m).spn = v := rfl
@[simp] theorem Upd.apply_spn (h : u.tab ≠ some .spn) : (u.apply m).spn = m.spn := by
  cases u <;> first | rfl | exact absurd rfl h

@[simp] theorem Upd.apply_hbTx_self (k v) : ((Upd.hbTx k v).apply m).hbTx = tput 0 m.hbTx k v := rfl
@[simp] theorem Upd.apply_hbTx_all : (Upd.hbTxAll.apply m).hbTx = [] := rfl
@[simp] theorem Upd.apply_hbTx (h : u.tab ≠ some .hbTx) : (u.apply m).hbTx = m.hbTx := by
  cases u <;> first | rfl | exact absurd rfl h

@[simp] theorem Upd.apply_whl_self (v) : ((Upd.whl v).apply m).whl = v := rfl
@[simp] theorem Upd.apply_whl (h : u.tab ≠ some .whl) : (u.apply m).whl = m.whl := by
  cases u <;> first | rfl | exact absurd rfl h

@[simp] theorem Upd.apply_cout_self (v) : ((Upd.cout v).apply m).cout = v := rfl
@[simp] theorem Upd.apply_cout (h : u.tab ≠ some .cout) : (u.apply m).cout = m.cout := by
  cases u <;> first | rfl | exact absurd rfl h

@[simp] theorem Upd.apply_repairs_self (v) : ((Upd.repairs v).apply m).repairs = v := rfl
@[simp] theorem Upd.apply_repairs (h : u.tab ≠ some .repairs) : (u.apply m).repairs = m.repairs := by
  cases u <;> first | rfl | exact absurd rfl h

@[simp] theorem Upd.apply_scrub_self (v) : ((Upd.scrub v).apply m).scrub = v := rfl
@[simp] theorem Upd.apply_scrub (h : u.tab ≠ some .scrub) : (u.apply m).scrub = m.scrub := by
  cases u <;> first | rfl | exact absurd rfl h

@[simp] theorem Upd.apply_raw_self (k v) : ((Upd.raw k v).apply m).raw = tput ([], 0, 0) m.raw k v := rfl
@[simp] theorem Upd.apply_raw_all : (Upd.rawAll.apply m).raw = [] := rfl
@[simp] theorem Upd.apply_raw (h : u.tab ≠ some .raw) : (u.apply m).raw = m.raw := by
  cases u <;> first | rfl | exact absurd rfl h

@[simp] theorem Upd.apply_retire_self (k v) : ((Upd.retire k v).apply m).retire = tput 0 m.retire k v := rfl
@[simp] theorem Upd.apply_retire_all : (Upd.retireAll.apply m).retire = [] := rfl
@[simp] theorem Upd.apply_retire (h : u.tab ≠ some .retire) : (u.apply m).retire = m.retire := by
  cases u <;> first | rfl | exact absurd rfl h

@[simp] theorem Upd.apply_retFull_self (v) : ((Upd.retFull v).apply m).retFull = v := rfl
@[simp] theorem Upd.apply_retFull (h : u.tab ≠ some .retFull) : (u.apply m).retFull = m.retFull := by
  cases u <;> first | rfl | exact absurd rfl h

@[simp] theorem Upd.apply_faulty_self (v) : ((Upd.faulty v).apply m).faulty = v := rfl
@[simp] theorem Upd.apply_faulty (h : u.tab ≠ some .faulty) : (u.apply m).faulty = m.faulty := by
  cases u <;> first | rfl | exact absurd rfl h

@[simp] theorem Upd.apply_dtgt_self (k v) : ((Upd.dtgt k v).apply m).dtgt = tput 0 m.dtgt k v := rfl
@[simp] theorem Upd.apply_dtgt_all : (Upd.dtgtAll.apply m).dtgt = [] := rfl
@[simp] theorem Upd.apply_dtgt (h : u.tab ≠ some .dtgt) : (u.apply m).dtgt = m.dtgt := by
  cases u <;> first | rfl | exact absurd rfl h

@[simp] theorem Upd.apply_dwait_self (k v) : ((Upd.dwait k v).apply m).dwait = tput false m.dwait k v := rfl
@[simp] theorem Upd.apply_dwait_all : (Upd.dwaitAll.apply m).dwait = [] := rfl
@[simp] theorem Upd.apply_dwait (h : u.tab ≠ some .dwait) : (u.apply m).dwait = m.dwait := by
  cases u <;> first | rfl | exact absurd rfl h

@[simp] theorem Upd.apply_therm_self (v) : ((Upd.therm v).apply m).therm = v := rfl
@[simp] theorem Upd.apply_therm (h : u.tab ≠ some .therm) : (u.apply m).therm = m.therm := by
  cases u <;> first | rfl | exact absurd rfl h

@[simp] theorem Upd.apply_avs_self (v) : ((Upd.avs v).apply m).avs = v := rfl
@[simp] theorem Upd.apply_avs (h : u.tab ≠ some .avs) : (u.apply m).avs = m.avs := by
  cases u <;> first | rfl | exact absurd rfl h

@[simp] theorem Upd.apply_ao_self (v) : ((Upd.ao v).apply m).ao = v := rfl
@[simp] theorem Upd.apply_ao (h : u.tab ≠ some .ao) : (u.apply m).ao = m.ao := by
  cases u <;> first | rfl | exact absurd rfl h

@[simp] theorem Upd.apply_slp_self (k v) : ((Upd.slp k v).apply m).slp = tput ({} : SlotCh) m.slp k v := rfl
@[simp] theorem Upd.apply_slp_all : (Upd.slpAll.apply m).slp = [] := rfl
@[simp] theorem Upd.apply_slp (h : u.tab ≠ some .slp) : (u.apply m).slp = m.slp := by
  cases u <;> first | rfl | exact absurd rfl h

@[simp] theorem Upd.apply_arrT_self (k v) : ((Upd.arrT k v).apply m).arrT = tput 0 m.arrT k v := rfl
@[simp] theorem Upd.apply_arrT_all : (Upd.arrTAll.apply m).arrT = [] := rfl
@[simp] theorem Upd.apply_arrT (h : u.tab ≠ some .arrT) : (u.apply m).arrT = m.arrT := by
  cases u <;> first | rfl | exact absurd rfl h

@[simp] theorem Upd.apply_mgx_self (v) : ((Upd.mgx v).apply m).mgx = v := rfl
@[simp] theorem Upd.apply_mgx (h : u.tab ≠ some .mgx) : (u.apply m).mgx = m.mgx := by
  cases u <;> first | rfl | exact absurd rfl h

@[simp] theorem Upd.apply_tst_self (v) : ((Upd.tst v).apply m).tst = v := rfl
@[simp] theorem Upd.apply_tst (h : u.tab ≠ some .tst) : (u.apply m).tst = m.tst := by
  cases u <;> first | rfl | exact absurd rfl h

@[simp] theorem Upd.apply_cen_self (v) : ((Upd.cen v).apply m).cen = v := rfl
@[simp] theorem Upd.apply_cen (h : u.tab ≠ some .cen) : (u.apply m).cen = m.cen := by
  cases u <;> first | rfl | exact absurd rfl h

@[simp] theorem Upd.apply_cskip_self (k v) : ((Upd.cskip k v).apply m).cskip = tput 0 m.cskip k v := rfl
@[simp] theorem Upd.apply_cskip_all : (Upd.cskipAll.apply m).cskip = [] := rfl
@[simp] theorem Upd.apply_cskip (h : u.tab ≠ some .cskip) : (u.apply m).cskip = m.cskip := by
  cases u <;> first | rfl | exact absurd rfl h

@[simp] theorem Upd.apply_trc_self (k v) : ((Upd.trc k v).apply m).trc = tput [] m.trc k v := rfl
@[simp] theorem Upd.apply_trc_all : (Upd.trcAll.apply m).trc = [] := rfl
@[simp] theorem Upd.apply_trc (h : u.tab ≠ some .trc) : (u.apply m).trc = m.trc := by
  cases u <;> first | rfl | exact absurd rfl h

@[simp] theorem Upd.apply_trcNext_self (v) : ((Upd.trcNext v).apply m).trcNext = v := rfl
@[simp] theorem Upd.apply_trcNext (h : u.tab ≠ some .trcNext) : (u.apply m).trcNext = m.trcNext := by
  cases u <;> first | rfl | exact absurd rfl h

@[simp] theorem Upd.apply_spdm_self (k v) : ((Upd.spdm k v).apply m).spdm = tput ({} : SpdmC) m.spdm k v := rfl
@[simp] theorem Upd.apply_spdm_all : (Upd.spdmAll.apply m).spdm = [] := rfl
@[simp] theorem Upd.apply_spdm (h : u.tab ≠ some .spdm) : (u.apply m).spdm = m.spdm := by
  cases u <;> first | rfl | exact absurd rfl h

end Sys2Proof.Machine
end

