-- ==== Sys2Proof/Laws/Run.lean ====
section
/-!
SUPPORT. How a program runs, said once: the run of each form of program, what a field reads after a store, and the
footprint of a program (Only): which kinds of update it can make, whatever the block holds.
-/
namespace Sys2Proof.Machine

/-! The run of each form. -/

@[simp] theorem run_done (m : Mach) : Prog.done.run m = m := rfl
@[simp] theorem run_upd (u : Upd) (k : Prog) (m : Mach) : (Prog.upd u k).run m = k.run (u.apply m) := rfl
@[simp] theorem run_look (k : Mach → Prog) (m : Mach) : (Prog.look k).run m = (k m).run m := rfl

variable {α β : Type}

@[simp] theorem pure_at (a : α) (k : α → Prog) : (pure a : P α) k = k a := rfl
@[simp] theorem bind_at (x : P α) (f : α → P β) (k : β → Prog) : (x >>= f) k = x fun a => f a k := rfl
@[simp] theorem doU_at (u : Upd) (k : Unit → Prog) : doU u k = Prog.upd u (k ()) := rfl
@[simp] theorem getM_at (k : Mach → Prog) : getM k = Prog.look k := rfl
@[simp] theorem onlyIf_at (c : Prop) [Decidable c] (x : P Unit) (k : Unit → Prog) :
    onlyIf c x k = if c then x k else k () := by unfold onlyIf; split <;> rfl
@[simp] theorem each_nil (f : α → P Unit) : each [] f = pure () := rfl
@[simp] theorem each_cons (a : α) (t : List α) (f : α → P Unit) : each (a :: t) f = (do f a; each t f) := rfl

/-- A store of the hardware, seen from a field of another register. -/
theorem g_store_other {m : Mach} {r : Reg} {v : Word} {f : RF} (h : (⟨f.k, f.i⟩ : Reg) ≠ r) :
    ((Upd.reg r v).apply m).g f = m.g f := by
  simp [Mach.g, Mach.rd, regGet_regStore_other h]

/-- A field of a register that the hardware stored whole. -/
theorem g_store_same {m : Mach} {f : RF} {x : Nat} (h : regsWf m.regs = true) (hf : f.storable = true) :
    ((Upd.reg ⟨f.k, f.i⟩ (BitVec.ofNat 64 x)).apply m).g f = bitsAt x f.lo f.w := by
  simp only [RF.storable, Bool.and_eq_true, decide_eq_true_eq, Bool.not_eq_true'] at hf
  simp only [Mach.g, Mach.rd, Upd.apply_regs]
  exact field_regStore_same h hf.1.1.1 hf.1.1.2 hf.1.2 hf.2

/-- An update that is no register store leaves every register. -/
theorem g_of_regs {m m' : Mach} (f : RF) (h : m'.regs = m.regs) : m'.g f = m.g f := by simp [Mach.g, Mach.rd, h]

/-- The block after `wr f x`. -/
def Mach.set (m : Mach) (f : RF) (x : Nat) : Mach :=
  (Upd.reg ⟨f.k, f.i⟩ (BitVec.ofNat 64 (putBits (m.rd ⟨f.k, f.i⟩).toNat f.lo f.w x))).apply m

@[simp] theorem wr_at (f : RF) (x : Nat) (k : Unit → Prog) (m : Mach) : Prog.run (wr f x k) m = Prog.run (k ()) (m.set f x) := rfl

/-- What was stored in a field is read back. -/
theorem g_set_same {m : Mach} {f : RF} {x : Nat} (h : regsWf m.regs = true) (hf : f.storable = true) :
    (m.set f x).g f = x % 2 ^ f.w := by
  rw [Mach.set, g_store_same h hf, bitsAt_putBits_same]

/-- A store of a field leaves the fields of every other register. -/
theorem g_set_other {m : Mach} {f q : RF} {x : Nat} (h : (⟨q.k, q.i⟩ : Reg) ≠ ⟨f.k, f.i⟩) :
    (m.set f x).g q = m.g q := g_store_other h

/-- A store of a field leaves the other fields of its register. -/
theorem g_set_beside {m : Mach} {f q : RF} {x : Nat} (h : regsWf m.regs = true) (hq : q.storable = true)
    (hk : q.k = f.k) (hi : q.i = f.i) (hd : q.lo + q.w ≤ f.lo ∨ f.lo + f.w ≤ q.lo) : (m.set f x).g q = m.g q := by
  rw [Mach.set, ← hk, ← hi, g_store_same h hq, bitsAt_putBits_other hd]
  rfl

/-- A store keeps the canonical form of the register file. -/
theorem set_wf {m : Mach} {f : RF} {x : Nat} (h : regsWf m.regs = true) : regsWf (m.set f x).regs = true := by
  simp only [Mach.set, Upd.apply_regs]
  exact regStore_wf h

/-! Footprints. -/

/-- Updates of the kinds `S` lead from one block to another. -/
inductive Via (S : Upd → Bool) : Mach → Mach → Prop
  | refl (m : Mach) : Via S m m
  | head {u : Upd} {m m' : Mach} : S u = true → Via S (u.apply m) m' → Via S m m'

variable {S T : Upd → Bool} {m m' : Mach}

theorem Via.trans {m'' : Mach} (h : Via S m m') (h' : Via S m' m'') : Via S m m'' := by
  induction h with
  | refl => exact h'
  | head hu _ ih => exact .head hu (ih h')

theorem Via.mono (h : Via S m m') (hST : ∀ u, S u = true → T u = true) : Via T m m' := by
  induction h with
  | refl => exact .refl _
  | head hu _ ih => exact .head (hST _ hu) ih

/-- What every update of the kinds keeps is kept. -/
theorem Via.keep {γ : Sort*} (h : Via S m m') (φ : Mach → γ) (hφ : ∀ u m, S u = true → φ (u.apply m) = φ m) :
    φ m' = φ m := by
  induction h with
  | refl => rfl
  | head hu _ ih => rw [ih, hφ _ _ hu]

/-- The canonical form of the register file is kept. -/
theorem Via.regs_wf (h : Via S m m') (hm : regsWf m.regs = true) : regsWf m'.regs = true := by
  induction h with
  | refl => exact hm
  | @head u m m' hu _ ih =>
    refine ih ?_
    cases u <;> first | exact hm | exact regStore_wf hm

/-- A register that no update of the kinds stores stands. -/
theorem Via.rd_eq (h : Via S m m') (r : Reg) (hr : ∀ v, S (.reg r v) = false) : m'.rd r = m.rd r := by
  refine h.keep (fun m => m.rd r) fun u m hu => ?_
  cases u <;> try rfl
  rename_i q v
  have hq : r ≠ q := fun e => by subst e; rw [hr v] at hu; exact absurd hu (by decide)
  simp [Mach.rd, regGet_regStore_other hq]

/-- A field of a register that no update of the kinds stores stands. -/
theorem Via.g_eq (h : Via S m m') (f : RF) (hf : ∀ v, S (.reg ⟨f.k, f.i⟩ v) = false) : m'.g f = m.g f := by
  simp [Mach.g, h.rd_eq _ hf]

/-- The program makes updates of the kinds `S` alone, whatever the block holds, and what follows it runs after it. -/
def Only (S : Upd → Bool) (x : P α) : Prop :=
  ∀ k m, ∃ a m', Prog.run (x k) m = Prog.run (k a) m' ∧ Via S m m'

theorem Only.pure (a : α) : Only S (pure a : P α) := fun _ m => ⟨a, m, rfl, .refl m⟩

theorem Only.getM : Only S getM := fun _ m => ⟨m, m, rfl, .refl m⟩

theorem Only.doU {u : Upd} (h : S u = true) : Only S (doU u) :=
  fun _ m => ⟨(), u.apply m, rfl, .head h (.refl _)⟩

theorem Only.bind {x : P α} {f : α → P β} (hx : Only S x) (hf : ∀ a, Only S (f a)) : Only S (x >>= f) := by
  intro k m
  obtain ⟨a, m1, h1, v1⟩ := hx (fun a => f a k) m
  obtain ⟨b, m2, h2, v2⟩ := hf a k m1
  exact ⟨b, m2, by rw [bind_at, h1, h2], v1.trans v2⟩

theorem Only.mono {x : P α} (h : Only S x) (hST : ∀ u, S u = true → T u = true) : Only T x := fun k m =>
  let ⟨a, m', h1, v1⟩ := h k m
  ⟨a, m', h1, v1.mono hST⟩

theorem Only.ite {c : Prop} [Decidable c] {x y : P α} (hx : Only S x) (hy : Only S y) :
    Only S (if c then x else y) := by split <;> assumption

theorem Only.onlyIf {c : Prop} [Decidable c] {x : P Unit} (hx : Only S x) : Only S (onlyIf c x) :=
  Only.ite hx (Only.pure ())

theorem Only.each {l : List β} {f : β → P Unit} (h : ∀ b ∈ l, Only S (f b)) : Only S (each l f) := by
  induction l with
  | nil => exact Only.pure ()
  | cons b t ih =>
    exact Only.bind (h b (by simp)) fun _ => ih fun c hc => h c (by simp [hc])

theorem Only.wr {f : RF} {x : Nat} (h : ∀ v, S (.reg ⟨f.k, f.i⟩ v) = true) : Only S (wr f x) :=
  Only.bind Only.getM fun _ => Only.doU (h _)

theorem Only.wrReg {k : RegKind} {i x : Nat} (h : ∀ v, S (.reg ⟨k, i⟩ v) = true) : Only S (wrReg k i x) := Only.doU (h _)

theorem Only.addSat {f : RF} {n : Nat} (h : ∀ v, S (.reg ⟨f.k, f.i⟩ v) = true) : Only S (addSat f n) :=
  Only.bind (Only.bind Only.getM fun _ => Only.pure _) fun _ => Only.wr h

theorem Only.addWrap {f : RF} {n : Nat} (h : ∀ v, S (.reg ⟨f.k, f.i⟩ v) = true) : Only S (addWrap f n) :=
  Only.bind (Only.bind Only.getM fun _ => Only.pure _) fun _ => Only.wr h

/-! Commands. -/

/-- Every command answers a next state, with the queue as it stands. -/
theorem cmd_next (p : P Unit) (s : State) : ∃ t, cmd p s = .next t ∧ t.pending = s.pending := ⟨_, rfl, rfl⟩

/-- A command runs its program on the block that has sent nothing yet, and settles. -/
theorem cmd_run (p : P Unit) (s : State) :
    cmd p s = .next { s with m := Prog.run (p fun _ => toProg settle) ((Upd.out []).apply s.m) } := rfl

end Sys2Proof.Machine
end

