-- ==== Sys2Proof/Laws/Foot.lean ====
section
/-!
SUPPORT. Footprints of programs as sets of bits, so that one footprint is seen to lie within another by computing; and what
follows for a command whose program keeps to a footprint.
-/
namespace Sys2Proof.Machine

/-- A set of registers and of things beside them, a bit each. -/
structure Mask where
  k : Nat
  t : Nat

/-- The set that two lists name. -/
def Mask.of (ks : List RegKind) (ts : List Tab) : Mask :=
  ⟨ks.foldl (fun a k => a ||| 2 ^ k.ctorIdx) 0, ts.foldl (fun a t => a ||| 2 ^ t.ctorIdx) 0⟩

/-- The union of two sets. -/
def Mask.join (a b : Mask) : Mask := ⟨a.k ||| b.k, a.t ||| b.t⟩

/-- The union of a set with others. -/
def Mask.plus (a : Mask) (l : List Mask) : Mask := l.foldl Mask.join a

/-- The set of a footprint. -/
def Foot.mask (F : Foot) : Mask := .of F.regs F.tabs

/-- Whether one set lies within another. -/
def Mask.le (a b : Mask) : Bool := (a.k ||| b.k) == b.k && (a.t ||| b.t) == b.t

/-- Whether a set names a register. -/
def Mask.hasReg (M : Mask) (k : RegKind) : Bool := M.k.testBit k.ctorIdx

/-- Whether a set names a thing beside the registers. -/
def Mask.hasTab (M : Mask) (t : Tab) : Bool := M.t.testBit t.ctorIdx

/-- Whether an update keeps to a set. -/
def Mask.has (M : Mask) (u : Upd) : Bool :=
  match u.tab, u with
  | some t, _ => M.hasTab t
  | none, .reg r _ => M.hasReg r.k
  | none, _ => false

theorem Mask.has_tab {M : Mask} {u : Upd} {t : Tab} (h : u.tab = some t) : M.has u = M.hasTab t := by
  unfold Mask.has
  rw [h]

theorem Mask.has_reg {M : Mask} {r : Reg} {v : Word} : M.has (.reg r v) = M.hasReg r.k := rfl

theorem Upd.tab_none {u : Upd} (h : u.tab = none) : ∃ r v, u = .reg r v := by
  cases u <;> first | exact ⟨_, _, rfl⟩ | cases h

theorem Mask.hasReg_mono {a b : Mask} (h : a.le b = true) {k : RegKind} (hk : a.hasReg k = true) : b.hasReg k = true := by
  simp only [Mask.le, Bool.and_eq_true, beq_iff_eq] at h
  rw [Mask.hasReg, ← h.1, Nat.testBit_or]
  simp only [Mask.hasReg] at hk
  simp [hk]

theorem Mask.hasTab_mono {a b : Mask} (h : a.le b = true) {t : Tab} (ht : a.hasTab t = true) : b.hasTab t = true := by
  simp only [Mask.le, Bool.and_eq_true, beq_iff_eq] at h
  rw [Mask.hasTab, ← h.2, Nat.testBit_or]
  simp only [Mask.hasTab] at ht
  simp [ht]

theorem Mask.le_trans {a b c : Mask} (h : a.le b = true) (h' : b.le c = true) : a.le c = true := by
  simp only [Mask.le, Bool.and_eq_true, beq_iff_eq] at h h' ⊢
  constructor
  · rw [← h'.1, ← h.1]; simp [← Nat.lor_assoc]
  · rw [← h'.2, ← h.2]; simp [← Nat.lor_assoc]

theorem Mask.has_mono {a b : Mask} (h : a.le b = true) (u : Upd) (hu : a.has u = true) : b.has u = true := by
  cases ht : u.tab with
  | some t =>
    rw [Mask.has_tab ht] at hu ⊢
    exact Mask.hasTab_mono h hu
  | none =>
    obtain ⟨r, v, rfl⟩ := Upd.tab_none ht
    exact Mask.hasReg_mono h hu

variable {α β : Type} {M : Mask}

/-- A program that keeps to a set keeps to every larger one. -/
theorem Only.le {a b : Mask} {x : P α} (hx : Only a.has x) (h : a.le b = true) : Only b.has x := hx.mono (Mask.has_mono h)

theorem Only.wrK {f : RF} {x : Nat} (k : RegKind) (hf : f.k = k) (h : M.hasReg k = true) : Only M.has (Machine.wr f x) :=
  Only.wr fun _ => by rw [Mask.has_reg, hf]; exact h

theorem Only.incK {f : RF} (k : RegKind) (hf : f.k = k) (h : M.hasReg k = true) : Only M.has (Machine.inc f) :=
  Only.addSat fun _ => by rw [Mask.has_reg, hf]; exact h

theorem Only.addSatK {f : RF} {x : Nat} (k : RegKind) (hf : f.k = k) (h : M.hasReg k = true) : Only M.has (Machine.addSat f x) :=
  Only.addSat fun _ => by rw [Mask.has_reg, hf]; exact h

theorem Only.subK {f : RF} {x : Nat} (k : RegKind) (hf : f.k = k) (h : M.hasReg k = true) : Only M.has (Machine.sub f x) :=
  Only.bind (Only.bind Only.getM fun _ => Only.pure _) fun _ => Only.wrK k hf h

theorem Only.addWrapK {f : RF} {x : Nat} (k : RegKind) (hf : f.k = k) (h : M.hasReg k = true) :
    Only M.has (Machine.addWrap f x) := Only.addWrap fun _ => by rw [Mask.has_reg, hf]; exact h

theorem Only.rstK {i : Nat} (k : RegKind) (h : M.hasReg k = true) : Only M.has (Machine.rstReg k i) := Only.doU h

theorem Only.rstMem {i : Nat} {k : RegKind} {l : List RegKind} (hk : k ∈ l) (h : l.all M.hasReg = true) :
    Only M.has (rstReg k i) := Only.rstK k (List.all_eq_true.1 h k hk)

theorem Only.wrRegK {i x : Nat} (k : RegKind) (h : M.hasReg k = true) : Only M.has (Machine.wrReg k i x) := Only.doU h

theorem Only.doT {u : Upd} (t : Tab) (hu : u.tab = some t) (h : M.hasTab t = true) : Only M.has (Machine.doU u) :=
  Only.doU (by rw [Mask.has_tab hu]; exact h)

theorem Only.rd (f : RF) : Only M.has (Machine.rd f) := Only.bind Only.getM fun _ => Only.pure _

theorem Only.rdReg (k : RegKind) (i : Nat) : Only M.has (Machine.rdReg k i) := Only.bind Only.getM fun _ => Only.pure _

theorem Only.free (w : Nat) (h : M.hasTab .freeCtr = true) : Only M.has (Machine.freeBits w) :=
  Only.bind (Only.bind Only.getM fun _ => Only.pure _) fun _ => Only.bind (Only.doT .freeCtr rfl h) fun _ => Only.pure _

theorem Only.onlyIf' {c : Prop} [Decidable c] {x : P Unit} {S : Upd → Bool} (h : c → Only S x) :
    Only S (Machine.onlyIf c x) := by
  unfold Machine.onlyIf
  split
  · exact h ‹_›
  · exact Only.pure ()

theorem Only.gather {l : List β} {f : β → P (List α)} {S : Upd → Bool} (h : ∀ b, Only S (f b)) :
    Only S (Machine.gather l f) := by
  induction l with
  | nil => exact Only.pure _
  | cons b t ih => exact Only.bind (h b) fun _ => Only.bind ih fun _ => Only.pure _

/-! What a footprint leaves. -/

theorem Foot.mask_reg {F : Foot} {k : RegKind} (h : k ∉ F.regs) : F.mask.hasReg k = false := by
  have key : ∀ (l : List RegKind) (a : Nat), k ∉ l →
      (l.foldl (fun a k => a ||| 2 ^ k.ctorIdx) a).testBit k.ctorIdx = a.testBit k.ctorIdx := by
    intro l
    induction l with
    | nil => intro a _; rfl
    | cons b t ih =>
      intro a hb
      have hne : b.ctorIdx ≠ k.ctorIdx := fun e => hb (by simp [RegKind.ctorIdx_inj e])
      rw [List.foldl_cons, ih _ fun hm => hb (by simp [hm]), Nat.testBit_or, Nat.testBit_two_pow]
      simp [hne]
  simpa [Mask.hasReg, Foot.mask, Mask.of] using key F.regs 0 h

theorem Tab.ctorIdx_inj {a b : Tab} (h : a.ctorIdx = b.ctorIdx) : a = b := by
  rw [← Tab.ofNat_ctorIdx a, ← Tab.ofNat_ctorIdx b, h]

theorem Foot.mask_tab {F : Foot} {T : Tab} (h : T ∉ F.tabs) : F.mask.hasTab T = false := by
  have key : ∀ (l : List Tab) (a : Nat), T ∉ l →
      (l.foldl (fun a t => a ||| 2 ^ t.ctorIdx) a).testBit T.ctorIdx = a.testBit T.ctorIdx := by
    intro l
    induction l with
    | nil => intro a _; rfl
    | cons b t ih =>
      intro a hb
      have hne : b.ctorIdx ≠ T.ctorIdx := fun e => hb (by simp [Tab.ctorIdx_inj e])
      rw [List.foldl_cons, ih _ fun hm => hb (by simp [hm]), Nat.testBit_or, Nat.testBit_two_pow]
      simp [hne]
  simpa [Mask.hasTab, Foot.mask, Mask.of] using key F.tabs 0 h

/-- An update that changes another thing leaves this one. -/
theorem Upd.same_of_tab {u : Upd} {T : Tab} (h : u.tab ≠ some T) (m : Mach) : T.same m (u.apply m) := by
  cases T
  · exact Upd.apply_out m u h
  · exact Upd.apply_freeCtr m u h
  · exact Upd.apply_pins m u h
  · exact Upd.apply_tb m u h
  · exact Upd.apply_hold m u h
  · exact Upd.apply_evPend m u h
  · exact Upd.apply_evLost m u h
  · exact Upd.apply_aoLatch m u h
  · exact Upd.apply_sram m u h
  · exact Upd.apply_hlog m u h
  · exact Upd.apply_stage m u h
  · exact Upd.apply_ldr m u h
  · exact Upd.apply_vcs m u h
  · exact Upd.apply_ldb m u h
  · exact Upd.apply_homeSel m u h
  · exact Upd.apply_domDef m u h
  · exact Upd.apply_dec m u h
  · exact Upd.apply_port m u h
  · exact Upd.apply_sf m u h
  · exact Upd.apply_msix m u h
  · exact Upd.apply_ring m u h
  · exact Upd.apply_xin m u h
  · exact Upd.apply_stg m u h
  · exact Upd.apply_flowt m u h
  · exact Upd.apply_xq m u h
  · exact Upd.apply_xdef m u h
  · exact Upd.apply_xturn m u h
  · exact Upd.apply_xaged m u h
  · exact Upd.apply_mcs m u h
  · exact Upd.apply_mcq m u h
  · exact Upd.apply_xfree m u h
  · exact Upd.apply_owed m u h
  · exact Upd.apply_mcNext m u h
  · exact Upd.apply_mir m u h
  · exact Upd.apply_xwait m u h
  · exact Upd.apply_xacct m u h
  · exact Upd.apply_feSeen m u h
  · exact Upd.apply_feDue m u h
  · exact Upd.apply_xdown m u h
  · exact Upd.apply_xret m u h
  · exact Upd.apply_sqin m u h
  · exact Upd.apply_rrLast m u h
  · exact Upd.apply_rrBurst m u h
  · exact Upd.apply_dbfNext m u h
  · exact Upd.apply_stampCtr m u h
  · exact Upd.apply_dir m u h
  · exact Upd.apply_trk m u h
  · exact Upd.apply_specT m u h
  · exact Upd.apply_memT m u h
  · exact Upd.apply_mru m u h
  · exact Upd.apply_bic m u h
  · exact Upd.apply_sqx m u h
  · exact Upd.apply_crec m u h
  · exact Upd.apply_cwait m u h
  · exact Upd.apply_crn m u h
  · exact Upd.apply_mtt m u h
  · exact Upd.apply_blind m u h
  · exact Upd.apply_pagent m u h
  · exact Upd.apply_alost m u h
  · exact Upd.apply_twx m u h
  · exact Upd.apply_slot m u h
  · exact Upd.apply_srx m u h
  · exact Upd.apply_slotTmo m u h
  · exact Upd.apply_pfree m u h
  · exact Upd.apply_sfree m u h
  · exact Upd.apply_tq m u h
  · exact Upd.apply_push m u h
  · exact Upd.apply_act m u h
  · exact Upd.apply_buck m u h
  · exact Upd.apply_shp m u h
  · exact Upd.apply_bmove m u h
  · exact Upd.apply_tmSub m u h
  · exact Upd.apply_lane m u h
  · exact Upd.apply_gcl m u h
  · exact Upd.apply_gopen m u h
  · exact Upd.apply_wire m u h
  · exact Upd.apply_kacc m u h
  · exact Upd.apply_job m u h
  · exact Upd.apply_acc m u h
  · exact Upd.apply_accNext m u h
  · exact Upd.apply_pred m u h
  · exact Upd.apply_kline m u h
  · exact Upd.apply_kmiss m u h
  · exact Upd.apply_lmLate m u h
  · exact Upd.apply_lmTmo m u h
  · exact Upd.apply_lmRem m u h
  · exact Upd.apply_vwin m u h
  · exact Upd.apply_reel m u h
  · exact Upd.apply_spnBuf m u h
  · exact Upd.apply_spnWait m u h
  · exact Upd.apply_spn m u h
  · exact Upd.apply_hbTx m u h
  · exact Upd.apply_whl m u h
  · exact Upd.apply_cout m u h
  · exact Upd.apply_repairs m u h
  · exact Upd.apply_scrub m u h
  · exact Upd.apply_raw m u h
  · exact Upd.apply_retire m u h
  · exact Upd.apply_retFull m u h
  · exact Upd.apply_faulty m u h
  · exact Upd.apply_dtgt m u h
  · exact Upd.apply_dwait m u h
  · exact Upd.apply_therm m u h
  · exact Upd.apply_avs m u h
  · exact Upd.apply_ao m u h
  · exact Upd.apply_slp m u h
  · exact Upd.apply_arrT m u h
  · exact Upd.apply_mgx m u h
  · exact Upd.apply_tst m u h
  · exact Upd.apply_cen m u h
  · exact Upd.apply_cskip m u h
  · exact Upd.apply_trc m u h
  · exact Upd.apply_trcNext m u h
  · exact Upd.apply_spdm m u h

theorem Tab.same_refl (T : Tab) (m : Mach) : T.same m m := by cases T <;> rfl

theorem Tab.same_trans {T : Tab} {m m' m'' : Mach} (h : T.same m m') (h' : T.same m' m'') : T.same m m'' := by
  cases T <;> exact h'.trans h

/-- A footprint is kept along updates of a set that lies within it. -/
theorem Via.keeps {F : Foot} {m m' : Mach} (h : Via M.has m m') (hM : M.le F.mask = true) : F.keeps m m' := by
  refine ⟨fun r hr _ => h.rd_eq r fun v => ?_, fun T hT => ?_, ?_⟩
  · by_contra hc
    have := Mask.hasReg_mono hM (k := r.k) (by simpa [Mask.has_reg] using hc)
    simp [Foot.mask_reg hr] at this
  · have key : ∀ {m m'}, Via M.has m m' → T.same m m' := by
      intro m m' h
      induction h with
      | refl => exact T.same_refl _
      | @head u m m' hu _ ih =>
        refine Tab.same_trans (Upd.same_of_tab (fun ht => ?_) m) ih
        rw [Mask.has_tab ht] at hu
        have := Mask.hasTab_mono hM hu
        simp [Foot.mask_tab hT] at this
    exact key h
  · exact h.keep (fun m => m.fuse) fun u m _ => by simp

end Sys2Proof.Machine
end

