-- ==== Sys2Proof/Laws/FeetOps.lean ====
section
/-!
SUPPORT. The footprint of every operation of Machine/Ops.lean: the registers and the things beside them that it can
change, whatever the block holds.
-/
namespace Sys2Proof.Machine

set_option Elab.async false

/-- What `emit` can change. -/
def Feet.emit : Mask := .of [] [.out]

theorem emit_only (o : Out) :
    Only Feet.emit.has (emit o) := by
  simp only [emit, modOut, getOut, putOut]
  with_reducible repeat' first
    | exact Only.pure _ | exact Only.getM | refine Only.bind ?_ fun _ => ?_
    | exact Only.doT .out rfl (by decide +kernel)

/-- What `pmuAdd` can change. -/
def Feet.pmuAdd : Mask := .of [.PMU_BANK_OVF, .PMU_CNT] []

theorem pmuAdd_only (c n : Nat) :
    Only Feet.pmuAdd.has (pmuAdd c n) := by
  unfold pmuAdd
  with_reducible repeat' first
    | exact Only.pure _ | exact Only.getM | refine Only.bind ?_ fun _ => ?_ | refine Only.onlyIf ?_
    | exact Only.wrK .PMU_BANK_OVF rfl (by decide +kernel) | exact Only.wrK .PMU_CNT rfl (by decide +kernel)

/-- What `pmuCount` can change. -/
def Feet.pmuCount : Mask := Feet.pmuAdd

theorem pmuCount_only (e n : Nat) (a : PmuAt) :
    Only Feet.pmuCount.has (pmuCount e n a) := by
  unfold pmuCount
  with_reducible repeat' first
    | exact Only.pure _ | exact Only.getM | refine Only.bind ?_ fun _ => ?_ | refine Only.onlyIf ?_
    | refine Only.each fun _ _ => ?_ | exact (pmuAdd_only ..).le (by decide +kernel)

/-- What `kerbDone` can change. -/
def Feet.kerbDone : Mask := .of [] [.kacc]

theorem kerbDone_only (port tag : Nat) :
    Only Feet.kerbDone.has (kerbDone port tag) := by
  simp only [kerbDone, modKacc, getKacc, putKacc]
  with_reducible repeat' first
    | exact Only.pure _ | exact Only.getM | refine Only.bind ?_ fun _ => ?_
    | exact Only.doT .kacc rfl (by decide +kernel)

/-- What `xsend` can change. -/
def Feet.xsend : Mask := (.of [] [.xin] : Mask).plus [Feet.pmuCount, Feet.kerbDone]

theorem xsend_only (msg : Msg) :
    Only Feet.xsend.has (xsend msg) := by
  simp only [xsend, modXin, getXin, putXin]
  with_reducible repeat' first
    | exact Only.pure _ | exact Only.getM | refine Only.bind ?_ fun _ => ?_ | refine Only.onlyIf ?_
    | exact Only.doT .xin rfl (by decide +kernel) | exact (pmuCount_only ..).le (by decide +kernel)
    | exact (kerbDone_only ..).le (by decide +kernel)

/-- What `xsendAll` can change. -/
def Feet.xsendAll : Mask := (.of [] [.xin] : Mask).plus [Feet.pmuCount]

theorem xsendAll_only (ms : List Msg) :
    Only Feet.xsendAll.has (xsendAll ms) := by
  simp only [xsendAll, modXin, getXin, putXin]
  with_reducible repeat' first
    | exact Only.pure _ | exact Only.getM | refine Only.bind ?_ fun _ => ?_
    | exact Only.doT .xin rfl (by decide +kernel) | exact (pmuCount_only ..).le (by decide +kernel) | split

/-- What `msixSend` can change. -/
def Feet.msixSend : Mask := (.of [] [.sf] : Mask).plus [Feet.xsend]

theorem msixSend_only (inp v vec cls : Nat) :
    Only Feet.msixSend.has (msixSend inp v vec cls) := by
  simp only [msixSend, putSf]
  with_reducible repeat' first
    | exact Only.pure _ | exact Only.getM | refine Only.bind ?_ fun _ => ?_ | refine Only.ite ?_ ?_
    | exact Only.doT .sf rfl (by decide +kernel) | exact (xsend_only ..).le (by decide +kernel)

/-- What `ringIrq` can change. -/
def Feet.ringIrq : Mask := (.of [] [.ring] : Mask).plus [Feet.msixSend]

theorem ringIrq_only (inp r cls : Nat) (atOnce : Bool) :
    Only Feet.ringIrq.has (ringIrq inp r cls atOnce) := by
  simp only [ringIrq, putRing]
  with_reducible repeat' first
    | exact Only.pure _ | exact Only.getM | refine Only.bind ?_ fun _ => ?_ | refine Only.ite ?_ ?_
    | exact Only.doT .ring rfl (by decide +kernel) | exact (msixSend_only ..).le (by decide +kernel)

/-- What `ringPut` can change. -/
def Feet.ringPut : Mask := (.of [.RNG_IDX, .RNG_CNT] [.ring] : Mask).plus [Feet.xsend]

theorem ringPut_only (inp r cls : Nat) (ws : List Word) (pad poison : Bool) :
    Only Feet.ringPut.has (ringPut inp r cls ws pad poison) := by
  simp only [ringPut, modRing, getRing, putRing]
  with_reducible repeat' first
    | exact Only.pure _ | exact Only.getM | refine Only.bind ?_ fun _ => ?_ | refine Only.onlyIf ?_
    | refine Only.each fun _ _ => ?_ | exact Only.addWrapK .RNG_IDX rfl (by decide +kernel)
    | exact Only.incK .RNG_CNT rfl (by decide +kernel) | exact Only.doT .ring rfl (by decide +kernel)
    | exact (xsend_only ..).le (by decide +kernel)

end Sys2Proof.Machine
end

