-- ==== Sys2Proof/Laws/FeetFlags.lean ====
section
/-!
SUPPORT. The footprint of every operation of Machine/Flags.lean: the registers and the things beside them that it can
change, whatever the block holds.
-/
namespace Sys2Proof.Machine

set_option Elab.async false

/-- What `evqPut` can change. -/
def Feet.evqPut : Mask := (.of [.INT_EVQ_IDX, .INT_EVQ_CNT] [.evLost, .sram] : Mask).plus [Feet.emit]

theorem evqPut_only (e : EvRec) :
    Only Feet.evqPut.has (evqPut e) := by
  simp only [evqPut, putEvLost, putSram]
  with_reducible repeat' first
    | exact Only.pure _ | exact Only.getM | refine Only.bind ?_ fun _ => ?_ | refine Only.onlyIf ?_
    | refine Only.each fun _ _ => ?_ | refine Only.ite ?_ ?_ | exact Only.incK .INT_EVQ_CNT rfl (by decide +kernel)
    | exact Only.addWrapK .INT_EVQ_IDX rfl (by decide +kernel) | exact Only.doT .evLost rfl (by decide +kernel)
    | exact Only.doT .sram rfl (by decide +kernel) | exact (emit_only ..).le (by decide +kernel)

/-- What `evHost` can change. -/
def Feet.evHost : Mask := .of [] [.hlog]

theorem evHost_only (e : EvRec) :
    Only Feet.evHost.has (evHost e) := by
  simp only [evHost, modHlog, getHlog, putHlog]
  with_reducible repeat' first
    | exact Only.pure _ | exact Only.getM | refine Only.bind ?_ fun _ => ?_ | refine Only.each fun _ _ => ?_
    | refine Only.ite ?_ ?_ | exact Only.doT .hlog rfl (by decide +kernel)

/-- What `evFeLog` can change. -/
def Feet.evFeLog : Mask := .of [.INT_FE_LOG] [.feSeen, .feDue]

theorem evFeLog_only (e : EvRec) :
    Only Feet.evFeLog.has (evFeLog e) := by
  simp only [evFeLog, putFeSeen, putFeDue]
  with_reducible repeat' first
    | exact Only.pure _ | exact Only.getM | refine Only.bind ?_ fun _ => ?_ | refine Only.onlyIf ?_
    | refine Only.each fun _ _ => ?_ | refine Only.ite ?_ ?_ | exact Only.wrK .INT_FE_LOG rfl (by decide +kernel)
    | exact Only.doT .feSeen rfl (by decide +kernel) | exact Only.doT .feDue rfl (by decide +kernel)

/-- What `evWait` can change. -/
def Feet.evWait : Mask := .of [] [.evPend]

theorem evWait_only (ring : Option Nat) (e : EvRec) :
    Only Feet.evWait.has (evWait ring e) := by
  simp only [evWait, modEvPend, getEvPend, putEvPend]
  with_reducible repeat' first
    | exact Only.pure _ | exact Only.getM | refine Only.bind ?_ fun _ => ?_
    | exact Only.doT .evPend rfl (by decide +kernel)

/-- What `raiseOn` can change. -/
def Feet.raiseOn : Mask := Feet.evHost.plus [Feet.evWait]

theorem raiseOn_only (ring : Option Nat) (e0 : EvRec) :
    Only Feet.raiseOn.has (raiseOn ring e0) := by
  simp only [raiseOn, now]
  with_reducible repeat' first
    | exact Only.pure _ | exact Only.getM | refine Only.bind ?_ fun _ => ?_
    | exact (evHost_only ..).le (by decide +kernel) | exact (evWait_only ..).le (by decide +kernel)

/-- What `raise` can change. -/
def Feet.raise : Mask := Feet.raiseOn

theorem raise_only (e : EvRec) :
    Only Feet.raise.has (raise e) := by
  unfold raise
  with_reducible repeat' first
    | exact Only.pure _ | exact Only.getM | refine Only.bind ?_ fun _ => ?_
    | exact (raiseOn_only ..).le (by decide +kernel)

/-- What `raiseFe` can change. -/
def Feet.raiseFe : Mask := Feet.evHost.plus [Feet.evFeLog, Feet.evWait]

theorem raiseFe_only (e0 : EvRec) :
    Only Feet.raiseFe.has (raiseFe e0) := by
  simp only [raiseFe, now]
  with_reducible repeat' first
    | exact Only.pure _ | exact Only.getM | refine Only.bind ?_ fun _ => ?_
    | exact (evHost_only ..).le (by decide +kernel) | exact (evFeLog_only ..).le (by decide +kernel)
    | exact (evWait_only ..).le (by decide +kernel)

/-- What `countFirst` can change. -/
def Feet.countFirst : Mask := Feet.raise

theorem countFirst_only {f : RF} (e : EvRec) {M : Mask} (hM : Feet.raise.le M = true) {k : RegKind} (hf : f.k = k)
    (h : M.hasReg k = true) : Only M.has (countFirst f e) := by
  unfold countFirst
  refine Only.bind (Only.rd _) fun v => Only.bind (Only.incK k hf h) fun _ => Only.onlyIf ?_
  exact (raise_only e).le hM

/-- What `writeRefused` can change. -/
def Feet.writeRefused : Mask := Feet.raise

theorem writeRefused_only (r : Reg) (addr reason : Nat) (path : Path) :
    Only Feet.writeRefused.has (writeRefused r addr reason path) := by
  unfold writeRefused
  with_reducible repeat' first
    | exact Only.pure _ | exact Only.getM | refine Only.bind ?_ fun _ => ?_
    | exact (raise_only ..).le (by decide +kernel)

/-- What `opRefused` can change. -/
def Feet.opRefused : Mask := Feet.raise

theorem opRefused_only (b : Blk) (reason port slice src : Nat) :
    Only Feet.opRefused.has (opRefused b reason port slice src) := by
  unfold opRefused
  with_reducible repeat' first
    | exact Only.pure _ | exact Only.getM | refine Only.bind ?_ fun _ => ?_
    | exact (raise_only ..).le (by decide +kernel)

/-- What `pathRefused` can change. -/
def Feet.pathRefused : Mask := (.of [.GLB_PATH_CNT] [] : Mask).plus [Feet.raise]

theorem pathRefused_only (path : Path) (addr cause : Nat) (isWrite : Bool) :
    Only Feet.pathRefused.has (pathRefused path addr cause isWrite) := by
  unfold pathRefused
  with_reducible repeat' first
    | exact Only.pure _ | exact Only.getM | refine Only.bind ?_ fun _ => ?_ | refine Only.onlyIf ?_
    | refine Only.ite ?_ ?_ | exact Only.incK .GLB_PATH_CNT rfl (by decide +kernel)
    | exact Only.wrK .GLB_PATH_CNT rfl (by decide +kernel) | exact (raise_only ..).le (by decide +kernel)

/-- What `memPoisoned` can change. -/
def Feet.memPoisoned : Mask := (.of [.INT_CNT_POISON] [] : Mask).plus [Feet.raise]

theorem memPoisoned_only (mem cause inst obj : Nat) (f : EvRec → EvRec) :
    Only Feet.memPoisoned.has (memPoisoned mem cause inst obj f) := by
  unfold memPoisoned
  with_reducible repeat' first
    | exact Only.pure _ | exact Only.getM | refine Only.bind ?_ fun _ => ?_
    | exact Only.incK .INT_CNT_POISON rfl (by decide +kernel) | exact (raise_only ..).le (by decide +kernel)

/-- What `poisonReceived` can change. -/
def Feet.poisonReceived : Mask := (.of [.INT_CNT_PIN] [] : Mask).plus [Feet.raise]

theorem poisonReceived_only (p : Nat) (addr : Option Nat) :
    Only Feet.poisonReceived.has (poisonReceived p addr) := by
  unfold poisonReceived
  with_reducible repeat' first
    | exact Only.pure _ | exact Only.getM | refine Only.bind ?_ fun _ => ?_
    | exact Only.incK .INT_CNT_PIN rfl (by decide +kernel) | exact (raise_only ..).le (by decide +kernel)

/-- What `memUncorrectable` can change. -/
def Feet.memUncorrectable : Mask := (.of [.INT_CNT_UE] [] : Mask).plus [Feet.raise]

theorem memUncorrectable_only (mem cause inst obj : Nat) (f : EvRec → EvRec) :
    Only Feet.memUncorrectable.has (memUncorrectable mem cause inst obj f) := by
  unfold memUncorrectable
  with_reducible repeat' first
    | exact Only.pure _ | exact Only.getM | refine Only.bind ?_ fun _ => ?_
    | exact Only.incK .INT_CNT_UE rfl (by decide +kernel) | exact (raise_only ..).le (by decide +kernel)

/-- What `memFatal` can change. -/
def Feet.memFatal : Mask := (.of [.INT_CNT_UE] [] : Mask).plus [Feet.raiseFe]

theorem memFatal_only (mem cause inst obj : Nat) :
    Only Feet.memFatal.has (memFatal mem cause inst obj) := by
  unfold memFatal
  with_reducible repeat' first
    | exact Only.pure _ | exact Only.getM | refine Only.bind ?_ fun _ => ?_
    | exact Only.incK .INT_CNT_UE rfl (by decide +kernel) | exact (raiseFe_only ..).le (by decide +kernel)

/-- What `memCorrected` can change. -/
def Feet.memCorrected : Mask := (.of [.INT_CNT_CE] [] : Mask).plus [Feet.raise]

theorem memCorrected_only (mem inst obj : Nat) :
    Only Feet.memCorrected.has (memCorrected mem inst obj) := by
  unfold memCorrected
  with_reducible repeat' first
    | exact Only.pure _ | exact Only.getM | refine Only.bind ?_ fun _ => ?_ | refine Only.onlyIf ?_
    | exact Only.incK .INT_CNT_CE rfl (by decide +kernel) | exact (raise_only ..).le (by decide +kernel)

end Sys2Proof.Machine
end

