-- ==== Sys2Proof/Laws/FeetSpill.lean ====
section
/-!
SUPPORT. The footprint of every operation of Machine/Spill.lean: the registers and the things beside them that it can
change, whatever the block holds.
-/
namespace Sys2Proof.Machine

set_option Elab.async false

/-- What `pageTake` can change. -/
def Feet.pageTake : Mask := .of [.TM_SPILL_STATUS] [.sfree, .tq]

theorem pageTake_only (q b : Nat) :
    Only Feet.pageTake.has (pageTake q b) := by
  simp only [pageTake, putTq, putSfree]
  with_reducible repeat' first
    | exact Only.pure _ | exact Only.getM | refine Only.bind ?_ fun _ => ?_
    | exact Only.incK .TM_SPILL_STATUS rfl (by decide +kernel) | exact Only.doT .sfree rfl (by decide +kernel)
    | exact Only.doT .tq rfl (by decide +kernel) | split

/-- What `pageLeave` can change. -/
def Feet.pageLeave : Mask := .of [.TM_SPILL_STATUS] [.sfree, .tq]

theorem pageLeave_only (q place b : Nat) :
    Only Feet.pageLeave.has (pageLeave q place b) := by
  simp only [pageLeave, getTq, putTq, modSfree, getSfree, putSfree]
  with_reducible repeat' first
    | exact Only.pure _ | exact Only.getM | refine Only.bind ?_ fun _ => ?_ | refine Only.ite ?_ ?_
    | exact Only.subK .TM_SPILL_STATUS rfl (by decide +kernel) | exact Only.doT .sfree rfl (by decide +kernel)
    | exact Only.doT .tq rfl (by decide +kernel) | split

/-- What `spillLanded` can change. -/
def Feet.spillLanded : Mask := (.of [] [.push] : Mask).plus [Feet.pageLeave]

theorem spillLanded_only (line : Nat) (data : List Word) (poison : Bool) :
    Only Feet.spillLanded.has (spillLanded line data poison) := by
  simp only [spillLanded, putPush]
  with_reducible repeat' first
    | exact Only.pure _ | exact Only.getM | refine Only.bind ?_ fun _ => ?_ | refine Only.onlyIf ?_
    | refine Only.each fun _ _ => ?_ | exact Only.doT .push rfl (by decide +kernel)
    | exact (pageLeave_only ..).le (by decide +kernel) | split

end Sys2Proof.Machine
end

