-- ==== Sys2Proof/Laws/FeetCrossing.lean ====
section
/-!
SUPPORT. The footprint of every operation of Machine/Crossing.lean: the registers and the things beside them that it can
change, whatever the block holds.
-/
namespace Sys2Proof.Machine

set_option Elab.async false

/-- What `flowDrainAll` can change. -/
def Feet.flowDrainAll : Mask := .of [] [.flowt]

theorem flowDrainAll_only : Only Feet.flowDrainAll.has flowDrainAll := by
  simp only [flowDrainAll, putFlowt]
  with_reducible repeat' first
    | exact Only.pure _ | exact Only.getM | refine Only.bind ?_ fun _ => ?_ | refine Only.onlyIf ?_
    | refine Only.each fun _ _ => ?_ | exact Only.doT .flowt rfl (by decide +kernel)

/-- What `planeModeUpdate` can change. -/
def Feet.planeModeUpdate : Mask := (.of [.XB_STATUS] [] : Mask).plus [Feet.raiseFe, Feet.flowDrainAll]

theorem planeModeUpdate_only : Only Feet.planeModeUpdate.has planeModeUpdate := by
  unfold planeModeUpdate
  with_reducible repeat' first
    | exact Only.pure _ | exact Only.getM | refine Only.bind ?_ fun _ => ?_ | refine Only.onlyIf ?_
    | refine Only.ite ?_ ?_ | exact Only.wrK .XB_STATUS rfl (by decide +kernel)
    | exact (raiseFe_only ..).le (by decide +kernel) | exact (flowDrainAll_only ..).le (by decide +kernel)

/-- What `planeTo` can change. -/
def Feet.planeTo : Mask := (.of [.XB_PLANE_STATUS] [] : Mask).plus [Feet.planeModeUpdate]

theorem planeTo_only (p st : Nat) :
    Only Feet.planeTo.has (planeTo p st) := by
  unfold planeTo
  with_reducible repeat' first
    | exact Only.pure _ | exact Only.getM | refine Only.bind ?_ fun _ => ?_
    | exact Only.wrK .XB_PLANE_STATUS rfl (by decide +kernel)
    | exact (planeModeUpdate_only ..).le (by decide +kernel)

/-- What `bobTake` can change. -/
def Feet.bobTake : Mask := .of [.XB_BUF_STATUS] [.xfree]

theorem bobTake_only (res sh : Nat) :
    Only Feet.bobTake.has (bobTake res sh) := by
  simp only [bobTake, getXfree, putXfree]
  with_reducible repeat' first
    | exact Only.pure _ | exact Only.getM | refine Only.bind ?_ fun _ => ?_
    | exact Only.subK .XB_BUF_STATUS rfl (by decide +kernel) | exact Only.doT .xfree rfl (by decide +kernel)

/-- What `bobReturn` can change. -/
def Feet.bobReturn : Mask := .of [.XB_BUF_STATUS] [.xfree]

theorem bobReturn_only (l : List Nat) (sh : Nat) :
    Only Feet.bobReturn.has (bobReturn l sh) := by
  simp only [bobReturn, modXfree, getXfree, putXfree]
  with_reducible repeat' first
    | exact Only.pure _ | exact Only.getM | refine Only.bind ?_ fun _ => ?_
    | exact Only.addSatK .XB_BUF_STATUS rfl (by decide +kernel) | exact Only.doT .xfree rfl (by decide +kernel)

/-- What `acctAdd` can change. -/
def Feet.acctAdd : Mask := .of [] [.xacct]

theorem acctAdd_only (ep cls res sh : Nat) :
    Only Feet.acctAdd.has (acctAdd ep cls res sh) := by
  simp only [acctAdd, modXacct, getXacct, putXacct]
  with_reducible repeat' first
    | exact Only.pure _ | exact Only.getM | refine Only.bind ?_ fun _ => ?_
    | exact Only.doT .xacct rfl (by decide +kernel)

/-- What `acctSub` can change. -/
def Feet.acctSub : Mask := .of [] [.xacct]

theorem acctSub_only (ep cls res sh : Nat) :
    Only Feet.acctSub.has (acctSub ep cls res sh) := by
  simp only [acctSub, modXacct, getXacct, putXacct]
  with_reducible repeat' first
    | exact Only.pure _ | exact Only.getM | refine Only.bind ?_ fun _ => ?_
    | exact Only.doT .xacct rfl (by decide +kernel)

/-- What `bufTake` can change. -/
def Feet.bufTake : Mask := Feet.bobTake.plus [Feet.acctAdd]

theorem bufTake_only (ep cls res sh : Nat) :
    Only Feet.bufTake.has (bufTake ep cls res sh) := by
  unfold bufTake
  with_reducible repeat' first
    | exact Only.pure _ | exact Only.getM | refine Only.bind ?_ fun _ => ?_
    | exact (bobTake_only ..).le (by decide +kernel) | exact (acctAdd_only ..).le (by decide +kernel)

/-- What `bufGive` can change. -/
def Feet.bufGive : Mask := Feet.bobReturn.plus [Feet.acctSub]

theorem bufGive_only (ep cls res sh : Nat) (l : List Nat) :
    Only Feet.bufGive.has (bufGive ep cls res sh l) := by
  unfold bufGive
  with_reducible repeat' first
    | exact Only.pure _ | exact Only.getM | refine Only.bind ?_ fun _ => ?_
    | exact (bobReturn_only ..).le (by decide +kernel) | exact (acctSub_only ..).le (by decide +kernel)

/-- What `ringLanded` can change. -/
def Feet.ringLanded : Mask := .of [] [.ring]

theorem ringLanded_only (msg : Msg) :
    Only Feet.ringLanded.has (ringLanded msg) := by
  simp only [ringLanded, modRing, getRing, putRing]
  with_reducible repeat' first
    | exact Only.pure _ | exact Only.getM | refine Only.bind ?_ fun _ => ?_ | refine Only.onlyIf ?_
    | exact Only.doT .ring rfl (by decide +kernel)

/-- What `reelShow` can change. -/
def Feet.reelShow : Mask := .of [.TWN_SPN_TXSEQ] []

theorem reelShow_only : Only Feet.reelShow.has reelShow := by
  unfold reelShow
  with_reducible repeat' first
    | exact Only.pure _ | exact Only.getM | refine Only.bind ?_ fun _ => ?_
    | exact Only.wrK .TWN_SPN_TXSEQ rfl (by decide +kernel)

/-- What `spnTx` can change. -/
def Feet.spnTx : Mask := (.of [.TWN_SPN_CRED, .TWN_SPN_CNT] [.reel, .spnWait, .spn] : Mask).plus [Feet.emit,
  Feet.reelShow]

theorem spnTx_only (msg : Msg) :
    Only Feet.spnTx.has (spnTx msg) := by
  simp only [spnTx, modReel, getReel, putReel, putSpnWait, modSpn, getSpn, putSpn]
  with_reducible repeat' first
    | exact Only.pure _ | exact Only.getM | refine Only.bind ?_ fun _ => ?_ | refine Only.onlyIf ?_
    | refine Only.ite ?_ ?_ | exact Only.addWrapK .TWN_SPN_CRED rfl (by decide +kernel)
    | exact Only.addWrapK .TWN_SPN_TXSEQ rfl (by decide +kernel)
    | exact Only.incK .TWN_SPN_CNT rfl (by decide +kernel) | exact Only.doT .reel rfl (by decide +kernel)
    | exact Only.doT .spnWait rfl (by decide +kernel) | exact Only.doT .spn rfl (by decide +kernel)
    | exact (emit_only ..).le (by decide +kernel) | exact (reelShow_only ..).le (by decide +kernel)

/-- What `spnWaits` can change. -/
def Feet.spnWaits : Mask := .of [.TWN_SPN_STATUS, .TWN_SPN_CNT] [.spnWait]

theorem spnWaits_only : Only Feet.spnWaits.has spnWaits := by
  simp only [spnWaits, putSpnWait]
  with_reducible repeat' first
    | exact Only.pure _ | exact Only.getM | refine Only.bind ?_ fun _ => ?_ | refine Only.onlyIf ?_
    | refine Only.each fun _ _ => ?_ | refine Only.ite ?_ ?_ | exact Only.incK .TWN_SPN_CNT rfl (by decide +kernel)
    | exact Only.wrK .TWN_SPN_STATUS rfl (by decide +kernel) | exact Only.doT .spnWait rfl (by decide +kernel)
    | split

/-- What `statusSend` can change. -/
def Feet.statusSend : Mask := Feet.emit

theorem statusSend_only (nak : Bool) :
    Only Feet.statusSend.has (statusSend nak) := by
  unfold statusSend
  with_reducible repeat' first
    | exact Only.pure _ | exact Only.getM | refine Only.bind ?_ fun _ => ?_ | refine Only.onlyIf ?_
    | refine Only.ite ?_ ?_ | exact (emit_only ..).le (by decide +kernel)

/-- What `spnFree` can change. -/
def Feet.spnFree : Mask := (.of [.TWN_SPN_RCRED] [.spnBuf] : Mask).plus [Feet.statusSend]

theorem spnFree_only (vc : Nat) :
    Only Feet.spnFree.has (spnFree vc) := by
  simp only [spnFree, putSpnBuf]
  with_reducible repeat' first
    | exact Only.pure _ | exact Only.getM | refine Only.bind ?_ fun _ => ?_ | refine Only.onlyIf ?_
    | exact Only.addWrapK .TWN_SPN_RCRED rfl (by decide +kernel)
    | exact Only.subK .TWN_SPN_RCRED rfl (by decide +kernel) | exact Only.doT .spnBuf rfl (by decide +kernel)
    | exact (statusSend_only ..).le (by decide +kernel) | split

/-- What `fwdLost` can change. -/
def Feet.fwdLost : Mask := Feet.xsend.plus [Feet.raise]

theorem fwdLost_only (msg : Msg) :
    Only Feet.fwdLost.has (fwdLost msg) := by
  unfold fwdLost
  with_reducible repeat' first
    | exact Only.pure _ | exact Only.getM | refine Only.bind ?_ fun _ => ?_ | refine Only.onlyIf ?_
    | refine Only.ite ?_ ?_ | exact (xsend_only ..).le (by decide +kernel)
    | exact (raise_only ..).le (by decide +kernel)

/-- What `discard` can change. -/
def Feet.discard : Mask := (.of [.XB_CNT] [] : Mask).plus [Feet.emit, Feet.ringLanded, Feet.fwdLost]

theorem discard_only (msg : Msg) :
    Only Feet.discard.has (discard msg) := by
  unfold discard
  with_reducible repeat' first
    | exact Only.pure _ | exact Only.getM | refine Only.bind ?_ fun _ => ?_ | refine Only.onlyIf ?_
    | refine Only.ite ?_ ?_ | exact Only.incK .XB_CNT rfl (by decide +kernel)
    | exact (emit_only ..).le (by decide +kernel) | exact (kerbDone_only ..).le (by decide +kernel)
    | exact (ringLanded_only ..).le (by decide +kernel) | exact (fwdLost_only ..).le (by decide +kernel)

/-- What `mirrorCopy` can change. -/
def Feet.mirrorCopy : Mask := (.of [.XB_MIR_CNT] [.mir] : Mask).plus [Feet.countFirst, Feet.bobTake]

theorem mirrorCopy_only (s dir p : Nat) (refused : Bool) (msg : Msg) :
    Only Feet.mirrorCopy.has (mirrorCopy s dir p refused msg) := by
  simp only [mirrorCopy, putMir]
  with_reducible repeat' first
    | exact Only.pure _ | exact Only.getM | refine Only.bind ?_ fun _ => ?_ | refine Only.ite ?_ ?_
    | exact countFirst_only _ (by decide +kernel) (k := .XB_MIR_CNT) rfl (by decide +kernel)
    | exact Only.doT .mir rfl (by decide +kernel) | exact (bobTake_only ..).le (by decide +kernel)

/-- What `mirrorBoth` can change. -/
def Feet.mirrorBoth : Mask := Feet.mirrorCopy

theorem mirrorBoth_only (dir p : Nat) (refused : Bool) (msg : Msg) :
    Only Feet.mirrorBoth.has (mirrorBoth dir p refused msg) := by
  unfold mirrorBoth
  with_reducible repeat' first
    | exact Only.pure _ | exact Only.getM | refine Only.bind ?_ fun _ => ?_
    | exact (mirrorCopy_only ..).le (by decide +kernel)

/-- What `owe` can change. -/
def Feet.owe : Mask := .of [] [.owed]

theorem owe_only (msg : Msg) :
    Only Feet.owe.has (owe msg) := by
  simp only [owe, modOwed, getOwed, putOwed]
  with_reducible repeat' first
    | exact Only.pure _ | exact Only.getM | refine Only.bind ?_ fun _ => ?_ | refine Only.onlyIf ?_
    | exact Only.doT .owed rfl (by decide +kernel)

/-- What `owedDone` can change. -/
def Feet.owedDone : Mask := .of [] [.owed]

theorem owedDone_only (p : Nat) (op : Op) (tag req : Nat) :
    Only Feet.owedDone.has (owedDone p op tag req) := by
  simp only [owedDone, modOwed, getOwed, putOwed]
  with_reducible repeat' first
    | exact Only.pure _ | exact Only.getM | refine Only.bind ?_ fun _ => ?_
    | exact Only.doT .owed rfl (by decide +kernel)

/-- What `deliver` can change. -/
def Feet.deliver : Mask := (.of [] [.port, .sqin, .stampCtr, .arrT] : Mask).plus [Feet.pmuCount, Feet.kerbDone,
  Feet.spillLanded, Feet.ringLanded, Feet.spnTx, Feet.mirrorBoth, Feet.owe]

theorem deliver_only (msg : Msg) :
    Only Feet.deliver.has (deliver msg) := by
  simp only [deliver, modPort, getPort, putPort, getStampCtr, putStampCtr, putArrT, modSqin, getSqin, putSqin, now]
  with_reducible repeat' first
    | exact Only.pure _ | exact Only.getM | refine Only.bind ?_ fun _ => ?_ | refine Only.onlyIf ?_
    | refine Only.ite ?_ ?_ | exact Only.doT .port rfl (by decide +kernel)
    | exact Only.doT .sqin rfl (by decide +kernel) | exact Only.doT .stampCtr rfl (by decide +kernel)
    | exact Only.doT .arrT rfl (by decide +kernel) | exact (emit_only ..).le (by decide +kernel)
    | exact (pmuCount_only ..).le (by decide +kernel) | exact (kerbDone_only ..).le (by decide +kernel)
    | exact (spillLanded_only ..).le (by decide +kernel) | exact (ringLanded_only ..).le (by decide +kernel)
    | exact (spnTx_only ..).le (by decide +kernel) | exact (mirrorBoth_only ..).le (by decide +kernel)
    | exact (owe_only ..).le (by decide +kernel)

/-- What `flowDispatch` can change. -/
def Feet.flowDispatch : Mask := .of [.XB_CNT] [.flowt]

theorem flowDispatch_only (key p n : Nat) :
    Only Feet.flowDispatch.has (flowDispatch key p n) := by
  simp only [flowDispatch, putFlowt]
  with_reducible repeat' first
    | exact Only.pure _ | exact Only.getM | refine Only.bind ?_ fun _ => ?_ | refine Only.onlyIf ?_
    | exact Only.incK .XB_CNT rfl (by decide +kernel) | exact Only.doT .flowt rfl (by decide +kernel)

/-- What `popIn` can change. -/
def Feet.popIn : Mask := (.of [] [.xin, .xwait] : Mask).plus [Feet.spnFree]

theorem popIn_only (i c : Nat) :
    Only Feet.popIn.has (popIn i c) := by
  simp only [popIn, modXin, getXin, putXin, putXwait]
  with_reducible repeat' first
    | exact Only.pure _ | exact Only.getM | refine Only.bind ?_ fun _ => ?_ | refine Only.onlyIf ?_
    | exact Only.doT .xin rfl (by decide +kernel) | exact Only.doT .xwait rfl (by decide +kernel)
    | exact (emit_only ..).le (by decide +kernel) | exact (spnFree_only ..).le (by decide +kernel) | split

/-- What `headWaits` can change. -/
def Feet.headWaits : Mask := .of [.XB_CNT] [.xwait]

theorem headWaits_only (i c : Nat) :
    Only Feet.headWaits.has (headWaits i c) := by
  simp only [headWaits, putXwait]
  with_reducible repeat' first
    | exact Only.pure _ | exact Only.getM | refine Only.bind ?_ fun _ => ?_ | refine Only.onlyIf ?_
    | exact Only.incK .XB_CNT rfl (by decide +kernel) | exact Only.doT .xwait rfl (by decide +kernel)

/-- What `dispatchOne` can change. -/
def Feet.dispatchOne : Mask := (.of [] [.stg] : Mask).plus [Feet.bufTake, Feet.discard, Feet.deliver,
  Feet.flowDispatch, Feet.popIn, Feet.headWaits]

theorem dispatchOne_only (i c : Nat) (msg : Msg) :
    Only Feet.dispatchOne.has (dispatchOne i c msg) := by
  simp only [dispatchOne, modStg, getStg, putStg]
  with_reducible repeat' first
    | exact Only.pure _ | exact Only.getM | refine Only.bind ?_ fun _ => ?_ | refine Only.ite ?_ ?_
    | exact Only.incK .XB_CNT rfl (by decide +kernel) | exact Only.doT .stg rfl (by decide +kernel)
    | exact (bufTake_only ..).le (by decide +kernel) | exact (discard_only ..).le (by decide +kernel)
    | exact (deliver_only ..).le (by decide +kernel) | exact (flowDispatch_only ..).le (by decide +kernel)
    | exact (popIn_only ..).le (by decide +kernel) | exact (headWaits_only ..).le (by decide +kernel) | split

/-- What `dispatchFabric` can change. -/
def Feet.dispatchFabric : Mask := (.of [] [.stg] : Mask).plus [Feet.bobTake, Feet.acctAdd, Feet.flowDispatch,
  Feet.popIn, Feet.headWaits]

theorem dispatchFabric_only (i c : Nat) (a : Msg) (ms : List Msg) :
    Only Feet.dispatchFabric.has (dispatchFabric i c a ms) := by
  simp only [dispatchFabric, modStg, getStg, putStg]
  with_reducible repeat' first
    | exact Only.pure _ | exact Only.getM | refine Only.bind ?_ fun _ => ?_ | refine Only.each fun _ _ => ?_
    | refine Only.ite ?_ ?_ | exact Only.incK .XB_CNT rfl (by decide +kernel)
    | exact Only.doT .stg rfl (by decide +kernel) | exact (bobTake_only ..).le (by decide +kernel)
    | exact (acctAdd_only ..).le (by decide +kernel) | exact (flowDispatch_only ..).le (by decide +kernel)
    | exact (popIn_only ..).le (by decide +kernel) | exact (headWaits_only ..).le (by decide +kernel) | split

/-- What `dispatchHead` can change. -/
def Feet.dispatchHead : Mask := Feet.dispatchOne

theorem dispatchHead_only (i c : Nat) :
    Only Feet.dispatchHead.has (dispatchHead i c) := by
  simp only [dispatchHead, modXin, getXin, putXin]
  with_reducible repeat' first
    | exact Only.pure _ | exact Only.getM | refine Only.bind ?_ fun _ => ?_ | refine Only.each fun _ _ => ?_
    | refine Only.ite ?_ ?_ | exact Only.incK .XB_CNT rfl (by decide +kernel)
    | exact Only.doT .xin rfl (by decide +kernel) | exact (discard_only ..).le (by decide +kernel)
    | exact (popIn_only ..).le (by decide +kernel) | exact (dispatchOne_only ..).le (by decide +kernel)
    | exact (dispatchFabric_only ..).le (by decide +kernel) | split

/-- What `flowAck` can change. -/
def Feet.flowAck : Mask := .of [] [.flowt]

theorem flowAck_only (key : Nat) :
    Only Feet.flowAck.has (flowAck key) := by
  simp only [flowAck, modFlowt, getFlowt, putFlowt]
  with_reducible repeat' first
    | exact Only.pure _ | exact Only.getM | refine Only.bind ?_ fun _ => ?_
    | exact Only.doT .flowt rfl (by decide +kernel)

/-- What `mcUnref` can change. -/
def Feet.mcUnref : Mask := (.of [] [.mcs, .mcq] : Mask).plus [Feet.bufGive]

theorem mcUnref_only (id : Nat) :
    Only Feet.mcUnref.has (mcUnref id) := by
  simp only [mcUnref, putMcs, modMcq, getMcq, putMcq]
  with_reducible repeat' first
    | exact Only.pure _ | exact Only.getM | refine Only.bind ?_ fun _ => ?_ | refine Only.ite ?_ ?_
    | exact Only.doT .mcs rfl (by decide +kernel) | exact Only.doT .mcq rfl (by decide +kernel)
    | exact (bufGive_only ..).le (by decide +kernel)

/-- What `linkRef` can change. -/
def Feet.linkRef : Mask := (.of [] [.xq] : Mask).plus [Feet.discard, Feet.mcUnref]

theorem linkRef_only (id t : Nat) (s : Staged) (r : XRef) :
    Only Feet.linkRef.has (linkRef id t s r) := by
  simp only [linkRef, modXq, getXq, putXq]
  with_reducible repeat' first
    | exact Only.pure _ | exact Only.getM | refine Only.bind ?_ fun _ => ?_ | refine Only.ite ?_ ?_
    | exact Only.doT .xq rfl (by decide +kernel) | exact (acctSub_only ..).le (by decide +kernel)
    | exact (discard_only ..).le (by decide +kernel) | exact (mcUnref_only ..).le (by decide +kernel)

/-- What `linkMsg` can change. -/
def Feet.linkMsg : Mask := (.of [] [.mcNext] : Mask).plus [Feet.linkRef]

theorem linkMsg_only (s : Staged) :
    Only Feet.linkMsg.has (linkMsg s) := by
  simp only [linkMsg, modXq, getXq, putXq, putMcNext, putMcs, modMcq, getMcq, putMcq]
  with_reducible repeat' first
    | exact Only.pure _ | exact Only.getM | refine Only.bind ?_ fun _ => ?_ | refine Only.each fun _ _ => ?_
    | refine Only.ite ?_ ?_ | exact Only.incK .XB_CNT rfl (by decide +kernel)
    | exact Only.doT .xq rfl (by decide +kernel) | exact Only.doT .mcs rfl (by decide +kernel)
    | exact Only.doT .mcq rfl (by decide +kernel) | exact Only.doT .mcNext rfl (by decide +kernel)
    | exact (bufGive_only ..).le (by decide +kernel) | exact (discard_only ..).le (by decide +kernel)
    | exact (linkRef_only ..).le (by decide +kernel)

/-- What `cellLinked` can change. -/
def Feet.cellLinked : Mask := (.of [] [.stg] : Mask).plus [Feet.flowAck, Feet.linkMsg]

theorem cellLinked_only (i p : Nat) :
    Only Feet.cellLinked.has (cellLinked i p) := by
  simp only [cellLinked, putStg]
  with_reducible repeat' first
    | exact Only.pure _ | exact Only.getM | refine Only.bind ?_ fun _ => ?_ | refine Only.each fun _ _ => ?_
    | refine Only.ite ?_ ?_ | exact Only.doT .stg rfl (by decide +kernel)
    | exact (flowAck_only ..).le (by decide +kernel) | exact (linkMsg_only ..).le (by decide +kernel) | split

/-- What `popQueue` can change. -/
def Feet.popQueue : Mask := (.of [] [.xq, .xaged] : Mask).plus [Feet.mcUnref]

theorem popQueue_only (ep cls : Nat) (q : QMsg) :
    Only Feet.popQueue.has (popQueue ep cls q) := by
  simp only [popQueue, modXq, getXq, putXq, putXaged]
  with_reducible repeat' first
    | exact Only.pure _ | exact Only.getM | refine Only.bind ?_ fun _ => ?_ | refine Only.onlyIf ?_
    | exact Only.doT .xq rfl (by decide +kernel) | exact Only.doT .xaged rfl (by decide +kernel)
    | exact (acctSub_only ..).le (by decide +kernel) | exact (bufGive_only ..).le (by decide +kernel)
    | exact (mcUnref_only ..).le (by decide +kernel) | split

/-- What `mirrorSend` can change. -/
def Feet.mirrorSend : Mask := (.of [.XB_MIR_CNT] [.mir] : Mask).plus [Feet.emit, Feet.bobReturn]

theorem mirrorSend_only (s : Nat) :
    Only Feet.mirrorSend.has (mirrorSend s) := by
  simp only [mirrorSend, putMir]
  with_reducible repeat' first
    | exact Only.pure _ | exact Only.getM | refine Only.bind ?_ fun _ => ?_ | refine Only.onlyIf ?_
    | refine Only.each fun _ _ => ?_ | refine Only.ite ?_ ?_ | exact Only.addSatK .XB_MIR_CNT rfl (by decide +kernel)
    | exact Only.doT .mir rfl (by decide +kernel) | exact (emit_only ..).le (by decide +kernel)
    | exact (bobReturn_only ..).le (by decide +kernel) | split

/-- What `outputSend` can change. -/
def Feet.outputSend : Mask := (.of [] [.xdef, .xturn] : Mask).plus [Feet.spnWaits, Feet.deliver, Feet.popQueue]

theorem outputSend_only (ep : Nat) :
    Only Feet.outputSend.has (outputSend ep) := by
  simp only [outputSend, putXdef, putXturn]
  with_reducible repeat' first
    | exact Only.pure _ | exact Only.getM | refine Only.bind ?_ fun _ => ?_ | refine Only.onlyIf ?_
    | refine Only.each fun _ _ => ?_ | refine Only.ite ?_ ?_ | exact Only.doT .xdef rfl (by decide +kernel)
    | exact Only.doT .xturn rfl (by decide +kernel) | exact (spnWaits_only ..).le (by decide +kernel)
    | exact (deliver_only ..).le (by decide +kernel) | exact (popQueue_only ..).le (by decide +kernel)
    | exact (mirrorSend_only ..).le (by decide +kernel) | split

/-- What `planeLoss` can change. -/
def Feet.planeLoss : Mask := (.of [.XB_CNT] [.stg] : Mask).plus [Feet.planeTo]

theorem planeLoss_only (p cause : Nat) :
    Only Feet.planeLoss.has (planeLoss p cause) := by
  simp only [planeLoss, putStg, modFlowt, getFlowt, putFlowt]
  with_reducible repeat' first
    | exact Only.pure _ | exact Only.getM | refine Only.bind ?_ fun _ => ?_ | refine Only.each fun _ _ => ?_
    | refine Only.ite ?_ ?_ | exact Only.wrK .XB_PLANE_STATUS rfl (by decide +kernel)
    | exact Only.addSatK .XB_CNT rfl (by decide +kernel) | exact Only.doT .stg rfl (by decide +kernel)
    | exact Only.doT .flowt rfl (by decide +kernel) | exact (raise_only ..).le (by decide +kernel)
    | exact (planeTo_only ..).le (by decide +kernel)

/-- What `resendStranded` can change. -/
def Feet.resendStranded : Mask := .of [] [.stg]

theorem resendStranded_only : Only Feet.resendStranded.has resendStranded := by
  simp only [resendStranded, putStg]
  with_reducible repeat' first
    | exact Only.pure _ | exact Only.getM | refine Only.bind ?_ fun _ => ?_ | refine Only.onlyIf ?_
    | refine Only.each fun _ _ => ?_ | refine Only.ite ?_ ?_ | exact Only.doT .stg rfl (by decide +kernel)

/-- What `planeCheckPass` can change. -/
def Feet.planeCheckPass : Mask := (.of [] [.xret] : Mask).plus [Feet.planeTo, Feet.resendStranded]

theorem planeCheckPass_only (p : Nat) :
    Only Feet.planeCheckPass.has (planeCheckPass p) := by
  simp only [planeCheckPass, putXret]
  with_reducible repeat' first
    | exact Only.pure _ | exact Only.getM | refine Only.bind ?_ fun _ => ?_ | refine Only.onlyIf ?_
    | refine Only.ite ?_ ?_ | exact Only.doT .xret rfl (by decide +kernel)
    | exact (raise_only ..).le (by decide +kernel) | exact (planeTo_only ..).le (by decide +kernel)
    | exact (resendStranded_only ..).le (by decide +kernel)

/-- What `planeCheckFail` can change. -/
def Feet.planeCheckFail : Mask := Feet.planeLoss

theorem planeCheckFail_only (p : Nat) :
    Only Feet.planeCheckFail.has (planeCheckFail p) := by
  unfold planeCheckFail
  with_reducible repeat' first
    | exact Only.pure _ | exact Only.getM | refine Only.bind ?_ fun _ => ?_ | refine Only.onlyIf ?_
    | exact (planeLoss_only ..).le (by decide +kernel)

/-- What `planeError` can change. -/
def Feet.planeError : Mask := Feet.planeLoss

theorem planeError_only (p cause : Nat) :
    Only Feet.planeError.has (planeError p cause) := by
  unfold planeError
  with_reducible repeat' first
    | exact Only.pure _ | exact Only.getM | refine Only.bind ?_ fun _ => ?_ | refine Only.onlyIf ?_
    | exact (planeLoss_only ..).le (by decide +kernel)

/-- What `planeDrained` can change. -/
def Feet.planeDrained : Mask := Feet.planeTo

theorem planeDrained_only (p : Nat) :
    Only Feet.planeDrained.has (planeDrained p) := by
  unfold planeDrained
  with_reducible repeat' first
    | exact Only.pure _ | exact Only.getM | refine Only.bind ?_ fun _ => ?_ | refine Only.ite ?_ ?_
    | exact (planeTo_only ..).le (by decide +kernel)

/-- What `planeDrainTimeout` can change. -/
def Feet.planeDrainTimeout : Mask := Feet.planeLoss

theorem planeDrainTimeout_only (p : Nat) :
    Only Feet.planeDrainTimeout.has (planeDrainTimeout p) := by
  unfold planeDrainTimeout
  with_reducible repeat' first
    | exact Only.pure _ | exact Only.getM | refine Only.bind ?_ fun _ => ?_ | refine Only.onlyIf ?_
    | exact (planeLoss_only ..).le (by decide +kernel)

/-- What `planeDomainOn` can change. -/
def Feet.planeDomainOn : Mask := (.of [] [.xdown] : Mask).plus [Feet.planeTo]

theorem planeDomainOn_only (p : Nat) :
    Only Feet.planeDomainOn.has (planeDomainOn p) := by
  simp only [planeDomainOn, putXdown]
  with_reducible repeat' first
    | exact Only.pure _ | exact Only.getM | refine Only.bind ?_ fun _ => ?_ | refine Only.onlyIf ?_
    | exact Only.doT .xdown rfl (by decide +kernel) | exact (planeTo_only ..).le (by decide +kernel)

/-- What `planePowerDown` can change. -/
def Feet.planePowerDown : Mask := (.of [] [.xdown] : Mask).plus [Feet.planeTo]

theorem planePowerDown_only (p : Nat) :
    Only Feet.planePowerDown.has (planePowerDown p) := by
  simp only [planePowerDown, putXdown]
  with_reducible repeat' first
    | exact Only.pure _ | exact Only.getM | refine Only.bind ?_ fun _ => ?_ | refine Only.onlyIf ?_
    | refine Only.ite ?_ ?_ | exact Only.doT .xdown rfl (by decide +kernel)
    | exact (planeTo_only ..).le (by decide +kernel)

/-- What `planeDomainLost` can change. -/
def Feet.planeDomainLost : Mask := Feet.planeLoss

theorem planeDomainLost_only (p : Nat) :
    Only Feet.planeDomainLost.has (planeDomainLost p) := by
  unfold planeDomainLost
  with_reducible repeat' first
    | exact Only.pure _ | exact Only.getM | refine Only.bind ?_ fun _ => ?_ | refine Only.onlyIf ?_
    | exact (planeLoss_only ..).le (by decide +kernel)

/-- What `planeOff` can change. -/
def Feet.planeOff : Mask := (.of [] [.xdown, .xret] : Mask).plus [Feet.planeTo]

theorem planeOff_only (p : Nat) :
    Only Feet.planeOff.has (planeOff p) := by
  simp only [planeOff, putXdown, putXret]
  with_reducible repeat' first
    | exact Only.pure _ | exact Only.getM | refine Only.bind ?_ fun _ => ?_
    | exact Only.doT .xdown rfl (by decide +kernel) | exact Only.doT .xret rfl (by decide +kernel)
    | exact (planeTo_only ..).le (by decide +kernel)

/-- What `planeStop` can change. -/
def Feet.planeStop : Mask := Feet.planeLoss.plus [Feet.planeOff]

theorem planeStop_only (p : Nat) :
    Only Feet.planeStop.has (planeStop p) := by
  unfold planeStop
  with_reducible repeat' first
    | exact Only.pure _ | exact Only.getM | refine Only.bind ?_ fun _ => ?_ | refine Only.onlyIf ?_
    | exact (planeLoss_only ..).le (by decide +kernel) | exact (planeOff_only ..).le (by decide +kernel)

/-- What `xbEffect` can change. -/
def Feet.xbEffect : Mask := (.of [.XB_MIR_CNT, .XB_CNT] [.xret] : Mask).plus [Feet.planeTo]

theorem xbEffect_only (k : RegKind) (old cmd : Nat) :
    Only Feet.xbEffect.has (xbEffect k old cmd) := by
  simp only [xbEffect, putXret]
  with_reducible repeat' first
    | exact Only.pure _ | exact Only.getM | refine Only.bind ?_ fun _ => ?_ | refine Only.onlyIf ?_
    | refine Only.each fun _ _ => ?_ | exact Only.wrK .XB_PLANE_STATUS rfl (by decide +kernel)
    | exact Only.rstK .XB_CNT (by decide +kernel) | exact Only.rstK .XB_MIR_CNT (by decide +kernel)
    | exact Only.doT .xret rfl (by decide +kernel) | exact (planeTo_only ..).le (by decide +kernel) | split

/-- What `ageExpiry` can change. -/
def Feet.ageExpiry : Mask := (.of [.XB_CNT] [.xaged] : Mask).plus [Feet.raise]

theorem ageExpiry_only (ep c : Nat) :
    Only Feet.ageExpiry.has (ageExpiry ep c) := by
  simp only [ageExpiry, putXaged]
  with_reducible repeat' first
    | exact Only.pure _ | exact Only.getM | refine Only.bind ?_ fun _ => ?_ | refine Only.onlyIf ?_
    | refine Only.ite ?_ ?_ | exact Only.incK .XB_CNT rfl (by decide +kernel)
    | exact Only.doT .xaged rfl (by decide +kernel) | exact (raise_only ..).le (by decide +kernel) | split

/-- What `xbFlushPort` can change. -/
def Feet.xbFlushPort : Mask := (.of [] [.port, .owed] : Mask).plus [Feet.discard, Feet.popQueue]

theorem xbFlushPort_only (p : Nat) :
    Only Feet.xbFlushPort.has (xbFlushPort p) := by
  simp only [xbFlushPort, modPort, getPort, putPort, putOwed]
  with_reducible repeat' first
    | exact Only.pure _ | exact Only.getM | refine Only.bind ?_ fun _ => ?_ | refine Only.each fun _ _ => ?_
    | exact Only.doT .port rfl (by decide +kernel) | exact Only.doT .owed rfl (by decide +kernel)
    | exact (discard_only ..).le (by decide +kernel) | exact (popQueue_only ..).le (by decide +kernel)

/-- What `creditReturn` can change. -/
def Feet.creditReturn : Mask := .of [] [.port]

theorem creditReturn_only (p c n : Nat) :
    Only Feet.creditReturn.has (creditReturn p c n) := by
  simp only [creditReturn, modPort, getPort, putPort]
  with_reducible repeat' first
    | exact Only.pure _ | exact Only.getM | refine Only.bind ?_ fun _ => ?_ | refine Only.ite ?_ ?_
    | exact Only.doT .port rfl (by decide +kernel)

/-- What `xbApply` can change. -/
def Feet.xbApply : Mask := .of [.XB_BUF_STATUS] [.xfree, .mir]

theorem xbApply_only : Only Feet.xbApply.has xbApply := by
  simp only [xbApply, putXfree, putMir]
  with_reducible repeat' first
    | exact Only.pure _ | exact Only.getM | refine Only.bind ?_ fun _ => ?_ | refine Only.each fun _ _ => ?_
    | exact Only.wrK .XB_BUF_STATUS rfl (by decide +kernel) | exact Only.doT .xfree rfl (by decide +kernel)
    | exact Only.doT .mir rfl (by decide +kernel)

end Sys2Proof.Machine
end

