-- ==== Sys2Proof/Laws/FeetRings.lean ====
section
/-!
SUPPORT. The footprint of every operation of Machine/Rings.lean: the registers and the things beside them that it can
change, whatever the block holds.
-/
namespace Sys2Proof.Machine

set_option Elab.async false

/-- What `gateUpdate` can change. -/
def Feet.gateUpdate : Mask := .of [.RNG_STATUS, .RNG_CNT] []

theorem gateUpdate_only (c : Nat) :
    Only Feet.gateUpdate.has (gateUpdate c) := by
  unfold gateUpdate
  with_reducible repeat' first
    | exact Only.pure _ | exact Only.getM | refine Only.bind ?_ fun _ => ?_ | refine Only.onlyIf ?_
    | refine Only.ite ?_ ?_ | exact Only.incK .RNG_CNT rfl (by decide +kernel)
    | exact Only.wrK .RNG_STATUS rfl (by decide +kernel)

/-- What `ringEvent` can change. -/
def Feet.ringEvent : Mask := Feet.raiseOn

theorem ringEvent_only (sev code r b26 w28 : Nat) :
    Only Feet.ringEvent.has (ringEvent sev code r b26 w28) := by
  unfold ringEvent
  with_reducible repeat' first
    | exact Only.pure _ | exact Only.getM | refine Only.bind ?_ fun _ => ?_
    | exact (raiseOn_only ..).le (by decide +kernel)

/-- What `resultDiscard` can change. -/
def Feet.resultDiscard : Mask := (.of [.RNG_PROG] [] : Mask).plus [Feet.gateUpdate]

theorem resultDiscard_only (c : Nat) :
    Only Feet.resultDiscard.has (resultDiscard c) := by
  unfold resultDiscard
  with_reducible repeat' first
    | exact Only.pure _ | exact Only.getM | refine Only.bind ?_ fun _ => ?_
    | exact Only.incK .RNG_CNT rfl (by decide +kernel) | exact Only.subK .RNG_PROG rfl (by decide +kernel)
    | exact (gateUpdate_only ..).le (by decide +kernel)

/-- What `jobDone` can change. -/
def Feet.jobDone : Mask := .of [.RNG_PROG] []

theorem jobDone_only (r : Nat) :
    Only Feet.jobDone.has (jobDone r) := by
  unfold jobDone
  with_reducible repeat' first
    | exact Only.pure _ | exact Only.getM | refine Only.bind ?_ fun _ => ?_
    | exact Only.subK .RNG_PROG rfl (by decide +kernel)

/-- What `ringErrorOne` can change. -/
def Feet.ringErrorOne : Mask := (.of [.RNG_STATUS] [] : Mask).plus [Feet.ringEvent]

theorem ringErrorOne_only (r cause idx : Nat) :
    Only Feet.ringErrorOne.has (ringErrorOne r cause idx) := by
  unfold ringErrorOne
  with_reducible repeat' first
    | exact Only.pure _ | exact Only.getM | refine Only.bind ?_ fun _ => ?_
    | exact Only.wrK .RNG_STATUS rfl (by decide +kernel) | exact (ringEvent_only ..).le (by decide +kernel)

/-- What `ringError` can change. -/
def Feet.ringError : Mask := (.of [] [.ring] : Mask).plus [Feet.resultDiscard, Feet.ringErrorOne]

theorem ringError_only (r cause idx : Nat) :
    Only Feet.ringError.has (ringError r cause idx) := by
  simp only [ringError, modRing, getRing, putRing]
  with_reducible repeat' first
    | exact Only.pure _ | exact Only.getM | refine Only.bind ?_ fun _ => ?_ | refine Only.onlyIf ?_
    | refine Only.each fun _ _ => ?_ | refine Only.ite ?_ ?_ | exact Only.wrK .RNG_STATUS rfl (by decide +kernel)
    | exact Only.doT .ring rfl (by decide +kernel) | exact (resultDiscard_only ..).le (by decide +kernel)
    | exact (ringErrorOne_only ..).le (by decide +kernel)

/-- What `ringStop` can change. -/
def Feet.ringStop : Mask := (.of [.RNG_CTL] [.ring] : Mask).plus [Feet.resultDiscard]

theorem ringStop_only (r : Nat) (hostLost : Bool) :
    Only Feet.ringStop.has (ringStop r hostLost) := by
  simp only [ringStop, modRing, getRing, putRing]
  with_reducible repeat' first
    | exact Only.pure _ | exact Only.getM | refine Only.bind ?_ fun _ => ?_ | refine Only.each fun _ _ => ?_
    | refine Only.ite ?_ ?_ | exact Only.wrK .RNG_CTL rfl (by decide +kernel)
    | exact Only.wrK .RNG_STATUS rfl (by decide +kernel) | exact Only.doT .ring rfl (by decide +kernel)
    | exact (resultDiscard_only ..).le (by decide +kernel)

/-- What `vcsRingsStop` can change. -/
def Feet.vcsRingsStop : Mask := Feet.ringStop

theorem vcsRingsStop_only (v : Nat) :
    Only Feet.vcsRingsStop.has (vcsRingsStop v) := by
  unfold vcsRingsStop
  with_reducible repeat' first
    | exact Only.pure _ | exact Only.getM | refine Only.bind ?_ fun _ => ?_ | refine Only.each fun _ _ => ?_
    | exact (ringStop_only ..).le (by decide +kernel)

/-- What `resultWrite` can change. -/
def Feet.resultWrite : Mask := (.of [.RNG_PROG] [] : Mask).plus [Feet.ringIrq, Feet.ringPut, Feet.gateUpdate]

theorem resultWrite_only (c : Nat) (j : JobRes) :
    Only Feet.resultWrite.has (resultWrite c j) := by
  unfold resultWrite
  with_reducible repeat' first
    | exact Only.pure _ | exact Only.getM | refine Only.bind ?_ fun _ => ?_
    | exact Only.subK .RNG_PROG rfl (by decide +kernel) | exact (ringIrq_only ..).le (by decide +kernel)
    | exact (ringPut_only ..).le (by decide +kernel) | exact (gateUpdate_only ..).le (by decide +kernel)

/-- What `resultDrain` can change. -/
def Feet.resultDrain : Mask := Feet.resultWrite

theorem resultDrain_only (c : Nat) (n : Nat) :
    Only Feet.resultDrain.has (resultDrain c n) := by
  induction n with
  | zero =>
    simp only [resultDrain]
    with_reducible repeat' first
      | exact ih .. | exact Only.pure _
  | succ n ih =>
    simp only [resultDrain, modRing, getRing, putRing]
    with_reducible repeat' first
      | exact ih .. | exact Only.pure _ | exact Only.getM | refine Only.bind ?_ fun _ => ?_ | refine Only.ite ?_ ?_
      | exact Only.subK .RNG_STATUS rfl (by decide +kernel) | exact Only.doT .ring rfl (by decide +kernel)
      | exact (resultWrite_only ..).le (by decide +kernel) | split

/-- What `resultPut` can change. -/
def Feet.resultPut : Mask := Feet.ringEvent.plus [Feet.resultWrite]

theorem resultPut_only (j : JobRes) :
    Only Feet.resultPut.has (resultPut j) := by
  simp only [resultPut, modRing, getRing, putRing]
  with_reducible repeat' first
    | exact Only.pure _ | exact Only.getM | refine Only.bind ?_ fun _ => ?_ | refine Only.ite ?_ ?_
    | exact Only.incK .RNG_CNT rfl (by decide +kernel) | exact Only.addSatK .RNG_STATUS rfl (by decide +kernel)
    | exact Only.wrK .RNG_STATUS rfl (by decide +kernel) | exact Only.doT .ring rfl (by decide +kernel)
    | exact (ringEvent_only ..).le (by decide +kernel) | exact (resultDiscard_only ..).le (by decide +kernel)
    | exact (jobDone_only ..).le (by decide +kernel) | exact (resultWrite_only ..).le (by decide +kernel)

/-- What `dbForeign` can change. -/
def Feet.dbForeign : Mask := (.of [] [.dbfNext] : Mask).plus [Feet.raise]

theorem dbForeign_only (s ring : Nat) :
    Only Feet.dbForeign.has (dbForeign s ring) := by
  simp only [dbForeign, putDbfNext]
  with_reducible repeat' first
    | exact Only.pure _ | exact Only.getM | refine Only.bind ?_ fun _ => ?_ | refine Only.ite ?_ ?_
    | exact Only.doT .dbfNext rfl (by decide +kernel) | exact (raise_only ..).le (by decide +kernel)

/-- What `doorbell` can change. -/
def Feet.doorbell : Mask := Feet.ringError.plus [Feet.resultDrain, Feet.dbForeign]

theorem doorbell_only (v s : Nat) (prod ok : Bool) (data : Nat) :
    Only Feet.doorbell.has (doorbell v s prod ok data) := by
  unfold doorbell
  with_reducible repeat' first
    | exact Only.pure _ | exact Only.getM | refine Only.bind ?_ fun _ => ?_ | refine Only.onlyIf ?_
    | refine Only.ite ?_ ?_ | exact Only.incK .RNG_CNT rfl (by decide +kernel)
    | exact Only.wrK .RNG_IDX rfl (by decide +kernel) | exact Only.wrK .RNG_STATUS rfl (by decide +kernel)
    | exact (gateUpdate_only ..).le (by decide +kernel) | exact (ringError_only ..).le (by decide +kernel)
    | exact (resultDrain_only ..).le (by decide +kernel) | exact (dbForeign_only ..).le (by decide +kernel)

/-- What `fetchIssue` can change. -/
def Feet.fetchIssue : Mask := (.of [] [.ring] : Mask).plus [Feet.xsend]

theorem fetchIssue_only (r : Nat) :
    Only Feet.fetchIssue.has (fetchIssue r) := by
  simp only [fetchIssue, putRing]
  with_reducible repeat' first
    | exact Only.pure _ | exact Only.getM | refine Only.bind ?_ fun _ => ?_ | refine Only.ite ?_ ?_
    | exact Only.doT .ring rfl (by decide +kernel) | exact (xsend_only ..).le (by decide +kernel)

/-- What `takeSlots` can change. -/
def Feet.takeSlots : Mask := .of [.RNG_IDX] [.ring]

theorem takeSlots_only (r n : Nat) :
    Only Feet.takeSlots.has (takeSlots r n) := by
  simp only [takeSlots, modRing, getRing, putRing]
  with_reducible repeat' first
    | exact Only.pure _ | exact Only.getM | refine Only.bind ?_ fun _ => ?_
    | exact Only.addWrapK .RNG_IDX rfl (by decide +kernel) | exact Only.doT .ring rfl (by decide +kernel)

/-- What `checkHead` can change. -/
def Feet.checkHead : Mask := Feet.ringError.plus [Feet.takeSlots]

theorem checkHead_only (r : Nat) (n : Nat) :
    Only Feet.checkHead.has (checkHead r n) := by
  induction n with
  | zero =>
    unfold checkHead
    with_reducible repeat' first
      | exact ih .. | exact Only.pure _
  | succ n ih =>
    unfold checkHead
    with_reducible repeat' first
      | exact ih .. | exact Only.pure _ | exact Only.getM | refine Only.bind ?_ fun _ => ?_ | refine Only.ite ?_ ?_
      | exact (ringError_only ..).le (by decide +kernel) | exact (takeSlots_only ..).le (by decide +kernel) | split

/-- What `fetchFail` can change. -/
def Feet.fetchFail : Mask := Feet.ringError

theorem fetchFail_only (r st cause : Nat) :
    Only Feet.fetchFail.has (fetchFail r st cause) := by
  simp only [fetchFail, modRing, getRing, putRing]
  with_reducible repeat' first
    | exact Only.pure _ | exact Only.getM | refine Only.bind ?_ fun _ => ?_
    | exact Only.doT .ring rfl (by decide +kernel) | exact (ringError_only ..).le (by decide +kernel)

/-- What `fetchCompletion` can change. -/
def Feet.fetchCompletion : Mask := Feet.emit.plus [Feet.poisonReceived, Feet.checkHead]

theorem fetchCompletion_only (r st : Nat) (ok poison : Bool) (ws : List Word) :
    Only Feet.fetchCompletion.has (fetchCompletion r st ok poison ws) := by
  simp only [fetchCompletion, modRing, getRing, putRing]
  with_reducible repeat' first
    | exact Only.pure _ | exact Only.getM | refine Only.bind ?_ fun _ => ?_ | refine Only.onlyIf ?_
    | refine Only.ite ?_ ?_ | exact Only.wrK .RNG_PROG rfl (by decide +kernel)
    | exact Only.doT .ring rfl (by decide +kernel) | exact (emit_only ..).le (by decide +kernel)
    | exact (poisonReceived_only ..).le (by decide +kernel) | exact (checkHead_only ..).le (by decide +kernel)
    | exact (fetchFail_only ..).le (by decide +kernel) | split

/-- What `fetchTimeout` can change. -/
def Feet.fetchTimeout : Mask := Feet.fetchFail

theorem fetchTimeout_only (r st : Nat) :
    Only Feet.fetchTimeout.has (fetchTimeout r st) := by
  unfold fetchTimeout
  with_reducible repeat' first
    | exact Only.pure _ | exact Only.getM | refine Only.bind ?_ fun _ => ?_ | refine Only.onlyIf ?_
    | exact (fetchFail_only ..).le (by decide +kernel)

/-- What `irqModeration` can change. -/
def Feet.irqModeration : Mask := (.of [] [.ring] : Mask).plus [Feet.msixSend]

theorem irqModeration_only (r : Nat) :
    Only Feet.irqModeration.has (irqModeration r) := by
  simp only [irqModeration, putRing]
  with_reducible repeat' first
    | exact Only.pure _ | exact Only.getM | refine Only.bind ?_ fun _ => ?_ | refine Only.ite ?_ ?_
    | exact Only.doT .ring rfl (by decide +kernel) | exact (msixSend_only ..).le (by decide +kernel)

/-- What `ringDisabled` can change. -/
def Feet.ringDisabled : Mask := (.of [.RNG_CTL, .RNG_PROG] [.ring] : Mask).plus [Feet.gateUpdate]

theorem ringDisabled_only (r : Nat) :
    Only Feet.ringDisabled.has (ringDisabled r) := by
  simp only [ringDisabled, modRing, getRing, putRing]
  with_reducible repeat' first
    | exact Only.pure _ | exact Only.getM | refine Only.bind ?_ fun _ => ?_ | refine Only.onlyIf ?_
    | exact Only.wrK .RNG_CTL rfl (by decide +kernel) | exact Only.wrK .RNG_PROG rfl (by decide +kernel)
    | exact Only.wrK .RNG_STATUS rfl (by decide +kernel) | exact Only.doT .ring rfl (by decide +kernel)
    | exact (gateUpdate_only ..).le (by decide +kernel)

/-- What `ringStopped` can change. -/
def Feet.ringStopped : Mask := Feet.ringDisabled

theorem ringStopped_only (r : Nat) :
    Only Feet.ringStopped.has (ringStopped r) := by
  unfold ringStopped
  with_reducible repeat' first
    | exact Only.pure _ | exact Only.getM | refine Only.bind ?_ fun _ => ?_ | refine Only.onlyIf ?_
    | exact (ringDisabled_only ..).le (by decide +kernel)

/-- What `ringStopTimeout` can change. -/
def Feet.ringStopTimeout : Mask := Feet.ringEvent.plus [Feet.ringDisabled]

theorem ringStopTimeout_only (r : Nat) :
    Only Feet.ringStopTimeout.has (ringStopTimeout r) := by
  unfold ringStopTimeout
  with_reducible repeat' first
    | exact Only.pure _ | exact Only.getM | refine Only.bind ?_ fun _ => ?_ | refine Only.each fun _ _ => ?_
    | refine Only.ite ?_ ?_ | exact Only.wrK .RNG_STATUS rfl (by decide +kernel)
    | exact (ringEvent_only ..).le (by decide +kernel) | exact (resultDiscard_only ..).le (by decide +kernel)
    | exact (ringDisabled_only ..).le (by decide +kernel)

/-- What `sfConfig` can change. -/
def Feet.sfConfig : Mask := (.of [] [.sf] : Mask).plus [Feet.ringError]

theorem sfConfig_only (v : Nat) (bme pasid tph : Bool) :
    Only Feet.sfConfig.has (sfConfig v bme pasid tph) := by
  simp only [sfConfig, modSf, getSf, putSf]
  with_reducible repeat' first
    | exact Only.pure _ | exact Only.getM | refine Only.bind ?_ fun _ => ?_ | refine Only.each fun _ _ => ?_
    | refine Only.ite ?_ ?_ | exact Only.doT .sf rfl (by decide +kernel)
    | exact (ringError_only ..).le (by decide +kernel)

/-- What `flr` can change. -/
def Feet.flr : Mask := (.of [] [.sf] : Mask).plus [Feet.vcsRingsStop]

theorem flr_only (v : Nat) :
    Only Feet.flr.has (flr v) := by
  simp only [flr, putSf]
  with_reducible repeat' first
    | exact Only.pure _ | exact Only.getM | refine Only.bind ?_ fun _ => ?_
    | exact Only.doT .sf rfl (by decide +kernel) | exact (vcsRingsStop_only ..).le (by decide +kernel)

/-- What `rngEffect` can change. -/
def Feet.rngEffect : Mask := (.of [.RNG_IDX] [] : Mask).plus [Feet.ringStop]

theorem rngEffect_only (k : RegKind) (i old cmd : Nat) :
    Only Feet.rngEffect.has (rngEffect k i old cmd) := by
  simp only [rngEffect, modRing, getRing, putRing]
  with_reducible repeat' first
    | exact Only.pure _ | exact Only.getM | refine Only.bind ?_ fun _ => ?_ | refine Only.onlyIf ?_
    | refine Only.ite ?_ ?_ | exact Only.rstK .RNG_CNT (by decide +kernel)
    | exact Only.wrRegK .RNG_IDX (by decide +kernel) | exact Only.wrRegK .RNG_PROG (by decide +kernel)
    | exact Only.wrRegK .RNG_STATUS (by decide +kernel) | exact Only.doT .ring rfl (by decide +kernel)
    | exact (gateUpdate_only ..).le (by decide +kernel) | exact (ringStop_only ..).le (by decide +kernel) | split

end Sys2Proof.Machine
end

