-- ==== Sys2Proof/Laws/FeetSquares.lean ====
section
/-!
SUPPORT. The footprint of every operation of Machine/Squares.lean: the registers and the things beside them that it can
change, whatever the block holds.
-/
namespace Sys2Proof.Machine

set_option Elab.async false

/-- What `sqInc` can change. -/
def Feet.sqInc : Mask := .of [.SQ_CNT] []

theorem sqInc_only (sq c : Nat) :
    Only Feet.sqInc.has (sqInc sq c) := by
  unfold sqInc
  with_reducible repeat' first
    | exact Only.pure _ | exact Only.getM | refine Only.bind ?_ fun _ => ?_
    | exact Only.incK .SQ_CNT rfl (by decide +kernel)

/-- What `wayUsed` can change. -/
def Feet.wayUsed : Mask := .of [] [.dir, .mru]

theorem wayUsed_only (sq arr set way : Nat) :
    Only Feet.wayUsed.has (wayUsed sq arr set way) := by
  simp only [wayUsed, modDir, getDir, putDir, putMru]
  with_reducible repeat' first
    | exact Only.pure _ | exact Only.getM | refine Only.bind ?_ fun _ => ?_
    | exact Only.doT .dir rfl (by decide +kernel) | exact Only.doT .mru rfl (by decide +kernel)

/-- What `sqAnswer` can change. -/
def Feet.sqAnswer : Mask := Feet.xsend

theorem sqAnswer_only (sq : Nat) (q : Msg) (op : Op) (dataCls : Bool) (data : List Word) (poison : Bool) :
    Only Feet.sqAnswer.has (sqAnswer sq q op dataCls data poison) := by
  unfold sqAnswer
  with_reducible repeat' first
    | exact Only.pure _ | exact Only.getM | refine Only.bind ?_ fun _ => ?_ | refine Only.ite ?_ ?_
    | exact (xsend_only ..).le (by decide +kernel)

/-- What `memTag` can change. -/
def Feet.memTag : Mask := .of [] [.sqx]

theorem memTag_only (sq : Nat) :
    Only Feet.memTag.has (memTag sq) := by
  simp only [memTag, getSqx, putSqx]
  with_reducible repeat' first
    | exact Only.pure _ | exact Only.getM | refine Only.bind ?_ fun _ => ?_
    | exact Only.doT .sqx rfl (by decide +kernel)

/-- What `sqMiss` can change. -/
def Feet.sqMiss : Mask := (.of [.SQ_CNT] [] : Mask).plus [Feet.countFirst]

theorem sqMiss_only (sq line port : Nat) :
    Only Feet.sqMiss.has (sqMiss sq line port) := by
  unfold sqMiss
  with_reducible repeat' first
    | exact Only.pure _ | exact Only.getM | refine Only.bind ?_ fun _ => ?_
    | exact countFirst_only _ (by decide +kernel) (k := .SQ_CNT) rfl (by decide +kernel)

/-- What `sqMemRead` can change. -/
def Feet.sqMemRead : Mask := Feet.xsend

theorem sqMemRead_only (sq line what n p : Nat) :
    Only Feet.sqMemRead.has (sqMemRead sq line what n p) := by
  unfold sqMemRead
  with_reducible repeat' first
    | exact Only.pure _ | exact Only.getM | refine Only.bind ?_ fun _ => ?_
    | exact (xsend_only ..).le (by decide +kernel)

/-- What `sqMemWrite` can change. -/
def Feet.sqMemWrite : Mask := (.of [] [.memT] : Mask).plus [Feet.xsend, Feet.memTag, Feet.sqMiss]

theorem sqMemWrite_only (sq line t : Nat) (mask : Option Nat) (data : List Word) (poison : Bool) (port : Nat) :
    Only Feet.sqMemWrite.has (sqMemWrite sq line t mask data poison port) := by
  simp only [sqMemWrite, putMemT]
  with_reducible repeat' first
    | exact Only.pure _ | exact Only.getM | refine Only.bind ?_ fun _ => ?_ | refine Only.ite ?_ ?_
    | exact Only.doT .memT rfl (by decide +kernel) | exact (xsend_only ..).le (by decide +kernel)
    | exact (memTag_only ..).le (by decide +kernel) | exact (sqMiss_only ..).le (by decide +kernel) | split

/-- What `purgeWrite` can change. -/
def Feet.purgeWrite : Mask := Feet.sqMemWrite

theorem purgeWrite_only (sq line port : Nat) :
    Only Feet.purgeWrite.has (purgeWrite sq line port) := by
  unfold purgeWrite
  with_reducible repeat' first
    | exact Only.pure _ | exact Only.getM | refine Only.bind ?_ fun _ => ?_
    | exact (sqMemWrite_only ..).le (by decide +kernel)

/-- What `trkWriteAs` can change. -/
def Feet.trkWriteAs : Mask := (.of [] [.trk] : Mask).plus [Feet.sqMemWrite]

theorem trkWriteAs_only (sq t line : Nat) (mask : Option Nat) (data : List Word) (poison : Bool) :
    Only Feet.trkWriteAs.has (trkWriteAs sq t line mask data poison) := by
  simp only [trkWriteAs, modTrk, getTrk, putTrk]
  with_reducible repeat' first
    | exact Only.pure _ | exact Only.getM | refine Only.bind ?_ fun _ => ?_ | refine Only.onlyIf ?_
    | exact Only.doT .trk rfl (by decide +kernel) | exact (sqMemWrite_only ..).le (by decide +kernel)

/-- What `trkWrite` can change. -/
def Feet.trkWrite : Mask := Feet.trkWriteAs

theorem trkWrite_only (sq t line : Nat) (data : List Word) (poison : Bool) :
    Only Feet.trkWrite.has (trkWrite sq t line data poison) := by
  unfold trkWrite
  with_reducible repeat' first
    | exact Only.pure _ | exact Only.getM | refine Only.bind ?_ fun _ => ?_
    | exact (trkWriteAs_only ..).le (by decide +kernel)

/-- What `trkDemand` can change. -/
def Feet.trkDemand : Mask := (.of [] [.trk, .memT] : Mask).plus [Feet.memTag, Feet.sqMiss, Feet.sqMemRead]

theorem trkDemand_only (sq t line : Nat) :
    Only Feet.trkDemand.has (trkDemand sq t line) := by
  simp only [trkDemand, modTrk, getTrk, putTrk, putMemT]
  with_reducible repeat' first
    | exact Only.pure _ | exact Only.getM | refine Only.bind ?_ fun _ => ?_
    | exact Only.doT .trk rfl (by decide +kernel) | exact Only.doT .memT rfl (by decide +kernel)
    | exact (sqInc_only ..).le (by decide +kernel) | exact (memTag_only ..).le (by decide +kernel)
    | exact (sqMiss_only ..).le (by decide +kernel) | exact (sqMemRead_only ..).le (by decide +kernel) | split

/-- What `recSend` can change. -/
def Feet.recSend : Mask := (.of [.TWN_CNT] [.sqx] : Mask).plus [Feet.xsend]

theorem recSend_only (inp sq rec : Nat) :
    Only Feet.recSend.has (recSend inp sq rec) := by
  simp only [recSend, getSqx, putSqx]
  with_reducible repeat' first
    | exact Only.pure _ | exact Only.getM | refine Only.bind ?_ fun _ => ?_
    | exact Only.incK .TWN_CNT rfl (by decide +kernel) | exact Only.doT .sqx rfl (by decide +kernel)
    | exact (xsend_only ..).le (by decide +kernel)

/-- What `trkFinal` can change. -/
def Feet.trkFinal : Mask := (.of [] [.trk] : Mask).plus [Feet.recSend]

theorem trkFinal_only (sq t : Nat) :
    Only Feet.trkFinal.has (trkFinal sq t) := by
  simp only [trkFinal, modTrk, getTrk, putTrk]
  with_reducible repeat' first
    | exact Only.pure _ | exact Only.getM | refine Only.bind ?_ fun _ => ?_ | refine Only.ite ?_ ?_
    | exact Only.doT .trk rfl (by decide +kernel) | exact (recSend_only ..).le (by decide +kernel)

/-- What `trkOpen` can change. -/
def Feet.trkOpen : Mask := (.of [] [.trk] : Mask).plus [Feet.recSend]

theorem trkOpen_only (sq t : Nat) :
    Only Feet.trkOpen.has (trkOpen sq t) := by
  simp only [trkOpen, modTrk, getTrk, putTrk]
  with_reducible repeat' first
    | exact Only.pure _ | exact Only.getM | refine Only.bind ?_ fun _ => ?_ | refine Only.ite ?_ ?_
    | exact Only.doT .trk rfl (by decide +kernel) | exact (recSend_only ..).le (by decide +kernel)

/-- What `entryChange` can change. -/
def Feet.entryChange : Mask := (.of [] [.dir, .trk] : Mask).plus [Feet.recSend]

theorem entryChange_only (sq line : Nat) (e : DirEnt) :
    Only Feet.entryChange.has (entryChange sq line e) := by
  simp only [entryChange, putDir, modTrk, getTrk, putTrk, modSqx, getSqx, putSqx]
  with_reducible repeat' first
    | exact Only.pure _ | exact Only.getM | refine Only.bind ?_ fun _ => ?_ | refine Only.ite ?_ ?_
    | exact Only.doT .dir rfl (by decide +kernel) | exact Only.doT .trk rfl (by decide +kernel)
    | exact Only.doT .sqx rfl (by decide +kernel) | exact (recSend_only ..).le (by decide +kernel) | split

/-- What `snoopLost` can change. -/
def Feet.snoopLost : Mask := Feet.trkWrite

theorem snoopLost_only (sq t a : Nat) (purge : Bool) :
    Only Feet.snoopLost.has (snoopLost sq t a purge) := by
  simp only [snoopLost, modTrk, getTrk, putTrk]
  with_reducible repeat' first
    | exact Only.pure _ | exact Only.getM | refine Only.bind ?_ fun _ => ?_ | refine Only.onlyIf ?_
    | refine Only.ite ?_ ?_ | exact Only.doT .trk rfl (by decide +kernel)
    | exact (sqInc_only ..).le (by decide +kernel) | exact (trkWrite_only ..).le (by decide +kernel)

/-- What `trkSnoop` can change. -/
def Feet.trkSnoop : Mask := Feet.trkOpen.plus [Feet.snoopLost]

theorem trkSnoop_only (sq t : Nat) (l : List Nat) (forData : Bool) :
    Only Feet.trkSnoop.has (trkSnoop sq t l forData) := by
  simp only [trkSnoop, modTrk, getTrk, putTrk]
  with_reducible repeat' first
    | exact Only.pure _ | exact Only.getM | refine Only.bind ?_ fun _ => ?_ | refine Only.each fun _ _ => ?_
    | refine Only.ite ?_ ?_ | exact Only.doT .trk rfl (by decide +kernel)
    | exact (pmuCount_only ..).le (by decide +kernel) | exact (xsendAll_only ..).le (by decide +kernel)
    | exact (sqInc_only ..).le (by decide +kernel) | exact (trkOpen_only ..).le (by decide +kernel)
    | exact (snoopLost_only ..).le (by decide +kernel)

/-- What `setWake` can change. -/
def Feet.setWake : Mask := .of [] [.sqx]

theorem setWake_only (sq arr set : Nat) :
    Only Feet.setWake.has (setWake sq arr set) := by
  simp only [setWake, putSqx]
  with_reducible repeat' first
    | exact Only.pure _ | exact Only.getM | refine Only.bind ?_ fun _ => ?_ | refine Only.ite ?_ ?_
    | exact Only.doT .sqx rfl (by decide +kernel)

/-- What `retryPut` can change. -/
def Feet.retryPut : Mask := .of [] [.sqx]

theorem retryPut_only (sq : Nat) (w : Waiting) :
    Only Feet.retryPut.has (retryPut sq w) := by
  simp only [retryPut, getSqx, putSqx]
  with_reducible repeat' first
    | exact Only.pure _ | exact Only.getM | refine Only.bind ?_ fun _ => ?_
    | exact Only.doT .sqx rfl (by decide +kernel)

/-- What `fullWait` can change. -/
def Feet.fullWait : Mask := (.of [] [.sqx] : Mask).plus [Feet.sqInc]

theorem fullWait_only (sq : Nat) (w : Waiting) :
    Only Feet.fullWait.has (fullWait sq w) := by
  simp only [fullWait, getSqx, modSqx, putSqx]
  with_reducible repeat' first
    | exact Only.pure _ | exact Only.getM | refine Only.bind ?_ fun _ => ?_ | refine Only.ite ?_ ?_
    | exact Only.doT .sqx rfl (by decide +kernel) | exact (sqInc_only ..).le (by decide +kernel)

/-- What `toRetry` can change. -/
def Feet.toRetry : Mask := (.of [] [.sqin] : Mask).plus [Feet.fullWait]

theorem toRetry_only (sq : Nat) (w : Waiting) :
    Only Feet.toRetry.has (toRetry sq w) := by
  simp only [toRetry, getSqx, modSqin, getSqin, putSqin]
  with_reducible repeat' first
    | exact Only.pure _ | exact Only.getM | refine Only.bind ?_ fun _ => ?_ | refine Only.ite ?_ ?_
    | exact Only.doT .sqin rfl (by decide +kernel) | exact (retryPut_only ..).le (by decide +kernel)
    | exact (fullWait_only ..).le (by decide +kernel)

/-- What `sqNack` can change. -/
def Feet.sqNack : Mask := Feet.toRetry

theorem sqNack_only (sq why : Nat) (w : Waiting) :
    Only Feet.sqNack.has (sqNack sq why w) := by
  unfold sqNack
  with_reducible repeat' first
    | exact Only.pure _ | exact Only.getM | refine Only.bind ?_ fun _ => ?_
    | exact (sqInc_only ..).le (by decide +kernel) | exact (toRetry_only ..).le (by decide +kernel)

/-- What `ledgerAdd` can change. -/
def Feet.ledgerAdd : Mask := .of [] [.sqx]

theorem ledgerAdd_only (sq line port : Nat) :
    Only Feet.ledgerAdd.has (ledgerAdd sq line port) := by
  simp only [ledgerAdd, getSqx, putSqx]
  with_reducible repeat' first
    | exact Only.pure _ | exact Only.getM | refine Only.bind ?_ fun _ => ?_ | refine Only.ite ?_ ?_
    | exact Only.doT .sqx rfl (by decide +kernel) | split

/-- What `ledgerSub` can change. -/
def Feet.ledgerSub : Mask := Feet.setWake

theorem ledgerSub_only (sq line n : Nat) :
    Only Feet.ledgerSub.has (ledgerSub sq line n) := by
  simp only [ledgerSub, putSqx]
  with_reducible repeat' first
    | exact Only.pure _ | exact Only.getM | refine Only.bind ?_ fun _ => ?_ | refine Only.ite ?_ ?_
    | exact Only.doT .sqx rfl (by decide +kernel) | exact (setWake_only ..).le (by decide +kernel) | split

/-- What `sqForward` can change. -/
def Feet.sqForward : Mask := (.of [] [.crec, .cwait] : Mask).plus [Feet.xsend, Feet.toRetry]

theorem sqForward_only (sq : Nat) (w : Waiting) (port : Nat) :
    Only Feet.sqForward.has (sqForward sq w port) := by
  simp only [sqForward, putCwait, putCrec]
  with_reducible repeat' first
    | exact Only.pure _ | exact Only.getM | refine Only.bind ?_ fun _ => ?_ | refine Only.onlyIf ?_
    | refine Only.ite ?_ ?_ | exact Only.doT .crec rfl (by decide +kernel)
    | exact Only.doT .cwait rfl (by decide +kernel) | exact (xsend_only ..).le (by decide +kernel)
    | exact (sqInc_only ..).le (by decide +kernel) | exact (toRetry_only ..).le (by decide +kernel)
    | exact (sqNack_only ..).le (by decide +kernel) | exact (ledgerAdd_only ..).le (by decide +kernel)

/-- What `chainForward` can change. -/
def Feet.chainForward : Mask := Feet.sqForward

theorem chainForward_only (sq line port : Nat) :
    Only Feet.chainForward.has (chainForward sq line port) := by
  simp only [chainForward, getSqx, putSqx]
  with_reducible repeat' first
    | exact Only.pure _ | exact Only.getM | refine Only.bind ?_ fun _ => ?_ | refine Only.each fun _ _ => ?_
    | exact Only.doT .sqx rfl (by decide +kernel) | exact (sqForward_only ..).le (by decide +kernel)

/-- What `settleFreed` can change. -/
def Feet.settleFreed : Mask := .of [.TWN_SETTLE, .TWN_CNT] [.twx]

theorem settleFreed_only (poisoned : Bool) :
    Only Feet.settleFreed.has (settleFreed poisoned) := by
  simp only [settleFreed, modTwx, getTwx, putTwx]
  with_reducible repeat' first
    | exact Only.pure _ | exact Only.getM | refine Only.bind ?_ fun _ => ?_ | refine Only.ite ?_ ?_
    | exact Only.subK .TWN_SETTLE rfl (by decide +kernel) | exact Only.incK .TWN_CNT rfl (by decide +kernel)
    | exact Only.doT .twx rfl (by decide +kernel)

/-- What `settleCheck` can change. -/
def Feet.settleCheck : Mask := (.of [.TWN_ROLE] [] : Mask).plus [Feet.raise]

theorem settleCheck_only : Only Feet.settleCheck.has settleCheck := by
  unfold settleCheck
  with_reducible repeat' first
    | exact Only.pure _ | exact Only.getM | refine Only.bind ?_ fun _ => ?_ | refine Only.ite ?_ ?_
    | exact Only.wrK .TWN_ROLE rfl (by decide +kernel) | exact (raise_only ..).le (by decide +kernel)

/-- What `conflictAck` can change. -/
def Feet.conflictAck : Mask := Feet.xsend

theorem conflictAck_only (q : Msg) :
    Only Feet.conflictAck.has (conflictAck q) := by
  unfold conflictAck
  with_reducible repeat' first
    | exact Only.pure _ | exact Only.getM | refine Only.bind ?_ fun _ => ?_
    | exact (xsend_only ..).le (by decide +kernel)

/-- What `conflictsAck` can change. -/
def Feet.conflictsAck : Mask := (.of [] [.bic] : Mask).plus [Feet.conflictAck]

theorem conflictsAck_only (ep a line : Nat) :
    Only Feet.conflictsAck.has (conflictsAck ep a line) := by
  simp only [conflictsAck, putBic]
  with_reducible repeat' first
    | exact Only.pure _ | exact Only.getM | refine Only.bind ?_ fun _ => ?_ | refine Only.each fun _ _ => ?_
    | exact Only.doT .bic rfl (by decide +kernel) | exact (conflictAck_only ..).le (by decide +kernel)

/-- What `dueAdd` can change. -/
def Feet.dueAdd : Mask := .of [] [.sqx]

theorem dueAdd_only (sq line n : Nat) :
    Only Feet.dueAdd.has (dueAdd sq line n) := by
  simp only [dueAdd, getSqx, putSqx]
  with_reducible repeat' first
    | exact Only.pure _ | exact Only.getM | refine Only.bind ?_ fun _ => ?_ | refine Only.ite ?_ ?_
    | exact Only.doT .sqx rfl (by decide +kernel)

/-- What `dueSub` can change. -/
def Feet.dueSub : Mask := .of [] [.sqx]

theorem dueSub_only (sq line : Nat) :
    Only Feet.dueSub.has (dueSub sq line) := by
  simp only [dueSub, getSqx, putSqx]
  with_reducible repeat' first
    | exact Only.pure _ | exact Only.getM | refine Only.bind ?_ fun _ => ?_ | refine Only.ite ?_ ?_
    | exact Only.doT .sqx rfl (by decide +kernel)

/-- What `trkClear` can change. -/
def Feet.trkClear : Mask := .of [] [.trk, .memT]

theorem trkClear_only (sq t : Nat) :
    Only Feet.trkClear.has (trkClear sq t) := by
  simp only [trkClear, putMemT, putTrk]
  with_reducible repeat' first
    | exact Only.pure _ | exact Only.getM | refine Only.bind ?_ fun _ => ?_ | refine Only.onlyIf ?_
    | refine Only.each fun _ _ => ?_ | exact Only.doT .trk rfl (by decide +kernel)
    | exact Only.doT .memT rfl (by decide +kernel)

/-- What `trkFree` can change. -/
def Feet.trkFree : Mask := (.of [] [.dir] : Mask).plus [Feet.chainForward, Feet.settleFreed, Feet.settleCheck,
  Feet.trkClear]

theorem trkFree_only (sq t : Nat) (settleNext : Nat → P Unit) {M : Mask} (hM : Feet.trkFree.le M = true) (hx : ∀ n,
    Only M.has (settleNext n)) :
    Only M.has (trkFree sq t settleNext) := by
  simp only [trkFree, putDir, modSqx, putSqx, getSqx]
  with_reducible repeat' first
    | exact Only.pure _ | exact Only.getM | refine Only.bind ?_ fun _ => ?_ | exact hx _ | refine Only.onlyIf ?_
    | refine Only.each fun _ _ => ?_ | refine Only.ite ?_ ?_
    | exact Only.doT .dir rfl (Mask.hasTab_mono hM (by decide +kernel))
    | exact Only.doT .sqx rfl (Mask.hasTab_mono hM (by decide +kernel))
    | exact (sqAnswer_only ..).le (Mask.le_trans (by decide +kernel) hM)
    | exact (setWake_only ..).le (Mask.le_trans (by decide +kernel) hM)
    | exact (chainForward_only ..).le (Mask.le_trans (by decide +kernel) hM)
    | exact (settleFreed_only ..).le (Mask.le_trans (by decide +kernel) hM)
    | exact (settleCheck_only ..).le (Mask.le_trans (by decide +kernel) hM)
    | exact (trkClear_only ..).le (Mask.le_trans (by decide +kernel) hM) | split

/-- What `trkRespond` can change. -/
def Feet.trkRespond : Mask := Feet.xsend.plus [Feet.sqInc]

theorem trkRespond_only (sq : Nat) (k : Trk) :
    Only Feet.trkRespond.has (trkRespond sq k) := by
  unfold trkRespond
  with_reducible repeat' first
    | exact Only.pure _ | exact Only.getM | refine Only.bind ?_ fun _ => ?_ | refine Only.onlyIf ?_
    | refine Only.ite ?_ ?_ | exact (xsend_only ..).le (by decide +kernel)
    | exact (sqInc_only ..).le (by decide +kernel) | exact (sqAnswer_only ..).le (by decide +kernel) | split
    | dsimp only

/-- What `latencyEnd` can change. -/
def Feet.latencyEnd : Mask := (.of [] [.arrT] : Mask).plus [Feet.pmuCount]

theorem latencyEnd_only (k : Trk) :
    Only Feet.latencyEnd.has (latencyEnd k) := by
  simp only [latencyEnd, putArrT]
  with_reducible repeat' first
    | exact Only.pure _ | exact Only.getM | refine Only.bind ?_ fun _ => ?_ | refine Only.onlyIf ?_
    | exact Only.doT .arrT rfl (by decide +kernel) | exact (pmuCount_only ..).le (by decide +kernel)

/-- What `trkFinish` can change. -/
def Feet.trkFinish : Mask := Feet.conflictsAck.plus [Feet.trkFree, Feet.latencyEnd]

theorem trkFinish_only (sq t : Nat) (settleNext : Nat → P Unit) {M : Mask} (hM : Feet.trkFinish.le M = true) (hx : ∀
    n, Only M.has (settleNext n)) :
    Only M.has (trkFinish sq t settleNext) := by
  simp only [trkFinish, modTrk, getTrk, putTrk]
  with_reducible repeat' first
    | exact Only.pure _ | exact Only.getM | refine Only.bind ?_ fun _ => ?_ | exact hx _ | refine Only.ite ?_ ?_
    | exact Only.doT .trk rfl (Mask.hasTab_mono hM (by decide +kernel))
    | exact (sqInc_only ..).le (Mask.le_trans (by decide +kernel) hM)
    | exact (recSend_only ..).le (Mask.le_trans (by decide +kernel) hM)
    | exact (conflictsAck_only ..).le (Mask.le_trans (by decide +kernel) hM)
    | refine trkFree_only _ _ _ (Mask.le_trans (by decide +kernel) hM) fun _ => ?_
    | exact (trkRespond_only ..).le (Mask.le_trans (by decide +kernel) hM)
    | exact (latencyEnd_only ..).le (Mask.le_trans (by decide +kernel) hM)

/-- What `trkDecide` can change. -/
def Feet.trkDecide : Mask := Feet.trkFinal

theorem trkDecide_only (sq t : Nat) :
    Only Feet.trkDecide.has (trkDecide sq t) := by
  simp only [trkDecide, modTrk, getTrk, putTrk]
  with_reducible repeat' first
    | exact Only.pure _ | exact Only.getM | refine Only.bind ?_ fun _ => ?_ | refine Only.ite ?_ ?_
    | exact Only.doT .trk rfl (by decide +kernel) | exact (trkFinal_only ..).le (by decide +kernel)

/-- What `trkClose` can change. -/
def Feet.trkClose : Mask := Feet.trkWriteAs.plus [Feet.trkFinal]

theorem trkClose_only (sq t : Nat) :
    Only Feet.trkClose.has (trkClose sq t) := by
  simp only [trkClose, modTrk, getTrk, putTrk]
  with_reducible repeat' first
    | exact Only.pure _ | exact Only.getM | refine Only.bind ?_ fun _ => ?_ | refine Only.onlyIf ?_
    | refine Only.ite ?_ ?_ | exact Only.doT .trk rfl (by decide +kernel)
    | exact (raise_only ..).le (by decide +kernel) | exact (trkWriteAs_only ..).le (by decide +kernel)
    | exact (trkWrite_only ..).le (by decide +kernel) | exact (trkDemand_only ..).le (by decide +kernel)
    | exact (trkFinal_only ..).le (by decide +kernel) | exact (trkDecide_only ..).le (by decide +kernel) | split

/-- What `trkStep` can change. -/
def Feet.trkStep : Mask := Feet.trkFinish

theorem trkStep_only (sq t : Nat) (settleNext : Nat → P Unit) {M : Mask} (hM : Feet.trkStep.le M = true) (hx : ∀ n,
    Only M.has (settleNext n)) :
    Only M.has (trkStep sq t settleNext) := by
  simp only [trkStep, getTrk, putTrk]
  with_reducible repeat' first
    | exact Only.pure _ | exact Only.getM | refine Only.bind ?_ fun _ => ?_ | exact hx _ | refine Only.onlyIf ?_
    | refine Only.ite ?_ ?_ | exact Only.doT .trk rfl (Mask.hasTab_mono hM (by decide +kernel))
    | refine trkFinish_only _ _ _ (Mask.le_trans (by decide +kernel) hM) fun _ => ?_
    | exact (trkClose_only ..).le (Mask.le_trans (by decide +kernel) hM)

/-- What `settleTake` can change. -/
def Feet.settleTake : Mask := (.of [] [.mtt] : Mask).plus [Feet.trkSnoop]

theorem settleTake_only (sq line : Nat) :
    Only Feet.settleTake.has (settleTake sq line) := by
  simp only [settleTake, modSqx, getSqx, putSqx, putTrk, modMtt, getMtt, putMtt]
  with_reducible repeat' first
    | exact Only.pure _ | exact Only.getM | refine Only.bind ?_ fun _ => ?_ | refine Only.ite ?_ ?_
    | exact Only.doT .trk rfl (by decide +kernel) | exact Only.doT .sqx rfl (by decide +kernel)
    | exact Only.doT .mtt rfl (by decide +kernel) | exact (trkSnoop_only ..).le (by decide +kernel) | split

/-- What `settleGo` can change. -/
def Feet.settleGo : Mask := Feet.trkStep.plus [Feet.settleTake]

theorem settleGo_only (sq : Nat) (n : Nat) (k : Nat) :
    Only Feet.settleGo.has (settleGo sq n k) := by
  induction n generalizing k with
  | zero =>
    simp only [settleGo, modSqx, getSqx, putSqx]
    with_reducible repeat' first
      | exact ih .. | exact Only.pure _ | exact Only.getM | refine Only.bind ?_ fun _ => ?_
      | exact Only.doT .sqx rfl (by decide +kernel)
  | succ n ih =>
    simp only [settleGo]
    with_reducible repeat' first
      | exact ih .. | exact Only.pure _ | exact Only.getM | refine Only.bind ?_ fun _ => ?_
      | exact Only.doT .sqx rfl (by decide +kernel) | refine trkStep_only _ _ _ (by decide +kernel) fun _ => ?_
      | exact (settleTake_only ..).le (by decide +kernel) | split

/-- What `trkGo` can change. -/
def Feet.trkGo : Mask := Feet.settleGo

theorem trkGo_only (sq t : Nat) :
    Only Feet.trkGo.has (trkGo sq t) := by
  unfold trkGo
  with_reducible repeat' first
    | exact Only.pure _ | exact Only.getM | refine Only.bind ?_ fun _ => ?_
    | refine trkStep_only _ _ _ (by decide +kernel) fun _ => ?_ | exact (settleGo_only ..).le (by decide +kernel)

/-- What `nruClear` can change. -/
def Feet.nruClear : Mask := .of [] [.dir]

theorem nruClear_only (sq arr set stamp : Nat) :
    Only Feet.nruClear.has (nruClear sq arr set stamp) := by
  simp only [nruClear, putDir]
  with_reducible repeat' first
    | exact Only.pure _ | exact Only.getM | refine Only.bind ?_ fun _ => ?_ | refine Only.onlyIf ?_
    | refine Only.each fun _ _ => ?_ | refine Only.ite ?_ ?_ | exact Only.doT .dir rfl (by decide +kernel)

/-- What `evictWay` can change. -/
def Feet.evictWay : Mask := Feet.trkGo

theorem evictWay_only (sq arr set way : Nat) :
    Only Feet.evictWay.has (evictWay sq arr set way) := by
  simp only [evictWay, modSqx, getSqx, putSqx, putDir, putTrk]
  with_reducible repeat' first
    | exact Only.pure _ | exact Only.getM | refine Only.bind ?_ fun _ => ?_ | refine Only.onlyIf ?_
    | exact Only.doT .dir rfl (by decide +kernel) | exact Only.doT .trk rfl (by decide +kernel)
    | exact Only.doT .sqx rfl (by decide +kernel) | exact (sqInc_only ..).le (by decide +kernel)
    | exact (trkSnoop_only ..).le (by decide +kernel) | exact (trkGo_only ..).le (by decide +kernel) | split

/-- What `takeWay` can change. -/
def Feet.takeWay : Mask := (.of [] [.mru] : Mask).plus [Feet.evictWay]

theorem takeWay_only (sq arr set stamp reserved : Nat) :
    Only Feet.takeWay.has (takeWay sq arr set stamp reserved) := by
  simp only [takeWay, putMru]
  with_reducible repeat' first
    | exact Only.pure _ | exact Only.getM | refine Only.bind ?_ fun _ => ?_ | refine Only.ite ?_ ?_
    | exact Only.doT .mru rfl (by decide +kernel) | exact (nruClear_only ..).le (by decide +kernel)
    | exact (evictWay_only ..).le (by decide +kernel) | split

/-- What `fmdMiss` can change. -/
def Feet.fmdMiss : Mask := (.of [.SQ_CNT] [] : Mask).plus [Feet.countFirst, Feet.conflictsAck]

theorem fmdMiss_only (sq : Nat) (q : Msg) :
    Only Feet.fmdMiss.has (fmdMiss sq q) := by
  unfold fmdMiss
  with_reducible repeat' first
    | exact Only.pure _ | exact Only.getM | refine Only.bind ?_ fun _ => ?_ | refine Only.ite ?_ ?_
    | exact countFirst_only _ (by decide +kernel) (k := .SQ_CNT) rfl (by decide +kernel)
    | exact (xsend_only ..).le (by decide +kernel) | exact (conflictsAck_only ..).le (by decide +kernel)

/-- What `misdirect` can change. -/
def Feet.misdirect : Mask := (.of [.TWN_CNT] [] : Mask).plus [Feet.countFirst, Feet.conflictsAck]

theorem misdirect_only (inp : Nat) (q : Msg) :
    Only Feet.misdirect.has (misdirect inp q) := by
  unfold misdirect
  with_reducible repeat' first
    | exact Only.pure _ | exact Only.getM | refine Only.bind ?_ fun _ => ?_ | refine Only.ite ?_ ?_
    | exact Only.incK .TWN_CNT rfl (by decide +kernel)
    | exact countFirst_only _ (by decide +kernel) (k := .TWN_CNT) rfl (by decide +kernel)
    | exact (xsend_only ..).le (by decide +kernel) | exact (conflictsAck_only ..).le (by decide +kernel)

/-- What `specIssue` can change. -/
def Feet.specIssue : Mask := (.of [] [.specT] : Mask).plus [Feet.sqInc, Feet.memTag, Feet.sqMemRead]

theorem specIssue_only (sq user : Nat) (q : Msg) :
    Only Feet.specIssue.has (specIssue sq user q) := by
  simp only [specIssue, putSpecT]
  with_reducible repeat' first
    | exact Only.pure _ | exact Only.getM | refine Only.bind ?_ fun _ => ?_ | refine Only.ite ?_ ?_
    | exact Only.doT .specT rfl (by decide +kernel) | exact (sqInc_only ..).le (by decide +kernel)
    | exact (memTag_only ..).le (by decide +kernel) | exact (sqMemRead_only ..).le (by decide +kernel) | split

/-- What `retryOr` can change. -/
def Feet.retryOr : Mask := Feet.fullWait

theorem retryOr_only (sq : Nat) (w : Waiting) (nack : Bool) :
    Only Feet.retryOr.has (retryOr sq w nack) := by
  simp only [retryOr, getSqx]
  with_reducible repeat' first
    | exact Only.pure _ | exact Only.getM | refine Only.bind ?_ fun _ => ?_ | refine Only.onlyIf ?_
    | refine Only.ite ?_ ?_ | exact (sqInc_only ..).le (by decide +kernel)
    | exact (retryPut_only ..).le (by decide +kernel) | exact (fullWait_only ..).le (by decide +kernel)

/-- What `serveReq` can change. -/
def Feet.serveReq : Mask := (.of [] [.trk] : Mask).plus [Feet.wayUsed, Feet.sqForward, Feet.fmdMiss, Feet.misdirect,
  Feet.specIssue]

theorem serveReq_only (sq : Nat) (w : Waiting) (fresh bad : Bool) :
    Only Feet.serveReq.has (serveReq sq w fresh bad) := by
  simp only [serveReq, modSqx, getSqx, putSqx, putTrk, modTrk, getTrk]
  with_reducible repeat' first
    | exact Only.pure _ | exact Only.getM | refine Only.bind ?_ fun _ => ?_ | refine Only.onlyIf ?_
    | refine Only.ite ?_ ?_ | exact Only.doT .trk rfl (by decide +kernel)
    | exact Only.doT .sqx rfl (by decide +kernel) | exact (pmuCount_only ..).le (by decide +kernel)
    | exact (sqInc_only ..).le (by decide +kernel) | exact (wayUsed_only ..).le (by decide +kernel)
    | exact (sqForward_only ..).le (by decide +kernel) | exact (fmdMiss_only ..).le (by decide +kernel)
    | exact (misdirect_only ..).le (by decide +kernel) | exact (specIssue_only ..).le (by decide +kernel)
    | exact (retryOr_only ..).le (by decide +kernel) | split

/-- What `specDrop` can change. -/
def Feet.specDrop : Mask := (.of [] [.trk, .specT] : Mask).plus [Feet.sqInc]

theorem specDrop_only (sq t : Nat) :
    Only Feet.specDrop.has (specDrop sq t) := by
  simp only [specDrop, putSpecT, modTrk, getTrk, putTrk]
  with_reducible repeat' first
    | exact Only.pure _ | exact Only.getM | refine Only.bind ?_ fun _ => ?_ | refine Only.onlyIf ?_
    | refine Only.each fun _ _ => ?_ | refine Only.ite ?_ ?_ | exact Only.doT .trk rfl (by decide +kernel)
    | exact Only.doT .specT rfl (by decide +kernel) | exact (sqInc_only ..).le (by decide +kernel)

/-- What `trkAbandon` can change. -/
def Feet.trkAbandon : Mask := Feet.specDrop

theorem trkAbandon_only (sq t : Nat) :
    Only Feet.trkAbandon.has (trkAbandon sq t) := by
  simp only [trkAbandon, getTrk, putTrk]
  with_reducible repeat' first
    | exact Only.pure _ | exact Only.getM | refine Only.bind ?_ fun _ => ?_
    | exact Only.doT .trk rfl (by decide +kernel) | exact (specDrop_only ..).le (by decide +kernel)

/-- What `trkServe` can change. -/
def Feet.trkServe : Mask := Feet.trkGo.plus [Feet.specDrop]

theorem trkServe_only (sq t way : Nat) (e : DirEnt) (l : List Nat) (forData : Bool) :
    Only Feet.trkServe.has (trkServe sq t way e l forData) := by
  simp only [trkServe, getTrk, modTrk, putTrk]
  with_reducible repeat' first
    | exact Only.pure _ | exact Only.getM | refine Only.bind ?_ fun _ => ?_ | refine Only.onlyIf ?_
    | refine Only.ite ?_ ?_ | exact Only.doT .trk rfl (by decide +kernel)
    | exact (sqInc_only ..).le (by decide +kernel) | exact (trkDemand_only ..).le (by decide +kernel)
    | exact (trkSnoop_only ..).le (by decide +kernel) | exact (trkDecide_only ..).le (by decide +kernel)
    | exact (trkGo_only ..).le (by decide +kernel) | exact (specDrop_only ..).le (by decide +kernel)

/-- What `lookupResult` can change. -/
def Feet.lookupResult : Mask := Feet.takeWay.plus [Feet.trkServe]

theorem lookupResult_only (sq t : Nat) (ue : Option Nat) :
    Only Feet.lookupResult.has (lookupResult sq t ue) := by
  unfold lookupResult
  with_reducible repeat' first
    | exact Only.pure _ | exact Only.getM | refine Only.bind ?_ fun _ => ?_ | refine Only.onlyIf ?_
    | refine Only.ite ?_ ?_ | exact (pmuCount_only ..).le (by decide +kernel)
    | exact (raise_only ..).le (by decide +kernel) | exact (sqInc_only ..).le (by decide +kernel)
    | exact (wayUsed_only ..).le (by decide +kernel) | exact (entryChange_only ..).le (by decide +kernel)
    | exact (sqNack_only ..).le (by decide +kernel) | exact (sqForward_only ..).le (by decide +kernel)
    | exact (takeWay_only ..).le (by decide +kernel) | exact (trkAbandon_only ..).le (by decide +kernel)
    | exact (trkServe_only ..).le (by decide +kernel) | split | dsimp only

/-- What `wbStray` can change. -/
def Feet.wbStray : Mask := (.of [.TWN_CNT] [] : Mask).plus [Feet.raise, Feet.sqInc, Feet.sqAnswer]

theorem wbStray_only (sq : Nat) (q : Msg) :
    Only Feet.wbStray.has (wbStray sq q) := by
  unfold wbStray
  with_reducible repeat' first
    | exact Only.pure _ | exact Only.getM | refine Only.bind ?_ fun _ => ?_ | refine Only.ite ?_ ?_
    | exact Only.incK .TWN_CNT rfl (by decide +kernel) | exact (raise_only ..).le (by decide +kernel)
    | exact (sqInc_only ..).le (by decide +kernel) | exact (sqAnswer_only ..).le (by decide +kernel)

/-- What `wbUe` can change. -/
def Feet.wbUe : Mask := Feet.trkGo

theorem wbUe_only (sq t stamp w : Nat) (q : Msg) :
    Only Feet.wbUe.has (wbUe sq t stamp w q) := by
  simp only [wbUe, putTrk]
  with_reducible repeat' first
    | exact Only.pure _ | exact Only.getM | refine Only.bind ?_ fun _ => ?_
    | exact Only.doT .trk rfl (by decide +kernel) | exact (raise_only ..).le (by decide +kernel)
    | exact (sqInc_only ..).le (by decide +kernel) | exact (trkWrite_only ..).le (by decide +kernel)
    | exact (trkSnoop_only ..).le (by decide +kernel) | exact (trkGo_only ..).le (by decide +kernel)

/-- What `serveWb` can change. -/
def Feet.serveWb : Mask := Feet.takeWay

theorem serveWb_only (sq stamp : Nat) (q : Msg) (bad : Option Nat) :
    Only Feet.serveWb.has (serveWb sq stamp q bad) := by
  simp only [serveWb, putTrk, modTrk, getTrk]
  with_reducible repeat' first
    | exact Only.pure _ | exact Only.getM | refine Only.bind ?_ fun _ => ?_ | refine Only.ite ?_ ?_
    | exact Only.doT .trk rfl (by decide +kernel) | exact (sqInc_only ..).le (by decide +kernel)
    | exact (trkWrite_only ..).le (by decide +kernel) | exact (trkSnoop_only ..).le (by decide +kernel)
    | exact (trkGo_only ..).le (by decide +kernel) | exact (takeWay_only ..).le (by decide +kernel)
    | exact (fmdMiss_only ..).le (by decide +kernel) | exact (wbStray_only ..).le (by decide +kernel)
    | exact (wbUe_only ..).le (by decide +kernel) | split

/-- What `wbJoin` can change. -/
def Feet.wbJoin : Mask := Feet.trkGo

theorem wbJoin_only (sq t : Nat) (q : Msg) :
    Only Feet.wbJoin.has (wbJoin sq t q) := by
  simp only [wbJoin, modTrk, getTrk, putTrk]
  with_reducible repeat' first
    | exact Only.pure _ | exact Only.getM | refine Only.bind ?_ fun _ => ?_ | refine Only.ite ?_ ?_
    | exact Only.doT .trk rfl (by decide +kernel) | exact (trkWrite_only ..).le (by decide +kernel)
    | exact (trkGo_only ..).le (by decide +kernel)

/-- What `writeback` can change. -/
def Feet.writeback : Mask := (.of [] [.stampCtr] : Mask).plus [Feet.serveWb]

theorem writeback_only (sq : Nat) (q : Msg) (bad : Option Nat) :
    Only Feet.writeback.has (writeback sq q bad) := by
  simp only [writeback, getStampCtr, putStampCtr, modSqx, getSqx, putSqx]
  with_reducible repeat' first
    | exact Only.pure _ | exact Only.getM | refine Only.bind ?_ fun _ => ?_ | refine Only.onlyIf ?_
    | refine Only.ite ?_ ?_ | exact Only.doT .stampCtr rfl (by decide +kernel)
    | exact Only.doT .sqx rfl (by decide +kernel) | exact (sqInc_only ..).le (by decide +kernel)
    | exact (misdirect_only ..).le (by decide +kernel) | exact (serveWb_only ..).le (by decide +kernel)
    | exact (wbJoin_only ..).le (by decide +kernel) | split

/-- What `settleTie` can change. -/
def Feet.settleTie : Mask := (.of [.SQ_ORD_STATUS] [.sqin] : Mask).plus [Feet.sqInc]

theorem settleTie_only (sq n : Nat) :
    Only Feet.settleTie.has (settleTie sq n) := by
  simp only [settleTie, putSqin]
  with_reducible repeat' first
    | exact Only.pure _ | exact Only.getM | refine Only.bind ?_ fun _ => ?_ | refine Only.onlyIf ?_
    | refine Only.ite ?_ ?_ | exact Only.wrK .SQ_ORD_STATUS rfl (by decide +kernel)
    | exact Only.doT .sqin rfl (by decide +kernel) | exact (sqInc_only ..).le (by decide +kernel) | split

/-- What `tryNew` can change. -/
def Feet.tryNew : Mask := Feet.serveReq

theorem tryNew_only (sq : Nat) (bad : Bool) (e : Nat × Msg) :
    Only Feet.tryNew.has (tryNew sq bad e) := by
  simp only [tryNew, getSqin, putSqin]
  with_reducible repeat' first
    | exact Only.pure _ | exact Only.getM | refine Only.bind ?_ fun _ => ?_ | refine Only.ite ?_ ?_
    | exact Only.doT .sqin rfl (by decide +kernel) | exact (serveReq_only ..).le (by decide +kernel)

/-- What `tryHeads` can change. -/
def Feet.tryHeads : Mask := Feet.tryNew

theorem tryHeads_only (sq : Nat) (bad : Bool) (n : List (Nat × Msg)) :
    Only Feet.tryHeads.has (tryHeads sq bad n) := by
  induction n with
  | nil =>
    unfold tryHeads
    with_reducible repeat' first
      | exact ih .. | exact Only.pure _
  | cons a l ih =>
    unfold tryHeads
    with_reducible repeat' first
      | exact ih .. | exact Only.pure _ | exact Only.getM | refine Only.bind ?_ fun _ => ?_ | refine Only.ite ?_ ?_
      | exact (tryNew_only ..).le (by decide +kernel)

/-- What `squareLookup` can change. -/
def Feet.squareLookup : Mask := Feet.serveReq.plus [Feet.serveWb, Feet.settleTie]

theorem squareLookup_only (sq tie : Nat) (bad : Option Nat) :
    Only Feet.squareLookup.has (squareLookup sq tie bad) := by
  simp only [squareLookup, putSqx, modSqx, getSqx]
  with_reducible repeat' first
    | exact Only.pure _ | exact Only.getM | refine Only.bind ?_ fun _ => ?_ | refine Only.onlyIf ?_
    | exact Only.doT .sqx rfl (by decide +kernel) | exact (serveReq_only ..).le (by decide +kernel)
    | exact (serveWb_only ..).le (by decide +kernel) | exact (settleTie_only ..).le (by decide +kernel)
    | exact (tryHeads_only ..).le (by decide +kernel) | split

/-- What `specArrival` can change. -/
def Feet.specArrival : Mask := (.of [] [.specT] : Mask).plus [Feet.trkGo]

theorem specArrival_only (sq tag : Nat) (data : List Word) (poison : Bool) :
    Only Feet.specArrival.has (specArrival sq tag data poison) := by
  simp only [specArrival, putSpecT, modTrk, getTrk, putTrk]
  with_reducible repeat' first
    | exact Only.pure _ | exact Only.getM | refine Only.bind ?_ fun _ => ?_ | refine Only.ite ?_ ?_
    | exact Only.doT .trk rfl (by decide +kernel) | exact Only.doT .specT rfl (by decide +kernel)
    | exact (sqInc_only ..).le (by decide +kernel) | exact (trkGo_only ..).le (by decide +kernel) | split

/-- What `memReadData` can change. -/
def Feet.memReadData : Mask := Feet.trkGo

theorem memReadData_only (sq n : Nat) (data : List Word) (poison : Bool) :
    Only Feet.memReadData.has (memReadData sq n data poison) := by
  simp only [memReadData, putMemT, modTrk, getTrk, putTrk]
  with_reducible repeat' first
    | exact Only.pure _ | exact Only.getM | refine Only.bind ?_ fun _ => ?_ | refine Only.ite ?_ ?_
    | exact Only.doT .trk rfl (by decide +kernel) | exact Only.doT .memT rfl (by decide +kernel)
    | exact (sqInc_only ..).le (by decide +kernel) | exact (trkGo_only ..).le (by decide +kernel) | split

/-- What `writeEnded` can change. -/
def Feet.writeEnded : Mask := Feet.trkGo

theorem writeEnded_only (sq n t : Nat) :
    Only Feet.writeEnded.has (writeEnded sq n t) := by
  simp only [writeEnded, putMemT, modTrk, getTrk, putTrk]
  with_reducible repeat' first
    | exact Only.pure _ | exact Only.getM | refine Only.bind ?_ fun _ => ?_ | refine Only.onlyIf ?_
    | exact Only.doT .trk rfl (by decide +kernel) | exact Only.doT .memT rfl (by decide +kernel)
    | exact (trkGo_only ..).le (by decide +kernel)

/-- What `memWriteDone` can change. -/
def Feet.memWriteDone : Mask := Feet.writeEnded

theorem memWriteDone_only (sq n : Nat) :
    Only Feet.memWriteDone.has (memWriteDone sq n) := by
  unfold memWriteDone
  with_reducible repeat' first
    | exact Only.pure _ | exact Only.getM | refine Only.bind ?_ fun _ => ?_
    | exact (sqInc_only ..).le (by decide +kernel) | exact (writeEnded_only ..).le (by decide +kernel) | split

/-- What `birsp` can change. -/
def Feet.birsp : Mask := Feet.trkGo

theorem birsp_only (sq a line : Nat) (s : Bool) :
    Only Feet.birsp.has (birsp sq a line s) := by
  simp only [birsp, modTrk, getTrk, putTrk]
  with_reducible repeat' first
    | exact Only.pure _ | exact Only.getM | refine Only.bind ?_ fun _ => ?_ | refine Only.ite ?_ ?_
    | exact Only.doT .trk rfl (by decide +kernel) | exact (sqInc_only ..).le (by decide +kernel)
    | exact (trkGo_only ..).le (by decide +kernel) | split

/-- What `snoopTimeout` can change. -/
def Feet.snoopTimeout : Mask := Feet.trkGo

theorem snoopTimeout_only (sq t a : Nat) :
    Only Feet.snoopTimeout.has (snoopTimeout sq t a) := by
  unfold snoopTimeout
  with_reducible repeat' first
    | exact Only.pure _ | exact Only.getM | refine Only.bind ?_ fun _ => ?_ | refine Only.ite ?_ ?_
    | exact (raise_only ..).le (by decide +kernel) | exact (sqInc_only ..).le (by decide +kernel)
    | exact (snoopLost_only ..).le (by decide +kernel) | exact (trkGo_only ..).le (by decide +kernel)

/-- What `readLost` can change. -/
def Feet.readLost : Mask := .of [] [.trk]

theorem readLost_only (sq t : Nat) :
    Only Feet.readLost.has (readLost sq t) := by
  simp only [readLost, modTrk, getTrk, putTrk]
  with_reducible repeat' first
    | exact Only.pure _ | exact Only.getM | refine Only.bind ?_ fun _ => ?_ | refine Only.ite ?_ ?_
    | exact Only.doT .trk rfl (by decide +kernel)

/-- What `readEnded` can change. -/
def Feet.readEnded : Mask := (.of [] [.specT] : Mask).plus [Feet.trkGo]

theorem readEnded_only (sq what n : Nat) (seen : Nat → P Unit) {M : Mask} (hM : Feet.readEnded.le M = true) (hx : ∀ n,
    Only M.has (seen n)) :
    Only M.has (readEnded sq what n seen) := by
  simp only [readEnded, putSpecT, putMemT]
  with_reducible repeat' first
    | exact Only.pure _ | exact Only.getM | refine Only.bind ?_ fun _ => ?_ | exact hx _ | refine Only.onlyIf ?_
    | refine Only.ite ?_ ?_ | exact Only.doT .specT rfl (Mask.hasTab_mono hM (by decide +kernel))
    | exact Only.doT .memT rfl (Mask.hasTab_mono hM (by decide +kernel))
    | exact (trkGo_only ..).le (Mask.le_trans (by decide +kernel) hM)
    | exact (readLost_only ..).le (Mask.le_trans (by decide +kernel) hM) | split

/-- What `memTmo` can change. -/
def Feet.memTmo : Mask := Feet.raise.plus [Feet.sqInc]

theorem memTmo_only (sq t : Nat) :
    Only Feet.memTmo.has (memTmo sq t) := by
  unfold memTmo
  with_reducible repeat' first
    | exact Only.pure _ | exact Only.getM | refine Only.bind ?_ fun _ => ?_
    | exact (raise_only ..).le (by decide +kernel) | exact (sqInc_only ..).le (by decide +kernel)

/-- What `memTimeout` can change. -/
def Feet.memTimeout : Mask := Feet.readEnded

theorem memTimeout_only (sq what n : Nat) :
    Only Feet.memTimeout.has (memTimeout sq what n) := by
  unfold memTimeout
  with_reducible repeat' first
    | exact Only.pure _ | exact Only.getM | refine Only.bind ?_ fun _ => ?_ | refine Only.onlyIf ?_
    | refine Only.ite ?_ ?_ | exact (writeEnded_only ..).le (by decide +kernel)
    | refine readEnded_only _ _ _ _ (by decide +kernel) fun _ => ?_ | exact (memTmo_only ..).le (by decide +kernel)
    | split

/-- What `sqFlushed` can change. -/
def Feet.sqFlushed : Mask := Feet.readEnded

theorem sqFlushed_only (sq : Nat) (q : Msg) (op : Op) :
    Only Feet.sqFlushed.has (sqFlushed sq q op) := by
  unfold sqFlushed
  with_reducible repeat' first
    | exact Only.pure _ | exact Only.getM | refine Only.bind ?_ fun _ => ?_ | refine Only.ite ?_ ?_
    | exact (raise_only ..).le (by decide +kernel) | exact (sqInc_only ..).le (by decide +kernel)
    | exact (snoopLost_only ..).le (by decide +kernel) | exact (trkGo_only ..).le (by decide +kernel)
    | exact (writeEnded_only ..).le (by decide +kernel)
    | refine readEnded_only _ _ _ _ (by decide +kernel) fun _ => ?_ | split

/-- What `sqCommit` can change. -/
def Feet.sqCommit : Mask := Feet.trkGo

theorem sqCommit_only (sq upto : Nat) :
    Only Feet.sqCommit.has (sqCommit sq upto) := by
  simp only [sqCommit, modTrk, getTrk, putTrk]
  with_reducible repeat' first
    | exact Only.pure _ | exact Only.getM | refine Only.bind ?_ fun _ => ?_ | refine Only.each fun _ _ => ?_
    | refine Only.ite ?_ ?_ | exact Only.doT .trk rfl (by decide +kernel)
    | exact (trkGo_only ..).le (by decide +kernel)

/-- What `sqCommitsLost` can change. -/
def Feet.sqCommitsLost : Mask := Feet.trkGo

theorem sqCommitsLost_only : Only Feet.sqCommitsLost.has sqCommitsLost := by
  simp only [sqCommitsLost, modTrk, getTrk, putTrk]
  with_reducible repeat' first
    | exact Only.pure _ | exact Only.getM | refine Only.bind ?_ fun _ => ?_ | refine Only.onlyIf ?_
    | refine Only.each fun _ _ => ?_ | refine Only.ite ?_ ?_ | exact Only.incK .TWN_CNT rfl (by decide +kernel)
    | exact Only.doT .trk rfl (by decide +kernel) | exact (trkGo_only ..).le (by decide +kernel)

/-- What `releaseSend` can change. -/
def Feet.releaseSend : Mask := Feet.recSend

theorem releaseSend_only (sq : Nat) :
    Only Feet.releaseSend.has (releaseSend sq) := by
  simp only [releaseSend, putSqx]
  with_reducible repeat' first
    | exact Only.pure _ | exact Only.getM | refine Only.bind ?_ fun _ => ?_ | refine Only.ite ?_ ?_
    | exact Only.doT .sqx rfl (by decide +kernel) | exact (recSend_only ..).le (by decide +kernel)

/-- What `retryInterval` can change. -/
def Feet.retryInterval : Mask := .of [] [.sqx]

theorem retryInterval_only (sq n : Nat) :
    Only Feet.retryInterval.has (retryInterval sq n) := by
  simp only [retryInterval, getSqx, putSqx]
  with_reducible repeat' first
    | exact Only.pure _ | exact Only.getM | refine Only.bind ?_ fun _ => ?_ | refine Only.ite ?_ ?_
    | exact Only.doT .sqx rfl (by decide +kernel)

/-- What `retryAge` can change. -/
def Feet.retryAge : Mask := (.of [] [.sqx] : Mask).plus [Feet.raise]

theorem retryAge_only (sq n : Nat) :
    Only Feet.retryAge.has (retryAge sq n) := by
  simp only [retryAge, putSqx]
  with_reducible repeat' first
    | exact Only.pure _ | exact Only.getM | refine Only.bind ?_ fun _ => ?_ | refine Only.ite ?_ ?_
    | exact Only.doT .sqx rfl (by decide +kernel) | exact (raise_only ..).le (by decide +kernel) | split

/-- What `evictWindow` can change. -/
def Feet.evictWindow : Mask := (.of [.SQ_EVICT_STAT] [.sqx] : Mask).plus [Feet.raise]

theorem evictWindow_only (sq : Nat) :
    Only Feet.evictWindow.has (evictWindow sq) := by
  simp only [evictWindow, modSqx, getSqx, putSqx]
  with_reducible repeat' first
    | exact Only.pure _ | exact Only.getM | refine Only.bind ?_ fun _ => ?_ | refine Only.onlyIf ?_
    | refine Only.ite ?_ ?_ | exact Only.wrK .SQ_EVICT_STAT rfl (by decide +kernel)
    | exact Only.doT .sqx rfl (by decide +kernel) | exact (raise_only ..).le (by decide +kernel)

/-- What `probeDone` can change. -/
def Feet.probeDone : Mask := .of [.SQ_PROBE_RESULT, .SQ_PROBE_SHARERS] [.sqx]

theorem probeDone_only (sq : Nat) :
    Only Feet.probeDone.has (probeDone sq) := by
  simp only [probeDone, modSqx, getSqx, putSqx]
  with_reducible repeat' first
    | exact Only.pure _ | exact Only.getM | refine Only.bind ?_ fun _ => ?_ | refine Only.ite ?_ ?_
    | exact Only.wrRegK .SQ_PROBE_RESULT (by decide +kernel)
    | exact Only.wrRegK .SQ_PROBE_SHARERS (by decide +kernel)
    | exact Only.wrK .SQ_PROBE_RESULT rfl (by decide +kernel)
    | exact Only.wrK .SQ_PROBE_SHARERS rfl (by decide +kernel) | exact Only.doT .sqx rfl (by decide +kernel) | split

/-- What `sqAgentLost` can change. -/
def Feet.sqAgentLost : Mask := (.of [.SQ_PURGE_MASK, .SQ_PURGE_STATUS] [.alost] : Mask).plus [Feet.trkGo]

theorem sqAgentLost_only (a : Nat) :
    Only Feet.sqAgentLost.has (sqAgentLost a) := by
  simp only [sqAgentLost, putAlost, modSqx, getSqx, putSqx, modBic, getBic, putBic, modTrk, getTrk, putTrk]
  with_reducible repeat' first
    | exact Only.pure _ | exact Only.getM | refine Only.bind ?_ fun _ => ?_ | refine Only.each fun _ _ => ?_
    | refine Only.ite ?_ ?_ | exact Only.rd _ | exact Only.wrK .SQ_PURGE_MASK rfl (by decide +kernel)
    | exact Only.wrK .SQ_PURGE_STATUS rfl (by decide +kernel) | exact Only.doT .trk rfl (by decide +kernel)
    | exact Only.doT .bic rfl (by decide +kernel) | exact Only.doT .sqx rfl (by decide +kernel)
    | exact Only.doT .alost rfl (by decide +kernel) | exact (raise_only ..).le (by decide +kernel)
    | exact (snoopLost_only ..).le (by decide +kernel) | exact (trkGo_only ..).le (by decide +kernel)

/-- What `purgeDone` can change. -/
def Feet.purgeDone : Mask := (.of [.SQ_PURGE_MASK, .SQ_PURGE_STATUS] [] : Mask).plus [Feet.purgeWrite,
  Feet.entryChange]

theorem purgeDone_only (sq : Nat) :
    Only Feet.purgeDone.has (purgeDone sq) := by
  simp only [purgeDone, modSqx, getSqx, putSqx]
  with_reducible repeat' first
    | exact Only.pure _ | exact Only.getM | refine Only.bind ?_ fun _ => ?_ | refine Only.each fun _ _ => ?_
    | refine Only.ite ?_ ?_ | exact Only.wrK .SQ_PURGE_MASK rfl (by decide +kernel)
    | exact Only.wrK .SQ_PURGE_STATUS rfl (by decide +kernel) | exact Only.doT .sqx rfl (by decide +kernel)
    | exact (raise_only ..).le (by decide +kernel) | exact (sqInc_only ..).le (by decide +kernel)
    | exact (purgeWrite_only ..).le (by decide +kernel) | exact (entryChange_only ..).le (by decide +kernel)

/-- What `kioskLost` can change. -/
def Feet.kioskLost : Mask := (.of [.SQ_PURGE_STATUS] [] : Mask).plus [Feet.trkGo]

theorem kioskLost_only (k : Nat) :
    Only Feet.kioskLost.has (kioskLost k) := by
  simp only [kioskLost, modSqx, getSqx, putSqx]
  with_reducible repeat' first
    | exact Only.pure _ | exact Only.getM | refine Only.bind ?_ fun _ => ?_ | refine Only.onlyIf ?_
    | refine Only.each fun _ _ => ?_ | exact Only.wrK .SQ_PURGE_STATUS rfl (by decide +kernel)
    | exact Only.doT .sqx rfl (by decide +kernel) | exact (snoopLost_only ..).le (by decide +kernel)
    | exact (trkGo_only ..).le (by decide +kernel)

/-- What `reenterAs` can change. -/
def Feet.reenterAs : Mask := Feet.sqForward

theorem reenterAs_only (sq : Nat) (w : Waiting) :
    Only Feet.reenterAs.has (reenterAs sq w) := by
  simp only [reenterAs, modSqx, getSqx, putSqx]
  with_reducible repeat' first
    | exact Only.pure _ | exact Only.getM | refine Only.bind ?_ fun _ => ?_ | refine Only.onlyIf ?_
    | refine Only.ite ?_ ?_ | exact Only.doT .sqx rfl (by decide +kernel)
    | exact (sqInc_only ..).le (by decide +kernel) | exact (sqForward_only ..).le (by decide +kernel) | split

/-- What `reenter` can change. -/
def Feet.reenter : Mask := Feet.reenterAs

theorem reenter_only (sq : Nat) (w : Waiting) :
    Only Feet.reenter.has (reenter sq w) := by
  unfold reenter
  with_reducible repeat' first
    | exact Only.pure _ | exact Only.getM | refine Only.bind ?_ fun _ => ?_
    | exact (dueSub_only ..).le (by decide +kernel) | exact (reenterAs_only ..).le (by decide +kernel)

/-- What `sqAck` can change. -/
def Feet.sqAck : Mask := Feet.xsend

theorem sqAck_only (sq port line : Nat) :
    Only Feet.sqAck.has (sqAck sq port line) := by
  unfold sqAck
  with_reducible repeat' first
    | exact Only.pure _ | exact Only.getM | refine Only.bind ?_ fun _ => ?_
    | exact (xsend_only ..).le (by decide +kernel)

/-- What `creditBack` can change. -/
def Feet.creditBack : Mask := .of [] [.crec, .cwait]

theorem creditBack_only (sq oct recs waits : Nat) :
    Only Feet.creditBack.has (creditBack sq oct recs waits) := by
  simp only [creditBack, modCrec, getCrec, putCrec, modCwait, getCwait, putCwait]
  with_reducible repeat' first
    | exact Only.pure _ | exact Only.getM | refine Only.bind ?_ fun _ => ?_
    | exact Only.doT .crec rfl (by decide +kernel) | exact Only.doT .cwait rfl (by decide +kernel)

/-- What `entryWrite` can change. -/
def Feet.entryWrite : Mask := .of [] [.dir]

theorem entryWrite_only (sq line : Nat) (e : DirEnt) :
    Only Feet.entryWrite.has (entryWrite sq line e) := by
  simp only [entryWrite, putDir]
  with_reducible repeat' first
    | exact Only.pure _ | exact Only.getM | refine Only.bind ?_ fun _ => ?_
    | exact Only.doT .dir rfl (by decide +kernel) | split

/-- What `handover` can change. -/
def Feet.handover : Mask := Feet.sqInc.plus [Feet.ledgerSub, Feet.sqAck, Feet.creditBack, Feet.entryWrite]

theorem handover_only (sq port line a settled recs waits : Nat) :
    Only Feet.handover.has (handover sq port line a settled recs waits) := by
  unfold handover
  with_reducible repeat' first
    | exact Only.pure _ | exact Only.getM | refine Only.bind ?_ fun _ => ?_
    | exact (sqInc_only ..).le (by decide +kernel) | exact (ledgerSub_only ..).le (by decide +kernel)
    | exact (dueAdd_only ..).le (by decide +kernel) | exact (sqAck_only ..).le (by decide +kernel)
    | exact (creditBack_only ..).le (by decide +kernel) | exact (entryWrite_only ..).le (by decide +kernel)

/-- What `retTake` can change. -/
def Feet.retTake : Mask := Feet.trkServe

theorem retTake_only (sq port line : Nat) (why : Ret) (fin : Option DirEnt) (kept : Bool) (head : Option Waiting)
    (settled recs waits : Nat) (flushed : Bool) :
    Only Feet.retTake.has (retTake sq port line why fin kept head settled recs waits flushed) := by
  simp only [retTake, putTrk]
  with_reducible repeat' first
    | exact Only.pure _ | exact Only.getM | refine Only.bind ?_ fun _ => ?_ | refine Only.onlyIf ?_
    | refine Only.ite ?_ ?_ | exact Only.doT .trk rfl (by decide +kernel)
    | exact (raise_only ..).le (by decide +kernel) | exact (sqInc_only ..).le (by decide +kernel)
    | exact (purgeWrite_only ..).le (by decide +kernel) | exact (entryChange_only ..).le (by decide +kernel)
    | exact (ledgerSub_only ..).le (by decide +kernel) | exact (dueAdd_only ..).le (by decide +kernel)
    | exact (trkServe_only ..).le (by decide +kernel) | exact (reenterAs_only ..).le (by decide +kernel)
    | exact (sqAck_only ..).le (by decide +kernel) | exact (creditBack_only ..).le (by decide +kernel)
    | exact (entryWrite_only ..).le (by decide +kernel) | split

/-- What `sqEffect` can change. -/
def Feet.sqEffect : Mask := .of [.SQ_CNT, .SQ_PROBE_RESULT, .SQ_FMD_CTL] [.sqx]

theorem sqEffect_only (k : RegKind) (i cmd : Nat) :
    Only Feet.sqEffect.has (sqEffect k i cmd) := by
  simp only [sqEffect, modSqx, getSqx, putSqx]
  with_reducible repeat' first
    | exact Only.pure _ | exact Only.getM | refine Only.bind ?_ fun _ => ?_ | refine Only.onlyIf ?_
    | refine Only.each fun _ _ => ?_ | exact Only.rstK .SQ_CNT (by decide +kernel)
    | exact Only.wrRegK .SQ_PROBE_RESULT (by decide +kernel) | exact Only.wrK .SQ_FMD_CTL rfl (by decide +kernel)
    | exact Only.doT .sqx rfl (by decide +kernel) | split

end Sys2Proof.Machine
end

