-- ==== Sys2Proof/Laws/FeetCorners.lean ====
section
/-!
SUPPORT. The footprint of every operation of Machine/Corners.lean: the registers and the things beside them that it can
change, whatever the block holds.
-/
namespace Sys2Proof.Machine

set_option Elab.async false

/-- What `crnSend` can change. -/
def Feet.crnSend : Mask := Feet.xsend

theorem crnSend_only (p sq line : Nat) (op : Op) (x : List Nat) :
    Only Feet.crnSend.has (crnSend p sq line op x) := by
  unfold crnSend
  with_reducible repeat' first
    | exact Only.pure _ | exact Only.getM | refine Only.bind ?_ fun _ => ?_
    | exact (xsend_only ..).le (by decide +kernel)

/-- What `crnWaiter` can change. -/
def Feet.crnWaiter : Mask := Feet.xsend

theorem crnWaiter_only (p sq : Nat) (w : Waiting) :
    Only Feet.crnWaiter.has (crnWaiter p sq w) := by
  unfold crnWaiter
  with_reducible repeat' first
    | exact Only.pure _ | exact Only.getM | refine Only.bind ?_ fun _ => ?_
    | exact (xsend_only ..).le (by decide +kernel)

/-- What `crnHand` can change. -/
def Feet.crnHand : Mask := (.of [.OCT_CRN_CNT_RETURN] [.crn] : Mask).plus [Feet.crnSend]

theorem crnHand_only (p line : Nat) (op : Op) (x : List Nat) (settledHead : Bool) :
    Only Feet.crnHand.has (crnHand p line op x settledHead) := by
  simp only [crnHand, getCrn, putCrn]
  with_reducible repeat' first
    | exact Only.pure _ | exact Only.getM | refine Only.bind ?_ fun _ => ?_ | refine Only.onlyIf ?_
    | refine Only.each fun _ _ => ?_ | refine Only.ite ?_ ?_
    | exact Only.incK .OCT_CRN_CNT_RETURN rfl (by decide +kernel) | exact Only.doT .crn rfl (by decide +kernel)
    | exact (crnSend_only ..).le (by decide +kernel) | exact (crnWaiter_only ..).le (by decide +kernel)

/-- What `crnSelf` can change. -/
def Feet.crnSelf : Mask := Feet.crnHand

theorem crnSelf_only (p line : Nat) (w : Waiting) :
    Only Feet.crnSelf.has (crnSelf p line w) := by
  unfold crnSelf
  with_reducible repeat' first
    | exact Only.pure _ | exact Only.getM | refine Only.bind ?_ fun _ => ?_
    | exact (crnHand_only ..).le (by decide +kernel)

/-- What `crnFree` can change. -/
def Feet.crnFree : Mask := (.of [] [.crn] : Mask).plus [Feet.crnSend]

theorem crnFree_only (p line : Nat) :
    Only Feet.crnFree.has (crnFree p line) := by
  simp only [crnFree, getCrn, putCrn]
  with_reducible repeat' first
    | exact Only.pure _ | exact Only.getM | refine Only.bind ?_ fun _ => ?_ | refine Only.ite ?_ ?_
    | exact Only.doT .crn rfl (by decide +kernel) | exact (crnSend_only ..).le (by decide +kernel)

/-- What `crnSnoop` can change. -/
def Feet.crnSnoop : Mask := Feet.xsend

theorem crnSnoop_only (p line : Nat) (w : Waiting) (owner : Nat) :
    Only Feet.crnSnoop.has (crnSnoop p line w owner) := by
  unfold crnSnoop
  with_reducible repeat' first
    | exact Only.pure _ | exact Only.getM | refine Only.bind ?_ fun _ => ?_ | refine Only.ite ?_ ?_
    | exact (xsend_only ..).le (by decide +kernel)

/-- What `crnWrite` can change. -/
def Feet.crnWrite : Mask := (.of [] [.crn] : Mask).plus [Feet.xsend, Feet.sqMiss]

theorem crnWrite_only (p line : Nat) (mask : Option Nat) (data : List Word) (poison : Bool) :
    Only Feet.crnWrite.has (crnWrite p line mask data poison) := by
  simp only [crnWrite, modCrn, putCrn, getCrn]
  with_reducible repeat' first
    | exact Only.pure _ | exact Only.getM | refine Only.bind ?_ fun _ => ?_ | refine Only.ite ?_ ?_
    | exact Only.doT .crn rfl (by decide +kernel) | exact (xsend_only ..).le (by decide +kernel)
    | exact (sqMiss_only ..).le (by decide +kernel) | split

/-- What `crnGrant` can change. -/
def Feet.crnGrant : Mask := (.of [.OCT_CRN_CNT_XFER] [] : Mask).plus [Feet.xsend, Feet.sqInc]

theorem crnGrant_only (p : Nat) (w : Waiting) (c : Crn) :
    Only Feet.crnGrant.has (crnGrant p w c) := by
  unfold crnGrant
  with_reducible repeat' first
    | exact Only.pure _ | exact Only.getM | refine Only.bind ?_ fun _ => ?_ | refine Only.onlyIf ?_
    | refine Only.ite ?_ ?_ | exact Only.incK .OCT_CRN_CNT_XFER rfl (by decide +kernel)
    | exact (xsend_only ..).le (by decide +kernel) | exact (sqInc_only ..).le (by decide +kernel) | split

/-- What `crnStep` can change. -/
def Feet.crnStep : Mask := Feet.conflictsAck.plus [Feet.crnHand, Feet.crnGrant]

theorem crnStep_only (p line : Nat) :
    Only Feet.crnStep.has (crnStep p line) := by
  simp only [crnStep, modCrn, getCrn, putCrn]
  with_reducible repeat' first
    | exact Only.pure _ | exact Only.getM | refine Only.bind ?_ fun _ => ?_ | refine Only.ite ?_ ?_
    | exact Only.doT .crn rfl (by decide +kernel) | exact (sqInc_only ..).le (by decide +kernel)
    | exact (conflictsAck_only ..).le (by decide +kernel) | exact (crnHand_only ..).le (by decide +kernel)
    | exact (crnFree_only ..).le (by decide +kernel) | exact (crnGrant_only ..).le (by decide +kernel) | split

/-- What `crnGranting` can change. -/
def Feet.crnGranting : Mask := Feet.recSend.plus [Feet.crnWrite, Feet.crnStep]

theorem crnGranting_only (p line : Nat) (kept : Bool) :
    Only Feet.crnGranting.has (crnGranting p line kept) := by
  simp only [crnGranting, modCrn, getCrn, putCrn]
  with_reducible repeat' first
    | exact Only.pure _ | exact Only.getM | refine Only.bind ?_ fun _ => ?_ | refine Only.ite ?_ ?_
    | exact Only.doT .crn rfl (by decide +kernel) | exact (recSend_only ..).le (by decide +kernel)
    | exact (crnWrite_only ..).le (by decide +kernel) | exact (crnStep_only ..).le (by decide +kernel) | split

/-- What `crnBounce` can change. -/
def Feet.crnBounce : Mask := (.of [.OCT_CRN_CNT_BOUNCE] [] : Mask).plus [Feet.crnSend]

theorem crnBounce_only (p sq line : Nat) (w : Waiting) (opened : Bool) :
    Only Feet.crnBounce.has (crnBounce p sq line w opened) := by
  unfold crnBounce
  with_reducible repeat' first
    | exact Only.pure _ | exact Only.getM | refine Only.bind ?_ fun _ => ?_ | refine Only.ite ?_ ?_
    | exact Only.incK .OCT_CRN_CNT_BOUNCE rfl (by decide +kernel) | exact (crnSend_only ..).le (by decide +kernel)
    | exact (crnWaiter_only ..).le (by decide +kernel)

/-- What `cornerFwd` can change. -/
def Feet.cornerFwd : Mask := (.of [.OCT_CRN_CNT_FWD] [] : Mask).plus [Feet.crnSelf, Feet.crnBounce]

theorem cornerFwd_only (p sq : Nat) (w : Waiting) (opened : Bool) :
    Only Feet.cornerFwd.has (cornerFwd p sq w opened) := by
  simp only [cornerFwd, putCrn, modCrn, getCrn]
  with_reducible repeat' first
    | exact Only.pure _ | exact Only.getM | refine Only.bind ?_ fun _ => ?_ | refine Only.ite ?_ ?_
    | exact Only.incK .OCT_CRN_CNT_FWD rfl (by decide +kernel) | exact Only.doT .crn rfl (by decide +kernel)
    | exact (crnSelf_only ..).le (by decide +kernel) | exact (crnFree_only ..).le (by decide +kernel)
    | exact (crnSnoop_only ..).le (by decide +kernel) | exact (crnBounce_only ..).le (by decide +kernel) | split

/-- What `cornerWriteback` can change. -/
def Feet.cornerWriteback : Mask := Feet.crnGranting

theorem cornerWriteback_only (p : Nat) (q : Msg) :
    Only Feet.cornerWriteback.has (cornerWriteback p q) := by
  simp only [cornerWriteback, modCrn, getCrn, putCrn]
  with_reducible repeat' first
    | exact Only.pure _ | exact Only.getM | refine Only.bind ?_ fun _ => ?_ | refine Only.onlyIf ?_
    | refine Only.ite ?_ ?_ | exact Only.doT .crn rfl (by decide +kernel)
    | exact (xsend_only ..).le (by decide +kernel) | exact (raise_only ..).le (by decide +kernel)
    | exact (sqInc_only ..).le (by decide +kernel) | exact (crnWrite_only ..).le (by decide +kernel)
    | exact (crnGranting_only ..).le (by decide +kernel)

/-- What `cornerBirsp` can change. -/
def Feet.cornerBirsp : Mask := (.of [.OCT_CRN_CNT_ABSORBED] [] : Mask).plus [Feet.crnGranting]

theorem cornerBirsp_only (p line : Nat) (s : Bool) :
    Only Feet.cornerBirsp.has (cornerBirsp p line s) := by
  simp only [cornerBirsp, putCrn]
  with_reducible repeat' first
    | exact Only.pure _ | exact Only.getM | refine Only.bind ?_ fun _ => ?_ | refine Only.ite ?_ ?_
    | exact Only.incK .OCT_CRN_CNT_ABSORBED rfl (by decide +kernel) | exact Only.doT .crn rfl (by decide +kernel)
    | exact (crnHand_only ..).le (by decide +kernel) | exact (crnFree_only ..).le (by decide +kernel)
    | exact (crnGranting_only ..).le (by decide +kernel)

/-- What `cornerSnoopTimeout` can change. -/
def Feet.cornerSnoopTimeout : Mask := Feet.crnHand

theorem cornerSnoopTimeout_only (p line : Nat) :
    Only Feet.cornerSnoopTimeout.has (cornerSnoopTimeout p line) := by
  simp only [cornerSnoopTimeout, putCrn]
  with_reducible repeat' first
    | exact Only.pure _ | exact Only.getM | refine Only.bind ?_ fun _ => ?_ | refine Only.ite ?_ ?_
    | exact Only.doT .crn rfl (by decide +kernel) | exact (crnHand_only ..).le (by decide +kernel)
    | exact (crnFree_only ..).le (by decide +kernel)

/-- What `crnDown` can change. -/
def Feet.crnDown : Mask := Feet.crnHand

theorem crnDown_only (p line : Nat) :
    Only Feet.crnDown.has (crnDown p line) := by
  simp only [crnDown, getCrn, modCrn, putCrn]
  with_reducible repeat' first
    | exact Only.pure _ | exact Only.getM | refine Only.bind ?_ fun _ => ?_ | refine Only.ite ?_ ?_
    | exact Only.doT .crn rfl (by decide +kernel) | exact (crnHand_only ..).le (by decide +kernel)
    | exact (crnFree_only ..).le (by decide +kernel)

/-- What `crnWritten` can change. -/
def Feet.crnWritten : Mask := Feet.crnStep

theorem crnWritten_only (p line : Nat) :
    Only Feet.crnWritten.has (crnWritten p line) := by
  simp only [crnWritten, modCrn, putCrn, getCrn]
  with_reducible repeat' first
    | exact Only.pure _ | exact Only.getM | refine Only.bind ?_ fun _ => ?_ | refine Only.ite ?_ ?_
    | exact Only.doT .crn rfl (by decide +kernel) | exact (crnStep_only ..).le (by decide +kernel)
    | exact (crnDown_only ..).le (by decide +kernel)

/-- What `cornerWriteDone` can change. -/
def Feet.cornerWriteDone : Mask := Feet.crnWritten

theorem cornerWriteDone_only (p line : Nat) :
    Only Feet.cornerWriteDone.has (cornerWriteDone p line) := by
  simp only [cornerWriteDone, getCrn]
  with_reducible repeat' first
    | exact Only.pure _ | exact Only.getM | refine Only.bind ?_ fun _ => ?_ | refine Only.ite ?_ ?_
    | exact (sqInc_only ..).le (by decide +kernel) | exact (crnWritten_only ..).le (by decide +kernel)

/-- What `cornerMemTimeout` can change. -/
def Feet.cornerMemTimeout : Mask := Feet.raise.plus [Feet.crnWritten]

theorem cornerMemTimeout_only (p line : Nat) :
    Only Feet.cornerMemTimeout.has (cornerMemTimeout p line) := by
  simp only [cornerMemTimeout, getCrn]
  with_reducible repeat' first
    | exact Only.pure _ | exact Only.getM | refine Only.bind ?_ fun _ => ?_ | refine Only.ite ?_ ?_
    | exact (raise_only ..).le (by decide +kernel) | exact (sqInc_only ..).le (by decide +kernel)
    | exact (crnWritten_only ..).le (by decide +kernel)

/-- What `crnFlushed` can change. -/
def Feet.crnFlushed : Mask := Feet.raise.plus [Feet.crnWritten]

theorem crnFlushed_only (p line : Nat) :
    Only Feet.crnFlushed.has (crnFlushed p line) := by
  simp only [crnFlushed, getCrn]
  with_reducible repeat' first
    | exact Only.pure _ | exact Only.getM | refine Only.bind ?_ fun _ => ?_ | refine Only.ite ?_ ?_
    | exact (raise_only ..).le (by decide +kernel) | exact (sqInc_only ..).le (by decide +kernel)
    | exact (crnWritten_only ..).le (by decide +kernel)

/-- What `cornerAck` can change. -/
def Feet.cornerAck : Mask := Feet.crnFree

theorem cornerAck_only (p line : Nat) :
    Only Feet.cornerAck.has (cornerAck p line) := by
  simp only [cornerAck, modCrn, getCrn, putCrn]
  with_reducible repeat' first
    | exact Only.pure _ | exact Only.getM | refine Only.bind ?_ fun _ => ?_ | refine Only.ite ?_ ?_
    | exact Only.doT .crn rfl (by decide +kernel) | exact (crnFree_only ..).le (by decide +kernel)

/-- What `crnPortDown` can change. -/
def Feet.crnPortDown : Mask := Feet.crnDown

theorem crnPortDown_only (p : Nat) :
    Only Feet.crnPortDown.has (crnPortDown p) := by
  simp only [crnPortDown, putCrn]
  with_reducible repeat' first
    | exact Only.pure _ | exact Only.getM | refine Only.bind ?_ fun _ => ?_ | refine Only.each fun _ _ => ?_
    | refine Only.ite ?_ ?_ | exact Only.doT .crn rfl (by decide +kernel)
    | exact (crnFree_only ..).le (by decide +kernel) | exact (crnDown_only ..).le (by decide +kernel)

/-- What `crnAgentLost` can change. -/
def Feet.crnAgentLost : Mask := (.of [] [.crn] : Mask).plus [Feet.crnSend]

theorem crnAgentLost_only (a : Nat) :
    Only Feet.crnAgentLost.has (crnAgentLost a) := by
  simp only [crnAgentLost, putCrn]
  with_reducible repeat' first
    | exact Only.pure _ | exact Only.getM | refine Only.bind ?_ fun _ => ?_ | refine Only.onlyIf ?_
    | refine Only.each fun _ _ => ?_ | exact Only.doT .crn rfl (by decide +kernel)
    | exact (crnSend_only ..).le (by decide +kernel)

/-- What `crnCommit` can change. -/
def Feet.crnCommit : Mask := Feet.crnStep

theorem crnCommit_only (sq upto : Nat) :
    Only Feet.crnCommit.has (crnCommit sq upto) := by
  simp only [crnCommit, putCrn]
  with_reducible repeat' first
    | exact Only.pure _ | exact Only.getM | refine Only.bind ?_ fun _ => ?_ | refine Only.each fun _ _ => ?_
    | refine Only.ite ?_ ?_ | exact Only.doT .crn rfl (by decide +kernel)
    | exact (crnStep_only ..).le (by decide +kernel)

/-- What `crnCommitsLost` can change. -/
def Feet.crnCommitsLost : Mask := (.of [.TWN_CNT] [] : Mask).plus [Feet.crnStep]

theorem crnCommitsLost_only : Only Feet.crnCommitsLost.has crnCommitsLost := by
  simp only [crnCommitsLost, putCrn]
  with_reducible repeat' first
    | exact Only.pure _ | exact Only.getM | refine Only.bind ?_ fun _ => ?_ | refine Only.each fun _ _ => ?_
    | refine Only.ite ?_ ?_ | exact Only.incK .TWN_CNT rfl (by decide +kernel)
    | exact Only.doT .crn rfl (by decide +kernel) | exact (crnStep_only ..).le (by decide +kernel)

/-- What `mirrorCommit` can change. -/
def Feet.mirrorCommit : Mask := Feet.sqCommit.plus [Feet.crnCommit]

theorem mirrorCommit_only (l : List (Nat × Nat)) :
    Only Feet.mirrorCommit.has (mirrorCommit l) := by
  unfold mirrorCommit
  with_reducible repeat' first
    | exact Only.pure _ | exact Only.getM | refine Only.bind ?_ fun _ => ?_ | refine Only.each fun _ _ => ?_
    | refine Only.ite ?_ ?_ | exact (sqCommit_only ..).le (by decide +kernel)
    | exact (crnCommit_only ..).le (by decide +kernel)

/-- What `commitsLost` can change. -/
def Feet.commitsLost : Mask := Feet.sqCommitsLost.plus [Feet.crnCommitsLost]

theorem commitsLost_only : Only Feet.commitsLost.has commitsLost := by
  unfold commitsLost
  with_reducible repeat' first
    | exact Only.pure _ | exact Only.getM | refine Only.bind ?_ fun _ => ?_
    | exact (sqCommitsLost_only ..).le (by decide +kernel) | exact (crnCommitsLost_only ..).le (by decide +kernel)

/-- What `biConflict` can change. -/
def Feet.biConflict : Mask := (.of [] [.bic] : Mask).plus [Feet.emit]

theorem biConflict_only (p a : Nat) (addr tag : Nat) :
    Only Feet.biConflict.has (biConflict p a addr tag) := by
  simp only [biConflict, modBic, getBic, putBic]
  with_reducible repeat' first
    | exact Only.pure _ | exact Only.getM | refine Only.bind ?_ fun _ => ?_ | refine Only.ite ?_ ?_
    | exact Only.doT .bic rfl (by decide +kernel) | exact (emit_only ..).le (by decide +kernel)

/-- What `crnEffect` can change. -/
def Feet.crnEffect : Mask := .of [.OCT_CRN_CNT_FWD, .OCT_CRN_CNT_XFER, .OCT_CRN_CNT_RETURN, .OCT_CRN_CNT_BOUNCE,
  .OCT_CRN_CNT_ABSORBED] []

theorem crnEffect_only (k : RegKind) (o cmd : Nat) : Only Feet.crnEffect.has (crnEffect k o cmd) := by
  unfold crnEffect
  exact Only.ite (Only.each fun c hc => Only.rstMem hc (by decide +kernel)) (Only.pure _)

end Sys2Proof.Machine
end

