-- ==== Sys2Proof/Laws/FeetPlaza.lean ====
section
/-!
SUPPORT. The footprint of every operation of Machine/Plaza.lean: the registers and the things beside them that it can
change, whatever the block holds.
-/
namespace Sys2Proof.Machine

set_option Elab.async false

/-- What `tmInc` can change. -/
def Feet.tmInc : Mask := .of [.TM_CNT] []

theorem tmInc_only (c : Nat) :
    Only Feet.tmInc.has (tmInc c) := by
  unfold tmInc
  with_reducible repeat' first
    | exact Only.pure _ | exact Only.getM | refine Only.bind ?_ fun _ => ?_
    | exact Only.incK .TM_CNT rfl (by decide +kernel)

/-- What `slotTimeoutEv` can change. -/
def Feet.slotTimeoutEv : Mask := (.of [] [.slotTmo] : Mask).plus [Feet.raise]

theorem slotTimeoutEv_only (s : Nat) :
    Only Feet.slotTimeoutEv.has (slotTimeoutEv s) := by
  simp only [slotTimeoutEv, getSlotTmo, putSlotTmo]
  with_reducible repeat' first
    | exact Only.pure _ | exact Only.getM | refine Only.bind ?_ fun _ => ?_ | refine Only.onlyIf ?_
    | exact Only.doT .slotTmo rfl (by decide +kernel) | exact (raise_only ..).le (by decide +kernel)

/-- What `bobRetire` can change. -/
def Feet.bobRetire : Mask := (.of [.TM_STATUS, .INT_RETIRE_STATUS] [.pfree, .retire, .retFull] : Mask).plus
  [Feet.raise]

theorem bobRetire_only (b : Nat) :
    Only Feet.bobRetire.has (bobRetire b) := by
  simp only [bobRetire, putRetire, modPfree, getPfree, putPfree, putRetFull]
  with_reducible repeat' first
    | exact Only.pure _ | exact Only.getM | refine Only.bind ?_ fun _ => ?_ | refine Only.onlyIf ?_
    | refine Only.ite ?_ ?_ | exact Only.incK .INT_RETIRE_STATUS rfl (by decide +kernel)
    | exact Only.subK .TM_STATUS rfl (by decide +kernel) | exact Only.wrK .INT_RETIRE_STATUS rfl (by decide +kernel)
    | exact Only.doT .pfree rfl (by decide +kernel) | exact Only.doT .retire rfl (by decide +kernel)
    | exact Only.doT .retFull rfl (by decide +kernel) | exact (raise_only ..).le (by decide +kernel)

/-- What `bobFree` can change. -/
def Feet.bobFree : Mask := Feet.bobRetire

theorem bobFree_only (l : List Nat) :
    Only Feet.bobFree.has (bobFree l) := by
  simp only [bobFree, modPfree, getPfree, putPfree]
  with_reducible repeat' first
    | exact Only.pure _ | exact Only.getM | refine Only.bind ?_ fun _ => ?_ | refine Only.onlyIf ?_
    | refine Only.each fun _ _ => ?_ | exact Only.doT .pfree rfl (by decide +kernel)
    | exact (bobRetire_only ..).le (by decide +kernel)

/-- What `bobNext` can change. -/
def Feet.bobNext : Mask := .of [] [.pfree]

theorem bobNext_only : Only Feet.bobNext.has bobNext := by
  simp only [bobNext, putPfree]
  with_reducible repeat' first
    | exact Only.pure _ | exact Only.getM | refine Only.bind ?_ fun _ => ?_ | refine Only.ite ?_ ?_
    | exact Only.doT .pfree rfl (by decide +kernel)

/-- What `slotDiscard` can change. -/
def Feet.slotDiscard : Mask := (.of [.TM_SRING_CNT] [.srx] : Mask).plus [Feet.raise]

theorem slotDiscard_only (s slot : Nat) (overrun : Bool) :
    Only Feet.slotDiscard.has (slotDiscard s slot overrun) := by
  simp only [slotDiscard, getSrx, putSrx]
  with_reducible repeat' first
    | exact Only.pure _ | exact Only.getM | refine Only.bind ?_ fun _ => ?_ | refine Only.onlyIf ?_
    | exact Only.incK .TM_SRING_CNT rfl (by decide +kernel) | exact Only.doT .srx rfl (by decide +kernel)
    | exact (raise_only ..).le (by decide +kernel)

/-- What `slotWrite` can change. -/
def Feet.slotWrite : Mask := (.of [] [.slot] : Mask).plus [Feet.tmInc, Feet.bobFree, Feet.slotDiscard]

theorem slotWrite_only (s slot line mask : Nat) (data : List Word) (poison : Bool) :
    Only Feet.slotWrite.has (slotWrite s slot line mask data poison) := by
  simp only [slotWrite, putSlot]
  with_reducible repeat' first
    | exact Only.pure _ | exact Only.getM | refine Only.bind ?_ fun _ => ?_ | refine Only.onlyIf ?_
    | refine Only.ite ?_ ?_ | exact Only.addSatK .TM_SRING_CNT rfl (by decide +kernel)
    | exact Only.doT .slot rfl (by decide +kernel) | exact (tmInc_only ..).le (by decide +kernel)
    | exact (bobFree_only ..).le (by decide +kernel) | exact (bobNext_only ..).le (by decide +kernel)
    | exact (slotDiscard_only ..).le (by decide +kernel)

/-- What `ldAnswer` can change. -/
def Feet.ldAnswer : Mask := Feet.xsend

theorem ldAnswer_only (v tag addr : Nat) (read : Bool) :
    Only Feet.ldAnswer.has (ldAnswer v tag addr read) := by
  unfold ldAnswer
  with_reducible repeat' first
    | exact Only.pure _ | exact Only.getM | refine Only.bind ?_ fun _ => ?_ | refine Only.ite ?_ ?_
    | exact (xsend_only ..).le (by decide +kernel)

/-- What `ldMiss` can change. -/
def Feet.ldMiss : Mask := (.of [.TM_CNT] [] : Mask).plus [Feet.countFirst, Feet.ldAnswer]

theorem ldMiss_only (v dpa tag : Nat) (read : Bool) :
    Only Feet.ldMiss.has (ldMiss v dpa tag read) := by
  unfold ldMiss
  with_reducible repeat' first
    | exact Only.pure _ | exact Only.getM | refine Only.bind ?_ fun _ => ?_
    | exact countFirst_only _ (by decide +kernel) (k := .TM_CNT) rfl (by decide +kernel)
    | exact (ldAnswer_only ..).le (by decide +kernel)

/-- What `slotLineWrite` can change. -/
def Feet.slotLineWrite : Mask := Feet.slotWrite.plus [Feet.ldMiss]

theorem slotLineWrite_only (v dpa tag mask : Nat) (data : List Word) (poison : Bool) :
    Only Feet.slotLineWrite.has (slotLineWrite v dpa tag mask data poison) := by
  unfold slotLineWrite
  with_reducible repeat' first
    | exact Only.pure _ | exact Only.getM | refine Only.bind ?_ fun _ => ?_
    | exact (slotWrite_only ..).le (by decide +kernel) | exact (ldAnswer_only ..).le (by decide +kernel)
    | exact (ldMiss_only ..).le (by decide +kernel) | split

/-- What `slotLost` can change. -/
def Feet.slotLost : Mask := (.of [] [.slot, .srx] : Mask).plus [Feet.slotTimeoutEv, Feet.bobFree]

theorem slotLost_only (s slot : Nat) :
    Only Feet.slotLost.has (slotLost s slot) := by
  simp only [slotLost, getSlot, putSlot, modSrx, getSrx, putSrx]
  with_reducible repeat' first
    | exact Only.pure _ | exact Only.getM | refine Only.bind ?_ fun _ => ?_
    | exact Only.doT .slot rfl (by decide +kernel) | exact Only.doT .srx rfl (by decide +kernel)
    | exact (slotTimeoutEv_only ..).le (by decide +kernel) | exact (bobFree_only ..).le (by decide +kernel)

/-- What `slotFillTimeout` can change. -/
def Feet.slotFillTimeout : Mask := (.of [.TM_SRING_CNT] [] : Mask).plus [Feet.slotLost]

theorem slotFillTimeout_only (s slot : Nat) :
    Only Feet.slotFillTimeout.has (slotFillTimeout s slot) := by
  unfold slotFillTimeout
  with_reducible repeat' first
    | exact Only.pure _ | exact Only.getM | refine Only.bind ?_ fun _ => ?_ | refine Only.ite ?_ ?_
    | exact Only.incK .TM_SRING_CNT rfl (by decide +kernel) | exact (slotLost_only ..).le (by decide +kernel)

/-- What `slotHeadTimeout` can change. -/
def Feet.slotHeadTimeout : Mask := (.of [.TM_SRING_CNT] [] : Mask).plus [Feet.slotLost]

theorem slotHeadTimeout_only (s : Nat) :
    Only Feet.slotHeadTimeout.has (slotHeadTimeout s) := by
  unfold slotHeadTimeout
  with_reducible repeat' first
    | exact Only.pure _ | exact Only.getM | refine Only.bind ?_ fun _ => ?_ | refine Only.ite ?_ ?_
    | exact Only.incK .TM_SRING_CNT rfl (by decide +kernel) | exact (slotLost_only ..).le (by decide +kernel)

/-- What `returnRecord` can change. -/
def Feet.returnRecord : Mask := (.of [] [.srx] : Mask).plus [Feet.xsend]

theorem returnRecord_only (s : Nat) :
    Only Feet.returnRecord.has (returnRecord s) := by
  simp only [returnRecord, putSrx]
  with_reducible repeat' first
    | exact Only.pure _ | exact Only.getM | refine Only.bind ?_ fun _ => ?_ | refine Only.ite ?_ ?_
    | exact Only.doT .srx rfl (by decide +kernel) | exact (xsend_only ..).le (by decide +kernel)

/-- What `slotReturn` can change. -/
def Feet.slotReturn : Mask := (.of [.TM_SRING_STATUS] [.slot] : Mask).plus [Feet.returnRecord]

theorem slotReturn_only (s : Nat) :
    Only Feet.slotReturn.has (slotReturn s) := by
  simp only [slotReturn, putSlot, modSrx, putSrx, getSrx]
  with_reducible repeat' first
    | exact Only.pure _ | exact Only.getM | refine Only.bind ?_ fun _ => ?_ | refine Only.onlyIf ?_
    | refine Only.ite ?_ ?_ | exact Only.addWrapK .TM_SRING_STATUS rfl (by decide +kernel)
    | exact Only.doT .slot rfl (by decide +kernel) | exact Only.doT .srx rfl (by decide +kernel)
    | exact (returnRecord_only ..).le (by decide +kernel)

/-- What `flowPut` can change. -/
def Feet.flowPut : Mask := .of [.FLW_W0, .FLW_W1] []

theorem flowPut_only (f tc tp last : Nat) :
    Only Feet.flowPut.has (flowPut f tc tp last) := by
  unfold flowPut
  with_reducible repeat' first
    | exact Only.pure _ | exact Only.getM | refine Only.bind ?_ fun _ => ?_
    | exact Only.wrK .FLW_W0 rfl (by decide +kernel) | exact Only.wrK .FLW_W1 rfl (by decide +kernel)

/-- What `meterFlow` can change. -/
def Feet.meterFlow : Mask := Feet.flowPut

theorem meterFlow_only (f len colour : Nat) :
    Only Feet.meterFlow.has (meterFlow f len colour) := by
  unfold meterFlow
  with_reducible repeat' first
    | exact Only.pure _ | exact Only.getM | refine Only.bind ?_ fun _ => ?_
    | exact (flowPut_only ..).le (by decide +kernel)

/-- What `meterSweep` can change. -/
def Feet.meterSweep : Mask := Feet.flowPut

theorem meterSweep_only (f : Nat) :
    Only Feet.meterSweep.has (meterSweep f) := by
  unfold meterSweep
  with_reducible repeat' first
    | exact Only.pure _ | exact Only.getM | refine Only.bind ?_ fun _ => ?_ | refine Only.ite ?_ ?_
    | exact (flowPut_only ..).le (by decide +kernel)

/-- What `queueWake` can change. -/
def Feet.queueWake : Mask := .of [.TM_QSCH_ST] [.act]

theorem queueWake_only (q : Nat) :
    Only Feet.queueWake.has (queueWake q) := by
  simp only [queueWake, putAct, modAct, getAct]
  with_reducible repeat' first
    | exact Only.pure _ | exact Only.getM | refine Only.bind ?_ fun _ => ?_ | refine Only.ite ?_ ?_
    | exact Only.wrK .TM_QSCH_ST rfl (by decide +kernel) | exact Only.doT .act rfl (by decide +kernel) | split

/-- What `queueIdle` can change. -/
def Feet.queueIdle : Mask := .of [.TM_QSCH_ST, .TM_BND_ST, .TM_CH_ST] [.act, .bmove]

theorem queueIdle_only (q : Nat) :
    Only Feet.queueIdle.has (queueIdle q) := by
  simp only [queueIdle, modAct, putAct, getAct, modBmove, getBmove, putBmove]
  with_reducible repeat' first
    | exact Only.pure _ | exact Only.getM | refine Only.bind ?_ fun _ => ?_ | refine Only.ite ?_ ?_
    | exact Only.wrK .TM_BND_ST rfl (by decide +kernel) | exact Only.wrK .TM_CH_ST rfl (by decide +kernel)
    | exact Only.wrK .TM_QSCH_ST rfl (by decide +kernel) | exact Only.doT .act rfl (by decide +kernel)
    | exact Only.doT .bmove rfl (by decide +kernel) | split

/-- What `spillAccess` can change. -/
def Feet.spillAccess : Mask := Feet.xsend.plus [Feet.spillLanded, Feet.sqMiss]

theorem spillAccess_only (line : Nat) (write : Option (List Word × Bool)) :
    Only Feet.spillAccess.has (spillAccess line write) := by
  unfold spillAccess
  with_reducible repeat' first
    | exact Only.pure _ | exact Only.getM | refine Only.bind ?_ fun _ => ?_ | refine Only.onlyIf ?_
    | exact (xsend_only ..).le (by decide +kernel) | exact (spillLanded_only ..).le (by decide +kernel)
    | exact (sqMiss_only ..).le (by decide +kernel) | split

/-- What `spillPut` can change. -/
def Feet.spillPut : Mask := Feet.bobFree.plus [Feet.spillAccess]

theorem spillPut_only (q : Nat) (p : Pkt) :
    Only Feet.spillPut.has (spillPut q p) := by
  simp only [spillPut, modTq, getTq, putTq]
  with_reducible repeat' first
    | exact Only.pure _ | exact Only.getM | refine Only.bind ?_ fun _ => ?_ | refine Only.onlyIf ?_
    | refine Only.each fun _ _ => ?_ | refine Only.ite ?_ ?_
    | exact Only.incK .TM_SPILL_STATUS rfl (by decide +kernel) | exact Only.doT .tq rfl (by decide +kernel)
    | exact (raise_only ..).le (by decide +kernel) | exact (pageTake_only ..).le (by decide +kernel)
    | exact (bobFree_only ..).le (by decide +kernel) | exact (spillAccess_only ..).le (by decide +kernel)

/-- What `spillAsk` can change. -/
def Feet.spillAsk : Mask := (.of [] [.freeCtr] : Mask).plus [Feet.spillAccess]

theorem spillAsk_only (c : Nat) :
    Only Feet.spillAsk.has (spillAsk c) := by
  simp only [spillAsk, putPush]
  with_reducible repeat' first
    | exact Only.pure _ | exact Only.getM | refine Only.bind ?_ fun _ => ?_ | refine Only.onlyIf ?_
    | refine Only.each fun _ _ => ?_ | exact Only.free _ (by decide +kernel)
    | exact Only.doT .push rfl (by decide +kernel) | exact (spillAccess_only ..).le (by decide +kernel) | split

/-- What `enqDrop` can change. -/
def Feet.enqDrop : Mask := (.of [.TM_QSTAT] [.srx] : Mask).plus [Feet.pmuCount, Feet.tmInc, Feet.bobFree]

theorem enqDrop_only (s c : Nat) (q : Option Nat) (bobs : List Nat) :
    Only Feet.enqDrop.has (enqDrop s c q bobs) := by
  simp only [enqDrop, modSrx, getSrx, putSrx]
  with_reducible repeat' first
    | exact Only.pure _ | exact Only.getM | refine Only.bind ?_ fun _ => ?_
    | exact Only.incK .TM_QSTAT rfl (by decide +kernel) | exact Only.doT .srx rfl (by decide +kernel)
    | exact (pmuCount_only ..).le (by decide +kernel) | exact (tmInc_only ..).le (by decide +kernel)
    | exact (bobFree_only ..).le (by decide +kernel) | split

/-- What `docketInvalid` can change. -/
def Feet.docketInvalid : Mask := (.of [] [.freeCtr] : Mask).plus [Feet.enqDrop]

theorem docketInvalid_only (s slot c : Nat) (bobs : List Nat) :
    Only Feet.docketInvalid.has (docketInvalid s slot c bobs) := by
  unfold docketInvalid
  with_reducible repeat' first
    | exact Only.pure _ | exact Only.getM | refine Only.bind ?_ fun _ => ?_ | refine Only.onlyIf ?_
    | exact Only.free _ (by decide +kernel) | exact (raise_only ..).le (by decide +kernel)
    | exact (enqDrop_only ..).le (by decide +kernel)

/-- What `wredDrop` can change. -/
def Feet.wredDrop : Mask := .of [] [.freeCtr]

theorem wredDrop_only (m : Mach) (p avg : Nat) :
    Only Feet.wredDrop.has (wredDrop m p avg) := by
  unfold wredDrop
  with_reducible repeat' first
    | exact Only.pure _ | exact Only.getM | refine Only.bind ?_ fun _ => ?_ | refine Only.ite ?_ ?_
    | exact Only.free _ (by decide +kernel)

/-- What `enqLink` can change. -/
def Feet.enqLink : Mask := (.of [.TM_QOCC] [.srx] : Mask).plus [Feet.tmInc, Feet.queueWake, Feet.spillPut]

theorem enqLink_only (q : Nat) (p : Pkt) (spill : Bool) :
    Only Feet.enqLink.has (enqLink q p spill) := by
  simp only [enqLink, modTq, getTq, putTq, modSrx, getSrx, putSrx]
  with_reducible repeat' first
    | exact Only.pure _ | exact Only.getM | refine Only.bind ?_ fun _ => ?_ | refine Only.onlyIf ?_
    | refine Only.ite ?_ ?_ | exact Only.subK .TM_STATUS rfl (by decide +kernel)
    | exact Only.addSatK .TM_QOCC rfl (by decide +kernel) | exact Only.incK .TM_QOCC rfl (by decide +kernel)
    | exact Only.doT .srx rfl (by decide +kernel) | exact Only.doT .tq rfl (by decide +kernel)
    | exact (pmuCount_only ..).le (by decide +kernel) | exact (tmInc_only ..).le (by decide +kernel)
    | exact (queueWake_only ..).le (by decide +kernel) | exact (spillPut_only ..).le (by decide +kernel)

/-- What `admitPkt` can change. -/
def Feet.admitPkt : Mask := Feet.enqDrop.plus [Feet.wredDrop, Feet.enqLink]

theorem admitPkt_only (s : Nat) (p : Pkt) :
    Only Feet.admitPkt.has (admitPkt s p) := by
  unfold admitPkt
  with_reducible repeat' first
    | exact Only.pure _ | exact Only.getM | refine Only.bind ?_ fun _ => ?_ | refine Only.onlyIf ?_
    | refine Only.ite ?_ ?_ | exact Only.wrK .TM_QSTAT rfl (by decide +kernel)
    | exact Only.free _ (by decide +kernel) | exact (raise_only ..).le (by decide +kernel)
    | exact (enqDrop_only ..).le (by decide +kernel) | exact (wredDrop_only ..).le (by decide +kernel)
    | exact (enqLink_only ..).le (by decide +kernel)

/-- What `enqueue` can change. -/
def Feet.enqueue : Mask := (.of [] [.slot] : Mask).plus [Feet.meterFlow, Feet.admitPkt]

theorem enqueue_only (s : Nat) :
    Only Feet.enqueue.has (enqueue s) := by
  simp only [enqueue, putSlot]
  with_reducible repeat' first
    | exact Only.pure _ | exact Only.getM | refine Only.bind ?_ fun _ => ?_ | refine Only.ite ?_ ?_
    | exact Only.doT .slot rfl (by decide +kernel) | exact (tmInc_only ..).le (by decide +kernel)
    | exact (bobFree_only ..).le (by decide +kernel) | exact (meterFlow_only ..).le (by decide +kernel)
    | exact (enqDrop_only ..).le (by decide +kernel) | exact (docketInvalid_only ..).le (by decide +kernel)
    | exact (admitPkt_only ..).le (by decide +kernel)

/-- What `pktFree` can change. -/
def Feet.pktFree : Mask := (.of [.TM_QOCC] [] : Mask).plus [Feet.bobFree]

theorem pktFree_only (p : Pkt) :
    Only Feet.pktFree.has (pktFree p) := by
  unfold pktFree
  with_reducible repeat' first
    | exact Only.pure _ | exact Only.getM | refine Only.bind ?_ fun _ => ?_ | refine Only.onlyIf ?_
    | exact Only.subK .TM_QOCC rfl (by decide +kernel) | exact Only.addSatK .TM_STATUS rfl (by decide +kernel)
    | exact (bobFree_only ..).le (by decide +kernel)

/-- What `spillEnds` can change. -/
def Feet.spillEnds : Mask := .of [.TM_SPILL_STATUS] [.tq]

theorem spillEnds_only (q : Nat) :
    Only Feet.spillEnds.has (spillEnds q) := by
  simp only [spillEnds, getTq, putTq]
  with_reducible repeat' first
    | exact Only.pure _ | exact Only.getM | refine Only.bind ?_ fun _ => ?_ | refine Only.ite ?_ ?_
    | exact Only.subK .TM_SPILL_STATUS rfl (by decide +kernel) | exact Only.doT .tq rfl (by decide +kernel)

/-- What `queueDrop` can change. -/
def Feet.queueDrop : Mask := Feet.pageLeave

theorem queueDrop_only (q : Nat) :
    Only Feet.queueDrop.has (queueDrop q) := by
  simp only [queueDrop, getTq, modTq, putTq]
  with_reducible repeat' first
    | exact Only.pure _ | exact Only.getM | refine Only.bind ?_ fun _ => ?_ | refine Only.each fun _ _ => ?_
    | exact Only.doT .tq rfl (by decide +kernel) | exact (pageLeave_only ..).le (by decide +kernel)
    | exact (spillEnds_only ..).le (by decide +kernel)

/-- What `flushQueue` can change. -/
def Feet.flushQueue : Mask := (.of [.TM_CMD_STATUS, .TM_CNT] [] : Mask).plus [Feet.queueIdle, Feet.pktFree,
  Feet.queueDrop]

theorem flushQueue_only (q : Nat) :
    Only Feet.flushQueue.has (flushQueue q) := by
  unfold flushQueue
  with_reducible repeat' first
    | exact Only.pure _ | exact Only.getM | refine Only.bind ?_ fun _ => ?_ | refine Only.onlyIf ?_
    | refine Only.each fun _ _ => ?_ | exact Only.wrK .TM_CMD_STATUS rfl (by decide +kernel)
    | exact Only.addSatK .TM_CNT rfl (by decide +kernel) | exact (queueIdle_only ..).le (by decide +kernel)
    | exact (pktFree_only ..).le (by decide +kernel) | exact (queueDrop_only ..).le (by decide +kernel)

/-- What `rxPut` can change. -/
def Feet.rxPut : Mask := (.of [.TM_RXB1, .RNG_IDX, .RNG_CNT] [] : Mask).plus [Feet.ringIrq]

theorem rxPut_only (r cls steer : Nat) (p : Pkt) (mc : Bool) :
    Only Feet.rxPut.has (rxPut r cls steer p mc) := by
  simp only [rxPut, modRing, getRing, putRing]
  with_reducible repeat' first
    | exact Only.pure _ | exact Only.getM | refine Only.bind ?_ fun _ => ?_ | refine Only.each fun _ _ => ?_
    | refine Only.ite ?_ ?_ | exact Only.addWrapK .RNG_IDX rfl (by decide +kernel)
    | exact Only.addWrapK .TM_RXB1 rfl (by decide +kernel) | exact Only.incK .RNG_CNT rfl (by decide +kernel)
    | exact Only.doT .ring rfl (by decide +kernel) | exact (xsend_only ..).le (by decide +kernel)
    | exact (ringIrq_only ..).le (by decide +kernel)

/-- What `queueCut` can change. -/
def Feet.queueCut : Mask := (.of [.TM_CNT, .TM_QOCC, .INT_LEAKED] [] : Mask).plus [Feet.queueIdle, Feet.queueDrop]

theorem queueCut_only (q extra : Nat) :
    Only Feet.queueCut.has (queueCut q extra) := by
  unfold queueCut
  with_reducible repeat' first
    | exact Only.pure _ | exact Only.getM | refine Only.bind ?_ fun _ => ?_ | refine Only.onlyIf ?_
    | refine Only.ite ?_ ?_ | exact Only.addSatK .INT_LEAKED rfl (by decide +kernel)
    | exact Only.addSatK .TM_CNT rfl (by decide +kernel) | exact Only.wrK .TM_QOCC rfl (by decide +kernel)
    | exact (queueIdle_only ..).le (by decide +kernel) | exact (queueDrop_only ..).le (by decide +kernel)

/-- What `pushErrors` can change. -/
def Feet.pushErrors : Mask := (.of [] [.retire] : Mask).plus [Feet.memPoisoned, Feet.memUncorrectable,
  Feet.memCorrected, Feet.queueCut]

theorem pushErrors_only (c : Nat) (p : Pkt) (fixed : List Nat) (bad : List (Nat × Nat × Nat)) :
    Only Feet.pushErrors.has (pushErrors c p fixed bad) := by
  simp only [pushErrors, putRetire]
  with_reducible repeat' first
    | exact Only.pure _ | exact Only.getM | refine Only.bind ?_ fun _ => ?_ | refine Only.onlyIf ?_
    | refine Only.each fun _ _ => ?_ | exact Only.doT .retire rfl (by decide +kernel)
    | exact (memPoisoned_only ..).le (by decide +kernel) | exact (memUncorrectable_only ..).le (by decide +kernel)
    | exact (memCorrected_only ..).le (by decide +kernel) | exact (queueCut_only ..).le (by decide +kernel) | split

/-- What `pushStart` can change. -/
def Feet.pushStart : Mask := .of [] [.push]

theorem pushStart_only (c : Nat) :
    Only Feet.pushStart.has (pushStart c) := by
  simp only [pushStart, putPush]
  with_reducible repeat' first
    | exact Only.pure _ | exact Only.getM | refine Only.bind ?_ fun _ => ?_ | refine Only.onlyIf ?_
    | exact Only.doT .push rfl (by decide +kernel) | split

/-- What `egressPush` can change. -/
def Feet.egressPush : Mask := (.of [.TM_CHAN_EGR1] [] : Mask).plus [Feet.spillAsk, Feet.pktFree, Feet.rxPut,
  Feet.pushErrors]

theorem egressPush_only (c : Nat) (fixed : List Nat) (bad : List (Nat × Nat × Nat)) :
    Only Feet.egressPush.has (egressPush c fixed bad) := by
  simp only [egressPush, putPush]
  with_reducible repeat' first
    | exact Only.pure _ | exact Only.getM | refine Only.bind ?_ fun _ => ?_ | refine Only.onlyIf ?_
    | refine Only.each fun _ _ => ?_ | refine Only.ite ?_ ?_ | exact Only.incK .RNG_CNT rfl (by decide +kernel)
    | exact Only.wrK .TM_CHAN_EGR1 rfl (by decide +kernel) | exact Only.wrK .TM_CH_ST rfl (by decide +kernel)
    | exact Only.addSatK .TM_CNT rfl (by decide +kernel) | exact Only.doT .push rfl (by decide +kernel)
    | exact (pmuCount_only ..).le (by decide +kernel) | exact (raise_only ..).le (by decide +kernel)
    | exact (tmInc_only ..).le (by decide +kernel) | exact (spillAsk_only ..).le (by decide +kernel)
    | exact (pktFree_only ..).le (by decide +kernel) | exact (rxPut_only ..).le (by decide +kernel)
    | exact (pushErrors_only ..).le (by decide +kernel) | exact (pushStart_only ..).le (by decide +kernel) | split

/-- What `tmFlushed` can change. -/
def Feet.tmFlushed : Mask := Feet.raise.plus [Feet.spillLanded, Feet.tmInc]

theorem tmFlushed_only (q : Msg) :
    Only Feet.tmFlushed.has (tmFlushed q) := by
  unfold tmFlushed
  with_reducible repeat' first
    | exact Only.pure _ | exact Only.getM | refine Only.bind ?_ fun _ => ?_ | refine Only.ite ?_ ?_
    | exact (raise_only ..).le (by decide +kernel) | exact (spillLanded_only ..).le (by decide +kernel)
    | exact (tmInc_only ..).le (by decide +kernel)

/-- What `tmEffect` can change. -/
def Feet.tmEffect : Mask := (.of [.TM_SRING_STATUS, .TM_SRING_CNT, .TM_CH_PKTS, .TM_CH_BYTES, .TM_GATE_CNT] [.srx,
  .slotTmo] : Mask).plus [Feet.flushQueue]

theorem tmEffect_only (k : RegKind) (i old cmd : Nat) :
    Only Feet.tmEffect.has (tmEffect k i old cmd) := by
  simp only [tmEffect, modSrx, getSrx, putSrx, putSlotTmo]
  with_reducible repeat' first
    | exact Only.pure _ | exact Only.getM | refine Only.bind ?_ fun _ => ?_
    | refine Only.onlyIf' fun h => Only.rstMem h (by decide +kernel) | refine Only.onlyIf ?_
    | refine Only.each fun _ _ => ?_ | refine Only.ite ?_ ?_ | exact Only.rstK .TM_CNT (by decide +kernel)
    | exact Only.rstK .TM_SRING_CNT (by decide +kernel) | exact Only.wrK .TM_SRING_STATUS rfl (by decide +kernel)
    | exact Only.doT .srx rfl (by decide +kernel) | exact Only.doT .slotTmo rfl (by decide +kernel)
    | exact (flushQueue_only ..).le (by decide +kernel) | split

end Sys2Proof.Machine
end

