-- ==== Sys2Proof/Laws/FeetSched.lean ====
section
/-!
SUPPORT. The footprint of every operation of Machine/Sched.lean: the registers and the things beside them that it can
change, whatever the block holds.
-/
namespace Sys2Proof.Machine

set_option Elab.async false

/-- What `gateMask` can change. -/
def Feet.gateMask : Mask := .of [.TM_QSCH_ST, .TM_GATE_ST] [.gopen]

theorem gateMask_only (c new : Nat) :
    Only Feet.gateMask.has (gateMask c new) := by
  simp only [gateMask, putGopen]
  with_reducible repeat' first
    | exact Only.pure _ | exact Only.getM | refine Only.bind ?_ fun _ => ?_ | refine Only.onlyIf ?_
    | refine Only.each fun _ _ => ?_ | exact Only.wrK .TM_GATE_ST rfl (by decide +kernel)
    | exact Only.wrK .TM_QSCH_ST rfl (by decide +kernel) | exact Only.doT .gopen rfl (by decide +kernel)

/-- What `gateEnter` can change. -/
def Feet.gateEnter : Mask := Feet.gateMask

theorem gateEnter_only (c : Nat) (first : Bool) :
    Only Feet.gateEnter.has (gateEnter c first) := by
  unfold gateEnter
  with_reducible repeat' first
    | exact Only.pure _ | exact Only.getM | refine Only.bind ?_ fun _ => ?_ | refine Only.onlyIf ?_
    | exact Only.wrK .TM_GATE_ST rfl (by decide +kernel) | exact Only.addWrapK .TM_GATE_ST rfl (by decide +kernel)
    | exact (gateMask_only ..).le (by decide +kernel) | split

/-- What `gateBoundary` can change. -/
def Feet.gateBoundary : Mask := Feet.gateEnter

theorem gateBoundary_only (c : Nat) :
    Only Feet.gateBoundary.has (gateBoundary c) := by
  unfold gateBoundary
  with_reducible repeat' first
    | exact Only.pure _ | exact Only.getM | refine Only.bind ?_ fun _ => ?_ | refine Only.onlyIf ?_
    | exact (gateEnter_only ..).le (by decide +kernel)

/-- What `gateStart` can change. -/
def Feet.gateStart : Mask := (.of [.TM_GATE_CTL] [] : Mask).plus [Feet.gateEnter]

theorem gateStart_only (c : Nat) :
    Only Feet.gateStart.has (gateStart c) := by
  unfold gateStart
  with_reducible repeat' first
    | exact Only.pure _ | exact Only.getM | refine Only.bind ?_ fun _ => ?_ | refine Only.ite ?_ ?_
    | exact Only.wrK .TM_GATE_CTL rfl (by decide +kernel) | exact Only.wrK .TM_GATE_ST rfl (by decide +kernel)
    | exact (gateEnter_only ..).le (by decide +kernel)

/-- What `gateSwitch` can change. -/
def Feet.gateSwitch : Mask := (.of [.TM_GATE_CTL, .TM_GATE_CNT] [] : Mask).plus [Feet.raise, Feet.gateEnter]

theorem gateSwitch_only (c : Nat) :
    Only Feet.gateSwitch.has (gateSwitch c) := by
  unfold gateSwitch
  with_reducible repeat' first
    | exact Only.pure _ | exact Only.getM | refine Only.bind ?_ fun _ => ?_ | refine Only.ite ?_ ?_
    | exact Only.wrK .TM_GATE_CTL rfl (by decide +kernel) | exact Only.incK .TM_GATE_CNT rfl (by decide +kernel)
    | exact (raise_only ..).le (by decide +kernel) | exact (gateEnter_only ..).le (by decide +kernel)

/-- What `shaperRefill` can change. -/
def Feet.shaperRefill : Mask := .of [] [.buck, .shp]

theorem shaperRefill_only (lv i : Nat) :
    Only Feet.shaperRefill.has (shaperRefill lv i) := by
  simp only [shaperRefill, putShp, putBuck]
  with_reducible repeat' first
    | exact Only.pure _ | exact Only.getM | refine Only.bind ?_ fun _ => ?_
    | exact Only.doT .buck rfl (by decide +kernel) | exact Only.doT .shp rfl (by decide +kernel)

/-- What `shapersApply` can change. -/
def Feet.shapersApply : Mask := .of [] [.shp]

theorem shapersApply_only : Only Feet.shapersApply.has shapersApply := by
  simp only [shapersApply, putShp]
  with_reducible repeat' first
    | exact Only.pure _ | exact Only.getM | refine Only.bind ?_ fun _ => ?_ | refine Only.each fun _ _ => ?_
    | exact Only.doT .shp rfl (by decide +kernel) | split

/-- What `shaperCharge` can change. -/
def Feet.shaperCharge : Mask := .of [] [.buck]

theorem shaperCharge_only (lv i len : Nat) :
    Only Feet.shaperCharge.has (shaperCharge lv i len) := by
  simp only [shaperCharge, putBuck]
  with_reducible repeat' first
    | exact Only.pure _ | exact Only.getM | refine Only.bind ?_ fun _ => ?_ | refine Only.ite ?_ ?_
    | exact Only.doT .buck rfl (by decide +kernel)

/-- What `bundlesMove` can change. -/
def Feet.bundlesMove : Mask := .of [.TM_BND_ST] [.act, .bmove]

theorem bundlesMove_only (c : Nat) :
    Only Feet.bundlesMove.has (bundlesMove c) := by
  simp only [bundlesMove, putAct, modBmove, getBmove, putBmove]
  with_reducible repeat' first
    | exact Only.pure _ | exact Only.getM | refine Only.bind ?_ fun _ => ?_ | refine Only.onlyIf ?_
    | refine Only.each fun _ _ => ?_ | exact Only.wrK .TM_BND_ST rfl (by decide +kernel)
    | exact Only.doT .act rfl (by decide +kernel) | exact Only.doT .bmove rfl (by decide +kernel)

/-- What `markNoFit` can change. -/
def Feet.markNoFit : Mask := .of [.TM_QSCH_ST, .TM_GATE_CNT] []

theorem markNoFit_only (v : Nat) :
    Only Feet.markNoFit.has (markNoFit v) := by
  unfold markNoFit
  with_reducible repeat' first
    | exact Only.pure _ | exact Only.getM | refine Only.bind ?_ fun _ => ?_ | refine Only.onlyIf ?_
    | refine Only.each fun _ _ => ?_ | exact Only.wrK .TM_QSCH_ST rfl (by decide +kernel)
    | exact Only.incK .TM_GATE_CNT rfl (by decide +kernel) | split

/-- What `gateLooked` can change. -/
def Feet.gateLooked : Mask := .of [] [.gopen]

theorem gateLooked_only (m : Mach) (v : Nat) :
    Only Feet.gateLooked.has (gateLooked m v) := by
  simp only [gateLooked, putGopen]
  with_reducible repeat' first
    | exact Only.pure _ | exact Only.getM | refine Only.bind ?_ fun _ => ?_ | refine Only.onlyIf ?_
    | refine Only.each fun _ _ => ?_ | exact Only.doT .gopen rfl (by decide +kernel)

/-- What `selectTake` can change. -/
def Feet.selectTake : Mask := (.of [.TM_CH_PKTS, .TM_CH_BYTES, .TM_GATE_CNT] [.wire] : Mask).plus [Feet.queueIdle,
  Feet.spillAsk, Feet.shaperCharge]

theorem selectTake_only (v c p b q : Nat) (dc db dq : Drr) :
    Only Feet.selectTake.has (selectTake v c p b q dc db dq) := by
  simp only [selectTake, modAct, getAct, putAct, putWire, putTq, putPush]
  with_reducible repeat' first
    | exact Only.pure _ | exact Only.getM | refine Only.bind ?_ fun _ => ?_ | refine Only.onlyIf ?_
    | refine Only.each fun _ _ => ?_ | refine Only.ite ?_ ?_ | exact Only.wrK .TM_BND_ST rfl (by decide +kernel)
    | exact Only.wrK .TM_CH_ST rfl (by decide +kernel) | exact Only.wrK .TM_QSCH_ST rfl (by decide +kernel)
    | exact Only.addWrapK .TM_BND_ST rfl (by decide +kernel) | exact Only.incK .TM_CH_PKTS rfl (by decide +kernel)
    | exact Only.addSatK .TM_CH_BYTES rfl (by decide +kernel)
    | exact countFirst_only _ (by decide +kernel) (k := .TM_GATE_CNT) rfl (by decide +kernel)
    | exact Only.doT .tq rfl (by decide +kernel) | exact Only.doT .push rfl (by decide +kernel)
    | exact Only.doT .act rfl (by decide +kernel) | exact Only.doT .wire rfl (by decide +kernel)
    | exact (queueIdle_only ..).le (by decide +kernel) | exact (spillAsk_only ..).le (by decide +kernel)
    | exact (spillEnds_only ..).le (by decide +kernel) | exact (shaperCharge_only ..).le (by decide +kernel)
    | exact (bundlesMove_only ..).le (by decide +kernel) | split

/-- What `select` can change. -/
def Feet.select : Mask := (.of [] [.lane] : Mask).plus [Feet.gateLooked, Feet.selectTake]

theorem select_only (lane : Nat) :
    Only Feet.select.has (select lane) := by
  simp only [select, putLane]
  with_reducible repeat' first
    | exact Only.pure _ | exact Only.getM | refine Only.bind ?_ fun _ => ?_ | refine Only.each fun _ _ => ?_
    | exact Only.doT .lane rfl (by decide +kernel) | exact (markNoFit_only ..).le (by decide +kernel)
    | exact (gateLooked_only ..).le (by decide +kernel) | exact (selectTake_only ..).le (by decide +kernel) | split

/-- What `drrSweep` can change. -/
def Feet.drrSweep : Mask := .of [.TM_QSCH_ST] []

theorem drrSweep_only (q : Nat) :
    Only Feet.drrSweep.has (drrSweep q) := by
  unfold drrSweep
  with_reducible repeat' first
    | exact Only.pure _ | exact Only.getM | refine Only.bind ?_ fun _ => ?_ | refine Only.onlyIf ?_
    | exact Only.wrK .TM_QSCH_ST rfl (by decide +kernel)

/-- What `tbAddend` can change. -/
def Feet.tbAddend : Mask := .of [.TB_ADDEND] []

theorem tbAddend_only : Only Feet.tbAddend.has tbAddend := by
  unfold tbAddend
  with_reducible repeat' first
    | exact Only.pure _ | exact Only.getM | refine Only.bind ?_ fun _ => ?_
    | exact Only.wrK .TB_ADDEND rfl (by decide +kernel)

/-- What `tbSet` can change. -/
def Feet.tbSet : Mask := .of [] [.tb]

theorem tbSet_only (t : Int) :
    Only Feet.tbSet.has (tbSet t) := by
  simp only [tbSet, modTb, getTb, putTb]
  with_reducible repeat' first
    | exact Only.pure _ | exact Only.getM | refine Only.bind ?_ fun _ => ?_
    | exact Only.doT .tb rfl (by decide +kernel)

/-- What `tbStep` can change. -/
def Feet.tbStep : Mask := (.of [] [.tmSub, .wire] : Mask).plus [Feet.raise, Feet.gateEnter, Feet.tbSet]

theorem tbStep_only (d : Int) :
    Only Feet.tbStep.has (tbStep d) := by
  simp only [tbStep, putTmSub, putWire]
  with_reducible repeat' first
    | exact Only.pure _ | exact Only.getM | refine Only.bind ?_ fun _ => ?_ | refine Only.onlyIf ?_
    | refine Only.each fun _ _ => ?_ | exact Only.wrK .TM_QSCH_ST rfl (by decide +kernel)
    | exact Only.doT .tmSub rfl (by decide +kernel) | exact Only.doT .wire rfl (by decide +kernel)
    | exact (raise_only ..).le (by decide +kernel) | exact (gateEnter_only ..).le (by decide +kernel)
    | exact (tbSet_only ..).le (by decide +kernel)

/-- What `ppsDiscipline` can change. -/
def Feet.ppsDiscipline : Mask := (.of [.TB_PPS_CAP, .TB_STATUS, .TB_TOD_CTL] [] : Mask).plus [Feet.tbAddend,
  Feet.tbStep]

theorem ppsDiscipline_only : Only Feet.ppsDiscipline.has ppsDiscipline := by
  simp only [ppsDiscipline, modTb, getTb, putTb]
  with_reducible repeat' first
    | exact Only.pure _ | exact Only.getM | refine Only.bind ?_ fun _ => ?_ | refine Only.ite ?_ ?_
    | exact Only.wrK .TB_PPS_CAP rfl (by decide +kernel) | exact Only.wrK .TB_STATUS rfl (by decide +kernel)
    | exact Only.wrK .TB_TOD_CTL rfl (by decide +kernel) | exact Only.doT .tb rfl (by decide +kernel)
    | exact (tbAddend_only ..).le (by decide +kernel) | exact (tbStep_only ..).le (by decide +kernel)

/-- What `ppsEdge` can change. -/
def Feet.ppsEdge : Mask := (.of [.TB_CNT] [] : Mask).plus [Feet.ppsDiscipline]

theorem ppsEdge_only (short : Bool) :
    Only Feet.ppsEdge.has (ppsEdge short) := by
  unfold ppsEdge
  with_reducible repeat' first
    | exact Only.pure _ | exact Only.getM | refine Only.bind ?_ fun _ => ?_ | refine Only.ite ?_ ?_
    | exact Only.incK .TB_CNT rfl (by decide +kernel) | exact Only.wrK .TB_PPS_CAP rfl (by decide +kernel)
    | exact Only.wrK .TB_STATUS rfl (by decide +kernel) | exact (ppsDiscipline_only ..).le (by decide +kernel)

/-- What `ppsLost` can change. -/
def Feet.ppsLost : Mask := (.of [.TB_STATUS, .TB_CNT] [.tb] : Mask).plus [Feet.raise, Feet.tbAddend]

theorem ppsLost_only : Only Feet.ppsLost.has ppsLost := by
  simp only [ppsLost, modTb, getTb, putTb]
  with_reducible repeat' first
    | exact Only.pure _ | exact Only.getM | refine Only.bind ?_ fun _ => ?_ | refine Only.ite ?_ ?_
    | exact Only.wrK .TB_STATUS rfl (by decide +kernel) | exact Only.incK .TB_CNT rfl (by decide +kernel)
    | exact Only.doT .tb rfl (by decide +kernel) | exact (raise_only ..).le (by decide +kernel)
    | exact (tbAddend_only ..).le (by decide +kernel)

/-- What `tbClock` can change. -/
def Feet.tbClock : Mask := (.of [.TB_STATUS] [.tb] : Mask).plus [Feet.tbAddend]

theorem tbClock_only (lfo : Bool) :
    Only Feet.tbClock.has (tbClock lfo) := by
  simp only [tbClock, modTb, getTb, putTb]
  with_reducible repeat' first
    | exact Only.pure _ | exact Only.getM | refine Only.bind ?_ fun _ => ?_ | refine Only.onlyIf ?_
    | refine Only.ite ?_ ?_ | exact Only.wrK .TB_STATUS rfl (by decide +kernel)
    | exact Only.doT .tb rfl (by decide +kernel) | exact (tbAddend_only ..).le (by decide +kernel)

/-- What `tbTimeNs` can change. -/
def Feet.tbTimeNs : Mask := .of [.TB_TIME_SEC] []

theorem tbTimeNs_only : Only Feet.tbTimeNs.has tbTimeNs := by
  unfold tbTimeNs
  with_reducible repeat' first
    | exact Only.pure _ | exact Only.getM | refine Only.bind ?_ fun _ => ?_
    | exact Only.wrK .TB_TIME_SEC rfl (by decide +kernel)

/-- What `gclNext` can change. -/
def Feet.gclNext : Mask := .of [.TM_GCL_SEL] []

theorem gclNext_only : Only Feet.gclNext.has gclNext := by
  unfold gclNext
  with_reducible repeat' first
    | exact Only.pure _ | exact Only.getM | refine Only.bind ?_ fun _ => ?_
    | exact Only.addWrapK .TM_GCL_SEL rfl (by decide +kernel)

/-- What `gateChange` can change. -/
def Feet.gateChange : Mask := .of [.TM_GATE_CTL, .TM_GATE_SWT] []

theorem gateChange_only (c : Nat) :
    Only Feet.gateChange.has (gateChange c) := by
  unfold gateChange
  with_reducible repeat' first
    | exact Only.pure _ | exact Only.getM | refine Only.bind ?_ fun _ => ?_ | refine Only.ite ?_ ?_
    | exact Only.wrK .TM_GATE_CTL rfl (by decide +kernel) | exact Only.wrK .TM_GATE_SWT rfl (by decide +kernel)

/-- What `schedEffect` can change. -/
def Feet.schedEffect : Mask := (.of [.TM_GCL_DATA, .TB_STATUS, .TB_CNT] [.bmove, .gcl] : Mask).plus [Feet.tbAddend,
  Feet.tbStep, Feet.gclNext, Feet.gateChange]

theorem schedEffect_only (k : RegKind) (i old cmd mask : Nat) :
    Only Feet.schedEffect.has (schedEffect k i old cmd mask) := by
  simp only [schedEffect, modBmove, getBmove, putBmove, putGcl, modTb, getTb, putTb]
  with_reducible repeat' first
    | exact Only.pure _ | exact Only.getM | refine Only.bind ?_ fun _ => ?_ | refine Only.onlyIf ?_
    | exact Only.rstK .TB_CNT (by decide +kernel) | exact Only.rstK .TM_GCL_DATA (by decide +kernel)
    | exact Only.wrK .TB_STATUS rfl (by decide +kernel) | exact Only.doT .tb rfl (by decide +kernel)
    | exact Only.doT .bmove rfl (by decide +kernel) | exact Only.doT .gcl rfl (by decide +kernel)
    | exact (tbAddend_only ..).le (by decide +kernel) | exact (tbStep_only ..).le (by decide +kernel)
    | exact (gclNext_only ..).le (by decide +kernel) | exact (gateChange_only ..).le (by decide +kernel) | split

end Sys2Proof.Machine
end

