-- ==== Sys2Proof/Laws/FeetKerb.lean ====
section
/-!
SUPPORT. The footprint of every operation of Machine/Kerb.lean: the registers and the things beside them that it can
change, whatever the block holds.
-/
namespace Sys2Proof.Machine

set_option Elab.async false

/-- What `violation` can change. -/
def Feet.violation : Mask := (.of [.TEN_VIOL, .TEN_VIOL_ADDR, .TEN_VIOL_TIME, .TEN_VIOL_COUNT] [] : Mask).plus
  [Feet.raise]

theorem violation_only (t cause need kind id win a : Nat) :
    Only Feet.violation.has (violation t cause need kind id win a) := by
  unfold violation
  with_reducible repeat' first
    | exact Only.pure _ | exact Only.getM | refine Only.bind ?_ fun _ => ?_ | refine Only.ite ?_ ?_
    | exact Only.wrRegK .TEN_VIOL (by decide +kernel) | exact Only.wrK .TEN_VIOL_ADDR rfl (by decide +kernel)
    | exact Only.wrK .TEN_VIOL_TIME rfl (by decide +kernel) | exact Only.incK .TEN_VIOL_COUNT rfl (by decide +kernel)
    | exact (raise_only ..).le (by decide +kernel)

/-- What `kerbCheck` can change. -/
def Feet.kerbCheck : Mask := (.of [.KRB_CNT] [] : Mask).plus [Feet.pmuCount, Feet.violation]

theorem kerbCheck_only (t : Option Nat) (need kind id a : Nat) (quiet : Bool) :
    Only Feet.kerbCheck.has (kerbCheck t need kind id a quiet) := by
  unfold kerbCheck
  with_reducible repeat' first
    | exact Only.pure _ | exact Only.getM | refine Only.bind ?_ fun _ => ?_ | refine Only.onlyIf ?_
    | refine Only.ite ?_ ?_ | exact Only.incK .KRB_CNT rfl (by decide +kernel)
    | exact (pmuCount_only ..).le (by decide +kernel) | exact (violation_only ..).le (by decide +kernel) | split

/-- What `hostAccess` can change. -/
def Feet.hostAccess : Mask := .of [] [.kacc]

theorem hostAccess_only (port tag slice : Nat) :
    Only Feet.hostAccess.has (hostAccess port tag slice) := by
  simp only [hostAccess, modKacc, getKacc, putKacc]
  with_reducible repeat' first
    | exact Only.pure _ | exact Only.getM | refine Only.bind ?_ fun _ => ?_ | exact Only.rd _
    | exact Only.doT .kacc rfl (by decide +kernel)

/-- What `debugAccess` can change. -/
def Feet.debugAccess : Mask := .of [] [.kacc]

theorem debugAccess_only (tag : Nat) :
    Only Feet.debugAccess.has (debugAccess tag) := by
  simp only [debugAccess, modKacc, getKacc, putKacc]
  with_reducible repeat' first
    | exact Only.pure _ | exact Only.getM | refine Only.bind ?_ fun _ => ?_ | exact Only.rd _
    | exact Only.doT .kacc rfl (by decide +kernel)

/-- What `fenceGo` can change. -/
def Feet.fenceGo : Mask := .of [.KRB_FENCE_STATUS] []

theorem fenceGo_only : Only Feet.fenceGo.has fenceGo := by
  unfold fenceGo
  with_reducible repeat' first
    | exact Only.pure _ | exact Only.getM | refine Only.bind ?_ fun _ => ?_
    | exact Only.wrK .KRB_FENCE_STATUS rfl (by decide +kernel)

/-- What `fenceTimeout` can change. -/
def Feet.fenceTimeout : Mask := (.of [.KRB_FENCE_STATUS, .KRB_FENCE_CNT] [] : Mask).plus [Feet.raise]

theorem fenceTimeout_only : Only Feet.fenceTimeout.has fenceTimeout := by
  unfold fenceTimeout
  with_reducible repeat' first
    | exact Only.pure _ | exact Only.getM | refine Only.bind ?_ fun _ => ?_ | refine Only.ite ?_ ?_
    | exact Only.wrK .KRB_FENCE_STATUS rfl (by decide +kernel)
    | exact Only.incK .KRB_FENCE_CNT rfl (by decide +kernel) | exact (raise_only ..).le (by decide +kernel)

/-- What `sliceOn` can change. -/
def Feet.sliceOn : Mask := (.of [.TM_SRING_CTL, .TEN_STATUS] [] : Mask).plus [Feet.tmEffect]

theorem sliceOn_only (s : Nat) :
    Only Feet.sliceOn.has (sliceOn s) := by
  unfold sliceOn
  with_reducible repeat' first
    | exact Only.pure _ | exact Only.getM | refine Only.bind ?_ fun _ => ?_ | refine Only.ite ?_ ?_
    | exact Only.wrK .TEN_STATUS rfl (by decide +kernel) | exact Only.wrK .TM_SRING_CTL rfl (by decide +kernel)
    | exact (tmEffect_only ..).le (by decide +kernel)

/-- What `sliceOff` can change. -/
def Feet.sliceOff : Mask := (.of [.TM_SRING_CTL, .TEN_STATUS] [] : Mask).plus [Feet.ringStop]

theorem sliceOff_only (s : Nat) :
    Only Feet.sliceOff.has (sliceOff s) := by
  unfold sliceOff
  with_reducible repeat' first
    | exact Only.pure _ | exact Only.getM | refine Only.bind ?_ fun _ => ?_ | refine Only.onlyIf ?_
    | refine Only.each fun _ _ => ?_ | exact Only.wrK .RNG_CTL rfl (by decide +kernel)
    | exact Only.wrK .TEN_STATUS rfl (by decide +kernel) | exact Only.wrK .TM_SRING_CTL rfl (by decide +kernel)
    | exact (ringStop_only ..).le (by decide +kernel)

/-- What `sliceDrained` can change. -/
def Feet.sliceDrained : Mask := Feet.sliceOn

theorem sliceDrained_only (s : Nat) :
    Only Feet.sliceDrained.has (sliceDrained s) := by
  unfold sliceDrained
  with_reducible repeat' first
    | exact Only.pure _ | exact Only.getM | refine Only.bind ?_ fun _ => ?_ | refine Only.onlyIf ?_
    | refine Only.ite ?_ ?_ | exact Only.wrK .TEN_STATUS rfl (by decide +kernel)
    | exact (sliceOn_only ..).le (by decide +kernel)

/-- What `sliceTimeout` can change. -/
def Feet.sliceTimeout : Mask := (.of [.TEN_STATUS] [] : Mask).plus [Feet.raise]

theorem sliceTimeout_only (s : Nat) :
    Only Feet.sliceTimeout.has (sliceTimeout s) := by
  unfold sliceTimeout
  with_reducible repeat' first
    | exact Only.pure _ | exact Only.getM | refine Only.bind ?_ fun _ => ?_ | refine Only.ite ?_ ?_
    | exact Only.wrK .TEN_STATUS rfl (by decide +kernel) | exact (raise_only ..).le (by decide +kernel)

/-- What `krbEffect` can change. -/
def Feet.krbEffect : Mask := (.of [.KRB_FENCE_CNT, .KRB_CNT, .TEN_VIOL, .TEN_VIOL_ADDR, .TEN_VIOL_TIME,
  .TEN_VIOL_COUNT, .TEN_OBJ_STATUS] [] : Mask).plus [Feet.fenceGo, Feet.sliceOn, Feet.sliceOff]

theorem krbEffect_only (k : RegKind) (i old cmd : Nat) :
    Only Feet.krbEffect.has (krbEffect k i old cmd) := by
  unfold krbEffect
  with_reducible repeat' first
    | exact Only.pure _ | exact Only.getM | refine Only.bind ?_ fun _ => ?_ | refine Only.onlyIf ?_
    | refine Only.each fun _ _ => ?_ | refine Only.ite ?_ ?_ | exact Only.rstK .KRB_CNT (by decide +kernel)
    | exact Only.rstK .KRB_FENCE_CNT (by decide +kernel) | exact Only.rstK .TEN_VIOL (by decide +kernel)
    | exact Only.rstK .TEN_VIOL_ADDR (by decide +kernel) | exact Only.rstK .TEN_VIOL_COUNT (by decide +kernel)
    | exact Only.rstK .TEN_VIOL_TIME (by decide +kernel) | exact Only.wrK .TEN_OBJ_STATUS rfl (by decide +kernel)
    | exact Only.wrK .TEN_STATUS rfl (by decide +kernel) | exact (fenceGo_only ..).le (by decide +kernel)
    | exact (sliceOn_only ..).le (by decide +kernel) | exact (sliceOff_only ..).le (by decide +kernel) | split

end Sys2Proof.Machine
end

