-- ==== Sys2Proof/Laws/FeetKiosk.lean ====
section
/-!
SUPPORT. The footprint of every operation of Machine/Kiosk.lean: the registers and the things beside them that it can
change, whatever the block holds.
-/
namespace Sys2Proof.Machine

set_option Elab.async false

/-- What `kskInc` can change. -/
def Feet.kskInc : Mask := .of [.KSK_CNT] []

theorem kskInc_only (c : Nat) :
    Only Feet.kskInc.has (kskInc c) := by
  unfold kskInc
  with_reducible repeat' first
    | exact Only.pure _ | exact Only.getM | refine Only.bind ?_ fun _ => ?_
    | exact Only.incK .KSK_CNT rfl (by decide +kernel)

/-- What `staleLine` can change. -/
def Feet.staleLine : Mask := .of [] [.acc]

theorem staleLine_only (line : Nat) :
    Only Feet.staleLine.has (staleLine line) := by
  simp only [staleLine, putAcc]
  with_reducible repeat' first
    | exact Only.pure _ | exact Only.getM | refine Only.bind ?_ fun _ => ?_ | refine Only.onlyIf ?_
    | refine Only.each fun _ _ => ?_ | exact Only.doT .acc rfl (by decide +kernel)

/-- What `kskWb` can change. -/
def Feet.kskWb : Mask := Feet.xsend.plus [Feet.kskInc]

theorem kskWb_only (b : Nat) (op : Op) (k : KLine) (poison : Bool) :
    Only Feet.kskWb.has (kskWb b op k poison) := by
  unfold kskWb
  with_reducible repeat' first
    | exact Only.pure _ | exact Only.getM | refine Only.bind ?_ fun _ => ?_
    | exact (xsend_only ..).le (by decide +kernel) | exact (kskInc_only ..).le (by decide +kernel)

/-- What `kskDrop` can change. -/
def Feet.kskDrop : Mask := (.of [] [.kline] : Mask).plus [Feet.staleLine, Feet.kskWb]

theorem kskDrop_only (b way line : Nat) (poison : Bool) :
    Only Feet.kskDrop.has (kskDrop b way line poison) := by
  simp only [kskDrop, putKline]
  with_reducible repeat' first
    | exact Only.pure _ | exact Only.getM | refine Only.bind ?_ fun _ => ?_ | refine Only.onlyIf ?_
    | exact Only.doT .kline rfl (by decide +kernel) | exact (staleLine_only ..).le (by decide +kernel)
    | exact (kskWb_only ..).le (by decide +kernel)

/-- What `kskTouch` can change. -/
def Feet.kskTouch : Mask := .of [] [.kline]

theorem kskTouch_only (b line way : Nat) :
    Only Feet.kskTouch.has (kskTouch b line way) := by
  simp only [kskTouch, modKline, getKline, putKline]
  with_reducible repeat' first
    | exact Only.pure _ | exact Only.getM | refine Only.bind ?_ fun _ => ?_ | refine Only.each fun _ _ => ?_
    | refine Only.ite ?_ ?_ | exact Only.doT .kline rfl (by decide +kernel)

/-- What `kskEvict` can change. -/
def Feet.kskEvict : Mask := Feet.kskDrop

theorem kskEvict_only (b line way : Nat) :
    Only Feet.kskEvict.has (kskEvict b line way) := by
  unfold kskEvict
  with_reducible repeat' first
    | exact Only.pure _ | exact Only.getM | refine Only.bind ?_ fun _ => ?_ | refine Only.ite ?_ ?_
    | exact (kskInc_only ..).le (by decide +kernel) | exact (kskDrop_only ..).le (by decide +kernel)

/-- What `missPut` can change. -/
def Feet.missPut : Mask := .of [] [.kmiss]

theorem missPut_only (b : Nat) (e : KMiss) :
    Only Feet.missPut.has (missPut b e) := by
  simp only [missPut, modKmiss, getKmiss, putKmiss]
  with_reducible repeat' first
    | exact Only.pure _ | exact Only.getM | refine Only.bind ?_ fun _ => ?_ | refine Only.ite ?_ ?_
    | exact Only.doT .kmiss rfl (by decide +kernel)

/-- What `missSend` can change. -/
def Feet.missSend : Mask := Feet.kskEvict.plus [Feet.missPut]

theorem missSend_only (b : Nat) (e : KMiss) :
    Only Feet.missSend.has (missSend b e) := by
  unfold missSend
  with_reducible repeat' first
    | exact Only.pure _ | exact Only.getM | refine Only.bind ?_ fun _ => ?_ | refine Only.ite ?_ ?_
    | exact (xsend_only ..).le (by decide +kernel) | exact (kskInc_only ..).le (by decide +kernel)
    | exact (kskEvict_only ..).le (by decide +kernel) | exact (missPut_only ..).le (by decide +kernel) | split

/-- What `kskKick` can change. -/
def Feet.kskKick : Mask := Feet.missSend

theorem kskKick_only (b : Nat) :
    Only Feet.kskKick.has (kskKick b) := by
  unfold kskKick
  with_reducible repeat' first
    | exact Only.pure _ | exact Only.getM | refine Only.bind ?_ fun _ => ?_ | refine Only.each fun _ _ => ?_
    | exact (missSend_only ..).le (by decide +kernel)

/-- What `missJoin` can change. -/
def Feet.missJoin : Mask := Feet.kskKick

theorem missJoin_only (b line : Nat) (own : Bool) (id : Nat) :
    Only Feet.missJoin.has (missJoin b line own id) := by
  simp only [missJoin, modKmiss, getKmiss, putKmiss]
  with_reducible repeat' first
    | exact Only.pure _ | exact Only.getM | refine Only.bind ?_ fun _ => ?_
    | exact Only.doT .kmiss rfl (by decide +kernel) | exact (missPut_only ..).le (by decide +kernel)
    | exact (kskKick_only ..).le (by decide +kernel) | split

/-- What `accServed` can change. -/
def Feet.accServed : Mask := (.of [] [.acc] : Mask).plus [Feet.xsend]

theorem accServed_only (id : Nat) (data : List Word) (poison : Bool) :
    Only Feet.accServed.has (accServed id data poison) := by
  simp only [accServed, putAcc]
  with_reducible repeat' first
    | exact Only.pure _ | exact Only.getM | refine Only.bind ?_ fun _ => ?_ | refine Only.ite ?_ ?_
    | exact Only.doT .acc rfl (by decide +kernel) | exact (xsend_only ..).le (by decide +kernel)

/-- What `kskApply` can change. -/
def Feet.kskApply : Mask := (.of [] [.kline] : Mask).plus [Feet.kskInc, Feet.accServed]

theorem kskApply_only (b way id : Nat) :
    Only Feet.kskApply.has (kskApply b way id) := by
  simp only [kskApply, putKline]
  with_reducible repeat' first
    | exact Only.pure _ | exact Only.getM | refine Only.bind ?_ fun _ => ?_ | refine Only.ite ?_ ?_
    | exact Only.doT .kline rfl (by decide +kernel) | exact (kskInc_only ..).le (by decide +kernel)
    | exact (staleLine_only ..).le (by decide +kernel) | exact (accServed_only ..).le (by decide +kernel)

/-- What `kskServe` can change. -/
def Feet.kskServe : Mask := Feet.missJoin

theorem kskServe_only (b id : Nat) :
    Only Feet.kskServe.has (kskServe b id) := by
  simp only [kskServe, putAcc]
  with_reducible repeat' first
    | exact Only.pure _ | exact Only.getM | refine Only.bind ?_ fun _ => ?_ | refine Only.onlyIf ?_
    | refine Only.ite ?_ ?_ | exact Only.doT .acc rfl (by decide +kernel)
    | exact (pmuCount_only ..).le (by decide +kernel) | exact (kskInc_only ..).le (by decide +kernel)
    | exact (kskTouch_only ..).le (by decide +kernel) | exact (missJoin_only ..).le (by decide +kernel)
    | exact (kskApply_only ..).le (by decide +kernel) | split

/-- What `kskAccess` can change. -/
def Feet.kskAccess : Mask := Feet.kskServe

theorem kskAccess_only (id : Nat) :
    Only Feet.kskAccess.has (kskAccess id) := by
  unfold kskAccess
  with_reducible repeat' first
    | exact Only.pure _ | exact Only.getM | refine Only.bind ?_ fun _ => ?_
    | exact (kskServe_only ..).le (by decide +kernel)

/-- What `kskAnswer` can change. -/
def Feet.kskAnswer : Mask := Feet.xsend.plus [Feet.kskInc]

theorem kskAnswer_only (b : Nat) (q : Msg) (op : Op) :
    Only Feet.kskAnswer.has (kskAnswer b q op) := by
  unfold kskAnswer
  with_reducible repeat' first
    | exact Only.pure _ | exact Only.getM | refine Only.bind ?_ fun _ => ?_
    | exact (xsend_only ..).le (by decide +kernel) | exact (kskInc_only ..).le (by decide +kernel)

/-- What `kskUe` can change. -/
def Feet.kskUe : Mask := Feet.memPoisoned

theorem kskUe_only (line : Nat) (dirty : Bool) :
    Only Feet.kskUe.has (kskUe line dirty) := by
  unfold kskUe
  with_reducible repeat' first
    | exact Only.pure _ | exact Only.getM | refine Only.bind ?_ fun _ => ?_ | refine Only.onlyIf ?_
    | refine Only.ite ?_ ?_ | exact (raise_only ..).le (by decide +kernel)
    | exact (memPoisoned_only ..).le (by decide +kernel)

/-- What `kskSnoopNow` can change. -/
def Feet.kskSnoopNow : Mask := Feet.kskKick.plus [Feet.kskUe]

theorem kskSnoopNow_only (b : Nat) (q : Msg) (ue : Bool) :
    Only Feet.kskSnoopNow.has (kskSnoopNow b q ue) := by
  simp only [kskSnoopNow, putKline]
  with_reducible repeat' first
    | exact Only.pure _ | exact Only.getM | refine Only.bind ?_ fun _ => ?_ | refine Only.onlyIf ?_
    | refine Only.ite ?_ ?_ | exact Only.doT .kline rfl (by decide +kernel)
    | exact (staleLine_only ..).le (by decide +kernel) | exact (kskWb_only ..).le (by decide +kernel)
    | exact (kskDrop_only ..).le (by decide +kernel) | exact (kskKick_only ..).le (by decide +kernel)
    | exact (kskAnswer_only ..).le (by decide +kernel) | exact (kskUe_only ..).le (by decide +kernel) | split

/-- What `kioskSnoop` can change. -/
def Feet.kioskSnoop : Mask := Feet.kskSnoopNow

theorem kioskSnoop_only (b : Nat) (q : Msg) (ue : Bool) :
    Only Feet.kioskSnoop.has (kioskSnoop b q ue) := by
  unfold kioskSnoop
  with_reducible repeat' first
    | exact Only.pure _ | exact Only.getM | refine Only.bind ?_ fun _ => ?_ | refine Only.ite ?_ ?_
    | exact (missPut_only ..).le (by decide +kernel) | exact (kskSnoopNow_only ..).le (by decide +kernel) | split

/-- What `missServe` can change. -/
def Feet.missServe : Mask := Feet.kskServe

theorem missServe_only (b : Nat) (l : List Nat) :
    Only Feet.missServe.has (missServe b l) := by
  simp only [missServe, getAcc]
  with_reducible repeat' first
    | exact Only.pure _ | exact Only.getM | refine Only.bind ?_ fun _ => ?_ | refine Only.onlyIf ?_
    | refine Only.each fun _ _ => ?_ | exact (kskServe_only ..).le (by decide +kernel)

/-- What `missEnd` can change. -/
def Feet.missEnd : Mask := Feet.kskSnoopNow

theorem missEnd_only (b : Nat) (e : KMiss) :
    Only Feet.missEnd.has (missEnd b e) := by
  simp only [missEnd, modKmiss, getKmiss, putKmiss]
  with_reducible repeat' first
    | exact Only.pure _ | exact Only.getM | refine Only.bind ?_ fun _ => ?_ | refine Only.onlyIf ?_
    | exact Only.doT .kmiss rfl (by decide +kernel) | exact (kskDrop_only ..).le (by decide +kernel)
    | exact (kskKick_only ..).le (by decide +kernel) | exact (kskSnoopNow_only ..).le (by decide +kernel)
    | exact (missServe_only ..).le (by decide +kernel) | split

/-- What `missLost` can change. -/
def Feet.missLost : Mask := Feet.kskKick

theorem missLost_only (b : Nat) (e : KMiss) :
    Only Feet.missLost.has (missLost b e) := by
  simp only [missLost, modKmiss, getKmiss, putKmiss]
  with_reducible repeat' first
    | exact Only.pure _ | exact Only.getM | refine Only.bind ?_ fun _ => ?_ | refine Only.each fun _ _ => ?_
    | exact Only.doT .kmiss rfl (by decide +kernel) | exact (kskDrop_only ..).le (by decide +kernel)
    | exact (kskKick_only ..).le (by decide +kernel) | exact (accServed_only ..).le (by decide +kernel) | split

/-- What `missFill` can change. -/
def Feet.missFill : Mask := Feet.missEnd

theorem missFill_only (b : Nat) (e : KMiss) :
    Only Feet.missFill.has (missFill b e) := by
  simp only [missFill, putKline]
  with_reducible repeat' first
    | exact Only.pure _ | exact Only.getM | refine Only.bind ?_ fun _ => ?_ | refine Only.ite ?_ ?_
    | exact Only.doT .kline rfl (by decide +kernel) | exact (pmuCount_only ..).le (by decide +kernel)
    | exact (kskTouch_only ..).le (by decide +kernel) | exact (missPut_only ..).le (by decide +kernel)
    | exact (missEnd_only ..).le (by decide +kernel)

/-- What `kioskFill` can change. -/
def Feet.kioskFill : Mask := Feet.missFill

theorem kioskFill_only (b : Nat) (q : Msg) :
    Only Feet.kioskFill.has (kioskFill b q) := by
  unfold kioskFill
  with_reducible repeat' first
    | exact Only.pure _ | exact Only.getM | refine Only.bind ?_ fun _ => ?_ | refine Only.ite ?_ ?_
    | exact (missLost_only ..).le (by decide +kernel) | exact (missFill_only ..).le (by decide +kernel) | split

/-- What `steeredFill` can change. -/
def Feet.steeredFill : Mask := Feet.kskEvict

theorem steeredFill_only (b : Nat) (q : Msg) :
    Only Feet.steeredFill.has (steeredFill b q) := by
  simp only [steeredFill, putKline]
  with_reducible repeat' first
    | exact Only.pure _ | exact Only.getM | refine Only.bind ?_ fun _ => ?_ | refine Only.onlyIf ?_
    | refine Only.ite ?_ ?_ | exact Only.doT .kline rfl (by decide +kernel)
    | exact (pmuCount_only ..).le (by decide +kernel) | exact (kskInc_only ..).le (by decide +kernel)
    | exact (staleLine_only ..).le (by decide +kernel) | exact (kskTouch_only ..).le (by decide +kernel)
    | exact (kskEvict_only ..).le (by decide +kernel) | split

/-- What `kskEmpty` can change. -/
def Feet.kskEmpty : Mask := Feet.kskDrop

theorem kskEmpty_only (b : Nat) (f : Nat → Bool) :
    Only Feet.kskEmpty.has (kskEmpty b f) := by
  unfold kskEmpty
  with_reducible repeat' first
    | exact Only.pure _ | exact Only.getM | refine Only.bind ?_ fun _ => ?_ | refine Only.onlyIf ?_
    | refine Only.each fun _ _ => ?_ | exact (kskDrop_only ..).le (by decide +kernel)

/-- What `kskOut` can change. -/
def Feet.kskOut : Mask := (.of [.KSK_BANK_STATUS] [] : Mask).plus [Feet.kskEmpty]

theorem kskOut_only (k : Nat) :
    Only Feet.kskOut.has (kskOut k) := by
  unfold kskOut
  with_reducible repeat' first
    | exact Only.pure _ | exact Only.getM | refine Only.bind ?_ fun _ => ?_
    | exact Only.wrK .KSK_BANK_STATUS rfl (by decide +kernel) | exact (kskEmpty_only ..).le (by decide +kernel)

/-- What `kskDrained` can change. -/
def Feet.kskDrained : Mask := (.of [.KSK_BANK_STATUS] [] : Mask).plus [Feet.kskEmpty]

theorem kskDrained_only (k : Nat) :
    Only Feet.kskDrained.has (kskDrained k) := by
  unfold kskDrained
  with_reducible repeat' first
    | exact Only.pure _ | exact Only.getM | refine Only.bind ?_ fun _ => ?_ | refine Only.onlyIf ?_
    | exact Only.wrK .KSK_BANK_STATUS rfl (by decide +kernel) | exact (kskEmpty_only ..).le (by decide +kernel)

/-- What `kskReturn` can change. -/
def Feet.kskReturn : Mask := (.of [.KSK_BANK_STATUS] [] : Mask).plus [Feet.kskEmpty]

theorem kskReturn_only (k : Nat) :
    Only Feet.kskReturn.has (kskReturn k) := by
  unfold kskReturn
  with_reducible repeat' first
    | exact Only.pure _ | exact Only.getM | refine Only.bind ?_ fun _ => ?_ | refine Only.each fun _ _ => ?_
    | refine Only.ite ?_ ?_ | exact Only.wrK .KSK_BANK_STATUS rfl (by decide +kernel)
    | exact (kskEmpty_only ..).le (by decide +kernel)

/-- What `kskGone` can change. -/
def Feet.kskGone : Mask := (.of [.KSK_BANK_STATUS] [.kline, .kmiss] : Mask).plus [Feet.staleLine]

theorem kskGone_only (k st : Nat) :
    Only Feet.kskGone.has (kskGone k st) := by
  simp only [kskGone, putKline, putAcc, putKmiss]
  with_reducible repeat' first
    | exact Only.pure _ | exact Only.getM | refine Only.bind ?_ fun _ => ?_ | refine Only.onlyIf ?_
    | refine Only.each fun _ _ => ?_ | exact Only.wrK .KSK_BANK_STATUS rfl (by decide +kernel)
    | exact Only.doT .acc rfl (by decide +kernel) | exact Only.doT .kline rfl (by decide +kernel)
    | exact Only.doT .kmiss rfl (by decide +kernel) | exact (staleLine_only ..).le (by decide +kernel)

/-- What `kskOn` can change. -/
def Feet.kskOn : Mask := .of [.KSK_BANK_STATUS] []

theorem kskOn_only (k : Nat) :
    Only Feet.kskOn.has (kskOn k) := by
  unfold kskOn
  with_reducible repeat' first
    | exact Only.pure _ | exact Only.getM | refine Only.bind ?_ fun _ => ?_ | refine Only.onlyIf ?_
    | exact Only.wrK .KSK_BANK_STATUS rfl (by decide +kernel)

/-- What `kskFlush` can change. -/
def Feet.kskFlush : Mask := (.of [.KSK_STATUS] [] : Mask).plus [Feet.kskEmpty]

theorem kskFlush_only : Only Feet.kskFlush.has kskFlush := by
  unfold kskFlush
  with_reducible repeat' first
    | exact Only.pure _ | exact Only.getM | refine Only.bind ?_ fun _ => ?_ | refine Only.each fun _ _ => ?_
    | exact Only.wrK .KSK_STATUS rfl (by decide +kernel) | exact (kskEmpty_only ..).le (by decide +kernel)

/-- What `kskEffect` can change. -/
def Feet.kskEffect : Mask := Feet.kskOut.plus [Feet.kskFlush]

theorem kskEffect_only (k : RegKind) (_i old cmd : Nat) :
    Only Feet.kskEffect.has (kskEffect k _i old cmd) := by
  unfold kskEffect
  with_reducible repeat' first
    | exact Only.pure _ | exact Only.getM | refine Only.bind ?_ fun _ => ?_ | refine Only.onlyIf ?_
    | refine Only.each fun _ _ => ?_ | exact Only.rstK .KSK_CNT (by decide +kernel)
    | exact (kskOut_only ..).le (by decide +kernel) | exact (kskReturn_only ..).le (by decide +kernel)
    | exact (kskFlush_only ..).le (by decide +kernel) | split

end Sys2Proof.Machine
end

