-- ==== Sys2Proof/Laws/FeetLoom.lean ====
section
/-!
SUPPORT. The footprint of every operation of Machine/Loom.lean: the registers and the things beside them that it can
change, whatever the block holds.
-/
namespace Sys2Proof.Machine

set_option Elab.async false

/-- What `lmInc` can change. -/
def Feet.lmInc : Mask := .of [.LM_CNT] []

theorem lmInc_only (c : Nat) :
    Only Feet.lmInc.has (lmInc c) := by
  unfold lmInc
  with_reducible repeat' first
    | exact Only.pure _ | exact Only.getM | refine Only.bind ?_ fun _ => ?_
    | exact Only.incK .LM_CNT rfl (by decide +kernel)

/-- What `itemPut` can change. -/
def Feet.itemPut : Mask := .of [] [.job]

theorem itemPut_only (t i : Nat) (it : LItem) :
    Only Feet.itemPut.has (itemPut t i it) := by
  simp only [itemPut, modJob, getJob, putJob]
  with_reducible repeat' first
    | exact Only.pure _ | exact Only.getM | refine Only.bind ?_ fun _ => ?_
    | exact Only.doT .job rfl (by decide +kernel)

/-- What `raDrop` can change. -/
def Feet.raDrop : Mask := (.of [] [.acc] : Mask).plus [Feet.lmInc]

theorem raDrop_only (t i : Nat) :
    Only Feet.raDrop.has (raDrop t i) := by
  simp only [raDrop, putAcc]
  with_reducible repeat' first
    | exact Only.pure _ | exact Only.getM | refine Only.bind ?_ fun _ => ?_ | refine Only.each fun _ _ => ?_
    | exact Only.doT .acc rfl (by decide +kernel) | exact (lmInc_only ..).le (by decide +kernel)

/-- What `itemFail` can change. -/
def Feet.itemFail : Mask := (.of [] [.job] : Mask).plus [Feet.raDrop]

theorem itemFail_only (t i st : Nat) :
    Only Feet.itemFail.has (itemFail t i st) := by
  simp only [itemFail, modJob, getJob, putJob]
  with_reducible repeat' first
    | exact Only.pure _ | exact Only.getM | refine Only.bind ?_ fun _ => ?_
    | exact Only.doT .job rfl (by decide +kernel) | exact (raDrop_only ..).le (by decide +kernel)

/-- What `itemDone` can change. -/
def Feet.itemDone : Mask := (.of [] [.job] : Mask).plus [Feet.raDrop]

theorem itemDone_only (t i : Nat) (it : LItem) :
    Only Feet.itemDone.has (itemDone t i it) := by
  simp only [itemDone, modJob, getJob, putJob]
  with_reducible repeat' first
    | exact Only.pure _ | exact Only.getM | refine Only.bind ?_ fun _ => ?_ | refine Only.ite ?_ ?_
    | exact Only.doT .job rfl (by decide +kernel) | exact (raDrop_only ..).le (by decide +kernel)

/-- What `lmIssue` can change. -/
def Feet.lmIssue : Mask := (.of [] [.accNext, .lmRem] : Mask).plus [Feet.kerbCheck, Feet.kskAccess, Feet.itemFail]

theorem lmIssue_only (t i : Nat) (a : LAcc) :
    Only Feet.lmIssue.has (lmIssue t i a) := by
  simp only [lmIssue, putAccNext, putAcc, putLmRem]
  with_reducible repeat' first
    | exact Only.pure _ | exact Only.getM | refine Only.bind ?_ fun _ => ?_ | refine Only.onlyIf ?_
    | refine Only.ite ?_ ?_ | exact Only.doT .acc rfl (by decide +kernel)
    | exact Only.doT .accNext rfl (by decide +kernel) | exact Only.doT .lmRem rfl (by decide +kernel)
    | exact (xsend_only ..).le (by decide +kernel) | exact (raise_only ..).le (by decide +kernel)
    | exact (kerbCheck_only ..).le (by decide +kernel) | exact (kskAccess_only ..).le (by decide +kernel)
    | exact (lmInc_only ..).le (by decide +kernel) | exact (itemFail_only ..).le (by decide +kernel)

/-- What `predTrain` can change. -/
def Feet.predTrain : Mask := .of [] [.pred]

theorem predTrain_only (e n l pre : Nat) (child : Option Nat) :
    Only Feet.predTrain.has (predTrain e n l pre child) := by
  simp only [predTrain, putPred]
  with_reducible repeat' first
    | exact Only.pure _ | exact Only.getM | refine Only.bind ?_ fun _ => ?_ | refine Only.onlyIf ?_
    | exact Only.doT .pred rfl (by decide +kernel) | split

/-- What `raIssue` can change. -/
def Feet.raIssue : Mask := (.of [] [.acc, .accNext] : Mask).plus [Feet.kerbCheck, Feet.lmInc]

theorem raIssue_only (t i n bits key l : Nat) :
    Only Feet.raIssue.has (raIssue t i n bits key l) := by
  simp only [raIssue, putAccNext, putAcc]
  with_reducible repeat' first
    | exact Only.pure _ | exact Only.getM | refine Only.bind ?_ fun _ => ?_ | refine Only.ite ?_ ?_
    | exact Only.doT .acc rfl (by decide +kernel) | exact Only.doT .accNext rfl (by decide +kernel)
    | exact (kerbCheck_only ..).le (by decide +kernel) | exact (lmInc_only ..).le (by decide +kernel) | split

/-- What `raTake` can change. -/
def Feet.raTake : Mask := (.of [] [.acc] : Mask).plus [Feet.lmInc]

theorem raTake_only (t i l node : Nat) :
    Only Feet.raTake.has (raTake t i l node) := by
  simp only [raTake, putAcc]
  with_reducible repeat' first
    | exact Only.pure _ | exact Only.getM | refine Only.bind ?_ fun _ => ?_ | refine Only.ite ?_ ?_
    | exact Only.doT .acc rfl (by decide +kernel) | exact (lmInc_only ..).le (by decide +kernel) | split

/-- What `itemTake` can change. -/
def Feet.itemTake : Mask := Feet.meterFlow.plus [Feet.predTrain]

theorem itemTake_only (t i : Nat) (j : Job) (it : LItem) (a : LAcc) (ws : List Word) (poison : Bool) :
    Only Feet.itemTake.has (itemTake t i j it a ws poison) := by
  unfold itemTake
  with_reducible repeat' first
    | exact Only.pure _ | exact Only.getM | refine Only.bind ?_ fun _ => ?_ | refine Only.onlyIf ?_
    | refine Only.ite ?_ ?_ | exact (meterFlow_only ..).le (by decide +kernel)
    | exact (predTrain_only ..).le (by decide +kernel) | split

/-- What `cpyCheck` can change. -/
def Feet.cpyCheck : Mask := Feet.kerbCheck

theorem cpyCheck_only (t s : Nat) (n : List (Nat × Nat)) :
    Only Feet.cpyCheck.has (cpyCheck t s n) := by
  induction n with
  | nil =>
    unfold cpyCheck
    with_reducible repeat' first
      | exact ih .. | exact Only.pure _
  | cons a l ih =>
    unfold cpyCheck
    with_reducible repeat' first
      | exact ih .. | exact Only.pure _ | exact Only.getM | refine Only.bind ?_ fun _ => ?_ | refine Only.ite ?_ ?_
      | exact (kerbCheck_only ..).le (by decide +kernel)

/-- What `itemDrive` can change. -/
def Feet.itemDrive : Mask := Feet.lmIssue.plus [Feet.itemTake]

theorem itemDrive_only (t i : Nat) (n : Nat) :
    Only Feet.itemDrive.has (itemDrive t i n) := by
  induction n with
  | zero =>
    unfold itemDrive
    with_reducible repeat' first
      | exact ih .. | exact Only.pure _
  | succ n ih =>
    unfold itemDrive
    with_reducible repeat' first
      | exact ih .. | exact Only.pure _ | exact Only.getM | refine Only.bind ?_ fun _ => ?_ | refine Only.ite ?_ ?_
      | exact (lmInc_only ..).le (by decide +kernel) | exact (itemPut_only ..).le (by decide +kernel)
      | exact (itemFail_only ..).le (by decide +kernel) | exact (itemDone_only ..).le (by decide +kernel)
      | exact (lmIssue_only ..).le (by decide +kernel) | exact (raIssue_only ..).le (by decide +kernel)
      | exact (raTake_only ..).le (by decide +kernel) | exact (itemTake_only ..).le (by decide +kernel)
      | exact (cpyCheck_only ..).le (by decide +kernel) | split

/-- What `jobFinish` can change. -/
def Feet.jobFinish : Mask := .of [] [.job]

theorem jobFinish_only (t : Nat) :
    Only Feet.jobFinish.has (jobFinish t) := by
  simp only [jobFinish, putJob]
  with_reducible repeat' first
    | exact Only.pure _ | exact Only.getM | refine Only.bind ?_ fun _ => ?_
    | exact Only.doT .job rfl (by decide +kernel)

/-- What `jobAdvance` can change. -/
def Feet.jobAdvance : Mask := Feet.itemDrive

theorem jobAdvance_only (t : Nat) (n : Nat) :
    Only Feet.jobAdvance.has (jobAdvance t n) := by
  induction n with
  | zero =>
    unfold jobAdvance
    with_reducible repeat' first
      | exact ih .. | exact Only.pure _
  | succ n ih =>
    unfold jobAdvance
    with_reducible repeat' first
      | exact ih .. | exact Only.pure _ | exact Only.getM | refine Only.bind ?_ fun _ => ?_ | refine Only.onlyIf ?_
      | refine Only.ite ?_ ?_ | exact (pmuCount_only ..).le (by decide +kernel)
      | exact (lmInc_only ..).le (by decide +kernel) | exact (itemPut_only ..).le (by decide +kernel)
      | exact (itemDrive_only ..).le (by decide +kernel) | exact (jobFinish_only ..).le (by decide +kernel) | split

/-- What `jobDispatch` can change. -/
def Feet.jobDispatch : Mask := Feet.checkHead.plus [Feet.jobAdvance]

theorem jobDispatch_only (r t : Nat) :
    Only Feet.jobDispatch.has (jobDispatch r t) := by
  simp only [jobDispatch, putJob]
  with_reducible repeat' first
    | exact Only.pure _ | exact Only.getM | refine Only.bind ?_ fun _ => ?_ | refine Only.ite ?_ ?_
    | exact Only.addSatK .RNG_PROG rfl (by decide +kernel) | exact Only.incK .RNG_CNT rfl (by decide +kernel)
    | exact Only.doT .job rfl (by decide +kernel) | exact (gateUpdate_only ..).le (by decide +kernel)
    | exact (takeSlots_only ..).le (by decide +kernel) | exact (checkHead_only ..).le (by decide +kernel)
    | exact (lmInc_only ..).le (by decide +kernel) | exact (jobAdvance_only ..).le (by decide +kernel) | split

/-- What `roundStart` can change. -/
def Feet.roundStart : Mask := .of [] [.ring]

theorem roundStart_only (el : List Nat) :
    Only Feet.roundStart.has (roundStart el) := by
  simp only [roundStart, modRing, getRing, putRing]
  with_reducible repeat' first
    | exact Only.pure _ | exact Only.getM | refine Only.bind ?_ fun _ => ?_ | refine Only.onlyIf ?_
    | refine Only.each fun _ _ => ?_ | exact Only.doT .ring rfl (by decide +kernel)

/-- What `ringDispatch` can change. -/
def Feet.ringDispatch : Mask := (.of [] [.rrLast, .rrBurst] : Mask).plus [Feet.jobDispatch]

theorem ringDispatch_only : Only Feet.ringDispatch.has ringDispatch := by
  simp only [ringDispatch, putRrBurst, putRrLast, modRing, getRing, putRing]
  with_reducible repeat' first
    | exact Only.pure _ | exact Only.getM | refine Only.bind ?_ fun _ => ?_ | refine Only.ite ?_ ?_
    | exact Only.doT .ring rfl (by decide +kernel) | exact Only.doT .rrLast rfl (by decide +kernel)
    | exact Only.doT .rrBurst rfl (by decide +kernel) | exact (jobDispatch_only ..).le (by decide +kernel)
    | exact (roundStart_only ..).le (by decide +kernel) | split

/-- What `jobComplete` can change. -/
def Feet.jobComplete : Mask := (.of [] [.job] : Mask).plus [Feet.resultPut, Feet.lmInc]

theorem jobComplete_only (t : Nat) :
    Only Feet.jobComplete.has (jobComplete t) := by
  simp only [jobComplete, getJob, putJob]
  with_reducible repeat' first
    | exact Only.pure _ | exact Only.getM | refine Only.bind ?_ fun _ => ?_ | refine Only.ite ?_ ?_
    | exact Only.doT .job rfl (by decide +kernel) | exact (resultPut_only ..).le (by decide +kernel)
    | exact (lmInc_only ..).le (by decide +kernel)

/-- What `jobPoison` can change. -/
def Feet.jobPoison : Mask := (.of [] [.job] : Mask).plus [Feet.lmInc]

theorem jobPoison_only (t : Nat) :
    Only Feet.jobPoison.has (jobPoison t) := by
  simp only [jobPoison, modJob, getJob, putJob]
  with_reducible repeat' first
    | exact Only.pure _ | exact Only.getM | refine Only.bind ?_ fun _ => ?_
    | exact Only.doT .job rfl (by decide +kernel) | exact (lmInc_only ..).le (by decide +kernel)

/-- What `accTake` can change. -/
def Feet.accTake : Mask := Feet.itemDrive

theorem accTake_only (a : LAcc) :
    Only Feet.accTake.has (accTake a) := by
  simp only [accTake, modJob, getJob, putJob]
  with_reducible repeat' first
    | exact Only.pure _ | exact Only.getM | refine Only.bind ?_ fun _ => ?_ | refine Only.onlyIf ?_
    | refine Only.ite ?_ ?_ | exact Only.doT .job rfl (by decide +kernel)
    | exact (itemPut_only ..).le (by decide +kernel) | exact (itemFail_only ..).le (by decide +kernel)
    | exact (itemDone_only ..).le (by decide +kernel) | exact (itemTake_only ..).le (by decide +kernel)
    | exact (itemDrive_only ..).le (by decide +kernel) | exact (jobAdvance_only ..).le (by decide +kernel)
    | exact (jobPoison_only ..).le (by decide +kernel)

/-- What `accResponse` can change. -/
def Feet.accResponse : Mask := (.of [] [.lmLate] : Mask).plus [Feet.kskUe, Feet.accTake]

theorem accResponse_only (id : Nat) (ue : Bool) :
    Only Feet.accResponse.has (accResponse id ue) := by
  simp only [accResponse, putAcc, modLmLate, getLmLate, putLmLate]
  with_reducible repeat' first
    | exact Only.pure _ | exact Only.getM | refine Only.bind ?_ fun _ => ?_ | refine Only.onlyIf ?_
    | refine Only.ite ?_ ?_ | exact Only.doT .acc rfl (by decide +kernel)
    | exact Only.doT .lmLate rfl (by decide +kernel) | exact (kskDrop_only ..).le (by decide +kernel)
    | exact (kskAccess_only ..).le (by decide +kernel) | exact (kskUe_only ..).le (by decide +kernel)
    | exact (accTake_only ..).le (by decide +kernel) | split

/-- What `accTimeout` can change. -/
def Feet.accTimeout : Mask := (.of [] [.lmTmo] : Mask).plus [Feet.jobAdvance]

theorem accTimeout_only (id : Nat) :
    Only Feet.accTimeout.has (accTimeout id) := by
  simp only [accTimeout, putAcc, modKmiss, getKmiss, putKmiss, putLmTmo]
  with_reducible repeat' first
    | exact Only.pure _ | exact Only.getM | refine Only.bind ?_ fun _ => ?_ | refine Only.onlyIf ?_
    | refine Only.each fun _ _ => ?_ | refine Only.ite ?_ ?_ | exact Only.doT .acc rfl (by decide +kernel)
    | exact Only.doT .kmiss rfl (by decide +kernel) | exact Only.doT .lmTmo rfl (by decide +kernel)
    | exact (raise_only ..).le (by decide +kernel) | exact (lmInc_only ..).le (by decide +kernel)
    | exact (itemFail_only ..).le (by decide +kernel) | exact (jobAdvance_only ..).le (by decide +kernel)

/-- What `bankAccLost` can change. -/
def Feet.bankAccLost : Mask := Feet.jobAdvance

theorem bankAccLost_only (k : Nat) :
    Only Feet.bankAccLost.has (bankAccLost k) := by
  simp only [bankAccLost, putAcc]
  with_reducible repeat' first
    | exact Only.pure _ | exact Only.getM | refine Only.bind ?_ fun _ => ?_ | refine Only.each fun _ _ => ?_
    | exact Only.doT .acc rfl (by decide +kernel) | exact (itemFail_only ..).le (by decide +kernel)
    | exact (jobAdvance_only ..).le (by decide +kernel)

/-- What `predClear` can change. -/
def Feet.predClear : Mask := .of [] [.pred]

theorem predClear_only (c : Nat) :
    Only Feet.predClear.has (predClear c) := by
  simp only [predClear, putPred]
  with_reducible repeat' first
    | exact Only.pure _ | exact Only.getM | refine Only.bind ?_ fun _ => ?_ | refine Only.each fun _ _ => ?_
    | exact Only.doT .pred rfl (by decide +kernel)

/-- What `clusterLost` can change. -/
def Feet.clusterLost : Mask := (.of [.LM_CL_STATUS] [.job, .acc, .kmiss] : Mask).plus [Feet.resultPut, Feet.lmInc]

theorem clusterLost_only (c : Nat) :
    Only Feet.clusterLost.has (clusterLost c) := by
  simp only [clusterLost, putAcc, modKmiss, getKmiss, putKmiss, putRing, putJob]
  with_reducible repeat' first
    | exact Only.pure _ | exact Only.getM | refine Only.bind ?_ fun _ => ?_ | refine Only.onlyIf ?_
    | refine Only.each fun _ _ => ?_ | refine Only.ite ?_ ?_ | exact Only.wrK .LM_CL_STATUS rfl (by decide +kernel)
    | exact Only.addSatK .LM_CNT rfl (by decide +kernel) | exact Only.doT .ring rfl (by decide +kernel)
    | exact Only.doT .job rfl (by decide +kernel) | exact Only.doT .acc rfl (by decide +kernel)
    | exact Only.doT .kmiss rfl (by decide +kernel) | exact (raise_only ..).le (by decide +kernel)
    | exact (resultPut_only ..).le (by decide +kernel) | exact (lmInc_only ..).le (by decide +kernel)

/-- What `clusterDrained` can change. -/
def Feet.clusterDrained : Mask := .of [.LM_CL_STATUS] []

theorem clusterDrained_only (c : Nat) :
    Only Feet.clusterDrained.has (clusterDrained c) := by
  unfold clusterDrained
  with_reducible repeat' first
    | exact Only.pure _ | exact Only.getM | refine Only.bind ?_ fun _ => ?_ | refine Only.onlyIf ?_
    | exact Only.wrK .LM_CL_STATUS rfl (by decide +kernel)

/-- What `clusterReturn` can change. -/
def Feet.clusterReturn : Mask := .of [.LM_CL_STATUS] []

theorem clusterReturn_only (c : Nat) :
    Only Feet.clusterReturn.has (clusterReturn c) := by
  unfold clusterReturn
  with_reducible repeat' first
    | exact Only.pure _ | exact Only.getM | refine Only.bind ?_ fun _ => ?_ | refine Only.onlyIf ?_
    | exact Only.wrK .LM_CL_STATUS rfl (by decide +kernel)

/-- What `clusterOn` can change. -/
def Feet.clusterOn : Mask := .of [.LM_CL_STATUS] []

theorem clusterOn_only (c : Nat) :
    Only Feet.clusterOn.has (clusterOn c) := by
  unfold clusterOn
  with_reducible repeat' first
    | exact Only.pure _ | exact Only.getM | refine Only.bind ?_ fun _ => ?_ | refine Only.onlyIf ?_
    | exact Only.wrK .LM_CL_STATUS rfl (by decide +kernel)

/-- What `lmEffect` can change. -/
def Feet.lmEffect : Mask := (.of [.LM_CNT] [.pred, .lmTmo, .lmRem] : Mask).plus [Feet.clusterReturn]

theorem lmEffect_only (k : RegKind) (old cmd : Nat) :
    Only Feet.lmEffect.has (lmEffect k old cmd) := by
  simp only [lmEffect, putLmTmo, putLmRem, clearPred]
  with_reducible repeat' first
    | exact Only.pure _ | exact Only.getM | refine Only.bind ?_ fun _ => ?_ | refine Only.onlyIf ?_
    | refine Only.each fun _ _ => ?_ | exact Only.rstK .LM_CNT (by decide +kernel)
    | exact Only.wrK .LM_CL_STATUS rfl (by decide +kernel) | exact Only.doT .pred rfl (by decide +kernel)
    | exact Only.doT .lmTmo rfl (by decide +kernel) | exact Only.doT .lmRem rfl (by decide +kernel)
    | exact (clusterReturn_only ..).le (by decide +kernel) | split

end Sys2Proof.Machine
end

