-- ==== Sys2Proof/Laws/FeetPorts.lean ====
section
/-!
SUPPORT. The footprint of every operation of Machine/Ports.lean: the registers and the things beside them that it can
change, whatever the block holds.
-/
namespace Sys2Proof.Machine

set_option Elab.async false

/-- What `laneBits` can change. -/
def Feet.laneBits : Mask := .of [.OCT_STATUS] []

theorem laneBits_only (lo : Nat) (l : List Nat) (b : Nat) :
    Only Feet.laneBits.has (laneBits lo l b) := by
  unfold laneBits
  with_reducible repeat' first
    | exact Only.pure _ | exact Only.getM | refine Only.bind ?_ fun _ => ?_ | refine Only.each fun _ _ => ?_
    | exact Only.wrK .OCT_STATUS rfl (by decide +kernel)

/-- What `linkClear` can change. -/
def Feet.linkClear : Mask := (.of [.OCT_PORT_STATUS, .OCT_PORT_IDE] [] : Mask).plus [Feet.laneBits]

theorem linkClear_only (p : Nat) :
    Only Feet.linkClear.has (linkClear p) := by
  unfold linkClear
  with_reducible repeat' first
    | exact Only.pure _ | exact Only.getM | refine Only.bind ?_ fun _ => ?_
    | exact Only.wrRegK .OCT_PORT_STATUS (by decide +kernel) | exact Only.wrK .OCT_PORT_IDE rfl (by decide +kernel)
    | exact (laneBits_only ..).le (by decide +kernel)

/-- What `portTo` can change. -/
def Feet.portTo : Mask := .of [.OCT_PORT_STATUS] []

theorem portTo_only (p st : Nat) :
    Only Feet.portTo.has (portTo p st) := by
  unfold portTo
  with_reducible repeat' first
    | exact Only.pure _ | exact Only.getM | refine Only.bind ?_ fun _ => ?_
    | exact Only.wrK .OCT_PORT_STATUS rfl (by decide +kernel)

/-- What `linkPolicy` can change. -/
def Feet.linkPolicy : Mask := .of [] [.port]

theorem linkPolicy_only (p : Nat) :
    Only Feet.linkPolicy.has (linkPolicy p) := by
  simp only [linkPolicy, modPort, getPort, putPort]
  with_reducible repeat' first
    | exact Only.pure _ | exact Only.getM | refine Only.bind ?_ fun _ => ?_
    | exact Only.doT .port rfl (by decide +kernel)

/-- What `trainStart` can change. -/
def Feet.trainStart : Mask := (.of [.OCT_PORT_TRAIN] [] : Mask).plus [Feet.emit, Feet.linkClear, Feet.linkPolicy]

theorem trainStart_only (p : Nat) (fresh : Bool) :
    Only Feet.trainStart.has (trainStart p fresh) := by
  simp only [trainStart, modPort, getPort, putPort]
  with_reducible repeat' first
    | exact Only.pure _ | exact Only.getM | refine Only.bind ?_ fun _ => ?_ | refine Only.onlyIf ?_
    | refine Only.ite ?_ ?_ | exact Only.incK .OCT_PORT_TRAIN rfl (by decide +kernel)
    | exact Only.wrK .OCT_PORT_TRAIN rfl (by decide +kernel) | exact Only.doT .port rfl (by decide +kernel)
    | exact (emit_only ..).le (by decide +kernel) | exact (laneBits_only ..).le (by decide +kernel)
    | exact (linkClear_only ..).le (by decide +kernel) | exact (portTo_only ..).le (by decide +kernel)
    | exact (linkPolicy_only ..).le (by decide +kernel)

/-- What `portKick` can change. -/
def Feet.portKick : Mask := Feet.trainStart

theorem portKick_only (p : Nat) :
    Only Feet.portKick.has (portKick p) := by
  unfold portKick
  with_reducible repeat' first
    | exact Only.pure _ | exact Only.getM | refine Only.bind ?_ fun _ => ?_ | refine Only.ite ?_ ?_
    | exact (portTo_only ..).le (by decide +kernel) | exact (trainStart_only ..).le (by decide +kernel)

/-- What `portStateSend` can change. -/
def Feet.portStateSend : Mask := Feet.xsend

theorem portStateSend_only : Only Feet.portStateSend.has portStateSend := by
  unfold portStateSend
  with_reducible repeat' first
    | exact Only.pure _ | exact Only.getM | refine Only.bind ?_ fun _ => ?_ | refine Only.onlyIf ?_
    | exact (xsend_only ..).le (by decide +kernel)

/-- What `agentLost` can change. -/
def Feet.agentLost : Mask := Feet.sqAgentLost.plus [Feet.crnAgentLost]

theorem agentLost_only (a : Nat) :
    Only Feet.agentLost.has (agentLost a) := by
  unfold agentLost
  with_reducible repeat' first
    | exact Only.pure _ | exact Only.getM | refine Only.bind ?_ fun _ => ?_ | refine Only.onlyIf ?_
    | exact (sqAgentLost_only ..).le (by decide +kernel) | exact (crnAgentLost_only ..).le (by decide +kernel)

/-- What `agentDown` can change. -/
def Feet.agentDown : Mask := Feet.agentLost

theorem agentDown_only (p : Nat) :
    Only Feet.agentDown.has (agentDown p) := by
  unfold agentDown
  with_reducible repeat' first
    | exact Only.pure _ | exact Only.getM | refine Only.bind ?_ fun _ => ?_ | refine Only.onlyIf ?_
    | exact (portStateSend_only ..).le (by decide +kernel) | exact (agentLost_only ..).le (by decide +kernel) | split

/-- What `cacheDown` can change. -/
def Feet.cacheDown : Mask := (.of [] [.cout] : Mask).plus [Feet.emit]

theorem cacheDown_only (p : Nat) :
    Only Feet.cacheDown.has (cacheDown p) := by
  simp only [cacheDown, modCout, getCout, putCout]
  with_reducible repeat' first
    | exact Only.pure _ | exact Only.getM | refine Only.bind ?_ fun _ => ?_ | refine Only.each fun _ _ => ?_
    | refine Only.ite ?_ ?_ | exact Only.doT .cout rfl (by decide +kernel)
    | exact (emit_only ..).le (by decide +kernel)

/-- What `snoopsDown` can change. -/
def Feet.snoopsDown : Mask := Feet.trkGo

theorem snoopsDown_only (p : Nat) (owed : List (Op × Nat × Nat)) :
    Only Feet.snoopsDown.has (snoopsDown p owed) := by
  simp only [snoopsDown, getTrk]
  with_reducible repeat' first
    | exact Only.pure _ | exact Only.getM | refine Only.bind ?_ fun _ => ?_ | refine Only.each fun _ _ => ?_
    | refine Only.ite ?_ ?_ | exact (snoopLost_only ..).le (by decide +kernel)
    | exact (trkGo_only ..).le (by decide +kernel) | split

/-- What `portLeaveUp` can change. -/
def Feet.portLeaveUp : Mask := Feet.spillLanded.plus [Feet.xbFlushPort, Feet.vcsRingsStop, Feet.crnPortDown,
  Feet.portTo, Feet.agentDown, Feet.cacheDown]

theorem portLeaveUp_only (p st : Nat) :
    Only Feet.portLeaveUp.has (portLeaveUp p st) := by
  simp only [portLeaveUp, getOwed, modBic, getBic, putBic, modKacc, getKacc, putKacc]
  with_reducible repeat' first
    | exact Only.pure _ | exact Only.getM | refine Only.bind ?_ fun _ => ?_ | refine Only.each fun _ _ => ?_
    | exact Only.doT .bic rfl (by decide +kernel) | exact Only.doT .kacc rfl (by decide +kernel)
    | exact (spillLanded_only ..).le (by decide +kernel) | exact (xbFlushPort_only ..).le (by decide +kernel)
    | exact (vcsRingsStop_only ..).le (by decide +kernel) | exact (crnPortDown_only ..).le (by decide +kernel)
    | exact (portTo_only ..).le (by decide +kernel) | exact (agentDown_only ..).le (by decide +kernel)
    | exact (cacheDown_only ..).le (by decide +kernel) | exact (snoopsDown_only ..).le (by decide +kernel) | split

/-- What `hotplug` can change. -/
def Feet.hotplug : Mask := Feet.emit

theorem hotplug_only (p kind : Nat) :
    Only Feet.hotplug.has (hotplug p kind) := by
  unfold hotplug
  with_reducible repeat' first
    | exact Only.pure _ | exact Only.getM | refine Only.bind ?_ fun _ => ?_ | refine Only.each fun _ _ => ?_
    | exact (emit_only ..).le (by decide +kernel)

/-- What `portFlush` can change. -/
def Feet.portFlush : Mask := (.of [.OCT_PORT_CNT0] [] : Mask).plus [Feet.linkClear, Feet.portLeaveUp]

theorem portFlush_only (p : Nat) :
    Only Feet.portFlush.has (portFlush p) := by
  unfold portFlush
  with_reducible repeat' first
    | exact Only.pure _ | exact Only.getM | refine Only.bind ?_ fun _ => ?_
    | exact Only.incK .OCT_PORT_CNT0 rfl (by decide +kernel) | exact (linkClear_only ..).le (by decide +kernel)
    | exact (portLeaveUp_only ..).le (by decide +kernel) | exact (hotplug_only ..).le (by decide +kernel)

/-- What `portToUp` can change. -/
def Feet.portToUp : Mask := (.of [] [.port, .alost] : Mask).plus [Feet.portTo, Feet.portStateSend, Feet.hotplug]

theorem portToUp_only (p : Nat) :
    Only Feet.portToUp.has (portToUp p) := by
  simp only [portToUp, modPort, getPort, putPort, putAlost]
  with_reducible repeat' first
    | exact Only.pure _ | exact Only.getM | refine Only.bind ?_ fun _ => ?_
    | exact Only.wrK .OCT_PORT_STATUS rfl (by decide +kernel) | exact Only.doT .port rfl (by decide +kernel)
    | exact Only.doT .alost rfl (by decide +kernel) | exact (portTo_only ..).le (by decide +kernel)
    | exact (portStateSend_only ..).le (by decide +kernel) | exact (hotplug_only ..).le (by decide +kernel) | split

/-- What `portHold` can change. -/
def Feet.portHold : Mask := Feet.raise.plus [Feet.portTo]

theorem portHold_only (p reason : Nat) :
    Only Feet.portHold.has (portHold p reason) := by
  unfold portHold
  with_reducible repeat' first
    | exact Only.pure _ | exact Only.getM | refine Only.bind ?_ fun _ => ?_ | refine Only.onlyIf ?_
    | exact Only.wrK .OCT_PORT_STATUS rfl (by decide +kernel) | exact (raise_only ..).le (by decide +kernel)
    | exact (portTo_only ..).le (by decide +kernel)

/-- What `linkShow` can change. -/
def Feet.linkShow : Mask := (.of [.OCT_PORT_STATUS] [] : Mask).plus [Feet.laneBits]

theorem linkShow_only (p rate lanes : Nat) (lopt rev cxl : Bool) :
    Only Feet.linkShow.has (linkShow p rate lanes lopt rev cxl) := by
  unfold linkShow
  with_reducible repeat' first
    | exact Only.pure _ | exact Only.getM | refine Only.bind ?_ fun _ => ?_ | refine Only.ite ?_ ?_
    | exact Only.wrK .OCT_PORT_STATUS rfl (by decide +kernel) | exact (laneBits_only ..).le (by decide +kernel)

/-- What `trainingL0` can change. -/
def Feet.trainingL0 : Mask := (.of [.OCT_PORT_TRAIN, .OCT_PORT_IDE] [] : Mask).plus [Feet.portToUp, Feet.portHold,
  Feet.linkShow]

theorem trainingL0_only (p : Nat) (l : LinkUp) :
    Only Feet.trainingL0.has (trainingL0 p l) := by
  simp only [trainingL0, modPort, getPort, putPort]
  with_reducible repeat' first
    | exact Only.pure _ | exact Only.getM | refine Only.bind ?_ fun _ => ?_ | refine Only.onlyIf ?_
    | refine Only.each fun _ _ => ?_ | refine Only.ite ?_ ?_ | exact Only.wrK .OCT_PORT_IDE rfl (by decide +kernel)
    | exact Only.wrK .OCT_PORT_TRAIN rfl (by decide +kernel) | exact Only.doT .port rfl (by decide +kernel)
    | exact (raise_only ..).le (by decide +kernel) | exact (laneBits_only ..).le (by decide +kernel)
    | exact (portToUp_only ..).le (by decide +kernel) | exact (portHold_only ..).le (by decide +kernel)
    | exact (linkShow_only ..).le (by decide +kernel)

/-- What `trainTimeout` can change. -/
def Feet.trainTimeout : Mask := (.of [.OCT_PORT_CNT0] [] : Mask).plus [Feet.trainStart, Feet.portHold]

theorem trainTimeout_only (p : Nat) :
    Only Feet.trainTimeout.has (trainTimeout p) := by
  unfold trainTimeout
  with_reducible repeat' first
    | exact Only.pure _ | exact Only.getM | refine Only.bind ?_ fun _ => ?_ | refine Only.ite ?_ ?_
    | exact Only.incK .OCT_PORT_CNT0 rfl (by decide +kernel) | exact (raise_only ..).le (by decide +kernel)
    | exact (trainStart_only ..).le (by decide +kernel) | exact (portHold_only ..).le (by decide +kernel)

/-- What `xrateFall` can change. -/
def Feet.xrateFall : Mask := (.of [.OCT_PORT_CNT0] [.port] : Mask).plus [Feet.raise]

theorem xrateFall_only (p : Nat) :
    Only Feet.xrateFall.has (xrateFall p) := by
  simp only [xrateFall, modPort, getPort, putPort]
  with_reducible repeat' first
    | exact Only.pure _ | exact Only.getM | refine Only.bind ?_ fun _ => ?_
    | exact Only.incK .OCT_PORT_CNT0 rfl (by decide +kernel) | exact Only.doT .port rfl (by decide +kernel)
    | exact (raise_only ..).le (by decide +kernel)

/-- What `xrateTimeout` can change. -/
def Feet.xrateTimeout : Mask := Feet.xrateFall

theorem xrateTimeout_only (p : Nat) :
    Only Feet.xrateTimeout.has (xrateTimeout p) := by
  unfold xrateTimeout
  with_reducible repeat' first
    | exact Only.pure _ | exact Only.getM | refine Only.bind ?_ fun _ => ?_ | refine Only.onlyIf ?_
    | exact (xrateFall_only ..).le (by decide +kernel)

/-- What `recoveryDone` can change. -/
def Feet.recoveryDone : Mask := (.of [.OCT_PORT_TRAIN] [] : Mask).plus [Feet.portLeaveUp, Feet.linkShow,
  Feet.xrateFall]

theorem recoveryDone_only (p : Nat) (l : LinkUp) :
    Only Feet.recoveryDone.has (recoveryDone p l) := by
  simp only [recoveryDone, modPort, getPort, putPort]
  with_reducible repeat' first
    | exact Only.pure _ | exact Only.getM | refine Only.bind ?_ fun _ => ?_ | refine Only.onlyIf ?_
    | refine Only.ite ?_ ?_ | exact Only.wrK .OCT_PORT_TRAIN rfl (by decide +kernel)
    | exact Only.doT .port rfl (by decide +kernel) | exact (raise_only ..).le (by decide +kernel)
    | exact (linkPolicy_only ..).le (by decide +kernel) | exact (portLeaveUp_only ..).le (by decide +kernel)
    | exact (portHold_only ..).le (by decide +kernel) | exact (linkShow_only ..).le (by decide +kernel)
    | exact (xrateFall_only ..).le (by decide +kernel)

/-- What `linkDown` can change. -/
def Feet.linkDown : Mask := Feet.trainStart.plus [Feet.portFlush]

theorem linkDown_only (p : Nat) :
    Only Feet.linkDown.has (linkDown p) := by
  unfold linkDown
  with_reducible repeat' first
    | exact Only.pure _ | exact Only.getM | refine Only.bind ?_ fun _ => ?_ | refine Only.onlyIf ?_
    | refine Only.ite ?_ ?_ | exact (raise_only ..).le (by decide +kernel)
    | exact (trainStart_only ..).le (by decide +kernel) | exact (portFlush_only ..).le (by decide +kernel)

/-- What `ideSecure` can change. -/
def Feet.ideSecure : Mask := (.of [.OCT_PORT_IDE] [] : Mask).plus [Feet.portToUp]

theorem ideSecure_only (p mode : Nat) (kset : Bool) :
    Only Feet.ideSecure.has (ideSecure p mode kset) := by
  unfold ideSecure
  with_reducible repeat' first
    | exact Only.pure _ | exact Only.getM | refine Only.bind ?_ fun _ => ?_ | refine Only.onlyIf ?_
    | refine Only.ite ?_ ?_ | exact Only.wrK .OCT_PORT_IDE rfl (by decide +kernel)
    | exact Only.wrK .OCT_PORT_STATUS rfl (by decide +kernel) | exact (portToUp_only ..).le (by decide +kernel)

/-- What `ideKm` can change. -/
def Feet.ideKm : Mask := .of [.OCT_PORT_IDE] []

theorem ideKm_only (p : Nat) (k : IdeKm) :
    Only Feet.ideKm.has (ideKm p k) := by
  unfold ideKm
  with_reducible repeat' first
    | exact Only.pure _ | exact Only.getM | refine Only.bind ?_ fun _ => ?_ | refine Only.onlyIf ?_
    | refine Only.ite ?_ ?_ | exact Only.wrK .OCT_PORT_IDE rfl (by decide +kernel)
    | exact Only.incK .OCT_PORT_IDE rfl (by decide +kernel) | split

/-- What `ideTimeout` can change. -/
def Feet.ideTimeout : Mask := Feet.raise

theorem ideTimeout_only (p : Nat) :
    Only Feet.ideTimeout.has (ideTimeout p) := by
  unfold ideTimeout
  with_reducible repeat' first
    | exact Only.pure _ | exact Only.getM | refine Only.bind ?_ fun _ => ?_ | refine Only.onlyIf ?_
    | exact (raise_only ..).le (by decide +kernel)

/-- What `ideFail` can change. -/
def Feet.ideFail : Mask := Feet.portFlush

theorem ideFail_only (p : Nat) :
    Only Feet.ideFail.has (ideFail p) := by
  unfold ideFail
  with_reducible repeat' first
    | exact Only.pure _ | exact Only.getM | refine Only.bind ?_ fun _ => ?_ | refine Only.ite ?_ ?_
    | exact Only.incK .OCT_PORT_CNT0 rfl (by decide +kernel) | exact (raise_only ..).le (by decide +kernel)
    | exact (portFlush_only ..).le (by decide +kernel)

/-- What `flushComplete` can change. -/
def Feet.flushComplete : Mask := Feet.trainStart

theorem flushComplete_only (p : Nat) :
    Only Feet.flushComplete.has (flushComplete p) := by
  unfold flushComplete
  with_reducible repeat' first
    | exact Only.pure _ | exact Only.getM | refine Only.bind ?_ fun _ => ?_ | refine Only.ite ?_ ?_
    | exact (portTo_only ..).le (by decide +kernel) | exact (trainStart_only ..).le (by decide +kernel)

/-- What `flushTimeout` can change. -/
def Feet.flushTimeout : Mask := (.of [.OCT_PORT_CTL] [] : Mask).plus [Feet.raise, Feet.portTo]

theorem flushTimeout_only (p : Nat) :
    Only Feet.flushTimeout.has (flushTimeout p) := by
  unfold flushTimeout
  with_reducible repeat' first
    | exact Only.pure _ | exact Only.getM | refine Only.bind ?_ fun _ => ?_ | refine Only.ite ?_ ?_
    | exact Only.wrK .OCT_PORT_CTL rfl (by decide +kernel) | exact (raise_only ..).le (by decide +kernel)
    | exact (portTo_only ..).le (by decide +kernel)

/-- What `portOff` can change. -/
def Feet.portOff : Mask := Feet.linkClear.plus [Feet.portLeaveUp]

theorem portOff_only (p : Nat) :
    Only Feet.portOff.has (portOff p) := by
  unfold portOff
  with_reducible repeat' first
    | exact Only.pure _ | exact Only.getM | refine Only.bind ?_ fun _ => ?_ | refine Only.ite ?_ ?_
    | exact (laneBits_only ..).le (by decide +kernel) | exact (linkClear_only ..).le (by decide +kernel)
    | exact (portTo_only ..).le (by decide +kernel) | exact (portLeaveUp_only ..).le (by decide +kernel)

/-- What `slotPerstShow` can change. -/
def Feet.slotPerstShow : Mask := .of [.OCT_STATUS] [.pins]

theorem slotPerstShow_only (n : Nat) :
    Only Feet.slotPerstShow.has (slotPerstShow n) := by
  simp only [slotPerstShow, modPins, getPins, putPins]
  with_reducible repeat' first
    | exact Only.pure _ | exact Only.getM | refine Only.bind ?_ fun _ => ?_ | refine Only.ite ?_ ?_
    | exact Only.wrK .OCT_STATUS rfl (by decide +kernel) | exact Only.doT .pins rfl (by decide +kernel)

/-- What `slotPerstAssert` can change. -/
def Feet.slotPerstAssert : Mask := (.of [] [.port] : Mask).plus [Feet.slotPerstShow]

theorem slotPerstAssert_only (n : Nat) :
    Only Feet.slotPerstAssert.has (slotPerstAssert n) := by
  simp only [slotPerstAssert, modPort, getPort, putPort]
  with_reducible repeat' first
    | exact Only.pure _ | exact Only.getM | refine Only.bind ?_ fun _ => ?_
    | exact Only.doT .port rfl (by decide +kernel) | exact (slotPerstShow_only ..).le (by decide +kernel)

/-- What `slotPerstRelease` can change. -/
def Feet.slotPerstRelease : Mask := (.of [] [.port] : Mask).plus [Feet.slotPerstShow]

theorem slotPerstRelease_only (n : Nat) :
    Only Feet.slotPerstRelease.has (slotPerstRelease n) := by
  simp only [slotPerstRelease, modPort, getPort, putPort]
  with_reducible repeat' first
    | exact Only.pure _ | exact Only.getM | refine Only.bind ?_ fun _ => ?_ | refine Only.ite ?_ ?_
    | exact Only.doT .port rfl (by decide +kernel) | exact (slotPerstShow_only ..).le (by decide +kernel)

/-- What `portPresence` can change. -/
def Feet.portPresence : Mask := Feet.trainStart.plus [Feet.portFlush, Feet.slotPerstAssert]

theorem portPresence_only (n : Nat) (present : Bool) :
    Only Feet.portPresence.has (portPresence n present) := by
  unfold portPresence
  with_reducible repeat' first
    | exact Only.pure _ | exact Only.getM | refine Only.bind ?_ fun _ => ?_ | refine Only.onlyIf ?_
    | refine Only.ite ?_ ?_ | exact (raise_only ..).le (by decide +kernel)
    | exact (trainStart_only ..).le (by decide +kernel) | exact (hotplug_only ..).le (by decide +kernel)
    | exact (portFlush_only ..).le (by decide +kernel) | exact (slotPerstAssert_only ..).le (by decide +kernel)
    | split

/-- What `vcsReset` can change. -/
def Feet.vcsReset : Mask := .of [] [.dec, .sf, .msix, .vwin]

theorem vcsReset_only (v : Nat) :
    Only Feet.vcsReset.has (vcsReset v) := by
  simp only [vcsReset, putDec, putVwin, putMsix, putSf]
  with_reducible repeat' first
    | exact Only.pure _ | exact Only.getM | refine Only.bind ?_ fun _ => ?_ | refine Only.each fun _ _ => ?_
    | exact Only.doT .dec rfl (by decide +kernel) | exact Only.doT .sf rfl (by decide +kernel)
    | exact Only.doT .msix rfl (by decide +kernel) | exact Only.doT .vwin rfl (by decide +kernel)

/-- What `perstAssert` can change. -/
def Feet.perstAssert : Mask := (.of [.TM_SRING_CTL] [.pins] : Mask).plus [Feet.portFlush, Feet.vcsReset]

theorem perstAssert_only (v : Nat) :
    Only Feet.perstAssert.has (perstAssert v) := by
  simp only [perstAssert, modPins, getPins, putPins]
  with_reducible repeat' first
    | exact Only.pure _ | exact Only.getM | refine Only.bind ?_ fun _ => ?_ | refine Only.onlyIf ?_
    | refine Only.each fun _ _ => ?_ | refine Only.ite ?_ ?_ | exact Only.wrK .TM_SRING_CTL rfl (by decide +kernel)
    | exact Only.doT .pins rfl (by decide +kernel) | exact (emit_only ..).le (by decide +kernel)
    | exact (raise_only ..).le (by decide +kernel) | exact (vcsRingsStop_only ..).le (by decide +kernel)
    | exact (linkClear_only ..).le (by decide +kernel) | exact (portTo_only ..).le (by decide +kernel)
    | exact (portFlush_only ..).le (by decide +kernel) | exact (vcsReset_only ..).le (by decide +kernel)

/-- What `perstDeassert` can change. -/
def Feet.perstDeassert : Mask := (.of [] [.pins] : Mask).plus [Feet.trainStart]

theorem perstDeassert_only (v : Nat) :
    Only Feet.perstDeassert.has (perstDeassert v) := by
  simp only [perstDeassert, modPins, getPins, putPins]
  with_reducible repeat' first
    | exact Only.pure _ | exact Only.getM | refine Only.bind ?_ fun _ => ?_ | refine Only.ite ?_ ?_
    | exact Only.doT .pins rfl (by decide +kernel) | exact (portTo_only ..).le (by decide +kernel)
    | exact (trainStart_only ..).le (by decide +kernel)

/-- What `msgInvalid` can change. -/
def Feet.msgInvalid : Mask := .of [.OCT_PORT_CNT1] []

theorem msgInvalid_only (p : Nat) :
    Only Feet.msgInvalid.has (msgInvalid p) := by
  unfold msgInvalid
  with_reducible repeat' first
    | exact Only.pure _ | exact Only.getM | refine Only.bind ?_ fun _ => ?_
    | exact Only.incK .OCT_PORT_CNT1 rfl (by decide +kernel)

/-- What `decodeMiss` can change. -/
def Feet.decodeMiss : Mask := (.of [.OCT_PORT_CNT1] [] : Mask).plus [Feet.countFirst]

theorem decodeMiss_only (p addr : Nat) :
    Only Feet.decodeMiss.has (decodeMiss p addr) := by
  unfold decodeMiss
  with_reducible repeat' first
    | exact Only.pure _ | exact Only.getM | refine Only.bind ?_ fun _ => ?_
    | exact countFirst_only _ (by decide +kernel) (k := .OCT_PORT_CNT1) rfl (by decide +kernel)

/-- What `poisonIn` can change. -/
def Feet.poisonIn : Mask := Feet.poisonReceived

theorem poisonIn_only (p : Nat) (q : Msg) :
    Only Feet.poisonIn.has (poisonIn p q) := by
  unfold poisonIn
  with_reducible repeat' first
    | exact Only.pure _ | exact Only.getM | refine Only.bind ?_ fun _ => ?_ | refine Only.onlyIf ?_
    | exact (poisonReceived_only ..).le (by decide +kernel)

/-- What `received` can change. -/
def Feet.received : Mask := Feet.mirrorBoth.plus [Feet.poisonIn]

theorem received_only (p : Nat) (q : Msg) (refused : Bool) :
    Only Feet.received.has (received p q refused) := by
  unfold received
  with_reducible repeat' first
    | exact Only.pure _ | exact Only.getM | refine Only.bind ?_ fun _ => ?_
    | exact (mirrorBoth_only ..).le (by decide +kernel) | exact (poisonIn_only ..).le (by decide +kernel)

/-- What `rxDone` can change. -/
def Feet.rxDone : Mask := Feet.emit

theorem rxDone_only (p : Nat) (q : Msg) :
    Only Feet.rxDone.has (rxDone p q) := by
  unfold rxDone
  with_reducible repeat' first
    | exact Only.pure _ | exact Only.getM | refine Only.bind ?_ fun _ => ?_
    | exact (emit_only ..).le (by decide +kernel)

/-- What `decoderSet` can change. -/
def Feet.decoderSet : Mask := .of [] [.dec]

theorem decoderSet_only (v n : Nat) (d : Decoder) :
    Only Feet.decoderSet.has (decoderSet v n d) := by
  simp only [decoderSet, putDec]
  with_reducible repeat' first
    | exact Only.pure _ | exact Only.getM | refine Only.bind ?_ fun _ => ?_ | refine Only.onlyIf ?_
    | exact Only.doT .dec rfl (by decide +kernel)

/-- What `ioAnswer` can change. -/
def Feet.ioAnswer : Mask := Feet.emit

theorem ioAnswer_only (p tag : Nat) (data : List Word) :
    Only Feet.ioAnswer.has (ioAnswer p tag data) := by
  unfold ioAnswer
  with_reducible repeat' first
    | exact Only.pure _ | exact Only.getM | refine Only.bind ?_ fun _ => ?_
    | exact (emit_only ..).le (by decide +kernel)

/-- What `decoderRead` can change. -/
def Feet.decoderRead : Mask := Feet.ioAnswer

theorem decoderRead_only (p v n : Nat) :
    Only Feet.decoderRead.has (decoderRead p v n) := by
  simp only [decoderRead, getDec]
  with_reducible repeat' first
    | exact Only.pure _ | exact Only.getM | refine Only.bind ?_ fun _ => ?_
    | exact (ioAnswer_only ..).le (by decide +kernel)

/-- What `octetAnswer` can change. -/
def Feet.octetAnswer : Mask := Feet.emit

theorem octetAnswer_only (p : Nat) (q : Msg) (ones : Bool) :
    Only Feet.octetAnswer.has (octetAnswer p q ones) := by
  unfold octetAnswer
  with_reducible repeat' first
    | exact Only.pure _ | exact Only.getM | refine Only.bind ?_ fun _ => ?_ | refine Only.onlyIf ?_
    | refine Only.ite ?_ ?_ | exact (emit_only ..).le (by decide +kernel)
    | exact (rxDone_only ..).le (by decide +kernel)

/-- What `hostCheck` can change. -/
def Feet.hostCheck : Mask := Feet.kerbCheck

theorem hostCheck_only (p v : Nat) (q : Msg) (a : Nat) :
    Only Feet.hostCheck.has (hostCheck p v q a) := by
  unfold hostCheck
  with_reducible repeat' first
    | exact Only.pure _ | exact Only.getM | refine Only.bind ?_ fun _ => ?_ | refine Only.ite ?_ ?_
    | exact (kerbCheck_only ..).le (by decide +kernel)

/-- What `missReq` can change. -/
def Feet.missReq : Mask := Feet.decodeMiss.plus [Feet.received, Feet.octetAnswer, Feet.hostCheck]

theorem missReq_only (p v : Nat) (q : Msg) :
    Only Feet.missReq.has (missReq p v q) := by
  unfold missReq
  with_reducible repeat' first
    | exact Only.pure _ | exact Only.getM | refine Only.bind ?_ fun _ => ?_
    | exact (decodeMiss_only ..).le (by decide +kernel) | exact (received_only ..).le (by decide +kernel)
    | exact (octetAnswer_only ..).le (by decide +kernel) | exact (hostCheck_only ..).le (by decide +kernel)

/-- What `domainReq` can change. -/
def Feet.domainReq : Mask := (.of [.SQ_CNT] [] : Mask).plus [Feet.emit, Feet.xsend, Feet.decodeMiss, Feet.received,
  Feet.hostCheck]

theorem domainReq_only (p v : Nat) (q : Msg) (a : Nat) :
    Only Feet.domainReq.has (domainReq p v q a) := by
  unfold domainReq
  with_reducible repeat' first
    | exact Only.pure _ | exact Only.getM | refine Only.bind ?_ fun _ => ?_ | refine Only.onlyIf ?_
    | refine Only.ite ?_ ?_ | exact countFirst_only _ (by decide +kernel) (k := .SQ_CNT) rfl (by decide +kernel)
    | exact (emit_only ..).le (by decide +kernel) | exact (kerbDone_only ..).le (by decide +kernel)
    | exact (xsend_only ..).le (by decide +kernel) | exact (hostAccess_only ..).le (by decide +kernel)
    | exact (decodeMiss_only ..).le (by decide +kernel) | exact (received_only ..).le (by decide +kernel)
    | exact (rxDone_only ..).le (by decide +kernel) | exact (octetAnswer_only ..).le (by decide +kernel)
    | exact (hostCheck_only ..).le (by decide +kernel) | split

/-- What `plazaReq` can change. -/
def Feet.plazaReq : Mask := Feet.xsend.plus [Feet.received]

theorem plazaReq_only (p : Nat) (q : Msg) (a : Nat) :
    Only Feet.plazaReq.has (plazaReq p q a) := by
  unfold plazaReq
  with_reducible repeat' first
    | exact Only.pure _ | exact Only.getM | refine Only.bind ?_ fun _ => ?_ | refine Only.ite ?_ ?_
    | exact (xsend_only ..).le (by decide +kernel) | exact (received_only ..).le (by decide +kernel)

/-- What `hostMem` can change. -/
def Feet.hostMem : Mask := Feet.domainReq

theorem hostMem_only (p : Nat) (q0 : Msg) :
    Only Feet.hostMem.has (hostMem p q0) := by
  unfold hostMem
  with_reducible repeat' first
    | exact Only.pure _ | exact Only.getM | refine Only.bind ?_ fun _ => ?_ | refine Only.ite ?_ ?_
    | exact (xsend_only ..).le (by decide +kernel) | exact (msgInvalid_only ..).le (by decide +kernel)
    | exact (received_only ..).le (by decide +kernel) | exact (missReq_only ..).le (by decide +kernel)
    | exact (domainReq_only ..).le (by decide +kernel) | exact (plazaReq_only ..).le (by decide +kernel) | split

/-- What `portMessage` can change. -/
def Feet.portMessage : Mask := Feet.emit.plus [Feet.xsend, Feet.owedDone, Feet.msgInvalid, Feet.received]

theorem portMessage_only (p : Nat) (q0 : Msg) :
    Only Feet.portMessage.has (portMessage p q0) := by
  unfold portMessage
  with_reducible repeat' first
    | exact Only.pure _ | exact Only.getM | refine Only.bind ?_ fun _ => ?_ | refine Only.ite ?_ ?_
    | exact (emit_only ..).le (by decide +kernel) | exact (xsend_only ..).le (by decide +kernel)
    | exact (owedDone_only ..).le (by decide +kernel) | exact (msgInvalid_only ..).le (by decide +kernel)
    | exact (received_only ..).le (by decide +kernel) | exact (rxDone_only ..).le (by decide +kernel) | split

/-- What `messageDispatch` can change. -/
def Feet.messageDispatch : Mask := Feet.dispatchHead.plus [Feet.portMessage]

theorem messageDispatch_only (i c : Nat) (q : Option Msg) :
    Only Feet.messageDispatch.has (messageDispatch i c q) := by
  unfold messageDispatch
  with_reducible repeat' first
    | exact Only.pure _ | exact Only.getM | refine Only.bind ?_ fun _ => ?_ | refine Only.onlyIf ?_
    | refine Only.ite ?_ ?_ | exact (dispatchHead_only ..).le (by decide +kernel)
    | exact (msgInvalid_only ..).le (by decide +kernel) | exact (portMessage_only ..).le (by decide +kernel) | split

/-- What `ioUr` can change. -/
def Feet.ioUr : Mask := Feet.emit

theorem ioUr_only (p : Nat) (q : Msg) :
    Only Feet.ioUr.has (ioUr p q) := by
  unfold ioUr
  with_reducible repeat' first
    | exact Only.pure _ | exact Only.getM | refine Only.bind ?_ fun _ => ?_ | refine Only.onlyIf ?_
    | exact (emit_only ..).le (by decide +kernel)

/-- What `ioMiss` can change. -/
def Feet.ioMiss : Mask := Feet.decodeMiss.plus [Feet.rxDone]

theorem ioMiss_only (p : Nat) (q : Msg) :
    Only Feet.ioMiss.has (ioMiss p q) := by
  unfold ioMiss
  with_reducible repeat' first
    | exact Only.pure _ | exact Only.getM | refine Only.bind ?_ fun _ => ?_
    | exact (decodeMiss_only ..).le (by decide +kernel) | exact (rxDone_only ..).le (by decide +kernel)
    | exact (ioUr_only ..).le (by decide +kernel)

/-- What `cfgRead` can change. -/
def Feet.cfgRead : Mask := .of [] [.freeCtr]

theorem cfgRead_only (m : Mach) (v n : Nat) (r : CfgReg) :
    Only Feet.cfgRead.has (cfgRead m v n r) := by
  unfold cfgRead
  with_reducible repeat' first
    | exact Only.pure _ | exact Only.getM | refine Only.bind ?_ fun _ => ?_ | exact Only.free _ (by decide +kernel)

/-- What `configRead` can change. -/
def Feet.configRead : Mask := Feet.decodeMiss.plus [Feet.ioAnswer, Feet.cfgRead]

theorem configRead_only (p v n : Nat) (r : CfgReg) :
    Only Feet.configRead.has (configRead p v n r) := by
  unfold configRead
  with_reducible repeat' first
    | exact Only.pure _ | exact Only.getM | refine Only.bind ?_ fun _ => ?_ | refine Only.ite ?_ ?_
    | exact (decodeMiss_only ..).le (by decide +kernel) | exact (ioAnswer_only ..).le (by decide +kernel)
    | exact (ioUr_only ..).le (by decide +kernel) | exact (cfgRead_only ..).le (by decide +kernel)

/-- What `ioToVppb` can change. -/
def Feet.ioToVppb : Mask := (.of [] [.freeCtr] : Mask).plus [Feet.xsend, Feet.ioMiss]

theorem ioToVppb_only (p v n : Nat) (q : Msg) :
    Only Feet.ioToVppb.has (ioToVppb p v n q) := by
  unfold ioToVppb
  with_reducible repeat' first
    | exact Only.pure _ | exact Only.getM | refine Only.bind ?_ fun _ => ?_ | refine Only.ite ?_ ?_
    | exact Only.free _ (by decide +kernel) | exact (emit_only ..).le (by decide +kernel)
    | exact (xsend_only ..).le (by decide +kernel) | exact (rxDone_only ..).le (by decide +kernel)
    | exact (ioMiss_only ..).le (by decide +kernel) | split

/-- What `ioComplete` can change. -/
def Feet.ioComplete : Mask := Feet.xsend.plus [Feet.owedDone, Feet.msgInvalid, Feet.received]

theorem ioComplete_only (p : Nat) (q : Msg) :
    Only Feet.ioComplete.has (ioComplete p q) := by
  unfold ioComplete
  with_reducible repeat' first
    | exact Only.pure _ | exact Only.getM | refine Only.bind ?_ fun _ => ?_ | refine Only.ite ?_ ?_
    | exact (xsend_only ..).le (by decide +kernel) | exact (owedDone_only ..).le (by decide +kernel)
    | exact (msgInvalid_only ..).le (by decide +kernel) | exact (received_only ..).le (by decide +kernel)

/-- What `ioMessage` can change. -/
def Feet.ioMessage : Mask := Feet.ioToVppb.plus [Feet.ioComplete]

theorem ioMessage_only (p : Nat) (q0 : Msg) :
    Only Feet.ioMessage.has (ioMessage p q0) := by
  unfold ioMessage
  with_reducible repeat' first
    | exact Only.pure _ | exact Only.getM | refine Only.bind ?_ fun _ => ?_ | refine Only.ite ?_ ?_
    | exact (xsend_only ..).le (by decide +kernel) | exact (msgInvalid_only ..).le (by decide +kernel)
    | exact (received_only ..).le (by decide +kernel) | exact (ioMiss_only ..).le (by decide +kernel)
    | exact (ioToVppb_only ..).le (by decide +kernel) | exact (ioComplete_only ..).le (by decide +kernel) | split

/-- What `msixWrite` can change. -/
def Feet.msixWrite : Mask := (.of [] [.msix] : Mask).plus [Feet.msixSend]

theorem msixWrite_only (v vec word : Nat) (d : Word) :
    Only Feet.msixWrite.has (msixWrite v vec word d) := by
  simp only [msixWrite, putMsix, getSf, putSf]
  with_reducible repeat' first
    | exact Only.pure _ | exact Only.getM | refine Only.bind ?_ fun _ => ?_ | refine Only.onlyIf ?_
    | refine Only.ite ?_ ?_ | exact Only.doT .sf rfl (by decide +kernel)
    | exact Only.doT .msix rfl (by decide +kernel) | exact (msixSend_only ..).le (by decide +kernel)

/-- What `hostIo` can change. -/
def Feet.hostIo : Mask := (.of [] [.vwin] : Mask).plus [Feet.decoderSet, Feet.ioMessage, Feet.msixWrite]

theorem hostIo_only (p : Nat) (r : IoReq) :
    Only Feet.hostIo.has (hostIo p r) := by
  simp only [hostIo, putVwin]
  with_reducible repeat' first
    | exact Only.pure _ | exact Only.getM | refine Only.bind ?_ fun _ => ?_ | refine Only.onlyIf ?_
    | refine Only.ite ?_ ?_ | exact Only.doT .vwin rfl (by decide +kernel)
    | exact (msgInvalid_only ..).le (by decide +kernel) | exact (decoderSet_only ..).le (by decide +kernel)
    | exact (decoderRead_only ..).le (by decide +kernel) | exact (configRead_only ..).le (by decide +kernel)
    | exact (ioMessage_only ..).le (by decide +kernel) | exact (msixWrite_only ..).le (by decide +kernel) | split

/-- What `edgeMessage` can change. -/
def Feet.edgeMessage : Mask := Feet.ioMessage

theorem edgeMessage_only (p dpid spid : Nat) (q : Msg) :
    Only Feet.edgeMessage.has (edgeMessage p dpid spid q) := by
  unfold edgeMessage
  with_reducible repeat' first
    | exact Only.pure _ | exact Only.getM | refine Only.bind ?_ fun _ => ?_ | refine Only.ite ?_ ?_
    | exact (msgInvalid_only ..).le (by decide +kernel) | exact (portMessage_only ..).le (by decide +kernel)
    | exact (ioMessage_only ..).le (by decide +kernel) | split

/-- What `cacheDone` can change. -/
def Feet.cacheDone : Mask := .of [] [.cout]

theorem cacheDone_only (q : Msg) :
    Only Feet.cacheDone.has (cacheDone q) := by
  simp only [cacheDone, modCout, getCout, putCout]
  with_reducible repeat' first
    | exact Only.pure _ | exact Only.getM | refine Only.bind ?_ fun _ => ?_
    | exact Only.doT .cout rfl (by decide +kernel)

/-- What `cacheOpen` can change. -/
def Feet.cacheOpen : Mask := .of [] [.cout]

theorem cacheOpen_only (q : Msg) :
    Only Feet.cacheOpen.has (cacheOpen q) := by
  simp only [cacheOpen, modCout, getCout, putCout]
  with_reducible repeat' first
    | exact Only.pure _ | exact Only.getM | refine Only.bind ?_ fun _ => ?_ | refine Only.ite ?_ ?_
    | exact Only.doT .cout rfl (by decide +kernel) | split

/-- What `cacheRoute` can change. -/
def Feet.cacheRoute : Mask := Feet.xsend.plus [Feet.cacheDown, Feet.msgInvalid, Feet.received]

theorem cacheRoute_only (p : Nat) (q : Msg) :
    Only Feet.cacheRoute.has (cacheRoute p q) := by
  unfold cacheRoute
  with_reducible repeat' first
    | exact Only.pure _ | exact Only.getM | refine Only.bind ?_ fun _ => ?_ | refine Only.ite ?_ ?_
    | exact (xsend_only ..).le (by decide +kernel) | exact (cacheDown_only ..).le (by decide +kernel)
    | exact (msgInvalid_only ..).le (by decide +kernel) | exact (received_only ..).le (by decide +kernel)
    | exact (rxDone_only ..).le (by decide +kernel) | exact (cacheDone_only ..).le (by decide +kernel)
    | exact (cacheOpen_only ..).le (by decide +kernel)

/-- What `cacheMessage` can change. -/
def Feet.cacheMessage : Mask := Feet.cacheRoute

theorem cacheMessage_only (p : Nat) (q0 : Msg) :
    Only Feet.cacheMessage.has (cacheMessage p q0) := by
  unfold cacheMessage
  with_reducible repeat' first
    | exact Only.pure _ | exact Only.getM | refine Only.bind ?_ fun _ => ?_ | refine Only.ite ?_ ?_
    | exact (emit_only ..).le (by decide +kernel) | exact (msgInvalid_only ..).le (by decide +kernel)
    | exact (decodeMiss_only ..).le (by decide +kernel) | exact (received_only ..).le (by decide +kernel)
    | exact (rxDone_only ..).le (by decide +kernel) | exact (cacheRoute_only ..).le (by decide +kernel) | split

/-- What `biConflictIn` can change. -/
def Feet.biConflictIn : Mask := Feet.biConflict.plus [Feet.msgInvalid, Feet.received]

theorem biConflictIn_only (p addr tag : Nat) :
    Only Feet.biConflictIn.has (biConflictIn p addr tag) := by
  unfold biConflictIn
  with_reducible repeat' first
    | exact Only.pure _ | exact Only.getM | refine Only.bind ?_ fun _ => ?_ | refine Only.ite ?_ ?_
    | exact (biConflict_only ..).le (by decide +kernel) | exact (msgInvalid_only ..).le (by decide +kernel)
    | exact (received_only ..).le (by decide +kernel) | exact (rxDone_only ..).le (by decide +kernel) | split

/-- What `portEnable` can change. -/
def Feet.portEnable : Mask := Feet.trainStart.plus [Feet.portFlush]

theorem portEnable_only (p : Nat) (on : Bool) :
    Only Feet.portEnable.has (portEnable p on) := by
  unfold portEnable
  with_reducible repeat' first
    | exact Only.pure _ | exact Only.getM | refine Only.bind ?_ fun _ => ?_ | refine Only.onlyIf ?_
    | refine Only.ite ?_ ?_ | exact Only.wrK .OCT_PORT_TRAIN rfl (by decide +kernel)
    | exact (linkClear_only ..).le (by decide +kernel) | exact (portTo_only ..).le (by decide +kernel)
    | exact (trainStart_only ..).le (by decide +kernel) | exact (portKick_only ..).le (by decide +kernel)
    | exact (portFlush_only ..).le (by decide +kernel)

/-- What `portRetrain` can change. -/
def Feet.portRetrain : Mask := Feet.trainStart

theorem portRetrain_only (p : Nat) (full : Bool) :
    Only Feet.portRetrain.has (portRetrain p full) := by
  simp only [portRetrain, modPort, getPort, putPort]
  with_reducible repeat' first
    | exact Only.pure _ | exact Only.getM | refine Only.bind ?_ fun _ => ?_ | refine Only.onlyIf ?_
    | refine Only.ite ?_ ?_ | exact Only.doT .port rfl (by decide +kernel)
    | exact (linkPolicy_only ..).le (by decide +kernel) | exact (trainStart_only ..).le (by decide +kernel)

/-- What `octEffect` can change. -/
def Feet.octEffect : Mask := (.of [.OCT_PORT_CNT1] [] : Mask).plus [Feet.crnEffect, Feet.slotPerstShow,
  Feet.portEnable]

theorem octEffect_only (k : RegKind) (i old cmd : Nat) :
    Only Feet.octEffect.has (octEffect k i old cmd) := by
  unfold octEffect
  with_reducible repeat' first
    | exact Only.pure _ | exact Only.getM | refine Only.bind ?_ fun _ => ?_ | refine Only.onlyIf ?_
    | exact Only.rstK .OCT_PORT_CNT0 (by decide +kernel) | exact Only.rstK .OCT_PORT_CNT1 (by decide +kernel)
    | exact (crnEffect_only ..).le (by decide +kernel) | exact (slotPerstShow_only ..).le (by decide +kernel)
    | exact (portEnable_only ..).le (by decide +kernel) | exact (portRetrain_only ..).le (by decide +kernel) | split

end Sys2Proof.Machine
end

