-- ==== Sys2Proof/Laws/FeetTwin.lean ====
section
/-!
SUPPORT. The footprint of every operation of Machine/Twin.lean: the registers and the things beside them that it can
change, whatever the block holds.
-/
namespace Sys2Proof.Machine

set_option Elab.async false

/-- What `arrayClear` can change. -/
def Feet.arrayClear : Mask := .of [] [.dir]

theorem arrayClear_only (arr : Nat) :
    Only Feet.arrayClear.has (arrayClear arr) := by
  simp only [arrayClear, putDir]
  with_reducible repeat' first
    | exact Only.pure _ | exact Only.getM | refine Only.bind ?_ fun _ => ?_ | refine Only.each fun _ _ => ?_
    | exact Only.doT .dir rfl (by decide +kernel)

/-- What `blindShow` can change. -/
def Feet.blindShow : Mask := .of [.TWN_ROLE, .TWN_BLIND] []

theorem blindShow_only : Only Feet.blindShow.has blindShow := by
  unfold blindShow
  with_reducible repeat' first
    | exact Only.pure _ | exact Only.getM | refine Only.bind ?_ fun _ => ?_ | refine Only.ite ?_ ?_
    | exact Only.wrK .TWN_BLIND rfl (by decide +kernel) | exact Only.wrK .TWN_ROLE rfl (by decide +kernel)

/-- What `copyStart` can change. -/
def Feet.copyStart : Mask := (.of [.TWN_ROLE, .TWN_COPY] [.sqx, .mtt] : Mask).plus [Feet.arrayClear]

theorem copyStart_only (st : Nat) :
    Only Feet.copyStart.has (copyStart st) := by
  simp only [copyStart, modSqx, getSqx, putSqx, clearMtt]
  with_reducible repeat' first
    | exact Only.pure _ | exact Only.getM | refine Only.bind ?_ fun _ => ?_ | refine Only.onlyIf ?_
    | refine Only.each fun _ _ => ?_ | exact Only.wrK .TWN_COPY rfl (by decide +kernel)
    | exact Only.wrK .TWN_ROLE rfl (by decide +kernel) | exact Only.doT .sqx rfl (by decide +kernel)
    | exact Only.doT .mtt rfl (by decide +kernel) | exact (arrayClear_only ..).le (by decide +kernel)

/-- What `moveClear` can change. -/
def Feet.moveClear : Mask := .of [.TWN_ROLE] [.sqx, .twx]

theorem moveClear_only : Only Feet.moveClear.has moveClear := by
  simp only [moveClear, modTwx, getTwx, putTwx, modSqx, getSqx, putSqx]
  with_reducible repeat' first
    | exact Only.pure _ | exact Only.getM | refine Only.bind ?_ fun _ => ?_ | refine Only.each fun _ _ => ?_
    | refine Only.ite ?_ ?_ | exact Only.wrK .TWN_ROLE rfl (by decide +kernel)
    | exact Only.doT .sqx rfl (by decide +kernel) | exact Only.doT .twx rfl (by decide +kernel)

/-- What `roleTo` can change. -/
def Feet.roleTo : Mask := Feet.raise.plus [Feet.copyStart, Feet.moveClear]

theorem roleTo_only (st : Nat) :
    Only Feet.roleTo.has (roleTo st) := by
  simp only [roleTo, modSqx, getSqx, putSqx, modTwx, getTwx, putTwx]
  with_reducible repeat' first
    | exact Only.pure _ | exact Only.getM | refine Only.bind ?_ fun _ => ?_ | refine Only.onlyIf ?_
    | refine Only.each fun _ _ => ?_ | refine Only.ite ?_ ?_ | exact Only.rd _
    | exact Only.wrK .TWN_COPY rfl (by decide +kernel) | exact Only.wrK .TWN_ROLE rfl (by decide +kernel)
    | exact Only.doT .sqx rfl (by decide +kernel) | exact Only.doT .twx rfl (by decide +kernel)
    | exact (raise_only ..).le (by decide +kernel) | exact (copyStart_only ..).le (by decide +kernel)
    | exact (moveClear_only ..).le (by decide +kernel)

/-- What `linkinfoSend` can change. -/
def Feet.linkinfoSend : Mask := Feet.emit

theorem linkinfoSend_only : Only Feet.linkinfoSend.has linkinfoSend := by
  unfold linkinfoSend
  with_reducible repeat' first
    | exact Only.pure _ | exact Only.getM | refine Only.bind ?_ fun _ => ?_ | refine Only.ite ?_ ?_
    | exact (emit_only ..).le (by decide +kernel)

/-- What `spnKick` can change. -/
def Feet.spnKick : Mask := (.of [.TWN_SPN_STATUS, .TWN_SPN_FAIL, .TWN_SPN_LANE] [.spn] : Mask).plus
  [Feet.linkinfoSend]

theorem spnKick_only : Only Feet.spnKick.has spnKick := by
  simp only [spnKick, modSpn, getSpn, putSpn]
  with_reducible repeat' first
    | exact Only.pure _ | exact Only.getM | refine Only.bind ?_ fun _ => ?_ | refine Only.each fun _ _ => ?_
    | refine Only.ite ?_ ?_ | exact Only.wrK .TWN_SPN_FAIL rfl (by decide +kernel)
    | exact Only.wrK .TWN_SPN_LANE rfl (by decide +kernel) | exact Only.wrK .TWN_SPN_STATUS rfl (by decide +kernel)
    | exact Only.doT .spn rfl (by decide +kernel) | exact (linkinfoSend_only ..).le (by decide +kernel)

/-- What `spnDown` can change. -/
def Feet.spnDown : Mask := .of [.TWN_SPN_STATUS] []

theorem spnDown_only : Only Feet.spnDown.has spnDown := by
  unfold spnDown
  with_reducible repeat' first
    | exact Only.pure _ | exact Only.getM | refine Only.bind ?_ fun _ => ?_
    | exact Only.wrRegK .TWN_SPN_STATUS (by decide +kernel) | exact Only.wrK .TWN_SPN_STATUS rfl (by decide +kernel)

/-- What `partnerAgentsLost` can change. -/
def Feet.partnerAgentsLost : Mask := (.of [] [.pagent] : Mask).plus [Feet.agentLost]

theorem partnerAgentsLost_only : Only Feet.partnerAgentsLost.has partnerAgentsLost := by
  simp only [partnerAgentsLost, putPagent]
  with_reducible repeat' first
    | exact Only.pure _ | exact Only.getM | refine Only.bind ?_ fun _ => ?_ | refine Only.onlyIf ?_
    | refine Only.each fun _ _ => ?_ | exact Only.doT .pagent rfl (by decide +kernel)
    | exact (agentLost_only ..).le (by decide +kernel)

/-- What `spnLoss` can change. -/
def Feet.spnLoss : Mask := (.of [] [.reel, .spnWait, .spn] : Mask).plus [Feet.reelShow, Feet.discard, Feet.popQueue,
  Feet.commitsLost, Feet.spnDown, Feet.partnerAgentsLost]

theorem spnLoss_only : Only Feet.spnLoss.has spnLoss := by
  simp only [spnLoss, putReel, modSpn, getSpn, putSpn, clearSpnWait]
  with_reducible repeat' first
    | exact Only.pure _ | exact Only.getM | refine Only.bind ?_ fun _ => ?_ | refine Only.each fun _ _ => ?_
    | exact Only.doT .reel rfl (by decide +kernel) | exact Only.doT .spnWait rfl (by decide +kernel)
    | exact Only.doT .spn rfl (by decide +kernel) | exact (raise_only ..).le (by decide +kernel)
    | exact (reelShow_only ..).le (by decide +kernel) | exact (fwdLost_only ..).le (by decide +kernel)
    | exact (discard_only ..).le (by decide +kernel) | exact (popQueue_only ..).le (by decide +kernel)
    | exact (commitsLost_only ..).le (by decide +kernel) | exact (spnDown_only ..).le (by decide +kernel)
    | exact (partnerAgentsLost_only ..).le (by decide +kernel)

/-- What `blindTake` can change. -/
def Feet.blindTake : Mask := (.of [] [.mtt, .blind] : Mask).plus [Feet.arrayClear, Feet.blindShow]

theorem blindTake_only (prev : Nat) :
    Only Feet.blindTake.has (blindTake prev) := by
  simp only [blindTake, clearMtt, putBlind]
  with_reducible repeat' first
    | exact Only.pure _ | exact Only.getM | refine Only.bind ?_ fun _ => ?_ | refine Only.onlyIf ?_
    | refine Only.each fun _ _ => ?_ | refine Only.ite ?_ ?_ | exact Only.doT .mtt rfl (by decide +kernel)
    | exact Only.doT .blind rfl (by decide +kernel) | exact (arrayClear_only ..).le (by decide +kernel)
    | exact (blindShow_only ..).le (by decide +kernel)

/-- What `takeover` can change. -/
def Feet.takeover : Mask := (.of [.TWN_TAKEOVER_TIME] [] : Mask).plus [Feet.roleTo, Feet.spnKick, Feet.spnLoss,
  Feet.blindTake]

theorem takeover_only : Only Feet.takeover.has takeover := by
  simp only [takeover, modSqx, getSqx, putSqx, modTwx, getTwx, putTwx]
  with_reducible repeat' first
    | exact Only.pure _ | exact Only.getM | refine Only.bind ?_ fun _ => ?_ | refine Only.onlyIf ?_
    | refine Only.each fun _ _ => ?_ | refine Only.ite ?_ ?_ | exact Only.wrK .TWN_ROLE rfl (by decide +kernel)
    | exact Only.wrK .TWN_SETTLE rfl (by decide +kernel) | exact Only.wrK .TWN_TAKEOVER_TIME rfl (by decide +kernel)
    | exact Only.incK .TWN_CNT rfl (by decide +kernel) | exact Only.doT .sqx rfl (by decide +kernel)
    | exact Only.doT .twx rfl (by decide +kernel) | exact (raise_only ..).le (by decide +kernel)
    | exact (roleTo_only ..).le (by decide +kernel) | exact (spnKick_only ..).le (by decide +kernel)
    | exact (spnDown_only ..).le (by decide +kernel) | exact (partnerAgentsLost_only ..).le (by decide +kernel)
    | exact (spnLoss_only ..).le (by decide +kernel) | exact (blindTake_only ..).le (by decide +kernel)

/-- What `roleSpindleLost` can change. -/
def Feet.roleSpindleLost : Mask := Feet.roleTo

theorem roleSpindleLost_only : Only Feet.roleSpindleLost.has roleSpindleLost := by
  simp only [roleSpindleLost, clearMtt]
  with_reducible repeat' first
    | exact Only.pure _ | exact Only.getM | refine Only.bind ?_ fun _ => ?_ | refine Only.onlyIf ?_
    | refine Only.ite ?_ ?_ | exact Only.doT .mtt rfl (by decide +kernel)
    | exact (raise_only ..).le (by decide +kernel) | exact (arrayClear_only ..).le (by decide +kernel)
    | exact (roleTo_only ..).le (by decide +kernel)

/-- What `witnessAct` can change. -/
def Feet.witnessAct : Mask := Feet.takeover

theorem witnessAct_only : Only Feet.witnessAct.has witnessAct := by
  unfold witnessAct
  with_reducible repeat' first
    | exact Only.pure _ | exact Only.getM | refine Only.bind ?_ fun _ => ?_ | refine Only.ite ?_ ?_
    | exact (roleTo_only ..).le (by decide +kernel) | exact (takeover_only ..).le (by decide +kernel)

/-- What `witness` can change. -/
def Feet.witness : Mask := Feet.witnessAct

theorem witness_only : Only Feet.witness.has witness := by
  unfold witness
  with_reducible repeat' first
    | exact Only.pure _ | exact Only.getM | refine Only.bind ?_ fun _ => ?_ | refine Only.onlyIf ?_
    | refine Only.ite ?_ ?_ | exact Only.wrK .TWN_ROLE rfl (by decide +kernel)
    | exact (raise_only ..).le (by decide +kernel) | exact (witnessAct_only ..).le (by decide +kernel)

/-- What `spnDeclareLost` can change. -/
def Feet.spnDeclareLost : Mask := Feet.witnessAct

theorem spnDeclareLost_only : Only Feet.spnDeclareLost.has spnDeclareLost := by
  unfold spnDeclareLost
  with_reducible repeat' first
    | exact Only.pure _ | exact Only.getM | refine Only.bind ?_ fun _ => ?_ | refine Only.onlyIf ?_
    | exact (spnKick_only ..).le (by decide +kernel) | exact (spnLoss_only ..).le (by decide +kernel)
    | exact (roleSpindleLost_only ..).le (by decide +kernel) | exact (witnessAct_only ..).le (by decide +kernel)

/-- What `spnOff` can change. -/
def Feet.spnOff : Mask := Feet.spnDeclareLost

theorem spnOff_only : Only Feet.spnOff.has spnOff := by
  unfold spnOff
  with_reducible repeat' first
    | exact Only.pure _ | exact Only.getM | refine Only.bind ?_ fun _ => ?_ | refine Only.onlyIf ?_
    | refine Only.ite ?_ ?_ | exact (spnDown_only ..).le (by decide +kernel)
    | exact (spnDeclareLost_only ..).le (by decide +kernel)

/-- What `settleWalkDone` can change. -/
def Feet.settleWalkDone : Mask := Feet.settleGo

theorem settleWalkDone_only (sq : Nat) (ue : List Nat) :
    Only Feet.settleWalkDone.has (settleWalkDone sq ue) := by
  simp only [settleWalkDone, putDir, modSqx, putSqx, getSqx]
  with_reducible repeat' first
    | exact Only.pure _ | exact Only.getM | refine Only.bind ?_ fun _ => ?_ | refine Only.onlyIf ?_
    | refine Only.each fun _ _ => ?_ | refine Only.ite ?_ ?_ | exact Only.incK .TWN_SETTLE rfl (by decide +kernel)
    | exact Only.doT .dir rfl (by decide +kernel) | exact Only.doT .sqx rfl (by decide +kernel)
    | exact (raise_only ..).le (by decide +kernel) | exact (sqInc_only ..).le (by decide +kernel)
    | exact (settleCheck_only ..).le (by decide +kernel) | exact (settleGo_only ..).le (by decide +kernel)

/-- What `graceEnd` can change. -/
def Feet.graceEnd : Mask := .of [] [.twx]

theorem graceEnd_only : Only Feet.graceEnd.has graceEnd := by
  simp only [graceEnd, modTwx, getTwx, putTwx]
  with_reducible repeat' first
    | exact Only.pure _ | exact Only.getM | refine Only.bind ?_ fun _ => ?_
    | exact Only.doT .twx rfl (by decide +kernel)

/-- What `formTimeout` can change. -/
def Feet.formTimeout : Mask := Feet.roleTo

theorem formTimeout_only : Only Feet.formTimeout.has formTimeout := by
  simp only [formTimeout, modTwx, getTwx, putTwx, modSqx, getSqx, putSqx]
  with_reducible repeat' first
    | exact Only.pure _ | exact Only.getM | refine Only.bind ?_ fun _ => ?_ | refine Only.each fun _ _ => ?_
    | refine Only.ite ?_ ?_ | exact Only.doT .sqx rfl (by decide +kernel)
    | exact Only.doT .twx rfl (by decide +kernel) | exact (roleTo_only ..).le (by decide +kernel)

/-- What `fence` can change. -/
def Feet.fence : Mask := (.of [.OCT_PORT_CTL] [] : Mask).plus [Feet.portEnable, Feet.roleTo, Feet.spnLoss]

theorem fence_only (cause : Nat) :
    Only Feet.fence.has (fence cause) := by
  simp only [fence, modTwx, getTwx, putTwx]
  with_reducible repeat' first
    | exact Only.pure _ | exact Only.getM | refine Only.bind ?_ fun _ => ?_ | refine Only.onlyIf ?_
    | refine Only.each fun _ _ => ?_ | refine Only.ite ?_ ?_ | exact Only.wrK .OCT_PORT_CTL rfl (by decide +kernel)
    | exact Only.wrK .TWN_ROLE rfl (by decide +kernel) | exact Only.doT .twx rfl (by decide +kernel)
    | exact (raise_only ..).le (by decide +kernel) | exact (portEnable_only ..).le (by decide +kernel)
    | exact (roleTo_only ..).le (by decide +kernel) | exact (spnDown_only ..).le (by decide +kernel)
    | exact (spnLoss_only ..).le (by decide +kernel)

/-- What `unfence` can change. -/
def Feet.unfence : Mask := .of [.TWN_ROLE] [.twx]

theorem unfence_only : Only Feet.unfence.has unfence := by
  simp only [unfence, modTwx, getTwx, putTwx]
  with_reducible repeat' first
    | exact Only.pure _ | exact Only.getM | refine Only.bind ?_ fun _ => ?_ | refine Only.ite ?_ ?_
    | exact Only.wrK .TWN_ROLE rfl (by decide +kernel) | exact Only.doT .twx rfl (by decide +kernel)

/-- What `roleEnable` can change. -/
def Feet.roleEnable : Mask := Feet.roleTo

theorem roleEnable_only : Only Feet.roleEnable.has roleEnable := by
  unfold roleEnable
  with_reducible repeat' first
    | exact Only.pure _ | exact Only.getM | refine Only.bind ?_ fun _ => ?_ | refine Only.onlyIf ?_
    | refine Only.ite ?_ ?_ | exact (roleTo_only ..).le (by decide +kernel)

/-- What `roleDisable` can change. -/
def Feet.roleDisable : Mask := (.of [] [.blind] : Mask).plus [Feet.blindShow, Feet.roleTo]

theorem roleDisable_only : Only Feet.roleDisable.has roleDisable := by
  simp only [roleDisable, clearBlind]
  with_reducible repeat' first
    | exact Only.pure _ | exact Only.getM | refine Only.bind ?_ fun _ => ?_ | refine Only.onlyIf ?_
    | exact Only.wrK .TWN_ROLE rfl (by decide +kernel) | exact Only.doT .blind rfl (by decide +kernel)
    | exact (blindShow_only ..).le (by decide +kernel) | exact (roleTo_only ..).le (by decide +kernel)

/-- What `moveAbort` can change. -/
def Feet.moveAbort : Mask := Feet.raise.plus [Feet.recSend, Feet.moveClear]

theorem moveAbort_only : Only Feet.moveAbort.has moveAbort := by
  unfold moveAbort
  with_reducible repeat' first
    | exact Only.pure _ | exact Only.getM | refine Only.bind ?_ fun _ => ?_ | refine Only.onlyIf ?_
    | exact (raise_only ..).le (by decide +kernel) | exact (recSend_only ..).le (by decide +kernel)
    | exact (moveClear_only ..).le (by decide +kernel)

/-- What `moveStart` can change. -/
def Feet.moveStart : Mask := Feet.moveAbort

theorem moveStart_only (kind : Nat) :
    Only Feet.moveStart.has (moveStart kind) := by
  simp only [moveStart, modTwx, getTwx, putTwx]
  with_reducible repeat' first
    | exact Only.pure _ | exact Only.getM | refine Only.bind ?_ fun _ => ?_ | refine Only.onlyIf ?_
    | exact Only.wrK .TWN_ROLE rfl (by decide +kernel) | exact Only.doT .twx rfl (by decide +kernel)
    | exact (recSend_only ..).le (by decide +kernel) | exact (moveAbort_only ..).le (by decide +kernel)

/-- What `dualHome` can change. -/
def Feet.dualHome : Mask := Feet.fence

theorem dualHome_only (fences : Bool) :
    Only Feet.dualHome.has (dualHome fences) := by
  simp only [dualHome, modTwx, getTwx, putTwx]
  with_reducible repeat' first
    | exact Only.pure _ | exact Only.getM | refine Only.bind ?_ fun _ => ?_ | refine Only.onlyIf ?_
    | exact Only.doT .twx rfl (by decide +kernel) | exact (raise_only ..).le (by decide +kernel)
    | exact (fence_only ..).le (by decide +kernel)

/-- What `yieldEnd` can change. -/
def Feet.yieldEnd : Mask := Feet.fence

theorem yieldEnd_only : Only Feet.yieldEnd.has yieldEnd := by
  unfold yieldEnd
  with_reducible repeat' first
    | exact Only.pure _ | exact Only.getM | refine Only.bind ?_ fun _ => ?_
    | exact (moveClear_only ..).le (by decide +kernel) | exact (fence_only ..).le (by decide +kernel)

/-- What `rejoinWatch` can change. -/
def Feet.rejoinWatch : Mask := (.of [] [.twx] : Mask).plus [Feet.raise]

theorem rejoinWatch_only : Only Feet.rejoinWatch.has rejoinWatch := by
  simp only [rejoinWatch, modTwx, getTwx, putTwx]
  with_reducible repeat' first
    | exact Only.pure _ | exact Only.getM | refine Only.bind ?_ fun _ => ?_ | refine Only.onlyIf ?_
    | refine Only.ite ?_ ?_ | exact Only.doT .twx rfl (by decide +kernel)
    | exact (raise_only ..).le (by decide +kernel)

/-- What `roleEval` can change. -/
def Feet.roleEval : Mask := Feet.roleTo.plus [Feet.moveStart]

theorem roleEval_only : Only Feet.roleEval.has roleEval := by
  unfold roleEval
  with_reducible repeat' first
    | exact Only.pure _ | exact Only.getM | refine Only.bind ?_ fun _ => ?_ | refine Only.ite ?_ ?_
    | exact (roleTo_only ..).le (by decide +kernel) | exact (moveStart_only ..).le (by decide +kernel)
    | exact (rejoinWatch_only ..).le (by decide +kernel)

/-- What `copySend` can change. -/
def Feet.copySend : Mask := (.of [.TWN_COPY, .TWN_CNT] [] : Mask).plus [Feet.xsend]

theorem copySend_only (sq arr : Nat) (last : Bool) (l : List (Nat × Nat × DirEnt)) :
    Only Feet.copySend.has (copySend sq arr last l) := by
  unfold copySend
  with_reducible repeat' first
    | exact Only.pure _ | exact Only.getM | refine Only.bind ?_ fun _ => ?_ | refine Only.ite ?_ ?_
    | exact Only.addSatK .TWN_CNT rfl (by decide +kernel) | exact Only.addSatK .TWN_COPY rfl (by decide +kernel)
    | exact (xsend_only ..).le (by decide +kernel)

/-- What `copyArray` can change. -/
def Feet.copyArray : Mask := Feet.copySend

theorem copyArray_only (sq arr : Nat) (n : Nat) (k : List (Nat × Nat × DirEnt)) :
    Only Feet.copyArray.has (copyArray sq arr n k) := by
  induction n generalizing k with
  | zero =>
    unfold copyArray
    with_reducible repeat' first
      | exact ih .. | exact Only.pure _ | exact Only.getM | refine Only.bind ?_ fun _ => ?_ | refine Only.ite ?_ ?_
      | exact (copySend_only ..).le (by decide +kernel)
  | succ n ih =>
    unfold copyArray
    with_reducible repeat' first
      | exact ih .. | exact Only.pure _ | exact Only.getM | refine Only.bind ?_ fun _ => ?_ | refine Only.ite ?_ ?_
      | exact (copySend_only ..).le (by decide +kernel)

/-- What `copySquare` can change. -/
def Feet.copySquare : Mask := (.of [] [.trk] : Mask).plus [Feet.recSend, Feet.copyArray]

theorem copySquare_only (sq : Nat) (both : Bool) :
    Only Feet.copySquare.has (copySquare sq both) := by
  simp only [copySquare, modTrk, getTrk, putTrk]
  with_reducible repeat' first
    | exact Only.pure _ | exact Only.getM | refine Only.bind ?_ fun _ => ?_ | refine Only.each fun _ _ => ?_
    | refine Only.ite ?_ ?_ | exact Only.doT .trk rfl (by decide +kernel)
    | exact (recSend_only ..).le (by decide +kernel) | exact (copyArray_only ..).le (by decide +kernel)

/-- What `copyComplete` can change. -/
def Feet.copyComplete : Mask := Feet.roleTo.plus [Feet.copySquare]

theorem copyComplete_only : Only Feet.copyComplete.has copyComplete := by
  unfold copyComplete
  with_reducible repeat' first
    | exact Only.pure _ | exact Only.getM | refine Only.bind ?_ fun _ => ?_ | refine Only.onlyIf ?_
    | refine Only.each fun _ _ => ?_ | refine Only.ite ?_ ?_ | exact Only.wrK .TWN_COPY rfl (by decide +kernel)
    | exact Only.wrK .TWN_ROLE rfl (by decide +kernel) | exact (raise_only ..).le (by decide +kernel)
    | exact (roleTo_only ..).le (by decide +kernel) | exact (copySquare_only ..).le (by decide +kernel)

/-- What `copyArrived` can change. -/
def Feet.copyArrived : Mask := Feet.roleTo

theorem copyArrived_only : Only Feet.copyArrived.has copyArrived := by
  simp only [copyArrived, modTwx, getTwx, putTwx]
  with_reducible repeat' first
    | exact Only.pure _ | exact Only.getM | refine Only.bind ?_ fun _ => ?_ | refine Only.onlyIf ?_
    | refine Only.ite ?_ ?_ | exact Only.wrK .TWN_COPY rfl (by decide +kernel)
    | exact Only.wrK .TWN_ROLE rfl (by decide +kernel) | exact Only.doT .twx rfl (by decide +kernel)
    | exact (raise_only ..).le (by decide +kernel) | exact (roleTo_only ..).le (by decide +kernel)

/-- What `dirCopy` can change. -/
def Feet.dirCopy : Mask := (.of [.TWN_CNT] [.blind] : Mask).plus [Feet.blindShow, Feet.copyArrived]

theorem dirCopy_only (sq : Nat) (data : List Word) :
    Only Feet.dirCopy.has (dirCopy sq data) := by
  simp only [dirCopy, putDir, modSqx, getSqx, putSqx, putBlind]
  with_reducible repeat' first
    | exact Only.pure _ | exact Only.getM | refine Only.bind ?_ fun _ => ?_ | refine Only.onlyIf ?_
    | refine Only.each fun _ _ => ?_ | refine Only.ite ?_ ?_ | exact Only.addSatK .TWN_CNT rfl (by decide +kernel)
    | exact Only.addSatK .TWN_COPY rfl (by decide +kernel) | exact Only.doT .dir rfl (by decide +kernel)
    | exact Only.doT .sqx rfl (by decide +kernel) | exact Only.doT .blind rfl (by decide +kernel)
    | exact (blindShow_only ..).le (by decide +kernel) | exact (copyArrived_only ..).le (by decide +kernel)

/-- What `releaseAll` can change. -/
def Feet.releaseAll : Mask := Feet.releaseSend

theorem releaseAll_only (sq : Nat) (n : Nat) :
    Only Feet.releaseAll.has (releaseAll sq n) := by
  induction n with
  | zero =>
    unfold releaseAll
    with_reducible repeat' first
      | exact ih .. | exact Only.pure _
  | succ n ih =>
    unfold releaseAll
    with_reducible repeat' first
      | exact ih .. | exact Only.pure _ | exact Only.getM | refine Only.bind ?_ fun _ => ?_
      | exact (releaseSend_only ..).le (by decide +kernel)

/-- What `moveDrained` can change. -/
def Feet.moveDrained : Mask := Feet.recSend.plus [Feet.roleTo]

theorem moveDrained_only : Only Feet.moveDrained.has moveDrained := by
  simp only [moveDrained, modSqx, getSqx, putSqx, modTwx, getTwx, putTwx]
  with_reducible repeat' first
    | exact Only.pure _ | exact Only.getM | refine Only.bind ?_ fun _ => ?_ | refine Only.each fun _ _ => ?_
    | refine Only.ite ?_ ?_ | exact Only.incK .TWN_CNT rfl (by decide +kernel)
    | exact Only.wrK .TWN_ROLE rfl (by decide +kernel) | exact Only.doT .sqx rfl (by decide +kernel)
    | exact Only.doT .twx rfl (by decide +kernel) | exact (raise_only ..).le (by decide +kernel)
    | exact (recSend_only ..).le (by decide +kernel) | exact (roleTo_only ..).le (by decide +kernel)
    | exact (releaseAll_only ..).le (by decide +kernel)

/-- What `moveTimeout` can change. -/
def Feet.moveTimeout : Mask := Feet.moveAbort

theorem moveTimeout_only : Only Feet.moveTimeout.has moveTimeout := by
  unfold moveTimeout
  with_reducible repeat' first
    | exact Only.pure _ | exact Only.getM | refine Only.bind ?_ fun _ => ?_ | refine Only.onlyIf ?_
    | exact (moveAbort_only ..).le (by decide +kernel)

/-- What `moveReceived` can change. -/
def Feet.moveReceived : Mask := (.of [.TWN_CNT] [] : Mask).plus [Feet.roleTo]

theorem moveReceived_only : Only Feet.moveReceived.has moveReceived := by
  unfold moveReceived
  with_reducible repeat' first
    | exact Only.pure _ | exact Only.getM | refine Only.bind ?_ fun _ => ?_ | refine Only.ite ?_ ?_
    | exact Only.incK .TWN_CNT rfl (by decide +kernel) | exact (raise_only ..).le (by decide +kernel)
    | exact (roleTo_only ..).le (by decide +kernel)

/-- What `moveRecord` can change. -/
def Feet.moveRecord : Mask := Feet.moveAbort.plus [Feet.moveReceived]

theorem moveRecord_only (sq code : Nat) :
    Only Feet.moveRecord.has (moveRecord sq code) := by
  simp only [moveRecord, modSqx, getSqx, putSqx, modTwx, getTwx, putTwx]
  with_reducible repeat' first
    | exact Only.pure _ | exact Only.getM | refine Only.bind ?_ fun _ => ?_ | refine Only.onlyIf ?_
    | refine Only.each fun _ _ => ?_ | exact Only.doT .sqx rfl (by decide +kernel)
    | exact Only.doT .twx rfl (by decide +kernel) | exact (moveAbort_only ..).le (by decide +kernel)
    | exact (moveReceived_only ..).le (by decide +kernel) | split

/-- What `entryRecord` can change. -/
def Feet.entryRecord : Mask := .of [] [.dir, .mtt]

theorem entryRecord_only (sq r : Nat) :
    Only Feet.entryRecord.has (entryRecord sq r) := by
  simp only [entryRecord, putDir, putMtt]
  with_reducible repeat' first
    | exact Only.pure _ | exact Only.getM | refine Only.bind ?_ fun _ => ?_ | refine Only.onlyIf ?_
    | refine Only.ite ?_ ?_ | exact Only.doT .dir rfl (by decide +kernel)
    | exact Only.doT .mtt rfl (by decide +kernel)

/-- What `releaseRecord` can change. -/
def Feet.releaseRecord : Mask := .of [] [.mtt]

theorem releaseRecord_only (sq r : Nat) :
    Only Feet.releaseRecord.has (releaseRecord sq r) := by
  simp only [releaseRecord, putMtt]
  with_reducible repeat' first
    | exact Only.pure _ | exact Only.getM | refine Only.bind ?_ fun _ => ?_ | refine Only.each fun _ _ => ?_
    | exact Only.doT .mtt rfl (by decide +kernel)

/-- What `mirrorRecord` can change. -/
def Feet.mirrorRecord : Mask := Feet.moveRecord

theorem mirrorRecord_only (sq : Nat) (data : List Word) :
    Only Feet.mirrorRecord.has (mirrorRecord sq data) := by
  simp only [mirrorRecord, modSqx, getSqx, putSqx]
  with_reducible repeat' first
    | exact Only.pure _ | exact Only.getM | refine Only.bind ?_ fun _ => ?_ | refine Only.ite ?_ ?_
    | exact Only.incK .TWN_CNT rfl (by decide +kernel) | exact Only.doT .sqx rfl (by decide +kernel)
    | exact (moveRecord_only ..).le (by decide +kernel) | exact (entryRecord_only ..).le (by decide +kernel)
    | exact (releaseRecord_only ..).le (by decide +kernel) | split

/-- What `commitSend` can change. -/
def Feet.commitSend : Mask := (.of [] [.sqx] : Mask).plus [Feet.xsend]

theorem commitSend_only (sq : Nat) :
    Only Feet.commitSend.has (commitSend sq) := by
  simp only [commitSend, putSqx]
  with_reducible repeat' first
    | exact Only.pure _ | exact Only.getM | refine Only.bind ?_ fun _ => ?_ | refine Only.ite ?_ ?_
    | exact Only.doT .sqx rfl (by decide +kernel) | exact (xsend_only ..).le (by decide +kernel)

/-- What `commitRecord` can change. -/
def Feet.commitRecord : Mask := Feet.yieldEnd

theorem commitRecord_only (l : List (Nat × Nat)) :
    Only Feet.commitRecord.has (commitRecord l) := by
  simp only [commitRecord, modSqx, getSqx, putSqx]
  with_reducible repeat' first
    | exact Only.pure _ | exact Only.getM | refine Only.bind ?_ fun _ => ?_ | refine Only.onlyIf ?_
    | refine Only.each fun _ _ => ?_ | refine Only.ite ?_ ?_ | exact Only.doT .sqx rfl (by decide +kernel)
    | exact (mirrorCommit_only ..).le (by decide +kernel) | exact (yieldEnd_only ..).le (by decide +kernel)

/-- What `twnEffect` can change. -/
def Feet.twnEffect : Mask := Feet.fence

theorem twnEffect_only (k : RegKind) (_i _old cmd : Nat) :
    Only Feet.twnEffect.has (twnEffect k _i _old cmd) := by
  simp only [twnEffect, modTwx, getTwx, putTwx]
  with_reducible repeat' first
    | exact Only.pure _ | exact Only.getM | refine Only.bind ?_ fun _ => ?_ | refine Only.onlyIf ?_
    | refine Only.each fun _ _ => ?_ | exact Only.rstK .TWN_CNT (by decide +kernel)
    | exact Only.doT .twx rfl (by decide +kernel) | exact (fence_only ..).le (by decide +kernel)
    | exact (unfence_only ..).le (by decide +kernel) | exact (moveStart_only ..).le (by decide +kernel) | split

end Sys2Proof.Machine
end

