-- ==== Sys2Proof/Laws/FeetLinks.lean ====
section
/-!
SUPPORT. The footprint of every operation of Machine/Links.lean: the registers and the things beside them that it can
change, whatever the block holds.
-/
namespace Sys2Proof.Machine

set_option Elab.async false

/-- What `lkInc` can change. -/
def Feet.lkInc : Mask := .of [.TWN_SPN_CNT] []

theorem lkInc_only (c : Nat) :
    Only Feet.lkInc.has (lkInc c) := by
  unfold lkInc
  with_reducible repeat' first
    | exact Only.pure _ | exact Only.getM | refine Only.bind ?_ fun _ => ?_
    | exact Only.incK .TWN_SPN_CNT rfl (by decide +kernel)

/-- What `wkInc` can change. -/
def Feet.wkInc : Mask := .of [.TWN_WHL_CNT] []

theorem wkInc_only (c : Nat) :
    Only Feet.wkInc.has (wkInc c) := by
  unfold wkInc
  with_reducible repeat' first
    | exact Only.pure _ | exact Only.getM | refine Only.bind ?_ fun _ => ?_
    | exact Only.incK .TWN_WHL_CNT rfl (by decide +kernel)

/-- What `spareTake` can change. -/
def Feet.spareTake : Mask := (.of [.TWN_SPN_STATUS] [] : Mask).plus [Feet.raise, Feet.lkInc]

theorem spareTake_only (n s : Nat) :
    Only Feet.spareTake.has (spareTake n s) := by
  unfold spareTake
  with_reducible repeat' first
    | exact Only.pure _ | exact Only.getM | refine Only.bind ?_ fun _ => ?_ | refine Only.onlyIf ?_
    | refine Only.ite ?_ ?_ | exact Only.wrK .TWN_SPN_STATUS rfl (by decide +kernel)
    | exact (raise_only ..).le (by decide +kernel) | exact (lkInc_only ..).le (by decide +kernel)

/-- What `spareFor` can change. -/
def Feet.spareFor : Mask := Feet.emit.plus [Feet.spareTake]

theorem spareFor_only (n : Nat) :
    Only Feet.spareFor.has (spareFor n) := by
  unfold spareFor
  with_reducible repeat' first
    | exact Only.pure _ | exact Only.getM | refine Only.bind ?_ fun _ => ?_ | refine Only.onlyIf ?_
    | exact (emit_only ..).le (by decide +kernel) | exact (spareTake_only ..).le (by decide +kernel) | split

/-- What `widthSet` can change. -/
def Feet.widthSet : Mask := (.of [.TWN_SPN_STATUS] [] : Mask).plus [Feet.raise]

theorem widthSet_only (wide : Bool) :
    Only Feet.widthSet.has (widthSet wide) := by
  unfold widthSet
  with_reducible repeat' first
    | exact Only.pure _ | exact Only.getM | refine Only.bind ?_ fun _ => ?_ | refine Only.onlyIf ?_
    | refine Only.ite ?_ ?_ | exact Only.wrK .TWN_SPN_STATUS rfl (by decide +kernel)
    | exact (raise_only ..).le (by decide +kernel)

/-- What `spnRecover` can change. -/
def Feet.spnRecover : Mask := Feet.witness.plus [Feet.lkInc]

theorem spnRecover_only (cause lane : Nat) :
    Only Feet.spnRecover.has (spnRecover cause lane) := by
  simp only [spnRecover, modSpn, getSpn, putSpn]
  with_reducible repeat' first
    | exact Only.pure _ | exact Only.getM | refine Only.bind ?_ fun _ => ?_ | refine Only.onlyIf ?_
    | refine Only.ite ?_ ?_ | exact Only.wrK .TWN_SPN_STATUS rfl (by decide +kernel)
    | exact Only.doT .spn rfl (by decide +kernel) | exact (raise_only ..).le (by decide +kernel)
    | exact (linkinfoSend_only ..).le (by decide +kernel) | exact (witness_only ..).le (by decide +kernel)
    | exact (spnDeclareLost_only ..).le (by decide +kernel) | exact (lkInc_only ..).le (by decide +kernel)

/-- What `laneFail` can change. -/
def Feet.laneFail : Mask := Feet.spnRecover

theorem laneFail_only (l cause : Nat) :
    Only Feet.laneFail.has (laneFail l cause) := by
  unfold laneFail
  with_reducible repeat' first
    | exact Only.pure _ | exact Only.getM | refine Only.bind ?_ fun _ => ?_ | refine Only.onlyIf ?_
    | refine Only.ite ?_ ?_ | exact Only.wrK .TWN_SPN_FAIL rfl (by decide +kernel)
    | exact Only.wrK .TWN_SPN_LANE rfl (by decide +kernel) | exact (emit_only ..).le (by decide +kernel)
    | exact (linkinfoSend_only ..).le (by decide +kernel) | exact (spnDeclareLost_only ..).le (by decide +kernel)
    | exact (spareFor_only ..).le (by decide +kernel) | exact (spnRecover_only ..).le (by decide +kernel) | split

/-- What `alignmentLost` can change. -/
def Feet.alignmentLost : Mask := Feet.laneFail

theorem alignmentLost_only (l : Nat) :
    Only Feet.alignmentLost.has (alignmentLost l) := by
  unfold alignmentLost
  with_reducible repeat' first
    | exact Only.pure _ | exact Only.getM | refine Only.bind ?_ fun _ => ?_
    | exact (laneFail_only ..).le (by decide +kernel)

/-- What `laneWindowEnd` can change. -/
def Feet.laneWindowEnd : Mask := Feet.laneFail

theorem laneWindowEnd_only (l corr uncorr : Nat) :
    Only Feet.laneWindowEnd.has (laneWindowEnd l corr uncorr) := by
  unfold laneWindowEnd
  with_reducible repeat' first
    | exact Only.pure _ | exact Only.getM | refine Only.bind ?_ fun _ => ?_ | refine Only.onlyIf ?_
    | exact Only.wrK .TWN_SPN_LANE rfl (by decide +kernel) | exact (laneFail_only ..).le (by decide +kernel)

/-- What `laneSignalLost` can change. -/
def Feet.laneSignalLost : Mask := Feet.laneFail

theorem laneSignalLost_only (l : Nat) (signal : Bool) :
    Only Feet.laneSignalLost.has (laneSignalLost l signal) := by
  unfold laneSignalLost
  with_reducible repeat' first
    | exact Only.pure _ | exact Only.getM | refine Only.bind ?_ fun _ => ?_ | refine Only.onlyIf ?_
    | exact Only.wrK .TWN_SPN_LANE rfl (by decide +kernel) | exact (laneFail_only ..).le (by decide +kernel)

/-- What `laneSignalDetected` can change. -/
def Feet.laneSignalDetected : Mask := Feet.witness

theorem laneSignalDetected_only (l : Nat) :
    Only Feet.laneSignalDetected.has (laneSignalDetected l) := by
  unfold laneSignalDetected
  with_reducible repeat' first
    | exact Only.pure _ | exact Only.getM | refine Only.bind ?_ fun _ => ?_ | refine Only.ite ?_ ?_
    | exact Only.wrK .TWN_SPN_LANE rfl (by decide +kernel) | exact Only.wrK .TWN_SPN_STATUS rfl (by decide +kernel)
    | exact (witness_only ..).le (by decide +kernel)

/-- What `partnerSilent` can change. -/
def Feet.partnerSilent : Mask := Feet.witness

theorem partnerSilent_only : Only Feet.partnerSilent.has partnerSilent := by
  unfold partnerSilent
  with_reducible repeat' first
    | exact Only.pure _ | exact Only.getM | refine Only.bind ?_ fun _ => ?_ | refine Only.ite ?_ ?_
    | exact Only.wrK .TWN_SPN_STATUS rfl (by decide +kernel) | exact (witness_only ..).le (by decide +kernel)

/-- What `replayEmit` can change. -/
def Feet.replayEmit : Mask := Feet.emit.plus [Feet.lkInc]

theorem replayEmit_only : Only Feet.replayEmit.has replayEmit := by
  unfold replayEmit
  with_reducible repeat' first
    | exact Only.pure _ | exact Only.getM | refine Only.bind ?_ fun _ => ?_ | refine Only.each fun _ _ => ?_
    | exact Only.addSatK .TWN_SPN_CNT rfl (by decide +kernel) | exact (emit_only ..).le (by decide +kernel)
    | exact (lkInc_only ..).le (by decide +kernel)

/-- What `replayStart` can change. -/
def Feet.replayStart : Mask := Feet.spnRecover

theorem replayStart_only : Only Feet.replayStart.has replayStart := by
  unfold replayStart
  with_reducible repeat' first
    | exact Only.pure _ | exact Only.getM | refine Only.bind ?_ fun _ => ?_ | refine Only.ite ?_ ?_
    | exact Only.wrK .TWN_SPN_STATUS rfl (by decide +kernel) | exact (spnRecover_only ..).le (by decide +kernel)
    | exact (replayEmit_only ..).le (by decide +kernel)

/-- What `spnUpShow` can change. -/
def Feet.spnUpShow : Mask := Feet.witness

theorem spnUpShow_only : Only Feet.spnUpShow.has spnUpShow := by
  unfold spnUpShow
  with_reducible repeat' first
    | exact Only.pure _ | exact Only.getM | refine Only.bind ?_ fun _ => ?_ | refine Only.each fun _ _ => ?_
    | exact Only.wrK .TWN_SPN_LANE rfl (by decide +kernel) | exact Only.wrK .TWN_SPN_STATUS rfl (by decide +kernel)
    | exact (statusSend_only ..).le (by decide +kernel) | exact (witness_only ..).le (by decide +kernel)

/-- What `spnTrained` can change. -/
def Feet.spnTrained : Mask := (.of [.TWN_SPN_RXSEQ, .TWN_SPN_CRED, .TWN_SPN_RCRED] [.spnBuf] : Mask).plus
  [Feet.spareFor, Feet.spnUpShow]

theorem spnTrained_only : Only Feet.spnTrained.has spnTrained := by
  simp only [spnTrained, putReel, clearSpnBuf, clearSpnWait, modSpn, getSpn, putSpn]
  with_reducible repeat' first
    | exact Only.pure _ | exact Only.getM | refine Only.bind ?_ fun _ => ?_ | refine Only.onlyIf ?_
    | refine Only.each fun _ _ => ?_ | refine Only.ite ?_ ?_ | exact Only.rstK .TWN_SPN_CRED (by decide +kernel)
    | exact Only.rstK .TWN_SPN_RCRED (by decide +kernel) | exact Only.rstK .TWN_SPN_TXSEQ (by decide +kernel)
    | exact Only.wrK .TWN_SPN_RXSEQ rfl (by decide +kernel) | exact Only.wrK .TWN_SPN_STATUS rfl (by decide +kernel)
    | exact Only.doT .reel rfl (by decide +kernel) | exact Only.doT .spnBuf rfl (by decide +kernel)
    | exact Only.doT .spnWait rfl (by decide +kernel) | exact Only.doT .spn rfl (by decide +kernel)
    | exact (raise_only ..).le (by decide +kernel) | exact (portStateSend_only ..).le (by decide +kernel)
    | exact (roleTo_only ..).le (by decide +kernel) | exact (roleEval_only ..).le (by decide +kernel)
    | exact (spareFor_only ..).le (by decide +kernel) | exact (widthSet_only ..).le (by decide +kernel)
    | exact (spnUpShow_only ..).le (by decide +kernel)

/-- What `spnTrainTimeout` can change. -/
def Feet.spnTrainTimeout : Mask := (.of [.TWN_SPN_STATUS, .TWN_SPN_FAIL, .TWN_SPN_LANE] [.spn] : Mask).plus
  [Feet.linkinfoSend]

theorem spnTrainTimeout_only : Only Feet.spnTrainTimeout.has spnTrainTimeout := by
  simp only [spnTrainTimeout, modSpn, getSpn, putSpn]
  with_reducible repeat' first
    | exact Only.pure _ | exact Only.getM | refine Only.bind ?_ fun _ => ?_ | refine Only.onlyIf ?_
    | refine Only.each fun _ _ => ?_ | exact Only.wrK .TWN_SPN_FAIL rfl (by decide +kernel)
    | exact Only.wrK .TWN_SPN_LANE rfl (by decide +kernel) | exact Only.wrK .TWN_SPN_STATUS rfl (by decide +kernel)
    | exact Only.doT .spn rfl (by decide +kernel) | exact (linkinfoSend_only ..).le (by decide +kernel)

/-- What `spnRecoveryDone` can change. -/
def Feet.spnRecoveryDone : Mask := Feet.spnDeclareLost.plus [Feet.replayEmit]

theorem spnRecoveryDone_only : Only Feet.spnRecoveryDone.has spnRecoveryDone := by
  unfold spnRecoveryDone
  with_reducible repeat' first
    | exact Only.pure _ | exact Only.getM | refine Only.bind ?_ fun _ => ?_ | refine Only.ite ?_ ?_
    | exact Only.wrK .TWN_SPN_STATUS rfl (by decide +kernel) | exact (spnDeclareLost_only ..).le (by decide +kernel)
    | exact (widthSet_only ..).le (by decide +kernel) | exact (replayEmit_only ..).le (by decide +kernel)
    | exact (spnUpShow_only ..).le (by decide +kernel)

/-- What `spnRecoveryTimeout` can change. -/
def Feet.spnRecoveryTimeout : Mask := Feet.spnDeclareLost

theorem spnRecoveryTimeout_only : Only Feet.spnRecoveryTimeout.has spnRecoveryTimeout := by
  unfold spnRecoveryTimeout
  with_reducible repeat' first
    | exact Only.pure _ | exact Only.getM | refine Only.bind ?_ fun _ => ?_ | refine Only.onlyIf ?_
    | exact (spnDeclareLost_only ..).le (by decide +kernel)

/-- What `ctlBlock` can change. -/
def Feet.ctlBlock : Mask := Feet.lkInc

theorem ctlBlock_only (ok : Bool) (x : P Unit) {M : Mask} (hM : Feet.ctlBlock.le M = true) (hx : Only M.has x) :
    Only M.has (ctlBlock ok x) := by
  unfold ctlBlock
  with_reducible repeat' first
    | exact Only.pure _ | exact Only.getM | refine Only.bind ?_ fun _ => ?_ | exact hx | refine Only.ite ?_ ?_
    | exact (lkInc_only ..).le (Mask.le_trans (by decide +kernel) hM)

/-- What `statusBlock` can change. -/
def Feet.statusBlock : Mask := (.of [.TWN_SPN_CRED] [] : Mask).plus [Feet.replayStart]

theorem statusBlock_only (ok nak : Bool) (ack : Nat) (limits : List Nat) :
    Only Feet.statusBlock.has (statusBlock ok nak ack limits) := by
  simp only [statusBlock, modReel, getReel, putReel, putSpnWait]
  with_reducible repeat' first
    | exact Only.pure _ | exact Only.getM | refine Only.bind ?_ fun _ => ?_ | refine Only.onlyIf ?_
    | refine Only.each fun _ _ => ?_ | refine Only.ite ?_ ?_ | exact Only.wrK .TWN_SPN_CRED rfl (by decide +kernel)
    | exact Only.wrK .TWN_SPN_STATUS rfl (by decide +kernel) | exact Only.wrK .TWN_SPN_TXSEQ rfl (by decide +kernel)
    | exact Only.doT .reel rfl (by decide +kernel) | exact Only.doT .spnWait rfl (by decide +kernel)
    | exact (reelShow_only ..).le (by decide +kernel) | exact (lkInc_only ..).le (by decide +kernel)
    | exact (replayStart_only ..).le (by decide +kernel) | refine ctlBlock_only _ _ (by decide +kernel) ?_

/-- What `spnProtocol` can change. -/
def Feet.spnProtocol : Mask := Feet.spnRecover

theorem spnProtocol_only : Only Feet.spnProtocol.has spnProtocol := by
  unfold spnProtocol
  with_reducible repeat' first
    | exact Only.pure _ | exact Only.getM | refine Only.bind ?_ fun _ => ?_
    | exact (raise_only ..).le (by decide +kernel) | exact (spnRecover_only ..).le (by decide +kernel)

/-- What `replayBlock` can change. -/
def Feet.replayBlock : Mask := Feet.spnProtocol

theorem replayBlock_only (ok : Bool) (first : Nat) :
    Only Feet.replayBlock.has (replayBlock ok first) := by
  unfold replayBlock
  with_reducible repeat' first
    | exact Only.pure _ | exact Only.getM | refine Only.bind ?_ fun _ => ?_ | refine Only.ite ?_ ?_
    | exact Only.wrK .TWN_SPN_STATUS rfl (by decide +kernel) | refine ctlBlock_only _ _ (by decide +kernel) ?_
    | exact (spnProtocol_only ..).le (by decide +kernel)

/-- What `spareBlock` can change. -/
def Feet.spareBlock : Mask := Feet.spnRecover

theorem spareBlock_only (ok : Bool) (n s : Nat) (failedOnly : Bool) :
    Only Feet.spareBlock.has (spareBlock ok n s failedOnly) := by
  simp only [spareBlock, modSpn, getSpn, putSpn]
  with_reducible repeat' first
    | exact Only.pure _ | exact Only.getM | refine Only.bind ?_ fun _ => ?_ | refine Only.onlyIf ?_
    | refine Only.ite ?_ ?_ | exact Only.doT .spn rfl (by decide +kernel)
    | exact (spareTake_only ..).le (by decide +kernel) | exact (spnRecover_only ..).le (by decide +kernel)
    | refine ctlBlock_only _ _ (by decide +kernel) ?_

/-- What `spareFollow` can change. -/
def Feet.spareFollow : Mask := Feet.spareTake

theorem spareFollow_only (map s : Nat) :
    Only Feet.spareFollow.has (spareFollow map s) := by
  unfold spareFollow
  with_reducible repeat' first
    | exact Only.pure _ | exact Only.getM | refine Only.bind ?_ fun _ => ?_ | refine Only.onlyIf ?_
    | refine Only.ite ?_ ?_ | exact (spareTake_only ..).le (by decide +kernel)

/-- What `linkinfoBlock` can change. -/
def Feet.linkinfoBlock : Mask := Feet.spnRecover

theorem linkinfoBlock_only (ok : Bool) (twin : Bool) (failed spares : Nat) :
    Only Feet.linkinfoBlock.has (linkinfoBlock ok twin failed spares) := by
  simp only [linkinfoBlock, modSpn, getSpn, putSpn]
  with_reducible repeat' first
    | exact Only.pure _ | exact Only.getM | refine Only.bind ?_ fun _ => ?_ | refine Only.onlyIf ?_
    | exact Only.wrK .TWN_SPN_STATUS rfl (by decide +kernel) | exact Only.doT .spn rfl (by decide +kernel)
    | exact (spnRecover_only ..).le (by decide +kernel) | refine ctlBlock_only _ _ (by decide +kernel) ?_
    | exact (spareFollow_only ..).le (by decide +kernel)

/-- What `nakRaise` can change. -/
def Feet.nakRaise : Mask := (.of [.TWN_SPN_STATUS] [] : Mask).plus [Feet.statusSend, Feet.lkInc]

theorem nakRaise_only : Only Feet.nakRaise.has nakRaise := by
  unfold nakRaise
  with_reducible repeat' first
    | exact Only.pure _ | exact Only.getM | refine Only.bind ?_ fun _ => ?_
    | exact Only.wrK .TWN_SPN_STATUS rfl (by decide +kernel) | exact (statusSend_only ..).le (by decide +kernel)
    | exact (lkInc_only ..).le (by decide +kernel)

/-- What `fecUncorrectable` can change. -/
def Feet.fecUncorrectable : Mask := Feet.nakRaise

theorem fecUncorrectable_only : Only Feet.fecUncorrectable.has fecUncorrectable := by
  unfold fecUncorrectable
  with_reducible repeat' first
    | exact Only.pure _ | exact Only.getM | refine Only.bind ?_ fun _ => ?_ | refine Only.onlyIf ?_
    | refine Only.ite ?_ ?_ | exact (lkInc_only ..).le (by decide +kernel)
    | exact (nakRaise_only ..).le (by decide +kernel)

/-- What `replayTimeout` can change. -/
def Feet.replayTimeout : Mask := Feet.replayStart

theorem replayTimeout_only : Only Feet.replayTimeout.has replayTimeout := by
  unfold replayTimeout
  with_reducible repeat' first
    | exact Only.pure _ | exact Only.getM | refine Only.bind ?_ fun _ => ?_ | refine Only.onlyIf ?_
    | exact (replayStart_only ..).le (by decide +kernel)

/-- What `spnSilence` can change. -/
def Feet.spnSilence : Mask := Feet.spnRecover

theorem spnSilence_only : Only Feet.spnSilence.has spnSilence := by
  unfold spnSilence
  with_reducible repeat' first
    | exact Only.pure _ | exact Only.getM | refine Only.bind ?_ fun _ => ?_
    | exact (spnRecover_only ..).le (by decide +kernel)

/-- What `statusPeriod` can change. -/
def Feet.statusPeriod : Mask := Feet.statusSend

theorem statusPeriod_only : Only Feet.statusPeriod.has statusPeriod := by
  unfold statusPeriod
  with_reducible repeat' first
    | exact Only.pure _ | exact Only.getM | refine Only.bind ?_ fun _ => ?_
    | exact (statusSend_only ..).le (by decide +kernel)

/-- What `packetEnter` can change. -/
def Feet.packetEnter : Mask := (.of [] [.spnBuf, .spn] : Mask).plus [Feet.emit, Feet.xsend]

theorem packetEnter_only (pk : Packet) :
    Only Feet.packetEnter.has (packetEnter pk) := by
  simp only [packetEnter, modSpn, getSpn, putSpn, modSpnBuf, getSpnBuf, putSpnBuf]
  with_reducible repeat' first
    | exact Only.pure _ | exact Only.getM | refine Only.bind ?_ fun _ => ?_ | refine Only.ite ?_ ?_
    | exact Only.doT .spnBuf rfl (by decide +kernel) | exact Only.doT .spn rfl (by decide +kernel)
    | exact (emit_only ..).le (by decide +kernel) | exact (xsend_only ..).le (by decide +kernel)

/-- What `dataPacket` can change. -/
def Feet.dataPacket : Mask := (.of [.TWN_SPN_RXSEQ, .TWN_SPN_RCRED] [] : Mask).plus [Feet.spnProtocol,
  Feet.packetEnter]

theorem dataPacket_only (pk : Packet) :
    Only Feet.dataPacket.has (dataPacket pk) := by
  unfold dataPacket
  with_reducible repeat' first
    | exact Only.pure _ | exact Only.getM | refine Only.bind ?_ fun _ => ?_ | refine Only.ite ?_ ?_
    | exact Only.addWrapK .TWN_SPN_RCRED rfl (by decide +kernel)
    | exact Only.addWrapK .TWN_SPN_RXSEQ rfl (by decide +kernel)
    | exact countFirst_only _ (by decide +kernel) (k := .TWN_SPN_CNT) rfl (by decide +kernel)
    | exact Only.addSatK .TWN_SPN_RCRED rfl (by decide +kernel) | exact (opRefused_only ..).le (by decide +kernel)
    | exact (statusSend_only ..).le (by decide +kernel) | exact (lkInc_only ..).le (by decide +kernel)
    | exact (spnProtocol_only ..).le (by decide +kernel) | exact (nakRaise_only ..).le (by decide +kernel)
    | exact (packetEnter_only ..).le (by decide +kernel)

/-- What `heldTake` can change. -/
def Feet.heldTake : Mask := .of [] [.spnBuf, .spn]

theorem heldTake_only (vc : Nat) :
    Only Feet.heldTake.has (heldTake vc) := by
  simp only [heldTake, modSpn, getSpn, putSpn, modSpnBuf, getSpnBuf, putSpnBuf]
  with_reducible repeat' first
    | exact Only.pure _ | exact Only.getM | refine Only.bind ?_ fun _ => ?_
    | exact Only.doT .spnBuf rfl (by decide +kernel) | exact Only.doT .spn rfl (by decide +kernel) | split

/-- What `fwdReq` can change. -/
def Feet.fwdReq : Mask := Feet.writeback

theorem fwdReq_only (q : Msg) :
    Only Feet.fwdReq.has (fwdReq q) := by
  simp only [fwdReq, getStampCtr, putStampCtr, putArrT, modSqin, getSqin, putSqin, now]
  with_reducible repeat' first
    | exact Only.pure _ | exact Only.getM | refine Only.bind ?_ fun _ => ?_ | refine Only.ite ?_ ?_
    | exact Only.incK .TWN_CNT rfl (by decide +kernel) | exact Only.doT .sqin rfl (by decide +kernel)
    | exact Only.doT .stampCtr rfl (by decide +kernel) | exact Only.doT .arrT rfl (by decide +kernel)
    | exact (writeback_only ..).le (by decide +kernel)

/-- What `fwdRsp` can change. -/
def Feet.fwdRsp : Mask := Feet.xsend.plus [Feet.heldTake]

theorem fwdRsp_only (q : Msg) :
    Only Feet.fwdRsp.has (fwdRsp q) := by
  simp only [fwdRsp, modSpn, getSpn, putSpn]
  with_reducible repeat' first
    | exact Only.pure _ | exact Only.getM | refine Only.bind ?_ fun _ => ?_ | refine Only.ite ?_ ?_
    | exact Only.doT .spn rfl (by decide +kernel) | exact (xsend_only ..).le (by decide +kernel)
    | exact (heldTake_only ..).le (by decide +kernel)

/-- What `snoopIn` can change. -/
def Feet.snoopIn : Mask := Feet.xsend.plus [Feet.heldTake]

theorem snoopIn_only (q : Msg) :
    Only Feet.snoopIn.has (snoopIn q) := by
  simp only [snoopIn, modSpn, getSpn, putSpn]
  with_reducible repeat' first
    | exact Only.pure _ | exact Only.getM | refine Only.bind ?_ fun _ => ?_ | refine Only.ite ?_ ?_
    | exact Only.doT .spn rfl (by decide +kernel) | exact (xsend_only ..).le (by decide +kernel)
    | exact (heldTake_only ..).le (by decide +kernel) | split

/-- What `birspIn` can change. -/
def Feet.birspIn : Mask := (.of [] [.spn] : Mask).plus [Feet.birsp]

theorem birspIn_only (sq a line : Nat) (s : Bool) :
    Only Feet.birspIn.has (birspIn sq a line s) := by
  simp only [birspIn, modSpn, getSpn, putSpn]
  with_reducible repeat' first
    | exact Only.pure _ | exact Only.getM | refine Only.bind ?_ fun _ => ?_ | refine Only.ite ?_ ?_
    | exact Only.doT .spn rfl (by decide +kernel) | exact (xsend_only ..).le (by decide +kernel)
    | exact (birsp_only ..).le (by decide +kernel)

/-- What `writebackIn` can change. -/
def Feet.writebackIn : Mask := Feet.writeback

theorem writebackIn_only (sq : Nat) (q : Msg) (bad : Option Nat) :
    Only Feet.writebackIn.has (writebackIn sq q bad) := by
  unfold writebackIn
  with_reducible repeat' first
    | exact Only.pure _ | exact Only.getM | refine Only.bind ?_ fun _ => ?_ | refine Only.ite ?_ ?_
    | exact (xsend_only ..).le (by decide +kernel) | exact (writeback_only ..).le (by decide +kernel)

/-- What `loomReq` can change. -/
def Feet.loomReq : Mask := (.of [] [.accNext] : Mask).plus [Feet.kskAccess]

theorem loomReq_only (q : Msg) :
    Only Feet.loomReq.has (loomReq q) := by
  simp only [loomReq, putAccNext, putAcc]
  with_reducible repeat' first
    | exact Only.pure _ | exact Only.getM | refine Only.bind ?_ fun _ => ?_ | refine Only.ite ?_ ?_
    | exact Only.doT .acc rfl (by decide +kernel) | exact Only.doT .accNext rfl (by decide +kernel)
    | exact (xsend_only ..).le (by decide +kernel) | exact (kskInc_only ..).le (by decide +kernel)
    | exact (kskAccess_only ..).le (by decide +kernel)

/-- What `loomRsp` can change. -/
def Feet.loomRsp : Mask := .of [] [.acc]

theorem loomRsp_only (q : Msg) :
    Only Feet.loomRsp.has (loomRsp q) := by
  simp only [loomRsp, putAcc]
  with_reducible repeat' first
    | exact Only.pure _ | exact Only.getM | refine Only.bind ?_ fun _ => ?_ | refine Only.onlyIf ?_
    | exact Only.doT .acc rfl (by decide +kernel)

/-- What `portState` can change. -/
def Feet.portState : Mask := (.of [] [.pagent] : Mask).plus [Feet.agentLost]

theorem portState_only (map : Nat) :
    Only Feet.portState.has (portState map) := by
  simp only [portState, putPagent]
  with_reducible repeat' first
    | exact Only.pure _ | exact Only.getM | refine Only.bind ?_ fun _ => ?_ | refine Only.onlyIf ?_
    | refine Only.each fun _ _ => ?_ | refine Only.ite ?_ ?_ | exact Only.doT .pagent rfl (by decide +kernel)
    | exact (agentLost_only ..).le (by decide +kernel)

/-- What `whlShow` can change. -/
def Feet.whlShow : Mask := .of [.TWN_WHL_STATUS] []

theorem whlShow_only : Only Feet.whlShow.has whlShow := by
  unfold whlShow
  with_reducible repeat' first
    | exact Only.pure _ | exact Only.getM | refine Only.bind ?_ fun _ => ?_ | refine Only.ite ?_ ?_
    | exact Only.wrK .TWN_WHL_STATUS rfl (by decide +kernel)

/-- What `whlGone` can change. -/
def Feet.whlGone : Mask := Feet.witness.plus [Feet.whlShow]

theorem whlGone_only (gone paired : Bool) :
    Only Feet.whlGone.has (whlGone gone paired) := by
  unfold whlGone
  with_reducible repeat' first
    | exact Only.pure _ | exact Only.getM | refine Only.bind ?_ fun _ => ?_ | refine Only.onlyIf ?_
    | refine Only.ite ?_ ?_ | exact Only.wrK .TWN_WHL_STATUS rfl (by decide +kernel)
    | exact (raise_only ..).le (by decide +kernel) | exact (witness_only ..).le (by decide +kernel)
    | exact (whlShow_only ..).le (by decide +kernel)

/-- What `whlCfg` can change. -/
def Feet.whlCfg : Mask := Feet.whlGone

theorem whlCfg_only (paired : Bool) :
    Only Feet.whlCfg.has (whlCfg paired) := by
  unfold whlCfg
  with_reducible repeat' first
    | exact Only.pure _ | exact Only.getM | refine Only.bind ?_ fun _ => ?_ | refine Only.onlyIf ?_
    | refine Only.ite ?_ ?_ | exact (whlGone_only ..).le (by decide +kernel)

/-- What `whlOffset` can change. -/
def Feet.whlOffset : Mask := .of [.TWN_WHL_TOFF] []

theorem whlOffset_only (h : Heartbeat) (t4 : Nat) :
    Only Feet.whlOffset.has (whlOffset h t4) := by
  unfold whlOffset
  with_reducible repeat' first
    | exact Only.pure _ | exact Only.getM | refine Only.bind ?_ fun _ => ?_
    | exact Only.wrK .TWN_WHL_TOFF rfl (by decide +kernel)

/-- What `claimCheck` can change. -/
def Feet.claimCheck : Mask := Feet.dualHome

theorem claimCheck_only (h : Heartbeat) :
    Only Feet.claimCheck.has (claimCheck h) := by
  unfold claimCheck
  with_reducible repeat' first
    | exact Only.pure _ | exact Only.getM | refine Only.bind ?_ fun _ => ?_ | refine Only.ite ?_ ?_
    | exact (dualHome_only ..).le (by decide +kernel) | exact (yieldEnd_only ..).le (by decide +kernel)

/-- What `frameBad` can change. -/
def Feet.frameBad : Mask := Feet.wkInc

theorem frameBad_only (fault : Nat) :
    Only Feet.frameBad.has (frameBad fault) := by
  unfold frameBad
  with_reducible repeat' first
    | exact Only.pure _ | exact Only.getM | refine Only.bind ?_ fun _ => ?_ | refine Only.ite ?_ ?_
    | exact (wkInc_only ..).le (by decide +kernel)

/-- What `heartbeatIn` can change. -/
def Feet.heartbeatIn : Mask := (.of [.TWN_WHL_PARTNER, .TWN_WHL_DIGEST] [.ldr, .whl] : Mask).plus [Feet.wkInc,
  Feet.whlGone, Feet.whlOffset, Feet.claimCheck]

theorem heartbeatIn_only (fault : Nat) (h : Heartbeat) (k27 : Nat) :
    Only Feet.heartbeatIn.has (heartbeatIn fault h k27) := by
  simp only [heartbeatIn, modWhl, getWhl, putWhl, modLdr, getLdr, putLdr]
  with_reducible repeat' first
    | exact Only.pure _ | exact Only.getM | refine Only.bind ?_ fun _ => ?_ | refine Only.onlyIf ?_
    | refine Only.ite ?_ ?_ | exact Only.wrK .TWN_WHL_DIGEST rfl (by decide +kernel)
    | exact Only.wrK .TWN_WHL_PARTNER rfl (by decide +kernel)
    | exact Only.wrK .TWN_WHL_STATUS rfl (by decide +kernel) | exact Only.doT .ldr rfl (by decide +kernel)
    | exact Only.doT .whl rfl (by decide +kernel) | exact (roleEval_only ..).le (by decide +kernel)
    | exact (wkInc_only ..).le (by decide +kernel) | exact (whlGone_only ..).le (by decide +kernel)
    | exact (whlOffset_only ..).le (by decide +kernel) | exact (claimCheck_only ..).le (by decide +kernel)
    | exact (frameBad_only ..).le (by decide +kernel)

/-- What `heartbeatSend` can change. -/
def Feet.heartbeatSend : Mask := (.of [.TWN_WHL_STATUS, .TWN_WHL_FW_CTL] [.hbTx, .whl] : Mask).plus [Feet.dualHome,
  Feet.wkInc]

theorem heartbeatSend_only : Only Feet.heartbeatSend.has heartbeatSend := by
  simp only [heartbeatSend, putHbTx, modTwx, getTwx, putTwx, putWhl]
  with_reducible repeat' first
    | exact Only.pure _ | exact Only.getM | refine Only.bind ?_ fun _ => ?_ | refine Only.onlyIf ?_
    | refine Only.ite ?_ ?_ | exact Only.wrK .TWN_WHL_FW_CTL rfl (by decide +kernel)
    | exact Only.wrK .TWN_WHL_STATUS rfl (by decide +kernel) | exact Only.doT .twx rfl (by decide +kernel)
    | exact Only.doT .hbTx rfl (by decide +kernel) | exact Only.doT .whl rfl (by decide +kernel)
    | exact (emit_only ..).le (by decide +kernel) | exact (dualHome_only ..).le (by decide +kernel)
    | exact (wkInc_only ..).le (by decide +kernel)

/-- What `heartbeatMiss` can change. -/
def Feet.heartbeatMiss : Mask := (.of [] [.whl] : Mask).plus [Feet.whlGone]

theorem heartbeatMiss_only : Only Feet.heartbeatMiss.has heartbeatMiss := by
  simp only [heartbeatMiss, modWhl, getWhl, putWhl]
  with_reducible repeat' first
    | exact Only.pure _ | exact Only.getM | refine Only.bind ?_ fun _ => ?_ | refine Only.onlyIf ?_
    | refine Only.ite ?_ ?_ | exact Only.incK .TWN_WHL_STATUS rfl (by decide +kernel)
    | exact Only.doT .whl rfl (by decide +kernel) | exact (whlGone_only ..).le (by decide +kernel)

/-- What `whlSyncLoss` can change. -/
def Feet.whlSyncLoss : Mask := (.of [] [.whl] : Mask).plus [Feet.wkInc, Feet.whlShow]

theorem whlSyncLoss_only (inFrame : Bool) :
    Only Feet.whlSyncLoss.has (whlSyncLoss inFrame) := by
  simp only [whlSyncLoss, modWhl, getWhl, putWhl]
  with_reducible repeat' first
    | exact Only.pure _ | exact Only.getM | refine Only.bind ?_ fun _ => ?_ | refine Only.onlyIf ?_
    | refine Only.ite ?_ ?_ | exact Only.addSatK .TWN_WHL_CNT rfl (by decide +kernel)
    | exact Only.doT .whl rfl (by decide +kernel) | exact (wkInc_only ..).le (by decide +kernel)
    | exact (whlShow_only ..).le (by decide +kernel)

/-- What `whlAlign` can change. -/
def Feet.whlAlign : Mask := (.of [] [.whl] : Mask).plus [Feet.whlShow]

theorem whlAlign_only : Only Feet.whlAlign.has whlAlign := by
  simp only [whlAlign, modWhl, getWhl, putWhl]
  with_reducible repeat' first
    | exact Only.pure _ | exact Only.getM | refine Only.bind ?_ fun _ => ?_ | refine Only.onlyIf ?_
    | exact Only.doT .whl rfl (by decide +kernel) | exact (whlShow_only ..).le (by decide +kernel)

/-- What `fwFrame` can change. -/
def Feet.fwFrame : Mask := (.of [.TWN_WHL_FW_CTL, .TWN_WHL_FW_RX] [] : Mask).plus [Feet.wkInc]

theorem fwFrame_only (fault d0 d1 : Nat) :
    Only Feet.fwFrame.has (fwFrame fault d0 d1) := by
  unfold fwFrame
  with_reducible repeat' first
    | exact Only.pure _ | exact Only.getM | refine Only.bind ?_ fun _ => ?_ | refine Only.ite ?_ ?_
    | exact Only.wrK .TWN_WHL_FW_CTL rfl (by decide +kernel) | exact Only.wrK .TWN_WHL_FW_RX rfl (by decide +kernel)
    | exact (wkInc_only ..).le (by decide +kernel) | exact (frameBad_only ..).le (by decide +kernel)

/-- What `whlNoClock` can change. -/
def Feet.whlNoClock : Mask := (.of [] [.whl] : Mask).plus [Feet.witness, Feet.whlShow]

theorem whlNoClock_only : Only Feet.whlNoClock.has whlNoClock := by
  simp only [whlNoClock, modWhl, getWhl, putWhl]
  with_reducible repeat' first
    | exact Only.pure _ | exact Only.getM | refine Only.bind ?_ fun _ => ?_
    | exact Only.wrK .TWN_WHL_STATUS rfl (by decide +kernel) | exact Only.doT .whl rfl (by decide +kernel)
    | exact (witness_only ..).le (by decide +kernel) | exact (whlShow_only ..).le (by decide +kernel)

/-- What `partnerAlive` can change. -/
def Feet.partnerAlive : Mask := (.of [] [.pins] : Mask).plus [Feet.witness]

theorem partnerAlive_only (level : Bool) :
    Only Feet.partnerAlive.has (partnerAlive level) := by
  simp only [partnerAlive, modPins, getPins, putPins]
  with_reducible repeat' first
    | exact Only.pure _ | exact Only.getM | refine Only.bind ?_ fun _ => ?_
    | exact Only.doT .pins rfl (by decide +kernel) | exact (witness_only ..).le (by decide +kernel)

/-- What `linkEffect` can change. -/
def Feet.linkEffect : Mask := (.of [.TWN_WHL_FW_CTL, .TWN_WHL_CNT] [.whl] : Mask).plus [Feet.twnEffect,
  Feet.spnRecover, Feet.whlCfg]

theorem linkEffect_only (k : RegKind) (i old cmd : Nat) :
    Only Feet.linkEffect.has (linkEffect k i old cmd) := by
  simp only [linkEffect, modSpn, getSpn, putSpn, modWhl, getWhl, putWhl]
  with_reducible repeat' first
    | exact Only.pure _ | exact Only.getM | refine Only.bind ?_ fun _ => ?_ | refine Only.onlyIf ?_
    | refine Only.each fun _ _ => ?_ | refine Only.ite ?_ ?_ | exact Only.rstK .TWN_SPN_CNT (by decide +kernel)
    | exact Only.rstK .TWN_WHL_CNT (by decide +kernel) | exact Only.wrK .TWN_WHL_FW_CTL rfl (by decide +kernel)
    | exact Only.doT .spn rfl (by decide +kernel) | exact Only.doT .whl rfl (by decide +kernel)
    | exact (spnKick_only ..).le (by decide +kernel) | exact (spnOff_only ..).le (by decide +kernel)
    | exact (twnEffect_only ..).le (by decide +kernel) | exact (spnRecover_only ..).le (by decide +kernel)
    | exact (whlCfg_only ..).le (by decide +kernel) | split

end Sys2Proof.Machine
end

