-- ==== Sys2Proof/Laws/FeetIntegrity.lean ====
section
/-!
SUPPORT. The footprint of every operation of Machine/Integrity.lean: the registers and the things beside them that it can
change, whatever the block holds.
-/
namespace Sys2Proof.Machine

set_option Elab.async false

/-- The VALID bit of a context object is stored. -/
theorem wrCtx_only {M : Mask} {sort i x : Nat} (h : ([.TM_QPOL, .FLW_W1, .RNG_CFG, .KRB_WIN, .LM_TBL_CFG, .SQ_FMD_CTL,
    .TM_BND_CFG, .TM_CH_CFG, .TM_GRP] : List RegKind).all M.hasReg = true) : Only M.has (wr (ctxValid sort i) x) := by
  simp only [List.all_cons, List.all_nil, Bool.and_eq_true, Bool.and_true] at h
  refine Only.wr fun v => ?_
  rw [Mask.has_reg]
  unfold ctxValid
  split <;> simp only [h]

/-- What `ctxRestart` can change. -/
def Feet.ctxRestart : Mask := (.of [.TM_QSTAT, .RNG_IDX, .RNG_STATUS, .RNG_PROG, .FLW_W0] [.ring] : Mask).plus
  [Feet.queueCut]

theorem ctxRestart_only (sort i : Nat) :
    Only Feet.ctxRestart.has (ctxRestart sort i) := by
  simp only [ctxRestart, putRing]
  with_reducible repeat' first
    | exact Only.pure _ | exact Only.getM | refine Only.bind ?_ fun _ => ?_
    | exact Only.rstK .FLW_W0 (by decide +kernel) | exact Only.rstK .RNG_IDX (by decide +kernel)
    | exact Only.rstK .RNG_PROG (by decide +kernel) | exact Only.rstK .RNG_STATUS (by decide +kernel)
    | exact Only.rstK .TM_BND_ST (by decide +kernel) | exact Only.rstK .TM_CH_ST (by decide +kernel)
    | exact Only.rstK .TM_QOCC (by decide +kernel) | exact Only.rstK .TM_QSCH_ST (by decide +kernel)
    | exact Only.rstK .TM_QSTAT (by decide +kernel) | exact Only.doT .ring rfl (by decide +kernel)
    | exact (queueCut_only ..).le (by decide +kernel) | split

/-- What `ctxFaulty` can change. -/
def Feet.ctxFaulty : Mask := (.of [.SQ_FMD_CTL, .KRB_WIN, .KRB_CWIN, .TM_QPOL, .TM_GRP, .TM_BND_CFG, .TM_CH_CFG,
  .RNG_CFG, .LM_TBL_CFG, .FLW_W1, .INT_FAULTY] [.faulty] : Mask).plus [Feet.queueCut]

theorem ctxFaulty_only (sort i : Nat) :
    Only Feet.ctxFaulty.has (ctxFaulty sort i) := by
  simp only [ctxFaulty, modFaulty, getFaulty, putFaulty]
  with_reducible repeat' first
    | exact Only.pure _ | exact Only.getM | refine Only.bind ?_ fun _ => ?_ | exact wrCtx_only (by decide +kernel)
    | refine Only.onlyIf ?_ | refine Only.ite ?_ ?_ | exact Only.wrK .FLW_W1 rfl (by decide +kernel)
    | exact Only.wrK .INT_FAULTY rfl (by decide +kernel) | exact Only.wrK .KRB_CWIN rfl (by decide +kernel)
    | exact Only.wrK .KRB_WIN rfl (by decide +kernel) | exact Only.wrK .LM_TBL_CFG rfl (by decide +kernel)
    | exact Only.wrK .RNG_CFG rfl (by decide +kernel) | exact Only.wrK .SQ_FMD_CTL rfl (by decide +kernel)
    | exact Only.wrK .TM_BND_CFG rfl (by decide +kernel) | exact Only.wrK .TM_CH_CFG rfl (by decide +kernel)
    | exact Only.wrK .TM_GRP rfl (by decide +kernel) | exact Only.wrK .TM_QPOL rfl (by decide +kernel)
    | exact Only.doT .faulty rfl (by decide +kernel) | exact (queueCut_only ..).le (by decide +kernel)

/-- What `ctxWritten` can change. -/
def Feet.ctxWritten : Mask := (.of [.SQ_FMD_CTL, .KRB_WIN, .TM_QPOL, .TM_GRP, .TM_BND_CFG, .TM_CH_CFG, .RNG_CFG,
  .LM_TBL_CFG, .FLW_W1] [.faulty] : Mask).plus [Feet.ctxRestart]

theorem ctxWritten_only (r : Reg) :
    Only Feet.ctxWritten.has (ctxWritten r) := by
  simp only [ctxWritten, modFaulty, getFaulty, putFaulty]
  with_reducible repeat' first
    | exact Only.pure _ | exact Only.getM | refine Only.bind ?_ fun _ => ?_ | exact wrCtx_only (by decide +kernel)
    | refine Only.onlyIf ?_ | refine Only.each fun _ _ => ?_ | refine Only.ite ?_ ?_
    | exact Only.wrK .FLW_W1 rfl (by decide +kernel) | exact Only.wrK .KRB_WIN rfl (by decide +kernel)
    | exact Only.wrK .LM_TBL_CFG rfl (by decide +kernel) | exact Only.wrK .RNG_CFG rfl (by decide +kernel)
    | exact Only.wrK .SQ_FMD_CTL rfl (by decide +kernel) | exact Only.wrK .TM_BND_CFG rfl (by decide +kernel)
    | exact Only.wrK .TM_CH_CFG rfl (by decide +kernel) | exact Only.wrK .TM_GRP rfl (by decide +kernel)
    | exact Only.wrK .TM_QPOL rfl (by decide +kernel) | exact Only.doT .faulty rfl (by decide +kernel)
    | exact (ctxRestart_only ..).le (by decide +kernel)

/-- What `markPoison` can change. -/
def Feet.markPoison : Mask := .of [] [.dir, .slot, .tq, .push, .kline]

theorem markPoison_only (mem inst i : Nat) :
    Only Feet.markPoison.has (markPoison mem inst i) := by
  simp only [markPoison, putDir, modKline, getKline, putKline, modTq, getTq, putTq, modPush, getPush, putPush,
    modSlot, getSlot, putSlot]
  with_reducible repeat' first
    | exact Only.pure _ | exact Only.getM | refine Only.bind ?_ fun _ => ?_ | refine Only.each fun _ _ => ?_
    | refine Only.ite ?_ ?_ | exact Only.doT .dir rfl (by decide +kernel)
    | exact Only.doT .slot rfl (by decide +kernel) | exact Only.doT .tq rfl (by decide +kernel)
    | exact Only.doT .push rfl (by decide +kernel) | exact Only.doT .kline rfl (by decide +kernel) | split

/-- What `repairsKeep` can change. -/
def Feet.repairsKeep : Mask := .of [.INT_REPAIR_STATUS] [.repairs]

theorem repairsKeep_only (f : Nat → Bool) :
    Only Feet.repairsKeep.has (repairsKeep f) := by
  simp only [repairsKeep, modRepairs, getRepairs, putRepairs]
  with_reducible repeat' first
    | exact Only.pure _ | exact Only.getM | refine Only.bind ?_ fun _ => ?_
    | exact Only.wrK .INT_REPAIR_STATUS rfl (by decide +kernel) | exact Only.doT .repairs rfl (by decide +kernel)

/-- What `retireAsk` can change. -/
def Feet.retireAsk : Mask := Feet.bobRetire

theorem retireAsk_only (b : Nat) :
    Only Feet.retireAsk.has (retireAsk b) := by
  simp only [retireAsk, putRetire]
  with_reducible repeat' first
    | exact Only.pure _ | exact Only.getM | refine Only.bind ?_ fun _ => ?_ | refine Only.onlyIf ?_
    | refine Only.ite ?_ ?_ | exact Only.doT .retire rfl (by decide +kernel)
    | exact (bobRetire_only ..).le (by decide +kernel)

/-- What `wordBad` can change. -/
def Feet.wordBad : Mask := (.of [] [.pred, .scrub] : Mask).plus [Feet.memPoisoned, Feet.memFatal, Feet.clusterLost,
  Feet.ctxFaulty, Feet.markPoison, Feet.retireAsk]

theorem wordBad_only (mem inst i cause sort obj : Nat) :
    Only Feet.wordBad.has (wordBad mem inst i cause sort obj) := by
  simp only [wordBad, putPred, modScrub, getScrub, putScrub]
  with_reducible repeat' first
    | exact Only.pure _ | exact Only.getM | refine Only.bind ?_ fun _ => ?_ | refine Only.onlyIf ?_
    | refine Only.each fun _ _ => ?_ | refine Only.ite ?_ ?_ | exact Only.doT .pred rfl (by decide +kernel)
    | exact Only.doT .scrub rfl (by decide +kernel) | exact (memPoisoned_only ..).le (by decide +kernel)
    | exact (memUncorrectable_only ..).le (by decide +kernel) | exact (memFatal_only ..).le (by decide +kernel)
    | exact (clusterLost_only ..).le (by decide +kernel) | exact (ctxFaulty_only ..).le (by decide +kernel)
    | exact (markPoison_only ..).le (by decide +kernel) | exact (retireAsk_only ..).le (by decide +kernel) | split

/-- What `scrubStart` can change. -/
def Feet.scrubStart : Mask := .of [.INT_SCRUB_STATUS] [.scrub]

theorem scrubStart_only : Only Feet.scrubStart.has scrubStart := by
  simp only [scrubStart, putScrub]
  with_reducible repeat' first
    | exact Only.pure _ | exact Only.getM | refine Only.bind ?_ fun _ => ?_
    | exact Only.wrK .INT_SCRUB_STATUS rfl (by decide +kernel) | exact Only.doT .scrub rfl (by decide +kernel)

/-- What `scrubRow` can change. -/
def Feet.scrubRow : Mask := (.of [.INT_REPAIR_STATUS] [.repairs, .scrub] : Mask).plus [Feet.retireAsk]

theorem scrubRow_only (mem inst i row : Nat) (spare : Bool) :
    Only Feet.scrubRow.has (scrubRow mem inst i row spare) := by
  simp only [scrubRow, modScrub, getScrub, putScrub, modRepairs, getRepairs, putRepairs]
  with_reducible repeat' first
    | exact Only.pure _ | exact Only.getM | refine Only.bind ?_ fun _ => ?_ | refine Only.onlyIf ?_
    | refine Only.ite ?_ ?_ | exact Only.incK .INT_REPAIR_STATUS rfl (by decide +kernel)
    | exact Only.doT .repairs rfl (by decide +kernel) | exact Only.doT .scrub rfl (by decide +kernel)
    | exact (raise_only ..).le (by decide +kernel) | exact (retireAsk_only ..).le (by decide +kernel)

/-- What `scrubWord` can change. -/
def Feet.scrubWord : Mask := (.of [.INT_SCRUB_STATUS] [] : Mask).plus [Feet.memCorrected, Feet.wordBad, Feet.scrubRow]

theorem scrubWord_only (w : WordClass) :
    Only Feet.scrubWord.has (scrubWord w) := by
  simp only [scrubWord, modScrub, getScrub, putScrub]
  with_reducible repeat' first
    | exact Only.pure _ | exact Only.getM | refine Only.bind ?_ fun _ => ?_ | refine Only.ite ?_ ?_
    | exact Only.wrK .INT_SCRUB_STATUS rfl (by decide +kernel) | exact Only.doT .scrub rfl (by decide +kernel)
    | exact (memCorrected_only ..).le (by decide +kernel) | exact (wordBad_only ..).le (by decide +kernel)
    | exact (scrubRow_only ..).le (by decide +kernel) | split

/-- What `scrubEnd` can change. -/
def Feet.scrubEnd : Mask := (.of [.INT_SCRUB_STATUS, .INT_SCRUB_SUM] [] : Mask).plus [Feet.raise]

theorem scrubEnd_only : Only Feet.scrubEnd.has scrubEnd := by
  unfold scrubEnd
  with_reducible repeat' first
    | exact Only.pure _ | exact Only.getM | refine Only.bind ?_ fun _ => ?_ | refine Only.ite ?_ ?_
    | exact Only.wrK .INT_SCRUB_STATUS rfl (by decide +kernel) | exact Only.wrRegK .INT_SCRUB_SUM (by decide +kernel)
    | exact (raise_only ..).le (by decide +kernel)

/-- What `mergeDrain` can change. -/
def Feet.mergeDrain : Mask := Feet.memPoisoned.plus [Feet.memCorrected, Feet.markPoison]

theorem mergeDrain_only (mem inst i : Nat) (complete : Bool) (w : WordClass) :
    Only Feet.mergeDrain.has (mergeDrain mem inst i complete w) := by
  unfold mergeDrain
  with_reducible repeat' first
    | exact Only.pure _ | exact Only.getM | refine Only.bind ?_ fun _ => ?_ | refine Only.ite ?_ ?_
    | exact (memPoisoned_only ..).le (by decide +kernel) | exact (memCorrected_only ..).le (by decide +kernel)
    | exact (markPoison_only ..).le (by decide +kernel) | split

/-- What `rawKline` can change. -/
def Feet.rawKline : Mask := .of [] [.kline]

theorem rawKline_only (inst i : Nat) (w : Word) (pm : Bool) :
    Only Feet.rawKline.has (rawKline inst i w pm) := by
  simp only [rawKline, modKline, getKline, putKline]
  with_reducible repeat' first
    | exact Only.pure _ | exact Only.getM | refine Only.bind ?_ fun _ => ?_ | refine Only.ite ?_ ?_
    | exact Only.doT .kline rfl (by decide +kernel)

/-- What `rawWrite` can change. -/
def Feet.rawWrite : Mask := (.of [.INT_TEST_CTL] [.sram, .dir, .raw] : Mask).plus [Feet.rawKline]

theorem rawWrite_only : Only Feet.rawWrite.has rawWrite := by
  simp only [rawWrite, putRaw, putSram, putDir]
  with_reducible repeat' first
    | exact Only.pure _ | exact Only.getM | refine Only.bind ?_ fun _ => ?_ | refine Only.onlyIf ?_
    | refine Only.ite ?_ ?_ | exact Only.wrK .INT_TEST_CTL rfl (by decide +kernel)
    | exact Only.doT .sram rfl (by decide +kernel) | exact Only.doT .dir rfl (by decide +kernel)
    | exact Only.doT .raw rfl (by decide +kernel) | exact (rawKline_only ..).le (by decide +kernel)

/-- What `rawRead` can change. -/
def Feet.rawRead : Mask := .of [.INT_TEST_CTL, .INT_TEST_META, .INT_TEST_CHECK, .INT_TEST_DATA] [.freeCtr]

theorem rawRead_only : Only Feet.rawRead.has rawRead := by
  unfold rawRead
  with_reducible repeat' first
    | exact Only.pure _ | exact Only.getM | refine Only.bind ?_ fun _ => ?_ | refine Only.onlyIf ?_
    | refine Only.each fun _ _ => ?_ | refine Only.ite ?_ ?_ | exact Only.wrK .INT_TEST_CHECK rfl (by decide +kernel)
    | exact Only.wrK .INT_TEST_CTL rfl (by decide +kernel) | exact Only.wrK .INT_TEST_META rfl (by decide +kernel)
    | exact Only.wrRegK .INT_TEST_DATA (by decide +kernel) | exact Only.free _ (by decide +kernel)

/-- What `rawDone` can change. -/
def Feet.rawDone : Mask := .of [.INT_TEST_CTL] []

theorem rawDone_only : Only Feet.rawDone.has rawDone := by
  unfold rawDone
  with_reducible repeat' first
    | exact Only.pure _ | exact Only.getM | refine Only.bind ?_ fun _ => ?_
    | exact Only.wrK .INT_TEST_CTL rfl (by decide +kernel)

/-- What `evqEnable` can change. -/
def Feet.evqEnable : Mask := (.of [] [.hold] : Mask).plus [Feet.evqPut]

theorem evqEnable_only : Only Feet.evqEnable.has evqEnable := by
  simp only [evqEnable, putHold]
  with_reducible repeat' first
    | exact Only.pure _ | exact Only.getM | refine Only.bind ?_ fun _ => ?_ | refine Only.each fun _ _ => ?_
    | exact Only.doT .hold rfl (by decide +kernel) | exact (evqPut_only ..).le (by decide +kernel)

/-- What `evqIrqTimeout` can change. -/
def Feet.evqIrqTimeout : Mask := Feet.emit

theorem evqIrqTimeout_only : Only Feet.evqIrqTimeout.has evqIrqTimeout := by
  unfold evqIrqTimeout
  with_reducible repeat' first
    | exact Only.pure _ | exact Only.getM | refine Only.bind ?_ fun _ => ?_ | refine Only.onlyIf ?_
    | exact (emit_only ..).le (by decide +kernel)

/-- What `poisonCommand` can change. -/
def Feet.poisonCommand : Mask := Feet.emit

theorem poisonCommand_only (v op : Nat) :
    Only Feet.poisonCommand.has (poisonCommand v op) := by
  unfold poisonCommand
  with_reducible repeat' first
    | exact Only.pure _ | exact Only.getM | refine Only.bind ?_ fun _ => ?_
    | exact (emit_only ..).le (by decide +kernel)

/-- What `intEffect` can change. -/
def Feet.intEffect : Mask := (.of [.INT_CNT_CE, .INT_CNT_POISON, .INT_CNT_UE, .INT_CNT_PIN] [] : Mask).plus
  [Feet.retireAsk, Feet.scrubStart, Feet.rawWrite, Feet.rawRead, Feet.evqEnable]

theorem intEffect_only (k : RegKind) (_i old cmd : Nat) :
    Only Feet.intEffect.has (intEffect k _i old cmd) := by
  simp only [intEffect, modScrub, getScrub, putScrub]
  with_reducible repeat' first
    | exact Only.pure _ | exact Only.getM | refine Only.bind ?_ fun _ => ?_ | refine Only.onlyIf ?_
    | refine Only.each fun _ _ => ?_ | exact Only.rstK .INT_CNT_CE (by decide +kernel)
    | exact Only.rstK .INT_CNT_PIN (by decide +kernel) | exact Only.rstK .INT_CNT_POISON (by decide +kernel)
    | exact Only.rstK .INT_CNT_UE (by decide +kernel) | exact Only.rstK .INT_EVQ_CNT (by decide +kernel)
    | exact Only.doT .scrub rfl (by decide +kernel) | exact (retireAsk_only ..).le (by decide +kernel)
    | exact (scrubStart_only ..).le (by decide +kernel) | exact (rawWrite_only ..).le (by decide +kernel)
    | exact (rawRead_only ..).le (by decide +kernel) | exact (evqEnable_only ..).le (by decide +kernel) | split

end Sys2Proof.Machine
end

