-- ==== Sys2Proof/Laws/FeetPower.lean ====
section
/-!
SUPPORT. The footprint of every operation of Machine/Power.lean: the registers and the things beside them that it can
change, whatever the block holds.
-/
namespace Sys2Proof.Machine

set_option Elab.async false

/-- What `epFlush` can change. -/
def Feet.epFlush : Mask := Feet.discard.plus [Feet.popQueue]

theorem epFlush_only (ep : Nat) :
    Only Feet.epFlush.has (epFlush ep) := by
  unfold epFlush
  with_reducible repeat' first
    | exact Only.pure _ | exact Only.getM | refine Only.bind ?_ fun _ => ?_ | refine Only.each fun _ _ => ?_
    | exact (discard_only ..).le (by decide +kernel) | exact (popQueue_only ..).le (by decide +kernel)

/-- What `squareLost` can change. -/
def Feet.squareLost : Mask := .of [] [.sqin, .dir, .trk, .specT, .memT, .mru, .bic, .sqx, .mtt]

theorem squareLost_only (n : Nat) :
    Only Feet.squareLost.has (squareLost n) := by
  simp only [squareLost, putDir, putTrk, putSpecT, putMemT, putMru, modBic, getBic, putBic, putMtt, putSqx, putSqin]
  with_reducible repeat' first
    | exact Only.pure _ | exact Only.getM | refine Only.bind ?_ fun _ => ?_ | refine Only.each fun _ _ => ?_
    | exact Only.doT .sqin rfl (by decide +kernel) | exact Only.doT .dir rfl (by decide +kernel)
    | exact Only.doT .trk rfl (by decide +kernel) | exact Only.doT .specT rfl (by decide +kernel)
    | exact Only.doT .memT rfl (by decide +kernel) | exact Only.doT .mru rfl (by decide +kernel)
    | exact Only.doT .bic rfl (by decide +kernel) | exact Only.doT .sqx rfl (by decide +kernel)
    | exact Only.doT .mtt rfl (by decide +kernel)

/-- What `tmLost` can change. -/
def Feet.tmLost : Mask := .of [.TM_STATUS, .TM_SPILL_STATUS, .TM_CNT, .TM_SRING_CTL, .TM_SRING_STATUS, .TM_CHAN_EGR1,
  .TM_RXB1, .TM_QOCC, .TM_QSTAT, .TM_QSCH_ST, .TM_BND_ST, .TM_CH_ST, .TM_PORT_ST] [.slot, .srx, .pfree, .sfree, .tq,
  .push, .act, .buck, .bmove, .lane, .gopen, .wire]

theorem tmLost_only (count : Bool) :
    Only Feet.tmLost.has (tmLost count) := by
  simp only [tmLost, clearTq, clearPush, clearSlot, clearSrx, clearAct, clearBuck, clearLane, putBmove, putPfree,
    putSfree, clearWire, clearGopen]
  with_reducible repeat' first
    | exact Only.pure _ | exact Only.getM | refine Only.bind ?_ fun _ => ?_
    | refine Only.onlyIf' fun h => Only.rstMem h (by decide +kernel) | refine Only.onlyIf ?_
    | refine Only.each fun _ _ => ?_ | exact Only.addSatK .TM_CNT rfl (by decide +kernel)
    | exact Only.wrK .TM_SRING_CTL rfl (by decide +kernel) | exact Only.wrK .TM_SRING_STATUS rfl (by decide +kernel)
    | exact Only.wrK .TM_STATUS rfl (by decide +kernel) | exact Only.rstK .TM_SPILL_STATUS (by decide +kernel)
    | exact Only.doT .slot rfl (by decide +kernel) | exact Only.doT .srx rfl (by decide +kernel)
    | exact Only.doT .pfree rfl (by decide +kernel) | exact Only.doT .sfree rfl (by decide +kernel)
    | exact Only.doT .tq rfl (by decide +kernel) | exact Only.doT .push rfl (by decide +kernel)
    | exact Only.doT .act rfl (by decide +kernel) | exact Only.doT .buck rfl (by decide +kernel)
    | exact Only.doT .bmove rfl (by decide +kernel) | exact Only.doT .lane rfl (by decide +kernel)
    | exact Only.doT .gopen rfl (by decide +kernel) | exact Only.doT .wire rfl (by decide +kernel)

/-- What `tmFree` can change. -/
def Feet.tmFree : Mask := (.of [.INT_LEAKED] [] : Mask).plus [Feet.bobRetire]

theorem tmFree_only : Only Feet.tmFree.has tmFree := by
  unfold tmFree
  with_reducible repeat' first
    | exact Only.pure _ | exact Only.getM | refine Only.bind ?_ fun _ => ?_ | refine Only.onlyIf ?_
    | refine Only.each fun _ _ => ?_ | exact Only.wrK .INT_LEAKED rfl (by decide +kernel)
    | exact Only.wrK .TM_STATUS rfl (by decide +kernel) | exact (bobRetire_only ..).le (by decide +kernel)

/-- What `fenceFor` can change. -/
def Feet.fenceFor : Mask := Feet.fence

theorem fenceFor_only (d : Nat) :
    Only Feet.fenceFor.has (fenceFor d) := by
  unfold fenceFor
  with_reducible repeat' first
    | exact Only.pure _ | exact Only.getM | refine Only.bind ?_ fun _ => ?_ | refine Only.onlyIf ?_
    | exact (fence_only ..).le (by decide +kernel)

/-- What `pllShow` can change. -/
def Feet.pllShow : Mask := .of [.PWR_CLK_STATUS, .OCT_STATUS] []

theorem pllShow_only (d v : Nat) :
    Only Feet.pllShow.has (pllShow d v) := by
  unfold pllShow
  with_reducible repeat' first
    | exact Only.pure _ | exact Only.getM | refine Only.bind ?_ fun _ => ?_ | refine Only.onlyIf ?_
    | refine Only.ite ?_ ?_ | exact Only.wrK .OCT_STATUS rfl (by decide +kernel)
    | exact Only.wrK .PWR_CLK_STATUS rfl (by decide +kernel)

/-- What `leaveOn` can change. -/
def Feet.leaveOn : Mask := (.of [] [.hold, .evLost] : Mask).plus [Feet.planeStop, Feet.kskGone, Feet.bankAccLost,
  Feet.clusterLost, Feet.witness, Feet.squareLost, Feet.tmLost, Feet.fenceFor, Feet.pllShow]

theorem leaveOn_only (d : Nat) (lost : Bool) :
    Only Feet.leaveOn.has (leaveOn d lost) := by
  simp only [leaveOn, putEvLost, putHold]
  with_reducible repeat' first
    | exact Only.pure _ | exact Only.getM | refine Only.bind ?_ fun _ => ?_ | refine Only.onlyIf ?_
    | refine Only.each fun _ _ => ?_ | refine Only.ite ?_ ?_ | exact Only.wrK .TWN_SPN_STATUS rfl (by decide +kernel)
    | exact Only.doT .hold rfl (by decide +kernel) | exact Only.doT .evLost rfl (by decide +kernel)
    | exact (planeDomainLost_only ..).le (by decide +kernel) | exact (planeStop_only ..).le (by decide +kernel)
    | exact (kioskLost_only ..).le (by decide +kernel) | exact (kskGone_only ..).le (by decide +kernel)
    | exact (bankAccLost_only ..).le (by decide +kernel) | exact (predClear_only ..).le (by decide +kernel)
    | exact (clusterLost_only ..).le (by decide +kernel) | exact (portOff_only ..).le (by decide +kernel)
    | exact (witness_only ..).le (by decide +kernel) | exact (spnOff_only ..).le (by decide +kernel)
    | exact (epFlush_only ..).le (by decide +kernel) | exact (squareLost_only ..).le (by decide +kernel)
    | exact (tmLost_only ..).le (by decide +kernel) | exact (fenceFor_only ..).le (by decide +kernel)
    | exact (pllShow_only ..).le (by decide +kernel)

/-- What `domOff` can change. -/
def Feet.domOff : Mask := (.of [.LM_CL_STATUS] [] : Mask).plus [Feet.planeOff, Feet.kskGone, Feet.predClear,
  Feet.repairsKeep, Feet.squareLost, Feet.tmLost]

theorem domOff_only (d : Nat) :
    Only Feet.domOff.has (domOff d) := by
  unfold domOff
  with_reducible repeat' first
    | exact Only.pure _ | exact Only.getM | refine Only.bind ?_ fun _ => ?_ | refine Only.ite ?_ ?_
    | exact Only.wrK .LM_CL_STATUS rfl (by decide +kernel) | exact (planeOff_only ..).le (by decide +kernel)
    | exact (kskGone_only ..).le (by decide +kernel) | exact (predClear_only ..).le (by decide +kernel)
    | exact (repairsKeep_only ..).le (by decide +kernel) | exact (squareLost_only ..).le (by decide +kernel)
    | exact (tmLost_only ..).le (by decide +kernel)

/-- What `domUp` can change. -/
def Feet.domUp : Mask := (.of [] [.sram] : Mask).plus [Feet.planeDomainOn, Feet.kskOn, Feet.clusterOn, Feet.portKick,
  Feet.spnKick, Feet.tmFree]

theorem domUp_only (d : Nat) (fromOff : Bool) :
    Only Feet.domUp.has (domUp d fromOff) := by
  simp only [domUp, clearSram]
  with_reducible repeat' first
    | exact Only.pure _ | exact Only.getM | refine Only.bind ?_ fun _ => ?_ | refine Only.onlyIf ?_
    | refine Only.each fun _ _ => ?_ | refine Only.ite ?_ ?_ | exact Only.doT .sram rfl (by decide +kernel)
    | exact (planeDomainOn_only ..).le (by decide +kernel) | exact (kskOn_only ..).le (by decide +kernel)
    | exact (clusterOn_only ..).le (by decide +kernel) | exact (portKick_only ..).le (by decide +kernel)
    | exact (spnKick_only ..).le (by decide +kernel) | exact (tmFree_only ..).le (by decide +kernel)

/-- What `testEnd` can change. -/
def Feet.testEnd : Mask := (.of [.TST_STATUS] [] : Mask).plus [Feet.raise]

theorem testEnd_only (result : Nat) :
    Only Feet.testEnd.has (testEnd result) := by
  unfold testEnd
  with_reducible repeat' first
    | exact Only.pure _ | exact Only.getM | refine Only.bind ?_ fun _ => ?_
    | exact Only.wrK .TST_STATUS rfl (by decide +kernel) | exact (raise_only ..).le (by decide +kernel)

/-- What `domFailOne` can change. -/
def Feet.domFailOne : Mask := (.of [.PWR_DOM_STATUS] [.dwait] : Mask).plus [Feet.leaveOn, Feet.testEnd]

theorem domFailOne_only (d cause : Nat) :
    Only Feet.domFailOne.has (domFailOne d cause) := by
  simp only [domFailOne, putDwait]
  with_reducible repeat' first
    | exact Only.pure _ | exact Only.getM | refine Only.bind ?_ fun _ => ?_ | refine Only.onlyIf ?_
    | exact Only.wrK .PWR_DOM_STATUS rfl (by decide +kernel) | exact Only.doT .dwait rfl (by decide +kernel)
    | exact (raise_only ..).le (by decide +kernel) | exact (pllShow_only ..).le (by decide +kernel)
    | exact (leaveOn_only ..).le (by decide +kernel) | exact (testEnd_only ..).le (by decide +kernel)

/-- What `depFail` can change. -/
def Feet.depFail : Mask := Feet.domFailOne

theorem depFail_only  (n : Nat) :
    Only Feet.depFail.has (depFail n) := by
  induction n with
  | zero =>
    unfold depFail
    with_reducible repeat' first
      | exact ih .. | exact Only.pure _
  | succ n ih =>
    unfold depFail
    with_reducible repeat' first
      | exact ih .. | exact Only.pure _ | exact Only.getM | refine Only.bind ?_ fun _ => ?_
      | refine Only.each fun _ _ => ?_ | refine Only.ite ?_ ?_ | exact (domFailOne_only ..).le (by decide +kernel)

/-- What `domFail` can change. -/
def Feet.domFail : Mask := Feet.domFailOne

theorem domFail_only (d cause : Nat) :
    Only Feet.domFail.has (domFail d cause) := by
  unfold domFail
  with_reducible repeat' first
    | exact Only.pure _ | exact Only.getM | refine Only.bind ?_ fun _ => ?_
    | exact (domFailOne_only ..).le (by decide +kernel) | exact (depFail_only ..).le (by decide +kernel)

/-- What `wakeNext` can change. -/
def Feet.wakeNext : Mask := .of [.PWR_DOM_STATUS] []

theorem wakeNext_only  (n : Nat) :
    Only Feet.wakeNext.has (wakeNext n) := by
  induction n with
  | zero =>
    unfold wakeNext
    with_reducible repeat' first
      | exact ih .. | exact Only.pure _
  | succ n ih =>
    unfold wakeNext
    with_reducible repeat' first
      | exact ih .. | exact Only.pure _ | exact Only.getM | refine Only.bind ?_ fun _ => ?_ | refine Only.ite ?_ ?_
      | exact Only.wrK .PWR_DOM_STATUS rfl (by decide +kernel) | split

/-- What `wakeStart` can change. -/
def Feet.wakeStart : Mask := (.of [] [.dtgt, .dwait] : Mask).plus [Feet.wakeNext]

theorem wakeStart_only (d : Nat) :
    Only Feet.wakeStart.has (wakeStart d) := by
  simp only [wakeStart, putDtgt, putDwait]
  with_reducible repeat' first
    | exact Only.pure _ | exact Only.getM | refine Only.bind ?_ fun _ => ?_ | refine Only.ite ?_ ?_
    | exact Only.wrK .PWR_DOM_STATUS rfl (by decide +kernel) | exact Only.doT .dtgt rfl (by decide +kernel)
    | exact Only.doT .dwait rfl (by decide +kernel) | exact (wakeNext_only ..).le (by decide +kernel)

/-- What `drainStart` can change. -/
def Feet.drainStart : Mask := (.of [.PWR_DOM_STATUS] [.dtgt] : Mask).plus [Feet.planePowerDown, Feet.portOff]

theorem drainStart_only (d tgt : Nat) :
    Only Feet.drainStart.has (drainStart d tgt) := by
  simp only [drainStart, putDtgt]
  with_reducible repeat' first
    | exact Only.pure _ | exact Only.getM | refine Only.bind ?_ fun _ => ?_ | refine Only.onlyIf ?_
    | refine Only.each fun _ _ => ?_ | exact Only.wrK .PWR_DOM_STATUS rfl (by decide +kernel)
    | exact Only.doT .dtgt rfl (by decide +kernel) | exact (planePowerDown_only ..).le (by decide +kernel)
    | exact (portOff_only ..).le (by decide +kernel)

/-- What `applyFrom` can change. -/
def Feet.applyFrom : Mask := (.of [.PWR_DOM_CTL] [] : Mask).plus [Feet.domFail, Feet.wakeStart]

theorem applyFrom_only  (n : List Nat) :
    Only Feet.applyFrom.has (applyFrom n) := by
  induction n with
  | nil =>
    unfold applyFrom
    with_reducible repeat' first
      | exact ih .. | exact Only.pure _
  | cons a l ih =>
    unfold applyFrom
    with_reducible repeat' first
      | exact ih .. | exact Only.pure _ | exact Only.getM | refine Only.bind ?_ fun _ => ?_ | refine Only.ite ?_ ?_
      | exact Only.wrK .PWR_DOM_CTL rfl (by decide +kernel) | exact (domFail_only ..).le (by decide +kernel)
      | exact (wakeStart_only ..).le (by decide +kernel)

/-- What `applyAdvance` can change. -/
def Feet.applyAdvance : Mask := Feet.applyFrom

theorem applyAdvance_only : Only Feet.applyAdvance.has applyAdvance := by
  unfold applyAdvance
  with_reducible repeat' first
    | exact Only.pure _ | exact Only.getM | refine Only.bind ?_ fun _ => ?_ | refine Only.onlyIf ?_
    | refine Only.each fun _ _ => ?_ | exact Only.wrK .PWR_DOM_CTL rfl (by decide +kernel)
    | exact (drainStart_only ..).le (by decide +kernel) | exact (applyFrom_only ..).le (by decide +kernel)

/-- What `disableFrom` can change. -/
def Feet.disableFrom : Mask := (.of [.PWR_DOM_CTL] [] : Mask).plus [Feet.domOff, Feet.drainStart]

theorem disableFrom_only  (n : List Nat) :
    Only Feet.disableFrom.has (disableFrom n) := by
  induction n with
  | nil =>
    simp only [disableFrom]
    with_reducible repeat' first
      | exact ih .. | exact Only.pure _
  | cons a l ih =>
    simp only [disableFrom, putDtgt]
    with_reducible repeat' first
      | exact ih .. | exact Only.pure _ | exact Only.getM | refine Only.bind ?_ fun _ => ?_ | refine Only.onlyIf ?_
      | refine Only.ite ?_ ?_ | exact Only.wrK .PWR_DOM_CTL rfl (by decide +kernel)
      | exact Only.wrK .PWR_DOM_STATUS rfl (by decide +kernel) | exact Only.doT .dtgt rfl (by decide +kernel)
      | exact (domOff_only ..).le (by decide +kernel) | exact (drainStart_only ..).le (by decide +kernel)

/-- What `disableAdvance` can change. -/
def Feet.disableAdvance : Mask := Feet.disableFrom

theorem disableAdvance_only : Only Feet.disableAdvance.has disableAdvance := by
  unfold disableAdvance
  with_reducible repeat' first
    | exact Only.pure _ | exact Only.getM | refine Only.bind ?_ fun _ => ?_
    | exact (disableFrom_only ..).le (by decide +kernel)

/-- What `pendingWake` can change. -/
def Feet.pendingWake : Mask := Feet.wakeStart

theorem pendingWake_only : Only Feet.pendingWake.has pendingWake := by
  unfold pendingWake
  with_reducible repeat' first
    | exact Only.pure _ | exact Only.getM | refine Only.bind ?_ fun _ => ?_ | refine Only.each fun _ _ => ?_
    | exact (wakeStart_only ..).le (by decide +kernel)

/-- What `seqAdvance` can change. -/
def Feet.seqAdvance : Mask := Feet.applyAdvance.plus [Feet.disableAdvance]

theorem seqAdvance_only : Only Feet.seqAdvance.has seqAdvance := by
  unfold seqAdvance
  with_reducible repeat' first
    | exact Only.pure _ | exact Only.getM | refine Only.bind ?_ fun _ => ?_ | refine Only.onlyIf ?_
    | refine Only.ite ?_ ?_ | exact (wakeNext_only ..).le (by decide +kernel)
    | exact (applyAdvance_only ..).le (by decide +kernel) | exact (disableAdvance_only ..).le (by decide +kernel)
    | exact (pendingWake_only ..).le (by decide +kernel)

/-- What `wakeStepReady` can change. -/
def Feet.wakeStepReady : Mask := Feet.domUp.plus [Feet.seqAdvance]

theorem wakeStepReady_only (d : Nat) :
    Only Feet.wakeStepReady.has (wakeStepReady d) := by
  unfold wakeStepReady
  with_reducible repeat' first
    | exact Only.pure _ | exact Only.getM | refine Only.bind ?_ fun _ => ?_ | refine Only.onlyIf ?_
    | refine Only.ite ?_ ?_ | exact Only.wrK .PWR_DOM_STATUS rfl (by decide +kernel)
    | exact Only.incK .PWR_DOM_STATUS rfl (by decide +kernel) | exact (pllShow_only ..).le (by decide +kernel)
    | exact (domUp_only ..).le (by decide +kernel) | exact (domFail_only ..).le (by decide +kernel)
    | exact (seqAdvance_only ..).le (by decide +kernel)

/-- What `wakeStepTimeout` can change. -/
def Feet.wakeStepTimeout : Mask := Feet.seqAdvance

theorem wakeStepTimeout_only (d : Nat) :
    Only Feet.wakeStepTimeout.has (wakeStepTimeout d) := by
  simp only [wakeStepTimeout, putDwait]
  with_reducible repeat' first
    | exact Only.pure _ | exact Only.getM | refine Only.bind ?_ fun _ => ?_ | refine Only.ite ?_ ?_
    | exact Only.wrK .PWR_DOM_STATUS rfl (by decide +kernel) | exact Only.doT .dwait rfl (by decide +kernel)
    | exact (raise_only ..).le (by decide +kernel) | exact (domFail_only ..).le (by decide +kernel)
    | exact (seqAdvance_only ..).le (by decide +kernel)

/-- What `wakeRetryWaitEnd` can change. -/
def Feet.wakeRetryWaitEnd : Mask := Feet.seqAdvance

theorem wakeRetryWaitEnd_only (d : Nat) :
    Only Feet.wakeRetryWaitEnd.has (wakeRetryWaitEnd d) := by
  simp only [wakeRetryWaitEnd, putDwait]
  with_reducible repeat' first
    | exact Only.pure _ | exact Only.getM | refine Only.bind ?_ fun _ => ?_ | refine Only.onlyIf ?_
    | refine Only.ite ?_ ?_ | exact Only.wrK .PWR_DOM_STATUS rfl (by decide +kernel)
    | exact Only.doT .dwait rfl (by decide +kernel) | exact (seqAdvance_only ..).le (by decide +kernel)

/-- What `sequencerWatchdog` can change. -/
def Feet.sequencerWatchdog : Mask := Feet.seqAdvance

theorem sequencerWatchdog_only (d : Nat) :
    Only Feet.sequencerWatchdog.has (sequencerWatchdog d) := by
  unfold sequencerWatchdog
  with_reducible repeat' first
    | exact Only.pure _ | exact Only.getM | refine Only.bind ?_ fun _ => ?_ | refine Only.onlyIf ?_
    | exact (domFail_only ..).le (by decide +kernel) | exact (seqAdvance_only ..).le (by decide +kernel)

/-- What `drainComplete` can change. -/
def Feet.drainComplete : Mask := (.of [.PWR_DOM_STATUS] [] : Mask).plus [Feet.leaveOn]

theorem drainComplete_only (d : Nat) :
    Only Feet.drainComplete.has (drainComplete d) := by
  unfold drainComplete
  with_reducible repeat' first
    | exact Only.pure _ | exact Only.getM | refine Only.bind ?_ fun _ => ?_ | refine Only.ite ?_ ?_
    | exact Only.wrK .PWR_DOM_STATUS rfl (by decide +kernel) | exact (leaveOn_only ..).le (by decide +kernel)

/-- What `stoppingDone` can change. -/
def Feet.stoppingDone : Mask := Feet.seqAdvance

theorem stoppingDone_only (d : Nat) :
    Only Feet.stoppingDone.has (stoppingDone d) := by
  unfold stoppingDone
  with_reducible repeat' first
    | exact Only.pure _ | exact Only.getM | refine Only.bind ?_ fun _ => ?_ | refine Only.onlyIf ?_
    | refine Only.ite ?_ ?_ | exact Only.wrK .PWR_DOM_STATUS rfl (by decide +kernel)
    | exact (domOff_only ..).le (by decide +kernel) | exact (seqAdvance_only ..).le (by decide +kernel)

/-- What `drainTimeout` can change. -/
def Feet.drainTimeout : Mask := Feet.seqAdvance

theorem drainTimeout_only (d : Nat) :
    Only Feet.drainTimeout.has (drainTimeout d) := by
  simp only [drainTimeout, putXdown]
  with_reducible repeat' first
    | exact Only.pure _ | exact Only.getM | refine Only.bind ?_ fun _ => ?_ | refine Only.onlyIf ?_
    | refine Only.each fun _ _ => ?_ | refine Only.ite ?_ ?_ | exact Only.wrK .PWR_DOM_CTL rfl (by decide +kernel)
    | exact Only.wrK .PWR_DOM_STATUS rfl (by decide +kernel) | exact Only.doT .xdown rfl (by decide +kernel)
    | exact (raise_only ..).le (by decide +kernel) | exact (planeTo_only ..).le (by decide +kernel)
    | exact (portKick_only ..).le (by decide +kernel) | exact (seqAdvance_only ..).le (by decide +kernel)

/-- What `lostReady` can change. -/
def Feet.lostReady : Mask := Feet.seqAdvance

theorem lostReady_only (d : Nat) :
    Only Feet.lostReady.has (lostReady d) := by
  unfold lostReady
  with_reducible repeat' first
    | exact Only.pure _ | exact Only.getM | refine Only.bind ?_ fun _ => ?_ | refine Only.onlyIf ?_
    | exact (domFail_only ..).le (by decide +kernel) | exact (seqAdvance_only ..).le (by decide +kernel)

/-- What `allDown` can change. -/
def Feet.allDown : Mask := (.of [.PWR_DOM_STATUS] [.dwait] : Mask).plus [Feet.leaveOn, Feet.domOff, Feet.testEnd]

theorem allDown_only (st cause : Nat) :
    Only Feet.allDown.has (allDown st cause) := by
  simp only [allDown, putDwait]
  with_reducible repeat' first
    | exact Only.pure _ | exact Only.getM | refine Only.bind ?_ fun _ => ?_ | refine Only.onlyIf ?_
    | refine Only.each fun _ _ => ?_ | exact Only.wrK .PWR_DOM_STATUS rfl (by decide +kernel)
    | exact Only.doT .dwait rfl (by decide +kernel) | exact (pllShow_only ..).le (by decide +kernel)
    | exact (leaveOn_only ..).le (by decide +kernel) | exact (domOff_only ..).le (by decide +kernel)
    | exact (testEnd_only ..).le (by decide +kernel)

/-- What `refclkLoss` can change. -/
def Feet.refclkLoss : Mask := (.of [] [.aoLatch] : Mask).plus [Feet.tbClock, Feet.whlNoClock, Feet.allDown]

theorem refclkLoss_only : Only Feet.refclkLoss.has refclkLoss := by
  simp only [refclkLoss, modAoLatch, getAoLatch, putAoLatch]
  with_reducible repeat' first
    | exact Only.pure _ | exact Only.getM | refine Only.bind ?_ fun _ => ?_ | refine Only.ite ?_ ?_
    | exact Only.wrK .PWR_CLK_STATUS rfl (by decide +kernel) | exact Only.doT .aoLatch rfl (by decide +kernel)
    | exact (tbClock_only ..).le (by decide +kernel) | exact (fence_only ..).le (by decide +kernel)
    | exact (whlNoClock_only ..).le (by decide +kernel) | exact (allDown_only ..).le (by decide +kernel)

/-- What `throttleStep` can change. -/
def Feet.throttleStep : Mask := (.of [.PWR_THERM_STATUS] [] : Mask).plus [Feet.raise]

theorem throttleStep_only : Only Feet.throttleStep.has throttleStep := by
  unfold throttleStep
  with_reducible repeat' first
    | exact Only.pure _ | exact Only.getM | refine Only.bind ?_ fun _ => ?_ | refine Only.onlyIf ?_
    | refine Only.ite ?_ ?_ | exact Only.wrK .PWR_THERM_STATUS rfl (by decide +kernel)
    | exact (raise_only ..).le (by decide +kernel)

/-- What `ldoSoft` can change. -/
def Feet.ldoSoft : Mask := (.of [.PWR_AO_LDO] [] : Mask).plus [Feet.raise]

theorem ldoSoft_only : Only Feet.ldoSoft.has ldoSoft := by
  unfold ldoSoft
  with_reducible repeat' first
    | exact Only.pure _ | exact Only.getM | refine Only.bind ?_ fun _ => ?_ | refine Only.onlyIf ?_
    | exact Only.wrK .PWR_AO_LDO rfl (by decide +kernel) | exact (raise_only ..).le (by decide +kernel)

/-- What `avsStart` can change. -/
def Feet.avsStart : Mask := (.of [] [.avs] : Mask).plus [Feet.emit]

theorem avsStart_only : Only Feet.avsStart.has avsStart := by
  simp only [avsStart, modAvs, getAvs, putAvs]
  with_reducible repeat' first
    | exact Only.pure _ | exact Only.getM | refine Only.bind ?_ fun _ => ?_ | refine Only.ite ?_ ?_
    | exact Only.doT .avs rfl (by decide +kernel) | exact (emit_only ..).le (by decide +kernel)

/-- What `avsEnd` can change. -/
def Feet.avsEnd : Mask := Feet.avsStart

theorem avsEnd_only : Only Feet.avsEnd.has avsEnd := by
  simp only [avsEnd, putAvs]
  with_reducible repeat' first
    | exact Only.pure _ | exact Only.getM | refine Only.bind ?_ fun _ => ?_ | refine Only.onlyIf ?_
    | exact Only.doT .avs rfl (by decide +kernel) | exact (avsStart_only ..).le (by decide +kernel)

/-- What `avsAck` can change. -/
def Feet.avsAck : Mask := (.of [.PWR_AVS] [] : Mask).plus [Feet.avsEnd]

theorem avsAck_only : Only Feet.avsAck.has avsAck := by
  unfold avsAck
  with_reducible repeat' first
    | exact Only.pure _ | exact Only.getM | refine Only.bind ?_ fun _ => ?_
    | exact Only.wrK .PWR_AVS rfl (by decide +kernel) | exact (avsEnd_only ..).le (by decide +kernel) | split

/-- What `avsTimeout` can change. -/
def Feet.avsTimeout : Mask := (.of [.PWR_AVS] [] : Mask).plus [Feet.raise, Feet.avsEnd]

theorem avsTimeout_only : Only Feet.avsTimeout.has avsTimeout := by
  simp only [avsTimeout, modAvs, getAvs, putAvs]
  with_reducible repeat' first
    | exact Only.pure _ | exact Only.getM | refine Only.bind ?_ fun _ => ?_ | refine Only.ite ?_ ?_
    | exact Only.wrK .PWR_AVS rfl (by decide +kernel) | exact Only.doT .avs rfl (by decide +kernel)
    | exact (emit_only ..).le (by decide +kernel) | exact (raise_only ..).le (by decide +kernel)
    | exact (avsEnd_only ..).le (by decide +kernel) | split

/-- What `reqEffect` can change. -/
def Feet.reqEffect : Mask := Feet.domOff.plus [Feet.wakeStart, Feet.drainStart]

theorem reqEffect_only (d req : Nat) :
    Only Feet.reqEffect.has (reqEffect d req) := by
  simp only [reqEffect, putDtgt]
  with_reducible repeat' first
    | exact Only.pure _ | exact Only.getM | refine Only.bind ?_ fun _ => ?_ | refine Only.onlyIf ?_
    | refine Only.ite ?_ ?_ | exact Only.wrK .PWR_DOM_STATUS rfl (by decide +kernel)
    | exact Only.doT .dtgt rfl (by decide +kernel) | exact (domOff_only ..).le (by decide +kernel)
    | exact (wakeStart_only ..).le (by decide +kernel) | exact (drainStart_only ..).le (by decide +kernel)

/-- What `pwrEffect` can change. -/
def Feet.pwrEffect : Mask := Feet.seqAdvance.plus [Feet.avsStart]

theorem pwrEffect_only (k : RegKind) (i _old cmd mask : Nat) :
    Only Feet.pwrEffect.has (pwrEffect k i _old cmd mask) := by
  unfold pwrEffect
  with_reducible repeat' first
    | exact Only.pure _ | exact Only.getM | refine Only.bind ?_ fun _ => ?_ | refine Only.onlyIf ?_
    | refine Only.each fun _ _ => ?_ | exact Only.wrK .PWR_DOM_STATUS rfl (by decide +kernel)
    | exact (seqAdvance_only ..).le (by decide +kernel) | exact (avsStart_only ..).le (by decide +kernel)
    | exact (reqEffect_only ..).le (by decide +kernel) | split

end Sys2Proof.Machine
end

