-- ==== Sys2Proof/Laws/FeetSlots.lean ====
section
/-!
SUPPORT. The footprint of every operation of Machine/Slots.lean: the registers and the things beside them that it can
change, whatever the block holds.
-/
namespace Sys2Proof.Machine

set_option Elab.async false

/-- What `pgDrop` can change. -/
def Feet.pgDrop : Mask := (.of [.SLP_STATUS] [] : Mask).plus [Feet.slotPerstAssert]

theorem pgDrop_only (n : Nat) :
    Only Feet.pgDrop.has (pgDrop n) := by
  unfold pgDrop
  with_reducible repeat' first
    | exact Only.pure _ | exact Only.getM | refine Only.bind ?_ fun _ => ?_
    | exact Only.wrK .SLP_STATUS rfl (by decide +kernel) | exact (slotPerstAssert_only ..).le (by decide +kernel)

/-- What `gateOff` can change. -/
def Feet.gateOff : Mask := (.of [] [.slp] : Mask).plus [Feet.pgDrop]

theorem gateOff_only (n : Nat) :
    Only Feet.gateOff.has (gateOff n) := by
  simp only [gateOff, modSlp, getSlp, putSlp]
  with_reducible repeat' first
    | exact Only.pure _ | exact Only.getM | refine Only.bind ?_ fun _ => ?_
    | exact Only.wrK .SLP_STATUS rfl (by decide +kernel) | exact Only.doT .slp rfl (by decide +kernel)
    | exact (pgDrop_only ..).le (by decide +kernel)

/-- What `slpSample` can change. -/
def Feet.slpSample : Mask := .of [.SLP_STATUS, .SLP_MEAS] [.slp]

theorem slpSample_only (n : Nat) (x : Meas) :
    Only Feet.slpSample.has (slpSample n x) := by
  simp only [slpSample, modSlp, getSlp, putSlp]
  with_reducible repeat' first
    | exact Only.pure _ | exact Only.getM | refine Only.bind ?_ fun _ => ?_ | refine Only.ite ?_ ?_
    | exact Only.wrK .SLP_MEAS rfl (by decide +kernel) | exact Only.wrK .SLP_STATUS rfl (by decide +kernel)
    | exact Only.doT .slp rfl (by decide +kernel)

/-- What `rampEnter` can change. -/
def Feet.rampEnter : Mask := .of [.SLP_STATUS, .SLP_CNT] [.slp]

theorem rampEnter_only (n : Nat) :
    Only Feet.rampEnter.has (rampEnter n) := by
  simp only [rampEnter, modSlp, getSlp, putSlp]
  with_reducible repeat' first
    | exact Only.pure _ | exact Only.getM | refine Only.bind ?_ fun _ => ?_
    | exact Only.wrK .SLP_STATUS rfl (by decide +kernel) | exact Only.incK .SLP_CNT rfl (by decide +kernel)
    | exact Only.doT .slp rfl (by decide +kernel)

/-- What `insertEnter` can change. -/
def Feet.insertEnter : Mask := .of [.SLP_STATUS] [.slp]

theorem insertEnter_only (n : Nat) :
    Only Feet.insertEnter.has (insertEnter n) := by
  simp only [insertEnter, modSlp, getSlp, putSlp]
  with_reducible repeat' first
    | exact Only.pure _ | exact Only.getM | refine Only.bind ?_ fun _ => ?_
    | exact Only.wrK .SLP_STATUS rfl (by decide +kernel) | exact Only.doT .slp rfl (by decide +kernel)

/-- What `slpToOff` can change. -/
def Feet.slpToOff : Mask := (.of [] [.slp] : Mask).plus [Feet.pgDrop]

theorem slpToOff_only (n : Nat) :
    Only Feet.slpToOff.has (slpToOff n) := by
  simp only [slpToOff, modSlp, getSlp, putSlp]
  with_reducible repeat' first
    | exact Only.pure _ | exact Only.getM | refine Only.bind ?_ fun _ => ?_ | refine Only.onlyIf ?_
    | exact Only.wrK .SLP_STATUS rfl (by decide +kernel) | exact Only.doT .slp rfl (by decide +kernel)
    | exact (pgDrop_only ..).le (by decide +kernel)

/-- What `slpStep` can change. -/
def Feet.slpStep : Mask := Feet.rampEnter.plus [Feet.slpToOff]

theorem slpStep_only (n : Nat) :
    Only Feet.slpStep.has (slpStep n) := by
  unfold slpStep
  with_reducible repeat' first
    | exact Only.pure _ | exact Only.getM | refine Only.bind ?_ fun _ => ?_ | refine Only.onlyIf ?_
    | refine Only.ite ?_ ?_ | exact Only.wrK .SLP_STATUS rfl (by decide +kernel)
    | exact (rampEnter_only ..).le (by decide +kernel) | exact (insertEnter_only ..).le (by decide +kernel)
    | exact (slpToOff_only ..).le (by decide +kernel) | split

/-- What `slpAdvance` can change. -/
def Feet.slpAdvance : Mask := Feet.slpStep

theorem slpAdvance_only (n : Nat) :
    Only Feet.slpAdvance.has (slpAdvance n) := by
  unfold slpAdvance
  with_reducible repeat' first
    | exact Only.pure _ | exact Only.getM | refine Only.bind ?_ fun _ => ?_
    | exact (slpStep_only ..).le (by decide +kernel)

/-- What `slotFaultSeen` can change. -/
def Feet.slotFaultSeen : Mask := Feet.hotplug

theorem slotFaultSeen_only (n : Nat) :
    Only Feet.slotFaultSeen.has (slotFaultSeen n) := by
  unfold slotFaultSeen
  with_reducible repeat' first
    | exact Only.pure _ | exact Only.getM | refine Only.bind ?_ fun _ => ?_
    | exact (hotplug_only ..).le (by decide +kernel) | split

/-- What `slpFault` can change. -/
def Feet.slpFault : Mask := (.of [.SLP_CNT, .SLP_FAULT_TIME] [] : Mask).plus [Feet.raise, Feet.gateOff,
  Feet.slotFaultSeen]

theorem slpFault_only (n cause : Nat) (x : Meas) :
    Only Feet.slpFault.has (slpFault n cause x) := by
  simp only [slpFault, modSlp, getSlp, putSlp, now]
  with_reducible repeat' first
    | exact Only.pure _ | exact Only.getM | refine Only.bind ?_ fun _ => ?_ | refine Only.onlyIf ?_
    | refine Only.ite ?_ ?_ | exact Only.incK .SLP_CNT rfl (by decide +kernel)
    | exact Only.wrK .SLP_FAULT_TIME rfl (by decide +kernel) | exact Only.wrK .SLP_STATUS rfl (by decide +kernel)
    | exact Only.doT .slp rfl (by decide +kernel) | exact (raise_only ..).le (by decide +kernel)
    | exact (gateOff_only ..).le (by decide +kernel) | exact (slotFaultSeen_only ..).le (by decide +kernel)

/-- What `vinExit` can change. -/
def Feet.vinExit : Mask := (.of [.SLP_CNT] [] : Mask).plus [Feet.raise, Feet.gateOff]

theorem vinExit_only (n side : Nat) :
    Only Feet.vinExit.has (vinExit n side) := by
  unfold vinExit
  with_reducible repeat' first
    | exact Only.pure _ | exact Only.getM | refine Only.bind ?_ fun _ => ?_ | refine Only.onlyIf ?_
    | exact Only.wrK .SLP_STATUS rfl (by decide +kernel) | exact Only.incK .SLP_CNT rfl (by decide +kernel)
    | exact (raise_only ..).le (by decide +kernel) | exact (gateOff_only ..).le (by decide +kernel)

/-- What `vinSee` can change. -/
def Feet.vinSee : Mask := Feet.vinExit

theorem vinSee_only (n vin : Nat) :
    Only Feet.vinSee.has (vinSee n vin) := by
  simp only [vinSee, modSlp, getSlp, putSlp]
  with_reducible repeat' first
    | exact Only.pure _ | exact Only.getM | refine Only.bind ?_ fun _ => ?_ | refine Only.onlyIf ?_
    | refine Only.ite ?_ ?_ | exact Only.doT .slp rfl (by decide +kernel)
    | exact (slpAdvance_only ..).le (by decide +kernel) | exact (vinExit_only ..).le (by decide +kernel)

/-- What `vinCrossing` can change. -/
def Feet.vinCrossing : Mask := (.of [.SLP_MEAS] [] : Mask).plus [Feet.vinSee]

theorem vinCrossing_only (n vin : Nat) :
    Only Feet.vinCrossing.has (vinCrossing n vin) := by
  unfold vinCrossing
  with_reducible repeat' first
    | exact Only.pure _ | exact Only.getM | refine Only.bind ?_ fun _ => ?_
    | exact Only.wrK .SLP_MEAS rfl (by decide +kernel) | exact (vinSee_only ..).le (by decide +kernel)

/-- What `slpPresence` can change. -/
def Feet.slpPresence : Mask := Feet.raise.plus [Feet.slpAdvance]

theorem slpPresence_only (n : Nat) (present : Bool) :
    Only Feet.slpPresence.has (slpPresence n present) := by
  unfold slpPresence
  with_reducible repeat' first
    | exact Only.pure _ | exact Only.getM | refine Only.bind ?_ fun _ => ?_ | refine Only.onlyIf ?_
    | refine Only.ite ?_ ?_ | exact Only.wrK .SLP_STATUS rfl (by decide +kernel)
    | exact (raise_only ..).le (by decide +kernel) | exact (gateOff_only ..).le (by decide +kernel)
    | exact (slpAdvance_only ..).le (by decide +kernel)

/-- What `presenceDebounced` can change. -/
def Feet.presenceDebounced : Mask := Feet.portPresence.plus [Feet.slpPresence]

theorem presenceDebounced_only (n : Nat) (present : Bool) :
    Only Feet.presenceDebounced.has (presenceDebounced n present) := by
  simp only [presenceDebounced, modPins, getPins, putPins]
  with_reducible repeat' first
    | exact Only.pure _ | exact Only.getM | refine Only.bind ?_ fun _ => ?_ | refine Only.onlyIf ?_
    | exact Only.doT .pins rfl (by decide +kernel) | exact (portPresence_only ..).le (by decide +kernel)
    | exact (slpPresence_only ..).le (by decide +kernel)

/-- What `insertDelayEnd` can change. -/
def Feet.insertDelayEnd : Mask := Feet.slpAdvance

theorem insertDelayEnd_only (n : Nat) :
    Only Feet.insertDelayEnd.has (insertDelayEnd n) := by
  simp only [insertDelayEnd, modSlp, getSlp, putSlp]
  with_reducible repeat' first
    | exact Only.pure _ | exact Only.getM | refine Only.bind ?_ fun _ => ?_ | refine Only.onlyIf ?_
    | exact Only.doT .slp rfl (by decide +kernel) | exact (slpAdvance_only ..).le (by decide +kernel)

/-- What `fastTrip` can change. -/
def Feet.fastTrip : Mask := Feet.slpSample.plus [Feet.slpFault]

theorem fastTrip_only (n : Nat) (x : Meas) :
    Only Feet.fastTrip.has (fastTrip n x) := by
  unfold fastTrip
  with_reducible repeat' first
    | exact Only.pure _ | exact Only.getM | refine Only.bind ?_ fun _ => ?_ | refine Only.onlyIf ?_
    | exact (slpSample_only ..).le (by decide +kernel) | exact (slpFault_only ..).le (by decide +kernel)

/-- What `faultTimerExpiry` can change. -/
def Feet.faultTimerExpiry : Mask := Feet.slpSample.plus [Feet.slpFault]

theorem faultTimerExpiry_only (n : Nat) (x : Meas) :
    Only Feet.faultTimerExpiry.has (faultTimerExpiry n x) := by
  unfold faultTimerExpiry
  with_reducible repeat' first
    | exact Only.pure _ | exact Only.getM | refine Only.bind ?_ fun _ => ?_ | refine Only.onlyIf ?_
    | exact (slpSample_only ..).le (by decide +kernel) | exact (slpFault_only ..).le (by decide +kernel)

/-- What `rampTimeout` can change. -/
def Feet.rampTimeout : Mask := Feet.slpSample.plus [Feet.slpFault]

theorem rampTimeout_only (n : Nat) (x : Meas) :
    Only Feet.rampTimeout.has (rampTimeout n x) := by
  unfold rampTimeout
  with_reducible repeat' first
    | exact Only.pure _ | exact Only.getM | refine Only.bind ?_ fun _ => ?_ | refine Only.onlyIf ?_
    | exact (slpSample_only ..).le (by decide +kernel) | exact (slpFault_only ..).le (by decide +kernel)

/-- What `gateFullyOn` can change. -/
def Feet.gateFullyOn : Mask := Feet.slpSample

theorem gateFullyOn_only (n : Nat) (x : Meas) :
    Only Feet.gateFullyOn.has (gateFullyOn n x) := by
  simp only [gateFullyOn, modSlp, getSlp, putSlp]
  with_reducible repeat' first
    | exact Only.pure _ | exact Only.getM | refine Only.bind ?_ fun _ => ?_ | refine Only.onlyIf ?_
    | exact Only.wrK .SLP_STATUS rfl (by decide +kernel) | exact Only.doT .slp rfl (by decide +kernel)
    | exact (slpSample_only ..).le (by decide +kernel)

/-- What `pgDeglitchEnd` can change. -/
def Feet.pgDeglitchEnd : Mask := .of [.SLP_STATUS] []

theorem pgDeglitchEnd_only (n : Nat) :
    Only Feet.pgDeglitchEnd.has (pgDeglitchEnd n) := by
  unfold pgDeglitchEnd
  with_reducible repeat' first
    | exact Only.pure _ | exact Only.getM | refine Only.bind ?_ fun _ => ?_ | refine Only.onlyIf ?_
    | exact Only.wrK .SLP_STATUS rfl (by decide +kernel)

/-- What `pgConditionsLost` can change. -/
def Feet.pgConditionsLost : Mask := Feet.raise.plus [Feet.pgDrop, Feet.slpSample, Feet.slotFaultSeen]

theorem pgConditionsLost_only (n : Nat) (x : Meas) :
    Only Feet.pgConditionsLost.has (pgConditionsLost n x) := by
  simp only [pgConditionsLost, modSlp, getSlp, putSlp]
  with_reducible repeat' first
    | exact Only.pure _ | exact Only.getM | refine Only.bind ?_ fun _ => ?_ | refine Only.onlyIf ?_
    | exact Only.doT .slp rfl (by decide +kernel) | exact (raise_only ..).le (by decide +kernel)
    | exact (pgDrop_only ..).le (by decide +kernel) | exact (slpSample_only ..).le (by decide +kernel)
    | exact (slotFaultSeen_only ..).le (by decide +kernel)

/-- What `retryExpiry` can change. -/
def Feet.retryExpiry : Mask := Feet.slpAdvance

theorem retryExpiry_only (n : Nat) :
    Only Feet.retryExpiry.has (retryExpiry n) := by
  simp only [retryExpiry, modSlp, getSlp, putSlp]
  with_reducible repeat' first
    | exact Only.pure _ | exact Only.getM | refine Only.bind ?_ fun _ => ?_
    | exact Only.doT .slp rfl (by decide +kernel) | exact (slpAdvance_only ..).le (by decide +kernel)

/-- What `gateOffDelayEnd` can change. -/
def Feet.gateOffDelayEnd : Mask := Feet.gateOff

theorem gateOffDelayEnd_only (n : Nat) :
    Only Feet.gateOffDelayEnd.has (gateOffDelayEnd n) := by
  unfold gateOffDelayEnd
  with_reducible repeat' first
    | exact Only.pure _ | exact Only.getM | refine Only.bind ?_ fun _ => ?_ | refine Only.onlyIf ?_
    | exact (gateOff_only ..).le (by decide +kernel)

/-- What `slpCopy` can change. -/
def Feet.slpCopy : Mask := .of [.SLP_STATUS] [.slp]

theorem slpCopy_only (n : Nat) :
    Only Feet.slpCopy.has (slpCopy n) := by
  simp only [slpCopy, modSlp, getSlp, putSlp]
  with_reducible repeat' first
    | exact Only.pure _ | exact Only.getM | refine Only.bind ?_ fun _ => ?_
    | exact Only.wrK .SLP_STATUS rfl (by decide +kernel) | exact Only.doT .slp rfl (by decide +kernel)

/-- What `slpLive` can change. -/
def Feet.slpLive : Mask := Feet.vinSee

theorem slpLive_only (n : Nat) :
    Only Feet.slpLive.has (slpLive n) := by
  unfold slpLive
  with_reducible repeat' first
    | exact Only.pure _ | exact Only.getM | refine Only.bind ?_ fun _ => ?_
    | exact (vinSee_only ..).le (by decide +kernel) | exact (slpCopy_only ..).le (by decide +kernel)

/-- What `slpApply` can change. -/
def Feet.slpApply : Mask := (.of [.SLP_CTL] [] : Mask).plus [Feet.slpLive]

theorem slpApply_only : Only Feet.slpApply.has slpApply := by
  unfold slpApply
  with_reducible repeat' first
    | exact Only.pure _ | exact Only.getM | refine Only.bind ?_ fun _ => ?_ | refine Only.onlyIf ?_
    | refine Only.each fun _ _ => ?_ | exact Only.wrK .SLP_CTL rfl (by decide +kernel)
    | exact Only.wrK .SLP_STATUS rfl (by decide +kernel) | exact (slpLive_only ..).le (by decide +kernel)

/-- What `slpEffect` can change. -/
def Feet.slpEffect : Mask := Feet.slpLive

theorem slpEffect_only (k : RegKind) (i cmd : Nat) :
    Only Feet.slpEffect.has (slpEffect k i cmd) := by
  unfold slpEffect
  with_reducible repeat' first
    | exact Only.pure _ | exact Only.getM | refine Only.bind ?_ fun _ => ?_ | refine Only.onlyIf ?_
    | exact Only.rstK .SLP_CNT (by decide +kernel) | exact Only.wrK .SLP_STATUS rfl (by decide +kernel)
    | exact (slpAdvance_only ..).le (by decide +kernel) | exact (slpLive_only ..).le (by decide +kernel)

/-- What `powerControllerWrite` can change. -/
def Feet.powerControllerWrite : Mask := (.of [.SLP_CTL] [] : Mask).plus [Feet.slpLive]

theorem powerControllerWrite_only (v p : Nat) (on : Bool) :
    Only Feet.powerControllerWrite.has (powerControllerWrite v p on) := by
  unfold powerControllerWrite
  with_reducible repeat' first
    | exact Only.pure _ | exact Only.getM | refine Only.bind ?_ fun _ => ?_ | refine Only.onlyIf ?_
    | refine Only.ite ?_ ?_ | exact Only.wrK .SLP_CTL rfl (by decide +kernel)
    | exact (raise_only ..).le (by decide +kernel) | exact (slpLive_only ..).le (by decide +kernel)

end Sys2Proof.Machine
end

