-- ==== Sys2Proof/Laws/FeetStructure.lean ====
section
/-!
SUPPORT. The footprint of every operation of Machine/Structure.lean: the registers and the things beside them that it can
change, whatever the block holds.
-/
namespace Sys2Proof.Machine

set_option Elab.async false

/-- What `structShow` can change. -/
def Feet.structShow : Mask := .of [.GLB_STRUCT_STATUS, .GLB_STRUCT_DETAIL, .GLB_STRUCT_ADDR] []

theorem structShow_only (c : Option Chk) :
    Only Feet.structShow.has (structShow c) := by
  unfold structShow
  with_reducible repeat' first
    | exact Only.pure _ | exact Only.getM | refine Only.bind ?_ fun _ => ?_
    | exact Only.wrK .GLB_STRUCT_ADDR rfl (by decide +kernel)
    | exact Only.wrK .GLB_STRUCT_DETAIL rfl (by decide +kernel)
    | exact Only.wrK .GLB_STRUCT_STATUS rfl (by decide +kernel)

/-- What `ringsApply` can change. -/
def Feet.ringsApply : Mask := .of [.RNG_CFG, .RNG_CTL, .INT_SLICE_EVR] []

theorem ringsApply_only : Only Feet.ringsApply.has ringsApply := by
  unfold ringsApply
  with_reducible repeat' first
    | exact Only.pure _ | exact Only.getM | refine Only.bind ?_ fun _ => ?_ | refine Only.each fun _ _ => ?_
    | refine Only.ite ?_ ?_ | exact Only.wrK .INT_SLICE_EVR rfl (by decide +kernel)
    | exact Only.wrK .RNG_CFG rfl (by decide +kernel) | exact Only.wrK .RNG_CTL rfl (by decide +kernel)

/-- What `hostSlicesApply` can change. -/
def Feet.hostSlicesApply : Mask := .of [.KRB_HOST_SLICE, .TEN_STATUS] []

theorem hostSlicesApply_only : Only Feet.hostSlicesApply.has hostSlicesApply := by
  unfold hostSlicesApply
  with_reducible repeat' first
    | exact Only.pure _ | exact Only.getM | refine Only.bind ?_ fun _ => ?_ | refine Only.each fun _ _ => ?_
    | refine Only.ite ?_ ?_ | exact Only.wrK .KRB_HOST_SLICE rfl (by decide +kernel)
    | exact Only.wrK .TEN_STATUS rfl (by decide +kernel)

/-- What `windowsApply` can change. -/
def Feet.windowsApply : Mask := .of [.KRB_CWIN] []

theorem windowsApply_only : Only Feet.windowsApply.has windowsApply := by
  unfold windowsApply
  with_reducible repeat' first
    | exact Only.pure _ | exact Only.getM | refine Only.bind ?_ fun _ => ?_ | refine Only.onlyIf ?_
    | refine Only.each fun _ _ => ?_ | exact Only.rstK .KRB_CWIN (by decide +kernel)
    | exact Only.wrRegK .KRB_CWIN (by decide +kernel)

/-- What `gatesApply` can change. -/
def Feet.gatesApply : Mask := .of [.TM_GATE_CTL, .TM_GATE_A, .TM_GATE_B] [.gcl]

theorem gatesApply_only : Only Feet.gatesApply.has gatesApply := by
  simp only [gatesApply, putGcl]
  with_reducible repeat' first
    | exact Only.pure _ | exact Only.getM | refine Only.bind ?_ fun _ => ?_ | refine Only.each fun _ _ => ?_
    | exact Only.wrK .TM_GATE_A rfl (by decide +kernel) | exact Only.wrK .TM_GATE_B rfl (by decide +kernel)
    | exact Only.wrK .TM_GATE_CTL rfl (by decide +kernel) | exact Only.doT .gcl rfl (by decide +kernel)

/-- What `applyStart` can change. -/
def Feet.applyStart : Mask := (.of [.GLB_STRUCT_STATUS, .TWN_SPN_CTL] [] : Mask).plus [Feet.xbApply,
  Feet.shapersApply, Feet.applyAdvance, Feet.slpApply, Feet.ringsApply, Feet.hostSlicesApply, Feet.windowsApply,
  Feet.gatesApply]

theorem applyStart_only : Only Feet.applyStart.has applyStart := by
  unfold applyStart
  with_reducible repeat' first
    | exact Only.pure _ | exact Only.getM | refine Only.bind ?_ fun _ => ?_ | refine Only.each fun _ _ => ?_
    | refine Only.ite ?_ ?_ | exact Only.wrK .GLB_STRUCT_STATUS rfl (by decide +kernel)
    | exact Only.wrK .PWR_DOM_CTL rfl (by decide +kernel) | exact Only.wrK .TWN_SPN_CTL rfl (by decide +kernel)
    | exact (xbApply_only ..).le (by decide +kernel) | exact (shapersApply_only ..).le (by decide +kernel)
    | exact (applyAdvance_only ..).le (by decide +kernel) | exact (slpApply_only ..).le (by decide +kernel)
    | exact (ringsApply_only ..).le (by decide +kernel) | exact (hostSlicesApply_only ..).le (by decide +kernel)
    | exact (windowsApply_only ..).le (by decide +kernel) | exact (gatesApply_only ..).le (by decide +kernel)

/-- What `applyingDone` can change. -/
def Feet.applyingDone : Mask := (.of [.OCT_PORT_CTL, .TEN_CTL] [] : Mask).plus [Feet.sliceOn, Feet.portKick,
  Feet.spnKick, Feet.roleEval, Feet.structShow]

theorem applyingDone_only : Only Feet.applyingDone.has applyingDone := by
  unfold applyingDone
  with_reducible repeat' first
    | exact Only.pure _ | exact Only.getM | refine Only.bind ?_ fun _ => ?_ | refine Only.onlyIf ?_
    | refine Only.each fun _ _ => ?_ | refine Only.ite ?_ ?_
    | exact Only.wrK .GLB_STRUCT_STATUS rfl (by decide +kernel)
    | exact Only.wrK .OCT_PORT_CTL rfl (by decide +kernel) | exact Only.wrK .OCT_PORT_TRAIN rfl (by decide +kernel)
    | exact Only.wrK .TEN_CTL rfl (by decide +kernel) | exact (sliceOn_only ..).le (by decide +kernel)
    | exact (portKick_only ..).le (by decide +kernel) | exact (spnKick_only ..).le (by decide +kernel)
    | exact (roleEnable_only ..).le (by decide +kernel) | exact (roleEval_only ..).le (by decide +kernel)
    | exact (structShow_only ..).le (by decide +kernel)

/-- What `checkFinish` can change. -/
def Feet.checkFinish : Mask := (.of [.GLB_STRUCT_CTL] [.ldr] : Mask).plus [Feet.structShow, Feet.applyStart]

theorem checkFinish_only (dry : Bool) (c : Option Chk) :
    Only Feet.checkFinish.has (checkFinish dry c) := by
  simp only [checkFinish, modLdr, getLdr, putLdr]
  with_reducible repeat' first
    | exact Only.pure _ | exact Only.getM | refine Only.bind ?_ fun _ => ?_ | refine Only.ite ?_ ?_
    | exact Only.wrK .GLB_STRUCT_CTL rfl (by decide +kernel)
    | exact Only.wrK .GLB_STRUCT_STATUS rfl (by decide +kernel)
    | exact Only.incK .GLB_STRUCT_STATUS rfl (by decide +kernel) | exact Only.doT .ldr rfl (by decide +kernel)
    | exact (structShow_only ..).le (by decide +kernel) | exact (applyStart_only ..).le (by decide +kernel) | split

/-- What `phase11Eval` can change. -/
def Feet.phase11Eval : Mask := Feet.checkFinish

theorem phase11Eval_only (last : Bool) :
    Only Feet.phase11Eval.has (phase11Eval last) := by
  unfold phase11Eval
  with_reducible repeat' first
    | exact Only.pure _ | exact Only.getM | refine Only.bind ?_ fun _ => ?_ | refine Only.onlyIf ?_
    | refine Only.ite ?_ ?_ | exact (checkFinish_only ..).le (by decide +kernel) | split

/-- What `structCheckDone` can change. -/
def Feet.structCheckDone : Mask := Feet.checkFinish

theorem structCheckDone_only : Only Feet.structCheckDone.has structCheckDone := by
  simp only [structCheckDone, modLdr, getLdr, putLdr]
  with_reducible repeat' first
    | exact Only.pure _ | exact Only.getM | refine Only.bind ?_ fun _ => ?_ | refine Only.ite ?_ ?_
    | exact Only.doT .ldr rfl (by decide +kernel) | exact (checkFinish_only ..).le (by decide +kernel) | split

/-- What `phase11ListenEnd` can change. -/
def Feet.phase11ListenEnd : Mask := Feet.phase11Eval

theorem phase11ListenEnd_only : Only Feet.phase11ListenEnd.has phase11ListenEnd := by
  unfold phase11ListenEnd
  with_reducible repeat' first
    | exact Only.pure _ | exact Only.getM | refine Only.bind ?_ fun _ => ?_
    | exact (phase11Eval_only ..).le (by decide +kernel)

/-- What `heartbeatRow` can change. -/
def Feet.heartbeatRow : Mask := Feet.heartbeatIn.plus [Feet.phase11Eval]

theorem heartbeatRow_only (fault : Nat) (h : Heartbeat) (k27 : Nat) :
    Only Feet.heartbeatRow.has (heartbeatRow fault h k27) := by
  unfold heartbeatRow
  with_reducible repeat' first
    | exact Only.pure _ | exact Only.getM | refine Only.bind ?_ fun _ => ?_
    | exact (heartbeatIn_only ..).le (by decide +kernel) | exact (phase11Eval_only ..).le (by decide +kernel)

/-- What `heartbeatSendRow` can change. -/
def Feet.heartbeatSendRow : Mask := Feet.heartbeatSend.plus [Feet.phase11Eval]

theorem heartbeatSendRow_only : Only Feet.heartbeatSendRow.has heartbeatSendRow := by
  unfold heartbeatSendRow
  with_reducible repeat' first
    | exact Only.pure _ | exact Only.getM | refine Only.bind ?_ fun _ => ?_
    | exact (heartbeatSend_only ..).le (by decide +kernel) | exact (phase11Eval_only ..).le (by decide +kernel)

/-- What `checkStart` can change. -/
def Feet.checkStart : Mask := (.of [.GLB_STRUCT_CTL, .MLD_DIGEST] [.ldr, .whl] : Mask).plus [Feet.structShow]

theorem checkStart_only (dry : Bool) :
    Only Feet.checkStart.has (checkStart dry) := by
  simp only [checkStart, modWhl, getWhl, putWhl, modLdr, getLdr, putLdr]
  with_reducible repeat' first
    | exact Only.pure _ | exact Only.getM | refine Only.bind ?_ fun _ => ?_ | refine Only.onlyIf ?_
    | refine Only.each fun _ _ => ?_ | refine Only.ite ?_ ?_ | exact Only.wrK .GLB_STRUCT_CTL rfl (by decide +kernel)
    | exact Only.wrK .GLB_STRUCT_STATUS rfl (by decide +kernel) | exact Only.wrK .MLD_DIGEST rfl (by decide +kernel)
    | exact Only.doT .ldr rfl (by decide +kernel) | exact Only.doT .whl rfl (by decide +kernel)
    | exact (structShow_only ..).le (by decide +kernel)

/-- What `disableStart` can change. -/
def Feet.disableStart : Mask := (.of [.GLB_STRUCT_CTL, .GLB_STRUCT_STATUS, .TWN_SPN_CTL] [] : Mask).plus [Feet.spnOff,
  Feet.disableAdvance]

theorem disableStart_only : Only Feet.disableStart.has disableStart := by
  unfold disableStart
  with_reducible repeat' first
    | exact Only.pure _ | exact Only.getM | refine Only.bind ?_ fun _ => ?_ | refine Only.each fun _ _ => ?_
    | exact Only.wrK .GLB_STRUCT_CTL rfl (by decide +kernel)
    | exact Only.wrK .GLB_STRUCT_STATUS rfl (by decide +kernel)
    | exact Only.wrK .TM_SRING_CTL rfl (by decide +kernel) | exact Only.wrK .TWN_SPN_CTL rfl (by decide +kernel)
    | exact (spnOff_only ..).le (by decide +kernel) | exact (disableAdvance_only ..).le (by decide +kernel)

/-- What `disablingDone` can change. -/
def Feet.disablingDone : Mask := (.of [.GLB_STRUCT_CTL] [] : Mask).plus [Feet.roleDisable, Feet.structShow]

theorem disablingDone_only : Only Feet.disablingDone.has disablingDone := by
  unfold disablingDone
  with_reducible repeat' first
    | exact Only.pure _ | exact Only.getM | refine Only.bind ?_ fun _ => ?_ | refine Only.ite ?_ ?_
    | exact Only.wrK .GLB_STRUCT_CTL rfl (by decide +kernel)
    | exact Only.wrK .GLB_STRUCT_STATUS rfl (by decide +kernel) | exact (roleDisable_only ..).le (by decide +kernel)
    | exact (structShow_only ..).le (by decide +kernel)

/-- What `structEffect` can change. -/
def Feet.structEffect : Mask := Feet.checkStart.plus [Feet.disableStart]

theorem structEffect_only (cmd : Nat) :
    Only Feet.structEffect.has (structEffect cmd) := by
  unfold structEffect
  with_reducible repeat' first
    | exact Only.pure _ | exact Only.getM | refine Only.bind ?_ fun _ => ?_ | refine Only.onlyIf ?_
    | refine Only.ite ?_ ?_ | exact (checkStart_only ..).le (by decide +kernel)
    | exact (disableStart_only ..).le (by decide +kernel)

/-- What `loadShow` can change. -/
def Feet.loadShow : Mask := .of [.MLD_STATUS] []

theorem loadShow_only (state reason sect item : Nat) (pol partial' : Bool) :
    Only Feet.loadShow.has (loadShow state reason sect item pol partial') := by
  unfold loadShow
  with_reducible repeat' first
    | exact Only.pure _ | exact Only.getM | refine Only.bind ?_ fun _ => ?_ | refine Only.ite ?_ ?_
    | exact Only.wrK .MLD_STATUS rfl (by decide +kernel)

/-- What `loadStart` can change. -/
def Feet.loadStart : Mask := .of [.MLD_STATUS] [.ldr]

theorem loadStart_only (cmd code : Nat) :
    Only Feet.loadStart.has (loadStart cmd code) := by
  simp only [loadStart, modLdr, getLdr, putLdr]
  with_reducible repeat' first
    | exact Only.pure _ | exact Only.getM | refine Only.bind ?_ fun _ => ?_
    | exact Only.wrK .MLD_STATUS rfl (by decide +kernel) | exact Only.doT .ldr rfl (by decide +kernel)

/-- What `bootLoad` can change. -/
def Feet.bootLoad : Mask := Feet.loadStart

theorem bootLoad_only : Only Feet.bootLoad.has bootLoad := by
  simp only [bootLoad, modLdr, getLdr, putLdr]
  with_reducible repeat' first
    | exact Only.pure _ | exact Only.getM | refine Only.bind ?_ fun _ => ?_ | refine Only.onlyIf ?_
    | exact Only.doT .ldr rfl (by decide +kernel) | exact (loadStart_only ..).le (by decide +kernel)

/-- What `abortLoad` can change. -/
def Feet.abortLoad : Mask := Feet.checkFinish.plus [Feet.loadShow]

theorem abortLoad_only : Only Feet.abortLoad.has abortLoad := by
  simp only [abortLoad, modLdr, getLdr, putLdr]
  with_reducible repeat' first
    | exact Only.pure _ | exact Only.getM | refine Only.bind ?_ fun _ => ?_ | refine Only.onlyIf ?_
    | exact Only.doT .ldr rfl (by decide +kernel) | exact (checkFinish_only ..).le (by decide +kernel)
    | exact (loadShow_only ..).le (by decide +kernel)

/-- What `mldEffect` can change. -/
def Feet.mldEffect : Mask := Feet.abortLoad

theorem mldEffect_only (cmd code : Nat) :
    Only Feet.mldEffect.has (mldEffect cmd code) := by
  unfold mldEffect
  with_reducible repeat' first
    | exact Only.pure _ | exact Only.getM | refine Only.bind ?_ fun _ => ?_ | refine Only.ite ?_ ?_
    | exact (loadStart_only ..).le (by decide +kernel) | exact (abortLoad_only ..).le (by decide +kernel)

/-- What `stageWrite` can change. -/
def Feet.stageWrite : Mask := .of [.MLD_STAGE_ADDR, .MLD_STAGE_DATA] [.stage]

theorem stageWrite_only (v : Word) :
    Only Feet.stageWrite.has (stageWrite v) := by
  simp only [stageWrite, putStage]
  with_reducible repeat' first
    | exact Only.pure _ | exact Only.getM | refine Only.bind ?_ fun _ => ?_
    | exact Only.wrK .MLD_STAGE_ADDR rfl (by decide +kernel) | exact Only.wrK .MLD_STAGE_DATA rfl (by decide +kernel)
    | exact Only.doT .stage rfl (by decide +kernel)

/-- What `stageRead` can change. -/
def Feet.stageRead : Mask := .of [.MLD_STAGE_ADDR] []

theorem stageRead_only : Only Feet.stageRead.has stageRead := by
  unfold stageRead
  with_reducible repeat' first
    | exact Only.pure _ | exact Only.getM | refine Only.bind ?_ fun _ => ?_
    | exact Only.wrK .MLD_STAGE_ADDR rfl (by decide +kernel)

end Sys2Proof.Machine
end

