-- ==== Sys2Proof/Laws/FeetMgmt.lean ====
section
/-!
SUPPORT. The footprint of every operation of Machine/Mgmt.lean: the registers and the things beside them that it can
change, whatever the block holds.
-/
namespace Sys2Proof.Machine

set_option Elab.async false

/-- What `sramPut` can change. -/
def Feet.sramPut : Mask := .of [] [.sram]

theorem sramPut_only (o : Nat) (bs : List Nat) :
    Only Feet.sramPut.has (sramPut o bs) := by
  simp only [sramPut, modSram, getSram, putSram]
  with_reducible repeat' first
    | exact Only.pure _ | exact Only.getM | refine Only.bind ?_ fun _ => ?_ | refine Only.each fun _ _ => ?_
    | exact Only.doT .sram rfl (by decide +kernel)

/-- What `firmwareStart` can change. -/
def Feet.firmwareStart : Mask := (.of [.FWM_BOOT_STATUS, .FWM_SVN, .FWM_VERSION] [.mgx] : Mask).plus [Feet.emit,
  Feet.loadStart]

theorem firmwareStart_only (fromB : Bool) (bs : List Nat) :
    Only Feet.firmwareStart.has (firmwareStart fromB bs) := by
  simp only [firmwareStart, modMgx, getMgx, putMgx]
  with_reducible repeat' first
    | exact Only.pure _ | exact Only.getM | refine Only.bind ?_ fun _ => ?_ | refine Only.onlyIf ?_
    | refine Only.each fun _ _ => ?_ | refine Only.ite ?_ ?_
    | exact Only.wrK .FWM_BOOT_STATUS rfl (by decide +kernel) | exact Only.wrK .FWM_SVN rfl (by decide +kernel)
    | exact Only.wrK .FWM_VERSION rfl (by decide +kernel) | exact Only.doT .mgx rfl (by decide +kernel)
    | exact (emit_only ..).le (by decide +kernel) | exact (loadStart_only ..).le (by decide +kernel)
    | exact (bootLoad_only ..).le (by decide +kernel)

/-- What `romStart` can change. -/
def Feet.romStart : Mask := (.of [.FWM_BOOT_STATUS] [.mgx] : Mask).plus [Feet.emit]

theorem romStart_only : Only Feet.romStart.has romStart := by
  simp only [romStart, modMgx, getMgx, putMgx]
  with_reducible repeat' first
    | exact Only.pure _ | exact Only.getM | refine Only.bind ?_ fun _ => ?_
    | exact Only.wrK .FWM_BOOT_STATUS rfl (by decide +kernel) | exact Only.doT .mgx rfl (by decide +kernel)
    | exact (emit_only ..).le (by decide +kernel)

/-- What `firmwareCopyDone` can change. -/
def Feet.firmwareCopyDone : Mask := Feet.raise.plus [Feet.sramPut, Feet.firmwareStart]

theorem firmwareCopyDone_only (bs : List Nat) :
    Only Feet.firmwareCopyDone.has (firmwareCopyDone bs) := by
  simp only [firmwareCopyDone, modMgx, getMgx, putMgx]
  with_reducible repeat' first
    | exact Only.pure _ | exact Only.getM | refine Only.bind ?_ fun _ => ?_ | refine Only.ite ?_ ?_
    | exact Only.wrK .FWM_BOOT_STATUS rfl (by decide +kernel) | exact Only.doT .mgx rfl (by decide +kernel)
    | exact (raise_only ..).le (by decide +kernel) | exact (sramPut_only ..).le (by decide +kernel)
    | exact (firmwareStart_only ..).le (by decide +kernel) | split

/-- What `mbDone` can change. -/
def Feet.mbDone : Mask := (.of [.FWM_MB_CTL, .FWM_MB_RSP] [] : Mask).plus [Feet.emit]

theorem mbDone_only (x status : Nat) (payload : List Nat) :
    Only Feet.mbDone.has (mbDone x status payload) := by
  unfold mbDone
  with_reducible repeat' first
    | exact Only.pure _ | exact Only.getM | refine Only.bind ?_ fun _ => ?_ | refine Only.each fun _ _ => ?_
    | exact Only.wrK .FWM_MB_CTL rfl (by decide +kernel) | exact Only.wrK .FWM_MB_RSP rfl (by decide +kernel)
    | exact (emit_only ..).le (by decide +kernel)

/-- What `mbGo` can change. -/
def Feet.mbGo : Mask := Feet.mbDone

theorem mbGo_only (x : Nat) :
    Only Feet.mbGo.has (mbGo x) := by
  unfold mbGo
  with_reducible repeat' first
    | exact Only.pure _ | exact Only.getM | refine Only.bind ?_ fun _ => ?_ | refine Only.onlyIf ?_
    | exact Only.wrK .FWM_MB_CTL rfl (by decide +kernel) | exact (mbDone_only ..).le (by decide +kernel)

/-- What `recoveryWrite` can change. -/
def Feet.recoveryWrite : Mask := Feet.sramPut.plus [Feet.mbDone]

theorem recoveryWrite_only : Only Feet.recoveryWrite.has recoveryWrite := by
  unfold recoveryWrite
  with_reducible repeat' first
    | exact Only.pure _ | exact Only.getM | refine Only.bind ?_ fun _ => ?_ | refine Only.ite ?_ ?_
    | exact (sramPut_only ..).le (by decide +kernel) | exact (mbDone_only ..).le (by decide +kernel)

/-- What `recoveryBoot` can change. -/
def Feet.recoveryBoot : Mask := Feet.firmwareStart.plus [Feet.mbDone]

theorem recoveryBoot_only : Only Feet.recoveryBoot.has recoveryBoot := by
  unfold recoveryBoot
  with_reducible repeat' first
    | exact Only.pure _ | exact Only.getM | refine Only.bind ?_ fun _ => ?_ | refine Only.onlyIf ?_
    | refine Only.ite ?_ ?_ | exact (firmwareStart_only ..).le (by decide +kernel)
    | exact (mbDone_only ..).le (by decide +kernel)

/-- What `mbServe` can change. -/
def Feet.mbServe : Mask := Feet.mbDone

theorem mbServe_only (x op status : Nat) (payload : List Nat) :
    Only Feet.mbServe.has (mbServe x op status payload) := by
  unfold mbServe
  with_reducible repeat' first
    | exact Only.pure _ | exact Only.getM | refine Only.bind ?_ fun _ => ?_ | refine Only.onlyIf ?_
    | exact (mbDone_only ..).le (by decide +kernel)

/-- What `getVersion` can change. -/
def Feet.getVersion : Mask := Feet.mbServe

theorem getVersion_only (x : Nat) :
    Only Feet.getVersion.has (getVersion x) := by
  unfold getVersion
  with_reducible repeat' first
    | exact Only.pure _ | exact Only.getM | refine Only.bind ?_ fun _ => ?_
    | exact (mbServe_only ..).le (by decide +kernel)

/-- What `getState` can change. -/
def Feet.getState : Mask := Feet.mbServe

theorem getState_only (x : Nat) :
    Only Feet.getState.has (getState x) := by
  unfold getState
  with_reducible repeat' first
    | exact Only.pure _ | exact Only.getM | refine Only.bind ?_ fun _ => ?_
    | exact (mbServe_only ..).le (by decide +kernel)

/-- What `setPolicy` can change. -/
def Feet.setPolicy : Mask := (.of [] [.mgx] : Mask).plus [Feet.mbDone]

theorem setPolicy_only (x op status : Nat) :
    Only Feet.setPolicy.has (setPolicy x op status) := by
  simp only [setPolicy, modMgx, getMgx, putMgx]
  with_reducible repeat' first
    | exact Only.pure _ | exact Only.getM | refine Only.bind ?_ fun _ => ?_ | refine Only.onlyIf ?_
    | refine Only.ite ?_ ?_ | exact Only.doT .mgx rfl (by decide +kernel)
    | exact (mbDone_only ..).le (by decide +kernel)

/-- What `flashUpdate` can change. -/
def Feet.flashUpdate : Mask := Feet.mbDone

theorem flashUpdate_only (x status : Nat) :
    Only Feet.flashUpdate.has (flashUpdate x status) := by
  unfold flashUpdate
  with_reducible repeat' first
    | exact Only.pure _ | exact Only.getM | refine Only.bind ?_ fun _ => ?_ | refine Only.onlyIf ?_
    | refine Only.ite ?_ ?_ | exact (emit_only ..).le (by decide +kernel)
    | exact (mbDone_only ..).le (by decide +kernel)

/-- What `mbUnknown` can change. -/
def Feet.mbUnknown : Mask := Feet.mbDone

theorem mbUnknown_only (x : Nat) :
    Only Feet.mbUnknown.has (mbUnknown x) := by
  unfold mbUnknown
  with_reducible repeat' first
    | exact Only.pure _ | exact Only.getM | refine Only.bind ?_ fun _ => ?_ | refine Only.onlyIf ?_
    | exact (mbDone_only ..).le (by decide +kernel)

/-- What `mbTimeout` can change. -/
def Feet.mbTimeout : Mask := Feet.raise.plus [Feet.mbDone]

theorem mbTimeout_only (x : Nat) :
    Only Feet.mbTimeout.has (mbTimeout x) := by
  unfold mbTimeout
  with_reducible repeat' first
    | exact Only.pure _ | exact Only.getM | refine Only.bind ?_ fun _ => ?_ | refine Only.onlyIf ?_
    | exact (raise_only ..).le (by decide +kernel) | exact (mbDone_only ..).le (by decide +kernel)

/-- What `mgmtReset` can change. -/
def Feet.mgmtReset : Mask := (.of [.FWM_SVN, .FWM_VERSION, .FWM_WDOG, .FWM_MB_CTL, .FWM_MB_REQ, .FWM_MB_RSP,
  .INT_EVQ_BASE] [] : Mask).plus [Feet.raise, Feet.romStart]

theorem mgmtReset_only : Only Feet.mgmtReset.has mgmtReset := by
  simp only [mgmtReset, modMgx, getMgx, putMgx]
  with_reducible repeat' first
    | exact Only.pure _ | exact Only.getM | refine Only.bind ?_ fun _ => ?_ | refine Only.each fun _ _ => ?_
    | exact Only.rstK .FWM_BOOT_STATUS (by decide +kernel) | exact Only.rstK .FWM_MB_CTL (by decide +kernel)
    | exact Only.rstK .FWM_MB_REQ (by decide +kernel) | exact Only.rstK .FWM_MB_RSP (by decide +kernel)
    | exact Only.rstK .FWM_WDOG (by decide +kernel) | exact Only.wrK .FWM_BOOT_STATUS rfl (by decide +kernel)
    | exact Only.wrK .FWM_SVN rfl (by decide +kernel) | exact Only.wrK .FWM_VERSION rfl (by decide +kernel)
    | exact Only.wrK .INT_EVQ_BASE rfl (by decide +kernel) | exact Only.doT .mgx rfl (by decide +kernel)
    | exact (raise_only ..).le (by decide +kernel) | exact (romStart_only ..).le (by decide +kernel)

/-- What `watchdogExpiry` can change. -/
def Feet.watchdogExpiry : Mask := Feet.mgmtReset

theorem watchdogExpiry_only (c : Nat) :
    Only Feet.watchdogExpiry.has (watchdogExpiry c) := by
  simp only [watchdogExpiry, modMgx, getMgx, putMgx]
  with_reducible repeat' first
    | exact Only.pure _ | exact Only.getM | refine Only.bind ?_ fun _ => ?_ | refine Only.ite ?_ ?_
    | exact Only.wrK .FWM_WDOG rfl (by decide +kernel) | exact Only.doT .mgx rfl (by decide +kernel)
    | exact (emit_only ..).le (by decide +kernel) | exact (raise_only ..).le (by decide +kernel)
    | exact (mgmtReset_only ..).le (by decide +kernel)

/-- What `fwmEffect` can change. -/
def Feet.fwmEffect : Mask := (.of [] [.mgx] : Mask).plus [Feet.mbGo]

theorem fwmEffect_only (k : RegKind) (i cmd : Nat) :
    Only Feet.fwmEffect.has (fwmEffect k i cmd) := by
  simp only [fwmEffect, modMgx, getMgx, putMgx]
  with_reducible repeat' first
    | exact Only.pure _ | exact Only.getM | refine Only.bind ?_ fun _ => ?_ | refine Only.onlyIf ?_
    | refine Only.each fun _ _ => ?_ | exact Only.doT .mgx rfl (by decide +kernel)
    | exact (emit_only ..).le (by decide +kernel) | exact (mbGo_only ..).le (by decide +kernel) | split

end Sys2Proof.Machine
end

