-- ==== Sys2Proof/Laws/FeetObserve.lean ====
section
/-!
SUPPORT. The footprint of every operation of Machine/Observe.lean: the registers and the things beside them that it can
change, whatever the block holds.
-/
namespace Sys2Proof.Machine

set_option Elab.async false

/-- What `pmuClear` can change. -/
def Feet.pmuClear : Mask := .of [.PMU_CENSUS_STATUS, .PMU_BANK_OVF, .PMU_CNT] []

theorem pmuClear_only : Only Feet.pmuClear.has pmuClear := by
  unfold pmuClear
  with_reducible repeat' first
    | exact Only.pure _ | exact Only.getM | refine Only.bind ?_ fun _ => ?_
    | refine Only.onlyIf' fun h => Only.rstMem h (by decide +kernel) | refine Only.onlyIf ?_
    | refine Only.each fun _ _ => ?_ | exact Only.wrK .PMU_CENSUS_STATUS rfl (by decide +kernel)

/-- What `pmuEffect` can change. -/
def Feet.pmuEffect : Mask := (.of [.PMU_CFG] [.cen, .cskip] : Mask).plus [Feet.pmuClear]

theorem pmuEffect_only (k : RegKind) (i old cmd : Nat) :
    Only Feet.pmuEffect.has (pmuEffect k i old cmd) := by
  simp only [pmuEffect, putCen, clearCskip]
  with_reducible repeat' first
    | exact Only.pure _ | exact Only.getM | refine Only.bind ?_ fun _ => ?_ | refine Only.onlyIf ?_
    | refine Only.each fun _ _ => ?_ | exact Only.wrK .PMU_CFG rfl (by decide +kernel)
    | exact Only.doT .cen rfl (by decide +kernel) | exact Only.doT .cskip rfl (by decide +kernel)
    | exact (pmuClear_only ..).le (by decide +kernel) | split

/-- What `counterPageRead` can change. -/
def Feet.counterPageRead : Mask := Feet.emit

theorem counterPageRead_only (v s off : Nat) :
    Only Feet.counterPageRead.has (counterPageRead v s off) := by
  unfold counterPageRead
  with_reducible repeat' first
    | exact Only.pure _ | exact Only.getM | refine Only.bind ?_ fun _ => ?_
    | exact (emit_only ..).le (by decide +kernel)

/-- What `censusPut` can change. -/
def Feet.censusPut : Mask := (.of [] [.sram, .cen] : Mask).plus [Feet.xsend]

theorem censusPut_only (ws : List Nat) :
    Only Feet.censusPut.has (censusPut ws) := by
  simp only [censusPut, putSram, modCen, getCen, putCen]
  with_reducible repeat' first
    | exact Only.pure _ | exact Only.getM | refine Only.bind ?_ fun _ => ?_ | refine Only.onlyIf ?_
    | refine Only.each fun _ _ => ?_ | refine Only.ite ?_ ?_ | exact Only.doT .sram rfl (by decide +kernel)
    | exact Only.doT .cen rfl (by decide +kernel) | exact (xsend_only ..).le (by decide +kernel)

/-- What `censusTick` can change. -/
def Feet.censusTick : Mask := (.of [.PMU_CENSUS_STATUS] [.cskip] : Mask).plus [Feet.countFirst, Feet.censusPut]

theorem censusTick_only : Only Feet.censusTick.has censusTick := by
  simp only [censusTick, modCen, getCen, putCen, putCskip]
  with_reducible repeat' first
    | exact Only.pure _ | exact Only.getM | refine Only.bind ?_ fun _ => ?_ | refine Only.onlyIf ?_
    | refine Only.each fun _ _ => ?_ | refine Only.ite ?_ ?_
    | exact Only.wrK .PMU_CENSUS_STATUS rfl (by decide +kernel) | exact Only.wrK .PMU_CNT rfl (by decide +kernel)
    | exact countFirst_only _ (by decide +kernel) (k := .PMU_CENSUS_STATUS) rfl (by decide +kernel)
    | exact Only.doT .cen rfl (by decide +kernel) | exact Only.doT .cskip rfl (by decide +kernel)
    | exact (censusPut_only ..).le (by decide +kernel)

/-- What `testClean` can change. -/
def Feet.testClean : Mask := Feet.kskEmpty.plus [Feet.predClear, Feet.squareLost, Feet.tmLost, Feet.tmFree]

theorem testClean_only (d : Nat) :
    Only Feet.testClean.has (testClean d) := by
  unfold testClean
  with_reducible repeat' first
    | exact Only.pure _ | exact Only.getM | refine Only.bind ?_ fun _ => ?_ | refine Only.onlyIf ?_
    | refine Only.ite ?_ ?_ | exact (kskEmpty_only ..).le (by decide +kernel)
    | exact (predClear_only ..).le (by decide +kernel) | exact (squareLost_only ..).le (by decide +kernel)
    | exact (tmLost_only ..).le (by decide +kernel) | exact (tmFree_only ..).le (by decide +kernel)

/-- What `testOver` can change. -/
def Feet.testOver : Mask := Feet.testEnd.plus [Feet.testClean]

theorem testOver_only (result : Nat) :
    Only Feet.testOver.has (testOver result) := by
  unfold testOver
  with_reducible repeat' first
    | exact Only.pure _ | exact Only.getM | refine Only.bind ?_ fun _ => ?_ | refine Only.onlyIf ?_
    | exact (testEnd_only ..).le (by decide +kernel) | exact (testClean_only ..).le (by decide +kernel)

/-- What `tstEffect` can change. -/
def Feet.tstEffect : Mask := (.of [.TST_MISR, .TST_EXPECT] [.tst] : Mask).plus [Feet.testOver]

theorem tstEffect_only (cmd : Nat) :
    Only Feet.tstEffect.has (tstEffect cmd) := by
  simp only [tstEffect, putTst]
  with_reducible repeat' first
    | exact Only.pure _ | exact Only.getM | refine Only.bind ?_ fun _ => ?_ | refine Only.onlyIf ?_
    | exact Only.wrK .TST_EXPECT rfl (by decide +kernel) | exact Only.wrK .TST_MISR rfl (by decide +kernel)
    | exact Only.wrK .TST_STATUS rfl (by decide +kernel) | exact Only.doT .tst rfl (by decide +kernel)
    | exact (testOver_only ..).le (by decide +kernel)

/-- What `testComplete` can change. -/
def Feet.testComplete : Mask := (.of [.TST_MISR] [] : Mask).plus [Feet.testOver]

theorem testComplete_only (misr failing : Nat) :
    Only Feet.testComplete.has (testComplete misr failing) := by
  unfold testComplete
  with_reducible repeat' first
    | exact Only.pure _ | exact Only.getM | refine Only.bind ?_ fun _ => ?_ | refine Only.onlyIf ?_
    | refine Only.ite ?_ ?_ | exact Only.wrK .TST_MISR rfl (by decide +kernel)
    | exact Only.wrK .TST_STATUS rfl (by decide +kernel) | exact (testOver_only ..).le (by decide +kernel)

/-- What `testTimeout` can change. -/
def Feet.testTimeout : Mask := Feet.testOver

theorem testTimeout_only : Only Feet.testTimeout.has testTimeout := by
  unfold testTimeout
  with_reducible repeat' first
    | exact Only.pure _ | exact Only.getM | refine Only.bind ?_ fun _ => ?_
    | exact (testOver_only ..).le (by decide +kernel)

/-- What `relock` can change. -/
def Feet.relock : Mask := (.of [.GLB_LIFECYCLE] [] : Mask).plus [Feet.raise]

theorem relock_only : Only Feet.relock.has relock := by
  unfold relock
  with_reducible repeat' first
    | exact Only.pure _ | exact Only.getM | refine Only.bind ?_ fun _ => ?_ | refine Only.onlyIf ?_
    | exact Only.wrK .GLB_LIFECYCLE rfl (by decide +kernel) | exact (raise_only ..).le (by decide +kernel)

/-- What `dbgEffect` can change. -/
def Feet.dbgEffect : Mask := (.of [.DBG_CHAL] [.freeCtr] : Mask).plus [Feet.relock]

theorem dbgEffect_only (k : RegKind) (cmd : Nat) :
    Only Feet.dbgEffect.has (dbgEffect k cmd) := by
  unfold dbgEffect
  with_reducible repeat' first
    | exact Only.pure _ | exact Only.getM | refine Only.bind ?_ fun _ => ?_ | refine Only.onlyIf ?_
    | exact Only.wrK .DBG_CHAL rfl (by decide +kernel) | exact Only.wrK .GLB_LIFECYCLE rfl (by decide +kernel)
    | exact Only.free _ (by decide +kernel) | exact (raise_only ..).le (by decide +kernel)
    | exact (relock_only ..).le (by decide +kernel)

/-- What `trace` can change. -/
def Feet.trace : Mask := .of [.DBG_TRACE_STATUS] [.trc, .trcNext]

theorem trace_only (outcome code reason addr : Nat) (data mask : Word) :
    Only Feet.trace.has (trace outcome code reason addr data mask) := by
  simp only [trace, putTrc, putTrcNext]
  with_reducible repeat' first
    | exact Only.pure _ | exact Only.getM | refine Only.bind ?_ fun _ => ?_ | refine Only.onlyIf ?_
    | refine Only.ite ?_ ?_ | exact Only.wrK .DBG_TRACE_STATUS rfl (by decide +kernel)
    | exact Only.doT .trc rfl (by decide +kernel) | exact Only.doT .trcNext rfl (by decide +kernel)

/-- What `traceNext` can change. -/
def Feet.traceNext : Mask := .of [.DBG_TRACE_IDX] []

theorem traceNext_only : Only Feet.traceNext.has traceNext := by
  unfold traceNext
  with_reducible repeat' first
    | exact Only.pure _ | exact Only.getM | refine Only.bind ?_ fun _ => ?_
    | exact Only.wrK .DBG_TRACE_IDX rfl (by decide +kernel)

end Sys2Proof.Machine
end

