-- ==== Sys2Proof/Laws/FeetWrite.lean ====
section
/-!
SUPPORT. The footprint of every operation of Machine/Write.lean: the registers and the things beside them that it can
change, whatever the block holds.
-/
namespace Sys2Proof.Machine

set_option Elab.async false

/-- What `conflictClear` can change. -/
def Feet.conflictClear : Mask := .of [.GLB_CMD_CONFLICT, .GLB_CMD_CONFLICT_ADDR, .GLB_CMD_CONFLICT_DATA,
  .GLB_CMD_CONFLICT_MASK, .GLB_CMD_CONFLICT_TIME] []

theorem conflictClear_only : Only Feet.conflictClear.has conflictClear := by
  unfold conflictClear
  with_reducible repeat' first
    | exact Only.pure _ | exact Only.getM | refine Only.bind ?_ fun _ => ?_
    | exact Only.rstK .GLB_CMD_CONFLICT (by decide +kernel)
    | exact Only.rstK .GLB_CMD_CONFLICT_ADDR (by decide +kernel)
    | exact Only.rstK .GLB_CMD_CONFLICT_DATA (by decide +kernel)
    | exact Only.rstK .GLB_CMD_CONFLICT_MASK (by decide +kernel)
    | exact Only.rstK .GLB_CMD_CONFLICT_TIME (by decide +kernel)

/-- What `regEffect` can change. -/
def Feet.regEffect : Mask := (.of [.GLB_PATH_CNT] [] : Mask).plus [Feet.xbEffect, Feet.sqEffect, Feet.schedEffect,
  Feet.krbEffect, Feet.kskEffect, Feet.lmEffect, Feet.octEffect, Feet.linkEffect, Feet.intEffect, Feet.pwrEffect,
  Feet.structEffect, Feet.mldEffect, Feet.stageWrite, Feet.fwmEffect, Feet.pmuEffect, Feet.tstEffect, Feet.dbgEffect,
  Feet.conflictClear]

theorem regEffect_only (r : Reg) (old cmd mask : Nat) (p : Path) :
    Only Feet.regEffect.has (regEffect r old cmd mask p) := by
  simp only [regEffect, modMgx, getMgx, putMgx]
  with_reducible repeat' first
    | exact Only.pure _ | exact Only.getM | refine Only.bind ?_ fun _ => ?_ | refine Only.onlyIf ?_
    | refine Only.ite ?_ ?_ | exact Only.wrK .GLB_PATH_CNT rfl (by decide +kernel)
    | exact Only.doT .mgx rfl (by decide +kernel) | exact (xbEffect_only ..).le (by decide +kernel)
    | exact (rngEffect_only ..).le (by decide +kernel) | exact (sqEffect_only ..).le (by decide +kernel)
    | exact (tmEffect_only ..).le (by decide +kernel) | exact (schedEffect_only ..).le (by decide +kernel)
    | exact (krbEffect_only ..).le (by decide +kernel) | exact (kskEffect_only ..).le (by decide +kernel)
    | exact (lmEffect_only ..).le (by decide +kernel) | exact (octEffect_only ..).le (by decide +kernel)
    | exact (linkEffect_only ..).le (by decide +kernel) | exact (intEffect_only ..).le (by decide +kernel)
    | exact (pwrEffect_only ..).le (by decide +kernel) | exact (slpEffect_only ..).le (by decide +kernel)
    | exact (structEffect_only ..).le (by decide +kernel) | exact (mldEffect_only ..).le (by decide +kernel)
    | exact (stageWrite_only ..).le (by decide +kernel) | exact (fwmEffect_only ..).le (by decide +kernel)
    | exact (pmuEffect_only ..).le (by decide +kernel) | exact (tstEffect_only ..).le (by decide +kernel)
    | exact (dbgEffect_only ..).le (by decide +kernel) | exact (conflictClear_only ..).le (by decide +kernel) | split

/-- What `refuse` can change. -/
def Feet.refuse : Mask := Feet.writeRefused.plus [Feet.structShow, Feet.trace]

theorem refuse_only (r : Reg) (w : CtlWrite) (reason : Nat) :
    Only Feet.refuse.has (refuse r w reason) := by
  unfold refuse
  with_reducible repeat' first
    | exact Only.pure _ | exact Only.getM | refine Only.bind ?_ fun _ => ?_ | refine Only.onlyIf ?_
    | exact (writeRefused_only ..).le (by decide +kernel) | exact (structShow_only ..).le (by decide +kernel)
    | exact (trace_only ..).le (by decide +kernel)

/-- What `readEffect` can change. -/
def Feet.readEffect : Mask := Feet.tbTimeNs.plus [Feet.gclNext, Feet.stageRead, Feet.traceNext]

theorem readEffect_only (r : Reg) :
    Only Feet.readEffect.has (readEffect r) := by
  unfold readEffect
  with_reducible repeat' first
    | exact Only.pure _ | exact Only.getM | refine Only.bind ?_ fun _ => ?_ | refine Only.onlyIf ?_
    | exact (tbTimeNs_only ..).le (by decide +kernel) | exact (gclNext_only ..).le (by decide +kernel)
    | exact (stageRead_only ..).le (by decide +kernel) | exact (traceNext_only ..).le (by decide +kernel) | split

/-- What `apertureRead` can change. -/
def Feet.apertureRead : Mask := .of [.TEN_OBJ_STATUS] []

theorem apertureRead_only (a : Reg) :
    Only Feet.apertureRead.has (apertureRead a) := by
  unfold apertureRead
  with_reducible repeat' first
    | exact Only.pure _ | exact Only.getM | refine Only.bind ?_ fun _ => ?_
    | exact Only.wrK .TEN_OBJ_STATUS rfl (by decide +kernel) | split

/-- What `readNow` can change. -/
def Feet.readNow : Mask := (.of [] [.freeCtr] : Mask).plus [Feet.apertureRead]

theorem readNow_only (r : Reg) :
    Only Feet.readNow.has (readNow r) := by
  unfold readNow
  with_reducible repeat' first
    | exact Only.pure _ | exact Only.getM | refine Only.bind ?_ fun _ => ?_ | refine Only.ite ?_ ?_
    | exact Only.free _ (by decide +kernel) | exact (apertureRead_only ..).le (by decide +kernel)

/-- What `ctlRead` can change. -/
def Feet.ctlRead : Mask := Feet.pathRefused.plus [Feet.readEffect, Feet.readNow]

theorem ctlRead_only (p : Path) (addr width : Nat) :
    Only Feet.ctlRead.has (ctlRead p addr width) := by
  unfold ctlRead
  with_reducible repeat' first
    | exact Only.pure _ | exact Only.getM | refine Only.bind ?_ fun _ => ?_ | refine Only.onlyIf ?_
    | refine Only.ite ?_ ?_ | exact (pathRefused_only ..).le (by decide +kernel)
    | exact (readEffect_only ..).le (by decide +kernel) | exact (readNow_only ..).le (by decide +kernel) | split

/-- What `debugFabric` can change. -/
def Feet.debugFabric : Mask := (.of [.KRB_CNT] [.accNext] : Mask).plus [Feet.emit, Feet.pathRefused, Feet.misdirect,
  Feet.violation]

theorem debugFabric_only (a : Nat) (write : Bool) (data : List Word) :
    Only Feet.debugFabric.has (debugFabric a write data) := by
  simp only [debugFabric, putAccNext]
  with_reducible repeat' first
    | exact Only.pure _ | exact Only.getM | refine Only.bind ?_ fun _ => ?_ | refine Only.onlyIf ?_
    | refine Only.ite ?_ ?_ | exact Only.incK .KRB_CNT rfl (by decide +kernel)
    | exact Only.doT .accNext rfl (by decide +kernel) | exact (emit_only ..).le (by decide +kernel)
    | exact (pmuCount_only ..).le (by decide +kernel) | exact (xsend_only ..).le (by decide +kernel)
    | exact (pathRefused_only ..).le (by decide +kernel) | exact (misdirect_only ..).le (by decide +kernel)
    | exact (violation_only ..).le (by decide +kernel) | exact (debugAccess_only ..).le (by decide +kernel) | split

end Sys2Proof.Machine
end

