-- ==== Sys2Proof/Laws/FeetFm.lean ====
section
/-!
SUPPORT. The footprint of every operation of Machine/Fm.lean: the registers and the things beside them that it can
change, whatever the block holds.
-/
namespace Sys2Proof.Machine

set_option Elab.async false

/-- What `fmAnswer` can change. -/
def Feet.fmAnswer : Mask := Feet.emit

theorem fmAnswer_only (code : Nat) (payload : List Nat) :
    Only Feet.fmAnswer.has (fmAnswer code payload) := by
  unfold fmAnswer
  with_reducible repeat' first
    | exact Only.pure _ | exact Only.getM | refine Only.bind ?_ fun _ => ?_
    | exact (emit_only ..).le (by decide +kernel)

/-- What `fmCmd` can change. -/
def Feet.fmCmd : Mask := .of [] []

theorem fmCmd_only (p : Path) (x : P Unit) {M : Mask} (_hM : Feet.fmCmd.le M = true) (hx : Only M.has x) :
    Only M.has (fmCmd p x) := by
  unfold fmCmd
  with_reducible repeat' first
    | exact Only.pure _ | exact Only.getM | refine Only.bind ?_ fun _ => ?_ | exact hx | refine Only.onlyIf ?_

/-- What `identify` can change. -/
def Feet.identify : Mask := Feet.fmAnswer

theorem identify_only (p : Path) :
    Only Feet.identify.has (identify p) := by
  unfold identify
  with_reducible repeat' first
    | exact Only.pure _ | exact Only.getM | refine Only.bind ?_ fun _ => ?_
    | exact (fmAnswer_only ..).le (by decide +kernel) | refine fmCmd_only _ _ (by decide +kernel) ?_

/-- What `portStates` can change. -/
def Feet.portStates : Mask := Feet.opRefused.plus [Feet.fmAnswer]

theorem portStates_only (p : Path) (l : List Nat) :
    Only Feet.portStates.has (portStates p l) := by
  unfold portStates
  with_reducible repeat' first
    | exact Only.pure _ | exact Only.getM | refine Only.bind ?_ fun _ => ?_ | refine Only.ite ?_ ?_
    | exact (opRefused_only ..).le (by decide +kernel) | exact (fmAnswer_only ..).le (by decide +kernel)
    | refine fmCmd_only _ _ (by decide +kernel) ?_

/-- What `ppbConfig` can change. -/
def Feet.ppbConfig : Mask := (.of [] [.freeCtr] : Mask).plus [Feet.fmAnswer]

theorem ppbConfig_only (p : Path) (q : Nat) (write : Bool) :
    Only Feet.ppbConfig.has (ppbConfig p q write) := by
  unfold ppbConfig
  with_reducible repeat' first
    | exact Only.pure _ | exact Only.getM | refine Only.bind ?_ fun _ => ?_ | refine Only.ite ?_ ?_
    | exact Only.free _ (by decide +kernel) | exact (fmAnswer_only ..).le (by decide +kernel)
    | refine fmCmd_only _ _ (by decide +kernel) ?_

/-- What `vcsInfo` can change. -/
def Feet.vcsInfo : Mask := Feet.fmAnswer

theorem vcsInfo_only (p : Path) (v : Nat) :
    Only Feet.vcsInfo.has (vcsInfo p v) := by
  unfold vcsInfo
  with_reducible repeat' first
    | exact Only.pure _ | exact Only.getM | refine Only.bind ?_ fun _ => ?_ | refine Only.ite ?_ ?_
    | exact (fmAnswer_only ..).le (by decide +kernel) | refine fmCmd_only _ _ (by decide +kernel) ?_

/-- What `fmRefused` can change. -/
def Feet.fmRefused : Mask := Feet.fmAnswer

theorem fmRefused_only (p : Path) :
    Only Feet.fmRefused.has (fmRefused p) := by
  unfold fmRefused
  with_reducible repeat' first
    | exact Only.pure _ | exact Only.getM | refine Only.bind ?_ fun _ => ?_
    | exact (fmAnswer_only ..).le (by decide +kernel) | refine fmCmd_only _ _ (by decide +kernel) ?_

/-- What `fmTunnel` can change. -/
def Feet.fmTunnel : Mask := Feet.xsend.plus [Feet.fmAnswer]

theorem fmTunnel_only (p : Path) (q : Nat) (op : Op) (code ld addr : Nat) (data : List Word) (allowed : Mach → Bool) :
    Only Feet.fmTunnel.has (fmTunnel p q op code ld addr data allowed) := by
  unfold fmTunnel
  with_reducible repeat' first
    | exact Only.pure _ | exact Only.getM | refine Only.bind ?_ fun _ => ?_ | refine Only.ite ?_ ?_
    | exact (xsend_only ..).le (by decide +kernel) | exact (fmAnswer_only ..).le (by decide +kernel)
    | refine fmCmd_only _ _ (by decide +kernel) ?_

/-- What `ldCommand` can change. -/
def Feet.ldCommand : Mask := Feet.fmTunnel

theorem ldCommand_only (p : Path) (q : Nat) (op : Op) (code ld addr : Nat) (data : List Word) :
    Only Feet.ldCommand.has (ldCommand p q op code ld addr data) := by
  unfold ldCommand
  with_reducible repeat' first
    | exact Only.pure _ | exact Only.getM | refine Only.bind ?_ fun _ => ?_
    | exact (fmTunnel_only ..).le (by decide +kernel)

/-- What `ldQuery` can change. -/
def Feet.ldQuery : Mask := Feet.fmTunnel

theorem ldQuery_only (p : Path) (q code : Nat) :
    Only Feet.ldQuery.has (ldQuery p q code) := by
  unfold ldQuery
  with_reducible repeat' first
    | exact Only.pure _ | exact Only.getM | refine Only.bind ?_ fun _ => ?_
    | exact (fmTunnel_only ..).le (by decide +kernel)

/-- What `headCommand` can change. -/
def Feet.headCommand : Mask := Feet.fmTunnel

theorem headCommand_only (p : Path) (q code : Nat) :
    Only Feet.headCommand.has (headCommand p q code) := by
  unfold headCommand
  with_reducible repeat' first
    | exact Only.pure _ | exact Only.getM | refine Only.bind ?_ fun _ => ?_
    | exact (fmTunnel_only ..).le (by decide +kernel)

/-- What `dynCapacity` can change. -/
def Feet.dynCapacity : Mask := Feet.fmTunnel

theorem dynCapacity_only (p : Path) (q code ld : Nat) (data : List Word) :
    Only Feet.dynCapacity.has (dynCapacity p q code ld data) := by
  unfold dynCapacity
  with_reducible repeat' first
    | exact Only.pure _ | exact Only.getM | refine Only.bind ?_ fun _ => ?_ | refine Only.ite ?_ ?_
    | exact (fmRefused_only ..).le (by decide +kernel) | exact (fmTunnel_only ..).le (by decide +kernel)

/-- What `getEvents` can change. -/
def Feet.getEvents : Mask := Feet.emit

theorem getEvents_only (p : Path) (log : Option (Nat × Nat)) :
    Only Feet.getEvents.has (getEvents p log) := by
  unfold getEvents
  with_reducible repeat' first
    | exact Only.pure _ | exact Only.getM | refine Only.bind ?_ fun _ => ?_ | refine Only.onlyIf ?_
    | exact (emit_only ..).le (by decide +kernel) | exact (fmAnswer_only ..).le (by decide +kernel)
    | refine fmCmd_only _ _ (by decide +kernel) ?_ | split

/-- What `clearEvents` can change. -/
def Feet.clearEvents : Mask := (.of [.INT_EVQ_IDX] [.hlog] : Mask).plus [Feet.emit]

theorem clearEvents_only (p : Path) (log : Option (Nat × Nat)) (n : Nat) :
    Only Feet.clearEvents.has (clearEvents p log n) := by
  simp only [clearEvents, modHlog, getHlog, putHlog]
  with_reducible repeat' first
    | exact Only.pure _ | exact Only.getM | refine Only.bind ?_ fun _ => ?_ | refine Only.onlyIf ?_
    | refine Only.ite ?_ ?_ | exact Only.wrK .INT_EVQ_IDX rfl (by decide +kernel)
    | exact Only.doT .hlog rfl (by decide +kernel) | exact (emit_only ..).le (by decide +kernel)
    | exact (fmAnswer_only ..).le (by decide +kernel) | refine fmCmd_only _ _ (by decide +kernel) ?_ | split

/-- What `eventPolicy` can change. -/
def Feet.eventPolicy : Mask := (.of [] [.mgx] : Mask).plus [Feet.fmAnswer]

theorem eventPolicy_only (p : Path) (v : Nat) :
    Only Feet.eventPolicy.has (eventPolicy p v) := by
  simp only [eventPolicy, modMgx, getMgx, putMgx]
  with_reducible repeat' first
    | exact Only.pure _ | exact Only.getM | refine Only.bind ?_ fun _ => ?_
    | exact Only.doT .mgx rfl (by decide +kernel) | exact (fmAnswer_only ..).le (by decide +kernel)
    | refine fmCmd_only _ _ (by decide +kernel) ?_

/-- What `readRun` can change. -/
def Feet.readRun : Mask := Feet.ctlRead

theorem readRun_only (p : Path) (n : Nat) (k : Nat) (j : List Nat) :
    Only Feet.readRun.has (readRun p n k j) := by
  induction n generalizing k j with
  | zero =>
    unfold readRun
    with_reducible repeat' first
      | exact ih .. | exact Only.pure _
  | succ n ih =>
    unfold readRun
    with_reducible repeat' first
      | exact ih .. | exact Only.pure _ | exact Only.getM | refine Only.bind ?_ fun _ => ?_
      | exact (ctlRead_only ..).le (by decide +kernel)

/-- What `ctlReads` can change. -/
def Feet.ctlReads : Mask := Feet.fmAnswer.plus [Feet.readRun]

theorem ctlReads_only (p : Path) (addr n : Nat) :
    Only Feet.ctlReads.has (ctlReads p addr n) := by
  unfold ctlReads
  with_reducible repeat' first
    | exact Only.pure _ | exact Only.getM | refine Only.bind ?_ fun _ => ?_ | refine Only.ite ?_ ?_
    | exact (fmAnswer_only ..).le (by decide +kernel) | refine fmCmd_only _ _ (by decide +kernel) ?_
    | exact (readRun_only ..).le (by decide +kernel)

/-- What `mctpControl` can change. -/
def Feet.mctpControl : Mask := (.of [] [.mgx] : Mask).plus [Feet.emit]

theorem mctpControl_only (cmd arg : Nat) :
    Only Feet.mctpControl.has (mctpControl cmd arg) := by
  simp only [mctpControl, modMgx, getMgx, putMgx]
  with_reducible repeat' first
    | exact Only.pure _ | exact Only.getM | refine Only.bind ?_ fun _ => ?_
    | exact Only.doT .mgx rfl (by decide +kernel) | exact (emit_only ..).le (by decide +kernel) | split

/-- What `spdmSend` can change. -/
def Feet.spdmSend : Mask := Feet.emit

theorem spdmSend_only (code : Nat) (payload : List Nat) :
    Only Feet.spdmSend.has (spdmSend code payload) := by
  unfold spdmSend
  with_reducible repeat' first
    | exact Only.pure _ | exact Only.getM | refine Only.bind ?_ fun _ => ?_
    | exact (emit_only ..).le (by decide +kernel)

/-- What `spdmError` can change. -/
def Feet.spdmError : Mask := Feet.spdmSend

theorem spdmError_only (e : Nat) :
    Only Feet.spdmError.has (spdmError e) := by
  unfold spdmError
  with_reducible repeat' first
    | exact Only.pure _ | exact Only.getM | refine Only.bind ?_ fun _ => ?_
    | exact (spdmSend_only ..).le (by decide +kernel)

/-- What `spdmAt` can change. -/
def Feet.spdmAt : Mask := Feet.spdmError

theorem spdmAt_only (c n : Nat) (x : P Unit) {M : Mask} (hM : Feet.spdmAt.le M = true) (hx : Only M.has x) :
    Only M.has (spdmAt c n x) := by
  simp only [spdmAt, getSpdm]
  with_reducible repeat' first
    | exact Only.pure _ | exact Only.getM | refine Only.bind ?_ fun _ => ?_ | exact hx | refine Only.ite ?_ ?_
    | exact (spdmError_only ..).le (Mask.le_trans (by decide +kernel) hM)

/-- What `onSpdm` can change. -/
def Feet.onSpdm : Mask := .of [] []

theorem onSpdm_only (c : Nat) (x : P Unit) {M : Mask} (_hM : Feet.onSpdm.le M = true) (hx : Only M.has x) :
    Only M.has (onSpdm c x) := by
  unfold onSpdm
  with_reducible repeat' first
    | exact Only.pure _ | exact Only.getM | refine Only.bind ?_ fun _ => ?_ | exact hx | refine Only.onlyIf ?_

/-- What `spdmVersion` can change. -/
def Feet.spdmVersion : Mask := (.of [] [.spdm] : Mask).plus [Feet.spdmSend]

theorem spdmVersion_only (c : Nat) :
    Only Feet.spdmVersion.has (spdmVersion c) := by
  simp only [spdmVersion, putSpdm]
  with_reducible repeat' first
    | exact Only.pure _ | exact Only.getM | refine Only.bind ?_ fun _ => ?_
    | exact Only.doT .spdm rfl (by decide +kernel) | exact (spdmSend_only ..).le (by decide +kernel)

/-- What `spdmCaps` can change. -/
def Feet.spdmCaps : Mask := (.of [] [.spdm] : Mask).plus [Feet.spdmSend]

theorem spdmCaps_only (c : Nat) :
    Only Feet.spdmCaps.has (spdmCaps c) := by
  simp only [spdmCaps, modSpdm, getSpdm, putSpdm]
  with_reducible repeat' first
    | exact Only.pure _ | exact Only.getM | refine Only.bind ?_ fun _ => ?_
    | exact Only.doT .spdm rfl (by decide +kernel) | exact (spdmSend_only ..).le (by decide +kernel)
    | refine spdmAt_only _ _ _ (by decide +kernel) ?_

/-- What `spdmAlgorithms` can change. -/
def Feet.spdmAlgorithms : Mask := (.of [] [.spdm] : Mask).plus [Feet.spdmSend]

theorem spdmAlgorithms_only (c : Nat) :
    Only Feet.spdmAlgorithms.has (spdmAlgorithms c) := by
  simp only [spdmAlgorithms, modSpdm, getSpdm, putSpdm]
  with_reducible repeat' first
    | exact Only.pure _ | exact Only.getM | refine Only.bind ?_ fun _ => ?_
    | exact Only.doT .spdm rfl (by decide +kernel) | exact (spdmSend_only ..).le (by decide +kernel)
    | refine spdmAt_only _ _ _ (by decide +kernel) ?_

/-- What `spdmDigests` can change. -/
def Feet.spdmDigests : Mask := Feet.spdmSend

theorem spdmDigests_only (c : Nat) :
    Only Feet.spdmDigests.has (spdmDigests c) := by
  unfold spdmDigests
  with_reducible repeat' first
    | exact Only.pure _ | exact Only.getM | refine Only.bind ?_ fun _ => ?_
    | exact (spdmSend_only ..).le (by decide +kernel) | refine spdmAt_only _ _ _ (by decide +kernel) ?_

/-- What `spdmCertificate` can change. -/
def Feet.spdmCertificate : Mask := Feet.spdmSend

theorem spdmCertificate_only (c slot o n : Nat) :
    Only Feet.spdmCertificate.has (spdmCertificate c slot o n) := by
  unfold spdmCertificate
  with_reducible repeat' first
    | exact Only.pure _ | exact Only.getM | refine Only.bind ?_ fun _ => ?_ | refine Only.ite ?_ ?_
    | exact (spdmSend_only ..).le (by decide +kernel) | exact (spdmError_only ..).le (by decide +kernel)
    | refine spdmAt_only _ _ _ (by decide +kernel) ?_

/-- What `spdmChallenge` can change. -/
def Feet.spdmChallenge : Mask := (.of [] [.freeCtr] : Mask).plus [Feet.spdmSend]

theorem spdmChallenge_only (c slot : Nat) :
    Only Feet.spdmChallenge.has (spdmChallenge c slot) := by
  unfold spdmChallenge
  with_reducible repeat' first
    | exact Only.pure _ | exact Only.getM | refine Only.bind ?_ fun _ => ?_ | refine Only.ite ?_ ?_
    | exact Only.free _ (by decide +kernel) | exact (spdmSend_only ..).le (by decide +kernel)
    | exact (spdmError_only ..).le (by decide +kernel) | refine spdmAt_only _ _ _ (by decide +kernel) ?_

/-- What `spdmMeasurements` can change. -/
def Feet.spdmMeasurements : Mask := (.of [] [.freeCtr] : Mask).plus [Feet.spdmSend]

theorem spdmMeasurements_only (c i : Nat) (sign : Bool) :
    Only Feet.spdmMeasurements.has (spdmMeasurements c i sign) := by
  unfold spdmMeasurements
  with_reducible repeat' first
    | exact Only.pure _ | exact Only.getM | refine Only.bind ?_ fun _ => ?_ | refine Only.ite ?_ ?_
    | exact Only.free _ (by decide +kernel) | exact (spdmSend_only ..).le (by decide +kernel)
    | exact (spdmError_only ..).le (by decide +kernel) | refine spdmAt_only _ _ _ (by decide +kernel) ?_

/-- What `spdmKeyExchange` can change. -/
def Feet.spdmKeyExchange : Mask := (.of [] [.freeCtr, .spdm] : Mask).plus [Feet.spdmSend]

theorem spdmKeyExchange_only (c : Nat) (reqSession : Nat) :
    Only Feet.spdmKeyExchange.has (spdmKeyExchange c reqSession) := by
  simp only [spdmKeyExchange, modSpdm, getSpdm, putSpdm]
  with_reducible repeat' first
    | exact Only.pure _ | exact Only.getM | refine Only.bind ?_ fun _ => ?_ | exact Only.free _ (by decide +kernel)
    | exact Only.doT .spdm rfl (by decide +kernel) | exact (spdmSend_only ..).le (by decide +kernel)
    | refine spdmAt_only _ _ _ (by decide +kernel) ?_

/-- What `sessionMod` can change. -/
def Feet.sessionMod : Mask := .of [] [.spdm]

theorem sessionMod_only (c id : Nat) (f : Bool × Nat → Bool × Nat) :
    Only Feet.sessionMod.has (sessionMod c id f) := by
  simp only [sessionMod, modSpdm, getSpdm, putSpdm]
  with_reducible repeat' first
    | exact Only.pure _ | exact Only.getM | refine Only.bind ?_ fun _ => ?_ | refine Only.ite ?_ ?_
    | exact Only.doT .spdm rfl (by decide +kernel)

/-- What `inSession` can change. -/
def Feet.inSession : Mask := Feet.spdmError

theorem inSession_only (c id : Nat) (up : Bool) (x : P Unit) {M : Mask} (hM : Feet.inSession.le M = true) (hx : Only
    M.has x) :
    Only M.has (inSession c id up x) := by
  simp only [inSession, getSpdm]
  with_reducible repeat' first
    | exact Only.pure _ | exact Only.getM | refine Only.bind ?_ fun _ => ?_ | exact hx | refine Only.ite ?_ ?_
    | exact (spdmError_only ..).le (Mask.le_trans (by decide +kernel) hM)

/-- What `spdmFinish` can change. -/
def Feet.spdmFinish : Mask := Feet.spdmSend.plus [Feet.sessionMod]

theorem spdmFinish_only (c id : Nat) (ok : Bool) :
    Only Feet.spdmFinish.has (spdmFinish c id ok) := by
  simp only [spdmFinish, modSpdm, getSpdm, putSpdm]
  with_reducible repeat' first
    | exact Only.pure _ | exact Only.getM | refine Only.bind ?_ fun _ => ?_ | refine Only.ite ?_ ?_
    | exact Only.doT .spdm rfl (by decide +kernel) | exact (spdmSend_only ..).le (by decide +kernel)
    | exact (spdmError_only ..).le (by decide +kernel) | exact (sessionMod_only ..).le (by decide +kernel)
    | refine inSession_only _ _ _ _ (by decide +kernel) ?_

/-- What `spdmHeartbeat` can change. -/
def Feet.spdmHeartbeat : Mask := Feet.spdmSend

theorem spdmHeartbeat_only (c id : Nat) :
    Only Feet.spdmHeartbeat.has (spdmHeartbeat c id) := by
  unfold spdmHeartbeat
  with_reducible repeat' first
    | exact Only.pure _ | exact Only.getM | refine Only.bind ?_ fun _ => ?_
    | exact (spdmSend_only ..).le (by decide +kernel) | refine inSession_only _ _ _ _ (by decide +kernel) ?_

/-- What `spdmKeyUpdate` can change. -/
def Feet.spdmKeyUpdate : Mask := Feet.spdmSend.plus [Feet.sessionMod]

theorem spdmKeyUpdate_only (c id op tag : Nat) :
    Only Feet.spdmKeyUpdate.has (spdmKeyUpdate c id op tag) := by
  unfold spdmKeyUpdate
  with_reducible repeat' first
    | exact Only.pure _ | exact Only.getM | refine Only.bind ?_ fun _ => ?_ | refine Only.onlyIf ?_
    | refine Only.ite ?_ ?_ | exact (spdmSend_only ..).le (by decide +kernel)
    | exact (spdmError_only ..).le (by decide +kernel) | exact (sessionMod_only ..).le (by decide +kernel)
    | refine inSession_only _ _ _ _ (by decide +kernel) ?_

/-- What `spdmEndSession` can change. -/
def Feet.spdmEndSession : Mask := (.of [] [.spdm] : Mask).plus [Feet.spdmSend]

theorem spdmEndSession_only (c id : Nat) :
    Only Feet.spdmEndSession.has (spdmEndSession c id) := by
  simp only [spdmEndSession, modSpdm, getSpdm, putSpdm]
  with_reducible repeat' first
    | exact Only.pure _ | exact Only.getM | refine Only.bind ?_ fun _ => ?_
    | exact Only.doT .spdm rfl (by decide +kernel) | exact (spdmSend_only ..).le (by decide +kernel)
    | refine inSession_only _ _ _ _ (by decide +kernel) ?_

end Sys2Proof.Machine
end

