-- ==== Sys2Proof/Laws/FeetResets.lean ====
section
/-!
SUPPORT. The footprint of every operation of Machine/Resets.lean: the registers and the things beside them that it can
change, whatever the block holds.
-/
namespace Sys2Proof.Machine

set_option Elab.async false

/-- What `aoFlush` can change. -/
def Feet.aoFlush : Mask := (.of [] [.hold, .aoLatch] : Mask).plus [Feet.evqPut, Feet.evFeLog]

theorem aoFlush_only : Only Feet.aoFlush.has aoFlush := by
  simp only [aoFlush, putHold, putEvLost, putAoLatch, putFeDue]
  with_reducible repeat' first
    | exact Only.pure _ | exact Only.getM | refine Only.bind ?_ fun _ => ?_ | refine Only.onlyIf ?_
    | refine Only.each fun _ _ => ?_ | refine Only.ite ?_ ?_
    | exact Only.addSatK .INT_EVQ_CNT rfl (by decide +kernel) | exact Only.doT .hold rfl (by decide +kernel)
    | exact Only.doT .evLost rfl (by decide +kernel) | exact Only.doT .aoLatch rfl (by decide +kernel)
    | exact Only.doT .feDue rfl (by decide +kernel) | exact (emit_only ..).le (by decide +kernel)
    | exact (evqPut_only ..).le (by decide +kernel) | exact (evFeLog_only ..).le (by decide +kernel)

/-- What `mgmtReady` can change. -/
def Feet.mgmtReady : Mask := Feet.romStart.plus [Feet.aoFlush]

theorem mgmtReady_only : Only Feet.mgmtReady.has mgmtReady := by
  unfold mgmtReady
  with_reducible repeat' first
    | exact Only.pure _ | exact Only.getM | refine Only.bind ?_ fun _ => ?_
    | exact Only.wrK .FWM_BOOT_STATUS rfl (by decide +kernel) | exact (romStart_only ..).le (by decide +kernel)
    | exact (aoFlush_only ..).le (by decide +kernel)

/-- What `startUp` can change. -/
def Feet.startUp : Mask := Feet.wakeStart.plus [Feet.avsStart]

theorem startUp_only : Only Feet.startUp.has startUp := by
  unfold startUp
  with_reducible repeat' first
    | exact Only.pure _ | exact Only.getM | refine Only.bind ?_ fun _ => ?_ | refine Only.onlyIf ?_
    | refine Only.each fun _ _ => ?_ | refine Only.ite ?_ ?_ | exact (wakeStart_only ..).le (by decide +kernel)
    | exact (avsStart_only ..).le (by decide +kernel)

/-- What `wakeStepReadyRow` can change. -/
def Feet.wakeStepReadyRow : Mask := Feet.wakeStepReady.plus [Feet.mgmtReady]

theorem wakeStepReadyRow_only (d : Nat) :
    Only Feet.wakeStepReadyRow.has (wakeStepReadyRow d) := by
  unfold wakeStepReadyRow
  with_reducible repeat' first
    | exact Only.pure _ | exact Only.getM | refine Only.bind ?_ fun _ => ?_ | refine Only.onlyIf ?_
    | exact (wakeStepReady_only ..).le (by decide +kernel) | exact (mgmtReady_only ..).le (by decide +kernel)

/-- What `fuseLoad` can change. -/
def Feet.fuseLoad : Mask := .of [.GLB_ID, .GLB_LIFECYCLE, .MLD_SVN_MIN, .PWR_AVS, .FWM_SVN] []

theorem fuseLoad_only : Only Feet.fuseLoad.has fuseLoad := by
  unfold fuseLoad
  with_reducible repeat' first
    | exact Only.pure _ | exact Only.getM | refine Only.bind ?_ fun _ => ?_ | refine Only.ite ?_ ?_
    | exact Only.wrK .FWM_SVN rfl (by decide +kernel) | exact Only.wrK .GLB_ID rfl (by decide +kernel)
    | exact Only.wrK .GLB_LIFECYCLE rfl (by decide +kernel) | exact Only.wrK .MLD_SVN_MIN rfl (by decide +kernel)
    | exact Only.wrK .PWR_AVS rfl (by decide +kernel)

/-- What `porstRelease` can change. -/
def Feet.porstRelease : Mask := (.of [.PWR_CLK_STATUS] [.pins] : Mask).plus [Feet.tbClock, Feet.startUp,
  Feet.fuseLoad]

theorem porstRelease_only (twinId refclk : Bool) :
    Only Feet.porstRelease.has (porstRelease twinId refclk) := by
  simp only [porstRelease, modPins, getPins, putPins]
  with_reducible repeat' first
    | exact Only.pure _ | exact Only.getM | refine Only.bind ?_ fun _ => ?_ | refine Only.ite ?_ ?_
    | exact Only.wrK .PWR_CLK_STATUS rfl (by decide +kernel) | exact Only.doT .pins rfl (by decide +kernel)
    | exact (tbClock_only ..).le (by decide +kernel) | exact (startUp_only ..).le (by decide +kernel)
    | exact (fuseLoad_only ..).le (by decide +kernel)

/-- What `twinIdChange` can change. -/
def Feet.twinIdChange : Mask := (.of [] [.pins] : Mask).plus [Feet.raise]

theorem twinIdChange_only (level : Bool) :
    Only Feet.twinIdChange.has (twinIdChange level) := by
  simp only [twinIdChange, modPins, getPins, putPins]
  with_reducible repeat' first
    | exact Only.pure _ | exact Only.getM | refine Only.bind ?_ fun _ => ?_ | refine Only.onlyIf ?_
    | refine Only.ite ?_ ?_ | exact Only.doT .pins rfl (by decide +kernel)
    | exact (raise_only ..).le (by decide +kernel)

end Sys2Proof.Machine
end

