-- ==== Sys2Proof/Laws/FeetRows.lean ====
section
/-!
SUPPORT. The footprint of every operation of Machine/Rows.lean: the registers and the things beside them that it can
change, whatever the block holds.
-/
namespace Sys2Proof.Machine

set_option Elab.async false

/-- What `whileOn` can change. -/
def Feet.whileOn : Mask := .of [] []

theorem whileOn_only (d : Nat) (x : P Unit) {M : Mask} (_hM : Feet.whileOn.le M = true) (hx : Only M.has x) :
    Only M.has (whileOn d x) := by
  unfold whileOn
  with_reducible repeat' first
    | exact Only.pure _ | exact Only.getM | refine Only.bind ?_ fun _ => ?_ | exact hx | refine Only.onlyIf ?_

/-- What `whileUp` can change. -/
def Feet.whileUp : Mask := .of [] []

theorem whileUp_only (d : Nat) (x : P Unit) {M : Mask} (_hM : Feet.whileUp.le M = true) (hx : Only M.has x) :
    Only M.has (whileUp d x) := by
  unfold whileUp
  with_reducible repeat' first
    | exact Only.pure _ | exact Only.getM | refine Only.bind ?_ fun _ => ?_ | exact hx | refine Only.onlyIf ?_

/-- What `fwdFlushed` can change. -/
def Feet.fwdFlushed : Mask := Feet.retTake

theorem fwdFlushed_only (sq : Nat) (q : Msg) :
    Only Feet.fwdFlushed.has (fwdFlushed sq q) := by
  unfold fwdFlushed
  with_reducible repeat' first
    | exact Only.pure _ | exact Only.getM | refine Only.bind ?_ fun _ => ?_
    | exact (retTake_only ..).le (by decide +kernel)

/-- What `flushedNotice` can change. -/
def Feet.flushedNotice : Mask := (.of [] [.spn] : Mask).plus [Feet.sqFlushed, Feet.crnFlushed, Feet.tmFlushed,
  Feet.missLost]

theorem flushedNotice_only (was : Op) (q : Msg) :
    Only Feet.flushedNotice.has (flushedNotice was q) := by
  simp only [flushedNotice, modSpn, getSpn, putSpn]
  with_reducible repeat' first
    | exact Only.pure _ | exact Only.getM | refine Only.bind ?_ fun _ => ?_ | refine Only.onlyIf ?_
    | refine Only.ite ?_ ?_ | exact Only.doT .spn rfl (by decide +kernel)
    | exact (sqFlushed_only ..).le (by decide +kernel) | exact (crnFlushed_only ..).le (by decide +kernel)
    | exact (tmFlushed_only ..).le (by decide +kernel) | exact (missLost_only ..).le (by decide +kernel)
    | exact (fwdFlushed_only ..).le (by decide +kernel) | split

/-- What `plazaWrite` can change. -/
def Feet.plazaWrite : Mask := Feet.slotLineWrite

theorem plazaWrite_only (v dpa tag mask : Nat) (data : List Word) (poison : Bool) :
    Only Feet.plazaWrite.has (plazaWrite v dpa tag mask data poison) := by
  unfold plazaWrite
  with_reducible repeat' first
    | exact Only.pure _ | exact Only.getM | refine Only.bind ?_ fun _ => ?_ | refine Only.ite ?_ ?_
    | exact (ldAnswer_only ..).le (by decide +kernel) | exact (slotLineWrite_only ..).le (by decide +kernel)

end Sys2Proof.Machine
end

