-- ==== Sys2Proof/Laws/At.lean ====
section
/-!
SUPPORT. The footprints of the operations that name registers by their operands, with those registers singly: what a command
about one port, ring, slot or Square does to registers of that kind, it does to that one.
-/
namespace Sys2Proof.Machine

set_option Elab.async false

/-- Whether an update keeps to a set and some single registers. -/
def At.has (M : Mask) (l : List Reg) (u : Upd) : Bool :=
  M.has u || match u with | .reg r _ => decide (r ∈ l) | _ => false

/-- Registers each of which a set or a list names. -/
def Cov (M : Mask) (l' : List Reg) : List Reg → Prop
  | [] => True
  | a :: t => (M.hasReg a.k = true ∨ a ∈ l') ∧ Cov M l' t

theorem Cov.nil {M : Mask} {l' : List Reg} : Cov M l' [] := trivial

theorem Cov.cons {M : Mask} {l' t : List Reg} {k : RegKind} {i : Nat} (h : M.hasReg k = true ∨ (⟨k, i⟩ : Reg) ∈ l')
    (ht : Cov M l' t) : Cov M l' (⟨k, i⟩ :: t) := ⟨h, ht⟩

theorem Cov.all {M : Mask} {l' : List Reg} : ∀ {l : List Reg}, Cov M l' l → ∀ a ∈ l, M.hasReg a.k = true ∨ a ∈ l'
  | [], _, a, h => by simp at h
  | b :: t, h, a, ha => by
    rcases List.mem_cons.1 ha with rfl | ha
    · exact h.1
    · exact Cov.all h.2 a ha

variable {α β : Type} {M A : Mask} {l l' : List Reg}

theorem atM {x : P α} (h : Only M.has x) : Only (At.has M l) x := h.mono fun u hu => by simp [At.has, hu]

theorem atLe {x : P α} (h : Only (At.has A l) x) (hle : A.le M = true) (hc : Cov M l' l) : Only (At.has M l') x := by
  refine h.mono fun u hu => ?_
  simp only [At.has, Bool.or_eq_true] at hu ⊢
  rcases hu with hu | hu
  · exact .inl (Mask.has_mono hle u hu)
  · cases u <;> simp at hu
    rename_i r v
    rcases hc.all r hu with h | h
    · exact .inl h
    · exact .inr (by simpa using h)

theorem at_wr {f : RF} {x : Nat} (h : (⟨f.k, f.i⟩ : Reg) ∈ l) : Only (At.has M l) (wr f x) :=
  Only.wr fun v => by simp [At.has, h]

theorem at_addSat {f : RF} {x : Nat} (h : (⟨f.k, f.i⟩ : Reg) ∈ l) : Only (At.has M l) (addSat f x) :=
  Only.addSat fun v => by simp [At.has, h]

theorem at_inc {f : RF} (h : (⟨f.k, f.i⟩ : Reg) ∈ l) : Only (At.has M l) (inc f) := at_addSat h

theorem at_addWrap {f : RF} {x : Nat} (h : (⟨f.k, f.i⟩ : Reg) ∈ l) : Only (At.has M l) (addWrap f x) :=
  Only.addWrap fun v => by simp [At.has, h]

theorem at_sub {f : RF} {x : Nat} (h : (⟨f.k, f.i⟩ : Reg) ∈ l) : Only (At.has M l) (sub f x) :=
  Only.bind (Only.bind Only.getM fun _ => Only.pure _) fun _ => at_wr h

theorem at_rst {k : RegKind} {i : Nat} (h : (⟨k, i⟩ : Reg) ∈ l) : Only (At.has M l) (rstReg k i) :=
  Only.doU (by simp [At.has, h])

theorem at_wrReg {k : RegKind} {i x : Nat} (h : (⟨k, i⟩ : Reg) ∈ l) : Only (At.has M l) (wrReg k i x) :=
  Only.doU (by simp [At.has, Mask.has, h])

theorem at_wrK {f : RF} {x : Nat} (k : RegKind) (hf : f.k = k) (h : M.hasReg k = true) : Only (At.has M l) (Machine.wr
    f x) :=
  atM (Only.wrK k hf h)

theorem at_incK {f : RF} (k : RegKind) (hf : f.k = k) (h : M.hasReg k = true) : Only (At.has M l) (Machine.inc f) :=
  atM (Only.incK k hf h)

theorem at_addSatK {f : RF} {x : Nat} (k : RegKind) (hf : f.k = k) (h : M.hasReg k = true) : Only (At.has M l)
    (Machine.addSat f x) :=
  atM (Only.addSatK k hf h)

theorem at_subK {f : RF} {x : Nat} (k : RegKind) (hf : f.k = k) (h : M.hasReg k = true) : Only (At.has M l)
    (Machine.sub f x) :=
  atM (Only.subK k hf h)

theorem at_addWrapK {f : RF} {x : Nat} (k : RegKind) (hf : f.k = k) (h : M.hasReg k = true) : Only (At.has M l)
    (Machine.addWrap f x) :=
  atM (Only.addWrapK k hf h)

theorem at_rstK {i : Nat} (k : RegKind) (h : M.hasReg k = true) : Only (At.has M l) (Machine.rstReg k i) :=
  atM (Only.rstK k h)

theorem at_wrRegK {i x : Nat} (k : RegKind) (h : M.hasReg k = true) : Only (At.has M l) (Machine.wrReg k i x) :=
  atM (Only.wrRegK k h)

theorem at_free (w : Nat) (h : M.hasTab .freeCtr = true) : Only (At.has M l) (Machine.freeBits w) :=
  atM (Only.free w h)

theorem at_doT {u : Upd} (t : Tab) (hu : u.tab = some t) (h : M.hasTab t = true) : Only (At.has M l) (Machine.doU u)
    :=
  atM (Only.doT t hu h)

theorem at_le {x : P α} (h : Only A.has x) (hle : A.le M = true) : Only (At.has M l) x := atM (h.le hle)

theorem at_countFirst {f : RF} {e : EvRec} (hM : Feet.raise.le M = true) (h : (⟨f.k, f.i⟩ : Reg) ∈ l) : Only (At.has M
    l) (countFirst f e) := by
  unfold countFirst
  refine Only.bind (Only.bind Only.getM fun _ => Only.pure _) fun v => Only.bind (at_inc h) fun _ => Only.onlyIf ?_
  exact at_le (raise_only e) hM

/-- What `memPoisoned` can change, but for the registers that it names by its operands. -/
def Feet.memPoisonedAt : Mask := .of [] [.evPend, .hlog]

theorem memPoisoned_at (mem cause inst obj : Nat) (f : EvRec → EvRec) :
    Only (At.has Feet.memPoisonedAt ([⟨.INT_CNT_POISON, mem⟩] : List Reg)) (memPoisoned mem cause inst obj f) := by
  unfold memPoisoned
  with_reducible repeat' first
    | exact Only.pure _ | exact Only.getM | refine Only.bind ?_ fun _ => ?_ | exact Only.rd _ | exact Only.rdReg _ _
    | (apply at_le (raise_only ..); decide +kernel) | refine at_inc ?_ | exact Cov.nil
    | refine Cov.cons (.inl (by decide +kernel)) ?_ | refine Cov.cons (.inr ?_) ?_ | exact List.mem_cons_self

/-- What `poisonReceived` can change, but for the registers that it names by its operands. -/
def Feet.poisonReceivedAt : Mask := .of [] [.evPend, .hlog]

theorem poisonReceived_at (p : Nat) (addr : Option Nat) :
    Only (At.has Feet.poisonReceivedAt ([⟨.INT_CNT_PIN, 2⟩] : List Reg)) (poisonReceived p addr) := by
  unfold poisonReceived
  with_reducible repeat' first
    | exact Only.pure _ | exact Only.getM | refine Only.bind ?_ fun _ => ?_ | exact Only.rd _ | exact Only.rdReg _ _
    | (apply at_le (raise_only ..); decide +kernel) | refine at_inc ?_ | exact Cov.nil
    | refine Cov.cons (.inl (by decide +kernel)) ?_ | refine Cov.cons (.inr ?_) ?_ | exact List.mem_cons_self

/-- What `memUncorrectable` can change, but for the registers that it names by its operands. -/
def Feet.memUncorrectableAt : Mask := .of [] [.evPend, .hlog]

theorem memUncorrectable_at (mem cause inst obj : Nat) (f : EvRec → EvRec) :
    Only (At.has Feet.memUncorrectableAt ([⟨.INT_CNT_UE, mem⟩] : List Reg)) (memUncorrectable mem cause inst obj f) :=
      by
  unfold memUncorrectable
  with_reducible repeat' first
    | exact Only.pure _ | exact Only.getM | refine Only.bind ?_ fun _ => ?_ | exact Only.rd _ | exact Only.rdReg _ _
    | (apply at_le (raise_only ..); decide +kernel) | refine at_inc ?_ | exact Cov.nil
    | refine Cov.cons (.inl (by decide +kernel)) ?_ | refine Cov.cons (.inr ?_) ?_ | exact List.mem_cons_self

/-- What `memCorrected` can change, but for the registers that it names by its operands. -/
def Feet.memCorrectedAt : Mask := .of [] [.evPend, .hlog]

theorem memCorrected_at (mem inst obj : Nat) :
    Only (At.has Feet.memCorrectedAt ([⟨.INT_CNT_CE, mem⟩] : List Reg)) (memCorrected mem inst obj) := by
  unfold memCorrected
  with_reducible repeat' first
    | exact Only.pure _ | exact Only.getM | refine Only.bind ?_ fun _ => ?_ | refine Only.onlyIf ?_ | exact Only.rd _
    | exact Only.rdReg _ _ | (apply at_le (raise_only ..); decide +kernel) | refine at_inc ?_ | exact Cov.nil
    | refine Cov.cons (.inl (by decide +kernel)) ?_ | refine Cov.cons (.inr ?_) ?_ | exact List.mem_cons_self

/-- What `spnTx` can change, but for the registers that it names by its operands. -/
def Feet.spnTxAt : Mask := .of [.TWN_SPN_CRED, .TWN_SPN_TXSEQ] [.out, .reel, .spnWait, .spn]

theorem spnTx_at (msg : Msg) :
    Only (At.has Feet.spnTxAt ([⟨.TWN_SPN_CNT, 0⟩] : List Reg)) (spnTx msg) := by
  simp only [spnTx, modReel, getReel, putReel, putSpnWait, modSpn, getSpn, putSpn]
  with_reducible repeat' first
    | exact Only.pure _ | exact Only.getM | refine Only.bind ?_ fun _ => ?_ | refine Only.onlyIf ?_
    | refine Only.ite ?_ ?_ | exact Only.rd _ | exact Only.rdReg _ _
    | exact at_addWrapK .TWN_SPN_CRED rfl (by decide +kernel)
    | exact at_addWrapK .TWN_SPN_TXSEQ rfl (by decide +kernel) | exact at_doT .reel rfl (by decide +kernel)
    | exact at_doT .spnWait rfl (by decide +kernel) | exact at_doT .spn rfl (by decide +kernel)
    | (apply at_le (emit_only ..); decide +kernel) | (apply at_le (reelShow_only ..); decide +kernel)
    | refine at_inc ?_ | exact Cov.nil | refine Cov.cons (.inl (by decide +kernel)) ?_ | refine Cov.cons (.inr ?_) ?_
    | exact List.mem_cons_self

/-- What `spnWaits` can change, but for the registers that it names by its operands. -/
def Feet.spnWaitsAt : Mask := .of [.TWN_SPN_STATUS] [.spnWait]

theorem spnWaits_at  :
    Only (At.has Feet.spnWaitsAt ([⟨.TWN_SPN_CNT, 11⟩, ⟨.TWN_SPN_CNT, 12⟩] : List Reg)) (spnWaits ) := by
  simp only [spnWaits, putSpnWait]
  with_reducible repeat' first
    | exact Only.pure _ | exact Only.getM | refine Only.bind ?_ fun _ => ?_ | refine Only.onlyIf ?_
    | refine Only.each fun _ _ => ?_ | refine Only.ite ?_ ?_ | exact Only.rd _ | exact Only.rdReg _ _
    | exact at_wrK .TWN_SPN_STATUS rfl (by decide +kernel) | exact at_doT .spnWait rfl (by decide +kernel)
    | refine at_inc ?_ | exact Cov.nil | refine Cov.cons (.inl (by decide +kernel)) ?_ | refine Cov.cons (.inr ?_) ?_
    | exact List.mem_cons_self | refine List.mem_cons_of_mem _ ?_ | split

/-- What `spnFree` can change, but for the registers that it names by its operands. -/
def Feet.spnFreeAt : Mask := .of [] [.out, .spnBuf]

theorem spnFree_at (vc : Nat) :
    Only (At.has Feet.spnFreeAt ([⟨.TWN_SPN_RCRED, vc⟩] : List Reg)) (spnFree vc) := by
  simp only [spnFree, putSpnBuf]
  with_reducible repeat' first
    | exact Only.pure _ | exact Only.getM | refine Only.bind ?_ fun _ => ?_ | refine Only.onlyIf ?_ | exact Only.rd _
    | exact Only.rdReg _ _ | exact at_doT .spnBuf rfl (by decide +kernel)
    | (apply at_le (statusSend_only ..); decide +kernel) | refine at_addWrap ?_ | refine at_sub ?_ | exact Cov.nil
    | refine Cov.cons (.inl (by decide +kernel)) ?_ | refine Cov.cons (.inr ?_) ?_ | exact List.mem_cons_self
    | refine List.mem_cons_of_mem _ ?_ | split

/-- What `mirrorCopy` can change, but for the registers that it names by its operands. -/
def Feet.mirrorCopyAt : Mask := .of [.XB_BUF_STATUS] [.evPend, .hlog, .xfree, .mir]

theorem mirrorCopy_at (s dir p : Nat) (refused : Bool) (msg : Msg) :
    Only (At.has Feet.mirrorCopyAt ([⟨.XB_MIR_CNT, s⟩] : List Reg)) (mirrorCopy s dir p refused msg) := by
  simp only [mirrorCopy, putMir]
  with_reducible repeat' first
    | exact Only.pure _ | exact Only.getM | refine Only.bind ?_ fun _ => ?_ | refine Only.ite ?_ ?_ | exact Only.rd _
    | exact Only.rdReg _ _ | exact at_doT .mir rfl (by decide +kernel)
    | (apply at_le (bobTake_only ..); decide +kernel) | refine at_countFirst (by decide +kernel) ?_ | exact Cov.nil
    | refine Cov.cons (.inl (by decide +kernel)) ?_ | refine Cov.cons (.inr ?_) ?_ | exact List.mem_cons_self

/-- What `mirrorBoth` can change, but for the registers that it names by its operands. -/
def Feet.mirrorBothAt : Mask := .of [.XB_BUF_STATUS] [.evPend, .hlog, .xfree, .mir]

theorem mirrorBoth_at (dir p : Nat) (refused : Bool) (msg : Msg) :
    Only (At.has Feet.mirrorBothAt ([⟨.XB_MIR_CNT, 0⟩, ⟨.XB_MIR_CNT, 1⟩] : List Reg)) (mirrorBoth dir p refused msg)
      := by
  unfold mirrorBoth
  with_reducible repeat' first
    | exact Only.pure _ | exact Only.getM | refine Only.bind ?_ fun _ => ?_ | exact Only.rd _ | exact Only.rdReg _ _
    | (apply atLe (mirrorCopy_at ..); focus decide +kernel) | exact Cov.nil
    | refine Cov.cons (.inl (by decide +kernel)) ?_ | refine Cov.cons (.inr ?_) ?_ | exact List.mem_cons_self
    | refine List.mem_cons_of_mem _ ?_

/-- What `deliver` can change, but for the registers that it names by its operands. -/
def Feet.deliverAt : Mask := .of [.PMU_BANK_OVF, .PMU_CNT, .TM_SPILL_STATUS, .TWN_SPN_CRED, .TWN_SPN_TXSEQ,
  .XB_BUF_STATUS] [.out, .evPend, .hlog, .port, .ring, .xfree, .owed, .mir, .sqin, .stampCtr, .sfree, .tq, .push,
  .kacc, .reel, .spnWait, .spn, .arrT]

theorem deliver_at (msg : Msg) :
    Only (At.has Feet.deliverAt ([⟨.TWN_SPN_CNT, 0⟩, ⟨.XB_MIR_CNT, 0⟩, ⟨.XB_MIR_CNT, 1⟩] : List Reg)) (deliver msg) :=
      by
  simp only [deliver, modPort, getPort, putPort, getStampCtr, putStampCtr, putArrT, modSqin, getSqin, putSqin, now]
  with_reducible repeat' first
    | exact Only.pure _ | exact Only.getM | refine Only.bind ?_ fun _ => ?_ | refine Only.onlyIf ?_
    | refine Only.ite ?_ ?_ | exact Only.rd _ | exact Only.rdReg _ _ | exact at_doT .port rfl (by decide +kernel)
    | exact at_doT .sqin rfl (by decide +kernel) | exact at_doT .stampCtr rfl (by decide +kernel)
    | exact at_doT .arrT rfl (by decide +kernel) | (apply at_le (emit_only ..); decide +kernel)
    | (apply at_le (pmuCount_only ..); decide +kernel) | (apply at_le (kerbDone_only ..); decide +kernel)
    | (apply at_le (spillLanded_only ..); decide +kernel) | (apply at_le (ringLanded_only ..); decide +kernel)
    | (apply atLe (spnTx_at ..); focus decide +kernel) | (apply atLe (mirrorBoth_at ..); focus decide +kernel)
    | (apply at_le (owe_only ..); decide +kernel) | exact Cov.nil | refine Cov.cons (.inl (by decide +kernel)) ?_
    | refine Cov.cons (.inr ?_) ?_ | exact List.mem_cons_self | refine List.mem_cons_of_mem _ ?_

/-- What `popIn` can change, but for the registers that it names by its operands. -/
def Feet.popInAt : Mask := .of [] [.out, .xin, .xwait, .spnBuf]

theorem popIn_at (i c : Nat) :
    Only (At.has Feet.popInAt ([⟨.TWN_SPN_RCRED, c⟩] : List Reg)) (popIn i c) := by
  simp only [popIn, modXin, getXin, putXin, putXwait]
  with_reducible repeat' first
    | exact Only.pure _ | exact Only.getM | refine Only.bind ?_ fun _ => ?_ | refine Only.onlyIf ?_ | exact Only.rd _
    | exact Only.rdReg _ _ | exact at_doT .xin rfl (by decide +kernel) | exact at_doT .xwait rfl (by decide +kernel)
    | (apply at_le (emit_only ..); decide +kernel) | (apply atLe (spnFree_at ..); focus decide +kernel)
    | exact Cov.nil | refine Cov.cons (.inl (by decide +kernel)) ?_ | refine Cov.cons (.inr ?_) ?_
    | exact List.mem_cons_self | refine List.mem_cons_of_mem _ ?_ | split

/-- What `dispatchOne` can change, but for the registers that it names by its operands. -/
def Feet.dispatchOneAt : Mask := .of [.PMU_BANK_OVF, .PMU_CNT, .TM_SPILL_STATUS, .TWN_SPN_CRED, .TWN_SPN_TXSEQ,
  .XB_BUF_STATUS, .XB_CNT] [.out, .evPend, .hlog, .port, .ring, .xin, .stg, .flowt, .xfree, .owed, .mir, .xwait,
  .xacct, .sqin, .stampCtr, .sfree, .tq, .push, .kacc, .reel, .spnBuf, .spnWait, .spn, .arrT]

theorem dispatchOne_at (i c : Nat) (msg : Msg) :
    Only (At.has Feet.dispatchOneAt ([⟨.TWN_SPN_CNT, 0⟩, ⟨.TWN_SPN_RCRED, c⟩, ⟨.XB_MIR_CNT, 0⟩, ⟨.XB_MIR_CNT, 1⟩] :
      List Reg)) (dispatchOne i c msg) := by
  simp only [dispatchOne, modStg, getStg, putStg]
  with_reducible repeat' first
    | exact Only.pure _ | exact Only.getM | refine Only.bind ?_ fun _ => ?_ | refine Only.ite ?_ ?_ | exact Only.rd _
    | exact Only.rdReg _ _ | exact at_incK .XB_CNT rfl (by decide +kernel)
    | exact at_doT .stg rfl (by decide +kernel) | (apply at_le (bufTake_only ..); decide +kernel)
    | (apply at_le (discard_only ..); decide +kernel) | (apply atLe (deliver_at ..); focus decide +kernel)
    | (apply at_le (flowDispatch_only ..); decide +kernel) | (apply atLe (popIn_at ..); focus decide +kernel)
    | (apply at_le (headWaits_only ..); decide +kernel) | exact Cov.nil
    | refine Cov.cons (.inl (by decide +kernel)) ?_ | refine Cov.cons (.inr ?_) ?_ | exact List.mem_cons_self
    | refine List.mem_cons_of_mem _ ?_ | split

/-- What `dispatchFabric` can change, but for the registers that it names by its operands. -/
def Feet.dispatchFabricAt : Mask := .of [.XB_BUF_STATUS, .XB_CNT] [.out, .xin, .stg, .flowt, .xfree, .xwait, .xacct,
  .spnBuf]

theorem dispatchFabric_at (i c : Nat) (a : Msg) (ms : List Msg) :
    Only (At.has Feet.dispatchFabricAt ([⟨.TWN_SPN_RCRED, c⟩] : List Reg)) (dispatchFabric i c a ms) := by
  simp only [dispatchFabric, modStg, getStg, putStg]
  with_reducible repeat' first
    | exact Only.pure _ | exact Only.getM | refine Only.bind ?_ fun _ => ?_ | refine Only.each fun _ _ => ?_
    | refine Only.ite ?_ ?_ | exact Only.rd _ | exact Only.rdReg _ _ | exact at_incK .XB_CNT rfl (by decide +kernel)
    | exact at_doT .stg rfl (by decide +kernel) | (apply at_le (bobTake_only ..); decide +kernel)
    | (apply at_le (acctAdd_only ..); decide +kernel) | (apply at_le (flowDispatch_only ..); decide +kernel)
    | (apply atLe (popIn_at ..); focus decide +kernel) | (apply at_le (headWaits_only ..); decide +kernel)
    | exact Cov.nil | refine Cov.cons (.inl (by decide +kernel)) ?_ | refine Cov.cons (.inr ?_) ?_
    | exact List.mem_cons_self | refine List.mem_cons_of_mem _ ?_ | split

/-- What `dispatchHead` can change, but for the registers that it names by its operands. -/
def Feet.dispatchHeadAt : Mask := .of [.PMU_BANK_OVF, .PMU_CNT, .TM_SPILL_STATUS, .TWN_SPN_CRED, .TWN_SPN_TXSEQ,
  .XB_BUF_STATUS, .XB_CNT] [.out, .evPend, .hlog, .port, .ring, .xin, .stg, .flowt, .xfree, .owed, .mir, .xwait,
  .xacct, .sqin, .stampCtr, .sfree, .tq, .push, .kacc, .reel, .spnBuf, .spnWait, .spn, .arrT]

theorem dispatchHead_at (i c : Nat) :
    Only (At.has Feet.dispatchHeadAt ([⟨.TWN_SPN_CNT, 0⟩, ⟨.TWN_SPN_RCRED, c⟩, ⟨.XB_MIR_CNT, 0⟩, ⟨.XB_MIR_CNT, 1⟩] :
      List Reg)) (dispatchHead i c) := by
  simp only [dispatchHead, modXin, getXin, putXin]
  with_reducible repeat' first
    | exact Only.pure _ | exact Only.getM | refine Only.bind ?_ fun _ => ?_ | refine Only.each fun _ _ => ?_
    | refine Only.ite ?_ ?_ | exact Only.rd _ | exact Only.rdReg _ _ | exact at_incK .XB_CNT rfl (by decide +kernel)
    | exact at_doT .xin rfl (by decide +kernel) | (apply at_le (discard_only ..); decide +kernel)
    | (apply atLe (popIn_at ..); focus decide +kernel) | (apply atLe (dispatchOne_at ..); focus decide +kernel)
    | (apply atLe (dispatchFabric_at ..); focus decide +kernel) | exact Cov.nil
    | refine Cov.cons (.inl (by decide +kernel)) ?_ | refine Cov.cons (.inr ?_) ?_ | exact List.mem_cons_self
    | refine List.mem_cons_of_mem _ ?_ | split

/-- What `mirrorSend` can change, but for the registers that it names by its operands. -/
def Feet.mirrorSendAt : Mask := .of [.XB_BUF_STATUS] [.out, .xfree, .mir]

theorem mirrorSend_at (s : Nat) :
    Only (At.has Feet.mirrorSendAt ([⟨.XB_MIR_CNT, s⟩] : List Reg)) (mirrorSend s) := by
  simp only [mirrorSend, putMir]
  with_reducible repeat' first
    | exact Only.pure _ | exact Only.getM | refine Only.bind ?_ fun _ => ?_ | refine Only.onlyIf ?_
    | refine Only.each fun _ _ => ?_ | refine Only.ite ?_ ?_ | exact Only.rd _ | exact Only.rdReg _ _
    | exact at_doT .mir rfl (by decide +kernel) | (apply at_le (emit_only ..); decide +kernel)
    | (apply at_le (bobReturn_only ..); decide +kernel) | refine at_addSat ?_ | exact Cov.nil
    | refine Cov.cons (.inl (by decide +kernel)) ?_ | refine Cov.cons (.inr ?_) ?_ | exact List.mem_cons_self
    | refine List.mem_cons_of_mem _ ?_ | split

/-- What `outputSend` can change, but for the registers that it names by its operands. -/
def Feet.outputSendAt : Mask := .of [.PMU_BANK_OVF, .PMU_CNT, .TM_SPILL_STATUS, .TWN_SPN_CRED, .TWN_SPN_STATUS,
  .TWN_SPN_TXSEQ, .XB_BUF_STATUS, .XB_MIR_CNT] [.out, .evPend, .hlog, .port, .ring, .xq, .xdef, .xturn, .xaged, .mcs,
  .mcq, .xfree, .owed, .mir, .xacct, .sqin, .stampCtr, .sfree, .tq, .push, .kacc, .reel, .spnWait, .spn, .arrT]

theorem outputSend_at (ep : Nat) :
    Only (At.has Feet.outputSendAt ([⟨.TWN_SPN_CNT, 0⟩, ⟨.TWN_SPN_CNT, 11⟩, ⟨.TWN_SPN_CNT, 12⟩] : List Reg))
      (outputSend ep) := by
  simp only [outputSend, putXdef, putXturn]
  with_reducible repeat' first
    | exact Only.pure _ | exact Only.getM | refine Only.bind ?_ fun _ => ?_ | refine Only.onlyIf ?_
    | refine Only.each fun _ _ => ?_ | refine Only.ite ?_ ?_ | exact Only.rd _ | exact Only.rdReg _ _
    | exact at_doT .xdef rfl (by decide +kernel) | exact at_doT .xturn rfl (by decide +kernel)
    | (apply atLe (spnWaits_at ..); focus decide +kernel) | (apply atLe (deliver_at ..); focus decide +kernel)
    | (apply at_le (popQueue_only ..); decide +kernel) | (apply atLe (mirrorSend_at ..); focus decide +kernel)
    | exact Cov.nil | refine Cov.cons (.inl (by decide +kernel)) ?_ | refine Cov.cons (.inr ?_) ?_
    | exact List.mem_cons_self | refine List.mem_cons_of_mem _ ?_ | split

/-- What `gateUpdate` can change, but for the registers that it names by its operands. -/
def Feet.gateUpdateAt : Mask := .of [] []

theorem gateUpdate_at (c : Nat) :
    Only (At.has Feet.gateUpdateAt ([⟨.RNG_CNT, c⟩, ⟨.RNG_STATUS, c⟩] : List Reg)) (gateUpdate c) := by
  unfold gateUpdate
  with_reducible repeat' first
    | exact Only.pure _ | exact Only.getM | refine Only.bind ?_ fun _ => ?_ | refine Only.onlyIf ?_
    | refine Only.ite ?_ ?_ | exact Only.rd _ | exact Only.rdReg _ _ | refine at_inc ?_ | refine at_wr ?_
    | exact Cov.nil | refine Cov.cons (.inl (by decide +kernel)) ?_ | refine Cov.cons (.inr ?_) ?_
    | exact List.mem_cons_self | refine List.mem_cons_of_mem _ ?_

/-- What `resultDiscard` can change, but for the registers that it names by its operands. -/
def Feet.resultDiscardAt : Mask := .of [] []

theorem resultDiscard_at (c : Nat) :
    Only (At.has Feet.resultDiscardAt ([⟨.RNG_CNT, c⟩, ⟨.RNG_PROG, c⟩, ⟨.RNG_STATUS, c⟩] : List Reg)) (resultDiscard
      c) := by
  unfold resultDiscard
  with_reducible repeat' first
    | exact Only.pure _ | exact Only.getM | refine Only.bind ?_ fun _ => ?_ | exact Only.rd _ | exact Only.rdReg _ _
    | (apply atLe (gateUpdate_at ..); focus decide +kernel) | refine at_inc ?_ | refine at_sub ?_ | exact Cov.nil
    | refine Cov.cons (.inl (by decide +kernel)) ?_ | refine Cov.cons (.inr ?_) ?_ | exact List.mem_cons_self
    | refine List.mem_cons_of_mem _ ?_

/-- What `ringErrorOne` can change, but for the registers that it names by its operands. -/
def Feet.ringErrorOneAt : Mask := .of [] [.evPend, .hlog]

theorem ringErrorOne_at (r cause idx : Nat) :
    Only (At.has Feet.ringErrorOneAt ([⟨.RNG_STATUS, r⟩] : List Reg)) (ringErrorOne r cause idx) := by
  unfold ringErrorOne
  with_reducible repeat' first
    | exact Only.pure _ | exact Only.getM | refine Only.bind ?_ fun _ => ?_ | exact Only.rd _ | exact Only.rdReg _ _
    | (apply at_le (ringEvent_only ..); decide +kernel) | refine at_wr ?_ | exact Cov.nil
    | refine Cov.cons (.inl (by decide +kernel)) ?_ | refine Cov.cons (.inr ?_) ?_ | exact List.mem_cons_self

/-- What `ringError` can change, but for the registers that it names by its operands. -/
def Feet.ringErrorAt : Mask := .of [.RNG_STATUS] [.evPend, .hlog, .ring]

theorem ringError_at (r cause idx : Nat) :
    Only (At.has Feet.ringErrorAt ([⟨.RNG_CNT, r⟩, ⟨.RNG_PROG, r⟩] : List Reg)) (ringError r cause idx) := by
  simp only [ringError, modRing, getRing, putRing]
  with_reducible repeat' first
    | exact Only.pure _ | exact Only.getM | refine Only.bind ?_ fun _ => ?_ | refine Only.onlyIf ?_
    | refine Only.each fun _ _ => ?_ | refine Only.ite ?_ ?_ | exact Only.rd _ | exact Only.rdReg _ _
    | exact at_wrK .RNG_STATUS rfl (by decide +kernel) | exact at_doT .ring rfl (by decide +kernel)
    | (apply atLe (resultDiscard_at ..); focus decide +kernel)
    | (apply atLe (ringErrorOne_at ..); focus decide +kernel) | exact Cov.nil
    | refine Cov.cons (.inl (by decide +kernel)) ?_ | refine Cov.cons (.inr ?_) ?_ | exact List.mem_cons_self
    | refine List.mem_cons_of_mem _ ?_

/-- What `takeSlots` can change, but for the registers that it names by its operands. -/
def Feet.takeSlotsAt : Mask := .of [] [.ring]

theorem takeSlots_at (r n : Nat) :
    Only (At.has Feet.takeSlotsAt ([⟨.RNG_IDX, r⟩] : List Reg)) (takeSlots r n) := by
  simp only [takeSlots, modRing, getRing, putRing]
  with_reducible repeat' first
    | exact Only.pure _ | exact Only.getM | refine Only.bind ?_ fun _ => ?_ | exact Only.rd _ | exact Only.rdReg _ _
    | exact at_doT .ring rfl (by decide +kernel) | refine at_addWrap ?_ | exact Cov.nil
    | refine Cov.cons (.inl (by decide +kernel)) ?_ | refine Cov.cons (.inr ?_) ?_ | exact List.mem_cons_self

/-- What `checkHead` can change, but for the registers that it names by its operands. -/
def Feet.checkHeadAt : Mask := .of [.RNG_STATUS] [.evPend, .hlog, .ring]

theorem checkHead_at (r : Nat) (n : Nat) :
    Only (At.has Feet.checkHeadAt ([⟨.RNG_CNT, r⟩, ⟨.RNG_IDX, r⟩, ⟨.RNG_PROG, r⟩] : List Reg)) (checkHead r n) := by
  induction n with
  | zero =>
    unfold checkHead
    with_reducible repeat' first
    | exact ih .. | exact Only.pure _
  | succ n ih =>
    unfold checkHead
    with_reducible repeat' first
    | exact ih .. | exact Only.pure _ | exact Only.getM | refine Only.bind ?_ fun _ => ?_ | refine Only.ite ?_ ?_
    | exact Only.rd _ | exact Only.rdReg _ _ | (apply atLe (ringError_at ..); focus decide +kernel)
    | (apply atLe (takeSlots_at ..); focus decide +kernel) | exact Cov.nil
    | refine Cov.cons (.inl (by decide +kernel)) ?_ | refine Cov.cons (.inr ?_) ?_ | exact List.mem_cons_self
    | refine List.mem_cons_of_mem _ ?_ | split

/-- What `fetchFail` can change, but for the registers that it names by its operands. -/
def Feet.fetchFailAt : Mask := .of [.RNG_STATUS] [.evPend, .hlog, .ring]

theorem fetchFail_at (r st cause : Nat) :
    Only (At.has Feet.fetchFailAt ([⟨.RNG_CNT, r⟩, ⟨.RNG_PROG, r⟩] : List Reg)) (fetchFail r st cause) := by
  simp only [fetchFail, modRing, getRing, putRing]
  with_reducible repeat' first
    | exact Only.pure _ | exact Only.getM | refine Only.bind ?_ fun _ => ?_ | exact Only.rd _ | exact Only.rdReg _ _
    | exact at_doT .ring rfl (by decide +kernel) | (apply atLe (ringError_at ..); focus decide +kernel)
    | exact Cov.nil | refine Cov.cons (.inl (by decide +kernel)) ?_ | refine Cov.cons (.inr ?_) ?_
    | exact List.mem_cons_self | refine List.mem_cons_of_mem _ ?_

/-- What `fetchCompletion` can change, but for the registers that it names by its operands. -/
def Feet.fetchCompletionAt : Mask := .of [.RNG_STATUS] [.out, .evPend, .hlog, .ring]

theorem fetchCompletion_at (r st : Nat) (ok poison : Bool) (ws : List Word) :
    Only (At.has Feet.fetchCompletionAt ([⟨.INT_CNT_PIN, 2⟩, ⟨.RNG_CNT, r⟩, ⟨.RNG_IDX, r⟩, ⟨.RNG_PROG, r⟩] : List
      Reg)) (fetchCompletion r st ok poison ws) := by
  simp only [fetchCompletion, modRing, getRing, putRing]
  with_reducible repeat' first
    | exact Only.pure _ | exact Only.getM | refine Only.bind ?_ fun _ => ?_ | refine Only.onlyIf ?_
    | refine Only.ite ?_ ?_ | exact Only.rd _ | exact Only.rdReg _ _ | exact at_doT .ring rfl (by decide +kernel)
    | (apply at_le (emit_only ..); decide +kernel) | (apply atLe (poisonReceived_at ..); focus decide +kernel)
    | (apply atLe (checkHead_at ..); focus decide +kernel) | (apply atLe (fetchFail_at ..); focus decide +kernel)
    | refine at_wr ?_ | exact Cov.nil | refine Cov.cons (.inl (by decide +kernel)) ?_ | refine Cov.cons (.inr ?_) ?_
    | exact List.mem_cons_self | refine List.mem_cons_of_mem _ ?_ | split

/-- What `fetchTimeout` can change, but for the registers that it names by its operands. -/
def Feet.fetchTimeoutAt : Mask := .of [.RNG_STATUS] [.evPend, .hlog, .ring]

theorem fetchTimeout_at (r st : Nat) :
    Only (At.has Feet.fetchTimeoutAt ([⟨.RNG_CNT, r⟩, ⟨.RNG_PROG, r⟩] : List Reg)) (fetchTimeout r st) := by
  unfold fetchTimeout
  with_reducible repeat' first
    | exact Only.pure _ | exact Only.getM | refine Only.bind ?_ fun _ => ?_ | refine Only.onlyIf ?_ | exact Only.rd _
    | exact Only.rdReg _ _ | (apply atLe (fetchFail_at ..); focus decide +kernel) | exact Cov.nil
    | refine Cov.cons (.inl (by decide +kernel)) ?_ | refine Cov.cons (.inr ?_) ?_ | exact List.mem_cons_self
    | refine List.mem_cons_of_mem _ ?_

/-- What `ringDisabled` can change, but for the registers that it names by its operands. -/
def Feet.ringDisabledAt : Mask := .of [] [.ring]

theorem ringDisabled_at (r : Nat) :
    Only (At.has Feet.ringDisabledAt ([⟨.RNG_CNT, r⟩, ⟨.RNG_CTL, r⟩, ⟨.RNG_PROG, r⟩, ⟨.RNG_STATUS, r⟩] : List Reg))
      (ringDisabled r) := by
  simp only [ringDisabled, modRing, getRing, putRing]
  with_reducible repeat' first
    | exact Only.pure _ | exact Only.getM | refine Only.bind ?_ fun _ => ?_ | refine Only.onlyIf ?_ | exact Only.rd _
    | exact Only.rdReg _ _ | exact at_doT .ring rfl (by decide +kernel)
    | (apply atLe (gateUpdate_at ..); focus decide +kernel) | refine at_wr ?_ | exact Cov.nil
    | refine Cov.cons (.inl (by decide +kernel)) ?_ | refine Cov.cons (.inr ?_) ?_ | exact List.mem_cons_self
    | refine List.mem_cons_of_mem _ ?_

/-- What `ringStopped` can change, but for the registers that it names by its operands. -/
def Feet.ringStoppedAt : Mask := .of [] [.ring]

theorem ringStopped_at (r : Nat) :
    Only (At.has Feet.ringStoppedAt ([⟨.RNG_CNT, r⟩, ⟨.RNG_CTL, r⟩, ⟨.RNG_PROG, r⟩, ⟨.RNG_STATUS, r⟩] : List Reg))
      (ringStopped r) := by
  unfold ringStopped
  with_reducible repeat' first
    | exact Only.pure _ | exact Only.getM | refine Only.bind ?_ fun _ => ?_ | refine Only.onlyIf ?_ | exact Only.rd _
    | exact Only.rdReg _ _ | (apply atLe (ringDisabled_at ..); focus decide +kernel) | exact Cov.nil
    | refine Cov.cons (.inl (by decide +kernel)) ?_ | refine Cov.cons (.inr ?_) ?_ | exact List.mem_cons_self
    | refine List.mem_cons_of_mem _ ?_

/-- What `ringStopTimeout` can change, but for the registers that it names by its operands. -/
def Feet.ringStopTimeoutAt : Mask := .of [] [.evPend, .hlog, .ring]

theorem ringStopTimeout_at (r : Nat) :
    Only (At.has Feet.ringStopTimeoutAt ([⟨.RNG_CNT, r⟩, ⟨.RNG_CTL, r⟩, ⟨.RNG_PROG, r⟩, ⟨.RNG_STATUS, r⟩] : List Reg))
      (ringStopTimeout r) := by
  unfold ringStopTimeout
  with_reducible repeat' first
    | exact Only.pure _ | exact Only.getM | refine Only.bind ?_ fun _ => ?_ | refine Only.each fun _ _ => ?_
    | refine Only.ite ?_ ?_ | exact Only.rd _ | exact Only.rdReg _ _
    | (apply at_le (ringEvent_only ..); decide +kernel) | (apply atLe (resultDiscard_at ..); focus decide +kernel)
    | (apply atLe (ringDisabled_at ..); focus decide +kernel) | refine at_wr ?_ | exact Cov.nil
    | refine Cov.cons (.inl (by decide +kernel)) ?_ | refine Cov.cons (.inr ?_) ?_ | exact List.mem_cons_self
    | refine List.mem_cons_of_mem _ ?_

/-- What `sqInc` can change, but for the registers that it names by its operands. -/
def Feet.sqIncAt : Mask := .of [] []

theorem sqInc_at (sq c : Nat) :
    Only (At.has Feet.sqIncAt ([⟨.SQ_CNT, sq * 32 + c⟩] : List Reg)) (sqInc sq c) := by
  unfold sqInc
  with_reducible repeat' first
    | exact Only.pure _ | exact Only.getM | refine Only.bind ?_ fun _ => ?_ | exact Only.rd _ | exact Only.rdReg _ _
    | refine at_inc ?_ | exact Cov.nil | refine Cov.cons (.inl (by decide +kernel)) ?_ | refine Cov.cons (.inr ?_) ?_
    | exact List.mem_cons_self

/-- What `settleTie` can change, but for the registers that it names by its operands. -/
def Feet.settleTieAt : Mask := .of [.SQ_CNT] [.sqin]

theorem settleTie_at (sq n : Nat) :
    Only (At.has Feet.settleTieAt ([⟨.SQ_ORD_STATUS, sq⟩] : List Reg)) (settleTie sq n) := by
  simp only [settleTie, putSqin]
  with_reducible repeat' first
    | exact Only.pure _ | exact Only.getM | refine Only.bind ?_ fun _ => ?_ | refine Only.onlyIf ?_
    | refine Only.ite ?_ ?_ | exact Only.rd _ | exact Only.rdReg _ _ | exact at_doT .sqin rfl (by decide +kernel)
    | (apply atLe (sqInc_at ..); focus decide +kernel) | refine at_wr ?_ | exact Cov.nil
    | refine Cov.cons (.inl (by decide +kernel)) ?_ | refine Cov.cons (.inr ?_) ?_ | exact List.mem_cons_self
    | refine List.mem_cons_of_mem _ ?_ | split

/-- What `squareLookup` can change, but for the registers that it names by its operands. -/
def Feet.squareLookupAt : Mask := .of [.PMU_BANK_OVF, .PMU_CNT, .SQ_CNT, .TWN_CNT, .TWN_ROLE, .TWN_SETTLE] [.evPend,
  .hlog, .xin, .sqin, .dir, .trk, .specT, .memT, .mru, .bic, .sqx, .crec, .cwait, .mtt, .twx, .kacc, .arrT]

theorem squareLookup_at (sq tie : Nat) (bad : Option Nat) :
    Only (At.has Feet.squareLookupAt ([⟨.SQ_ORD_STATUS, sq⟩] : List Reg)) (squareLookup sq tie bad) := by
  simp only [squareLookup, putSqx, modSqx, getSqx]
  with_reducible repeat' first
    | exact Only.pure _ | exact Only.getM | refine Only.bind ?_ fun _ => ?_ | refine Only.onlyIf ?_ | exact Only.rd _
    | exact Only.rdReg _ _ | exact at_doT .sqx rfl (by decide +kernel)
    | (apply at_le (serveReq_only ..); decide +kernel) | (apply at_le (serveWb_only ..); decide +kernel)
    | (apply atLe (settleTie_at ..); focus decide +kernel) | (apply at_le (tryHeads_only ..); decide +kernel)
    | exact Cov.nil | refine Cov.cons (.inl (by decide +kernel)) ?_ | refine Cov.cons (.inr ?_) ?_
    | exact List.mem_cons_self | refine List.mem_cons_of_mem _ ?_ | split

/-- What `evictWindow` can change, but for the registers that it names by its operands. -/
def Feet.evictWindowAt : Mask := .of [] [.evPend, .hlog, .sqx]

theorem evictWindow_at (sq : Nat) :
    Only (At.has Feet.evictWindowAt ([⟨.SQ_EVICT_STAT, sq⟩] : List Reg)) (evictWindow sq) := by
  simp only [evictWindow, modSqx, getSqx, putSqx]
  with_reducible repeat' first
    | exact Only.pure _ | exact Only.getM | refine Only.bind ?_ fun _ => ?_ | refine Only.onlyIf ?_
    | refine Only.ite ?_ ?_ | exact Only.rd _ | exact Only.rdReg _ _ | exact at_doT .sqx rfl (by decide +kernel)
    | (apply at_le (raise_only ..); decide +kernel) | refine at_wr ?_ | exact Cov.nil
    | refine Cov.cons (.inl (by decide +kernel)) ?_ | refine Cov.cons (.inr ?_) ?_ | exact List.mem_cons_self

/-- What `probeDone` can change, but for the registers that it names by its operands. -/
def Feet.probeDoneAt : Mask := .of [] [.sqx]

theorem probeDone_at (sq : Nat) :
    Only (At.has Feet.probeDoneAt ([⟨.SQ_PROBE_RESULT, sq⟩, ⟨.SQ_PROBE_SHARERS, sq⟩] : List Reg)) (probeDone sq) := by
  simp only [probeDone, modSqx, getSqx, putSqx]
  with_reducible repeat' first
    | exact Only.pure _ | exact Only.getM | refine Only.bind ?_ fun _ => ?_ | refine Only.ite ?_ ?_ | exact Only.rd _
    | exact Only.rdReg _ _ | exact at_doT .sqx rfl (by decide +kernel) | refine at_wrReg ?_ | refine at_wr ?_
    | exact Cov.nil | refine Cov.cons (.inl (by decide +kernel)) ?_ | refine Cov.cons (.inr ?_) ?_
    | exact List.mem_cons_self | refine List.mem_cons_of_mem _ ?_ | split

/-- What `purgeDone` can change, but for the registers that it names by its operands. -/
def Feet.purgeDoneAt : Mask := .of [.PMU_BANK_OVF, .PMU_CNT, .SQ_CNT, .TWN_CNT] [.evPend, .hlog, .xin, .dir, .trk,
  .memT, .sqx, .kacc]

theorem purgeDone_at (sq : Nat) :
    Only (At.has Feet.purgeDoneAt ([⟨.SQ_PURGE_MASK, sq⟩, ⟨.SQ_PURGE_STATUS, sq⟩] : List Reg)) (purgeDone sq) := by
  simp only [purgeDone, modSqx, getSqx, putSqx]
  with_reducible repeat' first
    | exact Only.pure _ | exact Only.getM | refine Only.bind ?_ fun _ => ?_ | refine Only.each fun _ _ => ?_
    | refine Only.ite ?_ ?_ | exact Only.rd _ | exact Only.rdReg _ _ | exact at_doT .sqx rfl (by decide +kernel)
    | (apply at_le (raise_only ..); decide +kernel) | (apply atLe (sqInc_at ..); focus decide +kernel)
    | (apply at_le (purgeWrite_only ..); decide +kernel) | (apply at_le (entryChange_only ..); decide +kernel)
    | refine at_wr ?_ | exact Cov.nil | refine Cov.cons (.inl (by decide +kernel)) ?_ | refine Cov.cons (.inr ?_) ?_
    | exact List.mem_cons_self | refine List.mem_cons_of_mem _ ?_

/-- What `crnHand` can change, but for the registers that it names by its operands. -/
def Feet.crnHandAt : Mask := .of [.PMU_BANK_OVF, .PMU_CNT] [.xin, .crn, .kacc]

theorem crnHand_at (p line : Nat) (op : Op) (x : List Nat) (settledHead : Bool) :
    Only (At.has Feet.crnHandAt ([⟨.OCT_CRN_CNT_RETURN, p / 4⟩] : List Reg)) (crnHand p line op x settledHead) := by
  simp only [crnHand, getCrn, putCrn]
  with_reducible repeat' first
    | exact Only.pure _ | exact Only.getM | refine Only.bind ?_ fun _ => ?_ | refine Only.onlyIf ?_
    | refine Only.each fun _ _ => ?_ | refine Only.ite ?_ ?_ | exact Only.rd _ | exact Only.rdReg _ _
    | exact at_doT .crn rfl (by decide +kernel) | (apply at_le (crnSend_only ..); decide +kernel)
    | (apply at_le (crnWaiter_only ..); decide +kernel) | refine at_inc ?_ | exact Cov.nil
    | refine Cov.cons (.inl (by decide +kernel)) ?_ | refine Cov.cons (.inr ?_) ?_ | exact List.mem_cons_self

/-- What `crnSelf` can change, but for the registers that it names by its operands. -/
def Feet.crnSelfAt : Mask := .of [.PMU_BANK_OVF, .PMU_CNT] [.xin, .crn, .kacc]

theorem crnSelf_at (p line : Nat) (w : Waiting) :
    Only (At.has Feet.crnSelfAt ([⟨.OCT_CRN_CNT_RETURN, p / 4⟩] : List Reg)) (crnSelf p line w) := by
  unfold crnSelf
  with_reducible repeat' first
    | exact Only.pure _ | exact Only.getM | refine Only.bind ?_ fun _ => ?_ | exact Only.rd _ | exact Only.rdReg _ _
    | (apply atLe (crnHand_at ..); focus decide +kernel) | exact Cov.nil
    | refine Cov.cons (.inl (by decide +kernel)) ?_ | refine Cov.cons (.inr ?_) ?_ | exact List.mem_cons_self

/-- What `crnGrant` can change, but for the registers that it names by its operands. -/
def Feet.crnGrantAt : Mask := .of [.PMU_BANK_OVF, .PMU_CNT, .SQ_CNT] [.xin, .kacc]

theorem crnGrant_at (p : Nat) (w : Waiting) (c : Crn) :
    Only (At.has Feet.crnGrantAt ([⟨.OCT_CRN_CNT_XFER, p / 4⟩] : List Reg)) (crnGrant p w c) := by
  unfold crnGrant
  with_reducible repeat' first
    | exact Only.pure _ | exact Only.getM | refine Only.bind ?_ fun _ => ?_ | refine Only.onlyIf ?_
    | refine Only.ite ?_ ?_ | exact Only.rd _ | exact Only.rdReg _ _ | (apply at_le (xsend_only ..); decide +kernel)
    | (apply atLe (sqInc_at ..); focus decide +kernel) | refine at_inc ?_ | exact Cov.nil
    | refine Cov.cons (.inl (by decide +kernel)) ?_ | refine Cov.cons (.inr ?_) ?_ | exact List.mem_cons_self
    | refine List.mem_cons_of_mem _ ?_ | split

/-- What `crnStep` can change, but for the registers that it names by its operands. -/
def Feet.crnStepAt : Mask := .of [.PMU_BANK_OVF, .PMU_CNT, .SQ_CNT] [.xin, .bic, .crn, .kacc]

theorem crnStep_at (p line : Nat) :
    Only (At.has Feet.crnStepAt ([⟨.OCT_CRN_CNT_RETURN, p / 4⟩, ⟨.OCT_CRN_CNT_XFER, p / 4⟩] : List Reg)) (crnStep p
      line) := by
  simp only [crnStep, modCrn, getCrn, putCrn]
  with_reducible repeat' first
    | exact Only.pure _ | exact Only.getM | refine Only.bind ?_ fun _ => ?_ | refine Only.ite ?_ ?_ | exact Only.rd _
    | exact Only.rdReg _ _ | exact at_doT .crn rfl (by decide +kernel)
    | (apply atLe (sqInc_at ..); focus decide +kernel) | (apply at_le (conflictsAck_only ..); decide +kernel)
    | (apply atLe (crnHand_at ..); focus decide +kernel) | (apply at_le (crnFree_only ..); decide +kernel)
    | (apply atLe (crnGrant_at ..); focus decide +kernel) | exact Cov.nil
    | refine Cov.cons (.inl (by decide +kernel)) ?_ | refine Cov.cons (.inr ?_) ?_ | exact List.mem_cons_self
    | refine List.mem_cons_of_mem _ ?_ | split

/-- What `crnGranting` can change, but for the registers that it names by its operands. -/
def Feet.crnGrantingAt : Mask := .of [.PMU_BANK_OVF, .PMU_CNT, .SQ_CNT, .TWN_CNT] [.evPend, .hlog, .xin, .bic, .sqx,
  .crn, .kacc]

theorem crnGranting_at (p line : Nat) (kept : Bool) :
    Only (At.has Feet.crnGrantingAt ([⟨.OCT_CRN_CNT_RETURN, p / 4⟩, ⟨.OCT_CRN_CNT_XFER, p / 4⟩] : List Reg))
      (crnGranting p line kept) := by
  simp only [crnGranting, modCrn, getCrn, putCrn]
  with_reducible repeat' first
    | exact Only.pure _ | exact Only.getM | refine Only.bind ?_ fun _ => ?_ | refine Only.ite ?_ ?_ | exact Only.rd _
    | exact Only.rdReg _ _ | exact at_doT .crn rfl (by decide +kernel)
    | (apply at_le (recSend_only ..); decide +kernel) | (apply at_le (crnWrite_only ..); decide +kernel)
    | (apply atLe (crnStep_at ..); focus decide +kernel) | exact Cov.nil
    | refine Cov.cons (.inl (by decide +kernel)) ?_ | refine Cov.cons (.inr ?_) ?_ | exact List.mem_cons_self
    | refine List.mem_cons_of_mem _ ?_ | split

/-- What `crnBounce` can change, but for the registers that it names by its operands. -/
def Feet.crnBounceAt : Mask := .of [.PMU_BANK_OVF, .PMU_CNT] [.xin, .kacc]

theorem crnBounce_at (p sq line : Nat) (w : Waiting) (opened : Bool) :
    Only (At.has Feet.crnBounceAt ([⟨.OCT_CRN_CNT_BOUNCE, p / 4⟩] : List Reg)) (crnBounce p sq line w opened) := by
  unfold crnBounce
  with_reducible repeat' first
    | exact Only.pure _ | exact Only.getM | refine Only.bind ?_ fun _ => ?_ | refine Only.ite ?_ ?_ | exact Only.rd _
    | exact Only.rdReg _ _ | (apply at_le (crnSend_only ..); decide +kernel)
    | (apply at_le (crnWaiter_only ..); decide +kernel) | refine at_inc ?_ | exact Cov.nil
    | refine Cov.cons (.inl (by decide +kernel)) ?_ | refine Cov.cons (.inr ?_) ?_ | exact List.mem_cons_self

/-- What `cornerFwd` can change, but for the registers that it names by its operands. -/
def Feet.cornerFwdAt : Mask := .of [.PMU_BANK_OVF, .PMU_CNT] [.xin, .crn, .kacc]

theorem cornerFwd_at (p sq : Nat) (w : Waiting) (opened : Bool) :
    Only (At.has Feet.cornerFwdAt ([⟨.OCT_CRN_CNT_BOUNCE, p / 4⟩, ⟨.OCT_CRN_CNT_FWD, p / 4⟩, ⟨.OCT_CRN_CNT_RETURN, p /
      4⟩] : List Reg)) (cornerFwd p sq w opened) := by
  simp only [cornerFwd, putCrn, modCrn, getCrn]
  with_reducible repeat' first
    | exact Only.pure _ | exact Only.getM | refine Only.bind ?_ fun _ => ?_ | refine Only.ite ?_ ?_ | exact Only.rd _
    | exact Only.rdReg _ _ | exact at_doT .crn rfl (by decide +kernel)
    | (apply atLe (crnSelf_at ..); focus decide +kernel) | (apply at_le (crnFree_only ..); decide +kernel)
    | (apply at_le (crnSnoop_only ..); decide +kernel) | (apply atLe (crnBounce_at ..); focus decide +kernel)
    | refine at_inc ?_ | exact Cov.nil | refine Cov.cons (.inl (by decide +kernel)) ?_ | refine Cov.cons (.inr ?_) ?_
    | exact List.mem_cons_self | refine List.mem_cons_of_mem _ ?_ | split

/-- What `cornerWriteback` can change, but for the registers that it names by its operands. -/
def Feet.cornerWritebackAt : Mask := .of [.PMU_BANK_OVF, .PMU_CNT, .SQ_CNT, .TWN_CNT] [.evPend, .hlog, .xin, .bic,
  .sqx, .crn, .kacc]

theorem cornerWriteback_at (p : Nat) (q : Msg) :
    Only (At.has Feet.cornerWritebackAt ([⟨.OCT_CRN_CNT_RETURN, p / 4⟩, ⟨.OCT_CRN_CNT_XFER, p / 4⟩] : List Reg))
      (cornerWriteback p q) := by
  simp only [cornerWriteback, modCrn, getCrn, putCrn]
  with_reducible repeat' first
    | exact Only.pure _ | exact Only.getM | refine Only.bind ?_ fun _ => ?_ | refine Only.onlyIf ?_
    | refine Only.ite ?_ ?_ | exact Only.rd _ | exact Only.rdReg _ _ | exact at_doT .crn rfl (by decide +kernel)
    | (apply at_le (xsend_only ..); decide +kernel) | (apply at_le (raise_only ..); decide +kernel)
    | (apply atLe (sqInc_at ..); focus decide +kernel) | (apply at_le (crnWrite_only ..); decide +kernel)
    | (apply atLe (crnGranting_at ..); focus decide +kernel) | exact Cov.nil
    | refine Cov.cons (.inl (by decide +kernel)) ?_ | refine Cov.cons (.inr ?_) ?_ | exact List.mem_cons_self
    | refine List.mem_cons_of_mem _ ?_

/-- What `cornerBirsp` can change, but for the registers that it names by its operands. -/
def Feet.cornerBirspAt : Mask := .of [.PMU_BANK_OVF, .PMU_CNT, .SQ_CNT, .TWN_CNT] [.evPend, .hlog, .xin, .bic, .sqx,
  .crn, .kacc]

theorem cornerBirsp_at (p line : Nat) (s : Bool) :
    Only (At.has Feet.cornerBirspAt ([⟨.OCT_CRN_CNT_ABSORBED, p / 4⟩, ⟨.OCT_CRN_CNT_RETURN, p / 4⟩,
      ⟨.OCT_CRN_CNT_XFER, p / 4⟩] : List Reg)) (cornerBirsp p line s) := by
  simp only [cornerBirsp, putCrn]
  with_reducible repeat' first
    | exact Only.pure _ | exact Only.getM | refine Only.bind ?_ fun _ => ?_ | refine Only.ite ?_ ?_ | exact Only.rd _
    | exact Only.rdReg _ _ | exact at_doT .crn rfl (by decide +kernel)
    | (apply atLe (crnHand_at ..); focus decide +kernel) | (apply at_le (crnFree_only ..); decide +kernel)
    | (apply atLe (crnGranting_at ..); focus decide +kernel) | refine at_inc ?_ | exact Cov.nil
    | refine Cov.cons (.inl (by decide +kernel)) ?_ | refine Cov.cons (.inr ?_) ?_ | exact List.mem_cons_self
    | refine List.mem_cons_of_mem _ ?_

/-- What `cornerSnoopTimeout` can change, but for the registers that it names by its operands. -/
def Feet.cornerSnoopTimeoutAt : Mask := .of [.PMU_BANK_OVF, .PMU_CNT] [.xin, .crn, .kacc]

theorem cornerSnoopTimeout_at (p line : Nat) :
    Only (At.has Feet.cornerSnoopTimeoutAt ([⟨.OCT_CRN_CNT_RETURN, p / 4⟩] : List Reg)) (cornerSnoopTimeout p line) :=
      by
  simp only [cornerSnoopTimeout, putCrn]
  with_reducible repeat' first
    | exact Only.pure _ | exact Only.getM | refine Only.bind ?_ fun _ => ?_ | refine Only.ite ?_ ?_ | exact Only.rd _
    | exact Only.rdReg _ _ | exact at_doT .crn rfl (by decide +kernel)
    | (apply atLe (crnHand_at ..); focus decide +kernel) | (apply at_le (crnFree_only ..); decide +kernel)
    | exact Cov.nil | refine Cov.cons (.inl (by decide +kernel)) ?_ | refine Cov.cons (.inr ?_) ?_
    | exact List.mem_cons_self

/-- What `crnDown` can change, but for the registers that it names by its operands. -/
def Feet.crnDownAt : Mask := .of [.PMU_BANK_OVF, .PMU_CNT] [.xin, .crn, .kacc]

theorem crnDown_at (p line : Nat) :
    Only (At.has Feet.crnDownAt ([⟨.OCT_CRN_CNT_RETURN, p / 4⟩] : List Reg)) (crnDown p line) := by
  simp only [crnDown, getCrn, modCrn, putCrn]
  with_reducible repeat' first
    | exact Only.pure _ | exact Only.getM | refine Only.bind ?_ fun _ => ?_ | refine Only.ite ?_ ?_ | exact Only.rd _
    | exact Only.rdReg _ _ | exact at_doT .crn rfl (by decide +kernel)
    | (apply atLe (crnHand_at ..); focus decide +kernel) | (apply at_le (crnFree_only ..); decide +kernel)
    | exact Cov.nil | refine Cov.cons (.inl (by decide +kernel)) ?_ | refine Cov.cons (.inr ?_) ?_
    | exact List.mem_cons_self

/-- What `crnWritten` can change, but for the registers that it names by its operands. -/
def Feet.crnWrittenAt : Mask := .of [.PMU_BANK_OVF, .PMU_CNT, .SQ_CNT] [.xin, .bic, .crn, .kacc]

theorem crnWritten_at (p line : Nat) :
    Only (At.has Feet.crnWrittenAt ([⟨.OCT_CRN_CNT_RETURN, p / 4⟩, ⟨.OCT_CRN_CNT_XFER, p / 4⟩] : List Reg))
      (crnWritten p line) := by
  simp only [crnWritten, modCrn, putCrn, getCrn]
  with_reducible repeat' first
    | exact Only.pure _ | exact Only.getM | refine Only.bind ?_ fun _ => ?_ | refine Only.ite ?_ ?_ | exact Only.rd _
    | exact Only.rdReg _ _ | exact at_doT .crn rfl (by decide +kernel)
    | (apply atLe (crnStep_at ..); focus decide +kernel) | (apply atLe (crnDown_at ..); focus decide +kernel)
    | exact Cov.nil | refine Cov.cons (.inl (by decide +kernel)) ?_ | refine Cov.cons (.inr ?_) ?_
    | exact List.mem_cons_self | refine List.mem_cons_of_mem _ ?_

/-- What `cornerWriteDone` can change, but for the registers that it names by its operands. -/
def Feet.cornerWriteDoneAt : Mask := .of [.PMU_BANK_OVF, .PMU_CNT, .SQ_CNT] [.xin, .bic, .crn, .kacc]

theorem cornerWriteDone_at (p line : Nat) :
    Only (At.has Feet.cornerWriteDoneAt ([⟨.OCT_CRN_CNT_RETURN, p / 4⟩, ⟨.OCT_CRN_CNT_XFER, p / 4⟩] : List Reg))
      (cornerWriteDone p line) := by
  simp only [cornerWriteDone, getCrn]
  with_reducible repeat' first
    | exact Only.pure _ | exact Only.getM | refine Only.bind ?_ fun _ => ?_ | refine Only.ite ?_ ?_ | exact Only.rd _
    | exact Only.rdReg _ _ | (apply atLe (sqInc_at ..); focus decide +kernel)
    | (apply atLe (crnWritten_at ..); focus decide +kernel) | exact Cov.nil
    | refine Cov.cons (.inl (by decide +kernel)) ?_ | refine Cov.cons (.inr ?_) ?_ | exact List.mem_cons_self
    | refine List.mem_cons_of_mem _ ?_

/-- What `cornerMemTimeout` can change, but for the registers that it names by its operands. -/
def Feet.cornerMemTimeoutAt : Mask := .of [.PMU_BANK_OVF, .PMU_CNT, .SQ_CNT] [.evPend, .hlog, .xin, .bic, .crn, .kacc]

theorem cornerMemTimeout_at (p line : Nat) :
    Only (At.has Feet.cornerMemTimeoutAt ([⟨.OCT_CRN_CNT_RETURN, p / 4⟩, ⟨.OCT_CRN_CNT_XFER, p / 4⟩] : List Reg))
      (cornerMemTimeout p line) := by
  simp only [cornerMemTimeout, getCrn]
  with_reducible repeat' first
    | exact Only.pure _ | exact Only.getM | refine Only.bind ?_ fun _ => ?_ | refine Only.ite ?_ ?_ | exact Only.rd _
    | exact Only.rdReg _ _ | (apply at_le (raise_only ..); decide +kernel)
    | (apply atLe (sqInc_at ..); focus decide +kernel) | (apply atLe (crnWritten_at ..); focus decide +kernel)
    | exact Cov.nil | refine Cov.cons (.inl (by decide +kernel)) ?_ | refine Cov.cons (.inr ?_) ?_
    | exact List.mem_cons_self | refine List.mem_cons_of_mem _ ?_

/-- What `crnPortDown` can change, but for the registers that it names by its operands. -/
def Feet.crnPortDownAt : Mask := .of [.PMU_BANK_OVF, .PMU_CNT] [.xin, .crn, .kacc]

theorem crnPortDown_at (p : Nat) :
    Only (At.has Feet.crnPortDownAt ([⟨.OCT_CRN_CNT_RETURN, p / 4⟩] : List Reg)) (crnPortDown p) := by
  simp only [crnPortDown, putCrn]
  with_reducible repeat' first
    | exact Only.pure _ | exact Only.getM | refine Only.bind ?_ fun _ => ?_ | refine Only.each fun _ _ => ?_
    | refine Only.ite ?_ ?_ | exact Only.rd _ | exact Only.rdReg _ _ | exact at_doT .crn rfl (by decide +kernel)
    | (apply at_le (crnFree_only ..); decide +kernel) | (apply atLe (crnDown_at ..); focus decide +kernel)
    | exact Cov.nil | refine Cov.cons (.inl (by decide +kernel)) ?_ | refine Cov.cons (.inr ?_) ?_
    | exact List.mem_cons_self

/-- What `tmInc` can change, but for the registers that it names by its operands. -/
def Feet.tmIncAt : Mask := .of [] []

theorem tmInc_at (c : Nat) :
    Only (At.has Feet.tmIncAt ([⟨.TM_CNT, c⟩] : List Reg)) (tmInc c) := by
  unfold tmInc
  with_reducible repeat' first
    | exact Only.pure _ | exact Only.getM | refine Only.bind ?_ fun _ => ?_ | exact Only.rd _ | exact Only.rdReg _ _
    | refine at_inc ?_ | exact Cov.nil | refine Cov.cons (.inl (by decide +kernel)) ?_ | refine Cov.cons (.inr ?_) ?_
    | exact List.mem_cons_self

/-- What `slotFillTimeout` can change, but for the registers that it names by its operands. -/
def Feet.slotFillTimeoutAt : Mask := .of [.INT_RETIRE_STATUS, .TM_STATUS] [.evPend, .hlog, .slot, .srx, .slotTmo,
  .pfree, .retire, .retFull]

theorem slotFillTimeout_at (s slot : Nat) :
    Only (At.has Feet.slotFillTimeoutAt ([⟨.TM_SRING_CNT, s⟩] : List Reg)) (slotFillTimeout s slot) := by
  unfold slotFillTimeout
  with_reducible repeat' first
    | exact Only.pure _ | exact Only.getM | refine Only.bind ?_ fun _ => ?_ | refine Only.ite ?_ ?_ | exact Only.rd _
    | exact Only.rdReg _ _ | (apply at_le (slotLost_only ..); decide +kernel) | refine at_inc ?_ | exact Cov.nil
    | refine Cov.cons (.inl (by decide +kernel)) ?_ | refine Cov.cons (.inr ?_) ?_ | exact List.mem_cons_self

/-- What `slotHeadTimeout` can change, but for the registers that it names by its operands. -/
def Feet.slotHeadTimeoutAt : Mask := .of [.INT_RETIRE_STATUS, .TM_STATUS] [.evPend, .hlog, .slot, .srx, .slotTmo,
  .pfree, .retire, .retFull]

theorem slotHeadTimeout_at (s : Nat) :
    Only (At.has Feet.slotHeadTimeoutAt ([⟨.TM_SRING_CNT, s⟩] : List Reg)) (slotHeadTimeout s) := by
  unfold slotHeadTimeout
  with_reducible repeat' first
    | exact Only.pure _ | exact Only.getM | refine Only.bind ?_ fun _ => ?_ | refine Only.ite ?_ ?_ | exact Only.rd _
    | exact Only.rdReg _ _ | (apply at_le (slotLost_only ..); decide +kernel) | refine at_inc ?_ | exact Cov.nil
    | refine Cov.cons (.inl (by decide +kernel)) ?_ | refine Cov.cons (.inr ?_) ?_ | exact List.mem_cons_self

/-- What `slotReturn` can change, but for the registers that it names by its operands. -/
def Feet.slotReturnAt : Mask := .of [.PMU_BANK_OVF, .PMU_CNT] [.xin, .slot, .srx, .kacc]

theorem slotReturn_at (s : Nat) :
    Only (At.has Feet.slotReturnAt ([⟨.TM_SRING_STATUS, s⟩] : List Reg)) (slotReturn s) := by
  simp only [slotReturn, putSlot, modSrx, putSrx, getSrx]
  with_reducible repeat' first
    | exact Only.pure _ | exact Only.getM | refine Only.bind ?_ fun _ => ?_ | refine Only.onlyIf ?_
    | refine Only.ite ?_ ?_ | exact Only.rd _ | exact Only.rdReg _ _ | exact at_doT .slot rfl (by decide +kernel)
    | exact at_doT .srx rfl (by decide +kernel) | (apply at_le (returnRecord_only ..); decide +kernel)
    | refine at_addWrap ?_ | exact Cov.nil | refine Cov.cons (.inl (by decide +kernel)) ?_
    | refine Cov.cons (.inr ?_) ?_ | exact List.mem_cons_self

/-- What `flowPut` can change, but for the registers that it names by its operands. -/
def Feet.flowPutAt : Mask := .of [] []

theorem flowPut_at (f tc tp last : Nat) :
    Only (At.has Feet.flowPutAt ([⟨.FLW_W0, f⟩, ⟨.FLW_W1, f⟩] : List Reg)) (flowPut f tc tp last) := by
  unfold flowPut
  with_reducible repeat' first
    | exact Only.pure _ | exact Only.getM | refine Only.bind ?_ fun _ => ?_ | exact Only.rd _ | exact Only.rdReg _ _
    | refine at_wr ?_ | exact Cov.nil | refine Cov.cons (.inl (by decide +kernel)) ?_ | refine Cov.cons (.inr ?_) ?_
    | exact List.mem_cons_self | refine List.mem_cons_of_mem _ ?_

/-- What `meterSweep` can change, but for the registers that it names by its operands. -/
def Feet.meterSweepAt : Mask := .of [] []

theorem meterSweep_at (f : Nat) :
    Only (At.has Feet.meterSweepAt ([⟨.FLW_W0, f⟩, ⟨.FLW_W1, f⟩] : List Reg)) (meterSweep f) := by
  unfold meterSweep
  with_reducible repeat' first
    | exact Only.pure _ | exact Only.getM | refine Only.bind ?_ fun _ => ?_ | refine Only.ite ?_ ?_ | exact Only.rd _
    | exact Only.rdReg _ _ | (apply atLe (flowPut_at ..); focus decide +kernel) | exact Cov.nil
    | refine Cov.cons (.inl (by decide +kernel)) ?_ | refine Cov.cons (.inr ?_) ?_ | exact List.mem_cons_self
    | refine List.mem_cons_of_mem _ ?_

/-- What `queueIdle` can change, but for the registers that it names by its operands. -/
def Feet.queueIdleAt : Mask := .of [.TM_BND_ST, .TM_CH_ST] [.act, .bmove]

theorem queueIdle_at (q : Nat) :
    Only (At.has Feet.queueIdleAt ([⟨.TM_QSCH_ST, q⟩] : List Reg)) (queueIdle q) := by
  simp only [queueIdle, modAct, putAct, getAct, modBmove, getBmove, putBmove]
  with_reducible repeat' first
    | exact Only.pure _ | exact Only.getM | refine Only.bind ?_ fun _ => ?_ | refine Only.ite ?_ ?_ | exact Only.rd _
    | exact Only.rdReg _ _ | exact at_wrK .TM_BND_ST rfl (by decide +kernel)
    | exact at_wrK .TM_CH_ST rfl (by decide +kernel) | exact at_doT .act rfl (by decide +kernel)
    | exact at_doT .bmove rfl (by decide +kernel) | refine at_wr ?_ | exact Cov.nil
    | refine Cov.cons (.inl (by decide +kernel)) ?_ | refine Cov.cons (.inr ?_) ?_ | exact List.mem_cons_self
    | refine List.mem_cons_of_mem _ ?_ | split

/-- What `flushQueue` can change, but for the registers that it names by its operands. -/
def Feet.flushQueueAt : Mask := .of [.INT_RETIRE_STATUS, .TM_BND_ST, .TM_CH_ST, .TM_CMD_STATUS, .TM_CNT, .TM_QOCC,
  .TM_SPILL_STATUS, .TM_STATUS] [.evPend, .hlog, .pfree, .sfree, .tq, .act, .bmove, .retire, .retFull]

theorem flushQueue_at (q : Nat) :
    Only (At.has Feet.flushQueueAt ([⟨.TM_QSCH_ST, q⟩] : List Reg)) (flushQueue q) := by
  unfold flushQueue
  with_reducible repeat' first
    | exact Only.pure _ | exact Only.getM | refine Only.bind ?_ fun _ => ?_ | refine Only.onlyIf ?_
    | refine Only.each fun _ _ => ?_ | exact Only.rd _ | exact Only.rdReg _ _
    | exact at_wrK .TM_CMD_STATUS rfl (by decide +kernel) | exact at_addSatK .TM_CNT rfl (by decide +kernel)
    | (apply atLe (queueIdle_at ..); focus decide +kernel) | (apply at_le (pktFree_only ..); decide +kernel)
    | (apply at_le (queueDrop_only ..); decide +kernel) | exact Cov.nil
    | refine Cov.cons (.inl (by decide +kernel)) ?_ | refine Cov.cons (.inr ?_) ?_ | exact List.mem_cons_self

/-- What `rxPut` can change, but for the registers that it names by its operands. -/
def Feet.rxPutAt : Mask := .of [.PMU_BANK_OVF, .PMU_CNT] [.sf, .ring, .xin, .kacc]

theorem rxPut_at (r cls steer : Nat) (p : Pkt) (mc : Bool) :
    Only (At.has Feet.rxPutAt ([⟨.RNG_CNT, r⟩, ⟨.RNG_IDX, r⟩, ⟨.TM_RXB1, r⟩] : List Reg)) (rxPut r cls steer p mc) :=
      by
  simp only [rxPut, modRing, getRing, putRing]
  with_reducible repeat' first
    | exact Only.pure _ | exact Only.getM | refine Only.bind ?_ fun _ => ?_ | refine Only.each fun _ _ => ?_
    | refine Only.ite ?_ ?_ | exact Only.rd _ | exact Only.rdReg _ _ | exact at_doT .ring rfl (by decide +kernel)
    | (apply at_le (xsend_only ..); decide +kernel) | (apply at_le (ringIrq_only ..); decide +kernel)
    | refine at_addWrap ?_ | refine at_inc ?_ | exact Cov.nil | refine Cov.cons (.inl (by decide +kernel)) ?_
    | refine Cov.cons (.inr ?_) ?_ | exact List.mem_cons_self | refine List.mem_cons_of_mem _ ?_

/-- What `queueCut` can change, but for the registers that it names by its operands. -/
def Feet.queueCutAt : Mask := .of [.INT_LEAKED, .TM_BND_ST, .TM_CH_ST, .TM_CNT, .TM_SPILL_STATUS] [.sfree, .tq, .act,
  .bmove]

theorem queueCut_at (q extra : Nat) :
    Only (At.has Feet.queueCutAt ([⟨.TM_QOCC, q⟩, ⟨.TM_QSCH_ST, q⟩] : List Reg)) (queueCut q extra) := by
  unfold queueCut
  with_reducible repeat' first
    | exact Only.pure _ | exact Only.getM | refine Only.bind ?_ fun _ => ?_ | refine Only.onlyIf ?_
    | refine Only.ite ?_ ?_ | exact Only.rd _ | exact Only.rdReg _ _
    | exact at_addSatK .INT_LEAKED rfl (by decide +kernel) | exact at_addSatK .TM_CNT rfl (by decide +kernel)
    | (apply atLe (queueIdle_at ..); focus decide +kernel) | (apply at_le (queueDrop_only ..); decide +kernel)
    | refine at_wr ?_ | exact Cov.nil | refine Cov.cons (.inl (by decide +kernel)) ?_ | refine Cov.cons (.inr ?_) ?_
    | exact List.mem_cons_self | refine List.mem_cons_of_mem _ ?_

/-- What `pushErrors` can change, but for the registers that it names by its operands. -/
def Feet.pushErrorsAt : Mask := .of [.INT_LEAKED, .TM_BND_ST, .TM_CH_ST, .TM_CNT, .TM_QOCC, .TM_QSCH_ST,
  .TM_SPILL_STATUS] [.evPend, .hlog, .sfree, .tq, .act, .bmove, .retire]

theorem pushErrors_at (c : Nat) (p : Pkt) (fixed : List Nat) (bad : List (Nat × Nat × Nat)) :
    Only (At.has Feet.pushErrorsAt ([⟨.INT_CNT_CE, 9⟩, ⟨.INT_CNT_POISON, 9⟩, ⟨.INT_CNT_UE, 9⟩] : List Reg))
      (pushErrors c p fixed bad) := by
  simp only [pushErrors, putRetire]
  with_reducible repeat' first
    | exact Only.pure _ | exact Only.getM | refine Only.bind ?_ fun _ => ?_ | refine Only.onlyIf ?_
    | refine Only.each fun _ _ => ?_ | exact Only.rd _ | exact Only.rdReg _ _
    | exact at_doT .retire rfl (by decide +kernel) | (apply atLe (memPoisoned_at ..); focus decide +kernel)
    | (apply atLe (memCorrected_at ..); focus decide +kernel)
    | (apply atLe (memUncorrectable_at ..); focus decide +kernel)
    | (apply atLe (queueCut_at ..); focus decide +kernel) | exact Cov.nil
    | refine Cov.cons (.inl (by decide +kernel)) ?_ | refine Cov.cons (.inr ?_) ?_ | exact List.mem_cons_self
    | refine List.mem_cons_of_mem _ ?_ | split

/-- What `egressPush` can change, but for the registers that it names by its operands. -/
def Feet.egressPushAt : Mask := .of [.INT_LEAKED, .INT_RETIRE_STATUS, .PMU_BANK_OVF, .PMU_CNT, .RNG_CNT, .RNG_IDX,
  .SQ_CNT, .TM_BND_ST, .TM_CH_ST, .TM_CNT, .TM_QOCC, .TM_QSCH_ST, .TM_RXB1, .TM_SPILL_STATUS, .TM_STATUS] [.freeCtr,
  .evPend, .hlog, .sf, .ring, .xin, .pfree, .sfree, .tq, .push, .act, .bmove, .kacc, .retire, .retFull]

theorem egressPush_at (c : Nat) (fixed : List Nat) (bad : List (Nat × Nat × Nat)) :
    Only (At.has Feet.egressPushAt ([⟨.INT_CNT_CE, 9⟩, ⟨.INT_CNT_POISON, 9⟩, ⟨.INT_CNT_UE, 9⟩, ⟨.TM_CHAN_EGR1, c⟩] : List Reg))
      (egressPush c fixed bad) := by
  simp only [egressPush, putPush]
  with_reducible repeat' first
    | exact Only.pure _ | exact Only.getM | refine Only.bind ?_ fun _ => ?_ | refine Only.onlyIf ?_
    | refine Only.each fun _ _ => ?_ | refine Only.ite ?_ ?_ | exact Only.rd _ | exact Only.rdReg _ _
    | exact at_incK .RNG_CNT rfl (by decide +kernel) | exact at_wrK .TM_CH_ST rfl (by decide +kernel)
    | exact at_addSatK .TM_CNT rfl (by decide +kernel) | exact at_doT .push rfl (by decide +kernel)
    | (apply at_le (pmuCount_only ..); decide +kernel) | (apply at_le (raise_only ..); decide +kernel)
    | (apply atLe (tmInc_at ..); focus decide +kernel) | (apply at_le (spillAsk_only ..); decide +kernel)
    | (apply at_le (pktFree_only ..); decide +kernel) | (apply atLe (rxPut_at ..); focus decide +kernel)
    | (apply atLe (pushErrors_at ..); focus decide +kernel) | (apply at_le (pushStart_only ..); decide +kernel)
    | refine at_wr ?_ | exact Cov.nil | refine Cov.cons (.inl (by decide +kernel)) ?_ | refine Cov.cons (.inr ?_) ?_
    | exact List.mem_cons_self | refine List.mem_cons_of_mem _ ?_ | split

/-- What `tmEffect` can change, but for the registers that it names by its operands. -/
def Feet.tmEffectAt : Mask := .of [.INT_RETIRE_STATUS, .TM_BND_ST, .TM_CH_BYTES, .TM_CH_PKTS, .TM_CH_ST,
  .TM_CMD_STATUS, .TM_CNT, .TM_GATE_CNT, .TM_QOCC, .TM_QSCH_ST, .TM_SPILL_STATUS, .TM_SRING_CNT, .TM_STATUS] [.evPend,
  .hlog, .srx, .slotTmo, .pfree, .sfree, .tq, .act, .bmove, .retire, .retFull]

theorem tmEffect_at (k : RegKind) (i old cmd : Nat) :
    Only (At.has Feet.tmEffectAt ([⟨.TM_SRING_STATUS, i⟩] : List Reg)) (tmEffect k i old cmd) := by
  simp only [tmEffect, modSrx, getSrx, putSrx, putSlotTmo]
  with_reducible repeat' first
    | exact Only.pure _ | exact Only.getM | refine Only.bind ?_ fun _ => ?_
    | refine Only.onlyIf' fun h => atM (Only.rstMem h (by decide +kernel)) | refine Only.onlyIf ?_
    | refine Only.each fun _ _ => ?_ | refine Only.ite ?_ ?_ | exact Only.rd _ | exact Only.rdReg _ _
    | exact at_rstK .TM_CNT (by decide +kernel) | exact at_rstK .TM_SRING_CNT (by decide +kernel)
    | exact at_doT .srx rfl (by decide +kernel) | exact at_doT .slotTmo rfl (by decide +kernel)
    | (apply atLe (flushQueue_at ..); focus decide +kernel) | refine at_wr ?_ | exact Cov.nil
    | refine Cov.cons (.inl (by decide +kernel)) ?_ | refine Cov.cons (.inr ?_) ?_ | exact List.mem_cons_self
    | refine List.mem_cons_of_mem _ ?_ | split

/-- What `gateMask` can change, but for the registers that it names by its operands. -/
def Feet.gateMaskAt : Mask := .of [.TM_QSCH_ST] [.gopen]

theorem gateMask_at (c new : Nat) :
    Only (At.has Feet.gateMaskAt ([⟨.TM_GATE_ST, c⟩] : List Reg)) (gateMask c new) := by
  simp only [gateMask, putGopen]
  with_reducible repeat' first
    | exact Only.pure _ | exact Only.getM | refine Only.bind ?_ fun _ => ?_ | refine Only.onlyIf ?_
    | refine Only.each fun _ _ => ?_ | exact Only.rd _ | exact Only.rdReg _ _
    | exact at_wrK .TM_QSCH_ST rfl (by decide +kernel) | exact at_doT .gopen rfl (by decide +kernel)
    | refine at_wr ?_ | exact Cov.nil | refine Cov.cons (.inl (by decide +kernel)) ?_ | refine Cov.cons (.inr ?_) ?_
    | exact List.mem_cons_self

/-- What `gateEnter` can change, but for the registers that it names by its operands. -/
def Feet.gateEnterAt : Mask := .of [.TM_QSCH_ST] [.gopen]

theorem gateEnter_at (c : Nat) (first : Bool) :
    Only (At.has Feet.gateEnterAt ([⟨.TM_GATE_ST, c⟩] : List Reg)) (gateEnter c first) := by
  unfold gateEnter
  with_reducible repeat' first
    | exact Only.pure _ | exact Only.getM | refine Only.bind ?_ fun _ => ?_ | refine Only.onlyIf ?_ | exact Only.rd _
    | exact Only.rdReg _ _ | (apply atLe (gateMask_at ..); focus decide +kernel) | refine at_wr ?_
    | refine at_addWrap ?_ | exact Cov.nil | refine Cov.cons (.inl (by decide +kernel)) ?_
    | refine Cov.cons (.inr ?_) ?_ | exact List.mem_cons_self | refine List.mem_cons_of_mem _ ?_ | split

/-- What `gateBoundary` can change, but for the registers that it names by its operands. -/
def Feet.gateBoundaryAt : Mask := .of [.TM_QSCH_ST] [.gopen]

theorem gateBoundary_at (c : Nat) :
    Only (At.has Feet.gateBoundaryAt ([⟨.TM_GATE_ST, c⟩] : List Reg)) (gateBoundary c) := by
  unfold gateBoundary
  with_reducible repeat' first
    | exact Only.pure _ | exact Only.getM | refine Only.bind ?_ fun _ => ?_ | refine Only.onlyIf ?_ | exact Only.rd _
    | exact Only.rdReg _ _ | (apply atLe (gateEnter_at ..); focus decide +kernel) | exact Cov.nil
    | refine Cov.cons (.inl (by decide +kernel)) ?_ | refine Cov.cons (.inr ?_) ?_ | exact List.mem_cons_self

/-- What `gateStart` can change, but for the registers that it names by its operands. -/
def Feet.gateStartAt : Mask := .of [.TM_QSCH_ST] [.gopen]

theorem gateStart_at (c : Nat) :
    Only (At.has Feet.gateStartAt ([⟨.TM_GATE_CTL, c⟩, ⟨.TM_GATE_ST, c⟩] : List Reg)) (gateStart c) := by
  unfold gateStart
  with_reducible repeat' first
    | exact Only.pure _ | exact Only.getM | refine Only.bind ?_ fun _ => ?_ | refine Only.ite ?_ ?_ | exact Only.rd _
    | exact Only.rdReg _ _ | (apply atLe (gateEnter_at ..); focus decide +kernel) | refine at_wr ?_ | exact Cov.nil
    | refine Cov.cons (.inl (by decide +kernel)) ?_ | refine Cov.cons (.inr ?_) ?_ | exact List.mem_cons_self
    | refine List.mem_cons_of_mem _ ?_

/-- What `gateSwitch` can change, but for the registers that it names by its operands. -/
def Feet.gateSwitchAt : Mask := .of [.TM_QSCH_ST] [.evPend, .hlog, .gopen]

theorem gateSwitch_at (c : Nat) :
    Only (At.has Feet.gateSwitchAt ([⟨.TM_GATE_CNT, c⟩, ⟨.TM_GATE_CTL, c⟩, ⟨.TM_GATE_ST, c⟩] : List Reg)) (gateSwitch
      c) := by
  unfold gateSwitch
  with_reducible repeat' first
    | exact Only.pure _ | exact Only.getM | refine Only.bind ?_ fun _ => ?_ | refine Only.ite ?_ ?_ | exact Only.rd _
    | exact Only.rdReg _ _ | (apply at_le (raise_only ..); decide +kernel)
    | (apply atLe (gateEnter_at ..); focus decide +kernel) | refine at_wr ?_ | refine at_inc ?_ | exact Cov.nil
    | refine Cov.cons (.inl (by decide +kernel)) ?_ | refine Cov.cons (.inr ?_) ?_ | exact List.mem_cons_self
    | refine List.mem_cons_of_mem _ ?_

/-- What `drrSweep` can change, but for the registers that it names by its operands. -/
def Feet.drrSweepAt : Mask := .of [] []

theorem drrSweep_at (q : Nat) :
    Only (At.has Feet.drrSweepAt ([⟨.TM_QSCH_ST, q⟩] : List Reg)) (drrSweep q) := by
  unfold drrSweep
  with_reducible repeat' first
    | exact Only.pure _ | exact Only.getM | refine Only.bind ?_ fun _ => ?_ | refine Only.onlyIf ?_ | exact Only.rd _
    | exact Only.rdReg _ _ | refine at_wr ?_ | exact Cov.nil | refine Cov.cons (.inl (by decide +kernel)) ?_
    | refine Cov.cons (.inr ?_) ?_ | exact List.mem_cons_self

/-- What `sliceOn` can change, but for the registers that it names by its operands. -/
def Feet.sliceOnAt : Mask := .of [.INT_RETIRE_STATUS, .TM_BND_ST, .TM_CH_BYTES, .TM_CH_PKTS, .TM_CH_ST,
  .TM_CMD_STATUS, .TM_CNT, .TM_GATE_CNT, .TM_QOCC, .TM_QSCH_ST, .TM_SPILL_STATUS, .TM_SRING_CNT, .TM_STATUS] [.evPend,
  .hlog, .srx, .slotTmo, .pfree, .sfree, .tq, .act, .bmove, .retire, .retFull]

theorem sliceOn_at (s : Nat) :
    Only (At.has Feet.sliceOnAt ([⟨.TEN_STATUS, s⟩, ⟨.TM_SRING_CTL, s⟩, ⟨.TM_SRING_STATUS, s⟩] : List Reg)) (sliceOn
      s) := by
  unfold sliceOn
  with_reducible repeat' first
    | exact Only.pure _ | exact Only.getM | refine Only.bind ?_ fun _ => ?_ | refine Only.ite ?_ ?_ | exact Only.rd _
    | exact Only.rdReg _ _ | (apply atLe (tmEffect_at ..); focus decide +kernel) | refine at_wr ?_ | exact Cov.nil
    | refine Cov.cons (.inl (by decide +kernel)) ?_ | refine Cov.cons (.inr ?_) ?_ | exact List.mem_cons_self
    | refine List.mem_cons_of_mem _ ?_

/-- What `sliceDrained` can change, but for the registers that it names by its operands. -/
def Feet.sliceDrainedAt : Mask := .of [.INT_RETIRE_STATUS, .TM_BND_ST, .TM_CH_BYTES, .TM_CH_PKTS, .TM_CH_ST,
  .TM_CMD_STATUS, .TM_CNT, .TM_GATE_CNT, .TM_QOCC, .TM_QSCH_ST, .TM_SPILL_STATUS, .TM_SRING_CNT, .TM_STATUS] [.evPend,
  .hlog, .srx, .slotTmo, .pfree, .sfree, .tq, .act, .bmove, .retire, .retFull]

theorem sliceDrained_at (s : Nat) :
    Only (At.has Feet.sliceDrainedAt ([⟨.TEN_STATUS, s⟩, ⟨.TM_SRING_CTL, s⟩, ⟨.TM_SRING_STATUS, s⟩] : List Reg))
      (sliceDrained s) := by
  unfold sliceDrained
  with_reducible repeat' first
    | exact Only.pure _ | exact Only.getM | refine Only.bind ?_ fun _ => ?_ | refine Only.onlyIf ?_
    | refine Only.ite ?_ ?_ | exact Only.rd _ | exact Only.rdReg _ _
    | (apply atLe (sliceOn_at ..); focus decide +kernel) | refine at_wr ?_ | exact Cov.nil
    | refine Cov.cons (.inl (by decide +kernel)) ?_ | refine Cov.cons (.inr ?_) ?_ | exact List.mem_cons_self
    | refine List.mem_cons_of_mem _ ?_

/-- What `sliceTimeout` can change, but for the registers that it names by its operands. -/
def Feet.sliceTimeoutAt : Mask := .of [] [.evPend, .hlog]

theorem sliceTimeout_at (s : Nat) :
    Only (At.has Feet.sliceTimeoutAt ([⟨.TEN_STATUS, s⟩] : List Reg)) (sliceTimeout s) := by
  unfold sliceTimeout
  with_reducible repeat' first
    | exact Only.pure _ | exact Only.getM | refine Only.bind ?_ fun _ => ?_ | refine Only.ite ?_ ?_ | exact Only.rd _
    | exact Only.rdReg _ _ | (apply at_le (raise_only ..); decide +kernel) | refine at_wr ?_ | exact Cov.nil
    | refine Cov.cons (.inl (by decide +kernel)) ?_ | refine Cov.cons (.inr ?_) ?_ | exact List.mem_cons_self

/-- What `kskUe` can change, but for the registers that it names by its operands. -/
def Feet.kskUeAt : Mask := .of [] [.evPend, .hlog]

theorem kskUe_at (line : Nat) (dirty : Bool) :
    Only (At.has Feet.kskUeAt ([⟨.INT_CNT_POISON, 4⟩] : List Reg)) (kskUe line dirty) := by
  unfold kskUe
  with_reducible repeat' first
    | exact Only.pure _ | exact Only.getM | refine Only.bind ?_ fun _ => ?_ | refine Only.onlyIf ?_
    | refine Only.ite ?_ ?_ | exact Only.rd _ | exact Only.rdReg _ _ | (apply at_le (raise_only ..); decide +kernel)
    | (apply atLe (memPoisoned_at ..); focus decide +kernel) | exact Cov.nil
    | refine Cov.cons (.inl (by decide +kernel)) ?_ | refine Cov.cons (.inr ?_) ?_ | exact List.mem_cons_self

/-- What `kskSnoopNow` can change, but for the registers that it names by its operands. -/
def Feet.kskSnoopNowAt : Mask := .of [.KSK_CNT, .PMU_BANK_OVF, .PMU_CNT] [.evPend, .hlog, .xin, .kacc, .acc, .kline,
  .kmiss]

theorem kskSnoopNow_at (b : Nat) (q : Msg) (ue : Bool) :
    Only (At.has Feet.kskSnoopNowAt ([⟨.INT_CNT_POISON, 4⟩] : List Reg)) (kskSnoopNow b q ue) := by
  simp only [kskSnoopNow, putKline]
  with_reducible repeat' first
    | exact Only.pure _ | exact Only.getM | refine Only.bind ?_ fun _ => ?_ | refine Only.onlyIf ?_
    | refine Only.ite ?_ ?_ | exact Only.rd _ | exact Only.rdReg _ _ | exact at_doT .kline rfl (by decide +kernel)
    | (apply at_le (staleLine_only ..); decide +kernel) | (apply at_le (kskWb_only ..); decide +kernel)
    | (apply at_le (kskDrop_only ..); decide +kernel) | (apply at_le (kskKick_only ..); decide +kernel)
    | (apply at_le (kskAnswer_only ..); decide +kernel) | (apply atLe (kskUe_at ..); focus decide +kernel)
    | exact Cov.nil | refine Cov.cons (.inl (by decide +kernel)) ?_ | refine Cov.cons (.inr ?_) ?_
    | exact List.mem_cons_self | refine List.mem_cons_of_mem _ ?_ | split

/-- What `kioskSnoop` can change, but for the registers that it names by its operands. -/
def Feet.kioskSnoopAt : Mask := .of [.KSK_CNT, .PMU_BANK_OVF, .PMU_CNT] [.evPend, .hlog, .xin, .kacc, .acc, .kline,
  .kmiss]

theorem kioskSnoop_at (b : Nat) (q : Msg) (ue : Bool) :
    Only (At.has Feet.kioskSnoopAt ([⟨.INT_CNT_POISON, 4⟩] : List Reg)) (kioskSnoop b q ue) := by
  unfold kioskSnoop
  with_reducible repeat' first
    | exact Only.pure _ | exact Only.getM | refine Only.bind ?_ fun _ => ?_ | refine Only.ite ?_ ?_ | exact Only.rd _
    | exact Only.rdReg _ _ | (apply at_le (missPut_only ..); decide +kernel)
    | (apply atLe (kskSnoopNow_at ..); focus decide +kernel) | exact Cov.nil
    | refine Cov.cons (.inl (by decide +kernel)) ?_ | refine Cov.cons (.inr ?_) ?_ | exact List.mem_cons_self
    | refine List.mem_cons_of_mem _ ?_ | split

/-- What `missEnd` can change, but for the registers that it names by its operands. -/
def Feet.missEndAt : Mask := .of [.KSK_CNT, .PMU_BANK_OVF, .PMU_CNT] [.evPend, .hlog, .xin, .kacc, .acc, .kline,
  .kmiss]

theorem missEnd_at (b : Nat) (e : KMiss) :
    Only (At.has Feet.missEndAt ([⟨.INT_CNT_POISON, 4⟩] : List Reg)) (missEnd b e) := by
  simp only [missEnd, modKmiss, getKmiss, putKmiss]
  with_reducible repeat' first
    | exact Only.pure _ | exact Only.getM | refine Only.bind ?_ fun _ => ?_ | refine Only.onlyIf ?_ | exact Only.rd _
    | exact Only.rdReg _ _ | exact at_doT .kmiss rfl (by decide +kernel)
    | (apply at_le (kskDrop_only ..); decide +kernel) | (apply at_le (kskKick_only ..); decide +kernel)
    | (apply atLe (kskSnoopNow_at ..); focus decide +kernel) | (apply at_le (missServe_only ..); decide +kernel)
    | exact Cov.nil | refine Cov.cons (.inl (by decide +kernel)) ?_ | refine Cov.cons (.inr ?_) ?_
    | exact List.mem_cons_self | refine List.mem_cons_of_mem _ ?_ | split

/-- What `missFill` can change, but for the registers that it names by its operands. -/
def Feet.missFillAt : Mask := .of [.KSK_CNT, .PMU_BANK_OVF, .PMU_CNT] [.evPend, .hlog, .xin, .kacc, .acc, .kline,
  .kmiss]

theorem missFill_at (b : Nat) (e : KMiss) :
    Only (At.has Feet.missFillAt ([⟨.INT_CNT_POISON, 4⟩] : List Reg)) (missFill b e) := by
  simp only [missFill, putKline]
  with_reducible repeat' first
    | exact Only.pure _ | exact Only.getM | refine Only.bind ?_ fun _ => ?_ | refine Only.ite ?_ ?_ | exact Only.rd _
    | exact Only.rdReg _ _ | exact at_doT .kline rfl (by decide +kernel)
    | (apply at_le (pmuCount_only ..); decide +kernel) | (apply at_le (kskTouch_only ..); decide +kernel)
    | (apply at_le (missPut_only ..); decide +kernel) | (apply atLe (missEnd_at ..); focus decide +kernel)
    | exact Cov.nil | refine Cov.cons (.inl (by decide +kernel)) ?_ | refine Cov.cons (.inr ?_) ?_
    | exact List.mem_cons_self

/-- What `kioskFill` can change, but for the registers that it names by its operands. -/
def Feet.kioskFillAt : Mask := .of [.KSK_CNT, .PMU_BANK_OVF, .PMU_CNT] [.evPend, .hlog, .xin, .kacc, .acc, .kline,
  .kmiss]

theorem kioskFill_at (b : Nat) (q : Msg) :
    Only (At.has Feet.kioskFillAt ([⟨.INT_CNT_POISON, 4⟩] : List Reg)) (kioskFill b q) := by
  unfold kioskFill
  with_reducible repeat' first
    | exact Only.pure _ | exact Only.getM | refine Only.bind ?_ fun _ => ?_ | refine Only.ite ?_ ?_ | exact Only.rd _
    | exact Only.rdReg _ _ | (apply at_le (missLost_only ..); decide +kernel)
    | (apply atLe (missFill_at ..); focus decide +kernel) | exact Cov.nil
    | refine Cov.cons (.inl (by decide +kernel)) ?_ | refine Cov.cons (.inr ?_) ?_ | exact List.mem_cons_self
    | refine List.mem_cons_of_mem _ ?_ | split

/-- What `accResponse` can change, but for the registers that it names by its operands. -/
def Feet.accResponseAt : Mask := .of [.FLW_W0, .FLW_W1, .KRB_CNT, .KSK_CNT, .LM_CNT, .PMU_BANK_OVF, .PMU_CNT,
  .TEN_VIOL, .TEN_VIOL_ADDR, .TEN_VIOL_COUNT, .TEN_VIOL_TIME] [.evPend, .hlog, .xin, .kacc, .job, .acc, .accNext,
  .pred, .kline, .kmiss, .lmLate, .lmRem]

theorem accResponse_at (id : Nat) (ue : Bool) :
    Only (At.has Feet.accResponseAt ([⟨.INT_CNT_POISON, 4⟩] : List Reg)) (accResponse id ue) := by
  simp only [accResponse, putAcc, modLmLate, getLmLate, putLmLate]
  with_reducible repeat' first
    | exact Only.pure _ | exact Only.getM | refine Only.bind ?_ fun _ => ?_ | refine Only.onlyIf ?_
    | refine Only.ite ?_ ?_ | exact Only.rd _ | exact Only.rdReg _ _ | exact at_doT .acc rfl (by decide +kernel)
    | exact at_doT .lmLate rfl (by decide +kernel) | (apply at_le (kskDrop_only ..); decide +kernel)
    | (apply at_le (kskAccess_only ..); decide +kernel) | (apply atLe (kskUe_at ..); focus decide +kernel)
    | (apply at_le (accTake_only ..); decide +kernel) | exact Cov.nil | refine Cov.cons (.inl (by decide +kernel)) ?_
    | refine Cov.cons (.inr ?_) ?_ | exact List.mem_cons_self | refine List.mem_cons_of_mem _ ?_ | split

/-- What `linkClear` can change, but for the registers that it names by its operands. -/
def Feet.linkClearAt : Mask := .of [.OCT_STATUS] []

theorem linkClear_at (p : Nat) :
    Only (At.has Feet.linkClearAt ([⟨.OCT_PORT_IDE, p⟩, ⟨.OCT_PORT_STATUS, p⟩] : List Reg)) (linkClear p) := by
  unfold linkClear
  with_reducible repeat' first
    | exact Only.pure _ | exact Only.getM | refine Only.bind ?_ fun _ => ?_ | exact Only.rd _ | exact Only.rdReg _ _
    | (apply at_le (laneBits_only ..); decide +kernel) | refine at_wrReg ?_ | refine at_wr ?_ | exact Cov.nil
    | refine Cov.cons (.inl (by decide +kernel)) ?_ | refine Cov.cons (.inr ?_) ?_ | exact List.mem_cons_self
    | refine List.mem_cons_of_mem _ ?_

/-- What `portTo` can change, but for the registers that it names by its operands. -/
def Feet.portToAt : Mask := .of [] []

theorem portTo_at (p st : Nat) :
    Only (At.has Feet.portToAt ([⟨.OCT_PORT_STATUS, p⟩] : List Reg)) (portTo p st) := by
  unfold portTo
  with_reducible repeat' first
    | exact Only.pure _ | exact Only.getM | refine Only.bind ?_ fun _ => ?_ | exact Only.rd _ | exact Only.rdReg _ _
    | refine at_wr ?_ | exact Cov.nil | refine Cov.cons (.inl (by decide +kernel)) ?_ | refine Cov.cons (.inr ?_) ?_
    | exact List.mem_cons_self

/-- What `trainStart` can change, but for the registers that it names by its operands. -/
def Feet.trainStartAt : Mask := .of [.OCT_STATUS] [.out, .port]

theorem trainStart_at (p : Nat) (fresh : Bool) :
    Only (At.has Feet.trainStartAt ([⟨.OCT_PORT_IDE, p⟩, ⟨.OCT_PORT_STATUS, p⟩, ⟨.OCT_PORT_TRAIN, p⟩] : List Reg))
      (trainStart p fresh) := by
  simp only [trainStart, modPort, getPort, putPort]
  with_reducible repeat' first
    | exact Only.pure _ | exact Only.getM | refine Only.bind ?_ fun _ => ?_ | refine Only.onlyIf ?_
    | refine Only.ite ?_ ?_ | exact Only.rd _ | exact Only.rdReg _ _ | exact at_doT .port rfl (by decide +kernel)
    | (apply at_le (emit_only ..); decide +kernel) | (apply at_le (laneBits_only ..); decide +kernel)
    | (apply atLe (linkClear_at ..); focus decide +kernel) | (apply atLe (portTo_at ..); focus decide +kernel)
    | (apply at_le (linkPolicy_only ..); decide +kernel) | refine at_inc ?_ | refine at_wr ?_ | exact Cov.nil
    | refine Cov.cons (.inl (by decide +kernel)) ?_ | refine Cov.cons (.inr ?_) ?_ | exact List.mem_cons_self
    | refine List.mem_cons_of_mem _ ?_

/-- What `portLeaveUp` can change, but for the registers that it names by its operands. -/
def Feet.portLeaveUpAt : Mask := .of [.PMU_BANK_OVF, .PMU_CNT, .RNG_CNT, .RNG_CTL, .RNG_PROG, .RNG_STATUS, .SQ_CNT,
  .SQ_PURGE_MASK, .SQ_PURGE_STATUS, .TM_SPILL_STATUS, .TWN_CNT, .TWN_ROLE, .TWN_SETTLE, .XB_BUF_STATUS, .XB_CNT]
  [.out, .evPend, .hlog, .port, .ring, .xin, .xq, .xaged, .mcs, .mcq, .xfree, .owed, .xacct, .sqin, .dir, .trk, .memT,
  .bic, .sqx, .crec, .cwait, .crn, .mtt, .alost, .twx, .sfree, .tq, .push, .kacc, .cout, .arrT]

theorem portLeaveUp_at (p st : Nat) :
    Only (At.has Feet.portLeaveUpAt ([⟨.OCT_CRN_CNT_RETURN, p / 4⟩, ⟨.OCT_PORT_STATUS, p⟩] : List Reg)) (portLeaveUp p
      st) := by
  simp only [portLeaveUp, getOwed, modBic, getBic, putBic, modKacc, getKacc, putKacc]
  with_reducible repeat' first
    | exact Only.pure _ | exact Only.getM | refine Only.bind ?_ fun _ => ?_ | refine Only.each fun _ _ => ?_
    | exact Only.rd _ | exact Only.rdReg _ _ | exact at_doT .bic rfl (by decide +kernel)
    | exact at_doT .kacc rfl (by decide +kernel) | (apply at_le (spillLanded_only ..); decide +kernel)
    | (apply at_le (xbFlushPort_only ..); decide +kernel) | (apply at_le (vcsRingsStop_only ..); decide +kernel)
    | (apply atLe (crnPortDown_at ..); focus decide +kernel) | (apply atLe (portTo_at ..); focus decide +kernel)
    | (apply at_le (agentDown_only ..); decide +kernel) | (apply at_le (cacheDown_only ..); decide +kernel)
    | (apply at_le (snoopsDown_only ..); decide +kernel) | exact Cov.nil
    | refine Cov.cons (.inl (by decide +kernel)) ?_ | refine Cov.cons (.inr ?_) ?_ | exact List.mem_cons_self
    | refine List.mem_cons_of_mem _ ?_ | split

/-- What `portFlush` can change, but for the registers that it names by its operands. -/
def Feet.portFlushAt : Mask := .of [.OCT_STATUS, .PMU_BANK_OVF, .PMU_CNT, .RNG_CNT, .RNG_CTL, .RNG_PROG, .RNG_STATUS,
  .SQ_CNT, .SQ_PURGE_MASK, .SQ_PURGE_STATUS, .TM_SPILL_STATUS, .TWN_CNT, .TWN_ROLE, .TWN_SETTLE, .XB_BUF_STATUS,
  .XB_CNT] [.out, .evPend, .hlog, .port, .ring, .xin, .xq, .xaged, .mcs, .mcq, .xfree, .owed, .xacct, .sqin, .dir,
  .trk, .memT, .bic, .sqx, .crec, .cwait, .crn, .mtt, .alost, .twx, .sfree, .tq, .push, .kacc, .cout, .arrT]

theorem portFlush_at (p : Nat) :
    Only (At.has Feet.portFlushAt ([⟨.OCT_CRN_CNT_RETURN, p / 4⟩, ⟨.OCT_PORT_CNT0, p⟩, ⟨.OCT_PORT_IDE, p⟩,
      ⟨.OCT_PORT_STATUS, p⟩] : List Reg)) (portFlush p) := by
  unfold portFlush
  with_reducible repeat' first
    | exact Only.pure _ | exact Only.getM | refine Only.bind ?_ fun _ => ?_ | exact Only.rd _ | exact Only.rdReg _ _
    | (apply atLe (linkClear_at ..); focus decide +kernel) | (apply atLe (portLeaveUp_at ..); focus decide +kernel)
    | (apply at_le (hotplug_only ..); decide +kernel) | refine at_inc ?_ | exact Cov.nil
    | refine Cov.cons (.inl (by decide +kernel)) ?_ | refine Cov.cons (.inr ?_) ?_ | exact List.mem_cons_self
    | refine List.mem_cons_of_mem _ ?_

/-- What `portToUp` can change, but for the registers that it names by its operands. -/
def Feet.portToUpAt : Mask := .of [.PMU_BANK_OVF, .PMU_CNT] [.out, .port, .xin, .alost, .kacc]

theorem portToUp_at (p : Nat) :
    Only (At.has Feet.portToUpAt ([⟨.OCT_PORT_STATUS, p⟩] : List Reg)) (portToUp p) := by
  simp only [portToUp, modPort, getPort, putPort, putAlost]
  with_reducible repeat' first
    | exact Only.pure _ | exact Only.getM | refine Only.bind ?_ fun _ => ?_ | exact Only.rd _ | exact Only.rdReg _ _
    | exact at_doT .port rfl (by decide +kernel) | exact at_doT .alost rfl (by decide +kernel)
    | (apply atLe (portTo_at ..); focus decide +kernel) | (apply at_le (portStateSend_only ..); decide +kernel)
    | (apply at_le (hotplug_only ..); decide +kernel) | refine at_wr ?_ | exact Cov.nil
    | refine Cov.cons (.inl (by decide +kernel)) ?_ | refine Cov.cons (.inr ?_) ?_ | exact List.mem_cons_self
    | refine List.mem_cons_of_mem _ ?_ | split

/-- What `portHold` can change, but for the registers that it names by its operands. -/
def Feet.portHoldAt : Mask := .of [] [.evPend, .hlog]

theorem portHold_at (p reason : Nat) :
    Only (At.has Feet.portHoldAt ([⟨.OCT_PORT_STATUS, p⟩] : List Reg)) (portHold p reason) := by
  unfold portHold
  with_reducible repeat' first
    | exact Only.pure _ | exact Only.getM | refine Only.bind ?_ fun _ => ?_ | refine Only.onlyIf ?_ | exact Only.rd _
    | exact Only.rdReg _ _ | (apply at_le (raise_only ..); decide +kernel)
    | (apply atLe (portTo_at ..); focus decide +kernel) | refine at_wr ?_ | exact Cov.nil
    | refine Cov.cons (.inl (by decide +kernel)) ?_ | refine Cov.cons (.inr ?_) ?_ | exact List.mem_cons_self

/-- What `linkShow` can change, but for the registers that it names by its operands. -/
def Feet.linkShowAt : Mask := .of [.OCT_STATUS] []

theorem linkShow_at (p rate lanes : Nat) (lopt rev cxl : Bool) :
    Only (At.has Feet.linkShowAt ([⟨.OCT_PORT_STATUS, p⟩] : List Reg)) (linkShow p rate lanes lopt rev cxl) := by
  unfold linkShow
  with_reducible repeat' first
    | exact Only.pure _ | exact Only.getM | refine Only.bind ?_ fun _ => ?_ | refine Only.ite ?_ ?_ | exact Only.rd _
    | exact Only.rdReg _ _ | (apply at_le (laneBits_only ..); decide +kernel) | refine at_wr ?_ | exact Cov.nil
    | refine Cov.cons (.inl (by decide +kernel)) ?_ | refine Cov.cons (.inr ?_) ?_ | exact List.mem_cons_self

/-- What `trainingL0` can change, but for the registers that it names by its operands. -/
def Feet.trainingL0At : Mask := .of [.OCT_STATUS, .PMU_BANK_OVF, .PMU_CNT] [.out, .evPend, .hlog, .port, .xin, .alost,
  .kacc]

theorem trainingL0_at (p : Nat) (l : LinkUp) :
    Only (At.has Feet.trainingL0At ([⟨.OCT_PORT_IDE, p⟩, ⟨.OCT_PORT_STATUS, p⟩, ⟨.OCT_PORT_TRAIN, p⟩] : List Reg))
      (trainingL0 p l) := by
  simp only [trainingL0, modPort, getPort, putPort]
  with_reducible repeat' first
    | exact Only.pure _ | exact Only.getM | refine Only.bind ?_ fun _ => ?_ | refine Only.onlyIf ?_
    | refine Only.each fun _ _ => ?_ | refine Only.ite ?_ ?_ | exact Only.rd _ | exact Only.rdReg _ _
    | exact at_doT .port rfl (by decide +kernel) | (apply at_le (raise_only ..); decide +kernel)
    | (apply at_le (laneBits_only ..); decide +kernel) | (apply atLe (portToUp_at ..); focus decide +kernel)
    | (apply atLe (portHold_at ..); focus decide +kernel) | (apply atLe (linkShow_at ..); focus decide +kernel)
    | refine at_wr ?_ | exact Cov.nil | refine Cov.cons (.inl (by decide +kernel)) ?_ | refine Cov.cons (.inr ?_) ?_
    | exact List.mem_cons_self | refine List.mem_cons_of_mem _ ?_

/-- What `trainTimeout` can change, but for the registers that it names by its operands. -/
def Feet.trainTimeoutAt : Mask := .of [.OCT_STATUS] [.out, .evPend, .hlog, .port]

theorem trainTimeout_at (p : Nat) :
    Only (At.has Feet.trainTimeoutAt ([⟨.OCT_PORT_CNT0, p⟩, ⟨.OCT_PORT_IDE, p⟩, ⟨.OCT_PORT_STATUS, p⟩,
      ⟨.OCT_PORT_TRAIN, p⟩] : List Reg)) (trainTimeout p) := by
  unfold trainTimeout
  with_reducible repeat' first
    | exact Only.pure _ | exact Only.getM | refine Only.bind ?_ fun _ => ?_ | refine Only.ite ?_ ?_ | exact Only.rd _
    | exact Only.rdReg _ _ | (apply at_le (raise_only ..); decide +kernel)
    | (apply atLe (trainStart_at ..); focus decide +kernel) | (apply atLe (portHold_at ..); focus decide +kernel)
    | refine at_inc ?_ | exact Cov.nil | refine Cov.cons (.inl (by decide +kernel)) ?_ | refine Cov.cons (.inr ?_) ?_
    | exact List.mem_cons_self | refine List.mem_cons_of_mem _ ?_

/-- What `xrateFall` can change, but for the registers that it names by its operands. -/
def Feet.xrateFallAt : Mask := .of [] [.evPend, .hlog, .port]

theorem xrateFall_at (p : Nat) :
    Only (At.has Feet.xrateFallAt ([⟨.OCT_PORT_CNT0, p⟩] : List Reg)) (xrateFall p) := by
  simp only [xrateFall, modPort, getPort, putPort]
  with_reducible repeat' first
    | exact Only.pure _ | exact Only.getM | refine Only.bind ?_ fun _ => ?_ | exact Only.rd _ | exact Only.rdReg _ _
    | exact at_doT .port rfl (by decide +kernel) | (apply at_le (raise_only ..); decide +kernel) | refine at_inc ?_
    | exact Cov.nil | refine Cov.cons (.inl (by decide +kernel)) ?_ | refine Cov.cons (.inr ?_) ?_
    | exact List.mem_cons_self

/-- What `xrateTimeout` can change, but for the registers that it names by its operands. -/
def Feet.xrateTimeoutAt : Mask := .of [] [.evPend, .hlog, .port]

theorem xrateTimeout_at (p : Nat) :
    Only (At.has Feet.xrateTimeoutAt ([⟨.OCT_PORT_CNT0, p⟩] : List Reg)) (xrateTimeout p) := by
  unfold xrateTimeout
  with_reducible repeat' first
    | exact Only.pure _ | exact Only.getM | refine Only.bind ?_ fun _ => ?_ | refine Only.onlyIf ?_ | exact Only.rd _
    | exact Only.rdReg _ _ | (apply atLe (xrateFall_at ..); focus decide +kernel) | exact Cov.nil
    | refine Cov.cons (.inl (by decide +kernel)) ?_ | refine Cov.cons (.inr ?_) ?_ | exact List.mem_cons_self

/-- What `recoveryDone` can change, but for the registers that it names by its operands. -/
def Feet.recoveryDoneAt : Mask := .of [.OCT_STATUS, .PMU_BANK_OVF, .PMU_CNT, .RNG_CNT, .RNG_CTL, .RNG_PROG,
  .RNG_STATUS, .SQ_CNT, .SQ_PURGE_MASK, .SQ_PURGE_STATUS, .TM_SPILL_STATUS, .TWN_CNT, .TWN_ROLE, .TWN_SETTLE,
  .XB_BUF_STATUS, .XB_CNT] [.out, .evPend, .hlog, .port, .ring, .xin, .xq, .xaged, .mcs, .mcq, .xfree, .owed, .xacct,
  .sqin, .dir, .trk, .memT, .bic, .sqx, .crec, .cwait, .crn, .mtt, .alost, .twx, .sfree, .tq, .push, .kacc, .cout,
  .arrT]

theorem recoveryDone_at (p : Nat) (l : LinkUp) :
    Only (At.has Feet.recoveryDoneAt ([⟨.OCT_CRN_CNT_RETURN, p / 4⟩, ⟨.OCT_PORT_CNT0, p⟩, ⟨.OCT_PORT_STATUS, p⟩,
      ⟨.OCT_PORT_TRAIN, p⟩] : List Reg)) (recoveryDone p l) := by
  simp only [recoveryDone, modPort, getPort, putPort]
  with_reducible repeat' first
    | exact Only.pure _ | exact Only.getM | refine Only.bind ?_ fun _ => ?_ | refine Only.onlyIf ?_
    | refine Only.ite ?_ ?_ | exact Only.rd _ | exact Only.rdReg _ _ | exact at_doT .port rfl (by decide +kernel)
    | (apply at_le (raise_only ..); decide +kernel) | (apply at_le (linkPolicy_only ..); decide +kernel)
    | (apply atLe (portLeaveUp_at ..); focus decide +kernel) | (apply atLe (portHold_at ..); focus decide +kernel)
    | (apply atLe (linkShow_at ..); focus decide +kernel) | (apply atLe (xrateFall_at ..); focus decide +kernel)
    | refine at_wr ?_ | exact Cov.nil | refine Cov.cons (.inl (by decide +kernel)) ?_ | refine Cov.cons (.inr ?_) ?_
    | exact List.mem_cons_self | refine List.mem_cons_of_mem _ ?_

/-- What `linkDown` can change, but for the registers that it names by its operands. -/
def Feet.linkDownAt : Mask := .of [.OCT_STATUS, .PMU_BANK_OVF, .PMU_CNT, .RNG_CNT, .RNG_CTL, .RNG_PROG, .RNG_STATUS,
  .SQ_CNT, .SQ_PURGE_MASK, .SQ_PURGE_STATUS, .TM_SPILL_STATUS, .TWN_CNT, .TWN_ROLE, .TWN_SETTLE, .XB_BUF_STATUS,
  .XB_CNT] [.out, .evPend, .hlog, .port, .ring, .xin, .xq, .xaged, .mcs, .mcq, .xfree, .owed, .xacct, .sqin, .dir,
  .trk, .memT, .bic, .sqx, .crec, .cwait, .crn, .mtt, .alost, .twx, .sfree, .tq, .push, .kacc, .cout, .arrT]

theorem linkDown_at (p : Nat) :
    Only (At.has Feet.linkDownAt ([⟨.OCT_CRN_CNT_RETURN, p / 4⟩, ⟨.OCT_PORT_CNT0, p⟩, ⟨.OCT_PORT_IDE, p⟩,
      ⟨.OCT_PORT_STATUS, p⟩, ⟨.OCT_PORT_TRAIN, p⟩] : List Reg)) (linkDown p) := by
  unfold linkDown
  with_reducible repeat' first
    | exact Only.pure _ | exact Only.getM | refine Only.bind ?_ fun _ => ?_ | refine Only.onlyIf ?_
    | refine Only.ite ?_ ?_ | exact Only.rd _ | exact Only.rdReg _ _ | (apply at_le (raise_only ..); decide +kernel)
    | (apply atLe (trainStart_at ..); focus decide +kernel) | (apply atLe (portFlush_at ..); focus decide +kernel)
    | exact Cov.nil | refine Cov.cons (.inl (by decide +kernel)) ?_ | refine Cov.cons (.inr ?_) ?_
    | exact List.mem_cons_self | refine List.mem_cons_of_mem _ ?_

/-- What `ideSecure` can change, but for the registers that it names by its operands. -/
def Feet.ideSecureAt : Mask := .of [.PMU_BANK_OVF, .PMU_CNT] [.out, .port, .xin, .alost, .kacc]

theorem ideSecure_at (p mode : Nat) (kset : Bool) :
    Only (At.has Feet.ideSecureAt ([⟨.OCT_PORT_IDE, p⟩, ⟨.OCT_PORT_STATUS, p⟩] : List Reg)) (ideSecure p mode kset) :=
      by
  unfold ideSecure
  with_reducible repeat' first
    | exact Only.pure _ | exact Only.getM | refine Only.bind ?_ fun _ => ?_ | refine Only.onlyIf ?_
    | refine Only.ite ?_ ?_ | exact Only.rd _ | exact Only.rdReg _ _
    | (apply atLe (portToUp_at ..); focus decide +kernel) | refine at_wr ?_ | exact Cov.nil
    | refine Cov.cons (.inl (by decide +kernel)) ?_ | refine Cov.cons (.inr ?_) ?_ | exact List.mem_cons_self
    | refine List.mem_cons_of_mem _ ?_

/-- What `ideKm` can change, but for the registers that it names by its operands. -/
def Feet.ideKmAt : Mask := .of [] []

theorem ideKm_at (p : Nat) (k : IdeKm) :
    Only (At.has Feet.ideKmAt ([⟨.OCT_PORT_IDE, p⟩] : List Reg)) (ideKm p k) := by
  unfold ideKm
  with_reducible repeat' first
    | exact Only.pure _ | exact Only.getM | refine Only.bind ?_ fun _ => ?_ | refine Only.onlyIf ?_
    | refine Only.ite ?_ ?_ | exact Only.rd _ | exact Only.rdReg _ _ | refine at_wr ?_ | refine at_inc ?_
    | exact Cov.nil | refine Cov.cons (.inl (by decide +kernel)) ?_ | refine Cov.cons (.inr ?_) ?_
    | exact List.mem_cons_self | refine List.mem_cons_of_mem _ ?_ | split

/-- What `ideFail` can change, but for the registers that it names by its operands. -/
def Feet.ideFailAt : Mask := .of [.OCT_STATUS, .PMU_BANK_OVF, .PMU_CNT, .RNG_CNT, .RNG_CTL, .RNG_PROG, .RNG_STATUS,
  .SQ_CNT, .SQ_PURGE_MASK, .SQ_PURGE_STATUS, .TM_SPILL_STATUS, .TWN_CNT, .TWN_ROLE, .TWN_SETTLE, .XB_BUF_STATUS,
  .XB_CNT] [.out, .evPend, .hlog, .port, .ring, .xin, .xq, .xaged, .mcs, .mcq, .xfree, .owed, .xacct, .sqin, .dir,
  .trk, .memT, .bic, .sqx, .crec, .cwait, .crn, .mtt, .alost, .twx, .sfree, .tq, .push, .kacc, .cout, .arrT]

theorem ideFail_at (p : Nat) :
    Only (At.has Feet.ideFailAt ([⟨.OCT_CRN_CNT_RETURN, p / 4⟩, ⟨.OCT_PORT_CNT0, p⟩, ⟨.OCT_PORT_IDE, p⟩,
      ⟨.OCT_PORT_STATUS, p⟩] : List Reg)) (ideFail p) := by
  unfold ideFail
  with_reducible repeat' first
    | exact Only.pure _ | exact Only.getM | refine Only.bind ?_ fun _ => ?_ | refine Only.ite ?_ ?_ | exact Only.rd _
    | exact Only.rdReg _ _ | (apply at_le (raise_only ..); decide +kernel)
    | (apply atLe (portFlush_at ..); focus decide +kernel) | refine at_inc ?_ | exact Cov.nil
    | refine Cov.cons (.inl (by decide +kernel)) ?_ | refine Cov.cons (.inr ?_) ?_ | exact List.mem_cons_self
    | refine List.mem_cons_of_mem _ ?_

/-- What `flushComplete` can change, but for the registers that it names by its operands. -/
def Feet.flushCompleteAt : Mask := .of [.OCT_STATUS] [.out, .port]

theorem flushComplete_at (p : Nat) :
    Only (At.has Feet.flushCompleteAt ([⟨.OCT_PORT_IDE, p⟩, ⟨.OCT_PORT_STATUS, p⟩, ⟨.OCT_PORT_TRAIN, p⟩] : List Reg))
      (flushComplete p) := by
  unfold flushComplete
  with_reducible repeat' first
    | exact Only.pure _ | exact Only.getM | refine Only.bind ?_ fun _ => ?_ | refine Only.ite ?_ ?_ | exact Only.rd _
    | exact Only.rdReg _ _ | (apply atLe (portTo_at ..); focus decide +kernel)
    | (apply atLe (trainStart_at ..); focus decide +kernel) | exact Cov.nil
    | refine Cov.cons (.inl (by decide +kernel)) ?_ | refine Cov.cons (.inr ?_) ?_ | exact List.mem_cons_self
    | refine List.mem_cons_of_mem _ ?_

/-- What `flushTimeout` can change, but for the registers that it names by its operands. -/
def Feet.flushTimeoutAt : Mask := .of [] [.evPend, .hlog]

theorem flushTimeout_at (p : Nat) :
    Only (At.has Feet.flushTimeoutAt ([⟨.OCT_PORT_CTL, p⟩, ⟨.OCT_PORT_STATUS, p⟩] : List Reg)) (flushTimeout p) := by
  unfold flushTimeout
  with_reducible repeat' first
    | exact Only.pure _ | exact Only.getM | refine Only.bind ?_ fun _ => ?_ | refine Only.ite ?_ ?_ | exact Only.rd _
    | exact Only.rdReg _ _ | (apply at_le (raise_only ..); decide +kernel)
    | (apply atLe (portTo_at ..); focus decide +kernel) | refine at_wr ?_ | exact Cov.nil
    | refine Cov.cons (.inl (by decide +kernel)) ?_ | refine Cov.cons (.inr ?_) ?_ | exact List.mem_cons_self
    | refine List.mem_cons_of_mem _ ?_

/-- What `slotPerstShow` can change, but for the registers that it names by its operands. -/
def Feet.slotPerstShowAt : Mask := .of [] [.pins]

theorem slotPerstShow_at (n : Nat) :
    Only (At.has Feet.slotPerstShowAt ([⟨.OCT_STATUS, n⟩] : List Reg)) (slotPerstShow n) := by
  simp only [slotPerstShow, modPins, getPins, putPins]
  with_reducible repeat' first
    | exact Only.pure _ | exact Only.getM | refine Only.bind ?_ fun _ => ?_ | refine Only.ite ?_ ?_ | exact Only.rd _
    | exact Only.rdReg _ _ | exact at_doT .pins rfl (by decide +kernel) | refine at_wr ?_ | exact Cov.nil
    | refine Cov.cons (.inl (by decide +kernel)) ?_ | refine Cov.cons (.inr ?_) ?_ | exact List.mem_cons_self

/-- What `slotPerstAssert` can change, but for the registers that it names by its operands. -/
def Feet.slotPerstAssertAt : Mask := .of [] [.pins, .port]

theorem slotPerstAssert_at (n : Nat) :
    Only (At.has Feet.slotPerstAssertAt ([⟨.OCT_STATUS, n⟩] : List Reg)) (slotPerstAssert n) := by
  simp only [slotPerstAssert, modPort, getPort, putPort]
  with_reducible repeat' first
    | exact Only.pure _ | exact Only.getM | refine Only.bind ?_ fun _ => ?_ | exact Only.rd _ | exact Only.rdReg _ _
    | exact at_doT .port rfl (by decide +kernel) | (apply atLe (slotPerstShow_at ..); focus decide +kernel)
    | exact Cov.nil | refine Cov.cons (.inl (by decide +kernel)) ?_ | refine Cov.cons (.inr ?_) ?_
    | exact List.mem_cons_self

/-- What `slotPerstRelease` can change, but for the registers that it names by its operands. -/
def Feet.slotPerstReleaseAt : Mask := .of [] [.pins, .port]

theorem slotPerstRelease_at (n : Nat) :
    Only (At.has Feet.slotPerstReleaseAt ([⟨.OCT_STATUS, n⟩] : List Reg)) (slotPerstRelease n) := by
  simp only [slotPerstRelease, modPort, getPort, putPort]
  with_reducible repeat' first
    | exact Only.pure _ | exact Only.getM | refine Only.bind ?_ fun _ => ?_ | refine Only.ite ?_ ?_ | exact Only.rd _
    | exact Only.rdReg _ _ | exact at_doT .port rfl (by decide +kernel)
    | (apply atLe (slotPerstShow_at ..); focus decide +kernel) | exact Cov.nil
    | refine Cov.cons (.inl (by decide +kernel)) ?_ | refine Cov.cons (.inr ?_) ?_ | exact List.mem_cons_self

/-- What `msgInvalid` can change, but for the registers that it names by its operands. -/
def Feet.msgInvalidAt : Mask := .of [] []

theorem msgInvalid_at (p : Nat) :
    Only (At.has Feet.msgInvalidAt ([⟨.OCT_PORT_CNT1, p⟩] : List Reg)) (msgInvalid p) := by
  unfold msgInvalid
  with_reducible repeat' first
    | exact Only.pure _ | exact Only.getM | refine Only.bind ?_ fun _ => ?_ | exact Only.rd _ | exact Only.rdReg _ _
    | refine at_inc ?_ | exact Cov.nil | refine Cov.cons (.inl (by decide +kernel)) ?_ | refine Cov.cons (.inr ?_) ?_
    | exact List.mem_cons_self

/-- What `decodeMiss` can change, but for the registers that it names by its operands. -/
def Feet.decodeMissAt : Mask := .of [] [.evPend, .hlog]

theorem decodeMiss_at (p addr : Nat) :
    Only (At.has Feet.decodeMissAt ([⟨.OCT_PORT_CNT1, p⟩] : List Reg)) (decodeMiss p addr) := by
  unfold decodeMiss
  with_reducible repeat' first
    | exact Only.pure _ | exact Only.getM | refine Only.bind ?_ fun _ => ?_ | exact Only.rd _ | exact Only.rdReg _ _
    | refine at_countFirst (by decide +kernel) ?_ | exact Cov.nil | refine Cov.cons (.inl (by decide +kernel)) ?_
    | refine Cov.cons (.inr ?_) ?_ | exact List.mem_cons_self

/-- What `poisonIn` can change, but for the registers that it names by its operands. -/
def Feet.poisonInAt : Mask := .of [] [.evPend, .hlog]

theorem poisonIn_at (p : Nat) (q : Msg) :
    Only (At.has Feet.poisonInAt ([⟨.INT_CNT_PIN, 2⟩] : List Reg)) (poisonIn p q) := by
  unfold poisonIn
  with_reducible repeat' first
    | exact Only.pure _ | exact Only.getM | refine Only.bind ?_ fun _ => ?_ | refine Only.onlyIf ?_ | exact Only.rd _
    | exact Only.rdReg _ _ | (apply atLe (poisonReceived_at ..); focus decide +kernel) | exact Cov.nil
    | refine Cov.cons (.inl (by decide +kernel)) ?_ | refine Cov.cons (.inr ?_) ?_ | exact List.mem_cons_self

/-- What `received` can change, but for the registers that it names by its operands. -/
def Feet.receivedAt : Mask := .of [.XB_BUF_STATUS] [.evPend, .hlog, .xfree, .mir]

theorem received_at (p : Nat) (q : Msg) (refused : Bool) :
    Only (At.has Feet.receivedAt ([⟨.INT_CNT_PIN, 2⟩, ⟨.XB_MIR_CNT, 0⟩, ⟨.XB_MIR_CNT, 1⟩] : List Reg)) (received p q
      refused) := by
  unfold received
  with_reducible repeat' first
    | exact Only.pure _ | exact Only.getM | refine Only.bind ?_ fun _ => ?_ | exact Only.rd _ | exact Only.rdReg _ _
    | (apply atLe (mirrorBoth_at ..); focus decide +kernel) | (apply atLe (poisonIn_at ..); focus decide +kernel)
    | exact Cov.nil | refine Cov.cons (.inl (by decide +kernel)) ?_ | refine Cov.cons (.inr ?_) ?_
    | exact List.mem_cons_self | refine List.mem_cons_of_mem _ ?_

/-- What `missReq` can change, but for the registers that it names by its operands. -/
def Feet.missReqAt : Mask := .of [.KRB_CNT, .PMU_BANK_OVF, .PMU_CNT, .TEN_VIOL, .TEN_VIOL_ADDR, .TEN_VIOL_COUNT,
  .TEN_VIOL_TIME, .XB_BUF_STATUS] [.out, .evPend, .hlog, .xfree, .mir]

theorem missReq_at (p v : Nat) (q : Msg) :
    Only (At.has Feet.missReqAt ([⟨.INT_CNT_PIN, 2⟩, ⟨.OCT_PORT_CNT1, p⟩, ⟨.XB_MIR_CNT, 0⟩, ⟨.XB_MIR_CNT, 1⟩] : List
      Reg)) (missReq p v q) := by
  unfold missReq
  with_reducible repeat' first
    | exact Only.pure _ | exact Only.getM | refine Only.bind ?_ fun _ => ?_ | exact Only.rd _ | exact Only.rdReg _ _
    | (apply atLe (decodeMiss_at ..); focus decide +kernel) | (apply atLe (received_at ..); focus decide +kernel)
    | (apply at_le (octetAnswer_only ..); decide +kernel) | (apply at_le (hostCheck_only ..); decide +kernel)
    | exact Cov.nil | refine Cov.cons (.inl (by decide +kernel)) ?_ | refine Cov.cons (.inr ?_) ?_
    | exact List.mem_cons_self | refine List.mem_cons_of_mem _ ?_

/-- What `domainReq` can change, but for the registers that it names by its operands. -/
def Feet.domainReqAt : Mask := .of [.KRB_CNT, .PMU_BANK_OVF, .PMU_CNT, .SQ_CNT, .TEN_VIOL, .TEN_VIOL_ADDR,
  .TEN_VIOL_COUNT, .TEN_VIOL_TIME, .XB_BUF_STATUS] [.out, .evPend, .hlog, .xin, .xfree, .mir, .kacc]

theorem domainReq_at (p v : Nat) (q : Msg) (a : Nat) :
    Only (At.has Feet.domainReqAt ([⟨.INT_CNT_PIN, 2⟩, ⟨.OCT_PORT_CNT1, p⟩, ⟨.XB_MIR_CNT, 0⟩, ⟨.XB_MIR_CNT, 1⟩] : List
      Reg)) (domainReq p v q a) := by
  unfold domainReq
  with_reducible repeat' first
    | exact Only.pure _ | exact Only.getM | refine Only.bind ?_ fun _ => ?_ | refine Only.onlyIf ?_
    | refine Only.ite ?_ ?_ | exact Only.rd _ | exact Only.rdReg _ _
    | exact atM (countFirst_only _ (by decide +kernel) (k := .SQ_CNT) rfl (by decide +kernel))
    | (apply at_le (emit_only ..); decide +kernel) | (apply at_le (kerbDone_only ..); decide +kernel)
    | (apply at_le (xsend_only ..); decide +kernel) | (apply at_le (hostAccess_only ..); decide +kernel)
    | (apply atLe (decodeMiss_at ..); focus decide +kernel) | (apply atLe (received_at ..); focus decide +kernel)
    | (apply at_le (rxDone_only ..); decide +kernel) | (apply at_le (octetAnswer_only ..); decide +kernel)
    | (apply at_le (hostCheck_only ..); decide +kernel) | exact Cov.nil
    | refine Cov.cons (.inl (by decide +kernel)) ?_ | refine Cov.cons (.inr ?_) ?_ | exact List.mem_cons_self
    | refine List.mem_cons_of_mem _ ?_ | split

/-- What `plazaReq` can change, but for the registers that it names by its operands. -/
def Feet.plazaReqAt : Mask := .of [.PMU_BANK_OVF, .PMU_CNT, .XB_BUF_STATUS] [.evPend, .hlog, .xin, .xfree, .mir,
  .kacc]

theorem plazaReq_at (p : Nat) (q : Msg) (a : Nat) :
    Only (At.has Feet.plazaReqAt ([⟨.INT_CNT_PIN, 2⟩, ⟨.XB_MIR_CNT, 0⟩, ⟨.XB_MIR_CNT, 1⟩] : List Reg)) (plazaReq p q
      a) := by
  unfold plazaReq
  with_reducible repeat' first
    | exact Only.pure _ | exact Only.getM | refine Only.bind ?_ fun _ => ?_ | refine Only.ite ?_ ?_ | exact Only.rd _
    | exact Only.rdReg _ _ | (apply at_le (xsend_only ..); decide +kernel)
    | (apply atLe (received_at ..); focus decide +kernel) | exact Cov.nil
    | refine Cov.cons (.inl (by decide +kernel)) ?_ | refine Cov.cons (.inr ?_) ?_ | exact List.mem_cons_self
    | refine List.mem_cons_of_mem _ ?_

/-- What `hostMem` can change, but for the registers that it names by its operands. -/
def Feet.hostMemAt : Mask := .of [.KRB_CNT, .PMU_BANK_OVF, .PMU_CNT, .SQ_CNT, .TEN_VIOL, .TEN_VIOL_ADDR,
  .TEN_VIOL_COUNT, .TEN_VIOL_TIME, .XB_BUF_STATUS] [.out, .evPend, .hlog, .xin, .xfree, .mir, .kacc]

theorem hostMem_at (p : Nat) (q0 : Msg) :
    Only (At.has Feet.hostMemAt ([⟨.INT_CNT_PIN, 2⟩, ⟨.OCT_PORT_CNT1, p⟩, ⟨.XB_MIR_CNT, 0⟩, ⟨.XB_MIR_CNT, 1⟩] : List
      Reg)) (hostMem p q0) := by
  unfold hostMem
  with_reducible repeat' first
    | exact Only.pure _ | exact Only.getM | refine Only.bind ?_ fun _ => ?_ | refine Only.ite ?_ ?_ | exact Only.rd _
    | exact Only.rdReg _ _ | (apply at_le (xsend_only ..); decide +kernel)
    | (apply atLe (msgInvalid_at ..); focus decide +kernel) | (apply atLe (received_at ..); focus decide +kernel)
    | (apply atLe (missReq_at ..); focus decide +kernel) | (apply atLe (domainReq_at ..); focus decide +kernel)
    | (apply atLe (plazaReq_at ..); focus decide +kernel) | exact Cov.nil
    | refine Cov.cons (.inl (by decide +kernel)) ?_ | refine Cov.cons (.inr ?_) ?_ | exact List.mem_cons_self
    | refine List.mem_cons_of_mem _ ?_ | split

/-- What `portMessage` can change, but for the registers that it names by its operands. -/
def Feet.portMessageAt : Mask := .of [.PMU_BANK_OVF, .PMU_CNT, .XB_BUF_STATUS] [.out, .evPend, .hlog, .xin, .xfree,
  .owed, .mir, .kacc]

theorem portMessage_at (p : Nat) (q0 : Msg) :
    Only (At.has Feet.portMessageAt ([⟨.INT_CNT_PIN, 2⟩, ⟨.OCT_PORT_CNT1, p⟩, ⟨.XB_MIR_CNT, 0⟩, ⟨.XB_MIR_CNT, 1⟩] :
      List Reg)) (portMessage p q0) := by
  unfold portMessage
  with_reducible repeat' first
    | exact Only.pure _ | exact Only.getM | refine Only.bind ?_ fun _ => ?_ | refine Only.ite ?_ ?_ | exact Only.rd _
    | exact Only.rdReg _ _ | (apply at_le (emit_only ..); decide +kernel)
    | (apply at_le (xsend_only ..); decide +kernel) | (apply at_le (owedDone_only ..); decide +kernel)
    | (apply atLe (msgInvalid_at ..); focus decide +kernel) | (apply atLe (received_at ..); focus decide +kernel)
    | (apply at_le (rxDone_only ..); decide +kernel) | exact Cov.nil | refine Cov.cons (.inl (by decide +kernel)) ?_
    | refine Cov.cons (.inr ?_) ?_ | exact List.mem_cons_self | refine List.mem_cons_of_mem _ ?_ | split

/-- What `messageDispatch` can change, but for the registers that it names by its operands. -/
def Feet.messageDispatchAt : Mask := .of [.PMU_BANK_OVF, .PMU_CNT, .TM_SPILL_STATUS, .TWN_SPN_CRED, .TWN_SPN_TXSEQ,
  .XB_BUF_STATUS, .XB_CNT] [.out, .evPend, .hlog, .port, .ring, .xin, .stg, .flowt, .xfree, .owed, .mir, .xwait,
  .xacct, .sqin, .stampCtr, .sfree, .tq, .push, .kacc, .reel, .spnBuf, .spnWait, .spn, .arrT]

theorem messageDispatch_at (i c : Nat) (q : Option Msg) :
    Only (At.has Feet.messageDispatchAt ([⟨.INT_CNT_PIN, 2⟩, ⟨.OCT_PORT_CNT1, i⟩, ⟨.TWN_SPN_CNT, 0⟩, ⟨.TWN_SPN_RCRED,
      c⟩, ⟨.XB_MIR_CNT, 0⟩, ⟨.XB_MIR_CNT, 1⟩] : List Reg)) (messageDispatch i c q) := by
  unfold messageDispatch
  with_reducible repeat' first
    | exact Only.pure _ | exact Only.getM | refine Only.bind ?_ fun _ => ?_ | refine Only.onlyIf ?_
    | refine Only.ite ?_ ?_ | exact Only.rd _ | exact Only.rdReg _ _
    | (apply atLe (dispatchHead_at ..); focus decide +kernel) | (apply atLe (msgInvalid_at ..); focus decide +kernel)
    | (apply atLe (portMessage_at ..); focus decide +kernel) | exact Cov.nil
    | refine Cov.cons (.inl (by decide +kernel)) ?_ | refine Cov.cons (.inr ?_) ?_ | exact List.mem_cons_self
    | refine List.mem_cons_of_mem _ ?_ | split

/-- What `ioMiss` can change, but for the registers that it names by its operands. -/
def Feet.ioMissAt : Mask := .of [] [.out, .evPend, .hlog]

theorem ioMiss_at (p : Nat) (q : Msg) :
    Only (At.has Feet.ioMissAt ([⟨.OCT_PORT_CNT1, p⟩] : List Reg)) (ioMiss p q) := by
  unfold ioMiss
  with_reducible repeat' first
    | exact Only.pure _ | exact Only.getM | refine Only.bind ?_ fun _ => ?_ | exact Only.rd _ | exact Only.rdReg _ _
    | (apply atLe (decodeMiss_at ..); focus decide +kernel) | (apply at_le (rxDone_only ..); decide +kernel)
    | (apply at_le (ioUr_only ..); decide +kernel) | exact Cov.nil | refine Cov.cons (.inl (by decide +kernel)) ?_
    | refine Cov.cons (.inr ?_) ?_ | exact List.mem_cons_self

/-- What `configRead` can change, but for the registers that it names by its operands. -/
def Feet.configReadAt : Mask := .of [] [.out, .freeCtr, .evPend, .hlog]

theorem configRead_at (p v n : Nat) (r : CfgReg) :
    Only (At.has Feet.configReadAt ([⟨.OCT_PORT_CNT1, p⟩] : List Reg)) (configRead p v n r) := by
  unfold configRead
  with_reducible repeat' first
    | exact Only.pure _ | exact Only.getM | refine Only.bind ?_ fun _ => ?_ | refine Only.ite ?_ ?_ | exact Only.rd _
    | exact Only.rdReg _ _ | (apply atLe (decodeMiss_at ..); focus decide +kernel)
    | (apply at_le (ioAnswer_only ..); decide +kernel) | (apply at_le (ioUr_only ..); decide +kernel)
    | (apply at_le (cfgRead_only ..); decide +kernel) | exact Cov.nil | refine Cov.cons (.inl (by decide +kernel)) ?_
    | refine Cov.cons (.inr ?_) ?_ | exact List.mem_cons_self

/-- What `ioToVppb` can change, but for the registers that it names by its operands. -/
def Feet.ioToVppbAt : Mask := .of [.PMU_BANK_OVF, .PMU_CNT] [.out, .freeCtr, .evPend, .hlog, .xin, .kacc]

theorem ioToVppb_at (p v n : Nat) (q : Msg) :
    Only (At.has Feet.ioToVppbAt ([⟨.OCT_PORT_CNT1, p⟩] : List Reg)) (ioToVppb p v n q) := by
  unfold ioToVppb
  with_reducible repeat' first
    | exact Only.pure _ | exact Only.getM | refine Only.bind ?_ fun _ => ?_ | refine Only.ite ?_ ?_ | exact Only.rd _
    | exact Only.rdReg _ _ | exact at_free _ (by decide +kernel) | (apply at_le (emit_only ..); decide +kernel)
    | (apply at_le (xsend_only ..); decide +kernel) | (apply at_le (rxDone_only ..); decide +kernel)
    | (apply atLe (ioMiss_at ..); focus decide +kernel) | exact Cov.nil
    | refine Cov.cons (.inl (by decide +kernel)) ?_ | refine Cov.cons (.inr ?_) ?_ | exact List.mem_cons_self
    | refine List.mem_cons_of_mem _ ?_ | split

/-- What `ioComplete` can change, but for the registers that it names by its operands. -/
def Feet.ioCompleteAt : Mask := .of [.PMU_BANK_OVF, .PMU_CNT, .XB_BUF_STATUS] [.evPend, .hlog, .xin, .xfree, .owed,
  .mir, .kacc]

theorem ioComplete_at (p : Nat) (q : Msg) :
    Only (At.has Feet.ioCompleteAt ([⟨.INT_CNT_PIN, 2⟩, ⟨.OCT_PORT_CNT1, p⟩, ⟨.XB_MIR_CNT, 0⟩, ⟨.XB_MIR_CNT, 1⟩] :
      List Reg)) (ioComplete p q) := by
  unfold ioComplete
  with_reducible repeat' first
    | exact Only.pure _ | exact Only.getM | refine Only.bind ?_ fun _ => ?_ | refine Only.ite ?_ ?_ | exact Only.rd _
    | exact Only.rdReg _ _ | (apply at_le (xsend_only ..); decide +kernel)
    | (apply at_le (owedDone_only ..); decide +kernel) | (apply atLe (msgInvalid_at ..); focus decide +kernel)
    | (apply atLe (received_at ..); focus decide +kernel) | exact Cov.nil
    | refine Cov.cons (.inl (by decide +kernel)) ?_ | refine Cov.cons (.inr ?_) ?_ | exact List.mem_cons_self
    | refine List.mem_cons_of_mem _ ?_

/-- What `ioMessage` can change, but for the registers that it names by its operands. -/
def Feet.ioMessageAt : Mask := .of [.PMU_BANK_OVF, .PMU_CNT, .XB_BUF_STATUS] [.out, .freeCtr, .evPend, .hlog, .xin,
  .xfree, .owed, .mir, .kacc]

theorem ioMessage_at (p : Nat) (q0 : Msg) :
    Only (At.has Feet.ioMessageAt ([⟨.INT_CNT_PIN, 2⟩, ⟨.OCT_PORT_CNT1, p⟩, ⟨.XB_MIR_CNT, 0⟩, ⟨.XB_MIR_CNT, 1⟩] : List
      Reg)) (ioMessage p q0) := by
  unfold ioMessage
  with_reducible repeat' first
    | exact Only.pure _ | exact Only.getM | refine Only.bind ?_ fun _ => ?_ | refine Only.ite ?_ ?_ | exact Only.rd _
    | exact Only.rdReg _ _ | (apply at_le (xsend_only ..); decide +kernel)
    | (apply atLe (msgInvalid_at ..); focus decide +kernel) | (apply atLe (received_at ..); focus decide +kernel)
    | (apply atLe (ioMiss_at ..); focus decide +kernel) | (apply atLe (ioToVppb_at ..); focus decide +kernel)
    | (apply atLe (ioComplete_at ..); focus decide +kernel) | exact Cov.nil
    | refine Cov.cons (.inl (by decide +kernel)) ?_ | refine Cov.cons (.inr ?_) ?_ | exact List.mem_cons_self
    | refine List.mem_cons_of_mem _ ?_ | split

/-- What `hostIo` can change, but for the registers that it names by its operands. -/
def Feet.hostIoAt : Mask := .of [.PMU_BANK_OVF, .PMU_CNT, .XB_BUF_STATUS] [.out, .freeCtr, .evPend, .hlog, .dec, .sf,
  .msix, .xin, .xfree, .owed, .mir, .kacc, .vwin]

theorem hostIo_at (p : Nat) (r : IoReq) :
    Only (At.has Feet.hostIoAt ([⟨.INT_CNT_PIN, 2⟩, ⟨.OCT_PORT_CNT1, p⟩, ⟨.XB_MIR_CNT, 0⟩, ⟨.XB_MIR_CNT, 1⟩] : List
      Reg)) (hostIo p r) := by
  simp only [hostIo, putVwin]
  with_reducible repeat' first
    | exact Only.pure _ | exact Only.getM | refine Only.bind ?_ fun _ => ?_ | refine Only.onlyIf ?_
    | refine Only.ite ?_ ?_ | exact Only.rd _ | exact Only.rdReg _ _ | exact at_doT .vwin rfl (by decide +kernel)
    | (apply atLe (msgInvalid_at ..); focus decide +kernel) | (apply at_le (decoderSet_only ..); decide +kernel)
    | (apply at_le (decoderRead_only ..); decide +kernel) | (apply atLe (configRead_at ..); focus decide +kernel)
    | (apply atLe (ioMessage_at ..); focus decide +kernel) | (apply at_le (msixWrite_only ..); decide +kernel)
    | exact Cov.nil | refine Cov.cons (.inl (by decide +kernel)) ?_ | refine Cov.cons (.inr ?_) ?_
    | exact List.mem_cons_self | refine List.mem_cons_of_mem _ ?_ | split

/-- What `edgeMessage` can change, but for the registers that it names by its operands. -/
def Feet.edgeMessageAt : Mask := .of [.PMU_BANK_OVF, .PMU_CNT, .XB_BUF_STATUS] [.out, .freeCtr, .evPend, .hlog, .xin,
  .xfree, .owed, .mir, .kacc]

theorem edgeMessage_at (p dpid spid : Nat) (q : Msg) :
    Only (At.has Feet.edgeMessageAt ([⟨.INT_CNT_PIN, 2⟩, ⟨.OCT_PORT_CNT1, p⟩, ⟨.XB_MIR_CNT, 0⟩, ⟨.XB_MIR_CNT, 1⟩] :
      List Reg)) (edgeMessage p dpid spid q) := by
  unfold edgeMessage
  with_reducible repeat' first
    | exact Only.pure _ | exact Only.getM | refine Only.bind ?_ fun _ => ?_ | refine Only.ite ?_ ?_ | exact Only.rd _
    | exact Only.rdReg _ _ | (apply atLe (msgInvalid_at ..); focus decide +kernel)
    | (apply atLe (portMessage_at ..); focus decide +kernel) | (apply atLe (ioMessage_at ..); focus decide +kernel)
    | exact Cov.nil | refine Cov.cons (.inl (by decide +kernel)) ?_ | refine Cov.cons (.inr ?_) ?_
    | exact List.mem_cons_self | refine List.mem_cons_of_mem _ ?_ | split

/-- What `cacheRoute` can change, but for the registers that it names by its operands. -/
def Feet.cacheRouteAt : Mask := .of [.PMU_BANK_OVF, .PMU_CNT, .XB_BUF_STATUS] [.out, .evPend, .hlog, .xin, .xfree,
  .mir, .kacc, .cout]

theorem cacheRoute_at (p : Nat) (q : Msg) :
    Only (At.has Feet.cacheRouteAt ([⟨.INT_CNT_PIN, 2⟩, ⟨.OCT_PORT_CNT1, p⟩, ⟨.XB_MIR_CNT, 0⟩, ⟨.XB_MIR_CNT, 1⟩] :
      List Reg)) (cacheRoute p q) := by
  unfold cacheRoute
  with_reducible repeat' first
    | exact Only.pure _ | exact Only.getM | refine Only.bind ?_ fun _ => ?_ | refine Only.ite ?_ ?_ | exact Only.rd _
    | exact Only.rdReg _ _ | (apply at_le (xsend_only ..); decide +kernel)
    | (apply at_le (cacheDown_only ..); decide +kernel) | (apply atLe (msgInvalid_at ..); focus decide +kernel)
    | (apply atLe (received_at ..); focus decide +kernel) | (apply at_le (rxDone_only ..); decide +kernel)
    | (apply at_le (cacheDone_only ..); decide +kernel) | (apply at_le (cacheOpen_only ..); decide +kernel)
    | exact Cov.nil | refine Cov.cons (.inl (by decide +kernel)) ?_ | refine Cov.cons (.inr ?_) ?_
    | exact List.mem_cons_self | refine List.mem_cons_of_mem _ ?_

/-- What `cacheMessage` can change, but for the registers that it names by its operands. -/
def Feet.cacheMessageAt : Mask := .of [.PMU_BANK_OVF, .PMU_CNT, .XB_BUF_STATUS] [.out, .evPend, .hlog, .xin, .xfree,
  .mir, .kacc, .cout]

theorem cacheMessage_at (p : Nat) (q0 : Msg) :
    Only (At.has Feet.cacheMessageAt ([⟨.INT_CNT_PIN, 2⟩, ⟨.OCT_PORT_CNT1, p⟩, ⟨.XB_MIR_CNT, 0⟩, ⟨.XB_MIR_CNT, 1⟩] :
      List Reg)) (cacheMessage p q0) := by
  unfold cacheMessage
  with_reducible repeat' first
    | exact Only.pure _ | exact Only.getM | refine Only.bind ?_ fun _ => ?_ | refine Only.ite ?_ ?_ | exact Only.rd _
    | exact Only.rdReg _ _ | (apply at_le (emit_only ..); decide +kernel)
    | (apply atLe (msgInvalid_at ..); focus decide +kernel) | (apply atLe (decodeMiss_at ..); focus decide +kernel)
    | (apply atLe (received_at ..); focus decide +kernel) | (apply at_le (rxDone_only ..); decide +kernel)
    | (apply atLe (cacheRoute_at ..); focus decide +kernel) | exact Cov.nil
    | refine Cov.cons (.inl (by decide +kernel)) ?_ | refine Cov.cons (.inr ?_) ?_ | exact List.mem_cons_self
    | refine List.mem_cons_of_mem _ ?_ | split

/-- What `biConflictIn` can change, but for the registers that it names by its operands. -/
def Feet.biConflictInAt : Mask := .of [.XB_BUF_STATUS] [.out, .evPend, .hlog, .xfree, .mir, .bic]

theorem biConflictIn_at (p addr tag : Nat) :
    Only (At.has Feet.biConflictInAt ([⟨.INT_CNT_PIN, 2⟩, ⟨.OCT_PORT_CNT1, p⟩, ⟨.XB_MIR_CNT, 0⟩, ⟨.XB_MIR_CNT, 1⟩] :
      List Reg)) (biConflictIn p addr tag) := by
  unfold biConflictIn
  with_reducible repeat' first
    | exact Only.pure _ | exact Only.getM | refine Only.bind ?_ fun _ => ?_ | refine Only.ite ?_ ?_ | exact Only.rd _
    | exact Only.rdReg _ _ | (apply at_le (biConflict_only ..); decide +kernel)
    | (apply atLe (msgInvalid_at ..); focus decide +kernel) | (apply atLe (received_at ..); focus decide +kernel)
    | (apply at_le (rxDone_only ..); decide +kernel) | exact Cov.nil | refine Cov.cons (.inl (by decide +kernel)) ?_
    | refine Cov.cons (.inr ?_) ?_ | exact List.mem_cons_self | refine List.mem_cons_of_mem _ ?_ | split

/-- What `wkInc` can change, but for the registers that it names by its operands. -/
def Feet.wkIncAt : Mask := .of [] []

theorem wkInc_at (c : Nat) :
    Only (At.has Feet.wkIncAt ([⟨.TWN_WHL_CNT, c⟩] : List Reg)) (wkInc c) := by
  unfold wkInc
  with_reducible repeat' first
    | exact Only.pure _ | exact Only.getM | refine Only.bind ?_ fun _ => ?_ | exact Only.rd _ | exact Only.rdReg _ _
    | refine at_inc ?_ | exact Cov.nil | refine Cov.cons (.inl (by decide +kernel)) ?_ | refine Cov.cons (.inr ?_) ?_
    | exact List.mem_cons_self

/-- What `fwFrame` can change, but for the registers that it names by its operands. -/
def Feet.fwFrameAt : Mask := .of [.TWN_WHL_CNT, .TWN_WHL_FW_CTL] []

theorem fwFrame_at (fault d0 d1 : Nat) :
    Only (At.has Feet.fwFrameAt ([⟨.TWN_WHL_FW_RX, 0⟩, ⟨.TWN_WHL_FW_RX, 1⟩] : List Reg)) (fwFrame fault d0 d1) := by
  unfold fwFrame
  with_reducible repeat' first
    | exact Only.pure _ | exact Only.getM | refine Only.bind ?_ fun _ => ?_ | refine Only.ite ?_ ?_ | exact Only.rd _
    | exact Only.rdReg _ _ | exact at_wrK .TWN_WHL_FW_CTL rfl (by decide +kernel)
    | (apply atLe (wkInc_at ..); focus decide +kernel) | (apply at_le (frameBad_only ..); decide +kernel)
    | refine at_wr ?_ | exact Cov.nil | refine Cov.cons (.inl (by decide +kernel)) ?_ | refine Cov.cons (.inr ?_) ?_
    | exact List.mem_cons_self | refine List.mem_cons_of_mem _ ?_

/-- What `scrubEnd` can change, but for the registers that it names by its operands. -/
def Feet.scrubEndAt : Mask := .of [.INT_SCRUB_STATUS] [.evPend, .hlog]

theorem scrubEnd_at  :
    Only (At.has Feet.scrubEndAt ([⟨.INT_SCRUB_SUM, 0⟩, ⟨.INT_SCRUB_SUM, 1⟩, ⟨.INT_SCRUB_SUM, 2⟩, ⟨.INT_SCRUB_SUM, 3⟩]
      : List Reg)) (scrubEnd ) := by
  unfold scrubEnd
  with_reducible repeat' first
    | exact Only.pure _ | exact Only.getM | refine Only.bind ?_ fun _ => ?_ | refine Only.ite ?_ ?_ | exact Only.rd _
    | exact Only.rdReg _ _ | exact at_wrK .INT_SCRUB_STATUS rfl (by decide +kernel)
    | (apply at_le (raise_only ..); decide +kernel) | refine at_wrReg ?_ | exact Cov.nil
    | refine Cov.cons (.inl (by decide +kernel)) ?_ | refine Cov.cons (.inr ?_) ?_ | exact List.mem_cons_self
    | refine List.mem_cons_of_mem _ ?_

/-- What `mergeDrain` can change, but for the registers that it names by its operands. -/
def Feet.mergeDrainAt : Mask := .of [] [.evPend, .hlog, .dir, .slot, .tq, .push, .kline]

theorem mergeDrain_at (mem inst i : Nat) (complete : Bool) (w : WordClass) :
    Only (At.has Feet.mergeDrainAt ([⟨.INT_CNT_CE, mem⟩, ⟨.INT_CNT_POISON, mem⟩] : List Reg)) (mergeDrain mem inst i
      complete w) := by
  unfold mergeDrain
  with_reducible repeat' first
    | exact Only.pure _ | exact Only.getM | refine Only.bind ?_ fun _ => ?_ | refine Only.ite ?_ ?_ | exact Only.rd _
    | exact Only.rdReg _ _ | (apply atLe (memPoisoned_at ..); focus decide +kernel)
    | (apply atLe (memCorrected_at ..); focus decide +kernel) | (apply at_le (markPoison_only ..); decide +kernel)
    | exact Cov.nil | refine Cov.cons (.inl (by decide +kernel)) ?_ | refine Cov.cons (.inr ?_) ?_
    | exact List.mem_cons_self | refine List.mem_cons_of_mem _ ?_ | split

/-- What `drainComplete` can change, but for the registers that it names by its operands. -/
def Feet.drainCompleteAt : Mask := .of [.FLW_W0, .FLW_W1, .INT_FE_LOG, .KRB_CNT, .KSK_BANK_STATUS, .KSK_CNT,
  .LM_CL_STATUS, .LM_CNT, .OCT_CRN_CNT_RETURN, .OCT_CRN_CNT_XFER, .OCT_PORT_CNT0, .OCT_PORT_CTL, .OCT_PORT_IDE,
  .OCT_PORT_STATUS, .OCT_PORT_TRAIN, .OCT_STATUS, .PMU_BANK_OVF, .PMU_CNT, .PWR_CLK_STATUS, .RNG_CNT, .RNG_CTL,
  .RNG_IDX, .RNG_PROG, .RNG_STATUS, .SQ_CNT, .SQ_PURGE_MASK, .SQ_PURGE_STATUS, .TEN_VIOL, .TEN_VIOL_ADDR,
  .TEN_VIOL_COUNT, .TEN_VIOL_TIME, .TM_BND_ST, .TM_CHAN_EGR1, .TM_CH_ST, .TM_CNT, .TM_PORT_ST, .TM_QOCC, .TM_QSCH_ST,
  .TM_QSTAT, .TM_RXB1, .TM_SPILL_STATUS, .TM_SRING_CTL, .TM_SRING_STATUS, .TM_STATUS, .TWN_BLIND, .TWN_CNT, .TWN_COPY,
  .TWN_ROLE, .TWN_SETTLE, .TWN_SPN_FAIL, .TWN_SPN_LANE, .TWN_SPN_STATUS, .TWN_SPN_TXSEQ, .TWN_TAKEOVER_TIME,
  .XB_BUF_STATUS, .XB_CNT, .XB_PLANE_STATUS, .XB_STATUS] [.out, .hold, .evPend, .evLost, .hlog, .port, .sf, .ring,
  .xin, .stg, .flowt, .xq, .xaged, .mcs, .mcq, .xfree, .owed, .xacct, .feSeen, .feDue, .xdown, .xret, .sqin, .dir,
  .trk, .specT, .memT, .mru, .bic, .sqx, .crec, .cwait, .crn, .mtt, .blind, .pagent, .alost, .twx, .slot, .srx,
  .pfree, .sfree, .tq, .push, .act, .buck, .bmove, .lane, .gopen, .wire, .kacc, .job, .acc, .accNext, .pred, .kline,
  .kmiss, .lmRem, .reel, .spnWait, .spn, .cout, .arrT]

theorem drainComplete_at (d : Nat) :
    Only (At.has Feet.drainCompleteAt ([⟨.PWR_DOM_STATUS, d⟩] : List Reg)) (drainComplete d) := by
  unfold drainComplete
  with_reducible repeat' first
    | exact Only.pure _ | exact Only.getM | refine Only.bind ?_ fun _ => ?_ | refine Only.ite ?_ ?_ | exact Only.rd _
    | exact Only.rdReg _ _ | (apply at_le (leaveOn_only ..); decide +kernel) | refine at_wr ?_ | exact Cov.nil
    | refine Cov.cons (.inl (by decide +kernel)) ?_ | refine Cov.cons (.inr ?_) ?_ | exact List.mem_cons_self

/-- What `pgDrop` can change, but for the registers that it names by its operands. -/
def Feet.pgDropAt : Mask := .of [] [.pins, .port]

theorem pgDrop_at (n : Nat) :
    Only (At.has Feet.pgDropAt ([⟨.OCT_STATUS, n⟩, ⟨.SLP_STATUS, n⟩] : List Reg)) (pgDrop n) := by
  unfold pgDrop
  with_reducible repeat' first
    | exact Only.pure _ | exact Only.getM | refine Only.bind ?_ fun _ => ?_ | exact Only.rd _ | exact Only.rdReg _ _
    | (apply atLe (slotPerstAssert_at ..); focus decide +kernel) | refine at_wr ?_ | exact Cov.nil
    | refine Cov.cons (.inl (by decide +kernel)) ?_ | refine Cov.cons (.inr ?_) ?_ | exact List.mem_cons_self
    | refine List.mem_cons_of_mem _ ?_

/-- What `gateOff` can change, but for the registers that it names by its operands. -/
def Feet.gateOffAt : Mask := .of [] [.pins, .port, .slp]

theorem gateOff_at (n : Nat) :
    Only (At.has Feet.gateOffAt ([⟨.OCT_STATUS, n⟩, ⟨.SLP_STATUS, n⟩] : List Reg)) (gateOff n) := by
  simp only [gateOff, modSlp, getSlp, putSlp]
  with_reducible repeat' first
    | exact Only.pure _ | exact Only.getM | refine Only.bind ?_ fun _ => ?_ | exact Only.rd _ | exact Only.rdReg _ _
    | exact at_doT .slp rfl (by decide +kernel) | (apply atLe (pgDrop_at ..); focus decide +kernel) | refine at_wr ?_
    | exact Cov.nil | refine Cov.cons (.inl (by decide +kernel)) ?_ | refine Cov.cons (.inr ?_) ?_
    | exact List.mem_cons_self | refine List.mem_cons_of_mem _ ?_

/-- What `slpSample` can change, but for the registers that it names by its operands. -/
def Feet.slpSampleAt : Mask := .of [] [.slp]

theorem slpSample_at (n : Nat) (x : Meas) :
    Only (At.has Feet.slpSampleAt ([⟨.SLP_MEAS, n⟩, ⟨.SLP_STATUS, n⟩] : List Reg)) (slpSample n x) := by
  simp only [slpSample, modSlp, getSlp, putSlp]
  with_reducible repeat' first
    | exact Only.pure _ | exact Only.getM | refine Only.bind ?_ fun _ => ?_ | refine Only.ite ?_ ?_ | exact Only.rd _
    | exact Only.rdReg _ _ | exact at_doT .slp rfl (by decide +kernel) | refine at_wr ?_ | exact Cov.nil
    | refine Cov.cons (.inl (by decide +kernel)) ?_ | refine Cov.cons (.inr ?_) ?_ | exact List.mem_cons_self
    | refine List.mem_cons_of_mem _ ?_

/-- What `rampEnter` can change, but for the registers that it names by its operands. -/
def Feet.rampEnterAt : Mask := .of [] [.slp]

theorem rampEnter_at (n : Nat) :
    Only (At.has Feet.rampEnterAt ([⟨.SLP_CNT, n⟩, ⟨.SLP_STATUS, n⟩] : List Reg)) (rampEnter n) := by
  simp only [rampEnter, modSlp, getSlp, putSlp]
  with_reducible repeat' first
    | exact Only.pure _ | exact Only.getM | refine Only.bind ?_ fun _ => ?_ | exact Only.rd _ | exact Only.rdReg _ _
    | exact at_doT .slp rfl (by decide +kernel) | refine at_wr ?_ | refine at_inc ?_ | exact Cov.nil
    | refine Cov.cons (.inl (by decide +kernel)) ?_ | refine Cov.cons (.inr ?_) ?_ | exact List.mem_cons_self
    | refine List.mem_cons_of_mem _ ?_

/-- What `insertEnter` can change, but for the registers that it names by its operands. -/
def Feet.insertEnterAt : Mask := .of [] [.slp]

theorem insertEnter_at (n : Nat) :
    Only (At.has Feet.insertEnterAt ([⟨.SLP_STATUS, n⟩] : List Reg)) (insertEnter n) := by
  simp only [insertEnter, modSlp, getSlp, putSlp]
  with_reducible repeat' first
    | exact Only.pure _ | exact Only.getM | refine Only.bind ?_ fun _ => ?_ | exact Only.rd _ | exact Only.rdReg _ _
    | exact at_doT .slp rfl (by decide +kernel) | refine at_wr ?_ | exact Cov.nil
    | refine Cov.cons (.inl (by decide +kernel)) ?_ | refine Cov.cons (.inr ?_) ?_ | exact List.mem_cons_self

/-- What `slpToOff` can change, but for the registers that it names by its operands. -/
def Feet.slpToOffAt : Mask := .of [] [.pins, .port, .slp]

theorem slpToOff_at (n : Nat) :
    Only (At.has Feet.slpToOffAt ([⟨.OCT_STATUS, n⟩, ⟨.SLP_STATUS, n⟩] : List Reg)) (slpToOff n) := by
  simp only [slpToOff, modSlp, getSlp, putSlp]
  with_reducible repeat' first
    | exact Only.pure _ | exact Only.getM | refine Only.bind ?_ fun _ => ?_ | refine Only.onlyIf ?_ | exact Only.rd _
    | exact Only.rdReg _ _ | exact at_doT .slp rfl (by decide +kernel)
    | (apply atLe (pgDrop_at ..); focus decide +kernel) | refine at_wr ?_ | exact Cov.nil
    | refine Cov.cons (.inl (by decide +kernel)) ?_ | refine Cov.cons (.inr ?_) ?_ | exact List.mem_cons_self
    | refine List.mem_cons_of_mem _ ?_

/-- What `slpStep` can change, but for the registers that it names by its operands. -/
def Feet.slpStepAt : Mask := .of [] [.pins, .port, .slp]

theorem slpStep_at (n : Nat) :
    Only (At.has Feet.slpStepAt ([⟨.OCT_STATUS, n⟩, ⟨.SLP_CNT, n⟩, ⟨.SLP_STATUS, n⟩] : List Reg)) (slpStep n) := by
  unfold slpStep
  with_reducible repeat' first
    | exact Only.pure _ | exact Only.getM | refine Only.bind ?_ fun _ => ?_ | refine Only.onlyIf ?_
    | refine Only.ite ?_ ?_ | exact Only.rd _ | exact Only.rdReg _ _
    | (apply atLe (rampEnter_at ..); focus decide +kernel) | (apply atLe (insertEnter_at ..); focus decide +kernel)
    | (apply atLe (slpToOff_at ..); focus decide +kernel) | refine at_wr ?_ | exact Cov.nil
    | refine Cov.cons (.inl (by decide +kernel)) ?_ | refine Cov.cons (.inr ?_) ?_ | exact List.mem_cons_self
    | refine List.mem_cons_of_mem _ ?_ | split

/-- What `slpAdvance` can change, but for the registers that it names by its operands. -/
def Feet.slpAdvanceAt : Mask := .of [] [.pins, .port, .slp]

theorem slpAdvance_at (n : Nat) :
    Only (At.has Feet.slpAdvanceAt ([⟨.OCT_STATUS, n⟩, ⟨.SLP_CNT, n⟩, ⟨.SLP_STATUS, n⟩] : List Reg)) (slpAdvance n) :=
      by
  unfold slpAdvance
  with_reducible repeat' first
    | exact Only.pure _ | exact Only.getM | refine Only.bind ?_ fun _ => ?_ | exact Only.rd _ | exact Only.rdReg _ _
    | (apply atLe (slpStep_at ..); focus decide +kernel) | exact Cov.nil
    | refine Cov.cons (.inl (by decide +kernel)) ?_ | refine Cov.cons (.inr ?_) ?_ | exact List.mem_cons_self
    | refine List.mem_cons_of_mem _ ?_

/-- What `slpFault` can change, but for the registers that it names by its operands. -/
def Feet.slpFaultAt : Mask := .of [] [.out, .pins, .evPend, .hlog, .port, .slp]

theorem slpFault_at (n cause : Nat) (x : Meas) :
    Only (At.has Feet.slpFaultAt ([⟨.OCT_STATUS, n⟩, ⟨.SLP_CNT, n⟩, ⟨.SLP_FAULT_TIME, n⟩, ⟨.SLP_STATUS, n⟩] : List
      Reg)) (slpFault n cause x) := by
  simp only [slpFault, modSlp, getSlp, putSlp, now]
  with_reducible repeat' first
    | exact Only.pure _ | exact Only.getM | refine Only.bind ?_ fun _ => ?_ | refine Only.onlyIf ?_
    | refine Only.ite ?_ ?_ | exact Only.rd _ | exact Only.rdReg _ _ | exact at_doT .slp rfl (by decide +kernel)
    | (apply at_le (raise_only ..); decide +kernel) | (apply atLe (gateOff_at ..); focus decide +kernel)
    | (apply at_le (slotFaultSeen_only ..); decide +kernel) | refine at_inc ?_ | refine at_wr ?_ | exact Cov.nil
    | refine Cov.cons (.inl (by decide +kernel)) ?_ | refine Cov.cons (.inr ?_) ?_ | exact List.mem_cons_self
    | refine List.mem_cons_of_mem _ ?_

/-- What `vinExit` can change, but for the registers that it names by its operands. -/
def Feet.vinExitAt : Mask := .of [] [.pins, .evPend, .hlog, .port, .slp]

theorem vinExit_at (n side : Nat) :
    Only (At.has Feet.vinExitAt ([⟨.OCT_STATUS, n⟩, ⟨.SLP_CNT, n⟩, ⟨.SLP_STATUS, n⟩] : List Reg)) (vinExit n side) :=
      by
  unfold vinExit
  with_reducible repeat' first
    | exact Only.pure _ | exact Only.getM | refine Only.bind ?_ fun _ => ?_ | refine Only.onlyIf ?_ | exact Only.rd _
    | exact Only.rdReg _ _ | (apply at_le (raise_only ..); decide +kernel)
    | (apply atLe (gateOff_at ..); focus decide +kernel) | refine at_wr ?_ | refine at_inc ?_ | exact Cov.nil
    | refine Cov.cons (.inl (by decide +kernel)) ?_ | refine Cov.cons (.inr ?_) ?_ | exact List.mem_cons_self
    | refine List.mem_cons_of_mem _ ?_

/-- What `vinSee` can change, but for the registers that it names by its operands. -/
def Feet.vinSeeAt : Mask := .of [] [.pins, .evPend, .hlog, .port, .slp]

theorem vinSee_at (n vin : Nat) :
    Only (At.has Feet.vinSeeAt ([⟨.OCT_STATUS, n⟩, ⟨.SLP_CNT, n⟩, ⟨.SLP_STATUS, n⟩] : List Reg)) (vinSee n vin) := by
  simp only [vinSee, modSlp, getSlp, putSlp]
  with_reducible repeat' first
    | exact Only.pure _ | exact Only.getM | refine Only.bind ?_ fun _ => ?_ | refine Only.onlyIf ?_
    | refine Only.ite ?_ ?_ | exact Only.rd _ | exact Only.rdReg _ _ | exact at_doT .slp rfl (by decide +kernel)
    | (apply atLe (slpAdvance_at ..); focus decide +kernel) | (apply atLe (vinExit_at ..); focus decide +kernel)
    | exact Cov.nil | refine Cov.cons (.inl (by decide +kernel)) ?_ | refine Cov.cons (.inr ?_) ?_
    | exact List.mem_cons_self | refine List.mem_cons_of_mem _ ?_

/-- What `vinCrossing` can change, but for the registers that it names by its operands. -/
def Feet.vinCrossingAt : Mask := .of [] [.pins, .evPend, .hlog, .port, .slp]

theorem vinCrossing_at (n vin : Nat) :
    Only (At.has Feet.vinCrossingAt ([⟨.OCT_STATUS, n⟩, ⟨.SLP_CNT, n⟩, ⟨.SLP_MEAS, n⟩, ⟨.SLP_STATUS, n⟩] : List Reg))
      (vinCrossing n vin) := by
  unfold vinCrossing
  with_reducible repeat' first
    | exact Only.pure _ | exact Only.getM | refine Only.bind ?_ fun _ => ?_ | exact Only.rd _ | exact Only.rdReg _ _
    | (apply atLe (vinSee_at ..); focus decide +kernel) | refine at_wr ?_ | exact Cov.nil
    | refine Cov.cons (.inl (by decide +kernel)) ?_ | refine Cov.cons (.inr ?_) ?_ | exact List.mem_cons_self
    | refine List.mem_cons_of_mem _ ?_

/-- What `slpPresence` can change, but for the registers that it names by its operands. -/
def Feet.slpPresenceAt : Mask := .of [] [.pins, .evPend, .hlog, .port, .slp]

theorem slpPresence_at (n : Nat) (present : Bool) :
    Only (At.has Feet.slpPresenceAt ([⟨.OCT_STATUS, n⟩, ⟨.SLP_CNT, n⟩, ⟨.SLP_STATUS, n⟩] : List Reg)) (slpPresence n
      present) := by
  unfold slpPresence
  with_reducible repeat' first
    | exact Only.pure _ | exact Only.getM | refine Only.bind ?_ fun _ => ?_ | refine Only.onlyIf ?_
    | refine Only.ite ?_ ?_ | exact Only.rd _ | exact Only.rdReg _ _ | (apply at_le (raise_only ..); decide +kernel)
    | (apply atLe (gateOff_at ..); focus decide +kernel) | (apply atLe (slpAdvance_at ..); focus decide +kernel)
    | refine at_wr ?_ | exact Cov.nil | refine Cov.cons (.inl (by decide +kernel)) ?_ | refine Cov.cons (.inr ?_) ?_
    | exact List.mem_cons_self | refine List.mem_cons_of_mem _ ?_

/-- What `presenceDebounced` can change, but for the registers that it names by its operands. -/
def Feet.presenceDebouncedAt : Mask := .of [.OCT_CRN_CNT_RETURN, .OCT_PORT_CNT0, .OCT_PORT_IDE, .OCT_PORT_STATUS,
  .OCT_PORT_TRAIN, .OCT_STATUS, .PMU_BANK_OVF, .PMU_CNT, .RNG_CNT, .RNG_CTL, .RNG_PROG, .RNG_STATUS, .SQ_CNT,
  .SQ_PURGE_MASK, .SQ_PURGE_STATUS, .TM_SPILL_STATUS, .TWN_CNT, .TWN_ROLE, .TWN_SETTLE, .XB_BUF_STATUS, .XB_CNT]
  [.out, .pins, .evPend, .hlog, .port, .ring, .xin, .xq, .xaged, .mcs, .mcq, .xfree, .owed, .xacct, .sqin, .dir, .trk,
  .memT, .bic, .sqx, .crec, .cwait, .crn, .mtt, .alost, .twx, .sfree, .tq, .push, .kacc, .cout, .slp, .arrT]

theorem presenceDebounced_at (n : Nat) (present : Bool) :
    Only (At.has Feet.presenceDebouncedAt ([⟨.SLP_CNT, n⟩, ⟨.SLP_STATUS, n⟩] : List Reg)) (presenceDebounced n
      present) := by
  simp only [presenceDebounced, modPins, getPins, putPins]
  with_reducible repeat' first
    | exact Only.pure _ | exact Only.getM | refine Only.bind ?_ fun _ => ?_ | refine Only.onlyIf ?_ | exact Only.rd _
    | exact Only.rdReg _ _ | exact at_doT .pins rfl (by decide +kernel)
    | (apply at_le (portPresence_only ..); decide +kernel) | (apply atLe (slpPresence_at ..); focus decide +kernel)
    | exact Cov.nil | refine Cov.cons (.inl (by decide +kernel)) ?_ | refine Cov.cons (.inr ?_) ?_
    | exact List.mem_cons_self | refine List.mem_cons_of_mem _ ?_

/-- What `insertDelayEnd` can change, but for the registers that it names by its operands. -/
def Feet.insertDelayEndAt : Mask := .of [] [.pins, .port, .slp]

theorem insertDelayEnd_at (n : Nat) :
    Only (At.has Feet.insertDelayEndAt ([⟨.OCT_STATUS, n⟩, ⟨.SLP_CNT, n⟩, ⟨.SLP_STATUS, n⟩] : List Reg))
      (insertDelayEnd n) := by
  simp only [insertDelayEnd, modSlp, getSlp, putSlp]
  with_reducible repeat' first
    | exact Only.pure _ | exact Only.getM | refine Only.bind ?_ fun _ => ?_ | refine Only.onlyIf ?_ | exact Only.rd _
    | exact Only.rdReg _ _ | exact at_doT .slp rfl (by decide +kernel)
    | (apply atLe (slpAdvance_at ..); focus decide +kernel) | exact Cov.nil
    | refine Cov.cons (.inl (by decide +kernel)) ?_ | refine Cov.cons (.inr ?_) ?_ | exact List.mem_cons_self
    | refine List.mem_cons_of_mem _ ?_

/-- What `fastTrip` can change, but for the registers that it names by its operands. -/
def Feet.fastTripAt : Mask := .of [] [.out, .pins, .evPend, .hlog, .port, .slp]

theorem fastTrip_at (n : Nat) (x : Meas) :
    Only (At.has Feet.fastTripAt ([⟨.OCT_STATUS, n⟩, ⟨.SLP_CNT, n⟩, ⟨.SLP_FAULT_TIME, n⟩, ⟨.SLP_MEAS, n⟩,
      ⟨.SLP_STATUS, n⟩] : List Reg)) (fastTrip n x) := by
  unfold fastTrip
  with_reducible repeat' first
    | exact Only.pure _ | exact Only.getM | refine Only.bind ?_ fun _ => ?_ | refine Only.onlyIf ?_ | exact Only.rd _
    | exact Only.rdReg _ _ | (apply atLe (slpSample_at ..); focus decide +kernel)
    | (apply atLe (slpFault_at ..); focus decide +kernel) | exact Cov.nil
    | refine Cov.cons (.inl (by decide +kernel)) ?_ | refine Cov.cons (.inr ?_) ?_ | exact List.mem_cons_self
    | refine List.mem_cons_of_mem _ ?_

/-- What `faultTimerExpiry` can change, but for the registers that it names by its operands. -/
def Feet.faultTimerExpiryAt : Mask := .of [] [.out, .pins, .evPend, .hlog, .port, .slp]

theorem faultTimerExpiry_at (n : Nat) (x : Meas) :
    Only (At.has Feet.faultTimerExpiryAt ([⟨.OCT_STATUS, n⟩, ⟨.SLP_CNT, n⟩, ⟨.SLP_FAULT_TIME, n⟩, ⟨.SLP_MEAS, n⟩,
      ⟨.SLP_STATUS, n⟩] : List Reg)) (faultTimerExpiry n x) := by
  unfold faultTimerExpiry
  with_reducible repeat' first
    | exact Only.pure _ | exact Only.getM | refine Only.bind ?_ fun _ => ?_ | refine Only.onlyIf ?_ | exact Only.rd _
    | exact Only.rdReg _ _ | (apply atLe (slpSample_at ..); focus decide +kernel)
    | (apply atLe (slpFault_at ..); focus decide +kernel) | exact Cov.nil
    | refine Cov.cons (.inl (by decide +kernel)) ?_ | refine Cov.cons (.inr ?_) ?_ | exact List.mem_cons_self
    | refine List.mem_cons_of_mem _ ?_

/-- What `rampTimeout` can change, but for the registers that it names by its operands. -/
def Feet.rampTimeoutAt : Mask := .of [] [.out, .pins, .evPend, .hlog, .port, .slp]

theorem rampTimeout_at (n : Nat) (x : Meas) :
    Only (At.has Feet.rampTimeoutAt ([⟨.OCT_STATUS, n⟩, ⟨.SLP_CNT, n⟩, ⟨.SLP_FAULT_TIME, n⟩, ⟨.SLP_MEAS, n⟩,
      ⟨.SLP_STATUS, n⟩] : List Reg)) (rampTimeout n x) := by
  unfold rampTimeout
  with_reducible repeat' first
    | exact Only.pure _ | exact Only.getM | refine Only.bind ?_ fun _ => ?_ | refine Only.onlyIf ?_ | exact Only.rd _
    | exact Only.rdReg _ _ | (apply atLe (slpSample_at ..); focus decide +kernel)
    | (apply atLe (slpFault_at ..); focus decide +kernel) | exact Cov.nil
    | refine Cov.cons (.inl (by decide +kernel)) ?_ | refine Cov.cons (.inr ?_) ?_ | exact List.mem_cons_self
    | refine List.mem_cons_of_mem _ ?_

/-- What `gateFullyOn` can change, but for the registers that it names by its operands. -/
def Feet.gateFullyOnAt : Mask := .of [] [.slp]

theorem gateFullyOn_at (n : Nat) (x : Meas) :
    Only (At.has Feet.gateFullyOnAt ([⟨.SLP_MEAS, n⟩, ⟨.SLP_STATUS, n⟩] : List Reg)) (gateFullyOn n x) := by
  simp only [gateFullyOn, modSlp, getSlp, putSlp]
  with_reducible repeat' first
    | exact Only.pure _ | exact Only.getM | refine Only.bind ?_ fun _ => ?_ | refine Only.onlyIf ?_ | exact Only.rd _
    | exact Only.rdReg _ _ | exact at_doT .slp rfl (by decide +kernel)
    | (apply atLe (slpSample_at ..); focus decide +kernel) | refine at_wr ?_ | exact Cov.nil
    | refine Cov.cons (.inl (by decide +kernel)) ?_ | refine Cov.cons (.inr ?_) ?_ | exact List.mem_cons_self
    | refine List.mem_cons_of_mem _ ?_

/-- What `pgDeglitchEnd` can change, but for the registers that it names by its operands. -/
def Feet.pgDeglitchEndAt : Mask := .of [] []

theorem pgDeglitchEnd_at (n : Nat) :
    Only (At.has Feet.pgDeglitchEndAt ([⟨.SLP_STATUS, n⟩] : List Reg)) (pgDeglitchEnd n) := by
  unfold pgDeglitchEnd
  with_reducible repeat' first
    | exact Only.pure _ | exact Only.getM | refine Only.bind ?_ fun _ => ?_ | refine Only.onlyIf ?_ | exact Only.rd _
    | exact Only.rdReg _ _ | refine at_wr ?_ | exact Cov.nil | refine Cov.cons (.inl (by decide +kernel)) ?_
    | refine Cov.cons (.inr ?_) ?_ | exact List.mem_cons_self

/-- What `pgConditionsLost` can change, but for the registers that it names by its operands. -/
def Feet.pgConditionsLostAt : Mask := .of [] [.out, .pins, .evPend, .hlog, .port, .slp]

theorem pgConditionsLost_at (n : Nat) (x : Meas) :
    Only (At.has Feet.pgConditionsLostAt ([⟨.OCT_STATUS, n⟩, ⟨.SLP_MEAS, n⟩, ⟨.SLP_STATUS, n⟩] : List Reg))
      (pgConditionsLost n x) := by
  simp only [pgConditionsLost, modSlp, getSlp, putSlp]
  with_reducible repeat' first
    | exact Only.pure _ | exact Only.getM | refine Only.bind ?_ fun _ => ?_ | refine Only.onlyIf ?_ | exact Only.rd _
    | exact Only.rdReg _ _ | exact at_doT .slp rfl (by decide +kernel)
    | (apply at_le (raise_only ..); decide +kernel) | (apply atLe (pgDrop_at ..); focus decide +kernel)
    | (apply atLe (slpSample_at ..); focus decide +kernel) | (apply at_le (slotFaultSeen_only ..); decide +kernel)
    | exact Cov.nil | refine Cov.cons (.inl (by decide +kernel)) ?_ | refine Cov.cons (.inr ?_) ?_
    | exact List.mem_cons_self | refine List.mem_cons_of_mem _ ?_

/-- What `retryExpiry` can change, but for the registers that it names by its operands. -/
def Feet.retryExpiryAt : Mask := .of [] [.pins, .port, .slp]

theorem retryExpiry_at (n : Nat) :
    Only (At.has Feet.retryExpiryAt ([⟨.OCT_STATUS, n⟩, ⟨.SLP_CNT, n⟩, ⟨.SLP_STATUS, n⟩] : List Reg)) (retryExpiry n)
      := by
  simp only [retryExpiry, modSlp, getSlp, putSlp]
  with_reducible repeat' first
    | exact Only.pure _ | exact Only.getM | refine Only.bind ?_ fun _ => ?_ | exact Only.rd _ | exact Only.rdReg _ _
    | exact at_doT .slp rfl (by decide +kernel) | (apply atLe (slpAdvance_at ..); focus decide +kernel)
    | exact Cov.nil | refine Cov.cons (.inl (by decide +kernel)) ?_ | refine Cov.cons (.inr ?_) ?_
    | exact List.mem_cons_self | refine List.mem_cons_of_mem _ ?_

/-- What `gateOffDelayEnd` can change, but for the registers that it names by its operands. -/
def Feet.gateOffDelayEndAt : Mask := .of [] [.pins, .port, .slp]

theorem gateOffDelayEnd_at (n : Nat) :
    Only (At.has Feet.gateOffDelayEndAt ([⟨.OCT_STATUS, n⟩, ⟨.SLP_STATUS, n⟩] : List Reg)) (gateOffDelayEnd n) := by
  unfold gateOffDelayEnd
  with_reducible repeat' first
    | exact Only.pure _ | exact Only.getM | refine Only.bind ?_ fun _ => ?_ | refine Only.onlyIf ?_ | exact Only.rd _
    | exact Only.rdReg _ _ | (apply atLe (gateOff_at ..); focus decide +kernel) | exact Cov.nil
    | refine Cov.cons (.inl (by decide +kernel)) ?_ | refine Cov.cons (.inr ?_) ?_ | exact List.mem_cons_self
    | refine List.mem_cons_of_mem _ ?_

/-- What `slpCopy` can change, but for the registers that it names by its operands. -/
def Feet.slpCopyAt : Mask := .of [] [.slp]

theorem slpCopy_at (n : Nat) :
    Only (At.has Feet.slpCopyAt ([⟨.SLP_STATUS, n⟩] : List Reg)) (slpCopy n) := by
  simp only [slpCopy, modSlp, getSlp, putSlp]
  with_reducible repeat' first
    | exact Only.pure _ | exact Only.getM | refine Only.bind ?_ fun _ => ?_ | exact Only.rd _ | exact Only.rdReg _ _
    | exact at_doT .slp rfl (by decide +kernel) | refine at_wr ?_ | exact Cov.nil
    | refine Cov.cons (.inl (by decide +kernel)) ?_ | refine Cov.cons (.inr ?_) ?_ | exact List.mem_cons_self

/-- What `slpLive` can change, but for the registers that it names by its operands. -/
def Feet.slpLiveAt : Mask := .of [] [.pins, .evPend, .hlog, .port, .slp]

theorem slpLive_at (n : Nat) :
    Only (At.has Feet.slpLiveAt ([⟨.OCT_STATUS, n⟩, ⟨.SLP_CNT, n⟩, ⟨.SLP_STATUS, n⟩] : List Reg)) (slpLive n) := by
  unfold slpLive
  with_reducible repeat' first
    | exact Only.pure _ | exact Only.getM | refine Only.bind ?_ fun _ => ?_ | exact Only.rd _ | exact Only.rdReg _ _
    | (apply atLe (vinSee_at ..); focus decide +kernel) | (apply atLe (slpCopy_at ..); focus decide +kernel)
    | exact Cov.nil | refine Cov.cons (.inl (by decide +kernel)) ?_ | refine Cov.cons (.inr ?_) ?_
    | exact List.mem_cons_self | refine List.mem_cons_of_mem _ ?_

/-- What `powerControllerWrite` can change, but for the registers that it names by its operands. -/
def Feet.powerControllerWriteAt : Mask := .of [] [.pins, .evPend, .hlog, .port, .slp]

theorem powerControllerWrite_at (v p : Nat) (on : Bool) :
    Only (At.has Feet.powerControllerWriteAt ([⟨.OCT_STATUS, p / 4⟩, ⟨.SLP_CNT, p / 4⟩, ⟨.SLP_CTL, p / 4⟩,
      ⟨.SLP_STATUS, p / 4⟩] : List Reg)) (powerControllerWrite v p on) := by
  unfold powerControllerWrite
  with_reducible repeat' first
    | exact Only.pure _ | exact Only.getM | refine Only.bind ?_ fun _ => ?_ | refine Only.onlyIf ?_
    | refine Only.ite ?_ ?_ | exact Only.rd _ | exact Only.rdReg _ _ | (apply at_le (raise_only ..); decide +kernel)
    | (apply atLe (slpLive_at ..); focus decide +kernel) | refine at_wr ?_ | exact Cov.nil
    | refine Cov.cons (.inl (by decide +kernel)) ?_ | refine Cov.cons (.inr ?_) ?_ | exact List.mem_cons_self
    | refine List.mem_cons_of_mem _ ?_

/-- What `mbDone` can change, but for the registers that it names by its operands. -/
def Feet.mbDoneAt : Mask := .of [.FWM_MB_RSP] [.out]

theorem mbDone_at (x status : Nat) (payload : List Nat) :
    Only (At.has Feet.mbDoneAt ([⟨.FWM_MB_CTL, x⟩] : List Reg)) (mbDone x status payload) := by
  unfold mbDone
  with_reducible repeat' first
    | exact Only.pure _ | exact Only.getM | refine Only.bind ?_ fun _ => ?_ | refine Only.each fun _ _ => ?_
    | exact Only.rd _ | exact Only.rdReg _ _ | exact at_wrK .FWM_MB_RSP rfl (by decide +kernel)
    | (apply at_le (emit_only ..); decide +kernel) | refine at_wr ?_ | exact Cov.nil
    | refine Cov.cons (.inl (by decide +kernel)) ?_ | refine Cov.cons (.inr ?_) ?_ | exact List.mem_cons_self

/-- What `recoveryWrite` can change, but for the registers that it names by its operands. -/
def Feet.recoveryWriteAt : Mask := .of [.FWM_MB_RSP] [.out, .sram]

theorem recoveryWrite_at  :
    Only (At.has Feet.recoveryWriteAt ([⟨.FWM_MB_CTL, 0⟩] : List Reg)) (recoveryWrite ) := by
  unfold recoveryWrite
  with_reducible repeat' first
    | exact Only.pure _ | exact Only.getM | refine Only.bind ?_ fun _ => ?_ | refine Only.ite ?_ ?_ | exact Only.rd _
    | exact Only.rdReg _ _ | (apply at_le (sramPut_only ..); decide +kernel)
    | (apply atLe (mbDone_at ..); focus decide +kernel) | exact Cov.nil
    | refine Cov.cons (.inl (by decide +kernel)) ?_ | refine Cov.cons (.inr ?_) ?_ | exact List.mem_cons_self

/-- What `recoveryBoot` can change, but for the registers that it names by its operands. -/
def Feet.recoveryBootAt : Mask := .of [.FWM_BOOT_STATUS, .FWM_MB_RSP, .FWM_SVN, .FWM_VERSION, .MLD_STATUS] [.out,
  .ldr, .mgx]

theorem recoveryBoot_at  :
    Only (At.has Feet.recoveryBootAt ([⟨.FWM_MB_CTL, 0⟩] : List Reg)) (recoveryBoot ) := by
  unfold recoveryBoot
  with_reducible repeat' first
    | exact Only.pure _ | exact Only.getM | refine Only.bind ?_ fun _ => ?_ | refine Only.onlyIf ?_
    | refine Only.ite ?_ ?_ | exact Only.rd _ | exact Only.rdReg _ _
    | (apply at_le (firmwareStart_only ..); decide +kernel) | (apply atLe (mbDone_at ..); focus decide +kernel)
    | exact Cov.nil | refine Cov.cons (.inl (by decide +kernel)) ?_ | refine Cov.cons (.inr ?_) ?_
    | exact List.mem_cons_self

/-- What `mbServe` can change, but for the registers that it names by its operands. -/
def Feet.mbServeAt : Mask := .of [.FWM_MB_RSP] [.out]

theorem mbServe_at (x op status : Nat) (payload : List Nat) :
    Only (At.has Feet.mbServeAt ([⟨.FWM_MB_CTL, x⟩] : List Reg)) (mbServe x op status payload) := by
  unfold mbServe
  with_reducible repeat' first
    | exact Only.pure _ | exact Only.getM | refine Only.bind ?_ fun _ => ?_ | refine Only.onlyIf ?_ | exact Only.rd _
    | exact Only.rdReg _ _ | (apply atLe (mbDone_at ..); focus decide +kernel) | exact Cov.nil
    | refine Cov.cons (.inl (by decide +kernel)) ?_ | refine Cov.cons (.inr ?_) ?_ | exact List.mem_cons_self

/-- What `getVersion` can change, but for the registers that it names by its operands. -/
def Feet.getVersionAt : Mask := .of [.FWM_MB_RSP] [.out]

theorem getVersion_at (x : Nat) :
    Only (At.has Feet.getVersionAt ([⟨.FWM_MB_CTL, x⟩] : List Reg)) (getVersion x) := by
  unfold getVersion
  with_reducible repeat' first
    | exact Only.pure _ | exact Only.getM | refine Only.bind ?_ fun _ => ?_ | exact Only.rd _ | exact Only.rdReg _ _
    | (apply atLe (mbServe_at ..); focus decide +kernel) | exact Cov.nil
    | refine Cov.cons (.inl (by decide +kernel)) ?_ | refine Cov.cons (.inr ?_) ?_ | exact List.mem_cons_self

/-- What `getState` can change, but for the registers that it names by its operands. -/
def Feet.getStateAt : Mask := .of [.FWM_MB_RSP] [.out]

theorem getState_at (x : Nat) :
    Only (At.has Feet.getStateAt ([⟨.FWM_MB_CTL, x⟩] : List Reg)) (getState x) := by
  unfold getState
  with_reducible repeat' first
    | exact Only.pure _ | exact Only.getM | refine Only.bind ?_ fun _ => ?_ | exact Only.rd _ | exact Only.rdReg _ _
    | (apply atLe (mbServe_at ..); focus decide +kernel) | exact Cov.nil
    | refine Cov.cons (.inl (by decide +kernel)) ?_ | refine Cov.cons (.inr ?_) ?_ | exact List.mem_cons_self

/-- What `setPolicy` can change, but for the registers that it names by its operands. -/
def Feet.setPolicyAt : Mask := .of [.FWM_MB_RSP] [.out, .mgx]

theorem setPolicy_at (x op status : Nat) :
    Only (At.has Feet.setPolicyAt ([⟨.FWM_MB_CTL, x⟩] : List Reg)) (setPolicy x op status) := by
  simp only [setPolicy, modMgx, getMgx, putMgx]
  with_reducible repeat' first
    | exact Only.pure _ | exact Only.getM | refine Only.bind ?_ fun _ => ?_ | refine Only.onlyIf ?_
    | refine Only.ite ?_ ?_ | exact Only.rd _ | exact Only.rdReg _ _ | exact at_doT .mgx rfl (by decide +kernel)
    | (apply atLe (mbDone_at ..); focus decide +kernel) | exact Cov.nil
    | refine Cov.cons (.inl (by decide +kernel)) ?_ | refine Cov.cons (.inr ?_) ?_ | exact List.mem_cons_self

/-- What `flashUpdate` can change, but for the registers that it names by its operands. -/
def Feet.flashUpdateAt : Mask := .of [.FWM_MB_RSP] [.out]

theorem flashUpdate_at (x status : Nat) :
    Only (At.has Feet.flashUpdateAt ([⟨.FWM_MB_CTL, x⟩] : List Reg)) (flashUpdate x status) := by
  unfold flashUpdate
  with_reducible repeat' first
    | exact Only.pure _ | exact Only.getM | refine Only.bind ?_ fun _ => ?_ | refine Only.onlyIf ?_
    | refine Only.ite ?_ ?_ | exact Only.rd _ | exact Only.rdReg _ _ | (apply at_le (emit_only ..); decide +kernel)
    | (apply atLe (mbDone_at ..); focus decide +kernel) | exact Cov.nil
    | refine Cov.cons (.inl (by decide +kernel)) ?_ | refine Cov.cons (.inr ?_) ?_ | exact List.mem_cons_self

/-- What `mbUnknown` can change, but for the registers that it names by its operands. -/
def Feet.mbUnknownAt : Mask := .of [.FWM_MB_RSP] [.out]

theorem mbUnknown_at (x : Nat) :
    Only (At.has Feet.mbUnknownAt ([⟨.FWM_MB_CTL, x⟩] : List Reg)) (mbUnknown x) := by
  unfold mbUnknown
  with_reducible repeat' first
    | exact Only.pure _ | exact Only.getM | refine Only.bind ?_ fun _ => ?_ | refine Only.onlyIf ?_ | exact Only.rd _
    | exact Only.rdReg _ _ | (apply atLe (mbDone_at ..); focus decide +kernel) | exact Cov.nil
    | refine Cov.cons (.inl (by decide +kernel)) ?_ | refine Cov.cons (.inr ?_) ?_ | exact List.mem_cons_self

/-- What `mbTimeout` can change, but for the registers that it names by its operands. -/
def Feet.mbTimeoutAt : Mask := .of [.FWM_MB_RSP] [.out, .evPend, .hlog]

theorem mbTimeout_at (x : Nat) :
    Only (At.has Feet.mbTimeoutAt ([⟨.FWM_MB_CTL, x⟩] : List Reg)) (mbTimeout x) := by
  unfold mbTimeout
  with_reducible repeat' first
    | exact Only.pure _ | exact Only.getM | refine Only.bind ?_ fun _ => ?_ | refine Only.onlyIf ?_ | exact Only.rd _
    | exact Only.rdReg _ _ | (apply at_le (raise_only ..); decide +kernel)
    | (apply atLe (mbDone_at ..); focus decide +kernel) | exact Cov.nil
    | refine Cov.cons (.inl (by decide +kernel)) ?_ | refine Cov.cons (.inr ?_) ?_ | exact List.mem_cons_self

end Sys2Proof.Machine
end

