-- ==== Sys2Proof/Laws/Tbl.lean ====
section
/-!
SUPPORT. The laws of the sparse tables: the canonical form is kept, what was set is read back, and every other entry
stands.
-/
namespace Sys2Proof.Machine

variable {α : Type} [DecidableEq α] {d v : α} {t : List (Nat × α)} {b : Option Nat} {k j : Nat}

/-- The key lies above the bound. -/
def Above (b : Option Nat) (k : Nat) : Prop := ∀ x ∈ b, x < k

omit [DecidableEq α] in
theorem above_none : Above none k := by simp [Above]

theorem above_some {x : Nat} : Above (some x) k ↔ x < k := by simp [Above]

theorem twfFrom_cons {a : Nat} {w : α} :
    twfFrom d b ((a, w) :: t) = true ↔ Above b a ∧ w ≠ d ∧ twfFrom d (some a) t = true := by
  cases b <;> simp [twfFrom, Above, and_assoc]

theorem twfFrom_weaken {a : Nat} (h : twfFrom d (some a) t = true) (hb : Above b a) : twfFrom d b t = true := by
  cases t with
  | nil => rfl
  | cons e r =>
    obtain ⟨x, w⟩ := e
    rw [twfFrom_cons] at h ⊢
    exact ⟨fun y hy => (hb y hy).trans (above_some.1 h.1), h.2⟩

/-- Setting an entry above the bound keeps the canonical form. -/
theorem tput_wfFrom (h : twfFrom d b t = true) (hk : Above b k) : twfFrom d b (tput d t k v) = true := by
  induction t generalizing b with
  | nil => by_cases hv : v = d <;> simp [tput, hv, twfFrom_cons, hk] <;> rfl
  | cons e r ih =>
    obtain ⟨a, w⟩ := e
    have h' := twfFrom_cons.1 h
    simp only [tput]
    split
    next hlt =>
      split
      · exact h
      · exact twfFrom_cons.2 ⟨hk, ‹_›, twfFrom_cons.2 ⟨above_some.2 hlt, h'.2⟩⟩
    next hlt =>
      split
      next heq =>
        subst heq
        split
        · exact twfFrom_weaken h'.2.2 h'.1
        · exact twfFrom_cons.2 ⟨hk, ‹_›, h'.2.2⟩
      next hne => exact twfFrom_cons.2 ⟨h'.1, h'.2.1, ih h'.2.2 (above_some.2 (by omega))⟩

/-- Setting an entry keeps the canonical form. -/
theorem tput_wf (h : twf d t = true) : twf d (tput d t k v) = true := tput_wfFrom h above_none

omit [DecidableEq α] in
/-- The empty table is canonical. -/
@[simp] theorem twf_nil [DecidableEq α] : twf d [] = true := rfl

omit [DecidableEq α] in
/-- The empty table reads as the default. -/
@[simp] theorem tget_nil : tget d [] k = d := rfl

/-- Nothing is listed at or below the bound. -/
theorem tget_below {a : Nat} (h : twfFrom d (some a) t = true) (hk : k ≤ a) : tget d t k = d := by
  cases t with
  | nil => rfl
  | cons e r =>
    obtain ⟨x, w⟩ := e
    have hx := above_some.1 (twfFrom_cons.1 h).1
    simp [tget, show ¬x = k by omega, show k < x by omega]

theorem tget_tput_from (h : twfFrom d b t = true) : tget d (tput d t k v) j = if j = k then v else tget d t j := by
  induction t generalizing b with
  | nil =>
    by_cases hv : v = d <;> by_cases hj : j = k <;> simp [tput, tget, hv, hj]
    simp [Ne.symm hj]
  | cons e r ih =>
    obtain ⟨a, w⟩ := e
    have h' := twfFrom_cons.1 h
    have ih := ih h'.2.2
    simp only [tput]
    split
    next hlt =>
      by_cases hj : j = k
      · subst hj
        by_cases hv : v = d <;> simp [tget, hv, show ¬a = j by omega, hlt]
      · by_cases hv : v = d
        · simp [hv, hj]
        · simp only [hv, if_false, tget, Ne.symm hj, hj]
          split_ifs <;> first | rfl | omega
    next hlt =>
      split
      next heq =>
        subst heq
        by_cases hj : j = a
        · subst hj
          by_cases hv : v = d
          · simp [hv, tget_below h'.2.2 le_rfl]
          · simp [hv, tget]
        · by_cases hv : v = d
          · simp only [hv, if_true, tget, Ne.symm hj, hj, if_false]
            split_ifs with hja
            · exact tget_below h'.2.2 (by omega)
            · rfl
          · simp [hv, tget, Ne.symm hj, hj]
      next hne =>
        simp only [tget, ih]
        by_cases hj : j = k
        · subst hj; simp [hne, hlt]
        · simp [hj]

/-- What was set is read back. -/
theorem tget_tput_same (h : twf d t = true) : tget d (tput d t k v) k = v := by
  simp [tget_tput_from (b := none) h]

/-- Every other entry stands. -/
theorem tget_tput_other (h : twf d t = true) (hj : j ≠ k) : tget d (tput d t k v) j = tget d t j := by
  simp [tget_tput_from (b := none) h, hj]

end Sys2Proof.Machine
end

