-- ==== Sys2Proof/Laws/Canon.lean ====
section
/-!
SUPPORT. The canonical forms: every primitive update keeps them, whatever it stores, and so does every program; the block
right after reset has them.
-/
namespace Sys2Proof.Machine

/-- Every primitive update keeps the canonical forms. -/
theorem Upd.apply_canon {m : Mach} (h : m.Canon) : ∀ u : Upd, (u.apply m).Canon
  | .reg _ _ => { h with regs := regStore_wf h.regs }
  | .out _ => { h with }
  | .freeCtr _ => { h with }
  | .pins _ => { h with }
  | .tb _ => { h with }
  | .hold _ => { h with }
  | .evPend _ => { h with }
  | .evLost _ => { h with }
  | .aoLatch _ => { h with }
  | .sram _ _ => { h with sram := tput_wf h.sram }
  | .sramAll => { h with sram := rfl }
  | .hlog _ _ => { h with hlog := tput_wf h.hlog }
  | .hlogAll => { h with hlog := rfl }
  | .stage _ _ => { h with stage := tput_wf h.stage }
  | .stageAll => { h with stage := rfl }
  | .ldr _ => { h with }
  | .vcs _ _ => { h with vcs := tput_wf h.vcs }
  | .vcsAll => { h with vcs := rfl }
  | .ldb _ => { h with }
  | .homeSel _ => { h with }
  | .domDef _ => { h with }
  | .dec _ _ => { h with dec := tput_wf h.dec }
  | .decAll => { h with dec := rfl }
  | .port _ _ => { h with port := tput_wf h.port }
  | .portAll => { h with port := rfl }
  | .sf _ _ => { h with sf := tput_wf h.sf }
  | .sfAll => { h with sf := rfl }
  | .msix _ _ => { h with msix := tput_wf h.msix }
  | .msixAll => { h with msix := rfl }
  | .ring _ _ => { h with ring := tput_wf h.ring }
  | .ringAll => { h with ring := rfl }
  | .xin _ _ => { h with xin := tput_wf h.xin }
  | .xinAll => { h with xin := rfl }
  | .stg _ _ => { h with stg := tput_wf h.stg }
  | .stgAll => { h with stg := rfl }
  | .flowt _ _ => { h with flowt := tput_wf h.flowt }
  | .flowtAll => { h with flowt := rfl }
  | .xq _ _ => { h with xq := tput_wf h.xq }
  | .xqAll => { h with xq := rfl }
  | .xdef _ _ => { h with xdef := tput_wf h.xdef }
  | .xdefAll => { h with xdef := rfl }
  | .xturn _ _ => { h with xturn := tput_wf h.xturn }
  | .xturnAll => { h with xturn := rfl }
  | .xaged _ _ => { h with xaged := tput_wf h.xaged }
  | .xagedAll => { h with xaged := rfl }
  | .mcs _ _ => { h with mcs := tput_wf h.mcs }
  | .mcsAll => { h with mcs := rfl }
  | .mcq _ _ => { h with mcq := tput_wf h.mcq }
  | .mcqAll => { h with mcq := rfl }
  | .xfree _ => { h with }
  | .owed _ _ => { h with owed := tput_wf h.owed }
  | .owedAll => { h with owed := rfl }
  | .mcNext _ => { h with }
  | .mir _ _ => { h with mir := tput_wf h.mir }
  | .mirAll => { h with mir := rfl }
  | .xwait _ _ => { h with xwait := tput_wf h.xwait }
  | .xwaitAll => { h with xwait := rfl }
  | .xacct _ _ => { h with xacct := tput_wf h.xacct }
  | .xacctAll => { h with xacct := rfl }
  | .feSeen _ => { h with }
  | .feDue _ => { h with }
  | .xdown _ _ => { h with xdown := tput_wf h.xdown }
  | .xdownAll => { h with xdown := rfl }
  | .xret _ _ => { h with xret := tput_wf h.xret }
  | .xretAll => { h with xret := rfl }
  | .sqin _ _ => { h with sqin := tput_wf h.sqin }
  | .sqinAll => { h with sqin := rfl }
  | .rrLast _ => { h with }
  | .rrBurst _ => { h with }
  | .dbfNext _ _ => { h with dbfNext := tput_wf h.dbfNext }
  | .dbfNextAll => { h with dbfNext := rfl }
  | .stampCtr _ => { h with }
  | .dir _ _ => { h with dir := tput_wf h.dir }
  | .dirAll => { h with dir := rfl }
  | .trk _ _ => { h with trk := tput_wf h.trk }
  | .trkAll => { h with trk := rfl }
  | .specT _ _ => { h with specT := tput_wf h.specT }
  | .specTAll => { h with specT := rfl }
  | .memT _ _ => { h with memT := tput_wf h.memT }
  | .memTAll => { h with memT := rfl }
  | .mru _ _ => { h with mru := tput_wf h.mru }
  | .mruAll => { h with mru := rfl }
  | .bic _ => { h with }
  | .sqx _ _ => { h with sqx := tput_wf h.sqx }
  | .sqxAll => { h with sqx := rfl }
  | .crec _ _ => { h with crec := tput_wf h.crec }
  | .crecAll => { h with crec := rfl }
  | .cwait _ _ => { h with cwait := tput_wf h.cwait }
  | .cwaitAll => { h with cwait := rfl }
  | .crn _ _ => { h with crn := tput_wf h.crn }
  | .crnAll => { h with crn := rfl }
  | .mtt _ _ => { h with mtt := tput_wf h.mtt }
  | .mttAll => { h with mtt := rfl }
  | .blind _ _ => { h with blind := tput_wf h.blind }
  | .blindAll => { h with blind := rfl }
  | .pagent _ _ => { h with pagent := tput_wf h.pagent }
  | .pagentAll => { h with pagent := rfl }
  | .alost _ _ => { h with alost := tput_wf h.alost }
  | .alostAll => { h with alost := rfl }
  | .twx _ => { h with }
  | .slot _ _ => { h with slot := tput_wf h.slot }
  | .slotAll => { h with slot := rfl }
  | .srx _ _ => { h with srx := tput_wf h.srx }
  | .srxAll => { h with srx := rfl }
  | .slotTmo _ => { h with }
  | .pfree _ => { h with }
  | .sfree _ => { h with }
  | .tq _ _ => { h with tq := tput_wf h.tq }
  | .tqAll => { h with tq := rfl }
  | .push _ _ => { h with push := tput_wf h.push }
  | .pushAll => { h with push := rfl }
  | .act _ _ => { h with act := tput_wf h.act }
  | .actAll => { h with act := rfl }
  | .buck _ _ => { h with buck := tput_wf h.buck }
  | .buckAll => { h with buck := rfl }
  | .shp _ _ => { h with shp := tput_wf h.shp }
  | .shpAll => { h with shp := rfl }
  | .bmove _ => { h with }
  | .tmSub _ => { h with }
  | .lane _ _ => { h with lane := tput_wf h.lane }
  | .laneAll => { h with lane := rfl }
  | .gcl _ _ => { h with gcl := tput_wf h.gcl }
  | .gclAll => { h with gcl := rfl }
  | .gopen _ _ => { h with gopen := tput_wf h.gopen }
  | .gopenAll => { h with gopen := rfl }
  | .wire _ _ => { h with wire := tput_wf h.wire }
  | .wireAll => { h with wire := rfl }
  | .kacc _ => { h with }
  | .job _ _ => { h with job := tput_wf h.job }
  | .jobAll => { h with job := rfl }
  | .acc _ _ => { h with acc := tput_wf h.acc }
  | .accAll => { h with acc := rfl }
  | .accNext _ => { h with }
  | .pred _ _ => { h with pred := tput_wf h.pred }
  | .predAll => { h with pred := rfl }
  | .kline _ _ => { h with kline := tput_wf h.kline }
  | .klineAll => { h with kline := rfl }
  | .kmiss _ _ => { h with kmiss := tput_wf h.kmiss }
  | .kmissAll => { h with kmiss := rfl }
  | .lmLate _ => { h with }
  | .lmTmo _ => { h with }
  | .lmRem _ => { h with }
  | .vwin _ _ => { h with vwin := tput_wf h.vwin }
  | .vwinAll => { h with vwin := rfl }
  | .reel _ => { h with }
  | .spnBuf _ _ => { h with spnBuf := tput_wf h.spnBuf }
  | .spnBufAll => { h with spnBuf := rfl }
  | .spnWait _ _ => { h with spnWait := tput_wf h.spnWait }
  | .spnWaitAll => { h with spnWait := rfl }
  | .spn _ => { h with }
  | .hbTx _ _ => { h with hbTx := tput_wf h.hbTx }
  | .hbTxAll => { h with hbTx := rfl }
  | .whl _ => { h with }
  | .cout _ => { h with }
  | .repairs _ => { h with }
  | .scrub _ => { h with }
  | .raw _ _ => { h with raw := tput_wf h.raw }
  | .rawAll => { h with raw := rfl }
  | .retire _ _ => { h with retire := tput_wf h.retire }
  | .retireAll => { h with retire := rfl }
  | .retFull _ => { h with }
  | .faulty _ => { h with }
  | .dtgt _ _ => { h with dtgt := tput_wf h.dtgt }
  | .dtgtAll => { h with dtgt := rfl }
  | .dwait _ _ => { h with dwait := tput_wf h.dwait }
  | .dwaitAll => { h with dwait := rfl }
  | .therm _ => { h with }
  | .avs _ => { h with }
  | .ao _ => { h with }
  | .slp _ _ => { h with slp := tput_wf h.slp }
  | .slpAll => { h with slp := rfl }
  | .arrT _ _ => { h with arrT := tput_wf h.arrT }
  | .arrTAll => { h with arrT := rfl }
  | .mgx _ => { h with }
  | .tst _ => { h with }
  | .cen _ => { h with }
  | .cskip _ _ => { h with cskip := tput_wf h.cskip }
  | .cskipAll => { h with cskip := rfl }
  | .trc _ _ => { h with trc := tput_wf h.trc }
  | .trcAll => { h with trc := rfl }
  | .trcNext _ => { h with }
  | .spdm _ _ => { h with spdm := tput_wf h.spdm }
  | .spdmAll => { h with spdm := rfl }

/-- A program keeps the canonical forms. -/
theorem Prog.run_canon (p : Prog) {m : Mach} (h : m.Canon) : (p.run m).Canon := by
  induction p generalizing m with
  | done => exact h
  | upd u _ ih => exact ih (u.apply_canon h)
  | look k ih => exact ih m h

/-- A list of updates keeps the canonical forms. -/
theorem foldl_apply_canon (l : List Upd) {m : Mach} (h : m.Canon) : (l.foldl (fun m u => u.apply m) m).Canon := by
  induction l generalizing m with
  | nil => exact h
  | cons u _ ih => exact ih (u.apply_canon h)

/-- The block right after reset has the canonical forms. -/
theorem reset_canon : Mach.reset.Canon := by constructor <;> rfl

end Sys2Proof.Machine
end

