-- ==== Sys2Proof/Tests/Slice0.lean ====
section
/-!
SUPPORT. Tests of the model: for every statement a witness that meets its hypotheses, clause by clause; the smoke test of
WellFormed; and worked examples of the spec.
-/
namespace Sys2Proof.Tests
open Sys2Proof Sys2Proof.Machine

-- One theorem at a time: side by side these evaluations take a thread and a stack each.
set_option Elab.async false

/-- The state after reset with some fields set and some things stored. -/
def w (fs : List (RF × Nat)) (us : List Upd) : State :=
  ⟨[], us.foldl (fun m u => u.apply m) (fs.foldl (fun m e => m.set e.1 e.2) Mach.reset)⟩

/-- Such a state meets the invariant. -/
theorem w_inv (fs : List (RF × Nat)) (us : List Upd) (h : (w fs us).m.feDue = false)
    (ht : (w fs us).m.evPend = []) : (w fs us).Inv := by
  have hc : ∀ (l : List (RF × Nat)) {m : Mach}, m.Canon → (l.foldl (fun m e => m.set e.1 e.2) m).Canon := by
    intro l
    induction l with
    | nil => exact id
    | cons e _ ih => exact fun hm => ih (Upd.apply_canon hm _)
  exact ⟨foldl_apply_canon us (hc fs reset_canon), h, ht⟩

/-- Whether a write lands. -/
def landsB (m : Mach) (p : Path) (r : Reg) (data mask : Nat) : Bool :=
  r.addr % 8 = 0 && regAt r.addr = some r &&
    (!isPage p || r.k = .TEN_VIOL || r.k = .TEN_OBJ_SEL) && r.k ≠ .TEN_OBJ_DATA &&
    reaches m p r.addr true (data &&& mask) && writeTest m r data mask p = rcOK && m.faulty.all fun f => !f.left.contains r

theorem lands_of {m : Mach} {p : Path} {r : Reg} {data mask : Nat} (h : landsB m p r data mask = true) :
    Lands m p r data mask := by
  simp only [landsB, Bool.and_eq_true, Bool.or_eq_true, decide_eq_true_eq, Bool.not_eq_true', List.all_eq_true,
    List.contains_eq_mem, decide_eq_false_iff_not] at h
  obtain ⟨⟨⟨⟨⟨ha, hp⟩, hk⟩, hr⟩, ht⟩, hf⟩ := h
  exact ⟨ha, fun hq => hp.elim (fun g => g.elim (fun e => absurd hq (by simp [e])) .inl) .inr, hk, hr, ht, hf⟩

/-- The least structure that passes the check: the eight classes (R35 phase 2). -/
def minItems : List Item :=
  (List.range 8).map fun c => { sect := 3, idx := c, typ := 0x31, key := c, len := 16, num := 0x31 + c * 2 ^ 16 }

/-- A message of one operation, of agent 63. -/
def req (op : Op) : Msg := { op := op, cls := 0, inp := 127, out := 128, agent := 63 }

/-- An admitted packet of `n` bytes. -/
def pkt (n : Nat) : Pkt :=
  { len := n, colour := 0, queue := 32767, mcast := false, flow := 0, group := 0, user := 0, slice := 255, bobbins := 1, shared := 0,
    data := [], first := 0, last := 0, bobs := [0], spilled := false, bad := [], time := 0 }

/-! WellFormed: an ill-formed term for each check, which the check refuses, and well-formed ones that it takes. -/

/-- Fabric addresses have 52 bits. -/
theorem test_wf_addr : (Instr.biconflict 0 (2 ^ 52) 0).wf = false ∧ (Instr.biconflict 127 (2 ^ 52 - 1) 0).wf = true := by
  decide
/-- Lines are 64-byte aligned. -/
theorem test_wf_line : (Instr.cornerAck 0 65).wf = false ∧ (Instr.cornerAck 0 (2 ^ 52)).wf = false ∧
    (Instr.cornerAck 127 64).wf = true := by decide
/-- The data of a message is at most 4 KiB. -/
theorem test_wf_data : (Instr.mirrorRecord 0 (List.replicate 513 0)).wf = false ∧
    (Instr.mirrorRecord 31 (List.replicate 512 0)).wf = true := by decide +kernel
/-- Paths name what exists. -/
theorem test_wf_path : (∀ p ∈ ([.firmware 4, .loader 8, .fmVdm 64, .bar0 64, .tenantPage 64 0, .tenantPage 0 256] : List Path),
    (Instr.krbClrCnt p).wf = false) ∧
    ∀ p ∈ ([.bmc, .debug, .partner, .firmware 3, .loader 7, .fmVdm 63, .bar0 63, .tenantPage 63 255] : List Path),
      (Instr.krbClrCnt p).wf = true := by decide +kernel
/-- A control-space write has a width of 1, 2, 4 or 8 bytes and an address within 64 MiB. -/
theorem test_wf_write : (Instr.registerWrite [⟨.bmc, 8, 3, 0, 0⟩]).wf = false ∧
    (Instr.registerWrite [⟨.bmc, 2 ^ 26, 8, 0, 0⟩]).wf = false ∧ (Instr.registerWrite [⟨.firmware 4, 8, 8, 0, 0⟩]).wf = false ∧
    (Instr.registerWrite [⟨.bmc, 2 ^ 26 - 8, 8, 0, 0⟩]).wf = true := by decide +kernel
/-- A message's class, endpoints, agent, address and data exist. -/
theorem test_wf_msg : (∀ q ∈ ([{ req .rdS with cls := 8 }, { req .rdS with inp := 168 }, { req .rdS with out := 168 },
      { req .rdS with agent := 65 }, { req .rdS with addr := 2 ^ 52 }, { req .rdS with data := List.replicate 513 0 }] : List Msg),
      (Instr.fwdReq q).wf = false) ∧
    (Instr.fwdReq { req .rdS with cls := 7, inp := 167, out := 167, agent := 64 }).wf = true ∧
    (Instr.fwdReq { req .rdS with agent := 0xFF }).wf = true := by decide +kernel
/-- An image is made of bytes. -/
theorem test_wf_image : (Instr.imageLoadDone ⟨[255, 256]⟩).wf = false ∧ (Instr.imageLoadDone ⟨[255, 0]⟩).wf = true := by decide
/-- A Spindle packet's kind, sequence number, channel and endpoints have their widths. -/
theorem test_wf_packet : (∀ pk ∈ ([⟨16, 0, 0, 1, true, req .rdS, false, 0, 0⟩, ⟨3, 65536, 0, 1, true, req .rdS, false, 0, 0⟩,
      ⟨3, 0, 8, 1, true, req .rdS, false, 0, 0⟩, ⟨3, 0, 0, 1, true, req .rdS, false, 256, 0⟩,
      ⟨3, 0, 0, 1, true, req .rdS, false, 0, 256⟩] : List Packet), (Instr.dataPacket pk).wf = false) ∧
    (Instr.dataPacket ⟨15, 65535, 7, 1, true, req .rdS, false, 255, 255⟩).wf = true := by decide +kernel
/-- A heartbeat's fields have their widths. -/
theorem test_wf_heartbeat : (∀ h ∈ ([⟨65536, 0, 0, 0, 0, 0, 0⟩, ⟨0, 65536, 0, 0, 0, 0, 0⟩, ⟨0, 0, 256, 0, 0, 0, 0⟩,
      ⟨0, 0, 0, 256, 0, 0, 0⟩, ⟨0, 0, 0, 0, 2 ^ 64, 0, 0⟩, ⟨0, 0, 0, 0, 0, 2 ^ 64, 0⟩, ⟨0, 0, 0, 0, 0, 0, 2 ^ 64⟩] : List Heartbeat),
      (Instr.heartbeat 0 h 0).wf = false) ∧ (Instr.heartbeat 0 ⟨65535, 65535, 255, 255, 1, 2, 3⟩ 0).wf = true := by decide +kernel
/-- A temperature sample has the 32 sensors, and a tag has 32 bits. -/
theorem test_wf_sample : (Instr.thermalSample (List.replicate 31 20) 0).wf = false ∧
    (Instr.thermalSample (List.replicate 32 20) 31).wf = true ∧ (Instr.memoryWriteComplete 0 (2 ^ 32)).wf = false ∧
    (Instr.memoryWriteComplete 31 (2 ^ 32 - 1)).wf = true := by decide +kernel
/-- A CXL.io act names a window, a decoder or a vector that exists. -/
theorem test_wf_io : (∀ r ∈ ([.window 256 0 0, .decoder 24 0 0 1 256 [] false false, .decoder 0 0 0 1 256 (List.replicate 17 0) false false,
      .decoderRead 24, .config 256 .slotCap, .msix 2048 0 0, .msix 0 2 0] : List IoReq), (Instr.hostIoRequest 0 r).wf = false) ∧
    (Instr.hostIoRequest 127 (.msix 2047 1 0)).wf = true := by decide +kernel

/-! Values of the spec's own examples and tables. -/

/-- Table 5.5's line: its home is SQ11, its tag 0x40000 and its set 0xCB9. -/
theorem test_line_of_the_example : homeSq 0x4000032A40 = 11 ∧ tagOf 0x4000032A40 = 0x40000 ∧ setOf 0x4000032A40 = 0xCB9 := by
  decide +kernel
/-- TM_QCFG of queue 0x1234 is at 0x0092_4680 and TB_TIME64 at 0x00BF_8010 (19_control_space_map.md). -/
theorem test_addresses_of_the_example : (⟨.TM_QCFG, 0x1234⟩ : Reg).addr = 0x924680 ∧ (⟨.TM_QOCC, 0x1234⟩ : Reg).addr = 0x924690 ∧
    regAt 0xBF8010 = some ⟨.TB_TIME64, 0⟩ := by decide +kernel
/-- The reset values of R23's registers. -/
theorem test_reset_identity : resetVal ⟨.GLB_CAP0, 0⟩ = 0x5720402040800100#64 ∧ resetVal ⟨.GLB_CAP1, 0⟩ = 0x40600E0F140F1217#64 := by
  decide +kernel
/-- The tenant driver's write of the example of 19_control_space_map.md is refused: GLB_PATH_CNT then reads
0x2491_A006_0000_0001. -/
theorem test_tenant_write_refused :
    (match exec (.registerWrite [⟨.bar0 3, 0x924680, 8, 0, 0xFFFFFFFF⟩])
        (w [(PWR_DOM_STATUS_STATE 2, dsON), (GLB_ARB_CFG_FM_VCS, 0x100)] [.vcs 3 ⟨true, 24, 3, 0, 0⟩]) with
      | .next t => decide (t.m.rd ⟨.GLB_PATH_CNT, 0⟩ = 0x2491A00600000001#64)
      | _ => false) = true := by decide +kernel
/-- The Docket of the example of 07_plaza_enqueue_policing.md: 1,500 bytes for queue 0x1234, flow 0x2A5C1, METER, in 24 lines
and 6 bobbins. -/
theorem test_docket_of_the_example : dkLEN 0x00007F02000000010002A5C11234C5DC = 1500 ∧ dkQUEUE 0x00007F02000000010002A5C11234C5DC = 0x1234 ∧
    dkFLOW 0x00007F02000000010002A5C11234C5DC = 0x2A5C1 ∧ dkMETER 0x00007F02000000010002A5C11234C5DC = true ∧
    dkUSER 0x00007F02000000010002A5C11234C5DC = 0x7F02 ∧ dkLines 0x00007F02000000010002A5C11234C5DC = 24 ∧
    dkBobbins 0x00007F02000000010002A5C11234C5DC = 6 := by decide +kernel
/-- A write of a staged window takes its word and leaves the committed one (R291, the example of 11_tenants_and_kerb.md). -/
theorem test_kerb_window_is_staged :
    (match exec (.kerbWindowWrite (.firmware 0) 41 2 0x4903)
        (w [(PWR_DOM_STATUS_STATE 2, dsON)] [.reg ⟨.KRB_WIN, 166⟩ 0x4B03, .reg ⟨.KRB_CWIN, 166⟩ 0x4B03]) with
      | .next t => decide (t.m.rd ⟨.KRB_WIN, 166⟩ = 0x4903#64 ∧ t.m.rd ⟨.KRB_CWIN, 166⟩ = 0x4B03#64)
      | _ => false) = true := by decide +kernel
/-- At 110 degrees the throttle level rises by 1, from 7 to 8 (R391, Table 18.16). -/
theorem test_throttle_rises :
    (match exec .throttleStep (w [(PWR_THERM_STATUS_TEMP, 110), (PWR_THERM_STATUS_LEVEL, 7)] []) with
      | .next t => decide (t.m.g PWR_THERM_STATUS_LEVEL = 8)
      | _ => false) = true := by decide +kernel
/-- No row of the table has bits: no word spells a command. -/
theorem test_no_word : decodeTableWord 64 0 = none ∧ State.reset.withFetchWord 64 7 = State.reset := ⟨rfl, rfl⟩

/-! The hypotheses of every statement hold together, clause by clause. -/

/-- The hypotheses of ResetsComplete hold together. -/
theorem witness_ResetsComplete :
    (∃ s : State, s.Inv ∧
      s.m.g TB_CNT_PPS_REJECT < 2 ^ 16 - 1 ∧
      s.m.pins.porst = false ∧ ColdCause.porst ≠ .brownout ∧ s.m.g PWR_THERM_STATUS_TRIP = 0 ∧ s.m.therm.absorbed = 0 ∧
      (!s.m.pins.twinId) ≠ s.m.pins.twinId ∧ s.m.pins.strapReported = false) ∧
    (∃ s : State, s.Inv ∧
      s.m.pins.porst = true) ∧
    (∃ s : State, s.Inv ∧
      LandsAll s.m .bmc ⟨.GLB_RESET_CTL, 0⟩ [(GLB_RESET_CTL_WARM, 1), (GLB_RESET_CTL_KEY, 0xA5)]) ∧
    (∃ s : State, s.Inv ∧
      s.m.g TB_CTL_PPS_EN = 1 ∧ s.m.tb.lastEdge.isSome = true) :=
  ⟨⟨w []
      [.pins { Mach.reset.pins with porst := false }], w_inv _ _ rfl rfl, by decide +kernel⟩,
   ⟨w []
      [.pins { Mach.reset.pins with porst := true }], w_inv _ _ rfl rfl, by decide +kernel⟩,
   ⟨w [(PWR_DOM_STATUS_STATE 2, dsON)]
      [], w_inv _ _ rfl rfl, lands_of (by decide +kernel)⟩,
   ⟨w [(TB_CTL_PPS_EN, 1)]
      [.tb { Mach.reset.tb with lastEdge := some 5 }], w_inv _ _ rfl rfl, by decide +kernel⟩⟩

/-- The hypotheses of LoadsAndStructureComplete hold together. -/
theorem witness_LoadsAndStructureComplete :
    (∃ s : State, s.Inv ∧
      LandsIn s.m .bmc MLD_CTL_CMD 1 ∧
      LandsIn s.m .bmc MLD_CTL_CMD 2 ∧
      LandsIn s.m .bmc MLD_CTL_CMD 3 ∧
      Lands s.m .bmc ⟨.MLD_STAGE_DATA, 0⟩ (0xFFFFFFFFFFFFFFFF#64).toNat (2 ^ 64 - 1) ∧
      reaches s.m .bmc (⟨.MLD_STAGE_DATA, 0⟩ : Reg).addr false 0 = true ∧ domOn s.m 2 = true) ∧
    (∃ s : State, s.Inv ∧
      LandsIn s.m .bmc MLD_CTL_CMD 4 ∧
      s.m.ldr.running = some (1, 1) ∧ s.m.ldr.fence = 0 ∧ s.m.ldr.boot = 0 ∧ s.m.g GLB_STRUCT_STATUS_STATE = stDISABLED ∧
      (verify s.m.fuse (s.m.g MLD_SVN_MIN_SVN_MIN) (s.m.g GLB_ID_STEPPING) []).reason ≠ 0) ∧
    (∃ s : State, s.Inv ∧
      LandsIn s.m .bmc GLB_STRUCT_CTL_ENABLE 1 ∧
      LandsIn s.m .bmc GLB_STRUCT_CTL_CHECK 1 ∧
      s.m.g GLB_STRUCT_STATUS_STATE = stDISABLED ∧ s.m.ldr.accepted = true) ∧
    (∃ s : State, s.Inv ∧
      LandsIn s.m .bmc GLB_STRUCT_CTL_ENABLE 1 ∧
      s.m.g GLB_STRUCT_STATUS_STATE = stDISABLED ∧ s.m.ldr.accepted = false) ∧
    (∃ s : State, s.Inv ∧
      LandsIn s.m .bmc GLB_STRUCT_CTL_ENABLE 0 ∧
      s.m.g GLB_STRUCT_STATUS_STATE = stENABLED) ∧
    (∃ s : State, s.Inv ∧
      s.m.ldr.checking = some false ∧ s.m.ldr.listening = false ∧ phases s.m.fuse (itemsNow s.m) = none ∧ s.m.g TWN_CFG_PAIRED = 0) ∧
    (∃ s : State, s.Inv ∧
      s.m.ldr.checking = some true ∧ s.m.ldr.listening = false ∧ phases s.m.fuse (itemsNow s.m) ≠ none) ∧
    (∃ s : State, s.Inv ∧
      s.m.ldr.checking = some true ∧ s.m.ldr.listening = true ∧ s.m.ldr.heard = false) ∧
    (∃ s : State, s.Inv ∧
      s.m.g GLB_STRUCT_STATUS_STATE = stAPPLYING ∧ applyReached s.m = true) ∧
    (∃ s : State, s.Inv ∧
      s.m.g GLB_STRUCT_STATUS_STATE = stDISABLING ∧ disableReached s.m = true) :=
  ⟨⟨w [(PWR_DOM_STATUS_STATE 2, dsON)]
      [], w_inv _ _ rfl rfl, lands_of (by decide +kernel), lands_of (by decide +kernel), lands_of (by decide +kernel), lands_of (by decide +kernel), by decide +kernel⟩,
   ⟨w [(PWR_DOM_STATUS_STATE 2, dsON)]
      [.ldr { running := some (1, 1) }], w_inv _ _ rfl rfl, lands_of (by decide +kernel), by decide +kernel⟩,
   ⟨w [(PWR_DOM_STATUS_STATE 2, dsON)]
      [.ldr { accepted := true }], w_inv _ _ rfl rfl, lands_of (by decide +kernel), lands_of (by decide +kernel), by decide +kernel⟩,
   ⟨w [(PWR_DOM_STATUS_STATE 2, dsON)]
      [], w_inv _ _ rfl rfl, lands_of (by decide +kernel), by decide +kernel⟩,
   ⟨w [(PWR_DOM_STATUS_STATE 2, dsON), (GLB_STRUCT_STATUS_STATE, stENABLED), (GLB_STRUCT_CTL_ENABLE, 1)]
      [], w_inv _ _ rfl rfl, lands_of (by decide +kernel), by decide +kernel⟩,
   ⟨w []
      [.ldr { checking := some false, items := minItems }], w_inv _ _ rfl rfl, by decide +kernel⟩,
   ⟨w []
      [.ldr { checking := some true }], w_inv _ _ rfl rfl, by decide +kernel⟩,
   ⟨w []
      [.ldr { checking := some true, listening := true }], w_inv _ _ rfl rfl, by decide +kernel⟩,
   ⟨w [(GLB_STRUCT_STATUS_STATE, stAPPLYING)]
      [], w_inv _ _ rfl rfl, by decide +kernel⟩,
   ⟨w [(GLB_STRUCT_STATUS_STATE, stDISABLING)]
      [], w_inv _ _ rfl rfl, by decide +kernel⟩⟩

/-- The hypotheses of RegisterWriteStores hold together. -/
theorem witness_RegisterWriteStores :
    (∃ s : State, s.Inv ∧
      Lands s.m (.firmware 0) ⟨.FLW_W0, 1048575⟩ (0x0FFFFFFF0FFFFFFF#64).toNat (0xFFFFFFFFFFFFFFFF#64).toNat ∧
      LandsIn s.m .bmc GLB_CMD_CONFLICT_VALID 1 ∧
      LandsIn s.m .bmc GLB_PATH_CNT_CLR 1 ∧
      writeEffect ⟨.FLW_W0, 1048575⟩ = Foot.quiet ∧ RegKind.FLW_W0 ≠ .SQ_FMD_CTL ∧ RegKind.FLW_W0 ≠ .GLB_PATH_CNT) :=
  ⟨w [(PWR_DOM_STATUS_STATE 2, dsON)]
      [], w_inv _ _ rfl rfl, lands_of (by decide +kernel), lands_of (by decide +kernel), lands_of (by decide +kernel), by decide +kernel⟩

/-- The hypotheses of PortTrainingCompletes hold together. -/
theorem witness_PortTrainingCompletes :
    (∃ s : State, s.Inv ∧
      LandsIn s.m .bmc (OCT_PORT_CTL_ENABLE 127) (flag false) ∧
      LandsIn s.m .bmc (OCT_PORT_CTL_RETRAIN 127) 1 ∧
      LandsIn s.m .bmc (OCT_PORT_CTL_REDO_EQ 127) 1 ∧
      LandsIn s.m .bmc (OCT_PORT_CTL_CLR_CNT 127) 1 ∧
      s.m.g (OCT_PORT_STATUS_STATE 127) = psUP ∧ s.m.g (OCT_PORT_CTL_ENABLE 127) = 1) ∧
    (∃ s : State, s.Inv ∧
      LandsIn s.m .bmc (OCT_PORT_CTL_ENABLE 127) (flag true) ∧
      s.m.g (OCT_PORT_CTL_ENABLE 127) = 0 ∧ s.m.g (OCT_PORT_STATUS_STATE 127) = psDISABLED ∧ portPerst s.m 127 = false) ∧
    (∃ s : State, s.Inv ∧
      s.m.g (OCT_PORT_STATUS_STATE 127) = psTRAINING ∧ s.m.g (OCT_PORT_TRAIN_XRATE_OFFERED 127) = 1 ∧ (s.m.getPort 127).xrateBar = false) ∧
    (∃ s : State, s.Inv ∧
      s.m.g (OCT_PORT_STATUS_STATE 127) = psFLUSHING ∧ xbFlushed s.m 127 = true) :=
  ⟨⟨w [(PWR_DOM_STATUS_STATE 2, dsON), (PWR_DOM_STATUS_STATE (dOCT 31), dsON), (OCT_PORT_CFG_VALID 127, 1), (OCT_PORT_STATUS_STATE 127, psUP), (OCT_PORT_CTL_ENABLE 127, 1)]
      [], w_inv _ _ rfl rfl, lands_of (by decide +kernel), lands_of (by decide +kernel), lands_of (by decide +kernel), lands_of (by decide +kernel), by decide +kernel⟩,
   ⟨w [(PWR_DOM_STATUS_STATE 2, dsON), (PWR_DOM_STATUS_STATE (dOCT 31), dsON), (OCT_PORT_CFG_VALID 127, 1), (OCT_PORT_STATUS_STATE 127, psDISABLED)]
      [], w_inv _ _ rfl rfl, lands_of (by decide +kernel), by decide +kernel⟩,
   ⟨w [(OCT_PORT_STATUS_STATE 127, psTRAINING), (OCT_PORT_TRAIN_XRATE_OFFERED 127, 1)]
      [], w_inv _ _ rfl rfl, by decide +kernel⟩,
   ⟨w [(OCT_PORT_STATUS_STATE 127, psFLUSHING)]
      [], w_inv _ _ rfl rfl, by decide +kernel⟩⟩

/-- The hypotheses of PortPinsAndIdeComplete hold together. -/
theorem witness_PortPinsAndIdeComplete :
    (∃ s : State, s.Inv ∧
      s.m.g (OCT_PORT_IDE_STATE 127) = 1 ∧ s.m.g (OCT_PORT_STATUS_STATE 127) = psUP) ∧
    (∃ s : State, s.Inv ∧
      s.m.g (OCT_PORT_STATUS_STATE 127) = psHELD ∧ s.m.g (OCT_PORT_STATUS_HELD_REASON 127) = 3) ∧
    (∃ s : State, s.Inv ∧
      s.m.g (OCT_PORT_IDE_STATE 127) = 2 ∧ s.m.g (OCT_PORT_STATUS_STATE 127) = psUP ∧ s.m.g (OCT_PORT_CFG_ROLE 127) ≠ 3 ∧ kmSecured s.m 127 = true) ∧
    (∃ s : State, s.Inv ∧
      s.m.g (OCT_PORT_IDE_STATE 127) = 0 ∧ s.m.g (OCT_PORT_STATUS_STATE 127) = psUP ∧ s.m.g (OCT_PORT_CFG_ROLE 127) ≠ 3 ∧ kmSecured s.m 127 = true ∧
      (s.m.getPort 127).credits.length = 8) ∧
    (∃ s : State, s.Inv ∧
      s.m.g (SLP_STATUS_PG 31) = 1 ∧ s.m.pins.present.getD 31 false = true) ∧
    (∃ s : State, s.Inv ∧
      (s.m.getVcs 63).valid = true ∧ (s.m.getVcs 63).up < 128 ∧ s.m.g (OCT_PORT_STATUS_STATE (s.m.getVcs 63).up) = psRESET) :=
  ⟨⟨w [(OCT_PORT_IDE_STATE 127, 1), (OCT_PORT_STATUS_STATE 127, psUP)]
      [], w_inv _ _ rfl rfl, by decide +kernel⟩,
   ⟨w [(OCT_PORT_STATUS_STATE 127, psHELD), (OCT_PORT_STATUS_HELD_REASON 127, 3)]
      [], w_inv _ _ rfl rfl, by decide +kernel⟩,
   ⟨w [(OCT_PORT_IDE_STATE 127, 2), (OCT_PORT_STATUS_STATE 127, psUP)]
      [.spdm 192 { stage := 3, sessions := [(7, true, 0)] }], w_inv _ _ rfl rfl, by decide +kernel⟩,
   ⟨w [(OCT_PORT_STATUS_STATE 127, psUP), (OCT_PORT_CFG_ROLE 127, 1)]
      [.port 127 { credits := List.replicate 8 0 }], w_inv _ _ rfl rfl, by decide +kernel⟩,
   ⟨w [(SLP_STATUS_PG 31, 1)]
      [.pins { Mach.reset.pins with present := List.replicate 32 true }], w_inv _ _ rfl rfl, by decide +kernel⟩,
   ⟨w [(OCT_PORT_STATUS_STATE 127, psRESET)]
      [.vcs 63 ⟨true, 127, 0xFF, 0, 0⟩], w_inv _ _ rfl rfl, by decide +kernel⟩⟩

/-- The hypotheses of PortMessagesComplete hold together. -/
theorem witness_PortMessagesComplete :
    (∃ s : State, s.Inv ∧
      portUp s.m 127 = true ∧ upVcs s.m 127 = some 63 ∧ reqSort (req .rdS).op ≠ 0 ∧ decOf s.m 63 0 16 (2 ^ 29 - 1) = some (s.m.getDec (63 * 24 + 15)) ∧
      4 ≤ nth (s.m.getDec (63 * 24 + 15)).targets (ilvIdx 1 256 (2 ^ 29 - 1)) ∧ (vppbs s.m 63)[4 - 4]? = some (3, 16) ∧
      linkRoom s.m 127 (hostCls s.m 127 63 (req .rdS) (3, 3, 16)) (memLen (req .rdS)) = true ∧ linkRoom s.m 127 1 16 = true ∧
      s.m.g (OCT_PORT_CFG_ROLE 127) ≠ 3 ∧ s.m.g (OCT_PORT_CFG_ROLE 127) ≠ 4 ∧ (cacheIds s.m 63)[0]? = some 3 ∧ portUp s.m 3 = true ∧ portAgent s.m 127 = some 63 ∧
      (∀ e ∈ s.m.trk, ¬(e.2.st ≠ 0 ∧ e.2.kind = 0 ∧ e.2.line = 0 ∧ e.2.req.agent = 63)) ∧ ∀ e ∈ s.m.crn, ¬(e.2.st ≠ 0 ∧ e.1 % 2 ^ 46 = 0 ∧ ∃ x ∈ e.2.waiters, x.msg.agent = 63)) ∧
    (∃ s : State, s.Inv ∧
      portUp s.m 127 = true ∧ upVcs s.m 127 = some 63 ∧ reqSort (req .rdS).op ≠ 0 ∧ decOf s.m 63 0 16 (2 ^ 29 - 1) = some (s.m.getDec (63 * 24 + 15)) ∧
      4 ≤ nth (s.m.getDec (63 * 24 + 15)).targets (ilvIdx 1 256 (2 ^ 29 - 1)) ∧ (vppbs s.m 63)[4 - 4]? = some (3, 16) ∧
      linkRoom s.m 127 (hostCls s.m 127 63 (req .rdS) (3, 3, 16)) (memLen (req .rdS)) = false ∧ s.m.g (OCT_PORT_CNT1_MSG_INVALID 127) < 2 ^ 32 - 1) ∧
    (∃ s : State, s.Inv ∧
      isOwed s.m 127 .memData 9 128 = true ∧ linkRoom s.m 127 3 80 = true ∧
      portUp s.m 127 = true ∧ s.m.g (OCT_PORT_CFG_ROLE 127) = 4 ∧ 4095 = s.m.g (OCT_PBR_ID_ID 127) ∧ ∃ n < 16, s.m.g (OCT_EDGE_MAP_VALID (127 * 16 + n)) = 1 ∧ s.m.g (OCT_EDGE_MAP_DPID (127 * 16 + n)) = 7) :=
  ⟨⟨w [(OCT_PORT_STATUS_STATE 127, psUP), (OCT_PORT_STATUS_STATE 3, psUP), (OCT_PORT_CFG_ROLE 3, 2)]
      [.vcs 63 ⟨true, 127, 63, 0, 2 ^ 3⟩, .dec (63 * 24 + 15) { base := 2 ^ 28, size := 2 ^ 28, ways := 1, gran := 256, targets := [4], committed := true }], w_inv _ _ rfl rfl, by decide +kernel⟩,
   ⟨w [(OCT_PORT_STATUS_STATE 127, psUP), (OCT_PORT_STATUS_STATE 3, psUP), (OCT_PORT_CFG_ROLE 3, 2)]
      [.vcs 63 ⟨true, 127, 63, 0, 2 ^ 3⟩, .dec (63 * 24 + 15) { base := 2 ^ 28, size := 2 ^ 28, ways := 1, gran := 256, targets := [4], committed := true }, .xin (127 * 8 + 2) [[{ req .rdS with len := 262144 }]]], w_inv _ _ rfl rfl, by decide +kernel⟩,
   ⟨w [(OCT_PORT_STATUS_STATE 127, psUP), (OCT_PORT_CFG_ROLE 127, 4), (OCT_PBR_ID_ID 127, 4095), (OCT_EDGE_MAP_VALID (127 * 16 + 15), 1), (OCT_EDGE_MAP_DPID (127 * 16 + 15), 7)]
      [.owed 127 [(answerKind .memData, 9, 128)]], w_inv _ _ rfl rfl, by decide +kernel⟩⟩

/-- The hypotheses of CrossingMessagesComplete hold together. -/
theorem witness_CrossingMessagesComplete :
    (∃ s : State, s.Inv ∧
      s.m.getXin (127 * 8 + 7) = [{ req .rdS with inp := 127, out := 131, cls := 7 }] :: [] ∧
      mayReach s.m { req .rdS with inp := 127, out := 131, cls := 7 } = true ∧ heldBack s.m { req .rdS with inp := 127, out := 131, cls := 7 } = false ∧
      (s.m.getFlowt (flowKey 127 131 7)).draining = false ∧ cutsThrough s.m { req .rdS with inp := 127, out := 131, cls := 7 } = false ∧
      choosePlane s.m { req .rdS with inp := 127, out := 131, cls := 7 } = some 3 ∧ stagedCells s.m 127 + cellsOf 64 ≤ 256 ∧ queueAdmits s.m 131 7 (cellsOf 64) = some (1, 0)) ∧
    (∃ s : State, s.Inv ∧
      s.m.getXin (127 * 8 + 7) = [{ req .ioWr with inp := 127, out := 126, cls := 7 }] :: [] ∧
      mayReach s.m { req .ioWr with inp := 127, out := 126, cls := 7 } = true ∧ heldBack s.m { req .ioWr with inp := 127, out := 126, cls := 7 } = false ∧
      (s.m.getFlowt (flowKey 127 126 7)).draining = false ∧ cutsThrough s.m { req .ioWr with inp := 127, out := 126, cls := 7 } = true ∧ choosePlane s.m { req .ioWr with inp := 127, out := 126, cls := 7 } = some 3) ∧
    (∃ s : State, s.Inv ∧
      s.m.getStg 167 = (⟨{ req .rdS with inp := 167, out := 131 }, 3, 2, 1, 0, 2, 0, [], []⟩ : Staged) :: [] ∧ planesUp s.m ≠ [] ∧ 167 ≠ epSPN ∧ sendable s.m 167 0 = some ⟨req .rdS, 1, 1, 1, 0, [], 0, none⟩ ∧
      s.m.getXq (167 * 8 + 7) = (⟨req .rdS, 1, 1, 1, 0, [], 0, none⟩ : QMsg) :: [] ∧ 128 ≤ 167 ∧ s.m.g (XB_CLASS_CFG_AGE_LIMIT 7) * 1000 ≤ s.m.time64 - 0) ∧
    (∃ s : State, s.Inv ∧
      planesUp s.m ≠ [] ∧ 167 ≠ epSPN ∧ sendable s.m 167 0 = none ∧ ((drrPick s.m 167 140 (s.m.getXturn 167 % 8) (decide (8 ≤ s.m.getXturn 167)) (deficits s.m 167)).map fun x => (x.1, x.2.1)) = some (7, ⟨req .rdS, 1, 1, 1, 0, [], 0, none⟩)) :=
  ⟨⟨w [(PWR_DOM_STATUS_STATE (dSQ 3), dsON), (planeState 3, plSERVICE), (XB_STATUS_MODE, 1)]
      [.xin (127 * 8 + 7) [[{ req .rdS with inp := 127, out := 131, cls := 7 }]]], w_inv _ _ rfl rfl, by decide +kernel⟩,
   ⟨w [(planeState 3, plSERVICE), (XB_STATUS_MODE, 1), (XB_CTL_CUT_EN, 1), (OCT_PORT_STATUS_STATE 127, psUP), (OCT_PORT_STATUS_STATE 126, psUP)]
      [.xin (127 * 8 + 7) [[{ req .ioWr with inp := 127, out := 126, cls := 7 }]], .port 126 { credits := List.replicate 8 1 }], w_inv _ _ rfl rfl, by decide +kernel⟩,
   ⟨w [(planeState 3, plSERVICE)]
      [.stg 167 [⟨{ req .rdS with inp := 167, out := 131 }, 3, 2, 1, 0, 2, 0, [], []⟩], .xq (167 * 8) [⟨req .rdS, 1, 1, 1, 0, [], 0, none⟩], .xq (167 * 8 + 7) [⟨req .rdS, 1, 1, 1, 0, [], 0, none⟩], .tb { Mach.reset.tb with sec := 9 }], w_inv _ _ rfl rfl, by decide +kernel⟩,
   ⟨w [(planeState 3, plSERVICE)]
      [.xq (167 * 8 + 7) [⟨req .rdS, 1, 1, 1, 0, [], 0, none⟩]], w_inv _ _ rfl rfl, by decide +kernel⟩⟩

/-- The hypotheses of PlanesComplete hold together. -/
theorem witness_PlanesComplete :
    (∃ s : State, s.Inv ∧
      s.m.g (planeState 3) = plSTARTING) ∧
    (∃ s : State, s.Inv ∧
      s.m.g (planeState 3) ∈ [plSTARTING, plSERVICE, plDRAINING] ∧ s.m.g (planeState 3) = plDRAINING ∧ planeBusy s.m 3 = false) ∧
    (∃ s : State, s.Inv ∧
      s.m.g (planeState 3) = plDRAINING ∧ planeBusy s.m 3 = true) ∧
    (∃ s : State, s.Inv ∧
      LandsIn s.m .bmc XB_PLANE_CTL_OUT 8 ∧
      LandsIn s.m .bmc XB_CTL_CLR_CNT 1) ∧
    (∃ s : State, s.Inv ∧
      LandsIn s.m .bmc XB_PLANE_CTL_RETURN 8 ∧
      bitsAt 8 3 1 = 1 ∧ s.m.g (planeState 3) = plTEST) :=
  ⟨⟨w [(planeState 3, plSTARTING)]
      [], w_inv _ _ rfl rfl, by decide +kernel⟩,
   ⟨w [(planeState 3, plDRAINING)]
      [], w_inv _ _ rfl rfl, by decide +kernel⟩,
   ⟨w [(planeState 3, plDRAINING)]
      [.stg 167 [⟨req .rdS, 3, 2, 1, 0, 2, 0, [], []⟩]], w_inv _ _ rfl rfl, by decide +kernel⟩,
   ⟨w [(PWR_DOM_STATUS_STATE 2, dsON), (planeState 0, plSERVICE), (planeState 1, plSERVICE), (planeState 2, plSERVICE), (planeState 3, plSERVICE)]
      [], w_inv _ _ rfl rfl, lands_of (by decide +kernel), lands_of (by decide +kernel)⟩,
   ⟨w [(PWR_DOM_STATUS_STATE 2, dsON), (PWR_DOM_STATUS_STATE (dXB 3), dsON), (planeState 3, plTEST), (planeState 0, plSERVICE), (planeState 1, plSERVICE), (planeState 2, plSERVICE)]
      [], w_inv _ _ rfl rfl, lands_of (by decide +kernel), by decide +kernel⟩⟩

/-- The hypotheses of SquareRequestsComplete hold together. -/
theorem witness_SquareRequestsComplete :
    (∃ s : State, s.Inv ∧
      domSt s.m (dSQ 31) = dsON ∧ (s.m.getSqx 31).chain = [] ∧ (s.m.getSqx 31).rein = [] ∧ (s.m.getSqx 31).due = [] ∧ (s.m.getSqx 31).wbq = [] ∧ (s.m.getSqx 31).retry = [] ∧ (s.m.getSqx 31).settleQ = [] ∧
      (s.m.getSqx 31).walking = false ∧ (s.m.getSqx 31).ledger = [] ∧ (newHeads (s.m.getSqin 31)).head? = some (5, req .rdS) ∧ purging s.m 31 (req .rdS) = false ∧
      homesLine s.m (lineOf (req .rdS).addr) = true ∧ movingLine s.m (lineOf (req .rdS).addr) = false ∧ trkOn s.m 31 (lineOf (req .rdS).addr) = none ∧
      fmdPort s.m (lineOf (req .rdS).addr) ≠ none ∧ trkGeneral s.m 31 = some 0 ∧ delegatedTo s.m 31 (lineOf (req .rdS).addr) = none) ∧
    (∃ s : State, s.Inv ∧
      domSt s.m (dSQ 31) = dsON ∧ (newHeads (s.m.getSqin 31)).head? = some (5, { req .rdS with cls := 3 }) ∧ purging s.m 31 { req .rdS with cls := 3 } = false ∧ homesLine s.m 0 = true ∧ movingLine s.m 0 = false ∧ trkOn s.m 31 0 = none ∧ fmdPort s.m 0 ≠ none ∧
      delegatedTo s.m 31 0 = some (15, 127) ∧ 0 < s.m.getCwait (31 * 32 + 127 / 4) ∧ 0 < s.m.getCrec (31 * 32 + 127 / 4)) ∧
    (∃ s : State, s.Inv ∧
      (s.m.getTrk (31 * 8192 + 8191)).st = 1 ∧ (s.m.getTrk (31 * 8192 + 8191)).kind = 0 ∧ rqOf (s.m.getTrk (31 * 8192 + 8191)).req = .N ∧ (s.m.getTrk (31 * 8192 + 8191)).spec = 1 ∧
      (s.m.getTrk (31 * 8192 + 8191)).wait = [] ∧ (s.m.getTrk (31 * 8192 + 8191)).haveData = false ∧ (s.m.getTrk (31 * 8192 + 8191)).closed = false ∧ (s.m.getTrk (31 * 8192 + 8191)).answers = [] ∧
      dirFind s.m 31 (s.m.getTrk (31 * 8192 + 8191)).line = none ∧ blindSet s.m 31 (s.m.getTrk (31 * 8192 + 8191)).line = false ∧ dirMarked s.m 31 (s.m.getTrk (31 * 8192 + 8191)).line = none) ∧
    (∃ s : State, s.Inv ∧
      s.m.getSpecT (memKey 31 7) = 8191 + 2 ∧ readOf s.m 31 8 = some 8191 ∧ writeOf s.m 31 9 = some 8191 ∧ (s.m.getTrk (31 * 8192 + 8191)).st = 2 ∧ (s.m.getTrk (31 * 8192 + 8191)).wait ≠ [] ∧ (s.m.getTrk (31 * 8192 + 8191)).closed = false) :=
  ⟨⟨w [(PWR_DOM_STATUS_STATE (dSQ 31), dsON), (TWN_ROLE_HOMES, 2), (SQ_FMD_SIZE_SIZE 31, 1), (SQ_FMD_CTL_COMMIT 31, 1), (SQ_FMD_CTL_COMMITTED 31, 1)]
      [.sqin 31 [(5, req .rdS)]], w_inv _ _ rfl rfl, by decide +kernel⟩,
   ⟨w [(PWR_DOM_STATUS_STATE (dSQ 31), dsON), (TWN_ROLE_HOMES, 2), (SQ_FMD_SIZE_SIZE 31, 1), (SQ_FMD_CTL_COMMIT 31, 1), (SQ_FMD_CTL_COMMITTED 31, 1), (OCT_PORT_STATUS_STATE 127, psUP)]
      [.sqin 31 [(5, { req .rdS with cls := 3 })], .vcs 63 ⟨true, 127, 62, 0, 0⟩, .dir (dirKey 31 0 0 15) { state := 2, sharers := 2 ^ 62, deleg := true }], w_inv _ _ rfl rfl, by decide +kernel⟩,
   ⟨w []
      [.trk (31 * 8192 + 8191) { st := 1, req := { req .rdS with agent := 0xFF }, spec := 1 }], w_inv _ _ rfl rfl, by decide +kernel⟩,
   ⟨w []
      [.trk (31 * 8192 + 8191) { st := 2, wait := [1], demand := true, writes := 1 }, .specT (memKey 31 7) 8193, .memT (memKey 31 8) 16383, .memT (memKey 31 9) 16384], w_inv _ _ rfl rfl, by decide +kernel⟩⟩

/-- The hypotheses of SquareAnswersComplete hold together. -/
theorem witness_SquareAnswersComplete :
    (∃ s : State, s.Inv ∧
      domSt s.m (dSQ 31) = dsON ∧ relayed s.m 63 0 = false ∧ homesLine s.m 0 = true ∧ trkOn s.m 31 0 = some (8191, { st := 2, wait := [63, 64] }) ∧
      (63 ∈ [63, 64] ∧ ∃ b ∈ [63, 64], b ≠ 63) ∧ (s.m.getTrk (31 * 8192 + 8191)).st = 2 ∧ (s.m.getTrk (31 * 8192 + 8191)).closed = false ∧ (s.m.getTrk (31 * 8192 + 8191)).wait = [63, 64] ∧
      (s.m.getSqx 31).retry[0]? = some { stamp := 5, msg := req .rdS } ∧ (s.m.getSqx 31).probing = true) ∧
    (∃ s : State, s.Inv ∧
      LandsIn s.m .bmc (SQ_PROBE_ADDR_ADDR 31) (64 / 64) ∧
      LandsIn s.m (.loader 1) (SQ_FMD_CTL_COMMIT 31) 0 ∧
      LandsIn s.m .bmc (SQ_CTL_CLR_CNT 31) 1) ∧
    (∃ s : State, s.Inv ∧
      LandsIn s.m .bmc (SQ_FMD_CTL_COMMIT 31) 1) :=
  ⟨⟨w [(PWR_DOM_STATUS_STATE (dSQ 31), dsON), (TWN_ROLE_HOMES, 2)]
      [.trk (31 * 8192 + 8191) { st := 2, wait := [63, 64] }, .sqx 31 { retry := [{ stamp := 5, msg := req .rdS }], probing := true }], w_inv _ _ rfl rfl, by decide +kernel⟩,
   ⟨w [(PWR_DOM_STATUS_STATE 2, dsON), (PWR_DOM_STATUS_STATE (dSQ 31), dsON)]
      [], w_inv _ _ rfl rfl, lands_of (by decide +kernel), lands_of (by decide +kernel), lands_of (by decide +kernel)⟩,
   ⟨w [(PWR_DOM_STATUS_STATE 2, dsON), (SQ_FMD_SIZE_SIZE 31, 1), (OCT_PORT_CFG_VALID 0, 1), (OCT_PORT_CFG_ROLE 0, 1), (OCT_PORT_STATUS_STATE 0, psUP)]
      [], w_inv _ _ rfl rfl, lands_of (by decide +kernel)⟩⟩

/-- The hypotheses of SquareDelegationCompletes hold together. -/
theorem witness_SquareDelegationCompletes :
    (∃ s : State, s.Inv ∧
      s.m.twx.yielding = false ∧ 8191 < 8192 ∧ (s.m.getTrk (31 * 8192 + 8191)).st = 3 ∧ (s.m.getTrk (31 * 8192 + 8191)).kind = 1 ∧ (s.m.getTrk (31 * 8192 + 8191)).mseq ≠ 0 ∧
      covers 65535 ((s.m.getTrk (31 * 8192 + 8191)).mseq - 1) = true ∧ (∀ e ∈ openTrks s.m 31, e.2.mseq ≠ 0 → covers 65535 (e.2.mseq - 1) = true → e.1 = 8191) ∧ ∀ e ∈ s.m.crn, ¬(e.2.sq = 31 ∧ e.2.mseq ≠ 0)) ∧
    (∃ s : State, s.Inv ∧
      (s.m.getSqx 31).commitDue = true ∧ (s.m.getSqx 31).releases ≠ [] ∧ s.m.g TWN_ROLE_MIRRORED = 1 ∧ dirFind s.m 31 0 = some (15, { state := 2, sharers := 1 }) ∧ ({ state := 1 } : DirEnt).state ≠ 0 ∧ isLost s.m 63 = false ∧
      (entryOf s.m 31 (lineOf (req .rdS).addr)).deleg = false ∧ s.m.g (SQ_PURGE_STATUS_ACTIVE 31) = 1) ∧
    (∃ s : State, s.Inv ∧
      (entryOf s.m 31 (lineOf (req .rdS).addr)).deleg = false ∧ isLost s.m 63 = true) :=
  ⟨⟨w []
      [.trk (31 * 8192 + 8191) { st := 3, kind := 1, mseq := 65536 }], w_inv _ _ rfl rfl, by decide +kernel⟩,
   ⟨w [(SQ_PURGE_STATUS_ACTIVE 31, 1), (TWN_ROLE_MIRRORED, 1)]
      [.sqx 31 { commitDue := true, releases := [64] }, .dir (dirKey 31 0 0 15) { state := 2, sharers := 1 }], w_inv _ _ rfl rfl, by decide +kernel⟩,
   ⟨w []
      [.alost 63 true], w_inv _ _ rfl rfl, by decide +kernel⟩⟩

/-- The hypotheses of CornersComplete hold together. -/
theorem witness_CornersComplete :
    (∃ s : State, s.Inv ∧
      (s.m.getCrn (crnKey 127 0)).st = 2 ∧ lineOf (req .rdS).addr = 0) ∧
    (∃ s : State, s.Inv ∧
      (s.m.getCrn (crnKey 127 0)).st = 0 ∧ portUp s.m 127 = true ∧ (req .rdS).agent ≠ (portAgent s.m 127).getD 0xFF ∧ lineOf (req .rdS).addr = 0) ∧
    (∃ s : State, s.Inv ∧
      (s.m.getCrn (crnKey 127 0)).st = 1 ∧ (s.m.getCrn (crnKey 127 0)).expect = true ∧ (s.m.getCrn (crnKey 127 0)).held ≠ 1 ∧ (s.m.getCrn (crnKey 127 0)).ack = false ∧
      0 < (s.m.getCrn (crnKey 127 0)).writes ∧ (s.m.getCrn (crnKey 127 0)).down = false ∧ lineOf (req .wbS).addr = 0 ∧ (req .wbS).op = .wbS) ∧
    (∃ s : State, s.Inv ∧
      (s.m.getCrn (crnKey 127 0)).st = 3 ∧ (s.m.getCrn (crnKey 127 0)).expect = true) :=
  ⟨⟨w [(OCT_PORT_STATUS_STATE 127, psUP)]
      [.crn (crnKey 127 0) { st := 2, waiters := [{ stamp := 5, msg := req .rdS }, { stamp := 9, msg := req .rdS }] }], w_inv _ _ rfl rfl, by decide +kernel⟩,
   ⟨w [(OCT_PORT_STATUS_STATE 127, psUP)]
      [.vcs 63 ⟨true, 127, 62, 0, 0⟩], w_inv _ _ rfl rfl, by decide +kernel⟩,
   ⟨w []
      [.crn (crnKey 127 0) { st := 1, expect := true, writes := 1 }], w_inv _ _ rfl rfl, by decide +kernel⟩,
   ⟨w []
      [.crn (crnKey 127 0) { st := 3, expect := true }], w_inv _ _ rfl rfl, by decide +kernel⟩⟩

/-- The hypotheses of PlazaCompletes hold together. -/
theorem witness_PlazaCompletes :
    (∃ s : State, s.Inv ∧
      domSt s.m dTM = dsON ∧ (vcsRings s.m 63)[0 / 2 ^ 26]? = some 255 ∧ (s.m.getSlot (255 * 4096 + bitsAt 0 14 12)).st < 2 ∧ s.m.g (TM_SRING_CTL_ENABLE 255) = 1 ∧
      s.m.g (TM_SRING_RET_ADDR 255) ≠ 0 ∧ (s.m.getSrx 255).since ≠ 0) ∧
    (∃ s : State, s.Inv ∧
      domSt s.m dTM = dsON ∧ (s.m.getSlot (255 * 4096 + headIdx s.m 255)).st = 2 ∧ docketOf (s.m.getSlot (255 * 4096 + headIdx s.m 255)) = 0x7FFF0064 ∧ dkQUEUE 0x7FFF0064 = 32767 ∧
      dkNOP 0x7FFF0064 = false ∧ dkInvalid 0x7FFF0064 = false ∧ dkMCAST 0x7FFF0064 = false ∧ dkMETER 0x7FFF0064 = false ∧
      s.m.g (TM_QPOL_VALID 32767) = 1 ∧ s.m.g (TM_QPOL_OPEN 32767) = 1 ∧ s.m.g (TM_QPOL_SPILL_EN 32767) = 0 ∧
      s.m.g (TM_QPOL_WRED_G 32767) = 0 ∧ s.m.g (TM_QPOL_WRED_Y 32767) = 0 ∧ s.m.g (TM_QPOL_WRED_R 32767) = 0 ∧
      s.m.g (TM_QOCC_OCC 32767) + dkBobbins 0x7FFF0064 ≤ s.m.g (TM_QCFG_LIMIT 32767) ∧ (s.m.getTq 32767).spilling = false ∧
      dkBobbins 0x7FFF0064 - (s.m.g (TM_QCFG_MIN 32767) - s.m.g (TM_QOCC_OCC 32767)) ≤ s.m.g TM_STATUS_SHARED_FREE) ∧
    (∃ s : State, s.Inv ∧
      domSt s.m dTM = dsON ∧ (s.m.getSlot (255 * 4096 + headIdx s.m 255)).st = 2 ∧ dkNOP (docketOf (s.m.getSlot (255 * 4096 + headIdx s.m 255))) = true) ∧
    (∃ s : State, s.Inv ∧
      domSt s.m dTM = dsON ∧ (s.m.getSlot (255 * 4096 + 4095)).st = 1 ∧ (s.m.getSlot (255 * 4096 + headIdx s.m 255)).st = 0 ∧ sringIdle s.m 255 = false) ∧
    (∃ s : State, s.Inv ∧
      domSt s.m dTM = dsON ∧ (s.m.getSlot (255 * 4096 + headIdx s.m 255)).st = 3) ∧
    (∃ s : State, s.Inv ∧
      LandsIn s.m .bmc (TM_SRING_CTL_ENABLE 255) (flag true) ∧
      LandsIn s.m .bmc (TM_SRING_CTL_ENABLE 255) (flag false) ∧
      LandsAll s.m .bmc ⟨.TM_CMD, 0⟩ [(TM_CMD_QUEUE, 32767), (TM_CMD_OP, 1)] ∧
      LandsIn s.m .bmc TM_CTL_CLR_CNT 1 ∧
      domSt s.m dTM = dsON) :=
  ⟨⟨w [(PWR_DOM_STATUS_STATE dTM, dsON), (TEN_STATUS_VALID 255, 1), (TEN_STATUS_VCS 255, 63), (TM_CARVE_SLOT_RINGS, 256), (TM_SRING_CTL_ENABLE 255, 1), (TM_SRING_RET_ADDR 255, 1)]
      [.srx 255 { since := 1 }], w_inv _ _ rfl rfl, by decide +kernel⟩,
   ⟨w [(PWR_DOM_STATUS_STATE dTM, dsON), (TM_QPOL_VALID 32767, 1), (TM_QPOL_OPEN 32767, 1), (TM_QCFG_LIMIT 32767, 1), (TM_STATUS_SHARED_FREE, 1)]
      [.slot (255 * 4096) { st := 2, lines := [(0, [0x7FFF0064#64])] }], w_inv _ _ rfl rfl, by decide +kernel⟩,
   ⟨w [(PWR_DOM_STATUS_STATE dTM, dsON)]
      [.slot (255 * 4096) { st := 2, lines := [(0, [0#64, 2#64])] }], w_inv _ _ rfl rfl, by decide +kernel⟩,
   ⟨w [(PWR_DOM_STATUS_STATE dTM, dsON)]
      [.slot (255 * 4096 + 4095) { st := 1 }], w_inv _ _ rfl rfl, by decide +kernel⟩,
   ⟨w [(PWR_DOM_STATUS_STATE dTM, dsON)]
      [.slot (255 * 4096) { st := 3 }], w_inv _ _ rfl rfl, by decide +kernel⟩,
   ⟨w [(PWR_DOM_STATUS_STATE dTM, dsON), (PWR_DOM_STATUS_STATE 2, dsON)]
      [], w_inv _ _ rfl rfl, lands_of (by decide +kernel), lands_of (by decide +kernel), lands_of (by decide +kernel), lands_of (by decide +kernel), by decide +kernel⟩⟩

/-- The hypotheses of SchedulingCompletes hold together. -/
theorem witness_SchedulingCompletes :
    (∃ s : State, s.Inv ∧
      domSt s.m dTM = dsON ∧ flVALID s.m 1048575 = true) ∧
    (∃ s : State, s.Inv ∧
      domSt s.m dTM = dsON ∧ s.m.getPush 511 = pkt 100 :: [] ∧ (pkt 100).mcast = false ∧ s.m.g (TM_CHAN_EGR_VALID 511) = 1 ∧ rxValid s.m (s.m.g (TM_CHAN_EGR_RING 511)) = true ∧
      portUp s.m (rxPort s.m (s.m.g (TM_CHAN_EGR_RING 511))) = true ∧ rxRoom s.m (s.m.g (TM_CHAN_EGR_RING 511)) (pkt 100) = true) ∧
    (∃ s : State, s.Inv ∧
      domSt s.m dTM = dsON ∧ (lanePorts s.m 3).findSome? (fun v => (pickChannel s.m v).map (fun d => (v, d))) = some (63, ⟨511, [(511, 1000)], 0⟩) ∧
      pickBundle s.m 511 = some (7, ⟨4095, [(4095, 1000)], 0⟩) ∧ pickQueue s.m 511 4095 = some ⟨32767, [(32767, 1000)], 0⟩ ∧ backlog s.m 32767 = pkt 100 :: []) ∧
    (∃ s : State, s.Inv ∧
      domSt s.m dTM = dsON ∧ shaperCfg s.m 3 63 = (1000, 2000, 64, 128) ∧ s.m.getBuck (3 * 65536 + 63) = (0, 0) ∧ 1000 ≠ 0 ∧ 2000 ≠ 0 ∧
      backlog s.m 32767 = [] ∧ s.m.g (TM_BND_ST_ROUND (s.m.g (TM_QSCH_BUNDLE 32767))) = 1 ∧ idxDiff 1 (s.m.g (TM_QSCH_ST_LAST_ROUND 32767)) = 1 ∧ 0 < s.m.g (TM_QSCH_QUANTUM 32767)) ∧
    (∃ s : State, s.Inv ∧
      domSt s.m dTM = dsON ∧ s.m.g (TM_CH_CFG_GATED 511) = 1 ∧ s.m.g (TM_GATE_CTL_STARTED 511) = 1 ∧ gateNow s.m 511 = some (0, 2000)) ∧
    (∃ s : State, s.Inv ∧
      domSt s.m dTM = dsON ∧ s.m.g (TM_CH_CFG_GATED 511) = 1 ∧ s.m.g (TM_GATE_CTL_STARTED 511) = 0 ∧ s.m.g TB_STATUS_SET = 1 ∧ 2 * gbBASE s.m 511 (s.m.g (TM_GATE_CTL_BANK 511)) ≤ s.m.tmT) ∧
    (∃ s : State, s.Inv ∧
      LandsIn s.m .bmc (TM_GATE_CTL_CHANGE 511) 1 ∧
      domSt s.m dTM = dsON) ∧
    (∃ s : State, s.Inv ∧
      domSt s.m dTM = dsON ∧ s.m.g (TM_GATE_CTL_PENDING 511) = 1 ∧ s.m.g (TM_GATE_SWT_TIME64 511) ≤ s.m.tm64) :=
  ⟨⟨w [(PWR_DOM_STATUS_STATE dTM, dsON)]
      [.reg ⟨.FLW_W1, 1048575⟩ (BitVec.ofNat 64 (2 ^ 42))], w_inv _ _ rfl rfl, by decide +kernel⟩,
   ⟨w [(PWR_DOM_STATUS_STATE dTM, dsON), (TM_CHAN_EGR_VALID 511, 1), (TM_CHAN_EGR_RING 511, 32767), (RNG_CFG_VALID 32767, 1), (RNG_CFG_TYPE 32767, 2), (RNG_CFG_SIZE_LOG2 32767, 6), (RNG_STATUS_STATE 32767, rsRUNNING), (TM_RXB_VALID 32767, 1), (RNG_CFG_SLICE 32767, 255), (TEN_STATUS_VCS 255, 63), (OCT_PORT_STATUS_STATE 127, psUP)]
      [.vcs 63 ⟨true, 127, 0xFF, 0, 0⟩, .push 511 [pkt 100]], w_inv _ _ rfl rfl, by decide +kernel⟩,
   ⟨w [(PWR_DOM_STATUS_STATE dTM, dsON), (TM_CH_CFG_QUANTUM 511, 1000), (TM_BND_CFG_QUANTUM 4095, 1000), (TM_BND_CFG_PRIORITY 4095, 7), (TM_QSCH_QUANTUM 32767, 1000), (TM_QSCH_BUNDLE 32767, 4095)]
      [.act (actP 63) ⟨[511], none, 0⟩, .act (actC 511 7) ⟨[4095], none, 0⟩, .act (actB 4095) ⟨[32767], none, 0⟩, .tq 32767 { pkts := [pkt 100] }], w_inv _ _ rfl rfl, by decide +kernel⟩,
   ⟨w [(PWR_DOM_STATUS_STATE dTM, dsON), (TM_QSCH_QUANTUM 32767, 100), (TM_QSCH_BUNDLE 32767, 4095), (TM_BND_ST_ROUND 4095, 1)]
      [.reg ⟨.TM_PORT_SHA, 63⟩ (BitVec.ofNat 64 (1000 + 2000 * 2 ^ 32)), .reg ⟨.TM_PORT_SHB, 63⟩ (BitVec.ofNat 64 (64 + 128 * 2 ^ 32))], w_inv _ _ rfl rfl, by decide +kernel⟩,
   ⟨w [(PWR_DOM_STATUS_STATE dTM, dsON), (TM_CH_CFG_GATED 511, 1), (TM_GATE_CTL_STARTED 511, 1)]
      [.reg ⟨.TM_GATE_A, 1022⟩ (BitVec.ofNat 64 (1000 * 2 ^ 32)), .reg ⟨.TM_GATE_B, 1022⟩ (BitVec.ofNat 64 (2 ^ 48)), .gcl (1022 * 1024) (255, 1000)], w_inv _ _ rfl rfl, by decide +kernel⟩,
   ⟨w [(PWR_DOM_STATUS_STATE dTM, dsON), (TM_CH_CFG_GATED 511, 1), (TB_STATUS_SET, 1)]
      [], w_inv _ _ rfl rfl, by decide +kernel⟩,
   ⟨w [(PWR_DOM_STATUS_STATE dTM, dsON), (PWR_DOM_STATUS_STATE 2, dsON), (TM_CH_CFG_GATED 511, 1), (TM_GATE_CTL_STARTED 511, 1)]
      [.reg ⟨.TM_GATE_A, 1023⟩ (BitVec.ofNat 64 (1000 * 2 ^ 32)), .reg ⟨.TM_GATE_B, 1023⟩ (BitVec.ofNat 64 (2 ^ 48)), .gcl (1023 * 1024) (255, 1000)], w_inv _ _ rfl rfl, lands_of (by decide +kernel), by decide +kernel⟩,
   ⟨w [(PWR_DOM_STATUS_STATE dTM, dsON), (TM_GATE_CTL_PENDING 511, 1)]
      [], w_inv _ _ rfl rfl, by decide +kernel⟩⟩

/-- The hypotheses of TimeBaseCompletes hold together. -/
theorem witness_TimeBaseCompletes :
    (∃ s : State, s.Inv ∧
      LandsAll s.m .bmc ⟨.TB_TOD_CTL, 0⟩ [(TB_TOD_CTL_NS, 999999999), (TB_TOD_CTL_SET, 1)] ∧
      LandsAll s.m .bmc ⟨.TB_TOD_CTL, 0⟩ [(TB_TOD_CTL_NS, 999999999), (TB_TOD_CTL_ARM, 1)] ∧
      LandsIn s.m .bmc TB_STEP_OFFSET (BitVec.ofNat 32 999999999).toNat ∧
      LandsIn s.m .bmc TB_CTL_CLR_CNT 1 ∧
      Lands s.m .bmc ⟨.TM_GCL_DATA, 0⟩ (0x3E8FF#64).toNat (2 ^ 64 - 1) ∧
      reaches s.m .bmc (⟨.TB_TIME_NS, 0⟩ : Reg).addr false 0 = true ∧ reaches s.m .bmc (⟨.TM_GCL_DATA, 0⟩ : Reg).addr false 0 = true) :=
  ⟨w [(PWR_DOM_STATUS_STATE 2, dsON), (PWR_DOM_STATUS_STATE dTM, dsON), (TM_CH_CFG_GATED 0, 1)]
      [], w_inv _ _ rfl rfl, lands_of (by decide +kernel), lands_of (by decide +kernel), lands_of (by decide +kernel), lands_of (by decide +kernel), lands_of (by decide +kernel), by decide +kernel⟩

/-- The hypotheses of RingsComplete hold together. -/
theorem witness_RingsComplete :
    (∃ s : State, s.Inv ∧
      bitsAt (32767 + 64 * 2 ^ 32) 0 15 = 32767 ∧ bitsAt (32767 + 64 * 2 ^ 32) 32 32 = 64 ∧ bitsAt (32767 + 64 * 2 ^ 32) 15 17 = 0 ∧ s.m.g (TEN_STATUS_VALID 255) = 1 ∧ s.m.g (TEN_STATUS_VCS 255) = 63 ∧
      s.m.g (RNG_CFG_VALID 32767) = 1 ∧ s.m.g (RNG_CFG_SLICE 32767) = 255 ∧ s.m.g (RNG_STATUS_STATE 32767) = rsRUNNING ∧ s.m.g (RNG_CFG_TYPE 32767) = 0 ∧
      idxDiff 64 (s.m.g (RNG_IDX_PROD 32767)) < 2 ^ 31 ∧ idxDiff 64 (s.m.g (RNG_IDX_CONS 32767)) ≤ ringSize s.m 32767) ∧
    (∃ s : State, s.Inv ∧
      s.m.g (TEN_STATUS_VALID 255) = 1 ∧ s.m.g (TEN_STATUS_VCS 255) = 63 ∧ s.m.g (RNG_CFG_VALID 32767) = 1 ∧ s.m.g (RNG_CFG_SLICE 32767) = 255 ∧ s.m.g (RNG_STATUS_STATE 32767) = rsRUNNING ∧
      s.m.g (RNG_CFG_TYPE 32767) ≠ 0 ∧ idxDiff 64 (s.m.g (RNG_IDX_CONS 32767)) < 2 ^ 31 ∧ idxDiff 64 (s.m.g (RNG_IDX_CONS 32767)) ≤ idxDiff (s.m.g (RNG_IDX_PROD 32767)) (s.m.g (RNG_IDX_CONS 32767))) ∧
    (∃ s : State, s.Inv ∧
      (s.m.getRing 32767).issued = 4294967294 ∧ s.m.g (RNG_CFG_VALID 32767) = 1 ∧ s.m.g (RNG_CFG_TYPE 32767) = 0 ∧ s.m.g (RNG_STATUS_STATE 32767) = rsRUNNING ∧
      Nat.min (Nat.min 8 (idxDiff (s.m.g (RNG_IDX_PROD 32767)) 4294967294)) (Nat.min (64 - idxDiff 4294967294 (s.m.g (RNG_IDX_CONS 32767))) (ringSize s.m 32767 - 4294967294 % ringSize s.m 32767)) = 1) ∧
    (∃ s : State, s.Inv ∧
      (s.m.getRing 32767).fetches.find? (fun f => f.1 = 5) = some (5, 2) ∧ (5, 2) ∈ (s.m.getRing 32767).fetches ∧ s.m.g (RNG_STATUS_STATE 32767) = rsRUNNING) ∧
    (∃ s : State, s.Inv ∧
      freeThread s.m = some 3584 ∧ (validRings s.m).filter (ringEligible s.m) = [32767] ∧ 0 < s.m.rrBurst ∧ ringEligible s.m 32767 = true ∧ s.m.rrLast = 32767) ∧
    (∃ s : State, s.Inv ∧
      freeThread s.m = some 3584 ∧ (validRings s.m).filter (ringEligible s.m) = [32767] ∧ s.m.rrBurst = 0 ∧
      rrOrder s.m ([32767].filter fun q => 0 < (if [32767].all (fun x => (s.m.getRing x).credit = 0) then s.m.g (RNG_CFG_WEIGHT q) else (s.m.getRing q).credit)) = 32767 :: []) ∧
    (∃ s : State, s.Inv ∧
      (s.m.getJob 4095).st = 2 ∧ s.m.g (RNG_STATUS_STATE (s.m.getJob 4095).comp) = rsRUNNING ∧ (s.m.getRing (s.m.getJob 4095).comp).hostLost = false ∧
      (s.m.getJob 4095).compGen = (s.m.getRing (s.m.getJob 4095).comp).gen ∧ (s.m.getJob 4095).subGen = (s.m.getRing (s.m.getJob 4095).sub).gen ∧
      s.m.g (RNG_STATUS_ERR_CAUSE (s.m.getJob 4095).sub) ≠ rcCOMPLETION_ERROR ∧ (s.m.getRing (s.m.getJob 4095).comp).held = [] ∧ compRoom s.m (s.m.getJob 4095).comp = true) ∧
    (∃ s : State, s.Inv ∧
      (s.m.getRing 32767).modRuns = true ∧ s.m.g (RNG_CTL_IRQ_EN 32767) = 1 ∧ s.m.g (RNG_CTL_VECTOR 32767) ∈ (s.m.getSf (s.m.g (TEN_STATUS_VCS (s.m.g (RNG_CFG_SLICE 32767))))).unmasked) ∧
    (∃ s : State, s.Inv ∧
      LandsIn s.m .bmc (RNG_CTL_ENABLE 32767) 1 ∧
      LandsIn s.m .bmc (RNG_CTL_CLR_CNT 32767) 1 ∧
      s.m.g (RNG_CTL_ENABLE 32767) = 0 ∧ s.m.g (RNG_STATUS_STATE 32767) = rsDISABLED) ∧
    (∃ s : State, s.Inv ∧
      LandsIn s.m .bmc (RNG_CTL_ENABLE 32767) 0 ∧
      s.m.g (RNG_CTL_ENABLE 32767) = 1 ∧ s.m.g (RNG_STATUS_STATE 32767) = rsERROR) ∧
    (∃ s : State, s.Inv ∧
      s.m.g (RNG_STATUS_STATE 32767) = rsSTOPPING ∧ s.m.g (RNG_PROG_OWED 32767) = 0 ∧ (s.m.getRing 32767).inFlight = 0) ∧
    (∃ s : State, s.Inv ∧
      s.m.g (TEN_STATUS_VALID 255) = 1 ∧ s.m.g (TEN_STATUS_VCS 255) = 63 ∧ s.m.g (RNG_CFG_VALID 32767) = 1 ∧ s.m.g (RNG_CFG_SLICE 32767) = 255 ∧ s.m.g (RNG_STATUS_STATE 32767) = rsERROR) :=
  ⟨⟨w [(TEN_STATUS_VALID 255, 1), (TEN_STATUS_VCS 255, 63), (RNG_CFG_VALID 32767, 1), (RNG_CFG_SLICE 32767, 255), (RNG_CFG_SIZE_LOG2 32767, 6), (RNG_STATUS_STATE 32767, rsRUNNING)]
      [], w_inv _ _ rfl rfl, by decide +kernel⟩,
   ⟨w [(TEN_STATUS_VALID 255, 1), (TEN_STATUS_VCS 255, 63), (RNG_CFG_VALID 32767, 1), (RNG_CFG_TYPE 32767, 1), (RNG_CFG_SLICE 32767, 255), (RNG_CFG_SIZE_LOG2 32767, 6), (RNG_STATUS_STATE 32767, rsRUNNING), (RNG_IDX_PROD 32767, 64)]
      [], w_inv _ _ rfl rfl, by decide +kernel⟩,
   ⟨w [(RNG_CFG_VALID 32767, 1), (RNG_STATUS_STATE 32767, rsRUNNING), (RNG_CFG_SIZE_LOG2 32767, 6), (RNG_IDX_PROD 32767, 4294967295), (RNG_IDX_CONS 32767, 4294967294)]
      [.ring 32767 { Mach.reset.getRing 0 with issued := 4294967294 }], w_inv _ _ rfl rfl, by decide +kernel⟩,
   ⟨w [(RNG_STATUS_STATE 32767, rsRUNNING)]
      [.ring 32767 { Mach.reset.getRing 0 with issued := 7, fetches := [(5, 2)] }], w_inv _ _ rfl rfl, by decide +kernel⟩,
   ⟨w [(clState 7, clSERVICE), (RNG_CFG_VALID 32767, 1), (RNG_CFG_COMPLETION_RING 32767, 32766), (RNG_CFG_HOLD 32766, 1), (RNG_STATUS_STATE 32767, rsRUNNING), (RNG_PROG_FETCHED 32767, 1)]
      [.ring 32767 { Mach.reset.getRing 0 with slots := [(0, [0x101#64])] }, .rrBurst 1, .rrLast 32767], w_inv _ _ rfl rfl, by decide +kernel⟩,
   ⟨w [(clState 7, clSERVICE), (RNG_CFG_VALID 32767, 1), (RNG_CFG_WEIGHT 32767, 1), (RNG_CFG_COMPLETION_RING 32767, 32766), (RNG_CFG_HOLD 32766, 1), (RNG_STATUS_STATE 32767, rsRUNNING), (RNG_PROG_FETCHED 32767, 1)]
      [.ring 32767 { Mach.reset.getRing 0 with slots := [(0, [0x101#64])] }], w_inv _ _ rfl rfl, by decide +kernel⟩,
   ⟨w [(RNG_STATUS_STATE 32767, rsRUNNING), (RNG_CFG_SIZE_LOG2 32767, 6)]
      [.job 4095 { st := 2, comp := 32767, sub := 32766 }], w_inv _ _ rfl rfl, by decide +kernel⟩,
   ⟨w [(RNG_CTL_IRQ_EN 32767, 1), (RNG_CTL_VECTOR 32767, 2047)]
      [.ring 32767 { Mach.reset.getRing 0 with modRuns := true }, .sf 0 ⟨true, false, false, [2047], []⟩], w_inv _ _ rfl rfl, by decide +kernel⟩,
   ⟨w [(PWR_DOM_STATUS_STATE 2, dsON), (RNG_CFG_VALID 32767, 1), (RNG_CFG_TYPE 32767, 2), (RNG_CFG_SLICE 32767, 255), (TEN_STATUS_STATE 255, 1), (TEN_STATUS_VCS 255, 63)]
      [.sf 63 ⟨true, true, false, [], []⟩], w_inv _ _ rfl rfl, lands_of (by decide +kernel), lands_of (by decide +kernel), by decide +kernel⟩,
   ⟨w [(PWR_DOM_STATUS_STATE 2, dsON), (RNG_CFG_VALID 32767, 1), (RNG_CTL_ENABLE 32767, 1), (RNG_STATUS_STATE 32767, rsERROR)]
      [], w_inv _ _ rfl rfl, lands_of (by decide +kernel), by decide +kernel⟩,
   ⟨w [(RNG_STATUS_STATE 32767, rsSTOPPING)]
      [], w_inv _ _ rfl rfl, by decide +kernel⟩,
   ⟨w [(TEN_STATUS_VALID 255, 1), (TEN_STATUS_VCS 255, 63), (RNG_CFG_VALID 32767, 1), (RNG_CFG_SLICE 32767, 255), (RNG_STATUS_STATE 32767, rsERROR)]
      [], w_inv _ _ rfl rfl, by decide +kernel⟩⟩

/-- The hypotheses of LoomCompletes hold together. -/
theorem witness_LoomCompletes :
    (∃ s : State, s.Inv ∧
      (s.m.getAcc 5).thread = 4095 ∧ (s.m.getAcc 5).sort = 2 ∧ 5 < s.m.accNext ∧ (s.m.getAcc 5).st = 2 ∧ (s.m.getAcc 5).poison = false ∧ (s.m.getAcc 5).item < (s.m.getJob 4095).items.length) ∧
    (∃ s : State, s.Inv ∧
      (s.m.getAcc 5).st = 1 ∧ (s.m.getAcc 5).sort = 3 ∧ (s.m.getAcc 5).bank < 4 ∧ 5 < s.m.accNext ∧ (s.m.getAcc 4).st = 2 ∧ kFind s.m 3 (lineOf (s.m.getAcc 4).addr) = none) ∧
    (∃ s : State, s.Inv ∧
      (s.m.getAcc 5).thread < 4096 ∧ (s.m.getAcc 5).sort ≠ 1 ∧ (s.m.getAcc 5).sort ≠ 3 ∧ (s.m.getAcc 5).bank < 4 ∧ (s.m.getAcc 5).st = 2 ∧ 5 < s.m.accNext ∧
      kFind s.m (s.m.getAcc 5).bank (lineOf (s.m.getAcc 5).addr) = some 15 ∧ (s.m.getKline (kKey 3 64 15)).st = 3) ∧
    (∃ s : State, s.Inv ∧
      (s.m.getAcc 5).thread = 4095 ∧ (s.m.getAcc 5).sort ≠ 1 ∧ 5 < s.m.accNext ∧ (s.m.getAcc 5).st ≠ 0 ∧ (s.m.getAcc 5).item < (s.m.getJob 4095).items.length) ∧
    (∃ s : State, s.Inv ∧
      LandsIn s.m .bmc LM_CL_CTL_OUT 128 ∧
      bitsAt 128 7 1 = 1 ∧ bitsAt (s.m.g LM_CL_CTL_OUT) 7 1 = 0 ∧ s.m.g (clState 7) = clSERVICE) ∧
    (∃ s : State, s.Inv ∧
      s.m.g (clState 7) = clDRAINING ∧ clBusy s.m 7 = 0 ∧ clHeld s.m 7 = false) ∧
    (∃ s : State, s.Inv ∧
      LandsIn s.m .bmc LM_CL_CTL_RETURN 128 ∧
      bitsAt 128 7 1 = 1 ∧ s.m.g (clState 7) = clTEST ∧ domOn s.m (dLM 7) = true) ∧
    (∃ s : State, s.Inv ∧
      LandsIn s.m .bmc (LM_TBL_CFG_ENABLE 1023) (flag true) ∧
      LandsIn s.m .bmc (LM_TBL_CFG_ENABLE 1023) (flag false) ∧
      LandsIn s.m .bmc LM_CTL_CLR_CNT 1 ∧
      LandsIn s.m .bmc LM_CTL_PRED_CLR 1) :=
  ⟨⟨w []
      [.accNext 6, .acc 5 { st := 2, sort := 2, thread := 4095, data := [7#64] }, .job 4095 { st := 1, items := [{}] }], w_inv _ _ rfl rfl, by decide +kernel⟩,
   ⟨w []
      [.accNext 6, .acc 5 { st := 1, sort := 3, bank := 3, thread := 4095 }, .acc 4 { st := 2, bank := 3, thread := 4095 }], w_inv _ _ rfl rfl, by decide +kernel⟩,
   ⟨w []
      [.accNext 6, .acc 5 { st := 2, bank := 3, thread := 4095, addr := 64 }, .kline (kKey 3 64 15) { st := 3, line := 64 }], w_inv _ _ rfl rfl, by decide +kernel⟩,
   ⟨w []
      [.accNext 6, .acc 5 { st := 1, thread := 4095 }, .job 4095 { st := 1, items := [{}] }], w_inv _ _ rfl rfl, by decide +kernel⟩,
   ⟨w [(PWR_DOM_STATUS_STATE 2, dsON), (clState 7, clSERVICE), (clState 0, clSERVICE)]
      [], w_inv _ _ rfl rfl, lands_of (by decide +kernel), by decide +kernel⟩,
   ⟨w [(clState 7, clDRAINING)]
      [], w_inv _ _ rfl rfl, by decide +kernel⟩,
   ⟨w [(PWR_DOM_STATUS_STATE 2, dsON), (PWR_DOM_STATUS_STATE (dLM 7), dsON), (clState 7, clTEST)]
      [], w_inv _ _ rfl rfl, lands_of (by decide +kernel), by decide +kernel⟩,
   ⟨w [(PWR_DOM_STATUS_STATE 2, dsON), (LM_TBL_CFG_VALID 1023, 1)]
      [], w_inv _ _ rfl rfl, lands_of (by decide +kernel), lands_of (by decide +kernel), lands_of (by decide +kernel), lands_of (by decide +kernel)⟩⟩

/-- The hypotheses of KioskCompletes hold together. -/
theorem witness_KioskCompletes :
    (∃ s : State, s.Inv ∧
      missOf s.m 3 (lineOf (req .memData).addr) = some { way := 15 } ∧ (req .memData).x ≠ [1] ∧ (req .cmpE).x ≠ [1] ∧ (s.m.getKline (kKey 3 0 15)).st = 0) ∧
    (∃ s : State, s.Inv ∧
      missOf s.m 3 (lineOf (req .memData).addr) = some { way := 15, grant := 2, wait := [0] } ∧ (req .memData).x ≠ [1] ∧ kFind s.m 3 (lineOf (req .memData).addr) = none ∧
      (s.m.getAcc 0).st = 1 ∧ (s.m.getAcc 0).sort = 0 ∧ (s.m.getAcc 0).thread < 4096 ∧ lineOf (s.m.getAcc 0).addr = lineOf (req .memData).addr) ∧
    (∃ s : State, s.Inv ∧
      missOf s.m 3 (lineOf (req .cmpE).addr) = some { way := 15, wait := [0] } ∧ (req .cmpE).x ≠ [1] ∧ kFind s.m 3 (lineOf (req .cmpE).addr) = some 15 ∧
      (s.m.getKline (kKey 3 0 15)).st ≠ 0 ∧ (s.m.getKline (kKey 3 0 15)).line = 0 ∧ (s.m.getKline (kKey 3 0 15)).data = [] ∧ (s.m.getAcc 0).st = 1) ∧
    (∃ s : State, s.Inv ∧
      missOf s.m 3 (lineOf (req .cmp).addr) = some { way := 15, grant := 1 } ∧ (req .cmp).op = .cmp ∧ ({ way := 15, grant := 1 } : KMiss).grant ≠ 0) ∧
    (∃ s : State, s.Inv ∧
      missOf s.m 3 (lineOf (req .bisnpData).addr) = none ∧ kFind s.m 3 (lineOf (req .bisnpData).addr) = some 15 ∧ (s.m.getKline (kKey 3 0 15)).st = 3) ∧
    (∃ s : State, s.Inv ∧
      s.m.g KSK_CTL_STEER_EN = 1 ∧ kFind s.m 3 (lineOf (req .memWr).addr) = some 15) ∧
    (∃ s : State, s.Inv ∧
      s.m.g KSK_CTL_STEER_EN = 1 ∧ kFind s.m 3 (lineOf (req .memWr).addr) = none ∧ missOf s.m 3 (lineOf (req .memWr).addr) = none ∧ kskVictim s.m 3 (lineOf (req .memWr).addr) = some 0) ∧
    (∃ s : State, s.Inv ∧
      LandsIn s.m .bmc KSK_BANK_CTL_OUT 8 ∧
      LandsIn s.m .bmc KSK_CTL_FLUSH 1 ∧
      LandsIn s.m .bmc KSK_CTL_CLR_CNT 1 ∧
      bitsAt 8 3 1 = 1 ∧ bitsAt (s.m.g KSK_BANK_CTL_OUT) 3 1 = 0 ∧ s.m.g (kskState 3) = kbSERVICE ∧ s.m.g KSK_CTL_STEER_EN = 0) ∧
    (∃ s : State, s.Inv ∧
      s.m.g (kskState 3) = kbDRAINING ∧ s.m.getKmiss 3 = []) ∧
    (∃ s : State, s.Inv ∧
      LandsIn s.m .bmc KSK_BANK_CTL_RETURN 8 ∧
      bitsAt 8 3 1 = 1 ∧ s.m.g (kskState 3) = kbLOST ∧ domOn s.m (dKSK 3) = true) :=
  ⟨⟨w []
      [.kmiss 3 [{ way := 15 }]], w_inv _ _ rfl rfl, by decide +kernel⟩,
   ⟨w []
      [.accNext 1, .acc 0 { st := 1, thread := 4095 }, .kmiss 3 [{ way := 15, grant := 2, wait := [0] }]], w_inv _ _ rfl rfl, by decide +kernel⟩,
   ⟨w []
      [.accNext 1, .acc 0 { st := 1, thread := 4095 }, .kmiss 3 [{ way := 15, wait := [0] }], .kline (kKey 3 0 15) { st := 1 }], w_inv _ _ rfl rfl, by decide +kernel⟩,
   ⟨w []
      [.kmiss 3 [{ way := 15, grant := 1 }]], w_inv _ _ rfl rfl, by decide +kernel⟩,
   ⟨w []
      [.kline (kKey 3 0 15) { st := 3 }], w_inv _ _ rfl rfl, by decide +kernel⟩,
   ⟨w [(KSK_CTL_STEER_EN, 1)]
      [.kline (kKey 3 0 15) { st := 3 }], w_inv _ _ rfl rfl, by decide +kernel⟩,
   ⟨w [(KSK_CTL_STEER_EN, 1), (kskState 3, kbSERVICE)]
      [], w_inv _ _ rfl rfl, by decide +kernel⟩,
   ⟨w [(PWR_DOM_STATUS_STATE 2, dsON), (kskState 3, kbSERVICE), (KSK_CTL_STEER_EN, 0)]
      [], w_inv _ _ rfl rfl, lands_of (by decide +kernel), lands_of (by decide +kernel), lands_of (by decide +kernel), by decide +kernel⟩,
   ⟨w [(kskState 3, kbDRAINING)]
      [], w_inv _ _ rfl rfl, by decide +kernel⟩,
   ⟨w [(PWR_DOM_STATUS_STATE 2, dsON), (PWR_DOM_STATUS_STATE (dKSK 3), dsON), (kskState 3, kbLOST)]
      [], w_inv _ _ rfl rfl, lands_of (by decide +kernel), by decide +kernel⟩⟩

/-- The hypotheses of KerbCompletes hold together. -/
theorem witness_KerbCompletes :
    (∃ s : State, s.Inv ∧
      Lands s.m .bmc ⟨.KRB_WIN, 16383 * 4 + 1⟩ (2 ^ 52 - 1) (2 ^ 64 - 1) ∧
      LandsIn s.m .bmc KRB_FENCE_CTL_GO 1 ∧
      LandsIn s.m .bmc KRB_CTL_CLR_CNT 1) ∧
    (∃ s : State, s.Inv ∧
      s.m.g KRB_FENCE_STATUS_STATE = 1 ∧ winCheck (fun t => s.m.g (TEN_STATUS_VALID t) = 1) [] (windows s.m .KRB_WIN) = none) ∧
    (∃ s : State, s.Inv ∧
      s.m.g KRB_FENCE_STATUS_STATE = 1 ∧ s.m.ldr.running = none ∧ winCheck (fun t => s.m.g (TEN_STATUS_VALID t) = 1) [] (windows s.m .KRB_WIN) ≠ none) ∧
    (∃ s : State, s.Inv ∧
      s.m.g KRB_FENCE_STATUS_STATE = 2 ∧ oldOut s.m = 0 ∧ s.m.ldr.running = none) ∧
    (∃ s : State, s.Inv ∧
      s.m.g KRB_FENCE_STATUS_STATE = 2 ∧ s.m.g KRB_FENCE_STATUS_RESULT ≠ 3 ∧ 0 < oldOut s.m) ∧
    (∃ s : State, s.Inv ∧
      LandsIn s.m .bmc (TEN_CTL_ENABLE 255) 1 ∧
      s.m.g (TEN_CTL_ENABLE 255) = 0 ∧ s.m.g (TEN_STATUS_STATE 255) = slSTOPPING ∧ sliceDrainDone s.m 255 = true) ∧
    (∃ s : State, s.Inv ∧
      LandsIn s.m .bmc (TEN_CTL_ENABLE 255) 0 ∧
      LandsIn s.m .bmc (TEN_VIOL_VALID 255) 1 ∧
      s.m.g (TEN_CTL_ENABLE 255) = 1 ∧ s.m.g (TEN_STATUS_STATE 255) = slPENDING) ∧
    (∃ s : State, s.Inv ∧
      reaches s.m (.tenantPage 63 255) (⟨.TEN_OBJ_DATA, 255 * 8 + 3⟩ : Reg).addr true (77#64).toNat = true ∧ reaches s.m (.tenantPage 63 255) (⟨.TEN_OBJ_DATA, 255 * 8 + 3⟩ : Reg).addr false 0 = true ∧
      apertureReg s.m 255 3 = some (true, some ⟨.LM_TBL_PARAM, 1023⟩) ∧ writeTest s.m ⟨.LM_TBL_PARAM, 1023⟩ (77#64).toNat (2 ^ 64 - 1) (.tenantPage 63 255) = rcOK ∧ s.m.faulty = []) ∧
    (∃ s : State, s.Inv ∧
      reaches s.m (.tenantPage 63 255) (⟨.TEN_OBJ_DATA, 255 * 8 + 7⟩ : Reg).addr true (77#64).toNat = true ∧ apertureReg s.m 255 7 = none) ∧
    (∃ s : State, s.Inv ∧
      debugOpen s.m = true ∧ debugVerdict s.m 64 = none ∧ homeHere s.m 64 = true) ∧
    (∃ s : State, s.Inv ∧
      debugOpen s.m = true ∧ debugVerdict s.m 63 = some (kvDEBUG_DENY, ⟨16383, 0, 63, 3 * 2 ^ 13⟩)) :=
  ⟨⟨w [(PWR_DOM_STATUS_STATE 2, dsON)]
      [], w_inv _ _ rfl rfl, lands_of (by decide +kernel), lands_of (by decide +kernel), lands_of (by decide +kernel)⟩,
   ⟨w [(KRB_FENCE_STATUS_STATE, 1), (KRB_FENCE_STATUS_EPOCH, 1)]
      [], w_inv _ _ rfl rfl, by decide +kernel⟩,
   ⟨w [(KRB_FENCE_STATUS_STATE, 1)]
      [.reg ⟨.KRB_WIN, 16383 * 4 + 2⟩ (BitVec.ofNat 64 (2 ^ 14 + 255))], w_inv _ _ rfl rfl, by decide +kernel⟩,
   ⟨w [(KRB_FENCE_STATUS_STATE, 2), (KRB_FENCE_STATUS_RESULT, 3)]
      [], w_inv _ _ rfl rfl, by decide +kernel⟩,
   ⟨w [(KRB_FENCE_STATUS_STATE, 2)]
      [.kacc [(0, 0, 1, 255)]], w_inv _ _ rfl rfl, by decide +kernel⟩,
   ⟨w [(PWR_DOM_STATUS_STATE 2, dsON), (TEN_STATUS_VALID 255, 1), (TEN_STATUS_STATE 255, slSTOPPING)]
      [], w_inv _ _ rfl rfl, lands_of (by decide +kernel), by decide +kernel⟩,
   ⟨w [(PWR_DOM_STATUS_STATE 2, dsON), (TEN_STATUS_VALID 255, 1), (TEN_CTL_ENABLE 255, 1), (TEN_STATUS_STATE 255, slPENDING)]
      [], w_inv _ _ rfl rfl, lands_of (by decide +kernel), lands_of (by decide +kernel), by decide +kernel⟩,
   ⟨w [(PWR_DOM_STATUS_STATE 2, dsON), (TEN_STATUS_VALID 255, 1), (TEN_STATUS_VCS 255, 63), (TEN_OBJ_SEL_KIND 255, 1), (TEN_OBJ_SEL_INDEX 255, 1023), (LM_TBL_CFG_VALID 1023, 1), (LM_TBL_CFG_SLICE 1023, 255)]
      [], w_inv _ _ rfl rfl, by decide +kernel⟩,
   ⟨w [(PWR_DOM_STATUS_STATE 2, dsON), (TEN_STATUS_VALID 255, 1), (TEN_STATUS_VCS 255, 63)]
      [], w_inv _ _ rfl rfl, by decide +kernel⟩,
   ⟨w []
      [], w_inv _ _ rfl rfl, by decide +kernel⟩,
   ⟨w []
      [.reg ⟨.KRB_CWIN, 16383 * 4 + 1⟩ (BitVec.ofNat 64 63), .reg ⟨.KRB_CWIN, 16383 * 4 + 2⟩ (BitVec.ofNat 64 (3 * 2 ^ 13))], w_inv _ _ rfl rfl, by decide +kernel⟩⟩

/-- The hypotheses of SpindleLinkCompletes hold together. -/
theorem witness_SpindleLinkCompletes :
    (∃ s : State, s.Inv ∧
      LandsIn s.m .bmc TWN_SPN_CTL_ENABLE 1 ∧
      LandsIn s.m .bmc TWN_SPN_CTL_CLR_CNT 1 ∧
      s.m.g TWN_SPN_STATUS_STATE = spDOWN ∧ domOn s.m dSPN = true ∧ fenced s.m = false ∧ s.m.g TWN_SPN_STATUS_STATE ≠ spUP ∧ ∀ l < 34, s.m.g (TWN_SPN_LANE_SIGNAL l) = 0) ∧
    (∃ s : State, s.Inv ∧
      LandsIn s.m .bmc TWN_SPN_CTL_ENABLE 0 ∧
      LandsIn s.m .bmc TWN_SPN_CTL_RETRAIN 1 ∧
      s.m.g TWN_SPN_CTL_ENABLE = 1 ∧ s.m.g TWN_SPN_STATUS_STATE = spUP ∧ 17 ≤ (goodLogical s.m).length ∧ s.m.g TWN_SPN_STATUS_PARTNER_GONE = 0 ∧ bitsAt (s.m.g TWN_SPN_FAIL_FAILED) 31 1 = 0 ∧ (activeFor s.m 31).isSome) ∧
    (∃ s : State, s.Inv ∧
      s.m.g TWN_SPN_STATUS_STATE = spTRAINING ∧ s.m.g TWN_SPN_STATUS_ID_CONFLICT = 0 ∧ (goodLogical s.m).length = 32 ∧ bitsAt (s.m.g TWN_SPN_FAIL_FAILED) 33 1 = 0) ∧
    (∃ s : State, s.Inv ∧
      s.m.g TWN_SPN_STATUS_STATE = spTRAINING ∧ s.m.g TWN_SPN_STATUS_ID_CONFLICT = 0 ∧ (goodLogical s.m).length = 16 ∧ s.m.g TWN_CFG_SPARES_ENABLE = 0) ∧
    (∃ s : State, s.Inv ∧
      s.m.g TWN_SPN_STATUS_STATE = spRECOVERY ∧ 16 ≤ (goodLogical s.m).length ∧ s.m.reel ≠ []) :=
  ⟨⟨w [(PWR_DOM_STATUS_STATE 2, dsON), (PWR_DOM_STATUS_STATE dSPN, dsON), (TWN_CFG_PAIRED, 1)]
      [], w_inv _ _ rfl rfl, lands_of (by decide +kernel), lands_of (by decide +kernel), by decide +kernel⟩,
   ⟨w [(PWR_DOM_STATUS_STATE 2, dsON), (PWR_DOM_STATUS_STATE dSPN, dsON), (TWN_CFG_PAIRED, 1), (TWN_SPN_CTL_ENABLE, 1), (TWN_SPN_STATUS_STATE, spUP), (TWN_SPN_STATUS_WIDTH, 32)]
      [], w_inv _ _ rfl rfl, lands_of (by decide +kernel), lands_of (by decide +kernel), by decide +kernel⟩,
   ⟨w [(TWN_SPN_STATUS_STATE, spTRAINING)]
      [], w_inv _ _ rfl rfl, by decide +kernel⟩,
   ⟨w [(TWN_SPN_STATUS_STATE, spTRAINING), (TWN_CFG_SPARES_ENABLE, 0), (TWN_SPN_FAIL_FAILED, 65535)]
      [], w_inv _ _ rfl rfl, by decide +kernel⟩,
   ⟨w [(TWN_SPN_STATUS_STATE, spRECOVERY)]
      [.reel [{ kind := 4, seq := 9, vc := 2, blocks := 140, crcOk := true, msg := req .memData }]], w_inv _ _ rfl rfl, by decide +kernel⟩⟩

/-- The hypotheses of SpindleTrafficCompletes hold together. -/
theorem witness_SpindleTrafficCompletes :
    (∃ s : State, s.Inv ∧
      s.m.g TWN_SPN_STATUS_STATE = spUP ∧ s.m.g TWN_SPN_STATUS_STATE ≠ spDOWN ∧ seqCovers 0 (s.m.g TWN_SPN_TXSEQ_ACKED) = true ∧ laneOf s.m 31 ≠ 33 ∧ 18 ≤ (goodLogical s.m).length ∧
      s.m.g TWN_SPN_STATUS_PARTNER_GONE = 0 ∧ 16 ≤ (goodLogical { s.m with spn := { s.m.spn with pfail := (2 ^ 33 + 1) % 2 ^ 34 } }).length) ∧
    (∃ s : State, s.Inv ∧
      s.m.g TWN_SPN_STATUS_STATE = spUP ∧ 1 ≤ (0 + 65536 - s.m.g TWN_SPN_RXSEQ_RX_NEXT) % 65536 ∧ (0 + 65536 - s.m.g TWN_SPN_RXSEQ_RX_NEXT) % 65536 ≤ 32767 ∧
      (32766 + 65536 - s.m.g TWN_SPN_RXSEQ_RX_NEXT) % 65536 = 32767 ∧ ¬(32767 + 65536 - s.m.g TWN_SPN_RXSEQ_RX_NEXT) % 65536 ≤ 32767 ∧ ¬1 ≤ (65535 + 65536 - s.m.g TWN_SPN_RXSEQ_RX_NEXT) % 65536) ∧
    (∃ s : State, s.Inv ∧
      s.m.g TWN_SPN_STATUS_STATE = spTRAINING ∧ false = s.m.pins.twinId) ∧
    (∃ s : State, s.Inv ∧
      s.m.g TWN_SPN_STATUS_STATE = spUP ∧ s.m.g TWN_SPN_STATUS_NAK_PENDING = 0 ∧ 65535 = s.m.g TWN_SPN_RXSEQ_RX_NEXT ∧ s.m.g (TWN_SPN_RCRED_USED 0) + 140 ≤ s.m.g (TWN_SPN_VCBUF_SIZE 0) ∧
      kindVc 3 0 = true ∧ 3 = spnKind (req .rdS) ∧ destOk { kind := 3, seq := 65535, vc := 0, blocks := 140, crcOk := true, msg := req .rdS, dest := 159 } = true) ∧
    (∃ s : State, s.Inv ∧
      s.m.g TWN_SPN_STATUS_STATE = spUP ∧ s.m.g TWN_SPN_STATUS_NAK_PENDING = 0 ∧ 0 = s.m.g TWN_SPN_RXSEQ_RX_NEXT ∧ s.m.g (TWN_SPN_RCRED_USED 1) + 1 ≤ s.m.g (TWN_SPN_VCBUF_SIZE 1) ∧
      kindVc 5 1 = true ∧ 5 = spnKind (req .bisnpData) ∧ destOk { kind := 5, seq := 0, vc := 1, blocks := 1, crcOk := true, msg := req .bisnpData } = true) ∧
    (∃ s : State, s.Inv ∧
      s.m.g TWN_SPN_STATUS_STATE = spUP ∧ s.m.g TWN_SPN_STATUS_NAK_PENDING = 0 ∧ 140 < 141 ∧ s.m.reel ≠ [] ∧ s.m.g TWN_SPN_STATUS_REPLAY_RUN + 1 ≤ s.m.g TWN_SPN_CTL_REPLAY_MAX) ∧
    (∃ s : State, s.Inv ∧
      LandsIn s.m .partner TWN_CTL_GRACE 1000) :=
  ⟨⟨w [(TWN_SPN_STATUS_STATE, spUP), (TWN_SPN_TXSEQ_ACKED, 65535)]
      [], w_inv _ _ rfl rfl, by decide +kernel⟩,
   ⟨w [(TWN_SPN_STATUS_STATE, spUP), (TWN_SPN_RXSEQ_RX_NEXT, 65535)]
      [], w_inv _ _ rfl rfl, by decide +kernel⟩,
   ⟨w [(TWN_SPN_STATUS_STATE, spTRAINING)]
      [], w_inv _ _ rfl rfl, by decide +kernel⟩,
   ⟨w [(TWN_SPN_STATUS_STATE, spUP), (TWN_SPN_VCBUF_SIZE 0, 140), (TWN_SPN_RXSEQ_RX_NEXT, 65535)]
      [], w_inv _ _ rfl rfl, by decide +kernel⟩,
   ⟨w [(TWN_SPN_STATUS_STATE, spUP), (TWN_SPN_VCBUF_SIZE 1, 1)]
      [], w_inv _ _ rfl rfl, by decide +kernel⟩,
   ⟨w [(TWN_SPN_STATUS_STATE, spUP), (TWN_SPN_CTL_REPLAY_MAX, 1)]
      [.reel [{ kind := 4, seq := 9, vc := 2, blocks := 141, crcOk := true, msg := req .memData }]], w_inv _ _ rfl rfl, by decide +kernel⟩,
   ⟨w [(PWR_DOM_STATUS_STATE 2, dsON)]
      [], w_inv _ _ rfl rfl, lands_of (by decide +kernel)⟩⟩

/-- The hypotheses of PartnerTrafficCompletes hold together. -/
theorem witness_PartnerTrafficCompletes :
    (∃ s : State, s.Inv ∧
      s.m.g TWN_ROLE_STATE = roRECEIVING ∧ bitsAt (([0x00FF0000#64] : List Word).getD 0 0#64).toNat 0 8 = 0 ∧ bitsAt (0x00010000#64).toNat 16 16 = 0 + 1) ∧
    (∃ s : State, s.Inv ∧
      (∃ e ∈ s.m.spn.held, e.1 = ({ req .bisnpData with cls := 2 } : Msg).cls) ∧ (agentPort s.m 63).isSome ∧ isWb (req .rdS) = false ∧ isWb (req .wbS) = true) ∧
    (∃ s : State, s.Inv ∧
      trkOn s.m 31 0 = some (8191, { st := 2, wait := [63, 64] }) ∧ 64 ∈ [63, 64] ∧ ∃ b ∈ [63, 64], b ≠ 64) ∧
    (∃ s : State, s.Inv ∧
      kskBank s.m (lineOf (req .loomReq).addr) = 0 ∧ nth (req .loomReq).x 0 ≤ 1 ∧ missOf s.m 0 (lineOf (req .loomReq).addr) = none ∧ kFind s.m 0 (lineOf (req .loomReq).addr) = some 15 ∧
      (s.m.getKline (kKey 0 0 15)).st < 2 ∧ nth ({ req .loomReq with x := [2] } : Msg).x 0 = 2 ∧ nth ({ req .loomReq with x := [3] } : Msg).x 0 = 3) ∧
    (∃ s : State, s.Inv ∧
      kskBank s.m (lineOf (req .loomReq).addr) = 0 ∧ (missOf s.m 0 (lineOf (req .loomReq).addr)).isSome) ∧
    (∃ s : State, s.Inv ∧
      (s.m.getAcc (req .loomRsp).tag).st = 1 ∧ (s.m.getAcc (req .loomRsp).tag).bank = 4) ∧
    (∃ s : State, s.Inv ∧
      s.m.g TWN_SPN_STATUS_STATE = spRECOVERY ∧ s.m.g TWN_COPY_ACTIVE = 1 ∧ s.m.g TWN_ROLE_COPY_DONE = 0 ∧ s.m.g TWN_ROLE_STATE = roSENDING) ∧
    (∃ s : State, s.Inv ∧
      s.m.g TWN_COPY_ACTIVE = 1 ∧ s.m.g TWN_ROLE_COPY_DONE = 0 ∧ s.m.g TWN_ROLE_STATE = roRESYNC) ∧
    (∃ s : State, s.Inv ∧
      s.m.g TWN_ROLE_MOVING = 1 ∧ s.m.twx.giveDone = false ∧ moveBusy s.m = false ∧ s.m.twx.yielding = true) :=
  ⟨⟨w [(TWN_ROLE_STATE, roRECEIVING)]
      [], w_inv _ _ rfl rfl, by decide +kernel⟩,
   ⟨w []
      [.spn { held := [(2, 3)] }, .vcs 63 ⟨true, 127, 63, 0, 0⟩], w_inv _ _ rfl rfl, by decide +kernel⟩,
   ⟨w []
      [.trk (31 * 8192 + 8191) { st := 2, wait := [63, 64] }], w_inv _ _ rfl rfl, by decide +kernel⟩,
   ⟨w []
      [.kline (kKey 0 0 15) { st := 1 }], w_inv _ _ rfl rfl, by decide +kernel⟩,
   ⟨w []
      [.kmiss 0 [{}]], w_inv _ _ rfl rfl, by decide +kernel⟩,
   ⟨w []
      [.accNext 1, .acc 0 { st := 1, bank := 4 }], w_inv _ _ rfl rfl, by decide +kernel⟩,
   ⟨w [(TWN_SPN_STATUS_STATE, spRECOVERY), (TWN_COPY_ACTIVE, 1), (TWN_ROLE_STATE, roSENDING)]
      [], w_inv _ _ rfl rfl, by decide +kernel⟩,
   ⟨w [(TWN_COPY_ACTIVE, 1), (TWN_ROLE_STATE, roRESYNC)]
      [], w_inv _ _ rfl rfl, by decide +kernel⟩,
   ⟨w [(TWN_ROLE_MOVING, 1)]
      [.twx { yielding := true }], w_inv _ _ rfl rfl, by decide +kernel⟩⟩

/-- The hypotheses of WhorlAndPairComplete hold together. -/
theorem witness_WhorlAndPairComplete :
    (∃ s : State, s.Inv ∧
      refclk s.m = true ∧ s.m.whl.align = true ∧ 4 ≤ 4 ∧ 1 ≠ 0 ∧ s.m.g TWN_WHL_FW_CTL_RX_VALID = 0) ∧
    (∃ s : State, s.Inv ∧
      refclk s.m = true ∧ s.m.whl.align = true ∧ s.m.g TWN_WHL_FW_CTL_RX_VALID = 1 ∧ s.m.g TWN_CFG_WHORL_MISS ≤ Nat.min (s.m.g TWN_WHL_STATUS_MISSED + 1) 63 ∧
      fenced s.m = false ∧ ¬(twinNo s.m = 1 ∧ s.m.whl.sent.any (fun x => s.m.time64 < x + 5000) = true)) ∧
    (∃ s : State, s.Inv ∧
      LandsIn s.m .bmc TWN_WHL_FW_CTL_SEND 1 ∧
      LandsIn s.m .bmc TWN_WHL_CTL_CLR_CNT 1 ∧
      LandsIn s.m .bmc TWN_CTL_FENCE 1 ∧
      LandsIn s.m .bmc TWN_CTL_CLR_CNT 1 ∧
      s.m.g TWN_ROLE_STATE ≠ roFENCED) ∧
    (∃ s : State, s.Inv ∧
      LandsIn s.m .bmc TWN_CTL_UNFENCE 1 ∧
      LandsIn s.m .bmc TWN_CTL_FENCE 1 ∧
      s.m.g TWN_ROLE_STATE = roFENCED ∧ s.m.twx.unfenced = true) ∧
    (∃ s : State, s.Inv ∧
      LandsIn s.m .bmc TWN_CTL_YIELD 1 ∧
      s.m.twx.partnerYield = false) ∧
    (∃ s : State, s.Inv ∧
      LandsIn s.m .bmc TWN_CTL_YIELD 1 ∧
      s.m.twx.partnerYield = true ∧ twinNo s.m = 1) ∧
    (∃ s : State, s.Inv ∧
      LandsIn s.m .bmc TWN_CTL_HANDBACK 1) ∧
    (∃ s : State, s.Inv ∧
      s.m.g TWN_ROLE_STATE = roFORMING ∧ allGone s.m = true) ∧
    (∃ s : State, s.Inv ∧
      s.m.g TWN_ROLE_SETTLING = 1 ∧ (s.m.getSqx 31).walking = true) :=
  ⟨⟨w [(PWR_CLK_STATUS_REFCLK_OK, 1)]
      [.whl { align := true }], w_inv _ _ rfl rfl, by decide +kernel⟩,
   ⟨w [(PWR_CLK_STATUS_REFCLK_OK, 1), (TWN_WHL_FW_CTL_RX_VALID, 1), (TWN_WHL_STATUS_MISSED, 63)]
      [.whl { align := true }], w_inv _ _ rfl rfl, by decide +kernel⟩,
   ⟨w [(PWR_DOM_STATUS_STATE 2, dsON)]
      [], w_inv _ _ rfl rfl, lands_of (by decide +kernel), lands_of (by decide +kernel), lands_of (by decide +kernel), lands_of (by decide +kernel), by decide +kernel⟩,
   ⟨w [(PWR_DOM_STATUS_STATE 2, dsON), (TWN_ROLE_STATE, roFENCED)]
      [.twx { unfenced := true }], w_inv _ _ rfl rfl, lands_of (by decide +kernel), lands_of (by decide +kernel), by decide +kernel⟩,
   ⟨w [(PWR_DOM_STATUS_STATE 2, dsON), (TWN_ROLE_STATE, roSPLIT)]
      [], w_inv _ _ rfl rfl, lands_of (by decide +kernel), by decide +kernel⟩,
   ⟨w [(PWR_DOM_STATUS_STATE 2, dsON), (TWN_ROLE_STATE, roSPLIT)]
      [.twx { partnerYield := true }, .pins { Mach.reset.pins with twinId := true }], w_inv _ _ rfl rfl, lands_of (by decide +kernel), by decide +kernel⟩,
   ⟨w [(PWR_DOM_STATUS_STATE 2, dsON), (TWN_ROLE_STATE, roRECEIVING), (TWN_ROLE_COPY_DONE, 1)]
      [], w_inv _ _ rfl rfl, lands_of (by decide +kernel)⟩,
   ⟨w [(TWN_ROLE_STATE, roFORMING), (TWN_ROLE_W_SPINDLE, 1), (TWN_ROLE_W_WHORL, 1), (TWN_ROLE_W_ALIVE, 1)]
      [], w_inv _ _ rfl rfl, by decide +kernel⟩,
   ⟨w [(TWN_ROLE_SETTLING, 1)]
      [.sqx 31 { walking := true }], w_inv _ _ rfl rfl, by decide +kernel⟩⟩

/-- The hypotheses of IntegrityCompletes hold together. -/
theorem witness_IntegrityCompletes :
    (∃ s : State, s.Inv ∧
      LandsAll s.m .bmc ⟨.INT_SCRUB_CTL, 0⟩ [(INT_SCRUB_CTL_GO, 1), (INT_SCRUB_CTL_MEM, 10), (INT_SCRUB_CTL_INSTANCE, 7)] ∧
      LandsIn s.m .bmc (INT_RETIRE_ADD_BOBBIN) 402653183 ∧
      LandsIn s.m .bmc INT_TEST_CTL_WRITE_RAW 1 ∧
      LandsIn s.m .bmc INT_CTL_CLR_CNT 1 ∧
      402653183 < 2 ^ 29 ∧ s.m.getRetire 402653183 ≠ 2 ∧ s.m.g INT_RETIRE_STATUS_COUNT < 8192) ∧
    (∃ s : State, s.Inv ∧
      LandsIn s.m .bmc INT_SCRUB_CTL_ABORT 1 ∧
      s.m.g INT_SCRUB_STATUS_BUSY = 1 ∧ s.m.g INT_SCRUB_STATUS_NEXT ≤ s.m.scrub.last ∧ s.m.scrub.abort = false ∧ domOn s.m (memDom s.m.scrub.mem s.m.scrub.inst) = true) ∧
    (∃ s : State, s.Inv ∧
      s.m.g INT_SCRUB_STATUS_BUSY = 1 ∧ s.m.scrub.last < s.m.g INT_SCRUB_STATUS_NEXT) ∧
    (∃ s : State, s.Inv ∧
      LandsIn s.m .bmc INT_TEST_CTL_READ_RAW 1 ∧
      (s.m.getRaw (rawKey s.m)).1 ≠ [] ∧ s.m.g INT_TEST_SEL_MEM ∉ [0, 4, 8]) ∧
    (∃ s : State, s.Inv ∧
      LandsIn s.m .bmc INT_TEST_CTL_READ_RAW 1 ∧
      s.m.g INT_TEST_SEL_MEM = 8) ∧
    (∃ s : State, s.Inv ∧
      LandsIn s.m .bmc INT_TEST_CTL_READ_RAW 1 ∧
      s.m.g INT_TEST_SEL_MEM = 4 ∧ (s.m.getKline (rawLine (s.m.g INT_TEST_SEL_INSTANCE) (s.m.g INT_TEST_SEL_INDEX))).st ≠ 0) ∧
    (∃ s : State, s.Inv ∧
      LandsIn s.m .bmc INT_TEST_CTL_READ_RAW 1 ∧
      s.m.g INT_TEST_SEL_MEM = 0 ∧ (s.m.getDir (rawDir 31 524287)).pm = true) ∧
    (∃ s : State, s.Inv ∧
      LandsIn s.m .bmc INT_EVQ_BASE_EN 1 ∧
      s.m.g INT_EVQ_BASE_EN = 0) ∧
    (∃ s : State, s.Inv ∧
      0 < idxDiff (s.m.g INT_EVQ_IDX_PROD) (s.m.g INT_EVQ_IDX_CONS)) :=
  ⟨⟨w [(PWR_DOM_STATUS_STATE 2, dsON)]
      [], w_inv _ _ rfl rfl, lands_of (by decide +kernel), lands_of (by decide +kernel), lands_of (by decide +kernel), lands_of (by decide +kernel), by decide +kernel⟩,
   ⟨w [(PWR_DOM_STATUS_STATE 2, dsON), (PWR_DOM_STATUS_STATE 1, dsON), (INT_SCRUB_STATUS_BUSY, 1)]
      [.scrub { mem := 8 }], w_inv _ _ rfl rfl, lands_of (by decide +kernel), by decide +kernel⟩,
   ⟨w [(INT_SCRUB_STATUS_BUSY, 1), (INT_SCRUB_STATUS_NEXT, 1)]
      [], w_inv _ _ rfl rfl, by decide +kernel⟩,
   ⟨w [(PWR_DOM_STATUS_STATE 2, dsON), (INT_TEST_SEL_MEM, 9)]
      [.raw (9 * 256 * 2 ^ 48) ([7#64], 3, 5)], w_inv _ _ rfl rfl, lands_of (by decide +kernel), by decide +kernel⟩,
   ⟨w [(PWR_DOM_STATUS_STATE 2, dsON), (INT_TEST_SEL_MEM, 8), (INT_TEST_SEL_INDEX, 131071)]
      [], w_inv _ _ rfl rfl, lands_of (by decide +kernel), by decide +kernel⟩,
   ⟨w [(PWR_DOM_STATUS_STATE 2, dsON), (INT_TEST_SEL_MEM, 4), (INT_TEST_SEL_INSTANCE, 3), (INT_TEST_SEL_INDEX, 2097151)]
      [.kline ((3 * 16384 + 16383) * 16 + 15) { st := 3, line := 64, data := List.replicate 8 7#64 }], w_inv _ _ rfl rfl, lands_of (by decide +kernel), by decide +kernel⟩,
   ⟨w [(PWR_DOM_STATUS_STATE 2, dsON), (INT_TEST_SEL_INSTANCE, 31), (INT_TEST_SEL_INDEX, 524287)]
      [.dir (rawDir 31 524287) { pm := true }], w_inv _ _ rfl rfl, lands_of (by decide +kernel), by decide +kernel⟩,
   ⟨w [(PWR_DOM_STATUS_STATE 2, dsON), (INT_EVQ_BASE_SIZE_LOG2, 8)]
      [], w_inv _ _ rfl rfl, lands_of (by decide +kernel), by decide +kernel⟩,
   ⟨w [(INT_EVQ_IDX_CONS, 4294967295)]
      [], w_inv _ _ rfl rfl, by decide +kernel⟩⟩

/-- The hypotheses of FirmwareCompletes hold together. -/
theorem witness_FirmwareCompletes :
    (∃ s : State, s.Inv ∧
      s.m.g FWM_BOOT_STATUS_STAGE = fsLOADING ∧ s.m.mgx.attempt ≠ 0 ∧ (s.m.g FWM_BOOT_CTL_PREFER_B + s.m.mgx.attempt + 1) % 2 = 1) ∧
    (∃ s : State, s.Inv ∧
      mbServes s.m 0 0x00F0 = true ∧ s.m.g (FWM_MB_REQ_DATA 1) + 240 ≤ 8388608) ∧
    (∃ s : State, s.Inv ∧
      mbServes s.m 0 0x00F1 = true) ∧
    (∃ s : State, s.Inv ∧
      LandsIn s.m (.firmware 3) (FWM_WDOG_KICK 3) 1 ∧
      LandsIn s.m (.firmware 0) (FWM_CORE_CTL_RESET) (2 ^ 3) ∧
      s.m.g (FWM_WDOG_PERIOD 3) ≠ 0) ∧
    (∃ s : State, s.Inv ∧
      Lands s.m (.firmware 0) ⟨.GLB_RESET_CTL, 0⟩ 0xA501 (2 ^ 64 - 1) ∧
      mbServes s.m 1 0x0051 = true) ∧
    (∃ s : State, s.Inv ∧
      Lands s.m (.firmware 0) ⟨.FLW_W0, 1048575⟩ (77#64).toNat (0xFF#64).toNat ∧
      mbServes s.m 1 0x0030 = true ∧ (⟨.FLW_W0, 1048575⟩ : Reg).k.desc.blk = .FLW) ∧
    (∃ s : State, s.Inv ∧
      mbServes s.m 0 0x0001 = true ∧ mbServes s.m 1 0x0002 = true) ∧
    (∃ s : State, s.Inv ∧
      mbServes s.m 0 0x0010 = true ∧ mbServes s.m 1 0x0011 = true) ∧
    (∃ s : State, s.Inv ∧
      mbServes s.m 0 0x0020 = true ∧ mbServes s.m 1 0x0040 = true) ∧
    (∃ s : State, s.Inv ∧
      mbServes s.m 0 0x0050 = true ∧ s.m.g (FWM_MB_CTL_BUSY 1) = 1 ∧ s.m.g FWM_BOOT_STATUS_STAGE = fsRUNNING ∧ mbOp s.m 1 ∉ mbOpcodes) :=
  ⟨⟨w [(FWM_BOOT_STATUS_STAGE, fsLOADING)]
      [.mgx { attempt := 2 }], w_inv _ _ rfl rfl, by decide +kernel⟩,
   ⟨w [(FWM_BOOT_STATUS_STAGE, fsNO_IMAGE), (FWM_MB_CTL_BUSY 0, 1), (FWM_MB_REQ_DATA 0, 0xF0), (FWM_MB_REQ_DATA 1, 8388368)]
      [], w_inv _ _ rfl rfl, by decide +kernel⟩,
   ⟨w [(FWM_BOOT_STATUS_STAGE, fsNO_IMAGE), (FWM_MB_CTL_BUSY 0, 1), (FWM_MB_REQ_DATA 0, 0xF1)]
      [], w_inv _ _ rfl rfl, by decide +kernel⟩,
   ⟨w [(PWR_DOM_STATUS_STATE 1, dsON), (PWR_DOM_STATUS_STATE 2, dsON), (FWM_BOOT_STATUS_STAGE, fsRUNNING), (FWM_WDOG_PERIOD 3, 1)]
      [], w_inv _ _ rfl rfl, lands_of (by decide +kernel), lands_of (by decide +kernel), by decide +kernel⟩,
   ⟨w [(PWR_DOM_STATUS_STATE 2, dsON), (FWM_BOOT_STATUS_STAGE, fsRUNNING), (FWM_MB_CTL_BUSY 1, 1), (FWM_MB_REQ_DATA 32, 0x51)]
      [], w_inv _ _ rfl rfl, lands_of (by decide +kernel), by decide +kernel⟩,
   ⟨w [(PWR_DOM_STATUS_STATE 2, dsON), (FWM_BOOT_STATUS_STAGE, fsRUNNING), (FWM_MB_CTL_BUSY 1, 1), (FWM_MB_REQ_DATA 32, 0x30)]
      [], w_inv _ _ rfl rfl, lands_of (by decide +kernel), by decide +kernel⟩,
   ⟨w [(FWM_BOOT_STATUS_STAGE, fsRUNNING), (FWM_MB_CTL_BUSY 0, 1), (FWM_MB_REQ_DATA 0, 1), (FWM_MB_CTL_BUSY 1, 1), (FWM_MB_REQ_DATA 32, 2)]
      [], w_inv _ _ rfl rfl, by decide +kernel⟩,
   ⟨w [(FWM_BOOT_STATUS_STAGE, fsRUNNING), (FWM_MB_CTL_BUSY 0, 1), (FWM_MB_REQ_DATA 0, 0x10), (FWM_MB_CTL_BUSY 1, 1), (FWM_MB_REQ_DATA 32, 0x11)]
      [], w_inv _ _ rfl rfl, by decide +kernel⟩,
   ⟨w [(FWM_BOOT_STATUS_STAGE, fsRUNNING), (FWM_MB_CTL_BUSY 0, 1), (FWM_MB_REQ_DATA 0, 0x20), (FWM_MB_CTL_BUSY 1, 1), (FWM_MB_REQ_DATA 32, 0x40)]
      [], w_inv _ _ rfl rfl, by decide +kernel⟩,
   ⟨w [(FWM_BOOT_STATUS_STAGE, fsRUNNING), (FWM_MB_CTL_BUSY 0, 1), (FWM_MB_REQ_DATA 0, 0x50), (FWM_MB_CTL_BUSY 1, 1), (FWM_MB_REQ_DATA 32, 0xF0)]
      [], w_inv _ _ rfl rfl, by decide +kernel⟩⟩

/-- The hypotheses of FmApiCompletes hold together. -/
theorem witness_FmApiCompletes :
    (∃ s : State, s.Inv ∧
      LandsIn s.m (.fmVdm 63) (OCT_SLOT_CTL_PERST_FORCE 31) 1 ∧
      LandsIn s.m (.fmVdm 63) (OCT_SLOT_CTL_PERST_FORCE 31) 0 ∧
      fmServes s.m (.fmVdm 63) = true ∧ 124 % 4 = 0 ∧ 127 % 4 ≠ 0) ∧
    (∃ s : State, s.Inv ∧
      LandsIn s.m .bmc (OCT_PORT_CTL_RETRAIN 127) 1 ∧
      fmServes s.m .bmc = true ∧ portUp s.m 127 = true ∧ fabricPort s.m 127 = true ∧ s.m.g (OCT_PORT_CFG_VALID 127) = 1 ∧ s.m.g (OCT_PORT_CFG_ROLE 127) = 1) ∧
    (∃ s : State, s.Inv ∧
      ldPort s.m 127 = true ∧ ldDynamic s.m 127 0 = true ∧ ∃ l < 16, ldUnbound s.m 127 l = true ∧
      fmServes s.m .bmc = true ∧ portUp s.m 127 = true ∧ (∀ q ∈ [0, 127], q < 128) ∧ ldUnbound s.m 127 15 = true ∧ s.m.g (OCT_PORT_CFG_VALID 127) = 1 ∧ s.m.g (OCT_PORT_CFG_ROLE 127) = 1 ∧ fabricPort s.m 127 = false) ∧
    (∃ s : State, s.Inv ∧
      fmServes s.m .bmc = true ∧ portUp s.m 127 = true ∧ ldPort s.m 127 = true ∧ ldUnbound s.m 127 15 = true ∧ edgeIds s.m 127 15 = [4095, 0]) ∧
    (∃ s : State, s.Inv ∧
      fmServes s.m .bmc = true ∧ portUp s.m 127 = true ∧ fabricPort s.m 127 = false ∧ ldUnbound s.m 127 15 = false ∧ ¬∀ q ∈ [127, 128], q < 128) :=
  ⟨⟨w [(PWR_DOM_STATUS_STATE 2, dsON), (GLB_ARB_CFG_FM_VCS, 2 ^ 63)]
      [], w_inv _ _ rfl rfl, lands_of (by decide +kernel), lands_of (by decide +kernel), by decide +kernel⟩,
   ⟨w [(PWR_DOM_STATUS_STATE 2, dsON), (OCT_PORT_CFG_VALID 127, 1), (OCT_PORT_CFG_ROLE 127, 1), (OCT_PORT_CFG_VCS 127, 0xFF), (OCT_PORT_STATUS_STATE 127, psUP), (PWR_DOM_STATUS_STATE 38, dsON)]
      [], w_inv _ _ rfl rfl, lands_of (by decide +kernel), by decide +kernel⟩,
   ⟨w [(OCT_PORT_CFG_VALID 127, 1), (OCT_PORT_CFG_ROLE 127, 1), (OCT_PORT_CFG_VCS 127, 5), (OCT_PORT_STATUS_STATE 127, psUP)]
      [.ldb [(127, 0, 5, true)]], w_inv _ _ rfl rfl, by decide +kernel⟩,
   ⟨w [(OCT_PORT_CFG_VALID 127, 1), (OCT_PORT_CFG_ROLE 127, 4), (OCT_PORT_STATUS_STATE 127, psUP), (OCT_EDGE_MAP_DPID 2047, 4095)]
      [], w_inv _ _ rfl rfl, by decide +kernel⟩,
   ⟨w [(OCT_PORT_STATUS_STATE 127, psUP)]
      [], w_inv _ _ rfl rfl, by decide +kernel⟩⟩

/-- The hypotheses of FmAccessCompletes hold together. -/
theorem witness_FmAccessCompletes :
    (∃ s : State, s.Inv ∧
      logHost (.bar0 63) 63 = true ∧ logHost (.fmVdm 63) 63 = true ∧ 3 < 4) ∧
    (∃ s : State, s.Inv ∧
      Lands s.m (.fmVdm 63) ⟨.FLW_W0, 1048575⟩ (77#64).toNat (0xFF#64).toNat ∧
      fmServes s.m (.fmVdm 63) = true ∧ 16 ≤ idxDiff (s.m.g INT_EVQ_IDX_PROD) (s.m.g INT_EVQ_IDX_CONS) ∧ (⟨.FLW_W0, 1048575⟩ : Reg).k.desc.blk = .FLW ∧
      regAt 0 = some ⟨.GLB_ID, 0⟩ ∧ (⟨.GLB_ID, 0⟩ : Reg).addr = 0 ∧ (RegKind.GLB_ID ≠ .TEN_OBJ_DATA) ∧ (RegKind.GLB_ID = .SQ_PURGE_STATUS → bitsAt (liveRead s.m ⟨.GLB_ID, 0⟩) 14 1 = 0) ∧ reaches s.m (.fmVdm 63) 0 false 0 = true) ∧
    (∃ s : State, s.Inv ∧
      Lands s.m .bmc ⟨.MLD_STAGE_ADDR, 0⟩ (524287 % 2 ^ 19 * 8) (2 ^ 64 - 1) ∧
      (∀ w ∈ [7#64], Lands s.m .bmc ⟨.MLD_STAGE_DATA, 0⟩ w.toNat (2 ^ 64 - 1)) ∧
      fmServes s.m .bmc = true ∧ 524287 + [7#64].length ≤ 2 ^ 19 ∧ 6 ∉ ([1, 2, 4, 5] : List Nat)) :=
  ⟨⟨w []
      [], w_inv _ _ rfl rfl, by decide +kernel⟩,
   ⟨w [(PWR_DOM_STATUS_STATE 2, dsON), (GLB_ARB_CFG_FM_VCS, 2 ^ 63), (INT_EVQ_IDX_PROD, 16)]
      [], w_inv _ _ rfl rfl, lands_of (by decide +kernel), by decide +kernel⟩,
   ⟨w [(PWR_DOM_STATUS_STATE 2, dsON)]
      [], w_inv _ _ rfl rfl, lands_of (by decide +kernel), fun w hw => by rw [List.mem_singleton.1 hw]; exact lands_of (by decide +kernel), by decide +kernel⟩⟩

/-- The hypotheses of SpdmCompletes hold together. -/
theorem witness_SpdmCompletes :
    (∃ s : State, s.Inv ∧
      spdmThere s.m 192 = true ∧ spdmThere s.m 64 = true ∧ spdmThere s.m 0 = true ∧
      3 ≤ (s.m.getSpdm 192).stage ∧ (7, false, 0) ∈ (s.m.getSpdm 192).sessions) ∧
    (∃ s : State, s.Inv ∧
      spdmThere s.m 192 = true ∧
      (7, true, 5) ∈ (s.m.getSpdm 192).sessions) :=
  ⟨⟨w [(OCT_PORT_CFG_VALID 127, 1)]
      [.spdm 192 { stage := 3, sessions := [(7, false, 0)] }, .vcs 63 ⟨true, 127, 63, 0, 0⟩], w_inv _ _ rfl rfl, by decide +kernel⟩,
   ⟨w [(OCT_PORT_CFG_VALID 127, 1)]
      [.spdm 192 { stage := 3, sessions := [(7, true, 5)] }, .vcs 63 ⟨true, 127, 63, 0, 0⟩], w_inv _ _ rfl rfl, by decide +kernel⟩⟩

/-- The hypotheses of ObservationCompletes hold together. -/
theorem witness_ObservationCompletes :
    (∃ s : State, s.Inv ∧
      LandsIn s.m .bmc PMU_CTL_CLR_ALL 1 ∧
      s.m.g PMU_CENSUS_CTL_EN = 1 ∧ censusBusy s.m = false ∧ s.m.g PMU_CENSUS_CTL_CLEAR_ON_DUMP = 1 ∧ bitsAt (s.m.g PMU_CENSUS_MASK_BANKS) 63 1 = 1 ∧ s.m.g PMU_CENSUS_CTL_DEST = 0) ∧
    (∃ s : State, s.Inv ∧
      s.m.g PMU_CENSUS_CTL_EN = 1 ∧ censusBusy s.m = true) ∧
    (∃ s : State, s.Inv ∧
      LandsAll s.m .bmc ⟨.TST_CMD, 0⟩ [(TST_CMD_GO, 1), (TST_CMD_KIND, flag true), (TST_CMD_DOMAIN, 86), (TST_CMD_PATTERNS, (65535#16).toNat)]) ∧
    (∃ s : State, s.Inv ∧
      LandsIn s.m .bmc TST_CMD_ABORT 1 ∧
      s.m.g TST_STATUS_STATE = 1) ∧
    (∃ s : State, s.Inv ∧
      LandsIn s.m .bmc DBG_UNLOCK_CHAL_REQ 1 ∧
      LandsIn s.m (.firmware 3) DBG_UNLOCK_GRANT 1 ∧
      LandsIn s.m .bmc DBG_UNLOCK_RELOCK 1 ∧
      s.m.g GLB_LIFECYCLE_DEBUG_UNLOCKED = 1 ∧ reaches s.m .bmc (⟨.DBG_TRACE_DATA, 3⟩ : Reg).addr false 0 = true) :=
  ⟨⟨w [(PWR_DOM_STATUS_STATE 2, dsON), (PMU_CENSUS_CTL_EN, 1), (PMU_CENSUS_CTL_CLEAR_ON_DUMP, 1), (PMU_CENSUS_MASK_BANKS, 2 ^ 63)]
      [], w_inv _ _ rfl rfl, lands_of (by decide +kernel), by decide +kernel⟩,
   ⟨w [(PMU_CENSUS_CTL_EN, 1)]
      [.xin (epRNG * 8 + 4) [[{ req .ioWr with inp := epRNG, x := [censusMark] }]]], w_inv _ _ rfl rfl, by decide +kernel⟩,
   ⟨w [(PWR_DOM_STATUS_STATE 2, dsON), (PWR_DOM_STATUS_STATE 86, dsON)]
      [], w_inv _ _ rfl rfl, lands_of (by decide +kernel)⟩,
   ⟨w [(PWR_DOM_STATUS_STATE 2, dsON), (TST_STATUS_STATE, 1)]
      [], w_inv _ _ rfl rfl, lands_of (by decide +kernel), by decide +kernel⟩,
   ⟨w [(PWR_DOM_STATUS_STATE 2, dsON), (GLB_LIFECYCLE_DEBUG_UNLOCKED, 1)]
      [], w_inv _ _ rfl rfl, lands_of (by decide +kernel), lands_of (by decide +kernel), lands_of (by decide +kernel), by decide +kernel⟩⟩

/-- The hypotheses of PowerWakeCompletes hold together. -/
theorem witness_PowerWakeCompletes :
    (∃ s : State, s.Inv ∧
      LandsIn s.m .bmc (PWR_DOM_CTL_REQ 86) (0 : Fin 4) ∧
      LandsIn s.m .bmc (PWR_DOM_CTL_REQ 70) (1 : Fin 4) ∧
      SequencerAtRest s.m ∧
      domSt s.m 86 = dsON ∧ domSt s.m 70 = dsON ∧ ((1 : Fin 4) : Nat) < 2) ∧
    (∃ s : State, s.Inv ∧
      LandsIn s.m .bmc (PWR_DOM_CTL_REQ 86) 2 ∧
      SequencerAtRest s.m ∧
      domSt s.m 86 = dsOFF) ∧
    (∃ s : State, s.Inv ∧
      SequencerAtRest s.m ∧
      domSt s.m 86 = dsWAKING ∧ s.m.getDwait 86 = false ∧ s.m.g (PWR_DOM_STATUS_STEP 86) ≠ 0 ∧ s.m.g (PWR_DOM_STATUS_RETRIES 86) < 3) ∧
    (∃ s : State, s.Inv ∧
      SequencerAtRest s.m ∧
      domSt s.m 86 = dsWAKING ∧ s.m.getDwait 86 = false ∧ s.m.g (PWR_DOM_STATUS_STEP 86) = 4 ∧ reqMet s.m 86 = true) ∧
    (∃ s : State, s.Inv ∧
      SequencerAtRest s.m ∧
      domSt s.m 86 = dsWAKING ∧ s.m.getDwait 86 = false ∧ s.m.g (PWR_DOM_STATUS_STEP 86) = 4 ∧ reqMet s.m 86 = false) ∧
    (∃ s : State, s.Inv ∧
      SequencerAtRest s.m ∧
      domSt s.m 86 = dsWAKING ∧ s.m.getDwait 86 = true) :=
  ⟨⟨w [(PWR_DOM_STATUS_STATE 1, dsON), (PWR_DOM_STATUS_STATE 2, dsON), (PWR_DOM_STATUS_STATE 3, dsON), (PWR_DOM_STATUS_STATE 86, dsON), (PWR_DOM_STATUS_STATE 70, dsON), (PWR_DOM_CTL_ALLOW_RET 70, 1)]
      [], w_inv _ _ rfl rfl, lands_of (by decide +kernel), lands_of (by decide +kernel), by unfold SequencerAtRest; decide +kernel, by decide +kernel⟩,
   ⟨w [(PWR_DOM_STATUS_STATE 1, dsON), (PWR_DOM_STATUS_STATE 2, dsON), (PWR_DOM_STATUS_STATE 3, dsON), (PWR_DOM_CTL_REQ 86, 0)]
      [], w_inv _ _ rfl rfl, lands_of (by decide +kernel), by unfold SequencerAtRest; decide +kernel, by decide +kernel⟩,
   ⟨w [(PWR_DOM_STATUS_STATE 86, dsWAKING), (PWR_DOM_STATUS_STEP 86, 4), (PWR_DOM_STATUS_RETRIES 86, 2)]
      [], w_inv _ _ rfl rfl, by unfold SequencerAtRest; decide +kernel, by decide +kernel⟩,
   ⟨w [(PWR_DOM_STATUS_STATE 1, dsON), (PWR_DOM_STATUS_STATE 2, dsON), (PWR_DOM_STATUS_STATE 3, dsON), (PWR_DOM_STATUS_STATE 86, dsWAKING), (PWR_DOM_STATUS_STEP 86, 4)]
      [], w_inv _ _ rfl rfl, by unfold SequencerAtRest; decide +kernel, by decide +kernel⟩,
   ⟨w [(PWR_DOM_STATUS_STATE 86, dsWAKING), (PWR_DOM_STATUS_STEP 86, 4)]
      [], w_inv _ _ rfl rfl, by unfold SequencerAtRest; decide +kernel, by decide +kernel⟩,
   ⟨w [(PWR_DOM_STATUS_STATE 86, dsWAKING), (PWR_DOM_STATUS_STEP 86, 4)]
      [.dwait 86 true], w_inv _ _ rfl rfl, by unfold SequencerAtRest; decide +kernel, by decide +kernel⟩⟩

/-- The hypotheses of PowerStopCompletes hold together. -/
theorem witness_PowerStopCompletes :
    (∃ s : State, s.Inv ∧
      SequencerAtRest s.m ∧
      domSt s.m 86 = dsWAKING ∧ 2 ≠ 0 ∧ domSt s.m 2 = dsON) ∧
    (∃ s : State, s.Inv ∧
      SequencerAtRest s.m ∧
      domSt s.m 86 = dsDRAINING ∧ drainNow s.m 86 = 0) ∧
    (∃ s : State, s.Inv ∧
      SequencerAtRest s.m ∧
      domSt s.m 70 = dsDRAINING ∧ drainNow s.m 70 ≠ 0) ∧
    (∃ s : State, s.Inv ∧
      SequencerAtRest s.m ∧
      domSt s.m 86 = dsSTOPPING ∧ s.m.getDtgt 86 = 0 ∧ s.m.g (PWR_DOM_STATUS_PENDING_ENABLE 86) = 0) :=
  ⟨⟨w [(PWR_DOM_STATUS_STATE 86, dsWAKING), (PWR_DOM_STATUS_STATE 2, dsON)]
      [], w_inv _ _ rfl rfl, by unfold SequencerAtRest; decide +kernel, by decide +kernel⟩,
   ⟨w [(PWR_DOM_STATUS_STATE 86, dsDRAINING)]
      [], w_inv _ _ rfl rfl, by unfold SequencerAtRest; decide +kernel, by decide +kernel⟩,
   ⟨w [(PWR_DOM_STATUS_STATE 70, dsDRAINING)]
      [.trk (31 * 8192) { st := 1 }], w_inv _ _ rfl rfl, by unfold SequencerAtRest; decide +kernel, by decide +kernel⟩,
   ⟨w [(PWR_DOM_STATUS_STATE 86, dsSTOPPING), (PWR_DOM_STATUS_PENDING_ENABLE 86, 0)]
      [], w_inv _ _ rfl rfl, by unfold SequencerAtRest; decide +kernel, by decide +kernel⟩⟩

/-- The hypotheses of PowerMonitorsComplete hold together. -/
theorem witness_PowerMonitorsComplete :
    (∃ s : State, s.Inv ∧
      LandsIn s.m .bmc PWR_AVS_MARGIN (236#8).toNat ∧
      LandsIn s.m .bmc PWR_CTL_CLR_CNT 1 ∧
      (∀ (j : Nat) (y : Int), (List.replicate 31 (-40 : Int) ++ [119])[j]? = some y → y ≤ 119) ∧
      (List.replicate 31 (-40 : Int) ++ [119]).length ≤ 32 ∧ (List.replicate 31 (-40 : Int) ++ [119])[31]? = some 119 ∧
      s.m.g PWR_CLK_STATUS_REFCLK_OK = 1 ∧ (119 : Int) < 120 ∧ s.m.g PWR_THERM_STATUS_TRIP = 0 ∧ throttlePoint s.m ≤ tempNow s.m ∧ s.m.g PWR_AO_LDO_MODE = 1 ∧ s.m.avs.mv = some 1023) ∧
    (∃ s : State, s.Inv ∧
      s.m.g PWR_CLK_STATUS_REFCLK_OK = 0 ∧ s.m.pins.porst = false ∧ ∀ e ∈ s.m.aoLatch, e.code ≠ 0x0A87) :=
  ⟨⟨w [(PWR_CLK_STATUS_REFCLK_OK, 1), (PWR_DOM_STATUS_STATE 2, dsON), (PWR_AO_LDO_MODE, 1), (PWR_THERM_STATUS_TEMP, 127)]
      [.avs { mv := some 1023 }], w_inv _ _ rfl rfl, lands_of (by decide +kernel), lands_of (by decide +kernel), fun j y h => by have hj : j < 32 := (by obtain ⟨g, -⟩ := List.getElem?_eq_some_iff.1 h; simpa using g); interval_cases j <;> simp at h <;> omega, by decide +kernel⟩,
   ⟨w [(PWR_CLK_STATUS_REFCLK_OK, 0)]
      [.pins { Mach.reset.pins with porst := false }], w_inv _ _ rfl rfl, by decide +kernel⟩⟩

/-- The hypotheses of SlotChannelsComplete hold together. -/
theorem witness_SlotChannelsComplete :
    (∃ s : State, s.Inv ∧
      slpState s.m 31 = scINSERT ∧ (s.m.getSlp 31).en = true ∧ (s.m.getSlp 31).req = true ∧ slpPresent s.m 31 = true ∧ (s.m.getSlp 31).inWin = true ∧ (s.m.getSlp 31).retryRun = false) ∧
    (∃ s : State, s.Inv ∧
      slpState s.m 31 = scON ∧ (s.m.getSlp 31).gate = true ∧ 250 * (s.m.getSlp 31).ilim < 6251 ∧ (s.m.getSlp 31).full = true ∧ fullyOn ⟨12000, 11399, 0, 8000⟩ = false ∧ (s.m.getSlp 31).offWait = true) ∧
    (∃ s : State, s.Inv ∧
      slpState s.m 31 = scRAMP ∧ fullyOn ⟨12000, 11400, 0, 8000⟩ = true) ∧
    (∃ s : State, s.Inv ∧
      LandsIn s.m .bmc (SLP_CTL_POWER_REQ 31) (flag true) ∧
      LandsIn s.m .bmc (SLP_CTL_POWER_REQ 31) (flag false) ∧
      LandsIn s.m .bmc (SLP_CTL_CLR_CNT 31) 1 ∧
      slpState s.m 31 = scRETRY_WAIT ∧ (s.m.getSlp 31).en = true ∧ (s.m.getSlp 31).req = true ∧ slpPresent s.m 31 = true ∧ (s.m.getSlp 31).inWin = true ∧ (s.m.getSlp 31).retryRun = true ∧
      hostSlot s.m (s.m.g (OCT_PORT_CFG_VCS 124)) 124 = true ∧ s.m.g GLB_STRUCT_STATUS_STATE ≠ stENABLED) ∧
    (∃ s : State, s.Inv ∧
      LandsIn s.m .bmc (SLP_CTL_UNLATCH 31) 1 ∧
      s.m.g GLB_STRUCT_STATUS_STATE ≠ stENABLED ∧ (s.m.getSlp 31).en = true ∧ (s.m.getSlp 31).req = true ∧ slpPresent s.m 31 = true ∧ (s.m.getSlp 31).retryRun = true) :=
  ⟨⟨w [(SLP_STATUS_STATE 31, scINSERT)]
      [.slp 31 { en := true, req := true, inWin := true }, .pins { Mach.reset.pins with present := List.replicate 32 true }], w_inv _ _ rfl rfl, by decide +kernel⟩,
   ⟨w [(SLP_STATUS_STATE 31, scON)]
      [.slp 31 { gate := true, full := true, offWait := true }], w_inv _ _ rfl rfl, by decide +kernel⟩,
   ⟨w [(SLP_STATUS_STATE 31, scRAMP)]
      [], w_inv _ _ rfl rfl, by decide +kernel⟩,
   ⟨w [(SLP_STATUS_STATE 31, scRETRY_WAIT), (OCT_PORT_CFG_VALID 124, 1), (OCT_PORT_CFG_ROLE 124, 1)]
      [.slp 31 { en := true, req := true, inWin := true, retryRun := true }, .pins { Mach.reset.pins with present := List.replicate 32 true }], w_inv _ _ rfl rfl, lands_of (by decide +kernel), lands_of (by decide +kernel), lands_of (by decide +kernel), by decide +kernel⟩,
   ⟨w [(SLP_STATUS_STATE 31, scLATCHED)]
      [.slp 31 { en := true, req := true, retryRun := true }, .pins { Mach.reset.pins with present := List.replicate 32 true }], w_inv _ _ rfl rfl, lands_of (by decide +kernel), by decide +kernel⟩⟩

/-- The hypotheses of the frames hold together, for a command of each kind. -/
theorem witness_PortFrame :
    (∃ (s t : State) (F : Foot), s.Inv ∧ portTouches (.perstAssert 63) = some F ∧ exec (.perstAssert 63) s = .next t) ∧
    (∃ (s t : State) (F : Foot), s.Inv ∧ portTouches (.ppsEdge false) = some F ∧ exec (.ppsEdge false) s = .next t) :=
  ⟨⟨w [] [], _, _, w_inv _ _ rfl rfl, rfl, rfl⟩, ⟨w [] [], _, _, w_inv _ _ rfl rfl, rfl, rfl⟩⟩

/-- The hypotheses of CrossingFrame hold together. -/
theorem witness_CrossingFrame : ∃ (s t : State) (F : Foot), s.Inv ∧
    crossingTouches (.messageDispatch 127 7 (req .rdS)) = some F ∧ exec (.messageDispatch 127 7 (req .rdS)) s = .next t :=
  ⟨w [] [], _, _, w_inv _ _ rfl rfl, rfl, rfl⟩

/-- The hypotheses of SquareFrame hold together. -/
theorem witness_SquareFrame : ∃ (s t : State) (F : Foot), s.Inv ∧
    squareTouches (.writeback 31 (req .wbI) (some 15)) = some F ∧ exec (.writeback 31 (req .wbI) (some 15)) s = .next t :=
  ⟨w [] [], _, _, w_inv _ _ rfl rfl, rfl, rfl⟩

/-- The hypotheses of PlazaFrame hold together. -/
theorem witness_PlazaFrame : ∃ (s t : State) (F : Foot), s.Inv ∧
    plazaTouches (.enqueue 255) = some F ∧ exec (.enqueue 255) s = .next t :=
  ⟨w [] [], _, _, w_inv _ _ rfl rfl, rfl, rfl⟩

/-- The hypotheses of RingFrame hold together. -/
theorem witness_RingFrame : ∃ (s t : State) (F : Foot), s.Inv ∧
    ringTouches (.jobComplete 4095) = some F ∧ exec (.jobComplete 4095) s = .next t :=
  ⟨w [] [], _, _, w_inv _ _ rfl rfl, rfl, rfl⟩

/-- The hypotheses of TwinFrame hold together. -/
theorem witness_TwinFrame : ∃ (s t : State) (F : Foot), s.Inv ∧
    twinTouches (.alignmentLost 33) = some F ∧ exec (.alignmentLost 33) s = .next t :=
  ⟨w [] [], _, _, w_inv _ _ rfl rfl, rfl, rfl⟩

/-- The hypotheses of PowerFrame hold together. -/
theorem witness_PowerFrame : ∃ (s t : State) (F : Foot), s.Inv ∧
    powerTouches (.scrubWord .poison) = some F ∧ exec (.scrubWord .poison) s = .next t :=
  ⟨w [] [], _, _, w_inv _ _ rfl rfl, rfl, rfl⟩

/-- The hypotheses of ManageFrame hold together. -/
theorem witness_ManageFrame : ∃ (s t : State) (F : Foot), s.Inv ∧
    manageTouches (.watchdogExpiry 3) = some F ∧ exec (.watchdogExpiry 3) s = .next t :=
  ⟨w [] [], _, _, w_inv _ _ rfl rfl, rfl, rfl⟩

/-- The hypotheses of CommandWriteFrame hold together. -/
theorem witness_CommandWriteFrame : ∃ (s t : State) (p : Path) (r : Reg) (data mask : Nat), s.Inv ∧
    aim (.krbClrCnt .bmc) = some (p, r, data, mask) ∧ Lands s.m p r data mask ∧ exec (.krbClrCnt .bmc) s = .next t :=
  ⟨w [(PWR_DOM_STATUS_STATE 2, dsON)] [], _, _, _, _, _, w_inv _ _ rfl rfl, rfl, lands_of (by decide +kernel), rfl⟩

/-- The hypotheses of RegisterWriteFrame hold together, for each of the four commands. -/
theorem witness_RegisterWriteFrame :
    (∃ (s t u : State), s.Inv ∧ Lands s.m .bmc ⟨.FLW_W0, 1048575⟩ (77#64).toNat (0xFF#64).toNat ∧
      exec (.registerWrite [⟨.bmc, (⟨.FLW_W0, 1048575⟩ : Reg).addr, 8, 77, 0xFF⟩]) s = .next t ∧
      exec (.ctlWrite .bmc (⟨.FLW_W0, 1048575⟩ : Reg).addr 77 0xFF) s = .next u) ∧
    (∃ (s t : State), s.Inv ∧ Lands s.m .partner ⟨.TWN_CTL, 0⟩ (2 ^ 32 * 1000#64).toNat (2 ^ 32 * 1023#64).toNat ∧
      exec (.spindleCtlWrite (⟨.TWN_CTL, 0⟩ : Reg).addr (2 ^ 32 * 1000#64) (2 ^ 32 * 1023#64)) s = .next t) ∧
    (∃ (s t : State), s.Inv ∧ Lands s.m (.firmware 0) ⟨.FLW_W0, 1048575⟩ (77#64).toNat (0xFF#64).toNat ∧
      exec (.tmProgram 1 rcOK [((⟨.FLW_W0, 1048575⟩ : Reg).addr, 77, 0xFF)]) s = .next t) :=
  ⟨⟨w [(PWR_DOM_STATUS_STATE 2, dsON)] [], _, _, w_inv _ _ rfl rfl, lands_of (by decide +kernel), rfl, rfl⟩,
   ⟨w [(PWR_DOM_STATUS_STATE 2, dsON)] [], _, w_inv _ _ rfl rfl, lands_of (by decide +kernel), rfl⟩,
   ⟨w [(PWR_DOM_STATUS_STATE 2, dsON), (FWM_BOOT_STATUS_STAGE, fsRUNNING), (FWM_MB_CTL_BUSY 1, 1), (FWM_MB_REQ_DATA 32, 0x30)] [],
      _, w_inv _ _ rfl rfl, lands_of (by decide +kernel), rfl⟩⟩

/-- The hypotheses of RefusedWriteFrame hold together: for a path that does not reach, and for a write that a test refuses. -/
theorem witness_RefusedWriteFrame :
    (∃ (s t : State) (r : Reg) (data mask : Nat), s.Inv ∧ aim (.krbClrCnt (.bar0 63)) = some (.bar0 63, r, data, mask) ∧
      (regAt r.addr = some r ∧ r.addr % 8 = 0 ∧ r.k ≠ .TEN_OBJ_DATA ∧
        reaches s.m (.bar0 63) r.addr true (data &&& mask) = false) ∧ exec (.krbClrCnt (.bar0 63)) s = .next t) ∧
    (∃ (s t : State) (r : Reg) (data mask : Nat), s.Inv ∧ aim (.krbClrCnt .bmc) = some (.bmc, r, data, mask) ∧
      (regAt r.addr = some r ∧ r.addr % 8 = 0 ∧ r.k ≠ .TEN_OBJ_DATA ∧ writeTest s.m r data mask .bmc ≠ rcOK) ∧
      exec (.krbClrCnt .bmc) s = .next t) :=
  ⟨⟨w [] [], _, _, _, _, w_inv _ _ rfl rfl, rfl, by decide +kernel, rfl⟩,
   ⟨w [] [], _, _, _, _, w_inv _ _ rfl rfl, rfl, by decide +kernel, rfl⟩⟩

/-- The hypotheses of ReadFrame hold together. -/
theorem witness_ReadFrame : ∃ (s t : State) (F : Foot), s.Inv ∧
    readTouches (.apertureAccess .bmc 255 7 none) = some F ∧ exec (.apertureAccess .bmc 255 7 none) s = .next t :=
  ⟨w [] [], _, _, w_inv _ _ rfl rfl, rfl, rfl⟩

/-- The hypotheses of AccessFrame hold together, clause by clause. -/
theorem witness_AccessFrame :
    (∃ s t : State, s.Inv ∧ s.m.faulty = [] ∧ exec (.stageWrite .bmc 524287 [7]) s = .next t) ∧
    (∃ s t : State, s.Inv ∧ apertureReg s.m 255 3 = some (true, some ⟨.LM_TBL_PARAM, 1023⟩) ∧ s.m.faulty = [] ∧
      exec (.apertureAccess (.tenantPage 63 255) 255 3 (some 77)) s = .next t) ∧
    (∃ s t : State, s.Inv ∧ apertureReg s.m 255 7 = none ∧
      exec (.apertureAccess (.tenantPage 63 255) 255 7 (some 77)) s = .next t) :=
  ⟨⟨w [] [], _, w_inv _ _ rfl rfl, rfl, rfl⟩,
   ⟨w [(TEN_OBJ_SEL_KIND 255, 1), (TEN_OBJ_SEL_INDEX 255, 1023), (LM_TBL_CFG_VALID 1023, 1), (LM_TBL_CFG_SLICE 1023, 255)] [],
      _, w_inv _ _ rfl rfl, by decide +kernel, rfl, rfl⟩,
   ⟨w [] [], _, w_inv _ _ rfl rfl, by decide +kernel, rfl⟩⟩

/-- The hypotheses of LoadFrame hold together. Whether an image verifies rests on opaque functions (the hash and the signature);
the statement concludes on both answers. The empty image does not. -/
theorem witness_LoadFrame :
    (∃ s t : State, s.Inv ∧ s.m.ldr.running = some (1, 0) ∧ exec (.imageLoadDone ⟨[]⟩) s = .next t ∧
      (verify s.m.fuse (s.m.g MLD_SVN_MIN_SVN_MIN) (s.m.g GLB_ID_STEPPING) []).reason ≠ 0) ∧
    (∃ s t : State, s.Inv ∧ s.m.ldr.running = some (3, 0) ∧ exec (.imageLoadDone ⟨[]⟩) s = .next t) :=
  ⟨⟨w [] [.ldr { running := some (1, 0) }], _, w_inv _ _ rfl rfl, rfl, rfl, by decide +kernel⟩,
   ⟨w [] [.ldr { running := some (3, 0) }], _, w_inv _ _ rfl rfl, rfl, rfl⟩⟩

/-- The hypotheses of StepKeepsInvariant hold together. -/
theorem witness_StepKeepsInvariant : ∃ s t : State, s.Inv ∧ s.pending = [.fence .bmc, .ppsEdge false] ∧ step s = .next t :=
  ⟨{ State.reset with pending := [.fence .bmc, .ppsEdge false] }, _, ⟨reset_canon, rfl, rfl⟩, rfl, rfl⟩

/-- The hypothesis of StepRunsTheFront holds. -/
theorem witness_StepRunsTheFront : ∃ (s : State) (c : Instr) (r : List Instr), s.pending = c :: r :=
  ⟨{ State.reset with pending := [.fence .bmc, .ppsEdge false] }, _, _, rfl⟩

/-- The hypotheses of IdleStep hold together: while PORST_N holds the part, in the 79th of 80 core cycles, in the 80th, at the
last nanosecond of the seconds counter, and without REFCLK. -/
theorem witness_IdleStep :
    (∃ s : State, s.Inv ∧ s.pending = [] ∧ s.m.pins.porst = true) ∧
    (∃ s : State, s.Inv ∧ s.pending = [] ∧ s.m.pins.porst = false ∧ s.m.g TB_STATUS_LFO = 0 ∧ s.m.tmSub + 1 < 80) ∧
    (∃ s : State, s.Inv ∧ s.pending = [] ∧ s.m.pins.porst = false ∧ 80 ≤ s.m.tmSub + 1 ∧ s.m.tb.sec = 2 ^ 48 - 1 ∧
      s.m.tb.ns = 999999999) ∧
    (∃ s : State, s.Inv ∧ s.pending = [] ∧ s.m.pins.porst = false ∧ s.m.g TB_STATUS_LFO = 1) :=
  ⟨⟨w [] [.pins { Mach.reset.pins with porst := true }], w_inv _ _ rfl rfl, rfl, rfl⟩,
   ⟨w [(TB_STATUS_LFO, 0)] [.pins { Mach.reset.pins with porst := false }, .tmSub 78], w_inv _ _ rfl rfl, by decide +kernel⟩,
   ⟨w [] [.pins { Mach.reset.pins with porst := false }, .tmSub 79, .tb { Mach.reset.tb with sec := 2 ^ 48 - 1, ns := 999999999 }],
      w_inv _ _ rfl rfl, by decide +kernel⟩,
   ⟨w [(TB_STATUS_LFO, 1)] [.pins { Mach.reset.pins with porst := false }], w_inv _ _ rfl rfl, by decide +kernel⟩⟩

/-- The hypotheses of AddressMap hold, at the last register of the flow table and at its address. -/
theorem witness_AddressMap : (⟨.FLW_W1, 1048575⟩ : Reg).i < (RegKind.FLW_W1).count ∧
    regAt (⟨.FLW_W1, 1048575⟩ : Reg).addr = some ⟨.FLW_W1, 1048575⟩ ∧ regAt 0 = some ⟨.GLB_ID, 0⟩ := by decide +kernel

/-- The hypotheses of PartIdentity hold together. -/
theorem witness_PartIdentity : ∃ s t u : State, s.Inv ∧ s.m.g GLB_ID_PART = 0x9600 ∧ s.m.g GLB_ID_STEPPING = 0xB0 ∧
    s.m.g GLB_ID_GRADE = 0x58 ∧ step s = .next t ∧ samplesStrap (.warmReset true false) = false ∧
    exec (.warmReset true false) s = .next u :=
  ⟨w [] [], _, _, w_inv _ _ rfl rfl, by decide +kernel, by decide +kernel, by decide +kernel, rfl, rfl, rfl⟩

/-- The hypotheses of ReservedBits hold together, with the event queue off and with it on. -/
theorem witness_ReservedBits :
    (∃ s : State, s.Inv ∧ (⟨.KRB_CTL, 0⟩ : Reg).addr % 8 = 0 ∧ regAt (⟨.KRB_CTL, 0⟩ : Reg).addr = some ⟨.KRB_CTL, 0⟩ ∧
      reaches s.m .bmc (⟨.KRB_CTL, 0⟩ : Reg).addr true ((0x8000000000000000#64).toNat &&& (0x8000000000000000#64).toNat) = true ∧
      (0x8000000000000000#64).toNat &&& (0x8000000000000000#64).toNat &&& namedBits .KRB_CTL ≠ (0x8000000000000000#64).toNat &&& (0x8000000000000000#64).toNat ∧
      domOn s.m 2 = true ∧ s.m.g INT_EVQ_BASE_EN = 0 ∧ s.m.hold.length < 256) ∧
    (∃ s : State, s.Inv ∧ reaches s.m .bmc (⟨.KRB_CTL, 0⟩ : Reg).addr true ((0x8000000000000000#64).toNat &&& (0x8000000000000000#64).toNat) = true ∧
      domOn s.m 2 = true ∧ s.m.g INT_EVQ_BASE_EN = 1 ∧
      16 ≤ 2 ^ s.m.g INT_EVQ_BASE_SIZE_LOG2 - idxDiff (s.m.g INT_EVQ_IDX_PROD) (s.m.g INT_EVQ_IDX_CONS)) :=
  ⟨⟨w [(PWR_DOM_STATUS_STATE 2, dsON)] [], w_inv _ _ rfl rfl, by decide +kernel⟩,
   ⟨w [(PWR_DOM_STATUS_STATE 2, dsON), (INT_EVQ_BASE_EN, 1), (INT_EVQ_BASE_SIZE_LOG2, 4)] [], w_inv _ _ rfl rfl, by decide +kernel⟩⟩

/-- The hypotheses of MirroredFollowsRole hold together, in a role that mirrors and in one that does not. -/
theorem witness_MirroredFollowsRole :
    (∃ s t : State, s.Inv ∧ (s.m.g TWN_ROLE_STATE = roSPLIT ∧ s.m.g TWN_ROLE_MIRRORED = 1) ∧ step s = .next t) ∧
    (∃ s t : State, s.Inv ∧ (s.m.g TWN_ROLE_STATE = roFENCED ∧ s.m.g TWN_ROLE_MIRRORED = 0) ∧ step s = .next t) :=
  ⟨⟨w [(TWN_ROLE_STATE, roSPLIT), (TWN_ROLE_MIRRORED, 1)] [], _, w_inv _ _ rfl rfl, by decide +kernel, rfl⟩,
   ⟨w [(TWN_ROLE_STATE, roFENCED)] [], _, w_inv _ _ rfl rfl, by decide +kernel, rfl⟩⟩

/-- The hypotheses of CorrectedErrors hold together: the first error, an error at the threshold, and one that raises nothing. -/
theorem witness_CorrectedErrors :
    (∃ s : State, s.Inv ∧ 15 < RegKind.INT_CNT_CE.count ∧ s.m.g (INT_CNT_CE_COUNT 15) + 1 = 1) ∧
    (∃ s : State, s.Inv ∧ s.m.g (INT_CNT_CE_COUNT 8) + 1 ≠ 1 ∧ (s.m.g (INT_CNT_CE_COUNT 8) + 1) % s.m.g INT_CTL_CE_THRESH = 0 ∧
      s.m.scrub.mem = 8 ∧ s.m.g INT_SCRUB_STATUS_BUSY = 1 ∧ s.m.g INT_SCRUB_STATUS_NEXT ≤ s.m.scrub.last ∧
      s.m.scrub.abort = false ∧ domOn s.m (memDom s.m.scrub.mem s.m.scrub.inst) = true) ∧
    (∃ s : State, s.Inv ∧ ¬(s.m.g (INT_CNT_CE_COUNT 8) + 1 = 1 ∨
      (s.m.g (INT_CNT_CE_COUNT 8) + 1) % s.m.g INT_CTL_CE_THRESH = 0)) :=
  ⟨⟨w [] [], w_inv _ _ rfl rfl, by decide +kernel⟩,
   ⟨w [(PWR_DOM_STATUS_STATE 1, dsON), (INT_CTL_CE_THRESH, 100), (INT_CNT_CE_COUNT 8, 99), (INT_SCRUB_STATUS_BUSY, 1)] [.scrub { mem := 8 }],
      w_inv _ _ rfl rfl, by decide +kernel⟩,
   ⟨w [(INT_CTL_CE_THRESH, 100), (INT_CNT_CE_COUNT 8, 100)] [], w_inv _ _ rfl rfl, by decide +kernel⟩⟩

/-- The hypotheses of FenceHolds hold together, for a command that may be a warm reset and for one that is not. -/
theorem witness_FenceHolds : ∃ s t u : State, s.Inv ∧
    (fenced s.m = true ∧ s.m.g TWN_ROLE_MOVING = 0 ∧ s.m.g TWN_CFG_PAIRED = 1 ∧ clearsFence (.warmReset true false) = false ∧
      mayWarmReset (.warmReset true false) = true ∧ clearsFence .spindleTrained = false ∧
      mayWarmReset .spindleTrained = false) ∧
    exec (.warmReset true false) s = .next t ∧ exec .spindleTrained s = .next u :=
  ⟨w [(TWN_ROLE_STATE, roFENCED), (TWN_CFG_PAIRED, 1)] [], _, _, w_inv _ _ rfl rfl, by decide +kernel, rfl, rfl⟩

/-- The hypotheses of ColdResetClears hold together. -/
theorem witness_ColdResetClears : ∃ s t : State, s.Inv ∧ ColdCause.porst ≠ .brownout ∧
    exec (.coldReset .porst false false) s = .next t :=
  ⟨w [(TWN_ROLE_STATE, roFENCED)] [.sram 7 9#64], _, w_inv _ _ rfl rfl, by decide, rfl⟩

/-- The hypotheses of WarmResetKeeps hold together. -/
theorem witness_WarmResetKeeps : ∃ s t : State, s.Inv ∧ s.m.pins.porst = false ∧ s.m.g PWR_THERM_STATUS_TRIP = 0 ∧
    exec (.warmReset true false) s = .next t :=
  ⟨w [(FWM_BOOT_CTL_PREFER_B, 1)] [.stage 7 9#64, .pins { Mach.reset.pins with porst := false }], _, w_inv _ _ rfl rfl, rfl,
    by decide +kernel, rfl⟩

/-- The hypothesis of KerbCompletes's locked debug clause holds: a part with a production fuse that is not unlocked. -/
theorem witness_KerbCompletes_locked : ∃ s : State, s.Inv ∧ debugOpen s.m = false :=
  ⟨⟨[], { Mach.reset with fuse := { Mach.reset.fuse with production := true } }⟩, ⟨by constructor <;> rfl, rfl, rfl⟩, by decide +kernel⟩

end Sys2Proof.Tests
end

section
/-!
SUPPORT. How a command settles, said once: what the delivery of the records of a step can change, what a command leaves when
its program keeps to a footprint, and that no record and no fence is left over.
-/
namespace Sys2Proof.Machine

-- One declaration at a time: proofs that compute in the kernel wait for it, each with a stack of its own.
set_option Elab.async false

/-! What the delivery of records can change (R370). -/

/-- What `evRingPut` can change. -/
def Feet.evRingPut : Mask := (.of [.RNG_CNT] [.ring] : Mask).plus [Feet.ringPut, Feet.ringIrq]

theorem evRingPut_only (r : Nat) (e : EvRec) : Only Feet.evRingPut.has (evRingPut r e) := by
  have ring {k : Nat} {v : RingX} : Only Feet.evRingPut.has (putRing k v) := Only.doT .ring rfl (by decide +kernel)
  have mod {k : Nat} {f : RingX → RingX} : Only Feet.evRingPut.has (modRing k f) :=
    Only.bind (Only.bind Only.getM fun _ => Only.pure _) fun _ => ring
  refine Only.bind Only.getM fun m => Only.ite ?_ ?_
  · exact Only.bind ((ringPut_only _ _ _ _ _ _).le (by decide +kernel)) fun _ =>
      Only.bind mod fun _ => (ringIrq_only _ _ _ _).le (by decide +kernel)
  · exact Only.bind (Only.incK .RNG_CNT rfl (by decide +kernel)) fun _ => mod

/-- What `evOut` can change. -/
def Feet.evOut : Mask := (.of [.INT_EVQ_CNT] [.hold, .evLost] : Mask).plus [Feet.emit, Feet.evqPut, Feet.evRingPut]

theorem evFirmware_only (e : EvRec) : Only Feet.evOut.has (evFirmware e) := by
  have lost : Only Feet.evOut.has (putEvLost true) := Only.doT .evLost rfl (by decide +kernel)
  refine Only.bind Only.getM fun m => Only.bind (Only.onlyIf ((emit_only _).le (by decide +kernel))) fun _ => ?_
  refine Only.ite lost (Only.ite ((evqPut_only e).le (by decide +kernel)) (Only.ite ?_ ?_))
  · exact Only.bind (Only.bind Only.getM fun _ => Only.pure _) fun _ => Only.doT .hold rfl (by decide +kernel)
  · exact Only.bind (Only.incK .INT_EVQ_CNT rfl (by decide +kernel)) fun _ => lost

theorem evOut_only (x : EvRec × Option Nat) : Only Feet.evOut.has (evOut x) := by
  refine Only.bind (evFirmware_only x.1) fun _ => ?_
  cases x.2 with
  | some r => exact (evRingPut_only r x.1).le (by decide +kernel)
  | none => exact Only.pure _

/-- What `evFlush` can change. -/
def Feet.evFlush : Mask := (.of [] [.evPend] : Mask).plus [Feet.evOut]

/-- After the delivery no record waits. -/
theorem evFlush_told (k : Unit → Prog) (m : Mach) :
    ∃ m', Prog.run (evFlush k) m = Prog.run (k ()) m' ∧ Via Feet.evFlush.has m m' ∧ m'.evPend = [] := by
  obtain ⟨_, m', h, v⟩ := Only.each (fun x (_ : x ∈ m.evPend) => evOut_only x) k ((Upd.evPend []).apply m)
  refine ⟨m', h, .head (by decide +kernel) (v.mono (Mask.has_mono (by decide +kernel))), ?_⟩
  rw [v.keep (·.evPend) fun u m hu => Upd.apply_evPend m u fun ht => by
    rw [Mask.has_tab ht] at hu; exact absurd hu (by decide +kernel)]
  rfl

/-- Where no record waits the delivery changes nothing. -/
theorem evFlush_calm {m : Mach} (h : m.evPend = []) (k : Unit → Prog) : Prog.run (evFlush k) m = Prog.run (k ()) m := by
  have hm : (Upd.evPend []).apply m = m := by rw [← h]; rfl
  rw [show Prog.run (evFlush k) m = Prog.run (each m.evPend evOut k) ((Upd.evPend []).apply m) from rfl, hm, h]
  rfl

/-! What follows a command's program in its step. -/

/-- What `settle` can change where no fence is due and no record waits. -/
def Feet.quiet : Mask := .of [] [.out, .pins]

/-- What `settle` can change. -/
def Feet.settle : Mask := (.of [] [.feDue] : Mask).plus [Feet.quiet, Feet.evFlush, Feet.fence]

/-- The fence of an FE record and what it is told by follow the records of the step (R369). -/
def feFence : P Unit := do
  let m ← getM
  onlyIf (m.feDue = true) (do
    fence 3
    evFlush)

/-- What stands at the end of the step: no fence is due, and the output pins are set. -/
def pinsShow : P Unit := do
  putFeDue false
  let k ← getM
  modPins fun x => { x with
    aliveOut := k.g GLB_STRUCT_STATUS_STATE = stENABLED && k.g TWN_ROLE_STATE != roFENCED && domSt k 2 = dsON
    thermTrip := k.g PWR_THERM_STATUS_TRIP = 1 }

theorem settle_eq (k : Unit → Prog) : settle k = evFlush fun _ => feFence fun _ => pinsShow k := rfl

/-- A fence that is due follows, with its own records; then no record waits. -/
theorem feFence_told {m : Mach} (h : m.evPend = []) (k : Unit → Prog) :
    ∃ m', Prog.run (feFence k) m = Prog.run (k ()) m' ∧ Via Feet.settle.has m m' ∧ m'.evPend = [] := by
  by_cases hd : m.feDue = true
  · obtain ⟨_, m1, h1, v1⟩ := fence_only 3 (fun _ => evFlush k) m
    obtain ⟨m2, h2, v2, e2⟩ := evFlush_told k m1
    refine ⟨m2, ?_, (v1.mono (Mask.has_mono (by decide +kernel))).trans (v2.mono (Mask.has_mono (by decide +kernel))), e2⟩
    simpa [feFence, hd, h1] using h2
  · exact ⟨m, by simp [feFence, hd], .refl m, h⟩

theorem pinsShow_run (m : Mach) (k : Unit → Prog) :
    ∃ v, Prog.run (pinsShow k) m = Prog.run (k ()) ((Upd.pins v).apply ((Upd.feDue false).apply m)) := ⟨_, rfl⟩

/-- At the end of a step no record waits and no fence is due. -/
theorem settle_told (m : Mach) : (Prog.run (toProg settle) m).evPend = [] ∧ (Prog.run (toProg settle) m).feDue = false := by
  obtain ⟨m1, h1, -, e1⟩ := evFlush_told (fun _ => feFence fun _ => pinsShow fun _ => .done) m
  obtain ⟨m2, h2, -, e2⟩ := feFence_told e1 (fun _ => pinsShow fun _ => .done)
  obtain ⟨v, h3⟩ := pinsShow_run m2 fun _ => .done
  have h : Prog.run (toProg settle) m = _ := h1.trans (h2.trans h3)
  rw [h]
  exact ⟨e2, rfl⟩

/-- The sets within which a command stays that settles after a program of the set `A`. -/
def Mask.settled (A M : Mask) : Bool :=
  A.le M && Feet.quiet.le M && (!A.hasTab .evPend || Feet.evFlush.le M) && (!A.hasTab .feDue || Feet.settle.le M)

/-- What settles within a set: where a record waits, it holds what delivery can change, and where a fence is due, what that can. -/
theorem settle_via {M : Mask} {m : Mach} (hq : Feet.quiet.le M = true) (he : m.evPend = [] ∨ Feet.evFlush.le M = true)
    (hf : m.feDue = false ∨ Feet.settle.le M = true) : Via M.has m (Prog.run (toProg settle) m) := by
  -- the records
  have flush : ∃ m1, Prog.run (toProg settle) m = Prog.run (feFence fun _ => pinsShow fun _ => .done) m1 ∧
      Via M.has m m1 ∧ m1.evPend = [] ∧ m1.feDue = m.feDue := by
    rcases he with he | he
    · exact ⟨m, evFlush_calm he _, .refl m, he, rfl⟩
    · obtain ⟨m1, h1, v1, e1⟩ := evFlush_told (fun _ => feFence fun _ => pinsShow fun _ => .done) m
      refine ⟨m1, h1, v1.mono (Mask.has_mono he), e1, v1.keep (·.feDue) fun u m hu => Upd.apply_feDue m u fun ht => ?_⟩
      rw [Mask.has_tab ht] at hu
      exact absurd hu (by decide +kernel)
  obtain ⟨m1, h1, v1, e1, d1⟩ := flush
  rw [h1]
  refine v1.trans ?_
  have pins : M.hasTab .pins = true := Mask.hasTab_mono hq (by decide +kernel)
  rcases hf with hf | hf
  · -- no fence is due
    have hd : m1.feDue = false := d1.trans hf
    obtain ⟨v, h3⟩ := pinsShow_run m1 fun _ => .done
    have hm : (Upd.feDue false).apply m1 = m1 := by rw [← hd]; rfl
    rw [show Prog.run (feFence fun _ => pinsShow fun _ => .done) m1 = Prog.run (pinsShow fun _ => .done) m1 by
      simp [feFence, hd], h3, hm]
    exact .head (by rw [Mask.has_tab rfl]; exact pins) (.refl _)
  · obtain ⟨m2, h2, v2, -⟩ := feFence_told e1 (fun _ => pinsShow fun _ => .done)
    obtain ⟨v, h3⟩ := pinsShow_run m2 fun _ => .done
    rw [h2, h3]
    refine (v2.mono (Mask.has_mono hf)).trans (.head ?_ (.head (by rw [Mask.has_tab rfl]; exact pins) (.refl _)))
    rw [Mask.has_tab rfl]
    exact Mask.hasTab_mono hf (by decide +kernel)

/-! What a command leaves whose program keeps to a footprint. -/

/-- The program makes updates of the kinds `S` alone from the block `m`, and what follows it runs after it. -/
def RunsIn {α : Type} (S : Upd → Bool) (x : P α) (m : Mach) : Prop :=
  ∀ k, ∃ a m', Prog.run (x k) m = Prog.run (k a) m' ∧ Via S m m'

theorem Only.runsIn {α : Type} {S : Upd → Bool} {x : P α} (h : Only S x) (m : Mach) : RunsIn S x m := fun k => h k m

/-- What an update changes beside the registers is in the set. -/
theorem At.has_tab {A : Mask} {l : List Reg} {u : Upd} {T : Tab} (ht : u.tab = some T) :
    At.has A l u = A.hasTab T := by
  unfold At.has
  rw [Mask.has_tab ht]
  cases u <;> simp_all

/-- A thing beside the registers that the set does not name stands. -/
theorem Via.tab_same {A : Mask} {l : List Reg} {m m' : Mach} (h : Via (At.has A l) m m') {T : Tab}
    (hT : A.hasTab T = false) : T.same m m' := by
  induction h with
  | refl => exact T.same_refl _
  | @head u m m' hu _ ih =>
    refine Tab.same_trans (Upd.same_of_tab (fun ht => ?_) m) ih
    rw [At.has_tab ht, hT] at hu
    exact absurd hu (by decide)

/-- A footprint is kept along updates of a set and of single registers that lie within it. -/
theorem Via.keeps_at {F : Foot} {A : Mask} {l : List Reg} {m m' : Mach} (h : Via (At.has A l) m m')
    (hA : A.le F.mask = true) (hl : ∀ r ∈ l, F.mask.hasReg r.k = true ∨ r ∈ F.objs) : F.keeps m m' := by
  refine ⟨fun r hr ho => h.rd_eq r fun v => ?_, fun T hT => h.tab_same ?_, h.keep (·.fuse) fun u m _ => by simp⟩
  · simp only [At.has, Mask.has_reg, Bool.or_eq_false_iff, decide_eq_false_iff_not]
    have hk : F.mask.hasReg r.k = false := Foot.mask_reg hr
    constructor
    · by_contra hc
      simp [Mask.hasReg_mono hA (k := r.k) (by simpa using hc)] at hk
    · intro hm
      rcases hl r hm with h | h
      · simp [h] at hk
      · exact ho h
  · by_contra hc
    have := Mask.hasTab_mono hA (t := T) (by simpa using hc)
    simp [Foot.mask_tab hT] at this

/-- A command whose program keeps to a set from the block as it stands, and settles, keeps to what that set becomes. -/
theorem cmd_keeps {p : P Unit} {F : Foot} {A : Mask} {l : List Reg} {s t : State} (hi : s.Inv)
    (hp : RunsIn (At.has A l) p ((Upd.out []).apply s.m)) (hA : A.settled F.mask = true)
    (hl : ∀ r ∈ l, F.mask.hasReg r.k = true ∨ r ∈ F.objs) (h : cmd p s = .next t) : F.keeps s.m t.m := by
  simp only [Mask.settled, Bool.and_eq_true, Bool.or_eq_true, Bool.not_eq_true'] at hA
  obtain ⟨⟨⟨hA, hq⟩, he⟩, hf⟩ := hA
  obtain ⟨_, m1, h1, v1⟩ := hp fun _ => toProg settle
  have ht : t.m = Prog.run (toProg settle) m1 := by
    rw [cmd_run] at h
    cases h
    exact h1
  have v2 : Via F.mask.has m1 t.m := by
    rw [ht]
    refine settle_via hq (he.imp (fun h => ?_) id) (hf.imp (fun h => ?_) id)
    · exact (v1.tab_same (T := .evPend) h).trans hi.told
    · exact (v1.tab_same (T := .feDue) h).trans hi.calm
  have v0 : Via F.mask.has s.m ((Upd.out []).apply s.m) :=
    .head (by rw [Mask.has_tab rfl]; exact Mask.hasTab_mono hq (by decide +kernel)) (.refl _)
  have mono : ∀ u, F.mask.has u = true → At.has F.mask l u = true := fun u hu => by simp [At.has, hu]
  refine Via.keeps_at (((v0.mono mono).trans (v1.mono fun u hu => ?_)).trans (v2.mono mono))
    (by simp [Mask.le]) hl
  simp only [At.has, Bool.or_eq_true] at hu ⊢
  exact hu.imp (Mask.has_mono hA u) id

/-- What a command leaves as it was. -/
def Frames (c : Instr) (F : Foot) : Prop := ∀ s t : State, s.Inv → exec c s = .next t → F.keeps s.m t.m

/-- Registers that a list names are covered by it. -/
theorem Cov.of_subset {M : Mask} : ∀ {l l' : List Reg}, l ⊆ l' → Cov M l' l
  | [], _, _ => trivial
  | _ :: _, _, h => ⟨.inr (h List.mem_cons_self), Cov.of_subset fun _ hx => h (List.mem_cons_of_mem _ hx)⟩

variable {c : Instr} {p : P Unit} {A : Mask} {B : Foot} {l os : List Reg} {ks : List RegKind} {ts : List Tab}

/-- A command whose program keeps to a set. -/
theorem frames_only (hp : Only A.has p) (hA : A.settled B.mask = true := by decide +kernel)
    (hx : ∀ s, exec c s = cmd p s := by intro _; rfl) : Frames c B :=
  fun s _ hi h => cmd_keeps (l := []) hi ((atM hp).runsIn _) hA (by simp) (hx s ▸ h)

/-- A command whose program keeps to a set and some single registers. -/
theorem frames_at (hp : Only (At.has A l) p) (hl : Cov (B.and ks ts).mask os l)
    (hA : A.settled (B.and ks ts).mask = true := by decide +kernel) (hx : ∀ s, exec c s = cmd p s := by intro _; rfl) :
    Frames c (B.and ks ts os) :=
  fun s _ hi h => cmd_keeps hi (hp.runsIn _) hA
    (fun r hr => (hl.all r hr).imp id fun h => List.mem_append_right _ h) (hx s ▸ h)

/-- A command whose program keeps to a set and to the single registers that its footprint names. -/
theorem frames_objs (hp : Only (At.has A l) p) (hx : ∀ s, exec c s = cmd p s := by intro _; rfl)
    (hl : l ⊆ os := by simp) (hA : A.settled (B.and ks ts).mask = true := by decide +kernel) :
    Frames c (B.and ks ts os) := frames_at hp (Cov.of_subset hl) hA hx

end Sys2Proof.Machine
end

section
/-!
SUPPORT. The frame of the commands of the pins, of structure and of the ports.
-/
namespace Sys2Proof.Machine

/-- The registers that a message received at a port can count in are named singly or lie within the set. -/
theorem cov_portCounters {M : Mask} {p : Nat} (h : M.hasReg .XB_MIR_CNT = true) :
    Cov M [⟨.INT_CNT_PIN, 2⟩, ⟨.OCT_PORT_CNT1, p⟩]
      [⟨.INT_CNT_PIN, 2⟩, ⟨.OCT_PORT_CNT1, p⟩, ⟨.XB_MIR_CNT, 0⟩, ⟨.XB_MIR_CNT, 1⟩] :=
  ⟨.inr (by simp), .inr (by simp), .inl h, .inl h, trivial⟩

/-- Each command of the pins, of structure and of the ports keeps to its footprint, since its program does. -/
theorem portTouches_frames {c : Instr} {F : Foot} (h : portTouches c = some F) : Frames c F := by
  cases c with
  | perstAssert v => cases h; exact frames_only (perstAssert_only _)
  | perstDeassert v => cases h; exact frames_only (perstDeassert_only _)
  | presenceDebounced n present => cases h; exact frames_objs (presenceDebounced_at _ _)
  | twinIdChange level => cases h; exact frames_only (twinIdChange_only _)
  | partnerAliveChange level => cases h; exact frames_only (partnerAlive_only _)
  | ppsEdge short => cases h; exact frames_only (ppsEdge_only _)
  | ppsLost => cases h; exact frames_only ppsLost_only
  | structCheckDone => cases h; exact frames_only structCheckDone_only
  | phase11ListenEnd => cases h; exact frames_only phase11ListenEnd_only
  | applyingDone => cases h; exact frames_only applyingDone_only
  | disablingDone => cases h; exact frames_only disablingDone_only
  | trainingL0 p link => cases h; exact frames_objs (trainingL0_at _ _)
  | trainTimeout p => cases h; exact frames_objs (trainTimeout_at _)
  | xrateEqTimeout p => cases h; exact frames_objs (xrateTimeout_at _)
  | portRecoveryDone p link => cases h; exact frames_objs (recoveryDone_at _ _)
  | linkDown p => cases h; exact frames_objs (linkDown_at _)
  | ideSecure p mode kset => cases h; exact frames_objs (ideSecure_at _ _ _)
  | ideTimeout p => cases h; exact frames_only (ideTimeout_only _)
  | ideFail p => cases h; exact frames_objs (ideFail_at _)
  | flushComplete p => cases h; exact frames_objs (flushComplete_at _)
  | flushTimeout p => cases h; exact frames_objs (flushTimeout_at _)
  | slotPerstRelease n => cases h; exact frames_objs (slotPerstRelease_at _)
  | powerControllerWrite v p on => cases h; exact frames_objs (powerControllerWrite_at _ _ _)
  | hostMemRequest p q => cases h; exact frames_at (hostMem_at _ _) (cov_portCounters (by decide +kernel))
  | hostIoRequest p r => cases h; exact frames_at (hostIo_at _ _) (cov_portCounters (by decide +kernel))
  | edgeMessage p dpid spid q => cases h; exact frames_at (edgeMessage_at _ _ _ _) (cov_portCounters (by decide +kernel))
  | cxlCacheMessage p q => cases h; exact frames_at (cacheMessage_at _ _) (cov_portCounters (by decide +kernel))
  | biconflict p addr tag => cases h; exact frames_at (biConflictIn_at _ _ _) (cov_portCounters (by decide +kernel))
  | _ => cases h

/-- Settles O34: each command's program keeps to the command's footprint, and so does what settles after it. -/
theorem portFrame : Obligations.PortFrame := fun s t _ _ hi hF h => portTouches_frames hF s t hi h

end Sys2Proof.Machine
end

section
/-!
SUPPORT. Every command runs its program to the end and settles: what the footprints of the operations do not yet say of register
writes, loads, resets and the thermal monitor.
-/
namespace Sys2Proof.Machine

-- One declaration at a time: proofs that compute in the kernel wait for it, each with a stack of its own.
set_option Elab.async false

/-- The program makes updates, whichever they are, and what follows it runs after it. -/
abbrev Runs {α : Type} (x : P α) : Prop := Only (fun _ => true) x

theorem Only.runs {α : Type} {S : Upd → Bool} {x : P α} (h : Only S x) : Runs x := h.mono fun _ _ => rfl

theorem runs_doU {u : Upd} : Runs (doU u) := Only.doU rfl

theorem runs_wr {f : RF} {x : Nat} : Runs (wr f x) := Only.wr fun _ => rfl

theorem runs_inc {f : RF} : Runs (inc f) := Only.addSat fun _ => rfl

theorem runs_addSat {f : RF} {n : Nat} : Runs (addSat f n) := Only.addSat fun _ => rfl

theorem runs_wrReg {k : RegKind} {i x : Nat} : Runs (wrReg k i x) := Only.wrReg fun _ => rfl

theorem runs_rstReg {k : RegKind} {i : Nat} : Runs (rstReg k i) := runs_doU

/-- What changes a thing beside the registers by a function of it. -/
theorem runs_mod {γ : Type} {g : Mach → γ} {u : γ → Upd} :
    Runs (do let v ← (do let m ← getM; pure (g m) : P γ); doU (u v)) :=
  Only.bind (Only.bind Only.getM fun _ => Only.pure _) fun _ => runs_doU

/-! Register writes (R424, R425). -/

theorem apertureWrite_runs (w : CtlWrite) (a : Reg) : Runs (apertureWrite w a) := by
  have refused {r : Reg} {reason : Nat} : Runs (do wr (TEN_OBJ_STATUS_REFUSED (a.i / 8)) 1
                                                   refuse r w reason
                                                   return ([] : List Pend)) :=
    Only.bind runs_wr fun _ => Only.bind (refuse_only _ _ _).runs fun _ => Only.pure _
  refine Only.bind Only.getM fun m => ?_
  dsimp only
  split
  · exact Only.ite refused (Only.ite (Only.pure _) refused)
  · exact refused
  · exact Only.bind runs_wr fun _ => Only.bind (trace_only _ _ _ _ _ _).runs fun _ => Only.pure _

theorem accessRefused_runs (w : CtlWrite) (cause : Nat) : Runs (accessRefused w cause) :=
  Only.bind Only.getM fun _ => Only.bind (pathRefused_only _ _ _ _).runs fun _ => (trace_only _ _ _ _ _ _).runs

theorem admitWrite_runs (w : CtlWrite) : Runs (admitWrite w) := by
  have refused {cause : Nat} : Runs (do accessRefused w cause; return ([] : List Pend)) :=
    Only.bind (accessRefused_runs w cause) fun _ => Only.pure _
  refine Only.bind Only.getM fun m => ?_
  dsimp only
  split
  · exact Only.bind (dbForeign_only _ _).runs fun _ => Only.pure _
  · refine Only.ite refused ?_
    split
    · exact refused
    · exact Only.ite refused (Only.ite (apertureWrite_runs _ _)
        (Only.ite (Only.pure _) (Only.bind (refuse_only _ _ _).runs fun _ => Only.pure _)))

theorem withdraw_runs (r : Reg) (n : Nat) (l : List Pend) : Runs (withdraw r n l) := by
  induction n generalizing l with
  | zero => exact Only.pure _
  | succ n ih =>
    refine Only.bind Only.getM fun m => Only.ite (Only.pure _) ?_
    split
    · exact Only.bind (refuse_only _ _ _).runs fun _ => ih _
    · exact Only.pure _

theorem regApply_runs (r : Reg) (data mask : Nat) (p : Path) : Runs (regApply r data mask p) :=
  Only.bind Only.getM fun _ => Only.bind runs_wrReg fun _ => Only.bind (Only.onlyIf runs_wr) fun _ =>
    Only.bind (regEffect_only _ _ _ _ _).runs fun _ => (ctxWritten_only _).runs

theorem mergeApply_runs (l : List Pend) : Runs (mergeApply l) := by
  cases l with
  | nil => exact Only.pure _
  | cons x t =>
    refine Only.bind (withdraw_runs _ _ _) fun l => Only.bind Only.getM fun m => ?_
    refine Only.bind (Only.each fun _ _ => (trace_only _ _ _ _ _ _).runs) fun _ => ?_
    have yields {c : Prop} [Decidable c] {l : List Pend} {ds : List Discard} :
        Runs (do onlyIf c (each l fun y => refuse y.r y.w rcTWN_BUSY); return ds) :=
      Only.bind (Only.onlyIf (Only.each fun _ _ => (refuse_only _ _ _).runs)) fun _ => Only.pure _
    dsimp only
    split
    · exact Only.bind (regApply_runs _ _ _ _) fun _ => yields
    · exact yields

theorem conflict_runs (ds : List Discard) : Runs (conflict ds) := by
  refine Only.bind Only.getM fun m => ?_
  split
  · exact Only.pure _
  · refine Only.bind runs_addSat fun _ => Only.onlyIf ?_
    iterate 8 refine Only.bind runs_wr fun _ => ?_
    exact (raise_only _).runs

theorem regWrite_runs (ws : List CtlWrite) : Runs (regWrite ws) :=
  Only.bind (Only.gather admitWrite_runs) fun _ => Only.bind Only.getM fun _ =>
    Only.bind (Only.gather fun _ => mergeApply_runs _) fun _ => conflict_runs _

theorem fieldsWrite_runs (p : Path) (l : List (RF × Nat)) : Runs (fieldsWrite p l) := by
  cases l with
  | nil => exact Only.pure _
  | cons a t => exact regWrite_runs _

theorem dataAccess_runs (p : Path) (k : RegKind) (i : Nat) (data : Option Word) : Runs (dataAccess p k i data) := by
  cases data with
  | some v => exact regWrite_runs _
  | none => exact Only.bind (ctlRead_only _ _ _).runs fun _ => (emit_only _).runs

theorem fmCmd_runs {p : Path} {x : P Unit} (h : Runs x) : Runs (fmCmd p x) := Only.bind Only.getM fun _ => Only.onlyIf h

theorem fmAnswer_runs {code : Nat} {l : List Nat} : Runs (fmAnswer code l) := (emit_only _).runs

/-! Loads (R31-R33, R43). -/

theorem loadRefuse_runs {cmd reason sect item : Nat} {pol part : Bool} : Runs (loadRefuse cmd reason sect item pol part) :=
  Only.bind Only.getM fun _ => Only.bind (loadShow_only _ _ _ _ _ _).runs fun _ => Only.bind runs_mod fun _ =>
    Only.onlyIf (Only.bind (raise_only _).runs fun _ => Only.onlyIf (Only.bind runs_mod fun _ => (loadStart_only _ _).runs))

theorem polAccept_runs : Runs polAccept :=
  Only.bind Only.getM fun _ => Only.bind (Only.bind runs_wr fun _ => runs_wr) fun _ => Only.bind runs_mod fun _ =>
    (loadShow_only _ _ _ _ _ _).runs

theorem polWrite_runs (p : Path) (w : PolWrite) : Runs (polWrite p w) := by
  refine Only.bind Only.getM fun m => ?_
  dsimp only
  split
  · exact Only.bind (mergeApply_runs _) fun _ => Only.bind (conflict_runs _) fun _ => Only.pure _
  · exact Only.bind (refuse_only _ _ _).runs fun _ => Only.pure _

theorem polRun_runs (p : Path) (l : List PolWrite) : Runs (polRun p l) := by
  induction l with
  | nil => exact Only.pure _
  | cons w t ih => exact Only.bind (polWrite_runs p w) fun _ => Only.ite ih (Only.pure _)

theorem gateLoad_runs (p : Path) (it : Item) : Runs (gateLoad p it) :=
  Only.bind Only.getM fun _ => Only.bind (Only.each fun _ _ => runs_doU) fun _ => regWrite_runs _

theorem polItems_runs (p : Path) (l : List Item) : Runs (polItems p l) := by
  induction l with
  | nil => exact Only.pure _
  | cons it t ih =>
    refine Only.bind Only.getM fun m => Only.bind (polRun_runs p _) fun x => ?_
    cases x with
    | some e => exact Only.pure _
    | none => exact Only.bind (Only.onlyIf (gateLoad_runs p it)) fun _ => ih

theorem polFinish_runs (cmd code : Nat) : Runs (polFinish cmd code) := by
  refine Only.bind Only.getM fun m => Only.bind (polItems_runs _ _) fun x => ?_
  cases x with
  | some e => exact loadRefuse_runs
  | none => exact polAccept_runs

theorem polWindows_runs (cmd code : Nat) : Runs (polWindows cmd code) := by
  refine Only.bind Only.getM fun m => Only.ite (polFinish_runs _ _) (Only.ite runs_mod ?_)
  refine Only.bind (polItems_runs _ _) fun x => ?_
  cases x with
  | some e => exact loadRefuse_runs
  | none => exact Only.ite (Only.bind runs_mod fun _ => regWrite_runs _) (polFinish_runs _ _)

theorem policyLoad_runs {cmd code : Nat} {v : Verified} : Runs (policyLoad cmd code v) := by
  refine Only.bind Only.getM fun m => Only.ite loadRefuse_runs ?_
  split
  · exact loadRefuse_runs
  · split
    · exact loadRefuse_runs
    · refine Only.bind runs_mod fun _ => Only.bind (polItems_runs _ _) fun x => ?_
      cases x with
      | some e => exact loadRefuse_runs
      | none => exact polWindows_runs _ _

theorem itemExtra_runs (it : Item) : Runs (itemExtra it) := by
  refine Only.bind Only.getM fun m => ?_
  dsimp only
  split
  case h_4 => exact Only.bind runs_wr fun _ => runs_wr
  case h_7 => exact Only.pure _
  all_goals first | exact runs_doU | exact runs_wr

theorem itemStore_runs (it : Item) : Runs (itemStore it) := by
  refine Only.bind (Only.each fun f _ => ?_) fun _ => Only.bind (Only.each fun _ _ => runs_wr) fun _ => itemExtra_runs it
  split
  · exact runs_wr
  · exact Only.pure _

theorem imageClear_runs : Runs imageClear := by
  refine Only.bind Only.getM fun m => Only.bind (Only.each fun e _ => ?_) fun _ => ?_
  · exact Only.bind (Only.onlyIf runs_wrReg) fun _ => Only.bind (Only.onlyIf runs_rstReg) fun _ => Only.onlyIf runs_rstReg
  · exact Only.bind runs_doU fun _ => Only.bind runs_doU fun _ => Only.bind runs_doU fun _ => runs_doU

theorem imageAccept_runs (v : Verified) : Runs (imageAccept v) := by
  refine Only.bind (Only.rd (M := ⟨0, 0⟩) _).runs fun paired => Only.bind imageClear_runs fun _ =>
    Only.bind (Only.each fun it _ => itemStore_runs it) fun _ => Only.bind (Only.bind runs_wr fun _ => runs_wr) fun _ => ?_
  exact Only.bind (Only.each fun _ _ => runs_wr) fun _ => Only.bind runs_wr fun _ => Only.bind (whlCfg_only _).runs fun _ =>
    Only.bind runs_mod fun _ => (loadShow_only _ _ _ _ _ _).runs

theorem imageLoadDone_runs (flash : List Nat) : Runs (imageLoadDone flash) := by
  refine Only.bind Only.getM fun m => ?_
  split
  · refine Only.ite ?_ (Only.pure _)
    dsimp only
    exact Only.ite loadRefuse_runs (Only.ite loadRefuse_runs
      (Only.ite policyLoad_runs (imageAccept_runs _)))
  · exact Only.pure _

/-! The Kerb fence and the load that waits for it (R43, R290). -/

theorem fenceShow_runs {reason win other addr : Nat} : Runs (fenceShow reason win other addr) :=
  Only.bind runs_wr fun _ => Only.bind runs_wr fun _ => Only.bind runs_wr fun _ => runs_wr

theorem fenceSwitch_runs : Runs fenceSwitch :=
  Only.bind Only.getM fun _ => Only.bind (Only.each fun _ _ => Only.onlyIf (Only.each fun _ _ => runs_wr)) fun _ => runs_wr

theorem fenceCheckDone_runs : Runs fenceCheckDone := by
  refine Only.bind Only.getM fun m => Only.ite ?_ (Only.pure _)
  split
  · exact Only.bind fenceShow_runs fun _ => Only.bind runs_wr fun _ => Only.bind runs_wr fun _ =>
      Only.bind runs_inc fun _ => (raise_only _).runs
  · exact Only.bind fenceShow_runs fun _ => Only.bind fenceSwitch_runs fun _ => runs_wr

theorem fenceCheckRow_runs : Runs fenceCheckRow := by
  refine Only.bind fenceCheckDone_runs fun _ => Only.bind Only.getM fun m => ?_
  split
  · exact Only.onlyIf (Only.ite loadRefuse_runs (Only.onlyIf (polWindows_runs _ _)))
  · exact Only.pure _

theorem fenceDrained_runs : Runs fenceDrained :=
  Only.bind Only.getM fun _ => Only.ite (Only.bind runs_wr fun _ => Only.bind (Only.onlyIf runs_wr) fun _ =>
    Only.bind runs_inc fun _ => Only.pure _) (Only.pure _)

theorem fenceDrainedRow_runs : Runs fenceDrainedRow := by
  refine Only.bind fenceDrained_runs fun done => Only.bind Only.getM fun m => ?_
  split
  · exact Only.onlyIf (Only.ite (polFinish_runs _ _) (Only.onlyIf (Only.bind runs_mod fun _ => polWindows_runs _ _)))
  · exact Only.pure _

/-! Resets, the thermal monitor and the clock (R390, R412, R414, R208). -/

theorem regsReset_runs (keep : List RegKind) : Runs (regsReset keep) :=
  Only.bind Only.getM fun _ => Only.each fun _ _ => Only.ite (Only.pure _) runs_rstReg

theorem contentsClear_runs : Runs contentsClear := by
  iterate 86 refine Only.bind runs_doU fun _ => ?_
  exact runs_doU

theorem keptClear_runs : Runs keptClear := by
  iterate 20 refine Only.bind runs_doU fun _ => ?_
  exact runs_doU

theorem coldReset_runs (cause : Nat) : Runs (coldReset cause) :=
  Only.bind Only.getM fun _ => Only.bind (regsReset_runs _) fun _ => Only.bind runs_wr fun _ => Only.bind runs_wr fun _ =>
    Only.bind contentsClear_runs fun _ => Only.bind runs_doU fun _ => Only.bind keptClear_runs fun _ =>
    Only.bind runs_mod fun _ => Only.bind (tbClock_only _).runs fun _ => runs_wrReg

theorem coldRow_runs (c : ColdCause) (pin command : Bool) : Runs (coldRow c pin command) :=
  Only.bind Only.getM fun _ => Only.bind (coldReset_runs _) fun _ => Only.bind runs_mod fun _ =>
    Only.ite (Only.pure _) (Only.bind fuseLoad_only.runs fun _ => startUp_only.runs)

theorem warmFence_runs : Runs warmFence := by
  have homes : Runs (do
      wr TWN_ROLE_HOMES 0
      wr TWN_ROLE_MIRRORED 0
      wr TWN_ROLE_COPY_DONE 0
      wr TWN_ROLE_SETTLING 0
      wr TWN_ROLE_MOVING 0
      wr TWN_ROLE_BLIND 0) :=
    Only.bind runs_wr fun _ => Only.bind runs_wr fun _ => Only.bind runs_wr fun _ => Only.bind runs_wr fun _ =>
      Only.bind runs_wr fun _ => runs_wr
  refine Only.bind Only.getM fun m => Only.ite ?_ (Only.ite ?_ ?_)
  · exact Only.bind runs_wr fun _ => Only.bind runs_wr fun _ => Only.bind runs_doU fun _ =>
      Only.bind (raise_only _).runs fun _ => homes
  · exact Only.bind (Only.onlyIf runs_wr) fun _ => Only.bind runs_doU fun _ => homes
  · exact Only.bind runs_wr fun _ => Only.bind runs_doU fun _ => homes

theorem warmReset_runs (cause : Nat) : Runs (warmReset cause) := by
  refine Only.bind relock_only.runs fun _ => Only.bind warmFence_runs fun _ => Only.bind Only.getM fun m =>
    Only.bind (regsReset_runs _) fun _ => ?_
  iterate 5 refine Only.bind runs_wr fun _ => ?_
  refine Only.bind (Only.each fun _ _ => Only.onlyIf runs_wr) fun _ => Only.bind tbAddend_only.runs fun _ =>
    Only.bind contentsClear_runs fun _ => Only.bind (repairsKeep_only _).runs fun _ => Only.bind (Only.each fun _ _ => runs_doU)
    fun _ => Only.bind (Only.each fun _ _ => (slotPerstShow_only _).runs) fun _ => Only.bind runs_doU fun _ =>
    Only.bind runs_wrReg fun _ => Only.bind (Only.onlyIf runs_wr) fun _ => Only.bind runs_mod fun _ => ?_
  exact Only.ite mgmtReady_only.runs startUp_only.runs

theorem warmRequest_runs (cause : Nat) : Runs (warmRequest cause) :=
  Only.bind Only.getM fun _ => Only.ite (Only.pure _) (Only.ite runs_mod (warmReset_runs _))

theorem warmRow_runs (pin command : Bool) : Runs (warmRow pin command) :=
  Only.bind Only.getM fun _ => Only.bind (Only.onlyIf runs_mod) fun _ => warmRequest_runs _

theorem refclkReturn_runs (pin command : Bool) : Runs (refclkReturn pin command) :=
  Only.bind Only.getM fun _ => Only.ite (Only.bind runs_wr fun _ => Only.bind runs_wr fun _ => Only.bind (tbClock_only _).runs
    fun _ => Only.ite (warmRequest_runs _) (Only.onlyIf startUp_only.runs)) (Only.pure _)

theorem thermTrip_runs : Runs thermTrip :=
  Only.bind Only.getM fun _ => Only.bind (fence_only _).runs fun _ => Only.bind (allDown_only _ _).runs fun _ =>
    Only.bind runs_wr fun _ => Only.bind runs_wr fun _ => Only.bind runs_mod fun _ => runs_mod

theorem thermalSample_runs (temps : List Int) (sensor : Nat) : Runs (thermalSample temps sensor) :=
  Only.bind Only.getM fun _ => Only.bind runs_wr fun _ => Only.bind runs_wr fun _ => Only.ite
    (Only.bind runs_mod fun _ => Only.pure _)
    (Only.bind runs_mod fun _ => Only.bind (Only.onlyIf thermTrip_runs) fun _ => Only.pure _)

theorem thermalRow_runs (temps : List Int) (sensor : Nat) : Runs (thermalRow temps sensor) :=
  Only.bind (thermalSample_runs _ _) fun _ => Only.onlyIf (warmReset_runs _)

theorem coreCycle_runs : Runs coreCycle :=
  Only.bind Only.getM fun _ => Only.bind runs_mod fun _ => Only.bind (pmuCount_only _ _ _).runs fun _ =>
    Only.each fun _ _ => Only.onlyIf (pmuCount_only _ _ _).runs

theorem tbTick_runs : Runs tbTick :=
  Only.bind Only.getM fun _ => Only.bind (tbSet_only _).runs fun _ => Only.bind runs_mod fun _ => Only.bind runs_doU fun _ =>
    runs_mod

theorem idle_runs : Runs idle :=
  Only.bind Only.getM fun _ => Only.onlyIf (Only.bind Only.getM fun _ => Only.ite tbTick_runs
    (Only.bind coreCycle_runs fun _ => Only.bind Only.getM fun _ => Only.onlyIf tbTick_runs))

/-! Commands that are made of register writes. -/

theorem tmProgram_runs (x status : Nat) (ws : List (Nat × Word × Word)) : Runs (tmProgram x status ws) :=
  Only.bind Only.getM fun _ => Only.ite (Only.bind (Only.onlyIf (Only.each fun _ _ => regWrite_runs _)) fun _ =>
    (mbDone_only _ _ _).runs) (Only.pure _)

theorem mbWarmReset_runs (x : Nat) : Runs (mbWarmReset x) :=
  Only.bind Only.getM fun _ => Only.ite (Only.bind (mbDone_only _ _ _).runs fun _ => regWrite_runs _) (Only.pure _)

theorem slotPerst_runs (p : Path) (q v : Nat) : Runs (slotPerst p q v) :=
  fmCmd_runs (Only.ite (Only.bind (regWrite_runs _) fun _ => fmAnswer_runs) fmAnswer_runs)

theorem resetPpb_runs (p : Path) (q : Nat) : Runs (resetPpb p q) :=
  fmCmd_runs (Only.bind (regWrite_runs _) fun _ => fmAnswer_runs)

theorem ctlWrite_runs (p : Path) (addr : Nat) (data mask : Word) : Runs (ctlWrite p addr data mask) :=
  fmCmd_runs (Only.bind (regWrite_runs _) fun _ => fmAnswer_runs)

theorem stageBulk_runs (p : Path) (addr : Nat) (ws : List Word) : Runs (stageBulk p addr ws) :=
  fmCmd_runs (Only.ite (Only.bind (regWrite_runs _) fun _ => Only.bind (Only.each fun _ _ => regWrite_runs _)
    fun _ => fmAnswer_runs) fmAnswer_runs)

/-! Commands that wait on a domain or on a session. -/

theorem whileOn_runs {d : Nat} {x : P Unit} (h : Runs x) : Runs (whileOn d x) := Only.bind Only.getM fun _ => Only.onlyIf h

theorem whileUp_runs {d : Nat} {x : P Unit} (h : Runs x) : Runs (whileUp d x) := Only.bind Only.getM fun _ => Only.onlyIf h

theorem onSpdm_runs {c : Nat} {x : P Unit} (h : Runs x) : Runs (onSpdm c x) := Only.bind Only.getM fun _ => Only.onlyIf h

end Sys2Proof.Machine
end

section
/-!
SUPPORT. Every step keeps the invariant.
-/
namespace Sys2Proof.Machine

theorem runs_cmd {c : Instr} {p : P Unit} (hp : Runs p) (hx : ∀ s, exec c s = cmd p s := by intro _; rfl) :
    ∃ p : P Unit, (∀ s, exec c s = cmd p s) ∧ Runs p := ⟨p, hx, hp⟩

/-- Every command is a program that runs to its end, and then settles. -/
theorem exec_runs (c : Instr) : ∃ p : P Unit, (∀ s, exec c s = cmd p s) ∧ Runs p := by
  cases c with
  | coldReset | hardBrownout =>
    exact runs_cmd (coldRow_runs _ _ _)
  | warmReset => exact runs_cmd (warmRow_runs _ _)
  | perstAssert => exact runs_cmd (perstAssert_only _).runs
  | perstDeassert => exact runs_cmd (perstDeassert_only _).runs
  | presenceDebounced => exact runs_cmd (presenceDebounced_only _ _).runs
  | twinIdChange => exact runs_cmd (twinIdChange_only _).runs
  | partnerAliveChange => exact runs_cmd (partnerAlive_only _).runs
  | ppsEdge => exact runs_cmd (ppsEdge_only _).runs
  | ppsLost => exact runs_cmd ppsLost_only.runs
  | registerWrite | loadFlashA | loadFlashB | loadStage | abort | structEnable | structDisable | structCheck |
    portEnableWrite | retrain | redoEq | portClrCnt | planeOut | planeReturn | xbClrCnt | probeStart | fmdCommit |
    fmdDecommit | sqClrCnt | slotRingEnable | tmClrCnt | gateChange | timeStepOffset | tbClrCnt | ringEnable |
    ringDisable | ringClrCnt | clusterOut | clusterReturn | tableEnable | lmClrCnt | predClr | kskBankOut |
    kskBankReturn | kioskFlush | kskClrCnt | kerbWindowWrite | kerbFenceGo | sliceEnable | sliceDisable |
    violationClear | krbClrCnt | spindleEnable | spindleRetrain | spindleClrCnt | spindleCtlWrite | fwSend |
    whorlClrCnt | fence | unfence | yield | handback | twnClrCnt | scrubAbort | retireAdd | writeRaw | readRaw |
    evqEnable | intClrCnt | powerRequest | pwrClrCnt | avsMarginWrite | slotPowerReq | unlatch | slotClrCnt | kick |
    coreReset | pmuClrAll | testAbort | chalReq | grant | relock | cmdConflictClear | pathCntClr =>
    exact runs_cmd (regWrite_runs _)
  | imageLoadDone => exact runs_cmd (imageLoadDone_runs _)
  | stageDataAccess | tbTimeNsRead | gclDataAccess | apertureAccess | traceDataRead =>
    exact runs_cmd (dataAccess_runs _ _ _ _)
  | structCheckDone => exact runs_cmd structCheckDone_only.runs
  | phase11ListenEnd => exact runs_cmd phase11ListenEnd_only.runs
  | applyingDone => exact runs_cmd applyingDone_only.runs
  | disablingDone => exact runs_cmd disablingDone_only.runs
  | trainingL0 => exact runs_cmd (trainingL0_only _ _).runs
  | trainTimeout => exact runs_cmd (trainTimeout_only _).runs
  | xrateEqTimeout => exact runs_cmd (xrateTimeout_only _).runs
  | portRecoveryDone => exact runs_cmd (recoveryDone_only _ _).runs
  | linkDown => exact runs_cmd (linkDown_only _).runs
  | ideSecure => exact runs_cmd (ideSecure_only _ _ _).runs
  | ideTimeout => exact runs_cmd (ideTimeout_only _).runs
  | ideFail => exact runs_cmd (ideFail_only _).runs
  | flushComplete => exact runs_cmd (flushComplete_only _).runs
  | flushTimeout => exact runs_cmd (flushTimeout_only _).runs
  | slotPerstRelease => exact runs_cmd (slotPerstRelease_only _).runs
  | powerControllerWrite => exact runs_cmd (powerControllerWrite_only _ _ _).runs
  | hostMemRequest => exact runs_cmd (hostMem_only _ _).runs
  | hostIoRequest => exact runs_cmd (hostIo_only _ _).runs
  | edgeMessage => exact runs_cmd (edgeMessage_only _ _ _ _).runs
  | cxlCacheMessage => exact runs_cmd (cacheMessage_only _ _).runs
  | biconflict => exact runs_cmd (biConflictIn_only _ _ _).runs
  | messageDispatch => exact runs_cmd (messageDispatch_only _ _ _).runs
  | headAdmit => exact runs_cmd (dispatchHead_only _ _).runs
  | cellLinked => exact runs_cmd (cellLinked_only _ _).runs
  | outputSend => exact runs_cmd (outputSend_only _).runs
  | planePathCheckDone => exact runs_cmd (planeCheckPass_only _).runs
  | planePathCheckTimeout => exact runs_cmd (planeCheckFail_only _).runs
  | planeError | planeWatchdog =>
    exact runs_cmd (planeError_only _ _).runs
  | planeDrained => exact runs_cmd (planeDrained_only _).runs
  | planeDrainTimeout => exact runs_cmd (planeDrainTimeout_only _).runs
  | ageExpiry => exact runs_cmd (ageExpiry_only _ _).runs
  | flushedNotice => exact runs_cmd (flushedNotice_only _ _).runs
  | squareLookup => exact runs_cmd (whileOn_runs (squareLookup_only _ _ _).runs)
  | lookupResult => exact runs_cmd (lookupResult_only _ _ _).runs
  | specDataArrival => exact runs_cmd (specArrival_only _ _ _ _).runs
  | memoryReadData => exact runs_cmd (memReadData_only _ _ _ _).runs
  | memoryWriteComplete => exact runs_cmd (memWriteDone_only _ _).runs
  | writeback => exact runs_cmd (whileUp_runs (writebackIn_only _ _ _).runs)
  | birsp => exact runs_cmd (birspIn_only _ _ _ _).runs
  | snoopTimeout => exact runs_cmd (snoopTimeout_only _ _ _).runs
  | memTimeout => exact runs_cmd (memTimeout_only _ _ _).runs
  | mirrorCommit => exact runs_cmd (commitRecord_only _).runs
  | commitSend => exact runs_cmd (commitSend_only _).runs
  | releaseSend => exact runs_cmd (releaseSend_only _).runs
  | retryInterval => exact runs_cmd (whileUp_runs (retryInterval_only _ _).runs)
  | retryAgeLimit => exact runs_cmd (whileUp_runs (retryAge_only _ _).runs)
  | evictWindowEnd => exact runs_cmd (whileUp_runs (evictWindow_only _).runs)
  | probeDone => exact runs_cmd (whileUp_runs (probeDone_only _).runs)
  | cornerFwd => exact runs_cmd (cornerFwd_only _ _ _ _).runs
  | cornerWriteback => exact runs_cmd (cornerWriteback_only _ _).runs
  | cornerBirsp => exact runs_cmd (cornerBirsp_only _ _ _).runs
  | cornerSnoopTimeout => exact runs_cmd (cornerSnoopTimeout_only _ _).runs
  | cornerMemoryWriteDone => exact runs_cmd (cornerWriteDone_only _ _).runs
  | cornerMemTimeout => exact runs_cmd (cornerMemTimeout_only _ _).runs
  | cornerAck => exact runs_cmd (cornerAck_only _ _).runs
  | handover => exact runs_cmd (handover_only _ _ _ _ _ _ _).runs
  | ret => exact runs_cmd (retTake_only _ _ _ _ _ _ _ _ _ _ _).runs
  | waiter => exact runs_cmd (reenter_only _ _).runs
  | credit => exact runs_cmd (creditBack_only _ _ _ _).runs
  | purgeWalkDone => exact runs_cmd (purgeDone_only _).runs
  | slotLineWrite => exact runs_cmd (plazaWrite_only _ _ _ _ _ _).runs
  | plazaLdRead => exact runs_cmd (ldMiss_only _ _ _ _).runs
  | enqueue => exact runs_cmd (whileUp_runs (enqueue_only _).runs)
  | slotFillTimeout => exact runs_cmd (whileUp_runs (slotFillTimeout_only _ _).runs)
  | slotHeadTimeout => exact runs_cmd (whileUp_runs (slotHeadTimeout_only _).runs)
  | slotReturn => exact runs_cmd (whileUp_runs (slotReturn_only _).runs)
  | returnRecordTimeout => exact runs_cmd (whileUp_runs (returnRecord_only _).runs)
  | flushQueue | todSet | todArm | scrubGo | glbResetWarm | testGo =>
    exact runs_cmd (fieldsWrite_runs _ _)
  | flushQueueDone | kioskFlushDone =>
    exact runs_cmd runs_wr
  | meterSweep => exact runs_cmd (whileUp_runs (meterSweep_only _).runs)
  | egressPush => exact runs_cmd (whileUp_runs (egressPush_only _ _ _).runs)
  | select => exact runs_cmd (whileOn_runs (select_only _).runs)
  | shaperRefill => exact runs_cmd (whileUp_runs (shaperRefill_only _ _).runs)
  | drrSweep => exact runs_cmd (whileUp_runs (drrSweep_only _).runs)
  | gateEntryBoundary => exact runs_cmd (whileUp_runs (gateBoundary_only _).runs)
  | gateStart => exact runs_cmd (whileUp_runs (gateStart_only _).runs)
  | gateSwitch => exact runs_cmd (whileUp_runs (gateSwitch_only _).runs)
  | doorbellProducer | doorbellConsumer =>
    exact runs_cmd (doorbell_only _ _ _ _ _).runs
  | fetchIssue => exact runs_cmd (fetchIssue_only _).runs
  | fetchCompletion => exact runs_cmd (fetchCompletion_only _ _ _ _ _).runs
  | fetchTimeout => exact runs_cmd (fetchTimeout_only _ _).runs
  | ringDispatch => exact runs_cmd ringDispatch_only.runs
  | jobComplete => exact runs_cmd (jobComplete_only _).runs
  | irqModerationTimeout => exact runs_cmd (irqModeration_only _).runs
  | ringStopped => exact runs_cmd (ringStopped_only _).runs
  | ringStopTimeout => exact runs_cmd (ringStopTimeout_only _).runs
  | sfConfigWrite => exact runs_cmd (sfConfig_only _ _ _ _).runs
  | functionLevelReset => exact runs_cmd (flr_only _).runs
  | loomAccessResponse => exact runs_cmd (accResponse_only _ _).runs
  | loomAccessTimeout => exact runs_cmd (accTimeout_only _).runs
  | clusterDrained => exact runs_cmd (clusterDrained_only _).runs
  | kioskFillData => exact runs_cmd (kioskFill_only _ _).runs
  | kioskSnoop => exact runs_cmd (kioskSnoop_only _ _ _).runs
  | kioskSteeredFill => exact runs_cmd (steeredFill_only _ _).runs
  | kskBankDrained => exact runs_cmd (kskDrained_only _).runs
  | kerbFenceCheckDone => exact runs_cmd fenceCheckRow_runs
  | kerbFenceDrained => exact runs_cmd fenceDrainedRow_runs
  | kerbFenceTimeout => exact runs_cmd fenceTimeout_only.runs
  | sliceDrained => exact runs_cmd (sliceDrained_only _).runs
  | sliceStopTimeout => exact runs_cmd (sliceTimeout_only _).runs
  | debugFabricAccess => exact runs_cmd (debugFabric_only _ _ _).runs
  | spindleTrained => exact runs_cmd spnTrained_only.runs
  | spindleTrainTimeout => exact runs_cmd spnTrainTimeout_only.runs
  | spindleRecoveryDone => exact runs_cmd spnRecoveryDone_only.runs
  | spindleRecoveryTimeout => exact runs_cmd spnRecoveryTimeout_only.runs
  | spindleSilence => exact runs_cmd spnSilence_only.runs
  | alignmentLost => exact runs_cmd (alignmentLost_only _).runs
  | laneWindowEnd => exact runs_cmd (laneWindowEnd_only _ _ _).runs
  | statusBlock => exact runs_cmd (statusBlock_only _ _ _ _).runs
  | replayBlock => exact runs_cmd (replayBlock_only _ _).runs
  | spareBlock => exact runs_cmd (spareBlock_only _ _ _ _).runs
  | linkinfoBlock => exact runs_cmd (linkinfoBlock_only _ _ _ _).runs
  | dataPacket => exact runs_cmd (dataPacket_only _).runs
  | fecUncorrectable => exact runs_cmd fecUncorrectable_only.runs
  | replayTimeout => exact runs_cmd replayTimeout_only.runs
  | statusPeriod => exact runs_cmd statusPeriod_only.runs
  | partnerSilent => exact runs_cmd partnerSilent_only.runs
  | mirrorRecord => exact runs_cmd (mirrorRecord_only _ _).runs
  | fwdReq => exact runs_cmd (fwdReq_only _).runs
  | fwdRsp => exact runs_cmd (fwdRsp_only _).runs
  | snoop => exact runs_cmd (snoopIn_only _).runs
  | snoopRsp => exact runs_cmd (birsp_only _ _ _ _).runs
  | loomReq => exact runs_cmd (loomReq_only _).runs
  | loomRsp => exact runs_cmd (loomRsp_only _).runs
  | portState => exact runs_cmd (portState_only _).runs
  | portStatePeriod => exact runs_cmd portStateSend_only.runs
  | dirCopy => exact runs_cmd (dirCopy_only _ _).runs
  | copyComplete => exact runs_cmd copyComplete_only.runs
  | heartbeat => exact runs_cmd (heartbeatRow_only _ _ _).runs
  | heartbeatSend => exact runs_cmd heartbeatSendRow_only.runs
  | heartbeatMiss => exact runs_cmd heartbeatMiss_only.runs
  | whorlSyncLoss => exact runs_cmd (whlSyncLoss_only _).runs
  | fwFrame => exact runs_cmd (fwFrame_only _ _ _).runs
  | formTimeout => exact runs_cmd formTimeout_only.runs
  | settleWalkDone => exact runs_cmd (settleWalkDone_only _ _).runs
  | graceEnd => exact runs_cmd graceEnd_only.runs
  | moveDrained => exact runs_cmd moveDrained_only.runs
  | moveTimeout => exact runs_cmd moveTimeout_only.runs
  | scrubWord => exact runs_cmd (scrubWord_only _).runs
  | scrubEnd => exact runs_cmd scrubEnd_only.runs
  | mergeDrain => exact runs_cmd (mergeDrain_only _ _ _ _ _).runs
  | rawAccessDone => exact runs_cmd rawDone_only.runs
  | evqIrqTimeout => exact runs_cmd evqIrqTimeout_only.runs
  | poisonCommand => exact runs_cmd (poisonCommand_only _ _).runs
  | wakeStepReady => exact runs_cmd (wakeStepReadyRow_only _).runs
  | wakeStepTimeout => exact runs_cmd (wakeStepTimeout_only _).runs
  | wakeRetryWaitEnd => exact runs_cmd (wakeRetryWaitEnd_only _).runs
  | sequencerWatchdog => exact runs_cmd (sequencerWatchdog_only _).runs
  | drainComplete => exact runs_cmd (drainComplete_only _).runs
  | stoppingDone => exact runs_cmd (stoppingDone_only _).runs
  | drainTimeout => exact runs_cmd (drainTimeout_only _).runs
  | lostReady => exact runs_cmd (lostReady_only _).runs
  | refclkLoss => exact runs_cmd refclkLoss_only.runs
  | refclkReturn => exact runs_cmd (refclkReturn_runs _ _)
  | thermalSample => exact runs_cmd (thermalRow_runs _ _)
  | throttleStep => exact runs_cmd throttleStep_only.runs
  | ldoSoftBrownout => exact runs_cmd ldoSoft_only.runs
  | avsWriteAck => exact runs_cmd avsAck_only.runs
  | avsWriteTimeout => exact runs_cmd avsTimeout_only.runs
  | insertDelayEnd => exact runs_cmd (insertDelayEnd_only _).runs
  | vinWindowCrossing => exact runs_cmd (vinCrossing_only _ _).runs
  | fastTrip => exact runs_cmd (fastTrip_only _ _).runs
  | faultTimerExpiry => exact runs_cmd (faultTimerExpiry_only _ _).runs
  | rampTimeout => exact runs_cmd (rampTimeout_only _ _).runs
  | gateFullyOn => exact runs_cmd (gateFullyOn_only _ _).runs
  | pgDeglitchEnd => exact runs_cmd (pgDeglitchEnd_only _).runs
  | pgConditionsLost => exact runs_cmd (pgConditionsLost_only _ _).runs
  | retryTimerExpiry => exact runs_cmd (retryExpiry_only _).runs
  | gateOffDelayEnd => exact runs_cmd (gateOffDelayEnd_only _).runs
  | firmwareCopyDone => exact runs_cmd (firmwareCopyDone_only _).runs
  | recoveryWrite => exact runs_cmd recoveryWrite_only.runs
  | recoveryBoot => exact runs_cmd recoveryBoot_only.runs
  | watchdogExpiry => exact runs_cmd (watchdogExpiry_only _).runs
  | getVersion => exact runs_cmd (getVersion_only _).runs
  | getState => exact runs_cmd (getState_only _).runs
  | setLinkPolicy | setPowerPolicy | setScrubSchedule | setFailoverPolicy =>
    exact runs_cmd (setPolicy_only _ _ _).runs
  | tmProgram => exact runs_cmd (tmProgram_runs _ _ _)
  | flashUpdate => exact runs_cmd (flashUpdate_only _ _).runs
  | mbWarmReset => exact runs_cmd (mbWarmReset_runs _)
  | mailboxUnknownOpcode => exact runs_cmd (mbUnknown_only _).runs
  | mailboxTimeout => exact runs_cmd (mbTimeout_only _).runs
  | identifySwitchDevice => exact runs_cmd (identify_only _).runs
  | getPhysicalPortState => exact runs_cmd (portStates_only _ _).runs
  | assertPerst | deassertPerst =>
    exact runs_cmd (slotPerst_runs _ _ _)
  | resetPpb => exact runs_cmd (resetPpb_runs _ _)
  | sendPpbCxlIoConfigRequest => exact runs_cmd (ppbConfig_only _ _ _).runs
  | getVirtualCxlSwitchInfo => exact runs_cmd (vcsInfo_only _ _).runs
  | bindVppb | unbindVppb | setLdAllocations | qosControl | fmUnsupportedCommand =>
    exact runs_cmd (fmRefused_only _).runs
  | tunnelManagementCommand | sendLdCxlIoConfigRequest | sendLdCxlIoMemoryRequest =>
    exact runs_cmd (ldCommand_only _ _ _ _ _ _ _).runs
  | getLdInfo | getLdAllocations =>
    exact runs_cmd (ldQuery_only _ _ _).runs
  | getMultiHeadedInfo | getHeadInfo =>
    exact runs_cmd (headCommand_only _ _ _).runs
  | initiateDynamicCapacityAdd | initiateDynamicCapacityRelease =>
    exact runs_cmd (dynCapacity_only _ _ _ _ _).runs
  | getEventRecords => exact runs_cmd (getEvents_only _ _).runs
  | clearEventRecords => exact runs_cmd (clearEvents_only _ _ _).runs
  | setEventInterruptPolicy => exact runs_cmd (eventPolicy_only _ _).runs
  | ctlRead => exact runs_cmd (ctlReads_only _ _ _).runs
  | ctlWrite => exact runs_cmd (ctlWrite_runs _ _ _ _)
  | stageWrite => exact runs_cmd (stageBulk_runs _ _ _)
  | mctpControl => exact runs_cmd (mctpControl_only _ _).runs
  | spdmGetVersion => exact runs_cmd (onSpdm_runs (spdmVersion_only _).runs)
  | spdmGetCapabilities => exact runs_cmd (onSpdm_runs (spdmCaps_only _).runs)
  | spdmNegotiateAlgorithms => exact runs_cmd (onSpdm_runs (spdmAlgorithms_only _).runs)
  | spdmGetDigests => exact runs_cmd (onSpdm_runs (spdmDigests_only _).runs)
  | spdmGetCertificate => exact runs_cmd (onSpdm_runs (spdmCertificate_only _ _ _ _).runs)
  | spdmChallenge => exact runs_cmd (onSpdm_runs (spdmChallenge_only _ _).runs)
  | spdmGetMeasurements => exact runs_cmd (onSpdm_runs (spdmMeasurements_only _ _ _).runs)
  | spdmKeyExchange => exact runs_cmd (onSpdm_runs (spdmKeyExchange_only _ _).runs)
  | spdmFinish => exact runs_cmd (onSpdm_runs (spdmFinish_only _ _ _).runs)
  | spdmHeartbeat => exact runs_cmd (onSpdm_runs (spdmHeartbeat_only _ _).runs)
  | spdmKeyUpdate => exact runs_cmd (onSpdm_runs (spdmKeyUpdate_only _ _ _ _).runs)
  | spdmEndSession => exact runs_cmd (onSpdm_runs (spdmEndSession_only _ _).runs)
  | censusTick => exact runs_cmd censusTick_only.runs
  | counterPageRead => exact runs_cmd (counterPageRead_only _ _ _).runs
  | testComplete => exact runs_cmd (testComplete_only _ _).runs
  | testTimeout => exact runs_cmd testTimeout_only.runs
  | porstRelease => exact runs_cmd (porstRelease_only _ _).runs
  | whorlCharacterAlignment => exact runs_cmd whlAlign_only.runs
  | laneSignalLost => exact runs_cmd (laneSignalLost_only _ _).runs
  | laneSignalDetected => exact runs_cmd (laneSignalDetected_only _).runs
  | linkCreditReturn => exact runs_cmd (creditReturn_only _ _ _).runs
  | ideKmMessage => exact runs_cmd (ideKm_only _ _).runs

/-- A command whose program runs to its end keeps the invariant. -/
theorem cmd_inv {p : P Unit} (hp : Runs p) {s t : State} (hi : s.Inv) (h : cmd p s = .next t) : t.Inv := by
  rw [cmd_run] at h
  cases h
  obtain ⟨_, m1, h1, -⟩ := hp (fun _ => toProg settle) ((Upd.out []).apply s.m)
  have told := settle_told m1
  rw [← h1] at told
  exact ⟨Prog.run_canon _ (Upd.apply_canon hi.canon _), told.2, told.1⟩

/-- Settles O49: an update keeps the canonical forms whatever it stores, and what settles leaves no fence and no record. -/
theorem stepKeepsInvariant : Obligations.StepKeepsInvariant := by
  intro s t hi h
  unfold step at h
  split at h
  · exact cmd_inv idle_runs hi h
  next c r _ =>
    obtain ⟨p, hx, hp⟩ := exec_runs c
    exact cmd_inv hp (s := { s with pending := r }) hi (hx _ ▸ h)

end Sys2Proof.Machine
end

section
/-!
SUPPORT. The fields of a register, bit by bit (Table 0.3): which field a bit lies in, and what a write asks of it and stores
in it.
-/
namespace Sys2Proof.Machine

/-! Bits of numbers that share none. -/

theorem add_eq_or_of_disjoint {a b : Nat} (h : a &&& b = 0) : a + b = a ||| b := by
  have ha : a < 2 ^ (a + b + 1) := lt_of_le_of_lt (by omega) (Nat.lt_two_pow_self (n := a + b + 1))
  have hb : b < 2 ^ (a + b + 1) := lt_of_le_of_lt (by omega) (Nat.lt_two_pow_self (n := a + b + 1))
  have hab : a + b < 2 ^ (a + b + 1) := lt_of_le_of_lt (by omega) (Nat.lt_two_pow_self (n := a + b + 1))
  have key := congrArg BitVec.toNat (BitVec.add_eq_or_of_and_eq_zero (BitVec.ofNat (a + b + 1) a)
    (BitVec.ofNat (a + b + 1) b) (BitVec.eq_of_toNat_eq (by simp [Nat.mod_eq_of_lt ha, Nat.mod_eq_of_lt hb, h])))
  simpa [Nat.mod_eq_of_lt ha, Nat.mod_eq_of_lt hb, Nat.mod_eq_of_lt hab] using key

theorem testBit_add_of_disjoint {a b : Nat} (h : a &&& b = 0) (n : Nat) :
    (a + b).testBit n = (a.testBit n || b.testBit n) := by
  rw [add_eq_or_of_disjoint h, Nat.testBit_or]

theorem testBit_sub_and (a m n : Nat) : (a - (a &&& m)).testBit n = (a.testBit n && !m.testBit n) := by
  have disjoint : (a &&& m) &&& (a ^^^ (a &&& m)) = 0 := Nat.eq_of_testBit_eq fun i => by
    simp only [Nat.testBit_and, Nat.testBit_xor, Nat.zero_testBit]
    cases a.testBit i <;> cases m.testBit i <;> rfl
  have sum : (a &&& m) + (a ^^^ (a &&& m)) = a := by
    rw [add_eq_or_of_disjoint disjoint]
    refine Nat.eq_of_testBit_eq fun i => ?_
    simp only [Nat.testBit_or, Nat.testBit_and, Nat.testBit_xor]
    cases a.testBit i <;> cases m.testBit i <;> rfl
  have diff : a - (a &&& m) = a ^^^ (a &&& m) := by omega
  rw [diff, Nat.testBit_xor, Nat.testBit_and]
  cases a.testBit n <;> cases m.testBit n <;> rfl

theorem testBit_maskIn (old v mask n : Nat) :
    (maskIn old v mask).testBit n = if mask.testBit n then v.testBit n else old.testBit n := by
  have disjoint : (old - (old &&& mask)) &&& (v &&& mask) = 0 := Nat.eq_of_testBit_eq fun i => by
    simp only [Nat.testBit_and, testBit_sub_and, Nat.zero_testBit]
    cases mask.testBit i <;> simp
  rw [maskIn, testBit_add_of_disjoint disjoint, testBit_sub_and, Nat.testBit_and]
  cases mask.testBit n <;> simp

/-! The field that a bit of a register lies in. -/

/-- Whether bit `n` lies in a field. -/
def FieldDesc.covers (f : FieldDesc) (n : Nat) : Bool := decide (f.lo ≤ n ∧ n < f.lo + f.width)

theorem FieldDesc.testBit_bits (f : FieldDesc) (n : Nat) : f.bits.testBit n = f.covers n := by
  rw [FieldDesc.bits, Nat.testBit_mul_two_pow, Nat.testBit_two_pow_sub_one, FieldDesc.covers]
  by_cases h : f.lo ≤ n <;> simp [h]
  omega

/-- The field that bit `n` of a register lies in. -/
def RegKind.fieldAt (k : RegKind) (n : Nat) : Option FieldDesc := k.desc.fields.find? (·.covers n)

/-- A fact that can be checked for each register holds of all. -/
theorem RegKind.all {p : RegKind → Bool} (h : ((List.range 512).all fun n => p (.ofNat n)) = true) (k : RegKind) :
    p k = true := by
  have := List.all_eq_true.1 h k.ctorIdx (List.mem_range.2 k.ctorIdx_lt)
  rwa [RegKind.ofNat_ctorIdx] at this

/-- No two fields share a bit. -/
def Apart (l : List FieldDesc) : Prop := l.Pairwise fun f g => f.bits &&& g.bits = 0

theorem RegKind.fields_apart (k : RegKind) : Apart k.desc.fields := by
  unfold Apart
  exact of_decide_eq_true (RegKind.all (p := fun k => decide (k.desc.fields.Pairwise fun f g => f.bits &&& g.bits = 0))
    (by decide +kernel) k)

/-- A sum of parts of fields, bit by bit. -/
theorem testBit_sum {l : List FieldDesc} (hl : Apart l) (g : FieldDesc → Nat) (hg : ∀ f, g f &&& f.bits = g f) {a : Nat}
    (ha : ∀ f ∈ l, a &&& f.bits = 0) (n : Nat) :
    (l.foldl (fun a f => a + g f) a).testBit n = (a.testBit n || (l.find? (·.covers n)).any fun f => (g f).testBit n) := by
  induction l generalizing a with
  | nil => simp
  | cons f t ih =>
    obtain ⟨hf, ht⟩ := List.pairwise_cons.1 hl
    have bit {f : FieldDesc} {n : Nat} (h : (g f).testBit n = true) : f.covers n = true := by
      rw [← hg f, Nat.testBit_and, FieldDesc.testBit_bits] at h
      simp only [Bool.and_eq_true] at h
      exact h.2
    have apart : a &&& g f = 0 := by
      rw [← hg f, Nat.and_comm (g f), ← Nat.and_assoc, ha f (by simp), Nat.zero_and]
    rw [List.foldl_cons, ih ht, testBit_add_of_disjoint apart]
    · by_cases hn : f.covers n = true
      · have none_t : t.find? (·.covers n) = none := by
          refine List.find?_eq_none.2 fun h hh hc => ?_
          have h0 := congrArg (·.testBit n) (hf h hh)
          simp [Nat.testBit_and, FieldDesc.testBit_bits, hn, hc] at h0
        simp [hn, none_t]
      · have : (g f).testBit n = false := by
          by_contra hc
          exact hn (bit (by simpa using hc))
        rw [List.find?_cons_of_neg (by simpa using hn), this, Bool.or_false]
    · intro h hh
      refine Nat.eq_of_testBit_eq fun i => ?_
      rw [Nat.testBit_and, testBit_add_of_disjoint apart, Nat.zero_testBit]
      have h1 := congrArg (·.testBit i) (ha h (by simp [hh]))
      have h2 := congrArg (·.testBit i) (hf h hh)
      have h3 : (g f).testBit i = true → f.bits.testBit i = true := fun hc => by rw [FieldDesc.testBit_bits, bit hc]
      simp only [Nat.testBit_and, Nat.zero_testBit] at h1 h2
      cases hb : h.bits.testBit i <;> simp_all

theorem testBit_kindBits (k : RegKind) (p : Acc → Bool) (n : Nat) :
    (kindBits k p).testBit n = (k.fieldAt n).any fun f => p f.acc := by
  have filtered (l : List FieldDesc) (a : Nat) : (l.filter fun f => p f.acc).foldl (fun a f => a + f.bits) a =
      l.foldl (fun a f => a + if p f.acc then f.bits else 0) a := by
    induction l generalizing a with
    | nil => rfl
    | cons f t ih => by_cases h : p f.acc <;> simp [h, ih]
  rw [kindBits, filtered, testBit_sum k.fields_apart _ (fun f => by split <;> simp) (by simp), RegKind.fieldAt,
    Nat.zero_testBit, Bool.false_or]
  cases h : k.desc.fields.find? (fun f : FieldDesc => f.covers n) with
  | none => rfl
  | some f =>
    have hf : f.covers n = true := List.find?_some (p := fun f : FieldDesc => f.covers n) h
    by_cases hp : p f.acc <;> simp [hp, FieldDesc.testBit_bits, hf]

theorem testBit_namedBits (k : RegKind) (n : Nat) : (namedBits k).testBit n = (k.fieldAt n).isSome := by
  rw [namedBits, testBit_kindBits]
  cases k.fieldAt n <;> rfl

/-! What a write asks of a bit and stores in it. -/

theorem testBit_asked (k : RegKind) (old data mask n : Nat) : (asked k old data mask).testBit n =
    if mask.testBit n && (k.fieldAt n).any (fun f => f.acc != .RO) then data.testBit n else old.testBit n := by
  have ro : kindBits k (fun a => decide (a = .RO)) = namedBits k &&& kindBits k (fun a => decide (a = .RO)) :=
    Nat.eq_of_testBit_eq fun i => by
      rw [Nat.testBit_and, testBit_kindBits, testBit_namedBits]
      cases k.fieldAt i <;> simp
  rw [asked, testBit_maskIn, Nat.testBit_and, ro, testBit_sub_and, testBit_namedBits, testBit_kindBits]
  cases k.fieldAt n <;> simp [bne]

/-- What an accepted write leaves in a bit, by its field's access type (Table 0.3). -/
def Acc.stores : Acc → Bool → Bool → Bool → Bool
  | .RW, old, data, mask | .RWS, old, data, mask | .RWL, old, data, mask => if mask then data else old
  | .RW1C, old, data, mask => old && !(data && mask)
  | .RW1S, old, data, mask => old || (data && mask)
  | .RO, old, _, _ | .WO, old, _, _ => old

/-- What an accepted write makes of one field. -/
def FieldDesc.store (f : FieldDesc) (data mask a : Nat) : Nat :=
  let one := data &&& mask &&& f.bits
  match f.acc with
  | .RW | .RWS | .RWL => maskIn a data (mask &&& f.bits)
  | .RW1C => a - (a &&& one)
  | .RW1S => a - (a &&& one) + one
  | .RO | .WO => a

theorem stored_eq (k : RegKind) (old data mask : Nat) :
    stored k old data mask = k.desc.fields.foldl (fun a f => f.store data mask a) old := rfl

theorem FieldDesc.testBit_store (f : FieldDesc) (data mask a n : Nat) : (f.store data mask a).testBit n =
    if f.covers n then f.acc.stores (a.testBit n) (data.testBit n) (mask.testBit n) else a.testBit n := by
  have set (a one : Nat) : a - (a &&& one) + one = maskIn a one one := by simp [maskIn]
  cases h : f.acc <;> simp only [FieldDesc.store, h, set, testBit_maskIn, testBit_sub_and, Nat.testBit_and,
    FieldDesc.testBit_bits, Acc.stores] <;> cases f.covers n <;> cases mask.testBit n <;> cases data.testBit n <;> simp

theorem testBit_stored (k : RegKind) (old data mask n : Nat) : (stored k old data mask).testBit n =
    match k.fieldAt n with
    | some f => f.acc.stores (old.testBit n) (data.testBit n) (mask.testBit n)
    | none => old.testBit n := by
  have fold (l : List FieldDesc) (hl : Apart l) (a : Nat) :
      (l.foldl (fun a f => f.store data mask a) a).testBit n = match l.find? (·.covers n) with
        | some f => f.acc.stores (a.testBit n) (data.testBit n) (mask.testBit n)
        | none => a.testBit n := by
    induction l generalizing a with
    | nil => rfl
    | cons f t ih =>
      obtain ⟨hf, ht⟩ := List.pairwise_cons.1 hl
      rw [List.foldl_cons, ih ht, FieldDesc.testBit_store]
      by_cases hn : f.covers n = true
      · have none_t : t.find? (·.covers n) = none := by
          refine List.find?_eq_none.2 fun h hh hc => ?_
          have h0 := congrArg (·.testBit n) (hf h hh)
          simp [Nat.testBit_and, FieldDesc.testBit_bits, hn, hc] at h0
        simp [hn, none_t]
      · simp [hn]
  rw [stored_eq, fold _ k.fields_apart, RegKind.fieldAt]

theorem Acc.stores_congr (a : Acc) (old : Bool) {d d' m : Bool} (h : (d && m) = (d' && m)) :
    a.stores old d m = a.stores old d' m := by
  cases m
  · cases a <;> simp [Acc.stores]
  · simp only [Bool.and_true] at h
    rw [h]

/-- What a register stores depends on the data and the mask in its fields alone. -/
theorem stored_congr {k : RegKind} {old d d' m m' : Nat} (hm : ∀ n, (k.fieldAt n).isSome = true → m.testBit n = m'.testBit n)
    (hd : ∀ n, (k.fieldAt n).isSome = true → (d &&& m).testBit n = (d' &&& m').testBit n) :
    stored k old d m = stored k old d' m' := by
  refine Nat.eq_of_testBit_eq fun n => ?_
  rw [testBit_stored, testBit_stored]
  cases hf : k.fieldAt n with
  | none => rfl
  | some f =>
    have h1 := hm n (by simp [hf])
    have h2 := hd n (by simp [hf])
    simp only [Nat.testBit_and, ← h1] at h2
    rw [← h1]
    exact f.acc.stores_congr _ h2

end Sys2Proof.Machine
end

section
/-!
SUPPORT. What a register holds: the bits that it implements (R6), and the value that an accepted write leaves in it (R424).
-/
namespace Sys2Proof.Machine

-- One declaration at a time: proofs that compute in the kernel wait for it, each with a stack of its own.
set_option Elab.async false

/-! The bits that a register implements. -/

theorem implMask_eq (k : RegKind) : implMask k = kindBits k (· ≠ .WO) :=
  of_decide_eq_true (RegKind.all (p := fun k => decide (implMask k = kindBits k (· ≠ .WO))) (by decide +kernel) k)

theorem testBit_implMask (k : RegKind) (n : Nat) : (implMask k).testBit n = (k.fieldAt n).any fun f => f.acc != .WO := by
  rw [implMask_eq, testBit_kindBits]
  simp only [bne, decide_not, beq_eq_decide]

theorem implMask_named (k : RegKind) : implMask k &&& namedBits k = implMask k := Nat.eq_of_testBit_eq fun n => by
  rw [Nat.testBit_and, testBit_implMask, testBit_namedBits]
  cases k.fieldAt n <;> simp

/-- The reset values of an array are those of its first nine registers. -/
theorem resetVal_first (k : RegKind) (i : Nat) : ∃ j < 9, resetVal ⟨k, i⟩ = resetVal ⟨k, j⟩ := by
  suffices ∃ j < 9, resetExtra ⟨k, i⟩ = resetExtra ⟨k, j⟩ by
    obtain ⟨j, hj, h⟩ := this
    exact ⟨j, hj, by simp only [resetVal, resetNat, h]⟩
  by_cases hp : k = .PWR_DOM_CTL ∨ k = .PWR_DOM_STATUS ∨ k = .TWN_SPN_VCBUF
  · refine ⟨min i 8, by omega, ?_⟩
    rcases Nat.lt_or_ge i 8 with h | h
    · rw [Nat.min_eq_left (by omega)]
    · have h3 : ¬ i < 3 := by omega
      have h0 : i ≠ 0 := by omega
      have none_i : ([2048, 8192, 8192, 16384, 4096, 2048, 2048, 16384] : List Nat)[i]? = none :=
        List.getElem?_eq_none h
      rcases hp with rfl | rfl | rfl <;> simp [resetExtra, Nat.min_eq_right h, h3, h0, none_i]
  by_cases ht : k = .TM_PORT_ST
  · subst ht
    exact ⟨i % 4, by omega, by simp [resetExtra]⟩
  · simp only [not_or] at hp
    refine ⟨0, by omega, ?_⟩
    unfold resetExtra
    split <;> simp_all

theorem resetVal_implMask (r : Reg) : (resetVal r).toNat &&& implMask r.k = (resetVal r).toNat := by
  obtain ⟨k, i⟩ := r
  obtain ⟨j, hj, h⟩ := resetVal_first k i
  have all := List.all_eq_true.1 (RegKind.all
    (p := fun k => (List.range 9).all fun j => decide ((resetVal ⟨k, j⟩).toNat &&& implMask k = (resetVal ⟨k, j⟩).toNat))
    (by decide +kernel) k) j (List.mem_range.2 hj)
  rw [h]
  exact of_decide_eq_true all

/-- A register holds no bit that it does not implement (R6). -/
theorem rd_implMask {m : Mach} (h : regsWf m.regs = true) (r : Reg) : (m.rd r).toNat &&& implMask r.k = (m.rd r).toNat := by
  rcases regGet_masked (r := r) h with he | he
  · rw [Mach.rd, he, resetVal_implMask]
  · exact he

theorem rd_namedBits {m : Mach} (h : regsWf m.regs = true) (r : Reg) : (m.rd r).toNat &&& namedBits r.k = (m.rd r).toNat := by
  rw [← rd_implMask h r, Nat.and_assoc, implMask_named]

theorem stored_implMask {k : RegKind} {old : Nat} (h : old &&& implMask k = old) (data mask : Nat) :
    stored k old data mask &&& implMask k = stored k old data mask := Nat.eq_of_testBit_eq fun n => by
  have hn := congrArg (·.testBit n) h
  simp only [Nat.testBit_and, testBit_implMask] at hn
  rw [Nat.testBit_and, testBit_implMask, testBit_stored]
  cases hf : k.fieldAt n with
  | none => simpa [hf] using hn
  | some f =>
    rw [hf] at hn
    cases ha : f.acc <;> simp_all [Acc.stores]

/-! The register that an address names (R456). -/

/-- The number of registers that the index levels of an array give. -/
def levelCount (l : List (Nat × Nat)) : Nat := l.foldl (fun a l => a * l.1) 1

theorem levelCount_cons (c s : Nat) (l : List (Nat × Nat)) : levelCount ((c, s) :: l) = c * levelCount l := by
  have scaled (l : List (Nat × Nat)) (a : Nat) : l.foldl (fun a l => a * l.1) a = a * levelCount l := by
    induction l generalizing a with
    | nil => simp [levelCount]
    | cons x t ih => simp [levelCount, ih (a * x.1), ih x.1, Nat.mul_assoc]
  rw [levelCount, List.foldl_cons, scaled, Nat.one_mul]

theorem levelIdx_lt {l : List (Nat × Nat)} {o i : Nat} (h : levelIdx l o = some i) : i < levelCount l := by
  induction l generalizing o i with
  | nil =>
    simp only [levelIdx] at h
    split at h <;> simp_all [levelCount]
  | cons x t ih =>
    obtain ⟨c, s⟩ := x
    simp only [levelIdx] at h
    split at h
    · next hc =>
      obtain ⟨j, hj, rfl⟩ := Option.map_eq_some_iff.1 h
      have hj := ih hj
      change o / s * levelCount t + j < _
      rw [levelCount_cons]
      calc o / s * levelCount t + j < o / s * levelCount t + levelCount t := by omega
        _ = (o / s + 1) * levelCount t := by rw [Nat.add_mul, Nat.one_mul]
        _ ≤ c * levelCount t := Nat.mul_le_mul_right _ hc
    · cases h

theorem regAt_index {a : Nat} {r : Reg} (h : regAt a = some r) : r.i < r.k.count := by
  obtain ⟨k, -, hk⟩ := List.exists_of_findSome?_eq_some h
  split at hk
  · cases hk
  · obtain ⟨i, hi, rfl⟩ := Option.map_eq_some_iff.1 hk
    exact levelIdx_lt hi

/-! What the tests of an accepted write say of it (R424). -/

theorem limit_ne_ok (b : Blk) : b.limit ≠ rcOK := by cases b <;> decide

theorem busy_ne_ok (b : Blk) : b.busy ≠ rcOK := by cases b <;> decide

section
variable {m : Mach} {p : Path} {r : Reg} {data mask : Nat}

theorem writeTest_reserved (h : data &&& mask &&& namedBits r.k ≠ data &&& mask) :
    writeTest m r data mask p = r.k.desc.blk.limit := by
  simp only [writeTest]
  rw [if_pos h]

/-- An accepted write sets no reserved bit (R6). -/
theorem writeTest_named (h : writeTest m r data mask p = rcOK) : data &&& mask &&& namedBits r.k = data &&& mask := by
  by_contra hn
  exact limit_ne_ok _ ((writeTest_reserved hn).symm.trans h)

/-- An accepted write is of a register that software can write (R424). -/
theorem writeTest_writable (h : writeTest m r data mask p = rcOK) : kindBits r.k (· ≠ .RO) ≠ 0 := by
  intro hk
  have hn := writeTest_named h
  simp only [writeTest] at h
  rw [if_neg (by simpa using hn)] at h
  split at h
  · exact busy_ne_ok _ h
  · exact limit_ne_ok _ h

theorem writable_ne {k : RegKind} (h : kindBits k (· ≠ .RO) ≠ 0) :
    k ≠ .GLB_CAP0 ∧ k ≠ .GLB_CAP1 ∧ k ≠ .GLB_STRUCT_STATUS ∧ k ≠ .DBG_TRACE_STATUS := by
  refine ⟨?_, ?_, ?_, ?_⟩ <;> rintro rfl <;> exact h (by decide +kernel)

end

/-- What the hardware stores in a register that it can store is what the register then holds. -/
theorem rd_store {m : Mach} (h : regsWf m.regs = true) {r : Reg} (hi : r.i < r.k.count) (hw : hardwired r = false) {v : Nat}
    (hv : v &&& implMask r.k = v) : (((Upd.reg r (BitVec.ofNat 64 v)).apply m).rd r).toNat = v := by
  have small : implMask r.k < 2 ^ 64 := of_decide_eq_true
    (RegKind.all (p := fun k => decide (implMask k < 2 ^ 64)) (by decide +kernel) r.k)
  have hlt : v < 2 ^ 64 := by
    rw [← hv]
    exact lt_of_le_of_lt Nat.and_le_right small
  rw [Mach.rd, Upd.apply_regs]
  simp only [regGet_regStore_same h hi hw, BitVec.toNat_ofNat, Nat.mod_eq_of_lt hlt, hv]

theorem rd_store_other {m : Mach} {r q : Reg} {v : Word} (h : q ≠ r) : ((Upd.reg r v).apply m).rd q = m.rd q := by
  simp [Mach.rd, regGet_regStore_other h]

end Sys2Proof.Machine
end

section
/-!
SUPPORT. One register write, step by step (R424): what an accepted write runs, and what a refused one does.
-/
namespace Sys2Proof.Machine

/-! Programs from the block as it stands. -/

section
variable {α β : Type} {S T : Upd → Bool} {m m' : Mach}

/-- Two programs run alike from a block. -/
def SameAt (m : Mach) (x y : P α) : Prop := ∀ k, Prog.run (x k) m = Prog.run (y k) m

theorem RunsIn.same {x y : P α} (h : SameAt m x y) (hy : RunsIn S y m) : RunsIn S x m := fun k =>
  let ⟨a, m', h1, v1⟩ := hy k
  ⟨a, m', (h k).trans h1, v1⟩

theorem RunsIn.pure (a : α) : RunsIn S (pure a : P α) m := (Only.pure a).runsIn m

theorem RunsIn.getM {f : Mach → P α} (h : RunsIn S (f m) m) : RunsIn S (getM >>= f) m := h

/-- The program leads to a block of which `Q` holds, and what follows it runs there. -/
def Ends (x : P α) (m : Mach) (Q : α → Mach → Prop) : Prop :=
  ∀ k, ∃ a m', Prog.run (x k) m = Prog.run (k a) m' ∧ Q a m'

theorem RunsIn.ends {x : P α} (h : RunsIn S x m) : Ends x m fun _ => Via S m := h

theorem Ends.imp {x : P α} {Q R : α → Mach → Prop} (h : Ends x m Q) (hQR : ∀ a m', Q a m' → R a m') : Ends x m R := fun k =>
  let ⟨a, m', h1, q⟩ := h k
  ⟨a, m', h1, hQR a m' q⟩

theorem Ends.getM {f : Mach → P α} {Q : α → Mach → Prop} (h : Ends (f m) m Q) : Ends (getM >>= f) m Q := h

/-- What follows runs from a block that the first part leads to. -/
theorem Ends.bind {x : P α} {f : α → P β} {Q : α → Mach → Prop} {R : β → Mach → Prop} (hx : Ends x m Q)
    (hf : ∀ a m', Q a m' → Ends (f a) m' R) : Ends (x >>= f) m R := fun k =>
  let ⟨a, m1, h1, q⟩ := hx fun a => f a k
  let ⟨b, m2, h2, q2⟩ := hf a m1 q k
  ⟨b, m2, h1.trans h2, q2⟩

theorem RunsIn.bind {x : P α} {f : α → P β} {Q : α → Mach → Prop} (hx : Ends x m fun a m' => Via S m m' ∧ Q a m')
    (hf : ∀ a m', Q a m' → RunsIn S (f a) m') : RunsIn S (x >>= f) m :=
  Ends.bind hx fun a m' q => (hf a m' q.2).ends.imp fun _ _ => q.1.trans

theorem RunsIn.seq {x : P α} {f : α → P β} (hx : RunsIn S x m) (hf : ∀ a, Only S (f a)) : RunsIn S (x >>= f) m :=
  Ends.bind hx fun a m' v => ((hf a).runsIn m').ends.imp fun _ _ => v.trans

theorem RunsIn.ite {c : Prop} [Decidable c] {x y : P α} (hx : c → RunsIn S x m) (hy : ¬c → RunsIn S y m) :
    RunsIn S (if c then x else y) m := by
  split
  · next h => exact hx h
  · next h => exact hy h

theorem RunsIn.onlyIf {c : Prop} [Decidable c] {x : P Unit} (hx : c → RunsIn S x m) : RunsIn S (onlyIf c x) m :=
  RunsIn.ite hx fun _ => RunsIn.pure ()

theorem RunsIn.mono {x : P α} (h : RunsIn S x m) (hST : ∀ u, S u = true → T u = true) : RunsIn T x m := fun k =>
  let ⟨a, m', h1, v1⟩ := h k
  ⟨a, m', h1, v1.mono hST⟩

end

/-! The merge of one write (R425). -/

variable {m : Mach} {p : Path} {r : Reg} {w : CtlWrite}

theorem fieldWinner_one (x : Pend) (f : FieldDesc) : fieldWinner [x] f = if x.cov f ≠ 0 then some x else none := by
  by_cases h : x.cov f = 0 <;> simp [fieldWinner, h]

theorem discards_one (k : RegKind) (old : Nat) (x : Pend) : discards k old [x] = [] := by
  have none_lost : (k.desc.fields.filter fun f => f.acc ≠ .RO && x.cov f ≠ 0 && (fieldWinner [x] f).any fun y =>
      y ≠ x && maskIn old y.w.data.toNat (y.cov f) &&& f.bits ≠ maskIn old x.w.data.toNat (x.cov f) &&& f.bits) = [] :=
    List.filter_eq_nil_iff.2 fun f _ => by
      rw [fieldWinner_one]
      by_cases h : x.cov f = 0 <;> simp [h]
  simp only [discards, List.filterMap_cons, List.filterMap_nil, none_lost]

/-- The parts of a value in a register's fields make up what lies in them. -/
theorem sum_named (k : RegKind) (v : Nat) : k.desc.fields.foldl (fun a f => a + (v &&& f.bits)) 0 = v &&& namedBits k :=
  Nat.eq_of_testBit_eq fun n => by
    rw [testBit_sum k.fields_apart _ (fun f => by simp) (by simp), Nat.testBit_and, testBit_namedBits,
      RegKind.fieldAt]
    cases h : k.desc.fields.find? (fun f : FieldDesc => f.covers n) with
    | none => simp
    | some f =>
      have hf : f.covers n = true := List.find?_some (p := fun f : FieldDesc => f.covers n) h
      simp [FieldDesc.testBit_bits, hf]

/-- A write alone holds of its data and its mask what lies in the register's fields. -/
theorem merged_one (k : RegKind) (x : Pend) : merged k [x] =
    (x.w.data.toNat &&& x.w.mask.toNat &&& namedBits k, x.w.mask.toNat &&& namedBits k) := by
  have fold (l : List FieldDesc) (a : Nat × Nat) : l.foldl (fun a f => match fieldWinner [x] f with
      | some y => (a.1 + (y.w.data.toNat &&& y.cov f), a.2 + y.cov f)
      | none => a) a = (l.foldl (fun a f => a + (x.w.data.toNat &&& x.w.mask.toNat &&& f.bits)) a.1,
        l.foldl (fun a f => a + (x.w.mask.toNat &&& f.bits)) a.2) := by
    induction l generalizing a with
    | nil => rfl
    | cons f t ih =>
      simp only [List.foldl_cons]
      rw [ih, fieldWinner_one]
      have cov : x.cov f = x.w.mask.toNat &&& f.bits := rfl
      by_cases h : x.w.mask.toNat &&& f.bits = 0 <;> simp [h, cov, Nat.and_assoc]
  have split_sum := fold k.desc.fields (0, 0)
  rw [sum_named, sum_named] at split_sum
  exact split_sum

/-- What a write asks for does not depend on its data and its mask beyond the register's fields. -/
theorem asked_named (k : RegKind) (old data mask : Nat) :
    asked k old (data &&& mask &&& namedBits k) (mask &&& namedBits k) = asked k old data mask :=
  Nat.eq_of_testBit_eq fun n => by
    simp only [testBit_asked, Nat.testBit_and, testBit_namedBits]
    cases k.fieldAt n <;> cases mask.testBit n <;> simp

theorem stored_named (k : RegKind) (old data mask : Nat) :
    stored k old (data &&& mask &&& namedBits k) (mask &&& namedBits k) = stored k old data mask := by
  refine stored_congr (fun n hn => ?_) fun n hn => ?_ <;> simp only [Nat.testBit_and, testBit_namedBits, hn, Bool.and_true]
  cases mask.testBit n <;> simp

/-! What a write of one register runs. -/

/-- What an accepted write of one register runs. -/
def writeOne (w : CtlWrite) (r : Reg) : P Unit := do
  let m ← getM
  trace 0 (pathCode m w.path) 0 w.addr w.data w.mask
  regApply r (w.data.toNat &&& w.mask.toNat &&& namedBits r.k) (w.mask.toNat &&& namedBits r.k) w.path
  onlyIf (r.k = .TWN_CTL ∧ bitsAt (w.data.toNat &&& w.mask.toNat &&& namedBits r.k &&& (w.mask.toNat &&& namedBits r.k)) 0 1
    = 1) (onlyIf (bitsAt (w.data.toNat &&& w.mask.toNat) 2 1 = 1) (refuse r w rcTWN_BUSY))

theorem mergeApply_one (m : Mach) (w : CtlWrite) (r : Reg) :
    SameAt m (mergeApply [⟨w, r⟩]) (do writeOne w r; return []) := fun k => by
  simp only [mergeApply, withdraw, writeOne, merged_one, discards_one, List.length_singleton, getM_at, bind_at, run_look,
    Nat.lt_add_one, if_true, pure_at, List.any_nil, each_cons, each_nil]
  by_cases h : bitsAt (w.data.toNat &&& w.mask.toNat) 2 1 = 1 <;> simp [h]

theorem eraseDups_one (r : Reg) : [r].eraseDups = [r] := by simp [List.eraseDups_cons]

/-- A write that is admitted ends as the write of its register does. -/
theorem regWrite_admitted {Q : Unit → Mach → Prop} (h : SameAt m (admitWrite w) (pure [⟨w, r⟩])) (hw : Ends (writeOne w r) m Q) :
    Ends (regWrite [w]) m Q := fun k => by
  have admitted (k : List Pend → Prog) : Prog.run (admitWrite w k) m = Prog.run (k [⟨w, r⟩]) m := h k
  simp only [regWrite, gather, bind_at, admitted, pure_at, getM_at, run_look, List.append_nil, List.map_cons, List.map_nil,
    eraseDups_one, decide_true, List.filter_cons_of_pos, List.filter_nil, List.foldl_cons, List.foldl_nil, byRank]
  rw [show Prog.run (mergeApply [⟨w, r⟩] fun ds => conflict ds k) m = _ from mergeApply_one m w r fun ds => conflict ds k]
  exact hw fun _ => conflict [] k

/-- A write that is not admitted ends as what refuses it does. -/
theorem regWrite_refused {x : P Unit} {Q : Unit → Mach → Prop} (h : SameAt m (admitWrite w) (do x; return []))
    (hx : Ends x m Q) : Ends (regWrite [w]) m Q := fun k => by
  have refused (k : List Pend → Prog) : Prog.run (admitWrite w k) m = Prog.run (x fun _ => k []) m := h k
  simp only [regWrite, gather, bind_at, refused, pure_at]
  exact hx _

/-! Which writes are admitted (R424, R459). -/

/-- The address of a register is a multiple of 8. -/
theorem regAt_aligned {a : Nat} (h8 : a % 8 = 0) (hr : regAt a = some r) : regAt (a / 8 * 8) = some r := by
  rw [Nat.div_mul_cancel (Nat.dvd_of_mod_eq_zero h8), hr]

/-- The reason that a mapped register's write is refused with: on a tenant control page, a register that is not its own. -/
def reasonOf (m : Mach) (p : Path) (r : Reg) (data mask : Nat) : Nat :=
  if isPage p = true ∧ r.k ≠ .TEN_VIOL ∧ r.k ≠ .TEN_OBJ_SEL then rcKRB_LIMIT else writeTest m r data mask p

/-- What becomes of the write of a mapped register whose tenant page, where it comes over one, is its own. -/
def admitOne (m : Mach) (w : CtlWrite) (r : Reg) : P (List Pend) :=
  if reaches m w.path w.addr true (w.data.toNat &&& w.mask.toNat) = false then do
    accessRefused w 0
    return []
  else if reasonOf m w.path r w.data.toNat w.mask.toNat = rcOK then return [⟨w, r⟩]
  else do
    refuse r w (reasonOf m w.path r w.data.toNat w.mask.toNat)
    return []

theorem admitWrite_own {data mask : Word} (h8 : r.addr % 8 = 0) (hat : regAt r.addr = some r) (hap : r.k ≠ .TEN_OBJ_DATA)
    (own : isPage p = true → reaches m p r.addr true 0 = true) :
    SameAt m (admitWrite ⟨p, r.addr, 8, data, mask⟩) (admitOne m ⟨p, r.addr, 8, data, mask⟩ r) := fun k => by
  simp only [admitWrite, admitOne, reasonOf, bind_at, getM_at, run_look, regAt_aligned h8 hat]
  split
  · rw [if_pos (own rfl)]
    simp only [h8, hap, ne_eq, not_true_eq_false, or_self, if_false]
  · simp only [h8, hap, ne_eq, not_true_eq_false, or_self, if_false]

/-- A write that lands is admitted. -/
theorem admit_lands {data mask : Word} (h : Lands m p r data.toNat mask.toNat) :
    SameAt m (admitWrite ⟨p, r.addr, 8, data, mask⟩) (pure [⟨⟨p, r.addr, 8, data, mask⟩, r⟩]) := fun k => by
  obtain ⟨⟨h8, hat⟩, hpage, hap, hreach, htest, -⟩ := h
  have page : ¬(isPage p = true ∧ r.k ≠ .TEN_VIOL ∧ r.k ≠ .TEN_OBJ_SEL) := fun ⟨hp, h1, h2⟩ =>
    (hpage hp).elim h1 h2
  have own : isPage p = true → reaches m p r.addr true 0 = true := fun hp => by
    cases p with
    | tenantPage v s => exact hreach
    | _ => cases hp
  rw [admitWrite_own h8 hat hap own k, admitOne, if_neg (by simp [hreach]), reasonOf, if_neg page, if_pos htest]

/-- What a refused write can change (R424, R459). -/
def Feet.refusedWrite : Mask := Feet.dbForeign.plus [Feet.pathRefused, Feet.trace, Feet.refuse]

theorem accessRefused_only (w : CtlWrite) (cause : Nat) : Only Feet.refusedWrite.has (accessRefused w cause) :=
  Only.bind Only.getM fun _ => Only.bind ((pathRefused_only _ _ _ _).le (by decide +kernel)) fun _ =>
    (trace_only _ _ _ _ _ _).le (by decide +kernel)

/-- A write that its path or a test refuses is recorded, and not admitted. -/
theorem admit_refused {data mask : Word} (h8 : r.addr % 8 = 0) (hat : regAt r.addr = some r) (hap : r.k ≠ .TEN_OBJ_DATA)
    (hpage : isPage p = true → r.k ≠ .TEN_VIOL ∧ r.k ≠ .TEN_OBJ_SEL)
    (h : isPage p = true ∨ reaches m p r.addr true (data.toNat &&& mask.toNat) = false ∨
      writeTest m r data.toNat mask.toNat p ≠ rcOK) :
    ∃ x, SameAt m (admitWrite ⟨p, r.addr, 8, data, mask⟩) (do x; return []) ∧ Only Feet.refusedWrite.has x := by
  by_cases own : isPage p = true → reaches m p r.addr true 0 = true
  · by_cases hreach : reaches m p r.addr true (data.toNat &&& mask.toNat) = false
    · refine ⟨_, fun k => ?_, accessRefused_only ⟨p, r.addr, 8, data, mask⟩ 0⟩
      rw [admitWrite_own h8 hat hap own k, admitOne, if_pos hreach]
    · have reason : reasonOf m p r data.toNat mask.toNat ≠ rcOK := by
        by_cases hp : isPage p = true
        · rw [reasonOf, if_pos ⟨hp, hpage hp⟩]
          decide
        · rw [reasonOf, if_neg (by simp [hp])]
          exact (h.resolve_left hp).resolve_left hreach
      refine ⟨_, fun k => ?_, (refuse_only r ⟨p, r.addr, 8, data, mask⟩ (reasonOf m p r data.toNat mask.toNat)).le
        (by decide +kernel)⟩
      rw [admitWrite_own h8 hat hap own k, admitOne, if_neg hreach, if_neg reason]
  · obtain ⟨hp, hf⟩ := Classical.not_imp.1 own
    cases p with
    | tenantPage v s =>
      refine ⟨_, fun k => ?_, (dbForeign_only s 0xFFFF).le (by decide +kernel)⟩
      simp only [admitWrite, bind_at, getM_at, run_look, hf, Bool.false_eq_true, if_false]
    | _ => cases hp

end Sys2Proof.Machine
end

section
/-!
SUPPORT. What an accepted write of one register leads to (R424): the register holds what its fields' access types make of the
write, and what the register's effect changes follows.
-/
namespace Sys2Proof.Machine

variable {m m1 : Mach} {p : Path} {r : Reg} {data mask : Word} {A : Mask} {l : List Reg}

/-- What a write of `data` under `mask` leaves in a register. -/
def written (m : Mach) (r : Reg) (data mask : Nat) : Nat := stored r.k (m.rd r).toNat data mask

/-- Whether a write changes a locked field (R30). -/
def locks (m : Mach) (r : Reg) (data mask : Nat) : Bool :=
  changesRwl r.k (m.rd r).toNat (asked r.k (m.rd r).toNat data mask)

/-- The block as the effect of a write finds it: the register is stored, and the others stand. -/
structure Written (m : Mach) (r : Reg) (data mask : Nat) (m1 : Mach) : Prop where
  wf : regsWf m1.regs = true
  stored : (m1.rd r).toNat = written m r data mask
  others : ∀ q, q ≠ r → q.k ≠ .DBG_TRACE_STATUS → q.k ≠ .GLB_STRUCT_STATUS → m1.rd q = m.rd q

theorem hasReg_trace {k : RegKind} (h : k ≠ .DBG_TRACE_STATUS) : Feet.trace.hasReg k = false := by
  cases k <;> first | rfl | exact absurd rfl h

theorem Lands.writable (h : Lands m p r data.toNat mask.toNat) :
    hardwired r = false ∧ r.k ≠ .GLB_STRUCT_STATUS ∧ r.k ≠ .DBG_TRACE_STATUS := by
  obtain ⟨h0, h1, h2, h3⟩ := writable_ne (writeTest_writable h.test)
  exact ⟨by simp [hardwired, h0, h1], h2, h3⟩

/-- The store of an accepted write. -/
theorem Lands.store (hc : regsWf m.regs = true) (h : Lands m p r data.toNat mask.toNat) (v : Via Feet.trace.has m m1) :
    Written m r data.toNat mask.toNat ((Upd.reg r (BitVec.ofNat 64 (written m r data.toNat mask.toNat))).apply m1) where
  wf := regStore_wf (v.regs_wf hc)
  stored := rd_store (v.regs_wf hc) (regAt_index h.mapped.2) h.writable.1 (stored_implMask (rd_implMask hc r) _ _)
  others q hq hd _ := by rw [rd_store_other hq, v.rd_eq q fun _ => by rw [Mask.has_reg]; exact hasReg_trace hd]

/-- MODIFIED is no register that a write stores. -/
theorem Written.modified {d k : Nat} (w : Written m r d k m1) (h : r.k ≠ .GLB_STRUCT_STATUS) :
    Written m r d k (m1.set GLB_STRUCT_STATUS_MODIFIED 1) := by
  have ne {q : Reg} (hq : q.k ≠ .GLB_STRUCT_STATUS) : q ≠ ⟨GLB_STRUCT_STATUS_MODIFIED.k, GLB_STRUCT_STATUS_MODIFIED.i⟩ :=
    fun e => hq (congrArg Reg.k e)
  refine ⟨set_wf w.wf, ?_, fun q hq hd hk => (rd_store_other (ne hk)).trans (w.others q hq hd hk)⟩
  rw [← w.stored, Mach.set, rd_store_other (ne h)]

/-- Where no FAULTY object waits for a register, its write restarts none (R358). -/
theorem ctxWritten_whole (h : ∀ f ∈ m.faulty, r ∉ f.left) : SameAt m (ctxWritten r) (pure ()) := fun k => by
  have none_left : m.faulty.filter (fun f => f.left.contains r) = [] :=
    List.filter_eq_nil_iff.2 fun f hf => by simpa using h f hf
  simp only [ctxWritten, bind_at, getM_at, run_look, none_left, each_nil]

/-- A refusal that the structural enable does not show is told and traced. -/
theorem refuse_told (w : CtlWrite) (reason : Nat) (h : r.k ≠ .GLB_STRUCT_CTL) (hr : Feet.raise.le A = true)
    (ht : Feet.trace.le A = true) : Only A.has (refuse r w reason) :=
  Only.bind Only.getM fun _ => Only.bind ((writeRefused_only _ _ _ _).le hr) fun _ =>
    Only.bind ((trace_only _ _ _ _ _ _).le ht) fun _ => Only.onlyIf' fun h' => absurd h'.1 h

/-- What a write of a register may change: the register, the trace, MODIFIED where it changes a locked field, and what is told
where a fence refuses the yield that it came with. -/
structure Room (A : Mask) (l : List Reg) (m : Mach) (r : Reg) (data mask : Nat) : Prop where
  reg : A.hasReg r.k = true ∨ r ∈ l
  trace : Feet.trace.le A = true
  faulty : A.hasTab .faulty = false
  modified : locks m r data mask = false ∨ A.hasReg .GLB_STRUCT_STATUS = true
  told : r.k = .TWN_CTL → bitsAt (data &&& mask) 0 1 = 1 → bitsAt (data &&& mask) 2 1 = 1 → Feet.raise.le A = true

theorem cut_named {d k n : Nat} (h : d &&& k &&& n = d &&& k) : d &&& k &&& n &&& (k &&& n) = d &&& k := by
  rw [h, ← Nat.and_assoc, Nat.and_assoc d k k, Nat.and_self, h]

/-- What an accepted write applies to its register. -/
theorem regApply_ends {Q : Mach → Prop} (hc : regsWf m.regs = true) (h : Lands m p r data.toNat mask.toNat)
    (room : Room A l m r data.toNat mask.toNat) (v : Via Feet.trace.has m m1)
    (hE : ∀ m2, Written m r data.toNat mask.toNat m2 → Ends (regEffect r (m.rd r).toNat (data.toNat &&& mask.toNat)
      (mask.toNat &&& namedBits r.k) p) m2 fun _ m3 => Via (At.has A l) m2 m3 ∧ Q m3) :
    Ends (regApply r (data.toNat &&& mask.toNat &&& namedBits r.k) (mask.toNat &&& namedBits r.k) p) m1
      fun _ m3 => Via (At.has A l) m1 m3 ∧ Q m3 := by
  have old : m1.rd r = m.rd r := v.rd_eq r fun _ => by rw [Mask.has_reg]; exact hasReg_trace h.writable.2.2
  have whole : ∀ m3, Via (At.has A l) m1 m3 → ∀ f ∈ m3.faulty, r ∉ f.left := fun m3 v3 => by
    have h1 : m1.faulty = m.faulty := v.keep (·.faulty) fun u m hu => Upd.apply_faulty m u fun ht => by
      rw [Mask.has_tab ht] at hu; exact absurd hu (by decide +kernel)
    have h3 : m3.faulty = m1.faulty := v3.keep (·.faulty) fun u m hu => Upd.apply_faulty m u fun ht => by
      rw [At.has_tab ht, room.faulty] at hu; exact absurd hu (by decide)
    rw [h3, h1]
    exact h.whole
  have stores : At.has A l (.reg r (BitVec.ofNat 64 (written m r data.toNat mask.toNat))) = true := by
    simp only [At.has, Mask.has_reg, Bool.or_eq_true, decide_eq_true_eq]
    exact room.reg
  -- the effect, from the block that holds what was written
  have effect {m2 : Mach} (v2 : Via (At.has A l) m1 m2) (hw : Written m r data.toNat mask.toNat m2) :
      Ends (do regEffect r (m.rd r).toNat (data.toNat &&& mask.toNat) (mask.toNat &&& namedBits r.k) p; ctxWritten r) m2
        fun _ m3 => Via (At.has A l) m1 m3 ∧ Q m3 :=
    (hE m2 hw).bind fun _ m3 q => fun k => ⟨(), m3, ctxWritten_whole (whole m3 (v2.trans q.1)) k, v2.trans q.1, q.2⟩
  intro k
  simp only [regApply, wrReg, bind_at, getM_at, run_look, doU_at, run_upd, old, stored_named, asked_named,
    cut_named (writeTest_named h.test), onlyIf_at]
  have hw := h.store hc v
  split
  · next hl =>
    have v2 : Via (At.has A l) m1
        (((Upd.reg r (BitVec.ofNat 64 (written m r data.toNat mask.toNat))).apply m1).set GLB_STRUCT_STATUS_MODIFIED 1) := by
      refine .head stores (.head ?_ (.refl _))
      have := room.modified.resolve_left (by simp [locks, hl.1])
      simp only [At.has, Mask.has_reg, Bool.or_eq_true]
      exact .inl this
    exact effect v2 (hw.modified h.writable.2.1) k
  · exact effect (.head stores (.refl _)) hw k

/-- What an accepted write of one register runs, and what it leaves. -/
theorem writeOne_ends {Q : Mach → Prop} (hc : regsWf m.regs = true) (h : Lands m p r data.toNat mask.toNat)
    (room : Room A l m r data.toNat mask.toNat)
    (hE : ∀ m2, Written m r data.toNat mask.toNat m2 → Ends (regEffect r (m.rd r).toNat (data.toNat &&& mask.toNat)
      (mask.toNat &&& namedBits r.k) p) m2 fun _ m3 => Via (At.has A l) m2 m3 ∧ Q m3) :
    Ends (writeOne ⟨p, r.addr, 8, data, mask⟩ r) m fun _ m3 => Via (At.has A l) m m3 ∧ (r.k ≠ .TWN_CTL → Q m3) := by
  have traced : Ends (trace 0 (pathCode m p) 0 r.addr data mask) m fun _ m1 => Via Feet.trace.has m m1 :=
    (trace_only _ _ _ _ _ _).runsIn m
  refine Ends.getM (traced.bind fun _ m1 v => (regApply_ends hc h room v hE).bind fun _ m3 ⟨v3, q⟩ => ?_)
  have v1 : Via (At.has A l) m m3 := (v.mono fun u hu => by simp [At.has, Mask.has_mono room.trace u hu]).trans v3
  -- a yield beside a fence is refused
  have yields : Only (At.has A l) (onlyIf (r.k = .TWN_CTL ∧ bitsAt (data.toNat &&& mask.toNat) 0 1 = 1)
      (onlyIf (bitsAt (data.toNat &&& mask.toNat) 2 1 = 1) (refuse r ⟨p, r.addr, 8, data, mask⟩ rcTWN_BUSY))) :=
    Only.onlyIf' fun ht => Only.onlyIf' fun hy => atM (refuse_told _ _ (by rw [ht.1]; decide) (room.told ht.1 ht.2 hy) room.trace)
  rw [cut_named (writeTest_named h.test)]
  by_cases ht : r.k = .TWN_CTL
  · exact (yields.runsIn m3).ends.imp fun _ _ v4 => ⟨v1.trans v4, fun hne => absurd ht hne⟩
  · exact fun k => ⟨(), m3, by simp [ht], v1, fun _ => q⟩

/-- The command's write, where it lands. -/
theorem regWrite_ends {Q : Mach → Prop} (hc : regsWf m.regs = true) (h : Lands m p r data.toNat mask.toNat)
    (room : Room A l m r data.toNat mask.toNat)
    (hE : ∀ m2, Written m r data.toNat mask.toNat m2 → Ends (regEffect r (m.rd r).toNat (data.toNat &&& mask.toNat)
      (mask.toNat &&& namedBits r.k) p) m2 fun _ m3 => Via (At.has A l) m2 m3 ∧ Q m3) :
    Ends (regWrite [⟨p, r.addr, 8, data, mask⟩]) m fun _ m3 => Via (At.has A l) m m3 ∧ (r.k ≠ .TWN_CTL → Q m3) :=
  regWrite_admitted (admit_lands h) (writeOne_ends hc h room hE)

theorem regWrite_runsIn (hc : regsWf m.regs = true) (h : Lands m p r data.toNat mask.toNat)
    (room : Room A l m r data.toNat mask.toNat)
    (hE : ∀ m2, Written m r data.toNat mask.toNat m2 → RunsIn (At.has A l) (regEffect r (m.rd r).toNat
      (data.toNat &&& mask.toNat) (mask.toNat &&& namedBits r.k) p) m2) :
    RunsIn (At.has A l) (regWrite [⟨p, r.addr, 8, data, mask⟩]) m :=
  (regWrite_ends (Q := fun _ => True) hc h room fun m2 hw => (hE m2 hw).ends.imp fun _ _ v => ⟨v, trivial⟩).imp
    fun _ _ v => v.1

end Sys2Proof.Machine
end

section
/-!
SUPPORT. What the effect of a register write can change (Table 0.3), register by register: it lies within `writeEffect`.
-/
namespace Sys2Proof.Machine

-- One declaration at a time: proofs that compute in the kernel wait for it, each with a stack of its own.
set_option Elab.async false

/-- The updates that a footprint allows. -/
abbrev Foot.has (F : Foot) : Upd → Bool := At.has F.mask F.objs

section
variable {α : Type} {A : Mask} {B : Foot} {ks ks' : List RegKind} {ts : List Tab} {l os ro : List Reg} {x : P α}

/-- A footprint with the written register beside it. -/
theorem foot_at (h : Only (At.has A l) x) (hl : Cov ((B.and ks ts).and ks' []).mask (os ++ ro) l)
    (hA : A.le ((B.and ks ts).and ks' []).mask = true := by decide +kernel) : Only ((B.and ks ts os).and ks' [] ro).has x :=
  (atLe h hA hl).mono fun u hu => by
    change At.has ((B.and ks ts).and ks' []).mask (B.objs ++ os ++ ro) u = true
    simp only [At.has, Bool.or_eq_true] at hu ⊢
    refine hu.imp id fun hu => ?_
    cases u <;> simp_all

theorem foot_only (h : Only A.has x) (hA : A.le ((B.and ks ts).and ks' []).mask = true := by decide +kernel) :
    Only ((B.and ks ts os).and ks' [] ro).has x := foot_at (l := []) (atM h) trivial hA

theorem foot_objs (h : Only (At.has A l) x) (hl : l ⊆ os ++ ro := by simp)
    (hA : A.le ((B.and ks ts).and ks' []).mask = true := by decide +kernel) : Only ((B.and ks ts os).and ks' [] ro).has x :=
  foot_at h (Cov.of_subset hl) hA

/-- Within a footprint, its registers and things taken as sets. -/
theorem foot_in (h : Only (At.has ((B.and ks ts).and ks' []).mask (os ++ ro)) x) : Only ((B.and ks ts os).and ks' [] ro).has x :=
  foot_objs h (fun _ h => h) (by simp [Mask.le])

theorem foot_quiet (h : Only (At.has (Foot.quiet.and ks' []).mask ro) x) : Only (Foot.quiet.and ks' [] ro).has x := h

end

/-! The operations of an effect, with the registers that they name. -/

section
variable {M : Mask} {l : List Reg}

/-- A thing beside the registers is changed by a function of it. -/
theorem at_mod {γ : Type} {g : Mach → γ} {u : γ → Upd} (t : Tab) (hu : ∀ v, (u v).tab = some t) (h : M.hasTab t = true) :
    Only (At.has M l) (do let v ← (do let m ← getM; pure (g m) : P γ); doU (u v)) :=
  Only.bind (Only.bind Only.getM fun _ => Only.pure _) fun _ => at_doT t (hu _) h

end

/-- The counters of a port are cleared. -/
theorem portCounters_at (p : Nat) : Only (At.has (.of [] []) ([⟨.OCT_PORT_CNT0, p⟩, ⟨.OCT_PORT_CNT1, p⟩] : List Reg))
    (do rstReg .OCT_PORT_CNT0 p; rstReg .OCT_PORT_CNT1 p) :=
  Only.bind (at_rst (by simp)) fun _ => at_rst (by simp)

/-- What `portRetrain` can change, but for the registers of its port. -/
def Feet.portRetrainAt : Mask := (.of [] [.port] : Mask).plus [Feet.trainStartAt]

theorem portRetrain_at (p : Nat) (full : Bool) :
    Only (At.has Feet.portRetrainAt ([⟨.OCT_PORT_IDE, p⟩, ⟨.OCT_PORT_STATUS, p⟩, ⟨.OCT_PORT_TRAIN, p⟩] : List Reg))
      (portRetrain p full) := by
  have mod {f : PortX → PortX} : Only (At.has Feet.portRetrainAt
      ([⟨.OCT_PORT_IDE, p⟩, ⟨.OCT_PORT_STATUS, p⟩, ⟨.OCT_PORT_TRAIN, p⟩] : List Reg)) (modPort p f) :=
    at_mod .port (fun _ => rfl) (by decide +kernel)
  refine Only.bind Only.getM fun m => Only.bind mod fun _ => Only.ite ?_ (Only.onlyIf ?_)
  · exact Only.bind (at_le (linkPolicy_only p) (by decide +kernel)) fun _ => mod
  · exact atLe (trainStart_at p true) (by decide +kernel) (Cov.of_subset fun _ h => h)

/-- What `portEnable` can change, but for the registers of its port. -/
def Feet.portEnableAt : Mask := Feet.portRetrainAt.plus [Feet.portToAt, Feet.linkClearAt, Feet.portFlushAt]

theorem portEnable_at (p : Nat) (on : Bool) :
    Only (At.has Feet.portEnableAt ([⟨.OCT_CRN_CNT_RETURN, p / 4⟩, ⟨.OCT_PORT_CNT0, p⟩, ⟨.OCT_PORT_IDE, p⟩,
      ⟨.OCT_PORT_STATUS, p⟩, ⟨.OCT_PORT_TRAIN, p⟩] : List Reg)) (portEnable p on) := by
  have goes {st : Nat} : Only (At.has Feet.portEnableAt ([⟨.OCT_CRN_CNT_RETURN, p / 4⟩, ⟨.OCT_PORT_CNT0, p⟩,
      ⟨.OCT_PORT_IDE, p⟩, ⟨.OCT_PORT_STATUS, p⟩, ⟨.OCT_PORT_TRAIN, p⟩] : List Reg)) (portTo p st) :=
    atLe (portTo_at p st) (by decide +kernel) (Cov.of_subset (by simp))
  have train : Only (At.has Feet.portEnableAt ([⟨.OCT_CRN_CNT_RETURN, p / 4⟩, ⟨.OCT_PORT_CNT0, p⟩,
      ⟨.OCT_PORT_IDE, p⟩, ⟨.OCT_PORT_STATUS, p⟩, ⟨.OCT_PORT_TRAIN, p⟩] : List Reg)) (trainStart p true) :=
    atLe (trainStart_at p true) (by decide +kernel) (Cov.of_subset (by simp))
  have kick : Only (At.has Feet.portEnableAt ([⟨.OCT_CRN_CNT_RETURN, p / 4⟩, ⟨.OCT_PORT_CNT0, p⟩,
      ⟨.OCT_PORT_IDE, p⟩, ⟨.OCT_PORT_STATUS, p⟩, ⟨.OCT_PORT_TRAIN, p⟩] : List Reg)) (portKick p) :=
    Only.bind Only.getM fun _ => Only.ite (Only.ite goes train) (Only.pure _)
  refine Only.bind Only.getM fun m => Only.ite ?_ (Only.ite ?_ (Only.onlyIf ?_))
  · exact Only.bind (at_wr (by simp)) fun _ => Only.ite kick (Only.onlyIf (Only.bind train fun _ => Only.onlyIf goes))
  · exact atLe (portFlush_at p) (by decide +kernel) (Cov.of_subset (by simp))
  · exact Only.bind (atLe (linkClear_at p) (by decide +kernel) (Cov.of_subset (by simp))) fun _ => goes

/-- A ring that a write disables stops, and keeps what it holds. -/
theorem ringStop_soft (r : Nat) : Only (At.has (.of [] []) ([⟨.RNG_STATUS, r⟩] : List Reg)) (ringStop r false) :=
  Only.bind Only.getM fun _ => Only.ite (Only.bind (at_wr (by simp)) fun _ => Only.pure _) (Only.pure _)

/-- What `sliceOff` can change, but for the registers of its slice. -/
def Feet.sliceOffAt : Mask := .of [.RNG_CTL, .RNG_STATUS] []

theorem sliceOff_at (s : Nat) :
    Only (At.has Feet.sliceOffAt ([⟨.TEN_STATUS, s⟩, ⟨.TM_SRING_CTL, s⟩] : List Reg)) (sliceOff s) :=
  Only.bind Only.getM fun _ => Only.bind (at_wr (by simp)) fun _ =>
    Only.bind (Only.each fun r _ => Only.bind (at_wrK .RNG_CTL rfl (by decide +kernel)) fun _ =>
      atLe (ringStop_soft r) (by decide +kernel) (Cov.cons (.inl (by decide +kernel)) Cov.nil)) fun _ =>
    Only.onlyIf (at_wr (by simp))

theorem gateChange_at (c : Nat) :
    Only (At.has (.of [] []) ([⟨.TM_GATE_CTL, c⟩, ⟨.TM_GATE_SWT, c⟩] : List Reg)) (gateChange c) :=
  Only.bind Only.getM fun _ => Only.bind (at_wr (by simp)) fun _ => at_wr (by simp)

theorem mbGo_at (x : Nat) : Only (At.has Feet.mbDoneAt ([⟨.FWM_MB_CTL, x⟩] : List Reg)) (mbGo x) :=
  Only.bind (at_wr (by simp)) fun _ => Only.bind Only.getM fun _ => Only.onlyIf (mbDone_at _ _ _)

/-- What `slpEffect` can change, but for the registers of its slot. -/
def Feet.slpEffectAt : Mask := Feet.slpLiveAt.plus [Feet.slpAdvanceAt]

theorem slpEffect_at (k : RegKind) (n cmd : Nat) :
    Only (At.has Feet.slpEffectAt ([⟨.OCT_STATUS, n⟩, ⟨.SLP_CNT, n⟩, ⟨.SLP_STATUS, n⟩] : List Reg)) (slpEffect k n cmd) :=
  Only.bind (Only.onlyIf (at_rst (by simp))) fun _ => Only.bind Only.getM fun _ =>
    Only.bind (Only.onlyIf (atLe (slpLive_at n) (by decide +kernel) (Cov.of_subset fun _ h => h))) fun _ =>
      Only.onlyIf (Only.bind (at_wr (by simp)) fun _ =>
        atLe (slpAdvance_at n) (by decide +kernel) (Cov.of_subset fun _ h => h))

end Sys2Proof.Machine
end

section
/-!
SUPPORT. The effect of a write of any register lies within `writeEffect` (Table 0.3).
-/
namespace Sys2Proof.Machine

/-- The name of a register, where no other register has it. -/
def RegKind.single (k : RegKind) : List RegKind := if k.count = 1 then [k] else []

/-- What an accepted write of a register may change: the register, and beside it what its write does. -/
def ownEffect (k : RegKind) (i : Nat) : Foot := (writeEffect ⟨k, i⟩).and k.single [] [⟨k, i⟩]

/-! What each effect can run, by the bits of the command and by what the register then holds. -/

section
variable {S : Upd → Bool} {m : Mach} {i old cmd mask code : Nat}

theorem structEffect_rule (check : bitsAt cmd 1 1 = 1 ∨ m.g GLB_STRUCT_CTL_ENABLE = 1 → ∀ dry, Only S (checkStart dry))
    (disable : bitsAt cmd 1 1 ≠ 1 → m.g GLB_STRUCT_CTL_ENABLE = 0 → Only S disableStart) : RunsIn S (structEffect cmd) m :=
  RunsIn.getM (RunsIn.ite (fun h => (check (.inl h) true).runsIn m) fun h =>
    RunsIn.ite (fun he => (check (.inr he.2) false).runsIn m) fun _ => RunsIn.onlyIf fun he => (disable h he.2).runsIn m)

theorem mldEffect_rule (abort : bitsAt cmd 0 4 = 4 → Only S abortLoad) (load : bitsAt cmd 0 4 ≠ 4 → ∀ c, Only S (loadStart c code)) :
    RunsIn S (mldEffect cmd code) m :=
  RunsIn.ite (fun h => (abort h).runsIn m) fun h => RunsIn.ite (fun _ => (load h _).runsIn m) fun _ => RunsIn.pure ()

theorem spnCtl_rule (clear : bitsAt cmd 2 1 = 1 → Only S (each (List.range 16) fun c => rstReg .TWN_SPN_CNT c))
    (retrain : bitsAt cmd 1 1 = 1 → (∀ f, Only S (modSpn f)) ∧ Only S (spnRecover rvRETRAIN 0)) (kick : Only S spnKick)
    (off : m.g TWN_SPN_CTL_ENABLE ≠ 1 → bitsAt old 0 1 = 1 → Only S spnOff) :
    RunsIn S (linkEffect .TWN_SPN_CTL i old cmd) m := by
  refine RunsIn.getM (RunsIn.seq ((Only.onlyIf' clear).runsIn m) fun _ => ?_)
  refine Only.bind (Only.onlyIf' fun h => Only.ite ((retrain h).1 _) (retrain h).2) fun _ => ?_
  split
  · exact kick
  · next h => exact Only.onlyIf' (off h)

theorem twnEffect_rule (clear : bitsAt cmd 5 1 = 1 → Only S (each (List.range 12) fun c => rstReg .TWN_CNT c))
    (unfences : bitsAt cmd 1 1 = 1 → Only S unfence) (fences : bitsAt cmd 0 1 = 1 → Only S (fence 1))
    (moves : bitsAt cmd 2 1 = 1 → Only S (moveStart 1)) (hands : bitsAt cmd 3 1 = 1 → ∀ f, Only S (modTwx f)) :
    RunsIn S (linkEffect .TWN_CTL i old cmd) m :=
  RunsIn.getM (Only.runsIn (Only.bind (Only.onlyIf' clear) fun _ => Only.bind (Only.onlyIf' unfences) fun _ =>
    Only.bind (Only.onlyIf' fences) fun _ => Only.bind (Only.onlyIf' fun h => moves h.1) fun _ =>
    Only.onlyIf' fun h => hands h _) m)

/-- A self-test starts (R462). -/
def testStart (m : Mach) : P Unit := do
  let d := m.g TST_CMD_DOMAIN
  let k := m.g TST_CMD_KIND
  let n := m.g TST_CMD_PATTERNS
  putTst { dom := d, kind := k, pats := n }
  wr TST_EXPECT_GOLDEN (Config.golden d k n % 2 ^ 64)
  wr TST_MISR_SIGNATURE 0
  wr TST_STATUS_STATE 1
  wr TST_STATUS_RESULT 0
  wr TST_STATUS_FAIL_WORDS 0

theorem tstEffect_rule (aborts : bitsAt cmd 1 1 = 1 → Only S (testOver 3)) (goes : bitsAt cmd 0 1 = 1 → ∀ m, Only S (testStart m)) :
    RunsIn S (tstEffect cmd) m :=
  RunsIn.getM (Only.runsIn (Only.bind (Only.onlyIf' aborts) fun _ => Only.onlyIf' fun h => goes h m) m)

theorem dbgEffect_rule (challenge : bitsAt cmd 0 1 = 1 → (∀ w, Only S (freeBits w)) ∧ ∀ n, Only S (wr DBG_CHAL_NONCE n))
    (relocks : bitsAt cmd 2 1 = 1 → Only S relock)
    (grants : bitsAt cmd 1 1 = 1 → Only S (wr GLB_LIFECYCLE_DEBUG_UNLOCKED 1) ∧ ∀ e, Only S (raise e)) :
    RunsIn S (dbgEffect .DBG_UNLOCK cmd) m :=
  Only.runsIn (Only.onlyIf (Only.bind (Only.onlyIf' fun h => Only.bind ((challenge h).1 _) fun _ => (challenge h).2 _) fun _ =>
    Only.bind (Only.onlyIf' relocks) fun _ => Only.onlyIf' fun h => Only.bind (grants h.1).1 fun _ => (grants h.1).2 _)) m

theorem portCtl_rule (clear : bitsAt cmd 24 1 = 1 → Only S (do rstReg .OCT_PORT_CNT0 i; rstReg .OCT_PORT_CNT1 i))
    (retrain : bitsAt cmd 1 2 ≠ 0 → ∀ full, Only S (portRetrain i full))
    (enable : bitsAt old 0 1 ≠ m.g (OCT_PORT_CTL_ENABLE i) → ∀ on, Only S (portEnable i on)) :
    RunsIn S (octEffect .OCT_PORT_CTL i old cmd) m :=
  RunsIn.getM (Only.runsIn (Only.bind (Only.onlyIf' clear) fun _ => Only.bind (Only.onlyIf' fun h => retrain h _) fun _ =>
    Only.onlyIf' fun h => enable h _) m)

theorem planeCtl_rule (out : ∀ p st, Only S (planeTo p st))
    (back : ∀ p < 4, bitsAt cmd (4 + p) 1 = 1 → (∀ v, Only S (wr (planeCause p) v)) ∧ ∀ v, Only S (putXret p v)) :
    RunsIn S (xbEffect .XB_PLANE_CTL old cmd) m := by
  unfold xbEffect
  exact Only.runsIn (Only.each fun p hp => Only.bind Only.getM fun _ => Only.bind (Only.onlyIf (out p _)) fun _ =>
    Only.bind Only.getM fun _ => Only.onlyIf' fun h =>
      Only.bind ((back p (List.mem_range.1 hp) h.1).1 _) fun _ => Only.bind ((back p (List.mem_range.1 hp) h.1).2 _) fun _ =>
        out p _) m

theorem kskCtl_rule (clear : bitsAt cmd 0 1 = 1 → Only S (each (List.range 9) fun c => rstReg .KSK_CNT c))
    (flush : bitsAt cmd 1 1 = 1 → Only S kskFlush) : RunsIn S (kskEffect .KSK_CTL i old cmd) m :=
  RunsIn.getM (Only.runsIn (Only.bind (Only.onlyIf' clear) fun _ => Only.onlyIf' flush) m)

theorem tenCtl_rule (state : ∀ v, Only S (wr (TEN_STATUS_STATE i) v)) (on : m.g (TEN_CTL_ENABLE i) = 1 → Only S (sliceOn i))
    (off : m.g (TEN_CTL_ENABLE i) = 0 → Only S (sliceOff i)) : RunsIn S (krbEffect .TEN_CTL i old cmd) m :=
  RunsIn.getM (RunsIn.ite (fun h => RunsIn.ite (fun _ => (on h.2).runsIn m) fun _ => (Only.onlyIf (state _)).runsIn m) fun _ =>
    RunsIn.ite (fun h => RunsIn.ite (fun _ => (off h.2).runsIn m) fun _ => (Only.onlyIf (state _)).runsIn m) fun _ =>
      RunsIn.pure ())

theorem tbCtl_rule (pps : bitsAt old 0 1 = 0 → m.g TB_CTL_PPS_EN = 1 → ∀ f, Only S (modTb f))
    (clear : bitsAt cmd 2 1 = 1 → Only S (rstReg .TB_CNT 0)) (addend : Only S tbAddend) :
    RunsIn S (schedEffect .TB_CTL i old cmd mask) m :=
  RunsIn.getM (Only.runsIn (Only.bind (Only.onlyIf' fun h => pps h.1 h.2 _) fun _ => Only.bind (Only.onlyIf' clear) fun _ =>
    addend) m)

theorem todCtl_rule (set : bitsAt cmd 33 1 = 1 → (∀ d, Only S (tbStep d)) ∧ (∀ f, Only S (modTb f)) ∧ Only S (wr TB_STATUS_SET 1)) :
    RunsIn S (schedEffect .TB_TOD_CTL i old cmd mask) m :=
  RunsIn.getM (Only.runsIn (Only.onlyIf' fun h => Only.bind ((set h).1 _) fun _ => Only.bind ((set h).2.1 _) fun _ =>
    (set h).2.2) m)

/-- A ring starts (R160). -/
def ringStart (i : Nat) : P Unit := do
  wrReg .RNG_IDX i 0
  wrReg .RNG_PROG i 0
  wrReg .RNG_STATUS i rsRUNNING
  modRing i fun x => { x with lost := 0, sinceIrq := 0, modRuns := false, held := [], slots := [], fetches := [],
                              issued := 0, inFlight := 0, hostLost := false }

theorem ringCtl_rule (clear : bitsAt cmd 1 1 = 1 → Only S (rstReg .RNG_CNT i))
    (start : bitsAt old 0 1 = 0 → m.g (RNG_CTL_ENABLE i) = 1 → Only S (ringStart i))
    (stop : bitsAt old 0 1 = 1 → m.g (RNG_CTL_ENABLE i) = 0 → Only S (ringStop i false)) :
    RunsIn S (rngEffect .RNG_CTL i old cmd) m := by
  refine RunsIn.getM (RunsIn.seq ((Only.onlyIf' clear).runsIn m) fun _ => ?_)
  split
  · next h => exact start h.1 h.2.1
  · split
    · next h => exact stop h.1 h.2
    · exact Only.pure ()

/-- The counters of the Loom are cleared, with what they count. -/
def lmClear : P Unit := do
  each (List.range 10) fun c => rstReg .LM_CNT c
  putLmTmo false
  putLmRem false

theorem lmCtl_rule (clear : bitsAt cmd 0 1 = 1 → Only S lmClear)
    (forget : bitsAt cmd 2 1 = 1 → Only S clearPred) : RunsIn S (lmEffect .LM_CTL old cmd) m :=
  Only.runsIn (Only.bind (Only.onlyIf' clear) fun _ => Only.onlyIf' forget) m

theorem scrubCtl_rule (goes : bitsAt cmd 0 1 = 1 → Only S scrubStart) (aborts : bitsAt cmd 1 1 = 1 → ∀ f, Only S (modScrub f)) :
    RunsIn S (intEffect .INT_SCRUB_CTL i old cmd) m :=
  RunsIn.getM (Only.runsIn (Only.bind (Only.onlyIf' goes) fun _ => Only.onlyIf' fun h => aborts h.1 _) m)

theorem testCtl_rule (writes : bitsAt cmd 0 1 = 1 → Only S rawWrite) (reads : bitsAt cmd 1 1 = 1 → Only S rawRead) :
    RunsIn S (intEffect .INT_TEST_CTL i old cmd) m :=
  RunsIn.getM (Only.runsIn (Only.bind (Only.onlyIf' writes) fun _ => Only.onlyIf' fun h => reads h.1) m)

end

end Sys2Proof.Machine
end

section
/-!
SUPPORT. The effect of an accepted write of any register lies within `writeEffect` (Table 0.3).
-/
namespace Sys2Proof.Machine

-- One declaration at a time: proofs that compute in the kernel wait for it, each with a stack of its own.
set_option Elab.async false

variable (k : RegKind) (i old cmd mask : Nat) (m : Mach) (p : Path)

/-! The global block, the loader, the power sequencer and the slots. -/

theorem structEffect_foot : RunsIn (ownEffect .GLB_STRUCT_CTL i).has (structEffect cmd) m :=
  structEffect_rule (fun _ dry => foot_only (checkStart_only dry)) fun _ _ => foot_only disableStart_only

theorem resetCtl_foot : RunsIn (ownEffect .GLB_RESET_CTL i).has (regEffect ⟨.GLB_RESET_CTL, i⟩ old cmd mask p) m :=
  (foot_in (Only.onlyIf (at_mod .mgx (fun _ => rfl) (by decide +kernel)))).runsIn m

theorem conflictCtl_foot : RunsIn (ownEffect .GLB_CMD_CONFLICT i).has (regEffect ⟨.GLB_CMD_CONFLICT, i⟩ old cmd mask p) m :=
  (foot_only (Only.onlyIf conflictClear_only)).runsIn m

theorem pathCtl_foot : RunsIn (ownEffect .GLB_PATH_CNT i).has (regEffect ⟨.GLB_PATH_CNT, i⟩ old cmd mask p) m :=
  (foot_quiet (Only.onlyIf (at_wrK .GLB_PATH_CNT rfl (by decide +kernel)))).runsIn m

theorem mldEffect_foot (code : Nat) : RunsIn (ownEffect .MLD_CTL i).has (mldEffect cmd code) m :=
  mldEffect_rule (fun _ => foot_only abortLoad_only) fun _ c => foot_only (loadStart_only c code)

theorem stageWrite_foot (v : Word) : RunsIn (ownEffect .MLD_STAGE_DATA i).has (stageWrite v) m :=
  (foot_only (stageWrite_only v)).runsIn m

theorem pwrEffect_foot : RunsIn (ownEffect k i).has (pwrEffect k i old cmd mask) m := by
  refine RunsIn.getM (Only.runsIn ?_ m)
  split
  · exact foot_in (Only.onlyIf (Only.each fun _ _ => at_wrK .PWR_DOM_STATUS rfl (by decide +kernel)))
  · exact Only.onlyIf (Only.bind (foot_only (reqEffect_only _ _)) fun _ => foot_only seqAdvance_only)
  · exact foot_only (Only.onlyIf avsStart_only)
  · exact Only.pure _

theorem slpEffect_foot (h : k.desc.blk = .SLP) : RunsIn (ownEffect k i).has (slpEffect k i cmd) m := by
  have slots : k ∈ [RegKind.SLP_CFG, .SLP_CTL, .SLP_VWIN, .SLP_LIM, .SLP_TMR, .SLP_STATUS, .SLP_MEAS, .SLP_CNT,
      .SLP_FAULT_TIME] := by
    cases k <;> first | decide | exact absurd h (by decide)
  simp only [List.mem_cons, List.not_mem_nil, or_false] at slots
  rcases slots with rfl | rfl | rfl | rfl | rfl | rfl | rfl | rfl | rfl <;>
    exact (foot_objs (slpEffect_at _ i cmd)).runsIn m

/-! The Twin, the PMU, the tests, debug and the management cores. -/

theorem twnEffect_idle (hk : k ≠ .TWN_CTL) : twnEffect k i old cmd = pure () := by
  unfold twnEffect
  split
  · exact absurd rfl hk
  · rfl

theorem spnCtl_foot : RunsIn (ownEffect .TWN_SPN_CTL i).has (linkEffect .TWN_SPN_CTL i old cmd) m :=
  spnCtl_rule (fun _ => foot_in (Only.each fun _ _ => at_rstK .TWN_SPN_CNT (by decide +kernel)))
    (fun _ => ⟨fun _ => foot_in (at_mod .spn (fun _ => rfl) (by decide +kernel)), foot_only (spnRecover_only _ _)⟩)
    (foot_only spnKick_only) fun _ _ => foot_only spnOff_only

theorem twnCtl_foot : RunsIn (ownEffect .TWN_CTL i).has (linkEffect .TWN_CTL i old cmd) m :=
  twnEffect_rule (fun _ => foot_in (Only.each fun _ _ => at_rstK .TWN_CNT (by decide +kernel)))
    (fun _ => foot_only unfence_only) (fun _ => foot_only (fence_only 1)) (fun _ => foot_only (moveStart_only 1))
    fun _ _ => foot_in (at_mod .twx (fun _ => rfl) (by decide +kernel))

theorem linkEffect_foot : RunsIn (ownEffect k i).has (linkEffect k i old cmd) m := by
  by_cases hs : k = .TWN_SPN_CTL
  · exact hs ▸ spnCtl_foot i old cmd m
  by_cases ht : k = .TWN_CTL
  · exact ht ▸ twnCtl_foot i old cmd m
  refine RunsIn.getM (Only.runsIn ?_ m)
  split
  · exact absurd rfl hs
  · exact foot_only (whlCfg_only _)
  · exact foot_in (Only.onlyIf (Only.each fun _ _ => at_rstK .TWN_WHL_CNT (by decide +kernel)))
  · exact foot_in (Only.onlyIf (Only.bind (at_wrK .TWN_WHL_FW_CTL rfl (by decide +kernel)) fun _ =>
      at_mod .whl (fun _ => rfl) (by decide +kernel)))
  · rw [twnEffect_idle k i old cmd ht]
    exact Only.pure _

theorem pmuEffect_foot : RunsIn (ownEffect k i).has (pmuEffect k i old cmd) m := by
  refine RunsIn.getM (Only.runsIn ?_ m)
  split
  · exact foot_only (Only.onlyIf pmuClear_only)
  · exact foot_in (Only.onlyIf (Only.each fun _ _ => Only.each fun _ _ =>
      Only.onlyIf (at_wrK .PMU_CFG rfl (by decide +kernel))))
  · exact foot_in (Only.onlyIf (Only.bind (at_doT .cen rfl (by decide +kernel)) fun _ => at_doT .cskip rfl (by decide +kernel)))
  · exact Only.pure _

/-- What the start of a self-test can change. -/
def Feet.testStart : Mask := .of [.TST_EXPECT, .TST_MISR, .TST_STATUS] [.tst]

theorem testStart_only : Only Feet.testStart.has (testStart m) :=
  Only.bind (Only.doT .tst rfl (by decide +kernel)) fun _ => Only.bind (Only.wrK .TST_EXPECT rfl (by decide +kernel)) fun _ =>
    Only.bind (Only.wrK .TST_MISR rfl (by decide +kernel)) fun _ => Only.bind (Only.wrK .TST_STATUS rfl (by decide +kernel))
      fun _ => Only.bind (Only.wrK .TST_STATUS rfl (by decide +kernel)) fun _ => Only.wrK .TST_STATUS rfl (by decide +kernel)

theorem tstEffect_foot : RunsIn (ownEffect .TST_CMD i).has (tstEffect cmd) m :=
  tstEffect_rule (fun _ => foot_only (testOver_only 3)) fun _ m => foot_only (testStart_only m)

theorem dbgEffect_foot : RunsIn (ownEffect k i).has (dbgEffect k cmd) m := by
  by_cases hk : k = .DBG_UNLOCK
  · subst hk
    exact dbgEffect_rule (fun _ => ⟨fun w => foot_in (at_free w (by decide +kernel)),
        fun _ => foot_in (at_wrK .DBG_CHAL rfl (by decide +kernel))⟩) (fun _ => foot_only relock_only)
      fun _ => ⟨foot_in (at_wrK .GLB_LIFECYCLE rfl (by decide +kernel)), fun e => foot_only (raise_only e)⟩
  · rw [dbgEffect, onlyIf, if_neg hk]
    exact RunsIn.pure ()

theorem fwmEffect_foot : RunsIn (ownEffect k i).has (fwmEffect k i cmd) m := by
  unfold fwmEffect
  split
  · exact (foot_in (Only.onlyIf (at_mod .mgx (fun _ => rfl) (by decide +kernel)))).runsIn m
  · exact (foot_quiet (Only.each fun _ _ => Only.onlyIf (at_le (emit_only _) (by decide +kernel)))).runsIn m
  · exact (foot_objs (Only.onlyIf (mbGo_at i))).runsIn m
  · exact RunsIn.pure ()

/-! The ports, the crossing and the square. -/

theorem octEffect_foot : RunsIn (ownEffect k i).has (octEffect k i old cmd) m := by
  by_cases hp : k = .OCT_PORT_CTL
  · subst hp
    exact portCtl_rule (fun _ => foot_objs (portCounters_at i)) (fun _ full => foot_objs (portRetrain_at i full))
      fun _ on => foot_objs (portEnable_at i on)
  refine RunsIn.getM (Only.runsIn ?_ m)
  split
  · exact absurd rfl hp
  · exact foot_objs (slotPerstShow_at i)
  · refine foot_in (Only.ite (Only.each fun c hc => at_rst ?_) (Only.pure _))
    simp only [List.mem_cons, List.not_mem_nil, or_false] at hc
    rcases hc with rfl | rfl | rfl | rfl | rfl <;> simp
  · exact Only.pure _

theorem planeCtl_foot : RunsIn (ownEffect .XB_PLANE_CTL i).has (xbEffect .XB_PLANE_CTL old cmd) m :=
  planeCtl_rule (fun q st => foot_only (planeTo_only q st)) fun _ _ _ =>
    ⟨fun _ => foot_in (at_wrK .XB_PLANE_STATUS rfl (by decide +kernel)), fun _ => foot_in (at_doT .xret rfl (by decide +kernel))⟩

theorem xbEffect_foot : RunsIn (ownEffect k i).has (xbEffect k old cmd) m := by
  by_cases hp : k = .XB_PLANE_CTL
  · exact hp ▸ planeCtl_foot i old cmd m
  unfold xbEffect
  split
  · exact absurd rfl hp
  · exact (foot_in (Only.onlyIf (Only.bind (Only.each fun _ _ => at_rstK .XB_CNT (by decide +kernel)) fun _ =>
      Only.bind (at_rstK .XB_MIR_CNT (by decide +kernel)) fun _ => at_rstK .XB_MIR_CNT (by decide +kernel)))).runsIn m
  · exact RunsIn.pure ()

theorem sqEffect_foot : RunsIn (ownEffect k i).has (sqEffect k i cmd) m := by
  unfold sqEffect
  split
  · exact (foot_in (Only.onlyIf (Only.each fun _ _ => at_rstK .SQ_CNT (by decide +kernel)))).runsIn m
  · exact (foot_in (Only.bind (at_wrReg (by simp)) fun _ => at_mod .sqx (fun _ => rfl) (by decide +kernel))).runsIn m
  · exact RunsIn.getM ((foot_quiet (at_wr (by simp))).runsIn m)
  · exact RunsIn.pure ()

/-! The Kiosk, the Kerb and the tenants. -/

theorem kskEffect_foot : RunsIn (ownEffect k i).has (kskEffect k i old cmd) m := by
  by_cases hk : k = .KSK_CTL
  · subst hk
    exact kskCtl_rule (fun _ => foot_in (Only.each fun _ _ => at_rstK .KSK_CNT (by decide +kernel)))
      fun _ => foot_only kskFlush_only
  refine RunsIn.getM (Only.runsIn ?_ m)
  split
  · exact absurd rfl hk
  · exact Only.bind (Only.each fun _ _ => foot_only (kskOut_only _)) fun _ => Only.each fun _ _ => foot_only (kskReturn_only _)
  · exact Only.pure _

theorem krbEffect_foot : RunsIn (ownEffect k i).has (krbEffect k i old cmd) m := by
  by_cases hk : k = .TEN_CTL
  · subst hk
    exact tenCtl_rule (fun _ => foot_in (at_wr (by simp))) (fun _ => foot_objs (sliceOn_at i)) fun _ => foot_objs (sliceOff_at i)
  refine RunsIn.getM (Only.runsIn ?_ m)
  split
  · exact foot_only (Only.onlyIf fenceGo_only)
  · exact foot_in (Only.onlyIf (Only.bind (at_rstK .KRB_FENCE_CNT (by decide +kernel)) fun _ =>
      Only.each fun _ _ => at_rstK .KRB_CNT (by decide +kernel)))
  · exact absurd rfl hk
  · exact foot_in (Only.onlyIf (Only.bind (at_rst (by simp)) fun _ => Only.bind (at_rst (by simp)) fun _ =>
      Only.bind (at_rst (by simp)) fun _ => at_rst (by simp)))
  · exact foot_in (at_wr (by simp))
  · exact Only.pure _

/-! The tenants' memories, time and the schedulers. -/

theorem tmEffect_foot : RunsIn (ownEffect k i).has (tmEffect k i old cmd) m := by
  refine RunsIn.getM (Only.runsIn ?_ m)
  split
  · exact foot_in (Only.onlyIf (Only.bind (Only.each fun _ _ => at_rstK .TM_CNT (by decide +kernel)) fun _ =>
      Only.bind (Only.each fun _ _ => at_rstK .TM_SRING_CNT (by decide +kernel)) fun _ =>
      Only.bind (Only.each fun _ _ => at_mod .srx (fun _ => rfl) (by decide +kernel)) fun _ =>
      Only.bind (at_doT .slotTmo rfl (by decide +kernel)) fun _ =>
      Only.each fun e _ => Only.onlyIf' fun h => atM (Only.rstMem h (by decide +kernel))))
  · exact foot_in (Only.onlyIf (Only.bind (at_wr (by simp)) fun _ => at_mod .srx (fun _ => rfl) (by decide +kernel)))
  · exact foot_only (flushQueue_only _)
  · exact Only.pure _

theorem schedEffect_foot : RunsIn (ownEffect k i).has (schedEffect k i old cmd mask) m := by
  by_cases hb : k = .TB_CTL
  · subst hb
    exact tbCtl_rule (fun _ _ _ => foot_in (at_mod .tb (fun _ => rfl) (by decide +kernel)))
      (fun _ => foot_in (at_rstK .TB_CNT (by decide +kernel))) (foot_only tbAddend_only)
  by_cases ht : k = .TB_TOD_CTL
  · subst ht
    exact todCtl_rule fun _ => ⟨fun d => foot_only (tbStep_only d),
      fun _ => foot_in (at_mod .tb (fun _ => rfl) (by decide +kernel)), foot_in (at_wrK .TB_STATUS rfl (by decide +kernel))⟩
  refine RunsIn.getM (Only.runsIn ?_ m)
  split
  · exact foot_in (Only.onlyIf (at_mod .bmove (fun _ => rfl) (by decide +kernel)))
  · exact foot_objs (Only.onlyIf (gateChange_at i))
  · exact Only.bind (foot_in (at_doT .gcl rfl (by decide +kernel))) fun _ =>
      Only.bind (foot_in (at_rstK .TM_GCL_DATA (by decide +kernel))) fun _ => foot_only gclNext_only
  · exact absurd rfl hb
  · exact absurd rfl ht
  · exact foot_only (tbStep_only _)
  · exact Only.pure _

/-- What the start of a ring can change. -/
theorem ringStart_at : Only (At.has (.of [] [.ring]) ([⟨.RNG_IDX, i⟩, ⟨.RNG_PROG, i⟩, ⟨.RNG_STATUS, i⟩] : List Reg)) (ringStart i) :=
  Only.bind (at_wrReg (by simp)) fun _ => Only.bind (at_wrReg (by simp)) fun _ => Only.bind (at_wrReg (by simp)) fun _ =>
    at_mod .ring (fun _ => rfl) (by decide +kernel)

theorem rngEffect_foot : RunsIn (ownEffect k i).has (rngEffect k i old cmd) m := by
  by_cases hr : k = .RNG_CTL
  · subst hr
    exact ringCtl_rule (fun _ => foot_in (at_rst (by simp))) (fun _ _ => foot_objs (ringStart_at i))
      fun _ _ => foot_objs (ringStop_soft i)
  refine RunsIn.getM (Only.runsIn ?_ m)
  split
  · exact absurd rfl hr
  · exact foot_objs (Only.onlyIf (gateUpdate_at i))
  · exact Only.pure _

/-! The Loom and the interrupts. -/

/-- What a clear of the Loom's counters can change. -/
def Feet.lmClear : Mask := .of [.LM_CNT] [.lmTmo, .lmRem]

theorem lmClear_only : Only Feet.lmClear.has lmClear :=
  Only.bind (Only.each fun _ _ => Only.rstK .LM_CNT (by decide +kernel)) fun _ =>
    Only.bind (Only.doT .lmTmo rfl (by decide +kernel)) fun _ => Only.doT .lmRem rfl (by decide +kernel)

theorem lmEffect_foot : RunsIn (ownEffect k i).has (lmEffect k old cmd) m := by
  by_cases hl : k = .LM_CTL
  · subst hl
    exact lmCtl_rule (fun _ => foot_only lmClear_only) fun _ => foot_in (at_doT .pred rfl (by decide +kernel))
  unfold lmEffect
  split
  · exact absurd rfl hl
  · exact RunsIn.getM ((Only.each fun c _ => Only.bind
      (foot_in (Only.onlyIf (at_wrK .LM_CL_STATUS rfl (by decide +kernel)))) fun _ =>
        Only.onlyIf (foot_only (clusterReturn_only c))).runsIn m)
  · exact RunsIn.pure ()

theorem intEffect_foot : RunsIn (ownEffect k i).has (intEffect k i old cmd) m := by
  by_cases hs : k = .INT_SCRUB_CTL
  · subst hs
    exact scrubCtl_rule (fun _ => foot_only scrubStart_only)
      fun _ _ => foot_in (at_mod .scrub (fun _ => rfl) (by decide +kernel))
  by_cases ht : k = .INT_TEST_CTL
  · subst ht
    exact testCtl_rule (fun _ => foot_only rawWrite_only) fun _ => foot_only rawRead_only
  refine RunsIn.getM (Only.runsIn ?_ m)
  split
  · exact foot_in (Only.onlyIf (Only.bind (Only.each fun _ _ => Only.bind (at_rstK .INT_CNT_CE (by decide +kernel)) fun _ =>
      Only.bind (at_rstK .INT_CNT_POISON (by decide +kernel)) fun _ => Only.bind (at_rstK .INT_CNT_UE (by decide +kernel))
        fun _ => at_rstK .INT_CNT_PIN (by decide +kernel)) fun _ => at_rstK .INT_EVQ_CNT (by decide +kernel)))
  · exact absurd rfl hs
  · exact absurd rfl ht
  · exact foot_only (retireAsk_only _)
  · exact foot_only (Only.onlyIf evqEnable_only)
  · exact Only.pure _

end Sys2Proof.Machine
end

section
/-!
What an accepted write of any register changes, and no more (R424, R433; O43).
-/
namespace Sys2Proof.Machine

-- One declaration at a time: proofs that compute in the kernel wait for it, each with a stack of its own.
set_option Elab.async false

section
variable (k : RegKind) (i old cmd mask : Nat) (m : Mach) (p : Path)

theorem glbEffect_foot (h : k.desc.blk = .GLB) : RunsIn (ownEffect k i).has (regEffect ⟨k, i⟩ old cmd mask p) m := by
  by_cases h1 : k = .GLB_STRUCT_CTL
  · exact h1 ▸ structEffect_foot i cmd m
  by_cases h2 : k = .GLB_RESET_CTL
  · exact h2 ▸ resetCtl_foot i old cmd mask m p
  by_cases h3 : k = .GLB_CMD_CONFLICT
  · exact h3 ▸ conflictCtl_foot i old cmd mask m p
  by_cases h4 : k = .GLB_PATH_CNT
  · exact h4 ▸ pathCtl_foot i old cmd mask m p
  simp only [regEffect, h]
  exact RunsIn.pure ()

/-- The effect of a write of any register lies within `writeEffect`. -/
theorem regEffect_foot : RunsIn (ownEffect k i).has (regEffect ⟨k, i⟩ old cmd mask p) m := by
  by_cases hg : k.desc.blk = .GLB
  · exact glbEffect_foot k i old cmd mask m p hg
  unfold regEffect
  split
  case h_1 h => exact absurd h hg
  case h_2 =>
    refine RunsIn.getM (RunsIn.ite (fun h => ?_) fun _ => RunsIn.onlyIf fun h => ?_)
    · exact (show k = .MLD_CTL from h) ▸ mldEffect_foot i cmd m _
    · exact (show k = .MLD_STAGE_DATA from h) ▸ stageWrite_foot i m _
  case h_3 => exact pwrEffect_foot k i old cmd mask m
  case h_4 h => exact slpEffect_foot k i cmd m h
  case h_5 => exact linkEffect_foot k i old cmd m
  case h_6 => exact pmuEffect_foot k i old cmd m
  case h_7 => exact RunsIn.onlyIf fun h => (show k = .TST_CMD from h) ▸ tstEffect_foot i cmd m
  case h_8 => exact dbgEffect_foot k i cmd m
  case h_9 => exact fwmEffect_foot k i cmd m
  case h_10 => exact octEffect_foot k i old cmd m
  case h_11 => exact xbEffect_foot k i old cmd m
  case h_12 => exact sqEffect_foot k i cmd m
  case h_13 => exact kskEffect_foot k i old cmd m
  case h_14 => exact krbEffect_foot k i old cmd m
  case h_15 => exact krbEffect_foot k i old cmd m
  case h_16 => exact Ends.bind (tmEffect_foot k i old cmd m) fun _ m1 v =>
      (schedEffect_foot k i old cmd mask m1).ends.imp fun _ _ => v.trans
  case h_17 => exact rngEffect_foot k i old cmd m
  case h_18 => exact lmEffect_foot k i old cmd m
  case h_19 => exact RunsIn.pure ()
  case h_20 => exact intEffect_foot k i old cmd m

end

/-! Footprints as sets of bits. -/

theorem testBit_ctors {α : Type} (f : α → Nat) (l : List α) (a n : Nat) :
    (l.foldl (fun a x => a ||| 2 ^ f x) a).testBit n = (a.testBit n || l.any fun x => f x = n) := by
  induction l generalizing a with
  | nil => simp
  | cons x t ih =>
    rw [List.foldl_cons, ih, Nat.testBit_or, Nat.testBit_two_pow, List.any_cons, Bool.or_assoc]

theorem or_subset {α : Type} (f : α → Nat) {l l' : List α} (h : l ⊆ l') :
    l.foldl (fun a x => a ||| 2 ^ f x) 0 ||| l'.foldl (fun a x => a ||| 2 ^ f x) 0 = l'.foldl (fun a x => a ||| 2 ^ f x) 0 :=
  Nat.eq_of_testBit_eq fun n => by
    rw [Nat.testBit_or, testBit_ctors, testBit_ctors, Nat.zero_testBit, Bool.false_or, Bool.false_or]
    cases hl : l.any fun x => f x = n with
    | false => rfl
    | true =>
      obtain ⟨x, hx, hn⟩ := List.any_eq_true.1 hl
      rw [Bool.true_or, eq_comm, List.any_eq_true]
      exact ⟨x, h hx, hn⟩

/-- A footprint of fewer names is the smaller set. -/
theorem Foot.mask_le {F G : Foot} (hr : F.regs ⊆ G.regs) (ht : F.tabs ⊆ G.tabs) : F.mask.le G.mask = true := by
  simp only [Mask.le, Bool.and_eq_true, beq_iff_eq]
  exact ⟨or_subset _ hr, or_subset _ ht⟩

theorem Mask.join_le {a b M : Mask} (ha : a.le M = true) (hb : b.le M = true) : (a.join b).le M = true := by
  simp only [Mask.le, Mask.join, Bool.and_eq_true, beq_iff_eq] at ha hb ⊢
  exact ⟨by rw [Nat.lor_assoc, hb.1, ha.1], by rw [Nat.lor_assoc, hb.2, ha.2]⟩

theorem Foot.has_le {F G : Foot} (hr : F.regs ⊆ G.regs) (ht : F.tabs ⊆ G.tabs) (ho : F.objs ⊆ G.objs) (u : Upd)
    (hu : F.has u = true) : G.has u = true := by
  simp only [Foot.has, At.has, Bool.or_eq_true] at hu ⊢
  refine hu.imp (Mask.has_mono (Foot.mask_le hr ht) u) fun hu => ?_
  cases u <;> simp at hu ⊢
  exact ho hu

/-! What a footprint of a write holds beside it, and how its command settles. -/

/-- The footprint has room for what follows it in its step, and none for what a FAULTY object waits for. -/
def Foot.settles (F : Foot) : Bool :=
  Feet.quiet.le F.mask && (!F.mask.hasTab .evPend || Feet.evFlush.le F.mask) &&
    (!F.mask.hasTab .feDue || Feet.settle.le F.mask) && !F.mask.hasTab .faulty

/-- A footprint, what the trace of a write changes, and the register. -/
def Foot.traced (F : Foot) (ks : List RegKind) (r : Reg) : Foot := F.and ks [.trc, .trcNext] [r]

variable {F : Foot} {r : Reg} {ks : List RegKind} {data d : Word} {m m' : Mach} {p : Path}

theorem Foot.hasTab_mem {t : Tab} (h : t ∈ F.tabs) : F.mask.hasTab t = true := by
  rw [Mask.hasTab, Foot.mask, Mask.of, testBit_ctors, Nat.zero_testBit, Bool.false_or, List.any_eq_true]
  exact ⟨t, h, by simp⟩

/-- The trace adds no record and no fence. -/
theorem traced_tab {t : Tab} (h1 : t ≠ .trc) (h2 : t ≠ .trcNext) (h : F.mask.hasTab t = false) :
    (F.traced ks r).mask.hasTab t = false := by
  refine Foot.mask_tab fun ht => ?_
  rcases List.mem_append.1 ht with ht | ht
  · rw [Foot.hasTab_mem ht] at h
    cases h
  · simp [h1, h2] at ht

theorem traced_le : F.mask.le (F.traced ks r).mask = true :=
  Foot.mask_le (fun _ h => List.mem_append_left _ h) fun _ h => List.mem_append_left _ h

theorem traced_settled (h : F.settles = true) : (F.traced ks r).mask.settled (F.traced ks r).mask = true := by
  simp only [Foot.settles, Bool.and_eq_true, Bool.or_eq_true, Bool.not_eq_true'] at h
  obtain ⟨⟨⟨hq, he⟩, hd⟩, -⟩ := h
  simp only [Mask.settled, Bool.and_eq_true, Bool.or_eq_true, Bool.not_eq_true']
  exact ⟨⟨⟨by simp [Mask.le], Mask.le_trans hq traced_le⟩,
    he.imp (traced_tab (by decide) (by decide)) fun h => Mask.le_trans h traced_le⟩,
    hd.imp (traced_tab (by decide) (by decide)) fun h => Mask.le_trans h traced_le⟩

/-- What a write may change lies within its footprint. -/
theorem traced_room (hs : F.settles = true) (hks : RegKind.DBG_TRACE_STATUS ∈ ks)
    (hl : locks m r data.toNat d.toNat = false ∨ RegKind.GLB_STRUCT_STATUS ∈ ks)
    (ht : r.k = .TWN_CTL → bitsAt (data.toNat &&& d.toNat) 0 1 = 1 → bitsAt (data.toNat &&& d.toNat) 2 1 = 1 →
      Feet.raise.le F.mask = true) :
    Room (F.traced ks r).mask (F.traced ks r).objs m r data.toNat d.toNat := by
  simp only [Foot.settles, Bool.and_eq_true, Bool.not_eq_true'] at hs
  refine ⟨.inr (by simp [Foot.traced, Foot.and]), ?_, traced_tab (by decide) (by decide) hs.2, hl.imp id fun h => ?_,
    fun h1 h2 h3 => Mask.le_trans (ht h1 h2 h3) traced_le⟩
  · exact Foot.mask_le (F := ⟨[.DBG_TRACE_STATUS], [.trc, .trcNext], []⟩) (by simp [Foot.traced, Foot.and, hks])
      (by simp [Foot.traced, Foot.and])
  · rw [Mask.hasReg, Foot.mask, Mask.of, testBit_ctors, Nat.zero_testBit, Bool.false_or, List.any_eq_true]
    exact ⟨.GLB_STRUCT_STATUS, by simp [Foot.traced, Foot.and, h], by simp⟩

/-! The only register of its name. -/

/-- A place outside an array reads its reset value, for it is never stored. -/
theorem rd_outside (h : regsWf m.regs = true) (hr : r.k.count ≤ r.i) : m.rd r = resetVal r := by
  have outside (t : RegFile) (b : Option Nat) (h : regsWfFrom b t = true) : regGet t r = resetVal r := by
    induction t generalizing b with
    | nil => rfl
    | cons e s ih =>
      obtain ⟨a, w⟩ := e
      obtain ⟨-, hv, hs⟩ := regsWfFrom_cons.1 h
      have ha : a ≠ r := by
        rintro rfl
        simp only [entryOk, Bool.and_eq_true, decide_eq_true_eq] at hv
        omega
      simpa [regGet, ha] using ih _ hs
  exact outside m.regs none h

/-- Where a register is the only one of its name, a footprint of that name is one of that register. -/
theorem keeps_single {ts : List Tab} (hi : r.i < r.k.count) (h : regsWf m.regs = true) (h' : regsWf m'.regs = true)
    (hk : (F.and (ks ++ r.k.single) ts [r]).keeps m m') : (F.and ks ts [r]).keeps m m' := by
  obtain ⟨regs, tabs, fuse⟩ := hk
  refine ⟨fun q hq ho => ?_, tabs, fuse⟩
  by_cases hs : q.k ∈ r.k.single
  · have one : r.k.count = 1 ∧ q.k = r.k := by
      unfold RegKind.single at hs
      split at hs
      · next h1 => exact ⟨h1, by simpa using hs⟩
      · cases hs
    have hne : q ≠ r := fun e => ho (by simp [Foot.and, e])
    have out : q.k.count ≤ q.i := by
      rw [one.2, one.1]
      by_contra hc
      exact hne (by cases q; cases r; simp_all)
    rw [rd_outside h out, rd_outside h' out]
  · exact regs q (by simp_all [Foot.and]) ho

/-! What a command leaves that makes one accepted write. -/

/-- An accepted write keeps to what its effect changes, its register and the trace. -/
theorem regWrite_traced (hc : regsWf m.regs = true) (h : Lands m p r data.toNat d.toNat) (hs : F.settles = true)
    (hks : RegKind.DBG_TRACE_STATUS ∈ ks)
    (hl : locks m r data.toNat d.toNat = false ∨ RegKind.GLB_STRUCT_STATUS ∈ ks)
    (ht : r.k = .TWN_CTL → bitsAt (data.toNat &&& d.toNat) 0 1 = 1 → bitsAt (data.toNat &&& d.toNat) 2 1 = 1 →
      Feet.raise.le F.mask = true)
    (hE : ∀ m2, Written m r data.toNat d.toNat m2 → RunsIn (F.and r.k.single [] [r]).has (regEffect r (m.rd r).toNat
      (data.toNat &&& d.toNat) (d.toNat &&& namedBits r.k) p) m2) :
    RunsIn (F.traced (ks ++ r.k.single) r).has (regWrite [⟨p, r.addr, 8, data, d⟩]) m :=
  regWrite_runsIn hc h (traced_room hs (List.mem_append_left _ hks) (hl.imp id (List.mem_append_left _)) ht) fun m2 hw =>
    (hE m2 hw).mono (Foot.has_le (by simp [Foot.traced, Foot.and]) (by simp [Foot.traced, Foot.and])
      (by simp [Foot.traced, Foot.and]))

/-- The command that keeps to the footprint of an accepted write, and settles. -/
theorem traced_keeps {x : P Unit} {s t : State} (hi : s.Inv) (hr : r.i < r.k.count) (hs : F.settles = true)
    (hp : RunsIn (F.traced (ks ++ r.k.single) r).has x ((Upd.out []).apply s.m)) (h : cmd x s = .next t) :
    (F.traced ks r).keeps s.m t.m := by
  have wf : regsWf t.m.regs = true := by
    cases h
    exact (Prog.run_canon _ ((Upd.out []).apply_canon hi.canon)).regs
  exact keeps_single hr hi.canon.regs wf (cmd_keeps hi hp (traced_settled hs) (fun q hq => .inr hq) h)

theorem Lands.sent {v n : Nat} (h : Lands m p r v n) (l : List Out) : Lands ((Upd.out l).apply m) p r v n :=
  ⟨h.mapped, h.page, h.aperture, h.reach, h.test, h.whole⟩

/-! The footprints of the register writes. -/

/-- The names and things of a register's effect do not depend on its place in the array. -/
theorem writeEffect_mask (k : RegKind) (i : Nat) : (writeEffect ⟨k, i⟩).mask = (writeEffect ⟨k, 0⟩).mask := by
  cases k <;> rfl

theorem writeEffect_settles (r : Reg) : (writeEffect r).settles = true := by
  rw [Foot.settles, writeEffect_mask]
  exact RegKind.all (p := fun k => (writeEffect ⟨k, 0⟩).settles) (by decide +kernel) r.k

theorem writeEffect_told {r : Reg} (h : r.k = .TWN_CTL) : Feet.raise.le (writeEffect r).mask = true := by
  rw [writeEffect_mask, h]
  decide +kernel

/-- A write of a register keeps to its footprint. -/
theorem regWrite_effect (hc : regsWf m.regs = true) (h : Lands m p r data.toNat d.toNat) (hks : RegKind.DBG_TRACE_STATUS ∈ ks)
    (hl : locks m r data.toNat d.toNat = false ∨ RegKind.GLB_STRUCT_STATUS ∈ ks) :
    RunsIn ((writeEffect r).traced (ks ++ r.k.single) r).has (regWrite [⟨p, r.addr, 8, data, d⟩]) m :=
  regWrite_traced hc h (writeEffect_settles r) hks hl (fun h _ _ => writeEffect_told h) fun m2 _ =>
    regEffect_foot r.k r.i _ _ _ m2 p

/-- The registers that a mailbox answer changes. -/
def mailboxKinds (c : Instr) : List RegKind := match c with | .tmProgram _ _ _ => [.FWM_MB_CTL, .FWM_MB_RSP] | _ => []

/-- What an accepted write changes beside its effect and its register. -/
def besideWrite (m : Mach) (r : Reg) (data mask : Nat) (c : Instr) : List RegKind :=
  (if changesRwl r.k (m.rd r).toNat (asked r.k (m.rd r).toNat data mask) then [.GLB_STRUCT_STATUS] else []) ++
    [.DBG_TRACE_STATUS] ++ mailboxKinds c

theorem besideWrite_locks (m : Mach) (r : Reg) (data mask : Nat) (c : Instr) :
    locks m r data mask = false ∨ RegKind.GLB_STRUCT_STATUS ∈ besideWrite m r data mask c := by
  cases h : locks m r data mask with
  | false => exact .inl rfl
  | true => exact .inr (by simp [besideWrite, show changesRwl r.k _ _ = true from h])

/-- The four commands that write a register by its address run its write, and answer. -/
theorem addressWrite_runs {c : Instr} {s : State}
    (hc : c = .registerWrite [⟨p, r.addr, 8, data, d⟩] ∨ c = .ctlWrite p r.addr data d ∨
      (p = .partner ∧ c = .spindleCtlWrite r.addr data d) ∨
      (p = .firmware 0 ∧ ∃ (x : Fin 2) (st : Nat), c = .tmProgram x st [(r.addr, data, d)]))
    (hw : RunsIn (F.traced (ks ++ r.k.single) r).has (regWrite [⟨p, r.addr, 8, data, d⟩]) ((Upd.out []).apply s.m))
    (hs : F.settles = true) (hm : mailboxKinds c ⊆ ks) :
    ∃ x, exec c s = Machine.cmd x s ∧ RunsIn (F.traced (ks ++ r.k.single) r).has x ((Upd.out []).apply s.m) := by
  have quiet : Feet.quiet.le (F.traced (ks ++ r.k.single) r).mask = true := by
    simp only [Foot.settles, Bool.and_eq_true] at hs
    exact Mask.le_trans hs.1.1.1 traced_le
  have answers (a : Out) : Only (F.traced (ks ++ r.k.single) r).has (emit a) :=
    at_le (emit_only a) (Mask.le_trans (by decide +kernel) quiet)
  rcases hc with rfl | rfl | ⟨rfl, rfl⟩ | ⟨rfl, x, st, rfl⟩
  · exact ⟨_, rfl, hw⟩
  · exact ⟨_, rfl, RunsIn.getM (RunsIn.onlyIf fun _ => hw.seq fun _ => answers _)⟩
  · exact ⟨_, rfl, hw⟩
  · have mailbox : Feet.mbDone.le (F.traced (ks ++ r.k.single) r).mask = true :=
      Mask.le_trans (b := (Foot.mask ⟨[.FWM_MB_CTL, .FWM_MB_RSP], [], []⟩).join Feet.quiet) (by decide +kernel)
        (Mask.join_le (Foot.mask_le (fun k hk => by simp [Foot.traced, Foot.and, hm hk]) (by simp)) quiet)
    refine ⟨_, rfl, RunsIn.getM (RunsIn.onlyIf fun _ => RunsIn.seq (RunsIn.onlyIf fun _ => ?_) fun _ =>
      at_le (mbDone_only _ _ _) mailbox)⟩
    exact hw.seq fun _ => Only.pure _

/-- Settles O43: the effect of every register's write lies within its footprint, and the four commands run that write. -/
theorem registerWriteFrame : Obligations.RegisterWriteFrame := by
  intro s t p r data mask c hi hl hc h
  have wf : regsWf ((Upd.out []).apply s.m).regs = true := hi.canon.regs
  have hw := regWrite_effect (ks := besideWrite s.m r data.toNat mask.toNat c) wf (hl.sent [])
    (by simp [besideWrite]) (besideWrite_locks _ _ _ _ _)
  obtain ⟨x, hx, hp⟩ := addressWrite_runs hc hw (writeEffect_settles r) fun _ h => List.mem_append_right _ h
  exact traced_keeps hi (regAt_index hl.mapped.2) (writeEffect_settles r) hp (hx ▸ h)

end Sys2Proof.Machine
end

section
/-!
A command that is one register write (Table 0.3), and what it leaves where that write is refused (R6, R424, R459; O44).
-/
namespace Sys2Proof.Machine

/-- The write of a register, whole. -/
def aimedWrite (a : Path × Reg × Nat × Nat) : CtlWrite := ⟨a.1, a.2.1.addr, 8, w64 a.2.2.1, w64 a.2.2.2⟩

/-- The command is the one write, as software makes it or as the Fabric Manager asks for it; a PERST of a port that has no slot of
its own writes nothing. -/
def WritesAs (c : Instr) (w : CtlWrite) : Prop :=
  (∀ s, exec c s = cmd (regWrite [w]) s) ∨
  (∀ s, exec c s = cmd (fmCmd w.path (do regWrite [w]; fmAnswer fmOK [])) s) ∨
  ∀ s, exec c s = cmd (fmCmd w.path (fmAnswer fmINPUT [])) s

/-- The command is the write, whose data and mask are words. -/
structure Aimed (c : Instr) (a : Path × Reg × Nat × Nat) : Prop where
  data : a.2.2.1 < 2 ^ 64
  mask : a.2.2.2 < 2 ^ 64
  runs : WritesAs c (aimedWrite a)

theorem some_aimed {c : Instr} {a b : Path × Reg × Nat × Nat} (h : some b = some a) (hb : Aimed c b) : Aimed c a :=
  Option.some.inj h ▸ hb

variable {c : Instr} {p : Path} {f : RF} {v : Nat}

theorem field_bits_lt (h : f.lo + f.w ≤ 64) : f.bits < 2 ^ 64 := by
  have hw : 2 ^ f.w - 1 < 2 ^ f.w := Nat.sub_lt (by positivity) (by decide)
  calc f.bits < 2 ^ f.w * 2 ^ f.lo := (Nat.mul_lt_mul_right (by positivity)).2 hw
    _ = 2 ^ (f.w + f.lo) := (Nat.pow_add _ _ _).symm
    _ ≤ 2 ^ 64 := Nat.pow_le_pow_right (by decide) (by omega)

theorem field_data_le (f : RF) (v : Nat) : v % 2 ^ f.w * 2 ^ f.lo ≤ f.bits :=
  Nat.mul_le_mul_right _ (Nat.le_sub_one_of_lt (Nat.mod_lt _ (by positivity)))

/-- The data and the mask of a field's write are words. -/
theorem aimField_lt (h : f.lo + f.w ≤ 64) : (aimField p f v).2.2.1 < 2 ^ 64 ∧ (aimField p f v).2.2.2 < 2 ^ 64 :=
  ⟨lt_of_le_of_lt (field_data_le f v) (field_bits_lt h), field_bits_lt h⟩

theorem aimed_field (h : f.lo + f.w ≤ 64 := by exact of_decide_eq_true rfl)
    (hx : ∀ s, exec c s = cmd (fieldWrite p f v) s := by intro _; rfl) : Aimed c (aimField p f v) :=
  ⟨(aimField_lt h).1, (aimField_lt (p := p) (v := v) h).2, .inl hx⟩

theorem fields_data_le (l : List (RF × Nat)) (a b : Nat) (h : a ≤ b) :
    l.foldl (fun a e => a + e.2 % 2 ^ e.1.w * 2 ^ e.1.lo) a ≤ (l.map Prod.fst).foldl (fun a f => a + f.bits) b := by
  induction l generalizing a b with
  | nil => exact h
  | cons e t ih => exact ih _ _ (Nat.add_le_add h (field_data_le _ _))

theorem fields_mask (l : List (RF × Nat)) :
    l.foldl (fun a e => a + e.1.bits) 0 = (l.map Prod.fst).foldl (fun a f => a + f.bits) 0 := by rw [List.foldl_map]

theorem aimed_fields {l : List (RF × Nat)} (fs : List RF) (hl : l.map Prod.fst = fs := by rfl)
    (h : fs.foldl (fun a f => a + f.bits) 0 < 2 ^ 64 := by decide)
    (hx : ∀ s, exec c s = cmd (fieldsWrite p l) s := by intro _; rfl)
    (hw : fieldsWrite p l = regWrite [aimedWrite (aimFields p l)] := by rfl) : Aimed c (aimFields p l) where
  data := lt_of_le_of_lt (fields_data_le l 0 0 le_rfl) (hl ▸ h)
  mask := by
    change l.foldl (fun a e => a + e.1.bits) 0 < _
    rw [fields_mask, hl]
    exact h
  runs := .inl fun s => by rw [hx, hw]

theorem aimed_word {k : RegKind} {i : Nat} {d : Word} (hx : ∀ s, exec c s = cmd (wordWrite p k i d) s := by intro _; rfl) :
    Aimed c (p, ⟨k, i⟩, d.toNat, 2 ^ 64 - 1) where
  data := d.isLt
  mask := Nat.sub_lt (by decide) (by decide)
  runs := .inl fun s => by
    rw [hx]
    simp only [aimedWrite, w64, BitVec.ofNat_toNat, BitVec.setWidth_eq]
    rfl

theorem aimed_perst (path : Path) (q : Fin 128) (v : Nat) (hx : ∀ s, exec c s = cmd (slotPerst path q v) s := by intro _; rfl) :
    Aimed c (aimField path (OCT_SLOT_CTL_PERST_FORCE (q / 4)) v) := by
  refine ⟨(aimField_lt (by exact of_decide_eq_true rfl)).1, (aimField_lt (p := path) (v := v) (by exact of_decide_eq_true rfl)).2, ?_⟩
  by_cases hq : (q : Nat) % 4 = 0
  · refine .inr (.inl fun s => ?_)
    rw [hx, slotPerst, if_pos hq]
    rfl
  · refine .inr (.inr fun s => ?_)
    rw [hx, slotPerst, if_neg hq]
    rfl

theorem aimed_ppb (path : Path) (q : Fin 128) : Aimed (.resetPpb path q) (aimField path (OCT_PORT_CTL_RETRAIN q) 1) :=
  ⟨(aimField_lt (by exact of_decide_eq_true rfl)).1, (aimField_lt (p := path) (v := 1) (by exact of_decide_eq_true rfl)).2,
    .inr (.inl fun _ => rfl)⟩

/-- Each such command is the write that it aims at. -/
theorem aim_aimed {a : Path × Reg × Nat × Nat} (h : aim c = some a) (hm : ∀ x, c ≠ .mbWarmReset x) : Aimed c a := by
  cases c with
  | loadFlashA => exact some_aimed h aimed_field
  | loadFlashB => exact some_aimed h aimed_field
  | loadStage => exact some_aimed h aimed_field
  | abort => exact some_aimed h aimed_field
  | stageDataAccess path data =>
    cases data with
    | none => cases h
    | some v => exact some_aimed h aimed_word
  | structEnable => exact some_aimed h aimed_field
  | structDisable => exact some_aimed h aimed_field
  | structCheck => exact some_aimed h aimed_field
  | portEnableWrite => exact some_aimed h aimed_field
  | retrain => exact some_aimed h aimed_field
  | redoEq => exact some_aimed h aimed_field
  | portClrCnt => exact some_aimed h aimed_field
  | planeOut => exact some_aimed h aimed_field
  | planeReturn => exact some_aimed h aimed_field
  | xbClrCnt => exact some_aimed h aimed_field
  | probeStart => exact some_aimed h aimed_field
  | fmdCommit => exact some_aimed h aimed_field
  | fmdDecommit => exact some_aimed h aimed_field
  | sqClrCnt => exact some_aimed h aimed_field
  | slotRingEnable => exact some_aimed h aimed_field
  | flushQueue => exact some_aimed h (aimed_fields [TM_CMD_QUEUE, TM_CMD_OP])
  | tmClrCnt => exact some_aimed h aimed_field
  | gateChange => exact some_aimed h aimed_field
  | todSet => exact some_aimed h (aimed_fields [TB_TOD_CTL_NS, TB_TOD_CTL_SET])
  | todArm => exact some_aimed h (aimed_fields [TB_TOD_CTL_NS, TB_TOD_CTL_ARM])
  | timeStepOffset => exact some_aimed h aimed_field
  | tbClrCnt => exact some_aimed h aimed_field
  | gclDataAccess path data =>
    cases data with
    | none => cases h
    | some v => exact some_aimed h aimed_word
  | ringEnable => exact some_aimed h aimed_field
  | ringDisable => exact some_aimed h aimed_field
  | ringClrCnt => exact some_aimed h aimed_field
  | clusterOut => exact some_aimed h aimed_field
  | clusterReturn => exact some_aimed h aimed_field
  | tableEnable => exact some_aimed h aimed_field
  | lmClrCnt => exact some_aimed h aimed_field
  | predClr => exact some_aimed h aimed_field
  | kskBankOut => exact some_aimed h aimed_field
  | kskBankReturn => exact some_aimed h aimed_field
  | kioskFlush => exact some_aimed h aimed_field
  | kskClrCnt => exact some_aimed h aimed_field
  | kerbWindowWrite => exact some_aimed h aimed_word
  | kerbFenceGo => exact some_aimed h aimed_field
  | sliceEnable => exact some_aimed h aimed_field
  | sliceDisable => exact some_aimed h aimed_field
  | violationClear => exact some_aimed h aimed_field
  | krbClrCnt => exact some_aimed h aimed_field
  | spindleEnable => exact some_aimed h aimed_field
  | spindleRetrain => exact some_aimed h aimed_field
  | spindleClrCnt => exact some_aimed h aimed_field
  | fwSend => exact some_aimed h aimed_field
  | whorlClrCnt => exact some_aimed h aimed_field
  | fence => exact some_aimed h aimed_field
  | unfence => exact some_aimed h aimed_field
  | yield => exact some_aimed h aimed_field
  | handback => exact some_aimed h aimed_field
  | twnClrCnt => exact some_aimed h aimed_field
  | scrubGo => exact some_aimed h (aimed_fields [INT_SCRUB_CTL_GO, INT_SCRUB_CTL_MEM, INT_SCRUB_CTL_INSTANCE])
  | scrubAbort => exact some_aimed h aimed_field
  | retireAdd => exact some_aimed h aimed_field
  | writeRaw => exact some_aimed h aimed_field
  | readRaw => exact some_aimed h aimed_field
  | evqEnable => exact some_aimed h aimed_field
  | intClrCnt => exact some_aimed h aimed_field
  | powerRequest => exact some_aimed h aimed_field
  | pwrClrCnt => exact some_aimed h aimed_field
  | avsMarginWrite => exact some_aimed h aimed_field
  | slotPowerReq => exact some_aimed h aimed_field
  | unlatch => exact some_aimed h aimed_field
  | slotClrCnt => exact some_aimed h aimed_field
  | glbResetWarm => exact some_aimed h (aimed_fields [GLB_RESET_CTL_WARM, GLB_RESET_CTL_KEY])
  | kick => exact some_aimed h aimed_field
  | coreReset => exact some_aimed h aimed_field
  | mbWarmReset x => exact absurd rfl (hm x)
  | assertPerst path q => exact some_aimed h (aimed_perst path q 1)
  | deassertPerst path q => exact some_aimed h (aimed_perst path q 0)
  | resetPpb path q => exact some_aimed h (aimed_ppb path q)
  | pmuClrAll => exact some_aimed h aimed_field
  | testGo => exact some_aimed h (aimed_fields [TST_CMD_GO, TST_CMD_KIND, TST_CMD_DOMAIN, TST_CMD_PATTERNS])
  | testAbort => exact some_aimed h aimed_field
  | chalReq => exact some_aimed h aimed_field
  | grant => exact some_aimed h aimed_field
  | relock => exact some_aimed h aimed_field
  | cmdConflictClear => exact some_aimed h aimed_field
  | pathCntClr => exact some_aimed h aimed_field
  | _ => cases h

/-! What a refused command leaves. -/

theorem w64_toNat {n : Nat} (h : n < 2 ^ 64) : (w64 n).toNat = n := by
  rw [w64, BitVec.toNat_ofNat, Nat.mod_eq_of_lt h]

/-- What such a command runs: its write, and the answer to the Fabric Manager. -/
theorem aimed_runs {S : Upd → Bool} {a : Path × Reg × Nat × Nat} {s : State} (ha : Aimed c a)
    (hw : RunsIn S (regWrite [aimedWrite a]) ((Upd.out []).apply s.m)) (answers : ∀ code l, Only S (fmAnswer code l)) :
    ∃ x, exec c s = cmd x s ∧ RunsIn S x ((Upd.out []).apply s.m) := by
  rcases ha.runs with hx | hx | hx
  · exact ⟨_, hx s, hw⟩
  · exact ⟨_, hx s, RunsIn.getM (RunsIn.onlyIf fun _ => hw.seq fun _ => answers _ _)⟩
  · exact ⟨_, hx s, (Only.bind Only.getM fun _ => Only.onlyIf (answers _ _)).runsIn _⟩

/-- A refused write is recorded (R6, R459). -/
theorem regWrite_refused_runsIn {m : Mach} {r : Reg} {data mask : Word} (h8 : r.addr % 8 = 0) (hat : regAt r.addr = some r)
    (hap : r.k ≠ .TEN_OBJ_DATA) (hpage : isPage p = true → r.k ≠ .TEN_VIOL ∧ r.k ≠ .TEN_OBJ_SEL)
    (h : isPage p = true ∨ reaches m p r.addr true (data.toNat &&& mask.toNat) = false ∨
      writeTest m r data.toNat mask.toNat p ≠ rcOK) :
    RunsIn Foot.refused.has (regWrite [⟨p, r.addr, 8, data, mask⟩]) m := by
  obtain ⟨x, hx, only⟩ := admit_refused h8 hat hap hpage h
  exact regWrite_refused hx ((at_le only (by decide +kernel)).runsIn m)

/-- Settles O44: the path or a test of the write refuses it, and what records that lies within the footprint. -/
theorem refusedWriteFrame : Obligations.RefusedWriteFrame := by
  intro s t c p r data mask hi ha hm hat h8 hap hpage href h
  obtain ⟨hd, hk, hx⟩ := aim_aimed ha hm
  have refused : RunsIn Foot.refused.has (regWrite [aimedWrite (p, r, data, mask)]) ((Upd.out []).apply s.m) :=
    regWrite_refused_runsIn h8 hat hap hpage (by
      rw [w64_toNat hd, w64_toNat hk]
      exact href)
  obtain ⟨x, hx, hp⟩ := aimed_runs ⟨hd, hk, hx⟩ refused fun _ _ => at_le (emit_only _) (by decide +kernel)
  exact cmd_keeps hi hp (by decide +kernel) (fun r hr => .inr hr) (hx ▸ h)

end Sys2Proof.Machine
end

section
/-!
What an accepted write stores where its register does nothing else, and the two captures that software clears (R424, R425, R459;
O3).
-/
namespace Sys2Proof.Machine

-- One declaration at a time: proofs that compute in the kernel wait for it, each with a stack of its own.
set_option Elab.async false

variable {k : RegKind} {i old cmd mask : Nat} {m : Mach} {p : Path}

/-- How much a footprint names. -/
def Foot.size (F : Foot) : Nat := F.regs.length + F.tabs.length + F.objs.length

/-- A register whose write does nothing beside it. -/
def RegKind.quiet (k : RegKind) : Bool := decide ((writeEffect ⟨k, 0⟩).size = Foot.quiet.size)

theorem writeEffect_quiet (h : writeEffect ⟨k, i⟩ = Foot.quiet) : k.quiet = true := by
  have size : (writeEffect ⟨k, 0⟩).size = (writeEffect ⟨k, i⟩).size := by cases k <;> rfl
  exact decide_eq_true (by rw [size, h])

/-- The effect of such a register is none: no effect names it. -/
theorem regEffect_idle (h : k.quiet = true) (h1 : k ≠ .SQ_FMD_CTL) (h2 : k ≠ .GLB_PATH_CNT) (h3 : k ≠ .FWM_CORE_CTL) :
    SameAt m (regEffect ⟨k, i⟩ old cmd mask p) (pure ()) := by
  cases k <;> first
    | exact absurd h (by decide) | exact fun _ => rfl | exact absurd rfl h1 | exact absurd rfl h2 | exact absurd rfl h3

/-- A core that is reset is told of outside the block. -/
theorem coreCtl_only : Only Foot.quiet.has (regEffect ⟨.FWM_CORE_CTL, i⟩ old cmd mask p) :=
  Only.each fun _ _ => Only.onlyIf (at_le (emit_only _) (by decide +kernel))

/-- The write of a quiet register sends at most what leaves the block. -/
theorem regEffect_quiet (h : k.quiet = true) (h1 : k ≠ .SQ_FMD_CTL) (h2 : k ≠ .GLB_PATH_CNT) :
    RunsIn Foot.quiet.has (regEffect ⟨k, i⟩ old cmd mask p) m := by
  by_cases h3 : k = .FWM_CORE_CTL
  · subst h3
    exact coreCtl_only.runsIn m
  · exact RunsIn.same (regEffect_idle h h1 h2 h3) (RunsIn.pure ())

/-! What a command that raises nothing holds at its end. -/

/-- What holds of the block where a command that raises no record and no fence ends its program holds at the end of its step. -/
theorem does_quiet {c : Instr} {x : P Unit} {s : State} {A : Mask} {l : List Reg} {Q : Mach → Prop} (hi : s.Inv)
    (hx : exec c s = Machine.cmd x s)
    (hp : Ends x ((Upd.out []).apply s.m) fun _ m1 => Via (At.has A l) ((Upd.out []).apply s.m) m1 ∧ Q m1)
    (he : A.hasTab .evPend = false) (hf : A.hasTab .feDue = false)
    (hQ : ∀ m1 m2, Q m1 → Via Feet.quiet.has m1 m2 → Q m2) : Does c s Q := by
  obtain ⟨_, m1, h1, v1, q⟩ := hp fun _ => toProg settle
  refine ⟨_, hx.trans (cmd_run x s), rfl, ?_⟩
  change Q (Prog.run (x fun _ => toProg settle) ((Upd.out []).apply s.m))
  rw [h1]
  exact hQ _ _ q (settle_via (by decide +kernel) (.inl ((v1.tab_same (T := .evPend) he).trans hi.told))
    (.inl ((v1.tab_same (T := .feDue) hf).trans hi.calm)))

theorem At.has_mono {A B : Mask} {l l' : List Reg} (h : A.le B = true) (hl : l ⊆ l') (u : Upd)
    (hu : At.has A l u = true) : At.has B l' u = true := by
  simp only [At.has, Bool.or_eq_true] at hu ⊢
  refine hu.imp (Mask.has_mono h u) fun hu => ?_
  cases u <;> simp at hu ⊢
  exact hl hu

theorem quiet_has (u : Upd) (hu : Foot.quiet.has u = true) : Feet.quiet.has u = true := by
  simp only [Foot.has, At.has, Bool.or_eq_true] at hu
  refine hu.elim (fun h => h) fun h => ?_
  cases u <;> simp [Foot.quiet] at h

theorem quiet_rd {m1 m2 : Mach} (v : Via Feet.quiet.has m1 m2) (r : Reg) : m2.rd r = m1.rd r :=
  v.rd_eq r fun _ => by rw [Mask.has_reg]; exact Foot.mask_reg (F := Foot.quiet) (by simp [Foot.quiet])

/-- The room of a write that raises nothing. -/
def Feet.plainWrite : Mask := .of [.DBG_TRACE_STATUS, .GLB_STRUCT_STATUS] [.out, .pins, .trc, .trcNext]

theorem plain_room {r : Reg} {l : List Reg} {data d : Nat} (hr : r ∈ l) (ht : r.k ≠ .TWN_CTL) :
    Room Feet.plainWrite l m r data d :=
  ⟨.inr hr, by decide +kernel, by decide +kernel, .inr (by decide +kernel), fun h => absurd h ht⟩

/-- A quiet register holds what was written. -/
theorem write_stores {s : State} {r : Reg} {data d : Word} (hi : s.Inv) (hq : writeEffect r = Foot.quiet)
    (h1 : r.k ≠ .SQ_FMD_CTL) (h2 : r.k ≠ .GLB_PATH_CNT) (hl : Lands s.m p r data.toNat d.toNat) :
    Does (.registerWrite [⟨p, r.addr, 8, data, d⟩]) s fun t => (t.rd r).toNat = written s.m r data.toNat d.toNat := by
  have loud : r.k ≠ .TWN_CTL := fun h => absurd (h ▸ writeEffect_quiet hq) (by decide +kernel)
  have wf : regsWf ((Upd.out []).apply s.m).regs = true := hi.canon.regs
  refine does_quiet (A := Feet.plainWrite) (l := [r]) hi rfl ?_ (by decide +kernel) (by decide +kernel) fun m1 m2 q v => by
    rw [quiet_rd v, q]
  refine (regWrite_ends (Q := fun m1 => (m1.rd r).toNat = written s.m r data.toNat d.toNat) wf (hl.sent [])
    (plain_room (by simp) loud) fun m2 hw => ?_).imp fun _ _ q => ⟨q.1, q.2 loud⟩
  refine (regEffect_quiet (writeEffect_quiet hq) h1 h2).ends.imp fun _ m3 v => ⟨v.mono fun u hu => ?_, ?_⟩
  · exact At.has_mono (A := Foot.quiet.mask) (by decide +kernel) (by simp [Foot.quiet]) u hu
  · rw [quiet_rd (v.mono quiet_has)]
    exact hw.stored

/-- The register of a capture returns to its reset value, and what follows leaves it. -/
theorem rstReg_ends {A : Mask} {r : Reg} {x : P Unit} (h : regsWf m.regs = true) (hi : r.i < r.k.count) (hw : hardwired r = false)
    (hx : Only A.has x) (hr : A.hasReg r.k = false) :
    Ends (do rstReg r.k r.i; x) m fun _ m1 => Via (At.has A [r]) m m1 ∧ m1.rd r = resetVal r := by
  intro k
  obtain ⟨a, m1, h1, v1⟩ := hx k ((Upd.reg r (resetVal r)).apply m)
  refine ⟨a, m1, h1, .head (by simp [At.has]) (v1.mono fun u hu => by simp [At.has, hu]), ?_⟩
  rw [v1.rd_eq r fun _ => by rw [Mask.has_reg, hr], Mach.rd, Upd.apply_regs]
  have reset := resetVal_implMask r
  refine BitVec.eq_of_toNat_eq ?_
  simp only [regGet_regStore_same h hi hw, reset, BitVec.ofNat_toNat, BitVec.setWidth_eq]

/-- A clear of a conflict's capture (R425). -/
theorem conflictClear_ends (h : regsWf m.regs = true) : Ends conflictClear m fun _ m1 =>
    Via (At.has (.of [.GLB_CMD_CONFLICT_ADDR, .GLB_CMD_CONFLICT_DATA, .GLB_CMD_CONFLICT_MASK, .GLB_CMD_CONFLICT_TIME] [])
      [⟨.GLB_CMD_CONFLICT, 0⟩]) m m1 ∧ m1.rd ⟨.GLB_CMD_CONFLICT, 0⟩ = resetVal ⟨.GLB_CMD_CONFLICT, 0⟩ :=
  rstReg_ends (r := ⟨.GLB_CMD_CONFLICT, 0⟩) h (by decide) rfl
    (Only.bind (Only.rstK .GLB_CMD_CONFLICT_ADDR (by decide +kernel)) fun _ =>
      Only.bind (Only.rstK .GLB_CMD_CONFLICT_DATA (by decide +kernel)) fun _ =>
      Only.bind (Only.rstK .GLB_CMD_CONFLICT_MASK (by decide +kernel)) fun _ =>
      Only.rstK .GLB_CMD_CONFLICT_TIME (by decide +kernel)) (by decide +kernel)

/-- The room of a write to a capture's register. -/
def Feet.captureWrite : Mask := Feet.plainWrite.plus [.of [.GLB_CMD_CONFLICT_ADDR, .GLB_CMD_CONFLICT_DATA,
  .GLB_CMD_CONFLICT_MASK, .GLB_CMD_CONFLICT_TIME] []]

theorem does_field {s : State} {c : Instr} {f : RF} {v : Nat} {Q : Mach → Prop} (hi : s.Inv) (hf : f.lo + f.w ≤ 64)
    (ht : f.k ≠ .TWN_CTL) (hl : LandsIn s.m p f v) (hx : exec c s = Machine.cmd (fieldWrite p f v) s)
    (hQ : ∀ m1 m2, Q m1 → Via Feet.quiet.has m1 m2 → Q m2)
    (hE : ∀ m2 old, regsWf m2.regs = true → Ends (regEffect ⟨f.k, f.i⟩ old (v % 2 ^ f.w * 2 ^ f.lo &&& f.bits)
      (f.bits &&& namedBits f.k) p) m2 fun _ m3 => Via (At.has Feet.captureWrite [⟨f.k, f.i⟩]) m2 m3 ∧ Q m3) : Does c s Q := by
  have hd : (w64 (v % 2 ^ f.w * 2 ^ f.lo)).toNat = v % 2 ^ f.w * 2 ^ f.lo := w64_toNat (aimField_lt (p := p) hf).1
  have hm : (w64 f.bits).toNat = f.bits := w64_toNat (field_bits_lt hf)
  have hl' : Lands s.m p ⟨f.k, f.i⟩ (w64 (v % 2 ^ f.w * 2 ^ f.lo)).toNat (w64 f.bits).toNat := by
    rw [hd, hm]
    exact hl
  have wf : regsWf ((Upd.out []).apply s.m).regs = true := hi.canon.regs
  refine does_quiet (A := Feet.captureWrite) (l := [⟨f.k, f.i⟩]) hi hx ?_ (by decide +kernel) (by decide +kernel) hQ
  refine (regWrite_ends (Q := Q) wf (hl'.sent []) ⟨.inr (by simp), by decide +kernel, by decide +kernel, .inr (by decide +kernel),
    fun h => absurd h ht⟩ fun m2 hw => ?_).imp fun _ _ q => ⟨q.1, q.2 ht⟩
  rw [hd, hm]
  exact hE m2 _ hw.wf

/-- Settles O3: the effect of a quiet register is none, and each of the two captures is cleared by its effect. -/
theorem registerWriteStores : Obligations.RegisterWriteStores := by
  intro s hi
  refine ⟨fun p r data mask hq h1 h2 hl => write_stores hi hq h1 h2 hl, fun p hl => ?_, fun p hl => ?_⟩
  · refine does_field hi (by decide) (by decide) hl rfl (fun m1 m2 q v => ?_) fun m2 old wf => ?_
    · simpa only [Mach.g, quiet_rd v] using q
    · refine (conflictClear_ends wf).imp fun _ m3 q => ⟨q.1.mono (At.has_mono (by decide +kernel) fun _ h => h), ?_, ?_⟩
      · rw [Mach.g, q.2]; decide +kernel
      · rw [Mach.g, q.2]; decide +kernel
  · refine does_field hi (by decide) (by decide) hl rfl (fun m1 m2 q v => ?_) fun m2 old wf => ?_
    · simpa only [Mach.g, quiet_rd v] using q
    · exact fun k => ⟨(), m2.set GLB_PATH_CNT_COUNT 0, rfl, .head (by simp [At.has]) (.refl _), g_set_same wf (by decide +kernel)⟩

end Sys2Proof.Machine
end

section
/-!
Reserved bits hold 0, and a write that sets one is refused and recorded (R6, R41; O55).
-/
namespace Sys2Proof.Machine

-- One declaration at a time: proofs that compute in the kernel wait for it, each with a stack of its own.
set_option Elab.async false

variable {m m1 m2 : Mach} {p : Path} {r : Reg} {data mask : Word} {reason : Nat} {e : EvRec} {ring : Option Nat}

/-! A write that sets a reserved bit. -/

/-- The block of a mapped address names the registers there. -/
theorem regAt_blk {a : Nat} (h : regAt a = some r) : r.k.desc.blk = blkOf a := by
  obtain ⟨k, hk, hr⟩ := List.exists_of_findSome?_eq_some h
  have named : ∀ b : Blk, ∀ k ∈ b.kinds, k.desc.blk = b := by
    intro b
    cases b <;> decide +kernel
  split at hr
  · cases hr
  · obtain ⟨i, -, rfl⟩ := Option.map_eq_some_iff.1 hr
    exact named _ k hk

/-- A tenant control page lies in the block TEN. -/
theorem page_blk {v s : Nat} {bits : Nat} (h : reaches m (.tenantPage v s) r.addr true bits = true) (hat : regAt r.addr = some r) :
    r.k.desc.blk = .TEN := by
  have low : 0x2100000 ≤ r.addr := by
    simp only [reaches, Bool.and_eq_true, decide_eq_true_eq] at h
    omega
  rw [regAt_blk hat]
  simp [blkOf, blkBases, low]

/-- The aperture's register names every bit. -/
theorem aperture_names : namedBits .TEN_OBJ_DATA = 2 ^ 64 - 1 := by decide +kernel

theorem reserved_aperture (h : data.toNat &&& mask.toNat &&& namedBits r.k ≠ data.toNat &&& mask.toNat) : r.k ≠ .TEN_OBJ_DATA := by
  intro hk
  rw [hk, aperture_names, Nat.and_two_pow_sub_one_eq_mod, Nat.mod_eq_of_lt] at h
  · exact h rfl
  · exact lt_of_le_of_lt Nat.and_le_left data.isLt

/-- The refusal of a reserved bit carries its block's limit. -/
theorem reason_reserved (hat : regAt r.addr = some r) (hreach : reaches m p r.addr true (data.toNat &&& mask.toNat) = true)
    (h : data.toNat &&& mask.toNat &&& namedBits r.k ≠ data.toNat &&& mask.toNat) :
    reasonOf m p r data.toNat mask.toNat = r.k.desc.blk.limit := by
  unfold reasonOf
  split
  · next hp =>
    cases p with
    | tenantPage v s => rw [page_blk hreach hat]; rfl
    | _ => cases hp.1
  · exact writeTest_reserved h

theorem admit_reserved (h8 : r.addr % 8 = 0) (hat : regAt r.addr = some r)
    (hreach : reaches m p r.addr true (data.toNat &&& mask.toNat) = true)
    (h : data.toNat &&& mask.toNat &&& namedBits r.k ≠ data.toNat &&& mask.toNat) :
    SameAt m (admitWrite ⟨p, r.addr, 8, data, mask⟩)
      (do refuse r ⟨p, r.addr, 8, data, mask⟩ r.k.desc.blk.limit; return []) := fun k => by
  have own : isPage p = true → reaches m p r.addr true 0 = true := fun hp => by
    cases p with
    | tenantPage v s => exact hreach
    | _ => cases hp
  rw [admitWrite_own h8 hat (reserved_aperture h) own k, admitOne, if_neg (by simp [hreach]), reason_reserved hat hreach h,
    if_neg (limit_ne_ok _)]

/-! The record of a refusal. -/

/-- What the record of a refusal of register `r` says (R41): the register and the reason; it interrupts no one. -/
structure Tells (r : Reg) (reason : Nat) (e : EvRec) : Prop where
  code : e.code = reason / 256 * 256 + 0x80
  addr : e.addr = r.addr
  reason : bitsAt e.detail 0 16 = reason
  src : e.src < 256
  sev : e.sev = 0

theorem src_lt (b : Blk) : b.src < 256 := by cases b <;> decide

theorem limit_lt (b : Blk) : b.limit < 65536 := by cases b <;> decide

/-- The hosts' logs mark a record, and change no more of it (R372). -/
theorem evHost_ends (h : Tells r reason e) : Ends (evHost e) m fun e' m1 => Via Feet.evHost.has m m1 ∧ Tells r reason e' := by
  obtain ⟨code, addr, detail, src, sev⟩ := h
  refine Ends.getM ?_
  dsimp only
  split
  · exact fun k => ⟨e, m, rfl, .refl m, code, addr, detail, src, sev⟩
  · have logged (v : Nat) : Only Feet.evHost.has (modHlog v fun l => if l.length < 64 then l ++ [{ e with flags := e.flags ||| 4 }] else l) :=
      Only.bind (Only.bind Only.getM fun _ => Only.pure _) fun _ => Only.doT .hlog rfl (by decide +kernel)
    exact Ends.bind ((Only.each fun v _ => logged _).runsIn m) fun _ m1 v1 k => ⟨_, m1, rfl, v1, code, addr, detail, src, sev⟩

/-- A record raised waits for its delivery, alone where none waited. -/
theorem raise_ends (hm : m.evPend = []) (h : Tells r reason e) : Ends (raise e) m fun _ m1 =>
    Via Feet.raise.has m m1 ∧ ∃ e' ring, Tells r reason e' ∧ m1.evPend = [(e', ring)] := by
  obtain ⟨code, addr, detail, src, sev⟩ := h
  have timed : Tells r reason { e with time := m.time64 } := ⟨code, addr, detail, src, sev⟩
  change Ends (evHost { e with time := m.time64 } >>= fun e => evWait none e) m _
  refine Ends.bind (evHost_ends timed) fun e' m1 ⟨v1, h1⟩ k => ?_
  have none_waits : m1.evPend = [] := (v1.keep (·.evPend) fun u m hu => Upd.apply_evPend m u fun ht => by
    rw [Mask.has_tab ht] at hu; exact absurd hu (by decide +kernel)).trans hm
  refine ⟨(), (Upd.evPend [(e', evRingOf m1 e' none)]).apply m1, ?_, ?_, e', _, h1, rfl⟩
  · change Prog.run (k ()) ((Upd.evPend (evInsert (e', evRingOf m1 e' none) m1.evPend)).apply m1) = _
    rw [none_waits]
    rfl
  · exact (v1.mono (Mask.has_mono (by decide +kernel))).trans (.head (by rw [Mask.has_tab rfl]; decide +kernel) (.refl _))

/-- A refusal leaves its record to be delivered. -/
theorem refuse_ends (w : CtlWrite) (hw : w.addr = r.addr) (hm : m.evPend = []) :
    Ends (refuse r w r.k.desc.blk.limit) m fun _ m1 => Via Feet.refuse.has m m1 ∧
      ∃ e ring, Tells r r.k.desc.blk.limit e ∧ m1.evPend = [(e, ring)] := by
  have detail (a b c : Nat) (h : a < 65536) : bitsAt (a % 2 ^ 16 + b % 256 * 2 ^ 16 + c % 256 * 2 ^ 24) 0 16 = a := by
    unfold bitsAt
    omega
  have record (reason : Nat) (hr : reason < 65536) (s q : Nat) : Tells r reason
      ((((((ev r.k.desc.blk.src 0 (reason / 256 * 256 + 0x80)).at w.addr).h24 reason).b26 (pathCode m w.path)).b27
        (pathVcs w.path)).onSlice s |>.onPort q) :=
    ⟨rfl, hw, by simpa [ev, EvRec.at, EvRec.h24, EvRec.b26, EvRec.b27, EvRec.onSlice, EvRec.onPort] using detail _ _ _ hr,
      src_lt _, rfl⟩
  have told : Ends (writeRefused r w.addr r.k.desc.blk.limit w.path) m fun _ m1 => Via Feet.raise.has m m1 ∧
      ∃ e ring, Tells r r.k.desc.blk.limit e ∧ m1.evPend = [(e, ring)] :=
    Ends.getM (raise_ends hm (record _ (limit_lt _) _ _))
  refine Ends.getM (told.bind fun _ m1 ⟨v1, e, ring, he, hp⟩ => ?_)
  have rest : Only (Feet.trace.plus [Feet.structShow]).has (do
      trace 1 (pathCode m w.path) r.k.desc.blk.limit w.addr w.data w.mask
      onlyIf (r.k = .GLB_STRUCT_CTL ∧ r.k.desc.blk.limit = rcIN_USE) (structShow (some (phase0 rcIN_USE)))) :=
    Only.bind ((trace_only _ _ _ _ _ _).le (by decide +kernel)) fun _ => Only.onlyIf ((structShow_only _).le (by decide +kernel))
  refine (rest.runsIn m1).ends.imp fun _ m2 v2 => ⟨(v1.mono (Mask.has_mono (by decide +kernel))).trans
    (v2.mono (Mask.has_mono (by decide +kernel))), e, ring, he, ?_⟩
  rw [← hp]
  exact v2.keep (·.evPend) fun u m hu => Upd.apply_evPend m u fun ht => by
    rw [Mask.has_tab ht] at hu; exact absurd hu (by decide +kernel)

/-! The delivery of one record (R370). -/

/-- What follows the firmware's part of a delivery of one record that raises no fence. -/
def Feet.afterOut : Mask := (.of [] [.feDue, .pins] : Mask).plus [Feet.evRingPut]

/-- One record is delivered: to the firmware, and then to its ring; and the step ends. -/
theorem settle_one {Q : Mach → Prop} (hp : m.evPend = [(e, ring)]) (hd : m.feDue = false)
    (hf : Ends (evFirmware e) ((Upd.evPend []).apply m) fun _ m1 => Via Feet.evOut.has ((Upd.evPend []).apply m) m1 ∧ Q m1)
    (hQ : ∀ m1 m2, Q m1 → Via Feet.afterOut.has m1 m2 → Q m2) : Q (Prog.run (toProg settle) m) := by
  have after : Only Feet.evRingPut.has (match ring with | some r => evRingPut r e | none => pure ()) := by
    cases ring with
    | none => exact Only.pure ()
    | some r => exact evRingPut_only r e
  obtain ⟨_, m1, h1, v1, q⟩ := hf fun _ =>
    (match ring with | some r => evRingPut r e | none => pure ()) fun _ => feFence fun _ => pinsShow fun _ => .done
  obtain ⟨_, m2, h2, v2⟩ := after (fun _ => feFence fun _ => pinsShow fun _ => .done) m1
  have calm : m2.feDue = false := by
    have kept {A : Mask} {x y : Mach} (v : Via A.has x y) (hA : A.hasTab .feDue = false) : y.feDue = x.feDue :=
      v.keep (·.feDue) fun u m hu => Upd.apply_feDue m u fun ht => by
        rw [Mask.has_tab ht, hA] at hu
        exact absurd hu (by decide)
    exact (kept v2 (by decide +kernel)).trans ((kept v1 (by decide +kernel)).trans hd)
  obtain ⟨v, h3⟩ := pinsShow_run m2 fun _ => .done
  have flush : Prog.run (toProg settle) m = Prog.run (evFirmware e fun _ =>
      (match ring with | some r => evRingPut r e | none => pure ()) fun _ => feFence fun _ => pinsShow fun _ => .done)
      ((Upd.evPend []).apply m) := by
    change Prog.run (each m.evPend evOut fun _ => feFence fun _ => pinsShow fun _ => .done) ((Upd.evPend []).apply m) = _
    rw [hp]
    cases ring <;> rfl
  have ends : Prog.run (feFence fun _ => pinsShow fun _ => .done) m2 = (Upd.pins v).apply ((Upd.feDue false).apply m2) := by
    rw [show Prog.run (feFence fun _ => pinsShow fun _ => .done) m2 = Prog.run (pinsShow fun _ => .done) m2 by
      simp [feFence, calm]]
    exact h3
  rw [flush, h1, h2, ends]
  refine hQ m1 _ q ((v2.mono (Mask.has_mono (by decide +kernel))).trans (.head ?_ (.head ?_ (.refl _)))) <;>
    rw [Mask.has_tab rfl] <;> decide +kernel

/-- While the event queue is off a record waits in the holding queue, where that has room. -/
theorem evFirmware_hold (hs : e.sev = 0) (hd : domOn m 2 = true) (hq : m.g INT_EVQ_BASE_EN = 0) (hl : m.hold.length < 256) :
    Ends (evFirmware e) m fun _ m1 => Via Feet.evOut.has m m1 ∧ m1.hold = m.hold ++ [e] := fun k => by
  refine ⟨(), (Upd.hold (m.hold ++ [e])).apply m, ?_, .head (by rw [Mask.has_tab rfl]; decide +kernel) (.refl _), rfl⟩
  simp only [evFirmware, bind_at, getM_at, run_look, onlyIf_at, hs, hd, hq, hl]
  rfl

/-- The four words of a record, as the queue holds them. -/
def recordAt (m : Mach) (b : Nat) (e : EvRec) : Prop :=
  ∀ i < 4, m.getSram (b + i) = w64 (e.words.getD i 0)

/-- What is stored in four words in turn is read back. -/
theorem tget_four {t : List (Nat × Word)} {b : Nat} {x0 x1 x2 x3 : Word} (h : twf 0#64 t = true) :
    let u := tput 0#64 (tput 0#64 (tput 0#64 (tput 0#64 t (b + 0) x0) (b + 1) x1) (b + 2) x2) (b + 3) x3
    tget 0#64 u (b + 0) = x0 ∧ tget 0#64 u (b + 1) = x1 ∧ tget 0#64 u (b + 2) = x2 ∧ tget 0#64 u (b + 3) = x3 := by
  have h0 := tput_wf (k := b + 0) (v := x0) h
  have h1 := tput_wf (k := b + 1) (v := x1) h0
  have h2 := tput_wf (k := b + 2) (v := x2) h1
  refine ⟨?_, ?_, ?_, tget_tput_same h2⟩
  · rw [tget_tput_other h2 (by omega), tget_tput_other h1 (by omega), tget_tput_other h0 (by omega), tget_tput_same h]
  · rw [tget_tput_other h2 (by omega), tget_tput_other h1 (by omega), tget_tput_same h0]
  · rw [tget_tput_other h2 (by omega), tget_tput_same h1]

/-- What is stored in the words of a record is read back. -/
theorem putRecord_ends (b : Nat) (h : twf 0#64 m.sram = true) : Ends (each e.words.zipIdx fun p => putSram (b + p.2) (w64 p.1)) m
    fun _ m1 => Via Feet.evOut.has m m1 ∧ recordAt m1 b e := by
  have stores {a : Nat} {v : Word} : Feet.evOut.has (.sram a v) = true := by
    rw [Mask.has_tab rfl]; decide +kernel
  obtain ⟨x0, x1, x2, x3, hw⟩ : ∃ x0 x1 x2 x3, e.words = [x0, x1, x2, x3] := ⟨_, _, _, _, rfl⟩
  unfold recordAt
  rw [hw]
  obtain ⟨r0, r1, r2, r3⟩ := tget_four (b := b) (x0 := w64 x0) (x1 := w64 x1) (x2 := w64 x2) (x3 := w64 x3) h
  refine fun k => ⟨(), _, rfl, .head stores (.head stores (.head stores (.head stores (.refl _)))), fun i hi => ?_⟩
  match i, hi with
  | 0, _ => exact r0
  | 1, _ => exact r1
  | 2, _ => exact r2
  | 3, _ => exact r3

/-- While the event queue is on and has room, the record goes to the slot at PROD. -/
theorem evqPut_ends (h : twf 0#64 m.sram = true)
    (hfree : 16 ≤ 2 ^ m.g INT_EVQ_BASE_SIZE_LOG2 - idxDiff (m.g INT_EVQ_IDX_PROD) (m.g INT_EVQ_IDX_CONS)) :
    Ends (evqPut e) m fun _ m1 => Via Feet.evOut.has m m1 ∧ ∃ flags, recordAt m1 (evqSlot m (m.g INT_EVQ_IDX_PROD))
      { e with flags := flags } := by
  obtain ⟨flags, hflags⟩ : ∃ flags, (if m.evLost then { e with flags := e.flags ||| 0x8000 } else e) = { e with flags := flags } := by
    split
    · exact ⟨_, rfl⟩
    · exact ⟨e.flags, rfl⟩
  -- what follows the four words leaves them
  have rest : Only (Mask.of [.INT_EVQ_IDX] [.evLost, .out]).has (do
      addWrap INT_EVQ_IDX_PROD 1
      putEvLost false
      let k ← getM
      let waiting := idxDiff (k.g INT_EVQ_IDX_PROD) (k.g INT_EVQ_IDX_CONS)
      onlyIf (e.sev ≤ 1 ∧ k.g INT_EVQ_IRQ_IRQ_COUNT ≤ waiting) (emit .mgmtIrq)) :=
    Only.bind (Only.addWrapK .INT_EVQ_IDX rfl (by decide +kernel)) fun _ => Only.bind (Only.doT .evLost rfl (by decide +kernel))
      fun _ => Only.bind Only.getM fun _ => Only.onlyIf ((emit_only _).le (by decide +kernel))
  refine Ends.getM ?_
  dsimp only
  rw [if_neg (by omega), hflags]
  refine (putRecord_ends (e := { e with flags := flags }) (evqSlot m (m.g INT_EVQ_IDX_PROD)) h).bind fun _ m1 ⟨v1, r1⟩ => ?_
  refine (rest.runsIn m1).ends.imp fun _ m2 v2 => ⟨v1.trans (v2.mono (Mask.has_mono (by decide +kernel))), flags, fun i hi => ?_⟩
  rw [← r1 i hi, Mach.getSram, Mach.getSram, v2.keep (·.sram) fun u m hu => Upd.apply_sram m u fun ht => by
    rw [Mask.has_tab ht] at hu; exact absurd hu (by decide +kernel)]

theorem evFirmware_queue (hs : e.sev = 0) (hd : domOn m 2 = true) (hq : m.g INT_EVQ_BASE_EN = 1) (h : twf 0#64 m.sram = true)
    (hfree : 16 ≤ 2 ^ m.g INT_EVQ_BASE_SIZE_LOG2 - idxDiff (m.g INT_EVQ_IDX_PROD) (m.g INT_EVQ_IDX_CONS)) :
    Ends (evFirmware e) m fun _ m1 => Via Feet.evOut.has m m1 ∧ ∃ flags, recordAt m1 (evqSlot m (m.g INT_EVQ_IDX_PROD))
      { e with flags := flags } := fun k => by
  obtain ⟨a, m1, h1, q⟩ := evqPut_ends h hfree k
  refine ⟨a, m1, ?_, q⟩
  rw [← h1]
  simp only [evFirmware, bind_at, getM_at, run_look, onlyIf_at, hs, hd, hq]
  rfl

/-- The words of a record of a refusal show its code and its reason. -/
theorem words_tell (h : Tells r reason e) (hr : reason < 65536) (flags : Nat) :
    bitsAt (w64 ({ e with flags := flags }.words.getD 1 0)).toNat 16 16 = reason / 256 * 256 + 0x80 ∧
      bitsAt (w64 ({ e with flags := flags }.words.getD 3 0)).toNat 0 16 = reason := by
  obtain ⟨code, -, detail, src, sev⟩ := h
  simp only [EvRec.words, List.getD_cons_succ, List.getD_cons_zero, w64, BitVec.toNat_ofNat, Nat.mod_mod]
  constructor
  · rw [bitsAt_mod_64 (by decide), code, sev]
    unfold bitsAt
    omega
  · rw [bitsAt_mod_64 (by decide), detail]

/-! The write of a whole register that sets a reserved bit. -/

/-- The block as the firmware's part of the delivery finds it: what the refusal leaves of the state before the write. -/
structure Refused (m : Mach) (r : Reg) (reason : Nat) (e : EvRec) (ring : Option Nat) (m1 : Mach) : Prop where
  via : Via Feet.refuse.has m m1
  tells : Tells r reason e
  waits : m1.evPend = [(e, ring)]

section
variable (h : Refused m r reason e ring m1)
include h

theorem Refused.g (f : RF) (hf : Feet.refuse.hasReg f.k = false) : ((Upd.evPend []).apply m1).g f = m.g f :=
  h.via.g_eq f fun _ => by rw [Mask.has_reg, hf]

theorem Refused.kept {γ : Type} (φ : Mach → γ) {T : Tab} (hT : Feet.refuse.hasTab T = false)
    (hφ : ∀ (m : Mach) (u : Upd), u.tab ≠ some T → φ (u.apply m) = φ m) : φ m1 = φ m :=
  h.via.keep φ fun u m hu => hφ m u fun ht => by rw [Mask.has_tab ht, hT] at hu; exact absurd hu (by decide)

theorem Refused.calm (hm : m.feDue = false) : m1.feDue = false :=
  (h.kept (·.feDue) (T := .feDue) (by decide +kernel) fun m u => Upd.apply_feDue m u).trans hm

theorem Refused.holds (hm : m.feDue = false) (hd : domOn m 2 = true) (hq : m.g INT_EVQ_BASE_EN = 0) (hl : m.hold.length < 256) :
    (Prog.run (toProg settle) m1).hold = m.hold ++ [e] := by
  have hold : m1.hold = m.hold := h.kept (·.hold) (T := .hold) (by decide +kernel) fun m u => Upd.apply_hold m u
  have dom : domOn ((Upd.evPend []).apply m1) 2 = true := by rw [domOn, h.g _ (by decide +kernel)]; exact hd
  refine settle_one (Q := fun m2 => m2.hold = m.hold ++ [e]) h.waits (h.calm hm) ?_ fun m2 m3 q v => ?_
  · have placed := evFirmware_hold h.tells.sev dom (by rw [h.g _ (by decide +kernel), hq])
      (show ((Upd.evPend []).apply m1).hold.length < 256 from hold ▸ hl)
    exact placed.imp fun _ m2 q => ⟨q.1, q.2.trans (congrArg (· ++ [e]) hold)⟩
  · rw [← q]
    exact v.keep (·.hold) fun u m hu => Upd.apply_hold m u fun ht => by
      rw [Mask.has_tab ht] at hu; exact absurd hu (by decide +kernel)

theorem Refused.queues (hm : m.feDue = false) (hs : twf 0#64 m.sram = true) (hd : domOn m 2 = true)
    (hq : m.g INT_EVQ_BASE_EN = 1)
    (hfree : 16 ≤ 2 ^ m.g INT_EVQ_BASE_SIZE_LOG2 - idxDiff (m.g INT_EVQ_IDX_PROD) (m.g INT_EVQ_IDX_CONS)) :
    ∃ flags, recordAt (Prog.run (toProg settle) m1) (evqSlot m (m.g INT_EVQ_IDX_PROD)) { e with flags := flags } := by
  have sram : m1.sram = m.sram := h.kept (·.sram) (T := .sram) (by decide +kernel) fun m u => Upd.apply_sram m u
  have dom : domOn ((Upd.evPend []).apply m1) 2 = true := by rw [domOn, h.g _ (by decide +kernel)]; exact hd
  have size := h.g INT_EVQ_BASE_SIZE_LOG2 (by decide +kernel)
  have prod := h.g INT_EVQ_IDX_PROD (by decide +kernel)
  have cons := h.g INT_EVQ_IDX_CONS (by decide +kernel)
  have base := h.g INT_EVQ_BASE_BASE (by decide +kernel)
  refine settle_one (Q := fun m2 => ∃ flags, recordAt m2 (evqSlot m (m.g INT_EVQ_IDX_PROD)) { e with flags := flags })
    h.waits (h.calm hm) ?_ fun m2 m3 ⟨flags, q⟩ v => ⟨flags, fun i hi => ?_⟩
  · have placed := evFirmware_queue h.tells.sev dom (by rw [h.g _ (by decide +kernel), hq])
      (show twf 0#64 ((Upd.evPend []).apply m1).sram = true from sram ▸ hs) (by rw [size, prod, cons]; exact hfree)
    rw [evqSlot, size, prod, base] at placed
    exact placed
  · rw [← q i hi, Mach.getSram, Mach.getSram, v.keep (·.sram) fun u m hu => Upd.apply_sram m u fun ht => by
      rw [Mask.has_tab ht] at hu; exact absurd hu (by decide +kernel)]

end

/-- Settles O55: no register holds a bit that it does not name, and the write of one ends in a refusal whose record is delivered. -/
theorem reservedBits : Obligations.ReservedBits := by
  refine ⟨fun s r hi => rd_namedBits hi.canon.regs r, fun s p r data mask hi h8 hat hreach hres => ?_⟩
  have hreach' : reaches ((Upd.out []).apply s.m) p r.addr true (data.toNat &&& mask.toNat) = true := hreach
  have admitted := admit_reserved h8 hat hreach' hres
  have only : Only Foot.refused.has (refuse r ⟨p, r.addr, 8, data, mask⟩ r.k.desc.blk.limit) :=
    at_le (refuse_only _ _ _) (by decide +kernel)
  obtain ⟨_, m1, h1, via, e, ring, tells, waits⟩ :=
    regWrite_refused admitted (refuse_ends _ rfl hi.told) fun _ => toProg settle
  have h : Refused ((Upd.out []).apply s.m) r r.k.desc.blk.limit e ring m1 := ⟨via, tells, waits⟩
  refine ⟨_, rfl, cmd_keeps hi (regWrite_refused admitted (only.runsIn _)) (by decide +kernel) (fun q hq => .inr hq) rfl, ?_, ?_⟩
  · intro hd hq hl
    refine ⟨e, ?_, tells.code, tells.addr, tells.reason⟩
    exact (congrArg (fun m : Mach => m.hold) h1).trans (h.holds hi.calm hd hq hl)
  · intro hd hq hfree
    obtain ⟨flags, placed⟩ := h.queues hi.calm hi.canon.sram hd hq hfree
    obtain ⟨code, reason⟩ := words_tell tells (limit_lt _) flags
    rw [← placed 1 (by decide)] at code
    rw [← placed 3 (by decide)] at reason
    have ends (a : Nat) := congrArg (fun m : Mach => (m.getSram a).toNat) h1
    exact ⟨(congrArg (bitsAt · 16 16) (ends _)).trans code, (congrArg (bitsAt · 0 16) (ends _)).trans reason⟩

end Sys2Proof.Machine
end

section
/-!
SUPPORT. A command that is one register write, where the write is accepted: what its bits ask for, and what follows the store
keeps to a footprint (R424, Table 0.3).
-/
namespace Sys2Proof.Machine

-- One declaration at a time: proofs that compute in the kernel wait for it, each with a stack of its own.
set_option Elab.async false

variable {m m2 : Mach} {p : Path} {v : Nat} {F B : Foot} {ks : List RegKind} {ts : List Tab} {os : List Reg}

/-! What the command's bits ask for, and what its register then holds. -/

/-- A write asks for nothing in the bits that its mask leaves out. -/
theorem cmd_clear {d k lo w : Nat} (h : bitsAt k lo w = 0) : bitsAt (d &&& k) lo w = 0 :=
  Nat.eq_of_testBit_eq fun n => by
    have hn := congrArg (·.testBit n) h
    simp only [testBit_bitsAt, Nat.zero_testBit, Nat.testBit_and] at hn ⊢
    cases hw : decide (n < w) <;> simp_all

/-- A write asks for what its data holds in the bits that its mask names. -/
theorem cmd_full {d k lo w : Nat} (h : bitsAt k lo w = 2 ^ w - 1) : bitsAt (d &&& k) lo w = bitsAt d lo w :=
  Nat.eq_of_testBit_eq fun n => by
    have hn := congrArg (·.testBit n) h
    simp only [testBit_bitsAt, Nat.testBit_two_pow_sub_one, Nat.testBit_and] at hn ⊢
    cases hw : decide (n < w) <;> simp_all

theorem cmd_not_one {d k lo : Nat} {P : Prop} (h : bitsAt k lo 1 = 0) (h1 : bitsAt (d &&& k) lo 1 = 1) : P :=
  absurd ((cmd_clear h).symm.trans h1) (by decide)

/-- A field that the mask leaves out keeps its value. -/
theorem Written.kept {k : RegKind} {i lo w d n : Nat} (hw : Written m ⟨k, i⟩ d n m2) (h : bitsAt n lo w = 0) :
    bitsAt (m.rd ⟨k, i⟩).toNat lo w = m2.g ⟨k, i, lo, w⟩ := by
  rw [Mach.g, hw.stored]
  refine Nat.eq_of_testBit_eq fun b => ?_
  have hb := congrArg (·.testBit b) h
  simp only [testBit_bitsAt, Nat.zero_testBit, written, testBit_stored] at hb ⊢
  cases hd : decide (b < w) with
  | false => rfl
  | true =>
    rw [hd, Bool.true_and] at hb
    rw [hb]
    cases k.fieldAt (lo + b) with
    | none => rfl
    | some e => cases he : e.acc <;> simp [Acc.stores, he]

/-- Whether software writes each bit of a field as it likes. -/
def RegKind.plain (k : RegKind) (lo w : Nat) : Bool :=
  (List.range w).all fun n => (k.fieldAt (lo + n)).any fun e => e.acc = .RW || e.acc = .RWS

/-- A field written alone holds what was written. -/
theorem Written.field {k : RegKind} {i lo w : Nat} (hw : Written m ⟨k, i⟩ (v % 2 ^ w * 2 ^ lo) ((2 ^ w - 1) * 2 ^ lo) m2)
    (plain : k.plain lo w = true) : m2.g ⟨k, i, lo, w⟩ = v % 2 ^ w := by
  rw [Mach.g, hw.stored]
  refine Nat.eq_of_testBit_eq fun n => ?_
  rw [testBit_bitsAt, Nat.testBit_mod_two_pow]
  cases hd : decide (n < w) with
  | false => rfl
  | true =>
    have hn : n < w := of_decide_eq_true hd
    obtain ⟨e, he, acc⟩ := (Option.any_eq_true _ _).1 (List.all_eq_true.1 plain n (List.mem_range.2 hn))
    have mask : ((2 ^ w - 1) * 2 ^ lo).testBit (lo + n) = true := by
      simp [Nat.testBit_mul_two_pow, Nat.testBit_two_pow_sub_one, hn]
    have data : (v % 2 ^ w * 2 ^ lo).testBit (lo + n) = v.testBit n := by
      simp [Nat.testBit_mul_two_pow, Nat.testBit_mod_two_pow, hn]
    simp only [Bool.true_and, written, testBit_stored, he, mask, data]
    simp only [Bool.or_eq_true, decide_eq_true_eq] at acc
    rcases acc with h | h <;> simp [Acc.stores, h]

/-- A field that is written alone does not hold another value. -/
theorem Written.field_ne {k : RegKind} {i lo w n : Nat} {P : Prop}
    (hw : Written m ⟨k, i⟩ (v % 2 ^ w * 2 ^ lo) ((2 ^ w - 1) * 2 ^ lo) m2) (h : m2.g ⟨k, i, lo, w⟩ = n)
    (plain : k.plain lo w = true) (hn : v % 2 ^ w ≠ n) : P := absurd ((hw.field plain).symm.trans h) hn

/-- A field that the mask leaves out does not change. -/
theorem Written.kept_ne {k : RegKind} {i lo w d n x y : Nat} {P : Prop} (hw : Written m ⟨k, i⟩ d n m2)
    (hx : bitsAt (m.rd ⟨k, i⟩).toNat lo w = x) (hy : m2.g ⟨k, i, lo, w⟩ = y) (h : bitsAt n lo w = 0) (hxy : x ≠ y) : P :=
  absurd (hx.symm.trans ((hw.kept h).trans hy)) hxy

/-! What a command's write changes beside its register and its trace. -/

/-- Nothing follows the write beside what `F` names: its step settles within it, it changes no locked field, and no yield comes
beside its fence. -/
def Foot.suits (F : Foot) (k : RegKind) (mask : Nat) : Bool :=
  F.settles && decide (mask &&& kindBits k (fun a => decide (a = .RWL)) = 0) &&
    (decide (k ≠ .TWN_CTL) || decide (bitsAt mask 0 1 = 0) || decide (bitsAt mask 2 1 = 0))

/-- What follows the store of an accepted write keeps to `F`, its register and the trace. -/
structure LandsAs (F : Foot) (a : Path × Reg × Nat × Nat) : Prop where
  suits : F.suits a.2.1.k a.2.2.2 = true
  effect : ∀ m m2, Written m a.2.1 a.2.2.1 a.2.2.2 m2 → RunsIn (F.and a.2.1.k.single [] [a.2.1]).has
    (regEffect a.2.1 (m.rd a.2.1).toNat (a.2.2.1 &&& a.2.2.2) (a.2.2.2 &&& namedBits a.2.1.k) a.1) m2

/-- A write whose mask names no locked field changes none (R30). -/
theorem locks_free {r : Reg} {d k : Nat} (h : k &&& kindBits r.k (fun a => decide (a = .RWL)) = 0) : locks m r d k = false := by
  have same : asked r.k (m.rd r).toNat d k &&& kindBits r.k (fun a => decide (a = .RWL)) =
      (m.rd r).toNat &&& kindBits r.k (fun a => decide (a = .RWL)) := Nat.eq_of_testBit_eq fun n => by
    have hn := congrArg (·.testBit n) h
    simp only [Nat.testBit_and, Nat.zero_testBit, testBit_asked] at hn ⊢
    cases hk : k.testBit n <;> simp_all
  simp [locks, changesRwl, same]

variable {c : Instr} {a : Path × Reg × Nat × Nat} {s t : State}

theorem LandsAs.settles (h : LandsAs F a) : F.settles = true := by
  have suits := h.suits
  simp only [Foot.suits, Bool.and_eq_true] at suits
  exact suits.1.1

/-- An accepted write changes its register, its trace, and what follows it. -/
theorem LandsAs.write_runsIn (h : LandsAs F a) (hc : regsWf m.regs = true) (ha : a.2.2.1 < 2 ^ 64) (hm : a.2.2.2 < 2 ^ 64)
    (hl : Lands m a.1 a.2.1 a.2.2.1 a.2.2.2) :
    RunsIn (F.traced ([.DBG_TRACE_STATUS] ++ a.2.1.k.single) a.2.1).has (regWrite [aimedWrite a]) m := by
  have hd : (w64 a.2.2.1).toNat = a.2.2.1 := w64_toNat ha
  have hk : (w64 a.2.2.2).toNat = a.2.2.2 := w64_toNat hm
  have suits := h.suits
  simp only [Foot.suits, Bool.and_eq_true, Bool.or_eq_true, decide_eq_true_eq] at suits
  obtain ⟨⟨settles, free⟩, lone⟩ := suits
  refine regWrite_traced hc (by rw [hd, hk]; exact hl) settles (by simp) (.inl (locks_free (by rw [hk]; exact free)))
    (fun h1 h2 h3 => ?_) fun m2 hw => ?_
  · rw [hd, hk] at h2 h3
    rcases lone with (h | h) | h
    · exact absurd h1 h
    · exact cmd_not_one h h2
    · exact cmd_not_one h h3
  · rw [hd, hk] at hw ⊢
    exact h.effect _ _ hw

section
variable {k : RegKind} {i lo w old cmd mask : Nat}

/-- A write of one field. -/
theorem landsAs_field (effect : ∀ m m2, Written m ⟨k, i⟩ (v % 2 ^ w * 2 ^ lo) ((2 ^ w - 1) * 2 ^ lo) m2 →
      RunsIn ((B.and ks ts os).and k.single [] [⟨k, i⟩]).has (regEffect ⟨k, i⟩ (m.rd ⟨k, i⟩).toNat
        (v % 2 ^ w * 2 ^ lo &&& (2 ^ w - 1) * 2 ^ lo) ((2 ^ w - 1) * 2 ^ lo &&& namedBits k) p) m2)
    (suits : (B.and ks ts).suits k ((2 ^ w - 1) * 2 ^ lo) = true := by decide +kernel) :
    LandsAs (B.and ks ts os) (aimField p ⟨k, i, lo, w⟩ v) := ⟨suits, effect⟩

theorem or_append {α : Type} (f : α → Nat) (l l' : List α) : (l ++ l').foldl (fun a x => a ||| 2 ^ f x) 0 =
    l.foldl (fun a x => a ||| 2 ^ f x) 0 ||| l'.foldl (fun a x => a ||| 2 ^ f x) 0 :=
  Nat.eq_of_testBit_eq fun n => by simp only [Nat.testBit_or, testBit_ctors, List.any_append, Nat.zero_testBit, Bool.false_or]

theorem Foot.mask_and : (F.and ks ts os).mask = F.mask.join (.of ks ts) := by
  simp only [Foot.mask, Foot.and, Mask.of, Mask.join, or_append]

/-- Any write of a register changes at most what `writeEffect` names. -/
theorem regEffect_within (hA : (writeEffect ⟨k, 0⟩).mask.le (B.and ks ts).mask = true)
    (ho : (writeEffect ⟨k, i⟩).objs ⊆ B.objs ++ os ++ [⟨k, i⟩]) :
    RunsIn ((B.and ks ts os).and k.single [] [⟨k, i⟩]).has (regEffect ⟨k, i⟩ old cmd mask p) m := by
  have names : (ownEffect k i).mask.le ((B.and ks ts os).and k.single [] [⟨k, i⟩]).mask = true := by
    rw [ownEffect, Foot.mask_and, writeEffect_mask]
    exact Mask.join_le (Mask.le_trans hA (Foot.mask_le (by simp [Foot.and]) (by simp [Foot.and])))
      (Foot.mask_le (F := ⟨k.single, [], []⟩) (by simp [Foot.and]) (by simp))
  refine (regEffect_foot k i old cmd mask m p).mono (At.has_mono names fun q hq => ?_)
  rcases List.mem_append.1 hq with hq | hq
  · exact ho hq
  · exact List.mem_append_right _ hq

theorem landsAs_own (suits : (B.and ks ts).suits k ((2 ^ w - 1) * 2 ^ lo) = true := by decide +kernel)
    (hA : (writeEffect ⟨k, 0⟩).mask.le (B.and ks ts).mask = true := by decide +kernel)
    (ho : (writeEffect ⟨k, i⟩).objs ⊆ B.objs ++ os ++ [⟨k, i⟩] := by exact List.nil_subset _) :
    LandsAs (B.and ks ts os) (aimField p ⟨k, i, lo, w⟩ v) :=
  landsAs_field (fun _ _ _ => regEffect_within hA ho) suits


/-- A write of a register whole. -/
theorem landsAs_word {d : Nat} (suits : (B.and ks ts).suits k (2 ^ 64 - 1) = true := by decide +kernel)
    (hA : (writeEffect ⟨k, 0⟩).mask.le (B.and ks ts).mask = true := by decide +kernel)
    (ho : (writeEffect ⟨k, i⟩).objs ⊆ B.objs ++ os ++ [⟨k, i⟩] := by exact List.nil_subset _) :
    LandsAs (B.and ks ts os) (p, ⟨k, i⟩, d, 2 ^ 64 - 1) := ⟨suits, fun _ _ _ => regEffect_within hA ho⟩

/-- The bits of some fields. -/
def maskOf (fs : List RF) : Nat := fs.foldl (fun a f => a + f.bits) 0

/-- A write of several fields of a register. -/
theorem landsAs_fields {l : List (RF × Nat)} (k : RegKind) (i : Nat) (fs : List RF)
    (effect : ∀ m old cmd mask, cmd = (aimFields p l).2.2.1 &&& maskOf fs →
      RunsIn ((B.and ks ts os).and k.single [] [⟨k, i⟩]).has (regEffect ⟨k, i⟩ old cmd mask p) m)
    (hl : l.map Prod.fst = fs := by rfl) (hk : (aimFields p l).2.1 = ⟨k, i⟩ := by rfl)
    (suits : (B.and ks ts).suits k (maskOf fs) = true := by decide +kernel) : LandsAs (B.and ks ts os) (aimFields p l) := by
  have hm : (aimFields p l).2.2.2 = maskOf fs := (fields_mask l).trans (hl ▸ rfl)
  refine ⟨?_, fun m m2 _ => ?_⟩
  · rw [hm, hk]
    exact suits
  · rw [hm, hk]
    exact effect m2 _ _ _ rfl

/-- A write of several fields that changes at most what `writeEffect` names. -/
theorem landsAs_some {l : List (RF × Nat)} (k : RegKind) (i : Nat) (fs : List RF) (hl : l.map Prod.fst = fs := by rfl)
    (hk : (aimFields p l).2.1 = ⟨k, i⟩ := by rfl) (suits : (B.and ks ts).suits k (maskOf fs) = true := by decide +kernel)
    (hA : (writeEffect ⟨k, 0⟩).mask.le (B.and ks ts).mask = true := by decide +kernel)
    (ho : (writeEffect ⟨k, i⟩).objs ⊆ B.objs ++ os ++ [⟨k, i⟩] := by exact List.nil_subset _) :
    LandsAs (B.and ks ts os) (aimFields p l) :=
  landsAs_fields k i fs (fun _ _ _ _ _ => regEffect_within hA ho) hl hk suits

end

end Sys2Proof.Machine
end

section
/-!
SUPPORT. The commands whose write does less than all that a write of their register can do (Table 0.3). A rule of an effect is
stated for any operand that the effect does not read.
-/
namespace Sys2Proof.Machine

-- One declaration at a time: proofs that compute in the kernel wait for it, each with a stack of its own.
set_option Elab.async false

variable {p : Path} {v i : Nat} {m : Mach}

theorem load_lands (h : bitsAt (v % 2 ^ 4 * 2 ^ 0 &&& (2 ^ 4 - 1) * 2 ^ 0) 0 4 ≠ 4) :
    LandsAs (Foot.quiet.and [.MLD_STATUS] [.ldr]) (aimField p MLD_CTL_CMD v) :=
  landsAs_field fun _ _ _ => RunsIn.getM (RunsIn.ite (fun _ => mldEffect_rule (fun h4 => absurd h4 h) fun _ c =>
    foot_only (loadStart_only c _)) fun h => absurd rfl h)

theorem structEnable_lands : LandsAs (landed (.structEnable p)) (aimField p GLB_STRUCT_CTL_ENABLE 1) :=
  landsAs_field fun _ _ hw => structEffect_rule (fun _ dry => foot_only (checkStart_only dry)) fun _ h0 =>
    hw.field_ne h0 (by decide) (by decide)

theorem structCheck_lands : LandsAs (landed (.structCheck p)) (aimField p GLB_STRUCT_CTL_CHECK 1) :=
  landsAs_field fun _ _ _ => structEffect_rule (fun _ dry => foot_only (checkStart_only dry)) fun h => absurd (by decide) h

theorem structDisable_lands : LandsAs (landed (.structDisable p)) (aimField p GLB_STRUCT_CTL_ENABLE 0) :=
  landsAs_field fun _ _ hw => structEffect_rule (fun h => h.elim (cmd_not_one (by decide)) fun h1 =>
    hw.field_ne h1 (by decide) (by decide)) fun _ _ => foot_only disableStart_only

theorem portEnable_lands {q : Fin 128} {on : Bool} :
    LandsAs (landed (.portEnableWrite p q on)) (aimField p (OCT_PORT_CTL_ENABLE q) (flag on)) :=
  landsAs_field fun _ _ _ => portCtl_rule (cmd_not_one (by decide)) (fun h => absurd (cmd_clear (by decide)) h)
    fun _ on => foot_objs (portEnable_at _ on)

theorem retrain_lands {q : Fin 128} : LandsAs (landed (.retrain p q)) (aimField p (OCT_PORT_CTL_RETRAIN q) 1) :=
  landsAs_field fun _ _ hw => portCtl_rule (cmd_not_one (by decide)) (fun _ full => foot_objs (portRetrain_at _ full))
    fun h => absurd (hw.kept (by decide)) h

theorem redoEq_lands {q : Fin 128} : LandsAs (landed (.redoEq p q)) (aimField p (OCT_PORT_CTL_REDO_EQ q) 1) :=
  landsAs_field fun _ _ hw => portCtl_rule (cmd_not_one (by decide)) (fun _ full => foot_objs (portRetrain_at _ full))
    fun h => absurd (hw.kept (by decide)) h

theorem portClrCnt_lands {q : Fin 128} : LandsAs (landed (.portClrCnt p q)) (aimField p (OCT_PORT_CTL_CLR_CNT q) 1) :=
  landsAs_field fun _ _ hw => portCtl_rule (fun _ => foot_objs (portCounters_at _)) (fun h => absurd (cmd_clear (by decide)) h)
    fun h => absurd (hw.kept (by decide)) h

/-- A write of the planes that go out brings none back. -/
theorem planeOut_return : ∀ q < 4, bitsAt ((2 ^ 4 - 1) * 2 ^ 0) (4 + q) 1 = 0 := by decide

theorem planeOut_lands {planes : Fin 16} : LandsAs (landed (.planeOut p planes)) (aimField p XB_PLANE_CTL_OUT planes) :=
  landsAs_field fun _ _ _ => planeCtl_rule (fun q st => foot_only (planeTo_only q st)) fun q hq =>
    cmd_not_one (planeOut_return q hq)

theorem sqClear_at {cmd : Nat} : Only (At.has (.of [] []) ((List.range 32).map fun c => (⟨.SQ_CNT, i * 32 + c⟩ : Reg)))
    (sqEffect .SQ_CTL i cmd) :=
  Only.onlyIf (Only.each fun c hc => at_rst (List.mem_map.2 ⟨c, hc, rfl⟩))

theorem sqClrCnt_lands {sq : Fin 32} : LandsAs (landed (.sqClrCnt p sq)) (aimField p (SQ_CTL_CLR_CNT sq) 1) :=
  landsAs_field fun _ m2 _ => (foot_objs sqClear_at (List.subset_append_left _ _)).runsIn m2

theorem tmCmd_rule {S : Upd → Bool} {old cmd mask : Nat} (flush : Only S (flushQueue (bitsAt cmd 0 15))) :
    RunsIn S (regEffect ⟨.TM_CMD, i⟩ old cmd mask p) m :=
  RunsIn.seq (RunsIn.getM (flush.runsIn m)) fun _ => Only.bind Only.getM fun _ => Only.pure _

/-- The queue that a command names. -/
theorem aimed_queue {q n : Nat} (hq : q < 2 ^ 15) :
    bitsAt ((aimFields p [(TM_CMD_QUEUE, q), (TM_CMD_OP, n)]).2.2.1 &&& maskOf [TM_CMD_QUEUE, TM_CMD_OP]) 0 15 = q := by
  rw [cmd_full (by decide)]
  simp only [aimFields, List.foldl_cons, List.foldl_nil, bitsAt, TM_CMD_QUEUE, TM_CMD_OP]
  omega

theorem flushQueue_lands {q : Fin 32768} :
    LandsAs (landed (.flushQueue p q)) (aimFields p [(TM_CMD_QUEUE, q), (TM_CMD_OP, 1)]) :=
  landsAs_fields .TM_CMD 0 [TM_CMD_QUEUE, TM_CMD_OP] fun m _ cmd _ hc =>
    tmCmd_rule (by
      rw [hc, aimed_queue q.isLt]
      exact foot_objs (flushQueue_at q))

theorem todArm_lands {ns : Nat} :
    LandsAs (landed (.todArm p ns)) (aimFields p [(TB_TOD_CTL_NS, ns), (TB_TOD_CTL_ARM, 1)]) :=
  landsAs_fields (B := Foot.quiet) (ks := []) (ts := []) (os := []) .TB_TOD_CTL 0 [TB_TOD_CTL_NS, TB_TOD_CTL_ARM]
    fun m _ cmd _ hc => todCtl_rule (i := 0) (old := 0) (cmd := cmd) (mask := 0) fun h => cmd_not_one (by decide) (hc ▸ h)

theorem tbClrCnt_lands : LandsAs (landed (.tbClrCnt p)) (aimField p TB_CTL_CLR_CNT 1) :=
  landsAs_field fun _ _ hw => tbCtl_rule (i := 0) (mask := 0) (fun h0 h1 => hw.kept_ne h0 h1 (by decide) (by decide))
    (fun _ => foot_in (at_rstK .TB_CNT (by decide +kernel))) (foot_only tbAddend_only)

theorem ringEnable_lands {r : Fin 32768} : LandsAs (landed (.ringEnable p r)) (aimField p (RNG_CTL_ENABLE r) 1) :=
  landsAs_field fun _ _ hw => ringCtl_rule (cmd_not_one (by decide)) (fun _ _ => foot_objs (ringStart_at _))
    fun _ h0 => hw.field_ne h0 (by decide) (by decide)

theorem ringDisable_lands {r : Fin 32768} : LandsAs (landed (.ringDisable p r)) (aimField p (RNG_CTL_ENABLE r) 0) :=
  landsAs_field fun _ _ hw => ringCtl_rule (cmd_not_one (by decide)) (fun _ h1 => hw.field_ne h1 (by decide) (by decide))
    fun _ _ => foot_objs (ringStop_soft _)

theorem ringClrCnt_lands {r : Fin 32768} : LandsAs (landed (.ringClrCnt p r)) (aimField p (RNG_CTL_CLR_CNT r) 1) :=
  landsAs_field fun _ _ hw => ringCtl_rule (fun _ => foot_in (at_rst (by simp)))
    (fun h0 h1 => hw.kept_ne h0 h1 (by decide) (by decide)) fun h1 h0 => hw.kept_ne h1 h0 (by decide) (by decide)

theorem lmClrCnt_lands : LandsAs (landed (.lmClrCnt p)) (aimField p LM_CTL_CLR_CNT 1) :=
  landsAs_field fun _ _ _ => lmCtl_rule (old := 0) (fun _ => foot_only lmClear_only) (cmd_not_one (by decide))

theorem predClr_lands : LandsAs (landed (.predClr p)) (aimField p LM_CTL_PRED_CLR 1) :=
  landsAs_field fun _ _ _ => lmCtl_rule (old := 0) (cmd_not_one (by decide)) fun _ =>
    foot_in (at_doT .pred rfl (by decide +kernel))

theorem kskClrCnt_lands : LandsAs (landed (.kskClrCnt p)) (aimField p KSK_CTL_CLR_CNT 1) :=
  landsAs_field fun _ _ _ => kskCtl_rule (i := 0) (old := 0)
    (fun _ => foot_in (Only.each fun _ _ => at_rstK .KSK_CNT (by decide +kernel)))
    (cmd_not_one (by decide))

theorem sliceEnable_lands {sl : Fin 256} : LandsAs (landed (.sliceEnable p sl)) (aimField p (TEN_CTL_ENABLE sl) 1) :=
  landsAs_field fun _ _ hw => tenCtl_rule (cmd := 0) (fun _ => foot_in (at_wr (by simp))) (fun _ => foot_objs (sliceOn_at _))
    fun h0 => hw.field_ne h0 (by decide) (by decide)

theorem sliceDisable_lands {sl : Fin 256} : LandsAs (landed (.sliceDisable p sl)) (aimField p (TEN_CTL_ENABLE sl) 0) :=
  landsAs_field fun _ _ hw => tenCtl_rule (cmd := 0) (fun _ => foot_in (at_wr (by simp)))
    (fun h1 => hw.field_ne h1 (by decide) (by decide)) fun _ => foot_objs (sliceOff_at _)

theorem spindleClrCnt_lands : LandsAs (landed (.spindleClrCnt p)) (aimField p TWN_SPN_CTL_CLR_CNT 1) :=
  landsAs_field fun _ _ hw => spnCtl_rule (i := 0)
    (fun _ => foot_in (Only.each fun _ _ => at_rstK .TWN_SPN_CNT (by decide +kernel)))
    (cmd_not_one (by decide)) (foot_only spnKick_only) fun h0 h1 => absurd ((hw.kept (by decide)).symm.trans h1) h0

theorem unfence_lands : LandsAs (landed (.unfence p)) (aimField p TWN_CTL_UNFENCE 1) :=
  landsAs_field fun _ _ _ => twnEffect_rule (i := 0) (old := 0) (cmd_not_one (by decide))
    (fun _ => foot_only unfence_only) (cmd_not_one (by decide)) (cmd_not_one (by decide)) (cmd_not_one (by decide))

theorem yield_lands : LandsAs (landed (.yield p)) (aimField p TWN_CTL_YIELD 1) :=
  landsAs_field fun _ _ _ => twnEffect_rule (i := 0) (old := 0) (cmd_not_one (by decide)) (cmd_not_one (by decide))
    (cmd_not_one (by decide)) (fun _ => foot_only (moveStart_only 1)) (cmd_not_one (by decide))

theorem handback_lands : LandsAs (landed (.handback p)) (aimField p TWN_CTL_HANDBACK 1) :=
  landsAs_field fun _ _ _ => twnEffect_rule (i := 0) (old := 0) (cmd_not_one (by decide)) (cmd_not_one (by decide))
    (cmd_not_one (by decide)) (cmd_not_one (by decide)) fun _ _ => foot_in (at_mod .twx (fun _ => rfl) (by decide +kernel))

theorem twnClrCnt_lands : LandsAs (landed (.twnClrCnt p)) (aimField p TWN_CTL_CLR_CNT 1) :=
  landsAs_field fun _ _ _ => twnEffect_rule (i := 0) (old := 0)
    (fun _ => foot_in (Only.each fun _ _ => at_rstK .TWN_CNT (by decide +kernel)))
    (cmd_not_one (by decide)) (cmd_not_one (by decide)) (cmd_not_one (by decide)) (cmd_not_one (by decide))

theorem scrubAbort_lands : LandsAs (landed (.scrubAbort p)) (aimField p INT_SCRUB_CTL_ABORT 1) :=
  landsAs_field fun _ _ _ => scrubCtl_rule (i := 0) (old := 0) (cmd_not_one (by decide))
    fun _ _ => foot_in (at_mod .scrub (fun _ => rfl) (by decide +kernel))

theorem writeRaw_lands : LandsAs (landed (.writeRaw p)) (aimField p INT_TEST_CTL_WRITE_RAW 1) :=
  landsAs_field fun _ _ _ => testCtl_rule (i := 0) (old := 0) (fun _ => foot_only rawWrite_only) (cmd_not_one (by decide))

theorem readRaw_lands : LandsAs (landed (.readRaw p)) (aimField p INT_TEST_CTL_READ_RAW 1) :=
  landsAs_field fun _ _ _ => testCtl_rule (i := 0) (old := 0) (cmd_not_one (by decide)) fun _ => foot_only rawRead_only

theorem testGo_lands {kind : Bool} {domain : Fin 128} {patterns : BitVec 16} :
    LandsAs (landed (.testGo p kind domain patterns)) (aimFields p [(TST_CMD_GO, 1), (TST_CMD_KIND, flag kind),
      (TST_CMD_DOMAIN, domain), (TST_CMD_PATTERNS, patterns.toNat)]) :=
  landsAs_fields .TST_CMD 0 [TST_CMD_GO, TST_CMD_KIND, TST_CMD_DOMAIN, TST_CMD_PATTERNS] fun m _ cmd _ hc =>
    RunsIn.onlyIf fun _ => tstEffect_rule (cmd := cmd) (fun h => cmd_not_one (by decide) (hc ▸ h))
      fun _ m => foot_only (testStart_only m)

theorem testAbort_lands : LandsAs (landed (.testAbort p)) (aimField p TST_CMD_ABORT 1) :=
  landsAs_field fun _ _ _ => RunsIn.onlyIf fun _ => tstEffect_rule (fun _ => foot_only (testOver_only 3))
    (cmd_not_one (by decide))

theorem chalReq_lands : LandsAs (landed (.chalReq p)) (aimField p DBG_UNLOCK_CHAL_REQ 1) :=
  landsAs_field fun _ _ _ => dbgEffect_rule (fun _ => ⟨fun w => foot_in (at_free w (by decide +kernel)),
    fun _ => foot_in (at_wrK .DBG_CHAL rfl (by decide +kernel))⟩) (cmd_not_one (by decide)) (cmd_not_one (by decide))

theorem grant_lands : LandsAs (landed (.grant p)) (aimField p DBG_UNLOCK_GRANT 1) :=
  landsAs_field fun _ _ _ => dbgEffect_rule (cmd_not_one (by decide)) (cmd_not_one (by decide))
    fun _ => ⟨foot_in (at_wrK .GLB_LIFECYCLE rfl (by decide +kernel)), fun e => foot_only (raise_only e)⟩

theorem relock_lands : LandsAs (landed (.relock p)) (aimField p DBG_UNLOCK_RELOCK 1) :=
  landsAs_field fun _ _ _ => dbgEffect_rule (cmd_not_one (by decide)) (fun _ => foot_only relock_only) (cmd_not_one (by decide))

theorem spindleEnable_lands {on : Bool} : LandsAs (landed (.spindleEnable p on)) (aimField p TWN_SPN_CTL_ENABLE (flag on)) :=
  landsAs_field (B := Foot.witness) (ks := []) (ts := []) (os := []) fun _ _ _ => spnCtl_rule (i := 0) (cmd_not_one (by decide))
    (cmd_not_one (by decide)) (foot_only spnKick_only) fun _ _ => foot_only spnOff_only

end Sys2Proof.Machine
end

section
/-!
What a command that is one register write changes where the write is accepted (Table 0.3, R433; O42).
-/
namespace Sys2Proof.Machine

-- One declaration at a time: proofs that compute in the kernel wait for it, each with a stack of its own.
set_option Elab.async false

variable {m : Mach} {c : Instr} {a : Path × Reg × Nat × Nat} {s : State}

theorem some_lands {F : Foot} {b : Path × Reg × Nat × Nat} (h : some b = some a) (hb : LandsAs F b) : LandsAs F a :=
  Option.some.inj h ▸ hb

/-- What each such command's write changes beside its register and its trace lies within `landed`. -/
theorem aim_lands (h : aim c = some a) (hm : ∀ x, c ≠ .mbWarmReset x) : LandsAs (landed c) a := by
  cases c with
  | loadFlashA => exact some_lands h (load_lands (by decide))
  | loadFlashB => exact some_lands h (load_lands (by decide))
  | loadStage => exact some_lands h (load_lands (by decide))
  | abort => exact some_lands h landsAs_own
  | stageDataAccess path data =>
    cases data with
    | none => cases h
    | some v => exact some_lands h landsAs_word
  | structEnable => exact some_lands h structEnable_lands
  | structDisable => exact some_lands h structDisable_lands
  | structCheck => exact some_lands h structCheck_lands
  | portEnableWrite => exact some_lands h portEnable_lands
  | retrain => exact some_lands h retrain_lands
  | redoEq => exact some_lands h redoEq_lands
  | portClrCnt => exact some_lands h portClrCnt_lands
  | planeOut => exact some_lands h planeOut_lands
  | planeReturn => exact some_lands h landsAs_own
  | xbClrCnt => exact some_lands h landsAs_own
  | probeStart => exact some_lands h (landsAs_own (ho := List.subset_append_left _ _))
  | fmdCommit => exact some_lands h landsAs_own
  | fmdDecommit => exact some_lands h landsAs_own
  | sqClrCnt => exact some_lands h sqClrCnt_lands
  | slotRingEnable => exact some_lands h (landsAs_own (ho := List.subset_append_left _ _))
  | flushQueue => exact some_lands h flushQueue_lands
  | tmClrCnt => exact some_lands h landsAs_own
  | gateChange => exact some_lands h (landsAs_own (ho := by simp [writeEffect, Foot.and, Foot.quiet]))
  | todSet => exact some_lands h (landsAs_some .TB_TOD_CTL 0 [TB_TOD_CTL_NS, TB_TOD_CTL_SET])
  | todArm => exact some_lands h todArm_lands
  | timeStepOffset => exact some_lands h landsAs_own
  | tbClrCnt => exact some_lands h tbClrCnt_lands
  | gclDataAccess path data =>
    cases data with
    | none => cases h
    | some v => exact some_lands h landsAs_word
  | ringEnable => exact some_lands h ringEnable_lands
  | ringDisable => exact some_lands h ringDisable_lands
  | ringClrCnt => exact some_lands h ringClrCnt_lands
  | clusterOut => exact some_lands h landsAs_own
  | clusterReturn => exact some_lands h landsAs_own
  | tableEnable => exact some_lands h (landsAs_own (B := Foot.quiet) (ks := []) (ts := []) (os := []))
  | lmClrCnt => exact some_lands h lmClrCnt_lands
  | predClr => exact some_lands h predClr_lands
  | kskBankOut => exact some_lands h landsAs_own
  | kskBankReturn => exact some_lands h landsAs_own
  | kioskFlush => exact some_lands h landsAs_own
  | kskClrCnt => exact some_lands h kskClrCnt_lands
  | kerbWindowWrite => exact some_lands h (landsAs_word (B := Foot.quiet) (ks := []) (ts := []) (os := []))
  | kerbFenceGo => exact some_lands h landsAs_own
  | sliceEnable => exact some_lands h sliceEnable_lands
  | sliceDisable => exact some_lands h sliceDisable_lands
  | violationClear => exact some_lands h (landsAs_own (ho := by simp [writeEffect, Foot.and, Foot.quiet]))
  | krbClrCnt => exact some_lands h landsAs_own
  | spindleEnable => exact some_lands h spindleEnable_lands
  | spindleRetrain => exact some_lands h (landsAs_own (B := Foot.spnRecover) (ks := []) (ts := []) (os := []))
  | spindleClrCnt => exact some_lands h spindleClrCnt_lands
  | fwSend => exact some_lands h landsAs_own
  | whorlClrCnt => exact some_lands h landsAs_own
  | fence => exact some_lands h landsAs_own
  | unfence => exact some_lands h unfence_lands
  | yield => exact some_lands h yield_lands
  | handback => exact some_lands h handback_lands
  | twnClrCnt => exact some_lands h twnClrCnt_lands
  | scrubGo => exact some_lands h (landsAs_some .INT_SCRUB_CTL 0
      [INT_SCRUB_CTL_GO, INT_SCRUB_CTL_MEM, INT_SCRUB_CTL_INSTANCE])
  | scrubAbort => exact some_lands h scrubAbort_lands
  | retireAdd => exact some_lands h (landsAs_own (B := Foot.bobFree) (ks := []) (ts := []) (os := []))
  | writeRaw => exact some_lands h writeRaw_lands
  | readRaw => exact some_lands h readRaw_lands
  | evqEnable => exact some_lands h landsAs_own
  | intClrCnt => exact some_lands h landsAs_own
  | powerRequest => exact some_lands h landsAs_own
  | pwrClrCnt => exact some_lands h landsAs_own
  | avsMarginWrite => exact some_lands h landsAs_own
  | slotPowerReq => exact some_lands h (landsAs_own (ho := List.subset_append_left _ _))
  | unlatch => exact some_lands h (landsAs_own (ho := List.subset_append_left _ _))
  | slotClrCnt => exact some_lands h (landsAs_own (ho := List.subset_append_left _ _))
  | glbResetWarm => exact some_lands h (landsAs_some .GLB_RESET_CTL 0 [GLB_RESET_CTL_WARM, GLB_RESET_CTL_KEY])
  | kick => exact some_lands h landsAs_own
  | coreReset => exact some_lands h (landsAs_own (B := Foot.quiet) (ks := []) (ts := []) (os := []))
  | mbWarmReset x => exact absurd rfl (hm x)
  | assertPerst => exact some_lands h (landsAs_own (ho := List.subset_append_left _ _))
  | deassertPerst => exact some_lands h (landsAs_own (ho := List.subset_append_left _ _))
  | resetPpb => exact some_lands h retrain_lands
  | pmuClrAll => exact some_lands h landsAs_own
  | testGo => exact some_lands h testGo_lands
  | testAbort => exact some_lands h testAbort_lands
  | chalReq => exact some_lands h chalReq_lands
  | grant => exact some_lands h grant_lands
  | relock => exact some_lands h relock_lands
  | cmdConflictClear => exact some_lands h landsAs_own
  | pathCntClr => exact some_lands h landsAs_own
  | _ => cases h

/-! The mailbox command, which answers before it writes (R420). -/

/-- The mailbox's registers play no part in the test of a warm reset (R413). -/
theorem resetTest_same {m1 : Mach} {d n : Nat} (h : ∀ q, q.k.desc.blk ≠ .FWM → m1.rd q = m.rd q)
    (hf : m1.fuse = m.fuse) : writeTest m1 ⟨.GLB_RESET_CTL, 0⟩ d n (.firmware 0) =
      writeTest m ⟨.GLB_RESET_CTL, 0⟩ d n (.firmware 0) := by
  have field (f : RF) (hk : f.k.desc.blk ≠ .FWM) : m1.g f = m.g f := by rw [Mach.g, Mach.g, h _ hk]
  have old : m1.rd ⟨.GLB_RESET_CTL, 0⟩ = m.rd ⟨.GLB_RESET_CTL, 0⟩ := h _ (by decide)
  have dom (d : Nat) : domOn m1 d = domOn m d := by rw [domOn, domOn, field _ (by exact of_decide_eq_true rfl)]
  have reach : regReachable m1 ⟨.GLB_RESET_CTL, 0⟩ = regReachable m ⟨.GLB_RESET_CTL, 0⟩ := by simp only [regReachable, dom]
  have busy : structBusy m1 = structBusy m := by simp only [structBusy, field GLB_STRUCT_STATUS_STATE (by decide)]
  have rule (o x : Nat) : blockRule m1 ⟨.GLB_RESET_CTL, 0⟩ o x n (.firmware 0) =
      blockRule m ⟨.GLB_RESET_CTL, 0⟩ o x n (.firmware 0) := rfl
  simp only [writeTest, old, reach, busy, dom, rule, hf, field GLB_STRUCT_CTL_ENABLE (by decide)]

/-- A mailbox answer changes no register but the mailbox's. -/
theorem mbDone_lands {x status : Nat} {l : List Nat} {d n : Nat} (hc : regsWf m.regs = true)
    (hl : Lands m (.firmware 0) ⟨.GLB_RESET_CTL, 0⟩ d n) : Ends (mbDone x status l) m fun _ m1 =>
      Via (At.has Feet.mbDoneAt [⟨.FWM_MB_CTL, x⟩]) m m1 ∧ regsWf m1.regs = true ∧
        Lands m1 (.firmware 0) ⟨.GLB_RESET_CTL, 0⟩ d n :=
  ((mbDone_at x status l).runsIn m).ends.imp fun _ m1 v => by
    have others (q : Reg) (hq : q.k.desc.blk ≠ .FWM) : m1.rd q = m.rd q := v.rd_eq q fun w => by
      have rsp : q.k ≠ .FWM_MB_RSP := fun h => hq (by rw [h]; rfl)
      have ctl : q ≠ ⟨.FWM_MB_CTL, x⟩ := fun h => hq (by rw [h]; rfl)
      have free : Feet.mbDoneAt.hasReg q.k = false := Foot.mask_reg (F := ⟨[.FWM_MB_RSP], [.out], []⟩) (by simp [rsp])
      simp [At.has, Mask.has_reg, free, ctl]
    refine ⟨v, v.regs_wf hc, hl.mapped, hl.page, hl.aperture, rfl, ?_, ?_⟩
    · rw [resetTest_same others (v.keep (·.fuse) fun u m _ => by simp)]
      exact hl.test
    · rw [show m1.faulty = m.faulty from v.tab_same (T := .faulty) (by decide +kernel)]
      exact hl.whole

theorem mbWarmReset_lands {x : Fin 2} :
    LandsAs (landed (.mbWarmReset x)) (.firmware 0, ⟨.GLB_RESET_CTL, 0⟩, 0xA501, 2 ^ 64 - 1) := landsAs_word

theorem mbWarmReset_runsIn {x : Fin 2} (hc : regsWf m.regs = true)
    (hl : Lands m (.firmware 0) ⟨.GLB_RESET_CTL, 0⟩ 0xA501 (2 ^ 64 - 1)) :
    RunsIn ((landed (.mbWarmReset x)).traced ([.DBG_TRACE_STATUS] ++ RegKind.single .GLB_RESET_CTL) ⟨.GLB_RESET_CTL, 0⟩).has
      (mbWarmReset x) m := by
  have room : Feet.mbDoneAt.le (Foot.quiet.and [.FWM_MB_RSP] [.mgx]).mask = true := by decide +kernel
  refine RunsIn.getM (RunsIn.onlyIf fun _ => RunsIn.bind ((mbDone_lands hc hl).imp fun _ m1 q => ⟨?_, q.2⟩) fun _ m1 q =>
    mbWarmReset_lands.write_runsIn q.1 (by decide) (by decide) q.2)
  exact q.1.mono (At.has_mono (Mask.le_trans room (traced_le (r := ⟨.GLB_RESET_CTL, 0⟩)))
    (by simp [landed, Foot.traced, Foot.and]))

/-! What a command leaves whose write is accepted. -/

/-- What such a command runs, where its write is accepted, keeps to `landed`, the register and the trace. -/
theorem landed_runs (hi : s.Inv) (ha : aim c = some a) (hl : Lands s.m a.1 a.2.1 a.2.2.1 a.2.2.2) :
    (landed c).settles = true ∧ ∃ x, exec c s = cmd x s ∧
      RunsIn ((landed c).traced ([.DBG_TRACE_STATUS] ++ a.2.1.k.single) a.2.1).has x ((Upd.out []).apply s.m) := by
  have wf : regsWf ((Upd.out []).apply s.m).regs = true := hi.canon.regs
  by_cases hm : ∃ x, c = .mbWarmReset x
  · obtain ⟨x, rfl⟩ := hm
    obtain rfl := Option.some.inj ha
    exact ⟨mbWarmReset_lands.settles, _, rfl, mbWarmReset_runsIn wf (hl.sent [])⟩
  · have hm : ∀ x, c ≠ .mbWarmReset x := fun x hx => hm ⟨x, hx⟩
    have lands := aim_lands ha hm
    have aimed := aim_aimed ha hm
    have settles := lands.settles
    have quiet : Feet.quiet.le ((landed c).traced ([.DBG_TRACE_STATUS] ++ a.2.1.k.single) a.2.1).mask = true := by
      simp only [Foot.settles, Bool.and_eq_true] at settles
      exact Mask.le_trans settles.1.1.1 traced_le
    exact ⟨settles, aimed_runs aimed (lands.write_runsIn wf aimed.data aimed.mask (hl.sent [])) fun _ _ =>
      at_le (emit_only _) (Mask.le_trans (by decide +kernel) quiet)⟩

/-- Settles O42: what each command's write changes beside its register and its trace lies within `landed`. -/
theorem commandWriteFrame : Obligations.CommandWriteFrame := by
  intro s t c p r data mask hi ha hl h
  obtain ⟨settles, x, hx, hp⟩ := landed_runs hi ha hl
  exact traced_keeps hi (regAt_index hl.mapped.2) settles hp (hx ▸ h)

end Sys2Proof.Machine
end

section
/-!
SUPPORT. What leaves GLB_ID as it stands (R23): the programs that store in every register but that one, and among them those of
the control space, whose tests admit no write of a register that software cannot write (R424).
-/
namespace Sys2Proof.Machine

-- One declaration at a time: proofs that compute in the kernel wait for it, each with a stack of its own.
set_option Elab.async false

/-! The registers beside GLB_ID. -/

/-- Every register but GLB_ID, and everything that the block holds beside its registers. -/
def Feet.besideId : Mask := ⟨2 ^ 512 - 1 - 2 ^ RegKind.GLB_ID.ctorIdx, 2 ^ 128 - 1⟩

theorem besideId_reg (k : RegKind) : Feet.besideId.hasReg k = (k != .GLB_ID) :=
  beq_iff_eq.1 (RegKind.all (p := fun k => Feet.besideId.hasReg k == (k != .GLB_ID)) (by decide +kernel) k)

theorem besideId_tab (T : Tab) : Feet.besideId.hasTab T = true := by cases T <;> decide

/-- The program stores in registers beside GLB_ID alone, whatever the block holds, and what follows it runs after it. -/
abbrev SparesId {α : Type} (x : P α) : Prop := Only Feet.besideId.has x

variable {α β : Type}

/-- A program whose footprint does not name GLB_ID. -/
theorem Only.spares {A : Mask} {x : P α} (h : Only A.has x) (hA : A.le Feet.besideId = true := by decide +kernel) :
    SparesId x := h.le hA

theorem spares_doT {u : Upd} (h : u.tab.isSome = true := by rfl) : SparesId (doU u) := by
  obtain ⟨T, hT⟩ := Option.isSome_iff_exists.1 h
  exact Only.doT T hT (besideId_tab T)

/-- What changes a thing beside the registers by a function of it. -/
theorem spares_mod {γ : Type} {g : Mach → γ} {u : γ → Upd} (h : ∀ v, (u v).tab.isSome = true := by intro _; rfl) :
    SparesId (do let v ← (do let m ← getM; pure (g m) : P γ); doU (u v)) :=
  Only.bind (Only.bind Only.getM fun _ => Only.pure _) fun _ => spares_doT (h _)

theorem spares_wr {f : RF} {x : Nat} (h : f.k ≠ .GLB_ID := by nofun) : SparesId (wr f x) :=
  Only.wrK f.k rfl (by simpa [besideId_reg] using h)

theorem spares_inc {f : RF} (h : f.k ≠ .GLB_ID := by nofun) : SparesId (inc f) :=
  Only.incK f.k rfl (by simpa [besideId_reg] using h)

theorem spares_addSat {f : RF} {n : Nat} (h : f.k ≠ .GLB_ID := by nofun) : SparesId (addSat f n) :=
  Only.addSatK f.k rfl (by simpa [besideId_reg] using h)

theorem spares_wrReg {k : RegKind} {i x : Nat} (h : k ≠ .GLB_ID := by nofun) : SparesId (wrReg k i x) :=
  Only.wrRegK k (by simpa [besideId_reg] using h)

theorem spares_rstReg {k : RegKind} {i : Nat} (h : k ≠ .GLB_ID := by nofun) : SparesId (rstReg k i) :=
  Only.rstK k (by simpa [besideId_reg] using h)

/-! Writes that their tests admit (R424). -/

/-- None of the writes is one of GLB_ID. -/
def Elsewhere (l : List Pend) : Prop := ∀ x ∈ l, x.r.k ≠ .GLB_ID

/-- No test admits a write of GLB_ID, whose fields are all RO. -/
theorem writeTest_elsewhere {m : Mach} {r : Reg} {d n : Nat} {p : Path} (h : writeTest m r d n p = rcOK) : r.k ≠ .GLB_ID :=
  fun hr => writeTest_writable h (by rw [hr]; decide +kernel)

/-- The program spares GLB_ID, and so do the writes that it answers. -/
def Admits (x : P (List Pend)) : Prop := ∀ m, Ends x m fun l m' => Via Feet.besideId.has m m' ∧ Elsewhere l

theorem Admits.pure {l : List Pend} (h : Elsewhere l) : Admits (pure l) := fun m _ => ⟨l, m, rfl, .refl m, h⟩

theorem Admits.nil : Admits (Pure.pure []) := Admits.pure (by simp [Elsewhere])

theorem Admits.one {w : CtlWrite} {r : Reg} (h : r.k ≠ .GLB_ID) : Admits (Pure.pure [⟨w, r⟩]) :=
  Admits.pure (by simpa [Elsewhere] using h)

theorem Admits.after {x : P β} {f : β → P (List Pend)} (hx : SparesId x) (hf : ∀ b, Admits (f b)) : Admits (x >>= f) :=
  fun m => Ends.bind (hx.runsIn m) fun b m1 v => (hf b m1).imp fun _ _ q => ⟨v.trans q.1, q.2⟩

theorem Admits.ite {c : Prop} [Decidable c] {x y : P (List Pend)} (hx : c → Admits x) (hy : ¬c → Admits y) :
    Admits (if c then x else y) := by
  split
  · next h => exact hx h
  · next h => exact hy h

theorem Admits.bind {x : P (List Pend)} {f : List Pend → P (List Pend)} (hx : Admits x)
    (hf : ∀ l, Elsewhere l → Admits (f l)) : Admits (x >>= f) := fun m =>
  Ends.bind (hx m) fun l m1 q => (hf l q.2 m1).imp fun _ _ q' => ⟨q.1.trans q'.1, q'.2⟩

/-- What follows such a program may count on its answer. -/
theorem Admits.spares {x : P (List Pend)} {f : List Pend → P α} (hx : Admits x) (hf : ∀ l, Elsewhere l → SparesId (f l)) :
    SparesId (x >>= f) := fun k m => RunsIn.bind (hx m) (fun l m1 q => (hf l q).runsIn m1) k

theorem accessRefused_spares (w : CtlWrite) (cause : Nat) : SparesId (accessRefused w cause) :=
  (accessRefused_only w cause).spares

theorem refuse_spares (r : Reg) (w : CtlWrite) (reason : Nat) : SparesId (refuse r w reason) := (refuse_only r w reason).spares

theorem trace_spares (a b c d : Nat) (x y : Word) : SparesId (trace a b c d x y) := (trace_only a b c d x y).spares

theorem raise_spares (e : EvRec) : SparesId (raise e) := (raise_only e).spares

theorem apertureWrite_admits (w : CtlWrite) (a : Reg) : Admits (apertureWrite w a) := by
  have refused {r : Reg} {reason : Nat} : Admits (do wr (TEN_OBJ_STATUS_REFUSED (a.i / 8)) 1
                                                     refuse r w reason
                                                     return []) :=
    .after spares_wr fun _ => .after (refuse_spares _ _ _) fun _ => .nil
  refine .after Only.getM fun m => ?_
  dsimp only
  split
  · exact .ite (fun _ => refused) fun _ => .ite (fun h => .one (writeTest_elsewhere h)) fun _ => refused
  · exact refused
  · exact .after spares_wr fun _ => .after (trace_spares _ _ _ _ _ _) fun _ => .nil

theorem admitWrite_admits (w : CtlWrite) : Admits (admitWrite w) := by
  have refused {cause : Nat} : Admits (do accessRefused w cause; return []) :=
    .after (accessRefused_spares w cause) fun _ => .nil
  refine .after Only.getM fun m => ?_
  dsimp only
  split
  · exact .after (dbForeign_only _ _).spares fun _ => .nil
  · refine .ite (fun _ => refused) fun _ => ?_
    split
    · exact refused
    next r _ =>
      refine .ite (fun _ => refused) fun _ => .ite (fun _ => apertureWrite_admits _ _) fun _ => .ite (fun h => .one ?_) fun _ =>
        .after (refuse_spares _ _ _) fun _ => .nil
      split at h
      · cases h
      · exact writeTest_elsewhere h

theorem gather_admits {l : List CtlWrite} : Admits (gather l admitWrite) := by
  induction l with
  | nil => exact .nil
  | cons w t ih =>
    exact (admitWrite_admits w).bind fun a ha => ih.bind fun b hb => .pure fun x hx => (List.mem_append.1 hx).elim (ha x) (hb x)

/-- A withdrawal leaves some of the writes (R425). -/
theorem withdraw_admits (r : Reg) (n : Nat) {l : List Pend} (hl : Elsewhere l) : Admits (withdraw r n l) := by
  induction n generalizing l with
  | zero => exact .pure hl
  | succ n ih =>
    refine .after Only.getM fun m => .ite (fun _ => .pure hl) fun _ => ?_
    split
    · exact .after (refuse_spares _ _ _) fun _ => ih fun x hx => hl x (List.dropLast_subset l hx)
    · exact .pure hl

theorem mem_byRank {m : Mach} {x y : Pend} {l : List Pend} (h : y ∈ byRank m x l) : y = x ∨ y ∈ l := by
  induction l with
  | nil => simpa [byRank] using h
  | cons z t ih =>
    simp only [byRank] at h
    split at h
    · simpa using h
    · rcases List.mem_cons.1 h with rfl | h
      · exact .inr (by simp)
      · exact (ih h).imp id (List.mem_cons_of_mem _)

theorem Elsewhere.ranked {m : Mach} {l a : List Pend} (hl : Elsewhere l) (ha : Elsewhere a) :
    Elsewhere (l.foldl (fun a x => byRank m x a) a) := by
  induction l generalizing a with
  | nil => exact ha
  | cons x t ih =>
    refine ih (fun y hy => hl y (List.mem_cons_of_mem _ hy)) fun y hy => ?_
    rcases mem_byRank hy with rfl | h
    · exact hl y (by simp)
    · exact ha y h

/-! What an accepted write does. -/

theorem regApply_spares {r : Reg} (h : r.k ≠ .GLB_ID) (data mask : Nat) (p : Path) : SparesId (regApply r data mask p) :=
  Only.bind Only.getM fun _ => Only.bind (spares_wrReg h) fun _ => Only.bind (Only.onlyIf spares_wr) fun _ =>
    Only.bind (regEffect_only _ _ _ _ _).spares fun _ => (ctxWritten_only _).spares

theorem mergeApply_spares {l : List Pend} (hl : Elsewhere l) : SparesId (mergeApply l) := by
  cases l with
  | nil => exact Only.pure _
  | cons x t =>
    have hx : x.r.k ≠ .GLB_ID := hl x (by simp)
    refine (withdraw_admits _ _ hl).spares fun l _ => Only.bind Only.getM fun m => ?_
    refine Only.bind (Only.each fun _ _ => trace_spares _ _ _ _ _ _) fun _ => ?_
    have yields {c : Prop} [Decidable c] {l : List Pend} {ds : List Discard} :
        SparesId (do onlyIf c (each l fun y => refuse y.r y.w rcTWN_BUSY); return ds) :=
      Only.bind (Only.onlyIf (Only.each fun _ _ => refuse_spares _ _ _)) fun _ => Only.pure _
    dsimp only
    split
    · exact Only.bind (regApply_spares hx _ _ _) fun _ => yields
    · exact yields

theorem conflict_spares (ds : List Discard) : SparesId (conflict ds) := by
  refine Only.bind Only.getM fun m => ?_
  split
  · exact Only.pure _
  · refine Only.bind spares_addSat fun _ => Only.onlyIf ?_
    iterate 8 refine Only.bind spares_wr fun _ => ?_
    exact raise_spares _

/-- No write of the control space stores in GLB_ID. -/
theorem regWrite_spares (ws : List CtlWrite) : SparesId (regWrite ws) :=
  gather_admits.spares fun _ hl => Only.bind Only.getM fun _ =>
    Only.bind (Only.gather fun _ => mergeApply_spares (Elsewhere.ranked (fun x hx => hl x (List.mem_filter.1 hx).1)
      (by simp [Elsewhere]))) fun _ => conflict_spares _

theorem fieldsWrite_spares (p : Path) (l : List (RF × Nat)) : SparesId (fieldsWrite p l) := by
  cases l with
  | nil => exact Only.pure _
  | cons a t => exact regWrite_spares _

theorem dataAccess_spares (p : Path) (k : RegKind) (i : Nat) (data : Option Word) : SparesId (dataAccess p k i data) := by
  cases data with
  | some v => exact regWrite_spares _
  | none => exact Only.bind (ctlRead_only _ _ _).spares fun _ => (emit_only _).spares

end Sys2Proof.Machine
end

section
/-!
SUPPORT. Loads, fences, warm resets and the clock leave GLB_ID as it stands (R23).
-/
namespace Sys2Proof.Machine

-- One declaration at a time: proofs that compute in the kernel wait for it, each with a stack of its own.
set_option Elab.async false

/-! Loads (R31-R33, R43). -/

theorem loadShow_spares {cmd reason sect item : Nat} {pol part : Bool} : SparesId (loadShow cmd reason sect item pol part) :=
  (loadShow_only _ _ _ _ _ _).spares

theorem loadRefuse_spares {cmd reason sect item : Nat} {pol part : Bool} : SparesId (loadRefuse cmd reason sect item pol part) :=
  Only.bind Only.getM fun _ => Only.bind loadShow_spares fun _ => Only.bind spares_mod fun _ => Only.onlyIf
    (Only.bind (raise_spares _) fun _ => Only.onlyIf (Only.bind spares_mod fun _ => (loadStart_only _ _).spares))

theorem imageShow_spares {svn build : Nat} : SparesId (imageShow svn build) := Only.bind spares_wr fun _ => spares_wr

theorem polAccept_spares : SparesId polAccept :=
  Only.bind Only.getM fun _ => Only.bind imageShow_spares fun _ => Only.bind spares_mod fun _ => loadShow_spares

theorem polWrite_spares (p : Path) (w : PolWrite) : SparesId (polWrite p w) := by
  refine Only.bind Only.getM fun m => ?_
  dsimp only
  split
  · next h =>
    have one : Elsewhere [⟨{ path := p, addr := w.r.addr, data := w64 w.data, mask := w64 w.mask }, w.r⟩] := by
      simpa [Elsewhere] using writeTest_elsewhere h
    exact Only.bind (mergeApply_spares one) fun _ => Only.bind (conflict_spares _) fun _ => Only.pure _
  · exact Only.bind (refuse_spares _ _ _) fun _ => Only.pure _

theorem polRun_spares (p : Path) (l : List PolWrite) : SparesId (polRun p l) := by
  induction l with
  | nil => exact Only.pure _
  | cons w t ih => exact Only.bind (polWrite_spares p w) fun _ => Only.ite ih (Only.pure _)

theorem gateLoad_spares (p : Path) (it : Item) : SparesId (gateLoad p it) :=
  Only.bind Only.getM fun _ => Only.bind (Only.each fun _ _ => spares_doT) fun _ => regWrite_spares _

theorem polItems_spares (p : Path) (l : List Item) : SparesId (polItems p l) := by
  induction l with
  | nil => exact Only.pure _
  | cons it t ih =>
    refine Only.bind Only.getM fun m => Only.bind (polRun_spares p _) fun x => ?_
    cases x with
    | some e => exact Only.pure _
    | none => exact Only.bind (Only.onlyIf (gateLoad_spares p it)) fun _ => ih

theorem polFinish_spares (cmd code : Nat) : SparesId (polFinish cmd code) := by
  refine Only.bind Only.getM fun m => Only.bind (polItems_spares _ _) fun x => ?_
  cases x with
  | some e => exact loadRefuse_spares
  | none => exact polAccept_spares

theorem polWindows_spares (cmd code : Nat) : SparesId (polWindows cmd code) := by
  refine Only.bind Only.getM fun m => Only.ite (polFinish_spares _ _) (Only.ite spares_mod ?_)
  refine Only.bind (polItems_spares _ _) fun x => ?_
  cases x with
  | some e => exact loadRefuse_spares
  | none => exact Only.ite (Only.bind spares_mod fun _ => regWrite_spares _) (polFinish_spares _ _)

theorem policyLoad_spares {cmd code : Nat} {v : Verified} : SparesId (policyLoad cmd code v) := by
  refine Only.bind Only.getM fun m => Only.ite loadRefuse_spares ?_
  split
  · exact loadRefuse_spares
  · split
    · exact loadRefuse_spares
    · refine Only.bind spares_mod fun _ => Only.bind (polItems_spares _ _) fun x => ?_
      cases x with
      | some e => exact loadRefuse_spares
      | none => exact polWindows_spares _ _

/-! A full image names no field of GLB_ID (Table 2.2). -/

/-- Whether a field of a register lies beside GLB_ID. -/
def RF.besideId (f : RF) : Bool := f.k != .GLB_ID

/-- Whether the fields and marks of an item type lie beside GLB_ID, for the item of number `key`. -/
def ISpec.besideId (key : Nat) (s : ISpec) : Bool :=
  (s.fields.all fun f => (f.tgt key).all RF.besideId) && (s.marks key).all RF.besideId

theorem itemTypes_besideId (key : Nat) : itemTypes.all (ISpec.besideId key) = true := rfl

theorem itemSpec_besideId {sect typ key : Nat} {s : ISpec} (h : itemSpec sect typ = some s) : s.besideId key = true :=
  List.all_eq_true.1 (itemTypes_besideId key) s (List.mem_of_find?_eq_some h)

theorem fields_besideId {it : Item} {f : FSpec} (hf : f ∈ it.fields) {r : RF} (hr : f.tgt it.key = some r) : r.k ≠ .GLB_ID := by
  unfold Item.fields at hf
  cases hs : itemSpec it.sect it.typ with
  | none => simp [hs] at hf
  | some s =>
    have types := (Bool.and_eq_true_iff.1 (itemSpec_besideId (key := it.key) hs)).1
    simpa [hr, RF.besideId] using List.all_eq_true.1 types f (by simpa [hs] using hf)

theorem marks_besideId {it : Item} {r : RF} (hr : r ∈ ((itemSpec it.sect it.typ).map (·.marks it.key)).getD []) :
    r.k ≠ .GLB_ID := by
  cases hs : itemSpec it.sect it.typ with
  | none => simp [hs] at hr
  | some s =>
    have marks := (Bool.and_eq_true_iff.1 (itemSpec_besideId (key := it.key) hs)).2
    simpa [RF.besideId] using List.all_eq_true.1 marks r (by simpa [hs] using hr)

theorem itemExtra_spares (it : Item) : SparesId (itemExtra it) := by
  refine Only.bind Only.getM fun m => ?_
  dsimp only
  split
  case h_1 | h_2 | h_3 | h_5 => exact spares_doT
  case h_4 => exact Only.bind spares_wr fun _ => spares_wr
  case h_6 => exact spares_wr
  case h_7 => exact Only.pure _

theorem itemStore_spares (it : Item) : SparesId (itemStore it) := by
  refine Only.bind (Only.each fun f hf => ?_) fun _ =>
    Only.bind (Only.each fun r hr => spares_wr (marks_besideId hr)) fun _ => itemExtra_spares it
  split
  · next hr => exact spares_wr (fields_besideId hf hr)
  · exact Only.pure _

/-- What earlier loads left is cleared in registers with locked fields, windows and slices. -/
theorem imageClear_spares : SparesId imageClear := by
  refine Only.bind Only.getM fun m => Only.bind (Only.each fun e _ => ?_) fun _ => ?_
  · have locked : kindBits e.1.k (· = .RWL) ≠ 0 → e.1.k ≠ .GLB_ID := fun h hk => h (by rw [hk]; decide +kernel)
    exact Only.bind (Only.onlyIf' fun h => spares_wrReg (locked h)) fun _ =>
      Only.bind (Only.onlyIf spares_rstReg) fun _ => Only.onlyIf spares_rstReg
  · exact Only.bind spares_doT fun _ => Only.bind spares_doT fun _ => Only.bind spares_doT fun _ => spares_doT

theorem imageAccept_spares (v : Verified) : SparesId (imageAccept v) :=
  Only.bind (Only.rd _) fun _ => Only.bind imageClear_spares fun _ => Only.bind (Only.each fun it _ => itemStore_spares it) fun _ =>
    Only.bind imageShow_spares fun _ => Only.bind (Only.each fun _ _ => spares_wr) fun _ => Only.bind spares_wr fun _ =>
    Only.bind (whlCfg_only _).spares fun _ => Only.bind spares_mod fun _ => loadShow_spares

theorem imageLoadDone_spares (flash : List Nat) : SparesId (imageLoadDone flash) := by
  refine Only.bind Only.getM fun m => ?_
  split
  · refine Only.ite ?_ (Only.pure _)
    dsimp only
    exact Only.ite loadRefuse_spares (Only.ite loadRefuse_spares (Only.ite policyLoad_spares (imageAccept_spares _)))
  · exact Only.pure _

/-! The Kerb fence and the load that waits for it (R43, R290). -/

theorem fenceShow_spares {reason win other addr : Nat} : SparesId (fenceShow reason win other addr) :=
  Only.bind spares_wr fun _ => Only.bind spares_wr fun _ => Only.bind spares_wr fun _ => spares_wr

theorem fenceSwitch_spares : SparesId fenceSwitch :=
  Only.bind Only.getM fun _ => Only.bind (Only.each fun _ _ => Only.onlyIf (Only.each fun _ _ => spares_wr)) fun _ => spares_wr

theorem fenceCheckDone_spares : SparesId fenceCheckDone := by
  refine Only.bind Only.getM fun m => Only.ite ?_ (Only.pure _)
  split
  · exact Only.bind fenceShow_spares fun _ => Only.bind spares_wr fun _ => Only.bind spares_wr fun _ =>
      Only.bind spares_inc fun _ => raise_spares _
  · exact Only.bind fenceShow_spares fun _ => Only.bind fenceSwitch_spares fun _ => spares_wr

theorem fenceCheckRow_spares : SparesId fenceCheckRow := by
  refine Only.bind fenceCheckDone_spares fun _ => Only.bind Only.getM fun m => ?_
  split
  · exact Only.onlyIf (Only.ite loadRefuse_spares (Only.onlyIf (polWindows_spares _ _)))
  · exact Only.pure _

theorem fenceDrained_spares : SparesId fenceDrained :=
  Only.bind Only.getM fun _ => Only.ite (Only.bind spares_wr fun _ => Only.bind (Only.onlyIf spares_wr) fun _ =>
    Only.bind spares_inc fun _ => Only.pure _) (Only.pure _)

theorem fenceDrainedRow_spares : SparesId fenceDrainedRow := by
  refine Only.bind fenceDrained_spares fun done => Only.bind Only.getM fun m => ?_
  split
  · exact Only.onlyIf (Only.ite (polFinish_spares _ _) (Only.onlyIf (Only.bind spares_mod fun _ => polWindows_spares _ _)))
  · exact Only.pure _

/-! Warm resets and the thermal monitor (R390, R413). -/

/-- A reset of the registers that keeps GLB_ID. -/
theorem regsReset_spares {keep : List RegKind} (h : RegKind.GLB_ID ∈ keep) : SparesId (regsReset keep) :=
  Only.bind Only.getM fun _ => Only.each fun e _ => by
    split
    · exact Only.pure _
    · next hk => exact spares_rstReg fun he => hk (by rw [he]; simpa using h)

theorem contentsClear_spares : SparesId contentsClear := by
  iterate 86 refine Only.bind spares_doT fun _ => ?_
  exact spares_doT

theorem warmFence_spares : SparesId warmFence := by
  have homes : SparesId (do
      wr TWN_ROLE_HOMES 0
      wr TWN_ROLE_MIRRORED 0
      wr TWN_ROLE_COPY_DONE 0
      wr TWN_ROLE_SETTLING 0
      wr TWN_ROLE_MOVING 0
      wr TWN_ROLE_BLIND 0) :=
    Only.bind spares_wr fun _ => Only.bind spares_wr fun _ => Only.bind spares_wr fun _ => Only.bind spares_wr fun _ =>
      Only.bind spares_wr fun _ => spares_wr
  refine Only.bind Only.getM fun m => Only.ite ?_ (Only.ite ?_ ?_)
  · exact Only.bind spares_wr fun _ => Only.bind spares_wr fun _ => Only.bind spares_doT fun _ =>
      Only.bind (raise_spares _) fun _ => homes
  · exact Only.bind (Only.onlyIf spares_wr) fun _ => Only.bind spares_doT fun _ => homes
  · exact Only.bind spares_wr fun _ => Only.bind spares_doT fun _ => homes

/-- A warm reset keeps GLB_ID whole (R23, Table 19.4). -/
theorem warmReset_spares (cause : Nat) : SparesId (warmReset cause) := by
  refine Only.bind relock_only.spares fun _ => Only.bind warmFence_spares fun _ => Only.bind Only.getM fun m =>
    Only.bind (regsReset_spares (by decide)) fun _ => ?_
  iterate 5 refine Only.bind spares_wr fun _ => ?_
  refine Only.bind (Only.each fun _ _ => Only.onlyIf spares_wr) fun _ => Only.bind tbAddend_only.spares fun _ =>
    Only.bind contentsClear_spares fun _ => Only.bind (repairsKeep_only _).spares fun _ =>
    Only.bind (Only.each fun _ _ => spares_doT) fun _ => Only.bind (Only.each fun _ _ => (slotPerstShow_only _).spares) fun _ =>
    Only.bind spares_doT fun _ => Only.bind spares_wrReg fun _ => Only.bind (Only.onlyIf spares_wr) fun _ =>
    Only.bind spares_mod fun _ => ?_
  exact Only.ite mgmtReady_only.spares startUp_only.spares

theorem warmRequest_spares (cause : Nat) : SparesId (warmRequest cause) :=
  Only.bind Only.getM fun _ => Only.ite (Only.pure _) (Only.ite spares_mod (warmReset_spares _))

theorem warmRow_spares (pin command : Bool) : SparesId (warmRow pin command) :=
  Only.bind Only.getM fun _ => Only.bind (Only.onlyIf spares_mod) fun _ => warmRequest_spares _

theorem refclkReturn_spares (pin command : Bool) : SparesId (refclkReturn pin command) :=
  Only.bind Only.getM fun _ => Only.ite (Only.bind spares_wr fun _ => Only.bind spares_wr fun _ =>
    Only.bind (tbClock_only _).spares fun _ => Only.ite (warmRequest_spares _) (Only.onlyIf startUp_only.spares)) (Only.pure _)

theorem thermTrip_spares : SparesId thermTrip :=
  Only.bind Only.getM fun _ => Only.bind (fence_only _).spares fun _ => Only.bind (allDown_only _ _).spares fun _ =>
    Only.bind spares_wr fun _ => Only.bind spares_wr fun _ => Only.bind spares_mod fun _ => spares_mod

theorem thermalSample_spares (temps : List Int) (sensor : Nat) : SparesId (thermalSample temps sensor) :=
  Only.bind Only.getM fun _ => Only.bind spares_wr fun _ => Only.bind spares_wr fun _ => Only.ite
    (Only.bind spares_mod fun _ => Only.pure _)
    (Only.bind spares_mod fun _ => Only.bind (Only.onlyIf thermTrip_spares) fun _ => Only.pure _)

theorem thermalRow_spares (temps : List Int) (sensor : Nat) : SparesId (thermalRow temps sensor) :=
  Only.bind (thermalSample_spares _ _) fun _ => Only.onlyIf (warmReset_spares _)

/-! The cycle of the clock (R208, R209). -/

theorem coreCycle_spares : SparesId coreCycle :=
  Only.bind Only.getM fun _ => Only.bind spares_mod fun _ => Only.bind (pmuCount_only _ _ _).spares fun _ =>
    Only.each fun _ _ => Only.onlyIf (pmuCount_only _ _ _).spares

theorem tbTick_spares : SparesId tbTick :=
  Only.bind Only.getM fun _ => Only.bind (tbSet_only _).spares fun _ => Only.bind spares_mod fun _ => Only.bind spares_doT fun _ =>
    spares_mod

theorem idle_spares : SparesId idle :=
  Only.bind Only.getM fun _ => Only.onlyIf (Only.bind Only.getM fun _ => Only.ite tbTick_spares
    (Only.bind coreCycle_spares fun _ => Only.bind Only.getM fun _ => Only.onlyIf tbTick_spares))

/-! Commands that are made of register writes. -/

theorem tmProgram_spares (x status : Nat) (ws : List (Nat × Word × Word)) : SparesId (tmProgram x status ws) :=
  Only.bind Only.getM fun _ => Only.ite (Only.bind (Only.onlyIf (Only.each fun _ _ => regWrite_spares _)) fun _ =>
    (mbDone_only _ _ _).spares) (Only.pure _)

theorem mbWarmReset_spares (x : Nat) : SparesId (mbWarmReset x) :=
  Only.bind Only.getM fun _ => Only.ite (Only.bind (mbDone_only _ _ _).spares fun _ => regWrite_spares _) (Only.pure _)

theorem fmAnswer_spares {code : Nat} {l : List Nat} : SparesId (fmAnswer code l) := (emit_only _).spares

theorem fmCmd_spares {p : Path} {x : P Unit} (h : SparesId x) : SparesId (fmCmd p x) := fmCmd_only p x (by decide +kernel) h

theorem slotPerst_spares (p : Path) (q v : Nat) : SparesId (slotPerst p q v) :=
  fmCmd_spares (Only.ite (Only.bind (regWrite_spares _) fun _ => fmAnswer_spares) fmAnswer_spares)

theorem resetPpb_spares (p : Path) (q : Nat) : SparesId (resetPpb p q) :=
  fmCmd_spares (Only.bind (regWrite_spares _) fun _ => fmAnswer_spares)

theorem ctlWrite_spares (p : Path) (addr : Nat) (data mask : Word) : SparesId (ctlWrite p addr data mask) :=
  fmCmd_spares (Only.bind (regWrite_spares _) fun _ => fmAnswer_spares)

theorem stageBulk_spares (p : Path) (addr : Nat) (ws : List Word) : SparesId (stageBulk p addr ws) :=
  fmCmd_spares (Only.ite (Only.bind (regWrite_spares _) fun _ => Only.bind (Only.each fun _ _ => regWrite_spares _)
    fun _ => fmAnswer_spares) fmAnswer_spares)

end Sys2Proof.Machine
end

section
/-!
SUPPORT. What every command leaves that does not sample the TWIN_ID strap: GLB_ID as it stood (R23).
-/
namespace Sys2Proof.Machine

-- One declaration at a time: proofs that compute in the kernel wait for it, each with a stack of its own.
set_option Elab.async false

theorem whileOn_spares {d : Nat} {x : P Unit} (h : SparesId x) : SparesId (whileOn d x) := whileOn_only d x (by decide +kernel) h

theorem whileUp_spares {d : Nat} {x : P Unit} (h : SparesId x) : SparesId (whileUp d x) := whileUp_only d x (by decide +kernel) h

theorem onSpdm_spares {c : Nat} {x : P Unit} (h : SparesId x) : SparesId (onSpdm c x) := onSpdm_only c x (by decide +kernel) h

theorem spares_cmd {c : Instr} {p : P Unit} (hp : SparesId p) (hx : ∀ s, exec c s = cmd p s := by intro _; rfl) :
    ∃ p : P Unit, (∀ s, exec c s = cmd p s) ∧ SparesId p := ⟨p, hx, hp⟩

/-- Every command that does not sample the strap is a program that spares GLB_ID. -/
theorem exec_spares {c : Instr} (h : samplesStrap c = false) : ∃ p : P Unit, (∀ s, exec c s = cmd p s) ∧ SparesId p := by
  cases c with
  | coldReset | hardBrownout | porstRelease => cases h
  | warmReset => exact spares_cmd (warmRow_spares _ _)
  | perstAssert => exact spares_cmd (perstAssert_only _).spares
  | perstDeassert => exact spares_cmd (perstDeassert_only _).spares
  | presenceDebounced => exact spares_cmd (presenceDebounced_only _ _).spares
  | twinIdChange => exact spares_cmd (twinIdChange_only _).spares
  | partnerAliveChange => exact spares_cmd (partnerAlive_only _).spares
  | ppsEdge => exact spares_cmd (ppsEdge_only _).spares
  | ppsLost => exact spares_cmd ppsLost_only.spares
  | registerWrite | loadFlashA | loadFlashB | loadStage | abort | structEnable | structDisable | structCheck |
    portEnableWrite | retrain | redoEq | portClrCnt | planeOut | planeReturn | xbClrCnt | probeStart | fmdCommit |
    fmdDecommit | sqClrCnt | slotRingEnable | tmClrCnt | gateChange | timeStepOffset | tbClrCnt | ringEnable |
    ringDisable | ringClrCnt | clusterOut | clusterReturn | tableEnable | lmClrCnt | predClr | kskBankOut |
    kskBankReturn | kioskFlush | kskClrCnt | kerbWindowWrite | kerbFenceGo | sliceEnable | sliceDisable |
    violationClear | krbClrCnt | spindleEnable | spindleRetrain | spindleClrCnt | spindleCtlWrite | fwSend |
    whorlClrCnt | fence | unfence | yield | handback | twnClrCnt | scrubAbort | retireAdd | writeRaw | readRaw |
    evqEnable | intClrCnt | powerRequest | pwrClrCnt | avsMarginWrite | slotPowerReq | unlatch | slotClrCnt | kick |
    coreReset | pmuClrAll | testAbort | chalReq | grant | relock | cmdConflictClear | pathCntClr =>
    exact spares_cmd (regWrite_spares _)
  | imageLoadDone => exact spares_cmd (imageLoadDone_spares _)
  | stageDataAccess | tbTimeNsRead | gclDataAccess | apertureAccess | traceDataRead =>
    exact spares_cmd (dataAccess_spares _ _ _ _)
  | structCheckDone => exact spares_cmd structCheckDone_only.spares
  | phase11ListenEnd => exact spares_cmd phase11ListenEnd_only.spares
  | applyingDone => exact spares_cmd applyingDone_only.spares
  | disablingDone => exact spares_cmd disablingDone_only.spares
  | trainingL0 => exact spares_cmd (trainingL0_only _ _).spares
  | trainTimeout => exact spares_cmd (trainTimeout_only _).spares
  | xrateEqTimeout => exact spares_cmd (xrateTimeout_only _).spares
  | portRecoveryDone => exact spares_cmd (recoveryDone_only _ _).spares
  | linkDown => exact spares_cmd (linkDown_only _).spares
  | ideSecure => exact spares_cmd (ideSecure_only _ _ _).spares
  | ideTimeout => exact spares_cmd (ideTimeout_only _).spares
  | ideFail => exact spares_cmd (ideFail_only _).spares
  | flushComplete => exact spares_cmd (flushComplete_only _).spares
  | flushTimeout => exact spares_cmd (flushTimeout_only _).spares
  | slotPerstRelease => exact spares_cmd (slotPerstRelease_only _).spares
  | powerControllerWrite => exact spares_cmd (powerControllerWrite_only _ _ _).spares
  | hostMemRequest => exact spares_cmd (hostMem_only _ _).spares
  | hostIoRequest => exact spares_cmd (hostIo_only _ _).spares
  | edgeMessage => exact spares_cmd (edgeMessage_only _ _ _ _).spares
  | cxlCacheMessage => exact spares_cmd (cacheMessage_only _ _).spares
  | biconflict => exact spares_cmd (biConflictIn_only _ _ _).spares
  | messageDispatch => exact spares_cmd (messageDispatch_only _ _ _).spares
  | headAdmit => exact spares_cmd (dispatchHead_only _ _).spares
  | cellLinked => exact spares_cmd (cellLinked_only _ _).spares
  | outputSend => exact spares_cmd (outputSend_only _).spares
  | planePathCheckDone => exact spares_cmd (planeCheckPass_only _).spares
  | planePathCheckTimeout => exact spares_cmd (planeCheckFail_only _).spares
  | planeError | planeWatchdog => exact spares_cmd (planeError_only _ _).spares
  | planeDrained => exact spares_cmd (planeDrained_only _).spares
  | planeDrainTimeout => exact spares_cmd (planeDrainTimeout_only _).spares
  | ageExpiry => exact spares_cmd (ageExpiry_only _ _).spares
  | flushedNotice => exact spares_cmd (flushedNotice_only _ _).spares
  | squareLookup => exact spares_cmd (whileOn_spares (squareLookup_only _ _ _).spares)
  | lookupResult => exact spares_cmd (lookupResult_only _ _ _).spares
  | specDataArrival => exact spares_cmd (specArrival_only _ _ _ _).spares
  | memoryReadData => exact spares_cmd (memReadData_only _ _ _ _).spares
  | memoryWriteComplete => exact spares_cmd (memWriteDone_only _ _).spares
  | writeback => exact spares_cmd (whileUp_spares (writebackIn_only _ _ _).spares)
  | birsp => exact spares_cmd (birspIn_only _ _ _ _).spares
  | snoopTimeout => exact spares_cmd (snoopTimeout_only _ _ _).spares
  | memTimeout => exact spares_cmd (memTimeout_only _ _ _).spares
  | mirrorCommit => exact spares_cmd (commitRecord_only _).spares
  | commitSend => exact spares_cmd (commitSend_only _).spares
  | releaseSend => exact spares_cmd (releaseSend_only _).spares
  | retryInterval => exact spares_cmd (whileUp_spares (retryInterval_only _ _).spares)
  | retryAgeLimit => exact spares_cmd (whileUp_spares (retryAge_only _ _).spares)
  | evictWindowEnd => exact spares_cmd (whileUp_spares (evictWindow_only _).spares)
  | probeDone => exact spares_cmd (whileUp_spares (probeDone_only _).spares)
  | cornerFwd => exact spares_cmd (cornerFwd_only _ _ _ _).spares
  | cornerWriteback => exact spares_cmd (cornerWriteback_only _ _).spares
  | cornerBirsp => exact spares_cmd (cornerBirsp_only _ _ _).spares
  | cornerSnoopTimeout => exact spares_cmd (cornerSnoopTimeout_only _ _).spares
  | cornerMemoryWriteDone => exact spares_cmd (cornerWriteDone_only _ _).spares
  | cornerMemTimeout => exact spares_cmd (cornerMemTimeout_only _ _).spares
  | cornerAck => exact spares_cmd (cornerAck_only _ _).spares
  | handover => exact spares_cmd (handover_only _ _ _ _ _ _ _).spares
  | ret => exact spares_cmd (retTake_only _ _ _ _ _ _ _ _ _ _ _).spares
  | waiter => exact spares_cmd (reenter_only _ _).spares
  | credit => exact spares_cmd (creditBack_only _ _ _ _).spares
  | purgeWalkDone => exact spares_cmd (purgeDone_only _).spares
  | slotLineWrite => exact spares_cmd (plazaWrite_only _ _ _ _ _ _).spares
  | plazaLdRead => exact spares_cmd (ldMiss_only _ _ _ _).spares
  | enqueue => exact spares_cmd (whileUp_spares (enqueue_only _).spares)
  | slotFillTimeout => exact spares_cmd (whileUp_spares (slotFillTimeout_only _ _).spares)
  | slotHeadTimeout => exact spares_cmd (whileUp_spares (slotHeadTimeout_only _).spares)
  | slotReturn => exact spares_cmd (whileUp_spares (slotReturn_only _).spares)
  | returnRecordTimeout => exact spares_cmd (whileUp_spares (returnRecord_only _).spares)
  | flushQueue | todSet | todArm | scrubGo | glbResetWarm | testGo => exact spares_cmd (fieldsWrite_spares _ _)
  | flushQueueDone => exact spares_cmd (spares_wr (f := TM_CMD_STATUS_BUSY))
  | kioskFlushDone => exact spares_cmd (spares_wr (f := KSK_STATUS_FLUSH_BUSY))
  | meterSweep => exact spares_cmd (whileUp_spares (meterSweep_only _).spares)
  | egressPush => exact spares_cmd (whileUp_spares (egressPush_only _ _ _).spares)
  | select => exact spares_cmd (whileOn_spares (select_only _).spares)
  | shaperRefill => exact spares_cmd (whileUp_spares (shaperRefill_only _ _).spares)
  | drrSweep => exact spares_cmd (whileUp_spares (drrSweep_only _).spares)
  | gateEntryBoundary => exact spares_cmd (whileUp_spares (gateBoundary_only _).spares)
  | gateStart => exact spares_cmd (whileUp_spares (gateStart_only _).spares)
  | gateSwitch => exact spares_cmd (whileUp_spares (gateSwitch_only _).spares)
  | doorbellProducer | doorbellConsumer => exact spares_cmd (doorbell_only _ _ _ _ _).spares
  | fetchIssue => exact spares_cmd (fetchIssue_only _).spares
  | fetchCompletion => exact spares_cmd (fetchCompletion_only _ _ _ _ _).spares
  | fetchTimeout => exact spares_cmd (fetchTimeout_only _ _).spares
  | ringDispatch => exact spares_cmd ringDispatch_only.spares
  | jobComplete => exact spares_cmd (jobComplete_only _).spares
  | irqModerationTimeout => exact spares_cmd (irqModeration_only _).spares
  | ringStopped => exact spares_cmd (ringStopped_only _).spares
  | ringStopTimeout => exact spares_cmd (ringStopTimeout_only _).spares
  | sfConfigWrite => exact spares_cmd (sfConfig_only _ _ _ _).spares
  | functionLevelReset => exact spares_cmd (flr_only _).spares
  | loomAccessResponse => exact spares_cmd (accResponse_only _ _).spares
  | loomAccessTimeout => exact spares_cmd (accTimeout_only _).spares
  | clusterDrained => exact spares_cmd (clusterDrained_only _).spares
  | kioskFillData => exact spares_cmd (kioskFill_only _ _).spares
  | kioskSnoop => exact spares_cmd (kioskSnoop_only _ _ _).spares
  | kioskSteeredFill => exact spares_cmd (steeredFill_only _ _).spares
  | kskBankDrained => exact spares_cmd (kskDrained_only _).spares
  | kerbFenceCheckDone => exact spares_cmd fenceCheckRow_spares
  | kerbFenceDrained => exact spares_cmd fenceDrainedRow_spares
  | kerbFenceTimeout => exact spares_cmd fenceTimeout_only.spares
  | sliceDrained => exact spares_cmd (sliceDrained_only _).spares
  | sliceStopTimeout => exact spares_cmd (sliceTimeout_only _).spares
  | debugFabricAccess => exact spares_cmd (debugFabric_only _ _ _).spares
  | spindleTrained => exact spares_cmd spnTrained_only.spares
  | spindleTrainTimeout => exact spares_cmd spnTrainTimeout_only.spares
  | spindleRecoveryDone => exact spares_cmd spnRecoveryDone_only.spares
  | spindleRecoveryTimeout => exact spares_cmd spnRecoveryTimeout_only.spares
  | spindleSilence => exact spares_cmd spnSilence_only.spares
  | alignmentLost => exact spares_cmd (alignmentLost_only _).spares
  | laneWindowEnd => exact spares_cmd (laneWindowEnd_only _ _ _).spares
  | statusBlock => exact spares_cmd (statusBlock_only _ _ _ _).spares
  | replayBlock => exact spares_cmd (replayBlock_only _ _).spares
  | spareBlock => exact spares_cmd (spareBlock_only _ _ _ _).spares
  | linkinfoBlock => exact spares_cmd (linkinfoBlock_only _ _ _ _).spares
  | dataPacket => exact spares_cmd (dataPacket_only _).spares
  | fecUncorrectable => exact spares_cmd fecUncorrectable_only.spares
  | replayTimeout => exact spares_cmd replayTimeout_only.spares
  | statusPeriod => exact spares_cmd statusPeriod_only.spares
  | partnerSilent => exact spares_cmd partnerSilent_only.spares
  | mirrorRecord => exact spares_cmd (mirrorRecord_only _ _).spares
  | fwdReq => exact spares_cmd (fwdReq_only _).spares
  | fwdRsp => exact spares_cmd (fwdRsp_only _).spares
  | snoop => exact spares_cmd (snoopIn_only _).spares
  | snoopRsp => exact spares_cmd (birsp_only _ _ _ _).spares
  | loomReq => exact spares_cmd (loomReq_only _).spares
  | loomRsp => exact spares_cmd (loomRsp_only _).spares
  | portState => exact spares_cmd (portState_only _).spares
  | portStatePeriod => exact spares_cmd portStateSend_only.spares
  | dirCopy => exact spares_cmd (dirCopy_only _ _).spares
  | copyComplete => exact spares_cmd copyComplete_only.spares
  | heartbeat => exact spares_cmd (heartbeatRow_only _ _ _).spares
  | heartbeatSend => exact spares_cmd heartbeatSendRow_only.spares
  | heartbeatMiss => exact spares_cmd heartbeatMiss_only.spares
  | whorlSyncLoss => exact spares_cmd (whlSyncLoss_only _).spares
  | fwFrame => exact spares_cmd (fwFrame_only _ _ _).spares
  | formTimeout => exact spares_cmd formTimeout_only.spares
  | settleWalkDone => exact spares_cmd (settleWalkDone_only _ _).spares
  | graceEnd => exact spares_cmd graceEnd_only.spares
  | moveDrained => exact spares_cmd moveDrained_only.spares
  | moveTimeout => exact spares_cmd moveTimeout_only.spares
  | scrubWord => exact spares_cmd (scrubWord_only _).spares
  | scrubEnd => exact spares_cmd scrubEnd_only.spares
  | mergeDrain => exact spares_cmd (mergeDrain_only _ _ _ _ _).spares
  | rawAccessDone => exact spares_cmd rawDone_only.spares
  | evqIrqTimeout => exact spares_cmd evqIrqTimeout_only.spares
  | poisonCommand => exact spares_cmd (poisonCommand_only _ _).spares
  | wakeStepReady => exact spares_cmd (wakeStepReadyRow_only _).spares
  | wakeStepTimeout => exact spares_cmd (wakeStepTimeout_only _).spares
  | wakeRetryWaitEnd => exact spares_cmd (wakeRetryWaitEnd_only _).spares
  | sequencerWatchdog => exact spares_cmd (sequencerWatchdog_only _).spares
  | drainComplete => exact spares_cmd (drainComplete_only _).spares
  | stoppingDone => exact spares_cmd (stoppingDone_only _).spares
  | drainTimeout => exact spares_cmd (drainTimeout_only _).spares
  | lostReady => exact spares_cmd (lostReady_only _).spares
  | refclkLoss => exact spares_cmd refclkLoss_only.spares
  | refclkReturn => exact spares_cmd (refclkReturn_spares _ _)
  | thermalSample => exact spares_cmd (thermalRow_spares _ _)
  | throttleStep => exact spares_cmd throttleStep_only.spares
  | ldoSoftBrownout => exact spares_cmd ldoSoft_only.spares
  | avsWriteAck => exact spares_cmd avsAck_only.spares
  | avsWriteTimeout => exact spares_cmd avsTimeout_only.spares
  | insertDelayEnd => exact spares_cmd (insertDelayEnd_only _).spares
  | vinWindowCrossing => exact spares_cmd (vinCrossing_only _ _).spares
  | fastTrip => exact spares_cmd (fastTrip_only _ _).spares
  | faultTimerExpiry => exact spares_cmd (faultTimerExpiry_only _ _).spares
  | rampTimeout => exact spares_cmd (rampTimeout_only _ _).spares
  | gateFullyOn => exact spares_cmd (gateFullyOn_only _ _).spares
  | pgDeglitchEnd => exact spares_cmd (pgDeglitchEnd_only _).spares
  | pgConditionsLost => exact spares_cmd (pgConditionsLost_only _ _).spares
  | retryTimerExpiry => exact spares_cmd (retryExpiry_only _).spares
  | gateOffDelayEnd => exact spares_cmd (gateOffDelayEnd_only _).spares
  | firmwareCopyDone => exact spares_cmd (firmwareCopyDone_only _).spares
  | recoveryWrite => exact spares_cmd recoveryWrite_only.spares
  | recoveryBoot => exact spares_cmd recoveryBoot_only.spares
  | watchdogExpiry => exact spares_cmd (watchdogExpiry_only _).spares
  | getVersion => exact spares_cmd (getVersion_only _).spares
  | getState => exact spares_cmd (getState_only _).spares
  | setLinkPolicy | setPowerPolicy | setScrubSchedule | setFailoverPolicy => exact spares_cmd (setPolicy_only _ _ _).spares
  | tmProgram => exact spares_cmd (tmProgram_spares _ _ _)
  | flashUpdate => exact spares_cmd (flashUpdate_only _ _).spares
  | mbWarmReset => exact spares_cmd (mbWarmReset_spares _)
  | mailboxUnknownOpcode => exact spares_cmd (mbUnknown_only _).spares
  | mailboxTimeout => exact spares_cmd (mbTimeout_only _).spares
  | identifySwitchDevice => exact spares_cmd (identify_only _).spares
  | getPhysicalPortState => exact spares_cmd (portStates_only _ _).spares
  | assertPerst | deassertPerst => exact spares_cmd (slotPerst_spares _ _ _)
  | resetPpb => exact spares_cmd (resetPpb_spares _ _)
  | sendPpbCxlIoConfigRequest => exact spares_cmd (ppbConfig_only _ _ _).spares
  | getVirtualCxlSwitchInfo => exact spares_cmd (vcsInfo_only _ _).spares
  | bindVppb | unbindVppb | setLdAllocations | qosControl | fmUnsupportedCommand =>
    exact spares_cmd (fmRefused_only _).spares
  | tunnelManagementCommand | sendLdCxlIoConfigRequest | sendLdCxlIoMemoryRequest =>
    exact spares_cmd (ldCommand_only _ _ _ _ _ _ _).spares
  | getLdInfo | getLdAllocations => exact spares_cmd (ldQuery_only _ _ _).spares
  | getMultiHeadedInfo | getHeadInfo => exact spares_cmd (headCommand_only _ _ _).spares
  | initiateDynamicCapacityAdd | initiateDynamicCapacityRelease => exact spares_cmd (dynCapacity_only _ _ _ _ _).spares
  | getEventRecords => exact spares_cmd (getEvents_only _ _).spares
  | clearEventRecords => exact spares_cmd (clearEvents_only _ _ _).spares
  | setEventInterruptPolicy => exact spares_cmd (eventPolicy_only _ _).spares
  | ctlRead => exact spares_cmd (ctlReads_only _ _ _).spares
  | ctlWrite => exact spares_cmd (ctlWrite_spares _ _ _ _)
  | stageWrite => exact spares_cmd (stageBulk_spares _ _ _)
  | mctpControl => exact spares_cmd (mctpControl_only _ _).spares
  | spdmGetVersion => exact spares_cmd (onSpdm_spares (spdmVersion_only _).spares)
  | spdmGetCapabilities => exact spares_cmd (onSpdm_spares (spdmCaps_only _).spares)
  | spdmNegotiateAlgorithms => exact spares_cmd (onSpdm_spares (spdmAlgorithms_only _).spares)
  | spdmGetDigests => exact spares_cmd (onSpdm_spares (spdmDigests_only _).spares)
  | spdmGetCertificate => exact spares_cmd (onSpdm_spares (spdmCertificate_only _ _ _ _).spares)
  | spdmChallenge => exact spares_cmd (onSpdm_spares (spdmChallenge_only _ _).spares)
  | spdmGetMeasurements => exact spares_cmd (onSpdm_spares (spdmMeasurements_only _ _ _).spares)
  | spdmKeyExchange => exact spares_cmd (onSpdm_spares (spdmKeyExchange_only _ _).spares)
  | spdmFinish => exact spares_cmd (onSpdm_spares (spdmFinish_only _ _ _).spares)
  | spdmHeartbeat => exact spares_cmd (onSpdm_spares (spdmHeartbeat_only _ _).spares)
  | spdmKeyUpdate => exact spares_cmd (onSpdm_spares (spdmKeyUpdate_only _ _ _ _).spares)
  | spdmEndSession => exact spares_cmd (onSpdm_spares (spdmEndSession_only _ _).spares)
  | censusTick => exact spares_cmd censusTick_only.spares
  | counterPageRead => exact spares_cmd (counterPageRead_only _ _ _).spares
  | testComplete => exact spares_cmd (testComplete_only _ _).spares
  | testTimeout => exact spares_cmd testTimeout_only.spares
  | whorlCharacterAlignment => exact spares_cmd whlAlign_only.spares
  | laneSignalLost => exact spares_cmd (laneSignalLost_only _ _).spares
  | laneSignalDetected => exact spares_cmd (laneSignalDetected_only _).spares
  | linkCreditReturn => exact spares_cmd (creditReturn_only _ _ _).spares
  | ideKmMessage => exact spares_cmd (ideKm_only _ _).spares

/-- A command's step, and what settles in it, makes updates of a set alone that holds what every delivery and fence can change. -/
theorem cmd_via {M : Mask} {p : P Unit} {s t : State} (hp : Only M.has p) (hq : Feet.quiet.le M = true)
    (he : Feet.evFlush.le M = true) (hf : Feet.settle.le M = true) (h : cmd p s = .next t) : Via M.has s.m t.m := by
  rw [cmd_run] at h
  cases h
  obtain ⟨_, m1, h1, v1⟩ := hp (fun _ => toProg settle) ((Upd.out []).apply s.m)
  have sends : M.has (.out []) = true := by rw [Mask.has_tab rfl]; exact Mask.hasTab_mono hq (by decide +kernel)
  refine (Via.head sends v1).trans ?_
  rw [show Prog.run (p fun _ => toProg settle) _ = _ from h1]
  exact settle_via hq (.inr he) (.inr hf)

/-- A command whose program spares GLB_ID leaves it as it stood. -/
theorem cmd_keepsId {p : P Unit} {s t : State} (hp : SparesId p) (h : cmd p s = .next t) :
    t.m.rd ⟨.GLB_ID, 0⟩ = s.m.rd ⟨.GLB_ID, 0⟩ :=
  (cmd_via hp (by decide +kernel) (by decide +kernel) (by decide +kernel) h).rd_eq _ fun _ => by
    rw [Mask.has_reg, besideId_reg]; rfl

/-- A command that does not sample the strap leaves GLB_ID as it stood. -/
theorem exec_keepsId {c : Instr} {s t : State} (hc : samplesStrap c = false) (h : exec c s = .next t) :
    t.m.rd ⟨.GLB_ID, 0⟩ = s.m.rd ⟨.GLB_ID, 0⟩ :=
  let ⟨_, hx, hp⟩ := exec_spares hc
  cmd_keepsId hp (hx s ▸ h)

end Sys2Proof.Machine
end

section
/-!
SUPPORT. The registers that identify the part (R23): GLB_CAP0 and GLB_CAP1 are never stored, and what a cold reset and the sampling
of the TWIN_ID strap leave in GLB_ID.
-/
namespace Sys2Proof.Machine

-- One declaration at a time: proofs that compute in the kernel wait for it, each with a stack of its own.
set_option Elab.async false

variable {m m' : Mach}

/-- No canonical register file lists a fixed register. -/
theorem regGet_hardwired {t : RegFile} {b : Option Nat} {r : Reg} (h : regsWfFrom b t = true) (hr : hardwired r = true) :
    regGet t r = resetVal r := by
  induction t generalizing b with
  | nil => rfl
  | cons e s ih =>
    obtain ⟨a, w⟩ := e
    obtain ⟨-, entry, rest⟩ := regsWfFrom_cons.1 h
    have other : a ≠ r := fun ha => by simp [entryOk, ha, hr] at entry
    rw [regGet, if_neg other, ih rest]

/-! The fields that name the part. -/

/-- GLB_ID names the part, its stepping and its grade (Table 1.3), in a register file of canonical form. -/
structure NamesPart (m : Mach) : Prop where
  wf : regsWf m.regs = true
  part : m.g GLB_ID_PART = 0x9600
  stepping : m.g GLB_ID_STEPPING = 0xB0
  grade : m.g GLB_ID_GRADE = 0x58

/-- Another block with the same GLB_ID names the part too. -/
theorem NamesPart.of_rd (h : NamesPart m) (wf : regsWf m'.regs = true) (hr : m'.rd ⟨.GLB_ID, 0⟩ = m.rd ⟨.GLB_ID, 0⟩) :
    NamesPart m' where
  wf
  part := by rw [Mach.g, hr]; exact h.part
  stepping := by rw [Mach.g, hr]; exact h.stepping
  grade := by rw [Mach.g, hr]; exact h.grade

theorem NamesPart.via (h : NamesPart m) (v : Via Feet.besideId.has m m') : NamesPart m' :=
  h.of_rd (v.regs_wf h.wf) (v.rd_eq _ fun _ => by rw [Mask.has_reg, besideId_reg]; rfl)

/-- The strap lies beside the fields that name the part. -/
theorem NamesPart.strap (h : NamesPart m) (x : Nat) : NamesPart (m.set GLB_ID_TWIN_ID x) := by
  have beside (q : RF) (hk : q.k = .GLB_ID) (hi : q.i = 0) (hq : q.storable = true) (hd : q.lo + q.w ≤ 32) :
      (m.set GLB_ID_TWIN_ID x).g q = m.g q := g_set_beside (f := GLB_ID_TWIN_ID) h.wf hq hk hi (.inl hd)
  exact ⟨set_wf h.wf, (beside _ rfl rfl (by decide) (by decide)).trans h.part,
    (beside _ rfl rfl (by decide) (by decide)).trans h.stepping, (beside _ rfl rfl (by decide) (by decide)).trans h.grade⟩

/-- The reset value of GLB_ID names the part (Table 19.3). -/
theorem NamesPart.reset (h : NamesPart m) (r : Reg) : NamesPart ((Upd.reg r (resetVal r)).apply m) := by
  have wf : regsWf ((Upd.reg r (resetVal r)).apply m).regs = true := regStore_wf h.wf
  by_cases hr : r = ⟨.GLB_ID, 0⟩
  · subst hr
    have field {f : RF} (hk : (⟨f.k, f.i⟩ : Reg) = ⟨.GLB_ID, 0⟩) (hf : f.storable = true) :
        ((Upd.reg ⟨.GLB_ID, 0⟩ (resetVal ⟨.GLB_ID, 0⟩)).apply m).g f = bitsAt (resetNat ⟨.GLB_ID, 0⟩) f.lo f.w := by
      rw [← hk]
      exact g_store_same h.wf hf
    exact ⟨wf, field rfl (by decide), field rfl (by decide), field rfl (by decide)⟩
  · exact h.of_rd wf (regGet_regStore_other (Ne.symm hr))

/-! Programs that leave the part named. -/

/-- Run from a block that names the part, the program leads to one that does. -/
def KeepsPart {α : Type} (x : P α) : Prop := ∀ m, NamesPart m → Ends x m fun _ m' => NamesPart m'

section
variable {α β : Type}

theorem Only.keepsPart {x : P α} (h : SparesId x) : KeepsPart x := fun m hm => Ends.imp (h.runsIn m) fun _ _ v => hm.via v

theorem KeepsPart.bind {x : P α} {f : α → P β} (hx : KeepsPart x) (hf : ∀ a, KeepsPart (f a)) : KeepsPart (x >>= f) :=
  fun m hm => Ends.bind (hx m hm) fun a m1 h1 => hf a m1 h1

theorem KeepsPart.ite {c : Prop} [Decidable c] {x y : P α} (hx : KeepsPart x) (hy : KeepsPart y) :
    KeepsPart (if c then x else y) := by split <;> assumption

theorem KeepsPart.pure (a : α) : KeepsPart (pure a : P α) := (Only.pure a).keepsPart

theorem KeepsPart.getM : KeepsPart getM := Only.getM.keepsPart

theorem KeepsPart.each {l : List β} {f : β → P Unit} (h : ∀ b, KeepsPart (f b)) : KeepsPart (each l f) := by
  induction l with
  | nil => exact .pure ()
  | cons b t ih => exact (h b).bind fun _ => ih

end

theorem rstReg_keepsPart (r : Reg) : KeepsPart (rstReg r.k r.i) := fun _ hm _ => ⟨(), _, rfl, hm.reset r⟩

theorem regsReset_keepsPart (keep : List RegKind) : KeepsPart (regsReset keep) :=
  .bind .getM fun _ => .each fun e => .ite (.pure _) (rstReg_keepsPart e.1)

theorem keptClear_spares : SparesId keptClear := by
  iterate 20 refine Only.bind spares_doT fun _ => ?_
  exact spares_doT

/-- A cold reset puts GLB_ID back to its reset value (R412). -/
theorem coldReset_keepsPart (cause : Nat) : KeepsPart (coldReset cause) := by
  refine .bind .getM fun _ => .bind (regsReset_keepsPart _) fun _ => Only.keepsPart ?_
  exact Only.bind spares_wr fun _ => Only.bind spares_wr fun _ => Only.bind contentsClear_spares fun _ => Only.bind spares_doT
    fun _ => Only.bind keptClear_spares fun _ => Only.bind spares_mod fun _ => Only.bind (tbClock_only _).spares fun _ =>
    spares_wrReg

/-- The strap is sampled into GLB_ID beside the part's name (R414). -/
theorem fuseLoad_keepsPart : KeepsPart fuseLoad :=
  .bind .getM fun _ => .bind (fun _ hm _ => ⟨(), _, rfl, hm.strap _⟩) fun _ => Only.keepsPart
    (Only.bind spares_wr fun _ => Only.bind spares_wr fun _ => Only.bind spares_wr fun _ => spares_wr)

theorem coldRow_keepsPart (c : ColdCause) (pin command : Bool) : KeepsPart (coldRow c pin command) :=
  .bind .getM fun _ => .bind (coldReset_keepsPart _) fun _ => .bind (Only.keepsPart spares_mod) fun _ =>
    .ite (.pure _) (.bind fuseLoad_keepsPart fun _ => startUp_only.spares.keepsPart)

theorem porstRelease_keepsPart (twinId refclk : Bool) : KeepsPart (porstRelease twinId refclk) :=
  .bind .getM fun _ => .ite (.bind (Only.keepsPart spares_mod) fun _ => .bind (Only.keepsPart spares_wr) fun _ =>
    .bind (Only.keepsPart spares_wr) fun _ => .bind (tbClock_only _).spares.keepsPart fun _ => .bind fuseLoad_keepsPart fun _ =>
    startUp_only.spares.keepsPart) (.pure _)

/-! Every step. -/

/-- A command whose program leaves the part named leaves it named once it has settled. -/
theorem cmd_keepsPart {p : P Unit} (hp : KeepsPart p) {s t : State} (hs : NamesPart s.m) (h : cmd p s = .next t) :
    NamesPart t.m := by
  rw [cmd_run] at h
  cases h
  obtain ⟨_, m1, h1, named⟩ := hp ((Upd.out []).apply s.m) (hs.of_rd hs.wf rfl) fun _ => toProg settle
  rw [show Prog.run (p fun _ => toProg settle) _ = _ from h1]
  exact named.via (settle_via (by decide +kernel) (.inr (by decide +kernel)) (.inr (by decide +kernel)))

/-- Every command leaves the part named: those that sample the strap by their resets' values, the others by leaving GLB_ID. -/
theorem exec_keepsPart (c : Instr) : ∃ p : P Unit, (∀ s, exec c s = cmd p s) ∧ KeepsPart p := by
  by_cases hc : samplesStrap c = false
  · obtain ⟨p, hx, hp⟩ := exec_spares hc
    exact ⟨p, hx, hp.keepsPart⟩
  · cases c with
    | coldReset c pin command => exact ⟨_, fun _ => rfl, coldRow_keepsPart c pin command⟩
    | hardBrownout => exact ⟨_, fun _ => rfl, coldRow_keepsPart .brownout false false⟩
    | porstRelease twinId refclk => exact ⟨_, fun _ => rfl, porstRelease_keepsPart twinId refclk⟩
    | _ => exact absurd rfl hc

theorem step_keepsPart {s t : State} (hs : NamesPart s.m) (h : step s = .next t) : NamesPart t.m := by
  unfold step at h
  split at h
  · exact cmd_keepsPart idle_spares.keepsPart hs h
  next c r _ =>
    obtain ⟨p, hx, hp⟩ := exec_keepsPart c
    exact cmd_keepsPart hp (s := { s with pending := r }) hs (hx _ ▸ h)

/-- Settles O54: no store reaches the fixed registers, resets and the strap leave GLB_ID's other fields at their reset values,
and every command but those that sample the strap stores in other registers alone. -/
theorem partIdentity : Obligations.PartIdentity := by
  refine ⟨fun s hi => ?_, fun s t hi hp hg hr h => ?_, fun s t c _ hc h => exec_keepsId hc h⟩
  · have fixed {r : Reg} (hr : hardwired r = true) : s.m.rd r = resetVal r := regGet_hardwired hi.canon.regs hr
    exact ⟨(fixed rfl).trans (by decide +kernel), (fixed rfl).trans (by decide +kernel)⟩
  · obtain ⟨-, part, stepping, grade⟩ := step_keepsPart ⟨hi.canon.regs, hp, hg, hr⟩ h
    exact ⟨part, stepping, grade⟩

end Sys2Proof.Machine
end

section
/-!
SUPPORT. What a command holds at the end of its step, and what an accepted write of one register leads to, with all that it leaves
as it was (R369, R424).
-/
namespace Sys2Proof.Machine

-- One declaration at a time: proofs that compute in the kernel wait for it, each with a stack of its own.
set_option Elab.async false

/-! What stands while the step ends. -/

/-- What holds where a command's program ends, and stands while its records are delivered, holds at the end of the step. -/
theorem does_settled {c : Instr} {x : P Unit} {s : State} {Q R : Mach → Prop}
    (hp : Ends x ((Upd.out []).apply s.m) fun _ => Q) (hQ : ∀ m1 m2, Q m1 → Via Feet.settle.has m1 m2 → R m2)
    (hx : exec c s = Machine.cmd x s := by rfl) : Does c s R := by
  obtain ⟨_, m1, h1, q⟩ := hp fun _ => toProg settle
  refine ⟨_, hx.trans (cmd_run x s), rfl, ?_⟩
  change R (Prog.run (x fun _ => toProg settle) ((Upd.out []).apply s.m))
  rw [h1]
  exact hQ _ _ q (settle_via (by decide +kernel) (.inr (by decide +kernel)) (.inr (by decide +kernel)))

section
variable {m m1 m2 : Mach} {A : Mask} {l : List Reg}

/-- A register that a set does not name stands. -/
theorem Via.rd_kept (v : Via A.has m1 m2) (r : Reg) (h : A.hasReg r.k = false := by decide +kernel) : m2.rd r = m1.rd r :=
  v.rd_eq r fun _ => by rw [Mask.has_reg, h]

theorem Via.g_kept (v : Via A.has m1 m2) (f : RF) (h : A.hasReg f.k = false := by decide +kernel) : m2.g f = m1.g f :=
  v.g_eq f fun _ => by rw [Mask.has_reg, h]

/-- A thing beside the registers that a set does not name stands. -/
theorem Via.tab_kept (v : Via A.has m1 m2) (T : Tab) (h : A.hasTab T = false := by decide +kernel) : T.same m1 m2 :=
  Via.tab_same (l := []) (v.mono fun u hu => by simp [At.has, hu]) h

theorem Via.ldr_kept (v : Via A.has m1 m2) (h : A.hasTab .ldr = false := by decide +kernel) : m2.ldr = m1.ldr :=
  v.tab_kept .ldr h

theorem Via.stage_kept (v : Via A.has m1 m2) (n : Nat) (h : A.hasTab .stage = false := by decide +kernel) :
    m2.getStage n = m1.getStage n := congrArg (tget 0#64 · n) (show m2.stage = m1.stage from v.tab_kept .stage h)

theorem Via.faulty_kept (v : Via (At.has A l) m1 m2) (h : A.hasTab .faulty = false := by decide +kernel) :
    m2.faulty = m1.faulty := v.tab_same (T := .faulty) h

end

/-! Programs and what they lead to. -/

section
variable {α β : Type} {m : Mach} {x : P α}

theorem Ends.pure {a : α} {Q : α → Mach → Prop} (h : Q a m) : Ends (pure a) m Q := fun _ => ⟨a, m, rfl, h⟩

theorem Ends.same {y : P α} {Q : α → Mach → Prop} (h : SameAt m x y) (hy : Ends y m Q) : Ends x m Q := fun k =>
  let ⟨a, m', h1, q⟩ := hy k
  ⟨a, m', (h k).trans h1, q⟩

theorem Ends.ite {c : Prop} [Decidable c] {y : P α} {Q : α → Mach → Prop} (hx : c → Ends x m Q) (hy : ¬c → Ends y m Q) :
    Ends (if c then x else y) m Q := by
  split
  · next h => exact hx h
  · next h => exact hy h

theorem Ends.onlyIf {c : Prop} [Decidable c] {x : P Unit} {Q : Unit → Mach → Prop} (hx : c → Ends x m Q)
    (hy : ¬c → Q () m) : Ends (onlyIf c x) m Q := Ends.ite hx fun h => Ends.pure (hy h)

/-- A program of a set leads within it. -/
theorem Only.ends {S : Upd → Bool} (h : Only S x) (m : Mach) : Ends x m fun _ => Via S m := h.runsIn m

/-- What follows within a set keeps what the first part leads to. -/
theorem Ends.seq {S : Upd → Bool} {f : α → P β} {Q : α → Mach → Prop} {R : Mach → Prop} (hx : Ends x m Q)
    (hf : ∀ a, Only S (f a)) (hR : ∀ a m1 m2, Q a m1 → Via S m1 m2 → R m2) : Ends (x >>= f) m fun _ => R :=
  hx.bind fun a m1 q => ((hf a).ends m1).imp fun _ m2 v => hR a m1 m2 q v

theorem Ends.upd {u : Upd} {Q : Unit → Mach → Prop} (h : Q () (u.apply m)) : Ends (doU u) m Q := fun _ =>
  ⟨(), u.apply m, rfl, h⟩

theorem Ends.wr {f : RF} {v : Nat} {Q : Unit → Mach → Prop} (h : Q () (m.set f v)) : Ends (Machine.wr f v) m Q := fun _ =>
  ⟨(), m.set f v, rfl, h⟩

theorem Ends.modLdr {f : Loader → Loader} {Q : Unit → Mach → Prop} (h : Q () ((Upd.ldr (f m.ldr)).apply m)) :
    Ends (Machine.modLdr f) m Q := fun _ => ⟨(), _, rfl, h⟩

end

/-! Stores of fields, one after another. -/

section
variable {m : Mach} {f q : RF} {x : Nat} {l : List (RF × Nat)}

/-- Fields that share no bit: of two registers, or apart in one. -/
def RF.apart (f q : RF) : Bool :=
  decide ((⟨q.k, q.i⟩ : Reg) ≠ ⟨f.k, f.i⟩) ||
    (q.storable && decide (q.k = f.k) && decide (q.i = f.i) && (decide (q.lo + q.w ≤ f.lo) || decide (f.lo + f.w ≤ q.lo)))

theorem g_set_apart (h : regsWf m.regs = true) (ha : f.apart q = true) : (m.set f x).g q = m.g q := by
  simp only [RF.apart, Bool.or_eq_true, Bool.and_eq_true, decide_eq_true_eq] at ha
  rcases ha with ha | ⟨⟨⟨hs, hk⟩, hi⟩, hd⟩
  · exact g_set_other ha
  · exact g_set_beside h hs hk hi hd

/-- The block after some fields are stored in turn. -/
def Mach.sets (m : Mach) (l : List (RF × Nat)) : Mach := l.foldl (fun m e => m.set e.1 e.2) m

theorem sets_cons {e : RF × Nat} : m.sets (e :: l) = (m.set e.1 e.2).sets l := rfl

theorem sets_wf (h : regsWf m.regs = true) : regsWf (m.sets l).regs = true := by
  induction l generalizing m with
  | nil => exact h
  | cons e t ih => exact ih (set_wf h)

/-- Stores apart from a field leave it; `fs` are the fields stored. -/
theorem sets_apart {fs : List RF} (h : regsWf m.regs = true) (hn : l.map Prod.fst = fs) (ha : fs.all (·.apart q) = true) :
    (m.sets l).g q = m.g q := by
  subst hn
  induction l generalizing m with
  | nil => rfl
  | cons e t ih =>
    simp only [List.map_cons, List.all_cons, Bool.and_eq_true] at ha
    exact (ih (set_wf h) ha.2).trans (g_set_apart h ha.1)

/-- A field holds what was stored in it last. -/
theorem sets_same {fs : List RF} (h : regsWf m.regs = true) (hf : f.storable = true) (hn : l.map Prod.fst = fs)
    (ha : fs.all (·.apart f) = true) : (m.sets ((f, x) :: l)).g f = x % 2 ^ f.w :=
  (sets_apart (l := l) (set_wf h) hn ha).trans (g_set_same h hf)

/-- Stores in registers of a set make updates of it alone. -/
theorem sets_via {A : Mask} {fs : List RF} (hn : l.map Prod.fst = fs) (h : (fs.all fun f => A.hasReg f.k) = true) :
    Via A.has m (m.sets l) := by
  subst hn
  induction l generalizing m with
  | nil => exact .refl m
  | cons e t ih =>
    simp only [List.map_cons, List.all_cons, Bool.and_eq_true] at h
    exact .head (by rw [Mask.has_reg]; exact h.1) (ih h.2)

end

/-! An accepted write. -/

variable {m m1 m2 : Mach} {p : Path} {r : Reg} {data mask : Nat} {w : CtlWrite}

/-- A write that its test accepts, of a register for which no FAULTY object waits (R358, R424). -/
structure Admitted (m : Mach) (p : Path) (r : Reg) (data mask : Nat) : Prop where
  index : r.i < r.k.count
  test : writeTest m r data mask p = rcOK
  whole : ∀ f ∈ m.faulty, r ∉ f.left

theorem Lands.admitted (h : Lands m p r data mask) : Admitted m p r data mask := ⟨regAt_index h.mapped.2, h.test, h.whole⟩

theorem Admitted.writable (h : Admitted m p r data mask) :
    hardwired r = false ∧ r.k ≠ .GLB_STRUCT_STATUS ∧ r.k ≠ .DBG_TRACE_STATUS := by
  obtain ⟨h0, h1, h2, h3⟩ := writable_ne (writeTest_writable h.test)
  exact ⟨by simp [hardwired, h0, h1], h2, h3⟩

/-- What a write changes before its register's effect, beside the register: the trace and MODIFIED. -/
def Feet.stored : Mask := Feet.trace.plus [.of [.GLB_STRUCT_STATUS] []]

/-- The block as the effect of an accepted write finds it: what it changed of the block before the write, and where structure
stands. -/
structure Landed (m : Mach) (r : Reg) (data mask : Nat) (m2 : Mach) : Prop extends Written m r data mask m2 where
  via : Via (At.has Feet.stored [r]) m m2
  state : m2.g GLB_STRUCT_STATUS_STATE = m.g GLB_STRUCT_STATUS_STATE

theorem traced_has (u : Upd) (h : Feet.trace.has u = true) : At.has Feet.stored [r] u = true := by
  simp [At.has, Mask.has_mono (show Feet.trace.le Feet.stored = true by decide +kernel) u h]

/-- The store of an admitted write. -/
theorem Admitted.store (hc : regsWf m.regs = true) (h : Admitted m p r data mask) (v : Via Feet.trace.has m m1) :
    Landed m r data mask ((Upd.reg r (BitVec.ofNat 64 (written m r data mask))).apply m1) where
  wf := regStore_wf (v.regs_wf hc)
  stored := rd_store (v.regs_wf hc) h.index h.writable.1 (stored_implMask (rd_implMask hc r) _ _)
  others q hq hd _ := by rw [rd_store_other hq, v.rd_eq q fun _ => by rw [Mask.has_reg]; exact hasReg_trace hd]
  via := (v.mono traced_has).trans (.head (by simp [At.has]) (.refl _))
  state := by
    have ne : (⟨.GLB_STRUCT_STATUS, 0⟩ : Reg) ≠ r := fun e => h.writable.2.1 (e ▸ rfl)
    rw [Mach.g, rd_store_other ne, v.rd_kept ⟨.GLB_STRUCT_STATUS, 0⟩]
    rfl

theorem Landed.modified (h : Landed m r data mask m1) (hr : r.k ≠ .GLB_STRUCT_STATUS) :
    Landed m r data mask (m1.set GLB_STRUCT_STATUS_MODIFIED 1) where
  toWritten := h.toWritten.modified hr
  via := h.via.trans (.head (by simp only [At.has, Mask.has_reg, Bool.or_eq_true]; exact .inl (by decide +kernel)) (.refl _))
  state := (g_set_apart h.wf (by decide +kernel)).trans h.state

/-- What an admitted write applies to its register. -/
theorem regApply_lands {Q : Mach → Prop} (hc : regsWf m.regs = true) (h : Admitted m p r data mask)
    (v : Via Feet.trace.has m m1)
    (hE : ∀ m2, Landed m r data mask m2 → Ends (regEffect r (m.rd r).toNat (data &&& mask) (mask &&& namedBits r.k) p) m2
      fun _ m3 => m3.faulty = m2.faulty ∧ Q m3) :
    Ends (regApply r (data &&& mask &&& namedBits r.k) (mask &&& namedBits r.k) p) m1 fun _ => Q := by
  have old : m1.rd r = m.rd r := v.rd_eq r fun _ => by rw [Mask.has_reg]; exact hasReg_trace h.writable.2.2
  -- the effect, from the block that holds what was written
  have effect {m2 : Mach} (hw : Landed m r data mask m2) :
      Ends (do regEffect r (m.rd r).toNat (data &&& mask) (mask &&& namedBits r.k) p; ctxWritten r) m2 fun _ => Q :=
    (hE m2 hw).bind fun _ m3 ⟨hf, q⟩ => Ends.same
      (ctxWritten_whole fun f hm => h.whole f (by rwa [hf, hw.via.faulty_kept] at hm)) (Ends.pure q)
  intro k
  simp only [regApply, wrReg, bind_at, getM_at, run_look, doU_at, run_upd, old, stored_named, asked_named,
    cut_named (writeTest_named h.test), onlyIf_at]
  have hw := h.store hc v
  split
  · exact effect (hw.modified h.writable.2.1) k
  · exact effect hw k

/-- An admitted write: its trace, its store, and its register's effect. -/
theorem writeOne_lands {Q : Mach → Prop} (hc : regsWf m.regs = true) (ht : r.k ≠ .TWN_CTL)
    (h : Admitted m w.path r w.data.toNat w.mask.toNat)
    (hE : ∀ m2, Landed m r w.data.toNat w.mask.toNat m2 → Ends (regEffect r (m.rd r).toNat (w.data.toNat &&& w.mask.toNat)
      (w.mask.toNat &&& namedBits r.k) w.path) m2 fun _ m3 => m3.faulty = m2.faulty ∧ Q m3) :
    Ends (writeOne w r) m fun _ => Q :=
  Ends.getM (((trace_only _ _ _ _ _ _).ends m).bind fun _ _ v => (regApply_lands hc h v hE).bind fun _ m3 q k =>
    ⟨(), m3, by simp [ht], q⟩)

/-- The command's write, where it lands. -/
theorem regWrite_lands {Q : Mach → Prop} {data mask : Word} (hc : regsWf m.regs = true) (ht : r.k ≠ .TWN_CTL)
    (h : Lands m p r data.toNat mask.toNat)
    (hE : ∀ m2, Landed m r data.toNat mask.toNat m2 → Ends (regEffect r (m.rd r).toNat (data.toNat &&& mask.toNat)
      (mask.toNat &&& namedBits r.k) p) m2 fun _ m3 => m3.faulty = m2.faulty ∧ Q m3) :
    Ends (regWrite [⟨p, r.addr, 8, data, mask⟩]) m fun _ => Q :=
  regWrite_admitted (admit_lands h) (writeOne_lands hc ht h.admitted hE)

/-- What a command holds at its end that is one write, where it lands. -/
theorem does_write {c : Instr} {s : State} {Q R : Mach → Prop} {data mask : Word} (hi : s.Inv) (ht : r.k ≠ .TWN_CTL)
    (hl : Lands s.m p r data.toNat mask.toNat)
    (hE : ∀ m m2, m = (Upd.out []).apply s.m → Landed m r data.toNat mask.toNat m2 →
      Ends (regEffect r (m.rd r).toNat (data.toNat &&& mask.toNat) (mask.toNat &&& namedBits r.k) p) m2
        fun _ m3 => m3.faulty = m2.faulty ∧ Q m3)
    (hQ : ∀ m1 m2, Q m1 → Via Feet.settle.has m1 m2 → R m2)
    (hx : exec c s = Machine.cmd (regWrite [⟨p, r.addr, 8, data, mask⟩]) s := by rfl) : Does c s R :=
  does_settled (regWrite_lands hi.canon.regs ht (hl.sent []) fun m2 => hE _ m2 rfl) hQ hx

/-- What a command holds at its end that writes one field, where the write lands. -/
theorem does_fieldWrite {c : Instr} {s : State} {f : RF} {v : Nat} {Q R : Mach → Prop} (hi : s.Inv) (hl : LandsIn s.m p f v)
    (hE : ∀ m m2, m = (Upd.out []).apply s.m → Landed m ⟨f.k, f.i⟩ (v % 2 ^ f.w * 2 ^ f.lo) f.bits m2 →
      Ends (regEffect ⟨f.k, f.i⟩ (m.rd ⟨f.k, f.i⟩).toNat (v % 2 ^ f.w * 2 ^ f.lo &&& f.bits) (f.bits &&& namedBits f.k) p) m2
        fun _ m3 => m3.faulty = m2.faulty ∧ Q m3)
    (hQ : ∀ m1 m2, Q m1 → Via Feet.settle.has m1 m2 → R m2) (hf : f.lo + f.w ≤ 64 := by decide)
    (ht : f.k ≠ .TWN_CTL := by decide) (hx : exec c s = Machine.cmd (fieldWrite p f v) s := by rfl) : Does c s R := by
  have hd : (w64 (v % 2 ^ f.w * 2 ^ f.lo)).toNat = v % 2 ^ f.w * 2 ^ f.lo := w64_toNat (aimField_lt (p := p) hf).1
  have hm : (w64 f.bits).toNat = f.bits := w64_toNat (field_bits_lt hf)
  refine does_write (r := ⟨f.k, f.i⟩) (data := w64 (v % 2 ^ f.w * 2 ^ f.lo)) (mask := w64 f.bits) hi ht ?_ ?_ hQ hx <;>
    rw [hd, hm]
  · exact hl
  · exact hE

end Sys2Proof.Machine
end

section
/-!
Every command answers a next state (R41, R459; O52).
-/
namespace Sys2Proof.Machine

/-- Settles O52: every command runs a program and settles, and the commands that wait are left as they were. -/
theorem everyCommandRuns : Obligations.EveryCommandRuns := by
  intro c s
  obtain ⟨p, hx, -⟩ := exec_runs c
  rw [hx s]
  exact cmd_next p s

end Sys2Proof.Machine
end

section
/-!
SUPPORT. The aperture of the tenant pages (R300): where its words lie, which registers they stand for, and what becomes of a write.
-/
namespace Sys2Proof.Machine

-- One declaration at a time: proofs that compute in the kernel wait for it, each with a stack of its own.
set_option Elab.async false

/-! The address of a word of the aperture (R456). -/

section
variable {s w : Nat}

theorem aperture_addr (hw : w < 8) : (⟨.TEN_OBJ_DATA, s * 8 + w⟩ : Reg).addr = 0x2100200 + (s * 4096 + w * 8) := by
  change 0x2100200 + ((s * 8 + w) / (1 * 8) * 4096 + ((s * 8 + w) % (1 * 8) / 1 * 8 + 0)) = _
  omega

/-- A register that has one word in each page has none past it. -/
theorem levelIdx_past {d : Nat} (h : 0 < d) (hd : d < 4096) : levelIdx [(256, 4096)] (s * 4096 + d) = none := by
  have past : (s * 4096 + d) % 4096 = d := by omega
  simp only [levelIdx, past, if_neg (show ¬ d = 0 by omega), Option.map_none, ite_self]

theorem levelIdx_word (hs : s < 256) (hw : w < 8) : levelIdx [(256, 4096), (8, 8)] (s * 4096 + w * 8) = some (s * 8 + w) := by
  have page : (s * 4096 + w * 8) / 4096 = s ∧ (s * 4096 + w * 8) % 4096 = w * 8 := by omega
  simp [levelIdx, page, hs, hw]

/-- The registers of a page that lie before its aperture. -/
def beforeAperture : List RegKind :=
  [.TEN_STATUS, .TEN_CTL, .TEN_VIOL, .TEN_VIOL_ADDR, .TEN_VIOL_TIME, .TEN_VIOL_COUNT, .TEN_OBJ_SEL, .TEN_OBJ_STATUS]

theorem beforeAperture_desc {k : RegKind} (h : k ∈ beforeAperture) :
    k.desc.levels = [(256, 4096)] ∧ 0x2100000 ≤ k.desc.addr ∧ k.desc.addr < 0x2100200 :=
  of_decide_eq_true (List.all_eq_true.1 (show beforeAperture.all (fun k => decide (k.desc.levels = [(256, 4096)] ∧
    0x2100000 ≤ k.desc.addr ∧ k.desc.addr < 0x2100200)) = true by decide +kernel) k h)

/-- The address of a word of the aperture names it. -/
theorem aperture_mapped (hs : s < 256) (hw : w < 8) : (⟨.TEN_OBJ_DATA, s * 8 + w⟩ : Reg).addr % 8 = 0 ∧
    regAt (⟨.TEN_OBJ_DATA, s * 8 + w⟩ : Reg).addr = some ⟨.TEN_OBJ_DATA, s * 8 + w⟩ := by
  rw [aperture_addr hw]
  refine ⟨by omega, ?_⟩
  have blk : blkOf (0x2100200 + (s * 4096 + w * 8)) = .TEN := by
    simp [blkOf, blkBases, show 0x2100000 ≤ 0x2100200 + (s * 4096 + w * 8) by omega]
  have before : beforeAperture.findSome? (fun k => if 0x2100200 + (s * 4096 + w * 8) < k.desc.addr then none else
      (levelIdx k.desc.levels (0x2100200 + (s * 4096 + w * 8) - k.desc.addr)).map fun i => (⟨k, i⟩ : Reg)) = none :=
    List.findSome?_eq_none_iff.2 fun k hk => by
      obtain ⟨levels, low, high⟩ := beforeAperture_desc hk
      rw [levels, show 0x2100200 + (s * 4096 + w * 8) - k.desc.addr = s * 4096 + (0x2100200 - k.desc.addr + w * 8) by omega,
        levelIdx_past (by omega) (by omega), Option.map_none, ite_self]
  rw [regAt, blk, show Blk.TEN.kinds = beforeAperture ++ [.TEN_OBJ_DATA] from rfl, List.findSome?_append, before]
  have word := levelIdx_word hs hw
  have base : RegKind.TEN_OBJ_DATA.desc.addr = 0x2100200 ∧ RegKind.TEN_OBJ_DATA.desc.levels = [(256, 4096), (8, 8)] := by
    decide +kernel
  simp only [List.findSome?_cons, base, Nat.add_sub_cancel_left, word, Option.map_some,
    if_neg (show ¬ 0x2100200 + (s * 4096 + w * 8) < 0x2100200 by omega), Option.none_or]

end

/-! The registers that the aperture stands for (Table 11.6). -/

/-- The registers of the objects that a tenant selects. -/
def apertureKinds : List RegKind :=
  [.RNG_CFG, .RNG_IOVA, .RNG_CTL, .RNG_IRQ, .RNG_IDX, .RNG_STATUS, .RNG_PROG, .RNG_CNT, .LM_TBL_CFG, .LM_TBL_BASE, .LM_TBL_SIZE,
   .LM_TBL_PARAM, .TM_QCFG, .TM_QPOL, .TM_QOCC, .TM_QSTAT, .FLW_W0, .FLW_W1]

variable {m : Mach} {s w : Nat}

/-- The word of an object's registers, where they have one there. -/
theorem apertureReg_named {l : List RegKind} {i n : Nat} {r : Reg} (hl : ∀ k ∈ l, k ∈ apertureKinds ∧ k.count = n)
    (hi : i < n) (h : (l[w]?.map fun k => (⟨k, i⟩ : Reg)) = some r) : r.k ∈ apertureKinds ∧ r.i < r.k.count := by
  obtain ⟨k, hk, rfl⟩ := Option.map_eq_some_iff.1 h
  obtain ⟨mem, count⟩ := hl k (List.mem_of_getElem? hk)
  exact ⟨mem, count ▸ hi⟩

/-- The aperture stands for registers of the objects alone, each within its array. -/
theorem apertureReg_own {own : Bool} {r : Reg} (h : apertureReg m s w = some (own, some r)) :
    r.k ∈ apertureKinds ∧ r.i < r.k.count := by
  have index : m.g (TEN_OBJ_SEL_INDEX s) < 2 ^ 20 := Nat.mod_lt _ (Nat.two_pow_pos 20)
  simp only [apertureReg] at h
  split at h <;> split at h
  case h_1.isTrue hv =>
    exact apertureReg_named (n := 32768) (by decide +kernel) hv.1 (Prod.mk.inj (Option.some.inj h)).2
  case h_2.isTrue hv =>
    exact apertureReg_named (n := 1024) (by decide +kernel) hv.1 (Prod.mk.inj (Option.some.inj h)).2
  case h_3.isTrue hv =>
    exact apertureReg_named (n := 32768) (by decide +kernel) hv.1 (Prod.mk.inj (Option.some.inj h)).2
  case h_4.isTrue => exact apertureReg_named (n := 2 ^ 20) (by decide +kernel) index (Prod.mk.inj (Option.some.inj h)).2
  all_goals cases h

/-! Writes through the aperture. -/

/-- A field that can be stored in the first register of an array can be stored in every one. -/
theorem storable_at {k : RegKind} {i lo n : Nat} (hi : i < k.count) (h : (⟨k, 0, lo, n⟩ : RF).storable = true) :
    (⟨k, i, lo, n⟩ : RF).storable = true := by
  simp only [RF.storable, Bool.and_eq_true, decide_eq_true_eq] at h ⊢
  exact ⟨⟨⟨hi, h.1.1.2⟩, h.1.2⟩, h.2⟩

variable {p : Path} {data mask : Word}

/-- A write of a word of the aperture. -/
abbrev apertureCtl (p : Path) (s w : Nat) (data mask : Word) : CtlWrite :=
  ⟨p, (⟨.TEN_OBJ_DATA, s * 8 + w⟩ : Reg).addr, 8, data, mask⟩

/-- A write that reaches a word of the aperture is decided by the object that is selected there. -/
theorem admit_aperture (hs : s < 256) (hw : w < 8)
    (h : reaches m p (⟨.TEN_OBJ_DATA, s * 8 + w⟩ : Reg).addr true (data.toNat &&& mask.toNat) = true) :
    SameAt m (admitWrite (apertureCtl p s w data mask))
      (apertureWrite (apertureCtl p s w data mask) ⟨.TEN_OBJ_DATA, s * 8 + w⟩) := fun k => by
  obtain ⟨h8, hat⟩ := aperture_mapped hs hw
  have own : ∀ v t, p = .tenantPage v t → reaches m p (⟨.TEN_OBJ_DATA, s * 8 + w⟩ : Reg).addr true 0 = true := fun v t hp => by
    subst hp
    exact h
  cases p with
  | tenantPage v t =>
    simp only [admitWrite, bind_at, getM_at, run_look, own v t rfl, h, regAt_aligned h8 hat, h8, if_true, Bool.true_eq_false,
      if_false, ne_eq, not_true_eq_false, or_self]
  | _ =>
    simp only [admitWrite, bind_at, getM_at, run_look, h, regAt_aligned h8 hat, h8, if_true, Bool.true_eq_false, if_false, ne_eq,
      not_true_eq_false, or_self]

/-- A write that does not reach the aperture is recorded, and not admitted. -/
theorem admit_apart (h : reaches m p (⟨.TEN_OBJ_DATA, s * 8 + w⟩ : Reg).addr true (data.toNat &&& mask.toNat) = false) :
    ∃ x, SameAt m (admitWrite (apertureCtl p s w data mask)) (do x; return []) ∧ Only Feet.refusedWrite.has x := by
  by_cases hp : isPage p = true
  · cases p with
    | tenantPage v t =>
      have foreign : reaches m (.tenantPage v t) (⟨.TEN_OBJ_DATA, s * 8 + w⟩ : Reg).addr true 0 = false := h
      refine ⟨_, fun k => ?_, (dbForeign_only t 0xFFFF).le (by decide +kernel)⟩
      simp only [admitWrite, bind_at, getM_at, run_look, foreign, Bool.false_eq_true, if_false]
    | _ => cases hp
  · refine ⟨accessRefused (apertureCtl p s w data mask) 0, fun k => ?_, accessRefused_only _ _⟩
    cases p with
    | tenantPage v t => exact absurd rfl hp
    | _ => simp only [admitWrite, bind_at, getM_at, run_look, h, if_true]

/-- REFUSED of the slice is set, and what records the refusal follows (R300). -/
def apertureRefuse (s : Nat) (x : P Unit) : P Unit := do
  wr (TEN_OBJ_STATUS_REFUSED s) 1
  x

/-- The aperture answers a write with a refusal. -/
def ApertureRefuses (m : Mach) (p : Path) (s w : Nat) (data mask : Word) : Prop :=
  ∃ x, SameAt m (apertureWrite (apertureCtl p s w data mask) ⟨.TEN_OBJ_DATA, s * 8 + w⟩) (do apertureRefuse s x; return []) ∧
    Only Feet.refusedWrite.has x

theorem apertureIndex (hw : w < 8) : (s * 8 + w) / 8 = s ∧ (s * 8 + w) % 8 = w := by omega

/-- Where the word stands for a register, a write is that register's, or refused. -/
theorem apertureWrite_reg {own : Bool} {r : Reg} (hw : w < 8) (h : apertureReg m s w = some (own, some r)) :
    writeTest m r data.toNat mask.toNat p = rcOK ∧
        SameAt m (apertureWrite (apertureCtl p s w data mask) ⟨.TEN_OBJ_DATA, s * 8 + w⟩) (pure [⟨apertureCtl p s w data mask, r⟩]) ∨
      ApertureRefuses m p s w data mask := by
  obtain ⟨hs, hn⟩ := apertureIndex (s := s) hw
  have refusal {r : Reg} {reason : Nat} : Only Feet.refusedWrite.has (refuse r (apertureCtl p s w data mask) reason) :=
    (refuse_only _ _ _).le (by decide +kernel)
  by_cases hb : isPage p = true ∧ asked r.k (m.rd r).toNat data.toNat mask.toNat -
      (asked r.k (m.rd r).toNat data.toNat mask.toNat &&& tenantBits r) ≠ (m.rd r).toNat - ((m.rd r).toNat &&& tenantBits r)
  · refine .inr ⟨_, fun k => ?_, refusal (r := ⟨.TEN_OBJ_DATA, s * 8 + w⟩) (reason := rcKRB_LIMIT)⟩
    simp only [apertureWrite, bind_at, getM_at, run_look, hs, hn, h, hb, if_true, and_self, ne_eq, not_false_eq_true,
      apertureRefuse]
  · by_cases ht : writeTest m r data.toNat mask.toNat p = rcOK
    · refine .inl ⟨ht, fun k => ?_⟩
      simp only [apertureWrite, bind_at, getM_at, run_look, hs, hn, h, hb, ht, if_true, if_false]
    · refine .inr ⟨_, fun k => ?_, refusal (r := r) (reason := writeTest m r data.toNat mask.toNat p)⟩
      simp only [apertureWrite, bind_at, getM_at, run_look, hs, hn, h, hb, ht, if_false, apertureRefuse]

/-- Where the word stands for no register, a write is refused. -/
theorem apertureWrite_none (hw : w < 8) (h : ∀ own r, apertureReg m s w ≠ some (own, some r)) :
    ApertureRefuses m p s w data mask := by
  obtain ⟨hs, hn⟩ := apertureIndex (s := s) hw
  match ha : apertureReg m s w with
  | some (own, some r) => exact absurd ha (h own r)
  | some (_, none) =>
    refine ⟨_, fun k => ?_, (refuse_only ⟨.TEN_OBJ_DATA, s * 8 + w⟩ (apertureCtl p s w data mask) rcKRB_LIMIT).le
      (by decide +kernel)⟩
    simp only [apertureWrite, bind_at, getM_at, run_look, hs, hn, ha, apertureRefuse]
  | none =>
    refine ⟨_, fun k => ?_, (trace_only 1 (pathCode m p) rcKRB_LIMIT (apertureCtl p s w data mask).addr data mask).le
      (by decide +kernel)⟩
    simp only [apertureWrite, bind_at, getM_at, run_look, hs, hn, ha, apertureRefuse]

/-- A refusal of the aperture changes what records it, and the status of its slice. -/
theorem apertureRefuse_at {x : P Unit} (hx : Only Feet.refusedWrite.has x) :
    Only (At.has Feet.refusedWrite [⟨.TEN_OBJ_STATUS, s⟩]) (apertureRefuse s x) :=
  Only.bind (at_wr (by simp)) fun _ => atM hx

theorem apertureRefuse_ends {x : P Unit} (hx : Only Feet.refusedWrite.has x) (hc : regsWf m.regs = true) (hs : s < 256) :
    Ends (apertureRefuse s x) m fun _ m1 => m1.g (TEN_OBJ_STATUS_REFUSED s) = 1 := by
  have storable : (TEN_OBJ_STATUS_REFUSED s).storable = true := storable_at hs (by decide +kernel)
  refine Ends.seq (Q := fun _ m1 => m1.g (TEN_OBJ_STATUS_REFUSED s) = 1) (Ends.wr (g_set_same hc storable)) (fun _ => hx)
    fun _ m1 m2 q v => ?_
  rw [v.g_kept _ (by exact (by decide +kernel : Feet.refusedWrite.hasReg .TEN_OBJ_STATUS = false)), q]

end Sys2Proof.Machine
end

section
/-!
What a burst into the staging memory (R31) and a write through the aperture of a tenant page (R300) change, and no more (O46).
-/
namespace Sys2Proof.Machine

-- One declaration at a time: proofs that compute in the kernel wait for it, each with a stack of its own.
set_option Elab.async false

variable {m m1 : Mach} {p : Path} {data mask : Word}

/-! Sets within footprints. -/

section
variable {F : Foot} {A : Mask} {l : List Reg}

theorem Foot.hasReg_mem {k : RegKind} (h : k ∈ F.regs) : F.mask.hasReg k = true := by
  rw [Mask.hasReg, Foot.mask, Mask.of, testBit_ctors, Nat.zero_testBit, Bool.false_or, List.any_eq_true]
  exact ⟨k, h, by simp⟩

/-- Updates of a set and of single registers that lie within a footprint. -/
theorem At.within (hA : A.le F.mask = true) (hl : ∀ q ∈ l, F.mask.hasReg q.k = true ∨ q ∈ F.objs) (u : Upd)
    (hu : At.has A l u = true) : F.has u = true := by
  simp only [Foot.has, At.has, Bool.or_eq_true] at hu ⊢
  refine hu.elim (fun hu => .inl (Mask.has_mono hA u hu)) fun hu => ?_
  cases u with
  | reg q v =>
    simp only [decide_eq_true_eq] at hu
    exact (hl q hu).imp (fun h => by rw [Mask.has_reg, h]) fun h => by simp [h]
  | _ => simp at hu

end

/-! Bursts. -/

/-- What a burst into the staging memory can change. -/
def Foot.burst : Foot := Foot.refused.and [.MLD_STAGE_ADDR, .MLD_STAGE_DATA] [.stage]

/-- No FAULTY object waits for a register of the staging memory. -/
structure Stages (m : Mach) : Prop where
  wf : regsWf m.regs = true
  whole : ∀ f ∈ m.faulty, (⟨.MLD_STAGE_ADDR, 0⟩ : Reg) ∉ f.left ∧ (⟨.MLD_STAGE_DATA, 0⟩ : Reg) ∉ f.left

theorem Stages.kept (h : Stages m) (v : Via Foot.burst.has m m1) : Stages m1 where
  wf := v.regs_wf h.wf
  whole := by
    rw [Via.faulty_kept (A := Foot.burst.mask) (l := []) v]
    exact h.whole

/-- A word that goes to a register of the staging memory is stored, with what follows it, or refused. -/
theorem stageWord_runsIn {k : RegKind} {v : Word} (hk : k = .MLD_STAGE_ADDR ∨ k = .MLD_STAGE_DATA) (h : Stages m) :
    RunsIn Foot.burst.has (wordWrite p k 0 v) m := by
  have apart : k ≠ .TEN_OBJ_DATA ∧ k ≠ .TEN_VIOL ∧ k ≠ .TEN_OBJ_SEL ∧ k ≠ .TWN_CTL := by
    rcases hk with rfl | rfl <;> decide
  have mapped : (⟨k, 0⟩ : Reg).addr % 8 = 0 ∧ regAt (⟨k, 0⟩ : Reg).addr = some ⟨k, 0⟩ := by
    rcases hk with rfl | rfl <;> decide +kernel
  have whole : ∀ f ∈ m.faulty, (⟨k, 0⟩ : Reg) ∉ f.left := fun f hf => by
    rcases hk with rfl | rfl
    · exact (h.whole f hf).1
    · exact (h.whole f hf).2
  have effect : (ownEffect k 0).mask.le Foot.burst.mask = true ∧ (ownEffect k 0).objs = [⟨k, 0⟩] := by
    rcases hk with rfl | rfl <;> decide +kernel
  have own : Foot.burst.mask.hasReg k = true := by rcases hk with rfl | rfl <;> decide +kernel
  have single : ∀ q ∈ [(⟨k, 0⟩ : Reg)], Foot.burst.mask.hasReg q.k = true ∨ q ∈ Foot.burst.objs := by simp [own]
  by_cases ok : isPage p = true ∨ reaches m p (⟨k, 0⟩ : Reg).addr true (v.toNat &&& (BitVec.allOnes 64).toNat) = false ∨
      writeTest m ⟨k, 0⟩ v.toNat (BitVec.allOnes 64).toNat p ≠ rcOK
  · exact (regWrite_refused_runsIn mapped.1 mapped.2 apart.1 (fun _ => ⟨apart.2.1, apart.2.2.1⟩) ok).mono
      (Foot.has_le (by decide) (by decide) (by decide))
  · simp only [not_or, Bool.not_eq_true, Bool.not_eq_false, Decidable.not_not] at ok
    have lands : Lands m p ⟨k, 0⟩ v.toNat (BitVec.allOnes 64).toNat :=
      ⟨mapped, fun hp => absurd hp (by simp [ok.1]), apart.1, ok.2.1, ok.2.2, whole⟩
    refine regWrite_lands (Q := Via Foot.burst.has m) h.wf apart.2.2.2 lands fun m2 hw => ?_
    refine (regEffect_foot k 0 _ _ _ m2 p).ends.imp fun _ m3 v3 => ?_
    have v3 : Via Foot.burst.has m2 m3 := v3.mono (At.within effect.1 (by rwa [effect.2]))
    exact ⟨Via.faulty_kept (A := Foot.burst.mask) (l := []) v3,
      (hw.via.mono (At.within (by decide +kernel) single)).trans v3⟩

/-- What follows a word of a burst finds the staging memory's registers as whole. -/
theorem stageWord_then {k : RegKind} {v : Word} {f : Unit → P Unit} (hk : k = .MLD_STAGE_ADDR ∨ k = .MLD_STAGE_DATA)
    (h : Stages m) (hf : ∀ m1, Stages m1 → RunsIn Foot.burst.has (f ()) m1) :
    RunsIn Foot.burst.has (wordWrite p k 0 v >>= f) m :=
  RunsIn.bind ((stageWord_runsIn hk h).ends.imp fun _ _ v => ⟨v, h.kept v⟩) fun _ => hf

theorem stageWords_runsIn {ws : List Word} {f : Unit → P Unit} (h : Stages m)
    (hf : ∀ m1, Stages m1 → RunsIn Foot.burst.has (f ()) m1) :
    RunsIn Foot.burst.has ((each ws fun w => wordWrite p .MLD_STAGE_DATA 0 w) >>= f) m := by
  induction ws generalizing m with
  | nil => exact hf m h
  | cons w t ih => exact stageWord_then (f := fun _ => (each t fun w => wordWrite p .MLD_STAGE_DATA 0 w) >>= f) (.inr rfl) h fun _ => ih

theorem stageBulk_runsIn {addr : Nat} {ws : List Word} (h : Stages m) : RunsIn Foot.burst.has (stageBulk p addr ws) m := by
  have answer {code : Nat} {m : Mach} : RunsIn Foot.burst.has (fmAnswer code []) m :=
    (at_le (emit_only _) (by decide +kernel)).runsIn m
  exact RunsIn.getM (RunsIn.onlyIf fun _ => RunsIn.ite
    (fun _ => stageWord_then (.inl rfl) h fun _ h1 => stageWords_runsIn h1 fun _ _ => answer) fun _ => answer)

/-! Writes through the aperture. -/

section
variable {s w : Nat}

/-- A write that the aperture refuses changes what records it, and the status of its slice. -/
theorem aperture_refused (hs : s < 256) (hw : w < 8) (h : ApertureRefuses m p s w data mask) :
    RunsIn (At.has Feet.refusedWrite [⟨.TEN_OBJ_STATUS, s⟩]) (regWrite [apertureCtl p s w data mask]) m := by
  by_cases hr : reaches m p (⟨.TEN_OBJ_DATA, s * 8 + w⟩ : Reg).addr true (data.toNat &&& mask.toNat) = true
  · obtain ⟨x, hx, only⟩ := h
    exact regWrite_refused (fun k => (admit_aperture hs hw hr k).trans (hx k)) ((apertureRefuse_at only).ends m)
  · obtain ⟨x, hx, only⟩ := admit_apart (Bool.not_eq_true _ ▸ hr)
    exact regWrite_refused hx ((atM only).ends m)

/-- What a write of a register through the aperture can change; a register that is the only one of its name by that name. -/
def apertureNamed (r : Reg) : Foot :=
  (writeEffect r).and (Foot.refused.regs ++ [.TEN_OBJ_STATUS] ++ r.k.single) Foot.refused.tabs [r]

theorem refused_aperture {r : Reg} : Foot.refused.mask.le (apertureNamed r).mask = true :=
  Foot.mask_le (fun k h => by simp [apertureNamed, Foot.and, h]) fun T h => by simp [apertureNamed, Foot.and, h]

theorem writeEffect_aperture {r : Reg} : (writeEffect r).mask.le (apertureNamed r).mask = true :=
  Foot.mask_le (fun k h => by simp [apertureNamed, Foot.and, h]) fun T h => by simp [apertureNamed, Foot.and, h]

/-- The effect of a write leaves the FAULTY objects as they stand. -/
theorem ownEffect_faulty {k : RegKind} {i : Nat} : (ownEffect k i).mask.hasTab .faulty = false := by
  have settles := writeEffect_settles ⟨k, i⟩
  simp only [Foot.settles, Bool.and_eq_true, Bool.not_eq_true'] at settles
  refine Foot.mask_tab fun h => ?_
  have named : (writeEffect ⟨k, i⟩).mask.hasTab .faulty = true := Foot.hasTab_mem (by simpa [ownEffect, Foot.and] using h)
  simp [named] at settles

/-- A write of an object's register through the aperture changes what that write does, or what records its refusal. -/
theorem aperture_runsIn {own : Bool} {r : Reg} (hc : regsWf m.regs = true) (hs : s < 256) (hw : w < 8)
    (h : apertureReg m s w = some (own, some r)) (whole : ∀ f ∈ m.faulty, r ∉ f.left) :
    RunsIn (apertureNamed r).has (regWrite [apertureCtl p s w data mask]) m := by
  have refusal (hx : ApertureRefuses m p s w data mask) :
      RunsIn (apertureNamed r).has (regWrite [apertureCtl p s w data mask]) m :=
    (aperture_refused hs hw hx).mono (At.within (Mask.le_trans (by decide +kernel) refused_aperture) fun q hq =>
      .inl (Foot.hasReg_mem (by simp [apertureNamed, Foot.and, List.mem_singleton.1 hq])))
  by_cases hr : reaches m p (⟨.TEN_OBJ_DATA, s * 8 + w⟩ : Reg).addr true (data.toNat &&& mask.toNat) = true
  · rcases apertureWrite_reg (p := p) (data := data) (mask := mask) hw h with ⟨ok, hx⟩ | hx
    · obtain ⟨kind, index⟩ := apertureReg_own h
      have loud : r.k ≠ .TWN_CTL := fun hk => absurd (hk ▸ kind) (by decide)
      refine regWrite_admitted (fun k => (admit_aperture hs hw hr k).trans (hx k))
        (writeOne_lands (Q := Via (apertureNamed r).has m) hc loud ⟨index, ok, whole⟩ fun m2 hw => ?_)
      refine (regEffect_foot r.k r.i _ _ _ m2 p).ends.imp fun _ m3 v3 => ⟨Via.faulty_kept v3 ownEffect_faulty, ?_⟩
      refine (hw.via.mono (At.within (Mask.le_trans (by decide +kernel) refused_aperture) fun q hq => ?_)).trans
        (v3.mono (Foot.has_le (fun k hk => ?_) ?_ ?_))
      · exact .inr (by simp [apertureNamed, Foot.and, List.mem_singleton.1 hq])
      · exact (List.mem_append.1 hk).elim (fun h => by simp [apertureNamed, Foot.and, h]) fun h => by
          simp [apertureNamed, Foot.and, h]
      all_goals simp [ownEffect, apertureNamed, Foot.and]
    · exact refusal hx
  · obtain ⟨x, hx, only⟩ := admit_apart (Bool.not_eq_true _ ▸ hr)
    exact regWrite_refused hx ((at_le only (Mask.le_trans (by decide +kernel) refused_aperture)).ends m)

/-- Such a write settles within its footprint. -/
theorem apertureNamed_settled {r : Reg} : (apertureNamed r).mask.settled (apertureNamed r).mask = true := by
  have settles := writeEffect_settles r
  simp only [Foot.settles, Bool.and_eq_true, Bool.or_eq_true, Bool.not_eq_true'] at settles
  obtain ⟨⟨⟨quiet, -⟩, due⟩, -⟩ := settles
  simp only [Mask.settled, Bool.and_eq_true, Bool.or_eq_true, Bool.not_eq_true']
  refine ⟨⟨⟨by simp [Mask.le], Mask.le_trans quiet writeEffect_aperture⟩, .inr (Mask.le_trans (by decide +kernel) refused_aperture)⟩,
    due.imp (fun h => Foot.mask_tab fun ht => ?_) fun h => Mask.le_trans h writeEffect_aperture⟩
  rcases List.mem_append.1 ht with ht | ht
  · exact absurd (Foot.hasTab_mem ht) (by simp [h])
  · exact absurd ht (by decide +kernel)

end

/-- Settles O46: each word of a burst is stored or refused, and so is the write of the register that the aperture stands for. -/
theorem accessFrame : Obligations.AccessFrame := by
  intro s t hi
  have wf : regsWf ((Upd.out []).apply s.m).regs = true := hi.canon.regs
  refine ⟨fun p addr data whole h => ?_, fun p sl word data own r hr whole h => ?_, fun p sl word data hr h => ?_⟩
  · exact cmd_keeps (F := Foot.burst) (A := Foot.burst.mask) (l := []) hi (stageBulk_runsIn ⟨wf, whole⟩) (by decide +kernel)
      (by simp) h
  · have wf' : regsWf t.m.regs = true := by
      cases h
      exact (Prog.run_canon _ ((Upd.out []).apply_canon hi.canon)).regs
    refine keeps_single (apertureReg_own hr).2 hi.canon.regs wf' ?_
    exact cmd_keeps (F := apertureNamed r) hi (aperture_runsIn wf sl.isLt word.isLt hr whole) apertureNamed_settled
      (fun q hq => .inr hq) h
  · exact cmd_keeps hi (aperture_refused sl.isLt word.isLt (apertureWrite_none word.isLt hr))
      (by exact (by decide +kernel : Feet.refusedWrite.settled (Foot.refused.and [] []).mask = true)) (by simp [Foot.and]) h

end Sys2Proof.Machine
end

section
/-!
What a load changes, and no more (R31-R33, R325; O47): a refused full image its status alone, and an accepted one the registers
of its fields and what it says beside them.
-/
namespace Sys2Proof.Machine

-- One declaration at a time: proofs that compute in the kernel wait for it, each with a stack of its own.
set_option Elab.async false

/-! What a step leaves that ends its program in a block that is known. -/

section
variable {p : P Unit} {s t : State} {m1 : Mach} {A : Mask} {l : List Reg} {F : Foot}

/-- A command ends its program, and settles. -/
theorem cmd_ends {Q : Unit → Mach → Prop} (hp : Ends p ((Upd.out []).apply s.m) Q) (h : cmd p s = .next t) :
    ∃ m1, Q () m1 ∧ t = { s with m := Prog.run (toProg settle) m1 } := by
  obtain ⟨_, m1, h1, q⟩ := hp fun _ => toProg settle
  rw [cmd_run, h1] at h
  cases h
  exact ⟨m1, q, rfl⟩

/-- Updates that lead from one block to another are a program. -/
theorem Via.prog {S : Upd → Bool} {m m1 : Mach} (v : Via S m m1) : ∃ p : P Unit, ∀ k, Prog.run (p k) m = Prog.run (k ()) m1 := by
  induction v with
  | refl m => exact ⟨pure (), fun _ => rfl⟩
  | @head u m m1 _ _ ih =>
    obtain ⟨p, hp⟩ := ih
    exact ⟨do doU u; p, hp⟩

/-- What a step leaves whose program made updates of a set. -/
theorem settled_keeps (hi : s.Inv) (v : Via (At.has A l) ((Upd.out []).apply s.m) m1)
    (ht : t = { s with m := Prog.run (toProg settle) m1 }) (hA : A.settled F.mask = true)
    (hl : ∀ r ∈ l, F.mask.hasReg r.k = true ∨ r ∈ F.objs) : F.keeps s.m t.m := by
  obtain ⟨p, hp⟩ := v.prog
  exact cmd_keeps (p := p) hi (fun k => ⟨(), m1, hp k, v⟩) hA hl (by rw [cmd_run, hp, ht])

end

/-! The refusal of a load (R31, R32). -/

/-- What `loadRefuse` can change. -/
def Feet.loadRefuse : Mask := (.of [.MLD_STATUS] [.ldr] : Mask).plus [Feet.raise]

theorem Only.modLdr {A : Mask} {f : Loader → Loader} (h : A.hasTab .ldr = true) : Only A.has (Machine.modLdr f) :=
  Only.bind (Only.bind Only.getM fun _ => Only.pure _) fun _ => Only.doT .ldr rfl h

theorem loadRefuse_only (cmd reason sect item : Nat) (pol part : Bool) :
    Only Feet.loadRefuse.has (loadRefuse cmd reason sect item pol part) := by
  have mod {f : Loader → Loader} : Only Feet.loadRefuse.has (modLdr f) := Only.modLdr (by decide +kernel)
  refine Only.bind Only.getM fun _ => Only.bind ((loadShow_only _ _ _ _ _ _).le (by decide +kernel)) fun _ =>
    Only.bind mod fun _ => Only.onlyIf (Only.bind ((raise_only _).le (by decide +kernel)) fun _ => Only.onlyIf
    (Only.bind mod fun _ => (loadStart_only _ _).le (by decide +kernel)))

/-! The write pass of a full image (R30). -/

/-- What the write pass of an accepted image can change. -/
def Feet.image : Mask := .of imageKinds [.ldr, .vcs, .ldb, .homeSel, .domDef]

/-- Whether a field lies in a register that an image fills. -/
def RF.inImage (f : RF) : Bool := imageKinds.contains f.k

theorem RF.image_reg {f : RF} (h : f.inImage = true) : Feet.image.hasReg f.k = true :=
  Foot.hasReg_mem (F := ⟨imageKinds, [], []⟩) (List.contains_iff_mem.1 h)

/-- Whether the fields and marks of an item type lie in such registers, for the item of number `key`. -/
def ISpec.inImage (key : Nat) (s : ISpec) : Bool :=
  (s.fields.all fun f => (f.tgt key).all RF.inImage) && (s.marks key).all RF.inImage

theorem itemTypes_inImage (key : Nat) : itemTypes.all (ISpec.inImage key) = true := rfl

theorem itemSpec_inImage {sect typ key : Nat} {s : ISpec} (h : itemSpec sect typ = some s) : s.inImage key = true :=
  List.all_eq_true.1 (itemTypes_inImage key) s (List.mem_of_find?_eq_some h)

theorem fields_inImage {it : Item} {f : FSpec} (hf : f ∈ it.fields) {r : RF} (hr : f.tgt it.key = some r) :
    Feet.image.hasReg r.k = true := by
  unfold Item.fields at hf
  cases hs : itemSpec it.sect it.typ with
  | none => simp [hs] at hf
  | some s =>
    have types := (Bool.and_eq_true_iff.1 (itemSpec_inImage (key := it.key) hs)).1
    exact RF.image_reg (by simpa [hr] using List.all_eq_true.1 types f (by simpa [hs] using hf))

theorem marks_inImage {it : Item} {r : RF} (hr : r ∈ ((itemSpec it.sect it.typ).map (·.marks it.key)).getD []) :
    Feet.image.hasReg r.k = true := by
  cases hs : itemSpec it.sect it.typ with
  | none => simp [hs] at hr
  | some s =>
    have marks := (Bool.and_eq_true_iff.1 (itemSpec_inImage (key := it.key) hs)).2
    exact RF.image_reg (List.all_eq_true.1 marks r (by simpa [hs] using hr))

/-- A register with a locked field is one that an image fills (R30). -/
theorem locked_inImage {k : RegKind} (h : kindBits k (· = .RWL) ≠ 0) : Feet.image.hasReg k = true := by
  have all := RegKind.all (p := fun k => decide (kindBits k (· = .RWL) = 0) || Feet.image.hasReg k) (by decide +kernel) k
  simpa [h] using all

theorem itemExtra_image (it : Item) : Only Feet.image.has (itemExtra it) := by
  refine Only.bind Only.getM fun m => ?_
  dsimp only
  split
  case h_1 => exact Only.doT .vcs rfl (by decide +kernel)
  case h_2 => exact Only.doT .ldb rfl (by decide +kernel)
  case h_3 => exact Only.doT .homeSel rfl (by decide +kernel)
  case h_4 =>
    exact Only.bind (Only.wrK .SQ_RANGE_CFG rfl (by decide +kernel)) fun _ => Only.wrK .SQ_RANGE_CFG rfl (by decide +kernel)
  case h_5 => exact Only.doT .domDef rfl (by decide +kernel)
  case h_6 => exact Only.wrK .SLP_CFG rfl (by decide +kernel)
  case h_7 => exact Only.pure _

theorem itemStore_image (it : Item) : Only Feet.image.has (itemStore it) := by
  refine Only.bind (Only.each fun f hf => ?_) fun _ =>
    Only.bind (Only.each fun r hr => Only.wrK r.k rfl (marks_inImage hr)) fun _ => itemExtra_image it
  split
  · next hr => exact Only.wrK _ rfl (fields_inImage hf hr)
  · exact Only.pure _

theorem imageClear_image : Only Feet.image.has imageClear := by
  refine Only.bind Only.getM fun m => Only.bind (Only.each fun e _ => ?_) fun _ => ?_
  · exact Only.bind (Only.onlyIf' fun h => Only.wrRegK _ (locked_inImage h)) fun _ =>
      Only.bind (Only.onlyIf (Only.rstK _ (by decide +kernel))) fun _ => Only.onlyIf (Only.rstK _ (by decide +kernel))
  · exact Only.bind (Only.doT .vcs rfl (by decide +kernel)) fun _ => Only.bind (Only.doT .ldb rfl (by decide +kernel)) fun _ =>
      Only.bind (Only.doT .domDef rfl (by decide +kernel)) fun _ => Only.doT .homeSel rfl (by decide +kernel)

/-- The write pass up to what TWN_CFG's change follows; it answers PAIRED as it was. -/
def imageWrite (v : Verified) : P Nat := do
  let paired ← rd TWN_CFG_PAIRED
  imageClear
  each v.items itemStore
  imageShow v.svn v.build
  each (List.range 6) fun i => wr (MLD_DIGEST_DIGEST i) (bitsAt v.digest (64 * i) 64)
  wr GLB_STRUCT_STATUS_MODIFIED 0
  return paired

/-- The end of an accepted load. -/
def imageDone (v : Verified) : P Unit := do
  modLdr fun x => { x with running := none, boot := 0, accepted := true, items := v.items }
  loadShow 2 0 0 0 false false

theorem imageAccept_eq (v : Verified) : imageAccept v = (do
    let paired ← imageWrite v
    whlCfg (paired = 1)
    imageDone v) := rfl

theorem imageWrite_only (v : Verified) : Only Feet.image.has (imageWrite v) :=
  Only.bind (Only.rd _) fun _ => Only.bind imageClear_image fun _ => Only.bind (Only.each fun it _ => itemStore_image it) fun _ =>
    Only.bind (Only.bind (Only.wrK .MLD_SVN rfl (by decide +kernel)) fun _ => Only.wrK .MLD_BUILD_ID rfl (by decide +kernel)) fun _ =>
    Only.bind (Only.each fun _ _ => Only.wrK .MLD_DIGEST rfl (by decide +kernel)) fun _ =>
    Only.bind (Only.wrK .GLB_STRUCT_STATUS rfl (by decide +kernel)) fun _ => Only.pure _

/-! The Whorl witness after a change of TWN_CFG (R325). -/

section
variable {m : Mach}

/-- The witness has changed, within what such a change touches. -/
structure Changed (m m1 : Mach) : Prop where
  wf : regsWf m1.regs = true
  via : Via Feet.whlCfg.has m m1
  gone : m1.g TWN_WHL_STATUS_PARTNER_GONE ≠ m.g TWN_WHL_STATUS_PARTNER_GONE

theorem Changed.then {m1 m2 : Mach} {A : Mask} (h : Changed m m1) (v : Via A.has m1 m2) (hA : A.le Feet.whlCfg = true)
    (hs : A.hasReg .TWN_WHL_STATUS = false) : Changed m m2 where
  wf := v.regs_wf h.wf
  via := h.via.trans (v.mono (Mask.has_mono hA))
  gone := by
    rw [v.g_kept TWN_WHL_STATUS_PARTNER_GONE hs]
    exact h.gone

theorem Changed.shown {m1 : Mach} {n : Nat} (h : Changed m m1) : Changed m (m1.set TWN_WHL_STATUS_STATE n) where
  wf := set_wf h.wf
  via := h.via.trans (.head (by rw [Mask.has_reg]; decide +kernel) (.refl _))
  gone := by
    rw [g_set_apart h.wf (by decide +kernel)]
    exact h.gone

/-- PARTNER_GONE takes another value, and what follows leaves it. -/
theorem whlGone_ends {gone paired : Bool} (hc : regsWf m.regs = true)
    (h : m.g TWN_WHL_STATUS_PARTNER_GONE ≠ if gone then 1 else 0) : Ends (whlGone gone paired) m fun _ => Changed m := by
  have value : (if gone then 1 else 0) % 2 ^ TWN_WHL_STATUS_PARTNER_GONE.w = if gone then 1 else 0 := by cases gone <;> rfl
  have set : Changed m (m.set TWN_WHL_STATUS_PARTNER_GONE (if gone then 1 else 0)) := by
    refine ⟨set_wf hc, .head (by rw [Mask.has_reg]; decide +kernel) (.refl _), ?_⟩
    rw [g_set_same hc (by decide +kernel), value]
    exact h.symm
  refine Ends.getM ((Ends.onlyIf (Q := fun _ => Changed m) (fun _ => Ends.bind (Q := fun _ => Changed m) (Ends.wr set) fun _ m1 c => ?_) fun hn => absurd h hn).bind
    fun _ m1 c => Ends.bind (Q := fun _ => Changed m) (Ends.getM (Ends.wr c.shown)) fun _ m2 c => ?_)
  · exact ((Only.onlyIf (raise_only _)).ends m1).imp fun _ _ v => c.then v (by decide +kernel) (by decide +kernel)
  · exact (witness_only.ends m2).imp fun _ _ v => c.then v (by decide +kernel) (by decide +kernel)

/-- A change of TWN_CFG changes the witness, or nothing. -/
theorem whlCfg_ends {paired : Bool} (hc : regsWf m.regs = true) : Ends (whlCfg paired) m fun _ m1 => m1 = m ∨ Changed m m1 :=
  Ends.getM (Ends.onlyIf (fun h => (whlGone_ends hc h).imp fun _ _ => .inr) fun _ => .inl rfl)

end

/-! The acceptance of a full image (R30, R31). -/

/-- What a step in which a full image is accepted can change. -/
def Feet.accept : Mask := Feet.image.plus [Feet.whlCfg]

/-- The block after an image is accepted: what its write pass and a change of the witness did, and what the loader holds. -/
structure Accepted (v : Verified) (m m1 : Mach) : Prop where
  via : Via Feet.accept.has m m1
  calm : m1.g TWN_WHL_STATUS_PARTNER_GONE = m.g TWN_WHL_STATUS_PARTNER_GONE → Via Feet.image.has m m1
  accepted : m1.ldr.accepted = true
  running : m1.ldr.running = none
  items : m1.ldr.items = v.items
  state : m1.g MLD_STATUS_STATE = 2

/-- The fields that show the end of a load, after STATE. -/
def loadNames : List RF :=
  [MLD_STATUS_REASON, MLD_STATUS_SECTION, MLD_STATUS_ITEM, MLD_STATUS_POLICY_ONLY, MLD_STATUS_PARTIAL]

/-- What MLD_STATUS shows at the end of a load. -/
theorem loadShow_ends {m : Mach} {state reason sect item : Nat} {pol part : Bool} :
    Ends (loadShow state reason sect item pol part) m fun _ m1 => m1 = m.sets ((MLD_STATUS_STATE, state) ::
      loadNames.zip [reason, sect, item, if pol then 1 else 0, if part then 1 else 0]) :=
  fun _ => ⟨(), _, rfl, rfl⟩

theorem imageDone_ends {v : Verified} {m m1 : Mach} (hc : regsWf m1.regs = true) (via : Via Feet.accept.has m m1)
    (calm : m1.g TWN_WHL_STATUS_PARTNER_GONE = m.g TWN_WHL_STATUS_PARTNER_GONE → Via Feet.image.has m m1) :
    Ends (imageDone v) m1 fun _ => Accepted v m := by
  refine Ends.bind (Q := fun _ m2 => m2 = (Upd.ldr _).apply m1) (Ends.modLdr rfl) fun _ m2 h2 => loadShow_ends.imp fun _ m3 h3 => ?_
  subst h2
  have show' : Via (Mask.of [.MLD_STATUS] []).has ((Upd.ldr _).apply m1) m3 := h3 ▸ sets_via rfl (by decide +kernel)
  have done : Via (Mask.of [.MLD_STATUS] [.ldr]).has m1 m3 :=
    .head (by rw [Mask.has_tab rfl]; decide +kernel) (show'.mono (Mask.has_mono (by decide +kernel)))
  have ldr := show'.ldr_kept
  exact ⟨via.trans (done.mono (Mask.has_mono (by decide +kernel))),
    fun h => (calm ((done.g_kept _).symm.trans h)).trans (done.mono (Mask.has_mono (by decide +kernel))),
    by rw [ldr]; rfl, by rw [ldr]; rfl, by rw [ldr]; rfl,
    h3 ▸ sets_same (show regsWf ((Upd.ldr _).apply m1).regs = true from hc) (by decide +kernel) (fs := loadNames) rfl (by decide +kernel)⟩

theorem imageAccept_ends {v : Verified} {m : Mach} (hc : regsWf m.regs = true) :
    Ends (imageAccept v) m fun _ => Accepted v m := by
  rw [imageAccept_eq]
  refine Ends.bind ((imageWrite_only v).ends m) fun paired m1 v1 => (whlCfg_ends (v1.regs_wf hc)).bind fun _ m2 h2 => ?_
  have v1' : Via Feet.accept.has m m1 := v1.mono (Mask.has_mono (by decide +kernel))
  rcases h2 with rfl | h2
  · exact imageDone_ends (v1.regs_wf hc) v1' fun _ => v1
  · exact imageDone_ends h2.wf (v1'.trans (h2.via.mono (Mask.has_mono (by decide +kernel))))
      fun h => absurd (h.trans (v1.g_kept _).symm) h2.gone

/-! The end of a load. -/

/-- The bytes that a load of command `cmd` reads. -/
def loadBytes (m : Mach) (cmd : Nat) (flash : List Nat) : List Nat := if cmd = 3 then stageImage m else flash

/-- What the verification of a load finds. -/
def loadVerified (m : Mach) (cmd : Nat) (flash : List Nat) : Verified :=
  verify m.fuse (m.g MLD_SVN_MIN_SVN_MIN) (m.g GLB_ID_STEPPING) (loadBytes m cmd flash)

/-- What follows the verification of a load. -/
def loadDecide (cmd code : Nat) (bytes : List Nat) (v : Verified) : P Unit :=
  if v.reason ≠ 0 then loadRefuse cmd v.reason v.sect v.item (leAt bytes 9 1 % 2 = 1) false
  else if v.pol then policyLoad cmd code v
  else imageAccept v

section
variable {m : Mach} {cmd code : Nat} {flash : List Nat}

/-- The end of a load that runs: it waits for its fence, or is refused for structure in use, or as its verification decides. -/
theorem imageLoadDone_at (hr : m.ldr.running = some (cmd, code)) : SameAt m (imageLoadDone flash)
    (if m.ldr.fence = 0 then
      if leAt (loadBytes m cmd flash) 9 1 % 2 = 0 ∧ m.g GLB_STRUCT_STATUS_STATE ≠ stDISABLED then
        loadRefuse cmd rcSTRUCT_BUSY 0 0 false false
      else loadDecide cmd code (loadBytes m cmd flash) (loadVerified m cmd flash)
    else pure ()) := fun k => by
  simp only [imageLoadDone, bind_at, getM_at, run_look, hr]
  rfl

/-- An image that does not verify is refused. -/
theorem imageLoadDone_refused (hr : m.ldr.running = some (cmd, code)) (h : (loadVerified m cmd flash).reason ≠ 0) :
    RunsIn Feet.loadRefuse.has (imageLoadDone flash) m := by
  refine RunsIn.same (imageLoadDone_at hr) (RunsIn.ite (fun _ => RunsIn.ite (fun _ => ?_) fun _ => ?_) fun _ => RunsIn.pure ())
  · exact (loadRefuse_only _ _ _ _ _ _).runsIn m
  · rw [loadDecide, if_pos h]
    exact (loadRefuse_only _ _ _ _ _ _).runsIn m

/-- A full image that verifies is accepted, or refused for structure in use. -/
theorem imageLoadDone_full (hc : regsWf m.regs = true) (hr : m.ldr.running = some (cmd, code))
    (h : (loadVerified m cmd flash).reason = 0) (hp : (loadVerified m cmd flash).pol = false) :
    Ends (imageLoadDone flash) m fun _ m1 => Via Feet.loadRefuse.has m m1 ∨ Accepted (loadVerified m cmd flash) m m1 := by
  refine Ends.same (imageLoadDone_at hr) (Ends.ite (fun _ => Ends.ite (fun _ => ?_) fun _ => ?_) fun _ =>
    Ends.pure (.inl (.refl m)))
  · exact ((loadRefuse_only _ _ _ _ _ _).ends m).imp fun _ _ => .inl
  · rw [loadDecide, if_neg (by simp [h]), if_neg (by simp [hp])]
    exact (imageAccept_ends hc).imp fun _ _ => .inr

end

/-- A step's delivery leaves the witness. -/
theorem settle_gone (m : Mach) : (Prog.run (toProg settle) m).g TWN_WHL_STATUS_PARTNER_GONE = m.g TWN_WHL_STATUS_PARTNER_GONE :=
  Via.g_kept (A := Feet.settle) (settle_via (by decide +kernel) (.inr (by decide +kernel)) (.inr (by decide +kernel))) _

/-- Settles O47: a refusal shows itself alone, and an acceptance is the write pass, with a change of the witness that PARTNER_GONE
shows. -/
theorem loadFrame : Obligations.LoadFrame := by
  intro s t image cmd code hi hr h
  have wf : regsWf ((Upd.out []).apply s.m).regs = true := hi.canon.regs
  have at_nil {A : Mask} {m m1 : Mach} (v : Via A.has m m1) : Via (At.has A []) m m1 := v.mono fun u hu => by simp [At.has, hu]
  change if (loadVerified ((Upd.out []).apply s.m) cmd image.bytes).reason ≠ 0 then _
    else (loadVerified ((Upd.out []).apply s.m) cmd image.bytes).pol = false → _
  split
  · next hv =>
    obtain ⟨m1, v1, ht⟩ := cmd_ends (imageLoadDone_refused hr hv) h
    exact settled_keeps hi (at_nil v1) ht (by decide +kernel) (by simp)
  · next hv =>
    intro hp
    obtain ⟨m1, h1, ht⟩ := cmd_ends (imageLoadDone_full wf hr (Decidable.not_not.1 hv) hp) h
    rcases h1 with v1 | acc
    · exact ⟨settled_keeps hi (at_nil v1) ht (by decide +kernel) (by simp),
        fun _ => settled_keeps hi (at_nil v1) ht (by decide +kernel) (by simp)⟩
    · refine ⟨settled_keeps hi (at_nil acc.via) ht (by decide +kernel) (by simp), fun hg => ?_⟩
      refine settled_keeps hi (at_nil (acc.calm ?_)) ht (by decide +kernel) (by simp)
      rw [← settle_gone m1, show Prog.run (toProg settle) m1 = t.m by rw [ht], hg]
      rfl

end Sys2Proof.Machine
end

section
/-!
SUPPORT. What the operations of structure and of the loader lead to (R30-R40, Table 2.5).
-/
namespace Sys2Proof.Machine

-- One declaration at a time: proofs that compute in the kernel wait for it, each with a stack of its own.
set_option Elab.async false

section
variable {m m1 m2 : Mach} {A : Mask} {n : Nat}

/-- Structure stands in state `n`, and the FAULTY objects stand as they did. -/
structure Stands (n : Nat) (m m1 : Mach) : Prop where
  wf : regsWf m1.regs = true
  state : m1.g GLB_STRUCT_STATUS_STATE = n
  faulty : m1.faulty = m.faulty

theorem Stands.kept (h : Stands n m m1) (v : Via A.has m1 m2) (hs : A.hasReg .GLB_STRUCT_STATUS = false)
    (hf : A.hasTab .faulty = false) : Stands n m m2 where
  wf := v.regs_wf h.wf
  state := (v.g_kept GLB_STRUCT_STATUS_STATE hs).trans h.state
  faulty := (show m2.faulty = m1.faulty from v.tab_kept .faulty hf).trans h.faulty

/-- What names neither leaves both. -/
theorem Stands.only {x : P Unit} (h : Stands n m m1) (hx : Only A.has x)
    (hs : A.hasReg .GLB_STRUCT_STATUS = false := by decide +kernel)
    (hf : A.hasTab .faulty = false := by decide +kernel) : Ends x m1 fun _ => Stands n m :=
  (hx.ends m1).imp fun _ _ v => h.kept v hs hf

theorem Stands.enter (h : regsWf m1.regs = true) (hf : m1.faulty = m.faulty)
    (hn : n % 2 ^ GLB_STRUCT_STATUS_STATE.w = n := by decide) : Stands n m (m1.set GLB_STRUCT_STATUS_STATE n) :=
  ⟨set_wf h, (g_set_same h (by decide +kernel)).trans hn, hf⟩

theorem sets_faulty {l : List (RF × Nat)} : (m.sets l).faulty = m.faulty := by
  induction l generalizing m with
  | nil => rfl
  | cons e t ih => exact ih

/-- Stores beside STATE leave it. -/
theorem Stands.sets {l : List (RF × Nat)} {fs : List RF} (h : Stands n m m1) (hn : l.map Prod.fst = fs)
    (ha : fs.all (·.apart GLB_STRUCT_STATUS_STATE) = true) : Stands n m (m1.sets l) :=
  ⟨sets_wf h.wf, (sets_apart h.wf hn ha).trans h.state, sets_faulty.trans h.faulty⟩

end

/-! Results (R36, R45). -/

/-- The fields that show a result. -/
def structNames : List RF :=
  [GLB_STRUCT_STATUS_REASON, GLB_STRUCT_STATUS_PHASE, GLB_STRUCT_STATUS_SECTION, GLB_STRUCT_STATUS_ITEM, GLB_STRUCT_DETAIL_VALUE,
   GLB_STRUCT_DETAIL_OTHER_ITEM, GLB_STRUCT_ADDR_ADDR]

/-- What they show. -/
def structFields (c : Option Chk) : List (RF × Nat) :=
  let x := c.getD { reason := 0, phase := 0, sect := 0, item := 0 }
  structNames.zip [x.reason, x.phase, x.sect, x.item, x.value, x.other, x.addr]

theorem structFields_names (c : Option Chk) : (structFields c).map Prod.fst = structNames := rfl

theorem structShow_ends {m : Mach} {c : Option Chk} : Ends (structShow c) m fun _ m1 => m1 = m.sets (structFields c) :=
  fun _ => ⟨(), _, rfl, rfl⟩

/-- A counter that counts is stored. -/
theorem inc_ends {m : Mach} {f : RF} : Ends (inc f) m fun _ m1 => m1 = m.set f (Nat.min (m.g f + 1) (2 ^ f.w - 1)) :=
  fun _ => ⟨(), _, rfl, rfl⟩

section
variable {m m1 : Mach} {n : Nat} {c : Option Chk}

theorem Stands.shown (h : Stands n m m1) : Ends (structShow c) m1 fun _ => Stands n m :=
  structShow_ends.imp fun _ _ e => e ▸ h.sets (structFields_names c) (by decide +kernel)

end

/-! APPLYING and ENABLED (R34, R38). -/

/-- What APPLYING writes after STATE. -/
def applyRest : P Unit := do
  each (← getM).domDef fun e => wr (PWR_DOM_CTL_ALLOW_RET e.1) (if e.2.2 then 1 else 0)
  xbApply
  ringsApply
  hostSlicesApply
  windowsApply
  gatesApply
  shapersApply
  slpApply
  let m ← getM
  wr TWN_SPN_CTL_ENABLE (if m.g TWN_CFG_PAIRED = 1 ∧ fenced m = false then 1 else 0)
  applyAdvance

/-- What it can change. -/
def Feet.applyRest : Mask := (.of [.PWR_DOM_CTL, .TWN_SPN_CTL] [] : Mask).plus [Feet.xbApply, Feet.shapersApply,
  Feet.applyAdvance, Feet.slpApply, Feet.ringsApply, Feet.hostSlicesApply, Feet.windowsApply, Feet.gatesApply]

theorem applyRest_only : Only Feet.applyRest.has applyRest :=
  Only.bind Only.getM fun _ => Only.bind (Only.each fun _ _ => Only.wrK .PWR_DOM_CTL rfl (by decide +kernel)) fun _ =>
  Only.bind (xbApply_only.le (by decide +kernel)) fun _ => Only.bind (ringsApply_only.le (by decide +kernel)) fun _ =>
  Only.bind (hostSlicesApply_only.le (by decide +kernel)) fun _ => Only.bind (windowsApply_only.le (by decide +kernel)) fun _ =>
  Only.bind (gatesApply_only.le (by decide +kernel)) fun _ => Only.bind (shapersApply_only.le (by decide +kernel)) fun _ =>
  Only.bind (slpApply_only.le (by decide +kernel)) fun _ => Only.bind Only.getM fun _ =>
  Only.bind (Only.wrK .TWN_SPN_CTL rfl (by decide +kernel)) fun _ => applyAdvance_only.le (by decide +kernel)

theorem applyStart_ends {m m1 : Mach} (h : regsWf m1.regs = true) (hf : m1.faulty = m.faulty) :
    Ends applyStart m1 fun _ => Stands stAPPLYING m :=
  Ends.bind (Q := fun _ => Stands stAPPLYING m) (Ends.wr (Stands.enter h hf)) fun _ _ c => c.only applyRest_only

/-- What the end of APPLYING releases. -/
def blocksRelease (m : Mach) : P Unit := do
  each (slicesOf m) fun s => do
    wr (TEN_CTL_ENABLE s) 1
    sliceOn s
  each ((List.range 128).filter fun p => m.g (OCT_PORT_CFG_VALID p) = 1) fun p => do
    wr (OCT_PORT_CTL_TARGET_RATE p) (m.g (OCT_PORT_CFG_RATE_MAX p))
    onlyIf (fenced m = false) (do
      wr (OCT_PORT_CTL_ENABLE p) 1
      wr (OCT_PORT_TRAIN_ATTEMPTS p) 0)
  roleEnable
  roleEval
  spnKick
  each (List.range 128) portKick

/-- What it can change. -/
def Feet.blocksRelease : Mask := (.of [.OCT_PORT_CTL, .OCT_PORT_TRAIN, .TEN_CTL] [] : Mask).plus [Feet.sliceOn, Feet.portKick,
  Feet.spnKick, Feet.roleEnable, Feet.roleEval]

theorem blocksRelease_only (m : Mach) : Only Feet.blocksRelease.has (blocksRelease m) :=
  Only.bind (Only.each fun _ _ => Only.bind (Only.wrK .TEN_CTL rfl (by decide +kernel)) fun _ =>
    (sliceOn_only _).le (by decide +kernel)) fun _ =>
  Only.bind (Only.each fun _ _ => Only.bind (Only.wrK .OCT_PORT_CTL rfl (by decide +kernel)) fun _ => Only.onlyIf
    (Only.bind (Only.wrK .OCT_PORT_CTL rfl (by decide +kernel)) fun _ => Only.wrK .OCT_PORT_TRAIN rfl (by decide +kernel))) fun _ =>
  Only.bind (roleEnable_only.le (by decide +kernel)) fun _ => Only.bind (roleEval_only.le (by decide +kernel)) fun _ =>
  Only.bind (spnKick_only.le (by decide +kernel)) fun _ => Only.each fun _ _ => (portKick_only _).le (by decide +kernel)

theorem applyingDone_ends {m : Mach} (hc : regsWf m.regs = true) (h : m.g GLB_STRUCT_STATUS_STATE = stAPPLYING)
    (hr : applyReached m = true) : Ends applyingDone m fun _ => Stands stENABLED m := by
  refine Ends.getM ?_
  rw [if_pos ⟨h, hr⟩]
  exact Ends.bind (Q := fun _ => Stands stENABLED m) (Ends.wr (Stands.enter hc rfl)) fun _ _ c =>
    c.shown.bind fun _ _ c => c.only (blocksRelease_only m)

/-! DISABLING and DISABLED (R34). -/

/-- What DISABLING does after STATE. -/
def disableRest : P Unit := do
  wr GLB_STRUCT_CTL_ENABLE 1
  wr TWN_SPN_CTL_ENABLE 0
  spnOff
  each (List.range 256) fun s => wr (TM_SRING_CTL_ENABLE s) 0
  disableAdvance

/-- What it can change. -/
def Feet.disableRest : Mask := (.of [.GLB_STRUCT_CTL, .TWN_SPN_CTL, .TM_SRING_CTL] [] : Mask).plus [Feet.spnOff,
  Feet.disableAdvance]

theorem disableRest_only : Only Feet.disableRest.has disableRest :=
  Only.bind (Only.wrK .GLB_STRUCT_CTL rfl (by decide +kernel)) fun _ =>
  Only.bind (Only.wrK .TWN_SPN_CTL rfl (by decide +kernel)) fun _ => Only.bind (spnOff_only.le (by decide +kernel)) fun _ =>
  Only.bind (Only.each fun _ _ => Only.wrK .TM_SRING_CTL rfl (by decide +kernel)) fun _ =>
    disableAdvance_only.le (by decide +kernel)

theorem disableStart_ends {m : Mach} (hc : regsWf m.regs = true) : Ends disableStart m fun _ => Stands stDISABLING m :=
  Ends.bind (Q := fun _ => Stands stDISABLING m) (Ends.wr (Stands.enter hc rfl)) fun _ _ c => c.only disableRest_only

/-- Structure is DISABLED, and ENABLE reads 0. -/
structure Disabled (m m1 : Mach) : Prop extends Stands stDISABLED m m1 where
  enable : m1.g GLB_STRUCT_CTL_ENABLE = 0

theorem Disabled.kept {m m1 m2 : Mach} {A : Mask} (h : Disabled m m1) (v : Via A.has m1 m2)
    (hs : A.hasReg .GLB_STRUCT_STATUS = false) (hf : A.hasTab .faulty = false) (hc : A.hasReg .GLB_STRUCT_CTL = false) :
    Disabled m m2 where
  toStands := h.toStands.kept v hs hf
  enable := (v.g_kept GLB_STRUCT_CTL_ENABLE hc).trans h.enable

theorem Disabled.sets {m m1 : Mach} {l : List (RF × Nat)} {fs : List RF} (h : Disabled m m1) (hn : l.map Prod.fst = fs)
    (hs : fs.all (·.apart GLB_STRUCT_STATUS_STATE) = true) (he : fs.all (·.apart GLB_STRUCT_CTL_ENABLE) = true) :
    Disabled m (m1.sets l) :=
  ⟨h.toStands.sets hn hs, (sets_apart h.wf hn he).trans h.enable⟩

theorem Disabled.shown {m m1 : Mach} {c : Option Chk} (h : Disabled m m1) : Ends (structShow c) m1 fun _ => Disabled m :=
  structShow_ends.imp fun _ _ e => e ▸ h.sets (structFields_names c) (by decide +kernel) (by decide +kernel)

theorem Disabled.enter {m m1 : Mach} (h : regsWf m1.regs = true) (hf : m1.faulty = m.faulty) :
    Disabled m ((m1.set GLB_STRUCT_STATUS_STATE stDISABLED).set GLB_STRUCT_CTL_ENABLE 0) where
  wf := set_wf (set_wf h)
  state := (g_set_apart (set_wf h) (by decide +kernel)).trans (g_set_same h (by decide +kernel))
  faulty := hf
  enable := g_set_same (set_wf h) (by decide +kernel)

theorem disablingDone_ends {m : Mach} (hc : regsWf m.regs = true) (h : m.g GLB_STRUCT_STATUS_STATE = stDISABLING)
    (hr : disableReached m = true) : Ends disablingDone m fun _ => Disabled m := by
  refine Ends.getM ?_
  rw [if_pos ⟨h, hr⟩]
  refine Ends.bind (Q := fun _ m1 => m1 = m.set GLB_STRUCT_STATUS_STATE stDISABLED) (Ends.wr rfl) fun _ m1 h1 =>
    Ends.bind (Q := fun _ => Disabled m) (Ends.wr (h1 ▸ Disabled.enter hc rfl)) fun _ m2 h2 => h2.shown.bind fun _ m3 c => ?_
  exact (roleDisable_only.ends m3).imp fun _ _ v => c.kept v (by decide +kernel) (by decide +kernel) (by decide +kernel)

/-! The check (R35-R37, R40). -/

/-- The loader after a check. -/
def Loader.checked (x : Loader) : Loader := { x with checking := none, listening := false }

/-- What the refusal of an enable shows. -/
def Feet.enableRefused : Mask := .of [.GLB_STRUCT_STATUS, .GLB_STRUCT_DETAIL, .GLB_STRUCT_ADDR, .GLB_STRUCT_CTL] []

/-- The check of an enable ends in a refusal. -/
theorem checkFinish_refused {m : Mach} {r : Chk} (hc : regsWf m.regs = true) :
    Ends (checkFinish false (some r)) m fun _ m1 =>
      Disabled m m1 ∧ Via Feet.enableRefused.has ((Upd.ldr m.ldr.checked).apply m) m1 := by
  refine Ends.bind (Q := fun _ m1 => m1 = (Upd.ldr m.ldr.checked).apply m) (Ends.modLdr rfl) fun _ m1 h1 => ?_
  have wf : regsWf m1.regs = true := h1 ▸ hc
  refine structShow_ends.bind fun _ m2 h2 => ?_
  have shown : Stands (m1.g GLB_STRUCT_STATUS_STATE) m1 m2 :=
    h2 ▸ Stands.sets ⟨wf, rfl, rfl⟩ (structFields_names _) (by decide +kernel)
  have v2 : Via Feet.enableRefused.has m1 m2 := h2 ▸ sets_via (structFields_names _) (by decide +kernel)
  refine Ends.bind (Q := fun _ m3 => m3 = m2.set GLB_STRUCT_STATUS_STATE stDISABLED) (Ends.wr rfl) fun _ m3 h3 =>
    Ends.bind (Q := fun _ m4 => m4 = m3.set GLB_STRUCT_CTL_ENABLE 0) (Ends.wr rfl) fun _ m4 h4 => inc_ends.imp fun _ m5 h5 => ?_
  have off : Disabled m m4 := by
    rw [h4, h3]
    exact Disabled.enter shown.wf (shown.faulty.trans (h1 ▸ rfl))
  constructor
  · exact h5 ▸ off.sets (l := [(GLB_STRUCT_STATUS_REFUSALS, _)]) (fs := [GLB_STRUCT_STATUS_REFUSALS]) rfl
      (by decide +kernel) (by decide +kernel)
  · rw [← h1, h5, h4, h3]
    exact v2.trans (sets_via (l := [(GLB_STRUCT_STATUS_STATE, _), (GLB_STRUCT_CTL_ENABLE, _), (GLB_STRUCT_STATUS_REFUSALS, _)])
      (fs := [GLB_STRUCT_STATUS_STATE, GLB_STRUCT_CTL_ENABLE, GLB_STRUCT_STATUS_REFUSALS]) rfl (by decide +kernel))

/-- The check of an enable that finds nothing goes to APPLYING. -/
theorem checkFinish_passed {m : Mach} (hc : regsWf m.regs = true) :
    Ends (checkFinish false none) m fun _ => Stands stAPPLYING m :=
  Ends.bind (Q := fun _ m1 => m1 = (Upd.ldr _).apply m) (Ends.modLdr rfl) fun _ _ h1 =>
    applyStart_ends (h1 ▸ hc) (h1 ▸ rfl)

/-- A dry run shows what it found. -/
theorem checkFinish_dry {m : Mach} {c : Option Chk} (hc : regsWf m.regs = true) : Ends (checkFinish true c) m fun _ m1 =>
    m1.ldr.checking = none ∧ m1.g GLB_STRUCT_STATUS_DRY_OK = if c.isNone then 1 else 0 := by
  refine Ends.bind (Q := fun _ m1 => m1 = (Upd.ldr _).apply m) (Ends.modLdr rfl) fun _ m1 h1 =>
    structShow_ends.bind fun _ m2 h2 => Ends.wr ?_
  have wf : regsWf m1.regs = true := h1 ▸ hc
  have ldr : m2.ldr = m1.ldr := Via.ldr_kept (A := .of [.GLB_STRUCT_STATUS, .GLB_STRUCT_DETAIL, .GLB_STRUCT_ADDR] [])
    (h2 ▸ sets_via (structFields_names c) (by decide +kernel))
  refine ⟨by change m2.ldr.checking = none; rw [ldr, h1]; rfl, ?_⟩
  rw [g_set_same (h2 ▸ sets_wf wf) (by decide +kernel)]
  cases c <;> rfl

/-- A check starts for an enable where a load counts for it. -/
theorem checkStart_enable {m : Mach} (hc : regsWf m.regs = true) (ha : m.ldr.accepted = true) :
    Ends (checkStart false) m fun _ m1 => Stands stCHECKING m m1 ∧ m1.ldr.checking = some false := by
  refine Ends.getM ?_
  rw [if_neg (by simp [ha])]
  have digest : Only (Mask.of [.MLD_DIGEST] [.whl]).has (do
      onlyIf (m.g GLB_STRUCT_STATUS_MODIFIED = 1) (do
        let d := structDigest (itemsNow m)
        each (List.range 6) fun i => wr (MLD_DIGEST_DIGEST i) (bitsAt d (64 * i) 64))
      modWhl fun x => { x with myChk := none }) :=
    Only.bind (Only.onlyIf (Only.each fun _ _ => Only.wrK .MLD_DIGEST rfl (by decide +kernel))) fun _ =>
      Only.bind (Only.bind Only.getM fun _ => Only.pure _) fun _ => Only.doT .whl rfl (by decide +kernel)
  refine Ends.bind (Q := fun _ => Stands stCHECKING m) (Ends.bind (Q := fun _ => Stands stCHECKING m)
    (Ends.wr (Stands.enter hc rfl)) fun _ _ c => c.only digest) fun _ _ c => Ends.modLdr ⟨⟨c.wf, c.state, c.faulty⟩, rfl⟩

/-- Where no load counts for it, the enable is refused at once (Table 2.7). -/
theorem checkStart_unloaded {m : Mach} (hc : regsWf m.regs = true) (ha : m.ldr.accepted = false)
    (hs : m.g GLB_STRUCT_STATUS_STATE = stDISABLED) :
    Ends (checkStart false) m fun _ m1 => Disabled m m1 ∧ m1.g GLB_STRUCT_STATUS_REASON = rcNOT_LOADED := by
  refine Ends.getM ?_
  rw [if_pos ⟨ha, rfl⟩]
  refine structShow_ends.bind fun _ m1 h1 => Ends.wr ?_
  have shown : Stands stDISABLED m m1 := h1 ▸ Stands.sets ⟨hc, hs, rfl⟩ (structFields_names _) (by decide +kernel)
  have reason : m1.g GLB_STRUCT_STATUS_REASON = rcNOT_LOADED :=
    h1 ▸ sets_same hc (by decide +kernel) (fs := structNames.tail) rfl (by decide +kernel)
  exact ⟨⟨⟨set_wf shown.wf, (g_set_apart shown.wf (by decide +kernel)).trans shown.state, shown.faulty⟩,
    g_set_same shown.wf (by decide +kernel)⟩, (g_set_apart shown.wf (by decide +kernel)).trans reason⟩

/-- A dry run starts whether a load counts or not (R40). -/
theorem checkStart_dry {m : Mach} : Ends (checkStart true) m fun _ m1 =>
    m1.faulty = m.faulty ∧ m1.ldr.checking = some true ∧ m1.ldr.listening = false := by
  refine Ends.getM ?_
  rw [if_neg (by simp)]
  exact Ends.modLdr ⟨rfl, rfl, rfl⟩

/-- The end of the check of an enable: refused with what it found, APPLYING where it found nothing and no partner is to be heard. -/
theorem structCheckDone_enable {m : Mach} (hc : regsWf m.regs = true) (h : m.ldr.checking = some false)
    (hl : m.ldr.listening = false) : Ends structCheckDone m fun _ m1 =>
      (phases m.fuse (itemsNow m) ≠ none → Disabled m m1) ∧
      (phases m.fuse (itemsNow m) = none → m.g TWN_CFG_PAIRED = 0 → Stands stAPPLYING m m1) := by
  refine Ends.getM ?_
  rw [h]
  dsimp only
  rw [if_pos hl]
  cases hp : phases m.fuse (itemsNow m) with
  | some c => exact (checkFinish_refused hc).imp fun _ _ d => ⟨fun _ => d.1, nofun⟩
  | none =>
    refine Ends.ite (fun hpair => Ends.modLdr ⟨fun h => absurd rfl h, fun _ h0 => absurd (hpair.symm.trans h0) (by decide)⟩)
      fun _ => (checkFinish_passed hc).imp fun _ _ a => ⟨fun h => absurd rfl h, fun _ _ => a⟩

/-- The end of a dry run. -/
theorem structCheckDone_dry {m : Mach} (hc : regsWf m.regs = true) (h : m.ldr.checking = some true)
    (hl : m.ldr.listening = false) : Ends structCheckDone m fun _ m1 =>
      (phases m.fuse (itemsNow m) ≠ none → m1.g GLB_STRUCT_STATUS_DRY_OK = 0) ∧
      (phases m.fuse (itemsNow m) = none → m.g TWN_CFG_PAIRED = 0 → m1.g GLB_STRUCT_STATUS_DRY_OK = 1) := by
  refine Ends.getM ?_
  rw [h]
  dsimp only
  rw [if_pos hl]
  cases hp : phases m.fuse (itemsNow m) with
  | some c => exact (checkFinish_dry hc).imp fun _ _ d => ⟨fun _ => d.2, nofun⟩
  | none =>
    refine Ends.ite (fun hpair => Ends.modLdr ⟨fun h => absurd rfl h, fun _ h0 => absurd (hpair.symm.trans h0) (by decide)⟩)
      fun _ => (checkFinish_dry hc).imp fun _ _ d => ⟨fun h => absurd rfl h, fun _ _ => d.2⟩

/-- A dry run that has heard no partner when it ends listening passes (R37). -/
theorem phase11ListenEnd_unheard {m : Mach} (hc : regsWf m.regs = true) (h : m.ldr.checking = some true)
    (hl : m.ldr.listening = true) (hh : m.ldr.heard = false) : Ends phase11ListenEnd m fun _ m1 =>
      m1.ldr.checking = none ∧ m1.g GLB_STRUCT_STATUS_DRY_OK = 1 := by
  refine Ends.getM ?_
  rw [h]
  dsimp only
  rw [if_pos hl, if_neg (by simp [hh])]
  exact Ends.onlyIf (fun _ => checkFinish_dry hc) fun h => absurd rfl h

/-! The effect of GLB_STRUCT_CTL (Table 2.5, R39, R40). -/

section
variable {m : Mach} {cmd : Nat}

theorem structEffect_enable (h : bitsAt cmd 1 1 ≠ 1) (hs : m.g GLB_STRUCT_STATUS_STATE = stDISABLED)
    (he : m.g GLB_STRUCT_CTL_ENABLE = 1) : SameAt m (structEffect cmd) (checkStart false) := fun k => by
  simp only [structEffect, bind_at, getM_at, run_look, if_neg h, if_pos (And.intro hs he)]

theorem structEffect_disable (h : bitsAt cmd 1 1 ≠ 1) (hs : m.g GLB_STRUCT_STATUS_STATE = stENABLED)
    (he : m.g GLB_STRUCT_CTL_ENABLE = 0) : SameAt m (structEffect cmd) disableStart := fun k => by
  have off : ¬(m.g GLB_STRUCT_STATUS_STATE = stDISABLED ∧ m.g GLB_STRUCT_CTL_ENABLE = 1) := by
    rw [hs]
    exact fun h => absurd h.1 (by decide)
  simp only [structEffect, bind_at, getM_at, run_look, if_neg h, if_neg off, onlyIf_at, if_pos (And.intro hs he)]

theorem structEffect_check (h : bitsAt cmd 1 1 = 1) : SameAt m (structEffect cmd) (checkStart true) := fun k => by
  simp only [structEffect, bind_at, getM_at, run_look, if_pos h]

end

/-! Loads (R32, R33, R45). -/

theorem loadStart_ends {m : Mach} {cmd code : Nat} (hc : regsWf m.regs = true) : Ends (loadStart cmd code) m fun _ m1 =>
    m1.faulty = m.faulty ∧ m1.ldr.running = some (cmd, code) ∧ m1.g MLD_STATUS_STATE = 1 :=
  Ends.bind (Q := fun _ m1 => m1 = (Upd.ldr _).apply m) (Ends.modLdr rfl) fun _ _ h1 =>
    Ends.wr ⟨h1 ▸ rfl, h1 ▸ rfl, g_set_same (h1 ▸ hc) (by decide +kernel)⟩

/-- What a refused load shows, where it is no boot load. -/
theorem loadRefuse_ends {m : Mach} {cmd reason sect item : Nat} {pol part : Bool} (hc : regsWf m.regs = true)
    (hb : m.ldr.boot = 0) : Ends (loadRefuse cmd reason sect item pol part) m fun _ m1 =>
      m1.ldr.accepted = m.ldr.accepted ∧ m1.ldr.running = none ∧ m1.g MLD_STATUS_STATE = 3 ∧
      m1.g MLD_STATUS_REASON = reason % 2 ^ 16 := by
  refine Ends.getM (loadShow_ends.bind fun _ m1 h1 => ?_)
  -- STATE is stored, then REASON, then the rest
  obtain ⟨l, hl, after⟩ : ∃ l, l.map Prod.fst = loadNames.tail ∧
      m1 = (m.set MLD_STATUS_STATE 3).sets ((MLD_STATUS_REASON, reason) :: l) :=
    ⟨loadNames.tail.zip [sect, item, if pol then 1 else 0, if part then 1 else 0], rfl, h1.trans sets_cons⟩
  have names : ((MLD_STATUS_REASON, reason) :: l).map Prod.fst = loadNames := congrArg (MLD_STATUS_REASON :: ·) hl
  have wf := set_wf (f := MLD_STATUS_STATE) (x := 3) hc
  have ldr : m1.ldr = m.ldr := by
    rw [after]
    exact Via.ldr_kept (A := .of [.MLD_STATUS] []) (m1 := m.set MLD_STATUS_STATE 3)
      (sets_via names (by decide +kernel))
  have state : m1.g MLD_STATUS_STATE = 3 := by
    rw [after, sets_apart wf names (by decide +kernel)]
    exact g_set_same hc (by decide +kernel)
  have shown : m1.g MLD_STATUS_REASON = reason % 2 ^ 16 := by
    rw [after]
    exact sets_same wf (by decide +kernel) hl (by decide +kernel)
  refine Ends.bind (Q := fun _ m2 => m2 = (Upd.ldr _).apply m1) (Ends.modLdr rfl) fun _ m2 h2 =>
    Ends.onlyIf (fun h => absurd hb h.1) fun _ => ?_
  rw [h2]
  exact ⟨by rw [← ldr]; rfl, rfl, state, shown⟩

/-- ABORT stops the load that runs, and a check ends with it (R33, R39). -/
theorem abortLoad_ends {m : Mach} (hc : regsWf m.regs = true) (hr : m.ldr.running.isSome = true) :
    Ends abortLoad m fun _ m1 => m1.faulty = m.faulty ∧ m1.ldr.running = none ∧ m1.g MLD_STATUS_STATE = 3 := by
  refine Ends.getM (Ends.bind (Q := fun _ m1 => regsWf m1.regs = true ∧ m1.faulty = m.faulty ∧ m1.ldr.running = none ∧
    m1.g MLD_STATUS_STATE = 3) (Ends.onlyIf (fun _ => ?_) fun h => absurd hr h) fun _ m1 ⟨wf, faulty, running, state⟩ => ?_)
  · refine Ends.bind (Q := fun _ m1 => m1 = (Upd.ldr _).apply m) (Ends.modLdr rfl) fun _ m1 h1 =>
      loadShow_ends.imp fun _ m2 h2 => ?_
    have wf : regsWf m1.regs = true := h1 ▸ hc
    have ldr : m2.ldr = m1.ldr := Via.ldr_kept (A := .of [.MLD_STATUS] []) (h2 ▸ sets_via rfl (by decide +kernel))
    exact ⟨h2 ▸ sets_wf wf, h2 ▸ sets_faulty.trans (h1 ▸ rfl), by rw [ldr, h1]; rfl,
      h2 ▸ sets_same wf (by decide +kernel) rfl (by decide +kernel)⟩
  · refine Ends.onlyIf (fun _ => ?_) fun _ => ⟨faulty, running, state⟩
    refine (checkFinish_refused wf).imp fun _ m2 ⟨off, via⟩ => ⟨off.faulty.trans faulty, ?_, ?_⟩
    · rw [via.ldr_kept]
      exact running
    · rw [via.g_kept MLD_STATUS_STATE]
      exact state

end Sys2Proof.Machine
end

section
/-!
SUPPORT. What a step that raises nothing shows outside the block, and what a read answers (R457).
-/
namespace Sys2Proof.Machine

-- One declaration at a time: proofs that compute in the kernel wait for it, each with a stack of its own.
set_option Elab.async false

variable {m m1 : Mach} {A : Mask}

/-! Steps without a record. -/

/-- No record waits, and no fence is due. -/
structure Calm (m : Mach) : Prop where
  told : m.evPend = []
  due : m.feDue = false

theorem State.Inv.sent {s : State} (hi : s.Inv) : Calm ((Upd.out []).apply s.m) := ⟨hi.told, hi.calm⟩

theorem Calm.kept (h : Calm m) (v : Via A.has m m1) (he : A.hasTab .evPend = false := by decide +kernel)
    (hf : A.hasTab .feDue = false := by decide +kernel) : Calm m1 :=
  ⟨(show m1.evPend = m.evPend from v.tab_kept .evPend he).trans h.told,
    (show m1.feDue = m.feDue from v.tab_kept .feDue hf).trans h.due⟩

/-- Where nothing waits, the end of the step sets the output pins and no more. -/
theorem Calm.settle (h : Calm m) : ∃ v, Prog.run (toProg settle) m = (Upd.pins v).apply m := by
  obtain ⟨v, hv⟩ := pinsShow_run m fun _ => .done
  have due : (Upd.feDue false).apply m = m := by
    rw [← h.due]
    rfl
  refine ⟨v, ?_⟩
  calc Prog.run (toProg Machine.settle) m
    _ = Prog.run (feFence fun _ => pinsShow fun _ => .done) m :=
      evFlush_calm h.told fun _ => feFence fun _ => pinsShow fun _ => .done
    _ = Prog.run (pinsShow fun _ => .done) m := by simp [feFence, h.due]
    _ = (Upd.pins v).apply m := hv.trans (congrArg (Upd.pins v).apply due)

/-- What holds where a command's program ends that raises nothing holds at the end of its step, but for the output pins. -/
theorem does_calm {c : Instr} {x : P Unit} {s : State} {Q R : Mach → Prop}
    (hp : Ends x ((Upd.out []).apply s.m) fun _ m1 => Calm m1 ∧ Q m1) (hQ : ∀ m1 v, Q m1 → R ((Upd.pins v).apply m1))
    (hx : exec c s = Machine.cmd x s := by rfl) : Does c s R := by
  obtain ⟨_, m1, h1, calm, q⟩ := hp fun _ => toProg Machine.settle
  obtain ⟨v, hv⟩ := calm.settle
  refine ⟨_, hx.trans (cmd_run x s), rfl, ?_⟩
  change R (Prog.run (x fun _ => toProg Machine.settle) ((Upd.out []).apply s.m))
  rw [h1, hv]
  exact hQ m1 v q

theorem emit_ends {o : Out} : Ends (emit o) m fun _ m1 => m1 = (Upd.out (m.out ++ [o])).apply m := fun _ => ⟨(), _, rfl, rfl⟩

/-! The staging memory (R45). -/

theorem stageWrite_ends {w : Word} (hc : regsWf m.regs = true) (hs : twf 0#64 m.stage = true) :
    Ends (stageWrite w) m fun _ m1 => m1.faulty = m.faulty ∧ m1.getStage (m.g MLD_STAGE_ADDR_ADDR) = w ∧
      m1.g MLD_STAGE_ADDR_ADDR = (m.g MLD_STAGE_ADDR_ADDR + 1) % 2 ^ 19 := fun _ =>
  ⟨(), (((Upd.stage (m.g MLD_STAGE_ADDR_ADDR) w).apply m).set MLD_STAGE_DATA_DATA 0).set MLD_STAGE_ADDR_ADDR
    (m.g MLD_STAGE_ADDR_ADDR + 1), rfl, rfl, tget_tput_same hs, g_set_same (set_wf hc) (by decide +kernel)⟩

theorem stageRead_ends (hc : regsWf m.regs = true) : Ends stageRead m fun _ m1 =>
    m1.g MLD_STAGE_ADDR_ADDR = (m.g MLD_STAGE_ADDR_ADDR + 1) % 2 ^ 19 ∧ Via Feet.stageRead.has m m1 := fun _ =>
  ⟨_, m.set MLD_STAGE_ADDR_ADDR (m.g MLD_STAGE_ADDR_ADDR + 1), rfl, g_set_same hc (by decide +kernel),
    .head (by rw [Mask.has_reg]; decide +kernel) (.refl _)⟩

/-- A word that is written whole is what was written. -/
theorem w64_maskIn_whole (old : Nat) (v : Word) : w64 (maskIn old v.toNat (2 ^ 64 - 1)) = v := by
  refine BitVec.eq_of_toNat_eq (Nat.eq_of_testBit_eq fun n => ?_)
  rw [w64, BitVec.toNat_ofNat, Nat.testBit_mod_two_pow, testBit_maskIn, Nat.testBit_two_pow_sub_one]
  by_cases h : n < 64
  · simp [h]
  · simp [h, BitVec.testBit_toNat, BitVec.getLsbD_of_ge _ _ (Nat.le_of_not_lt h)]

/-! Reads. -/

section
variable {p : Path} {r : Reg}

/-- A read of a whole register that its path reaches. -/
theorem ctlRead_at (hat : regAt r.addr = some r) (h8 : r.addr % 8 = 0) (h : reaches m p r.addr false 0 = true) :
    SameAt m (ctlRead p r.addr 8) (do
      let v ← readNow r
      readEffect r
      return v) := fun k => by
  simp only [ctlRead, bind_at, getM_at, run_look, h, regAt_aligned h8 hat, h8, Bool.true_eq_false, if_false, and_self,
    not_true_eq_false, false_and, if_true, onlyIf_at]

/-- What such a read finds is sent, after what the read does to the register. -/
theorem regRead_ends {v : Nat} {Q : Mach → Prop} (hat : regAt r.addr = some r) (h8 : r.addr % 8 = 0)
    (h : reaches m p r.addr false 0 = true) (hv : SameAt m (readNow r) (pure v)) (he : Ends (readEffect r) m fun _ => Q) :
    Ends (regRead p r.addr 8) m fun _ m1 => ∃ m2, Q m2 ∧ m1 = (Upd.out (m2.out ++ [.read r.addr v])).apply m2 := by
  have found : Ends (ctlRead p r.addr 8) m fun n m2 => n = v ∧ Q m2 :=
    Ends.same (ctlRead_at hat h8 h) ((Ends.same hv (Ends.pure (Q := fun n m1 => n = v ∧ m1 = m) ⟨rfl, rfl⟩)).bind
      fun n m1 ⟨hn, hm⟩ => (hm ▸ he).bind fun _ m2 q => Ends.pure ⟨hn, q⟩)
  exact found.bind fun n m2 ⟨hn, q⟩ => emit_ends.imp fun _ m3 h3 => ⟨m2, q, hn ▸ h3⟩

/-- A register that CORE serves reads as it stands while CORE is ON (R458). -/
theorem liveRead_core (hf : r.k.desc.blk ≠ .FWM) (hd : regDom r = 2) (h : domOn m 2 = true) : liveRead m r = liveReg m r := by
  have reachable : regReachable m r = true := by simp [regReachable, hf, h]
  simp [liveRead, reachable, hd, h]

/-- What was sent is no part of what a register reads as. -/
theorem liveRead_sent (l : List Out) : liveRead ((Upd.out l).apply m) r = liveRead m r := by
  have live : liveReg ((Upd.out l).apply m) r = liveReg m r := by
    unfold liveReg
    split <;> rfl
  simp only [liveRead, live]
  rfl

end

end Sys2Proof.Machine
end

section
/-!
What loads and the structure control do (R30-R40, Table 2.5; O2).
-/
namespace Sys2Proof.Machine

-- One declaration at a time: proofs that compute in the kernel wait for it, each with a stack of its own.
set_option Elab.async false

variable {s : State} {p : Path} {m m2 : Mach} {r : Reg} {d n : Nat}

/-! The block as the effect of a write of the loader or of structure finds it. -/

/-- Where a write landed the loader stands as it did. -/
theorem Landed.ldr (hw : Landed m r d n m2) : m2.ldr = m.ldr := hw.via.tab_same (T := .ldr) (by decide +kernel)

/-- A register that the write did not name stands. -/
theorem Landed.g_other (hw : Landed m r d n m2) {f : RF} (h : (⟨f.k, f.i⟩ : Reg) ≠ r)
    (hf : Feet.stored.hasReg f.k = false := by decide +kernel) : m2.g f = m.g f :=
  hw.via.g_eq f fun _ => by simp [At.has, Mask.has_reg, hf, h]

/-- The source of a write does not depend on it. -/
theorem Landed.pathCode (hw : Landed m r d n m2) (h : (⟨.GLB_ARB_CFG, 0⟩ : Reg) ≠ r) :
    Machine.pathCode m2 p = Machine.pathCode m p := by
  cases p with
  | bar0 v => simp only [Machine.pathCode, hw.g_other (f := GLB_ARB_CFG_FM_VCS) h]
  | _ => rfl

/-! The commands of the loader (R32, R33). -/

/-- A command of the loader starts the load that it names. -/
theorem load_does {c : Instr} (hi : s.Inv) (hl : LandsIn s.m p MLD_CTL_CMD n)
    (h : bitsAt (n % 2 ^ 4 * 2 ^ 0 &&& MLD_CTL_CMD.bits) 0 4 = n ∧ 1 ≤ n ∧ n ≤ 3)
    (hx : exec c s = cmd (fieldWrite p MLD_CTL_CMD n) s) :
    Does c s fun t => t.ldr.running = some (n, pathCode s.m p) ∧ t.g MLD_STATUS_STATE = 1 := by
  refine does_fieldWrite hi hl (Q := fun m1 => m1.ldr.running = some (n, pathCode s.m p) ∧ m1.g MLD_STATUS_STATE = 1)
    (fun m m2 hm hw => Ends.getM ?_) (fun m1 m2 q v => by rw [v.ldr_kept, v.g_kept MLD_STATUS_STATE]; exact q) (hx := hx)
  have load : mldEffect (n % 2 ^ 4 * 2 ^ 0 &&& MLD_CTL_CMD.bits) (pathCode m2 p) = loadStart n (pathCode s.m p) := by
    rw [mldEffect, h.1, hw.pathCode (by decide), hm]
    simp only [h.2, and_self, if_true, if_neg (show ¬n = 4 by omega)]
    rfl
  rw [if_pos rfl, load]
  exact loadStart_ends hw.wf

theorem abort_does (hi : s.Inv) (hl : LandsIn s.m p MLD_CTL_CMD 4) (hr : s.m.ldr.running.isSome = true) :
    Does (.abort p) s fun t => t.ldr.running = none ∧ t.g MLD_STATUS_STATE = 3 := by
  refine does_fieldWrite hi hl (Q := fun m1 => m1.ldr.running = none ∧ m1.g MLD_STATUS_STATE = 3)
    (fun m m2 hm hw => ?_) fun m1 m2 q v => by rw [v.ldr_kept, v.g_kept MLD_STATUS_STATE]; exact q
  exact abortLoad_ends hw.wf (by rw [hw.ldr, hm]; exact hr)

/-- The end of a load that waits for no fence accepts a full image that verifies, and refuses one that does not. -/
theorem imageLoadDone_does {image : Image} {cmd code : Nat} (hi : s.Inv) (hr : s.m.ldr.running = some (cmd, code))
    (hf : s.m.ldr.fence = 0) (hs : s.m.g GLB_STRUCT_STATUS_STATE = stDISABLED) :
    let v := loadVerified s.m cmd image.bytes
    Does (.imageLoadDone image) s fun t =>
      (v.reason = 0 → v.pol = false →
        t.ldr.accepted = true ∧ t.ldr.running = none ∧ t.g MLD_STATUS_STATE = 2 ∧ t.ldr.items = v.items) ∧
      (v.reason ≠ 0 → s.m.ldr.boot = 0 →
        t.ldr.accepted = s.m.ldr.accepted ∧ t.ldr.running = none ∧ t.g MLD_STATUS_STATE = 3 ∧
        t.g MLD_STATUS_REASON = v.reason % 2 ^ 16) := by
  intro v
  have wf : regsWf ((Upd.out []).apply s.m).regs = true := hi.canon.regs
  refine does_settled (x := imageLoadDone image.bytes) (Q := fun m1 =>
      (v.reason = 0 → v.pol = false → Accepted v ((Upd.out []).apply s.m) m1) ∧
      (v.reason ≠ 0 → s.m.ldr.boot = 0 → m1.ldr.accepted = s.m.ldr.accepted ∧ m1.ldr.running = none ∧
        m1.g MLD_STATUS_STATE = 3 ∧ m1.g MLD_STATUS_REASON = v.reason % 2 ^ 16))
    (Ends.same (imageLoadDone_at hr) ?_) fun m1 m2 ⟨acc, ref⟩ u => ?_
  · rw [if_pos (show ((Upd.out []).apply s.m).ldr.fence = 0 from hf), if_neg fun h => h.2 hs]
    change Ends (loadDecide cmd code _ v) _ _
    unfold loadDecide
    by_cases hv : v.reason = 0
    · rw [if_neg (not_not.2 hv)]
      refine Ends.ite (fun hp => ?_) fun _ => ?_
      · exact (policyLoad_runs.ends _).imp fun _ _ _ => ⟨fun _ h => absurd (hp.symm.trans h) (by decide), fun h => absurd hv h⟩
      · exact (imageAccept_ends wf).imp fun _ _ acc => ⟨fun _ _ => acc, fun h => absurd hv h⟩
    · rw [if_pos hv]
      by_cases hb : s.m.ldr.boot = 0
      · exact (loadRefuse_ends wf hb).imp fun _ _ ref => ⟨fun h => absurd h hv, fun _ _ => ref⟩
      · exact ((loadRefuse_only _ _ _ _ _ _).ends _).imp fun _ _ _ => ⟨fun h => absurd h hv, fun _ h => absurd h hb⟩
  · rw [u.ldr_kept, u.g_kept MLD_STATUS_STATE, u.g_kept MLD_STATUS_REASON]
    exact ⟨fun h hp => ⟨(acc h hp).accepted, (acc h hp).running, (acc h hp).state, (acc h hp).items⟩, ref⟩

/-! The staging memory (R45). -/

theorem stageWrite_does {v : Word} (hi : s.Inv) (hl : Lands s.m p ⟨.MLD_STAGE_DATA, 0⟩ v.toNat (2 ^ 64 - 1)) :
    Does (.stageDataAccess p (some v)) s fun t =>
      t.getStage (s.m.g MLD_STAGE_ADDR_ADDR) = v ∧
      t.g MLD_STAGE_ADDR_ADDR = (s.m.g MLD_STAGE_ADDR_ADDR + 1) % 2 ^ 19 := by
  refine does_write (r := ⟨.MLD_STAGE_DATA, 0⟩) (data := v) (mask := BitVec.allOnes 64) hi (by decide) hl
    (Q := fun m1 => m1.getStage (s.m.g MLD_STAGE_ADDR_ADDR) = v ∧
      m1.g MLD_STAGE_ADDR_ADDR = (s.m.g MLD_STAGE_ADDR_ADDR + 1) % 2 ^ 19)
    (fun m m2 hm hw => Ends.getM ?_) fun m1 m2 q u => by rw [u.stage_kept, u.g_kept MLD_STAGE_ADDR_ADDR]; exact q
  have addr : m2.g MLD_STAGE_ADDR_ADDR = s.m.g MLD_STAGE_ADDR_ADDR := (hw.g_other (by decide)).trans (hm ▸ rfl)
  have stage : twf 0#64 m2.stage = true := by
    rw [show m2.stage = m.stage from hw.via.tab_same (T := .stage) (by decide +kernel), hm]
    exact hi.canon.stage
  have whole : (BitVec.allOnes 64).toNat &&& namedBits .MLD_STAGE_DATA = 2 ^ 64 - 1 := by decide +kernel
  have data : v.toNat &&& (BitVec.allOnes 64).toNat = v.toNat := by
    rw [show (BitVec.allOnes 64).toNat = 2 ^ 64 - 1 from rfl, Nat.and_two_pow_sub_one_eq_mod, Nat.mod_eq_of_lt v.isLt]
  rw [whole, data, w64_maskIn_whole, ← addr]
  exact stageWrite_ends hw.wf stage

theorem stageRead_does (hi : s.Inv) (hr : reaches s.m p (⟨.MLD_STAGE_DATA, 0⟩ : Reg).addr false 0 = true)
    (hd : domOn s.m 2 = true) :
    Does (.stageDataAccess p none) s fun t =>
      Out.read (⟨.MLD_STAGE_DATA, 0⟩ : Reg).addr (s.m.getStage (s.m.g MLD_STAGE_ADDR_ADDR)).toNat ∈ t.out ∧
      t.g MLD_STAGE_ADDR_ADDR = (s.m.g MLD_STAGE_ADDR_ADDR + 1) % 2 ^ 19 := by
  refine does_calm (x := regRead p (⟨.MLD_STAGE_DATA, 0⟩ : Reg).addr 8) (Q := fun m1 =>
    Out.read (⟨.MLD_STAGE_DATA, 0⟩ : Reg).addr (s.m.getStage (s.m.g MLD_STAGE_ADDR_ADDR)).toNat ∈ m1.out ∧
      m1.g MLD_STAGE_ADDR_ADDR = (s.m.g MLD_STAGE_ADDR_ADDR + 1) % 2 ^ 19) ?_ fun _ _ q => q
  have value : liveRead ((Upd.out []).apply s.m) ⟨.MLD_STAGE_DATA, 0⟩ = (s.m.getStage (s.m.g MLD_STAGE_ADDR_ADDR)).toNat := by
    rw [liveRead_sent, liveRead_core (by decide) (by decide +kernel) hd]
    rfl
  have read : SameAt ((Upd.out []).apply s.m) (readNow ⟨.MLD_STAGE_DATA, 0⟩)
      (pure (s.m.getStage (s.m.g MLD_STAGE_ADDR_ADDR)).toNat) := fun k => by
    rw [← value]
    rfl
  have advance : Ends (readEffect ⟨.MLD_STAGE_DATA, 0⟩) ((Upd.out []).apply s.m) fun _ m1 =>
      m1.g MLD_STAGE_ADDR_ADDR = (s.m.g MLD_STAGE_ADDR_ADDR + 1) % 2 ^ 19 ∧ Calm m1 :=
    (stageRead_ends (m := (Upd.out []).apply s.m) hi.canon.regs).bind fun _ _ q => Ends.pure ⟨q.1, hi.sent.kept q.2⟩
  refine (regRead_ends (m := (Upd.out []).apply s.m) (by decide +kernel) (by decide +kernel) hr read advance).imp fun _ m1 ⟨m2, q, h⟩ => ?_
  subst h
  exact ⟨⟨q.2.told, q.2.due⟩, by simp, q.1⟩

/-! Structure (Table 2.5). -/

theorem structEnable_does (hi : s.Inv) (hl : LandsIn s.m p GLB_STRUCT_CTL_ENABLE 1)
    (hs : s.m.g GLB_STRUCT_STATUS_STATE = stDISABLED) (ha : s.m.ldr.accepted = true) :
    Does (.structEnable p) s fun t => t.g GLB_STRUCT_STATUS_STATE = stCHECKING ∧ t.ldr.checking = some false := by
  refine does_fieldWrite hi hl (Q := fun m1 => m1.g GLB_STRUCT_STATUS_STATE = stCHECKING ∧ m1.ldr.checking = some false)
    (fun m m2 hm hw => ?_) fun m1 m2 q v => by rw [v.ldr_kept, v.g_kept GLB_STRUCT_STATUS_STATE]; exact q
  refine Ends.same (structEffect_enable (by decide) (hw.state.trans (hm ▸ hs)) (hw.field (by decide))) ?_
  exact (checkStart_enable hw.wf (by rw [hw.ldr, hm]; exact ha)).imp fun _ _ q => ⟨q.1.faulty, q.1.state, q.2⟩

theorem structEnable_unloaded (hi : s.Inv) (hl : LandsIn s.m p GLB_STRUCT_CTL_ENABLE 1)
    (hs : s.m.g GLB_STRUCT_STATUS_STATE = stDISABLED) (ha : s.m.ldr.accepted = false) :
    Does (.structEnable p) s fun t => t.g GLB_STRUCT_STATUS_STATE = stDISABLED ∧ t.g GLB_STRUCT_CTL_ENABLE = 0 ∧
      t.g GLB_STRUCT_STATUS_REASON = rcNOT_LOADED := by
  refine does_fieldWrite hi hl (Q := fun m1 => m1.g GLB_STRUCT_STATUS_STATE = stDISABLED ∧ m1.g GLB_STRUCT_CTL_ENABLE = 0 ∧
    m1.g GLB_STRUCT_STATUS_REASON = rcNOT_LOADED) (fun m m2 hm hw => ?_) fun m1 m2 q v => by
      rw [v.g_kept GLB_STRUCT_STATUS_STATE, v.g_kept GLB_STRUCT_CTL_ENABLE, v.g_kept GLB_STRUCT_STATUS_REASON]; exact q
  have off : m2.g GLB_STRUCT_STATUS_STATE = stDISABLED := hw.state.trans (hm ▸ hs)
  refine Ends.same (structEffect_enable (by decide) off (hw.field (by decide))) ?_
  exact (checkStart_unloaded hw.wf (by rw [hw.ldr, hm]; exact ha) off).imp fun _ _ q =>
    ⟨q.1.faulty, q.1.state, q.1.enable, q.2⟩

theorem structDisable_does (hi : s.Inv) (hl : LandsIn s.m p GLB_STRUCT_CTL_ENABLE 0)
    (hs : s.m.g GLB_STRUCT_STATUS_STATE = stENABLED) :
    Does (.structDisable p) s fun t => t.g GLB_STRUCT_STATUS_STATE = stDISABLING := by
  refine does_fieldWrite hi hl (Q := fun m1 => m1.g GLB_STRUCT_STATUS_STATE = stDISABLING) (fun m m2 hm hw => ?_)
    fun m1 m2 q v => by rw [v.g_kept GLB_STRUCT_STATUS_STATE]; exact q
  refine Ends.same (structEffect_disable (by decide) (hw.state.trans (hm ▸ hs)) (hw.field (by decide))) ?_
  exact (disableStart_ends hw.wf).imp fun _ _ q => ⟨q.faulty, q.state⟩

theorem structCheck_does (hi : s.Inv) (hl : LandsIn s.m p GLB_STRUCT_CTL_CHECK 1) :
    Does (.structCheck p) s fun t => t.ldr.checking = some true ∧ t.ldr.listening = false :=
  does_fieldWrite hi hl (Q := fun m1 => m1.ldr.checking = some true ∧ m1.ldr.listening = false)
    (fun _ _ _ _ => Ends.same (structEffect_check (by decide)) checkStart_dry) fun m1 m2 q v => by rw [v.ldr_kept]; exact q

theorem structCheckDone_does (hi : s.Inv) {dry : Bool} (h : s.m.ldr.checking = some dry) (hl : s.m.ldr.listening = false) :
    Does .structCheckDone s fun t =>
      if dry then
        (phases s.m.fuse (itemsNow s.m) ≠ none → t.g GLB_STRUCT_STATUS_DRY_OK = 0) ∧
        (phases s.m.fuse (itemsNow s.m) = none → s.m.g TWN_CFG_PAIRED = 0 → t.g GLB_STRUCT_STATUS_DRY_OK = 1)
      else
        (phases s.m.fuse (itemsNow s.m) ≠ none →
          t.g GLB_STRUCT_STATUS_STATE = stDISABLED ∧ t.g GLB_STRUCT_CTL_ENABLE = 0) ∧
        (phases s.m.fuse (itemsNow s.m) = none → s.m.g TWN_CFG_PAIRED = 0 →
          t.g GLB_STRUCT_STATUS_STATE = stAPPLYING) := by
  have wf : regsWf ((Upd.out []).apply s.m).regs = true := hi.canon.regs
  cases dry with
  | true =>
    refine does_settled (structCheckDone_dry wf h hl) fun m1 m2 q v => ?_
    rw [v.g_kept GLB_STRUCT_STATUS_DRY_OK]
    exact q
  | false =>
    refine does_settled (structCheckDone_enable wf h hl) fun m1 m2 q v => ?_
    rw [v.g_kept GLB_STRUCT_STATUS_STATE, v.g_kept GLB_STRUCT_CTL_ENABLE]
    exact ⟨fun h => ⟨(q.1 h).state, (q.1 h).enable⟩, fun h hp => (q.2 h hp).state⟩

/-- Settles O2: a command of the loader starts or stops a load, its end shows what its verification found, the staging memory
takes and gives words in order, and structure goes through the states of Table 2.5. -/
theorem loadsAndStructureComplete : Obligations.LoadsAndStructureComplete := by
  intro s hi
  have wf : regsWf ((Upd.out []).apply s.m).regs = true := hi.canon.regs
  refine ⟨fun p hl => load_does hi hl (by decide) rfl, fun p hl => load_does hi hl (by decide) rfl,
    fun p hl => load_does hi hl (by decide) rfl, fun p hl => abort_does hi hl,
    fun image cmd code hr hf hs => imageLoadDone_does hi hr hf hs, fun p v hl => stageWrite_does hi hl,
    fun p hr hd => stageRead_does hi hr hd, fun p hl hs ha => structEnable_does hi hl hs ha,
    fun p hl hs => structDisable_does hi hl hs, fun p hl hs ha => structEnable_unloaded hi hl hs ha,
    fun p hl => structCheck_does hi hl, fun dry h hl => structCheckDone_does hi h hl, fun h hl hh => ?_, fun h hr => ?_,
    fun h hr => ?_⟩
  · exact does_settled (phase11ListenEnd_unheard wf h hl hh) fun m1 m2 q v => by
      rw [v.ldr_kept, v.g_kept GLB_STRUCT_STATUS_DRY_OK]
      exact q
  · exact does_settled (applyingDone_ends wf h hr) fun m1 m2 q v => (v.g_kept GLB_STRUCT_STATUS_STATE).trans q.state
  · exact does_settled (disablingDone_ends wf h hr) fun m1 m2 q v =>
      ⟨(v.g_kept GLB_STRUCT_STATUS_STATE).trans q.state, (v.g_kept GLB_STRUCT_CTL_ENABLE).trans q.enable⟩

end Sys2Proof.Machine
end

section
/-!
SUPPORT. What the operations of the Kerb and of the slices lead to: fences, switches of slices, and clears (R284, R290-R297, R302).
-/
namespace Sys2Proof.Machine

-- One declaration at a time: proofs that compute in the kernel wait for it, each with a stack of its own.
set_option Elab.async false

section
variable {m : Mach} {f : RF} {x : Nat} {l l' : List (RF × Nat)}

theorem sets_append : m.sets (l ++ l') = (m.sets l).sets l' := List.foldl_append

/-- A field holds what was stored in it last, with stores before it and after it. -/
theorem sets_last {fs : List RF} (h : regsWf m.regs = true) (hf : f.storable = true) (hn : l'.map Prod.fst = fs)
    (ha : fs.all (·.apart f) = true) : (m.sets (l ++ (f, x) :: l')).g f = x % 2 ^ f.w := by
  rw [sets_append]
  exact sets_same (sets_wf h) hf hn ha

end

/-! The fence (R290-R295). -/

theorem fenceGo_ends {m : Mach} (hc : regsWf m.regs = true) : Ends fenceGo m fun _ m1 =>
    m1.faulty = m.faulty ∧ m1.g KRB_FENCE_STATUS_STATE = 1 ∧ m1.g KRB_FENCE_STATUS_RESULT = 0 := fun _ =>
  ⟨(), (m.set KRB_FENCE_STATUS_STATE 1).set KRB_FENCE_STATUS_RESULT 0, rfl, rfl,
    (g_set_apart (set_wf hc) (by decide +kernel)).trans (g_set_same hc (by decide +kernel)),
    g_set_same (set_wf hc) (by decide +kernel)⟩

/-- The fields that show a check of the staged windows. -/
def fenceNames : List RF := [KRB_FENCE_STATUS_REASON, KRB_FENCE_STATUS_WINDOW, KRB_FENCE_STATUS_OTHER, KRB_FENCE_ADDR_ADDR]

theorem fenceShow_ends {m : Mach} {reason w other a : Nat} :
    Ends (fenceShow reason w other a) m fun _ m1 => m1 = m.sets (fenceNames.zip [reason, w, other, a]) :=
  fun _ => ⟨(), _, rfl, rfl⟩

/-- The switch to the staged windows turns the epoch. -/
theorem fenceSwitch_ends {m : Mach} (hc : regsWf m.regs = true) : Ends fenceSwitch m fun _ m1 =>
    regsWf m1.regs = true ∧ m1.g KRB_FENCE_STATUS_EPOCH = 1 - m.g KRB_FENCE_STATUS_EPOCH := by
  have copies (ns : List Nat) : Only (Mask.of [.KRB_CWIN] []).has (each ns fun n =>
      onlyIf (bitsAt (m.g (KRB_CWIN_WORD (n * 4 + 2))) 12 1 = 0)
        (each (List.range 4) fun w => wr (KRB_CWIN_WORD (n * 4 + w)) (m.g (KRB_WIN_WORD (n * 4 + w))))) :=
    Only.each fun _ _ => Only.onlyIf (Only.each fun _ _ => Only.wrK .KRB_CWIN rfl (by decide +kernel))
  refine Ends.getM (((copies _).ends m).bind fun _ m1 v => Ends.wr ⟨set_wf (v.regs_wf hc), ?_⟩)
  exact (g_set_same (v.regs_wf hc) (by decide +kernel)).trans
    (Nat.mod_eq_of_lt (Nat.lt_of_le_of_lt (Nat.sub_le _ _) (by decide)))

/-- What the load that may wait for a fence does at its check, where there is none or the check goes on, is nothing. -/
theorem fenceCheckRow_ends {m : Mach} {Q : Mach → Prop} (h : Ends fenceCheckDone m fun _ => Q)
    (hq : ∀ m1, Q m1 → m1.g KRB_FENCE_STATUS_STATE = 0 → m1.ldr.running = none ∨ m1.ldr.fence = 0) :
    Ends fenceCheckRow m fun _ => Q := by
  refine h.bind fun _ m1 q => Ends.getM ?_
  split
  case h_1 hr =>
    refine Ends.onlyIf (fun hs => ?_) fun _ => q
    have idle : m1.ldr.fence = 0 := (hq m1 q hs).resolve_left (by simp [hr])
    exact Ends.ite (fun h2 => absurd (idle.symm.trans h2) (by decide)) fun _ =>
      Ends.onlyIf (fun h1 => absurd (idle.symm.trans h1) (by decide)) fun _ => q
  case h_2 => exact Ends.pure q

/-- Whether the staged windows pass the check of a fence, and what they fail on (R293). -/
abbrev fenceVerdict (m : Mach) : Option (Nat × Nat × Nat × Nat) :=
  winCheck (fun t => m.g (TEN_STATUS_VALID t) = 1) [] (windows m .KRB_WIN)

theorem fenceCheckDone_passed {m : Mach} (hc : regsWf m.regs = true) (hs : m.g KRB_FENCE_STATUS_STATE = 1)
    (h : fenceVerdict m = none) : Ends fenceCheckDone m fun _ m1 =>
      m1.g KRB_FENCE_STATUS_STATE = 2 ∧ m1.g KRB_FENCE_STATUS_EPOCH = 1 - m.g KRB_FENCE_STATUS_EPOCH := by
  unfold fenceVerdict at h
  refine Ends.getM ?_
  rw [if_pos hs, h]
  refine fenceShow_ends.bind fun _ m1 h1 => ?_
  have wf : regsWf m1.regs = true := h1 ▸ sets_wf hc
  have epoch : m1.g KRB_FENCE_STATUS_EPOCH = m.g KRB_FENCE_STATUS_EPOCH :=
    h1 ▸ sets_apart hc (fs := fenceNames) rfl (by decide +kernel)
  refine (fenceSwitch_ends wf).bind fun _ m2 ⟨wf2, turned⟩ => Ends.wr ⟨g_set_same wf2 (by decide +kernel), ?_⟩
  rw [g_set_apart wf2 (by decide +kernel), turned, epoch]

/-- The fields that a refused check stores. -/
def fenceRefusedNames : List RF :=
  fenceNames ++ [KRB_FENCE_STATUS_STATE, KRB_FENCE_STATUS_RESULT, KRB_FENCE_CNT_REFUSED]

/-- A refused check shows what it found, and ends the fence. -/
structure FenceRefused (m : Mach) (reason w other a : Nat) (m1 : Mach) : Prop where
  state : m1.g KRB_FENCE_STATUS_STATE = 0
  result : m1.g KRB_FENCE_STATUS_RESULT = 2
  reason : m1.g KRB_FENCE_STATUS_REASON = reason % 2 ^ 16
  window : m1.g KRB_FENCE_STATUS_WINDOW = w % 2 ^ 14
  other : m1.g KRB_FENCE_STATUS_OTHER = other % 2 ^ 14
  addr : m1.g KRB_FENCE_ADDR_ADDR = a % 2 ^ 52
  epoch : m1.g KRB_FENCE_STATUS_EPOCH = m.g KRB_FENCE_STATUS_EPOCH

theorem FenceRefused.kept {m m1 m2 : Mach} {A : Mask} {reason w other a : Nat} (h : FenceRefused m reason w other a m1)
    (v : Via A.has m1 m2) (hs : A.hasReg .KRB_FENCE_STATUS = false) (ha : A.hasReg .KRB_FENCE_ADDR = false) :
    FenceRefused m reason w other a m2 where
  state := (v.g_kept KRB_FENCE_STATUS_STATE hs).trans h.state
  result := (v.g_kept KRB_FENCE_STATUS_RESULT hs).trans h.result
  reason := (v.g_kept KRB_FENCE_STATUS_REASON hs).trans h.reason
  window := (v.g_kept KRB_FENCE_STATUS_WINDOW hs).trans h.window
  other := (v.g_kept KRB_FENCE_STATUS_OTHER hs).trans h.other
  addr := (v.g_kept KRB_FENCE_ADDR_ADDR ha).trans h.addr
  epoch := (v.g_kept KRB_FENCE_STATUS_EPOCH hs).trans h.epoch

/-- What those stores leave. -/
theorem fenceRefused_sets {m : Mach} {reason w other a n : Nat} (hc : regsWf m.regs = true) :
    FenceRefused m reason w other a (m.sets (fenceRefusedNames.zip [reason, w, other, a, 0, 2, n])) where
  state := sets_last (l := fenceNames.zip [reason, w, other, a]) (fs := fenceRefusedNames.drop 5) hc (by decide +kernel) rfl
    (by decide +kernel)
  result := sets_last (l := (fenceRefusedNames.take 5).zip [reason, w, other, a, 0]) (fs := fenceRefusedNames.drop 6) hc
    (by decide +kernel) rfl (by decide +kernel)
  reason := sets_last (l := []) (fs := fenceRefusedNames.drop 1) hc (by decide +kernel) rfl (by decide +kernel)
  window := sets_last (l := (fenceRefusedNames.take 1).zip [reason]) (fs := fenceRefusedNames.drop 2) hc (by decide +kernel) rfl
    (by decide +kernel)
  other := sets_last (l := (fenceRefusedNames.take 2).zip [reason, w]) (fs := fenceRefusedNames.drop 3) hc (by decide +kernel) rfl
    (by decide +kernel)
  addr := sets_last (l := (fenceRefusedNames.take 3).zip [reason, w, other]) (fs := fenceRefusedNames.drop 4) hc
    (by decide +kernel) rfl (by decide +kernel)
  epoch := sets_apart (fs := fenceRefusedNames) hc rfl (by decide +kernel)

/-- The stores of a refused check. -/
def fenceRefuse (reason w other a : Nat) : P Unit := do
  fenceShow reason w other a
  wr KRB_FENCE_STATUS_STATE 0
  wr KRB_FENCE_STATUS_RESULT 2
  inc KRB_FENCE_CNT_REFUSED

theorem fenceRefuse_ends {m : Mach} {reason w other a : Nat} (hc : regsWf m.regs = true) :
    Ends (fenceRefuse reason w other a) m fun _ m1 => FenceRefused m reason w other a m1 ∧ m1.ldr = m.ldr := by
  have stores : Ends (fenceRefuse reason w other a) m fun _ m1 =>
      ∃ n, m1 = m.sets (fenceRefusedNames.zip [reason, w, other, a, 0, 2, n]) := fun _ => ⟨(), _, rfl, _, rfl⟩
  refine stores.imp fun _ m1 ⟨n, h1⟩ => ?_
  subst h1
  exact ⟨fenceRefused_sets hc, Via.ldr_kept (A := .of [.KRB_FENCE_STATUS, .KRB_FENCE_ADDR, .KRB_FENCE_CNT] [])
    (sets_via (fs := fenceRefusedNames) rfl (by decide +kernel))⟩

theorem fenceCheckDone_refused {m : Mach} {reason w other a : Nat} (hc : regsWf m.regs = true)
    (hs : m.g KRB_FENCE_STATUS_STATE = 1) (h : fenceVerdict m = some (reason, w, other, a)) :
    Ends fenceCheckDone m fun _ m1 => FenceRefused m reason w other a m1 ∧ m1.ldr = m.ldr := by
  unfold fenceVerdict at h
  refine Ends.getM ?_
  rw [if_pos hs, h]
  exact Ends.seq (x := fenceRefuse reason w other a) (fenceRefuse_ends hc) (fun _ => raise_only ((ev 8 0 0x0882).h24 reason))
    fun _ m1 m2 q v => ⟨q.1.kept v (by decide +kernel) (by decide +kernel), v.ldr_kept.trans q.2⟩

/-- The drain of a fence ends where no access of the old epoch is left. -/
theorem fenceDrained_ends {m : Mach} (hc : regsWf m.regs = true) (hs : m.g KRB_FENCE_STATUS_STATE = 2) (ho : oldOut m = 0) :
    Ends fenceDrained m fun _ m1 => m1.ldr = m.ldr ∧ m1.g KRB_FENCE_STATUS_STATE = 0 ∧
      m1.g KRB_FENCE_STATUS_RESULT = if m.g KRB_FENCE_STATUS_RESULT = 3 then 3 else 1 := by
  refine Ends.getM ?_
  rw [if_pos ⟨hs, ho⟩]
  refine Ends.bind (Q := fun _ m1 => m1 = m.set KRB_FENCE_STATUS_STATE 0) (Ends.wr rfl) fun _ m1 h1 =>
    Ends.bind (Q := fun _ m2 => regsWf m2.regs = true ∧ m2.ldr = m.ldr ∧ m2.g KRB_FENCE_STATUS_STATE = 0 ∧
      m2.g KRB_FENCE_STATUS_RESULT = if m.g KRB_FENCE_STATUS_RESULT = 3 then 3 else 1) ?_ fun _ m2 ⟨wf, ldr, state, result⟩ =>
    inc_ends.bind fun _ m3 h3 => Ends.pure ⟨h3 ▸ ldr, ?_, ?_⟩
  · subst h1
    have wf : regsWf (m.set KRB_FENCE_STATUS_STATE 0).regs = true := set_wf hc
    have state : (m.set KRB_FENCE_STATUS_STATE 0).g KRB_FENCE_STATUS_STATE = 0 := g_set_same hc (by decide +kernel)
    refine Ends.onlyIf (fun h => Ends.wr ⟨set_wf wf, rfl, ?_, ?_⟩) fun h => ⟨wf, rfl, state, ?_⟩
    · rw [g_set_apart wf (by decide +kernel), state]
    · rw [if_neg h, g_set_same wf (by decide +kernel)]
      decide
    · rw [if_pos (not_not.1 h), g_set_apart hc (by decide +kernel), not_not.1 h]
  · rw [h3, g_set_apart wf (by decide +kernel), state]
  · rw [h3, g_set_apart wf (by decide +kernel), result]

theorem fenceDrainedRow_ends {m : Mach} (hc : regsWf m.regs = true) (hs : m.g KRB_FENCE_STATUS_STATE = 2) (ho : oldOut m = 0)
    (hl : m.ldr.running = none ∨ m.ldr.fence = 0) : Ends fenceDrainedRow m fun _ m1 => m1.g KRB_FENCE_STATUS_STATE = 0 ∧
      m1.g KRB_FENCE_STATUS_RESULT = if m.g KRB_FENCE_STATUS_RESULT = 3 then 3 else 1 := by
  refine (fenceDrained_ends hc hs ho).bind fun done m1 ⟨ldr, q⟩ => Ends.getM ?_
  split
  case h_1 hr =>
    have idle : m1.ldr.fence = 0 := by
      rw [ldr] at hr ⊢
      exact hl.resolve_left (by simp [hr])
    exact Ends.onlyIf (fun _ => Ends.ite (fun h2 => absurd (idle.symm.trans h2) (by decide)) fun _ =>
      Ends.onlyIf (fun h1 => absurd (idle.symm.trans h1) (by decide)) fun _ => q) fun _ => q
  case h_2 => exact Ends.pure q

/-! Slices (R284, Table 11.2). -/

section
variable {m : Mach} {sl n : Nat}

/-- The state of a slice, with the FAULTY objects as they stood. -/
structure SliceAt (m : Mach) (sl n : Nat) (m1 : Mach) : Prop where
  state : m1.g (TEN_STATUS_STATE sl) = n
  faulty : m1.faulty = m.faulty

theorem sliceState_ends (hc : regsWf m.regs = true) (hs : sl < 256) (hn : n < 4) :
    Ends (wr (TEN_STATUS_STATE sl) n) m fun _ => SliceAt m sl n :=
  Ends.wr ⟨(g_set_same hc (storable_at hs (by decide +kernel))).trans (Nat.mod_eq_of_lt (Nat.lt_trans hn (show 4 < 2 ^ 3 by decide))), rfl⟩

/-- What follows a change of the slice's state and names neither leaves both. -/
theorem SliceAt.then {x : P Unit} {f : Unit → P Unit} {A : Mask} (hx : Ends x m fun _ => SliceAt m sl n)
    (hf : ∀ a, Only A.has (f a)) (hs : A.hasReg .TEN_STATUS = false) (ht : A.hasTab .faulty = false) :
    Ends (x >>= f) m fun _ => SliceAt m sl n :=
  hx.seq hf fun _ m1 m2 q v =>
    ⟨(v.g_kept (TEN_STATUS_STATE sl) hs).trans q.state,
      (show m2.faulty = m1.faulty from v.tab_kept .faulty ht).trans q.faulty⟩

theorem sliceOn_ends (hc : regsWf m.regs = true) (hs : sl < 256) : Ends (sliceOn sl) m fun _ => SliceAt m sl slENABLED :=
  Ends.getM (SliceAt.then (A := (Mask.of [.TM_SRING_CTL] []).plus [Feet.tmEffect]) (sliceState_ends hc hs (by decide))
    (fun _ => Only.ite (Only.bind (Only.wrK .TM_SRING_CTL rfl (by decide +kernel)) fun _ =>
      (tmEffect_only _ _ _ _).le (by decide +kernel)) (Only.pure _)) (by decide +kernel) (by decide +kernel))

theorem sliceOff_ends (hc : regsWf m.regs = true) (hs : sl < 256) : Ends (sliceOff sl) m fun _ => SliceAt m sl slSTOPPING :=
  Ends.getM (SliceAt.then (A := (Mask.of [.RNG_CTL, .TM_SRING_CTL] []).plus [Feet.ringStop])
    (sliceState_ends hc hs (by decide))
    (fun _ => Only.bind (Only.each fun _ _ => Only.bind (Only.wrK .RNG_CTL rfl (by decide +kernel)) fun _ =>
      (ringStop_only _ _).le (by decide +kernel)) fun _ => Only.onlyIf (Only.wrK .TM_SRING_CTL rfl (by decide +kernel)))
    (by decide +kernel) (by decide +kernel))

/-- The end of a stop: where an enable is pending the slice starts again. -/
theorem sliceDrained_ends (hc : regsWf m.regs = true) (hs : sl < 256) (hd : sliceDrainDone m sl = true)
    (h : m.g (TEN_STATUS_STATE sl) = slSTOPPING ∨ m.g (TEN_STATUS_STATE sl) = slPENDING) :
    Ends (sliceDrained sl) m fun _ => SliceAt m sl (if m.g (TEN_STATUS_STATE sl) = slPENDING then slENABLED else slDISABLED) := by
  refine Ends.getM ?_
  rw [if_pos hd]
  rcases h with h | h
  · rw [if_pos h, if_neg (by rw [h]; decide)]
    exact sliceState_ends hc hs (by decide)
  · rw [if_neg (by rw [h]; decide), if_pos h]
    exact Ends.onlyIf (fun _ => sliceOn_ends hc hs) fun h' => absurd h h'

/-- The stop that takes too long ends as well. -/
theorem sliceTimeout_ends (hc : regsWf m.regs = true) (hs : sl < 256)
    (h : m.g (TEN_STATUS_STATE sl) = slSTOPPING ∨ m.g (TEN_STATUS_STATE sl) = slPENDING) :
    Ends (sliceTimeout sl) m fun _ => SliceAt m sl (if m.g (TEN_STATUS_STATE sl) = slPENDING then slENABLED else slDISABLED) := by
  have target : (if m.g (TEN_STATUS_STATE sl) = slSTOPPING then slDISABLED else slENABLED) =
      if m.g (TEN_STATUS_STATE sl) = slPENDING then slENABLED else slDISABLED := by
    rcases h with h | h <;> rw [h] <;> decide
  refine Ends.getM ?_
  rw [if_pos h, target]
  refine SliceAt.then (A := Feet.raise) (sliceState_ends hc hs ?_) (fun _ => raise_only _) (by decide +kernel) (by decide +kernel)
  split <;> decide

end

end Sys2Proof.Machine
end

section
/-!
SUPPORT. A record that a command raises alone stands, once it is delivered, where the management cores find it (R370).
-/
namespace Sys2Proof.Machine

-- One declaration at a time: proofs that compute in the kernel wait for it, each with a stack of its own.
set_option Elab.async false

variable {m m1 m2 : Mach} {A : Mask} {e : EvRec} {code : Nat} {ring : Option Nat}

/-- A record of a code, of a severity and a source within their fields. -/
structure Coded (code : Nat) (e : EvRec) : Prop where
  code : e.code = code
  src : e.src < 256
  sev : e.sev < 256

/-- The words of a record show its code. -/
theorem Coded.word (h : Coded code e) (hc : code < 65536) (flags : Nat) :
    bitsAt (w64 ({ e with flags := flags }.words.getD 1 0)).toNat 16 16 = code := by
  obtain ⟨hcode, src, sev⟩ := h
  simp only [EvRec.words, List.getD_cons_succ, List.getD_cons_zero, w64, BitVec.toNat_ofNat]
  rw [bitsAt_mod_64 (by decide), hcode]
  unfold bitsAt
  omega

/-- The hosts' logs mark a record, and change no more of it (R372). -/
theorem evHost_coded (h : Coded code e) : Ends (evHost e) m fun e' m1 => Via Feet.evHost.has m m1 ∧ Coded code e' := by
  obtain ⟨hcode, src, sev⟩ := h
  refine Ends.getM ?_
  dsimp only
  split
  · exact Ends.pure ⟨.refl m, hcode, src, sev⟩
  · have logged (v : Nat) : Only Feet.evHost.has (modHlog v fun l => if l.length < 64 then l ++ [{ e with flags := e.flags ||| 4 }] else l) :=
      Only.bind (Only.bind Only.getM fun _ => Only.pure _) fun _ => Only.doT .hlog rfl (by decide +kernel)
    exact ((Only.each fun v _ => logged _).ends m).bind fun _ m1 v1 => Ends.pure ⟨v1, hcode, src, sev⟩

/-- A record raised where none waits is the only one. -/
theorem raise_alone (hm : m.evPend = []) (h : Coded code e) : Ends (raise e) m fun _ m1 =>
    Via Feet.raise.has m m1 ∧ ∃ e' ring, Coded code e' ∧ m1.evPend = [(e', ring)] := by
  obtain ⟨hcode, src, sev⟩ := h
  have timed : Coded code { e with time := m.time64 } := ⟨hcode, src, sev⟩
  change Ends (evHost { e with time := m.time64 } >>= fun e => evWait none e) m _
  refine (evHost_coded timed).bind fun e' m1 ⟨v1, h1⟩ => ?_
  have none_waits : m1.evPend = [] := (show m1.evPend = m.evPend from v1.tab_kept .evPend).trans hm
  refine fun k => ⟨(), (Upd.evPend [(e', evRingOf m1 e' none)]).apply m1, ?_, ?_, e', _, h1, rfl⟩
  · change Prog.run (k ()) ((Upd.evPend (evInsert (e', evRingOf m1 e' none) m1.evPend)).apply m1) = _
    rw [none_waits]
    rfl
  · exact (v1.mono (Mask.has_mono (by decide +kernel))).trans (.head (by rw [Mask.has_tab rfl]; decide +kernel) (.refl _))

/-- The four words of a record are stored, and no more. -/
theorem recordPut_ends {b : Nat} (h : twf 0#64 m.sram = true) : Ends (each e.words.zipIdx fun p => putSram (b + p.2) (w64 p.1)) m
    fun _ m1 => Via (Mask.of [] [.sram]).has m m1 ∧ recordAt m1 b e := by
  have stores {a : Nat} {v : Word} : (Mask.of [] [.sram]).has (.sram a v) = true := by
    rw [Mask.has_tab rfl]; decide +kernel
  obtain ⟨x0, x1, x2, x3, hw⟩ : ∃ x0 x1 x2 x3, e.words = [x0, x1, x2, x3] := ⟨_, _, _, _, rfl⟩
  unfold recordAt
  rw [hw]
  obtain ⟨r0, r1, r2, r3⟩ := tget_four (b := b) (x0 := w64 x0) (x1 := w64 x1) (x2 := w64 x2) (x3 := w64 x3) h
  refine fun k => ⟨(), _, rfl, .head stores (.head stores (.head stores (.head stores (.refl _)))), fun i hi => ?_⟩
  match i, hi with
  | 0, _ => exact r0
  | 1, _ => exact r1
  | 2, _ => exact r2
  | 3, _ => exact r3

/-- Whether the event queue loses a record (R370). -/
def evqFull (m : Mach) (e : EvRec) : Prop :=
  let free := 2 ^ m.g INT_EVQ_BASE_SIZE_LOG2 - idxDiff (m.g INT_EVQ_IDX_PROD) (m.g INT_EVQ_IDX_CONS)
  free = 0 ∨ (free < 16 ∧ e.sev ≤ 1)

/-- The record of a code stands in the slot at PROD, and PROD advanced past it. -/
structure Queued (code : Nat) (m m1 : Mach) : Prop where
  word : bitsAt (m1.getSram (evqSlot m (m.g INT_EVQ_IDX_PROD) + 1)).toNat 16 16 = code
  prod : m1.g INT_EVQ_IDX_PROD = (m.g INT_EVQ_IDX_PROD + 1) % 2 ^ 32

theorem Queued.kept (h : Queued code m m1) (v : Via A.has m1 m2) (hi : A.hasReg .INT_EVQ_IDX = false)
    (hs : A.hasTab .sram = false) : Queued code m m2 where
  word := by
    rw [Mach.getSram, show m2.sram = m1.sram from v.tab_kept .sram hs]
    exact h.word
  prod := (v.g_kept INT_EVQ_IDX_PROD hi).trans h.prod

/-- The event queue takes a record, or has no room for it and does not advance. -/
theorem evqPut_coded (h : Coded code e) (hc : code < 65536) (wf : regsWf m.regs = true) (hs : twf 0#64 m.sram = true) :
    Ends (evqPut e) m fun _ m1 => Via Feet.evqPut.has m m1 ∧
      ((evqFull m e ∧ m1.g INT_EVQ_IDX_PROD = m.g INT_EVQ_IDX_PROD) ∨ Queued code m m1) := by
  obtain ⟨flags, hflags⟩ : ∃ flags, (if m.evLost then { e with flags := e.flags ||| 0x8000 } else e) = { e with flags := flags } := by
    split
    · exact ⟨_, rfl⟩
    · exact ⟨e.flags, rfl⟩
  refine Ends.getM (Ends.ite (fun full => ?_) fun _ => ?_)
  · have lost : Only (Mask.of [.INT_EVQ_CNT] [.evLost]).has (do inc INT_EVQ_CNT_LOST; putEvLost true) :=
      Only.bind (Only.incK .INT_EVQ_CNT rfl (by decide +kernel)) fun _ => Only.doT .evLost rfl (by decide +kernel)
    exact (lost.ends m).imp fun _ _ v => ⟨v.mono (Mask.has_mono (by decide +kernel)), .inl ⟨full, v.g_kept INT_EVQ_IDX_PROD⟩⟩
  · dsimp only
    rw [hflags]
    refine (recordPut_ends (e := { e with flags := flags }) hs).bind fun _ m1 ⟨v1, rec⟩ => ?_
    have advanced : Queued code m (m1.set INT_EVQ_IDX_PROD ((m1.g INT_EVQ_IDX_PROD + 1) % 2 ^ 32)) := by
      constructor
      · exact (congrArg (fun x : Word => bitsAt x.toNat 16 16) (rec 1 (by decide))).trans (h.word hc flags)
      · rw [g_set_same (v1.regs_wf wf) (by decide +kernel), v1.g_kept INT_EVQ_IDX_PROD]
        exact Nat.mod_mod _ _
    have v2 : Via Feet.evqPut.has m (m1.set INT_EVQ_IDX_PROD ((m1.g INT_EVQ_IDX_PROD + 1) % 2 ^ 32)) :=
      (v1.mono (Mask.has_mono (by decide +kernel))).trans (.head (by rw [Mask.has_reg]; decide +kernel) (.refl _))
    refine Ends.seq (Q := fun _ m2 => Via Feet.evqPut.has m m2 ∧ Queued code m m2) (S := (Mask.of [] [.evLost, .out]).has)
      (fun _ => ⟨(), _, rfl, v2, advanced⟩) (fun _ => ?_) fun _ _ _ q v =>
        ⟨q.1.trans (v.mono (Mask.has_mono (by decide +kernel))), .inr (q.2.kept v (by decide +kernel) (by decide +kernel))⟩
    exact Only.bind (Only.doT .evLost rfl (by decide +kernel)) fun _ => Only.bind Only.getM fun _ =>
      Only.onlyIf ((emit_only _).le (by decide +kernel))

/-- Where a record stands when the firmware's part of its delivery has ended, while CORE is ON. -/
structure Delivered (code : Nat) (e : EvRec) (m m1 : Mach) : Prop where
  held : m.g INT_EVQ_BASE_EN = 0 → (256 ≤ m.hold.length ∧ m1.hold = m.hold) ∨ m1.hold = m.hold ++ [e]
  queued : m.g INT_EVQ_BASE_EN = 1 → (evqFull m e ∧ m1.g INT_EVQ_IDX_PROD = m.g INT_EVQ_IDX_PROD) ∨ Queued code m m1

theorem Delivered.kept (h : Delivered code e m m1) (v : Via A.has m1 m2) (hi : A.hasReg .INT_EVQ_IDX = false)
    (hs : A.hasTab .sram = false) (hh : A.hasTab .hold = false) : Delivered code e m m2 where
  held he := (show m2.hold = m1.hold from v.tab_kept .hold hh) ▸ h.held he
  queued he := (h.queued he).imp (fun q => ⟨q.1, (v.g_kept INT_EVQ_IDX_PROD hi).trans q.2⟩) fun q => q.kept v hi hs

/-- The firmware's part of the delivery of a record. -/
theorem evFirmware_coded (h : Coded code e) (hc : code < 65536) (wf : regsWf m.regs = true) (hs : twf 0#64 m.sram = true)
    (hd : domOn m 2 = true) : Ends (evFirmware e) m fun _ m1 => Via Feet.evOut.has m m1 ∧ Delivered code e m m1 := by
  refine Ends.getM (Ends.bind (Q := fun _ m1 => ∃ l, m1 = (Upd.out l).apply m)
    (Ends.onlyIf (fun _ => emit_ends.imp fun _ _ h1 => ⟨_, h1⟩) fun _ => ⟨m.out, rfl⟩) fun _ m1 ⟨l, h1⟩ => ?_)
  subst h1
  have sent : Via Feet.evOut.has m ((Upd.out l).apply m) := .head (by rw [Mask.has_tab rfl]; decide +kernel) (.refl _)
  have tab {u : Upd} {T : Tab} (hu : u.tab = some T) (hT : Feet.evOut.hasTab T = true) (m' : Mach) :
      Via Feet.evOut.has m' (u.apply m') := .head (by rw [Mask.has_tab hu]; exact hT) (.refl _)
  rw [if_neg (by simp [hd])]
  refine Ends.ite (fun he => ?_) fun he => Ends.ite (fun hl => ?_) fun hl => ?_
  · exact (evqPut_coded (m := (Upd.out l).apply m) h hc wf hs).imp fun _ _ ⟨v, q⟩ =>
      ⟨sent.trans (v.mono (Mask.has_mono (by decide +kernel))),
        fun h0 => absurd (he.symm.trans h0) (by decide), fun _ => q.imp id fun q => ⟨q.word, q.prod⟩⟩
  · exact fun _ => ⟨(), (Upd.hold (m.hold ++ [e])).apply ((Upd.out l).apply m), rfl,
      sent.trans (tab rfl (by decide +kernel) _), fun _ => .inr rfl, fun h1 => absurd h1 he⟩
  · have lost : Ends (do inc INT_EVQ_CNT_HOLD_LOST; putEvLost true) ((Upd.out l).apply m) fun _ m2 =>
        Via Feet.evOut.has ((Upd.out l).apply m) m2 ∧ m2.hold = m.hold := fun _ => ⟨(), _, rfl,
          .head (by rw [Mask.has_reg]; decide +kernel) (tab rfl (by decide +kernel) _), rfl⟩
    exact lost.imp fun _ _ ⟨v, q⟩ => ⟨sent.trans v, fun _ => .inl ⟨Nat.le_of_not_lt hl, q⟩, fun h1 => absurd h1 he⟩

/-- A record that was delivered is told. -/
theorem Delivered.told (h : Delivered code e m m1) (hc : e.code = code) : Told code m m1 := by
  have prod : m.g INT_EVQ_IDX_PROD < 2 ^ 32 := Nat.mod_lt _ (by decide)
  refine fun _ => ⟨fun he hl => ?_, fun he hfree => ?_⟩
  · rcases h.held he with ⟨full, q⟩ | q
    · rw [q] at hl
      omega
    · exact ⟨[e], q, e, by simp, hc⟩
  · rcases h.queued he with ⟨full, q⟩ | q
    · unfold evqFull at full
      rw [q] at hfree
      omega
    · refine ⟨0, ?_, q.word⟩
      rw [q.prod]
      unfold idxDiff
      omega

/-- What changes neither the queues nor where they stand does not come between a record and where it is told from. -/
theorem Told.before {m0 t : Mach} (h : Told code m0 t) (v : Via A.has m m0) (hb : A.hasReg .INT_EVQ_BASE = false)
    (hi : A.hasReg .INT_EVQ_IDX = false) (hh : A.hasTab .hold = false) : Told code m t := by
  have slot (n : Nat) : evqSlot m0 n = evqSlot m n := by
    rw [evqSlot, evqSlot, v.g_kept INT_EVQ_BASE_BASE hb, v.g_kept INT_EVQ_BASE_SIZE_LOG2 hb]
  have hold : m0.hold = m.hold := v.tab_kept .hold hh
  simpa only [Told, slot, hold, v.g_kept INT_EVQ_BASE_EN hb, v.g_kept INT_EVQ_BASE_SIZE_LOG2 hb, v.g_kept INT_EVQ_IDX_PROD hi,
    v.g_kept INT_EVQ_IDX_CONS hi] using h

/-- A program that raised one record where none waited, with what the end of a fence's drain can change. -/
structure Raised (code : Nat) (m m1 : Mach) : Prop where
  via : Via Feet.fenceTimeout.has m m1
  waits : ∃ e ring, Coded code e ∧ m1.evPend = [(e, ring)]

/-- The record of a step that raises one is told. -/
theorem Raised.told (h : Raised code m m1) (hc : code < 65536) (hd : m.feDue = false) (wf : regsWf m.regs = true)
    (hs : twf 0#64 m.sram = true) : Told code m (Prog.run (toProg settle) m1) := by
  obtain ⟨e, ring, coded, waits⟩ := h.waits
  have v : Via Feet.fenceTimeout.has m ((Upd.evPend []).apply m1) :=
    h.via.trans (.head (by rw [Mask.has_tab rfl]; decide +kernel) (.refl _))
  have due : m1.feDue = false := (show m1.feDue = m.feDue from v.tab_kept .feDue).trans hd
  have sram : ((Upd.evPend []).apply m1).sram = m.sram := v.tab_kept .sram
  -- CORE stands as it did while the step ends
  intro hon
  have dom : domOn ((Upd.evPend []).apply m1) 2 = true := by
    have settled : Via Feet.settle.has m1 (Prog.run (toProg settle) m1) :=
      settle_via (by decide +kernel) (.inr (by decide +kernel)) (.inr (by decide +kernel))
    rw [domOn, settled.g_kept (PWR_DOM_STATUS_STATE 2)] at hon
    exact hon
  have delivered : Delivered code e ((Upd.evPend []).apply m1) (Prog.run (toProg settle) m1) :=
    settle_one waits due (evFirmware_coded coded hc (v.regs_wf wf) (sram ▸ hs) dom) fun m2 m3 q u =>
      q.kept u (by decide +kernel) (by decide +kernel) (by decide +kernel)
  exact (delivered.told coded.code).before v (by decide +kernel) (by decide +kernel) (by decide +kernel) hon

/-- What holds at the end of a command that raises one record. -/
theorem does_told {c : Instr} {x : P Unit} {s : State} {Q R : Mach → Prop} (hi : s.Inv) (hc : code < 65536)
    (hp : Ends x ((Upd.out []).apply s.m) fun _ m1 => Raised code ((Upd.out []).apply s.m) m1 ∧ Q m1)
    (hQ : ∀ m1 m2, Q m1 → Via Feet.settle.has m1 m2 → Told code s.m m2 → R m2)
    (hx : exec c s = Machine.cmd x s := by rfl) : Does c s R := by
  obtain ⟨_, m1, h1, raised, q⟩ := hp fun _ => toProg settle
  refine ⟨_, hx.trans (cmd_run x s), rfl, ?_⟩
  change R (Prog.run (x fun _ => toProg settle) ((Upd.out []).apply s.m))
  rw [h1]
  exact hQ m1 _ q (settle_via (by decide +kernel) (.inr (by decide +kernel)) (.inr (by decide +kernel)))
    (raised.told hc hi.calm hi.canon.regs hi.canon.sram)

/-- The drain that takes too long says so (R295). -/
theorem fenceTimeout_ends (hc : regsWf m.regs = true) (hp : m.evPend = []) (hs : m.g KRB_FENCE_STATUS_STATE = 2)
    (hr : m.g KRB_FENCE_STATUS_RESULT ≠ 3) (ho : 0 < oldOut m) :
    Ends fenceTimeout m fun _ m1 => Raised 0x0883 m m1 ∧ m1.g KRB_FENCE_STATUS_RESULT = 3 := by
  refine Ends.getM ?_
  rw [if_pos ⟨hs, hr, ho⟩]
  refine Ends.bind (Q := fun _ m1 => m1 = m.set KRB_FENCE_STATUS_RESULT 3) (Ends.wr rfl) fun _ m1 h1 =>
    inc_ends.bind fun _ m2 h2 => ?_
  have wf : regsWf m1.regs = true := h1 ▸ set_wf hc
  have result : m2.g KRB_FENCE_STATUS_RESULT = 3 := by
    rw [h2, g_set_apart wf (by decide +kernel), h1, g_set_same hc (by decide +kernel)]
    decide
  have v2 : Via Feet.fenceTimeout.has m m2 := by
    rw [h2, h1]
    exact sets_via (l := [(KRB_FENCE_STATUS_RESULT, _), (KRB_FENCE_CNT_TIMEOUTS, _)])
      (fs := [KRB_FENCE_STATUS_RESULT, KRB_FENCE_CNT_TIMEOUTS]) rfl (by decide +kernel)
  refine (raise_alone (m := m2) ?_ ⟨rfl, show 8 < 256 by decide, show 2 < 256 by decide⟩).imp fun _ m3 ⟨v3, told⟩ =>
    ⟨⟨v2.trans (v3.mono (Mask.has_mono (by decide +kernel))), told⟩, (v3.g_kept KRB_FENCE_STATUS_RESULT).trans result⟩
  rw [h2, h1]
  exact hp

end Sys2Proof.Machine
end

section
/-!
SUPPORT. What the end of a step leaves of the accesses that the Kerb permitted and of what was sent, and what the debug master's
accesses lead to (R289, R299, R432).
-/
namespace Sys2Proof.Machine

-- One declaration at a time: proofs that compute in the kernel wait for it, each with a stack of its own.
set_option Elab.async false

/-! What the delivery of records leaves. -/

/-- The accesses that the Kerb permitted stand, what was sent stays sent, and a fence is due as it was. -/
structure Grows (m m1 : Mach) : Prop where
  kacc : m1.kacc = m.kacc
  out : ∀ o ∈ m.out, o ∈ m1.out
  due : m1.feDue = m.feDue

theorem Grows.refl (m : Mach) : Grows m m := ⟨rfl, fun _ h => h, rfl⟩

theorem Grows.trans {m m1 m2 : Mach} (h : Grows m m1) (h' : Grows m1 m2) : Grows m m2 :=
  ⟨h'.kacc.trans h.kacc, fun o ho => h'.out o (h.out o ho), h'.due.trans h.due⟩

/-- A program that leaves them so from every block. -/
def Growing {α : Type} (x : P α) : Prop := ∀ m, Ends x m fun _ => Grows m

section
variable {α β : Type} {x y : P α} {A : Mask}

/-- What names none of them leaves them. -/
theorem Only.growing (h : Only A.has x) (hk : A.hasTab .kacc = false := by decide +kernel)
    (ho : A.hasTab .out = false := by decide +kernel) (hf : A.hasTab .feDue = false := by decide +kernel) : Growing x := fun m =>
  (h.ends m).imp fun _ m1 v =>
    ⟨v.tab_kept .kacc hk, fun _ hm => (show m1.out = m.out from v.tab_kept .out ho) ▸ hm, v.tab_kept .feDue hf⟩

theorem Growing.bind {f : α → P β} (hx : Growing x) (hf : ∀ a, Growing (f a)) : Growing (x >>= f) := fun m =>
  (hx m).bind fun a m1 g => (hf a m1).imp fun _ _ => g.trans

theorem Growing.pure (a : α) : Growing (pure a : P α) := fun m => Ends.pure (.refl m)

theorem Growing.getM {f : Mach → P α} (h : ∀ m, Growing (f m)) : Growing (getM >>= f) := fun m => Ends.getM (h m m)

theorem Growing.ite {c : Prop} [Decidable c] (hx : Growing x) (hy : Growing y) : Growing (if c then x else y) := by
  split
  · exact hx
  · exact hy

theorem Growing.onlyIf {c : Prop} [Decidable c] {x : P Unit} (hx : Growing x) : Growing (onlyIf c x) := Growing.ite hx (.pure ())

theorem Growing.each {l : List α} {f : α → P Unit} (h : ∀ a, Growing (f a)) : Growing (each l f) := by
  induction l with
  | nil => exact .pure ()
  | cons a t ih => exact (h a).bind fun _ => ih

end

theorem emit_growing (o : Out) : Growing (emit o) := fun _ =>
  emit_ends.imp fun _ _ h1 => h1 ▸ ⟨rfl, fun _ h => List.mem_append_left _ h, rfl⟩

/-- A message that answers no CXL.mem request completes no access. -/
theorem xsend_growing {msg : Msg} (h : isResponse msg.op = false) : Growing (xsend msg) := fun m => by
  have rest : Only ((Mask.of [] [.xin]).plus [Feet.pmuCount]).has (do
      let m ← getM
      pmuCount 0x02 1 (msgAt m msg)
      pmuCount 0x03 msg.len (msgAt m msg)
      modXin (msg.inp * 8 + msg.cls) (· ++ [[msg]])) :=
    Only.bind Only.getM fun _ => Only.bind ((pmuCount_only _ _ _).le (by decide +kernel)) fun _ =>
      Only.bind ((pmuCount_only _ _ _).le (by decide +kernel)) fun _ =>
      Only.bind (Only.bind Only.getM fun _ => Only.pure _) fun _ => Only.doT .xin rfl (by decide +kernel)
  refine Ends.bind (Q := fun _ m1 => m1 = m) (Ends.onlyIf (fun hc => ?_) fun _ => rfl) fun _ m1 h1 => h1 ▸ (rest.growing : Growing _) m
  rw [h] at hc
  cases hc.2

theorem ringPut_growing (inp r cls : Nat) (ws : List Word) (pad poison : Bool) : Growing (ringPut inp r cls ws pad poison) := by
  have mod {f : RingX → RingX} : Growing (modRing r f) :=
    Only.growing (A := Mask.of [] [.ring]) (Only.bind (Only.bind Only.getM fun _ => Only.pure _) fun _ =>
      Only.doT .ring rfl (by decide +kernel))
  have counts : Only (Mask.of [.RNG_IDX, .RNG_CNT] []).has (do
      addWrap (RNG_IDX_PROD r) (Nat.max 1 (ws.length / 8))
      onlyIf (pad = false) (inc (RNG_CNT_ENTRIES r))) :=
    Only.bind (Only.addWrapK .RNG_IDX rfl (by decide +kernel)) fun _ =>
      Only.onlyIf (Only.incK .RNG_CNT rfl (by decide +kernel))
  exact Growing.getM fun m => Growing.bind (.each fun _ => .bind (xsend_growing rfl) fun _ => mod) fun _ =>
    .bind (xsend_growing rfl) fun _ => .bind mod fun _ => counts.growing

theorem msixSend_growing (inp v vec cls : Nat) : Growing (msixSend inp v vec cls) :=
  Growing.getM fun _ => .ite (Only.growing (A := Mask.of [] [.sf]) (Only.doT .sf rfl (by decide +kernel))) (xsend_growing rfl)

theorem ringIrq_growing (inp r cls : Nat) (atOnce : Bool) : Growing (ringIrq inp r cls atOnce) := by
  have put {x : RingX} : Growing (putRing r x) :=
    Only.growing (A := Mask.of [] [.ring]) (Only.doT .ring rfl (by decide +kernel))
  exact Growing.getM fun _ => .ite (.ite (.bind put fun _ => msixSend_growing _ _ _ _) put) (.pure ())

theorem evRingPut_growing (r : Nat) (e : EvRec) : Growing (evRingPut r e) := by
  have mod {f : RingX → RingX} : Only (Mask.of [.RNG_CNT] [.ring]).has (modRing r f) :=
    Only.bind (Only.bind Only.getM fun _ => Only.pure _) fun _ => Only.doT .ring rfl (by decide +kernel)
  exact Growing.getM fun _ => .ite
    (.bind (ringPut_growing _ _ _ _ _ _) fun _ => .bind mod.growing fun _ => ringIrq_growing _ _ _ _)
    (Only.bind (Only.incK .RNG_CNT rfl (by decide +kernel)) fun _ => mod).growing

theorem evqPut_growing (e : EvRec) : Growing (evqPut e) := by
  have lost : Only (Mask.of [.INT_EVQ_CNT] [.evLost]).has (do inc INT_EVQ_CNT_LOST; putEvLost true) :=
    Only.bind (Only.incK .INT_EVQ_CNT rfl (by decide +kernel)) fun _ => Only.doT .evLost rfl (by decide +kernel)
  refine Growing.getM fun m => .ite lost.growing ?_
  have stores (b : Nat) (e' : EvRec) : Only (Mask.of [.INT_EVQ_IDX] [.sram, .evLost]).has (do
      each e'.words.zipIdx fun p => putSram (b + p.2) (w64 p.1)
      addWrap INT_EVQ_IDX_PROD 1
      putEvLost false) :=
    Only.bind (Only.each fun _ _ => Only.doT .sram rfl (by decide +kernel)) fun _ =>
      Only.bind (Only.addWrapK .INT_EVQ_IDX rfl (by decide +kernel)) fun _ => Only.doT .evLost rfl (by decide +kernel)
  exact (stores _ _).growing.bind fun _ => .getM fun _ => .onlyIf (emit_growing _)

theorem evFirmware_growing (e : EvRec) : Growing (evFirmware e) := by
  have lost : Only (Mask.of [] [.evLost]).has (putEvLost true) := Only.doT .evLost rfl (by decide +kernel)
  have hold : Only (Mask.of [] [.hold]).has (modHold (· ++ [e])) :=
    Only.bind (Only.bind Only.getM fun _ => Only.pure _) fun _ => Only.doT .hold rfl (by decide +kernel)
  have count : Only (Mask.of [.INT_EVQ_CNT] []).has (inc INT_EVQ_CNT_HOLD_LOST) := Only.incK .INT_EVQ_CNT rfl (by decide +kernel)
  exact Growing.getM fun _ => .bind (.onlyIf (emit_growing _)) fun _ =>
    .ite lost.growing (.ite (evqPut_growing e) (.ite hold.growing (count.growing.bind fun _ => lost.growing)))

theorem evOut_growing (x : EvRec × Option Nat) : Growing (evOut x) := by
  refine (evFirmware_growing x.1).bind fun _ => ?_
  cases x.2 with
  | some r => exact evRingPut_growing r x.1
  | none => exact .pure ()

theorem evFlush_growing : Growing evFlush :=
  Growing.getM fun _ => (Only.growing (A := Mask.of [] [.evPend]) (Only.doT .evPend rfl (by decide +kernel))).bind fun _ =>
    .each evOut_growing

/-- Where no fence is due, the end of the step is such a program. -/
theorem settle_grows {m : Mach} (hd : m.feDue = false) : Grows m (Prog.run (toProg settle) m) := by
  obtain ⟨_, m1, h1, g⟩ := evFlush_growing m fun _ => feFence fun _ => pinsShow fun _ => .done
  have calm : m1.feDue = false := g.due.trans hd
  obtain ⟨v, h2⟩ := pinsShow_run m1 fun _ => .done
  have ends : Prog.run (toProg settle) m = (Upd.pins v).apply ((Upd.feDue false).apply m1) :=
    calc Prog.run (toProg settle) m
      _ = Prog.run (feFence fun _ => pinsShow fun _ => .done) m1 := h1
      _ = Prog.run (pinsShow fun _ => .done) m1 := by simp [feFence, calm]
      _ = (Upd.pins v).apply ((Upd.feDue false).apply m1) := h2
  rw [ends]
  exact ⟨g.kacc, g.out, hd.symm⟩

/-- What holds at the end of a command that makes no fence due. -/
theorem does_growing {c : Instr} {x : P Unit} {s : State} {Q R : Mach → Prop}
    (hp : Ends x ((Upd.out []).apply s.m) fun _ m1 => m1.feDue = false ∧ Q m1)
    (hQ : ∀ m1 m2, Q m1 → Via Feet.settle.has m1 m2 → Grows m1 m2 → R m2)
    (hx : exec c s = Machine.cmd x s := by rfl) : Does c s R := by
  obtain ⟨_, m1, h1, due, q⟩ := hp fun _ => toProg settle
  refine ⟨_, hx.trans (cmd_run x s), rfl, ?_⟩
  change R (Prog.run (x fun _ => toProg settle) ((Upd.out []).apply s.m))
  rw [h1]
  exact hQ m1 _ q (settle_via (by decide +kernel) (.inr (by decide +kernel)) (.inr (by decide +kernel))) (settle_grows due)

/-! The debug master (R299). -/

section
variable {m : Mach} {a : Nat} {write : Bool} {data : List Word}

/-- A locked debug master's access is refused, and returns nothing (R432). -/
theorem debugFabric_locked (h : debugOpen m = false) : Ends (debugFabric a write data) m fun _ m1 =>
    m1.feDue = m.feDue ∧ m1.kacc = m.kacc ∧ Out.debug a [] false ∈ m1.out := by
  refine Ends.getM ?_
  rw [if_pos h]
  refine (((pathRefused_only .debug a 0 write).growing : Growing _) m).bind fun _ m1 g => emit_ends.imp fun _ m2 h2 => ?_
  subst h2
  exact ⟨g.due, g.kacc, by simp⟩

/-- An access that a window refuses is counted, and a read returns all ones with poison (R289). -/
theorem debugFabric_refused {c : Nat} {w : Win} (hc : regsWf m.regs = true) (h : debugOpen m = true)
    (hv : debugVerdict m a = some (c, w)) : Ends (debugFabric a write data) m fun _ m1 =>
      m1.feDue = m.feDue ∧ m1.kacc = m.kacc ∧
      m1.g (KRB_CNT_COUNT kcDEBUG_REFUSED) = Nat.min (m.g (KRB_CNT_COUNT kcDEBUG_REFUSED) + 1) (2 ^ 64 - 1) ∧
      (write = false → Out.debug a (List.replicate 8 (BitVec.allOnes 64)) true ∈ m1.out) := by
  refine Ends.getM ?_
  rw [if_neg (by simp [h])]
  refine inc_ends.bind fun _ m1 h1 => ?_
  rw [hv]
  refine inc_ends.bind fun _ m2 h2 => inc_ends.bind fun _ m3 h3 => ?_
  have wf1 : regsWf m1.regs = true := h1 ▸ set_wf hc
  have wf2 : regsWf m2.regs = true := h2 ▸ set_wf wf1
  have before : m2.g (KRB_CNT_COUNT kcDEBUG_REFUSED) = m.g (KRB_CNT_COUNT kcDEBUG_REFUSED) := by
    rw [h2, g_set_apart wf1 (by decide +kernel), h1, g_set_apart hc (by decide +kernel)]
  have counted : m3.g (KRB_CNT_COUNT kcDEBUG_REFUSED) = Nat.min (m.g (KRB_CNT_COUNT kcDEBUG_REFUSED) + 1) (2 ^ 64 - 1) := by
    rw [h3, g_set_same wf2 (by decide +kernel), before]
    exact Nat.mod_eq_of_lt (Nat.lt_of_le_of_lt (Nat.min_le_right _ _) (by decide))
  have stood : m3.feDue = m.feDue ∧ m3.kacc = m.kacc := by
    rw [h3, h2, h1]
    exact ⟨rfl, rfl⟩
  refine ((pmuCount_only _ _ _).ends m3).bind fun _ m4 v4 => ((violation_only _ _ _ _ _ _ _).ends m4).bind fun _ m5 v5 => ?_
  have kept : m5.feDue = m.feDue ∧ m5.kacc = m.kacc ∧
      m5.g (KRB_CNT_COUNT kcDEBUG_REFUSED) = Nat.min (m.g (KRB_CNT_COUNT kcDEBUG_REFUSED) + 1) (2 ^ 64 - 1) :=
    ⟨(show m5.feDue = m4.feDue from v5.tab_kept .feDue).trans ((show m4.feDue = m3.feDue from v4.tab_kept .feDue).trans stood.1),
      (show m5.kacc = m4.kacc from v5.tab_kept .kacc).trans ((show m4.kacc = m3.kacc from v4.tab_kept .kacc).trans stood.2),
      (v5.g_kept (KRB_CNT_COUNT kcDEBUG_REFUSED)).trans ((v4.g_kept (KRB_CNT_COUNT kcDEBUG_REFUSED)).trans counted)⟩
  refine Ends.onlyIf (fun _ => emit_ends.imp fun _ m6 h6 => ?_) fun hw => ⟨kept.1, kept.2.1, kept.2.2, fun h => absurd h hw⟩
  subst h6
  exact ⟨kept.1, kept.2.1, kept.2.2, fun _ => by simp⟩

/-- What a message does before it enters its FIFO: a response completes its access, and the counters count. -/
def xsendCounts (msg : Msg) : P Unit := do
  onlyIf (msg.out < 128 ∧ isResponse msg.op = true) (kerbDone msg.out msg.tag)
  let m ← getM
  pmuCount 0x02 1 (msgAt m msg)
  pmuCount 0x03 msg.len (msgAt m msg)

theorem xsend_eq (msg : Msg) :
    xsend msg = (do xsendCounts msg; modXin (msg.inp * 8 + msg.cls) (· ++ [[msg]])) := rfl

theorem xsendCounts_only (msg : Msg) : Only (Feet.pmuCount.plus [Feet.kerbDone]).has (xsendCounts msg) :=
  Only.bind (Only.onlyIf ((kerbDone_only _ _).le (by decide +kernel))) fun _ => Only.bind Only.getM fun _ =>
    Only.bind ((pmuCount_only _ _ _).le (by decide +kernel)) fun _ => (pmuCount_only _ _ _).le (by decide +kernel)

/-- A message sent is the last in its FIFO. -/
theorem xsend_ends {msg : Msg} (hx : twf [] m.xin = true) : Ends (xsend msg) m fun _ m1 =>
    [msg] ∈ m1.getXin (msg.inp * 8 + msg.cls) ∧ Via Feet.xsend.has m m1 := by
  rw [xsend_eq]
  refine ((xsendCounts_only msg).ends m).bind fun _ m1 v _ => ?_
  have wf : twf [] m1.xin = true := (show m1.xin = m.xin from v.tab_kept .xin) ▸ hx
  refine ⟨(), (Upd.xin _ (m1.getXin _ ++ [[msg]])).apply m1, rfl, ?_, ?_⟩
  · rw [Mach.getXin, show ((Upd.xin _ (m1.getXin _ ++ [[msg]])).apply m1).xin = tput [] m1.xin _ _ from rfl, tget_tput_same wf]
    simp
  · exact (v.mono (Mask.has_mono (by decide +kernel))).trans (.head (by rw [Mask.has_tab rfl]; decide +kernel) (.refl _))

/-- What a permitted access can change. -/
def Feet.debugSend : Mask := (.of [.KRB_CNT] [.accNext, .kacc] : Mask).plus [Feet.xsend]

/-- An access that no window refuses goes to the home Square of its line. -/
theorem debugFabric_passed (hx : twf [] m.xin = true) (h : debugOpen m = true) (hv : debugVerdict m a = none)
    (hh : homeHere m a = true) : Ends (debugFabric a write data) m fun _ m1 => Via Feet.debugSend.has m m1 ∧
      ∃ q : Msg, [q] ∈ m1.getXin (epMG * 8 + if write then 3 else 2) ∧ q.addr = a ∧ q.out = epSq (homeSq a) ∧
        q.op = if write then .memWr else .rdS := by
  refine Ends.getM ?_
  rw [if_neg (by simp [h])]
  refine inc_ends.bind fun _ m1 h1 => ?_
  rw [hv]
  have v1 : Via Feet.debugSend.has m m1 :=
    h1 ▸ sets_via (l := [(KRB_CNT_COUNT kcCHECKED, _)]) (fs := [KRB_CNT_COUNT kcCHECKED]) rfl (by decide +kernel)
  have permit : Only (Mask.of [] [.accNext, .kacc]).has (do putAccNext (m.accNext + 1); debugAccess m.accNext) :=
    Only.bind (Only.doT .accNext rfl (by decide +kernel)) fun _ => (debugAccess_only _).le (by decide +kernel)
  refine Ends.bind (Q := fun _ m2 => Via (Mask.of [] [.accNext, .kacc]).has m1 m2)
    (x := do putAccNext (m.accNext + 1); debugAccess m.accNext) (permit.ends m1) fun _ m2 v2 => ?_
  dsimp only
  rw [if_pos hh]
  have wf : twf [] m2.xin = true := by
    rw [show m2.xin = m1.xin from v2.tab_kept .xin, h1]
    exact hx
  refine (xsend_ends wf).imp fun _ m3 ⟨mem, v3⟩ => ⟨?_, _, mem, rfl, rfl, rfl⟩
  exact (v1.trans (v2.mono (Mask.has_mono (by decide +kernel)))).trans (v3.mono (Mask.has_mono (by decide +kernel)))

end

end Sys2Proof.Machine
end

section
/-!
SUPPORT. What the writes of the Kerb's and the tenants' registers lead to, and the aperture's accesses (R284, R291, R292, R297, R300,
R302).
-/
namespace Sys2Proof.Machine

-- One declaration at a time: proofs that compute in the kernel wait for it, each with a stack of its own.
set_option Elab.async false

variable {m m2 : Mach} {s : State} {p : Path}

/-! What the end of a step leaves of the Kerb. -/

/-- Registers of the Kerb and of the tenants that no record's delivery changes. -/
def kerbKinds : List RegKind :=
  [.KRB_WIN, .KRB_FENCE_STATUS, .KRB_FENCE_ADDR, .KRB_FENCE_CNT, .KRB_CNT, .TEN_STATUS, .TEN_VIOL, .TEN_VIOL_COUNT,
   .TEN_OBJ_STATUS, .LM_TBL_PARAM]

theorem kerbKinds_settled {k : RegKind} (h : k ∈ kerbKinds) : Feet.settle.hasReg k = false :=
  of_decide_eq_true (List.all_eq_true.1 (show kerbKinds.all (fun k => decide (Feet.settle.hasReg k = false)) = true by
    decide +kernel) k h)

theorem settled_rd {m1 : Mach} (v : Via Feet.settle.has m m1) (r : Reg) (h : r.k ∈ kerbKinds := by simp [kerbKinds]) :
    m1.rd r = m.rd r := v.rd_kept r (kerbKinds_settled h)

theorem settled_g {m1 : Mach} (v : Via Feet.settle.has m m1) (f : RF) (h : f.k ∈ kerbKinds := by simp [kerbKinds]) :
    m1.g f = m.g f := v.g_kept f (kerbKinds_settled h)

/-! Registers that return to their reset values. -/

/-- A register that its array holds, and the silicon implements. -/
def Reg.resets (r : Reg) : Prop := r.i < r.k.count ∧ hardwired r = false

theorem rd_reset {r q : Reg} (h : regsWf m.regs = true) (hr : r.resets) (hq : q = r ∨ m.rd q = resetVal q) :
    ((Upd.reg r (resetVal r)).apply m).rd q = resetVal q := by
  by_cases hqr : q = r
  · subst hqr
    have stored := rd_store h hr.1 hr.2 (resetVal_implMask q)
    rw [BitVec.ofNat_toNat, BitVec.setWidth_eq] at stored
    exact BitVec.eq_of_toNat_eq stored
  · rw [rd_store_other hqr]
    exact hq.resolve_left hqr

/-- Registers reset in turn hold their reset values, and what held one holds it still. -/
theorem resets_ends {l : List Reg} (h : regsWf m.regs = true) (hl : ∀ r ∈ l, r.resets) :
    Ends (each l fun r => rstReg r.k r.i) m fun _ m1 =>
      m1.faulty = m.faulty ∧ ∀ q, q ∈ l ∨ m.rd q = resetVal q → m1.rd q = resetVal q := by
  induction l generalizing m with
  | nil => exact Ends.pure ⟨rfl, fun q hq => hq.resolve_left (by simp)⟩
  | cons r t ih =>
    have head := hl r (by simp)
    refine Ends.bind (Q := fun _ m1 => m1 = (Upd.reg r (resetVal r)).apply m) (Ends.upd rfl) fun _ m1 h1 => ?_
    subst h1
    refine (ih (regStore_wf h) fun q hq => hl q (by simp [hq])).imp fun _ m3 ⟨faulty, all⟩ => ⟨faulty, fun q hq => all q ?_⟩
    simp only [List.mem_cons, or_assoc] at hq
    rcases hq with hq | hq | hq
    · exact .inr (rd_reset h head (.inl hq))
    · exact .inl hq
    · exact .inr (rd_reset h head (.inr hq))

/-! Writes. -/

/-- A register that is written whole holds what was written. -/
theorem Written.whole {k : RegKind} {i : Nat} {data : Word} (hw : Written m ⟨k, i⟩ data.toNat (2 ^ 64 - 1) m2)
    (plain : k.plain 0 64 = true) : m2.g ⟨k, i, 0, 64⟩ = data.toNat := by
  have h : data.toNat % 2 ^ 64 * 2 ^ 0 = data.toNat := by rw [Nat.mod_eq_of_lt data.isLt, Nat.pow_zero, Nat.mul_one]
  rw [Written.field (v := data.toNat) (by rw [h]; exact hw) plain, Nat.mod_eq_of_lt data.isLt]

theorem windowWrite_does {n : Fin 16384} {w : Fin 4} {data : Word} (hi : s.Inv)
    (hl : Lands s.m p ⟨.KRB_WIN, n * 4 + w⟩ data.toNat (2 ^ 64 - 1)) :
    Does (.kerbWindowWrite p n w data) s fun t => t.g (KRB_WIN_WORD (n * 4 + w)) = data.toNat :=
  does_write (r := ⟨.KRB_WIN, n * 4 + w⟩) (data := data) (mask := BitVec.allOnes 64) hi nofun hl
    (Q := fun m1 => m1.g (KRB_WIN_WORD (n * 4 + w)) = data.toNat)
    (fun _ m2 _ hw => fun _ => ⟨(), m2, rfl, rfl, hw.toWritten.whole (by decide +kernel)⟩)
    fun _ _ q v => (settled_g v (KRB_WIN_WORD _)).trans q

theorem fenceGo_does (hi : s.Inv) (hl : LandsIn s.m p KRB_FENCE_CTL_GO 1) :
    Does (.kerbFenceGo p) s fun t => t.g KRB_FENCE_STATUS_STATE = 1 ∧ t.g KRB_FENCE_STATUS_RESULT = 0 :=
  does_fieldWrite hi hl (Q := fun m1 => m1.g KRB_FENCE_STATUS_STATE = 1 ∧ m1.g KRB_FENCE_STATUS_RESULT = 0)
    (fun _ _ _ hw => Ends.getM (Ends.onlyIf (fun _ => fenceGo_ends hw.wf) fun h => absurd (by decide) h))
    fun m1 m2 q v => by rw [settled_g v KRB_FENCE_STATUS_STATE, settled_g v KRB_FENCE_STATUS_RESULT]; exact q

theorem violationClear_does {sl : Fin 256} (hi : s.Inv) (hl : LandsIn s.m p (TEN_VIOL_VALID sl) 1) :
    Does (.violationClear p sl) s fun t => t.rd ⟨.TEN_VIOL, sl⟩ = 0#64 ∧ t.g (TEN_VIOL_COUNT_COUNT sl) = 0 := by
  refine does_fieldWrite hi hl (Q := fun m1 => m1.rd ⟨.TEN_VIOL, sl⟩ = 0#64 ∧ m1.rd ⟨.TEN_VIOL_COUNT, sl⟩ = 0#64)
    (fun _ m2 _ hw => Ends.getM (Ends.onlyIf (fun _ => ?_) fun h =>
      absurd (show bitsAt (1 % 2 ^ 1 * 2 ^ 0 &&& (2 ^ 1 - 1) * 2 ^ 0) 0 1 = 1 by decide) h))
    (fun m1 m2 q v => ?_) (show 0 + 1 ≤ 64 by decide) nofun
  · have index : ∀ r ∈ [(⟨.TEN_VIOL, sl⟩ : Reg), ⟨.TEN_VIOL_ADDR, sl⟩, ⟨.TEN_VIOL_TIME, sl⟩, ⟨.TEN_VIOL_COUNT, sl⟩],
        r.resets := by
      simp only [List.mem_cons, List.not_mem_nil, or_false, forall_eq_or_imp, forall_eq]
      exact ⟨⟨sl.isLt, rfl⟩, ⟨sl.isLt, rfl⟩, ⟨sl.isLt, rfl⟩, ⟨sl.isLt, rfl⟩⟩
    exact (resets_ends hw.wf index).imp fun _ _ ⟨faulty, all⟩ => ⟨faulty, all _ (.inl (by simp)), all _ (.inl (by simp))⟩
  · refine ⟨(settled_rd v ⟨.TEN_VIOL, sl⟩).trans q.1, (settled_g v (TEN_VIOL_COUNT_COUNT sl)).trans ?_⟩
    rw [Mach.g, q.2]
    simp [bitsAt]

/-- The counters of the Kerb. -/
def kerbCounters : List Reg := [⟨.KRB_FENCE_CNT, 0⟩, ⟨.KRB_CNT, 0⟩, ⟨.KRB_CNT, 1⟩, ⟨.KRB_CNT, 2⟩]

theorem clearCounters_does (hi : s.Inv) (hl : LandsIn s.m p KRB_CTL_CLR_CNT 1) :
    Does (.krbClrCnt p) s fun t => (∀ c < 3, t.g (KRB_CNT_COUNT c) = 0) ∧ t.rd ⟨.KRB_FENCE_CNT, 0⟩ = 0#64 := by
  refine does_fieldWrite hi hl (Q := fun m1 => ∀ q ∈ kerbCounters, m1.rd q = resetVal q)
    (fun _ m2 _ hw => Ends.getM (Ends.onlyIf (fun _ => ?_) fun h => absurd (by decide) h)) fun m1 m2 q v => ?_
  · have index : ∀ r ∈ kerbCounters, r.resets := by
      simp only [kerbCounters, List.mem_cons, List.not_mem_nil, or_false, forall_eq_or_imp, forall_eq]
      exact ⟨⟨by decide, rfl⟩, ⟨by decide, rfl⟩, ⟨by decide, rfl⟩, ⟨by decide, rfl⟩⟩
    exact (resets_ends hw.wf index).imp fun _ _ ⟨faulty, all⟩ => ⟨faulty, fun q hq => all q (.inl hq)⟩
  · refine ⟨fun c hc => ?_, ?_⟩
    · have mem : (⟨.KRB_CNT, c⟩ : Reg) ∈ kerbCounters := by
        match c, hc with
        | 0, _ | 1, _ | 2, _ => simp [kerbCounters]
      rw [settled_g v (KRB_CNT_COUNT c), Mach.g, q _ mem, show resetVal ⟨.KRB_CNT, c⟩ = 0#64 from rfl]
      simp [bitsAt]
    · rw [settled_rd v ⟨.KRB_FENCE_CNT, 0⟩, q _ (by simp [kerbCounters])]
      rfl

/-! Slices. -/

section
variable {sl : Fin 256}

/-- A write of TEN_CTL finds the slice in the state it was in. -/
theorem Landed.slice {i d n : Nat} (hw : Landed m ⟨.TEN_CTL, i⟩ d n m2) : m2.g (TEN_STATUS_STATE i) = m.g (TEN_STATUS_STATE i) :=
  Landed.g_other (f := TEN_STATUS_STATE i) hw (by simp) (by exact (by decide +kernel : Feet.stored.hasReg .TEN_STATUS = false))

theorem sliceEnable_does (hi : s.Inv) (hl : LandsIn s.m p (TEN_CTL_ENABLE sl) 1) (he : s.m.g (TEN_CTL_ENABLE sl) = 0)
    (hs : s.m.g (TEN_STATUS_STATE sl) = slDISABLED ∨ s.m.g (TEN_STATUS_STATE sl) = slSTOPPING) :
    Does (.sliceEnable p sl) s fun t => t.g (TEN_STATUS_STATE sl) =
      if s.m.g (TEN_STATUS_STATE sl) = slDISABLED then slENABLED else slPENDING := by
  refine does_fieldWrite hi hl (Q := fun m1 => m1.g (TEN_STATUS_STATE sl) =
      if s.m.g (TEN_STATUS_STATE sl) = slDISABLED then slENABLED else slPENDING)
    (fun m m2 hm hw => Ends.getM ?_) (fun m1 m2 q v => (settled_g v (TEN_STATUS_STATE sl)).trans q)
    (show 0 + 1 ≤ 64 by decide) nofun
  have state : m2.g (TEN_STATUS_STATE sl) = s.m.g (TEN_STATUS_STATE sl) := hw.slice.trans (hm ▸ rfl)
  have turned : bitsAt (m.rd ⟨.TEN_CTL, sl⟩).toNat 0 1 = 0 ∧ m2.g (TEN_CTL_ENABLE sl) = 1 :=
    ⟨hm ▸ he, hw.field (show RegKind.TEN_CTL.plain 0 1 = true by decide +kernel)⟩
  dsimp only
  rw [if_pos turned, state]
  refine Ends.ite (fun h => ?_) fun h => Ends.onlyIf (fun _ => ?_) fun h' => absurd (hs.resolve_left h) h'
  · rw [if_pos h]
    exact (sliceOn_ends hw.wf sl.isLt).imp fun _ _ q => ⟨q.faulty, q.state⟩
  · rw [if_neg h]
    exact (sliceState_ends hw.wf sl.isLt (by decide)).imp fun _ _ q => ⟨q.faulty, q.state⟩

theorem sliceDisable_does (hi : s.Inv) (hl : LandsIn s.m p (TEN_CTL_ENABLE sl) 0) (he : s.m.g (TEN_CTL_ENABLE sl) = 1)
    (hs : s.m.g (TEN_STATUS_STATE sl) = slENABLED ∨ s.m.g (TEN_STATUS_STATE sl) = slPENDING) :
    Does (.sliceDisable p sl) s fun t => t.g (TEN_STATUS_STATE sl) = slSTOPPING := by
  refine does_fieldWrite hi hl (Q := fun m1 => m1.g (TEN_STATUS_STATE sl) = slSTOPPING)
    (fun m m2 hm hw => Ends.getM ?_) (fun m1 m2 q v => (settled_g v (TEN_STATUS_STATE sl)).trans q)
    (show 0 + 1 ≤ 64 by decide) nofun
  have state : m2.g (TEN_STATUS_STATE sl) = s.m.g (TEN_STATUS_STATE sl) := hw.slice.trans (hm ▸ rfl)
  have turned : bitsAt (m.rd ⟨.TEN_CTL, sl⟩).toNat 0 1 = 1 ∧ m2.g (TEN_CTL_ENABLE sl) = 0 :=
    ⟨hm ▸ he, hw.field (show RegKind.TEN_CTL.plain 0 1 = true by decide +kernel)⟩
  dsimp only
  rw [if_neg (by rw [turned.1]; exact fun h => absurd h.1 (by decide)), if_pos turned, state]
  refine Ends.ite (fun h => ?_) fun h => Ends.onlyIf (fun _ => ?_) fun h' => absurd (hs.resolve_left h) h'
  · exact (sliceOff_ends hw.wf sl.isLt).imp fun _ _ q => ⟨q.faulty, q.state⟩
  · exact (sliceState_ends hw.wf sl.isLt (by decide)).imp fun _ _ q => ⟨q.faulty, q.state⟩

end

/-! The aperture (R300). -/

section
variable {sl : Fin 256} {w : Fin 8} {data : Word}

/-- What a write asks for lies in the register's named bits. -/
theorem asked_namedBits {k : RegKind} {old d n : Nat} (h : old &&& namedBits k = old) :
    asked k old d n &&& namedBits k = asked k old d n := by
  refine Nat.eq_of_testBit_eq fun b => ?_
  have hb := congrArg (·.testBit b) h
  simp only [Nat.testBit_and, testBit_namedBits, testBit_asked] at hb ⊢
  cases hf : k.fieldAt b with
  | some f => simp
  | none => simpa [hf] using hb

/-- A write through the aperture of a register that the tenant may change whole is that register's, where its test accepts it. -/
theorem apertureWrite_own {n c : Nat} {r : Reg} {own : Bool} {mask : Word} (hc : regsWf m.regs = true) (hw : c < 8)
    (h : apertureReg m n c = some (own, some r)) (hb : tenantBits r = namedBits r.k)
    (ht : writeTest m r data.toNat mask.toNat p = rcOK) :
    SameAt m (apertureWrite (apertureCtl p n c data mask) ⟨.TEN_OBJ_DATA, n * 8 + c⟩) (pure [⟨apertureCtl p n c data mask, r⟩]) := by
  obtain ⟨hs, hn⟩ := apertureIndex (s := n) hw
  have old := rd_namedBits hc r
  have inside : asked r.k (m.rd r).toNat data.toNat mask.toNat - (asked r.k (m.rd r).toNat data.toNat mask.toNat &&& tenantBits r) =
      (m.rd r).toNat - ((m.rd r).toNat &&& tenantBits r) := by
    rw [hb, asked_namedBits old, old, Nat.sub_self, Nat.sub_self]
  intro k
  simp only [apertureWrite, bind_at, getM_at, run_look, hs, hn, h, inside, ht, ne_eq, not_true_eq_false, and_false, if_false, if_true]

theorem and_allOnes : data.toNat &&& (BitVec.allOnes 64).toNat = data.toNat := by
  rw [show (BitVec.allOnes 64).toNat = 2 ^ 64 - 1 from rfl, Nat.and_two_pow_sub_one_eq_mod, Nat.mod_eq_of_lt data.isLt]

/-- A path that reaches a word reaches it with a write under a whole mask. -/
theorem reaches_whole {addr : Nat} (h : reaches s.m p addr true data.toNat = true) :
    reaches ((Upd.out []).apply s.m) p addr true (data.toNat &&& (BitVec.allOnes 64).toNat) = true := by
  rw [and_allOnes]
  exact h

/-- A parameter of a table that the tenant writes through its aperture holds what was written (Table 11.6). -/
theorem apertureParam_does {n : Nat} (hi : s.Inv)
    (hr : reaches s.m p (⟨.TEN_OBJ_DATA, sl * 8 + w⟩ : Reg).addr true data.toNat = true)
    (h : apertureReg s.m sl w = some (true, some ⟨.LM_TBL_PARAM, n⟩))
    (ht : writeTest s.m ⟨.LM_TBL_PARAM, n⟩ data.toNat (2 ^ 64 - 1) p = rcOK)
    (hf : ∀ f ∈ s.m.faulty, (⟨.LM_TBL_PARAM, n⟩ : Reg) ∉ f.left) :
    Does (.apertureAccess p sl w (some data)) s fun t => t.g (LM_TBL_PARAM_PARAM n) = data.toNat := by
  have wf : regsWf ((Upd.out []).apply s.m).regs = true := hi.canon.regs
  have reach := reaches_whole hr
  have admitted : SameAt ((Upd.out []).apply s.m) (admitWrite (apertureCtl p sl w data (BitVec.allOnes 64)))
      (pure [⟨apertureCtl p sl w data (BitVec.allOnes 64), ⟨.LM_TBL_PARAM, n⟩⟩]) := fun k =>
    (admit_aperture sl.isLt w.isLt reach k).trans (apertureWrite_own (data := data) (mask := BitVec.allOnes 64) wf w.isLt h rfl ht k)
  refine does_settled (x := regWrite [apertureCtl p sl w data (BitVec.allOnes 64)])
    (Q := fun m1 => m1.g (LM_TBL_PARAM_PARAM n) = data.toNat)
    (regWrite_admitted admitted (writeOne_lands wf nofun ⟨(apertureReg_own h).2, ht, hf⟩ fun m2 hw =>
      fun _ => ⟨(), m2, rfl, rfl, hw.toWritten.whole (by decide +kernel)⟩)) fun _ _ q v => (settled_g v (LM_TBL_PARAM_PARAM n)).trans q

/-- A write through the aperture of an object that is not the tenant's is refused. -/
theorem apertureForeign_does (hi : s.Inv)
    (hr : reaches s.m p (⟨.TEN_OBJ_DATA, sl * 8 + w⟩ : Reg).addr true data.toNat = true)
    (h : apertureReg s.m sl w = none) :
    Does (.apertureAccess p sl w (some data)) s fun t => t.g (TEN_OBJ_STATUS_REFUSED sl) = 1 := by
  have reach := reaches_whole hr
  have nowhere : ∀ own r, apertureReg ((Upd.out []).apply s.m) sl w ≠ some (own, some r) := fun own r =>
    show apertureReg s.m sl w ≠ _ by rw [h]; nofun
  obtain ⟨x, hx, only⟩ := apertureWrite_none (p := p) (data := data) (mask := BitVec.allOnes 64) w.isLt nowhere
  exact does_settled (x := regWrite [apertureCtl p sl w data (BitVec.allOnes 64)])
    (Q := fun m1 => m1.g (TEN_OBJ_STATUS_REFUSED sl) = 1)
    (regWrite_refused (fun k => (admit_aperture sl.isLt w.isLt reach k).trans (hx k))
      (apertureRefuse_ends only hi.canon.regs sl.isLt)) fun _ _ q v => (settled_g v (TEN_OBJ_STATUS_REFUSED sl)).trans q

/-- A read through the aperture returns the register that it stands for. -/
theorem apertureRead_does {r : Reg} (hi : s.Inv)
    (hr : reaches s.m p (⟨.TEN_OBJ_DATA, sl * 8 + w⟩ : Reg).addr false 0 = true)
    (h : apertureReg s.m sl w = some (true, some r)) :
    Does (.apertureAccess p sl w none) s fun t => Out.read (⟨.TEN_OBJ_DATA, sl * 8 + w⟩ : Reg).addr (liveRead s.m r) ∈ t.out := by
  obtain ⟨h8, hat⟩ := aperture_mapped sl.isLt w.isLt
  obtain ⟨hs, hn⟩ := apertureIndex (s := sl) w.isLt
  have found : apertureReg ((Upd.out []).apply s.m) ((sl * 8 + w) / 8) ((sl * 8 + w) % 8) = some (true, some r) := by
    rw [hs, hn]
    exact h
  have read : SameAt ((Upd.out []).apply s.m) (readNow ⟨.TEN_OBJ_DATA, sl * 8 + w⟩) (pure (liveRead s.m r)) := fun k => by
    simp only [readNow, apertureRead, bind_at, getM_at, run_look, found, if_true, pure_at, liveRead_sent]
  refine does_calm (x := regRead p (⟨.TEN_OBJ_DATA, sl * 8 + w⟩ : Reg).addr 8)
    (Q := fun m1 => Out.read (⟨.TEN_OBJ_DATA, sl * 8 + w⟩ : Reg).addr (liveRead s.m r) ∈ m1.out) ?_ fun _ _ q => q
  refine (regRead_ends (m := (Upd.out []).apply s.m) (Q := Calm) hat h8 hr read (Ends.pure hi.sent)).imp fun _ m1 ⟨m2, q, h1⟩ => ?_
  subst h1
  exact ⟨⟨q.told, q.due⟩, by simp⟩

end

/-! The debug master (R299). -/

section
variable {a : Nat} {write : Bool} {data : List Word}

theorem debugPassed_does (hi : s.Inv) (h : debugOpen s.m = true) (hv : debugVerdict s.m a = none) (hh : homeHere s.m a = true) :
    Does (.debugFabricAccess a write data) s fun t =>
      ∃ q : Msg, [q] ∈ t.getXin (epMG * 8 + if write then 3 else 2) ∧ q.addr = a ∧ q.out = epSq (homeSq a) ∧
        q.op = if write then .memWr else .rdS :=
  does_calm ((debugFabric_passed (write := write) (data := data) (m := (Upd.out []).apply s.m) hi.canon.xin h hv hh).imp
    fun _ _ ⟨v, q⟩ => ⟨hi.sent.kept v, q⟩) fun _ _ q => q

theorem debugRefused_does {c : Nat} {w : Win} (hi : s.Inv) (h : debugOpen s.m = true) (hv : debugVerdict s.m a = some (c, w)) :
    Does (.debugFabricAccess a write data) s fun t =>
      t.g (KRB_CNT_COUNT kcDEBUG_REFUSED) = Nat.min (s.m.g (KRB_CNT_COUNT kcDEBUG_REFUSED) + 1) (2 ^ 64 - 1) ∧
      t.kacc = s.m.kacc ∧ (write = false → Out.debug a (List.replicate 8 (BitVec.allOnes 64)) true ∈ t.out) :=
  does_growing ((debugFabric_refused (write := write) (data := data) (m := (Upd.out []).apply s.m) hi.canon.regs h hv).imp
    fun _ _ ⟨due, q⟩ => ⟨due.trans hi.calm, q⟩) fun _ _ ⟨kacc, count, sent⟩ v g =>
      ⟨(settled_g v (KRB_CNT_COUNT _)).trans count, g.kacc.trans kacc, fun hw => g.out _ (sent hw)⟩

theorem debugLocked_does (hi : s.Inv) (h : debugOpen s.m = false) :
    Does (.debugFabricAccess a write data) s fun t => Out.debug a [] false ∈ t.out ∧ t.kacc = s.m.kacc :=
  does_growing ((debugFabric_locked (a := a) (write := write) (data := data) (m := (Upd.out []).apply s.m) h).imp
    fun _ _ ⟨due, q⟩ => ⟨due.trans hi.calm, q⟩) fun _ _ ⟨kacc, sent⟩ _ g => ⟨g.out _ sent, g.kacc.trans kacc⟩

end

end Sys2Proof.Machine
end

section
/-!
Windows, fences, slices and the aperture (R284, R290-R297, R299, R300, R302; O19).
-/
namespace Sys2Proof.Machine

-- One declaration at a time: proofs that compute in the kernel wait for it, each with a stack of its own.
set_option Elab.async false

variable {s : State}

/-! The ends of a fence's check and of its drain (R292-R295). -/

theorem fencePassed_does (hi : s.Inv) (hs : s.m.g KRB_FENCE_STATUS_STATE = 1) (hv : fenceVerdict s.m = none) :
    Does .kerbFenceCheckDone s fun t =>
      t.g KRB_FENCE_STATUS_STATE = 2 ∧ t.g KRB_FENCE_STATUS_EPOCH = 1 - s.m.g KRB_FENCE_STATUS_EPOCH := by
  refine does_settled (fenceCheckRow_ends (fenceCheckDone_passed (m := (Upd.out []).apply s.m) hi.canon.regs hs hv)
    fun m1 q h => absurd (q.1.symm.trans h) (by decide)) fun m1 m2 q v => ?_
  rw [settled_g v KRB_FENCE_STATUS_STATE, settled_g v KRB_FENCE_STATUS_EPOCH]
  exact q

theorem fenceRefused_does {reason w other a : Nat} (hi : s.Inv) (hs : s.m.g KRB_FENCE_STATUS_STATE = 1)
    (hl : s.m.ldr.running = none ∨ s.m.ldr.fence = 0) (hv : fenceVerdict s.m = some (reason, w, other, a)) :
    Does .kerbFenceCheckDone s (FenceRefused s.m reason w other a) :=
  does_settled (fenceCheckRow_ends (fenceCheckDone_refused (m := (Upd.out []).apply s.m) hi.canon.regs hs hv)
    fun m1 q _ => q.2.symm ▸ hl) fun m1 m2 q v =>
      FenceRefused.kept (m := s.m) ⟨q.1.state, q.1.result, q.1.reason, q.1.window, q.1.other, q.1.addr, q.1.epoch⟩ v
        (kerbKinds_settled (by simp [kerbKinds])) (kerbKinds_settled (by simp [kerbKinds]))

theorem fenceDrained_does (hi : s.Inv) (hs : s.m.g KRB_FENCE_STATUS_STATE = 2) (ho : oldOut s.m = 0)
    (hl : s.m.ldr.running = none ∨ s.m.ldr.fence = 0) :
    Does .kerbFenceDrained s fun t => t.g KRB_FENCE_STATUS_STATE = 0 ∧
      t.g KRB_FENCE_STATUS_RESULT = if s.m.g KRB_FENCE_STATUS_RESULT = 3 then 3 else 1 := by
  refine does_settled (fenceDrainedRow_ends (m := (Upd.out []).apply s.m) hi.canon.regs hs ho hl) fun m1 m2 q v => ?_
  rw [settled_g v KRB_FENCE_STATUS_STATE, settled_g v KRB_FENCE_STATUS_RESULT]
  exact q

theorem fenceTimeout_does (hi : s.Inv) (hs : s.m.g KRB_FENCE_STATUS_STATE = 2) (hr : s.m.g KRB_FENCE_STATUS_RESULT ≠ 3)
    (ho : 0 < oldOut s.m) :
    Does .kerbFenceTimeout s fun t => t.g KRB_FENCE_STATUS_RESULT = 3 ∧ Told 0x0883 s.m t :=
  does_told hi (by decide) (fenceTimeout_ends (m := (Upd.out []).apply s.m) hi.canon.regs hi.told hs hr ho)
    fun _ _ q v told => ⟨(settled_g v KRB_FENCE_STATUS_RESULT).trans q, told⟩

/-! The ends of a slice's stop (R284). -/

theorem sliceDrained_does {sl : Fin 256} (hi : s.Inv) (hd : sliceDrainDone s.m sl = true)
    (h : s.m.g (TEN_STATUS_STATE sl) = slSTOPPING ∨ s.m.g (TEN_STATUS_STATE sl) = slPENDING) :
    Does (.sliceDrained sl) s fun t => t.g (TEN_STATUS_STATE sl) =
      if s.m.g (TEN_STATUS_STATE sl) = slPENDING then slENABLED else slDISABLED :=
  does_settled (sliceDrained_ends (m := (Upd.out []).apply s.m) hi.canon.regs sl.isLt hd h) fun _ _ q v =>
    (settled_g v (TEN_STATUS_STATE sl)).trans q.state

theorem sliceStopTimeout_does {sl : Fin 256} (hi : s.Inv)
    (h : s.m.g (TEN_STATUS_STATE sl) = slSTOPPING ∨ s.m.g (TEN_STATUS_STATE sl) = slPENDING) :
    Does (.sliceStopTimeout sl) s fun t => t.g (TEN_STATUS_STATE sl) =
      if s.m.g (TEN_STATUS_STATE sl) = slPENDING then slENABLED else slDISABLED :=
  does_settled (sliceTimeout_ends (m := (Upd.out []).apply s.m) hi.canon.regs sl.isLt h) fun _ _ q v =>
    (settled_g v (TEN_STATUS_STATE sl)).trans q.state

/-- Settles O19: windows, fences, slices, captures and counters take their writes and their events, the aperture stands for the
register of an object that is the tenant's, and the debug master's accesses go the way that the windows decide. -/
theorem kerbCompletes : Obligations.KerbCompletes := by
  intro s hi
  refine ⟨fun p n w data hl => windowWrite_does hi hl, fun p hl => fenceGo_does hi hl, fun hs hv => fencePassed_does hi hs hv,
    fun reason w other a hs hl hv => ?_, fun hs ho hl => fenceDrained_does hi hs ho hl,
    fun hs hr ho => fenceTimeout_does hi hs hr ho, fun p sl hl he hs => sliceEnable_does hi hl he hs,
    fun p sl hl he hs => sliceDisable_does hi hl he hs,
    fun sl h => ⟨fun hd => sliceDrained_does hi hd h, sliceStopTimeout_does hi h⟩, fun p sl hl => violationClear_does hi hl,
    fun p sl w data hr => ⟨fun n h ht hf => apertureParam_does hi hr h ht hf, fun h => apertureForeign_does hi hr h⟩,
    fun p sl w r hr h => apertureRead_does hi hr h, fun a write data h hv hh => debugPassed_does hi h hv hh,
    fun a write data c w h hv => debugRefused_does hi h hv, fun a write data h => debugLocked_does hi h,
    fun p hl => clearCounters_does hi hl⟩
  obtain ⟨t, ht, pending, refused⟩ := fenceRefused_does hi hs hl hv
  exact ⟨t, ht, pending, refused.state, refused.result, refused.reason, refused.window, refused.other, refused.addr, refused.epoch⟩

end Sys2Proof.Machine
end

section
/-!
SUPPORT. Programs that lead to a block within a set, and what the end of their step leaves: while no fence is due it delivers
records, which add to what waits and to what was sent, and sets the output pins (R370).
-/
namespace Sys2Proof.Machine

-- One declaration at a time: proofs that compute in the kernel wait for it, each with a stack of its own.
set_option Elab.async false

/-! Programs within a set. -/

/-- The program leads, by updates of the set alone, to a block of which `Q` holds. -/
def Leads {α : Type} (A : Mask) (x : P α) (m : Mach) (Q : α → Mach → Prop) : Prop :=
  Ends x m fun a m1 => Via A.has m m1 ∧ Q a m1

section
variable {α β : Type} {A B : Mask} {m m1 m2 : Mach} {x : P α} {Q : α → Mach → Prop}

theorem Leads.imp {R : α → Mach → Prop} (h : Leads A x m Q) (hQ : ∀ a m1, Via A.has m m1 → Q a m1 → R a m1) : Leads A x m R :=
  Ends.imp h fun a m1 ⟨v, q⟩ => ⟨v, hQ a m1 v q⟩

theorem Leads.le (h : Leads B x m Q) (hB : B.le A = true := by decide +kernel) : Leads A x m Q :=
  Ends.imp h fun _ _ ⟨v, q⟩ => ⟨v.mono (Mask.has_mono hB), q⟩

/-- What a program of a set leads to. -/
theorem Only.leads (h : Only B.has x) (hB : B.le A = true := by decide +kernel) : Leads A x m fun _ => Via B.has m :=
  (h.ends m).imp fun _ _ v => ⟨v.mono (Mask.has_mono hB), v⟩

theorem Leads.pure {a : α} (h : Q a m) : Leads A (pure a) m Q := Ends.pure ⟨.refl m, h⟩

theorem Leads.getM {f : Mach → P α} (h : Leads A (f m) m Q) : Leads A (getM >>= f) m Q := h

theorem Leads.bind {f : α → P β} {R : β → Mach → Prop} (hx : Leads A x m Q) (hf : ∀ a m1, Q a m1 → Leads A (f a) m1 R) :
    Leads A (x >>= f) m R :=
  Ends.bind hx fun a m1 ⟨v, q⟩ => Ends.imp (hf a m1 q) fun _ _ h => ⟨v.trans h.1, h.2⟩

/-- A program of a set comes first: what follows begins where it leads. -/
theorem Leads.after {f : α → P β} {R : β → Mach → Prop} (hx : Only B.has x)
    (hf : ∀ a m1, Via B.has m m1 → Leads A (f a) m1 R)
    (hB : B.le A = true := by decide +kernel) : Leads A (x >>= f) m R := (hx.leads hB).bind hf

/-- A program of a set comes last: it keeps what the first part leads to. -/
theorem Leads.then {f : α → P β} {R : Mach → Prop} (hx : Leads A x m Q) (hf : ∀ a, Only B.has (f a))
    (hR : ∀ a m1 m2, Q a m1 → Via B.has m1 m2 → R m2) (hB : B.le A = true := by decide +kernel) :
    Leads A (x >>= f) m fun _ => R :=
  hx.bind fun a m1 q => ((hf a).leads hB).imp fun _ m2 _ v => hR a m1 m2 q v

theorem Leads.ite {c : Prop} [Decidable c] {y : P α} (hx : c → Leads A x m Q) (hy : ¬c → Leads A y m Q) :
    Leads A (if c then x else y) m Q := Ends.ite hx hy

theorem Leads.onlyIf {c : Prop} [Decidable c] {x : P Unit} {Q : Unit → Mach → Prop} (hx : c → Leads A x m Q)
    (hy : ¬c → Q () m) :
    Leads A (onlyIf c x) m Q := Leads.ite hx fun h => Leads.pure (hy h)

theorem Leads.wr {f : RF} {v : Nat} {Q : Unit → Mach → Prop} (k : RegKind) (h : Q () (m.set f v)) (hf : f.k = k := by rfl)
    (hA : A.hasReg k = true := by decide +kernel) : Leads A (wr f v) m Q :=
  Ends.wr ⟨.head (by rw [Mask.has_reg, hf]; exact hA) (.refl _), h⟩

theorem Leads.upd {u : Upd} {T : Tab} {Q : Unit → Mach → Prop} (hu : u.tab = some T) (hA : A.hasTab T = true)
    (h : Q () (u.apply m)) : Leads A (doU u) m Q := Ends.upd ⟨.head (by rw [Mask.has_tab hu]; exact hA) (.refl _), h⟩

/-- The registers of a name that the set leaves out stand. -/
theorem Via.g_of (v : Via A.has m m1) (k : RegKind) {i lo w : Nat} (hk : A.hasReg k = false := by decide +kernel) :
    m1.g ⟨k, i, lo, w⟩ = m.g ⟨k, i, lo, w⟩ := v.g_kept ⟨k, i, lo, w⟩ hk

theorem Via.rd_of (v : Via A.has m m1) (k : RegKind) {i : Nat} (hk : A.hasReg k = false := by decide +kernel) :
    m1.rd ⟨k, i⟩ = m.rd ⟨k, i⟩ := v.rd_eq ⟨k, i⟩ fun _ => by rw [Mask.has_reg, hk]

/-- The canonical forms are kept. -/
theorem Via.canon {S : Upd → Bool} (v : Via S m m1) (h : m.Canon) : m1.Canon := by
  induction v with
  | refl => exact h
  | head _ _ ih => exact ih (Upd.apply_canon h _)

end

/-! What joins an input FIFO stays there, and the Service Functions stand but for pending vectors (R246). -/

/-- What a host sets of its Service Function. -/
def SfCfg.settings (c : SfCfg) : Bool × Bool × Bool × List Nat := (c.bme, c.pasid, c.tph, c.unmasked)

/-- Every message that waits still waits, the hosts' settings and the input pins stand, and a fence is due as it was. -/
structure Joins (m m1 : Mach) : Prop where
  canon : m1.Canon
  xin : ∀ k, ∀ l ∈ m.getXin k, l ∈ m1.getXin k
  sf : ∀ v, (m1.getSf v).settings = (m.getSf v).settings
  perst : m1.pins.perst = m.pins.perst
  present : m1.pins.present = m.pins.present
  due : m1.feDue = m.feDue

theorem Joins.refl {m : Mach} (h : m.Canon) : Joins m m := ⟨h, fun _ _ hl => hl, fun _ => rfl, rfl, rfl, rfl⟩

theorem Joins.trans {m m1 m2 : Mach} (h : Joins m m1) (h' : Joins m1 m2) : Joins m m2 where
  canon := h'.canon
  xin k l hl := h'.xin k l (h.xin k l hl)
  sf v := (h'.sf v).trans (h.sf v)
  perst := h'.perst.trans h.perst
  present := h'.present.trans h.present
  due := h'.due.trans h.due

/-- Whether a set names nothing of these. -/
def Mask.joins (A : Mask) : Bool := ([.xin, .sf, .pins, .feDue] : List Tab).all fun T => A.hasTab T = false

theorem Via.joins {A : Mask} {m m1 : Mach} (v : Via A.has m m1) (h : m.Canon) (hA : A.joins = true := by decide +kernel) :
    Joins m m1 := by
  simp only [Mask.joins, List.all_cons, List.all_nil, Bool.and_eq_true, decide_eq_true_eq, and_true] at hA
  obtain ⟨hx, hs, hp, hf⟩ := hA
  have pins : m1.pins = m.pins := v.tab_kept .pins hp
  refine ⟨v.canon h, fun k l hl => ?_, fun n => ?_, by rw [pins], by rw [pins], v.tab_kept .feDue hf⟩
  · rwa [Mach.getXin, show m1.xin = m.xin from v.tab_kept .xin hx]
  · rw [Mach.getSf, show m1.sf = m.sf from v.tab_kept .sf hs]
    rfl

/-- A program that leaves them so from every block in canonical form. -/
def Joining {α : Type} (x : P α) : Prop := ∀ m : Mach, m.Canon → Ends x m fun _ => Joins m

section
variable {α β : Type} {x y : P α} {A : Mask}

theorem Only.joining (h : Only A.has x) (hA : A.joins = true := by decide +kernel) : Joining x := fun m hc =>
  (h.ends m).imp fun _ _ v => v.joins hc hA

theorem Joining.bind {f : α → P β} (hx : Joining x) (hf : ∀ a, Joining (f a)) : Joining (x >>= f) := fun m hc =>
  (hx m hc).bind fun a m1 g => (hf a m1 g.canon).imp fun _ _ => g.trans

theorem Joining.pure (a : α) : Joining (pure a : P α) := fun _ hc => Ends.pure (.refl hc)

theorem Joining.getM {f : Mach → P α} (h : ∀ m, Joining (f m)) : Joining (getM >>= f) := fun m hc => Ends.getM (h m m hc)

theorem Joining.ite {c : Prop} [Decidable c] (hx : Joining x) (hy : Joining y) : Joining (if c then x else y) := by
  split
  · exact hx
  · exact hy

theorem Joining.each {l : List α} {f : α → P Unit} (h : ∀ a, Joining (f a)) : Joining (each l f) := by
  induction l with
  | nil => exact .pure ()
  | cons a t ih => exact (h a).bind fun _ => ih

end

/-- A message joins its FIFO behind those that wait. -/
theorem xsend_joining (msg : Msg) : Joining (xsend msg) := fun m hc => by
  rw [xsend_eq]
  refine ((xsendCounts_only msg).ends m).bind fun _ m1 v => fun _ =>
    ⟨(), _, rfl, (v.joins hc).trans ⟨?_, fun k l hl => ?_, fun _ => rfl, rfl, rfl, rfl⟩⟩
  · exact Upd.apply_canon (v.canon hc) _
  · change l ∈ tget [] (tput [] m1.xin (msg.inp * 8 + msg.cls) (m1.getXin (msg.inp * 8 + msg.cls) ++ [[msg]])) k
    by_cases hk : k = msg.inp * 8 + msg.cls
    · subst hk
      rw [tget_tput_same (v.canon hc).xin]
      exact List.mem_append_left _ hl
    · rw [tget_tput_other (v.canon hc).xin hk]
      exact hl

theorem msixSend_joining (inp v vec cls : Nat) : Joining (msixSend inp v vec cls) := by
  refine fun m hc => Ends.getM (Ends.ite (fun _ => Ends.upd ⟨Upd.apply_canon hc _, fun _ _ hl => hl, fun n => ?_, rfl, rfl, rfl⟩)
    fun _ => xsend_joining _ m hc)
  change (tget _ (tput _ m.sf v _) n).settings = (m.getSf n).settings
  by_cases hn : n = v
  · subst hn
    rw [tget_tput_same hc.sf]
    rfl
  · rw [tget_tput_other hc.sf hn]
    rfl

theorem ringPut_joining (inp r cls : Nat) (ws : List Word) (pad poison : Bool) : Joining (ringPut inp r cls ws pad poison) := by
  have mod {f : RingX → RingX} : Joining (modRing r f) :=
    Only.joining (A := Mask.of [] [.ring]) (Only.bind (Only.bind Only.getM fun _ => Only.pure _) fun _ =>
      Only.doT .ring rfl (by decide +kernel))
  have advance {n : Nat} : Only (Mask.of [.RNG_IDX, .RNG_CNT] []).has (do
      addWrap (RNG_IDX_PROD r) n
      onlyIf (pad = false) (inc (RNG_CNT_ENTRIES r))) :=
    Only.bind (Only.addWrapK .RNG_IDX rfl (by decide +kernel)) fun _ => Only.onlyIf (Only.incK .RNG_CNT rfl (by decide +kernel))
  exact .getM fun _ => .bind (.each fun _ => .bind (xsend_joining _) fun _ => mod) fun _ => .bind (xsend_joining _) fun _ =>
    .bind mod fun _ => advance.joining

theorem ringIrq_joining (inp r cls : Nat) (atOnce : Bool) : Joining (ringIrq inp r cls atOnce) := by
  have put {x : RingX} : Joining (putRing r x) :=
    Only.joining (A := Mask.of [] [.ring]) (Only.doT .ring rfl (by decide +kernel))
  exact .getM fun _ => .ite (.ite (.bind put fun _ => msixSend_joining _ _ _ _) put) (.pure ())

theorem evRingPut_joining (r : Nat) (e : EvRec) : Joining (evRingPut r e) := by
  have mod {f : RingX → RingX} : Only (Mask.of [.RNG_CNT] [.ring]).has (modRing r f) :=
    Only.bind (Only.bind Only.getM fun _ => Only.pure _) fun _ => Only.doT .ring rfl (by decide +kernel)
  exact .getM fun _ => .ite
    (.bind (ringPut_joining _ _ _ _ _ _) fun _ => .bind mod.joining fun _ => ringIrq_joining _ _ _ _)
    (Only.bind (Only.incK .RNG_CNT rfl (by decide +kernel)) fun _ => mod).joining

/-- What the firmware's part of the delivery of a record can change. -/
def Feet.evFirmware : Mask := (.of [.INT_EVQ_CNT] [.hold, .evLost] : Mask).plus [Feet.emit, Feet.evqPut]

theorem evFirmware_within (e : EvRec) : Only Feet.evFirmware.has (evFirmware e) := by
  have lost : Only Feet.evFirmware.has (putEvLost true) := Only.doT .evLost rfl (by decide +kernel)
  refine Only.bind Only.getM fun m => Only.bind (Only.onlyIf ((emit_only _).le (by decide +kernel))) fun _ => ?_
  refine Only.ite lost (Only.ite ((evqPut_only e).le (by decide +kernel)) (Only.ite ?_ ?_))
  · exact Only.bind (Only.bind Only.getM fun _ => Only.pure _) fun _ => Only.doT .hold rfl (by decide +kernel)
  · exact Only.bind (Only.incK .INT_EVQ_CNT rfl (by decide +kernel)) fun _ => lost

theorem evOut_joining (x : EvRec × Option Nat) : Joining (evOut x) := by
  refine (evFirmware_within x.1).joining.bind fun _ => ?_
  cases x.2 with
  | some r => exact evRingPut_joining r x.1
  | none => exact .pure ()

theorem evFlush_joining : Joining evFlush :=
  .getM fun _ => (Only.joining (A := Mask.of [] [.evPend]) (Only.doT .evPend rfl (by decide +kernel))).bind fun _ =>
    .each evOut_joining

/-! The end of a step while no fence is due. -/

/-- What the end of a step can change while no fence is due. -/
def Feet.delivery : Mask := Feet.evFlush.plus [Feet.quiet]

/-- What the end of a step leaves while no fence is due. -/
structure Settled (m m1 : Mach) : Prop extends Joins m m1 where
  via : Via Feet.delivery.has m m1
  out : ∀ o ∈ m.out, o ∈ m1.out

/-- The output pins follow the block, and the input pins stand. -/
theorem pinsShow_joins {m : Mach} (h : m.Canon) (hd : m.feDue = false) :
    ∃ m1, Prog.run (pinsShow fun _ => .done) m = m1 ∧ Joins m m1 :=
  ⟨_, rfl, ⟨Upd.apply_canon (Upd.apply_canon h _) (.pins _), fun _ _ hl => hl, fun _ => rfl, rfl, rfl, hd.symm⟩⟩

theorem settle_settled {m : Mach} (hc : m.Canon) (hd : m.feDue = false) : Settled m (Prog.run (toProg settle) m) := by
  obtain ⟨_, m1, h1, joins⟩ := evFlush_joining m hc fun _ => feFence fun _ => pinsShow fun _ => .done
  have calm : m1.feDue = false := joins.due.trans hd
  obtain ⟨m2, h2, shown⟩ := pinsShow_joins joins.canon calm
  have ends : Prog.run (toProg settle) m = m2 :=
    calc Prog.run (toProg settle) m
      _ = Prog.run (feFence fun _ => pinsShow fun _ => .done) m1 := h1
      _ = Prog.run (pinsShow fun _ => .done) m1 := by simp [feFence, calm]
      _ = m2 := h2
  exact ⟨ends ▸ joins.trans shown, settle_via (by decide +kernel) (.inr (by decide +kernel)) (.inl hd), (settle_grows hd).out⟩

section
variable {m m1 : Mach}

theorem Settled.g_of (h : Settled m m1) (k : RegKind) {i lo w : Nat} (hk : Feet.delivery.hasReg k = false := by decide +kernel) :
    m1.g ⟨k, i, lo, w⟩ = m.g ⟨k, i, lo, w⟩ := h.via.g_of k hk

theorem Settled.port (h : Settled m m1) (p : Nat) : m1.getPort p = m.getPort p :=
  congrArg (tget ({} : PortX) · p) (show m1.port = m.port from h.via.tab_kept .port)

end

/-- What holds at the end of a command whose program makes no fence due. -/
theorem does_leads {c : Instr} {x : P Unit} {s : State} {A : Mask} {Q R : Mach → Prop} (hi : s.Inv)
    (hp : Leads A x ((Upd.out []).apply s.m) fun _ => Q) (hQ : ∀ m1 m2, Q m1 → Settled m1 m2 → R m2)
    (hA : A.hasTab .feDue = false := by decide +kernel) (hx : exec c s = Machine.cmd x s := by rfl) : Does c s R := by
  obtain ⟨_, m1, h1, v, q⟩ := hp fun _ => toProg settle
  refine ⟨_, hx.trans (cmd_run x s), rfl, ?_⟩
  change R (Prog.run (x fun _ => toProg settle) ((Upd.out []).apply s.m))
  rw [h1]
  exact hQ m1 _ q (settle_settled (v.canon (Upd.apply_canon hi.canon _)) ((v.tab_kept .feDue hA).trans hi.calm))

end Sys2Proof.Machine
end

section
/-!
SUPPORT. What the operations of a port's training and of its states lead to (R54-R60, R74-R80, Table 3.3), and what the write of a
field leads to within a set (R424).
-/
namespace Sys2Proof.Machine

-- One declaration at a time: proofs that compute in the kernel wait for it, each with a stack of its own.
set_option Elab.async false

/-! Fields of the registers of an array. -/

section
variable {m : Mach} {k : RegKind} {i lo w lo' w' x : Nat}

theorem g_set_at (h : regsWf m.regs = true) (hi : i < k.count) (hs : (⟨k, 0, lo, w⟩ : RF).storable = true := by decide +kernel) :
    (m.set ⟨k, i, lo, w⟩ x).g ⟨k, i, lo, w⟩ = x % 2 ^ w := g_set_same h (storable_at hi hs)

/-- A store of one field of an array's register leaves the fields beside it. -/
theorem g_set_next (h : regsWf m.regs = true) (hi : i < k.count) (hd : lo' + w' ≤ lo ∨ lo + w ≤ lo' := by decide)
    (hs : (⟨k, 0, lo', w'⟩ : RF).storable = true := by decide +kernel) :
    (m.set ⟨k, i, lo, w⟩ x).g ⟨k, i, lo', w'⟩ = m.g ⟨k, i, lo', w'⟩ := g_set_beside h (storable_at hi hs) rfl rfl hd

theorem bitsAt_low (h : x < 2 ^ w) : bitsAt x 0 w = x := by rw [bitsAt, Nat.pow_zero, Nat.div_one, Nat.mod_eq_of_lt h]

theorem g_lt (f : RF) : m.g f < 2 ^ f.w := Nat.mod_lt _ (Nat.two_pow_pos _)

end

/-! What the block holds of a port beside its registers. -/

section
variable {m : Mach} {A : Mask} {p : Nat} {f : PortX → PortX}

theorem Via.port_kept {m1 : Mach} (v : Via A.has m m1) (p : Nat) (h : A.hasTab .port = false := by decide +kernel) :
    m1.getPort p = m.getPort p := congrArg (tget ({} : PortX) · p) (show m1.port = m.port from v.tab_kept .port h)

theorem modPort_leads (h : m.Canon) (hA : A.hasTab .port = true := by decide +kernel) :
    Leads A (modPort p f) m fun _ m1 => m1.getPort p = f (m.getPort p) ∧ m1.Canon ∧ ∀ q, m1.g q = m.g q := fun _ =>
  ⟨(), (Upd.port p (f (m.getPort p))).apply m, rfl, .head (by rw [Mask.has_tab rfl]; exact hA) (.refl _), tget_tput_same h.port,
    Upd.apply_canon h _, fun _ => rfl⟩

end

/-! Training and the states of a port. -/

section
variable {m : Mach} {p n : Nat}

theorem portTo_leads (h : regsWf m.regs = true) (hp : p < 128) (hn : n < 8) : Leads Feet.portTo (portTo p n) m fun _ m1 =>
    m1 = m.set (OCT_PORT_STATUS_STATE p) n ∧ m1.g (OCT_PORT_STATUS_STATE p) = n :=
  Leads.wr .OCT_PORT_STATUS ⟨rfl, (g_set_at h hp).trans (Nat.mod_eq_of_lt hn)⟩

/-- The link fields of a port are cleared, and its state stands. -/
theorem linkClear_leads (h : regsWf m.regs = true) (hp : p < 128) : Leads Feet.linkClear (linkClear p) m fun _ m1 =>
    m1.g (OCT_PORT_STATUS_STATE p) = m.g (OCT_PORT_STATUS_STATE p) ∧ m1.g (OCT_PORT_IDE_STATE p) = 0 := by
  refine Leads.getM (Leads.after (laneBits_only _ _ _) fun _ m1 v1 => ?_)
  have wf1 := v1.regs_wf h
  refine Leads.bind (Q := fun _ m2 => regsWf m2.regs = true ∧ m2.g (OCT_PORT_STATUS_STATE p) = m.g (OCT_PORT_STATUS_STATE p))
    (Ends.upd ⟨.head (show Feet.linkClear.has (.reg ⟨.OCT_PORT_STATUS, p⟩ _) = true by
      rw [Mask.has_reg]; exact (by decide +kernel : Feet.linkClear.hasReg .OCT_PORT_STATUS = true)) (.refl _),
        regStore_wf wf1, ?_⟩) fun _ m2 ⟨wf2, state⟩ =>
    Leads.bind (Leads.wr .OCT_PORT_IDE (Q := fun _ m3 => m3 = m2.set (OCT_PORT_IDE_STATE p) 0) rfl) fun _ m3 h3 =>
    Leads.wr .OCT_PORT_IDE ?_
  · rw [g_store_same (f := OCT_PORT_STATUS_STATE p) wf1 (storable_at hp (by decide +kernel))]
    exact bitsAt_low (g_lt (OCT_PORT_STATUS_STATE p))
  · subst h3
    rw [g_set_other (by simp), g_set_other (by simp), state, g_set_next (set_wf wf2) hp, g_set_at wf2 hp]
    exact ⟨rfl, rfl⟩

/-- A training attempt starts. -/
structure Trains (m : Mach) (p : Nat) (fresh : Bool) (m1 : Mach) : Prop where
  state : m1.g (OCT_PORT_STATUS_STATE p) = psTRAINING
  tries : (m1.getPort p).tries = if fresh then 0 else (m.getPort p).tries + 1

theorem trainStart_leads {fresh : Bool} (h : m.Canon) (hp : p < 128) :
    Leads Feet.trainStart (trainStart p fresh) m fun _ => Trains m p fresh := by
  refine Leads.getM (Leads.after (linkClear_only p) fun _ m1 v1 => Leads.after (laneBits_only _ _ _) fun _ m2 v2 => ?_)
  have before : m2.getPort p = m.getPort p := (v2.port_kept p).trans (v1.port_kept p)
  have canon : m2.Canon := v2.canon (v1.canon h)
  refine Leads.bind (Q := fun _ m3 => m3.g (OCT_PORT_STATUS_STATE p) = psTRAINING ∧ m3.getPort p = m2.getPort p ∧ m3.Canon)
    ((portTo_leads canon.regs hp (by decide)).imp fun _ m3 v q => ⟨q.2, v.port_kept p, v.canon canon⟩).le
    fun _ m3 ⟨state, port, canon3⟩ => ?_
  have store {q : RF} {x : Nat} (hq : q.k = .OCT_PORT_TRAIN) : Only (Mask.of [.OCT_PORT_TRAIN] []).has (wr q x) :=
    Only.wrK .OCT_PORT_TRAIN hq (by decide +kernel)
  refine Leads.after (Only.incK (M := .of [.OCT_PORT_TRAIN] []) .OCT_PORT_TRAIN rfl (by decide +kernel)) fun _ _ va =>
    Leads.after (store rfl) fun _ _ vb => Leads.after (store rfl) fun _ _ vc => Leads.after (store rfl) fun _ m4 vd => ?_
  have v4 := va.trans (vb.trans (vc.trans vd))
  refine Leads.bind (modPort_leads (v4.canon canon3)) fun _ m5 ⟨port5, canon5, regs5⟩ =>
    Leads.bind (Leads.getM (modPort_leads canon5)) fun _ m6 ⟨port6, _, regs6⟩ => ?_
  have trains : Trains m p fresh m6 := by
    constructor
    · rw [regs6, regs5, v4.g_of .OCT_PORT_STATUS, state]
    · rw [port6, port5, v4.port_kept p, port, before]
  exact Leads.onlyIf (fun _ => ((emit_only _).leads).imp fun _ _ _ v =>
    ⟨(v.g_of .OCT_PORT_STATUS).trans trains.state, by rw [v.port_kept p]; exact trains.tries⟩) fun _ => trains

/-- The port has taken a state, and the fields that show its link stand. -/
structure Enters (m : Mach) (p n : Nat) (m1 : Mach) : Prop where
  state : m1.g (OCT_PORT_STATUS_STATE p) = n
  link : ∀ lo w, 8 ≤ lo → (⟨.OCT_PORT_STATUS, 0, lo, w⟩ : RF).storable = true →
    m1.g ⟨.OCT_PORT_STATUS, p, lo, w⟩ = m.g ⟨.OCT_PORT_STATUS, p, lo, w⟩

theorem Enters.kept {A : Mask} {m1 m2 : Mach} (h : Enters m p n m1) (v : Via A.has m1 m2)
    (hA : A.hasReg .OCT_PORT_STATUS = false := by decide +kernel) : Enters m p n m2 :=
  ⟨(v.g_of .OCT_PORT_STATUS hA).trans h.state, fun lo w hl hs => (v.g_of .OCT_PORT_STATUS hA).trans (h.link lo w hl hs)⟩

theorem portTo_enters (h : regsWf m.regs = true) (hp : p < 128) (hn : n < 8) :
    Leads Feet.portTo (portTo p n) m fun _ => Enters m p n :=
  (portTo_leads h hp hn).imp fun _ _ _ q => ⟨q.2, fun _ _ hl hs => q.1 ▸ g_set_next h hp (.inr (by omega)) hs⟩

/-- HELD_REASON stands beside the state and the link. -/
theorem Enters.reason {m1 : Mach} {x : Nat} (h : Enters m p n m1) (wf : regsWf m1.regs = true) (hp : p < 128) :
    Enters m p n (m1.set (OCT_PORT_STATUS_HELD_REASON p) x) :=
  ⟨(g_set_next wf hp).trans h.state, fun lo w hl hs => (g_set_next wf hp (.inr (by omega)) hs).trans (h.link lo w hl hs)⟩

/-- What follows once a port has left UP. -/
def portLeft (p : Nat) (owed : List (Op × Nat × Nat)) : P Unit := do
  xbFlushPort p
  snoopsDown p owed
  each (owed.filter fun e => e.1 = .memData && e.2.2 = epTM) fun e => spillLanded e.2.1 zeroLine true
  modBic (·.filter (fun q => q.inp ≠ p))
  cacheDown p
  let m ← getM
  modKacc (·.filter (fun e => e.1 ≠ p))
  match upVcs m p with
  | some v => vcsRingsStop v
  | none => pure ()
  crnPortDown p
  agentDown p

theorem portLeaveUp_eq (p st : Nat) : portLeaveUp p st = (do
    let owed ← getOwed p
    portTo p st
    portLeft p owed) := rfl

/-- What follows once a port has left UP can change. -/
def Feet.portLeft : Mask := Feet.spillLanded.plus [Feet.xbFlushPort, Feet.vcsRingsStop, Feet.crnPortDown, Feet.agentDown,
  Feet.cacheDown]

theorem portLeft_only (p : Nat) (owed : List (Op × Nat × Nat)) : Only Feet.portLeft.has (portLeft p owed) := by
  have mod {γ : Type} {g : Mach → γ} {u : γ → Upd} {T : Tab} (hu : ∀ x, (u x).tab = some T)
      (hT : Feet.portLeft.hasTab T = true) : Only Feet.portLeft.has (do let v ← (do let m ← getM; pure (g m) : P γ); doU (u v)) :=
    Only.bind (Only.bind Only.getM fun _ => Only.pure _) fun _ => Only.doT T (hu _) hT
  refine Only.bind ((xbFlushPort_only _).le (by decide +kernel)) fun _ =>
    Only.bind ((snoopsDown_only _ _).le (by decide +kernel)) fun _ =>
    Only.bind (Only.each fun _ _ => (spillLanded_only _ _ _).le (by decide +kernel)) fun _ =>
    Only.bind (mod (T := .bic) (fun _ => rfl) (by decide +kernel)) fun _ =>
    Only.bind ((cacheDown_only _).le (by decide +kernel)) fun _ => Only.bind Only.getM fun m =>
    Only.bind (mod (T := .kacc) (fun _ => rfl) (by decide +kernel)) fun _ => ?_
  have ends : Only Feet.portLeft.has (do crnPortDown p; agentDown p) :=
    Only.bind ((crnPortDown_only _).le (by decide +kernel)) fun _ => (agentDown_only _).le (by decide +kernel)
  split
  · exact Only.bind ((vcsRingsStop_only _).le (by decide +kernel)) fun _ => ends
  · exact ends

theorem portLeaveUp_leads (h : regsWf m.regs = true) (hp : p < 128) (hn : n < 8) :
    Leads Feet.portLeaveUp (portLeaveUp p n) m fun _ => Enters m p n := by
  rw [portLeaveUp_eq]
  exact Leads.getM (((portTo_enters h hp hn).le).then (fun _ => portLeft_only p _) fun _ _ _ q v => q.kept v)

/-- A port that goes to FLUSHING has no stream. -/
theorem portFlush_leads (h : regsWf m.regs = true) (hp : p < 128) : Leads Feet.portFlush (portFlush p) m fun _ m1 =>
    m1.g (OCT_PORT_STATUS_STATE p) = psFLUSHING ∧ m1.g (OCT_PORT_IDE_STATE p) = 0 := by
  refine Leads.after (Only.incK (M := .of [.OCT_PORT_CNT0] []) .OCT_PORT_CNT0 rfl (by decide +kernel)) fun _ m1 v1 => ?_
  have wf1 := v1.regs_wf h
  refine Leads.bind (((portLeaveUp_leads wf1 hp (by decide)).imp fun _ m2 v q => ⟨q.state, v.regs_wf wf1⟩ :
    Leads _ _ _ fun _ m2 => m2.g (OCT_PORT_STATUS_STATE p) = psFLUSHING ∧ regsWf m2.regs = true).le) fun _ m2 ⟨state, wf2⟩ =>
    Leads.then (linkClear_leads wf2 hp).le (fun _ => hotplug_only p 1) fun _ m3 m4 q v =>
      ⟨(v.g_of .OCT_PORT_STATUS).trans (q.1.trans state), (v.g_of .OCT_PORT_IDE).trans q.2⟩

theorem portToUp_leads (h : regsWf m.regs = true) (hp : p < 128) :
    Leads Feet.portToUp (portToUp p) m fun _ => Enters m p psUP := by
  have mod {f : PortX → PortX} : Only (Mask.of [] [.port]).has (modPort p f) :=
    Only.bind (Only.bind Only.getM fun _ => Only.pure _) fun _ => Only.doT .port rfl (by decide +kernel)
  refine Leads.bind (((portTo_enters h hp (by decide)).imp fun _ m1 v q => ⟨q, v.regs_wf h⟩ :
    Leads _ _ _ fun _ m1 => Enters m p psUP m1 ∧ regsWf m1.regs = true).le) fun _ m1 ⟨enters, wf1⟩ =>
    Leads.bind (Leads.wr .OCT_PORT_STATUS (Q := fun _ m2 => Enters m p psUP m2) (enters.reason wf1 hp)) fun _ m2 enters =>
    Leads.getM (Leads.after mod fun _ m3 v3 => Leads.after (hotplug_only p 1) fun _ m4 v4 => ?_)
  have enters : Enters m p psUP m4 := (enters.kept v3).kept v4
  split
  · exact Leads.after (Only.doT (M := .of [] [.alost]) .alost rfl (by decide +kernel)) fun _ m5 v5 =>
      portStateSend_only.leads.imp fun _ _ _ v => (enters.kept v5).kept v
  · exact Leads.pure enters

theorem portHold_leads {reason : Nat} (h : regsWf m.regs = true) (hp : p < 128) (hr : reason < 16) :
    Leads Feet.portHold (portHold p reason) m fun _ m1 =>
      Enters m p psHELD m1 ∧ m1.g (OCT_PORT_STATUS_HELD_REASON p) = reason := by
  refine Leads.bind (((portTo_enters h hp (by decide)).imp fun _ m1 v q => ⟨q, v.regs_wf h⟩ :
    Leads _ _ _ fun _ m1 => Enters m p psHELD m1 ∧ regsWf m1.regs = true).le) fun _ m1 ⟨enters, wf1⟩ => ?_
  refine Leads.bind (Leads.wr .OCT_PORT_STATUS
    (Q := fun _ m2 => Enters m p psHELD m2 ∧ m2.g (OCT_PORT_STATUS_HELD_REASON p) = reason)
    ⟨enters.reason wf1 hp, (g_set_at wf1 hp).trans (Nat.mod_eq_of_lt hr)⟩) fun _ m2 q => ?_
  exact Leads.onlyIf (fun _ => (raise_only _).leads.imp fun _ _ _ v => ⟨q.1.kept v, (v.g_of .OCT_PORT_STATUS).trans q.2⟩) fun _ => q

end

/-! The settled link (R48, R80). -/

section
variable {m : Mach} {p : Nat} {l : LinkUp}

/-- The program leaves a field as it was, within a set. -/
def Beside {α : Type} (A : Mask) (q : RF) (x : P α) : Prop := ∀ m, regsWf m.regs = true → Leads A x m fun _ m1 => m1.g q = m.g q

theorem Beside.bind {α β : Type} {A : Mask} {q : RF} {x : P α} {f : α → P β} (hx : Beside A q x) (hf : ∀ a, Beside A q (f a)) :
    Beside A q (x >>= f) := fun m h =>
  Ends.bind (hx m h) fun a m1 ⟨v, e⟩ => Ends.imp (hf a m1 (v.regs_wf h)) fun _ _ q => ⟨v.trans q.1, q.2.trans e⟩

/-- The lanes that a settled link uses are shown. -/
theorem linkShow_leads {rate lanes : Nat} {lopt rev cxl : Bool} (h : regsWf m.regs = true) (hp : p < 128) (hl : lanes < 32) :
    Leads Feet.linkShow (linkShow p rate lanes lopt rev cxl) m fun _ m1 => m1.g (OCT_PORT_STATUS_LANES p) = lanes := by
  have other {lo w x : Nat} (hd : 17 ≤ lo) :
      Beside Feet.linkShow (OCT_PORT_STATUS_LANES p) (wr ⟨.OCT_PORT_STATUS, p, lo, w⟩ x) := fun m h =>
    Leads.wr .OCT_PORT_STATUS (g_set_next h hp (.inl (by omega)))
  have bits {lo b : Nat} {l : List Nat} : Beside Feet.linkShow (OCT_PORT_STATUS_LANES p) (laneBits lo l b) := fun m _ =>
    (laneBits_only _ _ _).leads.imp fun _ _ _ v => v.g_of .OCT_PORT_STATUS
  refine Leads.after (Only.wrK (M := .of [.OCT_PORT_STATUS] []) .OCT_PORT_STATUS rfl (by decide +kernel)) fun _ m1 v1 => ?_
  have wf1 := v1.regs_wf h
  refine Leads.bind (Leads.wr .OCT_PORT_STATUS
    (Q := fun _ m2 => regsWf m2.regs = true ∧ m2.g (OCT_PORT_STATUS_LANES p) = lanes)
    ⟨set_wf wf1, (g_set_at wf1 hp).trans (Nat.mod_eq_of_lt hl)⟩) fun _ m2 ⟨wf2, shown⟩ => ?_
  refine Leads.imp (Beside.bind (other (by decide)) (fun _ => ?_) m2 wf2) fun _ _ _ e => e.trans shown
  iterate 4 refine Beside.bind (other (by decide)) fun _ => ?_
  exact fun m3 h3 => Leads.getM (Beside.bind (other (by decide)) (fun _ m4 h4 =>
    Leads.getM (Beside.bind bits (fun _ => bits) m4 h4)) m3 h3)

/-- The width of a link is one of those of R48. -/
theorem finalLanes_lt : finalLanes m p l < 32 := by
  unfold finalLanes
  cases h : ([16, 8, 4, 2, 1] : List Nat).find? fun n => n ≤ l.lanes && n ≤ portWidth m p with
  | none => decide
  | some n =>
    have bound : ∀ n ∈ ([16, 8, 4, 2, 1] : List Nat), n < 32 := by decide
    exact bound n (List.mem_of_find?_eq_some h)

/-- The width of a link depends on its port's configuration alone. -/
theorem finalLanes_kept {A : Mask} {m1 : Mach} (v : Via A.has m m1) (h : A.hasReg .OCT_PORT_CFG = false := by decide +kernel) :
    finalLanes m1 p l = finalLanes m p l := by
  have width : m1.g (OCT_PORT_CFG_WIDTH p) = m.g (OCT_PORT_CFG_WIDTH p) := v.g_of .OCT_PORT_CFG h
  rw [finalLanes, finalLanes, portWidth, portWidth, width]

end

end Sys2Proof.Machine
end

section
/-!
What the control and the training of a port do (R54, R57, R60, R74, R76, R77, R80, Table 3.3; O4).
-/
namespace Sys2Proof.Machine

-- One declaration at a time: proofs that compute in the kernel wait for it, each with a stack of its own.
set_option Elab.async false

/-! The write of a field, within a set (R424). -/

section
variable {m : Mach} {A : Mask} {w : Path} {f : RF} {v : Nat} {Q : Mach → Prop}

/-- What precedes a register's effect, beside the register, lies within the set. -/
theorem Landed.within {r : Reg} {d n : Nat} {m2 : Mach} (hw : Landed m r d n m2) (hS : Feet.stored.le A = true)
    (hr : A.hasReg r.k = true) : Via A.has m m2 := hw.via.mono fun u hu => by
  simp only [At.has, Bool.or_eq_true] at hu
  refine hu.elim (Mask.has_mono hS u) fun hu => ?_
  cases u <;> simp at hu
  rw [Mask.has_reg, hu]
  exact hr

/-- An accepted write of a field leads to what its register's effect leads to. -/
theorem fieldWrite_leads (h : regsWf m.regs = true) (hl : LandsIn m w f v)
    (hE : ∀ m2, Landed m ⟨f.k, f.i⟩ (v % 2 ^ f.w * 2 ^ f.lo) f.bits m2 →
      Leads A (regEffect ⟨f.k, f.i⟩ (m.rd ⟨f.k, f.i⟩).toNat (v % 2 ^ f.w * 2 ^ f.lo &&& f.bits) (f.bits &&& namedBits f.k) w) m2
        fun _ => Q)
    (hS : Feet.stored.le A = true := by decide +kernel) (hr : A.hasReg f.k = true := by decide +kernel)
    (hF : A.hasTab .faulty = false := by decide +kernel) (hf : f.lo + f.w ≤ 64 := by decide)
    (ht : f.k ≠ .TWN_CTL := by decide) : Leads A (fieldWrite w f v) m fun _ => Q := by
  have hd : (w64 (v % 2 ^ f.w * 2 ^ f.lo)).toNat = v % 2 ^ f.w * 2 ^ f.lo := w64_toNat (aimField_lt (p := w) hf).1
  have hm : (w64 f.bits).toNat = f.bits := w64_toNat (field_bits_lt hf)
  refine regWrite_lands (r := ⟨f.k, f.i⟩) (Q := fun m1 => Via A.has m m1 ∧ Q m1) h ht (by rw [hd, hm]; exact hl) fun m2 hw => ?_
  rw [hd, hm] at hw ⊢
  exact Ends.imp (hE m2 hw) fun _ m3 ⟨u, q⟩ => ⟨u.tab_kept .faulty hF, (hw.within hS hr).trans u, q⟩

end

/-! The control of a port (R54, R60, R80). -/

section
variable {m : Mach} {p n : Nat}

/-- The effect of the three command bits and of ENABLE on a port. -/
theorem octEffect_ctl (i old cmd : Nat) (mask : Nat) (w : Path) : regEffect ⟨.OCT_PORT_CTL, i⟩ old cmd mask w = (do
    let m ← getM
    onlyIf (bitsAt cmd 24 1 = 1) (do
      rstReg .OCT_PORT_CNT0 i
      rstReg .OCT_PORT_CNT1 i)
    onlyIf (bitsAt cmd 1 2 ≠ 0) (portRetrain i (bitsAt cmd 2 1 = 1))
    onlyIf (bitsAt old 0 1 ≠ m.g (OCT_PORT_CTL_ENABLE i)) (portEnable i (m.g (OCT_PORT_CTL_ENABLE i) = 1))) := rfl

/-- A port is turned off, or on. -/
theorem portEnable_off (h : regsWf m.regs = true) (hp : p < 128) (hs : m.g (OCT_PORT_STATUS_STATE p) = psUP) :
    Leads Feet.portEnable (portEnable p false) m fun _ m1 => m1.g (OCT_PORT_STATUS_STATE p) = psFLUSHING := by
  refine Leads.getM ?_
  dsimp only
  rw [if_neg Bool.false_ne_true, if_pos hs]
  exact ((portFlush_leads h hp).imp fun _ _ _ q => q.1).le

theorem portEnable_on (h : m.Canon) (hp : p < 128) (hs : m.g (OCT_PORT_STATUS_STATE p) = psDISABLED) :
    Leads Feet.portEnable (portEnable p true) m fun _ m1 => m1.g (OCT_PORT_STATUS_STATE p) =
      if (portOcts m p).all (fun o => domOn m (dOCT o)) = false then psDISABLED
      else if portPerst m p then psRESET else psTRAINING := by
  refine Leads.getM ?_
  dsimp only
  rw [if_pos rfl]
  refine Leads.after (Only.wrK (M := .of [.OCT_PORT_TRAIN] []) .OCT_PORT_TRAIN rfl (by decide +kernel)) fun _ m1 v1 => ?_
  have state : m1.g (OCT_PORT_STATUS_STATE p) = psDISABLED := (v1.g_of .OCT_PORT_STATUS).trans hs
  rw [if_neg (by rw [hs]; decide)]
  refine Leads.onlyIf (fun hon => ?_) fun hoff => ?_
  · rw [if_neg (by simp [hon.2])]
    refine Leads.bind (((trainStart_leads (v1.canon h) hp).imp fun _ m2 v q => ⟨v.canon (v1.canon h), q.state⟩ :
      Leads _ _ _ fun _ m2 => m2.Canon ∧ m2.g (OCT_PORT_STATUS_STATE p) = psTRAINING).le) fun _ m2 ⟨canon, trains⟩ => ?_
    refine Leads.onlyIf (fun hr => ((portTo_leads canon.regs hp (by decide)).imp fun _ _ _ q => ?_).le) fun hr => ?_
    · rw [if_pos hr, q.2]
    · rw [if_neg hr, trains]
  · rw [if_pos (by simpa [hs] using hoff), state]

/-- RETRAIN and REDO_EQ of a port that is UP start a Recovery. -/
theorem portRetrain_leads {full : Bool} (h : m.Canon) (hs : m.g (OCT_PORT_STATUS_STATE p) = psUP) :
    Leads Feet.portRetrain (portRetrain p full) m fun _ m1 =>
      (m1.getPort p).recovery = true ∧ (m1.getPort p).xrateBar = false ∧ (full = true → (m1.getPort p).fullEq = true) := by
  refine Leads.getM (Leads.bind (modPort_leads h) fun _ m1 ⟨port1, canon1, _⟩ => ?_)
  rw [if_pos hs]
  refine Leads.bind (Leads.getM (modPort_leads canon1)) fun _ m2 ⟨port2, canon2, _⟩ =>
    (modPort_leads canon2).imp fun _ m3 _ ⟨port3, _, _⟩ => ?_
  rw [port3, port2, port1]
  exact ⟨rfl, rfl, fun hf => by simp [hf]⟩

end

end Sys2Proof.Machine
end

section
/-!
What a training, a Recovery, the loss of a link and the end of a flush lead to (R48-R60, R74, R77, R108, Table 3.3; O4).
-/
namespace Sys2Proof.Machine

-- One declaration at a time: proofs that compute in the kernel wait for it, each with a stack of its own.
set_option Elab.async false

section
variable {m : Mach} {p : Nat} {l : LinkUp}

theorem modPort_within {f : PortX → PortX} : Only (Mask.of [] [.port]).has (modPort p f) :=
  Only.bind (Only.bind Only.getM fun _ => Only.pure _) fun _ => Only.doT .port rfl (by decide +kernel)

theorem holdReason_lt {rate : Nat} {rec : Bool} : holdReason m p rate rec < 16 := by
  unfold holdReason
  dsimp only
  repeat' refine iteInduction (motive := (· < 16)) (fun _ => by decide) fun _ => ?_
  decide

/-- The end of a training at L0: the port is UP, or HELD for a reason, and its link stands. -/
theorem trainingEnds_leads {r : Nat} (h : regsWf m.regs = true) (hp : p < 128) (hr : r < 16) :
    Leads Feet.trainingL0 (if r = 0 then portToUp p else portHold p r) m fun _ m1 => Enters m p psUP m1 ∨ Enters m p psHELD m1 :=
  .ite (fun _ => ((portToUp_leads h hp).imp fun _ _ _ q => .inl q).le)
    fun _ => ((portHold_leads h hp hr).imp fun _ _ _ q => .inr q.1).le

theorem trainingL0_leads (h : m.Canon) (hp : p < 128) (hs : m.g (OCT_PORT_STATUS_STATE p) = psTRAINING) :
    Leads Feet.trainingL0 (trainingL0 p l) m fun _ m1 => m1.g (OCT_PORT_STATUS_LANES p) = finalLanes m p l ∧
      (m1.g (OCT_PORT_STATUS_STATE p) = psUP ∨ m1.g (OCT_PORT_STATUS_STATE p) = psHELD) := by
  refine Leads.getM ?_
  dsimp only
  rw [if_pos hs]
  have train {f : RF} {v : Nat} (hf : f.k = .OCT_PORT_TRAIN) : Only (Mask.of [.OCT_PORT_TRAIN] []).has (wr f v) :=
    Only.wrK .OCT_PORT_TRAIN hf (by decide +kernel)
  refine Leads.after (train rfl) fun _ _ va => Leads.after (train rfl) fun _ _ vb => Leads.after (train rfl) fun _ m1 vc => ?_
  have v1 := va.trans (vb.trans vc)
  refine Leads.after (Only.wrK (M := .of [.OCT_PORT_IDE] []) .OCT_PORT_IDE rfl (by decide +kernel)) fun _ m2 v2 => Leads.getM ?_
  have lanes : finalLanes m2 p l = finalLanes m p l := (finalLanes_kept v2).trans (finalLanes_kept v1)
  refine Leads.after modPort_within fun _ m3 v3 => Leads.after (Only.each fun _ _ => laneBits_only _ _ _) fun _ m4 v4 => ?_
  have canon4 := v4.canon (v3.canon (v2.canon (v1.canon h)))
  refine Leads.bind (((linkShow_leads canon4.regs hp finalLanes_lt).imp fun _ m5 v q => ⟨q, v.canon canon4⟩ :
    Leads _ _ _ fun _ m5 => m5.g (OCT_PORT_STATUS_LANES p) = finalLanes m2 p l ∧ m5.Canon).le) fun _ m5 ⟨shown, canon5⟩ => ?_
  refine Leads.after (Only.onlyIf (raise_only _)) fun _ m6 v6 => Leads.getM ?_
  have shown : m6.g (OCT_PORT_STATUS_LANES p) = finalLanes m p l := (v6.g_of .OCT_PORT_STATUS).trans (shown.trans lanes)
  refine (trainingEnds_leads (v6.canon canon5).regs hp holdReason_lt).imp fun _ m7 _ q => ⟨?_, q.imp (·.state) (·.state)⟩
  exact (q.elim (·.link 12 5 (by decide) (by decide +kernel)) (·.link 12 5 (by decide) (by decide +kernel))).trans shown

/-- A timeout of a training that has no attempt left. -/
theorem trainTimeout_held (h : m.Canon) (hp : p < 128) (hs : m.g (OCT_PORT_STATUS_STATE p) = psTRAINING)
    (ht : ¬(m.getPort p).tries < m.g (OCT_PORT_CTL_TRAIN_RETRIES p)) : Leads Feet.trainTimeout (trainTimeout p) m fun _ m1 =>
      m1.g (OCT_PORT_STATUS_STATE p) = psHELD ∧ m1.g (OCT_PORT_STATUS_HELD_REASON p) = 5 := by
  refine Leads.getM ?_
  rw [if_pos hs, if_neg ht]
  refine Leads.after (Only.incK (M := .of [.OCT_PORT_CNT0] []) .OCT_PORT_CNT0 rfl (by decide +kernel)) fun _ m1 v1 =>
    Leads.after (raise_only _) fun _ m2 v2 =>
      ((portHold_leads (v2.canon (v1.canon h)).regs hp (by decide)).imp fun _ _ _ q => ⟨q.1.state, q.2⟩).le

/-- A timeout of a training that has an attempt left. -/
theorem trainTimeout_again (h : m.Canon) (hp : p < 128) (hs : m.g (OCT_PORT_STATUS_STATE p) = psTRAINING)
    (ht : (m.getPort p).tries < m.g (OCT_PORT_CTL_TRAIN_RETRIES p)) : Leads Feet.trainTimeout (trainTimeout p) m fun _ m1 =>
      (m1.getPort p).tries = (m.getPort p).tries + 1 ∧ m1.g (OCT_PORT_STATUS_STATE p) = psTRAINING := by
  refine Leads.getM ?_
  rw [if_pos hs, if_pos ht]
  exact ((trainStart_leads h hp).imp fun _ _ _ q => ⟨by simpa using q.tries, q.state⟩).le

theorem xrateFall_leads (h : m.Canon) : Leads Feet.xrateFall (xrateFall p) m fun _ m1 => (m1.getPort p).xrateBar = true := by
  refine Leads.bind (modPort_leads h) fun _ m1 ⟨port1, _, _⟩ =>
    Leads.after (Only.incK (M := .of [.OCT_PORT_CNT0] []) .OCT_PORT_CNT0 rfl (by decide +kernel)) fun _ m2 v2 =>
      (raise_only _).leads.imp fun _ m3 _ v3 => ?_
  rw [v3.port_kept p, v2.port_kept p, port1]

/-- The end of a Recovery: the port stays UP, or is HELD for a reason, and its link stands. -/
theorem recoveryEnds_leads {r x : Nat} (h : regsWf m.regs = true) (hp : p < 128) (hr : r < 16)
    (hx : m.g (OCT_PORT_STATUS_LANES p) = x) :
    Leads Feet.recoveryDone (onlyIf (r ≠ 0) (do
      portLeaveUp p psHELD
      portHold p r)) m fun _ m1 => m1.g (OCT_PORT_STATUS_LANES p) = x := by
  refine Leads.onlyIf (fun _ => ?_) fun _ => hx
  refine Leads.bind (((portLeaveUp_leads h hp (by decide)).imp fun _ m1 v q => ⟨q, v.regs_wf h⟩ :
    Leads _ _ _ fun _ m1 => Enters m p psHELD m1 ∧ regsWf m1.regs = true).le) fun _ m1 ⟨left, wf1⟩ =>
      ((portHold_leads wf1 hp hr).imp fun _ m2 _ ⟨held, _⟩ => ?_).le
  exact ((held.link 12 5 (by decide) (by decide +kernel)).trans (left.link 12 5 (by decide) (by decide +kernel))).trans hx

/-- What a Recovery settles, once its fallback is counted (R54, R58-R60). -/
def recoverySettle (p : Nat) (l : LinkUp) : P Unit := do
  let m ← getM
  let rate := finalRate m p l
  onlyIf ((m.getPort p).fullEq = true ∨ rate ≠ m.g (OCT_PORT_STATUS_RATE p))
    (wr (OCT_PORT_TRAIN_EQ_BYPASS_USED p) (if l.eqBypass && (m.getPort p).bypass && !(m.getPort p).fullEq then 1 else 0))
  modPort p fun x => { x with recovery := false, fullEq := false }
  linkShow p rate (finalLanes m p l) l.lopt (m.g (OCT_PORT_STATUS_REVERSED p) = 1) (m.g (OCT_PORT_STATUS_CXL p) = 1)
  onlyIf (finalLanes m p l < m.g (OCT_PORT_STATUS_LANES p)) (raise ((octEv 0 0x028C p).b24 (finalLanes m p l)))
  let r := holdReason (← getM) p rate true
  onlyIf (r ≠ 0) (do
    portLeaveUp p psHELD
    portHold p r)

theorem recoveryDone_eq (p : Nat) (l : LinkUp) : recoveryDone p l = (do
    let m ← getM
    if m.g (OCT_PORT_STATUS_STATE p) = psUP then
      onlyIf ((m.getPort p).recovery = false) (linkPolicy p)
      if m.g (OCT_PORT_STATUS_RATE p) = 6 then
        let rs := (m.getPort p).recov.filter (fun x => m.time64 < x + 1000000000) ++ [m.time64]
        modPort p fun x => { x with recov := rs }
        onlyIf (3 < rs.length) (xrateFall p)
        recoverySettle p l
      else recoverySettle p l) := rfl

theorem recoverySettle_leads {x : Nat} (h : m.Canon) (hp : p < 128) (hx : finalLanes m p l = x) :
    Leads Feet.recoveryDone (recoverySettle p l) m fun _ m1 => m1.g (OCT_PORT_STATUS_LANES p) = x := by
  refine Leads.getM (Leads.after (Only.onlyIf (Only.wrK (M := .of [.OCT_PORT_TRAIN] []) .OCT_PORT_TRAIN rfl (by decide +kernel)))
    fun _ m1 v1 => Leads.after modPort_within fun _ m2 v2 => ?_)
  have canon2 := v2.canon (v1.canon h)
  refine Leads.bind (((linkShow_leads canon2.regs hp finalLanes_lt).imp fun _ m3 v q => ⟨q.trans hx, v.canon canon2⟩ :
    Leads _ _ _ fun _ m3 => m3.g (OCT_PORT_STATUS_LANES p) = x ∧ m3.Canon).le) fun _ m3 ⟨shown, canon3⟩ =>
      Leads.after (Only.onlyIf (raise_only _)) fun _ m4 v4 => Leads.getM ?_
  exact recoveryEnds_leads (v4.canon canon3).regs hp holdReason_lt ((v4.g_of .OCT_PORT_STATUS).trans shown)

theorem recoveryDone_leads (h : m.Canon) (hp : p < 128) (hs : m.g (OCT_PORT_STATUS_STATE p) = psUP) :
    Leads Feet.recoveryDone (recoveryDone p l) m fun _ m1 => m1.g (OCT_PORT_STATUS_LANES p) = finalLanes m p l := by
  rw [recoveryDone_eq]
  refine Leads.getM ?_
  rw [if_pos hs]
  refine Leads.after (Only.onlyIf (linkPolicy_only p)) fun _ m1 v1 => Leads.ite (fun _ => ?_) fun _ =>
    recoverySettle_leads (v1.canon h) hp (finalLanes_kept v1)
  exact Leads.after modPort_within fun _ m2 v2 => Leads.after (Only.onlyIf (xrateFall_only p)) fun _ m3 v3 =>
    recoverySettle_leads (v3.canon (v2.canon (v1.canon h))) hp
      ((finalLanes_kept v3).trans ((finalLanes_kept v2).trans (finalLanes_kept v1)))

/-- A port that loses its link leaves UP. -/
theorem linkDown_leads (h : m.Canon) (hp : p < 128) (hs : m.g (OCT_PORT_STATUS_STATE p) = psUP) :
    Leads Feet.linkDown (linkDown p) m fun _ m1 => m1.g (OCT_PORT_STATUS_STATE p) = psFLUSHING := by
  refine Leads.getM ?_
  rw [if_pos hs]
  exact Leads.after (raise_only _) fun _ m1 v1 => ((portFlush_leads (v1.canon h).regs hp).imp fun _ _ _ q => q.1).le

theorem flushComplete_leads (h : m.Canon) (hp : p < 128) (hs : m.g (OCT_PORT_STATUS_STATE p) = psFLUSHING)
    (he : xbFlushed m p = true) : Leads Feet.flushComplete (flushComplete p) m fun _ m1 => m1.g (OCT_PORT_STATUS_STATE p) =
      if portPerst m p then psRESET else if m.g (OCT_PORT_CTL_ENABLE p) = 0 then psDISABLED else psTRAINING := by
  refine Leads.getM ?_
  rw [if_pos ⟨hs, he⟩]
  have goes {n : Nat} (hn : n < 8) : Leads Feet.flushComplete (portTo p n) m fun _ m1 => m1.g (OCT_PORT_STATUS_STATE p) = n :=
    ((portTo_leads h.regs hp hn).imp fun _ _ _ q => q.2).le
  refine Leads.ite (fun reset => ?_) fun run => Leads.ite (fun off => ?_) fun on => ?_
  · rw [if_pos reset]
    exact goes (by decide)
  · rw [if_neg run, if_pos off]
    exact goes (by decide)
  · rw [if_neg run, if_neg on]
    exact ((trainStart_leads h hp).imp fun _ _ _ q => q.state).le

theorem flushTimeout_leads (h : m.Canon) (hp : p < 128) (hs : m.g (OCT_PORT_STATUS_STATE p) = psFLUSHING) :
    Leads Feet.flushTimeout (flushTimeout p) m fun _ m1 =>
      m1.g (OCT_PORT_STATUS_STATE p) = psDISABLED ∧ m1.g (OCT_PORT_CTL_ENABLE p) = 0 := by
  refine Leads.getM ?_
  rw [if_pos hs]
  refine Leads.bind (Leads.wr .OCT_PORT_CTL (Q := fun _ m1 => regsWf m1.regs = true ∧ m1.g (OCT_PORT_CTL_ENABLE p) = 0)
    ⟨set_wf h.regs, g_set_at h.regs hp⟩) fun _ m1 ⟨wf1, off⟩ => ?_
  refine Leads.bind (((portTo_leads wf1 hp (by decide)).imp fun _ m2 v q => ⟨q.2, (v.g_of .OCT_PORT_CTL).trans off⟩ :
    Leads _ _ _ fun _ m2 => m2.g (OCT_PORT_STATUS_STATE p) = psDISABLED ∧ m2.g (OCT_PORT_CTL_ENABLE p) = 0).le) fun _ m2 q =>
      (raise_only _).leads.imp fun _ m3 _ v => ⟨(v.g_of .OCT_PORT_STATUS).trans q.1, (v.g_of .OCT_PORT_CTL).trans q.2⟩

end

end Sys2Proof.Machine
end

section
/-!
The statement of the control and the training of a port (O4).
-/
namespace Sys2Proof.Machine

-- One declaration at a time: proofs that compute in the kernel wait for it, each with a stack of its own.
set_option Elab.async false

/-! What a port's state depends on, beside its registers. -/

section
variable {m m1 : Mach} {A : Mask} {p : Nat}

theorem upVcs_kept (v : Via A.has m m1) (h : A.hasTab .vcs = false := by decide +kernel) (p : Nat) : upVcs m1 p = upVcs m p := by
  have vcs : m1.vcs = m.vcs := v.tab_kept .vcs h
  unfold upVcs Mach.getVcs
  rw [vcs]

theorem portPerst_kept (v : Via A.has m m1) (h : A.hasTab .vcs = false := by decide +kernel)
    (hp : A.hasTab .pins = false := by decide +kernel) (p : Nat) : portPerst m1 p = portPerst m p := by
  rw [portPerst, portPerst, upVcs_kept v h, show m1.pins = m.pins from v.tab_kept .pins hp]

/-- Whether the octets of a port are powered. -/
theorem portOctsOn_kept (v : Via A.has m m1) (h : A.hasReg .OCT_PORT_CFG = false := by decide +kernel)
    (hd : A.hasReg .PWR_DOM_STATUS = false := by decide +kernel) (p : Nat) :
    (portOcts m1 p).all (fun o => domOn m1 (dOCT o)) = (portOcts m p).all (fun o => domOn m (dOCT o)) := by
  have width : m1.g (OCT_PORT_CFG_WIDTH p) = m.g (OCT_PORT_CFG_WIDTH p) := v.g_of .OCT_PORT_CFG h
  have dom (d : Nat) : m1.g (PWR_DOM_STATUS_STATE d) = m.g (PWR_DOM_STATUS_STATE d) := v.g_of .PWR_DOM_STATUS hd
  simp only [portOcts, domOn, width, dom]

end

/-! A write of a port's control (R80). -/

/-- What precedes the effect of a write of a port's control can change. -/
def Feet.portStored : Mask := Feet.stored.plus [.of [.OCT_PORT_CTL] []]

/-- What a write of a port's control can change. -/
def Feet.portControl : Mask := Feet.portEnable.plus [Feet.portStored, Feet.portRetrain, .of [.OCT_PORT_CNT1] []]

section
variable {m m1 : Mach} {w : Path} {p lo wd v : Nat} {Q : Mach → Prop}

theorem portCtl_stored {d n : Nat} (hw : Landed m ⟨.OCT_PORT_CTL, p⟩ d n m1) : Via Feet.portStored.has m m1 :=
  hw.within (by decide +kernel) (show Feet.portStored.hasReg .OCT_PORT_CTL = true by decide +kernel)

/-- An accepted write of a field of a port's control leads to what its effect leads to: `c` holds the command bits. -/
theorem portCtl_leads (c : Nat) (h : regsWf m.regs = true) (hl : LandsIn m w ⟨.OCT_PORT_CTL, p, lo, wd⟩ v)
    (hE : ∀ m2, Landed m ⟨.OCT_PORT_CTL, p⟩ (v % 2 ^ wd * 2 ^ lo) ((2 ^ wd - 1) * 2 ^ lo) m2 →
      Leads Feet.portControl (do
        onlyIf (bitsAt c 24 1 = 1) (do
          rstReg .OCT_PORT_CNT0 p
          rstReg .OCT_PORT_CNT1 p)
        onlyIf (bitsAt c 1 2 ≠ 0) (portRetrain p (bitsAt c 2 1 = 1))
        onlyIf (m.g (OCT_PORT_CTL_ENABLE p) ≠ m2.g (OCT_PORT_CTL_ENABLE p))
          (portEnable p (m2.g (OCT_PORT_CTL_ENABLE p) = 1))) m2 fun _ => Q)
    (hc : v % 2 ^ wd * 2 ^ lo &&& (2 ^ wd - 1) * 2 ^ lo = c := by decide) (hf : lo + wd ≤ 64 := by decide) :
    Leads Feet.portControl (fieldWrite w ⟨.OCT_PORT_CTL, p, lo, wd⟩ v) m fun _ => Q := by
  refine fieldWrite_leads h hl (fun m2 hw => ?_) (by decide +kernel)
    (show Feet.portControl.hasReg .OCT_PORT_CTL = true by decide +kernel) (by decide +kernel) hf (ne_of_beq_false rfl)
  change Leads _ (regEffect _ _ (v % 2 ^ wd * 2 ^ lo &&& (2 ^ wd - 1) * 2 ^ lo) _ _) _ _
  rw [hc, octEffect_ctl]
  exact Leads.getM (hE m2 hw)

/-- A port is turned off from UP, or on from DISABLED. -/
theorem portEnabled_leads {on : Bool} (h : m.Canon) (hp : p < 128) :
    Leads Feet.portEnable (portEnable p (flag on = 1)) m fun _ m1 =>
      (on = false → m.g (OCT_PORT_STATUS_STATE p) = psUP → m1.g (OCT_PORT_STATUS_STATE p) = psFLUSHING) ∧
      (on = true → m.g (OCT_PORT_STATUS_STATE p) = psDISABLED →
        m1.g (OCT_PORT_STATUS_STATE p) = if (portOcts m p).all (fun o => domOn m (dOCT o)) = false then psDISABLED
          else if portPerst m p then psRESET else psTRAINING) := by
  cases on with
  | false =>
    by_cases hs : m.g (OCT_PORT_STATUS_STATE p) = psUP
    · exact (portEnable_off h.regs hp hs).imp fun _ _ _ q => ⟨fun _ _ => q, (nomatch ·)⟩
    · exact (portEnable_only p _).leads.imp fun _ _ _ _ => ⟨fun _ up => absurd up hs, (nomatch ·)⟩
  | true =>
    by_cases hs : m.g (OCT_PORT_STATUS_STATE p) = psDISABLED
    · exact (portEnable_on h hp hs).imp fun _ _ _ q => ⟨(nomatch ·), fun _ _ => q⟩
    · exact (portEnable_only p _).leads.imp fun _ _ _ _ => ⟨(nomatch ·), fun _ off => absurd off hs⟩

/-- A write of ENABLE shows its value, and turns the port on or off where the value changes. -/
theorem portEnableWrite_leads {on : Bool} (h : m.Canon) (hp : p < 128) (hl : LandsIn m w (OCT_PORT_CTL_ENABLE p) (flag on)) :
    Leads Feet.portControl (fieldWrite w (OCT_PORT_CTL_ENABLE p) (flag on)) m fun _ m1 =>
      m1.g (OCT_PORT_CTL_ENABLE p) = flag on ∧
      (on = false → m.g (OCT_PORT_CTL_ENABLE p) = 1 → m.g (OCT_PORT_STATUS_STATE p) = psUP →
        m1.g (OCT_PORT_STATUS_STATE p) = psFLUSHING) ∧
      (on = true → m.g (OCT_PORT_CTL_ENABLE p) = 0 → m.g (OCT_PORT_STATUS_STATE p) = psDISABLED →
        m1.g (OCT_PORT_STATUS_STATE p) = if (portOcts m p).all (fun o => domOn m (dOCT o)) = false then psDISABLED
          else if portPerst m p then psRESET else psTRAINING) := by
  refine portCtl_leads (flag on) h.regs hl (fun m2 hw => ?_) (by cases on <;> decide)
  have v2 := portCtl_stored hw
  have canon2 := v2.canon h
  have shown : m2.g (OCT_PORT_CTL_ENABLE p) = flag on := (hw.field (by decide)).trans (by cases on <;> rfl)
  have state : m2.g (OCT_PORT_STATUS_STATE p) = m.g (OCT_PORT_STATUS_STATE p) := v2.g_of .OCT_PORT_STATUS
  rw [onlyIf, if_neg (by cases on <;> decide)]
  refine Leads.bind (Leads.pure (Q := fun _ m3 => m3 = m2) rfl) fun _ m3 h3 => ?_
  rw [onlyIf, if_neg (by cases on <;> decide)]
  refine Leads.bind (Leads.pure (Q := fun _ m3 => m3 = m2) h3) fun _ m3 h3 => ?_
  subst h3
  rw [shown]
  refine Leads.onlyIf (fun ne => ?_) fun same => ?_
  · refine Leads.le ((portEnabled_leads (on := on) canon2 hp).imp fun _ m3 v q => ?_)
    rw [portOctsOn_kept v2, portPerst_kept v2, state] at q
    exact ⟨(v.g_of .OCT_PORT_CTL).trans shown, fun hoff _ => q.1 hoff, fun hon _ => q.2 hon⟩
  · rw [shown]
    refine ⟨rfl, fun hoff h1 => absurd ?_ same, fun hon h0 => absurd ?_ same⟩
    · rw [hoff, h1]; decide
    · rw [hon, h0]; decide

/-- RETRAIN and REDO_EQ of a port that is UP start a Recovery. -/
theorem portRetrainWrite_leads {full : Bool} (c : Nat) (h : m.Canon) (hs : m.g (OCT_PORT_STATUS_STATE p) = psUP)
    (hl : LandsIn m w ⟨.OCT_PORT_CTL, p, lo, 1⟩ 1) (hr : bitsAt c 24 1 ≠ 1 ∧ bitsAt c 1 2 ≠ 0 := by decide)
    (he : bitsAt ((2 ^ 1 - 1) * 2 ^ lo) 0 1 = 0 := by decide) (hf : lo + 1 ≤ 64 := by decide)
    (hc : 1 % 2 ^ 1 * 2 ^ lo &&& (2 ^ 1 - 1) * 2 ^ lo = c := by decide) (hq : decide (bitsAt c 2 1 = 1) = full := by decide) :
    Leads Feet.portControl (fieldWrite w ⟨.OCT_PORT_CTL, p, lo, 1⟩ 1) m fun _ m1 =>
      (m1.getPort p).recovery = true ∧ (m1.getPort p).xrateBar = false ∧ (full = true → (m1.getPort p).fullEq = true) := by
  refine portCtl_leads c h.regs hl (fun m2 hw => ?_) hc hf
  have v2 := portCtl_stored hw
  have state : m2.g (OCT_PORT_STATUS_STATE p) = psUP := (v2.g_of .OCT_PORT_STATUS).trans hs
  have enable : m.g (OCT_PORT_CTL_ENABLE p) = m2.g (OCT_PORT_CTL_ENABLE p) := hw.kept he
  rw [enable, onlyIf, if_neg hr.1, onlyIf, if_pos hr.2, hq]
  refine Leads.bind (Leads.pure (Q := fun _ m3 => m3 = m2) rfl) fun _ m3 h3 => ?_
  rw [h3]
  exact Leads.bind (Leads.le (A := Feet.portControl) (portRetrain_leads (v2.canon h) state)) fun _ m3 q =>
    Leads.onlyIf (fun ne => absurd rfl ne) fun _ => q

/-- A register returns to its reset value. -/
theorem rstReg_leads {k : RegKind} {A : Mask} (h : regsWf m.regs = true) (hi : p < k.count) (hr : A.hasReg k = true)
    (hw : hardwired ⟨k, p⟩ = false) : Leads A (rstReg k p) m fun _ m1 => m1.rd ⟨k, p⟩ = resetVal ⟨k, p⟩ := by
  have stored := rd_store h (r := ⟨k, p⟩) hi hw (resetVal_implMask ⟨k, p⟩)
  rw [BitVec.ofNat_toNat, BitVec.setWidth_eq] at stored
  exact Ends.upd ⟨.head (by rw [Mask.has_reg]; exact hr) (.refl _), BitVec.eq_of_toNat_eq stored⟩

/-- CLR_CNT clears the counters of a port (R80). -/
theorem portClrCnt_leads (h : regsWf m.regs = true) (hp : p < 128) (hl : LandsIn m w (OCT_PORT_CTL_CLR_CNT p) 1) :
    Leads Feet.portControl (fieldWrite w (OCT_PORT_CTL_CLR_CNT p) 1) m fun _ m1 =>
      m1.rd ⟨.OCT_PORT_CNT0, p⟩ = 0#64 ∧ m1.rd ⟨.OCT_PORT_CNT1, p⟩ = 0#64 := by
  refine portCtl_leads (2 ^ 24) h hl fun m2 hw => ?_
  have wf2 := (portCtl_stored hw).regs_wf h
  have enable : m.g (OCT_PORT_CTL_ENABLE p) = m2.g (OCT_PORT_CTL_ENABLE p) := hw.kept (lo := 0) (w := 1) (by decide)
  rw [enable, onlyIf, if_pos (by decide), onlyIf, if_neg (by decide)]
  refine Leads.bind (Q := fun _ m3 => m3.rd ⟨.OCT_PORT_CNT0, p⟩ = 0#64 ∧ m3.rd ⟨.OCT_PORT_CNT1, p⟩ = 0#64) ?_ fun _ m3 q =>
    Leads.bind (Leads.pure q) fun _ _ q => Leads.onlyIf (fun ne => absurd rfl ne) fun _ => q
  refine Leads.bind (Q := fun _ m3 => m3.rd ⟨.OCT_PORT_CNT0, p⟩ = 0#64 ∧ regsWf m3.regs = true) ?_ fun _ m3 ⟨clear0, wf3⟩ => ?_
  · exact (rstReg_leads wf2 hp (by decide +kernel) rfl).imp fun _ _ v q => ⟨q, v.regs_wf wf2⟩
  · refine ((rstReg_leads (A := .of [.OCT_PORT_CNT1] []) wf3 hp (by decide +kernel) rfl).imp fun _ m4 v q => ⟨?_, q⟩).le
    exact (v.rd_of .OCT_PORT_CNT0).trans clear0

end

/-- Settles O4: each form is a program that leads to its state, and the end of the step leaves a port's registers (R54, R57, R60,
R74, R76, R77, R80, Table 3.3). -/
theorem portTrainingCompletes : Obligations.PortTrainingCompletes := by
  unfold Obligations.PortTrainingCompletes
  intro s hi p
  have hc : ((Upd.out []).apply s.m).Canon := Upd.apply_canon hi.canon _
  have hp : (p : Nat) < 128 := p.isLt
  have sent {w : Path} {f : RF} {v : Nat} (hl : LandsIn s.m w f v) : LandsIn ((Upd.out []).apply s.m) w f v := Lands.sent hl []
  refine ⟨fun w on hl => ?_, fun w hl hs => ?_, fun w hl hs => ?_, fun w hl => ?_, fun link hs => ?_, fun hs => ?_,
    fun hs hx hb => ?_, fun link hs => ?_, fun hs => ?_, fun hs he => ?_, fun hs => ?_⟩
  · refine does_leads hi (portEnableWrite_leads hc hp (sent hl)) fun m1 m2 q st => ?_
    rw [st.g_of .OCT_PORT_CTL, st.g_of .OCT_PORT_STATUS]
    exact q
  · refine does_leads hi (portRetrainWrite_leads (full := false) 2 hc hs (sent hl)) fun m1 m2 q st => ?_
    rw [st.port]
    exact ⟨q.1, q.2.1⟩
  · refine does_leads hi (portRetrainWrite_leads (full := true) 4 hc hs (sent hl)) fun m1 m2 q st => ?_
    rw [st.port]
    exact ⟨q.1, q.2.2 rfl⟩
  · refine does_leads hi (portClrCnt_leads hc.regs hp (sent hl)) fun m1 m2 q st => ?_
    rw [st.via.rd_of .OCT_PORT_CNT0, st.via.rd_of .OCT_PORT_CNT1]
    exact q
  · refine does_leads hi (trainingL0_leads hc hp hs) fun m1 m2 q st => ?_
    rw [st.g_of .OCT_PORT_STATUS, st.g_of .OCT_PORT_STATUS]
    exact q
  · by_cases ht : (s.m.getPort p).tries < s.m.g (OCT_PORT_CTL_TRAIN_RETRIES p)
    · refine does_leads hi (trainTimeout_again hc hp hs ht) fun m1 m2 q st => ?_
      rw [if_pos ht, st.port, st.g_of .OCT_PORT_STATUS]
      exact q
    · refine does_leads hi (trainTimeout_held hc hp hs ht) fun m1 m2 q st => ?_
      rw [if_neg ht, st.g_of .OCT_PORT_STATUS, st.g_of .OCT_PORT_STATUS]
      exact q
  · have falls : Leads Feet.xrateFall (xrateTimeout p) ((Upd.out []).apply s.m) fun _ m1 => (m1.getPort p).xrateBar = true :=
      Leads.getM (Leads.onlyIf (fun _ => xrateFall_leads hc) fun none => absurd ⟨hx, hb, .inl hs⟩ none)
    exact does_leads hi falls fun m1 m2 q st => by rw [st.port]; exact q
  · exact does_leads hi (recoveryDone_leads hc hp hs) fun m1 m2 q st => (st.g_of .OCT_PORT_STATUS).trans q
  · exact does_leads hi (linkDown_leads hc hp hs) fun m1 m2 q st => (st.g_of .OCT_PORT_STATUS).trans q
  · exact does_leads hi (flushComplete_leads hc hp hs he) fun m1 m2 q st => (st.g_of .OCT_PORT_STATUS).trans q
  · refine does_leads hi (flushTimeout_leads hc hp hs) fun m1 m2 q st => ?_
    rw [st.g_of .OCT_PORT_STATUS, st.g_of .OCT_PORT_CTL]
    exact q

end Sys2Proof.Machine
end

section
/-!
What IDE, PERST_N and the slots' pins lead to (R73, R75-R78; O5).
-/
namespace Sys2Proof.Machine

-- One declaration at a time: proofs that compute in the kernel wait for it, each with a stack of its own.
set_option Elab.async false

/-! The stream of a port (R76-R78). -/

section
variable {m : Mach} {p mode : Nat} {kset : Bool}

/-- A stream that becomes secure is shown, and a port held for it enters UP. -/
structure Secures (m : Mach) (p : Nat) (kset : Bool) (m1 : Mach) : Prop where
  stream : m1.g (OCT_PORT_IDE_STATE p) = 2
  keys : m1.g (OCT_PORT_IDE_K_SET p) = if kset then 1 else 0
  active : m1.g (OCT_PORT_STATUS_IDE_ACTIVE p) = 1
  state : m.g (OCT_PORT_STATUS_HELD_REASON p) = 3 → m1.g (OCT_PORT_STATUS_STATE p) = psUP

theorem ideSecure_leads (h : m.Canon) (hp : p < 128) (hw : m.g (OCT_PORT_IDE_STATE p) = 1)
    (hs : m.g (OCT_PORT_STATUS_STATE p) = psUP ∨ m.g (OCT_PORT_STATUS_STATE p) = psHELD) :
    Leads Feet.ideSecure (ideSecure p mode kset) m fun _ => Secures m p kset := by
  have bit : (if kset then 1 else 0) % 2 ^ 1 = if kset then 1 else 0 := by cases kset <;> rfl
  refine Leads.getM ?_
  dsimp only
  rw [if_pos ⟨hw, hs⟩]
  refine Leads.bind (Leads.wr .OCT_PORT_IDE (Q := fun _ m1 => m1 = m.set (OCT_PORT_IDE_STATE p) 2) rfl) fun _ m1 h1 =>
    Leads.bind (Leads.wr .OCT_PORT_IDE (Q := fun _ m2 => m2 = m1.set (OCT_PORT_IDE_MODE p) (if mode = 2 then 2 else 1)) rfl)
      fun _ m2 h2 =>
    Leads.bind (Leads.wr .OCT_PORT_IDE (Q := fun _ m3 => m3 = m2.set (OCT_PORT_IDE_K_SET p) (if kset then 1 else 0)) rfl)
      fun _ m3 h3 =>
    Leads.bind (Leads.wr .OCT_PORT_STATUS (Q := fun _ m4 => m4 = m3.set (OCT_PORT_STATUS_IDE_ACTIVE p) 1) rfl) fun _ m4 h4 => ?_
  have wf1 : regsWf m1.regs = true := h1 ▸ set_wf h.regs
  have wf2 : regsWf m2.regs = true := h2 ▸ set_wf wf1
  have wf3 : regsWf m3.regs = true := h3 ▸ set_wf wf2
  have stream : m4.g (OCT_PORT_IDE_STATE p) = 2 := by
    rw [h4, g_set_other (by simp), h3, g_set_next wf2 hp, h2, g_set_next wf1 hp, h1, g_set_at h.regs hp]
    decide
  have keys : m4.g (OCT_PORT_IDE_K_SET p) = if kset then 1 else 0 := by
    rw [h4, g_set_other (by simp), h3, g_set_at wf2 hp, bit]
  have active : m4.g (OCT_PORT_STATUS_IDE_ACTIVE p) = 1 := h4 ▸ g_set_at wf3 hp
  have before : m4.g (OCT_PORT_STATUS_STATE p) = m.g (OCT_PORT_STATUS_STATE p) := by
    rw [h4, g_set_next wf3 hp, h3, g_set_other (by simp), h2, g_set_other (by simp), h1, g_set_other (by simp)]
  refine Leads.onlyIf (fun _ => ((portToUp_leads (h4 ▸ set_wf wf3) hp).imp fun _ m5 v enters => ?_).le) fun held => ?_
  · exact ⟨(v.g_of .OCT_PORT_IDE).trans stream, (v.g_of .OCT_PORT_IDE).trans keys,
      (enters.link 22 1 (by decide) (by decide +kernel)).trans active, fun _ => enters.state⟩
  · refine ⟨stream, keys, active, fun reason => before.trans (hs.resolve_right fun hh => held ⟨hh, reason⟩)⟩

/-- The wait for keys that takes too long says so. -/
theorem ideTimeout_ends (hm : m.evPend = []) (hs : m.g (OCT_PORT_STATUS_STATE p) = psHELD)
    (hr : m.g (OCT_PORT_STATUS_HELD_REASON p) = 3) : Ends (ideTimeout p) m fun _ m1 => Raised 0x0286 m m1 ∧ True :=
  Ends.getM (Ends.onlyIf (fun _ => (raise_alone hm ⟨rfl, show 2 < 256 by decide, show 0 < 256 by decide⟩).imp
    fun _ _ ⟨v, told⟩ => ⟨⟨v.mono (Mask.has_mono (by decide +kernel)), told⟩, trivial⟩) fun none => absurd ⟨hs, hr⟩ none)

/-- A stream that fails takes its port out of UP. -/
theorem ideFail_leads (h : m.Canon) (hp : p < 128) (hs : m.g (OCT_PORT_STATUS_STATE p) = psUP)
    (hw : m.g (OCT_PORT_IDE_STATE p) = 2) : Leads Feet.ideFail (ideFail p) m fun _ m1 =>
      m1.g (OCT_PORT_STATUS_STATE p) = psFLUSHING ∧ m1.g (OCT_PORT_IDE_STATE p) = 0 := by
  refine Leads.getM ?_
  rw [if_pos ⟨hs, hw⟩]
  exact Leads.after (Only.incK (M := .of [.OCT_PORT_CNT0] []) .OCT_PORT_CNT0 rfl (by decide +kernel)) fun _ m1 v1 =>
    Leads.after (raise_only _) fun _ m2 v2 => (portFlush_leads (v2.canon (v1.canon h)).regs hp).le

section
variable (hs : m.g (OCT_PORT_STATUS_STATE p) = psUP ∨ m.g (OCT_PORT_STATUS_STATE p) = psHELD)
  (hr : m.g (OCT_PORT_CFG_ROLE p) ≠ 3) (hk : kmSecured m p = true)
include hs hr hk

/-- A message of its session switches the key set of a secure stream. -/
theorem ideKm_keySet (h : m.Canon) (hp : p < 128) : Leads Feet.ideKm (ideKm p (.keySet kset)) m fun _ m1 =>
    m.g (OCT_PORT_IDE_STATE p) = 2 → m1.g (OCT_PORT_IDE_K_SET p) = if kset then 1 else 0 := by
  refine Leads.getM ?_
  dsimp only
  rw [if_pos ⟨hs, hr, hk⟩]
  refine Leads.onlyIf (fun _ => ?_) fun other secure => absurd secure other
  refine Leads.bind (Leads.wr .OCT_PORT_IDE
    (Q := fun _ m1 => regsWf m1.regs = true ∧ m1.g (OCT_PORT_IDE_K_SET p) = if kset then 1 else 0)
    ⟨set_wf h.regs, by rw [g_set_at h.regs hp]; cases kset <;> rfl⟩) fun _ m1 ⟨wf1, keys⟩ => ?_
  exact inc_ends.imp fun _ m2 h2 => h2 ▸
    ⟨.head (by rw [Mask.has_reg]; exact (by decide +kernel : Feet.ideKm.hasReg .OCT_PORT_IDE = true)) (.refl _),
      fun _ => (g_set_next wf1 hp).trans keys⟩

/-- A message of its session programs the keys of a stream that has none. -/
theorem ideKm_keyProg (h : m.Canon) (hp : p < 128) (hw : m.g (OCT_PORT_IDE_STATE p) = 0) :
    Leads Feet.ideKm (ideKm p .keyProg) m fun _ m1 => m1.g (OCT_PORT_IDE_STATE p) = 1 := by
  refine Leads.getM ?_
  dsimp only
  rw [if_pos ⟨hs, hr, hk⟩]
  exact Leads.onlyIf (fun _ => Leads.wr .OCT_PORT_IDE (g_set_at h.regs hp)) fun other => absurd hw other

end

/-! The pins of a slot (R73). -/

/-- SLOT_PERST_N is released unless firmware forces it. -/
theorem slotPerstRelease_leads {n : Nat} (h : m.Canon) (hn : n < 32) (hg : m.g (SLP_STATUS_PG n) = 1)
    (hs : m.pins.present.getD n false = true) : Leads Feet.slotPerstRelease (slotPerstRelease n) m fun _ m1 =>
      (m1.getPort (4 * n)).perstDone = true ∧ m1.g (OCT_STATUS_SLOT_PERST n) = m.g (OCT_SLOT_CTL_PERST_FORCE n) := by
  refine Leads.getM ?_
  rw [if_pos ⟨hg, hs⟩]
  refine Leads.bind (modPort_leads h) fun _ m1 ⟨port1, canon1, regs1⟩ => Leads.getM ?_
  have done : (m1.getPort (4 * n)).perstDone = true := by rw [port1]
  have force : m.g (OCT_SLOT_CTL_PERST_FORCE n) < 2 := g_lt _
  have shown : (if ((m1.getPort (4 * n)).perstDone && decide (m1.g (OCT_SLOT_CTL_PERST_FORCE n) = 0)) = true then 0 else 1) % 2 ^ 1 =
      m.g (OCT_SLOT_CTL_PERST_FORCE n) := by
    simp only [done, regs1, Bool.true_and, decide_eq_true_eq]
    split <;> omega
  refine Leads.bind (Leads.wr .OCT_STATUS (Q := fun _ m2 => (m2.getPort (4 * n)).perstDone = true ∧
    m2.g (OCT_STATUS_SLOT_PERST n) = m.g (OCT_SLOT_CTL_PERST_FORCE n)) ⟨done, (g_set_at canon1.regs hn).trans shown⟩) fun _ m2 q =>
      Leads.getM (Leads.upd (T := .pins) rfl (by decide +kernel) q)

end

/-! A loop that sets one entry after another. -/

/-- Each round of a loop brings about what it is for, and undoes nothing that the other rounds brought about. -/
theorem each_leads {α : Type} {A : Mask} {Made : α → Mach → Prop} {f : α → P Unit} {l : List α}
    (hf : ∀ a m, m.Canon → Leads A (f a) m fun _ m1 => Made a m1 ∧ ∀ b, Made b m → Made b m1) :
    ∀ m : Mach, m.Canon → Leads A (each l f) m fun _ m1 => (∀ a ∈ l, Made a m1) ∧ ∀ b, Made b m → Made b m1 := by
  induction l with
  | nil => exact fun m _ => Leads.pure ⟨nofun, fun _ hb => hb⟩
  | cons a t ih =>
    refine fun m h => Leads.bind (Q := fun _ m1 => (Made a m1 ∧ ∀ b, Made b m → Made b m1) ∧ m1.Canon)
      ((hf a m h).imp fun _ m1 v q => ⟨q, v.canon h⟩) fun _ m1 ⟨⟨made, kept⟩, canon1⟩ => (ih m1 canon1).imp fun _ m2 _ q => ?_
    exact ⟨List.forall_mem_cons.2 ⟨q.2 a made, q.1⟩, fun b hb => q.2 b (kept b hb)⟩

/-- A loop that gives one value to the entries of a table gives it to each. -/
theorem each_put {β : Type} {T : Tab} {at_ : Nat → Nat} {x : β} {get : Mach → Nat → β} {u : Nat → Upd} {l : List Nat}
    (ht : ∀ k, (u k).tab = some T) (hs : ∀ m k, m.Canon → get ((u k).apply m) k = x)
    (ho : ∀ m k j, j ≠ k → m.Canon → get ((u k).apply m) j = get m j) {m : Mach} (h : m.Canon) :
    Leads (.of [] [T]) (each l fun n => doU (u (at_ n))) m fun _ m1 => ∀ n ∈ l, get m1 (at_ n) = x := by
  have round (n : Nat) (m : Mach) (h : m.Canon) : Leads (.of [] [T]) (doU (u (at_ n))) m fun _ m1 =>
      get m1 (at_ n) = x ∧ ∀ j, get m (at_ j) = x → get m1 (at_ j) = x := by
    refine Leads.upd (ht _) (by cases T <;> rfl) ⟨hs m _ h, fun j hj => ?_⟩
    by_cases e : at_ j = at_ n
    · rw [e]
      exact hs m _ h
    · rw [ho m _ _ e h, hj]
  exact (each_leads round m h).imp fun _ _ _ q => q.1

/-! The reset of a host's part of the switch (R75). -/

section
variable {m m1 : Mach} {v : Nat}

/-- The decoders, the windows and the Service Function of a VCS are at their reset values. -/
structure VcsFresh (v : Nat) (m : Mach) : Prop where
  dec : ∀ n < 24, m.getDec (v * 24 + n) = {}
  vwin : ∀ n < 256, m.getVwin (v * 256 + n) = (1, 0)
  sf : (m.getSf v).settings = (false, false, false, [])

theorem Via.dec_kept {A : Mask} (u : Via A.has m m1) (k : Nat) (h : A.hasTab .dec = false := by decide +kernel) :
    m1.getDec k = m.getDec k := congrArg (tget ({} : Decoder) · k) (show m1.dec = m.dec from u.tab_kept .dec h)

theorem Via.vwin_kept {A : Mask} (u : Via A.has m m1) (k : Nat) (h : A.hasTab .vwin = false := by decide +kernel) :
    m1.getVwin k = m.getVwin k := congrArg (tget ((1, 0) : Nat × Nat) · k) (show m1.vwin = m.vwin from u.tab_kept .vwin h)

theorem VcsFresh.kept {A : Mask} (h : VcsFresh v m) (u : Via A.has m m1) (hs : (m1.getSf v).settings = (m.getSf v).settings)
    (hd : A.hasTab .dec = false := by decide +kernel) (hw : A.hasTab .vwin = false := by decide +kernel) : VcsFresh v m1 where
  dec n hn := (u.dec_kept _ hd).trans (h.dec n hn)
  vwin n hn := (u.vwin_kept _ hw).trans (h.vwin n hn)
  sf := hs.trans h.sf

theorem vcsReset_leads (h : m.Canon) : Leads Feet.vcsReset (vcsReset v) m fun _ => VcsFresh v := by
  have decs {m : Mach} (h : m.Canon) : Leads (.of [] [.dec]) (each (List.range 24) fun n => putDec (v * 24 + n) {}) m fun _ m1 =>
      ∀ n ∈ List.range 24, m1.getDec (v * 24 + n) = {} :=
    each_put (at_ := fun n => v * 24 + n) (u := fun k => .dec k {}) (get := Mach.getDec) (fun _ => rfl)
      (fun _ _ h => tget_tput_same h.dec) (fun _ _ _ hj h => tget_tput_other h.dec hj) h
  have vwins {m : Mach} (h : m.Canon) : Leads (.of [] [.vwin]) (each (List.range 256) fun n => putVwin (v * 256 + n) (1, 0)) m
      fun _ m1 => ∀ n ∈ List.range 256, m1.getVwin (v * 256 + n) = (1, 0) :=
    each_put (at_ := fun n => v * 256 + n) (u := fun k => .vwin k (1, 0)) (get := Mach.getVwin) (fun _ => rfl)
      (fun _ _ h => tget_tput_same h.vwin) (fun _ _ _ hj h => tget_tput_other h.vwin hj) h
  refine Leads.bind (((decs h).imp fun _ m1 v1 q => ⟨q, v1.canon h⟩ : Leads _ _ _ fun _ m1 => _ ∧ m1.Canon).le)
    fun _ m1 ⟨dec, canon1⟩ => ?_
  refine Leads.bind (((vwins canon1).imp fun _ m2 v2 q => ⟨v2, q, v2.canon canon1⟩ :
    Leads _ _ _ fun _ m2 => Via _ m1 m2 ∧ _ ∧ m2.Canon).le) fun _ m2 ⟨v2, vwin, canon2⟩ => Leads.getM ?_
  refine Leads.after (B := .of [] [.msix]) (Only.each fun _ _ => Only.doT .msix rfl (by decide +kernel)) fun _ m3 v3 =>
    Leads.upd (T := .sf) rfl (by decide +kernel) ⟨fun n hn => ?_, fun n hn => ?_, ?_⟩
  · exact (v3.dec_kept _).trans ((v2.dec_kept _).trans (dec n (List.mem_range.2 hn)))
  · exact (v3.vwin_kept _).trans (vwin n (List.mem_range.2 hn))
  · exact congrArg SfCfg.settings (tget_tput_same (v3.canon canon2).sf)

/-! PERST_N of a host (R75). -/

/-- What PERST_N resets of a VCS, once its port's link is gone: `seen` is the block that the host's ports and slices are read
from. -/
def perstReset (v : Nat) (seen : Mach) : P Unit := do
  vcsReset v
  each (vppbs seen v) fun e => emit (.reset e.1 (if e.2 = 16 then 0xFF else e.2))
  vcsRingsStop v
  each (vcsSlices seen v) fun s => onlyIf (s < seen.g TM_CARVE_SLOT_RINGS) (wr (TM_SRING_CTL_ENABLE s) 0)

theorem perstAssert_eq (v : Nat) : perstAssert v = (do
    modPins fun p => { p with perst := setB p.perst v true }
    let m ← getM
    if (m.getVcs v).valid then
      if m.g (OCT_PORT_STATUS_STATE (m.getVcs v).up) = psUP then do
        portFlush (m.getVcs v).up
        perstReset v m
      else do
        onlyIf (m.g (OCT_PORT_STATUS_STATE (m.getVcs v).up) = psTRAINING ∨ m.g (OCT_PORT_STATUS_STATE (m.getVcs v).up) = psHELD) (do
          linkClear (m.getVcs v).up
          portTo (m.getVcs v).up psRESET)
        perstReset v m
    else raise ((ev 2 0 0x0288).b24 v)) := rfl

/-- The rings and the slices of a VCS are beside its decoders, its windows and its Service Function. -/
theorem perstReset_leads {seen : Mach} (h : m.Canon) : Leads Feet.perstAssert (perstReset v seen) m fun _ m1 =>
    VcsFresh v m1 ∧ m1.pins = m.pins := by
  have rest : Only (Feet.vcsRingsStop.plus [Feet.emit, .of [.TM_SRING_CTL] []]).has (do
      each (vppbs seen v) fun e => emit (.reset e.1 (if e.2 = 16 then 0xFF else e.2))
      vcsRingsStop v
      each (vcsSlices seen v) fun s => onlyIf (s < seen.g TM_CARVE_SLOT_RINGS) (wr (TM_SRING_CTL_ENABLE s) 0)) :=
    Only.bind (Only.each fun _ _ => (emit_only _).le (by decide +kernel)) fun _ =>
    Only.bind ((vcsRingsStop_only v).le (by decide +kernel)) fun _ =>
    Only.each fun _ _ => Only.onlyIf (Only.wrK .TM_SRING_CTL rfl (by decide +kernel))
  refine Leads.bind (((vcsReset_leads h).imp fun _ m1 v1 q => ⟨q, v1.tab_kept .pins (by decide +kernel)⟩ :
    Leads _ _ _ fun _ m1 => VcsFresh v m1 ∧ m1.pins = m.pins).le) fun _ m1 ⟨fresh, pins⟩ => (rest.leads).imp fun _ m2 _ v2 => ?_
  exact ⟨fresh.kept v2 (congrArg (fun t => SfCfg.settings (tget _ t v)) (show m2.sf = m1.sf from v2.tab_kept .sf (by decide +kernel))),
    (v2.tab_kept .pins (by decide +kernel)).trans pins⟩

theorem perstAssert_leads (h : m.Canon) (hv : (m.getVcs v).valid = true) :
    Leads Feet.perstAssert (perstAssert v) m fun _ m1 => m1.pins.perst = setB m.pins.perst v true ∧ VcsFresh v m1 := by
  rw [perstAssert_eq]
  refine Leads.bind (Leads.getM (Leads.upd (T := .pins) (Q := fun _ m1 => m1.Canon ∧ m1.pins.perst = setB m.pins.perst v true ∧
    m1.getVcs v = m.getVcs v) rfl (by decide +kernel) ⟨Upd.apply_canon h _, rfl, rfl⟩))
      fun _ m1 ⟨canon1, perst, vcs⟩ => Leads.getM ?_
  rw [if_pos (by rw [vcs]; exact hv)]
  -- Whatever the link was, its port leaves the pins as they are.
  have reset {B : Mask} {x : P Unit} (hx : Only B.has x) (hB : B.le Feet.perstAssert = true)
      (hp : B.hasTab .pins = false) : Leads Feet.perstAssert (x >>= fun _ => perstReset v m1) m1 fun _ m2 =>
        m2.pins.perst = setB m.pins.perst v true ∧ VcsFresh v m2 :=
    Leads.after hx (fun _ m2 v2 => (perstReset_leads (v2.canon canon1)).imp fun _ m3 _ ⟨fresh, pins⟩ =>
      ⟨by rw [pins, show m2.pins = m1.pins from v2.tab_kept .pins hp, perst], fresh⟩) hB
  refine Leads.ite (fun _ => reset (portFlush_only _) (by decide +kernel) (by decide +kernel)) fun _ => ?_
  exact reset (B := Feet.linkClear.plus [Feet.portTo]) (Only.onlyIf (Only.bind ((linkClear_only _).le (by decide +kernel)) fun _ =>
    (portTo_only _ _).le (by decide +kernel))) (by decide +kernel) (by decide +kernel)

/-- PERST_N of a host that the part has not bound says so. -/
theorem perstUnbound_does {s : State} {v : Fin 64} (hi : s.Inv) (hn : (s.m.getVcs v).valid = false) :
    Does (.perstAssert v) s fun t => t.pins.perst = setB s.m.pins.perst v true ∧ Told 0x0288 s.m t := by
  let m0 : Mach := (Upd.pins { s.m.pins with perst := setB s.m.pins.perst v true }).apply ((Upd.out []).apply s.m)
  have v0 : Via (Mask.of [] [.out, .pins]).has s.m m0 :=
    .head (by rw [Mask.has_tab rfl]; decide) (.head (by rw [Mask.has_tab rfl]; decide) (.refl _))
  have canon0 : m0.Canon := v0.canon hi.canon
  have due0 : m0.feDue = false := (show m0.feDue = s.m.feDue from v0.tab_kept .feDue).trans hi.calm
  obtain ⟨_, m1, h1, v1, waits⟩ := raise_alone (m := m0) (e := (ev 2 0 0x0288).b24 v) (code := 0x0288) hi.told
    ⟨rfl, show 2 < 256 by decide, show 0 < 256 by decide⟩ fun _ => toProg settle
  have runs : Prog.run (perstAssert v fun _ => toProg settle) ((Upd.out []).apply s.m) = Prog.run (toProg settle) m1 := by
    rw [← h1, perstAssert_eq]
    change Prog.run ((if (s.m.getVcs v).valid = true then _ else raise _ : P Unit) _) m0 = _
    rw [if_neg (by rw [hn]; decide)]
  have raised : Raised 0x0288 m0 m1 := ⟨v1.mono (Mask.has_mono (by decide +kernel)), waits⟩
  have settled := settle_settled (v1.canon canon0) ((show m1.feDue = m0.feDue from v1.tab_kept .feDue).trans due0)
  refine ⟨_, cmd_run _ s, rfl, ?_⟩
  change (Prog.run (perstAssert v fun _ => toProg settle) ((Upd.out []).apply s.m)).pins.perst = _ ∧ Told 0x0288 s.m _
  rw [runs]
  refine ⟨settled.perst.trans (congrArg Pins.perst (show m1.pins = m0.pins from v1.tab_kept .pins)), ?_⟩
  exact (raised.told (by decide) due0 canon0.regs canon0.sram).before v0 (by decide +kernel) (by decide +kernel) (by decide +kernel)

/-- The end of PERST_N lets the host's port train, where it is enabled. -/
theorem perstDeassert_leads (h : m.Canon) : Leads Feet.perstDeassert (perstDeassert v) m fun _ m1 =>
    m1.pins.perst = setB m.pins.perst v false ∧ ((m.getVcs v).valid = true → (m.getVcs v).up < 128 →
      m.g (OCT_PORT_STATUS_STATE (m.getVcs v).up) = psRESET → m1.g (OCT_PORT_STATUS_STATE (m.getVcs v).up) =
        if m.g (OCT_PORT_CTL_ENABLE (m.getVcs v).up) = 1 then psTRAINING else psDISABLED) := by
  refine Leads.bind (Leads.getM (Leads.upd (T := .pins) (Q := fun _ m1 => m1.Canon ∧ m1.pins.perst = setB m.pins.perst v false ∧
    m1.getVcs v = m.getVcs v ∧ ∀ f, m1.g f = m.g f) rfl (by decide +kernel) ⟨Upd.apply_canon h _, rfl, rfl, fun _ => rfl⟩))
      fun _ m1 ⟨canon1, perst, vcs, regs⟩ => Leads.getM ?_
  dsimp only
  rw [vcs, regs, regs]
  -- The port's own operations leave the pins.
  have link {x : P Unit} {n : Nat} (hx : Only Feet.trainStart.has x)
      (hs : (m.getVcs v).up < 128 → Leads Feet.trainStart x m1 fun _ m2 => m2.g (OCT_PORT_STATUS_STATE (m.getVcs v).up) = n) :
      Leads Feet.perstDeassert x m1 fun _ m2 => m2.pins.perst = setB m.pins.perst v false ∧
        ((m.getVcs v).up < 128 → m2.g (OCT_PORT_STATUS_STATE (m.getVcs v).up) = n) := by
    have pins {m2 : Mach} (v2 : Via Feet.trainStart.has m1 m2) : m2.pins.perst = setB m.pins.perst v false :=
      (congrArg Pins.perst (show m2.pins = m1.pins from v2.tab_kept .pins)).trans perst
    by_cases hp : (m.getVcs v).up < 128
    · exact ((hs hp).imp fun _ m2 v2 q => ⟨pins v2, fun _ => q⟩).le
    · exact ((hx.leads (A := Feet.trainStart)).imp fun _ m2 _ v2 => ⟨pins v2, fun hp' => absurd hp' hp⟩).le
  refine Leads.ite (fun _ => Leads.ite (fun _ => Leads.ite (fun on => ?_) fun off => ?_) fun other => Leads.pure ?_)
    fun none => Leads.pure ?_
  · rw [if_pos on]
    exact (link (trainStart_only _ _) fun hp => (trainStart_leads canon1 hp).imp fun _ _ _ q => q.state).imp
      fun _ _ _ q => ⟨q.1, fun _ hp _ => q.2 hp⟩
  · rw [if_neg off]
    exact (link ((portTo_only _ _).le (by decide +kernel)) fun hp =>
      ((portTo_leads canon1.regs hp (by decide)).imp fun _ _ _ q => q.2).le).imp fun _ _ _ q => ⟨q.1, fun _ hp _ => q.2 hp⟩
  · exact ⟨perst, fun _ _ reset => absurd reset other⟩
  · exact ⟨perst, fun valid => absurd valid none⟩

end

end Sys2Proof.Machine
end

section
/-!
The debounced presence of a slot, and the statement of IDE, PERST_N, presence and link credits (R73-R78, R88, R398; O5).
-/
namespace Sys2Proof.Machine

-- One declaration at a time: proofs that compute in the kernel wait for it, each with a stack of its own.
set_option Elab.async false

/-! The presence pins of a block, which only the pins themselves change (R20). -/

/-- The program leaves the presence pins as they are, within what a change of presence can change. -/
def PresenceKept {α : Type} (x : P α) : Prop :=
  ∀ m : Mach, Leads Feet.presenceDebounced x m fun _ m1 => m1.pins.present = m.pins.present

section
variable {α β : Type} {x y : P α} {A : Mask}

theorem PresenceKept.bind {f : α → P β} (hx : PresenceKept x) (hf : ∀ a, PresenceKept (f a)) : PresenceKept (x >>= f) := fun m =>
  Leads.bind (hx m) fun a m1 h => (hf a m1).imp fun _ _ _ h' => h'.trans h

theorem PresenceKept.pure {a : α} : PresenceKept (pure a : P α) := fun _ => Leads.pure rfl

theorem PresenceKept.getM {f : Mach → P α} (h : ∀ m, PresenceKept (f m)) : PresenceKept (getM >>= f) := fun m => Leads.getM (h m m)

theorem PresenceKept.ite {c : Prop} [Decidable c] (hx : PresenceKept x) (hy : PresenceKept y) :
    PresenceKept (if c then x else y) := fun m => Leads.ite (fun _ => hx m) fun _ => hy m

theorem PresenceKept.onlyIf {c : Prop} [Decidable c] {x : P Unit} (h : PresenceKept x) : PresenceKept (onlyIf c x) := .ite h .pure

theorem Only.presence (h : Only A.has x) (hp : A.hasTab .pins = false := by decide +kernel)
    (hA : A.le Feet.presenceDebounced = true := by decide +kernel) : PresenceKept x := fun m =>
  (h.ends m).imp fun _ _ v => ⟨v.mono (Mask.has_mono hA), congrArg Pins.present (v.tab_kept .pins hp)⟩

end

/-- SLOT_PERST_N is a pin of its own. -/
theorem slotPerstShow_presence (n : Nat) : PresenceKept (slotPerstShow n) :=
  .getM fun _ => (Only.presence (A := .of [.OCT_STATUS] []) (Only.wrK .OCT_STATUS rfl (by decide +kernel))).bind fun _ =>
    fun _ => Leads.getM (Leads.upd (T := .pins) rfl (by decide +kernel) rfl)

theorem slotPerstAssert_presence (n : Nat) : PresenceKept (slotPerstAssert n) :=
  modPort_within.presence.bind fun _ => slotPerstShow_presence n

theorem portPresence_presence (n : Nat) (present : Bool) : PresenceKept (portPresence n present) := by
  refine .getM fun m => (PresenceKept.onlyIf (slotPerstAssert_presence n)).bind fun _ => ?_
  split
  · refine .ite ((raise_only _).presence.bind fun _ => (portFlush_only _).presence.bind fun _ => (hotplug_only _ _).presence) ?_
    exact (PresenceKept.onlyIf (trainStart_only _ _).presence).bind fun _ => (hotplug_only _ _).presence
  · exact .pure

/-! The slot's channel (R398, R405). -/

section
variable {n v : Nat}

theorem slpStatus_presence {f : RF} (h : f.k = .SLP_STATUS) : PresenceKept (wr f v) :=
  Only.presence (A := .of [.SLP_STATUS] []) (Only.wrK .SLP_STATUS h (by decide +kernel))

theorem modSlp_presence {f : SlotCh → SlotCh} : PresenceKept (modSlp n f) :=
  Only.presence (A := .of [] [.slp]) (Only.bind (Only.bind Only.getM fun _ => Only.pure _) fun _ =>
    Only.doT .slp rfl (by decide +kernel))

theorem pgDrop_presence : PresenceKept (pgDrop n) := (slpStatus_presence rfl).bind fun _ => slotPerstAssert_presence n

theorem gateOff_presence : PresenceKept (gateOff n) :=
  pgDrop_presence.bind fun _ => (slpStatus_presence rfl).bind fun _ => (slpStatus_presence rfl).bind fun _ => modSlp_presence

theorem slpToOff_presence : PresenceKept (slpToOff n) :=
  .getM fun _ => pgDrop_presence.bind fun _ => (slpStatus_presence rfl).bind fun _ => modSlp_presence.bind fun _ =>
    .onlyIf ((slpStatus_presence rfl).bind fun _ => slpStatus_presence rfl)

theorem insertEnter_presence : PresenceKept (insertEnter n) := (insertEnter_only n).presence

theorem rampEnter_presence : PresenceKept (rampEnter n) := (rampEnter_only n).presence

theorem slpStep_presence : PresenceKept (slpStep n) := by
  have goes {v : Nat} : PresenceKept (wr (SLP_STATUS_STATE n) v) := slpStatus_presence rfl
  refine .getM fun m => ?_
  dsimp only
  split
  · exact .onlyIf goes
  · exact .pure
  · refine .ite slpToOff_presence ?_
    split
    · exact .onlyIf (.ite insertEnter_presence goes)
    · exact .ite goes (.onlyIf insertEnter_presence)
    · exact .ite goes (.ite goes (.onlyIf rampEnter_presence))
    · exact .ite goes (.onlyIf (.ite rampEnter_presence goes))
    · exact .pure

theorem slpAdvance_presence : PresenceKept (slpAdvance n) :=
  slpStep_presence.bind fun _ => slpStep_presence.bind fun _ => slpStep_presence.bind fun _ => slpStep_presence

theorem slpPresence_presence {present : Bool} : PresenceKept (slpPresence n present) :=
  .getM fun _ => (slpStatus_presence rfl).bind fun _ => (PresenceKept.onlyIf (gateOff_presence.bind fun _ =>
    (slpStatus_presence rfl).bind fun _ => (raise_only _).presence)).bind fun _ => slpAdvance_presence

end

/-- A level that a pin has is no change. -/
theorem setB_getD (l : List Bool) (n : Nat) : setB l n (l.getD n false) = l := by
  by_cases h : n < l.length
  · rw [setB, List.getD_eq_getElem _ _ h, List.set_getElem_self]
  · exact List.set_eq_of_length_le (Nat.le_of_not_lt h)

/-- The presence pin takes the debounced level. -/
theorem presenceDebounced_leads {m : Mach} {n : Nat} {present : Bool} :
    Leads Feet.presenceDebounced (presenceDebounced n present) m fun _ m1 =>
      m1.pins.present = setB m.pins.present n present := by
  have rest : PresenceKept (do portPresence n present; slpPresence n present) :=
    (portPresence_presence n present).bind fun _ => slpPresence_presence
  refine Leads.getM (Leads.onlyIf (fun _ => ?_) fun same => ?_)
  · exact Leads.bind (Leads.getM (Leads.upd (T := .pins) (Q := fun _ m1 => m1.pins.present = setB m.pins.present n present)
      rfl (by decide +kernel) rfl)) fun _ m1 h1 => (rest m1).imp fun _ _ _ h => h.trans h1
  · have level : m.pins.present.getD n false = present := not_not.1 same
    rw [← level, setB_getD]

/-- Settles O5: each form is a program that leads to its state, and the end of the step leaves the ports and the input pins (R73,
R75-R78, R88). That a Service Function under PERST_N has no unmasked vector, and which messages of keys count as secured, is the
model's choice (notes/assumptions: 24, 124). -/
theorem portPinsAndIdeComplete : Obligations.PortPinsAndIdeComplete := by
  unfold Obligations.PortPinsAndIdeComplete
  intro s hi
  have hc : ((Upd.out []).apply s.m).Canon := Upd.apply_canon hi.canon _
  refine ⟨fun p mode kset hw hs => ?_, fun p hs hr => ?_, fun p hs hw => ?_, fun p b hs hr hk => ?_, fun p hs hr hk hw => ?_,
    fun n hg hs => ?_, fun v => ?_, fun v => ?_, fun n present => ?_, fun p c n => ?_⟩
  · refine does_leads hi (ideSecure_leads hc p.isLt hw hs) fun m1 m2 q st => ?_
    rw [st.g_of .OCT_PORT_IDE, st.g_of .OCT_PORT_IDE, st.g_of .OCT_PORT_STATUS, st.g_of .OCT_PORT_STATUS]
    exact ⟨q.stream, q.active, q.keys, q.state⟩
  · exact does_told hi (by decide) (ideTimeout_ends hi.told hs hr) fun _ _ _ _ told => told
  · refine does_leads hi (ideFail_leads hc p.isLt hs hw) fun m1 m2 q st => ?_
    rw [st.g_of .OCT_PORT_IDE, st.g_of .OCT_PORT_STATUS]
    exact q
  · refine does_leads hi (ideKm_keySet hs hr hk hc p.isLt) fun m1 m2 q st => ?_
    rw [st.g_of .OCT_PORT_IDE]
    exact q
  · exact does_leads hi (ideKm_keyProg hs hr hk hc p.isLt hw) fun m1 m2 q st => (st.g_of .OCT_PORT_IDE).trans q
  · refine does_leads hi (slotPerstRelease_leads hc n.isLt hg hs) fun m1 m2 q st => ?_
    rw [st.port, st.g_of .OCT_STATUS]
    exact q
  · cases hv : (s.m.getVcs v).valid with
    | true =>
      refine does_leads hi (perstAssert_leads hc hv) fun m1 m2 ⟨perst, fresh⟩ st => ?_
      have fresh := fresh.kept st.via (st.sf v)
      have sf := fresh.sf
      simp only [SfCfg.settings, Prod.mk.injEq] at sf
      exact ⟨st.perst.trans perst, fun _ => ⟨fresh.dec, fresh.vwin, sf⟩, nofun⟩
    | false =>
      obtain ⟨t, ht, hr, perst, told⟩ := perstUnbound_does hi hv
      exact ⟨t, ht, hr, perst, nofun, fun _ => told⟩
  · refine does_leads hi (perstDeassert_leads hc) fun m1 m2 q st => ?_
    rw [st.perst, st.g_of .OCT_PORT_STATUS]
    exact q
  · exact does_leads hi presenceDebounced_leads fun m1 m2 q st => st.present.trans q
  · refine does_leads (A := .of [] [.port]) hi (modPort_leads hc) fun m1 m2 q st => ?_
    rw [st.port, q.1]
    rfl

end Sys2Proof.Machine
end

section
/-!
What arrives on a port goes to its place (R18, R63-R67, R71, R86, R160, R165; O6).
-/
namespace Sys2Proof.Machine

-- One declaration at a time: proofs that compute in the kernel wait for it, each with a stack of its own.
set_option Elab.async false

variable {m : Mach} {p : Nat}

/-- A message sent waits in its FIFO. -/
theorem xsend_leads {msg : Msg} (h : m.Canon) : Leads Feet.xsend (xsend msg) m fun _ m1 =>
    [msg] ∈ m1.getXin (msg.inp * 8 + msg.cls) := Ends.imp (xsend_ends h.xin) fun _ _ q => ⟨q.2, q.1⟩

/-- A message that is received and goes on waits in its FIFO. -/
theorem received_xsend {q msg : Msg} (h : m.Canon) : Leads (Feet.received.plus [Feet.xsend]) (do
    received p q false
    xsend msg) m fun _ m1 => [msg] ∈ m1.getXin (msg.inp * 8 + msg.cls) :=
  Leads.after (received_only p q false) fun _ _ v => (xsend_leads (v.canon h)).le

/-! A host's memory request (R63-R66). -/

/-- A vPPB from 4 on leads to a port and its logical device. -/
theorem hostRoute_vppb {v a t ld : Nat} {d : Decoder} (hd : decOf m v 0 16 a = some d)
    (hn : 4 ≤ nth d.targets (ilvIdx d.ways d.gran a))
    (hv : (vppbs m v)[nth d.targets (ilvIdx d.ways d.gran a) - 4]? = some (t, ld)) : hostRoute m v a = (3, t, ld) := by
  rw [hostRoute, hd]
  dsimp only
  generalize hg : nth d.targets (ilvIdx d.ways d.gran a) = n at hn hv
  have there : vppbThere m v n = true := by rw [vppbThere, if_neg (by omega), if_neg (by omega)]
  rw [if_neg (by simp only [there]; simp; omega), if_neg (by omega), if_neg (by omega), hv]

/-- The message that a host's request toward a device becomes. -/
def deviceReq (m : Mach) (p v t ld : Nat) (q : Msg) : Msg :=
  { q with inp := p, out := t, cls := hostCls m p v q (3, t, ld), len := memLen q, agent := 0xFF, x := nth q.x 0 :: ld :: edgeIds m t ld }

section
variable {q : Msg} {v t ld : Nat} (hv : upVcs m p = some v) (hr : hostRoute m v q.addr = (3, t, ld))
include hv hr

/-- A request that has room waits for its device's port. -/
theorem hostMem_device (h : m.Canon) (hu : portUp m p = true) (hs : reqSort q.op ≠ 0)
    (hl : linkRoom m p (hostCls m p v q (3, t, ld)) (memLen q) = true) :
    Leads Feet.hostMem (hostMem p q) m fun _ m1 =>
      [deviceReq m p v t ld q] ∈ m1.getXin (p * 8 + hostCls m p v q (3, t, ld)) := by
  refine Leads.getM ?_
  rw [hv]
  dsimp only
  rw [hr, if_neg (by simp [hu, hs, hl])]
  exact (received_xsend h).le

/-- A request that finds no room is refused and counted. -/
theorem hostMem_full (hl : linkRoom m p (hostCls m p v q (3, t, ld)) (memLen q) = false) :
    Ends (hostMem p q) m fun _ m1 => m1 = m.set (OCT_PORT_CNT1_MSG_INVALID p)
      (Nat.min (m.g (OCT_PORT_CNT1_MSG_INVALID p) + 1) (2 ^ 32 - 1)) := by
  refine Ends.getM ?_
  rw [hv]
  dsimp only
  rw [hr, if_pos (.inr (.inr hl))]
  exact inc_ends

end

/-! A host's window (R67). -/

theorem hostIo_window {n b l v : Nat} (h : m.Canon) (hu : portUp m p = true) (hv : upVcs m p = some v)
    (h3 : m.g (OCT_PORT_CFG_ROLE p) ≠ 3) (h4 : m.g (OCT_PORT_CFG_ROLE p) ≠ 4) (hn : n < 256) :
    Leads (.of [] [.vwin]) (hostIo p (.window n b l)) m fun _ m1 => m1.getVwin (v * 256 + n) = (b, l) := by
  refine Leads.getM ?_
  rw [if_neg (by simp [hu, h3, h4]), hv]
  exact Leads.onlyIf (fun _ => Leads.upd (T := .vwin) rfl (by decide) (tget_tput_same h.vwin)) fun none => absurd hn none

/-! A message of a routed fabric (R71). -/

/-- The data of a memory device that a request awaits goes to its requester. -/
theorem portMessage_data {q : Msg} (h : m.Canon) (hu : portUp m p = true) (hr : m.g (OCT_PORT_CFG_ROLE p) = 4)
    (ho : q.op = .memData) (hw : isOwed m p .memData q.tag q.out = true)
    (hl : linkRoom m p (if q.out < 128 then s2mCls m q.out true else 3) 80 = true) :
    Leads Feet.portMessage (portMessage p q) m fun _ m1 =>
      [{ q with inp := p, len := 80, cls := if q.out < 128 then s2mCls m q.out true else 3 }] ∈
        m1.getXin (p * 8 + if q.out < 128 then s2mCls m q.out true else 3) := by
  obtain ⟨op, cls, inp, out, agent, addr, tag, len, data, poison, slice, x⟩ := q
  obtain rfl : op = .memData := ho
  have owed : isOwed m p .memData tag out = true := hw
  have room : linkRoom m p (if out < 128 then s2mCls m out true else 3) 80 = true := hl
  refine Leads.getM ?_
  dsimp only
  rw [if_neg (by simp [hu])]
  refine Leads.ite (fun refused => ?_) fun _ => ?_
  · rcases refused with host | analysis | stray | full
    · rw [hr] at host; exact absurd host (by decide)
    · rw [hr] at analysis; exact absurd analysis (by decide)
    · rw [owed] at stray; exact absurd stray (by decide)
    · have full : linkRoom m p (if out < 128 then s2mCls m out true else 3) 80 = false := full
      exact absurd (room.symm.trans full) (by decide)
  · exact Leads.after (Only.bind (Only.bind Only.getM fun _ => Only.pure _) fun _ => Only.doT (M := .of [] [.owed]) .owed rfl
      (by decide +kernel)) fun _ m1 v1 => (received_xsend (v1.canon h)).le

/-- A sender of a mapped PBR ID has an entry. -/
theorem edgeEntry_some {spid : Nat} (h : ∃ n < 16, m.g (OCT_EDGE_MAP_VALID (p * 16 + n)) = 1 ∧
    m.g (OCT_EDGE_MAP_DPID (p * 16 + n)) = spid) : ∃ n, edgeEntry m p spid = some n := by
  obtain ⟨n, hn, valid, mapped⟩ := h
  exact Option.isSome_iff_exists.1 (List.find?_isSome.2 ⟨n, List.mem_range.2 hn, by simp [valid, mapped]⟩)

/-! A message between a host and its device's cache (R165). -/

/-- A host's request goes to the device that its CacheID names. -/
theorem cacheMessage_request {q : Msg} {v d : Nat} (h : m.Canon) (hu : portUp m p = true) (hv : upVcs m p = some v)
    (ho : q.op = .h2dReq) (hd : (cacheIds m v)[nth q.x 0]? = some d) (hp : portUp m d = true)
    (hl : linkRoom m p 1 16 = true) : Leads Feet.cacheMessage (cacheMessage p q) m fun _ m1 =>
      [{ q with inp := p, cls := 1, len := 16, out := d }] ∈ m1.getXin (p * 8 + 1) := by
  obtain ⟨op, cls, inp, out, agent, addr, tag, len, data, poison, slice, x⟩ := q
  obtain rfl : op = .h2dReq := ho
  have device : (cacheIds m v)[nth x 0]? = some d := hd
  refine Leads.getM ?_
  dsimp only
  rw [hv]
  dsimp only
  rw [device]
  rw [if_neg (by simp [hu, cacheCls, hl])]
  refine Leads.getM ?_
  rw [if_neg (by simp [cacheAnswer])]
  refine Leads.after (received_only p _ false) fun _ m1 v1 => Leads.after (cacheDone_only _) fun _ m2 v2 =>
    Leads.after (cacheOpen_only _) fun _ m3 v3 => ?_
  rw [if_pos hp]
  exact (xsend_leads (v3.canon (v2.canon (v1.canon h)))).le

/-! A conflict of snoops (R160). -/

/-- A BIConflict for a line that is not busy is acknowledged. -/
theorem biConflictIn_leads {a addr tag : Nat} (ha : portAgent m p = some a) (hu : portUp m p = true)
    (hl : linkRoom m p 1 16 = true)
    (ht : ∀ e ∈ m.trk, ¬(e.2.st ≠ 0 ∧ e.2.kind = 0 ∧ e.2.line = lineOf addr ∧ e.2.req.agent = a))
    (hc : ∀ e ∈ m.crn, ¬(e.2.st ≠ 0 ∧ e.1 % 2 ^ 46 = lineOf addr / 64 ∧ ∃ w ∈ e.2.waiters, w.msg.agent = a)) :
    Leads Feet.biConflictIn (biConflictIn p addr tag) m fun _ m1 =>
      ∃ r : Msg, Out.port p r ∈ m1.out ∧ r.op = .biConflictAck ∧ r.tag = tag := by
  refine Leads.getM ?_
  rw [ha]
  dsimp only
  rw [if_pos ⟨hu, hl⟩]
  refine Leads.after (received_only p _ false) fun _ m1 v1 => Leads.after (rxDone_only p _) fun _ m2 v2 => Leads.getM ?_
  dsimp only
  have trk : m2.trk = m.trk := (show m2.trk = m1.trk from v2.tab_kept .trk).trans (v1.tab_kept .trk)
  have crn : m2.crn = m.crn := (show m2.crn = m1.crn from v2.tab_kept .crn).trans (v1.tab_kept .crn)
  rw [trk, crn, if_neg]
  · exact Leads.upd (T := .out) rfl (by decide +kernel) ⟨_, List.mem_append_right _ List.mem_cons_self, rfl, rfl⟩
  · simp only [List.any_eq_true, Bool.and_eq_true, decide_eq_true_eq]
    rintro (⟨e, he, busy⟩ | ⟨e, he, busy⟩)
    · exact ht e he (by tauto)
    · exact hc e he (by tauto)

/-- Settles O6: what arrives is sent on, held or acknowledged by a program that raises no fence, and the end of the step keeps what
waits and what was sent (R18, R63-R67, R71, R160, R165). -/
theorem portMessagesComplete : Obligations.PortMessagesComplete := by
  unfold Obligations.PortMessagesComplete
  intro s hi p hu
  have hc : ((Upd.out []).apply s.m).Canon := Upd.apply_canon hi.canon _
  refine ⟨fun q v d t ld hv hs hd hn ht => ?_, fun n b l v hv h3 h4 hn => ?_, fun dpid spid q hr hd hm ho hw => ?_,
    fun q v d hv ho hd hp hl => ?_, fun a addr tag ha hl ht hk => ?_⟩
  · have route : hostRoute s.m v q.addr = (3, t, ld) := hostRoute_vppb hd hn ht
    intro c
    split
    next room =>
      refine does_leads hi (hostMem_device (m := (Upd.out []).apply s.m) hv route hc hu hs room) fun m1 m2 q st => ?_
      exact ⟨_, st.xin _ _ q, rfl, rfl, rfl, rfl⟩
    next full =>
      intro small
      refine does_calm (Q := fun m1 => m1 = ((Upd.out []).apply s.m).set (OCT_PORT_CNT1_MSG_INVALID p)
        (Nat.min (s.m.g (OCT_PORT_CNT1_MSG_INVALID p) + 1) (2 ^ 32 - 1)))
        ((hostMem_full (m := (Upd.out []).apply s.m) hv route (Bool.eq_false_iff.2 full)).imp
          fun _ m1 h1 => ⟨?_, h1⟩) fun m1 w h1 => ?_
      · rw [h1]
        exact ⟨hi.told, hi.calm⟩
      · rw [h1]
        refine ⟨rfl, (g_set_at hi.canon.regs p.isLt).trans ?_⟩
        have counted : (s.m.g (OCT_PORT_CNT1_MSG_INVALID p) + 1).min (2 ^ 32 - 1) = s.m.g (OCT_PORT_CNT1_MSG_INVALID p) + 1 :=
          Nat.min_eq_left (by omega)
        rw [counted]
        exact Nat.mod_eq_of_lt (by omega)
  · refine does_leads hi (hostIo_window (m := (Upd.out []).apply s.m) hc hu hv h3 h4 hn) fun m1 m2 q st => ?_
    exact (st.via.vwin_kept _).trans q
  · intro c hl
    obtain ⟨n, entry⟩ := edgeEntry_some hm
    have data : Leads Feet.edgeMessage (edgeMessage p dpid spid q) ((Upd.out []).apply s.m) fun _ m1 =>
        [{ q with inp := (p : Nat), len := 80, cls := c }] ∈ m1.getXin (p * 8 + c) := by
      refine Leads.getM ?_
      rw [if_pos ⟨hr, hu, hd⟩, show edgeEntry ((Upd.out []).apply s.m) p spid = some n from entry]
      dsimp only
      rw [if_neg (by rw [ho]; decide)]
      exact Leads.le (A := Feet.edgeMessage) (portMessage_data hc hu hr ho hw hl)
    exact does_leads hi data fun m1 m2 h st => ⟨_, st.xin _ _ h, ho, rfl, rfl⟩
  · refine does_leads hi (cacheMessage_request (m := (Upd.out []).apply s.m) hc hu hv ho hd hp hl) fun m1 m2 h st => ?_
    exact ⟨_, st.xin _ _ h, ho, rfl, rfl⟩
  · refine does_leads hi (biConflictIn_leads (m := (Upd.out []).apply s.m) (addr := addr) (tag := tag) ha hu hl ht hk)
      fun m1 m2 q st => ?_
    obtain ⟨r, out, hop, htag⟩ := q
    exact ⟨r, st.out _ out, hop, htag⟩

end Sys2Proof.Machine
end

section
/-!
SUPPORT. The FM API on a path that carries it: what is answered, what goes out to a device, and a write of a port's control or of a
slot's (R422, Table 17.6; O26).
-/
namespace Sys2Proof.Machine

-- One declaration at a time: proofs that compute in the kernel wait for it, each with a stack of its own.
set_option Elab.async false

variable {m : Mach} {A : Mask} {p : Path} {code : Nat} {l : List Nat}

/-! Answers. -/

theorem fmCmd_leads {x : P Unit} {Q : Unit → Mach → Prop} (hs : fmServes m p = true) (h : Leads A x m Q) :
    Leads A (fmCmd p x) m Q := Leads.getM (Leads.onlyIf (fun _ => h) fun no => absurd hs no)

theorem fmAnswer_leads : Leads Feet.emit (fmAnswer code l) m fun _ m1 => Out.mgmt 0 code l ∈ m1.out :=
  Ends.imp emit_ends fun _ m1 h1 => h1 ▸ ⟨.head (by rw [Mask.has_tab rfl]; decide +kernel) (.refl _),
    List.mem_append_right _ List.mem_cons_self⟩

/-- An answer on a path that carries the FM API is sent. -/
theorem does_answers {c : Instr} {s : State} {x : P Unit} (hi : s.Inv) (hs : fmServes s.m p = true)
    (hp : Leads A x ((Upd.out []).apply s.m) fun _ m1 => Out.mgmt 0 code l ∈ m1.out)
    (hA : A.hasTab .feDue = false := by decide +kernel) (hx : exec c s = cmd (fmCmd p x) s := by rfl) :
    Does c s fun t => Out.mgmt 0 code l ∈ t.out :=
  does_leads hi (fmCmd_leads hs hp) (fun _ _ h st => st.out _ h) hA hx

/-- A program that sends an answer. -/
theorem does_sends {c : Instr} {s : State} {x : P Unit} (hi : s.Inv) (hx : exec c s = cmd x s)
    (hp : Leads Feet.emit x ((Upd.out []).apply s.m) fun _ m1 => Out.mgmt 0 code l ∈ m1.out) :
    Does c s fun t => Out.mgmt 0 code l ∈ t.out := does_leads hi hp (fun _ _ h st => st.out _ h) (hx := hx)

/-- A path that carries the FM API is no tenant page. -/
theorem fmServes_page (hs : fmServes m p = true) : isPage p = false := by
  cases p with
  | tenantPage v s => cases hs
  | _ => rfl

/-! What goes out to a device (R70, R422). -/

/-- The message that a command for the device at port `q` becomes. -/
def tunnelMsg (m : Mach) (q : Nat) (op : Op) (code ld addr : Nat) (data : List Word) : Msg :=
  { op := op, cls := 7, inp := epMG, out := q, addr := addr, len := 16 + 8 * data.length, data := data,
    x := code :: ld :: edgeIds m q ld }

section
variable {q ld addr : Nat} {op : Op} {data : List Word} {allowed : Mach → Bool}

/-- A command that its device takes waits at the management endpoint. -/
theorem fmTunnel_sent (h : m.Canon) (hs : fmServes m p = true) (hu : portUp m q = true) (ha : allowed m = true) :
    Leads Feet.xsend (fmTunnel p q op code ld addr data allowed) m fun _ m1 =>
      [tunnelMsg m q op code ld addr data] ∈ m1.getXin (epMG * 8 + 7) :=
  fmCmd_leads hs (Leads.getM (Leads.ite (fun _ => xsend_leads h) fun no => absurd ⟨ha, hu⟩ no))

/-- A command that the port's device may not take is refused. -/
theorem fmTunnel_refused (hs : fmServes m p = true) (ha : allowed m = false) :
    Leads Feet.emit (fmTunnel p q op code ld addr data allowed) m fun _ m1 => Out.mgmt 0 fmINPUT [] ∈ m1.out :=
  fmCmd_leads hs (Leads.getM (Leads.ite (fun yes => absurd (yes.1.symm.trans ha) (by decide)) fun _ => fmAnswer_leads))

end

/-- A message that a command leaves waiting still waits at the end of its step. -/
theorem does_waits {c : Instr} {s : State} {x : P Unit} {msg : Msg} {k : Nat} (hi : s.Inv) (hx : exec c s = cmd x s)
    (hp : Leads Feet.xsend x ((Upd.out []).apply s.m) fun _ m1 => [msg] ∈ m1.getXin k) :
    Does c s fun t => [msg] ∈ t.getXin k := does_leads hi hp (fun _ _ h st => st.xin _ _ h) (hx := hx)

/-! A write of a port's control that may be refused (R424). -/

/-- What a write of a port's control can change, accepted or refused. -/
def Feet.portWrite : Mask := Feet.refusedWrite.plus [Feet.octEffect, Feet.ctxWritten, Feet.portStored]

theorem portCtl_mapped (q : Fin 128) : (⟨.OCT_PORT_CTL, q⟩ : Reg).addr % 8 = 0 ∧
    regAt (⟨.OCT_PORT_CTL, q⟩ : Reg).addr = some ⟨.OCT_PORT_CTL, q⟩ := by
  revert q
  decide +kernel

/-- What an accepted write of a port's control runs. -/
theorem portCtl_writeOne (w : CtlWrite) (q : Nat) : Only Feet.portWrite.has (writeOne w ⟨.OCT_PORT_CTL, q⟩) := by
  have apply {d n : Nat} : Only Feet.portWrite.has (regApply ⟨.OCT_PORT_CTL, q⟩ d n w.path) :=
    Only.bind Only.getM fun _ => Only.bind (Only.wrRegK .OCT_PORT_CTL (by decide +kernel)) fun _ =>
      Only.bind (Only.onlyIf (Only.wrK .GLB_STRUCT_STATUS rfl (by decide +kernel))) fun _ =>
      Only.bind ((octEffect_only .OCT_PORT_CTL q _ _).le (by decide +kernel)) fun _ => (ctxWritten_only _).le (by decide +kernel)
  exact Only.bind Only.getM fun _ => Only.bind ((trace_only _ _ _ _ _ _).le (by decide +kernel)) fun _ =>
    Only.bind apply fun _ => Only.onlyIf (Only.onlyIf ((refuse_only _ _ _).le (by decide +kernel)))

/-- A write of a port's control, accepted or refused, stays within what the port's control can change. -/
theorem portCtl_within {q : Fin 128} {lo w v : Nat} (hp : isPage p = false) :
    Leads Feet.portWrite (fieldWrite p ⟨.OCT_PORT_CTL, q, lo, w⟩ v) m fun _ _ => True := by
  obtain ⟨h8, hat⟩ := portCtl_mapped q
  have paged {P : Prop} (h : isPage p = true) : P := absurd (hp.symm.trans h) (by decide)
  have aperture : (⟨.OCT_PORT_CTL, q⟩ : Reg).k ≠ .TEN_OBJ_DATA := ne_of_beq_false rfl
  let d : Word := w64 (v % 2 ^ w * 2 ^ lo)
  let n : Word := w64 (RF.bits ⟨.OCT_PORT_CTL, q, lo, w⟩)
  have within {x : P Unit} (hx : Only Feet.portWrite.has x) : Leads Feet.portWrite x m fun _ _ => True :=
    Ends.imp (hx.ends m) fun _ _ u => ⟨u, trivial⟩
  by_cases refused : reaches m p (⟨.OCT_PORT_CTL, q⟩ : Reg).addr true (d.toNat &&& n.toNat) = false ∨
      writeTest m ⟨.OCT_PORT_CTL, q⟩ d.toNat n.toNat p ≠ rcOK
  · obtain ⟨x, hx, only⟩ := admit_refused h8 hat aperture paged (.inr refused)
    exact regWrite_refused hx (within (only.le (by decide +kernel)))
  · simp only [not_or, Bool.not_eq_false, Decidable.not_not] at refused
    refine regWrite_admitted (r := ⟨.OCT_PORT_CTL, q⟩) (fun k => ?_) (within (portCtl_writeOne _ q))
    rw [admitWrite_own h8 hat aperture paged k, admitOne, if_neg (by rw [Bool.not_eq_false]; exact refused.1), if_pos]
    rw [reasonOf, if_neg (by simp [hp])]
    exact refused.2

/-! The commands of Physical Port Control (R72). -/

/-- What a write of a port's control and its answer can change. -/
def Feet.portCommand : Mask := Feet.portWrite.plus [Feet.portControl, Feet.emit]

/-- RESET_PPB is answered, and starts a Recovery where its write reaches a port that is UP. -/
theorem resetPpb_leads {q : Fin 128} (h : m.Canon) (hp : isPage p = false) : Leads Feet.portCommand (do
    fieldWrite p (OCT_PORT_CTL_RETRAIN q) 1
    fmAnswer fmOK []) m fun _ m1 => Out.mgmt 0 fmOK [] ∈ m1.out ∧ (LandsIn m p (OCT_PORT_CTL_RETRAIN q) 1 →
      m.g (OCT_PORT_STATUS_STATE q) = psUP → (m1.getPort q).recovery = true) := by
  have written : Leads Feet.portCommand (fieldWrite p (OCT_PORT_CTL_RETRAIN q) 1) m fun _ m1 =>
      LandsIn m p (OCT_PORT_CTL_RETRAIN q) 1 → m.g (OCT_PORT_STATUS_STATE q) = psUP → (m1.getPort q).recovery = true := by
    by_cases hl : LandsIn m p (OCT_PORT_CTL_RETRAIN q) 1 ∧ m.g (OCT_PORT_STATUS_STATE q) = psUP
    · exact ((portRetrainWrite_leads (full := false) 2 h hl.2 hl.1).imp fun _ _ _ r _ _ => r.1).le
    · exact ((portCtl_within hp).imp fun _ _ _ _ lands up => absurd ⟨lands, up⟩ hl).le
  refine written.bind fun _ m1 recovers => (fmAnswer_leads.imp fun _ m2 u sent => ⟨sent, fun lands up => ?_⟩).le
  rw [u.port_kept q]
  exact recovers lands up

/-- What a write of PERST_FORCE and its answer can change. -/
def Feet.slotForce : Mask := Feet.stored.plus [.of [.OCT_SLOT_CTL] [], Feet.slotPerstShow, Feet.emit]

/-- A write of PERST_FORCE stands, and is answered. -/
theorem slotPerst_leads {q v : Nat} (h : m.Canon) (hv : v < 2) (hl : LandsIn m p (OCT_SLOT_CTL_PERST_FORCE q) v) :
    Leads Feet.slotForce (do
      fieldWrite p (OCT_SLOT_CTL_PERST_FORCE q) v
      fmAnswer fmOK []) m fun _ m1 => m1.g (OCT_SLOT_CTL_PERST_FORCE q) = v ∧ Out.mgmt 0 fmOK [] ∈ m1.out := by
  have effect {old cmd mask : Nat} : Only Feet.slotPerstShow.has (regEffect ⟨.OCT_SLOT_CTL, q⟩ old cmd mask p) :=
    Only.bind Only.getM fun _ => slotPerstShow_only q
  have shown : Leads Feet.slotForce (fieldWrite p (OCT_SLOT_CTL_PERST_FORCE q) v) m fun _ m1 =>
      m1.g (OCT_SLOT_CTL_PERST_FORCE q) = v := by
    refine fieldWrite_leads h.regs hl (fun m2 hw => ?_) (by decide +kernel)
      (show Feet.slotForce.hasReg .OCT_SLOT_CTL = true by decide +kernel) (by decide +kernel) (show 10 + 1 ≤ 64 by decide)
      (ne_of_beq_false rfl)
    have stored : m2.g (OCT_SLOT_CTL_PERST_FORCE q) = v :=
      (hw.field (show RegKind.OCT_SLOT_CTL.plain 10 1 = true by decide)).trans (Nat.mod_eq_of_lt hv)
    exact effect.leads.imp fun _ _ _ u => (u.g_of .OCT_SLOT_CTL).trans stored
  exact shown.bind fun _ m1 stands => (fmAnswer_leads.imp fun _ m2 u sent => ⟨(u.g_of .OCT_SLOT_CTL).trans stands, sent⟩).le

end Sys2Proof.Machine
end

section
/-!
The statement of the commands of the FM API (R70, R72, R372, R421, R422, Table 17.6; O26).
-/
namespace Sys2Proof.Machine

-- One declaration at a time: proofs that compute in the kernel wait for it, each with a stack of its own.
set_option Elab.async false

section
variable {s : State} {p : Path} (hi : s.Inv) (hs : fmServes s.m p = true)
include hi hs

/-- An answer that the command gives at once. -/
theorem answer_does {c : Instr} {code : Nat} {l : List Nat} (hx : exec c s = cmd (fmCmd p (fmAnswer code l)) s) :
    Does c s fun t => Out.mgmt 0 code l ∈ t.out := does_answers hi hs fmAnswer_leads (hx := hx)

theorem portStates_does (l : List Nat) : Does (.getPhysicalPortState p l) s fun t =>
    if ∀ q ∈ l, q < 128 then
      Out.mgmt 0 fmOK (l.flatMap fun q => [q, Config.linkState (s.m.g (OCT_PORT_STATUS_STATE q)),
        s.m.g (OCT_PORT_STATUS_LANES q), s.m.g (OCT_PORT_STATUS_RATE q)]) ∈ t.out
    else Out.mgmt 0 fmINPUT [] ∈ t.out := by
  by_cases h : ∀ q ∈ l, q < 128
  · simp only [if_pos h]
    refine does_answers (A := Feet.emit) hi hs (Leads.getM ?_)
    rw [if_neg (by simpa using h)]
    exact fmAnswer_leads
  · simp only [if_neg h]
    refine does_answers (A := Feet.opRefused.plus [Feet.emit]) hi hs (Leads.getM ?_)
    rw [if_pos (by simpa using h)]
    exact Leads.after (opRefused_only _ _ _ _ _) fun _ _ _ => fmAnswer_leads.le

theorem ppbConfig_does (q : Fin 128) (write : Bool) : Does (.sendPpbCxlIoConfigRequest p q write) s fun t =>
    if s.m.g (OCT_PORT_CFG_VALID q) = 0 then Out.mgmt 0 fmINPUT [] ∈ t.out
    else if write then Out.mgmt 0 fmOK [] ∈ t.out
    else Out.mgmt 0 fmOK [Config.freeValue s.m.freeCtr % 2 ^ 32] ∈ t.out := by
  by_cases hv : s.m.g (OCT_PORT_CFG_VALID q) = 0
  · simp only [if_pos hv]
    exact does_answers (A := Feet.emit) hi hs (Leads.getM (Leads.ite (fun _ => fmAnswer_leads) fun there => absurd hv there))
  · simp only [if_neg hv]
    cases write with
    | true => exact does_answers (A := Feet.emit) hi hs (Leads.getM (Leads.ite (fun none => absurd none hv) fun _ => fmAnswer_leads))
    | false =>
      refine does_answers (A := Feet.emit.plus [.of [] [.freeCtr]]) hi hs
        (Leads.getM (Leads.ite (fun none => absurd none hv) fun _ => ?_))
      refine Leads.bind (Q := fun v _ => v = Config.freeValue s.m.freeCtr % 2 ^ 32) ?_ fun v m1 hv => hv ▸ fmAnswer_leads.le
      exact Leads.getM (Leads.bind (Q := fun _ _ => True) (Leads.upd (T := .freeCtr) rfl (by decide +kernel) trivial)
        fun _ _ _ => Leads.pure rfl)

theorem vcsInfo_does (v : Fin 64) : Does (.getVirtualCxlSwitchInfo p v) s fun t =>
    if (s.m.getVcs v).valid then Out.mgmt 0 fmOK ([(v : Nat), (s.m.getVcs v).up, (s.m.getVcs v).agent,
      (vppbs s.m v).length] ++ (vppbs s.m v).flatMap fun e => [e.1, e.2]) ∈ t.out
    else Out.mgmt 0 fmINPUT [] ∈ t.out := by
  by_cases hv : (s.m.getVcs v).valid = true
  · simp only [if_pos hv]
    exact does_answers (A := Feet.emit) hi hs (Leads.getM (Leads.ite (fun _ => fmAnswer_leads) fun none => absurd hv none))
  · simp only [if_neg hv]
    exact does_answers (A := Feet.emit) hi hs (Leads.getM (Leads.ite (fun there => absurd there hv) fun _ => fmAnswer_leads))

/-- A port with no slot of its own has no PERST. -/
theorem slotPerst_refused {c : Instr} {q v : Nat} (hq : q % 4 ≠ 0) (hx : exec c s = cmd (slotPerst p q v) s) :
    Does c s fun t => Out.mgmt 0 fmINPUT [] ∈ t.out := by
  refine does_answers (A := Feet.emit) hi hs ?_ (hx := hx)
  rw [if_neg hq]
  exact fmAnswer_leads

theorem slotPerst_does {c : Instr} {q v : Nat} (hv : v < 2) (hq : q % 4 = 0)
    (hl : LandsIn s.m p (OCT_SLOT_CTL_PERST_FORCE (q / 4)) v) (hx : exec c s = cmd (slotPerst p q v) s) :
    Does c s fun t => t.g (OCT_SLOT_CTL_PERST_FORCE (q / 4)) = v ∧ Out.mgmt 0 fmOK [] ∈ t.out := by
  have answered := slotPerst_leads (m := (Upd.out []).apply s.m) (Upd.apply_canon hi.canon _) hv (Lands.sent hl [])
  exact does_leads hi (fmCmd_leads hs (Leads.ite (fun _ => answered) fun other => absurd hq other))
    (fun m1 m2 q st => ⟨(st.g_of .OCT_SLOT_CTL).trans q.1, st.out _ q.2⟩) (hx := hx)

theorem resetPpb_does (q : Fin 128) : Does (.resetPpb p q) s fun t => Out.mgmt 0 fmOK [] ∈ t.out ∧
    (LandsIn s.m p (OCT_PORT_CTL_RETRAIN q) 1 → s.m.g (OCT_PORT_STATUS_STATE q) = psUP → (t.getPort q).recovery = true) := by
  refine does_leads hi (fmCmd_leads hs (resetPpb_leads (Upd.apply_canon hi.canon _) (fmServes_page hs))) fun m1 m2 q st => ?_
  rw [st.port]
  exact ⟨st.out _ q.1, fun hl => q.2 (Lands.sent hl [])⟩

/-! To fabric memory ports, unbound LDs and dynamic capacity devices (R70). -/

section
variable {c : Instr} {q : Fin 128} {op : Op} {code ld addr : Nat} {data : List Word} (hu : portUp s.m q = true)
include hu

/-- A command to a logical device goes to a fabric memory port, or to an unbound device of another. -/
theorem ldCommand_does (hx : exec c s = cmd (ldCommand p q op code ld addr data) s) :
    if fabricPort s.m q = true ∨ ldUnbound s.m q ld = true then
      Does c s fun t => ∃ m : Msg, [m] ∈ t.getXin (epMG * 8 + 7) ∧ m.op = op ∧ m.out = q ∧ m.addr = addr ∧ m.data = data ∧
        m.x = code :: ld :: edgeIds s.m q ld
    else Does c s fun t => Out.mgmt 0 fmINPUT [] ∈ t.out := by
  have allowed : (fabricPort s.m q || ldUnbound s.m q ld) = true ↔ (fabricPort s.m q = true ∨ ldUnbound s.m q ld = true) := by
    rw [Bool.or_eq_true]
  split
  next h =>
    obtain ⟨t, ht, hp, sent⟩ := does_waits hi hx (fmTunnel_sent (Upd.apply_canon hi.canon _) hs hu (allowed.2 h))
    exact ⟨t, ht, hp, _, sent, rfl, rfl, rfl, rfl, rfl⟩
  next h => exact does_sends hi hx (fmTunnel_refused hs (Bool.eq_false_iff.2 fun ha => h (allowed.1 ha)))

/-- A query of logical devices goes to a fabric memory port, or to a device with one that is unbound. -/
theorem ldQuery_does (hx : exec c s = cmd (ldQuery p q code) s) :
    if fabricPort s.m q = true ∨ ∃ l < 16, ldUnbound s.m q l = true then
      Does c s fun t => ∃ m : Msg, [m] ∈ t.getXin (epMG * 8 + 7) ∧ m.op = .ioMsg ∧ m.out = q ∧
        m.x = code :: 0 :: edgeIds s.m q 0
    else Does c s fun t => Out.mgmt 0 fmINPUT [] ∈ t.out := by
  have allowed : (fabricPort s.m q || (List.range 16).any (ldUnbound s.m q)) = true ↔
      (fabricPort s.m q = true ∨ ∃ l < 16, ldUnbound s.m q l = true) := by
    simp only [Bool.or_eq_true, List.any_eq_true, List.mem_range]
  split
  next h =>
    obtain ⟨t, ht, hp, sent⟩ := does_waits hi hx (fmTunnel_sent (Upd.apply_canon hi.canon _) hs hu (allowed.2 h))
    exact ⟨t, ht, hp, _, sent, rfl, rfl, rfl⟩
  next h => exact does_sends hi hx (fmTunnel_refused hs (Bool.eq_false_iff.2 fun ha => h (allowed.1 ha)))

/-- A query of a memory device goes to it. -/
theorem headCommand_does (hq : ldPort s.m q = true) (hx : exec c s = cmd (headCommand p q code) s) :
    Does c s fun t => ∃ m : Msg, [m] ∈ t.getXin (epMG * 8 + 7) ∧ m.op = .ioMsg ∧ m.out = q ∧ m.data = [] ∧
      m.x = code :: 0 :: edgeIds s.m q 0 := by
  obtain ⟨t, ht, hp, sent⟩ := does_waits hi hx (fmTunnel_sent (Upd.apply_canon hi.canon _) hs hu hq)
  exact ⟨t, ht, hp, _, sent, rfl, rfl, rfl, rfl⟩

/-- A dynamic capacity command goes as it is to a dynamic capacity device's LD. -/
theorem dynCapacity_does (hf : fabricPort s.m q = false) (hd : ldDynamic s.m q ld = true)
    (hx : exec c s = cmd (dynCapacity p q code ld data) s) :
    Does c s fun t => ∃ m : Msg, [m] ∈ t.getXin (epMG * 8 + 7) ∧ m.op = .ioMsg ∧ m.out = q ∧ m.data = data ∧
      m.x = code :: ld :: edgeIds s.m q ld := by
  obtain ⟨t, ht, hp, sent⟩ := does_waits hi hx (Leads.getM (Leads.ite (fun fabric => absurd (fabric.symm.trans hf) (by decide))
    fun _ => fmTunnel_sent (Upd.apply_canon hi.canon _) hs hu hd))
  exact ⟨t, ht, hp, _, sent, rfl, rfl, rfl, rfl⟩

end

/-- A fabric memory port refuses a dynamic capacity command. -/
theorem dynCapacity_refused {c : Instr} {q code ld : Nat} {data : List Word} (hf : fabricPort s.m q = true)
    (hx : exec c s = cmd (dynCapacity p q code ld data) s) : Does c s fun t => Out.mgmt 0 fmUNSUPPORTED [] ∈ t.out :=
  does_sends hi hx (Leads.getM (Leads.ite (fun _ => fmCmd_leads hs fmAnswer_leads) fun other => absurd hf other))

end

/-- Settles O26: each command is answered, or its message waits at the management endpoint, and the end of the step keeps both
(R70, R72, R422, Table 17.6). The data of a PPB's configuration read is a free value, the model's choice (notes/assumptions: 2). -/
theorem fmApiCompletes : Obligations.FmApiCompletes := by
  unfold Obligations.FmApiCompletes
  intro s hi p hs
  refine ⟨does_answers (A := Feet.emit) hi hs (Leads.getM fmAnswer_leads), portStates_does hi hs,
    fun q => ⟨slotPerst_does hi hs (by decide) (hx := rfl), slotPerst_does hi hs (by decide) (hx := rfl),
      fun hq => ⟨slotPerst_refused hi hs hq rfl, slotPerst_refused hi hs hq rfl⟩, resetPpb_does hi hs q, ppbConfig_does hi hs q⟩, vcsInfo_does hi hs, fun c hc => ?_, fun q ld a data d write hu =>
      ⟨fun c op code l addr x hc => ?_, fun c code hc => ?_, fun c code l x hc hd hy => ?_⟩, fun q ld data hf c hc => ?_⟩
  · simp only [List.mem_cons, List.not_mem_nil, or_false] at hc
    rcases hc with rfl | rfl | rfl | rfl | rfl <;> exact answer_does hi hs rfl
  · simp only [List.mem_cons, List.not_mem_nil, or_false, Prod.mk.injEq] at hc
    rcases hc with ⟨rfl, rfl, rfl, rfl, rfl, rfl⟩ | ⟨rfl, rfl, rfl, rfl, rfl, rfl⟩ | ⟨rfl, rfl, rfl, rfl, rfl, rfl⟩ <;>
      exact ldCommand_does hi hs hu rfl
  · simp only [List.mem_cons, List.not_mem_nil, or_false, Prod.mk.injEq] at hc
    rcases hc with ⟨rfl, rfl⟩ | ⟨rfl, rfl⟩ <;> exact ldQuery_does hi hs hu rfl
  · simp only [List.mem_cons, List.not_mem_nil, or_false, Prod.mk.injEq] at hc
    rcases hc with ⟨rfl, rfl, rfl, rfl⟩ | ⟨rfl, rfl, rfl, rfl⟩ | ⟨rfl, rfl, rfl, rfl⟩ | ⟨rfl, rfl, rfl, rfl⟩
    · exact headCommand_does hi hs hu (hd (by decide)) rfl
    · exact headCommand_does hi hs hu (hd (by decide)) rfl
    · exact dynCapacity_does hi hs hu (hy (by decide)).1 (hy (by decide)).2 rfl
    · exact dynCapacity_does hi hs hu (hy (by decide)).1 (hy (by decide)).2 rfl
  · simp only [List.mem_cons, List.not_mem_nil, or_false] at hc
    rcases hc with rfl | rfl <;> exact dynCapacity_refused hi hs hf rfl

end Sys2Proof.Machine
end

section
/-!
The frame of the commands of the Crossing and its planes (R81-R112; O35).
-/
namespace Sys2Proof.Machine

-- One declaration at a time: proofs that compute in the kernel wait for it, each with a stack of its own.
set_option Elab.async false

/-- Each command of the Crossing keeps to its footprint, since its program does. -/
theorem crossingTouches_frames {c : Instr} {F : Foot} (h : crossingTouches c = some F) : Frames c F := by
  -- the counters of the mirror sessions are in the sets, and the others are named singly
  have mirrors {M : Mask} {l : List Reg} (hM : M.hasReg .XB_MIR_CNT = true) :
      Cov M l [⟨.XB_MIR_CNT, 0⟩, ⟨.XB_MIR_CNT, 1⟩] := ⟨.inl hM, .inl hM, trivial⟩
  cases c with
  | messageDispatch e k q =>
    cases h
    exact frames_at (messageDispatch_at e k q)
      ⟨.inr (by simp), .inr (by simp), .inr (by simp), .inr (by simp), mirrors (by decide +kernel)⟩
  | headAdmit e k =>
    cases h
    exact frames_at (dispatchHead_at e k) ⟨.inr (by simp), .inr (by simp), mirrors (by decide +kernel)⟩
  | cellLinked e p => cases h; exact frames_only (cellLinked_only _ _)
  | outputSend ep => cases h; exact frames_objs (outputSend_at _)
  | planePathCheckDone p => cases h; exact frames_only (planeCheckPass_only _)
  | planePathCheckTimeout p => cases h; exact frames_only (planeCheckFail_only _)
  | planeError p parity => cases h; exact frames_only (planeError_only _ _)
  | planeWatchdog p => cases h; exact frames_only (planeError_only _ _)
  | planeDrained p => cases h; exact frames_only (planeDrained_only _)
  | planeDrainTimeout p => cases h; exact frames_only (planeDrainTimeout_only _)
  | ageExpiry ep k => cases h; exact frames_only (ageExpiry_only _ _)
  | flushedNotice was q => cases h; exact frames_only (flushedNotice_only _ _)
  | _ => cases h

/-- Settles O35: each command's program keeps to the command's footprint, and so does what settles after it (R81-R112). -/
theorem crossingFrame : Obligations.CrossingFrame := fun s t _ _ hi hF h => crossingTouches_frames hF s t hi h

end Sys2Proof.Machine
end

section
/-!
SUPPORT. The view of a plane that software and the power sequencer have, and what the operations of the planes make of it
(R91, R95-R97, Table 4.3).
-/
namespace Sys2Proof.Machine

-- One declaration at a time: proofs that compute in the kernel wait for it, each with a stack of its own.
set_option Elab.async false

/-- The canonical forms are kept wherever a program leads. -/
theorem Leads.canon {α : Type} {A : Mask} {x : P α} {m : Mach} {Q : α → Mach → Prop} (h : Leads A x m Q) (hc : m.Canon) :
    Leads A x m fun a m1 => Q a m1 ∧ m1.Canon := h.imp fun _ _ v q => ⟨q, v.canon hc⟩

/-! A plane and what changes it. -/

/-- A plane: STATE, CAUSE, whether it comes back from TEST or LOST, and whether its domain is ON. -/
@[ext] structure PlaneSt where
  state : Nat
  cause : Nat
  back : Bool
  on : Bool

/-- Plane `p` of the block. -/
def Mach.plane (m : Mach) (p : Nat) : PlaneSt := ⟨m.g (planeState p), m.g (planeCause p), m.getXret p, domOn m (dXB p)⟩

/-- Plane `p` has become `x`, and the other planes stand. -/
structure PlaneBecomes (m : Mach) (p : Nat) (x : PlaneSt) (m1 : Mach) : Prop where
  this : m1.plane p = x
  others : ∀ q < 4, q ≠ p → m1.plane q = m.plane q

section
variable {m m1 m2 : Mach} {p n : Nat} {x y : PlaneSt} {A : Mask}

theorem PlaneBecomes.refl : PlaneBecomes m p (m.plane p) m := ⟨rfl, fun _ _ _ => rfl⟩

theorem PlaneBecomes.trans (h : PlaneBecomes m p x m1) (h' : PlaneBecomes m1 p y m2) : PlaneBecomes m p y m2 :=
  ⟨h'.this, fun q hq ne => (h'.others q hq ne).trans (h.others q hq ne)⟩

/-- What names nothing of a plane leaves the planes. -/
theorem Via.plane_kept (v : Via A.has m m1) (p : Nat) (hs : A.hasReg .XB_PLANE_STATUS = false := by decide +kernel)
    (hd : A.hasReg .PWR_DOM_STATUS = false := by decide +kernel) (hr : A.hasTab .xret = false := by decide +kernel) :
    m1.plane p = m.plane p := by
  simp only [Mach.plane, domOn, Mach.getXret, show m1.xret = m.xret from v.tab_kept .xret hr, v.g_of .XB_PLANE_STATUS hs,
    v.g_of .PWR_DOM_STATUS hd]

theorem PlaneBecomes.kept (h : PlaneBecomes m p x m1) (v : Via A.has m1 m2)
    (hs : A.hasReg .XB_PLANE_STATUS = false := by decide +kernel) (hd : A.hasReg .PWR_DOM_STATUS = false := by decide +kernel)
    (hr : A.hasTab .xret = false := by decide +kernel) : PlaneBecomes m p x m2 :=
  ⟨(v.plane_kept p hs hd hr).trans h.this, fun q hq ne => (v.plane_kept q hs hd hr).trans (h.others q hq ne)⟩

/-- The fields of the planes share no bit. -/
theorem planeFields_apart : ∀ p < 4, (planeState p).storable = true ∧ (planeCause p).storable = true ∧
    (planeState p).apart (planeCause p) = true ∧ (planeCause p).apart (planeState p) = true ∧
    ∀ q < 4, q ≠ p → (planeState p).apart (planeState q) = true ∧ (planeState p).apart (planeCause q) = true ∧
      (planeCause p).apart (planeState q) = true ∧ (planeCause p).apart (planeCause q) = true := by decide +kernel

/-- A store in a plane's fields leaves the domains. -/
theorem domOn_setPlane {lo w d : Nat} : domOn (m.set ⟨.XB_PLANE_STATUS, 0, lo, w⟩ n) d = domOn m d := by
  rw [domOn, domOn, g_set_other (by simp)]

theorem set_planeState (h : regsWf m.regs = true) (hp : p < 4) (hn : n < 16) :
    PlaneBecomes m p { m.plane p with state := n } (m.set (planeState p) n) := by
  obtain ⟨stores, -, beside, -, apart⟩ := planeFields_apart p hp
  refine ⟨PlaneSt.ext ?_ (g_set_apart h beside) rfl domOn_setPlane, fun q hq ne => ?_⟩
  · exact (g_set_same h stores).trans (Nat.mod_eq_of_lt hn)
  · obtain ⟨state, cause, -, -⟩ := apart q hq ne
    exact PlaneSt.ext (g_set_apart h state) (g_set_apart h cause) rfl domOn_setPlane

theorem set_planeCause (h : regsWf m.regs = true) (hp : p < 4) (hn : n < 16) :
    PlaneBecomes m p { m.plane p with cause := n } (m.set (planeCause p) n) := by
  obtain ⟨-, stores, -, beside, apart⟩ := planeFields_apart p hp
  refine ⟨PlaneSt.ext (g_set_apart h beside) ?_ rfl domOn_setPlane, fun q hq ne => ?_⟩
  · exact (g_set_same h stores).trans (Nat.mod_eq_of_lt hn)
  · obtain ⟨-, -, state, cause⟩ := apart q hq ne
    exact PlaneSt.ext (g_set_apart h state) (g_set_apart h cause) rfl domOn_setPlane

theorem putXret_plane {b : Bool} (h : m.Canon) : PlaneBecomes m p { m.plane p with back := b } ((Upd.xret p b).apply m) :=
  ⟨PlaneSt.ext rfl rfl (tget_tput_same h.xret) rfl,
    fun _ _ ne => PlaneSt.ext rfl rfl (tget_tput_other h.xret ne) rfl⟩

end

/-! The operations of a plane (R95, R96, Table 4.3). -/

section
variable {m : Mach} {p n cause : Nat}

/-- A plane enters a state; MODE and IN_SERVICE follow. -/
theorem planeTo_leads (h : regsWf m.regs = true) (hp : p < 4) (hn : n < 16) :
    Leads Feet.planeTo (planeTo p n) m fun _ => PlaneBecomes m p { m.plane p with state := n } :=
  (Leads.wr (Q := fun _ => PlaneBecomes m p { m.plane p with state := n }) .XB_PLANE_STATUS (set_planeState h hp hn)).then
    (fun _ => planeModeUpdate_only) fun _ _ _ q v => q.kept v

/-- The cells of a lost plane are resent, and their flowlet entries drain (R96). -/
def planeResend (p : Nat) : P Unit := do
  let m ← getM
  each m.stg fun e => do
    let mine := e.2.filter (fun s => s.plane = p)
    addSat (XB_CNT_COUNT xcRESENT) (mine.foldl (fun a s => a + (s.cells - s.linked)) 0)
    putStg e.1 (e.2.map fun s => if s.plane = p then { s with plane := (pinnedPlane m s.msg).getD 0xFF } else s)
    each (mine.flatMap (·.entries)) fun k => modFlowt k fun f => { f with draining := true }

theorem planeLoss_eq (p cause : Nat) : planeLoss p cause = (do
    wr (planeCause p) cause
    planeTo p plLOST
    raise (((ev 3 2 0x0381).b24 p).b25 cause)
    planeResend p) := rfl

theorem planeResend_only (p : Nat) : Only (Mask.of [.XB_CNT] [.stg, .flowt]).has (planeResend p) :=
  Only.bind Only.getM fun _ => Only.each fun _ _ => Only.bind (Only.addSatK .XB_CNT rfl (by decide +kernel)) fun _ =>
    Only.bind (Only.doT .stg rfl (by decide +kernel)) fun _ => Only.each fun _ _ =>
      Only.bind (Only.bind Only.getM fun _ => Only.pure _) fun _ => Only.doT .flowt rfl (by decide +kernel)

/-- A plane that is lost shows why. -/
theorem planeLoss_leads (h : regsWf m.regs = true) (hp : p < 4) (hc : cause < 16) :
    Leads Feet.planeLoss (planeLoss p cause) m fun _ =>
      PlaneBecomes m p { m.plane p with state := plLOST, cause := cause } := by
  rw [planeLoss_eq]
  refine Leads.bind (Leads.wr .XB_PLANE_STATUS (Q := fun _ m1 => PlaneBecomes m p { m.plane p with cause := cause } m1 ∧
    regsWf m1.regs = true) ⟨set_planeCause h hp hc, set_wf h⟩) fun _ m1 ⟨shown, wf1⟩ => ?_
  refine Leads.bind (planeTo_leads wf1 hp (by decide)).le fun _ m2 lost => Leads.after (raise_only _) fun _ m3 v3 =>
    (planeResend_only p).leads.imp fun _ m4 _ v4 => ?_
  rw [shown.this] at lost
  exact ((shown.trans lost).kept v3).kept v4

theorem planeCheckPass_leads (h : m.Canon) (hp : p < 4) (hs : m.g (planeState p) = plSTARTING) :
    Leads Feet.planeCheckPass (planeCheckPass p) m fun _ m1 =>
      m1.g (planeState p) = if m.getXdown p then plDRAINING else plSERVICE := by
  refine Leads.getM ?_
  rw [if_pos hs]
  refine Leads.bind ((planeTo_leads h.regs hp (by decide)).canon h).le fun _ m1 ⟨serves, canon1⟩ => ?_
  refine Leads.after (B := (Mask.of [] [.xret]).plus [Feet.raise]) (Only.onlyIf (Only.bind (Only.doT .xret rfl (by decide +kernel))
    fun _ => (raise_only _).le (by decide +kernel))) fun _ m2 v2 => Leads.after resendStranded_only fun _ m3 v3 => ?_
  refine Leads.onlyIf (fun down => ?_) fun up => ?_
  · rw [if_pos down]
    exact ((planeTo_leads (v3.canon (v2.canon canon1)).regs hp (by decide)).imp fun _ m4 _ q => congrArg PlaneSt.state q.this).le
  · rw [if_neg up, v3.g_of .XB_PLANE_STATUS, v2.g_of .XB_PLANE_STATUS]
    exact congrArg PlaneSt.state serves.this

theorem planeDrained_leads (h : regsWf m.regs = true) (hp : p < 4) (hs : m.g (planeState p) = plDRAINING)
    (hb : planeBusy m p = false) : Leads Feet.planeTo (planeDrained p) m fun _ m1 =>
      m1.g (planeState p) = if m.getXdown p then plOFF else plTEST := by
  refine Leads.getM ?_
  rw [if_pos ⟨hs, hb⟩]
  exact (planeTo_leads h hp (by split <;> decide)).imp fun _ _ _ q => congrArg PlaneSt.state q.this

end

/-! The write of XB_PLANE_CTL (R95, R97). -/

/-- What a write of XB_PLANE_CTL does with one plane: `old` is the register before it, `cmd` holds the bits written. -/
def planeRound (old cmd p : Nat) : P Unit := do
  let m ← getM
  onlyIf (bitsAt cmd p 1 = 1 ∧ bitsAt old p 1 = 0 ∧ m.g (planeState p) = plSERVICE) (planeTo p plDRAINING)
  let k ← getM
  onlyIf (bitsAt cmd (4 + p) 1 = 1 ∧ (k.g (planeState p) = plTEST ∨ (k.g (planeState p) = plLOST ∧ domOn k (dXB p) = true))) (do
    wr (planeCause p) 0
    putXret p true
    planeTo p plSTARTING)

theorem planeEffect_eq (i old cmd mask : Nat) (w : Path) :
    regEffect ⟨.XB_PLANE_CTL, i⟩ old cmd mask w = each (List.range 4) (planeRound old cmd) := rfl

/-- A plane that OUT takes out of SERVICE drains. -/
def PlaneSt.goesOut (x : PlaneSt) : PlaneSt := if x.state = plSERVICE then { x with state := plDRAINING } else x

/-- A plane that RETURN brings back from TEST, or from LOST while its domain is ON, starts, and its cause is cleared. -/
def PlaneSt.comesBack (x : PlaneSt) : PlaneSt :=
  if x.state = plTEST ∨ (x.state = plLOST ∧ x.on = true) then { x with state := plSTARTING, cause := 0, back := true } else x

theorem PlaneSt.goesOut_of {x : PlaneSt} (h : x.state = plSERVICE) : x.goesOut = { x with state := plDRAINING } := if_pos h

theorem PlaneSt.comesBack_of {x : PlaneSt} (h : x.state = plTEST ∨ (x.state = plLOST ∧ x.on = true)) :
    x.comesBack = { x with state := plSTARTING, cause := 0, back := true } := if_pos h

/-- What a write of XB_PLANE_CTL makes of a plane. -/
def PlaneSt.commanded (old cmd p : Nat) (x : PlaneSt) : PlaneSt :=
  let y := if bitsAt cmd p 1 = 1 ∧ bitsAt old p 1 = 0 then x.goesOut else x
  if bitsAt cmd (4 + p) 1 = 1 then y.comesBack else y

theorem PlaneSt.commanded_out {old cmd p : Nat} {x : PlaneSt} (ho : bitsAt cmd p 1 = 1) (hn : bitsAt old p 1 = 0)
    (hr : bitsAt cmd (4 + p) 1 = 0) (hs : x.state = plSERVICE) : x.commanded old cmd p = { x with state := plDRAINING } := by
  simp [commanded, ho, hn, hr, goesOut_of hs]

theorem PlaneSt.commanded_return {old cmd p : Nat} {x : PlaneSt} (ho : bitsAt cmd p 1 = 0) (hr : bitsAt cmd (4 + p) 1 = 1)
    (hs : x.state = plTEST ∨ (x.state = plLOST ∧ x.on = true)) :
    x.commanded old cmd p = { x with state := plSTARTING, cause := 0, back := true } := by
  simp [commanded, ho, hr, comesBack_of hs]

section
variable {m : Mach} {old cmd p : Nat}

/-- The first part of a round: OUT. -/
theorem planeGoesOut_leads (h : regsWf m.regs = true) (hp : p < 4) : Leads Feet.xbEffect
    (onlyIf (bitsAt cmd p 1 = 1 ∧ bitsAt old p 1 = 0 ∧ m.g (planeState p) = plSERVICE) (planeTo p plDRAINING)) m fun _ =>
      PlaneBecomes m p (if bitsAt cmd p 1 = 1 ∧ bitsAt old p 1 = 0 then (m.plane p).goesOut else m.plane p) := by
  refine Leads.onlyIf (fun ⟨asked, new, serves⟩ => ?_) fun none => ?_
  · rw [if_pos ⟨asked, new⟩, PlaneSt.goesOut_of (x := m.plane p) serves]
    exact (planeTo_leads h hp (by decide)).le
  · have stands : (if bitsAt cmd p 1 = 1 ∧ bitsAt old p 1 = 0 then (m.plane p).goesOut else m.plane p) = m.plane p := by
      split
      next asked => exact if_neg fun serves => none ⟨asked.1, asked.2, serves⟩
      next => rfl
    rw [stands]
    exact .refl

/-- The second part of a round: RETURN. -/
theorem planeComesBack_leads (h : m.Canon) (hp : p < 4) : Leads Feet.xbEffect
    (onlyIf (bitsAt cmd (4 + p) 1 = 1 ∧
        (m.g (planeState p) = plTEST ∨ (m.g (planeState p) = plLOST ∧ domOn m (dXB p) = true))) (do
      wr (planeCause p) 0
      putXret p true
      planeTo p plSTARTING)) m fun _ =>
        PlaneBecomes m p (if bitsAt cmd (4 + p) 1 = 1 then (m.plane p).comesBack else m.plane p) := by
  refine Leads.onlyIf (fun ⟨asked, from_⟩ => ?_) fun none => ?_
  · rw [if_pos asked, PlaneSt.comesBack_of (x := m.plane p) from_]
    refine Leads.bind (Leads.wr .XB_PLANE_STATUS (Q := fun _ m1 => PlaneBecomes m p { m.plane p with cause := 0 } m1 ∧ m1.Canon)
      ⟨set_planeCause h.regs hp (by decide), Upd.apply_canon h _⟩) fun _ m1 ⟨cleared, canon1⟩ => ?_
    refine Leads.bind (Leads.upd (T := .xret) (Q := fun _ m2 => PlaneBecomes m p { m.plane p with cause := 0, back := true } m2 ∧
      regsWf m2.regs = true) rfl (by decide +kernel) ⟨?_, canon1.regs⟩) fun _ m2 ⟨marked, wf2⟩ => ?_
    · have := putXret_plane (p := p) (b := true) canon1
      rw [cleared.this] at this
      exact cleared.trans this
    · refine ((planeTo_leads wf2 hp (by decide)).imp fun _ m3 _ starts => ?_).le
      rw [marked.this] at starts
      exact marked.trans starts
  · have stands : (if bitsAt cmd (4 + p) 1 = 1 then (m.plane p).comesBack else m.plane p) = m.plane p := by
      split
      next asked => exact if_neg fun from_ => none ⟨asked, from_⟩
      next => rfl
    rw [stands]
    exact .refl

theorem planeRound_leads (h : m.Canon) (hp : p < 4) : Leads Feet.xbEffect (planeRound old cmd p) m fun _ =>
    PlaneBecomes m p ((m.plane p).commanded old cmd p) := by
  refine Leads.getM (Leads.bind ((planeGoesOut_leads h.regs hp).canon h) fun _ m1 ⟨out, canon1⟩ =>
    Leads.getM ((planeComesBack_leads canon1 hp).imp fun _ m2 _ back => ?_))
  rw [out.this] at back
  exact out.trans back

/-- The rounds of a loop over planes command each of them once. -/
theorem planeRounds_leads {l : List Nat} (hl : ∀ p ∈ l, p < 4) (hn : l.Nodup) (h : m.Canon) :
    Leads Feet.xbEffect (each l (planeRound old cmd)) m fun _ m1 =>
      (∀ p ∈ l, m1.plane p = (m.plane p).commanded old cmd p) ∧ ∀ p < 4, p ∉ l → m1.plane p = m.plane p := by
  induction l generalizing m with
  | nil => exact Leads.pure ⟨nofun, fun _ _ _ => rfl⟩
  | cons a t ih =>
    obtain ⟨fresh, hn⟩ := List.nodup_cons.1 hn
    have ha : a < 4 := hl a List.mem_cons_self
    refine Leads.bind ((planeRound_leads h ha).canon h) fun _ m1 ⟨this, canon1⟩ =>
      (ih (fun p hp => hl p (List.mem_cons_of_mem _ hp)) hn canon1).imp fun _ m2 _ ⟨done, stand⟩ =>
        ⟨fun p hp => ?_, fun p hp out => ?_⟩
    · rcases List.mem_cons.1 hp with rfl | hp
      · exact (stand p ha fresh).trans this.this
      · have other : m1.plane p = m.plane p := this.others p (hl p (List.mem_cons_of_mem _ hp)) fun e => fresh (e ▸ hp)
        rw [done p hp, other]
    · rw [List.mem_cons, not_or] at out
      exact (stand p hp out.2).trans (this.others p hp out.1)

end

/-! Accepted writes of XB_PLANE_CTL and XB_CTL (R95, R97, R112). -/

/-- What a write of XB_PLANE_CTL can change. -/
def Feet.planeCtl : Mask := Feet.xbEffect.plus [Feet.stored, .of [.XB_PLANE_CTL] []]

section
variable {m m1 : Mach} {w : Path} {lo n c : Nat}

/-- An accepted write of a field of XB_PLANE_CTL commands every plane, and the register stands as it was stored. -/
theorem planeCtl_leads {v : Nat} (h : m.Canon) (hl : LandsIn m w ⟨.XB_PLANE_CTL, 0, lo, 4⟩ v) (hf : lo + 4 ≤ 64 := by decide) :
    Leads Feet.planeCtl (fieldWrite w ⟨.XB_PLANE_CTL, 0, lo, 4⟩ v) m fun _ m1 =>
      (∃ m2, Written m ⟨.XB_PLANE_CTL, 0⟩ (v % 2 ^ 4 * 2 ^ lo) ((2 ^ 4 - 1) * 2 ^ lo) m2 ∧
        ∀ f, f.k = .XB_PLANE_CTL → m1.g f = m2.g f) ∧
      ∀ p < 4, m1.plane p = (m.plane p).commanded (m.rd ⟨.XB_PLANE_CTL, 0⟩).toNat
        (v % 2 ^ 4 * 2 ^ lo &&& (2 ^ 4 - 1) * 2 ^ lo) p := by
  refine fieldWrite_leads h.regs hl (fun m2 hw => ?_) (by decide +kernel)
    (show Feet.planeCtl.hasReg .XB_PLANE_CTL = true by decide +kernel) (by decide +kernel) hf (ne_of_beq_false rfl)
  have v2 : Via (Feet.stored.plus [.of [.XB_PLANE_CTL] []]).has m m2 := hw.within (by decide +kernel)
    (show (Feet.stored.plus [.of [.XB_PLANE_CTL] []]).hasReg .XB_PLANE_CTL = true by decide +kernel)
  rw [planeEffect_eq]
  refine ((planeRounds_leads (fun p => List.mem_range.1) List.nodup_range (v2.canon h)).imp fun _ m3 v3 q => ?_).le
  refine ⟨⟨m2, hw.toWritten, fun f hf => v3.g_kept f (by rw [hf]; decide +kernel)⟩, fun p hp => ?_⟩
  rw [q.1 p (List.mem_range.2 hp), v2.plane_kept p]
  rfl

/-- A counter of the Crossing returns to 0, and the others that are at 0 stay there. -/
theorem clearCounter_leads {A : Mask} (hA : A.hasReg .XB_CNT = true) (c : Nat) (m : Mach) (h : m.Canon) :
    Leads A (rstReg .XB_CNT c) m fun _ m1 => (c < 9 → m1.rd ⟨.XB_CNT, c⟩ = 0#64) ∧
      ∀ b, (b < 9 → m.rd ⟨.XB_CNT, b⟩ = 0#64) → b < 9 → m1.rd ⟨.XB_CNT, b⟩ = 0#64 := by
  refine Ends.upd ⟨.head (by rw [Mask.has_reg]; exact hA) (.refl _), fun hc => ?_, fun b hb hlt => ?_⟩
  · exact rd_reset h.regs ⟨hc, rfl⟩ (.inl rfl)
  · by_cases hbc : b = c
    · subst hbc
      exact rd_reset h.regs ⟨hlt, rfl⟩ (.inl rfl)
    · rw [rd_store_other (by simp [hbc]), hb hlt]

theorem xbCtlEffect_eq (i old cmd mask : Nat) (w : Path) : regEffect ⟨.XB_CTL, i⟩ old cmd mask w =
    onlyIf (bitsAt cmd 0 1 = 1) (do
      each (List.range 9) fun c => rstReg .XB_CNT c
      rstReg .XB_MIR_CNT 0
      rstReg .XB_MIR_CNT 1) := rfl

/-- What a write of CLR_CNT can change. -/
def Feet.xbClear : Mask := Feet.stored.plus [.of [.XB_CTL, .XB_CNT, .XB_MIR_CNT] []]

theorem xbClrCnt_leads (h : m.Canon) (hl : LandsIn m w XB_CTL_CLR_CNT 1) :
    Leads Feet.xbClear (fieldWrite w XB_CTL_CLR_CNT 1) m fun _ m1 => ∀ c < 9, m1.rd ⟨.XB_CNT, c⟩ = 0#64 := by
  refine fieldWrite_leads h.regs hl fun m2 hw => ?_
  have canon2 : m2.Canon := hw.via.canon h
  rw [xbCtlEffect_eq]
  refine Leads.onlyIf (fun _ => ?_) fun none => absurd (by decide) none
  have mirrors {i : Nat} : Only (Mask.of [.XB_MIR_CNT] []).has (rstReg .XB_MIR_CNT i) := Only.rstK .XB_MIR_CNT (by decide +kernel)
  refine Leads.then (Q := fun _ m3 => ∀ c < 9, m3.rd ⟨.XB_CNT, c⟩ = 0#64) ?_ (fun _ => mirrors.bind fun _ => mirrors)
    fun _ m3 m4 q v c hc => (v.rd_of .XB_CNT).trans (q c hc)
  exact (each_leads (clearCounter_leads (by decide +kernel)) m2 canon2).imp fun _ _ _ q c hc =>
    q.1 c (List.mem_range.2 hc) hc

end

end Sys2Proof.Machine
end

section
/-!
The statement of the planes (R91, R95-R97, R112, Table 4.3; O8).
-/
namespace Sys2Proof.Machine

-- One declaration at a time: proofs that compute in the kernel wait for it, each with a stack of its own.
set_option Elab.async false

/-- The bits of a write of XB_PLANE_CTL: of OUT, and of RETURN. -/
theorem planeOut_bits : ∀ planes : Fin 16, ∀ p < 4,
    bitsAt ((planes : Nat) % 2 ^ 4 * 2 ^ 0 &&& (2 ^ 4 - 1) * 2 ^ 0) p 1 = bitsAt planes p 1 ∧
    bitsAt ((planes : Nat) % 2 ^ 4 * 2 ^ 0 &&& (2 ^ 4 - 1) * 2 ^ 0) (4 + p) 1 = 0 := by decide +kernel

theorem planeReturn_bits : ∀ planes : Fin 16, ∀ p < 4,
    bitsAt ((planes : Nat) % 2 ^ 4 * 2 ^ 4 &&& (2 ^ 4 - 1) * 2 ^ 4) p 1 = 0 ∧
    bitsAt ((planes : Nat) % 2 ^ 4 * 2 ^ 4 &&& (2 ^ 4 - 1) * 2 ^ 4) (4 + p) 1 = bitsAt planes p 1 := by decide +kernel

/-- A bit of a field from bit 0 is the bit of the register. -/
theorem bitsAt_field {v p w : Nat} (hp : p < w) : bitsAt (bitsAt v 0 w) p 1 = bitsAt v p 1 :=
  Nat.eq_of_testBit_eq fun n => by
    simp only [testBit_bitsAt]
    by_cases hn : n < 1
    · have : p + n < w := by omega
      simp [this]
    · simp [hn]

variable {s : State} {c : Instr} {x : P Unit} {A : Mask} {Q R : Mach → Prop}

/-- What holds at the end of a command whose program can make a fence due. -/
theorem does_fenced (hp : Leads A x ((Upd.out []).apply s.m) fun _ => Q)
    (hQ : ∀ m1 m2, Q m1 → Via Feet.settle.has m1 m2 → R m2) (hx : exec c s = Machine.cmd x s := by rfl) : Does c s R :=
  does_settled (Ends.imp hp fun _ _ q => q.2) hQ hx

/-- The end of a step leaves the planes. -/
theorem settled_plane {m1 m2 : Mach} (v : Via Feet.settle.has m1 m2) (p : Nat) : m2.plane p = m1.plane p := v.plane_kept p

/-- A command that loses its plane under a condition that holds. -/
theorem does_lost {p : Fin 4} {cause : Nat} (may : Mach → Prop) [∀ m, Decidable (may m)] (hi : s.Inv) (hc : cause < 16)
    (hm : may ((Upd.out []).apply s.m))
    (hx : exec c s = Machine.cmd (do let m ← getM; onlyIf (may m) (planeLoss p cause)) s := by rfl) :
    Does c s fun t => t.g (planeState p) = plLOST ∧ t.g (planeCause p) = cause :=
  does_fenced (Leads.getM (Leads.onlyIf (fun _ => planeLoss_leads (Upd.apply_canon hi.canon _).regs p.isLt hc)
    fun none => absurd hm none) : Leads Feet.planeLoss _ _ fun _ m1 =>
      PlaneBecomes ((Upd.out []).apply s.m) p { ((Upd.out []).apply s.m).plane p with state := plLOST, cause := cause } m1)
    (fun m1 m2 q v => by
      have lost := (settled_plane v p).trans q.this
      exact ⟨congrArg PlaneSt.state lost, congrArg PlaneSt.cause lost⟩) hx

/-- Settles O8: each form is a program that leads its planes to their states, and the end of the step, a fence included, leaves the
planes (R91, R95-R97, R112, Table 4.3). That RETURN clears CAUSE is the model's choice (notes/assumptions: 123). -/
theorem planesComplete : Obligations.PlanesComplete := by
  unfold Obligations.PlanesComplete
  intro s hi
  have hc : ((Upd.out []).apply s.m).Canon := Upd.apply_canon hi.canon _
  have sent {w : Path} {f : RF} {v : Nat} (hl : LandsIn s.m w f v) : LandsIn ((Upd.out []).apply s.m) w f v := Lands.sent hl []
  refine ⟨fun p hs => ?_, fun p hs => ?_, fun p parity hs => ?_, fun p hs => ?_, fun p hs hb => ?_, fun p hs hb => ?_,
    fun w planes hl => ?_, fun w planes hl => ?_, fun w hl => ?_⟩
  · exact does_fenced (planeCheckPass_leads hc p.isLt hs) fun m1 m2 q v =>
      (congrArg PlaneSt.state (settled_plane v p)).trans q
  · exact does_lost (fun m => m.g (planeState p) = plSTARTING) hi (by decide) hs
  · have lost := does_lost (c := .planeError p parity) (p := p) (cause := 1 + flag parity)
      (fun m => m.g (planeState p) ∈ [plSTARTING, plSERVICE, plDRAINING]) hi (by cases parity <;> decide) hs
    rwa [show 1 + flag parity = if parity then 2 else 1 by cases parity <;> rfl] at lost
  · exact does_lost (fun m => m.g (planeState p) ∈ [plSTARTING, plSERVICE, plDRAINING]) hi (by decide) hs
  · exact does_fenced (planeDrained_leads hc.regs p.isLt hs hb) fun m1 m2 q v =>
      (congrArg PlaneSt.state (settled_plane v p)).trans q
  · exact does_lost (fun m => m.g (planeState p) = plDRAINING ∧ planeBusy m p = true) hi (by decide) ⟨hs, hb⟩
  · refine does_fenced (planeCtl_leads (lo := 0) hc (sent hl)) fun m1 m2 ⟨⟨m3, hw, stands⟩, planes'⟩ v =>
      ⟨?_, fun p hp asked new serves => ?_⟩
    · rw [v.g_of .XB_PLANE_CTL, stands _ rfl, hw.field (by decide +kernel)]
      exact Nat.mod_eq_of_lt planes.isLt
    · obtain ⟨out, back⟩ := planeOut_bits planes p hp
      have new : bitsAt (s.m.rd ⟨.XB_PLANE_CTL, 0⟩).toNat p 1 = 0 := (bitsAt_field hp).symm.trans new
      have drains := (settled_plane v p).trans ((planes' p hp).trans (PlaneSt.commanded_out (out.trans asked) new back serves))
      exact congrArg PlaneSt.state drains
  · refine does_fenced (planeCtl_leads (lo := 4) hc (sent hl)) fun m1 m2 ⟨_, planes'⟩ v p hp asked from_ => ?_
    obtain ⟨out, back⟩ := planeReturn_bits planes p hp
    have starts := (settled_plane v p).trans ((planes' p hp).trans (PlaneSt.commanded_return out (back.trans asked) from_))
    exact ⟨congrArg PlaneSt.state starts, congrArg PlaneSt.cause starts, congrArg PlaneSt.back starts⟩
  · refine does_leads hi (xbClrCnt_leads hc (sent hl)) fun m1 m2 q st k hk => ?_
    rw [st.g_of .XB_CNT, Mach.g, q k hk]
    simp [bitsAt]

end Sys2Proof.Machine
end

section
/-!
SUPPORT. What the operations of the Crossing's queues lead to (R81-R94, R99, R103, R107).
-/
namespace Sys2Proof.Machine

-- One declaration at a time: proofs that compute in the kernel wait for it, each with a stack of its own.
set_option Elab.async false

/-! Entries of the tables. -/

section
variable {m m1 : Mach} {A : Mask} {k : Nat}

/-- An entry that a program changes alone holds what the change makes of it. -/
theorem modTab_leads {γ : Type} {T : Tab} {f : γ → γ} (get : Mach → Nat → γ) (u : Nat → γ → Upd)
    (ht : (u k (f (get m k))).tab = some T)
    (hg : get ((u k (f (get m k))).apply m) k = f (get m k)) (hA : A.hasTab T = true := by decide +kernel) :
    Leads A (do let v ← (do let m ← getM; pure (get m k) : P γ); doU (u k (f v))) m fun _ m1 => get m1 k = f (get m k) :=
  Leads.getM (Leads.upd ht hA hg)

theorem modXin_leads {f : List (List Msg) → List (List Msg)} (h : m.Canon) (hA : A.hasTab .xin = true := by decide +kernel) :
    Leads A (modXin k f) m fun _ m1 => m1.getXin k = f (m.getXin k) :=
  modTab_leads Mach.getXin .xin rfl (tget_tput_same h.xin) hA

theorem modStg_leads {f : List Staged → List Staged} (h : m.Canon) (hA : A.hasTab .stg = true := by decide +kernel) :
    Leads A (modStg k f) m fun _ m1 => m1.getStg k = f (m.getStg k) :=
  modTab_leads Mach.getStg .stg rfl (tget_tput_same h.stg) hA

theorem modXq_leads {f : List QMsg → List QMsg} (h : m.Canon) (hA : A.hasTab .xq = true := by decide +kernel) :
    Leads A (modXq k f) m fun _ m1 => m1.getXq k = f (m.getXq k) :=
  modTab_leads Mach.getXq .xq rfl (tget_tput_same h.xq) hA

theorem Via.xin_kept (v : Via A.has m m1) (k : Nat) (h : A.hasTab .xin = false := by decide +kernel) :
    m1.getXin k = m.getXin k := congrArg (tget [] · k) (show m1.xin = m.xin from v.tab_kept .xin h)

theorem Via.stg_kept (v : Via A.has m m1) (k : Nat) (h : A.hasTab .stg = false := by decide +kernel) :
    m1.getStg k = m.getStg k := congrArg (tget [] · k) (show m1.stg = m.stg from v.tab_kept .stg h)

theorem Via.xq_kept (v : Via A.has m m1) (k : Nat) (h : A.hasTab .xq = false := by decide +kernel) :
    m1.getXq k = m.getXq k := congrArg (tget [] · k) (show m1.xq = m.xq from v.tab_kept .xq h)

/-- Where a message may go depends on the states of its endpoint alone. -/
theorem mayReach_kept (v : Via A.has m m1) (msg : Msg) (hl : A.hasReg .TWN_SPN_STATUS = false := by decide +kernel)
    (hd : A.hasReg .PWR_DOM_STATUS = false := by decide +kernel) (hp : A.hasReg .OCT_PORT_STATUS = false := by decide +kernel) :
    mayReach m1 msg = mayReach m msg := by
  have spindle : m1.g TWN_SPN_STATUS_STATE = m.g TWN_SPN_STATUS_STATE := v.g_of .TWN_SPN_STATUS hl
  have domain (d : Nat) : m1.g (PWR_DOM_STATUS_STATE d) = m.g (PWR_DOM_STATUS_STATE d) := v.g_of .PWR_DOM_STATUS hd
  have port (p : Nat) : m1.g (OCT_PORT_STATUS_STATE p) = m.g (OCT_PORT_STATUS_STATE p) := v.g_of .OCT_PORT_STATUS hp
  rw [mayReach, mayReach, epDomState, epDomState, portUp, portUp, spindle, domain, port]

end

/-! The head of an input FIFO (R84, R85, R92, R99). -/

section
variable {m : Mach} {i c : Nat} {msg : Msg} {rest : List (List Msg)}

theorem popIn_leads (h : m.Canon) : Leads Feet.popIn (popIn i c) m fun _ m1 =>
    m1.getXin (i * 8 + c) = (m.getXin (i * 8 + c)).drop 1 := by
  -- whatever credits its port returns, the head leaves the FIFO
  have taken {m1 : Mach} (h1 : m1.Canon) : Leads Feet.popIn (do
      modXin (i * 8 + c) (·.drop 1)
      putXwait (i * 8 + c) false
      onlyIf (i = epSPN) (spnFree c)) m1 fun _ m2 => m2.getXin (i * 8 + c) = (m1.getXin (i * 8 + c)).drop 1 :=
    Leads.then (B := (Mask.of [] [.xwait]).plus [Feet.spnFree]) (modXin_leads h1) (fun _ => Only.bind
      (Only.doT .xwait rfl (by decide +kernel)) fun _ => Only.onlyIf ((spnFree_only c).le (by decide +kernel)))
      fun _ m2 m3 q v => (v.xin_kept _).trans q
  refine Leads.getM ?_
  dsimp only
  split
  · refine Leads.after (Only.onlyIf (emit_only _)) fun _ m1 v1 => (taken (v1.canon h)).imp fun _ m2 _ q => ?_
    rw [q, v1.xin_kept]
  · exact taken h

/-- Bobbins come from the front of the free list (R81). -/
theorem bufTake_leads {ep cls res sh : Nat} : Leads Feet.bufTake (bufTake ep cls res sh) m fun l _ =>
    l = (m.xfree.take 262144 (res + sh)).1 := by
  refine Leads.after (acctAdd_only _ _ _ _) fun _ m1 v1 => Leads.getM ?_
  have free : m1.xfree = m.xfree := v1.tab_kept .xfree
  rw [← free]
  have sub {f : RF} {n : Nat} (hf : f.k = .XB_BUF_STATUS) : Only (Mask.of [.XB_BUF_STATUS] []).has (sub f n) :=
    Only.subK .XB_BUF_STATUS hf (by decide +kernel)
  exact Leads.after (Only.doT (M := .of [] [.xfree]) .xfree rfl (by decide +kernel)) fun _ _ _ =>
    Leads.after (sub rfl) fun _ _ _ => Leads.after (sub rfl) fun _ _ _ => Leads.pure rfl

/-- The staging entry of a message for one destination that plane `p` takes, with its bobbins. -/
def stagedOn (msg : Msg) (p res sh : Nat) (bobs : List Nat) : Staged :=
  ⟨msg, p, cellsOf msg.len, 0, flowKey msg.inp msg.out msg.cls, res, sh, bobs, []⟩

/-- What the dispatch of a stored message can change. -/
def Feet.dispatchStored : Mask := (Mask.of [] [.stg]).plus [Feet.popIn, Feet.bufTake, Feet.flowDispatch]

/-- A message that its plane, the staging memory and its output queue take goes to the staging memory. -/
theorem dispatchOne_stored {p res sh : Nat} (h : m.Canon) (hm : mayReach m msg = true) (hb : heldBack m msg = false)
    (hf : (m.getFlowt (flowKey msg.inp msg.out msg.cls)).draining = false) (hc : cutsThrough m msg = false)
    (hp : choosePlane m msg = some p) (hs : stagedCells m i + cellsOf msg.len ≤ 256)
    (hq : queueAdmits m msg.out msg.cls (cellsOf msg.len) = some (res, sh)) :
    Leads Feet.dispatchStored (dispatchOne i c msg) m fun _ m1 => m1.getXin (i * 8 + c) = (m.getXin (i * 8 + c)).drop 1 ∧
      m1.getStg i = m.getStg i ++ [stagedOn msg p res sh (m.xfree.take 262144 (res + sh)).1] := by
  refine Leads.getM ?_
  dsimp only
  rw [if_neg (by simp [hm]), if_neg (by simp [hf, hb]), hp]
  dsimp only
  rw [if_neg (by simp [hc]), if_neg (Nat.not_lt.2 hs), hq]
  dsimp only
  refine Leads.bind ((popIn_leads h).imp fun _ m1 v q => (⟨q, v⟩ : _ ∧ Via _ m m1)).le fun _ m1 ⟨popped, v1⟩ => ?_
  refine Leads.bind (bufTake_leads.imp fun l m2 v q => (⟨q, v⟩ : _ ∧ Via _ m1 m2)).le fun l m2 ⟨taken, v2⟩ =>
    Leads.after (flowDispatch_only _ _ _) fun _ m3 v3 => ?_
  refine ((modStg_leads (A := .of [] [.stg]) (v3.canon (v2.canon (v1.canon h)))).imp fun _ m4 v4 q => ⟨?_, ?_⟩).le
  · rw [v4.xin_kept, v3.xin_kept, v2.xin_kept, popped]
  · rw [stagedOn, q, taken, v3.stg_kept, v2.stg_kept, v1.stg_kept, show m1.xfree = m.xfree from v1.tab_kept .xfree]

/-- A message that cuts through leaves on its port. -/
theorem deliver_port (h1 : msg.out < 128) (h2 : forCorner msg.op = false) : Leads Feet.deliver (deliver msg) m fun _ m1 =>
    Out.port msg.out msg ∈ m1.out := by
  refine Leads.after (ringLanded_only _) fun _ m1 _ => ?_
  rw [if_pos ⟨h1, h2⟩]
  refine Leads.after (mirrorBoth_only _ _ _ _) fun _ _ _ => Leads.after modPort_within fun _ _ _ => Leads.getM
    (Leads.after (pmuCount_only _ _ _) fun _ _ _ => Leads.after (pmuCount_only _ _ _) fun _ _ _ =>
      Leads.after (owe_only _) fun _ m2 _ => ?_)
  exact Leads.upd (T := .out) rfl (by decide +kernel) (List.mem_append_right _ List.mem_cons_self)

/-- What the dispatch of a message that cuts through can change. -/
def Feet.dispatchCut : Mask := (Mask.of [.XB_CNT] []).plus [Feet.popIn, Feet.flowDispatch, Feet.deliver]

/-- A message that cuts through leaves on its port without the staging memory. -/
theorem dispatchOne_cut {p : Nat} (hm : mayReach m msg = true) (hb : heldBack m msg = false)
    (hf : (m.getFlowt (flowKey msg.inp msg.out msg.cls)).draining = false) (hc : cutsThrough m msg = true)
    (hp : choosePlane m msg = some p) : Leads Feet.dispatchCut (dispatchOne i c msg) m fun _ m1 =>
      m1.getStg i = m.getStg i ∧ Out.port msg.out msg ∈ m1.out := by
  have link : msg.out < 128 ∧ forCorner msg.op = false := by
    simp only [cutsThrough, Bool.and_eq_true, decide_eq_true_eq, Bool.not_eq_true'] at hc
    tauto
  refine Leads.getM ?_
  dsimp only
  rw [if_neg (by simp [hm]), if_neg (by simp [hf, hb]), hp]
  dsimp only
  rw [if_pos hc]
  refine Leads.imp (Q := fun _ m1 => Out.port msg.out msg ∈ m1.out) ?_ fun _ m1 v q => ⟨v.stg_kept i, q⟩
  exact Leads.after (popIn_only i c) fun _ _ _ =>
    Leads.after (Only.incK (M := .of [.XB_CNT] []) .XB_CNT rfl (by decide +kernel)) fun _ _ _ =>
      Leads.after (flowDispatch_only _ _ _) fun _ _ _ => (deliver_port link.1 link.2).le

/-- The head of a FIFO with one destination is tried alone. -/
theorem dispatchHead_one (hx : m.getXin (i * 8 + c) = [msg] :: rest) :
    SameAt m (dispatchHead i c) (dispatchOne i c msg) := fun k => by
  simp only [dispatchHead, bind_at, getM_at, run_look, hx]

end

/-! The link stage (R90). -/

section
variable {m : Mach} {i p : Nat} {x : Staged}

/-- The entry of a whole message in its output queue. -/
def Staged.queued (x : Staged) (t : Nat) : QMsg := ⟨x.msg, x.cells, x.cells, x.reserve, x.shared, x.bobs, t, none⟩

/-- A whole message for one destination joins its output queue, where it may still go there. -/
theorem linkMsg_leads (h : m.Canon) (hd : x.dests = []) : Leads Feet.linkMsg (linkMsg x) m fun _ m1 =>
    mayReach m x.msg = true →
      m1.getXq (x.msg.out * 8 + x.msg.cls) = m.getXq (x.msg.out * 8 + x.msg.cls) ++ [x.queued m.time64] := by
  refine Leads.getM (Leads.after (Only.incK (M := .of [.XB_CNT] []) .XB_CNT rfl (by decide +kernel)) fun _ m1 v1 => ?_)
  rw [if_pos hd]
  refine Leads.ite (fun none => ?_) fun _ => (modXq_leads (v1.canon h)).imp fun _ m2 _ q _ => ?_
  · have given : Only (Feet.bufGive.plus [Feet.discard]).has (do
        bufGive x.msg.out x.msg.cls x.reserve x.shared x.bobs
        discard x.msg) :=
      Only.bind ((bufGive_only _ _ _ _ _).le (by decide +kernel)) fun _ => (discard_only _).le (by decide +kernel)
    exact given.leads.imp fun _ _ _ _ may => absurd (none.symm.trans may) (by decide)
  · rw [q, v1.xq_kept]
    rfl

/-- The next cell of the first message that input `i` staged is linked, and with the last one the message. -/
theorem cellLinked_leads {l : List Staged} (h : m.Canon) (hs : m.getStg i = x :: l) (hp : x.plane = p) (hd : x.dests = []) :
    Leads Feet.cellLinked (cellLinked i p) m fun _ m1 =>
      if x.linked + 1 < x.cells then m1.getStg i = { x with linked := x.linked + 1 } :: l
      else m1.getStg i = l ∧ (mayReach m x.msg = true →
        m1.getXq (x.msg.out * 8 + x.msg.cls) = m.getXq (x.msg.out * 8 + x.msg.cls) ++ [x.queued m.time64]) := by
  refine Leads.getM ?_
  dsimp only
  have first : (m.getStg i).findIdx? (fun s => decide (s.plane = p)) = some 0 := by simp [hs, List.findIdx?_cons, hp]
  rw [first, hs]
  dsimp only [List.getElem?_cons_zero, List.eraseIdx_zero, List.tail_cons, List.set_cons_zero]
  refine Leads.after (Only.each fun _ _ => flowAck_only _) fun _ m1 v1 => ?_
  have put {m1 : Mach} {y : List Staged} (h1 : m1.Canon) : Leads (Mask.of [] [.stg]) (putStg i y) m1 fun _ m2 => m2.getStg i = y :=
    Leads.upd rfl (by decide) (tget_tput_same h1.stg)
  refine Leads.ite (fun whole => ?_) fun more => ?_
  · refine Leads.bind ((put (v1.canon h)).imp fun _ m2 v q => (⟨q, v⟩ : _ ∧ Via _ m1 m2)).le fun _ m2 ⟨staged, v2⟩ => ?_
    refine ((linkMsg_leads (x := { x with linked := x.linked + 1 }) (v2.canon (v1.canon h)) hd).imp fun _ m3 v3 q => ?_).le
    rw [if_neg (Nat.not_lt.2 whole)]
    refine ⟨?_, fun may => ?_⟩
    · exact (v3.stg_kept i).trans staged
    · have time : m2.time64 = m.time64 := by
        rw [Mach.time64, show m2.tb = m1.tb from v2.tab_kept .tb, show m1.tb = m.tb from v1.tab_kept .tb]
        rfl
      rw [q ((mayReach_kept v2 _).trans ((mayReach_kept v1 _).trans may)), v2.xq_kept, v1.xq_kept, time]
      rfl
  · refine ((put (v1.canon h)).imp fun _ m2 _ staged => ?_).le
    rw [if_pos (Nat.not_le.1 more)]
    exact staged

end

/-! An output stage (R88, R98, R103, R312). -/

/-- Rounds that keep to a set wherever the set leads from `m` make a loop that keeps to it. -/
theorem RunsIn.each {α : Type} {S : Upd → Bool} {f : α → P Unit} {l : List α} {m : Mach}
    (hf : ∀ a ∈ l, ∀ m1, Via S m m1 → RunsIn S (f a) m1) : RunsIn S (each l f) m := by
  induction l generalizing m with
  | nil => exact RunsIn.pure ()
  | cons a t ih =>
    exact Ends.bind (hf a List.mem_cons_self m (.refl m)) fun _ m1 v =>
      Ends.imp (ih fun b hb m2 v2 => hf b (List.mem_cons_of_mem _ hb) m2 (v.trans v2)) fun _ _ v2 => v.trans v2

/-- What waiting for credit changes. -/
def Feet.creditWait : Mask := .of [.TWN_SPN_CNT] [.spnWait]

/-! Waiting for credit leaves what an output stage chooses by. -/

section
variable {m m1 : Mach} {ep cls : Nat}

theorem spnCredit_kept (v : Via Feet.creditWait.has m m1) : spnCredit m1 = spnCredit m := funext fun msg => by
  have limit : m1.g (TWN_SPN_CRED_LIMIT msg.cls) = m.g (TWN_SPN_CRED_LIMIT msg.cls) := v.g_of .TWN_SPN_CRED
  have consumed : m1.g (TWN_SPN_CRED_CONSUMED msg.cls) = m.g (TWN_SPN_CRED_CONSUMED msg.cls) := v.g_of .TWN_SPN_CRED
  rw [spnCredit, spnCredit, limit, consumed]

theorem reelRoom_kept (v : Via Feet.creditWait.has m m1) : reelRoom m1 = reelRoom m := funext fun msg => by
  rw [reelRoom, reelRoom, reelBlocks, reelBlocks, show m1.reel = m.reel from v.tab_kept .reel]

theorem sqRoom_kept (v : Via Feet.creditWait.has m m1) : sqRoom m1 = sqRoom m := funext fun msg => by
  rw [sqRoom, sqRoom, Mach.getSqin, Mach.getSqin, show m1.sqin = m.sqin from v.tab_kept .sqin]

theorem reelShort_kept (v : Via Feet.creditWait.has m m1) : reelShort m1 = reelShort m := by
  have xq (k : Nat) : m1.getXq k = m.getXq k := v.xq_kept k
  simp only [reelShort, spnCredit_kept v, reelRoom_kept v, xq]

theorem sendable_kept (v : Via Feet.creditWait.has m m1) : sendable m1 ep cls = sendable m ep cls := by
  have state : m1.g TWN_SPN_STATUS_STATE = m.g TWN_SPN_STATUS_STATE := v.g_of .TWN_SPN_STATUS
  have full : m1.g TWN_SPN_STATUS_REEL_FULL = m.g TWN_SPN_STATUS_REEL_FULL := v.g_of .TWN_SPN_STATUS
  rw [sendable, sendable, spnCredit_kept v, reelRoom_kept v, sqRoom_kept v, v.xq_kept, v.port_kept, state, full]

theorem drrCredit_kept (v : Via Feet.creditWait.has m m1) : drrCredit m1 = drrCredit m := funext fun t => by
  have weight : m1.g (XB_CLASS_CFG_WEIGHT t) = m.g (XB_CLASS_CFG_WEIGHT t) := v.g_of .XB_CLASS_CFG
  funext credited d
  rw [drrCredit, drrCredit, weight]

theorem drrPick_kept (v : Via Feet.creditWait.has m m1) (n : Nat) : drrPick m1 ep n = drrPick m ep n := by
  induction n with
  | zero => rfl
  | succ n ih =>
    funext t credited d
    rw [drrPick, drrPick, sendable_kept v, drrCredit_kept v, v.xq_kept, ih]

theorem planesUp_kept (v : Via Feet.creditWait.has m m1) : planesUp m1 = planesUp m := by
  have state (p : Nat) : m1.g (planeState p) = m.g (planeState p) := v.g_of .XB_PLANE_STATUS
  rw [planesUp, planesUp]
  exact List.filter_congr fun p _ => by rw [state]

/-- What an output stage chooses stands while the heads of the Spindle's queues wait for credit. -/
theorem drrChoice_kept (v : Via Feet.creditWait.has m m1) :
    drrPick m1 ep 140 (m1.getXturn ep % 8) (decide (8 ≤ m1.getXturn ep)) (deficits m1 ep) =
      drrPick m ep 140 (m.getXturn ep % 8) (decide (8 ≤ m.getXturn ep)) (deficits m ep) := by
  have turn : m1.getXturn ep = m.getXturn ep := congrArg (tget 1 · ep) (show m1.xturn = m.xturn from v.tab_kept .xturn)
  have debts : deficits m1 ep = deficits m ep :=
    congrArg (fun t => (List.range 8).map fun c => tget 0 t (ep * 8 + c)) (show m1.xdef = m.xdef from v.tab_kept .xdef)
  rw [turn, debts, drrPick_kept v]

end

section
variable {m m1 : Mach} {ep cls : Nat}

/-- Where no packet waits for room in the Reel, the Spindle's output counts what waits for credit. -/
theorem spnWaits_runs (h : reelShort m = false) : RunsIn Feet.creditWait.has spnWaits m := by
  refine RunsIn.getM (RunsIn.ite (fun _ => RunsIn.each fun c hc m1 v => RunsIn.getM ?_) fun _ => RunsIn.pure ())
  split
  next q _ hq =>
    have wait : Only Feet.creditWait.has (do putSpnWait c true; inc (TWN_SPN_CNT_COUNT 12)) :=
      Only.bind (Only.doT .spnWait rfl (by decide +kernel)) fun _ => Only.incK .TWN_SPN_CNT rfl (by decide +kernel)
    have roomy : ¬(spnCredit m1 q.msg = true ∧ reelRoom m1 q.msg = false) := fun short => by
      have : reelShort m1 = true := List.any_eq_true.2 ⟨c, hc, by simp [hq, short]⟩
      rw [reelShort_kept v, h] at this
      exact absurd this (by decide)
    exact RunsIn.seq ((Only.onlyIf wait).runsIn m1) fun _ => Only.onlyIf' fun short => absurd ⟨short.1, short.2.1⟩ roomy
  next => exact RunsIn.pure ()

/-- The head leaves its queue. -/
theorem popQueue_leads {q : QMsg} (h : m.Canon) : Leads Feet.popQueue (popQueue ep cls q) m fun _ m1 =>
    m1.getXq (ep * 8 + cls) = (m.getXq (ep * 8 + cls)).drop 1 := by
  refine Leads.bind (modXq_leads h) fun _ m1 popped => Leads.getM ?_
  refine Leads.after (B := .of [] [.xaged]) (Only.onlyIf (Only.doT .xaged rfl (by decide +kernel))) fun _ m2 v2 => ?_
  have stands : m2.getXq (ep * 8 + cls) = (m.getXq (ep * 8 + cls)).drop 1 := (v2.xq_kept _).trans popped
  split
  · exact (bufGive_only _ _ _ _ _).leads.imp fun _ _ _ v => (v.xq_kept _).trans stands
  · have unref (id : Nat) : Only (Mask.of [] [.mcs, .mcq] |>.plus [Feet.bufGive]).has (do
        acctSub ep cls q.reserve q.shared
        mcUnref id) := Only.bind ((acctSub_only _ _ _ _).le (by decide +kernel)) fun _ => mcUnref_only id
    exact (unref _).leads.imp fun _ _ _ v => (v.xq_kept _).trans stands

/-- The Spindle's output counts what waits for credit, and every other output does nothing first. -/
theorem outputWaits_leads (h : ep = epSPN → reelShort m = false) :
    Leads Feet.outputSend (onlyIf (ep = epSPN) spnWaits) m fun _ m1 => Via Feet.creditWait.has m m1 :=
  Leads.le (B := Feet.creditWait) (Ends.imp (RunsIn.onlyIf fun spindle => spnWaits_runs (h spindle)) fun _ _ v => ⟨v, v⟩)

/-- While a plane is in SERVICE an output sends the head of C0. -/
theorem outputSend_first {q : QMsg} (h : m.Canon) (up : planesUp m ≠ []) (hr : ep = epSPN → reelShort m = false)
    (hq : sendable m ep 0 = some q) : Leads Feet.outputSend (outputSend ep) m fun _ m1 =>
      m1.getXq (ep * 8) = (m.getXq (ep * 8)).drop 1 := by
  refine Leads.bind (outputWaits_leads hr) fun _ m1 v1 => Leads.getM ?_
  rw [planesUp_kept v1, if_neg up, sendable_kept v1, hq]
  refine Leads.then (B := Feet.deliver) (popQueue_leads (v1.canon h)).le (fun _ => deliver_only _) fun _ m2 m3 popped v3 => ?_
  rw [v3.xq_kept, ← v1.xq_kept]
  exact popped

/-- With nothing to send from C0, an output sends the head of the class that the round robin gives the turn. -/
theorem outputSend_turn {c : Nat} {q : QMsg} {d : List Nat} (h : m.Canon) (up : planesUp m ≠ [])
    (hr : ep = epSPN → reelShort m = false) (hn : sendable m ep 0 = none)
    (hd : drrPick m ep 140 (m.getXturn ep % 8) (decide (8 ≤ m.getXturn ep)) (deficits m ep) = some (c, q, d)) :
    Leads Feet.outputSend (outputSend ep) m fun _ m1 =>
      m1.getXq (ep * 8 + c) = (m.getXq (ep * 8 + c)).drop 1 ∧ m1.getXturn ep = c + 8 := by
  refine Leads.bind (outputWaits_leads hr) fun _ m1 v1 => Leads.getM ?_
  rw [planesUp_kept v1, if_neg up, sendable_kept v1, hn]
  dsimp only
  rw [drrChoice_kept v1, hd]
  refine Leads.after (B := .of [] [.xdef]) (Only.each fun _ _ => Only.doT .xdef rfl (by decide +kernel)) fun _ m2 v2 => ?_
  have canon2 : m2.Canon := v2.canon (v1.canon h)
  refine Leads.bind (Leads.upd (T := .xturn) (Q := fun _ m3 => m3.getXturn ep = c + 8 ∧ m3.xq = m2.xq ∧ m3.Canon) rfl
    (by decide +kernel) ⟨tget_tput_same canon2.xturn, rfl, Upd.apply_canon canon2 _⟩) fun _ m3 ⟨turn, queues, canon3⟩ => ?_
  refine Leads.bind ((popQueue_leads canon3).imp fun _ m4 v4 popped => (⟨popped, v4⟩ : _ ∧ Via _ m3 m4)).le
    fun _ m4 ⟨popped, v4⟩ => (deliver_only _).leads.imp fun _ m5 _ v5 => ⟨?_, ?_⟩
  · rw [v5.xq_kept, popped, Mach.getXq, queues]
    exact congrArg (List.drop 1) ((v2.xq_kept _).trans (v1.xq_kept _))
  · rw [Mach.getXturn, show m5.xturn = m4.xturn from v5.tab_kept .xturn, show m4.xturn = m3.xturn from v4.tab_kept .xturn]
    exact turn

/-- An aged head is marked (R107). -/
theorem ageExpiry_leads {q : QMsg} {l : List QMsg} (h : m.Canon) (hq : m.getXq (ep * 8 + cls) = q :: l)
    (up : 128 ≤ ep ∨ portUp m ep = true) (old : m.g (XB_CLASS_CFG_AGE_LIMIT cls) * 1000 ≤ m.time64 - q.time) :
    Leads Feet.ageExpiry (ageExpiry ep cls) m fun _ m1 => m1.getXaged (ep * 8 + cls) = true := by
  refine Leads.getM ?_
  rw [hq]
  dsimp only
  rw [if_pos ⟨up, old⟩]
  refine Leads.after (Only.incK (M := .of [.XB_CNT] []) .XB_CNT rfl (by decide +kernel)) fun _ m1 v1 => ?_
  refine Leads.onlyIf (fun _ => ?_) fun marked => ?_
  · exact Leads.then (Q := fun _ m2 => m2.getXaged (ep * 8 + cls) = true)
      (Leads.upd rfl (by decide +kernel) (tget_tput_same (v1.canon h).xaged)) (fun _ => raise_only _) fun _ m2 m3 set v3 => by
        rw [Mach.getXaged, show m3.xaged = m2.xaged from v3.tab_kept .xaged]
        exact set
  · rw [Mach.getXaged, show m1.xaged = m.xaged from v1.tab_kept .xaged]
    exact Bool.eq_true_of_not_eq_false marked

/-- FLUSHED of a snoop that the Spindle relayed ends it (R388). -/
theorem flushedNotice_spindle {was : Op} {msg : Msg} (out : msg.out = epSPN) :
    Leads Feet.flushedNotice (flushedNotice was msg) m fun _ m1 =>
      m1.spn.relay = m.spn.relay.erase (msg.agent, lineOf msg.addr) := by
  refine Leads.getM ?_
  have beyond (n : Nat) (h : n ≤ 164) : ¬msg.out < n := by rw [out]; exact Nat.not_lt.2 (h.trans (by decide))
  have notTM : msg.out ≠ epTM := by rw [out]; decide
  rw [if_neg (beyond 128 (by decide)), if_neg (beyond 160 (by decide)), if_neg (beyond 164 (by decide)), if_neg notTM, onlyIf,
    if_pos out]
  exact Leads.getM (Leads.upd (T := .spn) rfl (by decide +kernel) rfl)

end

end Sys2Proof.Machine
end

section
/-!
The statement of the Crossing's messages (R84, R88-R94, R98, R99, R103, R107, R108; O7).
-/
namespace Sys2Proof.Machine

-- One declaration at a time: proofs that compute in the kernel wait for it, each with a stack of its own.
set_option Elab.async false

section
variable {m m1 : Mach}

theorem Settled.stg (h : Settled m m1) (k : Nat) : m1.getStg k = m.getStg k := h.via.stg_kept k

theorem Settled.xq (h : Settled m m1) (k : Nat) : m1.getXq k = m.getXq k := h.via.xq_kept k

theorem Settled.xturn (h : Settled m m1) (k : Nat) : m1.getXturn k = m.getXturn k :=
  congrArg (tget 1 · k) (show m1.xturn = m.xturn from h.via.tab_kept .xturn)

theorem Settled.xaged (h : Settled m m1) (k : Nat) : m1.getXaged k = m.getXaged k :=
  congrArg (tget false · k) (show m1.xaged = m.xaged from h.via.tab_kept .xaged)

theorem Settled.relay (h : Settled m m1) : m1.spn.relay = m.spn.relay :=
  congrArg SpnX.relay (show m1.spn = m.spn from h.via.tab_kept .spn)

end

/-! A step begins with no outputs sent; a choice that reads the block by recursion does not see them. -/

section
variable {m : Mach}

theorem leastLoaded_start (i : Nat) (l : List Nat) : leastLoaded ((Upd.out []).apply m) i l = leastLoaded m i l := by
  induction l with
  | nil => rfl
  | cons p t ih =>
    rw [leastLoaded, leastLoaded, ih]
    rfl

theorem choosePlane_start (msg : Msg) : choosePlane ((Upd.out []).apply m) msg = choosePlane m msg := by
  rw [choosePlane, leastLoaded_start]
  rfl

theorem drrPick_start (ep n : Nat) : drrPick ((Upd.out []).apply m) ep n = drrPick m ep n := by
  induction n with
  | zero => rfl
  | succ n ih =>
    funext t credited d
    have sent : sendable ((Upd.out []).apply m) ep t = sendable m ep t := rfl
    have credit : drrCredit ((Upd.out []).apply m) = drrCredit m := rfl
    have queue : ((Upd.out []).apply m).getXq (ep * 8 + t) = m.getXq (ep * 8 + t) := rfl
    rw [drrPick, drrPick, sent, credit, queue, ih]

/-- The turn that the round robin gives is the one that the state before the step gives. -/
theorem drrChoice_start {ep : Nat} {o : Option (Nat × QMsg × List Nat)}
    (h : drrPick m ep 140 (m.getXturn ep % 8) (decide (8 ≤ m.getXturn ep)) (deficits m ep) = o) :
    let m0 := (Upd.out []).apply m
    drrPick m0 ep 140 (m0.getXturn ep % 8) (decide (8 ≤ m0.getXturn ep)) (deficits m0 ep) = o := by
  intro m0
  rw [drrPick_start]
  exact h

end

/-- What a FIFO and the staging memory hold when its head has gone to the staging memory. -/
def Stored (s : State) (e c : Nat) (rest : List (List Msg)) (x : Staged) (t : Mach) : Prop :=
  t.getXin (e * 8 + c) = rest ∧ t.getStg e = s.m.getStg e ++ [x]

/-- A command that tries the head of a FIFO: a head that is admitted goes to the staging memory. -/
theorem does_stored {s : State} {instr : Instr} {x : P Unit} {e c p res sh : Nat} {msg : Msg} {rest : List (List Msg)}
    (hi : s.Inv) (hx : s.m.getXin (e * 8 + c) = [msg] :: rest) (hm : mayReach s.m msg = true) (hb : heldBack s.m msg = false)
    (hf : (s.m.getFlowt (flowKey msg.inp msg.out msg.cls)).draining = false) (hc : cutsThrough s.m msg = false)
    (hp : choosePlane s.m msg = some p) (hs : stagedCells s.m e + cellsOf msg.len ≤ 256)
    (hq : queueAdmits s.m msg.out msg.cls (cellsOf msg.len) = some (res, sh))
    (hd : SameAt ((Upd.out []).apply s.m) x (dispatchHead e c)) (hr : exec instr s = Machine.cmd x s := by rfl) :
    Does instr s (Stored s e c rest (stagedOn msg p res sh (s.m.xfree.take 262144 (res + sh)).1)) := by
  have stored := dispatchOne_stored (m := (Upd.out []).apply s.m) (i := e) (c := c) (Upd.apply_canon hi.canon _) hm hb hf hc
    ((choosePlane_start msg).trans hp) hs hq
  exact does_calm (Q := Stored s e c rest _) (Ends.same hd (Ends.same (dispatchHead_one hx) (Ends.imp stored
    fun _ m1 ⟨v, popped, staged⟩ => ⟨hi.sent.kept v, popped.trans (congrArg (List.drop 1) hx), staged⟩)))
    (fun _ _ q => q) hr

/-- Settles O7: each form is a program that leads its queues and its stages where the rules say, and the end of the step leaves them
(R84, R88-R94, R98, R99, R103, R107, R108, R388). That what goes to an internal endpoint waits for that endpoint's own command, and
that a Corner's messages reach it whatever its port's state is, are choices of the model (notes/assumptions: 5, 6). -/
theorem crossingMessagesComplete : Obligations.CrossingMessagesComplete := by
  unfold Obligations.CrossingMessagesComplete
  intro s hi
  have hc : ((Upd.out []).apply s.m).Canon := Upd.apply_canon hi.canon _
  refine ⟨fun e c msg rest p res sh hx hm hb hf ht hp hs hq => ⟨?_, ?_⟩, fun e c msg rest p hx hm hb hf ht hp => ?_,
    fun e plane x l hs hp hd => ?_, fun ep q up hr hq => ?_, fun ep c q d up hr hn hd => ?_, fun ep c q l hq up old => ?_,
    fun was q out => ?_⟩
  · exact does_stored hi hx hm hb hf ht hp hs hq fun _ => rfl
  · exact does_stored hi hx hm hb hf ht hp hs hq fun _ => rfl
  · have cut := dispatchOne_cut (m := (Upd.out []).apply s.m) (i := e) (c := c) hm hb hf ht ((choosePlane_start msg).trans hp)
    exact does_leads hi (Ends.same (dispatchHead_one hx) cut) fun m1 m2 ⟨staged, sent⟩ st =>
      ⟨(st.stg e).trans staged, st.out _ sent⟩
  · refine does_leads hi (cellLinked_leads hc hs hp hd) fun m1 m2 q st => ?_
    rw [st.stg, st.xq]
    exact q
  · exact does_leads hi (outputSend_first hc up hr hq) fun m1 m2 q st => (st.xq _).trans q
  · exact does_leads hi (outputSend_turn hc up hr hn (drrChoice_start hd)) fun m1 m2 ⟨queue, turn⟩ st =>
      ⟨(st.xq _).trans queue, (st.xturn _).trans turn⟩
  · exact does_leads hi (ageExpiry_leads hc hq up old) fun m1 m2 q st => (st.xaged _).trans q
  · exact does_leads hi (flushedNotice_spindle out) fun m1 m2 q st => st.relay.trans q

end Sys2Proof.Machine
end
